-- ==== Sys2Proof/Word.lean ====
section
/-!
DEFINITION. Word.lean: the word types of the KG7160 and their plainest arithmetic. Registers and device memory are
little-endian 32-bit words (R8, R11); scalar registers and vector lanes are 32 bits, accumulator lanes 56 bits (R200).
-/

namespace Sys2Proof

/-- One byte of device memory. -/
abbrev Byte := BitVec 8

/-- One BAR0 register, scalar register or vector lane (R11, R200). -/
abbrev Word := BitVec 32

/-- One accumulator lane, Q8.47 (R200, R224). -/
abbrev Acc := BitVec 56

/-- Every RC counter and 32-bit count wraps at 2^32 (R97, R126 and the register chapters). -/
abbrev W32 : Nat := 4294967296

/-- Two to the 64th, for extended ticks and 64-bit counts (R43, R409). -/
abbrev W64 : Nat := 18446744073709551616

end Sys2Proof
end

