-- ==== Sys2Proof/Syntax.lean ====
section
/-!
DEFINITION. Syntax.lean: the commands of the KG7160, one constructor of `Instr` for each row of the table of operations
and events. The table gives no bits; the operands are those the rule of each row names. An event that something outside
the digital logic decides (a packet, a radio detection, a flash status, a sensor reading) carries what was observed.
-/

namespace Sys2Proof

/-- The two access paths to BAR0 (R464, R465). -/
inductive BusPath where
  | pcie | smbus
  deriving DecidableEq, Repr

/-- What every KCI instruction carries beside its own operands (R470, R475): the tag returned in the completion, the
fence flag, whether a reserved FLAGS bit is set, whether a byte beyond the last operand is nonzero or a value lies
outside its field's width, and the host address of a result block. -/
structure KciHdr where
  tag      : Nat
  fence    : Bool
  badFlag  : Bool
  badExtra : Bool
  raddr    : Nat
  deriving DecidableEq, Repr

/-- What the classifier of R73 tells apart in a received Ethernet frame. -/
inductive FrameKind where
  | udp | arp | neighbour | icmp | icmpv6 | igmp | mld | other
  deriving DecidableEq, Repr

/-- What a UDP payload carries for step 5 of R73, besides the tests on addresses and ports that the device makes. -/
inductive UdpCarries where
  | media | ptp | ptpMgmt | sap | unknown
  deriving DecidableEq, Repr

/-- UDP checksum of a received packet (R76). -/
inductive UdpCsum where
  | zero | correct | wrong
  deriving DecidableEq, Repr

/-- RTP header fields the port reads (R76, R79 to R82): `ext` and `pad` are X and P, and `body` is what follows the fixed header of 12 bytes: a header
extension where X = 1, the payload, and padding where P = 1. -/
structure Rtp where
  version : Nat
  ext     : Bool
  pad     : Bool
  cc      : Nat
  marker  : Bool
  pt      : Nat
  seq     : Nat
  ts      : Nat
  ssrc    : Nat
  body    : List Byte
  deriving DecidableEq, Repr

/-- A received Ethernet frame, as far as R73 to R82 and R523 look into it: its length, whether its FCS holds, how many of its RS-FEC
codewords were corrected or not correctable, and its headers. -/
structure Frame where
  bytes     : Nat
  fcsOk     : Bool
  fecCorr   : Nat
  fecUncorr : Nat
  macCtl    : Bool
  kind      : FrameKind
  carries   : UdpCarries
  ipv6      : Bool
  dstMac    : Nat
  dst       : Nat
  src       : Nat
  sport     : Nat
  dport     : Nat
  tci       : Option Nat
  dscp      : Nat
  ihl       : Nat
  frag      : Bool
  hdrCsumOk : Bool
  extHdr    : Bool
  udpCsum   : UdpCsum
  rtp       : Rtp
  deriving DecidableEq, Repr

/-- A match key of an ingress flow (R77, R477). -/
structure FlowKey where
  present  : Bool
  ipv6     : Bool
  srcAny   : Bool
  untagged : Bool
  port     : Nat
  vlan     : Nat
  dport    : Nat
  dst      : Nat
  src      : Nat
  deriving DecidableEq, Repr

/-- A path of an egress flow (R87, R477). -/
structure FlowPath where
  present  : Bool
  ipv6     : Bool
  untagged : Bool
  port     : Nat
  vlan     : Nat
  pcp      : Nat
  dscp     : Nat
  ttl      : Nat
  sport    : Nat
  dport    : Nat
  dst      : Nat
  deriving DecidableEq, Repr

/-- Operand block of FLOW.OPEN_RX (R77, R477). -/
structure RxBlock where
  flow      : Nat
  mode      : Nat
  format    : Nat
  channels  : Nat
  rate      : Nat
  ptime     : Nat
  pt        : Nat
  offset    : Nat
  queue     : Nat
  skewLimit : Nat
  keyA      : FlowKey
  keyB      : FlowKey
  deriving DecidableEq, Repr

/-- Operand block of FLOW.OPEN_TX (R87, R477). -/
structure TxBlock where
  flow     : Nat
  mode     : Nat
  format   : Nat
  channels : Nat
  rate     : Nat
  ptime    : Nat
  pt       : Nat
  offset   : Nat
  queue    : Nat
  ssrc     : Nat
  txOffset : Nat
  udpCsum  : Nat
  pathA    : FlowPath
  pathB    : FlowPath
  rtcpEn   : Bool
  deriving DecidableEq, Repr

/-- Operand block of FLOW.PORT_ADDR (R72, R477). -/
structure PortAddr where
  port : Nat
  v4   : Bool
  v6   : Bool
  ip4  : Nat
  pfx4 : Nat
  ip6  : Nat
  pfx6 : Nat
  deriving DecidableEq, Repr

/-- Operands of NODE.LOAD (R131, R160). -/
structure NodeOp where
  node    : Nat
  mask    : Nat
  mode    : Nat
  cls     : Nat
  home    : Nat
  nosteal : Nat
  fpol    : Nat
  alt     : Nat
  budget  : Nat
  prog    : Nat
  ctx     : Nat
  account : Nat
  deriving DecidableEq, Repr

/-- Operands of TIMER.ARM (R155, R160). `rel` is FLAGS.REL, and `due` is then the DELAY. -/
structure TimerOp where
  list     : Nat
  target   : Nat
  flag     : Nat
  rel      : Bool
  due      : Nat
  dropLate : Nat
  report   : Nat
  tag      : Nat
  deriving DecidableEq, Repr

/-- Operands of TIMER.BEAT (R151, R160). -/
structure BeatOp where
  gen   : Nat
  en    : Nat
  q     : Nat
  flag  : Nat
  start : Nat
  deriving DecidableEq, Repr

/-- Operands of QUEUE.OPEN (R125); `mode` 1 FIFO, 2 ORDERED, 3 ASYNC, as MQ_QINFO.MODE codes them (R128). -/
structure QueueOp where
  queue   : Nat
  mode    : Nat
  depth   : Nat
  retain  : Nat
  account : Nat
  deriving DecidableEq, Repr

/-- Operands of SYS.ACCOUNT (R189). -/
structure AccountOp where
  account  : Nat
  kind     : Nat
  quota    : Nat
  releases : Nat
  attach   : Nat
  deriving DecidableEq, Repr

/-- Operands of MODEM.LINK (R380). -/
structure ModemOp where
  link    : Nat
  rxEn    : Nat
  txEn    : Nat
  mod     : Nat
  rxQueue : Nat
  rxNode  : Nat
  rxFlag  : Nat
  txQueue : Nat
  txAtten : Nat
  ver     : Nat
  pwr     : Nat
  deriving DecidableEq, Repr

/-- Operands of PACK.JOB (R397, R422), but for OP, which the two rows fix. -/
structure PackOp where
  ratio   : Nat
  count   : Nat
  inAddr  : Nat
  outAddr : Nat
  outLen  : Nat
  mapAddr : Nat
  deriving DecidableEq, Repr

/-- Operands of CAP.REPLAY (R420, R422). `byPoint` is FLAGS.POINT, and `from_` is then the POINT. -/
structure ReplayOp where
  channel : Nat
  byPoint : Bool
  from_   : Nat
  count   : Nat
  queue   : Nat
  deriving DecidableEq, Repr

/-- Operands of TIME.CONFIG (R47, R48): role 0 ordinary slave-only, 1 ordinary master-capable, 2 boundary; profile
0 ST 2059-2, 1 AES67; `ports` a bit per port; the intervals are signed logarithms. -/
structure PtpConfig where
  role      : Nat
  profile   : Nat
  ports     : Nat
  domain    : Nat
  logSync   : Int
  logAnn    : Int
  logDelay  : Int
  annTo     : Nat
  priority1 : Nat
  priority2 : Nat
  clockCls  : List Nat
  deriving DecidableEq, Repr

/-- What best master selection reads of an Announce (R42, R47, R49), with the domain that its header names. -/
structure Announce where
  domain    : Nat
  priority1 : Nat
  clockCls  : Nat
  accuracy  : Nat
  variance  : Nat
  priority2 : Nat
  gmId      : Nat
  steps     : Nat
  utcOffset : Int
  deriving DecidableEq, Repr

/-- The offer of a HELLO or HELLO_ACK (R480), or of a beltpack JOIN (R483). -/
structure WlOffer where
  minMaj   : Nat
  maxMaj   : Nat
  minors   : List Nat
  cap      : Nat
  deviceId : Nat
  deriving DecidableEq, Repr

/-- What the authentication of R486 finds in a boot image (R485). The cryptographic checks come with their outcome. -/
structure BootImage where
  magic    : Nat
  hdrVer   : Nat
  keySlot  : Nat
  rollback : Nat
  imageVer : Nat
  bodyLen  : Nat
  keyHash  : Nat
  sigOk    : Bool
  bodyOk   : Bool
  deriving DecidableEq, Repr

/-- One code or shared-data section record of a graph image: cluster mask, address, words (R478). -/
structure GraphBytes where
  clusters : Nat
  addr     : Nat
  bytes    : List Byte
  deriving DecidableEq, Repr

/-- One context record of a graph image: the HBM address and the bytes of image 0 (R478). -/
structure GraphCtx where
  addr  : Nat
  bytes : List Byte
  deriving DecidableEq, Repr

/-- A graph image as GRAPH.LOAD reads it from HBM (R478): header fields, whether the CRC-32 holds, whether HBM serves every access while the
sections are applied (R479), and the sections in KIND order. -/
structure GraphImage where
  magic    : Nat
  ver      : Nat
  crcOk    : Bool
  hbmOk    : Bool
  accounts : List AccountOp
  queues   : List QueueOp
  code     : List GraphBytes
  shared   : List GraphBytes
  contexts : List GraphCtx
  nodes    : List NodeOp
  members  : List (Nat × Nat)
  beats    : List BeatOp
  arms     : List Nat
  deriving DecidableEq, Repr

/-- Address operand of a single load or store: Pn, the mode and its displacement, immediate or Nm (R206, R258). -/
structure MemOp where
  p    : Nat
  mode : Nat
  disp : Int
  n    : Nat
  deriving DecidableEq, Repr

/-- One operand of a dual load: Pn and the dual mode (R259). -/
structure DualOp where
  p    : Nat
  mode : Nat
  deriving DecidableEq, Repr

/-- Fields of a scalar three-register instruction: S bit, D, X, Y and SETF (R247, R252). -/
structure SaluOp where
  sat  : Bool
  d    : Nat
  x    : Nat
  y    : Nat
  setf : Bool
  deriving DecidableEq, Repr

/-- Fields of a scalar shift by an immediate (R253). -/
structure ShiOp where
  sat : Bool
  d   : Nat
  x   : Nat
  cnt : Nat
  deriving DecidableEq, Repr

/-- Fields of a vector instruction: S, Q, W (true = W24), D, X and Y (R255). -/
structure ValuOp where
  sat : Bool
  q   : Bool
  w24 : Bool
  d   : Nat
  x   : Nat
  y   : Nat
  deriving DecidableEq, Repr

/-- Fields of MPY, MAC and MSU: S, Q, D (accumulator), X, Y, and the broadcast lane when F[3] = 1 (R256). -/
structure MacOp where
  sat  : Bool
  q    : Bool
  d    : Nat
  x    : Nat
  y    : Nat
  lane : Option Nat
  deriving DecidableEq, Repr

/-- Fields of an accumulator operation: S, Q, D, X and Y (R256). -/
structure AopOp where
  sat : Bool
  q   : Bool
  d   : Nat
  x   : Nat
  y   : Nat
  deriving DecidableEq, Repr

/-- The event that a memory pass reports for one word (R437): its address and whether it could be corrected. -/
structure MemFinding where
  addr      : Nat
  corrected : Bool
  deriving DecidableEq, Repr

/-- The commands: the media core's instructions first, which a decoder of its words builds, then the other rows, each part in the order of the table of operations
and events; each docstring gives the row and the rule that governs it. Cores are numbered k = 16 × cluster + core (R191). -/
inductive Instr where
  /-- ADD (R252). -/
  | add (core : Nat) (op : SaluOp)
  /-- SUB (R252). -/
  | sub (core : Nat) (op : SaluOp)
  /-- ADDU (R252). -/
  | addu (core : Nat) (op : SaluOp)
  /-- SUBU (R252). -/
  | subu (core : Nat) (op : SaluOp)
  /-- NEG (R252). -/
  | neg (core : Nat) (op : SaluOp)
  /-- ABS (R252). -/
  | abs (core : Nat) (op : SaluOp)
  /-- MIN (R252). -/
  | min (core : Nat) (op : SaluOp)
  /-- MAX (R252). -/
  | max (core : Nat) (op : SaluOp)
  /-- AND (R252). -/
  | and_ (core : Nat) (op : SaluOp)
  /-- OR (R252). -/
  | or_ (core : Nat) (op : SaluOp)
  /-- XOR (R252). -/
  | xor_ (core : Nat) (op : SaluOp)
  /-- ANDN (R252). -/
  | andn (core : Nat) (op : SaluOp)
  /-- SHL (R252). -/
  | shl (core : Nat) (op : SaluOp)
  /-- SHR (R252). -/
  | shr (core : Nat) (op : SaluOp)
  /-- SAR (R252). -/
  | sar (core : Nat) (op : SaluOp)
  /-- SRR (R252). -/
  | srr (core : Nat) (op : SaluOp)
  /-- MUL (R252). -/
  | mul (core : Nat) (op : SaluOp)
  /-- MULU (R252). -/
  | mulu (core : Nat) (op : SaluOp)
  /-- MOV (R252). -/
  | mov (core : Nat) (op : SaluOp)
  /-- CLZ (R252). -/
  | clz (core : Nat) (op : SaluOp)
  /-- BFX (R252). -/
  | bfx (core : Nat) (op : SaluOp)
  /-- ADDI (R253). -/
  | addi (core : Nat) (sat : Bool) (d : Nat) (x : Nat) (imm : Int)
  /-- SHI_SHL (R253). -/
  | shiShl (core : Nat) (op : ShiOp)
  /-- SHI_SHR (R253). -/
  | shiShr (core : Nat) (op : ShiOp)
  /-- SHI_SAR (R253). -/
  | shiSar (core : Nat) (op : ShiOp)
  /-- SHI_SRR (R253). -/
  | shiSrr (core : Nat) (op : ShiOp)
  /-- MOVL (R253). -/
  | movl (core : Nat) (d : Nat) (imm : Int)
  /-- MOVH (R253). -/
  | movh (core : Nat) (d : Nat) (imm : Nat)
  /-- CMPI (R253). -/
  | cmpi (core : Nat) (x : Nat) (imm : Int)
  /-- VADD (R255). -/
  | vadd (core : Nat) (op : ValuOp)
  /-- VSUB (R255). -/
  | vsub (core : Nat) (op : ValuOp)
  /-- VNEG (R255). -/
  | vneg (core : Nat) (op : ValuOp)
  /-- VABS (R255). -/
  | vabs (core : Nat) (op : ValuOp)
  /-- VMIN (R255). -/
  | vmin (core : Nat) (op : ValuOp)
  /-- VMAX (R255). -/
  | vmax (core : Nat) (op : ValuOp)
  /-- VAND (R255). -/
  | vand (core : Nat) (op : ValuOp)
  /-- VOR (R255). -/
  | vor (core : Nat) (op : ValuOp)
  /-- VXOR (R255). -/
  | vxor (core : Nat) (op : ValuOp)
  /-- VSHL (R255). -/
  | vshl (core : Nat) (op : ValuOp)
  /-- VSHR (R255). -/
  | vshr (core : Nat) (op : ValuOp)
  /-- VSAR (R255). -/
  | vsar (core : Nat) (op : ValuOp)
  /-- VSRR (R255). -/
  | vsrr (core : Nat) (op : ValuOp)
  /-- VCMPEQ (R255). -/
  | vcmpeq (core : Nat) (op : ValuOp)
  /-- VCMPLT (R255). -/
  | vcmplt (core : Nat) (op : ValuOp)
  /-- VCMPLE (R255). -/
  | vcmple (core : Nat) (op : ValuOp)
  /-- VSEL (R255). -/
  | vsel (core : Nat) (op : ValuOp)
  /-- VMOV (R255). -/
  | vmov (core : Nat) (op : ValuOp)
  /-- VBCST (R255). -/
  | vbcst (core : Nat) (op : ValuOp)
  /-- VGET (R255). -/
  | vget (core : Nat) (d : Nat) (x : Nat) (lane : Nat)
  /-- VPUT (R255). -/
  | vput (core : Nat) (d : Nat) (x : Nat) (lane : Nat)
  /-- VSHI_VSHL (R255). -/
  | vshiVshl (core : Nat) (op : ValuOp)
  /-- VSHI_VSHR (R255). -/
  | vshiVshr (core : Nat) (op : ValuOp)
  /-- VSHI_VSAR (R255). -/
  | vshiVsar (core : Nat) (op : ValuOp)
  /-- VSHI_VSRR (R255). -/
  | vshiVsrr (core : Nat) (op : ValuOp)
  /-- MPY (R256). -/
  | mpy (core : Nat) (op : MacOp)
  /-- MAC (R256). -/
  | mac (core : Nat) (op : MacOp)
  /-- MSU (R256). -/
  | msu (core : Nat) (op : MacOp)
  /-- ADEP (R256). -/
  | adep (core : Nat) (sat : Bool) (q : Bool) (d : Nat) (x : Nat)
  /-- AADD (R256). -/
  | aadd (core : Nat) (op : AopOp)
  /-- ASUB (R256). -/
  | asub (core : Nat) (op : AopOp)
  /-- AMOV (R256). -/
  | amov (core : Nat) (q : Bool) (d : Nat) (x : Nat)
  /-- ACLR (R256). -/
  | aclr (core : Nat) (q : Bool) (d : Nat)
  /-- AGET (R256). -/
  | aget (core : Nat) (d : Nat) (x : Nat) (lane : Nat) (high : Bool)
  /-- APUT (R256). -/
  | aput (core : Nat) (d : Nat) (x : Nat) (y : Nat) (lane : Nat)
  /-- EXT (R233). -/
  | ext (core : Nat) (sat : Bool) (q : Bool) (d : Nat) (x : Nat) (sh : Int) (q15 : Bool) (toS : Bool)
  /-- ASR (R257). -/
  | asr (core : Nat) (q : Bool) (d : Nat) (x : Nat) (cnt : Nat)
  /-- ASRR (R257). -/
  | asrr (core : Nat) (q : Bool) (d : Nat) (x : Nat) (cnt : Nat)
  /-- ASL (R257). -/
  | asl (core : Nat) (sat : Bool) (q : Bool) (d : Nat) (x : Nat) (cnt : Nat)
  /-- LDB (R258). -/
  | ldb (core : Nat) (d : Nat) (a : MemOp)
  /-- LDBU (R258). -/
  | ldbu (core : Nat) (d : Nat) (a : MemOp)
  /-- LDH (R258). -/
  | ldh (core : Nat) (d : Nat) (a : MemOp)
  /-- LDHU (R258). -/
  | ldhu (core : Nat) (d : Nat) (a : MemOp)
  /-- LDW (R258). -/
  | ldw (core : Nat) (d : Nat) (a : MemOp)
  /-- STB (R258). -/
  | stb (core : Nat) (d : Nat) (a : MemOp)
  /-- STH (R258). -/
  | sth (core : Nat) (d : Nat) (a : MemOp)
  /-- STW (R258). -/
  | stw (core : Nat) (d : Nat) (a : MemOp)
  /-- LDWV (R258). -/
  | ldwv (core : Nat) (d : Nat) (a : MemOp)
  /-- STWV (R258). -/
  | stwv (core : Nat) (d : Nat) (a : MemOp)
  /-- LDV (R258). -/
  | ldv (core : Nat) (d : Nat) (a : MemOp)
  /-- STV (R258). -/
  | stv (core : Nat) (d : Nat) (a : MemOp)
  /-- LDPN (R258). -/
  | ldpn (core : Nat) (d : Nat) (a : MemOp)
  /-- STPN (R258). -/
  | stpn (core : Nat) (d : Nat) (a : MemOp)
  /-- LDBL (R258). -/
  | ldbl (core : Nat) (d : Nat) (a : MemOp)
  /-- STBL (R258). -/
  | stbl (core : Nat) (d : Nat) (a : MemOp)
  /-- LDDW (R259). -/
  | lddw (core : Nat) (d1 : Nat) (a : DualOp) (d2 : Nat) (b : DualOp)
  /-- LDDV (R259). -/
  | lddv (core : Nat) (d1 : Nat) (a : DualOp) (d2 : Nat) (b : DualOp)
  /-- BRA (R260). -/
  | bra (core : Nat) (offset : Int)
  /-- CALL (R260). -/
  | call (core : Nat) (offset : Int)
  /-- JR (R260). -/
  | jr (core : Nat) (link : Bool) (d : Nat) (x : Nat)
  /-- BCC (R261). -/
  | bcc (core : Nat) (cond : Nat) (offset : Int)
  /-- LOOPR (R212). -/
  | loopr (core : Nat) (x : Nat) (body : Nat)
  /-- LOOPI (R212). -/
  | loopi (core : Nat) (count : Nat) (body : Nat)
  /-- GETW (R140). -/
  | getw (core : Nat) (mask : Nat)
  /-- DONE (R145). -/
  | done (core : Nat) (status : Nat) (fromReg : Option Nat)
  /-- SIG (R264). -/
  | sig (core : Nat) (d : Nat) (x : Nat) (y : Nat)
  /-- SIGD (R157). -/
  | sigd (core : Nat) (d : Nat) (x : Nat) (y : Nat) (flag : Nat) (dropLate : Bool)
  /-- NCAN (R264). -/
  | ncan (core : Nat) (d : Nat) (x : Nat)
  /-- ARM (R264). -/
  | arm (core : Nat) (d : Nat) (x : Nat)
  /-- MQPUSH (R265). -/
  | mqpush (core : Nat) (d : Nat) (x : Nat) (y : Nat)
  /-- MQPOP (R110). -/
  | mqpop (core : Nat) (d : Nat) (x : Nat)
  /-- MQPOP_KEYED (R110). -/
  | mqpopKeyed (core : Nat) (d : Nat) (x : Nat) (y : Nat)
  /-- MQMARK (R265). -/
  | mqmark (core : Nat) (d : Nat) (x : Nat)
  /-- BALLOC (R182). -/
  | balloc (core : Nat) (d : Nat) (x : Nat)
  /-- BFREE (R182). -/
  | bfree (core : Nat) (d : Nat) (x : Nat)
  /-- BGIVE (R182). -/
  | bgive (core : Nat) (d : Nat) (x : Nat) (y : Nat)
  /-- XMOV_TO_LOCAL (R208). -/
  | xmovToLocal (core : Nat) (d : Nat) (x : Nat) (y : Nat)
  /-- XMOV_TO_BUFFER (R208). -/
  | xmovToBuffer (core : Nat) (d : Nat) (x : Nat) (y : Nat)
  /-- XWAIT (R210). -/
  | xwait (core : Nat)
  /-- RDPMC (R268). -/
  | rdpmc (core : Nat) (d : Nat) (n : Nat) (y : Nat)
  /-- RDCYC (R268). -/
  | rdcyc (core : Nat) (d : Nat) (y : Nat)
  /-- MOVX_FROM_PN (R268). -/
  | movxFromPn (core : Nat) (d : Nat) (x : Nat)
  /-- MOVX_TO_PN (R268). -/
  | movxToPn (core : Nat) (d : Nat) (x : Nat)
  /-- MOVX_FROM_BL (R268). -/
  | movxFromBl (core : Nat) (d : Nat) (x : Nat)
  /-- MOVX_TO_BL (R268). -/
  | movxToBl (core : Nat) (d : Nat) (x : Nat)
  /-- MOVX_FROM_CF (R268). -/
  | movxFromCf (core : Nat) (d : Nat)
  /-- MOVX_TO_CF (R268). -/
  | movxToCf (core : Nat) (x : Nat)
  /-- MOVX_FROM_ST (R268). -/
  | movxFromSt (core : Nat) (d : Nat)
  /-- MOVX_FROM_SF (R268). -/
  | movxFromSf (core : Nat) (d : Nat)
  /-- NOP (R268). -/
  | nop (core : Nat)
  /-- SFCLR (R237). -/
  | sfclr (core : Nat) (x : Nat)
  /-- PORST_N_ASSERT (R499). -/
  | porstNAssert (bootSel : Bool) (tjBelow110 : Bool)
  /-- SYSRST_N_ASSERT (R499). -/
  | sysrstNAssert (bootSel : Bool)
  /-- GLB_RST_SYS_WRITE (R499). -/
  | glbRstSysWrite (path : BusPath) (val : Word)
  /-- BRINGUP_STEP_COMPLETE (R500). -/
  | bringupStepComplete (hbmOk : Bool) (refs : Nat) (copy0 : BootImage) (copy1 : BootImage)
  /-- HIF_BOOT_PUSH_GO (R485). -/
  | hifBootPushGo (path : BusPath) (val : Word) (img : BootImage)
  /-- PLL_LOCK (R491). -/
  | pllLock (pll : Nat)
  /-- THERMTRIP (R442). -/
  | thermtrip
  /-- TEMP_SAMPLE (R441). -/
  | tempSample (quarters : List Int)
  /-- VOLT_SAMPLE (R441). -/
  | voltSample (mv : List Nat)
  /-- PROCESS_SAMPLE (R441). -/
  | processSample (counts : List Nat)
  /-- REF10M_WINDOW (R66). -/
  | ref10mWindow (ppb : Int)
  /-- PPS_IN_EDGE (R66). -/
  | ppsInEdge
  /-- SERVO_UPDATE (R50). -/
  | servoUpdate (port : Nat) (offset : Int)
  /-- DELAY_REQ_EXCHANGE (R59). -/
  | delayReqExchange (port : Nat) (delay : Nat) (lost : Bool)
  /-- ANNOUNCE_RECEIVED (R49). -/
  | announceReceived (port : Nat) (ann : Announce)
  /-- ANNOUNCE_RECEIPT_TIMEOUT (R51). -/
  | announceReceiptTimeout (port : Nat)
  /-- PATH_HOLD_ELAPSED (R59). -/
  | pathHoldElapsed
  /-- ETHERNET_FRAME_RECEIVE (R73). -/
  | ethernetFrameReceive (port : Nat) (frame : Frame)
  /-- MEDIA_PACKET_ADMIT (R80). -/
  | mediaPacketAdmit (port : Nat)
  /-- ETHERNET_LINK_CHANGE (R92). -/
  | ethernetLinkChange (port : Nat) (up : Bool) (hiSer : Bool)
  /-- PATH_TIMEOUT (R83). -/
  | pathTimeout (flow : Nat) (pathB : Bool)
  /-- SKEW_PARTNER_TIMEOUT (R84). -/
  | skewPartnerTimeout (flow : Nat) (pathB : Bool) (seq : Nat)
  /-- EGRESS_TAKE (R90). -/
  | egressTake (flow : Nat)
  /-- COPY_DEPARTURE (R91). -/
  | copyDeparture (port : Nat)
  /-- HEAD_WINDOW_REFILL (R103). -/
  | headWindowRefill (queue : Nat)
  /-- BEAT (R150). -/
  | beat (gen : Nat)
  /-- BEAT_POSTER_RESUME (R159). -/
  | beatPosterResume
  /-- BEAT_WAKE_LEAD (R143). -/
  | beatWakeLead (gen : Nat)
  /-- PREFETCH_NOTICE (R143). -/
  | prefetchNotice (gen : Nat)
  /-- TIMER_FIRE (R153). -/
  | timerFire (timer : Nat)
  /-- TIMER_HELD_RELEASE (R156). -/
  | timerHeldRelease (list : Nat)
  /-- TIMER_PREFETCH_LEAD (R172). -/
  | timerPrefetchLead (timer : Nat)
  /-- NODE_DISPATCH (R141). -/
  | nodeDispatch (cluster : Nat) (kml : Bool)
  /-- STEAL_AGE_EXPIRY (R142). -/
  | stealAgeExpiry (node : Nat) (kml : Bool)
  /-- BUDGET_OVERRUN (R147). -/
  | budgetOverrun (core : Nat)
  /-- ABORT_UNDO_COMPLETE (R148). -/
  | abortUndoComplete (node : Nat)
  /-- RERUN_READY_ENTRY (R149). -/
  | rerunReadyEntry (node : Nat)
  /-- DONE_COMMIT_RESUME (R146). -/
  | doneCommitResume (core : Nat)
  /-- ARMED_READY_ENTRY (R146). -/
  | armedReadyEntry (node : Nat)
  /-- MODEM_POST_RESUME (R159). -/
  | modemPostResume (port : Nat)
  /-- AFFINITY_HOLD_EXPIRY (R171). -/
  | affinityHoldExpiry (node : Nat) (kml : Bool)
  /-- PAGE_IN_COMPLETE (R174). -/
  | pageInComplete (node : Nat) (hbmOk : Bool)
  /-- PAGE_IN_SLOT_FREE (R173). -/
  | pageInSlotFree (node : Nat)
  /-- WRITE_BACK_COMPLETE (R175). -/
  | writeBackComplete (node : Nat) (failures : Nat)
  /-- LEDGER_SWEEP (R186). -/
  | ledgerSweep
  /-- TAG_SWEEP_COMPLETE (R187). -/
  | tagSweepComplete (ms : Nat) (lost : List Nat)
  /-- MOVE_COMPLETE (R210). -/
  | moveComplete (core : Nat) (hbmOk : Bool)
  /-- SCOUT_INTERVAL_EXPIRY (R457). -/
  | scoutIntervalExpiry (core : Nat)
  /-- UMPIRE_MERGE_EXPIRY (R431). -/
  | umpireMergeExpiry (source : Nat) (core : Nat) (cause : Nat)
  /-- SRAM_SCRUB_PASS (R437). -/
  | sramScrubPass (source : Nat) (core : Nat) (found : List MemFinding) (late : Bool)
  /-- HBM_PATROL_PASS (R437). -/
  | hbmPatrolPass (source : Nat) (found : List MemFinding)
  /-- SPARE_TEST (R436). -/
  | spareTest (core : Nat) (passed : Bool)
  /-- SERVICE_CORE_WATCHDOG (R433). -/
  | serviceCoreWatchdog
  /-- SERVICE_CORE_RESTART_DONE (R433). -/
  | serviceCoreRestartDone
  /-- CLUSTER_SLEEP_ENTRY (R494). -/
  | clusterSleepEntry (cluster : Nat)
  /-- CLUSTER_OFF_ENTRY (R493). -/
  | clusterOffEntry (cluster : Nat)
  /-- CLUSTER_WAKE_COMPLETE (R492). -/
  | clusterWakeComplete (cluster : Nat)
  /-- CLUN_PWR_LIMIT_WRITE (R495). -/
  | clunPwrLimitWrite (path : BusPath) (cluster : Nat) (val : Word)
  /-- CLUN_SPARES_COUNT_WRITE (R219). -/
  | clunSparesCountWrite (path : BusPath) (cluster : Nat) (val : Word)
  /-- CLUN_CM_HOME_WRITE (R218). -/
  | clunCmHomeWrite (path : BusPath) (core : Nat) (val : Word)
  /-- KCI_DOORBELL (R471). -/
  | kciDoorbell (path : BusPath) (val : Word)
  /-- KCI_FETCH (R471). -/
  | kciFetch (opcode : Nat) (flags : Nat) (tag : Nat)
  /-- SMBUS_WRITE (R464). -/
  | smbusWrite (count : Nat) (pec : Option Bool) (off : Nat) (val : Word)
  /-- SMBUS_READ_ADDRESS (R464). -/
  | smbusReadAddress (count : Nat) (pec : Option Bool) (off : Nat)
  /-- SMBUS_READ_DATA (R464). -/
  | smbusReadData (pec : Option Bool)
  /-- BAR2_WRITE (R467). -/
  | bar2Write (off : Nat) (bytes : List Byte)
  /-- BAR2_READ (R467). -/
  | bar2Read (off : Nat) (len : Nat)
  /-- REGISTER_WRITE (R12). `high` gives the byte enables and the data of the upper half of a 64-bit PCIe access (R11). -/
  | registerWrite (path : BusPath) (off : Nat) (byteEn : Nat) (val : Word) (high : Option (Nat × Word))
  /-- RC_COUNTER_READ (R12). `wide` says that a PCIe access reads 64 bits (R11). -/
  | rcCounterRead (path : BusPath) (off : Nat) (wide : Bool)
  /-- TIME_NOW_FRAC_READ (R67). -/
  | timeNowFracRead (path : BusPath)
  /-- TIME_RATE_LO_READ (R67). -/
  | timeRateLoRead (path : BusPath)
  /-- TIME_PPSIN_NS_READ (R67). -/
  | timePpsinNsRead (path : BusPath)
  /-- TIME_TSQN_POP0_READ (R64). -/
  | timeTsqnPop0Read (path : BusPath) (port : Nat)
  /-- HIF_FLOWEV_POP_READ (R469). -/
  | hifFlowevPopRead (path : BusPath)
  /-- FLC_REBUILD_T_LO_READ (R426). -/
  | flcRebuildTLoRead (path : BusPath)
  /-- FLC_OLDEST_T_LO_READ (R426). -/
  | flcOldestTLoRead (path : BusPath)
  /-- PMU_COUNTER_LOW_READ (R455). -/
  | pmuCounterLowRead (path : BusPath) (off : Nat) (wide : Bool)
  /-- PMU_COUNTER_HIGH_WRITE (R455). -/
  | pmuCounterHighWrite (path : BusPath) (off : Nat) (val : Word)
  /-- PMU_COUNTER_LOW_WRITE (R455). -/
  | pmuCounterLowWrite (path : BusPath) (off : Nat) (val : Word)
  /-- SCOUT_CTL_REL_WRITE (R458). -/
  | scoutCtlRelWrite (path : BusPath) (core : Nat) (val : Word)
  /-- RFPN_DCB_CLR_WRITE (R331). -/
  | rfpnDcbClrWrite (path : BusPath) (port : Nat) (val : Word)
  /-- UMP_INJECT_ARM_WRITE (R446). -/
  | umpInjectArmWrite (path : BusPath) (val : Word)
  /-- SEED_POOL_GRAN_WRITE (R193). -/
  | seedPoolGranWrite (path : BusPath) (val : Word)
  /-- MADI_PORT_ENABLE (R324). -/
  | madiPortEnable (path : BusPath) (port : Nat) (val : Word)
  /-- FLC_ENABLE (R419). -/
  | flcEnable (path : BusPath) (val : Word)
  /-- FLC_BRINGUP_STEP_COMPLETE (R419). -/
  | flcBringupStepComplete (targets : Nat) (luns : Nat) (goodBlocks : Nat)
  /-- CAPTURE_JOB_POP (R390). -/
  | captureJobPop
  /-- CAPTURE_STAGING_RESUME (R390). -/
  | captureStagingResume
  /-- STAGING_PAGE_PROGRAM (R387). -/
  | stagingPageProgram (hbmOk : Bool)
  /-- PAGE_PROGRAM_COMPLETE (R411). -/
  | pageProgramComplete (ok : Bool)
  /-- BLOCK_ERASE_COMPLETE (R411). -/
  | blockEraseComplete (die : Nat) (block : Nat) (ok : Bool)
  /-- SEGMENT_RECLAIM (R414). -/
  | segmentReclaim
  /-- REFRESH_SEGMENT_READ (R416). -/
  | refreshSegmentRead (seq : Nat) (maxCorrected : Nat) (lost : List Nat)
  /-- FLASH_CODEWORD_DECODE (R403). -/
  | flashCodewordDecode (seq : Nat) (page : Nat) (reads : Nat) (iters : Nat) (corrected : Option Nat)
  /-- REPLAY_BLOCK_DELIVERY (R420). -/
  | replayBlockDelivery (replay : Nat) (uncorrectable : Bool)
  /-- PACK_HOST_JOB_END (R398). -/
  | packHostJobEnd (job : Nat)
  /-- MADI_RX_BLOCK_PUSH (R321). -/
  | madiRxBlockPush (port : Nat) (samples : List Word) (vBits : Nat) (codeErrs : Nat) (drift : Int)
  /-- MADI_RX_SLIP (R321). -/
  | madiRxSlip (port : Nat) (drift : Int)
  /-- MADI_LOCK (R321). -/
  | madiLock (port : Nat) (ch56 : Bool)
  /-- MADI_LOCK_LOSS (R321). -/
  | madiLockLoss (port : Nat)
  /-- MADI_TX_EXAMINE (R322). -/
  | madiTxExamine (port : Nat)
  /-- JESD_RX_CHARACTER_ERROR (R327). -/
  | jesdRxCharacterError (port : Nat) (kind : Nat)
  /-- JESD_RX_RESYNC (R327). -/
  | jesdRxResync (port : Nat) (ilas : Bool)
  /-- JESD_RX_DATA_RESUME (R338). -/
  | jesdRxDataResume (port : Nat)
  /-- JESD_TX_SYNC_REQUEST (R327). -/
  | jesdTxSyncRequest (port : Nat)
  /-- SYSREF_EDGE (R329). -/
  | sysrefEdge (port : Nat) (d : Int) (syncReset : Bool)
  /-- CARRIER_SYNC_RESET (R338). -/
  | carrierSyncReset (port : Nat) (carrier : Nat)
  /-- SAMPLE_TAP_ITEM_PUSH (R342). -/
  | sampleTapItemPush (port : Nat)
  /-- SLOT_BOUNDARY (R373). -/
  | slotBoundary (port : Nat)
  /-- DOWNLINK_TAKE (R360). -/
  | downlinkTake (port : Nat)
  /-- DOWNLINK_TRANSMIT (R349). -/
  | downlinkTransmit (port : Nat)
  /-- UPLINK_SLOT_START (R365). -/
  | uplinkSlotStart (port : Nat)
  /-- AGC_UPDATE (R365). -/
  | agcUpdate (port : Nat) (centiDb : Int)
  /-- SYNC_DETECTION (R366). -/
  | syncDetection (port : Nat) (carrier : Nat) (c : Nat) (p : Nat) (rssi : Nat) (fofs : Int)
  /-- HEADER_DECODED (R370). -/
  | headerDecoded (port : Nat) (carrier : Nat) (bits : List Bool)
  /-- PAYLOAD_SUBMIT (R370). -/
  | payloadSubmit (port : Nat) (carrier : Nat)
  /-- RADIO_LDPC_JOB_COMPLETE (R378). -/
  | radioLdpcJobComplete (port : Nat) (carrier : Nat) (converged : Bool) (iters : Nat) (info : List Bool)
  /-- UPLINK_ENTRY_DELIVERY (R374). -/
  | uplinkEntryDelivery (link : Nat)
  /-- SYNC_WINDOW_CLOSE (R370). -/
  | syncWindowClose (port : Nat) (carrier : Nat)
  /-- BELTPACK_JOIN (R483). -/
  | beltpackJoin (link : Nat) (offer : WlOffer)
  /-- WL_HELLO_RECEIVE (R481). -/
  | wlHelloReceive (link : Nat) (offer : WlOffer)
  /-- WL_HELLO_ACK_RECEIVE (R482). -/
  | wlHelloAckReceive (link : Nat) (offer : WlOffer)
  /-- WL_KEEPALIVE_RECEIVE (R482). -/
  | wlKeepaliveReceive (link : Nat)
  /-- WL_CONTROL_RECEIVE (R482). -/
  | wlControlReceive (link : Nat) (kind : Nat) (body : List Byte)
  /-- WL_REJECT_RECEIVE (R481). -/
  | wlRejectReceive (link : Nat) (code : Nat)
  /-- WL_BYE_RECEIVE (R482). -/
  | wlByeReceive (link : Nat)
  /-- WL_HELLO_RESEND (R482). -/
  | wlHelloResend (link : Nat)
  /-- WL_KEEPALIVE_SEND (R482). -/
  | wlKeepaliveSend (link : Nat)
  /-- WL_PEER_TIMEOUT (R482). -/
  | wlPeerTimeout (link : Nat)
  /-- GRAPH_LOAD (R479). -/
  | graphLoad (h : KciHdr) (graph : Nat) (addr : Nat) (len : Nat) (img : GraphImage)
  /-- GRAPH_UNLOAD (R479). -/
  | graphUnload (h : KciHdr) (graph : Nat)
  /-- GRAPH_RELOAD (R479). -/
  | graphReload (h : KciHdr) (graph : Nat) (addr : Nat) (len : Nat) (img : GraphImage)
  /-- NODE_LOAD (R160). -/
  | nodeLoad (h : KciHdr) (op : NodeOp)
  /-- NODE_UNLOAD (R160). -/
  | nodeUnload (h : KciHdr) (node : Nat)
  /-- NODE_ARM (R134). -/
  | nodeArm (h : KciHdr) (node : Nat)
  /-- NODE_CANCEL (R134). -/
  | nodeCancel (h : KciHdr) (node : Nat)
  /-- NODE_POST (R160). -/
  | nodePost (h : KciHdr) (node : Nat) (flags : Nat)
  /-- NODE_BEAT (R160). -/
  | nodeBeat (h : KciHdr) (node : Nat) (gen : Nat)
  /-- NODE_READ (R160). -/
  | nodeRead (h : KciHdr) (node : Nat)
  /-- NODE_EVICT (R189). -/
  | nodeEvict (h : KciHdr) (node : Nat)
  /-- CFG_STAGE (R296). -/
  | cfgStage (h : KciHdr) (target : Nat) (offset : Nat) (len : Nat) (data : List Byte)
  /-- CFG_COMMIT (R298). -/
  | cfgCommit (h : KciHdr) (target : Nat)
  /-- CFG_COMMIT_DISCARD (R298). -/
  | cfgCommitDiscard (h : KciHdr) (target : Nat)
  /-- FLOW_OPEN_RX (R77). -/
  | flowOpenRx (h : KciHdr) (len : Nat) (blk : RxBlock)
  /-- FLOW_OPEN_TX (R87). -/
  | flowOpenTx (h : KciHdr) (len : Nat) (blk : TxBlock)
  /-- FLOW_PORT_ADDR (R72). -/
  | flowPortAddr (h : KciHdr) (len : Nat) (blk : PortAddr)
  /-- FLOW_CLOSE (R94). -/
  | flowClose (h : KciHdr) (flow : Nat) (dir : Nat)
  /-- FLOW_STATS (R86). -/
  | flowStats (h : KciHdr) (flow : Nat) (clear : Bool)
  /-- QUEUE_OPEN (R125). -/
  | queueOpen (h : KciHdr) (op : QueueOp)
  /-- QUEUE_CLOSE (R125). -/
  | queueClose (h : KciHdr) (queue : Nat)
  /-- QUEUE_MARK (R121). -/
  | queueMark (h : KciHdr) (queue : Nat)
  /-- QUEUE_MARK_CLEAR (R121). -/
  | queueMarkClear (h : KciHdr) (queue : Nat)
  /-- QUEUE_REWIND (R124). -/
  | queueRewind (h : KciHdr) (queue : Nat)
  /-- QUEUE_REWIND_FROM_OLDEST (R124). -/
  | queueRewindFromOldest (h : KciHdr) (queue : Nat)
  /-- QUEUE_STATS (R126). -/
  | queueStats (h : KciHdr) (queue : Nat) (clear : Bool)
  /-- TIMER_ARM (R155). -/
  | timerArm (h : KciHdr) (op : TimerOp)
  /-- TIMER_CANCEL (R160). -/
  | timerCancel (h : KciHdr) (timer : Nat)
  /-- TIMER_BEAT (R151). -/
  | timerBeat (h : KciHdr) (op : BeatOp)
  /-- PACK_JOB_ENCODE (R397). -/
  | packJobEncode (h : KciHdr) (op : PackOp)
  /-- PACK_JOB_DECODE (R397). -/
  | packJobDecode (h : KciHdr) (op : PackOp)
  /-- PACK_RESUME (R398). -/
  | packResume (h : KciHdr) (job : Nat) (outAddr : Nat) (outLen : Nat)
  /-- PACK_DROP (R398). -/
  | packDrop (h : KciHdr) (job : Nat)
  /-- CAP_START (R422). -/
  | capStart (h : KciHdr)
  /-- CAP_STOP (R422). -/
  | capStop (h : KciHdr)
  /-- CAP_POINT (R415). -/
  | capPoint (h : KciHdr) (tFrom : Nat) (tTo : Nat) (protect : Nat)
  /-- CAP_POINT_CLEAR (R422). -/
  | capPointClear (h : KciHdr) (point : Nat)
  /-- CAP_REPLAY (R420). -/
  | capReplay (h : KciHdr) (op : ReplayOp)
  /-- CAP_STATS (R422). -/
  | capStats (h : KciHdr) (clear : Bool)
  /-- TIME_SET (R53). -/
  | timeSet (h : KciHdr) (sec : Nat) (ns : Nat)
  /-- TIME_SET_RATE (R53). -/
  | timeSetRate (h : KciHdr) (rate : Int)
  /-- TIME_STEP_AUTH (R56). -/
  | timeStepAuth (h : KciHdr) (limit : Nat)
  /-- TIME_CONFIG (R48). -/
  | timeConfig (h : KciHdr) (len : Nat) (cfg : PtpConfig)
  /-- LINK_OPEN (R482). -/
  | linkOpen (h : KciHdr) (link : Nat) (port : Nat) (ip : Nat) (udpPort : Nat)
  /-- LINK_CLOSE (R482). -/
  | linkClose (h : KciHdr) (link : Nat)
  /-- LINK_STATUS (R482). -/
  | linkStatus (h : KciHdr) (link : Nat)
  /-- MODEM_LINK (R380). -/
  | modemLink (h : KciHdr) (op : ModemOp)
  /-- MODEM_LINK_STATS (R381). -/
  | modemLinkStats (h : KciHdr) (link : Nat) (clear : Bool)
  /-- SYS_OPEN (R474). -/
  | sysOpen (h : KciHdr) (major : Nat) (minor : Nat)
  /-- SYS_ACCOUNT (R189). -/
  | sysAccount (h : KciHdr) (op : AccountOp)
  /-- SYS_ACCOUNT_CLOSE (R189). -/
  | sysAccountClose (h : KciHdr) (account : Nat)
  /-- SYS_ACCOUNT_STATS (R189). -/
  | sysAccountStats (h : KciHdr) (account : Nat) (clear : Bool)
  /-- SYS_FUSE_ROLLBACK (R486). -/
  | sysFuseRollback (h : KciHdr)
  /-- SYS_FUSE_REVOKE (R486). -/
  | sysFuseRevoke (h : KciHdr) (slot : Nat)
  /-- JESD_RX_SAMPLE (R330). -/
  | jesdRxSample (port : Nat) (i : Int) (q : Int)
  /-- PPS_OUT_PULSE (R66). -/
  | ppsOutPulse
  /-- PPS_IN_LOSS (R66). -/
  | ppsInLoss
  /-- FABRIC_PARITY_ERROR (R432). -/
  | fabricParityError (source : Nat) (uncorrSram : Bool)
  /-- VDD_AON_REMOVAL (R442). -/
  | vddAonRemoval
  /-- RESERVED_REGISTER_READ (R466). -/
  | reservedRegisterRead (path : BusPath) (off : Nat) (wide : Bool)
  /-- ILLEGAL_ENCODING (R248). -/
  | illegalEncoding (core : Nat) (word : Word)
  /-- SERVICE_FIFO_PACKET (R73). -/
  | serviceFifoPacket (port : Nat)
  /-- PTP_MASTER_TRANSMIT (R47). -/
  | ptpMasterTransmit (port : Nat)
  /-- RTCP_SENDER_REPORT (R95). -/
  | rtcpSenderReport (flow : Nat)
  deriving DecidableEq, Repr

end Sys2Proof
end

