-- ==== Sys2Proof/Machine/Legal.lean ====
section
/-!
DEFINITION. Legal.lean: which operand values an instruction word of a media core may hold (R247 to R250, R252 to R268). A value
outside them raises ILLEGAL.
-/

namespace Sys2Proof.Machine

/-- A scalar or vector register number (R249). -/
def reg5 (i : Nat) : Bool := decide (i < 32)

/-- An accumulator number (R249). -/
def regA (i : Nat) : Bool := decide (i < 8)

/-- A BL code that names a register (R249). -/
def regBl (i : Nat) : Bool := decide (i < 32) && decide (i % 16 < 8)

/-- A signed field of `w` bits. -/
def sField (w : Nat) (x : Int) : Bool := decide (-(2 ^ (w - 1)) ≤ x) && decide (x < 2 ^ (w - 1))

/-- SALU (R252). -/
def saluOk (o : SaluOp) : Bool := reg5 o.d && reg5 o.x && reg5 o.y

/-- SHI (R253). -/
def shiOk (o : ShiOp) : Bool := reg5 o.d && reg5 o.x && decide (o.cnt < 32)

/-- VALU and VSHI; `w` says that the row allows W24 (R255). -/
def valuOk (w : Bool) (o : ValuOp) : Bool := reg5 o.d && reg5 o.x && reg5 o.y && (w || !o.w24)

/-- A vector compare: D must be 0 (R255). -/
def vcmpOk (o : ValuOp) : Bool := valuOk true o && decide (o.d = 0)

/-- VGET and VPUT (R255). -/
def vlaneOk (d x n : Nat) : Bool := reg5 d && reg5 x && decide (n < 8)

/-- MPY, MAC and MSU (R256). -/
def macOk (o : MacOp) : Bool := regA o.d && reg5 o.x && reg5 o.y && (match o.lane with | some n => decide (n < 8) | none => true)

/-- AADD and ASUB (R256). -/
def aopOk (o : AopOp) : Bool := regA o.d && regA o.x && regA o.y

/-- EXT (R257): sh from −16 to +16, and Q = 0 where it writes a scalar register. -/
def extOk (q : Bool) (d x : Nat) (sh : Int) (toS : Bool) : Bool :=
  reg5 d && regA x && decide (-16 ≤ sh) && decide (sh ≤ 16) && !(toS && q)

/-- ASH (R257): a count from 0 to 55. -/
def ashOk (d x cnt : Nat) : Bool := regA d && regA x && decide (cnt ≤ 55)

/-- The address operand of a single load or store (R258): the displacement must be 0 in modes 0 and 2. -/
def memOk (a : MemOp) : Bool :=
  decide (a.p < 16) && decide (a.n < 16) && decide (a.mode < 4) && sField 9 a.disp &&
    (decide (a.mode = 1) || decide (a.mode = 3) || decide (a.disp = 0))

/-- The operands of a dual load (R259): Pa and Pb differ, and so do D1 and D2. -/
def dualOk (d1 : Nat) (a : DualOp) (d2 : Nat) (b : DualOp) : Bool :=
  reg5 d1 && reg5 d2 && decide (a.p < 8) && decide (b.p < 8) && decide (a.mode < 4) && decide (b.mode < 4) &&
    decide (a.p ≠ b.p) && decide (d1 ≠ d2)

/-- A loop body (R212). -/
def bodyOk (n : Nat) : Bool := decide (1 ≤ n) && decide (n ≤ 4096)

end Sys2Proof.Machine
end

