-- ==== Sys2Proof/Machine/Map.lean ====
section
/-!
DEFINITION. Map.lean: sparse maps keyed by Nat, held as a list of pairs in one canonical order, and byte memory in its
canonical form. An unlisted byte of memory reads as 0x00 (DESIGN CHOICE, assumption 3).
-/

namespace Sys2Proof.Machine

/-- The value listed at `k`, if any. -/
def mapFind? {α : Type} (k : Nat) : List (Nat × α) → Option α
  | [] => none
  | (a, v) :: t => if k = a then some v else mapFind? k t

/-- The value listed at `k`, or `d` where none is. -/
def mapGet {α : Type} (d : α) (k : Nat) (m : List (Nat × α)) : α := (mapFind? k m).getD d

/-- Lists `v` at `k`. -/
def mapInsert {α : Type} (k : Nat) (v : α) : List (Nat × α) → List (Nat × α)
  | [] => [(k, v)]
  | (a, w) :: t =>
    if k < a then (k, v) :: (a, w) :: t
    else if k = a then (k, v) :: t
    else (a, w) :: mapInsert k v t

/-- Unlists `k`. -/
def mapErase {α : Type} (k : Nat) : List (Nat × α) → List (Nat × α)
  | [] => []
  | (a, w) :: t => if k = a then mapErase k t else (a, w) :: mapErase k t

/-- Replaces the value at `k` by its image under `f`, starting from `d` where none is listed. -/
def mapUpd {α : Type} (d : α) (k : Nat) (f : α → α) (m : List (Nat × α)) : List (Nat × α) :=
  mapInsert k (f (mapGet d k m)) m

/-- Keys rise strictly, each above `lo` where `lo` is given. -/
def mapSorted {α : Type} : Option Nat → List (Nat × α) → Bool
  | _, [] => true
  | none, (a, _) :: t => mapSorted (some a) t
  | some l, (a, _) :: t => decide (l < a) && mapSorted (some a) t

/-- The byte at `a`; an unlisted byte reads as 0x00. -/
def memRead (m : List Host.Cell) (a : Nat) : Byte := mapGet 0 a m

/-- Writes one byte and keeps the canonical form. -/
def memWrite (m : List Host.Cell) (a : Nat) (b : Byte) : List Host.Cell :=
  if b = 0 then mapErase a m else mapInsert a b m

/-- Canonical form of memory: addresses rise strictly and no byte listed is 0x00. -/
def Memory.wf (m : List Host.Cell) : Bool := mapSorted none m && m.all (fun c => c.2 != 0)

/-- Writes bytes upward from `a`. -/
def memWriteList (m : List Host.Cell) (a : Nat) : List Byte → List Host.Cell
  | [] => m
  | b :: t => memWriteList (memWrite m a b) (a + 1) t

/-- Reads `n` bytes upward from `a`. -/
def memReadList (m : List Host.Cell) (a : Nat) : Nat → List Byte
  | 0 => []
  | n + 1 => memRead m a :: memReadList m (a + 1) n

/-- Copies `len` bytes from `src` at `a` over `dst` at `b`. -/
def copyRange (src : List Host.Cell) (a len : Nat) (dst : List Host.Cell) (b : Nat) : List Host.Cell :=
  dst.filter (fun c => decide (c.1 < b)) ++
  ((src.filter (fun c => decide (a ≤ c.1) && decide (c.1 < a + len))).map (fun c => (c.1 - a + b, c.2)) ++
   dst.filter (fun c => decide (b + len ≤ c.1)))

/-- Little-endian value of bytes (R8). -/
def leNat : List Byte → Nat
  | [] => 0
  | b :: t => b.toNat + 256 * leNat t

/-- Little-endian bytes of a number (R8). -/
def leBytes : Nat → Nat → List Byte
  | 0, _ => []
  | n + 1, v => BitVec.ofNat 8 v :: leBytes n (v / 256)

/-- Big-endian bytes of a number (R8, R477, R480). -/
def beBytes (n v : Nat) : List Byte := (leBytes n v).reverse

/-- The number that big-endian bytes hold. -/
def beNat (bs : List Byte) : Nat := leNat bs.reverse

end Sys2Proof.Machine
end

