-- ==== Sys2Proof/Config.lean ====
section
/-!
DEFINITION. Config.lean: what a device instance fixes (fuses) and the free values, which the spec leaves open. Each is
opaque: no proof can see its value, so every claim holds whatever it is.
-/

namespace Sys2Proof

/-- The n-th free value of a run: the machine applies it to a counter in State that each use advances. -/
opaque Config.free : Nat → Nat

/-- A free value that depends on nothing but its name and operands. -/
opaque Config.freeFn : Nat → Nat → Nat

/-- Fuse: the part is grade B (R1, R4). -/
opaque Config.gradeB : Bool

/-- Fuse: stepping letter and digit of GLB_ID (R4). -/
opaque Config.stepping : BitVec 8

/-- Fuse: MAC address of a port (R97). -/
opaque Config.macAddr : Nat → BitVec 48

/-- Fuse: SHA-384 of the public key of a key slot (R486). -/
opaque Config.keyHash : Nat → Nat

/-- Fuse: a key slot's revocation when the part leaves the factory (R486). -/
opaque Config.revoked : Nat → Bool

/-- Fuse: the rollback counter when the part leaves the factory, 0 to 64 (R485). -/
opaque Config.rollback : Fin 65

/-- The MAC address that ARP or neighbour discovery has found for a unicast address on a port. -/
opaque Config.neighbourMac : Nat → Nat → BitVec 48

/-- The identity this device sends in a HELLO (R480). -/
opaque Config.deviceId : BitVec 64

/-- A value that a program of the Kelrik Media Library computes and whose formula the spec does not give: which value, and the operands it depends on (R245). -/
opaque Config.kmlFn : Nat → List Int → Nat

/-- Tap `i` of the filter of a rate conversion, in units of 2^-23: the spec gives the filters' lengths and masks, not their taps (R318). -/
opaque Config.filterTap : Nat → Nat → Int

/-- The GFSK phase of a packet at one of its input samples, in units of 2 pi / 2^64: by a free start, the carrier, the deviations of its symbols and the sample's
number. The spec gives the filter by its BT only and the phase no starting point (R350, R362). -/
opaque Config.gfskPhase : Nat → Nat → List Int → Nat → Nat

end Sys2Proof
end

