-- ==== Sys2Proof/Machine/RegTable.lean ====
section
/-!
DEFINITION. RegTable.lean: the register tables of the spec, field by field, as the chapters give them (R10 to R14, R36,
R37), and one named constant per field. A field that shows a value held elsewhere in the state is a view: it is stored
nowhere here and has reset 0 in this table.
-/

namespace Sys2Proof.Machine

/-- Access types of R12. A `view` field is RO and shows a value that another piece of state holds. -/
inductive Access where
  | rw | ro | w1c | rc | rws | view
  deriving DecidableEq, Repr

/-- Which values of a field are not reserved (R13). -/
inductive Legal where
  | any
  | upTo (n : Nat)
  | ne (n : Nat)
  | between (a b : Nat)
  | zeroOr (a b : Nat)
  | pow2 (a b : Nat)
  | ring
  | signed (n : Nat)
  deriving DecidableEq, Repr

/-- One field of a register, or of an array of `count` registers `stride` bytes apart. -/
structure RegField where
  off    : Nat
  stride : Nat
  count  : Nat
  hi     : Nat
  lo     : Nat
  acc    : Access
  rst    : Nat
  legal  : Legal
  deriving DecidableEq, Repr

/-- A field of the register file, by its BAR0 address, lowest bit and width (R10). -/
structure Fld where
  addr : Nat
  lo   : Nat
  w    : Nat
  deriving DecidableEq, Repr

/-- Base of a PMU register set: sets 0 to 255 are the cores k = 16 × cluster + core, then BULL, GH, SEED, MQ, NET0 to
NET3, MDM and FLC (R448, R461). -/
def pmuBase (set : Nat) : Nat :=
  if set < 256 then 0x200000 + 0x1000 * set
  else if set < 260 then 0x4F000 + 0x10000 * (set - 256)
  else if set < 264 then 0x8F000 + 0x10000 * (set - 260)
  else if set = 264 then 0xDF000
  else 0x10F000

/-- Registers of GLB (R4, R503). -/
def glbRegs : List RegField :=
  [ ⟨0x0, 0x0, 1, 31, 16, .ro, 29024, .any⟩ -- GLB_ID.PART
  , ⟨0x0, 0x0, 1, 15, 12, .view, 0, .any⟩ -- GLB_ID.GRADE
  , ⟨0x0, 0x0, 1, 11, 8, .view, 0, .any⟩ -- GLB_ID.STEP_MAJ
  , ⟨0x0, 0x0, 1, 7, 4, .view, 0, .any⟩ -- GLB_ID.STEP_MIN
  , ⟨0x4, 0x0, 1, 31, 16, .ro, 1, .any⟩ -- GLB_VER.MAJOR
  , ⟨0x4, 0x0, 1, 15, 0, .ro, 0, .any⟩ -- GLB_VER.MINOR
  , ⟨0x8, 0x0, 1, 2, 0, .ro, 1, .any⟩ -- GLB_STAT.STEP
  , ⟨0x8, 0x0, 1, 3, 3, .ro, 0, .any⟩ -- GLB_STAT.READY
  , ⟨0x8, 0x0, 1, 10, 8, .ro, 0, .any⟩ -- GLB_STAT.FAIL
  , ⟨0x8, 0x0, 1, 16, 16, .ro, 0, .any⟩ -- GLB_STAT.BOOT_SEL
  , ⟨0xc, 0x0, 1, 6, 0, .ro, 0, .any⟩ -- GLB_PLL_STAT.LOCK
  , ⟨0x10, 0x0, 1, 0, 0, .rws, 0, .any⟩ -- GLB_RST.SYS
  , ⟨0x14, 0x0, 1, 15, 0, .rw, 20, .any⟩ -- GLB_PWR_DELAY.SLEEP
  , ⟨0x14, 0x0, 1, 31, 16, .rw, 500, .any⟩ -- GLB_PWR_DELAY.OFF
  ]

/-- Registers of TIME (R67). -/
def timeRegs0 : List RegField :=
  [ ⟨0x0, 0x0, 1, 31, 16, .ro, 1, .any⟩ -- TIME_VER.MAJOR
  , ⟨0x0, 0x0, 1, 15, 0, .ro, 0, .any⟩ -- TIME_VER.MINOR
  , ⟨0x4, 0x0, 1, 1, 0, .rw, 0, (.ne 3)⟩ -- TIME_CTL.SRC
  , ⟨0x4, 0x0, 1, 2, 2, .rw, 0, .any⟩ -- TIME_CTL.HO_REF
  , ⟨0x4, 0x0, 1, 3, 3, .rw, 1, .any⟩ -- TIME_CTL.WCLK_EN
  , ⟨0x4, 0x0, 1, 4, 4, .rw, 1, .any⟩ -- TIME_CTL.PPSOUT_EN
  , ⟨0x8, 0x0, 1, 2, 0, .view, 0, .any⟩ -- TIME_STAT.SERVO
  , ⟨0x8, 0x0, 1, 5, 4, .view, 0, .any⟩ -- TIME_STAT.HO_CAUSE
  , ⟨0x8, 0x0, 1, 6, 6, .view, 0, .any⟩ -- TIME_STAT.ARMED
  , ⟨0x8, 0x0, 1, 7, 7, .view, 0, .any⟩ -- TIME_STAT.REF10M_OK
  , ⟨0x8, 0x0, 1, 8, 8, .view, 0, .any⟩ -- TIME_STAT.PPSIN_OK
  , ⟨0x8, 0x0, 1, 16, 16, .w1c, 0, .any⟩ -- TIME_STAT.STEP_REFUSED
  , ⟨0x8, 0x0, 1, 17, 17, .w1c, 0, .any⟩ -- TIME_STAT.PATH_STEP
  , ⟨0x10, 0x0, 1, 15, 0, .view, 0, .any⟩ -- TIME_NOW_FRAC.FRAC
  , ⟨0x14, 0x0, 1, 29, 0, .view, 0, .any⟩ -- TIME_NOW_NS.NS
  , ⟨0x18, 0x0, 1, 31, 0, .view, 0, .any⟩ -- TIME_NOW_SECL.SEC
  , ⟨0x1c, 0x0, 1, 15, 0, .view, 0, .any⟩ -- TIME_NOW_SECH.SEC
  , ⟨0x20, 0x0, 1, 31, 0, .view, 0, .any⟩ -- TIME_NOW_MTC.MTC
  , ⟨0x30, 0x0, 1, 31, 0, .view, 0, .any⟩ -- TIME_RATE_LO.RATE
  , ⟨0x34, 0x0, 1, 7, 0, .view, 0, .any⟩ -- TIME_RATE_HI.RATE
  , ⟨0x40, 0x0, 1, 29, 0, .rw, 1000, (.upTo 1000000000)⟩ -- TIME_STEP_MAX.NS
  , ⟨0x44, 0x0, 1, 15, 0, .rw, 100, .any⟩ -- TIME_PD_STEP.NS
  , ⟨0x48, 0x0, 1, 7, 0, .rw, 8, .any⟩ -- TIME_PD_HOLD.SEC
  , ⟨0x4c, 0x0, 1, 15, 0, .rw, 100, (.ne 0)⟩ -- TIME_LOCK_THR.NS
  , ⟨0x50, 0x4, 4, 31, 0, .rw, 0, .any⟩ -- TIME_ASYMn.NS
  , ⟨0x60, 0x0, 1, 31, 0, .ro, 0, .any⟩ -- TIME_OFFSET.NS
  , ⟨0x64, 0x0, 1, 31, 0, .ro, 0, .any⟩ -- TIME_MPD.NS
  , ⟨0x70, 0x0, 1, 9, 0, .rw, 100, (.upTo 999)⟩ -- TIME_PPSOUT.WIDTH
  , ⟨0x74, 0x0, 1, 31, 0, .rw, 0, (.signed 500000000)⟩ -- TIME_PPSOUT_OFS.NS
  , ⟨0x78, 0x0, 1, 29, 0, .view, 0, .any⟩ -- TIME_PPSIN_NS.NS
  , ⟨0x7c, 0x0, 1, 31, 0, .view, 0, .any⟩ -- TIME_PPSIN_SECL.SEC
  , ⟨0x100, 0x20, 4, 6, 0, .view, 0, .any⟩ -- TIME_TSQn_STAT.COUNT
  , ⟨0x100, 0x20, 4, 8, 8, .w1c, 0, .any⟩ -- TIME_TSQn_STAT.OVF
  , ⟨0x100, 0x20, 4, 9, 9, .view, 0, .any⟩ -- TIME_TSQn_STAT.OWNED
  , ⟨0x104, 0x20, 4, 31, 0, .rc, 0, .any⟩ -- TIME_TSQn_LOST.COUNT
  , ⟨0x108, 0x20, 4, 15, 0, .view, 0, .any⟩ -- TIME_TSQn_POP0.ID
  , ⟨0x108, 0x20, 4, 31, 16, .view, 0, .any⟩ -- TIME_TSQn_POP0.FRAC
  , ⟨0x10c, 0x20, 4, 29, 0, .view, 0, .any⟩ -- TIME_TSQn_POP1.NS
  , ⟨0x10c, 0x20, 4, 31, 31, .view, 0, .any⟩ -- TIME_TSQn_POP1.VALID
  , ⟨0x110, 0x20, 4, 31, 0, .view, 0, .any⟩ -- TIME_TSQn_POP2.SEC
  ]

/-- Registers of TIME, continued. -/
def timeRegs1 : List RegField :=
  [ ⟨0x114, 0x20, 4, 15, 0, .view, 0, .any⟩ -- TIME_TSQn_POP3.SEC
  ]

/-- Registers of TIME (R67), together. -/
def timeRegs : List RegField := timeRegs0 ++ timeRegs1

/-- Registers of NET (R97). -/
def netRegs : List RegField :=
  [ ⟨0x0, 0x0, 1, 31, 16, .ro, 1, .any⟩ -- NET_VER.MAJOR
  , ⟨0x0, 0x0, 1, 15, 0, .ro, 0, .any⟩ -- NET_VER.MINOR
  , ⟨0x4, 0x0, 1, 0, 0, .rw, 0, .any⟩ -- NET_CTL.EN
  , ⟨0x4, 0x0, 1, 1, 1, .rw, 0, .any⟩ -- NET_CTL.NETSEL
  , ⟨0x4, 0x0, 1, 3, 2, .rw, 0, (.ne 3)⟩ -- NET_CTL.PHY
  , ⟨0x4, 0x0, 1, 4, 4, .rw, 1, .any⟩ -- NET_CTL.AN_EN
  , ⟨0x4, 0x0, 1, 5, 5, .rw, 0, .any⟩ -- NET_CTL.LOOP
  , ⟨0x8, 0x0, 1, 0, 0, .ro, 0, .any⟩ -- NET_STAT.LINK
  , ⟨0x8, 0x0, 1, 1, 1, .ro, 0, .any⟩ -- NET_STAT.AN_DONE
  , ⟨0x8, 0x0, 1, 2, 2, .ro, 0, .any⟩ -- NET_STAT.FEC_LOCK
  , ⟨0x8, 0x0, 1, 3, 3, .ro, 0, .any⟩ -- NET_STAT.HI_SER
  , ⟨0x8, 0x0, 1, 16, 16, .w1c, 0, .any⟩ -- NET_STAT.LINK_LOST
  , ⟨0x10, 0x0, 1, 31, 0, .view, 0, .any⟩ -- NET_MAC_LO.ADDR
  , ⟨0x14, 0x0, 1, 15, 0, .view, 0, .any⟩ -- NET_MAC_HI.ADDR
  , ⟨0x20, 0x0, 1, 9, 0, .rw, 48, (.ne 0)⟩ -- NET_PATH_TO.TICKS
  , ⟨0x24, 0x0, 1, 9, 0, .rw, 6, .any⟩ -- NET_EGR_GRACE.TICKS
  , ⟨0x28, 0x0, 1, 18, 0, .view, 0, .any⟩ -- NET_RXFIFO_LVL.BYTES
  , ⟨0x30, 0x0, 1, 31, 0, .rc, 0, .any⟩ -- NET_RX_FRAMES.COUNT
  , ⟨0x34, 0x0, 1, 31, 0, .rc, 0, .any⟩ -- NET_RX_CRC.COUNT
  , ⟨0x38, 0x0, 1, 31, 0, .rc, 0, .any⟩ -- NET_RX_SIZE.COUNT
  , ⟨0x3c, 0x0, 1, 31, 0, .rc, 0, .any⟩ -- NET_RX_PAUSE.COUNT
  , ⟨0x40, 0x0, 1, 31, 0, .rc, 0, .any⟩ -- NET_RX_NOMATCH.COUNT
  , ⟨0x44, 0x0, 1, 31, 0, .rc, 0, .any⟩ -- NET_RX_FORMAT.COUNT
  , ⟨0x48, 0x0, 1, 31, 0, .rc, 0, .any⟩ -- NET_RX_FIFO_DROP.COUNT
  , ⟨0x4c, 0x0, 1, 31, 0, .rc, 0, .any⟩ -- NET_SVC_DROP.COUNT
  , ⟨0x50, 0x0, 1, 31, 0, .rc, 0, .any⟩ -- NET_TX_FRAMES.COUNT
  , ⟨0x54, 0x0, 1, 31, 0, .rc, 0, .any⟩ -- NET_TX_LATE.COUNT
  , ⟨0x58, 0x0, 1, 31, 0, .rc, 0, .any⟩ -- NET_TX_STALE.COUNT
  , ⟨0x5c, 0x0, 1, 31, 0, .rc, 0, .any⟩ -- NET_TX_LINKDOWN.COUNT
  , ⟨0x60, 0x0, 1, 31, 0, .rc, 0, .any⟩ -- NET_FEC_CORR.COUNT
  , ⟨0x64, 0x0, 1, 31, 0, .rc, 0, .any⟩ -- NET_FEC_UNCORR.COUNT
  ]

/-- Registers of MQ (R128). -/
def mqRegs : List RegField :=
  [ ⟨0x0, 0x0, 1, 31, 16, .ro, 1, .any⟩ -- MQ_VER.MAJOR
  , ⟨0x0, 0x0, 1, 15, 0, .ro, 0, .any⟩ -- MQ_VER.MINOR
  , ⟨0x4, 0x0, 1, 0, 0, .rw, 0, .any⟩ -- MQ_CTL.EN
  , ⟨0x10, 0x0, 1, 31, 12, .rw, 0, .any⟩ -- MQ_SPILL_BASE_LO.ADDR
  , ⟨0x14, 0x0, 1, 2, 0, .rw, 0, .any⟩ -- MQ_SPILL_BASE_HI.ADDR
  , ⟨0x18, 0x0, 1, 12, 0, .rw, 0, (.upTo 4096)⟩ -- MQ_SPILL_SIZE.MIB
  , ⟨0x1c, 0x0, 1, 22, 0, .view, 0, .any⟩ -- MQ_SPILL_USED.KIB
  , ⟨0x20, 0x0, 1, 16, 0, .view, 0, .any⟩ -- MQ_STAT.OPEN
  , ⟨0x24, 0x0, 1, 0, 0, .w1c, 0, .any⟩ -- MQ_INT_STAT.MARK_LOST
  , ⟨0x24, 0x0, 1, 1, 1, .w1c, 0, .any⟩ -- MQ_INT_STAT.LOST
  , ⟨0x24, 0x0, 1, 2, 2, .w1c, 0, .any⟩ -- MQ_INT_STAT.SLIP
  , ⟨0x28, 0x0, 1, 2, 0, .rw, 0, .any⟩ -- MQ_INT_EN.MASK
  , ⟨0x30, 0x0, 1, 31, 0, .rc, 0, .any⟩ -- MQ_LOST_TOTAL.COUNT
  , ⟨0x34, 0x0, 1, 31, 0, .rc, 0, .any⟩ -- MQ_LATE_TOTAL.COUNT
  , ⟨0x38, 0x0, 1, 31, 0, .rc, 0, .any⟩ -- MQ_DUP_TOTAL.COUNT
  , ⟨0x3c, 0x0, 1, 31, 0, .rc, 0, .any⟩ -- MQ_SLIP_TOTAL.COUNT
  , ⟨0x40, 0x0, 1, 31, 0, .rc, 0, .any⟩ -- MQ_RESTORE_TOTAL.COUNT
  , ⟨0x80, 0x0, 1, 15, 0, .rw, 0, .any⟩ -- MQ_QSEL.QUEUE
  , ⟨0x84, 0x0, 1, 2, 0, .view, 0, .any⟩ -- MQ_QINFO.MODE
  , ⟨0x84, 0x0, 1, 4, 4, .view, 0, .any⟩ -- MQ_QINFO.MARK_VALID
  , ⟨0x84, 0x0, 1, 5, 5, .view, 0, .any⟩ -- MQ_QINFO.MARK_LOST
  , ⟨0x84, 0x0, 1, 6, 6, .view, 0, .any⟩ -- MQ_QINFO.SPILLING
  , ⟨0x84, 0x0, 1, 7, 7, .view, 0, .any⟩ -- MQ_QINFO.LAST_VALID
  , ⟨0x88, 0x0, 1, 15, 0, .view, 0, .any⟩ -- MQ_QDEPTH.DEPTH
  , ⟨0x88, 0x0, 1, 31, 16, .view, 0, .any⟩ -- MQ_QDEPTH.HELD
  , ⟨0x8c, 0x0, 1, 15, 0, .view, 0, .any⟩ -- MQ_QRET.RETAINED
  , ⟨0x8c, 0x0, 1, 22, 16, .view, 0, .any⟩ -- MQ_QRET.PENDING
  , ⟨0x90, 0x0, 1, 31, 0, .view, 0, .any⟩ -- MQ_QLASTKEY.KEY
  , ⟨0x94, 0x0, 1, 31, 0, .view, 0, .any⟩ -- MQ_QLOST.COUNT
  , ⟨0x98, 0x0, 1, 31, 0, .view, 0, .any⟩ -- MQ_QLATE.COUNT
  , ⟨0x9c, 0x0, 1, 31, 0, .view, 0, .any⟩ -- MQ_QDUP.COUNT
  ]

/-- Registers of BULL (R162). -/
def bullRegs : List RegField :=
  [ ⟨0x0, 0x0, 1, 31, 16, .ro, 1, .any⟩ -- BULL_VER.MAJOR
  , ⟨0x0, 0x0, 1, 15, 0, .ro, 0, .any⟩ -- BULL_VER.MINOR
  , ⟨0x4, 0x0, 1, 0, 0, .rw, 0, .any⟩ -- BULL_CTL.EN
  , ⟨0x8, 0x0, 1, 15, 0, .rc, 0, .any⟩ -- BULL_STAT.RC_COLLIDE
  , ⟨0xc, 0x0, 1, 0, 0, .w1c, 0, .any⟩ -- BULL_INT_STAT.TCR
  , ⟨0xc, 0x0, 1, 1, 1, .w1c, 0, .any⟩ -- BULL_INT_STAT.TCR_OVF
  , ⟨0xc, 0x0, 1, 2, 2, .w1c, 0, .any⟩ -- BULL_INT_STAT.BEAT_MISS
  , ⟨0xc, 0x0, 1, 3, 3, .w1c, 0, .any⟩ -- BULL_INT_STAT.POST_VOID
  , ⟨0xc, 0x0, 1, 4, 4, .w1c, 0, .any⟩ -- BULL_INT_STAT.TIMER_FULL
  , ⟨0x10, 0x0, 1, 4, 0, .rw, 0, .any⟩ -- BULL_INT_EN.MASK
  , ⟨0x14, 0x0, 1, 31, 24, .rw, 0, .any⟩ -- BULL_DESC_BASE_LO.ADDR
  , ⟨0x18, 0x0, 1, 2, 0, .rw, 0, .any⟩ -- BULL_DESC_BASE_HI.ADDR
  , ⟨0x1c, 0x0, 1, 15, 0, .rw, 2000, .any⟩ -- BULL_STEAL.AGE
  , ⟨0x20, 0x0, 1, 7, 0, .rw, 40, .any⟩ -- BULL_WAKE_LEAD.US
  , ⟨0x24, 0x0, 1, 15, 0, .rw, 2000, .any⟩ -- BULL_PF_LEAD.NS
  , ⟨0x28, 0x0, 1, 18, 0, .view, 0, .any⟩ -- BULL_NODES.LOADED
  , ⟨0x2c, 0x0, 1, 14, 0, .view, 0, .any⟩ -- BULL_TIMERS.ARMED
  , ⟨0x30, 0x0, 1, 31, 4, .rw, 0, .any⟩ -- BULL_TCR_BASE_LO.ADDR
  , ⟨0x34, 0x0, 1, 2, 0, .rw, 0, .any⟩ -- BULL_TCR_BASE_HI.ADDR
  , ⟨0x38, 0x0, 1, 16, 0, .rw, 0, (.ring)⟩ -- BULL_TCR_SIZE.ENTRIES
  , ⟨0x3c, 0x0, 1, 15, 0, .ro, 0, .any⟩ -- BULL_TCR_HEAD.INDEX
  , ⟨0x40, 0x0, 1, 15, 0, .rw, 0, .any⟩ -- BULL_TCR_TAIL.INDEX
  , ⟨0x50, 0x0, 1, 31, 0, .rc, 0, .any⟩ -- BULL_POST_VOID.COUNT
  , ⟨0x54, 0x0, 1, 31, 0, .rc, 0, .any⟩ -- BULL_DONE_STALL.CYCLES
  , ⟨0x58, 0x0, 1, 31, 0, .rc, 0, .any⟩ -- BULL_ABORTS.COUNT
  , ⟨0x5c, 0x0, 1, 31, 0, .rc, 0, .any⟩ -- BULL_BUDGET_OVR.COUNT
  , ⟨0x60, 0x0, 1, 31, 0, .rc, 0, .any⟩ -- BULL_LATE_TIMERS.COUNT
  , ⟨0x64, 0x0, 1, 31, 0, .rc, 0, .any⟩ -- BULL_TCR_LOST.COUNT
  , ⟨0x68, 0x0, 1, 31, 0, .rc, 0, .any⟩ -- BULL_TIMER_FULL.COUNT
  , ⟨0x6c, 0x0, 1, 31, 0, .rc, 0, .any⟩ -- BULL_PEND_FULL.COUNT
  , ⟨0x100, 0x4, 16, 12, 0, .view, 0, .any⟩ -- BULL_RSn_LVL.ENTRIES
  , ⟨0x200, 0x20, 8, 0, 0, .view, 0, .any⟩ -- BULL_BEATg_CTL.EN
  , ⟨0x200, 0x20, 8, 4, 1, .view, 0, .any⟩ -- BULL_BEATg_CTL.FLAG
  , ⟨0x204, 0x20, 8, 15, 0, .view, 0, .any⟩ -- BULL_BEATg_QUANTUM.TICKS
  , ⟨0x208, 0x20, 8, 31, 0, .view, 0, .any⟩ -- BULL_BEATg_NEXT.MTC
  , ⟨0x20c, 0x20, 8, 16, 0, .view, 0, .any⟩ -- BULL_BEATg_MEMBERS.COUNT
  , ⟨0x210, 0x20, 8, 31, 0, .rc, 0, .any⟩ -- BULL_BEATg_MISS.COUNT
  , ⟨0x214, 0x20, 8, 31, 0, .rc, 0, .any⟩ -- BULL_BEATg_OVERLAP.COUNT
  , ⟨0x218, 0x20, 8, 31, 0, .rc, 0, .any⟩ -- BULL_BEATg_STALL.CYCLES
  ]

/-- Registers of GH (R191). -/
def ghRegs : List RegField :=
  [ ⟨0x0, 0x0, 1, 31, 16, .ro, 1, .any⟩ -- GH_VER.MAJOR
  , ⟨0x0, 0x0, 1, 15, 0, .ro, 0, .any⟩ -- GH_VER.MINOR
  , ⟨0x4, 0x0, 1, 0, 0, .rw, 0, .any⟩ -- GH_CTL.EN
  , ⟨0x8, 0x0, 1, 15, 0, .rw, 2000, .any⟩ -- GH_AFF_WIN.NS
  , ⟨0xc, 0x0, 1, 0, 0, .w1c, 0, .any⟩ -- GH_INT_STAT.WB_FAIL
  , ⟨0xc, 0x0, 1, 1, 1, .w1c, 0, .any⟩ -- GH_INT_STAT.NOSLOT
  , ⟨0x10, 0x0, 1, 1, 0, .rw, 0, .any⟩ -- GH_INT_EN.MASK
  , ⟨0x20, 0x0, 1, 31, 0, .rc, 0, .any⟩ -- GH_PAGEIN.COUNT
  , ⟨0x24, 0x0, 1, 31, 0, .rc, 0, .any⟩ -- GH_WRITEBACK.COUNT
  , ⟨0x28, 0x0, 1, 31, 0, .rc, 0, .any⟩ -- GH_PREFETCH.COUNT
  , ⟨0x2c, 0x0, 1, 31, 0, .rc, 0, .any⟩ -- GH_PF_WASTE.COUNT
  , ⟨0x30, 0x0, 1, 31, 0, .rc, 0, .any⟩ -- GH_AFF_HIT.COUNT
  , ⟨0x34, 0x0, 1, 31, 0, .rc, 0, .any⟩ -- GH_AFF_HOLD.COUNT
  , ⟨0x38, 0x0, 1, 31, 0, .rc, 0, .any⟩ -- GH_AFF_EXPIRE.COUNT
  , ⟨0x3c, 0x0, 1, 31, 0, .rc, 0, .any⟩ -- GH_NOSLOT.CYCLES
  , ⟨0x40, 0x0, 1, 31, 0, .rc, 0, .any⟩ -- GH_WB_FAIL.COUNT
  , ⟨0x44, 0x0, 1, 9, 0, .view, 0, .any⟩ -- GH_BW.GBPS
  , ⟨0x100, 0x4, 256, 5, 0, .view, 0, .any⟩ -- GH_RESk.SLOTS
  , ⟨0x100, 0x4, 256, 13, 8, .view, 0, .any⟩ -- GH_RESk.PINNED
  ]

/-- Registers of SEED (R192). -/
def seedRegs : List RegField :=
  [ ⟨0x0, 0x0, 1, 31, 16, .ro, 1, .any⟩ -- SEED_VER.MAJOR
  , ⟨0x0, 0x0, 1, 15, 0, .ro, 0, .any⟩ -- SEED_VER.MINOR
  , ⟨0x4, 0x0, 1, 0, 0, .rw, 0, .any⟩ -- SEED_CTL.EN
  , ⟨0x10, 0x0, 1, 31, 12, .rw, 0, .any⟩ -- SEED_POOL_BASE_LO.ADDR
  , ⟨0x14, 0x0, 1, 2, 0, .rw, 0, .any⟩ -- SEED_POOL_BASE_HI.ADDR
  , ⟨0x18, 0x0, 1, 24, 0, .rw, 0, (.upTo 16777216)⟩ -- SEED_POOL_GRAN.COUNT
  , ⟨0x1c, 0x0, 1, 31, 12, .rw, 0, .any⟩ -- SEED_TAG_BASE_LO.ADDR
  , ⟨0x20, 0x0, 1, 2, 0, .rw, 0, .any⟩ -- SEED_TAG_BASE_HI.ADDR
  , ⟨0x24, 0x0, 1, 24, 0, .view, 0, .any⟩ -- SEED_FREE.COUNT
  , ⟨0x28, 0x0, 1, 24, 0, .view, 0, .any⟩ -- SEED_OWNED.COUNT
  , ⟨0x2c, 0x0, 1, 0, 0, .w1c, 0, .any⟩ -- SEED_INT_STAT.CONTAINED
  , ⟨0x2c, 0x0, 1, 1, 1, .w1c, 0, .any⟩ -- SEED_INT_STAT.NOSPACE
  , ⟨0x30, 0x0, 1, 1, 0, .rw, 0, .any⟩ -- SEED_INT_EN.MASK
  , ⟨0x34, 0x0, 1, 15, 0, .ro, 0, .any⟩ -- SEED_SWEEP.MS
  , ⟨0x40, 0x0, 1, 31, 0, .rc, 0, .any⟩ -- SEED_DOUBLE_FREE.COUNT
  , ⟨0x44, 0x0, 1, 31, 0, .rc, 0, .any⟩ -- SEED_FOREIGN_FREE.COUNT
  , ⟨0x48, 0x0, 1, 31, 0, .rc, 0, .any⟩ -- SEED_MISMATCH.COUNT
  , ⟨0x4c, 0x0, 1, 31, 0, .rc, 0, .any⟩ -- SEED_NOCREDIT.COUNT
  , ⟨0x50, 0x0, 1, 31, 0, .rc, 0, .any⟩ -- SEED_NOSPACE.COUNT
  , ⟨0x54, 0x0, 1, 31, 0, .rc, 0, .any⟩ -- SEED_PEND_FULL.COUNT
  , ⟨0x58, 0x0, 1, 31, 0, .rc, 0, .any⟩ -- SEED_ABORT_UNDO.COUNT
  , ⟨0x80, 0x0, 1, 11, 0, .rw, 0, .any⟩ -- SEED_ASEL.ACCOUNT
  , ⟨0x84, 0x0, 1, 2, 0, .view, 0, .any⟩ -- SEED_AINFO.KIND
  , ⟨0x84, 0x0, 1, 4, 4, .view, 0, .any⟩ -- SEED_AINFO.OVER
  , ⟨0x84, 0x0, 1, 13, 8, .view, 0, .any⟩ -- SEED_AINFO.RELEASES
  , ⟨0x88, 0x0, 1, 24, 0, .view, 0, .any⟩ -- SEED_AQUOTA.GRAN
  , ⟨0x8c, 0x0, 1, 24, 0, .view, 0, .any⟩ -- SEED_AHELD.GRAN
  , ⟨0x90, 0x0, 1, 24, 0, .view, 0, .any⟩ -- SEED_APEAK.GRAN
  ]

/-- Registers of CORE (R221). -/
def coreRegs : List RegField :=
  [ ⟨0x800, 0x0, 1, 2, 0, .view, 0, .any⟩ -- CLUn_Cm_STAT.STATE
  , ⟨0x800, 0x0, 1, 23, 6, .view, 0, .any⟩ -- CLUn_Cm_STAT.NODE
  , ⟨0x804, 0x0, 1, 4, 0, .ro, 0, .any⟩ -- CLUn_Cm_EXC.CODE
  , ⟨0x804, 0x0, 1, 8, 8, .w1c, 0, .any⟩ -- CLUn_Cm_EXC.VALID
  , ⟨0x808, 0x0, 1, 31, 0, .ro, 0, .any⟩ -- CLUn_Cm_EXC_PC.PC
  , ⟨0x80c, 0x0, 1, 17, 0, .ro, 0, .any⟩ -- CLUn_Cm_EXC_NODE.NODE
  , ⟨0x810, 0x0, 1, 31, 2, .rw, 0, .any⟩ -- CLUn_Cm_HOME.PC
  , ⟨0x814, 0x0, 1, 31, 0, .rc, 0, .any⟩ -- CLUn_Cm_RUNS.COUNT
  , ⟨0x818, 0x0, 1, 31, 0, .rc, 0, .any⟩ -- CLUn_Cm_ABORTS.COUNT
  , ⟨0x81c, 0x0, 1, 31, 0, .rc, 0, .any⟩ -- CLUn_Cm_XBYTES.COUNT
  ]

/-- Registers of CLU (R222). -/
def cluRegs : List RegField :=
  [ ⟨0xc00, 0x0, 1, 31, 16, .ro, 1, .any⟩ -- CLUn_VER.MAJOR
  , ⟨0xc00, 0x0, 1, 15, 0, .ro, 0, .any⟩ -- CLUn_VER.MINOR
  , ⟨0xc04, 0x0, 1, 1, 0, .view, 0, .any⟩ -- CLUn_PWR.STATE
  , ⟨0xc04, 0x0, 1, 5, 4, .rw, 3, .any⟩ -- CLUn_PWR.LIMIT
  , ⟨0xc08, 0x0, 1, 2, 0, .rw, 2, (.upTo 4)⟩ -- CLUn_SPARES.COUNT
  , ⟨0xc08, 0x0, 1, 10, 8, .view, 0, .any⟩ -- CLUn_SPARES.HELD
  , ⟨0xc0c, 0x0, 1, 15, 0, .view, 0, .any⟩ -- CLUn_WORKING.MASK
  , ⟨0xc10, 0x0, 1, 15, 0, .view, 0, .any⟩ -- CLUn_RETIRED.MASK
  , ⟨0xc14, 0x0, 1, 6, 0, .rw, 0, .any⟩ -- CLUn_CODE_BASE.ADDR
  ]

/-- Registers of MADI (R323). -/
def madiRegs : List RegField :=
  [ ⟨0x0, 0x0, 1, 31, 16, .ro, 1, .any⟩ -- MADI_VER.MAJOR
  , ⟨0x0, 0x0, 1, 15, 0, .ro, 0, .any⟩ -- MADI_VER.MINOR
  , ⟨0x4, 0x0, 1, 3, 0, .w1c, 0, .any⟩ -- MADI_INT_STAT.LOST_LOCK
  , ⟨0x8, 0x0, 1, 3, 0, .rw, 0, .any⟩ -- MADI_INT_EN.MASK
  , ⟨0x100, 0x40, 4, 0, 0, .rw, 0, .any⟩ -- MADI_Pp_CTL.EN
  , ⟨0x100, 0x40, 4, 1, 1, .rw, 0, .any⟩ -- MADI_Pp_CTL.RX_EN
  , ⟨0x100, 0x40, 4, 2, 2, .rw, 0, .any⟩ -- MADI_Pp_CTL.TX_EN
  , ⟨0x100, 0x40, 4, 5, 4, .rw, 2, (.ne 0)⟩ -- MADI_Pp_CTL.BLOCK
  , ⟨0x100, 0x40, 4, 10, 8, .rw, 2, (.between 1 6)⟩ -- MADI_Pp_CTL.SLIP_THR
  , ⟨0x104, 0x40, 4, 15, 0, .rw, 0, .any⟩ -- MADI_Pp_QUEUE.RX
  , ⟨0x104, 0x40, 4, 31, 16, .rw, 0, .any⟩ -- MADI_Pp_QUEUE.TX
  , ⟨0x108, 0x40, 4, 11, 0, .rw, 0, .any⟩ -- MADI_Pp_ACCOUNT.ACCOUNT
  , ⟨0x10c, 0x40, 4, 0, 0, .ro, 0, .any⟩ -- MADI_Pp_STAT.RX_LOCK
  , ⟨0x10c, 0x40, 4, 1, 1, .ro, 0, .any⟩ -- MADI_Pp_STAT.RX_56
  , ⟨0x10c, 0x40, 4, 16, 16, .w1c, 0, .any⟩ -- MADI_Pp_STAT.LOST_LOCK
  , ⟨0x10c, 0x40, 4, 17, 17, .w1c, 0, .any⟩ -- MADI_Pp_STAT.CFG_ERR
  , ⟨0x110, 0x40, 4, 31, 0, .ro, 0, .any⟩ -- MADI_Pp_PHASE.NS
  , ⟨0x114, 0x40, 4, 31, 0, .rc, 0, .any⟩ -- MADI_Pp_RX_ITEMS.COUNT
  , ⟨0x118, 0x40, 4, 31, 0, .rc, 0, .any⟩ -- MADI_Pp_RX_SLIP.COUNT
  , ⟨0x11c, 0x40, 4, 31, 0, .rc, 0, .any⟩ -- MADI_Pp_RX_RELOCK.COUNT
  , ⟨0x120, 0x40, 4, 31, 0, .rc, 0, .any⟩ -- MADI_Pp_RX_VBIT.COUNT
  , ⟨0x124, 0x40, 4, 31, 0, .rc, 0, .any⟩ -- MADI_Pp_RX_CODE_ERR.COUNT
  , ⟨0x128, 0x40, 4, 31, 0, .rc, 0, .any⟩ -- MADI_Pp_RX_NOCREDIT.COUNT
  , ⟨0x12c, 0x40, 4, 31, 0, .rc, 0, .any⟩ -- MADI_Pp_TX_ITEMS.COUNT
  , ⟨0x130, 0x40, 4, 31, 0, .rc, 0, .any⟩ -- MADI_Pp_TX_LATE.COUNT
  , ⟨0x134, 0x40, 4, 31, 0, .rc, 0, .any⟩ -- MADI_Pp_TX_UNDER.COUNT
  ]

/-- Registers of RFP (R344). -/
def rfpRegs0 : List RegField :=
  [ ⟨0x0, 0x0, 1, 31, 16, .ro, 1, .any⟩ -- RFPn_VER.MAJOR
  , ⟨0x0, 0x0, 1, 15, 0, .ro, 0, .any⟩ -- RFPn_VER.MINOR
  , ⟨0x4, 0x0, 1, 0, 0, .rw, 0, .any⟩ -- RFPn_CTL.EN
  , ⟨0x4, 0x0, 1, 1, 1, .rw, 0, .any⟩ -- RFPn_CTL.RX_EN
  , ⟨0x4, 0x0, 1, 2, 2, .rw, 0, .any⟩ -- RFPn_CTL.TX_EN
  , ⟨0x4, 0x0, 1, 3, 3, .rw, 1, .any⟩ -- RFPn_CTL.SCR
  , ⟨0x4, 0x0, 1, 4, 4, .rw, 0, .any⟩ -- RFPn_CTL.KSEL
  , ⟨0x8, 0x0, 1, 0, 0, .ro, 0, .any⟩ -- RFPn_STAT.RX_CGS
  , ⟨0x8, 0x0, 1, 1, 1, .ro, 0, .any⟩ -- RFPn_STAT.RX_DATA
  , ⟨0x8, 0x0, 1, 2, 2, .ro, 0, .any⟩ -- RFPn_STAT.TX_DATA
  , ⟨0x8, 0x0, 1, 3, 3, .ro, 0, .any⟩ -- RFPn_STAT.SYSREF_OK
  , ⟨0x8, 0x0, 1, 16, 16, .w1c, 0, .any⟩ -- RFPn_STAT.LINK_LOST
  , ⟨0x8, 0x0, 1, 17, 17, .w1c, 0, .any⟩ -- RFPn_STAT.ILAS_ERR
  , ⟨0x8, 0x0, 1, 18, 18, .w1c, 0, .any⟩ -- RFPn_STAT.SYSREF_ERR
  , ⟨0xc, 0x0, 1, 9, 0, .rw, 0, (.upTo 639)⟩ -- RFPn_LAT_ADJ.RX
  , ⟨0xc, 0x0, 1, 25, 16, .rw, 0, (.upTo 639)⟩ -- RFPn_LAT_ADJ.TX
  , ⟨0x10, 0x0, 1, 4, 0, .rw, 0, .any⟩ -- RFPn_RBD.CYCLES
  , ⟨0x14, 0x0, 1, 4, 0, .rw, 12, (.between 8 16)⟩ -- RFPn_DCB.K
  , ⟨0x14, 0x0, 1, 9, 8, .rw, 0, (.ne 3)⟩ -- RFPn_DCB.FREEZE
  , ⟨0x14, 0x0, 1, 16, 16, .rws, 0, .any⟩ -- RFPn_DCB.CLR
  , ⟨0x18, 0x0, 1, 31, 0, .view, 0, .any⟩ -- RFPn_DCB_EST_I.EST
  , ⟨0x1c, 0x0, 1, 31, 0, .view, 0, .any⟩ -- RFPn_DCB_EST_Q.EST
  , ⟨0x20, 0x0, 1, 2, 0, .rw, 0, .any⟩ -- RFPn_INT_EN.MASK
  , ⟨0x24, 0x0, 1, 31, 0, .ro, 0, .any⟩ -- RFPn_SYSREF_PHASE.D
  , ⟨0x28, 0x0, 1, 3, 0, .rw, 0, (.upTo 11)⟩ -- RFPn_TAP.CAR
  , ⟨0x28, 0x0, 1, 4, 4, .rw, 0, .any⟩ -- RFPn_TAP.EN
  , ⟨0x28, 0x0, 1, 31, 16, .rw, 0, .any⟩ -- RFPn_TAP.QUEUE
  , ⟨0x2c, 0x0, 1, 11, 0, .rw, 0, .any⟩ -- RFPn_TAP_ACCOUNT.ACCOUNT
  , ⟨0x40, 0x0, 1, 31, 0, .rc, 0, .any⟩ -- RFPn_RX_DISP.COUNT
  , ⟨0x44, 0x0, 1, 31, 0, .rc, 0, .any⟩ -- RFPn_RX_NIT.COUNT
  , ⟨0x48, 0x0, 1, 31, 0, .rc, 0, .any⟩ -- RFPn_RX_UNEXP.COUNT
  , ⟨0x4c, 0x0, 1, 31, 0, .rc, 0, .any⟩ -- RFPn_RX_RESYNC.COUNT
  , ⟨0x50, 0x0, 1, 31, 0, .rc, 0, .any⟩ -- RFPn_TX_RESYNC.COUNT
  , ⟨0x54, 0x0, 1, 31, 0, .rc, 0, .any⟩ -- RFPn_SYSREF_SLIP.COUNT
  , ⟨0x58, 0x0, 1, 31, 0, .rc, 0, .any⟩ -- RFPn_DC_CLIP.COUNT
  , ⟨0x5c, 0x0, 1, 31, 0, .rc, 0, .any⟩ -- RFPn_MIX_CLIP.COUNT
  , ⟨0x60, 0x0, 1, 31, 0, .rc, 0, .any⟩ -- RFPn_OUT_CLIP.COUNT
  , ⟨0x64, 0x0, 1, 31, 0, .rc, 0, .any⟩ -- RFPn_TX_CLIP.COUNT
  , ⟨0x68, 0x0, 1, 31, 0, .rc, 0, .any⟩ -- RFPn_TAP_ITEMS.COUNT
  , ⟨0x6c, 0x0, 1, 31, 0, .rc, 0, .any⟩ -- RFPn_TAP_NOCREDIT.COUNT
  ]

/-- Registers of RFP, continued. -/
def rfpRegs1 : List RegField :=
  [ ⟨0x100, 0x20, 12, 0, 0, .ro, 0, .any⟩ -- RFPn_CARc_CTL.EN
  , ⟨0x100, 0x20, 12, 2, 1, .ro, 1, .any⟩ -- RFPn_CARc_CTL.PRESET
  , ⟨0x100, 0x20, 12, 6, 4, .ro, 3, .any⟩ -- RFPn_CARc_CTL.K
  , ⟨0x100, 0x20, 12, 12, 8, .ro, 5, .any⟩ -- RFPn_CARc_CTL.L
  , ⟨0x100, 0x20, 12, 19, 16, .ro, 0, .any⟩ -- RFPn_CARc_CTL.PHASE
  , ⟨0x100, 0x20, 12, 20, 20, .rw, 1, .any⟩ -- RFPn_CARc_CTL.PINRST
  , ⟨0x104, 0x20, 12, 31, 0, .ro, 0, .any⟩ -- RFPn_CARc_FREQ.FREQ
  , ⟨0x108, 0x20, 12, 0, 0, .view, 0, .any⟩ -- RFPn_CARc_STAT.SETTLING
  , ⟨0x108, 0x20, 12, 1, 1, .view, 0, .any⟩ -- RFPn_CARc_STAT.MODEM
  , ⟨0x10c, 0x20, 12, 31, 0, .rc, 0, .any⟩ -- RFPn_CARc_RESETS.COUNT
  ]

/-- Registers of RFP (R344), together. -/
def rfpRegs : List RegField := rfpRegs0 ++ rfpRegs1

/-- Registers of MDM (R383). -/
def mdmRegs0 : List RegField :=
  [ ⟨0x0, 0x0, 1, 31, 16, .ro, 1, .any⟩ -- MDM_VER.MAJOR
  , ⟨0x0, 0x0, 1, 15, 0, .ro, 0, .any⟩ -- MDM_VER.MINOR
  , ⟨0x4, 0x0, 1, 0, 0, .rw, 0, .any⟩ -- MDM_CTL.EN
  , ⟨0x8, 0x0, 1, 0, 0, .w1c, 0, .any⟩ -- MDM_INT_STAT.ABANDON
  , ⟨0x8, 0x0, 1, 1, 1, .w1c, 0, .any⟩ -- MDM_INT_STAT.NOCREDIT
  , ⟨0xc, 0x0, 1, 1, 0, .rw, 0, .any⟩ -- MDM_INT_EN.MASK
  , ⟨0x10, 0x0, 1, 11, 0, .rw, 0, .any⟩ -- MDM_ACCOUNT.ACCOUNT
  , ⟨0x14, 0x0, 1, 14, 0, .rw, 2730, .any⟩ -- MDM_TX_AMP.AMP
  , ⟨0x40, 0x0, 1, 9, 0, .rw, 2, .any⟩ -- MDM_RAMPe.V
  , ⟨0x44, 0x0, 1, 9, 0, .rw, 22, .any⟩ -- MDM_RAMPe.V
  , ⟨0x48, 0x0, 1, 9, 0, .rw, 60, .any⟩ -- MDM_RAMPe.V
  , ⟨0x4c, 0x0, 1, 9, 0, .rw, 116, .any⟩ -- MDM_RAMPe.V
  , ⟨0x50, 0x0, 1, 9, 0, .rw, 187, .any⟩ -- MDM_RAMPe.V
  , ⟨0x54, 0x0, 1, 9, 0, .rw, 270, .any⟩ -- MDM_RAMPe.V
  , ⟨0x58, 0x0, 1, 9, 0, .rw, 363, .any⟩ -- MDM_RAMPe.V
  , ⟨0x5c, 0x0, 1, 9, 0, .rw, 461, .any⟩ -- MDM_RAMPe.V
  , ⟨0x60, 0x0, 1, 9, 0, .rw, 562, .any⟩ -- MDM_RAMPe.V
  , ⟨0x64, 0x0, 1, 9, 0, .rw, 660, .any⟩ -- MDM_RAMPe.V
  , ⟨0x68, 0x0, 1, 9, 0, .rw, 753, .any⟩ -- MDM_RAMPe.V
  , ⟨0x6c, 0x0, 1, 9, 0, .rw, 836, .any⟩ -- MDM_RAMPe.V
  , ⟨0x70, 0x0, 1, 9, 0, .rw, 907, .any⟩ -- MDM_RAMPe.V
  , ⟨0x74, 0x0, 1, 9, 0, .rw, 963, .any⟩ -- MDM_RAMPe.V
  , ⟨0x78, 0x0, 1, 9, 0, .rw, 1001, .any⟩ -- MDM_RAMPe.V
  , ⟨0x7c, 0x0, 1, 9, 0, .rw, 1021, .any⟩ -- MDM_RAMPe.V
  , ⟨0x80, 0x0, 1, 8, 0, .rw, 0, .any⟩ -- MDM_LSEL.LINK
  , ⟨0x84, 0x0, 1, 0, 0, .view, 0, .any⟩ -- MDM_LINFO.RX_EN
  , ⟨0x84, 0x0, 1, 1, 1, .view, 0, .any⟩ -- MDM_LINFO.TX_EN
  , ⟨0x84, 0x0, 1, 2, 2, .view, 0, .any⟩ -- MDM_LINFO.MOD
  , ⟨0x84, 0x0, 1, 3, 3, .view, 0, .any⟩ -- MDM_LINFO.SCHED
  , ⟨0x84, 0x0, 1, 11, 8, .view, 0, .any⟩ -- MDM_LINFO.STATUS
  , ⟨0x88, 0x0, 1, 8, 0, .view, 0, .any⟩ -- MDM_LRSSI.RSSI
  , ⟨0x88, 0x0, 1, 31, 16, .view, 0, .any⟩ -- MDM_LRSSI.FOFS
  , ⟨0x100, 0x80, 8, 3, 0, .ro, 0, .any⟩ -- MDM_Pp_CFG.SYNC
  , ⟨0x100, 0x80, 8, 9, 4, .ro, 26, .any⟩ -- MDM_Pp_CFG.SYNC_THR
  , ⟨0x100, 0x80, 8, 14, 10, .ro, 8, .any⟩ -- MDM_Pp_CFG.SYNC_WIN
  , ⟨0x100, 0x80, 8, 19, 15, .ro, 6, .any⟩ -- MDM_Pp_CFG.CAP_MARGIN
  , ⟨0x100, 0x80, 8, 23, 20, .ro, 7, .any⟩ -- MDM_Pp_CFG.MU
  , ⟨0x100, 0x80, 8, 27, 24, .ro, 2, .any⟩ -- MDM_Pp_CFG.TX_LEAD
  , ⟨0x104, 0x80, 8, 0, 0, .rw, 1, .any⟩ -- MDM_Pp_AGC.EN
  , ⟨0x104, 0x80, 8, 1, 1, .rw, 0, .any⟩ -- MDM_Pp_AGC.GAIN_OUT
  ]

/-- Registers of MDM, continued. -/
def mdmRegs1 : List RegField :=
  [ ⟨0x104, 0x80, 8, 13, 8, .rw, 32, .any⟩ -- MDM_Pp_AGC.REF
  , ⟨0x104, 0x80, 8, 21, 16, .rw, 18, (.between 6 40)⟩ -- MDM_Pp_AGC.TARGET
  , ⟨0x104, 0x80, 8, 30, 24, .rw, 40, (.upTo 80)⟩ -- MDM_Pp_AGC.LAT
  , ⟨0x108, 0x80, 8, 5, 0, .ro, 0, .any⟩ -- MDM_Pp_GAIN.GAIN
  , ⟨0x108, 0x80, 8, 8, 8, .ro, 0, .any⟩ -- MDM_Pp_GAIN.FROZEN
  , ⟨0x108, 0x80, 8, 9, 9, .ro, 0, .any⟩ -- MDM_Pp_GAIN.PA_EN
  , ⟨0x10c, 0x80, 8, 16, 16, .w1c, 0, .any⟩ -- MDM_Pp_STAT.ABANDON
  , ⟨0x110, 0x80, 8, 31, 0, .rc, 0, .any⟩ -- MDM_Pp_RX_OK.COUNT
  , ⟨0x114, 0x80, 8, 31, 0, .rc, 0, .any⟩ -- MDM_Pp_RX_EMPTY.COUNT
  , ⟨0x118, 0x80, 8, 31, 0, .rc, 0, .any⟩ -- MDM_Pp_NO_SYNC.COUNT
  , ⟨0x11c, 0x80, 8, 31, 0, .rc, 0, .any⟩ -- MDM_Pp_HDR_FAIL.COUNT
  , ⟨0x120, 0x80, 8, 31, 0, .rc, 0, .any⟩ -- MDM_Pp_WRONG_LINK.COUNT
  , ⟨0x124, 0x80, 8, 31, 0, .rc, 0, .any⟩ -- MDM_Pp_CRC_FAIL.COUNT
  , ⟨0x128, 0x80, 8, 31, 0, .rc, 0, .any⟩ -- MDM_Pp_ABANDONED.COUNT
  , ⟨0x12c, 0x80, 8, 31, 0, .rc, 0, .any⟩ -- MDM_Pp_RX_NOCREDIT.COUNT
  , ⟨0x130, 0x80, 8, 31, 0, .rc, 0, .any⟩ -- MDM_Pp_FALSE_SYNC.COUNT
  , ⟨0x134, 0x80, 8, 31, 0, .rc, 0, .any⟩ -- MDM_Pp_CAPTURED.COUNT
  , ⟨0x138, 0x80, 8, 31, 0, .rc, 0, .any⟩ -- MDM_Pp_TX_SENT.COUNT
  , ⟨0x13c, 0x80, 8, 31, 0, .rc, 0, .any⟩ -- MDM_Pp_TX_EMPTY.COUNT
  , ⟨0x140, 0x80, 8, 31, 0, .rc, 0, .any⟩ -- MDM_Pp_TX_STALE.COUNT
  , ⟨0x144, 0x80, 8, 31, 0, .rc, 0, .any⟩ -- MDM_Pp_TX_FORMAT.COUNT
  ]

/-- Registers of MDM (R383), together. -/
def mdmRegs : List RegField := mdmRegs0 ++ mdmRegs1

/-- Registers of LDPC (R385). -/
def ldpcRegs : List RegField :=
  [ ⟨0x0, 0x0, 1, 31, 16, .ro, 1, .any⟩ -- LDPC_VER.MAJOR
  , ⟨0x0, 0x0, 1, 15, 0, .ro, 0, .any⟩ -- LDPC_VER.MINOR
  , ⟨0x4, 0x0, 1, 0, 0, .rw, 0, .any⟩ -- LDPC_CTL.EN
  , ⟨0x4, 0x0, 1, 12, 8, .rw, 4, (.upTo 16)⟩ -- LDPC_CTL.RADIO_RES
  , ⟨0x8, 0x0, 1, 4, 0, .rw, 20, (.between 1 20)⟩ -- LDPC_ITER.RADIO
  , ⟨0x8, 0x0, 1, 21, 16, .rw, 40, (.between 1 40)⟩ -- LDPC_ITER.FLASH
  , ⟨0xc, 0x0, 1, 4, 0, .view, 0, .any⟩ -- LDPC_STAT.BUSY_RADIO
  , ⟨0xc, 0x0, 1, 12, 8, .view, 0, .any⟩ -- LDPC_STAT.BUSY_FLASH
  , ⟨0xc, 0x0, 1, 23, 16, .view, 0, .any⟩ -- LDPC_STAT.RADIO_WAIT
  , ⟨0x10, 0x0, 1, 31, 0, .rc, 0, .any⟩ -- LDPC_RADIO_WAIT_MAX.NS
  , ⟨0x20, 0x0, 1, 31, 0, .rc, 0, .any⟩ -- LDPC_RADIO_JOBS.COUNT
  , ⟨0x24, 0x0, 1, 31, 0, .rc, 0, .any⟩ -- LDPC_RADIO_UNCONV.COUNT
  , ⟨0x28, 0x0, 1, 31, 0, .rc, 0, .any⟩ -- LDPC_RADIO_ITER.COUNT
  , ⟨0x2c, 0x0, 1, 31, 0, .rc, 0, .any⟩ -- LDPC_FLASH_JOBS.COUNT
  , ⟨0x30, 0x0, 1, 31, 0, .rc, 0, .any⟩ -- LDPC_FLASH_UNCONV.COUNT
  , ⟨0x34, 0x0, 1, 31, 0, .rc, 0, .any⟩ -- LDPC_FLASH_ITER.COUNT
  ]

/-- Registers of PACK (R424). -/
def packRegs : List RegField :=
  [ ⟨0x0, 0x0, 1, 31, 16, .ro, 1, .any⟩ -- PACK_VER.MAJOR
  , ⟨0x0, 0x0, 1, 15, 0, .ro, 0, .any⟩ -- PACK_VER.MINOR
  , ⟨0x4, 0x0, 1, 0, 0, .rw, 0, .any⟩ -- PACK_CTL.EN
  , ⟨0x8, 0x0, 1, 15, 0, .rw, 0, .any⟩ -- PACK_CAPQ.QUEUE
  , ⟨0xc, 0x0, 1, 11, 0, .rw, 0, .any⟩ -- PACK_ACCOUNT.ACCOUNT
  , ⟨0x10, 0x0, 1, 1, 0, .ro, 0, .any⟩ -- PACK_CAPCFG.RATIO
  , ⟨0x14, 0x0, 1, 0, 0, .w1c, 0, .any⟩ -- PACK_INT_STAT.JOB_STOP
  , ⟨0x14, 0x0, 1, 1, 1, .w1c, 0, .any⟩ -- PACK_INT_STAT.CAP_DROP
  , ⟨0x18, 0x0, 1, 1, 0, .rw, 0, .any⟩ -- PACK_INT_EN.MASK
  , ⟨0x1c, 0x0, 1, 4, 0, .view, 0, .any⟩ -- PACK_JOBS.HELD
  , ⟨0x20, 0x0, 1, 31, 0, .rc, 0, .any⟩ -- PACK_CODED.COUNT
  , ⟨0x24, 0x0, 1, 31, 0, .rc, 0, .any⟩ -- PACK_NOFIT.COUNT
  , ⟨0x28, 0x0, 1, 31, 0, .rc, 0, .any⟩ -- PACK_DECODED.COUNT
  , ⟨0x2c, 0x0, 1, 31, 0, .rc, 0, .any⟩ -- PACK_BAD.COUNT
  , ⟨0x30, 0x0, 1, 31, 0, .rc, 0, .any⟩ -- PACK_CAP_JOBS.COUNT
  , ⟨0x34, 0x0, 1, 31, 0, .rc, 0, .any⟩ -- PACK_CAP_WAIT.CYCLES
  , ⟨0x38, 0x0, 1, 31, 0, .rc, 0, .any⟩ -- PACK_CAP_DROP.COUNT
  , ⟨0x3c, 0x0, 1, 31, 0, .rc, 0, .any⟩ -- PACK_CAP_BAD.COUNT
  ]

/-- Registers of FLC (R426). -/
def flcRegs0 : List RegField :=
  [ ⟨0x0, 0x0, 1, 31, 16, .ro, 1, .any⟩ -- FLC_VER.MAJOR
  , ⟨0x0, 0x0, 1, 15, 0, .ro, 0, .any⟩ -- FLC_VER.MINOR
  , ⟨0x4, 0x0, 1, 0, 0, .rw, 0, .any⟩ -- FLC_CTL.EN
  , ⟨0x8, 0x0, 1, 0, 0, .view, 0, .any⟩ -- FLC_STAT.READY
  , ⟨0x8, 0x0, 1, 1, 1, .view, 0, .any⟩ -- FLC_STAT.RUNNING
  , ⟨0x8, 0x0, 1, 2, 2, .view, 0, .any⟩ -- FLC_STAT.HALT
  , ⟨0x8, 0x0, 1, 3, 3, .view, 0, .any⟩ -- FLC_STAT.REBUILD
  , ⟨0x8, 0x0, 1, 4, 4, .view, 0, .any⟩ -- FLC_STAT.FORMAT
  , ⟨0xc, 0x0, 1, 5, 0, .w1c, 0, .any⟩ -- FLC_INT_STAT
  , ⟨0x10, 0x0, 1, 5, 0, .rw, 0, .any⟩ -- FLC_INT_EN.MASK
  , ⟨0x14, 0x0, 1, 12, 0, .rw, 256, (.pow2 64 4096)⟩ -- FLC_GEOM.PPB
  , ⟨0x18, 0x0, 1, 31, 0, .view, 0, .any⟩ -- FLC_TGT_LO.MASK
  , ⟨0x1c, 0x0, 1, 31, 0, .view, 0, .any⟩ -- FLC_TGT_HI.MASK
  , ⟨0x20, 0x0, 1, 31, 12, .rw, 0, .any⟩ -- FLC_STAGE_BASE_LO.ADDR
  , ⟨0x24, 0x0, 1, 2, 0, .rw, 0, .any⟩ -- FLC_STAGE_BASE_HI.ADDR
  , ⟨0x28, 0x0, 1, 11, 0, .rw, 0, (.upTo 2048)⟩ -- FLC_STAGE_SIZE.MIB
  , ⟨0x2c, 0x0, 1, 15, 0, .rw, 8, .any⟩ -- FLC_CAP_MIN.SEGS
  , ⟨0x30, 0x0, 1, 7, 0, .rw, 4, .any⟩ -- FLC_RECLAIM.SEGS
  , ⟨0x34, 0x0, 1, 15, 0, .rw, 24, .any⟩ -- FLC_REFRESH.HOURS
  , ⟨0x38, 0x0, 1, 8, 0, .rw, 160, (.ne 0)⟩ -- FLC_CB.REFRESH
  , ⟨0x38, 0x0, 1, 24, 16, .rw, 280, (.ne 0)⟩ -- FLC_CB.RETIRE
  , ⟨0x3c, 0x0, 1, 2, 0, .rw, 4, .any⟩ -- FLC_RETRY.COUNT
  , ⟨0x40, 0x0, 1, 21, 0, .view, 0, .any⟩ -- FLC_SEG_TOTAL.SEGS
  , ⟨0x44, 0x0, 1, 21, 0, .view, 0, .any⟩ -- FLC_SEG_FREE.SEGS
  , ⟨0x48, 0x0, 1, 21, 0, .view, 0, .any⟩ -- FLC_SEG_LOCKED.SEGS
  , ⟨0x4c, 0x0, 1, 6, 0, .view, 0, .any⟩ -- FLC_REBUILD.PCT
  , ⟨0x50, 0x0, 1, 31, 0, .view, 0, .any⟩ -- FLC_REBUILD_T_LO.T
  , ⟨0x54, 0x0, 1, 31, 0, .view, 0, .any⟩ -- FLC_REBUILD_T_HI.T
  , ⟨0x58, 0x0, 1, 31, 0, .view, 0, .any⟩ -- FLC_OLDEST_T_LO.T
  , ⟨0x5c, 0x0, 1, 31, 0, .view, 0, .any⟩ -- FLC_OLDEST_T_HI.T
  , ⟨0x80, 0x0, 1, 31, 0, .rc, 0, .any⟩ -- FLC_SEG_WRITTEN.COUNT
  , ⟨0x84, 0x0, 1, 31, 0, .rc, 0, .any⟩ -- FLC_SEG_RECLAIMED.COUNT
  , ⟨0x88, 0x0, 1, 31, 0, .rc, 0, .any⟩ -- FLC_SEG_RELOCATED.COUNT
  , ⟨0x8c, 0x0, 1, 31, 0, .rc, 0, .any⟩ -- FLC_BLK_RETIRED.COUNT
  , ⟨0x90, 0x0, 1, 31, 0, .rc, 0, .any⟩ -- FLC_PROG_FAIL.COUNT
  , ⟨0x94, 0x0, 1, 31, 0, .rc, 0, .any⟩ -- FLC_ERASE_FAIL.COUNT
  , ⟨0x98, 0x0, 1, 31, 0, .rc, 0, .any⟩ -- FLC_CW_UNCORR.COUNT
  , ⟨0x9c, 0x0, 1, 31, 0, .rc, 0, .any⟩ -- FLC_REREAD.COUNT
  , ⟨0xc0, 0x0, 1, 7, 0, .rw, 0, .any⟩ -- FLC_DSEL.DIE
  , ⟨0xc4, 0x0, 1, 1, 0, .view, 0, .any⟩ -- FLC_DINFO.STATE
  ]

/-- Registers of FLC, continued. -/
def flcRegs1 : List RegField :=
  [ ⟨0xc8, 0x0, 1, 19, 0, .view, 0, .any⟩ -- FLC_DSPARE.BLOCKS
  , ⟨0xcc, 0x0, 1, 15, 0, .view, 0, .any⟩ -- FLC_DERASE.MIN
  , ⟨0xcc, 0x0, 1, 31, 16, .view, 0, .any⟩ -- FLC_DERASE.MAX
  , ⟨0xd0, 0x0, 1, 19, 0, .view, 0, .any⟩ -- FLC_DFREE.BLOCKS
  ]

/-- Registers of FLC (R426), together. -/
def flcRegs : List RegField := flcRegs0 ++ flcRegs1

/-- Registers of UMP (R445). -/
def umpRegs : List RegField :=
  [ ⟨0x0, 0x0, 1, 31, 16, .ro, 1, .any⟩ -- UMP_VER.MAJOR
  , ⟨0x0, 0x0, 1, 15, 0, .ro, 0, .any⟩ -- UMP_VER.MINOR
  , ⟨0x4, 0x0, 1, 0, 0, .rw, 0, .any⟩ -- UMP_CTL.EN
  , ⟨0x4, 0x0, 1, 1, 1, .rw, 1, .any⟩ -- UMP_CTL.ECC_EN
  , ⟨0x4, 0x0, 1, 2, 2, .rw, 0, .any⟩ -- UMP_CTL.INJ_EN
  , ⟨0x8, 0x0, 1, 3, 0, .w1c, 0, .any⟩ -- UMP_INT_STAT
  , ⟨0xc, 0x0, 1, 3, 0, .rw, 0, .any⟩ -- UMP_INT_EN.MASK
  , ⟨0x10, 0x0, 1, 31, 5, .rw, 0, .any⟩ -- UMP_RING_BASE_LO.ADDR
  , ⟨0x14, 0x0, 1, 2, 0, .rw, 0, .any⟩ -- UMP_RING_BASE_HI.ADDR
  , ⟨0x18, 0x0, 1, 16, 0, .rw, 0, (.ring)⟩ -- UMP_RING_SIZE.ENTRIES
  , ⟨0x1c, 0x0, 1, 15, 0, .ro, 0, .any⟩ -- UMP_RING_HEAD.INDEX
  , ⟨0x20, 0x0, 1, 15, 0, .rw, 0, .any⟩ -- UMP_RING_TAIL.INDEX
  , ⟨0x24, 0x0, 1, 2, 0, .rw, 2, (.ne 0)⟩ -- UMP_RETIRE.STRIKES
  , ⟨0x24, 0x0, 1, 31, 16, .rw, 3600, .any⟩ -- UMP_RETIRE.WINDOW
  , ⟨0x28, 0x0, 1, 15, 0, .rw, 60, .any⟩ -- UMP_SPARE_TEST.SEC
  , ⟨0x2c, 0x0, 1, 13, 0, .rw, 1000, (.zeroOr 10 10000)⟩ -- UMP_SCRUB.SRAM_MS
  , ⟨0x2c, 0x0, 1, 31, 16, .rw, 60, .any⟩ -- UMP_SCRUB.HBM_MIN
  , ⟨0x30, 0x0, 1, 31, 0, .ro, 0, .any⟩ -- UMP_SEQ.NEXT
  , ⟨0x40, 0x0, 1, 31, 0, .rc, 0, .any⟩ -- UMP_CORRECTED.COUNT
  , ⟨0x44, 0x0, 1, 31, 0, .rc, 0, .any⟩ -- UMP_CONTAINED.COUNT
  , ⟨0x48, 0x0, 1, 31, 0, .rc, 0, .any⟩ -- UMP_DEGRADED.COUNT
  , ⟨0x4c, 0x0, 1, 31, 0, .rc, 0, .any⟩ -- UMP_LOST.COUNT
  , ⟨0x50, 0x0, 1, 31, 0, .rc, 0, .any⟩ -- UMP_SCRUB_PASSES.COUNT
  , ⟨0x54, 0x0, 1, 31, 0, .rc, 0, .any⟩ -- UMP_SCRUB_LATE.COUNT
  , ⟨0x58, 0x0, 1, 31, 0, .rc, 0, .any⟩ -- UMP_PATROL_PASSES.COUNT
  , ⟨0x80, 0x0, 1, 1, 0, .rw, 0, (.ne 3)⟩ -- UMP_INJECT.KIND
  , ⟨0x80, 0x0, 1, 15, 8, .rw, 0, .any⟩ -- UMP_INJECT.CORE
  , ⟨0x80, 0x0, 1, 16, 16, .rws, 0, .any⟩ -- UMP_INJECT.ARM
  , ⟨0x100, 0x4, 256, 2, 0, .view, 0, .any⟩ -- UMP_STRIKEk.COUNT
  ]

/-- Registers of AON (R447, R504). -/
def aonRegs0 : List RegField :=
  [ ⟨0x400, 0x4, 32, 15, 0, .ro, 0, .any⟩ -- AON_TMONn.TEMP
  , ⟨0x400, 0x4, 32, 16, 16, .ro, 0, .any⟩ -- AON_TMONn.WARN
  , ⟨0x400, 0x4, 32, 17, 17, .ro, 0, .any⟩ -- AON_TMONn.CRIT
  , ⟨0x480, 0x4, 24, 11, 0, .ro, 0, .any⟩ -- AON_VMONn.MV
  , ⟨0x4e0, 0x0, 1, 11, 0, .rw, 720, .any⟩ -- AON_VWINn.LO
  , ⟨0x4e4, 0x0, 1, 11, 0, .rw, 720, .any⟩ -- AON_VWINn.LO
  , ⟨0x4e8, 0x0, 1, 11, 0, .rw, 720, .any⟩ -- AON_VWINn.LO
  , ⟨0x4ec, 0x0, 1, 11, 0, .rw, 720, .any⟩ -- AON_VWINn.LO
  , ⟨0x4f0, 0x0, 1, 11, 0, .rw, 720, .any⟩ -- AON_VWINn.LO
  , ⟨0x4f4, 0x0, 1, 11, 0, .rw, 720, .any⟩ -- AON_VWINn.LO
  , ⟨0x4f8, 0x0, 1, 11, 0, .rw, 720, .any⟩ -- AON_VWINn.LO
  , ⟨0x4fc, 0x0, 1, 11, 0, .rw, 720, .any⟩ -- AON_VWINn.LO
  , ⟨0x500, 0x0, 1, 11, 0, .rw, 768, .any⟩ -- AON_VWINn.LO
  , ⟨0x504, 0x0, 1, 11, 0, .rw, 768, .any⟩ -- AON_VWINn.LO
  , ⟨0x508, 0x0, 1, 11, 0, .rw, 768, .any⟩ -- AON_VWINn.LO
  , ⟨0x50c, 0x0, 1, 11, 0, .rw, 768, .any⟩ -- AON_VWINn.LO
  , ⟨0x510, 0x0, 1, 11, 0, .rw, 768, .any⟩ -- AON_VWINn.LO
  , ⟨0x514, 0x0, 1, 11, 0, .rw, 864, .any⟩ -- AON_VWINn.LO
  , ⟨0x518, 0x0, 1, 11, 0, .rw, 864, .any⟩ -- AON_VWINn.LO
  , ⟨0x51c, 0x0, 1, 11, 0, .rw, 1152, .any⟩ -- AON_VWINn.LO
  , ⟨0x520, 0x0, 1, 11, 0, .rw, 1152, .any⟩ -- AON_VWINn.LO
  , ⟨0x524, 0x0, 1, 11, 0, .rw, 1152, .any⟩ -- AON_VWINn.LO
  , ⟨0x528, 0x0, 1, 11, 0, .rw, 1152, .any⟩ -- AON_VWINn.LO
  , ⟨0x52c, 0x0, 1, 11, 0, .rw, 1728, .any⟩ -- AON_VWINn.LO
  , ⟨0x530, 0x0, 1, 11, 0, .rw, 1056, .any⟩ -- AON_VWINn.LO
  , ⟨0x534, 0x0, 1, 11, 0, .rw, 1056, .any⟩ -- AON_VWINn.LO
  , ⟨0x538, 0x0, 1, 11, 0, .rw, 384, .any⟩ -- AON_VWINn.LO
  , ⟨0x53c, 0x0, 1, 11, 0, .rw, 384, .any⟩ -- AON_VWINn.LO
  , ⟨0x4e0, 0x0, 1, 27, 16, .rw, 780, .any⟩ -- AON_VWINn.HI
  , ⟨0x4e4, 0x0, 1, 27, 16, .rw, 780, .any⟩ -- AON_VWINn.HI
  , ⟨0x4e8, 0x0, 1, 27, 16, .rw, 780, .any⟩ -- AON_VWINn.HI
  , ⟨0x4ec, 0x0, 1, 27, 16, .rw, 780, .any⟩ -- AON_VWINn.HI
  , ⟨0x4f0, 0x0, 1, 27, 16, .rw, 780, .any⟩ -- AON_VWINn.HI
  , ⟨0x4f4, 0x0, 1, 27, 16, .rw, 780, .any⟩ -- AON_VWINn.HI
  , ⟨0x4f8, 0x0, 1, 27, 16, .rw, 780, .any⟩ -- AON_VWINn.HI
  , ⟨0x4fc, 0x0, 1, 27, 16, .rw, 780, .any⟩ -- AON_VWINn.HI
  , ⟨0x500, 0x0, 1, 27, 16, .rw, 832, .any⟩ -- AON_VWINn.HI
  , ⟨0x504, 0x0, 1, 27, 16, .rw, 832, .any⟩ -- AON_VWINn.HI
  , ⟨0x508, 0x0, 1, 27, 16, .rw, 832, .any⟩ -- AON_VWINn.HI
  , ⟨0x50c, 0x0, 1, 27, 16, .rw, 832, .any⟩ -- AON_VWINn.HI
  ]

/-- Registers of AON, continued. -/
def aonRegs1 : List RegField :=
  [ ⟨0x510, 0x0, 1, 27, 16, .rw, 832, .any⟩ -- AON_VWINn.HI
  , ⟨0x514, 0x0, 1, 27, 16, .rw, 936, .any⟩ -- AON_VWINn.HI
  , ⟨0x518, 0x0, 1, 27, 16, .rw, 936, .any⟩ -- AON_VWINn.HI
  , ⟨0x51c, 0x0, 1, 27, 16, .rw, 1248, .any⟩ -- AON_VWINn.HI
  , ⟨0x520, 0x0, 1, 27, 16, .rw, 1248, .any⟩ -- AON_VWINn.HI
  , ⟨0x524, 0x0, 1, 27, 16, .rw, 1248, .any⟩ -- AON_VWINn.HI
  , ⟨0x528, 0x0, 1, 27, 16, .rw, 1248, .any⟩ -- AON_VWINn.HI
  , ⟨0x52c, 0x0, 1, 27, 16, .rw, 1872, .any⟩ -- AON_VWINn.HI
  , ⟨0x530, 0x0, 1, 27, 16, .rw, 1144, .any⟩ -- AON_VWINn.HI
  , ⟨0x534, 0x0, 1, 27, 16, .rw, 1144, .any⟩ -- AON_VWINn.HI
  , ⟨0x538, 0x0, 1, 27, 16, .rw, 416, .any⟩ -- AON_VWINn.HI
  , ⟨0x53c, 0x0, 1, 27, 16, .rw, 416, .any⟩ -- AON_VWINn.HI
  , ⟨0x540, 0x4, 16, 19, 0, .ro, 0, .any⟩ -- AON_PMONn.COUNT
  , ⟨0x580, 0x0, 1, 7, 0, .rw, 100, .any⟩ -- AON_TEMP_THR.WARN
  , ⟨0x580, 0x0, 1, 15, 8, .rw, 110, .any⟩ -- AON_TEMP_THR.CRIT
  , ⟨0x584, 0x0, 1, 19, 0, .rw, 0, .any⟩ -- AON_PMON_FLOOR.COUNT
  , ⟨0x588, 0x0, 1, 3, 0, .w1c, 0, .any⟩ -- AON_MON_STAT
  , ⟨0x600, 0x0, 1, 7, 0, .ro, 0, .any⟩ -- AON_FATAL.CAUSE
  , ⟨0x600, 0x0, 1, 15, 8, .ro, 0, .any⟩ -- AON_FATAL.SOURCE
  , ⟨0x600, 0x0, 1, 16, 16, .w1c, 0, .any⟩ -- AON_FATAL.VALID
  , ⟨0x604, 0x0, 1, 31, 0, .ro, 0, .any⟩ -- AON_FATAL_MTC.MTC
  , ⟨0x608, 0x0, 1, 0, 0, .w1c, 0, .any⟩ -- AON_TRIP.THERM
  , ⟨0x0, 0x0, 1, 31, 16, .ro, 1, .any⟩ -- AON_VER.MAJOR
  , ⟨0x0, 0x0, 1, 15, 0, .ro, 0, .any⟩ -- AON_VER.MINOR
  , ⟨0x4, 0x0, 1, 3, 0, .ro, 0, .any⟩ -- AON_RST_CAUSE
  , ⟨0x8, 0x0, 1, 0, 0, .ro, 0, .any⟩ -- AON_STAT.REF25_OK
  , ⟨0xc, 0x0, 1, 15, 0, .ro, 0, .any⟩ -- AON_RST_COUNT.COUNT
  ]

/-- Registers of AON (R447, R504), together. -/
def aonRegs : List RegField := aonRegs0 ++ aonRegs1

/-- Registers of PMU (R461). -/
def pmuRegs : List RegField :=
  [ ⟨0x0, 0x0, 1, 31, 16, .ro, 1, .any⟩ -- PMU_VER.MAJOR
  , ⟨0x0, 0x0, 1, 15, 0, .ro, 0, .any⟩ -- PMU_VER.MINOR
  , ⟨0x8, 0x0, 1, 5, 0, .rw, 0, .any⟩ -- PMU_UEN.MASK
  , ⟨0xc, 0x0, 1, 5, 0, .w1c, 0, .any⟩ -- PMU_OVF.PMC
  , ⟨0xc, 0x0, 1, 8, 8, .w1c, 0, .any⟩ -- PMU_OVF.CYCLE
  , ⟨0x10, 0x0, 1, 5, 0, .rw, 0, .any⟩ -- PMU_INT_EN.PMC
  , ⟨0x10, 0x0, 1, 8, 8, .rw, 0, .any⟩ -- PMU_INT_EN.CYCLE
  , ⟨0x20, 0x0, 1, 31, 0, .view, 0, .any⟩ -- PMU_CYCLE_LO.COUNT
  , ⟨0x24, 0x0, 1, 31, 0, .view, 0, .any⟩ -- PMU_CYCLE_HI.COUNT
  , ⟨0x40, 0x10, 6, 9, 0, .rw, 0, .any⟩ -- PMU_EVSELk.EVENT
  , ⟨0x40, 0x10, 6, 16, 16, .rw, 0, .any⟩ -- PMU_EVSELk.EN
  , ⟨0x44, 0x10, 6, 31, 0, .view, 0, .any⟩ -- PMU_PMCk_LO.COUNT
  , ⟨0x48, 0x10, 6, 15, 0, .view, 0, .any⟩ -- PMU_PMCk_HI.COUNT
  ]

/-- Registers of SCOUT (R462). -/
def scoutRegs : List RegField :=
  [ ⟨0x400, 0x0, 1, 31, 16, .ro, 1, .any⟩ -- SCOUT_VER.MAJOR
  , ⟨0x400, 0x0, 1, 15, 0, .ro, 0, .any⟩ -- SCOUT_VER.MINOR
  , ⟨0x404, 0x0, 1, 0, 0, .rw, 0, .any⟩ -- SCOUT_CTL.EN
  , ⟨0x404, 0x0, 1, 5, 1, .rw, 16, (.between 8 24)⟩ -- SCOUT_CTL.N
  , ⟨0x404, 0x0, 1, 8, 8, .rws, 0, .any⟩ -- SCOUT_CTL.REL
  , ⟨0x408, 0x0, 1, 4, 0, .view, 0, .any⟩ -- SCOUT_STAT.COUNT
  , ⟨0x408, 0x0, 1, 8, 8, .view, 0, .any⟩ -- SCOUT_STAT.FULL
  , ⟨0x40c, 0x0, 1, 15, 0, .view, 0, (.ne 0)⟩ -- SCOUT_LFSR.SEED
  ]

/-- Registers of HIF (R487). -/
def hifRegs : List RegField :=
  [ ⟨0x0, 0x0, 1, 31, 16, .ro, 1, .any⟩ -- HIF_VER.MAJOR
  , ⟨0x0, 0x0, 1, 15, 0, .ro, 0, .any⟩ -- HIF_VER.MINOR
  , ⟨0x4, 0x0, 1, 0, 0, .rw, 0, .any⟩ -- HIF_CTL.KCI_EN
  , ⟨0x8, 0x0, 1, 0, 0, .view, 0, .any⟩ -- HIF_STAT.OPEN
  , ⟨0x8, 0x0, 1, 16, 16, .w1c, 0, .any⟩ -- HIF_STAT.DEVRST
  , ⟨0xc, 0x0, 1, 3, 0, .w1c, 0, .any⟩ -- HIF_INT_STAT
  , ⟨0x10, 0x0, 1, 3, 0, .rw, 0, .any⟩ -- HIF_INT_EN.MASK
  , ⟨0x14, 0x0, 1, 31, 16, .ro, 1, .any⟩ -- HIF_KCI_VER.MAJOR
  , ⟨0x14, 0x0, 1, 15, 0, .ro, 0, .any⟩ -- HIF_KCI_VER.MINOR
  , ⟨0x20, 0x0, 1, 31, 6, .rw, 0, .any⟩ -- HIF_KCI_BASE_LO.ADDR
  , ⟨0x24, 0x0, 1, 31, 0, .rw, 0, .any⟩ -- HIF_KCI_BASE_HI.ADDR
  , ⟨0x28, 0x0, 1, 16, 0, .rw, 0, (.ring)⟩ -- HIF_KCI_SIZE.ENTRIES
  , ⟨0x2c, 0x0, 1, 15, 0, .rw, 0, .any⟩ -- HIF_KCI_DB.INDEX
  , ⟨0x30, 0x0, 1, 15, 0, .ro, 0, .any⟩ -- HIF_KCI_HEAD.INDEX
  , ⟨0x34, 0x0, 1, 10, 0, .view, 0, .any⟩ -- HIF_KCI_OUT.COUNT
  , ⟨0x40, 0x0, 1, 31, 6, .rw, 0, .any⟩ -- HIF_CQ_BASE_LO.ADDR
  , ⟨0x44, 0x0, 1, 31, 0, .rw, 0, .any⟩ -- HIF_CQ_BASE_HI.ADDR
  , ⟨0x48, 0x0, 1, 16, 0, .rw, 0, (.ring)⟩ -- HIF_CQ_SIZE.ENTRIES
  , ⟨0x4c, 0x0, 1, 15, 0, .ro, 0, .any⟩ -- HIF_CQ_HEAD.INDEX
  , ⟨0x50, 0x0, 1, 15, 0, .rw, 0, .any⟩ -- HIF_CQ_TAIL.INDEX
  , ⟨0x60, 0x0, 1, 2, 0, .rw, 0, .any⟩ -- HIF_BAR2_WIN.SEL
  , ⟨0x70, 0x0, 1, 31, 0, .ro, 0, .any⟩ -- HIF_ERR_ADDR.OFFSET
  , ⟨0x74, 0x0, 1, 1, 0, .ro, 0, .any⟩ -- HIF_ERR_INFO.KIND
  , ⟨0x74, 0x0, 1, 4, 4, .ro, 0, .any⟩ -- HIF_ERR_INFO.PATH
  , ⟨0x74, 0x0, 1, 8, 8, .w1c, 0, .any⟩ -- HIF_ERR_INFO.VALID
  , ⟨0x78, 0x0, 1, 31, 0, .rc, 0, .any⟩ -- HIF_BADACC.COUNT
  , ⟨0x7c, 0x0, 1, 31, 0, .rc, 0, .any⟩ -- HIF_SMB_ERR.COUNT
  , ⟨0x80, 0x0, 1, 13, 0, .view, 0, .any⟩ -- HIF_FLOWEV_POP.FLOW
  , ⟨0x80, 0x0, 1, 16, 16, .view, 0, .any⟩ -- HIF_FLOWEV_POP.PATH
  , ⟨0x80, 0x0, 1, 31, 31, .view, 0, .any⟩ -- HIF_FLOWEV_POP.VALID
  , ⟨0x84, 0x0, 1, 31, 0, .rc, 0, .any⟩ -- HIF_FLOWEV_LOST.COUNT
  , ⟨0x90, 0x0, 1, 15, 0, .rw, 43211, (.ne 0)⟩ -- HIF_WL_PORT.PORT
  , ⟨0xa0, 0x0, 1, 7, 0, .ro, 0, .any⟩ -- HIF_BOOT_STAT.CODE
  , ⟨0xa0, 0x0, 1, 8, 8, .ro, 0, .any⟩ -- HIF_BOOT_STAT.DONE
  , ⟨0xa0, 0x0, 1, 9, 9, .ro, 0, .any⟩ -- HIF_BOOT_STAT.SRC
  , ⟨0xa4, 0x0, 1, 0, 0, .rws, 0, .any⟩ -- HIF_BOOT_PUSH.GO
  , ⟨0x100, 0x4, 48, 7, 0, .rw, 0, .any⟩ -- HIF_MSIX_MAPs.VECTOR
  , ⟨0x100, 0x4, 48, 8, 8, .rw, 0, .any⟩ -- HIF_MSIX_MAPs.EN
  ]

/-- GLB_ID.PART (R4). -/
def fGlbIdPart : Fld := ⟨0x0, 16, 16⟩
/-- GLB_ID.GRADE (R4). -/
def fGlbIdGrade : Fld := ⟨0x0, 12, 4⟩
/-- GLB_ID.STEP_MAJ (R4). -/
def fGlbIdStepMaj : Fld := ⟨0x0, 8, 4⟩
/-- GLB_ID.STEP_MIN (R4). -/
def fGlbIdStepMin : Fld := ⟨0x0, 4, 4⟩
/-- TIME_VER.MAJOR (R67). -/
def fTimeVerMajor : Fld := ⟨0x20000, 16, 16⟩
/-- TIME_VER.MINOR (R67). -/
def fTimeVerMinor : Fld := ⟨0x20000, 0, 16⟩
/-- TIME_CTL.SRC (R67). -/
def fTimeCtlSrc : Fld := ⟨0x20004, 0, 2⟩
/-- TIME_CTL.HO_REF (R67). -/
def fTimeCtlHoRef : Fld := ⟨0x20004, 2, 1⟩
/-- TIME_CTL.WCLK_EN (R67). -/
def fTimeCtlWclkEn : Fld := ⟨0x20004, 3, 1⟩
/-- TIME_CTL.PPSOUT_EN (R67). -/
def fTimeCtlPpsoutEn : Fld := ⟨0x20004, 4, 1⟩
/-- TIME_STAT.SERVO (R67). -/
def fTimeStatServo : Fld := ⟨0x20008, 0, 3⟩
/-- TIME_STAT.HO_CAUSE (R67). -/
def fTimeStatHoCause : Fld := ⟨0x20008, 4, 2⟩
/-- TIME_STAT.ARMED (R67). -/
def fTimeStatArmed : Fld := ⟨0x20008, 6, 1⟩
/-- TIME_STAT.REF10M_OK (R67). -/
def fTimeStatRef10mOk : Fld := ⟨0x20008, 7, 1⟩
/-- TIME_STAT.PPSIN_OK (R67). -/
def fTimeStatPpsinOk : Fld := ⟨0x20008, 8, 1⟩
/-- TIME_STAT.STEP_REFUSED (R67). -/
def fTimeStatStepRefused : Fld := ⟨0x20008, 16, 1⟩
/-- TIME_STAT.PATH_STEP (R67). -/
def fTimeStatPathStep : Fld := ⟨0x20008, 17, 1⟩
/-- TIME_NOW_FRAC.FRAC (R67). -/
def fTimeNowFracFrac : Fld := ⟨0x20010, 0, 16⟩
/-- TIME_NOW_NS.NS (R67). -/
def fTimeNowNsNs : Fld := ⟨0x20014, 0, 30⟩
/-- TIME_NOW_SECL.SEC (R67). -/
def fTimeNowSeclSec : Fld := ⟨0x20018, 0, 32⟩
/-- TIME_NOW_SECH.SEC (R67). -/
def fTimeNowSechSec : Fld := ⟨0x2001c, 0, 16⟩
/-- TIME_NOW_MTC.MTC (R67). -/
def fTimeNowMtcMtc : Fld := ⟨0x20020, 0, 32⟩
/-- TIME_RATE_LO.RATE (R67). -/
def fTimeRateLoRate : Fld := ⟨0x20030, 0, 32⟩
/-- TIME_RATE_HI.RATE (R67). -/
def fTimeRateHiRate : Fld := ⟨0x20034, 0, 8⟩
/-- TIME_STEP_MAX.NS (R67). -/
def fTimeStepMaxNs : Fld := ⟨0x20040, 0, 30⟩
/-- TIME_PD_STEP.NS (R67). -/
def fTimePdStepNs : Fld := ⟨0x20044, 0, 16⟩
/-- TIME_PD_HOLD.SEC (R67). -/
def fTimePdHoldSec : Fld := ⟨0x20048, 0, 8⟩
/-- TIME_LOCK_THR.NS (R67). -/
def fTimeLockThrNs : Fld := ⟨0x2004c, 0, 16⟩
/-- TIME_ASYMn.NS (R67). -/
def fTimeAsymNs (i : Nat) : Fld := ⟨0x20050 + 0x4 * i, 0, 32⟩
/-- TIME_OFFSET.NS (R67). -/
def fTimeOffsetNs : Fld := ⟨0x20060, 0, 32⟩
/-- TIME_MPD.NS (R67). -/
def fTimeMpdNs : Fld := ⟨0x20064, 0, 32⟩
/-- TIME_PPSOUT.WIDTH (R67). -/
def fTimePpsoutWidth : Fld := ⟨0x20070, 0, 10⟩
/-- TIME_PPSOUT_OFS.NS (R67). -/
def fTimePpsoutOfsNs : Fld := ⟨0x20074, 0, 32⟩
/-- TIME_PPSIN_NS.NS (R67). -/
def fTimePpsinNsNs : Fld := ⟨0x20078, 0, 30⟩
/-- TIME_PPSIN_SECL.SEC (R67). -/
def fTimePpsinSeclSec : Fld := ⟨0x2007c, 0, 32⟩
/-- TIME_TSQn_STAT.COUNT (R67). -/
def fTimeTsqStatCount (i : Nat) : Fld := ⟨0x20100 + 0x20 * i, 0, 7⟩
/-- TIME_TSQn_STAT.OVF (R67). -/
def fTimeTsqStatOvf (i : Nat) : Fld := ⟨0x20100 + 0x20 * i, 8, 1⟩
/-- TIME_TSQn_STAT.OWNED (R67). -/
def fTimeTsqStatOwned (i : Nat) : Fld := ⟨0x20100 + 0x20 * i, 9, 1⟩
/-- TIME_TSQn_LOST.COUNT (R67). -/
def fTimeTsqLostCount (i : Nat) : Fld := ⟨0x20104 + 0x20 * i, 0, 32⟩
/-- TIME_TSQn_POP0.ID (R67). -/
def fTimeTsqPop0Id (i : Nat) : Fld := ⟨0x20108 + 0x20 * i, 0, 16⟩
/-- TIME_TSQn_POP0.FRAC (R67). -/
def fTimeTsqPop0Frac (i : Nat) : Fld := ⟨0x20108 + 0x20 * i, 16, 16⟩
/-- TIME_TSQn_POP1.NS (R67). -/
def fTimeTsqPop1Ns (i : Nat) : Fld := ⟨0x2010c + 0x20 * i, 0, 30⟩
/-- TIME_TSQn_POP1.VALID (R67). -/
def fTimeTsqPop1Valid (i : Nat) : Fld := ⟨0x2010c + 0x20 * i, 31, 1⟩
/-- TIME_TSQn_POP2.SEC (R67). -/
def fTimeTsqPop2Sec (i : Nat) : Fld := ⟨0x20110 + 0x20 * i, 0, 32⟩
/-- TIME_TSQn_POP3.SEC (R67). -/
def fTimeTsqPop3Sec (i : Nat) : Fld := ⟨0x20114 + 0x20 * i, 0, 16⟩
/-- NET_VER.MAJOR (R97). -/
def fNetVerMajor (n : Nat) : Fld := ⟨0x80000 + 0x10000 * n + 0x0, 16, 16⟩
/-- NET_VER.MINOR (R97). -/
def fNetVerMinor (n : Nat) : Fld := ⟨0x80000 + 0x10000 * n + 0x0, 0, 16⟩
/-- NET_CTL.EN (R97). -/
def fNetCtlEn (n : Nat) : Fld := ⟨0x80000 + 0x10000 * n + 0x4, 0, 1⟩
/-- NET_CTL.NETSEL (R97). -/
def fNetCtlNetsel (n : Nat) : Fld := ⟨0x80000 + 0x10000 * n + 0x4, 1, 1⟩
/-- NET_CTL.PHY (R97). -/
def fNetCtlPhy (n : Nat) : Fld := ⟨0x80000 + 0x10000 * n + 0x4, 2, 2⟩
/-- NET_CTL.AN_EN (R97). -/
def fNetCtlAnEn (n : Nat) : Fld := ⟨0x80000 + 0x10000 * n + 0x4, 4, 1⟩
/-- NET_CTL.LOOP (R97). -/
def fNetCtlLoop (n : Nat) : Fld := ⟨0x80000 + 0x10000 * n + 0x4, 5, 1⟩
/-- NET_STAT.LINK (R97). -/
def fNetStatLink (n : Nat) : Fld := ⟨0x80000 + 0x10000 * n + 0x8, 0, 1⟩
/-- NET_STAT.AN_DONE (R97). -/
def fNetStatAnDone (n : Nat) : Fld := ⟨0x80000 + 0x10000 * n + 0x8, 1, 1⟩
/-- NET_STAT.FEC_LOCK (R97). -/
def fNetStatFecLock (n : Nat) : Fld := ⟨0x80000 + 0x10000 * n + 0x8, 2, 1⟩
/-- NET_STAT.HI_SER (R97). -/
def fNetStatHiSer (n : Nat) : Fld := ⟨0x80000 + 0x10000 * n + 0x8, 3, 1⟩
/-- NET_STAT.LINK_LOST (R97). -/
def fNetStatLinkLost (n : Nat) : Fld := ⟨0x80000 + 0x10000 * n + 0x8, 16, 1⟩
/-- NET_MAC_LO.ADDR (R97). -/
def fNetMacLoAddr (n : Nat) : Fld := ⟨0x80000 + 0x10000 * n + 0x10, 0, 32⟩
/-- NET_MAC_HI.ADDR (R97). -/
def fNetMacHiAddr (n : Nat) : Fld := ⟨0x80000 + 0x10000 * n + 0x14, 0, 16⟩
/-- NET_PATH_TO.TICKS (R97). -/
def fNetPathToTicks (n : Nat) : Fld := ⟨0x80000 + 0x10000 * n + 0x20, 0, 10⟩
/-- NET_EGR_GRACE.TICKS (R97). -/
def fNetEgrGraceTicks (n : Nat) : Fld := ⟨0x80000 + 0x10000 * n + 0x24, 0, 10⟩
/-- NET_RXFIFO_LVL.BYTES (R97). -/
def fNetRxfifoLvlBytes (n : Nat) : Fld := ⟨0x80000 + 0x10000 * n + 0x28, 0, 19⟩
/-- NET_RX_FRAMES.COUNT (R97). -/
def fNetRxFramesCount (n : Nat) : Fld := ⟨0x80000 + 0x10000 * n + 0x30, 0, 32⟩
/-- NET_RX_CRC.COUNT (R97). -/
def fNetRxCrcCount (n : Nat) : Fld := ⟨0x80000 + 0x10000 * n + 0x34, 0, 32⟩
/-- NET_RX_SIZE.COUNT (R97). -/
def fNetRxSizeCount (n : Nat) : Fld := ⟨0x80000 + 0x10000 * n + 0x38, 0, 32⟩
/-- NET_RX_PAUSE.COUNT (R97). -/
def fNetRxPauseCount (n : Nat) : Fld := ⟨0x80000 + 0x10000 * n + 0x3c, 0, 32⟩
/-- NET_RX_NOMATCH.COUNT (R97). -/
def fNetRxNomatchCount (n : Nat) : Fld := ⟨0x80000 + 0x10000 * n + 0x40, 0, 32⟩
/-- NET_RX_FORMAT.COUNT (R97). -/
def fNetRxFormatCount (n : Nat) : Fld := ⟨0x80000 + 0x10000 * n + 0x44, 0, 32⟩
/-- NET_RX_FIFO_DROP.COUNT (R97). -/
def fNetRxFifoDropCount (n : Nat) : Fld := ⟨0x80000 + 0x10000 * n + 0x48, 0, 32⟩
/-- NET_SVC_DROP.COUNT (R97). -/
def fNetSvcDropCount (n : Nat) : Fld := ⟨0x80000 + 0x10000 * n + 0x4c, 0, 32⟩
/-- NET_TX_FRAMES.COUNT (R97). -/
def fNetTxFramesCount (n : Nat) : Fld := ⟨0x80000 + 0x10000 * n + 0x50, 0, 32⟩
/-- NET_TX_LATE.COUNT (R97). -/
def fNetTxLateCount (n : Nat) : Fld := ⟨0x80000 + 0x10000 * n + 0x54, 0, 32⟩
/-- NET_TX_STALE.COUNT (R97). -/
def fNetTxStaleCount (n : Nat) : Fld := ⟨0x80000 + 0x10000 * n + 0x58, 0, 32⟩
/-- NET_TX_LINKDOWN.COUNT (R97). -/
def fNetTxLinkdownCount (n : Nat) : Fld := ⟨0x80000 + 0x10000 * n + 0x5c, 0, 32⟩
/-- NET_FEC_CORR.COUNT (R97). -/
def fNetFecCorrCount (n : Nat) : Fld := ⟨0x80000 + 0x10000 * n + 0x60, 0, 32⟩
/-- NET_FEC_UNCORR.COUNT (R97). -/
def fNetFecUncorrCount (n : Nat) : Fld := ⟨0x80000 + 0x10000 * n + 0x64, 0, 32⟩
/-- MQ_VER.MAJOR (R128). -/
def fMqVerMajor : Fld := ⟨0x70000, 16, 16⟩
/-- MQ_VER.MINOR (R128). -/
def fMqVerMinor : Fld := ⟨0x70000, 0, 16⟩
/-- MQ_CTL.EN (R128). -/
def fMqCtlEn : Fld := ⟨0x70004, 0, 1⟩
/-- MQ_SPILL_BASE_LO.ADDR (R128). -/
def fMqSpillBaseLoAddr : Fld := ⟨0x70010, 12, 20⟩
/-- MQ_SPILL_BASE_HI.ADDR (R128). -/
def fMqSpillBaseHiAddr : Fld := ⟨0x70014, 0, 3⟩
/-- MQ_SPILL_SIZE.MIB (R128). -/
def fMqSpillSizeMib : Fld := ⟨0x70018, 0, 13⟩
/-- MQ_SPILL_USED.KIB (R128). -/
def fMqSpillUsedKib : Fld := ⟨0x7001c, 0, 23⟩
/-- MQ_STAT.OPEN (R128). -/
def fMqStatOpen : Fld := ⟨0x70020, 0, 17⟩
/-- MQ_INT_STAT.MARK_LOST (R128). -/
def fMqIntStatMarkLost : Fld := ⟨0x70024, 0, 1⟩
/-- MQ_INT_STAT.LOST (R128). -/
def fMqIntStatLost : Fld := ⟨0x70024, 1, 1⟩
/-- MQ_INT_STAT.SLIP (R128). -/
def fMqIntStatSlip : Fld := ⟨0x70024, 2, 1⟩
/-- MQ_INT_EN.MASK (R128). -/
def fMqIntEnMask : Fld := ⟨0x70028, 0, 3⟩
/-- MQ_LOST_TOTAL.COUNT (R128). -/
def fMqLostTotalCount : Fld := ⟨0x70030, 0, 32⟩
/-- MQ_LATE_TOTAL.COUNT (R128). -/
def fMqLateTotalCount : Fld := ⟨0x70034, 0, 32⟩
/-- MQ_DUP_TOTAL.COUNT (R128). -/
def fMqDupTotalCount : Fld := ⟨0x70038, 0, 32⟩
/-- MQ_SLIP_TOTAL.COUNT (R128). -/
def fMqSlipTotalCount : Fld := ⟨0x7003c, 0, 32⟩
/-- MQ_RESTORE_TOTAL.COUNT (R128). -/
def fMqRestoreTotalCount : Fld := ⟨0x70040, 0, 32⟩
/-- MQ_QSEL.QUEUE (R128). -/
def fMqQselQueue : Fld := ⟨0x70080, 0, 16⟩
/-- MQ_QINFO.MODE (R128). -/
def fMqQinfoMode : Fld := ⟨0x70084, 0, 3⟩
/-- MQ_QINFO.MARK_VALID (R128). -/
def fMqQinfoMarkValid : Fld := ⟨0x70084, 4, 1⟩
/-- MQ_QINFO.MARK_LOST (R128). -/
def fMqQinfoMarkLost : Fld := ⟨0x70084, 5, 1⟩
/-- MQ_QINFO.SPILLING (R128). -/
def fMqQinfoSpilling : Fld := ⟨0x70084, 6, 1⟩
/-- MQ_QINFO.LAST_VALID (R128). -/
def fMqQinfoLastValid : Fld := ⟨0x70084, 7, 1⟩
/-- MQ_QDEPTH.DEPTH (R128). -/
def fMqQdepthDepth : Fld := ⟨0x70088, 0, 16⟩
/-- MQ_QDEPTH.HELD (R128). -/
def fMqQdepthHeld : Fld := ⟨0x70088, 16, 16⟩
/-- MQ_QRET.RETAINED (R128). -/
def fMqQretRetained : Fld := ⟨0x7008c, 0, 16⟩
/-- MQ_QRET.PENDING (R128). -/
def fMqQretPending : Fld := ⟨0x7008c, 16, 7⟩
/-- MQ_QLASTKEY.KEY (R128). -/
def fMqQlastkeyKey : Fld := ⟨0x70090, 0, 32⟩
/-- MQ_QLOST.COUNT (R128). -/
def fMqQlostCount : Fld := ⟨0x70094, 0, 32⟩
/-- MQ_QLATE.COUNT (R128). -/
def fMqQlateCount : Fld := ⟨0x70098, 0, 32⟩
/-- MQ_QDUP.COUNT (R128). -/
def fMqQdupCount : Fld := ⟨0x7009c, 0, 32⟩
/-- BULL_VER.MAJOR (R162). -/
def fBullVerMajor : Fld := ⟨0x40000, 16, 16⟩
/-- BULL_VER.MINOR (R162). -/
def fBullVerMinor : Fld := ⟨0x40000, 0, 16⟩
/-- BULL_CTL.EN (R162). -/
def fBullCtlEn : Fld := ⟨0x40004, 0, 1⟩
/-- BULL_STAT.RC_COLLIDE (R162). -/
def fBullStatRcCollide : Fld := ⟨0x40008, 0, 16⟩
/-- BULL_INT_STAT.TCR (R162). -/
def fBullIntStatTcr : Fld := ⟨0x4000c, 0, 1⟩
/-- BULL_INT_STAT.TCR_OVF (R162). -/
def fBullIntStatTcrOvf : Fld := ⟨0x4000c, 1, 1⟩
/-- BULL_INT_STAT.BEAT_MISS (R162). -/
def fBullIntStatBeatMiss : Fld := ⟨0x4000c, 2, 1⟩
/-- BULL_INT_STAT.POST_VOID (R162). -/
def fBullIntStatPostVoid : Fld := ⟨0x4000c, 3, 1⟩
/-- BULL_INT_STAT.TIMER_FULL (R162). -/
def fBullIntStatTimerFull : Fld := ⟨0x4000c, 4, 1⟩
/-- BULL_INT_EN.MASK (R162). -/
def fBullIntEnMask : Fld := ⟨0x40010, 0, 5⟩
/-- BULL_DESC_BASE_LO.ADDR (R162). -/
def fBullDescBaseLoAddr : Fld := ⟨0x40014, 24, 8⟩
/-- BULL_DESC_BASE_HI.ADDR (R162). -/
def fBullDescBaseHiAddr : Fld := ⟨0x40018, 0, 3⟩
/-- BULL_STEAL.AGE (R162). -/
def fBullStealAge : Fld := ⟨0x4001c, 0, 16⟩
/-- BULL_WAKE_LEAD.US (R162). -/
def fBullWakeLeadUs : Fld := ⟨0x40020, 0, 8⟩
/-- BULL_PF_LEAD.NS (R162). -/
def fBullPfLeadNs : Fld := ⟨0x40024, 0, 16⟩
/-- BULL_NODES.LOADED (R162). -/
def fBullNodesLoaded : Fld := ⟨0x40028, 0, 19⟩
/-- BULL_TIMERS.ARMED (R162). -/
def fBullTimersArmed : Fld := ⟨0x4002c, 0, 15⟩
/-- BULL_TCR_BASE_LO.ADDR (R162). -/
def fBullTcrBaseLoAddr : Fld := ⟨0x40030, 4, 28⟩
/-- BULL_TCR_BASE_HI.ADDR (R162). -/
def fBullTcrBaseHiAddr : Fld := ⟨0x40034, 0, 3⟩
/-- BULL_TCR_SIZE.ENTRIES (R162). -/
def fBullTcrSizeEntries : Fld := ⟨0x40038, 0, 17⟩
/-- BULL_TCR_HEAD.INDEX (R162). -/
def fBullTcrHeadIndex : Fld := ⟨0x4003c, 0, 16⟩
/-- BULL_TCR_TAIL.INDEX (R162). -/
def fBullTcrTailIndex : Fld := ⟨0x40040, 0, 16⟩
/-- BULL_POST_VOID.COUNT (R162). -/
def fBullPostVoidCount : Fld := ⟨0x40050, 0, 32⟩
/-- BULL_DONE_STALL.CYCLES (R162). -/
def fBullDoneStallCycles : Fld := ⟨0x40054, 0, 32⟩
/-- BULL_ABORTS.COUNT (R162). -/
def fBullAbortsCount : Fld := ⟨0x40058, 0, 32⟩
/-- BULL_BUDGET_OVR.COUNT (R162). -/
def fBullBudgetOvrCount : Fld := ⟨0x4005c, 0, 32⟩
/-- BULL_LATE_TIMERS.COUNT (R162). -/
def fBullLateTimersCount : Fld := ⟨0x40060, 0, 32⟩
/-- BULL_TCR_LOST.COUNT (R162). -/
def fBullTcrLostCount : Fld := ⟨0x40064, 0, 32⟩
/-- BULL_TIMER_FULL.COUNT (R162). -/
def fBullTimerFullCount : Fld := ⟨0x40068, 0, 32⟩
/-- BULL_PEND_FULL.COUNT (R162). -/
def fBullPendFullCount : Fld := ⟨0x4006c, 0, 32⟩
/-- BULL_RSn_LVL.ENTRIES (R162). -/
def fBullRsLvlEntries (i : Nat) : Fld := ⟨0x40100 + 0x4 * i, 0, 13⟩
/-- BULL_BEATg_CTL.EN (R162). -/
def fBullBeatCtlEn (i : Nat) : Fld := ⟨0x40200 + 0x20 * i, 0, 1⟩
/-- BULL_BEATg_CTL.FLAG (R162). -/
def fBullBeatCtlFlag (i : Nat) : Fld := ⟨0x40200 + 0x20 * i, 1, 4⟩
/-- BULL_BEATg_QUANTUM.TICKS (R162). -/
def fBullBeatQuantumTicks (i : Nat) : Fld := ⟨0x40204 + 0x20 * i, 0, 16⟩
/-- BULL_BEATg_NEXT.MTC (R162). -/
def fBullBeatNextMtc (i : Nat) : Fld := ⟨0x40208 + 0x20 * i, 0, 32⟩
/-- BULL_BEATg_MEMBERS.COUNT (R162). -/
def fBullBeatMembersCount (i : Nat) : Fld := ⟨0x4020c + 0x20 * i, 0, 17⟩
/-- BULL_BEATg_MISS.COUNT (R162). -/
def fBullBeatMissCount (i : Nat) : Fld := ⟨0x40210 + 0x20 * i, 0, 32⟩
/-- BULL_BEATg_OVERLAP.COUNT (R162). -/
def fBullBeatOverlapCount (i : Nat) : Fld := ⟨0x40214 + 0x20 * i, 0, 32⟩
/-- BULL_BEATg_STALL.CYCLES (R162). -/
def fBullBeatStallCycles (i : Nat) : Fld := ⟨0x40218 + 0x20 * i, 0, 32⟩
/-- GH_VER.MAJOR (R191). -/
def fGhVerMajor : Fld := ⟨0x50000, 16, 16⟩
/-- GH_VER.MINOR (R191). -/
def fGhVerMinor : Fld := ⟨0x50000, 0, 16⟩
/-- GH_CTL.EN (R191). -/
def fGhCtlEn : Fld := ⟨0x50004, 0, 1⟩
/-- GH_AFF_WIN.NS (R191). -/
def fGhAffWinNs : Fld := ⟨0x50008, 0, 16⟩
/-- GH_INT_STAT.WB_FAIL (R191). -/
def fGhIntStatWbFail : Fld := ⟨0x5000c, 0, 1⟩
/-- GH_INT_STAT.NOSLOT (R191). -/
def fGhIntStatNoslot : Fld := ⟨0x5000c, 1, 1⟩
/-- GH_INT_EN.MASK (R191). -/
def fGhIntEnMask : Fld := ⟨0x50010, 0, 2⟩
/-- GH_PAGEIN.COUNT (R191). -/
def fGhPageinCount : Fld := ⟨0x50020, 0, 32⟩
/-- GH_WRITEBACK.COUNT (R191). -/
def fGhWritebackCount : Fld := ⟨0x50024, 0, 32⟩
/-- GH_PREFETCH.COUNT (R191). -/
def fGhPrefetchCount : Fld := ⟨0x50028, 0, 32⟩
/-- GH_PF_WASTE.COUNT (R191). -/
def fGhPfWasteCount : Fld := ⟨0x5002c, 0, 32⟩
/-- GH_AFF_HIT.COUNT (R191). -/
def fGhAffHitCount : Fld := ⟨0x50030, 0, 32⟩
/-- GH_AFF_HOLD.COUNT (R191). -/
def fGhAffHoldCount : Fld := ⟨0x50034, 0, 32⟩
/-- GH_AFF_EXPIRE.COUNT (R191). -/
def fGhAffExpireCount : Fld := ⟨0x50038, 0, 32⟩
/-- GH_NOSLOT.CYCLES (R191). -/
def fGhNoslotCycles : Fld := ⟨0x5003c, 0, 32⟩
/-- GH_WB_FAIL.COUNT (R191). -/
def fGhWbFailCount : Fld := ⟨0x50040, 0, 32⟩
/-- GH_BW.GBPS (R191). -/
def fGhBwGbps : Fld := ⟨0x50044, 0, 10⟩
/-- GH_RESk.SLOTS (R191). -/
def fGhResSlots (i : Nat) : Fld := ⟨0x50100 + 0x4 * i, 0, 6⟩
/-- GH_RESk.PINNED (R191). -/
def fGhResPinned (i : Nat) : Fld := ⟨0x50100 + 0x4 * i, 8, 6⟩
/-- SEED_VER.MAJOR (R192). -/
def fSeedVerMajor : Fld := ⟨0x60000, 16, 16⟩
/-- SEED_VER.MINOR (R192). -/
def fSeedVerMinor : Fld := ⟨0x60000, 0, 16⟩
/-- SEED_CTL.EN (R192). -/
def fSeedCtlEn : Fld := ⟨0x60004, 0, 1⟩
/-- SEED_POOL_BASE_LO.ADDR (R192). -/
def fSeedPoolBaseLoAddr : Fld := ⟨0x60010, 12, 20⟩
/-- SEED_POOL_BASE_HI.ADDR (R192). -/
def fSeedPoolBaseHiAddr : Fld := ⟨0x60014, 0, 3⟩
/-- SEED_POOL_GRAN.COUNT (R192). -/
def fSeedPoolGranCount : Fld := ⟨0x60018, 0, 25⟩
/-- SEED_TAG_BASE_LO.ADDR (R192). -/
def fSeedTagBaseLoAddr : Fld := ⟨0x6001c, 12, 20⟩
/-- SEED_TAG_BASE_HI.ADDR (R192). -/
def fSeedTagBaseHiAddr : Fld := ⟨0x60020, 0, 3⟩
/-- SEED_FREE.COUNT (R192). -/
def fSeedFreeCount : Fld := ⟨0x60024, 0, 25⟩
/-- SEED_OWNED.COUNT (R192). -/
def fSeedOwnedCount : Fld := ⟨0x60028, 0, 25⟩
/-- SEED_INT_STAT.CONTAINED (R192). -/
def fSeedIntStatContained : Fld := ⟨0x6002c, 0, 1⟩
/-- SEED_INT_STAT.NOSPACE (R192). -/
def fSeedIntStatNospace : Fld := ⟨0x6002c, 1, 1⟩
/-- SEED_INT_EN.MASK (R192). -/
def fSeedIntEnMask : Fld := ⟨0x60030, 0, 2⟩
/-- SEED_SWEEP.MS (R192). -/
def fSeedSweepMs : Fld := ⟨0x60034, 0, 16⟩
/-- SEED_DOUBLE_FREE.COUNT (R192). -/
def fSeedDoubleFreeCount : Fld := ⟨0x60040, 0, 32⟩
/-- SEED_FOREIGN_FREE.COUNT (R192). -/
def fSeedForeignFreeCount : Fld := ⟨0x60044, 0, 32⟩
/-- SEED_MISMATCH.COUNT (R192). -/
def fSeedMismatchCount : Fld := ⟨0x60048, 0, 32⟩
/-- SEED_NOCREDIT.COUNT (R192). -/
def fSeedNocreditCount : Fld := ⟨0x6004c, 0, 32⟩
/-- SEED_NOSPACE.COUNT (R192). -/
def fSeedNospaceCount : Fld := ⟨0x60050, 0, 32⟩
/-- SEED_PEND_FULL.COUNT (R192). -/
def fSeedPendFullCount : Fld := ⟨0x60054, 0, 32⟩
/-- SEED_ABORT_UNDO.COUNT (R192). -/
def fSeedAbortUndoCount : Fld := ⟨0x60058, 0, 32⟩
/-- SEED_ASEL.ACCOUNT (R192). -/
def fSeedAselAccount : Fld := ⟨0x60080, 0, 12⟩
/-- SEED_AINFO.KIND (R192). -/
def fSeedAinfoKind : Fld := ⟨0x60084, 0, 3⟩
/-- SEED_AINFO.OVER (R192). -/
def fSeedAinfoOver : Fld := ⟨0x60084, 4, 1⟩
/-- SEED_AINFO.RELEASES (R192). -/
def fSeedAinfoReleases : Fld := ⟨0x60084, 8, 6⟩
/-- SEED_AQUOTA.GRAN (R192). -/
def fSeedAquotaGran : Fld := ⟨0x60088, 0, 25⟩
/-- SEED_AHELD.GRAN (R192). -/
def fSeedAheldGran : Fld := ⟨0x6008c, 0, 25⟩
/-- SEED_APEAK.GRAN (R192). -/
def fSeedApeakGran : Fld := ⟨0x60090, 0, 25⟩
/-- CLUn_Cm_STAT.STATE (R221). -/
def fCoreStatState (k : Nat) : Fld := ⟨0x200000 + 0x1000 * k + 0x800, 0, 3⟩
/-- CLUn_Cm_STAT.NODE (R221). -/
def fCoreStatNode (k : Nat) : Fld := ⟨0x200000 + 0x1000 * k + 0x800, 6, 18⟩
/-- CLUn_Cm_EXC.CODE (R221). -/
def fCoreExcCode (k : Nat) : Fld := ⟨0x200000 + 0x1000 * k + 0x804, 0, 5⟩
/-- CLUn_Cm_EXC.VALID (R221). -/
def fCoreExcValid (k : Nat) : Fld := ⟨0x200000 + 0x1000 * k + 0x804, 8, 1⟩
/-- CLUn_Cm_EXC_PC.PC (R221). -/
def fCoreExcPcPc (k : Nat) : Fld := ⟨0x200000 + 0x1000 * k + 0x808, 0, 32⟩
/-- CLUn_Cm_EXC_NODE.NODE (R221). -/
def fCoreExcNodeNode (k : Nat) : Fld := ⟨0x200000 + 0x1000 * k + 0x80c, 0, 18⟩
/-- CLUn_Cm_HOME.PC (R221). -/
def fCoreHomePc (k : Nat) : Fld := ⟨0x200000 + 0x1000 * k + 0x810, 2, 30⟩
/-- CLUn_Cm_RUNS.COUNT (R221). -/
def fCoreRunsCount (k : Nat) : Fld := ⟨0x200000 + 0x1000 * k + 0x814, 0, 32⟩
/-- CLUn_Cm_ABORTS.COUNT (R221). -/
def fCoreAbortsCount (k : Nat) : Fld := ⟨0x200000 + 0x1000 * k + 0x818, 0, 32⟩
/-- CLUn_Cm_XBYTES.COUNT (R221). -/
def fCoreXbytesCount (k : Nat) : Fld := ⟨0x200000 + 0x1000 * k + 0x81c, 0, 32⟩
/-- CLUn_VER.MAJOR (R222). -/
def fCluVerMajor (n : Nat) : Fld := ⟨0x200000 + 0x10000 * n + 0xc00, 16, 16⟩
/-- CLUn_VER.MINOR (R222). -/
def fCluVerMinor (n : Nat) : Fld := ⟨0x200000 + 0x10000 * n + 0xc00, 0, 16⟩
/-- CLUn_PWR.STATE (R222). -/
def fCluPwrState (n : Nat) : Fld := ⟨0x200000 + 0x10000 * n + 0xc04, 0, 2⟩
/-- CLUn_PWR.LIMIT (R222). -/
def fCluPwrLimit (n : Nat) : Fld := ⟨0x200000 + 0x10000 * n + 0xc04, 4, 2⟩
/-- CLUn_SPARES.COUNT (R222). -/
def fCluSparesCount (n : Nat) : Fld := ⟨0x200000 + 0x10000 * n + 0xc08, 0, 3⟩
/-- CLUn_SPARES.HELD (R222). -/
def fCluSparesHeld (n : Nat) : Fld := ⟨0x200000 + 0x10000 * n + 0xc08, 8, 3⟩
/-- CLUn_WORKING.MASK (R222). -/
def fCluWorkingMask (n : Nat) : Fld := ⟨0x200000 + 0x10000 * n + 0xc0c, 0, 16⟩
/-- CLUn_RETIRED.MASK (R222). -/
def fCluRetiredMask (n : Nat) : Fld := ⟨0x200000 + 0x10000 * n + 0xc10, 0, 16⟩
/-- CLUn_CODE_BASE.ADDR (R222). -/
def fCluCodeBaseAddr (n : Nat) : Fld := ⟨0x200000 + 0x10000 * n + 0xc14, 0, 7⟩
/-- MADI_VER.MAJOR (R323). -/
def fMadiVerMajor : Fld := ⟨0x110000, 16, 16⟩
/-- MADI_VER.MINOR (R323). -/
def fMadiVerMinor : Fld := ⟨0x110000, 0, 16⟩
/-- MADI_INT_STAT.LOST_LOCK (R323). -/
def fMadiIntStatLostLock : Fld := ⟨0x110004, 0, 4⟩
/-- MADI_INT_EN.MASK (R323). -/
def fMadiIntEnMask : Fld := ⟨0x110008, 0, 4⟩
/-- MADI_Pp_CTL.EN (R323). -/
def fMadiPpCtlEn (i : Nat) : Fld := ⟨0x110100 + 0x40 * i, 0, 1⟩
/-- MADI_Pp_CTL.RX_EN (R323). -/
def fMadiPpCtlRxEn (i : Nat) : Fld := ⟨0x110100 + 0x40 * i, 1, 1⟩
/-- MADI_Pp_CTL.TX_EN (R323). -/
def fMadiPpCtlTxEn (i : Nat) : Fld := ⟨0x110100 + 0x40 * i, 2, 1⟩
/-- MADI_Pp_CTL.BLOCK (R323). -/
def fMadiPpCtlBlock (i : Nat) : Fld := ⟨0x110100 + 0x40 * i, 4, 2⟩
/-- MADI_Pp_CTL.SLIP_THR (R323). -/
def fMadiPpCtlSlipThr (i : Nat) : Fld := ⟨0x110100 + 0x40 * i, 8, 3⟩
/-- MADI_Pp_QUEUE.RX (R323). -/
def fMadiPpQueueRx (i : Nat) : Fld := ⟨0x110104 + 0x40 * i, 0, 16⟩
/-- MADI_Pp_QUEUE.TX (R323). -/
def fMadiPpQueueTx (i : Nat) : Fld := ⟨0x110104 + 0x40 * i, 16, 16⟩
/-- MADI_Pp_ACCOUNT.ACCOUNT (R323). -/
def fMadiPpAccountAccount (i : Nat) : Fld := ⟨0x110108 + 0x40 * i, 0, 12⟩
/-- MADI_Pp_STAT.RX_LOCK (R323). -/
def fMadiPpStatRxLock (i : Nat) : Fld := ⟨0x11010c + 0x40 * i, 0, 1⟩
/-- MADI_Pp_STAT.RX_56 (R323). -/
def fMadiPpStatRx56 (i : Nat) : Fld := ⟨0x11010c + 0x40 * i, 1, 1⟩
/-- MADI_Pp_STAT.LOST_LOCK (R323). -/
def fMadiPpStatLostLock (i : Nat) : Fld := ⟨0x11010c + 0x40 * i, 16, 1⟩
/-- MADI_Pp_STAT.CFG_ERR (R323). -/
def fMadiPpStatCfgErr (i : Nat) : Fld := ⟨0x11010c + 0x40 * i, 17, 1⟩
/-- MADI_Pp_PHASE.NS (R323). -/
def fMadiPpPhaseNs (i : Nat) : Fld := ⟨0x110110 + 0x40 * i, 0, 32⟩
/-- MADI_Pp_RX_ITEMS.COUNT (R323). -/
def fMadiPpRxItemsCount (i : Nat) : Fld := ⟨0x110114 + 0x40 * i, 0, 32⟩
/-- MADI_Pp_RX_SLIP.COUNT (R323). -/
def fMadiPpRxSlipCount (i : Nat) : Fld := ⟨0x110118 + 0x40 * i, 0, 32⟩
/-- MADI_Pp_RX_RELOCK.COUNT (R323). -/
def fMadiPpRxRelockCount (i : Nat) : Fld := ⟨0x11011c + 0x40 * i, 0, 32⟩
/-- MADI_Pp_RX_VBIT.COUNT (R323). -/
def fMadiPpRxVbitCount (i : Nat) : Fld := ⟨0x110120 + 0x40 * i, 0, 32⟩
/-- MADI_Pp_RX_CODE_ERR.COUNT (R323). -/
def fMadiPpRxCodeErrCount (i : Nat) : Fld := ⟨0x110124 + 0x40 * i, 0, 32⟩
/-- MADI_Pp_RX_NOCREDIT.COUNT (R323). -/
def fMadiPpRxNocreditCount (i : Nat) : Fld := ⟨0x110128 + 0x40 * i, 0, 32⟩
/-- MADI_Pp_TX_ITEMS.COUNT (R323). -/
def fMadiPpTxItemsCount (i : Nat) : Fld := ⟨0x11012c + 0x40 * i, 0, 32⟩
/-- MADI_Pp_TX_LATE.COUNT (R323). -/
def fMadiPpTxLateCount (i : Nat) : Fld := ⟨0x110130 + 0x40 * i, 0, 32⟩
/-- MADI_Pp_TX_UNDER.COUNT (R323). -/
def fMadiPpTxUnderCount (i : Nat) : Fld := ⟨0x110134 + 0x40 * i, 0, 32⟩
/-- RFPn_VER.MAJOR (R344). -/
def fRfpVerMajor (n : Nat) : Fld := ⟨0xC0000 + 0x2000 * n + 0x0, 16, 16⟩
/-- RFPn_VER.MINOR (R344). -/
def fRfpVerMinor (n : Nat) : Fld := ⟨0xC0000 + 0x2000 * n + 0x0, 0, 16⟩
/-- RFPn_CTL.EN (R344). -/
def fRfpCtlEn (n : Nat) : Fld := ⟨0xC0000 + 0x2000 * n + 0x4, 0, 1⟩
/-- RFPn_CTL.RX_EN (R344). -/
def fRfpCtlRxEn (n : Nat) : Fld := ⟨0xC0000 + 0x2000 * n + 0x4, 1, 1⟩
/-- RFPn_CTL.TX_EN (R344). -/
def fRfpCtlTxEn (n : Nat) : Fld := ⟨0xC0000 + 0x2000 * n + 0x4, 2, 1⟩
/-- RFPn_CTL.SCR (R344). -/
def fRfpCtlScr (n : Nat) : Fld := ⟨0xC0000 + 0x2000 * n + 0x4, 3, 1⟩
/-- RFPn_CTL.KSEL (R344). -/
def fRfpCtlKsel (n : Nat) : Fld := ⟨0xC0000 + 0x2000 * n + 0x4, 4, 1⟩
/-- RFPn_STAT.RX_CGS (R344). -/
def fRfpStatRxCgs (n : Nat) : Fld := ⟨0xC0000 + 0x2000 * n + 0x8, 0, 1⟩
/-- RFPn_STAT.RX_DATA (R344). -/
def fRfpStatRxData (n : Nat) : Fld := ⟨0xC0000 + 0x2000 * n + 0x8, 1, 1⟩
/-- RFPn_STAT.TX_DATA (R344). -/
def fRfpStatTxData (n : Nat) : Fld := ⟨0xC0000 + 0x2000 * n + 0x8, 2, 1⟩
/-- RFPn_STAT.SYSREF_OK (R344). -/
def fRfpStatSysrefOk (n : Nat) : Fld := ⟨0xC0000 + 0x2000 * n + 0x8, 3, 1⟩
/-- RFPn_STAT.LINK_LOST (R344). -/
def fRfpStatLinkLost (n : Nat) : Fld := ⟨0xC0000 + 0x2000 * n + 0x8, 16, 1⟩
/-- RFPn_STAT.ILAS_ERR (R344). -/
def fRfpStatIlasErr (n : Nat) : Fld := ⟨0xC0000 + 0x2000 * n + 0x8, 17, 1⟩
/-- RFPn_STAT.SYSREF_ERR (R344). -/
def fRfpStatSysrefErr (n : Nat) : Fld := ⟨0xC0000 + 0x2000 * n + 0x8, 18, 1⟩
/-- RFPn_LAT_ADJ.RX (R344). -/
def fRfpLatAdjRx (n : Nat) : Fld := ⟨0xC0000 + 0x2000 * n + 0xc, 0, 10⟩
/-- RFPn_LAT_ADJ.TX (R344). -/
def fRfpLatAdjTx (n : Nat) : Fld := ⟨0xC0000 + 0x2000 * n + 0xc, 16, 10⟩
/-- RFPn_RBD.CYCLES (R344). -/
def fRfpRbdCycles (n : Nat) : Fld := ⟨0xC0000 + 0x2000 * n + 0x10, 0, 5⟩
/-- RFPn_DCB.K (R344). -/
def fRfpDcbK (n : Nat) : Fld := ⟨0xC0000 + 0x2000 * n + 0x14, 0, 5⟩
/-- RFPn_DCB.FREEZE (R344). -/
def fRfpDcbFreeze (n : Nat) : Fld := ⟨0xC0000 + 0x2000 * n + 0x14, 8, 2⟩
/-- RFPn_DCB.CLR (R344). -/
def fRfpDcbClr (n : Nat) : Fld := ⟨0xC0000 + 0x2000 * n + 0x14, 16, 1⟩
/-- RFPn_DCB_EST_I.EST (R344). -/
def fRfpDcbEstIEst (n : Nat) : Fld := ⟨0xC0000 + 0x2000 * n + 0x18, 0, 32⟩
/-- RFPn_DCB_EST_Q.EST (R344). -/
def fRfpDcbEstQEst (n : Nat) : Fld := ⟨0xC0000 + 0x2000 * n + 0x1c, 0, 32⟩
/-- RFPn_INT_EN.MASK (R344). -/
def fRfpIntEnMask (n : Nat) : Fld := ⟨0xC0000 + 0x2000 * n + 0x20, 0, 3⟩
/-- RFPn_SYSREF_PHASE.D (R344). -/
def fRfpSysrefPhaseD (n : Nat) : Fld := ⟨0xC0000 + 0x2000 * n + 0x24, 0, 32⟩
/-- RFPn_TAP.CAR (R344). -/
def fRfpTapCar (n : Nat) : Fld := ⟨0xC0000 + 0x2000 * n + 0x28, 0, 4⟩
/-- RFPn_TAP.EN (R344). -/
def fRfpTapEn (n : Nat) : Fld := ⟨0xC0000 + 0x2000 * n + 0x28, 4, 1⟩
/-- RFPn_TAP.QUEUE (R344). -/
def fRfpTapQueue (n : Nat) : Fld := ⟨0xC0000 + 0x2000 * n + 0x28, 16, 16⟩
/-- RFPn_TAP_ACCOUNT.ACCOUNT (R344). -/
def fRfpTapAccountAccount (n : Nat) : Fld := ⟨0xC0000 + 0x2000 * n + 0x2c, 0, 12⟩
/-- RFPn_RX_DISP.COUNT (R344). -/
def fRfpRxDispCount (n : Nat) : Fld := ⟨0xC0000 + 0x2000 * n + 0x40, 0, 32⟩
/-- RFPn_RX_NIT.COUNT (R344). -/
def fRfpRxNitCount (n : Nat) : Fld := ⟨0xC0000 + 0x2000 * n + 0x44, 0, 32⟩
/-- RFPn_RX_UNEXP.COUNT (R344). -/
def fRfpRxUnexpCount (n : Nat) : Fld := ⟨0xC0000 + 0x2000 * n + 0x48, 0, 32⟩
/-- RFPn_RX_RESYNC.COUNT (R344). -/
def fRfpRxResyncCount (n : Nat) : Fld := ⟨0xC0000 + 0x2000 * n + 0x4c, 0, 32⟩
/-- RFPn_TX_RESYNC.COUNT (R344). -/
def fRfpTxResyncCount (n : Nat) : Fld := ⟨0xC0000 + 0x2000 * n + 0x50, 0, 32⟩
/-- RFPn_SYSREF_SLIP.COUNT (R344). -/
def fRfpSysrefSlipCount (n : Nat) : Fld := ⟨0xC0000 + 0x2000 * n + 0x54, 0, 32⟩
/-- RFPn_DC_CLIP.COUNT (R344). -/
def fRfpDcClipCount (n : Nat) : Fld := ⟨0xC0000 + 0x2000 * n + 0x58, 0, 32⟩
/-- RFPn_MIX_CLIP.COUNT (R344). -/
def fRfpMixClipCount (n : Nat) : Fld := ⟨0xC0000 + 0x2000 * n + 0x5c, 0, 32⟩
/-- RFPn_OUT_CLIP.COUNT (R344). -/
def fRfpOutClipCount (n : Nat) : Fld := ⟨0xC0000 + 0x2000 * n + 0x60, 0, 32⟩
/-- RFPn_TX_CLIP.COUNT (R344). -/
def fRfpTxClipCount (n : Nat) : Fld := ⟨0xC0000 + 0x2000 * n + 0x64, 0, 32⟩
/-- RFPn_TAP_ITEMS.COUNT (R344). -/
def fRfpTapItemsCount (n : Nat) : Fld := ⟨0xC0000 + 0x2000 * n + 0x68, 0, 32⟩
/-- RFPn_TAP_NOCREDIT.COUNT (R344). -/
def fRfpTapNocreditCount (n : Nat) : Fld := ⟨0xC0000 + 0x2000 * n + 0x6c, 0, 32⟩
/-- RFPn_CARc_CTL.EN (R344). -/
def fRfpCarCtlEn (n i : Nat) : Fld := ⟨0xC0000 + 0x2000 * n + 0x100 + 0x20 * i, 0, 1⟩
/-- RFPn_CARc_CTL.PRESET (R344). -/
def fRfpCarCtlPreset (n i : Nat) : Fld := ⟨0xC0000 + 0x2000 * n + 0x100 + 0x20 * i, 1, 2⟩
/-- RFPn_CARc_CTL.K (R344). -/
def fRfpCarCtlK (n i : Nat) : Fld := ⟨0xC0000 + 0x2000 * n + 0x100 + 0x20 * i, 4, 3⟩
/-- RFPn_CARc_CTL.L (R344). -/
def fRfpCarCtlL (n i : Nat) : Fld := ⟨0xC0000 + 0x2000 * n + 0x100 + 0x20 * i, 8, 5⟩
/-- RFPn_CARc_CTL.PHASE (R344). -/
def fRfpCarCtlPhase (n i : Nat) : Fld := ⟨0xC0000 + 0x2000 * n + 0x100 + 0x20 * i, 16, 4⟩
/-- RFPn_CARc_CTL.PINRST (R344). -/
def fRfpCarCtlPinrst (n i : Nat) : Fld := ⟨0xC0000 + 0x2000 * n + 0x100 + 0x20 * i, 20, 1⟩
/-- RFPn_CARc_FREQ.FREQ (R344). -/
def fRfpCarFreqFreq (n i : Nat) : Fld := ⟨0xC0000 + 0x2000 * n + 0x104 + 0x20 * i, 0, 32⟩
/-- RFPn_CARc_STAT.SETTLING (R344). -/
def fRfpCarStatSettling (n i : Nat) : Fld := ⟨0xC0000 + 0x2000 * n + 0x108 + 0x20 * i, 0, 1⟩
/-- RFPn_CARc_STAT.MODEM (R344). -/
def fRfpCarStatModem (n i : Nat) : Fld := ⟨0xC0000 + 0x2000 * n + 0x108 + 0x20 * i, 1, 1⟩
/-- RFPn_CARc_RESETS.COUNT (R344). -/
def fRfpCarResetsCount (n i : Nat) : Fld := ⟨0xC0000 + 0x2000 * n + 0x10c + 0x20 * i, 0, 32⟩
/-- MDM_VER.MAJOR (R383). -/
def fMdmVerMajor : Fld := ⟨0xd0000, 16, 16⟩
/-- MDM_VER.MINOR (R383). -/
def fMdmVerMinor : Fld := ⟨0xd0000, 0, 16⟩
/-- MDM_CTL.EN (R383). -/
def fMdmCtlEn : Fld := ⟨0xd0004, 0, 1⟩
/-- MDM_INT_STAT.ABANDON (R383). -/
def fMdmIntStatAbandon : Fld := ⟨0xd0008, 0, 1⟩
/-- MDM_INT_STAT.NOCREDIT (R383). -/
def fMdmIntStatNocredit : Fld := ⟨0xd0008, 1, 1⟩
/-- MDM_INT_EN.MASK (R383). -/
def fMdmIntEnMask : Fld := ⟨0xd000c, 0, 2⟩
/-- MDM_ACCOUNT.ACCOUNT (R383). -/
def fMdmAccountAccount : Fld := ⟨0xd0010, 0, 12⟩
/-- MDM_TX_AMP.AMP (R383). -/
def fMdmTxAmpAmp : Fld := ⟨0xd0014, 0, 15⟩
/-- MDM_RAMPe.V (R383). -/
def fMdmRampV (i : Nat) : Fld := ⟨0xd0040 + 0x4 * i, 0, 10⟩
/-- MDM_LSEL.LINK (R383). -/
def fMdmLselLink : Fld := ⟨0xd0080, 0, 9⟩
/-- MDM_LINFO.RX_EN (R383). -/
def fMdmLinfoRxEn : Fld := ⟨0xd0084, 0, 1⟩
/-- MDM_LINFO.TX_EN (R383). -/
def fMdmLinfoTxEn : Fld := ⟨0xd0084, 1, 1⟩
/-- MDM_LINFO.MOD (R383). -/
def fMdmLinfoMod : Fld := ⟨0xd0084, 2, 1⟩
/-- MDM_LINFO.SCHED (R383). -/
def fMdmLinfoSched : Fld := ⟨0xd0084, 3, 1⟩
/-- MDM_LINFO.STATUS (R383). -/
def fMdmLinfoStatus : Fld := ⟨0xd0084, 8, 4⟩
/-- MDM_LRSSI.RSSI (R383). -/
def fMdmLrssiRssi : Fld := ⟨0xd0088, 0, 9⟩
/-- MDM_LRSSI.FOFS (R383). -/
def fMdmLrssiFofs : Fld := ⟨0xd0088, 16, 16⟩
/-- MDM_Pp_CFG.SYNC (R383). -/
def fMdmPpCfgSync (i : Nat) : Fld := ⟨0xd0100 + 0x80 * i, 0, 4⟩
/-- MDM_Pp_CFG.SYNC_THR (R383). -/
def fMdmPpCfgSyncThr (i : Nat) : Fld := ⟨0xd0100 + 0x80 * i, 4, 6⟩
/-- MDM_Pp_CFG.SYNC_WIN (R383). -/
def fMdmPpCfgSyncWin (i : Nat) : Fld := ⟨0xd0100 + 0x80 * i, 10, 5⟩
/-- MDM_Pp_CFG.CAP_MARGIN (R383). -/
def fMdmPpCfgCapMargin (i : Nat) : Fld := ⟨0xd0100 + 0x80 * i, 15, 5⟩
/-- MDM_Pp_CFG.MU (R383). -/
def fMdmPpCfgMu (i : Nat) : Fld := ⟨0xd0100 + 0x80 * i, 20, 4⟩
/-- MDM_Pp_CFG.TX_LEAD (R383). -/
def fMdmPpCfgTxLead (i : Nat) : Fld := ⟨0xd0100 + 0x80 * i, 24, 4⟩
/-- MDM_Pp_AGC.EN (R383). -/
def fMdmPpAgcEn (i : Nat) : Fld := ⟨0xd0104 + 0x80 * i, 0, 1⟩
/-- MDM_Pp_AGC.GAIN_OUT (R383). -/
def fMdmPpAgcGainOut (i : Nat) : Fld := ⟨0xd0104 + 0x80 * i, 1, 1⟩
/-- MDM_Pp_AGC.REF (R383). -/
def fMdmPpAgcRef (i : Nat) : Fld := ⟨0xd0104 + 0x80 * i, 8, 6⟩
/-- MDM_Pp_AGC.TARGET (R383). -/
def fMdmPpAgcTarget (i : Nat) : Fld := ⟨0xd0104 + 0x80 * i, 16, 6⟩
/-- MDM_Pp_AGC.LAT (R383). -/
def fMdmPpAgcLat (i : Nat) : Fld := ⟨0xd0104 + 0x80 * i, 24, 7⟩
/-- MDM_Pp_GAIN.GAIN (R383). -/
def fMdmPpGainGain (i : Nat) : Fld := ⟨0xd0108 + 0x80 * i, 0, 6⟩
/-- MDM_Pp_GAIN.FROZEN (R383). -/
def fMdmPpGainFrozen (i : Nat) : Fld := ⟨0xd0108 + 0x80 * i, 8, 1⟩
/-- MDM_Pp_GAIN.PA_EN (R383). -/
def fMdmPpGainPaEn (i : Nat) : Fld := ⟨0xd0108 + 0x80 * i, 9, 1⟩
/-- MDM_Pp_STAT.ABANDON (R383). -/
def fMdmPpStatAbandon (i : Nat) : Fld := ⟨0xd010c + 0x80 * i, 16, 1⟩
/-- MDM_Pp_RX_OK.COUNT (R383). -/
def fMdmPpRxOkCount (i : Nat) : Fld := ⟨0xd0110 + 0x80 * i, 0, 32⟩
/-- MDM_Pp_RX_EMPTY.COUNT (R383). -/
def fMdmPpRxEmptyCount (i : Nat) : Fld := ⟨0xd0114 + 0x80 * i, 0, 32⟩
/-- MDM_Pp_NO_SYNC.COUNT (R383). -/
def fMdmPpNoSyncCount (i : Nat) : Fld := ⟨0xd0118 + 0x80 * i, 0, 32⟩
/-- MDM_Pp_HDR_FAIL.COUNT (R383). -/
def fMdmPpHdrFailCount (i : Nat) : Fld := ⟨0xd011c + 0x80 * i, 0, 32⟩
/-- MDM_Pp_WRONG_LINK.COUNT (R383). -/
def fMdmPpWrongLinkCount (i : Nat) : Fld := ⟨0xd0120 + 0x80 * i, 0, 32⟩
/-- MDM_Pp_CRC_FAIL.COUNT (R383). -/
def fMdmPpCrcFailCount (i : Nat) : Fld := ⟨0xd0124 + 0x80 * i, 0, 32⟩
/-- MDM_Pp_ABANDONED.COUNT (R383). -/
def fMdmPpAbandonedCount (i : Nat) : Fld := ⟨0xd0128 + 0x80 * i, 0, 32⟩
/-- MDM_Pp_RX_NOCREDIT.COUNT (R383). -/
def fMdmPpRxNocreditCount (i : Nat) : Fld := ⟨0xd012c + 0x80 * i, 0, 32⟩
/-- MDM_Pp_FALSE_SYNC.COUNT (R383). -/
def fMdmPpFalseSyncCount (i : Nat) : Fld := ⟨0xd0130 + 0x80 * i, 0, 32⟩
/-- MDM_Pp_CAPTURED.COUNT (R383). -/
def fMdmPpCapturedCount (i : Nat) : Fld := ⟨0xd0134 + 0x80 * i, 0, 32⟩
/-- MDM_Pp_TX_SENT.COUNT (R383). -/
def fMdmPpTxSentCount (i : Nat) : Fld := ⟨0xd0138 + 0x80 * i, 0, 32⟩
/-- MDM_Pp_TX_EMPTY.COUNT (R383). -/
def fMdmPpTxEmptyCount (i : Nat) : Fld := ⟨0xd013c + 0x80 * i, 0, 32⟩
/-- MDM_Pp_TX_STALE.COUNT (R383). -/
def fMdmPpTxStaleCount (i : Nat) : Fld := ⟨0xd0140 + 0x80 * i, 0, 32⟩
/-- MDM_Pp_TX_FORMAT.COUNT (R383). -/
def fMdmPpTxFormatCount (i : Nat) : Fld := ⟨0xd0144 + 0x80 * i, 0, 32⟩
/-- LDPC_VER.MAJOR (R385). -/
def fLdpcVerMajor : Fld := ⟨0xe0000, 16, 16⟩
/-- LDPC_VER.MINOR (R385). -/
def fLdpcVerMinor : Fld := ⟨0xe0000, 0, 16⟩
/-- LDPC_CTL.EN (R385). -/
def fLdpcCtlEn : Fld := ⟨0xe0004, 0, 1⟩
/-- LDPC_CTL.RADIO_RES (R385). -/
def fLdpcCtlRadioRes : Fld := ⟨0xe0004, 8, 5⟩
/-- LDPC_ITER.RADIO (R385). -/
def fLdpcIterRadio : Fld := ⟨0xe0008, 0, 5⟩
/-- LDPC_ITER.FLASH (R385). -/
def fLdpcIterFlash : Fld := ⟨0xe0008, 16, 6⟩
/-- LDPC_STAT.BUSY_RADIO (R385). -/
def fLdpcStatBusyRadio : Fld := ⟨0xe000c, 0, 5⟩
/-- LDPC_STAT.BUSY_FLASH (R385). -/
def fLdpcStatBusyFlash : Fld := ⟨0xe000c, 8, 5⟩
/-- LDPC_STAT.RADIO_WAIT (R385). -/
def fLdpcStatRadioWait : Fld := ⟨0xe000c, 16, 8⟩
/-- LDPC_RADIO_WAIT_MAX.NS (R385). -/
def fLdpcRadioWaitMaxNs : Fld := ⟨0xe0010, 0, 32⟩
/-- LDPC_RADIO_JOBS.COUNT (R385). -/
def fLdpcRadioJobsCount : Fld := ⟨0xe0020, 0, 32⟩
/-- LDPC_RADIO_UNCONV.COUNT (R385). -/
def fLdpcRadioUnconvCount : Fld := ⟨0xe0024, 0, 32⟩
/-- LDPC_RADIO_ITER.COUNT (R385). -/
def fLdpcRadioIterCount : Fld := ⟨0xe0028, 0, 32⟩
/-- LDPC_FLASH_JOBS.COUNT (R385). -/
def fLdpcFlashJobsCount : Fld := ⟨0xe002c, 0, 32⟩
/-- LDPC_FLASH_UNCONV.COUNT (R385). -/
def fLdpcFlashUnconvCount : Fld := ⟨0xe0030, 0, 32⟩
/-- LDPC_FLASH_ITER.COUNT (R385). -/
def fLdpcFlashIterCount : Fld := ⟨0xe0034, 0, 32⟩
/-- PACK_VER.MAJOR (R424). -/
def fPackVerMajor : Fld := ⟨0xf0000, 16, 16⟩
/-- PACK_VER.MINOR (R424). -/
def fPackVerMinor : Fld := ⟨0xf0000, 0, 16⟩
/-- PACK_CTL.EN (R424). -/
def fPackCtlEn : Fld := ⟨0xf0004, 0, 1⟩
/-- PACK_CAPQ.QUEUE (R424). -/
def fPackCapqQueue : Fld := ⟨0xf0008, 0, 16⟩
/-- PACK_ACCOUNT.ACCOUNT (R424). -/
def fPackAccountAccount : Fld := ⟨0xf000c, 0, 12⟩
/-- PACK_CAPCFG.RATIO (R424). -/
def fPackCapcfgRatio : Fld := ⟨0xf0010, 0, 2⟩
/-- PACK_INT_STAT.JOB_STOP (R424). -/
def fPackIntStatJobStop : Fld := ⟨0xf0014, 0, 1⟩
/-- PACK_INT_STAT.CAP_DROP (R424). -/
def fPackIntStatCapDrop : Fld := ⟨0xf0014, 1, 1⟩
/-- PACK_INT_EN.MASK (R424). -/
def fPackIntEnMask : Fld := ⟨0xf0018, 0, 2⟩
/-- PACK_JOBS.HELD (R424). -/
def fPackJobsHeld : Fld := ⟨0xf001c, 0, 5⟩
/-- PACK_CODED.COUNT (R424). -/
def fPackCodedCount : Fld := ⟨0xf0020, 0, 32⟩
/-- PACK_NOFIT.COUNT (R424). -/
def fPackNofitCount : Fld := ⟨0xf0024, 0, 32⟩
/-- PACK_DECODED.COUNT (R424). -/
def fPackDecodedCount : Fld := ⟨0xf0028, 0, 32⟩
/-- PACK_BAD.COUNT (R424). -/
def fPackBadCount : Fld := ⟨0xf002c, 0, 32⟩
/-- PACK_CAP_JOBS.COUNT (R424). -/
def fPackCapJobsCount : Fld := ⟨0xf0030, 0, 32⟩
/-- PACK_CAP_WAIT.CYCLES (R424). -/
def fPackCapWaitCycles : Fld := ⟨0xf0034, 0, 32⟩
/-- PACK_CAP_DROP.COUNT (R424). -/
def fPackCapDropCount : Fld := ⟨0xf0038, 0, 32⟩
/-- PACK_CAP_BAD.COUNT (R424). -/
def fPackCapBadCount : Fld := ⟨0xf003c, 0, 32⟩
/-- FLC_VER.MAJOR (R426). -/
def fFlcVerMajor : Fld := ⟨0x100000, 16, 16⟩
/-- FLC_VER.MINOR (R426). -/
def fFlcVerMinor : Fld := ⟨0x100000, 0, 16⟩
/-- FLC_CTL.EN (R426). -/
def fFlcCtlEn : Fld := ⟨0x100004, 0, 1⟩
/-- FLC_STAT.READY (R426). -/
def fFlcStatReady : Fld := ⟨0x100008, 0, 1⟩
/-- FLC_STAT.RUNNING (R426). -/
def fFlcStatRunning : Fld := ⟨0x100008, 1, 1⟩
/-- FLC_STAT.HALT (R426). -/
def fFlcStatHalt : Fld := ⟨0x100008, 2, 1⟩
/-- FLC_STAT.REBUILD (R426). -/
def fFlcStatRebuild : Fld := ⟨0x100008, 3, 1⟩
/-- FLC_STAT.FORMAT (R426). -/
def fFlcStatFormat : Fld := ⟨0x100008, 4, 1⟩
/-- FLC_INT_STAT (R426). -/
def fFlcIntStat : Fld := ⟨0x10000c, 0, 6⟩
/-- FLC_INT_EN.MASK (R426). -/
def fFlcIntEnMask : Fld := ⟨0x100010, 0, 6⟩
/-- FLC_GEOM.PPB (R426). -/
def fFlcGeomPpb : Fld := ⟨0x100014, 0, 13⟩
/-- FLC_TGT_LO.MASK (R426). -/
def fFlcTgtLoMask : Fld := ⟨0x100018, 0, 32⟩
/-- FLC_TGT_HI.MASK (R426). -/
def fFlcTgtHiMask : Fld := ⟨0x10001c, 0, 32⟩
/-- FLC_STAGE_BASE_LO.ADDR (R426). -/
def fFlcStageBaseLoAddr : Fld := ⟨0x100020, 12, 20⟩
/-- FLC_STAGE_BASE_HI.ADDR (R426). -/
def fFlcStageBaseHiAddr : Fld := ⟨0x100024, 0, 3⟩
/-- FLC_STAGE_SIZE.MIB (R426). -/
def fFlcStageSizeMib : Fld := ⟨0x100028, 0, 12⟩
/-- FLC_CAP_MIN.SEGS (R426). -/
def fFlcCapMinSegs : Fld := ⟨0x10002c, 0, 16⟩
/-- FLC_RECLAIM.SEGS (R426). -/
def fFlcReclaimSegs : Fld := ⟨0x100030, 0, 8⟩
/-- FLC_REFRESH.HOURS (R426). -/
def fFlcRefreshHours : Fld := ⟨0x100034, 0, 16⟩
/-- FLC_CB.REFRESH (R426). -/
def fFlcCbRefresh : Fld := ⟨0x100038, 0, 9⟩
/-- FLC_CB.RETIRE (R426). -/
def fFlcCbRetire : Fld := ⟨0x100038, 16, 9⟩
/-- FLC_RETRY.COUNT (R426). -/
def fFlcRetryCount : Fld := ⟨0x10003c, 0, 3⟩
/-- FLC_SEG_TOTAL.SEGS (R426). -/
def fFlcSegTotalSegs : Fld := ⟨0x100040, 0, 22⟩
/-- FLC_SEG_FREE.SEGS (R426). -/
def fFlcSegFreeSegs : Fld := ⟨0x100044, 0, 22⟩
/-- FLC_SEG_LOCKED.SEGS (R426). -/
def fFlcSegLockedSegs : Fld := ⟨0x100048, 0, 22⟩
/-- FLC_REBUILD.PCT (R426). -/
def fFlcRebuildPct : Fld := ⟨0x10004c, 0, 7⟩
/-- FLC_REBUILD_T_LO.T (R426). -/
def fFlcRebuildTLoT : Fld := ⟨0x100050, 0, 32⟩
/-- FLC_REBUILD_T_HI.T (R426). -/
def fFlcRebuildTHiT : Fld := ⟨0x100054, 0, 32⟩
/-- FLC_OLDEST_T_LO.T (R426). -/
def fFlcOldestTLoT : Fld := ⟨0x100058, 0, 32⟩
/-- FLC_OLDEST_T_HI.T (R426). -/
def fFlcOldestTHiT : Fld := ⟨0x10005c, 0, 32⟩
/-- FLC_SEG_WRITTEN.COUNT (R426). -/
def fFlcSegWrittenCount : Fld := ⟨0x100080, 0, 32⟩
/-- FLC_SEG_RECLAIMED.COUNT (R426). -/
def fFlcSegReclaimedCount : Fld := ⟨0x100084, 0, 32⟩
/-- FLC_SEG_RELOCATED.COUNT (R426). -/
def fFlcSegRelocatedCount : Fld := ⟨0x100088, 0, 32⟩
/-- FLC_BLK_RETIRED.COUNT (R426). -/
def fFlcBlkRetiredCount : Fld := ⟨0x10008c, 0, 32⟩
/-- FLC_PROG_FAIL.COUNT (R426). -/
def fFlcProgFailCount : Fld := ⟨0x100090, 0, 32⟩
/-- FLC_ERASE_FAIL.COUNT (R426). -/
def fFlcEraseFailCount : Fld := ⟨0x100094, 0, 32⟩
/-- FLC_CW_UNCORR.COUNT (R426). -/
def fFlcCwUncorrCount : Fld := ⟨0x100098, 0, 32⟩
/-- FLC_REREAD.COUNT (R426). -/
def fFlcRereadCount : Fld := ⟨0x10009c, 0, 32⟩
/-- FLC_DSEL.DIE (R426). -/
def fFlcDselDie : Fld := ⟨0x1000c0, 0, 8⟩
/-- FLC_DINFO.STATE (R426). -/
def fFlcDinfoState : Fld := ⟨0x1000c4, 0, 2⟩
/-- FLC_DSPARE.BLOCKS (R426). -/
def fFlcDspareBlocks : Fld := ⟨0x1000c8, 0, 20⟩
/-- FLC_DERASE.MIN (R426). -/
def fFlcDeraseMin : Fld := ⟨0x1000cc, 0, 16⟩
/-- FLC_DERASE.MAX (R426). -/
def fFlcDeraseMax : Fld := ⟨0x1000cc, 16, 16⟩
/-- FLC_DFREE.BLOCKS (R426). -/
def fFlcDfreeBlocks : Fld := ⟨0x1000d0, 0, 20⟩
/-- UMP_VER.MAJOR (R445). -/
def fUmpVerMajor : Fld := ⟨0x30000, 16, 16⟩
/-- UMP_VER.MINOR (R445). -/
def fUmpVerMinor : Fld := ⟨0x30000, 0, 16⟩
/-- UMP_CTL.EN (R445). -/
def fUmpCtlEn : Fld := ⟨0x30004, 0, 1⟩
/-- UMP_CTL.ECC_EN (R445). -/
def fUmpCtlEccEn : Fld := ⟨0x30004, 1, 1⟩
/-- UMP_CTL.INJ_EN (R445). -/
def fUmpCtlInjEn : Fld := ⟨0x30004, 2, 1⟩
/-- UMP_INT_STAT (R445). -/
def fUmpIntStat : Fld := ⟨0x30008, 0, 4⟩
/-- UMP_INT_EN.MASK (R445). -/
def fUmpIntEnMask : Fld := ⟨0x3000c, 0, 4⟩
/-- UMP_RING_BASE_LO.ADDR (R445). -/
def fUmpRingBaseLoAddr : Fld := ⟨0x30010, 5, 27⟩
/-- UMP_RING_BASE_HI.ADDR (R445). -/
def fUmpRingBaseHiAddr : Fld := ⟨0x30014, 0, 3⟩
/-- UMP_RING_SIZE.ENTRIES (R445). -/
def fUmpRingSizeEntries : Fld := ⟨0x30018, 0, 17⟩
/-- UMP_RING_HEAD.INDEX (R445). -/
def fUmpRingHeadIndex : Fld := ⟨0x3001c, 0, 16⟩
/-- UMP_RING_TAIL.INDEX (R445). -/
def fUmpRingTailIndex : Fld := ⟨0x30020, 0, 16⟩
/-- UMP_RETIRE.STRIKES (R445). -/
def fUmpRetireStrikes : Fld := ⟨0x30024, 0, 3⟩
/-- UMP_RETIRE.WINDOW (R445). -/
def fUmpRetireWindow : Fld := ⟨0x30024, 16, 16⟩
/-- UMP_SPARE_TEST.SEC (R445). -/
def fUmpSpareTestSec : Fld := ⟨0x30028, 0, 16⟩
/-- UMP_SCRUB.SRAM_MS (R445). -/
def fUmpScrubSramMs : Fld := ⟨0x3002c, 0, 14⟩
/-- UMP_SCRUB.HBM_MIN (R445). -/
def fUmpScrubHbmMin : Fld := ⟨0x3002c, 16, 16⟩
/-- UMP_SEQ.NEXT (R445). -/
def fUmpSeqNext : Fld := ⟨0x30030, 0, 32⟩
/-- UMP_CORRECTED.COUNT (R445). -/
def fUmpCorrectedCount : Fld := ⟨0x30040, 0, 32⟩
/-- UMP_CONTAINED.COUNT (R445). -/
def fUmpContainedCount : Fld := ⟨0x30044, 0, 32⟩
/-- UMP_DEGRADED.COUNT (R445). -/
def fUmpDegradedCount : Fld := ⟨0x30048, 0, 32⟩
/-- UMP_LOST.COUNT (R445). -/
def fUmpLostCount : Fld := ⟨0x3004c, 0, 32⟩
/-- UMP_SCRUB_PASSES.COUNT (R445). -/
def fUmpScrubPassesCount : Fld := ⟨0x30050, 0, 32⟩
/-- UMP_SCRUB_LATE.COUNT (R445). -/
def fUmpScrubLateCount : Fld := ⟨0x30054, 0, 32⟩
/-- UMP_PATROL_PASSES.COUNT (R445). -/
def fUmpPatrolPassesCount : Fld := ⟨0x30058, 0, 32⟩
/-- UMP_INJECT.KIND (R445). -/
def fUmpInjectKind : Fld := ⟨0x30080, 0, 2⟩
/-- UMP_INJECT.CORE (R445). -/
def fUmpInjectCore : Fld := ⟨0x30080, 8, 8⟩
/-- UMP_INJECT.ARM (R445). -/
def fUmpInjectArm : Fld := ⟨0x30080, 16, 1⟩
/-- UMP_STRIKEk.COUNT (R445). -/
def fUmpStrikeCount (i : Nat) : Fld := ⟨0x30100 + 0x4 * i, 0, 3⟩
/-- AON_TMONn.TEMP (R447). -/
def fAonTmonTemp (i : Nat) : Fld := ⟨0x10400 + 0x4 * i, 0, 16⟩
/-- AON_TMONn.WARN (R447). -/
def fAonTmonWarn (i : Nat) : Fld := ⟨0x10400 + 0x4 * i, 16, 1⟩
/-- AON_TMONn.CRIT (R447). -/
def fAonTmonCrit (i : Nat) : Fld := ⟨0x10400 + 0x4 * i, 17, 1⟩
/-- AON_VMONn.MV (R447). -/
def fAonVmonMv (i : Nat) : Fld := ⟨0x10480 + 0x4 * i, 0, 12⟩
/-- AON_VWINn.LO (R447). -/
def fAonVwinLo (i : Nat) : Fld := ⟨0x104e0 + 0x4 * i, 0, 12⟩
/-- AON_VWINn.HI (R447). -/
def fAonVwinHi (i : Nat) : Fld := ⟨0x104e0 + 0x4 * i, 16, 12⟩
/-- AON_PMONn.COUNT (R447). -/
def fAonPmonCount (i : Nat) : Fld := ⟨0x10540 + 0x4 * i, 0, 20⟩
/-- AON_TEMP_THR.WARN (R447). -/
def fAonTempThrWarn : Fld := ⟨0x10580, 0, 8⟩
/-- AON_TEMP_THR.CRIT (R447). -/
def fAonTempThrCrit : Fld := ⟨0x10580, 8, 8⟩
/-- AON_PMON_FLOOR.COUNT (R447). -/
def fAonPmonFloorCount : Fld := ⟨0x10584, 0, 20⟩
/-- AON_MON_STAT (R447). -/
def fAonMonStat : Fld := ⟨0x10588, 0, 4⟩
/-- AON_FATAL.CAUSE (R447). -/
def fAonFatalCause : Fld := ⟨0x10600, 0, 8⟩
/-- AON_FATAL.SOURCE (R447). -/
def fAonFatalSource : Fld := ⟨0x10600, 8, 8⟩
/-- AON_FATAL.VALID (R447). -/
def fAonFatalValid : Fld := ⟨0x10600, 16, 1⟩
/-- AON_FATAL_MTC.MTC (R447). -/
def fAonFatalMtcMtc : Fld := ⟨0x10604, 0, 32⟩
/-- AON_TRIP.THERM (R447). -/
def fAonTripTherm : Fld := ⟨0x10608, 0, 1⟩
/-- PMU_VER.MAJOR (R461). -/
def fPmuVerMajor (set : Nat) : Fld := ⟨pmuBase set + 0x0, 16, 16⟩
/-- PMU_VER.MINOR (R461). -/
def fPmuVerMinor (set : Nat) : Fld := ⟨pmuBase set + 0x0, 0, 16⟩
/-- PMU_UEN.MASK (R461). -/
def fPmuUenMask (set : Nat) : Fld := ⟨pmuBase set + 0x8, 0, 6⟩
/-- PMU_OVF.PMC (R461). -/
def fPmuOvfPmc (set : Nat) : Fld := ⟨pmuBase set + 0xc, 0, 6⟩
/-- PMU_OVF.CYCLE (R461). -/
def fPmuOvfCycle (set : Nat) : Fld := ⟨pmuBase set + 0xc, 8, 1⟩
/-- PMU_INT_EN.PMC (R461). -/
def fPmuIntEnPmc (set : Nat) : Fld := ⟨pmuBase set + 0x10, 0, 6⟩
/-- PMU_INT_EN.CYCLE (R461). -/
def fPmuIntEnCycle (set : Nat) : Fld := ⟨pmuBase set + 0x10, 8, 1⟩
/-- PMU_CYCLE_LO.COUNT (R461). -/
def fPmuCycleLoCount (set : Nat) : Fld := ⟨pmuBase set + 0x20, 0, 32⟩
/-- PMU_CYCLE_HI.COUNT (R461). -/
def fPmuCycleHiCount (set : Nat) : Fld := ⟨pmuBase set + 0x24, 0, 32⟩
/-- PMU_EVSELk.EVENT (R461). -/
def fPmuEvselEvent (set i : Nat) : Fld := ⟨pmuBase set + 0x40 + 0x10 * i, 0, 10⟩
/-- PMU_EVSELk.EN (R461). -/
def fPmuEvselEn (set i : Nat) : Fld := ⟨pmuBase set + 0x40 + 0x10 * i, 16, 1⟩
/-- PMU_PMCk_LO.COUNT (R461). -/
def fPmuPmcLoCount (set i : Nat) : Fld := ⟨pmuBase set + 0x44 + 0x10 * i, 0, 32⟩
/-- PMU_PMCk_HI.COUNT (R461). -/
def fPmuPmcHiCount (set i : Nat) : Fld := ⟨pmuBase set + 0x48 + 0x10 * i, 0, 16⟩
/-- SCOUT_VER.MAJOR (R462). -/
def fScoutVerMajor (k : Nat) : Fld := ⟨0x200000 + 0x1000 * k + 0x400, 16, 16⟩
/-- SCOUT_VER.MINOR (R462). -/
def fScoutVerMinor (k : Nat) : Fld := ⟨0x200000 + 0x1000 * k + 0x400, 0, 16⟩
/-- SCOUT_CTL.EN (R462). -/
def fScoutCtlEn (k : Nat) : Fld := ⟨0x200000 + 0x1000 * k + 0x404, 0, 1⟩
/-- SCOUT_CTL.N (R462). -/
def fScoutCtlN (k : Nat) : Fld := ⟨0x200000 + 0x1000 * k + 0x404, 1, 5⟩
/-- SCOUT_CTL.REL (R462). -/
def fScoutCtlRel (k : Nat) : Fld := ⟨0x200000 + 0x1000 * k + 0x404, 8, 1⟩
/-- SCOUT_STAT.COUNT (R462). -/
def fScoutStatCount (k : Nat) : Fld := ⟨0x200000 + 0x1000 * k + 0x408, 0, 5⟩
/-- SCOUT_STAT.FULL (R462). -/
def fScoutStatFull (k : Nat) : Fld := ⟨0x200000 + 0x1000 * k + 0x408, 8, 1⟩
/-- SCOUT_LFSR.SEED (R462). -/
def fScoutLfsrSeed (k : Nat) : Fld := ⟨0x200000 + 0x1000 * k + 0x40c, 0, 16⟩
/-- HIF_VER.MAJOR (R487). -/
def fHifVerMajor : Fld := ⟨0x120000, 16, 16⟩
/-- HIF_VER.MINOR (R487). -/
def fHifVerMinor : Fld := ⟨0x120000, 0, 16⟩
/-- HIF_CTL.KCI_EN (R487). -/
def fHifCtlKciEn : Fld := ⟨0x120004, 0, 1⟩
/-- HIF_STAT.OPEN (R487). -/
def fHifStatOpen : Fld := ⟨0x120008, 0, 1⟩
/-- HIF_STAT.DEVRST (R487). -/
def fHifStatDevrst : Fld := ⟨0x120008, 16, 1⟩
/-- HIF_INT_STAT (R487). -/
def fHifIntStat : Fld := ⟨0x12000c, 0, 4⟩
/-- HIF_INT_EN.MASK (R487). -/
def fHifIntEnMask : Fld := ⟨0x120010, 0, 4⟩
/-- HIF_KCI_VER.MAJOR (R487). -/
def fHifKciVerMajor : Fld := ⟨0x120014, 16, 16⟩
/-- HIF_KCI_VER.MINOR (R487). -/
def fHifKciVerMinor : Fld := ⟨0x120014, 0, 16⟩
/-- HIF_KCI_BASE_LO.ADDR (R487). -/
def fHifKciBaseLoAddr : Fld := ⟨0x120020, 6, 26⟩
/-- HIF_KCI_BASE_HI.ADDR (R487). -/
def fHifKciBaseHiAddr : Fld := ⟨0x120024, 0, 32⟩
/-- HIF_KCI_SIZE.ENTRIES (R487). -/
def fHifKciSizeEntries : Fld := ⟨0x120028, 0, 17⟩
/-- HIF_KCI_DB.INDEX (R487). -/
def fHifKciDbIndex : Fld := ⟨0x12002c, 0, 16⟩
/-- HIF_KCI_HEAD.INDEX (R487). -/
def fHifKciHeadIndex : Fld := ⟨0x120030, 0, 16⟩
/-- HIF_KCI_OUT.COUNT (R487). -/
def fHifKciOutCount : Fld := ⟨0x120034, 0, 11⟩
/-- HIF_CQ_BASE_LO.ADDR (R487). -/
def fHifCqBaseLoAddr : Fld := ⟨0x120040, 6, 26⟩
/-- HIF_CQ_BASE_HI.ADDR (R487). -/
def fHifCqBaseHiAddr : Fld := ⟨0x120044, 0, 32⟩
/-- HIF_CQ_SIZE.ENTRIES (R487). -/
def fHifCqSizeEntries : Fld := ⟨0x120048, 0, 17⟩
/-- HIF_CQ_HEAD.INDEX (R487). -/
def fHifCqHeadIndex : Fld := ⟨0x12004c, 0, 16⟩
/-- HIF_CQ_TAIL.INDEX (R487). -/
def fHifCqTailIndex : Fld := ⟨0x120050, 0, 16⟩
/-- HIF_BAR2_WIN.SEL (R487). -/
def fHifBar2WinSel : Fld := ⟨0x120060, 0, 3⟩
/-- HIF_ERR_ADDR.OFFSET (R487). -/
def fHifErrAddrOffset : Fld := ⟨0x120070, 0, 32⟩
/-- HIF_ERR_INFO.KIND (R487). -/
def fHifErrInfoKind : Fld := ⟨0x120074, 0, 2⟩
/-- HIF_ERR_INFO.PATH (R487). -/
def fHifErrInfoPath : Fld := ⟨0x120074, 4, 1⟩
/-- HIF_ERR_INFO.VALID (R487). -/
def fHifErrInfoValid : Fld := ⟨0x120074, 8, 1⟩
/-- HIF_BADACC.COUNT (R487). -/
def fHifBadaccCount : Fld := ⟨0x120078, 0, 32⟩
/-- HIF_SMB_ERR.COUNT (R487). -/
def fHifSmbErrCount : Fld := ⟨0x12007c, 0, 32⟩
/-- HIF_FLOWEV_POP.FLOW (R487). -/
def fHifFlowevPopFlow : Fld := ⟨0x120080, 0, 14⟩
/-- HIF_FLOWEV_POP.PATH (R487). -/
def fHifFlowevPopPath : Fld := ⟨0x120080, 16, 1⟩
/-- HIF_FLOWEV_POP.VALID (R487). -/
def fHifFlowevPopValid : Fld := ⟨0x120080, 31, 1⟩
/-- HIF_FLOWEV_LOST.COUNT (R487). -/
def fHifFlowevLostCount : Fld := ⟨0x120084, 0, 32⟩
/-- HIF_WL_PORT.PORT (R487). -/
def fHifWlPortPort : Fld := ⟨0x120090, 0, 16⟩
/-- HIF_BOOT_STAT.CODE (R487). -/
def fHifBootStatCode : Fld := ⟨0x1200a0, 0, 8⟩
/-- HIF_BOOT_STAT.DONE (R487). -/
def fHifBootStatDone : Fld := ⟨0x1200a0, 8, 1⟩
/-- HIF_BOOT_STAT.SRC (R487). -/
def fHifBootStatSrc : Fld := ⟨0x1200a0, 9, 1⟩
/-- HIF_BOOT_PUSH.GO (R487). -/
def fHifBootPushGo : Fld := ⟨0x1200a4, 0, 1⟩
/-- HIF_MSIX_MAPs.VECTOR (R487). -/
def fHifMsixMapVector (i : Nat) : Fld := ⟨0x120100 + 0x4 * i, 0, 8⟩
/-- HIF_MSIX_MAPs.EN (R487). -/
def fHifMsixMapEn (i : Nat) : Fld := ⟨0x120100 + 0x4 * i, 8, 1⟩
/-- GLB_VER.MAJOR (R503). -/
def fGlbVerMajor : Fld := ⟨0x4, 16, 16⟩
/-- GLB_VER.MINOR (R503). -/
def fGlbVerMinor : Fld := ⟨0x4, 0, 16⟩
/-- GLB_STAT.STEP (R503). -/
def fGlbStatStep : Fld := ⟨0x8, 0, 3⟩
/-- GLB_STAT.READY (R503). -/
def fGlbStatReady : Fld := ⟨0x8, 3, 1⟩
/-- GLB_STAT.FAIL (R503). -/
def fGlbStatFail : Fld := ⟨0x8, 8, 3⟩
/-- GLB_STAT.BOOT_SEL (R503). -/
def fGlbStatBootSel : Fld := ⟨0x8, 16, 1⟩
/-- GLB_PLL_STAT.LOCK (R503). -/
def fGlbPllStatLock : Fld := ⟨0xc, 0, 7⟩
/-- GLB_RST.SYS (R503). -/
def fGlbRstSys : Fld := ⟨0x10, 0, 1⟩
/-- GLB_PWR_DELAY.SLEEP (R503). -/
def fGlbPwrDelaySleep : Fld := ⟨0x14, 0, 16⟩
/-- GLB_PWR_DELAY.OFF (R503). -/
def fGlbPwrDelayOff : Fld := ⟨0x14, 16, 16⟩
/-- AON_VER.MAJOR (R504). -/
def fAonVerMajor : Fld := ⟨0x10000, 16, 16⟩
/-- AON_VER.MINOR (R504). -/
def fAonVerMinor : Fld := ⟨0x10000, 0, 16⟩
/-- AON_RST_CAUSE (R504). -/
def fAonRstCause : Fld := ⟨0x10004, 0, 4⟩
/-- AON_STAT.REF25_OK (R504). -/
def fAonStatRef25Ok : Fld := ⟨0x10008, 0, 1⟩
/-- AON_RST_COUNT.COUNT (R504). -/
def fAonRstCountCount : Fld := ⟨0x1000c, 0, 16⟩

end Sys2Proof.Machine
end

