-- ==== Sys2Proof/Machine/State.lean ====
section
/-!
DEFINITION. State.lean: every piece of state the spec gives the KG7160, as plain data, the queue of waiting commands, the
state after reset, and the reasons a step can stop. Maps are lists of (key, value) pairs in rising key order.
-/

namespace Sys2Proof.Machine

/-! ## Time -/

/-- Servo states of R51. -/
inductive Servo where
  | freerun | acquire | locked | holdover | pathHold | free
  deriving DecidableEq, Repr

/-- One entry of a transmit timestamp queue (R63): identifier and the 94-bit time in units of 2^-16 ns. -/
structure TsEntry where
  id   : Nat
  time : Nat
  deriving DecidableEq, Repr

/-- A transmit timestamp queue of up to 64 entries and its latched POP words (R63, R67). -/
structure TsQueue where
  entries : List TsEntry := []
  pop1    : Word := 0
  pop2    : Word := 0
  pop3    : Word := 0
  deriving DecidableEq, Repr

/-- A TIME.STEP_AUTH that waits for its measurement (R56). -/
structure StepAuth where
  limit : Nat
  tag   : Nat
  deriving DecidableEq, Repr

/-- The defaults of a profile, with no port enabled: 0 ST 2059-2, 1 AES67 (R48; the figures are PRESUMED from the profiles, assumption 24). PTP runs
on no port before the first TIME.CONFIG, as TIME_TSQn_STAT.OWNED resets to 0 (DESIGN CHOICE, assumption 34). -/
def ptpDefaults (profile : Nat) : PtpConfig :=
  if profile = 0 then ⟨0, 0, 0, 127, -3, -2, -3, 3, 128, 128, [248, 248, 248, 248, 248, 248]⟩
  else ⟨0, 1, 0, 0, -3, 1, 0, 3, 128, 128, [248, 248, 248, 248, 248, 248]⟩

/-- The time counter, servo and reference pins (R39 to R69). The counter `t` holds the time since the PTP epoch in units of 2^-48 ns;
`prevSum` is the sum of the 16 delays of the last window, `lockRates` the TIME_RATE values of R522, newest first, `entryRate` the
TIME_RATE at the entry into HOLDOVER, `lastPps` the cycle of the last 1PPS_IN edge, `ppsHigh` the cycles at which 1PPS_OUT rose and falls, and
`announces` the masters heard, by port. -/
structure TimeSt where
  t          : Nat := 0
  rate       : Int := 0
  servo      : Servo := .freerun
  hoCause    : Nat := 0
  armed      : Bool := false
  ref10mOk   : Bool := false
  ppsinOk    : Bool := false
  lastPps    : Option Nat := none
  ppsHigh    : Option (Nat × Nat) := none
  lockCount  : Nat := 0
  holdCount  : Nat := 0
  delays     : List Nat := []
  prevSum    : Option Nat := none
  lockRates  : List Int := []
  auth       : Option StepAuth := none
  holdStart  : Nat := 0
  entryRate  : Int := 0
  slave      : Option Nat := none
  cfg        : PtpConfig := ptpDefaults 0
  announces  : List (Nat × Announce) := []
  utcOffset  : Option Int := none
  mgmtLost   : Nat := 0
  snapNs     : Word := 0
  snapSecL   : Word := 0
  snapSecH   : Word := 0
  snapMtc    : Word := 0
  rateHi     : Word := 0
  ppsNs      : Word := 0
  ppsSec     : Word := 0
  ppsSecLat  : Word := 0
  tsq        : List (Nat × TsQueue) := []
  deriving DecidableEq, Repr

/-! ## Media queues -/

/-- A queue entry (R99). -/
structure Entry where
  handle : Nat := 0
  nobuf  : Bool := false
  replay : Bool := false
  loan   : Bool := false
  len    : Nat := 0
  seq    : Nat := 0
  key    : Nat := 0
  aux    : Nat := 0
  deriving DecidableEq, Repr

/-- A stored item: its entry, with REPLAY as it will be delivered, the REFCLK cycle of its push, for R114, and, of the marked item once a rewind has
made it held again, the number of its mark (R123, R124); else 0. -/
structure Item where
  e    : Entry
  at_  : Nat
  markNo : Nat := 0
  deriving DecidableEq, Repr

/-- Queue modes as MQ_QINFO.MODE codes them (R128). -/
inductive QMode where
  | fifo | ordered | async
  deriving DecidableEq, Repr

/-- Per-queue counts (R126). -/
structure QCounts where
  pushed    : Nat := 0
  popped    : Nat := 0
  lost      : Nat := 0
  reclaim   : Nat := 0
  late      : Nat := 0
  dup       : Nat := 0
  replayed  : Nat := 0
  restored  : Nat := 0
  highWater : Nat := 0
  deriving DecidableEq, Repr

/-- An open media queue (R99 to R126): held items head first, retained items oldest first, the items in the head and tail
windows, the mark with the number of marks placed, LAST_KEY and LAST_VALID before the last pop with its cycle (R113), whether an ASYNC queue has asserted
FULL, and the cycle in which a pop last took FULL away (R115). -/
structure Queue where
  mode      : QMode
  depth     : Nat
  retain    : Nat
  account   : Nat
  held      : List Item := []
  retained  : List Item := []
  headWin   : Nat := 0
  tailWin   : Nat := 0
  lastKey   : Nat := 0
  lastValid : Bool := false
  markSet   : Bool := false
  markValid : Bool := false
  markLost  : Bool := false
  marks     : Nat := 0
  before    : Option (Nat × Nat × Bool) := none
  full      : Bool := false
  freedAt   : Option Nat := none
  n         : QCounts := {}
  deriving DecidableEq, Repr

/-! ## Seedbed -/

/-- STATE of a granule tag (R179); a host's write of the table can leave the reserved code. -/
inductive GranSt where
  | free | owned | run | reserved
  deriving DecidableEq, Repr

/-- A granule tag (R179); `upper` is what a host's write left in the reserved bits. -/
structure Tag where
  next   : Nat := 0
  last   : Bool := false
  st     : GranSt := .free
  owner  : Nat := 0
  rcount : Nat := 0
  chain  : Nat := 0
  upper  : Nat := 0
  deriving DecidableEq, Repr

/-- KIND codes of an owner account (R180). -/
inductive AKind where
  | closed | node | queue | port | group | pack
  deriving DecidableEq, Repr

/-- An owner account (R180, R189). -/
structure Account where
  kind     : AKind := .closed
  quota    : Nat := 0
  held     : Nat := 0
  peak     : Nat := 0
  nocredit : Nat := 0
  releases : Nat := 0
  attach   : Nat := 0
  suspect  : Bool := false
  deriving DecidableEq, Repr

/-- Seedbed: tags of the granules that are not FREE, open accounts, and the two sets of totals (R178 to R187). -/
structure SeedSt where
  tags   : List (Nat × Tag) := []
  accts  : List (Nat × Account) := []
  freeA  : Nat := 0
  ownedA : Nat := 0
  freeB  : Nat := 0
  ownedB : Nat := 0
  deriving DecidableEq, Repr

/-! ## Bullpen -/

/-- Node states of R133 but EMPTY, which is the absence of a descriptor. -/
inductive NodeSt where
  | disarmed | armed | ready | running | cancelPending | aborting
  deriving DecidableEq, Repr

/-- The settings of a node that CFG.COMMIT changes together (R132). -/
structure NodeSet where
  mask    : Nat
  any     : Bool
  cls     : Nat
  home    : Nat
  nosteal : Bool
  fpol    : Nat
  alt     : Nat
  budget  : Nat
  prog    : Nat
  deriving DecidableEq, Repr

/-- Why a satisfied node or a post waits for a place in a ready store (R149, R159). -/
inductive AbortWait where
  | none
  | rerun
  deriving DecidableEq, Repr

/-- One operation of a run, pending until DONE, in program order (R117, R144, R182). -/
inductive RunOp where
  | push (q : Nat) (e : Entry)
  | pop (q : Nat) (it : Item) (loan : Bool)
  | mark (q : Nat)
  | balloc (h : Nat)
  | bfree (h : Nat)
  | bgive (h : Nat) (a : Nat)
  | sig (t : Nat) (flags : Nat)
  | sigd (t : Nat) (d : Nat) (flag : Nat) (dropLate : Bool)
  | ncan (t : Nat)
  | arm (t : Nat)
  deriving DecidableEq, Repr

/-- A canceller's or a bypass node's own state (R275, R276, R280, R281): the first tick of its next window, runs in a row that found no Sin item in theirs, quanta
in a row with an ERLE of 18 dB, what stands for the coefficients of the background and foreground filters of bands 0 to 16, for the filterbank histories
and for the power estimates, the TAIL, BAND and MODE in force, and the last Sin samples of a bypass node. 0 stands for zeroed values. -/
structure CancSt where
  next  : Option Nat := none
  empty : Nat := 0
  good  : Nat := 0
  bg    : List Nat := List.replicate 17 0
  fg    : List Nat := List.replicate 17 0
  hist  : Nat := 0
  est   : Nat := 0
  mode  : Option Nat := none
  past  : List Int := []
  deriving DecidableEq, Repr

/-- One function of a detector channel (R288 to R290): the samples of the block or window it gathers, oldest first, the tick of the first of them, whether it is
ON, the blocks in a row that differ from that with the key of the first, and the level of the last block. -/
structure DetFn where
  buf   : List Int := []
  start : Nat := 0
  on    : Bool := false
  run   : Nat := 0
  first : Nat := 0
  level : Nat := 0
  deriving DecidableEq, Repr

/-- A detector channel (R287 to R291): its configuration words as last seen, its functions, the digit that is ON, the digit for which the last DTMF block was
valid with that block's key, and the last samples before the DTMF block. -/
structure DetChan where
  cfg   : List Nat := []
  dtmf  : DetFn := {}
  digit : Option Nat := none
  valid : Option Nat := none
  key   : Nat := 0
  hist  : List Int := []
  tones : List DetFn := [{}, {}, {}, {}]
  lu    : DetFn := {}
  lv    : DetFn := {}
  deriving DecidableEq, Repr

/-- A detector's own state (R288 to R294): CHANNELS as last seen, the key that the next block should have, the samples of a block, and the channels. -/
structure DetSt where
  channels : Option Nat := none
  next     : Nat := 0
  samples  : Nat := 0
  chans    : List (Nat × DetChan) := []
  deriving DecidableEq, Repr

/-- A notice of a mixer (R303): the slot, the key, and the handle of its block, if it has one. -/
structure Notice where
  slot  : Nat
  key   : Nat
  block : Option Nat
  deriving DecidableEq, Repr

/-- A crosspoint (R305, R309, R310): its OUTPUT, SLOT and CHANNEL, the gains its fade runs between, the samples since the fade's first and the fade's length. -/
structure Xpoint where
  out  : Nat
  slot : Nat
  chan : Nat
  from_ : Int
  to_  : Int
  n    : Nat
  len  : Nat
  deriving DecidableEq, Repr

/-- A mixer's own state (R307, R310): the key of its next block, BLOCK as last seen, the notices kept for later runs, and its crosspoints, those that fade out
included. -/
structure MixSt where
  next  : Option Nat := none
  block : Nat := 0
  kept  : List Notice := []
  xps   : List Xpoint := []
  deriving DecidableEq, Repr

/-- A codec node's own state (R315, R319): CODEC and PTIME in force, the key of its next sample, an encoder's samples not yet sent, the samples before them that its
filter still needs, and what stands for the coder's state. -/
structure CodecSt where
  mode : Option Nat := none
  next : Option Nat := none
  buf  : List Int := []
  hist : List Int := []
  est  : Nat := 0
  deriving DecidableEq, Repr

/-- The state that a node of the Kelrik Media Library keeps in its context where no rule gives it a place. -/
inductive KmlSt where
  | canceller (c : CancSt)
  | detector (d : DetSt)
  | mixer (m : MixSt)
  | codec (c : CodecSt)
  deriving DecidableEq, Repr

/-- What a run has pending (R117, R144, R182): its operations newest first, how many count against each limit, LAST_KEY
and LAST_VALID of each queue before its first pop, the pages it has dirtied (R175), and the state that a KML node's run leaves (R278, R307). -/
structure RunRec where
  ops    : List RunOp := []
  nMq    : Nat := 0
  nBull  : Nat := 0
  nSeed  : Nat := 0
  keys   : List (Nat × (Nat × Bool)) := []
  dirty  : List Nat := []
  kml    : Option KmlSt := none
  deriving DecidableEq, Repr

/-- A node descriptor (R131) with what Bullpen and Greenhouse keep beside it: settings and context pages committed for the next
dispatch (R132, R300), the core barred to a re-run (R149), events recorded while ABORTING (R134), the dispatch instant and last duration (R171), a hold and whether one expired (R171), the write-back in progress (R175), what an abort
has to undo (R148), the core of the run or write-back, and whether an eviction or an unload waits for it (R189). -/
structure NodeD where
  flags      : Nat := 0
  set        : NodeSet
  st         : NodeSt := .disarmed
  rerun      : Bool := false
  beatgen    : Option Nat := none
  ctxClass   : Nat := 0
  ctxBase    : Nat := 0
  sel        : Nat := 0
  gen        : Nat := 0
  account    : Nat := 0
  overlap    : Nat := 0
  aborts     : Nat := 0
  runs       : Nat := 0
  lastStatus : Nat := 0
  lastCore   : Nat := 0
  late       : Nat := 0
  lastMtc    : Nat := 0
  dispatched : Bool := false
  staged     : Option NodeSet := none
  stagedCtx  : List (Nat × Byte) := []
  barred     : Option Nat := none
  recFlags   : Nat := 0
  recArm     : Bool := false
  recCancel  : Bool := false
  abortWait  : AbortWait := .none
  consumed   : Nat := 0
  runStart   : Nat := 0
  duration   : Option Nat := none
  hold       : Option (Nat × Nat) := none
  expired    : Bool := false
  writeBack  : Option (List Nat) := none
  evicting   : Bool := false
  unloading  : Bool := false
  undo       : Option RunRec := none
  runCore    : Nat := 0
  deriving DecidableEq, Repr

/-- An entry of a class queue of a ready store: the node, the cycle at which it became READY, and whether a flag post made it so (R138, R139, R142). -/
structure ReadyEnt where
  node   : Nat
  since  : Nat
  byPost : Bool := false
  deriving DecidableEq, Repr

/-- What TIMER.BEAT gives a generator (R151). -/
structure BeatSet where
  q    : Nat
  flag : Nat
  next : Nat
  deriving DecidableEq, Repr

/-- A beat generator (R150 to R152): members in order of joining, the members that the beat in progress still has to
reach, the flags of its beats that wait for the one in progress, new settings that wait for the next beat, and the
tick at which a catch-up beat is due (R58). -/
structure BeatGen where
  en      : Bool := false
  q       : Nat := 0
  flag    : Nat := 0
  next    : Nat := 0
  members : List Nat := []
  posting : List Nat := []
  postFlag : Nat := 0
  waiting : List Nat := []
  newSet  : Option BeatSet := none
  catchUp : Option Nat := none
  deriving DecidableEq, Repr

/-- A delay-list timer (R153); `order` is its order of insertion, `insTick` the tick of it, and `held` says that it waits under R156. -/
structure Timer where
  list     : Nat
  target   : Nat
  flag     : Nat
  due      : Nat
  dropLate : Bool
  report   : Bool
  tag      : Nat
  order    : Nat
  insTick  : Nat
  held     : Bool
  deriving DecidableEq, Repr

/-- A post to ALT, made by the second abort of a node, that waits for a place (R149, R159). -/
structure AltPost where
  source : Nat
  target : Nat
  flags  : Nat
  deriving DecidableEq, Repr

/-- Bullpen (R130 to R163). Ready queues are keyed by 4 × cluster + class; `poster` holds the generators whose beats the one
poster still serves, in order, and `alts` the posts to ALT that wait, oldest first. -/
structure BullSt where
  nodes  : List (Nat × NodeD) := []
  ready  : List (Nat × List ReadyEnt) := []
  beats  : List (Nat × BeatGen) := []
  timers : List (Nat × Timer) := []
  order  : Nat := 0
  poster : List Nat := []
  alts   : List AltPost := []
  deriving DecidableEq, Repr

/-! ## Greenhouse -/

/-- A resident context: its core, first slot, whether a prefetch (`pre`) or a page-in for a reserved core (`resv`) placed it
and no dispatch has used it yet, and the cycle of its last dispatch (R167, R171 to R173). -/
structure Res where
  core : Nat
  slot : Nat
  pre  : Bool
  resv : Bool
  disp : Nat
  deriving DecidableEq, Repr

/-- A page-in: its target core, its first slot once a slot group is free (R173), whether it is a prefetch (R172) or
the core is reserved for the node (R171), the cycle of its start, and its place in the order of starts. -/
structure PageIn where
  core  : Nat
  slot  : Option Nat
  pre   : Bool
  resv  : Bool
  since : Nat
  order : Nat := 0
  deriving DecidableEq, Repr

/-- Greenhouse (R164 to R177): resident contexts and page-ins by node, recent paging traffic as (cycle, bytes), and page-ins started. -/
structure GhSt where
  res     : List (Nat × Res) := []
  pageIns : List (Nat × PageIn) := []
  traffic : List (Nat × Nat) := []
  order   : Nat := 0
  deriving DecidableEq, Repr

/-! ## Media cores and clusters -/

/-- A scalar register or vector lane with its 3-bit residue (R200, R238). -/
structure RVal where
  v : Word := 0
  r : Nat := 0
  deriving DecidableEq, Repr

/-- An accumulator lane with its 3-bit residue (R200, R238). -/
structure AVal where
  v : Acc := 0
  r : Nat := 0
  deriving DecidableEq, Repr

/-- STATE codes of CLUn_Cm_STAT (R221), but SPARE, which follows from SPARES.HELD (R219). -/
inductive CoreMode where
  | off | wait | run | doneWait | retired | halted
  deriving DecidableEq, Repr

/-- An active loop level (R212): first and last instruction of the body, and iterations left including the current one. -/
structure LoopLvl where
  first : Nat
  last  : Nat
  left  : Nat
  deriving DecidableEq, Repr

/-- An outstanding move (R208); `hit` lists the words of its local range that stores have changed since, with what they held
before (R269). -/
structure Move where
  la     : Nat
  handle : Nat
  ofs    : Nat
  len    : Nat
  toBuf  : Bool
  hit    : List (Nat × Word) := []
  deriving DecidableEq, Repr

/-- What a core stalls on (R210, R211), or that its run is being aborted (R148). -/
inductive Stall where
  | none
  | aborting
  | xmov (m : Move)
  | xwait
  | done (status : Nat)
  deriving DecidableEq, Repr

/-- A media core (R194 to R223). Vector and accumulator lanes are keyed by 8 × register + lane; P and N by PN code, B and L by
BL code (R249). `ram` holds the page slots in `filled`, those paged into since the core's power-up, and `scratch` the node scratch and
the other slots; a scratch byte not listed is undefined (R168), and `scratchId` numbers the free contents; `bad` lists the words of local RAM
that hold an uncorrectable error (R432), and `moved` counts the bytes of its moves (R221, R451). `blocked` says that the core is in GETW (R140). -/
structure Core where
  mode      : CoreMode := .off
  blocked   : Bool := false
  mask      : Nat := 0
  node      : Nat := 0
  pc        : Nat := 0
  s         : List (Nat × RVal) := []
  v         : List (Nat × RVal) := []
  a         : List (Nat × AVal) := []
  pn        : List (Nat × Word) := []
  bl        : List (Nat × Word) := []
  cf        : BitVec 16 := 0
  sf        : BitVec 20 := 0
  loops     : List LoopLvl := []
  moves     : List Move := []
  stall     : Stall := .none
  run       : RunRec := {}
  commit    : List RunOp := []
  ctxAddr   : Nat := 0
  ctxPages  : Nat := 0
  ram       : List Host.Cell := []
  scratch   : List Host.Cell := []
  scratchId : Nat := 0
  filled    : List Nat := []
  bad       : List (Nat × Unit) := []
  moved     : Nat := 0
  deriving DecidableEq, Repr

/-- Power states of R492. -/
inductive Pwr where
  | run | idle | sleep | off
  deriving DecidableEq, Repr

/-- A cluster (R492, R197, R198): power state and the cycle it was entered, whether a wake or an entry into OFF is under
way, the shared code and data RAM, the words of data RAM and of code RAM that hold an uncorrectable error (R432), and cluster clock cycles
counted up to `cycAt` (R448). -/
structure Cluster where
  pwr    : Pwr := .off
  since  : Nat := 0
  waking : Bool := false
  wakeAt : Nat := 0
  code   : List Host.Cell := []
  data   : List Host.Cell := []
  cyc    : Nat := 0
  cycAt  : Nat := 0
  bad    : List (Nat × Unit) := []
  badCode : List (Nat × Unit) := []
  deriving DecidableEq, Repr

/-! ## Counters and Scout -/

/-- A counter set (R448, R455): CYCLE at the cluster or fabric count `mark`, the six PMCs and the two shadows. -/
structure PmuSet where
  cycle : Nat := 0
  mark  : Nat := 0
  pmc   : List (Nat × Nat) := []
  rdSh  : Nat := 0
  wrSh  : Nat := 0
  deriving DecidableEq, Repr

/-- A Scout (R457 to R462): the LFSR, whether an instruction or the next run's first is tagged, and the ring of records. -/
structure Scout where
  lfsr   : Nat
  tagged : Bool := false
  seq    : Nat := 0
  ring   : List (Nat × List Word) := []
  held   : Nat := 0
  full   : Bool := false
  deriving DecidableEq, Repr

/-! ## Umpire -/

/-- A CORRECTED record held for merging (R431). -/
structure UmpHold where
  source : Nat
  core   : Nat
  cause  : Nat
  seq    : Nat
  node   : Nat
  acct   : Nat
  mtc    : Nat
  detail : Nat
  rep    : Nat
  since  : Nat
  deriving DecidableEq, Repr

/-- Umpire (R429 to R446): records held for merging, strikes of each core as instants, newest first, how many samples in a
row each voltage monitor has found outside its window, and the process monitors below the floor (R441). -/
structure UmpSt where
  held    : List UmpHold := []
  strikes : List (Nat × List Nat) := []
  voltOut : List (Nat × Nat) := []
  procLow : List (Nat × Unit) := []
  deriving DecidableEq, Repr

/-! ## Host interface, power and reset -/

/-- An instruction fetched and not completed (R471): TAG, OPCODE and FLAGS. -/
structure KciOut where
  tag   : Nat
  op    : Nat
  flags : Nat
  deriving DecidableEq, Repr

/-- An entry of the MSI-X table (R468); masked out of reset, as PCI Express has it (PRESUMED, assumption 9). -/
structure MsixEnt where
  addrLo : Word := 0
  addrHi : Word := 0
  data   : Word := 0
  ctl    : Word := 1
  deriving DecidableEq, Repr

/-- What an instruction waits for before its completion: an effect, or, where its result is `held`, the completion of an
earlier instruction that names the same thing (R473). -/
inductive WaitOn where
  | stepAuth
  | commit (kind : Nat) (id : Nat)
  | modem (link : Nat)
  | link (link : Nat)
  | evict (node : Nat)
  | graph (graph : Nat)
  | job (job : Nat)
  | capStop
  | held (status : Nat) (result : List Nat)
  deriving DecidableEq, Repr

/-- An instruction whose effect or completion waits (R473); `key` is what it names, as (kind, identifier). -/
structure KciWait where
  tag : Nat
  op  : Nat
  key : Option (Nat × Nat)
  on  : WaitOn
  deriving DecidableEq, Repr

/-- The host interface (R463 to R488): KCI open, PHASE of the next completion, instructions outstanding and waiting, the flow
event queue as (flow, path B), the MSI-X table and pending bits by vector, the SMBus read offset, and the data that the last
read returned. -/
structure HifSt where
  isOpen  : Bool := false
  phase   : Bool := true
  outst   : List KciOut := []
  waits   : List KciWait := []
  flowEv  : List (Nat × Bool) := []
  msix    : List (Nat × MsixEnt) := []
  pba     : List (Nat × Unit) := []
  smbOff  : Option Nat := none
  rd      : List Word := []
  deriving DecidableEq, Repr

/-- Bring-up and fuses (R485, R486, R491, R498 to R502): FATAL restarts in a row, whether THERMTRIP holds the device in reset
and asserts its pin, whether the service core restarts (R433), the BOOT_SEL level to sample, which PLL references are present (a bit per bit of
GLB_PLL_STAT), a pushed image under authentication, the running image, the fused rollback counter and the slots revoked since the part left the
factory. -/
structure GlbSt where
  restarts : Nat := 0
  tripped  : Bool := false
  svcDown  : Bool := false
  bootPin  : Bool := false
  refs     : Nat := 0
  push     : Option BootImage := none
  image    : Option BootImage := none
  rollback : Nat
  revoked  : List (Nat × Unit) := []
  deriving DecidableEq, Repr

/-- A loaded graph and what it owns (R478, R479). -/
structure Graph where
  accounts : List Nat := []
  queues   : List Nat := []
  nodes    : List Nat := []
  code     : List (Nat × Nat × Nat) := []
  shared   : List (Nat × Nat × Nat) := []
  contexts : List (Nat × Nat) := []
  unload   : Bool := false
  deriving DecidableEq, Repr


/-! ## Ethernet ports and flows -/

/-- An entry of a port's media receive FIFO: a packet that has passed the checks of R76, with what the port pushes for it (R74, R80,
R81). `time` is the receive timestamp in units of 2^-16 ns, and `refused` says that its allocation has been refused and counted. -/
structure MediaPkt where
  bytes   : Nat
  flow    : Nat
  pathB   : Bool
  queue   : Nat
  key     : Nat
  half    : Bool
  rtp     : Rtp
  tci     : Option Nat
  dscp    : Nat
  time    : Nat
  refused : Bool := false
  deriving DecidableEq, Repr

/-- A copy that waits to leave a port (R89 to R92), built under the fields that the flow had at the take: path, sequence number, RTP
timestamp, the tick E and the buffer. `loan` says that freeing the buffer only ends a loan. -/
structure Copy where
  flow   : Nat
  pathB  : Bool
  blk    : TxBlock
  tick   : Nat
  seq    : Nat
  ts     : Nat
  marker : Bool
  tsReq  : Bool
  tsId   : Nat
  handle : Nat
  len    : Nat
  loan   : Bool
  deriving DecidableEq, Repr

/-- A port (R72, R74, R91): its IP addresses, the media and service FIFOs, oldest first, and the copies that wait to leave. -/
structure PortSt where
  addr   : PortAddr := ⟨0, false, false, 0, 0, 0, 0⟩
  fifo   : List MediaPkt := []
  svc    : List Frame := []
  copies : List Copy := []
  deriving DecidableEq, Repr

/-- A path of an ingress flow (R83, R86): UP, the tick of its last arrival, its counts and its last SSRC. -/
structure RxPath where
  up         : Bool := false
  last       : Nat := 0
  rx         : Nat := 0
  format     : Nat := 0
  down       : Nat := 0
  ssrcChange : Nat := 0
  ssrc       : Option Nat := none
  deriving DecidableEq, Repr

/-- A copy sampled for skew whose partner has not arrived (R84): receive timestamp in units of 2^-16 ns, and cycle of arrival. -/
structure SkewPend where
  seq   : Nat
  pathB : Bool
  time  : Nat
  at_   : Nat
  deriving DecidableEq, Repr

/-- An open ingress flow (R77, R83, R84, R86). -/
structure RxFlow where
  blk    : RxBlock
  a      : RxPath := {}
  b      : RxPath := {}
  last   : Int := 0
  peak   : Nat := 0
  exceed : Nat := 0
  miss   : Nat := 0
  pend   : List SkewPend := []
  deriving DecidableEq, Repr

/-- An open egress flow (R87, R89, R95): its RTP sequence counter, and the packets and octets sent for RTCP. -/
structure TxFlow where
  blk     : TxBlock
  seq     : Nat
  packets : Nat := 0
  octets  : Nat := 0
  deriving DecidableEq, Repr

/-- The Ethernet ports and both flow tables. -/
structure NetSt where
  ports : List (Nat × PortSt) := []
  rx    : List (Nat × RxFlow) := []
  tx    : List (Nat × TxFlow) := []
  deriving DecidableEq, Repr

/-! ## Staged configuration -/

/-- A staging copy (R296 to R299): the bytes staged since the last commit as (offset, byte), and whether a commit is scheduled. -/
structure Stage where
  bytes     : List (Nat × Byte) := []
  scheduled : Bool := false
  deriving DecidableEq, Repr


/-! ## Radio sample ports and beltpack modem -/

/-- An output of a carrier (R337): I, Q, position in input samples since tick 0, and SETTLING. -/
structure CarOut where
  i   : Int
  q   : Int
  pos : Int
  set : Bool
  deriving DecidableEq, Repr

/-- A carrier's chain (R332 to R339): both phase accumulators, integrators and combs of I and Q, the compensation history newest first, the
first sample of its first window since the last sync reset, the outputs that still carry SETTLING, and a sync reset that is due with its
reset point once that is known. -/
structure Carrier where
  phi     : Word := 0
  phiTx   : Word := 0
  integI  : List Word := []
  integQ  : List Word := []
  combI   : List Word := []
  combQ   : List Word := []
  histI   : List Int := []
  histQ   : List Int := []
  start   : Option Int := none
  left    : Nat := 0
  due     : Bool := false
  at_     : Option Int := none
  deriving DecidableEq, Repr

/-- A radio sample port (R326 to R342): the position of the next input sample once SYSREF has set the numbering, the last input sample,
the carriers, and the outputs that the sample tap collects with the SEQ of its next item. -/
structure RfpPort where
  pos    : Option Int := none
  prevI  : Int := 0
  prevQ  : Int := 0
  cars   : List (Nat × Carrier) := []
  tapCar : Nat := 0
  tap    : List CarOut := []
  tapSeq : Nat := 0
  deriving DecidableEq, Repr

/-- A packet decided for a downlink slot (R360, R361): the entry whose buffer holds its information bytes, none for an EMPTY packet. -/
structure RadioPkt where
  link  : Nat
  typ   : Nat
  ver   : Nat
  pwr   : Nat
  entry : Option (Entry × Bool)
  deriving DecidableEq, Repr

/-- What a detection gives a reception (R366 to R368). -/
structure Detect where
  c    : Nat
  p    : Nat
  rssi : Nat
  fofs : Int
  deriving DecidableEq, Repr

/-- Header fields of a reception that passed its CRC-6 (R352). -/
structure RadioHdr where
  ver : Nat
  typ : Nat
  seq : Nat
  pwr : Nat
  deriving DecidableEq, Repr

/-- Where a link's uplink slot stands (R370): searching, in a header, in a payload, in the decoder pool, or ended with its status. -/
inductive RxStage where
  | search | header | payload | decoding | ended
  deriving DecidableEq, Repr

/-- A link's uplink slot that has delivered no entry yet (R370 to R375): its extended start tick, the link's record at its start, the status so far, the reception in
progress or that ended the slot, the pending candidate, and what the entry carries. `closed` says that the sync window is over. -/
structure RxSlot where
  link   : Nat
  start  : Nat
  rec_   : ModemOp
  stage  : RxStage := .search
  status : Nat := 2
  cur    : Option Detect := none
  cand   : Option Detect := none
  hdr    : Option RadioHdr := none
  closed : Bool := false
  capt   : Bool := false
  false_ : Bool := false
  iter   : Nat := 0
  info   : List Byte := []
  deriving DecidableEq, Repr

/-- Counts of a link (R381) but for SEQ_GAP, RSSI, FOFS and ITER: slots by status, aborts and packets. -/
structure LinkCounts where
  status  : List (Nat × Nat) := []
  falseS  : Nat := 0
  capt    : Nat := 0
  seqGap  : Nat := 0
  rssiMin : Option Nat := none
  iterMax : Nat := 0
  txSent  : Nat := 0
  txEmpty : Nat := 0
  txStale : Nat := 0
  txFormat : Nat := 0
  deriving DecidableEq, Repr

/-- A beltpack link (R348, R361, R380, R381, R483): its record and the one scheduled, the downlink SEQ, the last OK SEQ, the last status, RSSI
and offset, its counts, and what a JOIN agreed: version and capabilities, the VER to send from the next radio frame, and 2-level from the
next slot boundary. -/
structure MLink where
  rec_   : ModemOp := ⟨0, 0, 0, 0, 0, 0, 0, 0, 0, 0, 0⟩
  sched  : Option ModemOp := none
  seq    : Nat := 0
  okSeq  : Option Nat := none
  status : Nat := 0
  rssi   : Nat := 0
  fofs   : Int := 0
  n      : LinkCounts := {}
  agreed : Option (Nat × Nat × Nat) := none
  verNext : Option Nat := none
  twoLvl : Bool := false
  deriving DecidableEq, Repr

/-- The modem engine of a port (R347, R360 to R376): extended start ticks of the slot in progress, of the last slot served and of the slot last
taken for, packets taken with the start of their slot, posts held in order as (node, flag), AGC updates left, the AGC word, TX_AMP and ramp in force, and
the renumbering applied and due, in input samples. `begun` says that the slot in progress has
been transmitted or its reception started, `repeat_` that it is a repeated one. -/
structure MPort where
  slot    : Option Nat := none
  begun   : Bool := false
  repeat_ : Bool := false
  served  : Option Nat := none
  takenAt : Option Nat := none
  taken   : List (Nat × RadioPkt) := []
  posts   : List (Nat × Nat) := []
  updates : Nat := 0
  agc     : Word := 0x28122001
  amp     : Nat := 2730
  ramp    : List Nat := [2, 22, 60, 116, 187, 270, 363, 461, 562, 660, 753, 836, 907, 963, 1001, 1021]
  ofs     : Int := 0
  ofsDue  : Int := 0
  deriving DecidableEq, Repr

/-- A radio job of the LDPC pool (R377, R378): its slot, the cycle of its submission, and the iterations it may run. -/
structure LdpcJob where
  link  : Nat
  start : Nat
  since : Nat
  iters : Nat
  deriving DecidableEq, Repr

/-- The modem engines and the LDPC pool: ports, links, uplink slots not delivered, radio jobs in engines and waiting. -/
structure MdmSt where
  ports : List (Nat × MPort) := []
  links : List (Nat × MLink) := []
  rx    : List RxSlot := []
  run   : List LdpcJob := []
  wait  : List LdpcJob := []
  deriving DecidableEq, Repr

/-! ## MADI -/

/-- A MADI port (R321, R322): K_e, the SEQ of its next item, whether it has locked before, the extended tick of its last transmit
examination, and the sample periods that slips have yet to repeat, less those they have yet to drop. -/
structure MadiPort where
  ke       : Nat := 0
  seq      : Nat := 0
  locked   : Bool := false
  examined : Option Nat := none
  slips    : Int := 0
  deriving DecidableEq, Repr

/-- What goes out beside the samples of a MADI block (R320): channel status marked professional, with a rate and a word length, and the user bits. -/
structure MadiStatus where
  professional : Bool := true
  rate         : Nat := 48000
  wordBits     : Nat := 24
  user         : Nat := 0
  deriving DecidableEq, Repr

/-! ## PACK, flash and capture -/

/-- A host job of PACK (R397, R398): its direction and operands, blocks done, blocks refused or BAD, bytes written in the region in force and in all, and
whether it has stopped. -/
structure PackJob where
  decode  : Bool
  op      : PackOp
  done    : Nat := 0
  misses  : Nat := 0
  used    : Nat := 0
  bytes   : Nat := 0
  stopped : Bool := false
  deriving DecidableEq, Repr

/-- A record of a data page (R406): channel, RAW, RATIO, KEY, the extended tick of KEY, and the block's bytes. -/
structure FRec where
  channel : Nat
  raw     : Bool
  ratio   : Nat
  key     : Nat
  ext     : Nat
  bytes   : List Byte
  deriving DecidableEq, Repr

/-- A data page in staging: the segment it belongs to and its records (R387, R406). -/
structure StagePage where
  seg  : Nat
  recs : List FRec
  deriving DecidableEq, Repr

/-- A page program in progress (R387, R411): the page position it fills. -/
structure Prog where
  page    : Nat
  staging : StagePage
  deriving DecidableEq, Repr

/-- A segment on flash (R404 to R408): ORIG_SEQ, RELOC, its slots as (die, block), data pages by position, positions skipped, slots that take no
more pages, the last data position used, SHORT and STEP, whether it is open, closing or closed and whether the index has it, the slots to
retire and data pages lost to uncorrectable codewords, and whether it is to be relocated, has been, and so only waits for its reclaim. -/
structure Seg where
  orig     : Nat
  reloc    : Bool := false
  slots    : List (Nat × Nat)
  pages    : List (Nat × List FRec) := []
  skipped  : List (Nat × Unit) := []
  dead     : List (Nat × Unit) := []
  d        : Nat := 0
  short    : Bool := false
  step     : Bool := false
  closing  : Bool := false
  closed   : Bool := false
  indexed  : Bool := true
  retire   : List (Nat × Unit) := []
  lost     : List (Nat × Unit) := []
  refresh  : Bool := false
  old      : Bool := false
  deriving DecidableEq, Repr

/-- A die (R401, R410 to R412): its blocks, free, spare and retired, with erase counts, and whether it is READ_ONLY. Blocks in no list belong to
segments, to the journal, or are being erased. -/
structure Die where
  free     : List (Nat × Unit) := []
  spare    : List (Nat × Unit) := []
  retired  : List (Nat × Unit) := []
  erases   : List (Nat × Nat) := []
  readOnly : Bool := false
  deriving DecidableEq, Repr

/-- The flash array (R401, R404 to R409), which keeps its contents through every reset: whether the journal exists, the SEQ of the next
segment, the dies, the segments by SEQ, and erases in progress as (die, block). -/
structure FlashSt where
  journal : Bool := false
  nextSeq : Nat := 0
  dies    : List (Nat × Die) := []
  segs    : List (Nat × Seg) := []
  erasing : List (Nat × Nat) := []
  deriving DecidableEq, Repr

/-- A capture point (R415, R417). -/
structure CapPoint where
  tFrom   : Nat
  tTo     : Nat
  protect : Bool
  lost    : Bool := false
  deriving DecidableEq, Repr

/-- A replay (R420): the channel, the extended tick of its next block, blocks left, its queue, entries pushed, and the segment it reads. -/
structure Replay where
  channel : Nat
  next    : Nat
  left    : Nat
  queue   : Nat
  pushed  : Nat := 0
  seg     : Option Nat := none
  deriving DecidableEq, Repr

/-- PACK (R387 to R399): host jobs by number, and the rest of the capture job it holds while no staging page is free, as its entry, whether
that is on loan, and the next block. -/
structure PackSt where
  jobs : List (Nat × PackJob) := []
  hold : Option (Entry × Bool × Nat) := none
  deriving DecidableEq, Repr

/-- FLC (R400 to R421): the bring-up step in progress, the open segment, the page being filled, full pages and programs in progress, rotation's place
in its order of dies, whether the open segment closes when the held job is placed, capture points, replays, the ranges of ticks reclaimed,
records not copied by relocations, and the latched words of R426. -/
structure FlcSt where
  bring   : Nat := 0
  seg     : Option Nat := none
  page    : Option StagePage := none
  full    : List StagePage := []
  progs   : List Prog := []
  turn    : Nat := 0
  stopping : Bool := false
  points  : List (Nat × CapPoint) := []
  replays : List (Nat × Replay) := []
  gone    : List (Nat × Nat) := []
  lostRecs : Nat := 0
  rebHi   : Word := 0
  oldHi   : Word := 0
  deriving DecidableEq, Repr

/-! ## Winudin links -/

/-- A peer link (R480 to R482): port and address, state 0 WAITING, 1 UP, 2 DOWN, 3 REJECTED, what was agreed, the peer's offer and identity, the SEQ of the
next message, cycles of the last HELLO or KEEPALIVE sent and of the last message from the peer, and messages dropped. -/
structure WlLink where
  port   : Nat
  ip     : Nat
  udp    : Nat
  st     : Nat := 0
  maj    : Nat := 0
  min    : Nat := 0
  cap    : Nat := 0
  peer   : Option WlOffer := none
  seq    : Nat := 0
  sent   : Nat := 0
  heard  : Nat := 0
  drops  : Nat := 0
  deriving DecidableEq, Repr

/-! ## What leaves the device -/

/-- What the device has sent outside, oldest first: the model's own record of its outputs. -/
inductive OutMsg where
  | completion (slot : Nat) (tag : Nat) (op : Nat) (status : Nat) (phase : Bool) (result : List Nat)
  | result (addr : Nat) (words : List Nat)
  | msix (vector : Nat)
  | pps (width : Nat)
  | ethCopy (port : Nat) (copy : Copy) (frame : List Byte)
  | join (port : Nat) (v6 : Bool) (group : Nat) (source : Option Nat)
  | ptp (port : Nat) (clockClass : Nat)
  | rtcp (flow : Nat) (pathB : Bool) (ssrc : Nat) (time : Nat) (ts : Nat) (packets : Nat) (octets : Nat)
  | radio (port : Nat) (carrier : Nat) (tick : Nat) (deviations : List Int) (amplitudes : List Nat)
  | radioLane (port : Nat) (tick : Nat) (ahead : Nat) (samples : List (Int × Int))
  | radioCut (port : Nat)
  | beltAnswer (link : Nat) (control : List Byte)
  | madi (port : Nat) (key : Nat) (words : List Word) (valid : Bool) (status : MadiStatus)
  | flashPage (die : Nat) (block : Nat) (page : Nat) (main : List Byte) (spare : List Byte)
  | flashErase (die : Nat) (block : Nat)
  | peer (link : Nat) (typ : Nat) (maj : Nat) (min : Nat) (seq : Nat) (body : List Byte)
  deriving DecidableEq, Repr

/-! ## The machine -/

/-- The KG7160. `pending` is the queue of waiting commands, first in, first out; `free` counts the free values used, `clk`
the REFCLK_25M cycles since reset, and `out` holds what the device has sent: these four are the model's own. `regs` holds
the BAR0 registers that differ from their reset word, `hbmBad` the HBM words of code that hold an uncorrectable error (R198, R433), `kml` the own state of KML nodes, and
`txHold` the buffers being sent, each with the cycle at which its last sample or symbol is over. -/
structure State where
  pending : List Instr := []
  free    : Nat := 0
  clk     : Nat := 0
  out     : List OutMsg := []
  regs    : List (Nat × Word) := []
  hbm     : List Host.Cell := []
  hbmBad  : List (Nat × Unit) := []
  time    : TimeSt := {}
  mq      : List (Nat × Queue) := []
  seed    : SeedSt := {}
  bull    : BullSt := {}
  gh      : GhSt := {}
  core    : List (Nat × Core) := []
  clu     : List (Nat × Cluster) := []
  pmu     : List (Nat × PmuSet) := []
  scout   : List (Nat × Scout) := []
  ump     : UmpSt := {}
  hif     : HifSt := {}
  glb     : GlbSt
  graphs  : List (Nat × Graph) := []
  net     : NetSt := {}
  cfg     : List (Nat × Stage) := []
  txHold  : List (Nat × Nat) := []
  rfp     : List (Nat × RfpPort) := []
  mdm     : MdmSt := {}
  madi    : List (Nat × MadiPort) := []
  pack    : PackSt := {}
  flc     : FlcSt := {}
  flash   : FlashSt := {}
  peers   : List (Nat × WlLink) := []
  kml     : List (Nat × KmlSt) := []
  deriving DecidableEq, Repr

/-- The machine right after the release of PORST_N: bring-up step 1 (R500), every register at its reset value, no command
waiting. AON_RST_CAUSE names PORST_N (R504). The fuses hold what the device instance fixes. -/
def State.reset : State :=
  { regs := [(0x10004, 1)], glb := { rollback := Config.rollback.val } }

/-- No command of this device stops with a fault: a faulty access completes and is recorded (R466). The type has no
constructor a meaning uses but the one the interface asks a name for. -/
inductive Fault where
  /-- Raised by no command; safe. -/
  | none
  deriving DecidableEq, Repr

/-- Reasons a command is refused. -/
inductive Refusal where
  /-- Raised only by an arm of exec whose command has no meaning yet; safe. -/
  | notModelled (mnemonic : String)
  deriving DecidableEq, Repr

end Sys2Proof.Machine
end

