-- ==== Sys2Proof/Machine/Regs.lean ====
section
/-!
DEFINITION. Regs.lean: the BAR0 address map (R36, R37, R461), the register store and its fields.
-/

namespace Sys2Proof.Machine

/-- The register table of the block that a BAR0 address lies in, and the offset there (R36, R37, R461). -/
def tableAt (a : Nat) : List RegField × Nat :=
  if a < 0x10000 then (glbRegs, a)
  else if a < 0x20000 then (aonRegs, a - 0x10000)
  else if a < 0x30000 then (timeRegs, a - 0x20000)
  else if a < 0x40000 then (umpRegs, a - 0x30000)
  else if a < 0xC0000 then
    let off := a % 0x10000
    if 0xF000 ≤ off then (pmuRegs.filter (fun f => f.off != 8), off - 0xF000)
    else if a < 0x50000 then (bullRegs, off)
    else if a < 0x60000 then (ghRegs, off)
    else if a < 0x70000 then (seedRegs, off)
    else if a < 0x80000 then (mqRegs, off)
    else (netRegs, off)
  else if a < 0xD0000 then (rfpRegs, (a - 0xC0000) % 0x2000)
  else if a < 0xE0000 then
    if 0xDF000 ≤ a then (pmuRegs.filter (fun f => f.off != 8), a - 0xDF000) else (mdmRegs, a - 0xD0000)
  else if a < 0xF0000 then (ldpcRegs, a - 0xE0000)
  else if a < 0x100000 then (packRegs, a - 0xF0000)
  else if a < 0x110000 then
    if 0x10F000 ≤ a then (pmuRegs.filter (fun f => f.off != 8), a - 0x10F000) else (flcRegs, a - 0x100000)
  else if a < 0x120000 then (madiRegs, a - 0x110000)
  else if a < 0x130000 then (hifRegs, a - 0x120000)
  else if 0x200000 ≤ a ∧ a < 0x300000 then
    let off := a % 0x1000
    if off < 0x400 then (pmuRegs, off)
    else if off < 0x800 then (scoutRegs, off)
    else if off < 0xC00 then (coreRegs, off)
    else if a / 0x1000 % 16 = 0 then (cluRegs, off)
    else ([], off)
  else ([], 0)

/-- Whether a field, or an element of its array, lies at an offset. -/
def RegField.covers (f : RegField) (off : Nat) : Bool :=
  if f.stride = 0 then off == f.off
  else decide (f.off ≤ off) && (off - f.off) % f.stride == 0 && decide ((off - f.off) / f.stride < f.count)

/-- The fields of the register at a BAR0 address. -/
def fieldsAt (a : Nat) : List RegField := (tableAt a).1.filter (fun f => f.covers (tableAt a).2)

/-- The MSI-X table and the PBA (R468). -/
def isMsix (a : Nat) : Bool := (decide (0x128000 ≤ a) && decide (a < 0x129000)) || (decide (0x129000 ≤ a) && decide (a < 0x129020))

/-- The ring of a core's Scout (R462). -/
def isScoutRing (a : Nat) : Bool := decide (0x200000 ≤ a) && decide (a < 0x300000) && decide (0x600 ≤ a % 0x1000) && decide (a % 0x1000 < 0x800)

/-- A reserved BAR0 offset (R38). -/
def isReserved (a : Nat) : Bool := (fieldsAt a).isEmpty && !isMsix a && !isScoutRing a

/-- Bits `lo` up of a word, `n` of them. -/
def bits (w : Word) (lo n : Nat) : Nat := w.toNat / 2 ^ lo % 2 ^ n

/-- Bits `lo` up of a word, `n` of them, replaced. -/
def setBits (w : Word) (lo n v : Nat) : Word := BitVec.ofNat 32 (w.toNat - bits w lo n * 2 ^ lo + v % 2 ^ n * 2 ^ lo)

/-- The raised-cosine ramp that MDM_RAMPe holds at reset (R362). -/
def rampTable : List Nat := [2, 22, 60, 116, 187, 270, 363, 461, 562, 660, 753, 836, 907, 963, 1001, 1021]

/-- Reset word of the register at an address (R14): the reset column, NETSEL = 1 in NET2 and NET3 (R97), and the ramp of R362. -/
def resetWord (a : Nat) : Word :=
  let w := (fieldsAt a).foldl (fun w f => setBits w f.lo (f.hi + 1 - f.lo) f.rst) 0
  if a = 0xA0004 ∨ a = 0xB0004 then setBits w 1 1 1
  else if 0xD0040 ≤ a ∧ a < 0xD0080 ∧ a % 4 = 0 then BitVec.ofNat 32 (rampTable.getD ((a - 0xD0040) / 4) 0)
  else w

/-- The stored word of a register. -/
def State.reg (s : State) (a : Nat) : Word := mapGet (resetWord a) a s.regs

/-- Stores the word of a register. -/
def State.setReg (s : State) (a : Nat) (w : Word) : State :=
  { s with regs := if w = resetWord a then mapErase a s.regs else mapInsert a w s.regs }

/-- The value of a field. -/
def State.fld (s : State) (f : Fld) : Nat := bits (s.reg f.addr) f.lo f.w

/-- Sets a field. -/
def State.setFld (s : State) (f : Fld) (v : Nat) : State := s.setReg f.addr (setBits (s.reg f.addr) f.lo f.w v)

/-- Whether a field is nonzero. -/
def State.flag (s : State) (f : Fld) : Bool := s.fld f != 0

/-- Adds to a counter, which wraps at its width (R12 and the chapters' register rules). -/
def State.bump (s : State) (f : Fld) (k : Nat) : State := s.setFld f (s.fld f + k)

/-- One bit of a field. -/
def Fld.bit (f : Fld) (i : Nat) : Fld := ⟨f.addr, f.lo + i, 1⟩

/-- A value read as two's complement of a width. -/
def signedOf (w : Nat) (v : Nat) : Int := if v % 2 ^ w < 2 ^ (w - 1) then (v % 2 ^ w : Nat) else ((v % 2 ^ w : Nat) : Int) - 2 ^ w

/-- Two's complement pattern of an integer. -/
def patternOf (w : Nat) (x : Int) : Nat := (x % (2 ^ w : Nat)).toNat

/-- Clamps an integer into a signed field of a width. -/
def clampS (w : Nat) (x : Int) : Int := max (-(2 ^ (w - 1))) (min (2 ^ (w - 1) - 1) x)

/-- Draws a free value: nothing constrains it. -/
def State.draw (s : State) : Nat × State := (Config.free s.free, { s with free := s.free + 1 })

/-- Appends to what the device has sent. -/
def State.emit (s : State) (m : OutMsg) : State := { s with out := s.out ++ [m] }

/-- A ring of `size` entries is full (R158, R431, R472). -/
def ringFull (head tail size : Nat) : Bool := size == 0 || (head + 1) % size == tail

/-- Bring-up is complete (R500). -/
def State.ready (s : State) : Bool := s.flag fGlbStatReady

/-- The service cores run: they start at bring-up step 6 and stop while they restart (R433, R500). -/
def svcUp (s : State) : Bool := s.ready && !s.glb.svcDown

end Sys2Proof.Machine
end

