-- ==== Sys2Proof/Decode.lean ====
section
/-!
DEFINITION. Decode.lean: the instruction words of a media core (R247 to R268), and the commands that words spell: the table of operations and events
gives no row any bits, so no word spells a command.
-/

namespace Sys2Proof

open Sys2Proof.Machine

/-- `n` bits of a word from bit `lo`. -/
def wordBits (w lo n : Nat) : Nat := w / 2 ^ lo % 2 ^ n

/-- `n` bits of a word from bit `lo`, read as signed. -/
def wordSigned (w lo n : Nat) : Int := signedOf n (wordBits w lo n)

/-- An instruction where its encoding is legal. -/
def legal (ok : Bool) (i : Instr) : Option Instr := if ok then some i else none

/-- The fields of the R form (R247). -/
structure RForm where
  s : Bool
  q : Bool
  d : Nat
  x : Nat
  y : Nat
  f : Nat
  deriving DecidableEq, Repr

/-- The R form of a word (R247). -/
def rForm (w : Nat) : RForm :=
  { s := w.testBit 25, q := w.testBit 24, d := wordBits w 19 5, x := wordBits w 14 5, y := wordBits w 9 5, f := wordBits w 0 9 }

/-- S and Q are 0 (R250). -/
def RForm.plain (r : RForm) : Bool := !r.s && !r.q

/-- The functions of SALU (R252). -/
def saluFn (k f : Nat) (o : SaluOp) : Option Instr :=
  match f with
  | 0x00 => some (.add k o)
  | 0x01 => some (.sub k o)
  | 0x02 => some (.addu k o)
  | 0x03 => some (.subu k o)
  | 0x04 => some (.neg k o)
  | 0x05 => some (.abs k o)
  | 0x06 => some (.min k o)
  | 0x07 => some (.max k o)
  | 0x08 => some (.and_ k o)
  | 0x09 => some (.or_ k o)
  | 0x0A => some (.xor_ k o)
  | 0x0B => some (.andn k o)
  | 0x0C => some (.shl k o)
  | 0x0D => some (.shr k o)
  | 0x0E => some (.sar k o)
  | 0x0F => some (.srr k o)
  | 0x10 => some (.mul k o)
  | 0x11 => some (.mulu k o)
  | 0x14 => some (.mov k o)
  | 0x18 => some (.clz k o)
  | 0x19 => some (.bfx k o)
  | _ => none

/-- SALU (R252): F[8:7] and Q must be 0. -/
def saluWord (k : Nat) (r : RForm) : Option Instr :=
  if r.q || decide (128 ≤ r.f) then none else saluFn k (r.f % 64) { sat := r.s, d := r.d, x := r.x, y := r.y, setf := r.f.testBit 6 }

/-- SHI (R253): F[8], Y and Q must be 0. -/
def shiWord (k : Nat) (r : RForm) : Option Instr :=
  let o : ShiOp := { sat := r.s, d := r.d, x := r.x, cnt := r.f % 32 }
  if r.q || r.y != 0 then none
  else match r.f / 32 with
    | 0 => some (.shiShl k o)
    | 1 => some (.shiShr k o)
    | 2 => some (.shiSar k o)
    | 3 => some (.shiSrr k o)
    | _ => none

/-- The functions of VALU that allow either lane width (R255). -/
def valuWide (k f : Nat) (o : ValuOp) : Option Instr :=
  match f with
  | 0x00 => some (.vadd k o)
  | 0x01 => some (.vsub k o)
  | 0x02 => some (.vneg k o)
  | 0x03 => some (.vabs k o)
  | 0x04 => some (.vmin k o)
  | 0x05 => some (.vmax k o)
  | 0x0C => some (.vshl k o)
  | 0x0E => some (.vsar k o)
  | 0x0F => some (.vsrr k o)
  | 0x10 => legal (vcmpOk o) (.vcmpeq k o)
  | 0x11 => legal (vcmpOk o) (.vcmplt k o)
  | 0x12 => legal (vcmpOk o) (.vcmple k o)
  | _ => none

/-- The functions of VALU that require W = 0; VGET and VPUT also require Q = 0 and a lane from 0 to 7 (R255). -/
def valuNarrow (k f : Nat) (o : ValuOp) : Option Instr :=
  match f with
  | 0x08 => some (.vand k o)
  | 0x09 => some (.vor k o)
  | 0x0A => some (.vxor k o)
  | 0x0D => some (.vshr k o)
  | 0x14 => some (.vsel k o)
  | 0x15 => some (.vmov k o)
  | 0x18 => some (.vbcst k o)
  | 0x19 => legal (!o.q && vlaneOk o.d o.x o.y) (.vget k o.d o.x o.y)
  | 0x1A => legal (!o.q && vlaneOk o.d o.x o.y) (.vput k o.d o.x o.y)
  | _ => none

/-- VALU (R255): F[8:7] must be 0. -/
def valuWord (k : Nat) (r : RForm) : Option Instr :=
  let o : ValuOp := { sat := r.s, q := r.q, w24 := r.f.testBit 6, d := r.d, x := r.x, y := r.y }
  if 128 ≤ r.f then none
  else match valuWide k (r.f % 64) o with
    | some i => some i
    | none => if o.w24 then none else valuNarrow k (r.f % 64) o

/-- VSHI (R255): the count in F[4:0], the kind in F[7:5], W in F[8]; Y must be 0. -/
def vshiWord (k : Nat) (r : RForm) : Option Instr :=
  let o : ValuOp := { sat := r.s, q := r.q, w24 := r.f.testBit 8, d := r.d, x := r.x, y := r.f % 32 }
  if r.y != 0 then none
  else match r.f / 32 % 8 with
    | 0 => some (.vshiVshl k o)
    | 1 => legal (!o.w24) (.vshiVshr k o)
    | 2 => some (.vshiVsar k o)
    | 3 => some (.vshiVsrr k o)
    | _ => none

/-- The operands of MPY, MAC and MSU (R256): F[3] broadcasts lane F[2:0] of V[Y]. -/
def macFields (r : RForm) : MacOp :=
  { sat := r.s, q := r.q, d := r.d, x := r.x, y := r.y, lane := if r.f.testBit 3 then some (r.f % 8) else none }

/-- AOP (R256). Without F[3], F[2:0] of MPY, MAC and MSU choose nothing; here F[6:4] names a lane where the row has one. -/
def aopWord (k : Nat) (r : RForm) : Option Instr :=
  let o : AopOp := { sat := r.s, q := r.q, d := r.d, x := r.x, y := r.y }
  let n := r.f / 16 % 8
  match r.f % 8 with
  | 0 => legal (decide (r.f < 8) && aopOk o) (.aadd k o)
  | 1 => legal (decide (r.f < 8) && aopOk o) (.asub k o)
  | 2 => legal (decide (r.f < 8) && !r.s && regA r.d && regA r.x) (.amov k r.q r.d r.x)
  | 3 => legal (decide (r.f < 8) && !r.s && r.x == 0 && r.y == 0 && regA r.d) (.aclr k r.q r.d)
  | 4 => legal (decide (r.f < 128) && r.plain && regA r.x) (.aget k r.d r.x n (r.f.testBit 3))
  | 5 => legal (decide (r.f < 128) && !r.f.testBit 3 && r.plain && regA r.d) (.aput k r.d r.x r.y n)
  | _ => none

/-- EXT (R257). -/
def extWord (k : Nat) (r : RForm) : Option Instr :=
  let sh := signedOf 6 (r.f % 64)
  let toS := r.f.testBit 7
  legal (decide (r.f < 256) && r.y == 0 && extOk r.q r.d r.x sh toS) (.ext k r.s r.q r.d r.x sh (r.f.testBit 6) toS)

/-- ASH (R257). -/
def ashWord (k : Nat) (r : RForm) : Option Instr :=
  let n := r.f % 64
  let ok := r.y == 0 && ashOk r.d r.x n
  match r.f / 64 with
  | 0 => legal (ok && !r.s) (.asr k r.q r.d r.x n)
  | 1 => legal (ok && !r.s) (.asrr k r.q r.d r.x n)
  | 2 => legal ok (.asl k r.s r.q r.d r.x n)
  | _ => none

/-- The address operand of the M form (R247, R258). -/
def memFields (w : Nat) : MemOp := { p := wordBits w 15 4, mode := wordBits w 9 2, disp := wordSigned w 0 9, n := wordBits w 11 4 }

/-- Single loads and stores (R258): S must be 0, and Q is 1 in LDV and STV only. -/
def memWord (k op w : Nat) : Option Instr :=
  let d := wordBits w 19 5
  let a := memFields w
  let q := w.testBit 24
  if w.testBit 25 || !memOk a || q != (op == 0x1A || op == 0x1B) then none
  else match op with
    | 0x10 => some (.ldb k d a)
    | 0x11 => some (.ldbu k d a)
    | 0x12 => some (.ldh k d a)
    | 0x13 => some (.ldhu k d a)
    | 0x14 => some (.ldw k d a)
    | 0x15 => some (.stb k d a)
    | 0x16 => some (.sth k d a)
    | 0x17 => some (.stw k d a)
    | 0x18 => some (.ldwv k d a)
    | 0x19 => some (.stwv k d a)
    | 0x1A => some (.ldv k d a)
    | 0x1B => some (.stv k d a)
    | 0x1C => some (.ldpn k d a)
    | 0x1D => some (.stpn k d a)
    | 0x1E => legal (regBl d) (.ldbl k d a)
    | _ => legal (regBl d) (.stbl k d a)

/-- Dual loads (R259): Q is 0 in LDDW and 1 in LDDV. -/
def dualWord (k : Nat) (vector : Bool) (w : Nat) : Option Instr :=
  let d1 := wordBits w 19 5
  let d2 := wordBits w 9 5
  let a : DualOp := { p := wordBits w 16 3, mode := wordBits w 14 2 }
  let b : DualOp := { p := wordBits w 6 3, mode := wordBits w 4 2 }
  legal (!w.testBit 25 && w.testBit 24 == vector && wordBits w 0 4 == 0 && dualOk d1 a d2 b)
    (if vector then .lddv k d1 a d2 b else .lddw k d1 a d2 b)

/-- MOVX (R268): F[8:3] must be 0. -/
def movxWord (k : Nat) (r : RForm) : Option Instr :=
  if !r.plain then none
  else match r.f with
    | 0 => some (.movxFromPn k r.d r.x)
    | 1 => some (.movxToPn k r.d r.x)
    | 2 => legal (regBl r.x) (.movxFromBl k r.d r.x)
    | 3 => legal (regBl r.d) (.movxToBl k r.d r.x)
    | 4 => some (.movxFromCf k r.d)
    | 5 => some (.movxToCf k r.x)
    | 6 => some (.movxFromSt k r.d)
    | 7 => some (.movxFromSf k r.d)
    | _ => none

/-- The queue, Seedbed and move instructions, OP 0x22 to 0x29 (R265, R267). -/
def bufferWord (k op : Nat) (r : RForm) : Option Instr :=
  let yf := r.y == 0 && r.f == 0
  match op with
  | 0x22 => legal (r.plain && decide (r.f < 2)) (if r.f = 1 then .xmovToBuffer k r.d r.x r.y else .xmovToLocal k r.d r.x r.y)
  | 0x23 => legal (r.plain && r.d == 0 && r.x == 0 && yf) (.xwait k)
  | 0x24 => legal (r.plain && yf) (.balloc k r.d r.x)
  | 0x25 => legal (r.plain && yf) (.bfree k r.d r.x)
  | 0x26 => legal (r.plain && r.f == 0) (.bgive k r.d r.x r.y)
  | 0x27 => legal (!r.s && r.q && r.f == 0) (.mqpush k r.d r.x r.y)
  | 0x28 => legal (!r.s && r.q && decide (r.f < 2)) (if r.f = 1 then .mqpopKeyed k r.d r.x r.y else .mqpop k r.d r.x)
  | 0x29 => legal (r.plain && yf) (.mqmark k r.d r.x)
  | _ => none

/-- The Bullpen instructions, OP 0x2A to 0x2F (R264). -/
def bullWord (k op : Nat) (r : RForm) : Option Instr :=
  let yf := r.y == 0 && r.f == 0
  match op with
  | 0x2A => legal (r.plain && r.d == 0 && r.x == 0 && r.y == 0 && decide (r.f < 16)) (.getw k r.f)
  | 0x2B => legal (r.plain && r.d == 0 && r.y == 0) (.done k (r.f % 256) (if r.f.testBit 8 then some r.x else none))
  | 0x2C => legal r.plain (.sig k r.d r.x r.y)
  | 0x2D => legal (r.plain && decide (r.f < 32)) (.sigd k r.d r.x r.y (r.f % 16) (r.f.testBit 4))
  | 0x2E => legal (r.plain && yf) (.ncan k r.d r.x)
  | 0x2F => legal (r.plain && yf) (.arm k r.d r.x)
  | _ => none

/-- Transfers, counters, moves of special registers and system instructions, OP 0x30 to 0x3F (R260, R261, R268). -/
def controlWord (k op w : Nat) : Option Instr :=
  let r := rForm w
  match op with
  | 0x30 => legal r.plain (.bra k (wordSigned w 0 24))
  | 0x31 => legal r.plain (.call k (wordSigned w 0 24))
  | 0x32 => legal (r.plain && r.y == 0 && decide (r.f < 2)) (.jr k (r.f == 1) r.d r.x)
  | 0x33 => legal (r.plain && decide (r.d < 15)) (.bcc k r.d (wordSigned w 0 19))
  | 0x34 => legal (r.plain && r.d == 0 && wordBits w 12 2 == 0) (.loopr k r.x (wordBits w 0 12 + 1))
  | 0x35 => legal (r.plain && decide (r.x < 6) && r.f == 0) (.rdpmc k r.d r.x r.y)
  | 0x36 => legal (r.plain && r.x == 0 && r.f == 0) (.rdcyc k r.d r.y)
  | 0x37 => movxWord k r
  | 0x38 => if r.f = 0 then legal (r.plain && r.d == 0 && r.x == 0 && r.y == 0) (.nop k)
            else legal (r.plain && r.d == 0 && r.y == 0 && r.f == 1) (.sfclr k r.x)
  | _ => legal (decide (0x3C ≤ op)) (.loopi k (wordBits w 10 16) ((op % 4) * 1024 + wordBits w 0 10 + 1))

/-- The instruction that a 32-bit word is on core `k`, or none where R248 makes it ILLEGAL; OP selects the row and column of R251. -/
def coreInstr (k w : Nat) : Option Instr :=
  let op := wordBits w 26 6
  let r := rForm w
  match op with
  | 0x00 => none
  | 0x01 => saluWord k r
  | 0x02 => legal (!r.q) (.addi k r.s r.d r.x (wordSigned w 0 14))
  | 0x03 => shiWord k r
  | 0x04 => legal r.plain (.movl k r.d (wordSigned w 0 19))
  | 0x05 => legal (r.plain && wordBits w 16 3 == 0) (.movh k r.d (wordBits w 0 16))
  | 0x06 => legal (r.plain && r.d == 0) (.cmpi k r.x (wordSigned w 0 14))
  | 0x07 => valuWord k r
  | 0x08 => vshiWord k r
  | 0x09 => legal (decide (r.f < 16) && macOk (macFields r)) (.mpy k (macFields r))
  | 0x0A => legal (decide (r.f < 16) && macOk (macFields r)) (.mac k (macFields r))
  | 0x0B => legal (decide (r.f < 16) && macOk (macFields r)) (.msu k (macFields r))
  | 0x0C => legal (r.y == 0 && regA r.d) (.adep k r.s r.q r.d r.x)
  | 0x0D => aopWord k r
  | 0x0E => extWord k r
  | 0x0F => ashWord k r
  | 0x20 => dualWord k false w
  | 0x21 => dualWord k true w
  | op =>
    if op < 0x20 then memWord k op w
    else if op < 0x2A then bufferWord k op r
    else if op < 0x30 then bullWord k op r
    else controlWord k op w

/-- The command that a word of `nbits` bits spells. -/
def decodeTableWord (_nbits _w : Nat) : Option Instr := none

end Sys2Proof
end

