-- ==== Sys2Proof/Machine/Irq.lean ====
section
/-!
DEFINITION. Irq.lean: interrupt sources, the MSI-X messages they send, and sticky bits (R450, R468).
-/

namespace Sys2Proof.Machine

/-- The PMU interrupt of a counter set (R450). -/
def pmuLine (s : State) (set : Nat) : Bool :=
  (s.reg (pmuBase set + 0xC) &&& s.reg (pmuBase set + 0x10)) != 0

/-- INT_STAT under its INT_EN, at two offsets of a block. -/
def intLine (s : State) (st en : Nat) : Bool := (s.reg st &&& s.reg en) != 0

/-- Whether an interrupt source is asserted (R468). -/
def irqLine (s : State) (src : Nat) : Bool :=
  match src with
  | 0x00 => s.flag fHifStatDevrst
  | 0x01 => s.flag fAonMonStat
  | 0x02 => s.flag fTimeStatStepRefused || s.flag fTimeStatPathStep
  | 0x03 => intLine s 0x30008 0x3000C
  | 0x04 => intLine s 0x4000C 0x40010 || pmuLine s 256
  | 0x05 => intLine s 0x5000C 0x50010 || pmuLine s 257
  | 0x06 => intLine s 0x6002C 0x60030 || pmuLine s 258
  | 0x07 => intLine s 0x70024 0x70028 || pmuLine s 259
  | 0x08 => s.flag (fNetStatLinkLost 0) || pmuLine s 260
  | 0x09 => s.flag (fNetStatLinkLost 1) || pmuLine s 261
  | 0x0A => s.flag (fNetStatLinkLost 2) || pmuLine s 262
  | 0x0B => s.flag (fNetStatLinkLost 3) || pmuLine s 263
  | 0x0C => (List.range 8).any (fun n => ((s.reg (0xC0008 + 0x2000 * n) >>> 16) &&& s.reg (0xC0020 + 0x2000 * n) &&& 7) != 0)
  | 0x0D => intLine s 0xD0008 0xD000C || pmuLine s 264
  | 0x0F => intLine s 0xF0014 0xF0018
  | 0x10 => intLine s 0x10000C 0x100010 || pmuLine s 265
  | 0x11 => intLine s 0x110004 0x110008
  | 0x12 => intLine s 0x12000C 0x120010
  | _ =>
    if 0x20 ≤ src ∧ src < 0x30 then (List.range 16).any (fun m => pmuLine s (16 * (src - 0x20) + m))
    else false

/-- Sends the message of a source: to the vector that HIF_MSIX_MAP names, or into the PBA while the vector is masked
(R468). -/
def sendMsi (src : Nat) (s : State) : State :=
  if s.flag (fHifMsixMapEn src) then
    let v := s.fld (fHifMsixMapVector src)
    if (mapGet ({} : MsixEnt) v s.hif.msix).ctl.getLsbD 0 then
      { s with hif := { s.hif with pba := mapInsert v () s.hif.pba } }
    else s.emit (.msix v)
  else s

/-- Sends the message of a source that went from deasserted to asserted between two states (R468). -/
def notify (src : Nat) (old new : State) : State :=
  if !irqLine old src && irqLine new src then sendMsi src new else new

/-- Sets a field and signals the source it may assert. -/
def raiseFld (src : Nat) (f : Fld) (s : State) : State := notify src s (s.setFld f 1)

end Sys2Proof.Machine
end

