-- ==== Sys2Proof/Machine/Cores.lean ====
section
/-!
DEFINITION. Cores.lean: media cores and clusters as maps, and which cores of a cluster work (R219).
-/

namespace Sys2Proof.Machine

/-- A media core, k = 16 × cluster + core. -/
def State.cor (s : State) (k : Nat) : Core := mapGet {} k s.core

/-- A cluster. -/
def State.cl (s : State) (n : Nat) : Cluster := mapGet {} n s.clu

/-- Changes a core. -/
def State.updCore (s : State) (k : Nat) (f : Core → Core) : State := { s with core := mapUpd {} k f s.core }

/-- Changes a cluster. -/
def State.updClu (s : State) (n : Nat) (f : Cluster → Cluster) : State := { s with clu := mapUpd {} n f s.clu }

/-- Cores of a cluster that are not retired, lowest first (R219). -/
def notRetired (s : State) (n : Nat) : List Nat :=
  ((List.range 16).map (fun m => 16 * n + m)).filter (fun k => decide ((s.cor k).mode ≠ .retired))

/-- Spares that a cluster holds: min(COUNT, N − 1), and 0 when N = 0 (R219). -/
def sparesHeld (s : State) (n : Nat) : Nat := min (s.fld (fCluSparesCount n)) ((notRetired s n).length - 1)

/-- The spares: the HELD highest-numbered cores that are not retired (R219). -/
def spareCores (s : State) (n : Nat) : List Nat := (notRetired s n).drop ((notRetired s n).length - sparesHeld s n)

/-- Working cores of a cluster, lowest first (R219). -/
def workingCores (s : State) (n : Nat) : List Nat := (notRetired s n).take ((notRetired s n).length - sparesHeld s n)

/-- Whether a core is working (R219). -/
def isWorking (s : State) (k : Nat) : Bool := (workingCores s (k / 16)).contains k

/-- Whether a core is in the state SPARE: a spare that runs no node (R219, R221). -/
def inSpare (s : State) (k : Nat) : Bool :=
  (spareCores s (k / 16)).contains k && (decide ((s.cor k).mode = .wait) || decide ((s.cor k).mode = .off))

/-- Whether a core holds its counters: retired or spare (R449). -/
def countersHeld (s : State) (k : Nat) : Bool := decide ((s.cor k).mode = .retired) || inSpare s k

end Sys2Proof.Machine
end

