-- ==== Sys2Proof/Machine/Clock.lean ====
section
/-!
DEFINITION. Clock.lean: the time counter and media ticks (R39 to R44), the passing of REFCLK_25M cycles, and the counters that
count cycles (R448 to R451).
-/

namespace Sys2Proof.Machine

/-- One nanosecond in units of the counter, 2^-48 ns (R40). -/
abbrev nsUnit : Nat := 281474976710656

/-- One second in units of the counter. -/
abbrev secUnit : Nat := 281474976710656000000000

/-- TIME_SEC (R39, R40). -/
def timeSec (t : Nat) : Nat := t / secUnit % 2 ^ 48

/-- TIME_NS (R39). -/
def timeNs (t : Nat) : Nat := t / nsUnit % 1000000000

/-- TIME_FRAC, the upper 16 of the 48 fraction bits (R40). -/
def timeFrac (t : Nat) : Nat := t / 2 ^ 32 % 65536

/-- The extended tick count T = floor(t × 48,000), from the counter as its fields show it (R43). -/
def tickOf (t : Nat) : Nat := t / 2 ^ 32 * 48000 / (65536 * 1000000000)

/-- The extended tick count T of a state (R43). -/
def State.tick (s : State) : Nat := tickOf s.time.t

/-- MTC = T mod 2^32 (R43). -/
def State.mtc (s : State) : Nat := s.tick % W32

/-- Signed difference of two tick values (R44). -/
def tickDiff (a b : Nat) : Int := signedOf 32 ((a % W32 + W32 - b % W32) % W32)

/-- The extended tick nearest the current one with given low 32 bits (R44, R46, R89). -/
def nearTick (s : State) (k : Nat) : Int := (s.tick : Int) + tickDiff k s.mtc

/-- `a` is a valid future of `b` (R44). -/
def after (a b : Nat) : Bool := decide (0 < tickDiff a b)

/-- The extended tick that a 32-bit tick value ahead of now names (R44). -/
def extend (now due : Nat) : Nat := now + (tickDiff due now).toNat

/-- First counter value whose tick is `T` (R43). -/
def timeOfTick (T : Nat) : Nat := (T * (65536 * 1000000000) + 47999) / 48000 * 2 ^ 32

/-- Increment of the counter in one REFCLK_25M cycle (R40). -/
def timeInc (rate : Int) : Nat := (40 * (nsUnit : Int) + 40 * rate).toNat

/-- Core clock cycles in one REFCLK_25M cycle of 40 ns: 1.6 GHz on grade A, 1.4 GHz on grade B (R1). -/
def coreCycles : Nat := if Config.gradeB then 56 else 64

/-- Core clock cycles that a cluster's clock has run (R448). -/
def cluCycles (s : State) (n : Nat) : Nat :=
  let c := mapGet ({} : Cluster) n s.clu
  match c.pwr with
  | .run | .idle => c.cyc + (s.clk - c.cycAt) * coreCycles
  | _ => c.cyc

/-- Cycles counted by the clock of a counter set (R448). -/
def setCycles (s : State) (set : Nat) : Nat := if set < 256 then cluCycles s (set / 16) else s.clk * 40

/-- CYCLE of a counter set (R448). A retired or spare core holds its counters (R449). -/
def cycleOf (s : State) (set : Nat) : Nat :=
  let p := mapGet ({} : PmuSet) set s.pmu
  if set < 256 ∧ countersHeld s set then p.cycle % W64
  else (p.cycle + (setCycles s set - p.mark)) % W64

/-- The interrupt source that a counter set's PMU joins (R468). -/
def pmuSource (set : Nat) : Nat :=
  if set < 256 then 0x20 + set / 16 else if set < 264 then set - 252 else if set = 264 then 0x0D else 0x10

/-- Adds `k` events to PMC `i` of a set; a wrap sets OVF and its interrupt (R450). -/
def pmcAdd (set i k : Nat) (s : State) : State :=
  let p := mapGet ({} : PmuSet) set s.pmu
  let v := mapGet 0 i p.pmc + k
  let s := { s with pmu := mapInsert set { p with pmc := mapInsert i (v % 2 ^ 48) p.pmc } s.pmu }
  if 2 ^ 48 ≤ v then raiseFld (pmuSource set) ((fPmuOvfPmc set).bit i) s else s

/-- Counts `k` occurrences of an event in every enabled PMC of a set that selects it (R448, R451, R452). -/
def pmuEvent (set ev k : Nat) (s : State) : State :=
  if k = 0 then s else
  (List.range 6).foldl (fun s i =>
    if s.flag (fPmuEvselEn set i) && s.fld (fPmuEvselEvent set i) == ev then pmcAdd set i k s else s) s

/-- Brings the CYCLE of a listed set up to now and sets OVF where it wraps (R450). -/
def pmuSync (set : Nat) (s : State) : State :=
  let p := mapGet ({} : PmuSet) set s.pmu
  let held := decide (set < 256) && countersHeld s set
  let d := if held then 0 else setCycles s set - p.mark
  let s' := { s with pmu := mapInsert set { p with cycle := (p.cycle + d) % W64, mark := setCycles s set } s.pmu }
  if W64 ≤ p.cycle + d then raiseFld (pmuSource set) (fPmuOvfCycle set) s' else s'

/-- Cycle events of a listed core's set while `k` core cycles pass (R451). -/
def pmuCoreTime (set k : Nat) (s : State) : State :=
  if set < 256 then
    let c := mapGet ({} : Core) set s.core
    match (mapGet ({} : Cluster) (set / 16) s.clu).pwr with
    | .run | .idle =>
      match c.mode with
      | .run => pmuEvent set 0x032 (match c.stall with | .xwait | .done _ => k | _ => 0) (pmuEvent set 0x002 k s)
      | .wait => if inSpare s set then s else pmuEvent set 0x003 k s
      | .doneWait => pmuEvent set 0x004 k s
      | _ => s
    | _ => s
  else s

/-- Cycle counters of Bullpen and Greenhouse while `n` REFCLK_25M cycles pass: commits that stall (R146), the beat poster
(R159), page-ins that wait (R173), and media FIFOs above half full (R452). -/
def stallTime (n : Nat) (s : State) : State :=
  let stalled := (s.core.filter (fun c => c.2.mode == .doneWait && !c.2.commit.isEmpty)).length
  let s := if stalled = 0 then s else s.bump fBullDoneStallCycles (40 * n * stalled)
  let s := match s.bull.poster with
    | g :: _ => s.bump (fBullBeatStallCycles g) (40 * n)
    | [] => s
  let s := if s.gh.pageIns.any (fun p => p.2.slot.isNone) then s.bump fGhNoslotCycles (40 * n) else s
  let s := if s.pack.hold.isSome then s.bump fPackCapWaitCycles (40 * n) else s
  s.net.ports.foldl (fun s p =>
    if 131072 < (p.2.fifo.map (fun m => m.bytes)).foldl (· + ·) 0 then pmuEvent (260 + p.1) 0x503 (40 * n) s else s) s

/-- `n` cycles of REFCLK_25M pass: the counter advances (R40), and every counter of cycles with it. -/
def advance (n : Nat) (s : State) : State :=
  if n = 0 then s else
  let s := s.pmu.foldl (fun s p => pmuCoreTime p.1 (n * coreCycles) s) (stallTime n s)
  let s := { s with clk := s.clk + n, time := { s.time with t := s.time.t + n * timeInc s.time.rate } }
  s.pmu.foldl (fun s p => pmuSync p.1 s) s

/-- Lets time run until the counter reaches a value; nothing passes where it is already there (DESIGN CHOICE, assumption 5: a
timed event that is commanded first lets the counter reach its instant). -/
def advanceTo (target : Nat) (s : State) : State :=
  let inc := timeInc s.time.rate
  advance ((target - s.time.t + inc - 1) / inc) s

/-- Lets time run until `cycles` REFCLK_25M cycles after cycle `since`. -/
def advanceSince (since cycles : Nat) (s : State) : State := advance (since + cycles - s.clk) s

/-- REFCLK_25M cycles in a time given in ns, rounded up to whole cycles. -/
def nsCycles (ns : Nat) : Nat := (ns + 39) / 40

end Sys2Proof.Machine
end

