-- ==== Sys2Proof/Machine/Reset.lean ====
section
/-!
DEFINITION. Reset.lean: the resets and what each keeps (R41, R68, R434, R442, R474, R488, R499, R501).
-/

namespace Sys2Proof.Machine

/-- The TIME registers that SYSRST_N and a FATAL reset leave alone: all but the transmit timestamp queues' (R68). -/
def keptTimeReg (a : Nat) : Bool := decide (0x20000 ≤ a) && decide (a < 0x20100)

/-- Registers that a reset other than PORST_N keeps (R68, R434, R442, R504), and those that only a FATAL reset keeps (R488). -/
def keptReg (fatal : Bool) (a : Nat) : Bool :=
  keptTimeReg a || a == 0x10600 || a == 0x10604 || a == 0x10608 || a == 0x1000C ||
  (fatal && (decide (0x120100 ≤ a) && decide (a < 0x1201C0) || a == 0x120008 || a == 0x1200A0))

/-- TIME after SYSRST_N or a FATAL reset: snapshot and shadow words and the timestamp queues return to reset (R68). An authorisation that waits is
dropped with its instruction, which gets no completion (R474; DESIGN CHOICE, assumption 41). -/
def keptTime (t : TimeSt) : TimeSt :=
  { t with auth := none, snapNs := 0, snapSecL := 0, snapSecH := 0, snapMtc := 0, rateHi := 0, ppsSecLat := 0, tsq := [] }

/-- Cause of the last reset (R504). -/
inductive RstCause where
  | sysrst | glb | fatal
  deriving DecidableEq, Repr

/-- Bit of AON_RST_CAUSE (R504). -/
def RstCause.mask : RstCause → Nat
  | .sysrst => 2
  | .glb => 4
  | .fatal => 8

/-- SYSRST_N, GLB_RST.SYS and the FATAL reset: everything is lost but what R499 keeps, and bring-up restarts at step 2
(R500). `boot` is the boot source in force: BOOT_SEL sampled, or after a FATAL event that of the last boot. -/
def warmReset (cause : RstCause) (boot : Bool) (s : State) : State :=
  let fatal := decide (cause = .fatal)
  let n := s.fld fAonRstCountCount
  let before := !s.ready
  let restarts := if fatal && before then s.glb.restarts + 1 else 0
  let base : State :=
    { pending := s.pending, free := s.free, clk := s.clk, out := s.out
      regs := s.regs.filter (fun r => keptReg fatal r.1)
      time := keptTime s.time
      flash := s.flash
      hif := if fatal then { msix := s.hif.msix, pba := s.hif.pba } else {}
      glb := { restarts := restarts, tripped := s.glb.tripped, refs := s.glb.refs, bootPin := s.glb.bootPin
               rollback := s.glb.rollback, revoked := s.glb.revoked } }
  let base := base.setFld fAonRstCause cause.mask
  let base := base.setFld fAonRstCountCount (min (n + 1) 65535)
  let base := base.setFld fGlbStatStep 2
  let base := base.setFld fGlbStatBootSel (if boot then 1 else 0)
  let base := base.setFld fGlbPllStatLock (s.fld fGlbPllStatLock % 64 / 32 * 32)
  let base := if fatal && decide (3 ≤ restarts) then base.setFld fGlbStatFail 3 else base
  if fatal then raiseFld 0x00 fHifStatDevrst base else base

/-- PORST_N: everything is lost but AON_TRIP and the fuses, and bring-up restarts at step 1 (R41, R442, R499, R500).
THERMTRIP_N is released when TJ is below 110 °C (R442). -/
def coldReset (bootPin cool : Bool) (s : State) : State :=
  { pending := s.pending, free := s.free, clk := s.clk, out := s.out
    regs := (0x10004, 1) :: s.regs.filter (fun r => r.1 == 0x10608)
    flash := s.flash
    glb := { tripped := s.glb.tripped && !cool, bootPin := bootPin, rollback := s.glb.rollback, revoked := s.glb.revoked } }

/-- A FATAL event: cause, source and MTC go into AON, and the reset of R434 follows (R434, R442, R501). -/
def fatalReset (cause source : Nat) (s : State) : State :=
  let mtc := s.mtc
  let src := s.flag fHifBootStatSrc
  let s := s.setFld fAonFatalCause cause
  let s := s.setFld fAonFatalSource source
  let s := s.setFld fAonFatalValid 1
  let s := s.setFld fAonFatalMtcMtc mtc
  warmReset .fatal src s

end Sys2Proof.Machine
end

