-- ==== Sys2Proof/Machine/Ump.lean ====
section
/-!
DEFINITION. Ump.lean: Umpire's records, their ring, and merging of CORRECTED events (R429 to R431).
-/

namespace Sys2Proof.Machine

/-- Writes bytes into HBM. -/
def State.hbmWrite (s : State) (a : Nat) (bs : List Byte) : State := { s with hbm := memWriteList s.hbm a bs }

/-- The fields of an Umpire event (R430). -/
structure UmpEv where
  cls     : Nat
  core    : Nat := 0
  source  : Nat
  cause   : Nat
  strike  : Bool := false
  retired : Bool := false
  suspect : Bool := false
  node    : Nat := 0
  acct    : Nat := 0
  detail  : Nat := 0
  deriving DecidableEq, Repr

/-- 1 for a set flag. -/
def bitOf (b : Bool) : Nat := if b then 1 else 0

/-- A 32-byte Umpire record (R430). -/
def umpBytes (e : UmpEv) (seq mtc rep : Nat) : List Byte :=
  leBytes 4 seq ++
  leBytes 4 (e.cls % 4 + e.core % 16 * 16 + e.source % 256 * 256 + e.cause % 256 * 65536 +
    bitOf e.strike * 2 ^ 24 + bitOf e.retired * 2 ^ 25 + bitOf e.suspect * 2 ^ 26) ++
  leBytes 4 (e.node % 2 ^ 18 + e.acct % 4096 * 2 ^ 20) ++ leBytes 4 mtc ++ leBytes 8 e.detail ++ leBytes 4 rep ++ leBytes 4 0

/-- Writes a record at the head of the Umpire ring, or discards and counts it where the ring is full (R431). -/
def umpWrite (e : UmpEv) (seq mtc rep : Nat) (s : State) : State :=
  let size := s.fld fUmpRingSizeEntries
  let head := s.fld fUmpRingHeadIndex
  if ringFull head (s.fld fUmpRingTailIndex) size then
    raiseFld 0x03 (fUmpIntStat.bit 3) (s.bump fUmpLostCount 1)
  else
    let base := s.fld fUmpRingBaseLoAddr * 32 + s.fld fUmpRingBaseHiAddr * 2 ^ 32
    (s.hbmWrite (base + 32 * head) (umpBytes e seq mtc rep)).setFld fUmpRingHeadIndex ((head + 1) % size)

/-- The counter and the INT_STAT bit of a class (R445). -/
def umpCount (cls : Nat) (s : State) : State :=
  match cls with
  | 0 => raiseFld 0x03 (fUmpIntStat.bit 0) (s.bump fUmpCorrectedCount 1)
  | 1 => raiseFld 0x03 (fUmpIntStat.bit 1) (s.bump fUmpContainedCount 1)
  | _ => raiseFld 0x03 (fUmpIntStat.bit 2) (s.bump fUmpDegradedCount 1)

/-- Merges a CORRECTED event into a held record of the same SOURCE, CORE and CAUSE, or holds a new one (R431). -/
def umpMerge (e : UmpEv) (seq mtc clk : Nat) : List UmpHold → List UmpHold
  | [] => [⟨e.source, e.core, e.cause, seq, e.node, e.acct, mtc, e.detail, 0, clk⟩]
  | h :: t =>
    if h.source = e.source ∧ h.core = e.core ∧ h.cause = e.cause then { h with rep := min (h.rep + 1) (W32 - 1) } :: t
    else h :: umpMerge e seq mtc clk t

/-- An Umpire event other than FATAL (R429 to R431). -/
def umpEvent (e : UmpEv) (s : State) : State :=
  let seq := s.fld fUmpSeqNext
  let s := umpCount e.cls (s.bump fUmpSeqNext 1)
  if e.cls = 0 then { s with ump := { s.ump with held := umpMerge e seq s.mtc s.clk s.ump.held } }
  else umpWrite e seq s.mtc 0 s

/-- What a read of HBM finds: an uncorrectable word is noticed only while ECC_EN = 1 (R433, R438). -/
def hbmGood (s : State) (ok : Bool) : Bool := ok || !s.flag fUmpCtlEccEn

end Sys2Proof.Machine
end

