-- ==== Sys2Proof/Machine/Seed.lean ====
section
/-!
DEFINITION. Seed.lean: Seedbed's accounts, allocation, transfer and free (R178 to R189).
-/

namespace Sys2Proof.Machine

/-- An owner account; one not listed is CLOSED (R180). -/
def State.acct (s : State) (a : Nat) : Account := mapGet {} a s.seed.accts

/-- The tag of a granule; one not listed is FREE (R179). -/
def State.tag (s : State) (g : Nat) : Tag := mapGet {} g s.seed.tags

/-- Changes Seedbed's state. -/
def State.setSeed (s : State) (f : SeedSt → SeedSt) : State := { s with seed := f s.seed }

/-- Granules in the pool (R178). -/
def poolSize (s : State) : Nat := s.fld fSeedPoolGranCount

/-- Adds to an account's HELD, keeping PEAK. -/
def acctAdd (a n : Nat) (s : State) : State :=
  s.setSeed (fun d => { d with accts := mapUpd {} a (fun x =>
    { x with held := x.held + n, peak := max x.peak (x.held + n) }) d.accts })

/-- Takes from an account's HELD. -/
def acctSub (a n : Nat) (s : State) : State :=
  s.setSeed (fun d => { d with accts := mapUpd {} a (fun x => { x with held := x.held - n }) d.accts })

/-- A Seedbed fault under R188: its counter, the sticky bit and a CONTAINED event (R432). -/
def seedFault (f : Fld) (cause node acct h : Nat) (suspect : Bool) (s : State) : State :=
  let s := raiseFld 0x06 fSeedIntStatContained (s.bump f 1)
  let s := if suspect then s.setSeed (fun d => { d with accts := mapUpd {} acct (fun x => { x with suspect := true }) d.accts }) else s
  umpEvent { cls := 1, source := 6, cause := cause, suspect := suspect, node := node, acct := acct, detail := h } s

/-- The two sets of totals agree and add up to the pool (R186). -/
def totalsAgree (s : State) : Bool :=
  s.seed.freeA == s.seed.freeB && s.seed.ownedA == s.seed.ownedB && s.seed.freeA + s.seed.ownedA == poolSize s

/-- A Seedbed check has failed: SEED_MISMATCH and a CONTAINED event that marks the account (R188, R432). -/
def mismatch (acct : Nat) (s : State) : State := seedFault fSeedMismatchCount 0x1A 0 acct 0 true s

/-- The check of every fabric cycle (R186, R188): a change after which the totals no longer agree, though they did in `old`, counts once, when it is made
(DESIGN CHOICE, assumption 53). -/
def checkTotals (old s : State) : State := if s.flag fSeedCtlEn && totalsAgree old && !totalsAgree s then mismatch 0 s else s

/-- Moves granules between FREE and OWNED in both sets of totals (R186). -/
def totalsTake (n : Nat) (s : State) : State :=
  checkTotals s (s.setSeed (fun d => { d with freeA := d.freeA - n, ownedA := d.ownedA + n, freeB := d.freeB - n, ownedB := d.ownedB + n }))

/-- Returns granules to FREE in both sets of totals (R186). -/
def totalsGive (n : Nat) (s : State) : State :=
  checkTotals s (s.setSeed (fun d => { d with freeA := d.freeA + n, ownedA := d.ownedA - n, freeB := d.freeB + n, ownedB := d.ownedB - n }))

/-- The granules of the chain that starts at `g`, at most `fuel` of them (R179). -/
def chainOf (tags : List (Nat × Tag)) (g : Nat) : Nat → List Nat
  | 0 => []
  | fuel + 1 =>
    let t := mapGet ({} : Tag) g tags
    if t.last then [g] else g :: chainOf tags t.next fuel

/-- The chain of a buffer: CHAIN + 1 granules (R179). -/
def State.chain (s : State) (h : Nat) : List Nat := chainOf s.seed.tags h ((s.tag h).chain + 1)

/-- Granules of a buffer. -/
def State.granules (s : State) (h : Nat) : Nat := (s.tag h).chain + 1

/-- `h` is the first granule of a chain: an OWNED or RUN granule that no other granule names as NEXT (R179, R184). -/
def isFirst (s : State) (h : Nat) : Bool :=
  decide ((s.tag h).st ≠ .free) && s.seed.tags.all (fun t => t.2.st == .free || t.2.last || t.2.next != h)

/-- The first FREE granule at or after `g`, going round the pool. -/
def nextFree (tags : List (Nat × Tag)) (pool : Nat) (g : Nat) : Nat → Option Nat
  | 0 => none
  | fuel + 1 =>
    if (mapGet ({} : Tag) g tags).st = .free then some g else nextFree tags pool ((g + 1) % pool) fuel

/-- Takes `n` FREE granules, from a free start (which granules Seedbed takes the spec leaves open). -/
def takeFree (tags : List (Nat × Tag)) (pool start : Nat) : Nat → List Nat → List Nat
  | 0, acc => acc.reverse
  | n + 1, acc =>
    match nextFree (acc.foldl (fun m g => mapInsert g { st := GranSt.run } m) tags) pool (start % pool) pool with
    | some g => takeFree tags pool ((g + 1) % pool) n (g :: acc)
    | none => acc.reverse

/-- Writes the tags of a new chain. -/
def linkChain (st : GranSt) (owner rcount : Nat) (first : Bool) (total : Nat) :
    List Nat → List (Nat × Tag) → List (Nat × Tag)
  | [], tags => tags
  | g :: rest, tags =>
    let t : Tag := { next := rest.headD 0, last := rest.isEmpty, st := st, owner := owner
                     rcount := if first then rcount else 0, chain := if first then total - 1 else 0 }
    linkChain st owner rcount false total rest (mapInsert g t tags)

/-- What an allocation answers. -/
inductive AllocRes where
  | ok (h : Nat)
  | noCredit
  | noSpace
  deriving DecidableEq, Repr

/-- Allocates `n` granules for an account: credit first, then space, but with no pool NOSPACE (R181, R184, R190, R192). Counted by the SEED PMU. -/
def seedAlloc (a n : Nat) (st : GranSt) (s : State) : AllocRes × State :=
  let x := s.acct a
  if x.quota < x.held + n ∧ poolSize s ≠ 0 then
    let s := s.setSeed (fun d => { d with accts := mapUpd {} a (fun y => { y with nocredit := (y.nocredit + 1) % W32 }) d.accts })
    (.noCredit, pmuEvent 258 0x303 1 (s.bump fSeedNocreditCount 1))
  else if s.seed.freeA < n then
    (.noSpace, pmuEvent 258 0x303 1 (raiseFld 0x06 fSeedIntStatNospace (s.bump fSeedNospaceCount 1)))
  else
    let (start, s) := s.draw
    let gs := takeFree s.seed.tags (poolSize s) start n []
    let s := s.setSeed (fun d => { d with tags := linkChain st a 0 true n gs d.tags })
    let s := pmuEvent 258 0x302 n (pmuEvent 258 0x301 1 (acctAdd a n (totalsTake n s)))
    (.ok (gs.headD 0), s)

/-- Frees a buffer: its granules return to the pool and leave its owner's HELD (R186). -/
def seedFree (h : Nat) (s : State) : State :=
  let n := s.granules h
  let owner := (s.tag h).owner
  let gs := s.chain h
  let s := s.setSeed (fun d => { d with tags := gs.foldl (fun m g => mapErase g m) d.tags })
  acctSub owner n (totalsGive n s)

/-- Changes the tag of the first granule of a buffer. -/
def setFirstTag (h : Nat) (f : Tag → Tag) (s : State) : State :=
  s.setSeed (fun d => { d with tags := mapUpd {} h f d.tags })

/-- Moves a buffer to another account: OWNER and HELD of both change together; a GROUP account takes it with RCOUNT =
RELEASES (R179, R182, R186). -/
def seedMove (h a : Nat) (s : State) : State :=
  let n := s.granules h
  let owner := (s.tag h).owner
  let rc := if (s.acct a).kind = .group then (s.acct a).releases else 0
  let gs := s.chain h
  let s := s.setSeed (fun d => { d with tags := gs.foldl (fun m g =>
    mapUpd {} g (fun t => { t with owner := a, st := .owned, rcount := 0 }) m) d.tags })
  acctAdd a n (acctSub owner n (setFirstTag h (fun t => { t with rcount := rc }) s))

/-- Marks a buffer's granules OWNED at the DONE of the run that allocated it (R182). -/
def seedOwn (h : Nat) (s : State) : State :=
  let gs := s.chain h
  s.setSeed (fun d => { d with tags := gs.foldl (fun m g => mapUpd {} g (fun t => { t with st := GranSt.owned }) m) d.tags })

/-- A buffer on loan: its item is retained behind a mark, or held again after a rewind, or popped as a LOAN by a run that has not committed (R122, R124). -/
def onLoan (s : State) (h : Nat) : Bool :=
  let has (i : Item) : Bool := !i.e.nobuf && i.e.handle == h
  s.mq.any (fun q => q.2.retained.any has || q.2.held.any (fun i => i.e.replay && has i)) ||
  s.core.any (fun c => c.2.run.ops.any (fun o => match o with | .pop _ it true => has it | _ => false))

/-- A buffer that a node may free or give: its account owns it, or a GROUP account holds it with a release due, and it is not on loan from its queue
(R122, R188). -/
def nodeMayPass (acct h : Nat) (s : State) : Bool :=
  let t := s.tag h
  isFirst s h && !onLoan s h && (t.owner == acct || (decide ((s.acct t.owner).kind = .group) && decide (0 < t.rcount)))

/-- BFREE at commit (R182, R188). -/
def commitFree (node acct h : Nat) (s : State) : State :=
  let t := s.tag h
  if t.st = .free then seedFault fSeedDoubleFreeCount 0x18 node acct h false s
  else if !nodeMayPass acct h s then seedFault fSeedForeignFreeCount 0x19 node acct h false s
  else if t.owner = acct then seedFree h s
  else if t.rcount ≤ 1 then seedFree h s
  else setFirstTag h (fun x => { x with rcount := x.rcount - 1 }) s

/-- BGIVE at commit (R182, R188). -/
def commitGive (node acct h a : Nat) (s : State) : State :=
  if !nodeMayPass acct h s then seedFault fSeedForeignFreeCount 0x19 node acct h false s
  else if (s.acct a).kind = .closed then seedFault fSeedForeignFreeCount 0x19 node acct h false s
  else seedMove h a s

/-- Undo of one allocation of an aborted run (R182). -/
def undoAlloc (h : Nat) (s : State) : State :=
  let n := s.granules h
  seedFree h (s.bump fSeedAbortUndoCount n)

end Sys2Proof.Machine
end

