-- ==== Sys2Proof/Machine/Mq.lean ====
section
/-!
DEFINITION. Mq.lean: media queues: windows, push, pop, retention, marks and rewind (R99 to R126).
-/

namespace Sys2Proof.Machine

/-- An open queue; one not listed is closed. -/
def State.queue? (s : State) (q : Nat) : Option Queue := mapFind? q s.mq

/-- Replaces an open queue. -/
def State.setQueue (s : State) (q : Nat) (x : Queue) : State := { s with mq := mapInsert q x s.mq }

/-- Items in the spilled middle; an ASYNC queue has none (R101). -/
def Queue.middle (x : Queue) : Nat := if x.mode = .async then 0 else x.held.length - x.headWin - x.tailWin

/-- Items of a queue lie in the spill region: its middle, and everything retained (R101, R128). -/
def Queue.spilling (x : Queue) : Bool := decide (0 < x.middle) || !x.retained.isEmpty

/-- With nothing in the middle, the head window holds the 8 oldest and the tail window the rest (R101). -/
def Queue.settle (x : Queue) : Queue :=
  if x.middle = 0 then { x with headWin := min 8 x.held.length, tailWin := x.held.length - min 8 x.held.length } else x

/-- Items held or retained. -/
def Queue.count (x : Queue) : Nat := x.held.length + x.retained.length

/-- Keeps HIGH_WATER (R126). -/
def Queue.water (x : Queue) : Queue := { x with n := { x.n with highWater := max x.n.highWater x.count } }

/-- The windows after one item is stored at position `p` of the held items, which already hold it (R101, R103). -/
def Queue.stored (x : Queue) (p : Nat) : Queue :=
  if x.mode = .async then x
  else
    let len := x.held.length
    let mid := len - 1 - x.headWin - x.tailWin
    if mid = 0 ∧ len ≤ 16 then { x with headWin := min 8 len, tailWin := len - min 8 len }
    else if p < x.headWin then { x with headWin := min 8 (x.headWin + 1) }
    else if p < x.headWin + mid then x
    else { x with tailWin := min 8 (x.tailWin + 1) }

/-- Moves up to 4 items from the middle into the head window, and says how many (R103). -/
def Queue.refill (x : Queue) : Nat × Queue :=
  if x.mode ≠ .async ∧ x.headWin ≤ 4 ∧ 0 < x.middle then
    let n := min 4 x.middle
    (n, ({ x with headWin := x.headWin + n } : Queue).settle)
  else (0, x)

/-- Takes the head item out of the held items; a pop that finds the head window empty waits for the refill (R104). -/
def Queue.takeHead (x : Queue) : Nat × Queue :=
  let (n, y) := if x.headWin = 0 then x.refill else (0, x)
  (n, ({ y with held := y.held.tail, headWin := y.headWin - 1 } : Queue).settle)

/-- LAST_KEY after a pop that returns an item: the later of the two, whether LAST_KEY was valid or not (R111). -/
def Queue.passItem (x : Queue) (k : Nat) : Queue :=
  { x with lastKey := if 0 < tickDiff k x.lastKey then k else x.lastKey, lastValid := true }

/-- LAST_KEY after a keyed pop that returns nothing (R111). -/
def Queue.passKey (x : Queue) (k : Nat) : Queue :=
  if !x.lastValid || decide (0 < tickDiff k x.lastKey) then { x with lastKey := k, lastValid := true } else x

/-- Position of a new item in KEY order, after held items with an equal KEY (R106). -/
def orderPos (k : Nat) : List Item → Nat
  | [] => 0
  | i :: t => if 0 < tickDiff i.e.key k then 0 else orderPos k t + 1

/-- Frees the buffer of an item that the queue lets go, unless NOBUF = 1 (R106). -/
def freeItem (e : Entry) (s : State) : State := if e.nobuf then s else seedFree e.handle s

/-- Counts LOST, and sets its sticky bit (R106 to R108). -/
def countLost (q : Nat) (s : State) : State :=
  match s.queue? q with
  | none => s
  | some x =>
    let s := s.setQueue q { x with n := { x.n with lost := (x.n.lost + 1) % W32 } }
    raiseFld 0x07 fMqIntStatLost (s.bump fMqLostTotalCount 1)

/-- The mark becomes invalid and MARK_LOST is set (R123). -/
def loseMark (q : Nat) (s : State) : State :=
  match s.queue? q with
  | none => s
  | some x => raiseFld 0x07 fMqIntStatMarkLost (s.setQueue q { x with markValid := false, markLost := true })

/-- Lets the head item go with its buffer; the mark is lost with the marked item (R107, R123). -/
def discardHead (q : Nat) (s : State) : State :=
  match s.queue? q with
  | none => s
  | some x =>
    match x.held with
    | [] => s
    | i :: _ =>
      let s := freeItem i.e (s.setQueue q x.takeHead.2)
      if x.markValid && i.markNo != 0 && i.markNo == x.marks then loseMark q s else s

/-- Discards the oldest item: the retained item popped first, else the held head (R107, R123). -/
def dropOldest (q : Nat) (s : State) : State :=
  match s.queue? q with
  | none => s
  | some x =>
    match x.retained with
    | i :: t =>
      let s := s.setQueue q { x with retained := t, n := { x.n with reclaim := (x.n.reclaim + 1) % W32 } }
      let s := if x.markValid then loseMark q s else s
      countLost q (freeItem i.e s)
    | [] =>
      match x.held with
      | [] => s
      | _ :: _ => countLost q (discardHead q s)

/-- The runs whose queue operations are pending: on a core, or being undone (R117, R118). -/
def openRuns (s : State) : List RunRec := s.core.map (fun c => c.2.run) ++ s.bull.nodes.filterMap (fun n => n.2.undo)

/-- Items of a queue that runs hold in pending pops (R128). -/
def pendingPops (s : State) (q : Nat) : Nat :=
  ((openRuns s).map (fun r => r.ops.countP (fun o => match o with | .pop q' _ _ => q' == q | _ => false))).foldl (· + ·) 0

/-- Stores an item at position `p` and gives its buffer to the queue's account (R100). -/
def storeAt (q : Nat) (p : Nat) (e : Entry) (s : State) : State :=
  match s.queue? q with
  | none => s
  | some x =>
    let it : Item := { e := { e with replay := false, loan := false }, at_ := s.clk }
    let y := ({ x with held := x.held.take p ++ it :: x.held.drop p } : Queue).stored p
    let spilled := y.middle - x.middle
    let y := if x.mode = .async then { y with full := x.full || decide (y.depth ≤ y.held.length + pendingPops s q) } else y
    let s := pmuEvent 259 0x403 spilled (s.setQueue q y.water)
    if e.nobuf then s else seedMove e.handle x.account s

/-- Stores an item in the order of its mode (R106, R108). -/
def storeItem (q : Nat) (e : Entry) (s : State) : State :=
  match s.queue? q with
  | none => s
  | some x => storeAt q (if x.mode = .ordered then orderPos e.key x.held else x.held.length) e s

/-- The queue's account can take the item's buffer (R100, R181). -/
def hasCredit (x : Queue) (e : Entry) (s : State) : Bool :=
  e.nobuf || decide ((s.acct x.account).held + s.granules e.handle ≤ (s.acct x.account).quota)

/-- The incoming item is discarded and counted as LOST. -/
def dropIncoming (q : Nat) (e : Entry) (s : State) : State := countLost q (freeItem e s)

/-- A push that something must give way to: the oldest item goes, and credit is checked again (R100, R106 row 5, R108). -/
def pushFull (q : Nat) (e : Entry) (s : State) : State :=
  match s.queue? q with
  | none => s
  | some x =>
    if x.count = 0 then dropIncoming q e s
    else
      let s := dropOldest q s
      match s.queue? q with
      | none => s
      | some y => if hasCredit y e s then storeItem q e s else dropIncoming q e s

/-- A committed pop frees a slot of an ASYNC queue: FULL, where it stood, goes on for 2 to 3 writer clocks (R114, R115, R119). -/
def Queue.freeSlot (x : Queue) (clk : Nat) : Queue :=
  if x.mode = .async then { x with full := false, freedAt := if x.full || x.freedAt == some clk then some clk else none } else x

/-- Whether the writer of an ASYNC queue sees FULL: at once when it is, and for 2 to 3 writer clocks after a pop has ended it, which is a free value within
the cycle (R115). A slot that a node pops is free at its DONE (R119). -/
def asyncFull (q : Nat) (x : Queue) (s : State) : Bool × State :=
  let n := x.held.length + pendingPops s q
  if x.depth ≤ n then (true, s)
  else if x.freedAt = some s.clk ∧ x.depth ≤ n + 3 then
    let (f, s) := s.draw
    (f % 2 == 1, s)
  else (false, s)

/-- LAST_KEY and LAST_VALID that an ORDERED push is decided against: those from before the last pop where the two fall in one fabric cycle (R112, R113).
Commands of one REFCLK_25M cycle may or may not share a fabric cycle: a free value says (DESIGN CHOICE, assumption 50). -/
def judgedKey (x : Queue) (s : State) : (Nat × Bool) × State :=
  match x.before with
  | some (c, k, v) =>
    if c = s.clk then
      let (f, s) := s.draw
      (if f % 2 = 0 then (k, v) else (x.lastKey, x.lastValid), s)
    else ((x.lastKey, x.lastValid), s)
  | none => ((x.lastKey, x.lastValid), s)

/-- Decides a push into an open queue at the moment it takes effect (R100, R106, R108, R115). -/
def mqPush (q : Nat) (e : Entry) (s : State) : State :=
  match s.queue? q with
  | none => s
  | some x0 =>
    let x := { x0 with n := { x0.n with pushed := (x0.n.pushed + 1) % W32 } }
    let s := pmuEvent 259 0x401 1 (s.setQueue q x)
    match x.mode with
    | .ordered =>
      let (last, s) := judgedKey x s
      if last.2 && decide (tickDiff e.key last.1 ≤ 0) then
        let s := s.setQueue q { x with n := { x.n with late := (x.n.late + 1) % W32 } }
        freeItem e (s.bump fMqLateTotalCount 1)
      else if x.held.any (fun i => i.e.key == e.key && i.e.seq == e.seq) then
        let s := s.setQueue q { x with n := { x.n with dup := (x.n.dup + 1) % W32 } }
        freeItem e (s.bump fMqDupTotalCount 1)
      else if x.count < x.depth && hasCredit x e s then storeItem q e s
      else if x.held.all (fun i => decide (tickDiff e.key i.e.key < 0)) &&
              x.retained.all (fun i => decide (tickDiff e.key i.e.key < 0)) then dropIncoming q e s
      else pushFull q e s
    | .fifo => if x.count < x.depth && hasCredit x e s then storeItem q e s else pushFull q e s
    | .async =>
      let (full, s) := asyncFull q x s
      if full then pushFull q e (raiseFld 0x07 fMqIntStatSlip (s.bump fMqSlipTotalCount 1))
      else if hasCredit x e s then storeItem q e s
      else pushFull q e s

/-- What a pop finds (R110). -/
inductive PopRes where
  | item (it : Item)
  | empty
  | notDue
  deriving DecidableEq, Repr

/-- Takes the head item of an open queue, plain or with bound K, and moves LAST_KEY (R104, R110, R111, R114). Commits
nothing: the item is no longer held, and its buffer stays with the queue's account. -/
def mqTake (q : Nat) (bound : Option Nat) (s : State) : PopRes × State :=
  match s.queue? q with
  | none => (.empty, s)
  | some x =>
    let miss (r : PopRes) (s : State) : PopRes × State :=
      match bound with
      | some k => (r, s.setQueue q { x.passKey k with before := some (s.clk, x.lastKey, x.lastValid) })
      | none => (r, s)
    match x.held with
    | [] => miss .empty s
    | i :: _ =>
      let (hidden, s) := if x.mode = .async ∧ i.at_ = s.clk then let (f, s) := s.draw; (f % 2 == 1, s) else (false, s)
      if hidden then miss .empty s
      else if (match bound with | some k => decide (0 < tickDiff i.e.key k) | none => false) then miss .notDue s
      else
        let (moved, y) := x.takeHead
        let y := { y.passItem i.e.key with before := some (s.clk, x.lastKey, x.lastValid) }
        (.item i, pmuEvent 259 0x403 moved (s.setQueue q y))

/-- Releases the oldest retained item (R123). -/
def releaseOldest (q : Nat) (s : State) : State :=
  match s.queue? q with
  | none => s
  | some x =>
    match x.retained with
    | [] => s
    | i :: t =>
      let s := freeItem i.e (s.setQueue q { x with retained := t })
      if x.markValid then loseMark q s else s

/-- Keeps a popped item behind the mark: at most RETAIN of them, and never more than DEPTH items in all (R101, R121 to
R123). -/
def retainItem (q : Nat) (i : Item) (s : State) : State :=
  let s := match s.queue? q with
    | some x => if x.retain ≤ x.retained.length then releaseOldest q s else s
    | none => s
  let s := match s.queue? q with
    | some x => if x.depth ≤ x.count then dropOldest q s else s
    | none => s
  match s.queue? q with
  | none => s
  | some x => s.setQueue q ({ x with retained := x.retained ++ [i] } : Queue).water

/-- Counts a committed pop (R126). -/
def countPop (q : Nat) (s : State) : State :=
  match s.queue? q with
  | none => s
  | some x => pmuEvent 259 0x402 1 (s.setQueue q { x with n := { x.n with popped := (x.n.popped + 1) % W32 } })

/-- Commits a pop: the item is retained under a set mark, or its buffer passes to the popper's account (R100, R117,
R122). -/
def commitPop (q : Nat) (i : Item) (loan : Bool) (acct : Nat) (s : State) : State :=
  let s := countPop q s
  let s := match s.queue? q with
    | some x => s.setQueue q (x.freeSlot s.clk)
    | none => s
  if loan then retainItem q i s
  else if i.e.nobuf then s
  else seedMove i.e.handle acct s

/-- A pop by a port or PACK, which takes effect at once (R119, R184). The answer says whether the item is on loan. -/
def mqPopNow (q : Nat) (bound : Option Nat) (acct : Nat) (s : State) : PopRes × Bool × State :=
  let loan := match s.queue? q with | some x => x.markSet | none => false
  match mqTake q bound s with
  | (.item i, s) => (.item i, loan, commitPop q i loan acct s)
  | (r, s) => (r, false, s)

/-- Places a mark: what was retained is released, and MARK_LOST clears (R121). -/
def placeMark (q : Nat) (s : State) : State :=
  match s.queue? q with
  | none => s
  | some x =>
    let s := s.setQueue q { x with retained := [], markSet := true, markValid := true, markLost := false, marks := x.marks + 1 }
    x.retained.foldl (fun s i => freeItem i.e s) s

/-- Removes the mark and releases every retained item; MARK_LOST stays (R121). -/
def clearMark (q : Nat) (s : State) : State :=
  match s.queue? q with
  | none => s
  | some x =>
    let s := s.setQueue q { x with retained := [], markSet := false, markValid := false }
    x.retained.foldl (fun s i => freeItem i.e s) s

/-- The windows once items have come back to the head: the 8 oldest in the head window, the 8 newest of the rest in the tail window (R101). -/
def Queue.rewindow (x : Queue) : Queue :=
  if x.mode = .async then x else { x with headWin := min 8 x.held.length, tailWin := min 8 (x.held.length - min 8 x.held.length) }

/-- Makes every retained item held again, at the head, with REPLAY = 1 (R124). -/
def replayAll (q : Nat) (s : State) : State :=
  match s.queue? q with
  | none => s
  | some x =>
    let back := (x.retained.map (fun i => { i with e := { i.e with replay := true }, markNo := 0 })).modifyHead (fun i => { i with markNo := x.marks })
    let y : Queue := { x with
      held := back ++ x.held, retained := [], markValid := true, markLost := false
      lastKey := match back with | i :: _ => (i.e.key + W32 - 1) % W32 | [] => x.lastKey
      n := { x.n with replayed := (x.n.replayed + back.length) % W32 } }
    s.setQueue q y.rewindow

/-- Returns popped items of an aborted run to the head of their queue, and discards what then exceeds DEPTH (R118). -/
def restoreItems (q : Nat) (items : List Item) (key : Nat × Bool) (s : State) : State :=
  match s.queue? q with
  | none => s
  | some x =>
    let y : Queue := { x with
      held := items ++ x.held, lastKey := key.1, lastValid := key.2, before := none
      n := { x.n with restored := (x.n.restored + items.length) % W32 } }
    let s := (s.setQueue q y.rewindow).bump fMqRestoreTotalCount items.length
    let s := (List.range (y.count - y.depth)).foldl (fun s _ => dropOldest q s) s
    match s.queue? q with
    | some z => s.setQueue q z.water
    | none => s

/-- Spill space of a queue in KiB (R102). -/
def spillKib (m : QMode) (depth retain : Nat) : Nat :=
  match m with
  | .async => 0
  | _ => (16 * ((depth - 16) + retain) + 1023) / 1024

/-- Spill space reserved by open queues, in KiB (R128). -/
def spillUsed (s : State) : Nat := (s.mq.map (fun q => spillKib q.2.mode q.2.depth q.2.retain)).foldl (· + ·) 0

/-- Whether a run holds any pending operation on a queue (R125). -/
def pendingOn (s : State) (q : Nat) : Bool :=
  (openRuns s).any (fun r => r.keys.any (fun x => x.1 == q) || r.ops.any (fun o => match o with
    | .pop q' _ _ => q' == q
    | .push q' _ => q' == q
    | .mark q' => q' == q
    | _ => false))

end Sys2Proof.Machine
end

