-- ==== Sys2Proof/Machine/Gh.lean ====
section
/-!
DEFINITION. Gh.lean: working and spare cores, cluster wakes, and Greenhouse's placing, paging and checkpoints (R164 to R177,
R219, R492 to R496).
-/

namespace Sys2Proof.Machine

/-- A loaded node's descriptor; a node not listed is EMPTY (R133). -/
def State.node? (s : State) (n : Nat) : Option NodeD := mapFind? n s.bull.nodes

/-- Replaces a loaded node's descriptor. -/
def State.setNode (s : State) (n : Nat) (d : NodeD) : State := { s with bull := { s.bull with nodes := mapInsert n d s.bull.nodes } }

/-- Changes a loaded node's descriptor. -/
def State.updNode (s : State) (n : Nat) (f : NodeD → NodeD) : State :=
  match s.node? n with
  | some d => s.setNode n (f d)
  | none => s

/-- Enters a power state; the cluster clock counts up to here (R448, R492). -/
def setPwr (n : Nat) (p : Pwr) (s : State) : State :=
  let cyc := cluCycles s n
  s.updClu n (fun c => { c with pwr := p, since := s.clk, waking := false, cyc := cyc, cycAt := s.clk })

/-- Starts a cluster's wake: 5 µs from SLEEP, 30 µs from OFF (R492, R494). A wake of an IDLE cluster makes it IDLE anew. -/
def wakeCluster (n : Nat) (s : State) : State :=
  let c := s.cl n
  match c.pwr with
  | .sleep => if c.waking then s else s.updClu n (fun c => { c with waking := true, wakeAt := s.clk + 125 })
  | .off => if c.waking then s else s.updClu n (fun c => { c with waking := true, wakeAt := s.clk + 750 })
  | .idle => s.updClu n (fun c => { c with since := s.clk })
  | .run => s

/-- A cluster in RUN enters IDLE once every working core waits in GETW or is HALTED and its ready store is empty, unless LIMIT
is RUN (R494, R495). -/
def tryIdle (n : Nat) (s : State) : State :=
  let quiet := (workingCores s n).all (fun k => decide ((s.cor k).mode = .halted) || (decide ((s.cor k).mode = .wait) && (s.cor k).blocked))
  let empty := (List.range 4).all (fun c => (mapGet ([] : List ReadyEnt) (4 * n + c) s.bull.ready).isEmpty)
  if decide ((s.cl n).pwr = .run) && s.fld (fCluPwrLimit n) != 0 && quiet && empty then setPwr n .idle s else s

/-- Pages of a context class (R164). -/
def classPages (c : Nat) : Nat := if c = 0 then 1 else if c = 1 then 4 else 16

/-- Greenhouse's state changes. -/
def State.setGh (s : State) (f : GhSt → GhSt) : State := { s with gh := f s.gh }

/-- Where a node's context is resident (R169). -/
def State.resOf (s : State) (n : Nat) : Option Res := mapFind? n s.gh.res

/-- Pages of a node's context. -/
def nodePages (s : State) (n : Nat) : Nat := match s.node? n with | some d => classPages d.ctxClass | none => 1

/-- The core reserved for a READY node under R171. -/
def reservedCore (s : State) (n : Nat) : Option Nat :=
  match s.node? n with
  | none => none
  | some d =>
    if d.st = .ready then
      match mapFind? n s.gh.pageIns with
      | some p => if p.resv then some p.core else none
      | none => match s.resOf n with
        | some r => if r.resv then some r.core else none
        | none => none
    else none

/-- Whether a core is reserved for a node other than `n` (R171). -/
def reservedElse (s : State) (k n : Nat) : Bool :=
  (s.gh.pageIns.any (fun p => p.1 != n && reservedCore s p.1 == some k)) ||
  (s.gh.res.any (fun r => r.1 != n && reservedCore s r.1 == some k))

/-- A node pins its slots while it runs or aborts, is held or reserved, or its write-back is incomplete (R173). -/
def nodePins (s : State) (n : Nat) : Bool :=
  match s.node? n with
  | none => false
  | some d => decide (d.st = .running) || decide (d.st = .cancelPending) || decide (d.st = .aborting) ||
      d.hold.isSome || d.writeBack.isSome || (reservedCore s n).isSome

/-- The occupants of a core: node, first slot, pages, pinned (R167, R173). A page-in in progress occupies its slots, pinned only by the causes that R173
names. -/
def occupants (s : State) (k : Nat) : List (Nat × Nat × Nat × Bool) :=
  (s.gh.res.filter (fun r => r.2.core == k)).map (fun r => (r.1, r.2.slot, nodePages s r.1, nodePins s r.1)) ++
  s.gh.pageIns.filterMap (fun p => if p.2.core = k then p.2.slot.map (fun sl => (p.1, sl, nodePages s p.1, nodePins s p.1)) else none)

/-- Slots occupied on a core (R191). -/
def slotsUsed (s : State) (k : Nat) : Nat := ((occupants s k).map (fun o => o.2.2.1)).foldl (· + ·) 0

/-- Slots pinned on a core (R191). -/
def slotsPinned (s : State) (k : Nat) : Nat := (((occupants s k).filter (fun o => o.2.2.2)).map (fun o => o.2.2.1)).foldl (· + ·) 0

/-- Occupants that meet the slots `b` to `b + n − 1`. -/
def meeting (occ : List (Nat × Nat × Nat × Bool)) (b n : Nat) : List (Nat × Nat × Nat × Bool) :=
  occ.filter (fun o => decide (o.2.1 < b + n) && decide (b < o.2.1 + o.2.2.1))

/-- The cycle of a node's last dispatch; 0 where it has none. -/
def lastDispatch (s : State) (n : Nat) : Nat := match s.node? n with | some d => if d.dispatched then d.runStart else 0 | none => 0

/-- Rank of a candidate slot group: higher goes first. The class of the highest-priority occupant, with a free group below
P3, then how long ago the most recently dispatched occupant was dispatched (R173). -/
def groupRank (s : State) (o : List (Nat × Nat × Nat × Bool)) : Nat × Nat :=
  let cls := (o.map (fun x => match s.node? x.1 with | some d => d.set.cls | none => 4)).foldl min 4
  let disp := (o.map (fun x => match s.resOf x.1 with | some r => r.disp | none => lastDispatch s x.1)).foldl max 0
  (cls, s.clk - disp)

/-- The better of two ranked groups; the earlier slot keeps a tie (the spec leaves a tie open; assumption 12). -/
def betterGroup (a b : Nat × (Nat × Nat)) : Nat × (Nat × Nat) :=
  if a.2.1 < b.2.1 ∨ (a.2.1 = b.2.1 ∧ a.2.2 < b.2.2) then b else a

/-- The slot group that Greenhouse frees for a context of `n` pages on a core (R167, R173). -/
def chooseSlot (s : State) (k n : Nat) : Option Nat :=
  let occ := occupants s k
  let cand := ((List.range (48 / n)).map (fun i => i * n)).filter (fun b => (meeting occ b n).all (fun o => !o.2.2.2))
  match cand.map (fun b => (b, groupRank s (meeting occ b n))) with
  | [] => none
  | g :: t => some (t.foldl betterGroup g).1

/-- Invalidates a node's resident copy; a context prefetched and not dispatched counts as waste (R172, R173). -/
def invalidate (n : Nat) (s : State) : State :=
  match s.resOf n with
  | none => s
  | some r =>
    let s := s.setGh (fun g => { g with res := mapErase n g.res })
    if r.pre then s.bump fGhPfWasteCount 1 else s

/-- Frees the slots of an occupant for another context: a resident copy is invalidated, and a prefetch in progress ends and counts as waste (R172,
R173). -/
def evict (n : Nat) (s : State) : State :=
  match mapFind? n s.gh.pageIns with
  | some p =>
    let s := s.setGh (fun g => { g with pageIns := mapErase n g.pageIns })
    if p.pre then s.bump fGhPfWasteCount 1 else s
  | none => invalidate n s

/-- Invalidates every context resident on a core (R169, R435, R493). -/
def invalidateCore (k : Nat) (s : State) : State :=
  ((s.gh.res.filter (fun r => r.2.core == k)).map (fun r => r.1)).foldl (fun s n => invalidate n s) s

/-- Gives a page-in its slots, or leaves it waiting (R173). -/
def placePageIn (n : Nat) (p : PageIn) (s : State) : State :=
  match chooseSlot s p.core (nodePages s n) with
  | some b =>
    let gone := (meeting (occupants s p.core) b (nodePages s n)).map (fun o => o.1)
    let s := gone.foldl (fun s m => evict m s) s
    s.setGh (fun g => { g with pageIns := mapInsert n { p with slot := some b, since := s.clk } g.pageIns })
  | none =>
    let s := s.setGh (fun g => { g with pageIns := mapInsert n { p with slot := none } g.pageIns })
    raiseFld 0x05 fGhIntStatNoslot s

/-- Starts paging a node's context into a core: any other copy is invalidated (R171, R172), and a cluster asleep wakes
(R494). -/
def startPageIn (n k : Nat) (pre : Bool) (s : State) : State :=
  let s := wakeCluster (k / 16) (invalidate n s)
  let s := if pre then s.bump fGhPrefetchCount 1 else s
  let o := s.gh.order
  let s := s.setGh (fun g => { g with order := o + 1 })
  placePageIn n { core := k, slot := none, pre := pre, resv := !pre, since := s.clk, order := o } s

/-- The core that a prefetch targets (R172). -/
def prefetchTarget (s : State) (n : Nat) : Option Nat :=
  match s.node? n with
  | none => none
  | some d =>
    let pages := classPages d.ctxClass
    if d.dispatched ∧ isWorking s d.lastCore ∧ d.lastCore / 16 = d.set.home ∧ d.barred ≠ some d.lastCore ∧
        (chooseSlot s d.lastCore pages).isSome then some d.lastCore
    else
      match workingCores s d.set.home with
      | [] => none
      | k :: t => some (t.foldl (fun a b => if slotsUsed s b < slotsUsed s a then b else a) k)

/-- Prefetches a node's context where it is neither resident nor being paged, and the node is not running (R169, R172). -/
def prefetch (n : Nat) (s : State) : State :=
  match s.node? n with
  | none => s
  | some d =>
    if (s.resOf n).isSome || (mapFind? n s.gh.pageIns).isSome || d.writeBack.isSome || decide (d.st = .running) ||
        decide (d.st = .cancelPending) || decide (d.st = .aborting) then s
    else match prefetchTarget s n with
      | some k => startPageIn n k true s
      | none => s

/-- HBM address of image `i` of page `p` (R165). -/
def imageAddr (d : NodeD) (p i : Nat) : Nat := d.ctxBase * 0x2000 + (2 * p + i) * 0x2000

/-- Local address of a slot (R167). -/
def slotAddr (sl : Nat) : Nat := 0x20000 + 0x2000 * sl

/-- Copies a node's current checkpoint into a core's slots, whose words then hold no error (R165, R174). -/
def pageCopyIn (d : NodeD) (k sl : Nat) (s : State) : State :=
  let ps := List.range (classPages d.ctxClass)
  let hi := slotAddr (sl + classPages d.ctxClass)
  s.updCore k (fun c => { c with
    ram := ps.foldl (fun r p => copyRange s.hbm (imageAddr d p (d.sel / 2 ^ p % 2)) 0x2000 r (slotAddr (sl + p))) c.ram
    filled := ps.foldl (fun f p => if f.contains (sl + p) then f else f ++ [sl + p]) c.filled
    scratch := c.scratch.filter (fun b => !(decide (slotAddr sl ≤ b.1) && decide (b.1 < hi)))
    bad := c.bad.filter (fun b => !(decide (slotAddr sl ≤ b.1) && decide (b.1 < hi))) })

/-- Writes dirty pages into their images that are not current (R166, R175). -/
def pageCopyOut (d : NodeD) (k sl : Nat) (dirty : List Nat) (s : State) : State :=
  { s with hbm := dirty.foldl (fun h p => copyRange (s.cor k).ram (slotAddr (sl + p)) 0x2000 h (imageAddr d p (1 - d.sel / 2 ^ p % 2))) s.hbm }

/-- Paging traffic of the last 100 µs, 2,500 REFCLK_25M cycles, in GB/s (R191). -/
def ghBandwidth (s : State) : Nat :=
  ((s.gh.traffic.filter (fun t => decide (s.clk < t.1 + 2500))).map (fun t => t.2)).foldl (· + ·) 0 / 100000

/-- Records paging traffic and drops what is older than 100 µs. -/
def addTraffic (bytes : Nat) (s : State) : State :=
  s.setGh (fun g => { g with traffic := g.traffic.filter (fun t => decide (s.clk < t.1 + 2500)) ++ [(s.clk, bytes)] })

end Sys2Proof.Machine
end

