-- ==== Sys2Proof/Machine/Cq.lean ====
section
/-!
DEFINITION. Cq.lean: KCI completions and their order (R472, R473).
-/

namespace Sys2Proof.Machine

/-- Changes the host interface. -/
def State.setHif (s : State) (f : HifSt → HifSt) : State := { s with hif := f s.hif }

/-- Drops the first outstanding instruction with a tag and an opcode (R471). -/
def dropOut (tag op : Nat) : List KciOut → List KciOut
  | [] => []
  | o :: t => if o.tag = tag ∧ o.op = op then t else o :: dropOut tag op t

/-- Writes one completion at HIF_CQ_HEAD (R472). -/
def cqWrite (tag op status : Nat) (result : List Nat) (s : State) : State :=
  let head := s.fld fHifCqHeadIndex
  let size := s.fld fHifCqSizeEntries
  let ph := s.hif.phase
  let s := s.setHif (fun h => { h with outst := dropOut tag op h.outst, phase := if head + 1 = size then !ph else ph })
  raiseFld 0x12 (fHifIntStat.bit 0) ((s.setFld fHifCqHeadIndex ((head + 1) % size)).emit (.completion head tag op status ph result))

/-- Whether an earlier instruction that names the same thing waits (R473). -/
def keyWaits (key : Option (Nat × Nat)) (ws : List KciWait) : Bool :=
  key.isSome && ws.any (fun w => w.key == key)

/-- Completes an instruction, after every earlier one that names the same thing (R473). -/
def kciDone (tag op : Nat) (key : Option (Nat × Nat)) (status : Nat) (result : List Nat) (s : State) : State :=
  if keyWaits key s.hif.waits then
    s.setHif (fun h => { h with waits := h.waits ++ [⟨tag, op, key, .held status result⟩] })
  else cqWrite tag op status result s

/-- Takes the first held completion that no earlier waiting instruction holds back (R473). -/
def takeHeld : List KciWait → List KciWait → Option (KciWait × Nat × List Nat × List KciWait)
  | _, [] => none
  | before, w :: rest =>
    match w.on with
    | .held st r => if keyWaits w.key before then takeHeld (before ++ [w]) rest else some (w, st, r, before ++ rest)
    | _ => takeHeld (before ++ [w]) rest

/-- Writes the held completions that have become free (R473). -/
def flushHeld : Nat → State → State
  | 0, s => s
  | fuel + 1, s =>
    match takeHeld [] s.hif.waits with
    | some (w, st, r, rest) => flushHeld fuel (cqWrite w.tag w.op st r (s.setHif (fun h => { h with waits := rest })))
    | none => s

/-- Completes the instructions that wait on an effect, and what they held back (R473). -/
def finishWait (on : WaitOn) (status : Nat) (result : List Nat) (s : State) : State :=
  let ws := s.hif.waits.filter (fun w => w.on == on)
  let s := s.setHif (fun h => { h with waits := h.waits.filter (fun w => w.on != on) })
  let s := ws.foldl (fun s w => cqWrite w.tag w.op status result s) s
  flushHeld s.hif.waits.length s

/-- Makes an instruction wait (R473). -/
def kciWait (tag op : Nat) (key : Option (Nat × Nat)) (on : WaitOn) (s : State) : State :=
  s.setHif (fun h => { h with waits := h.waits ++ [⟨tag, op, key, on⟩] })

end Sys2Proof.Machine
end

