-- ==== Sys2Proof/Machine/Unload.lean ====
section
/-!
DEFINITION. Unload.lean: removing nodes, queues and accounts, and the graphs that own them (R125, R131, R160, R189, R478, R479).
-/

namespace Sys2Proof.Machine

/-- Changes every loaded graph. -/
def State.mapGraphs (s : State) (f : Graph → Graph) : State := { s with graphs := s.graphs.map (fun g => (g.1, f g.2)) }

/-- Removes a node's descriptor and its group membership (R131, R160); its graph no longer owns it. -/
def eraseNode (n : Nat) (s : State) : State :=
  let s := invalidate n s
  let s := s.setGh (fun g => { g with pageIns := mapErase n g.pageIns })
  let s := s.mapGraphs (fun g => { g with nodes := g.nodes.filter (· != n) })
  { s with kml := mapErase n s.kml, bull := { s.bull with
    nodes := mapErase n s.bull.nodes
    beats := s.bull.beats.map (fun b => (b.1, { b.2 with members := b.2.members.filter (· != n), posting := b.2.posting.filter (· != n) })) } }

/-- Frees what a queue holds and closes it; the answer counts the buffers freed (R125). -/
def closeQueue (q : Nat) (s : State) : Nat × State :=
  match s.queue? q with
  | none => (0, s)
  | some x =>
    let es := (x.held ++ x.retained).map (fun i => i.e)
    let s := (es.foldl (fun s e => freeItem e s) s).mapGraphs (fun g => { g with queues := g.queues.filter (· != q) })
    ((es.filter (fun e => !e.nobuf)).length, { s with mq := mapErase q s.mq })

/-- Closes an account (R189). -/
def closeAccount (a : Nat) (s : State) : State :=
  (s.mapGraphs (fun g => { g with accounts := g.accounts.filter (· != a) })).setSeed (fun d => { d with accts := mapErase a d.accts })

/-- Frees every buffer that an account still owns (DESIGN CHOICE, assumption 26). -/
def freeOwned (a : Nat) (s : State) : State :=
  ((s.seed.tags.filter (fun t => t.2.owner == a && isFirst s t.1)).map (fun t => t.1)).foldl (fun s h => seedFree h s) s

/-- Drops the staging copy of a target (R301). -/
def dropStage (t : Nat) (s : State) : State := { s with cfg := mapErase t s.cfg }

/-- Unloads a DISARMED node of a graph, after any write-back (R160, R189, R479). -/
def unloadGraphNode (s : State) (n : Nat) : State :=
  match s.node? n with
  | none => s
  | some d =>
    let s := dropStage n s
    if d.writeBack.isSome then s.setNode n { d with evicting := true, unloading := true } else eraseNode n s

/-- Ends an unload: the graph's queues and accounts close, its ranges are free, and GRAPH.UNLOAD completes (R479). -/
def graphGone (g : Nat) (x : Graph) (s : State) : State :=
  let s := x.queues.foldl (fun s q => (closeQueue q s).2) s
  let s := x.accounts.foldl (fun s a => closeAccount a (freeOwned a s)) s
  finishWait (.graph g) 0 [] { s with graphs := mapErase g s.graphs }

/-- An unload goes on: once every node of the graph is DISARMED they unload, and once none is left the rest goes (R479). -/
def graphStep (s : State) (g : Nat) : State :=
  match mapFind? g s.graphs with
  | none => s
  | some x =>
    if !x.unload then s
    else if x.nodes.all (fun n => match s.node? n with | some d => decide (d.st = .disarmed) | none => true) then
      let s := x.nodes.foldl unloadGraphNode s
      match mapFind? g s.graphs with
      | some x => if x.nodes.all (fun n => (s.node? n).isNone) then graphGone g x s else s
      | none => s
    else s

/-- Every unload under way goes on. -/
def graphsStep (s : State) : State := (s.graphs.map (fun g => g.1)).foldl graphStep s

end Sys2Proof.Machine
end

