-- ==== Sys2Proof/Machine/Bull.lean ====
section
/-!
DEFINITION. Bull.lean: Bullpen: flags and readiness, ready stores, dispatch with Greenhouse's placement, timers and beats
(R130 to R159, R171, R299, R300).
-/

namespace Sys2Proof.Machine

/-! ## Readiness and ready stores -/

/-- A node is satisfied: (FLAGS & MASK) = MASK in ALL mode, nonzero in ANY mode (R135). -/
def satisfied (d : NodeD) : Bool :=
  if d.set.any then d.flags &&& d.set.mask != 0 else d.flags &&& d.set.mask == d.set.mask

/-- A class queue of a ready store (R139). -/
def State.readyQ (s : State) (h c : Nat) : List ReadyEnt := mapGet [] (4 * h + c) s.bull.ready

/-- Replaces a class queue. -/
def State.setReadyQ (s : State) (h c : Nat) (q : List ReadyEnt) : State :=
  { s with bull := { s.bull with ready := if q.isEmpty then mapErase (4 * h + c) s.bull.ready else mapInsert (4 * h + c) q s.bull.ready } }

/-- Entries in a cluster's ready store (R162). -/
def storeLevel (s : State) (h : Nat) : Nat := ((List.range 4).map (fun c => (s.readyQ h c).length)).foldl (· + ·) 0

/-- A ready store holds 4,096 entries (R139). -/
def storeFull (s : State) (h : Nat) : Bool := decide (4096 ≤ storeLevel s h)

/-- A core that waits in GETW and may be given a node: a working core of a cluster in RUN or IDLE (R140, R141). -/
def waiting (s : State) (k : Nat) : Bool :=
  let c := s.cor k
  decide (c.mode = .wait) && c.blocked && isWorking s k &&
    (decide ((s.cl (k / 16)).pwr = .run) || decide ((s.cl (k / 16)).pwr = .idle))

/-- A waiting core that may take a node: its class mask holds the class, the node is not barred from it (R149), and the core
is not reserved for another node (R171). -/
def canTake (s : State) (k n : Nat) (d : NodeD) : Bool :=
  waiting s k && (s.cor k).mask.testBit d.set.cls && d.barred != some k && !reservedElse s k n

/-- The waiting cores of a cluster that may take a node, lowest first (R141). -/
def takers (s : State) (h n : Nat) (d : NodeD) : List Nat :=
  ((List.range 16).map (fun m => 16 * h + m)).filter (fun k => canTake s k n d)

/-- A node enters its HOME ready store, at the tail of its class queue or, as a re-run, at its head (R139). The cluster
wakes (R143), and the context is prefetched when no core that could take the node waits (R172). -/
def enterReady (n : Nat) (head byPost : Bool) (s : State) : State :=
  match s.node? n with
  | none => s
  | some d =>
    let h := d.set.home
    let e : ReadyEnt := ⟨n, s.clk, byPost⟩
    let q := s.readyQ h d.set.cls
    let s := (s.setNode n { d with st := .ready, expired := false }).setReadyQ h d.set.cls (if head then e :: q else q ++ [e])
    let s := wakeCluster h s
    if (takers s h n d).isEmpty then prefetch n s else s

/-- A node leaves its ready store; a hold or a reservation ends with it (R141). -/
def leaveReady (n : Nat) (s : State) : State :=
  match s.node? n with
  | none => s
  | some d =>
    let s := s.setReadyQ d.set.home d.set.cls ((s.readyQ d.set.home d.set.cls).filter (fun e => e.node != n))
    s.setNode n { d with hold := none, expired := false }

/-- A post that reaches an EMPTY node (R134). -/
def voidPost (s : State) : State := raiseFld 0x04 fBullIntStatPostVoid (s.bump fBullPostVoidCount 1)

/-- A flag post (R134, R135). `none`: it would make the node READY in a full ready store, and its source waits (R159). A post
of flags already set changes nothing. -/
def postNode (n flags : Nat) (s : State) : Option State :=
  match s.node? n with
  | none => some (voidPost s)
  | some d =>
    let d' := { d with flags := d.flags ||| flags }
    match d.st with
    | .aborting => some (s.setNode n { d with recFlags := d.recFlags ||| flags })
    | .armed =>
      if satisfied d' && !satisfied d then
        if storeFull s d.set.home then none else some (enterReady n false true (s.setNode n d'))
      else some (s.setNode n d')
    | _ => some (s.setNode n d')

/-- An arm of a mixer: its next run takes its key from the first notice (R307). -/
def kmlArmed (n : Nat) (s : State) : State :=
  match mapFind? n s.kml with
  | some (.mixer m) => { s with kml := mapInsert n (.mixer { m with next := none }) s.kml }
  | _ => s

/-- An arm (R134). `none` as for a post. -/
def armNode (n : Nat) (s : State) : Option State :=
  match s.node? n with
  | none => some s
  | some d =>
    match d.st with
    | .disarmed =>
      let s := kmlArmed n s
      if satisfied d then
        if storeFull s d.set.home then none else some (enterReady n false false (s.setNode n { d with st := .armed }))
      else some (s.setNode n { d with st := .armed })
    | .cancelPending => some (s.setNode n { d with st := .running })
    | .aborting => some (s.setNode n { d with recArm := true })
    | _ => some s

/-! ## Commits of staged changes to nodes -/

/-- Staged bytes that fall in a page, with their offset in it. -/
def pageBytes (bs : List (Nat × Byte)) (p : Nat) : List (Nat × Byte) :=
  (bs.filter (fun b => b.1 / 0x2000 == p)).map (fun b => (b.1 % 0x2000, b.2))

/-- Lays bytes over memory from an address. -/
def overlay (base : Nat) (bs : List (Nat × Byte)) (m : List Host.Cell) : List Host.Cell :=
  bs.foldl (fun m b => memWrite m (base + b.1) b.2) m

/-- Writes the pages a commit changes as a checkpoint, into the non-current images and the resident copy, and raises GEN
(R300). -/
def commitPages (n : Nat) (d : NodeD) (s : State) : State × NodeD :=
  let ps := (List.range (classPages d.ctxClass)).filter (fun p => !(pageBytes d.stagedCtx p).isEmpty)
  if ps.isEmpty then (s, d)
  else
    let hbm := ps.foldl (fun h p =>
      let cur := d.sel / 2 ^ p % 2
      overlay (imageAddr d p (1 - cur)) (pageBytes d.stagedCtx p)
        (copyRange h (imageAddr d p cur) 0x2000 h (imageAddr d p (1 - cur)))) s.hbm
    let s := { s with hbm := hbm }
    let s := match s.resOf n with
      | some r => s.updCore r.core (fun c => { c with ram := ps.foldl (fun m p => overlay (slotAddr (r.slot + p)) (pageBytes d.stagedCtx p) m) c.ram })
      | none => s
    let sel := ps.foldl (fun x p => x ^^^ 2 ^ p) d.sel
    (pmuEvent 257 0x203 ps.length (s.bump fGhWritebackCount ps.length), { d with sel := sel, gen := (d.gen + 1) % 65536 })

/-- A scheduled commit takes effect: at the start of a dispatch, or at once in a DISARMED node (R299, R300). -/
def applyCommit (n : Nat) (s : State) : State :=
  match s.node? n with
  | none => s
  | some d =>
    match d.staged with
    | none => s
    | some set =>
      let (s, d) := commitPages n d s
      finishWait (.commit 0 n) 0 [] (s.setNode n { d with set := set, staged := none, stagedCtx := [] })

/-- A node becomes DISARMED (R134); a commit scheduled on it applies in that cycle (R300), and an unload of its graph goes on (R479). -/
def disarm (n : Nat) (s : State) : State :=
  graphsStep (applyCommit n (s.updNode n (fun d => { d with st := .disarmed, rerun := false, barred := none })))

/-- Whether a cancel may have met, in its fabric cycle, the post that made the node READY, or the dispatch decision that would give it to a waiting core
that holds its context (R138). Commands of one REFCLK_25M cycle may or may not share a fabric cycle: a free value says whether they do (DESIGN CHOICE,
assumption 51). -/
def mayCollide (s : State) (n : Nat) (d : NodeD) : Bool :=
  (s.readyQ d.set.home d.set.cls).any (fun e => e.node == n && e.byPost && e.since == s.clk) ||
  match s.resOf n with
  | some r => s.flag fBullCtlEn && d.writeBack.isNone && canTake s r.core n d
  | none => false

/-- A cancel (R134, R138). -/
def cancelNode (n : Nat) (s : State) : State :=
  match s.node? n with
  | none => s
  | some d =>
    match d.st with
    | .armed => disarm n s
    | .ready =>
      let (f, s) := if mayCollide s n d then s.draw else (0, s)
      tryIdle d.set.home (disarm n (leaveReady n (s.bump fBullStatRcCollide (f % 2))))
    | .running => s.setNode n { d with st := .cancelPending }
    | .aborting => s.setNode n { d with recCancel := true }
    | _ => s

/-! ## Dispatch -/

/-- The residue of a value modulo 7 (R238). -/
def res7 (x : Int) : Nat := (x % 7).toNat

/-- A word with its own residue. -/
def rv (w : Word) : RVal := ⟨w, res7 w.toInt⟩

/-- Gives a core to a node: the dispatch decision and the delivery (R136, R140, R141, R214). `hit` says that the core held
the context (R171). -/
def deliver (n k : Nat) (hit : Bool) (s : State) : State :=
  match s.node? n with
  | none => s
  | some d0 =>
    let stolen := d0.set.home != k / 16
    let s := applyCommit n (leaveReady n s)
    match s.node? n, s.resOf n with
    | some d, some r =>
      let used := d.flags &&& d.set.mask
      let base := slotAddr r.slot
      let s := s.setNode n { d with
        flags := d.flags ^^^ used, st := .running, late := 0, lastCore := k, lastMtc := s.mtc, dispatched := true
        consumed := used, runStart := s.clk, runCore := k, undo := none }
      let s := s.setGh (fun g => { g with res := mapInsert n { r with pre := false, resv := false, disp := s.clk } g.res })
      let s := if hit then pmuEvent 257 0x201 1 (s.bump fGhAffHitCount 1) else s
      let s := pmuEvent 256 0x102 (bitOf stolen) (pmuEvent 256 0x101 1 s)
      let s := pmuEvent k 0x051 (bitOf d.rerun) (pmuEvent k 0x050 1 s)
      let (fresh, s) := s.draw
      let s := s.updCore k (fun c => { ({} : Core) with
        mode := .run, node := n, pc := d.set.prog, mask := c.mask, ram := c.ram, bad := c.bad, moved := c.moved, filled := c.filled, scratchId := fresh
        scratch := c.scratch.filter (fun b => decide (0x20000 ≤ b.1))
        s := [(1, rv (BitVec.ofNat 32 n)), (2, rv (BitVec.ofNat 32 base)), (3, rv (BitVec.ofNat 32 used)),
              (4, rv (BitVec.ofNat 32 d.late)), (5, rv (BitVec.ofNat 32 (bitOf d.rerun)))]
        ctxAddr := base, ctxPages := classPages d.ctxClass })
      if (s.cl (k / 16)).pwr = .idle then setPwr (k / 16) .run s else s
    | _, _ => s

/-- Whether an entry may be given to a core now: not held, its last write-back complete, no page-in in progress (R169 to
R171). -/
def placeable (s : State) (n : Nat) (d : NodeD) : Bool :=
  d.hold.isNone && d.writeBack.isNone && (mapFind? n s.gh.pageIns).isNone

/-- Expected free time of a core, as a cycle: the dispatch of the node it runs plus that node's last duration or its budget
(R171). -/
def expectedFree (s : State) (k : Nat) : Option Nat :=
  let c := s.cor k
  if c.mode = .run ∨ c.mode = .doneWait then
    match s.node? c.node with
    | some d => some (d.runStart + d.duration.getD ((d.set.budget * 256 + coreCycles - 1) / coreCycles))
    | none => none
  else none

/-- What a dispatch decision did with an entry. -/
inductive Placed where
  | dispatched (s : State)
  | paging (s : State)
  | held (s : State)
  | skipped
  deriving DecidableEq, Repr

/-- Places a READY entry of a cluster's own store (R171). -/
def placeLocal (s : State) (h n : Nat) : Placed :=
  match s.node? n with
  | none => .skipped
  | some d =>
    let ks := takers s h n d
    let free := if d.hold.isSome then match s.resOf n with
        | some r => ks.contains r.core
        | none => false
      else placeable s n d
    let elsewhere := match reservedCore s n with | some k => !ks.contains k | none => false
    if ks.isEmpty || !free || d.writeBack.isSome || elsewhere then .skipped
    else
      let page := match ks with
        | k :: _ => Placed.paging (startPageIn n k false (s.updNode n (fun d => { d with hold := none })))
        | [] => .skipped
      match s.resOf n with
      | none => page
      | some r =>
        if ks.contains r.core then .dispatched (deliver n r.core (!r.resv) s)
        else if r.core / 16 = h ∧ isWorking s r.core ∧ !d.expired ∧ s.fld fGhAffWinNs ≠ 0 then
          match expectedFree s r.core with
          | some e =>
            if e ≤ s.clk + nsCycles (s.fld fGhAffWinNs) then
              .held ((s.updNode n (fun d => { d with hold := some (r.core, s.clk) })).bump fGhAffHoldCount 1)
            else page
          | none => page
        else page

/-- Scans entries in order until one is dispatched or starts to page in; a hold delays no other entry (R171). -/
def scanLocal (h : Nat) : List Nat → State → Option State × State
  | [], s => (none, s)
  | n :: t, s =>
    match placeLocal s h n with
    | .dispatched s' => (some s', s')
    | .paging s' => (some s', s')
    | .held s' => scanLocal h t s'
    | .skipped => scanLocal h t s

/-- The entries of a ready store in the order Bullpen serves them (R139). -/
def storeOrder (s : State) (h : Nat) : List Nat :=
  ((List.range 4).map (fun c => (s.readyQ h c).map (fun e => e.node))).flatten

/-- Entries that a core of cluster `h` may steal: class, cycle of readiness, cluster and node (R142). -/
def stealable (s : State) (h : Nat) : List (Nat × Nat × Nat × Nat) :=
  ((List.range 16).filter (· != h)).flatMap (fun g => (List.range 4).flatMap (fun c => (s.readyQ g c).filterMap (fun e =>
    match s.node? e.node with
    | none => none
    | some d =>
      if !d.set.nosteal && placeable s e.node d && (reservedCore s e.node).isNone &&
          decide (e.since + nsCycles (s.fld fBullStealAge) ≤ s.clk) && (takers s g e.node d).isEmpty then
        some (c, e.since, g, e.node)
      else none)))

/-- Order of stealing: class, then age, then cluster number (R142). -/
def stealBefore (a b : Nat × Nat × Nat × Nat) : Bool :=
  decide (a.1 < b.1) || (a.1 == b.1 && (decide (a.2.1 < b.2.1) || (a.2.1 == b.2.1 && decide (a.2.2.1 < b.2.2.1))))

/-- A core steals an entry: dispatched where its context is resident there, else paged in (R142, R171). -/
def stealTo (k n : Nat) (s : State) : State :=
  match s.resOf n with
  | some r => if r.core = k then deliver n k (!r.resv) s else startPageIn n k false s
  | none => startPageIn n k false s

/-- An entry of a core's own cluster that the core can take: neither held nor reserved for another core, nor barred to this one (R142). -/
def ownEntry (s : State) (k : Nat) : Bool :=
  (storeOrder s (k / 16)).any (fun n => match s.node? n with
    | some d => canTake s k n d && (match d.hold with | some (c, _) => c == k | none => true) &&
        (match reservedCore s n with | some c => c == k | none => true)
    | none => false)

/-- The entry that a core steals, where it finds none in its own cluster that it can take (R142). -/
def stealPick (s : State) (k : Nat) : Option Nat :=
  if ownEntry s k then none
  else
    match (stealable s (k / 16)).filter (fun e => match s.node? e.2.2.2 with | some d => canTake s k e.2.2.2 d | none => false) with
    | [] => none
    | e :: t => some (t.foldl (fun a b => if stealBefore b a then b else a) e).2.2.2

/-- A waiting core of a cluster that finds nothing in its own store steals (R142). -/
def stealFor (h : Nat) (s : State) : State :=
  match ((List.range 16).map (fun m => 16 * h + m)).findSome? (fun k => (stealPick s k).map (fun n => (k, n))) with
  | some (k, n) => stealTo k n s
  | none => s

/-- A resident stolen entry waits for its reserved core, which takes it when it asks (R142, R171). -/
def reservedArrival (s : State) (h : Nat) : Option (Nat × Nat) :=
  (s.gh.res.filter (fun r => decide (r.2.core / 16 = h) && reservedCore s r.1 == some r.2.core && waiting s r.2.core)).findSome?
    (fun r => match s.node? r.1 with
      | some d => if d.set.home ≠ h ∧ canTake s r.2.core r.1 d ∧ d.writeBack.isNone then some (r.2.core, r.1) else none
      | none => none)

/-- A dispatch decision for a cluster: an entry of its own store, else a stolen entry that became resident, else a steal (R141,
R142). Nothing is dispatched while BULL_CTL.EN = 0. -/
def dispatchCluster (h : Nat) (s : State) : State :=
  if s.flag fBullCtlEn then
    match scanLocal h (storeOrder s h) s with
    | (some s', _) => s'
    | (none, s') =>
      match reservedArrival s' h with
      | some (k, n) => deliver n k false s'
      | none => stealFor h s'
  else s

/-! ## Delay lists -/

/-- The tick, as an extended count, that a timer's DUE stands for. -/
def timerKey (t : Timer) : Int := (t.insTick : Int) + tickDiff t.due t.insTick

/-- The tick at which a timer falls due: DUE, or the next tick after a late insertion (R153, R155). -/
def timerFireTick (t : Timer) : Nat :=
  if 0 < tickDiff t.due t.insTick then (timerKey t).toNat else t.insTick + 1

/-- Whether a timer precedes another in a list (R153). -/
def timerBefore (a b : Timer) : Bool :=
  decide (timerKey a < timerKey b) || (decide (timerKey a = timerKey b) && decide (a.order < b.order))

/-- Whether a timer is at the head of its list (R153, R156). -/
def timerAtHead (s : State) (t : Timer) : Bool :=
  s.bull.timers.all (fun x => x.2.list != t.list || !timerBefore x.2 t)

/-- A free timer, from a free start (which one Bullpen takes the spec leaves open). -/
def nextFreeTimer (ts : List (Nat × Timer)) : Nat → Nat → Option Nat
  | _, 0 => none
  | i, fuel + 1 => if (mapFind? i ts).isNone then some i else nextFreeTimer ts ((i + 1) % 16384) fuel

/-- Inserts a timer; the answer is its id, or none where all 16,384 are armed (R153, R155, R157). -/
def insertTimer (list target flag due : Nat) (dropLate report : Bool) (tag : Nat) (s : State) : Option Nat × State :=
  if 16384 ≤ s.bull.timers.length then (none, s)
  else
    let (st, s) := s.draw
    match nextFreeTimer s.bull.timers (st % 16384) 16384 with
    | none => (none, s)
    | some i =>
      let t : Timer := { list, target, flag, due := due % W32, dropLate, report, tag, order := s.bull.order, insTick := s.tick, held := false }
      (some i, { s with bull := { s.bull with timers := mapInsert i t s.bull.timers, order := s.bull.order + 1 } })

/-- Writes a completion record (R158). -/
def tcrWrite (id : Nat) (t : Timer) (late : Bool) (lateness : Nat) (dropped : Bool) (s : State) : State :=
  let size := s.fld fBullTcrSizeEntries
  let head := s.fld fBullTcrHeadIndex
  if ringFull head (s.fld fBullTcrTailIndex) size then raiseFld 0x04 fBullIntStatTcrOvf (s.bump fBullTcrLostCount 1)
  else
    let base := s.fld fBullTcrBaseLoAddr * 16 + s.fld fBullTcrBaseHiAddr * 2 ^ 32
    let bs := leBytes 4 (id + (if late then 7 else 0) * 65536 + bitOf dropped * 2 ^ 24) ++ leBytes 4 t.tag ++
      leBytes 4 (t.target + lateness * 2 ^ 18) ++ leBytes 4 t.due
    raiseFld 0x04 fBullIntStatTcr ((s.hbmWrite (base + 16 * head) bs).setFld fBullTcrHeadIndex ((head + 1) % size))

/-- Fires a timer now: posts its flag, or flag 15 where it is late and DROPLATE = 1, and frees it; held while the target's ready
store is full (R153, R154, R156). -/
def fireTimer (id : Nat) (t : Timer) (s : State) : State :=
  let l := (s.tick : Int) - timerKey t
  let late := decide (0 < l)
  let lateness := min l.toNat 16383
  let dropped := late && t.dropLate
  match postNode t.target (if dropped then 0x8000 else 2 ^ t.flag) s with
  | none => { s with bull := { s.bull with timers := mapInsert id { t with held := true } s.bull.timers } }
  | some s =>
    let s := { s with bull := { s.bull with timers := mapErase id s.bull.timers } }
    let s := if late then (s.updNode t.target (fun d => { d with late := max d.late lateness })).bump fBullLateTimersCount 1 else s
    let s := pmuEvent 256 0x104 1 s
    if t.report then tcrWrite id t late lateness dropped s else s

/-! ## Beats -/

/-- A beat generator. -/
def State.gen (s : State) (g : Nat) : BeatGen := mapGet {} g s.bull.beats

/-- Changes a beat generator. -/
def State.updGen (s : State) (g : Nat) (f : BeatGen → BeatGen) : State :=
  { s with bull := { s.bull with beats := mapUpd {} g f s.bull.beats } }

/-- Posts a beat flag to one member and counts an overlap (R150, R152). -/
def beatPost (g n : Nat) (s : State) : Option State :=
  let f := 2 ^ (s.gen g).postFlag
  let again := match s.node? n with | some d => (d.flags ||| d.recFlags) &&& f != 0 | none => false
  match postNode n f s with
  | none => none
  | some s =>
    let s := pmuEvent 256 0x103 1 s
    some (if again then (s.updNode n (fun d => { d with overlap := (d.overlap + 1) % 65536 })).bump (fBullBeatOverlapCount g) 1 else s)

/-- The poster serves the beats in order until all are posted or one post has to wait (R150, R151, R159). -/
def runPoster : Nat → State → State
  | 0, s => s
  | fuel + 1, s =>
    match s.bull.poster with
    | [] => s
    | g :: rest =>
      let b := s.gen g
      match b.posting with
      | [] =>
        match b.waiting with
        | f :: fs => runPoster fuel (s.updGen g (fun b => { b with waiting := fs, posting := b.members, postFlag := f }))
        | [] => runPoster fuel { s with bull := { s.bull with poster := rest } }
      | n :: ms =>
        match beatPost g n s with
        | none => s
        | some s => runPoster fuel (s.updGen g (fun b => { b with posting := ms }))

/-- Steps that bring the poster to the end of everything queued. -/
def posterFuel (s : State) : Nat :=
  1 + ((s.bull.beats.map (fun b => b.2.posting.length + 2 + b.2.waiting.length * (b.2.members.length + 1))).foldl (· + ·) 0)

/-- Lets the poster run. -/
def postBeats (s : State) : State := runPoster (posterFuel s) s

/-- The first START + k × Q after a tick, all modulo 2^32 (R151). -/
def firstBoundary (start q now : Nat) : Nat :=
  if after start now then start % W32
  else (start + ((-tickDiff start now).toNat / q + 1) * q) % W32

/-- The extended tick of a generator's next beat: its catch-up beat first (R58, R150). -/
def beatTick (s : State) (b : BeatGen) : Nat :=
  match b.catchUp with
  | some t => t
  | none => s.tick + (b.next + W32 - s.mtc) % W32

/-- A generator beats: it queues a post of its flag to every member and moves NEXT; new settings then apply (R150, R151). -/
def startBeat (g : Nat) (s : State) : State :=
  let b := s.gen g
  let caught := b.catchUp.isSome
  let s := s.updGen g (fun b => { b with
    next := if caught then b.next else (b.next + b.q) % W32
    catchUp := none })
  let s := if b.posting.isEmpty then
      let s := s.updGen g (fun b => { b with posting := b.members, postFlag := b.flag })
      { s with bull := { s.bull with poster := s.bull.poster ++ [g] } }
    else s.updGen g (fun b => { b with waiting := b.waiting ++ [b.flag] })
  let s := match b.newSet with
    | some x => s.updGen g (fun b => { b with q := x.q, flag := x.flag, next := firstBoundary x.next x.q s.mtc, newSet := none })
    | none => s
  postBeats s

/-- A forward step of MTC over an enabled generator's beats: one catch-up beat at the next tick, and the rest counted (R58,
R152). A beat tick that MTC lands on counts as jumped over. Where the first quantum boundary after the new MTC is that next tick itself, the
catch-up beat and the boundary's own beat both come at it (DESIGN CHOICE, assumption 42). -/
def beatStep (old new g : Nat) (s : State) : State :=
  let b := s.gen g
  if !b.en then s
  else
    let due := old + (b.next + W32 - old % W32) % W32
    let pend := match b.catchUp with | some t => decide (t ≤ new) | none => false
    let jumped := if due ≤ new ∧ 0 < b.q then (new - due) / b.q + 1 else 0
    if jumped = 0 && !pend then s
    else
      let missed := if pend then jumped else jumped - 1
      let s := s.updGen g (fun b => { b with next := (b.next + jumped * b.q) % W32, catchUp := some (new + 1) })
      if missed = 0 then s else raiseFld 0x04 fBullIntStatBeatMiss (s.bump (fBullBeatMissCount g) missed)

/-- Every generator through a forward step (R58). -/
def beatsStep (old new : Nat) (s : State) : State := (List.range 8).foldl (fun s g => beatStep old new g s) s

/-! ## Committing Bullpen operations at DONE -/

/-- Commits pending Bullpen operations in program order, up to one that has to wait (R145, R146, R157). -/
def commitBull (home : Nat) : List RunOp → State → List RunOp × State
  | [], s => ([], s)
  | .sig t f :: r, s =>
    match postNode t f s with
    | some s => commitBull home r s
    | none => (.sig t f :: r, s)
  | .arm t :: r, s =>
    match armNode t s with
    | some s => commitBull home r s
    | none => (.arm t :: r, s)
  | .ncan t :: r, s => commitBull home r (cancelNode t s)
  | .sigd t d f dl :: r, s =>
    match insertTimer home t f (s.mtc + 1 + d) dl false 0 s with
    | (some _, s) => commitBull home r s
    | (none, s) =>
      let s := raiseFld 0x04 fBullIntStatTimerFull (s.bump fBullTimerFullCount 1)
      match postNode t 0x8000 s with
      | some s => commitBull home r s
      | none => (.sig t 0x8000 :: r, s)
  | _ :: r, s => commitBull home r s

/-- The node's own transition at DONE (R134, R145, R146): CANCEL_PENDING becomes DISARMED; RUNNING becomes ARMED and is
evaluated, and waits ARMED where its store is full. -/
def nodeDone (n : Nat) (s : State) : State :=
  match s.node? n with
  | none => s
  | some d =>
    match d.st with
    | .cancelPending => disarm n s
    | .running =>
      let d := { d with st := .armed, rerun := false, barred := none }
      let s := s.setNode n d
      if satisfied d && !storeFull s d.set.home then enterReady n false false s else s
    | _ => s

end Sys2Proof.Machine
end

