-- ==== Sys2Proof/Machine/Flags.lean ====
section
/-!
DEFINITION. Flags.lean: what the arithmetic of a media core computes: ranges under the S bit, rounding, predicted residues, CF
(R224 to R242, R254).
-/

namespace Sys2Proof.Machine

/-- What an operation forms for one destination of 32 bits: the value, its predicted residue modulo 7 (R239), whether it
clamped, carry and overflow (R254), and whether the stored residues of the sources can be right. -/
structure Out where
  v   : Word
  p   : Nat
  sat : Bool := false
  c   : Bool := false
  ov  : Bool := false
  ok  : Bool := true
  deriving DecidableEq, Repr

/-- What an operation forms for one accumulator lane. -/
structure AOut where
  v   : Acc
  p   : Nat
  sat : Bool := false
  gov : Bool := false
  ok  : Bool := true
  deriving DecidableEq, Repr

/-- Residue of 2^k (R238). -/
def pow2r (k : Nat) : Nat := 2 ^ (k % 3)

/-- Inverse of the residue of 2^k modulo 7 (R238). -/
def pow2inv (k : Nat) : Nat := 2 ^ ((3 - k % 3) % 3)

/-- A residue moved by an integer, modulo 7. -/
def resAdd (p : Nat) (x : Int) : Nat := (((p : Int) + x) % 7).toNat

/-- A stored residue that is no residue is a mismatch (R238). -/
def resOk (r : Nat) : Bool := decide (r < 7)

/-- A lane or register whose stored residue is that of its value (R242). -/
def RVal.good (x : RVal) : Bool := x.r == res7 x.v.toInt

/-- An accumulator lane whose stored residue is that of its value. -/
def AVal.good (x : AVal) : Bool := x.r == res7 x.v.toInt

/-- Low `w` bits of an integer, as a signed value. -/
def wrapS (w : Nat) (e : Int) : Int := signedOf w (patternOf w e)

/-- Whether an integer lies outside a signed range of `w` bits. -/
def outS (w : Nat) (e : Int) : Bool := decide (e < -(2 ^ (w - 1)) ∨ (2 ^ (w - 1) : Int) - 1 < e)

/-- Brings an exact result into a signed range of `w` bits under the S bit (R231): the value, its predicted residue and whether
it clamped. `p` is the predicted residue of the exact result. -/
def fitS (w : Nat) (sat : Bool) (e : Int) (p : Nat) : Int × Nat × Bool :=
  if outS w e then
    if sat then (clampS w e, res7 (clampS w e), true)
    else (wrapS w e, resAdd p (-((pow2r w : Int) * ((e - wrapS w e) / 2 ^ w))), false)
  else (e, p % 7, false)

/-- A 32-bit result in the signed range (R231). -/
def fit32 (sat : Bool) (e : Int) (p : Nat) : Out :=
  let (v, p, cl) := fitS 32 sat e p
  { v := BitVec.ofInt 32 v, p := p, sat := cl, ov := outS 32 e }

/-- A result in the Q0.23 range, sign-extended (R226, R231). -/
def fit24 (sat : Bool) (e : Int) (p : Nat) : Out :=
  let (v, p, cl) := fitS 24 sat e p
  { v := BitVec.ofInt 32 v, p := p, sat := cl }

/-- An unsigned result of 32 bits (R231, R252): clamped to 0 or 0xFFFF_FFFF, or the low 32 bits. -/
def fitU (sat : Bool) (e : Int) (p : Nat) : Out :=
  if sat ∧ (e < 0 ∨ (W32 : Int) ≤ e) then
    let v : Word := if e < 0 then 0 else 0xFFFFFFFF
    { v := v, p := res7 v.toInt, sat := true }
  else
    let v := BitVec.ofInt 32 e
    { v := v, p := resAdd p (-(4 * ((e - v.toInt) / (W32 : Int)))) }

/-- An accumulator result under R230. -/
def fitA (sat : Bool) (e : Int) (p : Nat) : AOut :=
  let (v, p, cl) := fitS 56 sat e p
  { v := BitVec.ofInt 56 v, p := p, sat := cl, gov := outS 56 e && !sat }

/-- floor(x / 2^k), its dropped bits, and the convergent rounding increment (R232, R233). -/
def shiftRound (x : Int) (k : Nat) : Int × Int × Int :=
  let q := x / 2 ^ k
  let lo := x - q * 2 ^ k
  let rnd : Int := if k = 0 then 0 else if (2 ^ (k - 1) : Int) < lo ∨ (lo = 2 ^ (k - 1) ∧ q % 2 = 1) then 1 else 0
  (q, lo, rnd)

/-- Predicted residue of a shift right (R239). -/
def shrRes (r : Nat) (k : Nat) (lo rnd : Int) : Nat := (((((r : Int) - lo) * pow2inv k + rnd) % 7)).toNat

/-- Residue of the unsigned value of a word (R252, ADDU). -/
def uRes (x : RVal) : Nat := x.r + (if x.v.toInt < 0 then 4 else 0)

/-- Operand field of a multiply or of a W24 operation: bits [23:0] as a signed value (R225), and its residue (R240). -/
def field24 (x : RVal) : Int × Nat :=
  let f := signedOf 24 x.v.toNat
  (f, resAdd x.r (-((x.v.toInt - f) / 2 ^ 24)))

/-- A result that is one of its sources, moved (R239). -/
def moved (x : RVal) : Out := { v := x.v, p := x.r, ok := resOk x.r }

/-- A result of bitwise logic or of a bit-field operation on sources whose residues are checked (R239, R242). -/
def logicOut (v : Word) (ok : Bool) : Out := { v := v, p := res7 v.toInt, ok := ok }

/-- Number of leading zeros of a word (R252). -/
def clz32 (x : Word) : Nat := if x.toNat = 0 then 32 else 31 - Nat.log2 x.toNat

/-- Functions of the scalar ALU (R252). -/
inductive SFn where
  | add | sub | addu | subu | neg | abs | min | max | and_ | or_ | xor_ | andn | shl | shr | sar | srr | mul | mulu
  | mov | clz | bfx
  deriving DecidableEq, Repr

/-- Shift count of a scalar or vector shift (R252, R255). -/
def cnt5 (y : Word) : Nat := y.toNat % 32

/-- Shifts of a value of `w` bits read as signed, shared by the scalar, vector and immediate forms (R235, R239, R252, R255). -/
def shlOut (w : Nat) (sat : Bool) (x : Int) (r k : Nat) : Out :=
  let e := x * 2 ^ k
  let o := if w = 24 then fit24 sat e (r * pow2r k) else fit32 sat e (r * pow2r k)
  { o with ov := false, ok := resOk r }

/-- Arithmetic shift right, truncating or convergent (R235). -/
def sarOut (round : Bool) (x : Int) (r k : Nat) : Out :=
  let (q, lo, rnd) := shiftRound x k
  let rnd := if round then rnd else 0
  { v := BitVec.ofInt 32 (q + rnd), p := shrRes r k lo rnd, ok := resOk r }

/-- A result whose operation also reads a register that its predicted residue does not cover, as a shift count is: that register is checked by itself (R242,
R244). -/
def Out.reads (o : Out) (y : RVal) : Out := { o with ok := o.ok && y.good }

/-- What a scalar ALU function computes (R252, R254). -/
def saluOut (f : SFn) (sat : Bool) (x y : RVal) : Out :=
  let xi := x.v.toInt
  let yi := y.v.toInt
  let xn := x.v.toNat
  let yn := y.v.toNat
  let both := resOk x.r && resOk y.r
  match f with
  | .add => { fit32 sat (xi + yi) (x.r + y.r) with c := decide (W32 ≤ xn + yn), ok := both }
  | .sub => { fit32 sat (xi - yi) (x.r + 7 * y.r - y.r) with c := decide (yn ≤ xn), ok := both }
  | .addu => { fitU sat (xn + yn : Nat) (uRes x + uRes y) with c := decide (W32 ≤ xn + yn), ov := outS 32 (xi + yi), ok := both }
  | .subu => { fitU sat ((xn : Int) - yn) (uRes x + 7 * uRes y - uRes y) with c := decide (yn ≤ xn), ov := outS 32 (xi - yi), ok := both }
  | .neg => { fit32 sat (-xi) (6 * x.r) with c := decide (xn = 0), ok := resOk x.r }
  | .abs => { fit32 sat (if xi < 0 then -xi else xi) (if xi < 0 then 6 * x.r else x.r) with ok := resOk x.r }
  | .min => { moved (if yi < xi then y else x) with ok := x.good && y.good }
  | .max => { moved (if xi < yi then y else x) with ok := x.good && y.good }
  | .and_ => logicOut (x.v &&& y.v) (x.good && y.good)
  | .or_ => logicOut (x.v ||| y.v) (x.good && y.good)
  | .xor_ => logicOut (x.v ^^^ y.v) (x.good && y.good)
  | .andn => logicOut (x.v &&& ~~~y.v) (x.good && y.good)
  | .shl => (shlOut 32 sat xi x.r (cnt5 y.v)).reads y
  | .shr => logicOut (x.v >>> cnt5 y.v) (x.good && y.good)
  | .sar => (sarOut false xi x.r (cnt5 y.v)).reads y
  | .srr => (sarOut true xi x.r (cnt5 y.v)).reads y
  | .mul => { fit32 sat (xi * yi) (x.r * y.r) with ov := false, ok := both }
  | .mulu => { fitU sat ((xn * yn : Nat) : Int) (uRes x * uRes y) with ok := both }
  | .mov => moved x
  | .clz => logicOut (BitVec.ofNat 32 (clz32 x.v)) x.good
  | .bfx => logicOut (BitVec.ofNat 32 (xn / 2 ^ (yn % 32) % 2 ^ (yn / 256 % 32))) (x.good && y.good)

/-- CF after an instruction that updates it: Z and N describe the value written, and LM stays (R254). -/
def cfOf (cf : BitVec 16) (o : Out) : BitVec 16 :=
  (cf &&& 0xFFF0) ||| BitVec.ofNat 16 (bitOf (o.v == 0) + 2 * bitOf (o.v.getLsbD 31) + 4 * bitOf o.c + 8 * bitOf o.ov)

/-- CF with Z replaced (R262). -/
def cfZ (cf : BitVec 16) (z : Bool) : BitVec 16 := (cf &&& 0xFFFE) ||| BitVec.ofNat 16 (bitOf z)

/-- CF with LM replaced (R201, R255). -/
def cfLm (cf : BitVec 16) (lm : Nat) : BitVec 16 := (cf &&& 0x00FF) ||| BitVec.ofNat 16 (lm % 256 * 256)

/-- Functions of the vector ALU that write lanes (R255). -/
inductive VFn where
  | vadd | vsub | vneg | vabs | vmin | vmax | vand | vor | vxor | vshl | vshr | vsar | vsrr | vsel | vmov
  deriving DecidableEq, Repr

/-- Which source VMIN and VMAX select where bits [23:0] of the two lanes are equal at W24: the spec states none, and the choice
depends on the operands alone (R245). -/
def tieX (x y : Word) : Bool := Config.freeFn 1 (x.toNat * W32 + y.toNat) % 2 == 0

/-- What a vector ALU function computes in one lane; `m` is the lane's LM bit (R255). -/
def vlaneOut (f : VFn) (sat w24 m : Bool) (x y : RVal) : Out :=
  let xi := x.v.toInt
  let yi := y.v.toInt
  let both := resOk x.r && resOk y.r
  let fit := fun e p => if w24 then fit24 sat e p else fit32 sat e p
  let (xf, xr) := if w24 then field24 x else (xi, x.r)
  let (yf, _) := if w24 then field24 y else (yi, y.r)
  match f with
  | .vadd => { fit (xi + yi) (x.r + y.r) with ok := both }
  | .vsub => { fit (xi - yi) (x.r + 6 * y.r) with ok := both }
  | .vneg => { fit (-xi) (6 * x.r) with ok := resOk x.r }
  | .vabs => { fit (if xi < 0 then -xi else xi) (if xi < 0 then 6 * x.r else x.r) with ok := resOk x.r }
  | .vmin => { moved (if yf < xf ∨ (yf = xf ∧ !tieX x.v y.v) then y else x) with ok := x.good && y.good }
  | .vmax => { moved (if xf < yf ∨ (yf = xf ∧ !tieX x.v y.v) then y else x) with ok := x.good && y.good }
  | .vand => logicOut (x.v &&& y.v) (x.good && y.good)
  | .vor => logicOut (x.v ||| y.v) (x.good && y.good)
  | .vxor => logicOut (x.v ^^^ y.v) (x.good && y.good)
  | .vshl => { shlOut (if w24 then 24 else 32) sat xf xr (cnt5 y.v) with ok := resOk x.r && y.good }
  | .vshr => logicOut (x.v >>> cnt5 y.v) (x.good && y.good)
  | .vsar => { sarOut false xf xr (cnt5 y.v) with ok := resOk x.r && y.good }
  | .vsrr => { sarOut true xf xr (cnt5 y.v) with ok := resOk x.r && y.good }
  | .vsel => { moved (if m then x else y) with ok := x.good && y.good }
  | .vmov => moved x

/-- Compares of the vector ALU (R255). -/
inductive VCmp where
  | eq | lt | le
  deriving DecidableEq, Repr

/-- One lane of a vector compare (R255). -/
def vcmpLane (c : VCmp) (w24 : Bool) (x y : Word) : Bool :=
  let xf := if w24 then signedOf 24 x.toNat else x.toInt
  let yf := if w24 then signedOf 24 y.toNat else y.toInt
  match c with
  | .eq => decide (xf = yf)
  | .lt => decide (xf < yf)
  | .le => decide (xf ≤ yf)

/-- The multiply operations (R228). -/
inductive MFn where
  | mpy | mac | msu
  deriving DecidableEq, Repr

/-- One accumulator lane of a multiply operation (R227, R228, R239). -/
def macLane (f : MFn) (sat : Bool) (a : AVal) (x y : RVal) : AOut :=
  let (xf, xr) := field24 x
  let (yf, yr) := field24 y
  let p := xf * yf * 2
  let rp := 2 * xr * yr
  let ok := resOk x.r && resOk y.r
  match f with
  | .mpy => { fitA sat p rp with ok := ok }
  | .mac => { fitA sat (a.v.toInt + p) (a.r + rp) with ok := ok && resOk a.r }
  | .msu => { fitA sat (a.v.toInt - p) (a.r + 6 * rp) with ok := ok && resOk a.r }

/-- One lane of a deposit (R228). -/
def adepLane (sat : Bool) (x : RVal) : AOut :=
  let (xf, xr) := field24 x
  { fitA sat (xf * 2 ^ 24) xr with ok := resOk x.r }

/-- One lane of AADD or ASUB (R228). -/
def aaddLane (sub sat : Bool) (x y : AVal) : AOut :=
  let e := if sub then x.v.toInt - y.v.toInt else x.v.toInt + y.v.toInt
  { fitA sat e (x.r + (if sub then 6 * y.r else y.r)) with ok := resOk x.r && resOk y.r }

/-- One lane of an accumulator shift right (R235, R257). -/
def asrLane (round : Bool) (x : AVal) (k : Nat) : AOut :=
  let (q, lo, rnd) := shiftRound x.v.toInt k
  let rnd := if round then rnd else 0
  { v := BitVec.ofInt 56 (q + rnd), p := shrRes x.r k lo rnd, ok := resOk x.r }

/-- One lane of an accumulator shift left (R230, R257). -/
def aslLane (sat : Bool) (x : AVal) (k : Nat) : AOut :=
  { fitA sat (x.v.toInt * 2 ^ k) (x.r * pow2r k) with ok := resOk x.r }

/-- An extraction of one lane (R233): `w` is 24 or 16, K = 24 − sh or 32 − sh. -/
def extLane (sat q15 : Bool) (sh : Int) (x : AVal) : Out :=
  let w : Nat := if q15 then 16 else 24
  let k := ((if q15 then 32 else 24) - sh).toNat
  let (q, lo, rnd) := shiftRound x.v.toInt k
  let (v, p, cl) := fitS w sat (q + rnd) (shrRes x.r k lo rnd)
  { v := BitVec.ofInt 32 v, p := p, sat := cl, ok := resOk x.r }

/-- The residue check of EX2/WB on a result (R242). -/
def Out.check (o : Out) : Bool := o.ok && o.p % 7 == res7 o.v.toInt

/-- The residue check on an accumulator result (R242). -/
def AOut.check (o : AOut) : Bool := o.ok && o.p % 7 == res7 o.v.toInt

end Sys2Proof.Machine
end

