-- ==== Sys2Proof/Machine/Operands.lean ====
section
/-!
DEFINITION. Operands.lean: a media core's registers, its addressing modes and its data memory (R194 to R211, R249, R258, R259).
-/

namespace Sys2Proof.Machine

/-! ## Registers -/

/-- A scalar register; S0 reads as zero (R200). -/
def Core.sReg (c : Core) (i : Nat) : RVal := if i = 0 then {} else mapGet {} i c.s

/-- Writes a scalar register; a write to S0 is discarded (R200). -/
def Core.setS (c : Core) (i : Nat) (x : RVal) : Core := if i = 0 then c else { c with s := mapInsert i x c.s }

/-- A lane of a vector register (R200). -/
def Core.vLane (c : Core) (i l : Nat) : RVal := mapGet {} (8 * i + l) c.v

/-- Writes a lane of a vector register. -/
def Core.setV (c : Core) (i l : Nat) (x : RVal) : Core := { c with v := mapInsert (8 * i + l) x c.v }

/-- A lane of an accumulator (R200). -/
def Core.aLane (c : Core) (i l : Nat) : AVal := mapGet {} (8 * i + l) c.a

/-- Writes a lane of an accumulator. -/
def Core.setA (c : Core) (i l : Nat) (x : AVal) : Core := { c with a := mapInsert (8 * i + l) x c.a }

/-- A register by PN code: P0 to P15, then N0 to N15 (R249). -/
def Core.pnReg (c : Core) (i : Nat) : Word := mapGet 0 i c.pn

/-- Writes a register by PN code. -/
def Core.setPn (c : Core) (i : Nat) (x : Word) : Core := { c with pn := mapInsert i x c.pn }

/-- A register by BL code: B0 to B7 at 0 to 7, L0 to L7 at 16 to 23 (R249). -/
def Core.blReg (c : Core) (i : Nat) : Word := mapGet 0 i c.bl

/-- Writes a register by BL code. -/
def Core.setBl (c : Core) (i : Nat) (x : Word) : Core := { c with bl := mapInsert i x c.bl }

/-- ST: LDEPTH, XBUSY, XOUT and LCOUNT (R201). -/
def Core.st (c : Core) : Word :=
  let lc := match c.loops with | l :: _ => l.left | [] => 0
  BitVec.ofNat 32 (c.loops.length + 4 * bitOf (!c.moves.isEmpty) + 8 * c.moves.length + 65536 * lc)

/-- Sets bits of SF; no instruction that sets one clears another (R201). -/
def Core.stick (c : Core) (m : BitVec 20) : Core := { c with sf := c.sf ||| m }

/-- The lanes that Q selects (R250). -/
def qLanes (q : Bool) : List Nat := if q then List.range 8 else [0]

/-- SF.SAT of a lane (R201). -/
def satBit (l : Nat) (b : Bool) : BitVec 20 := if b then BitVec.ofNat 20 (2 ^ (8 + l)) else 0

/-- SF.GOV of a lane (R201). -/
def govBit (l : Nat) (b : Bool) : BitVec 20 := if b then BitVec.ofNat 20 (2 ^ l) else 0

/-- SF.CIRC_FIX (R201). -/
abbrev sfCircFix : BitVec 20 := 0x10000

/-- SF.RES_ERR (R201). -/
abbrev sfResErr : BitVec 20 := 0x20000

/-- SF.PMU_DENY (R201). -/
abbrev sfPmuDeny : BitVec 20 := 0x40000

/-! ## Addressing -/

/-- The effective address, the new Pn if the access writes it, and whether a pointer out of range was reduced (R206). -/
structure Addr where
  ea  : Nat
  p   : Option Word
  fix : Bool
  deriving DecidableEq, Repr

/-- Address generation (R206): `o` is the offset of the mode in bytes, added before the access where `pre`, and to Pn where
`post`. A reduced pointer that no mode updates is written back (DEDUCED, assumption 13). -/
def effAddr (c : Core) (p : Nat) (o : Int) (pre post : Bool) : Addr :=
  let pv : Int := (c.pnReg p).toNat
  let d : Int := if pre then o else 0
  let l : Int := (c.blReg (16 + p)).toNat
  if 8 ≤ p ∨ l = 0 then
    { ea := patternOf 32 (pv + d), p := if post then some (BitVec.ofInt 32 (pv + o)) else none, fix := false }
  else
    let b : Int := (c.blReg p).toNat
    let fix := decide (pv < b) || decide (b + l ≤ pv)
    { ea := patternOf 32 (b + (pv - b + d) % l)
      p := if post then some (BitVec.ofInt 32 (b + (pv - b + o) % l))
        else if fix then some (BitVec.ofInt 32 (b + (pv - b) % l)) else none
      fix := fix }

/-- The address operand of a single load or store, of access size `size` (R206, R258). -/
def memAddr (c : Core) (m : MemOp) (size : Nat) : Addr :=
  match m.mode with
  | 0 => effAddr c m.p 0 false false
  | 1 => effAddr c m.p (m.disp * size) true false
  | 2 => effAddr c m.p (c.pnReg (16 + m.n)).toInt false true
  | _ => effAddr c m.p (m.disp * size) false true

/-- An operand of a dual load, of access size `size` (R259). -/
def dualAddr (c : Core) (m : DualOp) (size : Nat) : Addr :=
  match m.mode with
  | 0 => effAddr c m.p 0 false false
  | 1 => effAddr c m.p size false true
  | 2 => effAddr c m.p (c.pnReg (16 + m.p)).toInt false true
  | _ => effAddr c m.p (-(size : Int)) false true

/-- The regions of the data address space (R194). -/
inductive Region where
  | localRam | sharedRam
  deriving DecidableEq, Repr

/-- Whether bytes lie in scratch or, while a node runs, in its own slots (R194, R196). -/
def localOk (c : Core) (a size : Nat) : Bool :=
  decide (a + size ≤ 0x80000) &&
  (decide (c.mode ≠ .run) || decide (a + size ≤ 0x20000) ||
   (decide (c.ctxAddr ≤ a) && decide (a + size ≤ c.ctxAddr + 0x2000 * c.ctxPages)) ||
   (decide (a < 0x20000) && decide (c.ctxAddr = 0x20000) && decide (a + size ≤ c.ctxAddr + 0x2000 * c.ctxPages)))

/-- The region of an access, or none where it raises ADDR (R194, R196). -/
def region (c : Core) (a size : Nat) : Option Region :=
  if localOk c a size then some .localRam
  else if 0x100000 ≤ a ∧ a + size ≤ 0x200000 then some .sharedRam
  else none

/-! ## Data memory -/

/-- Whether a local address lies in scratch or in a slot that holds no page since power-up (R168, R492). -/
def looseByte (c : Core) (a : Nat) : Bool := decide (a < 0x20000) || !c.filled.contains ((a - 0x20000) / 0x2000)

/-- A byte of core local RAM; scratch that the run has not written is undefined (R168). -/
def lramByte (c : Core) (a : Nat) : Byte :=
  if looseByte c a then
    match mapFind? a c.scratch with
    | some b => b
    | none => BitVec.ofNat 8 (Config.freeFn (c.scratchId + 2) a)
  else memRead c.ram a

/-- Writes a byte of core local RAM. -/
def lramPut (a : Nat) (b : Byte) (c : Core) : Core :=
  if looseByte c a then { c with scratch := mapInsert a b c.scratch } else { c with ram := memWrite c.ram a b }

/-- Writes bytes of core local RAM upward from an address. -/
def lramPutAll (a : Nat) : List Byte → Core → Core
  | [], c => c
  | b :: t, c => lramPutAll (a + 1) t (lramPut a b c)

/-- Bytes of core local RAM. -/
def lramRead (c : Core) (a n : Nat) : List Byte := (List.range n).map (fun i => lramByte c (a + i))

/-- A word of core local RAM. -/
def lramWord (c : Core) (a : Nat) : Word := BitVec.ofNat 32 (leNat (lramRead c a 4))

/-- HBM address of the pool (R178). -/
def poolBase (s : State) : Nat := s.fld fSeedPoolBaseLoAddr * 0x1000 + s.fld fSeedPoolBaseHiAddr * W32

/-- HBM address of a byte of a buffer (R178, R208). -/
def bufAddr (s : State) (h ofs : Nat) : Nat := poolBase s + 256 * ((s.chain h).getD (ofs / 256) 0) + ofs % 256

/-- Bytes of a buffer. -/
def bufRead (s : State) (h ofs n : Nat) : List Byte :=
  let gs := s.chain h
  (List.range n).map (fun i => memRead s.hbm (poolBase s + 256 * (gs.getD ((ofs + i) / 256) 0) + (ofs + i) % 256))

/-- Writes bytes into a buffer. -/
def bufWrite (h ofs : Nat) (bs : List Byte) (s : State) : State :=
  let gs := s.chain h
  let base := poolBase s
  { s with hbm := ((List.range bs.length).zip bs).foldl (fun m x =>
      memWrite m (base + 256 * (gs.getD ((ofs + x.1) / 256) 0) + (ofs + x.1) % 256) x.2) s.hbm }

/-- A word of a buffer. -/
def bufWord (s : State) (h ofs : Nat) : Word := BitVec.ofNat 32 (leNat (bufRead s h ofs 4))

/-- The word at a local address as a load sees it while moves into that range are outstanding: the old or the new value of each
word (R210). -/
def raceWord (k a : Nat) (s : State) : Word × State :=
  let c := s.cor k
  let w := lramWord c a
  c.moves.foldl (fun (x : Word × State) m =>
    if !m.toBuf ∧ m.la ≤ a ∧ a + 4 ≤ m.la + m.len then
      let (f, s') := x.2.draw
      (if f % 2 = 1 then bufWord s' m.handle (m.ofs + (a - m.la)) else x.1, s')
    else x) (w, s)

/-- The words from `a` on that an access of `n` words sees. -/
def raceWords (k a : Nat) : Nat → State → List Byte × State
  | 0, s => ([], s)
  | n + 1, s =>
    let (w, s) := raceWord k a s
    let (bs, s) := raceWords k (a + 4) n s
    (leBytes 4 w.toNat ++ bs, s)

/-- Bytes that a load of `size` bytes returns from core local RAM. -/
def localLoad (k a size : Nat) (s : State) : List Byte × State :=
  let base := a / 4 * 4
  let (bs, s) := raceWords k base ((size + 3) / 4) s
  ((bs.drop (a - base)).take size, s)

/-- A byte of a cluster's shared data RAM, 0 where nothing has written it. -/
def sharedRead (s : State) (n a size : Nat) : List Byte := memReadList (s.cl n).data (a - 0x100000) size

/-- Remembers the words of outstanding moves that a store changes (R269). -/
def noteStore (a size : Nat) (c : Core) : Core :=
  let ws := (List.range ((size + 3) / 4)).map (fun i => a / 4 * 4 + 4 * i)
  { c with moves := c.moves.map (fun m => { m with hit := ws.foldl (fun h w =>
      if m.la ≤ w ∧ w + 4 ≤ m.la + m.len ∧ h.all (fun x => x.1 != w) then h ++ [(w, lramWord c w)] else h) m.hit }) }

/-- Marks the context pages of local bytes dirty (R175). -/
def markDirty (a size : Nat) (c : Core) : Core :=
  if c.mode = .run ∧ 0x20000 ≤ a + size - 1 ∧ c.ctxAddr ≤ a + size - 1 then
    let ps := (List.range c.ctxPages).filter (fun p =>
      decide (c.ctxAddr + 0x2000 * p < a + size) && decide (a < c.ctxAddr + 0x2000 * (p + 1)))
    { c with run := { c.run with dirty := ps.foldl (fun d p => if d.contains p then d else d ++ [p]) c.run.dirty } }
  else c

/-- Stores bytes into core local RAM (R175, R269). -/
def localStore (k a : Nat) (bs : List Byte) (s : State) : State :=
  s.updCore k (fun c => markDirty a bs.length (lramPutAll a bs (noteStore a bs.length c)))

/-- Stores bytes into a cluster's shared data RAM (R197). -/
def sharedStore (n a : Nat) (bs : List Byte) (s : State) : State :=
  s.updClu n (fun c => { c with data := memWriteList c.data (a - 0x100000) bs })

end Sys2Proof.Machine
end

