-- ==== Sys2Proof/Machine/Ops.lean ====
section
/-!
DEFINITION. Ops.lean: the named operations of a media core: issue, exceptions, strikes and retirement, aborts, and the return to the
home program (R202 to R218, R432, R435, R457 to R459).
-/

namespace Sys2Proof.Machine

/-! ## Leaving a run -/

/-- Home program address of a core (R214, R221). -/
def homePc (s : State) (k : Nat) : Nat := 4 * s.fld (fCoreHomePc k)

/-- Invalidates the contexts on a core that no write-back still needs (R219, R435). -/
def invalidateIdle (k : Nat) (s : State) : State :=
  let ns := (s.gh.res.filter (fun r => r.2.core == k)).map (fun r => r.1)
  (ns.filter (fun n => match s.node? n with | some d => d.writeBack.isNone | none => true)).foldl (fun s n => invalidate n s) s

/-- The core resumes at CLUn_Cm_HOME.PC with its loop stack empty (R214, R215, R216). A core that has become a spare enters
SPARE and loses its contexts (R219). -/
def coreHome (k : Nat) (s : State) : State :=
  let pc := homePc s k
  let s := s.updCore k (fun c => { c with
    mode := .wait, blocked := false, pc := pc, loops := [], moves := [], stall := .none, run := {}, commit := [] })
  if (spareCores s (k / 16)).contains k then invalidateIdle k (pmuSync k s) else s

/-- Writes the units of 16 B of an aborted run's moves into buffers that had been moved when the run stopped, which are a free
value (R210, R211). -/
def landAborted (k : Nat) (s : State) : State :=
  (s.cor k).moves.foldl (fun s m =>
    if m.toBuf then
      let (f, s) := s.draw
      let n := min m.len (f % (m.len / 16 + 2) * 16)
      bufWrite m.handle m.ofs (lramRead (s.cor k) m.la n) s
    else s) s

/-- Step 1 of an abort (R148, R176): the core stops, the node enters ABORTING, its resident copy is invalidated, and what is
to be undone is kept. -/
def abortStart (k : Nat) (s : State) : State :=
  let n := (s.cor k).node
  let run := (s.cor k).run
  let s := landAborted k s
  let s := s.updNode n (fun d => { d with
    st := .aborting, recCancel := d.recCancel || decide (d.st = .cancelPending), undo := some run, runCore := k })
  let s := invalidate n s
  let s := pmuEvent k 0x052 1 (s.bump (fCoreAbortsCount k) 1)
  s.updCore k (fun c => { c with stall := .aborting, moves := [], run := {} })

/-! ## Strikes and retirement -/

/-- Strikes of a core that still count, as REFCLK cycles (R435, R444). -/
def liveStrikes (s : State) (k : Nat) : List Nat :=
  let w := s.fld fUmpRetireWindow * 25000000
  (mapGet [] k s.ump.strikes).filter (fun t => decide (w = 0) || decide (s.clk < t + w))

/-- Adds a strike to a core (R435). -/
def addStrike (k : Nat) (s : State) : State :=
  { s with ump := { s.ump with strikes := mapInsert k (s.clk :: liveStrikes s k) s.ump.strikes } }

/-- Brings the listed counters of a cluster's cores up to now, before which of them are spare changes (R449). -/
def syncCluster (n : Nat) (s : State) : State := (List.range 16).foldl (fun s m => pmuSync (16 * n + m) s) s

/-- Removes page-ins that target a core (R169). -/
def dropPageIns (k : Nat) (s : State) : State :=
  s.setGh (fun g => { g with pageIns := g.pageIns.filter (fun p => p.2.core != k) })

/-- Retires a core (R435, steps 1 to 3): holds for it end, its contexts are invalidated once no write-back needs them, and
CLUn_SPARES.COUNT falls by 1 where it is above 0. -/
def retireCore (k : Nat) (s : State) : State :=
  let s := syncCluster (k / 16) s
  let s := s.updCore k (fun c => { c with mode := .retired, blocked := false, loops := [], moves := [], stall := .none, run := {}, commit := [] })
  let s := { s with bull := { s.bull with nodes := s.bull.nodes.map (fun x =>
    match x.2.hold with
    | some (c, _) => if c = k then (x.1, { x.2 with hold := none }) else x
    | none => x) } }
  let s := invalidateIdle k (dropPageIns k s)
  let c := s.fld (fCluSparesCount (k / 16))
  let s := if 0 < c then s.setFld (fCluSparesCount (k / 16)) (c - 1) else s
  tryIdle (k / 16) s

/-! ## Exceptions -/

/-- What an exception is about: its code (R216), DETAIL of its record (R430), whether it adds a strike, and whether an HBM error
caused it, which is recorded as 0x13 (R432). -/
structure Exc where
  code   : Nat
  detail : Nat
  strike : Bool := false
  hbm    : Bool := false
  deriving DecidableEq, Repr

/-- Taking an exception (R216, R218, R243, R432, R435): the core's registers record it, a residue mismatch sets SF.RES_ERR, Umpire records it and counts a strike, and the
run is aborted, or a core that runs no node is HALTED; a core whose strikes reach the limit is retired. -/
def takeException (k : Nat) (e : Exc) (s : State) : State :=
  let c := s.cor k
  let inRun := decide (c.mode = .run)
  let node := if inRun then c.node else 0
  let s := s.setFld (fCoreExcCode k) e.code
  let s := s.setFld (fCoreExcValid k) 1
  let s := s.setFld (fCoreExcPcPc k) c.pc
  let s := s.setFld (fCoreExcNodeNode k) node
  let s := if e.code = 8 then s.bump fBullBudgetOvrCount 1 else s
  let s := if e.strike then addStrike k s else s
  let s := if e.code = 6 then s.updCore k (fun c => c.stick sfResErr) else s
  let retire := e.strike && decide (s.fld fUmpRetireStrikes ≤ (liveStrikes s k).length)
  let s := if inRun then abortStart k s
    else s.updCore k (fun c => { c with mode := .halted, blocked := false, loops := [], stall := .none, moves := [] })
  let s := if retire then retireCore k s else tryIdle (k / 16) s
  let src := 0x20 + k / 16
  let s := umpEvent { cls := 1, core := k % 16, source := src, cause := if e.hbm then 0x13 else e.code, strike := e.strike, retired := retire, node := node, detail := e.detail } s
  if retire then umpEvent { cls := 2, core := k % 16, source := src, cause := 0x1D, retired := true, node := node, detail := e.detail } s else s

/-! ## Scout -/

/-- A core's Scout; its LFSR resets to 0xACE1 XOR k (R462). -/
def State.scoutOf (s : State) (k : Nat) : Scout := mapGet { lfsr := 0xACE1 ^^^ k } k s.scout

/-- Writes the record of a tagged instruction (R458, R459). Stage times, stall causes and latencies are free values, since the
model has no pipeline. -/
def scoutRecord (k op outcome pc node : Nat) (s : State) : State :=
  let x := s.scoutOf k
  if !x.tagged then s
  else
    let rer := match s.node? node with | some d => bitOf d.rerun | none => 0
    let (a, s) := s.draw
    let (b, s) := s.draw
    let (c, s) := s.draw
    let (d, s) := s.draw
    let (e, s) := s.draw
    let ws : List Word := [BitVec.ofNat 32 pc, BitVec.ofNat 32 (node % 2 ^ 18 + rer * 2 ^ 18 + outcome * 2 ^ 20 + op * 2 ^ 24),
      BitVec.ofNat 32 a, BitVec.ofNat 32 b, BitVec.ofNat 32 (c % 2 ^ 24), BitVec.ofNat 32 (d % 512), BitVec.ofNat 32 (e % 65536), BitVec.ofNat 32 x.seq]
    let held := x.held + 1
    { s with scout := mapInsert k { x with tagged := false, seq := (x.seq + 1) % 65536, ring := mapInsert (x.seq % 16) ws x.ring, held := held, full := decide (16 ≤ held) } s.scout }

/-! ## Issue -/

/-- Whether a core executes instructions: in a run, or in its home program, and not stalled (R140, R210, R214, R218). -/
def canIssue (s : State) (k : Nat) : Bool :=
  let c := s.cor k
  let pw := (s.cl (k / 16)).pwr
  decide (k < 256) && (decide (pw = .run) || decide (pw = .idle)) && decide (c.stall = .none) &&
    (decide (c.mode = .run) || (decide (c.mode = .wait) && !c.blocked && isWorking s k))

/-- A fetch outside the code space, or misaligned (R198, R260). -/
def fetchBad (pc : Nat) : Bool := decide (pc % 4 ≠ 0) || !(decide (pc < 0x100000) || (decide (0x10000000 ≤ pc) && decide (pc < 0x20000000)))

/-- HBM address of a code address of a cluster (R198, R221). -/
def codeHbm (s : State) (n pc : Nat) : Nat := s.fld (fCluCodeBaseAddr n) * 0x10000000 + (pc - 0x10000000)

/-- What the fetch at a PC raises: FETCH outside the code space, and for an HBM read that fails; ECC for a word of shared code RAM that has been found
uncorrectable (R198, R216, R432). -/
def fetchExc (s : State) (k pc : Nat) : Option Exc :=
  let n := k / 16
  if fetchBad pc then some { code := 9, detail := pc }
  else if !s.flag fUmpCtlEccEn then none
  else if pc < 0x100000 then if mapFind? pc (s.cl n).badCode = some () then some { code := 7, detail := pc } else none
  else if mapFind? (codeHbm s n pc) s.hbmBad = some () then some { code := 9, detail := codeHbm s n pc, hbm := true }
  else none

/-- What one instruction does to its core. -/
inductive CoreRes where
  | done (s : State)
  | jump (target : Nat) (s : State)
  | skip (target : Nat) (s : State)
  | stay (s : State)
  | exc (e : Exc) (s : State)
  deriving DecidableEq, Repr

/-- The loop levels and the next PC after the instruction at a PC (R212, R213). -/
def loopEnd (pc : Nat) : List LoopLvl → List LoopLvl × Nat
  | [] => ([], (pc + 4) % W32)
  | l :: t =>
    if l.last = pc then
      if 1 < l.left then ({ l with left := l.left - 1 } :: t, l.first) else loopEnd pc t
    else (l :: t, (pc + 4) % W32)

/-- The loop levels after a taken transfer: a level whose body does not hold the target ends (R213). -/
def loopLeave (target : Nat) : List LoopLvl → List LoopLvl
  | [] => []
  | l :: t => if l.first ≤ target ∧ target ≤ l.last then l :: t else loopLeave target t

/-- Issues one instruction at a core's PC (R202, R205, R212 to R217, R248): `bar` says that it may not end a loop body, `wf`
that its encoding is legal. A core that does not execute leaves the command without effect. -/
def issue (k op : Nat) (bar wf : Bool) (f : State → CoreRes) (s : State) : State :=
  if !canIssue s k then s
  else
    let s := if (s.cl (k / 16)).pwr = .idle then setPwr (k / 16) .run s else s
    let c := s.cor k
    let pc := c.pc
    let node := if c.mode = .run then c.node else 0
    let tag := fun (o : Nat) (s : State) => if c.mode = .run then scoutRecord k op o pc node s else s
    let bad := fun (e : Exc) (s : State) => tag 2 (takeException k e s)
    match fetchExc s k pc with
    | some e => bad e s
    | none =>
    if !wf then bad { code := 1, detail := pc } s
    else if bar && c.loops.any (fun l => l.last == pc) then bad { code := 4, detail := pc } s
    else
      match f s with
      | .exc e s' => bad e s'
      | .stay s' => s'
      | .done s' =>
        let x := loopEnd pc (s'.cor k).loops
        tag 0 (pmuEvent k 0x001 1 (s'.updCore k (fun c => { c with loops := x.1, pc := x.2 })))
      | .jump t s' => tag 0 (pmuEvent k 0x021 1 (pmuEvent k 0x001 1 (s'.updCore k (fun c => { c with loops := loopLeave t c.loops, pc := t }))))
      | .skip t s' => tag 0 (pmuEvent k 0x001 1 (s'.updCore k (fun c => { c with pc := t })))

/-- An exception at the core's PC with the PC as DETAIL. -/
def excAt (k code : Nat) (s : State) : CoreRes := .exc { code := code, detail := (s.cor k).pc } s

/-- The RESIDUE exception (R243). -/
def excResidue (k : Nat) (s : State) : CoreRes := .exc { code := 6, detail := (s.cor k).pc, strike := true } s

/-! ## Fault injection -/

/-- An injection of a kind is armed on a core (R446). -/
def injectArmed (s : State) (k kind : Nat) : Bool :=
  s.flag fUmpInjectArm && s.fld fUmpInjectCore == k && s.fld fUmpInjectKind == kind

/-- Takes an armed residue injection: the answer says whether the result is faulted (R446). -/
def takeResidue (k : Nat) (s : State) : Bool × State :=
  if injectArmed s k 2 then (true, s.setFld fUmpInjectArm 0) else (false, s)

/-! ## Results -/

/-- Completes an instruction that computes results: the residue check of EX2/WB, then the write and the flags, or the RESIDUE
exception with nothing written (R242, R243). -/
def writeBack (k : Nat) (good : Bool) (sat gov : Bool) (f : Core → Core) (s : State) : CoreRes :=
  let (inj, s) := takeResidue k s
  if inj || !good then excResidue k s
  else
    let s := pmuEvent k 0x041 (bitOf gov) (pmuEvent k 0x040 (bitOf sat) s)
    .done (s.updCore k f)

end Sys2Proof.Machine
end

