-- ==== Sys2Proof/Machine/Salu.lean ====
section
/-!
DEFINITION. Salu.lean: the scalar ALU and the immediate scalar instructions (R252 to R254).
-/

namespace Sys2Proof.Machine

/-- Writes a scalar result, SF.SAT of lane 0 and, where it updates them, the flags of CF (R236, R242, R252, R254). -/
def finishS (k d : Nat) (setf : Bool) (o : Out) (s : State) : CoreRes :=
  writeBack k o.check o.sat false (fun c =>
    ((if setf then { c with cf := cfOf c.cf o } else c).stick (satBit 0 o.sat)).setS d ⟨o.v, o.p % 7⟩) s

/-- A SALU instruction (R252). -/
def salu (f : SFn) (k : Nat) (op : SaluOp) (s : State) : State :=
  issue k 0x01 false (saluOk op) (fun s => finishS k op.d op.setf (saluOut f op.sat ((s.cor k).sReg op.x) ((s.cor k).sReg op.y)) s) s

/-- A SHI instruction: a shift by an immediate count, with CF unchanged (R253). -/
def shi (f : SFn) (k : Nat) (op : ShiOp) (s : State) : State :=
  issue k 0x03 false (shiOk op) (fun s => finishS k op.d false (saluOut f op.sat ((s.cor k).sReg op.x) (rv (BitVec.ofNat 32 op.cnt))) s) s

/-- ADD (R252). -/
def execAdd (core : Nat) (op : SaluOp) (s : State) : Host.Outcome State Fault Refusal := .next (salu .add core op s)

/-- SUB (R252). -/
def execSub (core : Nat) (op : SaluOp) (s : State) : Host.Outcome State Fault Refusal := .next (salu .sub core op s)

/-- ADDU (R252). -/
def execAddu (core : Nat) (op : SaluOp) (s : State) : Host.Outcome State Fault Refusal := .next (salu .addu core op s)

/-- SUBU (R252). -/
def execSubu (core : Nat) (op : SaluOp) (s : State) : Host.Outcome State Fault Refusal := .next (salu .subu core op s)

/-- NEG (R252). -/
def execNeg (core : Nat) (op : SaluOp) (s : State) : Host.Outcome State Fault Refusal := .next (salu .neg core op s)

/-- ABS (R252). -/
def execAbs (core : Nat) (op : SaluOp) (s : State) : Host.Outcome State Fault Refusal := .next (salu .abs core op s)

/-- MIN (R252). -/
def execMin (core : Nat) (op : SaluOp) (s : State) : Host.Outcome State Fault Refusal := .next (salu .min core op s)

/-- MAX (R252). -/
def execMax (core : Nat) (op : SaluOp) (s : State) : Host.Outcome State Fault Refusal := .next (salu .max core op s)

/-- AND (R252). -/
def execAnd (core : Nat) (op : SaluOp) (s : State) : Host.Outcome State Fault Refusal := .next (salu .and_ core op s)

/-- OR (R252). -/
def execOr (core : Nat) (op : SaluOp) (s : State) : Host.Outcome State Fault Refusal := .next (salu .or_ core op s)

/-- XOR (R252). -/
def execXor (core : Nat) (op : SaluOp) (s : State) : Host.Outcome State Fault Refusal := .next (salu .xor_ core op s)

/-- ANDN (R252). -/
def execAndn (core : Nat) (op : SaluOp) (s : State) : Host.Outcome State Fault Refusal := .next (salu .andn core op s)

/-- SHL (R252). -/
def execShl (core : Nat) (op : SaluOp) (s : State) : Host.Outcome State Fault Refusal := .next (salu .shl core op s)

/-- SHR (R252). -/
def execShr (core : Nat) (op : SaluOp) (s : State) : Host.Outcome State Fault Refusal := .next (salu .shr core op s)

/-- SAR (R252). -/
def execSar (core : Nat) (op : SaluOp) (s : State) : Host.Outcome State Fault Refusal := .next (salu .sar core op s)

/-- SRR (R252). -/
def execSrr (core : Nat) (op : SaluOp) (s : State) : Host.Outcome State Fault Refusal := .next (salu .srr core op s)

/-- MUL (R252). -/
def execMul (core : Nat) (op : SaluOp) (s : State) : Host.Outcome State Fault Refusal := .next (salu .mul core op s)

/-- MULU (R252). -/
def execMulu (core : Nat) (op : SaluOp) (s : State) : Host.Outcome State Fault Refusal := .next (salu .mulu core op s)

/-- MOV (R252). -/
def execMov (core : Nat) (op : SaluOp) (s : State) : Host.Outcome State Fault Refusal := .next (salu .mov core op s)

/-- CLZ (R252). -/
def execClz (core : Nat) (op : SaluOp) (s : State) : Host.Outcome State Fault Refusal := .next (salu .clz core op s)

/-- BFX (R252). -/
def execBfx (core : Nat) (op : SaluOp) (s : State) : Host.Outcome State Fault Refusal := .next (salu .bfx core op s)

/-- ADDI (R253): S[D] = S[X] + imm14, CF unchanged. -/
def execAddi (core : Nat) (sat : Bool) (d x : Nat) (imm : Int) (s : State) : Host.Outcome State Fault Refusal :=
  .next (issue core 0x02 false (reg5 d && reg5 x && sField 14 imm) (fun s =>
    finishS core d false (saluOut .add sat ((s.cor core).sReg x) (rv (BitVec.ofInt 32 imm))) s) s)

/-- SHI with kind SHL (R253). -/
def execShiShl (core : Nat) (op : ShiOp) (s : State) : Host.Outcome State Fault Refusal := .next (shi .shl core op s)

/-- SHI with kind SHR (R253). -/
def execShiShr (core : Nat) (op : ShiOp) (s : State) : Host.Outcome State Fault Refusal := .next (shi .shr core op s)

/-- SHI with kind SAR (R253). -/
def execShiSar (core : Nat) (op : ShiOp) (s : State) : Host.Outcome State Fault Refusal := .next (shi .sar core op s)

/-- SHI with kind SRR (R253). -/
def execShiSrr (core : Nat) (op : ShiOp) (s : State) : Host.Outcome State Fault Refusal := .next (shi .srr core op s)

/-- MOVL (R253): S[D] = imm19, sign-extended; the residue is generated as written. -/
def execMovl (core : Nat) (d : Nat) (imm : Int) (s : State) : Host.Outcome State Fault Refusal :=
  .next (issue core 0x04 false (reg5 d && sField 19 imm) (fun s => finishS core d false (moved (rv (BitVec.ofInt 32 imm))) s) s)

/-- MOVH (R253): the upper half of S[D], whose lower half is unchanged. -/
def execMovh (core : Nat) (d : Nat) (imm : Nat) (s : State) : Host.Outcome State Fault Refusal :=
  .next (issue core 0x05 false (reg5 d && decide (imm < 65536)) (fun s =>
    let x := (s.cor core).sReg d
    finishS core d false (logicOut (BitVec.ofNat 32 (imm * 65536 + x.v.toNat % 65536)) x.good) s) s)

/-- CMPI (R253): CF as SUB with SETF would set it; no register is written. The compare is checked against its duplicate (R239). -/
def execCmpi (core : Nat) (x : Nat) (imm : Int) (s : State) : Host.Outcome State Fault Refusal :=
  .next (issue core 0x06 false (reg5 x && sField 14 imm) (fun s =>
    let v := (s.cor core).sReg x
    let o := saluOut .sub false v (rv (BitVec.ofInt 32 imm))
    writeBack core v.good false false (fun c => { c with cf := cfOf c.cf o }) s) s)

end Sys2Proof.Machine
end

