-- ==== Sys2Proof/Machine/Valu.lean ====
section
/-!
DEFINITION. Valu.lean: the vector ALU (R226, R255).
-/

namespace Sys2Proof.Machine

/-- Writes the selected lanes of a vector register with their SAT bits; the others keep value, residue and flag bit (R228, R236,
R250). -/
def finishV (k d : Nat) (outs : List (Nat × Out)) (s : State) : CoreRes :=
  writeBack k (outs.all (fun o => o.2.check)) (outs.any (fun o => o.2.sat)) false (fun c =>
    outs.foldl (fun c o => (c.stick (satBit o.1 o.2.sat)).setV d o.1 ⟨o.2.v, o.2.p % 7⟩) c) s

/-- A VALU instruction that writes lanes; `w` says that its row allows W24 (R255). -/
def valu (f : VFn) (w : Bool) (k : Nat) (op : ValuOp) (s : State) : State :=
  issue k 0x07 false (valuOk w op) (fun s =>
    let c := s.cor k
    finishV k op.d ((qLanes op.q).map (fun l =>
      (l, vlaneOut f op.sat op.w24 (c.cf.getLsbD (8 + l)) (c.vLane op.x l) (c.vLane op.y l)))) (pmuEvent k 0x012 1 s)) s

/-- A VSHI instruction: a shift by an immediate count in the Y operand, W24 allowed where the VALU row allows it (R255). -/
def vshi (f : VFn) (w : Bool) (k : Nat) (op : ValuOp) (s : State) : State :=
  issue k 0x08 false (valuOk w op) (fun s =>
    let c := s.cor k
    finishV k op.d ((qLanes op.q).map (fun l =>
      (l, vlaneOut f op.sat op.w24 false (c.vLane op.x l) (rv (BitVec.ofNat 32 op.y))))) (pmuEvent k 0x012 1 s)) s

/-- A vector compare: LM bit by lane; with Q = 0, bits 1 to 7 clear (R255). It writes no result that a residue covers, and checks the lanes it reads (R242,
R244). -/
def vcmp (f : VCmp) (k : Nat) (op : ValuOp) (s : State) : State :=
  issue k 0x07 false (vcmpOk op) (fun s =>
    let c := s.cor k
    let lm := ((qLanes op.q).map (fun l => bitOf (vcmpLane f op.w24 (c.vLane op.x l).v (c.vLane op.y l).v) * 2 ^ l)).foldl (· + ·) 0
    if !(qLanes op.q).all (fun l => (c.vLane op.x l).good && (c.vLane op.y l).good) then excResidue k s
    else .done ((pmuEvent k 0x012 1 s).updCore k (fun c => { c with cf := cfLm c.cf lm }))) s

/-- VADD (R255). -/
def execVadd (core : Nat) (op : ValuOp) (s : State) : Host.Outcome State Fault Refusal := .next (valu .vadd true core op s)

/-- VSUB (R255). -/
def execVsub (core : Nat) (op : ValuOp) (s : State) : Host.Outcome State Fault Refusal := .next (valu .vsub true core op s)

/-- VNEG (R255). -/
def execVneg (core : Nat) (op : ValuOp) (s : State) : Host.Outcome State Fault Refusal := .next (valu .vneg true core op s)

/-- VABS (R255). -/
def execVabs (core : Nat) (op : ValuOp) (s : State) : Host.Outcome State Fault Refusal := .next (valu .vabs true core op s)

/-- VMIN (R255). -/
def execVmin (core : Nat) (op : ValuOp) (s : State) : Host.Outcome State Fault Refusal := .next (valu .vmin true core op s)

/-- VMAX (R255). -/
def execVmax (core : Nat) (op : ValuOp) (s : State) : Host.Outcome State Fault Refusal := .next (valu .vmax true core op s)

/-- VAND (R255). -/
def execVand (core : Nat) (op : ValuOp) (s : State) : Host.Outcome State Fault Refusal := .next (valu .vand false core op s)

/-- VOR (R255). -/
def execVor (core : Nat) (op : ValuOp) (s : State) : Host.Outcome State Fault Refusal := .next (valu .vor false core op s)

/-- VXOR (R255). -/
def execVxor (core : Nat) (op : ValuOp) (s : State) : Host.Outcome State Fault Refusal := .next (valu .vxor false core op s)

/-- VSHL (R255). -/
def execVshl (core : Nat) (op : ValuOp) (s : State) : Host.Outcome State Fault Refusal := .next (valu .vshl true core op s)

/-- VSHR (R255). -/
def execVshr (core : Nat) (op : ValuOp) (s : State) : Host.Outcome State Fault Refusal := .next (valu .vshr false core op s)

/-- VSAR (R255). -/
def execVsar (core : Nat) (op : ValuOp) (s : State) : Host.Outcome State Fault Refusal := .next (valu .vsar true core op s)

/-- VSRR (R255). -/
def execVsrr (core : Nat) (op : ValuOp) (s : State) : Host.Outcome State Fault Refusal := .next (valu .vsrr true core op s)

/-- VCMPEQ (R255). -/
def execVcmpeq (core : Nat) (op : ValuOp) (s : State) : Host.Outcome State Fault Refusal := .next (vcmp .eq core op s)

/-- VCMPLT (R255). -/
def execVcmplt (core : Nat) (op : ValuOp) (s : State) : Host.Outcome State Fault Refusal := .next (vcmp .lt core op s)

/-- VCMPLE (R255). -/
def execVcmple (core : Nat) (op : ValuOp) (s : State) : Host.Outcome State Fault Refusal := .next (vcmp .le core op s)

/-- VSEL (R255). -/
def execVsel (core : Nat) (op : ValuOp) (s : State) : Host.Outcome State Fault Refusal := .next (valu .vsel false core op s)

/-- VMOV (R255). -/
def execVmov (core : Nat) (op : ValuOp) (s : State) : Host.Outcome State Fault Refusal := .next (valu .vmov false core op s)

/-- VBCST (R255): every selected lane takes S[X]. -/
def execVbcst (core : Nat) (op : ValuOp) (s : State) : Host.Outcome State Fault Refusal :=
  .next (issue core 0x07 false (valuOk false op) (fun s =>
    finishV core op.d ((qLanes op.q).map (fun l => (l, moved ((s.cor core).sReg op.x)))) (pmuEvent core 0x012 1 s)) s)

/-- VGET (R255): S[D] takes one lane. -/
def execVget (core : Nat) (d x lane : Nat) (s : State) : Host.Outcome State Fault Refusal :=
  .next (issue core 0x07 false (vlaneOk d x lane) (fun s =>
    finishS core d false (moved ((s.cor core).vLane x lane)) (pmuEvent core 0x012 1 s)) s)

/-- VPUT (R255): one lane takes S[X]. -/
def execVput (core : Nat) (d x lane : Nat) (s : State) : Host.Outcome State Fault Refusal :=
  .next (issue core 0x07 false (vlaneOk d x lane) (fun s =>
    finishV core d [(lane, moved ((s.cor core).sReg x))] (pmuEvent core 0x012 1 s)) s)

/-- VSHI with kind VSHL (R255). -/
def execVshiVshl (core : Nat) (op : ValuOp) (s : State) : Host.Outcome State Fault Refusal := .next (vshi .vshl true core op s)

/-- VSHI with kind VSHR (R255). -/
def execVshiVshr (core : Nat) (op : ValuOp) (s : State) : Host.Outcome State Fault Refusal := .next (vshi .vshr false core op s)

/-- VSHI with kind VSAR (R255). -/
def execVshiVsar (core : Nat) (op : ValuOp) (s : State) : Host.Outcome State Fault Refusal := .next (vshi .vsar true core op s)

/-- VSHI with kind VSRR (R255). -/
def execVshiVsrr (core : Nat) (op : ValuOp) (s : State) : Host.Outcome State Fault Refusal := .next (vshi .vsrr true core op s)

end Sys2Proof.Machine
end

