-- ==== Sys2Proof/Machine/Macc.lean ====
section
/-!
DEFINITION. Macc.lean: multiply and accumulator operations, extraction and accumulator shifts (R227 to R235, R256, R257).
-/

namespace Sys2Proof.Machine

/-- Writes lanes of an accumulator with their GOV and SAT bits (R230, R236). -/
def finishA (k d : Nat) (outs : List (Nat × AOut)) (s : State) : CoreRes :=
  writeBack k (outs.all (fun o => o.2.check)) (outs.any (fun o => o.2.sat)) (outs.any (fun o => o.2.gov)) (fun c =>
    outs.foldl (fun c o => ((c.stick (satBit o.1 o.2.sat)).stick (govBit o.1 o.2.gov)).setA d o.1 ⟨o.2.v, o.2.p % 7⟩) c) s

/-- MPY, MAC and MSU (R227, R228, R256): Y' is a lane of V[Y], or one lane broadcast. -/
def macc (f : MFn) (opc k : Nat) (op : MacOp) (s : State) : State :=
  issue k opc false (macOk op) (fun s =>
    let c := s.cor k
    let ls := qLanes op.q
    finishA k op.d (ls.map (fun l =>
      (l, macLane f op.sat (c.aLane op.d l) (c.vLane op.x l) (c.vLane op.y (op.lane.getD l)))))
      (pmuEvent k 0x011 1 (pmuEvent k 0x010 ls.length s))) s

/-- MPY (R256). -/
def execMpy (core : Nat) (op : MacOp) (s : State) : Host.Outcome State Fault Refusal := .next (macc .mpy 0x09 core op s)

/-- MAC (R256). -/
def execMac (core : Nat) (op : MacOp) (s : State) : Host.Outcome State Fault Refusal := .next (macc .mac 0x0A core op s)

/-- MSU (R256). -/
def execMsu (core : Nat) (op : MacOp) (s : State) : Host.Outcome State Fault Refusal := .next (macc .msu 0x0B core op s)

/-- ADEP (R228, R256). -/
def execAdep (core : Nat) (sat q : Bool) (d x : Nat) (s : State) : Host.Outcome State Fault Refusal :=
  .next (issue core 0x0C false (regA d && reg5 x) (fun s =>
    finishA core d ((qLanes q).map (fun l => (l, adepLane sat ((s.cor core).vLane x l)))) s) s)

/-- AADD (R228, R256). -/
def execAadd (core : Nat) (op : AopOp) (s : State) : Host.Outcome State Fault Refusal :=
  .next (issue core 0x0D false (aopOk op) (fun s =>
    finishA core op.d ((qLanes op.q).map (fun l => (l, aaddLane false op.sat ((s.cor core).aLane op.x l) ((s.cor core).aLane op.y l)))) s) s)

/-- ASUB (R228, R256). -/
def execAsub (core : Nat) (op : AopOp) (s : State) : Host.Outcome State Fault Refusal :=
  .next (issue core 0x0D false (aopOk op) (fun s =>
    finishA core op.d ((qLanes op.q).map (fun l => (l, aaddLane true op.sat ((s.cor core).aLane op.x l) ((s.cor core).aLane op.y l)))) s) s)

/-- AMOV (R256). -/
def execAmov (core : Nat) (q : Bool) (d x : Nat) (s : State) : Host.Outcome State Fault Refusal :=
  .next (issue core 0x0D false (regA d && regA x) (fun s =>
    finishA core d ((qLanes q).map (fun l =>
      let a := (s.cor core).aLane x l
      (l, { v := a.v, p := a.r, ok := resOk a.r }))) s) s)

/-- ACLR (R256): the lanes become 0, with the residue of 0. -/
def execAclr (core : Nat) (q : Bool) (d : Nat) (s : State) : Host.Outcome State Fault Refusal :=
  .next (issue core 0x0D false (regA d) (fun s => finishA core d ((qLanes q).map (fun l => (l, { v := 0, p := 0 }))) s) s)

/-- AGET (R256): the low word of an accumulator lane, or its upper 24 bits sign-extended. -/
def execAget (core : Nat) (d x lane : Nat) (high : Bool) (s : State) : Host.Outcome State Fault Refusal :=
  .next (issue core 0x0D false (reg5 d && regA x && decide (lane < 8)) (fun s =>
    let a := (s.cor core).aLane x lane
    let v : Word := if high then BitVec.ofInt 32 (signedOf 24 (a.v.toNat / W32)) else BitVec.ofNat 32 a.v.toNat
    finishS core d false (logicOut v a.good) s) s)

/-- APUT (R256): one accumulator lane from S[Y][23:0] and S[X]. -/
def execAput (core : Nat) (d x y lane : Nat) (s : State) : Host.Outcome State Fault Refusal :=
  .next (issue core 0x0D false (regA d && reg5 x && reg5 y && decide (lane < 8)) (fun s =>
    let xl := (s.cor core).sReg x
    let yh := (s.cor core).sReg y
    let v : Acc := BitVec.ofNat 56 (yh.v.toNat % 2 ^ 24 * W32 + xl.v.toNat)
    finishA core d [(lane, { v := v, p := res7 v.toInt, ok := xl.good && yh.good })] s) s)

/-- EXT (R233, R257): into the selected lanes of V[D], or lane 0 into S[D]. -/
def execExt (core : Nat) (sat q : Bool) (d x : Nat) (sh : Int) (q15 toS : Bool) (s : State) : Host.Outcome State Fault Refusal :=
  .next (issue core 0x0E false (extOk q d x sh toS) (fun s =>
    if toS then finishS core d false (extLane sat q15 sh ((s.cor core).aLane x 0)) s
    else finishV core d ((qLanes q).map (fun l => (l, extLane sat q15 sh ((s.cor core).aLane x l)))) s) s)

/-- ASR (R235, R257). -/
def execAsr (core : Nat) (q : Bool) (d x cnt : Nat) (s : State) : Host.Outcome State Fault Refusal :=
  .next (issue core 0x0F false (ashOk d x cnt) (fun s =>
    finishA core d ((qLanes q).map (fun l => (l, asrLane false ((s.cor core).aLane x l) cnt))) s) s)

/-- ASRR (R235, R257). -/
def execAsrr (core : Nat) (q : Bool) (d x cnt : Nat) (s : State) : Host.Outcome State Fault Refusal :=
  .next (issue core 0x0F false (ashOk d x cnt) (fun s =>
    finishA core d ((qLanes q).map (fun l => (l, asrLane true ((s.cor core).aLane x l) cnt))) s) s)

/-- ASL (R230, R257). -/
def execAsl (core : Nat) (sat q : Bool) (d x cnt : Nat) (s : State) : Host.Outcome State Fault Refusal :=
  .next (issue core 0x0F false (ashOk d x cnt) (fun s =>
    finishA core d ((qLanes q).map (fun l => (l, aslLane sat ((s.cor core).aLane x l) cnt))) s) s)

end Sys2Proof.Machine
end

