-- ==== Sys2Proof/Machine/LoadStore.lean ====
section
/-!
DEFINITION. LoadStore.lean: loads and stores (R194 to R197, R206, R207, R258, R259), with injected and uncorrectable RAM errors
(R432, R446).
-/

namespace Sys2Proof.Machine

/-- SEC-DED checks reads (R438). -/
def eccOn (s : State) : Bool := s.flag fUmpCtlEccEn

/-- Flips bit 0, or bits 0 and 1, of the byte at a local address (R446). -/
def flipLocal (k a : Nat) (m : Byte) (s : State) : State := s.updCore k (fun c => lramPut a (lramByte c a ^^^ m) c)

/-- Lists a word of local RAM as uncorrectable until it is rewritten (R432). -/
def spoilLocal (k a : Nat) (s : State) : State := s.updCore k (fun c => { c with bad := mapInsert (a / 4 * 4) () c.bad })

/-- Whether bytes meet a listed word. -/
def meetsBad (bad : List (Nat × Unit)) (a size : Nat) : Bool := bad.any (fun b => decide (b.1 < a + size) && decide (a < b.1 + 4))

/-- Takes words out of a list of uncorrectable ones. -/
def mendBad (a size : Nat) (bad : List (Nat × Unit)) : List (Nat × Unit) :=
  bad.filter (fun b => !(decide (b.1 < a + size) && decide (a < b.1 + 4)))

/-- A read of local RAM, with an armed injection and the errors it finds (R432, R446). -/
def readLocal (k a size : Nat) (s : State) : (List Byte × State) ⊕ (Exc × State) :=
  let k0 := injectArmed s k 0
  let k1 := injectArmed s k 1
  let s := if k0 || k1 then s.setFld fUmpInjectArm 0 else s
  let node := if (s.cor k).mode = .run then (s.cor k).node else 0
  let s := if k1 then spoilLocal k a (flipLocal k a 3 s) else s
  let s := if k0 then
      if eccOn s then pmuEvent k 0x060 1 (umpEvent { cls := 0, core := k % 16, source := 0x20 + k / 16, cause := 0x10, node := node, detail := a } s)
      else flipLocal k a 1 s
    else s
  if eccOn s && meetsBad (s.cor k).bad a size then .inr ({ code := 7, detail := a, strike := true }, s)
  else .inl (localLoad k a size s)

/-- A read of shared data RAM; its stall of 6 to 22 cycles is a free value in that range (R194, R197). -/
def readShared (k a size : Nat) (s : State) : (List Byte × State) ⊕ (Exc × State) :=
  if eccOn s && meetsBad (s.cl (k / 16)).bad a size then .inr ({ code := 7, detail := a }, s)
  else
    let (f, s) := s.draw
    .inl (sharedRead s (k / 16) a size, pmuEvent k 0x017 (6 + f % 17) s)

/-- A data read (R194). -/
def readData (k : Nat) (r : Region) (a size : Nat) (s : State) : (List Byte × State) ⊕ (Exc × State) :=
  match r with
  | .localRam => readLocal k a size s
  | .sharedRam => readShared k a size s

/-- A data write (R194, R197). -/
def writeData (k : Nat) (r : Region) (a : Nat) (bs : List Byte) (s : State) : State :=
  match r with
  | .localRam => (localStore k a bs s).updCore k (fun c => { c with bad := mendBad a bs.length c.bad })
  | .sharedRam =>
    let (f, s) := s.draw
    pmuEvent k 0x017 (6 + f % 17) ((sharedStore (k / 16) a bs s).updClu (k / 16) (fun c => { c with bad := mendBad a bs.length c.bad }))

/-- The address checks of an access: ADDR before ALIGN (R194, R196, R207, R217). -/
def checkAddr (k size : Nat) (a : Addr) (s : State) (go : Region → CoreRes) : CoreRes :=
  match region (s.cor k) a.ea size with
  | none => excAt k 2 s
  | some r => if a.ea % size ≠ 0 then excAt k 3 s else go r

/-- Updates Pn and SF.CIRC_FIX after an access (R206). -/
def addrDone (p : Nat) (a : Addr) (c : Core) : Core :=
  let c := if a.fix then c.stick sfCircFix else c
  match a.p with
  | some w => c.setPn p w
  | none => c

/-- A single load of `size` bytes; `put` writes the destination, after any update of Pn (R206, R258, R269). -/
def load (opc size : Nat) (dOk : Bool) (put : List Byte → Core → Core) (k : Nat) (m : MemOp) (s : State) : State :=
  issue k opc false (dOk && memOk m) (fun s =>
    let a := memAddr (s.cor k) m size
    checkAddr k size a s (fun r =>
      match readData k r a.ea size s with
      | .inr (e, s) => .exc e s
      | .inl (bs, s) => .done (pmuEvent k 0x016 (bitOf a.fix) (pmuEvent k 0x013 1 (s.updCore k (fun c => put bs (addrDone m.p a c))))))) s

/-- A single store of `size` bytes: the data's residue is checked before anything is written (R242, R258). -/
def store (opc size : Nat) (dOk : Bool) (data : Core → List Byte × Bool) (k : Nat) (m : MemOp) (s : State) : State :=
  issue k opc false (dOk && memOk m) (fun s =>
    let a := memAddr (s.cor k) m size
    checkAddr k size a s (fun r =>
      let (bs, ok) := data (s.cor k)
      if !ok then excResidue k s
      else .done (pmuEvent k 0x016 (bitOf a.fix) (pmuEvent k 0x014 1 (writeData k r a.ea bs (s.updCore k (addrDone m.p a))))))) s

/-- A word from loaded bytes, sign-extended from their width or zero-extended (R207). -/
def extendBytes (sign : Bool) (bs : List Byte) : Word :=
  if sign then BitVec.ofInt 32 (signedOf (8 * bs.length) (leNat bs)) else BitVec.ofNat 32 (leNat bs)

/-- The eight words of a loaded vector into V[D] (R258). -/
def putVector (d : Nat) (bs : List Byte) (c : Core) : Core :=
  (List.range 8).foldl (fun c l => c.setV d l (rv (BitVec.ofNat 32 (leNat ((bs.drop (4 * l)).take 4))))) c

/-- The low bytes of a scalar register as store data (R258). -/
def scalarData (d size : Nat) (c : Core) : List Byte × Bool := (leBytes size (c.sReg d).v.toNat, (c.sReg d).good)

/-- The eight lanes of a vector register as store data (R258). -/
def vectorData (d : Nat) (c : Core) : List Byte × Bool :=
  ((List.range 8).flatMap (fun l => leBytes 4 (c.vLane d l).v.toNat), (List.range 8).all (fun l => (c.vLane d l).good))

/-- LDB (R258). -/
def execLdb (core : Nat) (d : Nat) (a : MemOp) (s : State) : Host.Outcome State Fault Refusal :=
  .next (load 0x10 1 (reg5 d) (fun bs c => c.setS d (rv (extendBytes true bs))) core a s)

/-- LDBU (R258). -/
def execLdbu (core : Nat) (d : Nat) (a : MemOp) (s : State) : Host.Outcome State Fault Refusal :=
  .next (load 0x11 1 (reg5 d) (fun bs c => c.setS d (rv (extendBytes false bs))) core a s)

/-- LDH (R258). -/
def execLdh (core : Nat) (d : Nat) (a : MemOp) (s : State) : Host.Outcome State Fault Refusal :=
  .next (load 0x12 2 (reg5 d) (fun bs c => c.setS d (rv (extendBytes true bs))) core a s)

/-- LDHU (R258). -/
def execLdhu (core : Nat) (d : Nat) (a : MemOp) (s : State) : Host.Outcome State Fault Refusal :=
  .next (load 0x13 2 (reg5 d) (fun bs c => c.setS d (rv (extendBytes false bs))) core a s)

/-- LDW (R258). -/
def execLdw (core : Nat) (d : Nat) (a : MemOp) (s : State) : Host.Outcome State Fault Refusal :=
  .next (load 0x14 4 (reg5 d) (fun bs c => c.setS d (rv (extendBytes false bs))) core a s)

/-- STB (R258). -/
def execStb (core : Nat) (d : Nat) (a : MemOp) (s : State) : Host.Outcome State Fault Refusal :=
  .next (store 0x15 1 (reg5 d) (scalarData d 1) core a s)

/-- STH (R258). -/
def execSth (core : Nat) (d : Nat) (a : MemOp) (s : State) : Host.Outcome State Fault Refusal :=
  .next (store 0x16 2 (reg5 d) (scalarData d 2) core a s)

/-- STW (R258). -/
def execStw (core : Nat) (d : Nat) (a : MemOp) (s : State) : Host.Outcome State Fault Refusal :=
  .next (store 0x17 4 (reg5 d) (scalarData d 4) core a s)

/-- LDWV: lane 0 of V[D], the other lanes unchanged (R258). -/
def execLdwv (core : Nat) (d : Nat) (a : MemOp) (s : State) : Host.Outcome State Fault Refusal :=
  .next (load 0x18 4 (reg5 d) (fun bs c => c.setV d 0 (rv (extendBytes false bs))) core a s)

/-- STWV: lane 0 of V[D] (R258). -/
def execStwv (core : Nat) (d : Nat) (a : MemOp) (s : State) : Host.Outcome State Fault Refusal :=
  .next (store 0x19 4 (reg5 d) (fun c => (leBytes 4 (c.vLane d 0).v.toNat, (c.vLane d 0).good)) core a s)

/-- LDV (R258). -/
def execLdv (core : Nat) (d : Nat) (a : MemOp) (s : State) : Host.Outcome State Fault Refusal :=
  .next (load 0x1A 32 (reg5 d) (putVector d) core a s)

/-- STV (R258). -/
def execStv (core : Nat) (d : Nat) (a : MemOp) (s : State) : Host.Outcome State Fault Refusal :=
  .next (store 0x1B 32 (reg5 d) (vectorData d) core a s)

/-- LDPN: the loaded word wins over a post-modification of the same Pn, R269 (R258). -/
def execLdpn (core : Nat) (d : Nat) (a : MemOp) (s : State) : Host.Outcome State Fault Refusal :=
  .next (load 0x1C 4 (reg5 d) (fun bs c => c.setPn d (extendBytes false bs)) core a s)

/-- STPN (R258). -/
def execStpn (core : Nat) (d : Nat) (a : MemOp) (s : State) : Host.Outcome State Fault Refusal :=
  .next (store 0x1D 4 (reg5 d) (fun c => (leBytes 4 (c.pnReg d).toNat, true)) core a s)

/-- LDBL (R258). -/
def execLdbl (core : Nat) (d : Nat) (a : MemOp) (s : State) : Host.Outcome State Fault Refusal :=
  .next (load 0x1E 4 (regBl d) (fun bs c => c.setBl d (extendBytes false bs)) core a s)

/-- STBL (R258). -/
def execStbl (core : Nat) (d : Nat) (a : MemOp) (s : State) : Host.Outcome State Fault Refusal :=
  .next (store 0x1F 4 (regBl d) (fun c => (leBytes 4 (c.blReg d).toNat, true)) core a s)

/-- Both addresses in one bank of local RAM (R195). -/
def sameBank (a b : Nat) : Bool := a / 0x2000 % 2 == b / 0x2000 % 2

/-- A dual load: two reads of local RAM in one cycle (R195, R259). -/
def dualLoad (opc size : Nat) (put : Nat → List Byte → Core → Core) (k d1 : Nat) (m1 : DualOp) (d2 : Nat) (m2 : DualOp) (s : State) : State :=
  issue k opc false (dualOk d1 m1 d2 m2) (fun s =>
    let c := s.cor k
    let a := dualAddr c m1 size
    let b := dualAddr c m2 size
    if !(localOk c a.ea size && localOk c b.ea size) then excAt k 2 s
    else if a.ea % size ≠ 0 ∨ b.ea % size ≠ 0 then excAt k 3 s
    else
      match readLocal k a.ea size s with
      | .inr (e, s) => .exc e s
      | .inl (x, s) =>
        match readLocal k b.ea size s with
        | .inr (e, s) => .exc e s
        | .inl (y, s) =>
          let s := s.updCore k (fun c => put d2 y (put d1 x (addrDone m2.p b (addrDone m1.p a c))))
          .done (pmuEvent k 0x016 (bitOf a.fix + bitOf b.fix) (pmuEvent k 0x015 (bitOf (sameBank a.ea b.ea)) (pmuEvent k 0x013 1 s)))) s

/-- LDDW (R259). -/
def execLddw (core : Nat) (d1 : Nat) (a : DualOp) (d2 : Nat) (b : DualOp) (s : State) : Host.Outcome State Fault Refusal :=
  .next (dualLoad 0x20 4 (fun d bs c => c.setS d (rv (extendBytes false bs))) core d1 a d2 b s)

/-- LDDV (R259). -/
def execLddv (core : Nat) (d1 : Nat) (a : DualOp) (d2 : Nat) (b : DualOp) (s : State) : Host.Outcome State Fault Refusal :=
  .next (dualLoad 0x21 32 putVector core d1 a d2 b s)

end Sys2Proof.Machine
end

