-- ==== Sys2Proof/Machine/Branch.lean ====
section
/-!
DEFINITION. Branch.lean: branches, calls, returns and loops (R204, R212, R213, R260, R261).
-/

namespace Sys2Proof.Machine

/-- Target of a PC-relative transfer (R260). -/
def relTarget (pc : Nat) (offset : Int) : Nat := patternOf 32 ((pc : Int) + 4 * offset)

/-- The conditions of Bcc (R261). -/
def condHolds (cond : Nat) (cf : BitVec 16) : Bool :=
  let z := cf.getLsbD 0
  let n := cf.getLsbD 1
  let c := cf.getLsbD 2
  let v := cf.getLsbD 3
  let lm := cf.toNat / 256
  match cond with
  | 0 => z
  | 1 => !z
  | 2 => n != v
  | 3 => n == v
  | 4 => z || n != v
  | 5 => !z && n == v
  | 6 => !c
  | 7 => c
  | 8 => n
  | 9 => !n
  | 10 => v
  | 11 => !v
  | 12 => lm == 255
  | 13 => lm != 0
  | _ => lm == 0

/-- BRA (R260). -/
def execBra (core : Nat) (offset : Int) (s : State) : Host.Outcome State Fault Refusal :=
  .next (issue core 0x30 true (sField 24 offset) (fun s =>
    .jump (relTarget (s.cor core).pc offset) (pmuEvent core 0x022 2 s)) s)

/-- CALL (R260): S31 takes the return address. -/
def execCall (core : Nat) (offset : Int) (s : State) : Host.Outcome State Fault Refusal :=
  .next (issue core 0x31 true (sField 24 offset) (fun s =>
    let pc := (s.cor core).pc
    .jump (relTarget pc offset) (pmuEvent core 0x022 2 (s.updCore core (fun c => c.setS 31 (rv (BitVec.ofNat 32 (pc + 4))))))) s)

/-- JR (R242, R260): the target is read and checked before S[D] takes the return address. -/
def execJr (core : Nat) (link : Bool) (d x : Nat) (s : State) : Host.Outcome State Fault Refusal :=
  .next (issue core 0x32 true (reg5 d && reg5 x) (fun s =>
    let c := s.cor core
    if !(c.sReg x).good then excResidue core s else
    let t := (c.sReg x).v.toNat
    let s := if link then s.updCore core (fun c => c.setS d (rv (BitVec.ofNat 32 (c.pc + 4)))) else s
    .jump t (pmuEvent core 0x022 2 s)) s)

/-- Bcc (R260, R261). -/
def execBcc (core : Nat) (cond : Nat) (offset : Int) (s : State) : Host.Outcome State Fault Refusal :=
  .next (issue core 0x33 true (decide (cond < 15) && sField 19 offset) (fun s =>
    let c := s.cor core
    if condHolds cond c.cf then .jump (relTarget c.pc offset) (pmuEvent core 0x022 5 s) else .done s) s)

/-- Starts a loop (R212, R213): a COUNT of 0 skips the body with no level. -/
def startLoop (k count body : Nat) (s : State) : CoreRes :=
  let c := s.cor k
  if 2 ≤ c.loops.length then excAt k 4 s
  else if count = 0 then .skip ((c.pc + 4 * body + 4) % W32) s
  else
    let l : LoopLvl := { first := (c.pc + 4) % W32, last := (c.pc + 4 * body) % W32, left := count }
    .skip l.first (s.updCore k (fun c => { c with loops := l :: c.loops }))

/-- LOOPR (R212, R242, R260): COUNT = S[X][15:0]. A third level raises LOOP, the lower code, before S[X] is checked (R217). -/
def execLoopr (core : Nat) (x body : Nat) (s : State) : Host.Outcome State Fault Refusal :=
  .next (issue core 0x34 true (reg5 x && bodyOk body) (fun s =>
    let v := (s.cor core).sReg x
    if (s.cor core).loops.length < 2 && !v.good then excResidue core s else startLoop core (v.v.toNat % 65536) body s) s)

/-- LOOPI (R212, R260). -/
def execLoopi (core : Nat) (count body : Nat) (s : State) : Host.Outcome State Fault Refusal :=
  .next (issue core (0x3C + (body - 1) / 1024 % 4) true (decide (count < 65536) && bodyOk body) (fun s => startLoop core count body s) s)

end Sys2Proof.Machine
end

