-- ==== Sys2Proof/Machine/Run.lean ====
section
/-!
DEFINITION. Run.lean: the end of a run: the commit at DONE (R117, R145, R146, R175, R182, R266), moves (R208 to R211), and the undo
of an abort (R118, R148, R149).
-/

namespace Sys2Proof.Machine

/-! ## Commit -/

/-- Commits one queue or Seedbed operation of a run of a node with an account (R117, R182, R266). -/
def commitOp (node acct : Nat) (o : RunOp) (s : State) : State :=
  match o with
  | .push q e =>
    if e.nobuf || nodeMayPass acct e.handle s then mqPush q e s
    else seedFault fSeedForeignFreeCount 0x19 node acct e.handle false s
  | .pop q it loan => commitPop q it loan acct s
  | .mark q => placeMark q s
  | .balloc h => seedOwn h s
  | .bfree h => commitFree node acct h s
  | .bgive h a => commitGive node acct h a s
  | _ => s

/-- A run's commit is over: RUNS rises, the node takes its state of R134, unless it runs elsewhere by now (R177 can end its run early), and the core is
released to its home program (R145, R146, R214). -/
def endRun (k : Nat) (s : State) : State :=
  let n := (s.cor k).node
  let s := s.updNode n (fun d => { d with runs := (d.runs + 1) % W32 })
  let s := s.bump (fCoreRunsCount k) 1
  let mine := match s.node? n with | some d => d.runCore == k | none => false
  coreHome k (if mine then nodeDone n s else s)

/-- Goes on with the Bullpen operations of a commit (R145, R146). -/
def commitRest (k : Nat) (ops : List RunOp) (s : State) : State :=
  let home := match s.node? (s.cor k).node with | some d => d.set.home | none => 0
  let (rest, s) := commitBull home ops s
  if rest.isEmpty then endRun k s else s.updCore k (fun c => { c with commit := rest })

/-- Whether an operation is one of Bullpen's (R144). -/
def RunOp.isBull (o : RunOp) : Bool :=
  match o with
  | .sig .. => true
  | .sigd .. => true
  | .ncan .. => true
  | .arm .. => true
  | _ => false

/-- DONE is issued: the run commits in the order of R145. -/
def issueDone (k status : Nat) (s : State) : State :=
  let c := s.cor k
  let n := c.node
  let ops := c.run.ops.reverse
  let s := scoutRecord k 0x2B 0 c.pc n (pmuEvent k 0x001 1 s)
  let s := s.updCore k (fun c => { c with mode := .doneWait, stall := .none, run := {}, loops := [] })
  let acct := match s.node? n with | some d => d.account | none => 0
  let s := (ops.filter (fun o => !o.isBull)).foldl (fun s o => commitOp n acct o s) s
  let s := s.updNode n (fun d => { d with
    lastStatus := status % 256, duration := some (s.clk - d.runStart), writeBack := some c.run.dirty, runCore := k })
  let s : State := match c.run.kml with | some x => { s with kml := mapInsert n x s.kml } | none => s
  commitRest k (ops.filter RunOp.isBull) s

/-! ## Moves -/

/-- Completes an instruction that stalled: the loop end and the next PC (R212). -/
def completeAt (k op : Nat) (s : State) : State :=
  let c := s.cor k
  let x := loopEnd c.pc c.loops
  let s := pmuEvent k 0x001 1 (s.updCore k (fun c => { c with loops := x.1, pc := x.2, stall := .none }))
  if c.mode = .run then scoutRecord k op 0 c.pc c.node s else s

/-- Starts a move (R208, R210). -/
def startMove (k : Nat) (m : Move) (s : State) : State :=
  pmuEvent k 0x030 1 (s.updCore k (fun c => { c with moves := c.moves ++ [m] }))

/-- A word that a move delivers, where a store met it: the stored or the moved value (R269). -/
def moveWord (hit : Bool) (a b : Word) (s : State) : Word × State :=
  if hit then
    let (f, s) := s.draw
    (if f % 2 = 1 then a else b, s)
  else (b, s)

/-- Delivers a move word by word: `n` words from word `i` (R208, R269). -/
def landMove (k : Nat) (m : Move) : Nat → Nat → State → State
  | _, 0, s => s
  | i, n + 1, s =>
    let a := m.la + 4 * i
    let c := s.cor k
    if m.toBuf then
      let cur := lramWord c a
      let old := m.hit.find? (fun h => h.1 == a)
      let (w, s) := match old with | some o => moveWord true o.2 cur s | none => (cur, s)
      landMove k m (i + 1) n (bufWrite m.handle (m.ofs + 4 * i) (leBytes 4 w.toNat) s)
    else
      let new := bufWord s m.handle (m.ofs + 4 * i)
      let (w, s) := moveWord (m.hit.any (fun h => h.1 == a)) (lramWord c a) new s
      let s := s.updCore k (fun c => { markDirty a 4 (lramPutAll a (leBytes 4 w.toNat) c) with bad := mendBad a 4 c.bad })
      landMove k m (i + 1) n s

/-- The oldest move of a core completes, and what stalled on it goes on (R210, R211). -/
def moveDone (k : Nat) (m : Move) (s : State) : State :=
  let s := landMove k m 0 (m.len / 4) s
  let b := (s.cor k).moved
  let s := s.updCore k (fun c => { c with moves := c.moves.tail, moved := b + m.len })
  let s := s.bump (fCoreXbytesCount k) ((b + m.len) / 256 - b / 256)
  let s := pmuEvent k 0x031 ((b + m.len) / 16 - b / 16) s
  let c := s.cor k
  match c.stall with
  | .xmov x => completeAt k 0x22 (startMove k x s)
  | .xwait => if c.moves.isEmpty then completeAt k 0x23 s else s
  | .done st => if c.moves.isEmpty then issueDone k st s else s
  | _ => s

/-! ## Undo -/

/-- The items of a run's pending pops on one queue, in their original order (R118). -/
def poppedItems (ops : List RunOp) (q : Nat) : List Item :=
  ops.reverse.filterMap (fun o => match o with | .pop q' it _ => if q' = q then some it else none | _ => none)

/-- Undoes a run's queue and Seedbed operations (R118, R148 steps 2 and 3, R182). -/
def undoRun (r : RunRec) (s : State) : State :=
  let s := r.keys.foldl (fun s x => restoreItems x.1 (poppedItems r.ops x.1) x.2 s) s
  r.ops.foldl (fun s o => match o with | .balloc h => undoAlloc h s | _ => s) s

/-- An aborted node becomes DISARMED, and an arm recorded while ABORTING then applies unless a cancel was recorded too (R134,
R138, R148). An arm that finds the ready store full leaves the node ARMED (R159). -/
def abortDisarm (n : Nat) (s : State) : State :=
  match s.node? n with
  | none => s
  | some d =>
    let arm := d.recArm && !d.recCancel
    let s := disarm n (s.updNode n (fun d => { d with recArm := false, recCancel := false, abortWait := .none }))
    if arm then (armNode n s).getD (s.updNode n (fun d => { d with st := .armed })) else s

/-- A re-run enters READY at the head of its class, or waits for a place, the node staying ABORTING (R149). -/
def enterRerun (n : Nat) (s : State) : State :=
  match s.node? n with
  | none => s
  | some d =>
    if d.recCancel then abortDisarm n (s.setNode n { d with flags := d.flags ||| d.recFlags, recFlags := 0 })
    else if storeFull s d.set.home then s.setNode n { d with abortWait := .rerun }
    else enterReady n true false (s.setNode n { d with
      rerun := true, barred := some d.runCore, abortWait := .none, recArm := false, flags := d.flags ||| d.recFlags, recFlags := 0 })

/-- Makes the posts to ALT that wait on a node's behalf, in order, up to one that finds no place; none is dropped, whatever becomes of the node (R149,
R159). -/
def postAlts (n : Nat) (s : State) : State :=
  match s.bull.alts.find? (fun a => a.source == n) with
  | none => s
  | some a =>
    match postNode a.target a.flags s with
    | some t => { t with bull := { t.bull with alts := t.bull.alts.erase a } }
    | none => s

/-- Steps 4 and 5 of an abort (R148, R149). -/
def abortEnd (n : Nat) (s : State) : State :=
  match s.node? n with
  | none => s
  | some d =>
    let toAlt := d.rerun && decide (d.set.fpol = 1)
    let rerun := !d.rerun && decide (d.set.fpol < 2)
    let s := (s.setNode n { d with
      undo := none, aborts := (d.aborts + 1) % 65536
      flags := if toAlt then d.flags else d.flags ||| d.consumed }).bump fBullAbortsCount 1
    let s := if toAlt && d.consumed != 0 then { s with bull := { s.bull with alts := s.bull.alts ++ [⟨n, d.set.alt, d.consumed⟩] } } else s
    if rerun && !d.recCancel then enterRerun n s
    else
      let s := s.updNode n (fun d => { d with flags := d.flags ||| d.recFlags, recFlags := 0 })
      postAlts n (abortDisarm n s)

end Sys2Proof.Machine
end

