-- ==== Sys2Proof/Machine/Fabric.lean ====
section
/-!
DEFINITION. Fabric.lean: the fabric instructions of a media core (R140, R144, R145, R182, R208 to R211, R262 to R267) and its
counter and system instructions (R237, R268).
-/

namespace Sys2Proof.Machine

/-! ## Status and pending operations -/

/-- The status word of a fabric instruction into S[D], with CF.Z (R262). -/
def fabStatus (k d code handle : Nat) (s : State) : CoreRes :=
  .done (s.updCore k (fun c =>
    { c with cf := cfZ c.cf (code == 0) }.setS d (rv (BitVec.ofNat 32 (code * 2 ^ 24 + handle % 2 ^ 24)))))

/-- Whether a core runs a node (R215). -/
def inRun (s : State) (k : Nat) : Bool := decide ((s.cor k).mode = .run)

/-- The scalar registers that an instruction reads hold their own residues (R242, R244). -/
def goodRegs (s : State) (k : Nat) (xs : List Nat) : Bool := xs.all (fun x => ((s.cor k).sReg x).good)

/-- A fabric instruction that a core may execute only in a run (R215, R248); the registers it reads are checked (R242). -/
def fabric (opc k : Nat) (wf : Bool) (xs : List Nat) (f : State → CoreRes) (s : State) : State :=
  issue k opc false wf (fun s => if !inRun s k then excAt k 1 s else if goodRegs s k xs then f s else excResidue k s) s

/-- Records an operation of a run, newest first. -/
def record (k : Nat) (f : RunRec → RunRec) (s : State) : State := s.updCore k (fun c => { c with run := f c.run })

/-- Records a Bullpen operation (R144), with its status code: the 65th of a run returns PEND_FULL and is counted. -/
def addBull (k : Nat) (o : RunOp) (s : State) : Nat × State :=
  if 64 ≤ (s.cor k).run.nBull then (3, s.bump fBullPendFullCount 1)
  else (0, record k (fun r => { r with ops := o :: r.ops, nBull := r.nBull + 1 }) s)

/-- Records a Seedbed operation (R182), with its status code: the 65th of a run returns PEND_FULL and is counted. -/
def addSeed (k : Nat) (o : RunOp) (s : State) : Nat × State :=
  if 64 ≤ (s.cor k).run.nSeed then (3, s.bump fSeedPendFullCount 1)
  else (0, record k (fun r => { r with ops := o :: r.ops, nSeed := r.nSeed + 1 }) s)

/-- A Bullpen instruction's recording and its status word (R144, R262). -/
def recordBull (k d : Nat) (o : RunOp) (s : State) : CoreRes := let (c, s) := addBull k o s; fabStatus k d c 0 s

/-- A Seedbed instruction's recording and its status word (R182, R262). -/
def recordSeed (k d : Nat) (o : RunOp) (s : State) : CoreRes := let (c, s) := addSeed k o s; fabStatus k d c 0 s

/-- A scalar register as an unsigned number. -/
def sVal (s : State) (k i : Nat) : Nat := ((s.cor k).sReg i).v.toNat

/-! ## Bullpen -/

/-- GETW (R140, R214, R264): waits for a node, or with a mask of 0 returns at once; ILLEGAL during a run. -/
def execGetw (core : Nat) (mask : Nat) (s : State) : Host.Outcome State Fault Refusal :=
  .next (issue core 0x2A true (decide (mask < 16)) (fun s =>
    if inRun s core then excAt core 1 s
    else if mask = 0 then .done s
    else .stay (tryIdle (core / 16) (s.updCore core (fun c => { c with blocked := true, mask := mask })))) s)

/-- DONE (R145, R211, R264): an implicit XWAIT, then the commit; no effect where no node runs (R215). -/
def execDone (core : Nat) (status : Nat) (fromReg : Option Nat) (s : State) : Host.Outcome State Fault Refusal :=
  .next (issue core 0x2B true (decide (status < 256) && (match fromReg with | some x => reg5 x | none => true)) (fun s =>
    if inRun s core then
      if !goodRegs s core fromReg.toList then excResidue core s else
      let st := match fromReg with | some x => sVal s core x % 256 | none => status
      let s := if (s.cor core).moves.isEmpty then issueDone core st s
        else s.updCore core (fun c => { c with stall := .done st })
      .stay s
    else .done s) s)

/-- SIG (R137, R144, R264). -/
def execSig (core : Nat) (d x y : Nat) (s : State) : Host.Outcome State Fault Refusal :=
  .next (fabric 0x2C core (reg5 d && reg5 x && reg5 y) [x, y] (fun s =>
    let t := sVal s core x
    let f := sVal s core y % 65536
    if 2 ^ 18 ≤ t ∨ 2 ^ 15 ≤ f then fabStatus core d 8 0 s
    else if f = 0 then fabStatus core d 0 0 s
    else recordBull core d (.sig t f) s) s)

/-- SIGD (R157, R264): records a timer. -/
def execSigd (core : Nat) (d x y flag : Nat) (dropLate : Bool) (s : State) : Host.Outcome State Fault Refusal :=
  .next (fabric 0x2D core (reg5 d && reg5 x && reg5 y && decide (flag < 16)) [x, y] (fun s =>
    let t := sVal s core x
    let dl := sVal s core y
    if 2 ^ 18 ≤ t ∨ flag = 15 ∨ 2 ^ 31 - 2 < dl then fabStatus core d 8 0 s
    else recordBull core d (.sigd t dl flag dropLate) s) s)

/-- NCAN (R264): records a cancel. -/
def execNcan (core : Nat) (d x : Nat) (s : State) : Host.Outcome State Fault Refusal :=
  .next (fabric 0x2E core (reg5 d && reg5 x) [x] (fun s =>
    let t := sVal s core x
    if 2 ^ 18 ≤ t then fabStatus core d 8 0 s else recordBull core d (.ncan t) s) s)

/-- ARM (R264): records an arm. -/
def execArm (core : Nat) (d x : Nat) (s : State) : Host.Outcome State Fault Refusal :=
  .next (fabric 0x2F core (reg5 d && reg5 x) [x] (fun s =>
    let t := sVal s core x
    if 2 ^ 18 ≤ t then fabStatus core d 8 0 s else recordBull core d (.arm t) s) s)

/-! ## Media queues -/

/-- A queue entry from the four words of R99; the queue sets REPLAY and LOAN itself. -/
def entryOf (w0 w1 w2 w3 : Word) : Entry :=
  { handle := bits w0 0 24, nobuf := w0.getLsbD 24, len := bits w1 0 16, seq := bits w1 16 16, key := w2.toNat, aux := w3.toNat }

/-- The four words of a queue entry (R99). -/
def entryWords (e : Entry) : List Word :=
  [BitVec.ofNat 32 (e.handle % 2 ^ 24 + bitOf e.nobuf * 2 ^ 24 + bitOf e.replay * 2 ^ 25 + bitOf e.loan * 2 ^ 26),
   BitVec.ofNat 32 (e.len % 65536 + e.seq % 65536 * 65536), BitVec.ofNat 32 e.key, BitVec.ofNat 32 e.aux]

/-- Records a push (R117, R119, R265), with its status code. -/
def addPush (k q : Nat) (e : Entry) (s : State) : Nat × State :=
  if 65536 ≤ q ∨ 4096 < e.len then (8, s)
  else if (s.queue? q).isNone then (4, s)
  else if 64 ≤ (s.cor k).run.nMq then (3, s)
  else (0, record k (fun r => { r with ops := .push q e :: r.ops, nMq := r.nMq + 1 }) s)

/-- MQPUSH (R117, R119, R265): records the push. -/
def execMqpush (core : Nat) (d x y : Nat) (s : State) : Host.Outcome State Fault Refusal :=
  .next (fabric 0x27 core (reg5 d && reg5 x && reg5 y) [x] (fun s =>
    let c := s.cor core
    if !(List.range 4).all (fun l => (c.vLane y l).good) then excResidue core s else
    let e := entryOf (c.vLane y 0).v (c.vLane y 1).v (c.vLane y 2).v (c.vLane y 3).v
    let (code, s) := addPush core (sVal s core x) e s
    fabStatus core d code 0 s) s)

/-- Writes a pop's result: the entry in lanes 0 to 3, the status word in lane 4, 0 in lanes 5 to 7, and CF.Z (R262, R265). -/
def popResult (k d code : Nat) (ws : List Word) (s : State) : CoreRes :=
  .done (s.updCore k (fun c =>
    let c := { c with cf := cfZ c.cf (code == 0) }
    (List.range 8).foldl (fun c l =>
      c.setV d l (rv (if l < 4 then ws.getD l 0 else if l = 4 then BitVec.ofNat 32 (code * 2 ^ 24) else 0))) c))

/-- A pop by a node, plain or with bound K, with its status code and the entry it gives (R110, R111, R117, R122, R265). Every pop that reaches an open queue
counts. -/
def addPop (k q : Nat) (bound : Option Nat) (s : State) : Nat × Entry × State :=
  if 65536 ≤ q then (8, {}, s)
  else match s.queue? q with
    | none => (4, {}, s)
    | some qu =>
      let r := (s.cor k).run
      if 64 ≤ r.nMq then (3, {}, s)
      else
        let s := record k (fun r => { r with
          nMq := r.nMq + 1, keys := if r.keys.any (fun y => y.1 == q) then r.keys else r.keys ++ [(q, (qu.lastKey, qu.lastValid))] }) s
        match mqTake q bound s with
        | (.empty, s) => (1, {}, s)
        | (.notDue, s) => (2, {}, s)
        | (.item it, s) =>
          let loan := qu.markSet || r.ops.any (fun o => match o with | .mark q' => q' == q | _ => false)
          (0, { it.e with loan := loan }, record k (fun r => { r with ops := .pop q it loan :: r.ops }) s)

/-- An MQPOP and what it writes (R262, R265). -/
def nodePop (k d x : Nat) (bound : Option Nat) (s : State) : CoreRes :=
  let (code, e, s) := addPop k (sVal s k x) bound s
  popResult k d code (if code = 0 then entryWords e else []) s

/-- MQPOP, plain (R110, R265). -/
def execMqpop (core : Nat) (d x : Nat) (s : State) : Host.Outcome State Fault Refusal :=
  .next (fabric 0x28 core (reg5 d && reg5 x) [x] (fun s => nodePop core d x none s) s)

/-- MQPOP, keyed with K in S[Y] (R110, R265). -/
def execMqpopKeyed (core : Nat) (d x y : Nat) (s : State) : Host.Outcome State Fault Refusal :=
  .next (fabric 0x28 core (reg5 d && reg5 x && reg5 y) [x, y] (fun s => nodePop core d x (some (sVal s core y)) s) s)

/-- MQMARK (R117, R121, R265): records the mark. -/
def execMqmark (core : Nat) (d x : Nat) (s : State) : Host.Outcome State Fault Refusal :=
  .next (fabric 0x29 core (reg5 d && reg5 x) [x] (fun s =>
    let q := sVal s core x
    if 65536 ≤ q then fabStatus core d 8 0 s
    else match s.queue? q with
      | none => fabStatus core d 4 0 s
      | some qu =>
        if qu.retain = 0 then fabStatus core d 9 0 s
        else if 64 ≤ (s.cor core).run.nMq then fabStatus core d 3 0 s
        else fabStatus core d 0 0 (record core (fun r => { r with ops := .mark q :: r.ops, nMq := r.nMq + 1 }) s)) s)

/-! ## Seedbed and moves -/

/-- The account of the node that a core runs (R131). -/
def runAccount (s : State) (k : Nat) : Nat := match s.node? (s.cor k).node with | some d => d.account | none => 0

/-- An allocation of a run at issue, with its status code and handle (R182, R267). -/
def addAlloc (k n : Nat) (s : State) : Nat × Nat × State :=
  if n = 0 then (7, 0, s)
  else if 4096 < n then (8, 0, s)
  else if 64 ≤ (s.cor k).run.nSeed then (3, 0, s.bump fSeedPendFullCount 1)
  else match seedAlloc (runAccount s k) ((n + 255) / 256) .run s with
    | (.ok h, s) => (0, h, record k (fun r => { r with ops := .balloc h :: r.ops, nSeed := r.nSeed + 1 }) s)
    | (.noCredit, s) => (5, 0, s)
    | (.noSpace, s) => (6, 0, s)

/-- BALLOC (R182, R267): allocates at issue. -/
def execBalloc (core : Nat) (d x : Nat) (s : State) : Host.Outcome State Fault Refusal :=
  .next (fabric 0x24 core (reg5 d && reg5 x) [x] (fun s =>
    let (code, h, s) := addAlloc core (sVal s core x) s
    fabStatus core d code h s) s)

/-- A handle operand that returns RANGE (R184, R267). -/
def badHandle (s : State) (h : Nat) : Bool :=
  decide (2 ^ 24 ≤ h) || decide (poolSize s ≤ h) || (decide ((s.tag h).st ≠ .free) && !isFirst s h)

/-- BFREE (R182, R267): records the free. -/
def execBfree (core : Nat) (d x : Nat) (s : State) : Host.Outcome State Fault Refusal :=
  .next (fabric 0x25 core (reg5 d && reg5 x) [x] (fun s =>
    let h := sVal s core x
    if badHandle s h then fabStatus core d 8 0 s else recordSeed core d (.bfree h) s) s)

/-- BGIVE (R182, R267): records the transfer. -/
def execBgive (core : Nat) (d x y : Nat) (s : State) : Host.Outcome State Fault Refusal :=
  .next (fabric 0x26 core (reg5 d && reg5 x && reg5 y) [x, y] (fun s =>
    let h := sVal s core x
    let a := sVal s core y
    if badHandle s h ∨ 4096 ≤ a then fabStatus core d 8 0 s else recordSeed core d (.bgive h a) s) s)

/-- Whether a run may move a range of a buffer (R209): the buffer is its account's, or, for a read, an input of it. -/
def mayMove (s : State) (k h ofs len : Nat) (toBuf : Bool) : Bool :=
  let t := s.tag h
  let acct := runAccount s k
  isFirst s h && decide (ofs + len ≤ 256 * (t.chain + 1)) &&
    (t.owner == acct || (!toBuf && ((decide ((s.acct t.owner).kind = .group) && decide (0 < t.rcount)) || decide ((s.acct t.owner).kind = .queue))))

/-- The checks of XMOV at issue (R209, R220, R267). -/
def moveOk (s : State) (k : Nat) (m : Move) (h y : Nat) : Bool :=
  let ok := decide (y / 2 ^ 29 = 0) && decide (y / 2 ^ 13 % 8 = 0) && decide (h < 2 ^ 24)
  let shape := decide (m.ofs % 4 = 0) && decide (m.len % 4 = 0) && decide (m.len ≤ 4096) && (m.len == 0 || m.la % 4 == 0)
  let loc := m.len == 0 || localOk (s.cor k) m.la m.len
  ok && shape && loc && mayMove s k h m.ofs m.len m.toBuf

/-- XMOV (R208 to R210, R267): checked at issue; a fifth move stalls the core. A failed check raises XFER, the lower code, before the registers' residues are
checked (R217, R242). -/
def xmov (toBuf : Bool) (k d x y : Nat) (s : State) : State :=
  fabric 0x22 k (reg5 d && reg5 x && reg5 y) [] (fun s =>
    let w := sVal s k y
    let m : Move := { la := sVal s k d, handle := sVal s k x, ofs := w % 2 ^ 13, len := w / 65536 % 2 ^ 13, toBuf := toBuf }
    if !moveOk s k m (sVal s k x) w then excAt k 5 s
    else if !goodRegs s k [d, x, y] then excResidue k s
    else if m.len = 0 then .done s
    else if 4 ≤ (s.cor k).moves.length then .stay (s.updCore k (fun c => { c with stall := .xmov m }))
    else .done (startMove k m s)) s

/-- XMOV from a buffer to local RAM (R208). -/
def execXmovToLocal (core : Nat) (d x y : Nat) (s : State) : Host.Outcome State Fault Refusal := .next (xmov false core d x y s)

/-- XMOV from local RAM to a buffer (R208). -/
def execXmovToBuffer (core : Nat) (d x y : Nat) (s : State) : Host.Outcome State Fault Refusal := .next (xmov true core d x y s)

/-- XWAIT (R210): stalls until every outstanding move has completed; returns at once where no node runs (R215). -/
def execXwait (core : Nat) (s : State) : Host.Outcome State Fault Refusal :=
  .next (issue core 0x23 true true (fun s =>
    if (s.cor core).moves.isEmpty then .done s else .stay (s.updCore core (fun c => { c with stall := .xwait }))) s)

/-! ## Counters and system instructions -/

/-- Writes two words of one counter. Which word stays where both name one register the spec leaves open. -/
def putPair (k d y lo hi : Nat) (s : State) : State :=
  let (f, s) := if d = y then s.draw else (0, s)
  s.updCore k (fun c =>
    let a := rv (BitVec.ofNat 32 lo)
    let b := rv (BitVec.ofNat 32 hi)
    if f % 2 = 0 then (c.setS d a).setS y b else (c.setS y b).setS d a)

/-- RDPMC (R268, R453). -/
def execRdpmc (core : Nat) (d n y : Nat) (s : State) : Host.Outcome State Fault Refusal :=
  .next (issue core 0x35 false (reg5 d && reg5 y && decide (n < 6)) (fun s =>
    if s.flag ((fPmuUenMask core).bit n) then
      let v := mapGet 0 n (mapGet ({} : PmuSet) core s.pmu).pmc
      .done (putPair core d y (v % W32) (v / W32) s)
    else .done ((putPair core d y 0 0 s).updCore core (fun c => c.stick sfPmuDeny))) s)

/-- RDCYC (R268). -/
def execRdcyc (core : Nat) (d y : Nat) (s : State) : Host.Outcome State Fault Refusal :=
  .next (issue core 0x36 false (reg5 d && reg5 y) (fun s =>
    let v := cycleOf s core
    .done (putPair core d y (v % W32) (v / W32) s)) s)

/-- A move into S[D] from a register without a residue (R268). -/
def movxFrom (k d : Nat) (wf : Bool) (f : Core → Word) (s : State) : State :=
  issue k 0x37 false (reg5 d && wf) (fun s => finishS k d false (moved (rv (f (s.cor k)))) s) s

/-- A move of S[X] into a register without a residue: the source is checked (R268). -/
def movxTo (k x : Nat) (wf : Bool) (f : Word → Core → Core) (s : State) : State :=
  issue k 0x37 false (reg5 x && wf) (fun s =>
    let v := (s.cor k).sReg x
    writeBack k v.good false false (f v.v) s) s

/-- MOVX from a P or N register (R268). -/
def execMovxFromPn (core : Nat) (d x : Nat) (s : State) : Host.Outcome State Fault Refusal :=
  .next (movxFrom core d (reg5 x) (fun c => c.pnReg x) s)

/-- MOVX to a P or N register (R268). -/
def execMovxToPn (core : Nat) (d x : Nat) (s : State) : Host.Outcome State Fault Refusal :=
  .next (movxTo core x (reg5 d) (fun w c => c.setPn d w) s)

/-- MOVX from a B or L register (R268). -/
def execMovxFromBl (core : Nat) (d x : Nat) (s : State) : Host.Outcome State Fault Refusal :=
  .next (movxFrom core d (regBl x) (fun c => c.blReg x) s)

/-- MOVX to a B or L register (R268). -/
def execMovxToBl (core : Nat) (d x : Nat) (s : State) : Host.Outcome State Fault Refusal :=
  .next (movxTo core x (regBl d) (fun w c => c.setBl d w) s)

/-- MOVX from CF (R268). -/
def execMovxFromCf (core : Nat) (d : Nat) (s : State) : Host.Outcome State Fault Refusal :=
  .next (movxFrom core d true (fun c => BitVec.ofNat 32 c.cf.toNat) s)

/-- MOVX to CF (R268). Bits [7:4] of CF are reserved and stay 0 (R13, R201). -/
def execMovxToCf (core : Nat) (x : Nat) (s : State) : Host.Outcome State Fault Refusal :=
  .next (movxTo core x true (fun w c => { c with cf := BitVec.ofNat 16 w.toNat &&& 0xFF0F }) s)

/-- MOVX from ST (R268). -/
def execMovxFromSt (core : Nat) (d : Nat) (s : State) : Host.Outcome State Fault Refusal :=
  .next (movxFrom core d true (fun c => c.st) s)

/-- MOVX from SF (R268). -/
def execMovxFromSf (core : Nat) (d : Nat) (s : State) : Host.Outcome State Fault Refusal :=
  .next (movxFrom core d true (fun c => BitVec.ofNat 32 c.sf.toNat) s)

/-- NOP (R268). -/
def execNop (core : Nat) (s : State) : Host.Outcome State Fault Refusal :=
  .next (issue core 0x38 false true (fun s => .done s) s)

/-- SFCLR (R237, R242, R268). -/
def execSfclr (core : Nat) (x : Nat) (s : State) : Host.Outcome State Fault Refusal :=
  .next (issue core 0x38 false (reg5 x) (fun s =>
    if !goodRegs s core [x] then excResidue core s
    else .done (s.updCore core (fun c => { c with sf := c.sf &&& ~~~(BitVec.ofNat 20 (c.sReg x).v.toNat) }))) s)

/-- A core issues a word that R248 makes ILLEGAL (R216, R248): a reserved OP, function, condition or kind code, a must-be-0 field that is not 0, a forbidden S or
Q bit, or a register field outside its file. A word that is some instruction's is issued by that instruction's command, and by this one changes nothing. -/
def execIllegalEncoding (core : Nat) (word : Word) (s : State) : Host.Outcome State Fault Refusal :=
  .next (match Sys2Proof.coreInstr core word.toNat with
    | some _ => s
    | none => issue core (word.toNat / 2 ^ 26) false false (fun s => .done s) s)

end Sys2Proof.Machine
end

