-- ==== Sys2Proof/Machine/KmlOps.lean ====
section
/-!
DEFINITION. KmlOps.lean: what the node programs of the Kelrik Media Library share: their records in page 0, their queue, buffer and Bullpen operations, and levels
in dBFS (R272, R273, R283, R290, R292, R303). A run is one effect of its dispatch: it leaves its operations pending in the core, and DONE commits them (R278,
R307). What a rule states is computed here; a value without a stated formula is `Config.kmlFn` of the operands it depends on (R245; assumption 33).
-/

namespace Sys2Proof.Machine

/-! ## Page 0 -/

/-- A word of a running node's context, by its offset (R165, R167). -/
def ctxAt (s : State) (k o : Nat) : Nat := (lramWord (s.cor k) ((s.cor k).ctxAddr + o)).toNat

/-- Bits of a word of a running node's context. -/
def ctxBits (s : State) (k o lo n : Nat) : Nat := wordBits (ctxAt s k o) lo n

/-- A signed byte of a word of a running node's context. -/
def ctxInt8 (s : State) (k o lo : Nat) : Int := signedOf 8 (ctxBits s k o lo 8)

/-- Writes a word of a running node's context, and marks its page dirty (R175). -/
def putCtx (k o v : Nat) (s : State) : State := localStore k ((s.cor k).ctxAddr + o) (leBytes 4 v) s

/-- Adds to a count of a result record, which wraps at 2^32. -/
def addCtx (k o n : Nat) (s : State) : State := if n = 0 then s else putCtx k o ((ctxAt s k o + n) % W32) s

/-! ## Operations -/

/-- Pops an entry; none for every status but OK. -/
def kmlPop (k q : Nat) (bound : Option Nat) (s : State) : Option Entry × State :=
  let (c, e, s) := addPop k q bound s
  (if c = 0 then some e else none, s)

/-- BFREE of a block. -/
def kmlFree (k h : Nat) (s : State) : State := if badHandle s h then s else (addSeed k (.bfree h) s).2

/-- BFREE of a popped entry's buffer, where it has one. -/
def kmlRelease (k : Nat) (e : Entry) (s : State) : State := if e.nobuf then s else kmlFree k e.handle s

/-- SIG of a node with one flag. -/
def kmlSig (k t flag : Nat) (s : State) : State := (addBull k (.sig (t % 2 ^ 18) (2 ^ flag % 2 ^ 15)) s).2

/-- BALLOC of a block, its bytes, and BGIVE to an account; the answer is the handle. A run that gets no buffer gives none (DESIGN CHOICE, assumption 59). -/
def kmlGive (k acct : Nat) (bs : List Byte) (s : State) : Option Nat × State :=
  let (c, h, s) := addAlloc k bs.length s
  if c = 0 then (some h, (addSeed k (.bgive h acct) (bufWrite h 0 bs s)).2) else (none, s)

/-- A notice of a block (R273, R303): NOBUF, the key of the block, its handle in AUX with the slot above it. LENGTH holds the block's bytes (DESIGN CHOICE,
assumption 60). -/
def noticeEntry (key h slot len : Nat) : Entry := { nobuf := true, len := len, key := key, aux := h % 2 ^ 24 + slot % 16 * 2 ^ 24 }

/-- The notice of a block that a run could give no buffer (R303, R313): NOBLOCK. -/
def noBlock (key slot : Nat) : Entry := { nobuf := true, key := key, aux := slot % 16 * 2 ^ 24 + 2 ^ 28 }

/-- Leaves a run's own state for its DONE. -/
def leaveKml (k : Nat) (x : KmlSt) (s : State) : State := record k (fun r => { r with kml := some x }) s

/-- Ends a run before its effect where it may not read a buffer or its context holds a word that cannot be read (R209, R216, R432). -/
def kmlFault (k code : Nat) (s : State) : State := takeException k { code := code, detail := (s.cor k).pc, strike := code == 7 } s

/-- A page-0 word of the running node cannot be read (R432). -/
def ctxBad (s : State) (k : Nat) : Bool :=
  s.flag fUmpCtlEccEn && (s.cor k).bad.any (fun b => decide ((s.cor k).ctxAddr ≤ b.1) && decide (b.1 < (s.cor k).ctxAddr + 0x2000))

/-- A sample of a block: a Q0.23 word of a buffer. -/
def blockSample (s : State) (h i : Nat) : Int := (bufWord s h (4 * i)).toInt

/-- Samples as the words of a block. -/
def blockBytes (xs : List Int) : List Byte := xs.flatMap (fun x => leBytes 4 (patternOf 32 x))

/-! ## Route banks (R305) -/

/-- Crosspoint `i` of a route bank: OUTPUT, SLOT and CHANNEL (R305). -/
def crosspoint (w : Nat → Nat) (bank i : Nat) : Nat × Nat × Nat :=
  let x := w (0x2000 * (1 + bank) + 0x10 + 4 * i)
  (wordBits x 0 6, wordBits x 6 4, wordBits x 10 6)

/-- Crosspoints of a route bank (R305). -/
def routeCount (w : Nat → Nat) (bank : Nat) : Nat := wordBits (w (0x2000 * (1 + bank))) 0 11

/-! ## Levels -/

/-- Sum of squares of samples. -/
def power (xs : List Int) : Nat := (xs.map (fun x => (x * x).toNat)).foldl (· + ·) 0

/-- The power that `n` samples of a full-scale sine have, which reads 0 dBFS (R290). -/
def fullPower (n : Nat) : Nat := n * 2 ^ 45

/-- The ratio a / b is at least 10^(x / den). -/
def ratioGe (a b den : Nat) (x : Int) : Bool :=
  if 0 ≤ x then decide (b ^ den * 10 ^ x.toNat ≤ a ^ den) else decide (b ^ den ≤ a ^ den * 10 ^ (-x).toNat)

/-- The ratio a / b is more than 10^(x / den). -/
def ratioGt (a b den : Nat) (x : Int) : Bool := !ratioGe b a den (-x)

/-- The highest level in 0.01 dB that a ratio reaches, from `lo` on, in `n` halvings. -/
def dbSearch (a b : Nat) : Nat → Int → Int
  | 0, lo => lo
  | n + 1, lo => if ratioGe a b 1000 (lo + 2 ^ n) then dbSearch a b n (lo + 2 ^ n) else dbSearch a b n lo

/-- A power in 0.01 dB against another: that of zeros reads −140.00, and one that lies between two steps reads either, which the spec leaves open (R290). -/
def dbOf (a b : Nat) : Int :=
  if a = 0 then -14000
  else
    let x := dbSearch a b 16 (-32768)
    if ratioGe b a 1000 (-x) then x else x + Config.kmlFn 0 [a, b] % 2

/-- A level in 0.01 dBFS as a 16-bit field (R285, R292). -/
def levelField (p n : Nat) : Nat := patternOf 16 (dbOf p (fullPower n))

/-- A value without a stated formula, read as signed. -/
def kmlInt (w which : Nat) (xs : List Int) : Int := signedOf w (Config.kmlFn which xs)

/-- A sample at full scale (R280, R292). -/
def atFullScale (x : Int) : Bool := decide (x = 0x7FFFFF) || decide (x = -0x800000)

/-! ## Rate conversion (R275, R287, R318) -/

/-- A rate conversion's filter: its number, the rate it runs at in kHz, its taps and its group delay in ticks (R318). -/
structure Conv where
  id    : Nat
  rate  : Nat
  taps  : Nat
  delay : Nat
  deriving DecidableEq, Repr

/-- The conversions between 48 kHz and the rate in kHz (R318). -/
def convOf (rate : Nat) : Option Conv :=
  match rate with
  | 8 => some ⟨0, 48, 97, 48⟩
  | 16 => some ⟨1, 48, 73, 36⟩
  | 32 => some ⟨2, 96, 145, 36⟩
  | 96 => some ⟨3, 96, 65, 16⟩
  | _ => none

/-- Ticks that a conversion delays: a pair without 48 kHz passes through it, and the delays add (R318). -/
def convDelay (a b : Nat) : Nat :=
  let d (r : Nat) : Nat := match convOf r with | some c => c.delay | none => 0
  if a = b then 0 else d a + d b

/-- One output of a linear-phase filter: `xs` holds its inputs, newest first; tap i and tap `taps` − 1 − i are equal, and the output is rounded convergently
(R232, R318). -/
def firOut (c : Conv) (gain : Int) (xs : List Int) : Int :=
  let acc := ((List.range c.taps).map (fun i => Config.filterTap c.id (min i (c.taps - 1 - i)) * xs.getD i 0)).foldl (· + ·) 0
  let (q, _, rnd) := shiftRound (gain * acc) 23
  q + rnd

/-- A sample after `up` − 1 zeros for each one, at the rate of a filter. -/
def stuffed (up : Nat) (xs : List Int) : List Int := xs.flatMap (fun x => x :: List.replicate (up - 1) 0)

/-- Filters at the filter's rate and keeps each `down`-th output: `past` holds the inputs before `xs`, which are at the source's rate, both oldest first. -/
def convert (c : Conv) (up down : Nat) (past xs : List Int) : List Int :=
  let all := stuffed up (past ++ xs)
  (List.range (xs.length * up / down)).map (fun j => firOut c up ((all.take (past.length * up + j * down + 1)).reverse))

/-- Converts a signal between two of the rates 8, 16, 32, 48 and 96 kHz, where 48 kHz is one of them (R318). -/
def rateConvert (a b : Nat) (past xs : List Int) : List Int :=
  match convOf (if a = 48 then b else a) with
  | some c => convert c (c.rate / a) (c.rate / b) past xs
  | none => xs

end Sys2Proof.Machine
end

