-- ==== Sys2Proof/Machine/KmlCanc.lean ====
section
/-!
DEFINITION. KmlCanc.lean: a run of an echo canceller and of its bypass node (R272 to R285).
-/

namespace Sys2Proof.Machine

/-- Bands that the canceller processes (R275). -/
def cancBands : Nat := 17

/-- The parameters of R275: internal rate in kHz, decimation, subband rate in Hz, prototype taps, complex taps per band, and the delay D in ticks. -/
structure CancShape where
  rate    : Nat
  decim   : Nat
  subband : Nat
  proto   : Nat
  taps    : Nat
  delay   : Nat
  deriving DecidableEq, Repr

/-- The tail in ms (R283). -/
def tailMs (tail : Nat) : Nat := 16 * 2 ^ tail

/-- The parameters of a canceller by BAND and TAIL (R275). -/
def cancShape (narrow : Bool) (tail : Nat) : CancShape :=
  if narrow then ⟨8, 8, 1000, 64, tailMs tail, 480⟩ else ⟨48, 24, 2000, 384, 2 * tailMs tail, 384⟩

/-- The fields of a canceller's record that its run uses (R283). -/
structure CancRec where
  narrow : Bool
  tail   : Nat
  mode   : Nat
  nlp    : Nat
  cng    : Bool
  freeze : Bool
  reset  : Bool
  item   : Nat
  margin : Nat
  rinMin : Int
  cngMax : Int
  deriving DecidableEq, Repr

/-- A canceller's record as its run finds it (R283). -/
def cancRec (s : State) (k : Nat) : CancRec :=
  { narrow := ctxBits s k 4 1 1 == 1, tail := ctxBits s k 4 2 2, mode := ctxBits s k 4 0 4, nlp := ctxBits s k 4 4 2, cng := ctxBits s k 4 6 1 == 1
    freeze := ctxBits s k 4 7 1 == 1, reset := ctxBits s k 4 8 1 == 1, item := ctxBits s k 0xC 0 8, margin := ctxBits s k 0x28 0 8
    rinMin := ctxInt8 s k 0x2C 0, cngMax := ctxInt8 s k 0x30 0 }

/-! ## The window (R272, R280) -/

/-- What the pops of a run have given so far: the window's items of the queue at hand and the stale items of both queues. -/
structure Gather where
  items : List Entry := []
  stale : Nat := 0
  deriving DecidableEq, Repr

/-- Keyed pops from one queue, up to the key of the last item that the window from `first` can hold; an item before the window is stale, is released, and is
popped for again, up to 28 in a run (R272, R280). -/
def gather (k q first item : Nat) : Nat → Gather → State → Gather × State
  | 0, g, s => (g, s)
  | fuel + 1, g, s =>
    if 192 / item ≤ g.items.length ∨ 28 ≤ g.stale then (g, s)
    else
      match kmlPop k q (some ((first + 192 - item) % W32)) s with
      | (none, s) => (g, s)
      | (some e, s) =>
        if tickDiff e.key first < 0 then gather k q first item fuel { g with stale := g.stale + 1 } (kmlRelease k e s)
        else gather k q first item fuel { g with items := g.items ++ [e] } s

/-- The sample of a tick among items; 0 where no item holds it (R280). -/
def itemSample (s : State) (items : List Entry) (item t : Nat) : Int :=
  match items.find? (fun e => !e.nobuf && decide (0 ≤ tickDiff t e.key) && decide (tickDiff t e.key < item)) with
  | some e => blockSample s e.handle (tickDiff t e.key).toNat
  | none => 0

/-- The 192 samples of a window. -/
def windowSamples (s : State) (items : List Entry) (item first : Nat) : List Int :=
  (List.range 192).map (fun j => itemSample s items item (first + j))

/-- What step 1 of a run leaves: the window's first tick, if it is known, whether it was taken afresh, the items of Sin and Rin, and the stale ones. -/
structure Window where
  first : Option Nat
  slip  : Bool
  sin   : List Entry
  rin   : List Entry
  stale : Nat
  deriving DecidableEq, Repr

/-- Step 1 (R278, R280). The window's first tick is the key of the first Sin item popped after a restart or after two runs without one; until such an item
comes, a canceller that knows no window pops nothing else, and one that knows it goes on. That pop is a plain one (DESIGN CHOICE, assumption 61). -/
def popWindow (k : Nat) (c : CancSt) (item : Nat) (s : State) : Window × State :=
  let sinQ := ctxBits s k 8 0 16
  let rinQ := ctxBits s k 8 16 16
  let fresh := c.next.isNone || decide (2 ≤ c.empty)
  let got := if fresh then kmlPop k sinQ none s else (none, s)
  match (match got.1 with | some e => some e.key | none => c.next) with
  | none => ({ first := none, slip := false, sin := [], rin := [], stale := 0 }, got.2)
  | some f =>
    let a := gather k sinQ f item 60 { items := got.1.toList } got.2
    let b := gather k rinQ f item 60 { stale := a.1.stale } a.2
    ({ first := some f, slip := got.1.isSome && c.next.isSome, sin := a.1.items, rin := b.1.items, stale := b.1.stale }, b.2)

/-! ## The filters (R275, R276, R279) -/

/-- What a quantum's decision rests on (R279, R280). -/
structure Quantum where
  far    : Bool
  talk   : Bool
  broken : Bool
  deriving DecidableEq, Repr

/-- Operands of a value that depends on a band's filter and on the quantum's signals. -/
def bandArgs (b coef hist : Nat) (sin rin : List Int) : List Int := [(b : Int), (coef : Int), (hist : Int)] ++ sin ++ rin

/-- Power of Sin in a band, of a filter's echo estimate there, of what it leaves, and of the residual echo estimate: the rules give no filter taps. -/
def sinPower (b hist : Nat) (sin : List Int) : Nat := Config.kmlFn 1 (bandArgs b 0 hist sin [])
/-- See `sinPower`. -/
def echoPower (b coef hist : Nat) (rin : List Int) : Nat := Config.kmlFn 2 (bandArgs b coef hist [] rin)
/-- See `sinPower`. -/
def residualPower (b coef hist : Nat) (sin rin : List Int) : Nat := Config.kmlFn 3 (bandArgs b coef hist sin rin)
/-- See `sinPower`. -/
def residualEcho (b coef est hist : Nat) (rin : List Int) : Nat := Config.kmlFn 4 (bandArgs b coef hist [(est : Int)] rin)

/-- A filter's value by band. -/
def coefAt (xs : List Nat) (b : Nat) : Nat := xs.getD b 0

/-- The residual that a set of filters leaves over all bands. -/
def totalResidual (xs : List Nat) (hist : Nat) (sin rin : List Int) : Nat :=
  ((List.range cancBands).map (fun b => residualPower b (coefAt xs b) hist sin rin)).foldl (· + ·) 0

/-- Far end active, double-talk, and the irregular inputs that freeze the adaptation (R279, R280). -/
def quantumOf (r : CancRec) (c : CancSt) (missing : Bool) (sin rin : List Int) : Quantum :=
  { far := ratioGe (power rin) (fullPower 192) 10 r.rinMin
    talk := decide (3 ≤ (List.range cancBands).countP (fun b =>
      ratioGt (sinPower b c.hist sin) (echoPower b (coefAt c.fg b) c.hist rin) 10 r.margin))
    broken := missing || sin.any atFullScale || rin.any atFullScale }

/-- Double-talk is declared where row 3 of R279 applies, or would but for ADAPT_FREEZE. -/
def Quantum.declared (q : Quantum) (r : CancRec) : Bool := q.talk && (q.far || r.freeze)

/-- The background filters adapt (R279, R280). -/
def Quantum.adapts (q : Quantum) (r : CancRec) : Bool := q.far && !q.talk && !r.freeze && !q.broken

/-- The NLP is on (R279): row 1 decides as rows 3 to 5 would. -/
def Quantum.nlpOn (q : Quantum) (r : CancRec) : Bool := (q.far || r.freeze) && !q.talk && r.nlp != 0

/-- The bands that the NLP replaces (R279 row 5): those whose residual lies within 3 dB, or 6 dB, of the residual echo estimate. -/
def replacedBands (r : CancRec) (c : CancSt) (q : Quantum) (sin rin : List Int) : List Nat :=
  if q.nlpOn r then (List.range cancBands).filter (fun b =>
    let x := residualPower b (coefAt c.fg b) c.hist sin rin
    let e := residualEcho b (coefAt c.fg b) c.est c.hist rin
    let w : Int := if r.nlp = 1 then 3 else 6
    ratioGe x e 10 (-w) && ratioGe e x 10 (-w))
  else []

/-- A sample of Sout (R275, R279): the residual of the foreground filters, with zeros or comfort noise in the replaced bands. The noise depends on the node and
on RUNS, which seed its LFSR, and on the Sin background with its cap. -/
def soutSample (r : CancRec) (c : CancSt) (node runs : Nat) (bands : List Nat) (sin rin : List Int) (j : Nat) : Int :=
  let noise : List Int := if r.cng && !bands.isEmpty then [(node : Int), (runs : Int), (c.est : Int), r.cngMax] else []
  kmlInt 24 5 ([(j : Int), (r.mode : Int), (c.hist : Int), (bands.length : Int)] ++ bands.map (fun b => (b : Int)) ++ [(noise.length : Int)] ++ noise ++
    c.fg.map (fun x => (x : Int)) ++ sin ++ rin)

/-- The filters, histories and estimates after a quantum: the background adapts by normalised LMS where it does, and is then copied into the foreground where its
residual was at least 1 dB below the foreground's and double-talk was not declared (R276, R279). -/
def nextFilters (r : CancRec) (c : CancSt) (q : Quantum) (sin rin : List Int) : CancSt :=
  let lower := ratioGe (totalResidual c.fg c.hist sin rin) (totalResidual c.bg c.hist sin rin) 10 1
  let bg := if q.adapts r then (List.range cancBands).map (fun b => Config.kmlFn 6 (bandArgs b (coefAt c.bg b) c.hist sin rin)) else c.bg
  { c with
    bg := bg
    fg := if lower && !q.declared r then bg else c.fg
    hist := Config.kmlFn 7 ((c.hist : Int) :: (sin ++ rin))
    est := Config.kmlFn 8 ((c.est : Int) :: (c.hist : Int) :: (sin ++ rin)) }

/-! ## Output and result record -/

/-- The output block (R284). -/
def outBlock (key : Nat) (bypass nlp : Bool) (node : Nat) (xs : List Int) : List Byte :=
  leBytes 4 key ++ leBytes 4 (192 + bitOf bypass * 2 ^ 16 + bitOf nlp * 2 ^ 17) ++ leBytes 4 (node % 2 ^ 18) ++ leBytes 4 0 ++ blockBytes xs

/-- Steps 3 and 4 (R278): the block to OUT_ACCOUNT and a SIG to each consumer. -/
def cancOutput (k : Nat) (bs : List Byte) (s : State) : State :=
  match kmlGive k (ctxBits s k 0x10 0 12) bs s with
  | (none, s) => s
  | (some _, s) => (List.range (min 4 (ctxBits s k 0x24 0 3))).foldl (fun s i => kmlSig k (ctxBits s k (0x14 + 4 * i) 0 18) (ctxBits s k 0x24 4 4) s) s

/-- Clears every count of the result record (R285). -/
def clearCounts (k : Nat) (s : State) : State := ([0x100] ++ (List.range 7).map (fun i => 0x114 + 4 * i)).foldl (fun s o => putCtx k o 0 s) s

/-- A commit with RESET = 1 zeroes the state and the counts, and the canceller clears the bit; so does a change of TAIL, BAND or MODE zero the state (R280, R283,
R285). -/
def cancStart (k : Nat) (r : CancRec) (c : CancSt) (s : State) : CancSt × State :=
  let s := if r.reset then clearCounts k (putCtx k 4 (ctxAt s k 4 - 256) s) else s
  (if r.reset || c.mode != some r.mode then { ({} : CancSt) with mode := some r.mode } else c, s)

/-- STATE (R285): 2 in declared double-talk, 3 where the adaptation is frozen for another cause, 1 after 8 quanta with an ERLE of 18 dB, else 0. The order of the
first two is DEDUCED (assumption 61). -/
def cancState (r : CancRec) (c : CancSt) (q : Quantum) : Nat :=
  if q.declared r then 2 else if !q.adapts r then 3 else if 8 ≤ c.good then 1 else 0

/-- The counts of an irregular window (R280). -/
def countWindow (k item : Nat) (w : Window) (clipped : Bool) (s : State) : State :=
  let n := 192 / item
  let s := addCtx k 0x114 (n - w.sin.length) s
  let s := addCtx k 0x118 (n - w.rin.length) s
  let s := addCtx k 0x11C w.stale s
  let s := addCtx k 0x120 (bitOf clipped) s
  addCtx k 0x124 (bitOf w.slip) s

/-- Levels of a quantum (R285). -/
def putLevels (k : Nat) (rin sin sout : List Int) (s : State) : State :=
  putCtx k 0x110 (levelField (power sout) 192) (putCtx k 0x10C (levelField (power rin) 192 + levelField (power sin) 192 * 65536) s)

/-- Steps 2 to 6 of a canceller's run, once its window is known (R278 to R285). -/
def cancRun (k node f : Nat) (r : CancRec) (c : CancSt) (w : Window) (s : State) : State :=
  let sin := windowSamples s w.sin r.item f
  let rin := windowSamples s w.rin r.item f
  let c := if w.slip then { c with hist := 0 } else c
  let full := decide (w.sin.length = 192 / r.item) && decide (w.rin.length = 192 / r.item)
  let q := quantumOf r c (!full) sin rin
  let bands := replacedBands r c q sin rin
  let runs := ctxAt s k 0x100
  let sout := (List.range 192).map (soutSample r c node runs bands sin rin)
  let s := cancOutput k (outBlock f false (!bands.isEmpty) node sout) s
  let s := kmlSig k node 14 ((w.sin ++ w.rin).foldl (fun s e => kmlRelease k e s) s)
  let erle := kmlInt 16 9 ((c.hist : Int) :: (sin ++ sout))
  let c' := { nextFilters r c q sin rin with
    next := some ((f + 192) % W32), empty := if w.sin.isEmpty then c.empty + 1 else 0, good := if 1800 ≤ erle then min 8 (c.good + 1) else 0 }
  let s := countWindow k r.item w (sin.any atFullScale || rin.any atFullScale) s
  let s := addCtx k 0x128 (bitOf (q.declared r)) s
  let s := putCtx k 0x104 (if c.next.isNone then 0 else cancState r c' q) s
  let s := putCtx k 0x108 (Config.kmlFn 10 ((c.hist : Int) :: (rin ++ sin)) % 65536 + patternOf 16 erle * 65536) s
  leaveKml k (.canceller c') (addCtx k 0x100 1 (putLevels k rin sin sout s))

/-- Steps 2 to 6 of a bypass node's run: Sin delayed by D (R281). ERL, ERLE and STATE, which it has none of, stay (DESIGN CHOICE, assumption 61). -/
def bypassRun (k node f : Nat) (r : CancRec) (c : CancSt) (w : Window) (s : State) : State :=
  let d := (cancShape r.narrow r.tail).delay
  let sin := windowSamples s w.sin r.item f
  let rin := windowSamples s w.rin r.item f
  let past := if w.slip then [] else c.past
  let line := List.replicate (d - past.length) 0 ++ past ++ sin
  let sout := line.take 192
  let s := cancOutput k (outBlock f true false node sout) s
  let s := kmlSig k node 14 ((w.sin ++ w.rin).foldl (fun s e => kmlRelease k e s) s)
  let c' := { c with next := some ((f + 192) % W32), empty := if w.sin.isEmpty then c.empty + 1 else 0, past := line.drop 192 }
  let s := countWindow k r.item w (sin.any atFullScale || rin.any atFullScale) s
  leaveKml k (.canceller c') (addCtx k 0x12C 1 (addCtx k 0x100 1 (putLevels k rin sin sout s)))

/-- The canceller of a bypass node: the node whose fault policy names it (R281, R282; DEDUCED, assumption 61). -/
def cancellerOf (s : State) (n : Nat) : Option Nat :=
  (s.bull.nodes.find? (fun x => decide (x.2.set.fpol = 1) && x.2.set.alt == n)).map (fun x => x.1)

/-- The dispatch of a bypass node that is to release its channel (R282). Its next takeover starts afresh (R281; DEDUCED, assumption 61). -/
def bypassRelease (k node : Nat) (c : CancSt) (s : State) : State :=
  let s := match cancellerOf s node with
    | some m => (addBull k (.arm m) (kmlSig k m 14 s)).2
    | none => s
  leaveKml k (.canceller { c with next := none, empty := 0, past := [] }) (addCtx k 0x100 1 (putCtx k 0x3C (ctxAt s k 0x3C - 1) s))

/-- A run of a canceller or of a bypass node (R271, R278, R281, R282). -/
def cancellerRun (bypass : Bool) (k node : Nat) (s : State) : State :=
  let c := match mapFind? node s.kml with | some (.canceller c) => c | _ => {}
  if bypass && ctxBits s k 0x3C 0 1 == 1 then bypassRelease k node c s
  else
    let r := cancRec s k
    let (c, s) := cancStart k r c s
    let (w, s) := popWindow k c r.item s
    match w.first with
    | none => leaveKml k (.canceller c) (addCtx k 0x100 1 (kmlSig k node 14 s))
    | some f =>
      if !(w.sin ++ w.rin).all (fun e => e.nobuf || mayMove s k e.handle 0 (4 * r.item) false) then kmlFault k 5 s
      else if bypass then bypassRun k node f r c w s else cancRun k node f r c w s

end Sys2Proof.Machine
end

