-- ==== Sys2Proof/Machine/KmlCodec.lean ====
section
/-!
DEFINITION. KmlCodec.lean: a run of an encoder and of a decoder (R314 to R319).
-/

namespace Sys2Proof.Machine

/-! ## G.711 (R314, R317; the algorithm is PRESUMED from ITU-T G.711, assumption 64) -/

/-- A 14-bit linear sample from a Q0.23 one: convergent rounding with clamp (R317). -/
def linear14 (x : Int) : Int := let (q, _, rnd) := shiftRound x 10; clampS 14 (q + rnd)

/-- Bits of a number: 1 + floor(log2), 0 for 0; up to 13. -/
def bitLen (n : Nat) : Nat := ((List.range 14).filter (fun i => decide (2 ^ i ≤ n))).length

/-- Magnitude of a sample whose negatives are taken as ones' complement. -/
def onesMag (x : Int) : Nat := if x < 0 then (-x - 1).toNat else x.toNat

/-- mu-law octet of a 14-bit sample. -/
def muLaw (x : Int) : Nat :=
  let m := min 0x1FFF (onesMag x + 33)
  let seg := bitLen m - 5
  (if 0 ≤ x then 128 else 0) + (8 - seg) * 16 + (15 - m / 2 ^ seg % 16)

/-- The 14-bit sample of a mu-law octet. -/
def muLinear (b : Nat) : Int :=
  let y := 255 - b % 256
  let mag : Int := ((2 * (y % 16) + 33) * 2 ^ (y / 16 % 8) : Nat) - 33
  if b % 256 < 128 then -mag else mag

/-- A-law octet of a 14-bit sample, of which the law uses 13 bits. -/
def aLaw (x : Int) : Nat :=
  let m := onesMag x / 4
  let seg := bitLen m - 4
  let y := if m < 16 then m else seg * 16 + m / 2 ^ (seg - 1) % 16
  (y + if 0 ≤ x then 128 else 0) ^^^ 0x55

/-- The 14-bit sample of an A-law octet. -/
def aLinear (b : Nat) : Int :=
  let y := b % 256 ^^^ 0x55
  let e := y / 16 % 8
  let m := y % 16
  let mag : Int := (if e = 0 then 4 * m + 2 else (4 * m + 66) * 2 ^ (e - 1) : Nat)
  if y < 128 then -mag else mag

/-! ## The record (R319) -/

/-- The fields of a codec's record that its run uses (R319). -/
structure CodecRec where
  codec   : Nat
  g722    : Nat
  vbr     : Bool
  chans   : Nat
  ptime   : Nat
  bitrate : Nat
  deriving DecidableEq, Repr

/-- A codec's record as its run finds it (R319). -/
def codecRec (s : State) (k : Nat) : CodecRec :=
  { codec := ctxBits s k 4 0 2, g722 := ctxBits s k 4 4 2, vbr := ctxBits s k 4 8 1 == 1
    chans := if ctxBits s k 4 0 2 = 3 ∧ ctxBits s k 4 9 1 = 1 then 2 else 1
    ptime := ctxBits s k 8 0 16, bitrate := ctxBits s k 8 16 9 }

/-- The delay that an encoder adds, in ticks (R314). -/
def encoderDelay (codec : Nat) : Nat := if codec < 2 then 48 else if codec = 2 then 72 else 120

/-- What restarts the state when it changes (R319): CODEC with the RATE it fixes, and the packet time. -/
def CodecRec.key (r : CodecRec) : Nat := r.codec + 4 * r.ptime

/-- A codec's state at the start of a run (R319). -/
def codecState (s : State) (node : Nat) (r : CodecRec) : CodecSt :=
  match mapFind? node s.kml with
  | some (.codec c) => if c.mode = some r.key then c else { mode := some r.key }
  | _ => { mode := some r.key }

/-- Operands of a value that a codec computes from its state. -/
def codecArgs (r : CodecRec) (c : CodecSt) (i : Nat) (xs : List Int) : List Int :=
  [(i : Int), (r.codec : Int), (r.g722 : Int), (bitOf r.vbr : Int), (r.chans : Int), (r.ptime : Int), (r.bitrate : Int), (c.est : Int)] ++ c.hist ++ xs

/-! ## Encoder -/

/-- The bytes of a packet of the samples that it covers (R314, R317): PTIME / 6 octets for G.711 and G.722, and for Opus BITRATE over the packet time, which
constrained VBR varies (RFC 7587 packets are of at most 1,275 bytes). -/
def encode (r : CodecRec) (c : CodecSt) (xs : List Int) : List Byte :=
  if r.codec < 2 then
    (rateConvert 48 8 c.hist xs).map (fun x => BitVec.ofNat 8 (if r.codec = 0 then muLaw (linear14 x) else aLaw (linear14 x)))
  else
    let n := if r.codec = 2 then r.ptime / 6 else if r.vbr then Config.kmlFn 20 (codecArgs r c 0 xs) % 1275 + 1 else r.bitrate * r.ptime / 384
    (List.range n).map (fun i => BitVec.ofNat 8 (Config.kmlFn 21 (codecArgs r c i xs)))

/-- The samples of an input block (R314, R316): a notice's block, or the item's own buffer (DEDUCED, assumption 64). -/
def inputSamples (s : State) (e : Entry) : List Int :=
  let h := if e.nobuf then e.aux % 2 ^ 24 else e.handle
  (List.range (e.len / 4)).map (blockSample s h)

/-- Whether a run may read an input block. -/
def inputOk (s : State) (k : Nat) (e : Entry) : Bool := mayMove s k (if e.nobuf then e.aux % 2 ^ 24 else e.handle) 0 (e.len / 4 * 4) false

/-- BFREE of an input block. -/
def freeInput (k : Nat) (e : Entry) (s : State) : State := kmlFree k (if e.nobuf then e.aux % 2 ^ 24 else e.handle) s

/-- What an encoder has gathered: the key of its first sample, its samples, whether a block broke the alignment or could not be read. -/
structure Gathered where
  key   : Option Nat
  xs    : List Int
  align : Nat := 0
  bad   : Bool := false
  deriving DecidableEq, Repr

/-- An input block joins what an encoder has gathered (R315): one that breaks the alignment of SAMPLE_KEY is dropped, and one that does not follow on begins
afresh. A notice without a block says nothing. -/
def takeInput (r : CodecRec) (k : Nat) (e : Entry) (g : Gathered) (s : State) : Gathered × State :=
  if e.nobuf && e.aux / 2 ^ 28 % 2 == 1 then (g, s)
  else if !inputOk s k e then ({ g with bad := true }, s)
  else if r.codec ≠ 3 ∧ nearTick s ((e.key + W32 - encoderDelay r.codec) % W32) % 6 ≠ 0 then ({ g with align := g.align + 1 }, freeInput k e s)
  else
    let on := g.key = some ((e.key + W32 - g.xs.length) % W32)
    let xs := inputSamples s e
    (if on then { g with xs := g.xs ++ xs } else { g with key := some (e.key % W32), xs := xs }, freeInput k e s)

/-- Plain pops until a packet's samples have come (R315). -/
def popInputs (r : CodecRec) (k q : Nat) : Nat → Gathered → State → Gathered × State
  | 0, g, s => (g, s)
  | fuel + 1, g, s =>
    if r.ptime ≤ g.xs.length ∨ g.bad then (g, s)
    else
      match kmlPop k q none s with
      | (none, s) => (g, s)
      | (some e, s) =>
        let (g, s) := takeInput r k e g s
        popInputs r k q fuel g s

/-- The packet goes to the egress flow (R88, R315). The record has no enables, so both copies are asked for (DESIGN CHOICE, assumption 64). -/
def sendEncoded (k key : Nat) (bs : List Byte) (s : State) : State :=
  let (c, h, s) := addAlloc k (16 + bs.length) s
  if c = 0 then
    (addPush k (ctxBits s k 0xC 16 16) { handle := h, len := bs.length, key := (key + ctxBits s k 0x14 0 16) % W32 }
      (bufWrite h 0 (leBytes 4 key ++ leBytes 4 (3 * 2 ^ 18) ++ leBytes 8 0 ++ bs) s)).2
  else s

/-- A run of an encoder (R315): the packet whose samples have come, if they have. -/
def encoderRun (k node : Nat) (s : State) : State :=
  let r := codecRec s k
  let c := codecState s node r
  let (g, s) := popInputs r k (ctxBits s k 0xC 0 16) 60 { key := c.next, xs := c.buf } s
  if g.bad then kmlFault k 5 s
  else
    let s := addCtx k 0x10C g.align s
    match g.key with
    | some f =>
      if r.ptime ≤ g.xs.length ∧ 0 < r.ptime then
        let c := if c.next = some f then c else { c with hist := [] }
        let xs := g.xs.take r.ptime
        let s := sendEncoded k ((f + W32 - encoderDelay r.codec) % W32) (encode r c xs) s
        let past := c.hist ++ xs
        leaveKml k (.codec { c with next := some ((f + r.ptime) % W32), buf := g.xs.drop r.ptime, hist := past.drop (past.length - 96)
                                    est := Config.kmlFn 22 (codecArgs r c 0 xs) }) (addCtx k 0x100 1 s)
      else leaveKml k (.codec { c with next := some f, buf := g.xs, hist := if c.next = some f then c.hist else [] }) (addCtx k 0x100 1 s)
    | none => leaveKml k (.codec c) (addCtx k 0x100 1 s)

/-! ## Decoder -/

/-- Whether a payload decodes (R316): G.711 and G.722 by their length, Opus by RFC 6716, which gives its duration in ticks, 0 for an invalid packet. -/
def payloadValid (r : CodecRec) (bs : List Byte) : Bool :=
  if r.codec = 3 then
    let d := Config.kmlFn 23 (bs.map (fun b => (b.toNat : Int)))
    decide (d = r.ptime) && decide (d ≤ 480)
  else decide (bs.length = r.ptime / 6)

/-- What a packet, or the concealment of a missing one, gives (R314 to R317): the block's words, sample-major, and the samples that the next packet's converter still
needs. Tick K + i of the block follows the filter of R318, whose delay is the decoder's. -/
def decode (r : CodecRec) (c : CodecSt) (bs : Option (List Byte)) : List Int × List Int :=
  let keep (xs : List Int) : List Int := xs.drop (xs.length - 16)
  let past := List.replicate (16 - c.hist.length) 0 ++ c.hist
  match bs with
  | some bs =>
    if r.codec < 2 then
      let xs := bs.map (fun b => 1024 * (if r.codec = 0 then muLinear b.toNat else aLinear b.toNat))
      (rateConvert 8 48 past xs, keep (past ++ xs))
    else ((List.range (r.ptime * r.chans)).map (fun i => kmlInt 24 24 (codecArgs r c i (bs.map (fun b => (b.toNat : Int))))), [])
  | none =>
    if r.codec < 2 then
      let xs := (List.range (r.ptime / 6)).map (fun i => 1024 * kmlInt 14 25 (codecArgs r c i []))
      (rateConvert 8 48 past xs, keep (past ++ xs))
    else ((List.range (r.ptime * r.chans)).map (fun i => kmlInt 24 26 (codecArgs r c i [])), [])

/-- Pops of a decoder (R316): keyed at the packet due, or plain while none is due. An older packet is released and the queue popped again (DESIGN CHOICE, assumption
64). -/
def popPacket (k q : Nat) (next : Option Nat) : Nat → State → Option Entry × State
  | 0, s => (none, s)
  | fuel + 1, s =>
    match kmlPop k q next s with
    | (none, s) => (none, s)
    | (some e, s) =>
      if next.isSome && decide (tickDiff e.key (next.getD 0) < 0) then popPacket k q next fuel (kmlRelease k e s) else (some e, s)

/-- The block of a packet time goes to OUT_ACCOUNT and its notice to the consumer (R315, R319); without a buffer the notice says NOBLOCK (R313; assumption 59). -/
def giveDecoded (k key : Nat) (xs : List Int) (s : State) : State :=
  let bs := blockBytes xs
  let (h, s) := kmlGive k (ctxBits s k 0x10 0 12) bs s
  (addPush k (ctxBits s k 0xC 16 16) (match h with | some h => noticeEntry key h 0 bs.length | none => noBlock key 0) s).2

/-- The rest of a decoder's run, with the packet popped or none (R315, R316). -/
def decodeRun (k : Nat) (r : CodecRec) (c : CodecSt) (got : Option Entry) (s : State) : State :=
  let good := (got.map (fun e => bufRead s e.handle 32 e.len)).filter (payloadValid r)
  let s1 := match got with | some e => kmlRelease k e s | none => s
  let s2 := addCtx k 0x100 1 (if got.isNone then addCtx k 0x104 1 s1 else addCtx k 0x108 (bitOf good.isNone) s1)
  match (match got with | some e => some e.key | none => c.next) with
  | some f =>
    let x := decode r c good
    leaveKml k (.codec { c with next := some ((f + r.ptime) % W32), hist := x.2
                                est := Config.kmlFn 27 (codecArgs r c 0 ((good.getD []).map (fun b => (b.toNat : Int)))) }) (giveDecoded k f x.1 s2)
  | none => leaveKml k (.codec c) s2

/-- A run of a decoder (R315, R316). Before a first packet there is no key to conceal at, and the run gives no block (DESIGN CHOICE, assumption 64). -/
def decoderRun (k node : Nat) (s : State) : State :=
  let r := codecRec s k
  let c := codecState s node r
  let x := popPacket k (ctxBits s k 0xC 0 16) c.next 60 s
  if x.1.any (fun e => !mayMove x.2 k e.handle 0 (32 + e.len) false) then kmlFault k 5 x.2 else decodeRun k r c x.1 x.2

end Sys2Proof.Machine
end

