-- ==== Sys2Proof/Machine/KmlDet.lean ====
section
/-!
DEFINITION. KmlDet.lean: a run of a tone and level detector (R273, R287 to R295).
-/

namespace Sys2Proof.Machine

/-! ## Blocks and windows (R288 to R291) -/

/-- Ticks since the start of the analysis block of `len` samples that a tick lies in; blocks are aligned to KEY0 (R291). -/
def blockPos (key0 len t : Nat) : Nat := (t % W32 + W32 - key0 % W32) % W32 % len

/-- Takes the sample of a tick into the block being gathered. A block whose samples have all come is the answer; one that a gap in the keys has cut is dropped
(DESIGN CHOICE, assumption 62). -/
def DetFn.take (f : DetFn) (key0 len t : Nat) (x : Int) : DetFn × Option (List Int) :=
  let p := blockPos key0 len t
  let buf := if p = 0 then [x] else if f.buf.length = p then f.buf ++ [x] else []
  let start := if p = 0 then t % W32 else f.start
  if buf.length = len then ({ f with buf := [], start := start }, some buf) else ({ f with buf := buf, start := start }, none)

/-- An event of a function: whether it goes ON, the key, and whether a commit forced it (R293, R294). -/
structure Flip where
  on     : Bool
  key    : Nat
  forced : Bool := false
  deriving DecidableEq, Repr

/-- Counts a block that is valid or not: a function flips after `onN` valid blocks in a row or `offN` invalid ones, keyed at the first of them (R289, R290,
R293). -/
def DetFn.judge (f : DetFn) (valid : Bool) (onN offN : Nat) : DetFn × List Flip :=
  if valid = f.on then ({ f with run := 0 }, [])
  else
    let first := if f.run = 0 then f.start else f.first
    if (if f.on then offN else onN) ≤ f.run + 1 then ({ f with on := !f.on, run := 0, first := first }, [{ on := !f.on, key := first }])
    else ({ f with run := f.run + 1, first := first }, [])

/-! ## Goertzel levels -/

/-- Power of a frequency in a block, in units of the sum of squares: the rules give no arithmetic for it (R288 to R290). -/
def goertzel (rate freq : Nat) (xs : List Int) : Nat := Config.kmlFn 11 ([(rate : Int), (freq : Int)] ++ xs)

/-- The power of a tone is at or above a level in dBFS. -/
def toneAt (p n : Nat) (db : Int) : Bool := ratioGe p (fullPower n) 10 db

/-! ## DTMF (R287, R288) -/

/-- The low-group and high-group frequencies (R288). -/
def dtmfLow : List Nat := [697, 770, 852, 941]
/-- See `dtmfLow`. -/
def dtmfHigh : List Nat := [1209, 1336, 1477, 1633]

/-- The digit of a row and a column of the frequency matrix: 0 to 9, then * # A B C D (R293). -/
def dtmfDigit (row col : Nat) : Nat := ([[1, 2, 3, 0xC], [4, 5, 6, 0xD], [7, 8, 9, 0xE], [0xA, 0, 0xB, 0xF]].getD row []).getD col 0

/-- The 160 samples at 8 kHz of a DTMF block, from its 960 samples and the 47 before them, through the 48-tap decimator (R287, R288). -/
def decimated (past xs : List Int) : List Int :=
  (List.range 160).map (fun j => kmlInt 24 12 (((past ++ xs).drop (6 * j)).take (past.length + 6)))

/-- A block passes every test for the digit of a row and a column (R288). -/
def dtmfPasses (lvl : Int) (fwd rev : Nat) (ys : List Int) (row col : Nat) : Bool :=
  let fl := dtmfLow.getD row 0
  let fh := dtmfHigh.getD col 0
  let l := goertzel 8 fl ys
  let h := goertzel 8 fh ys
  toneAt l 160 lvl && toneAt h 160 lvl && !ratioGt l h 10 rev && !ratioGt h l 10 fwd && decide (power ys ≤ 2 * (l + h)) &&
    ratioGe l (goertzel 8 (2 * fl) ys) 10 12 && ratioGe h (goertzel 8 (2 * fh) ys) 10 12

/-- The digit for which a block is valid. -/
def dtmfValid (lvl : Int) (fwd rev : Nat) (ys : List Int) : Option Nat :=
  (((List.range 4).flatMap (fun r => (List.range 4).map (fun c => (r, c)))).find? (fun x => dtmfPasses lvl fwd rev ys x.1 x.2)).map
    (fun x => dtmfDigit x.1 x.2)

/-- An event before it has its place in the ring: CODE[6:0], VALUE, and when (R293). -/
structure DetEvent where
  code  : Nat
  value : Nat
  flip  : Flip
  deriving DecidableEq, Repr

/-- A DTMF block that is valid for a digit or for none: a digit goes ON when two blocks in a row are valid for it, and OFF when two in a row are not (R288). -/
def dtmfBlock (c : DetChan) (v : Option Nat) : DetChan × List DetEvent :=
  let off := match c.digit with
    | some d => if v != some d && c.valid != some d then [(⟨2, d, { on := false, key := c.key }⟩ : DetEvent)] else []
    | none => []
  let digit := if off.isEmpty then c.digit else none
  let on := match v with
    | some d => if c.valid == some d && digit.isNone then [(⟨1, d, { on := true, key := c.key }⟩ : DetEvent)] else []
    | none => []
  ({ c with digit := if on.isEmpty then digit else v, valid := v, key := c.dtmf.start }, off ++ on)

/-! ## One channel -/

/-- A channel's configuration words, by number (R291). -/
def DetChan.word (c : DetChan) (i : Nat) : Nat := c.cfg.getD i 0

/-- A channel takes a sample: DTMF (R288). -/
def stepDtmf (key0 t : Nat) (x : Int) (c : DetChan) : DetChan × List DetEvent :=
  if wordBits (c.word 0) 0 1 = 0 then (c, [])
  else
    let (f, b) := c.dtmf.take key0 960 t x
    let c := { c with dtmf := f }
    match b with
    | none => (c, [])
    | some xs =>
      let v := dtmfValid (signedOf 8 (wordBits (c.word 1) 0 8)) (wordBits (c.word 1) 8 8) (wordBits (c.word 1) 16 8) (decimated c.hist xs)
      dtmfBlock { c with hist := xs.drop 913 } v

/-- A channel takes a sample: bank tone `i` (R289). -/
def stepTone (key0 t i : Nat) (x : Int) (c : DetChan) : DetChan × List DetEvent :=
  let a := c.word (5 + 2 * i)
  let b := c.word (6 + 2 * i)
  let len := wordBits a 16 16
  if wordBits (c.word 0) (4 + i) 1 = 0 ∨ len = 0 then (c, [])
  else
    let (f, blk) := (c.tones.getD i {}).take key0 len t x
    match blk with
    | none => ({ c with tones := c.tones.set i f }, [])
    | some xs =>
      let p := goertzel 48 (wordBits a 0 15) xs
      let ok := toneAt p len (signedOf 8 (wordBits b 0 8)) && ratioGe p (power xs) 10 (-(wordBits b 8 8 : Nat))
      let (f, es) := f.judge ok (wordBits b 16 4) (wordBits b 20 4)
      ({ c with tones := c.tones.set i f }, es.map (fun e => ⟨if e.on then 3 else 4, i, e⟩))

/-- A channel takes a sample: line-up tone (R290). -/
def stepLineup (key0 t : Nat) (x : Int) (c : DetChan) : DetChan × List DetEvent :=
  if wordBits (c.word 0) 1 1 = 0 then (c, [])
  else
    let (f, blk) := c.lu.take key0 2400 t x
    match blk with
    | none => ({ c with lu := f }, [])
    | some xs =>
      let p := goertzel 48 1000 xs
      let mid := 10 * signedOf 8 (wordBits (c.word 2) 0 8)
      let tol : Int := (wordBits (c.word 2) 8 8 : Nat)
      let ok := ratioGe p (fullPower 2400) 100 (mid - tol) && !ratioGt p (fullPower 2400) 100 (mid + tol) && decide (100 * power xs ≤ 101 * p)
      let (f, es) := ({ f with level := levelField p 2400 } : DetFn).judge ok 4 2
      ({ c with lu := f }, es.map (fun e => ⟨if e.on then 5 else 6, f.level, e⟩))

/-- A channel takes a sample: level and silence (R290). SILENT sets after SIL_HOLD windows below SIL_ON and clears at the first above SIL_OFF; a window between
the two ends the row. -/
def stepLevel (key0 t : Nat) (x : Int) (c : DetChan) : DetChan × List DetEvent :=
  let len := wordBits (c.word 3) 0 16
  if wordBits (c.word 0) 2 1 = 0 ∨ len = 0 then (c, [])
  else
    let (f, blk) := c.lv.take key0 len t x
    match blk with
    | none => ({ c with lv := f }, [])
    | some xs =>
      let below := !toneAt (power xs) len (signedOf 8 (wordBits (c.word 3) 16 8))
      let above := ratioGt (power xs) (fullPower len) 10 (signedOf 8 (wordBits (c.word 3) 24 8))
      let (f, es) := ({ f with level := levelField (power xs) len } : DetFn).judge (if f.on then !above else below) (wordBits (c.word 4) 0 8) 1
      ({ c with lv := f }, es.map (fun e => ⟨if e.on then 7 else 8, f.level, e⟩))

/-- The functions of a channel in the order of R294: DTMF, tones 0 to 3, line-up, silence. -/
def stepFn (fn key0 t : Nat) (x : Int) (c : DetChan) : DetChan × List DetEvent :=
  match fn with
  | 0 => stepDtmf key0 t x c
  | 5 => stepLineup key0 t x c
  | 6 => stepLevel key0 t x c
  | i => stepTone key0 t (i - 1) x c

/-- A function of a channel takes the samples of a block, which begin at a tick. -/
def runFn (fn key0 : Nat) : Nat → List Int → DetChan → DetChan × List DetEvent
  | _, [], c => (c, [])
  | t, x :: xs, c =>
    let (c, a) := stepFn fn key0 t x c
    let (c, b) := runFn fn key0 (t + 1) xs c
    (c, a ++ b)

/-! ## Changes of the configuration (R294) -/

/-- The fields of a function (R291): its enable and its words. -/
def fnFields (fn : Nat) (cfg : List Nat) : List Nat :=
  let w (i : Nat) : Nat := cfg.getD i 0
  match fn with
  | 0 => [wordBits (w 0) 0 1, w 1]
  | 5 => [wordBits (w 0) 1 1, w 2]
  | 6 => [wordBits (w 0) 2 1, w 3, w 4]
  | i => [wordBits (w 0) (3 + i) 1, w (3 + 2 * i), w (4 + 2 * i)]

/-- Restarts a function from OFF with empty blocks; one that was ON records its OFF event, forced, at the key of the run's block (R294). -/
def restartFn (fn key : Nat) (c : DetChan) : DetChan × List DetEvent :=
  let off (on : Bool) (code value : Nat) : List DetEvent := if on then [⟨code, value, { on := false, key := key, forced := true }⟩] else []
  match fn with
  | 0 => ({ c with dtmf := {}, digit := none, valid := none }, off c.digit.isSome 2 (c.digit.getD 0))
  | 5 => ({ c with lu := {} }, off c.lu.on 6 c.lu.level)
  | 6 => ({ c with lv := {} }, off c.lv.on 8 c.lv.level)
  | i => ({ c with tones := c.tones.set (i - 1) {} }, off (c.tones.getD (i - 1) {}).on 4 (i - 1))

/-- A function of a channel in one run: its restart where its fields have changed, then the block's samples. -/
def fnRun (fn key0 key : Nat) (new : List Nat) (xs : List Int) (c : DetChan) : DetChan × List DetEvent :=
  let (c, a) := if fnFields fn c.cfg = fnFields fn new then (c, []) else restartFn fn key c
  let (d, b) := runFn fn key0 key xs { c with cfg := new }
  ({ d with cfg := c.cfg }, a ++ b)

/-! ## A run -/

/-- The configuration words of a channel (R291). -/
def chanWords (s : State) (k ch : Nat) : List Nat := (List.range 16).map (fun i => ctxAt s k (0x40 + 0x40 * ch + 4 * i))

/-- Every channel in use runs one function; its events carry their channel. -/
def chansRun (k fn key0 key n : Nat) (xs : List Int) (s : State) : List Nat → DetSt → DetSt × List (Nat × DetEvent)
  | [], d => (d, [])
  | ch :: t, d =>
    let mine := (List.range (xs.length / n)).map (fun i => xs.getD (i * n + ch) 0)
    let (c, es) := fnRun fn key0 key (chanWords s k ch) mine (mapGet {} ch d.chans)
    let (d, rest) := chansRun k fn key0 key n xs s t { d with chans := mapInsert ch c d.chans }
    (d, es.map (fun e => (ch, e)) ++ rest)

/-- The functions in turn, so that events come in the order of R294. -/
def fnsRun (k key0 key n : Nat) (xs : List Int) (s : State) : List Nat → DetSt → DetSt × List (Nat × DetEvent)
  | [], d => (d, [])
  | fn :: t, d =>
    let (d, a) := chansRun k fn key0 key n xs s (List.range n) d
    let (d, b) := fnsRun k key0 key n xs s t d
    (d, a ++ b)

/-- Writes an event into the ring (R292, R293). -/
def putEvent (k : Nat) (e : Nat × DetEvent) (s : State) : State :=
  let o := 0x800 + 8 * (ctxAt s k 0x388 % 16)
  let w := e.2.code + bitOf e.2.flip.forced * 128 + e.1 * 256 + e.2.value % 65536 * 65536
  addCtx k 0x388 1 (putCtx k (o + 4) w (putCtx k o e.2.flip.key s))

/-- A channel's results (R292). PEAK is on the scale of LEVEL, where a full-scale peak reads 0 (DEDUCED, assumption 62). -/
def putChan (k n : Nat) (xs : List Int) (es : List (Nat × DetEvent)) (old d : DetSt) (ch : Nat) (s : State) : State :=
  let o := 0x400 + 0x40 * ch
  let c := mapGet ({} : DetChan) ch d.chans
  let mine := (List.range (xs.length / n)).map (fun i => xs.getD (i * n + ch) 0)
  let tones := ((List.range 4).map (fun i => bitOf (c.tones.getD i {}).on * 2 ^ (12 + i))).foldl (· + ·) 0
  let st := bitOf c.digit.isSome + c.digit.getD 0 * 16 + bitOf c.lu.on * 256 + bitOf c.lv.on * 512 + tones
  let win := (mapGet ({} : DetChan) ch old.chans).lv.buf ++ mine
  let len := wordBits (c.word 3) 0 16
  let peak := ((win.take len).map (fun x => x.natAbs)).foldl max 0
  let s := putCtx k o st s
  let s := if len ≠ 0 ∧ len ≤ win.length ∧ wordBits (c.word 0) 2 1 = 1 then
      putCtx k (o + 4) (c.lv.level + patternOf 16 (dbOf (peak * peak) (2 ^ 46)) * 65536) s
    else s
  let s := if wordBits (c.word 0) 1 1 = 1 then putCtx k (o + 8) c.lu.level s else s
  let s := addCtx k (o + 0xC) (mine.countP atFullScale) s
  addCtx k (o + 0x10) (es.countP (fun e => e.1 == ch && e.2.code == 1)) s

/-- Takes every channel's configuration as seen. -/
def sawConfig (s : State) (k n : Nat) (d : DetSt) : DetSt :=
  (List.range n).foldl (fun d ch => { d with chans := mapUpd {} ch (fun c => { c with cfg := chanWords s k ch }) d.chans }) d

/-- A run of a detector (R273, R292): one notice, its block or zeros for it, the functions, the results, and one SIG for all events (R294). -/
def detectorRun (k node : Nat) (s : State) : State :=
  let d0 := match mapFind? node s.kml with | some (.detector d) => d | _ => {}
  let n := ctxBits s k 4 0 4
  let key0 := ctxAt s k 0xC
  let (got, s) := kmlPop k (ctxBits s k 8 0 16) none s
  let h := match got with | some e => e.aux % 2 ^ 24 | none => 0
  let key := match got with | some e => e.key | none => d0.next
  let samples := match got with | some e => if n = 0 then 0 else e.len / (4 * n) | none => d0.samples
  if got.isSome && !mayMove s k h 0 (4 * samples * n) false then kmlFault k 5 s
  else
    let xs := if got.isSome then (List.range (samples * n)).map (blockSample s h) else List.replicate (samples * n) 0
    let s := if got.isSome then kmlFree k h s else addCtx k 0x384 1 s
    let s := if d0.channels = some n then s else putCtx k 0x388 0 s
    let (d, es) := fnsRun k key0 key n xs s (List.range 7) d0
    let d := sawConfig s k n { d with channels := some n, next := (key + samples) % W32, samples := samples }
    let s := es.foldl (fun s e => putEvent k e s) s
    let s := (List.range n).foldl (fun s ch => putChan k n xs es d0 d ch s) s
    let s := if !es.isEmpty && ctxBits s k 0x10 22 1 == 1 then kmlSig k (ctxBits s k 0x10 0 18) (ctxBits s k 0x10 18 4) s else s
    leaveKml k (.detector d) (addCtx k 0x380 1 s)

end Sys2Proof.Machine
end

