-- ==== Sys2Proof/Machine/Codes.lean ====
section
/-!
DEFINITION. Codes.lean: the arithmetic of the radio chain, the packet and flash codes, and the PACK coder, as functions of their operands (R330,
R332, R350 to R359, R391 to R396, R402, R408).
-/

namespace Sys2Proof.Machine

/-! ## Rounding and the mixer table -/

/-- a / b rounded to nearest, ties to even (R330). -/
def rne (a : Int) (b : Nat) : Int :=
  let q := a / (b : Int)
  let r := a % (b : Int)
  if 2 * r < b then q else if (b : Int) < 2 * r then q + 1 else if q % 2 = 0 then q else q + 1

/-- pi in units of 2^-80. -/
abbrev piQ : Int := 3797952473636338580787993

/-- Terms of a sine or cosine series: `k` is the power reached. All values are in units of 2^-80. -/
def series (x2 : Int) : Nat → Nat → Int → Bool → Int → Int
  | 0, _, _, _, acc => acc
  | fuel + 1, k, t, neg, acc =>
    let t := t * x2 / 2 ^ 80 / (((k + 1) * (k + 2) : Nat) : Int)
    series x2 fuel (k + 2) t (!neg) (if neg then acc - t else acc + t)

/-- Cosine of an angle up to pi/4, in units of 2^-80. -/
def cosSmall (x : Int) : Int := series (x * x / 2 ^ 80) 12 0 (2 ^ 80) true (2 ^ 80)

/-- Sine of an angle up to pi/4, in units of 2^-80. -/
def sinSmall (x : Int) : Int := series (x * x / 2 ^ 80) 12 1 x true x

/-- Angle of `r` steps of 2 pi / 262144. -/
def stepAngle (r : Nat) : Int := 2 * piQ * r / 262144

/-- Cosine of a first-quadrant angle of `r` steps. -/
def cosQuad (r : Nat) : Int := if r ≤ 32768 then cosSmall (stepAngle r) else sinSmall (stepAngle (65536 - r))

/-- Cosine of `p` steps of 2 pi / 262144, in units of 2^-80. -/
def cosStep (p : Nat) : Int :=
  let r := p % 65536
  match p / 65536 % 4 with
  | 0 => cosQuad r
  | 1 => -cosQuad (65536 - r)
  | 2 => -cosQuad r
  | _ => cosQuad (65536 - r)

/-- Cosine of a first-quadrant angle of `r` units of 2 pi / 2^64. -/
def cosTurnQuad (r : Nat) : Int :=
  if r ≤ 2 ^ 61 then cosSmall (2 * piQ * r / 2 ^ 64) else sinSmall (2 * piQ * (2 ^ 62 - r : Nat) / 2 ^ 64)

/-- Cosine of an angle in units of 2 pi / 2^64, in units of 2^-80. -/
def cosTurn (p : Nat) : Int :=
  let r := p % 2 ^ 62
  match p / 2 ^ 62 % 4 with
  | 0 => cosTurnQuad r
  | 1 => -cosTurnQuad (2 ^ 62 - r)
  | 2 => -cosTurnQuad r
  | _ => cosTurnQuad (2 ^ 62 - r)

/-- The table value C (R332). -/
def mixC (p : Nat) : Int := min (rne (131072 * cosStep p) (2 ^ 80)) 131071

/-- The table value S (R332). -/
def mixS (p : Nat) : Int := min (rne (131072 * cosStep (p + 196608)) (2 ^ 80)) 131071

/-- Clamps to a width and says whether that changed the value (R330, R332, R335). -/
def clampFlag (w : Nat) (x : Int) : Int × Bool := (clampS w x, clampS w x != x)

/-- Taps of the compensation filter (R335). -/
def compTaps : List Int := [-112, 304, -690, 1412, -2788, 5740, -15006, 153352, -15006, 5740, -2788, 1412, -690, 304, -112]

/-- Sum of products, exact. -/
def dot : List Int → List Int → Int
  | a :: s, b :: t => a * b + dot s t
  | _, _ => 0

/-! ## Bits -/

/-- The `n` low bits of a number, most significant first. -/
def msbBits : Nat → Nat → List Bool
  | 0, _ => []
  | n + 1, v => v.testBit n :: msbBits n v

/-- The number that bits spell, most significant first. -/
def msbNat (bs : List Bool) : Nat := bs.foldl (fun a b => 2 * a + if b then 1 else 0) 0

/-- Bits of bytes, most significant first (R354, R392). -/
def byteBits (bs : List Byte) : List Bool := bs.flatMap (fun b => msbBits 8 b.toNat)

/-- Bytes of bits, most significant first; the last byte is padded with zeros. -/
def bitBytes : Nat → List Bool → List Byte
  | 0, _ => []
  | n + 1, bs => BitVec.ofNat 8 (msbNat ((bs.take 8) ++ List.replicate (8 - bs.length) false)) :: bitBytes n (bs.drop 8)

/-- A CRC of `w` bits over a bit string, register first `init`, most significant bit first (R353, R355). -/
def crcBits (w poly init : Nat) (bs : List Bool) : Nat :=
  bs.foldl (fun r b => Nat.xor (2 * r % 2 ^ w) (if r.testBit (w - 1) != b then poly else 0)) init

/-- The CRC-6 of a header (R353). -/
def crc6 (bs : List Bool) : Nat := crcBits 6 3 63 bs

/-- The CRC-16 of a payload (R355). -/
def crc16 (bs : List Bool) : Nat := crcBits 16 0x1021 0xFFFF bs

/-- One bit of the reflected IEEE 802.3 CRC-32. -/
def crc32Step (r : Nat) : Nat := if r % 2 = 1 then Nat.xor (r / 2) 0xEDB88320 else r / 2

/-- The CRC-32 with the IEEE 802.3 polynomial (R408, R478). -/
def crc32 (bs : List Byte) : Nat :=
  Nat.xor 0xFFFFFFFF (bs.foldl (fun r b => (List.range 8).foldl (fun r _ => crc32Step r) (Nat.xor r b.toNat)) 0xFFFFFFFF)

/-! ## Header coding (R352, R353) -/

/-- The 36 information bits of a header. -/
def headerBits (ver link typ seq pwr : Nat) : List Bool :=
  let h := msbBits 2 ver ++ msbBits 9 link ++ msbBits 3 typ ++ msbBits 4 seq ++ msbBits 4 pwr ++ List.replicate 8 false
  h ++ msbBits 6 (crc6 h)

/-- Parity of a number's bits. -/
def parity7 (v : Nat) : Bool := (List.range 7).foldl (fun a i => a != v.testBit i) false

/-- The convolutional encoder, constraint length 7, generators 171 and 133 octal, from a state of the last six bits. -/
def convBits (st : Nat) : List Bool → List Bool
  | [] => []
  | b :: t =>
    let r := (if b then 64 else 0) + st
    parity7 (Nat.land r 121) :: parity7 (Nat.land r 91) :: convBits (r / 2) t

/-- The 84 symbols of a header: the information bits and six zero tail bits, coded. -/
def headerSymbols (ver link typ seq pwr : Nat) : List Bool := convBits 0 (headerBits ver link typ seq pwr ++ List.replicate 6 false)

/-! ## Quasi-cyclic LDPC codes (R356 to R358, R402) -/

/-- rot(x, s) (R356). -/
def rotBits (x : List Bool) (s : Nat) : List Bool := x.drop (s % x.length) ++ x.take (s % x.length)

/-- Bitwise sum over GF(2). -/
def xorBits : List Bool → List Bool → List Bool
  | a :: s, b :: t => (a != b) :: xorBits s t
  | _, _ => []

/-- Row sum a[i] over the information columns. -/
def rowSum (z : Nat) (occ : Nat → Nat → Bool) (sh : Nat → Nat → Nat) (info : List Bool) (i cols : Nat) : List Bool :=
  (List.range cols).foldl (fun acc j =>
    if occ i j then xorBits acc (rotBits ((info.drop (j * z)).take z) (sh i j)) else acc) (List.replicate z false)

/-- Parity blocks p[i] to p[7], given p[i - 1]. -/
def parityFrom (z : Nat) (occ : Nat → Nat → Bool) (sh : Nat → Nat → Nat) (info : List Bool) (cols : Nat) : Nat → Nat → List Bool → List Bool
  | 0, _, _ => []
  | fuel + 1, i, prev =>
    let a := rowSum z occ sh info i cols
    let x := if i = 0 then a else xorBits a (rotBits prev (sh i (cols - 1 + i)))
    let p := rotBits x (z - sh i (cols + i))
    p ++ parityFrom z occ sh info cols fuel (i + 1) p

/-- The parity bits of an information string (R356). -/
def qcParity (z : Nat) (occ : Nat → Nat → Bool) (sh : Nat → Nat → Nat) (info : List Bool) (cols : Nat) : List Bool :=
  parityFrom z occ sh info cols 8 0 []

/-- Occupied information entries of the radio code (R356). -/
def radioOcc (i j : Nat) : Bool :=
  if j < 8 then i == j || i == (j + 1) % 8 || i == (j + 3) % 8
  else i == j - 8 || i == (j - 8 + 2) % 8 || i == (j - 8 + 3) % 8

/-- The radio codeword of k information bits (R356). -/
def radioCodeword (z : Nat) (info : List Bool) : List Bool :=
  info ++ qcParity z radioOcc (fun i j => (3 * i * j + 7 * j + i) % z) info 16

/-- Occupied information entries of the flash code (R402). -/
def flashOcc (i j : Nat) : Bool := i == j % 8 || i == (j + 2) % 8 || i == (j + 5) % 8

/-- The 512 parity bytes of 4,096 bytes of a page (R402, R403). -/
def flashParity (main : List Byte) : List Byte :=
  bitBytes 512 (qcParity 512 flashOcc (fun i j => i * (j + 3) ^ 2 % 512) (byteBits main) 64)

/-! ## Payload (R354, R355, R359) -/

/-- The k information bits of a payload: its bytes and their CRC-16. -/
def payloadInfo (bytes : List Byte) : List Bool :=
  let bs := byteBits bytes
  bs ++ msbBits 16 (crc16 bs)

/-- The CRC-16 at the end of decoded information bits holds (R355). -/
def payloadOk (k : Nat) (info : List Bool) : Bool :=
  info.length == k && msbNat (info.drop (k - 16)) == crc16 (info.take (k - 16))

/-- Whitens a bit string from a state of the PN9 register (R359). -/
def whitenFrom (r : Nat) : List Bool → List Bool
  | [] => []
  | b :: t => (b != r.testBit 0) :: whitenFrom (r / 2 + (if r.testBit 5 != r.testBit 0 then 256 else 0)) t

/-- Whitens a codeword for a link (R359). -/
def whiten (link : Nat) (bs : List Bool) : List Bool := whitenFrom (Nat.xor link 0x1FF) bs

/-- Deviation of a 2-level symbol in units of 128 kHz (R350). -/
def dev2 (b : Bool) : Int := if b then 3 else -3

/-- Deviations of a 4-level payload in units of 128 kHz (R350). -/
def dev4 : List Bool → List Int
  | false :: true :: t => 3 :: dev4 t
  | false :: false :: t => 1 :: dev4 t
  | true :: false :: t => -1 :: dev4 t
  | true :: true :: t => -3 :: dev4 t
  | _ => []

/-- The sync words (R351). -/
def syncWords : List Nat :=
  [0x1E5B3A47, 0x2D96C5B1, 0x35C29E4D, 0x4A731DB6, 0x56E8A339, 0x63B45E92, 0x6C1DB5A3, 0x79264E5B,
   0x8AD9B1A4, 0x9364AC3E, 0xA54BD867, 0xB2E34C95, 0xC69A271D, 0xD47C9B28, 0xE1A56CD3, 0xF25B8E46]

/-- The alternating symbols of ramps and preamble (R350): bit 1 where the symbol number is even. -/
def altSymbols (n : Nat) : List Int := (List.range n).map (fun m => dev2 (m % 2 == 0))

/-- Deviations of symbols 0 to 755 of a packet (R349). -/
def packetDeviations (sync : Nat) (header : List Bool) (fourLevel : Bool) (payload : List Bool) : List Int :=
  altSymbols 48 ++ (msbBits 32 (syncWords.getD sync 0)).map dev2 ++ header.map dev2 ++
  (if fourLevel then dev4 payload else payload.map dev2) ++ altSymbols 16

/-- S_a for an attenuation of a dB (R362). -/
def attenScale : List Nat :=
  [32768, 29205, 26029, 23198, 20675, 18427, 16423, 14637, 13045, 11627, 10362, 9235, 8231, 7336, 6538, 5827, 5193, 4629, 4125, 3677, 3277,
   2920, 2603, 2320, 2068, 1843, 1642, 1464, 1305, 1163, 1036]

/-- Amplitude of symbol m (R362). -/
def symbolAmp (amp : Nat) (ramp : List Nat) (atten m : Nat) : Nat :=
  let v := if m < 16 then ramp.getD m 0 else if m < 740 then 1024 else ramp.getD (755 - m) 0
  (rne (amp * v * attenScale.getD atten 0 : Nat) (2 ^ 25)).toNat

/-- I and Q of a transmitted input sample: its symbol's amplitude, and the phase in units of 2 pi / 2^64 (R362). -/
def symbolIq (amp theta : Nat) : Int × Int := (rne (amp * cosTurn theta) (2 ^ 80), rne (amp * cosTurn (theta + 3 * 2 ^ 62)) (2 ^ 80))

/-- A carrier's I and Q shifted up by its transmit phase (R341). -/
def shiftUp (phi : Word) (x : Int × Int) : Int × Int :=
  let n := phi.toNat / 16384
  (rne (x.1 * mixC n - x.2 * mixS n) 131072, rne (x.2 * mixC n + x.1 * mixS n) 131072)

/-- One sample of the transmit lane: the carriers' sum, clamped to 16 bits, and whether a clamp changed it (R341). -/
def combine (xs : List (Int × Int)) : (Int × Int) × Bool :=
  let i := clampFlag 16 ((xs.map (fun x => x.1)).foldl (· + ·) 0)
  let q := clampFlag 16 ((xs.map (fun x => x.2)).foldl (· + ·) 0)
  ((i.1, q.1), i.2 || q.2)

/-! ## The PACK coder (R391 to R396) -/

/-- Bytes of a block's target (R392). -/
def ratioBytes (ratio : Nat) : Nat := if ratio = 0 then 288 else if ratio = 1 then 384 else 432

/-- The samples of a raw block (R391). -/
def rawSamples : List Byte → List Int
  | a :: b :: c :: t => signedOf 24 (a.toNat + 256 * b.toNat + 65536 * c.toNat) :: rawSamples t
  | _ => []

/-- The raw block of samples (R391). -/
def sampleBytes (xs : List Int) : List Byte :=
  xs.flatMap (fun x => let v := patternOf 24 x; [BitVec.ofNat 8 v, BitVec.ofNat 8 (v / 256), BitVec.ofNat 8 (v / 65536)])

/-- First differences. -/
def diffs : List Int → List Int
  | a :: b :: t => (b - a) :: diffs (b :: t)
  | _ => []

/-- Residuals of an order (R393). -/
def residuals : Nat → List Int → List Int
  | 0, xs => xs
  | k + 1, xs => residuals k (diffs xs)

/-- The mapping of a residual (R393). -/
def zigzag (e : Int) : Nat := if 0 ≤ e then (2 * e).toNat else (-2 * e - 1).toNat

/-- Bits of a residual's code (R394). -/
def riceLen (k u : Nat) : Nat := if u / 2 ^ k < 24 then u / 2 ^ k + 1 + k else 52

/-- A residual's code (R394). -/
def riceBits (k u : Nat) : List Bool :=
  let q := u / 2 ^ k
  if q < 24 then List.replicate q false ++ true :: msbBits k u else List.replicate 24 false ++ msbBits 28 u

/-- Coded length of a block in bits (R392, R395). -/
def codedLen (order k : Nat) (xs : List Int) : Nat :=
  24 + 24 * order + ((residuals order xs).map (fun e => riceLen k (zigzag e))).foldl (· + ·) 0

/-- The pair that PACK chooses and its length: the shortest, then the lower ORDER, then the lower K (R395). -/
def bestPair (xs : List Int) : Nat × Nat × Nat :=
  (List.range 96).foldl (fun b i =>
    let n := codedLen (i / 24) (i % 24) xs
    if n < b.2.2 then (i / 24, i % 24, n) else b) (0, 0, codedLen 0 0 xs)

/-- CHECK of a block (R392). -/
def blockCheck (xs : List Int) : Nat := patternOf 13 (xs.foldl (· + ·) 0)

/-- Codes a raw block at a ratio, or answers that it does not fit (R392, R395). -/
def packEncode (ratio : Nat) (raw : List Byte) : Option (List Byte) :=
  let xs := rawSamples raw
  let b := bestPair xs
  if 8 * ratioBytes ratio < b.2.2 then none
  else
    let bits := msbBits 2 1 ++ msbBits 2 b.1 ++ msbBits 5 b.2.1 ++ msbBits 2 ratio ++ msbBits 13 (blockCheck xs) ++
      (xs.take b.1).flatMap (fun x => msbBits 24 (patternOf 24 x)) ++
      (residuals b.1 xs).flatMap (fun e => riceBits b.2.1 (zigzag e))
    some (bitBytes (ratioBytes ratio) bits)

/-- Takes a field of `n` bits. -/
def takeField (n : Nat) (bs : List Bool) : Option (Nat × List Bool) := if bs.length < n then none else some (msbNat (bs.take n), bs.drop n)

/-- Takes a residual's code: `q` zeros have been read (R394). -/
def takeRice (k q : Nat) : Nat → List Bool → Option (Nat × List Bool)
  | 0, bs => takeField 28 bs
  | _, [] => none
  | fuel + 1, b :: t =>
    if b then (takeField k t).map (fun r => (q * 2 ^ k + r.1, r.2)) else takeRice k (q + 1) fuel t

/-- The prediction of a sample from those before it, newest first (R393). -/
def predictSample (order : Nat) (prev : List Int) : Int :=
  let x (i : Nat) : Int := prev.getD i 0
  match order with
  | 0 => 0
  | 1 => x 0
  | 2 => 2 * x 0 - x 1
  | _ => 3 * x 0 - 3 * x 1 + x 2

/-- Decodes `n` more samples; the answer holds them newest first (R393, R394). -/
def decodeSamples (order k : Nat) : Nat → List Int → List Bool → Option (List Int × List Bool)
  | 0, prev, bs => some (prev, bs)
  | n + 1, prev, bs =>
    match takeRice k 0 24 bs with
    | none => none
    | some (u, rest) =>
      let e : Int := if u % 2 = 0 then (u / 2 : Nat) else -(((u + 1) / 2 : Nat) : Int)
      decodeSamples order k n ((e + predictSample order prev) :: prev) rest

/-- Decodes a coded block of a ratio, or answers that it is BAD (R396). -/
def packDecode (ratio : Nat) (coded : List Byte) : Option (List Byte) :=
  let bs := byteBits coded
  let fmt := msbNat (bs.take 2)
  let order := msbNat ((bs.drop 2).take 2)
  let k := msbNat ((bs.drop 4).take 5)
  let r := msbNat ((bs.drop 9).take 2)
  let check := msbNat ((bs.drop 11).take 13)
  if fmt ≠ 1 ∨ 23 < k ∨ r = 3 ∨ r ≠ ratio then none
  else
    let warm := (List.range order).map (fun i => signedOf 24 (msbNat ((bs.drop (24 + 24 * i)).take 24)))
    match decodeSamples order k (192 - order) warm.reverse (bs.drop (24 + 24 * order)) with
    | none => none
    | some (rev, pad) =>
      let xs := rev.reverse
      if pad.any (fun b => b) ∨ blockCheck xs ≠ check then none else some (sampleBytes xs)

end Sys2Proof.Machine
end

