-- ==== Sys2Proof/Machine/KmlMix.lean ====
section
/-!
DEFINITION. KmlMix.lean: a run of a mixer (R302 to R313).
-/

namespace Sys2Proof.Machine

/-- The fields of a mixer's record that its run uses (R304). -/
structure MixRec where
  outs   : Nat
  flow   : Bool
  l16    : Bool
  route  : Nat
  gain   : Nat
  block  : Nat
  nslots : Nat
  fade   : Nat
  deriving DecidableEq, Repr

/-- A mixer's record as its run finds it (R304). -/
def mixRec (s : State) (k : Nat) : MixRec :=
  { outs := ctxBits s k 4 0 7, flow := ctxBits s k 4 8 1 == 0, l16 := ctxBits s k 4 9 1 == 1, route := ctxBits s k 4 12 1, gain := ctxBits s k 4 14 2
    block := ctxBits s k 0xC 0 8, nslots := ctxBits s k 0xC 8 4, fade := ctxBits s k 0x10 0 16 }

/-- Channels of a slot (R304). -/
def slotChs (s : State) (k slot : Nat) : Nat := if slot < 14 then ctxBits s k (0x40 + slot / 4 * 4) (8 * (slot % 4)) 7 else 0

/-- Slots in use: those below NSLOTS with channels (R302, R304). -/
def slotsInUse (s : State) (k : Nat) : List Nat := (List.range (ctxBits s k 0xC 8 4)).filter (fun x => slotChs s k x != 0)

/-! ## Notices (R303, R307) -/

/-- What an entry of the notice queue says (R303). -/
def noticeOf (e : Entry) : Notice :=
  { slot := e.aux / 2 ^ 24 % 16, key := e.key, block := if e.aux / 2 ^ 28 % 2 = 1 then none else some (e.aux % 2 ^ 24) }

/-- BFREE of a notice's block, where it has one. -/
def freeNotice (k : Nat) (n : Notice) (s : State) : State := match n.block with | some h => kmlFree k h s | none => s

/-- Step 1 so far (R307): the run's key, once a notice has given it, the notices keyed so, those kept for later runs, and the stale ones. -/
structure Sorted where
  key   : Option Nat
  now   : List Notice := []
  later : List Notice := []
  stale : Nat := 0
  deriving DecidableEq, Repr

/-- Sorts one notice (R307): the first sets the key where none is known. One before the key, or a second one for its slot, is released and counted. -/
def sortNotice (k : Nat) (n : Notice) (g : Sorted) (s : State) : Sorted × State :=
  let key := g.key.getD n.key
  let g := { g with key := some key }
  let d := tickDiff n.key key
  let mine := if d = 0 then g.now else g.later
  if d < 0 ∨ mine.any (fun x => x.slot == n.slot) then ({ g with stale := g.stale + 1 }, freeNotice k n s)
  else if d = 0 then ({ g with now := g.now ++ [n] }, s)
  else ({ g with later := g.later ++ [n] }, s)

/-- Sorts notices in turn. -/
def sortNotices (k : Nat) : List Notice → Sorted → State → Sorted × State
  | [], g, s => (g, s)
  | n :: ns, g, s =>
    let x := sortNotice k n g s
    sortNotices k ns x.1 x.2

/-- Plain pops until every slot in use holds a notice of the run (R307 step 1). -/
def popNotices (k q : Nat) (used : List Nat) : Nat → Sorted → State → Sorted × State
  | 0, g, s => (g, s)
  | fuel + 1, g, s =>
    if g.key.isSome && used.all (fun x => g.now.any (fun n => n.slot == x)) then (g, s)
    else
      match kmlPop k q none s with
      | (none, s) => (g, s)
      | (some e, s) =>
        let x := sortNotice k (noticeOf e) g s
        popNotices k q used fuel x.1 x.2

/-- Step 1 (R307). A kept notice counts as the run's own where its key is, and the key of a first run after an arm or a change of BLOCK is that of the first notice
popped (DEDUCED, assumption 63). -/
def gatherNotices (k : Nat) (m : MixSt) (r : MixRec) (s : State) : Sorted × State :=
  let q := ctxBits s k 8 0 16
  let used := slotsInUse s k
  if m.next.isSome && m.block == r.block then
    let x := sortNotices k m.kept { key := m.next } s
    popNotices k q used (r.nslots + 4) x.1 x.2
  else
    match kmlPop k q none s with
    | (none, s) => ({ key := none, later := m.kept }, s)
    | (some e, s) =>
      let x := sortNotice k (noticeOf e) { key := none } s
      let y := sortNotices k m.kept x.1 x.2
      popNotices k q used (r.nslots + 3) y.1 y.2

/-! ## Gains (R305, R309 to R311) -/

/-- The gain that a crosspoint has now, in units of 2^-22 (R309). -/
def Xpoint.gain (x : Xpoint) : Int := if x.len ≤ x.n then x.to_ else x.from_ + rne ((x.to_ - x.from_) * x.n) x.len

/-- A change of a crosspoint's target starts a fade from its gain now; a change that leaves the target starts nothing (R310). -/
def Xpoint.aim (x : Xpoint) (g : Int) (fade : Nat) : Xpoint := if x.to_ = g then x else { x with from_ := x.gain, to_ := g, n := 0, len := fade }

/-- A crosspoint after one more sample. -/
def Xpoint.tick (x : Xpoint) : Xpoint := { x with n := min x.len (x.n + 1) }

/-- The place of a crosspoint (R310). -/
def Xpoint.place (x : Xpoint) : Nat × Nat × Nat := (x.out, x.slot, x.chan)

/-- Targets of the crosspoints of the active route bank under a gain bank (R305). -/
def targets (s : State) (k route bank : Nat) : List ((Nat × Nat × Nat) × Int) :=
  (List.range (min 1024 (routeCount (ctxAt s k) route))).map (fun i =>
    (crosspoint (ctxAt s k) route i, signedOf 25 (ctxBits s k (0x2000 * (3 + bank) + 4 * i) 0 25)))

/-- Turns crosspoints to new targets (R310, R311): one without a target fades to 0. -/
def retarget (ts : List ((Nat × Nat × Nat) × Int)) (fade : Nat) (xs : List Xpoint) : List Xpoint :=
  xs.map (fun x => x.aim (match ts.find? (fun t => t.1 == x.place) with | some t => t.2 | none => 0) fade)

/-- The crosspoints at sample 0 of a run, under the set in force (R310): one that a commit has added starts from 0, and so does each of a mixer's first run
(DEDUCED, assumption 63). -/
def atDispatch (ts : List ((Nat × Nat × Nat) × Int)) (fade : Nat) (xs : List Xpoint) : List Xpoint :=
  let added := (ts.filter (fun t => !xs.any (fun x => x.place == t.1))).map (fun t =>
    ({ out := t.1.1, slot := t.1.2.1, chan := t.1.2.2, from_ := 0, to_ := 0, n := 0, len := 0 } : Xpoint))
  retarget ts fade (xs ++ added)

/-- A control item of a run: the sample at which it applies, the bank, and whether it came late (R310). -/
structure Control where
  at_  : Nat
  bank : Nat
  late : Bool
  deriving DecidableEq, Repr

/-- Step 3 (R307): up to 4 keyed pops. -/
def popControls (k q key block : Nat) : Nat → State → List Control × State
  | 0, s => ([], s)
  | fuel + 1, s =>
    match kmlPop k q (some ((key + block - 1) % W32)) s with
    | (none, s) => ([], s)
    | (some e, s) =>
      let d := tickDiff e.key key
      let (rest, s) := popControls k q key block fuel s
      ({ at_ := d.toNat, bank := e.aux % 4, late := decide (d < 0) } :: rest, s)

/-! ## The mix (R308) -/

/-- The sample of a slot's channel; a slot without a block, or a channel that it does not have, gives 0 (R303, R307). -/
def slotSample (s : State) (k : Nat) (ns : List Notice) (slot chan i : Nat) : Int :=
  match ns.find? (fun n => n.slot == slot) with
  | some { block := some h, .. } => if chan < slotChs s k slot then blockSample s h (i * slotChs s k slot + chan) else 0
  | _ => 0

/-- One output sample and whether it was clamped (R308): the sum of the products modulo 2^56, extracted. -/
def mixSample (s : State) (k : Nat) (r : MixRec) (ns : List Notice) (xs : List Xpoint) (i o : Nat) : Int × Bool :=
  let sum := ((xs.filter (fun x => x.out == o)).map (fun x => 4 * slotSample s k ns x.slot x.chan i * x.gain)).foldl (· + ·) 0
  let v : Acc := BitVec.ofInt 56 sum
  let e := extLane true (r.flow && r.l16) 0 { v := v, r := (v.toInt % 7).toNat }
  (e.v.toInt, e.sat)

/-- What the mix has reached: the crosspoints, the gain bank, and the samples with their clamps, in sample-major order. -/
structure Mixed where
  xps  : List Xpoint
  bank : Nat
  out  : List (Int × Bool) := []
  deriving DecidableEq, Repr

/-- Step 4, sample by sample (R307 to R311): the control items of a sample in pop order, then the outputs, then every fade moves on. -/
def mixBlock (s : State) (k : Nat) (r : MixRec) (ns : List Notice) (cs : List Control) : List Nat → Mixed → Mixed
  | [], m => m
  | i :: t, m =>
    let m := (cs.filter (fun c => c.at_ == i)).foldl (fun (m : Mixed) c =>
      if c.bank = m.bank then m else { m with bank := c.bank, xps := retarget (targets s k r.route c.bank) r.fade m.xps }) m
    let out := (List.range r.outs).map (mixSample s k r ns m.xps i)
    mixBlock s k r ns cs t { m with xps := m.xps.map Xpoint.tick, out := m.out ++ out }

/-! ## Output (R307) -/

/-- Step 5, FLOW (R88, R307): descriptor, payload and entry. -/
def mixFlow (k key : Nat) (r : MixRec) (xs : List Int) (s : State) : State :=
  let w := if r.l16 then 2 else 3
  let payload := xs.flatMap (fun x => beBytes w (patternOf (8 * w) x))
  let desc := leBytes 4 key ++ leBytes 4 (ctxBits s k 0x18 16 2 * 2 ^ 18) ++ leBytes 8 0
  let (c, h, s) := addAlloc k (16 + payload.length) s
  if c = 0 then
    (addPush k (ctxBits s k 0x14 0 16) { handle := h, len := payload.length, key := (key + ctxBits s k 0x18 0 16) % W32 } (bufWrite h 0 (desc ++ payload) s)).2
  else s

/-- Step 5, BLOCK (R303, R307): block, notices and signals. A mixer that gets no buffer says NOBLOCK (R313; assumption 59). -/
def mixBlocks (k key : Nat) (xs : List Int) (s : State) : State :=
  let bs := blockBytes xs
  let (h, s) := kmlGive k (ctxBits s k 0x14 16 12) bs s
  (List.range (min 4 (ctxBits s k 0x3C 0 3))).foldl (fun s i =>
    let slot := ctxBits s k (0x1C + 8 * i) 16 4
    let e := match h with | some h => noticeEntry key h slot bs.length | none => noBlock key slot
    kmlSig k (ctxBits s k (0x20 + 8 * i) 0 18) (ctxBits s k (0x1C + 8 * i) 20 4) (addPush k (ctxBits s k (0x1C + 8 * i) 0 16) e s).2) s

/-- The result record (R312), and the gain bank in use in the record itself (R304, R310). -/
def mixResult (k key missing : Nat) (g : Sorted) (cs : List Control) (m : Mixed) (count fading : Nat) (s : State) : State :=
  let s := putCtx k 4 (ctxAt s k 4 + m.bank * 0x4000 - ctxBits s k 4 14 2 * 0x4000) s
  let s := putCtx k 0x104 key (addCtx k 0x100 1 s)
  let s := addCtx k 0x10C missing (addCtx k 0x108 g.stale s)
  let s := addCtx k 0x114 (m.out.countP (fun x => x.2)) (addCtx k 0x110 (cs.countP (fun c => c.late)) s)
  putCtx k 0x11C m.bank (putCtx k 0x118 (count + fading * 65536) s)

/-- Steps 2 to 7 of a run whose key is known (R307). -/
def mixKeyed (k key : Nat) (r : MixRec) (m : MixSt) (g : Sorted) (s : State) : State :=
  let missing := (slotsInUse s k).countP (fun x => !g.now.any (fun n => n.slot == x))
  let (cs, s) := if ctxBits s k 0xC 16 1 = 1 then popControls k (ctxBits s k 8 16 16) key r.block 4 s else ([], s)
  let ts := targets s k r.route r.gain
  let mixed := mixBlock s k r g.now cs (List.range r.block) { xps := atDispatch ts r.fade m.xps, bank := r.gain }
  let xs := mixed.out.map (fun x => x.1)
  let xps := mixed.xps.filter (fun x => decide (x.n < x.len) || ts.any (fun t => t.1 == x.place))
  let s := if r.flow then mixFlow k key r xs s else mixBlocks k key xs s
  let s := g.now.foldl (fun s n => freeNotice k n s) s
  let s := mixResult k key missing g cs mixed ts.length (xps.countP (fun x => decide (x.n < x.len))) s
  leaveKml k (.mixer { next := some ((key + r.block) % W32), block := r.block, kept := g.later, xps := xps }) s

/-- A run of a mixer (R307). One that has no key, because no notice has come since the arm or the change of BLOCK, counts its slots missing and mixes nothing
(DESIGN CHOICE, assumption 63). -/
def mixerRun (k node : Nat) (s : State) : State :=
  let m := match mapFind? node s.kml with | some (.mixer m) => m | _ => {}
  let r := mixRec s k
  let (g, s) := gatherNotices k m r s
  if !g.now.all (fun n => match n.block with | some h => mayMove s k h 0 (4 * r.block * slotChs s k n.slot) false | none => true) then kmlFault k 5 s
  else
    match g.key with
    | none => leaveKml k (.mixer { m with next := none }) (addCtx k 0x10C (slotsInUse s k).length (addCtx k 0x100 1 s))
    | some key => mixKeyed k key r m g s

end Sys2Proof.Machine
end

