-- ==== Sys2Proof/Machine/KmlRun.lean ====
section
/-!
DEFINITION. KmlRun.lean: the run of a node of the Kelrik Media Library at its dispatch (R271, R302, R314).
-/

namespace Sys2Proof.Machine

/-- Events that a core's instructions count (R451). -/
def instEvents : List Nat := [1, 0x10, 0x11, 0x12, 0x13, 0x14, 0x15, 0x16, 0x17, 0x20, 0x21, 0x22, 0x23, 0x24, 0x30, 0x31, 0x32, 0x33, 0x40, 0x41]

/-- The instructions of a run count in its core's counters: how many there are the rules do not say, so the counts are free (assumption 33). -/
def kmlCounts (k : Nat) (s : State) : State :=
  (List.range 6).foldl (fun s i =>
    if s.flag (fPmuEvselEn k i) && instEvents.contains (s.fld (fPmuEvselEvent k i)) then (fun (x : Nat × State) => pmcAdd k i x.1 x.2) s.draw else s) s

/-- The run of the program that a record's TYPE names (R283, R291, R304, R319); another TYPE is none of KML's. -/
def kmlRun (type k node : Nat) (s : State) : State :=
  match type with
  | 0x0E01 => cancellerRun false k node s
  | 0x0E02 => cancellerRun true k node s
  | 0x0D01 => detectorRun k node s
  | 0x0B01 => mixerRun k node s
  | 0x0C01 => encoderRun k node s
  | 0x0C02 => decoderRun k node s
  | _ => s

/-- A core that has received a KML node runs its program up to DONE, which the DONE command then issues (assumption 33). A page-0 word that cannot be read ends the
run (R432). -/
def kmlStart (k : Nat) (s : State) : State :=
  if ctxBad s k then kmlFault k 7 s else kmlRun (ctxBits s k 0 0 16) k (s.cor k).node (kmlCounts k s)

/-- The cores that have received a node between two states. -/
def newRuns (old new : State) : List Nat := (List.range 256).filter (fun k => decide ((old.cor k).mode ≠ .run) && decide ((new.cor k).mode = .run))

/-- A command that may dispatch, with the run of a KML program where the code of the node dispatched is one. -/
def withKml (kml : Bool) (f : State → State) (s : State) : State :=
  if kml then (newRuns s (f s)).foldl (fun t k => kmlStart k t) (f s) else f s

end Sys2Proof.Machine
end

