-- ==== Sys2Proof/Machine/BullCmd.lean ====
section
/-!
DEFINITION. BullCmd.lean: the events of Bullpen, Greenhouse, Seedbed and the media queues (R103, R143 to R177, R186 to R189). An
event whose condition does not hold changes nothing (DESIGN CHOICE, assumption 4); one that falls due at an instant first lets
time run up to it (assumption 5).
-/

namespace Sys2Proof.Machine

/-! ## Beats -/

/-- A generator that may beat: Bullpen and the generator are enabled (R150, R161). -/
def canBeat (s : State) (g : Nat) : Bool := decide (g < 8) && s.flag fBullCtlEn && (s.gen g).en

/-- The instant of a generator's next beat. -/
def beatTime (s : State) (g : Nat) : Nat := timeOfTick (beatTick s (s.gen g))

/-- No lower-numbered generator still has a beat to send that is due by the tick of this one's (R150). -/
def beatFirst (s : State) (g : Nat) : Bool :=
  (List.range g).all (fun i => !canBeat s i || decide (max s.tick (beatTick s (s.gen g)) < beatTick s (s.gen i)))

/-- BEAT (R150): MTC becomes NEXT. Generators due at one tick post in number order, so the beat of a later one waits for its command until the earlier
ones have had theirs. -/
def beat (g : Nat) (s : State) : State := if canBeat s g && beatFirst s g then startBeat g (advanceTo (beatTime s g) s) else s

/-- BEAT (R150). -/
def execBeat (g : Nat) (s : State) : Host.Outcome State Fault Refusal := .next (beat g s)

/-- BEAT_POSTER_RESUME (R159): the poster goes on where a place has become free. -/
def execBeatPosterResume (s : State) : Host.Outcome State Fault Refusal := .next (if s.flag fBullCtlEn then postBeats s else s)

/-- BULL_WAKE_LEAD before a beat, the HOME cluster of every member wakes (R143). -/
def beatWake (g : Nat) (s : State) : State :=
  let lead := s.fld fBullWakeLeadUs
  if canBeat s g && lead != 0 then
    let s := advanceTo (beatTime s g - lead * 1000 * nsUnit) s
    (s.gen g).members.foldl (fun s n => match s.node? n with | some d => wakeCluster d.set.home s | none => s) s
  else s

/-- BEAT_WAKE_LEAD (R143). -/
def execBeatWakeLead (g : Nat) (s : State) : Host.Outcome State Fault Refusal := .next (beatWake g s)

/-- Members of a generator in the order Greenhouse serves them: by class, then by joining (R172). -/
def byClass (s : State) (ns : List Nat) : List Nat :=
  (List.range 4).flatMap (fun c => ns.filter (fun n => match s.node? n with | some d => d.set.cls == c | none => false))

/-- BULL_PF_LEAD before a beat, every member's context is prefetched (R143, R172). -/
def beatPrefetch (g : Nat) (s : State) : State :=
  let lead := s.fld fBullPfLeadNs
  if canBeat s g && lead != 0 then
    let s := advanceTo (beatTime s g - lead * nsUnit) s
    (byClass s (s.gen g).members).foldl (fun s n => prefetch n s) s
  else s

/-- PREFETCH_NOTICE (R143). -/
def execPrefetchNotice (g : Nat) (s : State) : Host.Outcome State Fault Refusal := .next (beatPrefetch g s)

/-! ## Timers -/

/-- The timer at an id, while it heads its list and Bullpen runs (R153, R156). -/
def headTimer (s : State) (id : Nat) : Option Timer :=
  match mapFind? id s.bull.timers with
  | some t => if s.flag fBullCtlEn && timerAtHead s t then some t else none
  | none => none

/-- No list of a lower number has a timer at its head that is due by the tick of this one and is not held (R153). -/
def timerFirst (s : State) (t : Timer) : Bool :=
  s.bull.timers.all (fun x => decide (t.list ≤ x.2.list) || x.2.held || !timerAtHead s x.2 ||
    decide (max s.tick (timerFireTick t) < timerFireTick x.2))

/-- A timer reaches its DUE tick (R153). Timers due at one tick fire by list number, so one of a later list waits for its command until the earlier lists
have fired theirs. -/
def timerDue (id : Nat) (s : State) : State :=
  match headTimer s id with
  | some t => if t.held || !timerFirst s t then s else fireTimer id t (advanceTo (timeOfTick (timerFireTick t)) s)
  | none => s

/-- TIMER_FIRE (R153). -/
def execTimerFire (timer : Nat) (s : State) : Host.Outcome State Fault Refusal := .next (timerDue timer s)

/-- The held timer at the head of a list fires if its target's ready store has a place (R156). -/
def timerRelease (list : Nat) (s : State) : State :=
  match s.bull.timers.find? (fun x => x.2.list == list && x.2.held && (headTimer s x.1).isSome) with
  | some (id, t) => fireTimer id t s
  | none => s

/-- TIMER_HELD_RELEASE (R156). -/
def execTimerHeldRelease (list : Nat) (s : State) : Host.Outcome State Fault Refusal := .next (timerRelease list s)

/-- A timer comes within 2 ticks of its DUE (R172). -/
def timerLead (id : Nat) (s : State) : State :=
  match mapFind? id s.bull.timers with
  | some t => prefetch t.target (advanceTo (timeOfTick (timerFireTick t - 2)) s)
  | none => s

/-- TIMER_PREFETCH_LEAD (R172). -/
def execTimerPrefetchLead (timer : Nat) (s : State) : Host.Outcome State Fault Refusal := .next (timerLead timer s)

/-! ## Dispatch -/

/-- NODE_DISPATCH (R141): Bullpen's next decision for a cluster. `kml` says that the code at the node's PROG is the Kelrik Media Library's (R271, R302, R314;
assumption 33). -/
def execNodeDispatch (cluster : Nat) (kml : Bool) (s : State) : Host.Outcome State Fault Refusal :=
  .next (withKml kml (fun s => if cluster < 16 then dispatchCluster cluster s else s) s)

/-- An entry has aged BULL_STEAL.AGE in its store: the lowest-numbered waiting core of another cluster whose choice it is takes it (R142). -/
def stealAge (n : Nat) (s : State) : State :=
  match s.node? n with
  | none => s
  | some d =>
    match (s.readyQ d.set.home d.set.cls).find? (fun e => e.node == n) with
    | none => s
    | some e =>
      if !s.flag fBullCtlEn then s
      else
        let s := advanceSince e.since (nsCycles (s.fld fBullStealAge)) s
        match (List.range 256).filter (fun k => k / 16 != d.set.home && stealPick s k == some n) with
        | k :: _ => stealTo k n s
        | [] => s

/-- STEAL_AGE_EXPIRY (R142); `kml` as for NODE_DISPATCH. -/
def execStealAgeExpiry (node : Nat) (kml : Bool) (s : State) : Host.Outcome State Fault Refusal := .next (withKml kml (stealAge node) s)

/-- A core has run for BUDGET × 256 core cycles since the dispatch without issuing DONE (R147). The cycles of DONE's implicit XWAIT come before its issue and
count (R211, R214). -/
def budgetOver (k : Nat) (s : State) : State :=
  let c := s.cor k
  let stopped := match c.stall with | .aborting => true | _ => false
  if decide (c.mode = .run) && !stopped then
    match s.node? c.node with
    | some d =>
      let s := advanceSince d.runStart ((d.set.budget * 256 + coreCycles - 1) / coreCycles) s
      takeException k { code := 8, detail := (s.cor k).pc } s
    | none => s
  else s

/-- BUDGET_OVERRUN (R147). -/
def execBudgetOverrun (core : Nat) (s : State) : Host.Outcome State Fault Refusal := .next (budgetOver core s)

/-- MQ and Seedbed have undone a run: its node's flags and fault policy follow, and the core goes home (R148, R149). -/
def abortUndone (n : Nat) (s : State) : State :=
  match s.node? n with
  | none => s
  | some d =>
    match d.undo with
    | none => s
    | some r =>
      if d.st ≠ .aborting then s
      else
        let s := abortEnd n (undoRun r s)
        let c := s.cor d.runCore
        if decide (c.mode = .run) && decide (c.stall = .aborting) && c.node == n then coreHome d.runCore s else s

/-- ABORT_UNDO_COMPLETE (R148). -/
def execAbortUndoComplete (node : Nat) (s : State) : Host.Outcome State Fault Refusal := .next (abortUndone node s)

/-- A re-run or a post to ALT that waited for a place enters READY (R149, R159). -/
def rerunEntry (n : Nat) (s : State) : State :=
  match s.node? n with
  | none => postAlts n s
  | some d => if d.abortWait = .rerun then enterRerun n s else postAlts n s

/-- RERUN_READY_ENTRY (R149). -/
def execRerunReadyEntry (node : Nat) (s : State) : Host.Outcome State Fault Refusal := .next (rerunEntry node s)

/-- A core stalled in DONE goes on with its commit (R146). -/
def doneResume (k : Nat) (s : State) : State :=
  let c := s.cor k
  if decide (c.mode = .doneWait) && !c.commit.isEmpty then commitRest k c.commit s else s

/-- DONE_COMMIT_RESUME (R146). -/
def execDoneCommitResume (core : Nat) (s : State) : Host.Outcome State Fault Refusal := .next (doneResume core s)

/-- A node left ARMED and satisfied by a full ready store enters READY (R146, R159). -/
def armedEntry (n : Nat) (s : State) : State :=
  match s.node? n with
  | none => s
  | some d => if decide (d.st = .armed) && satisfied d && !storeFull s d.set.home then enterReady n false false s else s

/-- ARMED_READY_ENTRY (R146). -/
def execArmedReadyEntry (node : Nat) (s : State) : Host.Outcome State Fault Refusal := .next (armedEntry node s)

/-! ## Greenhouse -/

/-- A hold ends after GH_AFF_WIN, and the node is placed elsewhere (R171). Where the core it is held for has asked meanwhile, Bullpen gives it that core
and the hold does not expire. -/
def holdExpiry (n : Nat) (s : State) : State :=
  match s.node? n with
  | none => s
  | some d =>
    match d.hold with
    | none => s
    | some (c, since) =>
      if canTake s c n d then s
      else
      let s := advanceSince since (nsCycles (s.fld fGhAffWinNs)) s
      let s := (s.setNode n { d with hold := none, expired := true }).bump fGhAffExpireCount 1
      if s.flag fBullCtlEn then
        match placeLocal s d.set.home n with
        | .dispatched s' => s'
        | .paging s' => s'
        | .held s' => s'
        | .skipped => s
      else s

/-- AFFINITY_HOLD_EXPIRY (R171); `kml` as for NODE_DISPATCH. -/
def execAffinityHoldExpiry (node : Nat) (kml : Bool) (s : State) : Host.Outcome State Fault Refusal := .next (withKml kml (holdExpiry node) s)

/-- A node leaves whatever state it is in and becomes DISARMED after a context was lost (R177, R433); so does one whose DONE is paused under R146. An abort
has its own end (R149). -/
def contextLost (n : Nat) (s : State) : State :=
  match s.node? n with
  | none => s
  | some d =>
    match d.st with
    | .ready => disarm n (leaveReady n s)
    | .disarmed => s
    | .aborting => s
    | _ => disarm n s

/-- Every page of a page-in is resident, or HBM could not give one (R169, R174, R433). The HBM address of the lost word is a
free value. -/
def pageInDone (n : Nat) (ok : Bool) (s : State) : State :=
  match s.node? n, mapFind? n s.gh.pageIns with
  | some d, some p =>
    match p.slot with
    | none => s
    | some sl =>
      let s := s.setGh (fun g => { g with pageIns := mapErase n g.pageIns })
      if hbmGood s ok then
        let s := pageCopyIn d p.core sl s
        let r : Res := { core := p.core, slot := sl, pre := p.pre, resv := p.resv, disp := if d.dispatched then d.runStart else 0 }
        let s := s.setGh (fun g => { g with res := mapInsert n r g.res })
        let pages := classPages d.ctxClass
        pmuEvent 257 0x202 pages (addTraffic (0x2000 * pages) (s.bump fGhPageinCount pages))
      else
        let (a, s) := s.draw
        umpEvent { cls := 1, source := 5, cause := 0x13, node := n, acct := d.account, detail := a } (contextLost n s)
  | _, _ => s

/-- PAGE_IN_COMPLETE (R174). -/
def execPageInComplete (node : Nat) (hbmOk : Bool) (s : State) : Host.Outcome State Fault Refusal := .next (pageInDone node hbmOk s)

/-- A class of a loaded node; 4 for none. -/
def nodeClass (s : State) (n : Nat) : Nat := match s.node? n with | some d => d.set.cls | none => 4

/-- No other prefetch that waits for slots, and could have them, comes before this one: P0 first, and within a class in order of trigger (R172). -/
def prefetchFirst (s : State) (n : Nat) (p : PageIn) : Bool :=
  s.gh.pageIns.all (fun x => x.1 == n || !x.2.pre || x.2.slot.isSome || (chooseSlot s x.2.core (nodePages s x.1)).isNone ||
    decide (nodeClass s n < nodeClass s x.1) || (nodeClass s n == nodeClass s x.1 && decide (p.order < x.2.order)))

/-- A page-in that waited for slots gets them (R173). -/
def slotFreed (n : Nat) (s : State) : State :=
  match mapFind? n s.gh.pageIns with
  | some p =>
    if p.slot.isNone && (chooseSlot s p.core (nodePages s n)).isSome && (!p.pre || prefetchFirst s n p) then placePageIn n p s else s
  | none => s

/-- PAGE_IN_SLOT_FREE (R173). -/
def execPageInSlotFree (node : Nat) (s : State) : Host.Outcome State Fault Refusal := .next (slotFreed node s)

/-- What waited for a write-back goes on: a retired core or a spare loses the context (R219, R435), and an eviction or an unload
ends (R160, R189). -/
def writeBackAfter (n : Nat) (d : NodeD) (s : State) : State :=
  let s := match s.resOf n with
    | some r => if isWorking s r.core then s else invalidate n s
    | none => s
  let s := if d.evicting then finishWait (.evict n) 0 [] (invalidate n (s.updNode n (fun d => { d with evicting := false }))) else s
  if d.unloading then graphsStep (eraseNode n s) else s

/-- A page of a write-back holds a word that cannot be read (R177, R432). -/
def pagesBad (s : State) (k sl : Nat) (dirty : List Nat) : Bool :=
  s.flag fUmpCtlEccEn && (s.cor k).bad.any (fun b => dirty.any (fun p => decide (slotAddr (sl + p) ≤ b.1) && decide (b.1 < slotAddr (sl + p + 1))))

/-- A write-back ends: SEL and GEN change in one update (R175), or the third attempt of a page has failed, or a page could not be read (R177). -/
def writeBackDone (n failures : Nat) (s : State) : State :=
  match s.node? n with
  | none => s
  | some d =>
    match d.writeBack, s.resOf n with
    | some dirty, some r =>
      if failures < 3 && !pagesBad s r.core r.slot dirty then
        let s := pageCopyOut d r.core r.slot dirty s
        let s := s.setNode n { d with
          sel := dirty.foldl (fun x p => x ^^^ 2 ^ p) d.sel, gen := (d.gen + 1) % 65536, writeBack := none }
        let s := pmuEvent 257 0x203 dirty.length (addTraffic (0x2000 * dirty.length) (s.bump fGhWritebackCount dirty.length))
        writeBackAfter n d s
      else
        let s := contextLost n (invalidate n (s.setNode n { d with writeBack := none }))
        let s := raiseFld 0x05 fGhIntStatWbFail (s.bump fGhWbFailCount 1)
        let (a, s) := s.draw
        let s := umpEvent { cls := 1, source := 5, cause := 0x1B, node := n, acct := d.account, detail := a } s
        writeBackAfter n d s
    | _, _ => s

/-- WRITE_BACK_COMPLETE (R175). -/
def execWriteBackComplete (node failures : Nat) (s : State) : Host.Outcome State Fault Refusal := .next (writeBackDone node failures s)

/-! ## Seedbed -/

/-- The ledger sweep: the sum of HELD over all accounts against OWNED (R186). -/
def sweepLedger (s : State) : State :=
  let sum := (s.seed.accts.map (fun a => a.2.held)).foldl (· + ·) 0
  if s.flag fSeedCtlEn && sum != s.seed.ownedA then mismatch 0 s else s

/-- LEDGER_SWEEP (R186). -/
def execLedgerSweep (s : State) : Host.Outcome State Fault Refusal := .next (sweepLedger s)

/-- Granules whose tag names an owner (R187). -/
def ownedTags (s : State) (a : Nat) : Nat := s.seed.tags.countP (fun t => t.2.st != .free && t.2.owner == a)

/-- A read of a granule's tag met an uncorrectable word, at an HBM address: the tag stays as it is, and the account that owns it is marked SUSPECT
(R432, R433). -/
def tagLost (g detail : Nat) (s : State) : State :=
  let x := s.tag g
  let own := x.st != .free
  let s := if own then s.setSeed (fun d => { d with accts := mapUpd {} x.owner (fun y => { y with suspect := true }) d.accts }) else s
  umpEvent { cls := 1, source := 6, cause := 0x13, suspect := own, acct := if own then x.owner else 0, detail := detail } s

/-- HBM address of a granule's tag (R178, R179). -/
def tagAddr (s : State) (g : Nat) : Nat := s.fld fSeedTagBaseLoAddr * 2 ^ fSeedTagBaseLoAddr.lo + s.fld fSeedTagBaseHiAddr * 2 ^ 32 + 8 * g

/-- A tag sweep ends after `ms` milliseconds: each account's HELD and the free count against the tags (R187). `lost` lists the granules whose tags it
could not read (R433). -/
def sweepTags (ms : Nat) (lost : List Nat) (s : State) : State :=
  if !s.flag fSeedCtlEn then s
  else
    let s := if s.flag fUmpCtlEccEn then lost.foldl (fun s g => tagLost g (tagAddr s g) s) s else s
    let s := s.setFld fSeedSweepMs (min ms 65535)
    let accts := (List.range 4096).filter (fun a => ownedTags s a != (s.acct a).held)
    let s := accts.foldl (fun s a => mismatch a s) s
    if accts.isEmpty && s.seed.freeA + s.seed.tags.countP (fun t => t.2.st != .free) != poolSize s then mismatch 0 s else s

/-- TAG_SWEEP_COMPLETE (R187). -/
def execTagSweepComplete (ms : Nat) (lost : List Nat) (s : State) : Host.Outcome State Fault Refusal := .next (sweepTags ms lost s)

/-! ## Media queues and moves -/

/-- A head window of 4 or fewer items takes 4 from the spilled middle (R103). -/
def headRefill (q : Nat) (s : State) : State :=
  match s.queue? q with
  | none => s
  | some x => let r := x.refill; pmuEvent 259 0x403 r.1 (s.setQueue q r.2)

/-- HEAD_WINDOW_REFILL (R103). -/
def execHeadWindowRefill (queue : Nat) (s : State) : Host.Outcome State Fault Refusal := .next (headRefill queue s)

/-- A core's oldest move completes, or meets an uncorrectable HBM word (R210, R432, R433). -/
def moveEnd (k : Nat) (ok : Bool) (s : State) : State :=
  let c := s.cor k
  match c.moves with
  | [] => s
  | m :: _ =>
    if c.mode ≠ .run then s
    else if hbmGood s ok then moveDone k m s
    else
      let (a, s) := s.draw
      takeException k { code := 5, detail := a, hbm := true } s

/-- MOVE_COMPLETE (R210). -/
def execMoveComplete (core : Nat) (hbmOk : Bool) (s : State) : Host.Outcome State Fault Refusal := .next (moveEnd core hbmOk s)

/-! ## Scout -/

/-- One step of the 16-bit LFSR of polynomial x^16 + x^14 + x^13 + x^11 + 1, shifting right (R457; the shift direction is
PRESUMED, assumption 14). -/
def lfsrStep (x : Nat) : Nat :=
  let b := (x + x / 4 + x / 8 + x / 32) % 2
  x % 65536 / 2 + b * 32768

/-- A Scout's interval expires: the next instruction that enters DEC in a run is tagged (R457, R458). -/
def scoutExpire (k : Nat) (s : State) : State :=
  let x := s.scoutOf k
  if decide (k < 256) && s.flag (fScoutCtlEn k) && !x.full && decide ((s.cor k).mode = .run) then
    { s with scout := mapInsert k { x with lfsr := lfsrStep x.lfsr, tagged := true } s.scout }
  else s

/-- SCOUT_INTERVAL_EXPIRY (R457). -/
def execScoutIntervalExpiry (core : Nat) (s : State) : Host.Outcome State Fault Refusal := .next (scoutExpire core s)

end Sys2Proof.Machine
end

