-- ==== Sys2Proof/Machine/Power.lean ====
section
/-!
DEFINITION. Power.lean: cluster power states (R492 to R496), scrubbing, spare tests, the AON monitors and FATAL events (R433 to R442).
-/

namespace Sys2Proof.Machine

/-! ## Clusters -/

/-- A scheduled wake of a cluster, one that Bullpen times ahead of a beat under R143, falls within `us` microseconds (R494). -/
def wakeWithin (s : State) (n us : Nat) : Bool :=
  let lead := s.fld fBullWakeLeadUs * 1000 * nsUnit
  decide (0 < lead) && (List.range 8).any (fun g => canBeat s g &&
    (s.gen g).members.any (fun m => match s.node? m with | some d => d.set.home == n | none => false) &&
    decide (beatTime s g - lead ≤ s.time.t + us * 1000 * nsUnit))

/-- An IDLE cluster enters SLEEP (R494, R495). -/
def sleepEntry (n : Nat) (s : State) : State :=
  let c := s.cl n
  if decide (n < 16) && decide (c.pwr = .idle) && decide (2 ≤ s.fld (fCluPwrLimit n)) then
    let s := advanceSince c.since (s.fld fGlbPwrDelaySleep * 25) s
    if wakeWithin s n 15 then s else setPwr n .sleep s
  else s

/-- CLUSTER_SLEEP_ENTRY (R494). -/
def execClusterSleepEntry (cluster : Nat) (s : State) : Host.Outcome State Fault Refusal := .next (sleepEntry cluster s)

/-- Nothing keeps a cluster from OFF: no node of it runs, no page-in targets it and no write-back from it is incomplete (R493). -/
def mayOff (s : State) (n : Nat) : Bool :=
  s.bull.nodes.all (fun x =>
    let busy := decide (x.2.st = .running) || decide (x.2.st = .cancelPending) || decide (x.2.st = .aborting) || x.2.writeBack.isSome
    !(busy && x.2.runCore / 16 == n)) &&
  s.gh.pageIns.all (fun p => p.2.core / 16 != n)

/-- A core loses its local RAM (R492, R493). -/
def coreOff (k : Nat) (s : State) : State :=
  let work := isWorking s k
  let (id, s) := s.draw
  s.updCore k (fun c => { c with
    mode := if work && decide (c.mode = .wait) then .off else c.mode
    blocked := false, ram := [], scratch := [], filled := [], bad := [], scratchId := id })

/-- A cluster in SLEEP enters OFF by the steps of R493. -/
def offEntry (n : Nat) (s : State) : State :=
  let c := s.cl n
  if decide (n < 16) && decide (c.pwr = .sleep) && !c.waking && s.fld (fCluPwrLimit n) == 3 then
    let s := advanceSince c.since (s.fld fGlbPwrDelayOff * 25) s
    if wakeWithin s n 40 || !mayOff s n then s
    else
      let ks := (List.range 16).map (fun m => 16 * n + m)
      let s := ks.foldl (fun s k => invalidateCore k s) s
      let s := ks.foldl (fun s k => coreOff k s) (syncCluster n s)
      setPwr n .off s
  else s

/-- CLUSTER_OFF_ENTRY (R493). -/
def execClusterOffEntry (cluster : Nat) (s : State) : Host.Outcome State Fault Refusal := .next (offEntry cluster s)

/-- A core that wakes from OFF starts at its home PC with its registers at zero (R214, R492; the spec gives the registers no
value there: DESIGN CHOICE, assumption 15). A retired or HALTED core stays as it is (R493). -/
def coreWake (k : Nat) (s : State) : State :=
  let pc := homePc s k
  s.updCore k (fun c => match c.mode with
    | .retired => c
    | .halted => c
    | _ => { ({} : Core) with mode := .wait, pc := pc, node := c.node, scratchId := c.scratchId, moved := c.moved })

/-- A cluster's wake ends: it is IDLE, or RUN where LIMIT is RUN (R492, R494, R495). -/
def wakeDone (n : Nat) (s : State) : State :=
  let c := s.cl n
  if c.waking then
    let s := advance (c.wakeAt - s.clk) s
    let s := if c.pwr = .off then ((List.range 16).map (fun m => 16 * n + m)).foldl (fun s k => coreWake k s) s else s
    setPwr n (if s.fld (fCluPwrLimit n) = 0 then .run else .idle) s
  else s

/-- CLUSTER_WAKE_COMPLETE (R492). -/
def execClusterWakeComplete (cluster : Nat) (s : State) : Host.Outcome State Fault Refusal := .next (wakeDone cluster s)

/-- A write of CLUn_PWR.LIMIT has been stored: a limit below the current state wakes the cluster at once, and a cluster whose
cores all wait leaves RUN when the limit allows (R494, R495). -/
def limitWritten (n : Nat) (s : State) : State :=
  let lim := s.fld (fCluPwrLimit n)
  match (s.cl n).pwr with
  | .run => tryIdle n s
  | .idle => if lim = 0 then setPwr n .run s else s
  | .sleep => if lim < 2 then wakeCluster n s else s
  | .off => if lim < 3 then wakeCluster n s else s

/-- A new value of CLUn_SPARES.COUNT (R219, R436): a core that becomes a spare while it waits loses its contexts at once. -/
def sparesWritten (n count : Nat) (s : State) : State :=
  let old := workingCores s n
  let s := (syncCluster n s).setFld (fCluSparesCount n) count
  let gone := old.filter (fun k => !isWorking s k)
  let s := gone.foldl (fun s k =>
    let s := dropPageIns k s
    match (s.cor k).mode with
    | .run => s
    | .doneWait => s
    | _ => invalidateIdle k s) s
  tryIdle n s

/-- CLUn_Cm_HOME has been written: a HALTED core resumes at the new home PC (R218). -/
def homeWritten (k : Nat) (s : State) : State :=
  let pc := homePc s k
  if (s.cor k).mode = .halted then
    s.updCore k (fun c => { c with
      mode := if (s.cl (k / 16)).pwr = .off then .off else .wait, blocked := false, pc := pc, loops := [], stall := .none })
  else s

/-! ## Spare tests -/

/-- The self-test of a spare (R436). -/
def testSpare (k : Nat) (passed : Bool) (s : State) : State :=
  let p := (s.cl (k / 16)).pwr
  let on := s.flag fUmpCtlEn && s.flag fUmpSpareTestSec && decide (k < 256) && inSpare s k && (decide (p = .run) || decide (p = .idle))
  if on && !passed then
    let (a, s) := (retireCore k s).draw
    umpEvent { cls := 2, core := k % 16, source := 0x20 + k / 16, cause := 0x1C, retired := true, detail := a } s
  else s

/-- SPARE_TEST (R436). -/
def execSpareTest (core : Nat) (passed : Bool) (s : State) : Host.Outcome State Fault Refusal := .next (testSpare core passed s)

/-! ## Scrubbing -/

/-- Marks a word of a cluster's or core's RAM as uncorrectable: an address below 0x80000 lies in the core's local RAM, one from
0x100000 to 0x1FFFFF in the cluster's shared data RAM; a finding numbers the shared code RAM from 0x200000, since its code addresses are also those of
local RAM (R194 to R198, R432; DESIGN CHOICE, assumption 57). -/
def markBad (n m a : Nat) (s : State) : State :=
  let w := a / 4 * 4
  if a < 0x80000 then s.updCore (16 * n + m) (fun c => { c with bad := mapInsert w () c.bad })
  else if 0x100000 ≤ a ∧ a < 0x200000 then s.updClu n (fun c => { c with bad := mapInsert w () c.bad })
  else if 0x200000 ≤ a ∧ a < 0x300000 then s.updClu n (fun c => { c with badCode := mapInsert (w - 0x200000) () c.badCode })
  else s

/-- One word that the SRAM scrubber found wrong (R432, R437): a fabric block's uncorrectable word is FATAL, and the word of a core or
a cluster stays bad until it is rewritten. -/
def scrubFound (source core : Nat) : List MemFinding → State → State
  | [], s => s
  | f :: t, s =>
    if f.corrected then
      let s := if 0x20 ≤ source ∧ f.addr < 0x80000 then pmuEvent (16 * (source - 0x20) + core) 0x060 1 s else s
      scrubFound source core t (umpEvent { cls := 0, core := if 0x20 ≤ source then core else 0, source := source, cause := 0x10, detail := f.addr } s)
    else if 0x20 ≤ source then scrubFound source core t (markBad (source - 0x20) core f.addr s)
    else fatalReset 0x11 source s

/-- A pass of the SRAM scrubber (R437). With ECC_EN = 0 its reads find nothing (R438). -/
def scrubPass (source core : Nat) (found : List MemFinding) (late : Bool) (s : State) : State :=
  if s.ready && s.flag fUmpCtlEn && s.flag fUmpScrubSramMs && decide (source < 0x30) && decide (core < 16) then
    let s := if late then s.bump fUmpScrubLateCount 1 else s.bump fUmpScrubPassesCount 1
    if s.flag fUmpCtlEccEn then scrubFound source core found s else s
  else s

/-- SRAM_SCRUB_PASS (R437). -/
def execSramScrubPass (source core : Nat) (found : List MemFinding) (late : Bool) (s : State) : Host.Outcome State Fault Refusal :=
  .next (scrubPass source core found late s)

/-- Granule of the tag at an HBM address (R178, R179). -/
def granuleOf (s : State) (a : Nat) : Nat :=
  (a - (s.fld fSeedTagBaseLoAddr * 2 ^ fSeedTagBaseLoAddr.lo + s.fld fSeedTagBaseHiAddr * 2 ^ 32)) / 8

/-- One word that the HBM patrol found wrong, for the block whose data it is (R432, R433). An uncorrectable word of a cluster's code fails every fetch until the
host writes it again (R198; DESIGN CHOICE, assumption 57). -/
def patrolFound (source : Nat) : List MemFinding → State → State
  | [], s => s
  | f :: t, s =>
    if f.corrected then patrolFound source t (umpEvent { cls := 0, source := source, cause := 0x12, detail := f.addr } s)
    else if source = 4 ∨ source = 7 then fatalReset 0x13 source s
    else if source = 6 then
      patrolFound source t (tagLost (granuleOf s f.addr) f.addr s)
    else
      let s := if 0x20 ≤ source then { s with hbmBad := mapInsert (f.addr / 4 * 4) () s.hbmBad } else s
      patrolFound source t (umpEvent { cls := 1, source := source, cause := 0x13, detail := f.addr } s)

/-- A pass of the HBM patrol (R437). -/
def patrolPass (source : Nat) (found : List MemFinding) (s : State) : State :=
  if s.ready && s.flag fUmpCtlEn && s.flag fUmpScrubHbmMin then
    let s := s.bump fUmpPatrolPassesCount 1
    if s.flag fUmpCtlEccEn then patrolFound source found s else s
  else s

/-- HBM_PATROL_PASS (R437). -/
def execHbmPatrolPass (source : Nat) (found : List MemFinding) (s : State) : Host.Outcome State Fault Refusal :=
  .next (patrolPass source found s)

/-! ## Service cores -/

/-- Every instruction that the service core held completes with E_FAULT (R433), and has no effect after it (R17): a waiting authorisation ends. -/
def failHeld (s : State) : State :=
  let ws := s.hif.waits
  let os := s.hif.outst.filter (fun o => !ws.any (fun w => w.tag == o.tag && w.op == o.op))
  let s := { s.setHif (fun h => { h with waits := [] }) with time := { s.time with auth := none } }
  let s := ws.foldl (fun s w => cqWrite w.tag w.op 9 [] s) s
  os.foldl (fun s o => cqWrite o.tag o.op 9 [] s) s

/-- A service core's watchdog or an uncorrectable error restarts it (R433). -/
def svcRestart (s : State) : State :=
  if s.ready && !s.glb.svcDown then
    let (a, s) := (failHeld s).draw
    umpEvent { cls := 1, source := 0, cause := 0x1F, detail := a } { s with glb := { s.glb with svcDown := true } }
  else s

/-- SERVICE_CORE_WATCHDOG (R433). -/
def execServiceCoreWatchdog (s : State) : Host.Outcome State Fault Refusal := .next (svcRestart s)

/-- SERVICE_CORE_RESTART_DONE (R433). -/
def execServiceCoreRestartDone (s : State) : Host.Outcome State Fault Refusal :=
  .next { s with glb := { s.glb with svcDown := false } }

/-! ## FATAL events and THERMTRIP -/

/-- A parity error of a fabric block, or an uncorrectable word of its SRAM, is FATAL (R432, R434). -/
def fabricError (source : Nat) (sram : Bool) (s : State) : State :=
  if s.glb.tripped || decide (0x13 ≤ source) || (sram && !s.flag fUmpCtlEccEn) then s
  else fatalReset (if sram then 0x11 else 0x1E) source s

/-- FABRIC_PARITY_ERROR (R432). -/
def execFabricParityError (source : Nat) (uncorrSram : Bool) (s : State) : Host.Outcome State Fault Refusal :=
  .next (fabricError source uncorrSram s)

/-- THERMTRIP (R432, R442, R501): a FATAL event, after which the device stays in reset until PORST_N. -/
def trip (s : State) : State :=
  if s.glb.tripped then s
  else
    let s := fatalReset 0x2F 1 s
    ({ s with glb := { s.glb with tripped := true } } : State).setFld fAonTripTherm 1

/-- THERMTRIP (R442). -/
def execThermtrip (s : State) : Host.Outcome State Fault Refusal := .next (trip s)

/-! ## AON monitors -/

/-- An alarm of a monitor: its sticky bit and a DEGRADED record (R441). No record is written while the device is held in reset. -/
def alarm (bit cause idx : Nat) (s : State) : State :=
  let s := raiseFld 0x01 (fAonMonStat.bit bit) s
  if s.glb.tripped then s else umpEvent { cls := 2, source := 1, cause := cause, detail := idx } s

/-- One threshold of a temperature sensor: it sets at or above the threshold and clears 2 °C below it (R441). -/
def tempBit (f : Fld) (thr : Nat) (bit cause idx : Nat) (q : Int) (s : State) : State :=
  if (4 * thr : Int) ≤ q then
    if s.flag f then s else alarm bit cause idx (s.setFld f 1)
  else if q ≤ 4 * (thr : Int) - 8 then s.setFld f 0
  else s

/-- Readings of the temperature sensors from sensor `i` (R441). -/
def tempScan : Nat → List Int → State → State
  | _, [], s => s
  | i, q :: t, s =>
    if 32 ≤ i then s
    else
      let s := s.setFld (fAonTmonTemp i) (patternOf 16 q)
      let s := tempBit (fAonTmonWarn i) (s.fld fAonTempThrWarn) 0 0x28 i q s
      tempScan (i + 1) t (tempBit (fAonTmonCrit i) (s.fld fAonTempThrCrit) 1 0x29 i q s)

/-- TEMP_SAMPLE (R441). -/
def execTempSample (quarters : List Int) (s : State) : Host.Outcome State Fault Refusal := .next (tempScan 0 quarters s)

/-- Readings of the voltage monitors from monitor `i`: 4 consecutive samples outside the window alarm (R441). -/
def voltScan : Nat → List Nat → State → State
  | _, [], s => s
  | i, v :: t, s =>
    if 24 ≤ i then s
    else
      let v := min v 4095
      let s := s.setFld (fAonVmonMv i) v
      let out := decide (v < s.fld (fAonVwinLo i)) || decide (s.fld (fAonVwinHi i) < v)
      let n := if out then mapGet 0 i s.ump.voltOut + 1 else 0
      let s := { s with ump := { s.ump with voltOut := if n = 0 then mapErase i s.ump.voltOut else mapInsert i (min n 4) s.ump.voltOut } }
      voltScan (i + 1) t (if n = 4 then alarm 2 0x2A i s else s)

/-- VOLT_SAMPLE (R441). -/
def execVoltSample (mv : List Nat) (s : State) : Host.Outcome State Fault Refusal := .next (voltScan 0 mv s)

/-- Counts of the process monitors from monitor `i`: one that falls below the floor alarms (R441). -/
def procScan : Nat → List Nat → State → State
  | _, [], s => s
  | i, v :: t, s =>
    if 16 ≤ i then s
    else
      let s := s.setFld (fAonPmonCount i) (min v 0xFFFFF)
      let low := decide (v < s.fld fAonPmonFloorCount)
      let was := (mapFind? i s.ump.procLow).isSome
      let s := { s with ump := { s.ump with procLow := if low then mapInsert i () s.ump.procLow else mapErase i s.ump.procLow } }
      procScan (i + 1) t (if low && !was then alarm 3 0x2B i s else s)

/-- PROCESS_SAMPLE (R441). -/
def execProcessSample (counts : List Nat) (s : State) : Host.Outcome State Fault Refusal := .next (procScan 0 counts s)

/-! ## Umpire -/

/-- The held record of a source, core and cause is written 1 ms after its first event (R431). -/
def mergeExpiry (source core cause : Nat) (s : State) : State :=
  match s.ump.held.find? (fun h => h.source == source && h.core == core && h.cause == cause) with
  | none => s
  | some h =>
    let s := advanceSince h.since 25000 s
    let s := { s with ump := { s.ump with held := s.ump.held.filter (· != h) } }
    umpWrite { cls := 0, core := h.core, source := h.source, cause := h.cause, node := h.node, acct := h.acct, detail := h.detail } h.seq h.mtc h.rep s

/-- UMPIRE_MERGE_EXPIRY (R431). -/
def execUmpireMergeExpiry (source core cause : Nat) (s : State) : Host.Outcome State Fault Refusal := .next (mergeExpiry source core cause s)

end Sys2Proof.Machine
end

