-- ==== Sys2Proof/Machine/Kci.lean ====
section
/-!
DEFINITION. Kci.lean: how the device takes a control instruction: fetch, the checks that every instruction passes, its completion and
its waits (R15 to R18, R470 to R476).
-/

namespace Sys2Proof.Machine

/-! ## Error codes (R15) -/

/-- The request took effect. -/
abbrev eOk : Nat := 0
/-- A zero where a nonzero value is needed. -/
abbrev eZero : Nat := 1
/-- A value out of range. -/
abbrev eRange : Nat := 2
/-- The target is busy. -/
abbrev eBusy : Nat := 3
/-- The target is in the wrong state. -/
abbrev eState : Nat := 4
/-- Nothing fits. -/
abbrev eNofit : Nat := 5
/-- No space. -/
abbrev eSpace : Nat := 6
/-- Too late. -/
abbrev eLate : Nat := 7
/-- Version or format. -/
abbrev eVersion : Nat := 8
/-- A fault in execution. -/
abbrev eFault : Nat := 9
/-- Data lost. -/
abbrev eLost : Nat := 10
/-- Not authorised. -/
abbrev eAuth : Nat := 11

/-! ## Checks -/

/-- An operand check: `none` passes. -/
abbrev Check := Option Nat

/-- An operand within bounds, else E_RANGE. -/
def chkRange (x lo hi : Nat) : Check := if lo ≤ x ∧ x ≤ hi then none else some eRange

/-- A condition, else a code. -/
def chk (ok : Bool) (code : Nat) : Check := if ok then none else some code

/-- A nonzero operand, else E_ZERO. -/
def chkZero (x : Nat) : Check := if x = 0 then some eZero else none

/-- The first failure of a list of checks in order (R18). -/
def firstErr : List Check → Check
  | [] => none
  | some e :: _ => some e
  | none :: t => firstErr t

/-- A check of the first two steps of R18, which come before every operand: authorisation, or version and format. -/
def isEarly (c : Check) : Bool := c == some eAuth || c == some eVersion

/-- The order of R18: authorisation and version first, then a reserved FLAGS bit, then the operands, a nonzero byte beyond the last of them after
them all (DEDUCED, assumption 16). -/
def orderedChecks (h : KciHdr) (cs : List Check) : List Check :=
  cs.filter isEarly ++ chk (!h.badFlag) eRange :: (cs ++ [chk (!h.badExtra) eRange])

/-! ## Running an instruction -/

/-- What an instruction did: it completes now with a status and a result in 4-byte words, writes its result at RADDR first (R475), or
waits (R473). -/
inductive KciRes where
  | done (status : Nat) (result : List Nat) (s : State)
  | record (words : List Nat) (s : State)
  | wait (on : WaitOn) (s : State)
  deriving DecidableEq, Repr

/-- A request that fails changes nothing (R17). -/
def kciFail (code : Nat) (s : State) : KciRes := .done code [] s

/-- Success with no result. -/
def kciOk (s : State) : KciRes := .done eOk [] s

/-- The two words of an 8-byte slot (R475). -/
def slot8 (x : Nat) : List Nat := [x % W32, x / W32 % W32]

/-- The 4-byte slot of a signed value. -/
def slotS (x : Int) : Nat := patternOf 32 x

/-- Entries of the completion ring that hold a completion not yet read (R472). -/
def cqLevel (s : State) : Nat :=
  let size := s.fld fHifCqSizeEntries
  if size = 0 then 0 else (s.fld fHifCqHeadIndex + size - s.fld fHifCqTailIndex % size) % size

/-- Whether one more instruction may be outstanding: fewer than 1,024, with room for every completion (R471). -/
def mayFetch (s : State) : Bool :=
  let size := s.fld fHifCqSizeEntries
  decide (s.hif.outst.length < 1024) && decide (cqLevel s + s.hif.outst.length + 1 < size)

/-- Position of an outstanding instruction. -/
def outPos (tag op : Nat) : List KciOut → Option Nat
  | [] => none
  | o :: t => if o.tag = tag ∧ o.op = op then some 0 else (outPos tag op t).map (· + 1)

/-- Instructions start in ring order: each earlier outstanding one has started, and waits (R473). -/
def inOrder (op : Nat) (h : KciHdr) (s : State) : Bool :=
  (s.hif.outst.take ((outPos h.tag op s.hif.outst).getD s.hif.outst.length)).all (fun o => s.hif.waits.any (fun w => w.tag == o.tag && w.op == o.op))

/-- Whether the service cores may start an instruction now: KCI runs, the completion has room, the service core is up (R433), and a
fence has no earlier instruction outstanding (R473). -/
def mayStart (op : Nat) (h : KciHdr) (s : State) : Bool :=
  let p := outPos h.tag op s.hif.outst
  s.ready && s.flag fHifCtlKciEn && !s.glb.svcDown && (p.isSome || mayFetch s) && inOrder op h s &&
    (!h.fence || match p with | some i => i == 0 | none => s.hif.outst.isEmpty)

/-- Gives an instruction its completion or lets it wait (R472, R473). -/
def kciEnd (op : Nat) (h : KciHdr) (key : Option (Nat × Nat)) : KciRes → State
  | .done st r s => kciDone h.tag op key st r s
  | .record ws s => kciDone h.tag op key eOk [4 * ws.length] (s.emit (.result h.raddr ws))
  | .wait on s => kciWait h.tag op key on s

/-- Runs an instruction (R18, R470 to R475): `key` is what it names under R473, `operands` its operand checks in order, and `f` the rest of
its checks and its effect. Before KCI is open only a reserved FLAGS bit is checked (R474). An instruction that cannot start yet leaves everything as
it is. -/
def kci (op : Nat) (h : KciHdr) (key : Option (Nat × Nat)) (operands : State → List Check) (f : State → KciRes) (s : State) : State :=
  if !mayStart op h s then s
  else
    let s := if (outPos h.tag op s.hif.outst).isSome then s
      else s.setHif (fun x => { x with outst := x.outst ++ [⟨h.tag, op, if h.fence then 0x8000 else 0⟩] })
    let r :=
      if !s.hif.isOpen && op != 0x0C01 then kciFail (if h.badFlag then eRange else eState) s
      else match firstErr (orderedChecks h (operands s)) with
        | some e => kciFail e s
        | none => f s
    kciEnd op h key r

/-! ## Fetch -/

/-- Operation codes that KCI 1.0 defines (R476). -/
def opDefined (op : Nat) : Bool :=
  let n := op % 256
  decide (1 ≤ n) && decide (n ≤ match op / 256 with
    | 1 => 3 | 2 => 8 | 3 => 2 | 4 => 5 | 5 => 5 | 6 => 3 | 7 => 3 | 8 => 6 | 9 => 4 | 10 => 3 | 11 => 2 | 12 => 6 | _ => 0)

/-- Bits of FLAGS.OP that an operation defines (R476). -/
def flagsOf (op : Nat) : Nat :=
  if [0x302, 0x402, 0x405, 0x503, 0x505, 0x504, 0x601, 0x805, 0x806, 0xB02, 0xC04].contains op then 1 else 0

/-- Operations whose version check comes before a reserved FLAGS bit (R18): SYS.OPEN, GRAPH.LOAD, GRAPH.RELOAD and CFG.COMMIT. -/
def checksVersion (op : Nat) : Bool := [0xC01, 0x101, 0x103, 0x302].contains op

/-- The device fetches the entry at HIF_KCI_HEAD (R471). An undefined OPCODE, a reserved FLAGS bit that no version check precedes, or an instruction
before SYS.OPEN completes here (R18, R470, R474); any other is outstanding until its own command runs it. -/
def fetchEntry (op flags tag : Nat) (s : State) : State :=
  let head := s.fld fHifKciHeadIndex
  let size := s.fld fHifKciSizeEntries
  if !(s.ready && s.flag fHifCtlKciEn && !s.glb.svcDown) || size == 0 || head == s.fld fHifKciDbIndex || !mayFetch s then s
  else
    let op := op % 65536
    let flags := flags % 65536
    let tag := tag % W32
    let s := s.setFld fHifKciHeadIndex ((head + 1) % size)
    if !opDefined op then kciDone tag op none eVersion [] s
    else
    let bad := flags % 32768 - flags % 32768 % 2 != 0 || decide (flagsOf op < flags % 2)
    if !s.hif.isOpen && op != 0x0C01 then kciDone tag op none (if bad then eRange else eState) [] s
    else if bad && !checksVersion op then kciDone tag op none eRange [] s
    else s.setHif (fun x => { x with outst := x.outst ++ [⟨tag, op, flags⟩] })

/-- KCI_FETCH (R471). -/
def execKciFetch (opcode flags tag : Nat) (s : State) : Host.Outcome State Fault Refusal := .next (fetchEntry opcode flags tag s)

end Sys2Proof.Machine
end

