-- ==== Sys2Proof/Machine/KciOps.lean ====
section
/-!
DEFINITION. KciOps.lean: the host operations on nodes, timers, beat generators, queues and accounts, and SYS.OPEN (R121 to R126, R151, R155,
R160, R189, R474).
-/

namespace Sys2Proof.Machine

/-! ## Keys of R473 -/

/-- A node, as an instruction names it. -/
def keyNode (n : Nat) : Option (Nat × Nat) := some (0, n)
/-- A queue. -/
def keyQueue (q : Nat) : Option (Nat × Nat) := some (1, q)
/-- A flow; `tx` for an egress flow. -/
def keyFlow (tx : Bool) (f : Nat) : Option (Nat × Nat) := some (if tx then 3 else 2, f)
/-- A timer. -/
def keyTimer (t : Nat) : Option (Nat × Nat) := some (4, t)
/-- A link. -/
def keyLink (l : Nat) : Option (Nat × Nat) := some (5, l)
/-- A PACK job. -/
def keyJob (j : Nat) : Option (Nat × Nat) := some (6, j)
/-- A capture point. -/
def keyPoint (p : Nat) : Option (Nat × Nat) := some (7, p)
/-- An account. -/
def keyAccount (a : Nat) : Option (Nat × Nat) := some (8, a)
/-- A staging target: that of a node or a flow is the node or flow itself. -/
def keyTarget (t : Nat) : Option (Nat × Nat) :=
  match t / 2 ^ 28 with
  | 0 => keyNode (t % 2 ^ 28)
  | 1 => keyFlow false (t % 2 ^ 28)
  | 2 => keyFlow true (t % 2 ^ 28)
  | k => some (10 + k, t % 2 ^ 28)

/-! ## SYS.OPEN -/

/-- GLB_ID (R4). -/
def glbId : Nat := 0x71600000 + (if Config.gradeB then 0x2000 else 0x1000) + Config.stepping.toNat * 16

/-- SYS.OPEN (R474). -/
def execSysOpen (h : KciHdr) (major minor : Nat) (s : State) : Host.Outcome State Fault Refusal :=
  .next (kci 0x0C01 h none (fun s => [chk (major == s.fld fHifKciVerMajor && decide (minor ≤ s.fld fHifKciVerMinor)) eVersion]) (fun s =>
    if s.hif.isOpen then kciFail eState s
    else .done eOk [s.fld fHifKciVerMajor, s.fld fHifKciVerMinor, glbId] (s.setHif (fun x => { x with isOpen := true }))) s)

/-! ## Nodes -/

/-- A node that the host may name: one being unloaded already counts as EMPTY. -/
def hostNode (s : State) (n : Nat) : Option NodeD :=
  match s.node? n with
  | some d => if d.unloading then none else some d
  | none => none

/-- A node id, 0 to 262,143 (R130). -/
def chkNode (n : Nat) : Check := chkRange n 0 262143

/-- CTX as NODE.LOAD checks it: the class, the reserved bits, and a region inside the 32 GiB of HBM (R164, R165). -/
def chkCtx (ctx : Nat) : Check :=
  chk (decide (ctx < W64) && decide (ctx % 4 ≠ 3) && decide (ctx / 4 % 4 = 0) && decide (ctx / 2 ^ 26 % 64 = 0) &&
    decide (ctx / 16 % 2 ^ 22 * 0x2000 + 2 * classPages (ctx % 4) * 0x2000 ≤ 2 ^ 35)) eRange

/-- Operand checks of NODE.LOAD, in order (R131, R160, R161). -/
def nodeChecks (o : NodeOp) : List Check :=
  [chkNode o.node, chkZero o.mask, chkRange o.mask 1 65535, chkRange o.mode 0 1, chkRange o.cls 0 3, chkRange o.home 0 15,
   chkRange o.nosteal 0 1, chkRange o.fpol 0 2, chkNode o.alt, chkZero o.budget, chkRange o.budget 1 65535, chkRange o.prog 0 (W32 - 1),
   chkCtx o.ctx, chkRange o.account 0 4095]

/-- The descriptor that NODE.LOAD loads (R131, R160, R164). -/
def loadedNode (o : NodeOp) : NodeD :=
  { set := { mask := o.mask, any := o.mode == 1, cls := o.cls, home := o.home, nosteal := o.nosteal == 1, fpol := o.fpol
             alt := o.alt, budget := o.budget, prog := o.prog }
    ctxClass := o.ctx % 4, ctxBase := o.ctx / 16 % 2 ^ 22, account := o.account }

/-- NODE.LOAD (R160). -/
def execNodeLoad (h : KciHdr) (op : NodeOp) (s : State) : Host.Outcome State Fault Refusal :=
  .next (kci 0x0201 h (keyNode op.node) (fun _ => nodeChecks op) (fun s =>
    if !s.flag fBullCtlEn then kciFail eState s
    else if (s.node? op.node).isSome then kciFail eState s
    else kciOk (s.setNode op.node (loadedNode op))) s)

/-- A node is a beat member or the target of an armed timer (R160). -/
def nodeInUse (s : State) (n : Nat) (d : NodeD) : Bool := d.beatgen.isSome || s.bull.timers.any (fun t => t.2.target == n)

/-- Unloads a DISARMED node, after any write-back (R160, R189, R301). -/
def unloadNode (n : Nat) (d : NodeD) (s : State) : KciRes :=
  let s := dropStage n s
  if d.writeBack.isSome then .wait (.evict n) (s.setNode n { d with evicting := true, unloading := true })
  else kciOk (eraseNode n s)

/-- NODE.UNLOAD (R160). -/
def execNodeUnload (h : KciHdr) (node : Nat) (s : State) : Host.Outcome State Fault Refusal :=
  .next (kci 0x0202 h (keyNode node) (fun _ => [chkNode node]) (fun s =>
    match hostNode s node with
    | some d =>
      if !s.flag fBullCtlEn || decide (d.st ≠ .disarmed) then kciFail eState s
      else if nodeInUse s node d then kciFail eBusy s
      else unloadNode node d s
    | none => kciFail eState s) s)

/-- NODE.ARM (R134, R159, R160). -/
def execNodeArm (h : KciHdr) (node : Nat) (s : State) : Host.Outcome State Fault Refusal :=
  .next (kci 0x0203 h (keyNode node) (fun _ => [chkNode node]) (fun s =>
    if !s.flag fBullCtlEn || (hostNode s node).isNone then kciFail eState s
    else match armNode node s with
      | some s => kciOk s
      | none => kciFail eBusy s) s)

/-- NODE.CANCEL (R134, R160). -/
def execNodeCancel (h : KciHdr) (node : Nat) (s : State) : Host.Outcome State Fault Refusal :=
  .next (kci 0x0204 h (keyNode node) (fun _ => [chkNode node]) (fun s =>
    if !s.flag fBullCtlEn || (hostNode s node).isNone then kciFail eState s
    else kciOk (cancelNode node s)) s)

/-- NODE.POST (R159 to R161); one that reaches an EMPTY node is counted (R134). -/
def execNodePost (h : KciHdr) (node flags : Nat) (s : State) : Host.Outcome State Fault Refusal :=
  .next (kci 0x0205 h (keyNode node) (fun _ => [chkNode node, chkZero flags, chkRange flags 1 0x7FFF]) (fun s =>
    if !s.flag fBullCtlEn then kciFail eState s
    else if (s.node? node).isNone then kciFail eState (voidPost s)
    else if (hostNode s node).isNone then kciFail eState s
    else match postNode node flags s with
      | some s => kciOk s
      | none => kciFail eBusy s) s)

/-- Joins a group at its end, or leaves the group (R150, R160); GEN = 15 is NONE, as BEATGEN codes it (DEDUCED, assumption 17). -/
def joinBeat (n g : Nat) (d : NodeD) (s : State) : KciRes :=
  match d.beatgen with
  | some b =>
    if g = 15 then kciOk ((s.setNode n { d with beatgen := none }).updGen b (fun x => { x with members := x.members.filter (· != n) }))
    else if g = b then kciOk s
    else kciFail eState s
  | none =>
    if g = 15 then kciOk s
    else if 65536 ≤ (s.gen g).members.length then kciFail eSpace s
    else kciOk ((s.setNode n { d with beatgen := some g }).updGen g (fun x => { x with members := x.members ++ [n] }))

/-- NODE.BEAT (R160). -/
def execNodeBeat (h : KciHdr) (node gen : Nat) (s : State) : Host.Outcome State Fault Refusal :=
  .next (kci 0x0206 h (keyNode node) (fun _ => [chkNode node, chk (decide (gen < 8) || gen == 15) eRange]) (fun s =>
    match hostNode s node with
    | some d => if !s.flag fBullCtlEn then kciFail eState s else joinBeat node gen d s
    | none => kciFail eState s) s)

/-- State codes of R133. -/
def stCode (st : NodeSt) : Nat :=
  match st with
  | .disarmed => 1
  | .armed => 2
  | .ready => 3
  | .running => 4
  | .cancelPending => 5
  | .aborting => 6

/-- The 16 words of a descriptor (R131, R164). -/
def descWords (d : NodeD) : List Nat :=
  [d.flags % 65536 + d.set.mask * 65536,
   bitOf d.set.any + d.set.cls * 2 + d.set.home * 8 + bitOf d.set.nosteal * 128 + stCode d.st * 256 + d.set.fpol * 2048 +
     bitOf d.rerun * 8192 + d.beatgen.getD 15 * 16384,
   d.set.alt, d.set.budget, d.set.prog, 0,
   d.ctxClass + d.ctxBase * 16, d.sel + d.gen * 65536,
   d.account, d.overlap + d.aborts * 65536, d.runs,
   d.lastStatus + d.lastCore * 256 + d.late * 65536, d.lastMtc, 0, 0, 0]

/-- The descriptor words of a node; those of an EMPTY node are zero but for BEATGEN (DEDUCED from R131 and R133, assumption 18). -/
def nodeWords (s : State) (n : Nat) : List Nat :=
  match s.node? n with
  | some d => descWords d
  | none => (List.range 16).map (fun i => if i = 1 then 15 * 16384 else 0)

/-- NODE.READ (R160). -/
def execNodeRead (h : KciHdr) (node : Nat) (s : State) : Host.Outcome State Fault Refusal :=
  .next (kci 0x0207 h (keyNode node) (fun _ => [chkNode node]) (fun s =>
    if s.flag fBullCtlEn then .record (nodeWords s node) s else kciFail eState s) s)

/-- NODE.EVICT (R189). -/
def execNodeEvict (h : KciHdr) (node : Nat) (s : State) : Host.Outcome State Fault Refusal :=
  .next (kci 0x0208 h (keyNode node) (fun _ => [chkNode node]) (fun s =>
    match hostNode s node with
    | some d =>
      if d.st ≠ .disarmed then kciFail eState s
      else if d.writeBack.isSome then .wait (.evict node) (s.setNode node { d with evicting := true })
      else kciOk ((invalidate node s).setGh (fun g => { g with pageIns := mapErase node g.pageIns }))
    | none => kciFail eState s) s)

/-! ## Timers and beat generators -/

/-- Operand checks of TIMER.ARM, in order (R155, R160). -/
def timerChecks (o : TimerOp) : List Check :=
  [chkRange o.list 0 15, chkNode o.target, chkRange o.flag 0 14, chkRange o.due 0 (if o.rel then 2 ^ 31 - 2 else W32 - 1),
   chkRange o.dropLate 0 1, chkRange o.report 0 1, chkRange o.tag 0 (W32 - 1)]

/-- TIMER.ARM (R155, R160). -/
def execTimerArm (h : KciHdr) (op : TimerOp) (s : State) : Host.Outcome State Fault Refusal :=
  .next (kci 0x0601 h none (fun _ => timerChecks op) (fun s =>
    if !s.flag fBullCtlEn || (hostNode s op.target).isNone then kciFail eState s
    else
      let due := if op.rel then s.mtc + 1 + op.due else op.due
      match insertTimer op.list op.target op.flag due (op.dropLate == 1) (op.report == 1) op.tag s with
      | (some id, s) => .done eOk [id] s
      | (none, _) => kciFail eSpace s) s)

/-- TIMER.CANCEL (R160). -/
def execTimerCancel (h : KciHdr) (timer : Nat) (s : State) : Host.Outcome State Fault Refusal :=
  .next (kci 0x0602 h (keyTimer timer) (fun _ => [chkRange timer 0 16383]) (fun s =>
    if !s.flag fBullCtlEn || (mapFind? timer s.bull.timers).isNone then kciFail eState s
    else kciOk { s with bull := { s.bull with timers := mapErase timer s.bull.timers } }) s)

/-- Sets a generator (R151). EN = 0 lets a beat whose posting has begun go on, and drops every later one. -/
def setBeat (o : BeatOp) (s : State) : State :=
  let b := s.gen o.gen
  if o.en = 0 then
    let begun := s.bull.poster.head? == some o.gen
    let s : State := if begun then s else { s with bull := { s.bull with poster := s.bull.poster.filter (· != o.gen) } }
    s.updGen o.gen (fun b => { b with
      en := false, q := o.q, flag := o.flag, next := o.start, posting := if begun then b.posting else [], waiting := [], newSet := none, catchUp := none })
  else if b.en then s.updGen o.gen (fun b => { b with newSet := some ⟨o.q, o.flag, o.start⟩ })
  else s.updGen o.gen (fun b => { b with en := true, q := o.q, flag := o.flag, next := firstBoundary o.start o.q s.mtc, catchUp := none, newSet := none })

/-- Operand checks of TIMER.BEAT, in order (R150, R160, R161). -/
def beatChecks (o : BeatOp) : List Check :=
  [chkRange o.gen 0 7, chkRange o.en 0 1, chkZero o.q, chkRange o.q 1 65535, chkRange o.flag 0 14, chkRange o.start 0 (W32 - 1)]

/-- TIMER.BEAT (R151, R160). -/
def execTimerBeat (h : KciHdr) (op : BeatOp) (s : State) : Host.Outcome State Fault Refusal :=
  .next (kci 0x0603 h none (fun _ => beatChecks op) (fun s =>
    if s.flag fBullCtlEn then kciOk (setBeat op s) else kciFail eState s) s)

/-! ## Queues -/

/-- Operand checks of QUEUE.OPEN, in order (R105, R125, R127). -/
def queueChecks (o : QueueOp) : List Check :=
  [chkRange o.queue 0 65535, chkRange o.mode 1 3] ++
  (if o.mode = 3 then [chk (o.depth == 16 || o.depth == 32 || o.depth == 64) eRange, chkRange o.retain 0 0]
   else [chkZero o.depth, chkRange o.depth 1 65535, chkRange o.retain 0 (min 16384 (o.depth - 1))]) ++
  [chkRange o.account 0 4095]

/-- The mode that an operand codes (R128). -/
def modeOf (m : Nat) : QMode := if m = 1 then .fifo else if m = 2 then .ordered else .async

/-- Opens a queue, empty, where the spill region has room (R102, R125). -/
def openQueue (o : QueueOp) (s : State) : KciRes :=
  if (s.queue? o.queue).isSome then kciFail eState s
  else if s.fld fMqSpillSizeMib * 1024 < spillUsed s + spillKib (modeOf o.mode) o.depth o.retain then kciFail eSpace s
  else kciOk (s.setQueue o.queue { mode := modeOf o.mode, depth := o.depth, retain := o.retain, account := o.account })

/-- QUEUE.OPEN (R125). -/
def execQueueOpen (h : KciHdr) (op : QueueOp) (s : State) : Host.Outcome State Fault Refusal :=
  .next (kci 0x0501 h (keyQueue op.queue) (fun _ => queueChecks op) (openQueue op) s)

/-- An open flow names a queue (R125). -/
def flowNames (s : State) (q : Nat) : Bool :=
  s.net.rx.any (fun f => f.2.blk.queue == q) || s.net.tx.any (fun f => f.2.blk.queue == q)

/-- QUEUE.CLOSE (R125). -/
def execQueueClose (h : KciHdr) (queue : Nat) (s : State) : Host.Outcome State Fault Refusal :=
  .next (kci 0x0502 h (keyQueue queue) (fun _ => [chkRange queue 0 65535]) (fun s =>
    if (s.queue? queue).isNone then kciFail eState s
    else if flowNames s queue || pendingOn s queue then kciFail eBusy s
    else let r := closeQueue queue s; .done eOk [r.1] r.2) s)

/-- The checks of QUEUE.MARK and QUEUE.REWIND on a queue, then the effect (R125). -/
def onQueue (queue : Nat) (ok : Queue → Bool) (f : Queue → State → KciRes) (s : State) : KciRes :=
  match s.queue? queue with
  | none => kciFail eState s
  | some x => if !ok x then kciFail eState s else if 0 < pendingPops s queue then kciFail eBusy s else f x s

/-- QUEUE.MARK (R121, R125). -/
def execQueueMark (h : KciHdr) (queue : Nat) (s : State) : Host.Outcome State Fault Refusal :=
  .next (kci 0x0503 h (keyQueue queue) (fun _ => [chkRange queue 0 65535])
    (onQueue queue (fun x => x.retain != 0) (fun _ s => kciOk (placeMark queue s))) s)

/-- QUEUE.MARK with FLAGS.CLEAR (R121, R125). -/
def execQueueMarkClear (h : KciHdr) (queue : Nat) (s : State) : Host.Outcome State Fault Refusal :=
  .next (kci 0x0503 h (keyQueue queue) (fun _ => [chkRange queue 0 65535])
    (onQueue queue (fun x => x.retain != 0) (fun _ s => kciOk (clearMark queue s))) s)

/-- QUEUE.REWIND (R124). The result of E_LOST is KEY, SEQ and NONE, in that order (DEDUCED, assumption 19). -/
def rewind (queue : Nat) (x : Queue) (s : State) : KciRes :=
  match x.markValid, x.retained with
  | true, [] => kciOk s
  | true, _ => kciOk (replayAll queue s)
  | false, [] => .done eLost [0, 0, 1] s
  | false, i :: _ => .done eLost [i.e.key, i.e.seq, 0] s

/-- QUEUE.REWIND (R124, R125). -/
def execQueueRewind (h : KciHdr) (queue : Nat) (s : State) : Host.Outcome State Fault Refusal :=
  .next (kci 0x0504 h (keyQueue queue) (fun _ => [chkRange queue 0 65535]) (onQueue queue (fun x => x.markSet) (rewind queue)) s)

/-- QUEUE.REWIND with FLAGS.FROM_OLDEST (R124, R125). -/
def execQueueRewindFromOldest (h : KciHdr) (queue : Nat) (s : State) : Host.Outcome State Fault Refusal :=
  .next (kci 0x0504 h (keyQueue queue) (fun _ => [chkRange queue 0 65535])
    (onQueue queue (fun x => x.markSet) (fun x s =>
      if x.retained.isEmpty then .done eLost [0, 0, 1] s else kciOk (replayAll queue s))) s)

/-- The QUEUE.STATS record (R126). -/
def queueWords (x : Queue) : List Nat :=
  [x.held.length, x.retained.length, x.n.highWater, x.lastKey, bitOf x.lastValid, bitOf x.markValid, bitOf x.markLost, x.n.pushed, x.n.popped,
   x.n.lost, x.n.reclaim, x.n.late, x.n.dup, x.n.replayed, x.n.restored]

/-- QUEUE.STATS (R125, R126). -/
def execQueueStats (h : KciHdr) (queue : Nat) (clear : Bool) (s : State) : Host.Outcome State Fault Refusal :=
  .next (kci 0x0505 h (keyQueue queue) (fun _ => [chkRange queue 0 65535]) (fun s =>
    match s.queue? queue with
    | none => kciFail eState s
    | some x => .record (queueWords x) (if clear then s.setQueue queue { x with n := { highWater := x.count } } else s)) s)

/-! ## Accounts -/

/-- KIND codes of R180. -/
def kindOf (k : Nat) : AKind :=
  match k with
  | 1 => .node
  | 2 => .queue
  | 3 => .port
  | 4 => .group
  | 5 => .pack
  | _ => .closed

/-- The code of a KIND (R180). -/
def kindCode (k : AKind) : Nat :=
  match k with
  | .closed => 0
  | .node => 1
  | .queue => 2
  | .port => 3
  | .group => 4
  | .pack => 5

/-- Values of ATTACH that name an edge block (R189). -/
def edgeBlock (a : Nat) : Bool :=
  a == 0x40 || a == 0x48 || a == 0x50 || a == 0x58 || (decide (0x60 ≤ a) && decide (a ≤ 0x68)) || a == 0x80 || a == 0x88

/-- The PORT account attached to an edge block (R189). -/
def attached (s : State) (blk : Nat) : Option Nat :=
  (s.seed.accts.find? (fun a => decide (a.2.kind = .port) && a.2.attach == blk)).map (fun a => a.1)

/-- Whether an edge block is enabled (R189). -/
def blockEnabled (s : State) (blk : Nat) : Bool :=
  if blk < 0x60 then s.flag (fNetCtlEn ((blk - 0x40) / 8))
  else if blk < 0x68 then s.flag (fRfpCtlEn (blk - 0x60))
  else if blk = 0x68 then s.flag fMdmCtlEn
  else if blk = 0x80 then s.flag fFlcCtlEn
  else (List.range 4).any (fun n => s.flag (fMadiPpCtlEn n))

/-- Operand checks of SYS.ACCOUNT, in order (R189, R190). -/
def accountChecks (o : AccountOp) : List Check :=
  [chkRange o.account 0 4095, chkRange o.kind 1 5, chkRange o.quota 0 (2 ^ 24)] ++
  (if o.kind = 4 then [chkZero o.releases, chkRange o.releases 1 63] else []) ++
  [chk (if o.kind = 3 then edgeBlock o.attach else o.attach == 0) eRange]

/-- Opens an account, or changes the QUOTA of an open one (R189). -/
def openAccount (o : AccountOp) (s : State) : KciRes :=
  let a := s.acct o.account
  let busy := o.kind == 3 && match attached s o.attach with | some x => x != o.account | none => false
  if a.kind = .closed then
    if busy then kciFail eBusy s
    else
      let x : Account := { kind := kindOf o.kind, quota := o.quota, releases := if o.kind = 4 then o.releases else 0, attach := o.attach }
      kciOk (s.setSeed (fun d => { d with accts := mapInsert o.account x d.accts }))
  else if a.kind ≠ kindOf o.kind then kciFail eState s
  else if busy then kciFail eBusy s
  else kciOk (s.setSeed (fun d => { d with accts := mapInsert o.account { a with quota := o.quota } d.accts }))

/-- SYS.ACCOUNT (R189). -/
def execSysAccount (h : KciHdr) (op : AccountOp) (s : State) : Host.Outcome State Fault Refusal :=
  .next (kci 0x0C02 h (keyAccount op.account) (fun _ => accountChecks op) (openAccount op) s)

/-- A loaded node, an open queue or an enabled attached block names an account (R189). -/
def acctNamed (s : State) (a : Nat) : Bool :=
  s.bull.nodes.any (fun n => n.2.account == a) || s.mq.any (fun q => q.2.account == a) ||
  (decide ((s.acct a).kind = .port) && blockEnabled s (s.acct a).attach)

/-- SYS.ACCOUNT_CLOSE (R189). -/
def execSysAccountClose (h : KciHdr) (account : Nat) (s : State) : Host.Outcome State Fault Refusal :=
  .next (kci 0x0C03 h (keyAccount account) (fun _ => [chkRange account 0 4095]) (fun s =>
    if (s.acct account).kind = .closed then kciFail eState s
    else if 0 < (s.acct account).held ∨ acctNamed s account then kciFail eBusy s
    else kciOk (closeAccount account s)) s)

/-- SYS.ACCOUNT_STATS (R189). PEAK restarts from HELD when it is cleared. -/
def execSysAccountStats (h : KciHdr) (account : Nat) (clear : Bool) (s : State) : Host.Outcome State Fault Refusal :=
  .next (kci 0x0C04 h (keyAccount account) (fun _ => [chkRange account 0 4095]) (fun s =>
    let a := s.acct account
    if a.kind = .closed then kciFail eState s
    else .done eOk [kindCode a.kind, a.quota, a.held, a.peak, a.nocredit, bitOf (decide (a.quota < a.held))]
      (if clear then s.setSeed (fun d => { d with accts := mapInsert account { a with peak := a.held, nocredit := 0 } d.accts }) else s)) s)

end Sys2Proof.Machine
end

