-- ==== Sys2Proof/Machine/Boot.lean ====
section
/-!
DEFINITION. Boot.lean: resets from outside, bring-up, PLL locks, boot images and fuses (R442, R485, R486, R491, R499 to R502).
-/

namespace Sys2Proof.Machine

/-! ## Reach -/

/-- A read or write of a BAR0 block takes effect (R442, R500): GLB and AON are reachable from the end of bring-up step 3, HIF with the PCIe
link from then on, and the other blocks from READY. While THERMTRIP holds the device in reset only AON answers. -/
def reaches (s : State) (a : Nat) : Bool :=
  if s.glb.tripped then decide (0x10000 ≤ a) && decide (a < 0x20000)
  else decide (4 ≤ s.fld fGlbStatStep) && (s.ready || decide (a < 0x20000) || (decide (0x120000 ≤ a) && decide (a < 0x130000)))

/-! ## Resets -/

/-- PORST_N_ASSERT (R41, R442, R499). -/
def execPorstNAssert (bootSel tjBelow110 : Bool) (s : State) : Host.Outcome State Fault Refusal := .next (coldReset bootSel tjBelow110 s)

/-- SYSRST_N (R499); it has no effect while THERMTRIP_N is asserted (R501). -/
def sysReset (bootSel : Bool) (s : State) : State :=
  if s.glb.tripped then s else warmReset .sysrst bootSel { s with glb := { s.glb with bootPin := bootSel } }

/-- SYSRST_N_ASSERT (R499, R501). -/
def execSysrstNAssert (bootSel : Bool) (s : State) : Host.Outcome State Fault Refusal := .next (sysReset bootSel s)

/-- A write of GLB_RST (R499, R503, R506). -/
def glbRstWritten (val : Word) (s : State) : State :=
  if reaches s fGlbRstSys.addr && val.getLsbD 0 then warmReset .glb s.glb.bootPin s else s

/-- GLB_RST_SYS_WRITE (R499, R505). -/
def execGlbRstSysWrite (_path : BusPath) (val : Word) (s : State) : Host.Outcome State Fault Refusal := .next (glbRstWritten val s)

/-- Loss of VDD_AON: nothing is kept but the fuses and the flash (R442). -/
def aonLost (s : State) : State :=
  let s := coldReset s.glb.bootPin true s
  { s with regs := [(0x10004, 1)] }

/-- VDD_AON_REMOVAL (R442). -/
def execVddAonRemoval (s : State) : Host.Outcome State Fault Refusal := .next (aonLost s)

/-! ## Boot images -/

/-- A key slot is revoked (R486). -/
def slotRevoked (s : State) (slot : Nat) : Bool := Config.revoked slot || (mapFind? slot s.glb.revoked).isSome

/-- The checks of R486 on an image, in their order. -/
def imageCheck (s : State) (x : BootImage) : Nat :=
  if x.magic ≠ 0x4B474249 ∨ x.hdrVer ≠ 1 then eVersion
  else if 4 ≤ x.keySlot ∨ x.keyHash ≠ Config.keyHash x.keySlot ∨ slotRevoked s x.keySlot then eAuth
  else if !x.sigOk then eAuth
  else if !x.bodyOk then eAuth
  else if x.rollback < s.glb.rollback then eAuth
  else eOk

/-- An image passes: CODE and a FAIL of 2 clear, SRC says where it came from, and step 6 begins (R486, R500, R502). -/
def bootFrom (pushed : Bool) (x : BootImage) (s : State) : State :=
  let s := s.setFld fHifBootStatCode 0
  let s := s.setFld fHifBootStatSrc (bitOf pushed)
  let s := if s.fld fGlbStatFail = 2 then s.setFld fGlbStatFail 0 else s
  ({ s with glb := { s.glb with push := none, image := some x } } : State).setFld fGlbStatStep 6

/-- An image fails: its code goes into HIF_BOOT_STAT and the device waits for a pushed one (R486, R502). -/
def bootFails (code : Nat) (s : State) : State :=
  let s := s.setFld fHifBootStatCode code
  ({ s with glb := { s.glb with push := none } } : State).setFld fGlbStatStep 7

/-- The end of step 5: the pushed image, or copy 0 and then copy 1 in the NOR, passes or fails (R486, R500, R502). -/
def imageLoaded (copy0 copy1 : BootImage) (s : State) : State :=
  match s.glb.push with
  | some x => if imageCheck s x = eOk then bootFrom true x s else bootFails (imageCheck s x) s
  | none =>
    if imageCheck s copy0 = eOk then bootFrom false copy0 s
    else if imageCheck s copy1 = eOk then bootFrom false copy1 s
    else bootFails (imageCheck s copy1) (if s.fld fGlbStatFail = 3 then s else s.setFld fGlbStatFail 2)

/-- A pushed image goes into authentication in WAIT_PUSH; at any other time GO is ignored (R12, R485, R501, R502). -/
def pushImage (x : BootImage) (s : State) : State :=
  if s.glb.tripped || s.fld fGlbStatStep ≠ 7 then s
  else ({ s with glb := { s.glb with push := some x } } : State).setFld fGlbStatStep 5

/-- HIF_BOOT_PUSH_GO (R485, R502). -/
def execHifBootPushGo (_path : BusPath) (val : Word) (img : BootImage) (s : State) : Host.Outcome State Fault Refusal :=
  .next (if reaches s fHifBootPushGo.addr && val.getLsbD 0 then pushImage img s else s)

/-- The header of an image at HBM address 0 (R485). What its hash and its signature come to the model leaves free. -/
def hbmImage (s : State) : BootImage × State :=
  let le (a n : Nat) : Nat := leNat (memReadList s.hbm a n)
  let slot := le 6 1
  let (a, s) := s.draw
  let (b, s) := s.draw
  let (c, s) := s.draw
  (⟨le 0 4, le 4 2, slot, le 7 1, le 8 4, le 12 4, if a % 2 = 0 then Config.keyHash slot else Config.keyHash slot + 1, b % 2 == 0, c % 2 == 0⟩, s)

/-- A write of HIF_BOOT_PUSH through the register path, with the image that HBM holds. -/
def bootPushWritten (val : Word) (s : State) : State :=
  if val.getLsbD 0 && s.fld fGlbStatStep == 7 then let r := hbmImage s; pushImage r.1 r.2 else s

/-! ## Bring-up -/

/-- Locks of the PLLs whose references are present; the first three run from REFCLK_25M (R491). -/
def pllLocks (refs : Nat) : Nat := 7 + refs % 128 / 8 * 8

/-- The step in progress ends and the next begins (R500, R502). The reference is found within tolerance at the end of the first step that a reset runs
(R504; DESIGN CHOICE, assumption 44). In step 4 HBM training may fail, and the device then stays
there; after the third FATAL restart in a row it stays short of READY (R501). -/
def nextStep (hbmOk : Bool) (refs : Nat) (copy0 copy1 : BootImage) (s : State) : State :=
  match s.fld fGlbStatStep with
  | 1 =>
    let s := s.setFld fAonStatRef25Ok 1
    let s := s.setFld fGlbStatBootSel (bitOf s.glb.bootPin)
    s.setFld fGlbStatStep 2
  | 2 => (s.setFld fAonStatRef25Ok 1).setFld fGlbStatStep 3
  | 3 =>
    let s : State := { s with glb := { s.glb with refs := refs } }
    (s.setFld fGlbPllStatLock (pllLocks refs)).setFld fGlbStatStep 4
  | 4 =>
    if s.fld fGlbStatFail = 1 then s
    else if !hbmOk then s.setFld fGlbStatFail 1
    else s.setFld fGlbStatStep (if s.flag fGlbStatBootSel then 7 else 5)
  | 5 => imageLoaded copy0 copy1 s
  | 6 =>
    if s.ready || s.fld fGlbStatFail == 3 then s
    else
      let s := s.setFld fHifBootStatDone 1
      let s : State := { s with glb := { s.glb with restarts := 0 } }
      s.setFld fGlbStatReady 1
  | _ => s

/-- A step of the bring-up ends; in THERMTRIP nothing goes on (R442, R501). -/
def bringup (hbmOk : Bool) (refs : Nat) (copy0 copy1 : BootImage) (s : State) : State :=
  if s.glb.tripped then s else nextStep hbmOk refs copy0 copy1 s

/-- BRINGUP_STEP_COMPLETE (R500). -/
def execBringupStepComplete (hbmOk : Bool) (refs : Nat) (copy0 copy1 : BootImage) (s : State) : Host.Outcome State Fault Refusal :=
  .next (bringup hbmOk refs copy0 copy1 s)

/-- A PLL locks on a reference that has appeared (R491). -/
def pllLocked (pll : Nat) (s : State) : State :=
  if s.glb.tripped || decide (s.fld fGlbStatStep < 3) || decide (7 ≤ pll) then s
  else ({ s with glb := { s.glb with refs := s.glb.refs ||| 2 ^ pll } } : State).setFld (fGlbPllStatLock.bit pll) 1

/-- PLL_LOCK (R491). -/
def execPllLock (pll : Nat) (s : State) : Host.Outcome State Fault Refusal := .next (pllLocked pll s)

/-! ## Fuses -/

/-- SYS.FUSE_ROLLBACK (R486). -/
def execSysFuseRollback (h : KciHdr) (s : State) : Host.Outcome State Fault Refusal :=
  .next (kci 0x0C05 h none (fun _ => []) (fun s =>
    match s.glb.image with
    | some x => if x.rollback ≤ s.glb.rollback then kciFail eState s else kciOk { s with glb := { s.glb with rollback := x.rollback } }
    | none => kciFail eState s) s)

/-- SYS.FUSE_REVOKE (R486). -/
def execSysFuseRevoke (h : KciHdr) (slot : Nat) (s : State) : Host.Outcome State Fault Refusal :=
  .next (kci 0x0C06 h none (fun _ => [chkRange slot 0 3]) (fun s =>
    if (s.glb.image.map (fun x => x.keySlot)) = some slot then kciFail eState s
    else kciOk { s with glb := { s.glb with revoked := mapInsert slot () s.glb.revoked } }) s)

end Sys2Proof.Machine
end

