-- ==== Sys2Proof/Machine/Net.lean ====
section
/-!
DEFINITION. Net.lean: the Ethernet ports: classification, ingress and egress flows, and the host operations on them (R70 to R98, R523).
-/

namespace Sys2Proof.Machine

/-! ## Ports -/

/-- A port. -/
def State.port (s : State) (p : Nat) : PortSt := mapGet {} p s.net.ports

/-- Changes the Ethernet ports and flows. -/
def State.setNet (s : State) (f : NetSt → NetSt) : State := { s with net := f s.net }

/-- Changes a port. -/
def State.updPort (s : State) (p : Nat) (f : PortSt → PortSt) : State := s.setNet (fun n => { n with ports := mapUpd {} p f n.ports })

/-- Changes an open ingress flow. -/
def State.updRx (s : State) (f : Nat) (g : RxFlow → RxFlow) : State :=
  match mapFind? f s.net.rx with
  | some x => s.setNet (fun n => { n with rx := mapInsert f (g x) n.rx })
  | none => s

/-- Changes an open egress flow. -/
def State.updTx (s : State) (f : Nat) (g : TxFlow → TxFlow) : State :=
  match mapFind? f s.net.tx with
  | some x => s.setNet (fun n => { n with tx := mapInsert f (g x) n.tx })
  | none => s

/-- A port holds an address of an IP version (R72). -/
def holdsVer (a : PortAddr) (ipv6 : Bool) : Bool := if ipv6 then a.v6 else a.v4

/-- A port is enabled and its link is up. -/
def linkUp (s : State) (p : Nat) : Bool := s.flag (fNetCtlEn p) && s.flag (fNetStatLink p)

/-- PTP runs on a port (R48, R63). -/
def ptpRuns (s : State) (p : Nat) : Bool := svcUp s && s.time.cfg.ports.testBit p

/-- A link goes down (R92, R97). -/
def linkDown (p : Nat) (s : State) : State :=
  if s.flag (fNetStatLink p) then
    let s := s.setFld (fNetStatLink p) 0
    let s := s.setFld (fNetStatAnDone p) 0
    let s := s.setFld (fNetStatFecLock p) 0
    raiseFld (8 + p) (fNetStatLinkLost p) (s.setFld (fNetStatHiSer p) 0)
  else s

/-- A link changes (R70, R97): auto-negotiation belongs to 100GBASE-KR4 alone. -/
def linkChange (p : Nat) (up hiSer : Bool) (s : State) : State :=
  if decide (p < 4) && s.flag (fNetCtlEn p) then
    if up then
      let s := s.setFld (fNetStatLink p) 1
      let s := s.setFld (fNetStatAnDone p) (bitOf (s.flag (fNetCtlAnEn p) && s.fld (fNetCtlPhy p) == 0))
      (s.setFld (fNetStatFecLock p) 1).setFld (fNetStatHiSer p) (bitOf hiSer)
    else linkDown p s
  else s

/-- ETHERNET_LINK_CHANGE (R92). -/
def execEthernetLinkChange (port : Nat) (up hiSer : Bool) (s : State) : Host.Outcome State Fault Refusal := .next (linkChange port up hiSer s)

/-! ## Receive classification -/

/-- A multicast address of an IP version. -/
def isGroup (ipv6 : Bool) (a : Nat) : Bool := if ipv6 then a / 2 ^ 120 == 0xFF else a / 2 ^ 28 == 0xE

/-- The keys of the open ingress flows that are bound to a port and usable there: flow, path B and key (R71, R72). -/
def portKeys (s : State) (p : Nat) : List (Nat × Bool × FlowKey) :=
  (s.net.rx.flatMap (fun f => [(f.1, false, f.2.blk.keyA), (f.1, true, f.2.blk.keyB)])).filter (fun k =>
    k.2.2.present && k.2.2.port == p)

/-- A frame meets a key, its source apart (R73 step 4). -/
def meetsKey (f : Frame) (k : FlowKey) : Bool :=
  k.ipv6 == f.ipv6 && k.dst == f.dst && k.dport == f.dport &&
    match f.tci with
    | some t => !k.untagged && k.vlan == t % 4096
    | none => k.untagged

/-- The key that a frame matches: one with its source address before one without (R73, R77). -/
def matchKey (s : State) (p : Nat) (f : Frame) : Option (Nat × Bool) :=
  let ks := (portKeys s p).filter (fun k => meetsKey f k.2.2 && holdsVer (s.port p).addr k.2.2.ipv6)
  match ks.find? (fun k => !k.2.2.srcAny && k.2.2.src == f.src) with
  | some k => some (k.1, k.2.1)
  | none => (ks.find? (fun k => k.2.2.srcAny)).map (fun k => (k.1, k.2.1))

/-- The PTP groups of IEEE 1588-2019 over UDP, and the SAP groups (their addresses are PRESUMED, assumption 20). -/
def wellKnown (ptp : Bool) (ipv6 : Bool) (a : Nat) : Bool :=
  if ipv6 then
    let low := a % 2 ^ 112
    a / 2 ^ 120 == 0xFF && a / 2 ^ 112 % 256 < 16 && (if ptp then low == 0x181 || (low == 0x6B && a / 2 ^ 112 == 0xFF02) else low == 0x27FFE)
  else if ptp then a == 0xE0000181 || a == 0xE000006B
  else a == 0xE0027FFE || a == 0xEFFFFFFF

/-- The groups that the service cores have joined on a port (R523). -/
def joined (s : State) (p : Nat) (ipv6 : Bool) (a : Nat) : Bool :=
  (portKeys s p).any (fun k => k.2.2.ipv6 == ipv6 && k.2.2.dst == a) || (ptpRuns s p && wellKnown true ipv6 a) || wellKnown false ipv6 a ||
  (if ipv6 then a == 0xFF02 * 2 ^ 112 + 1 || ((s.port p).addr.v6 && a == 0xFF02 * 2 ^ 112 + 0x1FF000000 + (s.port p).addr.ip6 % 2 ^ 24)
   else a == 0xE0000001)

/-- MAC address of a port (R97). -/
def portMac (p : Nat) : Nat := (Config.macAddr p).toNat

/-- An IP packet sent to the port itself; one sent to a multicast group is not, whatever its MAC address (R523). -/
def toPort (p : Nat) (f : Frame) : Bool := f.dstMac == portMac p && !isGroup f.ipv6 f.dst

/-- RTCP of an open flow, judged by addresses and UDP ports alone (R523). -/
def isRtcp (s : State) (p : Nat) (f : Frame) : Bool :=
  (toPort p f || (portKeys s p).any (fun k => k.2.2.ipv6 == f.ipv6 && k.2.2.dst == f.dst)) &&
  ((portKeys s p).any (fun k => k.2.2.dport + 1 == f.dport) ||
   s.net.tx.any (fun t => [t.2.blk.pathA, t.2.blk.pathB].any (fun x => x.present && x.port == p && x.sport + 1 == f.dport)))

/-- Step 5 of R73: what goes to the service cores. -/
def forService (s : State) (p : Nat) (f : Frame) : Bool :=
  let here := toPort p f || (isGroup f.ipv6 f.dst && joined s p f.ipv6 f.dst)
  match f.kind with
  | .arp => f.dstMac == portMac p || f.dstMac == 2 ^ 48 - 1
  | .neighbour => here
  | .icmp => here
  | .icmpv6 => here
  | .igmp => here
  | .mld => here
  | .udp =>
    isRtcp s p f || (here && (f.dport == s.fld fHifWlPortPort || match f.carries with
      | .ptp => true
      | .ptpMgmt => true
      | .sap => true
      | _ => false))
  | .other => false

/-! ## Ingress -/

/-- The payload of an RTP packet: a header extension is skipped and padding removed, as RFC 3550 lays them out; a packet too short for what its header says
has no payload, so it fails the length check of R76 (PRESUMED, assumption 48). -/
def rtpPayload (r : Rtp) : List Byte :=
  let b := if r.ext then (if r.body.length < 4 then [] else r.body.drop (4 + 4 * beNat ((r.body.drop 2).take 2))) else r.body
  if r.pad then
    match b.getLast? with
    | some n => if n.toNat = 0 ∨ b.length < n.toNat then [] else b.take (b.length - n.toNat)
    | none => []
  else b

/-- Payload bytes of a PCM or AM824 packet (R78). -/
def payloadLen (mode format channels rate ptime : Nat) : Nat :=
  if mode = 0 then channels * (ptime * rate / 48000) * (if format = 0 then 2 else 3) else 2 * channels * ptime * 4

/-- The checks of R76. -/
def mediaOk (b : RxBlock) (f : Frame) : Bool :=
  let ip := if f.ipv6 then !f.extHdr else f.hdrCsumOk && f.ihl == 5 && !f.frag
  let sum := match f.udpCsum with | .zero => !f.ipv6 | .correct => true | .wrong => false
  let n := (rtpPayload f.rtp).length
  ip && sum && f.rtp.version == 2 && f.rtp.cc == 0 && f.rtp.pt == b.pt &&
    (if b.mode = 2 then decide (1 ≤ n) && decide (n ≤ 1440) else n == payloadLen b.mode b.format b.channels b.rate b.ptime)

/-- The queue key of a packet and its HALF bit (R46, R79). Of two ticks that lie exactly 2^30 from MTC on either side, which R46 does not decide, it
takes the lower candidate (DESIGN CHOICE, assumption 40). -/
def rtpKey (b : RxBlock) (ts mtc : Nat) : Nat × Bool :=
  let u := (ts % W32 + W32 - b.offset % W32) % W32
  if b.rate = 8000 then (6 * u % W32, false)
  else if b.rate = 16000 then (3 * u % W32, false)
  else if b.rate = 96000 then
    let k := u / 2
    (if (tickDiff k mtc).natAbs ≤ (tickDiff (k + 2 ^ 31) mtc).natAbs then k else k + 2 ^ 31, u % 2 == 1)
  else (u, false)

/-- A path of an ingress flow. -/
def RxFlow.path (x : RxFlow) (pathB : Bool) : RxPath := if pathB then x.b else x.a

/-- Changes a path of an ingress flow. -/
def RxFlow.updPath (x : RxFlow) (pathB : Bool) (g : RxPath → RxPath) : RxFlow :=
  if pathB then { x with b := g x.b } else { x with a := g x.a }

/-- SKEW_LIMIT in ns (R84). -/
def limitNs (x : RxFlow) : Nat := x.blk.skewLimit * 62500 / 3

/-- Skew sampling of an accepted copy (R84): a sample where its partner has come, else the copy waits. -/
def skewSample (x : RxFlow) (pathB : Bool) (seq time clk : Nat) : RxFlow :=
  if x.blk.skewLimit = 0 || !x.blk.keyA.present || !x.blk.keyB.present || seq % 16 != 0 then x
  else match x.pend.find? (fun p => p.seq == seq) with
    | none => { x with pend := x.pend ++ [⟨seq, pathB, time, clk⟩] }
    | some p =>
      if p.pathB = pathB then x
      else
        let d : Int := if pathB then (time : Int) - p.time else (p.time : Int) - time
        let ns := clampS 32 (d / 65536)
        { x with
          pend := x.pend.filter (· != p), last := ns, peak := max x.peak ns.natAbs
          exceed := if limitNs x < ns.natAbs then (x.exceed + 1) % W32 else x.exceed }

/-- A packet arrives on its path and enters the media FIFO, or finds it full (R74, R82 to R84, R86). -/
def acceptMedia (p : Nat) (fl : Nat) (pathB : Bool) (x : RxFlow) (f : Frame) (s : State) : State :=
  if 262144 < (((s.port p).fifo).map (fun m => m.bytes)).foldl (· + ·) 0 + f.bytes then s.bump (fNetRxFifoDropCount p) 1
  else
    let time := s.time.t / 2 ^ 32
    let k := rtpKey x.blk f.rtp.ts s.mtc
    let pk : MediaPkt := { bytes := f.bytes, flow := fl, pathB := pathB, queue := x.blk.queue, key := k.1, half := k.2, rtp := f.rtp
                           tci := f.tci, dscp := f.dscp, time := time }
    let y := x.updPath pathB (fun a => { a with
      up := true, last := s.tick, rx := (a.rx + 1) % W32, ssrc := some f.rtp.ssrc
      ssrcChange := match a.ssrc with | some c => if c = f.rtp.ssrc then a.ssrcChange else (a.ssrcChange + 1) % W32 | none => a.ssrcChange })
    let y := skewSample y pathB f.rtp.seq time s.clk
    (s.updRx fl (fun _ => y)).updPort p (fun q => { q with fifo := q.fifo ++ [pk] })

/-- A port receives an Ethernet frame and classifies it by the first step that it meets (R73). -/
def netReceive (p : Nat) (f : Frame) (s : State) : State :=
  if !(decide (p < 4) && linkUp s p) then s
  else
    let s := pmuEvent (260 + p) 0x501 1 (s.bump (fNetRxFramesCount p) 1)
    let s := (s.bump (fNetFecCorrCount p) f.fecCorr).bump (fNetFecUncorrCount p) f.fecUncorr
    if !f.fcsOk || f.fecUncorr != 0 then s.bump (fNetRxCrcCount p) 1
    else if f.bytes < 64 ∨ 1522 < f.bytes then s.bump (fNetRxSizeCount p) 1
    else if f.macCtl then s.bump (fNetRxPauseCount p) 1
    else
      match (if f.kind = .udp then matchKey s p f else none) with
      | some (fl, pathB) =>
        match mapFind? fl s.net.rx with
        | none => s
        | some x =>
          if mediaOk x.blk f then acceptMedia p fl pathB x f s
          else (s.updRx fl (fun x => x.updPath pathB (fun a => { a with format := (a.format + 1) % W32 }))).bump (fNetRxFormatCount p) 1
      | none =>
        if forService s p f then
          if 65536 < (((s.port p).svc).map (fun g => g.bytes)).foldl (· + ·) 0 + f.bytes then s.bump (fNetSvcDropCount p) 1
          else s.updPort p (fun q => { q with svc := q.svc ++ [f] })
        else s.bump (fNetRxNomatchCount p) 1

/-- ETHERNET_FRAME_RECEIVE (R73). In PCS loopback nothing comes in from the line (R97; PRESUMED from IEEE 802.3, assumption 49). -/
def execEthernetFrameReceive (port : Nat) (frame : Frame) (s : State) : Host.Outcome State Fault Refusal :=
  .next (if s.flag (fNetCtlLoop port) then s else netReceive port frame s)

/-- A frame that a port has sent comes back to it in PCS loopback (R97). -/
def loopBack (p : Nat) (f : Frame) (s : State) : State := if s.flag (fNetCtlLoop p) then netReceive p f s else s

/-- The service cores take the oldest packet of a port's service FIFO (R47, R73); a PTP management message is discarded and counted. -/
def serviceTake (p : Nat) (s : State) : State :=
  if s.glb.svcDown then s
  else match (s.port p).svc with
    | [] => s
    | f :: t =>
      let s := s.updPort p (fun q => { q with svc := t })
      if f.kind = .udp ∧ f.carries = .ptpMgmt then { s with time := { s.time with mgmtLost := s.time.mgmtLost + 1 } } else s

/-- SERVICE_FIFO_PACKET (R73). -/
def execServiceFifoPacket (port : Nat) (s : State) : Host.Outcome State Fault Refusal := .next (serviceTake port s)

/-- The receive descriptor (R62, R81). `time` is in units of 2^-16 ns. -/
def rxDescriptor (p : Nat) (m : MediaPkt) : List Byte :=
  let frac := m.time % 65536
  let ns := m.time / 65536 % 1000000000
  let sec := m.time / (65536 * 1000000000)
  leBytes 4 (m.flow + bitOf m.pathB * 2 ^ 16 + p * 2 ^ 17 + bitOf m.half * 2 ^ 20 + bitOf m.rtp.marker * 2 ^ 21 + bitOf m.tci.isSome * 2 ^ 22) ++
  leBytes 4 m.rtp.ts ++ leBytes 4 m.rtp.ssrc ++ leBytes 4 (m.rtp.seq % 65536 + (rtpPayload m.rtp).length * 65536) ++
  leBytes 4 (frac + sec / W32 % 65536 * 65536) ++ leBytes 4 ns ++ leBytes 4 (sec % W32) ++
  leBytes 4 (m.tci.getD 0 % 65536 + m.dscp % 64 * 65536)

/-- Granules that hold a number of bytes (R178). -/
def granulesFor (n : Nat) : Nat := (n + 255) / 256

/-- The head packet of a media FIFO takes its buffer and is pushed, or goes on waiting for credit, space or an account; a wait counts once
as a refused allocation (R74, R80; DEDUCED, assumption 21). A packet whose queue has been closed since cannot be delivered: it is dropped and counted in
RX_NOMATCH, where R94 counts a packet that comes too late for its flow (DESIGN CHOICE, assumption 47). -/
def admitHead (p : Nat) (s : State) : State :=
  match (s.port p).fifo with
  | [] => s
  | m :: t =>
    let n := granulesFor (32 + (rtpPayload m.rtp).length)
    match attached s (0x40 + 8 * p) with
    | none => s
    | some a =>
      let fits := decide ((s.acct a).held + n ≤ (s.acct a).quota) && decide (n ≤ s.seed.freeA)
      if (s.queue? m.queue).isNone then (s.updPort p (fun q => { q with fifo := t })).bump (fNetRxNomatchCount p) 1
      else if !fits && m.refused then s
      else match seedAlloc a n .owned s with
        | (.ok h, s) =>
          let s := bufWrite h 32 (rtpPayload m.rtp) (bufWrite h 0 (rxDescriptor p m) s)
          let s := s.updPort p (fun q => { q with fifo := t })
          mqPush m.queue { handle := h, len := (rtpPayload m.rtp).length, seq := m.rtp.seq % 65536, key := m.key } s
        | (_, s) => s.updPort p (fun q => { q with fifo := { m with refused := true } :: t })

/-- MEDIA_PACKET_ADMIT (R80). -/
def execMediaPacketAdmit (port : Nat) (s : State) : Host.Outcome State Fault Refusal := .next (admitHead port s)

/-- HIF appends a flow event (R469). -/
def flowEvent (fl : Nat) (pathB : Bool) (s : State) : State :=
  if 64 ≤ s.hif.flowEv.length then raiseFld 0x12 (fHifIntStat.bit 3) (s.bump fHifFlowevLostCount 1)
  else raiseFld 0x12 (fHifIntStat.bit 2) (s.setHif (fun h => { h with flowEv := h.flowEv ++ [(fl, pathB)] }))

/-- A path goes DOWN when its next packet is later than NET_PATH_TO ticks (R83). -/
def pathDown (fl : Nat) (pathB : Bool) (s : State) : State :=
  match mapFind? fl s.net.rx with
  | none => s
  | some x =>
    let k := if pathB then x.blk.keyB else x.blk.keyA
    if (x.path pathB).up then
      let s := advanceTo (timeOfTick ((x.path pathB).last + s.fld (fNetPathToTicks k.port) + 1)) s
      flowEvent fl pathB (s.updRx fl (fun x => x.updPath pathB (fun a => { a with up := false, down := (a.down + 1) % W32 })))
    else s

/-- PATH_TIMEOUT (R83). -/
def execPathTimeout (flow : Nat) (pathB : Bool) (s : State) : Host.Outcome State Fault Refusal := .next (pathDown flow pathB s)

/-- A sampled copy's partner has not come within LIMIT_NS (R84). -/
def skewMiss (fl : Nat) (pathB : Bool) (seq : Nat) (s : State) : State :=
  match mapFind? fl s.net.rx with
  | none => s
  | some x =>
    match x.pend.find? (fun p => p.seq == seq && p.pathB == pathB) with
    | none => s
    | some p =>
      let s := advanceSince p.at_ (nsCycles (limitNs x)) s
      s.updRx fl (fun x => { x with pend := x.pend.filter (· != p), miss := (x.miss + 1) % W32 })

/-- SKEW_PARTNER_TIMEOUT (R84). -/
def execSkewPartnerTimeout (flow : Nat) (pathB : Bool) (seq : Nat) (s : State) : Host.Outcome State Fault Refusal :=
  .next (skewMiss flow pathB seq s)

/-! ## Egress -/

/-- A pop by a port, plain or with bound K (R92, R110, R119, R122): the buffer passes to the port's account, where it has one. -/
def portPop (q : Nat) (bound : Option Nat) (acct : Option Nat) (s : State) : Option (Item × Bool) × State :=
  let loan := match s.queue? q with | some x => x.markSet | none => false
  match mqTake q bound s with
  | (.item i, s) =>
    let s := countPop q s
    let s := match s.queue? q with
      | some x => s.setQueue q (x.freeSlot s.clk)
      | none => s
    if loan then (some (i, true), retainItem q i s)
    else if i.e.nobuf then (some (i, false), s)
    else match acct with
      | some a => (some (i, false), seedMove i.e.handle a s)
      | none => (some (i, false), s)
  | (_, s) => (none, s)

/-- Frees the buffer of an entry, or only ends its loan (R92, R122). -/
def releaseEntry (e : Entry) (loan : Bool) (s : State) : State := if loan || e.nobuf then s else seedFree e.handle s

/-- The instant D of a copy (R90). -/
def copyDue (c : Copy) : Nat := timeOfTick c.tick + c.blk.txOffset * nsUnit

/-- A path of an egress flow. -/
def txPath (b : TxBlock) (pathB : Bool) : FlowPath := if pathB then b.pathB else b.pathA

/-- Judges one copy of an entry taken at lateness L (R90). -/
def judgeCopy (c : Copy) (late : Int) (s : State) : Bool × State :=
  let p := (txPath c.blk c.pathB).port
  if (s.fld (fNetEgrGraceTicks p) : Int) < late then (false, s.bump (fNetTxStaleCount p) 1)
  else
    let s := if 1 ≤ late then s.bump (fNetTxLateCount p) 1 else s
    (true, s.updPort p (fun q => { q with copies := q.copies ++ [c] }))

/-- The copies of an entry its port has taken: one for each path the entry asks for and the flow has, each judged, and the buffer freed
where none is kept (R88, R89, R92). -/
def egressCopies (fl : Nat) (x : TxFlow) (i : Item) (loan : Bool) (e late : Int) (s : State) : State :=
  let w0 := (bufWord s i.e.handle 0).toNat
  let w1 := bufWord s i.e.handle 4
  let ts := ((nearTick s w0 * x.blk.rate / 48000 + x.blk.offset) % W32).toNat
  let mk (pathB : Bool) : Copy :=
    { flow := fl, pathB := pathB, blk := x.blk, tick := e.toNat, seq := x.seq, ts := ts, marker := w1.getLsbD 17
      tsReq := w1.getLsbD 16, tsId := bits w1 0 16, handle := i.e.handle, len := i.e.len, loan := loan }
  let ra := if w1.getLsbD 18 && x.blk.pathA.present then judgeCopy (mk false) late s else (false, s)
  let rb := if w1.getLsbD 19 && x.blk.pathB.present then judgeCopy (mk true) late ra.2 else (false, ra.2)
  if ra.1 || rb.1 then rb.2 else releaseEntry i.e loan rb.2

/-- The port pops an egress flow's queue with K = MTC + 2 and makes the copies of the entry it gets (R88 to R90, R92, R110); an empty queue answers EMPTY,
which moves LAST_KEY (R111). -/
def egressPop (fl : Nat) (x : TxFlow) (s : State) : State :=
  let ap := if x.blk.pathA.present then x.blk.pathA.port else x.blk.pathB.port
  match portPop x.blk.queue (some ((s.mtc + 2) % W32)) (attached s (0x40 + 8 * ap)) s with
  | (none, s) => s
  | (some (i, loan), s) =>
    let e := nearTick s i.e.key
    let late := (s.tick : Int) - e
    let s := s.updTx fl (fun x => { x with seq := (x.seq + 1) % 65536 })
    if i.e.nobuf then s else egressCopies fl x i loan e late s

/-- The port takes the head entry of an egress flow's queue, 2 ticks or less before E (R88 to R90, R92); the command waits for that instant. -/
def egressTake (fl : Nat) (s : State) : State :=
  match mapFind? fl s.net.tx with
  | none => s
  | some x =>
    egressPop fl x (match (s.queue? x.blk.queue).bind (fun q => q.held.head?) with
      | none => s
      | some i0 => advanceTo (timeOfTick ((nearTick s i0.e.key).toNat - 2)) s)

/-- EGRESS_TAKE (R90). -/
def execEgressTake (flow : Nat) (s : State) : Host.Outcome State Fault Refusal := .next (egressTake flow s)

/-- Order in which copies leave a port: D, then egress flow id, then path (R91). -/
def copyBefore (a b : Copy) : Bool :=
  decide (copyDue a < copyDue b) || (copyDue a == copyDue b && (decide (a.flow < b.flow) || (a.flow == b.flow && !a.pathB && b.pathB)))

/-- Appends a transmit timestamp, or discards and counts it where the queue is full (R63, R64). -/
def txStamp (p id : Nat) (s : State) : State :=
  let q := mapGet ({} : TsQueue) p s.time.tsq
  if 64 ≤ q.entries.length then (s.bump (fTimeTsqLostCount p) 1).setFld (fTimeTsqStatOvf p) 1
  else { s with time := { s.time with tsq := mapInsert p { q with entries := q.entries ++ [⟨id, s.time.t / 2 ^ 32⟩] } s.time.tsq } }

/-! ### Headers of a copy (R87, R89) -/

/-- The ones' complement sum of big-endian 16-bit words, the last one padded with 0. -/
def sum16 : List Byte → Nat
  | [] => 0
  | [a] => a.toNat * 256
  | a :: b :: t => a.toNat * 256 + b.toNat + sum16 t

/-- The Internet checksum. -/
def csum16 (bs : List Byte) : Nat :=
  let n := sum16 bs
  65535 - (if n = 0 then 0 else (n - 1) % 65535 + 1)

/-- The MAC address that a packet is sent to: the group address of a multicast destination, and for a unicast one that which the service cores have
resolved. -/
def dstMacOf (p : Nat) (ipv6 : Bool) (dst : Nat) : Nat :=
  if isGroup ipv6 dst then (if ipv6 then 0x3333 * 2 ^ 32 + dst % 2 ^ 32 else 0x01005E000000 + dst % 2 ^ 23)
  else (Config.neighbourMac p dst).toNat

/-- The RTP header of a copy: version 2, no padding, no extension, no contributing source (R89). -/
def rtpHeader (c : Copy) : List Byte :=
  beBytes 1 0x80 ++ beBytes 1 (128 * bitOf c.marker + c.blk.pt % 128) ++ beBytes 2 c.seq ++ beBytes 4 c.ts ++ beBytes 4 c.blk.ssrc

/-- The UDP datagram of a copy from address `src`. An IPv6 packet always carries a checksum, an IPv4 one where UDP_CSUM = 1 (R87). -/
def udpDatagram (c : Copy) (path : FlowPath) (src : Nat) (data : List Byte) : List Byte :=
  let n := 8 + data.length
  let a := if path.ipv6 then 16 else 4
  let ports := beBytes 2 path.sport ++ beBytes 2 path.dport ++ beBytes 2 n
  let x := csum16 (beBytes a src ++ beBytes a path.dst ++ beBytes 2 17 ++ beBytes 2 n ++ ports ++ data)
  let sum := if path.ipv6 || c.blk.udpCsum == 1 then (if x = 0 then 65535 else x) else 0
  ports ++ beBytes 2 sum ++ data

/-- The IP packet of a copy. The IPv4 identification and its don't-fragment bit, and the IPv6 flow label, the spec does not give: `f` is free. -/
def ipPacket (path : FlowPath) (src f : Nat) (udp : List Byte) : List Byte :=
  if path.ipv6 then
    beBytes 4 (6 * 2 ^ 28 + path.dscp % 64 * 2 ^ 22 + f % 2 ^ 20) ++ beBytes 2 udp.length ++ beBytes 1 17 ++ beBytes 1 path.ttl ++
    beBytes 16 src ++ beBytes 16 path.dst ++ udp
  else
    let h (sum : Nat) : List Byte :=
      beBytes 1 0x45 ++ beBytes 1 (path.dscp % 64 * 4) ++ beBytes 2 (20 + udp.length) ++ beBytes 2 (f % 65536) ++
      beBytes 2 (f / 65536 % 2 * 0x4000) ++ beBytes 1 path.ttl ++ beBytes 1 17 ++ beBytes 2 sum ++ beBytes 4 src ++ beBytes 4 path.dst
    h (csum16 (h 0)) ++ udp

/-- The 802.1Q tag control information of a path: PCP, and VLAN id. -/
def pathTci (path : FlowPath) : Nat := path.pcp % 8 * 2 ^ 13 + path.vlan % 4096

/-- The Ethernet frame of a copy, from its destination address to the last byte before the FCS (R87, R89); a short one is padded with zeros to 60 bytes
(PRESUMED from IEEE 802.3, assumption 49). -/
def copyFrame (p : Nat) (c : Copy) (src f : Nat) (payload : List Byte) : List Byte :=
  let path := txPath c.blk c.pathB
  let tag := if path.untagged then [] else beBytes 2 0x8100 ++ beBytes 2 (pathTci path)
  let b := beBytes 6 (dstMacOf p path.ipv6 path.dst) ++ beBytes 6 (portMac p) ++ tag ++ beBytes 2 (if path.ipv6 then 0x86DD else 0x0800) ++
    ipPacket path src f (udpDatagram c path src (rtpHeader c ++ payload))
  b ++ List.replicate (60 - b.length) 0

/-- A copy as its own port receives it back in loopback. -/
def copyBack (p : Nat) (c : Copy) (src bytes : Nat) (payload : List Byte) : Frame :=
  let path := txPath c.blk c.pathB
  { bytes := bytes + 4, fcsOk := true, fecCorr := 0, fecUncorr := 0, macCtl := false, kind := .udp, carries := .media, ipv6 := path.ipv6
    dstMac := dstMacOf p path.ipv6 path.dst, dst := path.dst, src := src, sport := path.sport, dport := path.dport
    tci := if path.untagged then none else some (pathTci path), dscp := path.dscp, ihl := 5, frag := false, hdrCsumOk := true, extHdr := false
    udpCsum := if path.ipv6 || c.blk.udpCsum == 1 then .correct else .zero
    rtp := { version := 2, ext := false, pad := false, cc := 0, marker := c.marker, pt := c.blk.pt, seq := c.seq, ts := c.ts, ssrc := c.blk.ssrc
             body := payload } }

/-- A message of the service cores as the port that sends it receives it back in loopback; its length is free. -/
def svcBack (p : Nat) (kind : FrameKind) (carries : UdpCarries) (ipv6 : Bool) (dst sport dport : Nat) (s : State) : State :=
  if s.flag (fNetCtlLoop p) then
    let (n, s) := s.draw
    let a := (s.port p).addr
    netReceive p { bytes := 64 + n % 1459, fcsOk := true, fecCorr := 0, fecUncorr := 0, macCtl := false, kind := kind, carries := carries, ipv6 := ipv6
                   dstMac := dstMacOf p ipv6 dst, dst := dst, src := if ipv6 then a.ip6 else a.ip4, sport := sport, dport := dport, tci := none, dscp := 0
                   ihl := 5, frag := false, hdrCsumOk := true, extHdr := false, udpCsum := .correct
                   rtp := { version := 0, ext := false, pad := false, cc := 0, marker := false, pt := 0, seq := 0, ts := 0, ssrc := 0, body := [] } } s
  else s

/-- The next copy of a port leaves at its instant D, or is not sent where the link is down or the port has no address of its IP version
(R91, R92). -/
def copyLeaves (p : Nat) (s : State) : State :=
  match (s.port p).copies with
  | [] => s
  | c0 :: t =>
    let c := t.foldl (fun a b => if copyBefore b a then b else a) c0
    let s := advanceTo (copyDue c) s
    let s := s.updPort p (fun q => { q with copies := q.copies.erase c })
    let path := txPath c.blk c.pathB
    let a := (s.port p).addr
    let s :=
      if linkUp s p && holdsVer a path.ipv6 then
        let src := if path.ipv6 then a.ip6 else a.ip4
        let data := bufRead s c.handle 16 c.len
        let (f, s) := s.draw
        let bytes := copyFrame p c src f data
        let s := s.emit (.ethCopy p c bytes)
        let s := pmuEvent (260 + p) 0x502 1 (s.bump (fNetTxFramesCount p) 1)
        let s := s.updTx c.flow (fun x => { x with packets := (x.packets + 1) % W32, octets := (x.octets + c.len) % W32 })
        let s := if c.tsReq then txStamp p c.tsId s else s
        loopBack p (copyBack p c src bytes.length data) s
      else s.bump (fNetTxLinkdownCount p) 1
    if (List.range 4).any (fun q => (s.port q).copies.any (fun d => d.handle == c.handle)) then s
    else releaseEntry { handle := c.handle } c.loan s

/-- COPY_DEPARTURE (R91). -/
def execCopyDeparture (port : Nat) (s : State) : Host.Outcome State Fault Refusal := .next (copyLeaves port s)

/-- The RTCP sender report of an egress flow, on each path that can send (R95). -/
def senderReport (fl : Nat) (s : State) : State :=
  match mapFind? fl s.net.tx with
  | none => s
  | some x =>
    if !x.blk.rtcpEn || s.glb.svcDown then s
    else [false, true].foldl (fun s b =>
      let p := txPath x.blk b
      if p.present && linkUp s p.port && holdsVer (s.port p.port).addr p.ipv6 then
        svcBack p.port .udp .unknown p.ipv6 p.dst (p.sport + 1) (p.dport + 1)
          (s.emit (.rtcp fl b x.blk.ssrc (s.time.t / 2 ^ 32) ((s.tick * x.blk.rate / 48000 + x.blk.offset) % W32) x.packets x.octets))
      else s) s

/-- RTCP_SENDER_REPORT (R95). -/
def execRtcpSenderReport (flow : Nat) (s : State) : Host.Outcome State Fault Refusal := .next (senderReport flow s)

/-! ## Host operations -/

/-- Checks of the operands that both kinds of flow share (R77, R78, R87, R96). -/
def flowChecks (flow mode format channels rate ptime pt offset queue : Nat) : List Check :=
  [chkRange flow 0 16383, chkRange mode 0 2, if mode = 0 then chkRange format 0 1 else none,
   if mode = 2 then none else chkZero channels, if mode = 0 then chkRange channels 1 64 else if mode = 1 then chkRange channels 1 32 else none,
   chk (if mode = 0 then rate == 48000 || rate == 96000 else if mode = 1 then rate == 48000 else rate == 8000 || rate == 16000 || rate == 48000) eRange,
   chk (ptime == 6 || ptime == 12 || ptime == 16 || ptime == 48 || ptime == 192) eRange,
   chkRange pt 0 127, chkRange offset 0 (W32 - 1), chkRange queue 0 65535]

/-- A PCM or AM824 payload is at most 1,440 B (R77, R87). -/
def chkPayload (mode format channels rate ptime : Nat) : Check :=
  chk (mode == 2 || decide (payloadLen mode format channels rate ptime ≤ 1440)) eRange

/-- A match key: its port lies in the path's network, and its fields fit (R71, R477). -/
def chkKey (s : State) (net : Nat) (k : FlowKey) : Check :=
  chk (!k.present || (decide (k.port < 4) && s.fld (fNetCtlNetsel k.port) == net && decide (k.vlan < 4096) && decide (k.dport < 65536) &&
    decide (k.dst < 2 ^ (if k.ipv6 then 128 else 32)) && decide (k.src < 2 ^ (if k.ipv6 then 128 else 32)))) eRange

/-- A path entry: its port lies in the path's network, and its fields fit (R71, R87, R477). -/
def chkPath (s : State) (net : Nat) (k : FlowPath) : Check :=
  chk (!k.present || (decide (k.port < 4) && s.fld (fNetCtlNetsel k.port) == net && decide (k.vlan < 4096) && decide (k.pcp < 8) &&
    decide (k.dscp < 64) && decide (k.ttl < 256) && decide (k.sport < 65536) && decide (k.dport < 65536) &&
    decide (k.dst < 2 ^ (if k.ipv6 then 128 else 32)))) eRange

/-- Operand checks of an ingress flow's fields, in order (R77). -/
def rxChecks (s : State) (b : RxBlock) : List Check :=
  flowChecks b.flow b.mode b.format b.channels b.rate b.ptime b.pt b.offset b.queue ++
  [chkKey s 0 b.keyA, chkKey s 1 b.keyB, chk (b.keyA.present || b.keyB.present) eRange, chkRange b.skewLimit 0 480,
   chkPayload b.mode b.format b.channels b.rate b.ptime]

/-- Operand checks of an egress flow's fields, in order (R87). -/
def txChecks (s : State) (b : TxBlock) : List Check :=
  flowChecks b.flow b.mode b.format b.channels b.rate b.ptime b.pt b.offset b.queue ++
  [chkRange b.ssrc 0 (W32 - 1), chkPath s 0 b.pathA, chkPath s 1 b.pathB, chk (b.pathA.present || b.pathB.present) eRange,
   chkRange b.txOffset 0 20832, chkRange b.udpCsum 0 1, chkPayload b.mode b.format b.channels b.rate b.ptime]

/-- Two keys match the same packets (R77). -/
def sameKey (a b : FlowKey) : Bool :=
  a.present && b.present && a.port == b.port && a.ipv6 == b.ipv6 && a.dst == b.dst && a.dport == b.dport && a.untagged == b.untagged &&
  (a.untagged || a.vlan == b.vlan) && a.srcAny == b.srcAny && (a.srcAny || a.src == b.src)

/-- A key of a flow equals one that another flow has open (R77). -/
def keyTaken (s : State) (fl : Nat) (b : RxBlock) : Bool :=
  s.net.rx.any (fun f => f.1 != fl && [f.2.blk.keyA, f.2.blk.keyB].any (fun k => sameKey k b.keyA || sameKey k b.keyB))

/-- A queue is open in a mode. -/
def queueIs (s : State) (q : Nat) (m : QMode) : Bool := match s.queue? q with | some x => decide (x.mode = m) | none => false

/-- The service cores join the multicast groups of a flow's keys by IGMPv3 or MLDv2 reports (R95, R523). -/
def joinKey (k : FlowKey) (s : State) : State :=
  if k.present && isGroup k.ipv6 k.dst then
    let s := s.emit (.join k.port k.ipv6 k.dst (if k.srcAny then none else some k.src))
    if k.ipv6 then svcBack k.port .mld .unknown true (0xFF02 * 2 ^ 112 + 0x16) 0 0 s else svcBack k.port .igmp .unknown false 0xE0000016 0 0 s
  else s

/-- FLOW.OPEN_RX (R77). -/
def execFlowOpenRx (h : KciHdr) (len : Nat) (blk : RxBlock) (s : State) : Host.Outcome State Fault Refusal :=
  .next (kci 0x0401 h (keyFlow false blk.flow) (fun s => chkZero len :: chk (len == 0x78) eRange :: rxChecks s blk) (fun s =>
    if (mapFind? blk.flow s.net.rx).isSome || keyTaken s blk.flow blk || !queueIs s blk.queue .ordered then kciFail eState s
    else kciOk (joinKey blk.keyB (joinKey blk.keyA (s.setNet (fun n => { n with rx := mapInsert blk.flow { blk := blk } n.rx }))))) s)

/-- FLOW.OPEN_TX (R87): the sequence counter starts at a random value, which is a free value. -/
def execFlowOpenTx (h : KciHdr) (len : Nat) (blk : TxBlock) (s : State) : Host.Outcome State Fault Refusal :=
  .next (kci 0x0402 h (keyFlow true blk.flow) (fun s => chkZero len :: chk (len == 0x70) eRange :: txChecks s blk) (fun s =>
    if (mapFind? blk.flow s.net.tx).isSome || !queueIs s blk.queue .fifo then kciFail eState s
    else
      let (r, s) := s.draw
      kciOk (s.setNet (fun n => { n with tx := mapInsert blk.flow { blk := blk, seq := r % 65536 } n.tx }))) s)

/-- FLOW.PORT_ADDR (R72, R477). -/
def execFlowPortAddr (h : KciHdr) (len : Nat) (blk : PortAddr) (s : State) : Host.Outcome State Fault Refusal :=
  .next (kci 0x0403 h none (fun _ => [chkZero len, chk (len == 36) eRange, chkRange blk.port 0 3, chkRange blk.ip4 0 (W32 - 1), chkRange blk.pfx4 0 32,
      chkRange blk.ip6 0 0xFFFFFFFFFFFFFFFFFFFFFFFFFFFFFFFF, chkRange blk.pfx6 0 128]) (fun s =>
    kciOk (s.updPort blk.port (fun q => { q with addr := blk }))) s)

/-- Drops the entries left in a closed egress flow's queue and frees their buffers, mark or no mark (R94). -/
def dropEntries (q : Nat) : Nat → State → State
  | 0, s => s
  | n + 1, s => dropEntries q n (discardHead q s)

/-- FLOW.CLOSE (R94, R301). -/
def execFlowClose (h : KciHdr) (flow dir : Nat) (s : State) : Host.Outcome State Fault Refusal :=
  .next (kci 0x0404 h (keyFlow (dir == 1) flow) (fun _ => [chkRange flow 0 16383, chkRange dir 0 1]) (fun s =>
    if dir = 0 then
      if (mapFind? flow s.net.rx).isNone then kciFail eState s
      else kciOk (dropStage (2 ^ 28 + flow) (s.setNet (fun n => { n with rx := mapErase flow n.rx })))
    else match mapFind? flow s.net.tx with
      | none => kciFail eState s
      | some x =>
        let s := dropStage (2 * 2 ^ 28 + flow) (s.setNet (fun n => { n with tx := mapErase flow n.tx }))
        let n := match s.queue? x.blk.queue with | some q => q.held.length | none => 0
        .done eOk [n] (dropEntries x.blk.queue n s)) s)

/-- The FLOW.STATS record (R86); UP is 1. -/
def flowWords (x : RxFlow) : List Nat :=
  [x.a.rx, x.b.rx, x.a.format, x.b.format, bitOf x.a.up, bitOf x.b.up, x.a.down, x.b.down, x.a.ssrcChange, x.b.ssrcChange,
   slotS x.last, x.peak, x.exceed, x.miss]

/-- The counts of a path, cleared. -/
def RxPath.clear (a : RxPath) : RxPath := { a with rx := 0, format := 0, down := 0, ssrcChange := 0 }

/-- FLOW.STATS (R86). -/
def execFlowStats (h : KciHdr) (flow : Nat) (clear : Bool) (s : State) : Host.Outcome State Fault Refusal :=
  .next (kci 0x0405 h (keyFlow false flow) (fun _ => [chkRange flow 0 16383]) (fun s =>
    match mapFind? flow s.net.rx with
    | none => kciFail eState s
    | some x => .record (flowWords x)
        (if clear then s.updRx flow (fun x => { x with a := x.a.clear, b := x.b.clear, exceed := 0, miss := 0 }) else s)) s)

end Sys2Proof.Machine
end

