-- ==== Sys2Proof/Machine/Kml.lean ====
section
/-!
DEFINITION. Kml.lean: the staged set of a node as CFG.COMMIT and GRAPH.LOAD check it: descriptor fields (R131, R132) and the records of
KML nodes (R283, R290, R291, R295, R304 to R306, R319, R325).
-/

namespace Sys2Proof.Machine

/-! ## A node's set -/

/-- A byte of a node's context as it will stand after a commit: staged, else that of the current checkpoint (R165, R296, R298). -/
def ctxByte (s : State) (d : NodeD) (bs : List (Nat × Byte)) (o : Nat) : Nat :=
  match mapFind? o bs with
  | some b => b.toNat
  | none => (memRead s.hbm (imageAddr d (o / 0x2000) (d.sel / 2 ^ (o / 0x2000) % 2) + o % 0x2000)).toNat

/-- A word of a node's context as it will stand after a commit. -/
def ctxWord (s : State) (d : NodeD) (bs : List (Nat × Byte)) (o : Nat) : Nat :=
  ctxByte s d bs o + 256 * ctxByte s d bs (o + 1) + 65536 * ctxByte s d bs (o + 2) + 2 ^ 24 * ctxByte s d bs (o + 3)

/-- A signed byte within bounds. -/
def chkInt8 (v : Nat) (lo hi : Int) : Check := chk (decide (lo ≤ signedOf 8 v) && decide (signedOf 8 v ≤ hi)) eRange

/-- A value that must be nonzero and within bounds. -/
def chkNz (x hi : Nat) : Check := firstErr [chkZero x, chkRange x 1 hi]

/-- Bits of a record that its table does not list are 0: `used` has those that it lists. Such a bit that is set is a field outside its range, at its word's place
in the record (DEDUCED, assumption 22). -/
def chkResv (w used : Nat) : Check := chk (w % W32 &&& (W32 - 1 - used) == 0) eRange

/-! ## Cancellers (R277, R283, R295) -/

/-- Context class that a canceller needs (R277). -/
def cancellerClass (narrow : Bool) (tail : Nat) : Nat := if narrow then (if tail < 2 then 1 else 2) else if tail = 0 then 1 else 2

/-- The record of a canceller, or of its bypass node (R283), over 0x000 to 0x03F. -/
def cancellerChecks (bypass : Bool) (cls : Nat) (w : Nat → Nat) : List Check :=
  [chk (wordBits (w 0) 16 16 == 1) eVersion,
   chk (bypass || decide (cancellerClass (wordBits (w 4) 1 1 == 1) (wordBits (w 4) 2 2) ≤ cls)) eRange,
   chkRange (wordBits (w 4) 4 2) 0 2, chkResv (w 4) 0x1FF,
   chk ([12, 24, 48, 96, 192].contains (wordBits (w 0xC) 0 8)) eRange, chkResv (w 0xC) 0xFF,
   chkResv (w 0x10) 0xFFF, chkResv (w 0x14) 0x3FFFF, chkResv (w 0x18) 0x3FFFF, chkResv (w 0x1C) 0x3FFFF, chkResv (w 0x20) 0x3FFFF,
   chkRange (wordBits (w 0x24) 0 3) 0 4, chkRange (wordBits (w 0x24) 4 4) 0 14, chkResv (w 0x24) 0xF7,
   chkRange (wordBits (w 0x28) 0 8) 1 30, chkResv (w 0x28) 0xFF,
   chkInt8 (wordBits (w 0x2C) 0 8) (-90) (-20), chkResv (w 0x2C) 0xFF, chkInt8 (wordBits (w 0x30) 0 8) (-90) (-30), chkResv (w 0x30) 0xFF,
   chkResv (w 0x34) 0, chkResv (w 0x38) 0, chkResv (w 0x3C) (bitOf bypass)]

/-! ## Detectors (R289 to R291, R295) -/

/-- A length that must be a multiple of the input block's samples (R289, R291): the record does not tell them, and the last block that the detector took does; `blk`
is 0 before a first one, and any length then passes (DEDUCED, assumption 22). -/
def chkMultiple (len blk : Nat) : Check := chk (blk == 0 || len % blk == 0) eRange

/-- One bank tone of a detector channel (R289, R291). -/
def toneChecks (blk : Nat) (w : Nat → Nat) (o : Nat) : List Check :=
  [chkRange (wordBits (w o) 0 15) 20 20000, chkRange (wordBits (w o) 16 16) 48 4800, chkMultiple (wordBits (w o) 16 16) blk, chkResv (w o) 0xFFFF7FFF,
   chkRange (wordBits (w (o + 4)) 8 8) 0 20, chkZero (wordBits (w (o + 4)) 16 4), chkZero (wordBits (w (o + 4)) 20 4), chkResv (w (o + 4)) 0xFFFFFF]

/-- One channel of a detector (R290, R291). -/
def channelChecks (blk : Nat) (w : Nat → Nat) (o : Nat) : List Check :=
  [chkResv (w o) 0xF7, chkInt8 (wordBits (w (o + 4)) 0 8) (-60) 0, chkRange (wordBits (w (o + 4)) 8 8) 0 12, chkRange (wordBits (w (o + 4)) 16 8) 0 12,
   chkResv (w (o + 4)) 0xFFFFFF,
   chkInt8 (wordBits (w (o + 8)) 0 8) (-60) 0, chkRange (wordBits (w (o + 8)) 8 8) 1 50, chkResv (w (o + 8)) 0xFFFF,
   chkRange (wordBits (w (o + 0xC)) 0 16) 480 48000, chkMultiple (wordBits (w (o + 0xC)) 0 16) blk,
   chk (decide (signedOf 8 (wordBits (w (o + 0xC)) 16 8) + 1 ≤ signedOf 8 (wordBits (w (o + 0xC)) 24 8))) eRange,
   chkNz (wordBits (w (o + 0x10)) 0 8) 255, chkResv (w (o + 0x10)) 0xFF] ++ (List.range 4).flatMap (fun t => toneChecks blk w (o + 0x14 + 8 * t)) ++
  [chkResv (w (o + 0x34)) 0, chkResv (w (o + 0x38)) 0, chkResv (w (o + 0x3C)) 0]

/-- The record of a detector (R291). The fields of every channel in use are checked, whichever functions are on (DEDUCED, assumption 22). -/
def detectorChecks (blk : Nat) (w : Nat → Nat) : List Check :=
  [chk (wordBits (w 0) 16 16 == 1) eVersion, chkNz (wordBits (w 4) 0 4) 8, chkResv (w 4) 0xF, chkResv (w 8) 0xFFFF,
   chkRange (wordBits (w 0x10) 18 4) 0 14, chkResv (w 0x10) 0x7FFFFF] ++
  (List.range 11).map (fun i => chkResv (w (0x14 + 4 * i)) 0) ++
  (List.range (min 8 (wordBits (w 4) 0 4))).flatMap (fun c => channelChecks blk w (0x40 + 0x40 * c))

/-! ## Mixers (R302, R304 to R306, R325) -/

/-- A value occurs twice in a list. -/
def hasTwice : List (Nat × Nat × Nat) → Bool
  | [] => false
  | x :: t => t.contains x || hasTwice t

/-- The active route bank of a mixer (R305, R306): the other bank may hold what its SLOT_CHs no longer fit, as in the removal of a slot (R313; DEDUCED, assumption
22). A COUNT above 1,024 is the node's E_NOFIT (R35, R306). -/
def routeChecks (w : Nat → Nat) (bank : Nat) : List Check :=
  let n := routeCount w bank
  let xs := (List.range (min n 1024)).map (crosspoint w bank)
  [chkResv (w (0x2000 * (1 + bank))) 0x7FF,
   chk ((List.range (min n 1024)).all (fun i => decide (w (0x2000 * (1 + bank) + 0x10 + 4 * i) % W32 < 65536))) eRange,
   chk (xs.all (fun x => decide (x.1 < wordBits (w 4) 0 7) && decide (x.2.1 < wordBits (w 0xC) 8 4) && decide (x.2.2 < wordBits (w (0x40 + x.2.1 / 4 * 4)) (8 * (x.2.1 % 4)) 7))) eRange,
   chk (!hasTwice xs) eRange]

/-- A gain is a Q2.22 number sign-extended to 32 bits (R305). -/
def gainOk (g : Nat) : Bool := wordBits g 25 7 == (if wordBits g 24 1 = 1 then 127 else 0)

/-- The record of a mixer (R304 to R306): E_VERSION, then E_ZERO and E_RANGE in the order of the record, then E_NOFIT and E_SPACE. The record's table has no place for
the context class: the model checks it right after VER, as the canceller's stands with its TAIL (DESIGN CHOICE, assumption 22). `others` is the number of outputs of
the other loaded mixers, `xps` has the crosspoints that the mixer holds, of which those that the active bank no longer names fade out and count too. -/
def mixerChecks (cls others : Nat) (xps : List Xpoint) (w : Nat → Nat) : List Check :=
  let outs := wordBits (w 4) 0 7
  let flow := wordBits (w 4) 8 1 == 0
  let block := wordBits (w 0xC) 0 8
  let slots := wordBits (w 0xC) 8 4
  let ncons := wordBits (w 0x3C) 0 3
  let act := wordBits (w 4) 12 1
  let xs := (List.range (min (routeCount w act) 1024)).map (crosspoint w act)
  let fading := (xps.map (fun x => (x.out, x.slot, x.chan))).filter (fun x => !xs.contains x)
  [chk (wordBits (w 0) 16 16 == 1) eVersion, chk (cls == 2) eRange, chkNz outs 64, chkResv (w 4) 0xD37F,
   chk ([6, 12, 16, 48, 192].contains block) eRange, chkNz slots 14, chkRange (wordBits (w 0xC) 12 4) slots 14, chkResv (w 0xC) 0x1FFFF,
   chkNz (wordBits (w 0x10) 0 16) 48000, chkResv (w 0x10) 0xFFFF, chkResv (w 0x14) 0xFFFFFFF,
   if flow then chkZero (wordBits (w 0x18) 0 16) else none, chkResv (w 0x18) 0x3FFFF] ++
  (List.range 4).flatMap (fun i =>
    [if flow ∨ ncons ≤ i then none else chkRange (wordBits (w (0x1C + 8 * i)) 20 4) 0 14, chkResv (w (0x1C + 8 * i)) 0xFFFFFF,
     chkResv (w (0x20 + 8 * i)) 0x3FFFF]) ++
  [chkRange ncons 0 4, chkResv (w 0x3C) 7] ++
  (List.range (min 14 slots)).map (fun i => chkRange (wordBits (w (0x40 + i / 4 * 4)) (8 * (i % 4)) 7) 0 64) ++
  (List.range 4).map (fun i => chkResv (w (0x40 + 4 * i)) (if i = 3 then 0x7F7F else 0x7F7F7F7F)) ++
  routeChecks w act ++
  [chk ((List.range 4).all (fun g => (List.range (min (routeCount w act) 1024)).all (fun i => gainOk (w (0x2000 * (3 + g) + 4 * i))))) eRange,
   chk (!flow || decide (outs * block * (if wordBits (w 4) 9 1 = 0 then 3 else 2) ≤ 1440)) eRange,
   chk (decide (routeCount w act + fading.length ≤ 1024)) eNofit,
   chk ((List.range 64).all (fun o => decide ((xs ++ fading).countP (fun x => x.1 == o) ≤ 64))) eNofit,
   chk (decide (others + outs ≤ 4096)) eSpace]

/-! ## Codecs (R319, R325) -/

/-- The record of a codec node (R319). A class below that of R314 is E_RANGE at CODEC's place, as for the canceller's TAIL (DEDUCED, assumption 22). -/
def codecChecks (decoder : Bool) (cls : Nat) (w : Nat → Nat) : List Check :=
  let codec := wordBits (w 4) 0 2
  let pt := wordBits (w 8) 0 16
  [chk (wordBits (w 0) 16 16 == 1) eVersion, chk (decide (codec < 2) || decide (1 ≤ cls)) eRange,
   if decoder ∧ codec = 2 then chkRange (wordBits (w 4) 4 2) 1 3 else none, chkResv (w 4) 0x333,
   chk (if codec = 3 then pt == 120 || pt == 240 || pt == 480 else [48, 192, 240, 480, 960].contains pt) eRange,
   if !decoder ∧ codec = 3 then chkRange (wordBits (w 8) 16 9) 24 256 else none, chkResv (w 8) 0x1FFFFFF, chkResv (w 0x10) 0xFFF,
   if decoder then none else chkZero (wordBits (w 0x14) 0 16), chkResv (w 0x14) 0xFFFF]

/-! ## The set of a node -/

/-- Outputs of a loaded mixer node, 0 for any other node (R306). -/
def mixerOutputs (s : State) (d : NodeD) : Nat :=
  if wordBits (ctxWord s d [] 0) 0 16 = 0x0B01 then wordBits (ctxWord s d [] 4) 0 7 else 0

/-- Outputs of every loaded mixer but one (R306). -/
def otherOutputs (s : State) (n : Nat) : Nat :=
  ((s.bull.nodes.filter (fun x => x.1 != n)).map (fun x => mixerOutputs s x.2)).foldl (· + ·) 0

/-- The TYPEs of KML's records (R283, R291, R304, R319). -/
def kmlTypes : List Nat := [0x0E01, 0x0E02, 0x0D01, 0x0B01, 0x0C01, 0x0C02]

/-- The crosspoints that a mixer holds (R310). -/
def heldXps (s : State) (n : Nat) : List Xpoint := match mapFind? n s.kml with | some (.mixer m) => m.xps | _ => []

/-- The checks that the TYPE of a node's record brings; any other TYPE is not KML's (R283, R291, R304, R319). The record of a node that is one of KML's keeps its TYPE:
another one is a TYPE outside its range (DEDUCED, assumption 22). -/
def recordChecks (s : State) (n : Nat) (d : NodeD) (bs : List (Nat × Byte)) : List Check :=
  let w := ctxWord s d bs
  let old := wordBits (ctxWord s d [] 0) 0 16
  if kmlTypes.contains old ∧ wordBits (w 0) 0 16 ≠ old then [none, chk false eRange] else
  match wordBits (w 0) 0 16 with
  | 0x0E01 => cancellerChecks false d.ctxClass w
  | 0x0E02 => cancellerChecks true d.ctxClass w
  | 0x0D01 => detectorChecks (match mapFind? n s.kml with | some (.detector x) => x.samples | _ => 0) w
  | 0x0B01 => mixerChecks d.ctxClass (otherOutputs s n) (heldXps s n) w
  | 0x0C01 => codecChecks false d.ctxClass w
  | 0x0C02 => codecChecks true d.ctxClass w
  | _ => []

/-- Descriptor bytes that hold a field of R132. -/
def descByte (o : Nat) : Bool := [2, 3, 4, 5, 8, 9, 10, 12, 13, 16, 17, 18, 19].contains o

/-- A word of a node's descriptor with staged bytes laid over it; `bs` holds offsets within the descriptor. -/
def descWord (d : NodeD) (bs : List (Nat × Byte)) (o : Nat) : Nat :=
  let cur := (descWords d).getD (o / 4) 0
  let b (i : Nat) : Nat := match mapFind? (o + i) bs with | some x => x.toNat | none => wordBits cur (8 * i) 8
  b 0 + 256 * b 1 + 65536 * b 2 + 2 ^ 24 * b 3

/-- The settings that staged descriptor bytes give (R131, R132). -/
def stagedSet (d : NodeD) (bs : List (Nat × Byte)) : NodeSet :=
  let w0 := descWord d bs 0
  let w4 := descWord d bs 4
  { mask := wordBits w0 16 16, any := wordBits w4 0 1 == 1, cls := wordBits w4 1 2, home := wordBits w4 3 4, nosteal := wordBits w4 7 1 == 1
    fpol := wordBits w4 11 2, alt := wordBits (descWord d bs 8) 0 18, budget := wordBits (descWord d bs 12) 0 16, prog := descWord d bs 16 }

/-- The checks of a node's staged set (R161, R298). -/
def nodeSetChecks (s : State) (n : Nat) (d : NodeD) (desc ctx : List (Nat × Byte)) : List Check :=
  let x := stagedSet d desc
  let rec_ := recordChecks s n d ctx
  rec_.take 1 ++ [chkZero x.mask, chkRange x.fpol 0 2, chk (decide (descWord d desc 8 < 2 ^ 18)) eRange, chkZero x.budget] ++ rec_.drop 1

end Sys2Proof.Machine
end

