-- ==== Sys2Proof/Machine/Mdm.lean ====
section
/-!
DEFINITION. Mdm.lean: the beltpack modem: slots, packets, reception, the LDPC pool, and the host operations on links (R346 to R386).
-/

namespace Sys2Proof.Machine

/-! ## Buffers being sent -/

/-- Frees the buffers whose last sample or symbol is over (R322, R360). -/
def reap (s : State) : State :=
  let due := s.txHold.filter (fun h => decide (h.1 ≤ s.clk))
  due.foldl (fun s h => seedFree h.2 s) { s with txHold := s.txHold.filter (fun h => decide (s.clk < h.1)) }

/-- A cycle of REFCLK_25M in which nothing is commanded: the counters of time advance, and buffers whose last sample has gone are freed. -/
def idle (s : State) : State := reap (advance 1 s)

/-- REFCLK cycles until the time counter reaches a value. -/
def cyclesUntil (target : Nat) (s : State) : Nat := (target - s.time.t + timeInc s.time.rate - 1) / timeInc s.time.rate

/-- Keeps the buffer of an entry until the time counter reaches a value, and frees it then; a loan only ends (R122). -/
def holdUntil (target : Nat) (e : Entry) (loan : Bool) (s : State) : State :=
  if loan || e.nobuf then s else { s with txHold := s.txHold ++ [(s.clk + cyclesUntil target s, e.handle)] }

/-! ## Staged block fields (R296 to R299) -/

/-- Staging key of a block register set. -/
def blockKey (id : Nat) : Nat := 3 * 2 ^ 28 + id

/-- The bytes of a scheduled commit of a block register set. -/
def scheduledBytes (s : State) (id : Nat) : List (Nat × Byte) :=
  match mapFind? (blockKey id) s.cfg with
  | some x => if x.scheduled then x.bytes else []
  | none => []

/-- A word with staged bytes laid over it. -/
def stagedOver (bs : List (Nat × Byte)) (off : Nat) (w : Word) : Word :=
  (List.range 4).foldl (fun w i => match mapFind? (off + i) bs with | some b => setBits w (8 * i) 8 b.toNat | none => w) w

/-- The bytes of a commit that lie in given registers take effect in the fields that `mask` marks, and the commit completes with its last byte
(R297, R298). -/
def commitRegs (id : Nat) (regs : List (Nat × Nat)) (s : State) : State :=
  let bs := scheduledBytes s id
  if bs.isEmpty then s
  else
    let s := regs.foldl (fun s r =>
      let a := id * 0x2000 + r.1
      let w := stagedOver bs r.1 (s.reg a)
      let m := BitVec.ofNat 32 r.2
      s.setReg a ((s.reg a &&& ~~~m) ||| (w &&& m))) s
    let left := bs.filter (fun b => !regs.any (fun r => decide (r.1 ≤ b.1) && decide (b.1 < r.1 + 4)))
    if left.isEmpty then finishWait (.commit 3 id) eOk [] { s with cfg := mapErase (blockKey id) s.cfg }
    else { s with cfg := mapInsert (blockKey id) { bytes := left, scheduled := true } s.cfg }

/-! ## Radio sample ports -/

/-- A radio sample port. -/
def State.rport (s : State) (p : Nat) : RfpPort := mapGet {} p s.rfp

/-- Changes a radio sample port. -/
def State.updRport (s : State) (p : Nat) (f : RfpPort → RfpPort) : State := { s with rfp := mapUpd {} p f s.rfp }

/-- A carrier of a port. -/
def State.carrier (s : State) (p c : Nat) : Carrier := mapGet {} c (s.rport p).cars

/-- Changes a carrier. -/
def State.updCarrier (s : State) (p c : Nat) (f : Carrier → Carrier) : State := s.updRport p (fun r => { r with cars := mapUpd {} c f r.cars })

/-! ## Ports and links -/

/-- The modem engine of a port. -/
def State.mport (s : State) (p : Nat) : MPort := mapGet {} p s.mdm.ports

/-- A beltpack link. -/
def State.mlink (s : State) (l : Nat) : MLink := mapGet {} l s.mdm.links

/-- Changes the modem. -/
def State.setMdm (s : State) (f : MdmSt → MdmSt) : State := { s with mdm := f s.mdm }

/-- Changes a port's engine. -/
def State.updMport (s : State) (p : Nat) (f : MPort → MPort) : State := s.setMdm (fun m => { m with ports := mapUpd {} p f m.ports })

/-- Changes a link. -/
def State.updMlink (s : State) (l : Nat) (f : MLink → MLink) : State := s.setMdm (fun m => { m with links := mapUpd {} l f m.links })

/-- Port of a link (R348). -/
def linkPort (l : Nat) : Nat := l / 60

/-- Carrier of a link (R348). -/
def linkCarrier (l : Nat) : Nat := l % 60 % 12

/-- The number 0 to 9 of the slot that starts at an extended tick (R45, R347). -/
def slotNo (start : Nat) : Nat := start % 240 / 24

/-- The link that owns a carrier of a port in a slot (R348). -/
def slotLink (p start c : Nat) : Nat := 60 * p + 12 * (slotNo start % 5) + c

/-- Time of the end of a symbol count from the start of a slot: a symbol lasts 15,625 / 24 ns (R347). -/
def symbolTime (start symbols : Nat) : Nat := timeOfTick start + symbols * 15625 * nsUnit / 24

/-- The modem runs for a port. -/
def modemRuns (s : State) (p : Nat) : Bool := decide (p < 8) && s.flag fMdmCtlEn

/-- The uplink slot in progress on a carrier, where it has delivered no entry. -/
def State.rxSlot (s : State) (p c : Nat) : Option RxSlot :=
  match (s.mport p).slot with
  | some st => s.mdm.rx.find? (fun r => decide (r.start = st) && decide (linkPort r.link = p) && decide (linkCarrier r.link = c))
  | none => none

/-- Replaces an uplink slot. -/
def State.setRx (s : State) (r : RxSlot) : State :=
  s.setMdm (fun m => { m with rx := m.rx.map (fun x => if x.link = r.link ∧ x.start = r.start then r else x) })

/-- A reception past sync (R365). -/
def pastSync (r : RxSlot) : Bool := decide (r.stage = .header) || decide (r.stage = .payload)

/-- Another carrier of a port holds a reception past sync in the slot in progress (R365). -/
def otherPastSync (s : State) (p c : Nat) : Bool :=
  (List.range 12).any (fun d => d != c && match s.rxSlot p d with | some r => pastSync r | none => false)

/-! ## The LDPC pool (R377 to R379, R385) -/

/-- LDPC_STAT follows the pool. -/
def poolRegs (s : State) : State :=
  (s.setFld fLdpcStatBusyRadio s.mdm.run.length).setFld fLdpcStatRadioWait s.mdm.wait.length

/-- Free engines take the oldest waiting radio jobs (R377). -/
def poolFill : Nat → State → State
  | 0, s => poolRegs s
  | fuel + 1, s =>
    match s.mdm.wait with
    | [] => poolRegs s
    | j :: t =>
      if s.flag fLdpcCtlEn && decide (s.mdm.run.length < 16) then
        let ns := (s.clk - j.since) * 40
        let s := if s.fld fLdpcRadioWaitMaxNs < ns then s.setFld fLdpcRadioWaitMaxNs ns else s
        poolFill fuel (s.setMdm (fun m => { m with wait := t, run := m.run ++ [{ j with iters := s.fld fLdpcIterRadio }] }))
      else poolRegs s

/-- The pool can run a flash job now (R377). -/
def flashMayRun (s : State) : Bool :=
  s.flag fLdpcCtlEn && s.mdm.wait.isEmpty && decide (s.mdm.run.length < 16) && decide (s.fld fLdpcCtlRadioRes < 16)

/-! ## Slot boundaries -/

/-- Start tick of the next slot of a port (R45, R376). -/
def nextSlot (s : State) (p : Nat) : Nat :=
  let up := (s.tick + 23) / 24 * 24
  match (s.mport p).slot with
  | some st => max up (st + 24)
  | none => up

/-- A scheduled MODEM.LINK record, the 2-level mode and the VER that a JOIN agreed take effect (R373, R380, R483). -/
def applyLink (frame : Bool) (l : Nat) (s : State) : State :=
  let x := s.mlink l
  let s := match x.sched with
    | some r => finishWait (.modem l) eOk [] (s.updMlink l (fun x => { x with rec_ := r, sched := none }))
    | none => s
  let s := if x.twoLvl then s.updMlink l (fun x => { x with rec_ := { x.rec_ with mod := 0 }, twoLvl := false }) else s
  match frame, x.verNext with
  | true, some v => s.updMlink l (fun x => { x with rec_ := { x.rec_ with ver := v }, verNext := none })
  | _, _ => s

/-- A link of a port transmits in a downlink slot. -/
def slotTransmits (s : State) (p start : Nat) : Bool :=
  decide (slotNo start < 5) && (List.range 12).any (fun c => (s.mlink (slotLink p start c)).rec_.txEn == 1)

/-- The slot in progress ends: no new reception starts in it (R370, R373). -/
def endSlot (p : Nat) (s : State) : State :=
  match (s.mport p).slot with
  | none => s
  | some st => s.setMdm (fun m => { m with rx := m.rx.map (fun r =>
      if r.start = st ∧ linkPort r.link = p ∧ (r.stage = .search ∨ r.stage = .header) then { r with stage := .ended } else r) })

/-- A port's slot boundary (R347, R363, R373, R376, R383, R384): the time that a transmit link needs to carry data again is a free value. -/
def slotBoundary (p : Nat) (s : State) : State :=
  if !modemRuns s p then s
  else
    let st := nextSlot s p
    let s := reap (advanceTo (timeOfTick st) (endSlot p s))
    let s := (List.range 60).foldl (fun s i => applyLink (st % 240 == 0) (60 * p + i) s) s
    let s := commitRegs 0x68 [(0x100 + 0x80 * p, 0x0FFFFFFF)] s
    let again := match (s.mport p).served with | some l => decide (st ≤ l) | none => false
    let s := s.updMport p (fun m => { m with
      slot := some st, begun := false, repeat_ := again, served := if again then m.served else some st
      agc := s.reg (0xD0104 + 0x80 * p), amp := s.fld fMdmTxAmpAmp, ramp := (List.range 16).map (fun e => s.fld (fMdmRampV e))
      ofs := m.ofs + m.ofsDue, ofsDue := 0 })
    let s := s.setFld (fMdmPpGainPaEn p) (bitOf (slotTransmits s p st))
    let s := if slotNo st < 5 then s.setFld (fMdmPpGainFrozen p) 1 else s
    if s.flag (fRfpCtlEn p) && s.flag (fRfpCtlTxEn p) && !s.flag (fRfpStatTxData p) then
      let (f, s) := s.draw
      s.setFld (fRfpStatTxData p) (f % 2)
    else s

/-- SLOT_BOUNDARY (R373). -/
def execSlotBoundary (port : Nat) (s : State) : Host.Outcome State Fault Refusal := .next (slotBoundary port s)

/-! ## Transmitting -/

/-- Counts a transmit outcome per port and per link (R360): 0 SENT, 1 EMPTY, 2 STALE, 3 FORMAT. -/
def countTx (l which : Nat) (s : State) : State :=
  let p := linkPort l
  let up (f : LinkCounts → LinkCounts) (s : State) : State := s.updMlink l (fun x => { x with n := f x.n })
  match which with
  | 0 => up (fun n => { n with txSent := (n.txSent + 1) % W32 }) (s.bump (fMdmPpTxSentCount p) 1)
  | 1 => up (fun n => { n with txEmpty := (n.txEmpty + 1) % W32 }) (s.bump (fMdmPpTxEmptyCount p) 1)
  | 2 => up (fun n => { n with txStale := (n.txStale + 1) % W32 }) (s.bump (fMdmPpTxStaleCount p) 1)
  | _ => up (fun n => { n with txFormat := (n.txFormat + 1) % W32 }) (s.bump (fMdmPpTxFormatCount p) 1)

/-- An entry may be sent in a link's mode (R360). -/
def txFormatOk (x : ModemOp) (e : Entry) : Bool := !e.nobuf && e.len == (if x.mod = 1 then 94 else 46) && decide (e.aux % 8 < 3)

/-- Examines a link's TX_QUEUE for the slot that starts at S (R360). -/
def takeEntry (l start : Nat) : Nat → State → Option (Entry × Bool) × State
  | 0, s => (none, s)
  | fuel + 1, s =>
    let x := (s.mlink l).rec_
    match (s.queue? x.txQueue).bind (fun q => q.held.head?) with
    | none => (none, countTx l 1 s)
    | some i =>
      let d := tickDiff i.e.key start
      if 0 < d then (none, countTx l 1 s)
      else match portPop x.txQueue none (some (s.fld fMdmAccountAccount)) s with
        | (none, s) => (none, countTx l 1 s)
        | (some (i, loan), s) =>
          if d < 0 then takeEntry l start fuel (countTx l 2 (releaseEntry i.e loan s))
          else if txFormatOk x i.e then (some (i.e, loan), countTx l 0 s)
          else (none, countTx l 3 (releaseEntry i.e loan s))

/-- Start tick of the downlink slot that a port takes entries for next (R347, R360). -/
def takeSlot (s : State) (p : Nat) : Nat :=
  let first := (s.tick / 24 + 1) * 24
  let st := match (s.mport p).takenAt with
    | some t => if s.tick < t then t + 24 else first
    | none => first
  if slotNo st < 5 then st else (st / 240 + 1) * 240

/-- The packet of a link whose examination answered an entry or none (R361). -/
def takenPacket (l : Nat) (x : ModemOp) (r : Option (Entry × Bool)) : RadioPkt :=
  match r with
  | some (e, loan) => ⟨l, e.aux % 8, e.aux / 128 % 4, e.aux / 8 % 16, some (e, loan)⟩
  | none => ⟨l, 1, x.ver, x.pwr, none⟩

/-- The engine takes entries when MTC becomes S - TX_LEAD; a repeated slot takes none (R360, R376). -/
def downlinkTake (p : Nat) (s : State) : State :=
  if !modemRuns s p then s
  else
    let st := takeSlot s p
    let s := reap (advanceTo (timeOfTick (st - s.fld (fMdmPpCfgTxLead p))) s)
    let again := match (s.mport p).served with | some l => decide (st ≤ l) | none => false
    let s := s.updMport p (fun m => { m with takenAt := some st })
    if again then s
    else (List.range 12).foldl (fun s c =>
      let l := slotLink p st c
      let x := (s.mlink l).rec_
      if x.txEn = 1 then
        let n := match s.queue? x.txQueue with | some q => q.held.length + 1 | none => 1
        let r := takeEntry l st n s
        r.2.updMport p (fun m => { m with taken := m.taken ++ [(st, takenPacket l x r.1)] })
      else s) s

/-- DOWNLINK_TAKE (R360). -/
def execDownlinkTake (port : Nat) (s : State) : Host.Outcome State Fault Refusal := .next (downlinkTake port s)

/-- The deviations and amplitudes of the 756 symbols of a link's packet (R349 to R362). -/
def packetAir (s : State) (p : Nat) (k : RadioPkt) : List Int × List Nat :=
  let m := s.mport p
  let x := s.mlink k.link
  let four := match k.entry with | some (e, _) => e.len == 94 | none => x.rec_.mod == 1
  let bytes := match k.entry with
    | some (e, _) => bufRead s e.handle 0 e.len
    | none => List.replicate (if four then 94 else 46) 0
  let payload := whiten k.link (radioCodeword (if four then 48 else 24) (payloadInfo bytes))
  (packetDeviations (s.fld (fMdmPpCfgSync p)) (headerSymbols k.ver k.link k.typ x.seq k.pwr) four payload,
   (List.range 756).map (symbolAmp m.amp m.ramp x.rec_.txAtten))

/-- A packet leaves on an enabled carrier of a transmit link that carries data. -/
def onAir (s : State) (p c : Nat) : Bool :=
  s.flag (fRfpCtlEn p) && s.flag (fRfpCtlTxEn p) && s.flag (fRfpStatTxData p) && s.flag (fRfpCarCtlEn p c)

/-- Sends a link's packet in the slot in progress (R349 to R362). -/
def sendPacket (p c st : Nat) (k : RadioPkt) (s : State) : State :=
  let air := packetAir s p k
  let s := s.updMlink k.link (fun x => { x with seq := (x.seq + 1) % 16 })
  let s := match k.entry with | some (e, loan) => holdUntil (symbolTime st 756) e loan s | none => s
  if onAir s p c then s.emit (.radio p c st air.1 air.2) else s

/-- The packets of a downlink slot by carrier: what was taken, else EMPTY (R360, R361). -/
def slotPackets (s : State) (p st : Nat) : List (Nat × RadioPkt) :=
  ((List.range 12).filter (fun c => (s.mlink (slotLink p st c)).rec_.txEn == 1)).map (fun c =>
    let l := slotLink p st c
    (c, match (s.mport p).taken.find? (fun t => t.1 == st && t.2.link == l) with
        | some t => t.2
        | none => takenPacket l (s.mlink l).rec_ none))

/-- The transmit lane over the 15,120 positions of a slot's symbols, 20 to a symbol, with each sample's clamp (R341, R350, R362). The phase accumulators go on from
where they stand. -/
def slotLane (s : State) (p start : Nat) (ks : List (Nat × RadioPkt)) : List ((Int × Int) × Bool) :=
  let airs := (ks.filter (fun k => onAir s p k.1)).map (fun k => (k.1, packetAir s p k.2))
  (List.range 15120).map (fun j => combine (airs.map (fun a =>
    shiftUp ((s.carrier p a.1).phiTx + BitVec.ofNat 32 (j * s.fld (fRfpCarFreqFreq p a.1)))
      (symbolIq (a.2.2.getD (j / 20) 0) (Config.gfskPhase start a.1 a.2.1 j)))))

/-- A downlink slot transmits (R349 to R363). A packet is EMPTY where none was taken. The spec gives the modulation's phase no starting point, so it is free (R350). -/
def downlinkTransmit (p : Nat) (s : State) : State :=
  match (s.mport p).slot with
  | none => s
  | some st =>
    if !modemRuns s p || (s.mport p).begun || decide (5 ≤ slotNo st) then s
    else
      let s := s.setFld (fMdmPpGainPaEn p) (bitOf (slotTransmits s p st))
      let ks := slotPackets s p st
      let s := s.updMport p (fun m => { m with begun := true, taken := m.taken.filter (fun t => t.1 != st) })
      if ks.any (fun k => onAir s p k.1) then
        let (f, s) := s.draw
        let lane := slotLane s p f ks
        ((ks.foldl (fun s k => sendPacket p k.1 st k.2 s) s).emit (.radioLane p st (s.fld (fRfpLatAdjTx p)) (lane.map (fun x => x.1)))).bump (fRfpTxClipCount p) (lane.countP (fun x => x.2))
      else ks.foldl (fun s k => sendPacket p k.1 st k.2 s) s

/-- DOWNLINK_TRANSMIT (R349). -/
def execDownlinkTransmit (port : Nat) (s : State) : Host.Outcome State Fault Refusal := .next (downlinkTransmit port s)

/-! ## Receiving -/

/-- The AGC settings in force, and the gain word moved by a step (R365). -/
def agcStep (p : Nat) (step : Int) (s : State) : State :=
  let g : Int := s.fld (fMdmPpGainGain p)
  s.setFld (fMdmPpGainGain p) (max 0 (min 63 (g + max (-6) (min 6 step)))).toNat

/-- What a port's GAIN pins carry: the gain word, where GAIN_OUT drives them (R365, R383). -/
def gainPins (s : State) (p : Nat) : Option Nat := if (s.mport p).agc.getLsbD 1 then some (s.fld (fMdmPpGainGain p)) else none

/-- AGC EN in force. -/
def agcOn (s : State) (p : Nat) : Bool := (s.mport p).agc.getLsbD 0

/-- AGC TARGET in force. -/
def agcTarget (s : State) (p : Nat) : Int := bits (s.mport p).agc 16 6

/-- AGC REF in force. -/
def agcRef (s : State) (p : Nat) : Int := bits (s.mport p).agc 8 6

/-- The sticky bits that a cut slot sets (R376, R383). -/
def setAbandon (p : Nat) (s : State) : State := raiseFld 0x0D fMdmIntStatAbandon (s.setFld (fMdmPpStatAbandon p) 1)

/-- An uplink slot starts (R364, R365, R376). A slot with the receive link down is abandoned at once. -/
def uplinkStart (p : Nat) (s : State) : State :=
  match (s.mport p).slot with
  | none => s
  | some st =>
    if !modemRuns s p || (s.mport p).begun || decide (slotNo st < 5) then s
    else
      let s := s.updMport p (fun m => { m with begun := true })
      if (s.mport p).repeat_ then s
      else
        let s := (s.setFld (fMdmPpGainFrozen p) 0).updMport p (fun m => { m with updates := 4 })
        let up := s.flag (fRfpStatRxData p)
        let on := (List.range 12).filter (fun c => (s.mlink (slotLink p st c)).rec_.rxEn == 1)
        let s := s.setMdm (fun m => { m with rx := m.rx ++ on.map (fun c =>
          let l := slotLink p st c
          { link := l, start := st, rec_ := (s.mlink l).rec_, stage := if up then .search else .ended, status := if up then 2 else 6 }) })
        if up || on.isEmpty then s else setAbandon p s

/-- UPLINK_SLOT_START (R365). -/
def execUplinkSlotStart (port : Nat) (s : State) : Host.Outcome State Fault Refusal := .next (uplinkStart port s)

/-- An AGC update from a measured power in hundredths of a dB (R365). -/
def agcUpdate (p : Nat) (centiDb : Int) (s : State) : State :=
  let m := s.mport p
  let inUp := match m.slot with | some st => decide (5 ≤ slotNo st) | none => false
  if !modemRuns s p || !inUp || !agcOn s p || s.flag (fMdmPpGainFrozen p) || m.updates = 0 then s
  else agcStep p (rne (-100 * agcTarget s p - centiDb) 100) (s.updMport p (fun m => { m with updates := m.updates - 1 }))

/-- AGC_UPDATE (R365). -/
def execAgcUpdate (port : Nat) (centiDb : Int) (s : State) : Host.Outcome State Fault Refusal := .next (agcUpdate port centiDb s)

/-- A reception starts at a detection (R370 step 1). -/
def startRx (p : Nat) (d : Detect) (r : RxSlot) (s : State) : State :=
  pmuEvent 264 0x601 1 ((s.setRx { r with stage := .header, cur := some d, hdr := none }).setFld (fMdmPpGainFrozen p) 1)

/-- A capture (R365, R372): the capturing detection's sync-word power drives one update unless another carrier is past sync. -/
def capture (p c : Nat) (d : Detect) (r : RxSlot) (s : State) : State :=
  let s := (s.bump (fMdmPpCapturedCount p) 1).updMlink r.link (fun x => { x with n := { x.n with capt := (x.n.capt + 1) % W32 } })
  let s := if otherPastSync s p c || !agcOn s p then s
    else agcStep p (rne (-4 * agcTarget s p - ((d.rssi : Int) - 400 + 4 * ((s.fld (fMdmPpGainGain p) : Int) - agcRef s p))) 4) s
  startRx p d { r with capt := true, cand := none } s

/-- The pending candidate after a detection: the highest C, the earliest among equals (R371, R373). -/
def pickCand (old : Option Detect) (d : Detect) : Option Detect :=
  match old with
  | some x => if x.c < d.c then some d else some x
  | none => some d

/-- Distance between two positions in symbols. -/
def apart (a b : Nat) : Nat := max a b - min a b

/-- The correlator detects the sync word (R366, R370 to R373). -/
def detection (p c : Nat) (d : Detect) (s : State) : State :=
  if !modemRuns s p || decide (d.c < s.fld (fMdmPpCfgSyncThr p)) || decide (32 < d.c) || decide (s.fld (fMdmPpCfgSyncWin p) < apart d.p 80) then s
  else match s.rxSlot p c with
    | none => s
    | some r =>
      if r.closed then s
      else match r.stage, r.cur with
        | .search, _ => startRx p d r s
        | .header, some x =>
          if apart d.p x.p ≤ 1 then if x.c < d.c then s.setRx { r with cur := some d } else s
          else if s.fld (fMdmPpCfgCapMargin p) ≠ 0 ∧ x.rssi + 4 * s.fld (fMdmPpCfgCapMargin p) ≤ d.rssi then capture p c d r s
          else s.setRx { r with cand := pickCand r.cand d }
        | .payload, some x =>
          if 1 < apart d.p x.p ∧ s.fld (fMdmPpCfgCapMargin p) ≠ 0 ∧ x.rssi + 4 * s.fld (fMdmPpCfgCapMargin p) ≤ d.rssi then capture p c d r s
          else s
        | _, _ => s

/-- SYNC_DETECTION (R366): RSSI is a code of R367, clamped to 0 to 400. -/
def execSyncDetection (port carrier c p rssi : Nat) (fofs : Int) (s : State) : Host.Outcome State Fault Refusal :=
  .next (detection port carrier ⟨c, p, min rssi 400, clampS 16 fofs⟩ s)

/-- A reception aborts after its header (R371): the pending candidate starts, or the search resumes and the AGC unfreezes. -/
def abortRx (p c status : Nat) (r : RxSlot) (s : State) : State :=
  match r.cand with
  | some d => startRx p d { r with status := status, cand := none } s
  | none =>
    let s := s.setRx { r with stage := if r.closed then .ended else .search, status := status }
    if otherPastSync s p c then s else (s.setFld (fMdmPpGainFrozen p) 0).updMport p (fun m => { m with updates := 4 })

/-- A header is decoded and checked (R352, R353, R370 steps 2 to 5). -/
def headerDecoded (p c : Nat) (bs : List Bool) (s : State) : State :=
  match s.rxSlot p c with
  | none => s
  | some r =>
    if !modemRuns s p || decide (r.stage ≠ .header) then s
    else
      let typ := msbNat ((bs.drop 11).take 3)
      if bs.length ≠ 36 ∨ crc6 (bs.take 30) ≠ msbNat (bs.drop 30) ∨ 3 ≤ typ then
        let s := (s.bump (fMdmPpFalseSyncCount p) 1).updMlink r.link (fun x => { x with n := { x.n with falseS := (x.n.falseS + 1) % W32 } })
        abortRx p c 3 { r with false_ := true } s
      else
        let h : RadioHdr := ⟨msbNat (bs.take 2), typ, msbNat ((bs.drop 14).take 4), msbNat ((bs.drop 18).take 4)⟩
        if msbNat ((bs.drop 2).take 9) ≠ r.link then abortRx p c 4 { r with hdr := some h } s
        else if typ = 1 then s.setRx { r with stage := .ended, status := 1, hdr := some h, cand := none }
        else s.setRx { r with stage := .payload, hdr := some h, cand := none }

/-- HEADER_DECODED (R370). -/
def execHeaderDecoded (port carrier : Nat) (bits : List Bool) (s : State) : Host.Outcome State Fault Refusal :=
  .next (headerDecoded port carrier bits s)

/-- A demodulated payload goes to the LDPC pool (R370 step 6, R377). -/
def payloadSubmit (p c : Nat) (s : State) : State :=
  match s.mdm.rx.find? (fun r => decide (linkPort r.link = p) && decide (linkCarrier r.link = c) && decide (r.stage = .payload)) with
  | none => s
  | some r =>
    if !modemRuns s p then s
    else
      let s := s.setRx { r with stage := .decoding }
      let s := s.setMdm (fun m => { m with wait := m.wait ++ [⟨r.link, r.start, s.clk, 0⟩] })
      pmuEvent 264 0x602 1 (poolFill s.mdm.wait.length s)

/-- PAYLOAD_SUBMIT (R370). -/
def execPayloadSubmit (port carrier : Nat) (s : State) : Host.Outcome State Fault Refusal := .next (payloadSubmit port carrier s)

/-- A radio job completes: the CRC-16 decides the slot, and the engine takes the next job (R370 step 7, R377, R378). A job that does not converge
has run every iteration it may. -/
def radioJobDone (p c : Nat) (converged : Bool) (iters : Nat) (info : List Bool) (s : State) : State :=
  match s.mdm.run.find? (fun j => decide (linkPort j.link = p) && decide (linkCarrier j.link = c)) with
  | none => s
  | some j =>
    let n := if converged then max 1 (min iters j.iters) else j.iters
    let s := s.setMdm (fun m => { m with run := m.run.erase j })
    let s := (s.bump fLdpcRadioJobsCount 1).bump fLdpcRadioIterCount n
    let s := if converged then s else s.bump fLdpcRadioUnconvCount 1
    let s := match s.mdm.rx.find? (fun r => decide (r.link = j.link) && decide (r.start = j.start) && decide (r.stage = .decoding)) with
      | none => s
      | some r =>
        let k := if r.rec_.mod = 1 then 768 else 384
        let ok := payloadOk k info
        s.setRx { r with stage := .ended, status := if ok then 0 else 5, iter := n, info := if ok then bitBytes (k / 8 - 2) info else [] }
    poolFill s.mdm.wait.length s

/-- RADIO_LDPC_JOB_COMPLETE (R378). -/
def execRadioLdpcJobComplete (port carrier : Nat) (converged : Bool) (iters : Nat) (info : List Bool) (s : State) :
    Host.Outcome State Fault Refusal := .next (radioJobDone port carrier converged iters info s)

/-- The sync window of a carrier closes (R366, R370): a slot with no reception in progress has its status. -/
def windowClose (p c : Nat) (s : State) : State :=
  match s.rxSlot p c with
  | none => s
  | some r =>
    if !modemRuns s p then s
    else
      let s := advanceTo (symbolTime r.start (80 + s.fld (fMdmPpCfgSyncWin p))) s
      s.setRx { r with closed := true, stage := if r.stage = .search then .ended else r.stage }

/-- SYNC_WINDOW_CLOSE (R370). -/
def execSyncWindowClose (port carrier : Nat) (s : State) : Host.Outcome State Fault Refusal := .next (windowClose port carrier s)

/-! ## Delivery (R374, R375) -/

/-- Tries the posts that a port's engine holds, in order (R159). -/
def tryPosts (p : Nat) : Nat → State → State
  | 0, s => s
  | fuel + 1, s =>
    match (s.mport p).posts with
    | [] => s
    | q :: t =>
      match postNode q.1 (2 ^ q.2) s with
      | some s => tryPosts p fuel (s.updMport p (fun m => { m with posts := t }))
      | none => s

/-- Posts RX_FLAG to RX_NODE, behind the posts that the engine already holds (R159, R374). -/
def modemPost (p n flag : Nat) (s : State) : State :=
  let s := s.updMport p (fun m => { m with posts := m.posts ++ [(n, flag)] })
  tryPosts p (s.mport p).posts.length s

/-- MODEM_POST_RESUME (R159). -/
def execModemPostResume (port : Nat) (s : State) : Host.Outcome State Fault Refusal := .next (tryPosts port (s.mport port).posts.length s)

/-- AUX of an uplink entry (R375). -/
def rxAux (r : RxSlot) (status : Nat) : Nat :=
  let h := r.hdr.getD ⟨0, 0, 0, 0⟩
  status + (match r.cur with | some d => d.rssi | none => 0) * 2 ^ 4 + h.pwr * 2 ^ 13 + h.ver * 2 ^ 17 + h.typ * 2 ^ 19 + r.iter * 2 ^ 22 +
    bitOf r.capt * 2 ^ 28 + bitOf r.false_ * 2 ^ 29

/-- Counts a delivered status per port and per link, and keeps what the link reports (R375, R381). -/
def countRx (r : RxSlot) (status : Nat) (s : State) : State :=
  let s := s.bump ⟨0xD0110 + 0x80 * linkPort r.link + 4 * status, 0, 32⟩ 1
  let s := if status = 7 then raiseFld 0x0D fMdmIntStatNocredit s else s
  s.updMlink r.link (fun x =>
    let n := { x.n with status := mapUpd 0 status (fun k => (k + 1) % W32) x.n.status, iterMax := max x.n.iterMax r.iter }
    let n := match r.cur with | some d => { n with rssiMin := some (match n.rssiMin with | some m => min m d.rssi | none => d.rssi) } | none => n
    let x := match r.cur with | some d => { x with rssi := d.rssi, fofs := d.fofs } | none => x
    match status, r.hdr with
    | 0, some h =>
      let gap := match x.okSeq with | some q => h.seq != (q + 1) % 16 | none => false
      { x with status := status, okSeq := some h.seq, n := { n with seqGap := if gap then (n.seqGap + 1) % W32 else n.seqGap } }
    | _, _ => { x with status := status, n := n })

/-- The engine delivers the entry of a link's uplink slot and posts RX_FLAG (R374, R375). -/
def deliverEntry (l : Nat) (s : State) : State :=
  match s.mdm.rx.find? (fun r => decide (r.link = l) && decide (r.stage = .ended)) with
  | none => s
  | some r =>
    let s := s.setMdm (fun m => { m with rx := m.rx.erase r })
    let seq := match r.hdr with | some h => h.seq | none => 0
    let (status, e, s) : Nat × Entry × State :=
      if r.status = 0 then
        match seedAlloc (s.fld fMdmAccountAccount) 1 .owned s with
        | (.ok h, s) => (0, { handle := h, len := r.info.length, seq := seq, key := r.start % W32, aux := rxAux r 0 }, bufWrite h 0 r.info s)
        | (_, s) => (7, { nobuf := true, seq := seq, key := r.start % W32, aux := rxAux r 7 }, s)
      else (r.status, { nobuf := true, seq := seq, key := r.start % W32, aux := rxAux r r.status }, s)
    let s := countRx r status s
    let s := if queueIs s r.rec_.rxQueue .fifo then mqPush r.rec_.rxQueue e s else freeItem e s
    modemPost (linkPort l) r.rec_.rxNode r.rec_.rxFlag s

/-- UPLINK_ENTRY_DELIVERY (R374). -/
def execUplinkEntryDelivery (link : Nat) (s : State) : Host.Outcome State Fault Refusal := .next (deliverEntry link s)

/-! ## When the timing moves (R376) -/

/-- The receptions and searches of some carriers of a port end, and their slots deliver ABANDONED. -/
def abandonRx (p : Nat) (which : Nat → Bool) (s : State) : State :=
  match (s.mport p).slot with
  | none => s
  | some st =>
    let hit (r : RxSlot) : Bool := decide (r.start = st) && decide (linkPort r.link = p) && which (linkCarrier r.link) &&
      (decide (r.stage = .search) || decide (r.stage = .header) || decide (r.stage = .payload))
    if s.mdm.rx.any hit then
      setAbandon p (s.setMdm (fun m => { m with rx := m.rx.map (fun r => if hit r then { r with stage := .ended, status := 6 } else r) }))
    else s

/-- Uplink slots of a port that a step from tick `old` to tick `new` jumps over, by start tick, newest first; one radio frame holds them all. -/
def jumpedSlots (old new : Nat) : List Nat :=
  ((List.range 11).map (fun i => (new - 1) / 24 * 24 - 24 * i)).filter (fun st => decide (old < st) && decide (st < new) && decide (5 ≤ slotNo st))

/-- A step of MTC in a port's engine (R58, R376). A slot jumped over that repeats one already served delivers no entry, and a link receives at most one entry in a
step. -/
def stepPort (old new p : Nat) (s : State) : State :=
  let s := uplinkStart p s
  let m := s.mport p
  let before := s.mdm.rx
  let fresh (st : Nat) : Bool := match m.served with | some l => decide (l < st) | none => true
  let cutUp (r : RxSlot) : Bool := decide (some r.start = m.slot) && decide (linkPort r.link = p)
  let s := if s.mdm.rx.any cutUp then
      setAbandon p (s.setMdm (fun d => { d with rx := d.rx.map (fun r => if cutUp r then { r with stage := .ended, status := 6, cand := none } else r) }))
    else s
  let cut (t : Nat × RadioPkt) : Bool := decide (some t.1 = m.slot) || (decide (old < t.1) && decide (t.1 < new))
  let s := (m.taken.filter cut).foldl (fun s t => match t.2.entry with | some (e, loan) => releaseEntry e loan s | none => s) s
  let s := match m.slot with
    | some st => if m.begun && decide (slotNo st < 5) && slotTransmits s p st then setAbandon p (s.emit (.radioCut p)) else s
    | none => s
  let s := ((jumpedSlots old new).filter fresh).foldl (fun s st =>
    (List.range 12).foldl (fun s c =>
      let l := slotLink p st c
      let x := (s.mlink l).rec_
      if x.rxEn = 1 ∧ !s.mdm.rx.any (fun r => decide (r.link = l) && decide (r.status = 6) && !before.contains r) then
        setAbandon p (s.setMdm (fun d => { d with rx := d.rx ++ [{ link := l, start := st, rec_ := x, stage := .ended, status := 6 }] }))
      else s) s) s
  let last := (new - 1) / 24 * 24
  (s.updMport p (fun m => { m with
    slot := none, begun := false, repeat_ := false, updates := 0, taken := m.taken.filter (fun t => !cut t)
    served := if old < last ∧ last < new then some (max last (m.served.getD 0)) else m.served })).setFld (fMdmPpGainPaEn p) 0

/-- A step of MTC in the radio (R58, R376); one whose Δ is 0 moves no tick and cuts no slot (DESIGN CHOICE, assumption 43). -/
def radioStep (old new : Nat) (s : State) : State :=
  if old = new ∨ !s.flag fMdmCtlEn then s else (List.range 8).foldl (fun s p => stepPort old new p s) s

/-! ## Host operations (R380, R381) -/

/-- Operand checks of MODEM.LINK, in order. -/
def modemChecks (o : ModemOp) : List Check :=
  [chkRange o.link 0 479, chkRange o.rxEn 0 1, chkRange o.txEn 0 1, chkRange o.mod 0 1, chkRange o.rxQueue 0 65535, chkNode o.rxNode,
   chkRange o.rxFlag 0 14, chkRange o.txQueue 0 65535, chkRange o.txAtten 0 30, chkRange o.ver 0 3, chkRange o.pwr 0 15]

/-- MODEM.LINK (R380). -/
def execModemLink (h : KciHdr) (op : ModemOp) (s : State) : Host.Outcome State Fault Refusal :=
  .next (kci 0x0B01 h (keyLink op.link) (fun _ => modemChecks op) (fun s =>
    if (op.rxEn = 1 ∧ (!queueIs s op.rxQueue .fifo ∨ (hostNode s op.rxNode).isNone)) ∨ (op.txEn = 1 ∧ !queueIs s op.txQueue .fifo) then kciFail eState s
    else if (s.mlink op.link).sched.isSome then kciFail eBusy s
    else .wait (.modem op.link) (s.updMlink op.link (fun x => { x with sched := some op }))) s)

/-- The record of R381, and the MOD in force (R483). -/
def linkWords (x : MLink) : List Nat :=
  (List.range 8).map (fun i => mapGet 0 i x.n.status) ++
  [x.n.falseS, x.n.capt, x.n.seqGap, x.rssi, x.n.rssiMin.getD 0, slotS x.fofs, x.n.iterMax, x.n.txSent, x.n.txEmpty, x.n.txStale, x.n.txFormat, x.rec_.mod]

/-- MODEM.LINK_STATS (R380, R381). -/
def execModemLinkStats (h : KciHdr) (link : Nat) (clear : Bool) (s : State) : Host.Outcome State Fault Refusal :=
  .next (kci 0x0B02 h (keyLink link) (fun _ => [chkRange link 0 479]) (fun s =>
    .record (linkWords (s.mlink link)) (if clear then s.updMlink link (fun x => { x with n := {} }) else s)) s)

/-- MDM_LINFO of the selected link (R383). -/
def mdmLinfo (s : State) : Nat :=
  let x := s.mlink (s.fld fMdmLselLink)
  x.rec_.rxEn + 2 * x.rec_.txEn + 4 * x.rec_.mod + 8 * bitOf x.sched.isSome + 256 * x.status

/-- MDM_LRSSI of the selected link (R383). -/
def mdmLrssi (s : State) : Nat :=
  let x := s.mlink (s.fld fMdmLselLink)
  x.rssi + 65536 * patternOf 16 x.fofs

end Sys2Proof.Machine
end

