-- ==== Sys2Proof/Machine/Flc.lean ====
section
/-!
DEFINITION. Flc.lean: the flash array, segments, reclaim, refresh and replay (R400 to R423, R426, R427).
-/

namespace Sys2Proof.Machine

/-- Changes FLC. -/
def State.setFlc (s : State) (f : FlcSt → FlcSt) : State := { s with flc := f s.flc }

/-- Changes the flash array. -/
def State.setFlash (s : State) (f : FlashSt → FlashSt) : State := { s with flash := f s.flash }

/-- A segment. -/
def State.seg? (s : State) (q : Nat) : Option Seg := mapFind? q s.flash.segs

/-- Changes a segment. -/
def State.updSeg (s : State) (q : Nat) (f : Seg → Seg) : State :=
  match s.seg? q with
  | some x => s.setFlash (fun a => { a with segs := mapInsert q (f x) a.segs })
  | none => s

/-- Changes a die. -/
def State.updDie (s : State) (d : Nat) (f : Die → Die) : State := s.setFlash (fun a => { a with dies := mapUpd {} d f a.dies })

/-- NSLOT (R404). -/
def nslot (s : State) : Nat := 4096 / s.fld fFlcGeomPpb

/-- Sets an FLC_INT_STAT bit. -/
def flcInt (i : Nat) (s : State) : State := raiseFld 0x10 (fFlcIntStat.bit i) s

/-- An Umpire event of FLC (R432). -/
def flcEvent (cls cause : Nat) (s : State) : State := umpEvent { cls := cls, source := 0x10, cause := cause } s

/-! ## Rotation (R410) -/

/-- Dies in round-robin order across flash channels; a die is channel + 8 × chip enable + 64 × LUN (R408, R410). -/
def dieOrder (s : State) : List Nat :=
  (List.range 32).flatMap (fun r => (List.range 8).filterMap (fun ch =>
    ((s.flash.dies.filter (fun d => d.1 % 8 == ch)).map (fun d => d.1))[r]?))

/-- The block with the lowest erase count, the lowest number among equals (R410). -/
def bestBlock (d : Die) (bs : List (Nat × Unit)) : Option Nat :=
  match bs with
  | [] => none
  | b :: t => some (t.foldl (fun a x => if mapGet 0 x.1 d.erases < mapGet 0 a d.erases then x.1 else a) b.1)

/-- Rotation takes a block of a die, from its spare where none is free (R410). -/
def takeBlock (d : Die) : Option (Nat × Die) :=
  match bestBlock d d.free with
  | some b => some (b, { d with free := mapErase b d.free })
  | none => (bestBlock d d.spare).map (fun b => (b, { d with spare := mapErase b d.spare }))

/-- Fills slots from dies in order. -/
def fillSlots (n : Nat) : List Nat → List (Nat × Nat) → List (Nat × Die) → List (Nat × Nat) × List (Nat × Die)
  | [], acc, ds => (acc, ds)
  | k :: t, acc, ds =>
    if n ≤ acc.length then (acc, ds)
    else match takeBlock (mapGet {} k ds) with
      | some (b, d) => fillSlots n t (acc ++ [(k, b)]) (mapInsert k d ds)
      | none => fillSlots n t acc ds

/-- Rotation's slots for a new segment: different dies where enough are writable, else at most ceil(NSLOT / writable dies) of each (R410). -/
def rotate (s : State) : Option (List (Nat × Nat) × List (Nat × Die)) :=
  let ds := (dieOrder s).filter (fun k => !(mapGet {} k s.flash.dies).readOnly)
  if ds.isEmpty then none
  else
    let k := s.flc.turn % ds.length
    let ring := ds.drop k ++ ds.take k
    let rounds := (nslot s + ds.length - 1) / ds.length
    let r := fillSlots (nslot s) ((List.range rounds).flatMap (fun _ => ring)) [] s.flash.dies
    if r.1.length < nslot s then none else some r

/-! ## Pages (R404 to R408) -/

/-- Bytes padded with zeros to a length. -/
def padTo (n : Nat) (bs : List Byte) : List Byte := bs ++ List.replicate (n - bs.length) 0

/-- RAW_MASK of a page (R406). -/
def rawMask (rs : List FRec) : Nat := (List.range rs.length).foldl (fun m i => if (rs[i]?.map (fun r => r.raw)).getD false then m + 2 ^ i else m) 0

/-- KEY of the first record, 0 where there is none. -/
def firstKey (rs : List FRec) : Nat := match rs with | r :: _ => r.key | [] => 0

/-- A data page (R406). -/
def dataPage (seq page : Nat) (rs : List FRec) : List Byte :=
  padTo 16384 (leBytes 2 0x5347 ++ leBytes 2 page ++ leBytes 4 rs.length ++ leBytes 8 seq ++ leBytes 8 (firstKey rs) ++ leBytes 8 (rawMask rs) ++
    rs.flatMap (fun r => leBytes 4 (r.channel + bitOf r.raw * 2 ^ 14 + r.ratio * 2 ^ 15) ++ leBytes 4 r.key ++ r.bytes))

/-- An index entry of a data page position (R407). -/
def indexEntry (g : Seg) (p : Nat) : List Byte :=
  if g.d < p then leBytes 16 0
  else
    let rs := mapGet [] p g.pages
    leBytes 4 (firstKey rs) ++ leBytes 4 (rs.length + 256 * bitOf (mapFind? p g.skipped).isSome) ++ leBytes 8 (rawMask rs)

/-- One of the four index pages (R405, R407). -/
def indexPage (g : Seg) (i : Nat) : List Byte :=
  padTo 16384 ((List.range 1024).flatMap (fun j => if 1024 * i + j < 4090 then indexEntry g (1024 * i + j + 1) else []))

/-- The records of a segment on flash. -/
def Seg.recs (g : Seg) : List FRec := g.pages.flatMap (fun p => p.2)

/-- Ticks that records cover, from the earliest sample to the one after the latest. -/
def recSpan (rs : List FRec) : Option (Nat × Nat) :=
  match rs with
  | [] => none
  | r :: t => some (t.foldl (fun a x => (min a.1 x.ext, max a.2 (x.ext + 192))) (r.ext, r.ext + 192))

/-- CHANNELS of a header (R408). -/
def channelMap (rs : List FRec) : List Byte :=
  (List.range 2048).map (fun i => BitVec.ofNat 8 ((List.range 8).foldl (fun b j => if rs.any (fun r => r.channel == 8 * i + j) then b + 2 ^ j else b) 0))

/-- The segment header page, or with `opening` the open record (R405, R408). -/
def headerPage (opening : Bool) (seq tStart n : Nat) (g : Seg) : List Byte :=
  let rs := if opening then [] else g.recs
  let tEnd := match recSpan rs with | some x => x.2 | none => 0
  let head := leBytes 2 (if opening then 0x534F else 0x5348) ++ leBytes 2 1 ++
    leBytes 4 (bitOf g.reloc + 2 * bitOf g.short + 4 * bitOf g.step) ++ leBytes 8 seq ++ leBytes 8 tStart ++ leBytes 8 tEnd ++ leBytes 8 g.orig ++
    leBytes 2 g.d ++ leBytes 2 n ++ leBytes 4 rs.length ++ leBytes 4 (rs.filter (fun r => r.raw)).length
  let slots := g.slots.flatMap (fun x => leBytes 4 (x.1 % 256 + 256 * x.2))
  let body := padTo 0x800 (padTo 0x40 head ++ slots) ++ (if opening then List.replicate 2048 0 else channelMap rs)
  padTo 16384 (body ++ leBytes 4 (crc32 body))

/-- FLC programs a page position of a segment: main bytes, and in the spare area the parity of the four codewords (R402 to R404). -/
def emitPage (g : Seg) (p : Nat) (main : List Byte) (s : State) : State :=
  let n := nslot s
  let slot := g.slots.getD (p % n) (0, 0)
  let spare := (List.range 4).flatMap (fun c => flashParity ((main.drop (4096 * c)).take 4096))
  pmuEvent 265 0x701 1 (s.emit (.flashPage slot.1 slot.2 (p / n) main spare))

/-! ## Segments -/

/-- Data records of a segment that are still in staging. -/
def stagedRecs (s : State) (q : Nat) : List FRec :=
  (s.flc.progs.map (fun p => p.staging) ++ s.flc.full ++ s.flc.page.toList).flatMap (fun p => if p.seg = q then p.recs else [])

/-- The range of a segment, with what is still in staging. -/
def segSpan (s : State) (q : Nat) (g : Seg) : Option (Nat × Nat) := recSpan (g.recs ++ stagedRecs s q)

/-- A segment is locked by a protected capture point (R415). -/
def segLockedBy (s : State) (ps : List CapPoint) (q : Nat) (g : Seg) : Bool :=
  match segSpan s q g with
  | some (a, b) => ps.any (fun p => p.protect && decide (a ≤ p.tTo) && decide (p.tFrom < b))
  | none => false

/-- The protected points' locks. -/
def capPoints (s : State) : List CapPoint := s.flc.points.map (fun p => p.2)

/-- Segments locked by some points (R415, R426). -/
def lockedCount (s : State) (ps : List CapPoint) : Nat := (s.flash.segs.filter (fun g => !g.2.old && segLockedBy s ps g.1 g.2)).length

/-- Free blocks on writable dies. -/
def freeBlocks (s : State) : Nat := (s.flash.dies.map (fun d => if d.2.readOnly then 0 else d.2.free.length)).foldl (· + ·) 0

/-- Spare blocks on writable dies. -/
def spareBlocks (s : State) : Nat := (s.flash.dies.map (fun d => if d.2.readOnly then 0 else d.2.spare.length)).foldl (· + ·) 0

/-- FLC_SEG_TOTAL (R426). -/
def segTotal (s : State) : Nat :=
  ((s.flash.dies.map (fun d => d.2.free.length)).foldl (· + ·) 0 + (s.flash.segs.map (fun g => g.2.slots.length)).foldl (· + ·) 0 + s.flash.erasing.length) / nslot s

/-- FLC_SEG_FREE (R426). -/
def segFree (s : State) : Nat := freeBlocks s / nslot s

/-- A replay reads a segment. -/
def replayReads (s : State) (q : Nat) : Bool := s.flc.replays.any (fun r => r.2.seg == some q)

/-- The segment that reclaim would take: the lowest ORIG_SEQ that is closed, not locked and not read (R414). -/
def reclaimNext (s : State) : Option Nat :=
  let ok := s.flash.segs.filter (fun g => g.2.closed && !g.2.old && !segLockedBy s (capPoints s) g.1 g.2 && !replayReads s g.1)
  match ok with
  | [] => none
  | g :: t => some (t.foldl (fun a x => if x.2.orig < a.2.orig then x else a) g).1

/-- A slot that takes no more pages: its block is retired or its die READ_ONLY (R411, R418). -/
def slotDead (s : State) (g : Seg) (i : Nat) : Bool :=
  (mapFind? i g.dead).isSome || (mapGet {} (g.slots.getD i (0, 0)).1 s.flash.dies).readOnly

/-- The next page position after `p` that a live slot holds, and the positions skipped. -/
def nextPos (s : State) (g : Seg) : Nat → Nat → List Nat → Nat × List Nat
  | 0, p, skipped => (p + 1, skipped)
  | fuel + 1, p, skipped => if slotDead s g ((p + 1) % nslot s) then nextPos s g fuel (p + 1) (skipped ++ [p + 1]) else (p + 1, skipped)

/-- Index and header of a segment that closes (R405). -/
def closePages (q : Nat) (s : State) : State :=
  match s.seg? q with
  | none => s
  | some g =>
    let start := match recSpan g.recs with | some x => x.1 | none => 0
    let pages := (List.range 4).map (indexPage g) ++ [headerPage false q start (nslot s) g]
    (pages.foldl (fun (a : Nat × State) main =>
      let p := (nextPos s g 64 a.1 []).1
      (p, emitPage g p main a.2)) (g.d, s)).2

/-- A closing segment closes once none of its pages is in staging (R405, R422). -/
def tryClose (q : Nat) (s : State) : State :=
  match s.seg? q with
  | none => s
  | some g =>
    let staged := s.flc.full.any (fun p => p.seg == q) || s.flc.progs.any (fun p => p.staging.seg == q) || s.flc.page.map (fun p => p.seg) == some q
    if !g.closing || g.closed || staged then s
    else
      let s := closePages q s
      let s := (s.updSeg q (fun g => { g with closed := true })).bump fFlcSegWrittenCount 1
      if s.flag fFlcStatRunning || s.flc.seg.isSome || s.flash.segs.any (fun g => g.2.closing && !g.2.closed) then s
      else finishWait .capStop eOk [] s

/-- The open segment closes: its page in staging is its last (R405). -/
def requestClose (short step : Bool) (s : State) : State :=
  match s.flc.seg with
  | none => s
  | some q =>
    let s := s.setFlc (fun f => { f with seg := none, page := none, full := f.full ++ f.page.toList })
    tryClose q (s.updSeg q (fun g => { g with closing := true, short := short && decide (g.d < 4090), step := step }))

/-- Opens a segment, with its open record (R405, R408 to R410). -/
def openSegment (tStart : Nat) (s : State) : Option State :=
  match rotate s with
  | none => none
  | some (slots, dies) =>
    let q := s.flash.nextSeq
    let g : Seg := { orig := q, slots := slots }
    let s := s.setFlash (fun a => { a with dies := dies, nextSeq := (q + 1) % W64, segs := mapInsert q g a.segs })
    let s := s.setFlc (fun f => { f with seg := some q, turn := f.turn + slots.length })
    some (emitPage g 0 (headerPage true q tStart (nslot s) g) s)

/-- The halt condition holds and reclaim has nothing left to take (R413, R423). -/
def haltHolds (s : State) : Bool :=
  (reclaimNext s).isNone && (decide (freeBlocks s + spareBlocks s < s.fld fFlcCapMinSegs * nslot s) || (s.flc.seg.isNone && (rotate s).isNone))

/-- Capture halts (R413). -/
def haltCheck (s : State) : State :=
  if s.flag fFlcStatRunning && haltHolds s then
    let s := requestClose true false s
    flcEvent 2 0x22 (flcInt 0 ((s.setFld fFlcStatHalt 1).setFld fFlcStatRunning 0))
  else s

/-- Staging pages (R387, R426): 64 to a MiB. -/
def stagingPages (s : State) : Nat := s.fld fFlcStageSizeMib * 64

/-- Bytes of a page that records use (R406). -/
def pageUsed (rs : List FRec) : Nat := 32 + (rs.map (fun r => 8 + r.bytes.length)).foldl (· + ·) 0

/-- A page for the next record: the open segment, or a new one where it is full, and a free staging page (R390, R405). -/
def newPage (ext : Nat) (s : State) : Bool × State :=
  let busy := s.flc.full.length + s.flc.progs.length
  if stagingPages s ≤ busy then (false, s)
  else
    let s := match s.flc.seg.bind (fun q => (s.seg? q).map (fun g => (q, g))) with
      | some (q, g) => if 4090 ≤ g.d + (s.flc.full.filter (fun (p : StagePage) => p.seg == q)).length then requestClose false false s else s
      | none => s
    match s.flc.seg with
    | some q => (true, s.setFlc (fun f => { f with page := some ⟨q, []⟩ }))
    | none =>
      match openSegment ext s with
      | some s => (true, s.setFlc (fun f => { f with page := f.seg.map (fun q => ⟨q, []⟩) }))
      | none => (false, haltCheck s)

/-- Appends a record to the staging page, or answers that PACK must stop (R390). -/
def placeRec (r : FRec) (s : State) : Bool × State :=
  let s := match s.flc.page with
    | some p => if 16384 < pageUsed p.recs + 8 + r.bytes.length then s.setFlc (fun f => { f with page := none, full := f.full ++ [p] }) else s
    | none => s
  let (ok, s) := if s.flc.page.isSome then (true, s) else newPage r.ext s
  if ok then (true, s.setFlc (fun f => { f with page := f.page.map (fun p => { p with recs := p.recs ++ [r] }) })) else (false, s)

/-! ## Programs and erases (R387, R411, R412) -/

/-- A block is retired; its die gives a spare block, or becomes READ_ONLY (R411, R412). -/
def retireBlock (d b : Nat) (s : State) : State :=
  let s := s.updDie d (fun x => { x with retired := mapInsert b () x.retired })
  let s := flcEvent 2 0x20 (flcInt 3 (s.bump fFlcBlkRetiredCount 1))
  let x := mapGet ({} : Die) d s.flash.dies
  match bestBlock x x.spare with
  | some k => s.updDie d (fun x => { x with spare := mapErase k x.spare, free := mapInsert k () x.free })
  | none => if x.readOnly then s else flcEvent 2 0x21 (flcInt 1 (s.updDie d (fun x => { x with readOnly := true })))

/-- Capture blocks are discarded (R388, R389, R433). -/
def capDrop (n : Nat) (s : State) : State := if n = 0 then s else raiseFld 0x0F fPackIntStatCapDrop (s.bump fPackCapDropCount n)

/-- The oldest full staging page, a word of which HBM could not give, is dropped with its records (R432, R433). -/
def dropStaging (s : State) : State :=
  match s.flc.full with
  | [] => s
  | pg :: rest =>
    let (a, s) := (capDrop pg.recs.length (s.setFlc (fun f => { f with full := rest }))).draw
    tryClose pg.seg (umpEvent { cls := 1, source := 0x10, cause := 0x13, detail := a } s)

/-- FLC programs the oldest full staging page at its segment's next page (R387, R405). -/
def beginProgram (s : State) : State :=
  match s.flc.full with
  | [] => s
  | pg :: rest =>
    match s.seg? pg.seg with
    | none => s.setFlc (fun f => { f with full := rest })
    | some g =>
      let (p, skipped) := nextPos s g 4096 g.d []
      if p ≤ 4090 then
        let g' := { g with d := p, skipped := skipped.foldl (fun m x => mapInsert x () m) g.skipped }
        let s := s.updSeg pg.seg (fun _ => g')
        let s := s.setFlc (fun f => { f with full := rest, progs := f.progs ++ [⟨p, pg⟩] })
        let s := emitPage g' p (dataPage pg.seg p pg.recs) s
        if p = 4090 ∧ s.flc.seg = some pg.seg then requestClose false false s else s
      else
        let old := pg.seg
        let r := match s.flc.seg with
          | some q => if q = old then none else some (q, s)
          | none => (openSegment (match recSpan pg.recs with | some x => x.1 | none => 0) s).bind (fun s => s.flc.seg.map (fun q => (q, s)))
        match r with
        | some (q, s) => tryClose old (s.setFlc (fun f => { f with full := rest ++ [{ pg with seg := q }] }))
        | none => haltCheck (if s.flc.seg = some old then requestClose false false s else s)

/-- STAGING_PAGE_PROGRAM (R387). -/
def execStagingPageProgram (hbmOk : Bool) (s : State) : Host.Outcome State Fault Refusal :=
  .next (if !s.flag fFlcStatReady then s else if hbmGood s hbmOk then beginProgram s else dropStaging s)

/-- The oldest program ends (R387, R411). -/
def programDone (ok : Bool) (s : State) : State :=
  match s.flc.progs with
  | [] => s
  | p :: rest =>
    let q := p.staging.seg
    let s := s.setFlc (fun f => { f with progs := rest })
    if ok then tryClose q (s.updSeg q (fun g => { g with pages := mapInsert p.page p.staging.recs g.pages }))
    else
      let slot := match s.seg? q with | some g => g.slots.getD (p.page % nslot s) (0, 0) | none => (0, 0)
      let s := s.updSeg q (fun g => { g with skipped := mapInsert p.page () g.skipped, dead := mapInsert (p.page % nslot s) () g.dead })
      let s := s.setFlc (fun f => { f with full := p.staging :: f.full })
      haltCheck (retireBlock slot.1 slot.2 (s.bump fFlcProgFailCount 1))

/-- PAGE_PROGRAM_COMPLETE (R411). -/
def execPageProgramComplete (ok : Bool) (s : State) : Host.Outcome State Fault Refusal := .next (programDone ok s)

/-- A block erase ends (R411). -/
def eraseDone (d b : Nat) (ok : Bool) (s : State) : State :=
  if s.flag fFlcStatReady && s.flash.erasing.contains (d, b) then
    let s := s.setFlash (fun a => { a with erasing := a.erasing.erase (d, b) })
    if ok then s.updDie d (fun x => { x with free := mapInsert b () x.free })
    else haltCheck (retireBlock d b (s.bump fFlcEraseFailCount 1))
  else s

/-- BLOCK_ERASE_COMPLETE (R411). -/
def execBlockEraseComplete (die block : Nat) (ok : Bool) (s : State) : Host.Outcome State Fault Refusal := .next (eraseDone die block ok s)

/-! ## Reclaim and refresh (R414 to R417) -/

/-- Erases a segment's blocks on writable dies, retires those marked, and drops it from the index (R411, R412, R414). -/
def eraseSeg (q : Nat) (s : State) : State :=
  match s.seg? q with
  | none => s
  | some g =>
    let s := s.setFlash (fun a => { a with segs := mapErase q a.segs })
    (List.range g.slots.length).foldl (fun s i =>
      let x := g.slots.getD i (0, 0)
      if (mapFind? i g.dead).isSome || (mapGet {} x.1 s.flash.dies).readOnly then s
      else if (mapFind? i g.retire).isSome then retireBlock x.1 x.2 s
      else
        let s := s.updDie x.1 (fun d => { d with erases := mapUpd 0 x.2 (· + 1) d.erases })
        (s.setFlash (fun a => { a with erasing := a.erasing ++ [x] })).emit (.flashErase x.1 x.2)) s

/-- Old copies that no replay reads are reclaimed (R416). -/
def dropOld (s : State) : State :=
  (s.flash.segs.filter (fun g => g.2.old && !replayReads s g.1)).foldl (fun s g => eraseSeg g.1 s) s

/-- A record of a segment holds a tick. -/
def holdsTick (g : Seg) (t : Nat) : Bool := g.recs.any (fun r => decide (r.ext ≤ t) && decide (t < r.ext + 192))

/-- FLC reclaims the oldest segment it may while free space is short (R414, R417, R423). -/
def reclaim (s : State) : State :=
  let short := decide (segFree s < s.fld fFlcReclaimSegs) || (s.fld fFlcReclaimSegs == 0 && (rotate s).isNone)
  if !(s.flag fFlcStatReady && short) then s
  else match reclaimNext s with
    | none => haltCheck s
    | some q =>
      match s.seg? q with
      | none => s
      | some g =>
        let hit (p : CapPoint) : Bool := !p.protect && !p.lost && holdsTick g p.tFrom
        let s := if s.flc.points.any (fun p => hit p.2) then
            flcInt 2 (s.setFlc (fun f => { f with points := f.points.map (fun p => if hit p.2 then (p.1, { p.2 with lost := true }) else p) }))
          else s
        let s := match recSpan g.recs with | some r => s.setFlc (fun f => { f with gone := f.gone ++ [r] }) | none => s
        haltCheck (eraseSeg q (s.bump fFlcSegReclaimedCount 1))

/-- SEGMENT_RECLAIM (R414). -/
def execSegmentReclaim (s : State) : Host.Outcome State Fault Refusal := .next (reclaim s)

/-- Copies a segment, but for the pages with uncorrectable codewords (R416). -/
def relocate (q : Nat) (g : Seg) (s : State) : State :=
  match rotate s with
  | none => s
  | some (slots, dies) =>
    let n := s.flash.nextSeq
    let bad (p : Nat) : Bool := (mapFind? p g.lost).isSome
    let kept := (g.pages.filter (fun p => !bad p.1)).map (fun p => p.2)
    let lost := ((g.pages.filter (fun p => bad p.1)).map (fun p => p.2.length)).foldl (· + ·) 0
    let pages := (List.range kept.length).map (fun i => (i + 1, kept.getD i []))
    let g' : Seg := { orig := g.orig, reloc := true, slots := slots, pages := pages, d := kept.length, short := g.short, step := g.step, closing := true, closed := true }
    let s := s.setFlash (fun a => { a with dies := dies, nextSeq := (n + 1) % W64, segs := mapInsert n g' a.segs })
    let s := s.setFlc (fun f => { f with turn := f.turn + slots.length, lostRecs := f.lostRecs + lost })
    let start := match recSpan g.recs with | some x => x.1 | none => 0
    let s := emitPage g' 0 (headerPage true n start (nslot s) g') s
    let s := pages.foldl (fun s p => emitPage g' p.1 (dataPage n p.1 p.2) s) s
    let s := closePages n s
    dropOld ((s.updSeg q (fun g => { g with old := true })).bump fFlcSegRelocatedCount 1)

/-- The refresh scanner reads a segment (R416). `lost` lists the data pages in which it finds an uncorrectable codeword. -/
def refreshRead (q maxCorrected : Nat) (lost : List Nat) (s : State) : State :=
  if !s.flag fFlcStatReady || s.fld fFlcRefreshHours = 0 then s
  else match s.seg? q with
    | none => s
    | some g =>
      if !g.closed || g.old then s
      else
        let g' := { g with lost := lost.foldl (fun m p => mapInsert p () m) g.lost }
        if g.refresh || decide (s.fld fFlcCbRefresh < maxCorrected) || !g'.lost.isEmpty then relocate q g' (s.updSeg q (fun _ => g')) else s

/-- REFRESH_SEGMENT_READ (R416). -/
def execRefreshSegmentRead (seq maxCorrected : Nat) (lost : List Nat) (s : State) : Host.Outcome State Fault Refusal :=
  .next (refreshRead seq maxCorrected lost s)

/-- A page codeword's decode ends, after `reads` reads and `iters` iterations in all; `none` never converged (R377, R378, R403). -/
def codewordDecode (q page reads iters : Nat) (corrected : Option Nat) (s : State) : State :=
  if !s.flag fFlcCtlEn || !flashMayRun s then s
  else match s.seg? q with
    | none => s
    | some g =>
      let reads := max 1 (min reads (s.fld fFlcRetryCount + 1))
      let s := (s.bump fLdpcFlashJobsCount reads).bump fLdpcFlashIterCount (min iters (reads * s.fld fLdpcIterFlash))
      let s := pmuEvent 265 0x703 (reads - 1) (pmuEvent 265 0x702 1 (s.bump fFlcRereadCount (reads - 1)))
      let s := s.bump fLdpcFlashUnconvCount (if corrected.isNone then reads else reads - 1)
      match corrected with
      | none =>
        let s := s.updSeg q (fun g => { g with lost := mapInsert page () g.lost, refresh := true })
        flcEvent 1 0x23 (flcInt 4 (s.bump fFlcCwUncorrCount 1))
      | some n =>
        s.updSeg q (fun _ => { g with
          refresh := g.refresh || decide (s.fld fFlcCbRefresh < n)
          retire := if s.fld fFlcCbRetire < n then mapInsert (page % nslot s) () g.retire else g.retire })

/-- FLASH_CODEWORD_DECODE (R403). -/
def execFlashCodewordDecode (seq page reads iters : Nat) (corrected : Option Nat) (s : State) : Host.Outcome State Fault Refusal :=
  .next (codewordDecode seq page reads iters corrected s)

/-- A step of MTC closes the open segment (R58, R405, R418); one whose Δ is 0 moves no tick and closes none (DESIGN CHOICE, assumption 43). -/
def segmentStep (old new : Nat) (s : State) : State := if old = new then s else requestClose true true s

/-! ## Bring-up (R401, R419) -/

/-- A die of a new array: two system blocks, and 3 % of the rest as spare (R401). -/
def freshDie (good : Nat) : Die :=
  let n := good - 2
  let spare := n * 3 / 100
  { free := (List.range (n - spare)).map (fun i => (i + 2, ())), spare := (List.range spare).map (fun i => (i + 2 + n - spare, ())) }

/-- Formats an array (R401). -/
def formatArray (mask luns good : Nat) : FlashSt :=
  { journal := true
    dies := (List.range 256).filterMap (fun d =>
      if mask.testBit (8 * (d % 8) + d / 8 % 8) && decide (d / 64 < luns) then some (d, freshDie good) else none) }

/-- The targets found. -/
def targetMask (s : State) : Nat := s.fld fFlcTgtLoMask + 2 ^ 32 * s.fld fFlcTgtHiMask

/-- The newest segment that the index does not have. -/
def newestUnindexed (s : State) : Option Nat := ((s.flash.segs.filter (fun g => !g.2.indexed)).getLast?).map (fun g => g.1)

/-- The oldest tick that the index has, or now (R421). -/
def oldestT (s : State) : Nat :=
  (s.flash.segs.filterMap (fun g => if g.2.indexed then (segSpan s g.1 g.2).map (fun r => r.1) else none)).foldl min s.tick

/-- A step of the bring-up completes (R401, R419): targets found, journal loaded or array formatted, open segment entered as SHORT, and then one
header page after another, newest first. -/
def bringupStep (targets luns good : Nat) (s : State) : State :=
  match s.flc.bring with
  | 1 =>
    let s := (s.setFld fFlcTgtLoMask targets).setFld fFlcTgtHiMask (targets / 2 ^ 32)
    let s := if s.flash.journal then s else s.setFld fFlcStatFormat 1
    s.setFlc (fun f => { f with bring := 2 })
  | 2 =>
    let s := if s.flash.journal then s else s.setFlash (fun _ => formatArray (targetMask s) luns good)
    let s := s.flash.erasing.foldl (fun s x => s.updDie x.1 (fun d => { d with free := mapInsert x.2 () d.free })) s
    let s := s.setFlash (fun a => { a with erasing := [], segs := a.segs.map (fun g => (g.1, { g.2 with indexed := false })) })
    let s := ((s.setFld fFlcStatFormat 0).setFld fFlcStatReady 1).setFld fFlcStatRebuild 1
    s.setFlc (fun f => { f with bring := 3 })
  | 3 =>
    let s := s.setFlash (fun a => { a with segs := a.segs.map (fun g =>
      if g.2.closed || g.2.indexed then g else (g.1, { g.2 with short := true, closing := true, closed := true, indexed := true })) })
    s.setFlc (fun f => { f with bring := 4 })
  | 4 =>
    match newestUnindexed s with
    | some q =>
      let s := s.updSeg q (fun g => { g with indexed := true })
      s.setFld fFlcRebuildPct ((s.flash.segs.filter (fun g => g.2.indexed)).length * 100 / s.flash.segs.length)
    | none =>
      let s := (s.setFld fFlcRebuildPct 100).setFld fFlcStatRebuild 0
      flcInt 5 (s.setFlc (fun f => { f with bring := 5 }))
  | _ => s

/-- FLC_BRINGUP_STEP_COMPLETE (R419). -/
def execFlcBringupStepComplete (targets luns goodBlocks : Nat) (s : State) : Host.Outcome State Fault Refusal :=
  .next (bringupStep (targets % 2 ^ 64) luns goodBlocks s)

/-- A write to FLC_CTL (R419, R427): EN = 1 starts the bring-up, EN = 0 stops capture and replay and closes nothing. -/
def flcCtlWritten (was : Bool) (s : State) : State :=
  let now := s.flag fFlcCtlEn
  if now = was then s
  else
    let s := (((s.setFld fFlcStatReady 0).setFld fFlcStatRunning 0).setFld fFlcStatHalt 0).setFld fFlcStatRebuild 0
    let s := ((s.setFld fFlcStatFormat 0).setFld fFlcRebuildPct 0).setFlc (fun _ => { bring := bitOf now })
    finishWait .capStop eState [] s

/-! ## Capture and replay operations (R415, R420 to R422) -/

/-- CAP.START (R413, R422). -/
def execCapStart (h : KciHdr) (s : State) : Host.Outcome State Fault Refusal :=
  .next (kci 0x0801 h none (fun _ => []) (fun s =>
    if s.flag fFlcStatRunning || !s.flag fFlcStatReady then kciFail eState s
    else if s.fld fFlcStageSizeMib = 0 ∨ haltHolds s then kciFail eSpace s
    else kciOk ((s.setFld fFlcStatRunning 1).setFld fFlcStatHalt 0)) s)

/-- CAP.STOP (R405, R422): a job whose rest PACK holds is placed first. -/
def execCapStop (h : KciHdr) (s : State) : Host.Outcome State Fault Refusal :=
  .next (kci 0x0802 h none (fun _ => []) (fun s =>
    if !s.flag fFlcStatRunning then kciFail eState s
    else
      let s := s.setFld fFlcStatRunning 0
      if s.pack.hold.isSome then .wait .capStop (s.setFlc (fun f => { f with stopping := true }))
      else
        let s := requestClose true false s
        if s.flash.segs.any (fun g => g.2.closing && !g.2.closed) then .wait .capStop s else kciOk s) s)

/-- A tick lies in a segment that reclaim has taken (R417, R421). -/
def reclaimed (s : State) (t : Nat) : Bool :=
  s.flc.gone.any (fun r => decide (r.1 ≤ t) && decide (t < r.2)) ||
  (!s.flag fFlcStatRebuild && decide (t < oldestT s) && !s.flash.segs.any (fun g => g.2.orig == 0) && decide (0 < s.flash.nextSeq))

/-- The lowest point not placed. -/
def freePoint (s : State) : Option Nat := (List.range 256).find? (fun i => (mapFind? i s.flc.points).isNone)

/-- CAP.POINT (R415, R417, R422). -/
def execCapPoint (h : KciHdr) (tFrom tTo protect : Nat) (s : State) : Host.Outcome State Fault Refusal :=
  .next (kci 0x0803 h none (fun s => [chkRange tFrom 0 (W64 - 1), chk (decide (tFrom ≤ tTo) && decide (tTo ≤ s.tick)) eRange, chkRange protect 0 1]) (fun s =>
    let x : CapPoint := { tFrom := tFrom, tTo := tTo, protect := protect == 1 }
    match freePoint s with
    | none => kciFail eSpace s
    | some i =>
      if x.protect ∧ segTotal s < 4 * lockedCount s (capPoints s ++ [x]) then kciFail eSpace s
      else if reclaimed s tFrom then kciFail eLost s
      else .done eOk [i] (s.setFlc (fun f => { f with points := mapInsert i x f.points }))) s)

/-- CAP.POINT_CLEAR (R422). -/
def execCapPointClear (h : KciHdr) (point : Nat) (s : State) : Host.Outcome State Fault Refusal :=
  .next (kci 0x0804 h (keyPoint point) (fun _ => [chkRange point 0 255]) (fun s =>
    if (mapFind? point s.flc.points).isNone then kciFail eState s
    else kciOk (s.setFlc (fun f => { f with points := mapErase point f.points }))) s)

/-- Where a record of a channel is found: its segment, whether its page is lost, and the record; the segment that a replay reads comes first,
then the newest copy (R416, R418, R420). -/
def findRec (s : State) (prefer : Option Nat) (ok : FRec → Bool) : Option (Nat × Bool × FRec) :=
  let inSeg (x : Nat × Seg) : List (Nat × Bool × FRec) :=
    if x.2.indexed then
      x.2.pages.flatMap (fun p => (p.2.filter ok).map (fun r => (x.1, (mapFind? p.1 x.2.lost).isSome, r))) ++
        ((stagedRecs s x.1).filter ok).map (fun r => (x.1, false, r))
    else []
  let first := s.flash.segs.filter (fun x => some x.1 == prefer)
  let rest := (s.flash.segs.filter (fun x => !x.2.old)).reverse
  ((first ++ rest).flatMap inSeg).head?

/-- The extended tick of a replay's first block: that of the block whose range holds the start, else the start itself (R420). -/
def replayStart (s : State) (channel t : Nat) : Nat :=
  match findRec s none (fun r => r.channel == channel && decide (r.ext ≤ t) && decide (t < r.ext + 192)) with
  | some x => x.2.2.ext
  | none => t

/-- CAP.REPLAY (R420 to R422). -/
def execCapReplay (h : KciHdr) (op : ReplayOp) (s : State) : Host.Outcome State Fault Refusal :=
  .next (kci 0x0805 h (keyQueue op.queue) (fun _ =>
      [chkRange op.channel 0 16383, if op.byPoint then chkRange op.from_ 0 255 else chkRange op.from_ 0 (W64 - 1), chkZero op.count,
       chkRange op.count 1 (W32 - 1), chkRange op.queue 0 65535]) (fun s =>
    let pt := if op.byPoint then mapFind? op.from_ s.flc.points else none
    let t := if op.byPoint then (pt.map (fun p => p.tFrom)).getD 0 else op.from_
    if !queueIs s op.queue .fifo || (op.byPoint && pt.isNone) || !s.flag fFlcStatReady then kciFail eState s
    else if s.flag fFlcStatRebuild ∧ t < oldestT s then .done eState (s.fld fFlcRebuildPct :: 0 :: slot8 (oldestT s)) s
    else match (List.range 16).find? (fun i => (mapFind? i s.flc.replays).isNone) with
      | none => kciFail eBusy s
      | some i =>
        if reclaimed s t || (pt.map (fun p => p.lost)).getD false then .done eLost (slot8 (oldestT s)) s
        else
          let r : Replay := { channel := op.channel, next := replayStart s op.channel t, left := op.count, queue := op.queue }
          kciOk (s.setFlc (fun f => { f with replays := mapInsert i r f.replays }))) s)

/-- A point's state for CAP.STATS: 1 placed, 2 protected, 3 MARK_LOST. -/
def pointState (p : CapPoint) : Nat := if p.lost then 3 else if p.protect then 2 else 1

/-- The CAP.STATS record (R422). -/
def capWords (s : State) : List Nat :=
  [s.fld fFlcStatRunning, s.fld fFlcStatHalt, s.flash.segs.length, s.fld fFlcSegWrittenCount, s.fld fFlcSegReclaimedCount, s.fld fFlcSegRelocatedCount,
   segTotal s, segFree s, lockedCount s (capPoints s), s.flc.lostRecs % W32] ++ slot8 (oldestT s) ++
  s.flc.points.flatMap (fun p => [p.1, pointState p.2] ++ slot8 p.2.tFrom ++ slot8 p.2.tTo)

/-- CAP.STATS (R422). -/
def execCapStats (h : KciHdr) (clear : Bool) (s : State) : Host.Outcome State Fault Refusal :=
  .next (kci 0x0806 h none (fun _ => []) (fun s =>
    .record (capWords s) (if clear then
      (((s.setFld fFlcSegWrittenCount 0).setFld fFlcSegReclaimedCount 0).setFld fFlcSegRelocatedCount 0).setFlc (fun f => { f with lostRecs := 0 })
      else s)) s)

/-! ## Views (R426) -/

/-- FLC_DINFO.STATE of the selected die. -/
def dieState (s : State) : Nat :=
  let d := s.fld fFlcDselDie
  match mapFind? d s.flash.dies with
  | some x => if s.flag fFlcStatReady && (targetMask s).testBit (8 * (d % 8) + d / 8 % 8) then if x.readOnly then 2 else 1 else 0
  | none => 0

/-- The selected die; one that is ABSENT shows nothing. -/
def selectedDie (s : State) : Die := if dieState s = 0 then {} else mapGet {} (s.fld fFlcDselDie) s.flash.dies

/-- FLC_DERASE of the selected die, saturating. -/
def dieErases (s : State) : Nat :=
  let d := selectedDie s
  let blocks := (d.free ++ d.spare).map (fun b => b.1) ++ (s.flash.segs.flatMap (fun g => (g.2.slots.filter (fun x => x.1 == s.fld fFlcDselDie)).map (fun x => x.2)))
  let cs := blocks.map (fun b => mapGet 0 b d.erases)
  if dieState s = 0 then 0
  else min 65535 (match cs with | [] => 0 | c :: t => t.foldl min c) + 65536 * min 65535 (cs.foldl max 0)

end Sys2Proof.Machine
end

