-- ==== Sys2Proof/Machine/Pack.lean ====
section
/-!
DEFINITION. Pack.lean: capture jobs, the host jobs of PACK, and the delivery of replayed blocks (R387 to R399, R420, R422, R425).
-/

namespace Sys2Proof.Machine

/-! ## Capture jobs (R387 to R390) -/

/-- Blocks of a capture job, as its buffer says (R388). -/
def jobCount (s : State) (e : Entry) : Nat := if e.nobuf then 0 else bits (bufWord s e.handle 0) 0 3

/-- The record of a block of a capture job, and whether it was coded (R388, R390, R406). -/
def jobRecord (s : State) (e : Entry) (i : Nat) : FRec × Bool :=
  let ratio := s.fld fPackCapcfgRatio
  let raw := bufRead s e.handle (16 + 576 * i) 576
  let ch := leNat (bufRead s e.handle (2 + 2 * i) 2) % 16384
  let ext := (nearTick s e.key).toNat
  match packEncode ratio raw with
  | some b => (⟨ch, false, ratio, e.key, ext, b⟩, true)
  | none => (⟨ch, true, 0, e.key, ext, raw⟩, false)

/-- The open segment closes at CAP.STOP, once the held job is placed (R405, R422). -/
def stopDone (s : State) : State :=
  if s.flc.stopping then
    let s := requestClose true false (s.setFlc (fun f => { f with stopping := false }))
    if s.flash.segs.any (fun g => g.2.closing && !g.2.closed) then s else finishWait .capStop eOk [] s
  else s

/-- PACK codes the blocks of a job from block `i`, until no staging page is free (R390). -/
def codeBlocks (e : Entry) (loan : Bool) (n : Nat) : Nat → Nat → State → State
  | 0, _, s => s
  | fuel + 1, i, s =>
    if n ≤ i then stopDone (releaseEntry e loan { s with pack := { s.pack with hold := none } })
    else
      let (r, coded) := jobRecord s e i
      let (ok, s) := placeRec r s
      if ok then codeBlocks e loan n fuel (i + 1) (s.bump (if coded then fPackCodedCount else fPackNofitCount) 1)
      else { s with pack := { s.pack with hold := some (e, loan, i) } }

/-- PACK pops a capture job and codes or discards it (R387 to R390). -/
def capturePop (s : State) : State :=
  if !s.flag fPackCtlEn || s.pack.hold.isSome then s
  else match portPop (s.fld fPackCapqQueue) none (some (s.fld fPackAccountAccount)) s with
    | (none, s) => s
    | (some (i, loan), s) =>
      let n := jobCount s i.e
      if n = 0 ∨ i.e.len ≠ 16 + 576 * n then releaseEntry i.e loan (capDrop n (s.bump fPackCapBadCount 1))
      else if !s.flag fFlcStatRunning then releaseEntry i.e loan (capDrop n s)
      else codeBlocks i.e loan n (n + 1) 0 (s.bump fPackCapJobsCount 1)

/-- CAPTURE_JOB_POP (R390). -/
def execCaptureJobPop (s : State) : Host.Outcome State Fault Refusal := .next (capturePop s)

/-- PACK continues with the job it holds, or drops its rest where capture has halted (R389, R390, R399). -/
def captureResume (s : State) : State :=
  match s.pack.hold with
  | none => s
  | some (e, loan, i) =>
    let n := jobCount s e
    if s.flag fFlcStatRunning || s.flc.stopping then codeBlocks e loan n (n + 1) i s
    else releaseEntry e loan (capDrop (n - i) { s with pack := { s.pack with hold := none } })

/-- CAPTURE_STAGING_RESUME (R390). -/
def execCaptureStagingResume (s : State) : Host.Outcome State Fault Refusal := .next (captureResume s)

/-! ## Host jobs (R397, R398, R422) -/

/-- Changes PACK's host jobs. -/
def State.setJobs (s : State) (f : List (Nat × PackJob) → List (Nat × PackJob)) : State :=
  let s := { s with pack := { s.pack with jobs := f s.pack.jobs } }
  s.setFld fPackJobsHeld s.pack.jobs.length

/-- A region that starts at a multiple of 64 and lies within HBM (R397). -/
def chkRegion (a n : Nat) : Check := chk (decide (a % 64 = 0) && decide (a + n ≤ 2 ^ 35)) eRange

/-- Operand checks of PACK.JOB, in order (R397, R422). -/
def packChecks (decode : Bool) (o : PackOp) : List Check :=
  [chkRange o.ratio 0 2, chkZero o.count, chkRange o.count 1 65535,
   chkRegion o.inAddr (o.count * (if decode then ratioBytes o.ratio else 576)), chkRegion o.outAddr 0, chkZero o.outLen,
   chkRegion o.outAddr o.outLen, chkRegion o.mapAddr ((o.count + 7) / 8)]

/-- PACK.JOB is accepted and held until it ends (R397, R398). -/
def startJob (decode : Bool) (o : PackOp) (s : State) : KciRes :=
  match (List.range 16).find? (fun i => (mapFind? i s.pack.jobs).isNone) with
  | none => kciFail eBusy s
  | some i => .wait (.job i) (s.setJobs (fun m => mapInsert i { decode := decode, op := o } m))

/-- PACK.JOB with OP = ENCODE (R397). -/
def execPackJobEncode (h : KciHdr) (op : PackOp) (s : State) : Host.Outcome State Fault Refusal :=
  .next (kci 0x0701 h none (fun _ => packChecks false op) (startJob false op) s)

/-- PACK.JOB with OP = DECODE (R397). -/
def execPackJobDecode (h : KciHdr) (op : PackOp) (s : State) : Host.Outcome State Fault Refusal :=
  .next (kci 0x0701 h none (fun _ => packChecks true op) (startJob true op) s)

/-- Sets the bit of a block in a job's bitmap (R397). -/
def setMapBit (a i : Nat) (s : State) : State :=
  let b := memRead s.hbm (a + i / 8)
  s.hbmWrite (a + i / 8) [b ||| BitVec.ofNat 8 (2 ^ (i % 8))]

/-- What coding one block of a job gives: the output bytes, none where the block is refused, and whether its bit is set (R397). -/
def jobBlock (j : PackJob) (s : State) : Option (List Byte) × Bool :=
  let t := ratioBytes j.op.ratio
  if j.decode then
    match packDecode j.op.ratio (memReadList s.hbm (j.op.inAddr + t * j.done) t) with
    | some b => (some b, false)
    | none => (some (List.replicate 576 0), true)
  else match packEncode j.op.ratio (memReadList s.hbm (j.op.inAddr + 576 * j.done) 576) with
    | some b => (some b, false)
    | none => (none, true)

/-- The counter of a block's outcome (R424). -/
def jobCounter (decode miss : Bool) : Fld :=
  if decode then if miss then fPackBadCount else fPackDecodedCount else if miss then fPackNofitCount else fPackCodedCount

/-- Runs a job until its last block or until the next block has no room (R397, R398). -/
def runJob : Nat → PackJob → State → PackJob × State
  | 0, j, s => (j, s)
  | fuel + 1, j, s =>
    if j.op.count ≤ j.done then (j, s)
    else
      let (out, miss) := jobBlock j s
      let n := match out with | some b => b.length | none => 0
      if j.op.outLen < j.used + n then ({ j with stopped := true }, s)
      else
        let s := match out with | some b => s.hbmWrite (j.op.outAddr + j.used) b | none => s
        let s := if miss then setMapBit j.op.mapAddr j.done s else s
        let s := s.bump (jobCounter j.decode miss) 1
        runJob fuel { j with done := j.done + 1, used := j.used + n, bytes := j.bytes + n, misses := j.misses + (if miss then 1 else 0) } s

/-- A host job ends or stops, and completes (R397, R398). -/
def jobEnd (i : Nat) (s : State) : State :=
  match mapFind? i s.pack.jobs with
  | none => s
  | some j0 =>
    if !s.flag fPackCtlEn || j0.stopped then s
    else
      let (j, s) := runJob (j0.op.count + 1) j0 s
      let words := [i, j.done, j.bytes, j.misses]
      if j.stopped then finishWait (.job i) eSpace words (raiseFld 0x0F fPackIntStatJobStop (s.setJobs (fun m => mapInsert i j m)))
      else finishWait (.job i) eOk words (s.setJobs (fun m => mapErase i m))

/-- PACK_HOST_JOB_END (R398). -/
def execPackHostJobEnd (job : Nat) (s : State) : Host.Outcome State Fault Refusal := .next (jobEnd job s)

/-- PACK.RESUME (R398, R399). -/
def execPackResume (h : KciHdr) (job outAddr outLen : Nat) (s : State) : Host.Outcome State Fault Refusal :=
  .next (kci 0x0702 h (keyJob job) (fun _ => [chkRange job 0 15, chkRegion outAddr 0, chkZero outLen, chkRegion outAddr outLen]) (fun s =>
    match mapFind? job s.pack.jobs with
    | some j =>
      if j.stopped then
        .wait (.job job) (s.setJobs (fun m => mapInsert job { j with stopped := false, used := 0, op := { j.op with outAddr := outAddr, outLen := outLen } } m))
      else kciFail eState s
    | none => kciFail eState s) s)

/-- PACK.DROP (R398, R399). -/
def execPackDrop (h : KciHdr) (job : Nat) (s : State) : Host.Outcome State Fault Refusal :=
  .next (kci 0x0703 h (keyJob job) (fun _ => [chkRange job 0 15]) (fun s =>
    match mapFind? job s.pack.jobs with
    | some j => if j.stopped then kciOk (s.setJobs (fun m => mapErase job m)) else kciFail eState s
    | none => kciFail eState s) s)

/-! ## Replay (R420) -/

/-- What a replay delivers for its next block: the raw block, or a status 1 ABSENT or 2 LOST, and the segment read. -/
def replayBlock (r : Replay) (uncorrectable : Bool) (s : State) : Option (List Byte) × Nat × Option Nat × State :=
  match findRec s r.seg (fun x => x.channel == r.channel && x.ext == r.next) with
  | none => (none, 1, r.seg, s)
  | some (q, lost, x) =>
    if lost || uncorrectable then (none, 2, some q, s)
    else if x.raw then (some x.bytes, 0, some q, s)
    else match packDecode x.ratio x.bytes with
      | some b => (some b, 0, some q, s.bump fPackDecodedCount 1)
      | none => (none, 2, some q, s.bump fPackBadCount 1)

/-- The entry of a replayed block is pushed, and the replay moves on (R420). -/
def replayPush (k : Nat) (r : Replay) (seg : Option Nat) (e : Entry) (s : State) : State :=
  let s := if queueIs s r.queue .fifo then mqPush r.queue e s else freeItem e s
  let r' : Replay := { r with next := r.next + 192, left := r.left - 1, pushed := r.pushed + 1, seg := seg }
  dropOld (s.setFlc (fun f => { f with replays := if r.left ≤ 1 then mapErase k f.replays else mapInsert k r' f.replays }))

/-- FLC delivers the next block of a replay, or waits for a buffer of its PORT account (R416, R420). -/
def replayDeliver (k : Nat) (uncorrectable : Bool) (s : State) : State :=
  match mapFind? k s.flc.replays with
  | none => s
  | some r =>
    let (b, status, seg, s1) := replayBlock r uncorrectable s
    let e : Entry := { nobuf := true, seq := r.pushed % 65536, key := r.next % W32, aux := status }
    match b with
    | none => replayPush k r seg e s1
    | some bytes =>
      match attached s 0x80 with
      | none => s
      | some a =>
        if (s.acct a).quota < (s.acct a).held + 3 ∨ s.seed.freeA < 3 then s
        else match seedAlloc a 3 .owned s1 with
          | (.ok h, s1) => replayPush k r seg { e with handle := h, nobuf := false, len := 576 } (bufWrite h 0 bytes s1)
          | (_, _) => s

/-- REPLAY_BLOCK_DELIVERY (R420). -/
def execReplayBlockDelivery (replay : Nat) (uncorrectable : Bool) (s : State) : Host.Outcome State Fault Refusal :=
  .next (replayDeliver replay uncorrectable s)

end Sys2Proof.Machine
end

