-- ==== Sys2Proof/Machine/Rfp.lean ====
section
/-!
DEFINITION. Rfp.lean: the radio sample ports: JESD204B links, numbering, DC blocker, carriers and sample tap (R326 to R345).
-/

namespace Sys2Proof.Machine

/-- The receive link of a port may run. -/
def rxEnabled (s : State) (p : Nat) : Bool := decide (p < 8) && s.flag (fRfpCtlEn p) && s.flag (fRfpCtlRxEn p)

/-- The receive link of a port carries data. -/
def rxUp (s : State) (p : Nat) : Bool := rxEnabled s p && s.flag (fRfpStatRxData p)

/-- K and L of a carrier (R334). -/
def carKL (s : State) (p c : Nat) : Nat × Nat :=
  match s.fld (fRfpCarCtlPreset p c) with
  | 0 => (2, 5)
  | 1 => (3, 5)
  | 2 => (4, 10)
  | _ => (s.fld (fRfpCarCtlK p c), s.fld (fRfpCarCtlL p c))

/-- The first tick boundary at or after a position (R338). -/
def ceilTick (pos : Int) : Int := (pos + 639) / 640 * 640

/-- Register set of a port as a staging target (R296). -/
def rfpId (p : Nat) : Nat := 0x60 + p

/-- The staged fields of a carrier (R344). -/
def carRegs (c : Nat) : List (Nat × Nat) := [(0x100 + 0x20 * c, 0x000F1F77), (0x104 + 0x20 * c, 0xFFFFFFFF)]

/-! ## Sync reset (R338 to R340) -/

/-- A carrier's sync reset at a reset point, under a set scheduled for it. -/
def syncReset (p c : Nat) (point : Int) (s : State) : State :=
  let s := commitRegs (rfpId p) (carRegs c) s
  let (k, l) := carKL s p c
  let z : List Word := List.replicate k 0
  let on := s.flag (fRfpCarCtlEn p c)
  let s := s.updCarrier p c (fun _ =>
    { integI := z, integQ := z, combI := z, combQ := z, start := some (point + s.fld (fRfpCarCtlPhase p c)), left := k + 7 })
  (s.bump (fRfpCarResetsCount p c) 1).setFld (fRfpCarStatModem p c) (bitOf (on && (l == 5 || l == 10)))

/-- Makes a sync reset due, at the first tick boundary once the numbering is known. -/
def dueReset (p c : Nat) (s : State) : State :=
  let at_ := if rxUp s p then (s.rport p).pos.map ceilTick else none
  s.updCarrier p c (fun x => { x with due := true, at_ := at_ })

/-- The reset points of the resets that are due move with the numbering (R328, R329, R340). -/
def placeResets (p : Nat) (s : State) : State :=
  (List.range 12).foldl (fun s c => if (s.carrier p c).due then dueReset p c s else s) s

/-- The sync reset of a carrier at its reset point. -/
def resetAtPoint (p c : Nat) (s : State) : State :=
  let x := s.carrier p c
  match x.at_, (s.rport p).pos with
  | some r, some n => if x.due ∧ r = n ∧ rxUp s p then syncReset p c r s else s
  | _, _ => s

/-- CARRIER_SYNC_RESET (R338). -/
def execCarrierSyncReset (port carrier : Nat) (s : State) : Host.Outcome State Fault Refusal :=
  .next (if port < 8 ∧ carrier < 12 then resetAtPoint port carrier s else s)

/-! ## The chain (R330 to R339) -/

/-- Integrators at the input rate, each adding the one before it (R333). -/
def integrate (x : Word) : List Word → List Word
  | [] => []
  | r :: t => (r + x) :: integrate (r + x) t

/-- Combs of delay 1: the output and the new registers (R333). -/
def combs (v : Word) : List Word → Word × List Word
  | [] => (v, [])
  | r :: t =>
    let (y, t') := combs (v - r) t
    (y, v :: t')

/-- Normalisation by M (R335). -/
def normalise (k l : Nat) (v : Word) : Int := clampS 18 (rne (v.toInt * rne (2 ^ 30) (l ^ k)) (2 ^ 30))

/-- The compensated output and whether it was clamped (R335). -/
def compensate (hist : List Int) : Int × Bool := clampFlag 16 (rne (dot compTaps hist) (2 ^ 19))

/-- The mixer: I1, Q1 and whether either was clamped (R332). -/
def mix (phi : Word) (i q : Int) : Int × Int × Bool :=
  let n := phi.toNat / 16384
  let a := clampFlag 18 (rne (i * mixC n + q * mixS n) 32768)
  let b := clampFlag 18 (rne (q * mixC n - i * mixS n) 32768)
  (a.1, b.1, a.2 || b.2)

/-- The sample tap takes an output of the tapped carrier; a change of CAR waits for the next item (R342). -/
def tapOutput (p c : Nat) (o : CarOut) (s : State) : State :=
  if s.flag (fRfpTapEn p) then
    let r := s.rport p
    let car := if r.tap.length % 256 = 0 then s.fld (fRfpTapCar p) else r.tapCar
    if c = car then s.updRport p (fun r => { r with tapCar := car, tap := r.tap ++ [o] }) else s
  else s

/-- A carrier's output (R335, R337, R339, R376). -/
def carrierOutput (p c : Nat) (pos : Int) (s : State) : State :=
  let x := s.carrier p c
  let (k, l) := carKL s p c
  let (vi, ci) := combs (x.integI.getLastD 0) x.combI
  let (vq, cq) := combs (x.integQ.getLastD 0) x.combQ
  let hi := (normalise k l vi :: x.histI).take 15
  let hq := (normalise k l vq :: x.histQ).take 15
  let zi := compensate hi
  let zq := compensate hq
  let set := decide (0 < x.left)
  let s := s.updCarrier p c (fun x => { x with combI := ci, combQ := cq, histI := hi, histQ := hq, left := x.left - 1 })
  let s := if zi.2 || zq.2 then s.bump (fRfpOutClipCount p) 1 else s
  let s := tapOutput p c ⟨zi.1, zq.1, pos, set⟩ (s.setFld (fRfpCarStatSettling p c) (bitOf set))
  if set then abandonRx p (fun d => d == c) s else s

/-- An input sample in an enabled carrier (R332, R333, R337, R338). -/
def carrierSample (p c : Nat) (pos y1 y2 : Int) (s : State) : State :=
  let s := resetAtPoint p c s
  let x := s.carrier p c
  match x.start with
  | none => s
  | some st =>
    if !s.flag (fRfpCarCtlEn p c) then s
    else
      let f := BitVec.ofNat 32 (s.fld (fRfpCarFreqFreq p c))
      let (i1, q1, clip) := mix x.phi y1 y2
      let s := if clip then s.bump (fRfpMixClipCount p) 1 else s
      let s := s.updCarrier p c (fun x => { x with phi := x.phi + f, phiTx := x.phiTx + f })
      if pos < st then s
      else
        let s := s.updCarrier p c (fun x => { x with
          integI := integrate (BitVec.ofInt 32 i1) x.integI, integQ := integrate (BitVec.ofInt 32 q1) x.integQ })
        if (pos - st + 1) % ((carKL s p c).2 : Int) = 0 then carrierOutput p c pos s else s

/-- The DC estimate is held for the next sample (R331). Without numbering no slot is known, and FREEZE = 2 holds nothing. -/
def dcHeld (s : State) (p : Nat) : Bool :=
  match s.fld (fRfpDcbFreeze p), (s.rport p).pos with
  | 1, _ => true
  | 2, some n => decide (slotNo (n / 640).toNat < 5)
  | _, _ => false

/-- The new estimate, and the blocker's output with whether it was clamped (R330). -/
def dcBlock (held : Bool) (k : Nat) (e prev x : Int) : Int × Int × Bool :=
  let e := if held then e else e + rne (prev * 65536 - e) (2 ^ k)
  let y := clampFlag 16 (rne (x * 65536 - e) 65536)
  (e, y.1, y.2)

/-- A received input sample passes the DC blocker and the carriers (R330 to R339). -/
def rxSample (p : Nat) (i q : Int) (s : State) : State :=
  if !rxUp s p then s
  else
    let r := s.rport p
    let k := s.fld (fRfpDcbK p)
    let held := dcHeld s p
    let a := dcBlock held k (signedOf 32 (s.fld (fRfpDcbEstIEst p))) r.prevI i
    let b := dcBlock held k (signedOf 32 (s.fld (fRfpDcbEstQEst p))) r.prevQ q
    let s := (s.setFld (fRfpDcbEstIEst p) (patternOf 32 a.1)).setFld (fRfpDcbEstQEst p) (patternOf 32 b.1)
    let s := if a.2.2 || b.2.2 then s.bump (fRfpDcClipCount p) 1 else s
    let s := s.updRport p (fun r => { r with prevI := i, prevQ := q })
    match r.pos with
    | none => s
    | some n =>
      let s := (List.range 12).foldl (fun s c => carrierSample p c n a.2.1 b.2.1 s) s
      s.updRport p (fun r => { r with pos := some (n + 1) })

/-- JESD_RX_SAMPLE (R330). -/
def execJesdRxSample (port : Nat) (i q : Int) (s : State) : Host.Outcome State Fault Refusal := .next (rxSample port (clampS 16 i) (clampS 16 q) s)

/-! ## Links and numbering (R326 to R329) -/

/-- A character error: counted, and the sample replaced by the previous one (R327): 0 disparity, 1 not in table, 2 unexpected control. -/
def charError (p kind : Nat) (s : State) : State :=
  if !rxUp s p then s
  else
    let s := s.bump (if kind = 0 then fRfpRxDispCount p else if kind = 1 then fRfpRxNitCount p else fRfpRxUnexpCount p) 1
    rxSample p (s.rport p).prevI (s.rport p).prevQ s

/-- JESD_RX_CHARACTER_ERROR (R327). -/
def execJesdRxCharacterError (port kind : Nat) (s : State) : Host.Outcome State Fault Refusal := .next (charError port kind s)

/-- The receive link is down: no numbering, no carrier output, and the modem's receptions end (R327, R328, R376). -/
def rxLinkDown (p : Nat) (s : State) : State :=
  let s := ((s.setFld (fRfpStatRxCgs p) 0).setFld (fRfpStatRxData p) 0).setFld (fRfpStatSysrefOk p) 0
  let s := s.updRport p (fun r => { r with pos := none, cars := r.cars.map (fun c => (c.1, { c.2 with start := none, at_ := none })) })
  abandonRx p (fun _ => true) s

/-- The port asserts SYNC~ and synchronises its receive link again (R327). -/
def rxResync (p : Nat) (ilas : Bool) (s : State) : State :=
  if !rxEnabled s p then s
  else
    let s := rxLinkDown p (s.bump (fRfpRxResyncCount p) 1)
    let s := if ilas then raiseFld 0x0C (fRfpStatIlasErr p) s else s
    raiseFld 0x0C (fRfpStatLinkLost p) s

/-- JESD_RX_RESYNC (R327). -/
def execJesdRxResync (port : Nat) (ilas : Bool) (s : State) : Host.Outcome State Fault Refusal := .next (rxResync port ilas s)

/-- The receive link reaches data, and a sync reset of every enabled carrier becomes due (R327, R338). -/
def rxResume (p : Nat) (s : State) : State :=
  if !rxEnabled s p || s.flag (fRfpStatRxData p) then s
  else
    let s := (s.setFld (fRfpStatRxCgs p) 1).setFld (fRfpStatRxData p) 1
    (List.range 12).foldl (fun s c => if s.flag (fRfpCarCtlEn p c) then dueReset p c s else s) s

/-- JESD_RX_DATA_RESUME (R338). -/
def execJesdRxDataResume (port : Nat) (s : State) : Host.Outcome State Fault Refusal := .next (rxResume port s)

/-- The transceiver asserts SYNC~ on the transmit link (R327). -/
def txSyncRequest (p : Nat) (s : State) : State :=
  if decide (p < 8) && s.flag (fRfpCtlEn p) && s.flag (fRfpCtlTxEn p) then (s.setFld (fRfpStatTxData p) 0).bump (fRfpTxResyncCount p) 1 else s

/-- JESD_TX_SYNC_REQUEST (R327). -/
def execJesdTxSyncRequest (port : Nat) (s : State) : Host.Outcome State Fault Refusal := .next (txSyncRequest port s)

/-- The tick boundary nearest to now (R328). -/
def nearestTick (s : State) : Nat := (s.time.t / 2 ^ 32 * 96000 / (65536 * 1000000000) + 1) / 2

/-- A SYSREF edge at its deterministic-latency point (R328, R329, R338): the marked sample is RX_ADJ samples ahead. -/
def sysref (p : Nat) (d : Int) (pin : Bool) (s : State) : State :=
  if !rxUp s p || decide (320 < d.natAbs) then s
  else
    let s := match (s.rport p).pos with
      | none =>
        let s := s.updRport p (fun r => { r with pos := some (640 * (nearestTick s : Int) - s.fld (fRfpLatAdjRx p)) })
        s.setFld (fRfpStatSysrefOk p) 1
      | some n =>
        if d = 0 then s
        else
          let s := s.updRport p (fun r => { r with pos := some (n + d) })
          let s := (s.bump (fRfpSysrefSlipCount p) 1).setFld (fRfpSysrefPhaseD p) (patternOf 32 d)
          raiseFld 0x0C (fRfpStatSysrefErr p) (s.updMport p (fun m => { m with ofsDue := m.ofsDue + d }))
    let s := if pin then
        (List.range 12).foldl (fun s c =>
          if s.flag (fRfpCarCtlEn p c) && s.flag (fRfpCarCtlPinrst p c) then s.updCarrier p c (fun x => { x with due := true }) else s) s
      else s
    placeResets p s

/-- SYSREF_EDGE (R329). -/
def execSysrefEdge (port : Nat) (d : Int) (syncReset : Bool) (s : State) : Host.Outcome State Fault Refusal := .next (sysref port d syncReset s)

/-- A write to RFPn_CTL that turns a link off takes it down. -/
def rfpCtlWritten (p : Nat) (s : State) : State :=
  let s := if !rxEnabled s p && (s.flag (fRfpStatRxData p) || s.flag (fRfpStatRxCgs p)) then rxLinkDown p s else s
  if s.flag (fRfpCtlEn p) && s.flag (fRfpCtlTxEn p) then s else s.setFld (fRfpStatTxData p) 0

/-- RFPn_DCB.CLR (R331). -/
def dcbClear (p : Nat) (s : State) : State := (s.setFld (fRfpDcbEstIEst p) 0).setFld (fRfpDcbEstQEst p) 0

/-- A commit of a port's staged fields is scheduled: the carriers it names take a sync reset (R299, R338, R340). -/
def rfpCommit (p : Nat) (s : State) : State :=
  let bs := scheduledBytes s (rfpId p)
  (List.range 12).foldl (fun s c =>
    if bs.any (fun b => decide (0x100 + 0x20 * c ≤ b.1) && decide (b.1 < 0x108 + 0x20 * c)) then dueReset p c s else s) s

/-! ## Sample tap (R342) -/

/-- Bytes of the outputs of an item. -/
def tapBytes (os : List CarOut) : List Byte := os.flatMap (fun o => leBytes 2 (patternOf 16 o.i) ++ leBytes 2 (patternOf 16 o.q))

/-- The tap pushes an item of 256 outputs, or loses it for want of a buffer (R342). -/
def tapPush (p : Nat) (s : State) : State :=
  let r := s.rport p
  let os := r.tap.take 256
  match os with
  | [] => s
  | o :: _ =>
    if os.length < 256 then s
    else
      let s := s.updRport p (fun r => { r with tap := r.tap.drop 256 })
      match seedAlloc (s.fld (fRfpTapAccountAccount p)) 4 .owned s with
      | (.ok h, s) =>
        let s := bufWrite h 0 (tapBytes os) s
        let s := (s.bump (fRfpTapItemsCount p) 1).updRport p (fun r => { r with tapSeq := (r.tapSeq + 1) % 65536 })
        let e : Entry := { handle := h, len := 1024, seq := r.tapSeq, key := patternOf 32 (o.pos / 640)
                           aux := (o.pos % 640).toNat + bitOf (os.any (fun x => x.set)) * 65536 }
        let q := s.fld (fRfpTapQueue p)
        if queueIs s q .async then mqPush q e s else freeItem e s
      | (_, s) => s.bump (fRfpTapNocreditCount p) 1

/-- SAMPLE_TAP_ITEM_PUSH (R342). -/
def execSampleTapItemPush (port : Nat) (s : State) : Host.Outcome State Fault Refusal := .next (if port < 8 then tapPush port s else s)

end Sys2Proof.Machine
end

