-- ==== Sys2Proof/Machine/Cfg.lean ====
section
/-!
DEFINITION. Cfg.lean: staging and commit of nodes, flows and block fields (R93, R132, R296 to R301), and the byte layout of the flow blocks
(R477).
-/

namespace Sys2Proof.Machine

/-! ## Flow blocks as bytes (R477) -/

/-- Little-endian bytes of a list of 4-byte slots. -/
def slotBytes (ws : List Nat) : List Byte := ws.flatMap (fun w => leBytes 4 w)

/-- An IP address in network byte order in a field of 16 bytes; an IPv4 address fills the first 4. -/
def ipBytes (v6 : Bool) (a : Nat) : List Byte :=
  if v6 then (leBytes 16 a).reverse else (leBytes 4 a).reverse ++ List.replicate 12 0

/-- Bytes of a match key. -/
def keyBytes (k : FlowKey) : List Byte :=
  leBytes 1 (bitOf k.present + 2 * bitOf k.ipv6 + 4 * bitOf k.srcAny + 8 * bitOf k.untagged) ++ leBytes 1 k.port ++ leBytes 2 k.vlan ++
  leBytes 2 k.dport ++ leBytes 2 0 ++ ipBytes k.ipv6 k.dst ++ ipBytes k.ipv6 k.src

/-- Bytes of a path. -/
def pathBytes (k : FlowPath) : List Byte :=
  leBytes 1 (bitOf k.present + 2 * bitOf k.ipv6 + 8 * bitOf k.untagged) ++ leBytes 1 k.port ++ leBytes 2 (k.vlan + 8192 * k.pcp) ++
  leBytes 1 k.dscp ++ leBytes 1 k.ttl ++ leBytes 2 k.sport ++ leBytes 2 k.dport ++ leBytes 6 0 ++ ipBytes k.ipv6 k.dst

/-- The block of FLOW.OPEN_RX. -/
def rxBytes (b : RxBlock) : List Byte :=
  slotBytes [b.flow, b.mode, b.format, b.channels, b.rate, b.ptime, b.pt, b.offset, b.queue, b.skewLimit] ++ keyBytes b.keyA ++ keyBytes b.keyB

/-- The block of FLOW.OPEN_TX. -/
def txBytes (b : TxBlock) : List Byte :=
  slotBytes [b.flow, b.mode, b.format, b.channels, b.rate, b.ptime, b.pt, b.offset, b.queue, b.ssrc, b.txOffset, b.udpCsum] ++
  pathBytes b.pathA ++ pathBytes b.pathB

/-- Little-endian field of a block. -/
def leAt (bs : List Byte) (o n : Nat) : Nat := leNat ((bs.drop o).take n)

/-- An IP address read from a block. -/
def ipAt (bs : List Byte) (o : Nat) (v6 : Bool) : Nat := leNat ((bs.drop o).take (if v6 then 16 else 4)).reverse

/-- A match key read from a block. -/
def keyAt (bs : List Byte) (o : Nat) : FlowKey :=
  let f := leAt bs o 1
  let v6 := f.testBit 1
  { present := f.testBit 0, ipv6 := v6, srcAny := f.testBit 2, untagged := f.testBit 3, port := leAt bs (o + 1) 1
    vlan := leAt bs (o + 2) 2 % 4096, dport := leAt bs (o + 4) 2, dst := ipAt bs (o + 8) v6, src := ipAt bs (o + 24) v6 }

/-- A path read from a block. -/
def pathAt (bs : List Byte) (o : Nat) : FlowPath :=
  let f := leAt bs o 1
  let v6 := f.testBit 1
  let v := leAt bs (o + 2) 2
  { present := f.testBit 0, ipv6 := v6, untagged := f.testBit 3, port := leAt bs (o + 1) 1, vlan := v % 4096, pcp := v / 8192
    dscp := leAt bs (o + 4) 1, ttl := leAt bs (o + 5) 1, sport := leAt bs (o + 6) 2, dport := leAt bs (o + 8) 2, dst := ipAt bs (o + 16) v6 }

/-- An ingress block read from its bytes. -/
def rxFrom (bs : List Byte) : RxBlock :=
  let w (i : Nat) : Nat := leAt bs (4 * i) 4
  ⟨w 0, w 1, w 2, w 3, w 4, w 5, w 6, w 7, w 8, w 9, keyAt bs 0x28, keyAt bs 0x50⟩

/-- An egress block read from its bytes; RTCP_EN is not among them. -/
def txFrom (rtcp : Bool) (bs : List Byte) : TxBlock :=
  let w (i : Nat) : Nat := leAt bs (4 * i) 4
  ⟨w 0, w 1, w 2, w 3, w 4, w 5, w 6, w 7, w 8, w 9, w 10, w 11, pathAt bs 0x30, pathAt bs 0x50, rtcp⟩

/-- Bytes with staged ones laid over them. -/
def withStaged (bs : List Byte) (st : List (Nat × Byte)) : List Byte :=
  bs.zipIdx.map (fun x => match mapFind? x.2 st with | some b => b | none => x.1)

/-! ## Targets (R296) -/

/-- Staged fields of a block register set: its registers that hold any, each with the mask of its staged bits (R344, R383, R390). -/
def stagedRegs (id : Nat) : List (Nat × Nat) :=
  if 0x60 ≤ id ∧ id < 0x68 then (List.range 12).flatMap carRegs
  else if id = 0x68 then (List.range 8).map (fun p => (0x100 + 0x80 * p, 0x0FFFFFFF))
  else if id = 0x78 then [(0x10, 3)]
  else []

/-- A target's kind and identifier fit (R296). -/
def chkTarget (t : Nat) : Check :=
  let n := t % 2 ^ 28
  match t / 2 ^ 28 with
  | 0 => chkNode n
  | 1 => chkRange n 0 16383
  | 2 => chkRange n 0 16383
  | 3 => chk (decide (n < 0x2000)) eRange
  | _ => some eRange

/-- An offset of a target that may be staged: a node's context up to the size of its class, where the node exists, or a field of R132; a byte
of a flow's block; a byte of a register with staged fields. -/
def mayStage (s : State) (t o : Nat) : Bool :=
  let n := t % 2 ^ 28
  match t / 2 ^ 28 with
  | 0 =>
    if o < 0x20000 then
      match hostNode s n with
      | some d => decide (o < 0x2000 * classPages d.ctxClass)
      | none => true
    else decide (0x800000 ≤ o) && descByte (o - 0x800000)
  | 1 => decide (o < 0x78)
  | 2 => decide (o < 0x70)
  | _ => (stagedRegs n).any (fun r => decide (r.1 ≤ o) && decide (o < r.1 + 4))

/-- The target exists (R296). -/
def targetIs (s : State) (t : Nat) : Bool :=
  let n := t % 2 ^ 28
  match t / 2 ^ 28 with
  | 0 => (hostNode s n).isSome
  | 1 => (mapFind? n s.net.rx).isSome
  | 2 => (mapFind? n s.net.tx).isSome
  | _ => true

/-- A commit on the target is scheduled (R298). -/
def isScheduled (s : State) (t : Nat) : Bool :=
  (match mapFind? t s.cfg with | some x => x.scheduled | none => false) ||
  (decide (t < 2 ^ 28) && match s.node? t with | some d => d.staged.isSome | none => false)

/-! ## CFG.STAGE -/

/-- Lays bytes into a staging copy. -/
def stageBytes (o : Nat) (bs : List Byte) (m : List (Nat × Byte)) : List (Nat × Byte) :=
  bs.zipIdx.foldl (fun m x => mapInsert (o + x.2) x.1 m) m

/-- CFG.STAGE (R296, R298). -/
def execCfgStage (h : KciHdr) (target offset len : Nat) (data : List Byte) (s : State) : Host.Outcome State Fault Refusal :=
  .next (kci 0x0301 h (keyTarget target)
    (fun s => [chkTarget target, chk (decide (offset < 2 ^ 24)) eRange, chkZero len, chkRange len 1 48,
      chk ((List.range len).all (fun i => mayStage s target (offset + i))) eRange])
    (fun s =>
      if !targetIs s target then kciFail eState s
      else if isScheduled s target then kciFail eBusy s
      else if (mapFind? target s.cfg).isNone && decide (1024 ≤ s.cfg.length) then kciFail eSpace s
      else
        let x := mapGet ({} : Stage) target s.cfg
        kciOk { s with cfg := mapInsert target { x with bytes := stageBytes offset ((data ++ List.replicate len 0).take len) x.bytes } s.cfg }) s)

/-! ## CFG.COMMIT -/

/-- A node's staged set goes to its commit point (R298 to R300). -/
def commitNode (n : Nat) (bs : List (Nat × Byte)) (s : State) : KciRes :=
  match hostNode s n with
  | none => kciFail eState s
  | some d =>
    let desc := (bs.filter (fun b => decide (0x800000 ≤ b.1))).map (fun b => (b.1 - 0x800000, b.2))
    let ctx := bs.filter (fun b => decide (b.1 < 0x800000))
    match firstErr (nodeSetChecks s n d desc ctx) with
    | some e => kciFail e s
    | none =>
      let s := dropStage n (s.setNode n { d with staged := some (stagedSet d desc), stagedCtx := ctx })
      if d.st = .disarmed then kciOk (applyCommit n s) else .wait (.commit 0 n) s

/-- An ingress flow's staged set: every moment between two commands is a packet boundary (R93, R299). -/
def commitRx (n : Nat) (bs : List (Nat × Byte)) (s : State) : KciRes :=
  match mapFind? n s.net.rx with
  | none => kciFail eState s
  | some x =>
    let raw := withStaged (rxBytes x.blk) bs
    let b := rxFrom raw
    match firstErr ([chk (b.flow == n) eRange] ++ rxChecks s b ++ [chk (rxBytes b == raw) eRange]) with
    | some e => kciFail e s
    | none =>
      if keyTaken s n b || !queueIs s b.queue .ordered then kciFail eState s
      else kciOk (dropStage (2 ^ 28 + n) (joinKey b.keyB (joinKey b.keyA (s.setNet (fun w => { w with rx := mapInsert n { x with blk := b } w.rx })))))

/-- An egress flow's staged set (R93, R299). -/
def commitTx (n : Nat) (bs : List (Nat × Byte)) (s : State) : KciRes :=
  match mapFind? n s.net.tx with
  | none => kciFail eState s
  | some x =>
    let raw := withStaged (txBytes x.blk) bs
    let b := txFrom x.blk.rtcpEn raw
    match firstErr ([chk (b.flow == n) eRange] ++ txChecks s b ++ [chk (txBytes b == raw) eRange]) with
    | some e => kciFail e s
    | none =>
      if !queueIs s b.queue .fifo then kciFail eState s
      else kciOk (dropStage (2 * 2 ^ 28 + n) (s.setNet (fun w => { w with tx := mapInsert n { x with blk := b } w.tx })))

/-- A carrier's control word: K, L and PHASE (R20, R333, R334, R343, R344). -/
def carrierChecks (w : Word) : List Check :=
  let custom := bits w 1 2 == 3
  let k := bits w 4 3
  let l := bits w 8 5
  let l' := match bits w 1 2 with | 0 => 5 | 1 => 5 | 2 => 10 | _ => l
  (if custom then [chkZero k, chkRange k 1 4, chkRange l 2 16, chk (decide (l ^ k ≤ 16384)) eRange] else []) ++
  [chk (decide (bits w 16 4 < l')) eRange]

/-- A modem port's configuration word (R383). -/
def modemCfgChecks (w : Word) : List Check :=
  [chkRange (bits w 4 6) 17 32, chkRange (bits w 10 5) 0 24, chkRange (bits w 15 5) 0 20, chkRange (bits w 20 4) 4 12, chkRange (bits w 24 4) 1 12]

/-- The checks of a block's staged fields, as they will stand. -/
def blockChecks (s : State) (id : Nat) (bs : List (Nat × Byte)) : List Check :=
  let w (o : Nat) : Word := stagedOver bs o (s.reg (id * 0x2000 + o))
  if id = 0x68 then (List.range 8).flatMap (fun p => modemCfgChecks (w (0x100 + 0x80 * p)))
  else if id = 0x78 then [chkRange (bits (w 0x10) 0 2) 0 2]
  else (List.range 12).flatMap (fun c => carrierChecks (w (0x100 + 0x20 * c)))

/-- A block's staged fields go to their commit point: PACK's is at once, as every moment between two commands is a block boundary (R299). -/
def commitBlock (id : Nat) (x : Stage) (s : State) : KciRes :=
  match firstErr (blockChecks s id x.bytes) with
  | some e => kciFail e s
  | none =>
    let s : State := { s with cfg := mapInsert (blockKey id) { x with scheduled := true } s.cfg }
    if id = 0x78 then kciOk (commitRegs id (stagedRegs id) s)
    else .wait (.commit 3 id) (if id = 0x68 then s else rfpCommit (id - 0x60) s)

/-- CFG.COMMIT on a target with a staging copy. -/
def commitTarget (t : Nat) (x : Stage) (s : State) : KciRes :=
  let n := t % 2 ^ 28
  match t / 2 ^ 28 with
  | 0 => commitNode n x.bytes s
  | 1 => commitRx n x.bytes s
  | 2 => commitTx n x.bytes s
  | _ => commitBlock n x s

/-- CFG.COMMIT (R298). -/
def execCfgCommit (h : KciHdr) (target : Nat) (s : State) : Host.Outcome State Fault Refusal :=
  .next (kci 0x0302 h (keyTarget target) (fun _ => [chkTarget target]) (fun s =>
    if isScheduled s target then kciFail eBusy s
    else match mapFind? target s.cfg with
      | none => kciFail eState s
      | some x => commitTarget target x s) s)

/-- CFG.COMMIT with FLAGS.DISCARD (R298). -/
def execCfgCommitDiscard (h : KciHdr) (target : Nat) (s : State) : Host.Outcome State Fault Refusal :=
  .next (kci 0x0302 h (keyTarget target) (fun _ => [chkTarget target]) (fun s =>
    if isScheduled s target then kciFail eBusy s
    else if (mapFind? target s.cfg).isNone then kciFail eState s
    else kciOk (dropStage target s)) s)

/-- The closing of a block drops its staging copy, and a commit scheduled on it completes with E_STATE (R301). -/
def closeBlock (id : Nat) (s : State) : State :=
  finishWait (.commit 3 id) eState [] (dropStage (blockKey id) s)

end Sys2Proof.Machine
end

