-- ==== Sys2Proof/Machine/Madi.lean ====
section
/-!
DEFINITION. Madi.lean: the MADI ports (R320 to R325).
-/

namespace Sys2Proof.Machine

/-- A MADI port. -/
def State.madiPort (s : State) (p : Nat) : MadiPort := mapGet {} p s.madi

/-- Changes a MADI port. -/
def State.updMadi (s : State) (p : Nat) (f : MadiPort → MadiPort) : State := { s with madi := mapUpd {} p f s.madi }

/-- Sample periods of a block (R323). -/
def madiBlock (s : State) (p : Nat) : Nat :=
  match s.fld (fMadiPpCtlBlock p) with
  | 1 => 6
  | 2 => 12
  | _ => 16

/-- A port receives. -/
def madiRx (s : State) (p : Nat) : Bool := decide (p < 4) && s.flag (fMadiPpCtlEn p) && s.flag (fMadiPpCtlRxEn p)

/-- A queue is open as ASYNC with depth 16 (R324). -/
def async16 (s : State) (q : Nat) : Bool := match s.queue? q with | some x => decide (x.mode = .async) && x.depth == 16 | none => false

/-- An enable of a port passes the checks of R324; `en`, `rx` and `tx` are the values written. -/
def madiEnableOk (p : Nat) (rx tx : Bool) (s : State) : Bool :=
  let a := s.acct (s.fld (fMadiPpAccountAccount p))
  (!rx || async16 s (s.fld (fMadiPpQueueRx p))) && (!tx || async16 s (s.fld (fMadiPpQueueTx p))) && decide (a.kind = .port) && a.attach == 0x88

/-- The samples of a block in sample-major order; in a 56-channel stream, channels 56 to 63 carry zeros (R320, R321). -/
def madiWords (ch56 : Bool) (n : Nat) (xs : List Word) : List Word :=
  (List.range n).map (fun i => if ch56 && decide (56 ≤ i % 64) then 0 else xs.getD i 0)

/-- The sample periods received for a block, with the slips that are due: one repeated, or one dropped, for each (R321). Which of the block's periods it is the spec
leaves open; the model takes the first (DESIGN CHOICE, assumption 65). -/
def slipped (slips : Int) (xs : List Word) : List Word :=
  if 0 < slips then (List.range slips.toNat).flatMap (fun _ => xs.take 64) ++ xs else xs.drop (64 * (-slips).toNat)

/-- A receiving port completes a block and pushes it, or loses it for want of a buffer (R320, R321). `xs` has the sample periods as they arrived, `drift` the phase
drift in ns. -/
def madiPush (p : Nat) (xs : List Word) (vBits codeErrs : Nat) (drift : Int) (s : State) : State :=
  if !madiRx s p || !s.flag (fMadiPpStatRxLock p) then s
  else
    let b := madiBlock s p
    let ke := (s.madiPort p).ke
    let xs := slipped (s.madiPort p).slips xs
    let s := ((s.bump (fMadiPpRxVbitCount p) vBits).bump (fMadiPpRxCodeErrCount p) codeErrs).setFld (fMadiPpPhaseNs p) (patternOf 32 drift)
    let s := s.updMadi p (fun m => { m with ke := (m.ke + b) % W32, slips := 0 })
    match seedAlloc (s.fld (fMadiPpAccountAccount p)) b .owned s with
    | (.ok h, s) =>
      let words := madiWords (s.flag (fMadiPpStatRx56 p)) (64 * b) xs
      let s := bufWrite h 0 (words.flatMap (fun w => leBytes 4 w.toNat)) s
      let e : Entry := { handle := h, len := 256 * b, seq := (s.madiPort p).seq, key := ke }
      let s := (s.bump (fMadiPpRxItemsCount p) 1).updMadi p (fun m => { m with seq := (m.seq + 1) % 65536 })
      let q := s.fld (fMadiPpQueueRx p)
      if queueIs s q .async then mqPush q e s else freeItem e s
    | (_, s) => s.bump (fMadiPpRxNocreditCount p) 1

/-- MADI_RX_BLOCK_PUSH (R321). -/
def execMadiRxBlockPush (port : Nat) (samples : List Word) (vBits codeErrs : Nat) (drift : Int) (s : State) : Host.Outcome State Fault Refusal :=
  .next (madiPush port samples vBits codeErrs drift s)

/-- The phase drift, in ns, reaches the slip threshold (R321): a tick lasts 62,500 / 3 ns. At +SLIP_THR a sample period is repeated, at −SLIP_THR one is dropped. -/
def madiSlip (p : Nat) (drift : Int) (s : State) : State :=
  if madiRx s p && s.flag (fMadiPpStatRxLock p) && decide (62500 * s.fld (fMadiPpCtlSlipThr p) ≤ 3 * drift.natAbs + 2) then
    ((s.setFld (fMadiPpPhaseNs p) (patternOf 32 drift)).bump (fMadiPpRxSlipCount p) 1).updMadi p (fun m =>
      { m with slips := m.slips + if 0 < drift then 1 else -1 })
  else s

/-- MADI_RX_SLIP (R321). -/
def execMadiRxSlip (port : Nat) (drift : Int) (s : State) : Host.Outcome State Fault Refusal := .next (madiSlip port drift s)

/-- A receiving port locks: K_e is the first multiple of BLOCK, on the extended tick, after the first MADI frame (R321). -/
def madiLock (p : Nat) (ch56 : Bool) (s : State) : State :=
  if !madiRx s p || s.flag (fMadiPpStatRxLock p) then s
  else
    let b := madiBlock s p
    let s := if (s.madiPort p).locked then s.bump (fMadiPpRxRelockCount p) 1 else s
    let s := ((s.setFld (fMadiPpStatRxLock p) 1).setFld (fMadiPpStatRx56 p) (bitOf ch56)).setFld (fMadiPpPhaseNs p) 0
    s.updMadi p (fun m => { m with locked := true, slips := 0, ke := (s.tick / b + 1) * b % W32 })

/-- MADI_LOCK (R321). -/
def execMadiLock (port : Nat) (ch56 : Bool) (s : State) : Host.Outcome State Fault Refusal := .next (madiLock port ch56 s)

/-- A receiving port loses lock (R321). -/
def madiUnlock (p : Nat) (s : State) : State :=
  if madiRx s p && s.flag (fMadiPpStatRxLock p) then
    raiseFld 0x11 (fMadiIntStatLostLock.bit p) ((s.setFld (fMadiPpStatRxLock p) 0).setFld (fMadiPpStatLostLock p) 1)
  else s

/-- MADI_LOCK_LOSS (R321). -/
def execMadiLockLoss (port : Nat) (s : State) : Host.Outcome State Fault Refusal := .next (madiUnlock port s)

/-- A port that no longer receives holds no lock; a port disabled begins afresh (R321, R324). -/
def madiCtlWritten (p : Nat) (s : State) : State :=
  let s := if madiRx s p then s else s.setFld (fMadiPpStatRxLock p) 0
  if s.flag (fMadiPpCtlEn p) then s else s.updMadi p (fun m => { m with locked := false })

/-- Examines the transmit queue for the block keyed K: the entry to send, late entries freed (R322). -/
def madiHead (p k : Nat) : Nat → State → Option (Entry × Bool) × State
  | 0, s => (none, s)
  | fuel + 1, s =>
    let q := s.fld (fMadiPpQueueTx p)
    match (s.queue? q).bind (fun x => x.held.head?) with
    | none => (none, s)
    | some i =>
      if 0 < tickDiff i.e.key k then (none, s)
      else match portPop q none (some (s.fld (fMadiPpAccountAccount p))) s with
        | (none, s) => (none, s)
        | (some (i, loan), s) =>
          if tickDiff i.e.key k < 0 then madiHead p k fuel ((releaseEntry i.e loan s).bump (fMadiPpTxLateCount p) 1)
          else (some (i.e, loan), s)

/-- The extended tick of a port's next examination: the next one that is a multiple of BLOCK plus BLOCK - 1 (R322). -/
def madiExamTick (s : State) (p : Nat) : Nat :=
  let b := madiBlock s p
  let t := s.tick / b * b + b - 1
  match (s.madiPort p).examined with
  | some x => if x = t then t + b else t
  | none => t

/-- A transmitting port examines its queue and sends the block, or zeros with V = 1 (R320, R322). -/
def madiExamine (p : Nat) (s : State) : State :=
  if !(decide (p < 4) && s.flag (fMadiPpCtlEn p) && s.flag (fMadiPpCtlTxEn p)) then s
  else
    let b := madiBlock s p
    let t := madiExamTick s p
    let s := reap (advanceTo (timeOfTick t) s)
    let k := (t + 1 - b) % W32
    let s := s.updMadi p (fun m => { m with examined := some t })
    let n := match s.queue? (s.fld (fMadiPpQueueTx p)) with | some q => q.held.length + 1 | none => 1
    match madiHead p k n s with
    | (some (e, loan), s) =>
      let bs := bufRead s e.handle 0 (256 * b)
      let words := (List.range (64 * b)).map (fun i => BitVec.ofNat 32 (leNat ((bs.drop (4 * i)).take 4)))
      let s := if e.nobuf then s.emit (.madi p k (List.replicate (64 * b) 0) true {}) else s.emit (.madi p k words true {})
      holdUntil (timeOfTick (t + 1 + b)) e loan (s.bump (fMadiPpTxItemsCount p) 1)
    | (none, s) => (s.emit (.madi p k (List.replicate (64 * b) 0) false {})).bump (fMadiPpTxUnderCount p) 1

/-- MADI_TX_EXAMINE (R322). -/
def execMadiTxExamine (port : Nat) (s : State) : Host.Outcome State Fault Refusal := .next (madiExamine port s)

end Sys2Proof.Machine
end

