-- ==== Sys2Proof/Machine/Time.lean ====
section
/-!
DEFINITION. Time.lean: the servo, PTP's masters and path delay, steps of the timeline, the reference pins, and the host operations on TIME (R39 to
R69, R522).
-/

namespace Sys2Proof.Machine

/-- Changes the time block. -/
def State.setTime (s : State) (f : TimeSt → TimeSt) : State := { s with time := f s.time }

/-- TIME_RATE's limit of 100 ppm (R51, R53). -/
abbrev rateMax : Int := 28147497671

/-- Follows REF10M_IN: the frequency measured against it is a free value of TIME_RATE's width (R51). -/
def followRef (s : State) : State :=
  let (f, s) := s.draw
  s.setTime (fun t => { t with rate := signedOf 40 f })

/-- The rate that HOLDOVER holds: the mean of the last LOCKED values, to the nearest step, ties to even (R522). -/
def heldRate (t : TimeSt) : Int := if t.lockRates.isEmpty then t.entryRate else rne (t.lockRates.foldl (· + ·) 0) t.lockRates.length

/-- TIME_RATE in HOLDOVER and FREERUN (R51, R522). -/
def holdRate (s : State) : State :=
  match s.time.servo with
  | .holdover => if s.flag fTimeCtlHoRef && s.time.ref10mOk then followRef s else s.setTime (fun t => { t with rate := heldRate t })
  | .freerun => if s.flag fTimeCtlHoRef then followRef s else s.setTime (fun t => { t with rate := 0 })
  | _ => s

/-- The servo enters ACQUIRE; HO_CAUSE returns to 0 as it leaves HOLDOVER (R55, R522). -/
def enterAcquire (s : State) : State := s.setTime (fun t => { t with servo := .acquire, hoCause := 0, lockCount := 0, holdCount := 0 })

/-- The servo enters HOLDOVER, or stays in it, with a cause (R51, R54). -/
def enterHoldover (cause : Nat) (s : State) : State :=
  let s := s.setTime (fun t => { t with hoCause := cause, holdCount := 0 })
  if s.time.servo = .holdover then s
  else holdRate (s.setTime (fun t => { t with servo := .holdover, lockCount := 0, entryRate := t.rate }))

/-- The master or the pulse is lost (R49, R51). -/
def referenceLost (s : State) : State :=
  match s.time.servo with
  | .acquire => enterHoldover 1 s
  | .locked => enterHoldover 1 s
  | .pathHold => enterHoldover 1 s
  | _ => s

/-- The counter takes a new value in one fabric cycle, and every block acts on the step (R57, R58). -/
def stepTo (t : Nat) (s : State) : State :=
  let old := s.tick
  let s := s.setTime (fun x => { x with t := t })
  let new := s.tick
  let s := if old < new then beatsStep old new s else s
  segmentStep old new (radioStep old new s)

/-- A step of a signed amount in units of 2^-48 ns. -/
def stepBy (d : Int) (s : State) : State := stepTo ((s.time.t : Int) + d).toNat s

/-- A measurement is refused (R54). -/
def refuse (s : State) : State := raiseFld 0x02 fTimeStatStepRefused (enterHoldover 2 s)

/-- TIME_STEP_MAX. -/
def stepMax (s : State) : Int := s.fld fTimeStepMaxNs

/-- Records the filtered offset, whose filter the spec does not give: a free value (R51, R67). -/
def filterOffset (s : State) : Int × State :=
  let (f, s) := s.draw
  let x := signedOf 32 f
  (x, s.setFld fTimeOffsetNs (patternOf 32 x))

/-- A servo update in ACQUIRE (R51): the phase correction, up to TIME_STEP_MAX, and the rate are free values. -/
def updateAcquire (s : State) : State :=
  let (f, s) := s.draw
  let m := (stepMax s).toNat * nsUnit
  let s := stepBy ((f % (2 * m + 1) : Nat) - (m : Int)) s
  let (r, s) := s.draw
  let s := s.setTime (fun t => { t with rate := signedOf 40 r })
  let (x, s) := filterOffset s
  let n := if x.natAbs < s.fld fTimeLockThrNs then s.time.lockCount + 1 else 0
  if 16 ≤ n then s.setTime (fun t => { t with servo := .locked, armed := true, lockCount := 0 })
  else s.setTime (fun t => { t with lockCount := n })

/-- A servo update in LOCKED (R51, R522): the PI loop's gains are not given, so the rate is a free value within the clamp. -/
def updateLocked (s : State) : State :=
  let (r, s) := s.draw
  let x := max (-rateMax) (min rateMax (signedOf 40 r))
  let s := s.setTime (fun t => { t with rate := x, lockRates := (x :: t.lockRates).take 16 })
  (filterOffset s).2

/-- A measurement in HOLDOVER (R51, R54, R55). -/
def updateHoldover (off : Int) (s : State) : State :=
  if (off.natAbs : Int) ≤ stepMax s then
    let n := s.time.holdCount + 1
    let s := (filterOffset s).2
    if 16 ≤ n then enterAcquire s else s.setTime (fun t => { t with holdCount := n })
  else if s.time.armed then refuse s
  else enterAcquire (stepBy (-off * nsUnit) s)

/-- An authorisation acts on the measurement (R56). A measurement beyond LIMIT is refused where R54 refuses it; one within TIME_STEP_MAX counts
toward the 16 of R55, but the authorisation's own measurement does not end HOLDOVER, which R56 says it stays in: the count stops at 15 (DESIGN
CHOICE, assumption 35). -/
def useAuth (a : StepAuth) (off : Int) (s : State) : State :=
  let s := s.setTime (fun t => { t with auth := none })
  if off.natAbs ≤ a.limit then
    let s := enterAcquire (stepBy (-off * nsUnit) s)
    finishWait .stepAuth eOk (slot8 (patternOf 64 (-off))) s
  else if s.time.armed ∧ stepMax s < off.natAbs then finishWait .stepAuth eRange [] (refuse s)
  else
    let n := if (off.natAbs : Int) ≤ stepMax s then min 15 (s.time.holdCount + 1) else 0
    finishWait .stepAuth eRange [] (s.setTime (fun t => { t with holdCount := n }))

/-- A measured offset in ns (R50 to R56). -/
def measure (off : Int) (s : State) : State :=
  match s.time.auth, s.time.servo with
  | _, .pathHold => (filterOffset s).2
  | _, .free => s
  | some a, _ => useAuth a off s
  | none, .holdover => updateHoldover off s
  | none, st =>
    if s.time.armed ∧ stepMax s < off.natAbs then refuse s
    else match st with
      | .freerun => enterAcquire (stepBy (-off * nsUnit) s)
      | .acquire => updateAcquire s
      | _ => updateLocked s

/-! ## PTP (R47 to R50, R59) -/

/-- The servo's counts and windows restart (R50). -/
def restartCounts (s : State) : State := s.setTime (fun t => { t with lockCount := 0, holdCount := 0, delays := [], prevSum := none })

/-- The PTP stack runs and drives the servo (R47, R52, R68). -/
def ptpDrives (s : State) : Bool := s.fld fTimeCtlSrc == 0 && svcUp s

/-- A Sync on the slave port gives an offset, from which the port's asymmetry correction is subtracted (R50, R60; the sign is PRESUMED from IEEE
1588-2019, assumption 36). -/
def servoUpdate (p : Nat) (offset : Int) (s : State) : State :=
  if !(decide (p < 4) && ptpDrives s && s.time.slave == some p) then s
  else measure (offset - signedOf 32 (s.fld (fTimeAsymNs p))) s

/-- SERVO_UPDATE (R50). -/
def execServoUpdate (port : Nat) (offset : Int) (s : State) : Host.Outcome State Fault Refusal := .next (servoUpdate port offset s)

/-- A path step (R59, R69). -/
def pathStep (s : State) : State :=
  let s := raiseFld 0x02 fTimeStatPathStep s
  match s.time.servo with
  | .locked | .acquire =>
    if s.fld fTimePdHoldSec = 0 then enterAcquire s
    else s.setTime (fun t => { t with servo := .pathHold, holdStart := s.clk, lockCount := 0 })
  | _ => s

/-- A Delay_Req exchange on the slave port; a lost one changes nothing (R50, R59, R65). TIME_MPD shows the mean of 16 to the nearest nanosecond, ties
to even (DESIGN CHOICE, assumption 37). -/
def delayExchange (p delay : Nat) (lost : Bool) (s : State) : State :=
  if lost || !(ptpDrives s && s.time.slave == some p) then s
  else
    let ds := s.time.delays ++ [delay]
    if ds.length < 16 then s.setTime (fun t => { t with delays := ds })
    else
      let sum := ds.foldl (· + ·) 0
      let was := s.time.prevSum
      let s := s.setTime (fun t => { t with delays := [], prevSum := some sum })
      let s := s.setFld fTimeMpdNs (rne sum 16).toNat
      let d := s.fld fTimePdStepNs
      match was with
      | some w => if d ≠ 0 ∧ 16 * d < max sum w - min sum w then pathStep s else s
      | none => s

/-- DELAY_REQ_EXCHANGE (R59). -/
def execDelayReqExchange (port delay : Nat) (lost : Bool) (s : State) : Host.Outcome State Fault Refusal := .next (delayExchange port delay lost s)

/-- PATH_HOLD_ELAPSED (R59). -/
def execPathHoldElapsed (s : State) : Host.Outcome State Fault Refusal :=
  .next (if s.time.servo = .pathHold then enterAcquire (advanceSince s.time.holdStart (s.fld fTimePdHoldSec * 25000000) s) else s)

/-- The order of the default best master comparison, with steps and receiving port last (R47; PRESUMED from IEEE 1588-2019, assumption 23). -/
def announceKey (p : Nat) (a : Announce) : List Nat := [a.priority1, a.clockCls, a.accuracy, a.variance, a.priority2, a.gmId, a.steps, p]

/-- Lexicographic order. -/
def lexLt : List Nat → List Nat → Bool
  | a :: s, b :: t => decide (a < b) || (a == b && lexLt s t)
  | _, _ => false

/-- Code of TIME_STAT.SERVO (R51). -/
def servoCode (x : Servo) : Nat :=
  match x with
  | .freerun => 0
  | .acquire => 1
  | .locked => 2
  | .holdover => 3
  | .pathHold => 4
  | .free => 5

/-- The clockClass announced in the servo's state (R48). -/
def ownClass (s : State) : Nat := s.time.cfg.clockCls.getD (servoCode s.time.servo) 248

/-- The device's own data set beats a foreign one, where its role may be master: a clock whose own clockClass lies from 1 to 127 is never a slave, and
any other compares the data sets; its accuracy and variance are unknown (R47; PRESUMED from IEEE 1588-2019, assumption 23). -/
def ownBeats (s : State) (a : Announce) : Bool :=
  let c := s.time.cfg
  let cls := ownClass s
  c.role != 0 && ((decide (1 ≤ cls) && decide (cls ≤ 127)) ||
    lexLt [c.priority1, cls, 0xFE, 0xFFFF, c.priority2] [a.priority1, a.clockCls, a.accuracy, a.variance, a.priority2])

/-- A master heard on an enabled port in the domain that is configured (R47, R48). -/
def hears (s : State) (x : Nat × Announce) : Bool := s.time.cfg.ports.testBit x.1 && x.2.domain == s.time.cfg.domain

/-- The slave port that best master selection chooses among the ports that TIME.CONFIG enables (R47, R49). -/
def bestMaster (s : State) : Option Nat :=
  match s.time.announces.filter (hears s) with
  | [] => none
  | x :: t =>
    let b := t.foldl (fun a y => if lexLt (announceKey y.1 y.2) (announceKey a.1 a.2) then y else a) x
    if ownBeats s b.2 then none else some b.1

/-- Takes the slave port that is chosen now; another port or another grandmaster is a change of master, and a slave port with none in its place a
lost master (R48 to R51). The UTC offset of the new master's Announce is kept in the state: R42 has it reported through KCI, and R476 lists no
operation that returns it, so the model returns it by none (DESIGN CHOICE, assumption 38). -/
def reselect (was : Option Nat) (wasGm : Option Nat) (s : State) : State :=
  let b := bestMaster s
  let gm := b.bind (fun p => (mapFind? p s.time.announces).map (fun a => a.gmId))
  let utc := b.bind (fun p => (mapFind? p s.time.announces).map (fun a => a.utcOffset))
  let s := s.setTime (fun t => { t with slave := b, utcOffset := utc.orElse (fun _ => t.utcOffset) })
  let s := if was.isSome && b.isNone && ptpDrives s then referenceLost s else s
  if b = was ∧ gm = wasGm then s else restartCounts s

/-- The grandmaster of the slave port. -/
def slaveGm (s : State) : Option Nat := s.time.slave.bind (fun p => (mapFind? p s.time.announces).map (fun a => a.gmId))

/-- An Announce arrives; one on a port that PTP does not run on, or of another domain, is not heard (R42, R47, R49). -/
def announce (p : Nat) (a : Announce) (s : State) : State :=
  if !(decide (p < 4) && svcUp s && hears s (p, a)) then s
  else
    let was := s.time.slave
    let gm := slaveGm s
    reselect was gm (s.setTime (fun t => { t with announces := mapInsert p a t.announces }))

/-- ANNOUNCE_RECEIVED (R49). -/
def execAnnounceReceived (port : Nat) (ann : Announce) (s : State) : Host.Outcome State Fault Refusal := .next (announce port ann s)

/-- A port hears no Announce for its receipt timeout; the slave port loses its master (R49, R51). -/
def announceTimeout (p : Nat) (s : State) : State :=
  if !svcUp s then s
  else
    let was := s.time.slave
    let gm := slaveGm s
    let s := s.setTime (fun t => { t with announces := mapErase p t.announces })
    if was = some p then
      let s := if ptpDrives s then referenceLost s else s
      restartCounts (reselect was gm s)
    else s

/-- ANNOUNCE_RECEIPT_TIMEOUT (R51). -/
def execAnnounceReceiptTimeout (port : Nat) (s : State) : Host.Outcome State Fault Refusal := .next (announceTimeout port s)

/-- A port in the master state sends its PTP messages (R47, R49). A port that hears the grandmaster the slave port follows is passive (PRESUMED,
assumption 23). -/
def ptpTransmit (p : Nat) (s : State) : State :=
  let c := s.time.cfg
  let passive := s.time.slave.isSome && (mapFind? p s.time.announces).map (fun a => a.gmId) == slaveGm s
  if decide (p < 4) && c.role != 0 && c.ports.testBit p && s.time.slave != some p && !passive && svcUp s && linkUp s p then
    svcBack p .udp .ptp false 0xE0000181 319 319 (s.emit (.ptp p (ownClass s)))
  else s

/-- PTP_MASTER_TRANSMIT (R47). -/
def execPtpMasterTransmit (port : Nat) (s : State) : Host.Outcome State Fault Refusal := .next (ptpTransmit port s)

/-! ## Reference pins (R66) -/

/-- A 1 s window of REF10M_IN closes at a deviation in ppb (R51, R66). -/
def refWindow (ppb : Int) (s : State) : State :=
  let s := s.setTime (fun t => { t with ref10mOk := decide (ppb.natAbs ≤ 50000) })
  if s.flag fTimeCtlHoRef then holdRate s else s

/-- REF10M_WINDOW (R66). -/
def execRef10mWindow (ppb : Int) (s : State) : Host.Outcome State Fault Refusal := .next (refWindow ppb s)

/-- A 1PPS_IN edge (R52, R66). The spacing of 1 s ± 1 µs is counted in cycles of REFCLK_25M, which TIME_RATE does not correct (DESIGN CHOICE,
assumption 39). -/
def ppsEdge (s : State) : State :=
  let ns := timeNs s.time.t
  let ok := match s.time.lastPps with | some c => decide (25000000 ≤ s.clk - c + 25) && decide (s.clk - c ≤ 25000025) | none => false
  let s := s.setTime (fun t => { t with
    ppsNs := BitVec.ofNat 32 ns, ppsSec := BitVec.ofNat 32 (timeSec t.t), ppsinOk := ok, lastPps := some s.clk })
  if s.fld fTimeCtlSrc = 1 then measure (if ns < 500000000 then ns else (ns : Int) - 1000000000) s else s

/-- PPS_IN_EDGE (R66). -/
def execPpsInEdge (s : State) : Host.Outcome State Fault Refusal := .next (ppsEdge s)

/-- 1PPS_IN is lost (R51, R66). -/
def ppsLoss (s : State) : State :=
  let s := s.setTime (fun t => { t with ppsinOk := false })
  if s.fld fTimeCtlSrc = 1 then referenceLost s else s

/-- PPS_IN_LOSS (R66). -/
def execPpsInLoss (s : State) : Host.Outcome State Fault Refusal := .next (ppsLoss s)

/-- The instant of the next rise of 1PPS_OUT: a second boundary plus TIME_PPSOUT_OFS (R66). -/
def ppsOutNext (s : State) : Nat :=
  let ofs := signedOf 32 (s.fld fTimePpsoutOfsNs) * nsUnit
  let k := ((s.time.t : Int) - ofs) / secUnit + 1
  (k * secUnit + ofs).toNat

/-- 1PPS_OUT rises and stays high for WIDTH ms, 25,000 cycles each (R66, R69). -/
def ppsRise (s : State) : State :=
  let w := s.fld fTimePpsoutWidth
  if s.flag fTimeCtlPpsoutEn && w != 0 then (s.setTime (fun t => { t with ppsHigh := some (s.clk, s.clk + 25000 * w) })).emit (.pps w) else s

/-- PPS_OUT_PULSE (R66, R69). -/
def execPpsOutPulse (s : State) : Host.Outcome State Fault Refusal := .next (ppsRise (advanceTo (ppsOutNext s) s))

/-- The level of 1PPS_OUT (R66). -/
def State.pinPpsOut (s : State) : Bool :=
  s.flag fTimeCtlPpsoutEn && match s.time.ppsHigh with | some (a, b) => decide (a ≤ s.clk) && decide (s.clk < b) | none => false

/-- The level of WCLK_OUT: high for the first half of each media tick while WCLK_EN = 1 (R66); low until step 3 of the bring-up (R517). -/
def State.pinWclkOut (s : State) : Bool :=
  decide (3 ≤ s.fld fGlbStatStep) && s.flag fTimeCtlWclkEn && decide (2 * (s.time.t / 2 ^ 32 * 48000 % (65536 * 1000000000)) < 65536 * 1000000000)

/-- A write to TIME_CTL (R51, R52, R66): a new source, or a change of HO_REF; PPSOUT_EN = 0 ends a pulse of 1PPS_OUT. -/
def timeCtlWritten (wasSrc : Nat) (wasRef : Bool) (s : State) : State :=
  let src := s.fld fTimeCtlSrc
  let s := if s.flag fTimeCtlPpsoutEn then s else s.setTime (fun t => { t with ppsHigh := none })
  if src ≠ wasSrc then
    let s := restartCounts (s.setTime (fun t => { t with hoCause := 0 }))
    if src = 2 then s.setTime (fun t => { t with servo := .free })
    else if s.time.armed then enterAcquire s
    else holdRate (s.setTime (fun t => { t with servo := .freerun }))
  else if s.flag fTimeCtlHoRef ≠ wasRef then holdRate s
  else s

/-! ## Host operations (R48, R53, R56) -/

/-- TIME.SET (R53, R57, R58). -/
def execTimeSet (h : KciHdr) (sec ns : Nat) (s : State) : Host.Outcome State Fault Refusal :=
  .next (kci 0x0901 h none (fun _ => [chkRange sec 0 (2 ^ 48 - 1), chkRange ns 0 999999999]) (fun s =>
    if s.time.armed ∨ s.fld fTimeCtlSrc = 0 then kciFail eState s
    else kciOk (stepTo (sec * secUnit + ns * nsUnit) s)) s)

/-- TIME.SET_RATE (R53). -/
def execTimeSetRate (h : KciHdr) (rate : Int) (s : State) : Host.Outcome State Fault Refusal :=
  .next (kci 0x0902 h none (fun _ => [chk (decide (-rateMax ≤ rate) && decide (rate ≤ rateMax)) eRange]) (fun s =>
    if s.fld fTimeCtlSrc ≠ 2 then kciFail eState s else kciOk (s.setTime (fun t => { t with rate := rate }))) s)

/-- TIME.STEP_AUTH (R56). -/
def execTimeStepAuth (h : KciHdr) (limit : Nat) (s : State) : Host.Outcome State Fault Refusal :=
  .next (kci 0x0903 h none (fun _ => [chkZero limit, chkRange limit 1 (2 ^ 47 * 1000000000 - 1)]) (fun s =>
    if s.time.hoCause ≠ 2 then kciFail eState s
    else if s.time.auth.isSome then kciFail eBusy s
    else .wait .stepAuth (s.setTime (fun t => { t with auth := some ⟨limit, h.tag⟩ }))) s)

/-- A signed operand within bounds. -/
def chkInt (x lo hi : Int) : Check := if lo ≤ x ∧ x ≤ hi then none else some eRange

/-- Ports that a mask names. -/
def portCount (m : Nat) : Nat := ((List.range 4).filter (fun p => m.testBit p)).length

/-- Operand checks of TIME.CONFIG (R47, R48); each profile's ranges are PRESUMED from ST 2059-2 and AES67 (assumption 24), and the block is sixteen
slots of 4 bytes (DEDUCED, assumption 25). -/
def ptpChecks (len : Nat) (c : PtpConfig) : List Check :=
  let st := c.profile == 0
  [chkZero len, chk (len == 64) eRange, chkRange c.role 0 2, chkRange c.profile 0 1,
   chk (decide (c.ports < 16) && (if c.role = 2 then decide (2 ≤ portCount c.ports) else portCount c.ports == 1)) eRange,
   chkRange c.domain 0 127, chkInt c.logSync (-7) 1, if st then chkInt c.logSync (-7) (-1) else chkInt c.logSync (-4) 1,
   chkInt c.logAnn (-3) 4, if st then chkInt c.logAnn (-3) 1 else chkInt c.logAnn 0 4,
   chkInt c.logDelay (-7) 5, if st then chkInt c.logDelay c.logSync (c.logSync + 5) else chkInt c.logDelay (-3) 5,
   chkRange c.annTo 2 10, chkRange c.priority1 0 255, chkRange c.priority2 0 255,
   chk (c.clockCls.length == 6 && c.clockCls.all (fun x => decide (x < 256))) eRange]

/-- TIME.CONFIG (R48): a change of slave port is a change of master. -/
def execTimeConfig (h : KciHdr) (len : Nat) (cfg : PtpConfig) (s : State) : Host.Outcome State Fault Refusal :=
  .next (kci 0x0904 h none (fun _ => ptpChecks len cfg) (fun s =>
    let was := s.time.slave
    let gm := slaveGm s
    let s := s.setTime (fun t => { t with cfg := cfg, announces := t.announces.filter (fun a => cfg.ports.testBit a.1 && a.2.domain == cfg.domain) })
    kciOk (reselect was gm s)) s)

/-- TIME_STAT's live fields (R51, R52, R66, R67). -/
def timeStat (s : State) : Nat :=
  let t := s.time
  servoCode t.servo + t.hoCause * 16 + bitOf t.armed * 64 + bitOf t.ref10mOk * 128 + bitOf t.ppsinOk * 256

end Sys2Proof.Machine
end

