-- ==== Sys2Proof/Machine/Views.lean ====
section
/-!
DEFINITION. Views.lean: the register fields that show state held elsewhere (R4, R67, R97, R128, R162, R191, R192, R221, R222, R344, R383, R426,
R445, R455, R461, R462, R468, R487).
-/

namespace Sys2Proof.Machine

/-- TIME (R67); a timestamp queue's latched words are those of its last pop. -/
def timeView (s : State) (o : Nat) : Nat :=
  let t := s.time
  if o = 0x008 then timeStat s
  else if o = 0x010 then timeFrac t.t
  else if o = 0x014 then t.snapNs.toNat
  else if o = 0x018 then t.snapSecL.toNat
  else if o = 0x01C then t.snapSecH.toNat
  else if o = 0x020 then t.snapMtc.toNat
  else if o = 0x030 then patternOf 40 t.rate % W32
  else if o = 0x034 then t.rateHi.toNat
  else if o = 0x078 then t.ppsNs.toNat
  else if o = 0x07C then t.ppsSecLat.toNat
  else if 0x100 ≤ o ∧ o < 0x180 then
    let n := (o - 0x100) / 0x20
    let q := mapGet ({} : TsQueue) n t.tsq
    match o % 0x20 with
    | 0x00 => q.entries.length + 512 * bitOf (ptpRuns s n)
    | 0x0C => q.pop1.toNat
    | 0x10 => q.pop2.toNat
    | 0x14 => q.pop3.toNat
    | _ => 0
  else 0

/-- NETn (R97). -/
def netView (s : State) (p o : Nat) : Nat :=
  if o = 0x010 then portMac p % W32
  else if o = 0x014 then portMac p / W32
  else if o = 0x028 then ((s.port p).fifo.map (fun m => m.bytes)).foldl (· + ·) 0
  else 0

/-- MODE codes of MQ_QINFO (R128). -/
def modeCode (m : QMode) : Nat :=
  match m with
  | .fifo => 1
  | .ordered => 2
  | .async => 3

/-- MQ (R128); a closed queue shows zeros. -/
def mqView (s : State) (o : Nat) : Nat :=
  let sel := s.fld fMqQselQueue
  if o = 0x01C then spillUsed s
  else if o = 0x020 then s.mq.length
  else match s.queue? sel with
    | none => 0
    | some x =>
      match o with
      | 0x84 => modeCode x.mode + 16 * bitOf x.markValid + 32 * bitOf x.markLost + 64 * bitOf x.spilling + 128 * bitOf x.lastValid
      | 0x88 => x.depth + 65536 * x.held.length
      | 0x8C => x.retained.length + 65536 * pendingPops s sel
      | 0x90 => x.lastKey
      | 0x94 => x.n.lost
      | 0x98 => x.n.late
      | 0x9C => x.n.dup
      | _ => 0

/-- BULL (R162). -/
def bullView (s : State) (o : Nat) : Nat :=
  if o = 0x028 then s.bull.nodes.length
  else if o = 0x02C then s.bull.timers.length
  else if 0x100 ≤ o ∧ o < 0x140 then
    let n := (o - 0x100) / 4
    ((List.range 4).map (fun c => (mapGet [] (4 * n + c) s.bull.ready).length)).foldl (· + ·) 0
  else if 0x200 ≤ o ∧ o < 0x300 then
    let b := s.gen ((o - 0x200) / 0x20)
    match o % 0x20 with
    | 0x00 => bitOf b.en + 2 * b.flag
    | 0x04 => b.q
    | 0x08 => b.next % W32
    | 0x0C => b.members.length
    | _ => 0
  else 0

/-- GH (R191). -/
def ghView (s : State) (o : Nat) : Nat :=
  if o = 0x044 then min 1023 (ghBandwidth s)
  else if 0x100 ≤ o ∧ o < 0x500 then slotsUsed s ((o - 0x100) / 4) + 256 * slotsPinned s ((o - 0x100) / 4)
  else 0

/-- SEED (R192). -/
def seedView (s : State) (o : Nat) : Nat :=
  let a := s.acct (s.fld fSeedAselAccount)
  match o with
  | 0x24 => s.seed.freeA
  | 0x28 => s.seed.ownedA
  | 0x84 => kindCode a.kind + 16 * bitOf (decide (a.quota < a.held)) + 256 * a.releases
  | 0x88 => a.quota
  | 0x8C => a.held
  | 0x90 => a.peak
  | _ => 0

/-- STATE of a core (R221). -/
def coreCode (s : State) (k : Nat) : Nat :=
  if inSpare s k then 4
  else match (s.cor k).mode with
    | .off => 0
    | .wait => 1
    | .run => 2
    | .doneWait => 3
    | .retired => 5
    | .halted => 6

/-- STATE of a cluster (R222). -/
def pwrCode (p : Pwr) : Nat :=
  match p with
  | .run => 0
  | .idle => 1
  | .sleep => 2
  | .off => 3

/-- A bit per core of a cluster. -/
def coreMask (n : Nat) (f : Nat → Bool) : Nat := ((List.range 16).map (fun m => if f (16 * n + m) then 2 ^ m else 0)).foldl (· + ·) 0

/-- A core's window, with its cluster's registers in core 0's (R221, R222, R462). -/
def coreView (s : State) (k o : Nat) : Nat :=
  let n := k / 16
  match o with
  | 0x408 => (s.scoutOf k).held + 256 * bitOf (s.scoutOf k).full
  | 0x40C => (s.scoutOf k).lfsr
  | 0x800 => coreCode s k + 64 * (s.cor k).node
  | 0xC04 => pwrCode (s.cl n).pwr
  | 0xC08 => 256 * sparesHeld s n
  | 0xC0C => coreMask n (fun k => isWorking s k)
  | 0xC10 => coreMask n (fun k => decide ((s.cor k).mode = .retired))
  | _ => 0

/-- FLC (R426). -/
def flcView (s : State) (o : Nat) : Nat :=
  match o with
  | 0x40 => segTotal s
  | 0x44 => segFree s
  | 0x48 => lockedCount s (capPoints s)
  | 0x50 => if s.flag fFlcStatRebuild then oldestT s % W32 else 0
  | 0x54 => s.flc.rebHi.toNat
  | 0x58 => oldestT s % W32
  | 0x5C => s.flc.oldHi.toNat
  | 0xC4 => dieState s
  | 0xC8 => (selectedDie s).spare.length
  | 0xCC => dieErases s
  | 0xD0 => (selectedDie s).free.length
  | _ => 0

/-- HIF (R487); HIF_BOOT_PUSH.GO reads 1 while a pushed image goes through authentication (R12, R485, R502). -/
def hifView (s : State) (o : Nat) : Nat :=
  match o with
  | 0x08 => bitOf s.hif.isOpen
  | 0x34 => s.hif.outst.length
  | 0xA4 => bitOf s.glb.push.isSome
  | _ => 0

/-! ## Counter sets (R455, R461) -/

/-- The counter set whose PMU registers hold an address, and the offset there. -/
def pmuAt (a : Nat) : Option (Nat × Nat) :=
  if 0x200000 ≤ a ∧ a < 0x300000 then if a % 0x1000 < 0x400 then some ((a - 0x200000) / 0x1000, a % 0x1000) else none
  else if a % 0x10000 < 0xF000 then none
  else
    let o := a % 0x10000 - 0xF000
    match a / 0x10000 with
    | 0x4 => some (256, o)
    | 0x5 => some (257, o)
    | 0x6 => some (258, o)
    | 0x7 => some (259, o)
    | 0x8 => some (260, o)
    | 0x9 => some (261, o)
    | 0xA => some (262, o)
    | 0xB => some (263, o)
    | 0xD => some (264, o)
    | 0x10 => some (265, o)
    | _ => none

/-- A counter of a set by the offset of its low word: CYCLE, or PMC k. -/
def counterAt (s : State) (set lo : Nat) : Nat :=
  if lo = 0x20 then cycleOf s set else mapGet 0 ((lo - 0x44) / 0x10) (mapGet ({} : PmuSet) set s.pmu).pmc

/-- An offset of a counter's low word. -/
def counterLow (o : Nat) : Bool := o == 0x20 || (decide (0x44 ≤ o) && decide (o < 0xA4) && o % 0x10 == 4)

/-- An offset of a counter's high word. -/
def counterHigh (o : Nat) : Bool := o == 0x24 || (decide (0x48 ≤ o) && decide (o < 0xA8) && o % 0x10 == 8)

/-- PMU counters: the low word, and the read shadow for the high one. -/
def pmuView (s : State) (set o : Nat) : Nat :=
  if counterLow o then counterAt s set o % W32
  else if counterHigh o then (mapGet ({} : PmuSet) set s.pmu).rdSh
  else 0

/-! ## Every view -/

/-- GLB_ID (R4). -/
def glbIdView (o : Nat) : Nat := if o = 0 then glbId % 65536 else 0

/-- A record of the Scout ring, a word at a time (R462). -/
def scoutRingWord (s : State) (a : Nat) : Word :=
  let o := a % 0x1000 - 0x600
  (mapGet [] (o / 0x20) (s.scoutOf ((a - 0x200000) / 0x1000)).ring).getD (o % 0x20 / 4) 0

/-- A word of the MSI-X table or the PBA (R468). -/
def msixWord (s : State) (a : Nat) : Word :=
  if a < 0x129000 then
    let e := mapGet ({} : MsixEnt) ((a - 0x128000) / 16) s.hif.msix
    match a % 16 / 4 with
    | 0 => e.addrLo
    | 1 => e.addrHi
    | 2 => e.data
    | _ => e.ctl
  else
    let w := (a - 0x129000) / 4
    BitVec.ofNat 32 (((List.range 32).map (fun i => if (mapFind? (32 * w + i) s.hif.pba).isSome then 2 ^ i else 0)).foldl (· + ·) 0)

/-! ## Output pins (R517) -/

/-- The output pins whose levels R517 gives. -/
inductive Pin where
  | paEn (port : Nat)
  | gain (port bit : Nat)
  | gstb (port : Nat)
  | txen (port : Nat)
  | ppsOut
  | wclkOut
  | syncRx (port : Nat)
  | flashCe
  | flashWe
  | flashRe
  | flashWp
  | qspiCs
  | tdo
  | smbSda
  | thermtrip
  deriving DecidableEq, Repr

/-- A pin's level; `driven` where the block that drives it has it change within one step of this model. -/
inductive PinLevel where
  | low
  | high
  | highZ
  | driven
  deriving DecidableEq, Repr

/-- The level that a Bool stands for. -/
def pinBit (b : Bool) : PinLevel := if b then .high else .low

/-- What an output pin carries: the level of R517 until its block is enabled (R66, R363, R365, R442, R502). -/
def pinLevel (s : State) : Pin → PinLevel
  | .paEn p => pinBit (modemRuns s p && s.flag (fMdmPpGainPaEn p))
  | .gain p b => pinBit (modemRuns s p && (match gainPins s p with | some g => g.testBit b | none => false))
  | .gstb p => if modemRuns s p && (gainPins s p).isSome then .driven else .low
  | .txen p => if s.flag (fMadiPpCtlEn p) then .driven else .low
  | .ppsOut => pinBit s.pinPpsOut
  | .wclkOut => pinBit s.pinWclkOut
  | .syncRx p => if s.flag (fRfpCtlEn p) then .driven else .low
  | .flashCe => if s.flag fFlcCtlEn then .driven else .high
  | .flashWe => if s.flag fFlcCtlEn then .driven else .high
  | .flashRe => if s.flag fFlcCtlEn then .driven else .high
  | .flashWp => if s.flag fFlcCtlEn then .driven else .low
  | .qspiCs => if s.fld fGlbStatStep == 5 && s.glb.push.isNone then .driven else .high
  | .tdo => .highZ
  | .smbSda => if decide (4 ≤ s.fld fGlbStatStep) then .driven else .highZ
  | .thermtrip => if s.glb.tripped then .low else .highZ

/-- What the view fields of a register show. -/
def viewNat (s : State) (a : Nat) : Nat :=
  match pmuAt a with
  | some (set, o) => pmuView s set o
  | none =>
    if 0x200000 ≤ a then coreView s ((a - 0x200000) / 0x1000) (a % 0x1000)
    else
      let o := a % 0x10000
      match a / 0x10000 with
      | 0x0 => glbIdView o
      | 0x2 => timeView s o
      | 0x3 => if 0x100 ≤ o ∧ o < 0x500 then min 7 (liveStrikes s ((o - 0x100) / 4)).length else 0
      | 0x4 => bullView s o
      | 0x5 => ghView s o
      | 0x6 => seedView s o
      | 0x7 => mqView s o
      | 0x8 => netView s 0 o
      | 0x9 => netView s 1 o
      | 0xA => netView s 2 o
      | 0xB => netView s 3 o
      | 0xD => if o = 0x84 then mdmLinfo s else if o = 0x88 then mdmLrssi s else 0
      | 0x10 => flcView s o
      | 0x12 => hifView s o
      | _ => 0

/-- The word of a register as a read finds it, without what a read changes (R12). -/
def readWord (s : State) (a : Nat) : Word :=
  if isMsix a then msixWord s a
  else if isScoutRing a then scoutRingWord s a
  else s.reg a ||| BitVec.ofNat 32 (viewNat s a)

end Sys2Proof.Machine
end

