-- ==== Sys2Proof/Machine/Access.lean ====
section
/-!
DEFINITION. Access.lean: host accesses to BAR0, BAR2 and through SMBus: access types, reserved values and offsets, locks, and what a read or a
write of a register does (R11 to R13, R38, R464 to R469, and the register rules of each chapter).
-/

namespace Sys2Proof.Machine

/-! ## Bad accesses (R466) -/

/-- Records a bad access: counted, and latched where none is. -/
def badAccess (kind : Nat) (path : BusPath) (a : Nat) (s : State) : State :=
  let s := s.bump fHifBadaccCount 1
  let s := if s.flag fHifErrInfoValid then s
    else (((s.setFld fHifErrAddrOffset a).setFld fHifErrInfoKind kind).setFld fHifErrInfoPath (match path with | .pcie => 0 | .smbus => 1)).setFld fHifErrInfoValid 1
  raiseFld 0x12 (fHifIntStat.bit 1) s

/-! ## What a field accepts (R13) -/

/-- A power of two within bounds. -/
def isPow2 (a b v : Nat) : Bool := decide (a ≤ v) && decide (v ≤ b) && v == 2 ^ v.log2

/-- A value that a field's table does not mark as reserved. -/
def Legal.ok (l : Legal) (v : Nat) : Bool :=
  match l with
  | .any => true
  | .upTo n => decide (v ≤ n)
  | .ne n => v != n
  | .between a b => decide (a ≤ v) && decide (v ≤ b)
  | .zeroOr a b => v == 0 || (decide (a ≤ v) && decide (v ≤ b))
  | .pow2 a b => isPow2 a b v
  | .ring => v == 0 || isPow2 16 65536 v
  | .signed n => decide (-(n : Int) ≤ signedOf 32 v) && decide (signedOf 32 v ≤ n)

/-- Event numbers that a counter set accepts (R451, R452). -/
def eventOk (set ev : Nat) : Bool :=
  if ev = 0 then true
  else if set < 256 then
    decide (ev ≤ 4) || (decide (0x10 ≤ ev) && decide (ev ≤ 0x17)) || (decide (0x20 ≤ ev) && decide (ev ≤ 0x24)) ||
    (decide (0x30 ≤ ev) && decide (ev ≤ 0x33)) || [0x40, 0x41, 0x50, 0x51, 0x52, 0x60].contains ev
  else
    let b : Nat × Nat := if set = 256 then (0x101, 4) else if set = 257 then (0x201, 3) else if set = 258 then (0x301, 3)
      else if set = 259 then (0x401, 3) else if set < 264 then (0x501, 3) else if set = 264 then (0x601, 2) else (0x701, 3)
    decide (b.1 ≤ ev) && decide (ev < b.1 + b.2)

/-- What a chapter adds to the table: event numbers (R451), RBD below K (R344), DB below SIZE (R471). -/
def valueOk (s : State) (a lo v : Nat) : Bool :=
  match pmuAt a with
  | some (set, o) => if lo = 0 ∧ 0x40 ≤ o ∧ o % 0x10 = 0 then eventOk set v else true
  | none =>
    if 0xC0000 ≤ a ∧ a < 0xD0000 ∧ a % 0x2000 = 0x10 then !(s.flag (fRfpCtlKsel ((a - 0xC0000) / 0x2000)) && decide (16 ≤ v))
    else if a = fHifKciDbIndex.addr then decide (v < s.fld fHifKciSizeEntries)
    else true

/-- A field that accepts no write now (R129, R163, R193, R223, R324, R345, R384, R425, R427, R438, R446, R488). -/
def isLocked (s : State) (a lo : Nat) : Bool :=
  if 0x200000 ≤ a then a % 0x10000 == 0xC14 && s.flag fBullCtlEn
  else
    let o := a % 0x10000
    match a / 0x10000 with
    | 0x3 => (o == 0x04 && lo == 1 && s.flag fBullCtlEn) || ([0x10, 0x14, 0x18].contains o && s.flag fUmpCtlEn)
    | 0x4 => [0x14, 0x18, 0x30, 0x34, 0x38].contains o && s.flag fBullCtlEn
    | 0x6 => [0x10, 0x14, 0x18, 0x20, 0x1C].contains o && (s.flag fSeedCtlEn || decide (s.seed.ownedA ≠ 0))
    | 0x7 => [0x10, 0x14, 0x18].contains o && !s.mq.isEmpty
    | 0xC =>
      let p := (a - 0xC0000) / 0x2000
      let r := a % 0x2000
      s.flag (fRfpCtlEn p) && ([0x0C, 0x10, 0x28, 0x2C].contains r || (r == 0x04 && decide (3 ≤ lo)))
    | 0xD => o == 0x10 && s.flag fMdmCtlEn
    | 0xF => (o == 0x08 || o == 0x0C) && s.flag fPackCtlEn
    | 0x10 => [0x14, 0x20, 0x24, 0x28].contains o && s.flag fFlcCtlEn
    | 0x11 => decide (0x100 ≤ o) && s.flag (fMadiPpCtlEn ((o - 0x100) / 0x40)) && ([0x04, 0x08].contains (o % 0x40) || (o % 0x40 == 0 && decide (4 ≤ lo)))
    | 0x12 => [0x20, 0x24, 0x28, 0x40, 0x44, 0x48].contains o && s.flag fHifCtlKciEn
    | _ => false

/-- The value that a field holds after a write of `v` (R12, R13). An action bit is left to its own rule. -/
def fieldAfter (s : State) (a : Nat) (f : RegField) (old v : Nat) : Nat :=
  match f.acc with
  | .rw => if !isLocked s a f.lo && f.legal.ok v && valueOk s a f.lo v then v else old
  | .w1c => old - (old &&& v)
  | _ => old

/-- The word that a register holds after a write. The two low bits of CLUn_Cm_HOME are reserved (R221). -/
def wordAfter (s : State) (a : Nat) (val : Word) : Word :=
  let val := if 0x200000 ≤ a ∧ a % 0x1000 = 0x810 then setBits val 0 2 0 else val
  (fieldsAt a).foldl (fun w f => setBits w f.lo (f.hi + 1 - f.lo) (fieldAfter s a f (bits (s.reg a) f.lo (f.hi + 1 - f.lo)) (bits val f.lo (f.hi + 1 - f.lo)))) (s.reg a)

/-! ## Interrupts that a write changes (R468) -/

/-- The interrupt source that a register's sticky bits feed. -/
def stickySource (a : Nat) : Option Nat :=
  match pmuAt a with
  | some (set, o) => if o = 0x0C then some (pmuSource set) else none
  | none =>
    if a = 0x120008 then some 0x00
    else if a = 0x10588 then some 0x01
    else if a = 0x20008 then some 0x02
    else if a = 0x30008 then some 0x03
    else if a = 0x4000C then some 0x04
    else if a = 0x5000C then some 0x05
    else if a = 0x6002C then some 0x06
    else if a = 0x70024 then some 0x07
    else if a = 0x80008 then some 0x08
    else if a = 0x90008 then some 0x09
    else if a = 0xA0008 then some 0x0A
    else if a = 0xB0008 then some 0x0B
    else if 0xC0000 ≤ a ∧ a < 0xD0000 ∧ a % 0x2000 = 8 then some 0x0C
    else if a = 0xD0008 then some 0x0D
    else if a = 0xF0014 then some 0x0F
    else if a = 0x10000C then some 0x10
    else if a = 0x110004 then some 0x11
    else if a = 0x12000C then some 0x12
    else none

/-- After a register write: a source that has become asserted sends its message, and one that a clear leaves asserted sends it again. -/
def writeIrqs (a : Nat) (old new : State) : State :=
  let again := match stickySource a with
    | some src => decide (old.reg a &&& ~~~ (new.reg a) ≠ 0) && irqLine old src && irqLine new src
    | none => false
  let s := (List.range 48).foldl (fun s src => if !irqLine old src && irqLine new src then sendMsi src s else s) new
  match again, stickySource a with
  | true, some src => sendMsi src s
  | _, _ => s

/-! ## Writes with an effect -/

/-- A write of a PMU counter or selector (R455, R456, R461). -/
def pmuWritten (set o : Nat) (val : Word) (s : State) : State :=
  let p := mapGet ({} : PmuSet) set s.pmu
  if counterHigh o then { s with pmu := mapInsert set { p with cycle := cycleOf s set, mark := setCycles s set, wrSh := if o = 0x24 then val.toNat else val.toNat % 65536 } s.pmu }
  else if counterLow o then
    if o = 0x20 then { s with pmu := mapInsert set { p with cycle := val.toNat + p.wrSh * W32, mark := setCycles s set } s.pmu }
    else
      let v := val.toNat + p.wrSh % 65536 * W32
      { s with pmu := mapInsert set { p with cycle := cycleOf s set, mark := setCycles s set, pmc := mapInsert ((o - 0x44) / 0x10) v p.pmc } s.pmu }
  else pmuSync set s

/-- A write of SCOUT_CTL (R458, R459): a cleared EN discards a tag, a set one restarts SEQ, and REL empties the ring. -/
def scoutCtlWritten (k : Nat) (was : Bool) (rel : Bool) (s : State) : State :=
  let x := s.scoutOf k
  let now := s.flag (fScoutCtlEn k)
  let x := if now then x else { x with tagged := false }
  let x := if now && !was then { x with seq := 0 } else x
  let x := if rel then { x with held := 0, full := false, ring := [] } else x
  { s with scout := mapInsert k x s.scout }

/-- A write of a core's or a cluster's register; `old` is the state before it. -/
def coreRegWritten (k o : Nat) (val : Word) (old s : State) : State :=
  match o with
  | 0x404 => scoutCtlWritten k (old.flag (fScoutCtlEn k)) (val.getLsbD 8) s
  | 0x40C => if bits val 0 16 = 0 then s else { s with scout := mapInsert k { s.scoutOf k with lfsr := bits val 0 16 } s.scout }
  | 0x810 => homeWritten k s
  | 0xC04 => limitWritten (k / 16) s
  | 0xC08 => sparesWritten (k / 16) (s.fld (fCluSparesCount (k / 16))) (s.setFld (fCluSparesCount (k / 16)) (old.fld (fCluSparesCount (k / 16))))
  | _ => s

/-- A write of RFPn (R327, R331, R345). -/
def rfpRegWritten (p o : Nat) (val : Word) (old s : State) : State :=
  match o with
  | 0x04 =>
    let s := rfpCtlWritten p s
    if old.flag (fRfpCtlEn p) && !s.flag (fRfpCtlEn p) then closeBlock (0x60 + p) s else s
  | 0x14 => if val.getLsbD 16 then dcbClear p s else s
  | _ => s

/-- A write of UMP_INJECT.ARM (R445): ignored while INJ_EN = 0. -/
def injectWritten (val : Word) (s : State) : State :=
  if val.getLsbD 16 && s.flag fUmpCtlInjEn then s.setFld fUmpInjectArm 1 else s

/-- An accepted write of SEED_POOL_GRAN makes every granule FREE (R193). -/
def poolWritten (val : Word) (old s : State) : State :=
  if isLocked old fSeedPoolGranCount.addr 0 || decide (16777216 < bits val 0 25) then s
  else s.setSeed (fun d => { d with tags := [], freeA := bits val 0 25, freeB := bits val 0 25, ownedA := 0, ownedB := 0 })

/-- What a write of a register sets off; `old` is the state before it. -/
def regWritten (a : Nat) (val : Word) (old s : State) : State :=
  match pmuAt a with
  | some (set, o) => pmuWritten set o val s
  | none =>
    if 0x200000 ≤ a then coreRegWritten ((a - 0x200000) / 0x1000) (a % 0x1000) val old s
    else if a = 0x10 then glbRstWritten val s
    else if a = fTimeCtlSrc.addr then timeCtlWritten (old.fld fTimeCtlSrc) (old.flag fTimeCtlHoRef) s
    else if a = fUmpInjectArm.addr then injectWritten val s
    else if a = fSeedPoolGranCount.addr then poolWritten val old s
    else if a = 0x80004 ∨ a = 0x90004 ∨ a = 0xA0004 ∨ a = 0xB0004 then
      let p := a / 0x10000 - 8
      if s.flag (fNetCtlEn p) then s else linkDown p s
    else if 0xC0000 ≤ a ∧ a < 0xD0000 then rfpRegWritten ((a - 0xC0000) / 0x2000) (a % 0x2000) val old s
    else if a = fMdmCtlEn.addr then if old.flag fMdmCtlEn && !s.flag fMdmCtlEn then closeBlock 0x68 s else s
    else if a = fLdpcCtlEn.addr then poolFill s.mdm.wait.length s
    else if a = fPackCtlEn.addr then if old.flag fPackCtlEn && !s.flag fPackCtlEn then closeBlock 0x78 s else s
    else if a = fFlcCtlEn.addr then flcCtlWritten (old.flag fFlcCtlEn) s
    else if 0x110100 ≤ a ∧ a < 0x110200 ∧ a % 0x40 = 0 then madiCtlWritten ((a - 0x110100) / 0x40) s
    else if a = fHifBootPushGo.addr then bootPushWritten val s
    else s

/-- A write of MADI_Pp_CTL that R324 refuses: EN = 1 with an enabled direction or an account that does not fit. -/
def madiRefused (a : Nat) (val : Word) (s : State) : Bool :=
  decide (0x110100 ≤ a) && decide (a < 0x110200) && a % 0x40 == 0 && val.getLsbD 0 &&
    !madiEnableOk ((a - 0x110100) / 0x40) (val.getLsbD 1) (val.getLsbD 2) s

/-- A full write of a register (R12, R13). -/
def regWrite (a : Nat) (val : Word) (s : State) : State :=
  if madiRefused a val s then s.setFld (fMadiPpStatCfgErr ((a - 0x110100) / 0x40)) 1
  else regWritten a val s (writeIrqs a s (s.setReg a (wordAfter s a val)))

/-- A write into the MSI-X table: a vector unmasked while its message is pending sends it (R468). The PBA is read only. -/
def msixWrite (a : Nat) (val : Word) (s : State) : State :=
  if 0x129000 ≤ a then s
  else
    let v := (a - 0x128000) / 16
    let e := mapGet ({} : MsixEnt) v s.hif.msix
    let e := match a % 16 / 4 with
      | 0 => { e with addrLo := val }
      | 1 => { e with addrHi := val }
      | 2 => { e with data := val }
      | _ => { e with ctl := val &&& 1 }
    let s := s.setHif (fun h => { h with msix := mapInsert v e h.msix })
    if !e.ctl.getLsbD 0 && (mapFind? v s.hif.pba).isSome then (s.setHif (fun h => { h with pba := mapErase v h.pba })).emit (.msix v) else s

/-- A BAR0 write from either path (R11, R38, R466, R500). R11 obliges the host to align its accesses; an offset that is no multiple of 4 reaches the word
that holds it (DESIGN CHOICE, assumption 46). -/
def busWrite (path : BusPath) (off byteEn : Nat) (val : Word) (s : State) : State :=
  let a := off / 4 * 4
  if !reaches s a then s
  else if byteEn ≠ 15 then badAccess 1 path a s
  else if isReserved a then badAccess 2 path a s
  else if isMsix a then msixWrite a val s
  else if isScoutRing a then s
  else regWrite a val s

/-! ## Reads with an effect -/

/-- A read of TIME_TSQn_POP0 pops the oldest entry, unless the service cores own the queue (R63, R64, R67). -/
def tsqPop (n : Nat) (s : State) : Word × State :=
  if ptpRuns s n then (0, s)
  else
    let q := mapGet ({} : TsQueue) n s.time.tsq
    match q.entries with
    | [] => (0, { s with time := { s.time with tsq := mapInsert n { q with pop1 := 0, pop2 := 0, pop3 := 0 } s.time.tsq } })
    | e :: rest =>
      let ns := e.time / 65536
      let sec := ns / 1000000000
      let q' : TsQueue := { entries := rest, pop1 := BitVec.ofNat 32 (ns % 1000000000 + 2 ^ 31), pop2 := BitVec.ofNat 32 sec
                            pop3 := BitVec.ofNat 32 (sec / W32 % 65536) }
      (BitVec.ofNat 32 (e.id % 65536 + e.time % 65536 * 65536), { s with time := { s.time with tsq := mapInsert n q' s.time.tsq } })

/-- A read of HIF_FLOWEV_POP pops one event (R469). -/
def flowEvPop (s : State) : Word × State :=
  match s.hif.flowEv with
  | [] => (0, s)
  | e :: rest => (BitVec.ofNat 32 (e.1 + 65536 * bitOf e.2 + 2 ^ 31), s.setHif (fun h => { h with flowEv := rest }))

/-- Clears the RC fields of a register (R12). -/
def clearRc (a : Nat) (s : State) : State :=
  if (fieldsAt a).any (fun f => f.acc == .rc) then
    s.setReg a ((fieldsAt a).foldl (fun w f => if f.acc = .rc then setBits w f.lo (f.hi + 1 - f.lo) 0 else w) (s.reg a))
  else s

/-- A read of a register: the word, and what the read changes (R12, R64, R67, R426, R455, R469). -/
def regRead (a : Nat) (s : State) : Word × State :=
  let w := readWord s a
  match pmuAt a with
  | some (set, o) =>
    if counterLow o then
      (w, { s with pmu := mapInsert set { mapGet ({} : PmuSet) set s.pmu with cycle := cycleOf s set, mark := setCycles s set, rdSh := counterAt s set o / W32 } s.pmu })
    else (w, s)
  | none =>
    if a = 0x20010 then
      let t := s.time
      (w, { s with time := { t with
        snapNs := BitVec.ofNat 32 (timeNs t.t), snapSecL := BitVec.ofNat 32 (timeSec t.t), snapSecH := BitVec.ofNat 32 (timeSec t.t / W32)
        snapMtc := BitVec.ofNat 32 s.mtc } })
    else if a = 0x20030 then (w, { s with time := { s.time with rateHi := BitVec.ofNat 32 (patternOf 40 s.time.rate / W32) } })
    else if a = 0x20078 then (w, { s with time := { s.time with ppsSecLat := s.time.ppsSec } })
    else if 0x20100 ≤ a ∧ a < 0x20180 ∧ a % 0x20 = 8 then tsqPop ((a - 0x20100) / 0x20) s
    else if a = fHifFlowevPopFlow.addr then flowEvPop s
    else if a = fFlcRebuildTLoT.addr then (w, s.setFlc (fun f => { f with rebHi := BitVec.ofNat 32 (if s.flag fFlcStatRebuild then oldestT s / W32 else 0) }))
    else if a = fFlcOldestTLoT.addr then (w, s.setFlc (fun f => { f with oldHi := BitVec.ofNat 32 (oldestT s / W32) }))
    else (w, clearRc a s)

/-- A BAR0 read from either path: the word that it returns, and what the read changes (R11, R38, R466, R500). An offset that is no multiple of 4 reaches
the word that holds it (DESIGN CHOICE, assumption 46). -/
def busWord (path : BusPath) (off : Nat) (s : State) : Word × State :=
  let a := off / 4 * 4
  if !reaches s a then (0, s)
  else if isReserved a then (0, badAccess 2 path a s)
  else regRead a s

/-- A 32-bit read: the word goes to the reader. -/
def busRead (path : BusPath) (off : Nat) (s : State) : State :=
  let r := busWord path off s
  r.2.setHif (fun h => { h with rd := [r.1] })

/-- A 64-bit PCIe access is two 32-bit accesses, the lower address first (R11). SMBus has none. -/
def isWide (path : BusPath) (wide : Bool) : Bool := wide && path == .pcie

/-- A read of 32 or 64 bits (R11). -/
def busReadWide (path : BusPath) (off : Nat) (wide : Bool) (s : State) : State :=
  if isWide path wide then
    let lo := busWord path off s
    let hi := busWord path (off + 4) lo.2
    hi.2.setHif (fun h => { h with rd := [lo.1, hi.1] })
  else busRead path off s

/-- A write of 32 or 64 bits (R11). -/
def busWriteWide (path : BusPath) (off byteEn : Nat) (val : Word) (high : Option (Nat × Word)) (s : State) : State :=
  let s := busWrite path off byteEn val s
  match high with
  | some (en, v) => if isWide path true then busWrite path (off + 4) en v s else s
  | none => s

/-! ## The commands that write a register -/

/-- REGISTER_WRITE (R12). -/
def execRegisterWrite (path : BusPath) (off byteEn : Nat) (val : Word) (high : Option (Nat × Word)) (s : State) : Host.Outcome State Fault Refusal :=
  .next (busWriteWide path off byteEn val high s)

/-- A full write of one of an array's registers, which exists below a bound. -/
def arrayWrite (path : BusPath) (i bound : Nat) (f : Nat → Fld) (val : Word) (s : State) : State :=
  if i < bound then busWrite path (f i).addr 15 val s else s

/-- CLUN_PWR_LIMIT_WRITE (R495). -/
def execClunPwrLimitWrite (path : BusPath) (cluster : Nat) (val : Word) (s : State) : Host.Outcome State Fault Refusal :=
  .next (arrayWrite path cluster 16 fCluPwrLimit val s)

/-- CLUN_SPARES_COUNT_WRITE (R219). -/
def execClunSparesCountWrite (path : BusPath) (cluster : Nat) (val : Word) (s : State) : Host.Outcome State Fault Refusal :=
  .next (arrayWrite path cluster 16 fCluSparesCount val s)

/-- CLUN_CM_HOME_WRITE (R218). -/
def execClunCmHomeWrite (path : BusPath) (core : Nat) (val : Word) (s : State) : Host.Outcome State Fault Refusal :=
  .next (arrayWrite path core 256 fCoreHomePc val s)

/-- KCI_DOORBELL (R471). -/
def execKciDoorbell (path : BusPath) (val : Word) (s : State) : Host.Outcome State Fault Refusal :=
  .next (busWrite path fHifKciDbIndex.addr 15 val s)

/-- PMU_COUNTER_HIGH_WRITE (R455). -/
def execPmuCounterHighWrite (path : BusPath) (off : Nat) (val : Word) (s : State) : Host.Outcome State Fault Refusal :=
  .next (busWrite path off 15 val s)

/-- PMU_COUNTER_LOW_WRITE (R455). -/
def execPmuCounterLowWrite (path : BusPath) (off : Nat) (val : Word) (s : State) : Host.Outcome State Fault Refusal :=
  .next (busWrite path off 15 val s)

/-- SCOUT_CTL_REL_WRITE (R458). -/
def execScoutCtlRelWrite (path : BusPath) (core : Nat) (val : Word) (s : State) : Host.Outcome State Fault Refusal :=
  .next (arrayWrite path core 256 fScoutCtlRel val s)

/-- RFPN_DCB_CLR_WRITE (R331). -/
def execRfpnDcbClrWrite (path : BusPath) (port : Nat) (val : Word) (s : State) : Host.Outcome State Fault Refusal :=
  .next (arrayWrite path port 8 fRfpDcbClr val s)

/-- UMP_INJECT_ARM_WRITE (R446). -/
def execUmpInjectArmWrite (path : BusPath) (val : Word) (s : State) : Host.Outcome State Fault Refusal :=
  .next (busWrite path fUmpInjectArm.addr 15 val s)

/-- SEED_POOL_GRAN_WRITE (R193). -/
def execSeedPoolGranWrite (path : BusPath) (val : Word) (s : State) : Host.Outcome State Fault Refusal :=
  .next (busWrite path fSeedPoolGranCount.addr 15 val s)

/-- MADI_PORT_ENABLE (R324): a write of MADI_Pp_CTL. -/
def execMadiPortEnable (path : BusPath) (port : Nat) (val : Word) (s : State) : Host.Outcome State Fault Refusal :=
  .next (arrayWrite path port 4 fMadiPpCtlEn val s)

/-- FLC_ENABLE (R419): a write of FLC_CTL. -/
def execFlcEnable (path : BusPath) (val : Word) (s : State) : Host.Outcome State Fault Refusal :=
  .next (busWrite path fFlcCtlEn.addr 15 val s)

/-! ## The commands that read a register -/

/-- RC_COUNTER_READ (R12). -/
def execRcCounterRead (path : BusPath) (off : Nat) (wide : Bool) (s : State) : Host.Outcome State Fault Refusal :=
  .next (busReadWide path off wide s)

/-- RESERVED_REGISTER_READ (R466). -/
def execReservedRegisterRead (path : BusPath) (off : Nat) (wide : Bool) (s : State) : Host.Outcome State Fault Refusal :=
  .next (busReadWide path off wide s)

/-- TIME_NOW_FRAC_READ (R67). -/
def execTimeNowFracRead (path : BusPath) (s : State) : Host.Outcome State Fault Refusal := .next (busRead path fTimeNowFracFrac.addr s)

/-- TIME_RATE_LO_READ (R67). -/
def execTimeRateLoRead (path : BusPath) (s : State) : Host.Outcome State Fault Refusal := .next (busRead path fTimeRateLoRate.addr s)

/-- TIME_PPSIN_NS_READ (R67). -/
def execTimePpsinNsRead (path : BusPath) (s : State) : Host.Outcome State Fault Refusal := .next (busRead path fTimePpsinNsNs.addr s)

/-- TIME_TSQN_POP0_READ (R64). -/
def execTimeTsqnPop0Read (path : BusPath) (port : Nat) (s : State) : Host.Outcome State Fault Refusal :=
  .next (if port < 4 then busRead path (fTimeTsqPop0Id port).addr s else s)

/-- HIF_FLOWEV_POP_READ (R469). -/
def execHifFlowevPopRead (path : BusPath) (s : State) : Host.Outcome State Fault Refusal := .next (busRead path fHifFlowevPopFlow.addr s)

/-- FLC_REBUILD_T_LO_READ (R426). -/
def execFlcRebuildTLoRead (path : BusPath) (s : State) : Host.Outcome State Fault Refusal := .next (busRead path fFlcRebuildTLoT.addr s)

/-- FLC_OLDEST_T_LO_READ (R426). -/
def execFlcOldestTLoRead (path : BusPath) (s : State) : Host.Outcome State Fault Refusal := .next (busRead path fFlcOldestTLoT.addr s)

/-- PMU_COUNTER_LOW_READ (R455). -/
def execPmuCounterLowRead (path : BusPath) (off : Nat) (wide : Bool) (s : State) : Host.Outcome State Fault Refusal :=
  .next (busReadWide path off wide s)

/-! ## SMBus (R464) -/

/-- A transaction with a wrong byte count or a failing PEC is ignored and counted. -/
def smbus (ok : Bool) (pec : Option Bool) (f : State → State) (s : State) : State :=
  if ok && pec != some false then f s else if reaches s 0x120000 then s.bump fHifSmbErrCount 1 else s

/-- SMBUS_WRITE (R464). -/
def execSmbusWrite (count : Nat) (pec : Option Bool) (off : Nat) (val : Word) (s : State) : Host.Outcome State Fault Refusal :=
  .next (smbus (count == 8) pec (busWrite .smbus off 15 val) s)

/-- SMBUS_READ_ADDRESS (R464). -/
def execSmbusReadAddress (count : Nat) (pec : Option Bool) (off : Nat) (s : State) : Host.Outcome State Fault Refusal :=
  .next (smbus (count == 4) pec (fun s => s.setHif (fun h => { h with smbOff := some off })) s)

/-- SMBUS_READ_DATA (R464): without an address since the last one it reads offset 0. -/
def execSmbusReadData (pec : Option Bool) (s : State) : Host.Outcome State Fault Refusal :=
  .next (smbus true pec (fun s => busRead .smbus (s.hif.smbOff.getD 0) (s.setHif (fun h => { h with smbOff := none }))) s)

/-! ## BAR2 (R130, R466, R467) -/

/-- HBM is reachable once its training is over (R500). -/
def hbmUp (s : State) : Bool := !s.glb.tripped && decide (5 ≤ s.fld fGlbStatStep)

/-- HBM address of a BAR2 offset. -/
def bar2Addr (s : State) (off : Nat) : Nat := s.fld fHifBar2WinSel * W32 + off

/-- An address in a region of HBM. -/
def inRegion (base size a : Nat) : Bool := decide (base ≤ a) && decide (a - base < size)

/-- An HBM address in the Bullpen descriptor region (R130). Bullpen has the region from READY on: before that the host places a pushed image at
HBM address 0 (R485, R500, R502; DEDUCED, assumption 7). -/
def inDescRegion (s : State) (a : Nat) : Bool :=
  s.ready && inRegion (s.fld fBullDescBaseLoAddr * 2 ^ fBullDescBaseLoAddr.lo + s.fld fBullDescBaseHiAddr * W32) 0x1000000 a

/-- HBM whose bytes a block writes in a form or at a time that the spec leaves open: descriptors, which Bullpen caches, queue items that spill, and
pages in staging (R101, R130, R387). -/
def openHbm (s : State) (a : Nat) : Bool :=
  inDescRegion s a ||
  inRegion (s.fld fMqSpillBaseLoAddr * 2 ^ fMqSpillBaseLoAddr.lo + s.fld fMqSpillBaseHiAddr * W32) (s.fld fMqSpillSizeMib * 2 ^ 20) a ||
  inRegion (s.fld fFlcStageBaseLoAddr * 2 ^ fFlcStageBaseLoAddr.lo + s.fld fFlcStageBaseHiAddr * W32) (s.fld fFlcStageSizeMib * 2 ^ 20) a

/-- Where the tag table begins (R179). -/
def tagBase (s : State) : Nat := s.fld fSeedTagBaseLoAddr * 2 ^ fSeedTagBaseLoAddr.lo + s.fld fSeedTagBaseHiAddr * W32

/-- An HBM address in the tag table (R178, R179). -/
def inTagTable (s : State) (a : Nat) : Bool := inRegion (tagBase s) (8 * poolSize s) a

/-- A granule's tag as its 64 bits (R179). What the chain fields of a granule that Seedbed made FREE hold the spec leaves open: `f` is free. A FREE granule
that the list of tags holds is one whose tag the host has written. -/
def tagBits (t : Option Tag) (f : Nat) : Nat :=
  match t with
  | none => f % 2 ^ 25 + f / 2 ^ 25 % 2 ^ 22 * 2 ^ 27
  | some t =>
  let st := match t.st with | .free => 0 | .owned => 1 | .run => 2 | .reserved => 3
  t.next % 2 ^ 24 + bitOf t.last * 2 ^ 24 + st * 2 ^ 25 + t.owner % 2 ^ 12 * 2 ^ 27 + t.rcount % 2 ^ 6 * 2 ^ 39 + t.chain % 2 ^ 4 * 2 ^ 45 + t.upper % 2 ^ 15 * 2 ^ 49

/-- The tag that 64 bits spell (R179). -/
def tagOf (w : Nat) : Tag :=
  { next := w % 2 ^ 24, last := w.testBit 24, owner := w / 2 ^ 27 % 2 ^ 12, rcount := w / 2 ^ 39 % 2 ^ 6, chain := w / 2 ^ 45 % 2 ^ 4, upper := w / 2 ^ 49
    st := match w / 2 ^ 25 % 4 with | 0 => .free | 1 => .owned | 2 => .run | _ => .reserved }

/-- A byte of HBM as BAR2 reads it; `f` names the free values of the read. -/
def hbmSeen (s : State) (f a : Nat) : Byte :=
  if openHbm s a then BitVec.ofNat 8 (Config.freeFn (f + 2) a)
  else if inTagTable s a then
    let g := (a - tagBase s) / 8
    BitVec.ofNat 8 (tagBits (mapFind? g s.seed.tags) (Config.freeFn (f + 2) (tagBase s + 8 * g)) / 2 ^ (8 * ((a - tagBase s) % 8)))
  else memRead s.hbm a

/-- Writes the bytes that fall outside a region. -/
def bar2Bytes (inside : Nat → Bool) (a : Nat) : List Byte → List Host.Cell → List Host.Cell
  | [], m => m
  | b :: t, m => bar2Bytes inside (a + 1) t (if inside a then m else memWrite m a b)

/-- A byte of the tag table, as the host writes it: the tag holds the bits it then spells; HELD and the totals stay (R179, R187). `f` names the free
values of the fields it leaves. -/
def tagByte (f a : Nat) (b : Byte) (s : State) : State :=
  let g := (a - tagBase s) / 8
  let w := 2 ^ (8 * ((a - tagBase s) % 8))
  let old := tagBits (mapFind? g s.seed.tags) (Config.freeFn (f + 2) (tagBase s + 8 * g))
  s.setSeed (fun d => { d with tags := mapInsert g (tagOf (old - old / w % 256 * w + b.toNat * w)) d.tags })

/-- The bytes of a BAR2 write that fall in the tag table (R179). -/
def tagBytes (f a : Nat) : List Byte → State → State
  | [], s => s
  | b :: t, s => tagBytes f (a + 1) t (if inTagTable s a && !openHbm s a then tagByte f a b s else s)

/-- A BAR2 write as far as it reaches the tag table (R179). -/
def tagWrite (a : Nat) (bytes : List Byte) (s : State) : State :=
  if (List.range bytes.length).any (fun i => inTagTable s (a + i) && !openHbm s (a + i)) then tagBytes s.draw.1 a bytes s.draw.2 else s

/-- A BAR2 write; what falls in the descriptor region is discarded and the access recorded (R130, R466). -/
def bar2Write (off : Nat) (bytes : List Byte) (s : State) : State :=
  if !hbmUp s then s
  else
    let bytes := bytes.take (W32 - off)
    let a := bar2Addr s off
    let s' : State := tagWrite a bytes { s with
      hbm := bar2Bytes (inDescRegion s) a bytes s.hbm
      hbmBad := s.hbmBad.filter (fun b => !(decide (b.1 < a + bytes.length) && decide (a < b.1 + 4))) }
    if (List.range bytes.length).any (fun i => inDescRegion s (a + i)) then badAccess 3 .pcie off s' else s'

/-- BAR2_WRITE (R467). -/
def execBar2Write (off : Nat) (bytes : List Byte) (s : State) : Host.Outcome State Fault Refusal := .next (bar2Write off bytes s)

/-- Bytes as words, the first lowest. -/
def packWords : Nat → List Byte → List Word
  | 0, _ => []
  | _, [] => []
  | fuel + 1, bs => BitVec.ofNat 32 (leNat (bs.take 4)) :: packWords fuel (bs.drop 4)

/-- BAR2_READ (R467). -/
def execBar2Read (off len : Nat) (s : State) : Host.Outcome State Fault Refusal :=
  .next (if hbmUp s then
    s.draw.2.setHif (fun h => { h with rd := packWords len ((List.range (min len (W32 - off))).map (fun i => hbmSeen s s.draw.1 (bar2Addr s off + i))) })
  else s)

end Sys2Proof.Machine
end

