-- ==== Sys2Proof/Machine/GraphOps.lean ====
section
/-!
DEFINITION. GraphOps.lean: GRAPH.LOAD, GRAPH.UNLOAD and GRAPH.RELOAD (R478, R479). The image comes as an operand, read from HBM already.
-/

namespace Sys2Proof.Machine

/-! ## One record at a time -/

/-- A load that has failed with a code, or the state so far. -/
abbrev LoadRes := Nat ⊕ State

/-- Applies a record as its own operation would (R18, R479). -/
def applyRec (checks : List Check) (f : State → KciRes) (s : State) : LoadRes :=
  match firstErr checks with
  | some e => .inl e
  | none =>
    match f s with
    | .done st _ s => if st = eOk then .inr s else .inl st
    | .record _ s => .inr s
    | .wait _ s => .inr s

/-- Applies records in order, up to the first that fails. -/
def applyAll {α : Type} (f : α → State → LoadRes) : List α → State → LoadRes
  | [], s => .inr s
  | x :: t, s =>
    match f x s with
    | .inl e => .inl e
    | .inr s => applyAll f t s

/-- The next section of a load. -/
def andThen (r : LoadRes) (f : State → LoadRes) : LoadRes :=
  match r with
  | .inl e => .inl e
  | .inr s => f s

/-! ## Ranges -/

/-- Two address ranges meet. -/
def rangesMeet (a n b m : Nat) : Bool := decide (a < b + m) && decide (b < a + n)

/-- A range meets another graph's range in a cluster that both name (R479). -/
def rangeTaken (shared : Bool) (g : Nat) (x : GraphBytes) (s : State) : Bool :=
  s.graphs.any (fun y => y.1 != g && (if shared then y.2.shared else y.2.code).any (fun r =>
    (r.1 &&& x.clusters) != 0 && rangesMeet r.2.1 r.2.2 x.addr x.bytes.length))

/-- A range lies inside the cluster's code RAM (R198) or its shared data RAM (R197). -/
def rangeInside (shared : Bool) (x : GraphBytes) : Bool :=
  if shared then decide (0x100000 ≤ x.addr) && decide (x.addr + x.bytes.length ≤ 0x200000) else decide (x.addr + x.bytes.length ≤ 0x100000)

/-- Clusters of a mask. -/
def clustersOf (m : Nat) : List Nat := (List.range 16).filter (fun n => m.testBit n)

/-- Writes a code or shared-data record into the RAM of each cluster it names; a rewritten word is good again (R198, R432, R478). -/
def writeRange (shared : Bool) (x : GraphBytes) (s : State) : State :=
  (clustersOf x.clusters).foldl (fun s n => s.updClu n (fun c =>
    if shared then
      { c with data := memWriteList c.data (x.addr - 0x100000) x.bytes
               bad := c.bad.filter (fun b => !rangesMeet b.1 4 x.addr x.bytes.length) }
    else { c with code := memWriteList c.code x.addr x.bytes
                  badCode := c.badCode.filter (fun b => !rangesMeet b.1 4 x.addr x.bytes.length) })) s

/-- A code or shared-data record of GRAPH.LOAD (R479). -/
def loadRange (shared : Bool) (g : Nat) (x : GraphBytes) (s : State) : LoadRes :=
  if 65536 ≤ x.clusters then .inl eRange
  else if !rangeInside shared x || rangeTaken shared g x s then .inl eNofit
  else .inr (writeRange shared x s)

/-! ## Records -/

/-- Changes a graph. -/
def State.updGraph (s : State) (g : Nat) (f : Graph → Graph) : State := { s with graphs := mapUpd {} g f s.graphs }

/-- An account record: the graph owns the account it opens (R479). -/
def loadAccount (g : Nat) (o : AccountOp) (s : State) : LoadRes :=
  let new := decide ((s.acct o.account).kind = .closed)
  andThen (applyRec (accountChecks o) (openAccount o) s) (fun s =>
    .inr (if new then s.updGraph g (fun x => { x with accounts := x.accounts ++ [o.account] }) else s))

/-- A queue record. -/
def loadQueue (g : Nat) (o : QueueOp) (s : State) : LoadRes :=
  andThen (applyRec (queueChecks o) (openQueue o) s) (fun s => .inr (s.updGraph g (fun x => { x with queues := x.queues ++ [o.queue] })))

/-- A context record: bytes of image 0 of a context, in HBM (R165, R478). -/
def loadContext (x : GraphCtx) (s : State) : LoadRes :=
  if 2 ^ 35 < x.addr + x.bytes.length then .inl eRange else .inr (s.hbmWrite x.addr x.bytes)

/-- A node record. The outputs of mixer nodes are counted here too (R306). -/
def loadNodeRec (g : Nat) (o : NodeOp) (s : State) : LoadRes :=
  andThen (applyRec (nodeChecks o) (fun s =>
    if !s.flag fBullCtlEn || (s.node? o.node).isSome then kciFail eState s
    else
      let t := s.setNode o.node (loadedNode o)
      let outs := mixerOutputs t (loadedNode o)
      if outs != 0 && decide (4096 < otherOutputs t o.node + outs) then kciFail eSpace s else kciOk t) s)
    (fun s => .inr (s.updGraph g (fun x => { x with nodes := x.nodes ++ [o.node] })))

/-- Operand checks of a beat membership record. -/
def memberChecks (m : Nat × Nat) : List Check := [chkNode m.1, chk (decide (m.2 < 8) || m.2 == 15) eRange]

/-- A beat membership record. -/
def loadMember (m : Nat × Nat) (s : State) : LoadRes :=
  applyRec (memberChecks m) (fun s =>
    match hostNode s m.1 with
    | some d => if !s.flag fBullCtlEn then kciFail eState s else joinBeat m.1 m.2 d s
    | none => kciFail eState s) s

/-- A beat generator record. -/
def loadBeat (o : BeatOp) (s : State) : LoadRes :=
  applyRec (beatChecks o) (fun s => if s.flag fBullCtlEn then kciOk (setBeat o s) else kciFail eState s) s

/-- A node to arm. -/
def loadArm (n : Nat) (s : State) : LoadRes :=
  applyRec [chkNode n] (fun s =>
    if !s.flag fBullCtlEn || (hostNode s n).isNone then kciFail eState s
    else match armNode n s with
      | some s => kciOk s
      | none => kciFail eBusy s) s

/-- Applies the sections of an image in KIND order (R478). -/
def applyImage (g : Nat) (x : GraphImage) (s : State) : LoadRes :=
  let code := (x.code.map (fun r => (r.clusters, r.addr, r.bytes.length)))
  let shared := (x.shared.map (fun r => (r.clusters, r.addr, r.bytes.length)))
  let s : State := { s with graphs := mapInsert g { code := code, shared := shared, contexts := x.contexts.map (fun c => (c.addr, c.bytes.length)) } s.graphs }
  andThen (applyAll (loadAccount g) x.accounts s) fun s =>
  andThen (applyAll (loadQueue g) x.queues s) fun s =>
  andThen (applyAll (loadRange false g) x.code s) fun s =>
  andThen (applyAll (loadRange true g) x.shared s) fun s =>
  andThen (applyAll loadContext x.contexts s) fun s =>
  andThen (applyAll (loadNodeRec g) x.nodes s) fun s =>
  andThen (applyAll loadMember x.members s) fun s =>
  andThen (applyAll loadBeat x.beats s) fun s =>
  applyAll loadArm x.arms s

/-! ## Operations -/

/-- Operand checks of GRAPH.LOAD and GRAPH.RELOAD; the header of the image is checked before them (R18, R478, R479, R489). -/
def graphChecks (graph addr len : Nat) (x : GraphImage) : List Check :=
  [chk (x.magic == 0x4B47 && x.ver == 1 && x.crcOk) eVersion, chkRange graph 0 255, chkZero len, chkRange (addr + len) 0 (2 ^ 35)]

/-- The operand checks of every record of an image, in KIND order: they are part of the request's third step, before any state (R18, R479). The later
steps of R18 are taken record by record, in KIND order (DEDUCED, assumption 45). -/
def imageChecks (x : GraphImage) : List Check :=
  x.accounts.flatMap accountChecks ++ x.queues.flatMap queueChecks ++
  (x.code ++ x.shared).map (fun r => chkRange r.clusters 0 65535) ++ x.contexts.map (fun c => chkRange (c.addr + c.bytes.length) 0 (2 ^ 35)) ++
  x.nodes.flatMap nodeChecks ++ x.members.flatMap memberChecks ++ x.beats.flatMap beatChecks ++ x.arms.map chkNode

/-- An HBM error ends a load or reload: Umpire records it, and the request changes nothing else (R15, R17, R432, R479). The record is CONTAINED with CAUSE
HBM_UNCORR; its SOURCE is taken as Greenhouse's and its DETAIL is free (DESIGN CHOICE, assumption 45). -/
def graphFault (s : State) : KciRes :=
  let (a, s) := s.draw
  kciFail eFault (umpEvent { cls := 1, source := 5, cause := 0x13, detail := a } s)

/-- GRAPH.LOAD (R478, R479). -/
def execGraphLoad (h : KciHdr) (graph addr len : Nat) (img : GraphImage) (s : State) : Host.Outcome State Fault Refusal :=
  .next (kci 0x0101 h none (fun _ => graphChecks graph addr len img ++ imageChecks img) (fun s =>
    if (mapFind? graph s.graphs).isSome then kciFail eState s
    else match applyImage graph img s with
      | .inl e => kciFail e s
      | .inr t => if hbmGood s img.hbmOk then kciOk t else graphFault s) s)

/-- The runs of nodes that are not a graph's. -/
def others (x : Graph) (s : State) : State :=
  { s with core := s.core.filter (fun c => !x.nodes.contains c.2.node), bull := { s.bull with nodes := s.bull.nodes.filter (fun n => !x.nodes.contains n.1) } }

/-- An object outside a graph names one of the graph's objects (R479): an open flow, a run under way or a modem link a queue, a node or a queue an account,
an enabled edge block an account, a timer, a node's ALT or a modem link a node. -/
def namedOutside (x : Graph) (s : State) : Bool :=
  x.queues.any (fun q => flowNames s q || pendingOn (others x s) q || s.mdm.links.any (fun l => (l.2.rec_.rxEn == 1 && l.2.rec_.rxQueue == q) || (l.2.rec_.txEn == 1 && l.2.rec_.txQueue == q))) ||
  x.accounts.any (fun a =>
    s.bull.nodes.any (fun n => n.2.account == a && !x.nodes.contains n.1) || s.mq.any (fun q => q.2.account == a && !x.queues.contains q.1) ||
    (decide ((s.acct a).kind = .port) && blockEnabled s (s.acct a).attach)) ||
  x.nodes.any (fun n => s.bull.timers.any (fun t => t.2.target == n) ||
    s.bull.nodes.any (fun m => !x.nodes.contains m.1 && m.2.set.fpol == 1 && m.2.set.alt == n) || s.mdm.links.any (fun l => l.2.rec_.rxEn == 1 && l.2.rec_.rxNode == n))

/-- GRAPH.UNLOAD (R479): it completes when the last of the graph is gone. -/
def execGraphUnload (h : KciHdr) (graph : Nat) (s : State) : Host.Outcome State Fault Refusal :=
  .next (kci 0x0102 h none (fun _ => [chkRange graph 0 255]) (fun s =>
    match mapFind? graph s.graphs with
    | none => kciFail eState s
    | some x =>
      if !x.nodes.isEmpty && !s.flag fBullCtlEn then kciFail eState s
      else if x.unload || namedOutside x s then kciFail eBusy s
      else
        let s := s.updGraph graph (fun x => { x with unload := true })
        let s := x.nodes.foldl (fun s n => cancelNode n s) s
        let s := graphStep s graph
        if (mapFind? graph s.graphs).isNone then kciOk s else .wait (.graph graph) s) s)

/-- GRAPH.RELOAD (R479). -/
def execGraphReload (h : KciHdr) (graph addr len : Nat) (img : GraphImage) (s : State) : Host.Outcome State Fault Refusal :=
  .next (kci 0x0103 h none (fun _ => graphChecks graph addr len img) (fun s =>
    match mapFind? graph s.graphs with
    | none => kciFail eState s
    | some x =>
      if x.unload || x.code != img.code.map (fun r => (r.clusters, r.addr, r.bytes.length)) ||
          x.shared != img.shared.map (fun r => (r.clusters, r.addr, r.bytes.length)) then kciFail eState s
      else if !hbmGood s img.hbmOk then graphFault s
      else kciOk (img.shared.foldl (fun s r => writeRange true r s) (img.code.foldl (fun s r => writeRange false r s) s))) s)

end Sys2Proof.Machine
end

