-- ==== Sys2Proof/Machine/Link.lean ====
section
/-!
DEFINITION. Link.lean: Winudin peer links and the JOIN of a beltpack (R480 to R483).
-/

namespace Sys2Proof.Machine

/-! ## Versions (R480, R481) -/

/-- Minor that the device offers for a major (R480). -/
def ownMinor (m : Nat) : Nat := if m = 1 ∨ m = 2 then 1 else 0

/-- Capabilities that the device offers (R480). -/
abbrev ownCap : Nat := 0x1F

/-- Capability bits of the features that a version defines (R481). -/
def versionCap (maj min : Nat) : Nat :=
  let from_ (m n : Nat) : Bool := decide (m < maj) || (m == maj && decide (n ≤ min))
  bitOf (from_ 1 1) + (if from_ 2 0 then 6 else 0) + (if from_ 2 1 then 8 else 0) + (if from_ 3 0 then 16 else 0)

/-- A major that an offer holds (R480). -/
def offers (o : WlOffer) (m : Nat) : Bool := decide (o.minMaj ≤ m) && decide (m ≤ o.maxMaj) && o.minors.getD (m - 1) 255 != 255

/-- What the device and an offer agree: major, minor and capabilities; none where they share no major (R481). -/
def agree (o : WlOffer) : Option (Nat × Nat × Nat) :=
  match [3, 2, 1].find? (offers o) with
  | some m =>
    let n := min (ownMinor m) (o.minors.getD (m - 1) 255)
    some (m, n, ownCap &&& o.cap &&& versionCap m n)
  | none => none

/-! ## Messages -/

/-- Body of this device's HELLO and HELLO_ACK (R480). -/
def helloBody : List Byte := [1, 3, 1, 1, 0, 0, 0, 0] ++ beBytes 4 ownCap ++ beBytes 8 Config.deviceId.toNat

/-- An open link; identifiers run from 0 to 63 (R482). -/
def State.peer? (s : State) (l : Nat) : Option WlLink := mapFind? l s.peers

/-- Changes an open link. -/
def State.setPeer (s : State) (l : Nat) (x : WlLink) : State := { s with peers := mapInsert l x s.peers }

/-- Sends a message on a link through its port (R480): an agreed version stands in the header from agreement on. -/
def peerSend (l typ : Nat) (body : List Byte) (s : State) : State :=
  match s.peer? l with
  | none => s
  | some x =>
    let x := if typ = 1 ∨ typ = 3 then { x with sent := s.clk } else x
    if linkUp s x.port then
      svcBack x.port .udp .unknown (decide (2 ^ 32 ≤ x.ip)) x.ip (s.fld fHifWlPortPort) x.udp
        ((s.setPeer l { x with seq := (x.seq + 1) % W32 }).emit (.peer l typ x.maj x.min x.seq body))
    else s.setPeer l x

/-- A link that agrees a version is UP, and LINK.OPEN completes (R481, R482). -/
def peerUp (l : Nat) (o : WlOffer) (v : Nat × Nat × Nat) (s : State) : State :=
  match s.peer? l with
  | none => s
  | some x => finishWait (.link l) eOk []
    (s.setPeer l { x with st := 1, maj := v.1, min := v.2.1, cap := v.2.2, peer := some o, heard := s.clk })

/-- Offers that share no major: the link is REJECTED and LINK.OPEN completes with E_VERSION (R481). -/
def peerReject (l : Nat) (s : State) : State :=
  match s.peer? l with
  | none => s
  | some x => finishWait (.link l) eVersion [] (s.setPeer l { x with st := 3, maj := 0, min := 0, cap := 0, heard := s.clk })

/-- A HELLO is answered with HELLO_ACK, or with REJECT where the offers share no major; on an UP link a differing offer renegotiates, which
this end has done once it has both offers (R481, R482). -/
def helloReceived (l : Nat) (o : WlOffer) (s : State) : State :=
  match agree o with
  | some v => peerSend l 2 helloBody (peerUp l o v s)
  | none => peerSend l 5 [0x08] (peerReject l s)

/-- A message on an open link; none reaches the service cores while they do not run, or through a port whose link is down. -/
def onPeer (l : Nat) (f : WlLink → State → State) (s : State) : State :=
  match s.peer? l with
  | some x => if svcUp s && linkUp s x.port then f x s else s
  | none => s

/-- WL_HELLO_RECEIVE (R481, R482). -/
def execWlHelloReceive (link : Nat) (offer : WlOffer) (s : State) : Host.Outcome State Fault Refusal :=
  .next (onPeer link (fun _ => helloReceived link offer) s)

/-- A HELLO_ACK completes the agreement (R482), or the offers share no major (R481). -/
def ackReceived (l : Nat) (o : WlOffer) (s : State) : State :=
  match agree o with
  | some v => peerUp l o v s
  | none => peerSend l 5 [0x08] (peerReject l s)

/-- WL_HELLO_ACK_RECEIVE (R482). -/
def execWlHelloAckReceive (link : Nat) (offer : WlOffer) (s : State) : Host.Outcome State Fault Refusal :=
  .next (onPeer link (fun _ => ackReceived link offer) s)

/-- The peer has been heard (R482). -/
def heard (l : Nat) (x : WlLink) (s : State) : State := s.setPeer l { x with heard := s.clk }

/-- WL_KEEPALIVE_RECEIVE (R482). -/
def execWlKeepaliveReceive (link : Nat) (s : State) : Host.Outcome State Fault Refusal :=
  .next (onPeer link (heard link) s)

/-- A CONTROL message that the agreed version and capabilities hold (R481, R483): KEY and TALLY, CALL, and MARK. -/
def controlAllowed (x : WlLink) (kind : Nat) : Bool :=
  decide (x.st = 1) && (kind == 1 || kind == 2 || (kind == 3 && x.cap.testBit 0) || (kind == 4 && x.cap.testBit 4))

/-- A CONTROL message is passed on to the KML nodes, whose program code is not the spec's, or dropped and counted (R482, R483). -/
def controlReceived (l kind : Nat) (x : WlLink) (s : State) : State :=
  heard l (if controlAllowed x kind then x else { x with drops := x.drops + 1 }) s

/-- WL_CONTROL_RECEIVE (R482). -/
def execWlControlReceive (link kind : Nat) (_body : List Byte) (s : State) : Host.Outcome State Fault Refusal :=
  .next (onPeer link (controlReceived link kind) s)

/-- WL_REJECT_RECEIVE (R481). -/
def execWlRejectReceive (link _code : Nat) (s : State) : Host.Outcome State Fault Refusal :=
  .next (onPeer link (fun _ => peerReject link) s)

/-- A link closes. A LINK.OPEN that still waits fails with a code that the spec leaves open (assumption 27). -/
def peerClosed (l : Nat) (s : State) : State :=
  let (a, s) := s.draw
  finishWait (.link l) (1 + a % 11) [] { s with peers := mapErase l s.peers }

/-- WL_BYE_RECEIVE (R480, R482). -/
def execWlByeReceive (link : Nat) (s : State) : Host.Outcome State Fault Refusal :=
  .next (onPeer link (fun _ => peerClosed link) s)

/-! ## Timers of a link -/

/-- REFCLK_25M cycles in one second. -/
abbrev cyclesPerSec : Nat := 25000000

/-- A timer of an open link: time passes until it is due, and it runs where the link is still in one of its states. -/
def peerTimer (l : Nat) (states : List Nat) (since : WlLink → Nat) (cycles : Nat) (f : State → State) (s : State) : State :=
  match s.peer? l with
  | some x => if svcUp s && states.contains x.st then f (advanceSince (since x) cycles s) else s
  | none => s

/-- WL_HELLO_RESEND (R482). -/
def execWlHelloResend (link : Nat) (s : State) : Host.Outcome State Fault Refusal :=
  .next (peerTimer link [0, 2] (fun x => x.sent) cyclesPerSec (peerSend link 1 helloBody) s)

/-- WL_KEEPALIVE_SEND (R482). -/
def execWlKeepaliveSend (link : Nat) (s : State) : Host.Outcome State Fault Refusal :=
  .next (peerTimer link [1] (fun x => x.sent) cyclesPerSec (peerSend link 3 []) s)

/-- A silent link goes DOWN and sends HELLO again (R482). -/
def peerDown (l : Nat) (s : State) : State :=
  match s.peer? l with
  | some x => peerSend l 1 helloBody (s.setPeer l { x with st := 2, maj := 0, min := 0, cap := 0 })
  | none => s

/-- WL_PEER_TIMEOUT (R482). -/
def execWlPeerTimeout (link : Nat) (s : State) : Host.Outcome State Fault Refusal :=
  .next (peerTimer link [1] (fun x => x.heard) (3 * cyclesPerSec) (peerDown link) s)

/-! ## Operations -/

/-- LINK.OPEN (R482). -/
def execLinkOpen (h : KciHdr) (link port ip udpPort : Nat) (s : State) : Host.Outcome State Fault Refusal :=
  .next (kci 0x0A01 h (keyLink link)
    (fun _ => [chkRange link 0 63, chkRange port 0 3, chkRange ip 0 0xFFFFFFFFFFFFFFFFFFFFFFFFFFFFFFFF, chkRange udpPort 0 65535]) (fun s =>
    if (s.peer? link).isSome then kciFail eState s
    else .wait (.link link) (peerSend link 1 helloBody (s.setPeer link { port := port, ip := ip, udp := udpPort, heard := s.clk }))) s)

/-- LINK.CLOSE (R482). -/
def execLinkClose (h : KciHdr) (link : Nat) (s : State) : Host.Outcome State Fault Refusal :=
  .next (kci 0x0A02 h (keyLink link) (fun _ => [chkRange link 0 63]) (fun s =>
    if (s.peer? link).isNone then kciFail eState s else kciOk (peerClosed link (peerSend link 6 [] s))) s)

/-- LINK.STATUS (R482). -/
def execLinkStatus (h : KciHdr) (link : Nat) (s : State) : Host.Outcome State Fault Refusal :=
  .next (kci 0x0A03 h (keyLink link) (fun _ => [chkRange link 0 63]) (fun s =>
    match s.peer? link with
    | some x => .done eOk ([x.st, x.maj, x.min, x.cap] ++ slot8 (match x.peer with | some o => o.deviceId | none => 0)) s
    | none => kciFail eState s) s)

/-! ## Beltpacks -/

/-- The answer to a JOIN (R483): ACCEPT with what was agreed, or REJECT with E_VERSION. -/
def joinAnswer (v : Option (Nat × Nat × Nat)) : List Byte :=
  match v with
  | some (m, n, c) => [2, BitVec.ofNat 8 (16 * m + n), BitVec.ofNat 8 c, 0, 0, 0]
  | none => [3, 0, 0, 8, 0, 0]

/-- A JOIN whose link the modem receives (R380, R483): the answer, the VER from the next radio frame, and 2-level where the agreement lacks
the 4-level payload. -/
def beltJoin (l : Nat) (o : WlOffer) (s : State) : State :=
  if svcUp s && s.flag fMdmCtlEn && decide (l < 480) && (s.mlink l).rec_.rxEn == 1 then
    let v := agree o
    let s := s.emit (.beltAnswer l (joinAnswer v))
    match v with
    | some (m, n, c) => s.updMlink l (fun x => { x with agreed := some (m, n, c), verNext := some m, twoLvl := !c.testBit 1 })
    | none => s
  else s

/-- BELTPACK_JOIN (R483). -/
def execBeltpackJoin (link : Nat) (offer : WlOffer) (s : State) : Host.Outcome State Fault Refusal := .next (beltJoin link offer s)

end Sys2Proof.Machine
end

