-- ==== Sys2Proof/Machine/Dispatch.lean ====
section
/-!
DEFINITION. Dispatch.lean: one meaning per command.
-/

namespace Sys2Proof.Machine

/-- The effect of a command on everything but the queue of waiting commands. -/
def exec (i : Instr) (s : State) : Host.Outcome State Fault Refusal :=
  match i with
  | .porstNAssert bootSel tjBelow110 => Sys2Proof.Machine.execPorstNAssert bootSel tjBelow110 s
  | .sysrstNAssert bootSel => Sys2Proof.Machine.execSysrstNAssert bootSel s
  | .glbRstSysWrite path val => Sys2Proof.Machine.execGlbRstSysWrite path val s
  | .bringupStepComplete hbmOk refs copy0 copy1 => Sys2Proof.Machine.execBringupStepComplete hbmOk refs copy0 copy1 s
  | .hifBootPushGo path val img => Sys2Proof.Machine.execHifBootPushGo path val img s
  | .pllLock pll => Sys2Proof.Machine.execPllLock pll s
  | .thermtrip => Sys2Proof.Machine.execThermtrip s
  | .tempSample quarters => Sys2Proof.Machine.execTempSample quarters s
  | .voltSample mv => Sys2Proof.Machine.execVoltSample mv s
  | .processSample counts => Sys2Proof.Machine.execProcessSample counts s
  | .ref10mWindow ppb => Sys2Proof.Machine.execRef10mWindow ppb s
  | .ppsInEdge => Sys2Proof.Machine.execPpsInEdge s
  | .servoUpdate port offset => Sys2Proof.Machine.execServoUpdate port offset s
  | .delayReqExchange port delay lost => Sys2Proof.Machine.execDelayReqExchange port delay lost s
  | .announceReceived port ann => Sys2Proof.Machine.execAnnounceReceived port ann s
  | .announceReceiptTimeout port => Sys2Proof.Machine.execAnnounceReceiptTimeout port s
  | .pathHoldElapsed => Sys2Proof.Machine.execPathHoldElapsed s
  | .ethernetFrameReceive port frame => Sys2Proof.Machine.execEthernetFrameReceive port frame s
  | .mediaPacketAdmit port => Sys2Proof.Machine.execMediaPacketAdmit port s
  | .ethernetLinkChange port up hiSer => Sys2Proof.Machine.execEthernetLinkChange port up hiSer s
  | .pathTimeout flow pathB => Sys2Proof.Machine.execPathTimeout flow pathB s
  | .skewPartnerTimeout flow pathB seq => Sys2Proof.Machine.execSkewPartnerTimeout flow pathB seq s
  | .egressTake flow => Sys2Proof.Machine.execEgressTake flow s
  | .copyDeparture port => Sys2Proof.Machine.execCopyDeparture port s
  | .headWindowRefill queue => Sys2Proof.Machine.execHeadWindowRefill queue s
  | .beat gen => Sys2Proof.Machine.execBeat gen s
  | .beatPosterResume => Sys2Proof.Machine.execBeatPosterResume s
  | .beatWakeLead gen => Sys2Proof.Machine.execBeatWakeLead gen s
  | .prefetchNotice gen => Sys2Proof.Machine.execPrefetchNotice gen s
  | .timerFire timer => Sys2Proof.Machine.execTimerFire timer s
  | .timerHeldRelease list => Sys2Proof.Machine.execTimerHeldRelease list s
  | .timerPrefetchLead timer => Sys2Proof.Machine.execTimerPrefetchLead timer s
  | .nodeDispatch cluster kml => Sys2Proof.Machine.execNodeDispatch cluster kml s
  | .stealAgeExpiry node kml => Sys2Proof.Machine.execStealAgeExpiry node kml s
  | .budgetOverrun core => Sys2Proof.Machine.execBudgetOverrun core s
  | .abortUndoComplete node => Sys2Proof.Machine.execAbortUndoComplete node s
  | .rerunReadyEntry node => Sys2Proof.Machine.execRerunReadyEntry node s
  | .doneCommitResume core => Sys2Proof.Machine.execDoneCommitResume core s
  | .armedReadyEntry node => Sys2Proof.Machine.execArmedReadyEntry node s
  | .modemPostResume port => Sys2Proof.Machine.execModemPostResume port s
  | .affinityHoldExpiry node kml => Sys2Proof.Machine.execAffinityHoldExpiry node kml s
  | .pageInComplete node hbmOk => Sys2Proof.Machine.execPageInComplete node hbmOk s
  | .pageInSlotFree node => Sys2Proof.Machine.execPageInSlotFree node s
  | .writeBackComplete node failures => Sys2Proof.Machine.execWriteBackComplete node failures s
  | .ledgerSweep => Sys2Proof.Machine.execLedgerSweep s
  | .tagSweepComplete ms lost => Sys2Proof.Machine.execTagSweepComplete ms lost s
  | .moveComplete core hbmOk => Sys2Proof.Machine.execMoveComplete core hbmOk s
  | .scoutIntervalExpiry core => Sys2Proof.Machine.execScoutIntervalExpiry core s
  | .umpireMergeExpiry source core cause => Sys2Proof.Machine.execUmpireMergeExpiry source core cause s
  | .sramScrubPass source core found late => Sys2Proof.Machine.execSramScrubPass source core found late s
  | .hbmPatrolPass source found => Sys2Proof.Machine.execHbmPatrolPass source found s
  | .spareTest core passed => Sys2Proof.Machine.execSpareTest core passed s
  | .serviceCoreWatchdog => Sys2Proof.Machine.execServiceCoreWatchdog s
  | .serviceCoreRestartDone => Sys2Proof.Machine.execServiceCoreRestartDone s
  | .clusterSleepEntry cluster => Sys2Proof.Machine.execClusterSleepEntry cluster s
  | .clusterOffEntry cluster => Sys2Proof.Machine.execClusterOffEntry cluster s
  | .clusterWakeComplete cluster => Sys2Proof.Machine.execClusterWakeComplete cluster s
  | .clunPwrLimitWrite path cluster val => Sys2Proof.Machine.execClunPwrLimitWrite path cluster val s
  | .clunSparesCountWrite path cluster val => Sys2Proof.Machine.execClunSparesCountWrite path cluster val s
  | .clunCmHomeWrite path core val => Sys2Proof.Machine.execClunCmHomeWrite path core val s
  | .kciDoorbell path val => Sys2Proof.Machine.execKciDoorbell path val s
  | .kciFetch opcode flags tag => Sys2Proof.Machine.execKciFetch opcode flags tag s
  | .smbusWrite count pec off val => Sys2Proof.Machine.execSmbusWrite count pec off val s
  | .smbusReadAddress count pec off => Sys2Proof.Machine.execSmbusReadAddress count pec off s
  | .smbusReadData pec => Sys2Proof.Machine.execSmbusReadData pec s
  | .bar2Write off bytes => Sys2Proof.Machine.execBar2Write off bytes s
  | .bar2Read off len => Sys2Proof.Machine.execBar2Read off len s
  | .registerWrite path off byteEn val high => Sys2Proof.Machine.execRegisterWrite path off byteEn val high s
  | .rcCounterRead path off wide => Sys2Proof.Machine.execRcCounterRead path off wide s
  | .timeNowFracRead path => Sys2Proof.Machine.execTimeNowFracRead path s
  | .timeRateLoRead path => Sys2Proof.Machine.execTimeRateLoRead path s
  | .timePpsinNsRead path => Sys2Proof.Machine.execTimePpsinNsRead path s
  | .timeTsqnPop0Read path port => Sys2Proof.Machine.execTimeTsqnPop0Read path port s
  | .hifFlowevPopRead path => Sys2Proof.Machine.execHifFlowevPopRead path s
  | .flcRebuildTLoRead path => Sys2Proof.Machine.execFlcRebuildTLoRead path s
  | .flcOldestTLoRead path => Sys2Proof.Machine.execFlcOldestTLoRead path s
  | .pmuCounterLowRead path off wide => Sys2Proof.Machine.execPmuCounterLowRead path off wide s
  | .pmuCounterHighWrite path off val => Sys2Proof.Machine.execPmuCounterHighWrite path off val s
  | .pmuCounterLowWrite path off val => Sys2Proof.Machine.execPmuCounterLowWrite path off val s
  | .scoutCtlRelWrite path core val => Sys2Proof.Machine.execScoutCtlRelWrite path core val s
  | .rfpnDcbClrWrite path port val => Sys2Proof.Machine.execRfpnDcbClrWrite path port val s
  | .umpInjectArmWrite path val => Sys2Proof.Machine.execUmpInjectArmWrite path val s
  | .seedPoolGranWrite path val => Sys2Proof.Machine.execSeedPoolGranWrite path val s
  | .madiPortEnable path port val => Sys2Proof.Machine.execMadiPortEnable path port val s
  | .flcEnable path val => Sys2Proof.Machine.execFlcEnable path val s
  | .flcBringupStepComplete targets luns goodBlocks => Sys2Proof.Machine.execFlcBringupStepComplete targets luns goodBlocks s
  | .captureJobPop => Sys2Proof.Machine.execCaptureJobPop s
  | .captureStagingResume => Sys2Proof.Machine.execCaptureStagingResume s
  | .stagingPageProgram hbmOk => Sys2Proof.Machine.execStagingPageProgram hbmOk s
  | .pageProgramComplete ok => Sys2Proof.Machine.execPageProgramComplete ok s
  | .blockEraseComplete die block ok => Sys2Proof.Machine.execBlockEraseComplete die block ok s
  | .segmentReclaim => Sys2Proof.Machine.execSegmentReclaim s
  | .refreshSegmentRead seq maxCorrected lost => Sys2Proof.Machine.execRefreshSegmentRead seq maxCorrected lost s
  | .flashCodewordDecode seq page reads iters corrected => Sys2Proof.Machine.execFlashCodewordDecode seq page reads iters corrected s
  | .replayBlockDelivery replay uncorrectable => Sys2Proof.Machine.execReplayBlockDelivery replay uncorrectable s
  | .packHostJobEnd job => Sys2Proof.Machine.execPackHostJobEnd job s
  | .madiRxBlockPush port samples vBits codeErrs drift => Sys2Proof.Machine.execMadiRxBlockPush port samples vBits codeErrs drift s
  | .madiRxSlip port drift => Sys2Proof.Machine.execMadiRxSlip port drift s
  | .madiLock port ch56 => Sys2Proof.Machine.execMadiLock port ch56 s
  | .madiLockLoss port => Sys2Proof.Machine.execMadiLockLoss port s
  | .madiTxExamine port => Sys2Proof.Machine.execMadiTxExamine port s
  | .jesdRxCharacterError port kind => Sys2Proof.Machine.execJesdRxCharacterError port kind s
  | .jesdRxResync port ilas => Sys2Proof.Machine.execJesdRxResync port ilas s
  | .jesdRxDataResume port => Sys2Proof.Machine.execJesdRxDataResume port s
  | .jesdTxSyncRequest port => Sys2Proof.Machine.execJesdTxSyncRequest port s
  | .sysrefEdge port d syncReset => Sys2Proof.Machine.execSysrefEdge port d syncReset s
  | .carrierSyncReset port carrier => Sys2Proof.Machine.execCarrierSyncReset port carrier s
  | .sampleTapItemPush port => Sys2Proof.Machine.execSampleTapItemPush port s
  | .slotBoundary port => Sys2Proof.Machine.execSlotBoundary port s
  | .downlinkTake port => Sys2Proof.Machine.execDownlinkTake port s
  | .downlinkTransmit port => Sys2Proof.Machine.execDownlinkTransmit port s
  | .uplinkSlotStart port => Sys2Proof.Machine.execUplinkSlotStart port s
  | .agcUpdate port centiDb => Sys2Proof.Machine.execAgcUpdate port centiDb s
  | .syncDetection port carrier c p rssi fofs => Sys2Proof.Machine.execSyncDetection port carrier c p rssi fofs s
  | .headerDecoded port carrier bits => Sys2Proof.Machine.execHeaderDecoded port carrier bits s
  | .payloadSubmit port carrier => Sys2Proof.Machine.execPayloadSubmit port carrier s
  | .radioLdpcJobComplete port carrier converged iters info => Sys2Proof.Machine.execRadioLdpcJobComplete port carrier converged iters info s
  | .uplinkEntryDelivery link => Sys2Proof.Machine.execUplinkEntryDelivery link s
  | .syncWindowClose port carrier => Sys2Proof.Machine.execSyncWindowClose port carrier s
  | .beltpackJoin link offer => Sys2Proof.Machine.execBeltpackJoin link offer s
  | .wlHelloReceive link offer => Sys2Proof.Machine.execWlHelloReceive link offer s
  | .wlHelloAckReceive link offer => Sys2Proof.Machine.execWlHelloAckReceive link offer s
  | .wlKeepaliveReceive link => Sys2Proof.Machine.execWlKeepaliveReceive link s
  | .wlControlReceive link kind body => Sys2Proof.Machine.execWlControlReceive link kind body s
  | .wlRejectReceive link code => Sys2Proof.Machine.execWlRejectReceive link code s
  | .wlByeReceive link => Sys2Proof.Machine.execWlByeReceive link s
  | .wlHelloResend link => Sys2Proof.Machine.execWlHelloResend link s
  | .wlKeepaliveSend link => Sys2Proof.Machine.execWlKeepaliveSend link s
  | .wlPeerTimeout link => Sys2Proof.Machine.execWlPeerTimeout link s
  | .graphLoad h graph addr len img => Sys2Proof.Machine.execGraphLoad h graph addr len img s
  | .graphUnload h graph => Sys2Proof.Machine.execGraphUnload h graph s
  | .graphReload h graph addr len img => Sys2Proof.Machine.execGraphReload h graph addr len img s
  | .nodeLoad h op => Sys2Proof.Machine.execNodeLoad h op s
  | .nodeUnload h node => Sys2Proof.Machine.execNodeUnload h node s
  | .nodeArm h node => Sys2Proof.Machine.execNodeArm h node s
  | .nodeCancel h node => Sys2Proof.Machine.execNodeCancel h node s
  | .nodePost h node flags => Sys2Proof.Machine.execNodePost h node flags s
  | .nodeBeat h node gen => Sys2Proof.Machine.execNodeBeat h node gen s
  | .nodeRead h node => Sys2Proof.Machine.execNodeRead h node s
  | .nodeEvict h node => Sys2Proof.Machine.execNodeEvict h node s
  | .cfgStage h target offset len data => Sys2Proof.Machine.execCfgStage h target offset len data s
  | .cfgCommit h target => Sys2Proof.Machine.execCfgCommit h target s
  | .cfgCommitDiscard h target => Sys2Proof.Machine.execCfgCommitDiscard h target s
  | .flowOpenRx h len blk => Sys2Proof.Machine.execFlowOpenRx h len blk s
  | .flowOpenTx h len blk => Sys2Proof.Machine.execFlowOpenTx h len blk s
  | .flowPortAddr h len blk => Sys2Proof.Machine.execFlowPortAddr h len blk s
  | .flowClose h flow dir => Sys2Proof.Machine.execFlowClose h flow dir s
  | .flowStats h flow clear => Sys2Proof.Machine.execFlowStats h flow clear s
  | .queueOpen h op => Sys2Proof.Machine.execQueueOpen h op s
  | .queueClose h queue => Sys2Proof.Machine.execQueueClose h queue s
  | .queueMark h queue => Sys2Proof.Machine.execQueueMark h queue s
  | .queueMarkClear h queue => Sys2Proof.Machine.execQueueMarkClear h queue s
  | .queueRewind h queue => Sys2Proof.Machine.execQueueRewind h queue s
  | .queueRewindFromOldest h queue => Sys2Proof.Machine.execQueueRewindFromOldest h queue s
  | .queueStats h queue clear => Sys2Proof.Machine.execQueueStats h queue clear s
  | .timerArm h op => Sys2Proof.Machine.execTimerArm h op s
  | .timerCancel h timer => Sys2Proof.Machine.execTimerCancel h timer s
  | .timerBeat h op => Sys2Proof.Machine.execTimerBeat h op s
  | .packJobEncode h op => Sys2Proof.Machine.execPackJobEncode h op s
  | .packJobDecode h op => Sys2Proof.Machine.execPackJobDecode h op s
  | .packResume h job outAddr outLen => Sys2Proof.Machine.execPackResume h job outAddr outLen s
  | .packDrop h job => Sys2Proof.Machine.execPackDrop h job s
  | .capStart h => Sys2Proof.Machine.execCapStart h s
  | .capStop h => Sys2Proof.Machine.execCapStop h s
  | .capPoint h tFrom tTo protect => Sys2Proof.Machine.execCapPoint h tFrom tTo protect s
  | .capPointClear h point => Sys2Proof.Machine.execCapPointClear h point s
  | .capReplay h op => Sys2Proof.Machine.execCapReplay h op s
  | .capStats h clear => Sys2Proof.Machine.execCapStats h clear s
  | .timeSet h sec ns => Sys2Proof.Machine.execTimeSet h sec ns s
  | .timeSetRate h rate => Sys2Proof.Machine.execTimeSetRate h rate s
  | .timeStepAuth h limit => Sys2Proof.Machine.execTimeStepAuth h limit s
  | .timeConfig h len cfg => Sys2Proof.Machine.execTimeConfig h len cfg s
  | .linkOpen h link port ip udpPort => Sys2Proof.Machine.execLinkOpen h link port ip udpPort s
  | .linkClose h link => Sys2Proof.Machine.execLinkClose h link s
  | .linkStatus h link => Sys2Proof.Machine.execLinkStatus h link s
  | .modemLink h op => Sys2Proof.Machine.execModemLink h op s
  | .modemLinkStats h link clear => Sys2Proof.Machine.execModemLinkStats h link clear s
  | .sysOpen h major minor => Sys2Proof.Machine.execSysOpen h major minor s
  | .sysAccount h op => Sys2Proof.Machine.execSysAccount h op s
  | .sysAccountClose h account => Sys2Proof.Machine.execSysAccountClose h account s
  | .sysAccountStats h account clear => Sys2Proof.Machine.execSysAccountStats h account clear s
  | .sysFuseRollback h => Sys2Proof.Machine.execSysFuseRollback h s
  | .sysFuseRevoke h slot => Sys2Proof.Machine.execSysFuseRevoke h slot s
  | .add core op => Sys2Proof.Machine.execAdd core op s
  | .sub core op => Sys2Proof.Machine.execSub core op s
  | .addu core op => Sys2Proof.Machine.execAddu core op s
  | .subu core op => Sys2Proof.Machine.execSubu core op s
  | .neg core op => Sys2Proof.Machine.execNeg core op s
  | .abs core op => Sys2Proof.Machine.execAbs core op s
  | .min core op => Sys2Proof.Machine.execMin core op s
  | .max core op => Sys2Proof.Machine.execMax core op s
  | .and_ core op => Sys2Proof.Machine.execAnd core op s
  | .or_ core op => Sys2Proof.Machine.execOr core op s
  | .xor_ core op => Sys2Proof.Machine.execXor core op s
  | .andn core op => Sys2Proof.Machine.execAndn core op s
  | .shl core op => Sys2Proof.Machine.execShl core op s
  | .shr core op => Sys2Proof.Machine.execShr core op s
  | .sar core op => Sys2Proof.Machine.execSar core op s
  | .srr core op => Sys2Proof.Machine.execSrr core op s
  | .mul core op => Sys2Proof.Machine.execMul core op s
  | .mulu core op => Sys2Proof.Machine.execMulu core op s
  | .mov core op => Sys2Proof.Machine.execMov core op s
  | .clz core op => Sys2Proof.Machine.execClz core op s
  | .bfx core op => Sys2Proof.Machine.execBfx core op s
  | .addi core sat d x imm => Sys2Proof.Machine.execAddi core sat d x imm s
  | .shiShl core op => Sys2Proof.Machine.execShiShl core op s
  | .shiShr core op => Sys2Proof.Machine.execShiShr core op s
  | .shiSar core op => Sys2Proof.Machine.execShiSar core op s
  | .shiSrr core op => Sys2Proof.Machine.execShiSrr core op s
  | .movl core d imm => Sys2Proof.Machine.execMovl core d imm s
  | .movh core d imm => Sys2Proof.Machine.execMovh core d imm s
  | .cmpi core x imm => Sys2Proof.Machine.execCmpi core x imm s
  | .vadd core op => Sys2Proof.Machine.execVadd core op s
  | .vsub core op => Sys2Proof.Machine.execVsub core op s
  | .vneg core op => Sys2Proof.Machine.execVneg core op s
  | .vabs core op => Sys2Proof.Machine.execVabs core op s
  | .vmin core op => Sys2Proof.Machine.execVmin core op s
  | .vmax core op => Sys2Proof.Machine.execVmax core op s
  | .vand core op => Sys2Proof.Machine.execVand core op s
  | .vor core op => Sys2Proof.Machine.execVor core op s
  | .vxor core op => Sys2Proof.Machine.execVxor core op s
  | .vshl core op => Sys2Proof.Machine.execVshl core op s
  | .vshr core op => Sys2Proof.Machine.execVshr core op s
  | .vsar core op => Sys2Proof.Machine.execVsar core op s
  | .vsrr core op => Sys2Proof.Machine.execVsrr core op s
  | .vcmpeq core op => Sys2Proof.Machine.execVcmpeq core op s
  | .vcmplt core op => Sys2Proof.Machine.execVcmplt core op s
  | .vcmple core op => Sys2Proof.Machine.execVcmple core op s
  | .vsel core op => Sys2Proof.Machine.execVsel core op s
  | .vmov core op => Sys2Proof.Machine.execVmov core op s
  | .vbcst core op => Sys2Proof.Machine.execVbcst core op s
  | .vget core d x lane => Sys2Proof.Machine.execVget core d x lane s
  | .vput core d x lane => Sys2Proof.Machine.execVput core d x lane s
  | .vshiVshl core op => Sys2Proof.Machine.execVshiVshl core op s
  | .vshiVshr core op => Sys2Proof.Machine.execVshiVshr core op s
  | .vshiVsar core op => Sys2Proof.Machine.execVshiVsar core op s
  | .vshiVsrr core op => Sys2Proof.Machine.execVshiVsrr core op s
  | .mpy core op => Sys2Proof.Machine.execMpy core op s
  | .mac core op => Sys2Proof.Machine.execMac core op s
  | .msu core op => Sys2Proof.Machine.execMsu core op s
  | .adep core sat q d x => Sys2Proof.Machine.execAdep core sat q d x s
  | .aadd core op => Sys2Proof.Machine.execAadd core op s
  | .asub core op => Sys2Proof.Machine.execAsub core op s
  | .amov core q d x => Sys2Proof.Machine.execAmov core q d x s
  | .aclr core q d => Sys2Proof.Machine.execAclr core q d s
  | .aget core d x lane high => Sys2Proof.Machine.execAget core d x lane high s
  | .aput core d x y lane => Sys2Proof.Machine.execAput core d x y lane s
  | .ext core sat q d x sh q15 toS => Sys2Proof.Machine.execExt core sat q d x sh q15 toS s
  | .asr core q d x cnt => Sys2Proof.Machine.execAsr core q d x cnt s
  | .asrr core q d x cnt => Sys2Proof.Machine.execAsrr core q d x cnt s
  | .asl core sat q d x cnt => Sys2Proof.Machine.execAsl core sat q d x cnt s
  | .ldb core d a => Sys2Proof.Machine.execLdb core d a s
  | .ldbu core d a => Sys2Proof.Machine.execLdbu core d a s
  | .ldh core d a => Sys2Proof.Machine.execLdh core d a s
  | .ldhu core d a => Sys2Proof.Machine.execLdhu core d a s
  | .ldw core d a => Sys2Proof.Machine.execLdw core d a s
  | .stb core d a => Sys2Proof.Machine.execStb core d a s
  | .sth core d a => Sys2Proof.Machine.execSth core d a s
  | .stw core d a => Sys2Proof.Machine.execStw core d a s
  | .ldwv core d a => Sys2Proof.Machine.execLdwv core d a s
  | .stwv core d a => Sys2Proof.Machine.execStwv core d a s
  | .ldv core d a => Sys2Proof.Machine.execLdv core d a s
  | .stv core d a => Sys2Proof.Machine.execStv core d a s
  | .ldpn core d a => Sys2Proof.Machine.execLdpn core d a s
  | .stpn core d a => Sys2Proof.Machine.execStpn core d a s
  | .ldbl core d a => Sys2Proof.Machine.execLdbl core d a s
  | .stbl core d a => Sys2Proof.Machine.execStbl core d a s
  | .lddw core d1 a d2 b => Sys2Proof.Machine.execLddw core d1 a d2 b s
  | .lddv core d1 a d2 b => Sys2Proof.Machine.execLddv core d1 a d2 b s
  | .bra core offset => Sys2Proof.Machine.execBra core offset s
  | .call core offset => Sys2Proof.Machine.execCall core offset s
  | .jr core link d x => Sys2Proof.Machine.execJr core link d x s
  | .bcc core cond offset => Sys2Proof.Machine.execBcc core cond offset s
  | .loopr core x body => Sys2Proof.Machine.execLoopr core x body s
  | .loopi core count body => Sys2Proof.Machine.execLoopi core count body s
  | .getw core mask => Sys2Proof.Machine.execGetw core mask s
  | .done core status fromReg => Sys2Proof.Machine.execDone core status fromReg s
  | .sig core d x y => Sys2Proof.Machine.execSig core d x y s
  | .sigd core d x y flag dropLate => Sys2Proof.Machine.execSigd core d x y flag dropLate s
  | .ncan core d x => Sys2Proof.Machine.execNcan core d x s
  | .arm core d x => Sys2Proof.Machine.execArm core d x s
  | .mqpush core d x y => Sys2Proof.Machine.execMqpush core d x y s
  | .mqpop core d x => Sys2Proof.Machine.execMqpop core d x s
  | .mqpopKeyed core d x y => Sys2Proof.Machine.execMqpopKeyed core d x y s
  | .mqmark core d x => Sys2Proof.Machine.execMqmark core d x s
  | .balloc core d x => Sys2Proof.Machine.execBalloc core d x s
  | .bfree core d x => Sys2Proof.Machine.execBfree core d x s
  | .bgive core d x y => Sys2Proof.Machine.execBgive core d x y s
  | .xmovToLocal core d x y => Sys2Proof.Machine.execXmovToLocal core d x y s
  | .xmovToBuffer core d x y => Sys2Proof.Machine.execXmovToBuffer core d x y s
  | .xwait core => Sys2Proof.Machine.execXwait core s
  | .rdpmc core d n y => Sys2Proof.Machine.execRdpmc core d n y s
  | .rdcyc core d y => Sys2Proof.Machine.execRdcyc core d y s
  | .movxFromPn core d x => Sys2Proof.Machine.execMovxFromPn core d x s
  | .movxToPn core d x => Sys2Proof.Machine.execMovxToPn core d x s
  | .movxFromBl core d x => Sys2Proof.Machine.execMovxFromBl core d x s
  | .movxToBl core d x => Sys2Proof.Machine.execMovxToBl core d x s
  | .movxFromCf core d => Sys2Proof.Machine.execMovxFromCf core d s
  | .movxToCf core x => Sys2Proof.Machine.execMovxToCf core x s
  | .movxFromSt core d => Sys2Proof.Machine.execMovxFromSt core d s
  | .movxFromSf core d => Sys2Proof.Machine.execMovxFromSf core d s
  | .nop core => Sys2Proof.Machine.execNop core s
  | .sfclr core x => Sys2Proof.Machine.execSfclr core x s
  | .jesdRxSample port si sq => Sys2Proof.Machine.execJesdRxSample port si sq s
  | .ppsOutPulse => Sys2Proof.Machine.execPpsOutPulse s
  | .ppsInLoss => Sys2Proof.Machine.execPpsInLoss s
  | .fabricParityError source uncorrSram => Sys2Proof.Machine.execFabricParityError source uncorrSram s
  | .vddAonRemoval => Sys2Proof.Machine.execVddAonRemoval s
  | .reservedRegisterRead path off wide => Sys2Proof.Machine.execReservedRegisterRead path off wide s
  | .illegalEncoding core word => Sys2Proof.Machine.execIllegalEncoding core word s
  | .serviceFifoPacket port => Sys2Proof.Machine.execServiceFifoPacket port s
  | .ptpMasterTransmit port => Sys2Proof.Machine.execPtpMasterTransmit port s
  | .rtcpSenderReport flow => Sys2Proof.Machine.execRtcpSenderReport flow s

end Sys2Proof.Machine
end

