-- ==== Sys2Proof/Safety.lean ====
section
/-!
DEFINITION. Safety.lean: what counts as a safe run of the KG7160: its memories keep their canonical form, no operation lowers the fused
rollback counter or takes a key slot's revocation back (R486), what has left the device stays on record, and no command stops it.
-/

namespace Sys2Proof.Machine

/-- Every byte memory of the machine is in its canonical form. -/
def MemoryOk (s : State) : Prop :=
  Memory.wf s.hbm = true ∧ (∀ k, Memory.wf (s.cor k).ram = true) ∧
    ∀ n, Memory.wf (s.cl n).code = true ∧ Memory.wf (s.cl n).data = true

/-- A key slot has been revoked since the part left the factory (R486). -/
def SlotFused (s : State) (slot : Nat) : Prop := (mapFind? slot s.glb.revoked).isSome = true

/-- The fuses of `t` have lost nothing against those of `s` (R486). -/
def FusesKept (s t : State) : Prop := s.glb.rollback ≤ t.glb.rollback ∧ ∀ n, SlotFused s n → SlotFused t n

/-- A step is safe from `s`: it answers a next state, in which memory is well formed if it was, the fuses have lost nothing and the record
of outputs has only grown. -/
def SafeStep (s : State) : Prop :=
  ∃ t, step s = .next t ∧ (MemoryOk s → MemoryOk t) ∧ FusesKept s t ∧ s.out <+: t.out

/-! ## What a command leaves alone -/

/-- The parts of the machine's state. -/
inductive Part where
  | pending | free | clk | out | regs | hbm | time | mq | seed | bull | gh | core | clu | pmu | scout | ump | hif | glb | graphs | net
  | cfg | txHold | rfp | mdm | madi | pack | flc | flash | peers | kml | hbmBad
  deriving DecidableEq, Repr

/-- A part is the same in two states. -/
def Part.same (p : Part) (s t : State) : Prop :=
  match p with
  | .pending => t.pending = s.pending
  | .free => t.free = s.free
  | .clk => t.clk = s.clk
  | .out => t.out = s.out
  | .regs => t.regs = s.regs
  | .hbm => t.hbm = s.hbm
  | .time => t.time = s.time
  | .mq => t.mq = s.mq
  | .seed => t.seed = s.seed
  | .bull => t.bull = s.bull
  | .gh => t.gh = s.gh
  | .core => t.core = s.core
  | .clu => t.clu = s.clu
  | .pmu => t.pmu = s.pmu
  | .scout => t.scout = s.scout
  | .ump => t.ump = s.ump
  | .hif => t.hif = s.hif
  | .glb => t.glb = s.glb
  | .graphs => t.graphs = s.graphs
  | .net => t.net = s.net
  | .cfg => t.cfg = s.cfg
  | .txHold => t.txHold = s.txHold
  | .rfp => t.rfp = s.rfp
  | .mdm => t.mdm = s.mdm
  | .madi => t.madi = s.madi
  | .pack => t.pack = s.pack
  | .flc => t.flc = s.flc
  | .flash => t.flash = s.flash
  | .peers => t.peers = s.peers
  | .kml => t.kml = s.kml
  | .hbmBad => t.hbmBad = s.hbmBad

/-- Every part but those listed is the same. -/
def Kept (ps : List Part) (s t : State) : Prop := ∀ p, p ∉ ps → p.same s t

/-- Every register but those listed is the same. -/
def RegsKept (as : List Nat) (s t : State) : Prop := ∀ a, a ∉ as → t.reg a = s.reg a

/-- `b` is `a` with messages appended that are MSI-X interrupts (R468). -/
def MsixAfter (a b : List OutMsg) : Prop := ∃ r : List OutMsg, b = a ++ r ∧ ∀ m ∈ r, ∃ v, m = .msix v

/-! ## Control instructions -/

/-- The device may run an instruction now and give it its completion at once: KCI is open and enabled, the completion ring has room, a fence has
nothing to wait for, nothing that it names waits, and the entry has no reserved FLAGS bit or stray byte (R470 to R475). -/
def kciReady (op : Nat) (h : KciHdr) (key : Option (Nat × Nat)) (s : State) : Bool :=
  mayStart op h s && !h.badFlag && !h.badExtra && (s.hif.isOpen || op == 0x0C01) && !keyWaits key s.hif.waits &&
    decide (0 < s.fld fHifCqSizeEntries) && decide (s.fld fHifCqSizeEntries ≤ 65536)

/-- An instruction has completed with a status and a result (R472, R475): its completion stands at the head of the ring with the phase that was
in force, after what it had the device send, the head has moved on, the interrupt is pending, and the entry is no longer outstanding. Of the
registers, its own effect changed only those listed. -/
structure Done (op : Nat) (h : KciHdr) (status : Nat) (result : List Nat) (sent : List OutMsg) (as : List Nat) (s t : State) : Prop where
  out   : ∃ a b, MsixAfter s.out a ∧ MsixAfter (a ++ sent) b ∧
            MsixAfter (b ++ [.completion (s.fld fHifCqHeadIndex) h.tag op status s.hif.phase result]) t.out
  head  : t.fld fHifCqHeadIndex = (s.fld fHifCqHeadIndex + 1) % s.fld fHifCqSizeEntries
  phase : t.hif.phase = (if s.fld fHifCqHeadIndex + 1 = s.fld fHifCqSizeEntries then !s.hif.phase else s.hif.phase)
  int   : t.flag (fHifIntStat.bit 0) = true
  outst : t.hif.outst = dropOut h.tag op s.hif.outst
  waits : t.hif.waits = s.hif.waits
  isOpen : t.hif.isOpen = (s.hif.isOpen || op == 0x0C01)
  rest  : t.hif.flowEv = s.hif.flowEv ∧ t.hif.msix = s.hif.msix ∧ t.hif.smbOff = s.hif.smbOff ∧ t.hif.rd = s.hif.rd
  regs  : RegsKept (fHifCqHeadIndex.addr :: fHifIntStat.addr :: as) s t

/-- An instruction waits for its completion (R473): it stays outstanding, and nothing has gone to the host. -/
structure Waits (op : Nat) (h : KciHdr) (key : Option (Nat × Nat)) (on : WaitOn) (as : List Nat) (s t : State) : Prop where
  out   : MsixAfter s.out t.out
  waits : t.hif.waits = s.hif.waits ++ [⟨h.tag, op, key, on⟩]
  outst : ∃ o, o.tag = h.tag ∧ o.op = op ∧ o ∈ t.hif.outst ∧ ∀ x ∈ s.hif.outst, x ∈ t.hif.outst
  rest  : t.hif.phase = s.hif.phase ∧ t.hif.isOpen = s.hif.isOpen
  regs  : RegsKept as s t

/-- The operands of NODE.LOAD are within their ranges (R131, R160, R161, R164). -/
def NodeLegal (o : NodeOp) : Prop :=
  o.node < 262144 ∧ 1 ≤ o.mask ∧ o.mask ≤ 65535 ∧ o.mode ≤ 1 ∧ o.cls ≤ 3 ∧ o.home ≤ 15 ∧ o.nosteal ≤ 1 ∧ o.fpol ≤ 2 ∧ o.alt < 262144 ∧
  1 ≤ o.budget ∧ o.budget ≤ 65535 ∧ o.prog < 2 ^ 32 ∧ o.account < 4096 ∧
  o.ctx < 2 ^ 64 ∧ o.ctx % 4 ≠ 3 ∧ o.ctx / 4 % 4 = 0 ∧ o.ctx / 2 ^ 26 % 64 = 0 ∧
  o.ctx / 16 % 2 ^ 22 * 0x2000 + 2 * classPages (o.ctx % 4) * 0x2000 ≤ 2 ^ 35

/-- Bullpen once node `n` with descriptor `d` has become READY: at the tail of the queue of its class in its HOME store, or at its head (R139). -/
def readied (n : Nat) (d : NodeD) (head byPost : Bool) (s : State) : BullSt :=
  ((s.setNode n { d with st := .ready, expired := false }).setReadyQ d.set.home d.set.cls
    (if head then ⟨n, s.clk, byPost⟩ :: s.readyQ d.set.home d.set.cls else s.readyQ d.set.home d.set.cls ++ [⟨n, s.clk, byPost⟩])).bull

/-- A descriptor after an arm that does not make its node READY (R134). -/
def armedBy (d : NodeD) : NodeD :=
  match d.st with
  | .disarmed => { d with st := .armed }
  | .cancelPending => { d with st := .running }
  | .aborting => { d with recArm := true }
  | _ => d

/-- A descriptor after a post that does not make its node READY (R134, R135). -/
def postedBy (flags : Nat) (d : NodeD) : NodeD :=
  if d.st = .aborting then { d with recFlags := d.recFlags ||| flags } else { d with flags := d.flags ||| flags }

/-- A post makes an ARMED node satisfied (R134, R135). -/
def readies (flags : Nat) (d : NodeD) : Bool :=
  decide (d.st = .armed) && !satisfied d && satisfied { d with flags := d.flags ||| flags }

/-- Only the descriptor of node `n` differs in Bullpen, and it is `d`. -/
def OnlyNode (n : Nat) (d : NodeD) (s t : State) : Prop :=
  t.bull = { s.bull with nodes := t.bull.nodes } ∧ t.node? n = some d ∧ ∀ j, j ≠ n → t.node? j = s.node? j

/-- No GRAPH.UNLOAD is under way (R479). -/
def noUnload (s : State) : Bool := s.graphs.all (fun g => !g.2.unload)

/-- Registers that a check of the ledger may change: it counts a mismatch and reports it (R186, R188, R430, R431). -/
abbrev ledgerRegs : List Nat :=
  [fSeedIntStatContained.addr, fSeedMismatchCount.addr, fUmpSeqNext.addr, fUmpContainedCount.addr, fUmpIntStat.addr, fUmpLostCount.addr,
   fUmpRingHeadIndex.addr]

/-- Registers that a context made resident or invalidated may change: counts of prefetches and of wasted ones, and NOSLOT (R172, R173). -/
abbrev contextRegs : List Nat := [fGhPfWasteCount.addr, fGhIntStatNoslot.addr, fGhPrefetchCount.addr]

/-- The operands of QUEUE.OPEN are within their ranges (R105, R125, R127). -/
def QueueLegal (o : QueueOp) : Prop :=
  o.queue < 65536 ∧ o.account < 4096 ∧
  ((o.mode = 1 ∨ o.mode = 2) ∧ 1 ≤ o.depth ∧ o.depth ≤ 65535 ∧ o.retain ≤ 16384 ∧ o.retain + 1 ≤ o.depth ∨
    o.mode = 3 ∧ (o.depth = 16 ∨ o.depth = 32 ∨ o.depth = 64) ∧ o.retain = 0)

/-- A queue after a rewind: every retained item is held again, ahead of the others, with REPLAY = 1, the mark stands before the first of them, LAST_KEY is
one tick before it (R124), and the 8 oldest and the 8 newest items are in the windows (R101). -/
def Replayed (x y : Queue) : Prop :=
  y = Queue.rewindow { x with
    held := (x.retained.map (fun i => { i with e := { i.e with replay := true }, markNo := 0 })).modifyHead (fun i => { i with markNo := x.marks }) ++ x.held
    retained := [], markValid := true, markLost := false
    lastKey := ((x.retained.map (fun i => i.e.key)).headD 0 + 2 ^ 32 - 1) % 2 ^ 32
    n := { x.n with replayed := (x.n.replayed + x.retained.length) % 2 ^ 32 } }

/-- Only queue `q` differs, and it is `x`. -/
def OnlyQueue (q : Nat) (x : Option Queue) (s t : State) : Prop := t.queue? q = x ∧ ∀ j, j ≠ q → t.queue? j = s.queue? j

/-- The operands of TIMER.ARM are within their ranges (R155, R160). -/
def TimerLegal (o : TimerOp) : Prop :=
  o.list ≤ 15 ∧ o.target < 262144 ∧ o.flag ≤ 14 ∧ o.due < 2 ^ 32 ∧ (o.rel = true → o.due ≤ 2 ^ 31 - 2) ∧ o.dropLate ≤ 1 ∧ o.report ≤ 1 ∧ o.tag < 2 ^ 32

/-- The operands of TIMER.BEAT are within their ranges (R150, R160, R161). -/
def BeatLegal (o : BeatOp) : Prop := o.gen < 8 ∧ o.en ≤ 1 ∧ 1 ≤ o.q ∧ o.q ≤ 65535 ∧ o.flag ≤ 14 ∧ o.start < 2 ^ 32

/-- The operands of SYS.ACCOUNT are within their ranges (R189, R190). -/
def AccountLegal (o : AccountOp) : Prop :=
  o.account < 4096 ∧ 1 ≤ o.kind ∧ o.kind ≤ 5 ∧ o.quota ≤ 2 ^ 24 ∧ (o.kind = 4 → 1 ≤ o.releases ∧ o.releases ≤ 63) ∧
  (o.kind = 3 → edgeBlock o.attach = true) ∧ (o.kind ≠ 3 → o.attach = 0)

/-- Only account `a` differs in Seedbed, and it is `x`. -/
def OnlyAcct (a : Nat) (x : Account) (s t : State) : Prop :=
  t.seed = { s.seed with accts := t.seed.accts } ∧ t.acct a = x ∧ ∀ j, j ≠ a → t.acct j = s.acct j

/-- No PORT account but `a` is attached to an edge block (R189). -/
def soleAttached (s : State) (a blk : Nat) : Bool := s.seed.accts.all (fun x => x.1 == a || !(decide (x.2.kind = .port) && x.2.attach == blk))

/-- An instruction has completed with a status and a result, among what the device has sent (R472, R475). -/
def Completed (op : Nat) (h : KciHdr) (status : Nat) (result : List Nat) (s t : State) : Prop :=
  s.out <+: t.out ∧ ∃ slot phase, OutMsg.completion slot h.tag op status phase result ∈ t.out

/-! ## One media core -/

/-- A BAR0 address in the PMU register block of a counter set (R461). -/
def InPmu (set b : Nat) : Prop := pmuBase set ≤ b ∧ b < pmuBase set + 0x400

/-- What an instruction of core `k` never changes: everything but the core itself, its cluster's power state and shared data RAM,
buffers, its PMU, its Scout, and what an overflowing PMC sends (R448, R450, R457). -/
structure CoreFrame (k : Nat) (s t : State) : Prop where
  pending : t.pending = s.pending
  clk     : t.clk = s.clk
  free    : s.free ≤ t.free
  time    : t.time = s.time
  mq      : t.mq = s.mq
  seed    : t.seed = s.seed
  bull    : t.bull = s.bull
  gh      : t.gh = s.gh
  ump     : t.ump = s.ump
  glb     : t.glb = s.glb
  graphs  : t.graphs = s.graphs
  net     : t.net = s.net
  cfg     : t.cfg = s.cfg
  txHold  : t.txHold = s.txHold
  rfp     : t.rfp = s.rfp
  mdm     : t.mdm = s.mdm
  madi    : t.madi = s.madi
  pack    : t.pack = s.pack
  flc     : t.flc = s.flc
  flash   : t.flash = s.flash
  peers   : t.peers = s.peers
  kml     : t.kml = s.kml
  hbmBad  : t.hbmBad = s.hbmBad
  hbm     : t.hbm = s.hbm
  kci     : t.hif.outst = s.hif.outst ∧ t.hif.waits = s.hif.waits ∧ t.hif.isOpen = s.hif.isOpen
  others  : ∀ j, j ≠ k → t.cor j = s.cor j
  clus    : ∀ n, n ≠ k / 16 → t.cl n = s.cl n
  code    : (t.cl (k / 16)).code = (s.cl (k / 16)).code
  regs    : ∀ b, ¬ InPmu k b → t.reg b = s.reg b

/-- What an instruction leaves that stores nothing into shared data RAM. -/
structure CoreOnly (k : Nat) (s t : State) : Prop extends CoreFrame k s t where
  data : (t.cl (k / 16)).data = (s.cl (k / 16)).data
  bad  : (t.cl (k / 16)).bad = (s.cl (k / 16)).bad

/-- Core `k` executes the instruction at its PC: it may issue, the fetch of the word at its PC raises nothing (R198, R260, R432), and no fault injection
waits for it (R446). -/
def runs (s : State) (k : Nat) : Bool :=
  canIssue s k && (fetchExc s k (s.cor k).pc).isNone && !(s.flag fUmpInjectArm && s.fld fUmpInjectCore == k)

/-- The PC is not the last instruction of an active loop body, where no transfer of control may stand (R213). -/
def bodyEndFree (s : State) (k : Nat) : Bool := !(s.cor k).loops.any (fun l => l.last == (s.cor k).pc)

/-- A core after an instruction that transfers no control (R204, R212). -/
def retire (c : Core) : Core := { c with loops := (loopEnd c.pc c.loops).1, pc := (loopEnd c.pc c.loops).2 }

/-! ## What the spec's tables give -/

/-- A 32-bit result: the value written, whether it clamped (SAT), and the flags C and V (R231, R254). -/
structure Result where
  v   : Word
  sat : Bool := false
  c   : Bool := false
  ov  : Bool := false
  deriving DecidableEq, Repr

/-- An exact result brought into a signed range of `w` bits: clamped with S = 1, its low `w` bits, sign-extended, with S = 0 (R226, R231). -/
def inRange (w : Nat) (sat : Bool) (e : Int) : Result :=
  { v := BitVec.ofInt 32 (if sat then clampS w e else wrapS w e), sat := sat && decide (e < -(2 ^ (w - 1)) ∨ (2 ^ (w - 1) : Int) - 1 < e) }

/-- An exact result brought into the unsigned range of 32 bits (R231, R252). -/
def inRangeU (sat : Bool) (e : Int) : Result :=
  { v := BitVec.ofInt 32 (if sat then max 0 (min 0xFFFFFFFF e) else e), sat := sat && decide (e < 0 ∨ 0xFFFFFFFF < e) }

/-- Signed overflow of 32 bits (R254). -/
def overflows (e : Int) : Bool := decide (e < -(2 ^ 31) ∨ (2 ^ 31 : Int) - 1 < e)

/-- Round to nearest of x / 2^k, with ties to even (R232, R233, R235). -/
def nearest (x : Int) (k : Nat) : Int :=
  if (2 : Int) ^ k < 2 * (x % 2 ^ k) ∨ (2 * (x % 2 ^ k) = 2 ^ k ∧ x / 2 ^ k % 2 = 1) then x / 2 ^ k + 1 else x / 2 ^ k

/-- A signed shift left of 32 bits, or of the sample range (R226, R231, R252). -/
def shiftedLeft (w : Nat) (sat : Bool) (x : Int) (k : Nat) : Result := inRange w sat (x * 2 ^ k)

/-- The scalar functions: the constructor, and what it gives from the S bit, S[X] and S[Y] (R229, R252, R254). -/
def scalarTable : List ((Nat → SaluOp → Instr) × (Bool → Word → Word → Result)) :=
  [ (.add, fun sat x y => { inRange 32 sat (x.toInt + y.toInt) with
      c := decide (2 ^ 32 ≤ x.toNat + y.toNat), ov := overflows (x.toInt + y.toInt) })
  , (.sub, fun sat x y => { inRange 32 sat (x.toInt - y.toInt) with
      c := decide (y.toNat ≤ x.toNat), ov := overflows (x.toInt - y.toInt) })
  , (.addu, fun sat x y => { inRangeU sat (x.toNat + y.toNat : Nat) with
      c := decide (2 ^ 32 ≤ x.toNat + y.toNat), ov := overflows (x.toInt + y.toInt) })
  , (.subu, fun sat x y => { inRangeU sat ((x.toNat : Int) - y.toNat) with
      c := decide (y.toNat ≤ x.toNat), ov := overflows (x.toInt - y.toInt) })
  , (.neg, fun sat x _ => { inRange 32 sat (-x.toInt) with c := decide (x.toNat = 0), ov := overflows (-x.toInt) })
  , (.abs, fun sat x _ => { inRange 32 sat |x.toInt| with ov := overflows |x.toInt| })
  , (.min, fun _ x y => { v := if y.toInt < x.toInt then y else x })
  , (.max, fun _ x y => { v := if x.toInt < y.toInt then y else x })
  , (.and_, fun _ x y => { v := x &&& y })
  , (.or_, fun _ x y => { v := x ||| y })
  , (.xor_, fun _ x y => { v := x ^^^ y })
  , (.andn, fun _ x y => { v := x &&& ~~~y })
  , (.shl, fun sat x y => shiftedLeft 32 sat x.toInt (y.toNat % 32))
  , (.shr, fun _ x y => { v := x >>> (y.toNat % 32) })
  , (.sar, fun _ x y => { v := BitVec.ofInt 32 (x.toInt / 2 ^ (y.toNat % 32)) })
  , (.srr, fun _ x y => { v := BitVec.ofInt 32 (nearest x.toInt (y.toNat % 32)) })
  , (.mul, fun sat x y => inRange 32 sat (x.toInt * y.toInt))
  , (.mulu, fun sat x y => inRangeU sat (x.toNat * y.toNat : Nat))
  , (.mov, fun _ x _ => { v := x })
  , (.clz, fun _ x _ => { v := BitVec.ofNat 32 (if x.toNat = 0 then 32 else 31 - Nat.log2 x.toNat) })
  , (.bfx, fun _ x y => { v := BitVec.ofNat 32 (x.toNat / 2 ^ (y.toNat % 32) % 2 ^ (y.toNat / 256 % 32)) }) ]

/-- CF as an instruction that updates it writes it: Z and N from the value written, C and V as the function gives them, LM unchanged
(R254). -/
def flagsSet (cf : BitVec 16) (r : Result) : BitVec 16 :=
  (cf &&& 0xFFF0) ||| BitVec.ofNat 16 ((if r.v = 0 then 1 else 0) + (if r.v.getLsbD 31 then 2 else 0) + (if r.c then 4 else 0) + (if r.ov then 8 else 0))

/-- A core that has written a scalar result into S[D]: SAT bit 8 if it clamped, CF where the instruction updates it, and S0 discards
the value (R200, R231, R236, R252, R254). -/
def wroteScalar (d : Nat) (setf : Bool) (r : Result) (c : Core) : Core :=
  { c with
    s := if d = 0 then c.s else mapInsert d (rv r.v) c.s
    cf := if setf then flagsSet c.cf r else c.cf
    sf := if r.sat then c.sf ||| 0x100 else c.sf }

/-- The scalar shifts by an immediate count (R253). -/
def shiftTable : List ((Nat → ShiOp → Instr) × (Bool → Word → Nat → Result)) :=
  [ (.shiShl, fun sat x n => shiftedLeft 32 sat x.toInt n)
  , (.shiShr, fun _ x n => { v := x >>> n })
  , (.shiSar, fun _ x n => { v := BitVec.ofInt 32 (x.toInt / 2 ^ n) })
  , (.shiSrr, fun _ x n => { v := BitVec.ofInt 32 (nearest x.toInt n) }) ]

/-- A lane as an instruction of a width reads it: its low 24 bits as a signed value at W24, all of it at W32 (R225, R226, R255). -/
def laneAt (w24 : Bool) (x : Word) : Int := if w24 then (x.setWidth 24).toInt else x.toInt

/-- Bits of a lane width (R226). -/
def laneBits (w24 : Bool) : Nat := if w24 then 24 else 32

/-- What a lane of a vector function may be from the S bit, the width, the lane's LM bit and the two source lanes. Where bits [23:0]
of two lanes are equal, R255 does not say which one VMIN and VMAX select at W24, so either may be (assumption 6). -/
abbrev LaneRule := Bool → Bool → Bool → Word → Word → Result → Prop

/-- The vector functions that write lanes: the constructor, whether the row allows W24, and the rule of a lane (R255). -/
def vectorTable : List ((Nat → ValuOp → Instr) × Bool × LaneRule) :=
  [ (.vadd, true, fun sat w _ x y r => r = inRange (laneBits w) sat (x.toInt + y.toInt))
  , (.vsub, true, fun sat w _ x y r => r = inRange (laneBits w) sat (x.toInt - y.toInt))
  , (.vneg, true, fun sat w _ x _ r => r = inRange (laneBits w) sat (-x.toInt))
  , (.vabs, true, fun sat w _ x _ r => r = inRange (laneBits w) sat |x.toInt|)
  , (.vmin, true, fun _ w _ x y r => (r = { v := x } ∧ laneAt w x ≤ laneAt w y) ∨ (r = { v := y } ∧ laneAt w y ≤ laneAt w x))
  , (.vmax, true, fun _ w _ x y r => (r = { v := x } ∧ laneAt w y ≤ laneAt w x) ∨ (r = { v := y } ∧ laneAt w x ≤ laneAt w y))
  , (.vand, false, fun _ _ _ x y r => r = { v := x &&& y })
  , (.vor, false, fun _ _ _ x y r => r = { v := x ||| y })
  , (.vxor, false, fun _ _ _ x y r => r = { v := x ^^^ y })
  , (.vshl, true, fun sat w _ x y r => r = shiftedLeft (laneBits w) sat (laneAt w x) (y.toNat % 32))
  , (.vshr, false, fun _ _ _ x y r => r = { v := x >>> (y.toNat % 32) })
  , (.vsar, true, fun _ w _ x y r => r = { v := BitVec.ofInt 32 (laneAt w x / 2 ^ (y.toNat % 32)) })
  , (.vsrr, true, fun _ w _ x y r => r = { v := BitVec.ofInt 32 (nearest (laneAt w x) (y.toNat % 32)) })
  , (.vsel, false, fun _ _ m x y r => r = { v := if m then x else y })
  , (.vmov, false, fun _ _ _ x _ r => r = { v := x }) ]

/-- The vector shifts by an immediate count, which is at most 31 (R255). -/
def vectorShiftTable : List ((Nat → ValuOp → Instr) × Bool × (Bool → Bool → Word → Nat → Result)) :=
  [ (.vshiVshl, true, fun sat w x n => shiftedLeft (laneBits w) sat (laneAt w x) n)
  , (.vshiVshr, false, fun _ _ x n => { v := x >>> n })
  , (.vshiVsar, true, fun _ w x n => { v := BitVec.ofInt 32 (laneAt w x / 2 ^ n) })
  , (.vshiVsrr, true, fun _ w x n => { v := BitVec.ofInt 32 (nearest (laneAt w x) n) }) ]

/-- The vector compares (R255). -/
def compareTable : List ((Nat → ValuOp → Instr) × (Int → Int → Bool)) :=
  [(.vcmpeq, fun x y => decide (x = y)), (.vcmplt, fun x y => decide (x < y)), (.vcmple, fun x y => decide (x ≤ y))]

/-- Whether the Q bit selects a lane: all eight, or lane 0 alone (R228, R250). -/
def selects (q : Bool) (l : Nat) : Bool := decide (l < 8) && (q || decide (l = 0))

/-- A core that has written lanes of V[d]: each lane written with the residue of its value and SAT of each lane that clamped; every
other lane, every other register and every other bit of SF is as it was (R228, R231, R236, R250). -/
def WroteLanes (d : Nat) (sel : Nat → Bool) (r : Nat → Result) (c c' : Core) : Prop :=
  (∀ l, sel l = true → c'.vLane d l = rv (r l).v) ∧
  (∀ i l, l < 8 → ¬ (i = d ∧ sel l = true) → c'.vLane i l = c.vLane i l) ∧
  (∀ b, c'.sf.getLsbD b = (c.sf.getLsbD b || (decide (8 ≤ b) && sel (b - 8) && (r (b - 8)).sat))) ∧
  c' = { c with v := c'.v, sf := c'.sf }

/-- An accumulator lane's result: the value, SAT and GOV (R230). -/
structure AccResult where
  v   : Acc
  sat : Bool := false
  gov : Bool := false
  deriving DecidableEq, Repr

/-- An exact sum brought into the accumulator's range: clamped with SAT, or modulo 2^56 with GOV (R230). -/
def inAccumulator (sat : Bool) (e : Int) : AccResult :=
  let out := decide (e < -(2 ^ 55) ∨ (2 ^ 55 : Int) - 1 < e)
  { v := BitVec.ofInt 56 (if sat then clampS 56 e else e), sat := sat && out, gov := !sat && out }

/-- The exact fractional product of the operand fields of two lanes, Q8.47 (R225, R227). -/
def product (x y : Word) : Int := laneAt true x * laneAt true y * 2

/-- The multiply operations (R228). -/
def multiplyTable : List ((Nat → MacOp → Instr) × (Bool → Acc → Word → Word → AccResult)) :=
  [ (.mpy, fun sat _ x y => inAccumulator sat (product x y))
  , (.mac, fun sat a x y => inAccumulator sat (a.toInt + product x y))
  , (.msu, fun sat a x y => inAccumulator sat (a.toInt - product x y)) ]

/-- A core that has written lanes of an accumulator (R228, R230, R236). -/
def WroteAcc (d : Nat) (sel : Nat → Bool) (r : Nat → AccResult) (c c' : Core) : Prop :=
  (∀ l, sel l = true → (c'.aLane d l).v = (r l).v ∧ (c'.aLane d l).good = true) ∧
  (∀ i l, l < 8 → ¬ (i = d ∧ sel l = true) → c'.aLane i l = c.aLane i l) ∧
  (∀ b, c'.sf.getLsbD b = (c.sf.getLsbD b || (decide (8 ≤ b) && sel (b - 8) && (r (b - 8)).sat) || (sel b && (r b).gov))) ∧
  c' = { c with a := c'.a, sf := c'.sf }

/-- An extraction of an accumulator: scaled by 2^sh, rounded to nearest even, brought into the format (R233, R234). -/
def extracted (sat q15 : Bool) (sh : Int) (a : Acc) : Result :=
  inRange (if q15 then 16 else 24) sat (nearest a.toInt ((if q15 then 32 else 24) - sh).toNat)

/-! ## Data memory of a core -/

/-- A byte as core `k` reads it: core local RAM, or the shared data RAM of its cluster from 0x0010_0000 (R194). -/
def dataByte (s : State) (k a : Nat) : Byte :=
  if a < 0x100000 then lramByte (s.cor k) a else memRead (s.cl (k / 16)).data (a - 0x100000)

/-- The bytes of an access, upward from its address (R8). -/
def dataBytes (s : State) (k a n : Nat) : List Byte := (List.range n).map (fun i => dataByte s k (a + i))

/-- An access that R194, R196 and R207 allow: within one region, and aligned. -/
def accessOk (s : State) (k a size : Nat) : Bool := (region (s.cor k) a size).isSome && a % size == 0

/-- An access that reads settled words without an uncorrectable error: no outstanding move writes them (R210), and SEC-DED finds none
(R432, R438). -/
def settled (s : State) (k a size : Nat) : Bool :=
  !(eccOn s && (if a < 0x100000 then meetsBad (s.cor k).bad a size else meetsBad (s.cl (k / 16)).bad a size)) &&
    (s.cor k).moves.all (fun m => m.toBuf || decide (a + size ≤ m.la) || decide (m.la + m.len ≤ a))

/-- A row of the single loads: the constructor, the access size, the D codes that name a register, and what the loaded bytes make of
the core (R207, R258). -/
def IsLoad (e : (Nat → Nat → MemOp → Instr) × Nat × (Nat → Bool) × (Nat → List Byte → Core → Core)) : Prop :=
  e ∈ [ (.ldb, 1, reg5, fun d bs c => c.setS d (rv ((BitVec.ofNat 8 (leNat bs)).signExtend 32)))
  , (.ldbu, 1, reg5, fun d bs c => c.setS d (rv (BitVec.ofNat 32 (leNat bs))))
  , (.ldh, 2, reg5, fun d bs c => c.setS d (rv ((BitVec.ofNat 16 (leNat bs)).signExtend 32)))
  , (.ldhu, 2, reg5, fun d bs c => c.setS d (rv (BitVec.ofNat 32 (leNat bs))))
  , (.ldw, 4, reg5, fun d bs c => c.setS d (rv (BitVec.ofNat 32 (leNat bs))))
  , (.ldwv, 4, reg5, fun d bs c => c.setV d 0 (rv (BitVec.ofNat 32 (leNat bs))))
  , (.ldv, 32, reg5, putVector)
  , (.ldpn, 4, reg5, fun d bs c => c.setPn d (BitVec.ofNat 32 (leNat bs)))
  , (.ldbl, 4, regBl, fun d bs c => c.setBl d (BitVec.ofNat 32 (leNat bs))) ]

/-- A row of the single stores: the constructor, the access size, the D codes that name a register, the bytes stored, and whether the
data's residue is right (R242, R258). -/
def IsStore (e : (Nat → Nat → MemOp → Instr) × Nat × (Nat → Bool) × (Nat → Core → List Byte) × (Nat → Core → Bool)) : Prop :=
  e ∈ [ (.stb, 1, reg5, fun d c => leBytes 1 (c.sReg d).v.toNat, fun d c => (c.sReg d).good)
  , (.sth, 2, reg5, fun d c => leBytes 2 (c.sReg d).v.toNat, fun d c => (c.sReg d).good)
  , (.stw, 4, reg5, fun d c => leBytes 4 (c.sReg d).v.toNat, fun d c => (c.sReg d).good)
  , (.stwv, 4, reg5, fun d c => leBytes 4 (c.vLane d 0).v.toNat, fun d c => (c.vLane d 0).good)
  , (.stv, 32, reg5, fun d c => (List.range 8).flatMap (fun l => leBytes 4 (c.vLane d l).v.toNat),
      fun d c => (List.range 8).all (fun l => (c.vLane d l).good))
  , (.stpn, 4, reg5, fun d c => leBytes 4 (c.pnReg d).toNat, fun _ _ => true)
  , (.stbl, 4, regBl, fun d c => leBytes 4 (c.blReg d).toNat, fun _ _ => true) ]

/-- What a store leaves of its core but the bytes themselves: every register, and the core's place in its program, apart from the update
of Pn (R206); the notes that a store takes of dirty pages (R175), of words that a move in progress reads or writes (R269) and of
words that are no longer uncorrectable (R432) are aside. -/
def StoredFrame (p : Nat) (a : Addr) (c c' : Core) : Prop :=
  c' = { retire (addrDone p a c) with
    ram := c'.ram, scratch := c'.scratch, bad := c'.bad, moves := c'.moves, run := { c.run with dirty := c'.run.dirty } } ∧
  c'.moves.map (fun m => { m with hit := [] }) = c.moves.map (fun m => { m with hit := [] }) ∧ (∀ w ∈ c'.bad, w ∈ c.bad)

/-- A dual load: the constructor, the access size and the register written (R259). -/
def IsDualLoad (e : (Nat → Nat → DualOp → Nat → DualOp → Instr) × Nat × (Nat → List Byte → Core → Core)) : Prop :=
  e ∈ [ (.lddw, 4, fun d bs c => c.setS d (rv (BitVec.ofNat 32 (leNat bs)))), (.lddv, 32, putVector) ]

/-! ## Control flow and the fabric -/

/-- A core after a transfer to `p`: every loop whose body does not hold the target ends (R204, R213). -/
def transfer (p : Nat) (c : Core) : Core := { c with loops := loopLeave p c.loops, pc := p }

/-- Whether `p` is the target of a PC-relative transfer (R260). -/
def IsTarget (pc : Nat) (offset : Int) (p : Nat) : Prop := (p : Int) = ((pc : Int) + 4 * offset) % 2 ^ 32

/-- A core after a LOOP of `count` iterations over `body` instructions; a COUNT of 0 passes the body by (R212, R213). -/
def loopStarted (count body : Nat) (c : Core) : Core :=
  if count = 0 then { c with pc := (c.pc + 4 * body + 4) % 2 ^ 32 }
  else { c with
    pc := (c.pc + 4) % 2 ^ 32
    loops := { first := (c.pc + 4) % 2 ^ 32, last := (c.pc + 4 * body) % 2 ^ 32, left := count } :: c.loops }

/-- CF with Z replaced (R262). -/
def zSet (cf : BitVec 16) (z : Bool) : BitVec 16 := (cf &&& 0xFFFE) ||| (if z then 1 else 0)

/-- A core that has taken the status word of a fabric instruction into S[D], and CF.Z (R262). -/
def withStatus (d code handle : Nat) (c : Core) : Core :=
  { c with cf := zSet c.cf (decide (code = 0)) }.setS d (rv (BitVec.ofNat 8 code ++ BitVec.ofNat 24 handle))

/-- A run that has recorded a Bullpen operation (R144). -/
def recordedBull (o : RunOp) (c : Core) : Core := { c with run := { c.run with ops := o :: c.run.ops, nBull := c.run.nBull + 1 } }

/-- A run that has recorded a queue operation (R117). -/
def recordedMq (o : RunOp) (c : Core) : Core := { c with run := { c.run with ops := o :: c.run.ops, nMq := c.run.nMq + 1 } }

/-- A run that has recorded a Seedbed operation (R182). -/
def recordedSeed (o : RunOp) (c : Core) : Core := { c with run := { c.run with ops := o :: c.run.ops, nSeed := c.run.nSeed + 1 } }

/-- A scalar register as an unsigned number. -/
def sNat (c : Core) (i : Nat) : Nat := (c.sReg i).v.toNat

/-- What an instruction of core `k` leaves that works on queue `q` (PMU set 259) or on Seedbed (PMU set 258): `part` of the state apart,
nothing but its core and those counters. -/
structure UnitOnly (k set : Nat) (part : State → State → State) (s t : State) : Prop where
  rest : CoreOnly k s (part s { t with regs := s.regs })
  regs : ∀ b, ¬ InPmu k b → ¬ InPmu set b → t.reg b = s.reg b

/-- The four words of a popped entry, with LOAN as given, and the status word, in the lanes of V[D] (R99, R262, R265). -/
def popLane (e : Entry) (loan : Bool) (l : Nat) : Word :=
  (entryWords { e with loan := loan }).getD l 0

/-- A core that has taken the result of a pop: V[D] and CF.Z, and nothing else but the record of its run (R262, R265). -/
def TookPop (d : Nat) (z : Bool) (lane : Nat → Word) (c c' : Core) : Prop :=
  (∀ l, l < 8 → c'.vLane d l = rv (lane l)) ∧ (∀ i l, l < 8 → i ≠ d → c'.vLane i l = c.vLane i l) ∧
  c' = { c with v := c'.v, cf := zSet c.cf z, run := c'.run }

/-- The forms of MQPOP, with their bound; the register that holds it has its own residue (R110, R242, R265). -/
def IsPop (k d x : Nat) (c : Core) (i : Instr) (bound : Option Nat) : Prop :=
  (i = .mqpop k d x ∧ bound = none) ∨ (∃ y, y < 32 ∧ (c.sReg y).good = true ∧ i = .mqpopKeyed k d x y ∧ bound = some (sNat c y))

/-- A move that XMOV describes (R267). -/
def moveOf (c : Core) (toBuf : Bool) (d x y : Nat) : Move :=
  { la := sNat c d, handle := sNat c x, ofs := sNat c y % 2 ^ 13, len := sNat c y / 65536 % 2 ^ 13, toBuf := toBuf }

/-- A core at the start of its home program (R214). -/
def atHome (s : State) (k : Nat) (c : Core) : Core :=
  { c with mode := .wait, blocked := false, pc := homePc s k, loops := [], moves := [], stall := .none, run := {}, commit := [] }

/-! ## Resets, bring-up and Umpire -/

/-- The parts of the state that every reset loses (R499). -/
abbrev volatileParts : List Part :=
  [.hbm, .mq, .seed, .bull, .gh, .core, .clu, .pmu, .scout, .ump, .graphs, .net, .cfg, .txHold, .rfp, .mdm, .madi, .pack, .flc, .peers, .kml, .hbmBad]

/-- Every part that R499 names as lost is as it is at power-up. -/
def Lost (t : State) : Prop := ∀ p ∈ volatileParts, p.same State.reset t

/-- Registers that every reset but PORST_N keeps (R68, R434, R442, R504). -/
def KeptThrough (a : Nat) : Prop :=
  (0x20000 ≤ a ∧ a < 0x20100) ∨ a = fAonFatalCause.addr ∨ a = fAonFatalMtcMtc.addr ∨ a = fAonTripTherm.addr

/-- What SYSRST_N and GLB_RST.SYS leave (R41, R68, R499, R500, R504). -/
structure WarmReset (cause : Nat) (boot : Bool) (s t : State) : Prop where
  lost  : Lost t
  kept  : Kept (volatileParts ++ [.regs, .time, .hif, .glb]) s t
  hif   : t.hif = {}
  time  : t.time = { s.time with auth := none, snapNs := 0, snapSecL := 0, snapSecH := 0, snapMtc := 0, rateHi := 0, ppsSecLat := 0, tsq := [] }
  fuses : t.glb.rollback = s.glb.rollback ∧ t.glb.revoked = s.glb.revoked
  cause : t.fld fAonRstCause = cause
  count : t.fld fAonRstCountCount = min (s.fld fAonRstCountCount + 1) 65535
  stat  : t.fld fGlbStatStep = 2 ∧ t.flag fGlbStatReady = false ∧ t.fld fGlbStatFail = 0 ∧ t.fld fGlbStatBootSel = bitOf boot
  pll   : ∀ j, j < 7 → t.fld (fGlbPllStatLock.bit j) = if j = 5 then s.fld (fGlbPllStatLock.bit j) else 0
  regs  : ∀ a, KeptThrough a → t.reg a = s.reg a
  rest  : ∀ a, ¬ KeptThrough a → a ∉ [fGlbStatStep.addr, fGlbPllStatLock.addr, fAonRstCause.addr, fAonRstCountCount.addr] → t.reg a = resetWord a

/-- What a FATAL event leaves (R434, R442, R499): its cause, its source and its MTC on record, everything else as SYSRST_N leaves it but what the
host interface keeps, and the boot source of the last boot. -/
structure FatalReset (cause source : Nat) (s t : State) : Prop where
  lost  : Lost t
  fatal : t.fld fAonFatalCause = cause ∧ t.fld fAonFatalSource = source ∧ t.fld fAonFatalValid = 1 ∧ t.fld fAonFatalMtcMtc = s.mtc
  time  : t.time.t = s.time.t ∧ t.time.rate = s.time.rate ∧ t.time.servo = s.time.servo ∧ t.time.armed = s.time.armed
  fuses : t.glb.rollback = s.glb.rollback ∧ t.glb.revoked = s.glb.revoked
  flash : t.flash = s.flash
  cause : t.fld fAonRstCause = 8
  count : t.fld fAonRstCountCount = min (s.fld fAonRstCountCount + 1) 65535
  stat  : t.fld fGlbStatStep = 2 ∧ t.flag fGlbStatReady = false ∧ t.fld fGlbStatBootSel = s.fld fHifBootStatSrc
  msix  : t.hif.msix = s.hif.msix ∧ t.hif.isOpen = false ∧ t.flag fHifStatDevrst = true

/-- An image passes authentication: bring-up goes on with step 6 (R486, R500, R502). -/
structure Booted (pushed : Bool) (x : BootImage) (s t : State) : Prop where
  kept : Kept [.regs, .glb] s t
  step : t.fld fGlbStatStep = 6
  stat : t.fld fHifBootStatCode = 0 ∧ t.fld fHifBootStatSrc = bitOf pushed
  glb  : t.glb = { s.glb with push := none, image := some x }

/-- The counter of a class of Umpire events (R445). -/
def umpCounter (cls : Nat) : Fld := if cls = 0 then fUmpCorrectedCount else if cls = 1 then fUmpContainedCount else fUmpDegradedCount

/-- Umpire has written one record, or discarded it where the ring was full (R431). -/
structure UmpRecord (bytes : List Byte) (s t : State) : Prop where
  full : ringFull (s.fld fUmpRingHeadIndex) (s.fld fUmpRingTailIndex) (s.fld fUmpRingSizeEntries) = true →
    t.hbm = s.hbm ∧ t.fld fUmpRingHeadIndex = s.fld fUmpRingHeadIndex ∧ t.fld fUmpLostCount = (s.fld fUmpLostCount + 1) % 2 ^ 32 ∧
      t.flag (fUmpIntStat.bit 3) = true
  free : ringFull (s.fld fUmpRingHeadIndex) (s.fld fUmpRingTailIndex) (s.fld fUmpRingSizeEntries) = false → s.fld fUmpRingSizeEntries ≤ 65536 →
    let at_ := s.fld fUmpRingBaseLoAddr * 32 + s.fld fUmpRingBaseHiAddr * 2 ^ 32 + 32 * s.fld fUmpRingHeadIndex
    (∀ a, memRead t.hbm a = if at_ ≤ a ∧ a < at_ + bytes.length then bytes.getD (a - at_) 0 else memRead s.hbm a) ∧
      t.fld fUmpRingHeadIndex = (s.fld fUmpRingHeadIndex + 1) % s.fld fUmpRingSizeEntries ∧ t.fld fUmpLostCount = s.fld fUmpLostCount

/-- An Umpire event has been counted in its class, and given a number (R430, R431, R445). -/
structure UmpCounted (cls : Nat) (s t : State) : Prop where
  seq   : t.fld fUmpSeqNext = (s.fld fUmpSeqNext + 1) % 2 ^ 32
  count : t.fld (umpCounter cls) = (s.fld (umpCounter cls) + 1) % 2 ^ 32
  bit   : t.flag (fUmpIntStat.bit cls) = true

/-! ## Bullpen's and Greenhouse's events -/

/-- Posts that only set flags: the node's state makes it neither READY nor record them aside (R134, R135). -/
def plainPost (d : NodeD) : Prop := d.st = .disarmed ∨ d.st = .ready ∨ d.st = .running ∨ d.st = .cancelPending

/-- A prefetch of node `n`'s context into core `k` has started: its page-in holds the slots that were free for it, or waits (R172, R173). -/
def Prefetched (n k : Nat) (s t : State) : Prop :=
  t.fld fGhPrefetchCount = (s.fld fGhPrefetchCount + 1) % 2 ^ 32 ∧
    ∃ p, mapFind? n t.gh.pageIns = some p ∧ p.core = k ∧ p.pre = true ∧ p.resv = false ∧ p.slot = chooseSlot s k (nodePages s n)

/-- A context that a prefetch may page in: it is neither resident nor on its way, and no run or write-back holds it (R169, R172). -/
def mayPrefetch (s : State) (n : Nat) (d : NodeD) : Prop :=
  s.node? n = some d ∧ s.resOf n = none ∧ mapFind? n s.gh.pageIns = none ∧ d.writeBack = none ∧ (d.st = .disarmed ∨ d.st = .armed ∨ d.st = .ready)

/-- Core `k` has been given node `n`, whose descriptor was `d` and whose context lies at slot `sl` (R136, R140, R141, R214). -/
structure Dispatched (n k sl : Nat) (d : NodeD) (s t : State) : Prop where
  node   : t.node? n = some { d with
             flags := d.flags ^^^ (d.flags &&& d.set.mask), st := .running, late := 0, lastCore := k, lastMtc := s.mtc, dispatched := true
             consumed := d.flags &&& d.set.mask, runStart := s.clk, runCore := k, undo := none, hold := none, expired := false }
  others : ∀ j, j ≠ n → t.node? j = s.node? j
  queue  : t.readyQ d.set.home d.set.cls = (s.readyQ d.set.home d.set.cls).filter (fun e => e.node != n)
  core   : (t.cor k).mode = .run ∧ (t.cor k).node = n ∧ (t.cor k).pc = d.set.prog ∧ (t.cor k).mask = (s.cor k).mask ∧ (t.cor k).stall = .none ∧
             (t.cor k).loops = [] ∧ (t.cor k).run = {} ∧ (t.cor k).ctxAddr = 0x20000 + 0x2000 * sl ∧ (t.cor k).ctxPages = classPages d.ctxClass
  regs   : ((t.cor k).sReg 1).v = BitVec.ofNat 32 n ∧ ((t.cor k).sReg 2).v = BitVec.ofNat 32 (0x20000 + 0x2000 * sl) ∧
             ((t.cor k).sReg 3).v = BitVec.ofNat 32 (d.flags &&& d.set.mask) ∧ ((t.cor k).sReg 4).v = BitVec.ofNat 32 d.late ∧
             ((t.cor k).sReg 5).v = BitVec.ofNat 32 (bitOf d.rerun) ∧ ∀ i, 5 < i → (t.cor k).sReg i = {}
  cores  : ∀ j, j ≠ k → t.cor j = s.cor j
  res    : t.resOf n = some { core := k, slot := sl, pre := false, resv := false, disp := s.clk }

/-- A run has been stopped by an exception of a code (R148, R216). -/
structure Stopped (k code : Nat) (d : NodeD) (s t : State) : Prop where
  exc  : t.fld (fCoreExcCode k) = code ∧ t.fld (fCoreExcValid k) = 1 ∧ t.fld (fCoreExcPcPc k) = (s.cor k).pc % 2 ^ 32 ∧
           t.fld (fCoreExcNodeNode k) = (s.cor k).node % 2 ^ 18
  core : (t.cor k).stall = .aborting ∧ (t.cor k).moves = [] ∧ (t.cor k).pc = (s.cor k).pc
  node : ∃ d', t.node? (s.cor k).node = some d' ∧ d'.st = .aborting ∧ d'.undo = some (s.cor k).run ∧ d'.flags = d.flags
  res  : t.resOf (s.cor k).node = none

/-! ## Clusters and host accesses -/

/-- A cluster that has entered a power state: its clock has counted up to here (R448, R492). -/
def enteredPwr (n : Nat) (p : Pwr) (s : State) : Cluster :=
  { s.cl n with pwr := p, since := s.clk, waking := false, cyc := cluCycles s n, cycAt := s.clk }

/-- A bad access has been recorded (R466): counted, and latched where none was. -/
structure BadAccess (kind : Nat) (path : BusPath) (a : Nat) (s t : State) : Prop where
  kept  : Kept [.regs, .out, .hif] s t
  regs  : RegsKept [fHifBadaccCount.addr, fHifErrAddrOffset.addr, fHifErrInfoKind.addr, fHifIntStat.addr] s t
  count : t.fld fHifBadaccCount = (s.fld fHifBadaccCount + 1) % 2 ^ 32
  int   : t.flag (fHifIntStat.bit 1) = true
  first : s.flag fHifErrInfoValid = false → t.fld fHifErrAddrOffset = a % 2 ^ 32 ∧ t.fld fHifErrInfoKind = kind ∧
            t.fld fHifErrInfoPath = (match path with | .pcie => 0 | .smbus => 1) ∧ t.fld fHifErrInfoValid = 1
  later : s.flag fHifErrInfoValid = true → t.reg fHifErrAddrOffset.addr = s.reg fHifErrAddrOffset.addr ∧
            t.reg fHifErrInfoKind.addr = s.reg fHifErrInfoKind.addr

/-- A read has answered a word, and changed only what is listed. -/
def ReadGave (w : Word) (ps : List Part) (s t : State) : Prop := t.hif.rd = [w] ∧ Kept (.hif :: ps) s t

/-! ## Flash and PACK -/

/-- Only segment `q` differs among the segments, and it is `x` (none: it has gone). -/
def OnlySeg (q : Nat) (x : Option Seg) (s t : State) : Prop := t.seg? q = x ∧ ∀ j, j ≠ q → t.seg? j = s.seg? j

/-- The slot of a segment that holds a page position (R404, R405). -/
def slotOf (s : State) (g : Seg) (p : Nat) : Nat × Nat := g.slots.getD (p % nslot s) (0, 0)

/-- A block of a die with spare blocks is retired, and a spare takes its place (R411, R412). -/
structure BlockRetired (d b : Nat) (s t : State) : Prop where
  count   : t.fld fFlcBlkRetiredCount = (s.fld fFlcBlkRetiredCount + 1) % 2 ^ 32
  retired : (mapFind? b (mapGet ({} : Die) d t.flash.dies).retired).isSome = true
  spare   : ∃ k, (mapFind? k (mapGet ({} : Die) d s.flash.dies).spare).isSome = true ∧ (mapFind? k (mapGet ({} : Die) d t.flash.dies).spare) = none ∧
              (mapFind? k (mapGet ({} : Die) d t.flash.dies).free).isSome = true
  others  : ∀ j, j ≠ d → mapGet ({} : Die) j t.flash.dies = mapGet {} j s.flash.dies
  event   : UmpCounted 2 s t ∧ t.flag (fFlcIntStat.bit 3) = true

end Sys2Proof.Machine
end

