-- ==== Sys2Proof/Certificates/Slice0/Obligations.lean ====
section
/-!
DEFINITION. Obligations.lean: what is claimed of the KG7160's model, for the provers.
-/

open Sys2Proof Sys2Proof.Machine

/-- The scalar instructions give the result of their row and change nothing else (R200, R229, R231, R252, R254; derived).
For every row of the SALU function table, every core that executes the instruction at its PC and every legal operand form with good residues, exec
answers a next state in which S[D] holds the value that the exact integer result gives under the S bit, CF is updated where SETF says so, SF bit 8 is
set if it clamped, the PC has moved on, and nothing outside that core changes (S0 discards its value).
Completion is stated for the constructors add, sub, addu, subu, neg, abs, min, max, and_, or_, xor_, andn, shl, shr, sar, srr, mul, mulu,
mov, clz, bfx. -/
def Obligations.ScalarAluResults : Prop :=
  ∀ e ∈ scalarTable, ∀ (s : State) (k : Nat) (op : SaluOp),
    runs s k = true → saluOk op = true → ((s.cor k).sReg op.x).good = true → ((s.cor k).sReg op.y).good = true →
    ∃ t, exec (e.1 k op) s = .next t ∧ CoreOnly k s t ∧
      t.cor k = retire (wroteScalar op.d op.setf (e.2 op.sat ((s.cor k).sReg op.x).v ((s.cor k).sReg op.y).v) (s.cor k))

/-- ADDI, SHI, MOVL, MOVH and CMPI give their results and change nothing else (R231, R252, R253, R254; derived).
For every core that executes and every immediate and register in range, with good residues, exec answers a next state with the sum, shift, constant or combined word in
S[D], or the flags of the comparison in CF, and the core otherwise as it was but for its PC.
Completion is stated for the constructors addi, shiShl, shiShr, shiSar, shiSrr, movl, movh, cmpi. -/
def Obligations.ImmediateResults : Prop :=
  ∀ (s : State) (k : Nat), runs s k = true →
    (∀ (sat : Bool) (d x : Nat) (imm : Int), d < 32 → x < 32 → -(2 ^ 13) ≤ imm → imm < 2 ^ 13 → ((s.cor k).sReg x).good = true →
      ∃ t, exec (.addi k sat d x imm) s = .next t ∧ CoreOnly k s t ∧
        t.cor k = retire (wroteScalar d false (inRange 32 sat (((s.cor k).sReg x).v.toInt + imm)) (s.cor k))) ∧
    (∀ e ∈ shiftTable, ∀ op : ShiOp, shiOk op = true → ((s.cor k).sReg op.x).good = true →
      ∃ t, exec (e.1 k op) s = .next t ∧ CoreOnly k s t ∧
        t.cor k = retire (wroteScalar op.d false (e.2 op.sat ((s.cor k).sReg op.x).v op.cnt) (s.cor k))) ∧
    (∀ (d : Nat) (imm : Int), d < 32 → -(2 ^ 18) ≤ imm → imm < 2 ^ 18 →
      ∃ t, exec (.movl k d imm) s = .next t ∧ CoreOnly k s t ∧
        t.cor k = retire (wroteScalar d false { v := BitVec.ofInt 32 imm } (s.cor k))) ∧
    (∀ (d imm : Nat), d < 32 → imm < 65536 → ((s.cor k).sReg d).good = true →
      ∃ t, exec (.movh k d imm) s = .next t ∧ CoreOnly k s t ∧
        t.cor k = retire (wroteScalar d false { v := BitVec.ofNat 16 imm ++ ((s.cor k).sReg d).v.setWidth 16 } (s.cor k))) ∧
    (∀ (x : Nat) (imm : Int), x < 32 → -(2 ^ 13) ≤ imm → imm < 2 ^ 13 → ((s.cor k).sReg x).good = true →
      ∃ t, exec (.cmpi k x imm) s = .next t ∧ CoreOnly k s t ∧
        t.cor k = retire { s.cor k with cf := flagsSet (s.cor k).cf (Result.mk (((s.cor k).sReg x).v - BitVec.ofInt 32 imm) false
          (decide ((BitVec.ofInt 32 imm).toNat ≤ ((s.cor k).sReg x).v.toNat)) (overflows (((s.cor k).sReg x).v.toInt - imm))) })

/-- The vector instructions write the lanes that Q selects and no other lane (R226, R228, R231, R236, R250, R255; derived).
For every VALU and VSHI row, VBCST, VPUT and VGET, with good residues in the source lanes, exec answers a next state in which each selected lane holds
the result of the row at the selected width, SAT marks each lane that clamped, and every other lane and register is unchanged. VMIN and VMAX may
answer either lane where bits [23:0] of both are equal at W24: the rule does not say which (the statement allows both; assumption 6).
Completion is stated for the constructors vadd, vsub, vneg, vabs, vmin, vmax, vand, vor, vxor, vshl, vshr, vsar, vsrr, vsel, vmov, vbcst,
vget, vput, vshiVshl, vshiVshr, vshiVsar, vshiVsrr. -/
def Obligations.VectorAluResults : Prop :=
  ∀ (s : State) (k : Nat), runs s k = true →
    (∀ e ∈ vectorTable, ∀ op : ValuOp, valuOk e.2.1 op = true →
      (∀ l, selects op.q l = true → ((s.cor k).vLane op.x l).good = true ∧ ((s.cor k).vLane op.y l).good = true) →
      ∃ t r c', exec (e.1 k op) s = .next t ∧ CoreOnly k s t ∧ t.cor k = retire c' ∧
        WroteLanes op.d (selects op.q) r (s.cor k) c' ∧
        ∀ l, selects op.q l = true →
          e.2.2 op.sat op.w24 ((s.cor k).cf.getLsbD (8 + l)) ((s.cor k).vLane op.x l).v ((s.cor k).vLane op.y l).v (r l)) ∧
    (∀ e ∈ vectorShiftTable, ∀ op : ValuOp, valuOk e.2.1 op = true →
      (∀ l, selects op.q l = true → ((s.cor k).vLane op.x l).good = true) →
      ∃ t c', exec (e.1 k op) s = .next t ∧ CoreOnly k s t ∧ t.cor k = retire c' ∧
        WroteLanes op.d (selects op.q) (fun l => e.2.2 op.sat op.w24 ((s.cor k).vLane op.x l).v op.y) (s.cor k) c') ∧
    (∀ op : ValuOp, valuOk false op = true → ((s.cor k).sReg op.x).good = true →
      ∃ t c', exec (.vbcst k op) s = .next t ∧ CoreOnly k s t ∧ t.cor k = retire c' ∧
        WroteLanes op.d (selects op.q) (fun _ => { v := ((s.cor k).sReg op.x).v }) (s.cor k) c') ∧
    (∀ d x n : Nat, d < 32 → x < 32 → n < 8 → ((s.cor k).sReg x).good = true →
      ∃ t c', exec (.vput k d x n) s = .next t ∧ CoreOnly k s t ∧ t.cor k = retire c' ∧
        WroteLanes d (fun l => decide (l = n)) (fun _ => { v := ((s.cor k).sReg x).v }) (s.cor k) c') ∧
    (∀ d x n : Nat, d < 32 → x < 32 → n < 8 → ((s.cor k).vLane x n).good = true →
      ∃ t, exec (.vget k d x n) s = .next t ∧ CoreOnly k s t ∧
        t.cor k = retire (wroteScalar d false { v := ((s.cor k).vLane x n).v } (s.cor k)))

/-- The vector compares write CF.LM of the selected lanes and nothing else (R226, R255; derived).
For VCMPEQ, VCMPLT and VCMPLE at either width, with good residues in the lanes compared, exec answers a next state in which LM bit l is the comparison of lane l where Q selects it and 0
elsewhere, CF bits [7:0] are unchanged, and the core is otherwise as it was but for its PC.
Completion is stated for the constructors vcmpeq, vcmplt, vcmple. -/
def Obligations.VectorCompareResults : Prop :=
  ∀ e ∈ compareTable, ∀ (s : State) (k : Nat) (op : ValuOp), runs s k = true → valuOk true op = true → op.d = 0 →
    (∀ l, selects op.q l = true → ((s.cor k).vLane op.x l).good = true ∧ ((s.cor k).vLane op.y l).good = true) →
    ∃ t cf', exec (e.1 k op) s = .next t ∧ CoreOnly k s t ∧ t.cor k = retire { s.cor k with cf := cf' } ∧
      (∀ b, b < 8 → cf'.getLsbD b = (s.cor k).cf.getLsbD b) ∧
      ∀ l, l < 8 → cf'.getLsbD (8 + l) =
        (selects op.q l && e.2 (laneAt op.w24 ((s.cor k).vLane op.x l).v) (laneAt op.w24 ((s.cor k).vLane op.y l).v))

/-- MPY, MAC, MSU and ADEP form the exact product and act on the lanes that Q selects (R227; stated).
With good residues, exec answers a next state in which each selected lane of A[D] holds p, A + p or A - p for the exact product p = a * b * 2 of the
operands' Q0.23 fields (ADEP: x * 2^24), brought into Q8.47 under the S bit with SAT or GOV, and every other lane, accumulator and register is
unchanged.
Completion is stated for the constructors mpy, mac, msu, adep. -/
def Obligations.MultiplyResults : Prop :=
  ∀ (s : State) (k : Nat), runs s k = true →
    (∀ e ∈ multiplyTable, ∀ op : MacOp, macOk op = true →
      (∀ l, selects op.q l = true → ((s.cor k).aLane op.d l).good = true ∧ ((s.cor k).vLane op.x l).good = true ∧
        ((s.cor k).vLane op.y (op.lane.getD l)).good = true) →
      ∃ t c', exec (e.1 k op) s = .next t ∧ CoreOnly k s t ∧ t.cor k = retire c' ∧
        WroteAcc op.d (selects op.q) (fun l => e.2 op.sat ((s.cor k).aLane op.d l).v ((s.cor k).vLane op.x l).v
          ((s.cor k).vLane op.y (op.lane.getD l)).v) (s.cor k) c') ∧
    (∀ (sat q : Bool) (d x : Nat), d < 8 → x < 32 → (∀ l, selects q l = true → ((s.cor k).vLane x l).good = true) →
      ∃ t c', exec (.adep k sat q d x) s = .next t ∧ CoreOnly k s t ∧ t.cor k = retire c' ∧
        WroteAcc d (selects q) (fun l => { v := BitVec.ofInt 56 (laneAt true ((s.cor k).vLane x l).v * 2 ^ 24) }) (s.cor k) c')

/-- AADD, ASUB, AMOV, ACLR, AGET and APUT act on their lanes exactly (R228, R230, R236, R256; derived).
With good residues, exec answers a next state with the sum, difference, copy, zero or transferred word in the selected lanes or in S[D], with SAT or
GOV where the range is left, and every other lane and register unchanged.
Completion is stated for the constructors aadd, asub, amov, aclr, aget, aput. -/
def Obligations.AccumulatorResults : Prop :=
  ∀ (s : State) (k : Nat), runs s k = true →
    (∀ op : AopOp, aopOk op = true →
      (∀ l, selects op.q l = true → ((s.cor k).aLane op.x l).good = true ∧ ((s.cor k).aLane op.y l).good = true) →
      (∃ t c', exec (.aadd k op) s = .next t ∧ CoreOnly k s t ∧ t.cor k = retire c' ∧
        WroteAcc op.d (selects op.q) (fun l => inAccumulator op.sat (((s.cor k).aLane op.x l).v.toInt + ((s.cor k).aLane op.y l).v.toInt))
          (s.cor k) c') ∧
      (∃ t c', exec (.asub k op) s = .next t ∧ CoreOnly k s t ∧ t.cor k = retire c' ∧
        WroteAcc op.d (selects op.q) (fun l => inAccumulator op.sat (((s.cor k).aLane op.x l).v.toInt - ((s.cor k).aLane op.y l).v.toInt))
          (s.cor k) c')) ∧
    (∀ (q : Bool) (d x : Nat), d < 8 → x < 8 → (∀ l, selects q l = true → ((s.cor k).aLane x l).good = true) →
      ∃ t c', exec (.amov k q d x) s = .next t ∧ CoreOnly k s t ∧ t.cor k = retire c' ∧
        WroteAcc d (selects q) (fun l => { v := ((s.cor k).aLane x l).v }) (s.cor k) c') ∧
    (∀ (q : Bool) (d : Nat), d < 8 →
      ∃ t c', exec (.aclr k q d) s = .next t ∧ CoreOnly k s t ∧ t.cor k = retire c' ∧
        WroteAcc d (selects q) (fun _ => { v := 0 }) (s.cor k) c') ∧
    (∀ (d x n : Nat) (high : Bool), d < 32 → x < 8 → n < 8 → ((s.cor k).aLane x n).good = true →
      ∃ t, exec (.aget k d x n high) s = .next t ∧ CoreOnly k s t ∧
        t.cor k = retire (wroteScalar d false { v := (if high then (((s.cor k).aLane x n).v.extractLsb' 32 24).signExtend 32
          else ((s.cor k).aLane x n).v.setWidth 32) } (s.cor k))) ∧
    (∀ d x y n : Nat, d < 8 → x < 32 → y < 32 → n < 8 → ((s.cor k).sReg x).good = true → ((s.cor k).sReg y).good = true →
      ∃ t c', exec (.aput k d x y n) s = .next t ∧ CoreOnly k s t ∧ t.cor k = retire c' ∧
        WroteAcc d (fun l => decide (l = n)) (fun _ => { v := ((s.cor k).sReg y).v.setWidth 24 ++ ((s.cor k).sReg x).v }) (s.cor k) c')

/-- EXT and ASH shift, round to nearest even and bring the result into range (R233; stated).
With good residues, exec answers a next state in which the destination lane (or S[D] with the scalar form of EXT) holds the accumulator scaled by
2^sh, rounded to nearest with ties to even, and clamped or wrapped to the format; ASR floors, ASRR rounds, ASL shifts left under the range rule; every
other lane and register is unchanged.
Completion is stated for the constructors ext, asr, asrr, asl. -/
def Obligations.ExtractionResults : Prop :=
  ∀ (s : State) (k : Nat), runs s k = true →
    (∀ (sat q q15 : Bool) (d x : Nat) (sh : Int), d < 32 → x < 8 → -16 ≤ sh → sh ≤ 16 →
      (∀ l, selects q l = true → ((s.cor k).aLane x l).good = true) →
      (∃ t c', exec (.ext k sat q d x sh q15 false) s = .next t ∧ CoreOnly k s t ∧ t.cor k = retire c' ∧
        WroteLanes d (selects q) (fun l => extracted sat q15 sh ((s.cor k).aLane x l).v) (s.cor k) c') ∧
      (q = false → ∃ t, exec (.ext k sat q d x sh q15 true) s = .next t ∧ CoreOnly k s t ∧
        t.cor k = retire (wroteScalar d false (extracted sat q15 sh ((s.cor k).aLane x 0).v) (s.cor k)))) ∧
    (∀ (sat q : Bool) (d x n : Nat), d < 8 → x < 8 → n ≤ 55 → (∀ l, selects q l = true → ((s.cor k).aLane x l).good = true) →
      (∃ t c', exec (.asr k q d x n) s = .next t ∧ CoreOnly k s t ∧ t.cor k = retire c' ∧
        WroteAcc d (selects q) (fun l => { v := BitVec.ofInt 56 (((s.cor k).aLane x l).v.toInt / 2 ^ n) }) (s.cor k) c') ∧
      (∃ t c', exec (.asrr k q d x n) s = .next t ∧ CoreOnly k s t ∧ t.cor k = retire c' ∧
        WroteAcc d (selects q) (fun l => { v := BitVec.ofInt 56 (nearest ((s.cor k).aLane x l).v.toInt n) }) (s.cor k) c') ∧
      (∃ t c', exec (.asl k sat q d x n) s = .next t ∧ CoreOnly k s t ∧ t.cor k = retire c' ∧
        WroteAcc d (selects q) (fun l => inAccumulator sat (((s.cor k).aLane x l).v.toInt * 2 ^ n)) (s.cor k) c'))

/-- Linear and circular addressing give the effective address and the updated pointer (R206; derived).
In the linear case the effective address is Pn or Pn plus the offset modulo 2^32, and Pn + offset is what a post-modifying mode writes. In the
circular case both lie in [Bn, Bn + Ln) at the offset modulo Ln, and a pointer that was outside the range is reduced into it. That a reduced pointer
which no mode updates is written back is the model's reading (assumption 13). -/
def Obligations.AddressModes : Prop :=
  ∀ (c : Core) (p : Nat) (o : Int) (pre post : Bool),
    let x := effAddr c p o pre post
    let d := if pre then o else 0
    ((8 ≤ p ∨ c.blReg (16 + p) = 0) →
      (x.ea : Int) = ((c.pnReg p).toNat + d) % 2 ^ 32 ∧ x.p = (if post then some (c.pnReg p + BitVec.ofInt 32 o) else none) ∧ x.fix = false) ∧
    (p < 8 → c.blReg (16 + p) ≠ 0 → (c.blReg p).toNat + (c.blReg (16 + p)).toNat ≤ 2 ^ 32 →
      let b : Int := (c.blReg p).toNat
      let l : Int := (c.blReg (16 + p)).toNat
      let v : Int := (c.pnReg p).toNat
      (x.ea : Int) = b + (v - b + d) % l ∧ (b ≤ x.ea ∧ x.ea < b + l) ∧
        (post = true → ∃ w, x.p = some w ∧ (w.toNat : Int) = b + (v - b + o) % l) ∧ x.fix = decide (v < b ∨ b + l ≤ v))

/-- A load writes its register with the bytes at the effective address and stores nothing (R194, R206, R207, R210, R258; derived).
For every single load, mode and register, with an access that the regions and the alignment allow and no outstanding move into it, exec answers a next
state in which the destination holds the little-endian bytes, extended as the row says, Pn is updated as the mode says, and nothing else changes.
Completion is stated for the constructors ldb, ldbu, ldh, ldhu, ldw, ldwv, ldv, ldpn, ldbl. -/
def Obligations.LoadResults : Prop :=
  ∀ e, IsLoad e → ∀ (s : State) (k d : Nat) (m : MemOp), runs s k = true → e.2.2.1 d = true → memOk m = true →
    let a := memAddr (s.cor k) m e.2.1
    accessOk s k a.ea e.2.1 = true → settled s k a.ea e.2.1 = true →
    ∃ t, exec (e.1 k d m) s = .next t ∧ CoreOnly k s t ∧
      t.cor k = retire (e.2.2.2 d (dataBytes s k a.ea e.2.1) (addrDone m.p a (s.cor k)))

/-- A store writes its bytes at the effective address and no other byte (R194, R206, R207, R242, R258; derived).
For every single store, mode and register, with an allowed access and good residues, exec answers a next state in which the bytes at the effective
address are those of the register, every other byte of the core's data memory reads as before, and every register but the mode's Pn is unchanged.
Completion is stated for the constructors stb, sth, stw, stwv, stv, stpn, stbl. -/
def Obligations.StoreResults : Prop :=
  ∀ e, IsStore e → ∀ (s : State) (k d : Nat) (m : MemOp), runs s k = true → e.2.2.1 d = true → memOk m = true →
    let a := memAddr (s.cor k) m e.2.1
    let bs := e.2.2.2.1 d (s.cor k)
    accessOk s k a.ea e.2.1 = true → e.2.2.2.2 d (s.cor k) = true →
    ∃ t, exec (e.1 k d m) s = .next t ∧ CoreFrame k s t ∧ StoredFrame m.p a (s.cor k) (t.cor k) ∧
      ∀ b, dataByte t k b = if a.ea ≤ b ∧ b < a.ea + e.2.1 then bs.getD (b - a.ea) 0 else dataByte s k b

/-- LDDW and LDDV load both registers from the first state's addresses (R207, R259; derived).
With both accesses allowed, exec answers a next state in which both destinations hold the loaded bytes, both pointers are updated, the second after
the first, and nothing else changes.
Completion is stated for the constructors lddw, lddv. -/
def Obligations.DualLoadResults : Prop :=
  ∀ e, IsDualLoad e → ∀ (s : State) (k d1 d2 : Nat) (m1 m2 : DualOp), runs s k = true → dualOk d1 m1 d2 m2 = true →
    let a := dualAddr (s.cor k) m1 e.2.1
    let b := dualAddr (s.cor k) m2 e.2.1
    localOk (s.cor k) a.ea e.2.1 = true → localOk (s.cor k) b.ea e.2.1 = true →
    accessOk s k a.ea e.2.1 = true → accessOk s k b.ea e.2.1 = true → settled s k a.ea e.2.1 = true → settled s k b.ea e.2.1 = true →
    ∃ t, exec (e.1 k d1 m1 d2 m2) s = .next t ∧ CoreOnly k s t ∧
      t.cor k = retire (e.2.2 d2 (dataBytes s k b.ea e.2.1) (e.2.2 d1 (dataBytes s k a.ea e.2.1)
        (addrDone m2.p b (addrDone m1.p a (s.cor k)))))

/-- BRA, CALL, JR and Bcc transfer control, and the conditions after a compare are those of their names (R204, R213, R254, R260, R261; derived).
Outside the last instruction of a loop body, and for JR with a good residue, exec of BRA, CALL, JR and Bcc answers a next state with the PC at the target (Bcc: where its condition
holds, else at the next instruction), the link in its register, loops whose body the target leaves ended, and nothing else changed. After the flags of
x - y, the ten comparison conditions hold exactly when x and y compare so, and the three lane conditions read LM.
Completion is stated for the constructors bra, call, jr, bcc. -/
def Obligations.BranchResults : Prop :=
  (∀ (s : State) (k : Nat), runs s k = true → bodyEndFree s k = true →
      (∀ o : Int, -(2 ^ 23) ≤ o → o < 2 ^ 23 →
        ∃ t p, IsTarget (s.cor k).pc o p ∧ exec (.bra k o) s = .next t ∧ CoreOnly k s t ∧ t.cor k = transfer p (s.cor k)) ∧
      (∀ o : Int, -(2 ^ 23) ≤ o → o < 2 ^ 23 →
        ∃ t p, IsTarget (s.cor k).pc o p ∧ exec (.call k o) s = .next t ∧ CoreOnly k s t ∧
          t.cor k = transfer p ((s.cor k).setS 31 (rv (BitVec.ofNat 32 ((s.cor k).pc + 4))))) ∧
      (∀ (link : Bool) (d x : Nat), d < 32 → x < 32 → ((s.cor k).sReg x).good = true →
        ∃ t, exec (.jr k link d x) s = .next t ∧ CoreOnly k s t ∧
          t.cor k = transfer (sNat (s.cor k) x) (if link then (s.cor k).setS d (rv (BitVec.ofNat 32 ((s.cor k).pc + 4))) else s.cor k)) ∧
      (∀ (cond : Nat) (o : Int), cond < 15 → -(2 ^ 18) ≤ o → o < 2 ^ 18 →
        ∃ t p, IsTarget (s.cor k).pc o p ∧ exec (.bcc k cond o) s = .next t ∧ CoreOnly k s t ∧
          t.cor k = if condHolds cond (s.cor k).cf then transfer p (s.cor k) else retire (s.cor k))) ∧
  (∀ (cf : BitVec 16) (x y : Word),
      let f := flagsSet cf (Result.mk (x - y) false (decide (y.toNat ≤ x.toNat)) (overflows (x.toInt - y.toInt)))
      (condHolds 0 f = true ↔ x = y) ∧ (condHolds 1 f = true ↔ x ≠ y) ∧
      (condHolds 2 f = true ↔ x.toInt < y.toInt) ∧ (condHolds 3 f = true ↔ y.toInt ≤ x.toInt) ∧
      (condHolds 4 f = true ↔ x.toInt ≤ y.toInt) ∧ (condHolds 5 f = true ↔ y.toInt < x.toInt) ∧
      (condHolds 6 f = true ↔ x.toNat < y.toNat) ∧ (condHolds 7 f = true ↔ y.toNat ≤ x.toNat) ∧
      (condHolds 12 cf = true ↔ ∀ l, l < 8 → cf.getLsbD (8 + l) = true) ∧
      (condHolds 13 cf = true ↔ ∃ l, l < 8 ∧ cf.getLsbD (8 + l) = true) ∧
      (condHolds 14 cf = true ↔ ∀ l, l < 8 → cf.getLsbD (8 + l) = false))

/-- LOOP starts, repeats and ends a hardware loop (R212, R213; derived).
With a free level and, for LOOPR, a good residue, exec of LOOPI and LOOPR answers a next state with the loop pushed, or the body passed by where COUNT is 0. At the last instruction
of a body the PC returns to the first and the count falls by one, until the loop ends and the PC goes on.
Completion is stated for the constructors loopr, loopi. -/
def Obligations.LoopResults : Prop :=
  (∀ (s : State) (k body : Nat), runs s k = true → bodyEndFree s k = true → (s.cor k).loops.length < 2 → 1 ≤ body → body ≤ 4096 →
    (∀ count : Nat, count < 65536 →
      ∃ t, exec (.loopi k count body) s = .next t ∧ CoreOnly k s t ∧ t.cor k = loopStarted count body (s.cor k)) ∧
    (∀ x : Nat, x < 32 → ((s.cor k).sReg x).good = true →
      ∃ t, exec (.loopr k x body) s = .next t ∧ CoreOnly k s t ∧ t.cor k = loopStarted (sNat (s.cor k) x % 65536) body (s.cor k))) ∧
  (∀ (c : Core) (l : LoopLvl) (rest : List LoopLvl), c.loops = l :: rest →
    (l.last ≠ c.pc → retire c = { c with pc := (c.pc + 4) % 2 ^ 32 }) ∧
    (l.last = c.pc → 1 < l.left → retire c = { c with pc := l.first, loops := { l with left := l.left - 1 } :: rest }) ∧
    (l.last = c.pc → l.left ≤ 1 → retire c = retire { c with loops := rest }))

/-- MOVX, SFCLR, NOP, RDPMC and RDCYC read and write what their rows say (R201, R242, R268, R453; derived).
Exec answers a next state with the named register in S[D], or the named register written with its writable bits, SF bits cleared where S[X] has ones,
and nothing else changed. RDPMC gives the 48-bit counter of the core's own set where PMU_UEN permits it, else 0 with SF bit 18 set; RDCYC gives CYCLE.
Where D and Y are one register the rule gives no order, and either half may stand there.
Completion is stated for the constructors rdpmc, rdcyc, movxFromPn, movxToPn, movxFromBl, movxToBl, movxFromCf, movxToCf, movxFromSt,
movxFromSf, nop, sfclr. -/
def Obligations.RegisterMoves : Prop :=
  (∀ (s : State) (k : Nat), runs s k = true →
      let c := s.cor k
      (∀ d x : Nat, d < 32 → x < 32 →
        (∃ t, exec (.movxFromPn k d x) s = .next t ∧ CoreOnly k s t ∧ t.cor k = retire (wroteScalar d false { v := c.pnReg x } c)) ∧
        ((c.sReg x).good = true →
          ∃ t, exec (.movxToPn k d x) s = .next t ∧ CoreOnly k s t ∧ t.cor k = retire (c.setPn d (c.sReg x).v))) ∧
      (∀ d x : Nat, d < 32 → regBl x = true →
        ∃ t, exec (.movxFromBl k d x) s = .next t ∧ CoreOnly k s t ∧ t.cor k = retire (wroteScalar d false { v := c.blReg x } c)) ∧
      (∀ d x : Nat, regBl d = true → x < 32 → (c.sReg x).good = true →
        ∃ t, exec (.movxToBl k d x) s = .next t ∧ CoreOnly k s t ∧ t.cor k = retire (c.setBl d (c.sReg x).v)) ∧
      (∀ d : Nat, d < 32 →
        (∃ t, exec (.movxFromCf k d) s = .next t ∧ CoreOnly k s t ∧ t.cor k = retire (wroteScalar d false { v := c.cf.setWidth 32 } c)) ∧
        (∃ t, exec (.movxFromSt k d) s = .next t ∧ CoreOnly k s t ∧ t.cor k = retire (wroteScalar d false { v := c.st } c)) ∧
        (∃ t, exec (.movxFromSf k d) s = .next t ∧ CoreOnly k s t ∧ t.cor k = retire (wroteScalar d false { v := c.sf.setWidth 32 } c))) ∧
      (∀ x : Nat, x < 32 →
        ((c.sReg x).good = true →
          ∃ t, exec (.movxToCf k x) s = .next t ∧ CoreOnly k s t ∧ t.cor k = retire { c with cf := (c.sReg x).v.setWidth 16 &&& 0xFF0F }) ∧
        ((c.sReg x).good = true →
          ∃ t, exec (.sfclr k x) s = .next t ∧ CoreOnly k s t ∧ t.cor k = retire { c with sf := c.sf &&& ~~~(c.sReg x).v.setWidth 20 })) ∧
      (∃ t, exec (.nop k) s = .next t ∧ CoreOnly k s t ∧ t.cor k = retire c)) ∧
  (∀ (s : State) (k : Nat), runs s k = true →
      let wrote (d y v : Nat) (c c' : Core) : Prop :=
        c' = (c.setS d (rv (BitVec.ofNat 32 v))).setS y (rv (BitVec.ofNat 32 (v / 2 ^ 32))) ∨
        (d = y ∧ c' = (c.setS y (rv (BitVec.ofNat 32 (v / 2 ^ 32)))).setS d (rv (BitVec.ofNat 32 v)))
      (∀ d n y : Nat, d < 32 → y < 32 → n < 6 → s.flag ((fPmuUenMask k).bit n) = true →
        ∃ t c', exec (.rdpmc k d n y) s = .next t ∧ CoreOnly k s t ∧ t.cor k = retire c' ∧
          wrote d y (mapGet 0 n (mapGet ({} : PmuSet) k s.pmu).pmc) (s.cor k) c') ∧
      (∀ d n y : Nat, d < 32 → y < 32 → n < 6 → s.flag ((fPmuUenMask k).bit n) = false →
        ∃ t c', exec (.rdpmc k d n y) s = .next t ∧ CoreOnly k s t ∧ t.cor k = retire { c' with sf := c'.sf ||| 0x40000 } ∧
          wrote d y 0 (s.cor k) c') ∧
      (∀ d y : Nat, d < 32 → y < 32 →
        ∃ t c', exec (.rdcyc k d y) s = .next t ∧ CoreOnly k s t ∧ t.cor k = retire c' ∧ wrote d y (cycleOf s k) (s.cor k) c'))

/-- Fabric operations of a run are recorded, not performed, and their status goes to S[D] (R117, R119, R144, R182, R262, R264, R278, R284, R307, R309,
R310; derived).
During a run with fewer than 64 pending operations of the unit and operands in range, exec of SIG, SIGD, NCAN, ARM, MQPUSH, MQMARK, BFREE and BGIVE
with good residues in the registers read, answers a next state in which S[D] holds status 0, CF.Z is 1, the operation is recorded in the run, and nothing
outside the core changes. The run of a KML node records its operations in the same way: a canceller and a mixer that find no item count their run and
touch no queue, node or buffer, a fade goes from the gain it finds to its target, and a canceller's block is laid out as R284 says. That a canceller's
first pop of a window is a plain one, and that a mixer without a key mixes nothing, are the model's (assumptions 61 and 63).
Completion is stated for the constructors sig, sigd, ncan, arm, mqpush, mqmark, bfree, bgive. -/
def Obligations.RecordedOperations : Prop :=
  (∀ (u : State) (k : Nat), ctxBad u k = false → mapFind? (u.cor k).node u.kml = none → (u.cor k).run = {} →
    let t := kmlStart k u
    let r := (t.cor k).run
    let ran : Prop := ctxAt t k 0x100 = (ctxAt u k 0x100 + 1) % 2 ^ 32 ∧ t.mq = u.mq ∧ t.bull = u.bull ∧ t.seed = u.seed ∧ t.kml = u.kml
    (ctxBits u k 0 0 16 = 0x0E01 → ctxBits u k 4 8 1 = 0 → u.queue? (ctxBits u k 8 0 16) = none →
      ran ∧ r.ops = [.sig ((u.cor k).node % 2 ^ 18) 0x4000] ∧ r.kml = some (.canceller { mode := some (ctxBits u k 4 0 4) })) ∧
    (ctxBits u k 0 0 16 = 0x0B01 → u.queue? (ctxBits u k 8 0 16) = none →
      ran ∧ r.ops = [] ∧ ctxAt t k 0x10C = (ctxAt u k 0x10C + (slotsInUse u k).length) % 2 ^ 32 ∧ r.kml = some (.mixer {}))) ∧
  (∀ (x : Xpoint) (g : Int) (fade : Nat), (x.len ≤ x.n → x.gain = x.to_) ∧ (x.n = 0 → 0 < x.len → x.gain = x.from_) ∧ x.aim x.to_ fade = x ∧
    (g ≠ x.to_ → (x.aim g fade).gain = if fade = 0 then g else x.gain)) ∧
  (∀ (key node : Nat) (bypass nlp : Bool) (xs : List Int), xs.length = 192 →
    let b := outBlock key bypass nlp node xs
    b.length = 784 ∧ leNat (b.take 4) = key % 2 ^ 32 ∧ leNat ((b.drop 4).take 4) = 192 + bitOf bypass * 65536 + bitOf nlp * 131072 ∧
      leNat ((b.drop 8).take 4) = node % 2 ^ 18 ∧ ∀ i, i < 192 → leNat ((b.drop (16 + 4 * i)).take 4) = patternOf 32 (xs.getD i 0)) ∧
  ∀ (s : State) (k d x y : Nat), runs s k = true → (s.cor k).mode = .run → d < 32 → x < 32 → y < 32 → ((s.cor k).sReg x).good = true →
    let c := s.cor k
    let sx := sNat c x
    let sy := sNat c y
    (c.run.nBull < 64 → sx < 2 ^ 18 →
      ((c.sReg y).good = true → sy % 65536 < 2 ^ 15 → sy % 65536 ≠ 0 → ∃ t, exec (.sig k d x y) s = .next t ∧ CoreOnly k s t ∧
        t.cor k = retire (withStatus d 0 0 (recordedBull (.sig sx (sy % 65536)) c))) ∧
      (∀ (flag : Nat) (dropLate : Bool), (c.sReg y).good = true → flag < 15 → sy ≤ 2 ^ 31 - 2 → ∃ t, exec (.sigd k d x y flag dropLate) s = .next t ∧ CoreOnly k s t ∧
        t.cor k = retire (withStatus d 0 0 (recordedBull (.sigd sx sy flag dropLate) c))) ∧
      (∃ t, exec (.ncan k d x) s = .next t ∧ CoreOnly k s t ∧ t.cor k = retire (withStatus d 0 0 (recordedBull (.ncan sx) c))) ∧
      (∃ t, exec (.arm k d x) s = .next t ∧ CoreOnly k s t ∧ t.cor k = retire (withStatus d 0 0 (recordedBull (.arm sx) c)))) ∧
    (c.run.nMq < 64 → sx < 65536 → ∀ q, s.queue? sx = some q →
      (let e := entryOf (c.vLane y 0).v (c.vLane y 1).v (c.vLane y 2).v (c.vLane y 3).v
       (∀ l, l < 4 → (c.vLane y l).good = true) → e.len ≤ 4096 → ∃ t, exec (.mqpush k d x y) s = .next t ∧ CoreOnly k s t ∧
        t.cor k = retire (withStatus d 0 0 (recordedMq (.push sx e) c))) ∧
      (q.retain ≠ 0 → ∃ t, exec (.mqmark k d x) s = .next t ∧ CoreOnly k s t ∧
        t.cor k = retire (withStatus d 0 0 (recordedMq (.mark sx) c)))) ∧
    (c.run.nSeed < 64 → badHandle s sx = false →
      (∃ t, exec (.bfree k d x) s = .next t ∧ CoreOnly k s t ∧ t.cor k = retire (withStatus d 0 0 (recordedSeed (.bfree sx) c))) ∧
      ((c.sReg y).good = true → sy < 4096 → ∃ t, exec (.bgive k d x y) s = .next t ∧ CoreOnly k s t ∧
        t.cor k = retire (withStatus d 0 0 (recordedSeed (.bgive sx sy) c))))

/-- MQPOP takes the head item, or answers EMPTY or NOTDUE (R99, R104, R110, R111, R265; derived).
During a run, with good residues, on an open queue, exec of both forms answers a next state in which V[D] holds the four words of the
head item and the status, the item is no longer held, LAST_KEY is the later of its KEY and before, and the pop is recorded; on an empty queue V[D] holds
EMPTY, and where the head item's KEY is after the bound NOTDUE, nothing is taken, and LAST_KEY moves as R111 says for a keyed pop. No other queue
changes. Whether a pop sees an item that was pushed into an ASYNC queue in the same cycle is left out (R114).
Completion is stated for the constructors mqpop, mqpopKeyed. -/
def Obligations.PopResults : Prop :=
  ∀ (s : State) (k d x : Nat) (i : Instr) (bound : Option Nat), runs s k = true → (s.cor k).mode = .run → d < 32 → x < 32 →
    IsPop k d x (s.cor k) i bound → ((s.cor k).sReg x).good = true → (s.cor k).run.nMq < 64 → sNat (s.cor k) x < 65536 →
    ∀ q, s.queue? (sNat (s.cor k) x) = some q →
    (∀ it rest, q.held = it :: rest → (q.mode = .async → it.at_ ≠ s.clk) → (∀ b, bound = some b → tickDiff it.e.key b ≤ 0) →
      ∃ t c' q', exec i s = .next t ∧ UnitOnly k 259 (fun s t => { t with mq := s.mq }) s t ∧ t.cor k = retire c' ∧
        TookPop d true (popLane it.e (q.markSet || (s.cor k).run.ops.any (fun o => o == .mark (sNat (s.cor k) x)))) (s.cor k) c' ∧
        c'.run.nMq = (s.cor k).run.nMq + 1 ∧
        c'.run.ops = .pop (sNat (s.cor k) x) it (q.markSet || (s.cor k).run.ops.any (fun o => o == .mark (sNat (s.cor k) x))) ::
          (s.cor k).run.ops ∧
        t.queue? (sNat (s.cor k) x) = some q' ∧ q'.held = rest ∧ q'.retained = q.retained ∧ q'.lastValid = true ∧
        q'.lastKey = (if 0 < tickDiff it.e.key q.lastKey then it.e.key else q.lastKey) ∧
        ∀ j, j ≠ sNat (s.cor k) x → t.queue? j = s.queue? j) ∧
    (∀ code : Nat, (q.held = [] ∧ code = 1 ∨
        ∃ it rest b, q.held = it :: rest ∧ (q.mode = .async → it.at_ ≠ s.clk) ∧ bound = some b ∧ 0 < tickDiff it.e.key b ∧ code = 2) →
      ∃ t c' q', exec i s = .next t ∧ UnitOnly k 259 (fun s t => { t with mq := s.mq }) s t ∧ t.cor k = retire c' ∧
        TookPop d false (fun l => if l = 4 then BitVec.ofNat 32 (code * 2 ^ 24) else 0) (s.cor k) c' ∧ c'.run.ops = (s.cor k).run.ops ∧
        t.queue? (sNat (s.cor k) x) = some q' ∧ q'.held = q.held ∧ q'.retained = q.retained ∧
        (bound = none → q' = q) ∧
        (∀ b, bound = some b → q'.lastValid = true ∧
          q'.lastKey = if q.lastValid = false ∨ 0 < tickDiff b q.lastKey then b else q.lastKey) ∧
        ∀ j, j ≠ sNat (s.cor k) x → t.queue? j = s.queue? j)

/-- BALLOC takes granules within quota and pool, or answers NOCREDIT or NOSPACE (R181, R182, R184, R190, R192, R262, R264; derived).
During a run with n from 1 to 4,096 bytes asked, exec answers a next state in which the account's HELD and the pool totals move by the granules taken
and S[D] holds the handle with status 0; or, beyond the quota of a pool that has granules, status 5 with no granule taken and NOCREDIT counted; or, where
too few granules are free, status 6 with nothing taken and NOSPACE counted. Which granules are taken is a free value: the rules leave it open.
Completion is stated for the constructor balloc. -/
def Obligations.AllocationResults : Prop :=
  ∀ (s : State) (k d x : Nat), runs s k = true → (s.cor k).mode = .run → d < 32 → x < 32 → ((s.cor k).sReg x).good = true →
    (s.cor k).run.nSeed < 64 →
    let n := sNat (s.cor k) x
    let g := (n + 255) / 256
    let a := runAccount s k
    0 < n → n ≤ 4096 →
    ((s.acct a).held + g ≤ (s.acct a).quota → g ≤ s.seed.freeA →
      ∃ t h, exec (.balloc k d x) s = .next t ∧ UnitOnly k 258 (fun s t => { t with seed := s.seed }) s t ∧
        t.cor k = retire (withStatus d 0 h (recordedSeed (.balloc h) (s.cor k))) ∧
        (t.acct a).held = (s.acct a).held + g ∧ (∀ b, b ≠ a → t.acct b = s.acct b) ∧
        t.seed.freeA = s.seed.freeA - g ∧ t.seed.ownedA = s.seed.ownedA + g ∧
        t.seed.freeB = s.seed.freeB - g ∧ t.seed.ownedB = s.seed.ownedB + g) ∧
    ((s.acct a).quota < (s.acct a).held + g → poolSize s ≠ 0 →
      ∃ t, exec (.balloc k d x) s = .next t ∧ t.cor k = retire (withStatus d 5 0 (s.cor k)) ∧ t.seed.tags = s.seed.tags ∧
        (t.acct a).held = (s.acct a).held ∧ (t.acct a).nocredit = ((s.acct a).nocredit + 1) % 2 ^ 32) ∧
    ((s.acct a).held + g ≤ (s.acct a).quota ∨ poolSize s = 0 → s.seed.freeA < g →
      ∃ t, exec (.balloc k d x) s = .next t ∧ t.cor k = retire (withStatus d 6 0 (s.cor k)) ∧ t.seed = s.seed ∧
        t.fld fSeedNospaceCount = (s.fld fSeedNospaceCount + 1) % 2 ^ 32 ∧ t.flag fSeedIntStatNospace = true)

/-- XMOV queues a move and XWAIT waits for the last one (R208, R209, R210, R267; derived).
With operands that pass the checks of R209 and good residues, exec of XMOV answers a next state in which the move is the youngest of at most four outstanding ones (or
the core waits for a place), and XWAIT passes only when none is outstanding.
Completion is stated for the constructors xmovToLocal, xmovToBuffer, xwait. -/
def Obligations.MoveResults : Prop :=
  ∀ (s : State) (k : Nat), runs s k = true →
    (∀ (toBuf : Bool) (d x y : Nat), (s.cor k).mode = .run → d < 32 → x < 32 → y < 32 →
      ((s.cor k).sReg d).good = true → ((s.cor k).sReg x).good = true → ((s.cor k).sReg y).good = true →
      let i : Instr := if toBuf then .xmovToBuffer k d x y else .xmovToLocal k d x y
      let m := moveOf (s.cor k) toBuf d x y
      moveOk s k m (sNat (s.cor k) x) (sNat (s.cor k) y) = true →
      ∃ t, exec i s = .next t ∧ CoreOnly k s t ∧ t.cor k =
        if m.len = 0 then retire (s.cor k)
        else if 4 ≤ (s.cor k).moves.length then { s.cor k with stall := .xmov m }
        else retire { s.cor k with moves := (s.cor k).moves ++ [m] }) ∧
    (bodyEndFree s k = true →
      ∃ t, exec (.xwait k) s = .next t ∧ CoreOnly k s t ∧
        t.cor k = if (s.cor k).moves = [] then retire (s.cor k) else { s.cor k with stall := .xwait })

/-- GETW waits outside a run, and DONE ends a run without pending operations (R134, R145, R182, R214, R267; derived).
Outside a run GETW with a nonzero mask blocks the core and DONE passes. Inside a run DONE stalls while a move is outstanding; else, with no pending
operation and an unsatisfied node, the core is at its home program, the node is ARMED with its run counted, its status and duration recorded and its
dirty pages to be written back, and no other node changes.
Completion is stated for the constructors getw, done. -/
def Obligations.RunBoundaries : Prop :=
  ∀ (s : State) (k : Nat), runs s k = true → bodyEndFree s k = true →
    (∀ mask : Nat, (s.cor k).mode ≠ .run → mask < 16 →
      ∃ t, exec (.getw k mask) s = .next t ∧ CoreOnly k s t ∧
        t.cor k = if mask = 0 then retire (s.cor k) else { s.cor k with blocked := true, mask := mask }) ∧
    (∀ (status : Nat) (r : Option Nat), status < 256 → (∀ x, r = some x → x < 32) →
      let st := match r with | some x => sNat (s.cor k) x % 256 | none => status
      ((s.cor k).mode ≠ .run → ∃ t, exec (.done k status r) s = .next t ∧ CoreOnly k s t ∧ t.cor k = retire (s.cor k)) ∧
      ((s.cor k).mode = .run → (∀ x, r = some x → ((s.cor k).sReg x).good = true) → (s.cor k).moves ≠ [] →
        ∃ t, exec (.done k status r) s = .next t ∧ CoreOnly k s t ∧ t.cor k = { s.cor k with stall := .done st }) ∧
      (∀ d, (s.cor k).mode = .run → (∀ x, r = some x → ((s.cor k).sReg x).good = true) → (s.cor k).moves = [] → (s.cor k).run.ops = [] → s.node? (s.cor k).node = some d → d.st = .running →
        satisfied d = false → (spareCores s (k / 16)).contains k = false →
        ∃ t, exec (.done k status r) s = .next t ∧ t.cor k = atHome s k (s.cor k) ∧
          t.node? (s.cor k).node = some { d with
            st := .armed, rerun := false, barred := none, runs := (d.runs + 1) % 2 ^ 32, lastStatus := st
            duration := some (s.clk - d.runStart), writeBack := some (s.cor k).run.dirty, runCore := k } ∧
          ∀ j, j ≠ (s.cor k).node → t.node? j = s.node? j))

/-- An illegal encoding raises code 1 with its PC and node, and aborts the run; a fetch and a residue that fail raise theirs (R148, R198, R216, R243,
R248, R432; derived).
Exec of a word that R248 makes illegal answers a next state whose exception registers hold the code, the valid bit, the PC and the node; a run's node is
ABORTING with the run to be undone, and a core outside a run is halted with no node changed; a word of some instruction changes nothing by this command; the words of
the spec's worked program are the instructions it names.
An instruction whose fetch fails raises FETCH or ECC in its place, and one that reads a register with a wrong residue raises RESIDUE and sets
SF.RES_ERR.
Completion is stated for the constructor illegalEncoding. -/
def Obligations.ExceptionsRecorded : Prop :=
  (∀ (s : State) (k : Nat), canIssue s k = true → ∀ e, fetchExc s k (s.cor k).pc = some e →
    (e.code = 7 ∨ e.code = 9) ∧ ∃ t, exec (.nop k) s = .next t ∧ t.fld (fCoreExcCode k) = e.code ∧ t.fld (fCoreExcValid k) = 1) ∧
  (∀ (s : State) (k x : Nat), runs s k = true → x < 32 → ((s.cor k).sReg x).good = false →
    ∃ t, exec (.sfclr k x) s = .next t ∧ t.fld (fCoreExcCode k) = 6 ∧ t.fld (fCoreExcValid k) = 1 ∧ (t.cor k).sf.getLsbD 17 = true) ∧
  (∀ k : Nat, coreInstr k 0x35000003 = some (.aclr k true 0) ∧ coreInstr k 0xF0003001 = some (.loopi k 12 2) ∧
    coreInstr k 0x85084450 = some (.lddv k 1 { p := 0, mode := 1 } 2 { p := 1, mode := 1 }) ∧
    coreInstr k 0x29004400 = some (.mac k { sat := false, q := true, d := 0, x := 1, y := 2, lane := none }) ∧
    coreInstr k 0x3B180000 = some (.ext k true true 3 0 0 false false) ∧
    coreInstr k 0x6D190601 = some (.stv k 3 { p := 2, mode := 3, disp := 1, n := 0 }) ∧ coreInstr k 0 = none) ∧
  (∀ (s : State) (k : Nat) (word : Word) (i : Instr), coreInstr k word.toNat = some i → exec (.illegalEncoding k word) s = .next s) ∧
  ∀ (s : State) (k : Nat) (word : Word), coreInstr k word.toNat = none → canIssue s k = true → fetchExc s k (s.cor k).pc = none →
    ∃ t, exec (.illegalEncoding k word) s = .next t ∧
      t.fld (fCoreExcCode k) = 1 ∧ t.fld (fCoreExcValid k) = 1 ∧ t.fld (fCoreExcPcPc k) = (s.cor k).pc ∧
      t.fld (fCoreExcNodeNode k) = (if (s.cor k).mode = .run then (s.cor k).node % 2 ^ 18 else 0) ∧
      ((s.cor k).mode = .run → (t.cor k).stall = .aborting ∧ ∀ d, s.node? (s.cor k).node = some d →
        ∃ d', t.node? (s.cor k).node = some d' ∧ d'.st = .aborting ∧ d'.undo = some (s.cor k).run) ∧
      ((s.cor k).mode = .wait → (t.cor k).mode = .halted ∧ ∀ j, t.node? j = s.node? j)

/-- NODE.LOAD, READ, UNLOAD, BEAT and EVICT act on one node (R130, R131, R160, R161, R164, R189; derived).
With KCI ready and operands in range, each completes, or waits for a write-back, with the node's descriptor, membership and residence as its row says
and every other node unchanged; a post that reaches an EMPTY node answers E_STATE and is counted. The words of an EMPTY node and the code for no generator are readings of the model (assumptions 17 and 18).
Completion is stated for the constructors nodeLoad, nodeUnload, nodeBeat, nodeRead, nodeEvict. -/
def Obligations.NodeLifetime : Prop :=
  ∀ (s : State) (h : KciHdr) (n : Nat), n < 262144 →
    (∀ o : NodeOp, o.node = n → NodeLegal o → kciReady 0x0201 h (keyNode n) s = true → s.flag fBullCtlEn = true → s.node? n = none →
      ∃ t d, exec (.nodeLoad h o) s = .next t ∧ Done 0x0201 h 0 [] [] [] s t ∧ Kept [.regs, .hif, .out, .bull] s t ∧ OnlyNode n d s t ∧
        d = { set := { mask := o.mask, any := decide (o.mode = 1), cls := o.cls, home := o.home, nosteal := decide (o.nosteal = 1), fpol := o.fpol
                       alt := o.alt, budget := o.budget, prog := o.prog }
              ctxClass := o.ctx % 4, ctxBase := o.ctx / 16 % 2 ^ 22, account := o.account }) ∧
    (kciReady 0x0207 h (keyNode n) s = true → s.flag fBullCtlEn = true → ∀ d, s.node? n = some d →
      ∃ t, exec (.nodeRead h n) s = .next t ∧ Done 0x0207 h 0 [64] [.result h.raddr (descWords d)] [] s t ∧ Kept [.regs, .hif, .out] s t) ∧
    (∀ flags, 1 ≤ flags → flags ≤ 0x7FFF → kciReady 0x0205 h (keyNode n) s = true → s.flag fBullCtlEn = true → s.node? n = none →
      ∃ t, exec (.nodePost h n flags) s = .next t ∧ Done 0x0205 h 4 [] [] [fBullPostVoidCount.addr, fBullIntStatPostVoid.addr] s t ∧
        Kept [.regs, .hif, .out] s t ∧ t.fld fBullPostVoidCount = (s.fld fBullPostVoidCount + 1) % 2 ^ 32) ∧
    ∀ d, s.node? n = some d → d.unloading = false →
      (kciReady 0x0202 h (keyNode n) s = true → s.flag fBullCtlEn = true → d.st = .disarmed → d.beatgen = none → (∀ x ∈ s.bull.timers, x.2.target ≠ n) →
        (d.writeBack = none →
          ∃ t, exec (.nodeUnload h n) s = .next t ∧ Done 0x0202 h 0 [] [] [fGhPfWasteCount.addr] s t ∧
            Kept [.regs, .hif, .out, .bull, .gh, .graphs, .cfg, .kml] s t ∧ t.node? n = none ∧ (∀ j, j ≠ n → t.node? j = s.node? j) ∧
            t.resOf n = none ∧ mapFind? n t.cfg = none) ∧
        (d.writeBack ≠ none →
          ∃ t d', exec (.nodeUnload h n) s = .next t ∧ Waits 0x0202 h (keyNode n) (.evict n) [] s t ∧
            Kept [.hif, .bull, .cfg] s t ∧ OnlyNode n d' s t ∧
            d' = { d with evicting := true, unloading := true })) ∧
      (∀ g, g < 8 → kciReady 0x0206 h (keyNode n) s = true → s.flag fBullCtlEn = true →
        (d.beatgen = none → (s.gen g).members.length < 65536 →
          ∃ t, exec (.nodeBeat h n g) s = .next t ∧ Done 0x0206 h 0 [] [] [] s t ∧ Kept [.regs, .hif, .out, .bull] s t ∧
            t.node? n = some { d with beatgen := some g } ∧ (t.gen g).members = (s.gen g).members ++ [n]) ∧
        (d.beatgen = some g →
          ∃ t, exec (.nodeBeat h n 15) s = .next t ∧ Done 0x0206 h 0 [] [] [] s t ∧ Kept [.regs, .hif, .out, .bull] s t ∧
            t.node? n = some { d with beatgen := none } ∧ (t.gen g).members = (s.gen g).members.filter (· != n))) ∧
      (kciReady 0x0208 h (keyNode n) s = true → d.st = .disarmed →
        (d.writeBack = none →
          ∃ t, exec (.nodeEvict h n) s = .next t ∧ Done 0x0208 h 0 [] [] [fGhPfWasteCount.addr] s t ∧ Kept [.regs, .hif, .out, .gh] s t ∧
            t.resOf n = none ∧ mapFind? n t.gh.pageIns = none ∧ ∀ j, j ≠ n → t.resOf j = s.resOf j) ∧
        (d.writeBack ≠ none →
          ∃ t, exec (.nodeEvict h n) s = .next t ∧ Waits 0x0208 h (keyNode n) (.evict n) [] s t ∧
            Kept [.hif, .bull] s t ∧ OnlyNode n { d with evicting := true } s t))

/-- NODE.ARM, CANCEL and POST move one node through its states (R134, R135, R139, R160; derived).
With KCI ready on a loaded node, each completes with the state and the flags that R134 and R135 give: an arm or a post that satisfies the node puts it
at the tail of its class queue, or answers E_BUSY where the ready store is full; a cancel takes READY and ARMED to DISARMED and marks a run. No other
node changes.
Completion is stated for the constructors nodeArm, nodeCancel, nodePost. -/
def Obligations.NodeSignals : Prop :=
  ∀ (s : State) (h : KciHdr) (n : Nat) (d : NodeD), n < 262144 → s.flag fBullCtlEn = true → s.node? n = some d → d.unloading = false →
    (kciReady 0x0203 h (keyNode n) s = true →
      (¬ (d.st = .disarmed ∧ satisfied d = true) →
        ∃ t, exec (.nodeArm h n) s = .next t ∧ Done 0x0203 h 0 [] [] [] s t ∧ Kept [.regs, .hif, .out, .bull, .kml] s t ∧ OnlyNode n (armedBy d) s t) ∧
      (d.st = .disarmed → satisfied d = true → storeFull s d.set.home = false →
        ∃ t, exec (.nodeArm h n) s = .next t ∧ Done 0x0203 h 0 [] [] contextRegs s t ∧ Kept [.regs, .hif, .out, .bull, .gh, .clu, .kml] s t ∧
          t.bull = readied n { d with st := .armed } false false (s.setNode n { d with st := .armed })) ∧
      (d.st = .disarmed → satisfied d = true → storeFull s d.set.home = true →
        ∃ t, exec (.nodeArm h n) s = .next t ∧ Done 0x0203 h 3 [] [] [] s t ∧ Kept [.regs, .hif, .out] s t)) ∧
    (kciReady 0x0204 h (keyNode n) s = true →
      (d.st = .running → ∃ t, exec (.nodeCancel h n) s = .next t ∧ Done 0x0204 h 0 [] [] [] s t ∧ Kept [.regs, .hif, .out, .bull] s t ∧
        OnlyNode n { d with st := .cancelPending } s t) ∧
      (d.st = .aborting → ∃ t, exec (.nodeCancel h n) s = .next t ∧ Done 0x0204 h 0 [] [] [] s t ∧ Kept [.regs, .hif, .out, .bull] s t ∧
        OnlyNode n { d with recCancel := true } s t) ∧
      (d.st = .disarmed ∨ d.st = .cancelPending →
        ∃ t, exec (.nodeCancel h n) s = .next t ∧ Done 0x0204 h 0 [] [] [] s t ∧ Kept [.regs, .hif, .out] s t) ∧
      (noUnload s = true → d.staged = none →
        (d.st = .armed → ∃ t, exec (.nodeCancel h n) s = .next t ∧ Done 0x0204 h 0 [] [] [] s t ∧ Kept [.regs, .hif, .out, .bull] s t ∧
          OnlyNode n { d with st := .disarmed, rerun := false, barred := none } s t) ∧
        (d.st = .ready → ∃ t, exec (.nodeCancel h n) s = .next t ∧ Done 0x0204 h 0 [] [] [fBullStatRcCollide.addr] s t ∧
          Kept [.regs, .hif, .out, .bull, .free, .clu] s t ∧
          t.node? n = some { d with st := .disarmed, rerun := false, barred := none, hold := none, expired := false } ∧
          (∀ j, j ≠ n → t.node? j = s.node? j) ∧
          t.readyQ d.set.home d.set.cls = (s.readyQ d.set.home d.set.cls).filter (fun e => e.node != n)))) ∧
    (∀ flags, 1 ≤ flags → flags ≤ 0x7FFF → kciReady 0x0205 h (keyNode n) s = true →
      (readies flags d = false →
        ∃ t, exec (.nodePost h n flags) s = .next t ∧ Done 0x0205 h 0 [] [] [] s t ∧ Kept [.regs, .hif, .out, .bull] s t ∧
          OnlyNode n (postedBy flags d) s t) ∧
      (readies flags d = true → storeFull s d.set.home = false →
        ∃ t, exec (.nodePost h n flags) s = .next t ∧ Done 0x0205 h 0 [] [] contextRegs s t ∧ Kept [.regs, .hif, .out, .bull, .gh, .clu] s t ∧
          t.bull = readied n (postedBy flags d) false true (s.setNode n (postedBy flags d))) ∧
      (readies flags d = true → storeFull s d.set.home = true →
        ∃ t, exec (.nodePost h n flags) s = .next t ∧ Done 0x0205 h 3 [] [] [] s t ∧ Kept [.regs, .hif, .out] s t))

/-- QUEUE.OPEN, CLOSE, MARK, REWIND and STATS act on one queue (R101, R102, R105, R121, R123, R124, R125, R126, R127; derived).
With KCI ready and operands in range, each completes with the status and the queue that its row gives: opened within the spill region, closed with its
buffers counted, marked, rewound with the retained items ahead and REPLAY set, or its record returned and cleared. No other queue changes. Where buffers
are freed, Seedbed's check of its totals may find a mismatch, and reports it (R186).
Completion is stated for the constructors queueOpen, queueClose, queueMark, queueMarkClear, queueRewind, queueRewindFromOldest, queueStats. -/
def Obligations.QueueCommands : Prop :=
  ∀ (s : State) (h : KciHdr) (q : Nat), q < 65536 →
    (∀ o : QueueOp, o.queue = q → QueueLegal o → kciReady 0x0501 h (keyQueue q) s = true → s.queue? q = none →
      let m : QMode := if o.mode = 1 then .fifo else if o.mode = 2 then .ordered else .async
      (spillUsed s + spillKib m o.depth o.retain ≤ s.fld fMqSpillSizeMib * 1024 →
        ∃ t, exec (.queueOpen h o) s = .next t ∧ Done 0x0501 h 0 [] [] [] s t ∧ Kept [.regs, .hif, .out, .mq] s t ∧
          OnlyQueue q (some { mode := m, depth := o.depth, retain := o.retain, account := o.account }) s t) ∧
      (s.fld fMqSpillSizeMib * 1024 < spillUsed s + spillKib m o.depth o.retain →
        ∃ t, exec (.queueOpen h o) s = .next t ∧ Done 0x0501 h 6 [] [] [] s t ∧ Kept [.regs, .hif, .out] s t)) ∧
    ∀ x, s.queue? q = some x →
      (kciReady 0x0502 h (keyQueue q) s = true → flowNames s q = false → pendingOn s q = false →
        ∃ t, exec (.queueClose h q) s = .next t ∧
          Done 0x0502 h 0 [(x.held ++ x.retained).countP (fun i => !i.e.nobuf)] [] ledgerRegs s t ∧
          Kept [.regs, .hif, .out, .mq, .seed, .graphs, .hbm, .ump] s t ∧ OnlyQueue q none s t) ∧
      (kciReady 0x0503 h (keyQueue q) s = true → x.retain ≠ 0 → pendingPops s q = 0 →
        (∃ t, exec (.queueMark h q) s = .next t ∧ Done 0x0503 h 0 [] [] ledgerRegs s t ∧ Kept [.regs, .hif, .out, .mq, .seed, .hbm, .ump] s t ∧
          OnlyQueue q (some { x with retained := [], markSet := true, markValid := true, markLost := false, marks := x.marks + 1 }) s t) ∧
        (∃ t, exec (.queueMarkClear h q) s = .next t ∧ Done 0x0503 h 0 [] [] ledgerRegs s t ∧ Kept [.regs, .hif, .out, .mq, .seed, .hbm, .ump] s t ∧
          OnlyQueue q (some { x with retained := [], markSet := false, markValid := false }) s t)) ∧
      (kciReady 0x0504 h (keyQueue q) s = true → x.markSet = true → pendingPops s q = 0 →
        (x.markValid = true → x.retained ≠ [] →
          ∃ t y, exec (.queueRewind h q) s = .next t ∧ Done 0x0504 h 0 [] [] [] s t ∧ Kept [.regs, .hif, .out, .mq] s t ∧
            OnlyQueue q (some y) s t ∧ Replayed x y) ∧
        (x.markValid = true → x.retained = [] →
          ∃ t, exec (.queueRewind h q) s = .next t ∧ Done 0x0504 h 0 [] [] [] s t ∧ Kept [.regs, .hif, .out] s t) ∧
        (x.markValid = false →
          ∃ t r, exec (.queueRewind h q) s = .next t ∧ Done 0x0504 h 10 r [] [] s t ∧ Kept [.regs, .hif, .out] s t) ∧
        (x.retained ≠ [] →
          ∃ t y, exec (.queueRewindFromOldest h q) s = .next t ∧ Done 0x0504 h 0 [] [] [] s t ∧ Kept [.regs, .hif, .out, .mq] s t ∧
            OnlyQueue q (some y) s t ∧ Replayed x y)) ∧
      (∀ clear, kciReady 0x0505 h (keyQueue q) s = true →
        ∃ t, exec (.queueStats h q clear) s = .next t ∧
          Done 0x0505 h 0 [60] [.result h.raddr [x.held.length, x.retained.length, x.n.highWater, x.lastKey, bitOf x.lastValid, bitOf x.markValid,
            bitOf x.markLost, x.n.pushed, x.n.popped, x.n.lost, x.n.reclaim, x.n.late, x.n.dup, x.n.replayed, x.n.restored]] [] s t ∧
          Kept [.regs, .hif, .out, .mq] s t ∧
          OnlyQueue q (some (if clear then { x with n := { highWater := x.held.length + x.retained.length } } else x)) s t)

/-- TIMER.ARM, CANCEL and BEAT change one timer or generator (R151, R155, R160, R161; derived).
With KCI ready and operands in range, ARM inserts a timer with the DUE of R155 under a free index (which one is a free value), or answers E_SPACE at
16,384; CANCEL removes one; BEAT sets a generator at its first boundary, replaces the set of a running one at its next, or stops it, dropping every
beat but one whose posting has begun. Nothing else in Bullpen changes.
Completion is stated for the constructors timerArm, timerCancel, timerBeat. -/
def Obligations.TimerCommands : Prop :=
  ∀ (s : State) (h : KciHdr), s.flag fBullCtlEn = true →
    (∀ o : TimerOp, TimerLegal o → kciReady 0x0601 h none s = true → ∀ d, s.node? o.target = some d → d.unloading = false →
      (s.bull.timers.length < 16384 →
        ∃ t i x, exec (.timerArm h o) s = .next t ∧ Done 0x0601 h 0 [i] [] [] s t ∧ Kept [.regs, .hif, .out, .bull, .free] s t ∧
          i < 16384 ∧ mapFind? i s.bull.timers = none ∧ t.bull = { s.bull with timers := mapInsert i x s.bull.timers, order := s.bull.order + 1 } ∧
          x = { list := o.list, target := o.target, flag := o.flag, due := (if o.rel then s.mtc + 1 + o.due else o.due) % 2 ^ 32
                dropLate := decide (o.dropLate = 1), report := decide (o.report = 1), tag := o.tag, order := s.bull.order, insTick := s.tick, held := false }) ∧
      (16384 ≤ s.bull.timers.length →
        ∃ t, exec (.timerArm h o) s = .next t ∧ Done 0x0601 h 6 [] [] [] s t ∧ Kept [.regs, .hif, .out] s t)) ∧
    (∀ i x, i < 16384 → kciReady 0x0602 h (keyTimer i) s = true → mapFind? i s.bull.timers = some x →
      ∃ t, exec (.timerCancel h i) s = .next t ∧ Done 0x0602 h 0 [] [] [] s t ∧ Kept [.regs, .hif, .out, .bull] s t ∧
        t.bull = { s.bull with timers := mapErase i s.bull.timers }) ∧
    (∀ o : BeatOp, BeatLegal o → kciReady 0x0603 h none s = true →
      ∃ t b, exec (.timerBeat h o) s = .next t ∧ Done 0x0603 h 0 [] [] [] s t ∧ Kept [.regs, .hif, .out, .bull] s t ∧
        t.gen o.gen = b ∧ (∀ g, g ≠ o.gen → t.gen g = s.gen g) ∧
        t.bull = { s.bull with beats := t.bull.beats, poster := if o.en = 0 ∧ s.bull.poster.head? ≠ some o.gen then s.bull.poster.filter (· != o.gen) else s.bull.poster } ∧
        b = if o.en = 0 then { s.gen o.gen with
                en := false, q := o.q, flag := o.flag, next := o.start, waiting := [], newSet := none, catchUp := none
                posting := if s.bull.poster.head? = some o.gen then (s.gen o.gen).posting else [] }
            else if (s.gen o.gen).en = true then { s.gen o.gen with newSet := some ⟨o.q, o.flag, o.start⟩ }
            else { s.gen o.gen with en := true, q := o.q, flag := o.flag, next := firstBoundary o.start o.q s.mtc, catchUp := none, newSet := none })

/-- SYS.ACCOUNT, CLOSE and STATS change one account (R189, R190; derived).
With KCI ready and operands in range, an account opens with its kind, quota, releases and attachment, or takes a new quota; a close needs nothing
held; STATS returns the six words and clears PEAK and NOCREDIT. No other account changes.
Completion is stated for the constructors sysAccount, sysAccountClose, sysAccountStats. -/
def Obligations.AccountCommands : Prop :=
  ∀ (s : State) (h : KciHdr),
    (∀ o : AccountOp, AccountLegal o → kciReady 0x0C02 h (keyAccount o.account) s = true →
      let k := kindOf o.kind
      ((s.acct o.account).kind = .closed → (o.kind = 3 → soleAttached s o.account o.attach = true) →
        ∃ t, exec (.sysAccount h o) s = .next t ∧ Done 0x0C02 h 0 [] [] [] s t ∧ Kept [.regs, .hif, .out, .seed] s t ∧
          OnlyAcct o.account { kind := k, quota := o.quota, releases := if o.kind = 4 then o.releases else 0, attach := o.attach } s t) ∧
      ((s.acct o.account).kind = k → (o.kind = 3 → soleAttached s o.account o.attach = true) →
        ∃ t, exec (.sysAccount h o) s = .next t ∧ Done 0x0C02 h 0 [] [] [] s t ∧ Kept [.regs, .hif, .out, .seed] s t ∧
          OnlyAcct o.account { s.acct o.account with quota := o.quota } s t) ∧
      ((s.acct o.account).kind ≠ .closed → (s.acct o.account).kind ≠ k →
        ∃ t, exec (.sysAccount h o) s = .next t ∧ Done 0x0C02 h 4 [] [] [] s t ∧ Kept [.regs, .hif, .out] s t)) ∧
    ∀ a, a < 4096 → (s.acct a).kind ≠ .closed →
      (kciReady 0x0C03 h (keyAccount a) s = true → acctNamed s a = false →
        ((s.acct a).held = 0 → ∃ t, exec (.sysAccountClose h a) s = .next t ∧ Done 0x0C03 h 0 [] [] [] s t ∧
          Kept [.regs, .hif, .out, .seed, .graphs] s t ∧ OnlyAcct a {} s t) ∧
        (0 < (s.acct a).held → ∃ t, exec (.sysAccountClose h a) s = .next t ∧ Done 0x0C03 h 3 [] [] [] s t ∧ Kept [.regs, .hif, .out] s t)) ∧
      (∀ clear, kciReady 0x0C04 h (keyAccount a) s = true →
        ∃ t, exec (.sysAccountStats h a clear) s = .next t ∧
          Done 0x0C04 h 0 [kindCode (s.acct a).kind, (s.acct a).quota, (s.acct a).held, (s.acct a).peak, (s.acct a).nocredit,
            bitOf (decide ((s.acct a).quota < (s.acct a).held))] [] [] s t ∧ Kept [.regs, .hif, .out, .seed] s t ∧
          OnlyAcct a (if clear then { s.acct a with peak := (s.acct a).held, nocredit := 0 } else s.acct a) s t)

/-- SYS.OPEN opens KCI, and the fuse operations only move fuses forward (R474, R486; derived).
With KCI ready, SYS.OPEN with the device's major answers the versions and the device id and opens KCI; FUSE_ROLLBACK raises the rollback counter to
that of the running image or answers E_STATE; FUSE_REVOKE revokes a slot other than the one in use. Nothing else of the fuses changes.
Completion is stated for the constructors sysOpen, sysFuseRollback, sysFuseRevoke. -/
def Obligations.OpenAndFuses : Prop :=
  ∀ (s : State) (h : KciHdr),
    (∀ minor, kciReady 0x0C01 h none s = true → s.hif.isOpen = false → minor ≤ s.fld fHifKciVerMinor →
      ∃ t, exec (.sysOpen h (s.fld fHifKciVerMajor) minor) s = .next t ∧
        Done 0x0C01 h 0 [s.fld fHifKciVerMajor, s.fld fHifKciVerMinor, glbId] [] [] s t ∧ Kept [.regs, .hif, .out] s t ∧ t.hif.isOpen = true) ∧
    (kciReady 0x0C05 h none s = true → ∀ x, s.glb.image = some x →
      (s.glb.rollback < x.rollback → ∃ t, exec (.sysFuseRollback h) s = .next t ∧ Done 0x0C05 h 0 [] [] [] s t ∧ Kept [.regs, .hif, .out, .glb] s t ∧
        t.glb = { s.glb with rollback := x.rollback }) ∧
      (x.rollback ≤ s.glb.rollback → ∃ t, exec (.sysFuseRollback h) s = .next t ∧ Done 0x0C05 h 4 [] [] [] s t ∧ Kept [.regs, .hif, .out] s t)) ∧
    (∀ slot, slot < 4 → kciReady 0x0C06 h none s = true →
      (∀ x, s.glb.image = some x → x.keySlot ≠ slot → ∃ t, exec (.sysFuseRevoke h slot) s = .next t ∧ Done 0x0C06 h 0 [] [] [] s t ∧
        Kept [.regs, .hif, .out, .glb] s t ∧ slotRevoked t slot = true ∧ t.glb.rollback = s.glb.rollback ∧
        ∀ j, j ≠ slot → slotRevoked t j = slotRevoked s j) ∧
      (∀ x, s.glb.image = some x → x.keySlot = slot →
        ∃ t, exec (.sysFuseRevoke h slot) s = .next t ∧ Done 0x0C06 h 4 [] [] [] s t ∧ Kept [.regs, .hif, .out] s t))

/-- TIME.SET, RATE, STEP_AUTH and CONFIG change what they name (R48, R50, R51, R56, R57; derived).
With KCI ready and operands in range, SET steps the counter where no servo forbids it, RATE sets the rate under host control, STEP_AUTH waits in
holdover with its limit, and CONFIG stores the port set, forgets masters outside it and its domain, and selects among the rest, losing the reference
where none is left; elsewhere each answers E_STATE or E_BUSY and changes nothing.
The ranges of TIME.CONFIG are the model's (assumption 24).
Completion is stated for the constructors timeSet, timeSetRate, timeStepAuth, timeConfig. -/
def Obligations.TimeCommands : Prop :=
  ∀ (s : State) (h : KciHdr),
    (∀ sec ns, sec < 2 ^ 48 → ns < 1000000000 → kciReady 0x0901 h none s = true →
      (s.time.armed = false → s.fld fTimeCtlSrc ≠ 0 →
        ∃ t, exec (.timeSet h sec ns) s = .next t ∧ Completed 0x0901 h 0 [] s t ∧
          t.time = { s.time with t := sec * secUnit + ns * nsUnit } ∧ timeSec t.time.t = sec ∧ timeNs t.time.t = ns ∧ t.clk = s.clk) ∧
      (s.time.armed = true ∨ s.fld fTimeCtlSrc = 0 →
        ∃ t, exec (.timeSet h sec ns) s = .next t ∧ Done 0x0901 h 4 [] [] [] s t ∧ Kept [.regs, .hif, .out] s t)) ∧
    (∀ rate, -rateMax ≤ rate → rate ≤ rateMax → kciReady 0x0902 h none s = true →
      (s.fld fTimeCtlSrc = 2 → ∃ t, exec (.timeSetRate h rate) s = .next t ∧ Done 0x0902 h 0 [] [] [] s t ∧ Kept [.regs, .hif, .out, .time] s t ∧
        t.time = { s.time with rate := rate }) ∧
      (s.fld fTimeCtlSrc ≠ 2 → ∃ t, exec (.timeSetRate h rate) s = .next t ∧ Done 0x0902 h 4 [] [] [] s t ∧ Kept [.regs, .hif, .out] s t)) ∧
    (∀ limit, 1 ≤ limit → limit < 2 ^ 47 * 1000000000 → kciReady 0x0903 h none s = true → s.time.hoCause = 2 →
      (s.time.auth = none → ∃ t, exec (.timeStepAuth h limit) s = .next t ∧ Waits 0x0903 h none .stepAuth [] s t ∧ Kept [.hif, .time] s t ∧
        t.time = { s.time with auth := some ⟨limit, h.tag⟩ }) ∧
      (s.time.auth ≠ none → ∃ t, exec (.timeStepAuth h limit) s = .next t ∧ Done 0x0903 h 3 [] [] [] s t ∧ Kept [.regs, .hif, .out] s t)) ∧
    (∀ c, firstErr (ptpChecks 64 c) = none → kciReady 0x0904 h none s = true →
      let heard := s.time.announces.filter (fun a => c.ports.testBit a.1 && a.2.domain == c.domain)
      let b := bestMaster { s with time := { s.time with cfg := c, announces := heard } }
      ∃ t, exec (.timeConfig h 64 c) s = .next t ∧ Done 0x0904 h 0 [] [] [] s t ∧ Kept [.regs, .hif, .out, .time, .free] s t ∧
        t.time.cfg = c ∧ t.time.t = s.time.t ∧ t.time.announces = heard ∧ t.time.slave = b ∧
        (s.time.slave = none ∨ b ≠ none ∨ ptpDrives s = false → t.time.rate = s.time.rate ∧ t.time.servo = s.time.servo) ∧
        (s.time.slave ≠ none → b = none → ptpDrives s = true → s.time.servo = .locked → t.time.servo = .holdover ∧ t.time.hoCause = 1))

/-- Resets lose and keep what the spec says (R41; stated).
PORST_N sets the counter to zero, the rate to zero and the servo to FREERUN, every register but the cause and the trip to its reset word, and loses
all volatile state; SYSRST_N and GLB_RST.SYS lose it too and keep the counter, the rate, the servo and the step-refusal state, set the cause and
count, and bring the device to step 2; VDD_AON removal loses all but the fuses and the flash.
Completion is stated for the constructors porstNAssert, sysrstNAssert, glbRstSysWrite, vddAonRemoval. -/
def Obligations.ResetResults : Prop :=
  ∀ s : State,
    (∀ boot cool : Bool, ∃ t, exec (.porstNAssert boot cool) s = .next t ∧ Lost t ∧ t.time = {} ∧ t.hif = {} ∧
      Kept (volatileParts ++ [.regs, .time, .hif, .glb]) s t ∧
      t.glb = { tripped := s.glb.tripped && !cool, bootPin := boot, rollback := s.glb.rollback, revoked := s.glb.revoked } ∧
      t.fld fAonRstCause = 1 ∧ t.reg fAonTripTherm.addr = s.reg fAonTripTherm.addr ∧
      ∀ a, a ≠ fAonRstCause.addr → a ≠ fAonTripTherm.addr → t.reg a = resetWord a) ∧
    (∀ boot : Bool,
      (s.glb.tripped = false → ∃ t, exec (.sysrstNAssert boot) s = .next t ∧ WarmReset 2 boot s t) ∧
      (s.glb.tripped = true → exec (.sysrstNAssert boot) s = .next s)) ∧
    (∀ (path : BusPath) (val : Word),
      (reaches s fGlbRstSys.addr = true → val.getLsbD 0 = true →
        ∃ t, exec (.glbRstSysWrite path val) s = .next t ∧ WarmReset 4 s.glb.bootPin s t) ∧
      (val.getLsbD 0 = false → exec (.glbRstSysWrite path val) s = .next s)) ∧
    (∃ t, exec .vddAonRemoval s = .next t ∧ Lost t ∧ t.time = {} ∧ t.hif = {} ∧
      Kept (volatileParts ++ [.regs, .time, .hif, .glb]) s t ∧
      t.glb = { bootPin := s.glb.bootPin, rollback := s.glb.rollback, revoked := s.glb.revoked } ∧
      t.fld fAonRstCause = 1 ∧ ∀ a, a ≠ fAonRstCause.addr → t.reg a = resetWord a)

/-- Bring-up goes step by step, and an image boots exactly when its checks pass (R485, R486, R500, R501, R502; derived).
From each step of R500 the completion of that step gives the next one, with the locks, the HBM failure and the boot results recorded; a pushed image
is taken only in step 7; a PLL lock is shown from step 3. An image check answers E_VERSION for a wrong header, 0 exactly when the key, the revocation,
the signature, the body and the rollback pass, and E_AUTH else. The image's cryptographic outcomes come with the command.
Completion is stated for the constructors bringupStepComplete, hifBootPushGo, pllLock. -/
def Obligations.BringUpSteps : Prop :=
  ((∀ (s : State) (hbmOk : Bool) (refs : Nat) (c0 c1 : BootImage), s.glb.tripped = false →
      let i : Instr := .bringupStepComplete hbmOk refs c0 c1
      (s.fld fGlbStatStep = 1 → ∃ t, exec i s = .next t ∧ Kept [.regs] s t ∧ RegsKept [fGlbStatStep.addr, fAonStatRef25Ok.addr] s t ∧
        t.fld fGlbStatStep = 2 ∧ t.fld fAonStatRef25Ok = 1 ∧ t.fld fGlbStatBootSel = bitOf s.glb.bootPin) ∧
      (s.fld fGlbStatStep = 2 → ∃ t, exec i s = .next t ∧ Kept [.regs] s t ∧ RegsKept [fGlbStatStep.addr, fAonStatRef25Ok.addr] s t ∧
        t.fld fGlbStatStep = 3 ∧ t.fld fAonStatRef25Ok = 1) ∧
      (s.fld fGlbStatStep = 3 → ∃ t, exec i s = .next t ∧ Kept [.regs, .glb] s t ∧ RegsKept [fGlbStatStep.addr, fGlbPllStatLock.addr] s t ∧
        t.fld fGlbStatStep = 4 ∧ t.glb = { s.glb with refs := refs } ∧
        ∀ j, j < 7 → t.fld (fGlbPllStatLock.bit j) = if j < 3 ∨ refs.testBit j = true then 1 else 0) ∧
      (s.fld fGlbStatStep = 4 → s.fld fGlbStatFail ≠ 1 → ∃ t, exec i s = .next t ∧ Kept [.regs] s t ∧ RegsKept [fGlbStatStep.addr] s t ∧
        (hbmOk = false → t.fld fGlbStatStep = 4 ∧ t.fld fGlbStatFail = 1) ∧
        (hbmOk = true → t.fld fGlbStatFail = s.fld fGlbStatFail ∧ t.fld fGlbStatStep = if s.flag fGlbStatBootSel then 7 else 5)) ∧
      (s.fld fGlbStatStep = 4 → s.fld fGlbStatFail = 1 → exec i s = .next s) ∧
      (s.fld fGlbStatStep = 5 → ∀ x, s.glb.push = some x →
        (imageCheck s x = 0 → ∃ t, exec i s = .next t ∧ Booted true x s t) ∧
        (imageCheck s x ≠ 0 → ∃ t, exec i s = .next t ∧ Kept [.regs, .glb] s t ∧ t.fld fGlbStatStep = 7 ∧
          t.fld fHifBootStatCode = imageCheck s x ∧ t.glb = { s.glb with push := none })) ∧
      (s.fld fGlbStatStep = 5 → s.glb.push = none →
        (imageCheck s c0 = 0 → ∃ t, exec i s = .next t ∧ Booted false c0 s t) ∧
        (imageCheck s c0 ≠ 0 → imageCheck s c1 = 0 → ∃ t, exec i s = .next t ∧ Booted false c1 s t) ∧
        (imageCheck s c0 ≠ 0 → imageCheck s c1 ≠ 0 → s.fld fGlbStatFail ≠ 3 → ∃ t, exec i s = .next t ∧ Kept [.regs, .glb] s t ∧
          t.fld fGlbStatStep = 7 ∧ t.fld fHifBootStatCode = imageCheck s c1 ∧ t.fld fGlbStatFail = 2 ∧ t.glb = { s.glb with push := none })) ∧
      (s.fld fGlbStatStep = 6 → s.ready = false → s.fld fGlbStatFail ≠ 3 → ∃ t, exec i s = .next t ∧ Kept [.regs, .glb] s t ∧
        t.ready = true ∧ t.fld fHifBootStatDone = 1 ∧ t.glb = { s.glb with restarts := 0 } ∧ t.fld fGlbStatStep = 6)) ∧
    (∀ (s : State) (pll : Nat), s.glb.tripped = false → 3 ≤ s.fld fGlbStatStep → pll < 7 →
      ∃ t, exec (.pllLock pll) s = .next t ∧ Kept [.regs, .glb] s t ∧ RegsKept [fGlbPllStatLock.addr] s t ∧
        t.fld (fGlbPllStatLock.bit pll) = 1 ∧ ∀ j, j < 7 → j ≠ pll → t.fld (fGlbPllStatLock.bit j) = s.fld (fGlbPllStatLock.bit j)) ∧
    (∀ (s : State) (path : BusPath) (val : Word) (x : BootImage), reaches s fHifBootPushGo.addr = true → val.getLsbD 0 = true →
      (s.fld fGlbStatStep = 7 → ∃ t, exec (.hifBootPushGo path val x) s = .next t ∧ Kept [.regs, .glb] s t ∧ RegsKept [fGlbStatStep.addr] s t ∧
        t.fld fGlbStatStep = 5 ∧ t.glb = { s.glb with push := some x }) ∧
      (s.fld fGlbStatStep ≠ 7 → exec (.hifBootPushGo path val x) s = .next s))) ∧
  (∀ (s : State) (x : BootImage),
      (x.magic ≠ 0x4B474249 ∨ x.hdrVer ≠ 1 → imageCheck s x = 8) ∧
      (x.magic = 0x4B474249 → x.hdrVer = 1 →
        (imageCheck s x = 0 ↔ x.keySlot < 4 ∧ x.keyHash = Config.keyHash x.keySlot ∧ slotRevoked s x.keySlot = false ∧ x.sigOk = true ∧
          x.bodyOk = true ∧ s.glb.rollback ≤ x.rollback) ∧
        (imageCheck s x ≠ 0 → imageCheck s x = 11)))

/-- A FATAL event and a thermal trip reset the device, and a service-core restart fails what was outstanding (R432, R434, R442, R474, R499; derived).
A parity error and a thermal trip record cause, source and MTC, lose the volatile state and bring the device to step 2 with DEVRST shown; after a trip
SYSRST_N changes nothing. A service-core restart completes every outstanding instruction with E_FAULT, counts a CONTAINED event and keeps the time,
but for a step's authorisation, which ends with its instruction; its end takes KCI back.
Completion is stated for the constructors thermtrip, serviceCoreWatchdog, serviceCoreRestartDone, fabricParityError. -/
def Obligations.FatalEvents : Prop :=
  (∀ s : State, s.glb.tripped = false →
      (∀ source, source < 0x13 →
        (∃ t, exec (.fabricParityError source false) s = .next t ∧ FatalReset 0x1E source s t) ∧
        (s.flag fUmpCtlEccEn = true → ∃ t, exec (.fabricParityError source true) s = .next t ∧ FatalReset 0x11 source s t) ∧
        (s.flag fUmpCtlEccEn = false → exec (.fabricParityError source true) s = .next s)) ∧
      (∃ t, exec .thermtrip s = .next t ∧ FatalReset 0x2F 1 s t ∧ t.glb.tripped = true ∧ t.fld fAonTripTherm = 1 ∧
        (∀ boot, exec (.sysrstNAssert boot) t = .next t))) ∧
  ((∀ s : State, s.ready = true → s.glb.svcDown = false →
      ∃ t, exec .serviceCoreWatchdog s = .next t ∧ t.glb = { s.glb with svcDown := true } ∧ t.time = { s.time with auth := none } ∧ t.hif.waits = [] ∧
        ((s.hif.outst.map (fun o => (o.tag, o.op))).Nodup → t.hif.outst = []) ∧ UmpCounted 1 s t ∧ ∀ o ∈ s.hif.outst, ∃ slot phase, OutMsg.completion slot o.tag o.op 9 phase [] ∈ t.out) ∧
    (∀ s : State, s.glb.svcDown = true → exec .serviceCoreWatchdog s = .next s) ∧
    (∀ s : State, exec .serviceCoreRestartDone s = .next { s with glb := { s.glb with svcDown := false } }))

/-- Temperature, voltage and process samples are shown and judged (R441, R447; derived).
A sample is shown in its register; a temperature raises WARN and CRIT at their thresholds and drops them 2 degrees below; a voltage is out after four
samples in a row outside its window; a core below its process floor is recorded. The interrupt bits are set on each such change.
Completion is stated for the constructors tempSample, voltSample, processSample. -/
def Obligations.MonitorSamples : Prop :=
  ∀ (s : State) (i : Nat),
    (∀ (qs : List Int) (q : Int), i < 32 → qs[i]? = some q → -(2 ^ 15) ≤ q → q < 2 ^ 15 → qs.length ≤ 32 →
      ∃ t, exec (.tempSample qs) s = .next t ∧ Kept [.regs, .out, .hif, .hbm] s t ∧
        t.fld (fAonTmonTemp i) = (q % 65536).toNat ∧
        t.fld (fAonTmonWarn i) = (if (4 * s.fld fAonTempThrWarn : Int) ≤ q then 1 else if q ≤ 4 * (s.fld fAonTempThrWarn : Int) - 8 then 0
          else s.fld (fAonTmonWarn i)) ∧
        t.fld (fAonTmonCrit i) = (if (4 * s.fld fAonTempThrCrit : Int) ≤ q then 1 else if q ≤ 4 * (s.fld fAonTempThrCrit : Int) - 8 then 0
          else s.fld (fAonTmonCrit i)) ∧
        ((4 * s.fld fAonTempThrWarn : Int) ≤ q → s.fld (fAonTmonWarn i) = 0 → t.flag (fAonMonStat.bit 0) = true) ∧
        ((4 * s.fld fAonTempThrCrit : Int) ≤ q → s.fld (fAonTmonCrit i) = 0 → t.flag (fAonMonStat.bit 1) = true)) ∧
    (∀ (vs : List Nat) (v : Nat), i < 24 → vs[i]? = some v → v < 4096 → vs.length ≤ 24 → mapGet 0 i s.ump.voltOut ≤ 4 →
      ∃ t, exec (.voltSample vs) s = .next t ∧ Kept [.regs, .out, .hif, .hbm, .ump] s t ∧ t.fld (fAonVmonMv i) = v ∧
        (s.fld (fAonVwinLo i) ≤ v → v ≤ s.fld (fAonVwinHi i) → mapGet 0 i t.ump.voltOut = 0) ∧
        (v < s.fld (fAonVwinLo i) ∨ s.fld (fAonVwinHi i) < v → mapGet 0 i t.ump.voltOut = min 4 (mapGet 0 i s.ump.voltOut + 1) ∧
          (mapGet 0 i s.ump.voltOut = 3 → t.flag (fAonMonStat.bit 2) = true))) ∧
    (∀ (cs : List Nat) (v : Nat), i < 16 → cs[i]? = some v → v < 2 ^ 20 → cs.length ≤ 16 →
      ∃ t, exec (.processSample cs) s = .next t ∧ Kept [.regs, .out, .hif, .hbm, .ump] s t ∧ t.fld (fAonPmonCount i) = v ∧
        ((mapFind? i t.ump.procLow).isSome = decide (v < s.fld fAonPmonFloorCount)) ∧
        (v < s.fld fAonPmonFloorCount → mapFind? i s.ump.procLow = none → t.flag (fAonMonStat.bit 3) = true))

/-- Umpire merges, records and counts, and the scrubbers report what they find (R430, R431, R432, R436, R437; derived).
A merged event is written to the ring with its repeat count when its millisecond is over, or lost and counted where the ring is full. A scrub pass
counts itself, or late; an error it finds is CORRECTED, leads to a FATAL reset, or marks the word. A spare that fails its test is retired and recorded
as DEGRADED.
Completion is stated for the constructors umpireMergeExpiry, sramScrubPass, hbmPatrolPass, spareTest. -/
def Obligations.UmpireRecords : Prop :=
  ∀ s : State,
    (∀ h ∈ s.ump.held, s.ump.held.find? (fun x => x.source == h.source && x.core == h.core && x.cause == h.cause) = some h → s.ump.held.Nodup →
      h.since + 25000 ≤ s.clk →
      ∃ t, exec (.umpireMergeExpiry h.source h.core h.cause) s = .next t ∧ Kept [.regs, .out, .hif, .hbm, .ump] s t ∧
        t.ump = { s.ump with held := s.ump.held.erase h } ∧
        UmpRecord (umpBytes { cls := 0, core := h.core, source := h.source, cause := h.cause, node := h.node, acct := h.acct, detail := h.detail }
          h.seq h.mtc h.rep) s t) ∧
    (∀ source core cause, s.ump.held.find? (fun x => x.source == source && x.core == core && x.cause == cause) = none →
      exec (.umpireMergeExpiry source core cause) s = .next s) ∧
    (s.ready = true → s.flag fUmpCtlEn = true → ∀ source core, source < 0x30 → core < 16 → s.flag fUmpScrubSramMs = true →
      (∃ t, exec (.sramScrubPass source core [] false) s = .next t ∧ Kept [.regs] s t ∧ RegsKept [fUmpScrubPassesCount.addr] s t ∧
        t.fld fUmpScrubPassesCount = (s.fld fUmpScrubPassesCount + 1) % 2 ^ 32) ∧
      (∃ t, exec (.sramScrubPass source core [] true) s = .next t ∧ Kept [.regs] s t ∧ RegsKept [fUmpScrubLateCount.addr] s t ∧
        t.fld fUmpScrubLateCount = (s.fld fUmpScrubLateCount + 1) % 2 ^ 32) ∧
      (∀ a, s.flag fUmpCtlEccEn = true →
        (∃ t, exec (.sramScrubPass source core [⟨a, true⟩] false) s = .next t ∧ Kept [.regs, .out, .hif, .ump, .pmu] s t ∧ UmpCounted 0 s t) ∧
        (source < 0x20 → ∃ t, exec (.sramScrubPass source core [⟨a, false⟩] false) s = .next t ∧ FatalReset 0x11 source s t) ∧
        (0x20 ≤ source → a < 0x80000 → ∃ t, exec (.sramScrubPass source core [⟨a, false⟩] false) s = .next t ∧ Kept [.regs, .core] s t ∧
          meetsBad (t.cor (16 * (source - 0x20) + core)).bad a 1 = true) ∧
        (0x20 ≤ source → 0x100000 ≤ a → a < 0x200000 → ∃ t, exec (.sramScrubPass source core [⟨a, false⟩] false) s = .next t ∧
          Kept [.regs, .clu] s t ∧ meetsBad (t.cl (source - 0x20)).bad a 1 = true) ∧
        (0x20 ≤ source → 0x200000 ≤ a → a < 0x300000 → ∃ t, exec (.sramScrubPass source core [⟨a, false⟩] false) s = .next t ∧
          Kept [.regs, .clu] s t ∧ mapFind? (a / 4 * 4 - 0x200000) (t.cl (source - 0x20)).badCode = some ()))) ∧
    (s.ready = true → s.flag fUmpCtlEn = true → s.flag fUmpScrubHbmMin = true → ∀ source,
      (∃ t, exec (.hbmPatrolPass source []) s = .next t ∧ Kept [.regs] s t ∧ RegsKept [fUmpPatrolPassesCount.addr] s t ∧
        t.fld fUmpPatrolPassesCount = (s.fld fUmpPatrolPassesCount + 1) % 2 ^ 32) ∧
      (∀ a, s.flag fUmpCtlEccEn = true →
        (∃ t, exec (.hbmPatrolPass source [⟨a, true⟩]) s = .next t ∧ Kept [.regs, .out, .hif, .ump] s t ∧ UmpCounted 0 s t) ∧
        (source = 4 ∨ source = 7 → ∃ t, exec (.hbmPatrolPass source [⟨a, false⟩]) s = .next t ∧ FatalReset 0x13 source s t) ∧
        (0x20 ≤ source → ∃ t, exec (.hbmPatrolPass source [⟨a, false⟩]) s = .next t ∧ UmpCounted 1 s t ∧ mapFind? (a / 4 * 4) t.hbmBad = some ()) ∧
        (∃ t, exec (.hbmPatrolPass 6 [⟨a, false⟩]) s = .next t ∧ UmpCounted 1 s t ∧ t.seed.tags = s.seed.tags ∧
          ((s.tag (granuleOf s a)).st ≠ .free → (t.acct (s.tag (granuleOf s a)).owner).suspect = true)))) ∧
    (∀ k, k < 256 →
      (∃ t, exec (.spareTest k true) s = .next t ∧ t = s) ∧
      (s.flag fUmpCtlEn = true → s.flag fUmpSpareTestSec = true → inSpare s k = true → (s.cl (k / 16)).pwr = .run →
        ∃ t, exec (.spareTest k false) s = .next t ∧ UmpCounted 2 s t ∧ (t.cor k).mode = .retired))

/-- The servo steps, locks, holds over and refuses as its states say (R50, R51, R52, R54, R55, R56, R60; derived).
Only the slave port's measurements act. For one of them, corrected by its asymmetry (subtracted: assumption 36): an authorised step within the limit is
made, and beyond it none; a measurement beyond TIME_STEP_MAX on an
armed servo leaves the counter and goes to HOLDOVER with STEP_REFUSED; FREERUN steps once to ACQUIRE; LOCKED changes only the rate, within its bounds;
HOLDOVER needs 16 in a row. The servo's filter and the rate it gives are free values.
Completion is stated for the constructor servoUpdate. -/
def Obligations.ServoUpdates : Prop :=
  ∀ (s : State) (p : Nat) (offset : Int), p < 4 → ptpDrives s = true →
    let i : Instr := .servoUpdate p offset
    let off : Int := offset - signedOf 32 (s.fld (fTimeAsymNs p))
    let max : Int := s.fld fTimeStepMaxNs
    (s.time.slave ≠ some p → exec i s = .next s) ∧
    (s.time.slave = some p →
      (s.time.servo = .pathHold → ∃ t, exec i s = .next t ∧ Kept [.regs, .free] s t ∧ RegsKept [fTimeOffsetNs.addr] s t) ∧
      (∀ a, s.time.auth = some a → s.time.servo ≠ .pathHold → s.time.servo ≠ .free →
        ∃ t, exec i s = .next t ∧ t.time.auth = none ∧
          ((off.natAbs : Nat) ≤ a.limit → t.time.t = ((s.time.t : Int) - off * nsUnit).toNat ∧ t.time.servo = .acquire ∧ t.time.hoCause = 0) ∧
          (a.limit < off.natAbs → t.time.t = s.time.t ∧
            (s.time.armed = true → max < off.natAbs → t.time.servo = .holdover ∧ t.time.hoCause = 2 ∧ t.flag fTimeStatStepRefused = true) ∧
            (s.time.armed = false ∨ (off.natAbs : Int) ≤ max → t.time.servo = s.time.servo ∧
              t.fld fTimeStatStepRefused = s.fld fTimeStatStepRefused))) ∧
      (s.time.auth = none →
        (s.time.armed = true → s.time.servo ∈ [Servo.freerun, .acquire, .locked, .holdover] → max < off.natAbs →
          ∃ t, exec i s = .next t ∧ t.time.t = s.time.t ∧ t.time.servo = .holdover ∧ t.time.hoCause = 2 ∧ t.time.holdCount = 0 ∧
            t.flag fTimeStatStepRefused = true) ∧
        (s.time.servo = .freerun → s.time.armed = false →
          ∃ t, exec i s = .next t ∧ t.time.t = ((s.time.t : Int) - off * nsUnit).toNat ∧ t.time.servo = .acquire ∧
            t.fld fTimeStatStepRefused = s.fld fTimeStatStepRefused) ∧
        (s.time.servo = .locked → (off.natAbs : Int) ≤ max →
          ∃ t, exec i s = .next t ∧ Kept [.regs, .free, .time] s t ∧ RegsKept [fTimeOffsetNs.addr] s t ∧
            t.time = { s.time with rate := t.time.rate, lockRates := (t.time.rate :: s.time.lockRates).take 16 } ∧
            -rateMax ≤ t.time.rate ∧ t.time.rate ≤ rateMax) ∧
        (s.time.servo = .acquire → (off.natAbs : Int) ≤ max →
          ∃ t, exec i s = .next t ∧ ((t.time.t : Int) - s.time.t).natAbs ≤ max.toNat * nsUnit ∧
            (t.time.servo = .acquire ∧ t.time.armed = s.time.armed ∨ t.time.servo = .locked ∧ t.time.armed = true ∧ 15 ≤ s.time.lockCount)) ∧
        (s.time.servo = .holdover → (off.natAbs : Int) ≤ max →
          ∃ t, exec i s = .next t ∧ t.time.t = s.time.t ∧ t.time.rate = s.time.rate ∧
            t.fld fTimeStatStepRefused = s.fld fTimeStatStepRefused ∧
            (s.time.holdCount < 15 → t.time.servo = .holdover ∧ t.time.holdCount = s.time.holdCount + 1) ∧
            (15 ≤ s.time.holdCount → t.time.servo = .acquire ∧ t.time.hoCause = 0))))

/-- Path delay windows detect a step of the path, and the path hold ends (R50, R59; derived).
Sixteen exchanges make a window; a second window whose mean differs by more than PD_STEP sets PATH_STEP and takes a running servo to PATH_HOLD, or to
ACQUIRE where the hold is 0; lost exchanges change nothing; at the end of the hold the servo acquires.
Completion is stated for the constructors delayReqExchange, pathHoldElapsed. -/
def Obligations.PathDelays : Prop :=
  ∀ (s : State) (p delay : Nat),
    exec (.delayReqExchange p delay true) s = .next s ∧
    (ptpDrives s = true → s.time.slave = some p →
      (s.time.delays.length < 15 → exec (.delayReqExchange p delay false) s = .next { s with time := { s.time with delays := s.time.delays ++ [delay] } }) ∧
      (s.time.delays.length = 15 →
        let sum := (s.time.delays ++ [delay]).foldl (· + ·) 0
        (s.time.prevSum = none →
          ∃ t, exec (.delayReqExchange p delay false) s = .next t ∧ Kept [.regs, .time] s t ∧ RegsKept [fTimeMpdNs.addr] s t ∧
            t.time = { s.time with delays := [], prevSum := some sum }) ∧
        ∀ was, s.time.prevSum = some was →
          (s.fld fTimePdStepNs = 0 ∨ max sum was - min sum was ≤ 16 * s.fld fTimePdStepNs →
            ∃ t, exec (.delayReqExchange p delay false) s = .next t ∧ Kept [.regs, .time] s t ∧ RegsKept [fTimeMpdNs.addr] s t ∧
              t.time = { s.time with delays := [], prevSum := some sum }) ∧
          (s.fld fTimePdStepNs ≠ 0 → 16 * s.fld fTimePdStepNs < max sum was - min sum was →
            ∃ t, exec (.delayReqExchange p delay false) s = .next t ∧ t.flag fTimeStatPathStep = true ∧ t.time.rate = s.time.rate ∧
              t.time.t = s.time.t ∧
              (s.time.servo = .locked ∨ s.time.servo = .acquire → s.fld fTimePdHoldSec ≠ 0 →
                t.time.servo = .pathHold ∧ t.time.holdStart = s.clk) ∧
              (s.time.servo = .locked ∨ s.time.servo = .acquire → s.fld fTimePdHoldSec = 0 → t.time.servo = .acquire) ∧
              (s.time.servo ≠ .locked → s.time.servo ≠ .acquire → t.time.servo = s.time.servo)))) ∧
    (s.time.servo = .pathHold →
      ∃ t, exec .pathHoldElapsed s = .next t ∧ t.time.servo = .acquire ∧ t.time.hoCause = 0 ∧ t.time.rate = s.time.rate ∧
        t.clk = max s.clk (s.time.holdStart + s.fld fTimePdHoldSec * 25000000)) ∧
    (s.time.servo ≠ .pathHold → exec .pathHoldElapsed s = .next s)

/-- Announces choose the slave port, and its loss leads to holdover (R42, R47, R48, R49, R51, R68; derived).
While the service cores run, an Announce on an enabled port and in the configured domain is kept per port, and the best one in the model's order of R49
(assumption 23) is the slave, unless the device's own data beat it; any other Announce, and all while they do not run, change nothing. Its timeout forgets
it and takes a servo that follows it to HOLDOVER with cause 1; a master port that is up sends Announce, Sync and Follow_Up as its own message, and no
other port does.
Completion is stated for the constructors announceReceived, announceReceiptTimeout, ptpMasterTransmit. -/
def Obligations.MastersOnThePorts : Prop :=
  (∀ (s : State) (p : Nat) (a : Announce), (svcUp s = false ∨ hears s (p, a) = false ∨ 4 ≤ p → exec (.announceReceived p a) s = .next s) ∧
    (svcUp s = false → exec (.announceReceiptTimeout p) s = .next s)) ∧
  ∀ (s : State) (p : Nat), svcUp s = true →
    (∀ a : Announce, p < 4 → hears s (p, a) = true → mapSorted none s.time.announces = true →
      let heard := mapInsert p a s.time.announces
      ∃ t, exec (.announceReceived p a) s = .next t ∧ Kept [.time, .free] s t ∧ t.time.announces = heard ∧ mapFind? p t.time.announces = some a ∧
        (∀ j, j ≠ p → mapFind? j t.time.announces = mapFind? j s.time.announces) ∧
        t.time.t = s.time.t ∧ t.time.armed = s.time.armed ∧ t.time.cfg = s.time.cfg ∧
        t.time.slave = bestMaster { s with time := { s.time with announces := heard } } ∧
        (s.time.slave = none ∨ t.time.slave ≠ none ∨ ptpDrives s = false → t.time.rate = s.time.rate ∧ t.time.servo = s.time.servo) ∧
        (∀ q, t.time.slave = some q → ∃ b, mapFind? q t.time.announces = some b ∧ hears s (q, b) = true ∧ ownBeats s b = false ∧
          t.time.utcOffset = some b.utcOffset ∧
          ∀ y ∈ t.time.announces, hears s y = true → lexLt (announceKey y.1 y.2) (announceKey q b) = false)) ∧
    (s.time.slave = some p → s.fld fTimeCtlSrc ≠ 0 →
      ∃ t, exec (.announceReceiptTimeout p) s = .next t ∧ mapFind? p t.time.announces = none ∧ t.time.t = s.time.t ∧ t.time.servo = s.time.servo) ∧
    (s.time.slave = some p → s.fld fTimeCtlSrc = 0 →
      ∃ t, exec (.announceReceiptTimeout p) s = .next t ∧ mapFind? p t.time.announces = none ∧ t.time.t = s.time.t ∧
        t.time.lockCount = 0 ∧ t.time.holdCount = 0 ∧ t.time.delays = [] ∧ t.time.prevSum = none ∧
        (s.time.servo ∈ [Servo.acquire, .locked, .pathHold] → t.time.servo = .holdover ∧ t.time.hoCause = 1) ∧
        (s.time.servo ∉ [Servo.acquire, .locked, .pathHold] → t.time.servo = s.time.servo ∧ t.time.hoCause = s.time.hoCause)) ∧
    (s.time.slave ≠ some p → ∃ t, exec (.announceReceiptTimeout p) s = .next t ∧
      t = { s with time := { s.time with announces := mapErase p s.time.announces } }) ∧
    (p < 4 → s.time.cfg.role ≠ 0 → s.time.cfg.ports.testBit p = true → s.time.slave = none → linkUp s p = true →
      (s.flag (fNetCtlLoop p) = false → exec (.ptpMasterTransmit p) s = .next (s.emit (.ptp p (ownClass s)))) ∧
      (s.flag (fNetCtlLoop p) = true → ∃ t, exec (.ptpMasterTransmit p) s = .next t ∧ t.time = s.time ∧
        (s.out ++ [OutMsg.ptp p (ownClass s)]) <+: t.out ∧ t.fld (fNetRxFramesCount p) = (s.fld (fNetRxFramesCount p) + 1) % 2 ^ 32)) ∧
    (s.time.slave = some p ∨ s.time.cfg.role = 0 ∨ s.time.cfg.ports.testBit p = false ∨ linkUp s p = false →
      exec (.ptpMasterTransmit p) s = .next s)

/-- The 10 MHz, PPS and word clock pins are judged, latched and driven (R51, R66, R69, R517; derived).
A reference window sets REF10M_OK by its 50 ppm bound; a PPS edge latches the time and sets PPSIN_OK when one second has passed since the last within
1 us; its loss drops it and takes a locked servo that uses it to HOLDOVER; PPS_OUT pulses at the next second boundary where it is enabled, for its WIDTH, and
WCLK_OUT is high in the first half of each media tick.
Completion is stated for the constructors ref10mWindow, ppsInEdge, ppsOutPulse, ppsInLoss. -/
def Obligations.ReferencePins : Prop :=
  ∀ s : State,
    (∀ ppb : Int,
      (s.flag fTimeCtlHoRef = false → exec (.ref10mWindow ppb) s = .next { s with time := { s.time with ref10mOk := decide (ppb.natAbs ≤ 50000) } }) ∧
      (s.flag fTimeCtlHoRef = true → ∃ t, exec (.ref10mWindow ppb) s = .next t ∧ Kept [.free, .time] s t ∧
        t.time = { s.time with ref10mOk := decide (ppb.natAbs ≤ 50000), rate := t.time.rate } ∧
        (s.time.servo ≠ .holdover → s.time.servo ≠ .freerun → t.time.rate = s.time.rate))) ∧
    (s.fld fTimeCtlSrc ≠ 1 → ∃ t, exec .ppsInEdge s = .next t ∧ Kept [.time] s t ∧
      t.time = { s.time with ppsNs := BitVec.ofNat 32 (timeNs s.time.t), ppsSec := BitVec.ofNat 32 (timeSec s.time.t), lastPps := some s.clk,
                             ppsinOk := t.time.ppsinOk } ∧
      (t.time.ppsinOk = true ↔ ∃ c, s.time.lastPps = some c ∧ 25000000 - 25 ≤ s.clk - c ∧ s.clk - c ≤ 25000000 + 25)) ∧
    (s.fld fTimeCtlSrc ≠ 1 → exec .ppsInLoss s = .next { s with time := { s.time with ppsinOk := false } }) ∧
    (s.fld fTimeCtlSrc = 1 → s.time.servo = .locked → ∃ t, exec .ppsInLoss s = .next t ∧ t.time.ppsinOk = false ∧
      t.time.servo = .holdover ∧ t.time.hoCause = 1 ∧ t.time.t = s.time.t) ∧
    (-rateMax ≤ s.time.rate → ∃ t a, exec .ppsOutPulse s = .next t ∧ ppsOutNext s ≤ t.time.t ∧ t.time.t < ppsOutNext s + timeInc s.time.rate ∧
      MsixAfter s.out a ∧ t.out = a ++ (if s.flag fTimeCtlPpsoutEn && s.flag fTimePpsoutWidth then [OutMsg.pps (s.fld fTimePpsoutWidth)] else []) ∧
      (s.flag fTimeCtlPpsoutEn = true → s.flag fTimePpsoutWidth = true → t.pinPpsOut = true ∧
        t.time.ppsHigh = some (t.clk, t.clk + 25000 * s.fld fTimePpsoutWidth))) ∧
    (s.flag fTimeCtlPpsoutEn = false → s.pinPpsOut = false) ∧
    (s.flag fTimeCtlWclkEn = false ∨ s.fld fGlbStatStep < 3 → s.pinWclkOut = false)

/-- A received frame is counted, matched and put into its FIFO, or dropped and counted (R46, R70, R72, R73, R74; derived).
A bad, odd-sized or control frame is counted and dropped. A UDP frame that matches an open flow joins the media FIFO with the key its RTP timestamp
gives (at 48, 96, 16 and 8 kHz clocks), or is counted as a format error or a FIFO drop; any other frame for the device joins the service FIFO; the
rest are counted as NOMATCH. No other port changes. A port in loopback takes no frame from the line (assumption 49).
Completion is stated for the constructor ethernetFrameReceive. -/
def Obligations.ReceivedFrames : Prop :=
  (∀ (s : State) (p : Nat) (f : Frame), s.flag (fNetCtlLoop p) = true ∨ 4 ≤ p ∨ linkUp s p = false → exec (.ethernetFrameReceive p f) s = .next s) ∧
  (∀ (s : State) (p : Nat) (f : Frame), p < 4 → linkUp s p = true → s.flag (fNetCtlLoop p) = false →
      let i : Instr := .ethernetFrameReceive p f
      let counted (c : Fld) (t : State) : Prop := exec i s = .next t ∧ t.fld (fNetRxFramesCount p) = (s.fld (fNetRxFramesCount p) + 1) % 2 ^ 32 ∧
        t.fld (fNetFecCorrCount p) = (s.fld (fNetFecCorrCount p) + f.fecCorr) % 2 ^ 32 ∧ t.fld c = (s.fld c + 1) % 2 ^ 32 ∧
        Kept [.regs, .out, .pmu, .hif] s t
      let good : Prop := f.fcsOk = true ∧ f.fecUncorr = 0 ∧ 64 ≤ f.bytes ∧ f.bytes ≤ 1522 ∧ f.macCtl = false
      let held (ms : List Nat) : Nat := ms.foldl (· + ·) 0
      let arrived (t : State) : Prop := exec i s = .next t ∧ t.fld (fNetRxFramesCount p) = (s.fld (fNetRxFramesCount p) + 1) % 2 ^ 32 ∧
        Kept [.regs, .out, .pmu, .hif, .net] s t ∧ ∀ q, q ≠ p → t.port q = s.port q
      (f.fcsOk = false ∨ f.fecUncorr ≠ 0 → ∃ t, counted (fNetRxCrcCount p) t) ∧
      (f.fcsOk = true → f.fecUncorr = 0 → f.bytes < 64 ∨ 1522 < f.bytes → ∃ t, counted (fNetRxSizeCount p) t) ∧
      (f.fcsOk = true → f.fecUncorr = 0 → 64 ≤ f.bytes → f.bytes ≤ 1522 → f.macCtl = true → ∃ t, counted (fNetRxPauseCount p) t) ∧
      (good → f.kind = .udp → ∀ fl b x, matchKey s p f = some (fl, b) → mapFind? fl s.net.rx = some x →
        (mediaOk x.blk f = false → ∃ t, arrived t ∧ t.port p = s.port p ∧ t.fld (fNetRxFormatCount p) = (s.fld (fNetRxFormatCount p) + 1) % 2 ^ 32 ∧
          ∃ y, mapFind? fl t.net.rx = some y ∧ (y.path b).format = ((x.path b).format + 1) % 2 ^ 32 ∧ (y.path b).rx = (x.path b).rx) ∧
        (mediaOk x.blk f = true → held ((s.port p).fifo.map (fun m => m.bytes)) + f.bytes ≤ 262144 →
          ∃ t m, arrived t ∧ (t.port p).fifo = (s.port p).fifo ++ [m] ∧ (t.port p).svc = (s.port p).svc ∧ (t.port p).copies = (s.port p).copies ∧
            m = { bytes := f.bytes, flow := fl, pathB := b, queue := x.blk.queue, key := (rtpKey x.blk f.rtp.ts s.mtc).1, half := (rtpKey x.blk f.rtp.ts s.mtc).2
                  rtp := f.rtp, tci := f.tci, dscp := f.dscp, time := s.time.t / 2 ^ 32 } ∧
            ∃ y, mapFind? fl t.net.rx = some y ∧ (y.path b).rx = ((x.path b).rx + 1) % 2 ^ 32 ∧ (y.path b).up = true ∧ (y.path b).last = s.tick ∧
              y.path (!b) = x.path (!b) ∧ y.blk = x.blk) ∧
        (mediaOk x.blk f = true → 262144 < held ((s.port p).fifo.map (fun m => m.bytes)) + f.bytes → ∃ t, counted (fNetRxFifoDropCount p) t)) ∧
      (good → (f.kind = .udp → matchKey s p f = none) →
        (forService s p f = true → held ((s.port p).svc.map (fun g => g.bytes)) + f.bytes ≤ 65536 →
          ∃ t, arrived t ∧ (t.port p).svc = (s.port p).svc ++ [f] ∧ (t.port p).fifo = (s.port p).fifo ∧ t.net.rx = s.net.rx) ∧
        (forService s p f = true → 65536 < held ((s.port p).svc.map (fun g => g.bytes)) + f.bytes → ∃ t, counted (fNetSvcDropCount p) t) ∧
        (forService s p f = false → ∃ t, counted (fNetRxNomatchCount p) t))) ∧
  (∀ (b : RxBlock) (ts mtc : Nat), ts < 2 ^ 32 → b.offset < 2 ^ 32 → mtc < 2 ^ 32 →
      (b.rate = 48000 → ((rtpKey b ts mtc).1 : Int) = ((ts : Int) - b.offset) % 2 ^ 32 ∧ (rtpKey b ts mtc).2 = false) ∧
      (b.rate = 96000 → (2 * (rtpKey b ts mtc).1 + (if (rtpKey b ts mtc).2 then 1 else 0) : Int) % 2 ^ 32 = ((ts : Int) - b.offset) % 2 ^ 32 ∧
        (tickDiff (rtpKey b ts mtc).1 mtc).natAbs ≤ 2 ^ 30) ∧
      (b.rate = 16000 → ((rtpKey b ts mtc).1 : Int) = 3 * (((ts : Int) - b.offset) % 2 ^ 32) % 2 ^ 32) ∧
      (b.rate = 8000 → ((rtpKey b ts mtc).1 : Int) = 6 * (((ts : Int) - b.offset) % 2 ^ 32) % 2 ^ 32))

/-- A port admits its oldest media packet and hands its oldest service packet over (R73, R74, R181, R184; derived).
The head media packet becomes a queue entry when its PORT account has credit and the pool has granules, waits otherwise and is counted as refused
once, or is dropped and counted where its queue is closed (assumption 47); the head service packet goes to the service cores. Nothing happens on an empty FIFO.
Completion is stated for the constructors mediaPacketAdmit, serviceFifoPacket. -/
def Obligations.PortFifos : Prop :=
  ∀ (s : State) (p : Nat),
    ((s.port p).svc = [] → exec (.serviceFifoPacket p) s = .next s) ∧
    (∀ f rest, (s.port p).svc = f :: rest → s.glb.svcDown = false →
      ∃ t, exec (.serviceFifoPacket p) s = .next t ∧ Kept [.net, .time] s t ∧ t.port p = { s.port p with svc := rest } ∧
        (∀ q, q ≠ p → t.port q = s.port q) ∧ t.net.rx = s.net.rx ∧ t.net.tx = s.net.tx ∧
        t.time = { s.time with mgmtLost := s.time.mgmtLost + if f.kind = .udp ∧ f.carries = .ptpMgmt then 1 else 0 }) ∧
    ((s.port p).fifo = [] → exec (.mediaPacketAdmit p) s = .next s) ∧
    (∀ m rest, (s.port p).fifo = m :: rest →
      (attached s (0x40 + 8 * p) = none → exec (.mediaPacketAdmit p) s = .next s) ∧
      ∀ a, attached s (0x40 + 8 * p) = some a →
        let n := (32 + (rtpPayload m.rtp).length + 255) / 256
        let fits : Prop := (s.acct a).held + n ≤ (s.acct a).quota ∧ n ≤ s.seed.freeA
        (s.queue? m.queue = none → exec (.mediaPacketAdmit p) s = .next ((s.updPort p (fun q => { q with fifo := rest })).bump (fNetRxNomatchCount p) 1)) ∧
        (s.queue? m.queue ≠ none → ¬ fits → m.refused = true → exec (.mediaPacketAdmit p) s = .next s) ∧
        (s.queue? m.queue ≠ none → ¬ fits → m.refused = false →
          ∃ t, exec (.mediaPacketAdmit p) s = .next t ∧ (t.port p).fifo = { m with refused := true } :: rest ∧ t.seed.tags = s.seed.tags ∧
            t.mq = s.mq ∧ t.hbm = s.hbm) ∧
        (∀ x, s.queue? m.queue = some x → fits →
          ∃ t h x', exec (.mediaPacketAdmit p) s = .next t ∧ (t.port p).fifo = rest ∧ (∀ q, q ≠ p → t.port q = s.port q) ∧
            t.queue? m.queue = some x' ∧ x'.n.pushed = (x.n.pushed + 1) % 2 ^ 32 ∧
            (x.mode = .ordered → x.held = [] → x.retained = [] → x.lastValid = false → x.before = none → 0 < x.depth → x.account ≠ a →
              (s.acct x.account).held + n ≤ (s.acct x.account).quota → s.tag = (fun _ => {}) → n ≤ poolSize s →
              x'.held.map (fun i => i.e) = [{ handle := h, len := (rtpPayload m.rtp).length, seq := m.rtp.seq % 65536, key := m.key }])))

/-- Links, paths and skew partners time out as the flow rules say (R70, R83, R84, R92, R469; derived).
A link change is shown where the port is enabled and a loss is latched; a path that is silent longer than PATH_TO goes DOWN, counted, with an event
for the host or a lost one; a skew partner that does not come in time is counted as missed and forgotten.
Completion is stated for the constructors ethernetLinkChange, pathTimeout, skewPartnerTimeout. -/
def Obligations.LinkAndPathEvents : Prop :=
  (∀ (s : State) (p : Nat) (up hiSer : Bool), p < 4 →
    (s.flag (fNetCtlEn p) = false → exec (.ethernetLinkChange p up hiSer) s = .next s) ∧
    (s.flag (fNetCtlEn p) = true → up = true → ∃ t, exec (.ethernetLinkChange p up hiSer) s = .next t ∧ Kept [.regs] s t ∧
      RegsKept [(fNetStatLink p).addr] s t ∧ linkUp t p = true ∧ t.fld (fNetStatHiSer p) = bitOf hiSer ∧ t.fld (fNetStatLinkLost p) = s.fld (fNetStatLinkLost p)) ∧
    (s.flag (fNetCtlEn p) = true → up = false → s.flag (fNetStatLink p) = true →
      ∃ t, exec (.ethernetLinkChange p up hiSer) s = .next t ∧ Kept [.regs, .out, .hif] s t ∧ RegsKept [(fNetStatLink p).addr] s t ∧
        t.flag (fNetStatLink p) = false ∧ t.flag (fNetStatLinkLost p) = true)) ∧
  (∀ (s : State) (fl : Nat) (b : Bool),
    (mapFind? fl s.net.rx = none → exec (.pathTimeout fl b) s = .next s) ∧
    ∀ x, mapFind? fl s.net.rx = some x →
      ((x.path b).up = false → exec (.pathTimeout fl b) s = .next s) ∧
      ((x.path b).up = true → -rateMax ≤ s.time.rate →
        ∃ t y, exec (.pathTimeout fl b) s = .next t ∧ mapFind? fl t.net.rx = some y ∧ (y.path b).up = false ∧
          (y.path b).down = ((x.path b).down + 1) % 2 ^ 32 ∧ y.path (!b) = x.path (!b) ∧
          (x.path b).last + s.fld (fNetPathToTicks (if b then x.blk.keyB else x.blk.keyA).port) < t.tick ∧
          (s.hif.flowEv.length < 64 → t.hif.flowEv = s.hif.flowEv ++ [(fl, b)] ∧ t.flag (fHifIntStat.bit 2) = true) ∧
          (64 ≤ s.hif.flowEv.length → t.hif.flowEv = s.hif.flowEv ∧ t.flag (fHifIntStat.bit 3) = true ∧
            t.fld fHifFlowevLostCount = (s.fld fHifFlowevLostCount + 1) % 2 ^ 32))) ∧
  (∀ (s : State) (fl seq : Nat) (b : Bool) (x : RxFlow), mapFind? fl s.net.rx = some x →
    (x.pend.find? (fun p => p.seq == seq && p.pathB == b) = none → exec (.skewPartnerTimeout fl b seq) s = .next s) ∧
    ∀ p, x.pend.find? (fun p => p.seq == seq && p.pathB == b) = some p →
      ∃ t, exec (.skewPartnerTimeout fl b seq) s = .next t ∧ p.at_ + (limitNs x + 39) / 40 ≤ t.clk ∧
        mapFind? fl t.net.rx = some { x with pend := x.pend.filter (· != p), miss := (x.miss + 1) % 2 ^ 32 } ∧
        ∀ j, j ≠ fl → mapFind? j t.net.rx = mapFind? j s.net.rx)

/-- An egress flow takes its head entry and the port sends the copies in order (R72, R88, R89, R90, R91, R92, R95; derived).
The take is a pop with K = MTC + 2, which on an empty queue only moves LAST_KEY. A due entry is taken, sent with the RTP timestamp of its tick and the next
sequence number, or found too late, freed and counted as STALE; a port sends its earliest due copy, in its headers, when its link is up and it has an address, or
counts it as link down; a sender report carries the counts of the flow on each path that can send.
Completion is stated for the constructors egressTake, copyDeparture, rtcpSenderReport. -/
def Obligations.EgressResults : Prop :=
  (∀ (s : State) (fl : Nat) (x : TxFlow), mapFind? fl s.net.tx = some x →
    (s.queue? x.blk.queue = none → exec (.egressTake fl) s = .next s) ∧
    (∀ q : Queue, s.queue? x.blk.queue = some q → q.held = [] →
      let k := (s.mtc + 2) % 2 ^ 32
      ∃ t q', exec (.egressTake fl) s = .next t ∧ Kept [.mq] s t ∧ OnlyQueue x.blk.queue (some q') s t ∧ q'.held = [] ∧ q'.lastValid = true ∧
        q'.lastKey = if q.lastValid = false ∨ 0 < tickDiff k q.lastKey then k else q.lastKey) ∧
    (∀ (q : Queue) (i : Item) (rest : List Item), s.queue? x.blk.queue = some q → q.mode = .fifo → q.markSet = false → q.held = i :: rest →
      i.e.nobuf = false → tickDiff i.e.key ((s.mtc + 2) % 2 ^ 32) ≤ 0 →
      let e := nearTick s i.e.key
      let late : Int := s.tick - e
      let w1 := bufWord s i.e.handle 4
      timeOfTick (e.toNat - 2) ≤ s.time.t → x.blk.pathA.present = true → x.blk.pathB.present = false → w1.getLsbD 18 = true →
      let p := x.blk.pathA.port
      ∃ t q' y, exec (.egressTake fl) s = .next t ∧ t.queue? x.blk.queue = some q' ∧ q'.held = rest ∧ q'.n.popped = (q.n.popped + 1) % 2 ^ 32 ∧
        mapFind? fl t.net.tx = some y ∧ y.seq = (x.seq + 1) % 65536 ∧ y.blk = x.blk ∧
        (late ≤ s.fld (fNetEgrGraceTicks p) →
          ∃ c, (t.port p).copies = (s.port p).copies ++ [c] ∧ c.flow = fl ∧ c.pathB = false ∧ c.tick = e.toNat ∧ c.seq = x.seq ∧
            (c.ts : Int) = (nearTick s (bufWord s i.e.handle 0).toNat * x.blk.rate / 48000 + x.blk.offset) % 2 ^ 32 ∧
            c.marker = w1.getLsbD 17 ∧ c.handle = i.e.handle ∧ c.len = i.e.len ∧
            t.fld (fNetTxLateCount p) = (s.fld (fNetTxLateCount p) + if 1 ≤ late then 1 else 0) % 2 ^ 32) ∧
        (s.fld (fNetEgrGraceTicks p) < late →
          (t.port p).copies = (s.port p).copies ∧ t.fld (fNetTxStaleCount p) = (s.fld (fNetTxStaleCount p) + 1) % 2 ^ 32 ∧
          (t.tag i.e.handle).st = .free))) ∧
  (∀ (s : State) (p : Nat),
    ((s.port p).copies = [] → exec (.copyDeparture p) s = .next s) ∧
    (∀ c ∈ (s.port p).copies, (∀ d ∈ (s.port p).copies, d ≠ c → copyBefore c d = true) → copyDue c ≤ s.time.t →
      let a := (s.port p).addr
      let path := if c.pathB then c.blk.pathB else c.blk.pathA
      (linkUp s p = true → holdsVer a path.ipv6 = true →
        ∃ t f, exec (.copyDeparture p) s = .next t ∧ (t.port p).copies = (s.port p).copies.erase c ∧
          MsixAfter (s.out ++ [.ethCopy p c (copyFrame p c (if path.ipv6 then a.ip6 else a.ip4) f (bufRead s c.handle 16 c.len))]) t.out ∧
          t.fld (fNetTxFramesCount p) = (s.fld (fNetTxFramesCount p) + 1) % 2 ^ 32) ∧
      (linkUp s p = false ∨ holdsVer a path.ipv6 = false →
        ∃ t, exec (.copyDeparture p) s = .next t ∧ (t.port p).copies = (s.port p).copies.erase c ∧ MsixAfter s.out t.out ∧
          t.fld (fNetTxLinkdownCount p) = (s.fld (fNetTxLinkdownCount p) + 1) % 2 ^ 32))) ∧
  (∀ (s : State) (fl : Nat) (x : TxFlow), mapFind? fl s.net.tx = some x →
    let can (k : FlowPath) : Bool := k.present && linkUp s k.port && holdsVer (s.port k.port).addr k.ipv6
    let msg (b : Bool) : OutMsg := .rtcp fl b x.blk.ssrc (s.time.t / 2 ^ 32) ((s.tick * x.blk.rate / 48000 + x.blk.offset) % 2 ^ 32) x.packets x.octets
    (x.blk.rtcpEn = false ∨ s.glb.svcDown = true → exec (.rtcpSenderReport fl) s = .next s) ∧
    (x.blk.rtcpEn = true → s.glb.svcDown = false →
      ((∀ b, (txPath x.blk b).present = true → s.flag (fNetCtlLoop (txPath x.blk b).port) = false) →
        exec (.rtcpSenderReport fl) s = .next { s with out := s.out ++
          ((if can x.blk.pathA then [msg false] else []) ++ (if can x.blk.pathB then [msg true] else [])) }) ∧
      ∃ t, exec (.rtcpSenderReport fl) s = .next t ∧ Kept [.regs, .out, .pmu, .hif, .net, .free] s t ∧ t.net.tx = s.net.tx ∧ s.out <+: t.out ∧
        ∀ b, can (txPath x.blk b) = true → msg b ∈ t.out))

/-- FLOW.OPEN, CLOSE, STATS and PORT_ADDR change one flow or port (R71, R86, R87, R94, R95, R477; derived).
With KCI ready and a block that passes its checks, a flow opens with its block, joining its multicast groups, or answers E_STATE where its id, key or
queue forbids it, and a block of length 0 is E_ZERO; a close forgets it and its staging copy, and drops what its queue holds; STATS returns the record and clears; PORT_ADDR sets the addresses of one port.
Completion is stated for the constructors flowOpenRx, flowOpenTx, flowPortAddr, flowClose, flowStats. -/
def Obligations.FlowCommands : Prop :=
  ∀ (s : State) (h : KciHdr),
    (∀ b : RxBlock, kciReady 0x0401 h (keyFlow false b.flow) s = true → ∃ t, exec (.flowOpenRx h 0 b) s = .next t ∧ Done 0x0401 h 1 [] [] [] s t) ∧
    (∀ b : TxBlock, kciReady 0x0402 h (keyFlow true b.flow) s = true → ∃ t, exec (.flowOpenTx h 0 b) s = .next t ∧ Done 0x0402 h 1 [] [] [] s t) ∧
    (∀ b : PortAddr, kciReady 0x0403 h none s = true → ∃ t, exec (.flowPortAddr h 0 b) s = .next t ∧ Done 0x0403 h 1 [] [] [] s t) ∧
    (∀ b : RxBlock, kciReady 0x0401 h (keyFlow false b.flow) s = true → firstErr (rxChecks s b) = none →
      (mapFind? b.flow s.net.rx = none → keyTaken s b.flow b = false → queueIs s b.queue .ordered = true →
        ∃ t, exec (.flowOpenRx h 0x78 b) s = .next t ∧ Completed 0x0401 h 0 [] s t ∧
          t.net.rx = mapInsert b.flow { blk := b } s.net.rx ∧ t.net.tx = s.net.tx) ∧
      (mapFind? b.flow s.net.rx = none → keyTaken s b.flow b = false → queueIs s b.queue .ordered = true →
        (∀ k ∈ [b.keyA, b.keyB], k.present = true → isGroup k.ipv6 k.dst = true → s.flag (fNetCtlLoop k.port) = false) →
        ∃ t, exec (.flowOpenRx h 0x78 b) s = .next t ∧
          Done 0x0401 h 0 [] ([b.keyA, b.keyB].filterMap (fun k => if k.present && isGroup k.ipv6 k.dst then
            some (.join k.port k.ipv6 k.dst (if k.srcAny then none else some k.src)) else none)) [] s t ∧
          Kept [.regs, .hif, .out, .net] s t ∧ t.net = { s.net with rx := mapInsert b.flow { blk := b } s.net.rx }) ∧
      ((mapFind? b.flow s.net.rx).isSome = true ∨ keyTaken s b.flow b = true ∨ queueIs s b.queue .ordered = false →
        ∃ t, exec (.flowOpenRx h 0x78 b) s = .next t ∧ Done 0x0401 h 4 [] [] [] s t ∧ Kept [.regs, .hif, .out] s t)) ∧
    (∀ b : TxBlock, kciReady 0x0402 h (keyFlow true b.flow) s = true → firstErr (txChecks s b) = none →
      (mapFind? b.flow s.net.tx = none → queueIs s b.queue .fifo = true →
        ∃ t n, exec (.flowOpenTx h 0x70 b) s = .next t ∧ Done 0x0402 h 0 [] [] [] s t ∧ Kept [.regs, .hif, .out, .free, .net] s t ∧ n < 65536 ∧
          t.net = { s.net with tx := mapInsert b.flow { blk := b, seq := n } s.net.tx }) ∧
      ((mapFind? b.flow s.net.tx).isSome = true ∨ queueIs s b.queue .fifo = false →
        ∃ t, exec (.flowOpenTx h 0x70 b) s = .next t ∧ Done 0x0402 h 4 [] [] [] s t ∧ Kept [.regs, .hif, .out] s t)) ∧
    (∀ b : PortAddr, kciReady 0x0403 h none s = true → b.port < 4 → b.ip4 < 2 ^ 32 → b.pfx4 ≤ 32 → b.ip6 < 2 ^ 128 → b.pfx6 ≤ 128 →
      ∃ t, exec (.flowPortAddr h 36 b) s = .next t ∧ Done 0x0403 h 0 [] [] [] s t ∧ Kept [.regs, .hif, .out, .net] s t ∧
        t.port b.port = { s.port b.port with addr := b } ∧ (∀ q, q ≠ b.port → t.port q = s.port q) ∧ t.net.rx = s.net.rx ∧ t.net.tx = s.net.tx) ∧
    (∀ fl, fl < 16384 →
      (kciReady 0x0404 h (keyFlow false fl) s = true →
        ((mapFind? fl s.net.rx).isSome = true → ∃ t, exec (.flowClose h fl 0) s = .next t ∧ Done 0x0404 h 0 [] [] [] s t ∧
          Kept [.regs, .hif, .out, .net, .cfg] s t ∧ t.net = { s.net with rx := mapErase fl s.net.rx } ∧ mapFind? (2 ^ 28 + fl) t.cfg = none) ∧
        (mapFind? fl s.net.rx = none → ∃ t, exec (.flowClose h fl 0) s = .next t ∧ Done 0x0404 h 4 [] [] [] s t ∧ Kept [.regs, .hif, .out] s t)) ∧
      (kciReady 0x0404 h (keyFlow true fl) s = true → ∀ x q, mapFind? fl s.net.tx = some x → s.queue? x.blk.queue = some q →
        ∃ t q', exec (.flowClose h fl 1) s = .next t ∧ Completed 0x0404 h 0 [q.held.length] s t ∧
          t.net = { s.net with tx := mapErase fl s.net.tx } ∧ t.queue? x.blk.queue = some q' ∧ q'.held = []) ∧
      (kciReady 0x0405 h (keyFlow false fl) s = true → ∀ (x : RxFlow) (clear : Bool), mapFind? fl s.net.rx = some x →
        ∃ t y, exec (.flowStats h fl clear) s = .next t ∧
          Done 0x0405 h 0 [56] [.result h.raddr [x.a.rx, x.b.rx, x.a.format, x.b.format, bitOf x.a.up, bitOf x.b.up, x.a.down, x.b.down,
            x.a.ssrcChange, x.b.ssrcChange, (x.last % 2 ^ 32).toNat, x.peak, x.exceed, x.miss]] [] s t ∧
          Kept [.regs, .hif, .out, .net] s t ∧ mapFind? fl t.net.rx = some y ∧
          y = if clear then { x with a := { x.a with rx := 0, format := 0, down := 0, ssrcChange := 0 }
                                     b := { x.b with rx := 0, format := 0, down := 0, ssrcChange := 0 }, exceed := 0, miss := 0 } else x))

/-- Beats post to their groups, timers fire or fire late, and both are announced ahead (R150, R151, R152, R153, R154, R156, R157, R158, R159, R173;
derived).
A beat at its boundary posts its flag to each member, counting OVERLAP, and sets the next boundary; a wake lead wakes the clusters of the members and
a prefetch lead pages their contexts in; a held poster resumes where the ready store has room; a due timer posts its flag, or LATE where it is late
and says so, records itself where asked, and goes. Generators due at one tick beat in number order, and timers of several lists fire in list order.
Completion is stated for the constructors beat, beatPosterResume, beatWakeLead, prefetchNotice, timerFire, timerHeldRelease,
timerPrefetchLead. -/
def Obligations.BeatsAndTimers : Prop :=
  (∀ (s : State) (g : Nat),
    (canBeat s g = false → exec (.beat g) s = .next s ∧ exec (.beatWakeLead g) s = .next s ∧ exec (.prefetchNotice g) s = .next s) ∧
    (beatFirst s g = false → exec (.beat g) s = .next s) ∧
    (canBeat s g = true → beatFirst s g = true → -rateMax ≤ s.time.rate → s.time.rate ≤ rateMax → (s.gen g).newSet = none → (s.gen g).catchUp = none →
      ∃ t, exec (.beat g) s = .next t ∧ t.mtc = (s.gen g).next % 2 ^ 32 ∧ (t.gen g).next = ((s.gen g).next + (s.gen g).q) % 2 ^ 32) ∧
    (canBeat s g = true → beatFirst s g = true → (s.gen g).newSet = none → (s.gen g).catchUp = none → (s.gen g).next = s.mtc → (s.gen g).posting = [] →
      (s.gen g).waiting = [] → s.bull.poster = [] → (s.gen g).members.Nodup →
      (∀ n ∈ (s.gen g).members, ∃ d, s.node? n = some d ∧ plainPost d) →
      let f := 2 ^ (s.gen g).flag
      ∃ t, exec (.beat g) s = .next t ∧ Kept [.regs, .out, .hif, .bull, .pmu] s t ∧ t.bull.poster = [] ∧ (t.gen g).posting = [] ∧
        (∀ n, n ∉ (s.gen g).members → t.node? n = s.node? n) ∧
        ∀ n ∈ (s.gen g).members, ∀ d, s.node? n = some d → t.node? n = some { d with
          flags := d.flags ||| f, overlap := if (d.flags ||| d.recFlags) &&& f = 0 then d.overlap else (d.overlap + 1) % 65536 }) ∧
    (canBeat s g = true → s.fld fBullWakeLeadUs ≠ 0 → beatTime s g ≤ s.time.t + s.fld fBullWakeLeadUs * 1000 * nsUnit →
      ∃ t, exec (.beatWakeLead g) s = .next t ∧ Kept [.clu] s t ∧
        ∀ n ∈ (s.gen g).members, ∀ d, s.node? n = some d →
          ((s.cl d.set.home).pwr = .sleep → (s.cl d.set.home).waking = false →
            t.cl d.set.home = { s.cl d.set.home with waking := true, wakeAt := s.clk + 125 }) ∧
          ((s.cl d.set.home).pwr = .off → (s.cl d.set.home).waking = false →
            t.cl d.set.home = { s.cl d.set.home with waking := true, wakeAt := s.clk + 750 }) ∧
          ((s.cl d.set.home).pwr = .run → t.cl d.set.home = s.cl d.set.home)) ∧
    (∀ n d k, canBeat s g = true → s.fld fBullPfLeadNs ≠ 0 → beatTime s g ≤ s.time.t + s.fld fBullPfLeadNs * nsUnit →
      (s.gen g).members = [n] → mayPrefetch s n d → d.set.cls < 4 → prefetchTarget s n = some k →
      ∃ t, exec (.prefetchNotice g) s = .next t ∧ Prefetched n k s t ∧ t.bull = s.bull)) ∧
  (∀ s : State,
    (s.flag fBullCtlEn = false ∨ s.bull.poster = [] → exec .beatPosterResume s = .next s) ∧
    ∀ g n d, s.flag fBullCtlEn = true → s.bull.poster = [g] → (s.gen g).posting = [n] → (s.gen g).waiting = [] → s.node? n = some d →
      d.st ≠ .aborting →
      let f := 2 ^ (s.gen g).postFlag
      let ov := if (d.flags ||| d.recFlags) &&& f = 0 then d.overlap else (d.overlap + 1) % 65536
      (readies f d = true → storeFull s d.set.home = true → exec .beatPosterResume s = .next s) ∧
      (readies f d = true → storeFull s d.set.home = false →
        ∃ t, exec .beatPosterResume s = .next t ∧ t.bull.poster = [] ∧ (t.gen g).posting = [] ∧
          t.node? n = some { d with flags := d.flags ||| f, st := .ready, expired := false, overlap := ov } ∧
          t.readyQ d.set.home d.set.cls = s.readyQ d.set.home d.set.cls ++ [⟨n, s.clk, true⟩] ∧ ∀ j, j ≠ n → t.node? j = s.node? j) ∧
      (readies f d = false →
        ∃ t, exec .beatPosterResume s = .next t ∧ Kept [.regs, .out, .hif, .bull, .pmu] s t ∧ t.bull.poster = [] ∧ (t.gen g).posting = [] ∧
          t.node? n = some { d with flags := d.flags ||| f, overlap := ov } ∧ ∀ j, j ≠ n → t.node? j = s.node? j)) ∧
  (∀ (s : State) (i : Nat),
    (mapFind? i s.bull.timers = none ∨ s.flag fBullCtlEn = false → exec (.timerFire i) s = .next s) ∧
    (mapFind? i s.bull.timers = none → exec (.timerPrefetchLead i) s = .next s) ∧
    ∀ x, mapFind? i s.bull.timers = some x →
      (x.held = true ∨ timerFirst s x = false → exec (.timerFire i) s = .next s) ∧
      (∀ d k, timerFireTick x ≤ s.tick + 2 → mayPrefetch s x.target d → prefetchTarget s x.target = some k →
        ∃ t, exec (.timerPrefetchLead i) s = .next t ∧ Prefetched x.target k s t ∧ t.bull = s.bull) ∧
      (s.flag fBullCtlEn = true → (∀ y ∈ s.bull.timers, y.2.list = x.list → timerBefore y.2 x = false) → ∀ d, s.node? x.target = some d → plainPost d →
        let late : Int := s.tick - timerKey x
        let by_ := min late.toNat 16383
        let dropped := decide (0 < late) && x.dropLate
        let size := s.fld fBullTcrSizeEntries
        let head := s.fld fBullTcrHeadIndex
        let at_ := s.fld fBullTcrBaseLoAddr * 16 + s.fld fBullTcrBaseHiAddr * 2 ^ 32 + 16 * head
        let record := leBytes 4 (i + (if 0 < late then 7 else 0) * 65536 + bitOf dropped * 2 ^ 24) ++ leBytes 4 x.tag ++
          leBytes 4 (x.target + by_ * 2 ^ 18) ++ leBytes 4 x.due
        let fired (t : State) : Prop :=
          Kept [.regs, .out, .hif, .hbm, .bull, .pmu] s t ∧ mapFind? i t.bull.timers = none ∧
          (∀ j, j ≠ i → mapFind? j t.bull.timers = mapFind? j s.bull.timers) ∧
          t.node? x.target = some { d with flags := d.flags ||| (if dropped = true then 0x8000 else 2 ^ x.flag)
                                           late := if 0 < late then max d.late by_ else d.late } ∧
          (∀ j, j ≠ x.target → t.node? j = s.node? j) ∧
          t.fld fBullLateTimersCount = (s.fld fBullLateTimersCount + if 0 < late then 1 else 0) % 2 ^ 32 ∧
          (x.report = false → t.hbm = s.hbm ∧ t.fld fBullTcrHeadIndex = head) ∧
          (x.report = true → ringFull head (s.fld fBullTcrTailIndex) size = true → t.hbm = s.hbm ∧ t.fld fBullTcrHeadIndex = head ∧
            t.fld fBullTcrLostCount = (s.fld fBullTcrLostCount + 1) % 2 ^ 32 ∧ t.flag fBullIntStatTcrOvf = true) ∧
          (x.report = true → ringFull head (s.fld fBullTcrTailIndex) size = false → size ≤ 65536 →
            t.fld fBullTcrHeadIndex = (head + 1) % size ∧ t.flag fBullIntStatTcr = true ∧
            ∀ a, memRead t.hbm a = if at_ ≤ a ∧ a < at_ + 16 then record.getD (a - at_) 0 else memRead s.hbm a)
        (x.held = false → timerFirst s x = true → timerFireTick x ≤ s.tick → ∃ t, exec (.timerFire i) s = .next t ∧ fired t) ∧
        (x.held = true → (s.bull.timers.map (fun y => y.1)).Nodup →
          (∀ y ∈ s.bull.timers, y.2.list = x.list → y.1 ≠ i → timerBefore x y.2 = true) →
          ∃ t, exec (.timerHeldRelease x.list) s = .next t ∧ fired t))) ∧
  (∀ (s : State) (l : Nat), (∀ y ∈ s.bull.timers, y.2.list = l → y.2.held = false) → exec (.timerHeldRelease l) s = .next s)

/-- Dispatch, stealing, aborts and re-runs take a node through its run (R136, R139, R140, R141, R142, R146, R147, R148, R149, R171, R176, R214;
derived).
The oldest ready node of the highest class goes to its resident core, with its flags consumed, its registers set and its queue left; a node whose
steal age is over goes to the lowest core whose choice it is; a node whose code is KML's runs its program at once (assumption 33); a run over its budget is stopped; an undone run goes back to READY, to DISARMED or to its ALT
as FPOL says; a DONE whose commits had to wait goes on.
Completion is stated for the constructors nodeDispatch, stealAgeExpiry, budgetOverrun, abortUndoComplete, rerunReadyEntry, doneCommitResume,
armedReadyEntry, affinityHoldExpiry. -/
def Obligations.NodeEvents : Prop :=
  (∀ (s : State) (c : Nat), (c < 16 → s.flag fBullCtlEn = false) → ∀ kml, exec (.nodeDispatch c kml) s = .next s) ∧
  (∀ (s u : State) (i : Bool → Instr), ((∃ c, i = .nodeDispatch c) ∨ (∃ n, i = .stealAgeExpiry n) ∨ ∃ n, i = .affinityHoldExpiry n) →
    exec (i false) s = .next u →
      (newRuns s u = [] → exec (i true) s = .next u) ∧ ∀ k, newRuns s u = [k] → exec (i true) s = .next (kmlStart k u)) ∧
  (∀ (s : State) (c n : Nat) (rest : List Nat) (d : NodeD) (r : Res), c < 16 → s.flag fBullCtlEn = true → storeOrder s c = n :: rest →
    s.node? n = some d → d.set.home = c → d.staged = none → d.hold = none → d.writeBack = none → mapFind? n s.gh.pageIns = none →
    s.resOf n = some r → r.resv = false →
    (canTake s r.core n d = true → r.core / 16 = c →
      ∃ t, exec (.nodeDispatch c false) s = .next t ∧ Dispatched n r.core r.slot d s t ∧ Kept [.free, .regs, .out, .hif, .bull, .gh, .core, .clu, .pmu] s t ∧
        t.fld fGhAffHitCount = (s.fld fGhAffHitCount + 1) % 2 ^ 32) ∧
    (∀ k ks, takers s c n d = k :: ks → r.core ∉ takers s c n d → d.expired = true →
      ∃ t p, exec (.nodeDispatch c false) s = .next t ∧ t.resOf n = none ∧ mapFind? n t.gh.pageIns = some p ∧ p.core = k ∧ p.pre = false ∧ p.resv = true ∧
        t.node? n = some d)) ∧
  (∀ (s : State) (n : Nat),
    (s.node? n = none ∨ s.flag fBullCtlEn = false → ∀ kml, exec (.stealAgeExpiry n kml) s = .next s) ∧
    ∀ d e, s.flag fBullCtlEn = true → s.node? n = some d → (s.readyQ d.set.home d.set.cls).find? (fun x => x.node == n) = some e →
      e.since + nsCycles (s.fld fBullStealAge) ≤ s.clk →
      ((∀ k, k < 256 → k / 16 ≠ d.set.home → stealPick s k ≠ some n) → ∀ kml, exec (.stealAgeExpiry n kml) s = .next s) ∧
      ∀ k r, d.staged = none → d.hold = none → d.writeBack = none → mapFind? n s.gh.pageIns = none → s.resOf n = some r → r.resv = false →
        k < 256 → k / 16 ≠ d.set.home → stealPick s k = some n → (∀ j, j < k → j / 16 ≠ d.set.home → stealPick s j ≠ some n) →
        (r.core = k → ∃ t, exec (.stealAgeExpiry n false) s = .next t ∧ Dispatched n k r.slot d s t) ∧
        (r.core ≠ k → ∃ t p, exec (.stealAgeExpiry n false) s = .next t ∧ t.resOf n = none ∧ mapFind? n t.gh.pageIns = some p ∧ p.core = k ∧
          p.resv = true ∧ t.node? n = some d)) ∧
  (∀ (s : State) (k : Nat),
    ((s.cor k).mode ≠ .run ∨ (s.cor k).stall = .aborting → exec (.budgetOverrun k) s = .next s) ∧
    ∀ d, (s.cor k).mode = .run → (s.cor k).stall ≠ .aborting → s.node? (s.cor k).node = some d →
      d.set.budget * 256 ≤ (s.clk - d.runStart) * coreCycles → d.runStart ≤ s.clk →
      ∃ t, exec (.budgetOverrun k) s = .next t ∧ Stopped k 8 d s t ∧ t.fld fBullBudgetOvrCount = (s.fld fBullBudgetOvrCount + 1) % 2 ^ 32) ∧
  (∀ (s : State) (n : Nat),
    (∀ d, s.node? n = some d → d.st ≠ .aborting → exec (.abortUndoComplete n) s = .next s) ∧
    ∀ d r, s.node? n = some d → d.st = .aborting → d.undo = some r → d.recCancel = false → (s.cor d.runCore).mode = .run →
      (s.cor d.runCore).stall = .aborting → (s.cor d.runCore).node = n → (spareCores s (d.runCore / 16)).contains d.runCore = false →
      let back := { d with flags := d.flags ||| d.consumed ||| d.recFlags, recFlags := 0, recArm := false, undo := none, aborts := (d.aborts + 1) % 65536
                           abortWait := .none }
      (d.rerun = false → d.set.fpol < 2 → storeFull s d.set.home = false →
        ∃ t, exec (.abortUndoComplete n) s = .next t ∧ t.node? n = some { back with st := .ready, rerun := true, barred := some d.runCore, expired := false } ∧
          t.readyQ d.set.home d.set.cls = ⟨n, s.clk, false⟩ :: s.readyQ d.set.home d.set.cls ∧
          t.fld fBullAbortsCount = (s.fld fBullAbortsCount + 1) % 2 ^ 32 ∧ (t.cor d.runCore).mode = .wait ∧
          (t.cor d.runCore).pc = homePc s d.runCore ∧ (t.cor d.runCore).run = {}) ∧
      ((2 ≤ d.set.fpol ∨ d.rerun = true ∧ d.set.fpol ≠ 1) → d.recArm = false → d.staged = none → noUnload s = true →
        (∀ a ∈ s.bull.alts, a.source ≠ n) →
        ∃ t, exec (.abortUndoComplete n) s = .next t ∧ t.node? n = some { back with st := .disarmed, rerun := false, barred := none } ∧
          t.bull.ready = s.bull.ready ∧ t.fld fBullAbortsCount = (s.fld fBullAbortsCount + 1) % 2 ^ 32 ∧ (t.cor d.runCore).mode = .wait) ∧
      (∀ x, d.rerun = true → d.set.fpol = 1 → d.recArm = false → d.staged = none → noUnload s = true → d.set.alt ≠ n →
        s.node? d.set.alt = some x → plainPost x → d.consumed ≠ 0 → (∀ a ∈ s.bull.alts, a.source ≠ n) →
        ∃ t, exec (.abortUndoComplete n) s = .next t ∧ t.node? d.set.alt = some { x with flags := x.flags ||| d.consumed } ∧
          t.bull.alts = s.bull.alts ∧ t.node? n = some { back with flags := d.flags ||| d.recFlags, st := .disarmed, rerun := false, barred := none })) ∧
  (∀ (s : State) (n : Nat), (∀ d, s.node? n = some d → d.abortWait = .none) →
    ((∀ a ∈ s.bull.alts, a.source ≠ n) → exec (.rerunReadyEntry n) s = .next s) ∧
    ∀ a x, s.bull.alts.find? (fun a => a.source == n) = some a → s.node? a.target = some x → plainPost x →
      ∃ t, exec (.rerunReadyEntry n) s = .next t ∧ Kept [.bull] s t ∧ t.bull.alts = s.bull.alts.erase a ∧ t.bull.ready = s.bull.ready ∧
        t.node? a.target = some { x with flags := x.flags ||| a.flags } ∧ ∀ j, j ≠ a.target → t.node? j = s.node? j) ∧
  (∀ (s : State) (n : Nat) (d : NodeD), s.node? n = some d →
    (d.abortWait = .rerun → d.recCancel = false →
      (storeFull s d.set.home = false → ∃ t, exec (.rerunReadyEntry n) s = .next t ∧ t.node? n = some { d with
          st := .ready, expired := false, rerun := true, barred := some d.runCore, abortWait := .none, recArm := false
          flags := d.flags ||| d.recFlags, recFlags := 0 } ∧
        t.readyQ d.set.home d.set.cls = ⟨n, s.clk, false⟩ :: s.readyQ d.set.home d.set.cls) ∧
      (storeFull s d.set.home = true → ∃ t, exec (.rerunReadyEntry n) s = .next t ∧ OnlyNode n d s t ∧ Kept [.bull] s t)) ∧
    (¬ (d.st = .armed ∧ satisfied d = true) ∨ storeFull s d.set.home = true → exec (.armedReadyEntry n) s = .next s) ∧
    (d.st = .armed → satisfied d = true → storeFull s d.set.home = false →
      ∃ t, exec (.armedReadyEntry n) s = .next t ∧ Kept [.regs, .out, .hif, .bull, .gh, .clu] s t ∧ RegsKept contextRegs s t ∧ t.bull = readied n d false false s)) ∧
  (∀ (s : State) (k : Nat),
    ((s.cor k).mode ≠ .doneWait ∨ (s.cor k).commit = [] → exec (.doneCommitResume k) s = .next s) ∧
    ∀ d a f x rest, (s.cor k).mode = .doneWait → (s.cor k).commit = .sig a f :: rest → s.node? (s.cor k).node = some d → a ≠ (s.cor k).node →
      s.node? a = some x →
      (readies f x = true → storeFull s x.set.home = true →
        ∃ t, exec (.doneCommitResume k) s = .next t ∧ Kept [.core] s t ∧ ∀ j, t.cor j = s.cor j) ∧
      (rest = [] → plainPost x → d.st = .running → d.runCore = k → satisfied d = false → (spareCores s (k / 16)).contains k = false →
        ∃ t, exec (.doneCommitResume k) s = .next t ∧ t.node? a = some { x with flags := x.flags ||| f } ∧
          t.node? (s.cor k).node = some { d with st := .armed, rerun := false, barred := none, runs := (d.runs + 1) % 2 ^ 32 } ∧
          t.cor k = atHome s k (s.cor k) ∧ t.fld (fCoreRunsCount k) = (s.fld (fCoreRunsCount k) + 1) % 2 ^ 32))

/-- Page-ins, write-backs, moves and sweeps complete as they found memory (R103, R104, R166, R167, R170, R173, R174, R175, R188, R210, R216, R457;
derived).
A page-in makes the context resident with the bytes of its current images; a write-back puts the dirty pages into the other images and raises GEN, or
fails after three tries or over a word that cannot be read; a move copies its words; the ledger and tag sweeps count and mark what does not agree; a refill fills the head window; a
Scout interval tags its core. Where a Scout sequence shifts is the model's (assumption 14).
Completion is stated for the constructors headWindowRefill, pageInComplete, pageInSlotFree, writeBackComplete, ledgerSweep,
tagSweepComplete, moveComplete, scoutIntervalExpiry. -/
def Obligations.ContextsAndSweeps : Prop :=
  (∀ (s : State) (n : Nat) (d : NodeD), s.node? n = some d →
    (d.hold = none → ∀ kml, exec (.affinityHoldExpiry n kml) s = .next s) ∧
    (∀ k since, d.hold = some (k, since) → canTake s k n d = true → ∀ kml, exec (.affinityHoldExpiry n kml) s = .next s) ∧
    (∀ k since, d.hold = some (k, since) → canTake s k n d = false → since + nsCycles (s.fld fGhAffWinNs) ≤ s.clk →
      (s.flag fBullCtlEn = false →
        ∃ t, exec (.affinityHoldExpiry n false) s = .next t ∧ Kept [.regs, .bull] s t ∧ RegsKept [fGhAffExpireCount.addr] s t ∧
          OnlyNode n { d with hold := none, expired := true } s t ∧ t.fld fGhAffExpireCount = (s.fld fGhAffExpireCount + 1) % 2 ^ 32) ∧
      (∀ j js r, s.flag fBullCtlEn = true → takers s d.set.home n d = j :: js → s.resOf n = some r → r.resv = false → r.core ∉ j :: js →
        d.writeBack = none → mapFind? n s.gh.pageIns = none →
        ∃ t p, exec (.affinityHoldExpiry n false) s = .next t ∧ OnlyNode n { d with hold := none, expired := true } s t ∧ t.resOf n = none ∧
          mapFind? n t.gh.pageIns = some p ∧ p.core = j ∧ p.pre = false ∧ p.resv = true)) ∧
    (mapFind? n s.gh.pageIns = none → (∀ ok, exec (.pageInComplete n ok) s = .next s) ∧ exec (.pageInSlotFree n) s = .next s) ∧
    (∀ p, mapFind? n s.gh.pageIns = some p →
      (p.slot ≠ none → exec (.pageInSlotFree n) s = .next s) ∧
      (p.slot = none → (∀ ok, exec (.pageInComplete n ok) s = .next s) ∧
        (chooseSlot s p.core (classPages d.ctxClass) = none → exec (.pageInSlotFree n) s = .next s) ∧
        (p.pre = true → prefetchFirst s n p = false → exec (.pageInSlotFree n) s = .next s) ∧
        (∀ b, chooseSlot s p.core (classPages d.ctxClass) = some b → p.pre = false ∨ prefetchFirst s n p = true →
          ∃ t, exec (.pageInSlotFree n) s = .next t ∧ Kept [.regs, .gh] s t ∧ RegsKept [fGhPfWasteCount.addr] s t ∧
            mapFind? n t.gh.pageIns = some { p with slot := some b, since := s.clk })) ∧
      (∀ sl, p.slot = some sl →
        (∃ t, exec (.pageInComplete n true) s = .next t ∧ Kept [.regs, .out, .hif, .gh, .core, .pmu] s t ∧ mapFind? n t.gh.pageIns = none ∧
          t.resOf n = some { core := p.core, slot := sl, pre := p.pre, resv := p.resv, disp := if d.dispatched then d.runStart else 0 } ∧
          t.fld fGhPageinCount = (s.fld fGhPageinCount + classPages d.ctxClass) % 2 ^ 32 ∧
          ∀ i b, i < classPages d.ctxClass → b < 0x2000 →
            memRead (t.cor p.core).ram (0x20000 + 0x2000 * (sl + i) + b) =
              memRead s.hbm (d.ctxBase * 0x2000 + (2 * i + d.sel / 2 ^ i % 2) * 0x2000 + b)) ∧
        (s.flag fUmpCtlEccEn = false → ∃ t, exec (.pageInComplete n true) s = .next t ∧ exec (.pageInComplete n false) s = .next t) ∧
        (s.flag fUmpCtlEccEn = true → d.st = .armed → d.staged = none → noUnload s = true →
          ∃ t, exec (.pageInComplete n false) s = .next t ∧ mapFind? n t.gh.pageIns = none ∧ t.resOf n = s.resOf n ∧
            t.node? n = some { d with st := .disarmed, rerun := false, barred := none } ∧ UmpCounted 1 s t))) ∧
    (∀ fs, d.writeBack = none ∨ s.resOf n = none → exec (.writeBackComplete n fs) s = .next s) ∧
    (∀ dirty r fs, d.writeBack = some dirty → s.resOf n = some r → d.evicting = false → d.unloading = false →
      (fs < 3 → pagesBad s r.core r.slot dirty = false → isWorking s r.core = true →
        ∃ t, exec (.writeBackComplete n fs) s = .next t ∧ Kept [.regs, .out, .hif, .hbm, .gh, .bull, .pmu] s t ∧ t.resOf n = some r ∧
          OnlyNode n { d with sel := dirty.foldl (fun x p => x ^^^ 2 ^ p) d.sel, gen := (d.gen + 1) % 65536, writeBack := none } s t ∧
          t.fld fGhWritebackCount = (s.fld fGhWritebackCount + dirty.length) % 2 ^ 32 ∧
          (dirty.Nodup → ∀ i ∈ dirty, ∀ b, b < 0x2000 →
            memRead t.hbm (d.ctxBase * 0x2000 + (2 * i + (1 - d.sel / 2 ^ i % 2)) * 0x2000 + b) =
              memRead (s.cor r.core).ram (0x20000 + 0x2000 * (r.slot + i) + b))) ∧
      (3 ≤ fs ∨ pagesBad s r.core r.slot dirty = true → d.st = .armed ∨ d.st = .running ∨ d.st = .cancelPending → d.staged = none → noUnload s = true →
        ∃ t, exec (.writeBackComplete n fs) s = .next t ∧ t.resOf n = none ∧
          t.node? n = some { d with writeBack := none, st := .disarmed, rerun := false, barred := none } ∧
          t.fld fGhWbFailCount = (s.fld fGhWbFailCount + 1) % 2 ^ 32 ∧ t.flag fGhIntStatWbFail = true ∧ UmpCounted 1 s t))) ∧
  (∀ s : State,
    (s.flag fSeedCtlEn = false → exec .ledgerSweep s = .next s ∧ ∀ ms lost, exec (.tagSweepComplete ms lost) s = .next s) ∧
    ((s.seed.accts.map (fun a => a.2.held)).foldl (· + ·) 0 = s.seed.ownedA → exec .ledgerSweep s = .next s) ∧
    (s.flag fSeedCtlEn = true → (s.seed.accts.map (fun a => a.2.held)).foldl (· + ·) 0 ≠ s.seed.ownedA →
      ∃ t, exec .ledgerSweep s = .next t ∧ t.fld fSeedMismatchCount = (s.fld fSeedMismatchCount + 1) % 2 ^ 32 ∧ UmpCounted 1 s t ∧
        t.seed.tags = s.seed.tags ∧ t.seed.freeA = s.seed.freeA) ∧
    (∀ ms, s.flag fSeedCtlEn = true → (∀ a, a < 4096 → ownedTags s a = (s.acct a).held) →
      s.seed.freeA + s.seed.tags.countP (fun t => t.2.st != .free) = poolSize s →
      (∃ t, exec (.tagSweepComplete ms []) s = .next t ∧ Kept [.regs] s t ∧ RegsKept [fSeedSweepMs.addr] s t ∧ t.fld fSeedSweepMs = min ms 65535) ∧
      ∀ g, s.flag fUmpCtlEccEn = true → (s.tag g).st ≠ .free →
        ∃ t, exec (.tagSweepComplete ms [g]) s = .next t ∧ t.fld fSeedSweepMs = min ms 65535 ∧ t.seed.tags = s.seed.tags ∧ UmpCounted 1 s t ∧
          t.acct (s.tag g).owner = { s.acct (s.tag g).owner with suspect := true } ∧ t.fld fSeedMismatchCount = s.fld fSeedMismatchCount) ∧
    (∀ ms lost, s.flag fUmpCtlEccEn = false → ∃ t, exec (.tagSweepComplete ms lost) s = .next t ∧ exec (.tagSweepComplete ms []) s = .next t) ∧
    (∀ ms a, s.flag fSeedCtlEn = true → a < 4096 → ownedTags s a ≠ (s.acct a).held → (∀ j, j < 4096 → j ≠ a → ownedTags s j = (s.acct j).held) →
      ∃ t, exec (.tagSweepComplete ms []) s = .next t ∧ t.fld fSeedSweepMs = min ms 65535 ∧ t.acct a = { s.acct a with suspect := true } ∧
        t.fld fSeedMismatchCount = (s.fld fSeedMismatchCount + 1) % 2 ^ 32 ∧ UmpCounted 1 s t)) ∧
  (∀ (s : State) (q : Nat),
    (s.queue? q = none → exec (.headWindowRefill q) s = .next s) ∧
    ∀ x, s.queue? q = some x →
      (x.mode = .async ∨ 4 < x.headWin ∨ x.middle = 0 → ∃ t, exec (.headWindowRefill q) s = .next t ∧ Kept [.mq] s t ∧ OnlyQueue q (some x) s t) ∧
      (x.mode ≠ .async → x.headWin ≤ 4 → 0 < x.middle →
        ∃ t y, exec (.headWindowRefill q) s = .next t ∧ Kept [.regs, .out, .hif, .mq, .pmu] s t ∧ OnlyQueue q (some y) s t ∧
          y = { x with headWin := y.headWin, tailWin := y.tailWin } ∧
          (4 < x.middle → y.headWin = x.headWin + 4 ∧ y.tailWin = x.tailWin) ∧ (x.middle ≤ 4 → y.headWin = min 8 x.held.length ∧ y.middle = 0))) ∧
  (∀ (s : State) (k : Nat),
    ((s.cor k).moves = [] ∨ (s.cor k).mode ≠ .run → ∀ ok, exec (.moveComplete k ok) s = .next s) ∧
    ∀ m rest, (s.cor k).moves = m :: rest → (s.cor k).mode = .run →
      ((s.cor k).stall = .none → m.hit = [] → m.toBuf = false → m.la % 4 = 0 → localOk (s.cor k) m.la m.len = true →
        ∃ t, exec (.moveComplete k true) s = .next t ∧ Kept [.regs, .out, .hif, .core, .pmu] s t ∧ (∀ j, j ≠ k → t.cor j = s.cor j) ∧
          (t.cor k).moves = rest ∧ (t.cor k).moved = (s.cor k).moved + m.len ∧ (t.cor k).pc = (s.cor k).pc ∧
          ∀ i, i < m.len / 4 → lramWord (t.cor k) (m.la + 4 * i) = bufWord s m.handle (m.ofs + 4 * i)) ∧
      ((s.cor k).stall = .xwait → rest = [] → m.hit = [] → m.toBuf = false → (s.cor k).loops = [] →
        ∃ t, exec (.moveComplete k true) s = .next t ∧ (t.cor k).moves = [] ∧ (t.cor k).stall = .none ∧ (t.cor k).pc = ((s.cor k).pc + 4) % 2 ^ 32) ∧
      (s.flag fUmpCtlEccEn = false → ∃ t, exec (.moveComplete k true) s = .next t ∧ exec (.moveComplete k false) s = .next t) ∧
      (∀ d, s.flag fUmpCtlEccEn = true → s.node? (s.cor k).node = some d → ∃ t, exec (.moveComplete k false) s = .next t ∧ Stopped k 5 d s t)) ∧
  (∀ (s : State) (k : Nat), k < 256 → s.flag (fScoutCtlEn k) = true → (s.cor k).mode = .run →
    ((s.scoutOf k).full = true → exec (.scoutIntervalExpiry k) s = .next s) ∧
    ((s.scoutOf k).full = false →
      ∃ t, exec (.scoutIntervalExpiry k) s = .next t ∧ Kept [.scout] s t ∧ t.scoutOf k = { s.scoutOf k with tagged := true, lfsr := lfsrStep (s.scoutOf k).lfsr } ∧
        ∀ j, j ≠ k → t.scoutOf j = s.scoutOf j))

/-- Clusters sleep, go off and wake, and their settings change them (R23, R448, R492, R493, R494, R495, R496; derived).
A cluster idle for the delay enters SLEEP, and OFF where no node of it is current, unless it wakes soon; a wake ends in IDLE, or in RUN under LIMIT =
RUN, with the local RAM of a cluster that was OFF empty and its cores at their home programs; LIMIT, SPARES and HOME.PC act at once on the cluster or
core they name. That the registers of such a core are zero is the model's (assumption 15).
Completion is stated for the constructors clusterSleepEntry, clusterOffEntry, clusterWakeComplete, clunPwrLimitWrite, clunSparesCountWrite,
clunCmHomeWrite. -/
def Obligations.ClusterPower : Prop :=
  (∀ (s : State) (n : Nat),
    (n < 16 → (s.cl n).pwr = .idle → 2 ≤ s.fld (fCluPwrLimit n) → (s.cl n).since + s.fld fGlbPwrDelaySleep * 25 ≤ s.clk →
      (wakeWithin s n 15 = false → ∃ t, exec (.clusterSleepEntry n) s = .next t ∧ Kept [.clu] s t ∧ t.cl n = enteredPwr n .sleep s ∧
        ∀ j, j ≠ n → t.cl j = s.cl j) ∧
      (wakeWithin s n 15 = true → exec (.clusterSleepEntry n) s = .next s)) ∧
    ((s.cl n).pwr ≠ .idle ∨ s.fld (fCluPwrLimit n) < 2 → exec (.clusterSleepEntry n) s = .next s) ∧
    (n < 16 → (s.cl n).pwr = .sleep → (s.cl n).waking = false → s.fld (fCluPwrLimit n) = 3 →
      (s.cl n).since + s.fld fGlbPwrDelayOff * 25 ≤ s.clk →
      (wakeWithin s n 40 = false → mayOff s n = true →
        ∃ t, exec (.clusterOffEntry n) s = .next t ∧ (t.cl n).pwr = .off ∧ (t.cl n).data = (s.cl n).data ∧ t.bull = s.bull ∧ t.clk = s.clk ∧
          (∀ m r, t.resOf m = some r → r.core / 16 ≠ n) ∧
          (∀ k, k / 16 = n → (t.cor k).ram = [] ∧ (t.cor k).filled = [] ∧ (t.cor k).blocked = false ∧
            (t.cor k).mode = if isWorking s k = true ∧ (s.cor k).mode = .wait then .off else (s.cor k).mode) ∧
          ∀ k, k / 16 ≠ n → t.cor k = s.cor k) ∧
      (mayOff s n = false → exec (.clusterOffEntry n) s = .next s)) ∧
    ((s.cl n).pwr ≠ .sleep ∨ s.fld (fCluPwrLimit n) ≠ 3 → exec (.clusterOffEntry n) s = .next s) ∧
    ((s.cl n).waking = false → exec (.clusterWakeComplete n) s = .next s) ∧
    ((s.cl n).waking = true → (s.cl n).wakeAt ≤ s.clk →
      ∃ t, exec (.clusterWakeComplete n) s = .next t ∧ Kept [.clu, .core] s t ∧
        t.cl n = enteredPwr n (if s.fld (fCluPwrLimit n) = 0 then .run else .idle) s ∧ (∀ j, j ≠ n → t.cl j = s.cl j) ∧
        ((s.cl n).pwr ≠ .off → t.core = s.core) ∧
        ((s.cl n).pwr = .off → ∀ k, k / 16 = n →
          ((s.cor k).mode = .retired ∨ (s.cor k).mode = .halted → t.cor k = s.cor k) ∧
          ((s.cor k).mode ≠ .retired → (s.cor k).mode ≠ .halted →
            (t.cor k).mode = .wait ∧ (t.cor k).pc = homePc s k ∧ (t.cor k).ram = [] ∧ (t.cor k).loops = [] ∧
              (t.cor k).node = (s.cor k).node ∧ (t.cor k).moved = (s.cor k).moved)))) ∧
  (∀ (s : State) (path : BusPath) (n : Nat) (val : Word), n < 16 →
    (reaches s (fCluPwrLimit n).addr = true →
      ∃ t, exec (.clunPwrLimitWrite path n val) s = .next t ∧ Kept [.regs, .clu] s t ∧ RegsKept [(fCluPwrLimit n).addr] s t ∧
        t.fld (fCluPwrLimit n) = bits val 4 2 ∧ (∀ j, j ≠ n → t.cl j = s.cl j) ∧
        ((s.cl n).pwr = .idle → bits val 4 2 = 0 → t.cl n = enteredPwr n .run s) ∧
        ((s.cl n).pwr = .idle → bits val 4 2 ≠ 0 → t.cl n = s.cl n) ∧
        ((s.cl n).pwr = .sleep → (s.cl n).waking = false →
          t.cl n = if bits val 4 2 < 2 then { s.cl n with waking := true, wakeAt := s.clk + 125 } else s.cl n) ∧
        ((s.cl n).pwr = .off → (s.cl n).waking = false →
          t.cl n = if bits val 4 2 < 3 then { s.cl n with waking := true, wakeAt := s.clk + 750 } else s.cl n) ∧
        ((s.cl n).pwr = .run → bits val 4 2 = 0 → t.cl n = s.cl n)) ∧
    (reaches s (fCluSparesCount n).addr = true →
      ∃ t, exec (.clunSparesCountWrite path n val) s = .next t ∧ Kept [.regs, .out, .hif, .gh, .clu, .pmu] s t ∧
        t.fld (fCluSparesCount n) = (if bits val 0 3 ≤ 4 then bits val 0 3 else s.fld (fCluSparesCount n)) ∧
        ∀ k ∈ workingCores s n, isWorking t k = false → (s.cor k).mode ≠ .run → (s.cor k).mode ≠ .doneWait →
          (∀ p ∈ t.gh.pageIns, p.2.core ≠ k) ∧
          ∀ m r, t.resOf m = some r → r.core = k → ∃ d, s.node? m = some d ∧ d.writeBack ≠ none)) ∧
  (∀ (s : State) (path : BusPath) (k : Nat) (val : Word), k < 256 → reaches s (fCoreHomePc k).addr = true →
    ∃ t, exec (.clunCmHomeWrite path k val) s = .next t ∧ Kept [.regs, .core] s t ∧ RegsKept [(fCoreHomePc k).addr] s t ∧
      homePc t k = val.toNat / 4 * 4 ∧ (∀ j, j ≠ k → t.cor j = s.cor j) ∧
      ((s.cor k).mode ≠ .halted → t.cor k = s.cor k) ∧
      ((s.cor k).mode = .halted → (t.cor k).mode = (if (s.cl (k / 16)).pwr = .off then .off else .wait) ∧ (t.cor k).pc = val.toNat / 4 * 4 ∧
        (t.cor k).loops = [] ∧ (t.cor k).blocked = false ∧ (t.cor k).stall = .none))

/-- Host writes reach their register, and bad accesses are recorded (R11, R38, R130, R192, R324, R331, R419, R446, R464, R466, R467, R471; derived).
A register write changes its writable fields and nothing else; a 64-bit PCIe access is two 32-bit ones, the lower first; a write before the block may be reached, with fewer than four bytes, or to a reserved
offset is recorded once in the error registers and counted; enables, resets and arms act as their rows say; the SMBus pair writes and reads through
the same path; BAR2 reaches HBM, and the tags in it, but not the descriptor region, which begins with READY (assumption 7), and no statement is made of bytes a block keeps
in its own form (assumption 8).
Completion is stated for the constructors kciDoorbell, smbusWrite, smbusReadAddress, smbusReadData, bar2Write, bar2Read, registerWrite,
scoutCtlRelWrite, rfpnDcbClrWrite, umpInjectArmWrite, seedPoolGranWrite, madiPortEnable, flcEnable, reservedRegisterRead. -/
def Obligations.HostAccesses : Prop :=
  (∀ (s : State) (path : BusPath) (off be : Nat) (val : Word),
    let a := off / 4 * 4
    (reaches s a = false → exec (.registerWrite path off be val none) s = .next s ∧
      exec (.reservedRegisterRead path off false) s = .next { s with hif := { s.hif with rd := [0] } }) ∧
    (reaches s a = true → be ≠ 15 → ∃ t, exec (.registerWrite path off be val none) s = .next t ∧ BadAccess 1 path a s t) ∧
    (reaches s a = true → isReserved a = true →
      (∃ t, exec (.registerWrite path off 15 val none) s = .next t ∧ BadAccess 2 path a s t) ∧
      (∃ t, exec (.reservedRegisterRead path off false) s = .next t ∧ BadAccess 2 path a s t ∧ t.hif.rd = [0])) ∧
    (∀ en v,
      (∃ u t, exec (.registerWrite .pcie off be val none) s = .next u ∧ exec (.registerWrite .pcie (off + 4) en v none) u = .next t ∧
        exec (.registerWrite .pcie off be val (some (en, v))) s = .next t) ∧
      ∃ t, exec (.registerWrite .smbus off be val none) s = .next t ∧ exec (.registerWrite .smbus off be val (some (en, v))) s = .next t) ∧
    ∀ i ∈ [Instr.rcCounterRead, .reservedRegisterRead, .pmuCounterLowRead],
      (∃ u t, exec (i .pcie off false) s = .next u ∧ exec (i .pcie (off + 4) false) u = .next t ∧
        exec (i .pcie off true) s = .next { t with hif := { t.hif with rd := u.hif.rd ++ t.hif.rd } }) ∧
      ∃ t, exec (i .smbus off false) s = .next t ∧ exec (i .smbus off true) s = .next t) ∧
  (∀ (s : State) (path : BusPath) (val : Word), s.ready = true → s.glb.tripped = false → 4 ≤ s.fld fGlbStatStep →
    (∃ t, exec (.registerWrite path fGhAffWinNs.addr 15 val none) s = .next t ∧ Kept [.regs] s t ∧ RegsKept [fGhAffWinNs.addr] s t ∧
      t.fld fGhAffWinNs = bits val 0 16) ∧
    (∃ t, exec (.registerWrite path fHifErrInfoValid.addr 15 val none) s = .next t ∧ Kept [.regs] s t ∧ RegsKept [fHifErrInfoValid.addr] s t ∧
      t.fld fHifErrInfoKind = s.fld fHifErrInfoKind ∧ t.fld fHifErrInfoValid = if val.getLsbD 8 = true then 0 else s.fld fHifErrInfoValid) ∧
    (∃ t, exec (.registerWrite path fBullDescBaseLoAddr.addr 15 val none) s = .next t ∧ Kept [.regs] s t ∧ RegsKept [fBullDescBaseLoAddr.addr] s t ∧
      t.fld fBullDescBaseLoAddr = if s.flag fBullCtlEn = true then s.fld fBullDescBaseLoAddr else bits val 24 8) ∧
    (∃ t, exec (.kciDoorbell path val) s = .next t ∧ Kept [.regs] s t ∧ RegsKept [fHifKciDbIndex.addr] s t ∧
      t.fld fHifKciDbIndex = if bits val 0 16 < s.fld fHifKciSizeEntries then bits val 0 16 else s.fld fHifKciDbIndex) ∧
    (∀ k, k < 256 → ∃ t, exec (.scoutCtlRelWrite path k val) s = .next t ∧ Kept [.regs, .scout] s t ∧ RegsKept [(fScoutCtlRel k).addr] s t ∧
      t.flag (fScoutCtlEn k) = val.getLsbD 0 ∧ (∀ j, j ≠ k → t.scoutOf j = s.scoutOf j) ∧
      (val.getLsbD 8 = true → (t.scoutOf k).held = 0 ∧ (t.scoutOf k).full = false ∧ (t.scoutOf k).ring = []) ∧
      (val.getLsbD 8 = false → (t.scoutOf k).ring = (s.scoutOf k).ring ∧ (t.scoutOf k).held = (s.scoutOf k).held) ∧
      (val.getLsbD 0 = false → (t.scoutOf k).tagged = false)) ∧
    (∀ p, p < 8 → ∃ t, exec (.rfpnDcbClrWrite path p val) s = .next t ∧ Kept [.regs] s t ∧
      RegsKept [(fRfpDcbClr p).addr, (fRfpDcbEstIEst p).addr, (fRfpDcbEstQEst p).addr] s t ∧
      (val.getLsbD 16 = true → t.fld (fRfpDcbEstIEst p) = 0 ∧ t.fld (fRfpDcbEstQEst p) = 0) ∧
      (val.getLsbD 16 = false → t.fld (fRfpDcbEstIEst p) = s.fld (fRfpDcbEstIEst p) ∧ t.fld (fRfpDcbEstQEst p) = s.fld (fRfpDcbEstQEst p)) ∧
      t.fld (fRfpDcbFreeze p) = if bits val 8 2 = 3 then s.fld (fRfpDcbFreeze p) else bits val 8 2) ∧
    (∃ t, exec (.umpInjectArmWrite path val) s = .next t ∧ Kept [.regs] s t ∧ RegsKept [fUmpInjectArm.addr] s t ∧
      t.fld fUmpInjectCore = bits val 8 8 ∧ t.flag fUmpInjectArm = (s.flag fUmpInjectArm || val.getLsbD 16 && s.flag fUmpCtlInjEn)) ∧
    (s.flag fSeedCtlEn = false → s.seed.ownedA = 0 → bits val 0 25 ≤ 16777216 →
      ∃ t, exec (.seedPoolGranWrite path val) s = .next t ∧ Kept [.regs, .seed] s t ∧ RegsKept [fSeedPoolGranCount.addr] s t ∧
        t.fld fSeedPoolGranCount = bits val 0 25 ∧ t.seed.tags = [] ∧ t.seed.freeA = bits val 0 25 ∧ t.seed.ownedA = 0 ∧ t.seed.accts = s.seed.accts) ∧
    (s.flag fSeedCtlEn = true ∨ s.seed.ownedA ≠ 0 →
      ∃ t, exec (.seedPoolGranWrite path val) s = .next t ∧ Kept [.regs] s t ∧ RegsKept [] s t) ∧
    (∀ p, p < 4 → s.flag (fMadiPpCtlEn p) = false → val.getLsbD 0 = true →
      (madiEnableOk p (val.getLsbD 1) (val.getLsbD 2) s = false →
        ∃ t, exec (.madiPortEnable path p val) s = .next t ∧ Kept [.regs] s t ∧ RegsKept [(fMadiPpStatCfgErr p).addr] s t ∧
          t.flag (fMadiPpStatCfgErr p) = true) ∧
      (madiEnableOk p (val.getLsbD 1) (val.getLsbD 2) s = true →
        ∃ t, exec (.madiPortEnable path p val) s = .next t ∧ Kept [.regs] s t ∧ t.flag (fMadiPpCtlEn p) = true ∧
          t.flag (fMadiPpCtlRxEn p) = val.getLsbD 1 ∧ t.flag (fMadiPpCtlTxEn p) = val.getLsbD 2)) ∧
    (s.hif.waits = [] → s.flag fFlcCtlEn ≠ val.getLsbD 0 →
      ∃ t, exec (.flcEnable path val) s = .next t ∧ Kept [.regs, .flc] s t ∧ t.flc = { bring := if val.getLsbD 0 = true then 1 else 0 } ∧
        t.flag fFlcCtlEn = val.getLsbD 0 ∧ t.flag fFlcStatReady = false ∧ t.flag fFlcStatRunning = false)) ∧
  (∀ (s : State) (pec : Option Bool) (off n : Nat) (val : Word),
    (pec ≠ some false →
      (∃ t, exec (.smbusWrite 8 pec off val) s = .next t ∧ exec (.registerWrite .smbus off 15 val none) s = .next t) ∧
      (reaches s fGhAffWinNs.addr = true → ∃ t, exec (.smbusWrite 8 pec fGhAffWinNs.addr val) s = .next t ∧ Kept [.regs] s t ∧
        RegsKept [fGhAffWinNs.addr] s t ∧ t.fld fGhAffWinNs = bits val 0 16) ∧
      exec (.smbusReadAddress 4 pec off) s = .next { s with hif := { s.hif with smbOff := some off } } ∧
      (∃ t, exec (.smbusReadData pec) s = .next t ∧
        exec (.rcCounterRead .smbus (s.hif.smbOff.getD 0) false) { s with hif := { s.hif with smbOff := none } } = .next t) ∧
      (reaches s fGhAffWinNs.addr = true → s.hif.smbOff = some fGhAffWinNs.addr →
        exec (.smbusReadData pec) s = .next { s with hif := { s.hif with smbOff := none, rd := [s.reg fGhAffWinNs.addr] } })) ∧
    (n ≠ 8 ∨ pec = some false → reaches s 0x120000 = true → ∃ t, exec (.smbusWrite n pec off val) s = .next t ∧ Kept [.regs] s t ∧
      RegsKept [fHifSmbErrCount.addr] s t ∧ t.fld fHifSmbErrCount = (s.fld fHifSmbErrCount + 1) % 2 ^ 32) ∧
    (n ≠ 4 ∨ pec = some false → reaches s 0x120000 = true → ∃ t, exec (.smbusReadAddress n pec off) s = .next t ∧ Kept [.regs] s t ∧
      RegsKept [fHifSmbErrCount.addr] s t ∧ t.fld fHifSmbErrCount = (s.fld fHifSmbErrCount + 1) % 2 ^ 32)) ∧
  (∀ (s : State) (off : Nat) (bytes : List Byte),
    (hbmUp s = false → exec (.bar2Write off bytes) s = .next s) ∧
    (hbmUp s = true → off + bytes.length ≤ 2 ^ 32 →
      (∀ i, i < bytes.length → inDescRegion s (bar2Addr s off + i) = false ∧ inTagTable s (bar2Addr s off + i) = false) →
      ∃ t, exec (.bar2Write off bytes) s = .next t ∧ Kept [.hbm, .hbmBad] s t ∧
        (∀ a, a % 4 = 0 → bar2Addr s off ≤ a → a + 4 ≤ bar2Addr s off + bytes.length → mapFind? a t.hbmBad = none) ∧
        ∀ a, memRead t.hbm a = if bar2Addr s off ≤ a ∧ a < bar2Addr s off + bytes.length then bytes.getD (a - bar2Addr s off) 0 else memRead s.hbm a) ∧
    (∀ g, hbmUp s = true → off + 8 ≤ 2 ^ 32 → bytes.length = 8 → g < poolSize s → bar2Addr s off = tagBase s + 8 * g →
      (∀ i, i < 8 → openHbm s (bar2Addr s off + i) = false) →
      ∃ t, exec (.bar2Write off bytes) s = .next t ∧ Kept [.hbm, .hbmBad, .seed, .free] s t ∧ t.tag g = tagOf (leNat bytes) ∧
        (∀ j, j ≠ g → t.tag j = s.tag j) ∧ t.seed = { s.seed with tags := t.seed.tags }) ∧
    (∀ i, hbmUp s = true → off + bytes.length ≤ 2 ^ 32 → i < bytes.length → inDescRegion s (bar2Addr s off + i) = true →
      ∃ t, exec (.bar2Write off bytes) s = .next t ∧ t.fld fHifBadaccCount = (s.fld fHifBadaccCount + 1) % 2 ^ 32 ∧
        ∀ a, inDescRegion s a = true → memRead t.hbm a = memRead s.hbm a) ∧
    (∀ len, hbmUp s = true → len % 4 = 0 → off + len ≤ 2 ^ 32 →
      ∃ t, exec (.bar2Read off len) s = .next t ∧ Kept [.hif, .free] s t ∧ t.hif.rd.length = len / 4 ∧
        ∀ i, i < len / 4 → (∀ j, j < 4 → openHbm s (bar2Addr s off + 4 * i + j) = false ∧ inTagTable s (bar2Addr s off + 4 * i + j) = false) →
          t.hif.rd[i]? = some (BitVec.ofNat 32 (leNat (memReadList s.hbm (bar2Addr s off + 4 * i) 4)))))

/-- Reads that latch, pop or clear do exactly that (R12, R64, R67, R426, R455, R456, R469, R470, R471, R472, R474; derived).
A read of an RC counter clears it; a read of a low half latches the high half; a pop answers the oldest entry and takes it, or 0 on an empty queue; a
counter write takes its high half from the shadow; a fetch takes the entry at the head and either keeps it outstanding or completes it with the code
of the first check it fails.
Completion is stated for the constructors kciFetch, rcCounterRead, timeNowFracRead, timeRateLoRead, timePpsinNsRead, timeTsqnPop0Read,
hifFlowevPopRead, flcRebuildTLoRead, flcOldestTLoRead, pmuCounterLowRead, pmuCounterHighWrite, pmuCounterLowWrite. -/
def Obligations.ReadsWithEffects : Prop :=
  (∀ (s : State) (path : BusPath), s.ready = true → s.glb.tripped = false → 4 ≤ s.fld fGlbStatStep →
    (∃ t, exec (.rcCounterRead path fBullAbortsCount.addr false) s = .next t ∧ ReadGave (s.reg fBullAbortsCount.addr) [.regs] s t ∧
      RegsKept [fBullAbortsCount.addr] s t ∧ t.fld fBullAbortsCount = 0) ∧
    (∃ t w, exec (.timeNowFracRead path) s = .next t ∧ ReadGave w [.time] s t ∧ t.time = { s.time with
        snapNs := BitVec.ofNat 32 (timeNs s.time.t), snapSecL := BitVec.ofNat 32 (timeSec s.time.t)
        snapSecH := BitVec.ofNat 32 (timeSec s.time.t / 2 ^ 32), snapMtc := BitVec.ofNat 32 s.mtc } ∧
      (s.reg fTimeNowFracFrac.addr = 0 → w = BitVec.ofNat 32 (timeFrac s.time.t))) ∧
    (∃ t w, exec (.timeRateLoRead path) s = .next t ∧ ReadGave w [.time] s t ∧
      t.time = { s.time with rateHi := BitVec.ofNat 32 (patternOf 40 s.time.rate / 2 ^ 32) } ∧
      (s.reg fTimeRateLoRate.addr = 0 → w = BitVec.ofNat 32 (patternOf 40 s.time.rate))) ∧
    (∃ t w, exec (.timePpsinNsRead path) s = .next t ∧ ReadGave w [.time] s t ∧ t.time = { s.time with ppsSecLat := s.time.ppsSec } ∧
      (s.reg fTimePpsinNsNs.addr = 0 → w = s.time.ppsNs)) ∧
    (∀ n, n < 4 →
      let q := mapGet ({} : TsQueue) n s.time.tsq
      (ptpRuns s n = true → ∃ t, exec (.timeTsqnPop0Read path n) s = .next t ∧ ReadGave 0 [] s t) ∧
      (ptpRuns s n = false → q.entries = [] → ∃ t, exec (.timeTsqnPop0Read path n) s = .next t ∧ ReadGave 0 [.time] s t ∧
        mapGet {} n t.time.tsq = ({ } : TsQueue)) ∧
      (∀ e rest, ptpRuns s n = false → q.entries = e :: rest →
        ∃ t, exec (.timeTsqnPop0Read path n) s = .next t ∧ ReadGave (BitVec.ofNat 32 (e.id % 65536 + e.time % 65536 * 65536)) [.time] s t ∧
          mapGet {} n t.time.tsq = { entries := rest, pop1 := BitVec.ofNat 32 (e.time / 65536 % 1000000000 + 2 ^ 31)
                                     pop2 := BitVec.ofNat 32 (e.time / 65536 / 1000000000)
                                     pop3 := BitVec.ofNat 32 (e.time / 65536 / 1000000000 / 2 ^ 32 % 65536) })) ∧
    (s.hif.flowEv = [] → ∃ t, exec (.hifFlowevPopRead path) s = .next t ∧ ReadGave 0 [] s t ∧ t.hif.flowEv = []) ∧
    (∀ e rest, s.hif.flowEv = e :: rest →
      ∃ t, exec (.hifFlowevPopRead path) s = .next t ∧ ReadGave (BitVec.ofNat 32 (e.1 + 65536 * bitOf e.2 + 2 ^ 31)) [] s t ∧ t.hif.flowEv = rest) ∧
    (∃ t w, exec (.flcRebuildTLoRead path) s = .next t ∧ ReadGave w [.flc] s t ∧
      t.flc = { s.flc with rebHi := BitVec.ofNat 32 (if s.flag fFlcStatRebuild then oldestT s / 2 ^ 32 else 0) } ∧
      (s.reg fFlcRebuildTLoT.addr = 0 → s.flag fFlcStatRebuild = true → w = BitVec.ofNat 32 (oldestT s))) ∧
    (∃ t w, exec (.flcOldestTLoRead path) s = .next t ∧ ReadGave w [.flc] s t ∧ t.flc = { s.flc with oldHi := BitVec.ofNat 32 (oldestT s / 2 ^ 32) } ∧
      (s.reg fFlcOldestTLoT.addr = 0 → w = BitVec.ofNat 32 (oldestT s))) ∧
    ∀ set, set < 266 →
      let now (t : State) : PmuSet := mapGet {} set t.pmu
      (∃ t w, exec (.pmuCounterLowRead path (pmuBase set + 0x20) false) s = .next t ∧ ReadGave w [.pmu] s t ∧ (now t).rdSh = cycleOf s set / 2 ^ 32 ∧
        cycleOf t set = cycleOf s set ∧ (now t).pmc = (now s).pmc ∧ (s.reg (pmuBase set + 0x20) = 0 → w = BitVec.ofNat 32 (cycleOf s set))) ∧
      (∀ k, k < 6 → ∃ t w, exec (.pmuCounterLowRead path (pmuBase set + 0x44 + 0x10 * k) false) s = .next t ∧ ReadGave w [.pmu] s t ∧
        (now t).rdSh = mapGet 0 k (now s).pmc / 2 ^ 32 ∧ (now t).pmc = (now s).pmc ∧ cycleOf t set = cycleOf s set ∧
        (s.reg (pmuBase set + 0x44 + 0x10 * k) = 0 → w = BitVec.ofNat 32 (mapGet 0 k (now s).pmc))) ∧
      (∀ val : Word,
        (∃ t, exec (.pmuCounterHighWrite path (pmuBase set + 0x24) val) s = .next t ∧ Kept [.regs, .pmu] s t ∧ RegsKept [] s t ∧
          (now t).wrSh = val.toNat ∧ cycleOf t set = cycleOf s set ∧ (now t).pmc = (now s).pmc) ∧
        (∀ k, k < 6 → ∃ t, exec (.pmuCounterHighWrite path (pmuBase set + 0x48 + 0x10 * k) val) s = .next t ∧ Kept [.regs, .pmu] s t ∧ RegsKept [] s t ∧
          (now t).wrSh = val.toNat % 65536 ∧ (now t).pmc = (now s).pmc) ∧
        (∃ t, exec (.pmuCounterLowWrite path (pmuBase set + 0x20) val) s = .next t ∧ Kept [.regs, .pmu] s t ∧ RegsKept [] s t ∧
          cycleOf t set = (val.toNat + (now s).wrSh * 2 ^ 32) % 2 ^ 64 ∧ (now t).pmc = (now s).pmc) ∧
        (∀ k, k < 6 → ∃ t, exec (.pmuCounterLowWrite path (pmuBase set + 0x44 + 0x10 * k) val) s = .next t ∧ Kept [.regs, .pmu] s t ∧ RegsKept [] s t ∧
          mapGet 0 k (now t).pmc = val.toNat + (now s).wrSh % 65536 * 2 ^ 32 ∧ (∀ j, j ≠ k → mapGet 0 j (now t).pmc = mapGet 0 j (now s).pmc) ∧
          cycleOf t set = cycleOf s set))) ∧
  (∀ (s : State) (op flags tag : Nat), op < 65536 → flags < 65536 → tag < 2 ^ 32 →
    let i : Instr := .kciFetch op flags tag
    let head := s.fld fHifKciHeadIndex
    let size := s.fld fHifKciSizeEntries
    let bad : Prop := 2 ≤ flags % 0x8000 ∨ flagsOf op < flags % 2
    (s.ready = false ∨ s.flag fHifCtlKciEn = false ∨ s.glb.svcDown = true ∨ size = 0 ∨ head = s.fld fHifKciDbIndex ∨ mayFetch s = false → exec i s = .next s) ∧
    (s.ready = true → s.flag fHifCtlKciEn = true → s.glb.svcDown = false → size ≠ 0 → size ≤ 65536 → head ≠ s.fld fHifKciDbIndex → mayFetch s = true →
      (opDefined op = true → (¬ bad ∨ checksVersion op = true) → (s.hif.isOpen = true ∨ op = 0x0C01) →
        ∃ t, exec i s = .next t ∧ Kept [.regs, .hif] s t ∧ RegsKept [fHifKciHeadIndex.addr] s t ∧ t.fld fHifKciHeadIndex = (head + 1) % size ∧
          t.hif = { s.hif with outst := s.hif.outst ++ [⟨tag, op, flags⟩] }) ∧
      (∀ status, (opDefined op = false ∧ status = 8) ∨
          (opDefined op = true ∧ bad ∧ (checksVersion op = false ∨ s.hif.isOpen = false ∧ op ≠ 0x0C01) ∧ status = 2) ∨
          (opDefined op = true ∧ ¬ bad ∧ s.hif.isOpen = false ∧ op ≠ 0x0C01 ∧ status = 4) →
        ∃ t slot phase, exec i s = .next t ∧ Kept [.regs, .hif, .out] s t ∧ t.fld fHifKciHeadIndex = (head + 1) % size ∧
          t.hif.outst = dropOut tag op s.hif.outst ∧ t.hif.waits = s.hif.waits ∧ OutMsg.completion slot tag op status phase [] ∈ t.out)))

/-- Flash bring-up, page programs, erases, reclaim, refresh and decode act on segments and blocks (R403, R404, R405, R406, R408, R409, R410, R411,
R412, R416, R417, R419; derived).
The steps after FLC_CTL.EN = 1 show targets, journal and rebuild; a staged page is programmed at its slot with the parity of its codewords, or dropped where a word of it cannot be read, and its
end lists the page or retires the block and skips it; a segment below the free limit is reclaimed and its blocks erased; a segment over the refresh
bound is copied to a new one; a decode counts its jobs and marks what it cannot correct.
Completion is stated for the constructors flcBringupStepComplete, stagingPageProgram, pageProgramComplete, blockEraseComplete,
segmentReclaim, refreshSegmentRead, flashCodewordDecode. -/
def Obligations.FlashEvents : Prop :=
  (∀ (s : State) (targets luns good : Nat),
    let i : Instr := .flcBringupStepComplete targets luns good
    (s.flc.bring = 0 ∨ 5 ≤ s.flc.bring → exec i s = .next s) ∧
    (s.flc.bring = 1 → ∃ t, exec i s = .next t ∧ Kept [.regs, .flc] s t ∧ RegsKept [fFlcTgtLoMask.addr, fFlcTgtHiMask.addr, fFlcStatFormat.addr] s t ∧
      t.fld fFlcTgtLoMask = targets % 2 ^ 32 ∧ t.fld fFlcTgtHiMask = targets / 2 ^ 32 % 2 ^ 32 ∧ t.flc = { s.flc with bring := 2 } ∧
      t.flag fFlcStatFormat = (!s.flash.journal || s.flag fFlcStatFormat)) ∧
    (s.flc.bring = 2 → ∃ t, exec i s = .next t ∧ Kept [.regs, .flc, .flash] s t ∧ RegsKept [fFlcStatReady.addr] s t ∧ t.flc = { s.flc with bring := 3 } ∧
      t.flag fFlcStatReady = true ∧ t.flag fFlcStatRebuild = true ∧ t.flag fFlcStatFormat = false ∧ t.flash.journal = true ∧ t.flash.erasing = [] ∧
      (s.flash.journal = true → s.flash.erasing = [] → t.flash.dies = s.flash.dies ∧ t.flash.nextSeq = s.flash.nextSeq ∧
        ∀ q, t.seg? q = (s.seg? q).map (fun g => { g with indexed := false })) ∧
      (s.flash.journal = false → t.flash.segs = [] ∧ t.flash.nextSeq = 0 ∧
        ∀ d, (mapFind? d t.flash.dies).isSome = (decide (d < 256) && decide (d / 64 < luns) && (targetMask s).testBit (8 * (d % 8) + d / 8 % 8)))) ∧
    (s.flc.bring = 3 → ∃ t, exec i s = .next t ∧ Kept [.flc, .flash] s t ∧ t.flc = { s.flc with bring := 4 } ∧
      ∀ q g, s.seg? q = some g → t.seg? q = some (if g.closed || g.indexed then g else
        { g with short := true, closing := true, closed := true, indexed := true })) ∧
    (∀ q g, s.flc.bring = 4 → newestUnindexed s = some q → s.seg? q = some g →
      ∃ t, exec i s = .next t ∧ Kept [.regs, .flash] s t ∧ RegsKept [fFlcRebuildPct.addr] s t ∧ OnlySeg q (some { g with indexed := true }) s t) ∧
    (s.flc.bring = 4 → newestUnindexed s = none →
      ∃ t, exec i s = .next t ∧ Kept [.regs, .flc, .out, .hif] s t ∧ t.flc = { s.flc with bring := 5 } ∧ t.fld fFlcRebuildPct = 100 ∧
        t.flag fFlcStatRebuild = false ∧ t.flag (fFlcIntStat.bit 5) = true)) ∧
  (∀ s : State,
    (s.flag fFlcStatReady = false ∨ s.flc.full = [] → ∀ ok, exec (.stagingPageProgram ok) s = .next s) ∧
    (s.flag fUmpCtlEccEn = false → ∃ t, exec (.stagingPageProgram true) s = .next t ∧ exec (.stagingPageProgram false) s = .next t) ∧
    (∀ pg rest, s.flag fFlcStatReady = true → s.flag fUmpCtlEccEn = true → s.flc.full = pg :: rest → (∀ g, s.seg? pg.seg = some g → g.closing = false) →
      ∃ t, exec (.stagingPageProgram false) s = .next t ∧ Kept [.regs, .out, .hif, .hbm, .flc, .free] s t ∧ t.flc = { s.flc with full := rest } ∧
        UmpCounted 1 s t ∧ t.fld fPackCapDropCount = (s.fld fPackCapDropCount + pg.recs.length) % 2 ^ 32) ∧
    ∀ pg rest g, s.flag fFlcStatReady = true → s.flc.full = pg :: rest → s.seg? pg.seg = some g → g.d + 1 < 4090 →
      slotDead s g ((g.d + 1) % nslot s) = false →
      let page := dataPage pg.seg (g.d + 1) pg.recs
      let spare := (List.range 4).flatMap (fun c => flashParity ((page.drop (4096 * c)).take 4096))
      ∃ t, exec (.stagingPageProgram true) s = .next t ∧ Kept [.regs, .out, .hif, .pmu, .flc, .flash] s t ∧
        t.flc = { s.flc with full := rest, progs := s.flc.progs ++ [⟨g.d + 1, pg⟩] } ∧ OnlySeg pg.seg (some { g with d := g.d + 1 }) s t ∧
        t.flash.dies = s.flash.dies ∧
        MsixAfter (s.out ++ [.flashPage (slotOf s g (g.d + 1)).1 (slotOf s g (g.d + 1)).2 ((g.d + 1) / nslot s) page spare]) t.out) ∧
  (∀ (s : State) (ok : Bool),
    (s.flc.progs = [] → exec (.pageProgramComplete ok) s = .next s) ∧
    ∀ p rest g, s.flc.progs = p :: rest → s.seg? p.staging.seg = some g →
      (g.closing = false → ∃ t, exec (.pageProgramComplete true) s = .next t ∧ Kept [.flc, .flash] s t ∧ t.flc = { s.flc with progs := rest } ∧
        OnlySeg p.staging.seg (some { g with pages := mapInsert p.page p.staging.recs g.pages }) s t) ∧
      (s.flag fFlcStatRunning = false → (mapGet ({} : Die) (slotOf s g p.page).1 s.flash.dies).spare ≠ [] →
        mapSorted none (mapGet ({} : Die) (slotOf s g p.page).1 s.flash.dies).spare = true →
        ∃ t, exec (.pageProgramComplete false) s = .next t ∧ BlockRetired (slotOf s g p.page).1 (slotOf s g p.page).2 s t ∧
          t.flc = { s.flc with progs := rest, full := p.staging :: s.flc.full } ∧
          t.fld fFlcProgFailCount = (s.fld fFlcProgFailCount + 1) % 2 ^ 32 ∧
          OnlySeg p.staging.seg (some { g with skipped := mapInsert p.page () g.skipped, dead := mapInsert (p.page % nslot s) () g.dead }) s t)) ∧
  (∀ (s : State) (d b : Nat),
    (s.flag fFlcStatReady = false ∨ (d, b) ∉ s.flash.erasing → ∀ ok, exec (.blockEraseComplete d b ok) s = .next s) ∧
    (s.flag fFlcStatReady = true → (d, b) ∈ s.flash.erasing →
      (∃ t, exec (.blockEraseComplete d b true) s = .next t ∧ Kept [.flash] s t ∧ t.flash.erasing = s.flash.erasing.erase (d, b) ∧
        (mapFind? b (mapGet ({} : Die) d t.flash.dies).free).isSome = true ∧ (∀ j, j ≠ d → mapGet ({} : Die) j t.flash.dies = mapGet {} j s.flash.dies) ∧
        t.flash.segs = s.flash.segs) ∧
      (s.flag fFlcStatRunning = false → (mapGet ({} : Die) d s.flash.dies).spare ≠ [] → mapSorted none (mapGet ({} : Die) d s.flash.dies).spare = true →
        ∃ t, exec (.blockEraseComplete d b false) s = .next t ∧ BlockRetired d b s t ∧ t.flash.erasing = s.flash.erasing.erase (d, b) ∧
          t.fld fFlcEraseFailCount = (s.fld fFlcEraseFailCount + 1) % 2 ^ 32))) ∧
  (∀ s : State,
    (s.flag fFlcStatReady = false ∨ (s.fld fFlcReclaimSegs ≠ 0 ∧ s.fld fFlcReclaimSegs ≤ segFree s) → exec .segmentReclaim s = .next s) ∧
    ∀ q g, s.flag fFlcStatReady = true → segFree s < s.fld fFlcReclaimSegs → reclaimNext s = some q → s.seg? q = some g → s.flag fFlcStatRunning = false →
      s.flc.points = [] → g.dead = [] → g.retire = [] → (∀ x ∈ g.slots, (mapGet ({} : Die) x.1 s.flash.dies).readOnly = false) →
      ∃ t, exec .segmentReclaim s = .next t ∧ Kept [.regs, .out, .flc, .flash] s t ∧ RegsKept [fFlcSegReclaimedCount.addr] s t ∧
        OnlySeg q none s t ∧ t.fld fFlcSegReclaimedCount = (s.fld fFlcSegReclaimedCount + 1) % 2 ^ 32 ∧
        t.flash.erasing = s.flash.erasing ++ g.slots ∧ t.out = s.out ++ g.slots.map (fun x => .flashErase x.1 x.2)) ∧
  (∀ (s : State) (q n : Nat) (lost : List Nat),
    (s.flag fFlcStatReady = false ∨ s.fld fFlcRefreshHours = 0 ∨ s.seg? q = none → exec (.refreshSegmentRead q n lost) s = .next s) ∧
    ∀ g, s.flag fFlcStatReady = true → s.fld fFlcRefreshHours ≠ 0 → s.seg? q = some g →
      (g.closed = false ∨ g.old = true → exec (.refreshSegmentRead q n lost) s = .next s) ∧
      (g.refresh = false → g.lost = [] → lost = [] → n ≤ s.fld fFlcCbRefresh → exec (.refreshSegmentRead q n lost) s = .next s) ∧
      (∀ slots dies, g.closed = true → g.old = false → lost = [] → g.lost = [] → s.fld fFlcCbRefresh < n → rotate s = some (slots, dies) →
        s.flash.nextSeq ≠ q → s.flc.replays = [] → s.hif.waits = [] →
        ∃ t g', exec (.refreshSegmentRead q n lost) s = .next t ∧ t.seg? q = none ∧ t.seg? s.flash.nextSeq = some g' ∧ g'.orig = g.orig ∧
          g'.reloc = true ∧ g'.closed = true ∧ g'.slots = slots ∧ g'.d = g.pages.length ∧ g'.pages.map (fun p => p.2) = g.pages.map (fun p => p.2) ∧
          t.flash.nextSeq = (s.flash.nextSeq + 1) % 2 ^ 64)) ∧
  (∀ (s : State) (q page reads iters : Nat) (c : Option Nat),
    let i : Instr := .flashCodewordDecode q page reads iters c
    let r := max 1 (min reads (s.fld fFlcRetryCount + 1))
    (s.flag fFlcCtlEn = false ∨ s.seg? q = none → exec i s = .next s) ∧
    ∀ g, s.flag fFlcCtlEn = true → s.flag fLdpcCtlEn = true → s.mdm.wait = [] → s.mdm.run.length < 16 → s.fld fLdpcCtlRadioRes < 16 → s.seg? q = some g →
      ∃ t, exec i s = .next t ∧ t.fld fLdpcFlashJobsCount = (s.fld fLdpcFlashJobsCount + r) % 2 ^ 32 ∧
        t.fld fFlcRereadCount = (s.fld fFlcRereadCount + (r - 1)) % 2 ^ 32 ∧
        (c = none → OnlySeg q (some { g with lost := mapInsert page () g.lost, refresh := true }) s t ∧ UmpCounted 1 s t ∧
          t.fld fFlcCwUncorrCount = (s.fld fFlcCwUncorrCount + 1) % 2 ^ 32 ∧ t.flag (fFlcIntStat.bit 4) = true ∧
          t.fld fLdpcFlashUnconvCount = (s.fld fLdpcFlashUnconvCount + r) % 2 ^ 32) ∧
        (∀ n, c = some n → Kept [.regs, .out, .hif, .pmu, .flash] s t ∧ t.fld fLdpcFlashUnconvCount = (s.fld fLdpcFlashUnconvCount + (r - 1)) % 2 ^ 32 ∧
          OnlySeg q (some { g with refresh := g.refresh || decide (s.fld fFlcCbRefresh < n)
                                   retire := if s.fld fFlcCbRetire < n then mapInsert (page % nslot s) () g.retire else g.retire }) s t))

/-- Capture jobs become records, and capture operations start, stop, mark and replay (R387, R389, R390, R392, R413, R415, R417, R418, R420, R421,
R422; derived).
A job is popped, encoded or kept raw and appended to the open page, or counted as bad or dropped; a held entry resumes; a replay pushes the block that
a record holds, or an entry that says it is lost or bad, and ends; CAP.START, STOP, POINT, CLEAR, REPLAY and STATS complete with the status their
state gives.
Completion is stated for the constructors captureJobPop, captureStagingResume, replayBlockDelivery, capStart, capStop, capPoint,
capPointClear, capReplay, capStats. -/
def Obligations.CaptureResults : Prop :=
  (∀ s : State,
    (s.flag fPackCtlEn = false ∨ s.pack.hold.isSome = true ∨ s.queue? (s.fld fPackCapqQueue) = none → exec .captureJobPop s = .next s) ∧
    (∀ x i rest, s.flag fPackCtlEn = true → s.pack.hold = none → s.queue? (s.fld fPackCapqQueue) = some x → x.mode = .fifo → x.markSet = false →
      x.held = i :: rest → i.e.nobuf = false →
      let n := jobCount s i.e
      let popped (t : State) : Prop := ∃ y, t.queue? (s.fld fPackCapqQueue) = some y ∧ y.held = rest ∧ y.n.popped = (x.n.popped + 1) % 2 ^ 32
      (n = 0 ∨ i.e.len ≠ 16 + 576 * n → ∃ t, exec .captureJobPop s = .next t ∧ popped t ∧ t.flc = s.flc ∧ t.pack = s.pack ∧
        (t.tag i.e.handle).st = .free ∧ t.fld fPackCapBadCount = (s.fld fPackCapBadCount + 1) % 2 ^ 32 ∧
        t.fld fPackCapDropCount = (s.fld fPackCapDropCount + n) % 2 ^ 32) ∧
      (n ≠ 0 → i.e.len = 16 + 576 * n → s.flag fFlcStatRunning = false → ∃ t, exec .captureJobPop s = .next t ∧ popped t ∧ t.flc = s.flc ∧ t.pack = s.pack ∧
        (t.tag i.e.handle).st = .free ∧ t.fld fPackCapDropCount = (s.fld fPackCapDropCount + n) % 2 ^ 32 ∧ t.flag fPackIntStatCapDrop = true) ∧
      (∀ p, n = 1 → i.e.len = 592 → s.flag fFlcStatRunning = true → s.flc.stopping = false → s.flc.page = some p → pageUsed p.recs + 584 ≤ 16384 →
        ∃ t r, exec .captureJobPop s = .next t ∧ popped t ∧ t.pack = s.pack ∧ t.flc = { s.flc with page := some { p with recs := p.recs ++ [r] } } ∧
          (t.tag i.e.handle).st = .free ∧ r.key = i.e.key ∧ r.channel = leNat (bufRead s i.e.handle 2 2) % 16384 ∧
          (r.raw = true → r.bytes = bufRead s i.e.handle 16 576) ∧
          (r.raw = false → packEncode (s.fld fPackCapcfgRatio) (bufRead s i.e.handle 16 576) = some r.bytes ∧ r.ratio = s.fld fPackCapcfgRatio) ∧
          t.fld fPackCapJobsCount = (s.fld fPackCapJobsCount + 1) % 2 ^ 32)) ∧
    (s.pack.hold = none → exec .captureStagingResume s = .next s) ∧
    (∀ e loan i, s.pack.hold = some (e, loan, i) →
      (s.flag fFlcStatRunning = false → s.flc.stopping = false → i < jobCount s e →
        ∃ t, exec .captureStagingResume s = .next t ∧ t.pack = { s.pack with hold := none } ∧ t.flc = s.flc ∧
          t.fld fPackCapDropCount = (s.fld fPackCapDropCount + (jobCount s e - i)) % 2 ^ 32 ∧ t.flag fPackIntStatCapDrop = true) ∧
      (∀ p, s.flag fFlcStatRunning = true → s.flc.stopping = false → i + 1 = jobCount s e → s.flc.page = some p → pageUsed p.recs + 584 ≤ 16384 →
        ∃ t r, exec .captureStagingResume s = .next t ∧ t.pack = { s.pack with hold := none } ∧
          t.flc = { s.flc with page := some { p with recs := p.recs ++ [r] } } ∧ r.key = e.key ∧
          r.channel = leNat (bufRead s e.handle (2 + 2 * i) 2) % 16384))) ∧
  (∀ (s : State) (k : Nat) (bad : Bool),
    (mapFind? k s.flc.replays = none → exec (.replayBlockDelivery k bad) s = .next s) ∧
    ∀ r x, mapFind? k s.flc.replays = some r → s.queue? r.queue = some x → x.mode = .fifo → (∀ g ∈ s.flash.segs, g.2.old = false) →
      let moved (t : State) (seg : Option Nat) : Prop := mapFind? k t.flc.replays =
        if r.left ≤ 1 then none else some { r with next := r.next + 192, left := r.left - 1, pushed := r.pushed + 1, seg := seg }
      let held (t : State) (e : Entry) : Prop := ∃ y, t.queue? r.queue = some y ∧ y.n.pushed = (x.n.pushed + 1) % 2 ^ 32 ∧
        (x.count < x.depth → e.nobuf = true → y.held.map (fun i => i.e) = x.held.map (fun i => i.e) ++ [e])
      (findRec s r.seg (fun y => y.channel == r.channel && y.ext == r.next) = none →
        ∃ t, exec (.replayBlockDelivery k bad) s = .next t ∧ moved t r.seg ∧
          held t { nobuf := true, seq := r.pushed % 65536, key := r.next % 2 ^ 32, aux := 1 }) ∧
      (∀ q lost y, findRec s r.seg (fun y => y.channel == r.channel && y.ext == r.next) = some (q, lost, y) →
        (lost = true ∨ bad = true → ∃ t, exec (.replayBlockDelivery k bad) s = .next t ∧ moved t (some q) ∧
          held t { nobuf := true, seq := r.pushed % 65536, key := r.next % 2 ^ 32, aux := 2 }) ∧
        (lost = false → bad = false → y.raw = true →
          (attached s 0x80 = none → exec (.replayBlockDelivery k bad) s = .next s) ∧
          ∀ a, attached s 0x80 = some a →
            ((s.acct a).quota < (s.acct a).held + 3 ∨ s.seed.freeA < 3 → exec (.replayBlockDelivery k bad) s = .next s) ∧
            ((s.acct a).held + 3 ≤ (s.acct a).quota → 3 ≤ s.seed.freeA →
              ∃ t e, exec (.replayBlockDelivery k bad) s = .next t ∧ moved t (some q) ∧ held t e ∧ e.len = 576 ∧ e.aux = 0)))) ∧
  (∀ (s : State) (h : KciHdr),
    (kciReady 0x0801 h none s = true →
      (s.flag fFlcStatRunning = false → s.flag fFlcStatReady = true → s.fld fFlcStageSizeMib ≠ 0 → haltHolds s = false →
        ∃ t, exec (.capStart h) s = .next t ∧ Done 0x0801 h 0 [] [] [fFlcStatRunning.addr] s t ∧ Kept [.regs, .hif, .out] s t ∧
          t.flag fFlcStatRunning = true ∧ t.flag fFlcStatHalt = false ∧ t.flag fFlcStatReady = true) ∧
      (s.flag fFlcStatRunning = true ∨ s.flag fFlcStatReady = false →
        ∃ t, exec (.capStart h) s = .next t ∧ Done 0x0801 h 4 [] [] [] s t ∧ Kept [.regs, .hif, .out] s t)) ∧
    (kciReady 0x0802 h none s = true →
      (s.flag fFlcStatRunning = false → ∃ t, exec (.capStop h) s = .next t ∧ Done 0x0802 h 4 [] [] [] s t ∧ Kept [.regs, .hif, .out] s t) ∧
      (s.flag fFlcStatRunning = true → s.pack.hold = none → s.flc.seg = none → (∀ g ∈ s.flash.segs, g.2.closing = true → g.2.closed = true) →
        ∃ t, exec (.capStop h) s = .next t ∧ Done 0x0802 h 0 [] [] [fFlcStatRunning.addr] s t ∧ Kept [.regs, .hif, .out] s t ∧
          t.flag fFlcStatRunning = false) ∧
      (s.flag fFlcStatRunning = true → s.pack.hold ≠ none →
        ∃ t, exec (.capStop h) s = .next t ∧ Waits 0x0802 h none .capStop [fFlcStatRunning.addr] s t ∧ Kept [.regs, .hif, .flc] s t ∧
          t.flc = { s.flc with stopping := true } ∧ t.flag fFlcStatRunning = false)) ∧
    (∀ a b, kciReady 0x0803 h none s = true → a ≤ b → b ≤ s.tick → a < 2 ^ 64 →
      (freePoint s = none → ∃ t, exec (.capPoint h a b 0) s = .next t ∧ Done 0x0803 h 6 [] [] [] s t ∧ Kept [.regs, .hif, .out] s t) ∧
      (∀ i, freePoint s = some i →
        (reclaimed s a = false → ∃ t, exec (.capPoint h a b 0) s = .next t ∧ Done 0x0803 h 0 [i] [] [] s t ∧ Kept [.regs, .hif, .out, .flc] s t ∧
          t.flc = { s.flc with points := mapInsert i { tFrom := a, tTo := b, protect := false } s.flc.points }) ∧
        (reclaimed s a = true → ∃ t, exec (.capPoint h a b 0) s = .next t ∧ Done 0x0803 h 10 [] [] [] s t ∧ Kept [.regs, .hif, .out] s t))) ∧
    (∀ i, i ≤ 255 → kciReady 0x0804 h (keyPoint i) s = true →
      (mapFind? i s.flc.points = none → ∃ t, exec (.capPointClear h i) s = .next t ∧ Done 0x0804 h 4 [] [] [] s t ∧ Kept [.regs, .hif, .out] s t) ∧
      (mapFind? i s.flc.points ≠ none → ∃ t, exec (.capPointClear h i) s = .next t ∧ Done 0x0804 h 0 [] [] [] s t ∧ Kept [.regs, .hif, .out, .flc] s t ∧
        t.flc = { s.flc with points := mapErase i s.flc.points })) ∧
    (∀ o : ReplayOp, o.channel ≤ 16383 → o.byPoint = false → o.from_ < 2 ^ 64 → 1 ≤ o.count → o.count < 2 ^ 32 → o.queue < 65536 →
      kciReady 0x0805 h (keyQueue o.queue) s = true →
      (queueIs s o.queue .fifo = false ∨ s.flag fFlcStatReady = false →
        ∃ t, exec (.capReplay h o) s = .next t ∧ Done 0x0805 h 4 [] [] [] s t ∧ Kept [.regs, .hif, .out] s t) ∧
      (queueIs s o.queue .fifo = true → s.flag fFlcStatReady = true → s.flag fFlcStatRebuild = false → s.flc.replays = [] → reclaimed s o.from_ = false →
        ∃ t r, exec (.capReplay h o) s = .next t ∧ Done 0x0805 h 0 [] [] [] s t ∧ Kept [.regs, .hif, .out, .flc] s t ∧
          t.flc = { s.flc with replays := [(0, r)] } ∧ r.channel = o.channel ∧ r.left = o.count ∧ r.queue = o.queue ∧ r.pushed = 0 ∧
          r.next ≤ o.from_ ∧ o.from_ < r.next + 192)) ∧
    (∀ clear, kciReady 0x0806 h none s = true →
      ∃ t, exec (.capStats h clear) s = .next t ∧
        Done 0x0806 h 0 [4 * (capWords s).length] [.result h.raddr (capWords s)]
          (if clear then [fFlcSegWrittenCount.addr, fFlcSegReclaimedCount.addr, fFlcSegRelocatedCount.addr] else []) s t ∧
        Kept [.regs, .hif, .out, .flc] s t ∧ t.flc = (if clear then { s.flc with lostRecs := 0 } else s.flc) ∧
        (clear = true → t.fld fFlcSegWrittenCount = 0)))

/-- PACK jobs start, run, resume and drop (R394, R396, R397, R398, R399, R423; derived).
A job that passes its checks waits in the lowest free place; running it stores the coded or decoded bytes, or marks a block it could not, and
completes with the counts, or stops where the output is full; RESUME takes a stopped job on with a new output, and DROP ends one.
Completion is stated for the constructors packHostJobEnd, packJobEncode, packJobDecode, packResume, packDrop. -/
def Obligations.PackJobs : Prop :=
  (∀ (s : State) (h : KciHdr) (decode : Bool) (o : PackOp), kciReady 0x0701 h none s = true → firstErr (packChecks decode o) = none →
    let i : Instr := if decode then .packJobDecode h o else .packJobEncode h o
    ((∀ k, k < 16 → (mapFind? k s.pack.jobs).isSome = true) → ∃ t, exec i s = .next t ∧ Done 0x0701 h 3 [] [] [] s t ∧ Kept [.regs, .hif, .out] s t) ∧
    (∀ k, k < 16 → mapFind? k s.pack.jobs = none → (∀ j, j < k → (mapFind? j s.pack.jobs).isSome = true) →
      ∃ t, exec i s = .next t ∧ Waits 0x0701 h none (.job k) [fPackJobsHeld.addr] s t ∧ Kept [.regs, .hif, .pack] s t ∧
        t.pack = { s.pack with jobs := mapInsert k { decode := decode, op := o } s.pack.jobs } ∧
        t.fld fPackJobsHeld = (mapInsert k ({ decode := decode, op := o } : PackJob) s.pack.jobs).length % 32)) ∧
  (∀ (s : State) (k : Nat),
    (mapFind? k s.pack.jobs = none ∨ s.flag fPackCtlEn = false → exec (.packHostJobEnd k) s = .next s) ∧
    ∀ j, mapFind? k s.pack.jobs = some j → s.flag fPackCtlEn = true →
      (j.stopped = true → exec (.packHostJobEnd k) s = .next s) ∧
      (∀ w, s.hif.waits = [w] → w.on = .job k → j.stopped = false → j.done = 0 → j.used = 0 → j.bytes = 0 → j.misses = 0 → j.op.count = 1 →
        let ended (t : State) (status : Nat) (r : List Nat) : Prop := s.out <+: t.out ∧ t.hif.waits = [] ∧
          ∃ slot phase, OutMsg.completion slot w.tag w.op status phase r ∈ t.out
        let block := memReadList s.hbm j.op.inAddr 576
        let coded := memReadList s.hbm j.op.inAddr (ratioBytes j.op.ratio)
        let stored (t : State) (bs : List Byte) : Prop :=
          ∀ a, (a < j.op.mapAddr ∨ j.op.mapAddr < a) → memRead t.hbm a = if j.op.outAddr ≤ a ∧ a < j.op.outAddr + bs.length then bs.getD (a - j.op.outAddr) 0
            else memRead s.hbm a
        (∀ b, j.decode = false → packEncode j.op.ratio block = some b → b.length ≤ j.op.outLen →
          ∃ t, exec (.packHostJobEnd k) s = .next t ∧ ended t 0 [k, 1, b.length, 0] ∧ mapFind? k t.pack.jobs = none ∧ stored t b ∧
            t.fld fPackCodedCount = (s.fld fPackCodedCount + 1) % 2 ^ 32) ∧
        (∀ b, j.decode = false → packEncode j.op.ratio block = some b → j.op.outLen < b.length →
          ∃ t, exec (.packHostJobEnd k) s = .next t ∧ ended t 6 [k, 0, 0, 0] ∧ mapFind? k t.pack.jobs = some { j with stopped := true } ∧
            t.hbm = s.hbm ∧ t.flag fPackIntStatJobStop = true) ∧
        (j.decode = false → packEncode j.op.ratio block = none →
          ∃ t, exec (.packHostJobEnd k) s = .next t ∧ ended t 0 [k, 1, 0, 1] ∧ mapFind? k t.pack.jobs = none ∧ stored t [] ∧
            memRead t.hbm j.op.mapAddr = memRead s.hbm j.op.mapAddr ||| 1 ∧ t.fld fPackNofitCount = (s.fld fPackNofitCount + 1) % 2 ^ 32) ∧
        (∀ b, j.decode = true → packDecode j.op.ratio coded = some b → b.length ≤ j.op.outLen →
          ∃ t, exec (.packHostJobEnd k) s = .next t ∧ ended t 0 [k, 1, b.length, 0] ∧ stored t b ∧
            t.fld fPackDecodedCount = (s.fld fPackDecodedCount + 1) % 2 ^ 32) ∧
        (j.decode = true → packDecode j.op.ratio coded = none → 576 ≤ j.op.outLen →
          ∃ t, exec (.packHostJobEnd k) s = .next t ∧ ended t 0 [k, 1, 576, 1] ∧ stored t (List.replicate 576 0) ∧
            t.fld fPackBadCount = (s.fld fPackBadCount + 1) % 2 ^ 32))) ∧
  (∀ (s : State) (h : KciHdr) (k : Nat), k < 16 →
    (∀ out len, out % 64 = 0 → 1 ≤ len → out + len ≤ 2 ^ 35 → kciReady 0x0702 h (keyJob k) s = true →
      (∀ j, mapFind? k s.pack.jobs = some j → j.stopped = true →
        ∃ t, exec (.packResume h k out len) s = .next t ∧ Waits 0x0702 h (keyJob k) (.job k) [fPackJobsHeld.addr] s t ∧ Kept [.regs, .hif, .pack] s t ∧
          mapFind? k t.pack.jobs = some { j with stopped := false, used := 0, op := { j.op with outAddr := out, outLen := len } }) ∧
      ((∀ j, mapFind? k s.pack.jobs = some j → j.stopped = false) →
        ∃ t, exec (.packResume h k out len) s = .next t ∧ Done 0x0702 h 4 [] [] [] s t ∧ Kept [.regs, .hif, .out] s t)) ∧
    (kciReady 0x0703 h (keyJob k) s = true →
      (∀ j, mapFind? k s.pack.jobs = some j → j.stopped = true →
        ∃ t, exec (.packDrop h k) s = .next t ∧ Done 0x0703 h 0 [] [] [fPackJobsHeld.addr] s t ∧ Kept [.regs, .hif, .out, .pack] s t ∧
          t.pack = { s.pack with jobs := mapErase k s.pack.jobs }) ∧
      ((∀ j, mapFind? k s.pack.jobs = some j → j.stopped = false) →
        ∃ t, exec (.packDrop h k) s = .next t ∧ Done 0x0703 h 4 [] [] [] s t ∧ Kept [.regs, .hif, .out] s t)))

/-- MADI ports push received blocks, slip, lock and send (R320, R321, R322, R323; derived).
A locked port pushes a block with KEY = K_e, LENGTH and SEQ as R321 says, shows the drift and K_e moves by BLOCK, or counts a refusal; a drift at the
threshold is one slip, which the next block shows (assumption 65); a lock takes K_e afresh and shows the mode; a loss is latched; a transmitting port takes the item keyed K, sends zeros with V = 1 when there is
none or it is early, and frees and counts late ones.
Completion is stated for the constructors madiRxBlockPush, madiRxSlip, madiLock, madiLockLoss, madiTxExamine. -/
def Obligations.MadiPorts : Prop :=
  ∀ (s : State) (p : Nat), p < 4 →
    let b := madiBlock s p
    let a := s.fld (fMadiPpAccountAccount p)
    let fits : Prop := (s.acct a).held + b ≤ (s.acct a).quota ∧ b ≤ s.seed.freeA
    let short : Prop := ((s.acct a).quota < (s.acct a).held + b ∧ poolSize s ≠ 0) ∨ s.seed.freeA < b
    let m := s.madiPort p
    (∀ (xs : List Word) (v e : Nat) (drift : Int),
      (madiRx s p = false ∨ s.flag (fMadiPpStatRxLock p) = false → exec (.madiRxBlockPush p xs v e drift) s = .next s) ∧
      (madiRx s p = true → s.flag (fMadiPpStatRxLock p) = true →
        (short → ∃ t, exec (.madiRxBlockPush p xs v e drift) s = .next t ∧
          t.fld (fMadiPpRxNocreditCount p) = (s.fld (fMadiPpRxNocreditCount p) + 1) % 2 ^ 32 ∧ (t.fld (fMadiPpPhaseNs p) : Int) = drift % 2 ^ 32 ∧
          t.madiPort p = { m with ke := (m.ke + b) % 2 ^ 32, slips := 0 } ∧ t.mq = s.mq ∧ t.hbm = s.hbm ∧ t.seed.tags = s.seed.tags) ∧
        (∀ x, fits → s.queue? (s.fld (fMadiPpQueueRx p)) = some x → x.mode = .async →
          ∃ t h y, exec (.madiRxBlockPush p xs v e drift) s = .next t ∧ (t.fld (fMadiPpPhaseNs p) : Int) = drift % 2 ^ 32 ∧ t.fld (fMadiPpRxItemsCount p) = (s.fld (fMadiPpRxItemsCount p) + 1) % 2 ^ 32 ∧
            t.fld (fMadiPpRxVbitCount p) = (s.fld (fMadiPpRxVbitCount p) + v) % 2 ^ 32 ∧
            t.fld (fMadiPpRxCodeErrCount p) = (s.fld (fMadiPpRxCodeErrCount p) + e) % 2 ^ 32 ∧
            t.madiPort p = { m with ke := (m.ke + b) % 2 ^ 32, seq := (m.seq + 1) % 65536, slips := 0 } ∧
            t.queue? (s.fld (fMadiPpQueueRx p)) = some y ∧ y.n.pushed = (x.n.pushed + 1) % 2 ^ 32 ∧
            (x.held = [] → x.freedAt = none → pendingPops s (s.fld (fMadiPpQueueRx p)) = 0 → 0 < x.depth → x.account ≠ a →
              (s.acct x.account).held + b ≤ (s.acct x.account).quota → s.tag = (fun _ => {}) → b ≤ poolSize s →
              y.held.map (fun i => i.e) = [{ handle := h, len := 256 * b, seq := m.seq, key := m.ke }])))) ∧
    (∀ drift : Int,
      let reached : Prop := madiRx s p = true ∧ s.flag (fMadiPpStatRxLock p) = true ∧ 62500 * s.fld (fMadiPpCtlSlipThr p) ≤ 3 * drift.natAbs + 2
      (reached → ∃ t, exec (.madiRxSlip p drift) s = .next t ∧ Kept [.regs, .madi] s t ∧
        t.madiPort p = { m with slips := m.slips + (if 0 < drift then 1 else -1) } ∧ RegsKept [(fMadiPpPhaseNs p).addr, (fMadiPpRxSlipCount p).addr] s t ∧
        t.fld (fMadiPpRxSlipCount p) = (s.fld (fMadiPpRxSlipCount p) + 1) % 2 ^ 32 ∧ (t.fld (fMadiPpPhaseNs p) : Int) = drift % 2 ^ 32) ∧
      (¬ reached → exec (.madiRxSlip p drift) s = .next s)) ∧
    (∀ ch56 : Bool,
      (madiRx s p = true → s.flag (fMadiPpStatRxLock p) = false → ∃ t, exec (.madiLock p ch56) s = .next t ∧ Kept [.regs, .madi] s t ∧
        t.flag (fMadiPpStatRxLock p) = true ∧ t.fld (fMadiPpStatRx56 p) = bitOf ch56 ∧ t.fld (fMadiPpPhaseNs p) = 0 ∧
        t.fld (fMadiPpRxRelockCount p) = (s.fld (fMadiPpRxRelockCount p) + bitOf m.locked) % 2 ^ 32 ∧
        t.madiPort p = { m with locked := true, slips := 0, ke := (s.tick / b + 1) * b % 2 ^ 32 }) ∧
      (madiRx s p = false ∨ s.flag (fMadiPpStatRxLock p) = true → exec (.madiLock p ch56) s = .next s)) ∧
    (madiRx s p = true → s.flag (fMadiPpStatRxLock p) = true → ∃ t, exec (.madiLockLoss p) s = .next t ∧ Kept [.regs, .out, .hif] s t ∧
      t.flag (fMadiPpStatRxLock p) = false ∧ t.flag (fMadiPpStatLostLock p) = true ∧ t.flag (fMadiIntStatLostLock.bit p) = true) ∧
    (madiRx s p = false ∨ s.flag (fMadiPpStatRxLock p) = false → exec (.madiLockLoss p) s = .next s) ∧
    (s.flag (fMadiPpCtlEn p) = false ∨ s.flag (fMadiPpCtlTxEn p) = false → exec (.madiTxExamine p) s = .next s) ∧
    (s.flag (fMadiPpCtlEn p) = true → s.flag (fMadiPpCtlTxEn p) = true → s.txHold = [] → timeOfTick (madiExamTick s p) ≤ s.time.t →
      let k := (madiExamTick s p + 1 - b) % 2 ^ 32
      let examined (t : State) : Prop := exec (.madiTxExamine p) s = .next t ∧ t.madiPort p = { m with examined := some (madiExamTick s p) }
      let underrun (t : State) : Prop := examined t ∧ Kept [.regs, .out, .madi] s t ∧ t.out = s.out ++ [.madi p k (List.replicate (64 * b) 0) false {}] ∧
        t.fld (fMadiPpTxUnderCount p) = (s.fld (fMadiPpTxUnderCount p) + 1) % 2 ^ 32
      (s.queue? (s.fld (fMadiPpQueueTx p)) = none → ∃ t, underrun t) ∧
      (∀ x, s.queue? (s.fld (fMadiPpQueueTx p)) = some x → x.mode = .async → x.markSet = false →
        (x.held = [] → ∃ t, underrun t) ∧
        (∀ i rest, x.held = i :: rest → i.at_ ≠ s.clk → i.e.nobuf = false →
          (0 < tickDiff i.e.key k → ∃ t, underrun t) ∧
          (i.e.key = k → ∃ t y o, examined t ∧ t.queue? (s.fld (fMadiPpQueueTx p)) = some y ∧ y.held = rest ∧ y.n.popped = (x.n.popped + 1) % 2 ^ 32 ∧
            MsixAfter s.out o ∧
            t.out = o ++ [.madi p k ((List.range (64 * b)).map (fun j => BitVec.ofNat 32 (leNat (((bufRead s i.e.handle 0 (256 * b)).drop (4 * j)).take 4)))) true {}] ∧
            t.fld (fMadiPpTxItemsCount p) = (s.fld (fMadiPpTxItemsCount p) + 1) % 2 ^ 32) ∧
          (tickDiff i.e.key k < 0 → rest = [] → ∃ t y, examined t ∧ t.queue? (s.fld (fMadiPpQueueTx p)) = some y ∧ y.held = [] ∧
            t.fld (fMadiPpTxLateCount p) = (s.fld (fMadiPpTxLateCount p) + 1) % 2 ^ 32 ∧
            t.fld (fMadiPpTxUnderCount p) = (s.fld (fMadiPpTxUnderCount p) + 1) % 2 ^ 32))))

/-- Radio sample ports run the DC blocker, the numbering, the carriers and the tap (R327, R328, R329, R330, R331, R332, R333, R334, R337, R338, R340,
R342; derived).
A sample moves the DC estimates as R330 says and the numbering by one; a character error replaces it by the last; a resync takes the link down and
abandons the receptions; data resumes with the resets of the enabled carriers due; a SYSREF edge sets or slips the numbering; a carrier reset at its
point clears the carrier, and its first K + 7 outputs settle; a tap item carries 256 outputs.
Completion is stated for the constructors jesdRxCharacterError, jesdRxResync, jesdRxDataResume, jesdTxSyncRequest, sysrefEdge,
carrierSyncReset, sampleTapItemPush, jesdRxSample. -/
def Obligations.SamplePorts : Prop :=
  ∀ (s : State) (p : Nat), p < 8 →
    let r := s.rport p
    (∀ i q : Int, -(2 ^ 15) ≤ i → i < 2 ^ 15 → -(2 ^ 15) ≤ q → q < 2 ^ 15 →
      (rxUp s p = false → exec (.jesdRxSample p i q) s = .next s) ∧
      (rxUp s p = true → r.cars = [] →
        let next (f : Fld) (prev : Int) : Int := signedOf 32 (s.fld f) + nearest (prev * 65536 - signedOf 32 (s.fld f)) (s.fld (fRfpDcbK p))
        ∃ t, exec (.jesdRxSample p i q) s = .next t ∧ Kept [.regs, .rfp] s t ∧
          RegsKept [(fRfpDcbEstIEst p).addr, (fRfpDcbEstQEst p).addr, (fRfpDcClipCount p).addr] s t ∧
          t.rport p = { r with prevI := i, prevQ := q, pos := r.pos.map (· + 1) } ∧
          (s.fld (fRfpDcbFreeze p) = 0 → (t.fld (fRfpDcbEstIEst p) : Int) = next (fRfpDcbEstIEst p) r.prevI % 2 ^ 32 ∧
            (t.fld (fRfpDcbEstQEst p) : Int) = next (fRfpDcbEstQEst p) r.prevQ % 2 ^ 32) ∧
          (s.fld (fRfpDcbFreeze p) = 1 → t.fld (fRfpDcbEstIEst p) = s.fld (fRfpDcbEstIEst p) ∧ t.fld (fRfpDcbEstQEst p) = s.fld (fRfpDcbEstQEst p))) ∧
      (∀ c x n st, rxUp s p = true → c < 12 → r.cars = [(c, x)] → r.pos = some n → x.due = false → x.start = some st → n < st →
        s.flag (fRfpCarCtlEn p c) = true → ∃ t, exec (.jesdRxSample p i q) s = .next t ∧ (t.rport p).pos = some (n + 1) ∧
          t.carrier p c = { x with phi := x.phi + BitVec.ofNat 32 (s.fld (fRfpCarFreqFreq p c)), phiTx := x.phiTx + BitVec.ofNat 32 (s.fld (fRfpCarFreqFreq p c)) })) ∧
    (∀ kind, kind < 3 →
      (rxUp s p = false → exec (.jesdRxCharacterError p kind) s = .next s) ∧
      (rxUp s p = true → -(2 ^ 15) ≤ r.prevI → r.prevI < 2 ^ 15 → -(2 ^ 15) ≤ r.prevQ → r.prevQ < 2 ^ 15 →
        let c := if kind = 0 then fRfpRxDispCount p else if kind = 1 then fRfpRxNitCount p else fRfpRxUnexpCount p
        ∃ t u, exec (.jesdRxCharacterError p kind) s = .next t ∧ u.fld c = (s.fld c + 1) % 2 ^ 32 ∧ Kept [.regs] s u ∧ RegsKept [c.addr] s u ∧
          exec (.jesdRxSample p r.prevI r.prevQ) u = .next t)) ∧
    (∀ ilas : Bool,
      (rxEnabled s p = false → exec (.jesdRxResync p ilas) s = .next s) ∧
      (rxEnabled s p = true → ∃ t, exec (.jesdRxResync p ilas) s = .next t ∧ t.fld (fRfpRxResyncCount p) = (s.fld (fRfpRxResyncCount p) + 1) % 2 ^ 32 ∧
        t.flag (fRfpStatRxCgs p) = false ∧ t.flag (fRfpStatRxData p) = false ∧ t.flag (fRfpStatSysrefOk p) = false ∧ t.flag (fRfpStatLinkLost p) = true ∧
        (ilas = true → t.flag (fRfpStatIlasErr p) = true) ∧ (t.rport p).pos = none ∧
        ((s.mport p).slot = none → t.mdm = s.mdm) ∧
        (∀ st x, (s.mport p).slot = some st → x ∈ s.mdm.rx → x.start = st → linkPort x.link = p → x.stage = .search ∨ x.stage = .header ∨ x.stage = .payload →
          { x with stage := .ended, status := 6 } ∈ t.mdm.rx))) ∧
    (rxEnabled s p = false ∨ s.flag (fRfpStatRxData p) = true → exec (.jesdRxDataResume p) s = .next s) ∧
    (rxEnabled s p = true → s.flag (fRfpStatRxData p) = false → ∃ t, exec (.jesdRxDataResume p) s = .next t ∧ Kept [.regs, .rfp] s t ∧
      RegsKept [(fRfpStatRxData p).addr] s t ∧ rxUp t p = true ∧ t.flag (fRfpStatRxCgs p) = true ∧ (t.rport p).pos = r.pos ∧
      ∀ c, c < 12 → (s.flag (fRfpCarCtlEn p c) = true → (t.carrier p c).due = true) ∧ (s.flag (fRfpCarCtlEn p c) = false → t.carrier p c = s.carrier p c)) ∧
    (s.flag (fRfpCtlEn p) = true → s.flag (fRfpCtlTxEn p) = true → ∃ t, exec (.jesdTxSyncRequest p) s = .next t ∧ Kept [.regs] s t ∧
      RegsKept [(fRfpStatTxData p).addr, (fRfpTxResyncCount p).addr] s t ∧ t.flag (fRfpStatTxData p) = false ∧
      t.fld (fRfpTxResyncCount p) = (s.fld (fRfpTxResyncCount p) + 1) % 2 ^ 32) ∧
    (s.flag (fRfpCtlEn p) = false ∨ s.flag (fRfpCtlTxEn p) = false → exec (.jesdTxSyncRequest p) s = .next s) ∧
    (∀ (d : Int) (pin : Bool),
      (rxUp s p = false ∨ 320 < d.natAbs → exec (.sysrefEdge p d pin) s = .next s) ∧
      (rxUp s p = true → d.natAbs ≤ 320 →
        (r.pos = none → ∃ t, exec (.sysrefEdge p d pin) s = .next t ∧ Kept [.regs, .rfp] s t ∧ RegsKept [(fRfpStatSysrefOk p).addr] s t ∧
          t.flag (fRfpStatSysrefOk p) = true ∧ (t.rport p).pos = some (640 * (nearestTick s : Int) - s.fld (fRfpLatAdjRx p))) ∧
        (∀ n, r.pos = some n → d = 0 → pin = false → (∀ c, c < 12 → (s.carrier p c).due = false) → exec (.sysrefEdge p d pin) s = .next s) ∧
        (∀ n, r.pos = some n → d ≠ 0 → ∃ t, exec (.sysrefEdge p d pin) s = .next t ∧ (t.rport p).pos = some (n + d) ∧
          t.fld (fRfpSysrefSlipCount p) = (s.fld (fRfpSysrefSlipCount p) + 1) % 2 ^ 32 ∧ (t.fld (fRfpSysrefPhaseD p) : Int) = d % 2 ^ 32 ∧
          t.flag (fRfpStatSysrefErr p) = true) ∧
        (pin = true → ∃ t, exec (.sysrefEdge p d pin) s = .next t ∧ ∀ c, c < 12 → s.flag (fRfpCarCtlEn p c) = true →
          s.flag (fRfpCarCtlPinrst p c) = true → (t.carrier p c).due = true))) ∧
    (∀ c, c < 12 →
      ((s.carrier p c).due = false → exec (.carrierSyncReset p c) s = .next s) ∧
      (∀ n, rxUp s p = true → (s.carrier p c).due = true → (s.carrier p c).at_ = some n → r.pos = some n →
        ∃ t, exec (.carrierSyncReset p c) s = .next t ∧ t.fld (fRfpCarResetsCount p c) = (s.fld (fRfpCarResetsCount p c) + 1) % 2 ^ 32 ∧
          (scheduledBytes s (rfpId p) = [] → Kept [.regs, .rfp] s t) ∧ (t.rport p).pos = r.pos ∧ (∀ d, d ≠ c → t.carrier p d = s.carrier p d) ∧
          let k := (carKL t p c).1
          t.carrier p c = { integI := List.replicate k 0, integQ := List.replicate k 0, combI := List.replicate k 0, combQ := List.replicate k 0
                            start := some (n + t.fld (fRfpCarCtlPhase p c)), left := k + 7 })) ∧
    (let a := s.fld (fRfpTapAccountAccount p)
     let fits : Prop := (s.acct a).held + 4 ≤ (s.acct a).quota ∧ 4 ≤ s.seed.freeA
     let short : Prop := ((s.acct a).quota < (s.acct a).held + 4 ∧ poolSize s ≠ 0) ∨ s.seed.freeA < 4
     (r.tap.length < 256 → exec (.sampleTapItemPush p) s = .next s) ∧
     (256 ≤ r.tap.length → short → ∃ t, exec (.sampleTapItemPush p) s = .next t ∧ t.rport p = { r with tap := r.tap.drop 256 } ∧ t.mq = s.mq ∧
       t.fld (fRfpTapNocreditCount p) = (s.fld (fRfpTapNocreditCount p) + 1) % 2 ^ 32) ∧
     (∀ x, 256 ≤ r.tap.length → fits → s.queue? (s.fld (fRfpTapQueue p)) = some x → x.mode = .async →
       ∃ t y, exec (.sampleTapItemPush p) s = .next t ∧ t.rport p = { r with tap := r.tap.drop 256, tapSeq := (r.tapSeq + 1) % 65536 } ∧
         t.fld (fRfpTapItemsCount p) = (s.fld (fRfpTapItemsCount p) + 1) % 2 ^ 32 ∧
         t.queue? (s.fld (fRfpTapQueue p)) = some y ∧ y.n.pushed = (x.n.pushed + 1) % 2 ^ 32))

/-- Slots start, take their entries, transmit and receive (R45, R347, R348, R349, R360, R361, R362, R363, R364, R365, R373, R376; derived).
A slot boundary applies what the links had scheduled, ends the receptions of the last slot and drives PA_EN; TX_LEAD before a downlink slot each
transmitting link gives the entry whose KEY is the slot's start, in its format, or an EMPTY packet, counted; the packet leaves with the ramp of R362,
the lane of R341 and R362 with it, each clamped sample counted, and the downlink SEQ moves; an uplink slot listens on each link with RX_EN, and the AGC steps its gain within its bounds.
Completion is stated for the constructors slotBoundary, downlinkTake, downlinkTransmit, uplinkSlotStart, agcUpdate. -/
def Obligations.RadioSlots : Prop :=
  ∀ (s : State) (p : Nat),
    (modemRuns s p = false → exec (.slotBoundary p) s = .next s ∧ exec (.downlinkTake p) s = .next s ∧ exec (.downlinkTransmit p) s = .next s ∧
      exec (.uplinkSlotStart p) s = .next s ∧ ∀ x, exec (.agcUpdate p x) s = .next s) ∧
    (modemRuns s p = true → s.txHold = [] →
      let m := s.mport p
      (timeOfTick (nextSlot s p) ≤ s.time.t →
        let st := nextSlot s p
        ∃ t, exec (.slotBoundary p) s = .next t ∧ (t.mport p).slot = some st ∧ (t.mport p).begun = false ∧ (t.mport p).taken = m.taken ∧
          (t.mport p).agc = s.reg (0xD0104 + 0x80 * p) ∧ (t.mport p).amp = s.fld fMdmTxAmpAmp ∧ (t.mport p).ofs = m.ofs + m.ofsDue ∧ (t.mport p).ofsDue = 0 ∧
          t.fld (fMdmPpGainPaEn p) = bitOf (slotTransmits t p st) ∧ (slotNo st < 5 → t.flag (fMdmPpGainFrozen p) = true) ∧
          (∀ l x, linkPort l = p → s.mlink l = x →
            (∀ r, x.sched = some r → x.twoLvl = false → x.verNext = none → t.mlink l = { x with rec_ := r, sched := none }) ∧
            (x.sched = none → x.twoLvl = true → x.verNext = none → t.mlink l = { x with rec_ := { x.rec_ with mod := 0 }, twoLvl := false }) ∧
            (∀ v, x.sched = none → x.twoLvl = false → x.verNext = some v →
              t.mlink l = if st % 240 = 0 then { x with rec_ := { x.rec_ with ver := v }, verNext := none } else x) ∧
            (x.sched = none → x.twoLvl = false → x.verNext = none → t.mlink l = x)) ∧
          (∀ r ∈ s.mdm.rx, m.slot = some r.start → linkPort r.link = p → r.stage = .search ∨ r.stage = .header → { r with stage := .ended } ∈ t.mdm.rx)) ∧
      (timeOfTick (takeSlot s p - s.fld (fMdmPpCfgTxLead p)) ≤ s.time.t →
        let st := takeSlot s p
        let took (m' : MPort) : Host.Outcome State Fault Refusal := .next (s.updMport p (fun _ => m'))
        ((∃ l, m.served = some l ∧ st ≤ l) ∨ (∀ c, c < 12 → (s.mlink (slotLink p st c)).rec_.txEn ≠ 1) →
          exec (.downlinkTake p) s = took { m with takenAt := some st }) ∧
        (∀ c, m.served = none → c < 12 → (∀ d, d < 12 → ((s.mlink (slotLink p st d)).rec_.txEn = 1 ↔ d = c)) →
          let l := slotLink p st c
          let x := (s.mlink l).rec_
          (s.queue? x.txQueue = none →
            ∃ t, exec (.downlinkTake p) s = .next t ∧ (t.mport p).taken = m.taken ++ [(st, ⟨l, 1, x.ver, x.pwr, none⟩)] ∧
              (t.mlink l).n.txEmpty = ((s.mlink l).n.txEmpty + 1) % 2 ^ 32) ∧
          (∀ q i rest, s.queue? x.txQueue = some q → q.mode = .fifo → q.markSet = false → q.held = i :: rest →
            (0 < tickDiff i.e.key st →
              ∃ t, exec (.downlinkTake p) s = .next t ∧ (t.mport p).taken = m.taken ++ [(st, ⟨l, 1, x.ver, x.pwr, none⟩)] ∧ t.mq = s.mq) ∧
            (tickDiff i.e.key st = 0 →
              ∃ t q', exec (.downlinkTake p) s = .next t ∧ t.queue? x.txQueue = some q' ∧ q'.held = rest ∧
                (txFormatOk x i.e = true → (t.mlink l).n.txSent = ((s.mlink l).n.txSent + 1) % 2 ^ 32 ∧
                  (t.mport p).taken = m.taken ++ [(st, ⟨l, i.e.aux % 8, i.e.aux / 128 % 4, i.e.aux / 8 % 16, some (i.e, false)⟩)]) ∧
                (txFormatOk x i.e = false → (t.mlink l).n.txFormat = ((s.mlink l).n.txFormat + 1) % 2 ^ 32 ∧
                  (t.mport p).taken = m.taken ++ [(st, ⟨l, 1, x.ver, x.pwr, none⟩)]))))) ∧
      (m.slot = none ∨ m.begun = true → exec (.downlinkTransmit p) s = .next s ∧ exec (.uplinkSlotStart p) s = .next s) ∧
      (∀ st, m.slot = some st → m.begun = false →
        (5 ≤ slotNo st → exec (.downlinkTransmit p) s = .next s) ∧
        (slotNo st < 5 → exec (.uplinkSlotStart p) s = .next s) ∧
        (slotNo st < 5 →
          ((∀ c, c < 12 → (s.mlink (slotLink p st c)).rec_.txEn ≠ 1) →
            ∃ t, exec (.downlinkTransmit p) s = .next t ∧ Kept [.regs, .mdm] s t ∧ t.mport p = { m with begun := true, taken := m.taken.filter (fun k => k.1 != st) } ∧
              t.fld (fMdmPpGainPaEn p) = 0) ∧
          (∀ c, c < 12 → (∀ d, d < 12 → ((s.mlink (slotLink p st d)).rec_.txEn = 1 ↔ d = c)) →
            let l := slotLink p st c
            let x := s.mlink l
            let sends : Bool := s.flag (fRfpCtlEn p) && s.flag (fRfpCtlTxEn p) && s.flag (fRfpStatTxData p) && s.flag (fRfpCarCtlEn p c)
            ∃ t, exec (.downlinkTransmit p) s = .next t ∧ (t.mport p).begun = true ∧ t.fld (fMdmPpGainPaEn p) = 1 ∧
              t.mlink l = { x with seq := (x.seq + 1) % 16 } ∧
              (sends = false → t.out = s.out) ∧
              (sends = true →
                ∃ devs f, t.out = s.out ++ [.radio p c st devs ((List.range 756).map (symbolAmp m.amp m.ramp x.rec_.txAtten)),
                    .radioLane p st (s.fld (fRfpLatAdjTx p)) ((slotLane s p f (slotPackets s p st)).map (fun j => j.1))] ∧
                  t.fld (fRfpTxClipCount p) = (s.fld (fRfpTxClipCount p) + (slotLane s p f (slotPackets s p st)).countP (fun j => j.2)) % 2 ^ 32 ∧
                  (m.taken = [] → devs = packetDeviations (s.fld (fMdmPpCfgSync p)) (headerSymbols x.rec_.ver l 1 x.seq x.rec_.pwr) (x.rec_.mod == 1)
                    (whiten l (radioCodeword (if x.rec_.mod = 1 then 48 else 24) (payloadInfo (List.replicate (if x.rec_.mod = 1 then 94 else 46) 0)))))))) ∧
        (5 ≤ slotNo st →
          (m.repeat_ = true → exec (.uplinkSlotStart p) s = .next (s.updMport p (fun m => { m with begun := true }))) ∧
          (m.repeat_ = false →
            let on := (List.range 12).filter (fun c => (s.mlink (slotLink p st c)).rec_.rxEn == 1)
            let slot (stage : RxStage) (status c : Nat) : RxSlot :=
              { link := slotLink p st c, start := st, rec_ := (s.mlink (slotLink p st c)).rec_, stage := stage, status := status }
            ∃ t, exec (.uplinkSlotStart p) s = .next t ∧ t.mport p = { m with begun := true, updates := 4 } ∧ t.flag (fMdmPpGainFrozen p) = false ∧
              (s.flag (fRfpStatRxData p) = true → t.mdm.rx = s.mdm.rx ++ on.map (slot .search 2) ∧ Kept [.regs, .mdm] s t) ∧
              (s.flag (fRfpStatRxData p) = false → t.mdm.rx = s.mdm.rx ++ on.map (slot .ended 6) ∧
                (on ≠ [] → t.flag (fMdmPpStatAbandon p) = true ∧ t.flag fMdmIntStatAbandon = true))))) ∧
      (∀ d : Int,
        let runs : Prop := agcOn s p = true ∧ s.flag (fMdmPpGainFrozen p) = false ∧ m.updates ≠ 0 ∧ ∃ st, m.slot = some st ∧ 5 ≤ slotNo st
        (¬ runs → exec (.agcUpdate p (100 * d)) s = .next s) ∧
        (runs → ∃ t, exec (.agcUpdate p (100 * d)) s = .next t ∧ Kept [.regs, .mdm] s t ∧ RegsKept [(fMdmPpGainGain p).addr] s t ∧
          t.mport p = { m with updates := m.updates - 1 } ∧ t.fld (fMdmPpGainFrozen p) = s.fld (fMdmPpGainFrozen p) ∧
          (t.fld (fMdmPpGainGain p) : Int) = max 0 (min 63 ((s.fld (fMdmPpGainGain p) : Int) + max (-6) (min 6 (-(agcTarget s p + d))))))))

/-- Receptions go from sync to one delivered entry per slot (R365, R366, R370, R371, R373, R374, R375, R377, R378, R380, R381, R483; derived).
A detection at or above the threshold starts, replaces or captures the reception; a header is refused, aborts on a wrong link, ends an EMPTY slot or
goes on; a payload goes to the LDPC pool and its CRC-16 decides the slot; the engine then delivers one entry with the status, the counts and RX_FLAG;
a beltpack's JOIN is answered with what both sides offer; MODEM.LINK and STATS act on their link.
Completion is stated for the constructors modemPostResume, syncDetection, headerDecoded, payloadSubmit, radioLdpcJobComplete,
uplinkEntryDelivery, syncWindowClose, beltpackJoin, modemLink, modemLinkStats. -/
def Obligations.RadioReceptions : Prop :=
  (∀ (s : State) (p c : Nat), modemRuns s p = true →
    (s.rxSlot p c = none → (∀ a b k o, exec (.syncDetection p c a b k o) s = .next s) ∧ (∀ bs, exec (.headerDecoded p c bs) s = .next s) ∧
      exec (.syncWindowClose p c) s = .next s) ∧
    ∀ r, s.rxSlot p c = some r →
      (∀ corr pos rssi : Nat, ∀ ofs : Int, -(2 ^ 15) ≤ ofs → ofs < 2 ^ 15 → rssi ≤ 400 →
        let i : Instr := .syncDetection p c corr pos rssi ofs
        let d : Detect := ⟨corr, pos, rssi, ofs⟩
        let margin := s.fld (fMdmPpCfgCapMargin p)
        let became (r' : RxSlot) : Prop := ∃ t, exec i s = .next t ∧ Kept [.regs, .out, .hif, .pmu, .mdm] s t ∧ t.rxSlot p c = some r'
        let captured : Prop := ∃ t, exec i s = .next t ∧ Kept [.regs, .out, .hif, .pmu, .mdm] s t ∧ t.flag (fMdmPpGainFrozen p) = true ∧
          t.rxSlot p c = some { r with stage := .header, cur := some d, hdr := none, cand := none, capt := true } ∧
          t.fld (fMdmPpCapturedCount p) = (s.fld (fMdmPpCapturedCount p) + 1) % 2 ^ 32
        (corr < s.fld (fMdmPpCfgSyncThr p) ∨ s.fld (fMdmPpCfgSyncWin p) < apart pos 80 ∨ r.closed = true → exec i s = .next s) ∧
        (s.fld (fMdmPpCfgSyncThr p) ≤ corr → corr ≤ 32 → apart pos 80 ≤ s.fld (fMdmPpCfgSyncWin p) → r.closed = false →
          (r.stage = .search → became { r with stage := .header, cur := some d, hdr := none }) ∧
          (∀ x, r.stage = .header → r.cur = some x →
            (apart pos x.p ≤ 1 → x.c < corr → became { r with cur := some d }) ∧
            (apart pos x.p ≤ 1 → corr ≤ x.c → exec i s = .next s) ∧
            (1 < apart pos x.p → margin ≠ 0 → x.rssi + 4 * margin ≤ rssi → captured) ∧
            (1 < apart pos x.p → margin = 0 ∨ rssi < x.rssi + 4 * margin →
              (r.cand = none → became { r with cand := some d }) ∧
              (∀ y, r.cand = some y → became { r with cand := some (if y.c < corr then d else y) }))) ∧
          (∀ x, r.stage = .payload → r.cur = some x →
            (1 < apart pos x.p → margin ≠ 0 → x.rssi + 4 * margin ≤ rssi → captured) ∧
            (apart pos x.p ≤ 1 ∨ margin = 0 ∨ rssi < x.rssi + 4 * margin → exec i s = .next s)) ∧
          (r.stage = .decoding ∨ r.stage = .ended → exec i s = .next s))) ∧
      (∀ bs : List Bool,
        let i : Instr := .headerDecoded p c bs
        let h : RadioHdr := ⟨msbNat (bs.take 2), msbNat ((bs.drop 11).take 3), msbNat ((bs.drop 14).take 4), msbNat ((bs.drop 18).take 4)⟩
        let became (r' : RxSlot) : Prop := ∃ t, exec i s = .next t ∧ t.rxSlot p c = some r'
        let bad : Prop := bs.length ≠ 36 ∨ crc6 (bs.take 30) ≠ msbNat (bs.drop 30) ∨ 3 ≤ h.typ
        (r.stage ≠ .header → exec i s = .next s) ∧
        (r.stage = .header → r.closed = false →
          (bad → (r.cand = none → became { r with stage := .search, status := 3, false_ := true }) ∧
            (∀ d, r.cand = some d → became { r with cur := some d, hdr := none, cand := none, status := 3, false_ := true }) ∧
            ∃ t, exec i s = .next t ∧ t.fld (fMdmPpFalseSyncCount p) = (s.fld (fMdmPpFalseSyncCount p) + 1) % 2 ^ 32) ∧
          (¬ bad → msbNat ((bs.drop 2).take 9) ≠ r.link → r.cand = none → became { r with stage := .search, status := 4, hdr := some h }) ∧
          (¬ bad → msbNat ((bs.drop 2).take 9) = r.link →
            became (if h.typ = 1 then { r with stage := .ended, status := 1, hdr := some h, cand := none } else { r with stage := .payload, hdr := some h, cand := none })))) ∧
      (symbolTime r.start (80 + s.fld (fMdmPpCfgSyncWin p)) ≤ s.time.t →
        ∃ t, exec (.syncWindowClose p c) s = .next t ∧ Kept [.mdm] s t ∧
          t.rxSlot p c = some { r with closed := true, stage := if r.stage = .search then .ended else r.stage })) ∧
  (∀ (s : State) (p c : Nat),
    let wanted (r : RxSlot) : Bool := decide (linkPort r.link = p) && decide (linkCarrier r.link = c) && decide (r.stage = .payload)
    (s.mdm.rx.find? wanted = none → exec (.payloadSubmit p c) s = .next s) ∧
    (∀ r, s.mdm.rx.find? wanted = some r → modemRuns s p = true →
      ∃ t, exec (.payloadSubmit p c) s = .next t ∧ { r with stage := .decoding } ∈ t.mdm.rx ∧
        (s.flag fLdpcCtlEn = true → s.mdm.wait = [] → s.mdm.run.length < 16 →
          t.mdm.run = s.mdm.run ++ [⟨r.link, r.start, s.clk, s.fld fLdpcIterRadio⟩] ∧ t.mdm.wait = [] ∧ t.fld fLdpcStatBusyRadio = s.mdm.run.length + 1) ∧
        (s.flag fLdpcCtlEn = false ∨ 16 ≤ s.mdm.run.length → t.mdm.run = s.mdm.run ∧ t.mdm.wait = s.mdm.wait ++ [⟨r.link, r.start, s.clk, 0⟩])) ∧
    (∀ (conv : Bool) (iters : Nat) (info : List Bool),
      let mine (j : LdpcJob) : Bool := decide (linkPort j.link = p) && decide (linkCarrier j.link = c)
      (s.mdm.run.find? mine = none → exec (.radioLdpcJobComplete p c conv iters info) s = .next s) ∧
      (∀ j, s.mdm.run.find? mine = some j → s.mdm.wait = [] →
        let n := if conv then max 1 (min iters j.iters) else j.iters
        ∃ t, exec (.radioLdpcJobComplete p c conv iters info) s = .next t ∧ Kept [.regs, .mdm] s t ∧ t.mdm.run = s.mdm.run.erase j ∧
          t.fld fLdpcRadioJobsCount = (s.fld fLdpcRadioJobsCount + 1) % 2 ^ 32 ∧ t.fld fLdpcRadioIterCount = (s.fld fLdpcRadioIterCount + n) % 2 ^ 32 ∧
          t.fld fLdpcRadioUnconvCount = (s.fld fLdpcRadioUnconvCount + bitOf (!conv)) % 2 ^ 32 ∧
          ∀ r, s.mdm.rx.find? (fun r => decide (r.link = j.link) && decide (r.start = j.start) && decide (r.stage = .decoding)) = some r →
            let k := if r.rec_.mod = 1 then 768 else 384
            (payloadOk k info = false → { r with stage := .ended, status := 5, iter := n, info := [] } ∈ t.mdm.rx) ∧
            (payloadOk k info = true → { r with stage := .ended, status := 0, iter := n, info := bitBytes (k / 8 - 2) info } ∈ t.mdm.rx)))) ∧
  (∀ (s : State) (l : Nat), l < 480 →
    let mine (r : RxSlot) : Bool := decide (r.link = l) && decide (r.stage = .ended)
    let counter (status : Nat) : Fld := ⟨0xD0110 + 0x80 * linkPort l + 4 * status, 0, 32⟩
    (s.mdm.rx.find? mine = none → exec (.uplinkEntryDelivery l) s = .next s) ∧
    (∀ r q, s.mdm.rx.find? mine = some r → s.queue? r.rec_.rxQueue = some q → q.mode = .fifo → (s.mport (linkPort l)).posts = [] →
      let posted (t : State) : Prop := ∀ d, s.node? r.rec_.rxNode = some d → plainPost d →
        (t.mport (linkPort l)).posts = [] ∧ t.node? r.rec_.rxNode = some { d with flags := d.flags ||| 2 ^ r.rec_.rxFlag }
      let pushed (t : State) : Prop := exec (.uplinkEntryDelivery l) s = .next t ∧ t.mdm.rx = s.mdm.rx.erase r ∧
        ∃ y, t.queue? r.rec_.rxQueue = some y ∧ y.n.pushed = (q.n.pushed + 1) % 2 ^ 32
      (1 ≤ r.status → r.status ≤ 6 →
        ∃ t, pushed t ∧ posted t ∧ t.fld (counter r.status) = (s.fld (counter r.status) + 1) % 2 ^ 32 ∧ (t.mlink l).status = r.status ∧
          (q.count < q.depth → ∃ y, t.queue? r.rec_.rxQueue = some y ∧ y.held.map (fun i => i.e) = q.held.map (fun i => i.e) ++
            [{ nobuf := true, seq := (match r.hdr with | some h => h.seq | none => 0), key := r.start % 2 ^ 32, aux := rxAux r r.status }])) ∧
      (let a := s.fld fMdmAccountAccount
       let fits : Prop := (s.acct a).held + 1 ≤ (s.acct a).quota ∧ 1 ≤ s.seed.freeA
       let short : Prop := ((s.acct a).quota < (s.acct a).held + 1 ∧ poolSize s ≠ 0) ∨ s.seed.freeA < 1
       r.status = 0 →
        (fits → ∃ t, pushed t ∧ t.fld (counter 0) = (s.fld (counter 0) + 1) % 2 ^ 32 ∧ (t.mlink l).status = 0) ∧
        (short → ∃ t, pushed t ∧ t.fld (counter 7) = (s.fld (counter 7) + 1) % 2 ^ 32 ∧ t.flag fMdmIntStatNocredit = true)))) ∧
  (∀ (s : State) (p : Nat),
    ((s.mport p).posts = [] → exec (.modemPostResume p) s = .next s) ∧
    (∀ n f rest d, (s.mport p).posts = (n, f) :: rest → s.node? n = some d →
      (readies (2 ^ f) d = true → storeFull s d.set.home = true → exec (.modemPostResume p) s = .next s) ∧
      (rest = [] → plainPost d → ∃ t, exec (.modemPostResume p) s = .next t ∧ Kept [.bull, .mdm] s t ∧ (t.mport p).posts = [] ∧
        OnlyNode n { d with flags := d.flags ||| 2 ^ f } s t))) ∧
  (∀ (s : State) (l : Nat) (o : WlOffer),
    let hears : Prop := svcUp s = true ∧ s.flag fMdmCtlEn = true ∧ l < 480 ∧ (s.mlink l).rec_.rxEn = 1
    (¬ hears → exec (.beltpackJoin l o) s = .next s) ∧
    (hears →
      (agree o = none → exec (.beltpackJoin l o) s = .next (s.emit (.beltAnswer l [3, 0, 0, 8, 0, 0]))) ∧
      (∀ m n c, agree o = some (m, n, c) → ∃ t, exec (.beltpackJoin l o) s = .next t ∧ Kept [.out, .mdm] s t ∧
        t.out = s.out ++ [.beltAnswer l [2, BitVec.ofNat 8 (16 * m + n), BitVec.ofNat 8 c, 0, 0, 0]] ∧
        t.mlink l = { s.mlink l with agreed := some (m, n, c), verNext := some m, twoLvl := !c.testBit 1 } ∧ ∀ j, j ≠ l → t.mlink j = s.mlink j))) ∧
  (∀ (s : State) (h : KciHdr),
    (∀ o : ModemOp, kciReady 0x0B01 h (keyLink o.link) s = true → firstErr (modemChecks o) = none →
      let ok : Prop := (o.rxEn = 1 → queueIs s o.rxQueue .fifo = true ∧ (hostNode s o.rxNode).isSome = true) ∧ (o.txEn = 1 → queueIs s o.txQueue .fifo = true)
      (¬ ok → ∃ t, exec (.modemLink h o) s = .next t ∧ Done 0x0B01 h 4 [] [] [] s t ∧ Kept [.regs, .hif, .out] s t) ∧
      (ok → (s.mlink o.link).sched ≠ none → ∃ t, exec (.modemLink h o) s = .next t ∧ Done 0x0B01 h 3 [] [] [] s t ∧ Kept [.regs, .hif, .out] s t) ∧
      (ok → (s.mlink o.link).sched = none → ∃ t, exec (.modemLink h o) s = .next t ∧ Waits 0x0B01 h (keyLink o.link) (.modem o.link) [] s t ∧ Kept [.hif, .mdm] s t ∧
        t.mlink o.link = { s.mlink o.link with sched := some o } ∧ ∀ j, j ≠ o.link → t.mlink j = s.mlink j)) ∧
    (∀ (l : Nat) (clear : Bool), l < 480 → kciReady 0x0B02 h (keyLink l) s = true →
      ∃ t, exec (.modemLinkStats h l clear) s = .next t ∧ Done 0x0B02 h 0 [80] [.result h.raddr (linkWords (s.mlink l))] [] s t ∧
        Kept [.regs, .hif, .out, .mdm] s t ∧ t.mlink l = (if clear then { s.mlink l with n := {} } else s.mlink l) ∧ ∀ j, j ≠ l → t.mlink j = s.mlink j))

/-- Peer links agree a version, keep alive and close (R480, R481, R482, R483; derived).
On an open link that is up, HELLO and HELLO_ACK agree the highest shared version and its capabilities or reject the link, KEEPALIVE and CONTROL keep
it alive, with a CONTROL outside the agreement dropped and counted, REJECT and BYE end it; a silent link of 3 s says HELLO again and an idle one says
KEEPALIVE after 1 s; LINK.OPEN, CLOSE and STATUS act on the link they name.
Completion is stated for the constructors wlHelloReceive, wlHelloAckReceive, wlKeepaliveReceive, wlControlReceive, wlRejectReceive,
wlByeReceive, wlHelloResend, wlKeepaliveSend, wlPeerTimeout, linkOpen, linkClose, linkStatus. -/
def Obligations.PeerLinks : Prop :=
  (∀ (s : State) (l : Nat) (x : WlLink), s.peer? l = some x → svcUp s = true → linkUp s x.port = true →
    let quiet : Prop := s.hif.waits = [] ∧ s.flag (fNetCtlLoop x.port) = false
    let only (y : Option WlLink) (t : State) : Prop := t.peer? l = y ∧ ∀ j, j ≠ l → t.peer? j = s.peer? j
    let ended (w : KciWait) (status : Nat) (t : State) : Prop := ∃ slot phase, OutMsg.completion slot w.tag w.op status phase [] ∈ t.out
    (∀ o : WlOffer,
      (∀ m n c, agree o = some (m, n, c) →
        let y : WlLink := { x with st := 1, maj := m, min := n, cap := c, peer := some o, heard := s.clk }
        (∃ t, exec (.wlHelloReceive l o) s = .next t ∧ only (some { y with seq := (x.seq + 1) % 2 ^ 32 }) t ∧ .peer l 2 m n x.seq helloBody ∈ t.out ∧
          (quiet → Kept [.out, .peers] s t ∧ t.out = s.out ++ [.peer l 2 m n x.seq helloBody])) ∧
        (s.hif.waits = [] → ∃ t, exec (.wlHelloAckReceive l o) s = .next t ∧ Kept [.peers] s t ∧ only (some y) t) ∧
        (∀ w, s.hif.waits = [w] → w.on = .link l → ∃ t, exec (.wlHelloAckReceive l o) s = .next t ∧ only (some y) t ∧ t.hif.waits = [] ∧ ended w 0 t)) ∧
      (agree o = none →
        let y : WlLink := { x with st := 3, maj := 0, min := 0, cap := 0, heard := s.clk, seq := (x.seq + 1) % 2 ^ 32 }
        ∀ i, i = Instr.wlHelloReceive l o ∨ i = .wlHelloAckReceive l o →
          ∃ t, exec i s = .next t ∧ only (some y) t ∧ .peer l 5 0 0 x.seq [0x08] ∈ t.out ∧
            (quiet → Kept [.out, .peers] s t ∧ t.out = s.out ++ [.peer l 5 0 0 x.seq [0x08]]))) ∧
    (∃ t, exec (.wlKeepaliveReceive l) s = .next t ∧ Kept [.peers] s t ∧ only (some { x with heard := s.clk }) t) ∧
    (∀ (kind : Nat) (body : List Byte),
      let allowed : Prop := x.st = 1 ∧ (kind = 1 ∨ kind = 2 ∨ (kind = 3 ∧ x.cap.testBit 0 = true) ∨ (kind = 4 ∧ x.cap.testBit 4 = true))
      (allowed → ∃ t, exec (.wlControlReceive l kind body) s = .next t ∧ Kept [.peers] s t ∧ only (some { x with heard := s.clk }) t) ∧
      (¬ allowed → ∃ t, exec (.wlControlReceive l kind body) s = .next t ∧ Kept [.peers] s t ∧ only (some { x with drops := x.drops + 1, heard := s.clk }) t)) ∧
    (∀ code : Nat,
      let y : WlLink := { x with st := 3, maj := 0, min := 0, cap := 0, heard := s.clk }
      (s.hif.waits = [] → ∃ t, exec (.wlRejectReceive l code) s = .next t ∧ Kept [.peers] s t ∧ only (some y) t) ∧
      (∀ w, s.hif.waits = [w] → w.on = .link l → ∃ t, exec (.wlRejectReceive l code) s = .next t ∧ only (some y) t ∧ ended w 8 t)) ∧
    (s.hif.waits = [] → ∃ t, exec (.wlByeReceive l) s = .next t ∧ Kept [.free, .peers] s t ∧ only none t)) ∧
  (∀ (s : State) (l : Nat), (s.peer? l = none ∨ svcUp s = false ∨ ∀ x, s.peer? l = some x → linkUp s x.port = false) →
    (∀ o, exec (.wlHelloReceive l o) s = .next s ∧ exec (.wlHelloAckReceive l o) s = .next s) ∧ exec (.wlKeepaliveReceive l) s = .next s ∧
    (∀ k b, exec (.wlControlReceive l k b) s = .next s) ∧ (∀ c, exec (.wlRejectReceive l c) s = .next s) ∧ exec (.wlByeReceive l) s = .next s) ∧
  (∀ (s : State) (l : Nat), s.peer? l = none ∨ svcUp s = false →
    exec (.wlHelloResend l) s = .next s ∧ exec (.wlKeepaliveSend l) s = .next s ∧ exec (.wlPeerTimeout l) s = .next s) ∧
  (∀ (s : State) (l : Nat) (x : WlLink), s.peer? l = some x → svcUp s = true →
    let sends (i : Instr) (typ : Nat) (body : List Byte) (y : WlLink) : Prop :=
      (linkUp s x.port = true → ∃ t, exec i s = .next t ∧ t.peer? l = some { y with sent := s.clk, seq := (x.seq + 1) % 2 ^ 32 } ∧
        .peer l typ y.maj y.min x.seq body ∈ t.out ∧
        (s.flag (fNetCtlLoop x.port) = false → Kept [.out, .peers] s t ∧ t.out = s.out ++ [.peer l typ y.maj y.min x.seq body])) ∧
      (linkUp s x.port = false → ∃ t, exec i s = .next t ∧ Kept [.peers] s t ∧ t.peer? l = some { y with sent := s.clk })
    (x.st = 0 ∨ x.st = 2 → x.sent + 25000000 ≤ s.clk → sends (.wlHelloResend l) 1 helloBody x) ∧
    (x.st = 1 → x.sent + 25000000 ≤ s.clk → sends (.wlKeepaliveSend l) 3 [] x) ∧
    (x.st = 1 → x.heard + 75000000 ≤ s.clk → sends (.wlPeerTimeout l) 1 helloBody { x with st := 2, maj := 0, min := 0, cap := 0 }) ∧
    (x.st ≠ 0 → x.st ≠ 2 → exec (.wlHelloResend l) s = .next s) ∧
    (x.st ≠ 1 → exec (.wlKeepaliveSend l) s = .next s ∧ exec (.wlPeerTimeout l) s = .next s)) ∧
  (∀ (s : State) (h : KciHdr) (l : Nat), l < 64 →
    (∀ port ip udp, port < 4 → ip < 2 ^ 128 → udp < 65536 → kciReady 0x0A01 h (keyLink l) s = true →
      let y : WlLink := { port := port, ip := ip, udp := udp, heard := s.clk, sent := s.clk }
      (s.peer? l ≠ none → ∃ t, exec (.linkOpen h l port ip udp) s = .next t ∧ Done 0x0A01 h 4 [] [] [] s t ∧ Kept [.regs, .hif, .out] s t) ∧
      (s.peer? l = none → linkUp s port = false → ∃ t, exec (.linkOpen h l port ip udp) s = .next t ∧ Waits 0x0A01 h (keyLink l) (.link l) [] s t ∧
        Kept [.hif, .peers] s t ∧ t.peer? l = some y) ∧
      (s.peer? l = none → linkUp s port = true → ∃ t, exec (.linkOpen h l port ip udp) s = .next t ∧ .peer l 1 0 0 0 helloBody ∈ t.out ∧
        (s.flag (fNetCtlLoop port) = false → Kept [.hif, .out, .peers] s t ∧ t.out = s.out ++ [.peer l 1 0 0 0 helloBody]) ∧ t.hif.waits = s.hif.waits ++ [⟨h.tag, 0x0A01, keyLink l, .link l⟩] ∧ t.peer? l = some { y with seq := 1 })) ∧
    (kciReady 0x0A02 h (keyLink l) s = true →
      (s.peer? l = none → ∃ t, exec (.linkClose h l) s = .next t ∧ Done 0x0A02 h 4 [] [] [] s t ∧ Kept [.regs, .hif, .out] s t) ∧
      (∀ x, s.peer? l = some x → ∃ t, exec (.linkClose h l) s = .next t ∧ Completed 0x0A02 h 0 [] s t ∧
        t.peer? l = none ∧ (∀ j, j ≠ l → t.peer? j = s.peer? j) ∧
        (s.hif.waits = [] → s.flag (fNetCtlLoop x.port) = false →
          Done 0x0A02 h 0 [] (if linkUp s x.port then [.peer l 6 x.maj x.min x.seq []] else []) [] s t ∧ Kept [.regs, .hif, .out, .free, .peers] s t))) ∧
    (kciReady 0x0A03 h (keyLink l) s = true →
      (s.peer? l = none → ∃ t, exec (.linkStatus h l) s = .next t ∧ Done 0x0A03 h 4 [] [] [] s t ∧ Kept [.regs, .hif, .out] s t) ∧
      (∀ x, s.peer? l = some x → ∃ t, exec (.linkStatus h l) s = .next t ∧
        Done 0x0A03 h 0 ([x.st, x.maj, x.min, x.cap] ++ slot8 (match x.peer with | some o => o.deviceId | none => 0)) [] [] s t ∧ Kept [.regs, .hif, .out] s t)))

/-- GRAPH.LOAD is all or nothing, UNLOAD waits for the nodes and RELOAD writes the same ranges (R197, R198, R478, R479, R489; derived).
A header that fails its checks answers E_VERSION and nothing changes, and so does a record whose operands fail theirs, with its own code; a read of
HBM that fails answers E_FAULT, with an Umpire event. A load writes a code or shared-data record into each cluster it names and owns
the account it opens, or fails with the first record that fails and changes nothing; an unload of a graph without nodes ends with its queues and
accounts closed, a running node is cancelled and waited for, and an object outside that names the graph's holds it off with E_BUSY; a reload of the
same ranges writes them again.
Completion is stated for the constructors graphLoad, graphUnload, graphReload. -/
def Obligations.GraphCommands : Prop :=
  ∀ (s : State) (h : KciHdr) (g : Nat), g < 256 →
    let failed (i : Instr) (op status : Nat) : Prop := ∃ t, exec i s = .next t ∧ Done op h status [] [] [] s t ∧ Kept [.regs, .hif, .out] s t
    let wrote (shared : Bool) (x : GraphBytes) (t : State) : Prop := ∀ n a,
      let old := if shared then memRead (s.cl n).data a else memRead (s.cl n).code a
      let new := if shared then memRead (t.cl n).data a else memRead (t.cl n).code a
      let at_ := if shared then x.addr - 0x100000 else x.addr
      new = if n < 16 ∧ x.clusters.testBit n = true ∧ at_ ≤ a ∧ a < at_ + x.bytes.length then x.bytes.getD (a - at_) 0 else old
    let faulted (op : Nat) (i : Instr) : Prop := s.flag fUmpCtlEccEn = true → ∃ t, exec i s = .next t ∧ Completed op h 9 [] s t ∧ UmpCounted 1 s t ∧
      Kept [.regs, .hif, .out, .hbm, .free] s t
    let blank : GraphImage := ⟨0x4B47, 1, true, true, [], [], [], [], [], [], [], [], []⟩
    (∀ addr len, 1 ≤ len → addr + len ≤ 2 ^ 35 → kciReady 0x0101 h none s = true →
      let load (img : GraphImage) : Instr := .graphLoad h g addr len img
      (∀ img, img.magic ≠ 0x4B47 ∨ img.ver ≠ 1 ∨ img.crcOk = false → failed (load img) 0x0101 8) ∧
      (∀ img, img.magic = 0x4B47 → img.ver = 1 → img.crcOk = true →
        (∀ e, firstErr (imageChecks img) = some e → failed (load img) 0x0101 e) ∧
        (firstErr (imageChecks img) = none → mapFind? g s.graphs ≠ none → failed (load img) 0x0101 4)) ∧
      (mapFind? g s.graphs = none →
        (∀ (shared : Bool) (x : GraphBytes), x.clusters < 65536 →
          let img : GraphImage := if shared then { blank with shared := [x] } else { blank with code := [x] }
          (rangeInside shared x = false ∨ rangeTaken shared g x s = true → failed (load img) 0x0101 5) ∧
          (rangeInside shared x = true → rangeTaken shared g x s = false →
            faulted 0x0101 (load { img with hbmOk := false }) ∧
            (s.flag fUmpCtlEccEn = false → exec (load { img with hbmOk := false }) s = exec (load img) s) ∧
            ∃ t r, exec (load img) s = .next t ∧ Done 0x0101 h 0 [] [] [] s t ∧ Kept [.regs, .hif, .out, .graphs, .clu] s t ∧ wrote shared x t ∧
              mapFind? g t.graphs = some r ∧ r = (if shared then { shared := [(x.clusters, x.addr, x.bytes.length)] }
                else { code := [(x.clusters, x.addr, x.bytes.length)] }))) ∧
        (∀ o : AccountOp, AccountLegal o → o.kind ≠ 3 → (s.acct o.account).kind = .closed →
          (∃ t, exec (load { blank with accounts := [o] }) s = .next t ∧ Done 0x0101 h 0 [] [] [] s t ∧ Kept [.regs, .hif, .out, .graphs, .seed] s t ∧
            OnlyAcct o.account { kind := kindOf o.kind, quota := o.quota, releases := if o.kind = 4 then o.releases else 0, attach := o.attach } s t ∧
            mapFind? g t.graphs = some { accounts := [o.account] }) ∧
          (∀ q : QueueOp, QueueLegal q → s.queue? q.queue ≠ none → failed (load { blank with accounts := [o], queues := [q] }) 0x0101 4)))) ∧
    (kciReady 0x0102 h none s = true →
      (mapFind? g s.graphs = none → failed (.graphUnload h g) 0x0102 4) ∧
      (∀ x, mapFind? g s.graphs = some x → s.flag fBullCtlEn = true →
        (x.unload = true ∨ namedOutside x s = true → failed (.graphUnload h g) 0x0102 3) ∧
        (x.unload = false → namedOutside x s = false →
          (x.nodes = [] → s.hif.waits = [] →
            ∃ t, exec (.graphUnload h g) s = .next t ∧ Completed 0x0102 h 0 [] s t ∧ mapFind? g t.graphs = none ∧ (∀ q ∈ x.queues, t.queue? q = none) ∧
              ∀ a ∈ x.accounts, (t.acct a).kind = .closed) ∧
          (∀ n d, x.nodes = [n] → s.node? n = some d → d.st = .running →
            ∃ t, exec (.graphUnload h g) s = .next t ∧ Waits 0x0102 h none (.graph g) [] s t ∧ Kept [.hif, .bull, .graphs] s t ∧
              OnlyNode n { d with st := .cancelPending } s t ∧ mapFind? g t.graphs = some { x with unload := true })))) ∧
    (∀ addr len img, 1 ≤ len → addr + len ≤ 2 ^ 35 → img.magic = 0x4B47 → img.ver = 1 → img.crcOk = true → kciReady 0x0103 h none s = true →
      let same (x : Graph) : Prop := x.code = img.code.map (fun r => (r.clusters, r.addr, r.bytes.length)) ∧
        x.shared = img.shared.map (fun r => (r.clusters, r.addr, r.bytes.length))
      (mapFind? g s.graphs = none → failed (.graphReload h g addr len img) 0x0103 4) ∧
      (∀ x, mapFind? g s.graphs = some x →
        (x.unload = true ∨ ¬ same x → failed (.graphReload h g addr len img) 0x0103 4) ∧
        (x.unload = false → same x → img.hbmOk = false → faulted 0x0103 (.graphReload h g addr len img)) ∧
        (∀ y, x.unload = false → same x → img.hbmOk = true ∨ s.flag fUmpCtlEccEn = false → img.code = [y] → img.shared = [] →
          ∃ t, exec (.graphReload h g addr len img) s = .next t ∧ Done 0x0103 h 0 [] [] [] s t ∧ Kept [.regs, .hif, .out, .clu] s t ∧ wrote false y t)))

/-- CFG.STAGE lays bytes aside, and CFG.COMMIT applies them together at the commit point (R17, R93, R132, R296, R297, R298, R299, R300, R301, R344;
derived).
With KCI ready, a stage keeps the bytes beside what was staged, or fails where the target is absent, scheduled or one too many; a discard drops them;
a commit on a disarmed node applies at once, on any other it waits, on a flow it replaces the block when its checks pass, on PACK it applies at once,
and on another block it waits for its commit point; an error changes nothing.
Completion is stated for the constructors cfgStage, cfgCommit, cfgCommitDiscard. -/
def Obligations.StagedChanges : Prop :=
  ∀ (s : State) (h : KciHdr) (target : Nat), chkTarget target = none →
    let n := target % 2 ^ 28
    (kciReady 0x0301 h (keyTarget target) s = true → ∀ (offset len : Nat) (data : List Byte), offset < 2 ^ 24 → 1 ≤ len → len ≤ 48 → len ≤ data.length →
      (∀ i, i < len → mayStage s target (offset + i) = true) →
      let i : Instr := .cfgStage h target offset len data
      let failed (status : Nat) : Prop := ∃ t, exec i s = .next t ∧ Done 0x0301 h status [] [] [] s t ∧ Kept [.regs, .hif, .out] s t
      (targetIs s target = false → failed 4) ∧
      (targetIs s target = true → isScheduled s target = true → failed 3) ∧
      (targetIs s target = true → isScheduled s target = false →
        (mapFind? target s.cfg = none → 1024 ≤ s.cfg.length → failed 6) ∧
        (mapFind? target s.cfg ≠ none ∨ s.cfg.length < 1024 →
          ∃ t y, exec i s = .next t ∧ Done 0x0301 h 0 [] [] [] s t ∧ Kept [.regs, .hif, .out, .cfg] s t ∧
            mapFind? target t.cfg = some y ∧ (∀ j, j ≠ target → mapFind? j t.cfg = mapFind? j s.cfg) ∧
            ∀ a, mapFind? a y.bytes = if offset ≤ a ∧ a < offset + len then data[a - offset]? else mapFind? a (mapGet ({} : Stage) target s.cfg).bytes))) ∧
    (kciReady 0x0302 h (keyTarget target) s = true →
      let failed (i : Instr) (status : Nat) : Prop := ∃ t, exec i s = .next t ∧ Done 0x0302 h status [] [] [] s t ∧ Kept [.regs, .hif, .out] s t
      let i : Instr := .cfgCommit h target
      (isScheduled s target = true → failed i 3 ∧ failed (.cfgCommitDiscard h target) 3) ∧
      (isScheduled s target = false → mapFind? target s.cfg = none → failed i 4 ∧ failed (.cfgCommitDiscard h target) 4) ∧
      ∀ x, isScheduled s target = false → mapFind? target s.cfg = some x →
        (∃ t, exec (.cfgCommitDiscard h target) s = .next t ∧ Done 0x0302 h 0 [] [] [] s t ∧ Kept [.regs, .hif, .out, .cfg] s t ∧
          mapFind? target t.cfg = none ∧ ∀ j, j ≠ target → mapFind? j t.cfg = mapFind? j s.cfg) ∧
        (target / 2 ^ 28 = 0 → ∀ d, hostNode s n = some d →
          let desc := (x.bytes.filter (fun b => decide (0x800000 ≤ b.1))).map (fun b => (b.1 - 0x800000, b.2))
          let ctx := x.bytes.filter (fun b => decide (b.1 < 0x800000))
          (∀ e, firstErr (nodeSetChecks s n d desc ctx) = some e → failed i e) ∧
          (firstErr (nodeSetChecks s n d desc ctx) = none → d.st ≠ .disarmed →
            ∃ t, exec i s = .next t ∧ Waits 0x0302 h (keyTarget target) (.commit 0 n) [] s t ∧ Kept [.hif, .bull, .cfg] s t ∧
              OnlyNode n { d with staged := some (stagedSet d desc), stagedCtx := ctx } s t ∧ mapFind? target t.cfg = none) ∧
          (firstErr (nodeSetChecks s n d desc ctx) = none → d.st = .disarmed → ctx = [] → s.hif.waits = [] →
            ∃ t, exec i s = .next t ∧ Done 0x0302 h 0 [] [] [] s t ∧ Kept [.regs, .hif, .out, .bull, .cfg] s t ∧
              OnlyNode n { d with set := stagedSet d desc, staged := none, stagedCtx := [] } s t ∧ mapFind? target t.cfg = none)) ∧
        (target / 2 ^ 28 = 1 → ∀ f, mapFind? n s.net.rx = some f →
          let raw := withStaged (rxBytes f.blk) x.bytes
          let b := rxFrom raw
          b.flow = n → rxBytes b = raw → firstErr (rxChecks s b) = none →
          (keyTaken s n b = true ∨ queueIs s b.queue .ordered = false → failed i 4) ∧
          (keyTaken s n b = false → queueIs s b.queue .ordered = true →
            ∃ t, exec i s = .next t ∧ Completed 0x0302 h 0 [] s t ∧
              mapFind? n t.net.rx = some { f with blk := b } ∧ (∀ j, j ≠ n → mapFind? j t.net.rx = mapFind? j s.net.rx) ∧ mapFind? target t.cfg = none ∧
              ((∀ k ∈ [b.keyA, b.keyB], k.present = true → isGroup k.ipv6 k.dst = true → s.flag (fNetCtlLoop k.port) = false) →
                Done 0x0302 h 0 [] ([b.keyA, b.keyB].filterMap (fun k => if k.present && isGroup k.ipv6 k.dst then
                  some (.join k.port k.ipv6 k.dst (if k.srcAny then none else some k.src)) else none)) [] s t ∧ Kept [.regs, .hif, .out, .net, .cfg] s t))) ∧
        (target / 2 ^ 28 = 2 → ∀ f, mapFind? n s.net.tx = some f →
          let raw := withStaged (txBytes f.blk) x.bytes
          let b := txFrom f.blk.rtcpEn raw
          b.flow = n → txBytes b = raw → firstErr (txChecks s b) = none →
          (queueIs s b.queue .fifo = false → failed i 4) ∧
          (queueIs s b.queue .fifo = true →
            ∃ t, exec i s = .next t ∧ Done 0x0302 h 0 [] [] [] s t ∧ Kept [.regs, .hif, .out, .net, .cfg] s t ∧
              mapFind? n t.net.tx = some { f with blk := b } ∧ (∀ j, j ≠ n → mapFind? j t.net.tx = mapFind? j s.net.tx) ∧ mapFind? target t.cfg = none)) ∧
        (target / 2 ^ 28 = 3 → n = 0x78 →
          (∀ e, firstErr (blockChecks s n x.bytes) = some e → failed i e) ∧
          (firstErr (blockChecks s n x.bytes) = none → ∃ t, exec i s = .next t ∧ Completed 0x0302 h 0 [] s t ∧
            t.reg 0xF0010 = (s.reg 0xF0010 &&& ~~~3) ||| (stagedOver x.bytes 0x10 (s.reg 0xF0010) &&& 3))) ∧
        (target / 2 ^ 28 = 3 → n ≠ 0x78 →
          (∀ e, firstErr (blockChecks s n x.bytes) = some e → failed i e) ∧
          (firstErr (blockChecks s n x.bytes) = none →
            ∃ t, exec i s = .next t ∧ Waits 0x0302 h (keyTarget target) (.commit 3 n) [] s t ∧ Kept [.hif, .cfg, .rfp] s t ∧
              mapFind? target t.cfg = some { x with scheduled := true })))

/-- A step takes the front command and runs it, and an empty queue lets one cycle pass (00_scope.md; derived).
For every state and command c at the front of the queue, step is exec of c on the state with the rest of the queue; on an empty queue a step lets one
cycle of REFCLK_25M pass (DESIGN CHOICE, assumption 1). -/
def Obligations.StepRunsFront : Prop :=
  ∀ (s : State) (c : Instr) (rest : List Instr),
    (s.pending = c :: rest → step s = exec c { s with pending := rest }) ∧ (s.pending = [] → step s = .next (idle s))

/-- Every step keeps memory in its canonical form, the fuses and the record of outputs (R466, R486; derived).
From every state, step, and exec of every command, answers a next state in which every memory is well formed if all were, the rollback counter is no lower, no key slot's
revocation is taken back, and what has left the device stays on record. No command of the table ends in a fault or a refusal. -/
def Obligations.EveryStepSafe : Prop :=
  (∀ s : State, SafeStep s) ∧
  ∀ (i : Instr) (s : State), ∃ t, exec i s = .next t ∧ (MemoryOk s → MemoryOk t) ∧ FusesKept s t ∧ s.out <+: t.out

/-- The state after PORST_N keeps the invariant and runs nothing (R500, R504; derived).
Memory is well formed, no slot is revoked beyond the factory fuses, the device is in bring-up step 1 with the cause of PORST_N, the counter and rate
are zero and the servo is FREERUN, KCI is closed, no node, queue, graph, flow or peer link stands, and the output pins hold the levels of R517. The reset values that the spec does not give
are the model's (assumption 2). -/
def Obligations.ResetIsSafe : Prop :=
  MemoryOk State.reset ∧ State.reset.pending = [] ∧ State.reset.out = [] ∧ (∀ n, ¬ SlotFused State.reset n) ∧
    State.reset.ready = false ∧ State.reset.fld fGlbStatStep = 1 ∧ State.reset.fld fAonRstCause = 1 ∧ State.reset.time.t = 0 ∧ State.reset.time.rate = 0 ∧
    State.reset.time.servo = .freerun ∧ State.reset.hif.isOpen = false ∧ State.reset.bull.nodes = [] ∧ State.reset.mq = [] ∧ State.reset.graphs = [] ∧
    State.reset.peers = [] ∧ State.reset.net.rx = [] ∧ State.reset.net.tx = [] ∧
    (∀ p, p < 8 → pinLevel .reset (.paEn p) = .low ∧ pinLevel .reset (.gstb p) = .low ∧ pinLevel .reset (.syncRx p) = .low ∧
      ∀ b, pinLevel .reset (.gain p b) = .low) ∧
    (∀ p, p < 4 → pinLevel .reset (.txen p) = .low) ∧
    (∀ x ∈ [Pin.ppsOut, .wclkOut, .flashWp], pinLevel .reset x = .low) ∧
    (∀ x ∈ [Pin.flashCe, .flashWe, .flashRe, .qspiCs], pinLevel .reset x = .high) ∧
    ∀ x ∈ [Pin.tdo, .smbSda, .thermtrip], pinLevel .reset x = .highZ
end

