-- ==== Sys2Proof/Laws/Map.lean ====
section
/-!
SUPPORT. Laws/Map.lean: the laws of sparse maps and of byte memory: read after write, what a write leaves alone, and the canonical form
that every operation keeps.
-/

namespace Sys2Proof.Machine

variable {α : Type}

/-! ## Sparse maps -/

@[simp] theorem mapFind?_nil (k : Nat) : mapFind? k ([] : List (Nat × α)) = none := rfl

@[simp] theorem mapFind?_insert_self (k : Nat) (v : α) (m : List (Nat × α)) : mapFind? k (mapInsert k v m) = some v := by
  induction m with
  | nil => simp [mapInsert, mapFind?]
  | cons x t ih => obtain ⟨a, w⟩ := x; simp only [mapInsert]; split_ifs <;> simp [mapFind?, *]

theorem mapFind?_insert_other {j k : Nat} (h : j ≠ k) (v : α) (m : List (Nat × α)) :
    mapFind? j (mapInsert k v m) = mapFind? j m := by
  induction m with
  | nil => simp [mapInsert, mapFind?, h]
  | cons x t ih =>
    obtain ⟨a, w⟩ := x
    simp only [mapInsert]
    split_ifs with h1 h2
    · simp [mapFind?, h]
    · subst h2; simp [mapFind?, h]
    · simp [mapFind?, ih]

theorem mapFind?_insert (j k : Nat) (v : α) (m : List (Nat × α)) :
    mapFind? j (mapInsert k v m) = if j = k then some v else mapFind? j m := by
  split
  · next h => subst h; simp
  · next h => exact mapFind?_insert_other h v m

@[simp] theorem mapFind?_erase_self (k : Nat) (m : List (Nat × α)) : mapFind? k (mapErase k m) = none := by
  induction m with
  | nil => rfl
  | cons x t ih =>
    obtain ⟨a, w⟩ := x
    simp only [mapErase]
    split_ifs with h
    · exact ih
    · simp [mapFind?, h, ih]

theorem mapFind?_erase_other {j k : Nat} (h : j ≠ k) (m : List (Nat × α)) : mapFind? j (mapErase k m) = mapFind? j m := by
  induction m with
  | nil => rfl
  | cons x t ih =>
    obtain ⟨a, w⟩ := x
    simp only [mapErase]
    split_ifs with h1
    · subst h1; simp [mapFind?, h, ih]
    · simp [mapFind?, ih]

theorem mapFind?_erase (j k : Nat) (m : List (Nat × α)) : mapFind? j (mapErase k m) = if j = k then none else mapFind? j m := by
  split
  · next h => subst h; simp
  · next h => exact mapFind?_erase_other h m

@[simp] theorem mapGet_insert_self (d : α) (k : Nat) (v : α) (m : List (Nat × α)) : mapGet d k (mapInsert k v m) = v := by simp [mapGet]

theorem mapGet_insert_other {j k : Nat} (h : j ≠ k) (d v : α) (m : List (Nat × α)) : mapGet d j (mapInsert k v m) = mapGet d j m := by
  simp [mapGet, mapFind?_insert_other h]

theorem mapGet_insert (d : α) (j k : Nat) (v : α) (m : List (Nat × α)) :
    mapGet d j (mapInsert k v m) = if j = k then v else mapGet d j m := by
  split
  · next h => subst h; simp
  · next h => exact mapGet_insert_other h d v m

@[simp] theorem mapGet_erase_self (d : α) (k : Nat) (m : List (Nat × α)) : mapGet d k (mapErase k m) = d := by simp [mapGet]

theorem mapGet_erase_other {j k : Nat} (h : j ≠ k) (d : α) (m : List (Nat × α)) : mapGet d j (mapErase k m) = mapGet d j m := by
  simp [mapGet, mapFind?_erase_other h]

@[simp] theorem mapGet_upd_self (d : α) (k : Nat) (f : α → α) (m : List (Nat × α)) : mapGet d k (mapUpd d k f m) = f (mapGet d k m) := by
  simp [mapUpd]

theorem mapGet_upd_other {j k : Nat} (h : j ≠ k) (d : α) (f : α → α) (m : List (Nat × α)) :
    mapGet d j (mapUpd d k f m) = mapGet d j m := by
  simp [mapUpd, mapGet_insert_other h]

theorem mapGet_upd (d : α) (j k : Nat) (f : α → α) (m : List (Nat × α)) :
    mapGet d j (mapUpd d k f m) = if j = k then f (mapGet d k m) else mapGet d j m := by
  split
  · next h => subst h; simp
  · next h => exact mapGet_upd_other h d f m

/-! ## Key order -/

/-- Every key lies at or above a bound. -/
def keysFrom (l : Nat) (m : List (Nat × α)) : Prop := ∀ c ∈ m, l ≤ c.1

theorem mapSorted_cons (o : Option Nat) (a : Nat) (v : α) (t : List (Nat × α)) :
    mapSorted o ((a, v) :: t) = true ↔ (∀ l, o = some l → l < a) ∧ mapSorted (some a) t = true := by
  cases o <;> simp [mapSorted]

theorem mapSorted_weaken {o : Option Nat} {m : List (Nat × α)} (h : mapSorted o m = true) : mapSorted none m = true := by
  cases m with
  | nil => rfl
  | cons x t => obtain ⟨a, v⟩ := x; rw [mapSorted_cons] at h ⊢; exact ⟨by simp, h.2⟩

theorem mapSorted_lower {l l' : Nat} (hl : l' ≤ l) {m : List (Nat × α)} (h : mapSorted (some l) m = true) : mapSorted (some l') m = true := by
  cases m with
  | nil => rfl
  | cons x t =>
    obtain ⟨a, v⟩ := x
    rw [mapSorted_cons] at h ⊢
    exact ⟨fun _ e => by cases e; exact lt_of_le_of_lt hl (h.1 l rfl), h.2⟩

theorem mapSorted_above {m : List (Nat × α)} : ∀ {l : Nat}, mapSorted (some l) m = true → ∀ c ∈ m, l < c.1 := by
  induction m with
  | nil => simp
  | cons x t ih =>
    obtain ⟨a, v⟩ := x
    intro l h c hc
    rw [mapSorted_cons] at h
    rcases List.mem_cons.mp hc with rfl | hc
    · exact h.1 l rfl
    · exact lt_trans (h.1 l rfl) (ih h.2 c hc)

theorem mapSorted_insert_some {m : List (Nat × α)} : ∀ {l k : Nat} (v : α), mapSorted (some l) m = true → l < k →
    mapSorted (some l) (mapInsert k v m) = true := by
  induction m with
  | nil => intro l k v _ hk; simp [mapInsert, mapSorted, hk]
  | cons x t ih =>
    obtain ⟨a, w⟩ := x
    intro l k v h hk
    rw [mapSorted_cons] at h
    simp only [mapInsert]
    split_ifs with h1 h2
    · rw [mapSorted_cons, mapSorted_cons]; exact ⟨fun _ e => by cases e; exact hk, fun _ e => by cases e; exact h1, h.2⟩
    · subst h2; rw [mapSorted_cons]; exact h
    · rw [mapSorted_cons]; exact ⟨h.1, ih v h.2 (by omega)⟩

/-- Listing a value keeps the key order. -/
theorem mapSorted_insert {m : List (Nat × α)} (k : Nat) (v : α) (h : mapSorted none m = true) :
    mapSorted none (mapInsert k v m) = true := by
  cases m with
  | nil => rfl
  | cons x t =>
    obtain ⟨a, w⟩ := x
    rw [mapSorted_cons] at h
    simp only [mapInsert]
    split_ifs with h1 h2
    · rw [mapSorted_cons, mapSorted_cons]; exact ⟨by simp, fun _ e => by cases e; exact h1, h.2⟩
    · subst h2; rw [mapSorted_cons]; exact ⟨by simp, h.2⟩
    · rw [mapSorted_cons]; exact ⟨by simp, mapSorted_insert_some v h.2 (by omega)⟩

theorem mapSorted_filter_some {m : List (Nat × α)} (p : Nat × α → Bool) :
    ∀ {l : Nat}, mapSorted (some l) m = true → mapSorted (some l) (m.filter p) = true := by
  induction m with
  | nil => simp
  | cons x t ih =>
    obtain ⟨a, w⟩ := x
    intro l h
    rw [mapSorted_cons] at h
    rw [List.filter_cons]
    split
    · rw [mapSorted_cons]; exact ⟨h.1, ih h.2⟩
    · exact ih (mapSorted_lower (le_of_lt (h.1 l rfl)) h.2)

theorem mapSorted_filter {m : List (Nat × α)} (p : Nat × α → Bool) (h : mapSorted none m = true) :
    mapSorted none (m.filter p) = true := by
  cases m with
  | nil => rfl
  | cons x t =>
    obtain ⟨a, w⟩ := x
    rw [mapSorted_cons] at h
    rw [List.filter_cons]
    split
    · rw [mapSorted_cons]; exact ⟨by simp, mapSorted_filter_some p h.2⟩
    · exact mapSorted_weaken (mapSorted_filter_some p h.2)

theorem mapErase_eq_filter (k : Nat) (m : List (Nat × α)) : mapErase k m = m.filter (fun c => k != c.1) := by
  induction m with
  | nil => rfl
  | cons x t ih =>
    obtain ⟨a, w⟩ := x
    simp only [mapErase, List.filter_cons]
    split_ifs with h <;> simp_all

/-- Unlisting a key keeps the key order. -/
theorem mapSorted_erase {m : List (Nat × α)} (k : Nat) (h : mapSorted none m = true) : mapSorted none (mapErase k m) = true := by
  rw [mapErase_eq_filter]; exact mapSorted_filter _ h

/-- Two ordered maps, every key of the first below every key of the second, joined. -/
theorem mapSorted_append {m n : List (Nat × α)} : ∀ {o : Option Nat}, mapSorted o m = true → mapSorted none n = true →
    (∀ c ∈ m, ∀ d ∈ n, c.1 < d.1) → (∀ l, o = some l → ∀ d ∈ n, l < d.1) → mapSorted o (m ++ n) = true := by
  induction m with
  | nil =>
    intro o _ hn _ ho
    cases n with
    | nil => cases o <;> rfl
    | cons x t =>
      obtain ⟨a, w⟩ := x
      rw [List.nil_append, mapSorted_cons]
      rw [mapSorted_cons] at hn
      exact ⟨fun l e => ho l e _ (List.mem_cons_self ..), hn.2⟩
  | cons x t ih =>
    obtain ⟨a, w⟩ := x
    intro o hm hn hlt _
    rw [mapSorted_cons] at hm
    rw [List.cons_append, mapSorted_cons]
    exact ⟨hm.1, ih hm.2 hn (fun c hc => hlt c (List.mem_cons_of_mem _ hc))
      (fun l e d hd => by cases e; exact hlt _ (List.mem_cons_self ..) d hd)⟩

theorem mapSorted_map {β : Type} (f : Nat → Nat) (g : α → β) {m : List (Nat × α)} :
    ∀ {o : Option Nat}, mapSorted o m = true → (∀ c ∈ m, ∀ d ∈ m, c.1 < d.1 → f c.1 < f d.1) → (∀ l, o = some l → ∀ d ∈ m, f l < f d.1) →
    mapSorted (o.map f) (m.map (fun c => (f c.1, g c.2))) = true := by
  induction m with
  | nil => intro o _ _ _; cases o <;> rfl
  | cons x t ih =>
    obtain ⟨a, w⟩ := x
    intro o h hf hl
    rw [mapSorted_cons] at h
    rw [List.map_cons, mapSorted_cons]
    refine ⟨fun l e => ?_, ?_⟩
    · cases o with
      | none => cases e
      | some l' => cases e; exact hl l' rfl _ (List.mem_cons_self ..)
    · exact ih (o := some a) h.2 (fun c hc d hd => hf c (List.mem_cons_of_mem _ hc) d (List.mem_cons_of_mem _ hd))
        (fun l e d hd => by
          cases e
          exact hf _ (List.mem_cons_self ..) d (List.mem_cons_of_mem _ hd) (mapSorted_above h.2 d hd))

/-! ## Byte memory -/

/-- A byte just written reads back. -/
@[simp] theorem memRead_write_self (m : List Host.Cell) (a : Nat) (b : Byte) : memRead (memWrite m a b) a = b := by
  unfold memRead memWrite; split <;> simp_all

/-- A byte write leaves every other byte alone. -/
theorem memRead_write_other {a c : Nat} (h : c ≠ a) (m : List Host.Cell) (b : Byte) : memRead (memWrite m a b) c = memRead m c := by
  unfold memRead memWrite
  split
  · exact mapGet_erase_other h _ _
  · exact mapGet_insert_other h _ _ _

theorem memRead_write (m : List Host.Cell) (a c : Nat) (b : Byte) : memRead (memWrite m a b) c = if c = a then b else memRead m c := by
  split
  · next h => subst h; simp
  · next h => exact memRead_write_other h m b

/-- Bytes written upward from `a`, read back. -/
theorem memRead_writeList (bs : List Byte) : ∀ (m : List Host.Cell) (a c : Nat),
    memRead (memWriteList m a bs) c = if a ≤ c ∧ c < a + bs.length then bs.getD (c - a) 0 else memRead m c := by
  induction bs with
  | nil =>
    intro m a c
    have : ¬ (a ≤ c ∧ c < a + ([] : List Byte).length) := by simp
    rw [if_neg this]; rfl
  | cons b t ih =>
    intro m a c
    rw [memWriteList, ih, memRead_write, List.length_cons]
    rcases lt_trichotomy c a with h | h | h
    · have h1 : ¬ (a + 1 ≤ c ∧ c < a + 1 + t.length) := by omega
      have h2 : ¬ (a ≤ c ∧ c < a + (t.length + 1)) := by omega
      rw [if_neg h1, if_neg h2, if_neg (by omega)]
    · subst h
      have h1 : ¬ (c + 1 ≤ c ∧ c < c + 1 + t.length) := by omega
      have h2 : c ≤ c ∧ c < c + (t.length + 1) := by omega
      rw [if_neg h1, if_pos h2]; simp
    · obtain ⟨j, rfl⟩ : ∃ j, c = a + 1 + j := ⟨c - (a + 1), by omega⟩
      by_cases hj : j < t.length
      · rw [if_pos (by omega), if_pos (by omega)]
        have : a + 1 + j - a = j + 1 := by omega
        rw [this]; simp
      · rw [if_neg (by omega), if_neg (by omega), if_neg (by omega)]

/-- A byte write keeps the canonical form. -/
theorem memWrite_wf {m : List Host.Cell} (h : Memory.wf m = true) (a : Nat) (b : Byte) : Memory.wf (memWrite m a b) = true := by
  unfold Memory.wf at *
  rw [Bool.and_eq_true, List.all_eq_true] at *
  unfold memWrite
  split
  · rw [mapErase_eq_filter]
    exact ⟨mapSorted_filter _ h.1, fun c hc => h.2 c (List.mem_of_mem_filter hc)⟩
  · next hb =>
    refine ⟨mapSorted_insert a b h.1, ?_⟩
    have key : ∀ (l : List Host.Cell), (∀ c ∈ l, (c.2 != 0) = true) → ∀ c ∈ mapInsert a b l, (c.2 != 0) = true := by
      intro l
      induction l with
      | nil => intro _ c hc; simp [mapInsert] at hc; subst hc; simpa using hb
      | cons x t ih =>
        obtain ⟨k, w⟩ := x
        intro hl c hc
        simp only [mapInsert] at hc
        split_ifs at hc
        · rcases List.mem_cons.mp hc with rfl | hc
          · simpa using hb
          · exact hl c hc
        · rcases List.mem_cons.mp hc with rfl | hc
          · simpa using hb
          · exact hl c (List.mem_cons_of_mem _ hc)
        · rcases List.mem_cons.mp hc with rfl | hc
          · exact hl _ (List.mem_cons_self ..)
          · exact ih (fun c hc => hl c (List.mem_cons_of_mem _ hc)) c hc
    exact key m h.2

/-- A write of several bytes keeps the canonical form. -/
theorem memWriteList_wf (bs : List Byte) : ∀ {m : List Host.Cell} (_ : Memory.wf m = true) (a : Nat), Memory.wf (memWriteList m a bs) = true := by
  induction bs with
  | nil => intro m h a; exact h
  | cons b t ih => intro m h a; exact ih (memWrite_wf h a b) (a + 1)

/-- A copy between memories keeps the canonical form of its destination. -/
theorem copyRange_wf {src dst : List Host.Cell} (hs : Memory.wf src = true) (hd : Memory.wf dst = true) (a len b : Nat) :
    Memory.wf (copyRange src a len dst b) = true := by
  unfold Memory.wf at *
  rw [Bool.and_eq_true, List.all_eq_true] at *
  unfold copyRange
  constructor
  · refine mapSorted_append (mapSorted_filter _ hd.1) (mapSorted_append ?_ (mapSorted_filter _ hd.1) ?_ (by simp)) ?_ (by simp)
    · refine mapSorted_map (o := none) (fun k => k - a + b) id (mapSorted_filter _ hs.1) ?_ (by simp)
      intro c hc d hd' hlt
      simp only [List.mem_filter, Bool.and_eq_true, decide_eq_true_eq] at hc hd'
      omega
    · intro c hc d hd'
      simp only [List.mem_map, List.mem_filter, Bool.and_eq_true, decide_eq_true_eq] at hc hd'
      obtain ⟨x, hx, rfl⟩ := hc
      dsimp only
      omega
    · intro c hc d hd'
      simp only [List.mem_map, List.mem_filter, List.mem_append, Bool.and_eq_true, decide_eq_true_eq] at hc hd'
      rcases hd' with ⟨x, hx, rfl⟩ | hd'
      · dsimp only; omega
      · omega
  · intro c hc
    simp only [List.mem_map, List.mem_filter, List.mem_append] at hc
    rcases hc with hc | ⟨x, hx, rfl⟩ | hc
    · exact hd.2 c hc.1
    · exact hs.2 x hx.1
    · exact hd.2 c hc.1

/-- Folding an operation that keeps the canonical form keeps it. -/
theorem foldl_wf {β : Type} (f : List Host.Cell → β → List Host.Cell) (hf : ∀ m x, Memory.wf m = true → Memory.wf (f m x) = true) :
    ∀ (l : List β) (m : List Host.Cell), Memory.wf m = true → Memory.wf (l.foldl f m) = true := by
  intro l
  induction l with
  | nil => intro m h; exact h
  | cons x t ih => intro m h; exact ih (f m x) (hf m x h)

@[simp] theorem wf_nil : Memory.wf [] = true := rfl

end Sys2Proof.Machine
end

