-- ==== Sys2Proof/Laws/State.lean ====
section
/-!
SUPPORT. Laws/State.lean: one lemma for each field of State after each update of it, and what a register or a field of one reads after a write.
-/

namespace Sys2Proof.Machine

variable (s : State)

/-! ### setReg -/

@[simp] theorem State.setReg_pending (a : Nat) (w : Word) : (s.setReg a w).pending = s.pending := rfl
@[simp] theorem State.setReg_free (a : Nat) (w : Word) : (s.setReg a w).free = s.free := rfl
@[simp] theorem State.setReg_clk (a : Nat) (w : Word) : (s.setReg a w).clk = s.clk := rfl
@[simp] theorem State.setReg_out (a : Nat) (w : Word) : (s.setReg a w).out = s.out := rfl
@[simp] theorem State.setReg_regs (a : Nat) (w : Word) : (s.setReg a w).regs = if w = resetWord a then mapErase a s.regs else mapInsert a w s.regs := rfl
@[simp] theorem State.setReg_hbm (a : Nat) (w : Word) : (s.setReg a w).hbm = s.hbm := rfl
@[simp] theorem State.setReg_time (a : Nat) (w : Word) : (s.setReg a w).time = s.time := rfl
@[simp] theorem State.setReg_mq (a : Nat) (w : Word) : (s.setReg a w).mq = s.mq := rfl
@[simp] theorem State.setReg_seed (a : Nat) (w : Word) : (s.setReg a w).seed = s.seed := rfl
@[simp] theorem State.setReg_bull (a : Nat) (w : Word) : (s.setReg a w).bull = s.bull := rfl
@[simp] theorem State.setReg_gh (a : Nat) (w : Word) : (s.setReg a w).gh = s.gh := rfl
@[simp] theorem State.setReg_core (a : Nat) (w : Word) : (s.setReg a w).core = s.core := rfl
@[simp] theorem State.setReg_clu (a : Nat) (w : Word) : (s.setReg a w).clu = s.clu := rfl
@[simp] theorem State.setReg_pmu (a : Nat) (w : Word) : (s.setReg a w).pmu = s.pmu := rfl
@[simp] theorem State.setReg_scout (a : Nat) (w : Word) : (s.setReg a w).scout = s.scout := rfl
@[simp] theorem State.setReg_ump (a : Nat) (w : Word) : (s.setReg a w).ump = s.ump := rfl
@[simp] theorem State.setReg_hif (a : Nat) (w : Word) : (s.setReg a w).hif = s.hif := rfl
@[simp] theorem State.setReg_glb (a : Nat) (w : Word) : (s.setReg a w).glb = s.glb := rfl
@[simp] theorem State.setReg_graphs (a : Nat) (w : Word) : (s.setReg a w).graphs = s.graphs := rfl
@[simp] theorem State.setReg_net (a : Nat) (w : Word) : (s.setReg a w).net = s.net := rfl
@[simp] theorem State.setReg_cfg (a : Nat) (w : Word) : (s.setReg a w).cfg = s.cfg := rfl
@[simp] theorem State.setReg_txHold (a : Nat) (w : Word) : (s.setReg a w).txHold = s.txHold := rfl
@[simp] theorem State.setReg_rfp (a : Nat) (w : Word) : (s.setReg a w).rfp = s.rfp := rfl
@[simp] theorem State.setReg_mdm (a : Nat) (w : Word) : (s.setReg a w).mdm = s.mdm := rfl
@[simp] theorem State.setReg_madi (a : Nat) (w : Word) : (s.setReg a w).madi = s.madi := rfl
@[simp] theorem State.setReg_pack (a : Nat) (w : Word) : (s.setReg a w).pack = s.pack := rfl
@[simp] theorem State.setReg_flc (a : Nat) (w : Word) : (s.setReg a w).flc = s.flc := rfl
@[simp] theorem State.setReg_flash (a : Nat) (w : Word) : (s.setReg a w).flash = s.flash := rfl
@[simp] theorem State.setReg_peers (a : Nat) (w : Word) : (s.setReg a w).peers = s.peers := rfl
@[simp] theorem State.setReg_kml (a : Nat) (w : Word) : (s.setReg a w).kml = s.kml := rfl
@[simp] theorem State.setReg_hbmBad (a : Nat) (w : Word) : (s.setReg a w).hbmBad = s.hbmBad := rfl

/-! ### setFld -/

@[simp] theorem State.setFld_pending (f : Fld) (v : Nat) : (s.setFld f v).pending = s.pending := rfl
@[simp] theorem State.setFld_free (f : Fld) (v : Nat) : (s.setFld f v).free = s.free := rfl
@[simp] theorem State.setFld_clk (f : Fld) (v : Nat) : (s.setFld f v).clk = s.clk := rfl
@[simp] theorem State.setFld_out (f : Fld) (v : Nat) : (s.setFld f v).out = s.out := rfl
@[simp] theorem State.setFld_hbm (f : Fld) (v : Nat) : (s.setFld f v).hbm = s.hbm := rfl
@[simp] theorem State.setFld_time (f : Fld) (v : Nat) : (s.setFld f v).time = s.time := rfl
@[simp] theorem State.setFld_mq (f : Fld) (v : Nat) : (s.setFld f v).mq = s.mq := rfl
@[simp] theorem State.setFld_seed (f : Fld) (v : Nat) : (s.setFld f v).seed = s.seed := rfl
@[simp] theorem State.setFld_bull (f : Fld) (v : Nat) : (s.setFld f v).bull = s.bull := rfl
@[simp] theorem State.setFld_gh (f : Fld) (v : Nat) : (s.setFld f v).gh = s.gh := rfl
@[simp] theorem State.setFld_core (f : Fld) (v : Nat) : (s.setFld f v).core = s.core := rfl
@[simp] theorem State.setFld_clu (f : Fld) (v : Nat) : (s.setFld f v).clu = s.clu := rfl
@[simp] theorem State.setFld_pmu (f : Fld) (v : Nat) : (s.setFld f v).pmu = s.pmu := rfl
@[simp] theorem State.setFld_scout (f : Fld) (v : Nat) : (s.setFld f v).scout = s.scout := rfl
@[simp] theorem State.setFld_ump (f : Fld) (v : Nat) : (s.setFld f v).ump = s.ump := rfl
@[simp] theorem State.setFld_hif (f : Fld) (v : Nat) : (s.setFld f v).hif = s.hif := rfl
@[simp] theorem State.setFld_glb (f : Fld) (v : Nat) : (s.setFld f v).glb = s.glb := rfl
@[simp] theorem State.setFld_graphs (f : Fld) (v : Nat) : (s.setFld f v).graphs = s.graphs := rfl
@[simp] theorem State.setFld_net (f : Fld) (v : Nat) : (s.setFld f v).net = s.net := rfl
@[simp] theorem State.setFld_cfg (f : Fld) (v : Nat) : (s.setFld f v).cfg = s.cfg := rfl
@[simp] theorem State.setFld_txHold (f : Fld) (v : Nat) : (s.setFld f v).txHold = s.txHold := rfl
@[simp] theorem State.setFld_rfp (f : Fld) (v : Nat) : (s.setFld f v).rfp = s.rfp := rfl
@[simp] theorem State.setFld_mdm (f : Fld) (v : Nat) : (s.setFld f v).mdm = s.mdm := rfl
@[simp] theorem State.setFld_madi (f : Fld) (v : Nat) : (s.setFld f v).madi = s.madi := rfl
@[simp] theorem State.setFld_pack (f : Fld) (v : Nat) : (s.setFld f v).pack = s.pack := rfl
@[simp] theorem State.setFld_flc (f : Fld) (v : Nat) : (s.setFld f v).flc = s.flc := rfl
@[simp] theorem State.setFld_flash (f : Fld) (v : Nat) : (s.setFld f v).flash = s.flash := rfl
@[simp] theorem State.setFld_peers (f : Fld) (v : Nat) : (s.setFld f v).peers = s.peers := rfl
@[simp] theorem State.setFld_kml (f : Fld) (v : Nat) : (s.setFld f v).kml = s.kml := rfl
@[simp] theorem State.setFld_hbmBad (f : Fld) (v : Nat) : (s.setFld f v).hbmBad = s.hbmBad := rfl

/-! ### bump -/

@[simp] theorem State.bump_pending (f : Fld) (k : Nat) : (s.bump f k).pending = s.pending := rfl
@[simp] theorem State.bump_free (f : Fld) (k : Nat) : (s.bump f k).free = s.free := rfl
@[simp] theorem State.bump_clk (f : Fld) (k : Nat) : (s.bump f k).clk = s.clk := rfl
@[simp] theorem State.bump_out (f : Fld) (k : Nat) : (s.bump f k).out = s.out := rfl
@[simp] theorem State.bump_hbm (f : Fld) (k : Nat) : (s.bump f k).hbm = s.hbm := rfl
@[simp] theorem State.bump_time (f : Fld) (k : Nat) : (s.bump f k).time = s.time := rfl
@[simp] theorem State.bump_mq (f : Fld) (k : Nat) : (s.bump f k).mq = s.mq := rfl
@[simp] theorem State.bump_seed (f : Fld) (k : Nat) : (s.bump f k).seed = s.seed := rfl
@[simp] theorem State.bump_bull (f : Fld) (k : Nat) : (s.bump f k).bull = s.bull := rfl
@[simp] theorem State.bump_gh (f : Fld) (k : Nat) : (s.bump f k).gh = s.gh := rfl
@[simp] theorem State.bump_core (f : Fld) (k : Nat) : (s.bump f k).core = s.core := rfl
@[simp] theorem State.bump_clu (f : Fld) (k : Nat) : (s.bump f k).clu = s.clu := rfl
@[simp] theorem State.bump_pmu (f : Fld) (k : Nat) : (s.bump f k).pmu = s.pmu := rfl
@[simp] theorem State.bump_scout (f : Fld) (k : Nat) : (s.bump f k).scout = s.scout := rfl
@[simp] theorem State.bump_ump (f : Fld) (k : Nat) : (s.bump f k).ump = s.ump := rfl
@[simp] theorem State.bump_hif (f : Fld) (k : Nat) : (s.bump f k).hif = s.hif := rfl
@[simp] theorem State.bump_glb (f : Fld) (k : Nat) : (s.bump f k).glb = s.glb := rfl
@[simp] theorem State.bump_graphs (f : Fld) (k : Nat) : (s.bump f k).graphs = s.graphs := rfl
@[simp] theorem State.bump_net (f : Fld) (k : Nat) : (s.bump f k).net = s.net := rfl
@[simp] theorem State.bump_cfg (f : Fld) (k : Nat) : (s.bump f k).cfg = s.cfg := rfl
@[simp] theorem State.bump_txHold (f : Fld) (k : Nat) : (s.bump f k).txHold = s.txHold := rfl
@[simp] theorem State.bump_rfp (f : Fld) (k : Nat) : (s.bump f k).rfp = s.rfp := rfl
@[simp] theorem State.bump_mdm (f : Fld) (k : Nat) : (s.bump f k).mdm = s.mdm := rfl
@[simp] theorem State.bump_madi (f : Fld) (k : Nat) : (s.bump f k).madi = s.madi := rfl
@[simp] theorem State.bump_pack (f : Fld) (k : Nat) : (s.bump f k).pack = s.pack := rfl
@[simp] theorem State.bump_flc (f : Fld) (k : Nat) : (s.bump f k).flc = s.flc := rfl
@[simp] theorem State.bump_flash (f : Fld) (k : Nat) : (s.bump f k).flash = s.flash := rfl
@[simp] theorem State.bump_peers (f : Fld) (k : Nat) : (s.bump f k).peers = s.peers := rfl
@[simp] theorem State.bump_kml (f : Fld) (k : Nat) : (s.bump f k).kml = s.kml := rfl
@[simp] theorem State.bump_hbmBad (f : Fld) (k : Nat) : (s.bump f k).hbmBad = s.hbmBad := rfl

/-! ### emit -/

@[simp] theorem State.emit_pending (m : OutMsg) : (s.emit m).pending = s.pending := rfl
@[simp] theorem State.emit_free (m : OutMsg) : (s.emit m).free = s.free := rfl
@[simp] theorem State.emit_clk (m : OutMsg) : (s.emit m).clk = s.clk := rfl
@[simp] theorem State.emit_out (m : OutMsg) : (s.emit m).out = s.out ++ [m] := rfl
@[simp] theorem State.emit_regs (m : OutMsg) : (s.emit m).regs = s.regs := rfl
@[simp] theorem State.emit_hbm (m : OutMsg) : (s.emit m).hbm = s.hbm := rfl
@[simp] theorem State.emit_time (m : OutMsg) : (s.emit m).time = s.time := rfl
@[simp] theorem State.emit_mq (m : OutMsg) : (s.emit m).mq = s.mq := rfl
@[simp] theorem State.emit_seed (m : OutMsg) : (s.emit m).seed = s.seed := rfl
@[simp] theorem State.emit_bull (m : OutMsg) : (s.emit m).bull = s.bull := rfl
@[simp] theorem State.emit_gh (m : OutMsg) : (s.emit m).gh = s.gh := rfl
@[simp] theorem State.emit_core (m : OutMsg) : (s.emit m).core = s.core := rfl
@[simp] theorem State.emit_clu (m : OutMsg) : (s.emit m).clu = s.clu := rfl
@[simp] theorem State.emit_pmu (m : OutMsg) : (s.emit m).pmu = s.pmu := rfl
@[simp] theorem State.emit_scout (m : OutMsg) : (s.emit m).scout = s.scout := rfl
@[simp] theorem State.emit_ump (m : OutMsg) : (s.emit m).ump = s.ump := rfl
@[simp] theorem State.emit_hif (m : OutMsg) : (s.emit m).hif = s.hif := rfl
@[simp] theorem State.emit_glb (m : OutMsg) : (s.emit m).glb = s.glb := rfl
@[simp] theorem State.emit_graphs (m : OutMsg) : (s.emit m).graphs = s.graphs := rfl
@[simp] theorem State.emit_net (m : OutMsg) : (s.emit m).net = s.net := rfl
@[simp] theorem State.emit_cfg (m : OutMsg) : (s.emit m).cfg = s.cfg := rfl
@[simp] theorem State.emit_txHold (m : OutMsg) : (s.emit m).txHold = s.txHold := rfl
@[simp] theorem State.emit_rfp (m : OutMsg) : (s.emit m).rfp = s.rfp := rfl
@[simp] theorem State.emit_mdm (m : OutMsg) : (s.emit m).mdm = s.mdm := rfl
@[simp] theorem State.emit_madi (m : OutMsg) : (s.emit m).madi = s.madi := rfl
@[simp] theorem State.emit_pack (m : OutMsg) : (s.emit m).pack = s.pack := rfl
@[simp] theorem State.emit_flc (m : OutMsg) : (s.emit m).flc = s.flc := rfl
@[simp] theorem State.emit_flash (m : OutMsg) : (s.emit m).flash = s.flash := rfl
@[simp] theorem State.emit_peers (m : OutMsg) : (s.emit m).peers = s.peers := rfl
@[simp] theorem State.emit_kml (m : OutMsg) : (s.emit m).kml = s.kml := rfl
@[simp] theorem State.emit_hbmBad (m : OutMsg) : (s.emit m).hbmBad = s.hbmBad := rfl

/-! ### draw -/

@[simp] theorem State.draw_pending : (s.draw.2).pending = s.pending := rfl
@[simp] theorem State.draw_free : (s.draw.2).free = s.free + 1 := rfl
@[simp] theorem State.draw_clk : (s.draw.2).clk = s.clk := rfl
@[simp] theorem State.draw_out : (s.draw.2).out = s.out := rfl
@[simp] theorem State.draw_regs : (s.draw.2).regs = s.regs := rfl
@[simp] theorem State.draw_hbm : (s.draw.2).hbm = s.hbm := rfl
@[simp] theorem State.draw_time : (s.draw.2).time = s.time := rfl
@[simp] theorem State.draw_mq : (s.draw.2).mq = s.mq := rfl
@[simp] theorem State.draw_seed : (s.draw.2).seed = s.seed := rfl
@[simp] theorem State.draw_bull : (s.draw.2).bull = s.bull := rfl
@[simp] theorem State.draw_gh : (s.draw.2).gh = s.gh := rfl
@[simp] theorem State.draw_core : (s.draw.2).core = s.core := rfl
@[simp] theorem State.draw_clu : (s.draw.2).clu = s.clu := rfl
@[simp] theorem State.draw_pmu : (s.draw.2).pmu = s.pmu := rfl
@[simp] theorem State.draw_scout : (s.draw.2).scout = s.scout := rfl
@[simp] theorem State.draw_ump : (s.draw.2).ump = s.ump := rfl
@[simp] theorem State.draw_hif : (s.draw.2).hif = s.hif := rfl
@[simp] theorem State.draw_glb : (s.draw.2).glb = s.glb := rfl
@[simp] theorem State.draw_graphs : (s.draw.2).graphs = s.graphs := rfl
@[simp] theorem State.draw_net : (s.draw.2).net = s.net := rfl
@[simp] theorem State.draw_cfg : (s.draw.2).cfg = s.cfg := rfl
@[simp] theorem State.draw_txHold : (s.draw.2).txHold = s.txHold := rfl
@[simp] theorem State.draw_rfp : (s.draw.2).rfp = s.rfp := rfl
@[simp] theorem State.draw_mdm : (s.draw.2).mdm = s.mdm := rfl
@[simp] theorem State.draw_madi : (s.draw.2).madi = s.madi := rfl
@[simp] theorem State.draw_pack : (s.draw.2).pack = s.pack := rfl
@[simp] theorem State.draw_flc : (s.draw.2).flc = s.flc := rfl
@[simp] theorem State.draw_flash : (s.draw.2).flash = s.flash := rfl
@[simp] theorem State.draw_peers : (s.draw.2).peers = s.peers := rfl
@[simp] theorem State.draw_kml : (s.draw.2).kml = s.kml := rfl
@[simp] theorem State.draw_hbmBad : (s.draw.2).hbmBad = s.hbmBad := rfl

/-! ### setTime -/

@[simp] theorem State.setTime_pending (f : TimeSt → TimeSt) : (s.setTime f).pending = s.pending := rfl
@[simp] theorem State.setTime_free (f : TimeSt → TimeSt) : (s.setTime f).free = s.free := rfl
@[simp] theorem State.setTime_clk (f : TimeSt → TimeSt) : (s.setTime f).clk = s.clk := rfl
@[simp] theorem State.setTime_out (f : TimeSt → TimeSt) : (s.setTime f).out = s.out := rfl
@[simp] theorem State.setTime_regs (f : TimeSt → TimeSt) : (s.setTime f).regs = s.regs := rfl
@[simp] theorem State.setTime_hbm (f : TimeSt → TimeSt) : (s.setTime f).hbm = s.hbm := rfl
@[simp] theorem State.setTime_time (f : TimeSt → TimeSt) : (s.setTime f).time = f s.time := rfl
@[simp] theorem State.setTime_mq (f : TimeSt → TimeSt) : (s.setTime f).mq = s.mq := rfl
@[simp] theorem State.setTime_seed (f : TimeSt → TimeSt) : (s.setTime f).seed = s.seed := rfl
@[simp] theorem State.setTime_bull (f : TimeSt → TimeSt) : (s.setTime f).bull = s.bull := rfl
@[simp] theorem State.setTime_gh (f : TimeSt → TimeSt) : (s.setTime f).gh = s.gh := rfl
@[simp] theorem State.setTime_core (f : TimeSt → TimeSt) : (s.setTime f).core = s.core := rfl
@[simp] theorem State.setTime_clu (f : TimeSt → TimeSt) : (s.setTime f).clu = s.clu := rfl
@[simp] theorem State.setTime_pmu (f : TimeSt → TimeSt) : (s.setTime f).pmu = s.pmu := rfl
@[simp] theorem State.setTime_scout (f : TimeSt → TimeSt) : (s.setTime f).scout = s.scout := rfl
@[simp] theorem State.setTime_ump (f : TimeSt → TimeSt) : (s.setTime f).ump = s.ump := rfl
@[simp] theorem State.setTime_hif (f : TimeSt → TimeSt) : (s.setTime f).hif = s.hif := rfl
@[simp] theorem State.setTime_glb (f : TimeSt → TimeSt) : (s.setTime f).glb = s.glb := rfl
@[simp] theorem State.setTime_graphs (f : TimeSt → TimeSt) : (s.setTime f).graphs = s.graphs := rfl
@[simp] theorem State.setTime_net (f : TimeSt → TimeSt) : (s.setTime f).net = s.net := rfl
@[simp] theorem State.setTime_cfg (f : TimeSt → TimeSt) : (s.setTime f).cfg = s.cfg := rfl
@[simp] theorem State.setTime_txHold (f : TimeSt → TimeSt) : (s.setTime f).txHold = s.txHold := rfl
@[simp] theorem State.setTime_rfp (f : TimeSt → TimeSt) : (s.setTime f).rfp = s.rfp := rfl
@[simp] theorem State.setTime_mdm (f : TimeSt → TimeSt) : (s.setTime f).mdm = s.mdm := rfl
@[simp] theorem State.setTime_madi (f : TimeSt → TimeSt) : (s.setTime f).madi = s.madi := rfl
@[simp] theorem State.setTime_pack (f : TimeSt → TimeSt) : (s.setTime f).pack = s.pack := rfl
@[simp] theorem State.setTime_flc (f : TimeSt → TimeSt) : (s.setTime f).flc = s.flc := rfl
@[simp] theorem State.setTime_flash (f : TimeSt → TimeSt) : (s.setTime f).flash = s.flash := rfl
@[simp] theorem State.setTime_peers (f : TimeSt → TimeSt) : (s.setTime f).peers = s.peers := rfl
@[simp] theorem State.setTime_kml (f : TimeSt → TimeSt) : (s.setTime f).kml = s.kml := rfl
@[simp] theorem State.setTime_hbmBad (f : TimeSt → TimeSt) : (s.setTime f).hbmBad = s.hbmBad := rfl

/-! ### setQueue -/

@[simp] theorem State.setQueue_pending (q : Nat) (x : Queue) : (s.setQueue q x).pending = s.pending := rfl
@[simp] theorem State.setQueue_free (q : Nat) (x : Queue) : (s.setQueue q x).free = s.free := rfl
@[simp] theorem State.setQueue_clk (q : Nat) (x : Queue) : (s.setQueue q x).clk = s.clk := rfl
@[simp] theorem State.setQueue_out (q : Nat) (x : Queue) : (s.setQueue q x).out = s.out := rfl
@[simp] theorem State.setQueue_regs (q : Nat) (x : Queue) : (s.setQueue q x).regs = s.regs := rfl
@[simp] theorem State.setQueue_hbm (q : Nat) (x : Queue) : (s.setQueue q x).hbm = s.hbm := rfl
@[simp] theorem State.setQueue_time (q : Nat) (x : Queue) : (s.setQueue q x).time = s.time := rfl
@[simp] theorem State.setQueue_mq (q : Nat) (x : Queue) : (s.setQueue q x).mq = mapInsert q x s.mq := rfl
@[simp] theorem State.setQueue_seed (q : Nat) (x : Queue) : (s.setQueue q x).seed = s.seed := rfl
@[simp] theorem State.setQueue_bull (q : Nat) (x : Queue) : (s.setQueue q x).bull = s.bull := rfl
@[simp] theorem State.setQueue_gh (q : Nat) (x : Queue) : (s.setQueue q x).gh = s.gh := rfl
@[simp] theorem State.setQueue_core (q : Nat) (x : Queue) : (s.setQueue q x).core = s.core := rfl
@[simp] theorem State.setQueue_clu (q : Nat) (x : Queue) : (s.setQueue q x).clu = s.clu := rfl
@[simp] theorem State.setQueue_pmu (q : Nat) (x : Queue) : (s.setQueue q x).pmu = s.pmu := rfl
@[simp] theorem State.setQueue_scout (q : Nat) (x : Queue) : (s.setQueue q x).scout = s.scout := rfl
@[simp] theorem State.setQueue_ump (q : Nat) (x : Queue) : (s.setQueue q x).ump = s.ump := rfl
@[simp] theorem State.setQueue_hif (q : Nat) (x : Queue) : (s.setQueue q x).hif = s.hif := rfl
@[simp] theorem State.setQueue_glb (q : Nat) (x : Queue) : (s.setQueue q x).glb = s.glb := rfl
@[simp] theorem State.setQueue_graphs (q : Nat) (x : Queue) : (s.setQueue q x).graphs = s.graphs := rfl
@[simp] theorem State.setQueue_net (q : Nat) (x : Queue) : (s.setQueue q x).net = s.net := rfl
@[simp] theorem State.setQueue_cfg (q : Nat) (x : Queue) : (s.setQueue q x).cfg = s.cfg := rfl
@[simp] theorem State.setQueue_txHold (q : Nat) (x : Queue) : (s.setQueue q x).txHold = s.txHold := rfl
@[simp] theorem State.setQueue_rfp (q : Nat) (x : Queue) : (s.setQueue q x).rfp = s.rfp := rfl
@[simp] theorem State.setQueue_mdm (q : Nat) (x : Queue) : (s.setQueue q x).mdm = s.mdm := rfl
@[simp] theorem State.setQueue_madi (q : Nat) (x : Queue) : (s.setQueue q x).madi = s.madi := rfl
@[simp] theorem State.setQueue_pack (q : Nat) (x : Queue) : (s.setQueue q x).pack = s.pack := rfl
@[simp] theorem State.setQueue_flc (q : Nat) (x : Queue) : (s.setQueue q x).flc = s.flc := rfl
@[simp] theorem State.setQueue_flash (q : Nat) (x : Queue) : (s.setQueue q x).flash = s.flash := rfl
@[simp] theorem State.setQueue_peers (q : Nat) (x : Queue) : (s.setQueue q x).peers = s.peers := rfl
@[simp] theorem State.setQueue_kml (q : Nat) (x : Queue) : (s.setQueue q x).kml = s.kml := rfl
@[simp] theorem State.setQueue_hbmBad (q : Nat) (x : Queue) : (s.setQueue q x).hbmBad = s.hbmBad := rfl

/-! ### setSeed -/

@[simp] theorem State.setSeed_pending (f : SeedSt → SeedSt) : (s.setSeed f).pending = s.pending := rfl
@[simp] theorem State.setSeed_free (f : SeedSt → SeedSt) : (s.setSeed f).free = s.free := rfl
@[simp] theorem State.setSeed_clk (f : SeedSt → SeedSt) : (s.setSeed f).clk = s.clk := rfl
@[simp] theorem State.setSeed_out (f : SeedSt → SeedSt) : (s.setSeed f).out = s.out := rfl
@[simp] theorem State.setSeed_regs (f : SeedSt → SeedSt) : (s.setSeed f).regs = s.regs := rfl
@[simp] theorem State.setSeed_hbm (f : SeedSt → SeedSt) : (s.setSeed f).hbm = s.hbm := rfl
@[simp] theorem State.setSeed_time (f : SeedSt → SeedSt) : (s.setSeed f).time = s.time := rfl
@[simp] theorem State.setSeed_mq (f : SeedSt → SeedSt) : (s.setSeed f).mq = s.mq := rfl
@[simp] theorem State.setSeed_seed (f : SeedSt → SeedSt) : (s.setSeed f).seed = f s.seed := rfl
@[simp] theorem State.setSeed_bull (f : SeedSt → SeedSt) : (s.setSeed f).bull = s.bull := rfl
@[simp] theorem State.setSeed_gh (f : SeedSt → SeedSt) : (s.setSeed f).gh = s.gh := rfl
@[simp] theorem State.setSeed_core (f : SeedSt → SeedSt) : (s.setSeed f).core = s.core := rfl
@[simp] theorem State.setSeed_clu (f : SeedSt → SeedSt) : (s.setSeed f).clu = s.clu := rfl
@[simp] theorem State.setSeed_pmu (f : SeedSt → SeedSt) : (s.setSeed f).pmu = s.pmu := rfl
@[simp] theorem State.setSeed_scout (f : SeedSt → SeedSt) : (s.setSeed f).scout = s.scout := rfl
@[simp] theorem State.setSeed_ump (f : SeedSt → SeedSt) : (s.setSeed f).ump = s.ump := rfl
@[simp] theorem State.setSeed_hif (f : SeedSt → SeedSt) : (s.setSeed f).hif = s.hif := rfl
@[simp] theorem State.setSeed_glb (f : SeedSt → SeedSt) : (s.setSeed f).glb = s.glb := rfl
@[simp] theorem State.setSeed_graphs (f : SeedSt → SeedSt) : (s.setSeed f).graphs = s.graphs := rfl
@[simp] theorem State.setSeed_net (f : SeedSt → SeedSt) : (s.setSeed f).net = s.net := rfl
@[simp] theorem State.setSeed_cfg (f : SeedSt → SeedSt) : (s.setSeed f).cfg = s.cfg := rfl
@[simp] theorem State.setSeed_txHold (f : SeedSt → SeedSt) : (s.setSeed f).txHold = s.txHold := rfl
@[simp] theorem State.setSeed_rfp (f : SeedSt → SeedSt) : (s.setSeed f).rfp = s.rfp := rfl
@[simp] theorem State.setSeed_mdm (f : SeedSt → SeedSt) : (s.setSeed f).mdm = s.mdm := rfl
@[simp] theorem State.setSeed_madi (f : SeedSt → SeedSt) : (s.setSeed f).madi = s.madi := rfl
@[simp] theorem State.setSeed_pack (f : SeedSt → SeedSt) : (s.setSeed f).pack = s.pack := rfl
@[simp] theorem State.setSeed_flc (f : SeedSt → SeedSt) : (s.setSeed f).flc = s.flc := rfl
@[simp] theorem State.setSeed_flash (f : SeedSt → SeedSt) : (s.setSeed f).flash = s.flash := rfl
@[simp] theorem State.setSeed_peers (f : SeedSt → SeedSt) : (s.setSeed f).peers = s.peers := rfl
@[simp] theorem State.setSeed_kml (f : SeedSt → SeedSt) : (s.setSeed f).kml = s.kml := rfl
@[simp] theorem State.setSeed_hbmBad (f : SeedSt → SeedSt) : (s.setSeed f).hbmBad = s.hbmBad := rfl

/-! ### setNode -/

@[simp] theorem State.setNode_pending (n : Nat) (d : NodeD) : (s.setNode n d).pending = s.pending := rfl
@[simp] theorem State.setNode_free (n : Nat) (d : NodeD) : (s.setNode n d).free = s.free := rfl
@[simp] theorem State.setNode_clk (n : Nat) (d : NodeD) : (s.setNode n d).clk = s.clk := rfl
@[simp] theorem State.setNode_out (n : Nat) (d : NodeD) : (s.setNode n d).out = s.out := rfl
@[simp] theorem State.setNode_regs (n : Nat) (d : NodeD) : (s.setNode n d).regs = s.regs := rfl
@[simp] theorem State.setNode_hbm (n : Nat) (d : NodeD) : (s.setNode n d).hbm = s.hbm := rfl
@[simp] theorem State.setNode_time (n : Nat) (d : NodeD) : (s.setNode n d).time = s.time := rfl
@[simp] theorem State.setNode_mq (n : Nat) (d : NodeD) : (s.setNode n d).mq = s.mq := rfl
@[simp] theorem State.setNode_seed (n : Nat) (d : NodeD) : (s.setNode n d).seed = s.seed := rfl
@[simp] theorem State.setNode_bull (n : Nat) (d : NodeD) : (s.setNode n d).bull = { s.bull with nodes := mapInsert n d s.bull.nodes } := rfl
@[simp] theorem State.setNode_gh (n : Nat) (d : NodeD) : (s.setNode n d).gh = s.gh := rfl
@[simp] theorem State.setNode_core (n : Nat) (d : NodeD) : (s.setNode n d).core = s.core := rfl
@[simp] theorem State.setNode_clu (n : Nat) (d : NodeD) : (s.setNode n d).clu = s.clu := rfl
@[simp] theorem State.setNode_pmu (n : Nat) (d : NodeD) : (s.setNode n d).pmu = s.pmu := rfl
@[simp] theorem State.setNode_scout (n : Nat) (d : NodeD) : (s.setNode n d).scout = s.scout := rfl
@[simp] theorem State.setNode_ump (n : Nat) (d : NodeD) : (s.setNode n d).ump = s.ump := rfl
@[simp] theorem State.setNode_hif (n : Nat) (d : NodeD) : (s.setNode n d).hif = s.hif := rfl
@[simp] theorem State.setNode_glb (n : Nat) (d : NodeD) : (s.setNode n d).glb = s.glb := rfl
@[simp] theorem State.setNode_graphs (n : Nat) (d : NodeD) : (s.setNode n d).graphs = s.graphs := rfl
@[simp] theorem State.setNode_net (n : Nat) (d : NodeD) : (s.setNode n d).net = s.net := rfl
@[simp] theorem State.setNode_cfg (n : Nat) (d : NodeD) : (s.setNode n d).cfg = s.cfg := rfl
@[simp] theorem State.setNode_txHold (n : Nat) (d : NodeD) : (s.setNode n d).txHold = s.txHold := rfl
@[simp] theorem State.setNode_rfp (n : Nat) (d : NodeD) : (s.setNode n d).rfp = s.rfp := rfl
@[simp] theorem State.setNode_mdm (n : Nat) (d : NodeD) : (s.setNode n d).mdm = s.mdm := rfl
@[simp] theorem State.setNode_madi (n : Nat) (d : NodeD) : (s.setNode n d).madi = s.madi := rfl
@[simp] theorem State.setNode_pack (n : Nat) (d : NodeD) : (s.setNode n d).pack = s.pack := rfl
@[simp] theorem State.setNode_flc (n : Nat) (d : NodeD) : (s.setNode n d).flc = s.flc := rfl
@[simp] theorem State.setNode_flash (n : Nat) (d : NodeD) : (s.setNode n d).flash = s.flash := rfl
@[simp] theorem State.setNode_peers (n : Nat) (d : NodeD) : (s.setNode n d).peers = s.peers := rfl
@[simp] theorem State.setNode_kml (n : Nat) (d : NodeD) : (s.setNode n d).kml = s.kml := rfl
@[simp] theorem State.setNode_hbmBad (n : Nat) (d : NodeD) : (s.setNode n d).hbmBad = s.hbmBad := rfl

/-! ### setReadyQ -/

@[simp] theorem State.setReadyQ_pending (h c : Nat) (q : List ReadyEnt) : (s.setReadyQ h c q).pending = s.pending := rfl
@[simp] theorem State.setReadyQ_free (h c : Nat) (q : List ReadyEnt) : (s.setReadyQ h c q).free = s.free := rfl
@[simp] theorem State.setReadyQ_clk (h c : Nat) (q : List ReadyEnt) : (s.setReadyQ h c q).clk = s.clk := rfl
@[simp] theorem State.setReadyQ_out (h c : Nat) (q : List ReadyEnt) : (s.setReadyQ h c q).out = s.out := rfl
@[simp] theorem State.setReadyQ_regs (h c : Nat) (q : List ReadyEnt) : (s.setReadyQ h c q).regs = s.regs := rfl
@[simp] theorem State.setReadyQ_hbm (h c : Nat) (q : List ReadyEnt) : (s.setReadyQ h c q).hbm = s.hbm := rfl
@[simp] theorem State.setReadyQ_time (h c : Nat) (q : List ReadyEnt) : (s.setReadyQ h c q).time = s.time := rfl
@[simp] theorem State.setReadyQ_mq (h c : Nat) (q : List ReadyEnt) : (s.setReadyQ h c q).mq = s.mq := rfl
@[simp] theorem State.setReadyQ_seed (h c : Nat) (q : List ReadyEnt) : (s.setReadyQ h c q).seed = s.seed := rfl
@[simp] theorem State.setReadyQ_gh (h c : Nat) (q : List ReadyEnt) : (s.setReadyQ h c q).gh = s.gh := rfl
@[simp] theorem State.setReadyQ_core (h c : Nat) (q : List ReadyEnt) : (s.setReadyQ h c q).core = s.core := rfl
@[simp] theorem State.setReadyQ_clu (h c : Nat) (q : List ReadyEnt) : (s.setReadyQ h c q).clu = s.clu := rfl
@[simp] theorem State.setReadyQ_pmu (h c : Nat) (q : List ReadyEnt) : (s.setReadyQ h c q).pmu = s.pmu := rfl
@[simp] theorem State.setReadyQ_scout (h c : Nat) (q : List ReadyEnt) : (s.setReadyQ h c q).scout = s.scout := rfl
@[simp] theorem State.setReadyQ_ump (h c : Nat) (q : List ReadyEnt) : (s.setReadyQ h c q).ump = s.ump := rfl
@[simp] theorem State.setReadyQ_hif (h c : Nat) (q : List ReadyEnt) : (s.setReadyQ h c q).hif = s.hif := rfl
@[simp] theorem State.setReadyQ_glb (h c : Nat) (q : List ReadyEnt) : (s.setReadyQ h c q).glb = s.glb := rfl
@[simp] theorem State.setReadyQ_graphs (h c : Nat) (q : List ReadyEnt) : (s.setReadyQ h c q).graphs = s.graphs := rfl
@[simp] theorem State.setReadyQ_net (h c : Nat) (q : List ReadyEnt) : (s.setReadyQ h c q).net = s.net := rfl
@[simp] theorem State.setReadyQ_cfg (h c : Nat) (q : List ReadyEnt) : (s.setReadyQ h c q).cfg = s.cfg := rfl
@[simp] theorem State.setReadyQ_txHold (h c : Nat) (q : List ReadyEnt) : (s.setReadyQ h c q).txHold = s.txHold := rfl
@[simp] theorem State.setReadyQ_rfp (h c : Nat) (q : List ReadyEnt) : (s.setReadyQ h c q).rfp = s.rfp := rfl
@[simp] theorem State.setReadyQ_mdm (h c : Nat) (q : List ReadyEnt) : (s.setReadyQ h c q).mdm = s.mdm := rfl
@[simp] theorem State.setReadyQ_madi (h c : Nat) (q : List ReadyEnt) : (s.setReadyQ h c q).madi = s.madi := rfl
@[simp] theorem State.setReadyQ_pack (h c : Nat) (q : List ReadyEnt) : (s.setReadyQ h c q).pack = s.pack := rfl
@[simp] theorem State.setReadyQ_flc (h c : Nat) (q : List ReadyEnt) : (s.setReadyQ h c q).flc = s.flc := rfl
@[simp] theorem State.setReadyQ_flash (h c : Nat) (q : List ReadyEnt) : (s.setReadyQ h c q).flash = s.flash := rfl
@[simp] theorem State.setReadyQ_peers (h c : Nat) (q : List ReadyEnt) : (s.setReadyQ h c q).peers = s.peers := rfl
@[simp] theorem State.setReadyQ_kml (h c : Nat) (q : List ReadyEnt) : (s.setReadyQ h c q).kml = s.kml := rfl
@[simp] theorem State.setReadyQ_hbmBad (h c : Nat) (q : List ReadyEnt) : (s.setReadyQ h c q).hbmBad = s.hbmBad := rfl

/-! ### updGen -/

@[simp] theorem State.updGen_pending (g : Nat) (f : BeatGen → BeatGen) : (s.updGen g f).pending = s.pending := rfl
@[simp] theorem State.updGen_free (g : Nat) (f : BeatGen → BeatGen) : (s.updGen g f).free = s.free := rfl
@[simp] theorem State.updGen_clk (g : Nat) (f : BeatGen → BeatGen) : (s.updGen g f).clk = s.clk := rfl
@[simp] theorem State.updGen_out (g : Nat) (f : BeatGen → BeatGen) : (s.updGen g f).out = s.out := rfl
@[simp] theorem State.updGen_regs (g : Nat) (f : BeatGen → BeatGen) : (s.updGen g f).regs = s.regs := rfl
@[simp] theorem State.updGen_hbm (g : Nat) (f : BeatGen → BeatGen) : (s.updGen g f).hbm = s.hbm := rfl
@[simp] theorem State.updGen_time (g : Nat) (f : BeatGen → BeatGen) : (s.updGen g f).time = s.time := rfl
@[simp] theorem State.updGen_mq (g : Nat) (f : BeatGen → BeatGen) : (s.updGen g f).mq = s.mq := rfl
@[simp] theorem State.updGen_seed (g : Nat) (f : BeatGen → BeatGen) : (s.updGen g f).seed = s.seed := rfl
@[simp] theorem State.updGen_bull (g : Nat) (f : BeatGen → BeatGen) : (s.updGen g f).bull = { s.bull with beats := mapUpd {} g f s.bull.beats } := rfl
@[simp] theorem State.updGen_gh (g : Nat) (f : BeatGen → BeatGen) : (s.updGen g f).gh = s.gh := rfl
@[simp] theorem State.updGen_core (g : Nat) (f : BeatGen → BeatGen) : (s.updGen g f).core = s.core := rfl
@[simp] theorem State.updGen_clu (g : Nat) (f : BeatGen → BeatGen) : (s.updGen g f).clu = s.clu := rfl
@[simp] theorem State.updGen_pmu (g : Nat) (f : BeatGen → BeatGen) : (s.updGen g f).pmu = s.pmu := rfl
@[simp] theorem State.updGen_scout (g : Nat) (f : BeatGen → BeatGen) : (s.updGen g f).scout = s.scout := rfl
@[simp] theorem State.updGen_ump (g : Nat) (f : BeatGen → BeatGen) : (s.updGen g f).ump = s.ump := rfl
@[simp] theorem State.updGen_hif (g : Nat) (f : BeatGen → BeatGen) : (s.updGen g f).hif = s.hif := rfl
@[simp] theorem State.updGen_glb (g : Nat) (f : BeatGen → BeatGen) : (s.updGen g f).glb = s.glb := rfl
@[simp] theorem State.updGen_graphs (g : Nat) (f : BeatGen → BeatGen) : (s.updGen g f).graphs = s.graphs := rfl
@[simp] theorem State.updGen_net (g : Nat) (f : BeatGen → BeatGen) : (s.updGen g f).net = s.net := rfl
@[simp] theorem State.updGen_cfg (g : Nat) (f : BeatGen → BeatGen) : (s.updGen g f).cfg = s.cfg := rfl
@[simp] theorem State.updGen_txHold (g : Nat) (f : BeatGen → BeatGen) : (s.updGen g f).txHold = s.txHold := rfl
@[simp] theorem State.updGen_rfp (g : Nat) (f : BeatGen → BeatGen) : (s.updGen g f).rfp = s.rfp := rfl
@[simp] theorem State.updGen_mdm (g : Nat) (f : BeatGen → BeatGen) : (s.updGen g f).mdm = s.mdm := rfl
@[simp] theorem State.updGen_madi (g : Nat) (f : BeatGen → BeatGen) : (s.updGen g f).madi = s.madi := rfl
@[simp] theorem State.updGen_pack (g : Nat) (f : BeatGen → BeatGen) : (s.updGen g f).pack = s.pack := rfl
@[simp] theorem State.updGen_flc (g : Nat) (f : BeatGen → BeatGen) : (s.updGen g f).flc = s.flc := rfl
@[simp] theorem State.updGen_flash (g : Nat) (f : BeatGen → BeatGen) : (s.updGen g f).flash = s.flash := rfl
@[simp] theorem State.updGen_peers (g : Nat) (f : BeatGen → BeatGen) : (s.updGen g f).peers = s.peers := rfl
@[simp] theorem State.updGen_kml (g : Nat) (f : BeatGen → BeatGen) : (s.updGen g f).kml = s.kml := rfl
@[simp] theorem State.updGen_hbmBad (g : Nat) (f : BeatGen → BeatGen) : (s.updGen g f).hbmBad = s.hbmBad := rfl

/-! ### setGh -/

@[simp] theorem State.setGh_pending (f : GhSt → GhSt) : (s.setGh f).pending = s.pending := rfl
@[simp] theorem State.setGh_free (f : GhSt → GhSt) : (s.setGh f).free = s.free := rfl
@[simp] theorem State.setGh_clk (f : GhSt → GhSt) : (s.setGh f).clk = s.clk := rfl
@[simp] theorem State.setGh_out (f : GhSt → GhSt) : (s.setGh f).out = s.out := rfl
@[simp] theorem State.setGh_regs (f : GhSt → GhSt) : (s.setGh f).regs = s.regs := rfl
@[simp] theorem State.setGh_hbm (f : GhSt → GhSt) : (s.setGh f).hbm = s.hbm := rfl
@[simp] theorem State.setGh_time (f : GhSt → GhSt) : (s.setGh f).time = s.time := rfl
@[simp] theorem State.setGh_mq (f : GhSt → GhSt) : (s.setGh f).mq = s.mq := rfl
@[simp] theorem State.setGh_seed (f : GhSt → GhSt) : (s.setGh f).seed = s.seed := rfl
@[simp] theorem State.setGh_bull (f : GhSt → GhSt) : (s.setGh f).bull = s.bull := rfl
@[simp] theorem State.setGh_gh (f : GhSt → GhSt) : (s.setGh f).gh = f s.gh := rfl
@[simp] theorem State.setGh_core (f : GhSt → GhSt) : (s.setGh f).core = s.core := rfl
@[simp] theorem State.setGh_clu (f : GhSt → GhSt) : (s.setGh f).clu = s.clu := rfl
@[simp] theorem State.setGh_pmu (f : GhSt → GhSt) : (s.setGh f).pmu = s.pmu := rfl
@[simp] theorem State.setGh_scout (f : GhSt → GhSt) : (s.setGh f).scout = s.scout := rfl
@[simp] theorem State.setGh_ump (f : GhSt → GhSt) : (s.setGh f).ump = s.ump := rfl
@[simp] theorem State.setGh_hif (f : GhSt → GhSt) : (s.setGh f).hif = s.hif := rfl
@[simp] theorem State.setGh_glb (f : GhSt → GhSt) : (s.setGh f).glb = s.glb := rfl
@[simp] theorem State.setGh_graphs (f : GhSt → GhSt) : (s.setGh f).graphs = s.graphs := rfl
@[simp] theorem State.setGh_net (f : GhSt → GhSt) : (s.setGh f).net = s.net := rfl
@[simp] theorem State.setGh_cfg (f : GhSt → GhSt) : (s.setGh f).cfg = s.cfg := rfl
@[simp] theorem State.setGh_txHold (f : GhSt → GhSt) : (s.setGh f).txHold = s.txHold := rfl
@[simp] theorem State.setGh_rfp (f : GhSt → GhSt) : (s.setGh f).rfp = s.rfp := rfl
@[simp] theorem State.setGh_mdm (f : GhSt → GhSt) : (s.setGh f).mdm = s.mdm := rfl
@[simp] theorem State.setGh_madi (f : GhSt → GhSt) : (s.setGh f).madi = s.madi := rfl
@[simp] theorem State.setGh_pack (f : GhSt → GhSt) : (s.setGh f).pack = s.pack := rfl
@[simp] theorem State.setGh_flc (f : GhSt → GhSt) : (s.setGh f).flc = s.flc := rfl
@[simp] theorem State.setGh_flash (f : GhSt → GhSt) : (s.setGh f).flash = s.flash := rfl
@[simp] theorem State.setGh_peers (f : GhSt → GhSt) : (s.setGh f).peers = s.peers := rfl
@[simp] theorem State.setGh_kml (f : GhSt → GhSt) : (s.setGh f).kml = s.kml := rfl
@[simp] theorem State.setGh_hbmBad (f : GhSt → GhSt) : (s.setGh f).hbmBad = s.hbmBad := rfl

/-! ### updCore -/

@[simp] theorem State.updCore_pending (k : Nat) (f : Core → Core) : (s.updCore k f).pending = s.pending := rfl
@[simp] theorem State.updCore_free (k : Nat) (f : Core → Core) : (s.updCore k f).free = s.free := rfl
@[simp] theorem State.updCore_clk (k : Nat) (f : Core → Core) : (s.updCore k f).clk = s.clk := rfl
@[simp] theorem State.updCore_out (k : Nat) (f : Core → Core) : (s.updCore k f).out = s.out := rfl
@[simp] theorem State.updCore_regs (k : Nat) (f : Core → Core) : (s.updCore k f).regs = s.regs := rfl
@[simp] theorem State.updCore_hbm (k : Nat) (f : Core → Core) : (s.updCore k f).hbm = s.hbm := rfl
@[simp] theorem State.updCore_time (k : Nat) (f : Core → Core) : (s.updCore k f).time = s.time := rfl
@[simp] theorem State.updCore_mq (k : Nat) (f : Core → Core) : (s.updCore k f).mq = s.mq := rfl
@[simp] theorem State.updCore_seed (k : Nat) (f : Core → Core) : (s.updCore k f).seed = s.seed := rfl
@[simp] theorem State.updCore_bull (k : Nat) (f : Core → Core) : (s.updCore k f).bull = s.bull := rfl
@[simp] theorem State.updCore_gh (k : Nat) (f : Core → Core) : (s.updCore k f).gh = s.gh := rfl
@[simp] theorem State.updCore_core (k : Nat) (f : Core → Core) : (s.updCore k f).core = mapUpd {} k f s.core := rfl
@[simp] theorem State.updCore_clu (k : Nat) (f : Core → Core) : (s.updCore k f).clu = s.clu := rfl
@[simp] theorem State.updCore_pmu (k : Nat) (f : Core → Core) : (s.updCore k f).pmu = s.pmu := rfl
@[simp] theorem State.updCore_scout (k : Nat) (f : Core → Core) : (s.updCore k f).scout = s.scout := rfl
@[simp] theorem State.updCore_ump (k : Nat) (f : Core → Core) : (s.updCore k f).ump = s.ump := rfl
@[simp] theorem State.updCore_hif (k : Nat) (f : Core → Core) : (s.updCore k f).hif = s.hif := rfl
@[simp] theorem State.updCore_glb (k : Nat) (f : Core → Core) : (s.updCore k f).glb = s.glb := rfl
@[simp] theorem State.updCore_graphs (k : Nat) (f : Core → Core) : (s.updCore k f).graphs = s.graphs := rfl
@[simp] theorem State.updCore_net (k : Nat) (f : Core → Core) : (s.updCore k f).net = s.net := rfl
@[simp] theorem State.updCore_cfg (k : Nat) (f : Core → Core) : (s.updCore k f).cfg = s.cfg := rfl
@[simp] theorem State.updCore_txHold (k : Nat) (f : Core → Core) : (s.updCore k f).txHold = s.txHold := rfl
@[simp] theorem State.updCore_rfp (k : Nat) (f : Core → Core) : (s.updCore k f).rfp = s.rfp := rfl
@[simp] theorem State.updCore_mdm (k : Nat) (f : Core → Core) : (s.updCore k f).mdm = s.mdm := rfl
@[simp] theorem State.updCore_madi (k : Nat) (f : Core → Core) : (s.updCore k f).madi = s.madi := rfl
@[simp] theorem State.updCore_pack (k : Nat) (f : Core → Core) : (s.updCore k f).pack = s.pack := rfl
@[simp] theorem State.updCore_flc (k : Nat) (f : Core → Core) : (s.updCore k f).flc = s.flc := rfl
@[simp] theorem State.updCore_flash (k : Nat) (f : Core → Core) : (s.updCore k f).flash = s.flash := rfl
@[simp] theorem State.updCore_peers (k : Nat) (f : Core → Core) : (s.updCore k f).peers = s.peers := rfl
@[simp] theorem State.updCore_kml (k : Nat) (f : Core → Core) : (s.updCore k f).kml = s.kml := rfl
@[simp] theorem State.updCore_hbmBad (k : Nat) (f : Core → Core) : (s.updCore k f).hbmBad = s.hbmBad := rfl

/-! ### updClu -/

@[simp] theorem State.updClu_pending (n : Nat) (f : Cluster → Cluster) : (s.updClu n f).pending = s.pending := rfl
@[simp] theorem State.updClu_free (n : Nat) (f : Cluster → Cluster) : (s.updClu n f).free = s.free := rfl
@[simp] theorem State.updClu_clk (n : Nat) (f : Cluster → Cluster) : (s.updClu n f).clk = s.clk := rfl
@[simp] theorem State.updClu_out (n : Nat) (f : Cluster → Cluster) : (s.updClu n f).out = s.out := rfl
@[simp] theorem State.updClu_regs (n : Nat) (f : Cluster → Cluster) : (s.updClu n f).regs = s.regs := rfl
@[simp] theorem State.updClu_hbm (n : Nat) (f : Cluster → Cluster) : (s.updClu n f).hbm = s.hbm := rfl
@[simp] theorem State.updClu_time (n : Nat) (f : Cluster → Cluster) : (s.updClu n f).time = s.time := rfl
@[simp] theorem State.updClu_mq (n : Nat) (f : Cluster → Cluster) : (s.updClu n f).mq = s.mq := rfl
@[simp] theorem State.updClu_seed (n : Nat) (f : Cluster → Cluster) : (s.updClu n f).seed = s.seed := rfl
@[simp] theorem State.updClu_bull (n : Nat) (f : Cluster → Cluster) : (s.updClu n f).bull = s.bull := rfl
@[simp] theorem State.updClu_gh (n : Nat) (f : Cluster → Cluster) : (s.updClu n f).gh = s.gh := rfl
@[simp] theorem State.updClu_core (n : Nat) (f : Cluster → Cluster) : (s.updClu n f).core = s.core := rfl
@[simp] theorem State.updClu_clu (n : Nat) (f : Cluster → Cluster) : (s.updClu n f).clu = mapUpd {} n f s.clu := rfl
@[simp] theorem State.updClu_pmu (n : Nat) (f : Cluster → Cluster) : (s.updClu n f).pmu = s.pmu := rfl
@[simp] theorem State.updClu_scout (n : Nat) (f : Cluster → Cluster) : (s.updClu n f).scout = s.scout := rfl
@[simp] theorem State.updClu_ump (n : Nat) (f : Cluster → Cluster) : (s.updClu n f).ump = s.ump := rfl
@[simp] theorem State.updClu_hif (n : Nat) (f : Cluster → Cluster) : (s.updClu n f).hif = s.hif := rfl
@[simp] theorem State.updClu_glb (n : Nat) (f : Cluster → Cluster) : (s.updClu n f).glb = s.glb := rfl
@[simp] theorem State.updClu_graphs (n : Nat) (f : Cluster → Cluster) : (s.updClu n f).graphs = s.graphs := rfl
@[simp] theorem State.updClu_net (n : Nat) (f : Cluster → Cluster) : (s.updClu n f).net = s.net := rfl
@[simp] theorem State.updClu_cfg (n : Nat) (f : Cluster → Cluster) : (s.updClu n f).cfg = s.cfg := rfl
@[simp] theorem State.updClu_txHold (n : Nat) (f : Cluster → Cluster) : (s.updClu n f).txHold = s.txHold := rfl
@[simp] theorem State.updClu_rfp (n : Nat) (f : Cluster → Cluster) : (s.updClu n f).rfp = s.rfp := rfl
@[simp] theorem State.updClu_mdm (n : Nat) (f : Cluster → Cluster) : (s.updClu n f).mdm = s.mdm := rfl
@[simp] theorem State.updClu_madi (n : Nat) (f : Cluster → Cluster) : (s.updClu n f).madi = s.madi := rfl
@[simp] theorem State.updClu_pack (n : Nat) (f : Cluster → Cluster) : (s.updClu n f).pack = s.pack := rfl
@[simp] theorem State.updClu_flc (n : Nat) (f : Cluster → Cluster) : (s.updClu n f).flc = s.flc := rfl
@[simp] theorem State.updClu_flash (n : Nat) (f : Cluster → Cluster) : (s.updClu n f).flash = s.flash := rfl
@[simp] theorem State.updClu_peers (n : Nat) (f : Cluster → Cluster) : (s.updClu n f).peers = s.peers := rfl
@[simp] theorem State.updClu_kml (n : Nat) (f : Cluster → Cluster) : (s.updClu n f).kml = s.kml := rfl
@[simp] theorem State.updClu_hbmBad (n : Nat) (f : Cluster → Cluster) : (s.updClu n f).hbmBad = s.hbmBad := rfl

/-! ### setHif -/

@[simp] theorem State.setHif_pending (f : HifSt → HifSt) : (s.setHif f).pending = s.pending := rfl
@[simp] theorem State.setHif_free (f : HifSt → HifSt) : (s.setHif f).free = s.free := rfl
@[simp] theorem State.setHif_clk (f : HifSt → HifSt) : (s.setHif f).clk = s.clk := rfl
@[simp] theorem State.setHif_out (f : HifSt → HifSt) : (s.setHif f).out = s.out := rfl
@[simp] theorem State.setHif_regs (f : HifSt → HifSt) : (s.setHif f).regs = s.regs := rfl
@[simp] theorem State.setHif_hbm (f : HifSt → HifSt) : (s.setHif f).hbm = s.hbm := rfl
@[simp] theorem State.setHif_time (f : HifSt → HifSt) : (s.setHif f).time = s.time := rfl
@[simp] theorem State.setHif_mq (f : HifSt → HifSt) : (s.setHif f).mq = s.mq := rfl
@[simp] theorem State.setHif_seed (f : HifSt → HifSt) : (s.setHif f).seed = s.seed := rfl
@[simp] theorem State.setHif_bull (f : HifSt → HifSt) : (s.setHif f).bull = s.bull := rfl
@[simp] theorem State.setHif_gh (f : HifSt → HifSt) : (s.setHif f).gh = s.gh := rfl
@[simp] theorem State.setHif_core (f : HifSt → HifSt) : (s.setHif f).core = s.core := rfl
@[simp] theorem State.setHif_clu (f : HifSt → HifSt) : (s.setHif f).clu = s.clu := rfl
@[simp] theorem State.setHif_pmu (f : HifSt → HifSt) : (s.setHif f).pmu = s.pmu := rfl
@[simp] theorem State.setHif_scout (f : HifSt → HifSt) : (s.setHif f).scout = s.scout := rfl
@[simp] theorem State.setHif_ump (f : HifSt → HifSt) : (s.setHif f).ump = s.ump := rfl
@[simp] theorem State.setHif_hif (f : HifSt → HifSt) : (s.setHif f).hif = f s.hif := rfl
@[simp] theorem State.setHif_glb (f : HifSt → HifSt) : (s.setHif f).glb = s.glb := rfl
@[simp] theorem State.setHif_graphs (f : HifSt → HifSt) : (s.setHif f).graphs = s.graphs := rfl
@[simp] theorem State.setHif_net (f : HifSt → HifSt) : (s.setHif f).net = s.net := rfl
@[simp] theorem State.setHif_cfg (f : HifSt → HifSt) : (s.setHif f).cfg = s.cfg := rfl
@[simp] theorem State.setHif_txHold (f : HifSt → HifSt) : (s.setHif f).txHold = s.txHold := rfl
@[simp] theorem State.setHif_rfp (f : HifSt → HifSt) : (s.setHif f).rfp = s.rfp := rfl
@[simp] theorem State.setHif_mdm (f : HifSt → HifSt) : (s.setHif f).mdm = s.mdm := rfl
@[simp] theorem State.setHif_madi (f : HifSt → HifSt) : (s.setHif f).madi = s.madi := rfl
@[simp] theorem State.setHif_pack (f : HifSt → HifSt) : (s.setHif f).pack = s.pack := rfl
@[simp] theorem State.setHif_flc (f : HifSt → HifSt) : (s.setHif f).flc = s.flc := rfl
@[simp] theorem State.setHif_flash (f : HifSt → HifSt) : (s.setHif f).flash = s.flash := rfl
@[simp] theorem State.setHif_peers (f : HifSt → HifSt) : (s.setHif f).peers = s.peers := rfl
@[simp] theorem State.setHif_kml (f : HifSt → HifSt) : (s.setHif f).kml = s.kml := rfl
@[simp] theorem State.setHif_hbmBad (f : HifSt → HifSt) : (s.setHif f).hbmBad = s.hbmBad := rfl

/-! ### updGraph -/

@[simp] theorem State.updGraph_pending (g : Nat) (f : Graph → Graph) : (s.updGraph g f).pending = s.pending := rfl
@[simp] theorem State.updGraph_free (g : Nat) (f : Graph → Graph) : (s.updGraph g f).free = s.free := rfl
@[simp] theorem State.updGraph_clk (g : Nat) (f : Graph → Graph) : (s.updGraph g f).clk = s.clk := rfl
@[simp] theorem State.updGraph_out (g : Nat) (f : Graph → Graph) : (s.updGraph g f).out = s.out := rfl
@[simp] theorem State.updGraph_regs (g : Nat) (f : Graph → Graph) : (s.updGraph g f).regs = s.regs := rfl
@[simp] theorem State.updGraph_hbm (g : Nat) (f : Graph → Graph) : (s.updGraph g f).hbm = s.hbm := rfl
@[simp] theorem State.updGraph_time (g : Nat) (f : Graph → Graph) : (s.updGraph g f).time = s.time := rfl
@[simp] theorem State.updGraph_mq (g : Nat) (f : Graph → Graph) : (s.updGraph g f).mq = s.mq := rfl
@[simp] theorem State.updGraph_seed (g : Nat) (f : Graph → Graph) : (s.updGraph g f).seed = s.seed := rfl
@[simp] theorem State.updGraph_bull (g : Nat) (f : Graph → Graph) : (s.updGraph g f).bull = s.bull := rfl
@[simp] theorem State.updGraph_gh (g : Nat) (f : Graph → Graph) : (s.updGraph g f).gh = s.gh := rfl
@[simp] theorem State.updGraph_core (g : Nat) (f : Graph → Graph) : (s.updGraph g f).core = s.core := rfl
@[simp] theorem State.updGraph_clu (g : Nat) (f : Graph → Graph) : (s.updGraph g f).clu = s.clu := rfl
@[simp] theorem State.updGraph_pmu (g : Nat) (f : Graph → Graph) : (s.updGraph g f).pmu = s.pmu := rfl
@[simp] theorem State.updGraph_scout (g : Nat) (f : Graph → Graph) : (s.updGraph g f).scout = s.scout := rfl
@[simp] theorem State.updGraph_ump (g : Nat) (f : Graph → Graph) : (s.updGraph g f).ump = s.ump := rfl
@[simp] theorem State.updGraph_hif (g : Nat) (f : Graph → Graph) : (s.updGraph g f).hif = s.hif := rfl
@[simp] theorem State.updGraph_glb (g : Nat) (f : Graph → Graph) : (s.updGraph g f).glb = s.glb := rfl
@[simp] theorem State.updGraph_graphs (g : Nat) (f : Graph → Graph) : (s.updGraph g f).graphs = mapUpd {} g f s.graphs := rfl
@[simp] theorem State.updGraph_net (g : Nat) (f : Graph → Graph) : (s.updGraph g f).net = s.net := rfl
@[simp] theorem State.updGraph_cfg (g : Nat) (f : Graph → Graph) : (s.updGraph g f).cfg = s.cfg := rfl
@[simp] theorem State.updGraph_txHold (g : Nat) (f : Graph → Graph) : (s.updGraph g f).txHold = s.txHold := rfl
@[simp] theorem State.updGraph_rfp (g : Nat) (f : Graph → Graph) : (s.updGraph g f).rfp = s.rfp := rfl
@[simp] theorem State.updGraph_mdm (g : Nat) (f : Graph → Graph) : (s.updGraph g f).mdm = s.mdm := rfl
@[simp] theorem State.updGraph_madi (g : Nat) (f : Graph → Graph) : (s.updGraph g f).madi = s.madi := rfl
@[simp] theorem State.updGraph_pack (g : Nat) (f : Graph → Graph) : (s.updGraph g f).pack = s.pack := rfl
@[simp] theorem State.updGraph_flc (g : Nat) (f : Graph → Graph) : (s.updGraph g f).flc = s.flc := rfl
@[simp] theorem State.updGraph_flash (g : Nat) (f : Graph → Graph) : (s.updGraph g f).flash = s.flash := rfl
@[simp] theorem State.updGraph_peers (g : Nat) (f : Graph → Graph) : (s.updGraph g f).peers = s.peers := rfl
@[simp] theorem State.updGraph_kml (g : Nat) (f : Graph → Graph) : (s.updGraph g f).kml = s.kml := rfl
@[simp] theorem State.updGraph_hbmBad (g : Nat) (f : Graph → Graph) : (s.updGraph g f).hbmBad = s.hbmBad := rfl

/-! ### setNet -/

@[simp] theorem State.setNet_pending (f : NetSt → NetSt) : (s.setNet f).pending = s.pending := rfl
@[simp] theorem State.setNet_free (f : NetSt → NetSt) : (s.setNet f).free = s.free := rfl
@[simp] theorem State.setNet_clk (f : NetSt → NetSt) : (s.setNet f).clk = s.clk := rfl
@[simp] theorem State.setNet_out (f : NetSt → NetSt) : (s.setNet f).out = s.out := rfl
@[simp] theorem State.setNet_regs (f : NetSt → NetSt) : (s.setNet f).regs = s.regs := rfl
@[simp] theorem State.setNet_hbm (f : NetSt → NetSt) : (s.setNet f).hbm = s.hbm := rfl
@[simp] theorem State.setNet_time (f : NetSt → NetSt) : (s.setNet f).time = s.time := rfl
@[simp] theorem State.setNet_mq (f : NetSt → NetSt) : (s.setNet f).mq = s.mq := rfl
@[simp] theorem State.setNet_seed (f : NetSt → NetSt) : (s.setNet f).seed = s.seed := rfl
@[simp] theorem State.setNet_bull (f : NetSt → NetSt) : (s.setNet f).bull = s.bull := rfl
@[simp] theorem State.setNet_gh (f : NetSt → NetSt) : (s.setNet f).gh = s.gh := rfl
@[simp] theorem State.setNet_core (f : NetSt → NetSt) : (s.setNet f).core = s.core := rfl
@[simp] theorem State.setNet_clu (f : NetSt → NetSt) : (s.setNet f).clu = s.clu := rfl
@[simp] theorem State.setNet_pmu (f : NetSt → NetSt) : (s.setNet f).pmu = s.pmu := rfl
@[simp] theorem State.setNet_scout (f : NetSt → NetSt) : (s.setNet f).scout = s.scout := rfl
@[simp] theorem State.setNet_ump (f : NetSt → NetSt) : (s.setNet f).ump = s.ump := rfl
@[simp] theorem State.setNet_hif (f : NetSt → NetSt) : (s.setNet f).hif = s.hif := rfl
@[simp] theorem State.setNet_glb (f : NetSt → NetSt) : (s.setNet f).glb = s.glb := rfl
@[simp] theorem State.setNet_graphs (f : NetSt → NetSt) : (s.setNet f).graphs = s.graphs := rfl
@[simp] theorem State.setNet_net (f : NetSt → NetSt) : (s.setNet f).net = f s.net := rfl
@[simp] theorem State.setNet_cfg (f : NetSt → NetSt) : (s.setNet f).cfg = s.cfg := rfl
@[simp] theorem State.setNet_txHold (f : NetSt → NetSt) : (s.setNet f).txHold = s.txHold := rfl
@[simp] theorem State.setNet_rfp (f : NetSt → NetSt) : (s.setNet f).rfp = s.rfp := rfl
@[simp] theorem State.setNet_mdm (f : NetSt → NetSt) : (s.setNet f).mdm = s.mdm := rfl
@[simp] theorem State.setNet_madi (f : NetSt → NetSt) : (s.setNet f).madi = s.madi := rfl
@[simp] theorem State.setNet_pack (f : NetSt → NetSt) : (s.setNet f).pack = s.pack := rfl
@[simp] theorem State.setNet_flc (f : NetSt → NetSt) : (s.setNet f).flc = s.flc := rfl
@[simp] theorem State.setNet_flash (f : NetSt → NetSt) : (s.setNet f).flash = s.flash := rfl
@[simp] theorem State.setNet_peers (f : NetSt → NetSt) : (s.setNet f).peers = s.peers := rfl
@[simp] theorem State.setNet_kml (f : NetSt → NetSt) : (s.setNet f).kml = s.kml := rfl
@[simp] theorem State.setNet_hbmBad (f : NetSt → NetSt) : (s.setNet f).hbmBad = s.hbmBad := rfl

/-! ### updPort -/

@[simp] theorem State.updPort_pending (p : Nat) (f : PortSt → PortSt) : (s.updPort p f).pending = s.pending := rfl
@[simp] theorem State.updPort_free (p : Nat) (f : PortSt → PortSt) : (s.updPort p f).free = s.free := rfl
@[simp] theorem State.updPort_clk (p : Nat) (f : PortSt → PortSt) : (s.updPort p f).clk = s.clk := rfl
@[simp] theorem State.updPort_out (p : Nat) (f : PortSt → PortSt) : (s.updPort p f).out = s.out := rfl
@[simp] theorem State.updPort_regs (p : Nat) (f : PortSt → PortSt) : (s.updPort p f).regs = s.regs := rfl
@[simp] theorem State.updPort_hbm (p : Nat) (f : PortSt → PortSt) : (s.updPort p f).hbm = s.hbm := rfl
@[simp] theorem State.updPort_time (p : Nat) (f : PortSt → PortSt) : (s.updPort p f).time = s.time := rfl
@[simp] theorem State.updPort_mq (p : Nat) (f : PortSt → PortSt) : (s.updPort p f).mq = s.mq := rfl
@[simp] theorem State.updPort_seed (p : Nat) (f : PortSt → PortSt) : (s.updPort p f).seed = s.seed := rfl
@[simp] theorem State.updPort_bull (p : Nat) (f : PortSt → PortSt) : (s.updPort p f).bull = s.bull := rfl
@[simp] theorem State.updPort_gh (p : Nat) (f : PortSt → PortSt) : (s.updPort p f).gh = s.gh := rfl
@[simp] theorem State.updPort_core (p : Nat) (f : PortSt → PortSt) : (s.updPort p f).core = s.core := rfl
@[simp] theorem State.updPort_clu (p : Nat) (f : PortSt → PortSt) : (s.updPort p f).clu = s.clu := rfl
@[simp] theorem State.updPort_pmu (p : Nat) (f : PortSt → PortSt) : (s.updPort p f).pmu = s.pmu := rfl
@[simp] theorem State.updPort_scout (p : Nat) (f : PortSt → PortSt) : (s.updPort p f).scout = s.scout := rfl
@[simp] theorem State.updPort_ump (p : Nat) (f : PortSt → PortSt) : (s.updPort p f).ump = s.ump := rfl
@[simp] theorem State.updPort_hif (p : Nat) (f : PortSt → PortSt) : (s.updPort p f).hif = s.hif := rfl
@[simp] theorem State.updPort_glb (p : Nat) (f : PortSt → PortSt) : (s.updPort p f).glb = s.glb := rfl
@[simp] theorem State.updPort_graphs (p : Nat) (f : PortSt → PortSt) : (s.updPort p f).graphs = s.graphs := rfl
@[simp] theorem State.updPort_net (p : Nat) (f : PortSt → PortSt) : (s.updPort p f).net = { s.net with ports := mapUpd {} p f s.net.ports } := rfl
@[simp] theorem State.updPort_cfg (p : Nat) (f : PortSt → PortSt) : (s.updPort p f).cfg = s.cfg := rfl
@[simp] theorem State.updPort_txHold (p : Nat) (f : PortSt → PortSt) : (s.updPort p f).txHold = s.txHold := rfl
@[simp] theorem State.updPort_rfp (p : Nat) (f : PortSt → PortSt) : (s.updPort p f).rfp = s.rfp := rfl
@[simp] theorem State.updPort_mdm (p : Nat) (f : PortSt → PortSt) : (s.updPort p f).mdm = s.mdm := rfl
@[simp] theorem State.updPort_madi (p : Nat) (f : PortSt → PortSt) : (s.updPort p f).madi = s.madi := rfl
@[simp] theorem State.updPort_pack (p : Nat) (f : PortSt → PortSt) : (s.updPort p f).pack = s.pack := rfl
@[simp] theorem State.updPort_flc (p : Nat) (f : PortSt → PortSt) : (s.updPort p f).flc = s.flc := rfl
@[simp] theorem State.updPort_flash (p : Nat) (f : PortSt → PortSt) : (s.updPort p f).flash = s.flash := rfl
@[simp] theorem State.updPort_peers (p : Nat) (f : PortSt → PortSt) : (s.updPort p f).peers = s.peers := rfl
@[simp] theorem State.updPort_kml (p : Nat) (f : PortSt → PortSt) : (s.updPort p f).kml = s.kml := rfl
@[simp] theorem State.updPort_hbmBad (p : Nat) (f : PortSt → PortSt) : (s.updPort p f).hbmBad = s.hbmBad := rfl

/-! ### updRport -/

@[simp] theorem State.updRport_pending (p : Nat) (f : RfpPort → RfpPort) : (s.updRport p f).pending = s.pending := rfl
@[simp] theorem State.updRport_free (p : Nat) (f : RfpPort → RfpPort) : (s.updRport p f).free = s.free := rfl
@[simp] theorem State.updRport_clk (p : Nat) (f : RfpPort → RfpPort) : (s.updRport p f).clk = s.clk := rfl
@[simp] theorem State.updRport_out (p : Nat) (f : RfpPort → RfpPort) : (s.updRport p f).out = s.out := rfl
@[simp] theorem State.updRport_regs (p : Nat) (f : RfpPort → RfpPort) : (s.updRport p f).regs = s.regs := rfl
@[simp] theorem State.updRport_hbm (p : Nat) (f : RfpPort → RfpPort) : (s.updRport p f).hbm = s.hbm := rfl
@[simp] theorem State.updRport_time (p : Nat) (f : RfpPort → RfpPort) : (s.updRport p f).time = s.time := rfl
@[simp] theorem State.updRport_mq (p : Nat) (f : RfpPort → RfpPort) : (s.updRport p f).mq = s.mq := rfl
@[simp] theorem State.updRport_seed (p : Nat) (f : RfpPort → RfpPort) : (s.updRport p f).seed = s.seed := rfl
@[simp] theorem State.updRport_bull (p : Nat) (f : RfpPort → RfpPort) : (s.updRport p f).bull = s.bull := rfl
@[simp] theorem State.updRport_gh (p : Nat) (f : RfpPort → RfpPort) : (s.updRport p f).gh = s.gh := rfl
@[simp] theorem State.updRport_core (p : Nat) (f : RfpPort → RfpPort) : (s.updRport p f).core = s.core := rfl
@[simp] theorem State.updRport_clu (p : Nat) (f : RfpPort → RfpPort) : (s.updRport p f).clu = s.clu := rfl
@[simp] theorem State.updRport_pmu (p : Nat) (f : RfpPort → RfpPort) : (s.updRport p f).pmu = s.pmu := rfl
@[simp] theorem State.updRport_scout (p : Nat) (f : RfpPort → RfpPort) : (s.updRport p f).scout = s.scout := rfl
@[simp] theorem State.updRport_ump (p : Nat) (f : RfpPort → RfpPort) : (s.updRport p f).ump = s.ump := rfl
@[simp] theorem State.updRport_hif (p : Nat) (f : RfpPort → RfpPort) : (s.updRport p f).hif = s.hif := rfl
@[simp] theorem State.updRport_glb (p : Nat) (f : RfpPort → RfpPort) : (s.updRport p f).glb = s.glb := rfl
@[simp] theorem State.updRport_graphs (p : Nat) (f : RfpPort → RfpPort) : (s.updRport p f).graphs = s.graphs := rfl
@[simp] theorem State.updRport_net (p : Nat) (f : RfpPort → RfpPort) : (s.updRport p f).net = s.net := rfl
@[simp] theorem State.updRport_cfg (p : Nat) (f : RfpPort → RfpPort) : (s.updRport p f).cfg = s.cfg := rfl
@[simp] theorem State.updRport_txHold (p : Nat) (f : RfpPort → RfpPort) : (s.updRport p f).txHold = s.txHold := rfl
@[simp] theorem State.updRport_rfp (p : Nat) (f : RfpPort → RfpPort) : (s.updRport p f).rfp = mapUpd {} p f s.rfp := rfl
@[simp] theorem State.updRport_mdm (p : Nat) (f : RfpPort → RfpPort) : (s.updRport p f).mdm = s.mdm := rfl
@[simp] theorem State.updRport_madi (p : Nat) (f : RfpPort → RfpPort) : (s.updRport p f).madi = s.madi := rfl
@[simp] theorem State.updRport_pack (p : Nat) (f : RfpPort → RfpPort) : (s.updRport p f).pack = s.pack := rfl
@[simp] theorem State.updRport_flc (p : Nat) (f : RfpPort → RfpPort) : (s.updRport p f).flc = s.flc := rfl
@[simp] theorem State.updRport_flash (p : Nat) (f : RfpPort → RfpPort) : (s.updRport p f).flash = s.flash := rfl
@[simp] theorem State.updRport_peers (p : Nat) (f : RfpPort → RfpPort) : (s.updRport p f).peers = s.peers := rfl
@[simp] theorem State.updRport_kml (p : Nat) (f : RfpPort → RfpPort) : (s.updRport p f).kml = s.kml := rfl
@[simp] theorem State.updRport_hbmBad (p : Nat) (f : RfpPort → RfpPort) : (s.updRport p f).hbmBad = s.hbmBad := rfl

/-! ### setMdm -/

@[simp] theorem State.setMdm_pending (f : MdmSt → MdmSt) : (s.setMdm f).pending = s.pending := rfl
@[simp] theorem State.setMdm_free (f : MdmSt → MdmSt) : (s.setMdm f).free = s.free := rfl
@[simp] theorem State.setMdm_clk (f : MdmSt → MdmSt) : (s.setMdm f).clk = s.clk := rfl
@[simp] theorem State.setMdm_out (f : MdmSt → MdmSt) : (s.setMdm f).out = s.out := rfl
@[simp] theorem State.setMdm_regs (f : MdmSt → MdmSt) : (s.setMdm f).regs = s.regs := rfl
@[simp] theorem State.setMdm_hbm (f : MdmSt → MdmSt) : (s.setMdm f).hbm = s.hbm := rfl
@[simp] theorem State.setMdm_time (f : MdmSt → MdmSt) : (s.setMdm f).time = s.time := rfl
@[simp] theorem State.setMdm_mq (f : MdmSt → MdmSt) : (s.setMdm f).mq = s.mq := rfl
@[simp] theorem State.setMdm_seed (f : MdmSt → MdmSt) : (s.setMdm f).seed = s.seed := rfl
@[simp] theorem State.setMdm_bull (f : MdmSt → MdmSt) : (s.setMdm f).bull = s.bull := rfl
@[simp] theorem State.setMdm_gh (f : MdmSt → MdmSt) : (s.setMdm f).gh = s.gh := rfl
@[simp] theorem State.setMdm_core (f : MdmSt → MdmSt) : (s.setMdm f).core = s.core := rfl
@[simp] theorem State.setMdm_clu (f : MdmSt → MdmSt) : (s.setMdm f).clu = s.clu := rfl
@[simp] theorem State.setMdm_pmu (f : MdmSt → MdmSt) : (s.setMdm f).pmu = s.pmu := rfl
@[simp] theorem State.setMdm_scout (f : MdmSt → MdmSt) : (s.setMdm f).scout = s.scout := rfl
@[simp] theorem State.setMdm_ump (f : MdmSt → MdmSt) : (s.setMdm f).ump = s.ump := rfl
@[simp] theorem State.setMdm_hif (f : MdmSt → MdmSt) : (s.setMdm f).hif = s.hif := rfl
@[simp] theorem State.setMdm_glb (f : MdmSt → MdmSt) : (s.setMdm f).glb = s.glb := rfl
@[simp] theorem State.setMdm_graphs (f : MdmSt → MdmSt) : (s.setMdm f).graphs = s.graphs := rfl
@[simp] theorem State.setMdm_net (f : MdmSt → MdmSt) : (s.setMdm f).net = s.net := rfl
@[simp] theorem State.setMdm_cfg (f : MdmSt → MdmSt) : (s.setMdm f).cfg = s.cfg := rfl
@[simp] theorem State.setMdm_txHold (f : MdmSt → MdmSt) : (s.setMdm f).txHold = s.txHold := rfl
@[simp] theorem State.setMdm_rfp (f : MdmSt → MdmSt) : (s.setMdm f).rfp = s.rfp := rfl
@[simp] theorem State.setMdm_mdm (f : MdmSt → MdmSt) : (s.setMdm f).mdm = f s.mdm := rfl
@[simp] theorem State.setMdm_madi (f : MdmSt → MdmSt) : (s.setMdm f).madi = s.madi := rfl
@[simp] theorem State.setMdm_pack (f : MdmSt → MdmSt) : (s.setMdm f).pack = s.pack := rfl
@[simp] theorem State.setMdm_flc (f : MdmSt → MdmSt) : (s.setMdm f).flc = s.flc := rfl
@[simp] theorem State.setMdm_flash (f : MdmSt → MdmSt) : (s.setMdm f).flash = s.flash := rfl
@[simp] theorem State.setMdm_peers (f : MdmSt → MdmSt) : (s.setMdm f).peers = s.peers := rfl
@[simp] theorem State.setMdm_kml (f : MdmSt → MdmSt) : (s.setMdm f).kml = s.kml := rfl
@[simp] theorem State.setMdm_hbmBad (f : MdmSt → MdmSt) : (s.setMdm f).hbmBad = s.hbmBad := rfl

/-! ### updMport -/

@[simp] theorem State.updMport_pending (p : Nat) (f : MPort → MPort) : (s.updMport p f).pending = s.pending := rfl
@[simp] theorem State.updMport_free (p : Nat) (f : MPort → MPort) : (s.updMport p f).free = s.free := rfl
@[simp] theorem State.updMport_clk (p : Nat) (f : MPort → MPort) : (s.updMport p f).clk = s.clk := rfl
@[simp] theorem State.updMport_out (p : Nat) (f : MPort → MPort) : (s.updMport p f).out = s.out := rfl
@[simp] theorem State.updMport_regs (p : Nat) (f : MPort → MPort) : (s.updMport p f).regs = s.regs := rfl
@[simp] theorem State.updMport_hbm (p : Nat) (f : MPort → MPort) : (s.updMport p f).hbm = s.hbm := rfl
@[simp] theorem State.updMport_time (p : Nat) (f : MPort → MPort) : (s.updMport p f).time = s.time := rfl
@[simp] theorem State.updMport_mq (p : Nat) (f : MPort → MPort) : (s.updMport p f).mq = s.mq := rfl
@[simp] theorem State.updMport_seed (p : Nat) (f : MPort → MPort) : (s.updMport p f).seed = s.seed := rfl
@[simp] theorem State.updMport_bull (p : Nat) (f : MPort → MPort) : (s.updMport p f).bull = s.bull := rfl
@[simp] theorem State.updMport_gh (p : Nat) (f : MPort → MPort) : (s.updMport p f).gh = s.gh := rfl
@[simp] theorem State.updMport_core (p : Nat) (f : MPort → MPort) : (s.updMport p f).core = s.core := rfl
@[simp] theorem State.updMport_clu (p : Nat) (f : MPort → MPort) : (s.updMport p f).clu = s.clu := rfl
@[simp] theorem State.updMport_pmu (p : Nat) (f : MPort → MPort) : (s.updMport p f).pmu = s.pmu := rfl
@[simp] theorem State.updMport_scout (p : Nat) (f : MPort → MPort) : (s.updMport p f).scout = s.scout := rfl
@[simp] theorem State.updMport_ump (p : Nat) (f : MPort → MPort) : (s.updMport p f).ump = s.ump := rfl
@[simp] theorem State.updMport_hif (p : Nat) (f : MPort → MPort) : (s.updMport p f).hif = s.hif := rfl
@[simp] theorem State.updMport_glb (p : Nat) (f : MPort → MPort) : (s.updMport p f).glb = s.glb := rfl
@[simp] theorem State.updMport_graphs (p : Nat) (f : MPort → MPort) : (s.updMport p f).graphs = s.graphs := rfl
@[simp] theorem State.updMport_net (p : Nat) (f : MPort → MPort) : (s.updMport p f).net = s.net := rfl
@[simp] theorem State.updMport_cfg (p : Nat) (f : MPort → MPort) : (s.updMport p f).cfg = s.cfg := rfl
@[simp] theorem State.updMport_txHold (p : Nat) (f : MPort → MPort) : (s.updMport p f).txHold = s.txHold := rfl
@[simp] theorem State.updMport_rfp (p : Nat) (f : MPort → MPort) : (s.updMport p f).rfp = s.rfp := rfl
@[simp] theorem State.updMport_mdm (p : Nat) (f : MPort → MPort) : (s.updMport p f).mdm = { s.mdm with ports := mapUpd {} p f s.mdm.ports } := rfl
@[simp] theorem State.updMport_madi (p : Nat) (f : MPort → MPort) : (s.updMport p f).madi = s.madi := rfl
@[simp] theorem State.updMport_pack (p : Nat) (f : MPort → MPort) : (s.updMport p f).pack = s.pack := rfl
@[simp] theorem State.updMport_flc (p : Nat) (f : MPort → MPort) : (s.updMport p f).flc = s.flc := rfl
@[simp] theorem State.updMport_flash (p : Nat) (f : MPort → MPort) : (s.updMport p f).flash = s.flash := rfl
@[simp] theorem State.updMport_peers (p : Nat) (f : MPort → MPort) : (s.updMport p f).peers = s.peers := rfl
@[simp] theorem State.updMport_kml (p : Nat) (f : MPort → MPort) : (s.updMport p f).kml = s.kml := rfl
@[simp] theorem State.updMport_hbmBad (p : Nat) (f : MPort → MPort) : (s.updMport p f).hbmBad = s.hbmBad := rfl

/-! ### updMlink -/

@[simp] theorem State.updMlink_pending (l : Nat) (f : MLink → MLink) : (s.updMlink l f).pending = s.pending := rfl
@[simp] theorem State.updMlink_free (l : Nat) (f : MLink → MLink) : (s.updMlink l f).free = s.free := rfl
@[simp] theorem State.updMlink_clk (l : Nat) (f : MLink → MLink) : (s.updMlink l f).clk = s.clk := rfl
@[simp] theorem State.updMlink_out (l : Nat) (f : MLink → MLink) : (s.updMlink l f).out = s.out := rfl
@[simp] theorem State.updMlink_regs (l : Nat) (f : MLink → MLink) : (s.updMlink l f).regs = s.regs := rfl
@[simp] theorem State.updMlink_hbm (l : Nat) (f : MLink → MLink) : (s.updMlink l f).hbm = s.hbm := rfl
@[simp] theorem State.updMlink_time (l : Nat) (f : MLink → MLink) : (s.updMlink l f).time = s.time := rfl
@[simp] theorem State.updMlink_mq (l : Nat) (f : MLink → MLink) : (s.updMlink l f).mq = s.mq := rfl
@[simp] theorem State.updMlink_seed (l : Nat) (f : MLink → MLink) : (s.updMlink l f).seed = s.seed := rfl
@[simp] theorem State.updMlink_bull (l : Nat) (f : MLink → MLink) : (s.updMlink l f).bull = s.bull := rfl
@[simp] theorem State.updMlink_gh (l : Nat) (f : MLink → MLink) : (s.updMlink l f).gh = s.gh := rfl
@[simp] theorem State.updMlink_core (l : Nat) (f : MLink → MLink) : (s.updMlink l f).core = s.core := rfl
@[simp] theorem State.updMlink_clu (l : Nat) (f : MLink → MLink) : (s.updMlink l f).clu = s.clu := rfl
@[simp] theorem State.updMlink_pmu (l : Nat) (f : MLink → MLink) : (s.updMlink l f).pmu = s.pmu := rfl
@[simp] theorem State.updMlink_scout (l : Nat) (f : MLink → MLink) : (s.updMlink l f).scout = s.scout := rfl
@[simp] theorem State.updMlink_ump (l : Nat) (f : MLink → MLink) : (s.updMlink l f).ump = s.ump := rfl
@[simp] theorem State.updMlink_hif (l : Nat) (f : MLink → MLink) : (s.updMlink l f).hif = s.hif := rfl
@[simp] theorem State.updMlink_glb (l : Nat) (f : MLink → MLink) : (s.updMlink l f).glb = s.glb := rfl
@[simp] theorem State.updMlink_graphs (l : Nat) (f : MLink → MLink) : (s.updMlink l f).graphs = s.graphs := rfl
@[simp] theorem State.updMlink_net (l : Nat) (f : MLink → MLink) : (s.updMlink l f).net = s.net := rfl
@[simp] theorem State.updMlink_cfg (l : Nat) (f : MLink → MLink) : (s.updMlink l f).cfg = s.cfg := rfl
@[simp] theorem State.updMlink_txHold (l : Nat) (f : MLink → MLink) : (s.updMlink l f).txHold = s.txHold := rfl
@[simp] theorem State.updMlink_rfp (l : Nat) (f : MLink → MLink) : (s.updMlink l f).rfp = s.rfp := rfl
@[simp] theorem State.updMlink_mdm (l : Nat) (f : MLink → MLink) : (s.updMlink l f).mdm = { s.mdm with links := mapUpd {} l f s.mdm.links } := rfl
@[simp] theorem State.updMlink_madi (l : Nat) (f : MLink → MLink) : (s.updMlink l f).madi = s.madi := rfl
@[simp] theorem State.updMlink_pack (l : Nat) (f : MLink → MLink) : (s.updMlink l f).pack = s.pack := rfl
@[simp] theorem State.updMlink_flc (l : Nat) (f : MLink → MLink) : (s.updMlink l f).flc = s.flc := rfl
@[simp] theorem State.updMlink_flash (l : Nat) (f : MLink → MLink) : (s.updMlink l f).flash = s.flash := rfl
@[simp] theorem State.updMlink_peers (l : Nat) (f : MLink → MLink) : (s.updMlink l f).peers = s.peers := rfl
@[simp] theorem State.updMlink_kml (l : Nat) (f : MLink → MLink) : (s.updMlink l f).kml = s.kml := rfl
@[simp] theorem State.updMlink_hbmBad (l : Nat) (f : MLink → MLink) : (s.updMlink l f).hbmBad = s.hbmBad := rfl

/-! ### setRx -/

@[simp] theorem State.setRx_pending (r : RxSlot) : (s.setRx r).pending = s.pending := rfl
@[simp] theorem State.setRx_free (r : RxSlot) : (s.setRx r).free = s.free := rfl
@[simp] theorem State.setRx_clk (r : RxSlot) : (s.setRx r).clk = s.clk := rfl
@[simp] theorem State.setRx_out (r : RxSlot) : (s.setRx r).out = s.out := rfl
@[simp] theorem State.setRx_regs (r : RxSlot) : (s.setRx r).regs = s.regs := rfl
@[simp] theorem State.setRx_hbm (r : RxSlot) : (s.setRx r).hbm = s.hbm := rfl
@[simp] theorem State.setRx_time (r : RxSlot) : (s.setRx r).time = s.time := rfl
@[simp] theorem State.setRx_mq (r : RxSlot) : (s.setRx r).mq = s.mq := rfl
@[simp] theorem State.setRx_seed (r : RxSlot) : (s.setRx r).seed = s.seed := rfl
@[simp] theorem State.setRx_bull (r : RxSlot) : (s.setRx r).bull = s.bull := rfl
@[simp] theorem State.setRx_gh (r : RxSlot) : (s.setRx r).gh = s.gh := rfl
@[simp] theorem State.setRx_core (r : RxSlot) : (s.setRx r).core = s.core := rfl
@[simp] theorem State.setRx_clu (r : RxSlot) : (s.setRx r).clu = s.clu := rfl
@[simp] theorem State.setRx_pmu (r : RxSlot) : (s.setRx r).pmu = s.pmu := rfl
@[simp] theorem State.setRx_scout (r : RxSlot) : (s.setRx r).scout = s.scout := rfl
@[simp] theorem State.setRx_ump (r : RxSlot) : (s.setRx r).ump = s.ump := rfl
@[simp] theorem State.setRx_hif (r : RxSlot) : (s.setRx r).hif = s.hif := rfl
@[simp] theorem State.setRx_glb (r : RxSlot) : (s.setRx r).glb = s.glb := rfl
@[simp] theorem State.setRx_graphs (r : RxSlot) : (s.setRx r).graphs = s.graphs := rfl
@[simp] theorem State.setRx_net (r : RxSlot) : (s.setRx r).net = s.net := rfl
@[simp] theorem State.setRx_cfg (r : RxSlot) : (s.setRx r).cfg = s.cfg := rfl
@[simp] theorem State.setRx_txHold (r : RxSlot) : (s.setRx r).txHold = s.txHold := rfl
@[simp] theorem State.setRx_rfp (r : RxSlot) : (s.setRx r).rfp = s.rfp := rfl
@[simp] theorem State.setRx_madi (r : RxSlot) : (s.setRx r).madi = s.madi := rfl
@[simp] theorem State.setRx_pack (r : RxSlot) : (s.setRx r).pack = s.pack := rfl
@[simp] theorem State.setRx_flc (r : RxSlot) : (s.setRx r).flc = s.flc := rfl
@[simp] theorem State.setRx_flash (r : RxSlot) : (s.setRx r).flash = s.flash := rfl
@[simp] theorem State.setRx_peers (r : RxSlot) : (s.setRx r).peers = s.peers := rfl
@[simp] theorem State.setRx_kml (r : RxSlot) : (s.setRx r).kml = s.kml := rfl
@[simp] theorem State.setRx_hbmBad (r : RxSlot) : (s.setRx r).hbmBad = s.hbmBad := rfl

/-! ### updMadi -/

@[simp] theorem State.updMadi_pending (p : Nat) (f : MadiPort → MadiPort) : (s.updMadi p f).pending = s.pending := rfl
@[simp] theorem State.updMadi_free (p : Nat) (f : MadiPort → MadiPort) : (s.updMadi p f).free = s.free := rfl
@[simp] theorem State.updMadi_clk (p : Nat) (f : MadiPort → MadiPort) : (s.updMadi p f).clk = s.clk := rfl
@[simp] theorem State.updMadi_out (p : Nat) (f : MadiPort → MadiPort) : (s.updMadi p f).out = s.out := rfl
@[simp] theorem State.updMadi_regs (p : Nat) (f : MadiPort → MadiPort) : (s.updMadi p f).regs = s.regs := rfl
@[simp] theorem State.updMadi_hbm (p : Nat) (f : MadiPort → MadiPort) : (s.updMadi p f).hbm = s.hbm := rfl
@[simp] theorem State.updMadi_time (p : Nat) (f : MadiPort → MadiPort) : (s.updMadi p f).time = s.time := rfl
@[simp] theorem State.updMadi_mq (p : Nat) (f : MadiPort → MadiPort) : (s.updMadi p f).mq = s.mq := rfl
@[simp] theorem State.updMadi_seed (p : Nat) (f : MadiPort → MadiPort) : (s.updMadi p f).seed = s.seed := rfl
@[simp] theorem State.updMadi_bull (p : Nat) (f : MadiPort → MadiPort) : (s.updMadi p f).bull = s.bull := rfl
@[simp] theorem State.updMadi_gh (p : Nat) (f : MadiPort → MadiPort) : (s.updMadi p f).gh = s.gh := rfl
@[simp] theorem State.updMadi_core (p : Nat) (f : MadiPort → MadiPort) : (s.updMadi p f).core = s.core := rfl
@[simp] theorem State.updMadi_clu (p : Nat) (f : MadiPort → MadiPort) : (s.updMadi p f).clu = s.clu := rfl
@[simp] theorem State.updMadi_pmu (p : Nat) (f : MadiPort → MadiPort) : (s.updMadi p f).pmu = s.pmu := rfl
@[simp] theorem State.updMadi_scout (p : Nat) (f : MadiPort → MadiPort) : (s.updMadi p f).scout = s.scout := rfl
@[simp] theorem State.updMadi_ump (p : Nat) (f : MadiPort → MadiPort) : (s.updMadi p f).ump = s.ump := rfl
@[simp] theorem State.updMadi_hif (p : Nat) (f : MadiPort → MadiPort) : (s.updMadi p f).hif = s.hif := rfl
@[simp] theorem State.updMadi_glb (p : Nat) (f : MadiPort → MadiPort) : (s.updMadi p f).glb = s.glb := rfl
@[simp] theorem State.updMadi_graphs (p : Nat) (f : MadiPort → MadiPort) : (s.updMadi p f).graphs = s.graphs := rfl
@[simp] theorem State.updMadi_net (p : Nat) (f : MadiPort → MadiPort) : (s.updMadi p f).net = s.net := rfl
@[simp] theorem State.updMadi_cfg (p : Nat) (f : MadiPort → MadiPort) : (s.updMadi p f).cfg = s.cfg := rfl
@[simp] theorem State.updMadi_txHold (p : Nat) (f : MadiPort → MadiPort) : (s.updMadi p f).txHold = s.txHold := rfl
@[simp] theorem State.updMadi_rfp (p : Nat) (f : MadiPort → MadiPort) : (s.updMadi p f).rfp = s.rfp := rfl
@[simp] theorem State.updMadi_mdm (p : Nat) (f : MadiPort → MadiPort) : (s.updMadi p f).mdm = s.mdm := rfl
@[simp] theorem State.updMadi_madi (p : Nat) (f : MadiPort → MadiPort) : (s.updMadi p f).madi = mapUpd {} p f s.madi := rfl
@[simp] theorem State.updMadi_pack (p : Nat) (f : MadiPort → MadiPort) : (s.updMadi p f).pack = s.pack := rfl
@[simp] theorem State.updMadi_flc (p : Nat) (f : MadiPort → MadiPort) : (s.updMadi p f).flc = s.flc := rfl
@[simp] theorem State.updMadi_flash (p : Nat) (f : MadiPort → MadiPort) : (s.updMadi p f).flash = s.flash := rfl
@[simp] theorem State.updMadi_peers (p : Nat) (f : MadiPort → MadiPort) : (s.updMadi p f).peers = s.peers := rfl
@[simp] theorem State.updMadi_kml (p : Nat) (f : MadiPort → MadiPort) : (s.updMadi p f).kml = s.kml := rfl
@[simp] theorem State.updMadi_hbmBad (p : Nat) (f : MadiPort → MadiPort) : (s.updMadi p f).hbmBad = s.hbmBad := rfl

/-! ### setFlc -/

@[simp] theorem State.setFlc_pending (f : FlcSt → FlcSt) : (s.setFlc f).pending = s.pending := rfl
@[simp] theorem State.setFlc_free (f : FlcSt → FlcSt) : (s.setFlc f).free = s.free := rfl
@[simp] theorem State.setFlc_clk (f : FlcSt → FlcSt) : (s.setFlc f).clk = s.clk := rfl
@[simp] theorem State.setFlc_out (f : FlcSt → FlcSt) : (s.setFlc f).out = s.out := rfl
@[simp] theorem State.setFlc_regs (f : FlcSt → FlcSt) : (s.setFlc f).regs = s.regs := rfl
@[simp] theorem State.setFlc_hbm (f : FlcSt → FlcSt) : (s.setFlc f).hbm = s.hbm := rfl
@[simp] theorem State.setFlc_time (f : FlcSt → FlcSt) : (s.setFlc f).time = s.time := rfl
@[simp] theorem State.setFlc_mq (f : FlcSt → FlcSt) : (s.setFlc f).mq = s.mq := rfl
@[simp] theorem State.setFlc_seed (f : FlcSt → FlcSt) : (s.setFlc f).seed = s.seed := rfl
@[simp] theorem State.setFlc_bull (f : FlcSt → FlcSt) : (s.setFlc f).bull = s.bull := rfl
@[simp] theorem State.setFlc_gh (f : FlcSt → FlcSt) : (s.setFlc f).gh = s.gh := rfl
@[simp] theorem State.setFlc_core (f : FlcSt → FlcSt) : (s.setFlc f).core = s.core := rfl
@[simp] theorem State.setFlc_clu (f : FlcSt → FlcSt) : (s.setFlc f).clu = s.clu := rfl
@[simp] theorem State.setFlc_pmu (f : FlcSt → FlcSt) : (s.setFlc f).pmu = s.pmu := rfl
@[simp] theorem State.setFlc_scout (f : FlcSt → FlcSt) : (s.setFlc f).scout = s.scout := rfl
@[simp] theorem State.setFlc_ump (f : FlcSt → FlcSt) : (s.setFlc f).ump = s.ump := rfl
@[simp] theorem State.setFlc_hif (f : FlcSt → FlcSt) : (s.setFlc f).hif = s.hif := rfl
@[simp] theorem State.setFlc_glb (f : FlcSt → FlcSt) : (s.setFlc f).glb = s.glb := rfl
@[simp] theorem State.setFlc_graphs (f : FlcSt → FlcSt) : (s.setFlc f).graphs = s.graphs := rfl
@[simp] theorem State.setFlc_net (f : FlcSt → FlcSt) : (s.setFlc f).net = s.net := rfl
@[simp] theorem State.setFlc_cfg (f : FlcSt → FlcSt) : (s.setFlc f).cfg = s.cfg := rfl
@[simp] theorem State.setFlc_txHold (f : FlcSt → FlcSt) : (s.setFlc f).txHold = s.txHold := rfl
@[simp] theorem State.setFlc_rfp (f : FlcSt → FlcSt) : (s.setFlc f).rfp = s.rfp := rfl
@[simp] theorem State.setFlc_mdm (f : FlcSt → FlcSt) : (s.setFlc f).mdm = s.mdm := rfl
@[simp] theorem State.setFlc_madi (f : FlcSt → FlcSt) : (s.setFlc f).madi = s.madi := rfl
@[simp] theorem State.setFlc_pack (f : FlcSt → FlcSt) : (s.setFlc f).pack = s.pack := rfl
@[simp] theorem State.setFlc_flc (f : FlcSt → FlcSt) : (s.setFlc f).flc = f s.flc := rfl
@[simp] theorem State.setFlc_flash (f : FlcSt → FlcSt) : (s.setFlc f).flash = s.flash := rfl
@[simp] theorem State.setFlc_peers (f : FlcSt → FlcSt) : (s.setFlc f).peers = s.peers := rfl
@[simp] theorem State.setFlc_kml (f : FlcSt → FlcSt) : (s.setFlc f).kml = s.kml := rfl
@[simp] theorem State.setFlc_hbmBad (f : FlcSt → FlcSt) : (s.setFlc f).hbmBad = s.hbmBad := rfl

/-! ### setFlash -/

@[simp] theorem State.setFlash_pending (f : FlashSt → FlashSt) : (s.setFlash f).pending = s.pending := rfl
@[simp] theorem State.setFlash_free (f : FlashSt → FlashSt) : (s.setFlash f).free = s.free := rfl
@[simp] theorem State.setFlash_clk (f : FlashSt → FlashSt) : (s.setFlash f).clk = s.clk := rfl
@[simp] theorem State.setFlash_out (f : FlashSt → FlashSt) : (s.setFlash f).out = s.out := rfl
@[simp] theorem State.setFlash_regs (f : FlashSt → FlashSt) : (s.setFlash f).regs = s.regs := rfl
@[simp] theorem State.setFlash_hbm (f : FlashSt → FlashSt) : (s.setFlash f).hbm = s.hbm := rfl
@[simp] theorem State.setFlash_time (f : FlashSt → FlashSt) : (s.setFlash f).time = s.time := rfl
@[simp] theorem State.setFlash_mq (f : FlashSt → FlashSt) : (s.setFlash f).mq = s.mq := rfl
@[simp] theorem State.setFlash_seed (f : FlashSt → FlashSt) : (s.setFlash f).seed = s.seed := rfl
@[simp] theorem State.setFlash_bull (f : FlashSt → FlashSt) : (s.setFlash f).bull = s.bull := rfl
@[simp] theorem State.setFlash_gh (f : FlashSt → FlashSt) : (s.setFlash f).gh = s.gh := rfl
@[simp] theorem State.setFlash_core (f : FlashSt → FlashSt) : (s.setFlash f).core = s.core := rfl
@[simp] theorem State.setFlash_clu (f : FlashSt → FlashSt) : (s.setFlash f).clu = s.clu := rfl
@[simp] theorem State.setFlash_pmu (f : FlashSt → FlashSt) : (s.setFlash f).pmu = s.pmu := rfl
@[simp] theorem State.setFlash_scout (f : FlashSt → FlashSt) : (s.setFlash f).scout = s.scout := rfl
@[simp] theorem State.setFlash_ump (f : FlashSt → FlashSt) : (s.setFlash f).ump = s.ump := rfl
@[simp] theorem State.setFlash_hif (f : FlashSt → FlashSt) : (s.setFlash f).hif = s.hif := rfl
@[simp] theorem State.setFlash_glb (f : FlashSt → FlashSt) : (s.setFlash f).glb = s.glb := rfl
@[simp] theorem State.setFlash_graphs (f : FlashSt → FlashSt) : (s.setFlash f).graphs = s.graphs := rfl
@[simp] theorem State.setFlash_net (f : FlashSt → FlashSt) : (s.setFlash f).net = s.net := rfl
@[simp] theorem State.setFlash_cfg (f : FlashSt → FlashSt) : (s.setFlash f).cfg = s.cfg := rfl
@[simp] theorem State.setFlash_txHold (f : FlashSt → FlashSt) : (s.setFlash f).txHold = s.txHold := rfl
@[simp] theorem State.setFlash_rfp (f : FlashSt → FlashSt) : (s.setFlash f).rfp = s.rfp := rfl
@[simp] theorem State.setFlash_mdm (f : FlashSt → FlashSt) : (s.setFlash f).mdm = s.mdm := rfl
@[simp] theorem State.setFlash_madi (f : FlashSt → FlashSt) : (s.setFlash f).madi = s.madi := rfl
@[simp] theorem State.setFlash_pack (f : FlashSt → FlashSt) : (s.setFlash f).pack = s.pack := rfl
@[simp] theorem State.setFlash_flc (f : FlashSt → FlashSt) : (s.setFlash f).flc = s.flc := rfl
@[simp] theorem State.setFlash_flash (f : FlashSt → FlashSt) : (s.setFlash f).flash = f s.flash := rfl
@[simp] theorem State.setFlash_peers (f : FlashSt → FlashSt) : (s.setFlash f).peers = s.peers := rfl
@[simp] theorem State.setFlash_kml (f : FlashSt → FlashSt) : (s.setFlash f).kml = s.kml := rfl
@[simp] theorem State.setFlash_hbmBad (f : FlashSt → FlashSt) : (s.setFlash f).hbmBad = s.hbmBad := rfl

/-! ### updDie -/

@[simp] theorem State.updDie_pending (d : Nat) (f : Die → Die) : (s.updDie d f).pending = s.pending := rfl
@[simp] theorem State.updDie_free (d : Nat) (f : Die → Die) : (s.updDie d f).free = s.free := rfl
@[simp] theorem State.updDie_clk (d : Nat) (f : Die → Die) : (s.updDie d f).clk = s.clk := rfl
@[simp] theorem State.updDie_out (d : Nat) (f : Die → Die) : (s.updDie d f).out = s.out := rfl
@[simp] theorem State.updDie_regs (d : Nat) (f : Die → Die) : (s.updDie d f).regs = s.regs := rfl
@[simp] theorem State.updDie_hbm (d : Nat) (f : Die → Die) : (s.updDie d f).hbm = s.hbm := rfl
@[simp] theorem State.updDie_time (d : Nat) (f : Die → Die) : (s.updDie d f).time = s.time := rfl
@[simp] theorem State.updDie_mq (d : Nat) (f : Die → Die) : (s.updDie d f).mq = s.mq := rfl
@[simp] theorem State.updDie_seed (d : Nat) (f : Die → Die) : (s.updDie d f).seed = s.seed := rfl
@[simp] theorem State.updDie_bull (d : Nat) (f : Die → Die) : (s.updDie d f).bull = s.bull := rfl
@[simp] theorem State.updDie_gh (d : Nat) (f : Die → Die) : (s.updDie d f).gh = s.gh := rfl
@[simp] theorem State.updDie_core (d : Nat) (f : Die → Die) : (s.updDie d f).core = s.core := rfl
@[simp] theorem State.updDie_clu (d : Nat) (f : Die → Die) : (s.updDie d f).clu = s.clu := rfl
@[simp] theorem State.updDie_pmu (d : Nat) (f : Die → Die) : (s.updDie d f).pmu = s.pmu := rfl
@[simp] theorem State.updDie_scout (d : Nat) (f : Die → Die) : (s.updDie d f).scout = s.scout := rfl
@[simp] theorem State.updDie_ump (d : Nat) (f : Die → Die) : (s.updDie d f).ump = s.ump := rfl
@[simp] theorem State.updDie_hif (d : Nat) (f : Die → Die) : (s.updDie d f).hif = s.hif := rfl
@[simp] theorem State.updDie_glb (d : Nat) (f : Die → Die) : (s.updDie d f).glb = s.glb := rfl
@[simp] theorem State.updDie_graphs (d : Nat) (f : Die → Die) : (s.updDie d f).graphs = s.graphs := rfl
@[simp] theorem State.updDie_net (d : Nat) (f : Die → Die) : (s.updDie d f).net = s.net := rfl
@[simp] theorem State.updDie_cfg (d : Nat) (f : Die → Die) : (s.updDie d f).cfg = s.cfg := rfl
@[simp] theorem State.updDie_txHold (d : Nat) (f : Die → Die) : (s.updDie d f).txHold = s.txHold := rfl
@[simp] theorem State.updDie_rfp (d : Nat) (f : Die → Die) : (s.updDie d f).rfp = s.rfp := rfl
@[simp] theorem State.updDie_mdm (d : Nat) (f : Die → Die) : (s.updDie d f).mdm = s.mdm := rfl
@[simp] theorem State.updDie_madi (d : Nat) (f : Die → Die) : (s.updDie d f).madi = s.madi := rfl
@[simp] theorem State.updDie_pack (d : Nat) (f : Die → Die) : (s.updDie d f).pack = s.pack := rfl
@[simp] theorem State.updDie_flc (d : Nat) (f : Die → Die) : (s.updDie d f).flc = s.flc := rfl
@[simp] theorem State.updDie_flash (d : Nat) (f : Die → Die) : (s.updDie d f).flash = { s.flash with dies := mapUpd {} d f s.flash.dies } := rfl
@[simp] theorem State.updDie_peers (d : Nat) (f : Die → Die) : (s.updDie d f).peers = s.peers := rfl
@[simp] theorem State.updDie_kml (d : Nat) (f : Die → Die) : (s.updDie d f).kml = s.kml := rfl
@[simp] theorem State.updDie_hbmBad (d : Nat) (f : Die → Die) : (s.updDie d f).hbmBad = s.hbmBad := rfl

/-! ### setPeer -/

@[simp] theorem State.setPeer_pending (l : Nat) (x : WlLink) : (s.setPeer l x).pending = s.pending := rfl
@[simp] theorem State.setPeer_free (l : Nat) (x : WlLink) : (s.setPeer l x).free = s.free := rfl
@[simp] theorem State.setPeer_clk (l : Nat) (x : WlLink) : (s.setPeer l x).clk = s.clk := rfl
@[simp] theorem State.setPeer_out (l : Nat) (x : WlLink) : (s.setPeer l x).out = s.out := rfl
@[simp] theorem State.setPeer_regs (l : Nat) (x : WlLink) : (s.setPeer l x).regs = s.regs := rfl
@[simp] theorem State.setPeer_hbm (l : Nat) (x : WlLink) : (s.setPeer l x).hbm = s.hbm := rfl
@[simp] theorem State.setPeer_time (l : Nat) (x : WlLink) : (s.setPeer l x).time = s.time := rfl
@[simp] theorem State.setPeer_mq (l : Nat) (x : WlLink) : (s.setPeer l x).mq = s.mq := rfl
@[simp] theorem State.setPeer_seed (l : Nat) (x : WlLink) : (s.setPeer l x).seed = s.seed := rfl
@[simp] theorem State.setPeer_bull (l : Nat) (x : WlLink) : (s.setPeer l x).bull = s.bull := rfl
@[simp] theorem State.setPeer_gh (l : Nat) (x : WlLink) : (s.setPeer l x).gh = s.gh := rfl
@[simp] theorem State.setPeer_core (l : Nat) (x : WlLink) : (s.setPeer l x).core = s.core := rfl
@[simp] theorem State.setPeer_clu (l : Nat) (x : WlLink) : (s.setPeer l x).clu = s.clu := rfl
@[simp] theorem State.setPeer_pmu (l : Nat) (x : WlLink) : (s.setPeer l x).pmu = s.pmu := rfl
@[simp] theorem State.setPeer_scout (l : Nat) (x : WlLink) : (s.setPeer l x).scout = s.scout := rfl
@[simp] theorem State.setPeer_ump (l : Nat) (x : WlLink) : (s.setPeer l x).ump = s.ump := rfl
@[simp] theorem State.setPeer_hif (l : Nat) (x : WlLink) : (s.setPeer l x).hif = s.hif := rfl
@[simp] theorem State.setPeer_glb (l : Nat) (x : WlLink) : (s.setPeer l x).glb = s.glb := rfl
@[simp] theorem State.setPeer_graphs (l : Nat) (x : WlLink) : (s.setPeer l x).graphs = s.graphs := rfl
@[simp] theorem State.setPeer_net (l : Nat) (x : WlLink) : (s.setPeer l x).net = s.net := rfl
@[simp] theorem State.setPeer_cfg (l : Nat) (x : WlLink) : (s.setPeer l x).cfg = s.cfg := rfl
@[simp] theorem State.setPeer_txHold (l : Nat) (x : WlLink) : (s.setPeer l x).txHold = s.txHold := rfl
@[simp] theorem State.setPeer_rfp (l : Nat) (x : WlLink) : (s.setPeer l x).rfp = s.rfp := rfl
@[simp] theorem State.setPeer_mdm (l : Nat) (x : WlLink) : (s.setPeer l x).mdm = s.mdm := rfl
@[simp] theorem State.setPeer_madi (l : Nat) (x : WlLink) : (s.setPeer l x).madi = s.madi := rfl
@[simp] theorem State.setPeer_pack (l : Nat) (x : WlLink) : (s.setPeer l x).pack = s.pack := rfl
@[simp] theorem State.setPeer_flc (l : Nat) (x : WlLink) : (s.setPeer l x).flc = s.flc := rfl
@[simp] theorem State.setPeer_flash (l : Nat) (x : WlLink) : (s.setPeer l x).flash = s.flash := rfl
@[simp] theorem State.setPeer_peers (l : Nat) (x : WlLink) : (s.setPeer l x).peers = mapInsert l x s.peers := rfl
@[simp] theorem State.setPeer_kml (l : Nat) (x : WlLink) : (s.setPeer l x).kml = s.kml := rfl
@[simp] theorem State.setPeer_hbmBad (l : Nat) (x : WlLink) : (s.setPeer l x).hbmBad = s.hbmBad := rfl

/-! ### What reads after a write -/

theorem State.reg_setReg (a b : Nat) (w : Word) : (s.setReg a w).reg b = if b = a then w else s.reg b := by
  unfold State.reg State.setReg
  dsimp only
  split
  next hw =>
    split
    next hb => subst hb; rw [mapGet_erase_self]; exact hw.symm
    next hb => exact mapGet_erase_other hb _ _
  next => rw [mapGet_insert]

@[simp] theorem State.reg_setReg_self (a : Nat) (w : Word) : (s.setReg a w).reg a = w := by rw [State.reg_setReg, if_pos rfl]

theorem State.reg_setReg_other {a b : Nat} (h : b ≠ a) (w : Word) : (s.setReg a w).reg b = s.reg b := by
  rw [State.reg_setReg, if_neg h]

@[simp] theorem State.reg_setFld_self (f : Fld) (v : Nat) : (s.setFld f v).reg f.addr = setBits (s.reg f.addr) f.lo f.w v := by
  unfold State.setFld; rw [State.reg_setReg_self]

theorem State.reg_setFld_other (f : Fld) (v : Nat) {b : Nat} (h : b ≠ f.addr) : (s.setFld f v).reg b = s.reg b := by
  unfold State.setFld; exact State.reg_setReg_other s h _

/-- A field's place read in a word. -/
theorem bits_lt (w : Word) (lo n : Nat) : bits w lo n < 2 ^ n := Nat.mod_lt _ (Nat.two_pow_pos n)

theorem setBits_toNat (w : Word) {lo n : Nat} (h : lo + n ≤ 32) (v : Nat) :
    (setBits w lo n v).toNat = w.toNat - bits w lo n * 2 ^ lo + v % 2 ^ n * 2 ^ lo := by
  unfold setBits
  rw [BitVec.toNat_ofNat]
  refine Nat.mod_eq_of_lt ?_
  have hw : w.toNat < 2 ^ 32 := w.isLt
  have hlo : (2 : Nat) ^ 32 = 2 ^ (lo + n) * 2 ^ (32 - (lo + n)) := by rw [← Nat.pow_add]; congr 1; omega
  have e1 : w.toNat = 2 ^ (lo + n) * (w.toNat / 2 ^ (lo + n)) + (w.toNat % 2 ^ lo + 2 ^ lo * bits w lo n) := by
    conv_lhs => rw [← Nat.div_add_mod w.toNat (2 ^ (lo + n))]
    congr 1
    unfold bits
    rw [Nat.pow_add, Nat.mod_mul]
  have hq : w.toNat / 2 ^ (lo + n) < 2 ^ (32 - (lo + n)) := by
    rw [Nat.div_lt_iff_lt_mul (Nat.two_pow_pos _), Nat.mul_comm, ← hlo]; exact hw
  have hm : w.toNat % 2 ^ lo < 2 ^ lo := Nat.mod_lt _ (Nat.two_pow_pos lo)
  have hv : v % 2 ^ n < 2 ^ n := Nat.mod_lt _ (Nat.two_pow_pos n)
  have hs : w.toNat % 2 ^ lo + 2 ^ lo * (v % 2 ^ n) < 2 ^ (lo + n) := by
    rw [Nat.pow_add]
    calc w.toNat % 2 ^ lo + 2 ^ lo * (v % 2 ^ n) < 2 ^ lo + 2 ^ lo * (v % 2 ^ n) := by omega
      _ = 2 ^ lo * (v % 2 ^ n + 1) := by ring
      _ ≤ 2 ^ lo * 2 ^ n := Nat.mul_le_mul_left _ hv
  have e2 : w.toNat - bits w lo n * 2 ^ lo + v % 2 ^ n * 2 ^ lo =
      2 ^ (lo + n) * (w.toNat / 2 ^ (lo + n)) + (w.toNat % 2 ^ lo + 2 ^ lo * (v % 2 ^ n)) := by
    rw [Nat.mul_comm (bits w lo n), Nat.mul_comm (v % 2 ^ n)]; omega
  rw [e2, hlo]
  calc 2 ^ (lo + n) * (w.toNat / 2 ^ (lo + n)) + (w.toNat % 2 ^ lo + 2 ^ lo * (v % 2 ^ n))
      < 2 ^ (lo + n) * (w.toNat / 2 ^ (lo + n)) + 2 ^ (lo + n) := by omega
    _ = 2 ^ (lo + n) * (w.toNat / 2 ^ (lo + n) + 1) := by ring
    _ ≤ 2 ^ (lo + n) * 2 ^ (32 - (lo + n)) := Nat.mul_le_mul_left _ hq

/-- A field reads what was written to it, at its width. -/
theorem bits_setBits_self (w : Word) {lo n : Nat} (h : lo + n ≤ 32) (v : Nat) : bits (setBits w lo n v) lo n = v % 2 ^ n := by
  have hm : w.toNat % 2 ^ lo < 2 ^ lo := Nat.mod_lt _ (Nat.two_pow_pos lo)
  have e1 : w.toNat = 2 ^ (lo + n) * (w.toNat / 2 ^ (lo + n)) + (w.toNat % 2 ^ lo + 2 ^ lo * bits w lo n) := by
    conv_lhs => rw [← Nat.div_add_mod w.toNat (2 ^ (lo + n))]
    congr 1
    unfold bits
    rw [Nat.pow_add, Nat.mod_mul]
  have e2 : w.toNat - bits w lo n * 2 ^ lo + v % 2 ^ n * 2 ^ lo =
      w.toNat % 2 ^ lo + 2 ^ lo * (v % 2 ^ n + 2 ^ n * (w.toNat / 2 ^ (lo + n))) := by
    rw [Nat.mul_comm (bits w lo n), Nat.mul_comm (v % 2 ^ n)]
    have : 2 ^ lo * (v % 2 ^ n + 2 ^ n * (w.toNat / 2 ^ (lo + n))) =
        2 ^ lo * (v % 2 ^ n) + 2 ^ (lo + n) * (w.toNat / 2 ^ (lo + n)) := by rw [Nat.pow_add]; ring
    omega
  show (setBits w lo n v).toNat / 2 ^ lo % 2 ^ n = v % 2 ^ n
  rw [setBits_toNat w h, e2, Nat.add_mul_div_left _ _ (Nat.two_pow_pos lo), Nat.div_eq_of_lt hm, Nat.zero_add,
    Nat.add_mul_mod_self_left, Nat.mod_mod]

/-- A field reads what was written to it, at its width. -/
theorem State.fld_setFld_self (f : Fld) (h : f.lo + f.w ≤ 32) (v : Nat) : (s.setFld f v).fld f = v % 2 ^ f.w := by
  unfold State.fld; rw [State.reg_setFld_self, bits_setBits_self _ h]

/-- A write to a field of one register leaves every field of another. -/
theorem State.fld_setFld_other (f g : Fld) (v : Nat) (h : g.addr ≠ f.addr) : (s.setFld f v).fld g = s.fld g := by
  unfold State.fld; rw [State.reg_setFld_other s f v h]

theorem setBits_decomp (w : Word) {lo n : Nat} (h : lo + n ≤ 32) (v : Nat) :
    (setBits w lo n v).toNat = 2 ^ (lo + n) * (w.toNat / 2 ^ (lo + n)) + (2 ^ lo * (v % 2 ^ n) + w.toNat % 2 ^ lo) := by
  rw [setBits_toNat w h]
  have e1 : w.toNat = 2 ^ (lo + n) * (w.toNat / 2 ^ (lo + n)) + (w.toNat % 2 ^ lo + 2 ^ lo * bits w lo n) := by
    conv_lhs => rw [← Nat.div_add_mod w.toNat (2 ^ (lo + n))]
    congr 1
    unfold bits
    rw [Nat.pow_add, Nat.mod_mul]
  rw [Nat.mul_comm (bits w lo n), Nat.mul_comm (v % 2 ^ n)]; omega

theorem setBits_testBit (w : Word) {lo n : Nat} (h : lo + n ≤ 32) (v j : Nat) (hj : ¬ (lo ≤ j ∧ j < lo + n)) :
    (setBits w lo n v).toNat.testBit j = w.toNat.testBit j := by
  have hs : 2 ^ lo * (v % 2 ^ n) + w.toNat % 2 ^ lo < 2 ^ (lo + n) := by
    have hm : w.toNat % 2 ^ lo < 2 ^ lo := Nat.mod_lt _ (Nat.two_pow_pos lo)
    have hv : v % 2 ^ n < 2 ^ n := Nat.mod_lt _ (Nat.two_pow_pos n)
    rw [Nat.pow_add]
    calc 2 ^ lo * (v % 2 ^ n) + w.toNat % 2 ^ lo < 2 ^ lo * (v % 2 ^ n) + 2 ^ lo := by omega
      _ = 2 ^ lo * (v % 2 ^ n + 1) := by ring
      _ ≤ 2 ^ lo * 2 ^ n := Nat.mul_le_mul_left _ hv
  rw [setBits_decomp w h, Nat.testBit_two_pow_mul_add _ hs]
  by_cases h1 : j < lo
  · rw [if_pos (by omega), Nat.testBit_two_pow_mul_add _ (Nat.mod_lt _ (Nat.two_pow_pos lo)), if_pos h1, Nat.testBit_mod_two_pow]
    simp [h1]
  · rw [if_neg (by omega), Nat.testBit_div_two_pow]
    congr 1; omega

/-- A write to a field leaves every other field of the word. -/
theorem bits_setBits_other (w : Word) {lo n lo' n' : Nat} (h : lo + n ≤ 32) (v : Nat) (hd : lo' + n' ≤ lo ∨ lo + n ≤ lo') :
    bits (setBits w lo n v) lo' n' = bits w lo' n' := by
  unfold bits
  apply Nat.eq_of_testBit_eq
  intro j
  rw [Nat.testBit_mod_two_pow, Nat.testBit_mod_two_pow, Nat.testBit_div_two_pow, Nat.testBit_div_two_pow]
  by_cases hj : j < n'
  · rw [setBits_testBit w h v _ (by omega)]
  · simp [hj]

/-- A write to a field leaves every other field of its register. -/
theorem State.fld_setFld_apart (f g : Fld) (v : Nat) (h : f.lo + f.w ≤ 32) (hd : g.lo + g.w ≤ f.lo ∨ f.lo + f.w ≤ g.lo) :
    (s.setFld f v).fld g = s.fld g := by
  by_cases ha : g.addr = f.addr
  · unfold State.fld; rw [ha, State.reg_setFld_self, bits_setBits_other _ h v hd]
  · exact State.fld_setFld_other s f g v ha
@[simp] theorem State.reg_emit (m : OutMsg) (b : Nat) : (s.emit m).reg b = s.reg b := rfl

@[simp] theorem State.cor_updCore_self (k : Nat) (f : Core → Core) : (s.updCore k f).cor k = f (s.cor k) :=
  by unfold State.cor State.updCore; exact mapGet_upd_self _ k f s.core

theorem State.cor_updCore_other {j k : Nat} (h : j ≠ k) (f : Core → Core) : (s.updCore k f).cor j = s.cor j :=
  by unfold State.cor State.updCore; exact mapGet_upd_other h _ f s.core

@[simp] theorem State.cl_updCore (k : Nat) (f : Core → Core) (n : Nat) : (s.updCore k f).cl n = s.cl n := rfl

@[simp] theorem State.cl_updClu_self (n : Nat) (f : Cluster → Cluster) : (s.updClu n f).cl n = f (s.cl n) :=
  by unfold State.cl State.updClu; exact mapGet_upd_self _ n f s.clu

theorem State.cl_updClu_other {j n : Nat} (h : j ≠ n) (f : Cluster → Cluster) : (s.updClu n f).cl j = s.cl j :=
  by unfold State.cl State.updClu; exact mapGet_upd_other h _ f s.clu

end Sys2Proof.Machine
end

