-- ==== Sys2Proof/Laws/Issue.lean ====
section
/-!
SUPPORT. Laws/Issue.lean: the frame of an instruction of a media core, and what issuing one does once its own effect is known.
-/

namespace Sys2Proof.Machine

variable {k : Nat} {s t u : State}

theorem CoreFrame.refl (k : Nat) (s : State) : CoreFrame k s s := by
  constructor <;> first | rfl | exact le_refl _ | exact ⟨rfl, rfl, rfl⟩ | (intros; rfl)

theorem CoreFrame.trans (h : CoreFrame k s t) (g : CoreFrame k t u) : CoreFrame k s u where
  pending := g.pending.trans h.pending
  clk := g.clk.trans h.clk
  free := h.free.trans g.free
  time := g.time.trans h.time
  mq := g.mq.trans h.mq
  seed := g.seed.trans h.seed
  bull := g.bull.trans h.bull
  gh := g.gh.trans h.gh
  ump := g.ump.trans h.ump
  glb := g.glb.trans h.glb
  graphs := g.graphs.trans h.graphs
  net := g.net.trans h.net
  cfg := g.cfg.trans h.cfg
  txHold := g.txHold.trans h.txHold
  rfp := g.rfp.trans h.rfp
  mdm := g.mdm.trans h.mdm
  madi := g.madi.trans h.madi
  pack := g.pack.trans h.pack
  flc := g.flc.trans h.flc
  flash := g.flash.trans h.flash
  peers := g.peers.trans h.peers
  kml := g.kml.trans h.kml
  hbmBad := g.hbmBad.trans h.hbmBad
  hbm := g.hbm.trans h.hbm
  kci := ⟨g.kci.1.trans h.kci.1, g.kci.2.1.trans h.kci.2.1, g.kci.2.2.trans h.kci.2.2⟩
  others j hj := (g.others j hj).trans (h.others j hj)
  clus n hn := (g.clus n hn).trans (h.clus n hn)
  code := g.code.trans h.code
  regs b hb := (g.regs b hb).trans (h.regs b hb)

theorem CoreOnly.refl (k : Nat) (s : State) : CoreOnly k s s := ⟨CoreFrame.refl k s, rfl, rfl⟩

theorem CoreOnly.trans (h : CoreOnly k s t) (g : CoreOnly k t u) : CoreOnly k s u :=
  ⟨h.toCoreFrame.trans g.toCoreFrame, g.data.trans h.data, g.bad.trans h.bad⟩

/-- The part of an update that is not the core itself: the core is as it was too. -/
def Aside (k : Nat) (s t : State) : Prop := CoreOnly k s t ∧ t.cor k = s.cor k

theorem Aside.refl (k : Nat) (s : State) : Aside k s s := ⟨CoreOnly.refl k s, rfl⟩

theorem Aside.trans (h : Aside k s t) (g : Aside k t u) : Aside k s u := ⟨h.1.trans g.1, g.2.trans h.2⟩

theorem sendMsi_aside (k src : Nat) (s : State) : Aside k s (sendMsi src s) := by
  unfold sendMsi
  dsimp only
  split
  · split
    all_goals
      refine ⟨⟨⟨?_, ?_, ?_, ?_, ?_, ?_, ?_, ?_, ?_, ?_, ?_, ?_, ?_, ?_, ?_, ?_, ?_, ?_, ?_, ?_, ?_, ?_, ?_, ?_, ?_, ?_, ?_, ?_, ?_⟩, ?_, ?_⟩, ?_⟩
      all_goals first | rfl | exact le_refl _ | exact ⟨rfl, rfl, rfl⟩ | (intros; rfl)
  · exact Aside.refl k s

theorem setReg_aside {a : Nat} (h : InPmu k a) (w : Word) (s : State) : Aside k s (s.setReg a w) := by
  refine ⟨⟨⟨?_, ?_, ?_, ?_, ?_, ?_, ?_, ?_, ?_, ?_, ?_, ?_, ?_, ?_, ?_, ?_, ?_, ?_, ?_, ?_, ?_, ?_, ?_, ?_, ?_, ?_, ?_, ?_, ?_⟩, ?_, ?_⟩, ?_⟩
  all_goals try first | rfl | exact le_refl _ | exact ⟨rfl, rfl, rfl⟩ | (intros; rfl)
  intro b hb
  exact State.reg_setReg_other s (fun e => hb (by rw [e]; exact h)) w

theorem raiseFld_aside {f : Fld} (src : Nat) (h : InPmu k f.addr) (s : State) : Aside k s (raiseFld src f s) := by
  unfold raiseFld notify State.setFld
  split
  · exact (setReg_aside h _ s).trans (sendMsi_aside k src _)
  · exact setReg_aside h _ s

theorem pmcAdd_aside (k i n : Nat) (s : State) : Aside k s (pmcAdd k i n s) := by
  unfold pmcAdd
  dsimp only
  have h : Aside k s { s with pmu := mapInsert k { mapGet ({} : PmuSet) k s.pmu with
      pmc := mapInsert i ((mapGet 0 i (mapGet ({} : PmuSet) k s.pmu).pmc + n) % 2 ^ 48) (mapGet ({} : PmuSet) k s.pmu).pmc } s.pmu } := by
    refine ⟨⟨⟨?_, ?_, ?_, ?_, ?_, ?_, ?_, ?_, ?_, ?_, ?_, ?_, ?_, ?_, ?_, ?_, ?_, ?_, ?_, ?_, ?_, ?_, ?_, ?_, ?_, ?_, ?_, ?_, ?_⟩, ?_, ?_⟩, ?_⟩
    all_goals first | rfl | exact le_refl _ | exact ⟨rfl, rfl, rfl⟩ | (intros; rfl)
  split
  · refine h.trans (raiseFld_aside _ ?_ _)
    unfold Fld.bit fPmuOvfPmc InPmu
    dsimp only
    omega
  · exact h

theorem pmuEvent_aside (k ev n : Nat) (s : State) : Aside k s (pmuEvent k ev n s) := by
  unfold pmuEvent
  split
  · exact Aside.refl k s
  · generalize List.range 6 = l
    suffices ∀ t, Aside k s t → Aside k s (l.foldl (fun s i =>
        if s.flag (fPmuEvselEn k i) && s.fld (fPmuEvselEvent k i) == ev then pmcAdd k i n s else s) t) from this s (Aside.refl k s)
    induction l with
    | nil => exact fun t h => h
    | cons i l ih =>
      intro t h
      rw [List.foldl_cons]
      refine ih _ ?_
      split
      · exact h.trans (pmcAdd_aside k i n t)
      · exact h

theorem scoutRecord_aside (k op o pc node : Nat) (s : State) : Aside k s (scoutRecord k op o pc node s) := by
  unfold scoutRecord
  dsimp only
  split
  · exact Aside.refl k s
  · refine ⟨⟨⟨?_, ?_, ?_, ?_, ?_, ?_, ?_, ?_, ?_, ?_, ?_, ?_, ?_, ?_, ?_, ?_, ?_, ?_, ?_, ?_, ?_, ?_, ?_, ?_, ?_, ?_, ?_, ?_, ?_⟩, ?_, ?_⟩, ?_⟩
    all_goals first | rfl | exact ⟨rfl, rfl, rfl⟩ | (intros; rfl) | (simp only [State.draw]; omega)

theorem wake_aside (k : Nat) (s : State) : Aside k s (setPwr (k / 16) .run s) := by
  unfold setPwr
  refine ⟨⟨⟨?_, ?_, ?_, ?_, ?_, ?_, ?_, ?_, ?_, ?_, ?_, ?_, ?_, ?_, ?_, ?_, ?_, ?_, ?_, ?_, ?_, ?_, ?_, ?_, ?_, ?_, ?_, ?_, ?_⟩, ?_, ?_⟩, ?_⟩
  all_goals try first | rfl | exact le_refl _ | exact ⟨rfl, rfl, rfl⟩ | (intros; rfl)
  · intro n hn; exact State.cl_updClu_other s hn _
  all_goals rw [State.cl_updClu_self]

theorem updCore_only (k : Nat) (f : Core → Core) (s : State) : CoreOnly k s (s.updCore k f) := by
  refine ⟨⟨?_, ?_, ?_, ?_, ?_, ?_, ?_, ?_, ?_, ?_, ?_, ?_, ?_, ?_, ?_, ?_, ?_, ?_, ?_, ?_, ?_, ?_, ?_, ?_, ?_, ?_, ?_, ?_, ?_⟩, ?_, ?_⟩
  all_goals try first | rfl | exact le_refl _ | exact ⟨rfl, rfl, rfl⟩ | (intros; rfl)
  intro j hj; exact State.cor_updCore_other s hj f

theorem draw_aside (k : Nat) (s : State) : Aside k s s.draw.2 := by
  refine ⟨⟨⟨?_, ?_, ?_, ?_, ?_, ?_, ?_, ?_, ?_, ?_, ?_, ?_, ?_, ?_, ?_, ?_, ?_, ?_, ?_, ?_, ?_, ?_, ?_, ?_, ?_, ?_, ?_, ?_, ?_⟩, ?_, ?_⟩, ?_⟩
  all_goals first | rfl | exact Nat.le_succ _ | exact ⟨rfl, rfl, rfl⟩ | (intros; rfl)

/-- The state that an instruction's effect is applied to: an IDLE cluster has woken (R494). -/
def issueState (k : Nat) (s : State) : State := if (s.cl (k / 16)).pwr = .idle then setPwr (k / 16) .run s else s

/-- A fetch finds the same in a cluster that has woken. -/
theorem fetchExc_wake (k pc : Nat) (s : State) : fetchExc (issueState k s) k pc = fetchExc s k pc := by
  unfold issueState
  split
  · unfold fetchExc setPwr
    dsimp only
    rw [State.cl_updClu_self]
    rfl
  · rfl

/-- Issuing an instruction that may run, is legal, and stands where it may: its effect is applied to a state that differs from
the one before it in no more than its cluster's power state. -/
theorem issue_at {op : Nat} {bar wf : Bool} {f : State → CoreRes} (h : runs s k = true) (hw : wf = true)
    (hb : bar = true → bodyEndFree s k = true) :
    Aside k s (issueState k s) ∧
      (∀ t, f (issueState k s) = .done t → CoreOnly k t (issue k op bar wf f s) ∧
        (issue k op bar wf f s).cor k = { t.cor k with
          loops := (loopEnd (s.cor k).pc (t.cor k).loops).1, pc := (loopEnd (s.cor k).pc (t.cor k).loops).2 }) ∧
      (∀ p t, f (issueState k s) = .jump p t → CoreOnly k t (issue k op bar wf f s) ∧
        (issue k op bar wf f s).cor k = { t.cor k with loops := loopLeave p (t.cor k).loops, pc := p }) ∧
      (∀ p t, f (issueState k s) = .skip p t → CoreOnly k t (issue k op bar wf f s) ∧ (issue k op bar wf f s).cor k = { t.cor k with pc := p }) ∧
      (∀ t, f (issueState k s) = .stay t → issue k op bar wf f s = t) := by
  unfold runs at h
  simp only [Bool.and_eq_true, Bool.not_eq_true', Bool.and_eq_false_iff, Option.isNone_iff_eq_none] at h
  obtain ⟨⟨hc, hp⟩, -⟩ := h
  let s' := if (s.cl (k / 16)).pwr = .idle then setPwr (k / 16) .run s else s
  have ha : Aside k s s' := by
    show Aside k s (if (s.cl (k / 16)).pwr = .idle then setPwr (k / 16) .run s else s)
    split
    · exact wake_aside k s
    · exact Aside.refl k s
  have hp' : fetchExc s' k (s'.cor k).pc = none := by rw [ha.2]; exact (fetchExc_wake k _ s).trans hp
  have hb' : (bar && (s'.cor k).loops.any (fun l => l.last == (s'.cor k).pc)) = false := by
    rw [ha.2]
    cases bar with
    | false => rfl
    | true =>
      have := hb rfl
      unfold bodyEndFree at this
      simpa using this
  have e : issue k op bar wf f s =
      (match f s' with
      | .exc e u => (if (s'.cor k).mode = .run then scoutRecord k op 2 (s'.cor k).pc (if (s'.cor k).mode = .run then (s'.cor k).node else 0) (takeException k e u) else takeException k e u)
      | .stay u => u
      | .done u =>
        (fun v : State => if (s'.cor k).mode = .run then scoutRecord k op 0 (s'.cor k).pc (if (s'.cor k).mode = .run then (s'.cor k).node else 0) v else v)
          (pmuEvent k 0x001 1 (u.updCore k (fun c => { c with
            loops := (loopEnd (s'.cor k).pc (u.cor k).loops).1, pc := (loopEnd (s'.cor k).pc (u.cor k).loops).2 })))
      | .jump p u =>
        (fun v : State => if (s'.cor k).mode = .run then scoutRecord k op 0 (s'.cor k).pc (if (s'.cor k).mode = .run then (s'.cor k).node else 0) v else v)
          (pmuEvent k 0x021 1 (pmuEvent k 0x001 1 (u.updCore k (fun c => { c with loops := loopLeave p c.loops, pc := p }))))
      | .skip p u =>
        (fun v : State => if (s'.cor k).mode = .run then scoutRecord k op 0 (s'.cor k).pc (if (s'.cor k).mode = .run then (s'.cor k).node else 0) v else v)
          (pmuEvent k 0x001 1 (u.updCore k (fun c => { c with pc := p })))) := by
    unfold issue
    rw [hc, hw]
    simp only [Bool.not_true, Bool.false_eq_true, if_false]
    rw [show (if (s.cl (k / 16)).pwr = .idle then setPwr (k / 16) .run s else s) = s' from rfl, hp', hb']
    simp only [Bool.false_eq_true, if_false]
    all_goals (cases f s' <;> rfl)
  have tag : ∀ (o : Nat) (v : State), Aside k v
      (if (s'.cor k).mode = .run then scoutRecord k op o (s'.cor k).pc (if (s'.cor k).mode = .run then (s'.cor k).node else 0) v else v) := by
    intro o v
    split
    · exact scoutRecord_aside ..
    · exact Aside.refl k v
  refine ⟨ha, fun t ht => ?_, fun p t ht => ?_, fun p t ht => ?_, fun t ht => ?_⟩
  · rw [e, show f s' = _ from ht]
    dsimp only
    have x := (pmuEvent_aside k 0x001 1 (t.updCore k (fun c => { c with
      loops := (loopEnd (s'.cor k).pc (t.cor k).loops).1, pc := (loopEnd (s'.cor k).pc (t.cor k).loops).2 }))).trans (tag 0 _)
    refine ⟨(updCore_only k _ t).trans x.1, x.2.trans ?_⟩
    rw [State.cor_updCore_self, ha.2]
  · rw [e, show f s' = _ from ht]
    dsimp only
    have x := ((pmuEvent_aside k 0x001 1 (t.updCore k (fun c => { c with loops := loopLeave p c.loops, pc := p }))).trans
      (pmuEvent_aside k 0x021 1 _)).trans (tag 0 _)
    exact ⟨(updCore_only k _ t).trans x.1, x.2.trans (State.cor_updCore_self ..)⟩
  · rw [e, show f s' = _ from ht]
    dsimp only
    have x := (pmuEvent_aside k 0x001 1 (t.updCore k (fun c => { c with pc := p }))).trans (tag 0 _)
    exact ⟨(updCore_only k _ t).trans x.1, x.2.trans (State.cor_updCore_self ..)⟩
  · rw [e, show f s' = _ from ht]

theorem issue_cases {op : Nat} {bar wf : Bool} {f : State → CoreRes} (h : runs s k = true) (hw : wf = true)
    (hb : bar = true → bodyEndFree s k = true) :
    ∃ s', Aside k s s' ∧
      (∀ t, f s' = .done t → CoreOnly k t (issue k op bar wf f s) ∧
        (issue k op bar wf f s).cor k = { t.cor k with
          loops := (loopEnd (s.cor k).pc (t.cor k).loops).1, pc := (loopEnd (s.cor k).pc (t.cor k).loops).2 }) ∧
      (∀ p t, f s' = .jump p t → CoreOnly k t (issue k op bar wf f s) ∧
        (issue k op bar wf f s).cor k = { t.cor k with loops := loopLeave p (t.cor k).loops, pc := p }) ∧
      (∀ p t, f s' = .skip p t → CoreOnly k t (issue k op bar wf f s) ∧ (issue k op bar wf f s).cor k = { t.cor k with pc := p }) ∧
      (∀ t, f s' = .stay t → issue k op bar wf f s = t) :=
  ⟨issueState k s, issue_at h hw hb⟩

theorem injectArmed_of_runs {s' : State} (h : runs s k = true) (ha : Aside k s s') (kind : Nat) : injectArmed s' k kind = false := by
  unfold runs at h
  simp only [Bool.and_eq_true, Bool.not_eq_true'] at h
  obtain ⟨⟨hc, -⟩, hi⟩ := h
  have hk : k < 256 := by
    unfold canIssue at hc
    simp only [Bool.and_eq_true, decide_eq_true_eq] at hc
    exact hc.1.1.1
  have hr : s'.reg fUmpInjectArm.addr = s.reg fUmpInjectArm.addr := by
    refine ha.1.regs _ ?_
    unfold InPmu pmuBase fUmpInjectArm
    rw [if_pos hk]
    dsimp only
    omega
  have e1 : s'.flag fUmpInjectArm = s.flag fUmpInjectArm := by unfold State.flag State.fld; rw [hr]
  have e2 : s'.fld fUmpInjectCore = s.fld fUmpInjectCore := by
    unfold State.fld; rw [show fUmpInjectCore.addr = fUmpInjectArm.addr from rfl, hr]
  unfold injectArmed
  rw [e1, e2, hi]; rfl

/-- A result whose residue is right is written. -/
theorem writeBack_done {g : Core → Core} {sat gov : Bool} (hi : injectArmed s k 2 = false) :
    ∃ t, writeBack k true sat gov g s = .done t ∧ CoreOnly k s t ∧ t.cor k = g (s.cor k) := by
  unfold writeBack takeResidue
  rw [hi]
  simp only [Bool.false_eq_true, if_false, Bool.not_true, Bool.or_false]
  refine ⟨_, rfl, ?_, ?_⟩
  · exact ((pmuEvent_aside k 0x040 _ s).trans (pmuEvent_aside k 0x041 _ _)).1.trans (updCore_only k g _)
  · rw [State.cor_updCore_self, ((pmuEvent_aside k 0x040 (bitOf sat) s).trans (pmuEvent_aside k 0x041 (bitOf gov) _)).2]

/-- An instruction that writes a result: what its core holds afterwards. -/
theorem issue_write {op : Nat} {bar wf : Bool} {f : State → CoreRes} {g : Core → Core} (h : runs s k = true) (hw : wf = true)
    (hb : bar = true → bodyEndFree s k = true) (hpc : (g (s.cor k)).pc = (s.cor k).pc)
    (hf : ∀ s', Aside k s s' → ∃ s'' sat gov, Aside k s' s'' ∧ f s' = writeBack k true sat gov g s'') :
    CoreOnly k s (issue k op bar wf f s) ∧ (issue k op bar wf f s).cor k = retire (g (s.cor k)) := by
  obtain ⟨s', ha, hd, -⟩ := issue_cases (op := op) (f := f) h hw hb
  obtain ⟨s'', sat, gov, ha', he⟩ := hf s' ha
  obtain ⟨t, ht, hto, htc⟩ := writeBack_done (g := g) (sat := sat) (gov := gov) (injectArmed_of_runs h (ha.trans ha') 2)
  obtain ⟨hu, hc⟩ := hd t (he.trans ht)
  refine ⟨((ha.trans ha').1.trans hto).trans hu, hc.trans ?_⟩
  rw [htc, (ha.trans ha').2]
  unfold retire
  rw [hpc]

end Sys2Proof.Machine
end

