-- ==== Sys2Proof/Laws/Residue.lean ====
section
/-!
SUPPORT. Laws/Residue.lean: the residue that the hardware predicts is that of the result (R238 to R242), so that a result formed from
operands with true residues passes the check, and the value each operation forms.
-/

namespace Sys2Proof.Machine

/-- A natural number stands for an integer modulo 7. -/
def Cong (p : Nat) (e : Int) : Prop := (p : Int) % 7 = e % 7

theorem res7_cong (e : Int) : Cong (res7 e) e := by unfold Cong res7; omega

theorem res7_eq {p : Nat} {e : Int} (h : Cong p e) : p % 7 = res7 e := by unfold Cong at h; unfold res7; omega

theorem good_cong {x : RVal} (h : x.good = true) : Cong x.r x.v.toInt := by
  unfold RVal.good at h; rw [beq_iff_eq.mp h]; exact res7_cong _

theorem good_ok {x : RVal} (h : x.good = true) : resOk x.r = true := by
  unfold RVal.good at h; rw [beq_iff_eq.mp h]; unfold resOk res7; exact decide_eq_true (by omega)

theorem agood_cong {x : AVal} (h : x.good = true) : Cong x.r x.v.toInt := by
  unfold AVal.good at h; rw [beq_iff_eq.mp h]; exact res7_cong _

theorem agood_ok {x : AVal} (h : x.good = true) : resOk x.r = true := by
  unfold AVal.good at h; rw [beq_iff_eq.mp h]; unfold resOk res7; exact decide_eq_true (by omega)

theorem rv_good (w : Word) : (rv w).good = true := by unfold RVal.good rv; exact beq_self_eq_true _

theorem resAdd_cong {p : Nat} {e x : Int} (h : Cong p e) : Cong (resAdd p x) (e + x) := by
  unfold Cong resAdd at *; omega

theorem cong_add {p q : Nat} {e f : Int} (h : Cong p e) (g : Cong q f) : Cong (p + q) (e + f) := by
  unfold Cong at *; push_cast; omega

theorem cong_mod {p : Nat} {e : Int} (h : Cong p e) : Cong (p % 7) e := by unfold Cong at *; omega

theorem cong_mul {p q : Nat} {e f : Int} (h : Cong p e) (g : Cong q f) : Cong (p * q) (e * f) := by
  unfold Cong at *; push_cast; rw [Int.mul_emod, h, g, ← Int.mul_emod]

theorem cong_neg {p : Nat} {e : Int} (h : Cong p e) : Cong (6 * p) (-e) := by unfold Cong at *; push_cast; omega

/-- 2^k and its residue (R238). -/
theorem pow2r_cong (k : Nat) : Cong (pow2r k) (2 ^ k : Int) := by
  unfold Cong pow2r
  have h : (2 : Int) ^ k = 8 ^ (k / 3) * 2 ^ (k % 3) := by
    rw [show (8 : Int) = 2 ^ 3 from rfl, ← pow_mul, ← pow_add, Nat.div_add_mod]
  have h8 : ((8 : Int) ^ (k / 3)) % 7 = 1 := by
    rw [← Int.emod_emod_of_dvd, show (7:Int) = 7 from rfl]
    · have := Int.ModEq.pow (k / 3) (show (8 : Int) ≡ 1 [ZMOD 7] from rfl)
      rw [one_pow] at this
      exact (Int.emod_emod_of_dvd _ (dvd_refl 7)).trans this
    · exact dvd_refl _
  rw [h, Int.mul_emod, h8]; push_cast; omega

/-- The inverse of 2^k modulo 7 (R238). -/
theorem pow2inv_mul (k : Nat) : (pow2inv k * pow2r k) % 7 = 1 := by
  unfold pow2inv pow2r
  have : k % 3 < 3 := Nat.mod_lt _ (by decide)
  interval_cases k % 3 <;> rfl

theorem two_pow_succ_pred {w : Nat} (h : 0 < w) : (2 : Int) ^ w = 2 * 2 ^ (w - 1) := by
  obtain ⟨n, rfl⟩ := Nat.exists_eq_succ_of_ne_zero (Nat.pos_iff_ne_zero.mp h)
  rw [Nat.succ_sub_one, pow_succ]; ring

theorem natCast_two_pow (w : Nat) : ((2 ^ w : Nat) : Int) = 2 ^ w := by push_cast; rfl

/-- The wrapped value differs by a multiple of 2^w, and lies in range. -/
theorem wrapS_spec {w : Nat} (hw : 0 < w) (e : Int) :
    (∃ q, e = wrapS w e + 2 ^ w * q) ∧ -(2 ^ (w - 1)) ≤ wrapS w e ∧ wrapS w e < 2 ^ (w - 1) := by
  have hp : (0 : Int) < 2 ^ (w - 1) := by positivity
  have h2 := two_pow_succ_pred hw
  have hm0 : 0 ≤ e % (2 : Int) ^ w := Int.emod_nonneg _ (by positivity)
  have hm1 : e % (2 : Int) ^ w < 2 ^ w := Int.emod_lt_of_pos _ (by positivity)
  have hn : patternOf w e = (e % (2 : Int) ^ w).toNat := by unfold patternOf; rw [natCast_two_pow]
  have hlt : patternOf w e < 2 ^ w := by
    have : ((patternOf w e : Nat) : Int) < ((2 ^ w : Nat) : Int) := by rw [hn, Int.toNat_of_nonneg hm0, natCast_two_pow]; exact hm1
    exact_mod_cast this
  have hcast : ((patternOf w e : Nat) : Int) = e % (2 : Int) ^ w := by rw [hn, Int.toNat_of_nonneg hm0]
  have hd := Int.emod_add_mul_ediv e (2 ^ w)
  unfold wrapS signedOf
  rw [Nat.mod_eq_of_lt hlt]
  split
  next hs =>
    have hs' : ((patternOf w e : Nat) : Int) < ((2 ^ (w - 1) : Nat) : Int) := by exact_mod_cast hs
    rw [natCast_two_pow] at hs'
    refine ⟨⟨e / 2 ^ w, ?_⟩, ?_, hs'⟩
    · rw [hcast]; exact hd.symm
    · rw [hcast]; linarith
  next hs =>
    have hs' : ((2 ^ (w - 1) : Nat) : Int) ≤ ((patternOf w e : Nat) : Int) := by exact_mod_cast Nat.le_of_not_lt hs
    rw [natCast_two_pow] at hs'
    refine ⟨⟨e / 2 ^ w + 1, ?_⟩, ?_, ?_⟩
    · rw [hcast]; linarith
    · linarith
    · rw [hcast]; linarith

theorem clampS_range {w : Nat} (e : Int) : -(2 ^ (w - 1)) ≤ clampS w e ∧ clampS w e < 2 ^ (w - 1) := by
  have hp : (0 : Int) < 2 ^ (w - 1) := by positivity
  unfold clampS
  refine ⟨le_max_left _ _, ?_⟩
  rw [max_lt_iff]
  refine ⟨by linarith, ?_⟩
  exact lt_of_le_of_lt (min_le_left _ _) (by linarith)

theorem clampS_in {w : Nat} {e : Int} (h : outS w e = false) : clampS w e = e := by
  unfold outS at h
  simp only [decide_eq_false_iff_not, not_or, not_lt] at h
  unfold clampS
  rw [min_eq_right h.2, max_eq_right h.1]

theorem wrapS_in {w : Nat} (hw : 0 < w) {e : Int} (h : outS w e = false) : wrapS w e = e := by
  unfold outS at h
  simp only [decide_eq_false_iff_not, not_or, not_lt] at h
  obtain ⟨⟨q, hq⟩, hl, hu⟩ := wrapS_spec hw e
  have hp : (0 : Int) < 2 ^ (w - 1) := by positivity
  have h2 := two_pow_succ_pred hw
  have : q = 0 := by
    rcases lt_trichotomy q 0 with h0 | h0 | h0
    · nlinarith
    · exact h0
    · nlinarith
  rw [this] at hq; linarith

/-- What the S bit makes of an exact result (R231). -/
theorem fitS_val {w : Nat} (hw : 0 < w) (sat : Bool) (e : Int) (p : Nat) :
    (fitS w sat e p).1 = (if sat then clampS w e else wrapS w e) ∧ (fitS w sat e p).2.2 = (sat && outS w e) := by
  unfold fitS
  cases ho : outS w e
  · simp only [Bool.false_eq_true, if_false, Bool.and_false, and_true]
    split
    · exact (clampS_in ho).symm
    · exact (wrapS_in hw ho).symm
  · cases sat <;> simp

theorem fitS_range {w : Nat} (hw : 0 < w) (sat : Bool) (e : Int) (p : Nat) :
    -(2 ^ (w - 1)) ≤ (fitS w sat e p).1 ∧ (fitS w sat e p).1 < 2 ^ (w - 1) := by
  rw [(fitS_val hw sat e p).1]
  split
  · exact clampS_range e
  · exact (wrapS_spec hw e).2

/-- The predicted residue follows the value into its range (R239, R241). -/
theorem fitS_cong {w : Nat} (hw : 0 < w) (sat : Bool) {e : Int} {p : Nat} (h : Cong p e) :
    Cong (fitS w sat e p).2.1 (fitS w sat e p).1 := by
  unfold fitS
  split
  · split
    · exact res7_cong _
    · obtain ⟨q, hq⟩ := (wrapS_spec hw e).1
      have hd : (e - wrapS w e) / 2 ^ w = q := by
        rw [show e - wrapS w e = 2 ^ w * q by linarith]
        exact Int.mul_ediv_cancel_left _ (by positivity)
      dsimp only
      rw [hd]
      have hr := resAdd_cong (x := -((pow2r w : Int) * q)) h
      have hk := pow2r_cong w
      unfold Cong at *
      rw [hr]
      have h3 : ((pow2r w : Int) * q) % 7 = (2 ^ w * q) % 7 := by rw [Int.mul_emod, hk, ← Int.mul_emod]
      have : wrapS w e = e - 2 ^ w * q := by linarith
      rw [this]
      generalize (pow2r w : Int) * q = x at h3
      generalize (2 : Int) ^ w * q = y at h3
      omega
  · exact cong_mod h

theorem toInt_ofInt_range {n : Nat} (hn : 0 < n) {v : Int} (h : -(2 ^ (n - 1)) ≤ v ∧ v < 2 ^ (n - 1)) : (BitVec.ofInt n v).toInt = v := by
  rw [BitVec.toInt_ofInt]
  refine Int.bmod_eq_of_le ?_ ?_
  · have := two_pow_succ_pred hn
    rw [natCast_two_pow, this]; omega
  · have := two_pow_succ_pred hn
    rw [natCast_two_pow, this]; omega

theorem check_of {o : Out} (hk : o.ok = true) (h : Cong o.p o.v.toInt) : o.check = true := by
  unfold Out.check; rw [hk, res7_eq h]; exact beq_self_eq_true _

theorem acheck_of {o : AOut} (hk : o.ok = true) (h : Cong o.p o.v.toInt) : o.check = true := by
  unfold AOut.check; rw [hk, res7_eq h]; exact beq_self_eq_true _

theorem fit32_cong (sat : Bool) {e : Int} {p : Nat} (h : Cong p e) : Cong (fit32 sat e p).p (fit32 sat e p).v.toInt := by
  unfold fit32
  dsimp only
  rw [toInt_ofInt_range (by decide) (fitS_range (w := 32) (by decide) sat e p)]
  exact fitS_cong (by decide) sat h

theorem fit24_cong (sat : Bool) {e : Int} {p : Nat} (h : Cong p e) : Cong (fit24 sat e p).p (fit24 sat e p).v.toInt := by
  unfold fit24
  dsimp only
  have hr := fitS_range (w := 24) (by decide) sat e p
  rw [toInt_ofInt_range (by decide) ⟨by have := hr.1; norm_num at this ⊢; linarith, by have := hr.2; norm_num at this ⊢; linarith⟩]
  exact fitS_cong (by decide) sat h

theorem fitA_cong (sat : Bool) {e : Int} {p : Nat} (h : Cong p e) : Cong (fitA sat e p).p (fitA sat e p).v.toInt := by
  unfold fitA
  dsimp only
  rw [toInt_ofInt_range (by decide) (fitS_range (w := 56) (by decide) sat e p)]
  exact fitS_cong (by decide) sat h

theorem toInt_ofInt32 (e : Int) : ∃ q, e = (BitVec.ofInt 32 e).toInt + 4294967296 * q := by
  rw [BitVec.toInt_ofInt]
  refine ⟨(e - e.bmod (2 ^ 32)) / 4294967296, ?_⟩
  have h : (4294967296 : Int) ∣ e - e.bmod (2 ^ 32) := by
    have := @Int.bmod_emod e (2 ^ 32)
    exact Int.dvd_of_emod_eq_zero (by norm_num at this ⊢; omega)
  have := Int.mul_ediv_cancel' h
  omega

theorem fitU_cong (sat : Bool) {e : Int} {p : Nat} (h : Cong p e) : Cong (fitU sat e p).p (fitU sat e p).v.toInt := by
  unfold fitU
  split
  · exact res7_cong _
  · dsimp only
    obtain ⟨q, hq⟩ := toInt_ofInt32 e
    have hd : (e - (BitVec.ofInt 32 e).toInt) / ((W32 : Nat) : Int) = q := by
      rw [show ((W32 : Nat) : Int) = 4294967296 from rfl]; omega
    rw [hd]
    have hr := resAdd_cong (x := -(4 * q)) h
    unfold Cong at *
    rw [hr]
    omega

theorem shiftRound_spec (x : Int) (k : Nat) :
    x = (shiftRound x k).1 * 2 ^ k + (shiftRound x k).2.1 ∧ (shiftRound x k).1 = x / 2 ^ k ∧
      ((shiftRound x k).2.2 = 0 ∨ ((shiftRound x k).2.2 = 1 ∧ 0 < k)) := by
  unfold shiftRound
  dsimp only
  refine ⟨by ring, rfl, ?_⟩
  split
  · exact .inl rfl
  · split
    · exact .inr ⟨rfl, by omega⟩
    · exact .inl rfl

theorem shrRes_cong {x : Int} {r k : Nat} (h : Cong r x) {q lo rnd : Int} (e : x = q * 2 ^ k + lo) : Cong (shrRes r k lo rnd) (q + rnd) := by
  have h1 := pow2r_cong k
  have h2 := pow2inv_mul k
  unfold Cong at *
  unfold shrRes
  have hq : (x - lo) % 7 = (q * (pow2r k : Int)) % 7 := by
    rw [show x - lo = q * 2 ^ k by linarith, Int.mul_emod, ← h1, ← Int.mul_emod]
  have hi : (((pow2inv k : Int) * (pow2r k : Int))) % 7 = 1 := by exact_mod_cast h2
  have hm : (((r : Int) - lo) * (pow2inv k : Int)) % 7 = q % 7 := by
    have ha : ((r : Int) - lo) % 7 = (q * (pow2r k : Int)) % 7 := by omega
    rw [Int.mul_emod, ha, ← Int.mul_emod, mul_assoc, Int.mul_emod, mul_comm (pow2r k : Int), hi]
    omega
  generalize ((r : Int) - lo) * (pow2inv k : Int) = z at hm
  omega

/-- A truncating or convergent shift right of a value in range stays in range. -/
theorem shiftRound_range {w : Nat} (hw : 0 < w) {x : Int} (h : -(2 ^ w) ≤ x ∧ x < 2 ^ w) (k : Nat) :
    -(2 ^ w) ≤ (shiftRound x k).1 + (shiftRound x k).2.2 ∧ (shiftRound x k).1 + (shiftRound x k).2.2 < 2 ^ w ∧
      -(2 ^ w) ≤ (shiftRound x k).1 ∧ (shiftRound x k).1 < 2 ^ w := by
  obtain ⟨e, hq, hr⟩ := shiftRound_spec x k
  have hp : (0 : Int) < 2 ^ w := by positivity
  have hk : (1 : Int) ≤ 2 ^ k := one_le_pow₀ (by norm_num)
  have hlo : -(2 ^ w) ≤ x / 2 ^ k := by
    rw [Int.le_ediv_iff_mul_le (by positivity)]; nlinarith
  have hhi : x / 2 ^ k < 2 ^ w := by
    rw [Int.ediv_lt_iff_lt_mul (by positivity)]; nlinarith
  rw [hq]
  refine ⟨?_, ?_, hlo, hhi⟩
  · rcases hr with hr | ⟨hr, -⟩ <;> rw [hr] <;> linarith
  · rcases hr with hr | ⟨hr, hk0⟩
    · rw [hr]; linarith
    · rw [hr]
      have h2 : (2 : Int) ≤ 2 ^ k := by
        calc (2 : Int) = 2 ^ 1 := rfl
          _ ≤ 2 ^ k := pow_le_pow_right₀ (by norm_num) hk0
      by_cases hx : x < 0
      · have : x / 2 ^ k < 0 := Int.ediv_neg_of_neg_of_pos hx (by positivity)
        linarith
      · have h3 : 2 * (x / 2 ^ k) ≤ x := by
          have h0 : 0 ≤ x / 2 ^ k := Int.ediv_nonneg (not_lt.mp hx) (by positivity)
          have := Int.ediv_mul_le x (show (2 : Int) ^ k ≠ 0 by positivity)
          nlinarith
        have hw2 : (2 : Int) ≤ 2 ^ w := by
          calc (2 : Int) = 2 ^ 1 := rfl
            _ ≤ 2 ^ w := pow_le_pow_right₀ (by norm_num) hw
        linarith

theorem uRes_cong {x : RVal} (h : x.good = true) : Cong (uRes x) (x.v.toNat : Int) := by
  have := good_cong h
  have hx := BitVec.toInt_eq_toNat_cond x.v
  have hl := x.v.isLt
  unfold Cong at *
  unfold uRes
  split at hx <;> split <;> (push_cast; norm_num at *; omega)

theorem signedOf_toInt24 (v : Word) : ∃ q, v.toInt = signedOf 24 v.toNat + 16777216 * q := by
  have hx := BitVec.toInt_eq_toNat_cond v
  have hl := v.isLt
  unfold signedOf
  norm_num at hx hl ⊢
  split at hx <;> split
  · exact ⟨((v.toNat / 16777216 : Nat) : Int), by omega⟩
  · exact ⟨((v.toNat / 16777216 : Nat) : Int) + 1, by omega⟩
  · exact ⟨((v.toNat / 16777216 : Nat) : Int) - 256, by omega⟩
  · exact ⟨((v.toNat / 16777216 : Nat) : Int) - 255, by omega⟩

theorem field24_cong {x : RVal} (h : x.good = true) : Cong (field24 x).2 (field24 x).1 := by
  have h7 := good_cong h
  obtain ⟨q, hq⟩ := signedOf_toInt24 x.v
  unfold field24
  dsimp only
  have hd : (x.v.toInt - signedOf 24 x.v.toNat) / 2 ^ 24 = q := by norm_num; omega
  rw [hd]
  have := resAdd_cong (x := -q) h7
  unfold Cong at *
  rw [this]
  omega

theorem field24_range (x : RVal) : -(2 ^ 23) ≤ (field24 x).1 ∧ (field24 x).1 < 2 ^ 23 := by
  unfold field24 signedOf
  dsimp only
  norm_num
  split <;> omega

theorem toInt_range32 (v : Word) : -(2 ^ 31) ≤ v.toInt ∧ v.toInt < 2 ^ 31 := by
  have hx := BitVec.toInt_eq_toNat_cond v
  have hl := v.isLt
  norm_num at *
  split at hx <;> omega

theorem toInt_range56 (v : Acc) : -(2 ^ 55) ≤ v.toInt ∧ v.toInt < 2 ^ 55 := by
  have hx := BitVec.toInt_eq_toNat_cond v
  have hl := v.isLt
  norm_num at *
  split at hx <;> omega

theorem sarOut_cong (round : Bool) {x : Int} {r k : Nat} (h : Cong r x) (hx : -(2 ^ 31) ≤ x ∧ x < 2 ^ 31) :
    Cong (sarOut round x r k).p (sarOut round x r k).v.toInt := by
  obtain ⟨e, -, -⟩ := shiftRound_spec x k
  have hr := shiftRound_range (w := 31) (by decide) hx k
  unfold sarOut
  cases round
  · simp only [Bool.false_eq_true, if_false, Int.add_zero]
    rw [toInt_ofInt_range (by decide) ⟨hr.2.2.1, hr.2.2.2⟩]
    have := shrRes_cong (rnd := 0) h e
    rwa [Int.add_zero] at this
  · simp only [if_true]
    rw [toInt_ofInt_range (by decide) ⟨hr.1, hr.2.1⟩]
    exact shrRes_cong h e

theorem shlOut_cong (w : Nat) (sat : Bool) {x : Int} {r : Nat} (k : Nat) (h : Cong r x) :
    Cong (shlOut w sat x r k).p (shlOut w sat x r k).v.toInt := by
  have := cong_mul h (pow2r_cong k)
  unfold shlOut
  dsimp only
  split
  · exact fit24_cong sat this
  · exact fit32_cong sat this

/-- A scalar result formed from operands with true residues passes the residue check (R242). -/
theorem saluOut_check (f : SFn) (sat : Bool) {x y : RVal} (hx : x.good = true) (hy : y.good = true) : (saluOut f sat x y).check = true := by
  have cx := good_cong hx
  have cy := good_cong hy
  have kx := good_ok hx
  have ky := good_ok hy
  have ux := uRes_cong hx
  have uy := uRes_cong hy
  have csub : ∀ {p q : Nat} {e f : Int}, Cong p e → Cong q f → Cong (p + 7 * q - q) (e - f) := by
    intro p q e f h g; unfold Cong at *; omega
  cases f
  all_goals unfold saluOut; dsimp only
  case add => exact check_of (by simp [kx, ky]) (fit32_cong sat (cong_add cx cy))
  case sub => exact check_of (by simp [kx, ky]) (fit32_cong sat (csub cx cy))
  case addu => exact check_of (by simp [kx, ky]) (fitU_cong sat (by have := cong_add ux uy; push_cast; exact this))
  case subu => exact check_of (by simp [kx, ky]) (fitU_cong sat (csub ux uy))
  case neg => exact check_of kx (fit32_cong sat (cong_neg cx))
  case abs =>
    refine check_of kx (fit32_cong sat ?_)
    split
    · exact cong_neg cx
    · exact cx
  case min =>
    refine check_of (by simp [hx, hy]) ?_
    show Cong (moved _).p (moved _).v.toInt
    split
    · exact cy
    · exact cx
  case max =>
    refine check_of (by simp [hx, hy]) ?_
    show Cong (moved _).p (moved _).v.toInt
    split
    · exact cy
    · exact cx
  case shl => exact check_of (by show (resOk x.r && y.good) = true; simp [kx, hy]) (shlOut_cong 32 sat _ cx)
  case sar => exact check_of (by show (resOk x.r && y.good) = true; simp [kx, hy]) (sarOut_cong false cx (toInt_range32 _))
  case srr => exact check_of (by show (resOk x.r && y.good) = true; simp [kx, hy]) (sarOut_cong true cx (toInt_range32 _))
  case mul => exact check_of (by simp [kx, ky]) (fit32_cong sat (cong_mul cx cy))
  case mulu => exact check_of (by simp [kx, ky]) (fitU_cong sat (by have := cong_mul ux uy; push_cast; exact this))
  case mov => exact check_of kx cx
  case clz => exact check_of hx (res7_cong _)
  all_goals exact check_of (by simp [logicOut, hx, hy]) (res7_cong _)

/-- A vector lane formed from operands with true residues passes the residue check (R242). -/
theorem vlaneOut_check (f : VFn) (sat w24 m : Bool) {x y : RVal} (hx : x.good = true) (hy : y.good = true) :
    (vlaneOut f sat w24 m x y).check = true := by
  have cx := good_cong hx
  have cy := good_cong hy
  have kx := good_ok hx
  have ky := good_ok hy
  have fit : ∀ {p : Nat} {e : Int}, Cong p e → Cong (if w24 then fit24 sat e p else fit32 sat e p).p
      (if w24 then fit24 sat e p else fit32 sat e p).v.toInt := by
    intro p e h; split
    · exact fit24_cong sat h
    · exact fit32_cong sat h
  have hf : Cong (if w24 then field24 x else (x.v.toInt, x.r)).2 (if w24 then field24 x else (x.v.toInt, x.r)).1 := by
    split
    · exact field24_cong hx
    · exact cx
  have hr : -(2 ^ 31) ≤ (if w24 then field24 x else (x.v.toInt, x.r)).1 ∧ (if w24 then field24 x else (x.v.toInt, x.r)).1 < 2 ^ 31 := by
    split
    · have := field24_range x; norm_num at *; omega
    · exact toInt_range32 _
  have sel : ∀ (c : Prop) [Decidable c], Cong (moved (if c then y else x)).p (moved (if c then y else x)).v.toInt := by
    intro c _; split <;> assumption
  cases f
  all_goals unfold vlaneOut; dsimp only
  case vadd => exact check_of (by simp [kx, ky]) (fit (cong_add cx cy))
  case vsub => exact check_of (by simp [kx, ky]) (fit (by have := cong_add cx (cong_neg cy); rwa [← Int.sub_eq_add_neg] at this))
  case vneg => exact check_of kx (fit (cong_neg cx))
  case vabs =>
    refine check_of kx (fit ?_)
    split
    · exact cong_neg cx
    · exact cx
  case vmin => exact check_of (by simp [hx, hy]) (sel _)
  case vmax => exact check_of (by simp [hx, hy]) (sel _)
  case vshl => exact check_of (by show (resOk x.r && y.good) = true; simp [kx, hy]) (shlOut_cong _ sat _ hf)
  case vsar => exact check_of (by show (resOk x.r && y.good) = true; simp [kx, hy]) (sarOut_cong false hf hr)
  case vsrr => exact check_of (by show (resOk x.r && y.good) = true; simp [kx, hy]) (sarOut_cong true hf hr)
  case vsel =>
    refine check_of (by simp [hx, hy]) ?_
    show Cong (moved _).p (moved _).v.toInt
    split
    · exact cx
    · exact cy
  case vmov => exact check_of kx cx
  all_goals exact check_of (by simp [logicOut, hx, hy]) (res7_cong _)

/-- An accumulator lane formed from operands with true residues passes the residue check (R242). -/
theorem macLane_check (f : MFn) (sat : Bool) {a : AVal} {x y : RVal} (ha : a.good = true) (hx : x.good = true) (hy : y.good = true) :
    (macLane f sat a x y).check = true := by
  have cx := field24_cong hx
  have cy := field24_cong hy
  have cp : Cong (2 * (field24 x).2 * (field24 y).2) ((field24 x).1 * (field24 y).1 * 2) := by
    have h2 : Cong 2 2 := rfl
    have := cong_mul (cong_mul h2 cx) cy
    rwa [show (2 : Int) * (field24 x).1 * (field24 y).1 = (field24 x).1 * (field24 y).1 * 2 by ring] at this
  have ca := agood_cong ha
  cases f <;> unfold macLane <;> dsimp only
  · exact acheck_of (by simp [good_ok hx, good_ok hy]) (fitA_cong sat cp)
  · exact acheck_of (by simp [good_ok hx, good_ok hy, agood_ok ha]) (fitA_cong sat (cong_add ca cp))
  · exact acheck_of (by simp [good_ok hx, good_ok hy, agood_ok ha])
      (fitA_cong sat (by have := cong_add ca (cong_neg cp); rwa [← Int.sub_eq_add_neg] at this))

theorem adepLane_check (sat : Bool) {x : RVal} (hx : x.good = true) : (adepLane sat x).check = true := by
  unfold adepLane
  refine acheck_of (good_ok hx) (fitA_cong sat ?_)
  have := cong_mul (field24_cong hx) (pow2r_cong 24)
  rwa [show pow2r 24 = 1 from rfl, Nat.mul_one] at this

theorem aaddLane_check (sub sat : Bool) {x y : AVal} (hx : x.good = true) (hy : y.good = true) : (aaddLane sub sat x y).check = true := by
  unfold aaddLane
  refine acheck_of (by simp [agood_ok hx, agood_ok hy]) (fitA_cong sat ?_)
  cases sub
  · exact cong_add (agood_cong hx) (agood_cong hy)
  · have := cong_add (agood_cong hx) (cong_neg (agood_cong hy))
    rwa [← Int.sub_eq_add_neg] at this

theorem asrLane_check (round : Bool) {x : AVal} (hx : x.good = true) (k : Nat) : (asrLane round x k).check = true := by
  obtain ⟨e, -, -⟩ := shiftRound_spec x.v.toInt k
  have hr := shiftRound_range (w := 55) (by decide) (toInt_range56 x.v) k
  unfold asrLane
  cases round
  · simp only [Bool.false_eq_true, if_false, Int.add_zero]
    refine acheck_of (agood_ok hx) ?_
    dsimp only
    rw [toInt_ofInt_range (by decide) ⟨hr.2.2.1, hr.2.2.2⟩]
    have := shrRes_cong (rnd := 0) (agood_cong hx) e
    rwa [Int.add_zero] at this
  · simp only [if_true]
    refine acheck_of (agood_ok hx) ?_
    dsimp only
    rw [toInt_ofInt_range (by decide) ⟨hr.1, hr.2.1⟩]
    exact shrRes_cong (agood_cong hx) e

theorem aslLane_check (sat : Bool) {x : AVal} (hx : x.good = true) (k : Nat) : (aslLane sat x k).check = true := by
  unfold aslLane
  exact acheck_of (agood_ok hx) (fitA_cong sat (cong_mul (agood_cong hx) (pow2r_cong k)))

theorem extLane_check (sat q15 : Bool) (sh : Int) {x : AVal} (hx : x.good = true) : (extLane sat q15 sh x).check = true := by
  obtain ⟨e, -, -⟩ := shiftRound_spec x.v.toInt ((if q15 then 32 else 24) - sh).toNat
  have hc := shrRes_cong (rnd := (shiftRound x.v.toInt ((if q15 then 32 else 24) - sh).toNat).2.2) (agood_cong hx) e
  have hw : 0 < (if q15 then 16 else 24) := by split <;> decide
  have hcong := fitS_cong hw sat hc
  have hr := fitS_range hw sat ((shiftRound x.v.toInt ((if q15 then 32 else 24) - sh).toNat).1 +
    (shiftRound x.v.toInt ((if q15 then 32 else 24) - sh).toNat).2.2)
    (shrRes x.r ((if q15 then 32 else 24) - sh).toNat (shiftRound x.v.toInt ((if q15 then 32 else 24) - sh).toNat).2.1
      (shiftRound x.v.toInt ((if q15 then 32 else 24) - sh).toNat).2.2)
  unfold extLane
  refine check_of (agood_ok hx) ?_
  dsimp only
  rw [toInt_ofInt_range (by decide) ?_]
  · exact hcong
  · refine ⟨le_trans ?_ hr.1, lt_of_lt_of_le hr.2 ?_⟩ <;> split <;> norm_num

end Sys2Proof.Machine
end

