-- ==== Sys2Proof/Laws/Values.lean ====
section
/-!
SUPPORT. Laws/Values.lean: the value, the clamp and the flags that each shared arithmetic operation of a media core forms, in the terms of
the spec's tables.
-/

namespace Sys2Proof.Machine

theorem outS_overflows (e : Int) : outS 32 e = overflows e := rfl

theorem fit32_result (sat : Bool) (e : Int) (p : Nat) :
    (fit32 sat e p).v = (inRange 32 sat e).v ∧ (fit32 sat e p).sat = (inRange 32 sat e).sat ∧ (fit32 sat e p).ov = overflows e := by
  have := fitS_val (w := 32) (by decide) sat e p
  unfold fit32 inRange
  exact ⟨congrArg (BitVec.ofInt 32) this.1, this.2, rfl⟩

theorem fit24_result (sat : Bool) (e : Int) (p : Nat) :
    (fit24 sat e p).v = (inRange 24 sat e).v ∧ (fit24 sat e p).sat = (inRange 24 sat e).sat := by
  have := fitS_val (w := 24) (by decide) sat e p
  unfold fit24 inRange
  exact ⟨congrArg (BitVec.ofInt 32) this.1, this.2⟩

theorem fitU_result (sat : Bool) (e : Int) (p : Nat) :
    (fitU sat e p).v = (inRangeU sat e).v ∧ (fitU sat e p).sat = (inRangeU sat e).sat ∧ (fitU sat e p).ov = false := by
  unfold fitU inRangeU
  cases sat
  · exact ⟨rfl, rfl, rfl⟩
  · simp only [true_and, if_true, Bool.true_and]
    split
    next h =>
      refine ⟨?_, ?_, rfl⟩
      · dsimp only
        split
        · rw [max_eq_left (by omega)]; rfl
        · rw [min_eq_left (by simp at h; omega)]; rfl
      · refine (decide_eq_true ?_).symm
        simp at h; omega
    next h =>
      refine ⟨?_, ?_, rfl⟩
      · dsimp only
        rw [min_eq_right (by simp at h; omega), max_eq_right (by simp at h; omega)]
      · refine (decide_eq_false ?_).symm
        simp at h; omega

theorem shiftRound_nearest (x : Int) (k : Nat) : (shiftRound x k).1 + (shiftRound x k).2.2 = nearest x k := by
  unfold shiftRound nearest
  dsimp only
  have hlo : x - x / 2 ^ k * 2 ^ k = x % 2 ^ k := by have := Int.emod_add_mul_ediv x (2 ^ k); linarith
  rw [hlo]
  by_cases hk : k = 0
  · subst hk; simp
  · obtain ⟨n, rfl⟩ := Nat.exists_eq_succ_of_ne_zero hk
    rw [if_neg hk, Nat.succ_sub_one]
    have h2 : (2 : Int) ^ (n + 1) = 2 * 2 ^ n := by rw [pow_succ]; ring
    generalize x % 2 ^ (n + 1) = lo
    generalize x / 2 ^ (n + 1) = q
    rw [show n.succ = n + 1 from rfl, h2]
    by_cases h : (2 : Int) ^ n < lo ∨ lo = 2 ^ n ∧ q % 2 = 1
    · rw [if_pos h, if_pos (by omega)]
    · rw [if_neg h, if_neg (by omega)]; omega

theorem sarOut_result (round : Bool) (x : Int) (r k : Nat) :
    (sarOut round x r k).v = BitVec.ofInt 32 (if round then nearest x k else x / 2 ^ k) ∧ (sarOut round x r k).sat = false ∧
      (sarOut round x r k).c = false ∧ (sarOut round x r k).ov = false := by
  unfold sarOut
  cases round
  · exact ⟨by simp [(shiftRound_spec x k).2.1], rfl, rfl, rfl⟩
  · exact ⟨by simp only [if_true]; rw [shiftRound_nearest], rfl, rfl, rfl⟩

theorem shlOut_result (w : Nat) (hw : w = 24 ∨ w = 32) (sat : Bool) (x : Int) (r k : Nat) :
    (shlOut w sat x r k).v = (shiftedLeft w sat x k).v ∧ (shlOut w sat x r k).sat = (shiftedLeft w sat x k).sat ∧
      (shlOut w sat x r k).c = false ∧ (shlOut w sat x r k).ov = false := by
  unfold shlOut shiftedLeft
  rcases hw with rfl | rfl
  · have := fit24_result sat (x * 2 ^ k) (r * pow2r k)
    exact ⟨this.1, this.2, rfl, rfl⟩
  · have := fit32_result sat (x * 2 ^ k) (r * pow2r k)
    exact ⟨this.1, this.2.1, rfl, rfl⟩

/-- A scalar result as the core keeps it, against the table's. -/
theorem wroteScalar_of {o : Out} {r : Result} (d : Nat) (setf : Bool) (c : Core) (hv : o.v = r.v) (hs : o.sat = r.sat)
    (hc : setf = true → o.c = r.c) (ho : setf = true → o.ov = r.ov) (hk : o.check = true) :
    ((if setf then { c with cf := cfOf c.cf o } else c).stick (satBit 0 o.sat)).setS d ⟨o.v, o.p % 7⟩ = wroteScalar d setf r c := by
  have hp : o.p % 7 = res7 r.v.toInt := by
    unfold Out.check at hk
    simp only [Bool.and_eq_true, beq_iff_eq] at hk
    rw [hk.2, hv]
  rw [hp, hv, hs]
  have hcf : setf = true → cfOf c.cf o = flagsSet c.cf r := by
    intro h
    unfold cfOf flagsSet
    rw [hv, hc h, ho h]
    congr 2
    by_cases h0 : r.v = 0 <;> cases r.v.getLsbD 31 <;> cases r.c <;> cases r.ov <;> simp [bitOf, h0]
  unfold wroteScalar Core.setS Core.stick satBit
  cases setf
  · cases r.sat
    · by_cases hd : d = 0 <;> simp [hd, rv]
    · by_cases hd : d = 0 <;> simp [hd, rv]
  · rw [hcf rfl]
    cases r.sat
    · by_cases hd : d = 0 <;> simp [hd, rv]
    · by_cases hd : d = 0 <;> simp [hd, rv]

/-- An instruction that ends in a scalar result: what its core holds afterwards, in the table's terms. -/
theorem issue_finishS {k : Nat} {s : State} {op d : Nat} {bar wf setf : Bool} {f : State → CoreRes} {o : Out} {r : Result}
    (h : runs s k = true) (hw : wf = true) (hb : bar = true → bodyEndFree s k = true)
    (hf : ∀ s', Aside k s s' → ∃ s'', Aside k s' s'' ∧ f s' = finishS k d setf o s'') (hk : o.check = true)
    (hv : o.v = r.v) (hs : o.sat = r.sat) (hc : setf = true → o.c = r.c) (ho : setf = true → o.ov = r.ov) :
    CoreOnly k s (issue k op bar wf f s) ∧ (issue k op bar wf f s).cor k = retire (wroteScalar d setf r (s.cor k)) := by
  refine issue_write (g := wroteScalar d setf r) h hw hb rfl (fun s' ha => ?_)
  obtain ⟨s'', ha', he⟩ := hf s' ha
  refine ⟨s'', o.sat, false, ha', he.trans ?_⟩
  unfold finishS
  rw [hk, show (fun c => ((if setf then { c with cf := cfOf c.cf o } else c).stick (satBit 0 o.sat)).setS d ⟨o.v, o.p % 7⟩) =
    wroteScalar d setf r from funext fun c => wroteScalar_of d setf c hv hs hc ho hk]

/-! ## Lanes -/

theorem vLane_setV (c : Core) (d m : Nat) (x : RVal) (i l : Nat) (hm : m < 8) (hl : l < 8) :
    (c.setV d m x).vLane i l = if i = d ∧ l = m then x else c.vLane i l := by
  unfold Core.setV Core.vLane
  dsimp only
  by_cases h : 8 * i + l = 8 * d + m
  · rw [if_pos (by omega), h, mapGet_insert_self]
  · rw [if_neg (by omega), mapGet_insert_other h]

theorem aLane_setA (c : Core) (d m : Nat) (x : AVal) (i l : Nat) (hm : m < 8) (hl : l < 8) :
    (c.setA d m x).aLane i l = if i = d ∧ l = m then x else c.aLane i l := by
  unfold Core.setA Core.aLane
  dsimp only
  by_cases h : 8 * i + l = 8 * d + m
  · rw [if_pos (by omega), h, mapGet_insert_self]
  · rw [if_neg (by omega), mapGet_insert_other h]

theorem satBit_get (l : Nat) (hl : l < 8) (s : Bool) (b : Nat) : (satBit l s).getLsbD b = (s && decide (b = 8 + l)) := by
  unfold satBit
  cases s
  · simp
  · simp only [if_true, Bool.true_and, BitVec.getLsbD_ofNat, Nat.testBit_two_pow]
    by_cases h : b = 8 + l
    · subst h; simp; omega
    · simp [h]; omega

theorem govBit_get (l : Nat) (hl : l < 8) (s : Bool) (b : Nat) : (govBit l s).getLsbD b = (s && decide (b = l)) := by
  unfold govBit
  cases s
  · simp
  · simp only [if_true, Bool.true_and, BitVec.getLsbD_ofNat, Nat.testBit_two_pow]
    by_cases h : b = l
    · subst h; simp; omega
    · simp [h]; omega

/-- The lanes that a list of distinct lanes below 8 writes. -/
theorem wroteLanes_foldl (d : Nat) (o : Nat → Out) (r : Nat → Result) (ls : List Nat) (hn : ls.Nodup) (hl : ∀ l ∈ ls, l < 8)
    (ho : ∀ l ∈ ls, (o l).v = (r l).v ∧ (o l).sat = (r l).sat ∧ (o l).check = true) (c : Core) :
    WroteLanes d (fun l => ls.contains l) r c
      ((ls.map (fun l => (l, o l))).foldl (fun c o => (c.stick (satBit o.1 o.2.sat)).setV d o.1 ⟨o.2.v, o.2.p % 7⟩) c) := by
  induction ls generalizing c with
  | nil =>
    refine ⟨fun l h => by simp at h, fun _ _ _ _ => rfl, fun b => by simp, rfl⟩
  | cons m ls ih =>
    rw [List.map_cons, List.foldl_cons]
    obtain ⟨hm, hn⟩ := List.nodup_cons.mp hn
    have hm8 := hl m (List.mem_cons_self ..)
    obtain ⟨hv, hs, hk⟩ := ho m (List.mem_cons_self ..)
    obtain ⟨h1, h2, h3, h4⟩ := ih hn (fun l h => hl l (List.mem_cons_of_mem _ h)) (fun l h => ho l (List.mem_cons_of_mem _ h))
      ((c.stick (satBit m (o m).sat)).setV d m ⟨(o m).v, (o m).p % 7⟩)
    have hrv : (⟨(o m).v, (o m).p % 7⟩ : RVal) = rv (r m).v := by
      unfold Out.check at hk
      simp only [Bool.and_eq_true, beq_iff_eq] at hk
      unfold rv; rw [hk.2, hv]
    have hlane : ∀ i l, l < 8 → ((c.stick (satBit m (o m).sat)).setV d m ⟨(o m).v, (o m).p % 7⟩).vLane i l =
        if i = d ∧ l = m then rv (r m).v else c.vLane i l := by
      intro i l hl8
      rw [vLane_setV _ _ _ _ _ _ hm8 hl8, hrv]; rfl
    refine ⟨fun l h => ?_, fun i l hl8 h => ?_, fun b => ?_, ?_⟩
    · by_cases hlm : l = m
      · subst hlm
        rw [h2 d l hm8 (by simpa using hm), hlane d l hm8, if_pos ⟨rfl, rfl⟩]
      · refine h1 l ?_
        simpa [hlm] using h
    · have hni : ¬ (i = d ∧ ls.contains l = true) := fun x => h ⟨x.1, by simp at x ⊢; exact .inr x.2⟩
      rw [h2 i l hl8 hni, hlane i l hl8, if_neg (fun x => h ⟨x.1, by simp [x.2]⟩)]
    · rw [h3 b]
      show ((c.sf ||| satBit m (o m).sat).getLsbD b || _) = _
      rw [BitVec.getLsbD_or, satBit_get m hm8, hs]
      by_cases hb : b = 8 + m
      · subst hb
        simp [show 8 + m - 8 = m by omega, hm]
      · have : ((m :: ls).contains (b - 8) && decide (8 ≤ b)) = (ls.contains (b - 8) && decide (8 ≤ b)) := by
          by_cases h8 : 8 ≤ b
          · have hne : b - 8 ≠ m := by omega
            simp [h8, hne]
          · simp [h8]
        have e2 : (decide (8 ≤ b) && (m :: ls).contains (b - 8) && (r (b - 8)).sat) =
            (decide (8 ≤ b) && ls.contains (b - 8) && (r (b - 8)).sat) := by
          rw [Bool.and_comm (decide (8 ≤ b)), this, Bool.and_comm (decide (8 ≤ b))]
        rw [e2]; simp [hb]
    · rw [h4]; rfl

theorem wroteAcc_foldl (d : Nat) (o : Nat → AOut) (r : Nat → AccResult) (ls : List Nat) (hn : ls.Nodup) (hl : ∀ l ∈ ls, l < 8)
    (ho : ∀ l ∈ ls, (o l).v = (r l).v ∧ (o l).sat = (r l).sat ∧ (o l).gov = (r l).gov ∧ (o l).check = true) (c : Core) :
    WroteAcc d (fun l => ls.contains l) r c
      ((ls.map (fun l => (l, o l))).foldl (fun c o =>
        ((c.stick (satBit o.1 o.2.sat)).stick (govBit o.1 o.2.gov)).setA d o.1 ⟨o.2.v, o.2.p % 7⟩) c) := by
  induction ls generalizing c with
  | nil =>
    refine ⟨fun l h => by simp at h, fun _ _ _ _ => rfl, fun b => by simp, rfl⟩
  | cons m ls ih =>
    rw [List.map_cons, List.foldl_cons]
    obtain ⟨hm, hn⟩ := List.nodup_cons.mp hn
    have hm8 := hl m (List.mem_cons_self ..)
    obtain ⟨hv, hs, hg, hk⟩ := ho m (List.mem_cons_self ..)
    obtain ⟨h1, h2, h3, h4⟩ := ih hn (fun l h => hl l (List.mem_cons_of_mem _ h)) (fun l h => ho l (List.mem_cons_of_mem _ h))
      (((c.stick (satBit m (o m).sat)).stick (govBit m (o m).gov)).setA d m ⟨(o m).v, (o m).p % 7⟩)
    have hgood : (⟨(o m).v, (o m).p % 7⟩ : AVal).good = true := by
      unfold AOut.check at hk
      simp only [Bool.and_eq_true, beq_iff_eq] at hk
      unfold AVal.good; rw [hk.2]; exact beq_self_eq_true _
    have hlane : ∀ i l, l < 8 → (((c.stick (satBit m (o m).sat)).stick (govBit m (o m).gov)).setA d m ⟨(o m).v, (o m).p % 7⟩).aLane i l =
        if i = d ∧ l = m then ⟨(o m).v, (o m).p % 7⟩ else c.aLane i l := by
      intro i l hl8
      rw [aLane_setA _ _ _ _ _ _ hm8 hl8]; rfl
    refine ⟨fun l h => ?_, fun i l hl8 h => ?_, fun b => ?_, ?_⟩
    · by_cases hlm : l = m
      · subst hlm
        rw [h2 d l hm8 (by simpa using hm), hlane d l hm8, if_pos ⟨rfl, rfl⟩]
        exact ⟨hv, hgood⟩
      · refine h1 l ?_
        simpa [hlm] using h
    · have hni : ¬ (i = d ∧ ls.contains l = true) := fun x => h ⟨x.1, by simp at x ⊢; exact .inr x.2⟩
      rw [h2 i l hl8 hni, hlane i l hl8, if_neg (fun x => h ⟨x.1, by simp [x.2]⟩)]
    · rw [h3 b]
      show ((c.sf ||| satBit m (o m).sat ||| govBit m (o m).gov).getLsbD b || _ || _) = _
      rw [BitVec.getLsbD_or, BitVec.getLsbD_or, satBit_get m hm8, govBit_get m hm8, hs, hg]
      have hc8 : ∀ x, 8 ≤ x → ls.contains x = false := by
        intro x hx
        by_contra hc
        have := hl x (List.mem_cons_of_mem _ (by simpa using hc))
        omega
      by_cases hb : b = 8 + m
      · subst hb
        have hne : 8 + m ≠ m := by omega
        simp [show 8 + m - 8 = m by omega, hm, hc8 (8 + m) (by omega)]
      · have hb8 : 8 ≤ b → b - 8 ≠ m := by omega
        by_cases h8 : 8 ≤ b
        · have hne := hb8 h8
          have hbm : b ≠ m := by omega
          simp [hb, hne, hbm, h8]
        · by_cases hbm : b = m
          · subst hbm
            simp [hb, h8, hm]
          · simp [hb, h8, hbm]
    · rw [h4]; rfl

theorem qLanes_spec (q : Bool) : (qLanes q).Nodup ∧ (∀ l ∈ qLanes q, l < 8) ∧ ∀ l, (qLanes q).contains l = selects q l := by
  cases q
  · refine ⟨by decide, by decide, fun l => ?_⟩
    unfold selects qLanes
    by_cases h : l = 0
    · subst h; rfl
    · simp [h]
  · refine ⟨by decide, by decide, fun l => ?_⟩
    unfold selects qLanes
    simp

/-- An instruction that ends in lanes of a vector register: what its core holds afterwards. -/
theorem issue_finishV {k : Nat} {s : State} {op d : Nat} {bar wf : Bool} {f : State → CoreRes} {o : Nat → Out} {r : Nat → Result}
    (ls : List Nat) (hn : ls.Nodup) (hl : ∀ l ∈ ls, l < 8)
    (h : runs s k = true) (hw : wf = true) (hb : bar = true → bodyEndFree s k = true)
    (hf : ∀ s', Aside k s s' → ∃ s'', Aside k s' s'' ∧ f s' = finishV k d (ls.map (fun l => (l, o l))) s'')
    (ho : ∀ l ∈ ls, (o l).v = (r l).v ∧ (o l).sat = (r l).sat ∧ (o l).check = true) :
    CoreOnly k s (issue k op bar wf f s) ∧
      ∃ c', (issue k op bar wf f s).cor k = retire c' ∧ WroteLanes d (fun l => ls.contains l) r (s.cor k) c' := by
  have hw' := wroteLanes_foldl d o r ls hn hl ho (s.cor k)
  obtain ⟨h1, h2⟩ := issue_write (op := op) (f := f)
    (g := fun c => (ls.map (fun l => (l, o l))).foldl (fun c o => (c.stick (satBit o.1 o.2.sat)).setV d o.1 ⟨o.2.v, o.2.p % 7⟩) c)
    h hw hb (by rw [hw'.2.2.2]) (fun s' ha => by
      obtain ⟨s'', ha', he⟩ := hf s' ha
      refine ⟨s'', (ls.map (fun l => (l, o l))).any (fun o => o.2.sat), false, ha', he.trans ?_⟩
      unfold finishV
      rw [show (ls.map (fun l => (l, o l))).all (fun o => o.2.check) = true from
        List.all_eq_true.mpr (fun x hx => by obtain ⟨l, hl, rfl⟩ := List.mem_map.mp hx; exact (ho l hl).2.2)])
  exact ⟨h1, _, h2, hw'⟩

/-- An instruction that ends in lanes of an accumulator: what its core holds afterwards. -/
theorem issue_finishA {k : Nat} {s : State} {op d : Nat} {bar wf : Bool} {f : State → CoreRes} {o : Nat → AOut} {r : Nat → AccResult}
    (ls : List Nat) (hn : ls.Nodup) (hl : ∀ l ∈ ls, l < 8)
    (h : runs s k = true) (hw : wf = true) (hb : bar = true → bodyEndFree s k = true)
    (hf : ∀ s', Aside k s s' → ∃ s'', Aside k s' s'' ∧ f s' = finishA k d (ls.map (fun l => (l, o l))) s'')
    (ho : ∀ l ∈ ls, (o l).v = (r l).v ∧ (o l).sat = (r l).sat ∧ (o l).gov = (r l).gov ∧ (o l).check = true) :
    CoreOnly k s (issue k op bar wf f s) ∧
      ∃ c', (issue k op bar wf f s).cor k = retire c' ∧ WroteAcc d (fun l => ls.contains l) r (s.cor k) c' := by
  have hw' := wroteAcc_foldl d o r ls hn hl ho (s.cor k)
  obtain ⟨h1, h2⟩ := issue_write (op := op) (f := f)
    (g := fun c => (ls.map (fun l => (l, o l))).foldl (fun c o =>
      ((c.stick (satBit o.1 o.2.sat)).stick (govBit o.1 o.2.gov)).setA d o.1 ⟨o.2.v, o.2.p % 7⟩) c)
    h hw hb (by rw [hw'.2.2.2]) (fun s' ha => by
      obtain ⟨s'', ha', he⟩ := hf s' ha
      refine ⟨s'', (ls.map (fun l => (l, o l))).any (fun o => o.2.sat), (ls.map (fun l => (l, o l))).any (fun o => o.2.gov), ha', he.trans ?_⟩
      unfold finishA
      rw [show (ls.map (fun l => (l, o l))).all (fun o => o.2.check) = true from
        List.all_eq_true.mpr (fun x hx => by obtain ⟨l, hl, rfl⟩ := List.mem_map.mp hx; exact (ho l hl).2.2.2)])
  exact ⟨h1, _, h2, hw'⟩

theorem fitA_result (sat : Bool) (e : Int) (p : Nat) :
    (fitA sat e p).v = (inAccumulator sat e).v ∧ (fitA sat e p).sat = (inAccumulator sat e).sat ∧
      (fitA sat e p).gov = (inAccumulator sat e).gov := by
  have hv := fitS_val (w := 56) (by decide) sat e p
  have hw : BitVec.ofInt 56 (wrapS 56 e) = BitVec.ofInt 56 e := by
    obtain ⟨⟨q, hq⟩, -⟩ := wrapS_spec (w := 56) (by decide) e
    apply BitVec.eq_of_toInt_eq
    rw [BitVec.toInt_ofInt, BitVec.toInt_ofInt]
    conv_rhs => rw [hq]
    rw [show (2 : Int) ^ 56 * q = ((2 ^ 56 : Nat) : Int) * q by norm_num, Int.add_mul_bmod_self_left]
  unfold fitA inAccumulator
  refine ⟨(congrArg (BitVec.ofInt 56) hv.1).trans ?_, hv.2, Bool.and_comm _ _⟩
  cases sat
  · exact hw
  · rfl

theorem field24_laneAt (x : RVal) : (field24 x).1 = laneAt true x.v := by
  unfold field24 laneAt signedOf
  simp only [if_true]
  rw [BitVec.toInt_eq_toNat_cond, BitVec.toNat_setWidth]
  norm_num
  split <;> split <;> omega

theorem qLanes_sel {q : Bool} {l : Nat} (h : l ∈ qLanes q) : selects q l = true := by
  rw [← (qLanes_spec q).2.2 l]; simpa using h

/-- `issue_finishV` for the lanes that the Q bit selects. -/
theorem issue_lanes {k d : Nat} {q : Bool} {s : State} {op : Nat} {wf : Bool} {f : State → CoreRes} {o : Nat → Out} {r : Nat → Result}
    (h : runs s k = true) (hw : wf = true)
    (hf : ∀ s', Aside k s s' → ∃ s'', Aside k s' s'' ∧ f s' = finishV k d ((qLanes q).map (fun l => (l, o l))) s'')
    (ho : ∀ l, selects q l = true → (o l).v = (r l).v ∧ (o l).sat = (r l).sat ∧ (o l).check = true) :
    CoreOnly k s (issue k op false wf f s) ∧
      ∃ c', (issue k op false wf f s).cor k = retire c' ∧ WroteLanes d (selects q) r (s.cor k) c' := by
  have := issue_finishV (op := op) (bar := false) (r := r) (qLanes q) (qLanes_spec q).1 (qLanes_spec q).2.1 h hw (by simp) hf
    (fun l hl => ho l (qLanes_sel hl))
  rwa [show (fun l => (qLanes q).contains l) = selects q from funext (qLanes_spec q).2.2] at this

/-- `issue_finishA` for the lanes that the Q bit selects. -/
theorem issue_accs {k d : Nat} {q : Bool} {s : State} {op : Nat} {wf : Bool} {f : State → CoreRes} {o : Nat → AOut} {r : Nat → AccResult}
    (h : runs s k = true) (hw : wf = true)
    (hf : ∀ s', Aside k s s' → ∃ s'', Aside k s' s'' ∧ f s' = finishA k d ((qLanes q).map (fun l => (l, o l))) s'')
    (ho : ∀ l, selects q l = true → (o l).v = (r l).v ∧ (o l).sat = (r l).sat ∧ (o l).gov = (r l).gov ∧ (o l).check = true) :
    CoreOnly k s (issue k op false wf f s) ∧
      ∃ c', (issue k op false wf f s).cor k = retire c' ∧ WroteAcc d (selects q) r (s.cor k) c' := by
  have := issue_finishA (op := op) (bar := false) (r := r) (qLanes q) (qLanes_spec q).1 (qLanes_spec q).2.1 h hw (by simp) hf
    (fun l hl => ho l (qLanes_sel hl))
  rwa [show (fun l => (qLanes q).contains l) = selects q from funext (qLanes_spec q).2.2] at this

theorem fit_result (w sat : Bool) (e : Int) (p : Nat) :
    (if w then fit24 sat e p else fit32 sat e p).v = (inRange (laneBits w) sat e).v ∧
    (if w then fit24 sat e p else fit32 sat e p).sat = (inRange (laneBits w) sat e).sat := by
  cases w
  · exact ⟨(fit32_result sat e p).1, (fit32_result sat e p).2.1⟩
  · exact fit24_result sat e p

theorem lane_fst (w : Bool) (x : RVal) : (if w then field24 x else (x.v.toInt, x.r)).1 = laneAt w x.v := by
  cases w
  · rfl
  · exact field24_laneAt x

theorem signedOf24_laneAt (w : Bool) (x : Word) : (if w then signedOf 24 x.toNat else x.toInt) = laneAt w x := by
  cases w
  · rfl
  · exact field24_laneAt ⟨x, 0⟩

end Sys2Proof.Machine
end

