-- ==== Sys2Proof/Laws/Data.lean ====
section
/-!
SUPPORT. Data.lean: what a load, a store and a dual load do to data memory and to their core.
-/

namespace Sys2Proof.Machine

theorem raceWord_set {k a : Nat} {s : State} (h : ∀ m ∈ (s.cor k).moves, m.toBuf = true ∨ ¬ (m.la ≤ a ∧ a + 4 ≤ m.la + m.len)) :
    raceWord k a s = (lramWord (s.cor k) a, s) := by
  unfold raceWord; dsimp only
  generalize lramWord (s.cor k) a = w
  generalize (s.cor k).moves = l at h ⊢
  induction l with
  | nil => rfl
  | cons m l ih =>
    rw [List.foldl_cons, if_neg]
    · exact ih (fun m' hm => h m' (List.mem_cons_of_mem _ hm))
    · have := h m List.mem_cons_self
      intro hh
      rcases this with g | g
      · rw [g] at hh; simp at hh
      · exact g hh.2

theorem leBytes_leNat : ∀ x : List Byte, leBytes x.length (leNat x) = x
  | [] => rfl
  | b :: t => by
    unfold leNat
    rw [List.length_cons]; unfold leBytes
    have hb := b.isLt
    rw [show (b.toNat + 256 * leNat t) / 256 = leNat t by omega, leBytes_leNat t]
    congr 1
    apply BitVec.eq_of_toNat_eq
    rw [BitVec.toNat_ofNat]; omega

theorem leNat_lt : ∀ x : List Byte, leNat x < 256 ^ x.length
  | [] => by decide
  | b :: t => by
    unfold leNat
    have := leNat_lt t
    have hb := b.isLt
    rw [List.length_cons, Nat.pow_succ]; omega

theorem leBytes_word (x : List Byte) (h : x.length = 4) : leBytes 4 (BitVec.ofNat 32 (leNat x)).toNat = x := by
  have hl := leNat_lt x
  rw [h] at hl
  rw [BitVec.toNat_ofNat, Nat.mod_eq_of_lt (by norm_num at hl ⊢; exact hl)]
  have := leBytes_leNat x
  rwa [h] at this

theorem raceWords_set {k : Nat} {s : State} : ∀ (n a : Nat),
    (∀ m ∈ (s.cor k).moves, ∀ i < n, m.toBuf = true ∨ ¬ (m.la ≤ a + 4 * i ∧ a + 4 * i + 4 ≤ m.la + m.len)) →
    raceWords k a n s = (lramRead (s.cor k) a (4 * n), s)
  | 0, a, h => rfl
  | n + 1, a, h => by
    unfold raceWords; dsimp only
    rw [raceWord_set (fun m hm => by simpa using h m hm 0 (by omega))]
    dsimp only
    rw [raceWords_set n (a + 4) (fun m hm i hi => by
      have := h m hm (i + 1) (by omega)
      rw [show a + 4 * (i + 1) = a + 4 + 4 * i by omega] at this; exact this)]
    dsimp only
    congr 1
    unfold lramWord
    rw [leBytes_word _ (by unfold lramRead; simp)]
    unfold lramRead
    rw [show 4 * (n + 1) = 4 + 4 * n by omega, List.range_add, List.map_append, List.map_map]
    congr 1
    apply List.map_congr_left
    intro i _
    simp only [Function.comp]; congr 1; omega

theorem lramRead_drop (c : Core) (b n i j : Nat) (h : i + j ≤ n) : ((lramRead c b n).drop i).take j = lramRead c (b + i) j := by
  apply List.ext_getElem
  · unfold lramRead; simp; omega
  · intro m h1 h2
    have e : ∀ n b j (h : j < (lramRead c b n).length), (lramRead c b n)[j] = lramByte c (b + j) := by
      intro n b j h; simp [lramRead]
    rw [List.getElem_take, List.getElem_drop, e, e]
    congr 1; omega

theorem readLocal_clean {k a size : Nat} {s : State} (hi : ∀ kind, injectArmed s k kind = false) (hs : settled s k a size = true)
    (ha : a + size ≤ 0x100000) (hz : 0 < size) (hal : a % size = 0) (hsz : size = 1 ∨ size = 2 ∨ size = 4 ∨ size = 32) :
    readLocal k a size s = .inl (lramRead (s.cor k) a size, s) := by
  unfold settled at hs
  simp only [Bool.and_eq_true, Bool.not_eq_true', List.all_eq_true, Bool.or_eq_true, decide_eq_true_eq] at hs
  obtain ⟨hb, hm⟩ := hs
  rw [if_pos (by omega)] at hb
  unfold readLocal
  simp only [hi, Bool.false_eq_true, if_false, Bool.or_self, hb]
  congr 1
  unfold localLoad; dsimp only
  rw [raceWords_set]
  · dsimp only
    congr 1
    rw [lramRead_drop _ _ _ _ _ (by rcases hsz with rfl | rfl | rfl | rfl <;> omega)]
    congr 1; omega
  · intro m hmm i hi'
    have := hm m hmm
    rcases hsz with rfl | rfl | rfl | rfl <;> rcases this with (h | h) | h <;> first | (left; exact h) | (right; omega)

theorem region_cases {c : Core} {a size : Nat} (h : (region c a size).isSome = true) :
    (region c a size = some .localRam ∧ a + size ≤ 0x80000) ∨ (region c a size = some .sharedRam ∧ 0x100000 ≤ a) := by
  unfold region at h ⊢
  by_cases h1 : localOk c a size = true
  · rw [if_pos h1]; left
    refine ⟨rfl, ?_⟩
    unfold localOk at h1
    simp only [Bool.and_eq_true, decide_eq_true_eq] at h1
    exact h1.1
  · rw [if_neg h1] at h ⊢
    split at h
    · rename_i h2
      rw [if_pos h2]; right; exact ⟨rfl, h2.1⟩
    · exact absurd h (by decide)

theorem Core.addrDone_pc (p : Nat) (a : Addr) (c : Core) : (addrDone p a c).pc = c.pc := by
  unfold addrDone
  dsimp only
  split <;> split <;> rfl

theorem eccOn_aside {s s' : State} {k : Nat} (h : runs s k = true) (ha : CoreFrame k s s') : eccOn s' = eccOn s := by
  unfold runs at h
  simp only [Bool.and_eq_true] at h
  have hk : k < 256 := by
    have hc := h.1.1
    unfold canIssue at hc
    simp only [Bool.and_eq_true, decide_eq_true_eq] at hc
    exact hc.1.1.1
  unfold eccOn State.flag State.fld
  rw [ha.regs]
  unfold InPmu pmuBase fUmpCtlEccEn
  rw [if_pos hk]
  dsimp only
  omega

theorem memReadList_map (m : List Host.Cell) : ∀ (n a : Nat), memReadList m a n = (List.range n).map (fun i => memRead m (a + i))
  | 0, _ => rfl
  | n + 1, a => by
    rw [List.range_succ_eq_map, List.map_cons, List.map_map]
    unfold memReadList
    rw [memReadList_map m n (a + 1)]
    congr 1
    apply List.map_congr_left
    intro i _
    simp only [Function.comp]; congr 1; omega

theorem load_ok {k opc size : Nat} {dOk : Bool} {put : List Byte → Core → Core} {m : MemOp} {s : State}
    (h : runs s k = true) (hw : (dOk && memOk m) = true) (hsz : size = 1 ∨ size = 2 ∨ size = 4 ∨ size = 32)
    (hpc : ∀ bs c, (put bs c).pc = c.pc)
    (hok : accessOk s k (memAddr (s.cor k) m size).ea size = true) (hs : settled s k (memAddr (s.cor k) m size).ea size = true) :
    CoreOnly k s (load opc size dOk put k m s) ∧
      (load opc size dOk put k m s).cor k = retire (put (dataBytes s k (memAddr (s.cor k) m size).ea size) (addrDone m.p (memAddr (s.cor k) m size) (s.cor k))) := by
  unfold load
  obtain ⟨s', ha, hd, -⟩ := issue_cases (op := opc) (bar := false) (wf := dOk && memOk m) (f := fun s =>
    let a := memAddr (s.cor k) m size
    checkAddr k size a s (fun r =>
      match readData k r a.ea size s with
      | .inr (e, s) => .exc e s
      | .inl (bs, s) => .done (pmuEvent k 0x016 (bitOf a.fix) (pmuEvent k 0x013 1 (s.updCore k (fun c => put bs (addrDone m.p a c))))))) h hw (by simp)
  generalize hadr : memAddr (s.cor k) m size = x at hok hs ⊢
  unfold accessOk at hok
  simp only [Bool.and_eq_true, beq_iff_eq] at hok
  obtain ⟨hr, hal⟩ := hok
  dsimp only at hd
  rw [ha.2, hadr] at hd
  have fin : ∀ s'', Aside k s' s'' → readData k ((region (s.cor k) x.ea size).get hr) x.ea size s' = .inl (dataBytes s k x.ea size, s'') →
      CoreOnly k s (load opc size dOk put k m s) ∧
      (load opc size dOk put k m s).cor k = retire (put (dataBytes s k x.ea size) (addrDone m.p x (s.cor k))) := by
    intro s'' ha' hrd
    obtain ⟨q1, q2⟩ := hd (pmuEvent k 0x016 (bitOf x.fix) (pmuEvent k 0x013 1 (s''.updCore k (fun c => put (dataBytes s k x.ea size) (addrDone m.p x c))))) (by
      unfold checkAddr
      rw [ha.2]
      generalize region (s.cor k) x.ea size = r at hr hrd ⊢
      cases r with
      | none => exact absurd hr (by decide)
      | some r =>
        dsimp only
        rw [if_neg (by omega)]
        dsimp only [Option.get] at hrd
        rw [hrd])
    have x1 := (pmuEvent_aside k 0x013 1 (s''.updCore k (fun c => put (dataBytes s k x.ea size) (addrDone m.p x c)))).trans
      (pmuEvent_aside k 0x016 (bitOf x.fix) _)
    refine ⟨(((ha.trans ha').1.trans (updCore_only k _ s'')).trans x1.1).trans q1, q2.trans ?_⟩
    rw [x1.2, State.cor_updCore_self, (ha.trans ha').2]
    unfold retire
    rw [hpc, Core.addrDone_pc]
  rcases region_cases hr with ⟨e, hb⟩ | ⟨e, hb⟩
  · refine fin s' (Aside.refl k s') ?_
    rw [show (region (s.cor k) x.ea size).get hr = .localRam from Option.get_of_eq_some hr e]
    show readLocal k x.ea size s' = _
    rw [readLocal_clean (fun kind => injectArmed_of_runs h ha kind) ?_ (by omega) (by omega) hal hsz, ha.2]
    · congr 2
      unfold lramRead dataBytes dataByte
      apply List.map_congr_left
      intro i hi
      rw [List.mem_range] at hi
      rw [if_pos (by omega)]
    · unfold settled at hs ⊢
      rw [eccOn_aside h ha.1.toCoreFrame, ha.2, ha.1.bad]; exact hs
  · rw [show (region (s.cor k) x.ea size).get hr = .sharedRam from Option.get_of_eq_some hr e] at fin
    unfold settled at hs
    rw [if_neg (by omega)] at hs
    simp only [Bool.and_eq_true, Bool.not_eq_true'] at hs
    have hrs : readData k .sharedRam x.ea size s' = .inl (sharedRead s'.draw.2 (k / 16) x.ea size, pmuEvent k 0x017 (6 + s'.draw.1 % 17) s'.draw.2) := by
      show readShared k x.ea size s' = _
      unfold readShared
      rw [eccOn_aside h ha.1.toCoreFrame, ha.1.bad, hs.1]
      rfl
    refine fin _ ((draw_aside k s').trans (pmuEvent_aside k 0x017 (6 + s'.draw.1 % 17) _)) (hrs.trans ?_)
    congr 2
    unfold sharedRead
    rw [((draw_aside k s').1.data), ha.1.data]
    rw [memReadList_map]
    unfold dataBytes dataByte
    apply List.map_congr_left
    intro i hi
    rw [if_neg (by omega), show x.ea + i - 0x100000 = x.ea - 0x100000 + i by omega]

theorem extendBytes_false (bs : List Byte) : extendBytes false bs = BitVec.ofNat 32 (leNat bs) := rfl

theorem extendBytes_true (n : Nat) (hn : 0 < n ∧ n ≤ 32) (bs : List Byte) (h : 8 * bs.length = n) :
    extendBytes true bs = (BitVec.ofNat n (leNat bs)).signExtend 32 := by
  have hl := leNat_lt bs
  have hp : 256 ^ bs.length = 2 ^ n := by rw [← h, Nat.pow_mul]
  rw [hp] at hl
  apply BitVec.eq_of_toInt_eq
  unfold extendBytes
  rw [if_pos rfl, h, BitVec.toInt_signExtend_of_le hn.2]
  have e : signedOf n (leNat bs) = (BitVec.ofNat n (leNat bs)).toInt := by
    unfold signedOf
    rw [BitVec.toInt_eq_toNat_cond, BitVec.toNat_ofNat, Nat.mod_eq_of_lt hl]
    have : 2 ^ n = 2 * 2 ^ (n - 1) := by rw [← Nat.pow_succ']; congr 1; omega
    split <;> split <;> first | rfl | omega
  rw [e]
  refine toInt_ofInt_range (by decide) ?_
  have h1 := BitVec.toInt_lt (x := BitVec.ofNat n (leNat bs))
  have h2 := BitVec.le_toInt (x := BitVec.ofNat n (leNat bs))
  have : (2 : Int) ^ (n - 1) ≤ 2 ^ 31 := pow_le_pow_right₀ (by norm_num) (by omega)
  norm_num at *
  omega

theorem putVector_pc (d : Nat) (bs : List Byte) (c : Core) : (putVector d bs c).pc = c.pc := by
  unfold putVector
  generalize List.range 8 = l
  induction l generalizing c with
  | nil => rfl
  | cons x l ih => rw [List.foldl_cons, ih]; rfl

theorem setS_pc (d : Nat) (x : RVal) (c : Core) : (c.setS d x).pc = c.pc := by
  unfold Core.setS; split <;> rfl


theorem lramByte_put (a b : Nat) (x : Byte) (c : Core) : lramByte (lramPut a x c) b = if b = a then x else lramByte c b := by
  have hl : ∀ b, looseByte (lramPut a x c) b = looseByte c b := by
    intro b; unfold lramPut looseByte; split <;> rfl
  unfold lramByte
  rw [hl]
  unfold lramPut
  by_cases hb : looseByte c b = true
  · rw [if_pos hb, if_pos hb]
    by_cases ha : looseByte c a = true
    · rw [if_pos ha]; dsimp only
      rw [mapFind?_insert]
      by_cases e : b = a
      · rw [if_pos e, if_pos e]
      · rw [if_neg e, if_neg e]
    · rw [if_neg ha]; dsimp only
      have e : b ≠ a := fun e => ha (e ▸ hb)
      rw [if_neg e]
  · rw [if_neg hb, if_neg hb]
    by_cases ha : looseByte c a = true
    · have e : b ≠ a := fun e => hb (e ▸ ha)
      rw [if_pos ha, if_neg e]
    · rw [if_neg ha]; dsimp only
      rw [memRead_write]

theorem lramByte_putAll : ∀ (bs : List Byte) (a b : Nat) (c : Core),
    lramByte (lramPutAll a bs c) b = if a ≤ b ∧ b < a + bs.length then bs.getD (b - a) 0 else lramByte c b
  | [], a, b, c => by rw [if_neg (by simp)]; rfl
  | x :: t, a, b, c => by
    unfold lramPutAll
    rw [lramByte_putAll t (a + 1) b, lramByte_put]
    rw [List.length_cons]
    by_cases h : a + 1 ≤ b ∧ b < a + 1 + t.length
    · rw [if_pos h, if_pos (by omega), show b - a = (b - (a + 1)) + 1 by omega, List.getD_cons_succ]
    · rw [if_neg h]
      by_cases e : b = a
      · rw [if_pos e, if_pos (by omega), e, Nat.sub_self, List.getD_cons_zero]
      · rw [if_neg e, if_neg (by omega)]

theorem lramPutAll_ex : ∀ (bs : List Byte) (a : Nat) (c : Core), ∃ r q, lramPutAll a bs c = { c with ram := r, scratch := q }
  | [], _, c => ⟨c.ram, c.scratch, rfl⟩
  | x :: t, a, c => by
    have h : ∃ r q, lramPut a x c = { c with ram := r, scratch := q } := by
      unfold lramPut; split <;> exact ⟨_, _, rfl⟩
    obtain ⟨r, q, h⟩ := h
    obtain ⟨r', q', h'⟩ := lramPutAll_ex t (a + 1) (lramPut a x c)
    unfold lramPutAll
    rw [h', h]
    exact ⟨_, _, rfl⟩

theorem lramPutAll_frame (bs : List Byte) (a : Nat) (c : Core) : lramPutAll a bs c = { c with
    ram := (lramPutAll a bs c).ram, scratch := (lramPutAll a bs c).scratch } := by
  obtain ⟨r, q, h⟩ := lramPutAll_ex bs a c
  rw [h]

theorem markDirty_frame (a n : Nat) (c : Core) : markDirty a n c = { c with run := { c.run with dirty := (markDirty a n c).run.dirty } } := by
  unfold markDirty; split <;> rfl

theorem noteStore_frame (a n : Nat) (c : Core) : noteStore a n c = { c with moves := (noteStore a n c).moves } := rfl

theorem noteStore_moves (a n : Nat) (c : Core) :
    (noteStore a n c).moves.map (fun m => { m with hit := [] }) = c.moves.map (fun m => { m with hit := [] }) := by
  unfold noteStore
  dsimp only
  rw [List.map_map]; rfl

theorem writeData_ok {k a : Nat} {r : Region} {bs : List Byte} {s : State} (hr : (r = .localRam ∧ a + bs.length ≤ 0x80000) ∨ (r = .sharedRam ∧ 0x100000 ≤ a)) :
    CoreFrame k s (writeData k r a bs s) ∧
    ((writeData k r a bs s).cor k = { s.cor k with
      ram := ((writeData k r a bs s).cor k).ram, scratch := ((writeData k r a bs s).cor k).scratch, bad := ((writeData k r a bs s).cor k).bad,
      moves := ((writeData k r a bs s).cor k).moves, run := { (s.cor k).run with dirty := ((writeData k r a bs s).cor k).run.dirty } }) ∧
    ((writeData k r a bs s).cor k).moves.map (fun m => { m with hit := [] }) = (s.cor k).moves.map (fun m => { m with hit := [] }) ∧
    (∀ w ∈ ((writeData k r a bs s).cor k).bad, w ∈ (s.cor k).bad) ∧
    ∀ b, dataByte (writeData k r a bs s) k b = if a ≤ b ∧ b < a + bs.length then bs.getD (b - a) 0 else dataByte s k b := by
  rcases hr with ⟨rfl, hb⟩ | ⟨rfl, hb⟩
  · unfold writeData localStore
    dsimp only
    have hc : ((s.updCore k (fun c => markDirty a bs.length (lramPutAll a bs (noteStore a bs.length c)))).updCore k
        (fun c => { c with bad := mendBad a bs.length c.bad })).cor k =
        (fun c => { c with bad := mendBad a bs.length c.bad }) (markDirty a bs.length (lramPutAll a bs (noteStore a bs.length (s.cor k)))) := by
      rw [State.cor_updCore_self, State.cor_updCore_self]
    refine ⟨((updCore_only k _ s).trans (updCore_only k _ _)).toCoreFrame, ?_, ?_, ?_, ?_⟩
    · rw [hc]
      dsimp only
      rw [markDirty_frame, lramPutAll_frame, noteStore_frame]
    · rw [hc]
      dsimp only
      rw [markDirty_frame, lramPutAll_frame]
      exact noteStore_moves ..
    · rw [hc]
      intro w hw
      dsimp only at hw
      unfold mendBad at hw
      have := List.mem_of_mem_filter hw
      rw [markDirty_frame, lramPutAll_frame] at this
      exact this
    · intro b
      unfold dataByte
      rw [hc]
      by_cases h1 : b < 0x100000
      · rw [if_pos h1, if_pos h1]
        show lramByte { markDirty a bs.length (lramPutAll a bs (noteStore a bs.length (s.cor k))) with bad := _ } b = _
        rw [markDirty_frame]
        exact lramByte_putAll bs a b _
      · rw [if_neg h1, if_neg h1, if_neg (by omega)]
        rw [State.cl_updCore, State.cl_updCore]
  · unfold writeData sharedStore
    dsimp only
    generalize hf : 6 + s.draw.1 % 17 = f
    have x0 := draw_aside k s
    generalize s.draw.2 = s1 at x0
    have x1 := pmuEvent_aside k 0x017 f ((s1.updClu (k / 16) (fun c => { c with data := memWriteList c.data (a - 0x100000) bs })).updClu (k / 16)
      (fun c => { c with bad := mendBad a bs.length c.bad }))
    have e2 : CoreFrame k s1 ((s1.updClu (k / 16) (fun c => { c with data := memWriteList c.data (a - 0x100000) bs })).updClu (k / 16)
      (fun c => { c with bad := mendBad a bs.length c.bad })) := by
      constructor <;> first | rfl | exact le_refl _ | exact ⟨rfl, rfl, rfl⟩ | (intros; rfl) | skip
      · intro n hn; rw [State.cl_updClu_other _ hn, State.cl_updClu_other _ hn]
      · rw [State.cl_updClu_self, State.cl_updClu_self]
    have hcor : ((pmuEvent k 0x017 f ((s1.updClu (k / 16) (fun c => { c with data := memWriteList c.data (a - 0x100000) bs })).updClu (k / 16)
      (fun c => { c with bad := mendBad a bs.length c.bad }))).cor k) = s.cor k := x1.2.trans x0.2
    refine ⟨(x0.1.toCoreFrame.trans e2).trans x1.1.toCoreFrame, ?_, ?_, ?_, ?_⟩
    · rw [hcor]
    · rw [hcor]
    · rw [hcor]; exact fun w hw => hw
    · intro b
      unfold dataByte
      rw [hcor, x1.1.data, State.cl_updClu_self, State.cl_updClu_self]
      dsimp only
      rw [memRead_writeList, x0.1.data]
      by_cases h1 : b < 0x100000
      · rw [if_pos h1, if_neg (by omega), if_pos h1]
      · rw [if_neg h1, if_neg h1]
        by_cases h2 : a ≤ b ∧ b < a + bs.length
        · rw [if_pos h2, if_pos (by omega), show b - 0x100000 - (a - 0x100000) = b - a by omega]
        · rw [if_neg h2, if_neg (by omega)]

theorem store_ok {k opc size : Nat} {dOk : Bool} {data : Core → List Byte × Bool} {m : MemOp} {s : State}
    (h : runs s k = true) (hw : (dOk && memOk m) = true) (hdl : ∀ c, (data c).1.length = size)
    (hok : accessOk s k (memAddr (s.cor k) m size).ea size = true) (hres : (data (s.cor k)).2 = true) :
    CoreFrame k s (store opc size dOk data k m s) ∧ StoredFrame m.p (memAddr (s.cor k) m size) (s.cor k) ((store opc size dOk data k m s).cor k) ∧
    ∀ b, dataByte (store opc size dOk data k m s) k b =
      if (memAddr (s.cor k) m size).ea ≤ b ∧ b < (memAddr (s.cor k) m size).ea + size then
        (data (s.cor k)).1.getD (b - (memAddr (s.cor k) m size).ea) 0 else dataByte s k b := by
  unfold store
  obtain ⟨s', ha, hd, -⟩ := issue_cases (op := opc) (bar := false) (wf := dOk && memOk m) (f := fun s =>
    let a := memAddr (s.cor k) m size
    checkAddr k size a s (fun r =>
      let (bs, ok) := data (s.cor k)
      if !ok then excResidue k s
      else .done (pmuEvent k 0x016 (bitOf a.fix) (pmuEvent k 0x014 1 (writeData k r a.ea bs (s.updCore k (addrDone m.p a))))))) h hw (by simp)
  generalize hadr : memAddr (s.cor k) m size = x at hok ⊢
  unfold accessOk at hok
  simp only [Bool.and_eq_true, beq_iff_eq] at hok
  obtain ⟨hr, hal⟩ := hok
  dsimp only at hd
  rw [ha.2, hadr] at hd
  obtain ⟨q1, q2⟩ := hd (pmuEvent k 0x016 (bitOf x.fix) (pmuEvent k 0x014 1 (writeData k ((region (s.cor k) x.ea size).get hr) x.ea (data (s.cor k)).1 (s'.updCore k (addrDone m.p x))))) (by
      unfold checkAddr
      rw [ha.2]
      generalize region (s.cor k) x.ea size = r at hr ⊢
      cases r with
      | none => exact absurd hr (by decide)
      | some r =>
        dsimp only
        rw [if_neg (by omega), hres]
        rfl)
  have hl := hdl (s.cor k)
  generalize hrr : (region (s.cor k) x.ea size).get hr = r at q1 q2
  have hreg : (r = .localRam ∧ x.ea + (data (s.cor k)).1.length ≤ 0x80000) ∨ (r = .sharedRam ∧ 0x100000 ≤ x.ea) := by
    rw [hl]
    rcases region_cases hr with ⟨e, hb⟩ | ⟨e, hb⟩
    · left; exact ⟨hrr.symm.trans (Option.get_of_eq_some hr e), hb⟩
    · right; exact ⟨hrr.symm.trans (Option.get_of_eq_some hr e), hb⟩
  obtain ⟨w1, w2, w3, w4, w5⟩ := writeData_ok (k := k) (s := s'.updCore k (addrDone m.p x)) hreg
  have x1 := (pmuEvent_aside k 0x014 1 (writeData k r x.ea (data (s.cor k)).1 (s'.updCore k (addrDone m.p x)))).trans
    (pmuEvent_aside k 0x016 (bitOf x.fix) _)
  generalize writeData k r x.ea (data (s.cor k)).1 (s'.updCore k (addrDone m.p x)) = u at w1 w2 w3 w4 w5 x1 q1 q2
  rw [State.cor_updCore_self, ha.2] at w2 w3 w4
  have hAB : ∀ p (a : Addr) (c : Core), (addrDone p a c).run = c.run ∧ (addrDone p a c).bad = c.bad ∧ (addrDone p a c).moves = c.moves ∧
      (addrDone p a c).ram = c.ram ∧ (addrDone p a c).scratch = c.scratch ∧ (addrDone p a c).filled = c.filled ∧ (addrDone p a c).scratchId = c.scratchId := by
    intro p a c; unfold addrDone; dsimp only; split <;> split <;> exact ⟨rfl, rfl, rfl, rfl, rfl, rfl, rfl⟩
  refine ⟨(((ha.1.trans (updCore_only k _ s')).toCoreFrame.trans w1).trans x1.1.toCoreFrame).trans q1.toCoreFrame, ⟨?_, ?_, ?_⟩, ?_⟩
  · rw [q2, x1.2]
    conv_lhs => rw [w2]
    unfold retire
    dsimp only
    rw [Core.addrDone_pc, (hAB m.p x (s.cor k)).1]
  · rw [q2, x1.2]; dsimp only; rw [w3, (hAB m.p x (s.cor k)).2.2.1]
  · rw [q2, x1.2]; dsimp only; rw [← (hAB m.p x (s.cor k)).2.1]; exact w4
  · intro b
    rw [← hl]
    rw [show (if x.ea ≤ b ∧ b < x.ea + (data (s.cor k)).1.length then (data (s.cor k)).1.getD (b - x.ea) 0 else dataByte s k b) =
      (if x.ea ≤ b ∧ b < x.ea + (data (s.cor k)).1.length then (data (s.cor k)).1.getD (b - x.ea) 0 else dataByte (s'.updCore k (addrDone m.p x)) k b) by
      congr 1
      unfold dataByte
      rw [State.cor_updCore_self, State.cl_updCore, ha.1.data, ha.2]
      congr 1
      unfold lramByte looseByte
      have := hAB m.p x (s.cor k)
      rw [this.2.2.2.1, this.2.2.2.2.1, this.2.2.2.2.2.1, this.2.2.2.2.2.2]]
    rw [← w5 b]
    unfold dataByte
    have hx1 := x1.1.data
    have hx2 := x1.2
    have hq1 := q1.data
    subst hl
    simp only [] at q2 hq1 ⊢
    rw [hq1, q2, hx2, hx1]
    rfl

theorem leBytes_length : ∀ n v, (leBytes n v).length = n
  | 0, _ => rfl
  | n + 1, v => by unfold leBytes; rw [List.length_cons, leBytes_length n]

theorem addrDone_regs (p : Nat) (a : Addr) (c : Core) (i l : Nat) : (addrDone p a c).sReg i = c.sReg i ∧ (addrDone p a c).vLane i l = c.vLane i l ∧
    (addrDone p a c).blReg i = c.blReg i := by
  unfold addrDone; dsimp only; split <;> split <;> exact ⟨rfl, rfl, rfl⟩

end Sys2Proof.Machine
end

