-- ==== Sys2Proof/Laws/Fabric.lean ====
section
/-!
SUPPORT. Fabric.lean: what an instruction leaves that ends in a step, a jump, a skip or a stall, and what the status words and the
records of a run are.
-/

namespace Sys2Proof.Machine

section
variable {k op : Nat} {bar wf : Bool} {f : State → CoreRes} {s : State} {c : Core}

/-- An instruction that is done: its core, in step with its program. -/
theorem issue_done (h : runs s k = true) (hw : wf = true) (hb : bar = true → bodyEndFree s k = true) (hpc : c.pc = (s.cor k).pc)
    (hf : ∀ s', s' = issueState k s → s'.cor k = s.cor k → Aside k s s' → ∃ u, f s' = .done u ∧ CoreOnly k s' u ∧ u.cor k = c) :
    CoreOnly k s (issue k op bar wf f s) ∧ (issue k op bar wf f s).cor k = retire c := by
  obtain ⟨ha, hd, -⟩ := issue_at (op := op) (f := f) h hw hb
  obtain ⟨u, he, h1, h2⟩ := hf _ rfl ha.2 ha
  obtain ⟨q1, q2⟩ := hd u he
  refine ⟨(ha.1.trans h1).trans q1, q2.trans ?_⟩
  rw [h2]; unfold retire; rw [hpc]

/-- An instruction that transfers control. -/
theorem issue_jump {p : Nat} (h : runs s k = true) (hw : wf = true) (hb : bar = true → bodyEndFree s k = true)
    (hf : ∀ s', s' = issueState k s → s'.cor k = s.cor k → Aside k s s' → ∃ u, f s' = .jump p u ∧ CoreOnly k s' u ∧ u.cor k = c) :
    CoreOnly k s (issue k op bar wf f s) ∧ (issue k op bar wf f s).cor k = transfer p c := by
  obtain ⟨ha, -, hd, -⟩ := issue_at (op := op) (f := f) h hw hb
  obtain ⟨u, he, h1, h2⟩ := hf _ rfl ha.2 ha
  obtain ⟨q1, q2⟩ := hd p u he
  refine ⟨(ha.1.trans h1).trans q1, q2.trans ?_⟩
  rw [h2]; rfl

/-- An instruction that sets the PC and no loop.  -/
theorem issue_skip {p : Nat} (h : runs s k = true) (hw : wf = true) (hb : bar = true → bodyEndFree s k = true)
    (hf : ∀ s', s' = issueState k s → s'.cor k = s.cor k → Aside k s s' → ∃ u, f s' = .skip p u ∧ CoreOnly k s' u ∧ u.cor k = c) :
    CoreOnly k s (issue k op bar wf f s) ∧ (issue k op bar wf f s).cor k = { c with pc := p } := by
  obtain ⟨ha, -, -, hd, -⟩ := issue_at (op := op) (f := f) h hw hb
  obtain ⟨u, he, h1, h2⟩ := hf _ rfl ha.2 ha
  obtain ⟨q1, q2⟩ := hd p u he
  refine ⟨(ha.1.trans h1).trans q1, q2.trans ?_⟩
  rw [h2]

/-- An instruction that stalls or ends its run. -/
theorem issue_stay {F : State → State → Prop} (h : runs s k = true) (hw : wf = true) (hb : bar = true → bodyEndFree s k = true)
    (hf : ∀ s', s' = issueState k s → s'.cor k = s.cor k → Aside k s s' → ∃ u, f s' = .stay u ∧ F s' u) :
    ∃ s', Aside k s s' ∧ F s' (issue k op bar wf f s) := by
  obtain ⟨ha, -, -, -, hd⟩ := issue_at (op := op) (f := f) h hw hb
  obtain ⟨u, he, h1⟩ := hf _ rfl ha.2 ha
  exact ⟨_, ha, by rw [hd u he]; exact h1⟩
end

theorem relTarget_is (pc : Nat) (o : Int) : IsTarget pc o (relTarget pc o) := by
  unfold IsTarget relTarget patternOf
  rw [Int.toNat_of_nonneg (Int.emod_nonneg _ (by norm_num))]; rfl

theorem upd_pmu (k ev n : Nat) (f : Core → Core) (s : State) : CoreOnly k s (pmuEvent k ev n (s.updCore k f)) ∧ (pmuEvent k ev n (s.updCore k f)).cor k = f (s.cor k) :=
  ⟨(updCore_only k f s).trans (pmuEvent_aside k ev n _).1, (pmuEvent_aside k ev n _).2.trans (State.cor_updCore_self ..)⟩

theorem sField_of {w : Nat} {x : Int} (h1 : -(2 ^ (w - 1)) ≤ x) (h2 : x < 2 ^ (w - 1)) : sField w x = true := by
  unfold sField; simp only [Bool.and_eq_true, decide_eq_true_eq]; exact ⟨h1, h2⟩

theorem movF {k d : Nat} {wf : Bool} {f : Core → Word} {s : State} (h : runs s k = true) (hd : d < 32) (hw : wf = true) :
    CoreOnly k s (movxFrom k d wf f s) ∧ (movxFrom k d wf f s).cor k = retire (wroteScalar d false { v := f (s.cor k) } (s.cor k)) := by
  unfold movxFrom
  refine issue_finishS (setf := false) (o := moved (rv (f (s.cor k)))) h (by simp [reg5, hd, hw]) (by simp)
    (fun s' ha => ⟨s', Aside.refl k s', by rw [ha.2]⟩) ?_ rfl rfl (by simp) (by simp)
  exact check_of (by unfold moved rv resOk res7; simp; omega) (by unfold moved rv; exact res7_cong _)

theorem movT {k x : Nat} {wf : Bool} {f : Word → Core → Core} {s : State} (h : runs s k = true) (hx : x < 32) (hw : wf = true)
    (hg : ((s.cor k).sReg x).good = true) (hpc : ∀ w c, (f w c).pc = c.pc) :
    CoreOnly k s (movxTo k x wf f s) ∧ (movxTo k x wf f s).cor k = retire (f ((s.cor k).sReg x).v (s.cor k)) := by
  unfold movxTo
  refine issue_write (g := f ((s.cor k).sReg x).v) h (by simp [reg5, hx, hw]) (by simp) (hpc ..)
    (fun s' ha => ⟨s', false, false, Aside.refl k s', ?_⟩)
  dsimp only; rw [ha.2, hg]

theorem cluCycles_issue (s : State) (k : Nat) : cluCycles (issueState k s) (k / 16) = cluCycles s (k / 16) := by
  unfold issueState
  split
  · rename_i hp
    unfold setPwr
    generalize hc : cluCycles s (k / 16) = n
    unfold cluCycles
    rw [show mapGet ({} : Cluster) (k / 16) (s.updClu (k / 16) (fun c => { c with pwr := Pwr.run, since := s.clk, waking := false, cyc := n, cycAt := s.clk })).clu
        = _ from State.cl_updClu_self ..]
    simp
  · rfl

theorem cycleOf_issue (s : State) (k : Nat) : cycleOf (issueState k s) k = cycleOf s k := by
  have h1 : countersHeld (issueState k s) k = countersHeld s k := by unfold issueState; split <;> rfl
  have h2 : (issueState k s).pmu = s.pmu := by unfold issueState; split <;> rfl
  have h3 : setCycles (issueState k s) k = setCycles s k := by
    unfold setCycles
    rw [cluCycles_issue]
    have : (issueState k s).clk = s.clk := by unfold issueState; split <;> rfl
    rw [this]
  unfold cycleOf
  rw [h1, h2, h3]

theorem pmu_issue (s : State) (k : Nat) : (issueState k s).pmu = s.pmu ∧ ∀ f, (issueState k s).flag f = s.flag f := by
  unfold issueState; split <;> exact ⟨rfl, fun _ => rfl⟩

theorem putPair_ok (k d y v : Nat) (s : State) : ∃ c', CoreOnly k s (putPair k d y (v % W32) (v / W32) s) ∧ (putPair k d y (v % W32) (v / W32) s).cor k = c' ∧
    (c' = ((s.cor k).setS d (rv (BitVec.ofNat 32 v))).setS y (rv (BitVec.ofNat 32 (v / 2 ^ 32))) ∨
      (d = y ∧ c' = ((s.cor k).setS y (rv (BitVec.ofNat 32 (v / 2 ^ 32)))).setS d (rv (BitVec.ofNat 32 v)))) ∧ c'.pc = (s.cor k).pc := by
  have e : BitVec.ofNat 32 (v % W32) = BitVec.ofNat 32 v := by
    apply BitVec.eq_of_toNat_eq; rw [BitVec.toNat_ofNat, BitVec.toNat_ofNat]; unfold W32; omega
  unfold putPair
  rw [e]
  have hpc : ∀ (c : Core) i x, (c.setS i x).pc = c.pc := fun c i x => by unfold Core.setS; split <;> rfl
  by_cases hd : d = y
  · rw [if_pos hd]
    have hdr := draw_aside k s
    refine ⟨_, hdr.1.trans (updCore_only k _ _), rfl, ?_, ?_⟩
    · rw [State.cor_updCore_self, hdr.2]
      split
      · left; rfl
      · right; exact ⟨hd, rfl⟩
    · rw [State.cor_updCore_self, hdr.2]
      split <;> rw [hpc, hpc]
  · rw [if_neg hd]
    refine ⟨_, updCore_only k _ s, rfl, ?_, ?_⟩
    · rw [State.cor_updCore_self]; left; rfl
    · rw [State.cor_updCore_self]; simp [hpc]

theorem zSet_eq (cf : BitVec 16) (code : Nat) : cfZ cf (code == 0) = zSet cf (decide (code = 0)) := by
  unfold cfZ zSet bitOf
  by_cases h : code = 0 <;> simp [h]

theorem fabStatus_ok (k d code handle : Nat) (hc : code < 256) (s : State) :
    ∃ u, fabStatus k d code handle s = .done u ∧ CoreOnly k s u ∧ u.cor k = withStatus d code handle (s.cor k) := by
  refine ⟨_, rfl, updCore_only k _ s, ?_⟩
  rw [State.cor_updCore_self]
  unfold withStatus
  rw [zSet_eq]
  congr 2
  apply BitVec.eq_of_toNat_eq
  have hl : handle % 2 ^ 24 < 2 ^ 24 := Nat.mod_lt _ (by decide)
  rw [BitVec.toNat_append]
  simp only [BitVec.toNat_ofNat]
  rw [Nat.mod_eq_of_lt hc, ← Nat.shiftLeft_add_eq_or_of_lt hl, Nat.shiftLeft_eq]
  omega

theorem withStatus_pc (d code handle : Nat) (c : Core) : (withStatus d code handle c).pc = c.pc := by
  unfold withStatus Core.setS; split <;> rfl

theorem fabric_ok {k opc : Nat} {wf : Bool} {xs : List Nat} {f : State → CoreRes} {s : State} {c : Core} (h : runs s k = true)
    (hm : (s.cor k).mode = .run) (hw : wf = true) (hg : goodRegs s k xs = true) (hpc : c.pc = (s.cor k).pc)
    (hf : ∀ s', s' = issueState k s → s'.cor k = s.cor k → Aside k s s' → ∃ u, f s' = .done u ∧ CoreOnly k s' u ∧ u.cor k = c) :
    CoreOnly k s (fabric opc k wf xs f s) ∧ (fabric opc k wf xs f s).cor k = retire c := by
  unfold fabric
  refine issue_done h hw (by simp) hpc (fun s' e1 e2 e3 => ?_)
  obtain ⟨u, h1, h2⟩ := hf s' e1 e2 e3
  refine ⟨u, ?_, h2⟩
  have hg' : goodRegs s' k xs = true := by unfold goodRegs at hg ⊢; rw [e2]; exact hg
  unfold inRun; rw [e2, hm, hg']; exact h1

theorem recordBull_ok {k d : Nat} {o : RunOp} {s : State} {c : Core} (h : s.cor k = c) (hn : c.run.nBull < 64) :
    ∃ u, recordBull k d o s = .done u ∧ CoreOnly k s u ∧ u.cor k = withStatus d 0 0 (recordedBull o c) := by
  unfold recordBull addBull
  rw [h, if_neg (by omega)]
  obtain ⟨u, h1, h2, h3⟩ := fabStatus_ok k d 0 0 (by decide) (record k (fun r => { r with ops := o :: r.ops, nBull := r.nBull + 1 }) s)
  refine ⟨u, h1, (updCore_only k _ s).trans h2, ?_⟩
  rw [h3]; unfold record; rw [State.cor_updCore_self, h]; rfl

theorem recordSeed_ok {k d : Nat} {o : RunOp} {s : State} {c : Core} (h : s.cor k = c) (hn : c.run.nSeed < 64) :
    ∃ u, recordSeed k d o s = .done u ∧ CoreOnly k s u ∧ u.cor k = withStatus d 0 0 (recordedSeed o c) := by
  unfold recordSeed addSeed
  rw [h, if_neg (by omega)]
  obtain ⟨u, h1, h2, h3⟩ := fabStatus_ok k d 0 0 (by decide) (record k (fun r => { r with ops := o :: r.ops, nSeed := r.nSeed + 1 }) s)
  refine ⟨u, h1, (updCore_only k _ s).trans h2, ?_⟩
  rw [h3]; unfold record; rw [State.cor_updCore_self, h]; rfl

theorem issue_mq (s : State) (k q : Nat) : (issueState k s).queue? q = s.queue? q ∧ ∀ h, badHandle (issueState k s) h = badHandle s h := by
  unfold issueState; split <;> exact ⟨rfl, fun _ => rfl⟩

theorem flags_get (cf : BitVec 16) (r : Result) : (flagsSet cf r).getLsbD 0 = decide (r.v = 0) ∧ (flagsSet cf r).getLsbD 1 = r.v.getLsbD 31 ∧
    (flagsSet cf r).getLsbD 2 = r.c ∧ (flagsSet cf r).getLsbD 3 = r.ov := by
  unfold flagsSet
  simp only [BitVec.getLsbD_or, BitVec.getLsbD_and, BitVec.getLsbD_ofNat]
  by_cases h : r.v = 0
  · rw [if_pos h, decide_eq_true h]
    generalize r.v.getLsbD 31 = x; generalize r.c = y; generalize r.ov = z
    generalize cf.getLsbD 0 = a; generalize cf.getLsbD 1 = b; generalize cf.getLsbD 2 = c; generalize cf.getLsbD 3 = d
    revert x y z a b c d; decide
  · rw [if_neg h, decide_eq_false h]
    generalize r.v.getLsbD 31 = x; generalize r.c = y; generalize r.ov = z
    generalize cf.getLsbD 0 = a; generalize cf.getLsbD 1 = b; generalize cf.getLsbD 2 = c; generalize cf.getLsbD 3 = d
    revert x y z a b c d; decide

end Sys2Proof.Machine
end

