-- ==== Sys2Proof/Laws/Count.lean ====
section
/-!
SUPPORT. Count.lean: what counting an event and raising a flag changes: counters, registers, interrupt messages, and nothing else.
-/

namespace Sys2Proof.Machine

/-- What counting changes: counters, registers, interrupt messages. -/
def CountOnly (s t : State) : Prop := ∃ p r b o, t = { s with pmu := p, regs := r, hif := { s.hif with pba := b }, out := o }

theorem CountOnly.refl (s : State) : CountOnly s s := ⟨_, _, _, _, rfl⟩

theorem CountOnly.trans {s t u : State} (h : CountOnly s t) (g : CountOnly t u) : CountOnly s u := by
  obtain ⟨p, r, b, o, rfl⟩ := h
  obtain ⟨p', r', b', o', rfl⟩ := g
  exact ⟨_, _, _, _, rfl⟩

theorem setReg_count (a : Nat) (w : Word) (s : State) : CountOnly s (s.setReg a w) := ⟨s.pmu, _, s.hif.pba, s.out, rfl⟩

theorem sendMsi_count (src : Nat) (s : State) : CountOnly s (sendMsi src s) := by
  unfold sendMsi
  dsimp only
  split
  · split
    · exact ⟨s.pmu, s.regs, _, s.out, rfl⟩
    · exact ⟨s.pmu, s.regs, s.hif.pba, _, rfl⟩
  · exact CountOnly.refl s

theorem raiseFld_count (src : Nat) (f : Fld) (s : State) : CountOnly s (raiseFld src f s) := by
  unfold raiseFld notify State.setFld
  split
  · exact (setReg_count ..).trans (sendMsi_count ..)
  · exact setReg_count ..

theorem pmcAdd_count (set i n : Nat) (s : State) : CountOnly s (pmcAdd set i n s) := by
  unfold pmcAdd
  dsimp only
  split
  · exact CountOnly.trans (t := { s with pmu := _ }) ⟨_, s.regs, s.hif.pba, s.out, rfl⟩ (raiseFld_count ..)
  · exact ⟨_, s.regs, s.hif.pba, s.out, rfl⟩

theorem pmuEvent_count (set ev n : Nat) (s : State) : CountOnly s (pmuEvent set ev n s) := by
  unfold pmuEvent
  split
  · exact CountOnly.refl s
  · generalize List.range 6 = l
    induction l generalizing s with
    | nil => exact CountOnly.refl s
    | cons i l ih =>
      rw [List.foldl_cons]
      refine CountOnly.trans ?_ (ih _)
      split
      · exact pmcAdd_count ..
      · exact CountOnly.refl s

theorem sendMsi_reg (src : Nat) (s : State) (b : Nat) : (sendMsi src s).reg b = s.reg b := by
  unfold sendMsi; dsimp only; split
  · split <;> rfl
  · rfl

theorem raiseFld_reg (src : Nat) (f : Fld) (s : State) {b : Nat} (h : b ≠ f.addr) : (raiseFld src f s).reg b = s.reg b := by
  unfold raiseFld notify
  split
  · rw [sendMsi_reg]; exact State.reg_setFld_other s f 1 h
  · exact State.reg_setFld_other s f 1 h

theorem pmcAdd_reg (set i n : Nat) (s : State) {b : Nat} (h : ¬ InPmu set b) : (pmcAdd set i n s).reg b = s.reg b := by
  unfold pmcAdd
  dsimp only
  split
  · rw [raiseFld_reg]
    · rfl
    · intro e; apply h; rw [e]; unfold InPmu fPmuOvfPmc Fld.bit; dsimp only; omega
  · rfl

theorem pmuEvent_reg (set ev n : Nat) (s : State) {b : Nat} (h : ¬ InPmu set b) : (pmuEvent set ev n s).reg b = s.reg b := by
  unfold pmuEvent
  split
  · rfl
  · generalize List.range 6 = l
    induction l generalizing s with
    | nil => rfl
    | cons i l ih =>
      rw [List.foldl_cons, ih]
      split
      · exact pmcAdd_reg _ _ _ _ h
      · rfl

theorem bump_count (f : Fld) (k : Nat) (s : State) : CountOnly s (s.bump f k) := setReg_count ..

theorem bump_reg (f : Fld) (k : Nat) (s : State) {b : Nat} (h : b ≠ f.addr) : (s.bump f k).reg b = s.reg b := State.reg_setFld_other s f _ h

/-- Counting leaves a core and everything else of the state alone. -/
theorem CountOnly.only {s t : State} (h : CountOnly s t) (k : Nat) : CoreOnly k s { t with regs := s.regs } := by
  obtain ⟨p, r, b, o, rfl⟩ := h
  refine ⟨⟨?_, ?_, ?_, ?_, ?_, ?_, ?_, ?_, ?_, ?_, ?_, ?_, ?_, ?_, ?_, ?_, ?_, ?_, ?_, ?_, ?_, ?_, ?_, ?_, ?_, ?_, ?_, ?_, ?_⟩, ?_, ?_⟩
  all_goals first | rfl | exact le_refl _ | exact ⟨rfl, rfl, rfl⟩ | (intros; rfl)

theorem CountOnly.cor {s t : State} (h : CountOnly s t) (k : Nat) : t.cor k = s.cor k := by
  obtain ⟨p, r, b, o, rfl⟩ := h; rfl

theorem CountOnly.pending {s t : State} (h : CountOnly s t) : t.pending = s.pending := by
  obtain ⟨p, r, b, o, rfl⟩ := h; rfl

theorem CountOnly.free {s t : State} (h : CountOnly s t) : t.free = s.free := by
  obtain ⟨p, r, b, o, rfl⟩ := h; rfl

theorem CountOnly.clk {s t : State} (h : CountOnly s t) : t.clk = s.clk := by
  obtain ⟨p, r, b, o, rfl⟩ := h; rfl

theorem CountOnly.hbm {s t : State} (h : CountOnly s t) : t.hbm = s.hbm := by
  obtain ⟨p, r, b, o, rfl⟩ := h; rfl

theorem CountOnly.time {s t : State} (h : CountOnly s t) : t.time = s.time := by
  obtain ⟨p, r, b, o, rfl⟩ := h; rfl

theorem CountOnly.mq {s t : State} (h : CountOnly s t) : t.mq = s.mq := by
  obtain ⟨p, r, b, o, rfl⟩ := h; rfl

theorem CountOnly.seed {s t : State} (h : CountOnly s t) : t.seed = s.seed := by
  obtain ⟨p, r, b, o, rfl⟩ := h; rfl

theorem CountOnly.bull {s t : State} (h : CountOnly s t) : t.bull = s.bull := by
  obtain ⟨p, r, b, o, rfl⟩ := h; rfl

theorem CountOnly.gh {s t : State} (h : CountOnly s t) : t.gh = s.gh := by
  obtain ⟨p, r, b, o, rfl⟩ := h; rfl

theorem CountOnly.core {s t : State} (h : CountOnly s t) : t.core = s.core := by
  obtain ⟨p, r, b, o, rfl⟩ := h; rfl

theorem CountOnly.clu {s t : State} (h : CountOnly s t) : t.clu = s.clu := by
  obtain ⟨p, r, b, o, rfl⟩ := h; rfl

theorem CountOnly.scout {s t : State} (h : CountOnly s t) : t.scout = s.scout := by
  obtain ⟨p, r, b, o, rfl⟩ := h; rfl

theorem CountOnly.ump {s t : State} (h : CountOnly s t) : t.ump = s.ump := by
  obtain ⟨p, r, b, o, rfl⟩ := h; rfl

theorem CountOnly.glb {s t : State} (h : CountOnly s t) : t.glb = s.glb := by
  obtain ⟨p, r, b, o, rfl⟩ := h; rfl

theorem CountOnly.graphs {s t : State} (h : CountOnly s t) : t.graphs = s.graphs := by
  obtain ⟨p, r, b, o, rfl⟩ := h; rfl

theorem CountOnly.net {s t : State} (h : CountOnly s t) : t.net = s.net := by
  obtain ⟨p, r, b, o, rfl⟩ := h; rfl

theorem CountOnly.cfg {s t : State} (h : CountOnly s t) : t.cfg = s.cfg := by
  obtain ⟨p, r, b, o, rfl⟩ := h; rfl

theorem CountOnly.txHold {s t : State} (h : CountOnly s t) : t.txHold = s.txHold := by
  obtain ⟨p, r, b, o, rfl⟩ := h; rfl

theorem CountOnly.rfp {s t : State} (h : CountOnly s t) : t.rfp = s.rfp := by
  obtain ⟨p, r, b, o, rfl⟩ := h; rfl

theorem CountOnly.mdm {s t : State} (h : CountOnly s t) : t.mdm = s.mdm := by
  obtain ⟨p, r, b, o, rfl⟩ := h; rfl

theorem CountOnly.madi {s t : State} (h : CountOnly s t) : t.madi = s.madi := by
  obtain ⟨p, r, b, o, rfl⟩ := h; rfl

theorem CountOnly.pack {s t : State} (h : CountOnly s t) : t.pack = s.pack := by
  obtain ⟨p, r, b, o, rfl⟩ := h; rfl

theorem CountOnly.flc {s t : State} (h : CountOnly s t) : t.flc = s.flc := by
  obtain ⟨p, r, b, o, rfl⟩ := h; rfl

theorem CountOnly.flash {s t : State} (h : CountOnly s t) : t.flash = s.flash := by
  obtain ⟨p, r, b, o, rfl⟩ := h; rfl

theorem CountOnly.kml {s t : State} (h : CountOnly s t) : t.kml = s.kml := by
  obtain ⟨p, r, b, o, rfl⟩ := h; rfl

theorem CountOnly.hbmBad {s t : State} (h : CountOnly s t) : t.hbmBad = s.hbmBad := by
  obtain ⟨p, r, b, o, rfl⟩ := h; rfl

theorem CountOnly.peers {s t : State} (h : CountOnly s t) : t.peers = s.peers := by
  obtain ⟨p, r, b, o, rfl⟩ := h; rfl

end Sys2Proof.Machine
end

