-- ==== Sys2Proof/Laws/Kci.lean ====
section
/-!
SUPPORT. Kci.lean: what running a control instruction does once it may run, and what its completion changes.
-/

namespace Sys2Proof.Machine

theorem Kept.refl (ps : List Part) (s : State) : Kept ps s s := fun p _ => by cases p <;> rfl

theorem Part.same_trans {p : Part} {s t u : State} (h : p.same s t) (g : p.same t u) : p.same s u := by
  cases p <;> exact g.trans h

theorem Kept.trans {ps : List Part} {s t u : State} (h : Kept ps s t) (g : Kept ps t u) : Kept ps s u :=
  fun p hp => Part.same_trans (h p hp) (g p hp)

theorem Kept.mono {ps qs : List Part} {s t : State} (h : Kept ps s t) (hs : ps ⊆ qs) : Kept qs s t := fun p hp => h p (fun hc => hp (hs hc))

theorem CountOnly.kept {s t : State} (h : CountOnly s t) : Kept [.pmu, .regs, .hif, .out] s t := by
  obtain ⟨p, r, b, o, rfl⟩ := h
  intro p hp
  cases p <;> first | rfl | simp at hp

theorem MsixAfter.refl (a : List OutMsg) : MsixAfter a a := ⟨[], by simp, by simp⟩

theorem MsixAfter.trans {a b c : List OutMsg} (h : MsixAfter a b) (g : MsixAfter b c) : MsixAfter a c := by
  obtain ⟨r, rfl, hr⟩ := h
  obtain ⟨q, rfl, hq⟩ := g
  exact ⟨r ++ q, by simp, fun m hm => by rcases List.mem_append.mp hm with h | h; exacts [hr m h, hq m h]⟩

theorem sendMsi_out (src : Nat) (s : State) : MsixAfter s.out (sendMsi src s).out := by
  unfold sendMsi
  dsimp only
  split
  · split
    · exact MsixAfter.refl _
    · exact ⟨[.msix _], rfl, by simp⟩
  · exact MsixAfter.refl _

theorem raiseFld_out (src : Nat) (f : Fld) (s : State) : MsixAfter s.out (raiseFld src f s).out := by
  unfold raiseFld notify
  split
  · exact sendMsi_out src (s.setFld f 1)
  · exact MsixAfter.refl _

theorem pmcAdd_out (set i n : Nat) (s : State) : MsixAfter s.out (pmcAdd set i n s).out := by
  unfold pmcAdd
  dsimp only
  split
  · exact raiseFld_out _ _ _
  · exact MsixAfter.refl _

theorem pmuEvent_out (set ev n : Nat) (s : State) : MsixAfter s.out (pmuEvent set ev n s).out := by
  unfold pmuEvent
  split
  · exact MsixAfter.refl _
  · generalize List.range 6 = l
    induction l generalizing s with
    | nil => exact MsixAfter.refl _
    | cons i l ih =>
      rw [List.foldl_cons]
      refine MsixAfter.trans ?_ (ih _)
      split
      · exact pmcAdd_out ..
      · exact MsixAfter.refl _

theorem firstErr_append (a b : List Check) (h : firstErr a = none) : firstErr (a ++ b) = firstErr b := by
  induction a with
  | nil => rfl
  | cons x t ih =>
    cases x with
    | none => exact ih h
    | some e => simp [firstErr] at h

theorem firstErr_filter (p : Check → Bool) : ∀ {l : List Check}, firstErr l = none → firstErr (l.filter p) = none
  | [], _ => rfl
  | none :: t, h => by
    rw [List.filter_cons]
    split
    · exact firstErr_filter p (l := t) h
    · exact firstErr_filter p (l := t) h
  | some _ :: _, h => by simp [firstErr] at h

/-- Legal operands, FLAGS and unused bytes pass every step of R18. -/
theorem orderedChecks_none {h : KciHdr} {cs : List Check} (hc : firstErr cs = none) (hf : h.badFlag = false) (he : h.badExtra = false) :
    firstErr (orderedChecks h cs) = none := by
  unfold orderedChecks
  rw [firstErr_append _ _ (firstErr_filter _ hc), hf, he]
  show firstErr (cs ++ [none]) = none
  rw [firstErr_append _ _ hc]; rfl

/-- The state in which an instruction's own checks run: its entry is outstanding. -/
def started (op : Nat) (h : KciHdr) (s : State) : State :=
  if (outPos h.tag op s.hif.outst).isSome then s
  else s.setHif (fun x => { x with outst := x.outst ++ [⟨h.tag, op, if h.fence then 0x8000 else 0⟩] })

theorem started_is (op : Nat) (h : KciHdr) (s : State) : ∃ o, started op h s = { s with hif := { s.hif with outst := o } } := by
  unfold started
  split
  · exact ⟨_, rfl⟩
  · exact ⟨_, rfl⟩

/-- An instruction that may run, with legal operands, has what its own part answers. -/
theorem kci_run {op : Nat} {h : KciHdr} {key : Option (Nat × Nat)} {operands : State → List Check} {f : State → KciRes} {s : State}
    (hr : kciReady op h key s = true) (hc : firstErr (operands (started op h s)) = none) :
    kci op h key operands f s = kciEnd op h key (f (started op h s)) := by
  unfold kciReady at hr
  simp only [Bool.and_eq_true, Bool.not_eq_true', Bool.or_eq_true, beq_iff_eq] at hr
  obtain ⟨⟨⟨⟨⟨⟨h1, h2⟩, h3⟩, h4⟩, h5⟩, -⟩, -⟩ := hr
  unfold kci
  rw [h1]
  simp only [Bool.not_true, Bool.false_eq_true, if_false, h2]
  have ho : (started op h s).hif.isOpen = s.hif.isOpen := by
    obtain ⟨o, e⟩ := started_is op h s; rw [e]
  change kciEnd op h key (if !(started op h s).hif.isOpen && op != 0x0C01 then kciFail eState (started op h s) else _) = _
  rw [if_neg (by rw [ho]; rcases h4 with h4 | h4 <;> simp [h4])]
  change kciEnd op h key (match firstErr (orderedChecks h (operands (started op h s))) with
    | some e => kciFail e (started op h s) | none => f (started op h s)) = _
  rw [orderedChecks_none hc h2 h3]

theorem outPos_none {tag op : Nat} : ∀ {l : List KciOut}, outPos tag op l = none → ∀ f, dropOut tag op (l ++ [⟨tag, op, f⟩]) = dropOut tag op l
  | [], _, f => by simp [dropOut]
  | o :: t, hn, f => by
    unfold outPos at hn
    split at hn
    · simp at hn
    · next hne =>
      have : outPos tag op t = none := by simpa using hn
      rw [List.cons_append]
      unfold dropOut
      rw [if_neg hne, if_neg hne, outPos_none this]

theorem dropOut_started (op : Nat) (h : KciHdr) (s : State) : dropOut h.tag op (started op h s).hif.outst = dropOut h.tag op s.hif.outst := by
  unfold started
  split
  · rfl
  · next hn => exact outPos_none (by simpa using hn) _

theorem sendMsi_kept (src : Nat) (s : State) : Kept [.hif, .out] s (sendMsi src s) := by
  intro p hp
  unfold sendMsi
  dsimp only
  split
  · split
    · cases p <;> first | rfl | simp at hp
    · cases p <;> first | rfl | simp at hp
  · exact Kept.refl [] s p (by simp)

theorem raiseFld_kept (src : Nat) (f : Fld) (s : State) : Kept [.regs, .hif, .out] s (raiseFld src f s) := by
  have h0 : Kept [.regs, .hif, .out] s (s.setFld f 1) := by
    intro p hp
    cases p <;> first | rfl | simp at hp
  unfold raiseFld notify
  split
  · exact h0.trans ((sendMsi_kept _ _).mono (by decide))
  · exact h0

theorem cqWrite_kept (tag op st : Nat) (r : List Nat) (u : State) : Kept [.regs, .hif, .out] u (cqWrite tag op st r u) := by
  unfold cqWrite
  dsimp only
  refine Kept.trans ?_ (raiseFld_kept _ _ _)
  intro p hp
  cases p <;> first | rfl | simp at hp

/-- What a state after an instruction's own effect is to the state before it. -/
structure Quiet (op : Nat) (h : KciHdr) (sent : List OutMsg) (as : List Nat) (s u : State) : Prop where
  out   : ∃ a, MsixAfter s.out a ∧ MsixAfter (a ++ sent) u.out
  phase : u.hif.phase = s.hif.phase
  outst : u.hif.outst = (started op h s).hif.outst
  waits : u.hif.waits = s.hif.waits
  isOpen : u.hif.isOpen = (s.hif.isOpen || op == 0x0C01)
  rest  : u.hif.flowEv = s.hif.flowEv ∧ u.hif.msix = s.hif.msix ∧ u.hif.smbOff = s.hif.smbOff ∧ u.hif.rd = s.hif.rd
  regs  : RegsKept as s u

theorem raiseFld_self (src : Nat) (f : Fld) (h : f.lo + f.w ≤ 32) (hw : 0 < f.w) (s : State) : (raiseFld src f s).flag f = true := by
  have hf : ∀ t : State, (∀ b, t.reg b = (s.setFld f 1).reg b) → t.flag f = true := by
    intro t ht
    unfold State.flag State.fld
    rw [ht]
    change ((s.setFld f 1).fld f != 0) = true
    rw [State.fld_setFld_self _ f h, Nat.mod_eq_of_lt (Nat.one_lt_two_pow (by omega))]; rfl
  unfold raiseFld notify
  split
  · exact hf _ (fun b => sendMsi_reg ..)
  · exact hf _ (fun _ => rfl)

theorem sendMsi_hif (src : Nat) (s : State) : ∃ b, (sendMsi src s).hif = { s.hif with pba := b } := by
  unfold sendMsi; dsimp only; split
  · split
    · exact ⟨_, rfl⟩
    · exact ⟨s.hif.pba, rfl⟩
  · exact ⟨s.hif.pba, rfl⟩

theorem CountOnly.hif {s t : State} (h : CountOnly s t) : ∃ b, t.hif = { s.hif with pba := b } := by
  obtain ⟨p, r, b, o, rfl⟩ := h; exact ⟨b, rfl⟩

/-- A completion that goes out at once. -/
theorem cqWrite_done {op : Nat} {h : KciHdr} {key : Option (Nat × Nat)} {sent : List OutMsg} {as : List Nat} {s u : State} (st : Nat) (r : List Nat)
    (hr : kciReady op h key s = true) (q : Quiet op h sent as s u)
    (ha : fHifCqHeadIndex.addr ∉ as ∧ fHifIntStat.addr ∉ as ∧ fHifCqSizeEntries.addr ∉ as) :
    Done op h st r sent as s (cqWrite h.tag op st r u) := by
  unfold kciReady at hr
  simp only [Bool.and_eq_true, decide_eq_true_eq] at hr
  obtain ⟨⟨-, hz⟩, hm⟩ := hr
  have fh : u.fld fHifCqHeadIndex = s.fld fHifCqHeadIndex := by unfold State.fld; rw [q.regs _ ha.1]
  have fz : u.fld fHifCqSizeEntries = s.fld fHifCqSizeEntries := by unfold State.fld; rw [q.regs _ ha.2.2]
  unfold cqWrite
  rw [fh, fz, q.phase]
  dsimp only
  generalize hv : ((u.setHif (fun x => { x with outst := dropOut h.tag op x.outst, phase := if s.fld fHifCqHeadIndex + 1 = s.fld fHifCqSizeEntries then !s.hif.phase else s.hif.phase })).setFld
    fHifCqHeadIndex ((s.fld fHifCqHeadIndex + 1) % s.fld fHifCqSizeEntries)).emit
    (.completion (s.fld fHifCqHeadIndex) h.tag op st s.hif.phase r) = v
  have hvo : v.out = u.out ++ [.completion (s.fld fHifCqHeadIndex) h.tag op st s.hif.phase r] := by rw [← hv]; rfl
  have hvh : v.hif = { u.hif with outst := dropOut h.tag op u.hif.outst, phase := if s.fld fHifCqHeadIndex + 1 = s.fld fHifCqSizeEntries then !s.hif.phase else s.hif.phase } := by
    rw [← hv]; rfl
  have hvr : ∀ b, b ≠ fHifCqHeadIndex.addr → v.reg b = u.reg b := by
    intro b hb; rw [← hv, State.reg_emit, State.reg_setFld_other _ _ _ hb]; rfl
  have hvf : v.fld fHifCqHeadIndex = (s.fld fHifCqHeadIndex + 1) % s.fld fHifCqSizeEntries := by
    rw [← hv]
    change (State.setFld _ _ _).fld _ = _
    rw [State.fld_setFld_self _ _ (by decide)]
    apply Nat.mod_eq_of_lt
    have := Nat.mod_lt (s.fld fHifCqHeadIndex + 1) hz
    have e : 2 ^ fHifCqHeadIndex.w = 65536 := by decide
    omega
  obtain ⟨b, hb⟩ := (raiseFld_count 0x12 (fHifIntStat.bit 0) v).hif
  refine ⟨(let ⟨a, h1, h2⟩ := q.out; ⟨a, u.out, h1, h2, ?_⟩), ?_, ?_, raiseFld_self _ _ (by decide) (by decide) _, ?_, ?_, ?_, ?_, ?_⟩
  · have := raiseFld_out 0x12 (fHifIntStat.bit 0) v
    rwa [hvo] at this
  · unfold State.fld; rw [raiseFld_reg _ _ _ (by decide)]; exact hvf
  · rw [hb, hvh]
  · rw [hb, hvh]; dsimp only; rw [q.outst, dropOut_started]
  · rw [hb, hvh]; exact q.waits
  · rw [hb, hvh]; exact q.isOpen
  · rw [hb, hvh]; exact q.rest
  · intro a hna
    simp only [List.mem_cons, not_or] at hna
    rw [raiseFld_reg _ (fHifIntStat.bit 0) _ hna.2.1, hvr _ hna.1, q.regs _ hna.2.2]

/-- An instruction that may run and answers at once. -/
theorem kci_done {op : Nat} {h : KciHdr} {key : Option (Nat × Nat)} {operands : State → List Check} {f : State → KciRes} {s u : State} {st : Nat} {r : List Nat}
    {sent : List OutMsg} {as : List Nat} (hr : kciReady op h key s = true) (hc : firstErr (operands (started op h s)) = none)
    (hf : f (started op h s) = .done st r u) (q : Quiet op h sent as s u)
    (ha : fHifCqHeadIndex.addr ∉ as ∧ fHifIntStat.addr ∉ as ∧ fHifCqSizeEntries.addr ∉ as) :
    Done op h st r sent as s (kci op h key operands f s) ∧ Kept [.regs, .hif, .out] u (kci op h key operands f s) := by
  rw [kci_run hr hc, hf]
  unfold kciEnd kciDone
  dsimp only
  have hk : keyWaits key u.hif.waits = false := by
    rw [q.waits]
    unfold kciReady at hr
    simp only [Bool.and_eq_true, Bool.not_eq_true'] at hr
    exact hr.1.1.2
  rw [hk]
  exact ⟨cqWrite_done st r hr q ha, cqWrite_kept _ _ _ _ _⟩

theorem outPos_mem {tag op : Nat} : ∀ {l : List KciOut}, (outPos tag op l).isSome = true → ∃ o ∈ l, o.tag = tag ∧ o.op = op
  | [], h => by simp [outPos] at h
  | o :: t, h => by
    unfold outPos at h
    split at h
    · next e => exact ⟨o, by simp, e⟩
    · obtain ⟨x, hx, e⟩ := outPos_mem (l := t) (by simpa using h)
      exact ⟨x, by simp [hx], e⟩

/-- An instruction that may run and waits. -/
theorem kci_waits {op : Nat} {h : KciHdr} {key : Option (Nat × Nat)} {operands : State → List Check} {f : State → KciRes} {s u : State} {on : WaitOn}
    {as : List Nat} (hr : kciReady op h key s = true) (hc : firstErr (operands (started op h s)) = none)
    (hf : f (started op h s) = .wait on u) (q : Quiet op h [] as s u) (hop : op ≠ 0x0C01) :
    Waits op h key on as s (kci op h key operands f s) ∧ Kept [.hif] u (kci op h key operands f s) := by
  rw [kci_run hr hc, hf]
  unfold kciEnd kciWait
  dsimp only
  refine ⟨⟨?_, ?_, ?_, ?_, ?_⟩, ?_⟩
  · obtain ⟨a, h1, h2⟩ := q.out; rw [List.append_nil] at h2; exact h1.trans h2
  · change u.hif.waits ++ _ = _; rw [q.waits]
  · change ∃ o, _ ∧ _ ∧ o ∈ u.hif.outst ∧ ∀ x ∈ _, x ∈ u.hif.outst
    rw [q.outst]
    unfold started
    split
    · next hs =>
      obtain ⟨o, ho, e1, e2⟩ := outPos_mem hs
      exact ⟨o, e1, e2, ho, fun x hx => hx⟩
    · refine ⟨⟨h.tag, op, if h.fence then 0x8000 else 0⟩, rfl, rfl, by simp [State.setHif], fun x hx => by simp [State.setHif, hx]⟩
  · exact ⟨q.phase, by have := q.isOpen; rwa [show (op == 0x0C01) = false by simpa using hop, Bool.or_false] at this⟩
  · exact q.regs
  · intro p hp; cases p <;> first | rfl | simp at hp

@[simp] theorem firstErr_none (l : List Check) : firstErr (none :: l) = firstErr l := rfl
@[simp] theorem firstErr_nil : firstErr [] = none := rfl
theorem chkRange_ok {x lo hi : Nat} (h1 : lo ≤ x) (h2 : x ≤ hi) : chkRange x lo hi = none := by unfold chkRange; rw [if_pos ⟨h1, h2⟩]
theorem chkNode_ok {n : Nat} (h : n < 262144) : chkNode n = none := chkRange_ok (by omega) (by omega)
theorem chkZero_ok {x : Nat} (h : x ≠ 0) : chkZero x = none := by unfold chkZero; rw [if_neg h]
theorem chk_ok {b : Bool} {e : Nat} (h : b = true) : chk b e = none := by unfold chk; rw [if_pos h]

end Sys2Proof.Machine
end

