-- ==== Sys2Proof/Laws/Mild.lean ====
section
/-!
SUPPORT. Mild.lean: which parts of the state, and which registers, the shared operations change. An operation that is mild sends nothing to the
host but interrupts.
-/

namespace Sys2Proof.Machine

/-- `t` differs from `s` in the parts `ps`, in the registers `as`, in pending interrupt messages and in messages sent. -/
structure Mild (ps : List Part) (as : List Nat) (s t : State) : Prop where
  kept : Kept (.regs :: .hif :: .out :: ps) s t
  hif  : ∃ b, t.hif = { s.hif with pba := b }
  out  : MsixAfter s.out t.out
  regs : RegsKept as s t

theorem Mild.refl (ps : List Part) (as : List Nat) (s : State) : Mild ps as s s :=
  ⟨Kept.refl _ s, ⟨s.hif.pba, rfl⟩, MsixAfter.refl _, fun _ _ => rfl⟩

theorem Mild.trans {ps : List Part} {as : List Nat} {s t u : State} (h : Mild ps as s t) (g : Mild ps as t u) : Mild ps as s u := by
  refine ⟨h.kept.trans g.kept, ?_, h.out.trans g.out, fun a ha => (g.regs a ha).trans (h.regs a ha)⟩
  obtain ⟨b, hb⟩ := h.hif
  obtain ⟨c, hc⟩ := g.hif
  exact ⟨c, by rw [hc, hb]⟩

theorem Mild.mono {ps qs : List Part} {as bs : List Nat} {s t : State} (h : Mild ps as s t) (hp : ps ⊆ qs) (ha : as ⊆ bs) : Mild qs bs s t :=
  ⟨h.kept.mono (by intro p; simp only [List.mem_cons]; rintro (h | h | h | h); exacts [.inl h, .inr (.inl h), .inr (.inr (.inl h)), .inr (.inr (.inr (hp h)))]), h.hif, h.out, fun a hn => h.regs a (fun hc => hn (ha hc))⟩

/-- A change of parts other than registers, the host interface and the messages sent. -/
theorem mild_of {ps : List Part} {s t : State} (h : Kept ps s t) (hr : t.regs = s.regs) (hh : t.hif = s.hif) (ho : t.out = s.out) : Mild ps [] s t :=
  ⟨h.mono (by intro p hp; simp [hp]), ⟨s.hif.pba, by rw [hh]⟩, by rw [ho]; exact MsixAfter.refl _, fun a _ => by unfold State.reg; rw [hr]⟩

theorem setReg_mild (a : Nat) (w : Word) (s : State) : Mild [] [a] s (s.setReg a w) := by
  refine ⟨?_, ⟨s.hif.pba, rfl⟩, MsixAfter.refl _, fun b hb => ?_⟩
  · intro p hp; cases p <;> first | rfl | simp at hp
  · exact State.reg_setReg_other s (by simpa using hb) w

theorem setFld_mild (f : Fld) (v : Nat) (s : State) : Mild [] [f.addr] s (s.setFld f v) := setReg_mild _ _ s

theorem bump_mild (f : Fld) (k : Nat) (s : State) : Mild [] [f.addr] s (s.bump f k) := setReg_mild _ _ s

theorem sendMsi_mild (src : Nat) (s : State) : Mild [] [] s (sendMsi src s) :=
  ⟨(sendMsi_kept src s).mono (by decide), sendMsi_hif src s, sendMsi_out src s, fun a _ => sendMsi_reg src s a⟩

theorem raiseFld_mild (src : Nat) (f : Fld) (s : State) : Mild [] [f.addr] s (raiseFld src f s) :=
  ⟨(raiseFld_kept src f s), (raiseFld_count src f s).hif, raiseFld_out src f s, fun _ ha => raiseFld_reg src f s (by simpa using ha)⟩

theorem pmcAdd_mild (set i n : Nat) (s : State) : Mild [.pmu] [(fPmuOvfPmc set).addr] s (pmcAdd set i n s) := by
  have h0 : Mild [.pmu] [] s { s with pmu := mapInsert set { mapGet ({} : PmuSet) set s.pmu with
      pmc := mapInsert i ((mapGet 0 i (mapGet ({} : PmuSet) set s.pmu).pmc + n) % 2 ^ 48) (mapGet ({} : PmuSet) set s.pmu).pmc } s.pmu } :=
    mild_of (by intro p hp; cases p <;> first | rfl | simp at hp) rfl rfl rfl
  unfold pmcAdd
  dsimp only
  split
  · exact (h0.mono (by simp) (by simp)).trans ((raiseFld_mild _ ((fPmuOvfPmc set).bit i) _).mono (by simp) (by simp [Fld.bit]))
  · exact h0.mono (by simp) (by simp)

theorem foldl_mild {β : Type} {ps : List Part} {as : List Nat} (f : State → β → State) (hf : ∀ s x, Mild ps as s (f s x)) :
    ∀ (l : List β) (s : State), Mild ps as s (l.foldl f s)
  | [], s => Mild.refl _ _ s
  | x :: t, s => (hf s x).trans (foldl_mild f hf t _)

theorem pmuEvent_mild (set ev n : Nat) (s : State) : Mild [.pmu] [(fPmuOvfPmc set).addr] s (pmuEvent set ev n s) := by
  unfold pmuEvent
  split
  · exact Mild.refl _ _ s
  · exact foldl_mild _ (fun s i => by
      split
      · exact pmcAdd_mild set i n s
      · exact Mild.refl _ _ s) _ s

theorem pmuSync_mild (set : Nat) (s : State) : Mild [.pmu] [(fPmuOvfCycle set).addr] s (pmuSync set s) := by
  unfold pmuSync
  extract_lets p held d s'
  have h0 : Mild [.pmu] [] s s' := mild_of (by intro p hp; cases p <;> first | rfl | simp at hp) rfl rfl rfl
  split
  · exact (h0.mono (by simp) (by simp)).trans ((raiseFld_mild _ _ _).mono (by simp) (by simp))
  · exact h0.mono (by simp) (by simp)

/-- Changes of one part apart from registers and the host interface. -/
theorem setBull_mild (s : State) (b : BullSt) : Mild [.bull] [] s { s with bull := b } :=
  mild_of (by intro p hp; cases p <;> first | rfl | simp at hp) rfl rfl rfl

theorem setNode_mild (n : Nat) (d : NodeD) (s : State) : Mild [.bull] [] s (s.setNode n d) := setBull_mild s _

theorem updNode_mild (n : Nat) (f : NodeD → NodeD) (s : State) : Mild [.bull] [] s (s.updNode n f) := by
  unfold State.updNode
  split
  · exact setNode_mild n _ s
  · exact Mild.refl _ _ s

theorem setReadyQ_mild (h c : Nat) (q : List ReadyEnt) (s : State) : Mild [.bull] [] s (s.setReadyQ h c q) := setBull_mild s _

theorem updGen_mild (g : Nat) (f : BeatGen → BeatGen) (s : State) : Mild [.bull] [] s (s.updGen g f) := setBull_mild s _

theorem updClu_mild (n : Nat) (f : Cluster → Cluster) (s : State) : Mild [.clu] [] s (s.updClu n f) :=
  mild_of (by intro p hp; cases p <;> first | rfl | simp at hp) rfl rfl rfl

theorem updCore_mild (n : Nat) (f : Core → Core) (s : State) : Mild [.core] [] s (s.updCore n f) :=
  mild_of (by intro p hp; cases p <;> first | rfl | simp at hp) rfl rfl rfl

theorem setGh_mild (f : GhSt → GhSt) (s : State) : Mild [.gh] [] s (s.setGh f) :=
  mild_of (by intro p hp; cases p <;> first | rfl | simp at hp) rfl rfl rfl

theorem setSeed_mild (f : SeedSt → SeedSt) (s : State) : Mild [.seed] [] s (s.setSeed f) :=
  mild_of (by intro p hp; cases p <;> first | rfl | simp at hp) rfl rfl rfl

theorem setQueue_mild (q : Nat) (x : Queue) (s : State) : Mild [.mq] [] s (s.setQueue q x) :=
  mild_of (by intro p hp; cases p <;> first | rfl | simp at hp) rfl rfl rfl

theorem draw_mild (s : State) : Mild [.free] [] s s.draw.2 :=
  mild_of (by intro p hp; cases p <;> first | rfl | simp at hp) rfl rfl rfl

theorem setPwr_mild (n : Nat) (p : Pwr) (s : State) : Mild [.clu] [] s (setPwr n p s) := updClu_mild n _ s

theorem wakeCluster_mild (n : Nat) (s : State) : Mild [.clu] [] s (wakeCluster n s) := by
  unfold wakeCluster
  dsimp only
  split
  · split
    · exact Mild.refl _ _ s
    · exact updClu_mild n _ s
  · split
    · exact Mild.refl _ _ s
    · exact updClu_mild n _ s
  · exact updClu_mild n _ s
  · exact Mild.refl _ _ s

theorem tryIdle_mild (n : Nat) (s : State) : Mild [.clu] [] s (tryIdle n s) := by
  unfold tryIdle
  dsimp only
  split
  · exact setPwr_mild n _ s
  · exact Mild.refl _ _ s

theorem invalidate_mild (n : Nat) (s : State) : Mild [.gh] [fGhPfWasteCount.addr] s (invalidate n s) := by
  unfold invalidate
  split
  · exact Mild.refl _ _ s
  · dsimp only
    split
    · exact ((setGh_mild _ s).mono (by simp) (by simp)).trans ((bump_mild _ _ _).mono (by simp) (by simp))
    · exact (setGh_mild _ s).mono (by simp) (by simp)

theorem evict_mild (n : Nat) (s : State) : Mild [.gh] [fGhPfWasteCount.addr] s (evict n s) := by
  unfold evict
  split
  · dsimp only
    split
    · exact ((setGh_mild _ s).mono (by simp) (by simp)).trans ((bump_mild _ _ _).mono (by simp) (by simp))
    · exact (setGh_mild _ s).mono (by simp) (by simp)
  · exact invalidate_mild n s

/-- Registers that placing a page-in may change. -/
abbrev pagingRegs : List Nat := [fGhPfWasteCount.addr, fGhIntStatNoslot.addr, fGhPrefetchCount.addr]

theorem placePageIn_mild (n : Nat) (p : PageIn) (s : State) : Mild [.gh] pagingRegs s (placePageIn n p s) := by
  unfold placePageIn
  split
  · dsimp only
    exact (foldl_mild _ (fun s m => (evict_mild m s).mono (by simp) (by simp)) _ s).trans ((setGh_mild _ _).mono (by simp) (by simp))
  · dsimp only
    exact ((setGh_mild _ s).mono (by simp) (by simp)).trans ((raiseFld_mild _ _ _).mono (by simp) (by simp))

theorem startPageIn_mild (n k : Nat) (pre : Bool) (s : State) : Mild [.gh, .clu] pagingRegs s (startPageIn n k pre s) := by
  unfold startPageIn
  extract_lets s1 s2 o s3
  refine Mild.trans (t := s3) ?_ ((placePageIn_mild n _ _).mono (by simp) (by simp))
  refine Mild.trans (t := s2) ?_ ((setGh_mild _ _).mono (by simp) (by simp))
  have h1 : Mild [.gh, .clu] pagingRegs s (wakeCluster (k / 16) (invalidate n s)) :=
    ((invalidate_mild n s).mono (by simp) (by simp)).trans ((wakeCluster_mild _ _).mono (by simp) (by simp))
  unfold s2
  split
  · exact h1.trans ((bump_mild _ _ _).mono (by simp) (by simp))
  · exact h1

theorem prefetch_mild (n : Nat) (s : State) : Mild [.gh, .clu] pagingRegs s (prefetch n s) := by
  unfold prefetch
  split
  · exact Mild.refl _ _ s
  · split
    · exact Mild.refl _ _ s
    · split
      · exact startPageIn_mild _ _ _ s
      · exact Mild.refl _ _ s

/-- What entering a ready store changes beside Bullpen. -/
theorem enterReady_mild (n : Nat) (head byPost : Bool) (s : State) : Mild [.bull, .gh, .clu] pagingRegs s (enterReady n head byPost s) := by
  unfold enterReady
  split
  · exact Mild.refl _ _ s
  · next d _ =>
    extract_lets h e q s1 s2
    have h1 : Mild [.bull, .gh, .clu] pagingRegs s s1 :=
      ((setNode_mild n _ s).mono (by simp) (by simp)).trans ((setReadyQ_mild _ _ _ _).mono (by simp) (by simp))
    have h2 : Mild [.bull, .gh, .clu] pagingRegs s s2 := h1.trans ((wakeCluster_mild _ _).mono (by simp) (by simp))
    split
    · exact h2.trans ((prefetch_mild _ _).mono (by simp) (by simp))
    · exact h2

/-- A node that enters a ready store is READY in its class queue of its HOME cluster, last or first, and no other node changes. -/
theorem enterReady_bull {n : Nat} {s : State} {d : NodeD} (hd : s.node? n = some d) (head byPost : Bool) :
    (enterReady n head byPost s).bull = ((s.setNode n { d with st := .ready, expired := false }).setReadyQ d.set.home d.set.cls
      (if head then ⟨n, s.clk, byPost⟩ :: s.readyQ d.set.home d.set.cls else s.readyQ d.set.home d.set.cls ++ [⟨n, s.clk, byPost⟩])).bull := by
  unfold enterReady
  rw [hd]
  dsimp only
  generalize ((s.setNode n { d with st := .ready, expired := false }).setReadyQ d.set.home d.set.cls
    (if head then ⟨n, s.clk, byPost⟩ :: s.readyQ d.set.home d.set.cls else s.readyQ d.set.home d.set.cls ++ [⟨n, s.clk, byPost⟩])) = v
  have hw : (wakeCluster d.set.home v).bull = v.bull := (wakeCluster_mild d.set.home v).kept .bull (by decide)
  split
  · have hp : (prefetch n (wakeCluster d.set.home v)).bull = (wakeCluster d.set.home v).bull := (prefetch_mild n _).kept .bull (by decide)
    rw [hp, hw]
  · exact hw

theorem leaveReady_mild (n : Nat) (s : State) : Mild [.bull] [] s (leaveReady n s) := by
  unfold leaveReady
  split
  · exact Mild.refl _ _ s
  · exact (setReadyQ_mild _ _ _ s).trans (setNode_mild _ _ _)

/-- Registers that a post may change. -/
abbrev postRegs : List Nat := fBullIntStatPostVoid.addr :: fBullPostVoidCount.addr :: pagingRegs

theorem postNode_mild {n flags : Nat} {s t : State} (h : postNode n flags s = some t) : Mild [.bull, .gh, .clu] postRegs s t := by
  unfold postNode at h
  split at h
  · obtain rfl := Option.some.inj h
    exact ((bump_mild _ _ s).mono (by simp) (by simp)).trans ((raiseFld_mild _ _ _).mono (by simp) (by simp))
  · dsimp only at h
    split at h
    · obtain rfl := Option.some.inj h
      exact (setNode_mild _ _ s).mono (by simp) (by simp)
    · split at h
      · split at h
        · simp at h
        · obtain rfl := Option.some.inj h
          exact ((setNode_mild _ _ s).mono (by simp) (by simp)).trans ((enterReady_mild _ _ _ _).mono (by simp) (by simp))
      · obtain rfl := Option.some.inj h
        exact (setNode_mild _ _ s).mono (by simp) (by simp)
    · obtain rfl := Option.some.inj h
      exact (setNode_mild _ _ s).mono (by simp) (by simp)

theorem kmlArmed_mild (n : Nat) (s : State) : Mild [.kml] [] s (kmlArmed n s) := by
  unfold kmlArmed
  split
  · exact mild_of (by intro p hp; cases p <;> first | rfl | simp at hp) rfl rfl rfl
  · exact Mild.refl _ _ s

theorem armNode_mild {n : Nat} {s t : State} (h : armNode n s = some t) : Mild [.bull, .gh, .clu, .kml] pagingRegs s t := by
  unfold armNode at h
  split at h
  · obtain rfl := Option.some.inj h; exact Mild.refl _ _ s
  · split at h
    · dsimp only at h
      split at h
      · split at h
        · simp at h
        · obtain rfl := Option.some.inj h
          exact (((kmlArmed_mild n s).mono (by simp) (by simp)).trans ((setNode_mild _ _ _).mono (by simp) (by simp))).trans
            ((enterReady_mild _ _ _ _).mono (by simp) (by simp))
      · obtain rfl := Option.some.inj h
        exact ((kmlArmed_mild n s).mono (by simp) (by simp)).trans ((setNode_mild _ _ _).mono (by simp) (by simp))
    · obtain rfl := Option.some.inj h
      exact (setNode_mild _ _ s).mono (by simp) (by simp)
    · obtain rfl := Option.some.inj h
      exact (setNode_mild _ _ s).mono (by simp) (by simp)
    · obtain rfl := Option.some.inj h; exact Mild.refl _ _ s

/-- A mild effect on a state in which an instruction has started, for its completion. -/
theorem Mild.quiet {op : Nat} {h : KciHdr} {ps : List Part} {as : List Nat} {s u : State} (m : Mild ps as (started op h s) u) (hop : op ≠ 0x0C01) :
    Quiet op h [] as s u := by
  obtain ⟨b, hb⟩ := m.hif
  obtain ⟨o, ho⟩ := started_is op h s
  have e : (started op h s).hif = { s.hif with outst := o } := by rw [ho]
  refine ⟨?_, ?_, ?_, ?_, ?_, ?_, ?_⟩
  · have := m.out
    rw [ho] at this
    exact ⟨u.out, this, by rw [List.append_nil]; exact MsixAfter.refl _⟩
  · rw [hb, e]
  · rw [hb]
  · rw [hb, e]
  · rw [hb, e]; simp [hop]
  · rw [hb, e]; exact ⟨rfl, rfl, rfl, rfl⟩
  · intro a ha
    have := m.regs a ha
    rw [ho] at this
    exact this

theorem started_kept (op : Nat) (h : KciHdr) (s : State) : Kept [.hif] s (started op h s) := by
  obtain ⟨o, ho⟩ := started_is op h s
  rw [ho]
  intro p hp; cases p <;> first | rfl | simp at hp

/-- An instruction with a mild effect that may run and answers at once. -/
theorem kci_mild {op : Nat} {h : KciHdr} {key : Option (Nat × Nat)} {operands : State → List Check} {f : State → KciRes} {s u : State} {st : Nat} {r : List Nat}
    {ps : List Part} {as : List Nat} (hr : kciReady op h key s = true) (hc : firstErr (operands (started op h s)) = none)
    (hf : f (started op h s) = .done st r u) (m : Mild ps as (started op h s) u) (hop : op ≠ 0x0C01)
    (ha : fHifCqHeadIndex.addr ∉ as ∧ fHifIntStat.addr ∉ as ∧ fHifCqSizeEntries.addr ∉ as) :
    Done op h st r [] as s (kci op h key operands f s) ∧ Kept (.regs :: .hif :: .out :: ps) s (kci op h key operands f s) ∧
      Kept [.regs, .hif, .out] u (kci op h key operands f s) := by
  obtain ⟨d, k⟩ := kci_done hr hc hf (m.quiet hop) ha
  exact ⟨d, (((started_kept op h s).mono (by simp)).trans m.kept).trans (k.mono (by simp)), k⟩

/-- An instruction that fails changes nothing but what its completion does (R17). -/
theorem kci_fails {op : Nat} {h : KciHdr} {key : Option (Nat × Nat)} {operands : State → List Check} {f : State → KciRes} {s : State} {st : Nat}
    (hr : kciReady op h key s = true) (hc : firstErr (operands (started op h s)) = none)
    (hf : f (started op h s) = kciFail st (started op h s)) (hop : op ≠ 0x0C01) :
    Done op h st [] [] [] s (kci op h key operands f s) ∧ Kept [.regs, .hif, .out] s (kci op h key operands f s) := by
  obtain ⟨a, b, -⟩ := kci_mild (ps := []) (as := []) hr hc hf (Mild.refl _ _ _) hop (by simp)
  exact ⟨a, b⟩

/-- An instruction with a mild effect that waits. -/
theorem kci_wait_mild {op : Nat} {h : KciHdr} {key : Option (Nat × Nat)} {operands : State → List Check} {f : State → KciRes} {s u : State} {on : WaitOn}
    {ps : List Part} {as : List Nat} (hr : kciReady op h key s = true) (hc : firstErr (operands (started op h s)) = none)
    (hf : f (started op h s) = .wait on u) (m : Mild ps as (started op h s) u) (hop : op ≠ 0x0C01) :
    Waits op h key on as s (kci op h key operands f s) ∧ Kept [.hif] u (kci op h key operands f s) :=
  kci_waits hr hc hf (m.quiet hop) hop

/-- A command that is an instruction with a mild effect, may run and answers at once. -/
theorem completes {i : Instr} {op : Nat} {h : KciHdr} {key : Option (Nat × Nat)} {operands : State → List Check} {f : State → KciRes} {s : State}
    (he : exec i s = .next (kci op h key operands f s)) (u : State) (st : Nat) (r : List Nat) (ps : List Part) (as : List Nat)
    (hr : kciReady op h key s = true) (hc : firstErr (operands (started op h s)) = none)
    (hf : f (started op h s) = .done st r u) (m : Mild ps as (started op h s) u) (hop : op ≠ 0x0C01)
    (ha : fHifCqHeadIndex.addr ∉ as ∧ fHifIntStat.addr ∉ as ∧ fHifCqSizeEntries.addr ∉ as) :
    ∃ t, exec i s = .next t ∧ Done op h st r [] as s t ∧ Kept (.regs :: .hif :: .out :: ps) s t ∧ Kept [.regs, .hif, .out] u t :=
  ⟨_, he, kci_mild hr hc hf m hop ha⟩

/-- A command that is an instruction with a mild effect, may run and writes a record to the host. -/
theorem records {i : Instr} {op : Nat} {h : KciHdr} {key : Option (Nat × Nat)} {operands : State → List Check} {f : State → KciRes} {s : State}
    (he : exec i s = .next (kci op h key operands f s)) (u : State) (ws : List Nat) (ps : List Part) (as : List Nat)
    (hr : kciReady op h key s = true) (hc : firstErr (operands (started op h s)) = none)
    (hf : f (started op h s) = .record ws u) (m : Mild ps as (started op h s) u) (hop : op ≠ 0x0C01)
    (ha : fHifCqHeadIndex.addr ∉ as ∧ fHifIntStat.addr ∉ as ∧ fHifCqSizeEntries.addr ∉ as) :
    ∃ t, exec i s = .next t ∧ Done op h 0 [4 * ws.length] [.result h.raddr ws] as s t ∧ Kept (.regs :: .hif :: .out :: ps) s t ∧ Kept [.regs, .hif, .out] u t := by
  have q := m.quiet hop
  have hk : keyWaits key u.hif.waits = false := by
    rw [q.waits]
    unfold kciReady at hr
    simp only [Bool.and_eq_true, Bool.not_eq_true'] at hr
    exact hr.1.1.2
  have e : kci op h key operands f s = cqWrite h.tag op 0 [4 * ws.length] (u.emit (.result h.raddr ws)) := by
    rw [kci_run hr hc, hf]
    unfold kciEnd kciDone
    dsimp only
    rw [if_neg (by rw [State.emit_hif, hk]; simp)]
  have q' : Quiet op h [.result h.raddr ws] as s (u.emit (.result h.raddr ws)) := by
    refine ⟨?_, q.phase, q.outst, q.waits, q.isOpen, q.rest, q.regs⟩
    obtain ⟨a, h1, h2⟩ := q.out
    rw [List.append_nil] at h2
    exact ⟨u.out, h1.trans h2, MsixAfter.refl _⟩
  refine ⟨_, he, ?_, ?_, ?_⟩
  · rw [e]; exact cqWrite_done 0 _ hr q' ha
  · rw [e]
    refine Kept.trans (((started_kept op h s).mono (by simp)).trans m.kept) (Kept.trans (t := u.emit (.result h.raddr ws)) ?_ ((cqWrite_kept _ _ _ _ _).mono (by simp)))
    intro p hp; cases p <;> first | rfl | simp at hp
  · rw [e]
    refine Kept.trans (t := u.emit (.result h.raddr ws)) ?_ (cqWrite_kept _ _ _ _ _)
    intro p hp; cases p <;> first | rfl | simp at hp

/-- A command that is an instruction with a mild effect, may run and waits. -/
theorem waits {i : Instr} {op : Nat} {h : KciHdr} {key : Option (Nat × Nat)} {operands : State → List Check} {f : State → KciRes} {s : State}
    (he : exec i s = .next (kci op h key operands f s)) (u : State) (on : WaitOn) (ps : List Part) (as : List Nat)
    (hr : kciReady op h key s = true) (hc : firstErr (operands (started op h s)) = none)
    (hf : f (started op h s) = .wait on u) (m : Mild ps as (started op h s) u) (hop : op ≠ 0x0C01) :
    ∃ t, exec i s = .next t ∧ Waits op h key on as s t ∧ Kept [.hif] u t :=
  ⟨_, he, kci_wait_mild hr hc hf m hop⟩

/-- What is left alone by a change of some parts, all but registers, the host interface and messages. -/
theorem Kept.drop {ps : List Part} {s t u : State} (h : Kept ps s t) (g : Kept [.regs, .hif, .out] t u) (p : Part)
    (hp : p ∉ ps) (hq : p ∉ [Part.regs, Part.hif, Part.out]) : p.same s u := Part.same_trans (h p hp) (g p hq)

theorem started_node? (op : Nat) (h : KciHdr) (s : State) (n : Nat) : (started op h s).node? n = s.node? n := by
  obtain ⟨o, ho⟩ := started_is op h s; rw [ho]; rfl

theorem started_flag (op : Nat) (h : KciHdr) (s : State) (f : Fld) : (started op h s).flag f = s.flag f := by
  obtain ⟨o, ho⟩ := started_is op h s; rw [ho]; rfl

theorem started_fld (op : Nat) (h : KciHdr) (s : State) (f : Fld) : (started op h s).fld f = s.fld f := by
  obtain ⟨o, ho⟩ := started_is op h s; rw [ho]; rfl

end Sys2Proof.Machine
end

