-- ==== Sys2Proof/Laws/Nodes.lean ====
section
/-!
SUPPORT. Nodes.lean: what loading, unloading, arming, cancelling and posting do to Bullpen's descriptors.
-/

namespace Sys2Proof.Machine

theorem mapFind?_mem {α : Type} {k : Nat} {v : α} : ∀ {m : List (Nat × α)}, mapFind? k m = some v → (k, v) ∈ m
  | [], h => by simp at h
  | (a, w) :: t, h => by
    unfold mapFind? at h
    split at h
    · next e => obtain rfl := Option.some.inj h; rw [e]; simp
    · exact List.mem_cons_of_mem _ (mapFind?_mem h)

theorem node?_set (n j : Nat) (d : NodeD) (s : State) : (s.setNode n d).node? j = if j = n then some d else s.node? j := by
  unfold State.node? State.setNode
  rw [mapFind?_insert]

theorem onlyNode_of {n : Nat} {d : NodeD} {s u t : State} (hu : u = s.setNode n d ∨ (u = s ∧ s.node? n = some d)) (k : Kept [.regs, .hif, .out] u t) : OnlyNode n d s t := by
  have hb : t.bull = u.bull := k .bull (by decide)
  rcases hu with rfl | ⟨rfl, hn⟩
  · refine ⟨by rw [hb]; rfl, ?_, fun j hj => ?_⟩
    · unfold State.node?; rw [hb]; exact mapFind?_insert_self _ _ _
    · unfold State.node?; rw [hb]; exact mapFind?_insert_other hj _ _
  · refine ⟨by rw [hb], ?_, fun j hj => ?_⟩
    · unfold State.node?; rw [hb]; exact hn
    · unfold State.node?; rw [hb]

theorem onlyNode_started {op : Nat} {h : KciHdr} {n : Nat} {d : NodeD} {s t : State} (k : OnlyNode n d (started op h s) t) : OnlyNode n d s t := by
  obtain ⟨o, e⟩ := started_is op h s
  rw [e] at k; exact k

theorem nodeChecks_ok {o : NodeOp} (h : NodeLegal o) : firstErr (nodeChecks o) = none := by
  obtain ⟨h1, h2, h3, h4, h5, h6, h7, h8, h9, h10, h11, h12, h13, h14, h15, h16, h17, h18⟩ := h
  unfold nodeChecks
  rw [chkNode_ok h1, chkZero_ok (by omega), chkRange_ok h2 h3, chkRange_ok (by omega) h4, chkRange_ok (by omega) h5, chkRange_ok (by omega) h6,
    chkRange_ok (by omega) h7, chkRange_ok (by omega) h8, chkNode_ok h9, chkZero_ok (by omega), chkRange_ok h10 h11,
    chkRange_ok (by omega) (show o.prog ≤ W32 - 1 by show o.prog ≤ 4294967295; omega), chkRange_ok (by omega) (show o.account ≤ 4095 by omega)]
  have : chkCtx o.ctx = none := by
    unfold chkCtx
    apply chk_ok
    simp only [Bool.and_eq_true, decide_eq_true_eq]
    exact ⟨⟨⟨⟨h14, h15⟩, h16⟩, h17⟩, h18⟩
  rw [this]; rfl

theorem eraseNode_mild (n : Nat) (s : State) : Mild [.gh, .graphs, .bull, .kml] [fGhPfWasteCount.addr] s (eraseNode n s) := by
  unfold eraseNode
  dsimp only
  refine Mild.trans ((invalidate_mild n s).mono (by simp) (by simp)) (Mild.mono (ps := [.gh, .graphs, .bull, .kml]) (as := []) ?_ (by simp) (by simp))
  exact mild_of (by intro p hp; cases p <;> first | rfl | simp at hp) rfl rfl rfl

theorem invalidate_res (n : Nat) (s : State) : (invalidate n s).gh = { s.gh with res := mapErase n s.gh.res } ∨ ((invalidate n s).gh = s.gh ∧ s.resOf n = none) := by
  unfold invalidate
  split
  · next h => exact .inr ⟨rfl, h⟩
  · left; dsimp only; split <;> rfl

theorem invalidate_resOf (n j : Nat) (s : State) : (invalidate n s).resOf j = if j = n then none else s.resOf j := by
  rcases invalidate_res n s with h | ⟨h, hn⟩
  · unfold State.resOf; rw [h]; exact mapFind?_erase _ _ _
  · unfold State.resOf at *; rw [h]; split
    · next e => rw [e, hn]
    · rfl

theorem graphStep_idle {s : State} (h : noUnload s = true) (g : Nat) : graphStep s g = s := by
  unfold graphStep
  split
  · rfl
  · next x hx =>
    unfold noUnload at h
    have := List.all_eq_true.mp h _ (mapFind?_mem hx)
    rw [if_pos this]

theorem graphsStep_idle {s : State} (h : noUnload s = true) : graphsStep s = s := by
  unfold graphsStep
  generalize s.graphs.map (fun g => g.1) = l
  induction l with
  | nil => rfl
  | cons g t ih => rw [List.foldl_cons, graphStep_idle h]; exact ih

theorem applyCommit_none {n : Nat} {s : State} {d : NodeD} (hd : s.node? n = some d) (hs : d.staged = none) : applyCommit n s = s := by
  unfold applyCommit
  rw [hd]; dsimp only; rw [hs]

/-- A node with nothing staged that becomes DISARMED while no graph unloads. -/
theorem disarm_plain {n : Nat} {s : State} {d : NodeD} (hd : s.node? n = some d) (hs : d.staged = none) (hg : noUnload s = true) :
    disarm n s = s.setNode n { d with st := .disarmed, rerun := false, barred := none } := by
  unfold disarm State.updNode
  rw [hd]
  dsimp only
  rw [applyCommit_none (d := { d with st := .disarmed, rerun := false, barred := none }) (by rw [node?_set, if_pos rfl]) hs]
  exact graphsStep_idle hg

theorem noUnload_started (op : Nat) (h : KciHdr) (s : State) : noUnload (started op h s) = noUnload s := by
  obtain ⟨o, e⟩ := started_is op h s; rw [e]; rfl

theorem storeFull_started (op : Nat) (h : KciHdr) (s : State) (c : Nat) : storeFull (started op h s) c = storeFull s c := by
  obtain ⟨o, e⟩ := started_is op h s; rw [e]; rfl

theorem readied_started (op : Nat) (h : KciHdr) (s : State) (n : Nat) (d d' : NodeD) (b c : Bool) :
    readied n d b c ((started op h s).setNode n d') = readied n d b c (s.setNode n d') := by
  obtain ⟨o, e⟩ := started_is op h s; rw [e]; rfl

theorem storeFull_setNode (n : Nat) (d : NodeD) (s : State) (c : Nat) : storeFull (s.setNode n d) c = storeFull s c := rfl

/-- The host names a node that is loaded and not being unloaded. -/
theorem hostNode_started {op : Nat} {h : KciHdr} {s : State} {n : Nat} {d : NodeD} (hd : s.node? n = some d) (hu : d.unloading = false) :
    hostNode (started op h s) n = some d := by
  unfold hostNode; rw [started_node?, hd]; simp [hu]

theorem readyQ_setReadyQ (s : State) (h c : Nat) (q : List ReadyEnt) (h' c' : Nat) :
    (s.setReadyQ h c q).readyQ h' c' = if 4 * h' + c' = 4 * h + c then q else s.readyQ h' c' := by
  unfold State.readyQ State.setReadyQ
  dsimp only
  split
  · next he =>
    rw [mapGet, mapFind?_erase]
    split
    · next e => rw [List.isEmpty_iff.mp he]; rfl
    · rfl
  · rw [mapGet_insert]

theorem queue_set (q j : Nat) (x : Queue) (s : State) : (s.setQueue q x).queue? j = if j = q then some x else s.queue? j := by
  unfold State.queue? State.setQueue; rw [mapFind?_insert]

theorem started_queue? (op : Nat) (h : KciHdr) (s : State) (n : Nat) : (started op h s).queue? n = s.queue? n := by
  obtain ⟨o, ho⟩ := started_is op h s; rw [ho]; rfl

theorem onlyQueue_of {op : Nat} {h : KciHdr} {q : Nat} {x : Option Queue} {s u t : State} (hu : u.mq = (started op h s).mq ∨ ∃ y, u.mq = mapInsert q y (started op h s).mq ∨ u.mq = mapErase q (started op h s).mq)
    (hq : u.queue? q = x) (k : Kept [.regs, .hif, .out] u t) : OnlyQueue q x s t := by
  have hb : t.mq = u.mq := k .mq (by decide)
  obtain ⟨o, e⟩ := started_is op h s
  rw [e] at hu
  refine ⟨by unfold State.queue?; rw [hb]; exact hq, fun j hj => ?_⟩
  unfold State.queue?
  rw [hb]
  rcases hu with hu | ⟨y, hu | hu⟩ <;> rw [hu]
  · exact mapFind?_insert_other hj _ _
  · exact mapFind?_erase_other hj _

/-- Totals that agree still agree after granules in use are freed, so nothing is reported (R186, R188). -/
theorem totalsGive_eq {n : Nat} {s : State} (h : n ≤ s.seed.ownedA) : totalsGive n s =
    s.setSeed (fun d => { d with freeA := d.freeA + n, ownedA := d.ownedA - n, freeB := d.freeB + n, ownedB := d.ownedB - n }) := by
  unfold totalsGive checkTotals
  rw [if_neg]
  simp only [Bool.and_eq_true, Bool.not_eq_true', not_and, Bool.not_eq_false]
  rintro ⟨-, ha⟩
  unfold totalsAgree at ha ⊢
  simp only [Bool.and_eq_true, beq_iff_eq] at ha ⊢
  obtain ⟨⟨h1, h2⟩, h3⟩ := ha
  refine ⟨⟨?_, ?_⟩, ?_⟩
  · show s.seed.freeA + n = s.seed.freeB + n; rw [h1]
  · show s.seed.ownedA - n = s.seed.ownedB - n; rw [h2]
  · show s.seed.freeA + n + (s.seed.ownedA - n) = poolSize s; omega

/-- Totals that agree still agree after free granules are taken (R186, R188). -/
theorem totalsTake_eq {n : Nat} {s : State} (h : n ≤ s.seed.freeA) : totalsTake n s =
    s.setSeed (fun d => { d with freeA := d.freeA - n, ownedA := d.ownedA + n, freeB := d.freeB - n, ownedB := d.ownedB + n }) := by
  unfold totalsTake checkTotals
  rw [if_neg]
  simp only [Bool.and_eq_true, Bool.not_eq_true', not_and, Bool.not_eq_false]
  rintro ⟨-, ha⟩
  unfold totalsAgree at ha ⊢
  simp only [Bool.and_eq_true, beq_iff_eq] at ha ⊢
  obtain ⟨⟨h1, h2⟩, h3⟩ := ha
  refine ⟨⟨?_, ?_⟩, ?_⟩
  · show s.seed.freeA - n = s.seed.freeB - n; rw [h1]
  · show s.seed.ownedA + n = s.seed.ownedB + n; rw [h2]
  · show s.seed.freeA - n + (s.seed.ownedA + n) = poolSize s; omega

/-- An item whose buffer's granules are counted as in use is freed with nothing reported. -/
theorem freeItem_mild {e : Entry} {s : State} (h : e.nobuf = true ∨ s.granules e.handle ≤ s.seed.ownedA) : Mild [.seed] [] s (freeItem e s) := by
  unfold freeItem
  split
  · exact Mild.refl _ _ s
  · next hn =>
    unfold seedFree acctSub
    dsimp only
    rw [totalsGive_eq (by rcases h with h | h; exacts [absurd h hn, h])]
    exact (setSeed_mild _ s).trans ((setSeed_mild _ _).trans (setSeed_mild _ _))

theorem mapGraphs_mild (f : Graph → Graph) (s : State) : Mild [.graphs] [] s (s.mapGraphs f) :=
  mild_of (by intro p hp; cases p <;> first | rfl | simp at hp) rfl rfl rfl

theorem pend_started (op : Nat) (h : KciHdr) (s : State) (q : Nat) : pendingPops (started op h s) q = pendingPops s q := by
  obtain ⟨o, ho⟩ := started_is op h s; rw [ho]; rfl

theorem queueChecks_ok {o : QueueOp} (h : QueueLegal o) : firstErr (queueChecks o) = none := by
  obtain ⟨h1, h2, h3⟩ := h
  unfold queueChecks
  rw [chkRange_ok (by omega) (show o.queue ≤ 65535 by omega), chkRange_ok (by omega) (show o.account ≤ 4095 by omega), chkRange_ok (show 1 ≤ o.mode by omega) (show o.mode ≤ 3 by omega)]
  rcases h3 with ⟨hm, h4, h5, h6, h7⟩ | ⟨hm, h4, h5⟩
  · rw [if_neg (by omega), chkZero_ok (by omega), chkRange_ok h4 h5, chkRange_ok (by omega) (by omega)]; rfl
  · rw [if_pos hm, chk_ok (by simp only [Bool.or_eq_true, beq_iff_eq]; tauto), chkRange_ok (by omega) (by omega)]; rfl

theorem replayAll_is {q : Nat} {x : Queue} {s : State} (hq : s.queue? q = some x) (hr : x.retained ≠ []) : ∃ y, replayAll q s = s.setQueue q y ∧ Replayed x y := by
  unfold replayAll
  rw [hq]
  dsimp only
  refine ⟨_, rfl, ?_⟩
  obtain ⟨i, t, hi⟩ := List.exists_cons_of_ne_nil hr
  unfold Replayed
  rw [hi]
  simp only [List.map_cons, List.headD_cons, List.modifyHead_cons, List.length_cons, List.length_map, show (W32 : Nat) = 2 ^ 32 from rfl]

theorem nextFreeTimer_none {ts : List (Nat × Timer)} : ∀ {fuel i : Nat}, i < 16384 → nextFreeTimer ts i fuel = none →
    ∀ j, j < fuel → (mapFind? ((i + j) % 16384) ts).isSome = true
  | 0, _, _, _, j, hj => by omega
  | fuel + 1, i, hi, h, j, hj => by
    unfold nextFreeTimer at h
    split at h
    · simp at h
    · next hs =>
      cases j with
      | zero => rw [Nat.add_zero, Nat.mod_eq_of_lt hi]; cases hc : mapFind? i ts <;> simp_all
      | succ j =>
        have := nextFreeTimer_none (Nat.mod_lt _ (by omega)) h j (by omega)
        rwa [show ((i + 1) % 16384 + j) % 16384 = (i + (j + 1)) % 16384 by omega] at this

theorem nextFreeTimer_free {ts : List (Nat × Timer)} : ∀ {fuel i k : Nat}, i < 16384 → nextFreeTimer ts i fuel = some k → k < 16384 ∧ mapFind? k ts = none
  | 0, _, _, _, h => by simp [nextFreeTimer] at h
  | fuel + 1, i, k, hi, h => by
    unfold nextFreeTimer at h
    split at h
    · next hs => obtain rfl := Option.some.inj h; exact ⟨hi, by simpa using hs⟩
    · exact nextFreeTimer_free (Nat.mod_lt _ (by omega)) h

theorem nextFreeTimer_some {ts : List (Nat × Timer)} {i : Nat} (hi : i < 16384) (hl : ts.length < 16384) :
    ∃ k, nextFreeTimer ts i 16384 = some k ∧ k < 16384 ∧ mapFind? k ts = none := by
  cases h : nextFreeTimer ts i 16384 with
  | some k => exact ⟨k, rfl, nextFreeTimer_free hi h⟩
  | none =>
    exfalso
    have hall : ∀ k, k < 16384 → k ∈ ts.map (fun t => t.1) := by
      intro k hk
      have := nextFreeTimer_none hi h ((k + 16384 - i) % 16384) (Nat.mod_lt _ (by omega))
      rw [show (i + (k + 16384 - i) % 16384) % 16384 = k by omega] at this
      obtain ⟨v, hv⟩ := Option.isSome_iff_exists.mp this
      exact List.mem_map.mpr ⟨(k, v), mapFind?_mem hv, rfl⟩
    have hsub : List.range 16384 ⊆ ts.map (fun t => t.1) := fun k hk => hall k (List.mem_range.mp hk)
    have := (List.nodup_range (n := 16384)).subperm hsub |>.length_le
    rw [List.length_range, List.length_map] at this
    omega

end Sys2Proof.Machine
end

