-- ==== Sys2Proof/Laws/Keep.lean ====
section
/-!
SUPPORT. Laws/Keep.lean: what no operation of the device undoes, as one relation between states, with the laws by which it passes through
the operations that meanings are built from.
-/

namespace Sys2Proof.Machine

/-- What every operation leaves true: the queue of commands is untouched, free values are drawn in order, cycles only pass, outputs stay on
record, the fuses lose nothing, and memory keeps its canonical form. -/
structure Keep (s t : State) : Prop where
  pending : t.pending = s.pending
  free    : s.free ≤ t.free
  clk     : s.clk ≤ t.clk
  out     : s.out <+: t.out
  fuses   : FusesKept s t
  mem     : MemoryOk s → MemoryOk t

theorem Keep.refl (s : State) : Keep s s :=
  ⟨rfl, le_refl _, le_refl _, List.prefix_refl _, ⟨le_refl _, fun _ h => h⟩, fun h => h⟩

theorem Keep.trans {a b c : State} (h : Keep a b) (g : Keep b c) : Keep a c :=
  ⟨g.pending.trans h.pending, le_trans h.free g.free, le_trans h.clk g.clk, h.out.trans g.out,
    ⟨le_trans h.fuses.1 g.fuses.1, fun n x => g.fuses.2 n (h.fuses.2 n x)⟩, fun x => g.mem (h.mem x)⟩

variable {a s : State}

/-- A record whose named parts are those of a kept state. -/
theorem Keep.mk_same {f0 f1 f2 f3 f4 f5 f6 f7 f8 f9 f10 f11 f12 f13 f14 f15 f16 f17 f18 f19 f20 f21 f22 f23 f24 f25 f26 f27 f28 f29 f30}
    (h0 : f0 = s.pending) (h1 : f1 = s.free) (h2 : f2 = s.clk) (h3 : f3 = s.out) (h5 : f5 = s.hbm) (h12 : f12 = s.core) (h13 : f13 = s.clu)
    (h18 : f18 = s.glb) (h : Keep a s) :
    Keep a ⟨f0, f1, f2, f3, f4, f5, f6, f7, f8, f9, f10, f11, f12, f13, f14, f15, f16, f17, f18, f19, f20, f21, f22, f23, f24, f25, f26, f27, f28, f29, f30⟩ := by
  subst h0 h1 h2 h3 h5 h12 h13 h18
  exact ⟨h.pending, h.free, h.clk, h.out, h.fuses, h.mem⟩

/-- New fuses, in a record otherwise kept. -/
theorem Keep.glb {g : GlbSt} (h : Keep a s) (hr : s.glb.rollback ≤ g.rollback)
    (hv : ∀ n, SlotFused s n → (mapFind? n g.revoked).isSome = true) : Keep a { s with glb := g } :=
  h.trans ⟨rfl, le_refl _, le_refl _, List.prefix_refl _, ⟨hr, hv⟩, fun x => x⟩

/-- New HBM contents, in canonical form if they were. -/
theorem Keep.hbm {m : List Host.Cell} (h : Keep a s) (hm : MemoryOk s → Memory.wf m = true) : Keep a { s with hbm := m } :=
  h.trans ⟨rfl, le_refl _, le_refl _, List.prefix_refl _, ⟨le_refl _, fun _ x => x⟩, fun x => ⟨hm x, x.2⟩⟩

/-- A core whose local RAM keeps its canonical form. -/
theorem Keep.core' {k : Nat} {f : Core → Core} (h : Keep a s)
    (hf : MemoryOk s → Memory.wf (s.cor k).ram = true → Memory.wf (f (s.cor k)).ram = true) : Keep a (s.updCore k f) := by
  refine h.trans ⟨rfl, le_refl _, le_refl _, List.prefix_refl _, ⟨le_refl _, fun _ x => x⟩, fun x => ⟨x.1, fun j => ?_, x.2.2⟩⟩
  show Memory.wf (mapGet {} j (mapUpd {} k f s.core)).ram = true
  rw [mapGet_upd]
  split
  · exact hf x (x.2.1 k)
  · exact x.2.1 j

theorem Keep.updCore {k : Nat} {f : Core → Core} (h : Keep a s) (hf : ∀ c : Core, Memory.wf c.ram = true → Memory.wf (f c).ram = true) :
    Keep a (s.updCore k f) := h.core' fun _ => hf _

/-- A cluster whose shared RAMs keep their canonical form. -/
theorem Keep.updClu {k : Nat} {f : Cluster → Cluster} (h : Keep a s)
    (hf : ∀ c : Cluster, Memory.wf c.code = true ∧ Memory.wf c.data = true → Memory.wf (f c).code = true ∧ Memory.wf (f c).data = true) :
    Keep a (s.updClu k f) := by
  refine h.trans ⟨rfl, le_refl _, le_refl _, List.prefix_refl _, ⟨le_refl _, fun _ x => x⟩, fun x => ⟨x.1, x.2.1, fun j => ?_⟩⟩
  show Memory.wf (mapGet {} j (mapUpd {} k f s.clu)).code = true ∧ Memory.wf (mapGet {} j (mapUpd {} k f s.clu)).data = true
  rw [mapGet_upd]
  split
  · exact hf _ (x.2.2 k)
  · exact x.2.2 j

theorem Keep.ite {c : Prop} [Decidable c] {x y : State} (h1 : c → Keep a x) (h2 : ¬c → Keep a y) : Keep a (if c then x else y) := by
  split
  · next h => exact h1 h
  · next h => exact h2 h

theorem Keep.snd {β : Type} {x : β} {y : State} (h : Keep a y) : Keep a (x, y).2 := h

theorem Keep.foldl {β : Type} {f : State → β → State} {l : List β} (h : Keep a s) (hf : ∀ t x, Keep a t → Keep a (f t x)) :
    Keep a (l.foldl f s) := by
  induction l generalizing s with
  | nil => exact h
  | cons x t ih => exact ih (hf s x h)

/-- The same over a state with a value beside it. -/
theorem foldPair_keep {β γ : Type} {f : γ × State → β → γ × State} (l : List β) (x : γ × State) (h : Keep a x.2)
    (hf : ∀ x b, Keep a x.2 → Keep a (f x b).2) : Keep a (l.foldl f x).2 := by
  induction l generalizing x with
  | nil => exact h
  | cons b t ih => exact ih _ (hf x b h)

/-- Every state an optional answer holds is kept. -/
def KeepOpt (a : State) (o : Option State) : Prop := ∀ t, o = some t → Keep a t

theorem KeepOpt.none : KeepOpt a none := fun _ h => nomatch h

theorem KeepOpt.some {t : State} (h : Keep a t) : KeepOpt a (some t) := fun _ e => by cases e; exact h

theorem KeepOpt.getD {o : Option State} {t : State} (h : KeepOpt a o) (ht : Keep a t) : Keep a (o.getD t) := by
  cases o with
  | none => exact ht
  | some x => exact h x rfl

/-- Every state the result of an instruction holds is kept. -/
def CoreRes.Kept (a : State) : CoreRes → Prop
  | .done t => Keep a t
  | .jump _ t => Keep a t
  | .skip _ t => Keep a t
  | .stay t => Keep a t
  | .exc _ t => Keep a t

theorem CoreRes.kept_done {t : State} (h : Keep a t) : (CoreRes.done t).Kept a := h
theorem CoreRes.kept_jump {n : Nat} {t : State} (h : Keep a t) : (CoreRes.jump n t).Kept a := h
theorem CoreRes.kept_skip {n : Nat} {t : State} (h : Keep a t) : (CoreRes.skip n t).Kept a := h
theorem CoreRes.kept_stay {t : State} (h : Keep a t) : (CoreRes.stay t).Kept a := h
theorem CoreRes.kept_exc {e : Exc} {t : State} (h : Keep a t) : (CoreRes.exc e t).Kept a := h

/-- Every state a placement holds is kept. -/
def Placed.Kept (a : State) : Placed → Prop
  | .dispatched t => Keep a t
  | .paging t => Keep a t
  | .held t => Keep a t
  | .skipped => True

theorem Placed.kept_dispatched {t : State} (h : Keep a t) : (Placed.dispatched t).Kept a := h
theorem Placed.kept_paging {t : State} (h : Keep a t) : (Placed.paging t).Kept a := h
theorem Placed.kept_held {t : State} (h : Keep a t) : (Placed.held t).Kept a := h
theorem Placed.kept_skipped : Placed.skipped.Kept a := trivial

/-- Every state the outcome of a control instruction holds is kept. -/
def KciRes.Kept (a : State) : KciRes → Prop
  | .done _ _ t => Keep a t
  | .record _ t => Keep a t
  | .wait _ t => Keep a t

theorem KciRes.kept_done {n : Nat} {r : List Nat} {t : State} (h : Keep a t) : (KciRes.done n r t).Kept a := h
theorem KciRes.kept_record {r : List Nat} {t : State} (h : Keep a t) : (KciRes.record r t).Kept a := h
theorem KciRes.kept_wait {w : WaitOn} {t : State} (h : Keep a t) : (KciRes.wait w t).Kept a := h
theorem KciRes.kept_fail {n : Nat} {t : State} (h : Keep a t) : (kciFail n t).Kept a := h
theorem KciRes.kept_ok {t : State} (h : Keep a t) : (kciOk t).Kept a := h

/-- Every next state a command answers is kept. -/
def KeepOut (a : State) (o : Host.Outcome State Fault Refusal) : Prop := ∀ t, o = .next t → Keep a t

theorem KeepOut.next {t : State} (h : Keep a t) : KeepOut a (.next t) := fun _ e => by cases e; exact h

/-! ## Local RAM under the changes of a core -/

@[simp] theorem Core.stick_ram (c : Core) (m : BitVec 20) : (c.stick m).ram = c.ram := rfl
@[simp] theorem Core.setS_ram (c : Core) (i : Nat) (x : RVal) : (c.setS i x).ram = c.ram := by unfold Core.setS; split <;> rfl
@[simp] theorem Core.setV_ram (c : Core) (i l : Nat) (x : RVal) : (c.setV i l x).ram = c.ram := rfl
@[simp] theorem Core.setA_ram (c : Core) (i l : Nat) (x : AVal) : (c.setA i l x).ram = c.ram := rfl
@[simp] theorem Core.setPn_ram (c : Core) (i : Nat) (x : Word) : (c.setPn i x).ram = c.ram := rfl
@[simp] theorem Core.setBl_ram (c : Core) (i : Nat) (x : Word) : (c.setBl i x).ram = c.ram := rfl
@[simp] theorem noteStore_ram (a n : Nat) (c : Core) : (noteStore a n c).ram = c.ram := rfl
@[simp] theorem markDirty_ram (a n : Nat) (c : Core) : (markDirty a n c).ram = c.ram := by unfold markDirty; split <;> rfl
@[simp] theorem addrDone_ram (p : Nat) (x : Addr) (c : Core) : (addrDone p x c).ram = c.ram := by
  unfold addrDone; dsimp only; split <;> split <;> rfl

theorem foldl_ram {β : Type} (f : Core → β → Core) (hf : ∀ c x, (f c x).ram = c.ram) : ∀ (l : List β) (c : Core), (l.foldl f c).ram = c.ram := by
  intro l
  induction l with
  | nil => intro c; rfl
  | cons x t ih => intro c; rw [List.foldl_cons, ih, hf]

@[simp] theorem putVector_ram (d : Nat) (bs : List Byte) (c : Core) : (putVector d bs c).ram = c.ram := by
  unfold putVector; exact foldl_ram _ (fun _ _ => Core.setV_ram ..) _ _

/-- A byte put into local RAM keeps its canonical form. -/
theorem lramPut_wf {c : Core} (h : Memory.wf c.ram = true) (a : Nat) (b : Byte) : Memory.wf (lramPut a b c).ram = true := by
  unfold lramPut
  split
  · exact h
  · exact memWrite_wf h a b

theorem lramPutAll_wf (bs : List Byte) : ∀ {c : Core} (_ : Memory.wf c.ram = true) (a : Nat), Memory.wf (lramPutAll a bs c).ram = true := by
  induction bs with
  | nil => intro c h a; exact h
  | cons b t ih => intro c h a; exact ih (lramPut_wf h a b) (a + 1)

end Sys2Proof.Machine
end

