-- ==== Sys2Proof/Laws/KeepBase.lean ====
section
/-!
SUPPORT. Laws/KeepBase.lean: every operation of registers, interrupts, clocks, resets, Umpire and Seedbed keeps what Keep names.
-/

namespace Sys2Proof.Machine

variable {a s : State}

theorem State.setReg_keep {a' : Nat} {w : Word} (h : Keep a s) : Keep a (State.setReg s a' w) := by
  unfold State.setReg
  repeat' first
    | with_reducible assumption
    | with_reducible refine Keep.ite (fun _ => ?_) (fun _ => ?_)
    | split
    | dsimp only
    | with_reducible refine Keep.mk_same rfl rfl rfl rfl rfl rfl rfl rfl ?_

theorem State.setFld_keep {f : Fld} {v : Nat} (h : Keep a s) : Keep a (State.setFld s f v) := by
  unfold State.setFld
  repeat' first
    | with_reducible assumption
    | with_reducible apply State.setReg_keep

theorem State.bump_keep {f : Fld} {k : Nat} (h : Keep a s) : Keep a (State.bump s f k) := by
  unfold State.bump
  repeat' first
    | with_reducible assumption
    | with_reducible apply State.setFld_keep

theorem State.draw_keep (h : Keep a s) : Keep a (State.draw s).2 :=
  h.trans ⟨rfl, Nat.le_succ _, le_refl _, List.prefix_refl _, ⟨le_refl _, fun _ x => x⟩, fun x => x⟩

theorem State.draw_pair {n : Nat} {t : State} (e : State.draw s = (n, t)) (h : Keep a s) : Keep a t := by
  have := State.draw_keep h; rwa [e] at this

theorem State.emit_keep {m : OutMsg} (h : Keep a s) : Keep a (State.emit s m) :=
  h.trans ⟨rfl, le_refl _, le_refl _, List.prefix_append _ _, ⟨le_refl _, fun _ x => x⟩, fun x => x⟩

theorem sendMsi_keep {src : Nat} (h : Keep a s) : Keep a (sendMsi src s) := by
  unfold sendMsi
  extract_lets v1 v2
  clear_value v1 v2
  repeat' first
    | with_reducible assumption
    | with_reducible apply State.emit_keep
    | with_reducible refine Keep.ite (fun _ => ?_) (fun _ => ?_)
    | extract_lets
    | split
    | dsimp only
    | with_reducible refine Keep.mk_same rfl rfl rfl rfl rfl rfl rfl rfl ?_

theorem notify_keep {src : Nat} {old : State} (h : Keep a s) : Keep a (notify src old s) := by
  unfold notify
  repeat' first
    | with_reducible assumption
    | with_reducible apply sendMsi_keep
    | with_reducible refine Keep.ite (fun _ => ?_) (fun _ => ?_)

theorem raiseFld_keep {src : Nat} {f : Fld} (h : Keep a s) : Keep a (raiseFld src f s) := by
  unfold raiseFld
  repeat' first
    | with_reducible assumption
    | with_reducible apply State.setFld_keep
    | with_reducible apply notify_keep

theorem pmcAdd_keep {set : Nat} {i : Nat} {k : Nat} (h : Keep a s) : Keep a (pmcAdd set i k s) := by
  unfold pmcAdd
  extract_lets v1 v2 s1
  clear_value v1 v2
  have h1 : Keep a s1 := by
    unfold s1
    repeat' first
      | with_reducible assumption
      | with_reducible apply raiseFld_keep
      | with_reducible refine Keep.ite (fun _ => ?_) (fun _ => ?_)
      | extract_lets
      | split
      | dsimp only
      | with_reducible refine Keep.mk_same rfl rfl rfl rfl rfl rfl rfl rfl ?_
  clear_value s1
  repeat' first
    | with_reducible assumption
    | with_reducible apply raiseFld_keep
    | with_reducible refine Keep.ite (fun _ => ?_) (fun _ => ?_)

theorem pmuEvent_keep {set : Nat} {ev : Nat} {k : Nat} (h : Keep a s) : Keep a (pmuEvent set ev k s) := by
  unfold pmuEvent
  repeat' first
    | with_reducible assumption
    | with_reducible apply pmcAdd_keep
    | with_reducible refine Keep.ite (fun _ => ?_) (fun _ => ?_)
    | with_reducible refine Keep.foldl ?_ (fun t x ht => ?_)

theorem pmuSync_keep {set : Nat} (h : Keep a s) : Keep a (pmuSync set s) := by
  unfold pmuSync
  extract_lets v1 v2 v3 s1
  clear_value v1 v2 v3
  have h1 : Keep a s1 := by
    unfold s1
    repeat' first
      | with_reducible assumption
      | with_reducible apply raiseFld_keep
      | with_reducible refine Keep.ite (fun _ => ?_) (fun _ => ?_)
      | extract_lets
      | split
      | dsimp only
      | with_reducible refine Keep.mk_same rfl rfl rfl rfl rfl rfl rfl rfl ?_
  clear_value s1
  repeat' first
    | with_reducible assumption
    | with_reducible apply raiseFld_keep
    | with_reducible refine Keep.ite (fun _ => ?_) (fun _ => ?_)

theorem pmuCoreTime_keep {set : Nat} {k : Nat} (h : Keep a s) : Keep a (pmuCoreTime set k s) := by
  unfold pmuCoreTime
  extract_lets v1
  clear_value v1
  repeat' first
    | with_reducible assumption
    | with_reducible apply pmuEvent_keep
    | with_reducible refine Keep.ite (fun _ => ?_) (fun _ => ?_)
    | with_reducible apply CoreRes.kept_done
    | with_reducible apply KciRes.kept_done
    | with_reducible apply KciRes.kept_wait
    | extract_lets
    | split

theorem stallTime_keep {n : Nat} (h : Keep a s) : Keep a (stallTime n s) := by
  unfold stallTime
  extract_lets v1 s1 s2 s3 s4
  clear_value v1
  have h1 : Keep a s1 := by
    unfold s1
    repeat' first
      | with_reducible assumption
      | with_reducible apply State.bump_keep
      | with_reducible apply pmuEvent_keep
      | with_reducible refine Keep.ite (fun _ => ?_) (fun _ => ?_)
  clear_value s1
  have h2 : Keep a s2 := by
    unfold s2
    repeat' first
      | with_reducible assumption
      | with_reducible apply State.bump_keep
      | with_reducible apply pmuEvent_keep
      | with_reducible refine Keep.ite (fun _ => ?_) (fun _ => ?_)
      | with_reducible refine Keep.foldl ?_ (fun t x ht => ?_)
      | with_reducible apply CoreRes.kept_done
      | with_reducible apply KciRes.kept_done
      | extract_lets
      | split
  clear_value s2
  have h3 : Keep a s3 := by
    unfold s3
    repeat' first
      | with_reducible assumption
      | with_reducible apply State.bump_keep
      | with_reducible apply pmuEvent_keep
      | with_reducible refine Keep.ite (fun _ => ?_) (fun _ => ?_)
  clear_value s3
  have h4 : Keep a s4 := by
    unfold s4
    repeat' first
      | with_reducible assumption
      | with_reducible apply State.bump_keep
      | with_reducible apply pmuEvent_keep
      | with_reducible refine Keep.ite (fun _ => ?_) (fun _ => ?_)
  clear_value s4
  repeat' first
    | with_reducible assumption
    | with_reducible apply State.bump_keep
    | with_reducible apply pmuEvent_keep
    | with_reducible refine Keep.ite (fun _ => ?_) (fun _ => ?_)
    | with_reducible refine Keep.foldl ?_ (fun t x ht => ?_)

theorem Keep.tick {n : Nat} {t : TimeSt} (h : Keep a s) : Keep a { s with clk := s.clk + n, time := t } :=
  h.trans ⟨rfl, le_refl _, Nat.le_add_right _ _, List.prefix_refl _, ⟨le_refl _, fun _ x => x⟩, fun x => x⟩

theorem advance_keep {n : Nat} (h : Keep a s) : Keep a (advance n s) := by
  unfold advance
  refine Keep.ite (fun _ => h) (fun _ => ?_)
  refine Keep.foldl ?_ (fun t x ht => pmuSync_keep ht)
  exact Keep.tick (Keep.foldl (stallTime_keep h) (fun t x ht => pmuCoreTime_keep ht))

theorem advanceTo_keep {target : Nat} (h : Keep a s) : Keep a (advanceTo target s) := by
  unfold advanceTo
  extract_lets v1
  clear_value v1
  repeat' first
    | with_reducible assumption
    | with_reducible apply advance_keep

theorem advanceSince_keep {since : Nat} {cycles : Nat} (h : Keep a s) : Keep a (advanceSince since cycles s) := by
  unfold advanceSince
  repeat' first
    | with_reducible assumption
    | with_reducible apply advance_keep

/-- A state that keeps only the queue, the free values, the clock, the outputs and the fuses is kept: its memories list nothing. -/
theorem Keep.cleared {t : State} (h : Keep a s) (h0 : t.pending = s.pending) (h1 : t.free = s.free) (h2 : t.clk = s.clk) (h3 : t.out = s.out)
    (h4 : t.glb.rollback = s.glb.rollback) (h5 : t.glb.revoked = s.glb.revoked) (h6 : t.hbm = []) (h7 : t.core = []) (h8 : t.clu = []) :
    Keep a t := by
  refine h.trans ⟨h0, h1.ge, h2.ge, h3 ▸ List.prefix_refl _, ⟨h4.ge, fun n x => ?_⟩, fun _ => ?_⟩
  · unfold SlotFused; rw [h5]; exact x
  · unfold MemoryOk State.cor State.cl; rw [h6, h7, h8]; exact ⟨rfl, fun _ => rfl, fun _ => ⟨rfl, rfl⟩⟩

theorem warmReset_keep {cause : RstCause} {boot : Bool} (h : Keep a s) : Keep a (warmReset cause boot s) := by
  unfold warmReset
  extract_lets fatal n before restarts base s2 s3 s4 s5 s6 s7
  have h1 : Keep a base := h.cleared rfl rfl rfl rfl rfl rfl rfl rfl rfl
  clear_value base
  have h6 : Keep a s6 := State.setFld_keep (State.setFld_keep (State.setFld_keep (State.setFld_keep (State.setFld_keep h1))))
  have h7 : Keep a s7 := Keep.ite (fun _ => State.setFld_keep h6) (fun _ => h6)
  exact Keep.ite (fun _ => raiseFld_keep h7) (fun _ => h7)

theorem coldReset_keep {bootPin cool : Bool} (h : Keep a s) : Keep a (coldReset bootPin cool s) :=
  h.cleared rfl rfl rfl rfl rfl rfl rfl rfl rfl

theorem fatalReset_keep {cause : Nat} {source : Nat} (h : Keep a s) : Keep a (fatalReset cause source s) := by
  unfold fatalReset
  extract_lets v1 v2 s1 s2 s3 s4
  clear_value v1 v2
  have h1 : Keep a s1 := by
    unfold s1
    repeat' first
      | with_reducible assumption
      | with_reducible apply State.setFld_keep
  clear_value s1
  have h2 : Keep a s2 := by
    unfold s2
    repeat' first
      | with_reducible assumption
      | with_reducible apply State.setFld_keep
  clear_value s2
  have h3 : Keep a s3 := by
    unfold s3
    repeat' first
      | with_reducible assumption
      | with_reducible apply State.setFld_keep
  clear_value s3
  have h4 : Keep a s4 := by
    unfold s4
    repeat' first
      | with_reducible assumption
      | with_reducible apply State.setFld_keep
  clear_value s4
  repeat' first
    | with_reducible assumption
    | with_reducible apply State.setFld_keep
    | with_reducible apply warmReset_keep

theorem State.hbmWrite_keep {b : Nat} {bs : List Byte} (h : Keep a s) : Keep a (State.hbmWrite s b bs) :=
  h.hbm fun x => memWriteList_wf bs x.1 b

theorem umpWrite_keep {e : UmpEv} {seq : Nat} {mtc : Nat} {rep : Nat} (h : Keep a s) : Keep a (umpWrite e seq mtc rep s) := by
  unfold umpWrite
  extract_lets v1 v2 v3
  clear_value v1 v2 v3
  repeat' first
    | with_reducible assumption
    | with_reducible apply State.setFld_keep
    | with_reducible apply State.bump_keep
    | with_reducible apply raiseFld_keep
    | with_reducible apply State.hbmWrite_keep
    | with_reducible refine Keep.ite (fun _ => ?_) (fun _ => ?_)

theorem umpCount_keep {cls : Nat} (h : Keep a s) : Keep a (umpCount cls s) := by
  unfold umpCount
  repeat' first
    | with_reducible assumption
    | with_reducible apply State.bump_keep
    | with_reducible apply raiseFld_keep
    | split

theorem umpEvent_keep {e : UmpEv} (h : Keep a s) : Keep a (umpEvent e s) := by
  unfold umpEvent
  extract_lets v1 s1 v2
  clear_value v1 v2
  have h1 : Keep a s1 := by
    unfold s1
    repeat' first
      | with_reducible assumption
      | with_reducible apply State.bump_keep
      | with_reducible apply umpWrite_keep
      | with_reducible apply umpCount_keep
  clear_value s1
  repeat' first
    | with_reducible assumption
    | with_reducible apply State.bump_keep
    | with_reducible apply umpWrite_keep
    | with_reducible apply umpCount_keep
    | with_reducible refine Keep.ite (fun _ => ?_) (fun _ => ?_)
    | extract_lets
    | split
    | dsimp only
    | with_reducible refine Keep.mk_same rfl rfl rfl rfl rfl rfl rfl rfl ?_

theorem State.setSeed_keep {f : SeedSt → SeedSt} (h : Keep a s) : Keep a (State.setSeed s f) := by
  unfold State.setSeed
  repeat' first
    | with_reducible assumption
    | dsimp only
    | with_reducible refine Keep.mk_same rfl rfl rfl rfl rfl rfl rfl rfl ?_

theorem acctAdd_keep {a' : Nat} {n : Nat} (h : Keep a s) : Keep a (acctAdd a' n s) := by
  unfold acctAdd
  repeat' first
    | with_reducible assumption
    | with_reducible apply State.setSeed_keep

theorem acctSub_keep {a' : Nat} {n : Nat} (h : Keep a s) : Keep a (acctSub a' n s) := by
  unfold acctSub
  repeat' first
    | with_reducible assumption
    | with_reducible apply State.setSeed_keep

theorem seedFault_keep {f : Fld} {cause : Nat} {node : Nat} {acct : Nat} {h' : Nat} {suspect : Bool} (h : Keep a s) : Keep a (seedFault f cause node acct h' suspect s) := by
  unfold seedFault
  extract_lets s1 s2
  have h1 : Keep a s1 := by
    unfold s1
    repeat' first
      | with_reducible assumption
      | with_reducible apply State.bump_keep
      | with_reducible apply raiseFld_keep
  clear_value s1
  have h2 : Keep a s2 := by
    unfold s2
    repeat' first
      | with_reducible assumption
      | with_reducible apply State.bump_keep
      | with_reducible apply raiseFld_keep
      | with_reducible apply umpEvent_keep
      | with_reducible apply State.setSeed_keep
      | with_reducible refine Keep.ite (fun _ => ?_) (fun _ => ?_)
  clear_value s2
  repeat' first
    | with_reducible assumption
    | with_reducible apply State.bump_keep
    | with_reducible apply raiseFld_keep
    | with_reducible apply umpEvent_keep

theorem mismatch_keep {acct : Nat} (h : Keep a s) : Keep a (mismatch acct s) := by
  unfold mismatch
  repeat' first
    | with_reducible assumption
    | with_reducible apply seedFault_keep

theorem checkTotals_keep {old : State} (h : Keep a s) : Keep a (checkTotals old s) := by
  unfold checkTotals
  repeat' first
    | with_reducible assumption
    | with_reducible apply mismatch_keep
    | with_reducible refine Keep.ite (fun _ => ?_) (fun _ => ?_)
    | with_reducible refine Keep.foldl ?_ (fun t x ht => ?_)
    | (intro c hc; first | exact hc | (simp; done) | (simpa using hc))
    | extract_lets
    | split
    | dsimp only
    | with_reducible refine Keep.mk_same rfl rfl rfl rfl rfl rfl rfl rfl ?_

theorem totalsTake_keep {n : Nat} (h : Keep a s) : Keep a (totalsTake n s) := by
  unfold totalsTake
  repeat' first
    | with_reducible assumption
    | with_reducible apply checkTotals_keep
    | with_reducible apply State.setSeed_keep
    | with_reducible refine Keep.ite (fun _ => ?_) (fun _ => ?_)
    | with_reducible refine Keep.foldl ?_ (fun t x ht => ?_)
    | (intro c hc; first | exact hc | (simp; done) | (simpa using hc))
    | extract_lets
    | split
    | dsimp only
    | with_reducible refine Keep.mk_same rfl rfl rfl rfl rfl rfl rfl rfl ?_

theorem totalsGive_keep {n : Nat} (h : Keep a s) : Keep a (totalsGive n s) := by
  unfold totalsGive
  repeat' first
    | with_reducible assumption
    | with_reducible apply checkTotals_keep
    | with_reducible apply State.setSeed_keep
    | with_reducible refine Keep.ite (fun _ => ?_) (fun _ => ?_)
    | with_reducible refine Keep.foldl ?_ (fun t x ht => ?_)
    | (intro c hc; first | exact hc | (simp; done) | (simpa using hc))
    | extract_lets
    | split
    | dsimp only
    | with_reducible refine Keep.mk_same rfl rfl rfl rfl rfl rfl rfl rfl ?_

theorem seedAlloc_keep {a' : Nat} {n : Nat} {st : GranSt} (h : Keep a s) : Keep a (seedAlloc a' n st s).2 := by
  unfold seedAlloc
  extract_lets v1 s1
  clear_value v1
  have h1 : Keep a s1 := by
    unfold s1
    repeat' first
      | with_reducible assumption
      | with_reducible apply State.bump_keep
      | with_reducible apply State.draw_keep
      | refine State.draw_pair (by assumption) ?_
      | with_reducible apply raiseFld_keep
      | with_reducible apply pmuEvent_keep
      | with_reducible apply State.setSeed_keep
  clear_value s1
  repeat' first
    | with_reducible assumption
    | with_reducible apply State.bump_keep
    | with_reducible apply State.draw_keep
    | refine State.draw_pair (by assumption) ?_
    | with_reducible apply raiseFld_keep
    | with_reducible apply pmuEvent_keep
    | with_reducible apply State.setSeed_keep
    | with_reducible apply acctAdd_keep
    | with_reducible apply totalsTake_keep
    | with_reducible refine Keep.ite (fun _ => ?_) (fun _ => ?_)
    | extract_lets
    | split

theorem seedAlloc_pair {a' : Nat} {n : Nat} {st : GranSt} {x0} {t} (e : seedAlloc a' n st s = (x0, t)) (h : Keep a s) : Keep a t := by
  have := seedAlloc_keep (a' := a') (n := n) (st := st) h; rwa [e] at this

theorem seedFree_keep {h' : Nat} (h : Keep a s) : Keep a (seedFree h' s) := by
  unfold seedFree
  extract_lets v1 v2 v3 s1
  clear_value v1 v2 v3
  have h1 : Keep a s1 := by
    unfold s1
    repeat' first
      | with_reducible assumption
      | with_reducible apply State.setSeed_keep
  clear_value s1
  repeat' first
    | with_reducible assumption
    | with_reducible apply State.setSeed_keep
    | with_reducible apply acctSub_keep
    | with_reducible apply totalsGive_keep

theorem setFirstTag_keep {h' : Nat} {f : Tag → Tag} (h : Keep a s) : Keep a (setFirstTag h' f s) := by
  unfold setFirstTag
  repeat' first
    | with_reducible assumption
    | with_reducible apply State.setSeed_keep

theorem seedMove_keep {h' : Nat} {a' : Nat} (h : Keep a s) : Keep a (seedMove h' a' s) := by
  unfold seedMove
  extract_lets v1 v2 v3 v4 s1
  clear_value v1 v2 v3 v4
  have h1 : Keep a s1 := by
    unfold s1
    repeat' first
      | with_reducible assumption
      | with_reducible apply State.setSeed_keep
  clear_value s1
  repeat' first
    | with_reducible assumption
    | with_reducible apply State.setSeed_keep
    | with_reducible apply acctAdd_keep
    | with_reducible apply acctSub_keep
    | with_reducible apply setFirstTag_keep

theorem seedOwn_keep {h' : Nat} (h : Keep a s) : Keep a (seedOwn h' s) := by
  unfold seedOwn
  extract_lets v1
  clear_value v1
  repeat' first
    | with_reducible assumption
    | with_reducible apply State.setSeed_keep

theorem commitFree_keep {node : Nat} {acct : Nat} {h' : Nat} (h : Keep a s) : Keep a (commitFree node acct h' s) := by
  unfold commitFree
  extract_lets v1
  clear_value v1
  repeat' first
    | with_reducible assumption
    | with_reducible apply seedFree_keep
    | with_reducible apply setFirstTag_keep
    | with_reducible apply seedFault_keep
    | with_reducible refine Keep.ite (fun _ => ?_) (fun _ => ?_)

theorem commitGive_keep {node : Nat} {acct : Nat} {h' : Nat} {a' : Nat} (h : Keep a s) : Keep a (commitGive node acct h' a' s) := by
  unfold commitGive
  repeat' first
    | with_reducible assumption
    | with_reducible apply seedMove_keep
    | with_reducible apply seedFault_keep
    | with_reducible refine Keep.ite (fun _ => ?_) (fun _ => ?_)

theorem undoAlloc_keep {h' : Nat} (h : Keep a s) : Keep a (undoAlloc h' s) := by
  unfold undoAlloc
  extract_lets v1
  clear_value v1
  repeat' first
    | with_reducible assumption
    | with_reducible apply State.bump_keep
    | with_reducible apply seedFree_keep

end Sys2Proof.Machine
end

