-- ==== Sys2Proof/Laws/KeepQueue.lean ====
section
/-!
SUPPORT. Laws/KeepQueue.lean: every operation of media queues, Greenhouse and Bullpen keeps what Keep names.
-/

namespace Sys2Proof.Machine

variable {a s : State}

theorem State.setQueue_keep {q : Nat} {x : Queue} (h : Keep a s) : Keep a (State.setQueue s q x) := by
  unfold State.setQueue
  repeat' first
    | with_reducible assumption
    | dsimp only
    | with_reducible refine Keep.mk_same rfl rfl rfl rfl rfl rfl rfl rfl ?_

theorem freeItem_keep {e : Entry} (h : Keep a s) : Keep a (freeItem e s) := by
  unfold freeItem
  repeat' first
    | with_reducible assumption
    | with_reducible apply seedFree_keep
    | with_reducible refine Keep.ite (fun _ => ?_) (fun _ => ?_)

theorem countLost_keep {q : Nat} (h : Keep a s) : Keep a (countLost q s) := by
  unfold countLost
  repeat' first
    | with_reducible assumption
    | with_reducible apply State.bump_keep
    | with_reducible apply raiseFld_keep
    | with_reducible apply State.setQueue_keep
    | extract_lets
    | split

theorem loseMark_keep {q : Nat} (h : Keep a s) : Keep a (loseMark q s) := by
  unfold loseMark
  repeat' first
    | with_reducible assumption
    | with_reducible apply raiseFld_keep
    | with_reducible apply State.setQueue_keep
    | split

theorem discardHead_keep {q : Nat} (h : Keep a s) : Keep a (discardHead q s) := by
  unfold discardHead
  repeat' first
    | with_reducible assumption
    | with_reducible apply freeItem_keep
    | with_reducible apply State.setQueue_keep
    | with_reducible apply loseMark_keep
    | with_reducible refine Keep.ite (fun _ => ?_) (fun _ => ?_)
    | with_reducible refine Keep.foldl ?_ (fun t x ht => ?_)
    | (intro c hc; first | exact hc | (simp; done) | (simpa using hc))
    | extract_lets
    | split
    | dsimp only
    | with_reducible refine Keep.mk_same rfl rfl rfl rfl rfl rfl rfl rfl ?_

theorem dropOldest_keep {q : Nat} (h : Keep a s) : Keep a (dropOldest q s) := by
  unfold dropOldest
  repeat' first
    | with_reducible assumption
    | with_reducible apply State.setQueue_keep
    | with_reducible apply loseMark_keep
    | with_reducible apply countLost_keep
    | with_reducible apply freeItem_keep
    | with_reducible apply discardHead_keep
    | with_reducible refine Keep.ite (fun _ => ?_) (fun _ => ?_)
    | with_reducible refine Keep.foldl ?_ (fun t x ht => ?_)
    | (intro c hc; first | exact hc | (simp; done) | (simpa using hc))
    | extract_lets
    | split
    | dsimp only
    | with_reducible refine Keep.mk_same rfl rfl rfl rfl rfl rfl rfl rfl ?_

theorem storeAt_keep {q : Nat} {p : Nat} {e : Entry} (h : Keep a s) : Keep a (storeAt q p e s) := by
  unfold storeAt
  extract_lets v1
  clear_value v1
  repeat' first
    | with_reducible assumption
    | with_reducible apply pmuEvent_keep
    | with_reducible apply seedMove_keep
    | with_reducible apply State.setQueue_keep
    | with_reducible refine Keep.ite (fun _ => ?_) (fun _ => ?_)
    | extract_lets
    | split

theorem storeItem_keep {q : Nat} {e : Entry} (h : Keep a s) : Keep a (storeItem q e s) := by
  unfold storeItem
  repeat' first
    | with_reducible assumption
    | with_reducible apply storeAt_keep
    | with_reducible refine Keep.ite (fun _ => ?_) (fun _ => ?_)
    | split

theorem dropIncoming_keep {q : Nat} {e : Entry} (h : Keep a s) : Keep a (dropIncoming q e s) := by
  unfold dropIncoming
  repeat' first
    | with_reducible assumption
    | with_reducible apply freeItem_keep
    | with_reducible apply countLost_keep

theorem pushFull_keep {q : Nat} {e : Entry} (h : Keep a s) : Keep a (pushFull q e s) := by
  unfold pushFull
  extract_lets s1
  have h1 : Keep a s1 := by
    unfold s1
    repeat' first
      | with_reducible assumption
      | with_reducible apply dropOldest_keep
  clear_value s1
  repeat' first
    | with_reducible assumption
    | with_reducible apply dropOldest_keep
    | with_reducible apply storeItem_keep
    | with_reducible apply dropIncoming_keep
    | with_reducible refine Keep.ite (fun _ => ?_) (fun _ => ?_)
    | extract_lets
    | split

theorem asyncFull_keep {q : Nat} {x : Queue} (h : Keep a s) : Keep a (asyncFull q x s).2 := by
  unfold asyncFull
  extract_lets v1
  clear_value v1
  repeat' first
    | with_reducible assumption
    | with_reducible apply State.draw_keep
    | refine State.draw_pair (by assumption) ?_
    | with_reducible refine Keep.ite (fun _ => ?_) (fun _ => ?_)
    | extract_lets
    | split

theorem asyncFull_pair {q : Nat} {x : Queue} {x0} {t} (e : asyncFull q x s = (x0, t)) (h : Keep a s) : Keep a t := by
  have := asyncFull_keep (q := q) (x := x) h; rwa [e] at this

theorem judgedKey_keep {x : Queue} (h : Keep a s) : Keep a (judgedKey x s).2 := by
  unfold judgedKey
  repeat' first
    | with_reducible assumption
    | refine State.draw_pair (by assumption) ?_
    | with_reducible apply State.draw_keep
    | with_reducible refine Keep.ite (fun _ => ?_) (fun _ => ?_)
    | with_reducible refine Keep.foldl ?_ (fun t x ht => ?_)
    | (intro c hc; first | exact hc | (simp; done) | (simpa using hc))
    | extract_lets
    | split
    | dsimp only
    | with_reducible refine Keep.mk_same rfl rfl rfl rfl rfl rfl rfl rfl ?_

theorem judgedKey_pair {x : Queue} {y0} {t} (e : judgedKey x s = (y0, t)) (h : Keep a s) : Keep a t := by
  have := judgedKey_keep (x := x) h; rwa [e] at this

theorem mqPush_keep {q : Nat} {e : Entry} (h : Keep a s) : Keep a (mqPush q e s) := by
  unfold mqPush
  repeat' first
    | with_reducible assumption
    | with_reducible apply pmuEvent_keep
    | with_reducible apply State.setQueue_keep
    | refine judgedKey_pair (by assumption) ?_
    | with_reducible apply judgedKey_keep
    | with_reducible apply freeItem_keep
    | with_reducible apply State.bump_keep
    | with_reducible apply storeItem_keep
    | with_reducible apply dropIncoming_keep
    | with_reducible apply pushFull_keep
    | refine asyncFull_pair (by assumption) ?_
    | with_reducible apply asyncFull_keep
    | with_reducible apply raiseFld_keep
    | with_reducible refine Keep.ite (fun _ => ?_) (fun _ => ?_)
    | with_reducible refine Keep.foldl ?_ (fun t x ht => ?_)
    | (intro c hc; first | exact hc | (simp; done) | (simpa using hc))
    | extract_lets
    | split
    | dsimp only
    | with_reducible refine Keep.mk_same rfl rfl rfl rfl rfl rfl rfl rfl ?_

theorem mqTake_keep {q : Nat} {bound : Option Nat} (h : Keep a s) : Keep a (mqTake q bound s).2 := by
  unfold mqTake
  split
  · exact h
  have hd : Keep a s.draw.2 := State.draw_keep h
  dsimp only
  repeat' first
    | exact h
    | exact hd
    | exact State.setQueue_keep h
    | exact State.setQueue_keep hd
    | exact pmuEvent_keep (State.setQueue_keep h)
    | exact pmuEvent_keep (State.setQueue_keep hd)
    | split

theorem mqTake_pair {q : Nat} {bound : Option Nat} {r : PopRes} {t : State} (e : mqTake q bound s = (r, t)) (h : Keep a s) : Keep a t := by
  have := mqTake_keep (q := q) (bound := bound) h; rwa [e] at this

theorem releaseOldest_keep {q : Nat} (h : Keep a s) : Keep a (releaseOldest q s) := by
  unfold releaseOldest
  repeat' first
    | with_reducible assumption
    | with_reducible apply State.setQueue_keep
    | with_reducible apply freeItem_keep
    | with_reducible apply loseMark_keep
    | with_reducible refine Keep.ite (fun _ => ?_) (fun _ => ?_)
    | extract_lets
    | split

theorem retainItem_keep {q : Nat} {i : Item} (h : Keep a s) : Keep a (retainItem q i s) := by
  unfold retainItem
  extract_lets s1 s2
  have h1 : Keep a s1 := by
    unfold s1
    repeat' first
      | with_reducible assumption
      | with_reducible apply State.setQueue_keep
      | with_reducible apply dropOldest_keep
      | with_reducible apply releaseOldest_keep
      | with_reducible refine Keep.ite (fun _ => ?_) (fun _ => ?_)
      | extract_lets
      | split
  clear_value s1
  have h2 : Keep a s2 := by
    unfold s2
    repeat' first
      | with_reducible assumption
      | with_reducible apply State.setQueue_keep
      | with_reducible apply dropOldest_keep
      | with_reducible apply releaseOldest_keep
      | with_reducible refine Keep.ite (fun _ => ?_) (fun _ => ?_)
      | extract_lets
      | split
  clear_value s2
  repeat' first
    | with_reducible assumption
    | with_reducible apply State.setQueue_keep
    | with_reducible apply dropOldest_keep
    | with_reducible apply releaseOldest_keep
    | with_reducible refine Keep.ite (fun _ => ?_) (fun _ => ?_)
    | extract_lets
    | split

theorem countPop_keep {q : Nat} (h : Keep a s) : Keep a (countPop q s) := by
  unfold countPop
  repeat' first
    | with_reducible assumption
    | with_reducible apply pmuEvent_keep
    | with_reducible apply State.setQueue_keep
    | split

theorem commitPop_keep {q : Nat} {i : Item} {loan : Bool} {acct : Nat} (h : Keep a s) : Keep a (commitPop q i loan acct s) := by
  unfold commitPop
  extract_lets s1 s2
  have h1 : Keep a s1 := by
    unfold s1
    repeat' first
      | with_reducible assumption
      | with_reducible apply seedMove_keep
      | with_reducible apply State.setQueue_keep
      | with_reducible apply retainItem_keep
      | with_reducible apply countPop_keep
  clear_value s1
  have h2 : Keep a s2 := by
    unfold s2
    repeat' first
      | with_reducible assumption
      | with_reducible apply seedMove_keep
      | with_reducible apply State.setQueue_keep
      | with_reducible apply retainItem_keep
      | with_reducible apply countPop_keep
      | with_reducible refine Keep.ite (fun _ => ?_) (fun _ => ?_)
      | extract_lets
      | split
  clear_value s2
  repeat' first
    | with_reducible assumption
    | with_reducible apply seedMove_keep
    | with_reducible apply State.setQueue_keep
    | with_reducible apply retainItem_keep
    | with_reducible apply countPop_keep
    | with_reducible refine Keep.ite (fun _ => ?_) (fun _ => ?_)

theorem mqPopNow_keep {q : Nat} {bound : Option Nat} {acct : Nat} (h : Keep a s) : Keep a (mqPopNow q bound acct s).2.2 := by
  unfold mqPopNow
  extract_lets v1
  clear_value v1
  repeat' first
    | with_reducible assumption
    | with_reducible apply mqTake_keep
    | refine mqTake_pair (by assumption) ?_
    | with_reducible apply commitPop_keep
    | extract_lets
    | split

theorem mqPopNow_pair {q : Nat} {bound : Option Nat} {acct : Nat} {x0} {x1} {t} (e : mqPopNow q bound acct s = (x0, x1, t)) (h : Keep a s) : Keep a t := by
  have := mqPopNow_keep (q := q) (bound := bound) (acct := acct) h; rwa [e] at this

theorem placeMark_keep {q : Nat} (h : Keep a s) : Keep a (placeMark q s) := by
  unfold placeMark
  repeat' first
    | with_reducible assumption
    | with_reducible apply State.setQueue_keep
    | with_reducible apply freeItem_keep
    | with_reducible refine Keep.foldl ?_ (fun t x ht => ?_)
    | extract_lets
    | split

theorem clearMark_keep {q : Nat} (h : Keep a s) : Keep a (clearMark q s) := by
  unfold clearMark
  repeat' first
    | with_reducible assumption
    | with_reducible apply State.setQueue_keep
    | with_reducible apply freeItem_keep
    | with_reducible refine Keep.foldl ?_ (fun t x ht => ?_)
    | extract_lets
    | split

theorem replayAll_keep {q : Nat} (h : Keep a s) : Keep a (replayAll q s) := by
  unfold replayAll
  repeat' first
    | with_reducible assumption
    | with_reducible apply State.setQueue_keep
    | with_reducible refine Keep.ite (fun _ => ?_) (fun _ => ?_)
    | extract_lets
    | split

theorem restoreItems_keep {q : Nat} {items : List Item} {key : Nat × Bool} (h : Keep a s) : Keep a (restoreItems q items key s) := by
  unfold restoreItems
  repeat' first
    | with_reducible assumption
    | with_reducible apply State.bump_keep
    | with_reducible apply State.setQueue_keep
    | with_reducible apply dropOldest_keep
    | with_reducible refine Keep.ite (fun _ => ?_) (fun _ => ?_)
    | with_reducible refine Keep.foldl ?_ (fun t x ht => ?_)
    | extract_lets
    | split

theorem State.setNode_keep {n : Nat} {d : NodeD} (h : Keep a s) : Keep a (State.setNode s n d) := by
  unfold State.setNode
  extract_lets v1
  clear_value v1
  repeat' first
    | with_reducible assumption
    | dsimp only
    | with_reducible refine Keep.mk_same rfl rfl rfl rfl rfl rfl rfl rfl ?_

theorem State.updNode_keep {n : Nat} {f : NodeD → NodeD} (h : Keep a s) : Keep a (State.updNode s n f) := by
  unfold State.updNode
  repeat' first
    | with_reducible assumption
    | with_reducible apply State.setNode_keep
    | split

theorem setPwr_keep {n : Nat} {p : Pwr} (h : Keep a s) : Keep a (setPwr n p s) := by
  unfold setPwr
  extract_lets v1
  clear_value v1
  repeat' first
    | with_reducible assumption
    | with_reducible apply Keep.updClu
    | exact fun _ hc => hc

theorem wakeCluster_keep {n : Nat} (h : Keep a s) : Keep a (wakeCluster n s) := by
  unfold wakeCluster
  extract_lets v1
  clear_value v1
  repeat' first
    | with_reducible assumption
    | with_reducible apply Keep.updClu
    | with_reducible refine Keep.ite (fun _ => ?_) (fun _ => ?_)
    | exact fun _ hc => hc
    | extract_lets
    | split

theorem tryIdle_keep {n : Nat} (h : Keep a s) : Keep a (tryIdle n s) := by
  unfold tryIdle
  extract_lets v1 v2
  clear_value v1 v2
  repeat' first
    | with_reducible assumption
    | with_reducible apply setPwr_keep
    | with_reducible refine Keep.ite (fun _ => ?_) (fun _ => ?_)

theorem State.setGh_keep {f : GhSt → GhSt} (h : Keep a s) : Keep a (State.setGh s f) := by
  unfold State.setGh
  repeat' first
    | with_reducible assumption
    | dsimp only
    | with_reducible refine Keep.mk_same rfl rfl rfl rfl rfl rfl rfl rfl ?_

theorem invalidate_keep {n : Nat} (h : Keep a s) : Keep a (invalidate n s) := by
  unfold invalidate
  extract_lets s1
  have h1 : Keep a s1 := by
    unfold s1
    repeat' first
      | with_reducible assumption
      | with_reducible apply State.bump_keep
      | with_reducible apply State.setGh_keep
  clear_value s1
  repeat' first
    | with_reducible assumption
    | with_reducible apply State.bump_keep
    | with_reducible apply State.setGh_keep
    | with_reducible refine Keep.ite (fun _ => ?_) (fun _ => ?_)
    | extract_lets
    | split

theorem evict_keep {n : Nat} (h : Keep a s) : Keep a (evict n s) := by
  unfold evict
  repeat' first
    | with_reducible assumption
    | with_reducible apply State.setGh_keep
    | with_reducible apply State.bump_keep
    | with_reducible apply invalidate_keep
    | with_reducible refine Keep.ite (fun _ => ?_) (fun _ => ?_)
    | with_reducible refine Keep.foldl ?_ (fun t x ht => ?_)
    | (intro c hc; first | exact hc | (simp; done) | (simpa using hc))
    | extract_lets
    | split
    | dsimp only
    | with_reducible refine Keep.mk_same rfl rfl rfl rfl rfl rfl rfl rfl ?_

theorem invalidateCore_keep {k : Nat} (h : Keep a s) : Keep a (invalidateCore k s) := by
  unfold invalidateCore
  repeat' first
    | with_reducible assumption
    | with_reducible apply invalidate_keep
    | with_reducible refine Keep.foldl ?_ (fun t x ht => ?_)

theorem placePageIn_keep {n : Nat} {p : PageIn} (h : Keep a s) : Keep a (placePageIn n p s) := by
  unfold placePageIn
  repeat' first
    | with_reducible assumption
    | with_reducible apply evict_keep
    | with_reducible apply State.setGh_keep
    | with_reducible apply raiseFld_keep
    | with_reducible refine Keep.ite (fun _ => ?_) (fun _ => ?_)
    | with_reducible refine Keep.foldl ?_ (fun t x ht => ?_)
    | (intro c hc; first | exact hc | (simp; done) | (simpa using hc))
    | extract_lets
    | split
    | dsimp only
    | with_reducible refine Keep.mk_same rfl rfl rfl rfl rfl rfl rfl rfl ?_

theorem startPageIn_keep {n : Nat} {k : Nat} {pre : Bool} (h : Keep a s) : Keep a (startPageIn n k pre s) := by
  unfold startPageIn
  extract_lets s1 s2 v1 s3
  have h1 : Keep a s1 := by
    unfold s1
    repeat' first
      | with_reducible assumption
      | with_reducible apply wakeCluster_keep
      | with_reducible apply invalidate_keep
      | with_reducible apply State.bump_keep
      | with_reducible apply State.setGh_keep
      | with_reducible apply placePageIn_keep
      | with_reducible refine Keep.ite (fun _ => ?_) (fun _ => ?_)
      | with_reducible refine Keep.foldl ?_ (fun t x ht => ?_)
      | (intro c hc; first | exact hc | (simp; done) | (simpa using hc))
      | extract_lets
      | split
      | dsimp only
      | with_reducible refine Keep.mk_same rfl rfl rfl rfl rfl rfl rfl rfl ?_
  clear_value s1
  have h2 : Keep a s2 := by
    unfold s2
    repeat' first
      | with_reducible assumption
      | with_reducible apply wakeCluster_keep
      | with_reducible apply invalidate_keep
      | with_reducible apply State.bump_keep
      | with_reducible apply State.setGh_keep
      | with_reducible apply placePageIn_keep
      | with_reducible refine Keep.ite (fun _ => ?_) (fun _ => ?_)
      | with_reducible refine Keep.foldl ?_ (fun t x ht => ?_)
      | (intro c hc; first | exact hc | (simp; done) | (simpa using hc))
      | extract_lets
      | split
      | dsimp only
      | with_reducible refine Keep.mk_same rfl rfl rfl rfl rfl rfl rfl rfl ?_
  clear_value s2
  have h3 : Keep a s3 := by
    unfold s3
    repeat' first
      | with_reducible assumption
      | with_reducible apply wakeCluster_keep
      | with_reducible apply invalidate_keep
      | with_reducible apply State.bump_keep
      | with_reducible apply State.setGh_keep
      | with_reducible apply placePageIn_keep
      | with_reducible refine Keep.ite (fun _ => ?_) (fun _ => ?_)
      | with_reducible refine Keep.foldl ?_ (fun t x ht => ?_)
      | (intro c hc; first | exact hc | (simp; done) | (simpa using hc))
      | extract_lets
      | split
      | dsimp only
      | with_reducible refine Keep.mk_same rfl rfl rfl rfl rfl rfl rfl rfl ?_
  clear_value s3
  repeat' first
    | with_reducible assumption
    | with_reducible apply wakeCluster_keep
    | with_reducible apply invalidate_keep
    | with_reducible apply State.bump_keep
    | with_reducible apply State.setGh_keep
    | with_reducible apply placePageIn_keep
    | with_reducible refine Keep.ite (fun _ => ?_) (fun _ => ?_)
    | with_reducible refine Keep.foldl ?_ (fun t x ht => ?_)
    | (intro c hc; first | exact hc | (simp; done) | (simpa using hc))
    | extract_lets
    | split
    | dsimp only
    | with_reducible refine Keep.mk_same rfl rfl rfl rfl rfl rfl rfl rfl ?_

theorem prefetch_keep {n : Nat} (h : Keep a s) : Keep a (prefetch n s) := by
  unfold prefetch
  repeat' first
    | with_reducible assumption
    | with_reducible apply startPageIn_keep
    | with_reducible refine Keep.ite (fun _ => ?_) (fun _ => ?_)
    | split

theorem pageCopyIn_keep {d : NodeD} {k sl : Nat} (h : Keep a s) : Keep a (pageCopyIn d k sl s) := by
  unfold pageCopyIn
  refine h.core' fun x hc => ?_
  exact foldl_wf _ (fun m p hm => copyRange_wf x.1 hm _ _ _) _ _ hc

theorem pageCopyOut_keep {d : NodeD} {k sl : Nat} {dirty : List Nat} (h : Keep a s) : Keep a (pageCopyOut d k sl dirty s) :=
  h.hbm fun x => foldl_wf _ (fun m p hm => copyRange_wf (x.2.1 k) hm _ _ _) dirty s.hbm x.1

theorem addTraffic_keep {bytes : Nat} (h : Keep a s) : Keep a (addTraffic bytes s) := by
  unfold addTraffic
  repeat' first
    | with_reducible assumption
    | with_reducible apply State.setGh_keep

theorem State.setHif_keep {f : HifSt → HifSt} (h : Keep a s) : Keep a (State.setHif s f) := by
  unfold State.setHif
  repeat' first
    | with_reducible assumption
    | with_reducible refine Keep.ite (fun _ => ?_) (fun _ => ?_)
    | split
    | dsimp only
    | with_reducible refine Keep.mk_same rfl rfl rfl rfl rfl rfl rfl rfl ?_

theorem cqWrite_keep {tag : Nat} {op : Nat} {status : Nat} {result : List Nat} (h : Keep a s) : Keep a (cqWrite tag op status result s) := by
  unfold cqWrite
  extract_lets v1 v2 v3 s1
  clear_value v1 v2 v3
  have h1 : Keep a s1 := by
    unfold s1
    repeat' first
      | with_reducible assumption
      | with_reducible apply State.setFld_keep
      | with_reducible apply State.emit_keep
      | with_reducible apply raiseFld_keep
      | with_reducible apply State.setHif_keep
  clear_value s1
  repeat' first
    | with_reducible assumption
    | with_reducible apply State.setFld_keep
    | with_reducible apply State.emit_keep
    | with_reducible apply raiseFld_keep

theorem kciDone_keep {tag : Nat} {op : Nat} {key : Option (Nat × Nat)} {status : Nat} {result : List Nat} (h : Keep a s) : Keep a (kciDone tag op key status result s) := by
  unfold kciDone
  repeat' first
    | with_reducible assumption
    | with_reducible apply State.setHif_keep
    | with_reducible apply cqWrite_keep
    | with_reducible refine Keep.ite (fun _ => ?_) (fun _ => ?_)

theorem flushHeld_keep {n : Nat} (h : Keep a s) : Keep a (flushHeld n s) := by
  induction n generalizing s with
  | zero => exact h
  | succ n ih =>
    unfold flushHeld
    split
    · exact ih (cqWrite_keep (State.setHif_keep h))
    · exact h

theorem finishWait_keep {on : WaitOn} {status : Nat} {result : List Nat} (h : Keep a s) : Keep a (finishWait on status result s) := by
  unfold finishWait
  extract_lets v1 s1 s2
  clear_value v1
  have h1 : Keep a s1 := by
    unfold s1
    repeat' first
      | with_reducible assumption
      | with_reducible apply State.setHif_keep
  clear_value s1
  have h2 : Keep a s2 := by
    unfold s2
    repeat' first
      | with_reducible assumption
      | with_reducible apply State.setHif_keep
      | with_reducible apply cqWrite_keep
      | with_reducible apply flushHeld_keep
      | with_reducible refine Keep.ite (fun _ => ?_) (fun _ => ?_)
      | with_reducible refine Keep.foldl ?_ (fun t x ht => ?_)
  clear_value s2
  repeat' first
    | with_reducible assumption
    | with_reducible apply State.setHif_keep
    | with_reducible apply cqWrite_keep
    | with_reducible apply flushHeld_keep

theorem kciWait_keep {tag : Nat} {op : Nat} {key : Option (Nat × Nat)} {on : WaitOn} (h : Keep a s) : Keep a (kciWait tag op key on s) := by
  unfold kciWait
  repeat' first
    | with_reducible assumption
    | with_reducible apply State.setHif_keep

theorem State.mapGraphs_keep {f : Graph → Graph} (h : Keep a s) : Keep a (State.mapGraphs s f) := by
  unfold State.mapGraphs
  repeat' first
    | with_reducible assumption
    | dsimp only
    | intro t ht
    | with_reducible refine Keep.mk_same rfl rfl rfl rfl rfl rfl rfl rfl ?_

theorem eraseNode_keep {n : Nat} (h : Keep a s) : Keep a (eraseNode n s) := by
  unfold eraseNode
  extract_lets s1 s2 s3 v1
  clear_value v1
  have h1 : Keep a s1 := by
    unfold s1
    repeat' first
      | with_reducible assumption
      | with_reducible apply State.setGh_keep
      | with_reducible apply invalidate_keep
  clear_value s1
  have h2 : Keep a s2 := by
    unfold s2
    repeat' first
      | with_reducible assumption
      | with_reducible apply State.setGh_keep
  clear_value s2
  have h3 : Keep a s3 := by
    unfold s3
    repeat' first
      | with_reducible assumption
      | with_reducible apply State.setGh_keep
      | with_reducible apply invalidate_keep
      | with_reducible apply State.mapGraphs_keep
  clear_value s3
  repeat' first
    | with_reducible assumption
    | with_reducible apply State.setGh_keep
    | with_reducible apply invalidate_keep
    | with_reducible apply State.mapGraphs_keep
    | extract_lets
    | dsimp only
    | intro t ht
    | with_reducible refine Keep.mk_same rfl rfl rfl rfl rfl rfl rfl rfl ?_

theorem closeQueue_keep {q : Nat} (h : Keep a s) : Keep a (closeQueue q s).2 := by
  unfold closeQueue
  repeat' first
    | with_reducible assumption
    | with_reducible apply freeItem_keep
    | with_reducible apply State.mapGraphs_keep
    | with_reducible refine Keep.foldl ?_ (fun t x ht => ?_)
    | extract_lets
    | split
    | dsimp only
    | intro t ht
    | with_reducible refine Keep.mk_same rfl rfl rfl rfl rfl rfl rfl rfl ?_

theorem closeQueue_pair {q : Nat} {x0} {t} (e : closeQueue q s = (x0, t)) (h : Keep a s) : Keep a t := by
  have := closeQueue_keep (q := q) h; rwa [e] at this

theorem closeAccount_keep {a' : Nat} (h : Keep a s) : Keep a (closeAccount a' s) := by
  unfold closeAccount
  repeat' first
    | with_reducible assumption
    | with_reducible apply State.setSeed_keep
    | with_reducible apply State.mapGraphs_keep

theorem freeOwned_keep {a' : Nat} (h : Keep a s) : Keep a (freeOwned a' s) := by
  unfold freeOwned
  repeat' first
    | with_reducible assumption
    | with_reducible apply seedFree_keep
    | with_reducible refine Keep.foldl ?_ (fun t x ht => ?_)

theorem dropStage_keep {t' : Nat} (h : Keep a s) : Keep a (dropStage t' s) := by
  unfold dropStage
  repeat' first
    | with_reducible assumption
    | dsimp only
    | with_reducible refine Keep.mk_same rfl rfl rfl rfl rfl rfl rfl rfl ?_

theorem unloadGraphNode_keep {n : Nat} (h : Keep a s) : Keep a (unloadGraphNode s n) := by
  unfold unloadGraphNode
  extract_lets s1
  have h1 : Keep a s1 := by
    unfold s1
    repeat' first
      | with_reducible assumption
      | with_reducible apply State.setNode_keep
      | with_reducible apply eraseNode_keep
      | with_reducible apply dropStage_keep
  clear_value s1
  repeat' first
    | with_reducible assumption
    | with_reducible apply State.setNode_keep
    | with_reducible apply eraseNode_keep
    | with_reducible apply dropStage_keep
    | with_reducible refine Keep.ite (fun _ => ?_) (fun _ => ?_)
    | extract_lets
    | split

theorem graphGone_keep {g : Nat} {x : Graph} (h : Keep a s) : Keep a (graphGone g x s) := by
  unfold graphGone
  extract_lets s1 s2
  have h1 : Keep a s1 := by
    unfold s1
    repeat' first
      | with_reducible assumption
      | with_reducible apply finishWait_keep
      | with_reducible apply closeQueue_keep
      | refine closeQueue_pair (by assumption) ?_
      | with_reducible apply closeAccount_keep
      | with_reducible apply freeOwned_keep
      | with_reducible refine Keep.foldl ?_ (fun t x ht => ?_)
  clear_value s1
  have h2 : Keep a s2 := by
    unfold s2
    repeat' first
      | with_reducible assumption
      | with_reducible apply finishWait_keep
      | with_reducible apply closeQueue_keep
      | refine closeQueue_pair (by assumption) ?_
      | with_reducible apply closeAccount_keep
      | with_reducible apply freeOwned_keep
      | with_reducible refine Keep.foldl ?_ (fun t x ht => ?_)
  clear_value s2
  repeat' first
    | with_reducible assumption
    | with_reducible apply finishWait_keep
    | with_reducible apply closeQueue_keep
    | refine closeQueue_pair (by assumption) ?_
    | with_reducible apply closeAccount_keep
    | with_reducible apply freeOwned_keep
    | with_reducible refine Keep.foldl ?_ (fun t x ht => ?_)
    | extract_lets
    | dsimp only
    | intro t ht
    | with_reducible refine Keep.mk_same rfl rfl rfl rfl rfl rfl rfl rfl ?_

theorem graphStep_keep {g : Nat} (h : Keep a s) : Keep a (graphStep s g) := by
  unfold graphStep
  repeat' first
    | with_reducible assumption
    | with_reducible apply unloadGraphNode_keep
    | with_reducible apply graphGone_keep
    | with_reducible refine Keep.ite (fun _ => ?_) (fun _ => ?_)
    | with_reducible refine Keep.foldl ?_ (fun t x ht => ?_)
    | extract_lets
    | split

theorem graphsStep_keep (h : Keep a s) : Keep a (graphsStep s) := by
  unfold graphsStep
  repeat' first
    | with_reducible assumption
    | with_reducible apply graphStep_keep
    | with_reducible refine Keep.foldl ?_ (fun t x ht => ?_)

theorem State.setReadyQ_keep {h' : Nat} {c : Nat} {q : List ReadyEnt} (h : Keep a s) : Keep a (State.setReadyQ s h' c q) := by
  unfold State.setReadyQ
  extract_lets v1
  clear_value v1
  repeat' first
    | with_reducible assumption
    | with_reducible refine Keep.ite (fun _ => ?_) (fun _ => ?_)
    | split
    | dsimp only
    | with_reducible refine Keep.mk_same rfl rfl rfl rfl rfl rfl rfl rfl ?_

theorem enterReady_keep {n : Nat} {head : Bool} {byPost : Bool} (h : Keep a s) : Keep a (enterReady n head byPost s) := by
  unfold enterReady
  repeat' first
    | with_reducible assumption
    | with_reducible apply State.setNode_keep
    | with_reducible apply State.setReadyQ_keep
    | with_reducible apply wakeCluster_keep
    | with_reducible apply prefetch_keep
    | with_reducible refine Keep.ite (fun _ => ?_) (fun _ => ?_)
    | with_reducible refine Keep.foldl ?_ (fun t x ht => ?_)
    | (intro c hc; first | exact hc | (simp; done) | (simpa using hc))
    | extract_lets
    | split
    | dsimp only
    | with_reducible refine Keep.mk_same rfl rfl rfl rfl rfl rfl rfl rfl ?_

theorem leaveReady_keep {n : Nat} (h : Keep a s) : Keep a (leaveReady n s) := by
  unfold leaveReady
  repeat' first
    | with_reducible assumption
    | with_reducible apply State.setNode_keep
    | with_reducible apply State.setReadyQ_keep
    | extract_lets
    | split

theorem voidPost_keep (h : Keep a s) : Keep a (voidPost s) := by
  unfold voidPost
  repeat' first
    | with_reducible assumption
    | with_reducible apply raiseFld_keep
    | with_reducible apply State.bump_keep
    | with_reducible refine Keep.ite (fun _ => ?_) (fun _ => ?_)
    | with_reducible refine Keep.foldl ?_ (fun t x ht => ?_)
    | (intro c hc; first | exact hc | (simp; done) | (simpa using hc))
    | extract_lets
    | split
    | dsimp only
    | with_reducible refine Keep.mk_same rfl rfl rfl rfl rfl rfl rfl rfl ?_

theorem postNode_keep {n : Nat} {flags : Nat} (h : Keep a s) : KeepOpt a (postNode n flags s) := by
  unfold postNode
  repeat' first
    | with_reducible assumption
    | with_reducible apply voidPost_keep
    | with_reducible apply State.setNode_keep
    | with_reducible apply enterReady_keep
    | with_reducible refine Keep.ite (fun _ => ?_) (fun _ => ?_)
    | with_reducible refine Keep.foldl ?_ (fun t x ht => ?_)
    | (intro c hc; first | exact hc | (simp; done) | (simpa using hc))
    | with_reducible exact KeepOpt.none
    | with_reducible apply KeepOpt.some
    | extract_lets
    | split
    | dsimp only
    | with_reducible refine Keep.mk_same rfl rfl rfl rfl rfl rfl rfl rfl ?_

theorem postNode_some {n : Nat} {flags : Nat} {t} (e : postNode n flags s = some t) (h : Keep a s) : Keep a t := postNode_keep h t e

theorem kmlArmed_keep {n : Nat} (h : Keep a s) : Keep a (kmlArmed n s) := by
  unfold kmlArmed
  repeat' first
    | with_reducible assumption
    | with_reducible refine Keep.ite (fun _ => ?_) (fun _ => ?_)
    | with_reducible refine Keep.foldl ?_ (fun t x ht => ?_)
    | (intro c hc; first | exact hc | (simp; done) | (simpa using hc))
    | extract_lets
    | split
    | dsimp only
    | with_reducible refine Keep.mk_same rfl rfl rfl rfl rfl rfl rfl rfl ?_

theorem armNode_keep {n : Nat} (h : Keep a s) : KeepOpt a (armNode n s) := by
  unfold armNode
  repeat' first
    | with_reducible assumption
    | with_reducible apply kmlArmed_keep
    | with_reducible apply enterReady_keep
    | with_reducible apply State.setNode_keep
    | with_reducible refine Keep.ite (fun _ => ?_) (fun _ => ?_)
    | with_reducible refine Keep.foldl ?_ (fun t x ht => ?_)
    | (intro c hc; first | exact hc | (simp; done) | (simpa using hc))
    | with_reducible exact KeepOpt.none
    | with_reducible apply KeepOpt.some
    | extract_lets
    | split
    | dsimp only
    | with_reducible refine Keep.mk_same rfl rfl rfl rfl rfl rfl rfl rfl ?_

theorem armNode_some {n : Nat} {t} (e : armNode n s = some t) (h : Keep a s) : Keep a t := armNode_keep h t e

theorem overlay_wf {m : List Host.Cell} (h : Memory.wf m = true) (base : Nat) (bs : List (Nat × Byte)) : Memory.wf (overlay base bs m) = true :=
  foldl_wf _ (fun _ x hm => memWrite_wf hm (base + x.1) x.2) bs m h

theorem commitPages_keep {n : Nat} {d : NodeD} (h : Keep a s) : Keep a (commitPages n d s).1 := by
  unfold commitPages
  extract_lets ps hbm s1 s2 sel
  split
  · exact h
  have h1 : Keep a s1 := h.hbm fun x =>
    foldl_wf _ (fun m p hm => overlay_wf (copyRange_wf hm hm _ _ _) _ _) ps s.hbm x.1
  clear_value s1
  have h2 : Keep a s2 := by
    unfold s2
    split
    · exact h1.updCore fun c hc => foldl_wf _ (fun m p hm => overlay_wf hm _ _) ps c.ram hc
    · exact h1
  exact pmuEvent_keep (State.bump_keep h2)

theorem commitPages_pair {n : Nat} {d e : NodeD} {t : State} (q : commitPages n d s = (t, e)) (h : Keep a s) : Keep a t := by
  have := commitPages_keep (n := n) (d := d) h; rwa [q] at this

theorem applyCommit_keep {n : Nat} (h : Keep a s) : Keep a (applyCommit n s) := by
  unfold applyCommit
  repeat' first
    | with_reducible assumption
    | with_reducible apply State.setNode_keep
    | with_reducible apply finishWait_keep
    | with_reducible apply commitPages_keep
    | refine commitPages_pair (by assumption) ?_
    | extract_lets
    | split

theorem disarm_keep {n : Nat} (h : Keep a s) : Keep a (disarm n s) := by
  unfold disarm
  repeat' first
    | with_reducible assumption
    | with_reducible apply State.updNode_keep
    | with_reducible apply graphsStep_keep
    | with_reducible apply applyCommit_keep

theorem cancelNode_keep {n : Nat} (h : Keep a s) : Keep a (cancelNode n s) := by
  unfold cancelNode
  repeat' first
    | with_reducible assumption
    | with_reducible apply State.bump_keep
    | with_reducible apply State.draw_keep
    | refine State.draw_pair (by assumption) ?_
    | with_reducible apply State.setNode_keep
    | with_reducible apply tryIdle_keep
    | with_reducible apply leaveReady_keep
    | with_reducible apply disarm_keep
    | with_reducible refine Keep.ite (fun _ => ?_) (fun _ => ?_)
    | extract_lets
    | split

theorem deliver_keep {n : Nat} {k : Nat} {hit : Bool} (h : Keep a s) : Keep a (deliver n k hit s) := by
  unfold deliver
  extract_lets s1 v1
  clear_value v1
  have h1 : Keep a s1 := by
    unfold s1
    repeat' first
      | with_reducible assumption
      | with_reducible apply State.bump_keep
      | with_reducible apply State.draw_keep
      | refine State.draw_pair (by assumption) ?_
      | with_reducible apply pmuEvent_keep
      | with_reducible apply State.setNode_keep
      | with_reducible apply setPwr_keep
      | with_reducible apply State.setGh_keep
      | with_reducible apply leaveReady_keep
      | with_reducible apply applyCommit_keep
  clear_value s1
  repeat' first
    | with_reducible assumption
    | with_reducible apply State.bump_keep
    | with_reducible apply State.draw_keep
    | refine State.draw_pair (by assumption) ?_
    | with_reducible apply pmuEvent_keep
    | with_reducible apply State.setNode_keep
    | with_reducible apply setPwr_keep
    | with_reducible apply State.setGh_keep
    | with_reducible apply leaveReady_keep
    | with_reducible apply applyCommit_keep
    | with_reducible apply Keep.updCore
    | with_reducible refine Keep.ite (fun _ => ?_) (fun _ => ?_)
    | exact fun _ hc => hc
    | extract_lets
    | split

theorem placeLocal_keep {c n : Nat} (h : Keep a s) : (placeLocal s c n).Kept a := by
  have page : ∀ ks : List Nat, (match ks with
      | k :: _ => Placed.paging (startPageIn n k false (s.updNode n (fun d => { d with hold := none })))
      | [] => .skipped).Kept a := by
    intro ks
    split
    · exact startPageIn_keep (State.updNode_keep h)
    · trivial
  unfold placeLocal
  split
  · trivial
  dsimp only
  repeat' first
    | trivial
    | exact page _
    | exact deliver_keep h
    | exact State.bump_keep (State.updNode_keep h)
    | split

theorem placeLocal_dispatched {c n : Nat} {t : State} (e : placeLocal s c n = .dispatched t) (h : Keep a s) : Keep a t := by
  have := placeLocal_keep (c := c) (n := n) h; rwa [e] at this

theorem placeLocal_paging {c n : Nat} {t : State} (e : placeLocal s c n = .paging t) (h : Keep a s) : Keep a t := by
  have := placeLocal_keep (c := c) (n := n) h; rwa [e] at this

theorem placeLocal_held {c n : Nat} {t : State} (e : placeLocal s c n = .held t) (h : Keep a s) : Keep a t := by
  have := placeLocal_keep (c := c) (n := n) h; rwa [e] at this

theorem scanLocal_keep {c : Nat} {l : List Nat} (h : Keep a s) : KeepOpt a (scanLocal c l s).1 ∧ Keep a (scanLocal c l s).2 := by
  induction l generalizing s with
  | nil => exact ⟨KeepOpt.none, h⟩
  | cons n t ih =>
    unfold scanLocal
    split
    · next e => exact ⟨KeepOpt.some (placeLocal_dispatched e h), placeLocal_dispatched e h⟩
    · next e => exact ⟨KeepOpt.some (placeLocal_paging e h), placeLocal_paging e h⟩
    · next e => exact ih (placeLocal_held e h)
    · exact ih h

theorem scanLocal_some {c : Nat} {l : List Nat} {t x : State} (e : scanLocal c l s = (some t, x)) (h : Keep a s) : Keep a t := by
  have := (scanLocal_keep (c := c) (l := l) h).1; rw [e] at this; exact this t rfl

theorem scanLocal_rest {c : Nat} {l : List Nat} {o : Option State} {x : State} (e : scanLocal c l s = (o, x)) (h : Keep a s) : Keep a x := by
  have := (scanLocal_keep (c := c) (l := l) h).2; rwa [e] at this

theorem stealTo_keep {k : Nat} {n : Nat} (h : Keep a s) : Keep a (stealTo k n s) := by
  unfold stealTo
  repeat' first
    | with_reducible assumption
    | with_reducible apply startPageIn_keep
    | with_reducible apply deliver_keep
    | with_reducible refine Keep.ite (fun _ => ?_) (fun _ => ?_)
    | split

theorem stealFor_keep {h' : Nat} (h : Keep a s) : Keep a (stealFor h' s) := by
  unfold stealFor
  repeat' first
    | with_reducible assumption
    | with_reducible apply stealTo_keep
    | with_reducible refine Keep.ite (fun _ => ?_) (fun _ => ?_)
    | with_reducible refine Keep.foldl ?_ (fun t x ht => ?_)
    | (intro c hc; first | exact hc | (simp; done) | (simpa using hc))
    | extract_lets
    | split
    | dsimp only
    | with_reducible refine Keep.mk_same rfl rfl rfl rfl rfl rfl rfl rfl ?_

theorem dispatchCluster_keep {h' : Nat} (h : Keep a s) : Keep a (dispatchCluster h' s) := by
  unfold dispatchCluster
  repeat' first
    | with_reducible assumption
    | with_reducible apply deliver_keep
    | refine scanLocal_some (by assumption) ?_
    | refine scanLocal_rest (by assumption) ?_
    | with_reducible apply stealFor_keep
    | with_reducible refine Keep.ite (fun _ => ?_) (fun _ => ?_)
    | split

theorem insertTimer_keep {list : Nat} {target : Nat} {flag : Nat} {due : Nat} {dropLate : Bool} {report : Bool} {tag : Nat} (h : Keep a s) : Keep a (insertTimer list target flag due dropLate report tag s).2 := by
  unfold insertTimer
  repeat' first
    | with_reducible assumption
    | with_reducible apply State.draw_keep
    | refine State.draw_pair (by assumption) ?_
    | with_reducible refine Keep.ite (fun _ => ?_) (fun _ => ?_)
    | extract_lets
    | split
    | dsimp only
    | with_reducible refine Keep.mk_same rfl rfl rfl rfl rfl rfl rfl rfl ?_

theorem insertTimer_pair {list : Nat} {target : Nat} {flag : Nat} {due : Nat} {dropLate : Bool} {report : Bool} {tag : Nat} {x0} {t} (e : insertTimer list target flag due dropLate report tag s = (x0, t)) (h : Keep a s) : Keep a t := by
  have := insertTimer_keep (list := list) (target := target) (flag := flag) (due := due) (dropLate := dropLate) (report := report) (tag := tag) h; rwa [e] at this

theorem tcrWrite_keep {id : Nat} {t' : Timer} {late : Bool} {lateness : Nat} {dropped : Bool} (h : Keep a s) : Keep a (tcrWrite id t' late lateness dropped s) := by
  unfold tcrWrite
  extract_lets v1 v2 v3 v4
  clear_value v1 v2 v3 v4
  repeat' first
    | with_reducible assumption
    | with_reducible apply State.setFld_keep
    | with_reducible apply State.bump_keep
    | with_reducible apply raiseFld_keep
    | with_reducible apply State.hbmWrite_keep
    | with_reducible refine Keep.ite (fun _ => ?_) (fun _ => ?_)

theorem fireTimer_keep {id : Nat} {t' : Timer} (h : Keep a s) : Keep a (fireTimer id t' s) := by
  unfold fireTimer
  extract_lets v1 v2 v3 v4 v5
  clear_value v1 v2 v3 v4 v5
  repeat' first
    | with_reducible assumption
    | with_reducible apply State.bump_keep
    | with_reducible apply pmuEvent_keep
    | with_reducible apply State.updNode_keep
    | with_reducible apply postNode_keep
    | refine postNode_some (by assumption) ?_
    | with_reducible apply tcrWrite_keep
    | with_reducible refine Keep.ite (fun _ => ?_) (fun _ => ?_)
    | exact fun _ hc => hc
    | extract_lets
    | split
    | dsimp only
    | intro t ht
    | with_reducible refine Keep.mk_same rfl rfl rfl rfl rfl rfl rfl rfl ?_

theorem State.updGen_keep {g : Nat} {f : BeatGen → BeatGen} (h : Keep a s) : Keep a (State.updGen s g f) := by
  unfold State.updGen
  extract_lets v1
  clear_value v1
  repeat' first
    | with_reducible assumption
    | dsimp only
    | with_reducible refine Keep.mk_same rfl rfl rfl rfl rfl rfl rfl rfl ?_

theorem beatPost_keep {g : Nat} {n : Nat} (h : Keep a s) : KeepOpt a (beatPost g n s) := by
  unfold beatPost
  extract_lets v1 v2
  clear_value v1 v2
  repeat' first
    | with_reducible assumption
    | with_reducible apply State.bump_keep
    | with_reducible apply pmuEvent_keep
    | with_reducible apply State.updNode_keep
    | with_reducible apply postNode_keep
    | refine postNode_some (by assumption) ?_
    | with_reducible refine Keep.ite (fun _ => ?_) (fun _ => ?_)
    | with_reducible apply KeepOpt.some
    | with_reducible exact KeepOpt.none
    | exact fun _ hc => hc
    | extract_lets
    | split

theorem beatPost_some {g : Nat} {n : Nat} {t} (e : beatPost g n s = some t) (h : Keep a s) : Keep a t := beatPost_keep h t e

theorem runPoster_keep {x0 : Nat} (h : Keep a s) : Keep a (runPoster x0 s) := by
  induction x0 generalizing s with
  | zero =>
    unfold runPoster
    repeat' first
      | with_reducible assumption
      | with_reducible apply State.updGen_keep
      | refine beatPost_some (by assumption) ?_
      | with_reducible apply beatPost_keep
      | with_reducible refine Keep.ite (fun _ => ?_) (fun _ => ?_)
      | with_reducible refine Keep.foldl ?_ (fun t x ht => ?_)
      | (intro c hc; first | exact hc | (simp; done) | (simpa using hc))
      | extract_lets
      | split
      | dsimp only
      | with_reducible refine Keep.mk_same rfl rfl rfl rfl rfl rfl rfl rfl ?_
  | succ n ih =>
    unfold runPoster
    repeat' first
      | with_reducible apply ih
      | with_reducible assumption
      | with_reducible apply State.updGen_keep
      | refine beatPost_some (by assumption) ?_
      | with_reducible apply beatPost_keep
      | with_reducible refine Keep.ite (fun _ => ?_) (fun _ => ?_)
      | with_reducible refine Keep.foldl ?_ (fun t x ht => ?_)
      | (intro c hc; first | exact hc | (simp; done) | (simpa using hc))
      | extract_lets
      | split
      | dsimp only
      | with_reducible refine Keep.mk_same rfl rfl rfl rfl rfl rfl rfl rfl ?_

theorem postBeats_keep (h : Keep a s) : Keep a (postBeats s) := by
  unfold postBeats
  repeat' first
    | with_reducible assumption
    | with_reducible apply runPoster_keep

theorem startBeat_keep {g : Nat} (h : Keep a s) : Keep a (startBeat g s) := by
  unfold startBeat
  extract_lets v1 v2 s1 s2 v3 s3 s4
  clear_value v1 v2 v3
  have h1 : Keep a s1 := by
    unfold s1
    repeat' first
      | with_reducible assumption
      | with_reducible apply State.updGen_keep
  clear_value s1
  have h2 : Keep a s2 := by
    unfold s2
    repeat' first
      | with_reducible assumption
      | with_reducible apply State.updGen_keep
  clear_value s2
  have h3 : Keep a s3 := by
    unfold s3
    repeat' first
      | with_reducible assumption
      | with_reducible apply State.updGen_keep
      | with_reducible apply postBeats_keep
      | with_reducible refine Keep.ite (fun _ => ?_) (fun _ => ?_)
      | with_reducible apply KciRes.kept_wait
      | exact fun _ hc => hc
      | extract_lets
      | split
      | dsimp only
      | intro t ht
      | with_reducible refine Keep.mk_same rfl rfl rfl rfl rfl rfl rfl rfl ?_
  clear_value s3
  have h4 : Keep a s4 := by
    unfold s4
    repeat' first
      | with_reducible assumption
      | with_reducible apply State.updGen_keep
      | with_reducible apply postBeats_keep
      | with_reducible refine Keep.ite (fun _ => ?_) (fun _ => ?_)
      | with_reducible apply KciRes.kept_wait
      | exact fun _ hc => hc
      | extract_lets
      | split
  clear_value s4
  repeat' first
    | with_reducible assumption
    | with_reducible apply State.updGen_keep
    | with_reducible apply postBeats_keep

theorem beatStep_keep {old : Nat} {new : Nat} {g : Nat} (h : Keep a s) : Keep a (beatStep old new g s) := by
  unfold beatStep
  extract_lets v1 v2 v3 v4 v5 s1
  clear_value v1 v2 v3 v4 v5
  have h1 : Keep a s1 := by
    unfold s1
    repeat' first
      | with_reducible assumption
      | with_reducible apply State.bump_keep
      | with_reducible apply raiseFld_keep
      | with_reducible apply State.updGen_keep
  clear_value s1
  repeat' first
    | with_reducible assumption
    | with_reducible apply State.bump_keep
    | with_reducible apply raiseFld_keep
    | with_reducible apply State.updGen_keep
    | with_reducible refine Keep.ite (fun _ => ?_) (fun _ => ?_)

theorem beatsStep_keep {old : Nat} {new : Nat} (h : Keep a s) : Keep a (beatsStep old new s) := by
  unfold beatsStep
  repeat' first
    | with_reducible assumption
    | with_reducible apply beatStep_keep
    | with_reducible refine Keep.foldl ?_ (fun t x ht => ?_)

theorem commitBull_keep {home : Nat} {l : List RunOp} (h : Keep a s) : Keep a (commitBull home l s).2 := by
  induction l generalizing s with
  | nil => exact h
  | cons o t ih =>
    unfold commitBull
    split
    · simp_all
    all_goals rename_i heq; cases heq
    · split
      · next e => exact ih (postNode_some e h)
      · exact h
    · split
      · next e => exact ih (armNode_some e h)
      · exact h
    · exact ih (cancelNode_keep h)
    · split
      · next e => exact ih (insertTimer_pair e h)
      · next e =>
        have h1 := raiseFld_keep (src := 0x04) (f := fBullIntStatTimerFull) (State.bump_keep (f := fBullTimerFullCount) (k := 1) (insertTimer_pair e h))
        dsimp only
        split
        · next e' => exact ih (postNode_some e' h1)
        · exact h1
    · exact ih h

theorem commitBull_pair {home : Nat} {l r : List RunOp} {t : State} (e : commitBull home l s = (r, t)) (h : Keep a s) : Keep a t := by
  have := commitBull_keep (home := home) (l := l) h; rwa [e] at this

theorem nodeDone_keep {n : Nat} (h : Keep a s) : Keep a (nodeDone n s) := by
  unfold nodeDone
  repeat' first
    | with_reducible assumption
    | with_reducible apply disarm_keep
    | with_reducible apply State.setNode_keep
    | with_reducible apply enterReady_keep
    | with_reducible refine Keep.ite (fun _ => ?_) (fun _ => ?_)
    | with_reducible refine Keep.foldl ?_ (fun t x ht => ?_)
    | (intro c hc; first | exact hc | (simp; done) | (simpa using hc))
    | extract_lets
    | split
    | dsimp only
    | with_reducible refine Keep.mk_same rfl rfl rfl rfl rfl rfl rfl rfl ?_

end Sys2Proof.Machine
end

