-- ==== Sys2Proof/Laws/KeepCore.lean ====
section
/-!
SUPPORT. Laws/KeepCore.lean: every operation of media cores keeps what Keep names.
-/

namespace Sys2Proof.Machine

variable {a s : State}

theorem bufWrite_keep {b ofs : Nat} {bs : List Byte} (h : Keep a s) : Keep a (bufWrite b ofs bs s) :=
  h.hbm fun x => foldl_wf _ (fun m p hm => memWrite_wf hm _ _) _ _ x.1

theorem raceWord_keep {k b : Nat} (h : Keep a s) : Keep a (raceWord k b s).2 := by
  unfold raceWord
  have key : ∀ (ms : List Move) (x : Word × State), Keep a x.2 → Keep a (ms.foldl (fun (x : Word × State) m =>
      if !m.toBuf ∧ m.la ≤ b ∧ b + 4 ≤ m.la + m.len then
        let (f, s') := x.2.draw
        (if f % 2 = 1 then bufWord s' m.handle (m.ofs + (b - m.la)) else x.1, s')
      else x) x).2 := by
    intro ms
    induction ms with
    | nil => intro x hx; exact hx
    | cons m t ih =>
      intro x hx
      refine ih _ ?_
      dsimp only
      split
      · exact State.draw_keep hx
      · exact hx
  exact key _ _ h

theorem raceWord_pair {k b : Nat} {w : Word} {t : State} (e : raceWord k b s = (w, t)) (h : Keep a s) : Keep a t := by
  have := raceWord_keep (k := k) (b := b) h; rwa [e] at this

theorem raceWords_keep {k b n : Nat} (h : Keep a s) : Keep a (raceWords k b n s).2 := by
  induction n generalizing b s with
  | zero => exact h
  | succ n ih => exact ih (raceWord_keep h)

theorem raceWords_pair {k b n : Nat} {w : List Byte} {t : State} (e : raceWords k b n s = (w, t)) (h : Keep a s) : Keep a t := by
  have := raceWords_keep (k := k) (b := b) (n := n) h; rwa [e] at this

theorem localLoad_keep {k : Nat} {a' : Nat} {size : Nat} (h : Keep a s) : Keep a (localLoad k a' size s).2 := by
  unfold localLoad
  extract_lets v1
  clear_value v1
  repeat' first
    | with_reducible assumption
    | with_reducible apply raceWords_keep

theorem localLoad_pair {k : Nat} {a' : Nat} {size : Nat} {x0} {t} (e : localLoad k a' size s = (x0, t)) (h : Keep a s) : Keep a t := by
  have := localLoad_keep (k := k) (a' := a') (size := size) h; rwa [e] at this

theorem localStore_keep {k b : Nat} {bs : List Byte} (h : Keep a s) : Keep a (localStore k b bs s) :=
  Keep.updCore h fun c hc => by rw [markDirty_ram]; exact lramPutAll_wf bs (by rw [noteStore_ram]; exact hc) b

theorem sharedStore_keep {n b : Nat} {bs : List Byte} (h : Keep a s) : Keep a (sharedStore n b bs s) :=
  Keep.updClu h fun c hc => ⟨hc.1, memWriteList_wf bs hc.2 _⟩

theorem invalidateIdle_keep {k : Nat} (h : Keep a s) : Keep a (invalidateIdle k s) := by
  unfold invalidateIdle
  extract_lets v1
  clear_value v1
  repeat' first
    | with_reducible assumption
    | with_reducible apply invalidate_keep
    | with_reducible refine Keep.foldl ?_ (fun t x ht => ?_)

theorem coreHome_keep {k : Nat} (h : Keep a s) : Keep a (coreHome k s) := by
  unfold coreHome
  extract_lets v1 s1
  clear_value v1
  have h1 : Keep a s1 := by
    unfold s1
    repeat' first
      | with_reducible assumption
      | with_reducible apply pmuSync_keep
      | with_reducible apply invalidateIdle_keep
      | with_reducible apply Keep.updCore
      | with_reducible refine Keep.ite (fun _ => ?_) (fun _ => ?_)
      | with_reducible apply KciRes.kept_wait
      | exact fun _ hc => hc
  clear_value s1
  repeat' first
    | with_reducible assumption
    | with_reducible apply pmuSync_keep
    | with_reducible apply invalidateIdle_keep
    | with_reducible apply Keep.updCore
    | with_reducible refine Keep.ite (fun _ => ?_) (fun _ => ?_)

theorem landAborted_keep {k : Nat} (h : Keep a s) : Keep a (landAborted k s) := by
  unfold landAborted
  repeat' first
    | with_reducible assumption
    | with_reducible apply State.draw_keep
    | refine State.draw_pair (by assumption) ?_
    | with_reducible apply bufWrite_keep
    | with_reducible refine Keep.ite (fun _ => ?_) (fun _ => ?_)
    | with_reducible refine Keep.foldl ?_ (fun t x ht => ?_)

theorem abortStart_keep {k : Nat} (h : Keep a s) : Keep a (abortStart k s) := by
  unfold abortStart
  extract_lets v1 v2 s1 s2 s3 s4
  clear_value v1 v2
  have h1 : Keep a s1 := by
    unfold s1
    repeat' first
      | with_reducible assumption
      | with_reducible apply State.bump_keep
      | with_reducible apply pmuEvent_keep
      | with_reducible apply State.updNode_keep
      | with_reducible apply invalidate_keep
      | with_reducible apply landAborted_keep
  clear_value s1
  have h2 : Keep a s2 := by
    unfold s2
    repeat' first
      | with_reducible assumption
      | with_reducible apply State.bump_keep
      | with_reducible apply pmuEvent_keep
      | with_reducible apply State.updNode_keep
  clear_value s2
  have h3 : Keep a s3 := by
    unfold s3
    repeat' first
      | with_reducible assumption
      | with_reducible apply State.bump_keep
      | with_reducible apply pmuEvent_keep
      | with_reducible apply State.updNode_keep
      | with_reducible apply invalidate_keep
  clear_value s3
  have h4 : Keep a s4 := by
    unfold s4
    repeat' first
      | with_reducible assumption
      | with_reducible apply State.bump_keep
      | with_reducible apply pmuEvent_keep
  clear_value s4
  repeat' first
    | with_reducible assumption
    | with_reducible apply State.bump_keep
    | with_reducible apply pmuEvent_keep
    | with_reducible apply State.updNode_keep
    | with_reducible apply invalidate_keep
    | with_reducible apply landAborted_keep
    | with_reducible apply Keep.updCore
    | exact fun _ hc => hc

theorem addStrike_keep {k : Nat} (h : Keep a s) : Keep a (addStrike k s) := by
  unfold addStrike
  extract_lets v1
  clear_value v1
  repeat' first
    | with_reducible assumption
    | dsimp only
    | with_reducible refine Keep.mk_same rfl rfl rfl rfl rfl rfl rfl rfl ?_

theorem syncCluster_keep {n : Nat} (h : Keep a s) : Keep a (syncCluster n s) := by
  unfold syncCluster
  repeat' first
    | with_reducible assumption
    | with_reducible apply pmuSync_keep
    | with_reducible refine Keep.foldl ?_ (fun t x ht => ?_)

theorem dropPageIns_keep {k : Nat} (h : Keep a s) : Keep a (dropPageIns k s) := by
  unfold dropPageIns
  repeat' first
    | with_reducible assumption
    | with_reducible apply State.setGh_keep

theorem retireCore_keep {k : Nat} (h : Keep a s) : Keep a (retireCore k s) := by
  unfold retireCore
  extract_lets s1 s2 v1 s3 s4 v2 s5
  clear_value v1 v2
  have h1 : Keep a s1 := by
    unfold s1
    repeat' first
      | with_reducible assumption
      | with_reducible apply State.setFld_keep
      | with_reducible apply tryIdle_keep
      | with_reducible apply invalidateIdle_keep
      | with_reducible apply syncCluster_keep
  clear_value s1
  have h2 : Keep a s2 := by
    unfold s2
    repeat' first
      | with_reducible assumption
      | with_reducible apply State.setFld_keep
      | with_reducible apply tryIdle_keep
      | with_reducible apply invalidateIdle_keep
      | with_reducible apply syncCluster_keep
      | with_reducible apply dropPageIns_keep
      | with_reducible apply Keep.updCore
      | with_reducible refine Keep.ite (fun _ => ?_) (fun _ => ?_)
      | exact fun _ hc => hc
  clear_value s2
  have h3 : Keep a s3 := by
    unfold s3
    repeat' first
      | with_reducible assumption
      | with_reducible apply State.setFld_keep
      | with_reducible apply tryIdle_keep
      | with_reducible apply invalidateIdle_keep
      | with_reducible apply syncCluster_keep
      | with_reducible apply dropPageIns_keep
      | with_reducible apply Keep.updCore
      | with_reducible refine Keep.ite (fun _ => ?_) (fun _ => ?_)
      | exact fun _ hc => hc
      | extract_lets
      | split
      | dsimp only
      | intro t ht
      | with_reducible refine Keep.mk_same rfl rfl rfl rfl rfl rfl rfl rfl ?_
  clear_value s3
  have h4 : Keep a s4 := by
    unfold s4
    repeat' first
      | with_reducible assumption
      | with_reducible apply State.setFld_keep
      | with_reducible apply tryIdle_keep
      | with_reducible apply invalidateIdle_keep
      | with_reducible apply syncCluster_keep
      | with_reducible apply dropPageIns_keep
  clear_value s4
  have h5 : Keep a s5 := by
    unfold s5
    repeat' first
      | with_reducible assumption
      | with_reducible apply State.setFld_keep
      | with_reducible apply tryIdle_keep
      | with_reducible apply invalidateIdle_keep
      | with_reducible apply syncCluster_keep
      | with_reducible apply dropPageIns_keep
      | with_reducible apply Keep.updCore
      | with_reducible refine Keep.ite (fun _ => ?_) (fun _ => ?_)
  clear_value s5
  repeat' first
    | with_reducible assumption
    | with_reducible apply State.setFld_keep
    | with_reducible apply tryIdle_keep

theorem takeException_keep {k : Nat} {e : Exc} (h : Keep a s) : Keep a (takeException k e s) := by
  unfold takeException
  extract_lets v1 v2 v3 s1 s2 s3 s4 s5 s6 s7 v4 s8 s9 v5 s10
  have h1 : Keep a s1 := by
    unfold s1
    repeat' first
      | with_reducible assumption
      | with_reducible apply State.setFld_keep
      | with_reducible apply State.bump_keep
      | with_reducible apply addStrike_keep
      | with_reducible apply abortStart_keep
      | with_reducible apply retireCore_keep
      | with_reducible apply tryIdle_keep
      | with_reducible apply umpEvent_keep
      | with_reducible apply Keep.updCore
      | with_reducible refine Keep.ite (fun _ => ?_) (fun _ => ?_)
      | with_reducible refine Keep.foldl ?_ (fun t x ht => ?_)
      | (intro c hc; first | exact hc | (simp; done) | (simpa using hc))
      | extract_lets
      | split
      | dsimp only
      | with_reducible refine Keep.mk_same rfl rfl rfl rfl rfl rfl rfl rfl ?_
  clear_value s1
  have h2 : Keep a s2 := by
    unfold s2
    repeat' first
      | with_reducible assumption
      | with_reducible apply State.setFld_keep
      | with_reducible apply State.bump_keep
      | with_reducible apply addStrike_keep
      | with_reducible apply abortStart_keep
      | with_reducible apply retireCore_keep
      | with_reducible apply tryIdle_keep
      | with_reducible apply umpEvent_keep
      | with_reducible apply Keep.updCore
      | with_reducible refine Keep.ite (fun _ => ?_) (fun _ => ?_)
      | with_reducible refine Keep.foldl ?_ (fun t x ht => ?_)
      | (intro c hc; first | exact hc | (simp; done) | (simpa using hc))
      | extract_lets
      | split
      | dsimp only
      | with_reducible refine Keep.mk_same rfl rfl rfl rfl rfl rfl rfl rfl ?_
  clear_value s2
  have h3 : Keep a s3 := by
    unfold s3
    repeat' first
      | with_reducible assumption
      | with_reducible apply State.setFld_keep
      | with_reducible apply State.bump_keep
      | with_reducible apply addStrike_keep
      | with_reducible apply abortStart_keep
      | with_reducible apply retireCore_keep
      | with_reducible apply tryIdle_keep
      | with_reducible apply umpEvent_keep
      | with_reducible apply Keep.updCore
      | with_reducible refine Keep.ite (fun _ => ?_) (fun _ => ?_)
      | with_reducible refine Keep.foldl ?_ (fun t x ht => ?_)
      | (intro c hc; first | exact hc | (simp; done) | (simpa using hc))
      | extract_lets
      | split
      | dsimp only
      | with_reducible refine Keep.mk_same rfl rfl rfl rfl rfl rfl rfl rfl ?_
  clear_value s3
  have h4 : Keep a s4 := by
    unfold s4
    repeat' first
      | with_reducible assumption
      | with_reducible apply State.setFld_keep
      | with_reducible apply State.bump_keep
      | with_reducible apply addStrike_keep
      | with_reducible apply abortStart_keep
      | with_reducible apply retireCore_keep
      | with_reducible apply tryIdle_keep
      | with_reducible apply umpEvent_keep
      | with_reducible apply Keep.updCore
      | with_reducible refine Keep.ite (fun _ => ?_) (fun _ => ?_)
      | with_reducible refine Keep.foldl ?_ (fun t x ht => ?_)
      | (intro c hc; first | exact hc | (simp; done) | (simpa using hc))
      | extract_lets
      | split
      | dsimp only
      | with_reducible refine Keep.mk_same rfl rfl rfl rfl rfl rfl rfl rfl ?_
  clear_value s4
  have h5 : Keep a s5 := by
    unfold s5
    repeat' first
      | with_reducible assumption
      | with_reducible apply State.setFld_keep
      | with_reducible apply State.bump_keep
      | with_reducible apply addStrike_keep
      | with_reducible apply abortStart_keep
      | with_reducible apply retireCore_keep
      | with_reducible apply tryIdle_keep
      | with_reducible apply umpEvent_keep
      | with_reducible apply Keep.updCore
      | with_reducible refine Keep.ite (fun _ => ?_) (fun _ => ?_)
      | with_reducible refine Keep.foldl ?_ (fun t x ht => ?_)
      | (intro c hc; first | exact hc | (simp; done) | (simpa using hc))
      | extract_lets
      | split
      | dsimp only
      | with_reducible refine Keep.mk_same rfl rfl rfl rfl rfl rfl rfl rfl ?_
  clear_value s5
  have h6 : Keep a s6 := by
    unfold s6
    repeat' first
      | with_reducible assumption
      | with_reducible apply State.setFld_keep
      | with_reducible apply State.bump_keep
      | with_reducible apply addStrike_keep
      | with_reducible apply abortStart_keep
      | with_reducible apply retireCore_keep
      | with_reducible apply tryIdle_keep
      | with_reducible apply umpEvent_keep
      | with_reducible apply Keep.updCore
      | with_reducible refine Keep.ite (fun _ => ?_) (fun _ => ?_)
      | with_reducible refine Keep.foldl ?_ (fun t x ht => ?_)
      | (intro c hc; first | exact hc | (simp; done) | (simpa using hc))
      | extract_lets
      | split
      | dsimp only
      | with_reducible refine Keep.mk_same rfl rfl rfl rfl rfl rfl rfl rfl ?_
  clear_value s6
  have h7 : Keep a s7 := by
    unfold s7
    repeat' first
      | with_reducible assumption
      | with_reducible apply State.setFld_keep
      | with_reducible apply State.bump_keep
      | with_reducible apply addStrike_keep
      | with_reducible apply abortStart_keep
      | with_reducible apply retireCore_keep
      | with_reducible apply tryIdle_keep
      | with_reducible apply umpEvent_keep
      | with_reducible apply Keep.updCore
      | with_reducible refine Keep.ite (fun _ => ?_) (fun _ => ?_)
      | with_reducible refine Keep.foldl ?_ (fun t x ht => ?_)
      | (intro c hc; first | exact hc | (simp; done) | (simpa using hc))
      | extract_lets
      | split
      | dsimp only
      | with_reducible refine Keep.mk_same rfl rfl rfl rfl rfl rfl rfl rfl ?_
  clear_value s7
  have h8 : Keep a s8 := by
    unfold s8
    repeat' first
      | with_reducible assumption
      | with_reducible apply State.setFld_keep
      | with_reducible apply State.bump_keep
      | with_reducible apply addStrike_keep
      | with_reducible apply abortStart_keep
      | with_reducible apply retireCore_keep
      | with_reducible apply tryIdle_keep
      | with_reducible apply umpEvent_keep
      | with_reducible apply Keep.updCore
      | with_reducible refine Keep.ite (fun _ => ?_) (fun _ => ?_)
      | with_reducible refine Keep.foldl ?_ (fun t x ht => ?_)
      | (intro c hc; first | exact hc | (simp; done) | (simpa using hc))
      | extract_lets
      | split
      | dsimp only
      | with_reducible refine Keep.mk_same rfl rfl rfl rfl rfl rfl rfl rfl ?_
  clear_value s8
  have h9 : Keep a s9 := by
    unfold s9
    repeat' first
      | with_reducible assumption
      | with_reducible apply State.setFld_keep
      | with_reducible apply State.bump_keep
      | with_reducible apply addStrike_keep
      | with_reducible apply abortStart_keep
      | with_reducible apply retireCore_keep
      | with_reducible apply tryIdle_keep
      | with_reducible apply umpEvent_keep
      | with_reducible apply Keep.updCore
      | with_reducible refine Keep.ite (fun _ => ?_) (fun _ => ?_)
      | with_reducible refine Keep.foldl ?_ (fun t x ht => ?_)
      | (intro c hc; first | exact hc | (simp; done) | (simpa using hc))
      | extract_lets
      | split
      | dsimp only
      | with_reducible refine Keep.mk_same rfl rfl rfl rfl rfl rfl rfl rfl ?_
  clear_value s9
  have h10 : Keep a s10 := by
    unfold s10
    repeat' first
      | with_reducible assumption
      | with_reducible apply State.setFld_keep
      | with_reducible apply State.bump_keep
      | with_reducible apply addStrike_keep
      | with_reducible apply abortStart_keep
      | with_reducible apply retireCore_keep
      | with_reducible apply tryIdle_keep
      | with_reducible apply umpEvent_keep
      | with_reducible apply Keep.updCore
      | with_reducible refine Keep.ite (fun _ => ?_) (fun _ => ?_)
      | with_reducible refine Keep.foldl ?_ (fun t x ht => ?_)
      | (intro c hc; first | exact hc | (simp; done) | (simpa using hc))
      | extract_lets
      | split
      | dsimp only
      | with_reducible refine Keep.mk_same rfl rfl rfl rfl rfl rfl rfl rfl ?_
  clear_value s10
  repeat' first
    | with_reducible assumption
    | with_reducible apply State.setFld_keep
    | with_reducible apply State.bump_keep
    | with_reducible apply addStrike_keep
    | with_reducible apply abortStart_keep
    | with_reducible apply retireCore_keep
    | with_reducible apply tryIdle_keep
    | with_reducible apply umpEvent_keep
    | with_reducible apply Keep.updCore
    | with_reducible refine Keep.ite (fun _ => ?_) (fun _ => ?_)
    | with_reducible refine Keep.foldl ?_ (fun t x ht => ?_)
    | (intro c hc; first | exact hc | (simp; done) | (simpa using hc))
    | extract_lets
    | split
    | dsimp only
    | with_reducible refine Keep.mk_same rfl rfl rfl rfl rfl rfl rfl rfl ?_

theorem scoutRecord_keep {k : Nat} {op : Nat} {outcome : Nat} {pc : Nat} {node : Nat} (h : Keep a s) : Keep a (scoutRecord k op outcome pc node s) := by
  unfold scoutRecord
  extract_lets v1 v2 v3
  clear_value v1 v2 v3
  repeat' first
    | with_reducible assumption
    | with_reducible apply State.draw_keep
    | refine State.draw_pair (by assumption) ?_
    | with_reducible refine Keep.ite (fun _ => ?_) (fun _ => ?_)
    | extract_lets
    | split
    | dsimp only
    | with_reducible refine Keep.mk_same rfl rfl rfl rfl rfl rfl rfl rfl ?_

theorem issue_keep {k op : Nat} {bar wf : Bool} {f : State → CoreRes} (h : Keep a s) (hf : ∀ t, Keep a t → (f t).Kept a) :
    Keep a (issue k op bar wf f s) := by
  unfold issue
  split
  · exact h
  extract_lets s1 c pc node tag bad
  have h1 : Keep a s1 := Keep.ite (fun _ => setPwr_keep h) (fun _ => h)
  have htag : ∀ o t, Keep a t → Keep a (tag o t) := fun o t ht => Keep.ite (fun _ => scoutRecord_keep ht) (fun _ => ht)
  have hbad : ∀ e t, Keep a t → Keep a (bad e t) := fun e t ht => htag _ _ (takeException_keep ht)
  clear_value tag bad
  split
  · exact hbad _ _ h1
  split
  · exact hbad _ _ h1
  split
  · exact hbad _ _ h1
  have hr := hf s1 h1
  split <;> rename_i heq <;> rw [heq] at hr
  · exact hbad _ _ hr
  · exact hr
  · exact htag _ _ (pmuEvent_keep (Keep.updCore hr fun _ hc => hc))
  · exact htag _ _ (pmuEvent_keep (pmuEvent_keep (Keep.updCore hr fun _ hc => hc)))
  · exact htag _ _ (pmuEvent_keep (Keep.updCore hr fun _ hc => hc))

theorem excAt_keep {k : Nat} {code : Nat} (h : Keep a s) : (excAt k code s).Kept a := by
  unfold excAt
  repeat' first
    | with_reducible assumption
    | with_reducible apply CoreRes.kept_exc

theorem excResidue_keep {k : Nat} (h : Keep a s) : (excResidue k s).Kept a := by
  unfold excResidue
  repeat' first
    | with_reducible assumption
    | with_reducible apply CoreRes.kept_exc

theorem takeResidue_keep {k : Nat} (h : Keep a s) : Keep a (takeResidue k s).2 := by
  unfold takeResidue
  repeat' first
    | with_reducible assumption
    | with_reducible apply State.setFld_keep
    | with_reducible refine Keep.ite (fun _ => ?_) (fun _ => ?_)
    | split

theorem takeResidue_pair {k : Nat} {x0} {t} (e : takeResidue k s = (x0, t)) (h : Keep a s) : Keep a t := by
  have := takeResidue_keep (k := k) h; rwa [e] at this

theorem writeBack_keep {k : Nat} {good sat gov : Bool} {f : Core → Core} (h : Keep a s)
    (hf : ∀ c : Core, Memory.wf c.ram = true → Memory.wf (f c).ram = true) : (writeBack k good sat gov f s).Kept a := by
  unfold writeBack
  split
  next e =>
  have h1 := takeResidue_pair e h
  split
  · exact excResidue_keep h1
  · exact Keep.updCore (pmuEvent_keep (pmuEvent_keep h1)) hf

theorem finishS_keep {k d : Nat} {setf : Bool} {o : Out} (h : Keep a s) : (finishS k d setf o s).Kept a :=
  writeBack_keep h fun c hc => by rw [Core.setS_ram, Core.stick_ram]; split <;> exact hc

theorem salu_keep {f : SFn} {k : Nat} {op : SaluOp} (h : Keep a s) : Keep a (salu f k op s) := by
  unfold salu
  repeat' first
    | with_reducible assumption
    | with_reducible apply issue_keep
    | with_reducible apply finishS_keep
    | dsimp only
    | intro t ht

theorem shi_keep {f : SFn} {k : Nat} {op : ShiOp} (h : Keep a s) : Keep a (shi f k op s) := by
  unfold shi
  repeat' first
    | with_reducible assumption
    | with_reducible apply issue_keep
    | with_reducible apply finishS_keep
    | dsimp only
    | intro t ht

theorem execAdd_keep {core : Nat} {op : SaluOp} (h : Keep a s) : KeepOut a (execAdd core op s) := by
  unfold execAdd
  repeat' first
    | with_reducible assumption
    | with_reducible apply salu_keep
    | with_reducible apply KeepOut.next

theorem execSub_keep {core : Nat} {op : SaluOp} (h : Keep a s) : KeepOut a (execSub core op s) := by
  unfold execSub
  repeat' first
    | with_reducible assumption
    | with_reducible apply salu_keep
    | with_reducible apply KeepOut.next

theorem execAddu_keep {core : Nat} {op : SaluOp} (h : Keep a s) : KeepOut a (execAddu core op s) := by
  unfold execAddu
  repeat' first
    | with_reducible assumption
    | with_reducible apply salu_keep
    | with_reducible apply KeepOut.next

theorem execSubu_keep {core : Nat} {op : SaluOp} (h : Keep a s) : KeepOut a (execSubu core op s) := by
  unfold execSubu
  repeat' first
    | with_reducible assumption
    | with_reducible apply salu_keep
    | with_reducible apply KeepOut.next

theorem execNeg_keep {core : Nat} {op : SaluOp} (h : Keep a s) : KeepOut a (execNeg core op s) := by
  unfold execNeg
  repeat' first
    | with_reducible assumption
    | with_reducible apply salu_keep
    | with_reducible apply KeepOut.next

theorem execAbs_keep {core : Nat} {op : SaluOp} (h : Keep a s) : KeepOut a (execAbs core op s) := by
  unfold execAbs
  repeat' first
    | with_reducible assumption
    | with_reducible apply salu_keep
    | with_reducible apply KeepOut.next

theorem execMin_keep {core : Nat} {op : SaluOp} (h : Keep a s) : KeepOut a (execMin core op s) := by
  unfold execMin
  repeat' first
    | with_reducible assumption
    | with_reducible apply salu_keep
    | with_reducible apply KeepOut.next

theorem execMax_keep {core : Nat} {op : SaluOp} (h : Keep a s) : KeepOut a (execMax core op s) := by
  unfold execMax
  repeat' first
    | with_reducible assumption
    | with_reducible apply salu_keep
    | with_reducible apply KeepOut.next

theorem execAnd_keep {core : Nat} {op : SaluOp} (h : Keep a s) : KeepOut a (execAnd core op s) := by
  unfold execAnd
  repeat' first
    | with_reducible assumption
    | with_reducible apply salu_keep
    | with_reducible apply KeepOut.next

theorem execOr_keep {core : Nat} {op : SaluOp} (h : Keep a s) : KeepOut a (execOr core op s) := by
  unfold execOr
  repeat' first
    | with_reducible assumption
    | with_reducible apply salu_keep
    | with_reducible apply KeepOut.next

theorem execXor_keep {core : Nat} {op : SaluOp} (h : Keep a s) : KeepOut a (execXor core op s) := by
  unfold execXor
  repeat' first
    | with_reducible assumption
    | with_reducible apply salu_keep
    | with_reducible apply KeepOut.next

theorem execAndn_keep {core : Nat} {op : SaluOp} (h : Keep a s) : KeepOut a (execAndn core op s) := by
  unfold execAndn
  repeat' first
    | with_reducible assumption
    | with_reducible apply salu_keep
    | with_reducible apply KeepOut.next

theorem execShl_keep {core : Nat} {op : SaluOp} (h : Keep a s) : KeepOut a (execShl core op s) := by
  unfold execShl
  repeat' first
    | with_reducible assumption
    | with_reducible apply salu_keep
    | with_reducible apply KeepOut.next

theorem execShr_keep {core : Nat} {op : SaluOp} (h : Keep a s) : KeepOut a (execShr core op s) := by
  unfold execShr
  repeat' first
    | with_reducible assumption
    | with_reducible apply salu_keep
    | with_reducible apply KeepOut.next

theorem execSar_keep {core : Nat} {op : SaluOp} (h : Keep a s) : KeepOut a (execSar core op s) := by
  unfold execSar
  repeat' first
    | with_reducible assumption
    | with_reducible apply salu_keep
    | with_reducible apply KeepOut.next

theorem execSrr_keep {core : Nat} {op : SaluOp} (h : Keep a s) : KeepOut a (execSrr core op s) := by
  unfold execSrr
  repeat' first
    | with_reducible assumption
    | with_reducible apply salu_keep
    | with_reducible apply KeepOut.next

theorem execMul_keep {core : Nat} {op : SaluOp} (h : Keep a s) : KeepOut a (execMul core op s) := by
  unfold execMul
  repeat' first
    | with_reducible assumption
    | with_reducible apply salu_keep
    | with_reducible apply KeepOut.next

theorem execMulu_keep {core : Nat} {op : SaluOp} (h : Keep a s) : KeepOut a (execMulu core op s) := by
  unfold execMulu
  repeat' first
    | with_reducible assumption
    | with_reducible apply salu_keep
    | with_reducible apply KeepOut.next

theorem execMov_keep {core : Nat} {op : SaluOp} (h : Keep a s) : KeepOut a (execMov core op s) := by
  unfold execMov
  repeat' first
    | with_reducible assumption
    | with_reducible apply salu_keep
    | with_reducible apply KeepOut.next

theorem execClz_keep {core : Nat} {op : SaluOp} (h : Keep a s) : KeepOut a (execClz core op s) := by
  unfold execClz
  repeat' first
    | with_reducible assumption
    | with_reducible apply salu_keep
    | with_reducible apply KeepOut.next

theorem execBfx_keep {core : Nat} {op : SaluOp} (h : Keep a s) : KeepOut a (execBfx core op s) := by
  unfold execBfx
  repeat' first
    | with_reducible assumption
    | with_reducible apply salu_keep
    | with_reducible apply KeepOut.next

theorem execAddi_keep {core : Nat} {sat : Bool} {d : Nat} {x : Nat} {imm : Int} (h : Keep a s) : KeepOut a (execAddi core sat d x imm s) := by
  unfold execAddi
  repeat' first
    | with_reducible assumption
    | with_reducible apply issue_keep
    | with_reducible apply finishS_keep
    | with_reducible apply KeepOut.next
    | dsimp only
    | intro t ht

theorem execShiShl_keep {core : Nat} {op : ShiOp} (h : Keep a s) : KeepOut a (execShiShl core op s) := by
  unfold execShiShl
  repeat' first
    | with_reducible assumption
    | with_reducible apply shi_keep
    | with_reducible apply KeepOut.next

theorem execShiShr_keep {core : Nat} {op : ShiOp} (h : Keep a s) : KeepOut a (execShiShr core op s) := by
  unfold execShiShr
  repeat' first
    | with_reducible assumption
    | with_reducible apply shi_keep
    | with_reducible apply KeepOut.next

theorem execShiSar_keep {core : Nat} {op : ShiOp} (h : Keep a s) : KeepOut a (execShiSar core op s) := by
  unfold execShiSar
  repeat' first
    | with_reducible assumption
    | with_reducible apply shi_keep
    | with_reducible apply KeepOut.next

theorem execShiSrr_keep {core : Nat} {op : ShiOp} (h : Keep a s) : KeepOut a (execShiSrr core op s) := by
  unfold execShiSrr
  repeat' first
    | with_reducible assumption
    | with_reducible apply shi_keep
    | with_reducible apply KeepOut.next

theorem execMovl_keep {core : Nat} {d : Nat} {imm : Int} (h : Keep a s) : KeepOut a (execMovl core d imm s) := by
  unfold execMovl
  repeat' first
    | with_reducible assumption
    | with_reducible apply issue_keep
    | with_reducible apply finishS_keep
    | with_reducible apply KeepOut.next
    | dsimp only
    | intro t ht

theorem execMovh_keep {core : Nat} {d : Nat} {imm : Nat} (h : Keep a s) : KeepOut a (execMovh core d imm s) := by
  unfold execMovh
  repeat' first
    | with_reducible assumption
    | with_reducible apply issue_keep
    | with_reducible apply finishS_keep
    | with_reducible apply KeepOut.next
    | extract_lets
    | dsimp only
    | intro t ht

theorem execCmpi_keep {core : Nat} {x : Nat} {imm : Int} (h : Keep a s) : KeepOut a (execCmpi core x imm s) := by
  unfold execCmpi
  repeat' first
    | with_reducible assumption
    | with_reducible refine writeBack_keep ?_ (fun c hc => ?_)
    | with_reducible apply issue_keep
    | with_reducible apply writeBack_keep
    | with_reducible refine Keep.ite (fun _ => ?_) (fun _ => ?_)
    | with_reducible refine Keep.foldl ?_ (fun t x ht => ?_)
    | (intro c hc; first | exact hc | (simp; done) | (simpa using hc))
    | with_reducible apply KeepOut.next
    | with_reducible apply CoreRes.kept_done
    | with_reducible apply CoreRes.kept_stay
    | with_reducible apply CoreRes.kept_jump
    | with_reducible apply CoreRes.kept_skip
    | with_reducible apply CoreRes.kept_exc
    | intro t ht
    | extract_lets
    | split
    | dsimp only
    | with_reducible refine Keep.mk_same rfl rfl rfl rfl rfl rfl rfl rfl ?_

theorem finishV_keep {k d : Nat} {outs : List (Nat × Out)} (h : Keep a s) : (finishV k d outs s).Kept a :=
  writeBack_keep h fun c hc => (foldl_ram (fun c (o : Nat × Out) => (c.stick (satBit o.1 o.2.sat)).setV d o.1 ⟨o.2.v, o.2.p % 7⟩) (fun _ _ => rfl) outs c).symm ▸ hc

theorem valu_keep {f : VFn} {w : Bool} {k : Nat} {op : ValuOp} (h : Keep a s) : Keep a (valu f w k op s) := by
  unfold valu
  repeat' first
    | with_reducible assumption
    | with_reducible apply pmuEvent_keep
    | with_reducible apply issue_keep
    | with_reducible apply finishV_keep
    | extract_lets
    | dsimp only
    | intro t ht

theorem vshi_keep {f : VFn} {w : Bool} {k : Nat} {op : ValuOp} (h : Keep a s) : Keep a (vshi f w k op s) := by
  unfold vshi
  repeat' first
    | with_reducible assumption
    | with_reducible apply pmuEvent_keep
    | with_reducible apply issue_keep
    | with_reducible apply finishV_keep
    | extract_lets
    | dsimp only
    | intro t ht

theorem vcmp_keep {f : VCmp} {k : Nat} {op : ValuOp} (h : Keep a s) : Keep a (vcmp f k op s) := by
  unfold vcmp
  repeat' first
    | with_reducible assumption
    | with_reducible apply issue_keep
    | with_reducible apply excResidue_keep
    | with_reducible apply pmuEvent_keep
    | with_reducible apply Keep.updCore
    | with_reducible refine Keep.ite (fun _ => ?_) (fun _ => ?_)
    | with_reducible refine Keep.foldl ?_ (fun t x ht => ?_)
    | (intro c hc; first | exact hc | (simp; done) | (simpa using hc))
    | with_reducible apply CoreRes.kept_done
    | with_reducible apply CoreRes.kept_stay
    | with_reducible apply CoreRes.kept_jump
    | with_reducible apply CoreRes.kept_skip
    | with_reducible apply CoreRes.kept_exc
    | intro t ht
    | extract_lets
    | split
    | dsimp only
    | with_reducible refine Keep.mk_same rfl rfl rfl rfl rfl rfl rfl rfl ?_

theorem execVadd_keep {core : Nat} {op : ValuOp} (h : Keep a s) : KeepOut a (execVadd core op s) := by
  unfold execVadd
  repeat' first
    | with_reducible assumption
    | with_reducible apply valu_keep
    | with_reducible apply KeepOut.next

theorem execVsub_keep {core : Nat} {op : ValuOp} (h : Keep a s) : KeepOut a (execVsub core op s) := by
  unfold execVsub
  repeat' first
    | with_reducible assumption
    | with_reducible apply valu_keep
    | with_reducible apply KeepOut.next

theorem execVneg_keep {core : Nat} {op : ValuOp} (h : Keep a s) : KeepOut a (execVneg core op s) := by
  unfold execVneg
  repeat' first
    | with_reducible assumption
    | with_reducible apply valu_keep
    | with_reducible apply KeepOut.next

theorem execVabs_keep {core : Nat} {op : ValuOp} (h : Keep a s) : KeepOut a (execVabs core op s) := by
  unfold execVabs
  repeat' first
    | with_reducible assumption
    | with_reducible apply valu_keep
    | with_reducible apply KeepOut.next

theorem execVmin_keep {core : Nat} {op : ValuOp} (h : Keep a s) : KeepOut a (execVmin core op s) := by
  unfold execVmin
  repeat' first
    | with_reducible assumption
    | with_reducible apply valu_keep
    | with_reducible apply KeepOut.next

theorem execVmax_keep {core : Nat} {op : ValuOp} (h : Keep a s) : KeepOut a (execVmax core op s) := by
  unfold execVmax
  repeat' first
    | with_reducible assumption
    | with_reducible apply valu_keep
    | with_reducible apply KeepOut.next

theorem execVand_keep {core : Nat} {op : ValuOp} (h : Keep a s) : KeepOut a (execVand core op s) := by
  unfold execVand
  repeat' first
    | with_reducible assumption
    | with_reducible apply valu_keep
    | with_reducible apply KeepOut.next

theorem execVor_keep {core : Nat} {op : ValuOp} (h : Keep a s) : KeepOut a (execVor core op s) := by
  unfold execVor
  repeat' first
    | with_reducible assumption
    | with_reducible apply valu_keep
    | with_reducible apply KeepOut.next

theorem execVxor_keep {core : Nat} {op : ValuOp} (h : Keep a s) : KeepOut a (execVxor core op s) := by
  unfold execVxor
  repeat' first
    | with_reducible assumption
    | with_reducible apply valu_keep
    | with_reducible apply KeepOut.next

theorem execVshl_keep {core : Nat} {op : ValuOp} (h : Keep a s) : KeepOut a (execVshl core op s) := by
  unfold execVshl
  repeat' first
    | with_reducible assumption
    | with_reducible apply valu_keep
    | with_reducible apply KeepOut.next

theorem execVshr_keep {core : Nat} {op : ValuOp} (h : Keep a s) : KeepOut a (execVshr core op s) := by
  unfold execVshr
  repeat' first
    | with_reducible assumption
    | with_reducible apply valu_keep
    | with_reducible apply KeepOut.next

theorem execVsar_keep {core : Nat} {op : ValuOp} (h : Keep a s) : KeepOut a (execVsar core op s) := by
  unfold execVsar
  repeat' first
    | with_reducible assumption
    | with_reducible apply valu_keep
    | with_reducible apply KeepOut.next

theorem execVsrr_keep {core : Nat} {op : ValuOp} (h : Keep a s) : KeepOut a (execVsrr core op s) := by
  unfold execVsrr
  repeat' first
    | with_reducible assumption
    | with_reducible apply valu_keep
    | with_reducible apply KeepOut.next

theorem execVcmpeq_keep {core : Nat} {op : ValuOp} (h : Keep a s) : KeepOut a (execVcmpeq core op s) := by
  unfold execVcmpeq
  repeat' first
    | with_reducible assumption
    | with_reducible apply vcmp_keep
    | with_reducible apply KeepOut.next

theorem execVcmplt_keep {core : Nat} {op : ValuOp} (h : Keep a s) : KeepOut a (execVcmplt core op s) := by
  unfold execVcmplt
  repeat' first
    | with_reducible assumption
    | with_reducible apply vcmp_keep
    | with_reducible apply KeepOut.next

theorem execVcmple_keep {core : Nat} {op : ValuOp} (h : Keep a s) : KeepOut a (execVcmple core op s) := by
  unfold execVcmple
  repeat' first
    | with_reducible assumption
    | with_reducible apply vcmp_keep
    | with_reducible apply KeepOut.next

theorem execVsel_keep {core : Nat} {op : ValuOp} (h : Keep a s) : KeepOut a (execVsel core op s) := by
  unfold execVsel
  repeat' first
    | with_reducible assumption
    | with_reducible apply valu_keep
    | with_reducible apply KeepOut.next

theorem execVmov_keep {core : Nat} {op : ValuOp} (h : Keep a s) : KeepOut a (execVmov core op s) := by
  unfold execVmov
  repeat' first
    | with_reducible assumption
    | with_reducible apply valu_keep
    | with_reducible apply KeepOut.next

theorem execVbcst_keep {core : Nat} {op : ValuOp} (h : Keep a s) : KeepOut a (execVbcst core op s) := by
  unfold execVbcst
  repeat' first
    | with_reducible assumption
    | with_reducible apply pmuEvent_keep
    | with_reducible apply issue_keep
    | with_reducible apply finishV_keep
    | with_reducible apply KeepOut.next
    | dsimp only
    | intro t ht

theorem execVget_keep {core : Nat} {d : Nat} {x : Nat} {lane : Nat} (h : Keep a s) : KeepOut a (execVget core d x lane s) := by
  unfold execVget
  repeat' first
    | with_reducible assumption
    | with_reducible apply pmuEvent_keep
    | with_reducible apply issue_keep
    | with_reducible apply finishS_keep
    | with_reducible apply KeepOut.next
    | dsimp only
    | intro t ht

theorem execVput_keep {core : Nat} {d : Nat} {x : Nat} {lane : Nat} (h : Keep a s) : KeepOut a (execVput core d x lane s) := by
  unfold execVput
  repeat' first
    | with_reducible assumption
    | with_reducible apply pmuEvent_keep
    | with_reducible apply issue_keep
    | with_reducible apply finishV_keep
    | with_reducible apply KeepOut.next
    | dsimp only
    | intro t ht

theorem execVshiVshl_keep {core : Nat} {op : ValuOp} (h : Keep a s) : KeepOut a (execVshiVshl core op s) := by
  unfold execVshiVshl
  repeat' first
    | with_reducible assumption
    | with_reducible apply vshi_keep
    | with_reducible apply KeepOut.next

theorem execVshiVshr_keep {core : Nat} {op : ValuOp} (h : Keep a s) : KeepOut a (execVshiVshr core op s) := by
  unfold execVshiVshr
  repeat' first
    | with_reducible assumption
    | with_reducible apply vshi_keep
    | with_reducible apply KeepOut.next

theorem execVshiVsar_keep {core : Nat} {op : ValuOp} (h : Keep a s) : KeepOut a (execVshiVsar core op s) := by
  unfold execVshiVsar
  repeat' first
    | with_reducible assumption
    | with_reducible apply vshi_keep
    | with_reducible apply KeepOut.next

theorem execVshiVsrr_keep {core : Nat} {op : ValuOp} (h : Keep a s) : KeepOut a (execVshiVsrr core op s) := by
  unfold execVshiVsrr
  repeat' first
    | with_reducible assumption
    | with_reducible apply vshi_keep
    | with_reducible apply KeepOut.next

theorem finishA_keep {k d : Nat} {outs : List (Nat × AOut)} (h : Keep a s) : (finishA k d outs s).Kept a :=
  writeBack_keep h fun c hc => (foldl_ram (fun c (o : Nat × AOut) => ((c.stick (satBit o.1 o.2.sat)).stick (govBit o.1 o.2.gov)).setA d o.1 ⟨o.2.v, o.2.p % 7⟩) (fun _ _ => rfl) outs c).symm ▸ hc

theorem macc_keep {f : MFn} {opc : Nat} {k : Nat} {op : MacOp} (h : Keep a s) : Keep a (macc f opc k op s) := by
  unfold macc
  extract_lets v1
  clear_value v1
  repeat' first
    | with_reducible assumption
    | with_reducible apply pmuEvent_keep
    | with_reducible apply issue_keep
    | with_reducible apply finishA_keep
    | with_reducible apply KeepOpt.getD
    | extract_lets
    | dsimp only
    | intro t ht

theorem execMpy_keep {core : Nat} {op : MacOp} (h : Keep a s) : KeepOut a (execMpy core op s) := by
  unfold execMpy
  repeat' first
    | with_reducible assumption
    | with_reducible apply macc_keep
    | with_reducible apply KeepOut.next

theorem execMac_keep {core : Nat} {op : MacOp} (h : Keep a s) : KeepOut a (execMac core op s) := by
  unfold execMac
  repeat' first
    | with_reducible assumption
    | with_reducible apply macc_keep
    | with_reducible apply KeepOut.next

theorem execMsu_keep {core : Nat} {op : MacOp} (h : Keep a s) : KeepOut a (execMsu core op s) := by
  unfold execMsu
  repeat' first
    | with_reducible assumption
    | with_reducible apply macc_keep
    | with_reducible apply KeepOut.next

theorem execAdep_keep {core : Nat} {sat : Bool} {q : Bool} {d : Nat} {x : Nat} (h : Keep a s) : KeepOut a (execAdep core sat q d x s) := by
  unfold execAdep
  repeat' first
    | with_reducible assumption
    | with_reducible apply issue_keep
    | with_reducible apply finishA_keep
    | with_reducible apply KeepOut.next
    | dsimp only
    | intro t ht

theorem execAadd_keep {core : Nat} {op : AopOp} (h : Keep a s) : KeepOut a (execAadd core op s) := by
  unfold execAadd
  repeat' first
    | with_reducible assumption
    | with_reducible apply issue_keep
    | with_reducible apply finishA_keep
    | with_reducible apply KeepOut.next
    | dsimp only
    | intro t ht

theorem execAsub_keep {core : Nat} {op : AopOp} (h : Keep a s) : KeepOut a (execAsub core op s) := by
  unfold execAsub
  repeat' first
    | with_reducible assumption
    | with_reducible apply issue_keep
    | with_reducible apply finishA_keep
    | with_reducible apply KeepOut.next
    | dsimp only
    | intro t ht

theorem execAmov_keep {core : Nat} {q : Bool} {d : Nat} {x : Nat} (h : Keep a s) : KeepOut a (execAmov core q d x s) := by
  unfold execAmov
  repeat' first
    | with_reducible assumption
    | with_reducible apply issue_keep
    | with_reducible apply finishA_keep
    | with_reducible apply KeepOut.next
    | extract_lets
    | dsimp only
    | intro t ht

theorem execAclr_keep {core : Nat} {q : Bool} {d : Nat} (h : Keep a s) : KeepOut a (execAclr core q d s) := by
  unfold execAclr
  repeat' first
    | with_reducible assumption
    | with_reducible apply issue_keep
    | with_reducible apply finishA_keep
    | with_reducible apply KeepOut.next
    | dsimp only
    | intro t ht

theorem execAget_keep {core : Nat} {d : Nat} {x : Nat} {lane : Nat} {high : Bool} (h : Keep a s) : KeepOut a (execAget core d x lane high s) := by
  unfold execAget
  repeat' first
    | with_reducible assumption
    | with_reducible apply issue_keep
    | with_reducible apply finishS_keep
    | with_reducible refine Keep.ite (fun _ => ?_) (fun _ => ?_)
    | with_reducible apply KeepOut.next
    | extract_lets
    | split
    | dsimp only
    | intro t ht

theorem execAput_keep {core : Nat} {d : Nat} {x : Nat} {y : Nat} {lane : Nat} (h : Keep a s) : KeepOut a (execAput core d x y lane s) := by
  unfold execAput
  repeat' first
    | with_reducible assumption
    | with_reducible apply issue_keep
    | with_reducible apply finishA_keep
    | with_reducible apply KeepOut.next
    | extract_lets
    | dsimp only
    | intro t ht

theorem execExt_keep {core : Nat} {sat : Bool} {q : Bool} {d : Nat} {x : Nat} {sh : Int} {q15 : Bool} {toS : Bool} (h : Keep a s) : KeepOut a (execExt core sat q d x sh q15 toS s) := by
  unfold execExt
  repeat' first
    | with_reducible assumption
    | with_reducible apply issue_keep
    | with_reducible apply finishS_keep
    | with_reducible apply finishV_keep
    | with_reducible refine Keep.ite (fun _ => ?_) (fun _ => ?_)
    | with_reducible apply KeepOut.next
    | split
    | dsimp only
    | intro t ht

theorem execAsr_keep {core : Nat} {q : Bool} {d : Nat} {x : Nat} {cnt : Nat} (h : Keep a s) : KeepOut a (execAsr core q d x cnt s) := by
  unfold execAsr
  repeat' first
    | with_reducible assumption
    | with_reducible apply issue_keep
    | with_reducible apply finishA_keep
    | with_reducible apply KeepOut.next
    | dsimp only
    | intro t ht

theorem execAsrr_keep {core : Nat} {q : Bool} {d : Nat} {x : Nat} {cnt : Nat} (h : Keep a s) : KeepOut a (execAsrr core q d x cnt s) := by
  unfold execAsrr
  repeat' first
    | with_reducible assumption
    | with_reducible apply issue_keep
    | with_reducible apply finishA_keep
    | with_reducible apply KeepOut.next
    | dsimp only
    | intro t ht

theorem execAsl_keep {core : Nat} {sat : Bool} {q : Bool} {d : Nat} {x : Nat} {cnt : Nat} (h : Keep a s) : KeepOut a (execAsl core sat q d x cnt s) := by
  unfold execAsl
  repeat' first
    | with_reducible assumption
    | with_reducible apply issue_keep
    | with_reducible apply finishA_keep
    | with_reducible apply KeepOut.next
    | dsimp only
    | intro t ht

theorem flipLocal_keep {k b : Nat} {m : Byte} (h : Keep a s) : Keep a (flipLocal k b m s) :=
  Keep.updCore h fun _ hc => lramPut_wf hc b _

theorem spoilLocal_keep {k : Nat} {a' : Nat} (h : Keep a s) : Keep a (spoilLocal k a' s) := by
  unfold spoilLocal
  repeat' first
    | with_reducible assumption
    | with_reducible apply Keep.updCore
    | exact fun _ hc => hc

theorem readLocal_keep {k b size : Nat} (h : Keep a s) :
    (∀ bs t, readLocal k b size s = .inl (bs, t) → Keep a t) ∧ ∀ x t, readLocal k b size s = .inr (x, t) → Keep a t := by
  unfold readLocal
  extract_lets k0 k1 s1 node s2 s3
  have h1 : Keep a s1 := Keep.ite (fun _ => State.setFld_keep h) (fun _ => h)
  have h2 : Keep a s2 := Keep.ite (fun _ => spoilLocal_keep (flipLocal_keep h1)) (fun _ => h1)
  have h3 : Keep a s3 := Keep.ite (fun _ => Keep.ite (fun _ => pmuEvent_keep (umpEvent_keep h2)) (fun _ => flipLocal_keep h2)) (fun _ => h2)
  clear_value s3
  constructor
  · intro bs t e
    split at e
    · cases e
    · exact localLoad_pair (Sum.inl.inj e) h3
  · intro x t e
    split at e
    · cases e; exact h3
    · cases e

theorem readLocal_ok {k b size : Nat} {bs : List Byte} {t : State} (e : readLocal k b size s = .inl (bs, t)) (h : Keep a s) : Keep a t :=
  (readLocal_keep h).1 bs t e

theorem readLocal_exc {k b size : Nat} {x : Exc} {t : State} (e : readLocal k b size s = .inr (x, t)) (h : Keep a s) : Keep a t :=
  (readLocal_keep h).2 x t e

theorem readShared_keep {k b size : Nat} (h : Keep a s) :
    (∀ bs t, readShared k b size s = .inl (bs, t) → Keep a t) ∧ ∀ x t, readShared k b size s = .inr (x, t) → Keep a t := by
  unfold readShared
  constructor
  · intro bs t e
    split at e
    · cases e
    · cases e; exact pmuEvent_keep (State.draw_keep h)
  · intro x t e
    split at e
    · cases e; exact h
    · cases e

theorem readShared_ok {k b size : Nat} {bs : List Byte} {t : State} (e : readShared k b size s = .inl (bs, t)) (h : Keep a s) : Keep a t :=
  (readShared_keep h).1 bs t e

theorem readShared_exc {k b size : Nat} {x : Exc} {t : State} (e : readShared k b size s = .inr (x, t)) (h : Keep a s) : Keep a t :=
  (readShared_keep h).2 x t e

theorem readData_keep {k b size : Nat} {r : Region} (h : Keep a s) :
    (∀ bs t, readData k r b size s = .inl (bs, t) → Keep a t) ∧ ∀ x t, readData k r b size s = .inr (x, t) → Keep a t := by
  unfold readData
  cases r
  · exact readLocal_keep h
  · exact readShared_keep h

theorem readData_ok {k b size : Nat} {r : Region} {bs : List Byte} {t : State} (e : readData k r b size s = .inl (bs, t)) (h : Keep a s) : Keep a t :=
  (readData_keep h).1 bs t e

theorem readData_exc {k b size : Nat} {r : Region} {x : Exc} {t : State} (e : readData k r b size s = .inr (x, t)) (h : Keep a s) : Keep a t :=
  (readData_keep h).2 x t e

theorem writeData_keep {k : Nat} {r : Region} {a' : Nat} {bs : List Byte} (h : Keep a s) : Keep a (writeData k r a' bs s) := by
  unfold writeData
  repeat' first
    | with_reducible assumption
    | with_reducible apply State.draw_keep
    | refine State.draw_pair (by assumption) ?_
    | with_reducible apply pmuEvent_keep
    | with_reducible apply localStore_keep
    | with_reducible apply sharedStore_keep
    | with_reducible apply Keep.updCore
    | with_reducible apply Keep.updClu
    | exact fun _ hc => hc
    | extract_lets
    | split

theorem checkAddr_keep {k size : Nat} {x : Addr} {go : Region → CoreRes} (h : Keep a s) (hg : ∀ r, (go r).Kept a) :
    (checkAddr k size x s go).Kept a := by
  unfold checkAddr
  split
  · exact excAt_keep h
  · split
    · exact excAt_keep h
    · exact hg _

theorem load_keep {opc size : Nat} {dOk : Bool} {put : List Byte → Core → Core} {k : Nat} {m : MemOp} (h : Keep a s)
    (hp : ∀ bs c, (put bs c).ram = c.ram) : Keep a (load opc size dOk put k m s) := by
  unfold load
  refine issue_keep h fun t ht => checkAddr_keep ht fun r => ?_
  split
  · next e => exact readData_exc e ht
  · next e =>
    refine pmuEvent_keep (pmuEvent_keep (Keep.updCore (readData_ok e ht) fun c hc => ?_))
    rw [hp, addrDone_ram]; exact hc

theorem store_keep {opc size : Nat} {dOk : Bool} {data : Core → List Byte × Bool} {k : Nat} {m : MemOp} (h : Keep a s) :
    Keep a (store opc size dOk data k m s) := by
  unfold store
  refine issue_keep h fun t ht => checkAddr_keep ht fun r => ?_
  dsimp only
  split
  · exact excResidue_keep ht
  · exact pmuEvent_keep (pmuEvent_keep (writeData_keep (Keep.updCore ht fun c hc => by rw [addrDone_ram]; exact hc)))

theorem execLdb_keep {core : Nat} {d : Nat} {a' : MemOp} (h : Keep a s) : KeepOut a (execLdb core d a' s) := by
  unfold execLdb
  repeat' first
    | with_reducible assumption
    | with_reducible refine load_keep ?_ (fun bs c => by simp)
    | with_reducible apply KeepOut.next

theorem execLdbu_keep {core : Nat} {d : Nat} {a' : MemOp} (h : Keep a s) : KeepOut a (execLdbu core d a' s) := by
  unfold execLdbu
  repeat' first
    | with_reducible assumption
    | with_reducible refine load_keep ?_ (fun bs c => by simp)
    | with_reducible apply KeepOut.next

theorem execLdh_keep {core : Nat} {d : Nat} {a' : MemOp} (h : Keep a s) : KeepOut a (execLdh core d a' s) := by
  unfold execLdh
  repeat' first
    | with_reducible assumption
    | with_reducible refine load_keep ?_ (fun bs c => by simp)
    | with_reducible apply KeepOut.next

theorem execLdhu_keep {core : Nat} {d : Nat} {a' : MemOp} (h : Keep a s) : KeepOut a (execLdhu core d a' s) := by
  unfold execLdhu
  repeat' first
    | with_reducible assumption
    | with_reducible refine load_keep ?_ (fun bs c => by simp)
    | with_reducible apply KeepOut.next

theorem execLdw_keep {core : Nat} {d : Nat} {a' : MemOp} (h : Keep a s) : KeepOut a (execLdw core d a' s) := by
  unfold execLdw
  repeat' first
    | with_reducible assumption
    | with_reducible refine load_keep ?_ (fun bs c => by simp)
    | with_reducible apply KeepOut.next

theorem execStb_keep {core : Nat} {d : Nat} {a' : MemOp} (h : Keep a s) : KeepOut a (execStb core d a' s) := by
  unfold execStb
  repeat' first
    | with_reducible assumption
    | with_reducible apply store_keep
    | with_reducible apply KeepOut.next

theorem execSth_keep {core : Nat} {d : Nat} {a' : MemOp} (h : Keep a s) : KeepOut a (execSth core d a' s) := by
  unfold execSth
  repeat' first
    | with_reducible assumption
    | with_reducible apply store_keep
    | with_reducible apply KeepOut.next

theorem execStw_keep {core : Nat} {d : Nat} {a' : MemOp} (h : Keep a s) : KeepOut a (execStw core d a' s) := by
  unfold execStw
  repeat' first
    | with_reducible assumption
    | with_reducible apply store_keep
    | with_reducible apply KeepOut.next

theorem execLdwv_keep {core : Nat} {d : Nat} {a' : MemOp} (h : Keep a s) : KeepOut a (execLdwv core d a' s) := by
  unfold execLdwv
  repeat' first
    | with_reducible assumption
    | with_reducible refine load_keep ?_ (fun bs c => by simp)
    | with_reducible apply KeepOut.next

theorem execStwv_keep {core : Nat} {d : Nat} {a' : MemOp} (h : Keep a s) : KeepOut a (execStwv core d a' s) := by
  unfold execStwv
  repeat' first
    | with_reducible assumption
    | with_reducible apply store_keep
    | with_reducible apply KeepOut.next

theorem execLdv_keep {core : Nat} {d : Nat} {a' : MemOp} (h : Keep a s) : KeepOut a (execLdv core d a' s) := by
  unfold execLdv
  repeat' first
    | with_reducible assumption
    | with_reducible refine load_keep ?_ (fun bs c => by simp)
    | with_reducible apply KeepOut.next

theorem execStv_keep {core : Nat} {d : Nat} {a' : MemOp} (h : Keep a s) : KeepOut a (execStv core d a' s) := by
  unfold execStv
  repeat' first
    | with_reducible assumption
    | with_reducible apply store_keep
    | with_reducible apply KeepOut.next

theorem execLdpn_keep {core : Nat} {d : Nat} {a' : MemOp} (h : Keep a s) : KeepOut a (execLdpn core d a' s) := by
  unfold execLdpn
  repeat' first
    | with_reducible assumption
    | with_reducible refine load_keep ?_ (fun bs c => by simp)
    | with_reducible apply KeepOut.next

theorem execStpn_keep {core : Nat} {d : Nat} {a' : MemOp} (h : Keep a s) : KeepOut a (execStpn core d a' s) := by
  unfold execStpn
  repeat' first
    | with_reducible assumption
    | with_reducible apply store_keep
    | with_reducible apply KeepOut.next

theorem execLdbl_keep {core : Nat} {d : Nat} {a' : MemOp} (h : Keep a s) : KeepOut a (execLdbl core d a' s) := by
  unfold execLdbl
  repeat' first
    | with_reducible assumption
    | with_reducible refine load_keep ?_ (fun bs c => by simp)
    | with_reducible apply KeepOut.next

theorem execStbl_keep {core : Nat} {d : Nat} {a' : MemOp} (h : Keep a s) : KeepOut a (execStbl core d a' s) := by
  unfold execStbl
  repeat' first
    | with_reducible assumption
    | with_reducible apply store_keep
    | with_reducible apply KeepOut.next

theorem dualLoad_keep {opc size : Nat} {put : Nat → List Byte → Core → Core} {k d1 : Nat} {m1 : DualOp} {d2 : Nat} {m2 : DualOp} (h : Keep a s)
    (hp : ∀ d bs c, (put d bs c).ram = c.ram) : Keep a (dualLoad opc size put k d1 m1 d2 m2 s) := by
  unfold dualLoad
  refine issue_keep h fun t ht => ?_
  dsimp only
  split
  · exact excAt_keep ht
  split
  · exact excAt_keep ht
  split
  · next e => exact readLocal_exc e ht
  next e =>
  split
  · next e' => exact readLocal_exc e' (readLocal_ok e ht)
  next e' =>
  refine pmuEvent_keep (pmuEvent_keep (pmuEvent_keep (Keep.updCore (readLocal_ok e' (readLocal_ok e ht)) fun c hc => ?_)))
  rw [hp, hp, addrDone_ram, addrDone_ram]; exact hc

theorem execLddw_keep {core : Nat} {d1 : Nat} {a' : DualOp} {d2 : Nat} {b : DualOp} (h : Keep a s) : KeepOut a (execLddw core d1 a' d2 b s) := by
  unfold execLddw
  repeat' first
    | with_reducible assumption
    | with_reducible refine dualLoad_keep ?_ (fun d bs c => by simp)
    | with_reducible apply KeepOut.next

theorem execLddv_keep {core : Nat} {d1 : Nat} {a' : DualOp} {d2 : Nat} {b : DualOp} (h : Keep a s) : KeepOut a (execLddv core d1 a' d2 b s) := by
  unfold execLddv
  repeat' first
    | with_reducible assumption
    | with_reducible refine dualLoad_keep ?_ (fun d bs c => by simp)
    | with_reducible apply KeepOut.next

theorem execBra_keep {core : Nat} {offset : Int} (h : Keep a s) : KeepOut a (execBra core offset s) := by
  unfold execBra
  repeat' first
    | with_reducible assumption
    | with_reducible apply pmuEvent_keep
    | with_reducible apply issue_keep
    | with_reducible apply CoreRes.kept_jump
    | with_reducible apply KeepOut.next
    | dsimp only
    | intro t ht

theorem execCall_keep {core : Nat} {offset : Int} (h : Keep a s) : KeepOut a (execCall core offset s) := by
  unfold execCall
  repeat' first
    | with_reducible assumption
    | with_reducible apply pmuEvent_keep
    | with_reducible apply issue_keep
    | with_reducible apply Keep.updCore
    | with_reducible apply CoreRes.kept_jump
    | with_reducible apply KeepOut.next
    | exact fun _ hc => hc
    | (intro c hc; first | exact hc | (simp; done) | (simpa using hc))
    | extract_lets
    | dsimp only
    | intro t ht

theorem execJr_keep {core : Nat} {link : Bool} {d : Nat} {x : Nat} (h : Keep a s) : KeepOut a (execJr core link d x s) := by
  unfold execJr
  repeat' first
    | with_reducible assumption
    | with_reducible apply issue_keep
    | with_reducible apply excResidue_keep
    | with_reducible apply pmuEvent_keep
    | with_reducible apply Keep.updCore
    | with_reducible refine Keep.ite (fun _ => ?_) (fun _ => ?_)
    | with_reducible refine Keep.foldl ?_ (fun t x ht => ?_)
    | (intro c hc; first | exact hc | (simp; done) | (simpa using hc))
    | with_reducible apply KeepOut.next
    | with_reducible apply CoreRes.kept_done
    | with_reducible apply CoreRes.kept_stay
    | with_reducible apply CoreRes.kept_jump
    | with_reducible apply CoreRes.kept_skip
    | with_reducible apply CoreRes.kept_exc
    | intro t ht
    | extract_lets
    | split
    | dsimp only

theorem execBcc_keep {core : Nat} {cond : Nat} {offset : Int} (h : Keep a s) : KeepOut a (execBcc core cond offset s) := by
  unfold execBcc
  repeat' first
    | with_reducible assumption
    | with_reducible apply pmuEvent_keep
    | with_reducible apply issue_keep
    | with_reducible refine Keep.ite (fun _ => ?_) (fun _ => ?_)
    | with_reducible apply CoreRes.kept_done
    | with_reducible apply CoreRes.kept_jump
    | with_reducible apply KciRes.kept_done
    | with_reducible apply KeepOut.next
    | extract_lets
    | split
    | dsimp only
    | intro t ht

theorem startLoop_keep {k : Nat} {count : Nat} {body : Nat} (h : Keep a s) : (startLoop k count body s).Kept a := by
  unfold startLoop
  extract_lets v1 v2
  clear_value v1 v2
  repeat' first
    | with_reducible assumption
    | with_reducible apply excAt_keep
    | with_reducible apply Keep.updCore
    | with_reducible refine Keep.ite (fun _ => ?_) (fun _ => ?_)
    | with_reducible apply CoreRes.kept_skip
    | exact fun _ hc => hc
    | extract_lets
    | split

theorem execLoopr_keep {core : Nat} {x : Nat} {body : Nat} (h : Keep a s) : KeepOut a (execLoopr core x body s) := by
  unfold execLoopr
  repeat' first
    | with_reducible assumption
    | with_reducible apply issue_keep
    | with_reducible apply excResidue_keep
    | with_reducible apply startLoop_keep
    | with_reducible refine Keep.ite (fun _ => ?_) (fun _ => ?_)
    | with_reducible refine Keep.foldl ?_ (fun t x ht => ?_)
    | (intro c hc; first | exact hc | (simp; done) | (simpa using hc))
    | with_reducible apply KeepOut.next
    | with_reducible apply CoreRes.kept_done
    | with_reducible apply CoreRes.kept_stay
    | with_reducible apply CoreRes.kept_jump
    | with_reducible apply CoreRes.kept_skip
    | with_reducible apply CoreRes.kept_exc
    | intro t ht
    | extract_lets
    | split
    | dsimp only

theorem execLoopi_keep {core : Nat} {count : Nat} {body : Nat} (h : Keep a s) : KeepOut a (execLoopi core count body s) := by
  unfold execLoopi
  repeat' first
    | with_reducible assumption
    | with_reducible apply issue_keep
    | with_reducible apply startLoop_keep
    | with_reducible apply KeepOut.next
    | dsimp only
    | intro t ht

theorem commitOp_keep {node : Nat} {acct : Nat} {o : RunOp} (h : Keep a s) : Keep a (commitOp node acct o s) := by
  unfold commitOp
  repeat' first
    | with_reducible assumption
    | with_reducible apply seedOwn_keep
    | with_reducible apply seedFault_keep
    | with_reducible apply commitFree_keep
    | with_reducible apply commitGive_keep
    | with_reducible apply mqPush_keep
    | with_reducible apply commitPop_keep
    | with_reducible apply placeMark_keep
    | with_reducible refine Keep.ite (fun _ => ?_) (fun _ => ?_)
    | split

theorem endRun_keep {k : Nat} (h : Keep a s) : Keep a (endRun k s) := by
  unfold endRun
  extract_lets v1 s1 s2 v2
  have h1 : Keep a s1 := by
    unfold s1
    repeat' first
      | with_reducible assumption
      | with_reducible apply State.updNode_keep
      | with_reducible apply State.bump_keep
      | with_reducible apply coreHome_keep
      | with_reducible apply nodeDone_keep
      | with_reducible refine Keep.ite (fun _ => ?_) (fun _ => ?_)
      | with_reducible refine Keep.foldl ?_ (fun t x ht => ?_)
      | (intro c hc; first | exact hc | (simp; done) | (simpa using hc))
      | extract_lets
      | split
      | dsimp only
      | with_reducible refine Keep.mk_same rfl rfl rfl rfl rfl rfl rfl rfl ?_
  clear_value s1
  have h2 : Keep a s2 := by
    unfold s2
    repeat' first
      | with_reducible assumption
      | with_reducible apply State.updNode_keep
      | with_reducible apply State.bump_keep
      | with_reducible apply coreHome_keep
      | with_reducible apply nodeDone_keep
      | with_reducible refine Keep.ite (fun _ => ?_) (fun _ => ?_)
      | with_reducible refine Keep.foldl ?_ (fun t x ht => ?_)
      | (intro c hc; first | exact hc | (simp; done) | (simpa using hc))
      | extract_lets
      | split
      | dsimp only
      | with_reducible refine Keep.mk_same rfl rfl rfl rfl rfl rfl rfl rfl ?_
  clear_value s2
  repeat' first
    | with_reducible assumption
    | with_reducible apply State.updNode_keep
    | with_reducible apply State.bump_keep
    | with_reducible apply coreHome_keep
    | with_reducible apply nodeDone_keep
    | with_reducible refine Keep.ite (fun _ => ?_) (fun _ => ?_)
    | with_reducible refine Keep.foldl ?_ (fun t x ht => ?_)
    | (intro c hc; first | exact hc | (simp; done) | (simpa using hc))
    | extract_lets
    | split
    | dsimp only
    | with_reducible refine Keep.mk_same rfl rfl rfl rfl rfl rfl rfl rfl ?_

theorem commitRest_keep {k : Nat} {ops : List RunOp} (h : Keep a s) : Keep a (commitRest k ops s) := by
  unfold commitRest
  extract_lets v1
  clear_value v1
  repeat' first
    | with_reducible assumption
    | with_reducible apply commitBull_keep
    | refine commitBull_pair (by assumption) ?_
    | with_reducible apply endRun_keep
    | with_reducible apply Keep.updCore
    | with_reducible refine Keep.ite (fun _ => ?_) (fun _ => ?_)
    | exact fun _ hc => hc

theorem issueDone_keep {k : Nat} {status : Nat} (h : Keep a s) : Keep a (issueDone k status s) := by
  unfold issueDone
  extract_lets v1 v2 v3 s1 s2 v4 s3 s4 s5
  have h1 : Keep a s1 := by
    unfold s1
    repeat' first
      | with_reducible assumption
      | with_reducible apply scoutRecord_keep
      | with_reducible apply pmuEvent_keep
      | with_reducible apply commitOp_keep
      | with_reducible apply State.updNode_keep
      | with_reducible apply writeBack_keep
      | with_reducible apply commitRest_keep
      | with_reducible apply Keep.updCore
      | with_reducible refine Keep.ite (fun _ => ?_) (fun _ => ?_)
      | with_reducible refine Keep.foldl ?_ (fun t x ht => ?_)
      | (intro c hc; first | exact hc | (simp; done) | (simpa using hc))
      | extract_lets
      | split
      | dsimp only
      | with_reducible refine Keep.mk_same rfl rfl rfl rfl rfl rfl rfl rfl ?_
  clear_value s1
  have h2 : Keep a s2 := by
    unfold s2
    repeat' first
      | with_reducible assumption
      | with_reducible apply scoutRecord_keep
      | with_reducible apply pmuEvent_keep
      | with_reducible apply commitOp_keep
      | with_reducible apply State.updNode_keep
      | with_reducible apply writeBack_keep
      | with_reducible apply commitRest_keep
      | with_reducible apply Keep.updCore
      | with_reducible refine Keep.ite (fun _ => ?_) (fun _ => ?_)
      | with_reducible refine Keep.foldl ?_ (fun t x ht => ?_)
      | (intro c hc; first | exact hc | (simp; done) | (simpa using hc))
      | extract_lets
      | split
      | dsimp only
      | with_reducible refine Keep.mk_same rfl rfl rfl rfl rfl rfl rfl rfl ?_
  clear_value s2
  have h3 : Keep a s3 := by
    unfold s3
    repeat' first
      | with_reducible assumption
      | with_reducible apply scoutRecord_keep
      | with_reducible apply pmuEvent_keep
      | with_reducible apply commitOp_keep
      | with_reducible apply State.updNode_keep
      | with_reducible apply writeBack_keep
      | with_reducible apply commitRest_keep
      | with_reducible apply Keep.updCore
      | with_reducible refine Keep.ite (fun _ => ?_) (fun _ => ?_)
      | with_reducible refine Keep.foldl ?_ (fun t x ht => ?_)
      | (intro c hc; first | exact hc | (simp; done) | (simpa using hc))
      | extract_lets
      | split
      | dsimp only
      | with_reducible refine Keep.mk_same rfl rfl rfl rfl rfl rfl rfl rfl ?_
  clear_value s3
  have h4 : Keep a s4 := by
    unfold s4
    repeat' first
      | with_reducible assumption
      | with_reducible apply scoutRecord_keep
      | with_reducible apply pmuEvent_keep
      | with_reducible apply commitOp_keep
      | with_reducible apply State.updNode_keep
      | with_reducible apply writeBack_keep
      | with_reducible apply commitRest_keep
      | with_reducible apply Keep.updCore
      | with_reducible refine Keep.ite (fun _ => ?_) (fun _ => ?_)
      | with_reducible refine Keep.foldl ?_ (fun t x ht => ?_)
      | (intro c hc; first | exact hc | (simp; done) | (simpa using hc))
      | extract_lets
      | split
      | dsimp only
      | with_reducible refine Keep.mk_same rfl rfl rfl rfl rfl rfl rfl rfl ?_
  clear_value s4
  have h5 : Keep a s5 := by
    unfold s5
    repeat' first
      | with_reducible assumption
      | with_reducible apply scoutRecord_keep
      | with_reducible apply pmuEvent_keep
      | with_reducible apply commitOp_keep
      | with_reducible apply State.updNode_keep
      | with_reducible apply writeBack_keep
      | with_reducible apply commitRest_keep
      | with_reducible apply Keep.updCore
      | with_reducible refine Keep.ite (fun _ => ?_) (fun _ => ?_)
      | with_reducible refine Keep.foldl ?_ (fun t x ht => ?_)
      | (intro c hc; first | exact hc | (simp; done) | (simpa using hc))
      | extract_lets
      | split
      | dsimp only
      | with_reducible refine Keep.mk_same rfl rfl rfl rfl rfl rfl rfl rfl ?_
  clear_value s5
  repeat' first
    | with_reducible assumption
    | with_reducible apply scoutRecord_keep
    | with_reducible apply pmuEvent_keep
    | with_reducible apply commitOp_keep
    | with_reducible apply State.updNode_keep
    | with_reducible apply writeBack_keep
    | with_reducible apply commitRest_keep
    | with_reducible apply Keep.updCore
    | with_reducible refine Keep.ite (fun _ => ?_) (fun _ => ?_)
    | with_reducible refine Keep.foldl ?_ (fun t x ht => ?_)
    | (intro c hc; first | exact hc | (simp; done) | (simpa using hc))
    | extract_lets
    | split
    | dsimp only
    | with_reducible refine Keep.mk_same rfl rfl rfl rfl rfl rfl rfl rfl ?_

theorem completeAt_keep {k : Nat} {op : Nat} (h : Keep a s) : Keep a (completeAt k op s) := by
  unfold completeAt
  extract_lets v1 v2 s1
  clear_value v1 v2
  have h1 : Keep a s1 := by
    unfold s1
    repeat' first
      | with_reducible assumption
      | with_reducible apply pmuEvent_keep
      | with_reducible apply scoutRecord_keep
      | with_reducible apply Keep.updCore
      | with_reducible refine Keep.ite (fun _ => ?_) (fun _ => ?_)
      | exact fun _ hc => hc
  clear_value s1
  repeat' first
    | with_reducible assumption
    | with_reducible apply pmuEvent_keep
    | with_reducible apply scoutRecord_keep
    | with_reducible apply Keep.updCore
    | with_reducible refine Keep.ite (fun _ => ?_) (fun _ => ?_)

theorem startMove_keep {k : Nat} {m : Move} (h : Keep a s) : Keep a (startMove k m s) := by
  unfold startMove
  repeat' first
    | with_reducible assumption
    | with_reducible apply pmuEvent_keep
    | with_reducible apply Keep.updCore
    | exact fun _ hc => hc

theorem moveWord_keep {hit : Bool} {a' : Word} {b : Word} (h : Keep a s) : Keep a (moveWord hit a' b s).2 := by
  unfold moveWord
  repeat' first
    | with_reducible assumption
    | with_reducible apply State.draw_keep
    | refine State.draw_pair (by assumption) ?_
    | with_reducible refine Keep.ite (fun _ => ?_) (fun _ => ?_)
    | extract_lets
    | split

theorem moveWord_pair {hit : Bool} {a' : Word} {b : Word} {x0} {t} (e : moveWord hit a' b s = (x0, t)) (h : Keep a s) : Keep a t := by
  have := moveWord_keep (hit := hit) (a' := a') (b := b) h; rwa [e] at this

theorem landMove_keep {k : Nat} {m : Move} {i n : Nat} (h : Keep a s) : Keep a (landMove k m i n s) := by
  induction n generalizing i s with
  | zero => exact h
  | succ n ih =>
    unfold landMove
    dsimp only
    split
    · split
      · exact ih (bufWrite_keep (moveWord_keep h))
      · exact ih (bufWrite_keep h)
    · exact ih (Keep.updCore (moveWord_keep h) fun c hc => by rw [markDirty_ram]; exact lramPutAll_wf _ hc _)

theorem moveDone_keep {k : Nat} {m : Move} (h : Keep a s) : Keep a (moveDone k m s) := by
  unfold moveDone
  extract_lets s1 v1 s2 s3 s4 v2
  clear_value v1 v2
  have h1 : Keep a s1 := by
    unfold s1
    repeat' first
      | with_reducible assumption
      | with_reducible apply State.bump_keep
      | with_reducible apply pmuEvent_keep
      | with_reducible apply issueDone_keep
      | with_reducible apply completeAt_keep
      | with_reducible apply startMove_keep
      | with_reducible apply landMove_keep
  clear_value s1
  have h2 : Keep a s2 := by
    unfold s2
    repeat' first
      | with_reducible assumption
      | with_reducible apply State.bump_keep
      | with_reducible apply pmuEvent_keep
      | with_reducible apply issueDone_keep
      | with_reducible apply completeAt_keep
      | with_reducible apply startMove_keep
      | with_reducible apply landMove_keep
      | with_reducible apply Keep.updCore
      | with_reducible refine Keep.ite (fun _ => ?_) (fun _ => ?_)
      | with_reducible apply CoreRes.kept_done
      | with_reducible apply KciRes.kept_done
      | exact fun _ hc => hc
  clear_value s2
  have h3 : Keep a s3 := by
    unfold s3
    repeat' first
      | with_reducible assumption
      | with_reducible apply State.bump_keep
  clear_value s3
  have h4 : Keep a s4 := by
    unfold s4
    repeat' first
      | with_reducible assumption
      | with_reducible apply State.bump_keep
      | with_reducible apply pmuEvent_keep
  clear_value s4
  repeat' first
    | with_reducible assumption
    | with_reducible apply State.bump_keep
    | with_reducible apply pmuEvent_keep
    | with_reducible apply issueDone_keep
    | with_reducible apply completeAt_keep
    | with_reducible apply startMove_keep
    | with_reducible apply landMove_keep
    | with_reducible apply Keep.updCore
    | with_reducible refine Keep.ite (fun _ => ?_) (fun _ => ?_)
    | with_reducible apply CoreRes.kept_done
    | with_reducible apply KciRes.kept_done
    | exact fun _ hc => hc
    | extract_lets
    | split

theorem undoRun_keep {r : RunRec} (h : Keep a s) : Keep a (undoRun r s) := by
  unfold undoRun
  extract_lets s1
  have h1 : Keep a s1 := by
    unfold s1
    repeat' first
      | with_reducible assumption
      | with_reducible apply undoAlloc_keep
      | with_reducible apply restoreItems_keep
      | with_reducible refine Keep.foldl ?_ (fun t x ht => ?_)
  clear_value s1
  repeat' first
    | with_reducible assumption
    | with_reducible apply undoAlloc_keep
    | with_reducible apply restoreItems_keep
    | with_reducible refine Keep.foldl ?_ (fun t x ht => ?_)
    | extract_lets
    | split

theorem abortDisarm_keep {n : Nat} (h : Keep a s) : Keep a (abortDisarm n s) := by
  unfold abortDisarm
  extract_lets s1
  have h1 : Keep a s1 := by
    unfold s1
    repeat' first
      | with_reducible assumption
      | with_reducible apply State.updNode_keep
      | with_reducible apply armNode_keep
      | refine armNode_some (by assumption) ?_
      | with_reducible apply disarm_keep
  clear_value s1
  repeat' first
    | with_reducible assumption
    | with_reducible apply State.updNode_keep
    | with_reducible apply armNode_keep
    | refine armNode_some (by assumption) ?_
    | with_reducible apply disarm_keep
    | with_reducible refine Keep.ite (fun _ => ?_) (fun _ => ?_)
    | with_reducible apply KeepOpt.getD
    | exact fun _ hc => hc
    | extract_lets
    | split

theorem enterRerun_keep {n : Nat} (h : Keep a s) : Keep a (enterRerun n s) := by
  unfold enterRerun
  repeat' first
    | with_reducible assumption
    | with_reducible apply State.setNode_keep
    | with_reducible apply enterReady_keep
    | with_reducible apply abortDisarm_keep
    | with_reducible refine Keep.ite (fun _ => ?_) (fun _ => ?_)
    | split

theorem postAlts_keep {n : Nat} (h : Keep a s) : Keep a (postAlts n s) := by
  unfold postAlts
  repeat' first
    | with_reducible assumption
    | refine postNode_some (by assumption) ?_
    | with_reducible apply postNode_keep
    | with_reducible refine Keep.ite (fun _ => ?_) (fun _ => ?_)
    | with_reducible refine Keep.foldl ?_ (fun t x ht => ?_)
    | (intro c hc; first | exact hc | (simp; done) | (simpa using hc))
    | extract_lets
    | split
    | dsimp only
    | with_reducible refine Keep.mk_same rfl rfl rfl rfl rfl rfl rfl rfl ?_

theorem abortEnd_keep {n : Nat} (h : Keep a s) : Keep a (abortEnd n s) := by
  unfold abortEnd
  repeat' first
    | with_reducible assumption
    | with_reducible apply State.setNode_keep
    | with_reducible apply State.bump_keep
    | with_reducible apply enterRerun_keep
    | with_reducible apply State.updNode_keep
    | with_reducible apply postAlts_keep
    | with_reducible apply abortDisarm_keep
    | with_reducible refine Keep.ite (fun _ => ?_) (fun _ => ?_)
    | with_reducible refine Keep.foldl ?_ (fun t x ht => ?_)
    | (intro c hc; first | exact hc | (simp; done) | (simpa using hc))
    | extract_lets
    | split
    | dsimp only
    | with_reducible refine Keep.mk_same rfl rfl rfl rfl rfl rfl rfl rfl ?_

theorem fabStatus_keep {k d code b : Nat} (h : Keep a s) : (fabStatus k d code b s).Kept a :=
  Keep.updCore h fun c hc => by rw [Core.setS_ram]; exact hc

theorem fabric_keep {opc k : Nat} {wf : Bool} {xs : List Nat} {f : State → CoreRes} (h : Keep a s) (hf : ∀ t, Keep a t → (f t).Kept a) :
    Keep a (fabric opc k wf xs f s) :=
  issue_keep h fun t ht => by
    split
    · exact excAt_keep ht
    · split
      · exact hf t ht
      · exact excResidue_keep ht

theorem record_keep {k : Nat} {f : RunRec → RunRec} (h : Keep a s) : Keep a (record k f s) := by
  unfold record
  repeat' first
    | with_reducible assumption
    | with_reducible apply Keep.updCore
    | exact fun _ hc => hc

theorem addBull_keep {k : Nat} {o : RunOp} (h : Keep a s) : Keep a (addBull k o s).2 := by
  unfold addBull
  repeat' first
    | with_reducible assumption
    | with_reducible apply State.bump_keep
    | with_reducible apply record_keep
    | with_reducible refine Keep.ite (fun _ => ?_) (fun _ => ?_)
    | with_reducible refine Keep.foldl ?_ (fun t x ht => ?_)
    | (intro c hc; first | exact hc | (simp; done) | (simpa using hc))
    | extract_lets
    | split
    | dsimp only
    | with_reducible refine Keep.mk_same rfl rfl rfl rfl rfl rfl rfl rfl ?_

theorem addBull_pair {k : Nat} {o : RunOp} {y0} {t} (e : addBull k o s = (y0, t)) (h : Keep a s) : Keep a t := by
  have := addBull_keep (k := k) (o := o) h; rwa [e] at this

theorem addSeed_keep {k : Nat} {o : RunOp} (h : Keep a s) : Keep a (addSeed k o s).2 := by
  unfold addSeed
  repeat' first
    | with_reducible assumption
    | with_reducible apply State.bump_keep
    | with_reducible apply record_keep
    | with_reducible refine Keep.ite (fun _ => ?_) (fun _ => ?_)
    | with_reducible refine Keep.foldl ?_ (fun t x ht => ?_)
    | (intro c hc; first | exact hc | (simp; done) | (simpa using hc))
    | extract_lets
    | split
    | dsimp only
    | with_reducible refine Keep.mk_same rfl rfl rfl rfl rfl rfl rfl rfl ?_

theorem addSeed_pair {k : Nat} {o : RunOp} {y0} {t} (e : addSeed k o s = (y0, t)) (h : Keep a s) : Keep a t := by
  have := addSeed_keep (k := k) (o := o) h; rwa [e] at this

theorem recordBull_keep {k : Nat} {d : Nat} {o : RunOp} (h : Keep a s) : (recordBull k d o s).Kept a := by
  unfold recordBull
  repeat' first
    | with_reducible assumption
    | refine addBull_pair (by assumption) ?_
    | with_reducible apply addBull_keep
    | with_reducible apply fabStatus_keep
    | with_reducible refine Keep.ite (fun _ => ?_) (fun _ => ?_)
    | with_reducible refine Keep.foldl ?_ (fun t x ht => ?_)
    | (intro c hc; first | exact hc | (simp; done) | (simpa using hc))
    | with_reducible apply CoreRes.kept_done
    | with_reducible apply CoreRes.kept_stay
    | with_reducible apply CoreRes.kept_jump
    | with_reducible apply CoreRes.kept_skip
    | with_reducible apply CoreRes.kept_exc
    | extract_lets
    | split
    | dsimp only

theorem recordSeed_keep {k : Nat} {d : Nat} {o : RunOp} (h : Keep a s) : (recordSeed k d o s).Kept a := by
  unfold recordSeed
  repeat' first
    | with_reducible assumption
    | refine addSeed_pair (by assumption) ?_
    | with_reducible apply addSeed_keep
    | with_reducible apply fabStatus_keep
    | with_reducible refine Keep.ite (fun _ => ?_) (fun _ => ?_)
    | with_reducible refine Keep.foldl ?_ (fun t x ht => ?_)
    | (intro c hc; first | exact hc | (simp; done) | (simpa using hc))
    | with_reducible apply CoreRes.kept_done
    | with_reducible apply CoreRes.kept_stay
    | with_reducible apply CoreRes.kept_jump
    | with_reducible apply CoreRes.kept_skip
    | with_reducible apply CoreRes.kept_exc
    | extract_lets
    | split
    | dsimp only

theorem execGetw_keep {core : Nat} {mask : Nat} (h : Keep a s) : KeepOut a (execGetw core mask s) := by
  unfold execGetw
  repeat' first
    | with_reducible assumption
    | with_reducible apply tryIdle_keep
    | with_reducible apply issue_keep
    | with_reducible apply excAt_keep
    | with_reducible apply Keep.updCore
    | with_reducible refine Keep.ite (fun _ => ?_) (fun _ => ?_)
    | with_reducible apply CoreRes.kept_done
    | with_reducible apply CoreRes.kept_stay
    | with_reducible apply KciRes.kept_done
    | with_reducible apply KeepOut.next
    | exact fun _ hc => hc
    | split
    | dsimp only
    | intro t ht

theorem execDone_keep {core : Nat} {status : Nat} {fromReg : Option Nat} (h : Keep a s) : KeepOut a (execDone core status fromReg s) := by
  unfold execDone
  repeat' first
    | with_reducible assumption
    | with_reducible apply issue_keep
    | with_reducible apply excResidue_keep
    | with_reducible apply issueDone_keep
    | with_reducible apply Keep.updCore
    | with_reducible refine Keep.ite (fun _ => ?_) (fun _ => ?_)
    | with_reducible refine Keep.foldl ?_ (fun t x ht => ?_)
    | (intro c hc; first | exact hc | (simp; done) | (simpa using hc))
    | with_reducible apply KeepOut.next
    | with_reducible apply CoreRes.kept_done
    | with_reducible apply CoreRes.kept_stay
    | with_reducible apply CoreRes.kept_jump
    | with_reducible apply CoreRes.kept_skip
    | with_reducible apply CoreRes.kept_exc
    | intro t ht
    | extract_lets
    | split
    | dsimp only
    | with_reducible refine Keep.mk_same rfl rfl rfl rfl rfl rfl rfl rfl ?_

theorem execSig_keep {core : Nat} {d : Nat} {x : Nat} {y : Nat} (h : Keep a s) : KeepOut a (execSig core d x y s) := by
  unfold execSig
  repeat' first
    | with_reducible assumption
    | with_reducible apply fabric_keep
    | with_reducible apply fabStatus_keep
    | with_reducible apply recordBull_keep
    | with_reducible refine Keep.ite (fun _ => ?_) (fun _ => ?_)
    | with_reducible refine Keep.foldl ?_ (fun t x ht => ?_)
    | (intro c hc; first | exact hc | (simp; done) | (simpa using hc))
    | with_reducible apply KeepOut.next
    | with_reducible apply CoreRes.kept_done
    | with_reducible apply CoreRes.kept_stay
    | with_reducible apply CoreRes.kept_jump
    | with_reducible apply CoreRes.kept_skip
    | with_reducible apply CoreRes.kept_exc
    | intro t ht
    | extract_lets
    | split
    | dsimp only

theorem execSigd_keep {core : Nat} {d : Nat} {x : Nat} {y : Nat} {flag : Nat} {dropLate : Bool} (h : Keep a s) : KeepOut a (execSigd core d x y flag dropLate s) := by
  unfold execSigd
  repeat' first
    | with_reducible assumption
    | with_reducible apply fabric_keep
    | with_reducible apply fabStatus_keep
    | with_reducible apply recordBull_keep
    | with_reducible refine Keep.ite (fun _ => ?_) (fun _ => ?_)
    | with_reducible refine Keep.foldl ?_ (fun t x ht => ?_)
    | (intro c hc; first | exact hc | (simp; done) | (simpa using hc))
    | with_reducible apply KeepOut.next
    | with_reducible apply CoreRes.kept_done
    | with_reducible apply CoreRes.kept_stay
    | with_reducible apply CoreRes.kept_jump
    | with_reducible apply CoreRes.kept_skip
    | with_reducible apply CoreRes.kept_exc
    | intro t ht
    | extract_lets
    | split
    | dsimp only

theorem execNcan_keep {core : Nat} {d : Nat} {x : Nat} (h : Keep a s) : KeepOut a (execNcan core d x s) := by
  unfold execNcan
  repeat' first
    | with_reducible assumption
    | with_reducible apply fabric_keep
    | with_reducible apply fabStatus_keep
    | with_reducible apply recordBull_keep
    | with_reducible refine Keep.ite (fun _ => ?_) (fun _ => ?_)
    | with_reducible refine Keep.foldl ?_ (fun t x ht => ?_)
    | (intro c hc; first | exact hc | (simp; done) | (simpa using hc))
    | with_reducible apply KeepOut.next
    | with_reducible apply CoreRes.kept_done
    | with_reducible apply CoreRes.kept_stay
    | with_reducible apply CoreRes.kept_jump
    | with_reducible apply CoreRes.kept_skip
    | with_reducible apply CoreRes.kept_exc
    | intro t ht
    | extract_lets
    | split
    | dsimp only

theorem execArm_keep {core : Nat} {d : Nat} {x : Nat} (h : Keep a s) : KeepOut a (execArm core d x s) := by
  unfold execArm
  repeat' first
    | with_reducible assumption
    | with_reducible apply fabric_keep
    | with_reducible apply fabStatus_keep
    | with_reducible apply recordBull_keep
    | with_reducible refine Keep.ite (fun _ => ?_) (fun _ => ?_)
    | with_reducible refine Keep.foldl ?_ (fun t x ht => ?_)
    | (intro c hc; first | exact hc | (simp; done) | (simpa using hc))
    | with_reducible apply KeepOut.next
    | with_reducible apply CoreRes.kept_done
    | with_reducible apply CoreRes.kept_stay
    | with_reducible apply CoreRes.kept_jump
    | with_reducible apply CoreRes.kept_skip
    | with_reducible apply CoreRes.kept_exc
    | intro t ht
    | extract_lets
    | split
    | dsimp only

theorem addPush_keep {k : Nat} {q : Nat} {e : Entry} (h : Keep a s) : Keep a (addPush k q e s).2 := by
  unfold addPush
  repeat' first
    | with_reducible assumption
    | with_reducible apply record_keep
    | with_reducible refine Keep.ite (fun _ => ?_) (fun _ => ?_)
    | with_reducible refine Keep.foldl ?_ (fun t x ht => ?_)
    | (intro c hc; first | exact hc | (simp; done) | (simpa using hc))
    | extract_lets
    | split
    | dsimp only
    | with_reducible refine Keep.mk_same rfl rfl rfl rfl rfl rfl rfl rfl ?_

theorem addPush_pair {k : Nat} {q : Nat} {e : Entry} {y0} {t} (eqn : addPush k q e s = (y0, t)) (h : Keep a s) : Keep a t := by
  have := addPush_keep (k := k) (q := q) (e := e) h; rwa [eqn] at this

theorem execMqpush_keep {core : Nat} {d : Nat} {x : Nat} {y : Nat} (h : Keep a s) : KeepOut a (execMqpush core d x y s) := by
  unfold execMqpush
  repeat' first
    | with_reducible assumption
    | with_reducible apply fabric_keep
    | with_reducible apply excResidue_keep
    | refine addPush_pair (by assumption) ?_
    | with_reducible apply addPush_keep
    | with_reducible apply fabStatus_keep
    | with_reducible refine Keep.ite (fun _ => ?_) (fun _ => ?_)
    | with_reducible refine Keep.foldl ?_ (fun t x ht => ?_)
    | (intro c hc; first | exact hc | (simp; done) | (simpa using hc))
    | with_reducible apply KeepOut.next
    | with_reducible apply CoreRes.kept_done
    | with_reducible apply CoreRes.kept_stay
    | with_reducible apply CoreRes.kept_jump
    | with_reducible apply CoreRes.kept_skip
    | with_reducible apply CoreRes.kept_exc
    | intro t ht
    | extract_lets
    | split
    | dsimp only

theorem popResult_keep {k d code : Nat} {ws : List Word} (h : Keep a s) : (popResult k d code ws s).Kept a :=
  Keep.updCore h fun c hc => (foldl_ram (fun c l => c.setV d l (rv (if l < 4 then ws.getD l 0 else if l = 4 then BitVec.ofNat 32 (code * 2 ^ 24) else 0)))
    (fun _ _ => rfl) (List.range 8) { c with cf := cfZ c.cf (code == 0) }).symm ▸ hc

theorem addPop_keep {k : Nat} {q : Nat} {bound : Option Nat} (h : Keep a s) : Keep a (addPop k q bound s).2.2 := by
  unfold addPop
  repeat' first
    | with_reducible assumption
    | with_reducible apply record_keep
    | refine mqTake_pair (by assumption) ?_
    | with_reducible apply mqTake_keep
    | with_reducible refine Keep.ite (fun _ => ?_) (fun _ => ?_)
    | with_reducible refine Keep.foldl ?_ (fun t x ht => ?_)
    | (intro c hc; first | exact hc | (simp; done) | (simpa using hc))
    | extract_lets
    | split
    | dsimp only
    | with_reducible refine Keep.mk_same rfl rfl rfl rfl rfl rfl rfl rfl ?_

theorem addPop_pair {k : Nat} {q : Nat} {bound : Option Nat} {y0} {y1} {t} (e : addPop k q bound s = (y0, y1, t)) (h : Keep a s) : Keep a t := by
  have := addPop_keep (k := k) (q := q) (bound := bound) h; rwa [e] at this

theorem nodePop_keep {k : Nat} {d : Nat} {x : Nat} {bound : Option Nat} (h : Keep a s) : (nodePop k d x bound s).Kept a := by
  unfold nodePop
  repeat' first
    | with_reducible assumption
    | refine addPop_pair (by assumption) ?_
    | with_reducible apply addPop_keep
    | with_reducible apply popResult_keep
    | with_reducible refine Keep.ite (fun _ => ?_) (fun _ => ?_)
    | with_reducible refine Keep.foldl ?_ (fun t x ht => ?_)
    | (intro c hc; first | exact hc | (simp; done) | (simpa using hc))
    | with_reducible apply CoreRes.kept_done
    | with_reducible apply CoreRes.kept_stay
    | with_reducible apply CoreRes.kept_jump
    | with_reducible apply CoreRes.kept_skip
    | with_reducible apply CoreRes.kept_exc
    | extract_lets
    | split
    | dsimp only

theorem execMqpop_keep {core : Nat} {d : Nat} {x : Nat} (h : Keep a s) : KeepOut a (execMqpop core d x s) := by
  unfold execMqpop
  repeat' first
    | with_reducible assumption
    | with_reducible apply fabric_keep
    | with_reducible apply nodePop_keep
    | with_reducible apply KeepOut.next
    | dsimp only
    | intro t ht

theorem execMqpopKeyed_keep {core : Nat} {d : Nat} {x : Nat} {y : Nat} (h : Keep a s) : KeepOut a (execMqpopKeyed core d x y s) := by
  unfold execMqpopKeyed
  repeat' first
    | with_reducible assumption
    | with_reducible apply fabric_keep
    | with_reducible apply nodePop_keep
    | with_reducible apply KeepOut.next
    | dsimp only
    | intro t ht

theorem execMqmark_keep {core : Nat} {d : Nat} {x : Nat} (h : Keep a s) : KeepOut a (execMqmark core d x s) := by
  unfold execMqmark
  repeat' first
    | with_reducible assumption
    | with_reducible apply fabStatus_keep
    | with_reducible apply fabric_keep
    | with_reducible apply record_keep
    | with_reducible refine Keep.ite (fun _ => ?_) (fun _ => ?_)
    | with_reducible apply KeepOut.next
    | extract_lets
    | split
    | dsimp only
    | intro t ht

theorem addAlloc_keep {k : Nat} {n : Nat} (h : Keep a s) : Keep a (addAlloc k n s).2.2 := by
  unfold addAlloc
  repeat' first
    | with_reducible assumption
    | with_reducible apply State.bump_keep
    | refine seedAlloc_pair (by assumption) ?_
    | with_reducible apply seedAlloc_keep
    | with_reducible apply record_keep
    | with_reducible refine Keep.ite (fun _ => ?_) (fun _ => ?_)
    | with_reducible refine Keep.foldl ?_ (fun t x ht => ?_)
    | (intro c hc; first | exact hc | (simp; done) | (simpa using hc))
    | extract_lets
    | split
    | dsimp only
    | with_reducible refine Keep.mk_same rfl rfl rfl rfl rfl rfl rfl rfl ?_

theorem addAlloc_pair {k : Nat} {n : Nat} {y0} {y1} {t} (e : addAlloc k n s = (y0, y1, t)) (h : Keep a s) : Keep a t := by
  have := addAlloc_keep (k := k) (n := n) h; rwa [e] at this

theorem execBalloc_keep {core : Nat} {d : Nat} {x : Nat} (h : Keep a s) : KeepOut a (execBalloc core d x s) := by
  unfold execBalloc
  repeat' first
    | with_reducible assumption
    | with_reducible apply fabric_keep
    | refine addAlloc_pair (by assumption) ?_
    | with_reducible apply addAlloc_keep
    | with_reducible apply fabStatus_keep
    | with_reducible refine Keep.ite (fun _ => ?_) (fun _ => ?_)
    | with_reducible refine Keep.foldl ?_ (fun t x ht => ?_)
    | (intro c hc; first | exact hc | (simp; done) | (simpa using hc))
    | with_reducible apply KeepOut.next
    | with_reducible apply CoreRes.kept_done
    | with_reducible apply CoreRes.kept_stay
    | with_reducible apply CoreRes.kept_jump
    | with_reducible apply CoreRes.kept_skip
    | with_reducible apply CoreRes.kept_exc
    | intro t ht
    | extract_lets
    | split
    | dsimp only

theorem execBfree_keep {core : Nat} {d : Nat} {x : Nat} (h : Keep a s) : KeepOut a (execBfree core d x s) := by
  unfold execBfree
  repeat' first
    | with_reducible assumption
    | with_reducible apply fabStatus_keep
    | with_reducible apply fabric_keep
    | with_reducible apply recordSeed_keep
    | with_reducible refine Keep.ite (fun _ => ?_) (fun _ => ?_)
    | with_reducible apply KeepOut.next
    | extract_lets
    | split
    | dsimp only
    | intro t ht

theorem execBgive_keep {core : Nat} {d : Nat} {x : Nat} {y : Nat} (h : Keep a s) : KeepOut a (execBgive core d x y s) := by
  unfold execBgive
  repeat' first
    | with_reducible assumption
    | with_reducible apply fabStatus_keep
    | with_reducible apply fabric_keep
    | with_reducible apply recordSeed_keep
    | with_reducible refine Keep.ite (fun _ => ?_) (fun _ => ?_)
    | with_reducible apply KeepOut.next
    | extract_lets
    | split
    | dsimp only
    | intro t ht

theorem xmov_keep {toBuf : Bool} {k : Nat} {d : Nat} {x : Nat} {y : Nat} (h : Keep a s) : Keep a (xmov toBuf k d x y s) := by
  unfold xmov
  repeat' first
    | with_reducible assumption
    | with_reducible apply fabric_keep
    | with_reducible apply excAt_keep
    | with_reducible apply excResidue_keep
    | with_reducible apply startMove_keep
    | with_reducible apply Keep.updCore
    | with_reducible refine Keep.ite (fun _ => ?_) (fun _ => ?_)
    | with_reducible refine Keep.foldl ?_ (fun t x ht => ?_)
    | (intro c hc; first | exact hc | (simp; done) | (simpa using hc))
    | with_reducible apply CoreRes.kept_done
    | with_reducible apply CoreRes.kept_stay
    | with_reducible apply CoreRes.kept_jump
    | with_reducible apply CoreRes.kept_skip
    | with_reducible apply CoreRes.kept_exc
    | intro t ht
    | extract_lets
    | split
    | dsimp only
    | with_reducible refine Keep.mk_same rfl rfl rfl rfl rfl rfl rfl rfl ?_

theorem execXmovToLocal_keep {core : Nat} {d : Nat} {x : Nat} {y : Nat} (h : Keep a s) : KeepOut a (execXmovToLocal core d x y s) := by
  unfold execXmovToLocal
  repeat' first
    | with_reducible assumption
    | with_reducible apply xmov_keep
    | with_reducible apply KeepOut.next

theorem execXmovToBuffer_keep {core : Nat} {d : Nat} {x : Nat} {y : Nat} (h : Keep a s) : KeepOut a (execXmovToBuffer core d x y s) := by
  unfold execXmovToBuffer
  repeat' first
    | with_reducible assumption
    | with_reducible apply xmov_keep
    | with_reducible apply KeepOut.next

theorem execXwait_keep {core : Nat} (h : Keep a s) : KeepOut a (execXwait core s) := by
  unfold execXwait
  repeat' first
    | with_reducible assumption
    | with_reducible apply issue_keep
    | with_reducible apply Keep.updCore
    | with_reducible refine Keep.ite (fun _ => ?_) (fun _ => ?_)
    | with_reducible apply CoreRes.kept_done
    | with_reducible apply CoreRes.kept_stay
    | with_reducible apply KciRes.kept_done
    | with_reducible apply KeepOut.next
    | exact fun _ hc => hc
    | (intro c hc; first | exact hc | (simp; done) | (simpa using hc))
    | split
    | dsimp only
    | intro t ht

theorem putPair_keep {k d y lo hi : Nat} (h : Keep a s) : Keep a (putPair k d y lo hi s) := by
  unfold putPair
  split
  next e =>
  refine Keep.updCore ?_ fun c hc => ?_
  · split at e
    · exact State.draw_pair e h
    · cases e; exact h
  · dsimp only; split <;> simpa using hc

theorem execRdpmc_keep {core : Nat} {d : Nat} {n : Nat} {y : Nat} (h : Keep a s) : KeepOut a (execRdpmc core d n y s) := by
  unfold execRdpmc
  repeat' first
    | with_reducible assumption
    | with_reducible apply issue_keep
    | with_reducible apply putPair_keep
    | with_reducible apply Keep.updCore
    | with_reducible refine Keep.ite (fun _ => ?_) (fun _ => ?_)
    | with_reducible apply CoreRes.kept_done
    | with_reducible apply KciRes.kept_done
    | with_reducible apply KeepOut.next
    | exact fun _ hc => hc
    | (intro c hc; first | exact hc | (simp; done) | (simpa using hc))
    | extract_lets
    | split
    | dsimp only
    | intro t ht

theorem execRdcyc_keep {core : Nat} {d : Nat} {y : Nat} (h : Keep a s) : KeepOut a (execRdcyc core d y s) := by
  unfold execRdcyc
  repeat' first
    | with_reducible assumption
    | with_reducible apply issue_keep
    | with_reducible apply putPair_keep
    | with_reducible apply CoreRes.kept_done
    | with_reducible apply KciRes.kept_done
    | with_reducible apply KeepOut.next
    | extract_lets
    | dsimp only
    | intro t ht

theorem movxFrom_keep {k : Nat} {d : Nat} {wf : Bool} {f : Core → Word} (h : Keep a s) : Keep a (movxFrom k d wf f s) := by
  unfold movxFrom
  repeat' first
    | with_reducible assumption
    | with_reducible apply issue_keep
    | with_reducible apply finishS_keep
    | dsimp only
    | intro t ht

theorem movxTo_keep {k x : Nat} {wf : Bool} {f : Word → Core → Core} (h : Keep a s) (hf : ∀ w c, (f w c).ram = c.ram) :
    Keep a (movxTo k x wf f s) :=
  issue_keep h fun _ ht => writeBack_keep ht fun c hc => by rw [hf]; exact hc

theorem execMovxFromPn_keep {core : Nat} {d : Nat} {x : Nat} (h : Keep a s) : KeepOut a (execMovxFromPn core d x s) := by
  unfold execMovxFromPn
  repeat' first
    | with_reducible assumption
    | with_reducible apply movxFrom_keep
    | with_reducible apply KeepOut.next

theorem execMovxToPn_keep {core : Nat} {d : Nat} {x : Nat} (h : Keep a s) : KeepOut a (execMovxToPn core d x s) := by
  unfold execMovxToPn
  repeat' first
    | with_reducible assumption
    | with_reducible refine movxTo_keep ?_ (fun w c => by simp)
    | with_reducible apply KeepOut.next

theorem execMovxFromBl_keep {core : Nat} {d : Nat} {x : Nat} (h : Keep a s) : KeepOut a (execMovxFromBl core d x s) := by
  unfold execMovxFromBl
  repeat' first
    | with_reducible assumption
    | with_reducible apply movxFrom_keep
    | with_reducible apply KeepOut.next

theorem execMovxToBl_keep {core : Nat} {d : Nat} {x : Nat} (h : Keep a s) : KeepOut a (execMovxToBl core d x s) := by
  unfold execMovxToBl
  repeat' first
    | with_reducible assumption
    | with_reducible refine movxTo_keep ?_ (fun w c => by simp)
    | with_reducible apply KeepOut.next

theorem execMovxFromCf_keep {core : Nat} {d : Nat} (h : Keep a s) : KeepOut a (execMovxFromCf core d s) := by
  unfold execMovxFromCf
  repeat' first
    | with_reducible assumption
    | with_reducible apply movxFrom_keep
    | with_reducible apply KeepOut.next

theorem execMovxToCf_keep {core : Nat} {x : Nat} (h : Keep a s) : KeepOut a (execMovxToCf core x s) := by
  unfold execMovxToCf
  repeat' first
    | with_reducible assumption
    | with_reducible refine movxTo_keep ?_ (fun w c => by simp)
    | with_reducible apply KeepOut.next

theorem execMovxFromSt_keep {core : Nat} {d : Nat} (h : Keep a s) : KeepOut a (execMovxFromSt core d s) := by
  unfold execMovxFromSt
  repeat' first
    | with_reducible assumption
    | with_reducible apply movxFrom_keep
    | with_reducible apply KeepOut.next

theorem execMovxFromSf_keep {core : Nat} {d : Nat} (h : Keep a s) : KeepOut a (execMovxFromSf core d s) := by
  unfold execMovxFromSf
  repeat' first
    | with_reducible assumption
    | with_reducible apply movxFrom_keep
    | with_reducible apply KeepOut.next

theorem execNop_keep {core : Nat} (h : Keep a s) : KeepOut a (execNop core s) := by
  unfold execNop
  repeat' first
    | with_reducible assumption
    | with_reducible apply issue_keep
    | with_reducible apply CoreRes.kept_done
    | with_reducible apply KciRes.kept_done
    | with_reducible apply KeepOut.next

theorem execSfclr_keep {core : Nat} {x : Nat} (h : Keep a s) : KeepOut a (execSfclr core x s) := by
  unfold execSfclr
  repeat' first
    | with_reducible assumption
    | with_reducible apply issue_keep
    | with_reducible apply excResidue_keep
    | with_reducible apply Keep.updCore
    | with_reducible refine Keep.ite (fun _ => ?_) (fun _ => ?_)
    | with_reducible refine Keep.foldl ?_ (fun t x ht => ?_)
    | (intro c hc; first | exact hc | (simp; done) | (simpa using hc))
    | with_reducible apply KeepOut.next
    | with_reducible apply CoreRes.kept_done
    | with_reducible apply CoreRes.kept_stay
    | with_reducible apply CoreRes.kept_jump
    | with_reducible apply CoreRes.kept_skip
    | with_reducible apply CoreRes.kept_exc
    | intro t ht
    | extract_lets
    | split
    | dsimp only
    | with_reducible refine Keep.mk_same rfl rfl rfl rfl rfl rfl rfl rfl ?_

theorem execIllegalEncoding_keep {core : Nat} {word : Word} (h : Keep a s) : KeepOut a (execIllegalEncoding core word s) := by
  unfold execIllegalEncoding
  repeat' first
    | with_reducible assumption
    | with_reducible apply issue_keep
    | with_reducible refine Keep.ite (fun _ => ?_) (fun _ => ?_)
    | with_reducible refine Keep.foldl ?_ (fun t x ht => ?_)
    | (intro c hc; first | exact hc | (simp; done) | (simpa using hc))
    | with_reducible apply KeepOut.next
    | with_reducible apply CoreRes.kept_done
    | with_reducible apply CoreRes.kept_stay
    | with_reducible apply CoreRes.kept_jump
    | with_reducible apply CoreRes.kept_skip
    | with_reducible apply CoreRes.kept_exc
    | intro t ht
    | extract_lets
    | split
    | dsimp only
    | with_reducible refine Keep.mk_same rfl rfl rfl rfl rfl rfl rfl rfl ?_

end Sys2Proof.Machine
end

