-- ==== Sys2Proof/Laws/KeepKml.lean ====
section
/-!
SUPPORT. Laws/KeepKml.lean: every operation of the Kelrik Media Library's nodes keeps what Keep names.
-/

namespace Sys2Proof.Machine

variable {a s : State}

theorem putCtx_keep {k : Nat} {o : Nat} {v : Nat} (h : Keep a s) : Keep a (putCtx k o v s) := by
  unfold putCtx
  repeat' first
    | with_reducible assumption
    | with_reducible apply localStore_keep
    | with_reducible refine Keep.ite (fun _ => ?_) (fun _ => ?_)
    | with_reducible refine Keep.foldl ?_ (fun t x ht => ?_)
    | (intro c hc; first | exact hc | (simp; done) | (simpa using hc))
    | extract_lets
    | split
    | dsimp only
    | with_reducible refine Keep.mk_same rfl rfl rfl rfl rfl rfl rfl rfl ?_

theorem addCtx_keep {k : Nat} {o : Nat} {n : Nat} (h : Keep a s) : Keep a (addCtx k o n s) := by
  unfold addCtx
  repeat' first
    | with_reducible assumption
    | with_reducible apply putCtx_keep
    | with_reducible refine Keep.ite (fun _ => ?_) (fun _ => ?_)
    | with_reducible refine Keep.foldl ?_ (fun t x ht => ?_)
    | (intro c hc; first | exact hc | (simp; done) | (simpa using hc))
    | extract_lets
    | split
    | dsimp only
    | with_reducible refine Keep.mk_same rfl rfl rfl rfl rfl rfl rfl rfl ?_

theorem kmlPop_keep {k : Nat} {q : Nat} {bound : Option Nat} (h : Keep a s) : Keep a (kmlPop k q bound s).2 := by
  unfold kmlPop
  repeat' first
    | with_reducible assumption
    | refine addPop_pair (by assumption) ?_
    | with_reducible apply addPop_keep
    | with_reducible refine Keep.ite (fun _ => ?_) (fun _ => ?_)
    | with_reducible refine Keep.foldl ?_ (fun t x ht => ?_)
    | (intro c hc; first | exact hc | (simp; done) | (simpa using hc))
    | extract_lets
    | split
    | dsimp only
    | with_reducible refine Keep.mk_same rfl rfl rfl rfl rfl rfl rfl rfl ?_

theorem kmlPop_pair {k : Nat} {q : Nat} {bound : Option Nat} {y0} {t} (e : kmlPop k q bound s = (y0, t)) (h : Keep a s) : Keep a t := by
  have := kmlPop_keep (k := k) (q := q) (bound := bound) h; rwa [e] at this

theorem kmlFree_keep {k : Nat} {h' : Nat} (h : Keep a s) : Keep a (kmlFree k h' s) := by
  unfold kmlFree
  repeat' first
    | with_reducible assumption
    | refine addSeed_pair (by assumption) ?_
    | with_reducible apply addSeed_keep
    | with_reducible refine Keep.ite (fun _ => ?_) (fun _ => ?_)
    | with_reducible refine Keep.foldl ?_ (fun t x ht => ?_)
    | (intro c hc; first | exact hc | (simp; done) | (simpa using hc))
    | extract_lets
    | split
    | dsimp only
    | with_reducible refine Keep.mk_same rfl rfl rfl rfl rfl rfl rfl rfl ?_

theorem kmlRelease_keep {k : Nat} {e : Entry} (h : Keep a s) : Keep a (kmlRelease k e s) := by
  unfold kmlRelease
  repeat' first
    | with_reducible assumption
    | with_reducible apply kmlFree_keep
    | with_reducible refine Keep.ite (fun _ => ?_) (fun _ => ?_)
    | with_reducible refine Keep.foldl ?_ (fun t x ht => ?_)
    | (intro c hc; first | exact hc | (simp; done) | (simpa using hc))
    | extract_lets
    | split
    | dsimp only
    | with_reducible refine Keep.mk_same rfl rfl rfl rfl rfl rfl rfl rfl ?_

theorem kmlSig_keep {k : Nat} {t : Nat} {flag : Nat} (h : Keep a s) : Keep a (kmlSig k t flag s) := by
  unfold kmlSig
  repeat' first
    | with_reducible assumption
    | refine addBull_pair (by assumption) ?_
    | with_reducible apply addBull_keep
    | with_reducible refine Keep.ite (fun _ => ?_) (fun _ => ?_)
    | with_reducible refine Keep.foldl ?_ (fun t x ht => ?_)
    | (intro c hc; first | exact hc | (simp; done) | (simpa using hc))
    | extract_lets
    | split
    | dsimp only
    | with_reducible refine Keep.mk_same rfl rfl rfl rfl rfl rfl rfl rfl ?_

theorem kmlGive_keep {k : Nat} {acct : Nat} {bs : List Byte} (h : Keep a s) : Keep a (kmlGive k acct bs s).2 := by
  unfold kmlGive
  repeat' first
    | with_reducible assumption
    | refine addAlloc_pair (by assumption) ?_
    | with_reducible apply addAlloc_keep
    | refine addSeed_pair (by assumption) ?_
    | with_reducible apply addSeed_keep
    | with_reducible apply bufWrite_keep
    | with_reducible refine Keep.ite (fun _ => ?_) (fun _ => ?_)
    | with_reducible refine Keep.foldl ?_ (fun t x ht => ?_)
    | (intro c hc; first | exact hc | (simp; done) | (simpa using hc))
    | extract_lets
    | split
    | dsimp only
    | with_reducible refine Keep.mk_same rfl rfl rfl rfl rfl rfl rfl rfl ?_

theorem kmlGive_pair {k : Nat} {acct : Nat} {bs : List Byte} {y0} {t} (e : kmlGive k acct bs s = (y0, t)) (h : Keep a s) : Keep a t := by
  have := kmlGive_keep (k := k) (acct := acct) (bs := bs) h; rwa [e] at this

theorem leaveKml_keep {k : Nat} {x : KmlSt} (h : Keep a s) : Keep a (leaveKml k x s) := by
  unfold leaveKml
  repeat' first
    | with_reducible assumption
    | with_reducible apply record_keep
    | with_reducible refine Keep.ite (fun _ => ?_) (fun _ => ?_)
    | with_reducible refine Keep.foldl ?_ (fun t x ht => ?_)
    | (intro c hc; first | exact hc | (simp; done) | (simpa using hc))
    | extract_lets
    | split
    | dsimp only
    | with_reducible refine Keep.mk_same rfl rfl rfl rfl rfl rfl rfl rfl ?_

theorem kmlFault_keep {k : Nat} {code : Nat} (h : Keep a s) : Keep a (kmlFault k code s) := by
  unfold kmlFault
  repeat' first
    | with_reducible assumption
    | with_reducible apply takeException_keep
    | with_reducible refine Keep.ite (fun _ => ?_) (fun _ => ?_)
    | with_reducible refine Keep.foldl ?_ (fun t x ht => ?_)
    | (intro c hc; first | exact hc | (simp; done) | (simpa using hc))
    | extract_lets
    | split
    | dsimp only
    | with_reducible refine Keep.mk_same rfl rfl rfl rfl rfl rfl rfl rfl ?_

theorem gather_keep {k : Nat} {q : Nat} {first : Nat} {item : Nat} {x0 : Nat} {x1 : Gather} (h : Keep a s) : Keep a (gather k q first item x0 x1 s).2 := by
  induction x0 generalizing x1 s with
  | zero =>
    unfold gather
    repeat' first
      | with_reducible assumption
      | refine kmlPop_pair (by assumption) ?_
      | with_reducible apply kmlPop_keep
      | with_reducible apply kmlRelease_keep
      | with_reducible refine Keep.ite (fun _ => ?_) (fun _ => ?_)
      | with_reducible refine Keep.foldl ?_ (fun t x ht => ?_)
      | (intro c hc; first | exact hc | (simp; done) | (simpa using hc))
      | extract_lets
      | split
      | dsimp only
      | with_reducible refine Keep.mk_same rfl rfl rfl rfl rfl rfl rfl rfl ?_
  | succ n ih =>
    unfold gather
    repeat' first
      | with_reducible apply ih
      | with_reducible assumption
      | refine kmlPop_pair (by assumption) ?_
      | with_reducible apply kmlPop_keep
      | with_reducible apply kmlRelease_keep
      | with_reducible refine Keep.ite (fun _ => ?_) (fun _ => ?_)
      | with_reducible refine Keep.foldl ?_ (fun t x ht => ?_)
      | (intro c hc; first | exact hc | (simp; done) | (simpa using hc))
      | extract_lets
      | split
      | dsimp only
      | with_reducible refine Keep.mk_same rfl rfl rfl rfl rfl rfl rfl rfl ?_

theorem gather_pair {k : Nat} {q : Nat} {first : Nat} {item : Nat} {x0 : Nat} {x1 : Gather} {y0} {t} (e : gather k q first item x0 x1 s = (y0, t)) (h : Keep a s) : Keep a t := by
  have := gather_keep (k := k) (q := q) (first := first) (item := item) (x0 := x0) (x1 := x1) h; rwa [e] at this

theorem popWindow_keep {k : Nat} {c : CancSt} {item : Nat} (h : Keep a s) : Keep a (popWindow k c item s).2 := by
  unfold popWindow
  extract_lets _ _ _ got
  have hg : Keep a got.2 := by
    unfold got
    split
    · exact kmlPop_keep h
    · exact h
  clear_value got
  split
  · exact hg
  · exact gather_keep (gather_keep hg)

theorem popWindow_pair {k : Nat} {c : CancSt} {item : Nat} {y0} {t} (e : popWindow k c item s = (y0, t)) (h : Keep a s) : Keep a t := by
  have := popWindow_keep (k := k) (c := c) (item := item) h; rwa [e] at this

theorem cancOutput_keep {k : Nat} {bs : List Byte} (h : Keep a s) : Keep a (cancOutput k bs s) := by
  unfold cancOutput
  repeat' first
    | with_reducible assumption
    | refine kmlGive_pair (by assumption) ?_
    | with_reducible apply kmlGive_keep
    | with_reducible apply kmlSig_keep
    | with_reducible refine Keep.ite (fun _ => ?_) (fun _ => ?_)
    | with_reducible refine Keep.foldl ?_ (fun t x ht => ?_)
    | (intro c hc; first | exact hc | (simp; done) | (simpa using hc))
    | extract_lets
    | split
    | dsimp only
    | with_reducible refine Keep.mk_same rfl rfl rfl rfl rfl rfl rfl rfl ?_

theorem clearCounts_keep {k : Nat} (h : Keep a s) : Keep a (clearCounts k s) := by
  unfold clearCounts
  repeat' first
    | with_reducible assumption
    | with_reducible apply putCtx_keep
    | with_reducible refine Keep.ite (fun _ => ?_) (fun _ => ?_)
    | with_reducible refine Keep.foldl ?_ (fun t x ht => ?_)
    | (intro c hc; first | exact hc | (simp; done) | (simpa using hc))
    | extract_lets
    | split
    | dsimp only
    | with_reducible refine Keep.mk_same rfl rfl rfl rfl rfl rfl rfl rfl ?_

theorem cancStart_keep {k : Nat} {r : CancRec} {c : CancSt} (h : Keep a s) : Keep a (cancStart k r c s).2 := by
  unfold cancStart
  repeat' first
    | with_reducible assumption
    | with_reducible apply clearCounts_keep
    | with_reducible apply putCtx_keep
    | with_reducible refine Keep.ite (fun _ => ?_) (fun _ => ?_)
    | with_reducible refine Keep.foldl ?_ (fun t x ht => ?_)
    | (intro c hc; first | exact hc | (simp; done) | (simpa using hc))
    | extract_lets
    | split
    | dsimp only
    | with_reducible refine Keep.mk_same rfl rfl rfl rfl rfl rfl rfl rfl ?_

theorem cancStart_pair {k : Nat} {r : CancRec} {c : CancSt} {y0} {t} (e : cancStart k r c s = (y0, t)) (h : Keep a s) : Keep a t := by
  have := cancStart_keep (k := k) (r := r) (c := c) h; rwa [e] at this

theorem countWindow_keep {k : Nat} {item : Nat} {w : Window} {clipped : Bool} (h : Keep a s) : Keep a (countWindow k item w clipped s) := by
  unfold countWindow
  extract_lets v1 s1 s2 s3 s4
  have h1 : Keep a s1 := by
    unfold s1
    repeat' first
      | with_reducible assumption
      | with_reducible apply addCtx_keep
      | with_reducible refine Keep.ite (fun _ => ?_) (fun _ => ?_)
      | with_reducible refine Keep.foldl ?_ (fun t x ht => ?_)
      | (intro c hc; first | exact hc | (simp; done) | (simpa using hc))
      | extract_lets
      | split
      | dsimp only
      | with_reducible refine Keep.mk_same rfl rfl rfl rfl rfl rfl rfl rfl ?_
  clear_value s1
  have h2 : Keep a s2 := by
    unfold s2
    repeat' first
      | with_reducible assumption
      | with_reducible apply addCtx_keep
      | with_reducible refine Keep.ite (fun _ => ?_) (fun _ => ?_)
      | with_reducible refine Keep.foldl ?_ (fun t x ht => ?_)
      | (intro c hc; first | exact hc | (simp; done) | (simpa using hc))
      | extract_lets
      | split
      | dsimp only
      | with_reducible refine Keep.mk_same rfl rfl rfl rfl rfl rfl rfl rfl ?_
  clear_value s2
  have h3 : Keep a s3 := by
    unfold s3
    repeat' first
      | with_reducible assumption
      | with_reducible apply addCtx_keep
      | with_reducible refine Keep.ite (fun _ => ?_) (fun _ => ?_)
      | with_reducible refine Keep.foldl ?_ (fun t x ht => ?_)
      | (intro c hc; first | exact hc | (simp; done) | (simpa using hc))
      | extract_lets
      | split
      | dsimp only
      | with_reducible refine Keep.mk_same rfl rfl rfl rfl rfl rfl rfl rfl ?_
  clear_value s3
  have h4 : Keep a s4 := by
    unfold s4
    repeat' first
      | with_reducible assumption
      | with_reducible apply addCtx_keep
      | with_reducible refine Keep.ite (fun _ => ?_) (fun _ => ?_)
      | with_reducible refine Keep.foldl ?_ (fun t x ht => ?_)
      | (intro c hc; first | exact hc | (simp; done) | (simpa using hc))
      | extract_lets
      | split
      | dsimp only
      | with_reducible refine Keep.mk_same rfl rfl rfl rfl rfl rfl rfl rfl ?_
  clear_value s4
  repeat' first
    | with_reducible assumption
    | with_reducible apply addCtx_keep
    | with_reducible refine Keep.ite (fun _ => ?_) (fun _ => ?_)
    | with_reducible refine Keep.foldl ?_ (fun t x ht => ?_)
    | (intro c hc; first | exact hc | (simp; done) | (simpa using hc))
    | extract_lets
    | split
    | dsimp only
    | with_reducible refine Keep.mk_same rfl rfl rfl rfl rfl rfl rfl rfl ?_

theorem putLevels_keep {k : Nat} {rin : List Int} {sin : List Int} {sout : List Int} (h : Keep a s) : Keep a (putLevels k rin sin sout s) := by
  unfold putLevels
  repeat' first
    | with_reducible assumption
    | with_reducible apply putCtx_keep
    | with_reducible refine Keep.ite (fun _ => ?_) (fun _ => ?_)
    | with_reducible refine Keep.foldl ?_ (fun t x ht => ?_)
    | (intro c hc; first | exact hc | (simp; done) | (simpa using hc))
    | extract_lets
    | split
    | dsimp only
    | with_reducible refine Keep.mk_same rfl rfl rfl rfl rfl rfl rfl rfl ?_

theorem cancRun_keep {k : Nat} {node : Nat} {f : Nat} {r : CancRec} {c : CancSt} {w : Window} (h : Keep a s) : Keep a (cancRun k node f r c w s) := by
  unfold cancRun
  extract_lets sin rin c1 full q bands runs sout s5 s4 erle src c2 s3 s2 s1 s0
  have h5 : Keep a s5 := cancOutput_keep h
  have h4 : Keep a s4 := kmlSig_keep (Keep.foldl h5 fun _ _ ht => kmlRelease_keep ht)
  have h0 : Keep a s0 := putCtx_keep (putCtx_keep (addCtx_keep (countWindow_keep h4)))
  exact leaveKml_keep (addCtx_keep (putLevels_keep h0))

theorem bypassRun_keep {k : Nat} {node : Nat} {f : Nat} {r : CancRec} {c : CancSt} {w : Window} (h : Keep a s) : Keep a (bypassRun k node f r c w s) := by
  unfold bypassRun
  extract_lets v1 v2 v3 v4 v5 v6 s1 s2 v7 s3
  have h1 : Keep a s1 := by
    unfold s1
    repeat' first
      | with_reducible assumption
      | with_reducible apply cancOutput_keep
      | with_reducible apply kmlSig_keep
      | with_reducible apply kmlRelease_keep
      | with_reducible apply countWindow_keep
      | with_reducible apply leaveKml_keep
      | with_reducible apply addCtx_keep
      | with_reducible apply putLevels_keep
      | with_reducible refine Keep.ite (fun _ => ?_) (fun _ => ?_)
      | with_reducible refine Keep.foldl ?_ (fun t x ht => ?_)
      | (intro c hc; first | exact hc | (simp; done) | (simpa using hc))
      | extract_lets
      | split
      | dsimp only
      | with_reducible refine Keep.mk_same rfl rfl rfl rfl rfl rfl rfl rfl ?_
  clear_value s1
  have h2 : Keep a s2 := by
    unfold s2
    repeat' first
      | with_reducible assumption
      | with_reducible apply cancOutput_keep
      | with_reducible apply kmlSig_keep
      | with_reducible apply kmlRelease_keep
      | with_reducible apply countWindow_keep
      | with_reducible apply leaveKml_keep
      | with_reducible apply addCtx_keep
      | with_reducible apply putLevels_keep
      | with_reducible refine Keep.ite (fun _ => ?_) (fun _ => ?_)
      | with_reducible refine Keep.foldl ?_ (fun t x ht => ?_)
      | (intro c hc; first | exact hc | (simp; done) | (simpa using hc))
      | extract_lets
      | split
      | dsimp only
      | with_reducible refine Keep.mk_same rfl rfl rfl rfl rfl rfl rfl rfl ?_
  clear_value s2
  have h3 : Keep a s3 := by
    unfold s3
    repeat' first
      | with_reducible assumption
      | with_reducible apply cancOutput_keep
      | with_reducible apply kmlSig_keep
      | with_reducible apply kmlRelease_keep
      | with_reducible apply countWindow_keep
      | with_reducible apply leaveKml_keep
      | with_reducible apply addCtx_keep
      | with_reducible apply putLevels_keep
      | with_reducible refine Keep.ite (fun _ => ?_) (fun _ => ?_)
      | with_reducible refine Keep.foldl ?_ (fun t x ht => ?_)
      | (intro c hc; first | exact hc | (simp; done) | (simpa using hc))
      | extract_lets
      | split
      | dsimp only
      | with_reducible refine Keep.mk_same rfl rfl rfl rfl rfl rfl rfl rfl ?_
  clear_value s3
  repeat' first
    | with_reducible assumption
    | with_reducible apply cancOutput_keep
    | with_reducible apply kmlSig_keep
    | with_reducible apply kmlRelease_keep
    | with_reducible apply countWindow_keep
    | with_reducible apply leaveKml_keep
    | with_reducible apply addCtx_keep
    | with_reducible apply putLevels_keep
    | with_reducible refine Keep.ite (fun _ => ?_) (fun _ => ?_)
    | with_reducible refine Keep.foldl ?_ (fun t x ht => ?_)
    | (intro c hc; first | exact hc | (simp; done) | (simpa using hc))
    | extract_lets
    | split
    | dsimp only
    | with_reducible refine Keep.mk_same rfl rfl rfl rfl rfl rfl rfl rfl ?_

theorem bypassRelease_keep {k : Nat} {node : Nat} {c : CancSt} (h : Keep a s) : Keep a (bypassRelease k node c s) := by
  unfold bypassRelease
  repeat' first
    | with_reducible assumption
    | refine addBull_pair (by assumption) ?_
    | with_reducible apply addBull_keep
    | with_reducible apply kmlSig_keep
    | with_reducible apply leaveKml_keep
    | with_reducible apply addCtx_keep
    | with_reducible apply putCtx_keep
    | with_reducible refine Keep.ite (fun _ => ?_) (fun _ => ?_)
    | with_reducible refine Keep.foldl ?_ (fun t x ht => ?_)
    | (intro c hc; first | exact hc | (simp; done) | (simpa using hc))
    | extract_lets
    | split
    | dsimp only
    | with_reducible refine Keep.mk_same rfl rfl rfl rfl rfl rfl rfl rfl ?_

theorem cancellerRun_keep {bypass : Bool} {k : Nat} {node : Nat} (h : Keep a s) : Keep a (cancellerRun bypass k node s) := by
  unfold cancellerRun
  repeat' first
    | with_reducible assumption
    | with_reducible apply bypassRelease_keep
    | refine cancStart_pair (by assumption) ?_
    | with_reducible apply cancStart_keep
    | refine popWindow_pair (by assumption) ?_
    | with_reducible apply popWindow_keep
    | with_reducible apply leaveKml_keep
    | with_reducible apply addCtx_keep
    | with_reducible apply kmlSig_keep
    | with_reducible apply kmlFault_keep
    | with_reducible apply bypassRun_keep
    | with_reducible apply cancRun_keep
    | with_reducible refine Keep.ite (fun _ => ?_) (fun _ => ?_)
    | with_reducible refine Keep.foldl ?_ (fun t x ht => ?_)
    | (intro c hc; first | exact hc | (simp; done) | (simpa using hc))
    | extract_lets
    | split
    | dsimp only
    | with_reducible refine Keep.mk_same rfl rfl rfl rfl rfl rfl rfl rfl ?_

theorem putEvent_keep {k : Nat} {e : Nat × DetEvent} (h : Keep a s) : Keep a (putEvent k e s) := by
  unfold putEvent
  repeat' first
    | with_reducible assumption
    | with_reducible apply addCtx_keep
    | with_reducible apply putCtx_keep
    | with_reducible refine Keep.ite (fun _ => ?_) (fun _ => ?_)
    | with_reducible refine Keep.foldl ?_ (fun t x ht => ?_)
    | (intro c hc; first | exact hc | (simp; done) | (simpa using hc))
    | extract_lets
    | split
    | dsimp only
    | with_reducible refine Keep.mk_same rfl rfl rfl rfl rfl rfl rfl rfl ?_

theorem putChan_keep {k : Nat} {n : Nat} {xs : List Int} {es : List (Nat × DetEvent)} {old : DetSt} {d : DetSt} {ch : Nat} (h : Keep a s) : Keep a (putChan k n xs es old d ch s) := by
  unfold putChan
  extract_lets v1 v2 v3 v4 v5 v6 v7 v8 s1 s2 s3 s4
  have h1 : Keep a s1 := by
    unfold s1
    repeat' first
      | with_reducible assumption
      | with_reducible apply putCtx_keep
      | with_reducible apply addCtx_keep
      | with_reducible refine Keep.ite (fun _ => ?_) (fun _ => ?_)
      | with_reducible refine Keep.foldl ?_ (fun t x ht => ?_)
      | (intro c hc; first | exact hc | (simp; done) | (simpa using hc))
      | extract_lets
      | split
      | dsimp only
      | with_reducible refine Keep.mk_same rfl rfl rfl rfl rfl rfl rfl rfl ?_
  clear_value s1
  have h2 : Keep a s2 := by
    unfold s2
    repeat' first
      | with_reducible assumption
      | with_reducible apply putCtx_keep
      | with_reducible apply addCtx_keep
      | with_reducible refine Keep.ite (fun _ => ?_) (fun _ => ?_)
      | with_reducible refine Keep.foldl ?_ (fun t x ht => ?_)
      | (intro c hc; first | exact hc | (simp; done) | (simpa using hc))
      | extract_lets
      | split
      | dsimp only
      | with_reducible refine Keep.mk_same rfl rfl rfl rfl rfl rfl rfl rfl ?_
  clear_value s2
  have h3 : Keep a s3 := by
    unfold s3
    repeat' first
      | with_reducible assumption
      | with_reducible apply putCtx_keep
      | with_reducible apply addCtx_keep
      | with_reducible refine Keep.ite (fun _ => ?_) (fun _ => ?_)
      | with_reducible refine Keep.foldl ?_ (fun t x ht => ?_)
      | (intro c hc; first | exact hc | (simp; done) | (simpa using hc))
      | extract_lets
      | split
      | dsimp only
      | with_reducible refine Keep.mk_same rfl rfl rfl rfl rfl rfl rfl rfl ?_
  clear_value s3
  have h4 : Keep a s4 := by
    unfold s4
    repeat' first
      | with_reducible assumption
      | with_reducible apply putCtx_keep
      | with_reducible apply addCtx_keep
      | with_reducible refine Keep.ite (fun _ => ?_) (fun _ => ?_)
      | with_reducible refine Keep.foldl ?_ (fun t x ht => ?_)
      | (intro c hc; first | exact hc | (simp; done) | (simpa using hc))
      | extract_lets
      | split
      | dsimp only
      | with_reducible refine Keep.mk_same rfl rfl rfl rfl rfl rfl rfl rfl ?_
  clear_value s4
  repeat' first
    | with_reducible assumption
    | with_reducible apply putCtx_keep
    | with_reducible apply addCtx_keep
    | with_reducible refine Keep.ite (fun _ => ?_) (fun _ => ?_)
    | with_reducible refine Keep.foldl ?_ (fun t x ht => ?_)
    | (intro c hc; first | exact hc | (simp; done) | (simpa using hc))
    | extract_lets
    | split
    | dsimp only
    | with_reducible refine Keep.mk_same rfl rfl rfl rfl rfl rfl rfl rfl ?_

theorem detectorRun_keep {k : Nat} {node : Nat} (h : Keep a s) : Keep a (detectorRun k node s) := by
  unfold detectorRun
  repeat' first
    | with_reducible assumption
    | refine kmlPop_pair (by assumption) ?_
    | with_reducible apply kmlPop_keep
    | with_reducible apply kmlFault_keep
    | with_reducible apply kmlFree_keep
    | with_reducible apply addCtx_keep
    | with_reducible apply putCtx_keep
    | with_reducible apply putEvent_keep
    | with_reducible apply putChan_keep
    | with_reducible apply kmlSig_keep
    | with_reducible apply leaveKml_keep
    | with_reducible refine Keep.ite (fun _ => ?_) (fun _ => ?_)
    | with_reducible refine Keep.foldl ?_ (fun t x ht => ?_)
    | (intro c hc; first | exact hc | (simp; done) | (simpa using hc))
    | extract_lets
    | split
    | dsimp only
    | with_reducible refine Keep.mk_same rfl rfl rfl rfl rfl rfl rfl rfl ?_

theorem freeNotice_keep {k : Nat} {n : Notice} (h : Keep a s) : Keep a (freeNotice k n s) := by
  unfold freeNotice
  repeat' first
    | with_reducible assumption
    | with_reducible apply kmlFree_keep
    | with_reducible refine Keep.ite (fun _ => ?_) (fun _ => ?_)
    | with_reducible refine Keep.foldl ?_ (fun t x ht => ?_)
    | (intro c hc; first | exact hc | (simp; done) | (simpa using hc))
    | extract_lets
    | split
    | dsimp only
    | with_reducible refine Keep.mk_same rfl rfl rfl rfl rfl rfl rfl rfl ?_

theorem sortNotice_keep {k : Nat} {n : Notice} {g : Sorted} (h : Keep a s) : Keep a (sortNotice k n g s).2 := by
  unfold sortNotice
  repeat' first
    | with_reducible assumption
    | with_reducible apply freeNotice_keep
    | with_reducible refine Keep.ite (fun _ => ?_) (fun _ => ?_)
    | with_reducible refine Keep.foldl ?_ (fun t x ht => ?_)
    | (intro c hc; first | exact hc | (simp; done) | (simpa using hc))
    | extract_lets
    | split
    | dsimp only
    | with_reducible refine Keep.mk_same rfl rfl rfl rfl rfl rfl rfl rfl ?_

theorem sortNotice_pair {k : Nat} {n : Notice} {g : Sorted} {y0} {t} (e : sortNotice k n g s = (y0, t)) (h : Keep a s) : Keep a t := by
  have := sortNotice_keep (k := k) (n := n) (g := g) h; rwa [e] at this

theorem sortNotices_keep {k : Nat} {ns : List Notice} {g : Sorted} (h : Keep a s) : Keep a (sortNotices k ns g s).2 := by
  induction ns generalizing g s with
  | nil => exact h
  | cons n ns ih => unfold sortNotices; exact ih (sortNotice_keep h)

theorem popNotices_keep {k : Nat} {q : Nat} {used : List Nat} {x0 : Nat} {x1 : Sorted} (h : Keep a s) : Keep a (popNotices k q used x0 x1 s).2 := by
  induction x0 generalizing x1 s with
  | zero => exact h
  | succ n ih =>
    unfold popNotices
    split
    · exact h
    · split
      · next e => exact kmlPop_pair e h
      · next e => exact ih (sortNotice_keep (kmlPop_pair e h))

theorem popNotices_pair {k : Nat} {q : Nat} {used : List Nat} {x0 : Nat} {x1 : Sorted} {y0} {t} (e : popNotices k q used x0 x1 s = (y0, t)) (h : Keep a s) : Keep a t := by
  have := popNotices_keep (k := k) (q := q) (used := used) (x0 := x0) (x1 := x1) h; rwa [e] at this

theorem gatherNotices_keep {k : Nat} {m : MixSt} {r : MixRec} (h : Keep a s) : Keep a (gatherNotices k m r s).2 := by
  unfold gatherNotices
  extract_lets
  split
  · exact popNotices_keep (sortNotices_keep h)
  · split
    · next e => exact kmlPop_pair e h
    · next e => exact popNotices_keep (sortNotices_keep (sortNotice_keep (kmlPop_pair e h)))

theorem gatherNotices_pair {k : Nat} {m : MixSt} {r : MixRec} {y0} {t} (e : gatherNotices k m r s = (y0, t)) (h : Keep a s) : Keep a t := by
  have := gatherNotices_keep (k := k) (m := m) (r := r) h; rwa [e] at this

theorem popControls_keep {k : Nat} {q : Nat} {key : Nat} {block : Nat} {x0 : Nat} (h : Keep a s) : Keep a (popControls k q key block x0 s).2 := by
  induction x0 generalizing s with
  | zero =>
    unfold popControls
    repeat' first
      | with_reducible assumption
      | refine kmlPop_pair (by assumption) ?_
      | with_reducible apply kmlPop_keep
      | with_reducible refine Keep.ite (fun _ => ?_) (fun _ => ?_)
      | with_reducible refine Keep.foldl ?_ (fun t x ht => ?_)
      | (intro c hc; first | exact hc | (simp; done) | (simpa using hc))
      | extract_lets
      | split
      | dsimp only
      | with_reducible refine Keep.mk_same rfl rfl rfl rfl rfl rfl rfl rfl ?_
  | succ n ih =>
    unfold popControls
    repeat' first
      | with_reducible apply ih
      | with_reducible assumption
      | refine kmlPop_pair (by assumption) ?_
      | with_reducible apply kmlPop_keep
      | with_reducible refine Keep.ite (fun _ => ?_) (fun _ => ?_)
      | with_reducible refine Keep.foldl ?_ (fun t x ht => ?_)
      | (intro c hc; first | exact hc | (simp; done) | (simpa using hc))
      | extract_lets
      | split
      | dsimp only
      | with_reducible refine Keep.mk_same rfl rfl rfl rfl rfl rfl rfl rfl ?_

theorem popControls_pair {k : Nat} {q : Nat} {key : Nat} {block : Nat} {x0 : Nat} {y0} {t} (e : popControls k q key block x0 s = (y0, t)) (h : Keep a s) : Keep a t := by
  have := popControls_keep (k := k) (q := q) (key := key) (block := block) (x0 := x0) h; rwa [e] at this

theorem mixFlow_keep {k : Nat} {key : Nat} {r : MixRec} {xs : List Int} (h : Keep a s) : Keep a (mixFlow k key r xs s) := by
  unfold mixFlow
  repeat' first
    | with_reducible assumption
    | refine addAlloc_pair (by assumption) ?_
    | with_reducible apply addAlloc_keep
    | refine addPush_pair (by assumption) ?_
    | with_reducible apply addPush_keep
    | with_reducible apply bufWrite_keep
    | with_reducible refine Keep.ite (fun _ => ?_) (fun _ => ?_)
    | with_reducible refine Keep.foldl ?_ (fun t x ht => ?_)
    | (intro c hc; first | exact hc | (simp; done) | (simpa using hc))
    | extract_lets
    | split
    | dsimp only
    | with_reducible refine Keep.mk_same rfl rfl rfl rfl rfl rfl rfl rfl ?_

theorem mixBlocks_keep {k : Nat} {key : Nat} {xs : List Int} (h : Keep a s) : Keep a (mixBlocks k key xs s) := by
  unfold mixBlocks
  repeat' first
    | with_reducible assumption
    | refine kmlGive_pair (by assumption) ?_
    | with_reducible apply kmlGive_keep
    | with_reducible apply kmlSig_keep
    | refine addPush_pair (by assumption) ?_
    | with_reducible apply addPush_keep
    | with_reducible refine Keep.ite (fun _ => ?_) (fun _ => ?_)
    | with_reducible refine Keep.foldl ?_ (fun t x ht => ?_)
    | (intro c hc; first | exact hc | (simp; done) | (simpa using hc))
    | extract_lets
    | split
    | dsimp only
    | with_reducible refine Keep.mk_same rfl rfl rfl rfl rfl rfl rfl rfl ?_

theorem mixResult_keep {k : Nat} {key : Nat} {missing : Nat} {g : Sorted} {cs : List Control} {m : Mixed} {count : Nat} {fading : Nat} (h : Keep a s) : Keep a (mixResult k key missing g cs m count fading s) := by
  unfold mixResult
  extract_lets s1 s2 s3 s4
  have h1 : Keep a s1 := by
    unfold s1
    repeat' first
      | with_reducible assumption
      | with_reducible apply putCtx_keep
      | with_reducible apply addCtx_keep
      | with_reducible refine Keep.ite (fun _ => ?_) (fun _ => ?_)
      | with_reducible refine Keep.foldl ?_ (fun t x ht => ?_)
      | (intro c hc; first | exact hc | (simp; done) | (simpa using hc))
      | extract_lets
      | split
      | dsimp only
      | with_reducible refine Keep.mk_same rfl rfl rfl rfl rfl rfl rfl rfl ?_
  clear_value s1
  have h2 : Keep a s2 := by
    unfold s2
    repeat' first
      | with_reducible assumption
      | with_reducible apply putCtx_keep
      | with_reducible apply addCtx_keep
      | with_reducible refine Keep.ite (fun _ => ?_) (fun _ => ?_)
      | with_reducible refine Keep.foldl ?_ (fun t x ht => ?_)
      | (intro c hc; first | exact hc | (simp; done) | (simpa using hc))
      | extract_lets
      | split
      | dsimp only
      | with_reducible refine Keep.mk_same rfl rfl rfl rfl rfl rfl rfl rfl ?_
  clear_value s2
  have h3 : Keep a s3 := by
    unfold s3
    repeat' first
      | with_reducible assumption
      | with_reducible apply putCtx_keep
      | with_reducible apply addCtx_keep
      | with_reducible refine Keep.ite (fun _ => ?_) (fun _ => ?_)
      | with_reducible refine Keep.foldl ?_ (fun t x ht => ?_)
      | (intro c hc; first | exact hc | (simp; done) | (simpa using hc))
      | extract_lets
      | split
      | dsimp only
      | with_reducible refine Keep.mk_same rfl rfl rfl rfl rfl rfl rfl rfl ?_
  clear_value s3
  have h4 : Keep a s4 := by
    unfold s4
    repeat' first
      | with_reducible assumption
      | with_reducible apply putCtx_keep
      | with_reducible apply addCtx_keep
      | with_reducible refine Keep.ite (fun _ => ?_) (fun _ => ?_)
      | with_reducible refine Keep.foldl ?_ (fun t x ht => ?_)
      | (intro c hc; first | exact hc | (simp; done) | (simpa using hc))
      | extract_lets
      | split
      | dsimp only
      | with_reducible refine Keep.mk_same rfl rfl rfl rfl rfl rfl rfl rfl ?_
  clear_value s4
  repeat' first
    | with_reducible assumption
    | with_reducible apply putCtx_keep
    | with_reducible apply addCtx_keep
    | with_reducible refine Keep.ite (fun _ => ?_) (fun _ => ?_)
    | with_reducible refine Keep.foldl ?_ (fun t x ht => ?_)
    | (intro c hc; first | exact hc | (simp; done) | (simpa using hc))
    | extract_lets
    | split
    | dsimp only
    | with_reducible refine Keep.mk_same rfl rfl rfl rfl rfl rfl rfl rfl ?_

theorem mixKeyed_keep {k : Nat} {key : Nat} {r : MixRec} {m : MixSt} {g : Sorted} (h : Keep a s) : Keep a (mixKeyed k key r m g s) := by
  unfold mixKeyed
  repeat' first
    | with_reducible assumption
    | refine popControls_pair (by assumption) ?_
    | with_reducible apply popControls_keep
    | with_reducible apply mixFlow_keep
    | with_reducible apply mixBlocks_keep
    | with_reducible apply freeNotice_keep
    | with_reducible apply mixResult_keep
    | with_reducible apply leaveKml_keep
    | with_reducible refine Keep.ite (fun _ => ?_) (fun _ => ?_)
    | with_reducible refine Keep.foldl ?_ (fun t x ht => ?_)
    | (intro c hc; first | exact hc | (simp; done) | (simpa using hc))
    | extract_lets
    | split
    | dsimp only
    | with_reducible refine Keep.mk_same rfl rfl rfl rfl rfl rfl rfl rfl ?_

theorem mixerRun_keep {k : Nat} {node : Nat} (h : Keep a s) : Keep a (mixerRun k node s) := by
  unfold mixerRun
  repeat' first
    | with_reducible assumption
    | refine gatherNotices_pair (by assumption) ?_
    | with_reducible apply gatherNotices_keep
    | with_reducible apply kmlFault_keep
    | with_reducible apply leaveKml_keep
    | with_reducible apply addCtx_keep
    | with_reducible apply mixKeyed_keep
    | with_reducible refine Keep.ite (fun _ => ?_) (fun _ => ?_)
    | with_reducible refine Keep.foldl ?_ (fun t x ht => ?_)
    | (intro c hc; first | exact hc | (simp; done) | (simpa using hc))
    | extract_lets
    | split
    | dsimp only
    | with_reducible refine Keep.mk_same rfl rfl rfl rfl rfl rfl rfl rfl ?_

theorem freeInput_keep {k : Nat} {e : Entry} (h : Keep a s) : Keep a (freeInput k e s) := by
  unfold freeInput
  repeat' first
    | with_reducible assumption
    | with_reducible apply kmlFree_keep
    | with_reducible refine Keep.ite (fun _ => ?_) (fun _ => ?_)
    | with_reducible refine Keep.foldl ?_ (fun t x ht => ?_)
    | (intro c hc; first | exact hc | (simp; done) | (simpa using hc))
    | extract_lets
    | split
    | dsimp only
    | with_reducible refine Keep.mk_same rfl rfl rfl rfl rfl rfl rfl rfl ?_

theorem takeInput_keep {r : CodecRec} {k : Nat} {e : Entry} {g : Gathered} (h : Keep a s) : Keep a (takeInput r k e g s).2 := by
  unfold takeInput
  repeat' first
    | with_reducible assumption
    | with_reducible apply freeInput_keep
    | with_reducible refine Keep.ite (fun _ => ?_) (fun _ => ?_)
    | with_reducible refine Keep.foldl ?_ (fun t x ht => ?_)
    | (intro c hc; first | exact hc | (simp; done) | (simpa using hc))
    | extract_lets
    | split
    | dsimp only
    | with_reducible refine Keep.mk_same rfl rfl rfl rfl rfl rfl rfl rfl ?_

theorem takeInput_pair {r : CodecRec} {k : Nat} {e : Entry} {g : Gathered} {y0} {t} (eqn : takeInput r k e g s = (y0, t)) (h : Keep a s) : Keep a t := by
  have := takeInput_keep (r := r) (k := k) (e := e) (g := g) h; rwa [eqn] at this

theorem popInputs_keep {r : CodecRec} {k : Nat} {q : Nat} {x0 : Nat} {x1 : Gathered} (h : Keep a s) : Keep a (popInputs r k q x0 x1 s).2 := by
  induction x0 generalizing x1 s with
  | zero =>
    unfold popInputs
    repeat' first
      | with_reducible assumption
      | refine kmlPop_pair (by assumption) ?_
      | with_reducible apply kmlPop_keep
      | refine takeInput_pair (by assumption) ?_
      | with_reducible apply takeInput_keep
      | with_reducible refine Keep.ite (fun _ => ?_) (fun _ => ?_)
      | with_reducible refine Keep.foldl ?_ (fun t x ht => ?_)
      | (intro c hc; first | exact hc | (simp; done) | (simpa using hc))
      | extract_lets
      | split
      | dsimp only
      | with_reducible refine Keep.mk_same rfl rfl rfl rfl rfl rfl rfl rfl ?_
  | succ n ih =>
    unfold popInputs
    repeat' first
      | with_reducible apply ih
      | with_reducible assumption
      | refine kmlPop_pair (by assumption) ?_
      | with_reducible apply kmlPop_keep
      | refine takeInput_pair (by assumption) ?_
      | with_reducible apply takeInput_keep
      | with_reducible refine Keep.ite (fun _ => ?_) (fun _ => ?_)
      | with_reducible refine Keep.foldl ?_ (fun t x ht => ?_)
      | (intro c hc; first | exact hc | (simp; done) | (simpa using hc))
      | extract_lets
      | split
      | dsimp only
      | with_reducible refine Keep.mk_same rfl rfl rfl rfl rfl rfl rfl rfl ?_

theorem popInputs_pair {r : CodecRec} {k : Nat} {q : Nat} {x0 : Nat} {x1 : Gathered} {y0} {t} (e : popInputs r k q x0 x1 s = (y0, t)) (h : Keep a s) : Keep a t := by
  have := popInputs_keep (r := r) (k := k) (q := q) (x0 := x0) (x1 := x1) h; rwa [e] at this

theorem sendEncoded_keep {k : Nat} {key : Nat} {bs : List Byte} (h : Keep a s) : Keep a (sendEncoded k key bs s) := by
  unfold sendEncoded
  repeat' first
    | with_reducible assumption
    | refine addAlloc_pair (by assumption) ?_
    | with_reducible apply addAlloc_keep
    | refine addPush_pair (by assumption) ?_
    | with_reducible apply addPush_keep
    | with_reducible apply bufWrite_keep
    | with_reducible refine Keep.ite (fun _ => ?_) (fun _ => ?_)
    | with_reducible refine Keep.foldl ?_ (fun t x ht => ?_)
    | (intro c hc; first | exact hc | (simp; done) | (simpa using hc))
    | extract_lets
    | split
    | dsimp only
    | with_reducible refine Keep.mk_same rfl rfl rfl rfl rfl rfl rfl rfl ?_

theorem encoderRun_keep {k : Nat} {node : Nat} (h : Keep a s) : Keep a (encoderRun k node s) := by
  unfold encoderRun
  repeat' first
    | with_reducible assumption
    | refine popInputs_pair (by assumption) ?_
    | with_reducible apply popInputs_keep
    | with_reducible apply kmlFault_keep
    | with_reducible apply addCtx_keep
    | with_reducible apply sendEncoded_keep
    | with_reducible apply leaveKml_keep
    | with_reducible refine Keep.ite (fun _ => ?_) (fun _ => ?_)
    | with_reducible refine Keep.foldl ?_ (fun t x ht => ?_)
    | (intro c hc; first | exact hc | (simp; done) | (simpa using hc))
    | extract_lets
    | split
    | dsimp only
    | with_reducible refine Keep.mk_same rfl rfl rfl rfl rfl rfl rfl rfl ?_

theorem popPacket_keep {k : Nat} {q : Nat} {next : Option Nat} {x0 : Nat} (h : Keep a s) : Keep a (popPacket k q next x0 s).2 := by
  induction x0 generalizing s with
  | zero =>
    unfold popPacket
    repeat' first
      | with_reducible assumption
      | refine kmlPop_pair (by assumption) ?_
      | with_reducible apply kmlPop_keep
      | with_reducible apply kmlRelease_keep
      | with_reducible refine Keep.ite (fun _ => ?_) (fun _ => ?_)
      | with_reducible refine Keep.foldl ?_ (fun t x ht => ?_)
      | (intro c hc; first | exact hc | (simp; done) | (simpa using hc))
      | extract_lets
      | split
      | dsimp only
      | with_reducible refine Keep.mk_same rfl rfl rfl rfl rfl rfl rfl rfl ?_
  | succ n ih =>
    unfold popPacket
    repeat' first
      | with_reducible apply ih
      | with_reducible assumption
      | refine kmlPop_pair (by assumption) ?_
      | with_reducible apply kmlPop_keep
      | with_reducible apply kmlRelease_keep
      | with_reducible refine Keep.ite (fun _ => ?_) (fun _ => ?_)
      | with_reducible refine Keep.foldl ?_ (fun t x ht => ?_)
      | (intro c hc; first | exact hc | (simp; done) | (simpa using hc))
      | extract_lets
      | split
      | dsimp only
      | with_reducible refine Keep.mk_same rfl rfl rfl rfl rfl rfl rfl rfl ?_

theorem popPacket_pair {k : Nat} {q : Nat} {next : Option Nat} {x0 : Nat} {y0} {t} (e : popPacket k q next x0 s = (y0, t)) (h : Keep a s) : Keep a t := by
  have := popPacket_keep (k := k) (q := q) (next := next) (x0 := x0) h; rwa [e] at this

theorem giveDecoded_keep {k : Nat} {key : Nat} {xs : List Int} (h : Keep a s) : Keep a (giveDecoded k key xs s) := by
  unfold giveDecoded
  repeat' first
    | with_reducible assumption
    | refine kmlGive_pair (by assumption) ?_
    | with_reducible apply kmlGive_keep
    | refine addPush_pair (by assumption) ?_
    | with_reducible apply addPush_keep
    | with_reducible refine Keep.ite (fun _ => ?_) (fun _ => ?_)
    | with_reducible refine Keep.foldl ?_ (fun t x ht => ?_)
    | (intro c hc; first | exact hc | (simp; done) | (simpa using hc))
    | extract_lets
    | split
    | dsimp only
    | with_reducible refine Keep.mk_same rfl rfl rfl rfl rfl rfl rfl rfl ?_

theorem decodeRun_keep {k : Nat} {r : CodecRec} {c : CodecSt} {got : Option Entry} (h : Keep a s) : Keep a (decodeRun k r c got s) := by
  unfold decodeRun
  extract_lets good s1 s2
  have h1 : Keep a s1 := by
    unfold s1
    split
    · exact kmlRelease_keep h
    · exact h
  clear_value s1
  have h2 : Keep a s2 := by
    unfold s2
    refine addCtx_keep (Keep.ite (fun _ => addCtx_keep h1) (fun _ => addCtx_keep h1))
  clear_value s2
  split
  · exact leaveKml_keep (giveDecoded_keep h2)
  · exact leaveKml_keep h2

theorem decoderRun_keep {k : Nat} {node : Nat} (h : Keep a s) : Keep a (decoderRun k node s) := by
  unfold decoderRun
  extract_lets _ _ x
  have hx : Keep a x.2 := popPacket_keep h
  clear_value x
  exact Keep.ite (fun _ => kmlFault_keep hx) (fun _ => decodeRun_keep hx)

theorem kmlCounts_keep {k : Nat} (h : Keep a s) : Keep a (kmlCounts k s) := by
  unfold kmlCounts
  repeat' first
    | with_reducible assumption
    | with_reducible apply pmcAdd_keep
    | refine State.draw_pair (by assumption) ?_
    | with_reducible apply State.draw_keep
    | with_reducible refine Keep.ite (fun _ => ?_) (fun _ => ?_)
    | with_reducible refine Keep.foldl ?_ (fun t x ht => ?_)
    | (intro c hc; first | exact hc | (simp; done) | (simpa using hc))
    | extract_lets
    | split
    | dsimp only
    | with_reducible refine Keep.mk_same rfl rfl rfl rfl rfl rfl rfl rfl ?_

theorem kmlRun_keep {type : Nat} {k : Nat} {node : Nat} (h : Keep a s) : Keep a (kmlRun type k node s) := by
  unfold kmlRun
  split
  · exact cancellerRun_keep h
  · exact cancellerRun_keep h
  · exact detectorRun_keep h
  · exact mixerRun_keep h
  · exact encoderRun_keep h
  · exact decoderRun_keep h
  · exact h

theorem kmlStart_keep {k : Nat} (h : Keep a s) : Keep a (kmlStart k s) := by
  unfold kmlStart
  repeat' first
    | with_reducible assumption
    | with_reducible apply kmlFault_keep
    | with_reducible apply kmlRun_keep
    | with_reducible apply kmlCounts_keep
    | with_reducible refine Keep.ite (fun _ => ?_) (fun _ => ?_)
    | with_reducible refine Keep.foldl ?_ (fun t x ht => ?_)
    | (intro c hc; first | exact hc | (simp; done) | (simpa using hc))
    | extract_lets
    | split
    | dsimp only
    | with_reducible refine Keep.mk_same rfl rfl rfl rfl rfl rfl rfl rfl ?_

theorem withKml_keep {kml : Bool} {f : State → State} (h : Keep a (f s)) : Keep a (withKml kml f s) :=
  Keep.ite (fun _ => Keep.foldl h (fun _ _ ht => kmlStart_keep ht)) (fun _ => h)

end Sys2Proof.Machine
end

