-- ==== Sys2Proof/Laws/KeepFleet.lean ====
section
/-!
SUPPORT. Laws/KeepFleet.lean: every operation of the events of Bullpen, power and the KCI keeps what Keep names.
-/

namespace Sys2Proof.Machine

variable {a s : State}

theorem beat_keep {g : Nat} (h : Keep a s) : Keep a (beat g s) := by
  unfold beat
  repeat' first
    | with_reducible assumption
    | with_reducible apply advanceTo_keep
    | with_reducible apply startBeat_keep
    | with_reducible refine Keep.ite (fun _ => ?_) (fun _ => ?_)

theorem execBeat_keep {g : Nat} (h : Keep a s) : KeepOut a (execBeat g s) := by
  unfold execBeat
  repeat' first
    | with_reducible assumption
    | with_reducible apply beat_keep
    | with_reducible apply KeepOut.next

theorem execBeatPosterResume_keep (h : Keep a s) : KeepOut a (execBeatPosterResume s) := by
  unfold execBeatPosterResume
  repeat' first
    | with_reducible assumption
    | with_reducible apply postBeats_keep
    | with_reducible refine Keep.ite (fun _ => ?_) (fun _ => ?_)
    | with_reducible apply KeepOut.next

theorem beatWake_keep {g : Nat} (h : Keep a s) : Keep a (beatWake g s) := by
  unfold beatWake
  extract_lets v1 s1
  clear_value v1
  have h1 : Keep a s1 := by
    unfold s1
    repeat' first
      | with_reducible assumption
      | with_reducible apply advanceTo_keep
  clear_value s1
  repeat' first
    | with_reducible assumption
    | with_reducible apply advanceTo_keep
    | with_reducible apply wakeCluster_keep
    | with_reducible refine Keep.ite (fun _ => ?_) (fun _ => ?_)
    | with_reducible refine Keep.foldl ?_ (fun t x ht => ?_)
    | extract_lets
    | split

theorem execBeatWakeLead_keep {g : Nat} (h : Keep a s) : KeepOut a (execBeatWakeLead g s) := by
  unfold execBeatWakeLead
  repeat' first
    | with_reducible assumption
    | with_reducible apply beatWake_keep
    | with_reducible apply KeepOut.next

theorem beatPrefetch_keep {g : Nat} (h : Keep a s) : Keep a (beatPrefetch g s) := by
  unfold beatPrefetch
  extract_lets v1 s1
  clear_value v1
  have h1 : Keep a s1 := by
    unfold s1
    repeat' first
      | with_reducible assumption
      | with_reducible apply advanceTo_keep
  clear_value s1
  repeat' first
    | with_reducible assumption
    | with_reducible apply advanceTo_keep
    | with_reducible apply prefetch_keep
    | with_reducible refine Keep.ite (fun _ => ?_) (fun _ => ?_)
    | with_reducible refine Keep.foldl ?_ (fun t x ht => ?_)

theorem execPrefetchNotice_keep {g : Nat} (h : Keep a s) : KeepOut a (execPrefetchNotice g s) := by
  unfold execPrefetchNotice
  repeat' first
    | with_reducible assumption
    | with_reducible apply beatPrefetch_keep
    | with_reducible apply KeepOut.next

theorem timerDue_keep {id : Nat} (h : Keep a s) : Keep a (timerDue id s) := by
  unfold timerDue
  repeat' first
    | with_reducible assumption
    | with_reducible apply advanceTo_keep
    | with_reducible apply fireTimer_keep
    | with_reducible refine Keep.ite (fun _ => ?_) (fun _ => ?_)
    | split

theorem execTimerFire_keep {timer : Nat} (h : Keep a s) : KeepOut a (execTimerFire timer s) := by
  unfold execTimerFire
  repeat' first
    | with_reducible assumption
    | with_reducible apply timerDue_keep
    | with_reducible apply KeepOut.next

theorem timerRelease_keep {list : Nat} (h : Keep a s) : Keep a (timerRelease list s) := by
  unfold timerRelease
  repeat' first
    | with_reducible assumption
    | with_reducible apply fireTimer_keep
    | split

theorem execTimerHeldRelease_keep {list : Nat} (h : Keep a s) : KeepOut a (execTimerHeldRelease list s) := by
  unfold execTimerHeldRelease
  repeat' first
    | with_reducible assumption
    | with_reducible apply timerRelease_keep
    | with_reducible apply KeepOut.next

theorem timerLead_keep {id : Nat} (h : Keep a s) : Keep a (timerLead id s) := by
  unfold timerLead
  repeat' first
    | with_reducible assumption
    | with_reducible apply advanceTo_keep
    | with_reducible apply prefetch_keep
    | split

theorem execTimerPrefetchLead_keep {timer : Nat} (h : Keep a s) : KeepOut a (execTimerPrefetchLead timer s) := by
  unfold execTimerPrefetchLead
  repeat' first
    | with_reducible assumption
    | with_reducible apply timerLead_keep
    | with_reducible apply KeepOut.next

theorem execNodeDispatch_keep {cluster : Nat} {kml : Bool} (h : Keep a s) : KeepOut a (execNodeDispatch cluster kml s) := by
  unfold execNodeDispatch
  repeat' first
    | with_reducible assumption
    | with_reducible apply withKml_keep
    | with_reducible apply dispatchCluster_keep
    | with_reducible refine Keep.ite (fun _ => ?_) (fun _ => ?_)
    | with_reducible refine Keep.foldl ?_ (fun t x ht => ?_)
    | (intro c hc; first | exact hc | (simp; done) | (simpa using hc))
    | with_reducible apply KeepOut.next
    | extract_lets
    | split
    | dsimp only

theorem stealAge_keep {n : Nat} (h : Keep a s) : Keep a (stealAge n s) := by
  unfold stealAge
  split
  · exact h
  split
  · exact h
  refine Keep.ite (fun _ => h) (fun _ => ?_)
  dsimp only
  split
  · exact stealTo_keep (advanceSince_keep h)
  · exact advanceSince_keep h

theorem execStealAgeExpiry_keep {node : Nat} {kml : Bool} (h : Keep a s) : KeepOut a (execStealAgeExpiry node kml s) := by
  unfold execStealAgeExpiry
  repeat' first
    | with_reducible assumption
    | with_reducible apply withKml_keep
    | with_reducible apply stealAge_keep
    | with_reducible refine Keep.ite (fun _ => ?_) (fun _ => ?_)
    | with_reducible refine Keep.foldl ?_ (fun t x ht => ?_)
    | (intro c hc; first | exact hc | (simp; done) | (simpa using hc))
    | with_reducible apply KeepOut.next
    | extract_lets
    | split
    | dsimp only

theorem budgetOver_keep {k : Nat} (h : Keep a s) : Keep a (budgetOver k s) := by
  unfold budgetOver
  extract_lets v1 v2
  clear_value v1 v2
  repeat' first
    | with_reducible assumption
    | with_reducible apply advanceSince_keep
    | with_reducible apply takeException_keep
    | with_reducible refine Keep.ite (fun _ => ?_) (fun _ => ?_)
    | with_reducible apply CoreRes.kept_done
    | with_reducible apply KciRes.kept_done
    | extract_lets
    | split

theorem execBudgetOverrun_keep {core : Nat} (h : Keep a s) : KeepOut a (execBudgetOverrun core s) := by
  unfold execBudgetOverrun
  repeat' first
    | with_reducible assumption
    | with_reducible apply budgetOver_keep
    | with_reducible apply KeepOut.next

theorem abortUndone_keep {n : Nat} (h : Keep a s) : Keep a (abortUndone n s) := by
  unfold abortUndone
  repeat' first
    | with_reducible assumption
    | with_reducible apply coreHome_keep
    | with_reducible apply undoRun_keep
    | with_reducible apply abortEnd_keep
    | with_reducible refine Keep.ite (fun _ => ?_) (fun _ => ?_)
    | extract_lets
    | split

theorem execAbortUndoComplete_keep {node : Nat} (h : Keep a s) : KeepOut a (execAbortUndoComplete node s) := by
  unfold execAbortUndoComplete
  repeat' first
    | with_reducible assumption
    | with_reducible apply abortUndone_keep
    | with_reducible apply KeepOut.next

theorem rerunEntry_keep {n : Nat} (h : Keep a s) : Keep a (rerunEntry n s) := by
  unfold rerunEntry
  repeat' first
    | with_reducible assumption
    | with_reducible apply enterRerun_keep
    | with_reducible apply postAlts_keep
    | with_reducible refine Keep.ite (fun _ => ?_) (fun _ => ?_)
    | split

theorem execRerunReadyEntry_keep {node : Nat} (h : Keep a s) : KeepOut a (execRerunReadyEntry node s) := by
  unfold execRerunReadyEntry
  repeat' first
    | with_reducible assumption
    | with_reducible apply rerunEntry_keep
    | with_reducible apply KeepOut.next

theorem doneResume_keep {k : Nat} (h : Keep a s) : Keep a (doneResume k s) := by
  unfold doneResume
  extract_lets v1
  clear_value v1
  repeat' first
    | with_reducible assumption
    | with_reducible apply commitRest_keep
    | with_reducible refine Keep.ite (fun _ => ?_) (fun _ => ?_)

theorem execDoneCommitResume_keep {core : Nat} (h : Keep a s) : KeepOut a (execDoneCommitResume core s) := by
  unfold execDoneCommitResume
  repeat' first
    | with_reducible assumption
    | with_reducible apply doneResume_keep
    | with_reducible apply KeepOut.next

theorem armedEntry_keep {n : Nat} (h : Keep a s) : Keep a (armedEntry n s) := by
  unfold armedEntry
  repeat' first
    | with_reducible assumption
    | with_reducible apply enterReady_keep
    | with_reducible refine Keep.ite (fun _ => ?_) (fun _ => ?_)
    | split

theorem execArmedReadyEntry_keep {node : Nat} (h : Keep a s) : KeepOut a (execArmedReadyEntry node s) := by
  unfold execArmedReadyEntry
  repeat' first
    | with_reducible assumption
    | with_reducible apply armedEntry_keep
    | with_reducible apply KeepOut.next

theorem holdExpiry_keep {n : Nat} (h : Keep a s) : Keep a (holdExpiry n s) := by
  unfold holdExpiry
  repeat' first
    | with_reducible assumption
    | with_reducible apply State.bump_keep
    | with_reducible apply advanceSince_keep
    | with_reducible apply State.setNode_keep
    | refine placeLocal_dispatched (by assumption) ?_
    | refine placeLocal_paging (by assumption) ?_
    | refine placeLocal_held (by assumption) ?_
    | with_reducible refine Keep.ite (fun _ => ?_) (fun _ => ?_)
    | with_reducible apply CoreRes.kept_skip
    | extract_lets
    | split

theorem execAffinityHoldExpiry_keep {node : Nat} {kml : Bool} (h : Keep a s) : KeepOut a (execAffinityHoldExpiry node kml s) := by
  unfold execAffinityHoldExpiry
  repeat' first
    | with_reducible assumption
    | with_reducible apply withKml_keep
    | with_reducible apply holdExpiry_keep
    | with_reducible refine Keep.ite (fun _ => ?_) (fun _ => ?_)
    | with_reducible refine Keep.foldl ?_ (fun t x ht => ?_)
    | (intro c hc; first | exact hc | (simp; done) | (simpa using hc))
    | with_reducible apply KeepOut.next
    | extract_lets
    | split
    | dsimp only

theorem contextLost_keep {n : Nat} (h : Keep a s) : Keep a (contextLost n s) := by
  unfold contextLost
  repeat' first
    | with_reducible assumption
    | with_reducible apply leaveReady_keep
    | with_reducible apply disarm_keep
    | split

theorem pageInDone_keep {n : Nat} {ok : Bool} (h : Keep a s) : Keep a (pageInDone n ok s) := by
  unfold pageInDone
  extract_lets s1
  have h1 : Keep a s1 := by
    unfold s1
    repeat' first
      | with_reducible assumption
      | with_reducible apply State.bump_keep
      | with_reducible apply State.draw_keep
      | refine State.draw_pair (by assumption) ?_
      | with_reducible apply pmuEvent_keep
      | with_reducible apply umpEvent_keep
      | with_reducible apply State.setGh_keep
  clear_value s1
  repeat' first
    | with_reducible assumption
    | with_reducible apply State.bump_keep
    | with_reducible apply State.draw_keep
    | refine State.draw_pair (by assumption) ?_
    | with_reducible apply pmuEvent_keep
    | with_reducible apply umpEvent_keep
    | with_reducible apply State.setGh_keep
    | with_reducible apply pageCopyIn_keep
    | with_reducible apply addTraffic_keep
    | with_reducible apply contextLost_keep
    | with_reducible refine Keep.ite (fun _ => ?_) (fun _ => ?_)
    | extract_lets
    | split

theorem execPageInComplete_keep {node : Nat} {hbmOk : Bool} (h : Keep a s) : KeepOut a (execPageInComplete node hbmOk s) := by
  unfold execPageInComplete
  repeat' first
    | with_reducible assumption
    | with_reducible apply pageInDone_keep
    | with_reducible apply KeepOut.next

theorem slotFreed_keep {n : Nat} (h : Keep a s) : Keep a (slotFreed n s) := by
  unfold slotFreed
  repeat' first
    | with_reducible assumption
    | with_reducible apply placePageIn_keep
    | with_reducible refine Keep.ite (fun _ => ?_) (fun _ => ?_)
    | split

theorem execPageInSlotFree_keep {node : Nat} (h : Keep a s) : KeepOut a (execPageInSlotFree node s) := by
  unfold execPageInSlotFree
  repeat' first
    | with_reducible assumption
    | with_reducible apply slotFreed_keep
    | with_reducible apply KeepOut.next

theorem writeBackAfter_keep {n : Nat} {d : NodeD} (h : Keep a s) : Keep a (writeBackAfter n d s) := by
  unfold writeBackAfter
  extract_lets s1 s2
  have h1 : Keep a s1 := by
    unfold s1
    repeat' first
      | with_reducible assumption
      | with_reducible apply State.updNode_keep
      | with_reducible apply invalidate_keep
      | with_reducible apply finishWait_keep
      | with_reducible apply eraseNode_keep
      | with_reducible apply graphsStep_keep
      | with_reducible refine Keep.ite (fun _ => ?_) (fun _ => ?_)
      | exact fun _ hc => hc
      | extract_lets
      | split
  clear_value s1
  have h2 : Keep a s2 := by
    unfold s2
    repeat' first
      | with_reducible assumption
      | with_reducible apply State.updNode_keep
      | with_reducible apply invalidate_keep
      | with_reducible apply finishWait_keep
      | with_reducible apply eraseNode_keep
      | with_reducible apply graphsStep_keep
      | with_reducible refine Keep.ite (fun _ => ?_) (fun _ => ?_)
  clear_value s2
  repeat' first
    | with_reducible assumption
    | with_reducible apply State.updNode_keep
    | with_reducible apply invalidate_keep
    | with_reducible apply finishWait_keep
    | with_reducible apply eraseNode_keep
    | with_reducible apply graphsStep_keep
    | with_reducible refine Keep.ite (fun _ => ?_) (fun _ => ?_)

theorem writeBackDone_keep {n : Nat} {failures : Nat} (h : Keep a s) : Keep a (writeBackDone n failures s) := by
  unfold writeBackDone
  repeat' first
    | with_reducible assumption
    | with_reducible apply State.bump_keep
    | with_reducible apply State.draw_keep
    | refine State.draw_pair (by assumption) ?_
    | with_reducible apply raiseFld_keep
    | with_reducible apply pmuEvent_keep
    | with_reducible apply umpEvent_keep
    | with_reducible apply State.setNode_keep
    | with_reducible apply invalidate_keep
    | with_reducible apply pageCopyOut_keep
    | with_reducible apply addTraffic_keep
    | with_reducible refine writeBack_keep ?_ (fun c hc => ?_)
    | with_reducible apply contextLost_keep
    | with_reducible apply writeBackAfter_keep
    | with_reducible refine Keep.ite (fun _ => ?_) (fun _ => ?_)
    | with_reducible refine Keep.foldl ?_ (fun t x ht => ?_)
    | extract_lets
    | split

theorem execWriteBackComplete_keep {node : Nat} {failures : Nat} (h : Keep a s) : KeepOut a (execWriteBackComplete node failures s) := by
  unfold execWriteBackComplete
  repeat' first
    | with_reducible assumption
    | with_reducible apply writeBackDone_keep
    | with_reducible apply KeepOut.next

theorem sweepLedger_keep (h : Keep a s) : Keep a (sweepLedger s) := by
  unfold sweepLedger
  extract_lets v1
  clear_value v1
  repeat' first
    | with_reducible assumption
    | with_reducible apply mismatch_keep
    | with_reducible refine Keep.ite (fun _ => ?_) (fun _ => ?_)

theorem execLedgerSweep_keep (h : Keep a s) : KeepOut a (execLedgerSweep s) := by
  unfold execLedgerSweep
  repeat' first
    | with_reducible assumption
    | with_reducible apply sweepLedger_keep
    | with_reducible apply KeepOut.next

theorem tagLost_keep {g : Nat} {detail : Nat} (h : Keep a s) : Keep a (tagLost g detail s) := by
  unfold tagLost
  extract_lets v1 v2 s1
  have h1 : Keep a s1 := by
    unfold s1
    repeat' first
      | with_reducible assumption
      | with_reducible apply State.setSeed_keep
      | with_reducible apply umpEvent_keep
      | with_reducible refine Keep.ite (fun _ => ?_) (fun _ => ?_)
      | with_reducible refine Keep.foldl ?_ (fun t x ht => ?_)
      | (intro c hc; first | exact hc | (simp; done) | (simpa using hc))
      | extract_lets
      | split
      | dsimp only
      | with_reducible refine Keep.mk_same rfl rfl rfl rfl rfl rfl rfl rfl ?_
  clear_value s1
  repeat' first
    | with_reducible assumption
    | with_reducible apply State.setSeed_keep
    | with_reducible apply umpEvent_keep
    | with_reducible refine Keep.ite (fun _ => ?_) (fun _ => ?_)
    | with_reducible refine Keep.foldl ?_ (fun t x ht => ?_)
    | (intro c hc; first | exact hc | (simp; done) | (simpa using hc))
    | extract_lets
    | split
    | dsimp only
    | with_reducible refine Keep.mk_same rfl rfl rfl rfl rfl rfl rfl rfl ?_

theorem sweepTags_keep {ms : Nat} {lost : List Nat} (h : Keep a s) : Keep a (sweepTags ms lost s) := by
  unfold sweepTags
  repeat' first
    | with_reducible assumption
    | with_reducible apply tagLost_keep
    | with_reducible apply State.setFld_keep
    | with_reducible apply mismatch_keep
    | with_reducible refine Keep.ite (fun _ => ?_) (fun _ => ?_)
    | with_reducible refine Keep.foldl ?_ (fun t x ht => ?_)
    | (intro c hc; first | exact hc | (simp; done) | (simpa using hc))
    | extract_lets
    | split
    | dsimp only

theorem execTagSweepComplete_keep {ms : Nat} {lost : List Nat} (h : Keep a s) : KeepOut a (execTagSweepComplete ms lost s) := by
  unfold execTagSweepComplete
  repeat' first
    | with_reducible assumption
    | with_reducible apply sweepTags_keep
    | with_reducible refine Keep.ite (fun _ => ?_) (fun _ => ?_)
    | with_reducible refine Keep.foldl ?_ (fun t x ht => ?_)
    | (intro c hc; first | exact hc | (simp; done) | (simpa using hc))
    | with_reducible apply KeepOut.next
    | extract_lets
    | split
    | dsimp only

theorem headRefill_keep {q : Nat} (h : Keep a s) : Keep a (headRefill q s) := by
  unfold headRefill
  repeat' first
    | with_reducible assumption
    | with_reducible apply pmuEvent_keep
    | with_reducible apply State.setQueue_keep
    | extract_lets
    | split

theorem execHeadWindowRefill_keep {queue : Nat} (h : Keep a s) : KeepOut a (execHeadWindowRefill queue s) := by
  unfold execHeadWindowRefill
  repeat' first
    | with_reducible assumption
    | with_reducible apply headRefill_keep
    | with_reducible apply KeepOut.next

theorem moveEnd_keep {k : Nat} {ok : Bool} (h : Keep a s) : Keep a (moveEnd k ok s) := by
  unfold moveEnd
  extract_lets v1
  clear_value v1
  repeat' first
    | with_reducible assumption
    | with_reducible apply State.draw_keep
    | refine State.draw_pair (by assumption) ?_
    | with_reducible apply takeException_keep
    | with_reducible apply moveDone_keep
    | with_reducible refine Keep.ite (fun _ => ?_) (fun _ => ?_)
    | extract_lets
    | split

theorem execMoveComplete_keep {core : Nat} {hbmOk : Bool} (h : Keep a s) : KeepOut a (execMoveComplete core hbmOk s) := by
  unfold execMoveComplete
  repeat' first
    | with_reducible assumption
    | with_reducible apply moveEnd_keep
    | with_reducible apply KeepOut.next

theorem scoutExpire_keep {k : Nat} (h : Keep a s) : Keep a (scoutExpire k s) := by
  unfold scoutExpire
  extract_lets v1
  clear_value v1
  repeat' first
    | with_reducible assumption
    | with_reducible refine Keep.ite (fun _ => ?_) (fun _ => ?_)
    | extract_lets
    | split
    | dsimp only
    | with_reducible refine Keep.mk_same rfl rfl rfl rfl rfl rfl rfl rfl ?_

theorem execScoutIntervalExpiry_keep {core : Nat} (h : Keep a s) : KeepOut a (execScoutIntervalExpiry core s) := by
  unfold execScoutIntervalExpiry
  repeat' first
    | with_reducible assumption
    | with_reducible apply scoutExpire_keep
    | with_reducible apply KeepOut.next

theorem sleepEntry_keep {n : Nat} (h : Keep a s) : Keep a (sleepEntry n s) := by
  unfold sleepEntry
  extract_lets v1 s1
  clear_value v1
  have h1 : Keep a s1 := by
    unfold s1
    repeat' first
      | with_reducible assumption
      | with_reducible apply advanceSince_keep
  clear_value s1
  repeat' first
    | with_reducible assumption
    | with_reducible apply advanceSince_keep
    | with_reducible apply setPwr_keep
    | with_reducible refine Keep.ite (fun _ => ?_) (fun _ => ?_)

theorem execClusterSleepEntry_keep {cluster : Nat} (h : Keep a s) : KeepOut a (execClusterSleepEntry cluster s) := by
  unfold execClusterSleepEntry
  repeat' first
    | with_reducible assumption
    | with_reducible apply sleepEntry_keep
    | with_reducible apply KeepOut.next

theorem coreOff_keep {k : Nat} (h : Keep a s) : Keep a (coreOff k s) := by
  unfold coreOff
  exact Keep.updCore (State.draw_keep h) fun _ _ => rfl

theorem offEntry_keep {n : Nat} (h : Keep a s) : Keep a (offEntry n s) := by
  unfold offEntry
  extract_lets v1 s1 v2 s2 s3
  clear_value v1 v2
  have h1 : Keep a s1 := by
    unfold s1
    repeat' first
      | with_reducible assumption
      | with_reducible apply advanceSince_keep
  clear_value s1
  have h2 : Keep a s2 := by
    unfold s2
    repeat' first
      | with_reducible assumption
      | with_reducible apply advanceSince_keep
      | with_reducible apply setPwr_keep
      | with_reducible apply invalidateCore_keep
      | with_reducible apply syncCluster_keep
      | with_reducible apply coreOff_keep
      | with_reducible refine Keep.ite (fun _ => ?_) (fun _ => ?_)
      | with_reducible refine Keep.foldl ?_ (fun t x ht => ?_)
  clear_value s2
  have h3 : Keep a s3 := by
    unfold s3
    repeat' first
      | with_reducible assumption
      | with_reducible apply advanceSince_keep
      | with_reducible apply setPwr_keep
      | with_reducible apply invalidateCore_keep
      | with_reducible apply syncCluster_keep
      | with_reducible apply coreOff_keep
      | with_reducible refine Keep.ite (fun _ => ?_) (fun _ => ?_)
      | with_reducible refine Keep.foldl ?_ (fun t x ht => ?_)
  clear_value s3
  repeat' first
    | with_reducible assumption
    | with_reducible apply advanceSince_keep
    | with_reducible apply setPwr_keep
    | with_reducible apply invalidateCore_keep
    | with_reducible apply syncCluster_keep
    | with_reducible apply coreOff_keep
    | with_reducible refine Keep.ite (fun _ => ?_) (fun _ => ?_)

theorem execClusterOffEntry_keep {cluster : Nat} (h : Keep a s) : KeepOut a (execClusterOffEntry cluster s) := by
  unfold execClusterOffEntry
  repeat' first
    | with_reducible assumption
    | with_reducible apply offEntry_keep
    | with_reducible apply KeepOut.next

theorem coreWake_keep {k : Nat} (h : Keep a s) : Keep a (coreWake k s) := by
  unfold coreWake
  exact Keep.updCore h fun c hc => by dsimp only; split <;> first | exact hc | rfl

theorem wakeDone_keep {n : Nat} (h : Keep a s) : Keep a (wakeDone n s) := by
  unfold wakeDone
  extract_lets v1 s1 s2
  clear_value v1
  have h1 : Keep a s1 := by
    unfold s1
    repeat' first
      | with_reducible assumption
      | with_reducible apply advance_keep
  clear_value s1
  have h2 : Keep a s2 := by
    unfold s2
    repeat' first
      | with_reducible assumption
      | with_reducible apply advance_keep
      | with_reducible apply setPwr_keep
      | with_reducible apply coreWake_keep
      | with_reducible refine Keep.ite (fun _ => ?_) (fun _ => ?_)
      | with_reducible refine Keep.foldl ?_ (fun t x ht => ?_)
  clear_value s2
  repeat' first
    | with_reducible assumption
    | with_reducible apply advance_keep
    | with_reducible apply setPwr_keep
    | with_reducible apply coreWake_keep
    | with_reducible refine Keep.ite (fun _ => ?_) (fun _ => ?_)

theorem execClusterWakeComplete_keep {cluster : Nat} (h : Keep a s) : KeepOut a (execClusterWakeComplete cluster s) := by
  unfold execClusterWakeComplete
  repeat' first
    | with_reducible assumption
    | with_reducible apply wakeDone_keep
    | with_reducible apply KeepOut.next

theorem limitWritten_keep {n : Nat} (h : Keep a s) : Keep a (limitWritten n s) := by
  unfold limitWritten
  extract_lets v1
  clear_value v1
  repeat' first
    | with_reducible assumption
    | with_reducible apply setPwr_keep
    | with_reducible apply wakeCluster_keep
    | with_reducible apply tryIdle_keep
    | with_reducible refine Keep.ite (fun _ => ?_) (fun _ => ?_)
    | extract_lets
    | split

theorem sparesWritten_keep {n : Nat} {count : Nat} (h : Keep a s) : Keep a (sparesWritten n count s) := by
  unfold sparesWritten
  extract_lets v1 s1 v2 s2
  clear_value v1 v2
  have h1 : Keep a s1 := by
    unfold s1
    repeat' first
      | with_reducible assumption
      | with_reducible apply State.setFld_keep
      | with_reducible apply tryIdle_keep
      | with_reducible apply invalidateIdle_keep
      | with_reducible apply syncCluster_keep
  clear_value s1
  have h2 : Keep a s2 := by
    unfold s2
    repeat' first
      | with_reducible assumption
      | with_reducible apply State.setFld_keep
      | with_reducible apply tryIdle_keep
      | with_reducible apply invalidateIdle_keep
      | with_reducible apply syncCluster_keep
      | with_reducible apply dropPageIns_keep
      | with_reducible refine Keep.foldl ?_ (fun t x ht => ?_)
      | with_reducible apply CoreRes.kept_done
      | with_reducible apply KciRes.kept_done
      | extract_lets
      | split
  clear_value s2
  repeat' first
    | with_reducible assumption
    | with_reducible apply State.setFld_keep
    | with_reducible apply tryIdle_keep

theorem homeWritten_keep {k : Nat} (h : Keep a s) : Keep a (homeWritten k s) := by
  unfold homeWritten
  extract_lets v1
  clear_value v1
  repeat' first
    | with_reducible assumption
    | with_reducible apply Keep.updCore
    | with_reducible refine Keep.ite (fun _ => ?_) (fun _ => ?_)
    | with_reducible apply KciRes.kept_wait
    | exact fun _ hc => hc

theorem testSpare_keep {k : Nat} {passed : Bool} (h : Keep a s) : Keep a (testSpare k passed s) := by
  unfold testSpare
  extract_lets v1 v2
  clear_value v1 v2
  repeat' first
    | with_reducible assumption
    | with_reducible apply State.draw_keep
    | refine State.draw_pair (by assumption) ?_
    | with_reducible apply umpEvent_keep
    | with_reducible apply retireCore_keep
    | with_reducible refine Keep.ite (fun _ => ?_) (fun _ => ?_)

theorem execSpareTest_keep {core : Nat} {passed : Bool} (h : Keep a s) : KeepOut a (execSpareTest core passed s) := by
  unfold execSpareTest
  repeat' first
    | with_reducible assumption
    | with_reducible apply testSpare_keep
    | with_reducible apply KeepOut.next

theorem markBad_keep {n : Nat} {m : Nat} {a' : Nat} (h : Keep a s) : Keep a (markBad n m a' s) := by
  unfold markBad
  extract_lets v1
  clear_value v1
  repeat' first
    | with_reducible assumption
    | with_reducible apply Keep.updCore
    | with_reducible apply Keep.updClu
    | with_reducible refine Keep.ite (fun _ => ?_) (fun _ => ?_)
    | exact fun _ hc => hc

theorem scrubFound_keep {source : Nat} {core : Nat} {x0 : List MemFinding} (h : Keep a s) : Keep a (scrubFound source core x0 s) := by
  induction x0 generalizing s with
  | nil =>
    unfold scrubFound
    repeat' first
      | with_reducible assumption
      | with_reducible apply pmuEvent_keep
      | with_reducible apply umpEvent_keep
      | with_reducible apply markBad_keep
      | with_reducible apply fatalReset_keep
      | with_reducible refine Keep.ite (fun _ => ?_) (fun _ => ?_)
      | with_reducible refine Keep.foldl ?_ (fun t x ht => ?_)
      | (intro c hc; first | exact hc | (simp; done) | (simpa using hc))
      | extract_lets
      | split
      | dsimp only
  | cons b t ih =>
    unfold scrubFound
    repeat' first
      | with_reducible apply ih
      | with_reducible assumption
      | with_reducible apply pmuEvent_keep
      | with_reducible apply umpEvent_keep
      | with_reducible apply markBad_keep
      | with_reducible apply fatalReset_keep
      | with_reducible refine Keep.ite (fun _ => ?_) (fun _ => ?_)
      | with_reducible refine Keep.foldl ?_ (fun t x ht => ?_)
      | (intro c hc; first | exact hc | (simp; done) | (simpa using hc))
      | extract_lets
      | split
      | dsimp only

theorem scrubPass_keep {source : Nat} {core : Nat} {found : List MemFinding} {late : Bool} (h : Keep a s) : Keep a (scrubPass source core found late s) := by
  unfold scrubPass
  extract_lets s1
  have h1 : Keep a s1 := by
    unfold s1
    repeat' first
      | with_reducible assumption
      | with_reducible apply State.bump_keep
      | with_reducible apply scrubFound_keep
      | with_reducible refine Keep.ite (fun _ => ?_) (fun _ => ?_)
  clear_value s1
  repeat' first
    | with_reducible assumption
    | with_reducible apply State.bump_keep
    | with_reducible apply scrubFound_keep
    | with_reducible refine Keep.ite (fun _ => ?_) (fun _ => ?_)

theorem execSramScrubPass_keep {source : Nat} {core : Nat} {found : List MemFinding} {late : Bool} (h : Keep a s) : KeepOut a (execSramScrubPass source core found late s) := by
  unfold execSramScrubPass
  repeat' first
    | with_reducible assumption
    | with_reducible apply scrubPass_keep
    | with_reducible apply KeepOut.next

theorem patrolFound_keep {source : Nat} {x0 : List MemFinding} (h : Keep a s) : Keep a (patrolFound source x0 s) := by
  induction x0 generalizing s with
  | nil =>
    unfold patrolFound
    repeat' first
      | with_reducible assumption
      | with_reducible apply umpEvent_keep
      | with_reducible apply fatalReset_keep
      | with_reducible apply tagLost_keep
      | with_reducible refine Keep.ite (fun _ => ?_) (fun _ => ?_)
      | with_reducible refine Keep.foldl ?_ (fun t x ht => ?_)
      | (intro c hc; first | exact hc | (simp; done) | (simpa using hc))
      | extract_lets
      | split
      | dsimp only
      | with_reducible refine Keep.mk_same rfl rfl rfl rfl rfl rfl rfl rfl ?_
  | cons b t ih =>
    unfold patrolFound
    repeat' first
      | with_reducible apply ih
      | with_reducible assumption
      | with_reducible apply umpEvent_keep
      | with_reducible apply fatalReset_keep
      | with_reducible apply tagLost_keep
      | with_reducible refine Keep.ite (fun _ => ?_) (fun _ => ?_)
      | with_reducible refine Keep.foldl ?_ (fun t x ht => ?_)
      | (intro c hc; first | exact hc | (simp; done) | (simpa using hc))
      | extract_lets
      | split
      | dsimp only
      | with_reducible refine Keep.mk_same rfl rfl rfl rfl rfl rfl rfl rfl ?_

theorem patrolPass_keep {source : Nat} {found : List MemFinding} (h : Keep a s) : Keep a (patrolPass source found s) := by
  unfold patrolPass
  extract_lets s1
  have h1 : Keep a s1 := by
    unfold s1
    repeat' first
      | with_reducible assumption
      | with_reducible apply State.bump_keep
  clear_value s1
  repeat' first
    | with_reducible assumption
    | with_reducible apply State.bump_keep
    | with_reducible apply patrolFound_keep
    | with_reducible refine Keep.ite (fun _ => ?_) (fun _ => ?_)

theorem execHbmPatrolPass_keep {source : Nat} {found : List MemFinding} (h : Keep a s) : KeepOut a (execHbmPatrolPass source found s) := by
  unfold execHbmPatrolPass
  repeat' first
    | with_reducible assumption
    | with_reducible apply patrolPass_keep
    | with_reducible apply KeepOut.next

theorem failHeld_keep (h : Keep a s) : Keep a (failHeld s) := by
  unfold failHeld
  extract_lets ws os s1 src s2 s3
  have h2 : Keep a s2 := Keep.mk_same rfl rfl rfl rfl rfl rfl rfl rfl (State.setHif_keep h)
  have h3 : Keep a s3 := Keep.foldl h2 fun _ _ ht => cqWrite_keep ht
  exact Keep.foldl h3 fun _ _ ht => cqWrite_keep ht

theorem svcRestart_keep (h : Keep a s) : Keep a (svcRestart s) := by
  unfold svcRestart
  refine Keep.ite (fun _ => umpEvent_keep ?_) (fun _ => h)
  exact Keep.glb (State.draw_keep (failHeld_keep h)) (le_refl _) fun _ x => x

theorem execServiceCoreWatchdog_keep (h : Keep a s) : KeepOut a (execServiceCoreWatchdog s) := by
  unfold execServiceCoreWatchdog
  repeat' first
    | with_reducible assumption
    | with_reducible apply svcRestart_keep
    | with_reducible apply KeepOut.next

theorem execServiceCoreRestartDone_keep (h : Keep a s) : KeepOut a (execServiceCoreRestartDone s) :=
  KeepOut.next (h.glb (le_refl _) fun _ x => x)

theorem fabricError_keep {source : Nat} {sram : Bool} (h : Keep a s) : Keep a (fabricError source sram s) := by
  unfold fabricError
  repeat' first
    | with_reducible assumption
    | with_reducible apply fatalReset_keep
    | with_reducible refine Keep.ite (fun _ => ?_) (fun _ => ?_)

theorem execFabricParityError_keep {source : Nat} {uncorrSram : Bool} (h : Keep a s) : KeepOut a (execFabricParityError source uncorrSram s) := by
  unfold execFabricParityError
  repeat' first
    | with_reducible assumption
    | with_reducible apply fabricError_keep
    | with_reducible apply KeepOut.next

theorem trip_keep (h : Keep a s) : Keep a (trip s) :=
  Keep.ite (fun _ => h) (fun _ => State.setFld_keep (Keep.glb (fatalReset_keep h) (le_refl _) fun _ x => x))

theorem execThermtrip_keep (h : Keep a s) : KeepOut a (execThermtrip s) := by
  unfold execThermtrip
  repeat' first
    | with_reducible assumption
    | with_reducible apply trip_keep
    | with_reducible apply KeepOut.next

theorem alarm_keep {bit : Nat} {cause : Nat} {idx : Nat} (h : Keep a s) : Keep a (alarm bit cause idx s) := by
  unfold alarm
  extract_lets s1
  have h1 : Keep a s1 := by
    unfold s1
    repeat' first
      | with_reducible assumption
      | with_reducible apply raiseFld_keep
  clear_value s1
  repeat' first
    | with_reducible assumption
    | with_reducible apply raiseFld_keep
    | with_reducible apply umpEvent_keep
    | with_reducible refine Keep.ite (fun _ => ?_) (fun _ => ?_)

theorem tempBit_keep {f : Fld} {thr : Nat} {bit : Nat} {cause : Nat} {idx : Nat} {q : Int} (h : Keep a s) : Keep a (tempBit f thr bit cause idx q s) := by
  unfold tempBit
  repeat' first
    | with_reducible assumption
    | with_reducible apply State.setFld_keep
    | with_reducible apply alarm_keep
    | with_reducible refine Keep.ite (fun _ => ?_) (fun _ => ?_)

theorem tempScan_keep {i : Nat} {l : List Int} (h : Keep a s) : Keep a (tempScan i l s) := by
  induction l generalizing i s with
  | nil => exact h
  | cons q t ih =>
    unfold tempScan
    exact Keep.ite (fun _ => h) (fun _ => ih (tempBit_keep (tempBit_keep (State.setFld_keep h))))

theorem execTempSample_keep {quarters : List Int} (h : Keep a s) : KeepOut a (execTempSample quarters s) := by
  unfold execTempSample
  repeat' first
    | with_reducible assumption
    | with_reducible apply tempScan_keep
    | with_reducible apply KeepOut.next

theorem voltScan_keep {i : Nat} {l : List Nat} (h : Keep a s) : Keep a (voltScan i l s) := by
  induction l generalizing i s with
  | nil => exact h
  | cons q t ih =>
    unfold voltScan
    refine Keep.ite (fun _ => h) (fun _ => ih ?_)
    exact Keep.ite (fun _ => alarm_keep (Keep.mk_same rfl rfl rfl rfl rfl rfl rfl rfl (State.setFld_keep h)))
      (fun _ => Keep.mk_same rfl rfl rfl rfl rfl rfl rfl rfl (State.setFld_keep h))

theorem execVoltSample_keep {mv : List Nat} (h : Keep a s) : KeepOut a (execVoltSample mv s) := by
  unfold execVoltSample
  repeat' first
    | with_reducible assumption
    | with_reducible apply voltScan_keep
    | with_reducible apply KeepOut.next

theorem procScan_keep {i : Nat} {l : List Nat} (h : Keep a s) : Keep a (procScan i l s) := by
  induction l generalizing i s with
  | nil => exact h
  | cons q t ih =>
    unfold procScan
    refine Keep.ite (fun _ => h) (fun _ => ih ?_)
    exact Keep.ite (fun _ => alarm_keep (Keep.mk_same rfl rfl rfl rfl rfl rfl rfl rfl (State.setFld_keep h)))
      (fun _ => Keep.mk_same rfl rfl rfl rfl rfl rfl rfl rfl (State.setFld_keep h))

theorem execProcessSample_keep {counts : List Nat} (h : Keep a s) : KeepOut a (execProcessSample counts s) := by
  unfold execProcessSample
  repeat' first
    | with_reducible assumption
    | with_reducible apply procScan_keep
    | with_reducible apply KeepOut.next

theorem mergeExpiry_keep {source : Nat} {core : Nat} {cause : Nat} (h : Keep a s) : Keep a (mergeExpiry source core cause s) := by
  unfold mergeExpiry
  repeat' first
    | with_reducible assumption
    | with_reducible apply advanceSince_keep
    | with_reducible apply umpWrite_keep
    | extract_lets
    | split
    | dsimp only
    | intro t ht
    | with_reducible refine Keep.mk_same rfl rfl rfl rfl rfl rfl rfl rfl ?_

theorem execUmpireMergeExpiry_keep {source : Nat} {core : Nat} {cause : Nat} (h : Keep a s) : KeepOut a (execUmpireMergeExpiry source core cause s) := by
  unfold execUmpireMergeExpiry
  repeat' first
    | with_reducible assumption
    | with_reducible apply mergeExpiry_keep
    | with_reducible apply KeepOut.next

theorem kciFail_keep {code : Nat} (h : Keep a s) : (kciFail code s).Kept a := by
  unfold kciFail
  repeat' first
    | with_reducible assumption
    | with_reducible apply KciRes.kept_done

theorem kciOk_keep (h : Keep a s) : (kciOk s).Kept a := by
  unfold kciOk
  repeat' first
    | with_reducible assumption
    | with_reducible apply KciRes.kept_done

theorem kciEnd_keep {op : Nat} {hd : KciHdr} {key : Option (Nat × Nat)} {r : KciRes} (h : r.Kept a) : Keep a (kciEnd op hd key r) := by
  cases r
  · exact kciDone_keep h
  · exact kciDone_keep (State.emit_keep h)
  · exact kciWait_keep h

theorem kci_keep {op : Nat} {hd : KciHdr} {key : Option (Nat × Nat)} {operands : State → List Check} {f : State → KciRes} (h : Keep a s)
    (hf : ∀ t, Keep a t → (f t).Kept a) : Keep a (kci op hd key operands f s) := by
  unfold kci
  refine Keep.ite (fun _ => h) (fun _ => ?_)
  extract_lets s1 r
  have h1 : Keep a s1 := Keep.ite (fun _ => h) (fun _ => State.setHif_keep h)
  clear_value s1
  refine kciEnd_keep ?_
  unfold r
  split
  · exact h1
  split
  · exact h1
  · exact hf s1 h1

theorem fetchEntry_keep {op : Nat} {flags : Nat} {tag : Nat} (h : Keep a s) : Keep a (fetchEntry op flags tag s) := by
  unfold fetchEntry
  extract_lets v1 v2 v3 v4 v5 s1
  clear_value v1 v2 v3 v4 v5
  have h1 : Keep a s1 := by
    unfold s1
    repeat' first
      | with_reducible assumption
      | with_reducible apply State.setFld_keep
  clear_value s1
  repeat' first
    | with_reducible assumption
    | with_reducible apply State.setFld_keep
    | with_reducible apply State.setHif_keep
    | with_reducible apply kciDone_keep
    | with_reducible refine Keep.ite (fun _ => ?_) (fun _ => ?_)

theorem execKciFetch_keep {opcode : Nat} {flags : Nat} {tag : Nat} (h : Keep a s) : KeepOut a (execKciFetch opcode flags tag s) := by
  unfold execKciFetch
  repeat' first
    | with_reducible assumption
    | with_reducible apply fetchEntry_keep
    | with_reducible apply KeepOut.next

theorem execSysOpen_keep {h' : KciHdr} {major : Nat} {minor : Nat} (h : Keep a s) : KeepOut a (execSysOpen h' major minor s) := by
  unfold execSysOpen
  repeat' first
    | with_reducible assumption
    | with_reducible apply State.setHif_keep
    | with_reducible apply kciFail_keep
    | with_reducible refine kci_keep ?_ (fun t ht => ?_)
    | with_reducible refine Keep.ite (fun _ => ?_) (fun _ => ?_)
    | with_reducible apply CoreRes.kept_done
    | with_reducible apply KciRes.kept_fail
    | with_reducible apply KciRes.kept_done
    | with_reducible apply KeepOut.next
    | split

theorem execNodeLoad_keep {h' : KciHdr} {op : NodeOp} (h : Keep a s) : KeepOut a (execNodeLoad h' op s) := by
  unfold execNodeLoad
  repeat' first
    | with_reducible assumption
    | with_reducible apply State.setNode_keep
    | with_reducible apply kciFail_keep
    | with_reducible apply kciOk_keep
    | with_reducible refine kci_keep ?_ (fun t ht => ?_)
    | with_reducible refine Keep.ite (fun _ => ?_) (fun _ => ?_)
    | with_reducible apply KciRes.kept_fail
    | with_reducible apply KciRes.kept_ok
    | with_reducible apply KeepOut.next
    | split

theorem unloadNode_keep {n : Nat} {d : NodeD} (h : Keep a s) : (unloadNode n d s).Kept a := by
  unfold unloadNode
  repeat' first
    | with_reducible assumption
    | with_reducible apply State.setNode_keep
    | with_reducible apply eraseNode_keep
    | with_reducible apply dropStage_keep
    | with_reducible refine writeBack_keep ?_ (fun c hc => ?_)
    | with_reducible apply kciOk_keep
    | with_reducible refine Keep.ite (fun _ => ?_) (fun _ => ?_)
    | with_reducible apply KciRes.kept_ok
    | with_reducible apply KciRes.kept_wait
    | extract_lets
    | split

theorem execNodeUnload_keep {h' : KciHdr} {node : Nat} (h : Keep a s) : KeepOut a (execNodeUnload h' node s) := by
  unfold execNodeUnload
  repeat' first
    | with_reducible assumption
    | with_reducible apply kciFail_keep
    | with_reducible refine kci_keep ?_ (fun t ht => ?_)
    | with_reducible apply unloadNode_keep
    | with_reducible refine Keep.ite (fun _ => ?_) (fun _ => ?_)
    | with_reducible apply KciRes.kept_fail
    | with_reducible apply KeepOut.next
    | split

theorem execNodeArm_keep {h' : KciHdr} {node : Nat} (h : Keep a s) : KeepOut a (execNodeArm h' node s) := by
  unfold execNodeArm
  repeat' first
    | with_reducible assumption
    | with_reducible apply armNode_keep
    | refine armNode_some (by assumption) ?_
    | with_reducible apply kciFail_keep
    | with_reducible apply kciOk_keep
    | with_reducible refine kci_keep ?_ (fun t ht => ?_)
    | with_reducible refine Keep.ite (fun _ => ?_) (fun _ => ?_)
    | with_reducible apply KciRes.kept_fail
    | with_reducible apply KciRes.kept_ok
    | with_reducible apply KeepOut.next
    | split

theorem execNodeCancel_keep {h' : KciHdr} {node : Nat} (h : Keep a s) : KeepOut a (execNodeCancel h' node s) := by
  unfold execNodeCancel
  repeat' first
    | with_reducible assumption
    | with_reducible apply cancelNode_keep
    | with_reducible apply kciFail_keep
    | with_reducible apply kciOk_keep
    | with_reducible refine kci_keep ?_ (fun t ht => ?_)
    | with_reducible refine Keep.ite (fun _ => ?_) (fun _ => ?_)
    | with_reducible apply KciRes.kept_fail
    | with_reducible apply KciRes.kept_ok
    | with_reducible apply KeepOut.next
    | split

theorem execNodePost_keep {h' : KciHdr} {node : Nat} {flags : Nat} (h : Keep a s) : KeepOut a (execNodePost h' node flags s) := by
  unfold execNodePost
  repeat' first
    | with_reducible assumption
    | with_reducible apply kci_keep
    | with_reducible apply kciFail_keep
    | with_reducible apply voidPost_keep
    | refine postNode_some (by assumption) ?_
    | with_reducible apply postNode_keep
    | with_reducible apply kciOk_keep
    | with_reducible refine Keep.ite (fun _ => ?_) (fun _ => ?_)
    | with_reducible refine Keep.foldl ?_ (fun t x ht => ?_)
    | (intro c hc; first | exact hc | (simp; done) | (simpa using hc))
    | with_reducible apply KeepOut.next
    | with_reducible refine kci_keep ?_ (fun t ht => ?_)
    | with_reducible apply KciRes.kept_fail
    | with_reducible apply KciRes.kept_ok
    | with_reducible apply KciRes.kept_done
    | with_reducible apply KciRes.kept_wait
    | with_reducible apply KciRes.kept_record
    | intro t ht
    | extract_lets
    | split
    | dsimp only
    | with_reducible refine Keep.mk_same rfl rfl rfl rfl rfl rfl rfl rfl ?_

theorem joinBeat_keep {n : Nat} {g : Nat} {d : NodeD} (h : Keep a s) : (joinBeat n g d s).Kept a := by
  unfold joinBeat
  repeat' first
    | with_reducible assumption
    | with_reducible apply State.setNode_keep
    | with_reducible apply State.updGen_keep
    | with_reducible apply kciFail_keep
    | with_reducible apply kciOk_keep
    | with_reducible refine Keep.ite (fun _ => ?_) (fun _ => ?_)
    | with_reducible apply KciRes.kept_fail
    | with_reducible apply KciRes.kept_ok
    | exact fun _ hc => hc
    | split

theorem execNodeBeat_keep {h' : KciHdr} {node : Nat} {gen : Nat} (h : Keep a s) : KeepOut a (execNodeBeat h' node gen s) := by
  unfold execNodeBeat
  repeat' first
    | with_reducible assumption
    | with_reducible apply kciFail_keep
    | with_reducible refine kci_keep ?_ (fun t ht => ?_)
    | with_reducible apply joinBeat_keep
    | with_reducible refine Keep.ite (fun _ => ?_) (fun _ => ?_)
    | with_reducible apply KciRes.kept_fail
    | with_reducible apply KeepOut.next
    | split

theorem execNodeRead_keep {h' : KciHdr} {node : Nat} (h : Keep a s) : KeepOut a (execNodeRead h' node s) := by
  unfold execNodeRead
  repeat' first
    | with_reducible assumption
    | with_reducible apply record_keep
    | with_reducible apply kciFail_keep
    | with_reducible refine kci_keep ?_ (fun t ht => ?_)
    | with_reducible refine Keep.ite (fun _ => ?_) (fun _ => ?_)
    | with_reducible apply KciRes.kept_fail
    | with_reducible apply KciRes.kept_record
    | with_reducible apply KeepOut.next
    | split

theorem execNodeEvict_keep {h' : KciHdr} {node : Nat} (h : Keep a s) : KeepOut a (execNodeEvict h' node s) := by
  unfold execNodeEvict
  repeat' first
    | with_reducible assumption
    | with_reducible apply State.setNode_keep
    | with_reducible apply State.setGh_keep
    | with_reducible apply invalidate_keep
    | with_reducible refine writeBack_keep ?_ (fun c hc => ?_)
    | with_reducible apply kciFail_keep
    | with_reducible apply kciOk_keep
    | with_reducible refine kci_keep ?_ (fun t ht => ?_)
    | with_reducible refine Keep.ite (fun _ => ?_) (fun _ => ?_)
    | with_reducible apply KciRes.kept_fail
    | with_reducible apply KciRes.kept_ok
    | with_reducible apply KciRes.kept_wait
    | with_reducible apply KeepOut.next
    | split

theorem execTimerArm_keep {h' : KciHdr} {op : TimerOp} (h : Keep a s) : KeepOut a (execTimerArm h' op s) := by
  unfold execTimerArm
  repeat' first
    | with_reducible assumption
    | with_reducible apply insertTimer_keep
    | refine insertTimer_pair (by assumption) ?_
    | with_reducible apply kciFail_keep
    | with_reducible refine kci_keep ?_ (fun t ht => ?_)
    | with_reducible refine Keep.ite (fun _ => ?_) (fun _ => ?_)
    | with_reducible apply CoreRes.kept_done
    | with_reducible apply KciRes.kept_fail
    | with_reducible apply KciRes.kept_done
    | with_reducible apply KeepOut.next
    | extract_lets
    | split

theorem execTimerCancel_keep {h' : KciHdr} {timer : Nat} (h : Keep a s) : KeepOut a (execTimerCancel h' timer s) := by
  unfold execTimerCancel
  repeat' first
    | with_reducible assumption
    | with_reducible apply kciFail_keep
    | with_reducible apply kciOk_keep
    | with_reducible refine kci_keep ?_ (fun t ht => ?_)
    | with_reducible refine Keep.ite (fun _ => ?_) (fun _ => ?_)
    | with_reducible apply KciRes.kept_fail
    | with_reducible apply KciRes.kept_ok
    | with_reducible apply KeepOut.next
    | split
    | dsimp only
    | intro t ht
    | with_reducible refine Keep.mk_same rfl rfl rfl rfl rfl rfl rfl rfl ?_

theorem setBeat_keep {o : BeatOp} (h : Keep a s) : Keep a (setBeat o s) := by
  unfold setBeat
  repeat' first
    | with_reducible assumption
    | with_reducible apply State.updGen_keep
    | with_reducible refine Keep.ite (fun _ => ?_) (fun _ => ?_)
    | with_reducible refine Keep.foldl ?_ (fun t x ht => ?_)
    | (intro c hc; first | exact hc | (simp; done) | (simpa using hc))
    | extract_lets
    | split
    | dsimp only
    | with_reducible refine Keep.mk_same rfl rfl rfl rfl rfl rfl rfl rfl ?_

theorem execTimerBeat_keep {h' : KciHdr} {op : BeatOp} (h : Keep a s) : KeepOut a (execTimerBeat h' op s) := by
  unfold execTimerBeat
  repeat' first
    | with_reducible assumption
    | with_reducible apply kciFail_keep
    | with_reducible apply kciOk_keep
    | with_reducible refine kci_keep ?_ (fun t ht => ?_)
    | with_reducible apply setBeat_keep
    | with_reducible refine Keep.ite (fun _ => ?_) (fun _ => ?_)
    | with_reducible apply KciRes.kept_fail
    | with_reducible apply KciRes.kept_ok
    | with_reducible apply KeepOut.next
    | split

theorem openQueue_keep {o : QueueOp} (h : Keep a s) : (openQueue o s).Kept a := by
  unfold openQueue
  repeat' first
    | with_reducible assumption
    | with_reducible apply State.setQueue_keep
    | with_reducible apply kciFail_keep
    | with_reducible apply kciOk_keep
    | with_reducible refine Keep.ite (fun _ => ?_) (fun _ => ?_)
    | with_reducible apply KciRes.kept_fail
    | with_reducible apply KciRes.kept_ok
    | split

theorem execQueueOpen_keep {h' : KciHdr} {op : QueueOp} (h : Keep a s) : KeepOut a (execQueueOpen h' op s) := by
  unfold execQueueOpen
  repeat' first
    | with_reducible assumption
    | with_reducible refine kci_keep ?_ (fun t ht => ?_)
    | with_reducible apply openQueue_keep
    | with_reducible apply KeepOut.next

theorem execQueueClose_keep {h' : KciHdr} {queue : Nat} (h : Keep a s) : KeepOut a (execQueueClose h' queue s) := by
  unfold execQueueClose
  repeat' first
    | with_reducible assumption
    | with_reducible apply closeQueue_keep
    | refine closeQueue_pair (by assumption) ?_
    | with_reducible apply kciFail_keep
    | with_reducible refine kci_keep ?_ (fun t ht => ?_)
    | with_reducible refine Keep.ite (fun _ => ?_) (fun _ => ?_)
    | with_reducible apply CoreRes.kept_done
    | with_reducible apply KciRes.kept_fail
    | with_reducible apply KciRes.kept_done
    | with_reducible apply KeepOut.next
    | extract_lets
    | split

theorem onQueue_keep {queue : Nat} {ok : Queue → Bool} {f : Queue → State → KciRes} (h : Keep a s) (hf : ∀ x t, Keep a t → (f x t).Kept a) :
    (onQueue queue ok f s).Kept a := by
  unfold onQueue
  repeat' first
    | exact h
    | exact hf _ _ h
    | split

theorem execQueueMark_keep {h' : KciHdr} {queue : Nat} (h : Keep a s) : KeepOut a (execQueueMark h' queue s) := by
  unfold execQueueMark
  repeat' first
    | with_reducible assumption
    | with_reducible apply placeMark_keep
    | with_reducible apply kciOk_keep
    | with_reducible refine kci_keep ?_ (fun t ht => ?_)
    | with_reducible refine onQueue_keep ?_ (fun x t ht => ?_)
    | with_reducible apply KciRes.kept_ok
    | with_reducible apply KeepOut.next

theorem execQueueMarkClear_keep {h' : KciHdr} {queue : Nat} (h : Keep a s) : KeepOut a (execQueueMarkClear h' queue s) := by
  unfold execQueueMarkClear
  repeat' first
    | with_reducible assumption
    | with_reducible apply clearMark_keep
    | with_reducible apply kciOk_keep
    | with_reducible refine kci_keep ?_ (fun t ht => ?_)
    | with_reducible refine onQueue_keep ?_ (fun x t ht => ?_)
    | with_reducible apply KciRes.kept_ok
    | with_reducible apply KeepOut.next

theorem rewind_keep {queue : Nat} {x : Queue} (h : Keep a s) : (rewind queue x s).Kept a := by
  unfold rewind
  repeat' first
    | with_reducible assumption
    | with_reducible apply replayAll_keep
    | with_reducible apply kciOk_keep
    | with_reducible apply KciRes.kept_ok
    | with_reducible apply KciRes.kept_done
    | split

theorem execQueueRewind_keep {h' : KciHdr} {queue : Nat} (h : Keep a s) : KeepOut a (execQueueRewind h' queue s) := by
  unfold execQueueRewind
  repeat' first
    | with_reducible assumption
    | with_reducible refine kci_keep ?_ (fun t ht => ?_)
    | with_reducible refine onQueue_keep ?_ (fun x t ht => ?_)
    | with_reducible apply rewind_keep
    | with_reducible apply KeepOut.next

theorem execQueueRewindFromOldest_keep {h' : KciHdr} {queue : Nat} (h : Keep a s) : KeepOut a (execQueueRewindFromOldest h' queue s) := by
  unfold execQueueRewindFromOldest
  repeat' first
    | with_reducible assumption
    | with_reducible apply replayAll_keep
    | with_reducible apply kciOk_keep
    | with_reducible refine kci_keep ?_ (fun t ht => ?_)
    | with_reducible refine onQueue_keep ?_ (fun x t ht => ?_)
    | with_reducible refine Keep.ite (fun _ => ?_) (fun _ => ?_)
    | with_reducible apply CoreRes.kept_done
    | with_reducible apply KciRes.kept_ok
    | with_reducible apply KciRes.kept_done
    | with_reducible apply KeepOut.next
    | split

theorem execQueueStats_keep {h' : KciHdr} {queue : Nat} {clear : Bool} (h : Keep a s) : KeepOut a (execQueueStats h' queue clear s) := by
  unfold execQueueStats
  repeat' first
    | with_reducible assumption
    | with_reducible apply State.setQueue_keep
    | with_reducible apply record_keep
    | with_reducible apply kciFail_keep
    | with_reducible refine kci_keep ?_ (fun t ht => ?_)
    | with_reducible refine Keep.ite (fun _ => ?_) (fun _ => ?_)
    | with_reducible apply KciRes.kept_fail
    | with_reducible apply KciRes.kept_record
    | with_reducible apply KeepOut.next
    | split

theorem openAccount_keep {o : AccountOp} (h : Keep a s) : (openAccount o s).Kept a := by
  unfold openAccount
  repeat' first
    | with_reducible assumption
    | with_reducible apply State.setSeed_keep
    | with_reducible apply kciFail_keep
    | with_reducible apply kciOk_keep
    | with_reducible refine Keep.ite (fun _ => ?_) (fun _ => ?_)
    | with_reducible apply KciRes.kept_fail
    | with_reducible apply KciRes.kept_ok
    | extract_lets
    | split

theorem execSysAccount_keep {h' : KciHdr} {op : AccountOp} (h : Keep a s) : KeepOut a (execSysAccount h' op s) := by
  unfold execSysAccount
  repeat' first
    | with_reducible assumption
    | with_reducible refine kci_keep ?_ (fun t ht => ?_)
    | with_reducible apply openAccount_keep
    | with_reducible apply KeepOut.next

theorem execSysAccountClose_keep {h' : KciHdr} {account : Nat} (h : Keep a s) : KeepOut a (execSysAccountClose h' account s) := by
  unfold execSysAccountClose
  repeat' first
    | with_reducible assumption
    | with_reducible apply closeAccount_keep
    | with_reducible apply kciFail_keep
    | with_reducible apply kciOk_keep
    | with_reducible refine kci_keep ?_ (fun t ht => ?_)
    | with_reducible refine Keep.ite (fun _ => ?_) (fun _ => ?_)
    | with_reducible apply KciRes.kept_fail
    | with_reducible apply KciRes.kept_ok
    | with_reducible apply KeepOut.next
    | split

theorem execSysAccountStats_keep {h' : KciHdr} {account : Nat} {clear : Bool} (h : Keep a s) : KeepOut a (execSysAccountStats h' account clear s) := by
  unfold execSysAccountStats
  repeat' first
    | with_reducible assumption
    | with_reducible apply State.setSeed_keep
    | with_reducible apply kciFail_keep
    | with_reducible refine kci_keep ?_ (fun t ht => ?_)
    | with_reducible refine Keep.ite (fun _ => ?_) (fun _ => ?_)
    | with_reducible apply CoreRes.kept_done
    | with_reducible apply KciRes.kept_fail
    | with_reducible apply KciRes.kept_done
    | with_reducible apply KeepOut.next
    | extract_lets
    | split

end Sys2Proof.Machine
end

