-- ==== Sys2Proof/Laws/KeepNet.lean ====
section
/-!
SUPPORT. Laws/KeepNet.lean: every operation of the network keeps what Keep names.
-/

namespace Sys2Proof.Machine

variable {a s : State}

theorem State.setNet_keep {f : NetSt → NetSt} (h : Keep a s) : Keep a (State.setNet s f) := by
  unfold State.setNet
  repeat' first
    | with_reducible assumption
    | dsimp only
    | with_reducible refine Keep.mk_same rfl rfl rfl rfl rfl rfl rfl rfl ?_

theorem State.updPort_keep {p : Nat} {f : PortSt → PortSt} (h : Keep a s) : Keep a (State.updPort s p f) := by
  unfold State.updPort
  repeat' first
    | with_reducible assumption
    | with_reducible apply State.setNet_keep

theorem State.updRx_keep {f : Nat} {g : RxFlow → RxFlow} (h : Keep a s) : Keep a (State.updRx s f g) := by
  unfold State.updRx
  repeat' first
    | with_reducible assumption
    | with_reducible apply State.setNet_keep
    | split

theorem State.updTx_keep {f : Nat} {g : TxFlow → TxFlow} (h : Keep a s) : Keep a (State.updTx s f g) := by
  unfold State.updTx
  repeat' first
    | with_reducible assumption
    | with_reducible apply State.setNet_keep
    | split

theorem linkDown_keep {p : Nat} (h : Keep a s) : Keep a (linkDown p s) := by
  unfold linkDown
  extract_lets s1 s2 s3
  have h1 : Keep a s1 := by
    unfold s1
    repeat' first
      | with_reducible assumption
      | with_reducible apply State.setFld_keep
  clear_value s1
  have h2 : Keep a s2 := by
    unfold s2
    repeat' first
      | with_reducible assumption
      | with_reducible apply State.setFld_keep
  clear_value s2
  have h3 : Keep a s3 := by
    unfold s3
    repeat' first
      | with_reducible assumption
      | with_reducible apply State.setFld_keep
  clear_value s3
  repeat' first
    | with_reducible assumption
    | with_reducible apply State.setFld_keep
    | with_reducible apply raiseFld_keep
    | with_reducible refine Keep.ite (fun _ => ?_) (fun _ => ?_)

theorem linkChange_keep {p : Nat} {up : Bool} {hiSer : Bool} (h : Keep a s) : Keep a (linkChange p up hiSer s) := by
  unfold linkChange
  extract_lets s1 s2
  have h1 : Keep a s1 := by
    unfold s1
    repeat' first
      | with_reducible assumption
      | with_reducible apply State.setFld_keep
  clear_value s1
  have h2 : Keep a s2 := by
    unfold s2
    repeat' first
      | with_reducible assumption
      | with_reducible apply State.setFld_keep
  clear_value s2
  repeat' first
    | with_reducible assumption
    | with_reducible apply State.setFld_keep
    | with_reducible apply linkDown_keep
    | with_reducible refine Keep.ite (fun _ => ?_) (fun _ => ?_)

theorem execEthernetLinkChange_keep {port : Nat} {up : Bool} {hiSer : Bool} (h : Keep a s) : KeepOut a (execEthernetLinkChange port up hiSer s) := by
  unfold execEthernetLinkChange
  repeat' first
    | with_reducible assumption
    | with_reducible apply linkChange_keep
    | with_reducible apply KeepOut.next

theorem acceptMedia_keep {p : Nat} {fl : Nat} {pathB : Bool} {x : RxFlow} {f : Frame} (h : Keep a s) : Keep a (acceptMedia p fl pathB x f s) := by
  unfold acceptMedia
  extract_lets v1 v2 v3 v4 v5
  clear_value v1 v2 v3 v4 v5
  repeat' first
    | with_reducible assumption
    | with_reducible apply State.bump_keep
    | with_reducible apply State.updPort_keep
    | with_reducible apply State.updRx_keep
    | with_reducible refine Keep.ite (fun _ => ?_) (fun _ => ?_)

theorem netReceive_keep {p : Nat} {f : Frame} (h : Keep a s) : Keep a (netReceive p f s) := by
  unfold netReceive
  extract_lets s1 s2
  have h1 : Keep a s1 := by
    unfold s1
    repeat' first
      | with_reducible assumption
      | with_reducible apply State.bump_keep
      | with_reducible apply pmuEvent_keep
  clear_value s1
  have h2 : Keep a s2 := by
    unfold s2
    repeat' first
      | with_reducible assumption
      | with_reducible apply State.bump_keep
  clear_value s2
  repeat' first
    | with_reducible assumption
    | with_reducible apply State.bump_keep
    | with_reducible apply pmuEvent_keep
    | with_reducible apply State.updPort_keep
    | with_reducible apply State.updRx_keep
    | with_reducible apply acceptMedia_keep
    | with_reducible refine Keep.ite (fun _ => ?_) (fun _ => ?_)
    | with_reducible refine Keep.foldl ?_ (fun t x ht => ?_)
    | exact fun _ hc => hc
    | extract_lets
    | split

theorem execEthernetFrameReceive_keep {port : Nat} {frame : Frame} (h : Keep a s) : KeepOut a (execEthernetFrameReceive port frame s) := by
  unfold execEthernetFrameReceive
  repeat' first
    | with_reducible assumption
    | with_reducible apply netReceive_keep
    | with_reducible refine Keep.ite (fun _ => ?_) (fun _ => ?_)
    | with_reducible refine Keep.foldl ?_ (fun t x ht => ?_)
    | (intro c hc; first | exact hc | (simp; done) | (simpa using hc))
    | with_reducible apply KeepOut.next
    | extract_lets
    | split
    | dsimp only

theorem loopBack_keep {p : Nat} {f : Frame} (h : Keep a s) : Keep a (loopBack p f s) := by
  unfold loopBack
  repeat' first
    | with_reducible assumption
    | with_reducible apply netReceive_keep
    | with_reducible refine Keep.ite (fun _ => ?_) (fun _ => ?_)
    | with_reducible refine Keep.foldl ?_ (fun t x ht => ?_)
    | (intro c hc; first | exact hc | (simp; done) | (simpa using hc))
    | extract_lets
    | split
    | dsimp only
    | with_reducible refine Keep.mk_same rfl rfl rfl rfl rfl rfl rfl rfl ?_

theorem serviceTake_keep {p : Nat} (h : Keep a s) : Keep a (serviceTake p s) := by
  unfold serviceTake
  repeat' first
    | with_reducible assumption
    | with_reducible apply State.updPort_keep
    | with_reducible refine Keep.ite (fun _ => ?_) (fun _ => ?_)
    | exact fun _ hc => hc
    | extract_lets
    | split
    | dsimp only
    | intro t ht
    | with_reducible refine Keep.mk_same rfl rfl rfl rfl rfl rfl rfl rfl ?_

theorem execServiceFifoPacket_keep {port : Nat} (h : Keep a s) : KeepOut a (execServiceFifoPacket port s) := by
  unfold execServiceFifoPacket
  repeat' first
    | with_reducible assumption
    | with_reducible apply serviceTake_keep
    | with_reducible apply KeepOut.next

theorem admitHead_keep {p : Nat} (h : Keep a s) : Keep a (admitHead p s) := by
  unfold admitHead
  repeat' first
    | with_reducible assumption
    | with_reducible apply State.updPort_keep
    | with_reducible apply State.bump_keep
    | refine seedAlloc_pair (by assumption) ?_
    | with_reducible apply seedAlloc_keep
    | with_reducible apply bufWrite_keep
    | with_reducible apply mqPush_keep
    | with_reducible refine Keep.ite (fun _ => ?_) (fun _ => ?_)
    | with_reducible refine Keep.foldl ?_ (fun t x ht => ?_)
    | (intro c hc; first | exact hc | (simp; done) | (simpa using hc))
    | extract_lets
    | split
    | dsimp only
    | with_reducible refine Keep.mk_same rfl rfl rfl rfl rfl rfl rfl rfl ?_

theorem execMediaPacketAdmit_keep {port : Nat} (h : Keep a s) : KeepOut a (execMediaPacketAdmit port s) := by
  unfold execMediaPacketAdmit
  repeat' first
    | with_reducible assumption
    | with_reducible apply admitHead_keep
    | with_reducible apply KeepOut.next

theorem flowEvent_keep {fl : Nat} {pathB : Bool} (h : Keep a s) : Keep a (flowEvent fl pathB s) := by
  unfold flowEvent
  repeat' first
    | with_reducible assumption
    | with_reducible apply State.bump_keep
    | with_reducible apply raiseFld_keep
    | with_reducible apply State.setHif_keep
    | with_reducible refine Keep.ite (fun _ => ?_) (fun _ => ?_)

theorem pathDown_keep {fl : Nat} {pathB : Bool} (h : Keep a s) : Keep a (pathDown fl pathB s) := by
  unfold pathDown
  repeat' first
    | with_reducible assumption
    | with_reducible apply advanceTo_keep
    | with_reducible apply State.updRx_keep
    | with_reducible apply flowEvent_keep
    | with_reducible refine Keep.ite (fun _ => ?_) (fun _ => ?_)
    | exact fun _ hc => hc
    | extract_lets
    | split

theorem execPathTimeout_keep {flow : Nat} {pathB : Bool} (h : Keep a s) : KeepOut a (execPathTimeout flow pathB s) := by
  unfold execPathTimeout
  repeat' first
    | with_reducible assumption
    | with_reducible apply pathDown_keep
    | with_reducible apply KeepOut.next

theorem skewMiss_keep {fl : Nat} {pathB : Bool} {seq : Nat} (h : Keep a s) : Keep a (skewMiss fl pathB seq s) := by
  unfold skewMiss
  repeat' first
    | with_reducible assumption
    | with_reducible apply advanceSince_keep
    | with_reducible apply State.updRx_keep
    | exact fun _ hc => hc
    | extract_lets
    | split

theorem execSkewPartnerTimeout_keep {flow : Nat} {pathB : Bool} {seq : Nat} (h : Keep a s) : KeepOut a (execSkewPartnerTimeout flow pathB seq s) := by
  unfold execSkewPartnerTimeout
  repeat' first
    | with_reducible assumption
    | with_reducible apply skewMiss_keep
    | with_reducible apply KeepOut.next

theorem portPop_keep {q : Nat} {bound : Option Nat} {acct : Option Nat} (h : Keep a s) : Keep a (portPop q bound acct s).2 := by
  unfold portPop
  repeat' first
    | with_reducible assumption
    | refine mqTake_pair (by assumption) ?_
    | with_reducible apply mqTake_keep
    | with_reducible apply countPop_keep
    | with_reducible apply State.setQueue_keep
    | with_reducible apply retainItem_keep
    | with_reducible apply seedMove_keep
    | with_reducible refine Keep.ite (fun _ => ?_) (fun _ => ?_)
    | with_reducible refine Keep.foldl ?_ (fun t x ht => ?_)
    | (intro c hc; first | exact hc | (simp; done) | (simpa using hc))
    | extract_lets
    | split
    | dsimp only
    | with_reducible refine Keep.mk_same rfl rfl rfl rfl rfl rfl rfl rfl ?_

theorem portPop_pair {q : Nat} {bound : Option Nat} {acct : Option Nat} {y0} {t} (eqn : portPop q bound acct s = (y0, t)) (h : Keep a s) : Keep a t := by
  have := portPop_keep (q := q) (bound := bound) (acct := acct) h; rwa [eqn] at this

theorem releaseEntry_keep {e : Entry} {loan : Bool} (h : Keep a s) : Keep a (releaseEntry e loan s) := by
  unfold releaseEntry
  repeat' first
    | with_reducible assumption
    | with_reducible apply seedFree_keep
    | with_reducible refine Keep.ite (fun _ => ?_) (fun _ => ?_)

theorem judgeCopy_keep {c : Copy} {late : Int} (h : Keep a s) : Keep a (judgeCopy c late s).2 := by
  unfold judgeCopy
  extract_lets v1 s1
  clear_value v1
  have h1 : Keep a s1 := by
    unfold s1
    repeat' first
      | with_reducible assumption
      | with_reducible apply State.bump_keep
      | with_reducible apply State.updPort_keep
      | with_reducible refine Keep.ite (fun _ => ?_) (fun _ => ?_)
  clear_value s1
  repeat' first
    | with_reducible assumption
    | with_reducible apply State.bump_keep
    | with_reducible apply State.updPort_keep
    | with_reducible refine Keep.ite (fun _ => ?_) (fun _ => ?_)
    | exact fun _ hc => hc
    | extract_lets
    | split

theorem judgeCopy_pair {c : Copy} {late : Int} {x0} {t} (e : judgeCopy c late s = (x0, t)) (h : Keep a s) : Keep a t := by
  have := judgeCopy_keep (c := c) (late := late) h; rwa [e] at this

theorem egressCopies_keep {fl : Nat} {x : TxFlow} {i : Item} {loan : Bool} {e late : Int} (h : Keep a s) :
    Keep a (egressCopies fl x i loan e late s) := by
  unfold egressCopies
  extract_lets w0 w1 ts mk ra rb
  have ha : Keep a ra.2 := by
    unfold ra
    split
    · exact judgeCopy_keep h
    · exact h
  have hb : Keep a rb.2 := by
    unfold rb
    split
    · exact judgeCopy_keep ha
    · exact ha
  clear_value rb
  split
  · exact hb
  · exact releaseEntry_keep hb

theorem egressPop_keep {fl : Nat} {x : TxFlow} (h : Keep a s) : Keep a (egressPop fl x s) := by
  unfold egressPop
  repeat' first
    | with_reducible assumption
    | refine portPop_pair (by assumption) ?_
    | with_reducible apply portPop_keep
    | with_reducible apply State.updTx_keep
    | with_reducible apply egressCopies_keep
    | with_reducible refine Keep.ite (fun _ => ?_) (fun _ => ?_)
    | with_reducible refine Keep.foldl ?_ (fun t x ht => ?_)
    | (intro c hc; first | exact hc | (simp; done) | (simpa using hc))
    | extract_lets
    | split
    | dsimp only
    | with_reducible refine Keep.mk_same rfl rfl rfl rfl rfl rfl rfl rfl ?_

theorem egressTake_keep {fl : Nat} (h : Keep a s) : Keep a (egressTake fl s) := by
  unfold egressTake
  repeat' first
    | with_reducible assumption
    | with_reducible apply egressPop_keep
    | with_reducible apply advanceTo_keep
    | with_reducible refine Keep.ite (fun _ => ?_) (fun _ => ?_)
    | with_reducible refine Keep.foldl ?_ (fun t x ht => ?_)
    | (intro c hc; first | exact hc | (simp; done) | (simpa using hc))
    | extract_lets
    | split
    | dsimp only
    | with_reducible refine Keep.mk_same rfl rfl rfl rfl rfl rfl rfl rfl ?_

theorem execEgressTake_keep {flow : Nat} (h : Keep a s) : KeepOut a (execEgressTake flow s) := by
  unfold execEgressTake
  repeat' first
    | with_reducible assumption
    | with_reducible apply egressTake_keep
    | with_reducible apply KeepOut.next

theorem txStamp_keep {p : Nat} {id : Nat} (h : Keep a s) : Keep a (txStamp p id s) := by
  unfold txStamp
  extract_lets v1 v2
  clear_value v1 v2
  repeat' first
    | with_reducible assumption
    | with_reducible apply State.setFld_keep
    | with_reducible apply State.bump_keep
    | with_reducible refine Keep.ite (fun _ => ?_) (fun _ => ?_)
    | extract_lets
    | split
    | dsimp only
    | with_reducible refine Keep.mk_same rfl rfl rfl rfl rfl rfl rfl rfl ?_

theorem svcBack_keep {p : Nat} {kind : FrameKind} {carries : UdpCarries} {ipv6 : Bool} {dst : Nat} {sport : Nat} {dport : Nat} (h : Keep a s) : Keep a (svcBack p kind carries ipv6 dst sport dport s) := by
  unfold svcBack
  repeat' first
    | with_reducible assumption
    | refine State.draw_pair (by assumption) ?_
    | with_reducible apply State.draw_keep
    | with_reducible apply netReceive_keep
    | with_reducible refine Keep.ite (fun _ => ?_) (fun _ => ?_)
    | with_reducible refine Keep.foldl ?_ (fun t x ht => ?_)
    | (intro c hc; first | exact hc | (simp; done) | (simpa using hc))
    | extract_lets
    | split
    | dsimp only
    | with_reducible refine Keep.mk_same rfl rfl rfl rfl rfl rfl rfl rfl ?_

theorem copyLeaves_keep {p : Nat} (h : Keep a s) : Keep a (copyLeaves p s) := by
  unfold copyLeaves
  repeat' first
    | with_reducible assumption
    | with_reducible apply advanceTo_keep
    | with_reducible apply State.updPort_keep
    | refine State.draw_pair (by assumption) ?_
    | with_reducible apply State.draw_keep
    | with_reducible apply State.emit_keep
    | with_reducible apply pmuEvent_keep
    | with_reducible apply State.bump_keep
    | with_reducible apply State.updTx_keep
    | with_reducible apply txStamp_keep
    | with_reducible apply loopBack_keep
    | with_reducible apply releaseEntry_keep
    | with_reducible refine Keep.ite (fun _ => ?_) (fun _ => ?_)
    | with_reducible refine Keep.foldl ?_ (fun t x ht => ?_)
    | (intro c hc; first | exact hc | (simp; done) | (simpa using hc))
    | extract_lets
    | split
    | dsimp only
    | with_reducible refine Keep.mk_same rfl rfl rfl rfl rfl rfl rfl rfl ?_

theorem execCopyDeparture_keep {port : Nat} (h : Keep a s) : KeepOut a (execCopyDeparture port s) := by
  unfold execCopyDeparture
  repeat' first
    | with_reducible assumption
    | with_reducible apply copyLeaves_keep
    | with_reducible apply KeepOut.next

theorem senderReport_keep {fl : Nat} (h : Keep a s) : Keep a (senderReport fl s) := by
  unfold senderReport
  repeat' first
    | with_reducible assumption
    | with_reducible apply svcBack_keep
    | with_reducible apply State.emit_keep
    | with_reducible refine Keep.ite (fun _ => ?_) (fun _ => ?_)
    | with_reducible refine Keep.foldl ?_ (fun t x ht => ?_)
    | (intro c hc; first | exact hc | (simp; done) | (simpa using hc))
    | extract_lets
    | split
    | dsimp only
    | with_reducible refine Keep.mk_same rfl rfl rfl rfl rfl rfl rfl rfl ?_

theorem execRtcpSenderReport_keep {flow : Nat} (h : Keep a s) : KeepOut a (execRtcpSenderReport flow s) := by
  unfold execRtcpSenderReport
  repeat' first
    | with_reducible assumption
    | with_reducible apply senderReport_keep
    | with_reducible apply KeepOut.next

theorem joinKey_keep {k : FlowKey} (h : Keep a s) : Keep a (joinKey k s) := by
  unfold joinKey
  repeat' first
    | with_reducible assumption
    | with_reducible apply State.emit_keep
    | with_reducible apply svcBack_keep
    | with_reducible refine Keep.ite (fun _ => ?_) (fun _ => ?_)
    | with_reducible refine Keep.foldl ?_ (fun t x ht => ?_)
    | (intro c hc; first | exact hc | (simp; done) | (simpa using hc))
    | extract_lets
    | split
    | dsimp only

theorem execFlowOpenRx_keep {h' : KciHdr} {len : Nat} {blk : RxBlock} (h : Keep a s) : KeepOut a (execFlowOpenRx h' len blk s) := by
  unfold execFlowOpenRx
  repeat' first
    | with_reducible assumption
    | with_reducible apply kciFail_keep
    | with_reducible apply kciOk_keep
    | with_reducible refine kci_keep ?_ (fun t ht => ?_)
    | with_reducible apply State.setNet_keep
    | with_reducible apply joinKey_keep
    | with_reducible refine Keep.ite (fun _ => ?_) (fun _ => ?_)
    | with_reducible apply KciRes.kept_fail
    | with_reducible apply KciRes.kept_ok
    | with_reducible apply KeepOut.next
    | split

theorem execFlowOpenTx_keep {hd : KciHdr} {len : Nat} {blk : TxBlock} (h : Keep a s) : KeepOut a (execFlowOpenTx hd len blk s) := by
  refine KeepOut.next (kci_keep h fun t ht => ?_)
  split
  · exact ht
  · exact State.setNet_keep (State.draw_keep ht)

theorem execFlowPortAddr_keep {h' : KciHdr} {len : Nat} {blk : PortAddr} (h : Keep a s) : KeepOut a (execFlowPortAddr h' len blk s) := by
  unfold execFlowPortAddr
  repeat' first
    | with_reducible assumption
    | with_reducible apply kciOk_keep
    | with_reducible refine kci_keep ?_ (fun t ht => ?_)
    | with_reducible apply State.updPort_keep
    | with_reducible apply KciRes.kept_ok
    | with_reducible apply KeepOut.next

theorem dropEntries_keep {q : Nat} {x0 : Nat} (h : Keep a s) : Keep a (dropEntries q x0 s) := by
  induction x0 generalizing s with
  | zero =>
    unfold dropEntries
    repeat' first
      | with_reducible assumption
      | with_reducible apply discardHead_keep
      | with_reducible refine Keep.ite (fun _ => ?_) (fun _ => ?_)
      | with_reducible refine Keep.foldl ?_ (fun t x ht => ?_)
      | (intro c hc; first | exact hc | (simp; done) | (simpa using hc))
      | extract_lets
      | split
      | dsimp only
  | succ n ih =>
    unfold dropEntries
    repeat' first
      | with_reducible apply ih
      | with_reducible assumption
      | with_reducible apply discardHead_keep
      | with_reducible refine Keep.ite (fun _ => ?_) (fun _ => ?_)
      | with_reducible refine Keep.foldl ?_ (fun t x ht => ?_)
      | (intro c hc; first | exact hc | (simp; done) | (simpa using hc))
      | extract_lets
      | split
      | dsimp only

theorem execFlowClose_keep {h' : KciHdr} {flow : Nat} {dir : Nat} (h : Keep a s) : KeepOut a (execFlowClose h' flow dir s) := by
  unfold execFlowClose
  repeat' first
    | with_reducible assumption
    | with_reducible apply kci_keep
    | with_reducible apply kciFail_keep
    | with_reducible apply kciOk_keep
    | with_reducible apply dropStage_keep
    | with_reducible apply State.setNet_keep
    | with_reducible apply dropEntries_keep
    | with_reducible refine Keep.ite (fun _ => ?_) (fun _ => ?_)
    | with_reducible refine Keep.foldl ?_ (fun t x ht => ?_)
    | (intro c hc; first | exact hc | (simp; done) | (simpa using hc))
    | with_reducible apply KeepOut.next
    | with_reducible refine kci_keep ?_ (fun t ht => ?_)
    | with_reducible apply KciRes.kept_fail
    | with_reducible apply KciRes.kept_ok
    | with_reducible apply KciRes.kept_done
    | with_reducible apply KciRes.kept_wait
    | with_reducible apply KciRes.kept_record
    | intro t ht
    | extract_lets
    | split
    | dsimp only
    | with_reducible refine Keep.mk_same rfl rfl rfl rfl rfl rfl rfl rfl ?_

theorem execFlowStats_keep {h' : KciHdr} {flow : Nat} {clear : Bool} (h : Keep a s) : KeepOut a (execFlowStats h' flow clear s) := by
  unfold execFlowStats
  repeat' first
    | with_reducible assumption
    | with_reducible apply record_keep
    | with_reducible apply kciFail_keep
    | with_reducible refine kci_keep ?_ (fun t ht => ?_)
    | with_reducible apply State.updRx_keep
    | with_reducible refine Keep.ite (fun _ => ?_) (fun _ => ?_)
    | with_reducible apply KciRes.kept_fail
    | with_reducible apply KciRes.kept_record
    | with_reducible apply KeepOut.next
    | exact fun _ hc => hc
    | split

end Sys2Proof.Machine
end

