-- ==== Sys2Proof/Laws/KeepRadio.lean ====
section
/-!
SUPPORT. Laws/KeepRadio.lean: every operation of radio and MADI keeps what Keep names.
-/

namespace Sys2Proof.Machine

variable {a s : State}

theorem reap_keep (h : Keep a s) : Keep a (reap s) := by
  unfold reap
  extract_lets v1
  clear_value v1
  repeat' first
    | with_reducible assumption
    | with_reducible apply seedFree_keep
    | with_reducible refine Keep.foldl ?_ (fun t x ht => ?_)
    | extract_lets
    | dsimp only
    | intro t ht
    | with_reducible refine Keep.mk_same rfl rfl rfl rfl rfl rfl rfl rfl ?_

theorem idle_keep (h : Keep a s) : Keep a (idle s) := by
  unfold idle
  repeat' first
    | with_reducible assumption
    | with_reducible apply advance_keep
    | with_reducible apply reap_keep

theorem holdUntil_keep {target : Nat} {e : Entry} {loan : Bool} (h : Keep a s) : Keep a (holdUntil target e loan s) := by
  unfold holdUntil
  repeat' first
    | with_reducible assumption
    | with_reducible refine Keep.ite (fun _ => ?_) (fun _ => ?_)
    | split
    | dsimp only
    | with_reducible refine Keep.mk_same rfl rfl rfl rfl rfl rfl rfl rfl ?_

theorem commitRegs_keep {id : Nat} {regs : List (Nat × Nat)} (h : Keep a s) : Keep a (commitRegs id regs s) := by
  unfold commitRegs
  extract_lets v1 s1 v2
  clear_value v1 v2
  have h1 : Keep a s1 := by
    unfold s1
    repeat' first
      | with_reducible assumption
      | with_reducible apply State.setReg_keep
      | with_reducible apply finishWait_keep
      | with_reducible refine Keep.ite (fun _ => ?_) (fun _ => ?_)
      | with_reducible refine Keep.foldl ?_ (fun t x ht => ?_)
  clear_value s1
  repeat' first
    | with_reducible assumption
    | with_reducible apply State.setReg_keep
    | with_reducible apply finishWait_keep
    | with_reducible refine Keep.ite (fun _ => ?_) (fun _ => ?_)
    | with_reducible refine Keep.foldl ?_ (fun t x ht => ?_)
    | extract_lets
    | split
    | dsimp only
    | intro t ht
    | with_reducible refine Keep.mk_same rfl rfl rfl rfl rfl rfl rfl rfl ?_

theorem State.setMdm_keep {f : MdmSt → MdmSt} (h : Keep a s) : Keep a (State.setMdm s f) := by
  unfold State.setMdm
  repeat' first
    | with_reducible assumption
    | dsimp only
    | with_reducible refine Keep.mk_same rfl rfl rfl rfl rfl rfl rfl rfl ?_

theorem State.updMport_keep {p : Nat} {f : MPort → MPort} (h : Keep a s) : Keep a (State.updMport s p f) := by
  unfold State.updMport
  repeat' first
    | with_reducible assumption
    | with_reducible apply State.setMdm_keep

theorem State.updMlink_keep {l : Nat} {f : MLink → MLink} (h : Keep a s) : Keep a (State.updMlink s l f) := by
  unfold State.updMlink
  repeat' first
    | with_reducible assumption
    | with_reducible apply State.setMdm_keep

theorem State.setRx_keep {r : RxSlot} (h : Keep a s) : Keep a (State.setRx s r) := by
  unfold State.setRx
  repeat' first
    | with_reducible assumption
    | with_reducible apply State.setMdm_keep

theorem poolRegs_keep (h : Keep a s) : Keep a (poolRegs s) := by
  unfold poolRegs
  repeat' first
    | with_reducible assumption
    | with_reducible apply State.setFld_keep

theorem poolFill_keep {fuel : Nat} (h : Keep a s) : Keep a (poolFill fuel s) := by
  induction fuel generalizing s with
  | zero => exact poolRegs_keep h
  | succ fuel ih =>
    unfold poolFill
    split
    · exact poolRegs_keep h
    refine Keep.ite (fun _ => ih (State.setMdm_keep ?_)) (fun _ => poolRegs_keep h)
    exact Keep.ite (fun _ => State.setFld_keep h) (fun _ => h)

theorem applyLink_keep {frame : Bool} {l : Nat} (h : Keep a s) : Keep a (applyLink frame l s) := by
  unfold applyLink
  extract_lets v1 s1 s2
  clear_value v1
  have h1 : Keep a s1 := by
    unfold s1
    repeat' first
      | with_reducible assumption
      | with_reducible apply finishWait_keep
      | with_reducible apply State.updMlink_keep
      | with_reducible refine Keep.ite (fun _ => ?_) (fun _ => ?_)
      | exact fun _ hc => hc
      | extract_lets
      | split
  clear_value s1
  have h2 : Keep a s2 := by
    unfold s2
    repeat' first
      | with_reducible assumption
      | with_reducible apply finishWait_keep
      | with_reducible apply State.updMlink_keep
      | with_reducible refine Keep.ite (fun _ => ?_) (fun _ => ?_)
  clear_value s2
  repeat' first
    | with_reducible assumption
    | with_reducible apply finishWait_keep
    | with_reducible apply State.updMlink_keep
    | with_reducible refine Keep.ite (fun _ => ?_) (fun _ => ?_)
    | exact fun _ hc => hc
    | extract_lets
    | split

theorem endSlot_keep {p : Nat} (h : Keep a s) : Keep a (endSlot p s) := by
  unfold endSlot
  repeat' first
    | with_reducible assumption
    | with_reducible apply State.setMdm_keep
    | with_reducible refine Keep.ite (fun _ => ?_) (fun _ => ?_)
    | split

theorem slotBoundary_keep {p : Nat} (h : Keep a s) : Keep a (slotBoundary p s) := by
  unfold slotBoundary
  extract_lets v1 s1 s2 s3 v2 s4 s5 s6
  clear_value v1 v2
  have h1 : Keep a s1 := by
    unfold s1
    repeat' first
      | with_reducible assumption
      | with_reducible apply State.setFld_keep
      | with_reducible apply State.draw_keep
      | refine State.draw_pair (by assumption) ?_
      | with_reducible apply advanceTo_keep
      | with_reducible apply reap_keep
      | with_reducible apply commitRegs_keep
      | with_reducible apply State.updMport_keep
      | with_reducible apply applyLink_keep
      | with_reducible apply endSlot_keep
  clear_value s1
  have h2 : Keep a s2 := by
    unfold s2
    repeat' first
      | with_reducible assumption
      | with_reducible apply State.setFld_keep
      | with_reducible apply State.draw_keep
      | refine State.draw_pair (by assumption) ?_
      | with_reducible apply advanceTo_keep
      | with_reducible apply reap_keep
      | with_reducible apply commitRegs_keep
      | with_reducible apply State.updMport_keep
      | with_reducible apply applyLink_keep
      | with_reducible apply endSlot_keep
      | with_reducible refine Keep.ite (fun _ => ?_) (fun _ => ?_)
      | with_reducible refine Keep.foldl ?_ (fun t x ht => ?_)
  clear_value s2
  have h3 : Keep a s3 := by
    unfold s3
    repeat' first
      | with_reducible assumption
      | with_reducible apply State.setFld_keep
      | with_reducible apply State.draw_keep
      | refine State.draw_pair (by assumption) ?_
      | with_reducible apply advanceTo_keep
      | with_reducible apply reap_keep
      | with_reducible apply commitRegs_keep
  clear_value s3
  have h4 : Keep a s4 := by
    unfold s4
    repeat' first
      | with_reducible assumption
      | with_reducible apply State.setFld_keep
      | with_reducible apply State.draw_keep
      | refine State.draw_pair (by assumption) ?_
      | with_reducible apply advanceTo_keep
      | with_reducible apply reap_keep
      | with_reducible apply commitRegs_keep
      | with_reducible apply State.updMport_keep
  clear_value s4
  have h5 : Keep a s5 := by
    unfold s5
    repeat' first
      | with_reducible assumption
      | with_reducible apply State.setFld_keep
  clear_value s5
  have h6 : Keep a s6 := by
    unfold s6
    repeat' first
      | with_reducible assumption
      | with_reducible apply State.setFld_keep
      | with_reducible apply State.draw_keep
      | refine State.draw_pair (by assumption) ?_
      | with_reducible apply advanceTo_keep
      | with_reducible apply reap_keep
      | with_reducible apply commitRegs_keep
      | with_reducible apply State.updMport_keep
      | with_reducible apply applyLink_keep
      | with_reducible apply endSlot_keep
      | with_reducible refine Keep.ite (fun _ => ?_) (fun _ => ?_)
  clear_value s6
  repeat' first
    | with_reducible assumption
    | with_reducible apply State.setFld_keep
    | with_reducible apply State.draw_keep
    | refine State.draw_pair (by assumption) ?_
    | with_reducible apply advanceTo_keep
    | with_reducible apply reap_keep
    | with_reducible apply commitRegs_keep
    | with_reducible apply State.updMport_keep
    | with_reducible apply applyLink_keep
    | with_reducible apply endSlot_keep
    | with_reducible refine Keep.ite (fun _ => ?_) (fun _ => ?_)

theorem execSlotBoundary_keep {port : Nat} (h : Keep a s) : KeepOut a (execSlotBoundary port s) := by
  unfold execSlotBoundary
  repeat' first
    | with_reducible assumption
    | with_reducible apply slotBoundary_keep
    | with_reducible apply KeepOut.next

theorem countTx_keep {l : Nat} {which : Nat} (h : Keep a s) : Keep a (countTx l which s) := by
  unfold countTx
  extract_lets v1 v2
  clear_value v1
  repeat' first
    | with_reducible assumption
    | with_reducible apply State.bump_keep
    | with_reducible apply State.updMlink_keep
    | exact fun _ hc => hc
    | extract_lets
    | split

theorem takeEntry_keep {l start fuel : Nat} (h : Keep a s) : Keep a (takeEntry l start fuel s).2 := by
  induction fuel generalizing s with
  | zero => exact h
  | succ fuel ih =>
    unfold takeEntry
    dsimp only
    split
    · dsimp only; exact countTx_keep h
    split
    · dsimp only; exact countTx_keep h
    split
    · next e => dsimp only; exact countTx_keep (portPop_pair e h)
    · next e =>
      have h1 := portPop_pair e h
      split
      · exact ih (countTx_keep (releaseEntry_keep h1))
      split
      · dsimp only; exact countTx_keep h1
      · dsimp only; exact countTx_keep (releaseEntry_keep h1)

theorem takeEntry_pair {l start fuel : Nat} {o : Option (Entry × Bool)} {t : State} (e : takeEntry l start fuel s = (o, t)) (h : Keep a s) : Keep a t := by
  have := takeEntry_keep (l := l) (start := start) (fuel := fuel) h; rwa [e] at this

theorem downlinkTake_keep {p : Nat} (h : Keep a s) : Keep a (downlinkTake p s) := by
  unfold downlinkTake
  extract_lets v1 s1 v2 s2
  clear_value v1 v2
  have h1 : Keep a s1 := by
    unfold s1
    repeat' first
      | with_reducible assumption
      | with_reducible apply advanceTo_keep
      | with_reducible apply reap_keep
  clear_value s1
  have h2 : Keep a s2 := by
    unfold s2
    repeat' first
      | with_reducible assumption
      | with_reducible apply advanceTo_keep
      | with_reducible apply reap_keep
      | with_reducible apply State.updMport_keep
  clear_value s2
  repeat' first
    | with_reducible assumption
    | with_reducible apply advanceTo_keep
    | with_reducible apply reap_keep
    | with_reducible apply State.updMport_keep
    | with_reducible apply takeEntry_keep
    | refine takeEntry_pair (by assumption) ?_
    | with_reducible refine Keep.ite (fun _ => ?_) (fun _ => ?_)
    | with_reducible refine Keep.foldl ?_ (fun t x ht => ?_)

theorem execDownlinkTake_keep {port : Nat} (h : Keep a s) : KeepOut a (execDownlinkTake port s) := by
  unfold execDownlinkTake
  repeat' first
    | with_reducible assumption
    | with_reducible apply downlinkTake_keep
    | with_reducible apply KeepOut.next

theorem sendPacket_keep {p : Nat} {c : Nat} {st : Nat} {k : RadioPkt} (h : Keep a s) : Keep a (sendPacket p c st k s) := by
  unfold sendPacket
  extract_lets v1 s1 s2
  have h1 : Keep a s1 := by
    unfold s1
    repeat' first
      | with_reducible assumption
      | with_reducible apply State.updMlink_keep
      | with_reducible apply holdUntil_keep
      | with_reducible apply State.emit_keep
      | with_reducible refine Keep.ite (fun _ => ?_) (fun _ => ?_)
      | with_reducible refine Keep.foldl ?_ (fun t x ht => ?_)
      | (intro c hc; first | exact hc | (simp; done) | (simpa using hc))
      | extract_lets
      | split
      | dsimp only
      | with_reducible refine Keep.mk_same rfl rfl rfl rfl rfl rfl rfl rfl ?_
  clear_value s1
  have h2 : Keep a s2 := by
    unfold s2
    repeat' first
      | with_reducible assumption
      | with_reducible apply State.updMlink_keep
      | with_reducible apply holdUntil_keep
      | with_reducible apply State.emit_keep
      | with_reducible refine Keep.ite (fun _ => ?_) (fun _ => ?_)
      | with_reducible refine Keep.foldl ?_ (fun t x ht => ?_)
      | (intro c hc; first | exact hc | (simp; done) | (simpa using hc))
      | extract_lets
      | split
      | dsimp only
      | with_reducible refine Keep.mk_same rfl rfl rfl rfl rfl rfl rfl rfl ?_
  clear_value s2
  repeat' first
    | with_reducible assumption
    | with_reducible apply State.updMlink_keep
    | with_reducible apply holdUntil_keep
    | with_reducible apply State.emit_keep
    | with_reducible refine Keep.ite (fun _ => ?_) (fun _ => ?_)
    | with_reducible refine Keep.foldl ?_ (fun t x ht => ?_)
    | (intro c hc; first | exact hc | (simp; done) | (simpa using hc))
    | extract_lets
    | split
    | dsimp only
    | with_reducible refine Keep.mk_same rfl rfl rfl rfl rfl rfl rfl rfl ?_

theorem downlinkTransmit_keep {p : Nat} (h : Keep a s) : Keep a (downlinkTransmit p s) := by
  unfold downlinkTransmit
  repeat' first
    | with_reducible assumption
    | with_reducible apply State.setFld_keep
    | with_reducible apply State.updMport_keep
    | refine State.draw_pair (by assumption) ?_
    | with_reducible apply State.draw_keep
    | with_reducible apply sendPacket_keep
    | with_reducible apply State.emit_keep
    | with_reducible apply State.bump_keep
    | with_reducible refine Keep.ite (fun _ => ?_) (fun _ => ?_)
    | with_reducible refine Keep.foldl ?_ (fun t x ht => ?_)
    | (intro c hc; first | exact hc | (simp; done) | (simpa using hc))
    | extract_lets
    | split
    | dsimp only
    | with_reducible refine Keep.mk_same rfl rfl rfl rfl rfl rfl rfl rfl ?_

theorem execDownlinkTransmit_keep {port : Nat} (h : Keep a s) : KeepOut a (execDownlinkTransmit port s) := by
  unfold execDownlinkTransmit
  repeat' first
    | with_reducible assumption
    | with_reducible apply downlinkTransmit_keep
    | with_reducible apply KeepOut.next

theorem agcStep_keep {p : Nat} {step : Int} (h : Keep a s) : Keep a (agcStep p step s) := by
  unfold agcStep
  extract_lets v1
  clear_value v1
  repeat' first
    | with_reducible assumption
    | with_reducible apply State.setFld_keep

theorem setAbandon_keep {p : Nat} (h : Keep a s) : Keep a (setAbandon p s) := by
  unfold setAbandon
  repeat' first
    | with_reducible assumption
    | with_reducible apply State.setFld_keep
    | with_reducible apply raiseFld_keep

theorem uplinkStart_keep {p : Nat} (h : Keep a s) : Keep a (uplinkStart p s) := by
  unfold uplinkStart
  extract_lets s1 s2 v1
  clear_value v1
  have h1 : Keep a s1 := by
    unfold s1
    repeat' first
      | with_reducible assumption
      | with_reducible apply State.setFld_keep
      | with_reducible apply State.setMdm_keep
      | with_reducible apply State.updMport_keep
  clear_value s1
  have h2 : Keep a s2 := by
    unfold s2
    repeat' first
      | with_reducible assumption
      | with_reducible apply State.setFld_keep
      | with_reducible apply State.setMdm_keep
      | with_reducible apply State.updMport_keep
  clear_value s2
  repeat' first
    | with_reducible assumption
    | with_reducible apply State.setFld_keep
    | with_reducible apply State.setMdm_keep
    | with_reducible apply State.updMport_keep
    | with_reducible apply setAbandon_keep
    | with_reducible refine Keep.ite (fun _ => ?_) (fun _ => ?_)
    | exact fun _ hc => hc
    | extract_lets
    | split

theorem execUplinkSlotStart_keep {port : Nat} (h : Keep a s) : KeepOut a (execUplinkSlotStart port s) := by
  unfold execUplinkSlotStart
  repeat' first
    | with_reducible assumption
    | with_reducible apply uplinkStart_keep
    | with_reducible apply KeepOut.next

theorem agcUpdate_keep {p : Nat} {centiDb : Int} (h : Keep a s) : Keep a (agcUpdate p centiDb s) := by
  unfold agcUpdate
  extract_lets v1 v2
  clear_value v1 v2
  repeat' first
    | with_reducible assumption
    | with_reducible apply State.updMport_keep
    | with_reducible apply agcStep_keep
    | with_reducible refine Keep.ite (fun _ => ?_) (fun _ => ?_)

theorem execAgcUpdate_keep {port : Nat} {centiDb : Int} (h : Keep a s) : KeepOut a (execAgcUpdate port centiDb s) := by
  unfold execAgcUpdate
  repeat' first
    | with_reducible assumption
    | with_reducible apply agcUpdate_keep
    | with_reducible apply KeepOut.next

theorem startRx_keep {p : Nat} {d : Detect} {r : RxSlot} (h : Keep a s) : Keep a (startRx p d r s) := by
  unfold startRx
  repeat' first
    | with_reducible assumption
    | with_reducible apply pmuEvent_keep
    | with_reducible apply State.setRx_keep
    | with_reducible apply State.setFld_keep
    | with_reducible refine Keep.ite (fun _ => ?_) (fun _ => ?_)
    | with_reducible refine Keep.foldl ?_ (fun t x ht => ?_)
    | (intro c hc; first | exact hc | (simp; done) | (simpa using hc))
    | extract_lets
    | split
    | dsimp only
    | with_reducible refine Keep.mk_same rfl rfl rfl rfl rfl rfl rfl rfl ?_

theorem capture_keep {p : Nat} {c : Nat} {d : Detect} {r : RxSlot} (h : Keep a s) : Keep a (capture p c d r s) := by
  unfold capture
  extract_lets s1 s2
  have h1 : Keep a s1 := by
    unfold s1
    repeat' first
      | with_reducible assumption
      | with_reducible apply State.bump_keep
      | with_reducible apply State.updMlink_keep
  clear_value s1
  have h2 : Keep a s2 := by
    unfold s2
    repeat' first
      | with_reducible assumption
      | with_reducible apply State.bump_keep
      | with_reducible apply State.updMlink_keep
      | with_reducible apply agcStep_keep
      | with_reducible apply startRx_keep
      | with_reducible refine Keep.ite (fun _ => ?_) (fun _ => ?_)
  clear_value s2
  repeat' first
    | with_reducible assumption
    | with_reducible apply State.bump_keep
    | with_reducible apply State.updMlink_keep
    | with_reducible apply agcStep_keep
    | with_reducible apply startRx_keep

theorem detection_keep {p : Nat} {c : Nat} {d : Detect} (h : Keep a s) : Keep a (detection p c d s) := by
  unfold detection
  repeat' first
    | with_reducible assumption
    | with_reducible apply State.setRx_keep
    | with_reducible apply startRx_keep
    | with_reducible apply capture_keep
    | with_reducible refine Keep.ite (fun _ => ?_) (fun _ => ?_)
    | split

theorem execSyncDetection_keep {port : Nat} {carrier : Nat} {c : Nat} {p : Nat} {rssi : Nat} {fofs : Int} (h : Keep a s) : KeepOut a (execSyncDetection port carrier c p rssi fofs s) := by
  unfold execSyncDetection
  repeat' first
    | with_reducible assumption
    | with_reducible apply detection_keep
    | with_reducible apply KeepOut.next

theorem abortRx_keep {p : Nat} {c : Nat} {status : Nat} {r : RxSlot} (h : Keep a s) : Keep a (abortRx p c status r s) := by
  unfold abortRx
  extract_lets s1
  have h1 : Keep a s1 := by
    unfold s1
    repeat' first
      | with_reducible assumption
      | with_reducible apply State.setFld_keep
      | with_reducible apply State.updMport_keep
      | with_reducible apply State.setRx_keep
  clear_value s1
  repeat' first
    | with_reducible assumption
    | with_reducible apply State.setFld_keep
    | with_reducible apply State.updMport_keep
    | with_reducible apply State.setRx_keep
    | with_reducible apply startRx_keep
    | with_reducible refine Keep.ite (fun _ => ?_) (fun _ => ?_)
    | exact fun _ hc => hc
    | extract_lets
    | split

theorem headerDecoded_keep {p : Nat} {c : Nat} {bs : List Bool} (h : Keep a s) : Keep a (headerDecoded p c bs s) := by
  unfold headerDecoded
  extract_lets v1 v2
  clear_value v1 v2
  repeat' first
    | with_reducible assumption
    | with_reducible apply State.bump_keep
    | with_reducible apply State.updMlink_keep
    | with_reducible apply State.setRx_keep
    | with_reducible apply abortRx_keep
    | with_reducible refine Keep.ite (fun _ => ?_) (fun _ => ?_)
    | exact fun _ hc => hc
    | extract_lets
    | split

theorem execHeaderDecoded_keep {port : Nat} {carrier : Nat} {bits : List Bool} (h : Keep a s) : KeepOut a (execHeaderDecoded port carrier bits s) := by
  unfold execHeaderDecoded
  repeat' first
    | with_reducible assumption
    | with_reducible apply headerDecoded_keep
    | with_reducible apply KeepOut.next

theorem payloadSubmit_keep {p : Nat} {c : Nat} (h : Keep a s) : Keep a (payloadSubmit p c s) := by
  unfold payloadSubmit
  repeat' first
    | with_reducible assumption
    | with_reducible apply State.setRx_keep
    | with_reducible apply State.setMdm_keep
    | with_reducible apply pmuEvent_keep
    | with_reducible apply poolFill_keep
    | with_reducible refine Keep.ite (fun _ => ?_) (fun _ => ?_)
    | with_reducible refine Keep.foldl ?_ (fun t x ht => ?_)
    | (intro c hc; first | exact hc | (simp; done) | (simpa using hc))
    | extract_lets
    | split
    | dsimp only
    | with_reducible refine Keep.mk_same rfl rfl rfl rfl rfl rfl rfl rfl ?_

theorem execPayloadSubmit_keep {port : Nat} {carrier : Nat} (h : Keep a s) : KeepOut a (execPayloadSubmit port carrier s) := by
  unfold execPayloadSubmit
  repeat' first
    | with_reducible assumption
    | with_reducible apply payloadSubmit_keep
    | with_reducible apply KeepOut.next

theorem radioJobDone_keep {p : Nat} {c : Nat} {converged : Bool} {iters : Nat} {info : List Bool} (h : Keep a s) : Keep a (radioJobDone p c converged iters info s) := by
  unfold radioJobDone
  repeat' first
    | with_reducible assumption
    | with_reducible apply State.bump_keep
    | with_reducible apply State.setMdm_keep
    | with_reducible apply State.setRx_keep
    | with_reducible apply poolFill_keep
    | with_reducible refine Keep.ite (fun _ => ?_) (fun _ => ?_)
    | with_reducible apply KciRes.kept_wait
    | extract_lets
    | split

theorem execRadioLdpcJobComplete_keep {port : Nat} {carrier : Nat} {converged : Bool} {iters : Nat} {info : List Bool} (h : Keep a s) : KeepOut a (execRadioLdpcJobComplete port carrier converged iters info s) := by
  unfold execRadioLdpcJobComplete
  repeat' first
    | with_reducible assumption
    | with_reducible apply radioJobDone_keep
    | with_reducible apply KeepOut.next

theorem windowClose_keep {p : Nat} {c : Nat} (h : Keep a s) : Keep a (windowClose p c s) := by
  unfold windowClose
  repeat' first
    | with_reducible assumption
    | with_reducible apply advanceTo_keep
    | with_reducible apply State.setRx_keep
    | with_reducible refine Keep.ite (fun _ => ?_) (fun _ => ?_)
    | extract_lets
    | split

theorem execSyncWindowClose_keep {port : Nat} {carrier : Nat} (h : Keep a s) : KeepOut a (execSyncWindowClose port carrier s) := by
  unfold execSyncWindowClose
  repeat' first
    | with_reducible assumption
    | with_reducible apply windowClose_keep
    | with_reducible apply KeepOut.next

theorem tryPosts_keep {p fuel : Nat} (h : Keep a s) : Keep a (tryPosts p fuel s) := by
  induction fuel generalizing s with
  | zero => exact h
  | succ fuel ih =>
    unfold tryPosts
    split
    · exact h
    split
    · next e => exact ih (State.updMport_keep (postNode_some e h))
    · exact h

theorem modemPost_keep {p : Nat} {n : Nat} {flag : Nat} (h : Keep a s) : Keep a (modemPost p n flag s) := by
  unfold modemPost
  extract_lets s1
  have h1 : Keep a s1 := by
    unfold s1
    repeat' first
      | with_reducible assumption
      | with_reducible apply State.updMport_keep
  clear_value s1
  repeat' first
    | with_reducible assumption
    | with_reducible apply State.updMport_keep
    | with_reducible apply tryPosts_keep

theorem execModemPostResume_keep {port : Nat} (h : Keep a s) : KeepOut a (execModemPostResume port s) := by
  unfold execModemPostResume
  repeat' first
    | with_reducible assumption
    | with_reducible apply tryPosts_keep
    | with_reducible apply KeepOut.next

theorem countRx_keep {r : RxSlot} {status : Nat} (h : Keep a s) : Keep a (countRx r status s) := by
  unfold countRx
  extract_lets s1 s2
  have h1 : Keep a s1 := by
    unfold s1
    repeat' first
      | with_reducible assumption
      | with_reducible apply State.bump_keep
  clear_value s1
  have h2 : Keep a s2 := by
    unfold s2
    repeat' first
      | with_reducible assumption
      | with_reducible apply State.bump_keep
      | with_reducible apply raiseFld_keep
      | with_reducible apply State.updMlink_keep
      | with_reducible refine Keep.ite (fun _ => ?_) (fun _ => ?_)
  clear_value s2
  repeat' first
    | with_reducible assumption
    | with_reducible apply State.bump_keep
    | with_reducible apply raiseFld_keep
    | with_reducible apply State.updMlink_keep

theorem deliverEntry_keep {l : Nat} (h : Keep a s) : Keep a (deliverEntry l s) := by
  unfold deliverEntry
  repeat' first
    | with_reducible assumption
    | with_reducible apply seedAlloc_keep
    | refine seedAlloc_pair (by assumption) ?_
    | with_reducible apply freeItem_keep
    | with_reducible apply mqPush_keep
    | with_reducible apply bufWrite_keep
    | with_reducible apply State.setMdm_keep
    | with_reducible apply modemPost_keep
    | with_reducible apply countRx_keep
    | with_reducible refine Keep.ite (fun _ => ?_) (fun _ => ?_)
    | extract_lets
    | split

theorem execUplinkEntryDelivery_keep {link : Nat} (h : Keep a s) : KeepOut a (execUplinkEntryDelivery link s) := by
  unfold execUplinkEntryDelivery
  repeat' first
    | with_reducible assumption
    | with_reducible apply deliverEntry_keep
    | with_reducible apply KeepOut.next

theorem abandonRx_keep {p : Nat} {which : Nat → Bool} (h : Keep a s) : Keep a (abandonRx p which s) := by
  unfold abandonRx
  repeat' first
    | with_reducible assumption
    | with_reducible apply State.setMdm_keep
    | with_reducible apply setAbandon_keep
    | with_reducible refine Keep.ite (fun _ => ?_) (fun _ => ?_)
    | extract_lets
    | split

theorem stepPort_keep {old : Nat} {new : Nat} {p : Nat} (h : Keep a s) : Keep a (stepPort old new p s) := by
  unfold stepPort
  extract_lets s1 v1 v2
  have h1 : Keep a s1 := by
    unfold s1
    repeat' first
      | with_reducible assumption
      | with_reducible apply uplinkStart_keep
      | with_reducible apply setAbandon_keep
      | with_reducible apply State.setMdm_keep
      | with_reducible apply releaseEntry_keep
      | with_reducible apply State.emit_keep
      | with_reducible apply State.updMport_keep
      | with_reducible apply State.setFld_keep
      | with_reducible refine Keep.ite (fun _ => ?_) (fun _ => ?_)
      | with_reducible refine Keep.foldl ?_ (fun t x ht => ?_)
      | (intro c hc; first | exact hc | (simp; done) | (simpa using hc))
      | extract_lets
      | split
      | dsimp only
      | with_reducible refine Keep.mk_same rfl rfl rfl rfl rfl rfl rfl rfl ?_
  clear_value s1
  repeat' first
    | with_reducible assumption
    | with_reducible apply uplinkStart_keep
    | with_reducible apply setAbandon_keep
    | with_reducible apply State.setMdm_keep
    | with_reducible apply releaseEntry_keep
    | with_reducible apply State.emit_keep
    | with_reducible apply State.updMport_keep
    | with_reducible apply State.setFld_keep
    | with_reducible refine Keep.ite (fun _ => ?_) (fun _ => ?_)
    | with_reducible refine Keep.foldl ?_ (fun t x ht => ?_)
    | (intro c hc; first | exact hc | (simp; done) | (simpa using hc))
    | extract_lets
    | split
    | dsimp only
    | with_reducible refine Keep.mk_same rfl rfl rfl rfl rfl rfl rfl rfl ?_

theorem radioStep_keep {old : Nat} {new : Nat} (h : Keep a s) : Keep a (radioStep old new s) := by
  unfold radioStep
  repeat' first
    | with_reducible assumption
    | with_reducible apply stepPort_keep
    | with_reducible refine Keep.ite (fun _ => ?_) (fun _ => ?_)
    | with_reducible refine Keep.foldl ?_ (fun t x ht => ?_)

theorem execModemLink_keep {h' : KciHdr} {op : ModemOp} (h : Keep a s) : KeepOut a (execModemLink h' op s) := by
  unfold execModemLink
  repeat' first
    | with_reducible assumption
    | with_reducible apply kciFail_keep
    | with_reducible refine kci_keep ?_ (fun t ht => ?_)
    | with_reducible apply State.updMlink_keep
    | with_reducible refine Keep.ite (fun _ => ?_) (fun _ => ?_)
    | with_reducible apply KciRes.kept_fail
    | with_reducible apply KciRes.kept_wait
    | with_reducible apply KeepOut.next
    | exact fun _ hc => hc
    | split

theorem execModemLinkStats_keep {h' : KciHdr} {link : Nat} {clear : Bool} (h : Keep a s) : KeepOut a (execModemLinkStats h' link clear s) := by
  unfold execModemLinkStats
  repeat' first
    | with_reducible assumption
    | with_reducible apply record_keep
    | with_reducible refine kci_keep ?_ (fun t ht => ?_)
    | with_reducible apply State.updMlink_keep
    | with_reducible refine Keep.ite (fun _ => ?_) (fun _ => ?_)
    | with_reducible apply KciRes.kept_record
    | with_reducible apply KeepOut.next

theorem State.updRport_keep {p : Nat} {f : RfpPort → RfpPort} (h : Keep a s) : Keep a (State.updRport s p f) := by
  unfold State.updRport
  repeat' first
    | with_reducible assumption
    | dsimp only
    | with_reducible refine Keep.mk_same rfl rfl rfl rfl rfl rfl rfl rfl ?_

theorem State.updCarrier_keep {p : Nat} {c : Nat} {f : Carrier → Carrier} (h : Keep a s) : Keep a (State.updCarrier s p c f) := by
  unfold State.updCarrier
  repeat' first
    | with_reducible assumption
    | with_reducible apply State.updRport_keep

theorem syncReset_keep {p : Nat} {c : Nat} {point : Int} (h : Keep a s) : Keep a (syncReset p c point s) := by
  unfold syncReset
  extract_lets s1 v1
  clear_value v1
  have h1 : Keep a s1 := by
    unfold s1
    repeat' first
      | with_reducible assumption
      | with_reducible apply State.setFld_keep
      | with_reducible apply State.bump_keep
      | with_reducible apply commitRegs_keep
  clear_value s1
  repeat' first
    | with_reducible assumption
    | with_reducible apply State.setFld_keep
    | with_reducible apply State.bump_keep
    | with_reducible apply commitRegs_keep
    | with_reducible apply State.updCarrier_keep

theorem dueReset_keep {p : Nat} {c : Nat} (h : Keep a s) : Keep a (dueReset p c s) := by
  unfold dueReset
  extract_lets v1
  clear_value v1
  repeat' first
    | with_reducible assumption
    | with_reducible apply State.updCarrier_keep

theorem placeResets_keep {p : Nat} (h : Keep a s) : Keep a (placeResets p s) := by
  unfold placeResets
  repeat' first
    | with_reducible assumption
    | with_reducible apply dueReset_keep
    | with_reducible refine Keep.ite (fun _ => ?_) (fun _ => ?_)
    | with_reducible refine Keep.foldl ?_ (fun t x ht => ?_)

theorem resetAtPoint_keep {p : Nat} {c : Nat} (h : Keep a s) : Keep a (resetAtPoint p c s) := by
  unfold resetAtPoint
  extract_lets v1
  clear_value v1
  repeat' first
    | with_reducible assumption
    | with_reducible apply syncReset_keep
    | with_reducible refine Keep.ite (fun _ => ?_) (fun _ => ?_)
    | extract_lets
    | split

theorem execCarrierSyncReset_keep {port : Nat} {carrier : Nat} (h : Keep a s) : KeepOut a (execCarrierSyncReset port carrier s) := by
  unfold execCarrierSyncReset
  repeat' first
    | with_reducible assumption
    | with_reducible apply resetAtPoint_keep
    | with_reducible refine Keep.ite (fun _ => ?_) (fun _ => ?_)
    | with_reducible apply KeepOut.next

theorem tapOutput_keep {p : Nat} {c : Nat} {o : CarOut} (h : Keep a s) : Keep a (tapOutput p c o s) := by
  unfold tapOutput
  extract_lets v1 v2
  clear_value v1 v2
  repeat' first
    | with_reducible assumption
    | with_reducible apply State.updRport_keep
    | with_reducible refine Keep.ite (fun _ => ?_) (fun _ => ?_)

theorem carrierOutput_keep {p : Nat} {c : Nat} {pos : Int} (h : Keep a s) : Keep a (carrierOutput p c pos s) := by
  unfold carrierOutput
  extract_lets v1 v2
  clear_value v1 v2
  repeat' first
    | with_reducible assumption
    | with_reducible apply State.setFld_keep
    | with_reducible apply State.bump_keep
    | with_reducible apply abandonRx_keep
    | with_reducible apply State.updCarrier_keep
    | with_reducible apply tapOutput_keep
    | with_reducible refine Keep.ite (fun _ => ?_) (fun _ => ?_)

theorem carrierSample_keep {p : Nat} {c : Nat} {pos : Int} {y1 : Int} {y2 : Int} (h : Keep a s) : Keep a (carrierSample p c pos y1 y2 s) := by
  unfold carrierSample
  extract_lets s1 v1 v2
  clear_value v1 v2
  have h1 : Keep a s1 := by
    unfold s1
    repeat' first
      | with_reducible assumption
      | with_reducible apply State.bump_keep
      | with_reducible apply State.updCarrier_keep
      | with_reducible apply resetAtPoint_keep
  clear_value s1
  repeat' first
    | with_reducible assumption
    | with_reducible apply State.bump_keep
    | with_reducible apply State.updCarrier_keep
    | with_reducible apply resetAtPoint_keep
    | with_reducible apply carrierOutput_keep
    | with_reducible refine Keep.ite (fun _ => ?_) (fun _ => ?_)
    | exact fun _ hc => hc
    | extract_lets
    | split

theorem rxSample_keep {p : Nat} {i : Int} {q : Int} (h : Keep a s) : Keep a (rxSample p i q s) := by
  unfold rxSample
  extract_lets v1 v2 v3 v4 v5 s1 s2 s3
  clear_value v1 v2 v3 v4 v5
  have h1 : Keep a s1 := by
    unfold s1
    repeat' first
      | with_reducible assumption
      | with_reducible apply State.setFld_keep
  clear_value s1
  have h2 : Keep a s2 := by
    unfold s2
    repeat' first
      | with_reducible assumption
      | with_reducible apply State.setFld_keep
      | with_reducible apply State.bump_keep
      | with_reducible apply State.updRport_keep
      | with_reducible apply carrierSample_keep
      | with_reducible refine Keep.ite (fun _ => ?_) (fun _ => ?_)
  clear_value s2
  have h3 : Keep a s3 := by
    unfold s3
    repeat' first
      | with_reducible assumption
      | with_reducible apply State.setFld_keep
      | with_reducible apply State.bump_keep
      | with_reducible apply State.updRport_keep
  clear_value s3
  repeat' first
    | with_reducible assumption
    | with_reducible apply State.setFld_keep
    | with_reducible apply State.bump_keep
    | with_reducible apply State.updRport_keep
    | with_reducible apply carrierSample_keep
    | with_reducible refine Keep.ite (fun _ => ?_) (fun _ => ?_)
    | with_reducible refine Keep.foldl ?_ (fun t x ht => ?_)
    | exact fun _ hc => hc
    | extract_lets
    | split

theorem execJesdRxSample_keep {port : Nat} {i : Int} {q : Int} (h : Keep a s) : KeepOut a (execJesdRxSample port i q s) := by
  unfold execJesdRxSample
  repeat' first
    | with_reducible assumption
    | with_reducible apply rxSample_keep
    | with_reducible apply KeepOut.next

theorem charError_keep {p : Nat} {kind : Nat} (h : Keep a s) : Keep a (charError p kind s) := by
  unfold charError
  extract_lets s1
  have h1 : Keep a s1 := by
    unfold s1
    repeat' first
      | with_reducible assumption
      | with_reducible apply State.bump_keep
  clear_value s1
  repeat' first
    | with_reducible assumption
    | with_reducible apply State.bump_keep
    | with_reducible apply rxSample_keep
    | with_reducible refine Keep.ite (fun _ => ?_) (fun _ => ?_)

theorem execJesdRxCharacterError_keep {port : Nat} {kind : Nat} (h : Keep a s) : KeepOut a (execJesdRxCharacterError port kind s) := by
  unfold execJesdRxCharacterError
  repeat' first
    | with_reducible assumption
    | with_reducible apply charError_keep
    | with_reducible apply KeepOut.next

theorem rxLinkDown_keep {p : Nat} (h : Keep a s) : Keep a (rxLinkDown p s) := by
  unfold rxLinkDown
  extract_lets s1 s2
  have h1 : Keep a s1 := by
    unfold s1
    repeat' first
      | with_reducible assumption
      | with_reducible apply State.setFld_keep
  clear_value s1
  have h2 : Keep a s2 := by
    unfold s2
    repeat' first
      | with_reducible assumption
      | with_reducible apply State.setFld_keep
      | with_reducible apply abandonRx_keep
      | with_reducible apply State.updRport_keep
  clear_value s2
  repeat' first
    | with_reducible assumption
    | with_reducible apply State.setFld_keep
    | with_reducible apply abandonRx_keep

theorem rxResync_keep {p : Nat} {ilas : Bool} (h : Keep a s) : Keep a (rxResync p ilas s) := by
  unfold rxResync
  extract_lets s1 s2
  have h1 : Keep a s1 := by
    unfold s1
    repeat' first
      | with_reducible assumption
      | with_reducible apply State.bump_keep
      | with_reducible apply raiseFld_keep
      | with_reducible apply rxLinkDown_keep
  clear_value s1
  have h2 : Keep a s2 := by
    unfold s2
    repeat' first
      | with_reducible assumption
      | with_reducible apply State.bump_keep
      | with_reducible apply raiseFld_keep
      | with_reducible apply rxLinkDown_keep
      | with_reducible refine Keep.ite (fun _ => ?_) (fun _ => ?_)
  clear_value s2
  repeat' first
    | with_reducible assumption
    | with_reducible apply State.bump_keep
    | with_reducible apply raiseFld_keep
    | with_reducible apply rxLinkDown_keep
    | with_reducible refine Keep.ite (fun _ => ?_) (fun _ => ?_)

theorem execJesdRxResync_keep {port : Nat} {ilas : Bool} (h : Keep a s) : KeepOut a (execJesdRxResync port ilas s) := by
  unfold execJesdRxResync
  repeat' first
    | with_reducible assumption
    | with_reducible apply rxResync_keep
    | with_reducible apply KeepOut.next

theorem rxResume_keep {p : Nat} (h : Keep a s) : Keep a (rxResume p s) := by
  unfold rxResume
  extract_lets s1
  have h1 : Keep a s1 := by
    unfold s1
    repeat' first
      | with_reducible assumption
      | with_reducible apply State.setFld_keep
  clear_value s1
  repeat' first
    | with_reducible assumption
    | with_reducible apply State.setFld_keep
    | with_reducible apply dueReset_keep
    | with_reducible refine Keep.ite (fun _ => ?_) (fun _ => ?_)
    | with_reducible refine Keep.foldl ?_ (fun t x ht => ?_)

theorem execJesdRxDataResume_keep {port : Nat} (h : Keep a s) : KeepOut a (execJesdRxDataResume port s) := by
  unfold execJesdRxDataResume
  repeat' first
    | with_reducible assumption
    | with_reducible apply rxResume_keep
    | with_reducible apply KeepOut.next

theorem txSyncRequest_keep {p : Nat} (h : Keep a s) : Keep a (txSyncRequest p s) := by
  unfold txSyncRequest
  repeat' first
    | with_reducible assumption
    | with_reducible apply State.setFld_keep
    | with_reducible apply State.bump_keep
    | with_reducible refine Keep.ite (fun _ => ?_) (fun _ => ?_)

theorem execJesdTxSyncRequest_keep {port : Nat} (h : Keep a s) : KeepOut a (execJesdTxSyncRequest port s) := by
  unfold execJesdTxSyncRequest
  repeat' first
    | with_reducible assumption
    | with_reducible apply txSyncRequest_keep
    | with_reducible apply KeepOut.next

theorem sysref_keep {p : Nat} {d : Int} {pin : Bool} (h : Keep a s) : Keep a (sysref p d pin s) := by
  unfold sysref
  extract_lets s1 s2 s3
  have h1 : Keep a s1 := by
    unfold s1
    repeat' first
      | with_reducible assumption
      | with_reducible apply State.setFld_keep
      | with_reducible apply State.bump_keep
      | with_reducible apply raiseFld_keep
      | with_reducible apply State.updMport_keep
      | with_reducible apply State.updRport_keep
  clear_value s1
  have h2 : Keep a s2 := by
    unfold s2
    repeat' first
      | with_reducible assumption
      | with_reducible apply State.setFld_keep
      | with_reducible apply State.bump_keep
      | with_reducible apply raiseFld_keep
      | with_reducible apply State.updMport_keep
      | with_reducible apply State.updRport_keep
      | with_reducible apply State.updCarrier_keep
      | with_reducible apply placeResets_keep
      | with_reducible refine Keep.ite (fun _ => ?_) (fun _ => ?_)
      | with_reducible refine Keep.foldl ?_ (fun t x ht => ?_)
      | exact fun _ hc => hc
      | extract_lets
      | split
  clear_value s2
  have h3 : Keep a s3 := by
    unfold s3
    repeat' first
      | with_reducible assumption
      | with_reducible apply State.setFld_keep
      | with_reducible apply State.bump_keep
      | with_reducible apply raiseFld_keep
      | with_reducible apply State.updMport_keep
      | with_reducible apply State.updRport_keep
      | with_reducible apply State.updCarrier_keep
      | with_reducible apply placeResets_keep
      | with_reducible refine Keep.ite (fun _ => ?_) (fun _ => ?_)
      | with_reducible refine Keep.foldl ?_ (fun t x ht => ?_)
  clear_value s3
  repeat' first
    | with_reducible assumption
    | with_reducible apply State.setFld_keep
    | with_reducible apply State.bump_keep
    | with_reducible apply raiseFld_keep
    | with_reducible apply State.updMport_keep
    | with_reducible apply State.updRport_keep
    | with_reducible apply State.updCarrier_keep
    | with_reducible apply placeResets_keep
    | with_reducible refine Keep.ite (fun _ => ?_) (fun _ => ?_)

theorem execSysrefEdge_keep {port : Nat} {d : Int} {syncReset : Bool} (h : Keep a s) : KeepOut a (execSysrefEdge port d syncReset s) := by
  unfold execSysrefEdge
  repeat' first
    | with_reducible assumption
    | with_reducible apply syncReset_keep
    | with_reducible apply sysref_keep
    | with_reducible apply KeepOut.next

theorem rfpCtlWritten_keep {p : Nat} (h : Keep a s) : Keep a (rfpCtlWritten p s) := by
  unfold rfpCtlWritten
  extract_lets s1
  have h1 : Keep a s1 := by
    unfold s1
    repeat' first
      | with_reducible assumption
      | with_reducible apply State.setFld_keep
      | with_reducible apply rxLinkDown_keep
      | with_reducible refine Keep.ite (fun _ => ?_) (fun _ => ?_)
  clear_value s1
  repeat' first
    | with_reducible assumption
    | with_reducible apply State.setFld_keep
    | with_reducible apply rxLinkDown_keep
    | with_reducible refine Keep.ite (fun _ => ?_) (fun _ => ?_)

theorem dcbClear_keep {p : Nat} (h : Keep a s) : Keep a (dcbClear p s) := by
  unfold dcbClear
  repeat' first
    | with_reducible assumption
    | with_reducible apply State.setFld_keep

theorem rfpCommit_keep {p : Nat} (h : Keep a s) : Keep a (rfpCommit p s) := by
  unfold rfpCommit
  extract_lets v1
  clear_value v1
  repeat' first
    | with_reducible assumption
    | with_reducible apply dueReset_keep
    | with_reducible refine Keep.ite (fun _ => ?_) (fun _ => ?_)
    | with_reducible refine Keep.foldl ?_ (fun t x ht => ?_)

theorem tapPush_keep {p : Nat} (h : Keep a s) : Keep a (tapPush p s) := by
  unfold tapPush
  extract_lets r os s1
  have h1 : Keep a s1 := State.updRport_keep h
  clear_value os
  cases os with
  | nil => exact h
  | cons o os =>
    dsimp -zeta only
    refine Keep.ite (fun _ => h) (fun _ => ?_)
    clear_value s1
    cases hq : seedAlloc (s1.fld (fRfpTapAccountAccount p)) 4 .owned s1 with
    | mk x t =>
      have ht := seedAlloc_pair hq h1
      cases x
      · dsimp -zeta only
        extract_lets s2 s3
        have h3 : Keep a s3 := State.updRport_keep (State.bump_keep (bufWrite_keep ht))
        clear_value s3
        exact Keep.ite (fun _ => mqPush_keep h3) (fun _ => freeItem_keep h3)
      · exact State.bump_keep ht
      · exact State.bump_keep ht

theorem execSampleTapItemPush_keep {port : Nat} (h : Keep a s) : KeepOut a (execSampleTapItemPush port s) := by
  unfold execSampleTapItemPush
  repeat' first
    | with_reducible assumption
    | with_reducible apply tapPush_keep
    | with_reducible refine Keep.ite (fun _ => ?_) (fun _ => ?_)
    | with_reducible apply KeepOut.next

theorem State.updMadi_keep {p : Nat} {f : MadiPort → MadiPort} (h : Keep a s) : Keep a (State.updMadi s p f) := by
  unfold State.updMadi
  repeat' first
    | with_reducible assumption
    | dsimp only
    | with_reducible refine Keep.mk_same rfl rfl rfl rfl rfl rfl rfl rfl ?_

theorem madiPush_keep {p : Nat} {xs : List Word} {vBits : Nat} {codeErrs : Nat} {drift : Int} (h : Keep a s) : Keep a (madiPush p xs vBits codeErrs drift s) := by
  unfold madiPush
  repeat' first
    | with_reducible assumption
    | with_reducible apply State.bump_keep
    | with_reducible apply State.setFld_keep
    | with_reducible apply State.updMadi_keep
    | refine seedAlloc_pair (by assumption) ?_
    | with_reducible apply seedAlloc_keep
    | with_reducible apply bufWrite_keep
    | with_reducible apply mqPush_keep
    | with_reducible apply freeItem_keep
    | with_reducible refine Keep.ite (fun _ => ?_) (fun _ => ?_)
    | with_reducible refine Keep.foldl ?_ (fun t x ht => ?_)
    | (intro c hc; first | exact hc | (simp; done) | (simpa using hc))
    | extract_lets
    | split
    | dsimp only
    | with_reducible refine Keep.mk_same rfl rfl rfl rfl rfl rfl rfl rfl ?_

theorem execMadiRxBlockPush_keep {port : Nat} {samples : List Word} {vBits : Nat} {codeErrs : Nat} {drift : Int} (h : Keep a s) : KeepOut a (execMadiRxBlockPush port samples vBits codeErrs drift s) := by
  unfold execMadiRxBlockPush
  repeat' first
    | with_reducible assumption
    | with_reducible apply madiPush_keep
    | with_reducible refine Keep.ite (fun _ => ?_) (fun _ => ?_)
    | with_reducible refine Keep.foldl ?_ (fun t x ht => ?_)
    | (intro c hc; first | exact hc | (simp; done) | (simpa using hc))
    | with_reducible apply KeepOut.next
    | extract_lets
    | split
    | dsimp only

theorem madiSlip_keep {p : Nat} {drift : Int} (h : Keep a s) : Keep a (madiSlip p drift s) := by
  unfold madiSlip
  repeat' first
    | with_reducible assumption
    | with_reducible apply State.setFld_keep
    | with_reducible apply State.bump_keep
    | with_reducible apply State.updMadi_keep
    | with_reducible refine Keep.ite (fun _ => ?_) (fun _ => ?_)
    | with_reducible refine Keep.foldl ?_ (fun t x ht => ?_)
    | (intro c hc; first | exact hc | (simp; done) | (simpa using hc))
    | extract_lets
    | split
    | dsimp only
    | with_reducible refine Keep.mk_same rfl rfl rfl rfl rfl rfl rfl rfl ?_

theorem execMadiRxSlip_keep {port : Nat} {drift : Int} (h : Keep a s) : KeepOut a (execMadiRxSlip port drift s) := by
  unfold execMadiRxSlip
  repeat' first
    | with_reducible assumption
    | with_reducible apply madiSlip_keep
    | with_reducible apply KeepOut.next

theorem madiLock_keep {p : Nat} {ch56 : Bool} (h : Keep a s) : Keep a (madiLock p ch56 s) := by
  unfold madiLock
  extract_lets v1 s1 s2
  clear_value v1
  have h1 : Keep a s1 := by
    unfold s1
    repeat' first
      | with_reducible assumption
      | with_reducible apply State.setFld_keep
      | with_reducible apply State.bump_keep
      | with_reducible apply State.updMadi_keep
      | with_reducible refine Keep.ite (fun _ => ?_) (fun _ => ?_)
  clear_value s1
  have h2 : Keep a s2 := by
    unfold s2
    repeat' first
      | with_reducible assumption
      | with_reducible apply State.setFld_keep
  clear_value s2
  repeat' first
    | with_reducible assumption
    | with_reducible apply State.setFld_keep
    | with_reducible apply State.bump_keep
    | with_reducible apply State.updMadi_keep
    | with_reducible refine Keep.ite (fun _ => ?_) (fun _ => ?_)

theorem execMadiLock_keep {port : Nat} {ch56 : Bool} (h : Keep a s) : KeepOut a (execMadiLock port ch56 s) := by
  unfold execMadiLock
  repeat' first
    | with_reducible assumption
    | with_reducible apply madiLock_keep
    | with_reducible apply KeepOut.next

theorem madiUnlock_keep {p : Nat} (h : Keep a s) : Keep a (madiUnlock p s) := by
  unfold madiUnlock
  repeat' first
    | with_reducible assumption
    | with_reducible apply State.setFld_keep
    | with_reducible apply raiseFld_keep
    | with_reducible refine Keep.ite (fun _ => ?_) (fun _ => ?_)

theorem execMadiLockLoss_keep {port : Nat} (h : Keep a s) : KeepOut a (execMadiLockLoss port s) := by
  unfold execMadiLockLoss
  repeat' first
    | with_reducible assumption
    | with_reducible apply madiUnlock_keep
    | with_reducible apply KeepOut.next

theorem madiCtlWritten_keep {p : Nat} (h : Keep a s) : Keep a (madiCtlWritten p s) := by
  unfold madiCtlWritten
  extract_lets s1
  have h1 : Keep a s1 := by
    unfold s1
    repeat' first
      | with_reducible assumption
      | with_reducible apply State.setFld_keep
      | with_reducible apply State.updMadi_keep
      | with_reducible refine Keep.ite (fun _ => ?_) (fun _ => ?_)
  clear_value s1
  repeat' first
    | with_reducible assumption
    | with_reducible apply State.setFld_keep
    | with_reducible apply State.updMadi_keep
    | with_reducible refine Keep.ite (fun _ => ?_) (fun _ => ?_)

theorem madiHead_keep {p k fuel : Nat} (h : Keep a s) : Keep a (madiHead p k fuel s).2 := by
  induction fuel generalizing s with
  | zero => exact h
  | succ fuel ih =>
    unfold madiHead
    dsimp only
    split
    · exact h
    split
    · exact h
    split
    · next e => exact portPop_pair e h
    · next e =>
      split
      · exact ih (State.bump_keep (releaseEntry_keep (portPop_pair e h)))
      · exact portPop_pair e h

theorem madiHead_pair {p k fuel : Nat} {o : Option (Entry × Bool)} {t : State} (e : madiHead p k fuel s = (o, t)) (h : Keep a s) : Keep a t := by
  have := madiHead_keep (p := p) (k := k) (fuel := fuel) h; rwa [e] at this

theorem madiExamine_keep {p : Nat} (h : Keep a s) : Keep a (madiExamine p s) := by
  unfold madiExamine
  extract_lets v1 v2 s1 v3 s2 v4
  clear_value v1 v2 v3 v4
  have h1 : Keep a s1 := by
    unfold s1
    repeat' first
      | with_reducible assumption
      | with_reducible apply State.bump_keep
      | with_reducible apply State.emit_keep
      | with_reducible apply advanceTo_keep
      | with_reducible apply reap_keep
  clear_value s1
  have h2 : Keep a s2 := by
    unfold s2
    repeat' first
      | with_reducible assumption
      | with_reducible apply State.bump_keep
      | with_reducible apply State.emit_keep
      | with_reducible apply advanceTo_keep
      | with_reducible apply reap_keep
      | with_reducible apply holdUntil_keep
      | with_reducible apply State.updMadi_keep
  clear_value s2
  repeat' first
    | with_reducible assumption
    | with_reducible apply State.bump_keep
    | with_reducible apply State.emit_keep
    | with_reducible apply advanceTo_keep
    | with_reducible apply reap_keep
    | with_reducible apply holdUntil_keep
    | with_reducible apply State.updMadi_keep
    | with_reducible apply madiHead_keep
    | refine madiHead_pair (by assumption) ?_
    | with_reducible refine Keep.ite (fun _ => ?_) (fun _ => ?_)
    | exact fun _ hc => hc
    | extract_lets
    | split

theorem execMadiTxExamine_keep {port : Nat} (h : Keep a s) : KeepOut a (execMadiTxExamine port s) := by
  unfold execMadiTxExamine
  repeat' first
    | with_reducible assumption
    | with_reducible apply madiExamine_keep
    | with_reducible apply KeepOut.next

end Sys2Proof.Machine
end

