-- ==== Sys2Proof/Laws/KeepFlash.lean ====
section
/-!
SUPPORT. Laws/KeepFlash.lean: every operation of flash, PACK and staged configuration keeps what Keep names.
-/

namespace Sys2Proof.Machine

variable {a s : State}

theorem State.setFlc_keep {f : FlcSt → FlcSt} (h : Keep a s) : Keep a (State.setFlc s f) := by
  unfold State.setFlc
  repeat' first
    | with_reducible assumption
    | dsimp only
    | with_reducible refine Keep.mk_same rfl rfl rfl rfl rfl rfl rfl rfl ?_

theorem State.setFlash_keep {f : FlashSt → FlashSt} (h : Keep a s) : Keep a (State.setFlash s f) := by
  unfold State.setFlash
  repeat' first
    | with_reducible assumption
    | dsimp only
    | with_reducible refine Keep.mk_same rfl rfl rfl rfl rfl rfl rfl rfl ?_

theorem State.updSeg_keep {q : Nat} {f : Seg → Seg} (h : Keep a s) : Keep a (State.updSeg s q f) := by
  unfold State.updSeg
  repeat' first
    | with_reducible assumption
    | with_reducible apply State.setFlash_keep
    | split

theorem State.updDie_keep {d : Nat} {f : Die → Die} (h : Keep a s) : Keep a (State.updDie s d f) := by
  unfold State.updDie
  repeat' first
    | with_reducible assumption
    | with_reducible apply State.setFlash_keep

theorem flcInt_keep {i : Nat} (h : Keep a s) : Keep a (flcInt i s) := by
  unfold flcInt
  repeat' first
    | with_reducible assumption
    | with_reducible apply raiseFld_keep

theorem flcEvent_keep {cls : Nat} {cause : Nat} (h : Keep a s) : Keep a (flcEvent cls cause s) := by
  unfold flcEvent
  repeat' first
    | with_reducible assumption
    | with_reducible apply umpEvent_keep

theorem emitPage_keep {g : Seg} {p : Nat} {main : List Byte} (h : Keep a s) : Keep a (emitPage g p main s) := by
  unfold emitPage
  repeat' first
    | with_reducible assumption
    | with_reducible apply pmuEvent_keep
    | with_reducible apply State.emit_keep
    | with_reducible refine Keep.ite (fun _ => ?_) (fun _ => ?_)
    | with_reducible refine Keep.foldl ?_ (fun t x ht => ?_)
    | (intro c hc; first | exact hc | (simp; done) | (simpa using hc))
    | extract_lets
    | split
    | dsimp only

theorem closePages_keep {q : Nat} (h : Keep a s) : Keep a (closePages q s) := by
  unfold closePages
  split
  · exact h
  · exact foldPair_keep _ _ h (fun x p hx => emitPage_keep hx)

theorem tryClose_keep {q : Nat} (h : Keep a s) : Keep a (tryClose q s) := by
  unfold tryClose
  extract_lets v1 s1 s2
  clear_value v1
  have h1 : Keep a s1 := by
    unfold s1
    repeat' first
      | with_reducible assumption
      | with_reducible apply State.bump_keep
      | with_reducible apply finishWait_keep
      | with_reducible apply State.updSeg_keep
      | with_reducible apply closePages_keep
  clear_value s1
  have h2 : Keep a s2 := by
    unfold s2
    repeat' first
      | with_reducible assumption
      | with_reducible apply State.bump_keep
      | with_reducible apply finishWait_keep
      | with_reducible apply State.updSeg_keep
  clear_value s2
  repeat' first
    | with_reducible assumption
    | with_reducible apply State.bump_keep
    | with_reducible apply finishWait_keep
    | with_reducible apply State.updSeg_keep
    | with_reducible apply closePages_keep
    | with_reducible refine Keep.ite (fun _ => ?_) (fun _ => ?_)
    | exact fun _ hc => hc
    | extract_lets
    | split

theorem requestClose_keep {short : Bool} {step : Bool} (h : Keep a s) : Keep a (requestClose short step s) := by
  unfold requestClose
  extract_lets s1
  have h1 : Keep a s1 := by
    unfold s1
    repeat' first
      | with_reducible assumption
      | with_reducible apply State.setFlc_keep
  clear_value s1
  repeat' first
    | with_reducible assumption
    | with_reducible apply State.setFlc_keep
    | with_reducible apply State.updSeg_keep
    | with_reducible apply tryClose_keep
    | exact fun _ hc => hc
    | extract_lets
    | split

theorem openSegment_keep {tStart : Nat} (h : Keep a s) : KeepOpt a (openSegment tStart s) := by
  unfold openSegment
  extract_lets v1
  clear_value v1
  repeat' first
    | with_reducible assumption
    | with_reducible apply State.setFlc_keep
    | with_reducible apply State.setFlash_keep
    | with_reducible apply emitPage_keep
    | with_reducible apply KeepOpt.some
    | with_reducible exact KeepOpt.none
    | extract_lets
    | split

theorem openSegment_some {tStart : Nat} {t} (e : openSegment tStart s = some t) (h : Keep a s) : Keep a t := openSegment_keep h t e

theorem haltCheck_keep (h : Keep a s) : Keep a (haltCheck s) := by
  unfold haltCheck
  extract_lets s1
  have h1 : Keep a s1 := by
    unfold s1
    repeat' first
      | with_reducible assumption
      | with_reducible apply State.setFld_keep
      | with_reducible apply flcInt_keep
      | with_reducible apply flcEvent_keep
      | with_reducible apply requestClose_keep
  clear_value s1
  repeat' first
    | with_reducible assumption
    | with_reducible apply State.setFld_keep
    | with_reducible apply flcInt_keep
    | with_reducible apply flcEvent_keep
    | with_reducible apply requestClose_keep
    | with_reducible refine Keep.ite (fun _ => ?_) (fun _ => ?_)

theorem newPage_keep {ext : Nat} (h : Keep a s) : Keep a (newPage ext s).2 := by
  unfold newPage
  extract_lets v1 s1
  clear_value v1
  have h1 : Keep a s1 := by
    unfold s1
    repeat' first
      | with_reducible assumption
      | with_reducible apply State.setFlc_keep
      | with_reducible apply requestClose_keep
      | with_reducible apply openSegment_keep
      | refine openSegment_some (by assumption) ?_
      | with_reducible apply haltCheck_keep
      | with_reducible refine Keep.ite (fun _ => ?_) (fun _ => ?_)
      | extract_lets
      | split
  clear_value s1
  repeat' first
    | with_reducible assumption
    | with_reducible apply State.setFlc_keep
    | with_reducible apply requestClose_keep
    | with_reducible apply openSegment_keep
    | refine openSegment_some (by assumption) ?_
    | with_reducible apply haltCheck_keep
    | with_reducible refine Keep.ite (fun _ => ?_) (fun _ => ?_)
    | extract_lets
    | split

theorem newPage_pair {ext : Nat} {x0} {t} (e : newPage ext s = (x0, t)) (h : Keep a s) : Keep a t := by
  have := newPage_keep (ext := ext) h; rwa [e] at this

theorem placeRec_keep {r : FRec} (h : Keep a s) : Keep a (placeRec r s).2 := by
  unfold placeRec
  extract_lets s1
  have h1 : Keep a s1 := by
    unfold s1
    split
    · exact Keep.ite (fun _ => State.setFlc_keep h) (fun _ => h)
    · exact h
  clear_value s1
  have hp : Keep a (if s1.flc.page.isSome then (true, s1) else newPage r.ext s1).2 := by
    split
    · exact h1
    · exact newPage_keep h1
  cases hq : (if s1.flc.page.isSome then (true, s1) else newPage r.ext s1) with
  | mk ok t =>
    rw [hq] at hp
    cases ok
    · exact hp
    · dsimp -zeta only; rw [if_pos rfl]; exact Keep.snd (State.setFlc_keep hp)

theorem placeRec_pair {r : FRec} {ok : Bool} {t : State} (e : placeRec r s = (ok, t)) (h : Keep a s) : Keep a t := by
  have := placeRec_keep (r := r) h; rwa [e] at this

theorem retireBlock_keep {d : Nat} {b : Nat} (h : Keep a s) : Keep a (retireBlock d b s) := by
  unfold retireBlock
  extract_lets s1 s2 v1
  clear_value v1
  have h1 : Keep a s1 := by
    unfold s1
    repeat' first
      | with_reducible assumption
      | with_reducible apply State.bump_keep
      | with_reducible apply State.updDie_keep
  clear_value s1
  have h2 : Keep a s2 := by
    unfold s2
    repeat' first
      | with_reducible assumption
      | with_reducible apply State.bump_keep
      | with_reducible apply State.updDie_keep
      | with_reducible apply flcInt_keep
      | with_reducible apply flcEvent_keep
  clear_value s2
  repeat' first
    | with_reducible assumption
    | with_reducible apply State.bump_keep
    | with_reducible apply State.updDie_keep
    | with_reducible apply flcInt_keep
    | with_reducible apply flcEvent_keep
    | with_reducible refine Keep.ite (fun _ => ?_) (fun _ => ?_)
    | exact fun _ hc => hc
    | extract_lets
    | split

theorem beginProgram_keep (h : Keep a s) : Keep a (beginProgram s) := by
  unfold beginProgram
  split
  · exact h
  next pg rest _ =>
  split
  · exact State.setFlc_keep h
  next g _ =>
  cases hn : nextPos s g 4096 g.d [] with
  | mk p skipped =>
    dsimp -zeta only
    refine Keep.ite (fun _ => ?_) (fun _ => ?_)
    · extract_lets g' s1 s2 s3
      have h3 : Keep a s3 := emitPage_keep (State.setFlc_keep (State.updSeg_keep h))
      clear_value s3
      exact Keep.ite (fun _ => requestClose_keep h3) (fun _ => h3)
    · extract_lets old r
      have hr : ∀ q t, r = some (q, t) → Keep a t := by
        intro q t e
        unfold r at e
        split at e
        · split at e
          · cases e
          · cases e; exact h
        · obtain ⟨u, hu, e⟩ := Option.bind_eq_some_iff.mp e
          obtain ⟨v, _, e⟩ := Option.map_eq_some_iff.mp e
          cases e; exact openSegment_some hu h
      clear_value r
      split
      next q t => exact tryClose_keep (State.setFlc_keep (hr q t rfl))
      · exact haltCheck_keep (Keep.ite (fun _ => requestClose_keep h) (fun _ => h))

theorem capDrop_keep {n : Nat} (h : Keep a s) : Keep a (capDrop n s) := by
  unfold capDrop
  repeat' first
    | with_reducible assumption
    | with_reducible apply State.bump_keep
    | with_reducible apply raiseFld_keep
    | with_reducible refine Keep.ite (fun _ => ?_) (fun _ => ?_)

theorem dropStaging_keep (h : Keep a s) : Keep a (dropStaging s) := by
  unfold dropStaging
  repeat' first
    | with_reducible assumption
    | with_reducible apply capDrop_keep
    | with_reducible apply State.setFlc_keep
    | refine State.draw_pair (by assumption) ?_
    | with_reducible apply State.draw_keep
    | with_reducible apply tryClose_keep
    | with_reducible apply umpEvent_keep
    | with_reducible refine Keep.ite (fun _ => ?_) (fun _ => ?_)
    | with_reducible refine Keep.foldl ?_ (fun t x ht => ?_)
    | (intro c hc; first | exact hc | (simp; done) | (simpa using hc))
    | extract_lets
    | split
    | dsimp only
    | with_reducible refine Keep.mk_same rfl rfl rfl rfl rfl rfl rfl rfl ?_

theorem execStagingPageProgram_keep {hbmOk : Bool} (h : Keep a s) : KeepOut a (execStagingPageProgram hbmOk s) := by
  unfold execStagingPageProgram
  repeat' first
    | with_reducible assumption
    | with_reducible apply beginProgram_keep
    | with_reducible apply dropStaging_keep
    | with_reducible refine Keep.ite (fun _ => ?_) (fun _ => ?_)
    | with_reducible refine Keep.foldl ?_ (fun t x ht => ?_)
    | (intro c hc; first | exact hc | (simp; done) | (simpa using hc))
    | with_reducible apply KeepOut.next
    | extract_lets
    | split
    | dsimp only

theorem programDone_keep {ok : Bool} (h : Keep a s) : Keep a (programDone ok s) := by
  unfold programDone
  repeat' first
    | with_reducible assumption
    | with_reducible apply State.bump_keep
    | with_reducible apply State.setFlc_keep
    | with_reducible apply State.updSeg_keep
    | with_reducible apply tryClose_keep
    | with_reducible apply haltCheck_keep
    | with_reducible apply retireBlock_keep
    | with_reducible refine Keep.ite (fun _ => ?_) (fun _ => ?_)
    | with_reducible apply CoreRes.kept_skip
    | with_reducible apply KeepOpt.getD
    | exact fun _ hc => hc
    | extract_lets
    | split

theorem execPageProgramComplete_keep {ok : Bool} (h : Keep a s) : KeepOut a (execPageProgramComplete ok s) := by
  unfold execPageProgramComplete
  repeat' first
    | with_reducible assumption
    | with_reducible apply programDone_keep
    | with_reducible apply KeepOut.next

theorem eraseDone_keep {d : Nat} {b : Nat} {ok : Bool} (h : Keep a s) : Keep a (eraseDone d b ok s) := by
  unfold eraseDone
  extract_lets s1
  have h1 : Keep a s1 := by
    unfold s1
    repeat' first
      | with_reducible assumption
      | with_reducible apply State.bump_keep
      | with_reducible apply State.setFlash_keep
  clear_value s1
  repeat' first
    | with_reducible assumption
    | with_reducible apply State.bump_keep
    | with_reducible apply State.setFlash_keep
    | with_reducible apply State.updDie_keep
    | with_reducible apply haltCheck_keep
    | with_reducible apply retireBlock_keep
    | with_reducible refine Keep.ite (fun _ => ?_) (fun _ => ?_)

theorem execBlockEraseComplete_keep {die : Nat} {block : Nat} {ok : Bool} (h : Keep a s) : KeepOut a (execBlockEraseComplete die block ok s) := by
  unfold execBlockEraseComplete
  repeat' first
    | with_reducible assumption
    | with_reducible apply eraseDone_keep
    | with_reducible apply KeepOut.next

theorem eraseSeg_keep {q : Nat} (h : Keep a s) : Keep a (eraseSeg q s) := by
  unfold eraseSeg
  extract_lets s1
  have h1 : Keep a s1 := by
    unfold s1
    repeat' first
      | with_reducible assumption
      | with_reducible apply State.emit_keep
      | with_reducible apply State.setFlash_keep
  clear_value s1
  repeat' first
    | with_reducible assumption
    | with_reducible apply State.emit_keep
    | with_reducible apply State.setFlash_keep
    | with_reducible apply State.updDie_keep
    | with_reducible apply retireBlock_keep
    | with_reducible refine Keep.ite (fun _ => ?_) (fun _ => ?_)
    | with_reducible refine Keep.foldl ?_ (fun t x ht => ?_)
    | with_reducible apply KeepOpt.getD
    | exact fun _ hc => hc
    | extract_lets
    | split

theorem dropOld_keep (h : Keep a s) : Keep a (dropOld s) := by
  unfold dropOld
  repeat' first
    | with_reducible assumption
    | with_reducible apply eraseSeg_keep
    | with_reducible refine Keep.foldl ?_ (fun t x ht => ?_)

theorem reclaim_keep (h : Keep a s) : Keep a (reclaim s) := by
  unfold reclaim
  extract_lets v1
  clear_value v1
  repeat' first
    | with_reducible assumption
    | with_reducible apply State.bump_keep
    | with_reducible apply State.setFlc_keep
    | with_reducible apply flcInt_keep
    | with_reducible apply haltCheck_keep
    | with_reducible apply eraseSeg_keep
    | with_reducible refine Keep.ite (fun _ => ?_) (fun _ => ?_)
    | extract_lets
    | split

theorem execSegmentReclaim_keep (h : Keep a s) : KeepOut a (execSegmentReclaim s) := by
  unfold execSegmentReclaim
  repeat' first
    | with_reducible assumption
    | with_reducible apply reclaim_keep
    | with_reducible apply KeepOut.next

theorem relocate_keep {q : Nat} {g : Seg} (h : Keep a s) : Keep a (relocate q g s) := by
  unfold relocate
  extract_lets v1 v2 v3 v4 v5 v6
  clear_value v1 v2 v3 v4 v5 v6
  repeat' first
    | with_reducible assumption
    | with_reducible apply State.bump_keep
    | with_reducible apply State.setFlc_keep
    | with_reducible apply State.setFlash_keep
    | with_reducible apply State.updSeg_keep
    | with_reducible apply emitPage_keep
    | with_reducible apply closePages_keep
    | with_reducible apply dropOld_keep
    | with_reducible refine Keep.foldl ?_ (fun t x ht => ?_)
    | with_reducible apply KeepOpt.getD
    | exact fun _ hc => hc
    | extract_lets
    | split

theorem refreshRead_keep {q : Nat} {maxCorrected : Nat} {lost : List Nat} (h : Keep a s) : Keep a (refreshRead q maxCorrected lost s) := by
  unfold refreshRead
  repeat' first
    | with_reducible assumption
    | with_reducible apply State.updSeg_keep
    | with_reducible apply relocate_keep
    | with_reducible refine Keep.ite (fun _ => ?_) (fun _ => ?_)
    | with_reducible refine Keep.foldl ?_ (fun t x ht => ?_)
    | exact fun _ hc => hc
    | extract_lets
    | split

theorem execRefreshSegmentRead_keep {seq : Nat} {maxCorrected : Nat} {lost : List Nat} (h : Keep a s) : KeepOut a (execRefreshSegmentRead seq maxCorrected lost s) := by
  unfold execRefreshSegmentRead
  repeat' first
    | with_reducible assumption
    | with_reducible apply refreshRead_keep
    | with_reducible apply KeepOut.next

theorem codewordDecode_keep {q : Nat} {page : Nat} {reads : Nat} {iters : Nat} {corrected : Option Nat} (h : Keep a s) : Keep a (codewordDecode q page reads iters corrected s) := by
  unfold codewordDecode
  repeat' first
    | with_reducible assumption
    | with_reducible apply State.bump_keep
    | with_reducible apply pmuEvent_keep
    | with_reducible apply State.updSeg_keep
    | with_reducible apply flcEvent_keep
    | with_reducible apply flcInt_keep
    | with_reducible refine Keep.ite (fun _ => ?_) (fun _ => ?_)
    | with_reducible refine Keep.foldl ?_ (fun t x ht => ?_)
    | (intro c hc; first | exact hc | (simp; done) | (simpa using hc))
    | extract_lets
    | split
    | dsimp only
    | with_reducible refine Keep.mk_same rfl rfl rfl rfl rfl rfl rfl rfl ?_

theorem execFlashCodewordDecode_keep {seq : Nat} {page : Nat} {reads : Nat} {iters : Nat} {corrected : Option Nat} (h : Keep a s) : KeepOut a (execFlashCodewordDecode seq page reads iters corrected s) := by
  unfold execFlashCodewordDecode
  repeat' first
    | with_reducible assumption
    | with_reducible apply codewordDecode_keep
    | with_reducible apply KeepOut.next

theorem segmentStep_keep {old : Nat} {new : Nat} (h : Keep a s) : Keep a (segmentStep old new s) := by
  unfold segmentStep
  repeat' first
    | with_reducible assumption
    | with_reducible apply requestClose_keep
    | with_reducible refine Keep.ite (fun _ => ?_) (fun _ => ?_)

theorem bringupStep_keep {targets : Nat} {luns : Nat} {good : Nat} (h : Keep a s) : Keep a (bringupStep targets luns good s) := by
  unfold bringupStep
  extract_lets s1 s2 s3 s4 s5 s6 s7 s8
  have h1 : Keep a s1 := by
    unfold s1
    repeat' first
      | with_reducible assumption
      | with_reducible apply State.setFld_keep
  clear_value s1
  have h2 : Keep a s2 := by
    unfold s2
    repeat' first
      | with_reducible assumption
      | with_reducible apply State.setFld_keep
      | with_reducible apply State.setFlc_keep
      | with_reducible apply State.setFlash_keep
      | with_reducible apply State.updSeg_keep
      | with_reducible apply State.updDie_keep
      | with_reducible apply flcInt_keep
      | with_reducible refine Keep.ite (fun _ => ?_) (fun _ => ?_)
  clear_value s2
  have h3 : Keep a s3 := by
    unfold s3
    repeat' first
      | with_reducible assumption
      | with_reducible apply State.setFld_keep
      | with_reducible apply State.setFlc_keep
      | with_reducible apply State.setFlash_keep
      | with_reducible apply State.updSeg_keep
      | with_reducible apply State.updDie_keep
      | with_reducible apply flcInt_keep
      | with_reducible refine Keep.ite (fun _ => ?_) (fun _ => ?_)
  clear_value s3
  have h4 : Keep a s4 := by
    unfold s4
    repeat' first
      | with_reducible assumption
      | with_reducible apply State.setFld_keep
      | with_reducible apply State.setFlc_keep
      | with_reducible apply State.setFlash_keep
      | with_reducible apply State.updSeg_keep
      | with_reducible apply State.updDie_keep
      | with_reducible apply flcInt_keep
      | with_reducible refine Keep.ite (fun _ => ?_) (fun _ => ?_)
      | with_reducible refine Keep.foldl ?_ (fun t x ht => ?_)
  clear_value s4
  have h5 : Keep a s5 := by
    unfold s5
    repeat' first
      | with_reducible assumption
      | with_reducible apply State.setFld_keep
      | with_reducible apply State.setFlc_keep
      | with_reducible apply State.setFlash_keep
  clear_value s5
  have h6 : Keep a s6 := by
    unfold s6
    repeat' first
      | with_reducible assumption
      | with_reducible apply State.setFld_keep
  clear_value s6
  have h7 : Keep a s7 := by
    unfold s7
    repeat' first
      | with_reducible assumption
      | with_reducible apply State.setFld_keep
      | with_reducible apply State.setFlc_keep
      | with_reducible apply State.setFlash_keep
  clear_value s7
  have h8 : Keep a s8 := by
    unfold s8
    repeat' first
      | with_reducible assumption
      | with_reducible apply State.setFld_keep
  clear_value s8
  repeat' first
    | with_reducible assumption
    | with_reducible apply State.setFld_keep
    | with_reducible apply State.setFlc_keep
    | with_reducible apply State.setFlash_keep
    | with_reducible apply State.updSeg_keep
    | with_reducible apply State.updDie_keep
    | with_reducible apply flcInt_keep
    | with_reducible refine Keep.ite (fun _ => ?_) (fun _ => ?_)
    | with_reducible refine Keep.foldl ?_ (fun t x ht => ?_)
    | exact fun _ hc => hc
    | extract_lets
    | split

theorem execFlcBringupStepComplete_keep {targets : Nat} {luns : Nat} {goodBlocks : Nat} (h : Keep a s) : KeepOut a (execFlcBringupStepComplete targets luns goodBlocks s) := by
  unfold execFlcBringupStepComplete
  repeat' first
    | with_reducible assumption
    | with_reducible apply bringupStep_keep
    | with_reducible apply KeepOut.next

theorem flcCtlWritten_keep {was : Bool} (h : Keep a s) : Keep a (flcCtlWritten was s) := by
  unfold flcCtlWritten
  extract_lets v1 s1 s2
  clear_value v1
  have h1 : Keep a s1 := by
    unfold s1
    repeat' first
      | with_reducible assumption
      | with_reducible apply State.setFld_keep
  clear_value s1
  have h2 : Keep a s2 := by
    unfold s2
    repeat' first
      | with_reducible assumption
      | with_reducible apply State.setFld_keep
      | with_reducible apply finishWait_keep
      | with_reducible apply State.setFlc_keep
  clear_value s2
  repeat' first
    | with_reducible assumption
    | with_reducible apply State.setFld_keep
    | with_reducible apply finishWait_keep
    | with_reducible apply State.setFlc_keep
    | with_reducible refine Keep.ite (fun _ => ?_) (fun _ => ?_)

theorem execCapStart_keep {h' : KciHdr} (h : Keep a s) : KeepOut a (execCapStart h' s) := by
  unfold execCapStart
  repeat' first
    | with_reducible assumption
    | with_reducible apply State.setFld_keep
    | with_reducible apply kciFail_keep
    | with_reducible apply kciOk_keep
    | with_reducible refine kci_keep ?_ (fun t ht => ?_)
    | with_reducible refine Keep.ite (fun _ => ?_) (fun _ => ?_)
    | with_reducible apply KciRes.kept_fail
    | with_reducible apply KciRes.kept_ok
    | with_reducible apply KeepOut.next
    | split

theorem execCapStop_keep {h' : KciHdr} (h : Keep a s) : KeepOut a (execCapStop h' s) := by
  unfold execCapStop
  repeat' first
    | with_reducible assumption
    | with_reducible apply State.setFld_keep
    | with_reducible apply kciFail_keep
    | with_reducible apply kciOk_keep
    | with_reducible refine kci_keep ?_ (fun t ht => ?_)
    | with_reducible apply State.setFlc_keep
    | with_reducible apply requestClose_keep
    | with_reducible refine Keep.ite (fun _ => ?_) (fun _ => ?_)
    | with_reducible apply KciRes.kept_fail
    | with_reducible apply KciRes.kept_ok
    | with_reducible apply KciRes.kept_wait
    | with_reducible apply KeepOut.next
    | extract_lets
    | split

theorem execCapPoint_keep {h' : KciHdr} {tFrom : Nat} {tTo : Nat} {protect : Nat} (h : Keep a s) : KeepOut a (execCapPoint h' tFrom tTo protect s) := by
  unfold execCapPoint
  repeat' first
    | with_reducible assumption
    | with_reducible apply kciFail_keep
    | with_reducible refine kci_keep ?_ (fun t ht => ?_)
    | with_reducible apply State.setFlc_keep
    | with_reducible refine Keep.ite (fun _ => ?_) (fun _ => ?_)
    | with_reducible apply CoreRes.kept_done
    | with_reducible apply KciRes.kept_fail
    | with_reducible apply KciRes.kept_done
    | with_reducible apply KeepOut.next
    | extract_lets
    | split

theorem execCapPointClear_keep {h' : KciHdr} {point : Nat} (h : Keep a s) : KeepOut a (execCapPointClear h' point s) := by
  unfold execCapPointClear
  repeat' first
    | with_reducible assumption
    | with_reducible apply kciFail_keep
    | with_reducible apply kciOk_keep
    | with_reducible refine kci_keep ?_ (fun t ht => ?_)
    | with_reducible apply State.setFlc_keep
    | with_reducible refine Keep.ite (fun _ => ?_) (fun _ => ?_)
    | with_reducible apply KciRes.kept_fail
    | with_reducible apply KciRes.kept_ok
    | with_reducible apply KeepOut.next
    | split

theorem execCapReplay_keep {h' : KciHdr} {op : ReplayOp} (h : Keep a s) : KeepOut a (execCapReplay h' op s) := by
  unfold execCapReplay
  repeat' first
    | with_reducible assumption
    | with_reducible apply kciFail_keep
    | with_reducible apply kciOk_keep
    | with_reducible refine kci_keep ?_ (fun t ht => ?_)
    | with_reducible apply State.setFlc_keep
    | with_reducible refine Keep.ite (fun _ => ?_) (fun _ => ?_)
    | with_reducible apply CoreRes.kept_done
    | with_reducible apply KciRes.kept_fail
    | with_reducible apply KciRes.kept_ok
    | with_reducible apply KciRes.kept_done
    | with_reducible apply KeepOut.next
    | with_reducible apply KeepOpt.getD
    | extract_lets
    | split

theorem execCapStats_keep {h' : KciHdr} {clear : Bool} (h : Keep a s) : KeepOut a (execCapStats h' clear s) := by
  unfold execCapStats
  repeat' first
    | with_reducible assumption
    | with_reducible apply State.setFld_keep
    | with_reducible apply record_keep
    | with_reducible refine kci_keep ?_ (fun t ht => ?_)
    | with_reducible apply State.setFlc_keep
    | with_reducible refine Keep.ite (fun _ => ?_) (fun _ => ?_)
    | with_reducible apply KciRes.kept_record
    | with_reducible apply KeepOut.next

theorem stopDone_keep (h : Keep a s) : Keep a (stopDone s) := by
  unfold stopDone
  extract_lets s1
  have h1 : Keep a s1 := by
    unfold s1
    repeat' first
      | with_reducible assumption
      | with_reducible apply finishWait_keep
      | with_reducible apply State.setFlc_keep
      | with_reducible apply requestClose_keep
  clear_value s1
  repeat' first
    | with_reducible assumption
    | with_reducible apply finishWait_keep
    | with_reducible apply State.setFlc_keep
    | with_reducible apply requestClose_keep
    | with_reducible refine Keep.ite (fun _ => ?_) (fun _ => ?_)

theorem codeBlocks_keep {e : Entry} {loan : Bool} {n fuel i : Nat} (h : Keep a s) : Keep a (codeBlocks e loan n fuel i s) := by
  induction fuel generalizing i s with
  | zero => exact h
  | succ fuel ih =>
    unfold codeBlocks
    refine Keep.ite (fun _ => stopDone_keep (releaseEntry_keep (Keep.mk_same rfl rfl rfl rfl rfl rfl rfl rfl h))) (fun _ => ?_)
    cases jobRecord s e i with
    | mk r coded =>
      dsimp -zeta only
      cases hp : placeRec r s with
      | mk ok t =>
        have ht := placeRec_pair hp h
        cases ok
        · exact Keep.mk_same rfl rfl rfl rfl rfl rfl rfl rfl ht
        · exact ih (State.bump_keep ht)

theorem capturePop_keep (h : Keep a s) : Keep a (capturePop s) := by
  unfold capturePop
  repeat' first
    | with_reducible assumption
    | with_reducible apply State.bump_keep
    | with_reducible apply portPop_keep
    | refine portPop_pair (by assumption) ?_
    | with_reducible apply releaseEntry_keep
    | with_reducible apply codeBlocks_keep
    | with_reducible apply capDrop_keep
    | with_reducible refine Keep.ite (fun _ => ?_) (fun _ => ?_)
    | extract_lets
    | split

theorem execCaptureJobPop_keep (h : Keep a s) : KeepOut a (execCaptureJobPop s) := by
  unfold execCaptureJobPop
  repeat' first
    | with_reducible assumption
    | with_reducible apply capturePop_keep
    | with_reducible apply KeepOut.next

theorem captureResume_keep (h : Keep a s) : Keep a (captureResume s) := by
  unfold captureResume
  extract_lets v1
  clear_value v1
  repeat' first
    | with_reducible assumption
    | with_reducible apply releaseEntry_keep
    | with_reducible apply codeBlocks_keep
    | with_reducible apply capDrop_keep
    | with_reducible refine Keep.ite (fun _ => ?_) (fun _ => ?_)
    | extract_lets
    | split
    | dsimp only
    | with_reducible refine Keep.mk_same rfl rfl rfl rfl rfl rfl rfl rfl ?_

theorem execCaptureStagingResume_keep (h : Keep a s) : KeepOut a (execCaptureStagingResume s) := by
  unfold execCaptureStagingResume
  repeat' first
    | with_reducible assumption
    | with_reducible apply captureResume_keep
    | with_reducible apply KeepOut.next

theorem State.setJobs_keep {f : List (Nat × PackJob) → List (Nat × PackJob)} (h : Keep a s) : Keep a (State.setJobs s f) := by
  unfold State.setJobs
  extract_lets v1 s1
  clear_value v1
  have h1 : Keep a s1 := by
    unfold s1
    repeat' first
      | with_reducible assumption
      | with_reducible apply State.setFld_keep
      | extract_lets
      | dsimp only
      | with_reducible refine Keep.mk_same rfl rfl rfl rfl rfl rfl rfl rfl ?_
  clear_value s1
  repeat' first
    | with_reducible assumption
    | with_reducible apply State.setFld_keep

theorem startJob_keep {decode : Bool} {o : PackOp} (h : Keep a s) : (startJob decode o s).Kept a := by
  unfold startJob
  repeat' first
    | with_reducible assumption
    | with_reducible apply kciFail_keep
    | with_reducible apply State.setJobs_keep
    | with_reducible apply KciRes.kept_fail
    | with_reducible apply KciRes.kept_wait
    | split

theorem execPackJobEncode_keep {h' : KciHdr} {op : PackOp} (h : Keep a s) : KeepOut a (execPackJobEncode h' op s) := by
  unfold execPackJobEncode
  repeat' first
    | with_reducible assumption
    | with_reducible refine kci_keep ?_ (fun t ht => ?_)
    | with_reducible apply startJob_keep
    | with_reducible apply KeepOut.next

theorem execPackJobDecode_keep {h' : KciHdr} {op : PackOp} (h : Keep a s) : KeepOut a (execPackJobDecode h' op s) := by
  unfold execPackJobDecode
  repeat' first
    | with_reducible assumption
    | with_reducible refine kci_keep ?_ (fun t ht => ?_)
    | with_reducible apply startJob_keep
    | with_reducible apply KeepOut.next

theorem setMapBit_keep {a' : Nat} {i : Nat} (h : Keep a s) : Keep a (setMapBit a' i s) := by
  unfold setMapBit
  extract_lets v1
  clear_value v1
  repeat' first
    | with_reducible assumption
    | with_reducible apply State.hbmWrite_keep

theorem runJob_keep {fuel : Nat} {j : PackJob} (h : Keep a s) : Keep a (runJob fuel j s).2 := by
  induction fuel generalizing j s with
  | zero => exact h
  | succ fuel ih =>
    unfold runJob
    split
    · exact h
    cases jobBlock j s with
    | mk out miss =>
      dsimp -zeta only
      extract_lets n s1 s2 s3
      have h1 : Keep a s1 := by
        unfold s1
        split
        · exact State.hbmWrite_keep h
        · exact h
      have h3 : Keep a s3 := State.bump_keep (Keep.ite (fun _ => setMapBit_keep h1) (fun _ => h1))
      clear_value s3
      split
      · exact h
      · exact ih h3

theorem runJob_pair {fuel : Nat} {j k : PackJob} {t : State} (e : runJob fuel j s = (k, t)) (h : Keep a s) : Keep a t := by
  have := runJob_keep (fuel := fuel) (j := j) h; rwa [e] at this

theorem jobEnd_keep {i : Nat} (h : Keep a s) : Keep a (jobEnd i s) := by
  unfold jobEnd
  repeat' first
    | with_reducible assumption
    | with_reducible apply raiseFld_keep
    | with_reducible apply finishWait_keep
    | with_reducible apply State.setJobs_keep
    | with_reducible apply runJob_keep
    | refine runJob_pair (by assumption) ?_
    | with_reducible refine Keep.ite (fun _ => ?_) (fun _ => ?_)
    | with_reducible apply CoreRes.kept_done
    | with_reducible apply KciRes.kept_done
    | extract_lets
    | split

theorem execPackHostJobEnd_keep {job : Nat} (h : Keep a s) : KeepOut a (execPackHostJobEnd job s) := by
  unfold execPackHostJobEnd
  repeat' first
    | with_reducible assumption
    | with_reducible apply jobEnd_keep
    | with_reducible apply KeepOut.next

theorem execPackResume_keep {h' : KciHdr} {job : Nat} {outAddr : Nat} {outLen : Nat} (h : Keep a s) : KeepOut a (execPackResume h' job outAddr outLen s) := by
  unfold execPackResume
  repeat' first
    | with_reducible assumption
    | with_reducible apply kciFail_keep
    | with_reducible refine kci_keep ?_ (fun t ht => ?_)
    | with_reducible apply State.setJobs_keep
    | with_reducible refine Keep.ite (fun _ => ?_) (fun _ => ?_)
    | with_reducible apply KciRes.kept_fail
    | with_reducible apply KciRes.kept_wait
    | with_reducible apply KeepOut.next
    | split

theorem execPackDrop_keep {h' : KciHdr} {job : Nat} (h : Keep a s) : KeepOut a (execPackDrop h' job s) := by
  unfold execPackDrop
  repeat' first
    | with_reducible assumption
    | with_reducible apply kciFail_keep
    | with_reducible apply kciOk_keep
    | with_reducible refine kci_keep ?_ (fun t ht => ?_)
    | with_reducible apply State.setJobs_keep
    | with_reducible refine Keep.ite (fun _ => ?_) (fun _ => ?_)
    | with_reducible apply KciRes.kept_fail
    | with_reducible apply KciRes.kept_ok
    | with_reducible apply KeepOut.next
    | split

theorem replayBlock_keep {r : Replay} {uncorrectable : Bool} (h : Keep a s) : Keep a (replayBlock r uncorrectable s).2.2.2 := by
  unfold replayBlock
  repeat' first
    | with_reducible assumption
    | with_reducible apply State.bump_keep
    | with_reducible refine Keep.ite (fun _ => ?_) (fun _ => ?_)
    | split

theorem replayBlock_pair {r : Replay} {uncorrectable : Bool} {x0} {x1} {x2} {t} (e : replayBlock r uncorrectable s = (x0, x1, x2, t)) (h : Keep a s) : Keep a t := by
  have := replayBlock_keep (r := r) (uncorrectable := uncorrectable) h; rwa [e] at this

theorem replayPush_keep {k : Nat} {r : Replay} {seg : Option Nat} {e : Entry} (h : Keep a s) : Keep a (replayPush k r seg e s) := by
  unfold replayPush
  extract_lets s1 v1
  clear_value v1
  have h1 : Keep a s1 := by
    unfold s1
    repeat' first
      | with_reducible assumption
      | with_reducible apply freeItem_keep
      | with_reducible apply mqPush_keep
      | with_reducible apply State.setFlc_keep
      | with_reducible apply dropOld_keep
      | with_reducible refine Keep.ite (fun _ => ?_) (fun _ => ?_)
  clear_value s1
  repeat' first
    | with_reducible assumption
    | with_reducible apply freeItem_keep
    | with_reducible apply mqPush_keep
    | with_reducible apply State.setFlc_keep
    | with_reducible apply dropOld_keep

theorem replayDeliver_keep {k : Nat} {uncorrectable : Bool} (h : Keep a s) : Keep a (replayDeliver k uncorrectable s) := by
  unfold replayDeliver
  repeat' first
    | with_reducible assumption
    | with_reducible apply seedAlloc_keep
    | refine seedAlloc_pair (by assumption) ?_
    | with_reducible apply bufWrite_keep
    | with_reducible apply replayBlock_keep
    | refine replayBlock_pair (by assumption) ?_
    | with_reducible apply replayPush_keep
    | with_reducible refine Keep.ite (fun _ => ?_) (fun _ => ?_)
    | extract_lets
    | split

theorem execReplayBlockDelivery_keep {replay : Nat} {uncorrectable : Bool} (h : Keep a s) : KeepOut a (execReplayBlockDelivery replay uncorrectable s) := by
  unfold execReplayBlockDelivery
  repeat' first
    | with_reducible assumption
    | with_reducible apply replayDeliver_keep
    | with_reducible apply KeepOut.next

theorem execCfgStage_keep {h' : KciHdr} {target : Nat} {offset : Nat} {len : Nat} {data : List Byte} (h : Keep a s) : KeepOut a (execCfgStage h' target offset len data s) := by
  unfold execCfgStage
  repeat' first
    | with_reducible assumption
    | with_reducible apply kciFail_keep
    | with_reducible apply kciOk_keep
    | with_reducible refine kci_keep ?_ (fun t ht => ?_)
    | with_reducible refine Keep.ite (fun _ => ?_) (fun _ => ?_)
    | with_reducible apply KciRes.kept_fail
    | with_reducible apply KciRes.kept_ok
    | with_reducible apply KeepOut.next
    | extract_lets
    | split
    | dsimp only
    | intro t ht
    | with_reducible refine Keep.mk_same rfl rfl rfl rfl rfl rfl rfl rfl ?_

theorem commitNode_keep {n : Nat} {bs : List (Nat × Byte)} (h : Keep a s) : (commitNode n bs s).Kept a := by
  unfold commitNode
  repeat' first
    | with_reducible assumption
    | with_reducible apply State.setNode_keep
    | with_reducible apply dropStage_keep
    | with_reducible apply applyCommit_keep
    | with_reducible apply kciFail_keep
    | with_reducible apply kciOk_keep
    | with_reducible refine Keep.ite (fun _ => ?_) (fun _ => ?_)
    | with_reducible apply KciRes.kept_fail
    | with_reducible apply KciRes.kept_ok
    | with_reducible apply KciRes.kept_wait
    | extract_lets
    | split

theorem commitRx_keep {n : Nat} {bs : List (Nat × Byte)} (h : Keep a s) : (commitRx n bs s).Kept a := by
  unfold commitRx
  cases mapFind? n s.net.rx with
  | none => exact KciRes.kept_fail h
  | some x =>
    dsimp -zeta only
    extract_lets raw b
    clear_value raw b
    split
    · exact KciRes.kept_fail h
    split
    · exact KciRes.kept_fail h
    · exact KciRes.kept_ok (dropStage_keep (joinKey_keep (joinKey_keep (State.setNet_keep h))))

theorem commitTx_keep {n : Nat} {bs : List (Nat × Byte)} (h : Keep a s) : (commitTx n bs s).Kept a := by
  unfold commitTx
  cases mapFind? n s.net.tx with
  | none => exact KciRes.kept_fail h
  | some x =>
    dsimp -zeta only
    extract_lets raw b
    clear_value raw b
    split
    · exact KciRes.kept_fail h
    split
    · exact KciRes.kept_fail h
    · exact KciRes.kept_ok (dropStage_keep (State.setNet_keep h))

theorem commitBlock_keep {id : Nat} {x : Stage} (h : Keep a s) : (commitBlock id x s).Kept a := by
  unfold commitBlock
  repeat' first
    | with_reducible assumption
    | with_reducible apply kciFail_keep
    | with_reducible apply kciOk_keep
    | with_reducible apply commitRegs_keep
    | with_reducible apply rfpCommit_keep
    | with_reducible refine Keep.ite (fun _ => ?_) (fun _ => ?_)
    | with_reducible apply KciRes.kept_fail
    | with_reducible apply KciRes.kept_ok
    | with_reducible apply KciRes.kept_wait
    | extract_lets
    | split
    | dsimp only
    | with_reducible refine Keep.mk_same rfl rfl rfl rfl rfl rfl rfl rfl ?_

theorem commitTarget_keep {t' : Nat} {x : Stage} (h : Keep a s) : (commitTarget t' x s).Kept a := by
  unfold commitTarget
  repeat' first
    | with_reducible assumption
    | with_reducible apply commitNode_keep
    | with_reducible apply commitRx_keep
    | with_reducible apply commitTx_keep
    | with_reducible apply commitBlock_keep
    | extract_lets
    | split

theorem execCfgCommit_keep {h' : KciHdr} {target : Nat} (h : Keep a s) : KeepOut a (execCfgCommit h' target s) := by
  unfold execCfgCommit
  repeat' first
    | with_reducible assumption
    | with_reducible apply kciFail_keep
    | with_reducible refine kci_keep ?_ (fun t ht => ?_)
    | with_reducible apply commitTarget_keep
    | with_reducible refine Keep.ite (fun _ => ?_) (fun _ => ?_)
    | with_reducible apply KciRes.kept_fail
    | with_reducible apply KeepOut.next
    | split

theorem execCfgCommitDiscard_keep {h' : KciHdr} {target : Nat} (h : Keep a s) : KeepOut a (execCfgCommitDiscard h' target s) := by
  unfold execCfgCommitDiscard
  repeat' first
    | with_reducible assumption
    | with_reducible apply dropStage_keep
    | with_reducible apply kciFail_keep
    | with_reducible apply kciOk_keep
    | with_reducible refine kci_keep ?_ (fun t ht => ?_)
    | with_reducible refine Keep.ite (fun _ => ?_) (fun _ => ?_)
    | with_reducible apply KciRes.kept_fail
    | with_reducible apply KciRes.kept_ok
    | with_reducible apply KeepOut.next
    | split

theorem closeBlock_keep {id : Nat} (h : Keep a s) : Keep a (closeBlock id s) := by
  unfold closeBlock
  repeat' first
    | with_reducible assumption
    | with_reducible apply finishWait_keep
    | with_reducible apply dropStage_keep

end Sys2Proof.Machine
end

