-- ==== Sys2Proof/Laws/KeepHost.lean ====
section
/-!
SUPPORT. Laws/KeepHost.lean: every operation of time, boot, graphs, register access and peer links keeps what Keep names.
-/

namespace Sys2Proof.Machine

variable {a s : State}

theorem State.setTime_keep {f : TimeSt → TimeSt} (h : Keep a s) : Keep a (State.setTime s f) := by
  unfold State.setTime
  repeat' first
    | with_reducible assumption
    | dsimp only
    | with_reducible refine Keep.mk_same rfl rfl rfl rfl rfl rfl rfl rfl ?_

theorem followRef_keep (h : Keep a s) : Keep a (followRef s) := by
  unfold followRef
  repeat' first
    | with_reducible assumption
    | with_reducible apply State.draw_keep
    | refine State.draw_pair (by assumption) ?_
    | with_reducible apply State.setTime_keep

theorem holdRate_keep (h : Keep a s) : Keep a (holdRate s) := by
  unfold holdRate
  repeat' first
    | with_reducible assumption
    | with_reducible apply State.setTime_keep
    | with_reducible apply followRef_keep
    | with_reducible refine Keep.ite (fun _ => ?_) (fun _ => ?_)
    | split

theorem enterAcquire_keep (h : Keep a s) : Keep a (enterAcquire s) := by
  unfold enterAcquire
  repeat' first
    | with_reducible assumption
    | with_reducible apply State.setTime_keep

theorem enterHoldover_keep {cause : Nat} (h : Keep a s) : Keep a (enterHoldover cause s) := by
  unfold enterHoldover
  extract_lets s1
  have h1 : Keep a s1 := by
    unfold s1
    repeat' first
      | with_reducible assumption
      | with_reducible apply State.setTime_keep
  clear_value s1
  repeat' first
    | with_reducible assumption
    | with_reducible apply State.setTime_keep
    | with_reducible apply holdRate_keep
    | with_reducible refine Keep.ite (fun _ => ?_) (fun _ => ?_)

theorem referenceLost_keep (h : Keep a s) : Keep a (referenceLost s) := by
  unfold referenceLost
  repeat' first
    | with_reducible assumption
    | with_reducible apply enterHoldover_keep
    | split

theorem stepTo_keep {t' : Nat} (h : Keep a s) : Keep a (stepTo t' s) := by
  unfold stepTo
  extract_lets v1 s1 v2 s2
  clear_value v1 v2
  have h1 : Keep a s1 := by
    unfold s1
    repeat' first
      | with_reducible assumption
      | with_reducible apply beatsStep_keep
      | with_reducible apply radioStep_keep
      | with_reducible apply segmentStep_keep
      | with_reducible apply State.setTime_keep
  clear_value s1
  have h2 : Keep a s2 := by
    unfold s2
    repeat' first
      | with_reducible assumption
      | with_reducible apply beatsStep_keep
      | with_reducible apply radioStep_keep
      | with_reducible apply segmentStep_keep
      | with_reducible apply State.setTime_keep
      | with_reducible refine Keep.ite (fun _ => ?_) (fun _ => ?_)
  clear_value s2
  repeat' first
    | with_reducible assumption
    | with_reducible apply beatsStep_keep
    | with_reducible apply radioStep_keep
    | with_reducible apply segmentStep_keep

theorem stepBy_keep {d : Int} (h : Keep a s) : Keep a (stepBy d s) := by
  unfold stepBy
  repeat' first
    | with_reducible assumption
    | with_reducible apply stepTo_keep

theorem refuse_keep (h : Keep a s) : Keep a (refuse s) := by
  unfold refuse
  repeat' first
    | with_reducible assumption
    | with_reducible apply raiseFld_keep
    | with_reducible apply enterHoldover_keep

theorem filterOffset_keep (h : Keep a s) : Keep a (filterOffset s).2 := by
  unfold filterOffset
  repeat' first
    | with_reducible assumption
    | with_reducible apply State.setFld_keep
    | with_reducible apply State.draw_keep

theorem filterOffset_pair  {x0} {t} (e : filterOffset s = (x0, t)) (h : Keep a s) : Keep a t := by
  have := filterOffset_keep  h; rwa [e] at this

theorem updateAcquire_keep (h : Keep a s) : Keep a (updateAcquire s) := by
  unfold updateAcquire
  repeat' first
    | with_reducible assumption
    | with_reducible apply State.draw_keep
    | refine State.draw_pair (by assumption) ?_
    | with_reducible apply State.setTime_keep
    | with_reducible apply stepBy_keep
    | with_reducible apply filterOffset_keep
    | refine filterOffset_pair (by assumption) ?_
    | with_reducible refine Keep.ite (fun _ => ?_) (fun _ => ?_)

theorem updateLocked_keep (h : Keep a s) : Keep a (updateLocked s) := by
  unfold updateLocked
  repeat' first
    | with_reducible assumption
    | with_reducible apply State.draw_keep
    | refine State.draw_pair (by assumption) ?_
    | with_reducible apply State.setTime_keep
    | with_reducible apply filterOffset_keep

theorem updateHoldover_keep {off : Int} (h : Keep a s) : Keep a (updateHoldover off s) := by
  unfold updateHoldover
  extract_lets v1 s1
  clear_value v1
  have h1 : Keep a s1 := by
    unfold s1
    repeat' first
      | with_reducible assumption
      | with_reducible apply State.setTime_keep
      | with_reducible apply enterAcquire_keep
      | with_reducible apply stepBy_keep
      | with_reducible apply refuse_keep
      | with_reducible apply filterOffset_keep
  clear_value s1
  repeat' first
    | with_reducible assumption
    | with_reducible apply State.setTime_keep
    | with_reducible apply enterAcquire_keep
    | with_reducible apply stepBy_keep
    | with_reducible apply refuse_keep
    | with_reducible apply filterOffset_keep
    | refine filterOffset_pair (by assumption) ?_
    | with_reducible refine Keep.ite (fun _ => ?_) (fun _ => ?_)

theorem useAuth_keep {a' : StepAuth} {off : Int} (h : Keep a s) : Keep a (useAuth a' off s) := by
  unfold useAuth
  repeat' first
    | with_reducible assumption
    | with_reducible apply State.setTime_keep
    | with_reducible apply enterAcquire_keep
    | with_reducible apply stepBy_keep
    | with_reducible apply finishWait_keep
    | with_reducible apply refuse_keep
    | with_reducible refine Keep.ite (fun _ => ?_) (fun _ => ?_)
    | with_reducible refine Keep.foldl ?_ (fun t x ht => ?_)
    | (intro c hc; first | exact hc | (simp; done) | (simpa using hc))
    | extract_lets
    | split
    | dsimp only
    | with_reducible refine Keep.mk_same rfl rfl rfl rfl rfl rfl rfl rfl ?_

theorem measure_keep {off : Int} (h : Keep a s) : Keep a (measure off s) := by
  unfold measure
  repeat' first
    | with_reducible assumption
    | with_reducible apply enterAcquire_keep
    | with_reducible apply stepBy_keep
    | with_reducible apply refuse_keep
    | with_reducible apply filterOffset_keep
    | refine filterOffset_pair (by assumption) ?_
    | with_reducible apply updateAcquire_keep
    | with_reducible apply updateLocked_keep
    | with_reducible apply updateHoldover_keep
    | with_reducible apply useAuth_keep
    | with_reducible refine Keep.ite (fun _ => ?_) (fun _ => ?_)
    | exact fun _ hc => hc
    | split

theorem restartCounts_keep (h : Keep a s) : Keep a (restartCounts s) := by
  unfold restartCounts
  repeat' first
    | with_reducible assumption
    | with_reducible apply State.setTime_keep

theorem servoUpdate_keep {p : Nat} {offset : Int} (h : Keep a s) : Keep a (servoUpdate p offset s) := by
  unfold servoUpdate
  repeat' first
    | with_reducible assumption
    | with_reducible apply measure_keep
    | with_reducible refine Keep.ite (fun _ => ?_) (fun _ => ?_)
    | with_reducible refine Keep.foldl ?_ (fun t x ht => ?_)
    | (intro c hc; first | exact hc | (simp; done) | (simpa using hc))
    | extract_lets
    | split
    | dsimp only

theorem execServoUpdate_keep {port : Nat} {offset : Int} (h : Keep a s) : KeepOut a (execServoUpdate port offset s) := by
  unfold execServoUpdate
  repeat' first
    | with_reducible assumption
    | with_reducible apply servoUpdate_keep
    | with_reducible apply KeepOut.next

theorem pathStep_keep (h : Keep a s) : Keep a (pathStep s) := by
  unfold pathStep
  extract_lets s1
  have h1 : Keep a s1 := by
    unfold s1
    repeat' first
      | with_reducible assumption
      | with_reducible apply raiseFld_keep
  clear_value s1
  repeat' first
    | with_reducible assumption
    | with_reducible apply raiseFld_keep
    | with_reducible apply State.setTime_keep
    | with_reducible apply enterAcquire_keep
    | with_reducible refine Keep.ite (fun _ => ?_) (fun _ => ?_)
    | extract_lets
    | split

theorem delayExchange_keep {p : Nat} {delay : Nat} {lost : Bool} (h : Keep a s) : Keep a (delayExchange p delay lost s) := by
  unfold delayExchange
  extract_lets v1 v2 v3 s1 s2 v4
  clear_value v1 v2 v3 v4
  have h1 : Keep a s1 := by
    unfold s1
    repeat' first
      | with_reducible assumption
      | with_reducible apply State.setFld_keep
      | with_reducible apply State.setTime_keep
  clear_value s1
  have h2 : Keep a s2 := by
    unfold s2
    repeat' first
      | with_reducible assumption
      | with_reducible apply State.setFld_keep
  clear_value s2
  repeat' first
    | with_reducible assumption
    | with_reducible apply State.setFld_keep
    | with_reducible apply State.setTime_keep
    | with_reducible apply pathStep_keep
    | with_reducible refine Keep.ite (fun _ => ?_) (fun _ => ?_)
    | with_reducible refine Keep.foldl ?_ (fun t x ht => ?_)
    | extract_lets
    | split

theorem execDelayReqExchange_keep {port : Nat} {delay : Nat} {lost : Bool} (h : Keep a s) : KeepOut a (execDelayReqExchange port delay lost s) := by
  unfold execDelayReqExchange
  repeat' first
    | with_reducible assumption
    | with_reducible apply delayExchange_keep
    | with_reducible apply KeepOut.next

theorem execPathHoldElapsed_keep (h : Keep a s) : KeepOut a (execPathHoldElapsed s) := by
  unfold execPathHoldElapsed
  repeat' first
    | with_reducible assumption
    | with_reducible apply advanceSince_keep
    | with_reducible apply enterAcquire_keep
    | with_reducible refine Keep.ite (fun _ => ?_) (fun _ => ?_)
    | with_reducible apply KeepOut.next

theorem reselect_keep {was : Option Nat} {wasGm : Option Nat} (h : Keep a s) : Keep a (reselect was wasGm s) := by
  unfold reselect
  extract_lets v1 v2 v3 s1 s2
  have h1 : Keep a s1 := by
    unfold s1
    repeat' first
      | with_reducible assumption
      | with_reducible apply State.setTime_keep
      | with_reducible apply referenceLost_keep
      | with_reducible apply restartCounts_keep
      | with_reducible refine Keep.ite (fun _ => ?_) (fun _ => ?_)
      | with_reducible refine Keep.foldl ?_ (fun t x ht => ?_)
      | (intro c hc; first | exact hc | (simp; done) | (simpa using hc))
      | extract_lets
      | split
      | dsimp only
      | with_reducible refine Keep.mk_same rfl rfl rfl rfl rfl rfl rfl rfl ?_
  clear_value s1
  have h2 : Keep a s2 := by
    unfold s2
    repeat' first
      | with_reducible assumption
      | with_reducible apply State.setTime_keep
      | with_reducible apply referenceLost_keep
      | with_reducible apply restartCounts_keep
      | with_reducible refine Keep.ite (fun _ => ?_) (fun _ => ?_)
      | with_reducible refine Keep.foldl ?_ (fun t x ht => ?_)
      | (intro c hc; first | exact hc | (simp; done) | (simpa using hc))
      | extract_lets
      | split
      | dsimp only
      | with_reducible refine Keep.mk_same rfl rfl rfl rfl rfl rfl rfl rfl ?_
  clear_value s2
  repeat' first
    | with_reducible assumption
    | with_reducible apply State.setTime_keep
    | with_reducible apply referenceLost_keep
    | with_reducible apply restartCounts_keep
    | with_reducible refine Keep.ite (fun _ => ?_) (fun _ => ?_)
    | with_reducible refine Keep.foldl ?_ (fun t x ht => ?_)
    | (intro c hc; first | exact hc | (simp; done) | (simpa using hc))
    | extract_lets
    | split
    | dsimp only
    | with_reducible refine Keep.mk_same rfl rfl rfl rfl rfl rfl rfl rfl ?_

theorem announce_keep {p : Nat} {a' : Announce} (h : Keep a s) : Keep a (announce p a' s) := by
  unfold announce
  extract_lets v1 v2
  clear_value v1 v2
  repeat' first
    | with_reducible assumption
    | with_reducible apply State.setTime_keep
    | with_reducible apply reselect_keep
    | with_reducible refine Keep.ite (fun _ => ?_) (fun _ => ?_)

theorem execAnnounceReceived_keep {port : Nat} {ann : Announce} (h : Keep a s) : KeepOut a (execAnnounceReceived port ann s) := by
  unfold execAnnounceReceived
  repeat' first
    | with_reducible assumption
    | with_reducible apply announce_keep
    | with_reducible apply KeepOut.next

theorem announceTimeout_keep {p : Nat} (h : Keep a s) : Keep a (announceTimeout p s) := by
  unfold announceTimeout
  extract_lets v1 v2 s1 s2
  clear_value v1 v2
  have h1 : Keep a s1 := by
    unfold s1
    repeat' first
      | with_reducible assumption
      | with_reducible apply State.setTime_keep
  clear_value s1
  have h2 : Keep a s2 := by
    unfold s2
    repeat' first
      | with_reducible assumption
      | with_reducible apply State.setTime_keep
      | with_reducible apply referenceLost_keep
      | with_reducible apply restartCounts_keep
      | with_reducible apply reselect_keep
      | with_reducible refine Keep.ite (fun _ => ?_) (fun _ => ?_)
  clear_value s2
  repeat' first
    | with_reducible assumption
    | with_reducible apply State.setTime_keep
    | with_reducible apply referenceLost_keep
    | with_reducible apply restartCounts_keep
    | with_reducible apply reselect_keep
    | with_reducible refine Keep.ite (fun _ => ?_) (fun _ => ?_)

theorem execAnnounceReceiptTimeout_keep {port : Nat} (h : Keep a s) : KeepOut a (execAnnounceReceiptTimeout port s) := by
  unfold execAnnounceReceiptTimeout
  repeat' first
    | with_reducible assumption
    | with_reducible apply announceTimeout_keep
    | with_reducible apply KeepOut.next

theorem ptpTransmit_keep {p : Nat} (h : Keep a s) : Keep a (ptpTransmit p s) := by
  unfold ptpTransmit
  repeat' first
    | with_reducible assumption
    | with_reducible apply svcBack_keep
    | with_reducible apply State.emit_keep
    | with_reducible refine Keep.ite (fun _ => ?_) (fun _ => ?_)
    | with_reducible refine Keep.foldl ?_ (fun t x ht => ?_)
    | (intro c hc; first | exact hc | (simp; done) | (simpa using hc))
    | extract_lets
    | split
    | dsimp only

theorem execPtpMasterTransmit_keep {port : Nat} (h : Keep a s) : KeepOut a (execPtpMasterTransmit port s) := by
  unfold execPtpMasterTransmit
  repeat' first
    | with_reducible assumption
    | with_reducible apply ptpTransmit_keep
    | with_reducible apply KeepOut.next

theorem refWindow_keep {ppb : Int} (h : Keep a s) : Keep a (refWindow ppb s) := by
  unfold refWindow
  extract_lets s1
  have h1 : Keep a s1 := by
    unfold s1
    repeat' first
      | with_reducible assumption
      | with_reducible apply State.setTime_keep
  clear_value s1
  repeat' first
    | with_reducible assumption
    | with_reducible apply State.setTime_keep
    | with_reducible apply holdRate_keep
    | with_reducible refine Keep.ite (fun _ => ?_) (fun _ => ?_)

theorem execRef10mWindow_keep {ppb : Int} (h : Keep a s) : KeepOut a (execRef10mWindow ppb s) := by
  unfold execRef10mWindow
  repeat' first
    | with_reducible assumption
    | with_reducible apply refWindow_keep
    | with_reducible apply KeepOut.next

theorem ppsEdge_keep (h : Keep a s) : Keep a (ppsEdge s) := by
  unfold ppsEdge
  extract_lets v1 v2 s1
  clear_value v1 v2
  have h1 : Keep a s1 := by
    unfold s1
    repeat' first
      | with_reducible assumption
      | with_reducible apply State.setTime_keep
  clear_value s1
  repeat' first
    | with_reducible assumption
    | with_reducible apply State.setTime_keep
    | with_reducible apply measure_keep
    | with_reducible refine Keep.ite (fun _ => ?_) (fun _ => ?_)

theorem execPpsInEdge_keep (h : Keep a s) : KeepOut a (execPpsInEdge s) := by
  unfold execPpsInEdge
  repeat' first
    | with_reducible assumption
    | with_reducible apply ppsEdge_keep
    | with_reducible apply KeepOut.next

theorem ppsLoss_keep (h : Keep a s) : Keep a (ppsLoss s) := by
  unfold ppsLoss
  extract_lets s1
  have h1 : Keep a s1 := by
    unfold s1
    repeat' first
      | with_reducible assumption
      | with_reducible apply State.setTime_keep
  clear_value s1
  repeat' first
    | with_reducible assumption
    | with_reducible apply State.setTime_keep
    | with_reducible apply referenceLost_keep
    | with_reducible refine Keep.ite (fun _ => ?_) (fun _ => ?_)

theorem execPpsInLoss_keep (h : Keep a s) : KeepOut a (execPpsInLoss s) := by
  unfold execPpsInLoss
  repeat' first
    | with_reducible assumption
    | with_reducible apply ppsLoss_keep
    | with_reducible apply KeepOut.next

theorem ppsRise_keep (h : Keep a s) : Keep a (ppsRise s) := by
  unfold ppsRise
  repeat' first
    | with_reducible assumption
    | with_reducible apply State.setTime_keep
    | with_reducible apply State.emit_keep
    | with_reducible refine Keep.ite (fun _ => ?_) (fun _ => ?_)
    | with_reducible refine Keep.foldl ?_ (fun t x ht => ?_)
    | (intro c hc; first | exact hc | (simp; done) | (simpa using hc))
    | extract_lets
    | split
    | dsimp only
    | with_reducible refine Keep.mk_same rfl rfl rfl rfl rfl rfl rfl rfl ?_

theorem execPpsOutPulse_keep (h : Keep a s) : KeepOut a (execPpsOutPulse s) := by
  unfold execPpsOutPulse
  repeat' first
    | with_reducible assumption
    | with_reducible apply ppsRise_keep
    | with_reducible apply advanceTo_keep
    | with_reducible refine Keep.ite (fun _ => ?_) (fun _ => ?_)
    | with_reducible refine Keep.foldl ?_ (fun t x ht => ?_)
    | (intro c hc; first | exact hc | (simp; done) | (simpa using hc))
    | with_reducible apply KeepOut.next
    | extract_lets
    | split
    | dsimp only

theorem timeCtlWritten_keep {wasSrc : Nat} {wasRef : Bool} (h : Keep a s) : Keep a (timeCtlWritten wasSrc wasRef s) := by
  unfold timeCtlWritten
  extract_lets v1 s1
  have h1 : Keep a s1 := by
    unfold s1
    repeat' first
      | with_reducible assumption
      | with_reducible apply State.setTime_keep
      | with_reducible apply restartCounts_keep
      | with_reducible apply enterAcquire_keep
      | with_reducible apply holdRate_keep
      | with_reducible refine Keep.ite (fun _ => ?_) (fun _ => ?_)
      | with_reducible refine Keep.foldl ?_ (fun t x ht => ?_)
      | (intro c hc; first | exact hc | (simp; done) | (simpa using hc))
      | extract_lets
      | split
      | dsimp only
      | with_reducible refine Keep.mk_same rfl rfl rfl rfl rfl rfl rfl rfl ?_
  clear_value s1
  repeat' first
    | with_reducible assumption
    | with_reducible apply State.setTime_keep
    | with_reducible apply restartCounts_keep
    | with_reducible apply enterAcquire_keep
    | with_reducible apply holdRate_keep
    | with_reducible refine Keep.ite (fun _ => ?_) (fun _ => ?_)
    | with_reducible refine Keep.foldl ?_ (fun t x ht => ?_)
    | (intro c hc; first | exact hc | (simp; done) | (simpa using hc))
    | extract_lets
    | split
    | dsimp only
    | with_reducible refine Keep.mk_same rfl rfl rfl rfl rfl rfl rfl rfl ?_

theorem execTimeSet_keep {h' : KciHdr} {sec : Nat} {ns : Nat} (h : Keep a s) : KeepOut a (execTimeSet h' sec ns s) := by
  unfold execTimeSet
  repeat' first
    | with_reducible assumption
    | with_reducible apply kciFail_keep
    | with_reducible apply kciOk_keep
    | with_reducible refine kci_keep ?_ (fun t ht => ?_)
    | with_reducible apply stepTo_keep
    | with_reducible refine Keep.ite (fun _ => ?_) (fun _ => ?_)
    | with_reducible apply KciRes.kept_fail
    | with_reducible apply KciRes.kept_ok
    | with_reducible apply KeepOut.next
    | split

theorem execTimeSetRate_keep {h' : KciHdr} {rate : Int} (h : Keep a s) : KeepOut a (execTimeSetRate h' rate s) := by
  unfold execTimeSetRate
  repeat' first
    | with_reducible assumption
    | with_reducible apply kciFail_keep
    | with_reducible apply kciOk_keep
    | with_reducible refine kci_keep ?_ (fun t ht => ?_)
    | with_reducible apply State.setTime_keep
    | with_reducible refine Keep.ite (fun _ => ?_) (fun _ => ?_)
    | with_reducible apply KciRes.kept_fail
    | with_reducible apply KciRes.kept_ok
    | with_reducible apply KeepOut.next
    | split

theorem execTimeStepAuth_keep {h' : KciHdr} {limit : Nat} (h : Keep a s) : KeepOut a (execTimeStepAuth h' limit s) := by
  unfold execTimeStepAuth
  repeat' first
    | with_reducible assumption
    | with_reducible apply kciFail_keep
    | with_reducible refine kci_keep ?_ (fun t ht => ?_)
    | with_reducible apply State.setTime_keep
    | with_reducible refine Keep.ite (fun _ => ?_) (fun _ => ?_)
    | with_reducible apply KciRes.kept_fail
    | with_reducible apply KciRes.kept_wait
    | with_reducible apply KeepOut.next
    | split

theorem execTimeConfig_keep {h' : KciHdr} {len : Nat} {cfg : PtpConfig} (h : Keep a s) : KeepOut a (execTimeConfig h' len cfg s) := by
  unfold execTimeConfig
  repeat' first
    | with_reducible assumption
    | with_reducible apply kciOk_keep
    | with_reducible refine kci_keep ?_ (fun t ht => ?_)
    | with_reducible apply State.setTime_keep
    | with_reducible apply reselect_keep
    | with_reducible refine Keep.ite (fun _ => ?_) (fun _ => ?_)
    | with_reducible apply KciRes.kept_ok
    | with_reducible apply KeepOut.next
    | extract_lets
    | split

theorem execPorstNAssert_keep {bootSel : Bool} {tjBelow110 : Bool} (h : Keep a s) : KeepOut a (execPorstNAssert bootSel tjBelow110 s) := by
  unfold execPorstNAssert
  repeat' first
    | with_reducible assumption
    | with_reducible apply coldReset_keep
    | with_reducible apply KeepOut.next

theorem sysReset_keep {bootSel : Bool} (h : Keep a s) : Keep a (sysReset bootSel s) := by
  unfold sysReset
  extract_lets v1
  repeat' first
    | with_reducible assumption
    | with_reducible apply warmReset_keep
    | with_reducible refine Keep.ite (fun _ => ?_) (fun _ => ?_)
    | refine Keep.glb ?_ (le_refl _) (fun _ x => x)

theorem execSysrstNAssert_keep {bootSel : Bool} (h : Keep a s) : KeepOut a (execSysrstNAssert bootSel s) := by
  unfold execSysrstNAssert
  repeat' first
    | with_reducible assumption
    | with_reducible apply sysReset_keep
    | with_reducible apply KeepOut.next

theorem glbRstWritten_keep {val : Word} (h : Keep a s) : Keep a (glbRstWritten val s) := by
  unfold glbRstWritten
  repeat' first
    | with_reducible assumption
    | with_reducible apply warmReset_keep
    | with_reducible refine Keep.ite (fun _ => ?_) (fun _ => ?_)

theorem execGlbRstSysWrite_keep {_path : BusPath} {val : Word} (h : Keep a s) : KeepOut a (execGlbRstSysWrite _path val s) := by
  unfold execGlbRstSysWrite
  repeat' first
    | with_reducible assumption
    | with_reducible apply glbRstWritten_keep
    | with_reducible apply KeepOut.next

theorem aonLost_keep (h : Keep a s) : Keep a (aonLost s) := by
  unfold aonLost
  extract_lets s1
  have h1 : Keep a s1 := by
    unfold s1
    repeat' first
      | with_reducible assumption
      | with_reducible apply coldReset_keep
  clear_value s1
  repeat' first
    | with_reducible assumption
    | with_reducible apply coldReset_keep
    | extract_lets
    | dsimp only
    | with_reducible refine Keep.mk_same rfl rfl rfl rfl rfl rfl rfl rfl ?_

theorem execVddAonRemoval_keep (h : Keep a s) : KeepOut a (execVddAonRemoval s) := by
  unfold execVddAonRemoval
  repeat' first
    | with_reducible assumption
    | with_reducible apply aonLost_keep
    | with_reducible apply KeepOut.next

theorem bootFrom_keep {pushed : Bool} {x : BootImage} (h : Keep a s) : Keep a (bootFrom pushed x s) := by
  unfold bootFrom
  extract_lets s1 s2 s3 v1
  have h1 : Keep a s1 := by
    unfold s1
    repeat' first
      | with_reducible assumption
      | with_reducible apply State.setFld_keep
  clear_value s1
  have h2 : Keep a s2 := by
    unfold s2
    repeat' first
      | with_reducible assumption
      | with_reducible apply State.setFld_keep
  clear_value s2
  have h3 : Keep a s3 := by
    unfold s3
    repeat' first
      | with_reducible assumption
      | with_reducible apply State.setFld_keep
      | with_reducible refine Keep.ite (fun _ => ?_) (fun _ => ?_)
  clear_value s3
  repeat' first
    | with_reducible assumption
    | with_reducible apply State.setFld_keep
    | with_reducible refine Keep.ite (fun _ => ?_) (fun _ => ?_)
    | refine Keep.glb ?_ (le_refl _) (fun _ x => x)

theorem bootFails_keep {code : Nat} (h : Keep a s) : Keep a (bootFails code s) := by
  unfold bootFails
  extract_lets s1 v1
  have h1 : Keep a s1 := by
    unfold s1
    repeat' first
      | with_reducible assumption
      | with_reducible apply State.setFld_keep
  clear_value s1
  repeat' first
    | with_reducible assumption
    | with_reducible apply State.setFld_keep
    | refine Keep.glb ?_ (le_refl _) (fun _ x => x)

theorem imageLoaded_keep {copy0 : BootImage} {copy1 : BootImage} (h : Keep a s) : Keep a (imageLoaded copy0 copy1 s) := by
  unfold imageLoaded
  repeat' first
    | with_reducible assumption
    | with_reducible apply State.setFld_keep
    | with_reducible apply bootFrom_keep
    | with_reducible apply bootFails_keep
    | with_reducible refine Keep.ite (fun _ => ?_) (fun _ => ?_)
    | split

theorem pushImage_keep {x : BootImage} (h : Keep a s) : Keep a (pushImage x s) := by
  unfold pushImage
  extract_lets v1
  repeat' first
    | with_reducible assumption
    | with_reducible apply State.setFld_keep
    | with_reducible refine Keep.ite (fun _ => ?_) (fun _ => ?_)
    | refine Keep.glb ?_ (le_refl _) (fun _ x => x)

theorem execHifBootPushGo_keep {_path : BusPath} {val : Word} {img : BootImage} (h : Keep a s) : KeepOut a (execHifBootPushGo _path val img s) := by
  unfold execHifBootPushGo
  repeat' first
    | with_reducible assumption
    | with_reducible apply pushImage_keep
    | with_reducible refine Keep.ite (fun _ => ?_) (fun _ => ?_)
    | with_reducible apply KeepOut.next

theorem hbmImage_keep (h : Keep a s) : Keep a (hbmImage s).2 := by
  unfold hbmImage
  extract_lets v1 v2
  clear_value v1 v2
  repeat' first
    | with_reducible assumption
    | with_reducible apply State.draw_keep

theorem hbmImage_pair  {x0} {t} (e : hbmImage s = (x0, t)) (h : Keep a s) : Keep a t := by
  have := hbmImage_keep  h; rwa [e] at this

theorem bootPushWritten_keep {val : Word} (h : Keep a s) : Keep a (bootPushWritten val s) := by
  unfold bootPushWritten
  extract_lets v1
  repeat' first
    | with_reducible assumption
    | with_reducible apply pushImage_keep
    | with_reducible apply hbmImage_keep
    | refine hbmImage_pair (by assumption) ?_
    | with_reducible refine Keep.ite (fun _ => ?_) (fun _ => ?_)

theorem nextStep_keep {hbmOk : Bool} {refs : Nat} {copy0 copy1 : BootImage} (h : Keep a s) : Keep a (nextStep hbmOk refs copy0 copy1 s) := by
  unfold nextStep
  split
  · exact State.setFld_keep (State.setFld_keep (State.setFld_keep h))
  · exact State.setFld_keep (State.setFld_keep h)
  · exact State.setFld_keep (State.setFld_keep (Keep.glb h (le_refl _) (fun _ x => x)))
  · exact Keep.ite (fun _ => h) (fun _ => Keep.ite (fun _ => State.setFld_keep h) (fun _ => State.setFld_keep h))
  · exact imageLoaded_keep h
  · exact Keep.ite (fun _ => h) (fun _ => State.setFld_keep (Keep.glb (State.setFld_keep h) (le_refl _) (fun _ x => x)))
  · exact h

theorem bringup_keep {hbmOk : Bool} {refs : Nat} {copy0 : BootImage} {copy1 : BootImage} (h : Keep a s) : Keep a (bringup hbmOk refs copy0 copy1 s) := by
  unfold bringup
  repeat' first
    | with_reducible assumption
    | with_reducible apply nextStep_keep
    | with_reducible refine Keep.ite (fun _ => ?_) (fun _ => ?_)

theorem execBringupStepComplete_keep {hbmOk : Bool} {refs : Nat} {copy0 : BootImage} {copy1 : BootImage} (h : Keep a s) : KeepOut a (execBringupStepComplete hbmOk refs copy0 copy1 s) := by
  unfold execBringupStepComplete
  repeat' first
    | with_reducible assumption
    | with_reducible apply bringup_keep
    | with_reducible apply KeepOut.next

theorem pllLocked_keep {pll : Nat} (h : Keep a s) : Keep a (pllLocked pll s) := by
  unfold pllLocked
  extract_lets v1
  repeat' first
    | with_reducible assumption
    | with_reducible apply State.setFld_keep
    | with_reducible refine Keep.ite (fun _ => ?_) (fun _ => ?_)
    | refine Keep.glb ?_ (le_refl _) (fun _ x => x)

theorem execPllLock_keep {pll : Nat} (h : Keep a s) : KeepOut a (execPllLock pll s) := by
  unfold execPllLock
  repeat' first
    | with_reducible assumption
    | with_reducible apply pllLocked_keep
    | with_reducible apply KeepOut.next

theorem execSysFuseRollback_keep {hd : KciHdr} (h : Keep a s) : KeepOut a (execSysFuseRollback hd s) := by
  refine KeepOut.next (kci_keep h fun t ht => ?_)
  split
  next x _ =>
    split
    · exact KciRes.kept_fail ht
    next hlt => exact KciRes.kept_ok (Keep.glb ht (Nat.le_of_lt (Nat.lt_of_not_le hlt)) (fun _ x => x))
  · exact KciRes.kept_fail ht

theorem execSysFuseRevoke_keep {hd : KciHdr} {slot : Nat} (h : Keep a s) : KeepOut a (execSysFuseRevoke hd slot s) := by
  refine KeepOut.next (kci_keep h fun t ht => ?_)
  dsimp only
  split
  · exact KciRes.kept_fail ht
  · refine KciRes.kept_ok (Keep.glb ht (le_refl _) (fun n hn => ?_))
    rw [mapFind?_insert]
    split
    · rfl
    · exact hn

/-- Every state a load holds is kept. -/
def LoadKept (a : State) (r : LoadRes) : Prop := ∀ t, r = .inr t → Keep a t

theorem LoadKept.inl {e : Nat} : LoadKept a (.inl e) := fun _ h => nomatch h

theorem LoadKept.inr {t : State} (h : Keep a t) : LoadKept a (.inr t) := fun _ e => by cases e; exact h

theorem applyRec_keep {checks : List Check} {f : State → KciRes} (h : Keep a s) (hf : ∀ t, Keep a t → (f t).Kept a) :
    LoadKept a (applyRec checks f s) := by
  unfold applyRec
  split
  · exact LoadKept.inl
  have hk := hf s h
  split <;> rename_i heq <;> rw [heq] at hk
  · split
    · exact LoadKept.inr hk
    · exact LoadKept.inl
  · exact LoadKept.inr hk
  · exact LoadKept.inr hk

theorem applyAll_keep {α : Type} {f : α → State → LoadRes} {l : List α} (h : Keep a s) (hf : ∀ x t, Keep a t → LoadKept a (f x t)) :
    LoadKept a (applyAll f l s) := by
  induction l generalizing s with
  | nil => exact LoadKept.inr h
  | cons x t ih =>
    unfold applyAll
    have hk := hf x s h
    split <;> rename_i heq <;> rw [heq] at hk
    · exact LoadKept.inl
    · exact ih (hk _ rfl)

theorem andThen_keep {r : LoadRes} {f : State → LoadRes} (h : LoadKept a r) (hf : ∀ t, Keep a t → LoadKept a (f t)) :
    LoadKept a (andThen r f) := by
  unfold andThen
  split
  · exact LoadKept.inl
  · exact hf _ (h _ rfl)

theorem writeRange_keep {shared : Bool} {x : GraphBytes} (h : Keep a s) : Keep a (writeRange shared x s) :=
  Keep.foldl h fun t n ht => Keep.updClu ht fun c hc => by
    try dsimp only
    split
    · exact ⟨hc.1, memWriteList_wf _ hc.2 _⟩
    · exact ⟨memWriteList_wf _ hc.1 _, hc.2⟩

theorem loadRange_keep {shared : Bool} {g : Nat} {x : GraphBytes} (h : Keep a s) : LoadKept a (loadRange shared g x s) := by
  unfold loadRange
  repeat' first
    | with_reducible assumption
    | with_reducible apply writeRange_keep
    | with_reducible refine Keep.ite (fun _ => ?_) (fun _ => ?_)
    | exact LoadKept.inl
    | with_reducible apply LoadKept.inr
    | with_reducible refine andThen_keep ?_ (fun t ht => ?_)
    | with_reducible refine applyRec_keep ?_ (fun t ht => ?_)
    | split

theorem State.updGraph_keep {g : Nat} {f : Graph → Graph} (h : Keep a s) : Keep a (State.updGraph s g f) := by
  unfold State.updGraph
  repeat' first
    | with_reducible assumption
    | dsimp only
    | with_reducible refine Keep.mk_same rfl rfl rfl rfl rfl rfl rfl rfl ?_

theorem loadAccount_keep {g : Nat} {o : AccountOp} (h : Keep a s) : LoadKept a (loadAccount g o s) := by
  unfold loadAccount
  repeat' first
    | with_reducible assumption
    | with_reducible apply openAccount_keep
    | with_reducible apply State.updGraph_keep
    | with_reducible refine Keep.ite (fun _ => ?_) (fun _ => ?_)
    | exact LoadKept.inl
    | with_reducible apply LoadKept.inr
    | with_reducible refine andThen_keep ?_ (fun t ht => ?_)
    | with_reducible refine applyRec_keep ?_ (fun t ht => ?_)

theorem loadQueue_keep {g : Nat} {o : QueueOp} (h : Keep a s) : LoadKept a (loadQueue g o s) := by
  unfold loadQueue
  repeat' first
    | with_reducible assumption
    | with_reducible apply openQueue_keep
    | with_reducible apply State.updGraph_keep
    | exact LoadKept.inl
    | with_reducible apply LoadKept.inr
    | with_reducible refine andThen_keep ?_ (fun t ht => ?_)
    | with_reducible refine applyRec_keep ?_ (fun t ht => ?_)

theorem loadContext_keep {x : GraphCtx} (h : Keep a s) : LoadKept a (loadContext x s) := by
  unfold loadContext
  repeat' first
    | with_reducible assumption
    | with_reducible apply State.hbmWrite_keep
    | with_reducible refine Keep.ite (fun _ => ?_) (fun _ => ?_)
    | exact LoadKept.inl
    | with_reducible apply LoadKept.inr
    | with_reducible refine andThen_keep ?_ (fun t ht => ?_)
    | with_reducible refine applyRec_keep ?_ (fun t ht => ?_)
    | split

theorem loadNodeRec_keep {g : Nat} {o : NodeOp} (h : Keep a s) : LoadKept a (loadNodeRec g o s) := by
  unfold loadNodeRec
  repeat' first
    | with_reducible assumption
    | with_reducible apply State.setNode_keep
    | with_reducible apply kciFail_keep
    | with_reducible apply kciOk_keep
    | with_reducible apply State.updGraph_keep
    | with_reducible refine Keep.ite (fun _ => ?_) (fun _ => ?_)
    | with_reducible apply KciRes.kept_fail
    | with_reducible apply KciRes.kept_ok
    | exact LoadKept.inl
    | with_reducible apply LoadKept.inr
    | with_reducible refine andThen_keep ?_ (fun t ht => ?_)
    | with_reducible refine applyRec_keep ?_ (fun t ht => ?_)
    | exact fun _ hc => hc
    | extract_lets
    | split

theorem loadMember_keep {m : Nat × Nat} (h : Keep a s) : LoadKept a (loadMember m s) := by
  unfold loadMember
  repeat' first
    | with_reducible assumption
    | with_reducible apply kciFail_keep
    | with_reducible apply joinBeat_keep
    | with_reducible refine Keep.ite (fun _ => ?_) (fun _ => ?_)
    | with_reducible apply KciRes.kept_fail
    | exact LoadKept.inl
    | with_reducible apply LoadKept.inr
    | with_reducible refine andThen_keep ?_ (fun t ht => ?_)
    | with_reducible refine applyRec_keep ?_ (fun t ht => ?_)
    | split

theorem loadBeat_keep {o : BeatOp} (h : Keep a s) : LoadKept a (loadBeat o s) := by
  unfold loadBeat
  repeat' first
    | with_reducible assumption
    | with_reducible apply kciFail_keep
    | with_reducible apply kciOk_keep
    | with_reducible apply setBeat_keep
    | with_reducible refine Keep.ite (fun _ => ?_) (fun _ => ?_)
    | with_reducible apply KciRes.kept_fail
    | with_reducible apply KciRes.kept_ok
    | exact LoadKept.inl
    | with_reducible apply LoadKept.inr
    | with_reducible refine andThen_keep ?_ (fun t ht => ?_)
    | with_reducible refine applyRec_keep ?_ (fun t ht => ?_)
    | split

theorem loadArm_keep {n : Nat} (h : Keep a s) : LoadKept a (loadArm n s) := by
  unfold loadArm
  repeat' first
    | with_reducible assumption
    | with_reducible apply armNode_keep
    | refine armNode_some (by assumption) ?_
    | with_reducible apply kciFail_keep
    | with_reducible apply kciOk_keep
    | with_reducible refine Keep.ite (fun _ => ?_) (fun _ => ?_)
    | with_reducible apply KciRes.kept_fail
    | with_reducible apply KciRes.kept_ok
    | exact LoadKept.inl
    | with_reducible apply LoadKept.inr
    | with_reducible refine andThen_keep ?_ (fun t ht => ?_)
    | with_reducible refine applyRec_keep ?_ (fun t ht => ?_)
    | split

theorem applyImage_keep {g : Nat} {x : GraphImage} (h : Keep a s) : LoadKept a (applyImage g x s) := by
  unfold applyImage
  repeat' first
    | with_reducible assumption
    | with_reducible refine applyAll_keep ?_ (fun x t ht => ?_)
    | with_reducible apply loadRange_keep
    | with_reducible apply loadAccount_keep
    | with_reducible apply loadQueue_keep
    | with_reducible apply loadContext_keep
    | with_reducible apply loadNodeRec_keep
    | with_reducible apply loadMember_keep
    | with_reducible apply loadBeat_keep
    | with_reducible apply loadArm_keep
    | exact LoadKept.inl
    | with_reducible apply LoadKept.inr
    | with_reducible refine andThen_keep ?_ (fun t ht => ?_)
    | with_reducible refine applyRec_keep ?_ (fun t ht => ?_)
    | extract_lets
    | dsimp only
    | intro t ht
    | with_reducible refine Keep.mk_same rfl rfl rfl rfl rfl rfl rfl rfl ?_

theorem graphFault_keep (h : Keep a s) : (graphFault s).Kept a := by
  unfold graphFault
  repeat' first
    | with_reducible assumption
    | refine State.draw_pair (by assumption) ?_
    | with_reducible apply State.draw_keep
    | with_reducible apply kciFail_keep
    | with_reducible apply umpEvent_keep
    | with_reducible refine Keep.ite (fun _ => ?_) (fun _ => ?_)
    | with_reducible refine Keep.foldl ?_ (fun t x ht => ?_)
    | (intro c hc; first | exact hc | (simp; done) | (simpa using hc))
    | with_reducible apply KciRes.kept_fail
    | with_reducible apply KciRes.kept_ok
    | with_reducible apply KciRes.kept_done
    | with_reducible apply KciRes.kept_wait
    | with_reducible apply KciRes.kept_record
    | extract_lets
    | split
    | dsimp only
    | with_reducible refine Keep.mk_same rfl rfl rfl rfl rfl rfl rfl rfl ?_

theorem execGraphLoad_keep {hd : KciHdr} {graph addr len : Nat} {img : GraphImage} (h : Keep a s) :
    KeepOut a (execGraphLoad hd graph addr len img s) := by
  refine KeepOut.next (kci_keep h fun t ht => ?_)
  split
  · exact ht
  split
  · exact ht
  · next e =>
    split
    · exact applyImage_keep ht _ e
    · exact graphFault_keep ht

theorem execGraphUnload_keep {h' : KciHdr} {graph : Nat} (h : Keep a s) : KeepOut a (execGraphUnload h' graph s) := by
  unfold execGraphUnload
  repeat' first
    | with_reducible assumption
    | with_reducible apply graphStep_keep
    | with_reducible apply cancelNode_keep
    | with_reducible apply kciFail_keep
    | with_reducible apply kciOk_keep
    | with_reducible refine kci_keep ?_ (fun t ht => ?_)
    | with_reducible apply State.updGraph_keep
    | with_reducible refine Keep.ite (fun _ => ?_) (fun _ => ?_)
    | with_reducible refine Keep.foldl ?_ (fun t x ht => ?_)
    | with_reducible apply KciRes.kept_fail
    | with_reducible apply KciRes.kept_ok
    | with_reducible apply KciRes.kept_wait
    | with_reducible apply KeepOut.next
    | exact fun _ hc => hc
    | extract_lets
    | split

theorem execGraphReload_keep {h' : KciHdr} {graph : Nat} {addr : Nat} {len : Nat} {img : GraphImage} (h : Keep a s) : KeepOut a (execGraphReload h' graph addr len img s) := by
  unfold execGraphReload
  repeat' first
    | with_reducible assumption
    | with_reducible apply kci_keep
    | with_reducible apply kciFail_keep
    | with_reducible apply graphFault_keep
    | with_reducible apply kciOk_keep
    | with_reducible apply writeRange_keep
    | with_reducible refine Keep.ite (fun _ => ?_) (fun _ => ?_)
    | with_reducible refine Keep.foldl ?_ (fun t x ht => ?_)
    | (intro c hc; first | exact hc | (simp; done) | (simpa using hc))
    | with_reducible apply KeepOut.next
    | with_reducible refine kci_keep ?_ (fun t ht => ?_)
    | with_reducible apply KciRes.kept_fail
    | with_reducible apply KciRes.kept_ok
    | with_reducible apply KciRes.kept_done
    | with_reducible apply KciRes.kept_wait
    | with_reducible apply KciRes.kept_record
    | intro t ht
    | extract_lets
    | split
    | dsimp only
    | with_reducible refine Keep.mk_same rfl rfl rfl rfl rfl rfl rfl rfl ?_

theorem badAccess_keep {kind : Nat} {path : BusPath} {a' : Nat} (h : Keep a s) : Keep a (badAccess kind path a' s) := by
  unfold badAccess
  extract_lets s1 s2
  have h1 : Keep a s1 := by
    unfold s1
    repeat' first
      | with_reducible assumption
      | with_reducible apply State.setFld_keep
      | with_reducible apply State.bump_keep
  clear_value s1
  have h2 : Keep a s2 := by
    unfold s2
    repeat' first
      | with_reducible assumption
      | with_reducible apply State.setFld_keep
      | with_reducible apply State.bump_keep
      | with_reducible apply raiseFld_keep
      | with_reducible refine Keep.ite (fun _ => ?_) (fun _ => ?_)
  clear_value s2
  repeat' first
    | with_reducible assumption
    | with_reducible apply State.setFld_keep
    | with_reducible apply State.bump_keep
    | with_reducible apply raiseFld_keep

theorem writeIrqs_keep {a' : Nat} {old : State} (h : Keep a s) : Keep a (writeIrqs a' old s) := by
  unfold writeIrqs
  extract_lets v1 s1
  clear_value v1
  have h1 : Keep a s1 := by
    unfold s1
    repeat' first
      | with_reducible assumption
      | with_reducible apply sendMsi_keep
      | with_reducible refine Keep.ite (fun _ => ?_) (fun _ => ?_)
      | with_reducible refine Keep.foldl ?_ (fun t x ht => ?_)
  clear_value s1
  repeat' first
    | with_reducible assumption
    | with_reducible apply sendMsi_keep
    | with_reducible refine Keep.ite (fun _ => ?_) (fun _ => ?_)
    | with_reducible refine Keep.foldl ?_ (fun t x ht => ?_)
    | extract_lets
    | split

theorem pmuWritten_keep {set : Nat} {o : Nat} {val : Word} (h : Keep a s) : Keep a (pmuWritten set o val s) := by
  unfold pmuWritten
  extract_lets v1 v2
  clear_value v1 v2
  repeat' first
    | with_reducible assumption
    | with_reducible apply pmuSync_keep
    | with_reducible refine Keep.ite (fun _ => ?_) (fun _ => ?_)
    | extract_lets
    | split
    | dsimp only
    | with_reducible refine Keep.mk_same rfl rfl rfl rfl rfl rfl rfl rfl ?_

theorem scoutCtlWritten_keep {k : Nat} {was : Bool} {rel : Bool} (h : Keep a s) : Keep a (scoutCtlWritten k was rel s) := by
  unfold scoutCtlWritten
  extract_lets v1 v2 v3 v4 v5
  clear_value v1 v2 v3 v4 v5
  repeat' first
    | with_reducible assumption
    | with_reducible refine Keep.ite (fun _ => ?_) (fun _ => ?_)
    | extract_lets
    | split
    | dsimp only
    | with_reducible refine Keep.mk_same rfl rfl rfl rfl rfl rfl rfl rfl ?_

theorem coreRegWritten_keep {k : Nat} {o : Nat} {val : Word} {old : State} (h : Keep a s) : Keep a (coreRegWritten k o val old s) := by
  unfold coreRegWritten
  extract_lets v1
  clear_value v1
  repeat' first
    | with_reducible assumption
    | with_reducible apply State.setFld_keep
    | with_reducible apply limitWritten_keep
    | with_reducible apply sparesWritten_keep
    | with_reducible apply homeWritten_keep
    | with_reducible apply scoutCtlWritten_keep
    | with_reducible refine Keep.ite (fun _ => ?_) (fun _ => ?_)
    | split
    | dsimp only
    | with_reducible refine Keep.mk_same rfl rfl rfl rfl rfl rfl rfl rfl ?_

theorem rfpRegWritten_keep {p : Nat} {o : Nat} {val : Word} {old : State} (h : Keep a s) : Keep a (rfpRegWritten p o val old s) := by
  unfold rfpRegWritten
  extract_lets s1
  have h1 : Keep a s1 := by
    unfold s1
    repeat' first
      | with_reducible assumption
      | with_reducible apply rfpCtlWritten_keep
  clear_value s1
  repeat' first
    | with_reducible assumption
    | with_reducible apply rfpCtlWritten_keep
    | with_reducible apply dcbClear_keep
    | with_reducible apply closeBlock_keep
    | with_reducible refine Keep.ite (fun _ => ?_) (fun _ => ?_)
    | extract_lets
    | split

theorem injectWritten_keep {val : Word} (h : Keep a s) : Keep a (injectWritten val s) := by
  unfold injectWritten
  repeat' first
    | with_reducible assumption
    | with_reducible apply State.setFld_keep
    | with_reducible refine Keep.ite (fun _ => ?_) (fun _ => ?_)

theorem poolWritten_keep {val : Word} {old : State} (h : Keep a s) : Keep a (poolWritten val old s) := by
  unfold poolWritten
  repeat' first
    | with_reducible assumption
    | with_reducible apply State.setSeed_keep
    | with_reducible refine Keep.ite (fun _ => ?_) (fun _ => ?_)

theorem regWritten_keep {a' : Nat} {val : Word} {old : State} (h : Keep a s) : Keep a (regWritten a' val old s) := by
  unfold regWritten
  extract_lets v1
  clear_value v1
  repeat' first
    | with_reducible assumption
    | with_reducible apply linkDown_keep
    | with_reducible apply poolFill_keep
    | with_reducible apply madiCtlWritten_keep
    | with_reducible apply flcCtlWritten_keep
    | with_reducible apply closeBlock_keep
    | with_reducible apply timeCtlWritten_keep
    | with_reducible apply glbRstWritten_keep
    | with_reducible apply bootPushWritten_keep
    | with_reducible apply pmuWritten_keep
    | with_reducible apply coreRegWritten_keep
    | with_reducible apply rfpRegWritten_keep
    | with_reducible apply injectWritten_keep
    | with_reducible apply poolWritten_keep
    | with_reducible refine Keep.ite (fun _ => ?_) (fun _ => ?_)
    | with_reducible apply KciRes.kept_wait
    | extract_lets
    | split

theorem regWrite_keep {a' : Nat} {val : Word} (h : Keep a s) : Keep a (regWrite a' val s) := by
  unfold regWrite
  repeat' first
    | with_reducible assumption
    | with_reducible apply State.setReg_keep
    | with_reducible apply State.setFld_keep
    | with_reducible apply writeIrqs_keep
    | with_reducible apply regWritten_keep
    | with_reducible refine Keep.ite (fun _ => ?_) (fun _ => ?_)

theorem msixWrite_keep {a' : Nat} {val : Word} (h : Keep a s) : Keep a (msixWrite a' val s) := by
  unfold msixWrite
  extract_lets v1 v2 v3 s1
  clear_value v1 v2 v3
  have h1 : Keep a s1 := by
    unfold s1
    repeat' first
      | with_reducible assumption
      | with_reducible apply State.emit_keep
      | with_reducible apply State.setHif_keep
  clear_value s1
  repeat' first
    | with_reducible assumption
    | with_reducible apply State.emit_keep
    | with_reducible apply State.setHif_keep
    | with_reducible refine Keep.ite (fun _ => ?_) (fun _ => ?_)

theorem busWrite_keep {path : BusPath} {off : Nat} {byteEn : Nat} {val : Word} (h : Keep a s) : Keep a (busWrite path off byteEn val s) := by
  unfold busWrite
  extract_lets v1
  clear_value v1
  repeat' first
    | with_reducible assumption
    | with_reducible apply badAccess_keep
    | with_reducible apply regWrite_keep
    | with_reducible apply msixWrite_keep
    | with_reducible refine Keep.ite (fun _ => ?_) (fun _ => ?_)

theorem tsqPop_keep {n : Nat} (h : Keep a s) : Keep a (tsqPop n s).2 := by
  unfold tsqPop
  extract_lets v1 v2
  clear_value v1 v2
  repeat' first
    | with_reducible assumption
    | with_reducible refine Keep.ite (fun _ => ?_) (fun _ => ?_)
    | extract_lets
    | split
    | dsimp only
    | with_reducible refine Keep.mk_same rfl rfl rfl rfl rfl rfl rfl rfl ?_

theorem tsqPop_pair {n : Nat} {x0} {t} (e : tsqPop n s = (x0, t)) (h : Keep a s) : Keep a t := by
  have := tsqPop_keep (n := n) h; rwa [e] at this

theorem flowEvPop_keep (h : Keep a s) : Keep a (flowEvPop s).2 := by
  unfold flowEvPop
  repeat' first
    | with_reducible assumption
    | with_reducible apply State.setHif_keep
    | with_reducible refine Keep.ite (fun _ => ?_) (fun _ => ?_)
    | split

theorem flowEvPop_pair  {x0} {t} (e : flowEvPop s = (x0, t)) (h : Keep a s) : Keep a t := by
  have := flowEvPop_keep  h; rwa [e] at this

theorem clearRc_keep {a' : Nat} (h : Keep a s) : Keep a (clearRc a' s) := by
  unfold clearRc
  repeat' first
    | with_reducible assumption
    | with_reducible apply State.setReg_keep
    | with_reducible refine Keep.ite (fun _ => ?_) (fun _ => ?_)

theorem regRead_keep {a' : Nat} (h : Keep a s) : Keep a (regRead a' s).2 := by
  unfold regRead
  extract_lets v1 v2
  clear_value v1 v2
  repeat' first
    | with_reducible assumption
    | with_reducible apply State.setFlc_keep
    | with_reducible apply tsqPop_keep
    | refine tsqPop_pair (by assumption) ?_
    | with_reducible apply flowEvPop_keep
    | refine flowEvPop_pair (by assumption) ?_
    | with_reducible apply clearRc_keep
    | with_reducible refine Keep.ite (fun _ => ?_) (fun _ => ?_)
    | extract_lets
    | split
    | dsimp only
    | intro t ht
    | with_reducible refine Keep.mk_same rfl rfl rfl rfl rfl rfl rfl rfl ?_

theorem regRead_pair {a' : Nat} {x0} {t} (e : regRead a' s = (x0, t)) (h : Keep a s) : Keep a t := by
  have := regRead_keep (a' := a') h; rwa [e] at this

theorem busWord_keep {path : BusPath} {off : Nat} (h : Keep a s) : Keep a (busWord path off s).2 := by
  unfold busWord
  repeat' first
    | with_reducible assumption
    | with_reducible apply badAccess_keep
    | refine regRead_pair (by assumption) ?_
    | with_reducible apply regRead_keep
    | with_reducible refine Keep.ite (fun _ => ?_) (fun _ => ?_)
    | with_reducible refine Keep.foldl ?_ (fun t x ht => ?_)
    | (intro c hc; first | exact hc | (simp; done) | (simpa using hc))
    | extract_lets
    | split
    | dsimp only
    | with_reducible refine Keep.mk_same rfl rfl rfl rfl rfl rfl rfl rfl ?_

theorem busWord_pair {path : BusPath} {off : Nat} {y0} {t} (e : busWord path off s = (y0, t)) (h : Keep a s) : Keep a t := by
  have := busWord_keep (path := path) (off := off) h; rwa [e] at this

theorem busRead_keep {path : BusPath} {off : Nat} (h : Keep a s) : Keep a (busRead path off s) := by
  unfold busRead
  repeat' first
    | with_reducible assumption
    | refine busWord_pair (by assumption) ?_
    | with_reducible apply busWord_keep
    | with_reducible apply State.setHif_keep
    | with_reducible refine Keep.ite (fun _ => ?_) (fun _ => ?_)
    | with_reducible refine Keep.foldl ?_ (fun t x ht => ?_)
    | (intro c hc; first | exact hc | (simp; done) | (simpa using hc))
    | extract_lets
    | split
    | dsimp only
    | with_reducible refine Keep.mk_same rfl rfl rfl rfl rfl rfl rfl rfl ?_

theorem busReadWide_keep {path : BusPath} {off : Nat} {wide : Bool} (h : Keep a s) : Keep a (busReadWide path off wide s) := by
  unfold busReadWide
  repeat' first
    | with_reducible assumption
    | refine busWord_pair (by assumption) ?_
    | with_reducible apply busWord_keep
    | with_reducible apply State.setHif_keep
    | with_reducible apply busRead_keep
    | with_reducible refine Keep.ite (fun _ => ?_) (fun _ => ?_)
    | with_reducible refine Keep.foldl ?_ (fun t x ht => ?_)
    | (intro c hc; first | exact hc | (simp; done) | (simpa using hc))
    | extract_lets
    | split
    | dsimp only
    | with_reducible refine Keep.mk_same rfl rfl rfl rfl rfl rfl rfl rfl ?_

theorem busWriteWide_keep {path : BusPath} {off : Nat} {byteEn : Nat} {val : Word} {high : Option (Nat × Word)} (h : Keep a s) : Keep a (busWriteWide path off byteEn val high s) := by
  unfold busWriteWide
  repeat' first
    | with_reducible assumption
    | with_reducible apply busWrite_keep
    | with_reducible refine Keep.ite (fun _ => ?_) (fun _ => ?_)
    | with_reducible refine Keep.foldl ?_ (fun t x ht => ?_)
    | (intro c hc; first | exact hc | (simp; done) | (simpa using hc))
    | extract_lets
    | split
    | dsimp only
    | with_reducible refine Keep.mk_same rfl rfl rfl rfl rfl rfl rfl rfl ?_

theorem execRegisterWrite_keep {path : BusPath} {off : Nat} {byteEn : Nat} {val : Word} {high : Option (Nat × Word)} (h : Keep a s) : KeepOut a (execRegisterWrite path off byteEn val high s) := by
  unfold execRegisterWrite
  repeat' first
    | with_reducible assumption
    | with_reducible apply busWriteWide_keep
    | with_reducible refine Keep.ite (fun _ => ?_) (fun _ => ?_)
    | with_reducible refine Keep.foldl ?_ (fun t x ht => ?_)
    | (intro c hc; first | exact hc | (simp; done) | (simpa using hc))
    | with_reducible apply KeepOut.next
    | extract_lets
    | split
    | dsimp only

theorem arrayWrite_keep {path : BusPath} {i : Nat} {bound : Nat} {f : Nat → Fld} {val : Word} (h : Keep a s) : Keep a (arrayWrite path i bound f val s) := by
  unfold arrayWrite
  repeat' first
    | with_reducible assumption
    | with_reducible apply busWrite_keep
    | with_reducible refine Keep.ite (fun _ => ?_) (fun _ => ?_)

theorem execClunPwrLimitWrite_keep {path : BusPath} {cluster : Nat} {val : Word} (h : Keep a s) : KeepOut a (execClunPwrLimitWrite path cluster val s) := by
  unfold execClunPwrLimitWrite
  repeat' first
    | with_reducible assumption
    | with_reducible apply arrayWrite_keep
    | with_reducible apply KeepOut.next

theorem execClunSparesCountWrite_keep {path : BusPath} {cluster : Nat} {val : Word} (h : Keep a s) : KeepOut a (execClunSparesCountWrite path cluster val s) := by
  unfold execClunSparesCountWrite
  repeat' first
    | with_reducible assumption
    | with_reducible apply arrayWrite_keep
    | with_reducible apply KeepOut.next

theorem execClunCmHomeWrite_keep {path : BusPath} {core : Nat} {val : Word} (h : Keep a s) : KeepOut a (execClunCmHomeWrite path core val s) := by
  unfold execClunCmHomeWrite
  repeat' first
    | with_reducible assumption
    | with_reducible apply arrayWrite_keep
    | with_reducible apply KeepOut.next

theorem execKciDoorbell_keep {path : BusPath} {val : Word} (h : Keep a s) : KeepOut a (execKciDoorbell path val s) := by
  unfold execKciDoorbell
  repeat' first
    | with_reducible assumption
    | with_reducible apply busWrite_keep
    | with_reducible apply KeepOut.next

theorem execPmuCounterHighWrite_keep {path : BusPath} {off : Nat} {val : Word} (h : Keep a s) : KeepOut a (execPmuCounterHighWrite path off val s) := by
  unfold execPmuCounterHighWrite
  repeat' first
    | with_reducible assumption
    | with_reducible apply busWrite_keep
    | with_reducible apply KeepOut.next

theorem execPmuCounterLowWrite_keep {path : BusPath} {off : Nat} {val : Word} (h : Keep a s) : KeepOut a (execPmuCounterLowWrite path off val s) := by
  unfold execPmuCounterLowWrite
  repeat' first
    | with_reducible assumption
    | with_reducible apply busWrite_keep
    | with_reducible apply KeepOut.next

theorem execScoutCtlRelWrite_keep {path : BusPath} {core : Nat} {val : Word} (h : Keep a s) : KeepOut a (execScoutCtlRelWrite path core val s) := by
  unfold execScoutCtlRelWrite
  repeat' first
    | with_reducible assumption
    | with_reducible apply arrayWrite_keep
    | with_reducible apply KeepOut.next

theorem execRfpnDcbClrWrite_keep {path : BusPath} {port : Nat} {val : Word} (h : Keep a s) : KeepOut a (execRfpnDcbClrWrite path port val s) := by
  unfold execRfpnDcbClrWrite
  repeat' first
    | with_reducible assumption
    | with_reducible apply arrayWrite_keep
    | with_reducible apply KeepOut.next

theorem execUmpInjectArmWrite_keep {path : BusPath} {val : Word} (h : Keep a s) : KeepOut a (execUmpInjectArmWrite path val s) := by
  unfold execUmpInjectArmWrite
  repeat' first
    | with_reducible assumption
    | with_reducible apply busWrite_keep
    | with_reducible apply KeepOut.next

theorem execSeedPoolGranWrite_keep {path : BusPath} {val : Word} (h : Keep a s) : KeepOut a (execSeedPoolGranWrite path val s) := by
  unfold execSeedPoolGranWrite
  repeat' first
    | with_reducible assumption
    | with_reducible apply busWrite_keep
    | with_reducible apply KeepOut.next

theorem execMadiPortEnable_keep {path : BusPath} {port : Nat} {val : Word} (h : Keep a s) : KeepOut a (execMadiPortEnable path port val s) := by
  unfold execMadiPortEnable
  repeat' first
    | with_reducible assumption
    | with_reducible apply arrayWrite_keep
    | with_reducible apply KeepOut.next

theorem execFlcEnable_keep {path : BusPath} {val : Word} (h : Keep a s) : KeepOut a (execFlcEnable path val s) := by
  unfold execFlcEnable
  repeat' first
    | with_reducible assumption
    | with_reducible apply busWrite_keep
    | with_reducible apply KeepOut.next

theorem execRcCounterRead_keep {path : BusPath} {off : Nat} {wide : Bool} (h : Keep a s) : KeepOut a (execRcCounterRead path off wide s) := by
  unfold execRcCounterRead
  repeat' first
    | with_reducible assumption
    | with_reducible apply busReadWide_keep
    | with_reducible refine Keep.ite (fun _ => ?_) (fun _ => ?_)
    | with_reducible refine Keep.foldl ?_ (fun t x ht => ?_)
    | (intro c hc; first | exact hc | (simp; done) | (simpa using hc))
    | with_reducible apply KeepOut.next
    | extract_lets
    | split
    | dsimp only

theorem execReservedRegisterRead_keep {path : BusPath} {off : Nat} {wide : Bool} (h : Keep a s) : KeepOut a (execReservedRegisterRead path off wide s) := by
  unfold execReservedRegisterRead
  repeat' first
    | with_reducible assumption
    | with_reducible apply busReadWide_keep
    | with_reducible refine Keep.ite (fun _ => ?_) (fun _ => ?_)
    | with_reducible refine Keep.foldl ?_ (fun t x ht => ?_)
    | (intro c hc; first | exact hc | (simp; done) | (simpa using hc))
    | with_reducible apply KeepOut.next
    | extract_lets
    | split
    | dsimp only

theorem execTimeNowFracRead_keep {path : BusPath} (h : Keep a s) : KeepOut a (execTimeNowFracRead path s) := by
  unfold execTimeNowFracRead
  repeat' first
    | with_reducible assumption
    | with_reducible apply busRead_keep
    | with_reducible apply KeepOut.next

theorem execTimeRateLoRead_keep {path : BusPath} (h : Keep a s) : KeepOut a (execTimeRateLoRead path s) := by
  unfold execTimeRateLoRead
  repeat' first
    | with_reducible assumption
    | with_reducible apply busRead_keep
    | with_reducible apply KeepOut.next

theorem execTimePpsinNsRead_keep {path : BusPath} (h : Keep a s) : KeepOut a (execTimePpsinNsRead path s) := by
  unfold execTimePpsinNsRead
  repeat' first
    | with_reducible assumption
    | with_reducible apply busRead_keep
    | with_reducible apply KeepOut.next

theorem execTimeTsqnPop0Read_keep {path : BusPath} {port : Nat} (h : Keep a s) : KeepOut a (execTimeTsqnPop0Read path port s) := by
  unfold execTimeTsqnPop0Read
  repeat' first
    | with_reducible assumption
    | with_reducible apply busRead_keep
    | with_reducible refine Keep.ite (fun _ => ?_) (fun _ => ?_)
    | with_reducible apply KeepOut.next

theorem execHifFlowevPopRead_keep {path : BusPath} (h : Keep a s) : KeepOut a (execHifFlowevPopRead path s) := by
  unfold execHifFlowevPopRead
  repeat' first
    | with_reducible assumption
    | with_reducible apply busRead_keep
    | with_reducible apply KeepOut.next

theorem execFlcRebuildTLoRead_keep {path : BusPath} (h : Keep a s) : KeepOut a (execFlcRebuildTLoRead path s) := by
  unfold execFlcRebuildTLoRead
  repeat' first
    | with_reducible assumption
    | with_reducible apply busRead_keep
    | with_reducible apply KeepOut.next

theorem execFlcOldestTLoRead_keep {path : BusPath} (h : Keep a s) : KeepOut a (execFlcOldestTLoRead path s) := by
  unfold execFlcOldestTLoRead
  repeat' first
    | with_reducible assumption
    | with_reducible apply busRead_keep
    | with_reducible apply KeepOut.next

theorem execPmuCounterLowRead_keep {path : BusPath} {off : Nat} {wide : Bool} (h : Keep a s) : KeepOut a (execPmuCounterLowRead path off wide s) := by
  unfold execPmuCounterLowRead
  repeat' first
    | with_reducible assumption
    | with_reducible apply busReadWide_keep
    | with_reducible refine Keep.ite (fun _ => ?_) (fun _ => ?_)
    | with_reducible refine Keep.foldl ?_ (fun t x ht => ?_)
    | (intro c hc; first | exact hc | (simp; done) | (simpa using hc))
    | with_reducible apply KeepOut.next
    | extract_lets
    | split
    | dsimp only

theorem smbus_keep {ok : Bool} {pec : Option Bool} {f : State → State} (h : Keep a s) (hf : ∀ t, Keep a t → Keep a (f t)) :
    Keep a (smbus ok pec f s) := by
  unfold smbus
  exact Keep.ite (fun _ => hf _ h) (fun _ => Keep.ite (fun _ => State.bump_keep h) (fun _ => h))

theorem execSmbusWrite_keep {count : Nat} {pec : Option Bool} {off : Nat} {val : Word} (h : Keep a s) : KeepOut a (execSmbusWrite count pec off val s) := by
  unfold execSmbusWrite
  repeat' first
    | with_reducible assumption
    | with_reducible apply busWrite_keep
    | with_reducible refine smbus_keep ?_ (fun t ht => ?_)
    | with_reducible apply KeepOut.next

theorem execSmbusReadAddress_keep {count : Nat} {pec : Option Bool} {off : Nat} (h : Keep a s) : KeepOut a (execSmbusReadAddress count pec off s) := by
  unfold execSmbusReadAddress
  repeat' first
    | with_reducible assumption
    | with_reducible apply State.setHif_keep
    | with_reducible refine smbus_keep ?_ (fun t ht => ?_)
    | with_reducible refine Keep.ite (fun _ => ?_) (fun _ => ?_)
    | with_reducible apply KeepOut.next

theorem execSmbusReadData_keep {pec : Option Bool} (h : Keep a s) : KeepOut a (execSmbusReadData pec s) := by
  unfold execSmbusReadData
  repeat' first
    | with_reducible assumption
    | with_reducible apply State.setHif_keep
    | with_reducible apply busRead_keep
    | with_reducible refine smbus_keep ?_ (fun t ht => ?_)
    | with_reducible refine Keep.ite (fun _ => ?_) (fun _ => ?_)
    | with_reducible apply KeepOut.next

theorem tagByte_keep {f : Nat} {a' : Nat} {b : Byte} (h : Keep a s) : Keep a (tagByte f a' b s) := by
  unfold tagByte
  repeat' first
    | with_reducible assumption
    | with_reducible apply State.setSeed_keep
    | with_reducible refine Keep.ite (fun _ => ?_) (fun _ => ?_)
    | with_reducible refine Keep.foldl ?_ (fun t x ht => ?_)
    | (intro c hc; first | exact hc | (simp; done) | (simpa using hc))
    | extract_lets
    | split
    | dsimp only
    | with_reducible refine Keep.mk_same rfl rfl rfl rfl rfl rfl rfl rfl ?_

theorem tagBytes_keep {f : Nat} {a' : Nat} {x0 : List Byte} (h : Keep a s) : Keep a (tagBytes f a' x0 s) := by
  induction x0 generalizing a' s with
  | nil => exact h
  | cons b t ih => unfold tagBytes; exact ih (Keep.ite (fun _ => tagByte_keep h) (fun _ => h))

theorem tagWrite_keep {a' : Nat} {bytes : List Byte} (h : Keep a s) : Keep a (tagWrite a' bytes s) := by
  unfold tagWrite
  repeat' first
    | with_reducible assumption
    | with_reducible apply tagBytes_keep
    | refine State.draw_pair (by assumption) ?_
    | with_reducible apply State.draw_keep
    | with_reducible refine Keep.ite (fun _ => ?_) (fun _ => ?_)
    | with_reducible refine Keep.foldl ?_ (fun t x ht => ?_)
    | (intro c hc; first | exact hc | (simp; done) | (simpa using hc))
    | extract_lets
    | split
    | dsimp only
    | with_reducible refine Keep.mk_same rfl rfl rfl rfl rfl rfl rfl rfl ?_

theorem bar2Bytes_wf (t : Nat → Bool) : ∀ (bs : List Byte) (p : Nat) (m : List Host.Cell), Memory.wf m = true →
    Memory.wf (bar2Bytes t p bs m) = true
  | [], _, _, hm => hm
  | b :: bs, p, m, hm => by
    unfold bar2Bytes
    refine bar2Bytes_wf t bs _ _ ?_
    split
    · exact hm
    · exact memWrite_wf hm _ _

theorem bar2Write_keep {off : Nat} {bytes : List Byte} (h : Keep a s) : Keep a (bar2Write off bytes s) := by
  unfold bar2Write
  refine Keep.ite (fun _ => h) (fun _ => ?_)
  extract_lets bs p s1
  have h1 : Keep a s1 := by
    have hm : Keep a { s with hbm := bar2Bytes (inDescRegion s) p bs s.hbm } := Keep.hbm h fun x => bar2Bytes_wf _ _ _ _ x.1
    exact tagWrite_keep (Keep.mk_same (s := { s with hbm := bar2Bytes (inDescRegion s) p bs s.hbm }) rfl rfl rfl rfl rfl rfl rfl rfl hm)
  clear_value s1
  exact Keep.ite (fun _ => badAccess_keep h1) (fun _ => h1)

theorem execBar2Write_keep {off : Nat} {bytes : List Byte} (h : Keep a s) : KeepOut a (execBar2Write off bytes s) := by
  unfold execBar2Write
  repeat' first
    | with_reducible assumption
    | with_reducible apply bar2Write_keep
    | with_reducible apply KeepOut.next

theorem execBar2Read_keep {off : Nat} {len : Nat} (h : Keep a s) : KeepOut a (execBar2Read off len s) := by
  unfold execBar2Read
  repeat' first
    | with_reducible assumption
    | with_reducible apply State.setHif_keep
    | with_reducible apply State.draw_keep
    | with_reducible refine Keep.ite (fun _ => ?_) (fun _ => ?_)
    | with_reducible apply KeepOut.next

theorem State.setPeer_keep {l : Nat} {x : WlLink} (h : Keep a s) : Keep a (State.setPeer s l x) := by
  unfold State.setPeer
  repeat' first
    | with_reducible assumption
    | dsimp only
    | with_reducible refine Keep.mk_same rfl rfl rfl rfl rfl rfl rfl rfl ?_

theorem peerSend_keep {l : Nat} {typ : Nat} {body : List Byte} (h : Keep a s) : Keep a (peerSend l typ body s) := by
  unfold peerSend
  repeat' first
    | with_reducible assumption
    | with_reducible apply svcBack_keep
    | with_reducible apply State.setPeer_keep
    | with_reducible apply State.emit_keep
    | with_reducible refine Keep.ite (fun _ => ?_) (fun _ => ?_)
    | with_reducible refine Keep.foldl ?_ (fun t x ht => ?_)
    | (intro c hc; first | exact hc | (simp; done) | (simpa using hc))
    | extract_lets
    | split
    | dsimp only
    | with_reducible refine Keep.mk_same rfl rfl rfl rfl rfl rfl rfl rfl ?_

theorem peerUp_keep {l : Nat} {o : WlOffer} {v : Nat × Nat × Nat} (h : Keep a s) : Keep a (peerUp l o v s) := by
  unfold peerUp
  repeat' first
    | with_reducible assumption
    | with_reducible apply finishWait_keep
    | with_reducible apply State.setPeer_keep
    | split

theorem peerReject_keep {l : Nat} (h : Keep a s) : Keep a (peerReject l s) := by
  unfold peerReject
  repeat' first
    | with_reducible assumption
    | with_reducible apply finishWait_keep
    | with_reducible apply State.setPeer_keep
    | split

theorem helloReceived_keep {l : Nat} {o : WlOffer} (h : Keep a s) : Keep a (helloReceived l o s) := by
  unfold helloReceived
  repeat' first
    | with_reducible assumption
    | with_reducible apply peerSend_keep
    | with_reducible apply peerUp_keep
    | with_reducible apply peerReject_keep
    | split

theorem onPeer_keep {l : Nat} {f : WlLink → State → State} (h : Keep a s) (hf : ∀ x t, Keep a t → Keep a (f x t)) : Keep a (onPeer l f s) := by
  unfold onPeer
  split
  · exact Keep.ite (fun _ => hf _ _ h) (fun _ => h)
  · exact h

theorem execWlHelloReceive_keep {link : Nat} {offer : WlOffer} (h : Keep a s) : KeepOut a (execWlHelloReceive link offer s) := by
  unfold execWlHelloReceive
  repeat' first
    | with_reducible assumption
    | with_reducible apply helloReceived_keep
    | with_reducible refine onPeer_keep ?_ (fun x t ht => ?_)
    | with_reducible apply KeepOut.next

theorem ackReceived_keep {l : Nat} {o : WlOffer} (h : Keep a s) : Keep a (ackReceived l o s) := by
  unfold ackReceived
  repeat' first
    | with_reducible assumption
    | with_reducible apply peerSend_keep
    | with_reducible apply peerUp_keep
    | with_reducible apply peerReject_keep
    | split

theorem execWlHelloAckReceive_keep {link : Nat} {offer : WlOffer} (h : Keep a s) : KeepOut a (execWlHelloAckReceive link offer s) := by
  unfold execWlHelloAckReceive
  repeat' first
    | with_reducible assumption
    | with_reducible refine onPeer_keep ?_ (fun x t ht => ?_)
    | with_reducible apply ackReceived_keep
    | with_reducible apply KeepOut.next

theorem heard_keep {l : Nat} {x : WlLink} (h : Keep a s) : Keep a (heard l x s) := by
  unfold heard
  repeat' first
    | with_reducible assumption
    | with_reducible apply State.setPeer_keep

theorem execWlKeepaliveReceive_keep {link : Nat} (h : Keep a s) : KeepOut a (execWlKeepaliveReceive link s) := by
  unfold execWlKeepaliveReceive
  repeat' first
    | with_reducible assumption
    | with_reducible refine onPeer_keep ?_ (fun x t ht => ?_)
    | with_reducible apply heard_keep
    | with_reducible apply KeepOut.next

theorem controlReceived_keep {l : Nat} {kind : Nat} {x : WlLink} (h : Keep a s) : Keep a (controlReceived l kind x s) := by
  unfold controlReceived
  repeat' first
    | with_reducible assumption
    | with_reducible apply heard_keep

theorem execWlControlReceive_keep {link : Nat} {kind : Nat} {_body : List Byte} (h : Keep a s) : KeepOut a (execWlControlReceive link kind _body s) := by
  unfold execWlControlReceive
  repeat' first
    | with_reducible assumption
    | with_reducible refine onPeer_keep ?_ (fun x t ht => ?_)
    | with_reducible apply controlReceived_keep
    | with_reducible apply KeepOut.next

theorem execWlRejectReceive_keep {link : Nat} {_code : Nat} (h : Keep a s) : KeepOut a (execWlRejectReceive link _code s) := by
  unfold execWlRejectReceive
  repeat' first
    | with_reducible assumption
    | with_reducible apply peerReject_keep
    | with_reducible refine onPeer_keep ?_ (fun x t ht => ?_)
    | with_reducible apply KeepOut.next

theorem peerClosed_keep {l : Nat} (h : Keep a s) : Keep a (peerClosed l s) := by
  unfold peerClosed
  repeat' first
    | with_reducible assumption
    | with_reducible apply State.draw_keep
    | refine State.draw_pair (by assumption) ?_
    | with_reducible apply finishWait_keep
    | extract_lets
    | split
    | dsimp only
    | with_reducible refine Keep.mk_same rfl rfl rfl rfl rfl rfl rfl rfl ?_

theorem execWlByeReceive_keep {link : Nat} (h : Keep a s) : KeepOut a (execWlByeReceive link s) := by
  unfold execWlByeReceive
  repeat' first
    | with_reducible assumption
    | with_reducible refine onPeer_keep ?_ (fun x t ht => ?_)
    | with_reducible apply peerClosed_keep
    | with_reducible apply KeepOut.next

theorem peerTimer_keep {l : Nat} {states : List Nat} {since : WlLink → Nat} {cycles : Nat} {f : State → State} (h : Keep a s)
    (hf : ∀ t, Keep a t → Keep a (f t)) : Keep a (peerTimer l states since cycles f s) := by
  unfold peerTimer
  split
  · exact Keep.ite (fun _ => hf _ (advanceSince_keep h)) (fun _ => h)
  · exact h

theorem execWlHelloResend_keep {link : Nat} (h : Keep a s) : KeepOut a (execWlHelloResend link s) := by
  unfold execWlHelloResend
  repeat' first
    | with_reducible assumption
    | with_reducible apply peerSend_keep
    | with_reducible refine peerTimer_keep ?_ (fun t ht => ?_)
    | with_reducible apply KeepOut.next

theorem execWlKeepaliveSend_keep {link : Nat} (h : Keep a s) : KeepOut a (execWlKeepaliveSend link s) := by
  unfold execWlKeepaliveSend
  repeat' first
    | with_reducible assumption
    | with_reducible apply peerSend_keep
    | with_reducible refine peerTimer_keep ?_ (fun t ht => ?_)
    | with_reducible apply KeepOut.next

theorem peerDown_keep {l : Nat} (h : Keep a s) : Keep a (peerDown l s) := by
  unfold peerDown
  repeat' first
    | with_reducible assumption
    | with_reducible apply State.setPeer_keep
    | with_reducible apply peerSend_keep
    | split

theorem execWlPeerTimeout_keep {link : Nat} (h : Keep a s) : KeepOut a (execWlPeerTimeout link s) := by
  unfold execWlPeerTimeout
  repeat' first
    | with_reducible assumption
    | with_reducible apply heard_keep
    | with_reducible refine peerTimer_keep ?_ (fun t ht => ?_)
    | with_reducible apply peerDown_keep
    | with_reducible apply KeepOut.next

theorem execLinkOpen_keep {h' : KciHdr} {link : Nat} {port : Nat} {ip : Nat} {udpPort : Nat} (h : Keep a s) : KeepOut a (execLinkOpen h' link port ip udpPort s) := by
  unfold execLinkOpen
  repeat' first
    | with_reducible assumption
    | with_reducible apply kciFail_keep
    | with_reducible refine kci_keep ?_ (fun t ht => ?_)
    | with_reducible apply State.setPeer_keep
    | with_reducible apply peerSend_keep
    | with_reducible apply heard_keep
    | with_reducible refine Keep.ite (fun _ => ?_) (fun _ => ?_)
    | with_reducible apply KciRes.kept_fail
    | with_reducible apply KciRes.kept_wait
    | with_reducible apply KeepOut.next
    | split

theorem execLinkClose_keep {h' : KciHdr} {link : Nat} (h : Keep a s) : KeepOut a (execLinkClose h' link s) := by
  unfold execLinkClose
  repeat' first
    | with_reducible assumption
    | with_reducible apply kciFail_keep
    | with_reducible apply kciOk_keep
    | with_reducible refine kci_keep ?_ (fun t ht => ?_)
    | with_reducible apply peerSend_keep
    | with_reducible apply peerClosed_keep
    | with_reducible refine Keep.ite (fun _ => ?_) (fun _ => ?_)
    | with_reducible apply KciRes.kept_fail
    | with_reducible apply KciRes.kept_ok
    | with_reducible apply KeepOut.next
    | split

theorem execLinkStatus_keep {h' : KciHdr} {link : Nat} (h : Keep a s) : KeepOut a (execLinkStatus h' link s) := by
  unfold execLinkStatus
  repeat' first
    | with_reducible assumption
    | with_reducible apply kciFail_keep
    | with_reducible refine kci_keep ?_ (fun t ht => ?_)
    | with_reducible apply CoreRes.kept_done
    | with_reducible apply KciRes.kept_fail
    | with_reducible apply KciRes.kept_done
    | with_reducible apply KeepOut.next
    | split

theorem beltJoin_keep {l : Nat} {o : WlOffer} (h : Keep a s) : Keep a (beltJoin l o s) := by
  unfold beltJoin
  refine Keep.ite (fun _ => ?_) (fun _ => h)
  have h1 := State.emit_keep (m := .beltAnswer l (joinAnswer (agree o))) h
  dsimp only
  split
  · exact State.updMlink_keep h1
  · exact h1

theorem execBeltpackJoin_keep {link : Nat} {offer : WlOffer} (h : Keep a s) : KeepOut a (execBeltpackJoin link offer s) := by
  unfold execBeltpackJoin
  repeat' first
    | with_reducible assumption
    | with_reducible apply beltJoin_keep
    | with_reducible apply KeepOut.next

end Sys2Proof.Machine
end

