-- ==== Sys2Proof/Laws/Within.lean ====
section
/-!
SUPPORT. Laws/Within.lean: which parts of the state an operation may change, and how that passes through the operations that meanings are built from.
-/

namespace Sys2Proof.Machine

/-- Every part but those in `Ω` is the same. -/
structure Within (Ω : Part → Prop) (a s : State) : Prop where
  same : ∀ p, ¬ Ω p → p.same a s

/-- The parts listed are among those that may differ. -/
def Sub (P : List Part) (Ω : Part → Prop) : Prop := ∀ p, p ∈ P → Ω p

theorem Sub.of {P Q : List Part} {Ω : Part → Prop} (h : Sub Q Ω) (k : P ⊆ Q) : Sub P Ω := fun p hp => h p (k hp)

theorem Sub.use {P : List Part} {Ω : Part → Prop} (h : Sub P Ω) {p : Part} (k : p ∈ P) : Ω p := h p k

theorem Sub.refl (P : List Part) : Sub P (· ∈ P) := fun _ h => h

variable {Ω : Part → Prop} {a s : State}

theorem same_trans {p : Part} {a b c : State} (h : p.same a b) (g : p.same b c) : p.same a c := by cases p <;> exact Eq.trans g h

theorem Within.refl (s : State) : Within Ω s s := ⟨fun p _ => by cases p <;> rfl⟩

theorem Within.trans {a b c : State} (h : Within Ω a b) (g : Within Ω b c) : Within Ω a c := ⟨fun p hp => same_trans (h.same p hp) (g.same p hp)⟩

theorem Within.kept {P : List Part} {s t : State} (h : Within (· ∈ P) s t) : Kept P s t := h.same

theorem Within.mk_same {f0 f1 f2 f3 f4 f5 f6 f7 f8 f9 f10 f11 f12 f13 f14 f15 f16 f17 f18 f19 f20 f21 f22 f23 f24 f25 f26 f27 f28 f29 f30}
    (_ : f0 = s.pending) (hs : ∀ p, ¬ Ω p → p.same s ⟨f0, f1, f2, f3, f4, f5, f6, f7, f8, f9, f10, f11, f12, f13, f14, f15, f16, f17, f18, f19, f20, f21, f22, f23, f24, f25, f26, f27, f28, f29, f30⟩)
    (h : Within Ω a s) : Within Ω a ⟨f0, f1, f2, f3, f4, f5, f6, f7, f8, f9, f10, f11, f12, f13, f14, f15, f16, f17, f18, f19, f20, f21, f22, f23, f24, f25, f26, f27, f28, f29, f30⟩ :=
  h.trans ⟨hs⟩

theorem Within.glb {g : GlbSt} (hW : Sub [.glb] Ω) (h : Within Ω a s) (_ : s.glb.rollback ≤ g.rollback)
    (_ : ∀ n, SlotFused s n → (mapFind? n g.revoked).isSome = true) : Within Ω a { s with glb := g } :=
  h.trans ⟨fun p hn => by cases p <;> first | rfl | exact absurd (hW.use (by decide)) hn⟩

theorem Within.hbm {m : List Host.Cell} (hW : Sub [.hbm] Ω) (h : Within Ω a s) (_ : MemoryOk s → Memory.wf m = true) : Within Ω a { s with hbm := m } :=
  h.trans ⟨fun p hn => by cases p <;> first | rfl | exact absurd (hW.use (by decide)) hn⟩

theorem Within.core' {k : Nat} {f : Core → Core} (hW : Sub [.core] Ω) (h : Within Ω a s)
    (_ : MemoryOk s → Memory.wf (s.cor k).ram = true → Memory.wf (f (s.cor k)).ram = true) : Within Ω a (s.updCore k f) :=
  h.trans ⟨fun p hn => by cases p <;> first | rfl | exact absurd (hW.use (by decide)) hn⟩

theorem Within.updCore {k : Nat} {f : Core → Core} (hW : Sub [.core] Ω) (h : Within Ω a s) (hf : ∀ c : Core, Memory.wf c.ram = true → Memory.wf (f c).ram = true) :
    Within Ω a (s.updCore k f) := h.core' hW fun _ => hf _

theorem Within.updClu {k : Nat} {f : Cluster → Cluster} (hW : Sub [.clu] Ω) (h : Within Ω a s)
    (_ : ∀ c : Cluster, Memory.wf c.code = true ∧ Memory.wf c.data = true → Memory.wf (f c).code = true ∧ Memory.wf (f c).data = true) :
    Within Ω a (s.updClu k f) :=
  h.trans ⟨fun p hn => by cases p <;> first | rfl | exact absurd (hW.use (by decide)) hn⟩

theorem Within.tick {n : Nat} {t : TimeSt} (hW : Sub [.clk, .time] Ω) (h : Within Ω a s) : Within Ω a { s with clk := s.clk + n, time := t } :=
  h.trans ⟨fun p hn => by cases p <;> first | rfl | exact absurd (hW.use (by decide)) hn⟩

theorem Within.cleared {t : State} (hW : Sub [.regs, .hbm, .time, .mq, .seed, .bull, .gh, .core, .clu, .pmu, .scout, .ump, .hif, .glb, .graphs, .net, .cfg, .txHold, .rfp, .mdm, .madi, .pack, .flc, .peers, .kml, .hbmBad] Ω)
    (h : Within Ω a s) (h0 : t.pending = s.pending) (h1 : t.free = s.free) (h2 : t.clk = s.clk) (h3 : t.out = s.out)
    (_ : t.glb.rollback = s.glb.rollback) (_ : t.glb.revoked = s.glb.revoked) (_ : t.hbm = []) (_ : t.core = []) (_ : t.clu = []) (h9 : t.flash = s.flash := by rfl) :
    Within Ω a t :=
  h.trans ⟨fun p hn => by cases p <;> first | exact h0 | exact h1 | exact h2 | exact h3 | exact h9 | exact absurd (hW.use (by decide)) hn⟩

theorem State.draw_within (hW : Sub [.free] Ω) (h : Within Ω a s) : Within Ω a (State.draw s).2 :=
  h.trans ⟨fun p hn => by cases p <;> first | rfl | exact absurd (hW.use (by decide)) hn⟩

theorem State.emit_within {m : OutMsg} (hW : Sub [.out] Ω) (h : Within Ω a s) : Within Ω a (State.emit s m) :=
  h.trans ⟨fun p hn => by cases p <;> first | rfl | exact absurd (hW.use (by decide)) hn⟩

def LoadWithin (Ω : Part → Prop) (a : State) (r : LoadRes) : Prop := ∀ t, r = .inr t → Within Ω a t
theorem LoadWithin.inl {e : Nat} : LoadWithin Ω a (.inl e) := fun _ h => nomatch h
theorem LoadWithin.inr {t : State} (h : Within Ω a t) : LoadWithin Ω a (.inr t) := fun _ e => by cases e; exact h

theorem Within.ite {c : Prop} [Decidable c] {x y : State} (h1 : c → Within Ω a x) (h2 : ¬c → Within Ω a y) : Within Ω a (if c then x else y) := by
  split
  · next h => exact h1 h
  · next h => exact h2 h

theorem Within.snd {β : Type} {x : β} {y : State} (h : Within Ω a y) : Within Ω a (x, y).2 := h

theorem Within.foldl {β : Type} {f : State → β → State} {l : List β} (h : Within Ω a s) (hf : ∀ t x, Within Ω a t → Within Ω a (f t x)) :
    Within Ω a (l.foldl f s) := by
  induction l generalizing s with
  | nil => exact h
  | cons x t ih => exact ih (hf s x h)

theorem foldPair_within (hW : Sub [] Ω) {β γ : Type} {f : γ × State → β → γ × State} (l : List β) (x : γ × State) (h : Within Ω a x.2)
    (hf : ∀ x b, Within Ω a x.2 → Within Ω a (f x b).2) : Within Ω a (l.foldl f x).2 := by
  induction l generalizing x with
  | nil => exact h
  | cons b t ih => exact ih _ (hf x b h)

/-- Every state an optional answer holds is kept. -/
def WithinOpt (Ω : Part → Prop) (a : State) (o : Option State) : Prop := ∀ t, o = some t → Within Ω a t

theorem WithinOpt.none : WithinOpt Ω a none := fun _ h => nomatch h

theorem WithinOpt.some {t : State} (h : Within Ω a t) : WithinOpt Ω a (some t) := fun _ e => by cases e; exact h

theorem WithinOpt.getD {o : Option State} {t : State} (h : WithinOpt Ω a o) (ht : Within Ω a t) : Within Ω a (o.getD t) := by
  cases o with
  | none => exact ht
  | some x => exact h x rfl

/-- Every state the result of an instruction holds is kept. -/
def CoreRes.Ins (Ω : Part → Prop) (a : State) : CoreRes → Prop
  | .done t => Within Ω a t
  | .jump _ t => Within Ω a t
  | .skip _ t => Within Ω a t
  | .stay t => Within Ω a t
  | .exc _ t => Within Ω a t

theorem CoreRes.within_done {t : State} (h : Within Ω a t) : (CoreRes.done t).Ins Ω a := h
theorem CoreRes.within_jump {n : Nat} {t : State} (h : Within Ω a t) : (CoreRes.jump n t).Ins Ω a := h
theorem CoreRes.within_skip {n : Nat} {t : State} (h : Within Ω a t) : (CoreRes.skip n t).Ins Ω a := h
theorem CoreRes.within_stay {t : State} (h : Within Ω a t) : (CoreRes.stay t).Ins Ω a := h
theorem CoreRes.within_exc {e : Exc} {t : State} (h : Within Ω a t) : (CoreRes.exc e t).Ins Ω a := h

/-- Every state a placement holds is kept. -/
def Placed.Ins (Ω : Part → Prop) (a : State) : Placed → Prop
  | .dispatched t => Within Ω a t
  | .paging t => Within Ω a t
  | .held t => Within Ω a t
  | .skipped => True

theorem Placed.within_dispatched {t : State} (h : Within Ω a t) : (Placed.dispatched t).Ins Ω a := h
theorem Placed.within_paging {t : State} (h : Within Ω a t) : (Placed.paging t).Ins Ω a := h
theorem Placed.within_held {t : State} (h : Within Ω a t) : (Placed.held t).Ins Ω a := h
theorem Placed.within_skipped : Placed.skipped.Ins Ω a := trivial

/-- Every state the outcome of a control instruction holds is kept. -/
def KciRes.Ins (Ω : Part → Prop) (a : State) : KciRes → Prop
  | .done _ _ t => Within Ω a t
  | .record _ t => Within Ω a t
  | .wait _ t => Within Ω a t

theorem KciRes.within_done {n : Nat} {r : List Nat} {t : State} (h : Within Ω a t) : (KciRes.done n r t).Ins Ω a := h
theorem KciRes.within_record {r : List Nat} {t : State} (h : Within Ω a t) : (KciRes.record r t).Ins Ω a := h
theorem KciRes.within_wait {w : WaitOn} {t : State} (h : Within Ω a t) : (KciRes.wait w t).Ins Ω a := h
theorem KciRes.within_fail {n : Nat} {t : State} (h : Within Ω a t) : (kciFail n t).Ins Ω a := h
theorem KciRes.within_ok {t : State} (h : Within Ω a t) : (kciOk t).Ins Ω a := h

/-- Every next state a command answers is kept. -/
def WithinOut (Ω : Part → Prop) (a : State) (o : Host.Outcome State Fault Refusal) : Prop := ∀ t, o = .next t → Within Ω a t

theorem WithinOut.next {t : State} (h : Within Ω a t) : WithinOut Ω a (.next t) := fun _ e => by cases e; exact h


end Sys2Proof.Machine
end

