-- ==== Sys2Proof/Laws/WithinBase.lean ====
section
/-!
SUPPORT. Laws/WithinBase.lean: which parts of the state every operation of registers, interrupts, clocks, resets, Umpire and Seedbed may change.
-/

namespace Sys2Proof.Machine

variable {Ω : Part → Prop} {a s : State}

theorem State.setReg_within (hW : Sub [.regs] Ω) {a' : Nat} {w : Word} (h : Within Ω a s) : Within Ω a (State.setReg s a' w) := by
  unfold State.setReg
  repeat' first
    | with_reducible assumption
    | with_reducible refine Within.ite (fun _ => ?_) (fun _ => ?_)
    | split
    | dsimp only
    | ((with_reducible refine Within.mk_same rfl ?_ ?_); (intro p hn; cases p <;> first | rfl | exact absurd (hW.use (by decide)) hn))

theorem State.setFld_within (hW : Sub [.regs] Ω) {f : Fld} {v : Nat} (h : Within Ω a s) : Within Ω a (State.setFld s f v) := by
  unfold State.setFld
  repeat' first
    | with_reducible assumption
    | with_reducible apply State.setReg_within (hW.of (by decide))

theorem State.bump_within (hW : Sub [.regs] Ω) {f : Fld} {k : Nat} (h : Within Ω a s) : Within Ω a (State.bump s f k) := by
  unfold State.bump
  repeat' first
    | with_reducible assumption
    | with_reducible apply State.setFld_within (hW.of (by decide))

theorem State.draw_within_pair (hW : Sub [.free] Ω) {n : Nat} {t : State} (e : State.draw s = (n, t)) (h : Within Ω a s) : Within Ω a t := by
  have := State.draw_within (hW.of (by decide)) h; rwa [e] at this

theorem sendMsi_within (hW : Sub [.hif, .out] Ω) {src : Nat} (h : Within Ω a s) : Within Ω a (sendMsi src s) := by
  unfold sendMsi
  extract_lets v1 v2
  clear_value v1 v2
  repeat' first
    | with_reducible assumption
    | with_reducible apply State.emit_within (hW.of (by decide))
    | with_reducible refine Within.ite (fun _ => ?_) (fun _ => ?_)
    | extract_lets
    | split
    | dsimp only
    | ((with_reducible refine Within.mk_same rfl ?_ ?_); (intro p hn; cases p <;> first | rfl | exact absurd (hW.use (by decide)) hn))

theorem notify_within (hW : Sub [.hif, .out] Ω) {src : Nat} {old : State} (h : Within Ω a s) : Within Ω a (notify src old s) := by
  unfold notify
  repeat' first
    | with_reducible assumption
    | with_reducible apply sendMsi_within (hW.of (by decide))
    | with_reducible refine Within.ite (fun _ => ?_) (fun _ => ?_)

theorem raiseFld_within (hW : Sub [.hif, .out, .regs] Ω) {src : Nat} {f : Fld} (h : Within Ω a s) : Within Ω a (raiseFld src f s) := by
  unfold raiseFld
  repeat' first
    | with_reducible assumption
    | with_reducible apply State.setFld_within (hW.of (by decide))
    | with_reducible apply notify_within (hW.of (by decide))

theorem pmcAdd_within (hW : Sub [.hif, .out, .pmu, .regs] Ω) {set : Nat} {i : Nat} {k : Nat} (h : Within Ω a s) : Within Ω a (pmcAdd set i k s) := by
  unfold pmcAdd
  extract_lets v1 v2 s1
  clear_value v1 v2
  have h1 : Within Ω a s1 := by
    unfold s1
    repeat' first
      | with_reducible assumption
      | with_reducible apply raiseFld_within (hW.of (by decide))
      | with_reducible refine Within.ite (fun _ => ?_) (fun _ => ?_)
      | extract_lets
      | split
      | dsimp only
      | ((with_reducible refine Within.mk_same rfl ?_ ?_); (intro p hn; cases p <;> first | rfl | exact absurd (hW.use (by decide)) hn))
  clear_value s1
  repeat' first
    | with_reducible assumption
    | with_reducible apply raiseFld_within (hW.of (by decide))
    | with_reducible refine Within.ite (fun _ => ?_) (fun _ => ?_)

theorem pmuEvent_within (hW : Sub [.hif, .out, .pmu, .regs] Ω) {set : Nat} {ev : Nat} {k : Nat} (h : Within Ω a s) : Within Ω a (pmuEvent set ev k s) := by
  unfold pmuEvent
  repeat' first
    | with_reducible assumption
    | with_reducible apply pmcAdd_within (hW.of (by decide))
    | with_reducible refine Within.ite (fun _ => ?_) (fun _ => ?_)
    | with_reducible refine Within.foldl ?_ (fun t x ht => ?_)

theorem pmuSync_within (hW : Sub [.hif, .out, .pmu, .regs] Ω) {set : Nat} (h : Within Ω a s) : Within Ω a (pmuSync set s) := by
  unfold pmuSync
  extract_lets v1 v2 v3 s1
  clear_value v1 v2 v3
  have h1 : Within Ω a s1 := by
    unfold s1
    repeat' first
      | with_reducible assumption
      | with_reducible apply raiseFld_within (hW.of (by decide))
      | with_reducible refine Within.ite (fun _ => ?_) (fun _ => ?_)
      | extract_lets
      | split
      | dsimp only
      | ((with_reducible refine Within.mk_same rfl ?_ ?_); (intro p hn; cases p <;> first | rfl | exact absurd (hW.use (by decide)) hn))
  clear_value s1
  repeat' first
    | with_reducible assumption
    | with_reducible apply raiseFld_within (hW.of (by decide))
    | with_reducible refine Within.ite (fun _ => ?_) (fun _ => ?_)

theorem pmuCoreTime_within (hW : Sub [.clk, .hbm, .hif, .out, .pmu, .regs, .seed, .time, .txHold, .ump] Ω) {set : Nat} {k : Nat} (h : Within Ω a s) : Within Ω a (pmuCoreTime set k s) := by
  unfold pmuCoreTime
  extract_lets v1
  clear_value v1
  repeat' first
    | with_reducible assumption
    | with_reducible apply pmuEvent_within (hW.of (by decide))
    | with_reducible refine Within.ite (fun _ => ?_) (fun _ => ?_)
    | with_reducible apply CoreRes.within_done
    | with_reducible apply KciRes.within_done
    | with_reducible apply KciRes.within_wait
    | extract_lets
    | split

theorem stallTime_within (hW : Sub [.hif, .out, .pmu, .regs] Ω) {n : Nat} (h : Within Ω a s) : Within Ω a (stallTime n s) := by
  unfold stallTime
  extract_lets v1 s1 s2 s3 s4
  clear_value v1
  have h1 : Within Ω a s1 := by
    unfold s1
    repeat' first
      | with_reducible assumption
      | with_reducible apply State.bump_within (hW.of (by decide))
      | with_reducible apply pmuEvent_within (hW.of (by decide))
      | with_reducible refine Within.ite (fun _ => ?_) (fun _ => ?_)
  clear_value s1
  have h2 : Within Ω a s2 := by
    unfold s2
    repeat' first
      | with_reducible assumption
      | with_reducible apply State.bump_within (hW.of (by decide))
      | with_reducible apply pmuEvent_within (hW.of (by decide))
      | with_reducible refine Within.ite (fun _ => ?_) (fun _ => ?_)
      | with_reducible refine Within.foldl ?_ (fun t x ht => ?_)
      | with_reducible apply CoreRes.within_done
      | with_reducible apply KciRes.within_done
      | extract_lets
      | split
  clear_value s2
  have h3 : Within Ω a s3 := by
    unfold s3
    repeat' first
      | with_reducible assumption
      | with_reducible apply State.bump_within (hW.of (by decide))
      | with_reducible apply pmuEvent_within (hW.of (by decide))
      | with_reducible refine Within.ite (fun _ => ?_) (fun _ => ?_)
  clear_value s3
  have h4 : Within Ω a s4 := by
    unfold s4
    repeat' first
      | with_reducible assumption
      | with_reducible apply State.bump_within (hW.of (by decide))
      | with_reducible apply pmuEvent_within (hW.of (by decide))
      | with_reducible refine Within.ite (fun _ => ?_) (fun _ => ?_)
  clear_value s4
  repeat' first
    | with_reducible assumption
    | with_reducible apply State.bump_within (hW.of (by decide))
    | with_reducible apply pmuEvent_within (hW.of (by decide))
    | with_reducible refine Within.ite (fun _ => ?_) (fun _ => ?_)
    | with_reducible refine Within.foldl ?_ (fun t x ht => ?_)

theorem advance_within (hW : Sub [.clk, .hbm, .hif, .out, .pmu, .regs, .seed, .time, .txHold, .ump] Ω) {n : Nat} (h : Within Ω a s) : Within Ω a (advance n s) := by
  unfold advance
  refine Within.ite (fun _ => h) (fun _ => ?_)
  refine Within.foldl ?_ (fun t x ht => pmuSync_within (hW.of (by decide)) ht)
  exact Within.tick (hW.of (by decide)) (Within.foldl (stallTime_within (hW.of (by decide)) h) (fun t x ht => pmuCoreTime_within (hW.of (by decide)) ht))

theorem advanceTo_within (hW : Sub [.clk, .hbm, .hif, .out, .pmu, .regs, .seed, .time, .txHold, .ump] Ω) {target : Nat} (h : Within Ω a s) : Within Ω a (advanceTo target s) := by
  unfold advanceTo
  extract_lets v1
  clear_value v1
  repeat' first
    | with_reducible assumption
    | with_reducible apply advance_within (hW.of (by decide))

theorem advanceSince_within (hW : Sub [.clk, .hbm, .hif, .out, .pmu, .regs, .seed, .time, .txHold, .ump] Ω) {since : Nat} {cycles : Nat} (h : Within Ω a s) : Within Ω a (advanceSince since cycles s) := by
  unfold advanceSince
  repeat' first
    | with_reducible assumption
    | with_reducible apply advance_within (hW.of (by decide))

theorem warmReset_within (hW : Sub [.bull, .cfg, .clu, .core, .flc, .gh, .glb, .graphs, .hbm, .hbmBad, .hif, .kml, .madi, .mdm, .mq, .net, .out, .pack, .peers, .pmu, .regs, .rfp, .scout, .seed, .time, .txHold, .ump] Ω) {cause : RstCause} {boot : Bool} (h : Within Ω a s) : Within Ω a (warmReset cause boot s) := by
  unfold warmReset
  extract_lets fatal n before restarts base s2 s3 s4 s5 s6 s7
  have h1 : Within Ω a base := h.cleared (hW.of (by decide)) rfl rfl rfl rfl rfl rfl rfl rfl rfl
  clear_value base
  have h6 : Within Ω a s6 := State.setFld_within (hW.of (by decide)) (State.setFld_within (hW.of (by decide)) (State.setFld_within (hW.of (by decide)) (State.setFld_within (hW.of (by decide)) (State.setFld_within (hW.of (by decide)) h1))))
  have h7 : Within Ω a s7 := Within.ite (fun _ => State.setFld_within (hW.of (by decide)) h6) (fun _ => h6)
  exact Within.ite (fun _ => raiseFld_within (hW.of (by decide)) h7) (fun _ => h7)

theorem coldReset_within (hW : Sub [.bull, .cfg, .clu, .core, .flc, .gh, .glb, .graphs, .hbm, .hbmBad, .hif, .kml, .madi, .mdm, .mq, .net, .pack, .peers, .pmu, .regs, .rfp, .scout, .seed, .time, .txHold, .ump] Ω) {bootPin cool : Bool} (h : Within Ω a s) : Within Ω a (coldReset bootPin cool s) :=
  h.cleared (hW.of (by decide)) rfl rfl rfl rfl rfl rfl rfl rfl rfl

theorem fatalReset_within (hW : Sub [.bull, .cfg, .clu, .core, .flc, .gh, .glb, .graphs, .hbm, .hbmBad, .hif, .kml, .madi, .mdm, .mq, .net, .out, .pack, .peers, .pmu, .regs, .rfp, .scout, .seed, .time, .txHold, .ump] Ω) {cause : Nat} {source : Nat} (h : Within Ω a s) : Within Ω a (fatalReset cause source s) := by
  unfold fatalReset
  extract_lets v1 v2 s1 s2 s3 s4
  clear_value v1 v2
  have h1 : Within Ω a s1 := by
    unfold s1
    repeat' first
      | with_reducible assumption
      | with_reducible apply State.setFld_within (hW.of (by decide))
  clear_value s1
  have h2 : Within Ω a s2 := by
    unfold s2
    repeat' first
      | with_reducible assumption
      | with_reducible apply State.setFld_within (hW.of (by decide))
  clear_value s2
  have h3 : Within Ω a s3 := by
    unfold s3
    repeat' first
      | with_reducible assumption
      | with_reducible apply State.setFld_within (hW.of (by decide))
  clear_value s3
  have h4 : Within Ω a s4 := by
    unfold s4
    repeat' first
      | with_reducible assumption
      | with_reducible apply State.setFld_within (hW.of (by decide))
  clear_value s4
  repeat' first
    | with_reducible assumption
    | with_reducible apply State.setFld_within (hW.of (by decide))
    | with_reducible apply warmReset_within (hW.of (by decide))

theorem State.hbmWrite_within (hW : Sub [.hbm] Ω) {b : Nat} {bs : List Byte} (h : Within Ω a s) : Within Ω a (State.hbmWrite s b bs) :=
  h.hbm (hW.of (by decide)) fun x => memWriteList_wf bs x.1 b

theorem umpWrite_within (hW : Sub [.hbm, .hif, .out, .regs] Ω) {e : UmpEv} {seq : Nat} {mtc : Nat} {rep : Nat} (h : Within Ω a s) : Within Ω a (umpWrite e seq mtc rep s) := by
  unfold umpWrite
  extract_lets v1 v2 v3
  clear_value v1 v2 v3
  repeat' first
    | with_reducible assumption
    | with_reducible apply State.setFld_within (hW.of (by decide))
    | with_reducible apply State.bump_within (hW.of (by decide))
    | with_reducible apply raiseFld_within (hW.of (by decide))
    | with_reducible apply State.hbmWrite_within (hW.of (by decide))
    | with_reducible refine Within.ite (fun _ => ?_) (fun _ => ?_)

theorem umpCount_within (hW : Sub [.hif, .out, .regs] Ω) {cls : Nat} (h : Within Ω a s) : Within Ω a (umpCount cls s) := by
  unfold umpCount
  repeat' first
    | with_reducible assumption
    | with_reducible apply State.bump_within (hW.of (by decide))
    | with_reducible apply raiseFld_within (hW.of (by decide))
    | split

theorem umpEvent_within (hW : Sub [.hbm, .hif, .out, .regs, .ump] Ω) {e : UmpEv} (h : Within Ω a s) : Within Ω a (umpEvent e s) := by
  unfold umpEvent
  extract_lets v1 s1 v2
  clear_value v1 v2
  have h1 : Within Ω a s1 := by
    unfold s1
    repeat' first
      | with_reducible assumption
      | with_reducible apply State.bump_within (hW.of (by decide))
      | with_reducible apply umpWrite_within (hW.of (by decide))
      | with_reducible apply umpCount_within (hW.of (by decide))
  clear_value s1
  repeat' first
    | with_reducible assumption
    | with_reducible apply State.bump_within (hW.of (by decide))
    | with_reducible apply umpWrite_within (hW.of (by decide))
    | with_reducible apply umpCount_within (hW.of (by decide))
    | with_reducible refine Within.ite (fun _ => ?_) (fun _ => ?_)
    | extract_lets
    | split
    | dsimp only
    | ((with_reducible refine Within.mk_same rfl ?_ ?_); (intro p hn; cases p <;> first | rfl | exact absurd (hW.use (by decide)) hn))

theorem State.setSeed_within (hW : Sub [.seed] Ω) {f : SeedSt → SeedSt} (h : Within Ω a s) : Within Ω a (State.setSeed s f) := by
  unfold State.setSeed
  repeat' first
    | with_reducible assumption
    | dsimp only
    | ((with_reducible refine Within.mk_same rfl ?_ ?_); (intro p hn; cases p <;> first | rfl | exact absurd (hW.use (by decide)) hn))

theorem acctAdd_within (hW : Sub [.seed] Ω) {a' : Nat} {n : Nat} (h : Within Ω a s) : Within Ω a (acctAdd a' n s) := by
  unfold acctAdd
  repeat' first
    | with_reducible assumption
    | with_reducible apply State.setSeed_within (hW.of (by decide))

theorem acctSub_within (hW : Sub [.seed] Ω) {a' : Nat} {n : Nat} (h : Within Ω a s) : Within Ω a (acctSub a' n s) := by
  unfold acctSub
  repeat' first
    | with_reducible assumption
    | with_reducible apply State.setSeed_within (hW.of (by decide))

theorem seedFault_within (hW : Sub [.hbm, .hif, .out, .regs, .seed, .ump] Ω) {f : Fld} {cause : Nat} {node : Nat} {acct : Nat} {h' : Nat} {suspect : Bool} (h : Within Ω a s) : Within Ω a (seedFault f cause node acct h' suspect s) := by
  unfold seedFault
  extract_lets s1 s2
  have h1 : Within Ω a s1 := by
    unfold s1
    repeat' first
      | with_reducible assumption
      | with_reducible apply State.bump_within (hW.of (by decide))
      | with_reducible apply raiseFld_within (hW.of (by decide))
  clear_value s1
  have h2 : Within Ω a s2 := by
    unfold s2
    repeat' first
      | with_reducible assumption
      | with_reducible apply State.bump_within (hW.of (by decide))
      | with_reducible apply raiseFld_within (hW.of (by decide))
      | with_reducible apply umpEvent_within (hW.of (by decide))
      | with_reducible apply State.setSeed_within (hW.of (by decide))
      | with_reducible refine Within.ite (fun _ => ?_) (fun _ => ?_)
  clear_value s2
  repeat' first
    | with_reducible assumption
    | with_reducible apply State.bump_within (hW.of (by decide))
    | with_reducible apply raiseFld_within (hW.of (by decide))
    | with_reducible apply umpEvent_within (hW.of (by decide))

theorem mismatch_within (hW : Sub [.hbm, .hif, .out, .regs, .seed, .ump] Ω) {acct : Nat} (h : Within Ω a s) : Within Ω a (mismatch acct s) := by
  unfold mismatch
  repeat' first
    | with_reducible assumption
    | with_reducible apply seedFault_within (hW.of (by decide))

theorem checkTotals_within (hW : Sub [.hbm, .hif, .out, .regs, .seed, .ump] Ω) {old : State} (h : Within Ω a s) : Within Ω a (checkTotals old s) := by
  unfold checkTotals
  repeat' first
    | with_reducible assumption
    | with_reducible apply mismatch_within (hW.of (by decide))
    | with_reducible refine Within.ite (fun _ => ?_) (fun _ => ?_)
    | with_reducible refine Within.foldl ?_ (fun t x ht => ?_)
    | (intro c hc; first | exact hc | (simp; done) | (simpa using hc))
    | extract_lets
    | split
    | dsimp only
    | ((with_reducible refine Within.mk_same rfl ?_ ?_); (intro p hn; cases p <;> first | rfl | exact absurd (hW.use (by decide)) hn))

theorem totalsTake_within (hW : Sub [.hbm, .hif, .out, .regs, .seed, .ump] Ω) {n : Nat} (h : Within Ω a s) : Within Ω a (totalsTake n s) := by
  unfold totalsTake
  repeat' first
    | with_reducible assumption
    | with_reducible apply checkTotals_within (hW.of (by decide))
    | with_reducible apply State.setSeed_within (hW.of (by decide))
    | with_reducible refine Within.ite (fun _ => ?_) (fun _ => ?_)
    | with_reducible refine Within.foldl ?_ (fun t x ht => ?_)
    | (intro c hc; first | exact hc | (simp; done) | (simpa using hc))
    | extract_lets
    | split
    | dsimp only
    | ((with_reducible refine Within.mk_same rfl ?_ ?_); (intro p hn; cases p <;> first | rfl | exact absurd (hW.use (by decide)) hn))

theorem totalsGive_within (hW : Sub [.hbm, .hif, .out, .regs, .seed, .ump] Ω) {n : Nat} (h : Within Ω a s) : Within Ω a (totalsGive n s) := by
  unfold totalsGive
  repeat' first
    | with_reducible assumption
    | with_reducible apply checkTotals_within (hW.of (by decide))
    | with_reducible apply State.setSeed_within (hW.of (by decide))
    | with_reducible refine Within.ite (fun _ => ?_) (fun _ => ?_)
    | with_reducible refine Within.foldl ?_ (fun t x ht => ?_)
    | (intro c hc; first | exact hc | (simp; done) | (simpa using hc))
    | extract_lets
    | split
    | dsimp only
    | ((with_reducible refine Within.mk_same rfl ?_ ?_); (intro p hn; cases p <;> first | rfl | exact absurd (hW.use (by decide)) hn))

theorem seedAlloc_within (hW : Sub [.free, .hbm, .hif, .out, .pmu, .regs, .seed, .ump] Ω) {a' : Nat} {n : Nat} {st : GranSt} (h : Within Ω a s) : Within Ω a (seedAlloc a' n st s).2 := by
  unfold seedAlloc
  extract_lets v1 s1
  clear_value v1
  have h1 : Within Ω a s1 := by
    unfold s1
    repeat' first
      | with_reducible assumption
      | with_reducible apply State.bump_within (hW.of (by decide))
      | with_reducible apply State.draw_within (hW.of (by decide))
      | refine State.draw_within_pair (hW.of (by decide)) (by assumption) ?_
      | with_reducible apply raiseFld_within (hW.of (by decide))
      | with_reducible apply pmuEvent_within (hW.of (by decide))
      | with_reducible apply State.setSeed_within (hW.of (by decide))
  clear_value s1
  repeat' first
    | with_reducible assumption
    | with_reducible apply State.bump_within (hW.of (by decide))
    | with_reducible apply State.draw_within (hW.of (by decide))
    | refine State.draw_within_pair (hW.of (by decide)) (by assumption) ?_
    | with_reducible apply raiseFld_within (hW.of (by decide))
    | with_reducible apply pmuEvent_within (hW.of (by decide))
    | with_reducible apply State.setSeed_within (hW.of (by decide))
    | with_reducible apply acctAdd_within (hW.of (by decide))
    | with_reducible apply totalsTake_within (hW.of (by decide))
    | with_reducible refine Within.ite (fun _ => ?_) (fun _ => ?_)
    | extract_lets
    | split

theorem seedAlloc_within_pair (hW : Sub [.free, .hbm, .hif, .out, .pmu, .regs, .seed, .ump] Ω) {a' : Nat} {n : Nat} {st : GranSt} {x0} {t} (e : seedAlloc a' n st s = (x0, t)) (h : Within Ω a s) : Within Ω a t := by
  have := seedAlloc_within (hW.of (by decide)) (a' := a') (n := n) (st := st) h; rwa [e] at this

theorem seedFree_within (hW : Sub [.hbm, .hif, .out, .regs, .seed, .ump] Ω) {h' : Nat} (h : Within Ω a s) : Within Ω a (seedFree h' s) := by
  unfold seedFree
  extract_lets v1 v2 v3 s1
  clear_value v1 v2 v3
  have h1 : Within Ω a s1 := by
    unfold s1
    repeat' first
      | with_reducible assumption
      | with_reducible apply State.setSeed_within (hW.of (by decide))
  clear_value s1
  repeat' first
    | with_reducible assumption
    | with_reducible apply State.setSeed_within (hW.of (by decide))
    | with_reducible apply acctSub_within (hW.of (by decide))
    | with_reducible apply totalsGive_within (hW.of (by decide))

theorem setFirstTag_within (hW : Sub [.seed] Ω) {h' : Nat} {f : Tag → Tag} (h : Within Ω a s) : Within Ω a (setFirstTag h' f s) := by
  unfold setFirstTag
  repeat' first
    | with_reducible assumption
    | with_reducible apply State.setSeed_within (hW.of (by decide))

theorem seedMove_within (hW : Sub [.seed] Ω) {h' : Nat} {a' : Nat} (h : Within Ω a s) : Within Ω a (seedMove h' a' s) := by
  unfold seedMove
  extract_lets v1 v2 v3 v4 s1
  clear_value v1 v2 v3 v4
  have h1 : Within Ω a s1 := by
    unfold s1
    repeat' first
      | with_reducible assumption
      | with_reducible apply State.setSeed_within (hW.of (by decide))
  clear_value s1
  repeat' first
    | with_reducible assumption
    | with_reducible apply State.setSeed_within (hW.of (by decide))
    | with_reducible apply acctAdd_within (hW.of (by decide))
    | with_reducible apply acctSub_within (hW.of (by decide))
    | with_reducible apply setFirstTag_within (hW.of (by decide))

theorem seedOwn_within (hW : Sub [.seed] Ω) {h' : Nat} (h : Within Ω a s) : Within Ω a (seedOwn h' s) := by
  unfold seedOwn
  extract_lets v1
  clear_value v1
  repeat' first
    | with_reducible assumption
    | with_reducible apply State.setSeed_within (hW.of (by decide))

theorem commitFree_within (hW : Sub [.hbm, .hif, .out, .regs, .seed, .ump] Ω) {node : Nat} {acct : Nat} {h' : Nat} (h : Within Ω a s) : Within Ω a (commitFree node acct h' s) := by
  unfold commitFree
  extract_lets v1
  clear_value v1
  repeat' first
    | with_reducible assumption
    | with_reducible apply seedFree_within (hW.of (by decide))
    | with_reducible apply setFirstTag_within (hW.of (by decide))
    | with_reducible apply seedFault_within (hW.of (by decide))
    | with_reducible refine Within.ite (fun _ => ?_) (fun _ => ?_)

theorem commitGive_within (hW : Sub [.hbm, .hif, .out, .regs, .seed, .ump] Ω) {node : Nat} {acct : Nat} {h' : Nat} {a' : Nat} (h : Within Ω a s) : Within Ω a (commitGive node acct h' a' s) := by
  unfold commitGive
  repeat' first
    | with_reducible assumption
    | with_reducible apply seedMove_within (hW.of (by decide))
    | with_reducible apply seedFault_within (hW.of (by decide))
    | with_reducible refine Within.ite (fun _ => ?_) (fun _ => ?_)

theorem undoAlloc_within (hW : Sub [.hbm, .hif, .out, .regs, .seed, .ump] Ω) {h' : Nat} (h : Within Ω a s) : Within Ω a (undoAlloc h' s) := by
  unfold undoAlloc
  extract_lets v1
  clear_value v1
  repeat' first
    | with_reducible assumption
    | with_reducible apply State.bump_within (hW.of (by decide))
    | with_reducible apply seedFree_within (hW.of (by decide))

end Sys2Proof.Machine
end

