-- ==== Sys2Proof/Laws/WithinQueue.lean ====
section
/-!
SUPPORT. Laws/WithinQueue.lean: which parts of the state every operation of media queues, Greenhouse and Bullpen may change.
-/

namespace Sys2Proof.Machine

variable {Ω : Part → Prop} {a s : State}

theorem State.setQueue_within (hW : Sub [.mq] Ω) {q : Nat} {x : Queue} (h : Within Ω a s) : Within Ω a (State.setQueue s q x) := by
  unfold State.setQueue
  repeat' first
    | with_reducible assumption
    | dsimp only
    | ((with_reducible refine Within.mk_same rfl ?_ ?_); (intro p hn; cases p <;> first | rfl | exact absurd (hW.use (by decide)) hn))

theorem freeItem_within (hW : Sub [.hbm, .hif, .out, .regs, .seed, .ump] Ω) {e : Entry} (h : Within Ω a s) : Within Ω a (freeItem e s) := by
  unfold freeItem
  repeat' first
    | with_reducible assumption
    | with_reducible apply seedFree_within (hW.of (by decide))
    | with_reducible refine Within.ite (fun _ => ?_) (fun _ => ?_)

theorem countLost_within (hW : Sub [.hif, .mq, .out, .regs] Ω) {q : Nat} (h : Within Ω a s) : Within Ω a (countLost q s) := by
  unfold countLost
  repeat' first
    | with_reducible assumption
    | with_reducible apply State.bump_within (hW.of (by decide))
    | with_reducible apply raiseFld_within (hW.of (by decide))
    | with_reducible apply State.setQueue_within (hW.of (by decide))
    | extract_lets
    | split

theorem loseMark_within (hW : Sub [.hif, .mq, .out, .regs] Ω) {q : Nat} (h : Within Ω a s) : Within Ω a (loseMark q s) := by
  unfold loseMark
  repeat' first
    | with_reducible assumption
    | with_reducible apply raiseFld_within (hW.of (by decide))
    | with_reducible apply State.setQueue_within (hW.of (by decide))
    | split

theorem discardHead_within (hW : Sub [.hbm, .hif, .mq, .out, .regs, .seed, .ump] Ω) {q : Nat} (h : Within Ω a s) : Within Ω a (discardHead q s) := by
  unfold discardHead
  repeat' first
    | with_reducible assumption
    | with_reducible apply freeItem_within (hW.of (by decide))
    | with_reducible apply State.setQueue_within (hW.of (by decide))
    | with_reducible apply loseMark_within (hW.of (by decide))
    | with_reducible refine Within.ite (fun _ => ?_) (fun _ => ?_)
    | with_reducible refine Within.foldl ?_ (fun t x ht => ?_)
    | (intro c hc; first | exact hc | (simp; done) | (simpa using hc))
    | extract_lets
    | split
    | dsimp only
    | ((with_reducible refine Within.mk_same rfl ?_ ?_); (intro p hn; cases p <;> first | rfl | exact absurd (hW.use (by decide)) hn))

theorem dropOldest_within (hW : Sub [.flash, .flc, .hbm, .hif, .mq, .out, .pmu, .regs, .seed, .ump] Ω) {q : Nat} (h : Within Ω a s) : Within Ω a (dropOldest q s) := by
  unfold dropOldest
  repeat' first
    | with_reducible assumption
    | with_reducible apply State.setQueue_within (hW.of (by decide))
    | with_reducible apply loseMark_within (hW.of (by decide))
    | with_reducible apply countLost_within (hW.of (by decide))
    | with_reducible apply freeItem_within (hW.of (by decide))
    | with_reducible apply discardHead_within (hW.of (by decide))
    | with_reducible refine Within.ite (fun _ => ?_) (fun _ => ?_)
    | with_reducible refine Within.foldl ?_ (fun t x ht => ?_)
    | (intro c hc; first | exact hc | (simp; done) | (simpa using hc))
    | extract_lets
    | split
    | dsimp only
    | ((with_reducible refine Within.mk_same rfl ?_ ?_); (intro p hn; cases p <;> first | rfl | exact absurd (hW.use (by decide)) hn))

theorem storeAt_within (hW : Sub [.hif, .mq, .out, .pmu, .regs, .seed] Ω) {q : Nat} {p : Nat} {e : Entry} (h : Within Ω a s) : Within Ω a (storeAt q p e s) := by
  unfold storeAt
  extract_lets v1
  clear_value v1
  repeat' first
    | with_reducible assumption
    | with_reducible apply pmuEvent_within (hW.of (by decide))
    | with_reducible apply seedMove_within (hW.of (by decide))
    | with_reducible apply State.setQueue_within (hW.of (by decide))
    | with_reducible refine Within.ite (fun _ => ?_) (fun _ => ?_)
    | extract_lets
    | split

theorem storeItem_within (hW : Sub [.hif, .mq, .out, .pmu, .regs, .seed] Ω) {q : Nat} {e : Entry} (h : Within Ω a s) : Within Ω a (storeItem q e s) := by
  unfold storeItem
  repeat' first
    | with_reducible assumption
    | with_reducible apply storeAt_within (hW.of (by decide))
    | with_reducible refine Within.ite (fun _ => ?_) (fun _ => ?_)
    | split

theorem dropIncoming_within (hW : Sub [.hbm, .hif, .mq, .out, .regs, .seed, .ump] Ω) {q : Nat} {e : Entry} (h : Within Ω a s) : Within Ω a (dropIncoming q e s) := by
  unfold dropIncoming
  repeat' first
    | with_reducible assumption
    | with_reducible apply freeItem_within (hW.of (by decide))
    | with_reducible apply countLost_within (hW.of (by decide))

theorem pushFull_within (hW : Sub [.flash, .flc, .hbm, .hif, .mq, .out, .pmu, .regs, .seed, .ump] Ω) {q : Nat} {e : Entry} (h : Within Ω a s) : Within Ω a (pushFull q e s) := by
  unfold pushFull
  extract_lets s1
  have h1 : Within Ω a s1 := by
    unfold s1
    repeat' first
      | with_reducible assumption
      | with_reducible apply dropOldest_within (hW.of (by decide))
  clear_value s1
  repeat' first
    | with_reducible assumption
    | with_reducible apply dropOldest_within (hW.of (by decide))
    | with_reducible apply storeItem_within (hW.of (by decide))
    | with_reducible apply dropIncoming_within (hW.of (by decide))
    | with_reducible refine Within.ite (fun _ => ?_) (fun _ => ?_)
    | extract_lets
    | split

theorem asyncFull_within (hW : Sub [.free] Ω) {q : Nat} {x : Queue} (h : Within Ω a s) : Within Ω a (asyncFull q x s).2 := by
  unfold asyncFull
  extract_lets v1
  clear_value v1
  repeat' first
    | with_reducible assumption
    | with_reducible apply State.draw_within (hW.of (by decide))
    | refine State.draw_within_pair (hW.of (by decide)) (by assumption) ?_
    | with_reducible refine Within.ite (fun _ => ?_) (fun _ => ?_)
    | extract_lets
    | split

theorem asyncFull_within_pair (hW : Sub [.free] Ω) {q : Nat} {x : Queue} {x0} {t} (e : asyncFull q x s = (x0, t)) (h : Within Ω a s) : Within Ω a t := by
  have := asyncFull_within (hW.of (by decide)) (q := q) (x := x) h; rwa [e] at this

theorem judgedKey_within (hW : Sub [.free] Ω) {x : Queue} (h : Within Ω a s) : Within Ω a (judgedKey x s).2 := by
  unfold judgedKey
  repeat' first
    | with_reducible assumption
    | refine State.draw_within_pair (hW.of (by decide)) (by assumption) ?_
    | with_reducible apply State.draw_within (hW.of (by decide))
    | with_reducible refine Within.ite (fun _ => ?_) (fun _ => ?_)
    | with_reducible refine Within.foldl ?_ (fun t x ht => ?_)
    | (intro c hc; first | exact hc | (simp; done) | (simpa using hc))
    | extract_lets
    | split
    | dsimp only
    | ((with_reducible refine Within.mk_same rfl ?_ ?_); (intro p hn; cases p <;> first | rfl | exact absurd (hW.use (by decide)) hn))

theorem judgedKey_within_pair (hW : Sub [.free] Ω) {x : Queue} {y0} {t} (e : judgedKey x s = (y0, t)) (h : Within Ω a s) : Within Ω a t := by
  have := judgedKey_within (hW.of (by decide)) (x := x) h; rwa [e] at this

theorem mqPush_within (hW : Sub [.flash, .flc, .free, .hbm, .hif, .mq, .out, .pmu, .regs, .seed, .ump] Ω) {q : Nat} {e : Entry} (h : Within Ω a s) : Within Ω a (mqPush q e s) := by
  unfold mqPush
  repeat' first
    | with_reducible assumption
    | with_reducible apply pmuEvent_within (hW.of (by decide))
    | with_reducible apply State.setQueue_within (hW.of (by decide))
    | refine judgedKey_within_pair (hW.of (by decide)) (by assumption) ?_
    | with_reducible apply judgedKey_within (hW.of (by decide))
    | with_reducible apply freeItem_within (hW.of (by decide))
    | with_reducible apply State.bump_within (hW.of (by decide))
    | with_reducible apply storeItem_within (hW.of (by decide))
    | with_reducible apply dropIncoming_within (hW.of (by decide))
    | with_reducible apply pushFull_within (hW.of (by decide))
    | refine asyncFull_within_pair (hW.of (by decide)) (by assumption) ?_
    | with_reducible apply asyncFull_within (hW.of (by decide))
    | with_reducible apply raiseFld_within (hW.of (by decide))
    | with_reducible refine Within.ite (fun _ => ?_) (fun _ => ?_)
    | with_reducible refine Within.foldl ?_ (fun t x ht => ?_)
    | (intro c hc; first | exact hc | (simp; done) | (simpa using hc))
    | extract_lets
    | split
    | dsimp only
    | ((with_reducible refine Within.mk_same rfl ?_ ?_); (intro p hn; cases p <;> first | rfl | exact absurd (hW.use (by decide)) hn))

theorem mqTake_within (hW : Sub [.free, .hif, .mq, .out, .pmu, .regs] Ω) {q : Nat} {bound : Option Nat} (h : Within Ω a s) : Within Ω a (mqTake q bound s).2 := by
  unfold mqTake
  split
  · exact h
  have hd : Within Ω a s.draw.2 := State.draw_within (hW.of (by decide)) h
  dsimp only
  repeat' first
    | exact h
    | exact hd
    | exact State.setQueue_within (hW.of (by decide)) h
    | exact State.setQueue_within (hW.of (by decide)) hd
    | exact pmuEvent_within (hW.of (by decide)) (State.setQueue_within (hW.of (by decide)) h)
    | exact pmuEvent_within (hW.of (by decide)) (State.setQueue_within (hW.of (by decide)) hd)
    | split

theorem mqTake_within_pair (hW : Sub [.free, .hif, .mq, .out, .pmu, .regs] Ω) {q : Nat} {bound : Option Nat} {r : PopRes} {t : State} (e : mqTake q bound s = (r, t)) (h : Within Ω a s) : Within Ω a t := by
  have := mqTake_within (hW.of (by decide)) (q := q) (bound := bound) h; rwa [e] at this

theorem releaseOldest_within (hW : Sub [.hbm, .hif, .mq, .out, .regs, .seed, .ump] Ω) {q : Nat} (h : Within Ω a s) : Within Ω a (releaseOldest q s) := by
  unfold releaseOldest
  repeat' first
    | with_reducible assumption
    | with_reducible apply State.setQueue_within (hW.of (by decide))
    | with_reducible apply freeItem_within (hW.of (by decide))
    | with_reducible apply loseMark_within (hW.of (by decide))
    | with_reducible refine Within.ite (fun _ => ?_) (fun _ => ?_)
    | extract_lets
    | split

theorem retainItem_within (hW : Sub [.flash, .flc, .hbm, .hif, .mq, .out, .pmu, .regs, .seed, .ump] Ω) {q : Nat} {i : Item} (h : Within Ω a s) : Within Ω a (retainItem q i s) := by
  unfold retainItem
  extract_lets s1 s2
  have h1 : Within Ω a s1 := by
    unfold s1
    repeat' first
      | with_reducible assumption
      | with_reducible apply State.setQueue_within (hW.of (by decide))
      | with_reducible apply dropOldest_within (hW.of (by decide))
      | with_reducible apply releaseOldest_within (hW.of (by decide))
      | with_reducible refine Within.ite (fun _ => ?_) (fun _ => ?_)
      | extract_lets
      | split
  clear_value s1
  have h2 : Within Ω a s2 := by
    unfold s2
    repeat' first
      | with_reducible assumption
      | with_reducible apply State.setQueue_within (hW.of (by decide))
      | with_reducible apply dropOldest_within (hW.of (by decide))
      | with_reducible apply releaseOldest_within (hW.of (by decide))
      | with_reducible refine Within.ite (fun _ => ?_) (fun _ => ?_)
      | extract_lets
      | split
  clear_value s2
  repeat' first
    | with_reducible assumption
    | with_reducible apply State.setQueue_within (hW.of (by decide))
    | with_reducible apply dropOldest_within (hW.of (by decide))
    | with_reducible apply releaseOldest_within (hW.of (by decide))
    | with_reducible refine Within.ite (fun _ => ?_) (fun _ => ?_)
    | extract_lets
    | split

theorem countPop_within (hW : Sub [.hif, .mq, .out, .pmu, .regs] Ω) {q : Nat} (h : Within Ω a s) : Within Ω a (countPop q s) := by
  unfold countPop
  repeat' first
    | with_reducible assumption
    | with_reducible apply pmuEvent_within (hW.of (by decide))
    | with_reducible apply State.setQueue_within (hW.of (by decide))
    | split

theorem commitPop_within (hW : Sub [.flash, .flc, .hbm, .hif, .mq, .out, .pmu, .regs, .seed, .ump] Ω) {q : Nat} {i : Item} {loan : Bool} {acct : Nat} (h : Within Ω a s) : Within Ω a (commitPop q i loan acct s) := by
  unfold commitPop
  extract_lets s1 s2
  have h1 : Within Ω a s1 := by
    unfold s1
    repeat' first
      | with_reducible assumption
      | with_reducible apply seedMove_within (hW.of (by decide))
      | with_reducible apply State.setQueue_within (hW.of (by decide))
      | with_reducible apply retainItem_within (hW.of (by decide))
      | with_reducible apply countPop_within (hW.of (by decide))
  clear_value s1
  have h2 : Within Ω a s2 := by
    unfold s2
    repeat' first
      | with_reducible assumption
      | with_reducible apply seedMove_within (hW.of (by decide))
      | with_reducible apply State.setQueue_within (hW.of (by decide))
      | with_reducible apply retainItem_within (hW.of (by decide))
      | with_reducible apply countPop_within (hW.of (by decide))
      | with_reducible refine Within.ite (fun _ => ?_) (fun _ => ?_)
      | extract_lets
      | split
  clear_value s2
  repeat' first
    | with_reducible assumption
    | with_reducible apply seedMove_within (hW.of (by decide))
    | with_reducible apply State.setQueue_within (hW.of (by decide))
    | with_reducible apply retainItem_within (hW.of (by decide))
    | with_reducible apply countPop_within (hW.of (by decide))
    | with_reducible refine Within.ite (fun _ => ?_) (fun _ => ?_)

theorem mqPopNow_within (hW : Sub [.flash, .flc, .free, .hbm, .hif, .mq, .out, .pmu, .regs, .seed, .ump] Ω) {q : Nat} {bound : Option Nat} {acct : Nat} (h : Within Ω a s) : Within Ω a (mqPopNow q bound acct s).2.2 := by
  unfold mqPopNow
  extract_lets v1
  clear_value v1
  repeat' first
    | with_reducible assumption
    | with_reducible apply mqTake_within (hW.of (by decide))
    | refine mqTake_within_pair (hW.of (by decide)) (by assumption) ?_
    | with_reducible apply commitPop_within (hW.of (by decide))
    | extract_lets
    | split

theorem mqPopNow_within_pair (hW : Sub [.flash, .flc, .free, .hbm, .hif, .mq, .out, .pmu, .regs, .seed, .ump] Ω) {q : Nat} {bound : Option Nat} {acct : Nat} {x0} {x1} {t} (e : mqPopNow q bound acct s = (x0, x1, t)) (h : Within Ω a s) : Within Ω a t := by
  have := mqPopNow_within (hW.of (by decide)) (q := q) (bound := bound) (acct := acct) h; rwa [e] at this

theorem placeMark_within (hW : Sub [.hbm, .hif, .mq, .out, .regs, .seed, .ump] Ω) {q : Nat} (h : Within Ω a s) : Within Ω a (placeMark q s) := by
  unfold placeMark
  repeat' first
    | with_reducible assumption
    | with_reducible apply State.setQueue_within (hW.of (by decide))
    | with_reducible apply freeItem_within (hW.of (by decide))
    | with_reducible refine Within.foldl ?_ (fun t x ht => ?_)
    | extract_lets
    | split

theorem clearMark_within (hW : Sub [.hbm, .hif, .mq, .out, .regs, .seed, .ump] Ω) {q : Nat} (h : Within Ω a s) : Within Ω a (clearMark q s) := by
  unfold clearMark
  repeat' first
    | with_reducible assumption
    | with_reducible apply State.setQueue_within (hW.of (by decide))
    | with_reducible apply freeItem_within (hW.of (by decide))
    | with_reducible refine Within.foldl ?_ (fun t x ht => ?_)
    | extract_lets
    | split

theorem replayAll_within (hW : Sub [.mq] Ω) {q : Nat} (h : Within Ω a s) : Within Ω a (replayAll q s) := by
  unfold replayAll
  repeat' first
    | with_reducible assumption
    | with_reducible apply State.setQueue_within (hW.of (by decide))
    | with_reducible refine Within.ite (fun _ => ?_) (fun _ => ?_)
    | extract_lets
    | split

theorem restoreItems_within (hW : Sub [.flash, .flc, .hbm, .hif, .mq, .out, .pmu, .regs, .seed, .ump] Ω) {q : Nat} {items : List Item} {key : Nat × Bool} (h : Within Ω a s) : Within Ω a (restoreItems q items key s) := by
  unfold restoreItems
  repeat' first
    | with_reducible assumption
    | with_reducible apply State.bump_within (hW.of (by decide))
    | with_reducible apply State.setQueue_within (hW.of (by decide))
    | with_reducible apply dropOldest_within (hW.of (by decide))
    | with_reducible refine Within.ite (fun _ => ?_) (fun _ => ?_)
    | with_reducible refine Within.foldl ?_ (fun t x ht => ?_)
    | extract_lets
    | split

theorem State.setNode_within (hW : Sub [.bull] Ω) {n : Nat} {d : NodeD} (h : Within Ω a s) : Within Ω a (State.setNode s n d) := by
  unfold State.setNode
  extract_lets v1
  clear_value v1
  repeat' first
    | with_reducible assumption
    | dsimp only
    | ((with_reducible refine Within.mk_same rfl ?_ ?_); (intro p hn; cases p <;> first | rfl | exact absurd (hW.use (by decide)) hn))

theorem State.updNode_within (hW : Sub [.bull] Ω) {n : Nat} {f : NodeD → NodeD} (h : Within Ω a s) : Within Ω a (State.updNode s n f) := by
  unfold State.updNode
  repeat' first
    | with_reducible assumption
    | with_reducible apply State.setNode_within (hW.of (by decide))
    | split

theorem setPwr_within (hW : Sub [.clu] Ω) {n : Nat} {p : Pwr} (h : Within Ω a s) : Within Ω a (setPwr n p s) := by
  unfold setPwr
  extract_lets v1
  clear_value v1
  repeat' first
    | with_reducible assumption
    | with_reducible apply Within.updClu (hW.of (by decide))
    | exact fun _ hc => hc

theorem wakeCluster_within (hW : Sub [.clk, .clu, .hbm, .hif, .out, .pmu, .regs, .seed, .time, .txHold, .ump] Ω) {n : Nat} (h : Within Ω a s) : Within Ω a (wakeCluster n s) := by
  unfold wakeCluster
  extract_lets v1
  clear_value v1
  repeat' first
    | with_reducible assumption
    | with_reducible apply Within.updClu (hW.of (by decide))
    | with_reducible refine Within.ite (fun _ => ?_) (fun _ => ?_)
    | exact fun _ hc => hc
    | extract_lets
    | split

theorem tryIdle_within (hW : Sub [.clk, .clu, .hbm, .hif, .out, .pmu, .regs, .seed, .time, .txHold, .ump] Ω) {n : Nat} (h : Within Ω a s) : Within Ω a (tryIdle n s) := by
  unfold tryIdle
  extract_lets v1 v2
  clear_value v1 v2
  repeat' first
    | with_reducible assumption
    | with_reducible apply setPwr_within (hW.of (by decide))
    | with_reducible refine Within.ite (fun _ => ?_) (fun _ => ?_)

theorem State.setGh_within (hW : Sub [.gh] Ω) {f : GhSt → GhSt} (h : Within Ω a s) : Within Ω a (State.setGh s f) := by
  unfold State.setGh
  repeat' first
    | with_reducible assumption
    | dsimp only
    | ((with_reducible refine Within.mk_same rfl ?_ ?_); (intro p hn; cases p <;> first | rfl | exact absurd (hW.use (by decide)) hn))

theorem invalidate_within (hW : Sub [.gh, .regs] Ω) {n : Nat} (h : Within Ω a s) : Within Ω a (invalidate n s) := by
  unfold invalidate
  extract_lets s1
  have h1 : Within Ω a s1 := by
    unfold s1
    repeat' first
      | with_reducible assumption
      | with_reducible apply State.bump_within (hW.of (by decide))
      | with_reducible apply State.setGh_within (hW.of (by decide))
  clear_value s1
  repeat' first
    | with_reducible assumption
    | with_reducible apply State.bump_within (hW.of (by decide))
    | with_reducible apply State.setGh_within (hW.of (by decide))
    | with_reducible refine Within.ite (fun _ => ?_) (fun _ => ?_)
    | extract_lets
    | split

theorem evict_within (hW : Sub [.gh, .regs] Ω) {n : Nat} (h : Within Ω a s) : Within Ω a (evict n s) := by
  unfold evict
  repeat' first
    | with_reducible assumption
    | with_reducible apply State.setGh_within (hW.of (by decide))
    | with_reducible apply State.bump_within (hW.of (by decide))
    | with_reducible apply invalidate_within (hW.of (by decide))
    | with_reducible refine Within.ite (fun _ => ?_) (fun _ => ?_)
    | with_reducible refine Within.foldl ?_ (fun t x ht => ?_)
    | (intro c hc; first | exact hc | (simp; done) | (simpa using hc))
    | extract_lets
    | split
    | dsimp only
    | ((with_reducible refine Within.mk_same rfl ?_ ?_); (intro p hn; cases p <;> first | rfl | exact absurd (hW.use (by decide)) hn))

theorem invalidateCore_within (hW : Sub [.gh, .regs] Ω) {k : Nat} (h : Within Ω a s) : Within Ω a (invalidateCore k s) := by
  unfold invalidateCore
  repeat' first
    | with_reducible assumption
    | with_reducible apply invalidate_within (hW.of (by decide))
    | with_reducible refine Within.foldl ?_ (fun t x ht => ?_)

theorem placePageIn_within (hW : Sub [.gh, .hif, .out, .regs] Ω) {n : Nat} {p : PageIn} (h : Within Ω a s) : Within Ω a (placePageIn n p s) := by
  unfold placePageIn
  repeat' first
    | with_reducible assumption
    | with_reducible apply evict_within (hW.of (by decide))
    | with_reducible apply State.setGh_within (hW.of (by decide))
    | with_reducible apply raiseFld_within (hW.of (by decide))
    | with_reducible refine Within.ite (fun _ => ?_) (fun _ => ?_)
    | with_reducible refine Within.foldl ?_ (fun t x ht => ?_)
    | (intro c hc; first | exact hc | (simp; done) | (simpa using hc))
    | extract_lets
    | split
    | dsimp only
    | ((with_reducible refine Within.mk_same rfl ?_ ?_); (intro p hn; cases p <;> first | rfl | exact absurd (hW.use (by decide)) hn))

theorem startPageIn_within (hW : Sub [.clk, .clu, .gh, .hbm, .hif, .out, .pmu, .regs, .seed, .time, .txHold, .ump] Ω) {n : Nat} {k : Nat} {pre : Bool} (h : Within Ω a s) : Within Ω a (startPageIn n k pre s) := by
  unfold startPageIn
  extract_lets s1 s2 v1 s3
  have h1 : Within Ω a s1 := by
    unfold s1
    repeat' first
      | with_reducible assumption
      | with_reducible apply wakeCluster_within (hW.of (by decide))
      | with_reducible apply invalidate_within (hW.of (by decide))
      | with_reducible apply State.bump_within (hW.of (by decide))
      | with_reducible apply State.setGh_within (hW.of (by decide))
      | with_reducible apply placePageIn_within (hW.of (by decide))
      | with_reducible refine Within.ite (fun _ => ?_) (fun _ => ?_)
      | with_reducible refine Within.foldl ?_ (fun t x ht => ?_)
      | (intro c hc; first | exact hc | (simp; done) | (simpa using hc))
      | extract_lets
      | split
      | dsimp only
      | ((with_reducible refine Within.mk_same rfl ?_ ?_); (intro p hn; cases p <;> first | rfl | exact absurd (hW.use (by decide)) hn))
  clear_value s1
  have h2 : Within Ω a s2 := by
    unfold s2
    repeat' first
      | with_reducible assumption
      | with_reducible apply wakeCluster_within (hW.of (by decide))
      | with_reducible apply invalidate_within (hW.of (by decide))
      | with_reducible apply State.bump_within (hW.of (by decide))
      | with_reducible apply State.setGh_within (hW.of (by decide))
      | with_reducible apply placePageIn_within (hW.of (by decide))
      | with_reducible refine Within.ite (fun _ => ?_) (fun _ => ?_)
      | with_reducible refine Within.foldl ?_ (fun t x ht => ?_)
      | (intro c hc; first | exact hc | (simp; done) | (simpa using hc))
      | extract_lets
      | split
      | dsimp only
      | ((with_reducible refine Within.mk_same rfl ?_ ?_); (intro p hn; cases p <;> first | rfl | exact absurd (hW.use (by decide)) hn))
  clear_value s2
  have h3 : Within Ω a s3 := by
    unfold s3
    repeat' first
      | with_reducible assumption
      | with_reducible apply wakeCluster_within (hW.of (by decide))
      | with_reducible apply invalidate_within (hW.of (by decide))
      | with_reducible apply State.bump_within (hW.of (by decide))
      | with_reducible apply State.setGh_within (hW.of (by decide))
      | with_reducible apply placePageIn_within (hW.of (by decide))
      | with_reducible refine Within.ite (fun _ => ?_) (fun _ => ?_)
      | with_reducible refine Within.foldl ?_ (fun t x ht => ?_)
      | (intro c hc; first | exact hc | (simp; done) | (simpa using hc))
      | extract_lets
      | split
      | dsimp only
      | ((with_reducible refine Within.mk_same rfl ?_ ?_); (intro p hn; cases p <;> first | rfl | exact absurd (hW.use (by decide)) hn))
  clear_value s3
  repeat' first
    | with_reducible assumption
    | with_reducible apply wakeCluster_within (hW.of (by decide))
    | with_reducible apply invalidate_within (hW.of (by decide))
    | with_reducible apply State.bump_within (hW.of (by decide))
    | with_reducible apply State.setGh_within (hW.of (by decide))
    | with_reducible apply placePageIn_within (hW.of (by decide))
    | with_reducible refine Within.ite (fun _ => ?_) (fun _ => ?_)
    | with_reducible refine Within.foldl ?_ (fun t x ht => ?_)
    | (intro c hc; first | exact hc | (simp; done) | (simpa using hc))
    | extract_lets
    | split
    | dsimp only
    | ((with_reducible refine Within.mk_same rfl ?_ ?_); (intro p hn; cases p <;> first | rfl | exact absurd (hW.use (by decide)) hn))

theorem prefetch_within (hW : Sub [.clk, .clu, .gh, .hbm, .hif, .out, .pmu, .regs, .seed, .time, .txHold, .ump] Ω) {n : Nat} (h : Within Ω a s) : Within Ω a (prefetch n s) := by
  unfold prefetch
  repeat' first
    | with_reducible assumption
    | with_reducible apply startPageIn_within (hW.of (by decide))
    | with_reducible refine Within.ite (fun _ => ?_) (fun _ => ?_)
    | split

theorem pageCopyIn_within (hW : Sub [.core] Ω) {d : NodeD} {k sl : Nat} (h : Within Ω a s) : Within Ω a (pageCopyIn d k sl s) := by
  unfold pageCopyIn
  refine h.core' (hW.of (by decide)) fun x hc => ?_
  exact foldl_wf _ (fun m p hm => copyRange_wf x.1 hm _ _ _) _ _ hc

theorem pageCopyOut_within (hW : Sub [.hbm] Ω) {d : NodeD} {k sl : Nat} {dirty : List Nat} (h : Within Ω a s) : Within Ω a (pageCopyOut d k sl dirty s) :=
  h.hbm (hW.of (by decide)) fun x => foldl_wf _ (fun m p hm => copyRange_wf (x.2.1 k) hm _ _ _) dirty s.hbm x.1

theorem addTraffic_within (hW : Sub [.gh] Ω) {bytes : Nat} (h : Within Ω a s) : Within Ω a (addTraffic bytes s) := by
  unfold addTraffic
  repeat' first
    | with_reducible assumption
    | with_reducible apply State.setGh_within (hW.of (by decide))

theorem State.setHif_within (hW : Sub [.hif] Ω) {f : HifSt → HifSt} (h : Within Ω a s) : Within Ω a (State.setHif s f) := by
  unfold State.setHif
  repeat' first
    | with_reducible assumption
    | with_reducible refine Within.ite (fun _ => ?_) (fun _ => ?_)
    | split
    | dsimp only
    | ((with_reducible refine Within.mk_same rfl ?_ ?_); (intro p hn; cases p <;> first | rfl | exact absurd (hW.use (by decide)) hn))

theorem cqWrite_within (hW : Sub [.hif, .out, .regs] Ω) {tag : Nat} {op : Nat} {status : Nat} {result : List Nat} (h : Within Ω a s) : Within Ω a (cqWrite tag op status result s) := by
  unfold cqWrite
  extract_lets v1 v2 v3 s1
  clear_value v1 v2 v3
  have h1 : Within Ω a s1 := by
    unfold s1
    repeat' first
      | with_reducible assumption
      | with_reducible apply State.setFld_within (hW.of (by decide))
      | with_reducible apply State.emit_within (hW.of (by decide))
      | with_reducible apply raiseFld_within (hW.of (by decide))
      | with_reducible apply State.setHif_within (hW.of (by decide))
  clear_value s1
  repeat' first
    | with_reducible assumption
    | with_reducible apply State.setFld_within (hW.of (by decide))
    | with_reducible apply State.emit_within (hW.of (by decide))
    | with_reducible apply raiseFld_within (hW.of (by decide))

theorem kciDone_within (hW : Sub [.hif, .out, .regs] Ω) {tag : Nat} {op : Nat} {key : Option (Nat × Nat)} {status : Nat} {result : List Nat} (h : Within Ω a s) : Within Ω a (kciDone tag op key status result s) := by
  unfold kciDone
  repeat' first
    | with_reducible assumption
    | with_reducible apply State.setHif_within (hW.of (by decide))
    | with_reducible apply cqWrite_within (hW.of (by decide))
    | with_reducible refine Within.ite (fun _ => ?_) (fun _ => ?_)

theorem flushHeld_within (hW : Sub [.hif, .out, .regs] Ω) {n : Nat} (h : Within Ω a s) : Within Ω a (flushHeld n s) := by
  induction n generalizing s with
  | zero => exact h
  | succ n ih =>
    unfold flushHeld
    split
    · exact ih (cqWrite_within (hW.of (by decide)) (State.setHif_within (hW.of (by decide)) h))
    · exact h

theorem finishWait_within (hW : Sub [.hif, .out, .regs] Ω) {on : WaitOn} {status : Nat} {result : List Nat} (h : Within Ω a s) : Within Ω a (finishWait on status result s) := by
  unfold finishWait
  extract_lets v1 s1 s2
  clear_value v1
  have h1 : Within Ω a s1 := by
    unfold s1
    repeat' first
      | with_reducible assumption
      | with_reducible apply State.setHif_within (hW.of (by decide))
  clear_value s1
  have h2 : Within Ω a s2 := by
    unfold s2
    repeat' first
      | with_reducible assumption
      | with_reducible apply State.setHif_within (hW.of (by decide))
      | with_reducible apply cqWrite_within (hW.of (by decide))
      | with_reducible apply flushHeld_within (hW.of (by decide))
      | with_reducible refine Within.ite (fun _ => ?_) (fun _ => ?_)
      | with_reducible refine Within.foldl ?_ (fun t x ht => ?_)
  clear_value s2
  repeat' first
    | with_reducible assumption
    | with_reducible apply State.setHif_within (hW.of (by decide))
    | with_reducible apply cqWrite_within (hW.of (by decide))
    | with_reducible apply flushHeld_within (hW.of (by decide))

theorem kciWait_within (hW : Sub [.hif] Ω) {tag : Nat} {op : Nat} {key : Option (Nat × Nat)} {on : WaitOn} (h : Within Ω a s) : Within Ω a (kciWait tag op key on s) := by
  unfold kciWait
  repeat' first
    | with_reducible assumption
    | with_reducible apply State.setHif_within (hW.of (by decide))

theorem State.mapGraphs_within (hW : Sub [.graphs] Ω) {f : Graph → Graph} (h : Within Ω a s) : Within Ω a (State.mapGraphs s f) := by
  unfold State.mapGraphs
  repeat' first
    | with_reducible assumption
    | dsimp only
    | intro t ht
    | ((with_reducible refine Within.mk_same rfl ?_ ?_); (intro p hn; cases p <;> first | rfl | exact absurd (hW.use (by decide)) hn))

theorem eraseNode_within (hW : Sub [.bull, .gh, .graphs, .kml, .regs] Ω) {n : Nat} (h : Within Ω a s) : Within Ω a (eraseNode n s) := by
  unfold eraseNode
  extract_lets s1 s2 s3 v1
  clear_value v1
  have h1 : Within Ω a s1 := by
    unfold s1
    repeat' first
      | with_reducible assumption
      | with_reducible apply State.setGh_within (hW.of (by decide))
      | with_reducible apply invalidate_within (hW.of (by decide))
  clear_value s1
  have h2 : Within Ω a s2 := by
    unfold s2
    repeat' first
      | with_reducible assumption
      | with_reducible apply State.setGh_within (hW.of (by decide))
  clear_value s2
  have h3 : Within Ω a s3 := by
    unfold s3
    repeat' first
      | with_reducible assumption
      | with_reducible apply State.setGh_within (hW.of (by decide))
      | with_reducible apply invalidate_within (hW.of (by decide))
      | with_reducible apply State.mapGraphs_within (hW.of (by decide))
  clear_value s3
  repeat' first
    | with_reducible assumption
    | with_reducible apply State.setGh_within (hW.of (by decide))
    | with_reducible apply invalidate_within (hW.of (by decide))
    | with_reducible apply State.mapGraphs_within (hW.of (by decide))
    | extract_lets
    | dsimp only
    | intro t ht
    | ((with_reducible refine Within.mk_same rfl ?_ ?_); (intro p hn; cases p <;> first | rfl | exact absurd (hW.use (by decide)) hn))

theorem closeQueue_within (hW : Sub [.graphs, .hbm, .hif, .mq, .out, .regs, .seed, .ump] Ω) {q : Nat} (h : Within Ω a s) : Within Ω a (closeQueue q s).2 := by
  unfold closeQueue
  repeat' first
    | with_reducible assumption
    | with_reducible apply freeItem_within (hW.of (by decide))
    | with_reducible apply State.mapGraphs_within (hW.of (by decide))
    | with_reducible refine Within.foldl ?_ (fun t x ht => ?_)
    | extract_lets
    | split
    | dsimp only
    | intro t ht
    | ((with_reducible refine Within.mk_same rfl ?_ ?_); (intro p hn; cases p <;> first | rfl | exact absurd (hW.use (by decide)) hn))

theorem closeQueue_within_pair (hW : Sub [.graphs, .hbm, .hif, .mq, .out, .regs, .seed, .ump] Ω) {q : Nat} {x0} {t} (e : closeQueue q s = (x0, t)) (h : Within Ω a s) : Within Ω a t := by
  have := closeQueue_within (hW.of (by decide)) (q := q) h; rwa [e] at this

theorem closeAccount_within (hW : Sub [.graphs, .seed] Ω) {a' : Nat} (h : Within Ω a s) : Within Ω a (closeAccount a' s) := by
  unfold closeAccount
  repeat' first
    | with_reducible assumption
    | with_reducible apply State.setSeed_within (hW.of (by decide))
    | with_reducible apply State.mapGraphs_within (hW.of (by decide))

theorem freeOwned_within (hW : Sub [.hbm, .hif, .out, .regs, .seed, .ump] Ω) {a' : Nat} (h : Within Ω a s) : Within Ω a (freeOwned a' s) := by
  unfold freeOwned
  repeat' first
    | with_reducible assumption
    | with_reducible apply seedFree_within (hW.of (by decide))
    | with_reducible refine Within.foldl ?_ (fun t x ht => ?_)

theorem dropStage_within (hW : Sub [.cfg] Ω) {t' : Nat} (h : Within Ω a s) : Within Ω a (dropStage t' s) := by
  unfold dropStage
  repeat' first
    | with_reducible assumption
    | dsimp only
    | ((with_reducible refine Within.mk_same rfl ?_ ?_); (intro p hn; cases p <;> first | rfl | exact absurd (hW.use (by decide)) hn))

theorem unloadGraphNode_within (hW : Sub [.bull, .cfg, .gh, .graphs, .kml, .regs] Ω) {n : Nat} (h : Within Ω a s) : Within Ω a (unloadGraphNode s n) := by
  unfold unloadGraphNode
  extract_lets s1
  have h1 : Within Ω a s1 := by
    unfold s1
    repeat' first
      | with_reducible assumption
      | with_reducible apply State.setNode_within (hW.of (by decide))
      | with_reducible apply eraseNode_within (hW.of (by decide))
      | with_reducible apply dropStage_within (hW.of (by decide))
  clear_value s1
  repeat' first
    | with_reducible assumption
    | with_reducible apply State.setNode_within (hW.of (by decide))
    | with_reducible apply eraseNode_within (hW.of (by decide))
    | with_reducible apply dropStage_within (hW.of (by decide))
    | with_reducible refine Within.ite (fun _ => ?_) (fun _ => ?_)
    | extract_lets
    | split

theorem graphGone_within (hW : Sub [.graphs, .hbm, .hif, .mq, .out, .regs, .seed, .ump] Ω) {g : Nat} {x : Graph} (h : Within Ω a s) : Within Ω a (graphGone g x s) := by
  unfold graphGone
  extract_lets s1 s2
  have h1 : Within Ω a s1 := by
    unfold s1
    repeat' first
      | with_reducible assumption
      | with_reducible apply finishWait_within (hW.of (by decide))
      | with_reducible apply closeQueue_within (hW.of (by decide))
      | refine closeQueue_within_pair (hW.of (by decide)) (by assumption) ?_
      | with_reducible apply closeAccount_within (hW.of (by decide))
      | with_reducible apply freeOwned_within (hW.of (by decide))
      | with_reducible refine Within.foldl ?_ (fun t x ht => ?_)
  clear_value s1
  have h2 : Within Ω a s2 := by
    unfold s2
    repeat' first
      | with_reducible assumption
      | with_reducible apply finishWait_within (hW.of (by decide))
      | with_reducible apply closeQueue_within (hW.of (by decide))
      | refine closeQueue_within_pair (hW.of (by decide)) (by assumption) ?_
      | with_reducible apply closeAccount_within (hW.of (by decide))
      | with_reducible apply freeOwned_within (hW.of (by decide))
      | with_reducible refine Within.foldl ?_ (fun t x ht => ?_)
  clear_value s2
  repeat' first
    | with_reducible assumption
    | with_reducible apply finishWait_within (hW.of (by decide))
    | with_reducible apply closeQueue_within (hW.of (by decide))
    | refine closeQueue_within_pair (hW.of (by decide)) (by assumption) ?_
    | with_reducible apply closeAccount_within (hW.of (by decide))
    | with_reducible apply freeOwned_within (hW.of (by decide))
    | with_reducible refine Within.foldl ?_ (fun t x ht => ?_)
    | extract_lets
    | dsimp only
    | intro t ht
    | ((with_reducible refine Within.mk_same rfl ?_ ?_); (intro p hn; cases p <;> first | rfl | exact absurd (hW.use (by decide)) hn))

theorem graphStep_within (hW : Sub [.bull, .cfg, .gh, .graphs, .hbm, .hif, .kml, .mq, .out, .regs, .seed, .ump] Ω) {g : Nat} (h : Within Ω a s) : Within Ω a (graphStep s g) := by
  unfold graphStep
  repeat' first
    | with_reducible assumption
    | with_reducible apply unloadGraphNode_within (hW.of (by decide))
    | with_reducible apply graphGone_within (hW.of (by decide))
    | with_reducible refine Within.ite (fun _ => ?_) (fun _ => ?_)
    | with_reducible refine Within.foldl ?_ (fun t x ht => ?_)
    | extract_lets
    | split

theorem graphsStep_within (hW : Sub [.bull, .cfg, .gh, .graphs, .hbm, .hif, .kml, .mq, .out, .regs, .seed, .ump] Ω) (h : Within Ω a s) : Within Ω a (graphsStep s) := by
  unfold graphsStep
  repeat' first
    | with_reducible assumption
    | with_reducible apply graphStep_within (hW.of (by decide))
    | with_reducible refine Within.foldl ?_ (fun t x ht => ?_)

theorem State.setReadyQ_within (hW : Sub [.bull] Ω) {h' : Nat} {c : Nat} {q : List ReadyEnt} (h : Within Ω a s) : Within Ω a (State.setReadyQ s h' c q) := by
  unfold State.setReadyQ
  extract_lets v1
  clear_value v1
  repeat' first
    | with_reducible assumption
    | with_reducible refine Within.ite (fun _ => ?_) (fun _ => ?_)
    | split
    | dsimp only
    | ((with_reducible refine Within.mk_same rfl ?_ ?_); (intro p hn; cases p <;> first | rfl | exact absurd (hW.use (by decide)) hn))

theorem enterReady_within (hW : Sub [.bull, .clk, .clu, .gh, .hbm, .hif, .out, .pmu, .regs, .seed, .time, .txHold, .ump] Ω) {n : Nat} {head : Bool} {byPost : Bool} (h : Within Ω a s) : Within Ω a (enterReady n head byPost s) := by
  unfold enterReady
  repeat' first
    | with_reducible assumption
    | with_reducible apply State.setNode_within (hW.of (by decide))
    | with_reducible apply State.setReadyQ_within (hW.of (by decide))
    | with_reducible apply wakeCluster_within (hW.of (by decide))
    | with_reducible apply prefetch_within (hW.of (by decide))
    | with_reducible refine Within.ite (fun _ => ?_) (fun _ => ?_)
    | with_reducible refine Within.foldl ?_ (fun t x ht => ?_)
    | (intro c hc; first | exact hc | (simp; done) | (simpa using hc))
    | extract_lets
    | split
    | dsimp only
    | ((with_reducible refine Within.mk_same rfl ?_ ?_); (intro p hn; cases p <;> first | rfl | exact absurd (hW.use (by decide)) hn))

theorem leaveReady_within (hW : Sub [.bull] Ω) {n : Nat} (h : Within Ω a s) : Within Ω a (leaveReady n s) := by
  unfold leaveReady
  repeat' first
    | with_reducible assumption
    | with_reducible apply State.setNode_within (hW.of (by decide))
    | with_reducible apply State.setReadyQ_within (hW.of (by decide))
    | extract_lets
    | split

theorem voidPost_within (hW : Sub [.hif, .out, .regs] Ω) (h : Within Ω a s) : Within Ω a (voidPost s) := by
  unfold voidPost
  repeat' first
    | with_reducible assumption
    | with_reducible apply raiseFld_within (hW.of (by decide))
    | with_reducible apply State.bump_within (hW.of (by decide))
    | with_reducible refine Within.ite (fun _ => ?_) (fun _ => ?_)
    | with_reducible refine Within.foldl ?_ (fun t x ht => ?_)
    | (intro c hc; first | exact hc | (simp; done) | (simpa using hc))
    | extract_lets
    | split
    | dsimp only
    | ((with_reducible refine Within.mk_same rfl ?_ ?_); (intro p hn; cases p <;> first | rfl | exact absurd (hW.use (by decide)) hn))

theorem postNode_within (hW : Sub [.bull, .clk, .clu, .gh, .hbm, .hif, .out, .pmu, .regs, .seed, .time, .txHold, .ump] Ω) {n : Nat} {flags : Nat} (h : Within Ω a s) : WithinOpt Ω a (postNode n flags s) := by
  unfold postNode
  repeat' first
    | with_reducible assumption
    | with_reducible apply voidPost_within (hW.of (by decide))
    | with_reducible apply State.setNode_within (hW.of (by decide))
    | with_reducible apply enterReady_within (hW.of (by decide))
    | with_reducible refine Within.ite (fun _ => ?_) (fun _ => ?_)
    | with_reducible refine Within.foldl ?_ (fun t x ht => ?_)
    | (intro c hc; first | exact hc | (simp; done) | (simpa using hc))
    | with_reducible exact WithinOpt.none
    | with_reducible apply WithinOpt.some
    | extract_lets
    | split
    | dsimp only
    | ((with_reducible refine Within.mk_same rfl ?_ ?_); (intro p hn; cases p <;> first | rfl | exact absurd (hW.use (by decide)) hn))

theorem postNode_within_some (hW : Sub [.bull, .clk, .clu, .gh, .hbm, .hif, .out, .pmu, .regs, .seed, .time, .txHold, .ump] Ω) {n : Nat} {flags : Nat} {t} (e : postNode n flags s = some t) (h : Within Ω a s) : Within Ω a t := postNode_within (hW.of (by decide)) h t e

theorem kmlArmed_within (hW : Sub [.kml] Ω) {n : Nat} (h : Within Ω a s) : Within Ω a (kmlArmed n s) := by
  unfold kmlArmed
  repeat' first
    | with_reducible assumption
    | with_reducible refine Within.ite (fun _ => ?_) (fun _ => ?_)
    | with_reducible refine Within.foldl ?_ (fun t x ht => ?_)
    | (intro c hc; first | exact hc | (simp; done) | (simpa using hc))
    | extract_lets
    | split
    | dsimp only
    | ((with_reducible refine Within.mk_same rfl ?_ ?_); (intro p hn; cases p <;> first | rfl | exact absurd (hW.use (by decide)) hn))

theorem armNode_within (hW : Sub [.bull, .clk, .clu, .gh, .hbm, .hif, .kml, .out, .pmu, .regs, .seed, .time, .txHold, .ump] Ω) {n : Nat} (h : Within Ω a s) : WithinOpt Ω a (armNode n s) := by
  unfold armNode
  repeat' first
    | with_reducible assumption
    | with_reducible apply kmlArmed_within (hW.of (by decide))
    | with_reducible apply enterReady_within (hW.of (by decide))
    | with_reducible apply State.setNode_within (hW.of (by decide))
    | with_reducible refine Within.ite (fun _ => ?_) (fun _ => ?_)
    | with_reducible refine Within.foldl ?_ (fun t x ht => ?_)
    | (intro c hc; first | exact hc | (simp; done) | (simpa using hc))
    | with_reducible exact WithinOpt.none
    | with_reducible apply WithinOpt.some
    | extract_lets
    | split
    | dsimp only
    | ((with_reducible refine Within.mk_same rfl ?_ ?_); (intro p hn; cases p <;> first | rfl | exact absurd (hW.use (by decide)) hn))

theorem armNode_within_some (hW : Sub [.bull, .clk, .clu, .gh, .hbm, .hif, .kml, .out, .pmu, .regs, .seed, .time, .txHold, .ump] Ω) {n : Nat} {t} (e : armNode n s = some t) (h : Within Ω a s) : Within Ω a t := armNode_within (hW.of (by decide)) h t e

theorem commitPages_within (hW : Sub [.core, .hbm, .hif, .out, .pmu, .regs] Ω) {n : Nat} {d : NodeD} (h : Within Ω a s) : Within Ω a (commitPages n d s).1 := by
  unfold commitPages
  extract_lets ps hbm s1 s2 sel
  split
  · exact h
  have h1 : Within Ω a s1 := h.hbm (hW.of (by decide)) fun x =>
    foldl_wf _ (fun m p hm => overlay_wf (copyRange_wf hm hm _ _ _) _ _) ps s.hbm x.1
  clear_value s1
  have h2 : Within Ω a s2 := by
    unfold s2
    split
    · exact h1.updCore (hW.of (by decide)) fun c hc => foldl_wf _ (fun m p hm => overlay_wf hm _ _) ps c.ram hc
    · exact h1
  exact pmuEvent_within (hW.of (by decide)) (State.bump_within (hW.of (by decide)) h2)

theorem commitPages_within_pair (hW : Sub [.core, .hbm, .hif, .out, .pmu, .regs] Ω) {n : Nat} {d e : NodeD} {t : State} (q : commitPages n d s = (t, e)) (h : Within Ω a s) : Within Ω a t := by
  have := commitPages_within (hW.of (by decide)) (n := n) (d := d) h; rwa [q] at this

theorem applyCommit_within (hW : Sub [.bull, .core, .hbm, .hif, .out, .pmu, .regs] Ω) {n : Nat} (h : Within Ω a s) : Within Ω a (applyCommit n s) := by
  unfold applyCommit
  repeat' first
    | with_reducible assumption
    | with_reducible apply State.setNode_within (hW.of (by decide))
    | with_reducible apply finishWait_within (hW.of (by decide))
    | with_reducible apply commitPages_within (hW.of (by decide))
    | refine commitPages_within_pair (hW.of (by decide)) (by assumption) ?_
    | extract_lets
    | split

theorem disarm_within (hW : Sub [.bull, .cfg, .core, .gh, .graphs, .hbm, .hif, .kml, .mq, .out, .pmu, .regs, .seed, .ump] Ω) {n : Nat} (h : Within Ω a s) : Within Ω a (disarm n s) := by
  unfold disarm
  repeat' first
    | with_reducible assumption
    | with_reducible apply State.updNode_within (hW.of (by decide))
    | with_reducible apply graphsStep_within (hW.of (by decide))
    | with_reducible apply applyCommit_within (hW.of (by decide))

theorem cancelNode_within (hW : Sub [.bull, .cfg, .clk, .clu, .core, .free, .gh, .graphs, .hbm, .hif, .kml, .mq, .out, .pmu, .regs, .seed, .time, .txHold, .ump] Ω) {n : Nat} (h : Within Ω a s) : Within Ω a (cancelNode n s) := by
  unfold cancelNode
  repeat' first
    | with_reducible assumption
    | with_reducible apply State.bump_within (hW.of (by decide))
    | with_reducible apply State.draw_within (hW.of (by decide))
    | refine State.draw_within_pair (hW.of (by decide)) (by assumption) ?_
    | with_reducible apply State.setNode_within (hW.of (by decide))
    | with_reducible apply tryIdle_within (hW.of (by decide))
    | with_reducible apply leaveReady_within (hW.of (by decide))
    | with_reducible apply disarm_within (hW.of (by decide))
    | with_reducible refine Within.ite (fun _ => ?_) (fun _ => ?_)
    | extract_lets
    | split

theorem deliver_within (hW : Sub [.bull, .clk, .clu, .core, .free, .gh, .hbm, .hif, .out, .pmu, .regs, .seed, .time, .txHold, .ump] Ω) {n : Nat} {k : Nat} {hit : Bool} (h : Within Ω a s) : Within Ω a (deliver n k hit s) := by
  unfold deliver
  extract_lets s1 v1
  clear_value v1
  have h1 : Within Ω a s1 := by
    unfold s1
    repeat' first
      | with_reducible assumption
      | with_reducible apply State.bump_within (hW.of (by decide))
      | with_reducible apply State.draw_within (hW.of (by decide))
      | refine State.draw_within_pair (hW.of (by decide)) (by assumption) ?_
      | with_reducible apply pmuEvent_within (hW.of (by decide))
      | with_reducible apply State.setNode_within (hW.of (by decide))
      | with_reducible apply setPwr_within (hW.of (by decide))
      | with_reducible apply State.setGh_within (hW.of (by decide))
      | with_reducible apply leaveReady_within (hW.of (by decide))
      | with_reducible apply applyCommit_within (hW.of (by decide))
  clear_value s1
  repeat' first
    | with_reducible assumption
    | with_reducible apply State.bump_within (hW.of (by decide))
    | with_reducible apply State.draw_within (hW.of (by decide))
    | refine State.draw_within_pair (hW.of (by decide)) (by assumption) ?_
    | with_reducible apply pmuEvent_within (hW.of (by decide))
    | with_reducible apply State.setNode_within (hW.of (by decide))
    | with_reducible apply setPwr_within (hW.of (by decide))
    | with_reducible apply State.setGh_within (hW.of (by decide))
    | with_reducible apply leaveReady_within (hW.of (by decide))
    | with_reducible apply applyCommit_within (hW.of (by decide))
    | with_reducible apply Within.updCore (hW.of (by decide))
    | with_reducible refine Within.ite (fun _ => ?_) (fun _ => ?_)
    | exact fun _ hc => hc
    | extract_lets
    | split

theorem placeLocal_within (hW : Sub [.bull, .clk, .clu, .core, .free, .gh, .hbm, .hif, .out, .pmu, .regs, .seed, .time, .txHold, .ump] Ω) {c n : Nat} (h : Within Ω a s) : (placeLocal s c n).Ins Ω a := by
  have page : ∀ ks : List Nat, (match ks with
      | k :: _ => Placed.paging (startPageIn n k false (s.updNode n (fun d => { d with hold := none })))
      | [] => .skipped).Ins Ω a := by
    intro ks
    split
    · exact startPageIn_within (hW.of (by decide)) (State.updNode_within (hW.of (by decide)) h)
    · trivial
  unfold placeLocal
  split
  · trivial
  dsimp only
  repeat' first
    | trivial
    | exact page _
    | exact deliver_within (hW.of (by decide)) h
    | exact State.bump_within (hW.of (by decide)) (State.updNode_within (hW.of (by decide)) h)
    | split

theorem placeLocal_within_dispatched (hW : Sub [.bull, .clk, .clu, .core, .free, .gh, .hbm, .hif, .out, .pmu, .regs, .seed, .time, .txHold, .ump] Ω) {c n : Nat} {t : State} (e : placeLocal s c n = .dispatched t) (h : Within Ω a s) : Within Ω a t := by
  have := placeLocal_within (hW.of (by decide)) (c := c) (n := n) h; rwa [e] at this

theorem placeLocal_within_paging (hW : Sub [.bull, .clk, .clu, .core, .free, .gh, .hbm, .hif, .out, .pmu, .regs, .seed, .time, .txHold, .ump] Ω) {c n : Nat} {t : State} (e : placeLocal s c n = .paging t) (h : Within Ω a s) : Within Ω a t := by
  have := placeLocal_within (hW.of (by decide)) (c := c) (n := n) h; rwa [e] at this

theorem placeLocal_within_held (hW : Sub [.bull, .clk, .clu, .core, .free, .gh, .hbm, .hif, .out, .pmu, .regs, .seed, .time, .txHold, .ump] Ω) {c n : Nat} {t : State} (e : placeLocal s c n = .held t) (h : Within Ω a s) : Within Ω a t := by
  have := placeLocal_within (hW.of (by decide)) (c := c) (n := n) h; rwa [e] at this

theorem scanLocal_within (hW : Sub [.bull, .clk, .clu, .core, .free, .gh, .hbm, .hif, .out, .pmu, .regs, .seed, .time, .txHold, .ump] Ω) {c : Nat} {l : List Nat} (h : Within Ω a s) : WithinOpt Ω a (scanLocal c l s).1 ∧ Within Ω a (scanLocal c l s).2 := by
  induction l generalizing s with
  | nil => exact ⟨WithinOpt.none, h⟩
  | cons n t ih =>
    unfold scanLocal
    split
    · next e => exact ⟨WithinOpt.some (placeLocal_within_dispatched (hW.of (by decide)) e h), placeLocal_within_dispatched (hW.of (by decide)) e h⟩
    · next e => exact ⟨WithinOpt.some (placeLocal_within_paging (hW.of (by decide)) e h), placeLocal_within_paging (hW.of (by decide)) e h⟩
    · next e => exact ih (placeLocal_within_held (hW.of (by decide)) e h)
    · exact ih h

theorem scanLocal_within_some (hW : Sub [.bull, .clk, .clu, .core, .free, .gh, .hbm, .hif, .out, .pmu, .regs, .seed, .time, .txHold, .ump] Ω) {c : Nat} {l : List Nat} {t x : State} (e : scanLocal c l s = (some t, x)) (h : Within Ω a s) : Within Ω a t := by
  have := (scanLocal_within (hW.of (by decide)) (c := c) (l := l) h).1; rw [e] at this; exact this t rfl

theorem scanLocal_within_rest (hW : Sub [.bull, .clk, .clu, .core, .free, .gh, .hbm, .hif, .out, .pmu, .regs, .seed, .time, .txHold, .ump] Ω) {c : Nat} {l : List Nat} {o : Option State} {x : State} (e : scanLocal c l s = (o, x)) (h : Within Ω a s) : Within Ω a x := by
  have := (scanLocal_within (hW.of (by decide)) (c := c) (l := l) h).2; rwa [e] at this

theorem stealTo_within (hW : Sub [.bull, .clk, .clu, .core, .free, .gh, .hbm, .hif, .out, .pmu, .regs, .seed, .time, .txHold, .ump] Ω) {k : Nat} {n : Nat} (h : Within Ω a s) : Within Ω a (stealTo k n s) := by
  unfold stealTo
  repeat' first
    | with_reducible assumption
    | with_reducible apply startPageIn_within (hW.of (by decide))
    | with_reducible apply deliver_within (hW.of (by decide))
    | with_reducible refine Within.ite (fun _ => ?_) (fun _ => ?_)
    | split

theorem stealFor_within (hW : Sub [.bull, .clk, .clu, .core, .free, .gh, .hbm, .hif, .out, .pmu, .regs, .seed, .time, .txHold, .ump] Ω) {h' : Nat} (h : Within Ω a s) : Within Ω a (stealFor h' s) := by
  unfold stealFor
  repeat' first
    | with_reducible assumption
    | with_reducible apply stealTo_within (hW.of (by decide))
    | with_reducible refine Within.ite (fun _ => ?_) (fun _ => ?_)
    | with_reducible refine Within.foldl ?_ (fun t x ht => ?_)
    | (intro c hc; first | exact hc | (simp; done) | (simpa using hc))
    | extract_lets
    | split
    | dsimp only
    | ((with_reducible refine Within.mk_same rfl ?_ ?_); (intro p hn; cases p <;> first | rfl | exact absurd (hW.use (by decide)) hn))

theorem dispatchCluster_within (hW : Sub [.bull, .clk, .clu, .core, .free, .gh, .hbm, .hif, .out, .pmu, .regs, .seed, .time, .txHold, .ump] Ω) {h' : Nat} (h : Within Ω a s) : Within Ω a (dispatchCluster h' s) := by
  unfold dispatchCluster
  repeat' first
    | with_reducible assumption
    | with_reducible apply deliver_within (hW.of (by decide))
    | refine scanLocal_within_some (hW.of (by decide)) (by assumption) ?_
    | refine scanLocal_within_rest (hW.of (by decide)) (by assumption) ?_
    | with_reducible apply stealFor_within (hW.of (by decide))
    | with_reducible refine Within.ite (fun _ => ?_) (fun _ => ?_)
    | split

theorem insertTimer_within (hW : Sub [.bull, .free] Ω) {list : Nat} {target : Nat} {flag : Nat} {due : Nat} {dropLate : Bool} {report : Bool} {tag : Nat} (h : Within Ω a s) : Within Ω a (insertTimer list target flag due dropLate report tag s).2 := by
  unfold insertTimer
  repeat' first
    | with_reducible assumption
    | with_reducible apply State.draw_within (hW.of (by decide))
    | refine State.draw_within_pair (hW.of (by decide)) (by assumption) ?_
    | with_reducible refine Within.ite (fun _ => ?_) (fun _ => ?_)
    | extract_lets
    | split
    | dsimp only
    | ((with_reducible refine Within.mk_same rfl ?_ ?_); (intro p hn; cases p <;> first | rfl | exact absurd (hW.use (by decide)) hn))

theorem insertTimer_within_pair (hW : Sub [.bull, .free] Ω) {list : Nat} {target : Nat} {flag : Nat} {due : Nat} {dropLate : Bool} {report : Bool} {tag : Nat} {x0} {t} (e : insertTimer list target flag due dropLate report tag s = (x0, t)) (h : Within Ω a s) : Within Ω a t := by
  have := insertTimer_within (hW.of (by decide)) (list := list) (target := target) (flag := flag) (due := due) (dropLate := dropLate) (report := report) (tag := tag) h; rwa [e] at this

theorem tcrWrite_within (hW : Sub [.hbm, .hif, .out, .regs] Ω) {id : Nat} {t' : Timer} {late : Bool} {lateness : Nat} {dropped : Bool} (h : Within Ω a s) : Within Ω a (tcrWrite id t' late lateness dropped s) := by
  unfold tcrWrite
  extract_lets v1 v2 v3 v4
  clear_value v1 v2 v3 v4
  repeat' first
    | with_reducible assumption
    | with_reducible apply State.setFld_within (hW.of (by decide))
    | with_reducible apply State.bump_within (hW.of (by decide))
    | with_reducible apply raiseFld_within (hW.of (by decide))
    | with_reducible apply State.hbmWrite_within (hW.of (by decide))
    | with_reducible refine Within.ite (fun _ => ?_) (fun _ => ?_)

theorem fireTimer_within (hW : Sub [.bull, .clk, .clu, .gh, .hbm, .hif, .out, .pmu, .regs, .seed, .time, .txHold, .ump] Ω) {id : Nat} {t' : Timer} (h : Within Ω a s) : Within Ω a (fireTimer id t' s) := by
  unfold fireTimer
  extract_lets v1 v2 v3 v4 v5
  clear_value v1 v2 v3 v4 v5
  repeat' first
    | with_reducible assumption
    | with_reducible apply State.bump_within (hW.of (by decide))
    | with_reducible apply pmuEvent_within (hW.of (by decide))
    | with_reducible apply State.updNode_within (hW.of (by decide))
    | with_reducible apply postNode_within (hW.of (by decide))
    | refine postNode_within_some (hW.of (by decide)) (by assumption) ?_
    | with_reducible apply tcrWrite_within (hW.of (by decide))
    | with_reducible refine Within.ite (fun _ => ?_) (fun _ => ?_)
    | exact fun _ hc => hc
    | extract_lets
    | split
    | dsimp only
    | intro t ht
    | ((with_reducible refine Within.mk_same rfl ?_ ?_); (intro p hn; cases p <;> first | rfl | exact absurd (hW.use (by decide)) hn))

theorem State.updGen_within (hW : Sub [.bull] Ω) {g : Nat} {f : BeatGen → BeatGen} (h : Within Ω a s) : Within Ω a (State.updGen s g f) := by
  unfold State.updGen
  extract_lets v1
  clear_value v1
  repeat' first
    | with_reducible assumption
    | dsimp only
    | ((with_reducible refine Within.mk_same rfl ?_ ?_); (intro p hn; cases p <;> first | rfl | exact absurd (hW.use (by decide)) hn))

theorem beatPost_within (hW : Sub [.bull, .clk, .clu, .gh, .hbm, .hif, .out, .pmu, .regs, .seed, .time, .txHold, .ump] Ω) {g : Nat} {n : Nat} (h : Within Ω a s) : WithinOpt Ω a (beatPost g n s) := by
  unfold beatPost
  extract_lets v1 v2
  clear_value v1 v2
  repeat' first
    | with_reducible assumption
    | with_reducible apply State.bump_within (hW.of (by decide))
    | with_reducible apply pmuEvent_within (hW.of (by decide))
    | with_reducible apply State.updNode_within (hW.of (by decide))
    | with_reducible apply postNode_within (hW.of (by decide))
    | refine postNode_within_some (hW.of (by decide)) (by assumption) ?_
    | with_reducible refine Within.ite (fun _ => ?_) (fun _ => ?_)
    | with_reducible apply WithinOpt.some
    | with_reducible exact WithinOpt.none
    | exact fun _ hc => hc
    | extract_lets
    | split

theorem beatPost_within_some (hW : Sub [.bull, .clk, .clu, .gh, .hbm, .hif, .out, .pmu, .regs, .seed, .time, .txHold, .ump] Ω) {g : Nat} {n : Nat} {t} (e : beatPost g n s = some t) (h : Within Ω a s) : Within Ω a t := beatPost_within (hW.of (by decide)) h t e

theorem runPoster_within (hW : Sub [.bull, .clk, .clu, .gh, .hbm, .hif, .out, .pmu, .regs, .seed, .time, .txHold, .ump] Ω) {x0 : Nat} (h : Within Ω a s) : Within Ω a (runPoster x0 s) := by
  induction x0 generalizing s with
  | zero =>
    unfold runPoster
    repeat' first
      | with_reducible assumption
      | with_reducible apply State.updGen_within (hW.of (by decide))
      | refine beatPost_within_some (hW.of (by decide)) (by assumption) ?_
      | with_reducible apply beatPost_within (hW.of (by decide))
      | with_reducible refine Within.ite (fun _ => ?_) (fun _ => ?_)
      | with_reducible refine Within.foldl ?_ (fun t x ht => ?_)
      | (intro c hc; first | exact hc | (simp; done) | (simpa using hc))
      | extract_lets
      | split
      | dsimp only
      | ((with_reducible refine Within.mk_same rfl ?_ ?_); (intro p hn; cases p <;> first | rfl | exact absurd (hW.use (by decide)) hn))
  | succ n ih =>
    unfold runPoster
    repeat' first
      | with_reducible apply ih
      | with_reducible assumption
      | with_reducible apply State.updGen_within (hW.of (by decide))
      | refine beatPost_within_some (hW.of (by decide)) (by assumption) ?_
      | with_reducible apply beatPost_within (hW.of (by decide))
      | with_reducible refine Within.ite (fun _ => ?_) (fun _ => ?_)
      | with_reducible refine Within.foldl ?_ (fun t x ht => ?_)
      | (intro c hc; first | exact hc | (simp; done) | (simpa using hc))
      | extract_lets
      | split
      | dsimp only
      | ((with_reducible refine Within.mk_same rfl ?_ ?_); (intro p hn; cases p <;> first | rfl | exact absurd (hW.use (by decide)) hn))

theorem postBeats_within (hW : Sub [.bull, .clk, .clu, .gh, .hbm, .hif, .out, .pmu, .regs, .seed, .time, .txHold, .ump] Ω) (h : Within Ω a s) : Within Ω a (postBeats s) := by
  unfold postBeats
  repeat' first
    | with_reducible assumption
    | with_reducible apply runPoster_within (hW.of (by decide))

theorem startBeat_within (hW : Sub [.bull, .clk, .clu, .gh, .hbm, .hif, .out, .pmu, .regs, .seed, .time, .txHold, .ump] Ω) {g : Nat} (h : Within Ω a s) : Within Ω a (startBeat g s) := by
  unfold startBeat
  extract_lets v1 v2 s1 s2 v3 s3 s4
  clear_value v1 v2 v3
  have h1 : Within Ω a s1 := by
    unfold s1
    repeat' first
      | with_reducible assumption
      | with_reducible apply State.updGen_within (hW.of (by decide))
  clear_value s1
  have h2 : Within Ω a s2 := by
    unfold s2
    repeat' first
      | with_reducible assumption
      | with_reducible apply State.updGen_within (hW.of (by decide))
  clear_value s2
  have h3 : Within Ω a s3 := by
    unfold s3
    repeat' first
      | with_reducible assumption
      | with_reducible apply State.updGen_within (hW.of (by decide))
      | with_reducible apply postBeats_within (hW.of (by decide))
      | with_reducible refine Within.ite (fun _ => ?_) (fun _ => ?_)
      | with_reducible apply KciRes.within_wait
      | exact fun _ hc => hc
      | extract_lets
      | split
      | dsimp only
      | intro t ht
      | ((with_reducible refine Within.mk_same rfl ?_ ?_); (intro p hn; cases p <;> first | rfl | exact absurd (hW.use (by decide)) hn))
  clear_value s3
  have h4 : Within Ω a s4 := by
    unfold s4
    repeat' first
      | with_reducible assumption
      | with_reducible apply State.updGen_within (hW.of (by decide))
      | with_reducible apply postBeats_within (hW.of (by decide))
      | with_reducible refine Within.ite (fun _ => ?_) (fun _ => ?_)
      | with_reducible apply KciRes.within_wait
      | exact fun _ hc => hc
      | extract_lets
      | split
  clear_value s4
  repeat' first
    | with_reducible assumption
    | with_reducible apply State.updGen_within (hW.of (by decide))
    | with_reducible apply postBeats_within (hW.of (by decide))

theorem beatStep_within (hW : Sub [.bull, .hif, .out, .regs] Ω) {old : Nat} {new : Nat} {g : Nat} (h : Within Ω a s) : Within Ω a (beatStep old new g s) := by
  unfold beatStep
  extract_lets v1 v2 v3 v4 v5 s1
  clear_value v1 v2 v3 v4 v5
  have h1 : Within Ω a s1 := by
    unfold s1
    repeat' first
      | with_reducible assumption
      | with_reducible apply State.bump_within (hW.of (by decide))
      | with_reducible apply raiseFld_within (hW.of (by decide))
      | with_reducible apply State.updGen_within (hW.of (by decide))
  clear_value s1
  repeat' first
    | with_reducible assumption
    | with_reducible apply State.bump_within (hW.of (by decide))
    | with_reducible apply raiseFld_within (hW.of (by decide))
    | with_reducible apply State.updGen_within (hW.of (by decide))
    | with_reducible refine Within.ite (fun _ => ?_) (fun _ => ?_)

theorem beatsStep_within (hW : Sub [.bull, .hif, .out, .regs] Ω) {old : Nat} {new : Nat} (h : Within Ω a s) : Within Ω a (beatsStep old new s) := by
  unfold beatsStep
  repeat' first
    | with_reducible assumption
    | with_reducible apply beatStep_within (hW.of (by decide))
    | with_reducible refine Within.foldl ?_ (fun t x ht => ?_)

theorem commitBull_within (hW : Sub [.bull, .cfg, .clk, .clu, .core, .free, .gh, .graphs, .hbm, .hif, .kml, .mq, .out, .pmu, .regs, .seed, .time, .txHold, .ump] Ω) {home : Nat} {l : List RunOp} (h : Within Ω a s) : Within Ω a (commitBull home l s).2 := by
  induction l generalizing s with
  | nil => exact h
  | cons o t ih =>
    unfold commitBull
    split
    · simp_all
    all_goals rename_i heq; cases heq
    · split
      · next e => exact ih (postNode_within_some (hW.of (by decide)) e h)
      · exact h
    · split
      · next e => exact ih (armNode_within_some (hW.of (by decide)) e h)
      · exact h
    · exact ih (cancelNode_within (hW.of (by decide)) h)
    · split
      · next e => exact ih (insertTimer_within_pair (hW.of (by decide)) e h)
      · next e =>
        have h1 := raiseFld_within (hW.of (by decide)) (src := 0x04) (f := fBullIntStatTimerFull) (State.bump_within (hW.of (by decide)) (f := fBullTimerFullCount) (k := 1) (insertTimer_within_pair (hW.of (by decide)) e h))
        dsimp only
        split
        · next e' => exact ih (postNode_within_some (hW.of (by decide)) e' h1)
        · exact h1
    · exact ih h

theorem commitBull_within_pair (hW : Sub [.bull, .cfg, .clk, .clu, .core, .free, .gh, .graphs, .hbm, .hif, .kml, .mq, .out, .pmu, .regs, .seed, .time, .txHold, .ump] Ω) {home : Nat} {l r : List RunOp} {t : State} (e : commitBull home l s = (r, t)) (h : Within Ω a s) : Within Ω a t := by
  have := commitBull_within (hW.of (by decide)) (home := home) (l := l) h; rwa [e] at this

theorem nodeDone_within (hW : Sub [.bull, .cfg, .clk, .clu, .core, .gh, .graphs, .hbm, .hif, .kml, .mq, .out, .pmu, .regs, .seed, .time, .txHold, .ump] Ω) {n : Nat} (h : Within Ω a s) : Within Ω a (nodeDone n s) := by
  unfold nodeDone
  repeat' first
    | with_reducible assumption
    | with_reducible apply disarm_within (hW.of (by decide))
    | with_reducible apply State.setNode_within (hW.of (by decide))
    | with_reducible apply enterReady_within (hW.of (by decide))
    | with_reducible refine Within.ite (fun _ => ?_) (fun _ => ?_)
    | with_reducible refine Within.foldl ?_ (fun t x ht => ?_)
    | (intro c hc; first | exact hc | (simp; done) | (simpa using hc))
    | extract_lets
    | split
    | dsimp only
    | ((with_reducible refine Within.mk_same rfl ?_ ?_); (intro p hn; cases p <;> first | rfl | exact absurd (hW.use (by decide)) hn))

end Sys2Proof.Machine
end

