-- ==== Sys2Proof/Laws/WithinCore.lean ====
section
/-!
SUPPORT. Laws/WithinCore.lean: which parts of the state every operation of media cores may change.
-/

namespace Sys2Proof.Machine

variable {Ω : Part → Prop} {a s : State}

theorem bufWrite_within (hW : Sub [.hbm] Ω) {b ofs : Nat} {bs : List Byte} (h : Within Ω a s) : Within Ω a (bufWrite b ofs bs s) :=
  h.hbm (hW.of (by decide)) fun x => foldl_wf _ (fun m p hm => memWrite_wf hm _ _) _ _ x.1

theorem raceWord_within (hW : Sub [.free] Ω) {k b : Nat} (h : Within Ω a s) : Within Ω a (raceWord k b s).2 := by
  unfold raceWord
  have key : ∀ (ms : List Move) (x : Word × State), Within Ω a x.2 → Within Ω a (ms.foldl (fun (x : Word × State) m =>
      if !m.toBuf ∧ m.la ≤ b ∧ b + 4 ≤ m.la + m.len then
        let (f, s') := x.2.draw
        (if f % 2 = 1 then bufWord s' m.handle (m.ofs + (b - m.la)) else x.1, s')
      else x) x).2 := by
    intro ms
    induction ms with
    | nil => intro x hx; exact hx
    | cons m t ih =>
      intro x hx
      refine ih _ ?_
      dsimp only
      split
      · exact State.draw_within (hW.of (by decide)) hx
      · exact hx
  exact key _ _ h

theorem raceWord_within_pair (hW : Sub [.free] Ω) {k b : Nat} {w : Word} {t : State} (e : raceWord k b s = (w, t)) (h : Within Ω a s) : Within Ω a t := by
  have := raceWord_within (hW.of (by decide)) (k := k) (b := b) h; rwa [e] at this

theorem raceWords_within (hW : Sub [.free] Ω) {k b n : Nat} (h : Within Ω a s) : Within Ω a (raceWords k b n s).2 := by
  induction n generalizing b s with
  | zero => exact h
  | succ n ih => exact ih (raceWord_within (hW.of (by decide)) h)

theorem raceWords_within_pair (hW : Sub [.free] Ω) {k b n : Nat} {w : List Byte} {t : State} (e : raceWords k b n s = (w, t)) (h : Within Ω a s) : Within Ω a t := by
  have := raceWords_within (hW.of (by decide)) (k := k) (b := b) (n := n) h; rwa [e] at this

theorem localLoad_within (hW : Sub [.free] Ω) {k : Nat} {a' : Nat} {size : Nat} (h : Within Ω a s) : Within Ω a (localLoad k a' size s).2 := by
  unfold localLoad
  extract_lets v1
  clear_value v1
  repeat' first
    | with_reducible assumption
    | with_reducible apply raceWords_within (hW.of (by decide))

theorem localLoad_within_pair (hW : Sub [.free] Ω) {k : Nat} {a' : Nat} {size : Nat} {x0} {t} (e : localLoad k a' size s = (x0, t)) (h : Within Ω a s) : Within Ω a t := by
  have := localLoad_within (hW.of (by decide)) (k := k) (a' := a') (size := size) h; rwa [e] at this

theorem localStore_within (hW : Sub [.core] Ω) {k b : Nat} {bs : List Byte} (h : Within Ω a s) : Within Ω a (localStore k b bs s) :=
  Within.updCore (hW.of (by decide)) h fun c hc => by rw [markDirty_ram]; exact lramPutAll_wf bs (by rw [noteStore_ram]; exact hc) b

theorem sharedStore_within (hW : Sub [.clu] Ω) {n b : Nat} {bs : List Byte} (h : Within Ω a s) : Within Ω a (sharedStore n b bs s) :=
  Within.updClu (hW.of (by decide)) h fun c hc => ⟨hc.1, memWriteList_wf bs hc.2 _⟩

theorem invalidateIdle_within (hW : Sub [.gh, .regs] Ω) {k : Nat} (h : Within Ω a s) : Within Ω a (invalidateIdle k s) := by
  unfold invalidateIdle
  extract_lets v1
  clear_value v1
  repeat' first
    | with_reducible assumption
    | with_reducible apply invalidate_within (hW.of (by decide))
    | with_reducible refine Within.foldl ?_ (fun t x ht => ?_)

theorem coreHome_within (hW : Sub [.core, .gh, .hif, .out, .pmu, .regs] Ω) {k : Nat} (h : Within Ω a s) : Within Ω a (coreHome k s) := by
  unfold coreHome
  extract_lets v1 s1
  clear_value v1
  have h1 : Within Ω a s1 := by
    unfold s1
    repeat' first
      | with_reducible assumption
      | with_reducible apply pmuSync_within (hW.of (by decide))
      | with_reducible apply invalidateIdle_within (hW.of (by decide))
      | with_reducible apply Within.updCore (hW.of (by decide))
      | with_reducible refine Within.ite (fun _ => ?_) (fun _ => ?_)
      | with_reducible apply KciRes.within_wait
      | exact fun _ hc => hc
  clear_value s1
  repeat' first
    | with_reducible assumption
    | with_reducible apply pmuSync_within (hW.of (by decide))
    | with_reducible apply invalidateIdle_within (hW.of (by decide))
    | with_reducible apply Within.updCore (hW.of (by decide))
    | with_reducible refine Within.ite (fun _ => ?_) (fun _ => ?_)

theorem landAborted_within (hW : Sub [.free, .hbm] Ω) {k : Nat} (h : Within Ω a s) : Within Ω a (landAborted k s) := by
  unfold landAborted
  repeat' first
    | with_reducible assumption
    | with_reducible apply State.draw_within (hW.of (by decide))
    | refine State.draw_within_pair (hW.of (by decide)) (by assumption) ?_
    | with_reducible apply bufWrite_within (hW.of (by decide))
    | with_reducible refine Within.ite (fun _ => ?_) (fun _ => ?_)
    | with_reducible refine Within.foldl ?_ (fun t x ht => ?_)

theorem abortStart_within (hW : Sub [.bull, .core, .free, .gh, .hbm, .hif, .out, .pmu, .regs] Ω) {k : Nat} (h : Within Ω a s) : Within Ω a (abortStart k s) := by
  unfold abortStart
  extract_lets v1 v2 s1 s2 s3 s4
  clear_value v1 v2
  have h1 : Within Ω a s1 := by
    unfold s1
    repeat' first
      | with_reducible assumption
      | with_reducible apply State.bump_within (hW.of (by decide))
      | with_reducible apply pmuEvent_within (hW.of (by decide))
      | with_reducible apply State.updNode_within (hW.of (by decide))
      | with_reducible apply invalidate_within (hW.of (by decide))
      | with_reducible apply landAborted_within (hW.of (by decide))
  clear_value s1
  have h2 : Within Ω a s2 := by
    unfold s2
    repeat' first
      | with_reducible assumption
      | with_reducible apply State.bump_within (hW.of (by decide))
      | with_reducible apply pmuEvent_within (hW.of (by decide))
      | with_reducible apply State.updNode_within (hW.of (by decide))
  clear_value s2
  have h3 : Within Ω a s3 := by
    unfold s3
    repeat' first
      | with_reducible assumption
      | with_reducible apply State.bump_within (hW.of (by decide))
      | with_reducible apply pmuEvent_within (hW.of (by decide))
      | with_reducible apply State.updNode_within (hW.of (by decide))
      | with_reducible apply invalidate_within (hW.of (by decide))
  clear_value s3
  have h4 : Within Ω a s4 := by
    unfold s4
    repeat' first
      | with_reducible assumption
      | with_reducible apply State.bump_within (hW.of (by decide))
      | with_reducible apply pmuEvent_within (hW.of (by decide))
  clear_value s4
  repeat' first
    | with_reducible assumption
    | with_reducible apply State.bump_within (hW.of (by decide))
    | with_reducible apply pmuEvent_within (hW.of (by decide))
    | with_reducible apply State.updNode_within (hW.of (by decide))
    | with_reducible apply invalidate_within (hW.of (by decide))
    | with_reducible apply landAborted_within (hW.of (by decide))
    | with_reducible apply Within.updCore (hW.of (by decide))
    | exact fun _ hc => hc

theorem addStrike_within (hW : Sub [.ump] Ω) {k : Nat} (h : Within Ω a s) : Within Ω a (addStrike k s) := by
  unfold addStrike
  extract_lets v1
  clear_value v1
  repeat' first
    | with_reducible assumption
    | dsimp only
    | ((with_reducible refine Within.mk_same rfl ?_ ?_); (intro p hn; cases p <;> first | rfl | exact absurd (hW.use (by decide)) hn))

theorem syncCluster_within (hW : Sub [.hif, .out, .pmu, .regs] Ω) {n : Nat} (h : Within Ω a s) : Within Ω a (syncCluster n s) := by
  unfold syncCluster
  repeat' first
    | with_reducible assumption
    | with_reducible apply pmuSync_within (hW.of (by decide))
    | with_reducible refine Within.foldl ?_ (fun t x ht => ?_)

theorem dropPageIns_within (hW : Sub [.gh] Ω) {k : Nat} (h : Within Ω a s) : Within Ω a (dropPageIns k s) := by
  unfold dropPageIns
  repeat' first
    | with_reducible assumption
    | with_reducible apply State.setGh_within (hW.of (by decide))

theorem retireCore_within (hW : Sub [.bull, .clk, .clu, .core, .gh, .hbm, .hif, .out, .pmu, .regs, .seed, .time, .txHold, .ump] Ω) {k : Nat} (h : Within Ω a s) : Within Ω a (retireCore k s) := by
  unfold retireCore
  extract_lets s1 s2 v1 s3 s4 v2 s5
  clear_value v1 v2
  have h1 : Within Ω a s1 := by
    unfold s1
    repeat' first
      | with_reducible assumption
      | with_reducible apply State.setFld_within (hW.of (by decide))
      | with_reducible apply tryIdle_within (hW.of (by decide))
      | with_reducible apply invalidateIdle_within (hW.of (by decide))
      | with_reducible apply syncCluster_within (hW.of (by decide))
  clear_value s1
  have h2 : Within Ω a s2 := by
    unfold s2
    repeat' first
      | with_reducible assumption
      | with_reducible apply State.setFld_within (hW.of (by decide))
      | with_reducible apply tryIdle_within (hW.of (by decide))
      | with_reducible apply invalidateIdle_within (hW.of (by decide))
      | with_reducible apply syncCluster_within (hW.of (by decide))
      | with_reducible apply dropPageIns_within (hW.of (by decide))
      | with_reducible apply Within.updCore (hW.of (by decide))
      | with_reducible refine Within.ite (fun _ => ?_) (fun _ => ?_)
      | exact fun _ hc => hc
  clear_value s2
  have h3 : Within Ω a s3 := by
    unfold s3
    repeat' first
      | with_reducible assumption
      | with_reducible apply State.setFld_within (hW.of (by decide))
      | with_reducible apply tryIdle_within (hW.of (by decide))
      | with_reducible apply invalidateIdle_within (hW.of (by decide))
      | with_reducible apply syncCluster_within (hW.of (by decide))
      | with_reducible apply dropPageIns_within (hW.of (by decide))
      | with_reducible apply Within.updCore (hW.of (by decide))
      | with_reducible refine Within.ite (fun _ => ?_) (fun _ => ?_)
      | exact fun _ hc => hc
      | extract_lets
      | split
      | dsimp only
      | intro t ht
      | ((with_reducible refine Within.mk_same rfl ?_ ?_); (intro p hn; cases p <;> first | rfl | exact absurd (hW.use (by decide)) hn))
  clear_value s3
  have h4 : Within Ω a s4 := by
    unfold s4
    repeat' first
      | with_reducible assumption
      | with_reducible apply State.setFld_within (hW.of (by decide))
      | with_reducible apply tryIdle_within (hW.of (by decide))
      | with_reducible apply invalidateIdle_within (hW.of (by decide))
      | with_reducible apply syncCluster_within (hW.of (by decide))
      | with_reducible apply dropPageIns_within (hW.of (by decide))
  clear_value s4
  have h5 : Within Ω a s5 := by
    unfold s5
    repeat' first
      | with_reducible assumption
      | with_reducible apply State.setFld_within (hW.of (by decide))
      | with_reducible apply tryIdle_within (hW.of (by decide))
      | with_reducible apply invalidateIdle_within (hW.of (by decide))
      | with_reducible apply syncCluster_within (hW.of (by decide))
      | with_reducible apply dropPageIns_within (hW.of (by decide))
      | with_reducible apply Within.updCore (hW.of (by decide))
      | with_reducible refine Within.ite (fun _ => ?_) (fun _ => ?_)
  clear_value s5
  repeat' first
    | with_reducible assumption
    | with_reducible apply State.setFld_within (hW.of (by decide))
    | with_reducible apply tryIdle_within (hW.of (by decide))

theorem takeException_within (hW : Sub [.bull, .clk, .clu, .core, .free, .gh, .hbm, .hif, .out, .pmu, .regs, .seed, .time, .txHold, .ump] Ω) {k : Nat} {e : Exc} (h : Within Ω a s) : Within Ω a (takeException k e s) := by
  unfold takeException
  extract_lets v1 v2 v3 s1 s2 s3 s4 s5 s6 s7 v4 s8 s9 v5 s10
  have h1 : Within Ω a s1 := by
    unfold s1
    repeat' first
      | with_reducible assumption
      | with_reducible apply State.setFld_within (hW.of (by decide))
      | with_reducible apply State.bump_within (hW.of (by decide))
      | with_reducible apply addStrike_within (hW.of (by decide))
      | with_reducible apply abortStart_within (hW.of (by decide))
      | with_reducible apply retireCore_within (hW.of (by decide))
      | with_reducible apply tryIdle_within (hW.of (by decide))
      | with_reducible apply umpEvent_within (hW.of (by decide))
      | with_reducible apply Within.updCore (hW.of (by decide))
      | with_reducible refine Within.ite (fun _ => ?_) (fun _ => ?_)
      | with_reducible refine Within.foldl ?_ (fun t x ht => ?_)
      | (intro c hc; first | exact hc | (simp; done) | (simpa using hc))
      | extract_lets
      | split
      | dsimp only
      | ((with_reducible refine Within.mk_same rfl ?_ ?_); (intro p hn; cases p <;> first | rfl | exact absurd (hW.use (by decide)) hn))
  clear_value s1
  have h2 : Within Ω a s2 := by
    unfold s2
    repeat' first
      | with_reducible assumption
      | with_reducible apply State.setFld_within (hW.of (by decide))
      | with_reducible apply State.bump_within (hW.of (by decide))
      | with_reducible apply addStrike_within (hW.of (by decide))
      | with_reducible apply abortStart_within (hW.of (by decide))
      | with_reducible apply retireCore_within (hW.of (by decide))
      | with_reducible apply tryIdle_within (hW.of (by decide))
      | with_reducible apply umpEvent_within (hW.of (by decide))
      | with_reducible apply Within.updCore (hW.of (by decide))
      | with_reducible refine Within.ite (fun _ => ?_) (fun _ => ?_)
      | with_reducible refine Within.foldl ?_ (fun t x ht => ?_)
      | (intro c hc; first | exact hc | (simp; done) | (simpa using hc))
      | extract_lets
      | split
      | dsimp only
      | ((with_reducible refine Within.mk_same rfl ?_ ?_); (intro p hn; cases p <;> first | rfl | exact absurd (hW.use (by decide)) hn))
  clear_value s2
  have h3 : Within Ω a s3 := by
    unfold s3
    repeat' first
      | with_reducible assumption
      | with_reducible apply State.setFld_within (hW.of (by decide))
      | with_reducible apply State.bump_within (hW.of (by decide))
      | with_reducible apply addStrike_within (hW.of (by decide))
      | with_reducible apply abortStart_within (hW.of (by decide))
      | with_reducible apply retireCore_within (hW.of (by decide))
      | with_reducible apply tryIdle_within (hW.of (by decide))
      | with_reducible apply umpEvent_within (hW.of (by decide))
      | with_reducible apply Within.updCore (hW.of (by decide))
      | with_reducible refine Within.ite (fun _ => ?_) (fun _ => ?_)
      | with_reducible refine Within.foldl ?_ (fun t x ht => ?_)
      | (intro c hc; first | exact hc | (simp; done) | (simpa using hc))
      | extract_lets
      | split
      | dsimp only
      | ((with_reducible refine Within.mk_same rfl ?_ ?_); (intro p hn; cases p <;> first | rfl | exact absurd (hW.use (by decide)) hn))
  clear_value s3
  have h4 : Within Ω a s4 := by
    unfold s4
    repeat' first
      | with_reducible assumption
      | with_reducible apply State.setFld_within (hW.of (by decide))
      | with_reducible apply State.bump_within (hW.of (by decide))
      | with_reducible apply addStrike_within (hW.of (by decide))
      | with_reducible apply abortStart_within (hW.of (by decide))
      | with_reducible apply retireCore_within (hW.of (by decide))
      | with_reducible apply tryIdle_within (hW.of (by decide))
      | with_reducible apply umpEvent_within (hW.of (by decide))
      | with_reducible apply Within.updCore (hW.of (by decide))
      | with_reducible refine Within.ite (fun _ => ?_) (fun _ => ?_)
      | with_reducible refine Within.foldl ?_ (fun t x ht => ?_)
      | (intro c hc; first | exact hc | (simp; done) | (simpa using hc))
      | extract_lets
      | split
      | dsimp only
      | ((with_reducible refine Within.mk_same rfl ?_ ?_); (intro p hn; cases p <;> first | rfl | exact absurd (hW.use (by decide)) hn))
  clear_value s4
  have h5 : Within Ω a s5 := by
    unfold s5
    repeat' first
      | with_reducible assumption
      | with_reducible apply State.setFld_within (hW.of (by decide))
      | with_reducible apply State.bump_within (hW.of (by decide))
      | with_reducible apply addStrike_within (hW.of (by decide))
      | with_reducible apply abortStart_within (hW.of (by decide))
      | with_reducible apply retireCore_within (hW.of (by decide))
      | with_reducible apply tryIdle_within (hW.of (by decide))
      | with_reducible apply umpEvent_within (hW.of (by decide))
      | with_reducible apply Within.updCore (hW.of (by decide))
      | with_reducible refine Within.ite (fun _ => ?_) (fun _ => ?_)
      | with_reducible refine Within.foldl ?_ (fun t x ht => ?_)
      | (intro c hc; first | exact hc | (simp; done) | (simpa using hc))
      | extract_lets
      | split
      | dsimp only
      | ((with_reducible refine Within.mk_same rfl ?_ ?_); (intro p hn; cases p <;> first | rfl | exact absurd (hW.use (by decide)) hn))
  clear_value s5
  have h6 : Within Ω a s6 := by
    unfold s6
    repeat' first
      | with_reducible assumption
      | with_reducible apply State.setFld_within (hW.of (by decide))
      | with_reducible apply State.bump_within (hW.of (by decide))
      | with_reducible apply addStrike_within (hW.of (by decide))
      | with_reducible apply abortStart_within (hW.of (by decide))
      | with_reducible apply retireCore_within (hW.of (by decide))
      | with_reducible apply tryIdle_within (hW.of (by decide))
      | with_reducible apply umpEvent_within (hW.of (by decide))
      | with_reducible apply Within.updCore (hW.of (by decide))
      | with_reducible refine Within.ite (fun _ => ?_) (fun _ => ?_)
      | with_reducible refine Within.foldl ?_ (fun t x ht => ?_)
      | (intro c hc; first | exact hc | (simp; done) | (simpa using hc))
      | extract_lets
      | split
      | dsimp only
      | ((with_reducible refine Within.mk_same rfl ?_ ?_); (intro p hn; cases p <;> first | rfl | exact absurd (hW.use (by decide)) hn))
  clear_value s6
  have h7 : Within Ω a s7 := by
    unfold s7
    repeat' first
      | with_reducible assumption
      | with_reducible apply State.setFld_within (hW.of (by decide))
      | with_reducible apply State.bump_within (hW.of (by decide))
      | with_reducible apply addStrike_within (hW.of (by decide))
      | with_reducible apply abortStart_within (hW.of (by decide))
      | with_reducible apply retireCore_within (hW.of (by decide))
      | with_reducible apply tryIdle_within (hW.of (by decide))
      | with_reducible apply umpEvent_within (hW.of (by decide))
      | with_reducible apply Within.updCore (hW.of (by decide))
      | with_reducible refine Within.ite (fun _ => ?_) (fun _ => ?_)
      | with_reducible refine Within.foldl ?_ (fun t x ht => ?_)
      | (intro c hc; first | exact hc | (simp; done) | (simpa using hc))
      | extract_lets
      | split
      | dsimp only
      | ((with_reducible refine Within.mk_same rfl ?_ ?_); (intro p hn; cases p <;> first | rfl | exact absurd (hW.use (by decide)) hn))
  clear_value s7
  have h8 : Within Ω a s8 := by
    unfold s8
    repeat' first
      | with_reducible assumption
      | with_reducible apply State.setFld_within (hW.of (by decide))
      | with_reducible apply State.bump_within (hW.of (by decide))
      | with_reducible apply addStrike_within (hW.of (by decide))
      | with_reducible apply abortStart_within (hW.of (by decide))
      | with_reducible apply retireCore_within (hW.of (by decide))
      | with_reducible apply tryIdle_within (hW.of (by decide))
      | with_reducible apply umpEvent_within (hW.of (by decide))
      | with_reducible apply Within.updCore (hW.of (by decide))
      | with_reducible refine Within.ite (fun _ => ?_) (fun _ => ?_)
      | with_reducible refine Within.foldl ?_ (fun t x ht => ?_)
      | (intro c hc; first | exact hc | (simp; done) | (simpa using hc))
      | extract_lets
      | split
      | dsimp only
      | ((with_reducible refine Within.mk_same rfl ?_ ?_); (intro p hn; cases p <;> first | rfl | exact absurd (hW.use (by decide)) hn))
  clear_value s8
  have h9 : Within Ω a s9 := by
    unfold s9
    repeat' first
      | with_reducible assumption
      | with_reducible apply State.setFld_within (hW.of (by decide))
      | with_reducible apply State.bump_within (hW.of (by decide))
      | with_reducible apply addStrike_within (hW.of (by decide))
      | with_reducible apply abortStart_within (hW.of (by decide))
      | with_reducible apply retireCore_within (hW.of (by decide))
      | with_reducible apply tryIdle_within (hW.of (by decide))
      | with_reducible apply umpEvent_within (hW.of (by decide))
      | with_reducible apply Within.updCore (hW.of (by decide))
      | with_reducible refine Within.ite (fun _ => ?_) (fun _ => ?_)
      | with_reducible refine Within.foldl ?_ (fun t x ht => ?_)
      | (intro c hc; first | exact hc | (simp; done) | (simpa using hc))
      | extract_lets
      | split
      | dsimp only
      | ((with_reducible refine Within.mk_same rfl ?_ ?_); (intro p hn; cases p <;> first | rfl | exact absurd (hW.use (by decide)) hn))
  clear_value s9
  have h10 : Within Ω a s10 := by
    unfold s10
    repeat' first
      | with_reducible assumption
      | with_reducible apply State.setFld_within (hW.of (by decide))
      | with_reducible apply State.bump_within (hW.of (by decide))
      | with_reducible apply addStrike_within (hW.of (by decide))
      | with_reducible apply abortStart_within (hW.of (by decide))
      | with_reducible apply retireCore_within (hW.of (by decide))
      | with_reducible apply tryIdle_within (hW.of (by decide))
      | with_reducible apply umpEvent_within (hW.of (by decide))
      | with_reducible apply Within.updCore (hW.of (by decide))
      | with_reducible refine Within.ite (fun _ => ?_) (fun _ => ?_)
      | with_reducible refine Within.foldl ?_ (fun t x ht => ?_)
      | (intro c hc; first | exact hc | (simp; done) | (simpa using hc))
      | extract_lets
      | split
      | dsimp only
      | ((with_reducible refine Within.mk_same rfl ?_ ?_); (intro p hn; cases p <;> first | rfl | exact absurd (hW.use (by decide)) hn))
  clear_value s10
  repeat' first
    | with_reducible assumption
    | with_reducible apply State.setFld_within (hW.of (by decide))
    | with_reducible apply State.bump_within (hW.of (by decide))
    | with_reducible apply addStrike_within (hW.of (by decide))
    | with_reducible apply abortStart_within (hW.of (by decide))
    | with_reducible apply retireCore_within (hW.of (by decide))
    | with_reducible apply tryIdle_within (hW.of (by decide))
    | with_reducible apply umpEvent_within (hW.of (by decide))
    | with_reducible apply Within.updCore (hW.of (by decide))
    | with_reducible refine Within.ite (fun _ => ?_) (fun _ => ?_)
    | with_reducible refine Within.foldl ?_ (fun t x ht => ?_)
    | (intro c hc; first | exact hc | (simp; done) | (simpa using hc))
    | extract_lets
    | split
    | dsimp only
    | ((with_reducible refine Within.mk_same rfl ?_ ?_); (intro p hn; cases p <;> first | rfl | exact absurd (hW.use (by decide)) hn))

theorem scoutRecord_within (hW : Sub [.free, .scout] Ω) {k : Nat} {op : Nat} {outcome : Nat} {pc : Nat} {node : Nat} (h : Within Ω a s) : Within Ω a (scoutRecord k op outcome pc node s) := by
  unfold scoutRecord
  extract_lets v1 v2 v3
  clear_value v1 v2 v3
  repeat' first
    | with_reducible assumption
    | with_reducible apply State.draw_within (hW.of (by decide))
    | refine State.draw_within_pair (hW.of (by decide)) (by assumption) ?_
    | with_reducible refine Within.ite (fun _ => ?_) (fun _ => ?_)
    | extract_lets
    | split
    | dsimp only
    | ((with_reducible refine Within.mk_same rfl ?_ ?_); (intro p hn; cases p <;> first | rfl | exact absurd (hW.use (by decide)) hn))

theorem issue_within (hW : Sub [.bull, .clk, .clu, .core, .free, .gh, .hbm, .hif, .out, .pmu, .regs, .scout, .seed, .time, .txHold, .ump] Ω) {k op : Nat} {bar wf : Bool} {f : State → CoreRes} (h : Within Ω a s) (hf : ∀ t, Within Ω a t → (f t).Ins Ω a) :
    Within Ω a (issue k op bar wf f s) := by
  unfold issue
  split
  · exact h
  extract_lets s1 c pc node tag bad
  have h1 : Within Ω a s1 := Within.ite (fun _ => setPwr_within (hW.of (by decide)) h) (fun _ => h)
  have htag : ∀ o t, Within Ω a t → Within Ω a (tag o t) := fun o t ht => Within.ite (fun _ => scoutRecord_within (hW.of (by decide)) ht) (fun _ => ht)
  have hbad : ∀ e t, Within Ω a t → Within Ω a (bad e t) := fun e t ht => htag _ _ (takeException_within (hW.of (by decide)) ht)
  clear_value tag bad
  split
  · exact hbad _ _ h1
  split
  · exact hbad _ _ h1
  split
  · exact hbad _ _ h1
  have hr := hf s1 h1
  split <;> rename_i heq <;> rw [heq] at hr
  · exact hbad _ _ hr
  · exact hr
  · exact htag _ _ (pmuEvent_within (hW.of (by decide)) (Within.updCore (hW.of (by decide)) hr fun _ hc => hc))
  · exact htag _ _ (pmuEvent_within (hW.of (by decide)) (pmuEvent_within (hW.of (by decide)) (Within.updCore (hW.of (by decide)) hr fun _ hc => hc)))
  · exact htag _ _ (pmuEvent_within (hW.of (by decide)) (Within.updCore (hW.of (by decide)) hr fun _ hc => hc))

theorem excAt_within (hW : Sub [] Ω) {k : Nat} {code : Nat} (h : Within Ω a s) : (excAt k code s).Ins Ω a := by
  unfold excAt
  repeat' first
    | with_reducible assumption
    | with_reducible apply CoreRes.within_exc

theorem excResidue_within (hW : Sub [] Ω) {k : Nat} (h : Within Ω a s) : (excResidue k s).Ins Ω a := by
  unfold excResidue
  repeat' first
    | with_reducible assumption
    | with_reducible apply CoreRes.within_exc

theorem takeResidue_within (hW : Sub [.regs] Ω) {k : Nat} (h : Within Ω a s) : Within Ω a (takeResidue k s).2 := by
  unfold takeResidue
  repeat' first
    | with_reducible assumption
    | with_reducible apply State.setFld_within (hW.of (by decide))
    | with_reducible refine Within.ite (fun _ => ?_) (fun _ => ?_)
    | split

theorem takeResidue_within_pair (hW : Sub [.regs] Ω) {k : Nat} {x0} {t} (e : takeResidue k s = (x0, t)) (h : Within Ω a s) : Within Ω a t := by
  have := takeResidue_within (hW.of (by decide)) (k := k) h; rwa [e] at this

theorem writeBack_within (hW : Sub [.core, .hif, .out, .pmu, .regs] Ω) {k : Nat} {good sat gov : Bool} {f : Core → Core} (h : Within Ω a s)
    (hf : ∀ c : Core, Memory.wf c.ram = true → Memory.wf (f c).ram = true) : (writeBack k good sat gov f s).Ins Ω a := by
  unfold writeBack
  split
  next e =>
  have h1 := takeResidue_within_pair (hW.of (by decide)) e h
  split
  · exact excResidue_within (hW.of (by decide)) h1
  · exact Within.updCore (hW.of (by decide)) (pmuEvent_within (hW.of (by decide)) (pmuEvent_within (hW.of (by decide)) h1)) hf

theorem finishS_within (hW : Sub [.core, .hif, .out, .pmu, .regs] Ω) {k d : Nat} {setf : Bool} {o : Out} (h : Within Ω a s) : (finishS k d setf o s).Ins Ω a :=
  writeBack_within (hW.of (by decide)) h fun c hc => by rw [Core.setS_ram, Core.stick_ram]; split <;> exact hc

theorem salu_within (hW : Sub [.bull, .clk, .clu, .core, .free, .gh, .hbm, .hif, .out, .pmu, .regs, .scout, .seed, .time, .txHold, .ump] Ω) {f : SFn} {k : Nat} {op : SaluOp} (h : Within Ω a s) : Within Ω a (salu f k op s) := by
  unfold salu
  repeat' first
    | with_reducible assumption
    | with_reducible apply issue_within (hW.of (by decide))
    | with_reducible apply finishS_within (hW.of (by decide))
    | dsimp only
    | intro t ht

theorem shi_within (hW : Sub [.bull, .clk, .clu, .core, .free, .gh, .hbm, .hif, .out, .pmu, .regs, .scout, .seed, .time, .txHold, .ump] Ω) {f : SFn} {k : Nat} {op : ShiOp} (h : Within Ω a s) : Within Ω a (shi f k op s) := by
  unfold shi
  repeat' first
    | with_reducible assumption
    | with_reducible apply issue_within (hW.of (by decide))
    | with_reducible apply finishS_within (hW.of (by decide))
    | dsimp only
    | intro t ht

theorem execAdd_within (hW : Sub [.bull, .clk, .clu, .core, .free, .gh, .hbm, .hif, .out, .pmu, .regs, .scout, .seed, .time, .txHold, .ump] Ω) {core : Nat} {op : SaluOp} (h : Within Ω a s) : WithinOut Ω a (execAdd core op s) := by
  unfold execAdd
  repeat' first
    | with_reducible assumption
    | with_reducible apply salu_within (hW.of (by decide))
    | with_reducible apply WithinOut.next

theorem execSub_within (hW : Sub [.bull, .clk, .clu, .core, .free, .gh, .hbm, .hif, .out, .pmu, .regs, .scout, .seed, .time, .txHold, .ump] Ω) {core : Nat} {op : SaluOp} (h : Within Ω a s) : WithinOut Ω a (execSub core op s) := by
  unfold execSub
  repeat' first
    | with_reducible assumption
    | with_reducible apply salu_within (hW.of (by decide))
    | with_reducible apply WithinOut.next

theorem execAddu_within (hW : Sub [.bull, .clk, .clu, .core, .free, .gh, .hbm, .hif, .out, .pmu, .regs, .scout, .seed, .time, .txHold, .ump] Ω) {core : Nat} {op : SaluOp} (h : Within Ω a s) : WithinOut Ω a (execAddu core op s) := by
  unfold execAddu
  repeat' first
    | with_reducible assumption
    | with_reducible apply salu_within (hW.of (by decide))
    | with_reducible apply WithinOut.next

theorem execSubu_within (hW : Sub [.bull, .clk, .clu, .core, .free, .gh, .hbm, .hif, .out, .pmu, .regs, .scout, .seed, .time, .txHold, .ump] Ω) {core : Nat} {op : SaluOp} (h : Within Ω a s) : WithinOut Ω a (execSubu core op s) := by
  unfold execSubu
  repeat' first
    | with_reducible assumption
    | with_reducible apply salu_within (hW.of (by decide))
    | with_reducible apply WithinOut.next

theorem execNeg_within (hW : Sub [.bull, .clk, .clu, .core, .free, .gh, .hbm, .hif, .out, .pmu, .regs, .scout, .seed, .time, .txHold, .ump] Ω) {core : Nat} {op : SaluOp} (h : Within Ω a s) : WithinOut Ω a (execNeg core op s) := by
  unfold execNeg
  repeat' first
    | with_reducible assumption
    | with_reducible apply salu_within (hW.of (by decide))
    | with_reducible apply WithinOut.next

theorem execAbs_within (hW : Sub [.bull, .clk, .clu, .core, .free, .gh, .hbm, .hif, .out, .pmu, .regs, .scout, .seed, .time, .txHold, .ump] Ω) {core : Nat} {op : SaluOp} (h : Within Ω a s) : WithinOut Ω a (execAbs core op s) := by
  unfold execAbs
  repeat' first
    | with_reducible assumption
    | with_reducible apply salu_within (hW.of (by decide))
    | with_reducible apply WithinOut.next

theorem execMin_within (hW : Sub [.bull, .clk, .clu, .core, .free, .gh, .hbm, .hif, .out, .pmu, .regs, .scout, .seed, .time, .txHold, .ump] Ω) {core : Nat} {op : SaluOp} (h : Within Ω a s) : WithinOut Ω a (execMin core op s) := by
  unfold execMin
  repeat' first
    | with_reducible assumption
    | with_reducible apply salu_within (hW.of (by decide))
    | with_reducible apply WithinOut.next

theorem execMax_within (hW : Sub [.bull, .clk, .clu, .core, .free, .gh, .hbm, .hif, .out, .pmu, .regs, .scout, .seed, .time, .txHold, .ump] Ω) {core : Nat} {op : SaluOp} (h : Within Ω a s) : WithinOut Ω a (execMax core op s) := by
  unfold execMax
  repeat' first
    | with_reducible assumption
    | with_reducible apply salu_within (hW.of (by decide))
    | with_reducible apply WithinOut.next

theorem execAnd_within (hW : Sub [.bull, .clk, .clu, .core, .free, .gh, .hbm, .hif, .out, .pmu, .regs, .scout, .seed, .time, .txHold, .ump] Ω) {core : Nat} {op : SaluOp} (h : Within Ω a s) : WithinOut Ω a (execAnd core op s) := by
  unfold execAnd
  repeat' first
    | with_reducible assumption
    | with_reducible apply salu_within (hW.of (by decide))
    | with_reducible apply WithinOut.next

theorem execOr_within (hW : Sub [.bull, .clk, .clu, .core, .free, .gh, .hbm, .hif, .out, .pmu, .regs, .scout, .seed, .time, .txHold, .ump] Ω) {core : Nat} {op : SaluOp} (h : Within Ω a s) : WithinOut Ω a (execOr core op s) := by
  unfold execOr
  repeat' first
    | with_reducible assumption
    | with_reducible apply salu_within (hW.of (by decide))
    | with_reducible apply WithinOut.next

theorem execXor_within (hW : Sub [.bull, .clk, .clu, .core, .free, .gh, .hbm, .hif, .out, .pmu, .regs, .scout, .seed, .time, .txHold, .ump] Ω) {core : Nat} {op : SaluOp} (h : Within Ω a s) : WithinOut Ω a (execXor core op s) := by
  unfold execXor
  repeat' first
    | with_reducible assumption
    | with_reducible apply salu_within (hW.of (by decide))
    | with_reducible apply WithinOut.next

theorem execAndn_within (hW : Sub [.bull, .clk, .clu, .core, .free, .gh, .hbm, .hif, .out, .pmu, .regs, .scout, .seed, .time, .txHold, .ump] Ω) {core : Nat} {op : SaluOp} (h : Within Ω a s) : WithinOut Ω a (execAndn core op s) := by
  unfold execAndn
  repeat' first
    | with_reducible assumption
    | with_reducible apply salu_within (hW.of (by decide))
    | with_reducible apply WithinOut.next

theorem execShl_within (hW : Sub [.bull, .clk, .clu, .core, .free, .gh, .hbm, .hif, .out, .pmu, .regs, .scout, .seed, .time, .txHold, .ump] Ω) {core : Nat} {op : SaluOp} (h : Within Ω a s) : WithinOut Ω a (execShl core op s) := by
  unfold execShl
  repeat' first
    | with_reducible assumption
    | with_reducible apply salu_within (hW.of (by decide))
    | with_reducible apply WithinOut.next

theorem execShr_within (hW : Sub [.bull, .clk, .clu, .core, .free, .gh, .hbm, .hif, .out, .pmu, .regs, .scout, .seed, .time, .txHold, .ump] Ω) {core : Nat} {op : SaluOp} (h : Within Ω a s) : WithinOut Ω a (execShr core op s) := by
  unfold execShr
  repeat' first
    | with_reducible assumption
    | with_reducible apply salu_within (hW.of (by decide))
    | with_reducible apply WithinOut.next

theorem execSar_within (hW : Sub [.bull, .clk, .clu, .core, .free, .gh, .hbm, .hif, .out, .pmu, .regs, .scout, .seed, .time, .txHold, .ump] Ω) {core : Nat} {op : SaluOp} (h : Within Ω a s) : WithinOut Ω a (execSar core op s) := by
  unfold execSar
  repeat' first
    | with_reducible assumption
    | with_reducible apply salu_within (hW.of (by decide))
    | with_reducible apply WithinOut.next

theorem execSrr_within (hW : Sub [.bull, .clk, .clu, .core, .free, .gh, .hbm, .hif, .out, .pmu, .regs, .scout, .seed, .time, .txHold, .ump] Ω) {core : Nat} {op : SaluOp} (h : Within Ω a s) : WithinOut Ω a (execSrr core op s) := by
  unfold execSrr
  repeat' first
    | with_reducible assumption
    | with_reducible apply salu_within (hW.of (by decide))
    | with_reducible apply WithinOut.next

theorem execMul_within (hW : Sub [.bull, .clk, .clu, .core, .free, .gh, .hbm, .hif, .out, .pmu, .regs, .scout, .seed, .time, .txHold, .ump] Ω) {core : Nat} {op : SaluOp} (h : Within Ω a s) : WithinOut Ω a (execMul core op s) := by
  unfold execMul
  repeat' first
    | with_reducible assumption
    | with_reducible apply salu_within (hW.of (by decide))
    | with_reducible apply WithinOut.next

theorem execMulu_within (hW : Sub [.bull, .clk, .clu, .core, .free, .gh, .hbm, .hif, .out, .pmu, .regs, .scout, .seed, .time, .txHold, .ump] Ω) {core : Nat} {op : SaluOp} (h : Within Ω a s) : WithinOut Ω a (execMulu core op s) := by
  unfold execMulu
  repeat' first
    | with_reducible assumption
    | with_reducible apply salu_within (hW.of (by decide))
    | with_reducible apply WithinOut.next

theorem execMov_within (hW : Sub [.bull, .clk, .clu, .core, .free, .gh, .hbm, .hif, .out, .pmu, .regs, .scout, .seed, .time, .txHold, .ump] Ω) {core : Nat} {op : SaluOp} (h : Within Ω a s) : WithinOut Ω a (execMov core op s) := by
  unfold execMov
  repeat' first
    | with_reducible assumption
    | with_reducible apply salu_within (hW.of (by decide))
    | with_reducible apply WithinOut.next

theorem execClz_within (hW : Sub [.bull, .clk, .clu, .core, .free, .gh, .hbm, .hif, .out, .pmu, .regs, .scout, .seed, .time, .txHold, .ump] Ω) {core : Nat} {op : SaluOp} (h : Within Ω a s) : WithinOut Ω a (execClz core op s) := by
  unfold execClz
  repeat' first
    | with_reducible assumption
    | with_reducible apply salu_within (hW.of (by decide))
    | with_reducible apply WithinOut.next

theorem execBfx_within (hW : Sub [.bull, .clk, .clu, .core, .free, .gh, .hbm, .hif, .out, .pmu, .regs, .scout, .seed, .time, .txHold, .ump] Ω) {core : Nat} {op : SaluOp} (h : Within Ω a s) : WithinOut Ω a (execBfx core op s) := by
  unfold execBfx
  repeat' first
    | with_reducible assumption
    | with_reducible apply salu_within (hW.of (by decide))
    | with_reducible apply WithinOut.next

theorem execAddi_within (hW : Sub [.bull, .clk, .clu, .core, .free, .gh, .hbm, .hif, .out, .pmu, .regs, .scout, .seed, .time, .txHold, .ump] Ω) {core : Nat} {sat : Bool} {d : Nat} {x : Nat} {imm : Int} (h : Within Ω a s) : WithinOut Ω a (execAddi core sat d x imm s) := by
  unfold execAddi
  repeat' first
    | with_reducible assumption
    | with_reducible apply issue_within (hW.of (by decide))
    | with_reducible apply finishS_within (hW.of (by decide))
    | with_reducible apply WithinOut.next
    | dsimp only
    | intro t ht

theorem execShiShl_within (hW : Sub [.bull, .clk, .clu, .core, .free, .gh, .hbm, .hif, .out, .pmu, .regs, .scout, .seed, .time, .txHold, .ump] Ω) {core : Nat} {op : ShiOp} (h : Within Ω a s) : WithinOut Ω a (execShiShl core op s) := by
  unfold execShiShl
  repeat' first
    | with_reducible assumption
    | with_reducible apply shi_within (hW.of (by decide))
    | with_reducible apply WithinOut.next

theorem execShiShr_within (hW : Sub [.bull, .clk, .clu, .core, .free, .gh, .hbm, .hif, .out, .pmu, .regs, .scout, .seed, .time, .txHold, .ump] Ω) {core : Nat} {op : ShiOp} (h : Within Ω a s) : WithinOut Ω a (execShiShr core op s) := by
  unfold execShiShr
  repeat' first
    | with_reducible assumption
    | with_reducible apply shi_within (hW.of (by decide))
    | with_reducible apply WithinOut.next

theorem execShiSar_within (hW : Sub [.bull, .clk, .clu, .core, .free, .gh, .hbm, .hif, .out, .pmu, .regs, .scout, .seed, .time, .txHold, .ump] Ω) {core : Nat} {op : ShiOp} (h : Within Ω a s) : WithinOut Ω a (execShiSar core op s) := by
  unfold execShiSar
  repeat' first
    | with_reducible assumption
    | with_reducible apply shi_within (hW.of (by decide))
    | with_reducible apply WithinOut.next

theorem execShiSrr_within (hW : Sub [.bull, .clk, .clu, .core, .free, .gh, .hbm, .hif, .out, .pmu, .regs, .scout, .seed, .time, .txHold, .ump] Ω) {core : Nat} {op : ShiOp} (h : Within Ω a s) : WithinOut Ω a (execShiSrr core op s) := by
  unfold execShiSrr
  repeat' first
    | with_reducible assumption
    | with_reducible apply shi_within (hW.of (by decide))
    | with_reducible apply WithinOut.next

theorem execMovl_within (hW : Sub [.bull, .clk, .clu, .core, .free, .gh, .hbm, .hif, .out, .pmu, .regs, .scout, .seed, .time, .txHold, .ump] Ω) {core : Nat} {d : Nat} {imm : Int} (h : Within Ω a s) : WithinOut Ω a (execMovl core d imm s) := by
  unfold execMovl
  repeat' first
    | with_reducible assumption
    | with_reducible apply issue_within (hW.of (by decide))
    | with_reducible apply finishS_within (hW.of (by decide))
    | with_reducible apply WithinOut.next
    | dsimp only
    | intro t ht

theorem execMovh_within (hW : Sub [.bull, .clk, .clu, .core, .free, .gh, .hbm, .hif, .out, .pmu, .regs, .scout, .seed, .time, .txHold, .ump] Ω) {core : Nat} {d : Nat} {imm : Nat} (h : Within Ω a s) : WithinOut Ω a (execMovh core d imm s) := by
  unfold execMovh
  repeat' first
    | with_reducible assumption
    | with_reducible apply issue_within (hW.of (by decide))
    | with_reducible apply finishS_within (hW.of (by decide))
    | with_reducible apply WithinOut.next
    | extract_lets
    | dsimp only
    | intro t ht

theorem execCmpi_within (hW : Sub [.bull, .clk, .clu, .core, .free, .gh, .hbm, .hif, .out, .pmu, .regs, .scout, .seed, .time, .txHold, .ump] Ω) {core : Nat} {x : Nat} {imm : Int} (h : Within Ω a s) : WithinOut Ω a (execCmpi core x imm s) := by
  unfold execCmpi
  repeat' first
    | with_reducible assumption
    | with_reducible refine writeBack_within (hW.of (by decide)) ?_ (fun c hc => ?_)
    | with_reducible apply issue_within (hW.of (by decide))
    | with_reducible apply writeBack_within (hW.of (by decide))
    | with_reducible refine Within.ite (fun _ => ?_) (fun _ => ?_)
    | with_reducible refine Within.foldl ?_ (fun t x ht => ?_)
    | (intro c hc; first | exact hc | (simp; done) | (simpa using hc))
    | with_reducible apply WithinOut.next
    | with_reducible apply CoreRes.within_done
    | with_reducible apply CoreRes.within_stay
    | with_reducible apply CoreRes.within_jump
    | with_reducible apply CoreRes.within_skip
    | with_reducible apply CoreRes.within_exc
    | intro t ht
    | extract_lets
    | split
    | dsimp only
    | ((with_reducible refine Within.mk_same rfl ?_ ?_); (intro p hn; cases p <;> first | rfl | exact absurd (hW.use (by decide)) hn))

theorem finishV_within (hW : Sub [.core, .hif, .out, .pmu, .regs] Ω) {k d : Nat} {outs : List (Nat × Out)} (h : Within Ω a s) : (finishV k d outs s).Ins Ω a :=
  writeBack_within (hW.of (by decide)) h fun c hc => (foldl_ram (fun c (o : Nat × Out) => (c.stick (satBit o.1 o.2.sat)).setV d o.1 ⟨o.2.v, o.2.p % 7⟩) (fun _ _ => rfl) outs c).symm ▸ hc

theorem valu_within (hW : Sub [.bull, .clk, .clu, .core, .free, .gh, .hbm, .hif, .out, .pmu, .regs, .scout, .seed, .time, .txHold, .ump] Ω) {f : VFn} {w : Bool} {k : Nat} {op : ValuOp} (h : Within Ω a s) : Within Ω a (valu f w k op s) := by
  unfold valu
  repeat' first
    | with_reducible assumption
    | with_reducible apply pmuEvent_within (hW.of (by decide))
    | with_reducible apply issue_within (hW.of (by decide))
    | with_reducible apply finishV_within (hW.of (by decide))
    | extract_lets
    | dsimp only
    | intro t ht

theorem vshi_within (hW : Sub [.bull, .clk, .clu, .core, .free, .gh, .hbm, .hif, .out, .pmu, .regs, .scout, .seed, .time, .txHold, .ump] Ω) {f : VFn} {w : Bool} {k : Nat} {op : ValuOp} (h : Within Ω a s) : Within Ω a (vshi f w k op s) := by
  unfold vshi
  repeat' first
    | with_reducible assumption
    | with_reducible apply pmuEvent_within (hW.of (by decide))
    | with_reducible apply issue_within (hW.of (by decide))
    | with_reducible apply finishV_within (hW.of (by decide))
    | extract_lets
    | dsimp only
    | intro t ht

theorem vcmp_within (hW : Sub [.bull, .clk, .clu, .core, .free, .gh, .hbm, .hif, .out, .pmu, .regs, .scout, .seed, .time, .txHold, .ump] Ω) {f : VCmp} {k : Nat} {op : ValuOp} (h : Within Ω a s) : Within Ω a (vcmp f k op s) := by
  unfold vcmp
  repeat' first
    | with_reducible assumption
    | with_reducible apply issue_within (hW.of (by decide))
    | with_reducible apply excResidue_within (hW.of (by decide))
    | with_reducible apply pmuEvent_within (hW.of (by decide))
    | with_reducible apply Within.updCore (hW.of (by decide))
    | with_reducible refine Within.ite (fun _ => ?_) (fun _ => ?_)
    | with_reducible refine Within.foldl ?_ (fun t x ht => ?_)
    | (intro c hc; first | exact hc | (simp; done) | (simpa using hc))
    | with_reducible apply CoreRes.within_done
    | with_reducible apply CoreRes.within_stay
    | with_reducible apply CoreRes.within_jump
    | with_reducible apply CoreRes.within_skip
    | with_reducible apply CoreRes.within_exc
    | intro t ht
    | extract_lets
    | split
    | dsimp only
    | ((with_reducible refine Within.mk_same rfl ?_ ?_); (intro p hn; cases p <;> first | rfl | exact absurd (hW.use (by decide)) hn))

theorem execVadd_within (hW : Sub [.bull, .clk, .clu, .core, .free, .gh, .hbm, .hif, .out, .pmu, .regs, .scout, .seed, .time, .txHold, .ump] Ω) {core : Nat} {op : ValuOp} (h : Within Ω a s) : WithinOut Ω a (execVadd core op s) := by
  unfold execVadd
  repeat' first
    | with_reducible assumption
    | with_reducible apply valu_within (hW.of (by decide))
    | with_reducible apply WithinOut.next

theorem execVsub_within (hW : Sub [.bull, .clk, .clu, .core, .free, .gh, .hbm, .hif, .out, .pmu, .regs, .scout, .seed, .time, .txHold, .ump] Ω) {core : Nat} {op : ValuOp} (h : Within Ω a s) : WithinOut Ω a (execVsub core op s) := by
  unfold execVsub
  repeat' first
    | with_reducible assumption
    | with_reducible apply valu_within (hW.of (by decide))
    | with_reducible apply WithinOut.next

theorem execVneg_within (hW : Sub [.bull, .clk, .clu, .core, .free, .gh, .hbm, .hif, .out, .pmu, .regs, .scout, .seed, .time, .txHold, .ump] Ω) {core : Nat} {op : ValuOp} (h : Within Ω a s) : WithinOut Ω a (execVneg core op s) := by
  unfold execVneg
  repeat' first
    | with_reducible assumption
    | with_reducible apply valu_within (hW.of (by decide))
    | with_reducible apply WithinOut.next

theorem execVabs_within (hW : Sub [.bull, .clk, .clu, .core, .free, .gh, .hbm, .hif, .out, .pmu, .regs, .scout, .seed, .time, .txHold, .ump] Ω) {core : Nat} {op : ValuOp} (h : Within Ω a s) : WithinOut Ω a (execVabs core op s) := by
  unfold execVabs
  repeat' first
    | with_reducible assumption
    | with_reducible apply valu_within (hW.of (by decide))
    | with_reducible apply WithinOut.next

theorem execVmin_within (hW : Sub [.bull, .clk, .clu, .core, .free, .gh, .hbm, .hif, .out, .pmu, .regs, .scout, .seed, .time, .txHold, .ump] Ω) {core : Nat} {op : ValuOp} (h : Within Ω a s) : WithinOut Ω a (execVmin core op s) := by
  unfold execVmin
  repeat' first
    | with_reducible assumption
    | with_reducible apply valu_within (hW.of (by decide))
    | with_reducible apply WithinOut.next

theorem execVmax_within (hW : Sub [.bull, .clk, .clu, .core, .free, .gh, .hbm, .hif, .out, .pmu, .regs, .scout, .seed, .time, .txHold, .ump] Ω) {core : Nat} {op : ValuOp} (h : Within Ω a s) : WithinOut Ω a (execVmax core op s) := by
  unfold execVmax
  repeat' first
    | with_reducible assumption
    | with_reducible apply valu_within (hW.of (by decide))
    | with_reducible apply WithinOut.next

theorem execVand_within (hW : Sub [.bull, .clk, .clu, .core, .free, .gh, .hbm, .hif, .out, .pmu, .regs, .scout, .seed, .time, .txHold, .ump] Ω) {core : Nat} {op : ValuOp} (h : Within Ω a s) : WithinOut Ω a (execVand core op s) := by
  unfold execVand
  repeat' first
    | with_reducible assumption
    | with_reducible apply valu_within (hW.of (by decide))
    | with_reducible apply WithinOut.next

theorem execVor_within (hW : Sub [.bull, .clk, .clu, .core, .free, .gh, .hbm, .hif, .out, .pmu, .regs, .scout, .seed, .time, .txHold, .ump] Ω) {core : Nat} {op : ValuOp} (h : Within Ω a s) : WithinOut Ω a (execVor core op s) := by
  unfold execVor
  repeat' first
    | with_reducible assumption
    | with_reducible apply valu_within (hW.of (by decide))
    | with_reducible apply WithinOut.next

theorem execVxor_within (hW : Sub [.bull, .clk, .clu, .core, .free, .gh, .hbm, .hif, .out, .pmu, .regs, .scout, .seed, .time, .txHold, .ump] Ω) {core : Nat} {op : ValuOp} (h : Within Ω a s) : WithinOut Ω a (execVxor core op s) := by
  unfold execVxor
  repeat' first
    | with_reducible assumption
    | with_reducible apply valu_within (hW.of (by decide))
    | with_reducible apply WithinOut.next

theorem execVshl_within (hW : Sub [.bull, .clk, .clu, .core, .free, .gh, .hbm, .hif, .out, .pmu, .regs, .scout, .seed, .time, .txHold, .ump] Ω) {core : Nat} {op : ValuOp} (h : Within Ω a s) : WithinOut Ω a (execVshl core op s) := by
  unfold execVshl
  repeat' first
    | with_reducible assumption
    | with_reducible apply valu_within (hW.of (by decide))
    | with_reducible apply WithinOut.next

theorem execVshr_within (hW : Sub [.bull, .clk, .clu, .core, .free, .gh, .hbm, .hif, .out, .pmu, .regs, .scout, .seed, .time, .txHold, .ump] Ω) {core : Nat} {op : ValuOp} (h : Within Ω a s) : WithinOut Ω a (execVshr core op s) := by
  unfold execVshr
  repeat' first
    | with_reducible assumption
    | with_reducible apply valu_within (hW.of (by decide))
    | with_reducible apply WithinOut.next

theorem execVsar_within (hW : Sub [.bull, .clk, .clu, .core, .free, .gh, .hbm, .hif, .out, .pmu, .regs, .scout, .seed, .time, .txHold, .ump] Ω) {core : Nat} {op : ValuOp} (h : Within Ω a s) : WithinOut Ω a (execVsar core op s) := by
  unfold execVsar
  repeat' first
    | with_reducible assumption
    | with_reducible apply valu_within (hW.of (by decide))
    | with_reducible apply WithinOut.next

theorem execVsrr_within (hW : Sub [.bull, .clk, .clu, .core, .free, .gh, .hbm, .hif, .out, .pmu, .regs, .scout, .seed, .time, .txHold, .ump] Ω) {core : Nat} {op : ValuOp} (h : Within Ω a s) : WithinOut Ω a (execVsrr core op s) := by
  unfold execVsrr
  repeat' first
    | with_reducible assumption
    | with_reducible apply valu_within (hW.of (by decide))
    | with_reducible apply WithinOut.next

theorem execVcmpeq_within (hW : Sub [.bull, .clk, .clu, .core, .free, .gh, .hbm, .hif, .out, .pmu, .regs, .scout, .seed, .time, .txHold, .ump] Ω) {core : Nat} {op : ValuOp} (h : Within Ω a s) : WithinOut Ω a (execVcmpeq core op s) := by
  unfold execVcmpeq
  repeat' first
    | with_reducible assumption
    | with_reducible apply vcmp_within (hW.of (by decide))
    | with_reducible apply WithinOut.next

theorem execVcmplt_within (hW : Sub [.bull, .clk, .clu, .core, .free, .gh, .hbm, .hif, .out, .pmu, .regs, .scout, .seed, .time, .txHold, .ump] Ω) {core : Nat} {op : ValuOp} (h : Within Ω a s) : WithinOut Ω a (execVcmplt core op s) := by
  unfold execVcmplt
  repeat' first
    | with_reducible assumption
    | with_reducible apply vcmp_within (hW.of (by decide))
    | with_reducible apply WithinOut.next

theorem execVcmple_within (hW : Sub [.bull, .clk, .clu, .core, .free, .gh, .hbm, .hif, .out, .pmu, .regs, .scout, .seed, .time, .txHold, .ump] Ω) {core : Nat} {op : ValuOp} (h : Within Ω a s) : WithinOut Ω a (execVcmple core op s) := by
  unfold execVcmple
  repeat' first
    | with_reducible assumption
    | with_reducible apply vcmp_within (hW.of (by decide))
    | with_reducible apply WithinOut.next

theorem execVsel_within (hW : Sub [.bull, .clk, .clu, .core, .free, .gh, .hbm, .hif, .out, .pmu, .regs, .scout, .seed, .time, .txHold, .ump] Ω) {core : Nat} {op : ValuOp} (h : Within Ω a s) : WithinOut Ω a (execVsel core op s) := by
  unfold execVsel
  repeat' first
    | with_reducible assumption
    | with_reducible apply valu_within (hW.of (by decide))
    | with_reducible apply WithinOut.next

theorem execVmov_within (hW : Sub [.bull, .clk, .clu, .core, .free, .gh, .hbm, .hif, .out, .pmu, .regs, .scout, .seed, .time, .txHold, .ump] Ω) {core : Nat} {op : ValuOp} (h : Within Ω a s) : WithinOut Ω a (execVmov core op s) := by
  unfold execVmov
  repeat' first
    | with_reducible assumption
    | with_reducible apply valu_within (hW.of (by decide))
    | with_reducible apply WithinOut.next

theorem execVbcst_within (hW : Sub [.bull, .clk, .clu, .core, .free, .gh, .hbm, .hif, .out, .pmu, .regs, .scout, .seed, .time, .txHold, .ump] Ω) {core : Nat} {op : ValuOp} (h : Within Ω a s) : WithinOut Ω a (execVbcst core op s) := by
  unfold execVbcst
  repeat' first
    | with_reducible assumption
    | with_reducible apply pmuEvent_within (hW.of (by decide))
    | with_reducible apply issue_within (hW.of (by decide))
    | with_reducible apply finishV_within (hW.of (by decide))
    | with_reducible apply WithinOut.next
    | dsimp only
    | intro t ht

theorem execVget_within (hW : Sub [.bull, .clk, .clu, .core, .free, .gh, .hbm, .hif, .out, .pmu, .regs, .scout, .seed, .time, .txHold, .ump] Ω) {core : Nat} {d : Nat} {x : Nat} {lane : Nat} (h : Within Ω a s) : WithinOut Ω a (execVget core d x lane s) := by
  unfold execVget
  repeat' first
    | with_reducible assumption
    | with_reducible apply pmuEvent_within (hW.of (by decide))
    | with_reducible apply issue_within (hW.of (by decide))
    | with_reducible apply finishS_within (hW.of (by decide))
    | with_reducible apply WithinOut.next
    | dsimp only
    | intro t ht

theorem execVput_within (hW : Sub [.bull, .clk, .clu, .core, .free, .gh, .hbm, .hif, .out, .pmu, .regs, .scout, .seed, .time, .txHold, .ump] Ω) {core : Nat} {d : Nat} {x : Nat} {lane : Nat} (h : Within Ω a s) : WithinOut Ω a (execVput core d x lane s) := by
  unfold execVput
  repeat' first
    | with_reducible assumption
    | with_reducible apply pmuEvent_within (hW.of (by decide))
    | with_reducible apply issue_within (hW.of (by decide))
    | with_reducible apply finishV_within (hW.of (by decide))
    | with_reducible apply WithinOut.next
    | dsimp only
    | intro t ht

theorem execVshiVshl_within (hW : Sub [.bull, .clk, .clu, .core, .free, .gh, .hbm, .hif, .out, .pmu, .regs, .scout, .seed, .time, .txHold, .ump] Ω) {core : Nat} {op : ValuOp} (h : Within Ω a s) : WithinOut Ω a (execVshiVshl core op s) := by
  unfold execVshiVshl
  repeat' first
    | with_reducible assumption
    | with_reducible apply vshi_within (hW.of (by decide))
    | with_reducible apply WithinOut.next

theorem execVshiVshr_within (hW : Sub [.bull, .clk, .clu, .core, .free, .gh, .hbm, .hif, .out, .pmu, .regs, .scout, .seed, .time, .txHold, .ump] Ω) {core : Nat} {op : ValuOp} (h : Within Ω a s) : WithinOut Ω a (execVshiVshr core op s) := by
  unfold execVshiVshr
  repeat' first
    | with_reducible assumption
    | with_reducible apply vshi_within (hW.of (by decide))
    | with_reducible apply WithinOut.next

theorem execVshiVsar_within (hW : Sub [.bull, .clk, .clu, .core, .free, .gh, .hbm, .hif, .out, .pmu, .regs, .scout, .seed, .time, .txHold, .ump] Ω) {core : Nat} {op : ValuOp} (h : Within Ω a s) : WithinOut Ω a (execVshiVsar core op s) := by
  unfold execVshiVsar
  repeat' first
    | with_reducible assumption
    | with_reducible apply vshi_within (hW.of (by decide))
    | with_reducible apply WithinOut.next

theorem execVshiVsrr_within (hW : Sub [.bull, .clk, .clu, .core, .free, .gh, .hbm, .hif, .out, .pmu, .regs, .scout, .seed, .time, .txHold, .ump] Ω) {core : Nat} {op : ValuOp} (h : Within Ω a s) : WithinOut Ω a (execVshiVsrr core op s) := by
  unfold execVshiVsrr
  repeat' first
    | with_reducible assumption
    | with_reducible apply vshi_within (hW.of (by decide))
    | with_reducible apply WithinOut.next

theorem finishA_within (hW : Sub [.core, .hif, .out, .pmu, .regs] Ω) {k d : Nat} {outs : List (Nat × AOut)} (h : Within Ω a s) : (finishA k d outs s).Ins Ω a :=
  writeBack_within (hW.of (by decide)) h fun c hc => (foldl_ram (fun c (o : Nat × AOut) => ((c.stick (satBit o.1 o.2.sat)).stick (govBit o.1 o.2.gov)).setA d o.1 ⟨o.2.v, o.2.p % 7⟩) (fun _ _ => rfl) outs c).symm ▸ hc

theorem macc_within (hW : Sub [.bull, .clk, .clu, .core, .free, .gh, .hbm, .hif, .out, .pmu, .regs, .scout, .seed, .time, .txHold, .ump] Ω) {f : MFn} {opc : Nat} {k : Nat} {op : MacOp} (h : Within Ω a s) : Within Ω a (macc f opc k op s) := by
  unfold macc
  extract_lets v1
  clear_value v1
  repeat' first
    | with_reducible assumption
    | with_reducible apply pmuEvent_within (hW.of (by decide))
    | with_reducible apply issue_within (hW.of (by decide))
    | with_reducible apply finishA_within (hW.of (by decide))
    | with_reducible apply WithinOpt.getD
    | extract_lets
    | dsimp only
    | intro t ht

theorem execMpy_within (hW : Sub [.bull, .clk, .clu, .core, .free, .gh, .hbm, .hif, .out, .pmu, .regs, .scout, .seed, .time, .txHold, .ump] Ω) {core : Nat} {op : MacOp} (h : Within Ω a s) : WithinOut Ω a (execMpy core op s) := by
  unfold execMpy
  repeat' first
    | with_reducible assumption
    | with_reducible apply macc_within (hW.of (by decide))
    | with_reducible apply WithinOut.next

theorem execMac_within (hW : Sub [.bull, .clk, .clu, .core, .free, .gh, .hbm, .hif, .out, .pmu, .regs, .scout, .seed, .time, .txHold, .ump] Ω) {core : Nat} {op : MacOp} (h : Within Ω a s) : WithinOut Ω a (execMac core op s) := by
  unfold execMac
  repeat' first
    | with_reducible assumption
    | with_reducible apply macc_within (hW.of (by decide))
    | with_reducible apply WithinOut.next

theorem execMsu_within (hW : Sub [.bull, .clk, .clu, .core, .free, .gh, .hbm, .hif, .out, .pmu, .regs, .scout, .seed, .time, .txHold, .ump] Ω) {core : Nat} {op : MacOp} (h : Within Ω a s) : WithinOut Ω a (execMsu core op s) := by
  unfold execMsu
  repeat' first
    | with_reducible assumption
    | with_reducible apply macc_within (hW.of (by decide))
    | with_reducible apply WithinOut.next

theorem execAdep_within (hW : Sub [.bull, .clk, .clu, .core, .free, .gh, .hbm, .hif, .out, .pmu, .regs, .scout, .seed, .time, .txHold, .ump] Ω) {core : Nat} {sat : Bool} {q : Bool} {d : Nat} {x : Nat} (h : Within Ω a s) : WithinOut Ω a (execAdep core sat q d x s) := by
  unfold execAdep
  repeat' first
    | with_reducible assumption
    | with_reducible apply issue_within (hW.of (by decide))
    | with_reducible apply finishA_within (hW.of (by decide))
    | with_reducible apply WithinOut.next
    | dsimp only
    | intro t ht

theorem execAadd_within (hW : Sub [.bull, .clk, .clu, .core, .free, .gh, .hbm, .hif, .out, .pmu, .regs, .scout, .seed, .time, .txHold, .ump] Ω) {core : Nat} {op : AopOp} (h : Within Ω a s) : WithinOut Ω a (execAadd core op s) := by
  unfold execAadd
  repeat' first
    | with_reducible assumption
    | with_reducible apply issue_within (hW.of (by decide))
    | with_reducible apply finishA_within (hW.of (by decide))
    | with_reducible apply WithinOut.next
    | dsimp only
    | intro t ht

theorem execAsub_within (hW : Sub [.bull, .clk, .clu, .core, .free, .gh, .hbm, .hif, .out, .pmu, .regs, .scout, .seed, .time, .txHold, .ump] Ω) {core : Nat} {op : AopOp} (h : Within Ω a s) : WithinOut Ω a (execAsub core op s) := by
  unfold execAsub
  repeat' first
    | with_reducible assumption
    | with_reducible apply issue_within (hW.of (by decide))
    | with_reducible apply finishA_within (hW.of (by decide))
    | with_reducible apply WithinOut.next
    | dsimp only
    | intro t ht

theorem execAmov_within (hW : Sub [.bull, .clk, .clu, .core, .free, .gh, .hbm, .hif, .out, .pmu, .regs, .scout, .seed, .time, .txHold, .ump] Ω) {core : Nat} {q : Bool} {d : Nat} {x : Nat} (h : Within Ω a s) : WithinOut Ω a (execAmov core q d x s) := by
  unfold execAmov
  repeat' first
    | with_reducible assumption
    | with_reducible apply issue_within (hW.of (by decide))
    | with_reducible apply finishA_within (hW.of (by decide))
    | with_reducible apply WithinOut.next
    | extract_lets
    | dsimp only
    | intro t ht

theorem execAclr_within (hW : Sub [.bull, .clk, .clu, .core, .free, .gh, .hbm, .hif, .out, .pmu, .regs, .scout, .seed, .time, .txHold, .ump] Ω) {core : Nat} {q : Bool} {d : Nat} (h : Within Ω a s) : WithinOut Ω a (execAclr core q d s) := by
  unfold execAclr
  repeat' first
    | with_reducible assumption
    | with_reducible apply issue_within (hW.of (by decide))
    | with_reducible apply finishA_within (hW.of (by decide))
    | with_reducible apply WithinOut.next
    | dsimp only
    | intro t ht

theorem execAget_within (hW : Sub [.bull, .clk, .clu, .core, .free, .gh, .hbm, .hif, .out, .pmu, .regs, .scout, .seed, .time, .txHold, .ump] Ω) {core : Nat} {d : Nat} {x : Nat} {lane : Nat} {high : Bool} (h : Within Ω a s) : WithinOut Ω a (execAget core d x lane high s) := by
  unfold execAget
  repeat' first
    | with_reducible assumption
    | with_reducible apply issue_within (hW.of (by decide))
    | with_reducible apply finishS_within (hW.of (by decide))
    | with_reducible refine Within.ite (fun _ => ?_) (fun _ => ?_)
    | with_reducible apply WithinOut.next
    | extract_lets
    | split
    | dsimp only
    | intro t ht

theorem execAput_within (hW : Sub [.bull, .clk, .clu, .core, .free, .gh, .hbm, .hif, .out, .pmu, .regs, .scout, .seed, .time, .txHold, .ump] Ω) {core : Nat} {d : Nat} {x : Nat} {y : Nat} {lane : Nat} (h : Within Ω a s) : WithinOut Ω a (execAput core d x y lane s) := by
  unfold execAput
  repeat' first
    | with_reducible assumption
    | with_reducible apply issue_within (hW.of (by decide))
    | with_reducible apply finishA_within (hW.of (by decide))
    | with_reducible apply WithinOut.next
    | extract_lets
    | dsimp only
    | intro t ht

theorem execExt_within (hW : Sub [.bull, .clk, .clu, .core, .free, .gh, .hbm, .hif, .out, .pmu, .regs, .scout, .seed, .time, .txHold, .ump] Ω) {core : Nat} {sat : Bool} {q : Bool} {d : Nat} {x : Nat} {sh : Int} {q15 : Bool} {toS : Bool} (h : Within Ω a s) : WithinOut Ω a (execExt core sat q d x sh q15 toS s) := by
  unfold execExt
  repeat' first
    | with_reducible assumption
    | with_reducible apply issue_within (hW.of (by decide))
    | with_reducible apply finishS_within (hW.of (by decide))
    | with_reducible apply finishV_within (hW.of (by decide))
    | with_reducible refine Within.ite (fun _ => ?_) (fun _ => ?_)
    | with_reducible apply WithinOut.next
    | split
    | dsimp only
    | intro t ht

theorem execAsr_within (hW : Sub [.bull, .clk, .clu, .core, .free, .gh, .hbm, .hif, .out, .pmu, .regs, .scout, .seed, .time, .txHold, .ump] Ω) {core : Nat} {q : Bool} {d : Nat} {x : Nat} {cnt : Nat} (h : Within Ω a s) : WithinOut Ω a (execAsr core q d x cnt s) := by
  unfold execAsr
  repeat' first
    | with_reducible assumption
    | with_reducible apply issue_within (hW.of (by decide))
    | with_reducible apply finishA_within (hW.of (by decide))
    | with_reducible apply WithinOut.next
    | dsimp only
    | intro t ht

theorem execAsrr_within (hW : Sub [.bull, .clk, .clu, .core, .free, .gh, .hbm, .hif, .out, .pmu, .regs, .scout, .seed, .time, .txHold, .ump] Ω) {core : Nat} {q : Bool} {d : Nat} {x : Nat} {cnt : Nat} (h : Within Ω a s) : WithinOut Ω a (execAsrr core q d x cnt s) := by
  unfold execAsrr
  repeat' first
    | with_reducible assumption
    | with_reducible apply issue_within (hW.of (by decide))
    | with_reducible apply finishA_within (hW.of (by decide))
    | with_reducible apply WithinOut.next
    | dsimp only
    | intro t ht

theorem execAsl_within (hW : Sub [.bull, .clk, .clu, .core, .free, .gh, .hbm, .hif, .out, .pmu, .regs, .scout, .seed, .time, .txHold, .ump] Ω) {core : Nat} {sat : Bool} {q : Bool} {d : Nat} {x : Nat} {cnt : Nat} (h : Within Ω a s) : WithinOut Ω a (execAsl core sat q d x cnt s) := by
  unfold execAsl
  repeat' first
    | with_reducible assumption
    | with_reducible apply issue_within (hW.of (by decide))
    | with_reducible apply finishA_within (hW.of (by decide))
    | with_reducible apply WithinOut.next
    | dsimp only
    | intro t ht

theorem flipLocal_within (hW : Sub [.core] Ω) {k b : Nat} {m : Byte} (h : Within Ω a s) : Within Ω a (flipLocal k b m s) :=
  Within.updCore (hW.of (by decide)) h fun _ hc => lramPut_wf hc b _

theorem spoilLocal_within (hW : Sub [.core] Ω) {k : Nat} {a' : Nat} (h : Within Ω a s) : Within Ω a (spoilLocal k a' s) := by
  unfold spoilLocal
  repeat' first
    | with_reducible assumption
    | with_reducible apply Within.updCore (hW.of (by decide))
    | exact fun _ hc => hc

theorem readLocal_within (hW : Sub [.core, .free, .hbm, .hif, .out, .pmu, .regs, .ump] Ω) {k b size : Nat} (h : Within Ω a s) :
    (∀ bs t, readLocal k b size s = .inl (bs, t) → Within Ω a t) ∧ ∀ x t, readLocal k b size s = .inr (x, t) → Within Ω a t := by
  unfold readLocal
  extract_lets k0 k1 s1 node s2 s3
  have h1 : Within Ω a s1 := Within.ite (fun _ => State.setFld_within (hW.of (by decide)) h) (fun _ => h)
  have h2 : Within Ω a s2 := Within.ite (fun _ => spoilLocal_within (hW.of (by decide)) (flipLocal_within (hW.of (by decide)) h1)) (fun _ => h1)
  have h3 : Within Ω a s3 := Within.ite (fun _ => Within.ite (fun _ => pmuEvent_within (hW.of (by decide)) (umpEvent_within (hW.of (by decide)) h2)) (fun _ => flipLocal_within (hW.of (by decide)) h2)) (fun _ => h2)
  clear_value s3
  constructor
  · intro bs t e
    split at e
    · cases e
    · exact localLoad_within_pair (hW.of (by decide)) (Sum.inl.inj e) h3
  · intro x t e
    split at e
    · cases e; exact h3
    · cases e

theorem readLocal_within_ok (hW : Sub [.core, .free, .hbm, .hif, .out, .pmu, .regs, .ump] Ω) {k b size : Nat} {bs : List Byte} {t : State} (e : readLocal k b size s = .inl (bs, t)) (h : Within Ω a s) : Within Ω a t :=
  (readLocal_within (hW.of (by decide)) h).1 bs t e

theorem readLocal_within_exc (hW : Sub [.core, .free, .hbm, .hif, .out, .pmu, .regs, .ump] Ω) {k b size : Nat} {x : Exc} {t : State} (e : readLocal k b size s = .inr (x, t)) (h : Within Ω a s) : Within Ω a t :=
  (readLocal_within (hW.of (by decide)) h).2 x t e

theorem readShared_within (hW : Sub [.free, .hif, .out, .pmu, .regs] Ω) {k b size : Nat} (h : Within Ω a s) :
    (∀ bs t, readShared k b size s = .inl (bs, t) → Within Ω a t) ∧ ∀ x t, readShared k b size s = .inr (x, t) → Within Ω a t := by
  unfold readShared
  constructor
  · intro bs t e
    split at e
    · cases e
    · cases e; exact pmuEvent_within (hW.of (by decide)) (State.draw_within (hW.of (by decide)) h)
  · intro x t e
    split at e
    · cases e; exact h
    · cases e

theorem readShared_within_ok (hW : Sub [.free, .hif, .out, .pmu, .regs] Ω) {k b size : Nat} {bs : List Byte} {t : State} (e : readShared k b size s = .inl (bs, t)) (h : Within Ω a s) : Within Ω a t :=
  (readShared_within (hW.of (by decide)) h).1 bs t e

theorem readShared_within_exc (hW : Sub [.free, .hif, .out, .pmu, .regs] Ω) {k b size : Nat} {x : Exc} {t : State} (e : readShared k b size s = .inr (x, t)) (h : Within Ω a s) : Within Ω a t :=
  (readShared_within (hW.of (by decide)) h).2 x t e

theorem readData_within (hW : Sub [.core, .free, .hbm, .hif, .out, .pmu, .regs, .ump] Ω) {k b size : Nat} {r : Region} (h : Within Ω a s) :
    (∀ bs t, readData k r b size s = .inl (bs, t) → Within Ω a t) ∧ ∀ x t, readData k r b size s = .inr (x, t) → Within Ω a t := by
  unfold readData
  cases r
  · exact readLocal_within (hW.of (by decide)) h
  · exact readShared_within (hW.of (by decide)) h

theorem readData_within_ok (hW : Sub [.core, .free, .hbm, .hif, .out, .pmu, .regs, .ump] Ω) {k b size : Nat} {r : Region} {bs : List Byte} {t : State} (e : readData k r b size s = .inl (bs, t)) (h : Within Ω a s) : Within Ω a t :=
  (readData_within (hW.of (by decide)) h).1 bs t e

theorem readData_within_exc (hW : Sub [.core, .free, .hbm, .hif, .out, .pmu, .regs, .ump] Ω) {k b size : Nat} {r : Region} {x : Exc} {t : State} (e : readData k r b size s = .inr (x, t)) (h : Within Ω a s) : Within Ω a t :=
  (readData_within (hW.of (by decide)) h).2 x t e

theorem writeData_within (hW : Sub [.clu, .core, .free, .hif, .out, .pmu, .regs] Ω) {k : Nat} {r : Region} {a' : Nat} {bs : List Byte} (h : Within Ω a s) : Within Ω a (writeData k r a' bs s) := by
  unfold writeData
  repeat' first
    | with_reducible assumption
    | with_reducible apply State.draw_within (hW.of (by decide))
    | refine State.draw_within_pair (hW.of (by decide)) (by assumption) ?_
    | with_reducible apply pmuEvent_within (hW.of (by decide))
    | with_reducible apply localStore_within (hW.of (by decide))
    | with_reducible apply sharedStore_within (hW.of (by decide))
    | with_reducible apply Within.updCore (hW.of (by decide))
    | with_reducible apply Within.updClu (hW.of (by decide))
    | exact fun _ hc => hc
    | extract_lets
    | split

theorem checkAddr_within (hW : Sub [] Ω) {k size : Nat} {x : Addr} {go : Region → CoreRes} (h : Within Ω a s) (hg : ∀ r, (go r).Ins Ω a) :
    (checkAddr k size x s go).Ins Ω a := by
  unfold checkAddr
  split
  · exact excAt_within (hW.of (by decide)) h
  · split
    · exact excAt_within (hW.of (by decide)) h
    · exact hg _

theorem load_within (hW : Sub [.bull, .clk, .clu, .core, .free, .gh, .hbm, .hif, .out, .pmu, .regs, .scout, .seed, .time, .txHold, .ump] Ω) {opc size : Nat} {dOk : Bool} {put : List Byte → Core → Core} {k : Nat} {m : MemOp} (h : Within Ω a s)
    (hp : ∀ bs c, (put bs c).ram = c.ram) : Within Ω a (load opc size dOk put k m s) := by
  unfold load
  refine issue_within (hW.of (by decide)) h fun t ht => checkAddr_within (hW.of (by decide)) ht fun r => ?_
  split
  · next e => exact readData_within_exc (hW.of (by decide)) e ht
  · next e =>
    refine pmuEvent_within (hW.of (by decide)) (pmuEvent_within (hW.of (by decide)) (Within.updCore (hW.of (by decide)) (readData_within_ok (hW.of (by decide)) e ht) fun c hc => ?_))
    rw [hp, addrDone_ram]; exact hc

theorem store_within (hW : Sub [.bull, .clk, .clu, .core, .free, .gh, .hbm, .hif, .out, .pmu, .regs, .scout, .seed, .time, .txHold, .ump] Ω) {opc size : Nat} {dOk : Bool} {data : Core → List Byte × Bool} {k : Nat} {m : MemOp} (h : Within Ω a s) :
    Within Ω a (store opc size dOk data k m s) := by
  unfold store
  refine issue_within (hW.of (by decide)) h fun t ht => checkAddr_within (hW.of (by decide)) ht fun r => ?_
  dsimp only
  split
  · exact excResidue_within (hW.of (by decide)) ht
  · exact pmuEvent_within (hW.of (by decide)) (pmuEvent_within (hW.of (by decide)) (writeData_within (hW.of (by decide)) (Within.updCore (hW.of (by decide)) ht fun c hc => by rw [addrDone_ram]; exact hc)))

theorem execLdb_within (hW : Sub [.bull, .clk, .clu, .core, .free, .gh, .hbm, .hif, .out, .pmu, .regs, .scout, .seed, .time, .txHold, .ump] Ω) {core : Nat} {d : Nat} {a' : MemOp} (h : Within Ω a s) : WithinOut Ω a (execLdb core d a' s) := by
  unfold execLdb
  repeat' first
    | with_reducible assumption
    | with_reducible refine load_within (hW.of (by decide)) ?_ (fun bs c => by simp)
    | with_reducible apply WithinOut.next

theorem execLdbu_within (hW : Sub [.bull, .clk, .clu, .core, .free, .gh, .hbm, .hif, .out, .pmu, .regs, .scout, .seed, .time, .txHold, .ump] Ω) {core : Nat} {d : Nat} {a' : MemOp} (h : Within Ω a s) : WithinOut Ω a (execLdbu core d a' s) := by
  unfold execLdbu
  repeat' first
    | with_reducible assumption
    | with_reducible refine load_within (hW.of (by decide)) ?_ (fun bs c => by simp)
    | with_reducible apply WithinOut.next

theorem execLdh_within (hW : Sub [.bull, .clk, .clu, .core, .free, .gh, .hbm, .hif, .out, .pmu, .regs, .scout, .seed, .time, .txHold, .ump] Ω) {core : Nat} {d : Nat} {a' : MemOp} (h : Within Ω a s) : WithinOut Ω a (execLdh core d a' s) := by
  unfold execLdh
  repeat' first
    | with_reducible assumption
    | with_reducible refine load_within (hW.of (by decide)) ?_ (fun bs c => by simp)
    | with_reducible apply WithinOut.next

theorem execLdhu_within (hW : Sub [.bull, .clk, .clu, .core, .free, .gh, .hbm, .hif, .out, .pmu, .regs, .scout, .seed, .time, .txHold, .ump] Ω) {core : Nat} {d : Nat} {a' : MemOp} (h : Within Ω a s) : WithinOut Ω a (execLdhu core d a' s) := by
  unfold execLdhu
  repeat' first
    | with_reducible assumption
    | with_reducible refine load_within (hW.of (by decide)) ?_ (fun bs c => by simp)
    | with_reducible apply WithinOut.next

theorem execLdw_within (hW : Sub [.bull, .clk, .clu, .core, .free, .gh, .hbm, .hif, .out, .pmu, .regs, .scout, .seed, .time, .txHold, .ump] Ω) {core : Nat} {d : Nat} {a' : MemOp} (h : Within Ω a s) : WithinOut Ω a (execLdw core d a' s) := by
  unfold execLdw
  repeat' first
    | with_reducible assumption
    | with_reducible refine load_within (hW.of (by decide)) ?_ (fun bs c => by simp)
    | with_reducible apply WithinOut.next

theorem execStb_within (hW : Sub [.bull, .clk, .clu, .core, .free, .gh, .hbm, .hif, .out, .pmu, .regs, .scout, .seed, .time, .txHold, .ump] Ω) {core : Nat} {d : Nat} {a' : MemOp} (h : Within Ω a s) : WithinOut Ω a (execStb core d a' s) := by
  unfold execStb
  repeat' first
    | with_reducible assumption
    | with_reducible apply store_within (hW.of (by decide))
    | with_reducible apply WithinOut.next

theorem execSth_within (hW : Sub [.bull, .clk, .clu, .core, .free, .gh, .hbm, .hif, .out, .pmu, .regs, .scout, .seed, .time, .txHold, .ump] Ω) {core : Nat} {d : Nat} {a' : MemOp} (h : Within Ω a s) : WithinOut Ω a (execSth core d a' s) := by
  unfold execSth
  repeat' first
    | with_reducible assumption
    | with_reducible apply store_within (hW.of (by decide))
    | with_reducible apply WithinOut.next

theorem execStw_within (hW : Sub [.bull, .clk, .clu, .core, .free, .gh, .hbm, .hif, .out, .pmu, .regs, .scout, .seed, .time, .txHold, .ump] Ω) {core : Nat} {d : Nat} {a' : MemOp} (h : Within Ω a s) : WithinOut Ω a (execStw core d a' s) := by
  unfold execStw
  repeat' first
    | with_reducible assumption
    | with_reducible apply store_within (hW.of (by decide))
    | with_reducible apply WithinOut.next

theorem execLdwv_within (hW : Sub [.bull, .clk, .clu, .core, .free, .gh, .hbm, .hif, .out, .pmu, .regs, .scout, .seed, .time, .txHold, .ump] Ω) {core : Nat} {d : Nat} {a' : MemOp} (h : Within Ω a s) : WithinOut Ω a (execLdwv core d a' s) := by
  unfold execLdwv
  repeat' first
    | with_reducible assumption
    | with_reducible refine load_within (hW.of (by decide)) ?_ (fun bs c => by simp)
    | with_reducible apply WithinOut.next

theorem execStwv_within (hW : Sub [.bull, .clk, .clu, .core, .free, .gh, .hbm, .hif, .out, .pmu, .regs, .scout, .seed, .time, .txHold, .ump] Ω) {core : Nat} {d : Nat} {a' : MemOp} (h : Within Ω a s) : WithinOut Ω a (execStwv core d a' s) := by
  unfold execStwv
  repeat' first
    | with_reducible assumption
    | with_reducible apply store_within (hW.of (by decide))
    | with_reducible apply WithinOut.next

theorem execLdv_within (hW : Sub [.bull, .clk, .clu, .core, .free, .gh, .hbm, .hif, .out, .pmu, .regs, .scout, .seed, .time, .txHold, .ump] Ω) {core : Nat} {d : Nat} {a' : MemOp} (h : Within Ω a s) : WithinOut Ω a (execLdv core d a' s) := by
  unfold execLdv
  repeat' first
    | with_reducible assumption
    | with_reducible refine load_within (hW.of (by decide)) ?_ (fun bs c => by simp)
    | with_reducible apply WithinOut.next

theorem execStv_within (hW : Sub [.bull, .clk, .clu, .core, .free, .gh, .hbm, .hif, .out, .pmu, .regs, .scout, .seed, .time, .txHold, .ump] Ω) {core : Nat} {d : Nat} {a' : MemOp} (h : Within Ω a s) : WithinOut Ω a (execStv core d a' s) := by
  unfold execStv
  repeat' first
    | with_reducible assumption
    | with_reducible apply store_within (hW.of (by decide))
    | with_reducible apply WithinOut.next

theorem execLdpn_within (hW : Sub [.bull, .clk, .clu, .core, .free, .gh, .hbm, .hif, .out, .pmu, .regs, .scout, .seed, .time, .txHold, .ump] Ω) {core : Nat} {d : Nat} {a' : MemOp} (h : Within Ω a s) : WithinOut Ω a (execLdpn core d a' s) := by
  unfold execLdpn
  repeat' first
    | with_reducible assumption
    | with_reducible refine load_within (hW.of (by decide)) ?_ (fun bs c => by simp)
    | with_reducible apply WithinOut.next

theorem execStpn_within (hW : Sub [.bull, .clk, .clu, .core, .free, .gh, .hbm, .hif, .out, .pmu, .regs, .scout, .seed, .time, .txHold, .ump] Ω) {core : Nat} {d : Nat} {a' : MemOp} (h : Within Ω a s) : WithinOut Ω a (execStpn core d a' s) := by
  unfold execStpn
  repeat' first
    | with_reducible assumption
    | with_reducible apply store_within (hW.of (by decide))
    | with_reducible apply WithinOut.next

theorem execLdbl_within (hW : Sub [.bull, .clk, .clu, .core, .free, .gh, .hbm, .hif, .out, .pmu, .regs, .scout, .seed, .time, .txHold, .ump] Ω) {core : Nat} {d : Nat} {a' : MemOp} (h : Within Ω a s) : WithinOut Ω a (execLdbl core d a' s) := by
  unfold execLdbl
  repeat' first
    | with_reducible assumption
    | with_reducible refine load_within (hW.of (by decide)) ?_ (fun bs c => by simp)
    | with_reducible apply WithinOut.next

theorem execStbl_within (hW : Sub [.bull, .clk, .clu, .core, .free, .gh, .hbm, .hif, .out, .pmu, .regs, .scout, .seed, .time, .txHold, .ump] Ω) {core : Nat} {d : Nat} {a' : MemOp} (h : Within Ω a s) : WithinOut Ω a (execStbl core d a' s) := by
  unfold execStbl
  repeat' first
    | with_reducible assumption
    | with_reducible apply store_within (hW.of (by decide))
    | with_reducible apply WithinOut.next

theorem dualLoad_within (hW : Sub [.bull, .clk, .clu, .core, .free, .gh, .hbm, .hif, .out, .pmu, .regs, .scout, .seed, .time, .txHold, .ump] Ω) {opc size : Nat} {put : Nat → List Byte → Core → Core} {k d1 : Nat} {m1 : DualOp} {d2 : Nat} {m2 : DualOp} (h : Within Ω a s)
    (hp : ∀ d bs c, (put d bs c).ram = c.ram) : Within Ω a (dualLoad opc size put k d1 m1 d2 m2 s) := by
  unfold dualLoad
  refine issue_within (hW.of (by decide)) h fun t ht => ?_
  dsimp only
  split
  · exact excAt_within (hW.of (by decide)) ht
  split
  · exact excAt_within (hW.of (by decide)) ht
  split
  · next e => exact readLocal_within_exc (hW.of (by decide)) e ht
  next e =>
  split
  · next e' => exact readLocal_within_exc (hW.of (by decide)) e' (readLocal_within_ok (hW.of (by decide)) e ht)
  next e' =>
  refine pmuEvent_within (hW.of (by decide)) (pmuEvent_within (hW.of (by decide)) (pmuEvent_within (hW.of (by decide)) (Within.updCore (hW.of (by decide)) (readLocal_within_ok (hW.of (by decide)) e' (readLocal_within_ok (hW.of (by decide)) e ht)) fun c hc => ?_)))
  rw [hp, hp, addrDone_ram, addrDone_ram]; exact hc

theorem execLddw_within (hW : Sub [.bull, .clk, .clu, .core, .free, .gh, .hbm, .hif, .out, .pmu, .regs, .scout, .seed, .time, .txHold, .ump] Ω) {core : Nat} {d1 : Nat} {a' : DualOp} {d2 : Nat} {b : DualOp} (h : Within Ω a s) : WithinOut Ω a (execLddw core d1 a' d2 b s) := by
  unfold execLddw
  repeat' first
    | with_reducible assumption
    | with_reducible refine dualLoad_within (hW.of (by decide)) ?_ (fun d bs c => by simp)
    | with_reducible apply WithinOut.next

theorem execLddv_within (hW : Sub [.bull, .clk, .clu, .core, .free, .gh, .hbm, .hif, .out, .pmu, .regs, .scout, .seed, .time, .txHold, .ump] Ω) {core : Nat} {d1 : Nat} {a' : DualOp} {d2 : Nat} {b : DualOp} (h : Within Ω a s) : WithinOut Ω a (execLddv core d1 a' d2 b s) := by
  unfold execLddv
  repeat' first
    | with_reducible assumption
    | with_reducible refine dualLoad_within (hW.of (by decide)) ?_ (fun d bs c => by simp)
    | with_reducible apply WithinOut.next

theorem execBra_within (hW : Sub [.bull, .clk, .clu, .core, .free, .gh, .hbm, .hif, .out, .pmu, .regs, .scout, .seed, .time, .txHold, .ump] Ω) {core : Nat} {offset : Int} (h : Within Ω a s) : WithinOut Ω a (execBra core offset s) := by
  unfold execBra
  repeat' first
    | with_reducible assumption
    | with_reducible apply pmuEvent_within (hW.of (by decide))
    | with_reducible apply issue_within (hW.of (by decide))
    | with_reducible apply CoreRes.within_jump
    | with_reducible apply WithinOut.next
    | dsimp only
    | intro t ht

theorem execCall_within (hW : Sub [.bull, .clk, .clu, .core, .free, .gh, .hbm, .hif, .out, .pmu, .regs, .scout, .seed, .time, .txHold, .ump] Ω) {core : Nat} {offset : Int} (h : Within Ω a s) : WithinOut Ω a (execCall core offset s) := by
  unfold execCall
  repeat' first
    | with_reducible assumption
    | with_reducible apply pmuEvent_within (hW.of (by decide))
    | with_reducible apply issue_within (hW.of (by decide))
    | with_reducible apply Within.updCore (hW.of (by decide))
    | with_reducible apply CoreRes.within_jump
    | with_reducible apply WithinOut.next
    | exact fun _ hc => hc
    | (intro c hc; first | exact hc | (simp; done) | (simpa using hc))
    | extract_lets
    | dsimp only
    | intro t ht

theorem execJr_within (hW : Sub [.bull, .clk, .clu, .core, .free, .gh, .hbm, .hif, .out, .pmu, .regs, .scout, .seed, .time, .txHold, .ump] Ω) {core : Nat} {link : Bool} {d : Nat} {x : Nat} (h : Within Ω a s) : WithinOut Ω a (execJr core link d x s) := by
  unfold execJr
  repeat' first
    | with_reducible assumption
    | with_reducible apply issue_within (hW.of (by decide))
    | with_reducible apply excResidue_within (hW.of (by decide))
    | with_reducible apply pmuEvent_within (hW.of (by decide))
    | with_reducible apply Within.updCore (hW.of (by decide))
    | with_reducible refine Within.ite (fun _ => ?_) (fun _ => ?_)
    | with_reducible refine Within.foldl ?_ (fun t x ht => ?_)
    | (intro c hc; first | exact hc | (simp; done) | (simpa using hc))
    | with_reducible apply WithinOut.next
    | with_reducible apply CoreRes.within_done
    | with_reducible apply CoreRes.within_stay
    | with_reducible apply CoreRes.within_jump
    | with_reducible apply CoreRes.within_skip
    | with_reducible apply CoreRes.within_exc
    | intro t ht
    | extract_lets
    | split
    | dsimp only

theorem execBcc_within (hW : Sub [.bull, .clk, .clu, .core, .free, .gh, .hbm, .hif, .out, .pmu, .regs, .scout, .seed, .time, .txHold, .ump] Ω) {core : Nat} {cond : Nat} {offset : Int} (h : Within Ω a s) : WithinOut Ω a (execBcc core cond offset s) := by
  unfold execBcc
  repeat' first
    | with_reducible assumption
    | with_reducible apply pmuEvent_within (hW.of (by decide))
    | with_reducible apply issue_within (hW.of (by decide))
    | with_reducible refine Within.ite (fun _ => ?_) (fun _ => ?_)
    | with_reducible apply CoreRes.within_done
    | with_reducible apply CoreRes.within_jump
    | with_reducible apply KciRes.within_done
    | with_reducible apply WithinOut.next
    | extract_lets
    | split
    | dsimp only
    | intro t ht

theorem startLoop_within (hW : Sub [.core] Ω) {k : Nat} {count : Nat} {body : Nat} (h : Within Ω a s) : (startLoop k count body s).Ins Ω a := by
  unfold startLoop
  extract_lets v1 v2
  clear_value v1 v2
  repeat' first
    | with_reducible assumption
    | with_reducible apply excAt_within (hW.of (by decide))
    | with_reducible apply Within.updCore (hW.of (by decide))
    | with_reducible refine Within.ite (fun _ => ?_) (fun _ => ?_)
    | with_reducible apply CoreRes.within_skip
    | exact fun _ hc => hc
    | extract_lets
    | split

theorem execLoopr_within (hW : Sub [.bull, .clk, .clu, .core, .free, .gh, .hbm, .hif, .out, .pmu, .regs, .scout, .seed, .time, .txHold, .ump] Ω) {core : Nat} {x : Nat} {body : Nat} (h : Within Ω a s) : WithinOut Ω a (execLoopr core x body s) := by
  unfold execLoopr
  repeat' first
    | with_reducible assumption
    | with_reducible apply issue_within (hW.of (by decide))
    | with_reducible apply excResidue_within (hW.of (by decide))
    | with_reducible apply startLoop_within (hW.of (by decide))
    | with_reducible refine Within.ite (fun _ => ?_) (fun _ => ?_)
    | with_reducible refine Within.foldl ?_ (fun t x ht => ?_)
    | (intro c hc; first | exact hc | (simp; done) | (simpa using hc))
    | with_reducible apply WithinOut.next
    | with_reducible apply CoreRes.within_done
    | with_reducible apply CoreRes.within_stay
    | with_reducible apply CoreRes.within_jump
    | with_reducible apply CoreRes.within_skip
    | with_reducible apply CoreRes.within_exc
    | intro t ht
    | extract_lets
    | split
    | dsimp only

theorem execLoopi_within (hW : Sub [.bull, .clk, .clu, .core, .free, .gh, .hbm, .hif, .out, .pmu, .regs, .scout, .seed, .time, .txHold, .ump] Ω) {core : Nat} {count : Nat} {body : Nat} (h : Within Ω a s) : WithinOut Ω a (execLoopi core count body s) := by
  unfold execLoopi
  repeat' first
    | with_reducible assumption
    | with_reducible apply issue_within (hW.of (by decide))
    | with_reducible apply startLoop_within (hW.of (by decide))
    | with_reducible apply WithinOut.next
    | dsimp only
    | intro t ht

theorem commitOp_within (hW : Sub [.flash, .flc, .free, .hbm, .hif, .mq, .out, .pmu, .regs, .seed, .ump] Ω) {node : Nat} {acct : Nat} {o : RunOp} (h : Within Ω a s) : Within Ω a (commitOp node acct o s) := by
  unfold commitOp
  repeat' first
    | with_reducible assumption
    | with_reducible apply seedOwn_within (hW.of (by decide))
    | with_reducible apply seedFault_within (hW.of (by decide))
    | with_reducible apply commitFree_within (hW.of (by decide))
    | with_reducible apply commitGive_within (hW.of (by decide))
    | with_reducible apply mqPush_within (hW.of (by decide))
    | with_reducible apply commitPop_within (hW.of (by decide))
    | with_reducible apply placeMark_within (hW.of (by decide))
    | with_reducible refine Within.ite (fun _ => ?_) (fun _ => ?_)
    | split

theorem endRun_within (hW : Sub [.bull, .cfg, .clk, .clu, .core, .gh, .graphs, .hbm, .hif, .kml, .mq, .out, .pmu, .regs, .seed, .time, .txHold, .ump] Ω) {k : Nat} (h : Within Ω a s) : Within Ω a (endRun k s) := by
  unfold endRun
  extract_lets v1 s1 s2 v2
  have h1 : Within Ω a s1 := by
    unfold s1
    repeat' first
      | with_reducible assumption
      | with_reducible apply State.updNode_within (hW.of (by decide))
      | with_reducible apply State.bump_within (hW.of (by decide))
      | with_reducible apply coreHome_within (hW.of (by decide))
      | with_reducible apply nodeDone_within (hW.of (by decide))
      | with_reducible refine Within.ite (fun _ => ?_) (fun _ => ?_)
      | with_reducible refine Within.foldl ?_ (fun t x ht => ?_)
      | (intro c hc; first | exact hc | (simp; done) | (simpa using hc))
      | extract_lets
      | split
      | dsimp only
      | ((with_reducible refine Within.mk_same rfl ?_ ?_); (intro p hn; cases p <;> first | rfl | exact absurd (hW.use (by decide)) hn))
  clear_value s1
  have h2 : Within Ω a s2 := by
    unfold s2
    repeat' first
      | with_reducible assumption
      | with_reducible apply State.updNode_within (hW.of (by decide))
      | with_reducible apply State.bump_within (hW.of (by decide))
      | with_reducible apply coreHome_within (hW.of (by decide))
      | with_reducible apply nodeDone_within (hW.of (by decide))
      | with_reducible refine Within.ite (fun _ => ?_) (fun _ => ?_)
      | with_reducible refine Within.foldl ?_ (fun t x ht => ?_)
      | (intro c hc; first | exact hc | (simp; done) | (simpa using hc))
      | extract_lets
      | split
      | dsimp only
      | ((with_reducible refine Within.mk_same rfl ?_ ?_); (intro p hn; cases p <;> first | rfl | exact absurd (hW.use (by decide)) hn))
  clear_value s2
  repeat' first
    | with_reducible assumption
    | with_reducible apply State.updNode_within (hW.of (by decide))
    | with_reducible apply State.bump_within (hW.of (by decide))
    | with_reducible apply coreHome_within (hW.of (by decide))
    | with_reducible apply nodeDone_within (hW.of (by decide))
    | with_reducible refine Within.ite (fun _ => ?_) (fun _ => ?_)
    | with_reducible refine Within.foldl ?_ (fun t x ht => ?_)
    | (intro c hc; first | exact hc | (simp; done) | (simpa using hc))
    | extract_lets
    | split
    | dsimp only
    | ((with_reducible refine Within.mk_same rfl ?_ ?_); (intro p hn; cases p <;> first | rfl | exact absurd (hW.use (by decide)) hn))

theorem commitRest_within (hW : Sub [.bull, .cfg, .clk, .clu, .core, .free, .gh, .graphs, .hbm, .hif, .kml, .mq, .out, .pmu, .regs, .seed, .time, .txHold, .ump] Ω) {k : Nat} {ops : List RunOp} (h : Within Ω a s) : Within Ω a (commitRest k ops s) := by
  unfold commitRest
  extract_lets v1
  clear_value v1
  repeat' first
    | with_reducible assumption
    | with_reducible apply commitBull_within (hW.of (by decide))
    | refine commitBull_within_pair (hW.of (by decide)) (by assumption) ?_
    | with_reducible apply endRun_within (hW.of (by decide))
    | with_reducible apply Within.updCore (hW.of (by decide))
    | with_reducible refine Within.ite (fun _ => ?_) (fun _ => ?_)
    | exact fun _ hc => hc

theorem issueDone_within (hW : Sub [.bull, .cfg, .clk, .clu, .core, .flash, .flc, .free, .gh, .graphs, .hbm, .hif, .kml, .mq, .out, .pmu, .regs, .scout, .seed, .time, .txHold, .ump] Ω) {k : Nat} {status : Nat} (h : Within Ω a s) : Within Ω a (issueDone k status s) := by
  unfold issueDone
  extract_lets v1 v2 v3 s1 s2 v4 s3 s4 s5
  have h1 : Within Ω a s1 := by
    unfold s1
    repeat' first
      | with_reducible assumption
      | with_reducible apply scoutRecord_within (hW.of (by decide))
      | with_reducible apply pmuEvent_within (hW.of (by decide))
      | with_reducible apply commitOp_within (hW.of (by decide))
      | with_reducible apply State.updNode_within (hW.of (by decide))
      | with_reducible apply writeBack_within (hW.of (by decide))
      | with_reducible apply commitRest_within (hW.of (by decide))
      | with_reducible apply Within.updCore (hW.of (by decide))
      | with_reducible refine Within.ite (fun _ => ?_) (fun _ => ?_)
      | with_reducible refine Within.foldl ?_ (fun t x ht => ?_)
      | (intro c hc; first | exact hc | (simp; done) | (simpa using hc))
      | extract_lets
      | split
      | dsimp only
      | ((with_reducible refine Within.mk_same rfl ?_ ?_); (intro p hn; cases p <;> first | rfl | exact absurd (hW.use (by decide)) hn))
  clear_value s1
  have h2 : Within Ω a s2 := by
    unfold s2
    repeat' first
      | with_reducible assumption
      | with_reducible apply scoutRecord_within (hW.of (by decide))
      | with_reducible apply pmuEvent_within (hW.of (by decide))
      | with_reducible apply commitOp_within (hW.of (by decide))
      | with_reducible apply State.updNode_within (hW.of (by decide))
      | with_reducible apply writeBack_within (hW.of (by decide))
      | with_reducible apply commitRest_within (hW.of (by decide))
      | with_reducible apply Within.updCore (hW.of (by decide))
      | with_reducible refine Within.ite (fun _ => ?_) (fun _ => ?_)
      | with_reducible refine Within.foldl ?_ (fun t x ht => ?_)
      | (intro c hc; first | exact hc | (simp; done) | (simpa using hc))
      | extract_lets
      | split
      | dsimp only
      | ((with_reducible refine Within.mk_same rfl ?_ ?_); (intro p hn; cases p <;> first | rfl | exact absurd (hW.use (by decide)) hn))
  clear_value s2
  have h3 : Within Ω a s3 := by
    unfold s3
    repeat' first
      | with_reducible assumption
      | with_reducible apply scoutRecord_within (hW.of (by decide))
      | with_reducible apply pmuEvent_within (hW.of (by decide))
      | with_reducible apply commitOp_within (hW.of (by decide))
      | with_reducible apply State.updNode_within (hW.of (by decide))
      | with_reducible apply writeBack_within (hW.of (by decide))
      | with_reducible apply commitRest_within (hW.of (by decide))
      | with_reducible apply Within.updCore (hW.of (by decide))
      | with_reducible refine Within.ite (fun _ => ?_) (fun _ => ?_)
      | with_reducible refine Within.foldl ?_ (fun t x ht => ?_)
      | (intro c hc; first | exact hc | (simp; done) | (simpa using hc))
      | extract_lets
      | split
      | dsimp only
      | ((with_reducible refine Within.mk_same rfl ?_ ?_); (intro p hn; cases p <;> first | rfl | exact absurd (hW.use (by decide)) hn))
  clear_value s3
  have h4 : Within Ω a s4 := by
    unfold s4
    repeat' first
      | with_reducible assumption
      | with_reducible apply scoutRecord_within (hW.of (by decide))
      | with_reducible apply pmuEvent_within (hW.of (by decide))
      | with_reducible apply commitOp_within (hW.of (by decide))
      | with_reducible apply State.updNode_within (hW.of (by decide))
      | with_reducible apply writeBack_within (hW.of (by decide))
      | with_reducible apply commitRest_within (hW.of (by decide))
      | with_reducible apply Within.updCore (hW.of (by decide))
      | with_reducible refine Within.ite (fun _ => ?_) (fun _ => ?_)
      | with_reducible refine Within.foldl ?_ (fun t x ht => ?_)
      | (intro c hc; first | exact hc | (simp; done) | (simpa using hc))
      | extract_lets
      | split
      | dsimp only
      | ((with_reducible refine Within.mk_same rfl ?_ ?_); (intro p hn; cases p <;> first | rfl | exact absurd (hW.use (by decide)) hn))
  clear_value s4
  have h5 : Within Ω a s5 := by
    unfold s5
    repeat' first
      | with_reducible assumption
      | with_reducible apply scoutRecord_within (hW.of (by decide))
      | with_reducible apply pmuEvent_within (hW.of (by decide))
      | with_reducible apply commitOp_within (hW.of (by decide))
      | with_reducible apply State.updNode_within (hW.of (by decide))
      | with_reducible apply writeBack_within (hW.of (by decide))
      | with_reducible apply commitRest_within (hW.of (by decide))
      | with_reducible apply Within.updCore (hW.of (by decide))
      | with_reducible refine Within.ite (fun _ => ?_) (fun _ => ?_)
      | with_reducible refine Within.foldl ?_ (fun t x ht => ?_)
      | (intro c hc; first | exact hc | (simp; done) | (simpa using hc))
      | extract_lets
      | split
      | dsimp only
      | ((with_reducible refine Within.mk_same rfl ?_ ?_); (intro p hn; cases p <;> first | rfl | exact absurd (hW.use (by decide)) hn))
  clear_value s5
  repeat' first
    | with_reducible assumption
    | with_reducible apply scoutRecord_within (hW.of (by decide))
    | with_reducible apply pmuEvent_within (hW.of (by decide))
    | with_reducible apply commitOp_within (hW.of (by decide))
    | with_reducible apply State.updNode_within (hW.of (by decide))
    | with_reducible apply writeBack_within (hW.of (by decide))
    | with_reducible apply commitRest_within (hW.of (by decide))
    | with_reducible apply Within.updCore (hW.of (by decide))
    | with_reducible refine Within.ite (fun _ => ?_) (fun _ => ?_)
    | with_reducible refine Within.foldl ?_ (fun t x ht => ?_)
    | (intro c hc; first | exact hc | (simp; done) | (simpa using hc))
    | extract_lets
    | split
    | dsimp only
    | ((with_reducible refine Within.mk_same rfl ?_ ?_); (intro p hn; cases p <;> first | rfl | exact absurd (hW.use (by decide)) hn))

theorem completeAt_within (hW : Sub [.core, .free, .hif, .out, .pmu, .regs, .scout] Ω) {k : Nat} {op : Nat} (h : Within Ω a s) : Within Ω a (completeAt k op s) := by
  unfold completeAt
  extract_lets v1 v2 s1
  clear_value v1 v2
  have h1 : Within Ω a s1 := by
    unfold s1
    repeat' first
      | with_reducible assumption
      | with_reducible apply pmuEvent_within (hW.of (by decide))
      | with_reducible apply scoutRecord_within (hW.of (by decide))
      | with_reducible apply Within.updCore (hW.of (by decide))
      | with_reducible refine Within.ite (fun _ => ?_) (fun _ => ?_)
      | exact fun _ hc => hc
  clear_value s1
  repeat' first
    | with_reducible assumption
    | with_reducible apply pmuEvent_within (hW.of (by decide))
    | with_reducible apply scoutRecord_within (hW.of (by decide))
    | with_reducible apply Within.updCore (hW.of (by decide))
    | with_reducible refine Within.ite (fun _ => ?_) (fun _ => ?_)

theorem startMove_within (hW : Sub [.core, .hif, .out, .pmu, .regs] Ω) {k : Nat} {m : Move} (h : Within Ω a s) : Within Ω a (startMove k m s) := by
  unfold startMove
  repeat' first
    | with_reducible assumption
    | with_reducible apply pmuEvent_within (hW.of (by decide))
    | with_reducible apply Within.updCore (hW.of (by decide))
    | exact fun _ hc => hc

theorem moveWord_within (hW : Sub [.free] Ω) {hit : Bool} {a' : Word} {b : Word} (h : Within Ω a s) : Within Ω a (moveWord hit a' b s).2 := by
  unfold moveWord
  repeat' first
    | with_reducible assumption
    | with_reducible apply State.draw_within (hW.of (by decide))
    | refine State.draw_within_pair (hW.of (by decide)) (by assumption) ?_
    | with_reducible refine Within.ite (fun _ => ?_) (fun _ => ?_)
    | extract_lets
    | split

theorem moveWord_within_pair (hW : Sub [.free] Ω) {hit : Bool} {a' : Word} {b : Word} {x0} {t} (e : moveWord hit a' b s = (x0, t)) (h : Within Ω a s) : Within Ω a t := by
  have := moveWord_within (hW.of (by decide)) (hit := hit) (a' := a') (b := b) h; rwa [e] at this

theorem landMove_within (hW : Sub [.core, .free, .hbm] Ω) {k : Nat} {m : Move} {i n : Nat} (h : Within Ω a s) : Within Ω a (landMove k m i n s) := by
  induction n generalizing i s with
  | zero => exact h
  | succ n ih =>
    unfold landMove
    dsimp only
    split
    · split
      · exact ih (bufWrite_within (hW.of (by decide)) (moveWord_within (hW.of (by decide)) h))
      · exact ih (bufWrite_within (hW.of (by decide)) h)
    · exact ih (Within.updCore (hW.of (by decide)) (moveWord_within (hW.of (by decide)) h) fun c hc => by rw [markDirty_ram]; exact lramPutAll_wf _ hc _)

theorem moveDone_within (hW : Sub [.bull, .cfg, .clk, .clu, .core, .flash, .flc, .free, .gh, .graphs, .hbm, .hif, .kml, .mq, .out, .pmu, .regs, .scout, .seed, .time, .txHold, .ump] Ω) {k : Nat} {m : Move} (h : Within Ω a s) : Within Ω a (moveDone k m s) := by
  unfold moveDone
  extract_lets s1 v1 s2 s3 s4 v2
  clear_value v1 v2
  have h1 : Within Ω a s1 := by
    unfold s1
    repeat' first
      | with_reducible assumption
      | with_reducible apply State.bump_within (hW.of (by decide))
      | with_reducible apply pmuEvent_within (hW.of (by decide))
      | with_reducible apply issueDone_within (hW.of (by decide))
      | with_reducible apply completeAt_within (hW.of (by decide))
      | with_reducible apply startMove_within (hW.of (by decide))
      | with_reducible apply landMove_within (hW.of (by decide))
  clear_value s1
  have h2 : Within Ω a s2 := by
    unfold s2
    repeat' first
      | with_reducible assumption
      | with_reducible apply State.bump_within (hW.of (by decide))
      | with_reducible apply pmuEvent_within (hW.of (by decide))
      | with_reducible apply issueDone_within (hW.of (by decide))
      | with_reducible apply completeAt_within (hW.of (by decide))
      | with_reducible apply startMove_within (hW.of (by decide))
      | with_reducible apply landMove_within (hW.of (by decide))
      | with_reducible apply Within.updCore (hW.of (by decide))
      | with_reducible refine Within.ite (fun _ => ?_) (fun _ => ?_)
      | with_reducible apply CoreRes.within_done
      | with_reducible apply KciRes.within_done
      | exact fun _ hc => hc
  clear_value s2
  have h3 : Within Ω a s3 := by
    unfold s3
    repeat' first
      | with_reducible assumption
      | with_reducible apply State.bump_within (hW.of (by decide))
  clear_value s3
  have h4 : Within Ω a s4 := by
    unfold s4
    repeat' first
      | with_reducible assumption
      | with_reducible apply State.bump_within (hW.of (by decide))
      | with_reducible apply pmuEvent_within (hW.of (by decide))
  clear_value s4
  repeat' first
    | with_reducible assumption
    | with_reducible apply State.bump_within (hW.of (by decide))
    | with_reducible apply pmuEvent_within (hW.of (by decide))
    | with_reducible apply issueDone_within (hW.of (by decide))
    | with_reducible apply completeAt_within (hW.of (by decide))
    | with_reducible apply startMove_within (hW.of (by decide))
    | with_reducible apply landMove_within (hW.of (by decide))
    | with_reducible apply Within.updCore (hW.of (by decide))
    | with_reducible refine Within.ite (fun _ => ?_) (fun _ => ?_)
    | with_reducible apply CoreRes.within_done
    | with_reducible apply KciRes.within_done
    | exact fun _ hc => hc
    | extract_lets
    | split

theorem undoRun_within (hW : Sub [.flash, .flc, .hbm, .hif, .mq, .out, .pmu, .regs, .seed, .ump] Ω) {r : RunRec} (h : Within Ω a s) : Within Ω a (undoRun r s) := by
  unfold undoRun
  extract_lets s1
  have h1 : Within Ω a s1 := by
    unfold s1
    repeat' first
      | with_reducible assumption
      | with_reducible apply undoAlloc_within (hW.of (by decide))
      | with_reducible apply restoreItems_within (hW.of (by decide))
      | with_reducible refine Within.foldl ?_ (fun t x ht => ?_)
  clear_value s1
  repeat' first
    | with_reducible assumption
    | with_reducible apply undoAlloc_within (hW.of (by decide))
    | with_reducible apply restoreItems_within (hW.of (by decide))
    | with_reducible refine Within.foldl ?_ (fun t x ht => ?_)
    | extract_lets
    | split

theorem abortDisarm_within (hW : Sub [.bull, .cfg, .clk, .clu, .core, .gh, .graphs, .hbm, .hif, .kml, .mq, .out, .pmu, .regs, .seed, .time, .txHold, .ump] Ω) {n : Nat} (h : Within Ω a s) : Within Ω a (abortDisarm n s) := by
  unfold abortDisarm
  extract_lets s1
  have h1 : Within Ω a s1 := by
    unfold s1
    repeat' first
      | with_reducible assumption
      | with_reducible apply State.updNode_within (hW.of (by decide))
      | with_reducible apply armNode_within (hW.of (by decide))
      | refine armNode_within_some (hW.of (by decide)) (by assumption) ?_
      | with_reducible apply disarm_within (hW.of (by decide))
  clear_value s1
  repeat' first
    | with_reducible assumption
    | with_reducible apply State.updNode_within (hW.of (by decide))
    | with_reducible apply armNode_within (hW.of (by decide))
    | refine armNode_within_some (hW.of (by decide)) (by assumption) ?_
    | with_reducible apply disarm_within (hW.of (by decide))
    | with_reducible refine Within.ite (fun _ => ?_) (fun _ => ?_)
    | with_reducible apply WithinOpt.getD
    | exact fun _ hc => hc
    | extract_lets
    | split

theorem enterRerun_within (hW : Sub [.bull, .cfg, .clk, .clu, .core, .gh, .graphs, .hbm, .hif, .kml, .mq, .out, .pmu, .regs, .seed, .time, .txHold, .ump] Ω) {n : Nat} (h : Within Ω a s) : Within Ω a (enterRerun n s) := by
  unfold enterRerun
  repeat' first
    | with_reducible assumption
    | with_reducible apply State.setNode_within (hW.of (by decide))
    | with_reducible apply enterReady_within (hW.of (by decide))
    | with_reducible apply abortDisarm_within (hW.of (by decide))
    | with_reducible refine Within.ite (fun _ => ?_) (fun _ => ?_)
    | split

theorem postAlts_within (hW : Sub [.bull, .clk, .clu, .gh, .hbm, .hif, .out, .pmu, .regs, .seed, .time, .txHold, .ump] Ω) {n : Nat} (h : Within Ω a s) : Within Ω a (postAlts n s) := by
  unfold postAlts
  repeat' first
    | with_reducible assumption
    | refine postNode_within_some (hW.of (by decide)) (by assumption) ?_
    | with_reducible apply postNode_within (hW.of (by decide))
    | with_reducible refine Within.ite (fun _ => ?_) (fun _ => ?_)
    | with_reducible refine Within.foldl ?_ (fun t x ht => ?_)
    | (intro c hc; first | exact hc | (simp; done) | (simpa using hc))
    | extract_lets
    | split
    | dsimp only
    | ((with_reducible refine Within.mk_same rfl ?_ ?_); (intro p hn; cases p <;> first | rfl | exact absurd (hW.use (by decide)) hn))

theorem abortEnd_within (hW : Sub [.bull, .cfg, .clk, .clu, .core, .gh, .graphs, .hbm, .hif, .kml, .mq, .out, .pmu, .regs, .seed, .time, .txHold, .ump] Ω) {n : Nat} (h : Within Ω a s) : Within Ω a (abortEnd n s) := by
  unfold abortEnd
  repeat' first
    | with_reducible assumption
    | with_reducible apply State.setNode_within (hW.of (by decide))
    | with_reducible apply State.bump_within (hW.of (by decide))
    | with_reducible apply enterRerun_within (hW.of (by decide))
    | with_reducible apply State.updNode_within (hW.of (by decide))
    | with_reducible apply postAlts_within (hW.of (by decide))
    | with_reducible apply abortDisarm_within (hW.of (by decide))
    | with_reducible refine Within.ite (fun _ => ?_) (fun _ => ?_)
    | with_reducible refine Within.foldl ?_ (fun t x ht => ?_)
    | (intro c hc; first | exact hc | (simp; done) | (simpa using hc))
    | extract_lets
    | split
    | dsimp only
    | ((with_reducible refine Within.mk_same rfl ?_ ?_); (intro p hn; cases p <;> first | rfl | exact absurd (hW.use (by decide)) hn))

theorem fabStatus_within (hW : Sub [.core] Ω) {k d code b : Nat} (h : Within Ω a s) : (fabStatus k d code b s).Ins Ω a :=
  Within.updCore (hW.of (by decide)) h fun c hc => by rw [Core.setS_ram]; exact hc

theorem fabric_within (hW : Sub [.bull, .clk, .clu, .core, .free, .gh, .hbm, .hif, .out, .pmu, .regs, .scout, .seed, .time, .txHold, .ump] Ω) {opc k : Nat} {wf : Bool} {xs : List Nat} {f : State → CoreRes} (h : Within Ω a s) (hf : ∀ t, Within Ω a t → (f t).Ins Ω a) :
    Within Ω a (fabric opc k wf xs f s) :=
  issue_within (hW.of (by decide)) h fun t ht => by
    split
    · exact excAt_within (hW.of (by decide)) ht
    · split
      · exact hf t ht
      · exact excResidue_within (hW.of (by decide)) ht

theorem record_within (hW : Sub [.core] Ω) {k : Nat} {f : RunRec → RunRec} (h : Within Ω a s) : Within Ω a (record k f s) := by
  unfold record
  repeat' first
    | with_reducible assumption
    | with_reducible apply Within.updCore (hW.of (by decide))
    | exact fun _ hc => hc

theorem addBull_within (hW : Sub [.core, .regs] Ω) {k : Nat} {o : RunOp} (h : Within Ω a s) : Within Ω a (addBull k o s).2 := by
  unfold addBull
  repeat' first
    | with_reducible assumption
    | with_reducible apply State.bump_within (hW.of (by decide))
    | with_reducible apply record_within (hW.of (by decide))
    | with_reducible refine Within.ite (fun _ => ?_) (fun _ => ?_)
    | with_reducible refine Within.foldl ?_ (fun t x ht => ?_)
    | (intro c hc; first | exact hc | (simp; done) | (simpa using hc))
    | extract_lets
    | split
    | dsimp only
    | ((with_reducible refine Within.mk_same rfl ?_ ?_); (intro p hn; cases p <;> first | rfl | exact absurd (hW.use (by decide)) hn))

theorem addBull_within_pair (hW : Sub [.core, .regs] Ω) {k : Nat} {o : RunOp} {y0} {t} (e : addBull k o s = (y0, t)) (h : Within Ω a s) : Within Ω a t := by
  have := addBull_within (hW.of (by decide)) (k := k) (o := o) h; rwa [e] at this

theorem addSeed_within (hW : Sub [.core, .regs] Ω) {k : Nat} {o : RunOp} (h : Within Ω a s) : Within Ω a (addSeed k o s).2 := by
  unfold addSeed
  repeat' first
    | with_reducible assumption
    | with_reducible apply State.bump_within (hW.of (by decide))
    | with_reducible apply record_within (hW.of (by decide))
    | with_reducible refine Within.ite (fun _ => ?_) (fun _ => ?_)
    | with_reducible refine Within.foldl ?_ (fun t x ht => ?_)
    | (intro c hc; first | exact hc | (simp; done) | (simpa using hc))
    | extract_lets
    | split
    | dsimp only
    | ((with_reducible refine Within.mk_same rfl ?_ ?_); (intro p hn; cases p <;> first | rfl | exact absurd (hW.use (by decide)) hn))

theorem addSeed_within_pair (hW : Sub [.core, .regs] Ω) {k : Nat} {o : RunOp} {y0} {t} (e : addSeed k o s = (y0, t)) (h : Within Ω a s) : Within Ω a t := by
  have := addSeed_within (hW.of (by decide)) (k := k) (o := o) h; rwa [e] at this

theorem recordBull_within (hW : Sub [.core, .regs] Ω) {k : Nat} {d : Nat} {o : RunOp} (h : Within Ω a s) : (recordBull k d o s).Ins Ω a := by
  unfold recordBull
  repeat' first
    | with_reducible assumption
    | refine addBull_within_pair (hW.of (by decide)) (by assumption) ?_
    | with_reducible apply addBull_within (hW.of (by decide))
    | with_reducible apply fabStatus_within (hW.of (by decide))
    | with_reducible refine Within.ite (fun _ => ?_) (fun _ => ?_)
    | with_reducible refine Within.foldl ?_ (fun t x ht => ?_)
    | (intro c hc; first | exact hc | (simp; done) | (simpa using hc))
    | with_reducible apply CoreRes.within_done
    | with_reducible apply CoreRes.within_stay
    | with_reducible apply CoreRes.within_jump
    | with_reducible apply CoreRes.within_skip
    | with_reducible apply CoreRes.within_exc
    | extract_lets
    | split
    | dsimp only

theorem recordSeed_within (hW : Sub [.core, .regs] Ω) {k : Nat} {d : Nat} {o : RunOp} (h : Within Ω a s) : (recordSeed k d o s).Ins Ω a := by
  unfold recordSeed
  repeat' first
    | with_reducible assumption
    | refine addSeed_within_pair (hW.of (by decide)) (by assumption) ?_
    | with_reducible apply addSeed_within (hW.of (by decide))
    | with_reducible apply fabStatus_within (hW.of (by decide))
    | with_reducible refine Within.ite (fun _ => ?_) (fun _ => ?_)
    | with_reducible refine Within.foldl ?_ (fun t x ht => ?_)
    | (intro c hc; first | exact hc | (simp; done) | (simpa using hc))
    | with_reducible apply CoreRes.within_done
    | with_reducible apply CoreRes.within_stay
    | with_reducible apply CoreRes.within_jump
    | with_reducible apply CoreRes.within_skip
    | with_reducible apply CoreRes.within_exc
    | extract_lets
    | split
    | dsimp only

theorem execGetw_within (hW : Sub [.bull, .clk, .clu, .core, .free, .gh, .hbm, .hif, .out, .pmu, .regs, .scout, .seed, .time, .txHold, .ump] Ω) {core : Nat} {mask : Nat} (h : Within Ω a s) : WithinOut Ω a (execGetw core mask s) := by
  unfold execGetw
  repeat' first
    | with_reducible assumption
    | with_reducible apply tryIdle_within (hW.of (by decide))
    | with_reducible apply issue_within (hW.of (by decide))
    | with_reducible apply excAt_within (hW.of (by decide))
    | with_reducible apply Within.updCore (hW.of (by decide))
    | with_reducible refine Within.ite (fun _ => ?_) (fun _ => ?_)
    | with_reducible apply CoreRes.within_done
    | with_reducible apply CoreRes.within_stay
    | with_reducible apply KciRes.within_done
    | with_reducible apply WithinOut.next
    | exact fun _ hc => hc
    | split
    | dsimp only
    | intro t ht

theorem execDone_within (hW : Sub [.bull, .cfg, .clk, .clu, .core, .flash, .flc, .free, .gh, .graphs, .hbm, .hif, .kml, .mq, .out, .pmu, .regs, .scout, .seed, .time, .txHold, .ump] Ω) {core : Nat} {status : Nat} {fromReg : Option Nat} (h : Within Ω a s) : WithinOut Ω a (execDone core status fromReg s) := by
  unfold execDone
  repeat' first
    | with_reducible assumption
    | with_reducible apply issue_within (hW.of (by decide))
    | with_reducible apply excResidue_within (hW.of (by decide))
    | with_reducible apply issueDone_within (hW.of (by decide))
    | with_reducible apply Within.updCore (hW.of (by decide))
    | with_reducible refine Within.ite (fun _ => ?_) (fun _ => ?_)
    | with_reducible refine Within.foldl ?_ (fun t x ht => ?_)
    | (intro c hc; first | exact hc | (simp; done) | (simpa using hc))
    | with_reducible apply WithinOut.next
    | with_reducible apply CoreRes.within_done
    | with_reducible apply CoreRes.within_stay
    | with_reducible apply CoreRes.within_jump
    | with_reducible apply CoreRes.within_skip
    | with_reducible apply CoreRes.within_exc
    | intro t ht
    | extract_lets
    | split
    | dsimp only
    | ((with_reducible refine Within.mk_same rfl ?_ ?_); (intro p hn; cases p <;> first | rfl | exact absurd (hW.use (by decide)) hn))

theorem execSig_within (hW : Sub [.bull, .clk, .clu, .core, .free, .gh, .hbm, .hif, .out, .pmu, .regs, .scout, .seed, .time, .txHold, .ump] Ω) {core : Nat} {d : Nat} {x : Nat} {y : Nat} (h : Within Ω a s) : WithinOut Ω a (execSig core d x y s) := by
  unfold execSig
  repeat' first
    | with_reducible assumption
    | with_reducible apply fabric_within (hW.of (by decide))
    | with_reducible apply fabStatus_within (hW.of (by decide))
    | with_reducible apply recordBull_within (hW.of (by decide))
    | with_reducible refine Within.ite (fun _ => ?_) (fun _ => ?_)
    | with_reducible refine Within.foldl ?_ (fun t x ht => ?_)
    | (intro c hc; first | exact hc | (simp; done) | (simpa using hc))
    | with_reducible apply WithinOut.next
    | with_reducible apply CoreRes.within_done
    | with_reducible apply CoreRes.within_stay
    | with_reducible apply CoreRes.within_jump
    | with_reducible apply CoreRes.within_skip
    | with_reducible apply CoreRes.within_exc
    | intro t ht
    | extract_lets
    | split
    | dsimp only

theorem execSigd_within (hW : Sub [.bull, .clk, .clu, .core, .free, .gh, .hbm, .hif, .out, .pmu, .regs, .scout, .seed, .time, .txHold, .ump] Ω) {core : Nat} {d : Nat} {x : Nat} {y : Nat} {flag : Nat} {dropLate : Bool} (h : Within Ω a s) : WithinOut Ω a (execSigd core d x y flag dropLate s) := by
  unfold execSigd
  repeat' first
    | with_reducible assumption
    | with_reducible apply fabric_within (hW.of (by decide))
    | with_reducible apply fabStatus_within (hW.of (by decide))
    | with_reducible apply recordBull_within (hW.of (by decide))
    | with_reducible refine Within.ite (fun _ => ?_) (fun _ => ?_)
    | with_reducible refine Within.foldl ?_ (fun t x ht => ?_)
    | (intro c hc; first | exact hc | (simp; done) | (simpa using hc))
    | with_reducible apply WithinOut.next
    | with_reducible apply CoreRes.within_done
    | with_reducible apply CoreRes.within_stay
    | with_reducible apply CoreRes.within_jump
    | with_reducible apply CoreRes.within_skip
    | with_reducible apply CoreRes.within_exc
    | intro t ht
    | extract_lets
    | split
    | dsimp only

theorem execNcan_within (hW : Sub [.bull, .clk, .clu, .core, .free, .gh, .hbm, .hif, .out, .pmu, .regs, .scout, .seed, .time, .txHold, .ump] Ω) {core : Nat} {d : Nat} {x : Nat} (h : Within Ω a s) : WithinOut Ω a (execNcan core d x s) := by
  unfold execNcan
  repeat' first
    | with_reducible assumption
    | with_reducible apply fabric_within (hW.of (by decide))
    | with_reducible apply fabStatus_within (hW.of (by decide))
    | with_reducible apply recordBull_within (hW.of (by decide))
    | with_reducible refine Within.ite (fun _ => ?_) (fun _ => ?_)
    | with_reducible refine Within.foldl ?_ (fun t x ht => ?_)
    | (intro c hc; first | exact hc | (simp; done) | (simpa using hc))
    | with_reducible apply WithinOut.next
    | with_reducible apply CoreRes.within_done
    | with_reducible apply CoreRes.within_stay
    | with_reducible apply CoreRes.within_jump
    | with_reducible apply CoreRes.within_skip
    | with_reducible apply CoreRes.within_exc
    | intro t ht
    | extract_lets
    | split
    | dsimp only

theorem execArm_within (hW : Sub [.bull, .clk, .clu, .core, .free, .gh, .hbm, .hif, .out, .pmu, .regs, .scout, .seed, .time, .txHold, .ump] Ω) {core : Nat} {d : Nat} {x : Nat} (h : Within Ω a s) : WithinOut Ω a (execArm core d x s) := by
  unfold execArm
  repeat' first
    | with_reducible assumption
    | with_reducible apply fabric_within (hW.of (by decide))
    | with_reducible apply fabStatus_within (hW.of (by decide))
    | with_reducible apply recordBull_within (hW.of (by decide))
    | with_reducible refine Within.ite (fun _ => ?_) (fun _ => ?_)
    | with_reducible refine Within.foldl ?_ (fun t x ht => ?_)
    | (intro c hc; first | exact hc | (simp; done) | (simpa using hc))
    | with_reducible apply WithinOut.next
    | with_reducible apply CoreRes.within_done
    | with_reducible apply CoreRes.within_stay
    | with_reducible apply CoreRes.within_jump
    | with_reducible apply CoreRes.within_skip
    | with_reducible apply CoreRes.within_exc
    | intro t ht
    | extract_lets
    | split
    | dsimp only

theorem addPush_within (hW : Sub [.core] Ω) {k : Nat} {q : Nat} {e : Entry} (h : Within Ω a s) : Within Ω a (addPush k q e s).2 := by
  unfold addPush
  repeat' first
    | with_reducible assumption
    | with_reducible apply record_within (hW.of (by decide))
    | with_reducible refine Within.ite (fun _ => ?_) (fun _ => ?_)
    | with_reducible refine Within.foldl ?_ (fun t x ht => ?_)
    | (intro c hc; first | exact hc | (simp; done) | (simpa using hc))
    | extract_lets
    | split
    | dsimp only
    | ((with_reducible refine Within.mk_same rfl ?_ ?_); (intro p hn; cases p <;> first | rfl | exact absurd (hW.use (by decide)) hn))

theorem addPush_within_pair (hW : Sub [.core] Ω) {k : Nat} {q : Nat} {e : Entry} {y0} {t} (eqn : addPush k q e s = (y0, t)) (h : Within Ω a s) : Within Ω a t := by
  have := addPush_within (hW.of (by decide)) (k := k) (q := q) (e := e) h; rwa [eqn] at this

theorem execMqpush_within (hW : Sub [.bull, .clk, .clu, .core, .free, .gh, .hbm, .hif, .out, .pmu, .regs, .scout, .seed, .time, .txHold, .ump] Ω) {core : Nat} {d : Nat} {x : Nat} {y : Nat} (h : Within Ω a s) : WithinOut Ω a (execMqpush core d x y s) := by
  unfold execMqpush
  repeat' first
    | with_reducible assumption
    | with_reducible apply fabric_within (hW.of (by decide))
    | with_reducible apply excResidue_within (hW.of (by decide))
    | refine addPush_within_pair (hW.of (by decide)) (by assumption) ?_
    | with_reducible apply addPush_within (hW.of (by decide))
    | with_reducible apply fabStatus_within (hW.of (by decide))
    | with_reducible refine Within.ite (fun _ => ?_) (fun _ => ?_)
    | with_reducible refine Within.foldl ?_ (fun t x ht => ?_)
    | (intro c hc; first | exact hc | (simp; done) | (simpa using hc))
    | with_reducible apply WithinOut.next
    | with_reducible apply CoreRes.within_done
    | with_reducible apply CoreRes.within_stay
    | with_reducible apply CoreRes.within_jump
    | with_reducible apply CoreRes.within_skip
    | with_reducible apply CoreRes.within_exc
    | intro t ht
    | extract_lets
    | split
    | dsimp only

theorem popResult_within (hW : Sub [.core] Ω) {k d code : Nat} {ws : List Word} (h : Within Ω a s) : (popResult k d code ws s).Ins Ω a :=
  Within.updCore (hW.of (by decide)) h fun c hc => (foldl_ram (fun c l => c.setV d l (rv (if l < 4 then ws.getD l 0 else if l = 4 then BitVec.ofNat 32 (code * 2 ^ 24) else 0)))
    (fun _ _ => rfl) (List.range 8) { c with cf := cfZ c.cf (code == 0) }).symm ▸ hc

theorem addPop_within (hW : Sub [.core, .free, .hif, .mq, .out, .pmu, .regs] Ω) {k : Nat} {q : Nat} {bound : Option Nat} (h : Within Ω a s) : Within Ω a (addPop k q bound s).2.2 := by
  unfold addPop
  repeat' first
    | with_reducible assumption
    | with_reducible apply record_within (hW.of (by decide))
    | refine mqTake_within_pair (hW.of (by decide)) (by assumption) ?_
    | with_reducible apply mqTake_within (hW.of (by decide))
    | with_reducible refine Within.ite (fun _ => ?_) (fun _ => ?_)
    | with_reducible refine Within.foldl ?_ (fun t x ht => ?_)
    | (intro c hc; first | exact hc | (simp; done) | (simpa using hc))
    | extract_lets
    | split
    | dsimp only
    | ((with_reducible refine Within.mk_same rfl ?_ ?_); (intro p hn; cases p <;> first | rfl | exact absurd (hW.use (by decide)) hn))

theorem addPop_within_pair (hW : Sub [.core, .free, .hif, .mq, .out, .pmu, .regs] Ω) {k : Nat} {q : Nat} {bound : Option Nat} {y0} {y1} {t} (e : addPop k q bound s = (y0, y1, t)) (h : Within Ω a s) : Within Ω a t := by
  have := addPop_within (hW.of (by decide)) (k := k) (q := q) (bound := bound) h; rwa [e] at this

theorem nodePop_within (hW : Sub [.core, .free, .hif, .mq, .out, .pmu, .regs] Ω) {k : Nat} {d : Nat} {x : Nat} {bound : Option Nat} (h : Within Ω a s) : (nodePop k d x bound s).Ins Ω a := by
  unfold nodePop
  repeat' first
    | with_reducible assumption
    | refine addPop_within_pair (hW.of (by decide)) (by assumption) ?_
    | with_reducible apply addPop_within (hW.of (by decide))
    | with_reducible apply popResult_within (hW.of (by decide))
    | with_reducible refine Within.ite (fun _ => ?_) (fun _ => ?_)
    | with_reducible refine Within.foldl ?_ (fun t x ht => ?_)
    | (intro c hc; first | exact hc | (simp; done) | (simpa using hc))
    | with_reducible apply CoreRes.within_done
    | with_reducible apply CoreRes.within_stay
    | with_reducible apply CoreRes.within_jump
    | with_reducible apply CoreRes.within_skip
    | with_reducible apply CoreRes.within_exc
    | extract_lets
    | split
    | dsimp only

theorem execMqpop_within (hW : Sub [.bull, .clk, .clu, .core, .free, .gh, .hbm, .hif, .mq, .out, .pmu, .regs, .scout, .seed, .time, .txHold, .ump] Ω) {core : Nat} {d : Nat} {x : Nat} (h : Within Ω a s) : WithinOut Ω a (execMqpop core d x s) := by
  unfold execMqpop
  repeat' first
    | with_reducible assumption
    | with_reducible apply fabric_within (hW.of (by decide))
    | with_reducible apply nodePop_within (hW.of (by decide))
    | with_reducible apply WithinOut.next
    | dsimp only
    | intro t ht

theorem execMqpopKeyed_within (hW : Sub [.bull, .clk, .clu, .core, .free, .gh, .hbm, .hif, .mq, .out, .pmu, .regs, .scout, .seed, .time, .txHold, .ump] Ω) {core : Nat} {d : Nat} {x : Nat} {y : Nat} (h : Within Ω a s) : WithinOut Ω a (execMqpopKeyed core d x y s) := by
  unfold execMqpopKeyed
  repeat' first
    | with_reducible assumption
    | with_reducible apply fabric_within (hW.of (by decide))
    | with_reducible apply nodePop_within (hW.of (by decide))
    | with_reducible apply WithinOut.next
    | dsimp only
    | intro t ht

theorem execMqmark_within (hW : Sub [.bull, .clk, .clu, .core, .free, .gh, .hbm, .hif, .out, .pmu, .regs, .scout, .seed, .time, .txHold, .ump] Ω) {core : Nat} {d : Nat} {x : Nat} (h : Within Ω a s) : WithinOut Ω a (execMqmark core d x s) := by
  unfold execMqmark
  repeat' first
    | with_reducible assumption
    | with_reducible apply fabStatus_within (hW.of (by decide))
    | with_reducible apply fabric_within (hW.of (by decide))
    | with_reducible apply record_within (hW.of (by decide))
    | with_reducible refine Within.ite (fun _ => ?_) (fun _ => ?_)
    | with_reducible apply WithinOut.next
    | extract_lets
    | split
    | dsimp only
    | intro t ht

theorem addAlloc_within (hW : Sub [.core, .free, .hbm, .hif, .out, .pmu, .regs, .seed, .ump] Ω) {k : Nat} {n : Nat} (h : Within Ω a s) : Within Ω a (addAlloc k n s).2.2 := by
  unfold addAlloc
  repeat' first
    | with_reducible assumption
    | with_reducible apply State.bump_within (hW.of (by decide))
    | refine seedAlloc_within_pair (hW.of (by decide)) (by assumption) ?_
    | with_reducible apply seedAlloc_within (hW.of (by decide))
    | with_reducible apply record_within (hW.of (by decide))
    | with_reducible refine Within.ite (fun _ => ?_) (fun _ => ?_)
    | with_reducible refine Within.foldl ?_ (fun t x ht => ?_)
    | (intro c hc; first | exact hc | (simp; done) | (simpa using hc))
    | extract_lets
    | split
    | dsimp only
    | ((with_reducible refine Within.mk_same rfl ?_ ?_); (intro p hn; cases p <;> first | rfl | exact absurd (hW.use (by decide)) hn))

theorem addAlloc_within_pair (hW : Sub [.core, .free, .hbm, .hif, .out, .pmu, .regs, .seed, .ump] Ω) {k : Nat} {n : Nat} {y0} {y1} {t} (e : addAlloc k n s = (y0, y1, t)) (h : Within Ω a s) : Within Ω a t := by
  have := addAlloc_within (hW.of (by decide)) (k := k) (n := n) h; rwa [e] at this

theorem execBalloc_within (hW : Sub [.bull, .clk, .clu, .core, .free, .gh, .hbm, .hif, .out, .pmu, .regs, .scout, .seed, .time, .txHold, .ump] Ω) {core : Nat} {d : Nat} {x : Nat} (h : Within Ω a s) : WithinOut Ω a (execBalloc core d x s) := by
  unfold execBalloc
  repeat' first
    | with_reducible assumption
    | with_reducible apply fabric_within (hW.of (by decide))
    | refine addAlloc_within_pair (hW.of (by decide)) (by assumption) ?_
    | with_reducible apply addAlloc_within (hW.of (by decide))
    | with_reducible apply fabStatus_within (hW.of (by decide))
    | with_reducible refine Within.ite (fun _ => ?_) (fun _ => ?_)
    | with_reducible refine Within.foldl ?_ (fun t x ht => ?_)
    | (intro c hc; first | exact hc | (simp; done) | (simpa using hc))
    | with_reducible apply WithinOut.next
    | with_reducible apply CoreRes.within_done
    | with_reducible apply CoreRes.within_stay
    | with_reducible apply CoreRes.within_jump
    | with_reducible apply CoreRes.within_skip
    | with_reducible apply CoreRes.within_exc
    | intro t ht
    | extract_lets
    | split
    | dsimp only

theorem execBfree_within (hW : Sub [.bull, .clk, .clu, .core, .free, .gh, .hbm, .hif, .out, .pmu, .regs, .scout, .seed, .time, .txHold, .ump] Ω) {core : Nat} {d : Nat} {x : Nat} (h : Within Ω a s) : WithinOut Ω a (execBfree core d x s) := by
  unfold execBfree
  repeat' first
    | with_reducible assumption
    | with_reducible apply fabStatus_within (hW.of (by decide))
    | with_reducible apply fabric_within (hW.of (by decide))
    | with_reducible apply recordSeed_within (hW.of (by decide))
    | with_reducible refine Within.ite (fun _ => ?_) (fun _ => ?_)
    | with_reducible apply WithinOut.next
    | extract_lets
    | split
    | dsimp only
    | intro t ht

theorem execBgive_within (hW : Sub [.bull, .clk, .clu, .core, .free, .gh, .hbm, .hif, .out, .pmu, .regs, .scout, .seed, .time, .txHold, .ump] Ω) {core : Nat} {d : Nat} {x : Nat} {y : Nat} (h : Within Ω a s) : WithinOut Ω a (execBgive core d x y s) := by
  unfold execBgive
  repeat' first
    | with_reducible assumption
    | with_reducible apply fabStatus_within (hW.of (by decide))
    | with_reducible apply fabric_within (hW.of (by decide))
    | with_reducible apply recordSeed_within (hW.of (by decide))
    | with_reducible refine Within.ite (fun _ => ?_) (fun _ => ?_)
    | with_reducible apply WithinOut.next
    | extract_lets
    | split
    | dsimp only
    | intro t ht

theorem xmov_within (hW : Sub [.bull, .clk, .clu, .core, .free, .gh, .hbm, .hif, .out, .pmu, .regs, .scout, .seed, .time, .txHold, .ump] Ω) {toBuf : Bool} {k : Nat} {d : Nat} {x : Nat} {y : Nat} (h : Within Ω a s) : Within Ω a (xmov toBuf k d x y s) := by
  unfold xmov
  repeat' first
    | with_reducible assumption
    | with_reducible apply fabric_within (hW.of (by decide))
    | with_reducible apply excAt_within (hW.of (by decide))
    | with_reducible apply excResidue_within (hW.of (by decide))
    | with_reducible apply startMove_within (hW.of (by decide))
    | with_reducible apply Within.updCore (hW.of (by decide))
    | with_reducible refine Within.ite (fun _ => ?_) (fun _ => ?_)
    | with_reducible refine Within.foldl ?_ (fun t x ht => ?_)
    | (intro c hc; first | exact hc | (simp; done) | (simpa using hc))
    | with_reducible apply CoreRes.within_done
    | with_reducible apply CoreRes.within_stay
    | with_reducible apply CoreRes.within_jump
    | with_reducible apply CoreRes.within_skip
    | with_reducible apply CoreRes.within_exc
    | intro t ht
    | extract_lets
    | split
    | dsimp only
    | ((with_reducible refine Within.mk_same rfl ?_ ?_); (intro p hn; cases p <;> first | rfl | exact absurd (hW.use (by decide)) hn))

theorem execXmovToLocal_within (hW : Sub [.bull, .clk, .clu, .core, .free, .gh, .hbm, .hif, .out, .pmu, .regs, .scout, .seed, .time, .txHold, .ump] Ω) {core : Nat} {d : Nat} {x : Nat} {y : Nat} (h : Within Ω a s) : WithinOut Ω a (execXmovToLocal core d x y s) := by
  unfold execXmovToLocal
  repeat' first
    | with_reducible assumption
    | with_reducible apply xmov_within (hW.of (by decide))
    | with_reducible apply WithinOut.next

theorem execXmovToBuffer_within (hW : Sub [.bull, .clk, .clu, .core, .free, .gh, .hbm, .hif, .out, .pmu, .regs, .scout, .seed, .time, .txHold, .ump] Ω) {core : Nat} {d : Nat} {x : Nat} {y : Nat} (h : Within Ω a s) : WithinOut Ω a (execXmovToBuffer core d x y s) := by
  unfold execXmovToBuffer
  repeat' first
    | with_reducible assumption
    | with_reducible apply xmov_within (hW.of (by decide))
    | with_reducible apply WithinOut.next

theorem execXwait_within (hW : Sub [.bull, .clk, .clu, .core, .free, .gh, .hbm, .hif, .out, .pmu, .regs, .scout, .seed, .time, .txHold, .ump] Ω) {core : Nat} (h : Within Ω a s) : WithinOut Ω a (execXwait core s) := by
  unfold execXwait
  repeat' first
    | with_reducible assumption
    | with_reducible apply issue_within (hW.of (by decide))
    | with_reducible apply Within.updCore (hW.of (by decide))
    | with_reducible refine Within.ite (fun _ => ?_) (fun _ => ?_)
    | with_reducible apply CoreRes.within_done
    | with_reducible apply CoreRes.within_stay
    | with_reducible apply KciRes.within_done
    | with_reducible apply WithinOut.next
    | exact fun _ hc => hc
    | (intro c hc; first | exact hc | (simp; done) | (simpa using hc))
    | split
    | dsimp only
    | intro t ht

theorem putPair_within (hW : Sub [.core, .free] Ω) {k d y lo hi : Nat} (h : Within Ω a s) : Within Ω a (putPair k d y lo hi s) := by
  unfold putPair
  split
  next e =>
  refine Within.updCore (hW.of (by decide)) ?_ fun c hc => ?_
  · split at e
    · exact State.draw_within_pair (hW.of (by decide)) e h
    · cases e; exact h
  · dsimp only; split <;> simpa using hc

theorem execRdpmc_within (hW : Sub [.bull, .clk, .clu, .core, .free, .gh, .hbm, .hif, .out, .pmu, .regs, .scout, .seed, .time, .txHold, .ump] Ω) {core : Nat} {d : Nat} {n : Nat} {y : Nat} (h : Within Ω a s) : WithinOut Ω a (execRdpmc core d n y s) := by
  unfold execRdpmc
  repeat' first
    | with_reducible assumption
    | with_reducible apply issue_within (hW.of (by decide))
    | with_reducible apply putPair_within (hW.of (by decide))
    | with_reducible apply Within.updCore (hW.of (by decide))
    | with_reducible refine Within.ite (fun _ => ?_) (fun _ => ?_)
    | with_reducible apply CoreRes.within_done
    | with_reducible apply KciRes.within_done
    | with_reducible apply WithinOut.next
    | exact fun _ hc => hc
    | (intro c hc; first | exact hc | (simp; done) | (simpa using hc))
    | extract_lets
    | split
    | dsimp only
    | intro t ht

theorem execRdcyc_within (hW : Sub [.bull, .clk, .clu, .core, .free, .gh, .hbm, .hif, .out, .pmu, .regs, .scout, .seed, .time, .txHold, .ump] Ω) {core : Nat} {d : Nat} {y : Nat} (h : Within Ω a s) : WithinOut Ω a (execRdcyc core d y s) := by
  unfold execRdcyc
  repeat' first
    | with_reducible assumption
    | with_reducible apply issue_within (hW.of (by decide))
    | with_reducible apply putPair_within (hW.of (by decide))
    | with_reducible apply CoreRes.within_done
    | with_reducible apply KciRes.within_done
    | with_reducible apply WithinOut.next
    | extract_lets
    | dsimp only
    | intro t ht

theorem movxFrom_within (hW : Sub [.bull, .clk, .clu, .core, .free, .gh, .hbm, .hif, .out, .pmu, .regs, .scout, .seed, .time, .txHold, .ump] Ω) {k : Nat} {d : Nat} {wf : Bool} {f : Core → Word} (h : Within Ω a s) : Within Ω a (movxFrom k d wf f s) := by
  unfold movxFrom
  repeat' first
    | with_reducible assumption
    | with_reducible apply issue_within (hW.of (by decide))
    | with_reducible apply finishS_within (hW.of (by decide))
    | dsimp only
    | intro t ht

theorem movxTo_within (hW : Sub [.bull, .clk, .clu, .core, .free, .gh, .hbm, .hif, .out, .pmu, .regs, .scout, .seed, .time, .txHold, .ump] Ω) {k x : Nat} {wf : Bool} {f : Word → Core → Core} (h : Within Ω a s) (hf : ∀ w c, (f w c).ram = c.ram) :
    Within Ω a (movxTo k x wf f s) :=
  issue_within (hW.of (by decide)) h fun _ ht => writeBack_within (hW.of (by decide)) ht fun c hc => by rw [hf]; exact hc

theorem execMovxFromPn_within (hW : Sub [.bull, .clk, .clu, .core, .free, .gh, .hbm, .hif, .out, .pmu, .regs, .scout, .seed, .time, .txHold, .ump] Ω) {core : Nat} {d : Nat} {x : Nat} (h : Within Ω a s) : WithinOut Ω a (execMovxFromPn core d x s) := by
  unfold execMovxFromPn
  repeat' first
    | with_reducible assumption
    | with_reducible apply movxFrom_within (hW.of (by decide))
    | with_reducible apply WithinOut.next

theorem execMovxToPn_within (hW : Sub [.bull, .clk, .clu, .core, .free, .gh, .hbm, .hif, .out, .pmu, .regs, .scout, .seed, .time, .txHold, .ump] Ω) {core : Nat} {d : Nat} {x : Nat} (h : Within Ω a s) : WithinOut Ω a (execMovxToPn core d x s) := by
  unfold execMovxToPn
  repeat' first
    | with_reducible assumption
    | with_reducible refine movxTo_within (hW.of (by decide)) ?_ (fun w c => by simp)
    | with_reducible apply WithinOut.next

theorem execMovxFromBl_within (hW : Sub [.bull, .clk, .clu, .core, .free, .gh, .hbm, .hif, .out, .pmu, .regs, .scout, .seed, .time, .txHold, .ump] Ω) {core : Nat} {d : Nat} {x : Nat} (h : Within Ω a s) : WithinOut Ω a (execMovxFromBl core d x s) := by
  unfold execMovxFromBl
  repeat' first
    | with_reducible assumption
    | with_reducible apply movxFrom_within (hW.of (by decide))
    | with_reducible apply WithinOut.next

theorem execMovxToBl_within (hW : Sub [.bull, .clk, .clu, .core, .free, .gh, .hbm, .hif, .out, .pmu, .regs, .scout, .seed, .time, .txHold, .ump] Ω) {core : Nat} {d : Nat} {x : Nat} (h : Within Ω a s) : WithinOut Ω a (execMovxToBl core d x s) := by
  unfold execMovxToBl
  repeat' first
    | with_reducible assumption
    | with_reducible refine movxTo_within (hW.of (by decide)) ?_ (fun w c => by simp)
    | with_reducible apply WithinOut.next

theorem execMovxFromCf_within (hW : Sub [.bull, .clk, .clu, .core, .free, .gh, .hbm, .hif, .out, .pmu, .regs, .scout, .seed, .time, .txHold, .ump] Ω) {core : Nat} {d : Nat} (h : Within Ω a s) : WithinOut Ω a (execMovxFromCf core d s) := by
  unfold execMovxFromCf
  repeat' first
    | with_reducible assumption
    | with_reducible apply movxFrom_within (hW.of (by decide))
    | with_reducible apply WithinOut.next

theorem execMovxToCf_within (hW : Sub [.bull, .clk, .clu, .core, .free, .gh, .hbm, .hif, .out, .pmu, .regs, .scout, .seed, .time, .txHold, .ump] Ω) {core : Nat} {x : Nat} (h : Within Ω a s) : WithinOut Ω a (execMovxToCf core x s) := by
  unfold execMovxToCf
  repeat' first
    | with_reducible assumption
    | with_reducible refine movxTo_within (hW.of (by decide)) ?_ (fun w c => by simp)
    | with_reducible apply WithinOut.next

theorem execMovxFromSt_within (hW : Sub [.bull, .clk, .clu, .core, .free, .gh, .hbm, .hif, .out, .pmu, .regs, .scout, .seed, .time, .txHold, .ump] Ω) {core : Nat} {d : Nat} (h : Within Ω a s) : WithinOut Ω a (execMovxFromSt core d s) := by
  unfold execMovxFromSt
  repeat' first
    | with_reducible assumption
    | with_reducible apply movxFrom_within (hW.of (by decide))
    | with_reducible apply WithinOut.next

theorem execMovxFromSf_within (hW : Sub [.bull, .clk, .clu, .core, .free, .gh, .hbm, .hif, .out, .pmu, .regs, .scout, .seed, .time, .txHold, .ump] Ω) {core : Nat} {d : Nat} (h : Within Ω a s) : WithinOut Ω a (execMovxFromSf core d s) := by
  unfold execMovxFromSf
  repeat' first
    | with_reducible assumption
    | with_reducible apply movxFrom_within (hW.of (by decide))
    | with_reducible apply WithinOut.next

theorem execNop_within (hW : Sub [.bull, .clk, .clu, .core, .free, .gh, .hbm, .hif, .out, .pmu, .regs, .scout, .seed, .time, .txHold, .ump] Ω) {core : Nat} (h : Within Ω a s) : WithinOut Ω a (execNop core s) := by
  unfold execNop
  repeat' first
    | with_reducible assumption
    | with_reducible apply issue_within (hW.of (by decide))
    | with_reducible apply CoreRes.within_done
    | with_reducible apply KciRes.within_done
    | with_reducible apply WithinOut.next

theorem execSfclr_within (hW : Sub [.bull, .clk, .clu, .core, .free, .gh, .hbm, .hif, .out, .pmu, .regs, .scout, .seed, .time, .txHold, .ump] Ω) {core : Nat} {x : Nat} (h : Within Ω a s) : WithinOut Ω a (execSfclr core x s) := by
  unfold execSfclr
  repeat' first
    | with_reducible assumption
    | with_reducible apply issue_within (hW.of (by decide))
    | with_reducible apply excResidue_within (hW.of (by decide))
    | with_reducible apply Within.updCore (hW.of (by decide))
    | with_reducible refine Within.ite (fun _ => ?_) (fun _ => ?_)
    | with_reducible refine Within.foldl ?_ (fun t x ht => ?_)
    | (intro c hc; first | exact hc | (simp; done) | (simpa using hc))
    | with_reducible apply WithinOut.next
    | with_reducible apply CoreRes.within_done
    | with_reducible apply CoreRes.within_stay
    | with_reducible apply CoreRes.within_jump
    | with_reducible apply CoreRes.within_skip
    | with_reducible apply CoreRes.within_exc
    | intro t ht
    | extract_lets
    | split
    | dsimp only
    | ((with_reducible refine Within.mk_same rfl ?_ ?_); (intro p hn; cases p <;> first | rfl | exact absurd (hW.use (by decide)) hn))

theorem execIllegalEncoding_within (hW : Sub [.bull, .clk, .clu, .core, .free, .gh, .hbm, .hif, .out, .pmu, .regs, .scout, .seed, .time, .txHold, .ump] Ω) {core : Nat} {word : Word} (h : Within Ω a s) : WithinOut Ω a (execIllegalEncoding core word s) := by
  unfold execIllegalEncoding
  repeat' first
    | with_reducible assumption
    | with_reducible apply issue_within (hW.of (by decide))
    | with_reducible refine Within.ite (fun _ => ?_) (fun _ => ?_)
    | with_reducible refine Within.foldl ?_ (fun t x ht => ?_)
    | (intro c hc; first | exact hc | (simp; done) | (simpa using hc))
    | with_reducible apply WithinOut.next
    | with_reducible apply CoreRes.within_done
    | with_reducible apply CoreRes.within_stay
    | with_reducible apply CoreRes.within_jump
    | with_reducible apply CoreRes.within_skip
    | with_reducible apply CoreRes.within_exc
    | intro t ht
    | extract_lets
    | split
    | dsimp only
    | ((with_reducible refine Within.mk_same rfl ?_ ?_); (intro p hn; cases p <;> first | rfl | exact absurd (hW.use (by decide)) hn))

end Sys2Proof.Machine
end

