-- ==== Sys2Proof/Laws/WithinKml.lean ====
section
/-!
SUPPORT. Laws/WithinKml.lean: which parts of the state every operation of the Kelrik Media Library's nodes may change.
-/

namespace Sys2Proof.Machine

variable {a s : State}

theorem putCtx_within (hW : Sub [.core] Ω) {k : Nat} {o : Nat} {v : Nat} (h : Within Ω a s) : Within Ω a (putCtx k o v s) := by
  unfold putCtx
  repeat' first
    | with_reducible assumption
    | with_reducible apply localStore_within (hW.of (by decide))
    | with_reducible refine Within.ite (fun _ => ?_) (fun _ => ?_)
    | with_reducible refine Within.foldl ?_ (fun t x ht => ?_)
    | (intro c hc; first | exact hc | (simp; done) | (simpa using hc))
    | extract_lets
    | split
    | dsimp only
    | ((with_reducible refine Within.mk_same rfl ?_ ?_); (intro p hn; cases p <;> first | rfl | exact absurd (hW.use (by decide)) hn))

theorem addCtx_within (hW : Sub [.core] Ω) {k : Nat} {o : Nat} {n : Nat} (h : Within Ω a s) : Within Ω a (addCtx k o n s) := by
  unfold addCtx
  repeat' first
    | with_reducible assumption
    | with_reducible apply putCtx_within (hW.of (by decide))
    | with_reducible refine Within.ite (fun _ => ?_) (fun _ => ?_)
    | with_reducible refine Within.foldl ?_ (fun t x ht => ?_)
    | (intro c hc; first | exact hc | (simp; done) | (simpa using hc))
    | extract_lets
    | split
    | dsimp only
    | ((with_reducible refine Within.mk_same rfl ?_ ?_); (intro p hn; cases p <;> first | rfl | exact absurd (hW.use (by decide)) hn))

theorem kmlPop_within (hW : Sub [.core, .free, .hif, .mq, .out, .pmu, .regs] Ω) {k : Nat} {q : Nat} {bound : Option Nat} (h : Within Ω a s) : Within Ω a (kmlPop k q bound s).2 := by
  unfold kmlPop
  repeat' first
    | with_reducible assumption
    | refine addPop_within_pair (hW.of (by decide)) (by assumption) ?_
    | with_reducible apply addPop_within (hW.of (by decide))
    | with_reducible refine Within.ite (fun _ => ?_) (fun _ => ?_)
    | with_reducible refine Within.foldl ?_ (fun t x ht => ?_)
    | (intro c hc; first | exact hc | (simp; done) | (simpa using hc))
    | extract_lets
    | split
    | dsimp only
    | ((with_reducible refine Within.mk_same rfl ?_ ?_); (intro p hn; cases p <;> first | rfl | exact absurd (hW.use (by decide)) hn))

theorem kmlPop_within_pair (hW : Sub [.core, .free, .hif, .mq, .out, .pmu, .regs] Ω) {k : Nat} {q : Nat} {bound : Option Nat} {y0} {t} (e : kmlPop k q bound s = (y0, t)) (h : Within Ω a s) : Within Ω a t := by
  have := kmlPop_within (hW.of (by decide)) (k := k) (q := q) (bound := bound) h; rwa [e] at this

theorem kmlFree_within (hW : Sub [.core, .regs] Ω) {k : Nat} {h' : Nat} (h : Within Ω a s) : Within Ω a (kmlFree k h' s) := by
  unfold kmlFree
  repeat' first
    | with_reducible assumption
    | refine addSeed_within_pair (hW.of (by decide)) (by assumption) ?_
    | with_reducible apply addSeed_within (hW.of (by decide))
    | with_reducible refine Within.ite (fun _ => ?_) (fun _ => ?_)
    | with_reducible refine Within.foldl ?_ (fun t x ht => ?_)
    | (intro c hc; first | exact hc | (simp; done) | (simpa using hc))
    | extract_lets
    | split
    | dsimp only
    | ((with_reducible refine Within.mk_same rfl ?_ ?_); (intro p hn; cases p <;> first | rfl | exact absurd (hW.use (by decide)) hn))

theorem kmlRelease_within (hW : Sub [.core, .regs] Ω) {k : Nat} {e : Entry} (h : Within Ω a s) : Within Ω a (kmlRelease k e s) := by
  unfold kmlRelease
  repeat' first
    | with_reducible assumption
    | with_reducible apply kmlFree_within (hW.of (by decide))
    | with_reducible refine Within.ite (fun _ => ?_) (fun _ => ?_)
    | with_reducible refine Within.foldl ?_ (fun t x ht => ?_)
    | (intro c hc; first | exact hc | (simp; done) | (simpa using hc))
    | extract_lets
    | split
    | dsimp only
    | ((with_reducible refine Within.mk_same rfl ?_ ?_); (intro p hn; cases p <;> first | rfl | exact absurd (hW.use (by decide)) hn))

theorem kmlSig_within (hW : Sub [.core, .regs] Ω) {k : Nat} {t : Nat} {flag : Nat} (h : Within Ω a s) : Within Ω a (kmlSig k t flag s) := by
  unfold kmlSig
  repeat' first
    | with_reducible assumption
    | refine addBull_within_pair (hW.of (by decide)) (by assumption) ?_
    | with_reducible apply addBull_within (hW.of (by decide))
    | with_reducible refine Within.ite (fun _ => ?_) (fun _ => ?_)
    | with_reducible refine Within.foldl ?_ (fun t x ht => ?_)
    | (intro c hc; first | exact hc | (simp; done) | (simpa using hc))
    | extract_lets
    | split
    | dsimp only
    | ((with_reducible refine Within.mk_same rfl ?_ ?_); (intro p hn; cases p <;> first | rfl | exact absurd (hW.use (by decide)) hn))

theorem kmlGive_within (hW : Sub [.core, .free, .hbm, .hif, .out, .pmu, .regs, .seed, .ump] Ω) {k : Nat} {acct : Nat} {bs : List Byte} (h : Within Ω a s) : Within Ω a (kmlGive k acct bs s).2 := by
  unfold kmlGive
  repeat' first
    | with_reducible assumption
    | refine addAlloc_within_pair (hW.of (by decide)) (by assumption) ?_
    | with_reducible apply addAlloc_within (hW.of (by decide))
    | refine addSeed_within_pair (hW.of (by decide)) (by assumption) ?_
    | with_reducible apply addSeed_within (hW.of (by decide))
    | with_reducible apply bufWrite_within (hW.of (by decide))
    | with_reducible refine Within.ite (fun _ => ?_) (fun _ => ?_)
    | with_reducible refine Within.foldl ?_ (fun t x ht => ?_)
    | (intro c hc; first | exact hc | (simp; done) | (simpa using hc))
    | extract_lets
    | split
    | dsimp only
    | ((with_reducible refine Within.mk_same rfl ?_ ?_); (intro p hn; cases p <;> first | rfl | exact absurd (hW.use (by decide)) hn))

theorem kmlGive_within_pair (hW : Sub [.core, .free, .hbm, .hif, .out, .pmu, .regs, .seed, .ump] Ω) {k : Nat} {acct : Nat} {bs : List Byte} {y0} {t} (e : kmlGive k acct bs s = (y0, t)) (h : Within Ω a s) : Within Ω a t := by
  have := kmlGive_within (hW.of (by decide)) (k := k) (acct := acct) (bs := bs) h; rwa [e] at this

theorem leaveKml_within (hW : Sub [.core, .kml] Ω) {k : Nat} {x : KmlSt} (h : Within Ω a s) : Within Ω a (leaveKml k x s) := by
  unfold leaveKml
  repeat' first
    | with_reducible assumption
    | with_reducible apply record_within (hW.of (by decide))
    | with_reducible refine Within.ite (fun _ => ?_) (fun _ => ?_)
    | with_reducible refine Within.foldl ?_ (fun t x ht => ?_)
    | (intro c hc; first | exact hc | (simp; done) | (simpa using hc))
    | extract_lets
    | split
    | dsimp only
    | ((with_reducible refine Within.mk_same rfl ?_ ?_); (intro p hn; cases p <;> first | rfl | exact absurd (hW.use (by decide)) hn))

theorem kmlFault_within (hW : Sub [.bull, .clk, .clu, .core, .free, .gh, .hbm, .hif, .out, .pmu, .regs, .seed, .time, .txHold, .ump] Ω) {k : Nat} {code : Nat} (h : Within Ω a s) : Within Ω a (kmlFault k code s) := by
  unfold kmlFault
  repeat' first
    | with_reducible assumption
    | with_reducible apply takeException_within (hW.of (by decide))
    | with_reducible refine Within.ite (fun _ => ?_) (fun _ => ?_)
    | with_reducible refine Within.foldl ?_ (fun t x ht => ?_)
    | (intro c hc; first | exact hc | (simp; done) | (simpa using hc))
    | extract_lets
    | split
    | dsimp only
    | ((with_reducible refine Within.mk_same rfl ?_ ?_); (intro p hn; cases p <;> first | rfl | exact absurd (hW.use (by decide)) hn))

theorem gather_within (hW : Sub [.core, .free, .hif, .mq, .out, .pmu, .regs] Ω) {k : Nat} {q : Nat} {first : Nat} {item : Nat} {x0 : Nat} {x1 : Gather} (h : Within Ω a s) : Within Ω a (gather k q first item x0 x1 s).2 := by
  induction x0 generalizing x1 s with
  | zero =>
    unfold gather
    repeat' first
      | with_reducible assumption
      | refine kmlPop_within_pair (hW.of (by decide)) (by assumption) ?_
      | with_reducible apply kmlPop_within (hW.of (by decide))
      | with_reducible apply kmlRelease_within (hW.of (by decide))
      | with_reducible refine Within.ite (fun _ => ?_) (fun _ => ?_)
      | with_reducible refine Within.foldl ?_ (fun t x ht => ?_)
      | (intro c hc; first | exact hc | (simp; done) | (simpa using hc))
      | extract_lets
      | split
      | dsimp only
      | ((with_reducible refine Within.mk_same rfl ?_ ?_); (intro p hn; cases p <;> first | rfl | exact absurd (hW.use (by decide)) hn))
  | succ n ih =>
    unfold gather
    repeat' first
      | with_reducible apply ih
      | with_reducible assumption
      | refine kmlPop_within_pair (hW.of (by decide)) (by assumption) ?_
      | with_reducible apply kmlPop_within (hW.of (by decide))
      | with_reducible apply kmlRelease_within (hW.of (by decide))
      | with_reducible refine Within.ite (fun _ => ?_) (fun _ => ?_)
      | with_reducible refine Within.foldl ?_ (fun t x ht => ?_)
      | (intro c hc; first | exact hc | (simp; done) | (simpa using hc))
      | extract_lets
      | split
      | dsimp only
      | ((with_reducible refine Within.mk_same rfl ?_ ?_); (intro p hn; cases p <;> first | rfl | exact absurd (hW.use (by decide)) hn))

theorem gather_within_pair (hW : Sub [.core, .free, .hif, .mq, .out, .pmu, .regs] Ω) {k : Nat} {q : Nat} {first : Nat} {item : Nat} {x0 : Nat} {x1 : Gather} {y0} {t} (e : gather k q first item x0 x1 s = (y0, t)) (h : Within Ω a s) : Within Ω a t := by
  have := gather_within (hW.of (by decide)) (k := k) (q := q) (first := first) (item := item) (x0 := x0) (x1 := x1) h; rwa [e] at this

theorem popWindow_within (hW : Sub [.core, .free, .hif, .mq, .out, .pmu, .regs] Ω) {k : Nat} {c : CancSt} {item : Nat} (h : Within Ω a s) : Within Ω a (popWindow k c item s).2 := by
  unfold popWindow
  extract_lets _ _ _ got
  have hg : Within Ω a got.2 := by
    unfold got
    split
    · exact kmlPop_within (hW.of (by decide)) h
    · exact h
  clear_value got
  split
  · exact hg
  · exact gather_within (hW.of (by decide)) (gather_within (hW.of (by decide)) hg)

theorem popWindow_within_pair (hW : Sub [.core, .free, .hif, .mq, .out, .pmu, .regs] Ω) {k : Nat} {c : CancSt} {item : Nat} {y0} {t} (e : popWindow k c item s = (y0, t)) (h : Within Ω a s) : Within Ω a t := by
  have := popWindow_within (hW.of (by decide)) (k := k) (c := c) (item := item) h; rwa [e] at this

theorem cancOutput_within (hW : Sub [.core, .free, .hbm, .hif, .out, .pmu, .regs, .seed, .ump] Ω) {k : Nat} {bs : List Byte} (h : Within Ω a s) : Within Ω a (cancOutput k bs s) := by
  unfold cancOutput
  repeat' first
    | with_reducible assumption
    | refine kmlGive_within_pair (hW.of (by decide)) (by assumption) ?_
    | with_reducible apply kmlGive_within (hW.of (by decide))
    | with_reducible apply kmlSig_within (hW.of (by decide))
    | with_reducible refine Within.ite (fun _ => ?_) (fun _ => ?_)
    | with_reducible refine Within.foldl ?_ (fun t x ht => ?_)
    | (intro c hc; first | exact hc | (simp; done) | (simpa using hc))
    | extract_lets
    | split
    | dsimp only
    | ((with_reducible refine Within.mk_same rfl ?_ ?_); (intro p hn; cases p <;> first | rfl | exact absurd (hW.use (by decide)) hn))

theorem clearCounts_within (hW : Sub [.core] Ω) {k : Nat} (h : Within Ω a s) : Within Ω a (clearCounts k s) := by
  unfold clearCounts
  repeat' first
    | with_reducible assumption
    | with_reducible apply putCtx_within (hW.of (by decide))
    | with_reducible refine Within.ite (fun _ => ?_) (fun _ => ?_)
    | with_reducible refine Within.foldl ?_ (fun t x ht => ?_)
    | (intro c hc; first | exact hc | (simp; done) | (simpa using hc))
    | extract_lets
    | split
    | dsimp only
    | ((with_reducible refine Within.mk_same rfl ?_ ?_); (intro p hn; cases p <;> first | rfl | exact absurd (hW.use (by decide)) hn))

theorem cancStart_within (hW : Sub [.core] Ω) {k : Nat} {r : CancRec} {c : CancSt} (h : Within Ω a s) : Within Ω a (cancStart k r c s).2 := by
  unfold cancStart
  repeat' first
    | with_reducible assumption
    | with_reducible apply clearCounts_within (hW.of (by decide))
    | with_reducible apply putCtx_within (hW.of (by decide))
    | with_reducible refine Within.ite (fun _ => ?_) (fun _ => ?_)
    | with_reducible refine Within.foldl ?_ (fun t x ht => ?_)
    | (intro c hc; first | exact hc | (simp; done) | (simpa using hc))
    | extract_lets
    | split
    | dsimp only
    | ((with_reducible refine Within.mk_same rfl ?_ ?_); (intro p hn; cases p <;> first | rfl | exact absurd (hW.use (by decide)) hn))

theorem cancStart_within_pair (hW : Sub [.core] Ω) {k : Nat} {r : CancRec} {c : CancSt} {y0} {t} (e : cancStart k r c s = (y0, t)) (h : Within Ω a s) : Within Ω a t := by
  have := cancStart_within (hW.of (by decide)) (k := k) (r := r) (c := c) h; rwa [e] at this

theorem countWindow_within (hW : Sub [.core] Ω) {k : Nat} {item : Nat} {w : Window} {clipped : Bool} (h : Within Ω a s) : Within Ω a (countWindow k item w clipped s) := by
  unfold countWindow
  extract_lets v1 s1 s2 s3 s4
  have h1 : Within Ω a s1 := by
    unfold s1
    repeat' first
      | with_reducible assumption
      | with_reducible apply addCtx_within (hW.of (by decide))
      | with_reducible refine Within.ite (fun _ => ?_) (fun _ => ?_)
      | with_reducible refine Within.foldl ?_ (fun t x ht => ?_)
      | (intro c hc; first | exact hc | (simp; done) | (simpa using hc))
      | extract_lets
      | split
      | dsimp only
      | ((with_reducible refine Within.mk_same rfl ?_ ?_); (intro p hn; cases p <;> first | rfl | exact absurd (hW.use (by decide)) hn))
  clear_value s1
  have h2 : Within Ω a s2 := by
    unfold s2
    repeat' first
      | with_reducible assumption
      | with_reducible apply addCtx_within (hW.of (by decide))
      | with_reducible refine Within.ite (fun _ => ?_) (fun _ => ?_)
      | with_reducible refine Within.foldl ?_ (fun t x ht => ?_)
      | (intro c hc; first | exact hc | (simp; done) | (simpa using hc))
      | extract_lets
      | split
      | dsimp only
      | ((with_reducible refine Within.mk_same rfl ?_ ?_); (intro p hn; cases p <;> first | rfl | exact absurd (hW.use (by decide)) hn))
  clear_value s2
  have h3 : Within Ω a s3 := by
    unfold s3
    repeat' first
      | with_reducible assumption
      | with_reducible apply addCtx_within (hW.of (by decide))
      | with_reducible refine Within.ite (fun _ => ?_) (fun _ => ?_)
      | with_reducible refine Within.foldl ?_ (fun t x ht => ?_)
      | (intro c hc; first | exact hc | (simp; done) | (simpa using hc))
      | extract_lets
      | split
      | dsimp only
      | ((with_reducible refine Within.mk_same rfl ?_ ?_); (intro p hn; cases p <;> first | rfl | exact absurd (hW.use (by decide)) hn))
  clear_value s3
  have h4 : Within Ω a s4 := by
    unfold s4
    repeat' first
      | with_reducible assumption
      | with_reducible apply addCtx_within (hW.of (by decide))
      | with_reducible refine Within.ite (fun _ => ?_) (fun _ => ?_)
      | with_reducible refine Within.foldl ?_ (fun t x ht => ?_)
      | (intro c hc; first | exact hc | (simp; done) | (simpa using hc))
      | extract_lets
      | split
      | dsimp only
      | ((with_reducible refine Within.mk_same rfl ?_ ?_); (intro p hn; cases p <;> first | rfl | exact absurd (hW.use (by decide)) hn))
  clear_value s4
  repeat' first
    | with_reducible assumption
    | with_reducible apply addCtx_within (hW.of (by decide))
    | with_reducible refine Within.ite (fun _ => ?_) (fun _ => ?_)
    | with_reducible refine Within.foldl ?_ (fun t x ht => ?_)
    | (intro c hc; first | exact hc | (simp; done) | (simpa using hc))
    | extract_lets
    | split
    | dsimp only
    | ((with_reducible refine Within.mk_same rfl ?_ ?_); (intro p hn; cases p <;> first | rfl | exact absurd (hW.use (by decide)) hn))

theorem putLevels_within (hW : Sub [.core] Ω) {k : Nat} {rin : List Int} {sin : List Int} {sout : List Int} (h : Within Ω a s) : Within Ω a (putLevels k rin sin sout s) := by
  unfold putLevels
  repeat' first
    | with_reducible assumption
    | with_reducible apply putCtx_within (hW.of (by decide))
    | with_reducible refine Within.ite (fun _ => ?_) (fun _ => ?_)
    | with_reducible refine Within.foldl ?_ (fun t x ht => ?_)
    | (intro c hc; first | exact hc | (simp; done) | (simpa using hc))
    | extract_lets
    | split
    | dsimp only
    | ((with_reducible refine Within.mk_same rfl ?_ ?_); (intro p hn; cases p <;> first | rfl | exact absurd (hW.use (by decide)) hn))

theorem cancRun_within (hW : Sub [.core, .free, .hbm, .hif, .kml, .out, .pmu, .regs, .seed, .ump] Ω) {k : Nat} {node : Nat} {f : Nat} {r : CancRec} {c : CancSt} {w : Window} (h : Within Ω a s) : Within Ω a (cancRun k node f r c w s) := by
  unfold cancRun
  extract_lets sin rin c1 full q bands runs sout s5 s4 erle src c2 s3 s2 s1 s0
  have h5 : Within Ω a s5 := cancOutput_within (hW.of (by decide)) h
  have h4 : Within Ω a s4 := kmlSig_within (hW.of (by decide)) (Within.foldl h5 fun _ _ ht => kmlRelease_within (hW.of (by decide)) ht)
  have h0 : Within Ω a s0 := putCtx_within (hW.of (by decide)) (putCtx_within (hW.of (by decide)) (addCtx_within (hW.of (by decide)) (countWindow_within (hW.of (by decide)) h4)))
  exact leaveKml_within (hW.of (by decide)) (addCtx_within (hW.of (by decide)) (putLevels_within (hW.of (by decide)) h0))

theorem bypassRun_within (hW : Sub [.core, .free, .hbm, .hif, .kml, .out, .pmu, .regs, .seed, .ump] Ω) {k : Nat} {node : Nat} {f : Nat} {r : CancRec} {c : CancSt} {w : Window} (h : Within Ω a s) : Within Ω a (bypassRun k node f r c w s) := by
  unfold bypassRun
  extract_lets v1 v2 v3 v4 v5 v6 s1 s2 v7 s3
  have h1 : Within Ω a s1 := by
    unfold s1
    repeat' first
      | with_reducible assumption
      | with_reducible apply cancOutput_within (hW.of (by decide))
      | with_reducible apply kmlSig_within (hW.of (by decide))
      | with_reducible apply kmlRelease_within (hW.of (by decide))
      | with_reducible apply countWindow_within (hW.of (by decide))
      | with_reducible apply leaveKml_within (hW.of (by decide))
      | with_reducible apply addCtx_within (hW.of (by decide))
      | with_reducible apply putLevels_within (hW.of (by decide))
      | with_reducible refine Within.ite (fun _ => ?_) (fun _ => ?_)
      | with_reducible refine Within.foldl ?_ (fun t x ht => ?_)
      | (intro c hc; first | exact hc | (simp; done) | (simpa using hc))
      | extract_lets
      | split
      | dsimp only
      | ((with_reducible refine Within.mk_same rfl ?_ ?_); (intro p hn; cases p <;> first | rfl | exact absurd (hW.use (by decide)) hn))
  clear_value s1
  have h2 : Within Ω a s2 := by
    unfold s2
    repeat' first
      | with_reducible assumption
      | with_reducible apply cancOutput_within (hW.of (by decide))
      | with_reducible apply kmlSig_within (hW.of (by decide))
      | with_reducible apply kmlRelease_within (hW.of (by decide))
      | with_reducible apply countWindow_within (hW.of (by decide))
      | with_reducible apply leaveKml_within (hW.of (by decide))
      | with_reducible apply addCtx_within (hW.of (by decide))
      | with_reducible apply putLevels_within (hW.of (by decide))
      | with_reducible refine Within.ite (fun _ => ?_) (fun _ => ?_)
      | with_reducible refine Within.foldl ?_ (fun t x ht => ?_)
      | (intro c hc; first | exact hc | (simp; done) | (simpa using hc))
      | extract_lets
      | split
      | dsimp only
      | ((with_reducible refine Within.mk_same rfl ?_ ?_); (intro p hn; cases p <;> first | rfl | exact absurd (hW.use (by decide)) hn))
  clear_value s2
  have h3 : Within Ω a s3 := by
    unfold s3
    repeat' first
      | with_reducible assumption
      | with_reducible apply cancOutput_within (hW.of (by decide))
      | with_reducible apply kmlSig_within (hW.of (by decide))
      | with_reducible apply kmlRelease_within (hW.of (by decide))
      | with_reducible apply countWindow_within (hW.of (by decide))
      | with_reducible apply leaveKml_within (hW.of (by decide))
      | with_reducible apply addCtx_within (hW.of (by decide))
      | with_reducible apply putLevels_within (hW.of (by decide))
      | with_reducible refine Within.ite (fun _ => ?_) (fun _ => ?_)
      | with_reducible refine Within.foldl ?_ (fun t x ht => ?_)
      | (intro c hc; first | exact hc | (simp; done) | (simpa using hc))
      | extract_lets
      | split
      | dsimp only
      | ((with_reducible refine Within.mk_same rfl ?_ ?_); (intro p hn; cases p <;> first | rfl | exact absurd (hW.use (by decide)) hn))
  clear_value s3
  repeat' first
    | with_reducible assumption
    | with_reducible apply cancOutput_within (hW.of (by decide))
    | with_reducible apply kmlSig_within (hW.of (by decide))
    | with_reducible apply kmlRelease_within (hW.of (by decide))
    | with_reducible apply countWindow_within (hW.of (by decide))
    | with_reducible apply leaveKml_within (hW.of (by decide))
    | with_reducible apply addCtx_within (hW.of (by decide))
    | with_reducible apply putLevels_within (hW.of (by decide))
    | with_reducible refine Within.ite (fun _ => ?_) (fun _ => ?_)
    | with_reducible refine Within.foldl ?_ (fun t x ht => ?_)
    | (intro c hc; first | exact hc | (simp; done) | (simpa using hc))
    | extract_lets
    | split
    | dsimp only
    | ((with_reducible refine Within.mk_same rfl ?_ ?_); (intro p hn; cases p <;> first | rfl | exact absurd (hW.use (by decide)) hn))

theorem bypassRelease_within (hW : Sub [.core, .kml, .regs] Ω) {k : Nat} {node : Nat} {c : CancSt} (h : Within Ω a s) : Within Ω a (bypassRelease k node c s) := by
  unfold bypassRelease
  repeat' first
    | with_reducible assumption
    | refine addBull_within_pair (hW.of (by decide)) (by assumption) ?_
    | with_reducible apply addBull_within (hW.of (by decide))
    | with_reducible apply kmlSig_within (hW.of (by decide))
    | with_reducible apply leaveKml_within (hW.of (by decide))
    | with_reducible apply addCtx_within (hW.of (by decide))
    | with_reducible apply putCtx_within (hW.of (by decide))
    | with_reducible refine Within.ite (fun _ => ?_) (fun _ => ?_)
    | with_reducible refine Within.foldl ?_ (fun t x ht => ?_)
    | (intro c hc; first | exact hc | (simp; done) | (simpa using hc))
    | extract_lets
    | split
    | dsimp only
    | ((with_reducible refine Within.mk_same rfl ?_ ?_); (intro p hn; cases p <;> first | rfl | exact absurd (hW.use (by decide)) hn))

theorem cancellerRun_within (hW : Sub [.bull, .clk, .clu, .core, .free, .gh, .hbm, .hif, .kml, .mq, .out, .pmu, .regs, .seed, .time, .txHold, .ump] Ω) {bypass : Bool} {k : Nat} {node : Nat} (h : Within Ω a s) : Within Ω a (cancellerRun bypass k node s) := by
  unfold cancellerRun
  repeat' first
    | with_reducible assumption
    | with_reducible apply bypassRelease_within (hW.of (by decide))
    | refine cancStart_within_pair (hW.of (by decide)) (by assumption) ?_
    | with_reducible apply cancStart_within (hW.of (by decide))
    | refine popWindow_within_pair (hW.of (by decide)) (by assumption) ?_
    | with_reducible apply popWindow_within (hW.of (by decide))
    | with_reducible apply leaveKml_within (hW.of (by decide))
    | with_reducible apply addCtx_within (hW.of (by decide))
    | with_reducible apply kmlSig_within (hW.of (by decide))
    | with_reducible apply kmlFault_within (hW.of (by decide))
    | with_reducible apply bypassRun_within (hW.of (by decide))
    | with_reducible apply cancRun_within (hW.of (by decide))
    | with_reducible refine Within.ite (fun _ => ?_) (fun _ => ?_)
    | with_reducible refine Within.foldl ?_ (fun t x ht => ?_)
    | (intro c hc; first | exact hc | (simp; done) | (simpa using hc))
    | extract_lets
    | split
    | dsimp only
    | ((with_reducible refine Within.mk_same rfl ?_ ?_); (intro p hn; cases p <;> first | rfl | exact absurd (hW.use (by decide)) hn))

theorem putEvent_within (hW : Sub [.core] Ω) {k : Nat} {e : Nat × DetEvent} (h : Within Ω a s) : Within Ω a (putEvent k e s) := by
  unfold putEvent
  repeat' first
    | with_reducible assumption
    | with_reducible apply addCtx_within (hW.of (by decide))
    | with_reducible apply putCtx_within (hW.of (by decide))
    | with_reducible refine Within.ite (fun _ => ?_) (fun _ => ?_)
    | with_reducible refine Within.foldl ?_ (fun t x ht => ?_)
    | (intro c hc; first | exact hc | (simp; done) | (simpa using hc))
    | extract_lets
    | split
    | dsimp only
    | ((with_reducible refine Within.mk_same rfl ?_ ?_); (intro p hn; cases p <;> first | rfl | exact absurd (hW.use (by decide)) hn))

theorem putChan_within (hW : Sub [.core] Ω) {k : Nat} {n : Nat} {xs : List Int} {es : List (Nat × DetEvent)} {old : DetSt} {d : DetSt} {ch : Nat} (h : Within Ω a s) : Within Ω a (putChan k n xs es old d ch s) := by
  unfold putChan
  extract_lets v1 v2 v3 v4 v5 v6 v7 v8 s1 s2 s3 s4
  have h1 : Within Ω a s1 := by
    unfold s1
    repeat' first
      | with_reducible assumption
      | with_reducible apply putCtx_within (hW.of (by decide))
      | with_reducible apply addCtx_within (hW.of (by decide))
      | with_reducible refine Within.ite (fun _ => ?_) (fun _ => ?_)
      | with_reducible refine Within.foldl ?_ (fun t x ht => ?_)
      | (intro c hc; first | exact hc | (simp; done) | (simpa using hc))
      | extract_lets
      | split
      | dsimp only
      | ((with_reducible refine Within.mk_same rfl ?_ ?_); (intro p hn; cases p <;> first | rfl | exact absurd (hW.use (by decide)) hn))
  clear_value s1
  have h2 : Within Ω a s2 := by
    unfold s2
    repeat' first
      | with_reducible assumption
      | with_reducible apply putCtx_within (hW.of (by decide))
      | with_reducible apply addCtx_within (hW.of (by decide))
      | with_reducible refine Within.ite (fun _ => ?_) (fun _ => ?_)
      | with_reducible refine Within.foldl ?_ (fun t x ht => ?_)
      | (intro c hc; first | exact hc | (simp; done) | (simpa using hc))
      | extract_lets
      | split
      | dsimp only
      | ((with_reducible refine Within.mk_same rfl ?_ ?_); (intro p hn; cases p <;> first | rfl | exact absurd (hW.use (by decide)) hn))
  clear_value s2
  have h3 : Within Ω a s3 := by
    unfold s3
    repeat' first
      | with_reducible assumption
      | with_reducible apply putCtx_within (hW.of (by decide))
      | with_reducible apply addCtx_within (hW.of (by decide))
      | with_reducible refine Within.ite (fun _ => ?_) (fun _ => ?_)
      | with_reducible refine Within.foldl ?_ (fun t x ht => ?_)
      | (intro c hc; first | exact hc | (simp; done) | (simpa using hc))
      | extract_lets
      | split
      | dsimp only
      | ((with_reducible refine Within.mk_same rfl ?_ ?_); (intro p hn; cases p <;> first | rfl | exact absurd (hW.use (by decide)) hn))
  clear_value s3
  have h4 : Within Ω a s4 := by
    unfold s4
    repeat' first
      | with_reducible assumption
      | with_reducible apply putCtx_within (hW.of (by decide))
      | with_reducible apply addCtx_within (hW.of (by decide))
      | with_reducible refine Within.ite (fun _ => ?_) (fun _ => ?_)
      | with_reducible refine Within.foldl ?_ (fun t x ht => ?_)
      | (intro c hc; first | exact hc | (simp; done) | (simpa using hc))
      | extract_lets
      | split
      | dsimp only
      | ((with_reducible refine Within.mk_same rfl ?_ ?_); (intro p hn; cases p <;> first | rfl | exact absurd (hW.use (by decide)) hn))
  clear_value s4
  repeat' first
    | with_reducible assumption
    | with_reducible apply putCtx_within (hW.of (by decide))
    | with_reducible apply addCtx_within (hW.of (by decide))
    | with_reducible refine Within.ite (fun _ => ?_) (fun _ => ?_)
    | with_reducible refine Within.foldl ?_ (fun t x ht => ?_)
    | (intro c hc; first | exact hc | (simp; done) | (simpa using hc))
    | extract_lets
    | split
    | dsimp only
    | ((with_reducible refine Within.mk_same rfl ?_ ?_); (intro p hn; cases p <;> first | rfl | exact absurd (hW.use (by decide)) hn))

theorem detectorRun_within (hW : Sub [.bull, .clk, .clu, .core, .free, .gh, .hbm, .hif, .kml, .mq, .out, .pmu, .regs, .seed, .time, .txHold, .ump] Ω) {k : Nat} {node : Nat} (h : Within Ω a s) : Within Ω a (detectorRun k node s) := by
  unfold detectorRun
  repeat' first
    | with_reducible assumption
    | refine kmlPop_within_pair (hW.of (by decide)) (by assumption) ?_
    | with_reducible apply kmlPop_within (hW.of (by decide))
    | with_reducible apply kmlFault_within (hW.of (by decide))
    | with_reducible apply kmlFree_within (hW.of (by decide))
    | with_reducible apply addCtx_within (hW.of (by decide))
    | with_reducible apply putCtx_within (hW.of (by decide))
    | with_reducible apply putEvent_within (hW.of (by decide))
    | with_reducible apply putChan_within (hW.of (by decide))
    | with_reducible apply kmlSig_within (hW.of (by decide))
    | with_reducible apply leaveKml_within (hW.of (by decide))
    | with_reducible refine Within.ite (fun _ => ?_) (fun _ => ?_)
    | with_reducible refine Within.foldl ?_ (fun t x ht => ?_)
    | (intro c hc; first | exact hc | (simp; done) | (simpa using hc))
    | extract_lets
    | split
    | dsimp only
    | ((with_reducible refine Within.mk_same rfl ?_ ?_); (intro p hn; cases p <;> first | rfl | exact absurd (hW.use (by decide)) hn))

theorem freeNotice_within (hW : Sub [.core, .regs] Ω) {k : Nat} {n : Notice} (h : Within Ω a s) : Within Ω a (freeNotice k n s) := by
  unfold freeNotice
  repeat' first
    | with_reducible assumption
    | with_reducible apply kmlFree_within (hW.of (by decide))
    | with_reducible refine Within.ite (fun _ => ?_) (fun _ => ?_)
    | with_reducible refine Within.foldl ?_ (fun t x ht => ?_)
    | (intro c hc; first | exact hc | (simp; done) | (simpa using hc))
    | extract_lets
    | split
    | dsimp only
    | ((with_reducible refine Within.mk_same rfl ?_ ?_); (intro p hn; cases p <;> first | rfl | exact absurd (hW.use (by decide)) hn))

theorem sortNotice_within (hW : Sub [.core, .regs] Ω) {k : Nat} {n : Notice} {g : Sorted} (h : Within Ω a s) : Within Ω a (sortNotice k n g s).2 := by
  unfold sortNotice
  repeat' first
    | with_reducible assumption
    | with_reducible apply freeNotice_within (hW.of (by decide))
    | with_reducible refine Within.ite (fun _ => ?_) (fun _ => ?_)
    | with_reducible refine Within.foldl ?_ (fun t x ht => ?_)
    | (intro c hc; first | exact hc | (simp; done) | (simpa using hc))
    | extract_lets
    | split
    | dsimp only
    | ((with_reducible refine Within.mk_same rfl ?_ ?_); (intro p hn; cases p <;> first | rfl | exact absurd (hW.use (by decide)) hn))

theorem sortNotice_within_pair (hW : Sub [.core, .regs] Ω) {k : Nat} {n : Notice} {g : Sorted} {y0} {t} (e : sortNotice k n g s = (y0, t)) (h : Within Ω a s) : Within Ω a t := by
  have := sortNotice_within (hW.of (by decide)) (k := k) (n := n) (g := g) h; rwa [e] at this

theorem sortNotices_within (hW : Sub [.core, .regs] Ω) {k : Nat} {ns : List Notice} {g : Sorted} (h : Within Ω a s) : Within Ω a (sortNotices k ns g s).2 := by
  induction ns generalizing g s with
  | nil => exact h
  | cons n ns ih => unfold sortNotices; exact ih (sortNotice_within (hW.of (by decide)) h)

theorem popNotices_within (hW : Sub [.core, .free, .hif, .mq, .out, .pmu, .regs] Ω) {k : Nat} {q : Nat} {used : List Nat} {x0 : Nat} {x1 : Sorted} (h : Within Ω a s) : Within Ω a (popNotices k q used x0 x1 s).2 := by
  induction x0 generalizing x1 s with
  | zero => exact h
  | succ n ih =>
    unfold popNotices
    split
    · exact h
    · split
      · next e => exact kmlPop_within_pair (hW.of (by decide)) e h
      · next e => exact ih (sortNotice_within (hW.of (by decide)) (kmlPop_within_pair (hW.of (by decide)) e h))

theorem popNotices_within_pair (hW : Sub [.core, .free, .hif, .mq, .out, .pmu, .regs] Ω) {k : Nat} {q : Nat} {used : List Nat} {x0 : Nat} {x1 : Sorted} {y0} {t} (e : popNotices k q used x0 x1 s = (y0, t)) (h : Within Ω a s) : Within Ω a t := by
  have := popNotices_within (hW.of (by decide)) (k := k) (q := q) (used := used) (x0 := x0) (x1 := x1) h; rwa [e] at this

theorem gatherNotices_within (hW : Sub [.core, .free, .hif, .mq, .out, .pmu, .regs] Ω) {k : Nat} {m : MixSt} {r : MixRec} (h : Within Ω a s) : Within Ω a (gatherNotices k m r s).2 := by
  unfold gatherNotices
  extract_lets
  split
  · exact popNotices_within (hW.of (by decide)) (sortNotices_within (hW.of (by decide)) h)
  · split
    · next e => exact kmlPop_within_pair (hW.of (by decide)) e h
    · next e => exact popNotices_within (hW.of (by decide)) (sortNotices_within (hW.of (by decide)) (sortNotice_within (hW.of (by decide)) (kmlPop_within_pair (hW.of (by decide)) e h)))

theorem gatherNotices_within_pair (hW : Sub [.core, .free, .hif, .mq, .out, .pmu, .regs] Ω) {k : Nat} {m : MixSt} {r : MixRec} {y0} {t} (e : gatherNotices k m r s = (y0, t)) (h : Within Ω a s) : Within Ω a t := by
  have := gatherNotices_within (hW.of (by decide)) (k := k) (m := m) (r := r) h; rwa [e] at this

theorem popControls_within (hW : Sub [.core, .free, .hif, .mq, .out, .pmu, .regs] Ω) {k : Nat} {q : Nat} {key : Nat} {block : Nat} {x0 : Nat} (h : Within Ω a s) : Within Ω a (popControls k q key block x0 s).2 := by
  induction x0 generalizing s with
  | zero =>
    unfold popControls
    repeat' first
      | with_reducible assumption
      | refine kmlPop_within_pair (hW.of (by decide)) (by assumption) ?_
      | with_reducible apply kmlPop_within (hW.of (by decide))
      | with_reducible refine Within.ite (fun _ => ?_) (fun _ => ?_)
      | with_reducible refine Within.foldl ?_ (fun t x ht => ?_)
      | (intro c hc; first | exact hc | (simp; done) | (simpa using hc))
      | extract_lets
      | split
      | dsimp only
      | ((with_reducible refine Within.mk_same rfl ?_ ?_); (intro p hn; cases p <;> first | rfl | exact absurd (hW.use (by decide)) hn))
  | succ n ih =>
    unfold popControls
    repeat' first
      | with_reducible apply ih
      | with_reducible assumption
      | refine kmlPop_within_pair (hW.of (by decide)) (by assumption) ?_
      | with_reducible apply kmlPop_within (hW.of (by decide))
      | with_reducible refine Within.ite (fun _ => ?_) (fun _ => ?_)
      | with_reducible refine Within.foldl ?_ (fun t x ht => ?_)
      | (intro c hc; first | exact hc | (simp; done) | (simpa using hc))
      | extract_lets
      | split
      | dsimp only
      | ((with_reducible refine Within.mk_same rfl ?_ ?_); (intro p hn; cases p <;> first | rfl | exact absurd (hW.use (by decide)) hn))

theorem popControls_within_pair (hW : Sub [.core, .free, .hif, .mq, .out, .pmu, .regs] Ω) {k : Nat} {q : Nat} {key : Nat} {block : Nat} {x0 : Nat} {y0} {t} (e : popControls k q key block x0 s = (y0, t)) (h : Within Ω a s) : Within Ω a t := by
  have := popControls_within (hW.of (by decide)) (k := k) (q := q) (key := key) (block := block) (x0 := x0) h; rwa [e] at this

theorem mixFlow_within (hW : Sub [.core, .free, .hbm, .hif, .out, .pmu, .regs, .seed, .ump] Ω) {k : Nat} {key : Nat} {r : MixRec} {xs : List Int} (h : Within Ω a s) : Within Ω a (mixFlow k key r xs s) := by
  unfold mixFlow
  repeat' first
    | with_reducible assumption
    | refine addAlloc_within_pair (hW.of (by decide)) (by assumption) ?_
    | with_reducible apply addAlloc_within (hW.of (by decide))
    | refine addPush_within_pair (hW.of (by decide)) (by assumption) ?_
    | with_reducible apply addPush_within (hW.of (by decide))
    | with_reducible apply bufWrite_within (hW.of (by decide))
    | with_reducible refine Within.ite (fun _ => ?_) (fun _ => ?_)
    | with_reducible refine Within.foldl ?_ (fun t x ht => ?_)
    | (intro c hc; first | exact hc | (simp; done) | (simpa using hc))
    | extract_lets
    | split
    | dsimp only
    | ((with_reducible refine Within.mk_same rfl ?_ ?_); (intro p hn; cases p <;> first | rfl | exact absurd (hW.use (by decide)) hn))

theorem mixBlocks_within (hW : Sub [.core, .free, .hbm, .hif, .out, .pmu, .regs, .seed, .ump] Ω) {k : Nat} {key : Nat} {xs : List Int} (h : Within Ω a s) : Within Ω a (mixBlocks k key xs s) := by
  unfold mixBlocks
  repeat' first
    | with_reducible assumption
    | refine kmlGive_within_pair (hW.of (by decide)) (by assumption) ?_
    | with_reducible apply kmlGive_within (hW.of (by decide))
    | with_reducible apply kmlSig_within (hW.of (by decide))
    | refine addPush_within_pair (hW.of (by decide)) (by assumption) ?_
    | with_reducible apply addPush_within (hW.of (by decide))
    | with_reducible refine Within.ite (fun _ => ?_) (fun _ => ?_)
    | with_reducible refine Within.foldl ?_ (fun t x ht => ?_)
    | (intro c hc; first | exact hc | (simp; done) | (simpa using hc))
    | extract_lets
    | split
    | dsimp only
    | ((with_reducible refine Within.mk_same rfl ?_ ?_); (intro p hn; cases p <;> first | rfl | exact absurd (hW.use (by decide)) hn))

theorem mixResult_within (hW : Sub [.core] Ω) {k : Nat} {key : Nat} {missing : Nat} {g : Sorted} {cs : List Control} {m : Mixed} {count : Nat} {fading : Nat} (h : Within Ω a s) : Within Ω a (mixResult k key missing g cs m count fading s) := by
  unfold mixResult
  extract_lets s1 s2 s3 s4
  have h1 : Within Ω a s1 := by
    unfold s1
    repeat' first
      | with_reducible assumption
      | with_reducible apply putCtx_within (hW.of (by decide))
      | with_reducible apply addCtx_within (hW.of (by decide))
      | with_reducible refine Within.ite (fun _ => ?_) (fun _ => ?_)
      | with_reducible refine Within.foldl ?_ (fun t x ht => ?_)
      | (intro c hc; first | exact hc | (simp; done) | (simpa using hc))
      | extract_lets
      | split
      | dsimp only
      | ((with_reducible refine Within.mk_same rfl ?_ ?_); (intro p hn; cases p <;> first | rfl | exact absurd (hW.use (by decide)) hn))
  clear_value s1
  have h2 : Within Ω a s2 := by
    unfold s2
    repeat' first
      | with_reducible assumption
      | with_reducible apply putCtx_within (hW.of (by decide))
      | with_reducible apply addCtx_within (hW.of (by decide))
      | with_reducible refine Within.ite (fun _ => ?_) (fun _ => ?_)
      | with_reducible refine Within.foldl ?_ (fun t x ht => ?_)
      | (intro c hc; first | exact hc | (simp; done) | (simpa using hc))
      | extract_lets
      | split
      | dsimp only
      | ((with_reducible refine Within.mk_same rfl ?_ ?_); (intro p hn; cases p <;> first | rfl | exact absurd (hW.use (by decide)) hn))
  clear_value s2
  have h3 : Within Ω a s3 := by
    unfold s3
    repeat' first
      | with_reducible assumption
      | with_reducible apply putCtx_within (hW.of (by decide))
      | with_reducible apply addCtx_within (hW.of (by decide))
      | with_reducible refine Within.ite (fun _ => ?_) (fun _ => ?_)
      | with_reducible refine Within.foldl ?_ (fun t x ht => ?_)
      | (intro c hc; first | exact hc | (simp; done) | (simpa using hc))
      | extract_lets
      | split
      | dsimp only
      | ((with_reducible refine Within.mk_same rfl ?_ ?_); (intro p hn; cases p <;> first | rfl | exact absurd (hW.use (by decide)) hn))
  clear_value s3
  have h4 : Within Ω a s4 := by
    unfold s4
    repeat' first
      | with_reducible assumption
      | with_reducible apply putCtx_within (hW.of (by decide))
      | with_reducible apply addCtx_within (hW.of (by decide))
      | with_reducible refine Within.ite (fun _ => ?_) (fun _ => ?_)
      | with_reducible refine Within.foldl ?_ (fun t x ht => ?_)
      | (intro c hc; first | exact hc | (simp; done) | (simpa using hc))
      | extract_lets
      | split
      | dsimp only
      | ((with_reducible refine Within.mk_same rfl ?_ ?_); (intro p hn; cases p <;> first | rfl | exact absurd (hW.use (by decide)) hn))
  clear_value s4
  repeat' first
    | with_reducible assumption
    | with_reducible apply putCtx_within (hW.of (by decide))
    | with_reducible apply addCtx_within (hW.of (by decide))
    | with_reducible refine Within.ite (fun _ => ?_) (fun _ => ?_)
    | with_reducible refine Within.foldl ?_ (fun t x ht => ?_)
    | (intro c hc; first | exact hc | (simp; done) | (simpa using hc))
    | extract_lets
    | split
    | dsimp only
    | ((with_reducible refine Within.mk_same rfl ?_ ?_); (intro p hn; cases p <;> first | rfl | exact absurd (hW.use (by decide)) hn))

theorem mixKeyed_within (hW : Sub [.core, .free, .hbm, .hif, .kml, .mq, .out, .pmu, .regs, .seed, .ump] Ω) {k : Nat} {key : Nat} {r : MixRec} {m : MixSt} {g : Sorted} (h : Within Ω a s) : Within Ω a (mixKeyed k key r m g s) := by
  unfold mixKeyed
  repeat' first
    | with_reducible assumption
    | refine popControls_within_pair (hW.of (by decide)) (by assumption) ?_
    | with_reducible apply popControls_within (hW.of (by decide))
    | with_reducible apply mixFlow_within (hW.of (by decide))
    | with_reducible apply mixBlocks_within (hW.of (by decide))
    | with_reducible apply freeNotice_within (hW.of (by decide))
    | with_reducible apply mixResult_within (hW.of (by decide))
    | with_reducible apply leaveKml_within (hW.of (by decide))
    | with_reducible refine Within.ite (fun _ => ?_) (fun _ => ?_)
    | with_reducible refine Within.foldl ?_ (fun t x ht => ?_)
    | (intro c hc; first | exact hc | (simp; done) | (simpa using hc))
    | extract_lets
    | split
    | dsimp only
    | ((with_reducible refine Within.mk_same rfl ?_ ?_); (intro p hn; cases p <;> first | rfl | exact absurd (hW.use (by decide)) hn))

theorem mixerRun_within (hW : Sub [.bull, .clk, .clu, .core, .free, .gh, .hbm, .hif, .kml, .mq, .out, .pmu, .regs, .seed, .time, .txHold, .ump] Ω) {k : Nat} {node : Nat} (h : Within Ω a s) : Within Ω a (mixerRun k node s) := by
  unfold mixerRun
  repeat' first
    | with_reducible assumption
    | refine gatherNotices_within_pair (hW.of (by decide)) (by assumption) ?_
    | with_reducible apply gatherNotices_within (hW.of (by decide))
    | with_reducible apply kmlFault_within (hW.of (by decide))
    | with_reducible apply leaveKml_within (hW.of (by decide))
    | with_reducible apply addCtx_within (hW.of (by decide))
    | with_reducible apply mixKeyed_within (hW.of (by decide))
    | with_reducible refine Within.ite (fun _ => ?_) (fun _ => ?_)
    | with_reducible refine Within.foldl ?_ (fun t x ht => ?_)
    | (intro c hc; first | exact hc | (simp; done) | (simpa using hc))
    | extract_lets
    | split
    | dsimp only
    | ((with_reducible refine Within.mk_same rfl ?_ ?_); (intro p hn; cases p <;> first | rfl | exact absurd (hW.use (by decide)) hn))

theorem freeInput_within (hW : Sub [.core, .regs] Ω) {k : Nat} {e : Entry} (h : Within Ω a s) : Within Ω a (freeInput k e s) := by
  unfold freeInput
  repeat' first
    | with_reducible assumption
    | with_reducible apply kmlFree_within (hW.of (by decide))
    | with_reducible refine Within.ite (fun _ => ?_) (fun _ => ?_)
    | with_reducible refine Within.foldl ?_ (fun t x ht => ?_)
    | (intro c hc; first | exact hc | (simp; done) | (simpa using hc))
    | extract_lets
    | split
    | dsimp only
    | ((with_reducible refine Within.mk_same rfl ?_ ?_); (intro p hn; cases p <;> first | rfl | exact absurd (hW.use (by decide)) hn))

theorem takeInput_within (hW : Sub [.core, .regs] Ω) {r : CodecRec} {k : Nat} {e : Entry} {g : Gathered} (h : Within Ω a s) : Within Ω a (takeInput r k e g s).2 := by
  unfold takeInput
  repeat' first
    | with_reducible assumption
    | with_reducible apply freeInput_within (hW.of (by decide))
    | with_reducible refine Within.ite (fun _ => ?_) (fun _ => ?_)
    | with_reducible refine Within.foldl ?_ (fun t x ht => ?_)
    | (intro c hc; first | exact hc | (simp; done) | (simpa using hc))
    | extract_lets
    | split
    | dsimp only
    | ((with_reducible refine Within.mk_same rfl ?_ ?_); (intro p hn; cases p <;> first | rfl | exact absurd (hW.use (by decide)) hn))

theorem takeInput_within_pair (hW : Sub [.core, .regs] Ω) {r : CodecRec} {k : Nat} {e : Entry} {g : Gathered} {y0} {t} (eqn : takeInput r k e g s = (y0, t)) (h : Within Ω a s) : Within Ω a t := by
  have := takeInput_within (hW.of (by decide)) (r := r) (k := k) (e := e) (g := g) h; rwa [eqn] at this

theorem popInputs_within (hW : Sub [.core, .free, .hif, .mq, .out, .pmu, .regs] Ω) {r : CodecRec} {k : Nat} {q : Nat} {x0 : Nat} {x1 : Gathered} (h : Within Ω a s) : Within Ω a (popInputs r k q x0 x1 s).2 := by
  induction x0 generalizing x1 s with
  | zero =>
    unfold popInputs
    repeat' first
      | with_reducible assumption
      | refine kmlPop_within_pair (hW.of (by decide)) (by assumption) ?_
      | with_reducible apply kmlPop_within (hW.of (by decide))
      | refine takeInput_within_pair (hW.of (by decide)) (by assumption) ?_
      | with_reducible apply takeInput_within (hW.of (by decide))
      | with_reducible refine Within.ite (fun _ => ?_) (fun _ => ?_)
      | with_reducible refine Within.foldl ?_ (fun t x ht => ?_)
      | (intro c hc; first | exact hc | (simp; done) | (simpa using hc))
      | extract_lets
      | split
      | dsimp only
      | ((with_reducible refine Within.mk_same rfl ?_ ?_); (intro p hn; cases p <;> first | rfl | exact absurd (hW.use (by decide)) hn))
  | succ n ih =>
    unfold popInputs
    repeat' first
      | with_reducible apply ih
      | with_reducible assumption
      | refine kmlPop_within_pair (hW.of (by decide)) (by assumption) ?_
      | with_reducible apply kmlPop_within (hW.of (by decide))
      | refine takeInput_within_pair (hW.of (by decide)) (by assumption) ?_
      | with_reducible apply takeInput_within (hW.of (by decide))
      | with_reducible refine Within.ite (fun _ => ?_) (fun _ => ?_)
      | with_reducible refine Within.foldl ?_ (fun t x ht => ?_)
      | (intro c hc; first | exact hc | (simp; done) | (simpa using hc))
      | extract_lets
      | split
      | dsimp only
      | ((with_reducible refine Within.mk_same rfl ?_ ?_); (intro p hn; cases p <;> first | rfl | exact absurd (hW.use (by decide)) hn))

theorem popInputs_within_pair (hW : Sub [.core, .free, .hif, .mq, .out, .pmu, .regs] Ω) {r : CodecRec} {k : Nat} {q : Nat} {x0 : Nat} {x1 : Gathered} {y0} {t} (e : popInputs r k q x0 x1 s = (y0, t)) (h : Within Ω a s) : Within Ω a t := by
  have := popInputs_within (hW.of (by decide)) (r := r) (k := k) (q := q) (x0 := x0) (x1 := x1) h; rwa [e] at this

theorem sendEncoded_within (hW : Sub [.core, .free, .hbm, .hif, .out, .pmu, .regs, .seed, .ump] Ω) {k : Nat} {key : Nat} {bs : List Byte} (h : Within Ω a s) : Within Ω a (sendEncoded k key bs s) := by
  unfold sendEncoded
  repeat' first
    | with_reducible assumption
    | refine addAlloc_within_pair (hW.of (by decide)) (by assumption) ?_
    | with_reducible apply addAlloc_within (hW.of (by decide))
    | refine addPush_within_pair (hW.of (by decide)) (by assumption) ?_
    | with_reducible apply addPush_within (hW.of (by decide))
    | with_reducible apply bufWrite_within (hW.of (by decide))
    | with_reducible refine Within.ite (fun _ => ?_) (fun _ => ?_)
    | with_reducible refine Within.foldl ?_ (fun t x ht => ?_)
    | (intro c hc; first | exact hc | (simp; done) | (simpa using hc))
    | extract_lets
    | split
    | dsimp only
    | ((with_reducible refine Within.mk_same rfl ?_ ?_); (intro p hn; cases p <;> first | rfl | exact absurd (hW.use (by decide)) hn))

theorem encoderRun_within (hW : Sub [.bull, .clk, .clu, .core, .free, .gh, .hbm, .hif, .kml, .mq, .out, .pmu, .regs, .seed, .time, .txHold, .ump] Ω) {k : Nat} {node : Nat} (h : Within Ω a s) : Within Ω a (encoderRun k node s) := by
  unfold encoderRun
  repeat' first
    | with_reducible assumption
    | refine popInputs_within_pair (hW.of (by decide)) (by assumption) ?_
    | with_reducible apply popInputs_within (hW.of (by decide))
    | with_reducible apply kmlFault_within (hW.of (by decide))
    | with_reducible apply addCtx_within (hW.of (by decide))
    | with_reducible apply sendEncoded_within (hW.of (by decide))
    | with_reducible apply leaveKml_within (hW.of (by decide))
    | with_reducible refine Within.ite (fun _ => ?_) (fun _ => ?_)
    | with_reducible refine Within.foldl ?_ (fun t x ht => ?_)
    | (intro c hc; first | exact hc | (simp; done) | (simpa using hc))
    | extract_lets
    | split
    | dsimp only
    | ((with_reducible refine Within.mk_same rfl ?_ ?_); (intro p hn; cases p <;> first | rfl | exact absurd (hW.use (by decide)) hn))

theorem popPacket_within (hW : Sub [.core, .free, .hif, .mq, .out, .pmu, .regs] Ω) {k : Nat} {q : Nat} {next : Option Nat} {x0 : Nat} (h : Within Ω a s) : Within Ω a (popPacket k q next x0 s).2 := by
  induction x0 generalizing s with
  | zero =>
    unfold popPacket
    repeat' first
      | with_reducible assumption
      | refine kmlPop_within_pair (hW.of (by decide)) (by assumption) ?_
      | with_reducible apply kmlPop_within (hW.of (by decide))
      | with_reducible apply kmlRelease_within (hW.of (by decide))
      | with_reducible refine Within.ite (fun _ => ?_) (fun _ => ?_)
      | with_reducible refine Within.foldl ?_ (fun t x ht => ?_)
      | (intro c hc; first | exact hc | (simp; done) | (simpa using hc))
      | extract_lets
      | split
      | dsimp only
      | ((with_reducible refine Within.mk_same rfl ?_ ?_); (intro p hn; cases p <;> first | rfl | exact absurd (hW.use (by decide)) hn))
  | succ n ih =>
    unfold popPacket
    repeat' first
      | with_reducible apply ih
      | with_reducible assumption
      | refine kmlPop_within_pair (hW.of (by decide)) (by assumption) ?_
      | with_reducible apply kmlPop_within (hW.of (by decide))
      | with_reducible apply kmlRelease_within (hW.of (by decide))
      | with_reducible refine Within.ite (fun _ => ?_) (fun _ => ?_)
      | with_reducible refine Within.foldl ?_ (fun t x ht => ?_)
      | (intro c hc; first | exact hc | (simp; done) | (simpa using hc))
      | extract_lets
      | split
      | dsimp only
      | ((with_reducible refine Within.mk_same rfl ?_ ?_); (intro p hn; cases p <;> first | rfl | exact absurd (hW.use (by decide)) hn))

theorem popPacket_within_pair (hW : Sub [.core, .free, .hif, .mq, .out, .pmu, .regs] Ω) {k : Nat} {q : Nat} {next : Option Nat} {x0 : Nat} {y0} {t} (e : popPacket k q next x0 s = (y0, t)) (h : Within Ω a s) : Within Ω a t := by
  have := popPacket_within (hW.of (by decide)) (k := k) (q := q) (next := next) (x0 := x0) h; rwa [e] at this

theorem giveDecoded_within (hW : Sub [.core, .free, .hbm, .hif, .out, .pmu, .regs, .seed, .ump] Ω) {k : Nat} {key : Nat} {xs : List Int} (h : Within Ω a s) : Within Ω a (giveDecoded k key xs s) := by
  unfold giveDecoded
  repeat' first
    | with_reducible assumption
    | refine kmlGive_within_pair (hW.of (by decide)) (by assumption) ?_
    | with_reducible apply kmlGive_within (hW.of (by decide))
    | refine addPush_within_pair (hW.of (by decide)) (by assumption) ?_
    | with_reducible apply addPush_within (hW.of (by decide))
    | with_reducible refine Within.ite (fun _ => ?_) (fun _ => ?_)
    | with_reducible refine Within.foldl ?_ (fun t x ht => ?_)
    | (intro c hc; first | exact hc | (simp; done) | (simpa using hc))
    | extract_lets
    | split
    | dsimp only
    | ((with_reducible refine Within.mk_same rfl ?_ ?_); (intro p hn; cases p <;> first | rfl | exact absurd (hW.use (by decide)) hn))

theorem decodeRun_within (hW : Sub [.core, .free, .hbm, .hif, .kml, .out, .pmu, .regs, .seed, .ump] Ω) {k : Nat} {r : CodecRec} {c : CodecSt} {got : Option Entry} (h : Within Ω a s) : Within Ω a (decodeRun k r c got s) := by
  unfold decodeRun
  extract_lets good s1 s2
  have h1 : Within Ω a s1 := by
    unfold s1
    split
    · exact kmlRelease_within (hW.of (by decide)) h
    · exact h
  clear_value s1
  have h2 : Within Ω a s2 := by
    unfold s2
    refine addCtx_within (hW.of (by decide)) (Within.ite (fun _ => addCtx_within (hW.of (by decide)) h1) (fun _ => addCtx_within (hW.of (by decide)) h1))
  clear_value s2
  split
  · exact leaveKml_within (hW.of (by decide)) (giveDecoded_within (hW.of (by decide)) h2)
  · exact leaveKml_within (hW.of (by decide)) h2

theorem decoderRun_within (hW : Sub [.bull, .clk, .clu, .core, .free, .gh, .hbm, .hif, .kml, .mq, .out, .pmu, .regs, .seed, .time, .txHold, .ump] Ω) {k : Nat} {node : Nat} (h : Within Ω a s) : Within Ω a (decoderRun k node s) := by
  unfold decoderRun
  extract_lets _ _ x
  have hx : Within Ω a x.2 := popPacket_within (hW.of (by decide)) h
  clear_value x
  exact Within.ite (fun _ => kmlFault_within (hW.of (by decide)) hx) (fun _ => decodeRun_within (hW.of (by decide)) hx)

theorem kmlCounts_within (hW : Sub [.free, .hif, .out, .pmu, .regs] Ω) {k : Nat} (h : Within Ω a s) : Within Ω a (kmlCounts k s) := by
  unfold kmlCounts
  repeat' first
    | with_reducible assumption
    | with_reducible apply pmcAdd_within (hW.of (by decide))
    | refine State.draw_within_pair (hW.of (by decide)) (by assumption) ?_
    | with_reducible apply State.draw_within (hW.of (by decide))
    | with_reducible refine Within.ite (fun _ => ?_) (fun _ => ?_)
    | with_reducible refine Within.foldl ?_ (fun t x ht => ?_)
    | (intro c hc; first | exact hc | (simp; done) | (simpa using hc))
    | extract_lets
    | split
    | dsimp only
    | ((with_reducible refine Within.mk_same rfl ?_ ?_); (intro p hn; cases p <;> first | rfl | exact absurd (hW.use (by decide)) hn))

theorem kmlRun_within (hW : Sub [.bull, .clk, .clu, .core, .free, .gh, .hbm, .hif, .kml, .mq, .out, .pmu, .regs, .seed, .time, .txHold, .ump] Ω) {type : Nat} {k : Nat} {node : Nat} (h : Within Ω a s) : Within Ω a (kmlRun type k node s) := by
  unfold kmlRun
  split
  · exact cancellerRun_within (hW.of (by decide)) h
  · exact cancellerRun_within (hW.of (by decide)) h
  · exact detectorRun_within (hW.of (by decide)) h
  · exact mixerRun_within (hW.of (by decide)) h
  · exact encoderRun_within (hW.of (by decide)) h
  · exact decoderRun_within (hW.of (by decide)) h
  · exact h

theorem kmlStart_within (hW : Sub [.bull, .clk, .clu, .core, .free, .gh, .hbm, .hif, .kml, .mq, .out, .pmu, .regs, .seed, .time, .txHold, .ump] Ω) {k : Nat} (h : Within Ω a s) : Within Ω a (kmlStart k s) := by
  unfold kmlStart
  repeat' first
    | with_reducible assumption
    | with_reducible apply kmlFault_within (hW.of (by decide))
    | with_reducible apply kmlRun_within (hW.of (by decide))
    | with_reducible apply kmlCounts_within (hW.of (by decide))
    | with_reducible refine Within.ite (fun _ => ?_) (fun _ => ?_)
    | with_reducible refine Within.foldl ?_ (fun t x ht => ?_)
    | (intro c hc; first | exact hc | (simp; done) | (simpa using hc))
    | extract_lets
    | split
    | dsimp only
    | ((with_reducible refine Within.mk_same rfl ?_ ?_); (intro p hn; cases p <;> first | rfl | exact absurd (hW.use (by decide)) hn))

theorem withKml_within (hW : Sub [.bull, .clk, .clu, .core, .free, .gh, .hbm, .hif, .kml, .mq, .out, .pmu, .regs, .seed, .time, .txHold, .ump] Ω) {kml : Bool} {f : State → State} (h : Within Ω a (f s)) : Within Ω a (withKml kml f s) :=
  Within.ite (fun _ => Within.foldl h (fun _ _ ht => kmlStart_within (hW.of (by decide)) ht)) (fun _ => h)

end Sys2Proof.Machine
end

