-- ==== Sys2Proof/Laws/WithinFleet.lean ====
section
/-!
SUPPORT. Laws/WithinFleet.lean: which parts of the state every operation of the events of Bullpen, power and the KCI may change.
-/

namespace Sys2Proof.Machine

variable {Ω : Part → Prop} {a s : State}

theorem beat_within (hW : Sub [.bull, .clk, .clu, .gh, .hbm, .hif, .out, .pmu, .regs, .seed, .time, .txHold, .ump] Ω) {g : Nat} (h : Within Ω a s) : Within Ω a (beat g s) := by
  unfold beat
  repeat' first
    | with_reducible assumption
    | with_reducible apply advanceTo_within (hW.of (by decide))
    | with_reducible apply startBeat_within (hW.of (by decide))
    | with_reducible refine Within.ite (fun _ => ?_) (fun _ => ?_)

theorem execBeat_within (hW : Sub [.bull, .clk, .clu, .gh, .hbm, .hif, .out, .pmu, .regs, .seed, .time, .txHold, .ump] Ω) {g : Nat} (h : Within Ω a s) : WithinOut Ω a (execBeat g s) := by
  unfold execBeat
  repeat' first
    | with_reducible assumption
    | with_reducible apply beat_within (hW.of (by decide))
    | with_reducible apply WithinOut.next

theorem execBeatPosterResume_within (hW : Sub [.bull, .clk, .clu, .gh, .hbm, .hif, .out, .pmu, .regs, .seed, .time, .txHold, .ump] Ω) (h : Within Ω a s) : WithinOut Ω a (execBeatPosterResume s) := by
  unfold execBeatPosterResume
  repeat' first
    | with_reducible assumption
    | with_reducible apply postBeats_within (hW.of (by decide))
    | with_reducible refine Within.ite (fun _ => ?_) (fun _ => ?_)
    | with_reducible apply WithinOut.next

theorem beatWake_within (hW : Sub [.clk, .clu, .hbm, .hif, .out, .pmu, .regs, .seed, .time, .txHold, .ump] Ω) {g : Nat} (h : Within Ω a s) : Within Ω a (beatWake g s) := by
  unfold beatWake
  extract_lets v1 s1
  clear_value v1
  have h1 : Within Ω a s1 := by
    unfold s1
    repeat' first
      | with_reducible assumption
      | with_reducible apply advanceTo_within (hW.of (by decide))
  clear_value s1
  repeat' first
    | with_reducible assumption
    | with_reducible apply advanceTo_within (hW.of (by decide))
    | with_reducible apply wakeCluster_within (hW.of (by decide))
    | with_reducible refine Within.ite (fun _ => ?_) (fun _ => ?_)
    | with_reducible refine Within.foldl ?_ (fun t x ht => ?_)
    | extract_lets
    | split

theorem execBeatWakeLead_within (hW : Sub [.clk, .clu, .hbm, .hif, .out, .pmu, .regs, .seed, .time, .txHold, .ump] Ω) {g : Nat} (h : Within Ω a s) : WithinOut Ω a (execBeatWakeLead g s) := by
  unfold execBeatWakeLead
  repeat' first
    | with_reducible assumption
    | with_reducible apply beatWake_within (hW.of (by decide))
    | with_reducible apply WithinOut.next

theorem beatPrefetch_within (hW : Sub [.clk, .clu, .gh, .hbm, .hif, .out, .pmu, .regs, .seed, .time, .txHold, .ump] Ω) {g : Nat} (h : Within Ω a s) : Within Ω a (beatPrefetch g s) := by
  unfold beatPrefetch
  extract_lets v1 s1
  clear_value v1
  have h1 : Within Ω a s1 := by
    unfold s1
    repeat' first
      | with_reducible assumption
      | with_reducible apply advanceTo_within (hW.of (by decide))
  clear_value s1
  repeat' first
    | with_reducible assumption
    | with_reducible apply advanceTo_within (hW.of (by decide))
    | with_reducible apply prefetch_within (hW.of (by decide))
    | with_reducible refine Within.ite (fun _ => ?_) (fun _ => ?_)
    | with_reducible refine Within.foldl ?_ (fun t x ht => ?_)

theorem execPrefetchNotice_within (hW : Sub [.clk, .clu, .gh, .hbm, .hif, .out, .pmu, .regs, .seed, .time, .txHold, .ump] Ω) {g : Nat} (h : Within Ω a s) : WithinOut Ω a (execPrefetchNotice g s) := by
  unfold execPrefetchNotice
  repeat' first
    | with_reducible assumption
    | with_reducible apply beatPrefetch_within (hW.of (by decide))
    | with_reducible apply WithinOut.next

theorem timerDue_within (hW : Sub [.bull, .clk, .clu, .gh, .hbm, .hif, .out, .pmu, .regs, .seed, .time, .txHold, .ump] Ω) {id : Nat} (h : Within Ω a s) : Within Ω a (timerDue id s) := by
  unfold timerDue
  repeat' first
    | with_reducible assumption
    | with_reducible apply advanceTo_within (hW.of (by decide))
    | with_reducible apply fireTimer_within (hW.of (by decide))
    | with_reducible refine Within.ite (fun _ => ?_) (fun _ => ?_)
    | split

theorem execTimerFire_within (hW : Sub [.bull, .clk, .clu, .gh, .hbm, .hif, .out, .pmu, .regs, .seed, .time, .txHold, .ump] Ω) {timer : Nat} (h : Within Ω a s) : WithinOut Ω a (execTimerFire timer s) := by
  unfold execTimerFire
  repeat' first
    | with_reducible assumption
    | with_reducible apply timerDue_within (hW.of (by decide))
    | with_reducible apply WithinOut.next

theorem timerRelease_within (hW : Sub [.bull, .clk, .clu, .gh, .hbm, .hif, .out, .pmu, .regs, .seed, .time, .txHold, .ump] Ω) {list : Nat} (h : Within Ω a s) : Within Ω a (timerRelease list s) := by
  unfold timerRelease
  repeat' first
    | with_reducible assumption
    | with_reducible apply fireTimer_within (hW.of (by decide))
    | split

theorem execTimerHeldRelease_within (hW : Sub [.bull, .clk, .clu, .gh, .hbm, .hif, .out, .pmu, .regs, .seed, .time, .txHold, .ump] Ω) {list : Nat} (h : Within Ω a s) : WithinOut Ω a (execTimerHeldRelease list s) := by
  unfold execTimerHeldRelease
  repeat' first
    | with_reducible assumption
    | with_reducible apply timerRelease_within (hW.of (by decide))
    | with_reducible apply WithinOut.next

theorem timerLead_within (hW : Sub [.clk, .clu, .gh, .hbm, .hif, .out, .pmu, .regs, .seed, .time, .txHold, .ump] Ω) {id : Nat} (h : Within Ω a s) : Within Ω a (timerLead id s) := by
  unfold timerLead
  repeat' first
    | with_reducible assumption
    | with_reducible apply advanceTo_within (hW.of (by decide))
    | with_reducible apply prefetch_within (hW.of (by decide))
    | split

theorem execTimerPrefetchLead_within (hW : Sub [.clk, .clu, .gh, .hbm, .hif, .out, .pmu, .regs, .seed, .time, .txHold, .ump] Ω) {timer : Nat} (h : Within Ω a s) : WithinOut Ω a (execTimerPrefetchLead timer s) := by
  unfold execTimerPrefetchLead
  repeat' first
    | with_reducible assumption
    | with_reducible apply timerLead_within (hW.of (by decide))
    | with_reducible apply WithinOut.next

theorem execNodeDispatch_within (hW : Sub [.bull, .clk, .clu, .core, .free, .gh, .hbm, .hif, .kml, .mq, .out, .pmu, .regs, .seed, .time, .txHold, .ump] Ω) {cluster : Nat} {kml : Bool} (h : Within Ω a s) : WithinOut Ω a (execNodeDispatch cluster kml s) := by
  unfold execNodeDispatch
  repeat' first
    | with_reducible assumption
    | with_reducible apply withKml_within (hW.of (by decide))
    | with_reducible apply dispatchCluster_within (hW.of (by decide))
    | with_reducible refine Within.ite (fun _ => ?_) (fun _ => ?_)
    | with_reducible refine Within.foldl ?_ (fun t x ht => ?_)
    | (intro c hc; first | exact hc | (simp; done) | (simpa using hc))
    | with_reducible apply WithinOut.next
    | extract_lets
    | split
    | dsimp only

theorem stealAge_within (hW : Sub [.bull, .clk, .clu, .core, .free, .gh, .hbm, .hif, .out, .pmu, .regs, .seed, .time, .txHold, .ump] Ω) {n : Nat} (h : Within Ω a s) : Within Ω a (stealAge n s) := by
  unfold stealAge
  split
  · exact h
  split
  · exact h
  refine Within.ite (fun _ => h) (fun _ => ?_)
  dsimp only
  split
  · exact stealTo_within (hW.of (by decide)) (advanceSince_within (hW.of (by decide)) h)
  · exact advanceSince_within (hW.of (by decide)) h

theorem execStealAgeExpiry_within (hW : Sub [.bull, .clk, .clu, .core, .free, .gh, .hbm, .hif, .kml, .mq, .out, .pmu, .regs, .seed, .time, .txHold, .ump] Ω) {node : Nat} {kml : Bool} (h : Within Ω a s) : WithinOut Ω a (execStealAgeExpiry node kml s) := by
  unfold execStealAgeExpiry
  repeat' first
    | with_reducible assumption
    | with_reducible apply withKml_within (hW.of (by decide))
    | with_reducible apply stealAge_within (hW.of (by decide))
    | with_reducible refine Within.ite (fun _ => ?_) (fun _ => ?_)
    | with_reducible refine Within.foldl ?_ (fun t x ht => ?_)
    | (intro c hc; first | exact hc | (simp; done) | (simpa using hc))
    | with_reducible apply WithinOut.next
    | extract_lets
    | split
    | dsimp only

theorem budgetOver_within (hW : Sub [.bull, .clk, .clu, .core, .free, .gh, .hbm, .hif, .out, .pmu, .regs, .seed, .time, .txHold, .ump] Ω) {k : Nat} (h : Within Ω a s) : Within Ω a (budgetOver k s) := by
  unfold budgetOver
  extract_lets v1 v2
  clear_value v1 v2
  repeat' first
    | with_reducible assumption
    | with_reducible apply advanceSince_within (hW.of (by decide))
    | with_reducible apply takeException_within (hW.of (by decide))
    | with_reducible refine Within.ite (fun _ => ?_) (fun _ => ?_)
    | with_reducible apply CoreRes.within_done
    | with_reducible apply KciRes.within_done
    | extract_lets
    | split

theorem execBudgetOverrun_within (hW : Sub [.bull, .clk, .clu, .core, .free, .gh, .hbm, .hif, .out, .pmu, .regs, .seed, .time, .txHold, .ump] Ω) {core : Nat} (h : Within Ω a s) : WithinOut Ω a (execBudgetOverrun core s) := by
  unfold execBudgetOverrun
  repeat' first
    | with_reducible assumption
    | with_reducible apply budgetOver_within (hW.of (by decide))
    | with_reducible apply WithinOut.next

theorem abortUndone_within (hW : Sub [.bull, .cfg, .clk, .clu, .core, .flash, .flc, .gh, .graphs, .hbm, .hif, .kml, .mq, .out, .pmu, .regs, .seed, .time, .txHold, .ump] Ω) {n : Nat} (h : Within Ω a s) : Within Ω a (abortUndone n s) := by
  unfold abortUndone
  repeat' first
    | with_reducible assumption
    | with_reducible apply coreHome_within (hW.of (by decide))
    | with_reducible apply undoRun_within (hW.of (by decide))
    | with_reducible apply abortEnd_within (hW.of (by decide))
    | with_reducible refine Within.ite (fun _ => ?_) (fun _ => ?_)
    | extract_lets
    | split

theorem execAbortUndoComplete_within (hW : Sub [.bull, .cfg, .clk, .clu, .core, .flash, .flc, .gh, .graphs, .hbm, .hif, .kml, .mq, .out, .pmu, .regs, .seed, .time, .txHold, .ump] Ω) {node : Nat} (h : Within Ω a s) : WithinOut Ω a (execAbortUndoComplete node s) := by
  unfold execAbortUndoComplete
  repeat' first
    | with_reducible assumption
    | with_reducible apply abortUndone_within (hW.of (by decide))
    | with_reducible apply WithinOut.next

theorem rerunEntry_within (hW : Sub [.bull, .cfg, .clk, .clu, .core, .gh, .graphs, .hbm, .hif, .kml, .mq, .out, .pmu, .regs, .seed, .time, .txHold, .ump] Ω) {n : Nat} (h : Within Ω a s) : Within Ω a (rerunEntry n s) := by
  unfold rerunEntry
  repeat' first
    | with_reducible assumption
    | with_reducible apply enterRerun_within (hW.of (by decide))
    | with_reducible apply postAlts_within (hW.of (by decide))
    | with_reducible refine Within.ite (fun _ => ?_) (fun _ => ?_)
    | split

theorem execRerunReadyEntry_within (hW : Sub [.bull, .cfg, .clk, .clu, .core, .gh, .graphs, .hbm, .hif, .kml, .mq, .out, .pmu, .regs, .seed, .time, .txHold, .ump] Ω) {node : Nat} (h : Within Ω a s) : WithinOut Ω a (execRerunReadyEntry node s) := by
  unfold execRerunReadyEntry
  repeat' first
    | with_reducible assumption
    | with_reducible apply rerunEntry_within (hW.of (by decide))
    | with_reducible apply WithinOut.next

theorem doneResume_within (hW : Sub [.bull, .cfg, .clk, .clu, .core, .free, .gh, .graphs, .hbm, .hif, .kml, .mq, .out, .pmu, .regs, .seed, .time, .txHold, .ump] Ω) {k : Nat} (h : Within Ω a s) : Within Ω a (doneResume k s) := by
  unfold doneResume
  extract_lets v1
  clear_value v1
  repeat' first
    | with_reducible assumption
    | with_reducible apply commitRest_within (hW.of (by decide))
    | with_reducible refine Within.ite (fun _ => ?_) (fun _ => ?_)

theorem execDoneCommitResume_within (hW : Sub [.bull, .cfg, .clk, .clu, .core, .free, .gh, .graphs, .hbm, .hif, .kml, .mq, .out, .pmu, .regs, .seed, .time, .txHold, .ump] Ω) {core : Nat} (h : Within Ω a s) : WithinOut Ω a (execDoneCommitResume core s) := by
  unfold execDoneCommitResume
  repeat' first
    | with_reducible assumption
    | with_reducible apply doneResume_within (hW.of (by decide))
    | with_reducible apply WithinOut.next

theorem armedEntry_within (hW : Sub [.bull, .clk, .clu, .gh, .hbm, .hif, .out, .pmu, .regs, .seed, .time, .txHold, .ump] Ω) {n : Nat} (h : Within Ω a s) : Within Ω a (armedEntry n s) := by
  unfold armedEntry
  repeat' first
    | with_reducible assumption
    | with_reducible apply enterReady_within (hW.of (by decide))
    | with_reducible refine Within.ite (fun _ => ?_) (fun _ => ?_)
    | split

theorem execArmedReadyEntry_within (hW : Sub [.bull, .clk, .clu, .gh, .hbm, .hif, .out, .pmu, .regs, .seed, .time, .txHold, .ump] Ω) {node : Nat} (h : Within Ω a s) : WithinOut Ω a (execArmedReadyEntry node s) := by
  unfold execArmedReadyEntry
  repeat' first
    | with_reducible assumption
    | with_reducible apply armedEntry_within (hW.of (by decide))
    | with_reducible apply WithinOut.next

theorem holdExpiry_within (hW : Sub [.bull, .clk, .clu, .core, .free, .gh, .hbm, .hif, .out, .pmu, .regs, .seed, .time, .txHold, .ump] Ω) {n : Nat} (h : Within Ω a s) : Within Ω a (holdExpiry n s) := by
  unfold holdExpiry
  repeat' first
    | with_reducible assumption
    | with_reducible apply State.bump_within (hW.of (by decide))
    | with_reducible apply advanceSince_within (hW.of (by decide))
    | with_reducible apply State.setNode_within (hW.of (by decide))
    | refine placeLocal_within_dispatched (hW.of (by decide)) (by assumption) ?_
    | refine placeLocal_within_paging (hW.of (by decide)) (by assumption) ?_
    | refine placeLocal_within_held (hW.of (by decide)) (by assumption) ?_
    | with_reducible refine Within.ite (fun _ => ?_) (fun _ => ?_)
    | with_reducible apply CoreRes.within_skip
    | extract_lets
    | split

theorem execAffinityHoldExpiry_within (hW : Sub [.bull, .clk, .clu, .core, .free, .gh, .hbm, .hif, .kml, .mq, .out, .pmu, .regs, .seed, .time, .txHold, .ump] Ω) {node : Nat} {kml : Bool} (h : Within Ω a s) : WithinOut Ω a (execAffinityHoldExpiry node kml s) := by
  unfold execAffinityHoldExpiry
  repeat' first
    | with_reducible assumption
    | with_reducible apply withKml_within (hW.of (by decide))
    | with_reducible apply holdExpiry_within (hW.of (by decide))
    | with_reducible refine Within.ite (fun _ => ?_) (fun _ => ?_)
    | with_reducible refine Within.foldl ?_ (fun t x ht => ?_)
    | (intro c hc; first | exact hc | (simp; done) | (simpa using hc))
    | with_reducible apply WithinOut.next
    | extract_lets
    | split
    | dsimp only

theorem contextLost_within (hW : Sub [.bull, .cfg, .core, .gh, .graphs, .hbm, .hif, .kml, .mq, .out, .pmu, .regs, .seed, .ump] Ω) {n : Nat} (h : Within Ω a s) : Within Ω a (contextLost n s) := by
  unfold contextLost
  repeat' first
    | with_reducible assumption
    | with_reducible apply leaveReady_within (hW.of (by decide))
    | with_reducible apply disarm_within (hW.of (by decide))
    | split

theorem pageInDone_within (hW : Sub [.bull, .cfg, .core, .free, .gh, .graphs, .hbm, .hif, .kml, .mq, .out, .pmu, .regs, .seed, .ump] Ω) {n : Nat} {ok : Bool} (h : Within Ω a s) : Within Ω a (pageInDone n ok s) := by
  unfold pageInDone
  extract_lets s1
  have h1 : Within Ω a s1 := by
    unfold s1
    repeat' first
      | with_reducible assumption
      | with_reducible apply State.bump_within (hW.of (by decide))
      | with_reducible apply State.draw_within (hW.of (by decide))
      | refine State.draw_within_pair (hW.of (by decide)) (by assumption) ?_
      | with_reducible apply pmuEvent_within (hW.of (by decide))
      | with_reducible apply umpEvent_within (hW.of (by decide))
      | with_reducible apply State.setGh_within (hW.of (by decide))
  clear_value s1
  repeat' first
    | with_reducible assumption
    | with_reducible apply State.bump_within (hW.of (by decide))
    | with_reducible apply State.draw_within (hW.of (by decide))
    | refine State.draw_within_pair (hW.of (by decide)) (by assumption) ?_
    | with_reducible apply pmuEvent_within (hW.of (by decide))
    | with_reducible apply umpEvent_within (hW.of (by decide))
    | with_reducible apply State.setGh_within (hW.of (by decide))
    | with_reducible apply pageCopyIn_within (hW.of (by decide))
    | with_reducible apply addTraffic_within (hW.of (by decide))
    | with_reducible apply contextLost_within (hW.of (by decide))
    | with_reducible refine Within.ite (fun _ => ?_) (fun _ => ?_)
    | extract_lets
    | split

theorem execPageInComplete_within (hW : Sub [.bull, .cfg, .core, .free, .gh, .graphs, .hbm, .hif, .kml, .mq, .out, .pmu, .regs, .seed, .ump] Ω) {node : Nat} {hbmOk : Bool} (h : Within Ω a s) : WithinOut Ω a (execPageInComplete node hbmOk s) := by
  unfold execPageInComplete
  repeat' first
    | with_reducible assumption
    | with_reducible apply pageInDone_within (hW.of (by decide))
    | with_reducible apply WithinOut.next

theorem slotFreed_within (hW : Sub [.gh, .hif, .out, .regs] Ω) {n : Nat} (h : Within Ω a s) : Within Ω a (slotFreed n s) := by
  unfold slotFreed
  repeat' first
    | with_reducible assumption
    | with_reducible apply placePageIn_within (hW.of (by decide))
    | with_reducible refine Within.ite (fun _ => ?_) (fun _ => ?_)
    | split

theorem execPageInSlotFree_within (hW : Sub [.gh, .hif, .out, .regs] Ω) {node : Nat} (h : Within Ω a s) : WithinOut Ω a (execPageInSlotFree node s) := by
  unfold execPageInSlotFree
  repeat' first
    | with_reducible assumption
    | with_reducible apply slotFreed_within (hW.of (by decide))
    | with_reducible apply WithinOut.next

theorem writeBackAfter_within (hW : Sub [.bull, .cfg, .gh, .graphs, .hbm, .hif, .kml, .mq, .out, .regs, .seed, .ump] Ω) {n : Nat} {d : NodeD} (h : Within Ω a s) : Within Ω a (writeBackAfter n d s) := by
  unfold writeBackAfter
  extract_lets s1 s2
  have h1 : Within Ω a s1 := by
    unfold s1
    repeat' first
      | with_reducible assumption
      | with_reducible apply State.updNode_within (hW.of (by decide))
      | with_reducible apply invalidate_within (hW.of (by decide))
      | with_reducible apply finishWait_within (hW.of (by decide))
      | with_reducible apply eraseNode_within (hW.of (by decide))
      | with_reducible apply graphsStep_within (hW.of (by decide))
      | with_reducible refine Within.ite (fun _ => ?_) (fun _ => ?_)
      | exact fun _ hc => hc
      | extract_lets
      | split
  clear_value s1
  have h2 : Within Ω a s2 := by
    unfold s2
    repeat' first
      | with_reducible assumption
      | with_reducible apply State.updNode_within (hW.of (by decide))
      | with_reducible apply invalidate_within (hW.of (by decide))
      | with_reducible apply finishWait_within (hW.of (by decide))
      | with_reducible apply eraseNode_within (hW.of (by decide))
      | with_reducible apply graphsStep_within (hW.of (by decide))
      | with_reducible refine Within.ite (fun _ => ?_) (fun _ => ?_)
  clear_value s2
  repeat' first
    | with_reducible assumption
    | with_reducible apply State.updNode_within (hW.of (by decide))
    | with_reducible apply invalidate_within (hW.of (by decide))
    | with_reducible apply finishWait_within (hW.of (by decide))
    | with_reducible apply eraseNode_within (hW.of (by decide))
    | with_reducible apply graphsStep_within (hW.of (by decide))
    | with_reducible refine Within.ite (fun _ => ?_) (fun _ => ?_)

theorem writeBackDone_within (hW : Sub [.bull, .cfg, .core, .free, .gh, .graphs, .hbm, .hif, .kml, .mq, .out, .pmu, .regs, .seed, .ump] Ω) {n : Nat} {failures : Nat} (h : Within Ω a s) : Within Ω a (writeBackDone n failures s) := by
  unfold writeBackDone
  repeat' first
    | with_reducible assumption
    | with_reducible apply State.bump_within (hW.of (by decide))
    | with_reducible apply State.draw_within (hW.of (by decide))
    | refine State.draw_within_pair (hW.of (by decide)) (by assumption) ?_
    | with_reducible apply raiseFld_within (hW.of (by decide))
    | with_reducible apply pmuEvent_within (hW.of (by decide))
    | with_reducible apply umpEvent_within (hW.of (by decide))
    | with_reducible apply State.setNode_within (hW.of (by decide))
    | with_reducible apply invalidate_within (hW.of (by decide))
    | with_reducible apply pageCopyOut_within (hW.of (by decide))
    | with_reducible apply addTraffic_within (hW.of (by decide))
    | with_reducible refine writeBack_within (hW.of (by decide)) ?_ (fun c hc => ?_)
    | with_reducible apply contextLost_within (hW.of (by decide))
    | with_reducible apply writeBackAfter_within (hW.of (by decide))
    | with_reducible refine Within.ite (fun _ => ?_) (fun _ => ?_)
    | with_reducible refine Within.foldl ?_ (fun t x ht => ?_)
    | extract_lets
    | split

theorem execWriteBackComplete_within (hW : Sub [.bull, .cfg, .core, .free, .gh, .graphs, .hbm, .hif, .kml, .mq, .out, .pmu, .regs, .seed, .ump] Ω) {node : Nat} {failures : Nat} (h : Within Ω a s) : WithinOut Ω a (execWriteBackComplete node failures s) := by
  unfold execWriteBackComplete
  repeat' first
    | with_reducible assumption
    | with_reducible apply writeBackDone_within (hW.of (by decide))
    | with_reducible apply WithinOut.next

theorem sweepLedger_within (hW : Sub [.hbm, .hif, .out, .regs, .seed, .ump] Ω) (h : Within Ω a s) : Within Ω a (sweepLedger s) := by
  unfold sweepLedger
  extract_lets v1
  clear_value v1
  repeat' first
    | with_reducible assumption
    | with_reducible apply mismatch_within (hW.of (by decide))
    | with_reducible refine Within.ite (fun _ => ?_) (fun _ => ?_)

theorem execLedgerSweep_within (hW : Sub [.hbm, .hif, .out, .regs, .seed, .ump] Ω) (h : Within Ω a s) : WithinOut Ω a (execLedgerSweep s) := by
  unfold execLedgerSweep
  repeat' first
    | with_reducible assumption
    | with_reducible apply sweepLedger_within (hW.of (by decide))
    | with_reducible apply WithinOut.next

theorem tagLost_within (hW : Sub [.hbm, .hif, .out, .regs, .seed, .ump] Ω) {g : Nat} {detail : Nat} (h : Within Ω a s) : Within Ω a (tagLost g detail s) := by
  unfold tagLost
  extract_lets v1 v2 s1
  have h1 : Within Ω a s1 := by
    unfold s1
    repeat' first
      | with_reducible assumption
      | with_reducible apply State.setSeed_within (hW.of (by decide))
      | with_reducible apply umpEvent_within (hW.of (by decide))
      | with_reducible refine Within.ite (fun _ => ?_) (fun _ => ?_)
      | with_reducible refine Within.foldl ?_ (fun t x ht => ?_)
      | (intro c hc; first | exact hc | (simp; done) | (simpa using hc))
      | extract_lets
      | split
      | dsimp only
      | ((with_reducible refine Within.mk_same rfl ?_ ?_); (intro p hn; cases p <;> first | rfl | exact absurd (hW.use (by decide)) hn))
  clear_value s1
  repeat' first
    | with_reducible assumption
    | with_reducible apply State.setSeed_within (hW.of (by decide))
    | with_reducible apply umpEvent_within (hW.of (by decide))
    | with_reducible refine Within.ite (fun _ => ?_) (fun _ => ?_)
    | with_reducible refine Within.foldl ?_ (fun t x ht => ?_)
    | (intro c hc; first | exact hc | (simp; done) | (simpa using hc))
    | extract_lets
    | split
    | dsimp only
    | ((with_reducible refine Within.mk_same rfl ?_ ?_); (intro p hn; cases p <;> first | rfl | exact absurd (hW.use (by decide)) hn))

theorem sweepTags_within (hW : Sub [.hbm, .hif, .out, .regs, .seed, .ump] Ω) {ms : Nat} {lost : List Nat} (h : Within Ω a s) : Within Ω a (sweepTags ms lost s) := by
  unfold sweepTags
  repeat' first
    | with_reducible assumption
    | with_reducible apply tagLost_within (hW.of (by decide))
    | with_reducible apply State.setFld_within (hW.of (by decide))
    | with_reducible apply mismatch_within (hW.of (by decide))
    | with_reducible refine Within.ite (fun _ => ?_) (fun _ => ?_)
    | with_reducible refine Within.foldl ?_ (fun t x ht => ?_)
    | (intro c hc; first | exact hc | (simp; done) | (simpa using hc))
    | extract_lets
    | split
    | dsimp only

theorem execTagSweepComplete_within (hW : Sub [.hbm, .hif, .out, .regs, .seed, .ump] Ω) {ms : Nat} {lost : List Nat} (h : Within Ω a s) : WithinOut Ω a (execTagSweepComplete ms lost s) := by
  unfold execTagSweepComplete
  repeat' first
    | with_reducible assumption
    | with_reducible apply sweepTags_within (hW.of (by decide))
    | with_reducible refine Within.ite (fun _ => ?_) (fun _ => ?_)
    | with_reducible refine Within.foldl ?_ (fun t x ht => ?_)
    | (intro c hc; first | exact hc | (simp; done) | (simpa using hc))
    | with_reducible apply WithinOut.next
    | extract_lets
    | split
    | dsimp only

theorem headRefill_within (hW : Sub [.hif, .mq, .out, .pmu, .regs] Ω) {q : Nat} (h : Within Ω a s) : Within Ω a (headRefill q s) := by
  unfold headRefill
  repeat' first
    | with_reducible assumption
    | with_reducible apply pmuEvent_within (hW.of (by decide))
    | with_reducible apply State.setQueue_within (hW.of (by decide))
    | extract_lets
    | split

theorem execHeadWindowRefill_within (hW : Sub [.hif, .mq, .out, .pmu, .regs] Ω) {queue : Nat} (h : Within Ω a s) : WithinOut Ω a (execHeadWindowRefill queue s) := by
  unfold execHeadWindowRefill
  repeat' first
    | with_reducible assumption
    | with_reducible apply headRefill_within (hW.of (by decide))
    | with_reducible apply WithinOut.next

theorem moveEnd_within (hW : Sub [.bull, .cfg, .clk, .clu, .core, .flash, .flc, .free, .gh, .graphs, .hbm, .hif, .kml, .mq, .out, .pmu, .regs, .scout, .seed, .time, .txHold, .ump] Ω) {k : Nat} {ok : Bool} (h : Within Ω a s) : Within Ω a (moveEnd k ok s) := by
  unfold moveEnd
  extract_lets v1
  clear_value v1
  repeat' first
    | with_reducible assumption
    | with_reducible apply State.draw_within (hW.of (by decide))
    | refine State.draw_within_pair (hW.of (by decide)) (by assumption) ?_
    | with_reducible apply takeException_within (hW.of (by decide))
    | with_reducible apply moveDone_within (hW.of (by decide))
    | with_reducible refine Within.ite (fun _ => ?_) (fun _ => ?_)
    | extract_lets
    | split

theorem execMoveComplete_within (hW : Sub [.bull, .cfg, .clk, .clu, .core, .flash, .flc, .free, .gh, .graphs, .hbm, .hif, .kml, .mq, .out, .pmu, .regs, .scout, .seed, .time, .txHold, .ump] Ω) {core : Nat} {hbmOk : Bool} (h : Within Ω a s) : WithinOut Ω a (execMoveComplete core hbmOk s) := by
  unfold execMoveComplete
  repeat' first
    | with_reducible assumption
    | with_reducible apply moveEnd_within (hW.of (by decide))
    | with_reducible apply WithinOut.next

theorem scoutExpire_within (hW : Sub [.scout] Ω) {k : Nat} (h : Within Ω a s) : Within Ω a (scoutExpire k s) := by
  unfold scoutExpire
  extract_lets v1
  clear_value v1
  repeat' first
    | with_reducible assumption
    | with_reducible refine Within.ite (fun _ => ?_) (fun _ => ?_)
    | extract_lets
    | split
    | dsimp only
    | ((with_reducible refine Within.mk_same rfl ?_ ?_); (intro p hn; cases p <;> first | rfl | exact absurd (hW.use (by decide)) hn))

theorem execScoutIntervalExpiry_within (hW : Sub [.scout] Ω) {core : Nat} (h : Within Ω a s) : WithinOut Ω a (execScoutIntervalExpiry core s) := by
  unfold execScoutIntervalExpiry
  repeat' first
    | with_reducible assumption
    | with_reducible apply scoutExpire_within (hW.of (by decide))
    | with_reducible apply WithinOut.next

theorem sleepEntry_within (hW : Sub [.clk, .clu, .hbm, .hif, .out, .pmu, .regs, .seed, .time, .txHold, .ump] Ω) {n : Nat} (h : Within Ω a s) : Within Ω a (sleepEntry n s) := by
  unfold sleepEntry
  extract_lets v1 s1
  clear_value v1
  have h1 : Within Ω a s1 := by
    unfold s1
    repeat' first
      | with_reducible assumption
      | with_reducible apply advanceSince_within (hW.of (by decide))
  clear_value s1
  repeat' first
    | with_reducible assumption
    | with_reducible apply advanceSince_within (hW.of (by decide))
    | with_reducible apply setPwr_within (hW.of (by decide))
    | with_reducible refine Within.ite (fun _ => ?_) (fun _ => ?_)

theorem execClusterSleepEntry_within (hW : Sub [.clk, .clu, .hbm, .hif, .out, .pmu, .regs, .seed, .time, .txHold, .ump] Ω) {cluster : Nat} (h : Within Ω a s) : WithinOut Ω a (execClusterSleepEntry cluster s) := by
  unfold execClusterSleepEntry
  repeat' first
    | with_reducible assumption
    | with_reducible apply sleepEntry_within (hW.of (by decide))
    | with_reducible apply WithinOut.next

theorem coreOff_within (hW : Sub [.core, .free] Ω) {k : Nat} (h : Within Ω a s) : Within Ω a (coreOff k s) := by
  unfold coreOff
  exact Within.updCore (hW.of (by decide)) (State.draw_within (hW.of (by decide)) h) fun _ _ => rfl

theorem offEntry_within (hW : Sub [.clk, .clu, .core, .free, .gh, .hbm, .hif, .out, .pmu, .regs, .seed, .time, .txHold, .ump] Ω) {n : Nat} (h : Within Ω a s) : Within Ω a (offEntry n s) := by
  unfold offEntry
  extract_lets v1 s1 v2 s2 s3
  clear_value v1 v2
  have h1 : Within Ω a s1 := by
    unfold s1
    repeat' first
      | with_reducible assumption
      | with_reducible apply advanceSince_within (hW.of (by decide))
  clear_value s1
  have h2 : Within Ω a s2 := by
    unfold s2
    repeat' first
      | with_reducible assumption
      | with_reducible apply advanceSince_within (hW.of (by decide))
      | with_reducible apply setPwr_within (hW.of (by decide))
      | with_reducible apply invalidateCore_within (hW.of (by decide))
      | with_reducible apply syncCluster_within (hW.of (by decide))
      | with_reducible apply coreOff_within (hW.of (by decide))
      | with_reducible refine Within.ite (fun _ => ?_) (fun _ => ?_)
      | with_reducible refine Within.foldl ?_ (fun t x ht => ?_)
  clear_value s2
  have h3 : Within Ω a s3 := by
    unfold s3
    repeat' first
      | with_reducible assumption
      | with_reducible apply advanceSince_within (hW.of (by decide))
      | with_reducible apply setPwr_within (hW.of (by decide))
      | with_reducible apply invalidateCore_within (hW.of (by decide))
      | with_reducible apply syncCluster_within (hW.of (by decide))
      | with_reducible apply coreOff_within (hW.of (by decide))
      | with_reducible refine Within.ite (fun _ => ?_) (fun _ => ?_)
      | with_reducible refine Within.foldl ?_ (fun t x ht => ?_)
  clear_value s3
  repeat' first
    | with_reducible assumption
    | with_reducible apply advanceSince_within (hW.of (by decide))
    | with_reducible apply setPwr_within (hW.of (by decide))
    | with_reducible apply invalidateCore_within (hW.of (by decide))
    | with_reducible apply syncCluster_within (hW.of (by decide))
    | with_reducible apply coreOff_within (hW.of (by decide))
    | with_reducible refine Within.ite (fun _ => ?_) (fun _ => ?_)

theorem execClusterOffEntry_within (hW : Sub [.clk, .clu, .core, .free, .gh, .hbm, .hif, .out, .pmu, .regs, .seed, .time, .txHold, .ump] Ω) {cluster : Nat} (h : Within Ω a s) : WithinOut Ω a (execClusterOffEntry cluster s) := by
  unfold execClusterOffEntry
  repeat' first
    | with_reducible assumption
    | with_reducible apply offEntry_within (hW.of (by decide))
    | with_reducible apply WithinOut.next

theorem coreWake_within (hW : Sub [.core] Ω) {k : Nat} (h : Within Ω a s) : Within Ω a (coreWake k s) := by
  unfold coreWake
  exact Within.updCore (hW.of (by decide)) h fun c hc => by dsimp only; split <;> first | exact hc | rfl

theorem wakeDone_within (hW : Sub [.clk, .clu, .core, .hbm, .hif, .out, .pmu, .regs, .seed, .time, .txHold, .ump] Ω) {n : Nat} (h : Within Ω a s) : Within Ω a (wakeDone n s) := by
  unfold wakeDone
  extract_lets v1 s1 s2
  clear_value v1
  have h1 : Within Ω a s1 := by
    unfold s1
    repeat' first
      | with_reducible assumption
      | with_reducible apply advance_within (hW.of (by decide))
  clear_value s1
  have h2 : Within Ω a s2 := by
    unfold s2
    repeat' first
      | with_reducible assumption
      | with_reducible apply advance_within (hW.of (by decide))
      | with_reducible apply setPwr_within (hW.of (by decide))
      | with_reducible apply coreWake_within (hW.of (by decide))
      | with_reducible refine Within.ite (fun _ => ?_) (fun _ => ?_)
      | with_reducible refine Within.foldl ?_ (fun t x ht => ?_)
  clear_value s2
  repeat' first
    | with_reducible assumption
    | with_reducible apply advance_within (hW.of (by decide))
    | with_reducible apply setPwr_within (hW.of (by decide))
    | with_reducible apply coreWake_within (hW.of (by decide))
    | with_reducible refine Within.ite (fun _ => ?_) (fun _ => ?_)

theorem execClusterWakeComplete_within (hW : Sub [.clk, .clu, .core, .hbm, .hif, .out, .pmu, .regs, .seed, .time, .txHold, .ump] Ω) {cluster : Nat} (h : Within Ω a s) : WithinOut Ω a (execClusterWakeComplete cluster s) := by
  unfold execClusterWakeComplete
  repeat' first
    | with_reducible assumption
    | with_reducible apply wakeDone_within (hW.of (by decide))
    | with_reducible apply WithinOut.next

theorem limitWritten_within (hW : Sub [.clk, .clu, .hbm, .hif, .out, .pmu, .regs, .seed, .time, .txHold, .ump] Ω) {n : Nat} (h : Within Ω a s) : Within Ω a (limitWritten n s) := by
  unfold limitWritten
  extract_lets v1
  clear_value v1
  repeat' first
    | with_reducible assumption
    | with_reducible apply setPwr_within (hW.of (by decide))
    | with_reducible apply wakeCluster_within (hW.of (by decide))
    | with_reducible apply tryIdle_within (hW.of (by decide))
    | with_reducible refine Within.ite (fun _ => ?_) (fun _ => ?_)
    | extract_lets
    | split

theorem sparesWritten_within (hW : Sub [.clk, .clu, .gh, .hbm, .hif, .out, .pmu, .regs, .seed, .time, .txHold, .ump] Ω) {n : Nat} {count : Nat} (h : Within Ω a s) : Within Ω a (sparesWritten n count s) := by
  unfold sparesWritten
  extract_lets v1 s1 v2 s2
  clear_value v1 v2
  have h1 : Within Ω a s1 := by
    unfold s1
    repeat' first
      | with_reducible assumption
      | with_reducible apply State.setFld_within (hW.of (by decide))
      | with_reducible apply tryIdle_within (hW.of (by decide))
      | with_reducible apply invalidateIdle_within (hW.of (by decide))
      | with_reducible apply syncCluster_within (hW.of (by decide))
  clear_value s1
  have h2 : Within Ω a s2 := by
    unfold s2
    repeat' first
      | with_reducible assumption
      | with_reducible apply State.setFld_within (hW.of (by decide))
      | with_reducible apply tryIdle_within (hW.of (by decide))
      | with_reducible apply invalidateIdle_within (hW.of (by decide))
      | with_reducible apply syncCluster_within (hW.of (by decide))
      | with_reducible apply dropPageIns_within (hW.of (by decide))
      | with_reducible refine Within.foldl ?_ (fun t x ht => ?_)
      | with_reducible apply CoreRes.within_done
      | with_reducible apply KciRes.within_done
      | extract_lets
      | split
  clear_value s2
  repeat' first
    | with_reducible assumption
    | with_reducible apply State.setFld_within (hW.of (by decide))
    | with_reducible apply tryIdle_within (hW.of (by decide))

theorem homeWritten_within (hW : Sub [.core] Ω) {k : Nat} (h : Within Ω a s) : Within Ω a (homeWritten k s) := by
  unfold homeWritten
  extract_lets v1
  clear_value v1
  repeat' first
    | with_reducible assumption
    | with_reducible apply Within.updCore (hW.of (by decide))
    | with_reducible refine Within.ite (fun _ => ?_) (fun _ => ?_)
    | with_reducible apply KciRes.within_wait
    | exact fun _ hc => hc

theorem testSpare_within (hW : Sub [.bull, .clk, .clu, .core, .free, .gh, .hbm, .hif, .out, .pmu, .regs, .seed, .time, .txHold, .ump] Ω) {k : Nat} {passed : Bool} (h : Within Ω a s) : Within Ω a (testSpare k passed s) := by
  unfold testSpare
  extract_lets v1 v2
  clear_value v1 v2
  repeat' first
    | with_reducible assumption
    | with_reducible apply State.draw_within (hW.of (by decide))
    | refine State.draw_within_pair (hW.of (by decide)) (by assumption) ?_
    | with_reducible apply umpEvent_within (hW.of (by decide))
    | with_reducible apply retireCore_within (hW.of (by decide))
    | with_reducible refine Within.ite (fun _ => ?_) (fun _ => ?_)

theorem execSpareTest_within (hW : Sub [.bull, .clk, .clu, .core, .free, .gh, .hbm, .hif, .out, .pmu, .regs, .seed, .time, .txHold, .ump] Ω) {core : Nat} {passed : Bool} (h : Within Ω a s) : WithinOut Ω a (execSpareTest core passed s) := by
  unfold execSpareTest
  repeat' first
    | with_reducible assumption
    | with_reducible apply testSpare_within (hW.of (by decide))
    | with_reducible apply WithinOut.next

theorem markBad_within (hW : Sub [.clu, .core] Ω) {n : Nat} {m : Nat} {a' : Nat} (h : Within Ω a s) : Within Ω a (markBad n m a' s) := by
  unfold markBad
  extract_lets v1
  clear_value v1
  repeat' first
    | with_reducible assumption
    | with_reducible apply Within.updCore (hW.of (by decide))
    | with_reducible apply Within.updClu (hW.of (by decide))
    | with_reducible refine Within.ite (fun _ => ?_) (fun _ => ?_)
    | exact fun _ hc => hc

theorem scrubFound_within (hW : Sub [.bull, .cfg, .clu, .core, .flc, .gh, .glb, .graphs, .hbm, .hbmBad, .hif, .kml, .madi, .mdm, .mq, .net, .out, .pack, .peers, .pmu, .regs, .rfp, .scout, .seed, .time, .txHold, .ump] Ω) {source : Nat} {core : Nat} {x0 : List MemFinding} (h : Within Ω a s) : Within Ω a (scrubFound source core x0 s) := by
  induction x0 generalizing s with
  | nil =>
    unfold scrubFound
    repeat' first
      | with_reducible assumption
      | with_reducible apply pmuEvent_within (hW.of (by decide))
      | with_reducible apply umpEvent_within (hW.of (by decide))
      | with_reducible apply markBad_within (hW.of (by decide))
      | with_reducible apply fatalReset_within (hW.of (by decide))
      | with_reducible refine Within.ite (fun _ => ?_) (fun _ => ?_)
      | with_reducible refine Within.foldl ?_ (fun t x ht => ?_)
      | (intro c hc; first | exact hc | (simp; done) | (simpa using hc))
      | extract_lets
      | split
      | dsimp only
  | cons b t ih =>
    unfold scrubFound
    repeat' first
      | with_reducible apply ih
      | with_reducible assumption
      | with_reducible apply pmuEvent_within (hW.of (by decide))
      | with_reducible apply umpEvent_within (hW.of (by decide))
      | with_reducible apply markBad_within (hW.of (by decide))
      | with_reducible apply fatalReset_within (hW.of (by decide))
      | with_reducible refine Within.ite (fun _ => ?_) (fun _ => ?_)
      | with_reducible refine Within.foldl ?_ (fun t x ht => ?_)
      | (intro c hc; first | exact hc | (simp; done) | (simpa using hc))
      | extract_lets
      | split
      | dsimp only

theorem scrubPass_within (hW : Sub [.bull, .cfg, .clu, .core, .flc, .gh, .glb, .graphs, .hbm, .hbmBad, .hif, .kml, .madi, .mdm, .mq, .net, .out, .pack, .peers, .pmu, .regs, .rfp, .scout, .seed, .time, .txHold, .ump] Ω) {source : Nat} {core : Nat} {found : List MemFinding} {late : Bool} (h : Within Ω a s) : Within Ω a (scrubPass source core found late s) := by
  unfold scrubPass
  extract_lets s1
  have h1 : Within Ω a s1 := by
    unfold s1
    repeat' first
      | with_reducible assumption
      | with_reducible apply State.bump_within (hW.of (by decide))
      | with_reducible apply scrubFound_within (hW.of (by decide))
      | with_reducible refine Within.ite (fun _ => ?_) (fun _ => ?_)
  clear_value s1
  repeat' first
    | with_reducible assumption
    | with_reducible apply State.bump_within (hW.of (by decide))
    | with_reducible apply scrubFound_within (hW.of (by decide))
    | with_reducible refine Within.ite (fun _ => ?_) (fun _ => ?_)

theorem execSramScrubPass_within (hW : Sub [.bull, .cfg, .clu, .core, .flc, .gh, .glb, .graphs, .hbm, .hbmBad, .hif, .kml, .madi, .mdm, .mq, .net, .out, .pack, .peers, .pmu, .regs, .rfp, .scout, .seed, .time, .txHold, .ump] Ω) {source : Nat} {core : Nat} {found : List MemFinding} {late : Bool} (h : Within Ω a s) : WithinOut Ω a (execSramScrubPass source core found late s) := by
  unfold execSramScrubPass
  repeat' first
    | with_reducible assumption
    | with_reducible apply scrubPass_within (hW.of (by decide))
    | with_reducible apply WithinOut.next

theorem patrolFound_within (hW : Sub [.bull, .cfg, .clu, .core, .flc, .gh, .glb, .graphs, .hbm, .hbmBad, .hif, .kml, .madi, .mdm, .mq, .net, .out, .pack, .peers, .pmu, .regs, .rfp, .scout, .seed, .time, .txHold, .ump] Ω) {source : Nat} {x0 : List MemFinding} (h : Within Ω a s) : Within Ω a (patrolFound source x0 s) := by
  induction x0 generalizing s with
  | nil =>
    unfold patrolFound
    repeat' first
      | with_reducible assumption
      | with_reducible apply umpEvent_within (hW.of (by decide))
      | with_reducible apply fatalReset_within (hW.of (by decide))
      | with_reducible apply tagLost_within (hW.of (by decide))
      | with_reducible refine Within.ite (fun _ => ?_) (fun _ => ?_)
      | with_reducible refine Within.foldl ?_ (fun t x ht => ?_)
      | (intro c hc; first | exact hc | (simp; done) | (simpa using hc))
      | extract_lets
      | split
      | dsimp only
      | ((with_reducible refine Within.mk_same rfl ?_ ?_); (intro p hn; cases p <;> first | rfl | exact absurd (hW.use (by decide)) hn))
  | cons b t ih =>
    unfold patrolFound
    repeat' first
      | with_reducible apply ih
      | with_reducible assumption
      | with_reducible apply umpEvent_within (hW.of (by decide))
      | with_reducible apply fatalReset_within (hW.of (by decide))
      | with_reducible apply tagLost_within (hW.of (by decide))
      | with_reducible refine Within.ite (fun _ => ?_) (fun _ => ?_)
      | with_reducible refine Within.foldl ?_ (fun t x ht => ?_)
      | (intro c hc; first | exact hc | (simp; done) | (simpa using hc))
      | extract_lets
      | split
      | dsimp only
      | ((with_reducible refine Within.mk_same rfl ?_ ?_); (intro p hn; cases p <;> first | rfl | exact absurd (hW.use (by decide)) hn))

theorem patrolPass_within (hW : Sub [.bull, .cfg, .clu, .core, .flc, .gh, .glb, .graphs, .hbm, .hbmBad, .hif, .kml, .madi, .mdm, .mq, .net, .out, .pack, .peers, .pmu, .regs, .rfp, .scout, .seed, .time, .txHold, .ump] Ω) {source : Nat} {found : List MemFinding} (h : Within Ω a s) : Within Ω a (patrolPass source found s) := by
  unfold patrolPass
  extract_lets s1
  have h1 : Within Ω a s1 := by
    unfold s1
    repeat' first
      | with_reducible assumption
      | with_reducible apply State.bump_within (hW.of (by decide))
  clear_value s1
  repeat' first
    | with_reducible assumption
    | with_reducible apply State.bump_within (hW.of (by decide))
    | with_reducible apply patrolFound_within (hW.of (by decide))
    | with_reducible refine Within.ite (fun _ => ?_) (fun _ => ?_)

theorem execHbmPatrolPass_within (hW : Sub [.bull, .cfg, .clu, .core, .flc, .gh, .glb, .graphs, .hbm, .hbmBad, .hif, .kml, .madi, .mdm, .mq, .net, .out, .pack, .peers, .pmu, .regs, .rfp, .scout, .seed, .time, .txHold, .ump] Ω) {source : Nat} {found : List MemFinding} (h : Within Ω a s) : WithinOut Ω a (execHbmPatrolPass source found s) := by
  unfold execHbmPatrolPass
  repeat' first
    | with_reducible assumption
    | with_reducible apply patrolPass_within (hW.of (by decide))
    | with_reducible apply WithinOut.next

theorem failHeld_within (hW : Sub [.hif, .out, .regs, .time] Ω) (h : Within Ω a s) : Within Ω a (failHeld s) := by
  unfold failHeld
  extract_lets ws os s1 src s2 s3
  have h2 : Within Ω a s2 := Within.mk_same rfl (fun p hn => by cases p <;> first | rfl | exact absurd (hW.use (by decide)) hn) (State.setHif_within (hW.of (by decide)) h)
  have h3 : Within Ω a s3 := Within.foldl h2 fun _ _ ht => cqWrite_within (hW.of (by decide)) ht
  exact Within.foldl h3 fun _ _ ht => cqWrite_within (hW.of (by decide)) ht

theorem svcRestart_within (hW : Sub [.free, .glb, .hbm, .hif, .out, .regs, .time, .ump] Ω) (h : Within Ω a s) : Within Ω a (svcRestart s) := by
  unfold svcRestart
  refine Within.ite (fun _ => umpEvent_within (hW.of (by decide)) ?_) (fun _ => h)
  exact Within.glb (hW.of (by decide)) (State.draw_within (hW.of (by decide)) (failHeld_within (hW.of (by decide)) h)) (le_refl _) fun _ x => x

theorem execServiceCoreWatchdog_within (hW : Sub [.free, .glb, .hbm, .hif, .out, .regs, .time, .ump] Ω) (h : Within Ω a s) : WithinOut Ω a (execServiceCoreWatchdog s) := by
  unfold execServiceCoreWatchdog
  repeat' first
    | with_reducible assumption
    | with_reducible apply svcRestart_within (hW.of (by decide))
    | with_reducible apply WithinOut.next

theorem execServiceCoreRestartDone_within (hW : Sub [.glb] Ω) (h : Within Ω a s) : WithinOut Ω a (execServiceCoreRestartDone s) :=
  WithinOut.next (h.glb (hW.of (by decide)) (le_refl _) fun _ x => x)

theorem fabricError_within (hW : Sub [.bull, .cfg, .clu, .core, .flc, .gh, .glb, .graphs, .hbm, .hbmBad, .hif, .kml, .madi, .mdm, .mq, .net, .out, .pack, .peers, .pmu, .regs, .rfp, .scout, .seed, .time, .txHold, .ump] Ω) {source : Nat} {sram : Bool} (h : Within Ω a s) : Within Ω a (fabricError source sram s) := by
  unfold fabricError
  repeat' first
    | with_reducible assumption
    | with_reducible apply fatalReset_within (hW.of (by decide))
    | with_reducible refine Within.ite (fun _ => ?_) (fun _ => ?_)

theorem execFabricParityError_within (hW : Sub [.bull, .cfg, .clu, .core, .flc, .gh, .glb, .graphs, .hbm, .hbmBad, .hif, .kml, .madi, .mdm, .mq, .net, .out, .pack, .peers, .pmu, .regs, .rfp, .scout, .seed, .time, .txHold, .ump] Ω) {source : Nat} {uncorrSram : Bool} (h : Within Ω a s) : WithinOut Ω a (execFabricParityError source uncorrSram s) := by
  unfold execFabricParityError
  repeat' first
    | with_reducible assumption
    | with_reducible apply fabricError_within (hW.of (by decide))
    | with_reducible apply WithinOut.next

theorem trip_within (hW : Sub [.bull, .cfg, .clu, .core, .flc, .gh, .glb, .graphs, .hbm, .hbmBad, .hif, .kml, .madi, .mdm, .mq, .net, .out, .pack, .peers, .pmu, .regs, .rfp, .scout, .seed, .time, .txHold, .ump] Ω) (h : Within Ω a s) : Within Ω a (trip s) :=
  Within.ite (fun _ => h) (fun _ => State.setFld_within (hW.of (by decide)) (Within.glb (hW.of (by decide)) (fatalReset_within (hW.of (by decide)) h) (le_refl _) fun _ x => x))

theorem execThermtrip_within (hW : Sub [.bull, .cfg, .clu, .core, .flc, .gh, .glb, .graphs, .hbm, .hbmBad, .hif, .kml, .madi, .mdm, .mq, .net, .out, .pack, .peers, .pmu, .regs, .rfp, .scout, .seed, .time, .txHold, .ump] Ω) (h : Within Ω a s) : WithinOut Ω a (execThermtrip s) := by
  unfold execThermtrip
  repeat' first
    | with_reducible assumption
    | with_reducible apply trip_within (hW.of (by decide))
    | with_reducible apply WithinOut.next

theorem alarm_within (hW : Sub [.hbm, .hif, .out, .regs, .ump] Ω) {bit : Nat} {cause : Nat} {idx : Nat} (h : Within Ω a s) : Within Ω a (alarm bit cause idx s) := by
  unfold alarm
  extract_lets s1
  have h1 : Within Ω a s1 := by
    unfold s1
    repeat' first
      | with_reducible assumption
      | with_reducible apply raiseFld_within (hW.of (by decide))
  clear_value s1
  repeat' first
    | with_reducible assumption
    | with_reducible apply raiseFld_within (hW.of (by decide))
    | with_reducible apply umpEvent_within (hW.of (by decide))
    | with_reducible refine Within.ite (fun _ => ?_) (fun _ => ?_)

theorem tempBit_within (hW : Sub [.hbm, .hif, .out, .regs, .ump] Ω) {f : Fld} {thr : Nat} {bit : Nat} {cause : Nat} {idx : Nat} {q : Int} (h : Within Ω a s) : Within Ω a (tempBit f thr bit cause idx q s) := by
  unfold tempBit
  repeat' first
    | with_reducible assumption
    | with_reducible apply State.setFld_within (hW.of (by decide))
    | with_reducible apply alarm_within (hW.of (by decide))
    | with_reducible refine Within.ite (fun _ => ?_) (fun _ => ?_)

theorem tempScan_within (hW : Sub [.hbm, .hif, .out, .regs, .ump] Ω) {i : Nat} {l : List Int} (h : Within Ω a s) : Within Ω a (tempScan i l s) := by
  induction l generalizing i s with
  | nil => exact h
  | cons q t ih =>
    unfold tempScan
    exact Within.ite (fun _ => h) (fun _ => ih (tempBit_within (hW.of (by decide)) (tempBit_within (hW.of (by decide)) (State.setFld_within (hW.of (by decide)) h))))

theorem execTempSample_within (hW : Sub [.hbm, .hif, .out, .regs, .ump] Ω) {quarters : List Int} (h : Within Ω a s) : WithinOut Ω a (execTempSample quarters s) := by
  unfold execTempSample
  repeat' first
    | with_reducible assumption
    | with_reducible apply tempScan_within (hW.of (by decide))
    | with_reducible apply WithinOut.next

theorem voltScan_within (hW : Sub [.hbm, .hif, .out, .regs, .ump] Ω) {i : Nat} {l : List Nat} (h : Within Ω a s) : Within Ω a (voltScan i l s) := by
  induction l generalizing i s with
  | nil => exact h
  | cons q t ih =>
    unfold voltScan
    refine Within.ite (fun _ => h) (fun _ => ih ?_)
    exact Within.ite (fun _ => alarm_within (hW.of (by decide)) (Within.mk_same rfl (fun p hn => by cases p <;> first | rfl | exact absurd (hW.use (by decide)) hn) (State.setFld_within (hW.of (by decide)) h)))
      (fun _ => Within.mk_same rfl (fun p hn => by cases p <;> first | rfl | exact absurd (hW.use (by decide)) hn) (State.setFld_within (hW.of (by decide)) h))

theorem execVoltSample_within (hW : Sub [.hbm, .hif, .out, .regs, .ump] Ω) {mv : List Nat} (h : Within Ω a s) : WithinOut Ω a (execVoltSample mv s) := by
  unfold execVoltSample
  repeat' first
    | with_reducible assumption
    | with_reducible apply voltScan_within (hW.of (by decide))
    | with_reducible apply WithinOut.next

theorem procScan_within (hW : Sub [.hbm, .hif, .out, .regs, .ump] Ω) {i : Nat} {l : List Nat} (h : Within Ω a s) : Within Ω a (procScan i l s) := by
  induction l generalizing i s with
  | nil => exact h
  | cons q t ih =>
    unfold procScan
    refine Within.ite (fun _ => h) (fun _ => ih ?_)
    exact Within.ite (fun _ => alarm_within (hW.of (by decide)) (Within.mk_same rfl (fun p hn => by cases p <;> first | rfl | exact absurd (hW.use (by decide)) hn) (State.setFld_within (hW.of (by decide)) h)))
      (fun _ => Within.mk_same rfl (fun p hn => by cases p <;> first | rfl | exact absurd (hW.use (by decide)) hn) (State.setFld_within (hW.of (by decide)) h))

theorem execProcessSample_within (hW : Sub [.hbm, .hif, .out, .regs, .ump] Ω) {counts : List Nat} (h : Within Ω a s) : WithinOut Ω a (execProcessSample counts s) := by
  unfold execProcessSample
  repeat' first
    | with_reducible assumption
    | with_reducible apply procScan_within (hW.of (by decide))
    | with_reducible apply WithinOut.next

theorem mergeExpiry_within (hW : Sub [.clk, .hbm, .hif, .out, .pmu, .regs, .seed, .time, .txHold, .ump] Ω) {source : Nat} {core : Nat} {cause : Nat} (h : Within Ω a s) : Within Ω a (mergeExpiry source core cause s) := by
  unfold mergeExpiry
  repeat' first
    | with_reducible assumption
    | with_reducible apply advanceSince_within (hW.of (by decide))
    | with_reducible apply umpWrite_within (hW.of (by decide))
    | extract_lets
    | split
    | dsimp only
    | intro t ht
    | ((with_reducible refine Within.mk_same rfl ?_ ?_); (intro p hn; cases p <;> first | rfl | exact absurd (hW.use (by decide)) hn))

theorem execUmpireMergeExpiry_within (hW : Sub [.clk, .hbm, .hif, .out, .pmu, .regs, .seed, .time, .txHold, .ump] Ω) {source : Nat} {core : Nat} {cause : Nat} (h : Within Ω a s) : WithinOut Ω a (execUmpireMergeExpiry source core cause s) := by
  unfold execUmpireMergeExpiry
  repeat' first
    | with_reducible assumption
    | with_reducible apply mergeExpiry_within (hW.of (by decide))
    | with_reducible apply WithinOut.next

theorem kciFail_within (hW : Sub [] Ω) {code : Nat} (h : Within Ω a s) : (kciFail code s).Ins Ω a := by
  unfold kciFail
  repeat' first
    | with_reducible assumption
    | with_reducible apply KciRes.within_done

theorem kciOk_within (hW : Sub [] Ω) (h : Within Ω a s) : (kciOk s).Ins Ω a := by
  unfold kciOk
  repeat' first
    | with_reducible assumption
    | with_reducible apply KciRes.within_done

theorem kciEnd_within (hW : Sub [.core, .hif, .out, .regs] Ω) {op : Nat} {hd : KciHdr} {key : Option (Nat × Nat)} {r : KciRes} (h : r.Ins Ω a) : Within Ω a (kciEnd op hd key r) := by
  cases r
  · exact kciDone_within (hW.of (by decide)) h
  · exact kciDone_within (hW.of (by decide)) (State.emit_within (hW.of (by decide)) h)
  · exact kciWait_within (hW.of (by decide)) h

theorem kci_within (hW : Sub [.core, .hif, .out, .regs] Ω) {op : Nat} {hd : KciHdr} {key : Option (Nat × Nat)} {operands : State → List Check} {f : State → KciRes} (h : Within Ω a s)
    (hf : ∀ t, Within Ω a t → (f t).Ins Ω a) : Within Ω a (kci op hd key operands f s) := by
  unfold kci
  refine Within.ite (fun _ => h) (fun _ => ?_)
  extract_lets s1 r
  have h1 : Within Ω a s1 := Within.ite (fun _ => h) (fun _ => State.setHif_within (hW.of (by decide)) h)
  clear_value s1
  refine kciEnd_within (hW.of (by decide)) ?_
  unfold r
  split
  · exact h1
  split
  · exact h1
  · exact hf s1 h1

theorem fetchEntry_within (hW : Sub [.hif, .out, .regs] Ω) {op : Nat} {flags : Nat} {tag : Nat} (h : Within Ω a s) : Within Ω a (fetchEntry op flags tag s) := by
  unfold fetchEntry
  extract_lets v1 v2 v3 v4 v5 s1
  clear_value v1 v2 v3 v4 v5
  have h1 : Within Ω a s1 := by
    unfold s1
    repeat' first
      | with_reducible assumption
      | with_reducible apply State.setFld_within (hW.of (by decide))
  clear_value s1
  repeat' first
    | with_reducible assumption
    | with_reducible apply State.setFld_within (hW.of (by decide))
    | with_reducible apply State.setHif_within (hW.of (by decide))
    | with_reducible apply kciDone_within (hW.of (by decide))
    | with_reducible refine Within.ite (fun _ => ?_) (fun _ => ?_)

theorem execKciFetch_within (hW : Sub [.hif, .out, .regs] Ω) {opcode : Nat} {flags : Nat} {tag : Nat} (h : Within Ω a s) : WithinOut Ω a (execKciFetch opcode flags tag s) := by
  unfold execKciFetch
  repeat' first
    | with_reducible assumption
    | with_reducible apply fetchEntry_within (hW.of (by decide))
    | with_reducible apply WithinOut.next

theorem execSysOpen_within (hW : Sub [.core, .hif, .out, .regs] Ω) {h' : KciHdr} {major : Nat} {minor : Nat} (h : Within Ω a s) : WithinOut Ω a (execSysOpen h' major minor s) := by
  unfold execSysOpen
  repeat' first
    | with_reducible assumption
    | with_reducible apply State.setHif_within (hW.of (by decide))
    | with_reducible apply kciFail_within (hW.of (by decide))
    | with_reducible refine kci_within (hW.of (by decide)) ?_ (fun t ht => ?_)
    | with_reducible refine Within.ite (fun _ => ?_) (fun _ => ?_)
    | with_reducible apply CoreRes.within_done
    | with_reducible apply KciRes.within_fail
    | with_reducible apply KciRes.within_done
    | with_reducible apply WithinOut.next
    | split

theorem execNodeLoad_within (hW : Sub [.bull, .core, .hif, .out, .regs] Ω) {h' : KciHdr} {op : NodeOp} (h : Within Ω a s) : WithinOut Ω a (execNodeLoad h' op s) := by
  unfold execNodeLoad
  repeat' first
    | with_reducible assumption
    | with_reducible apply State.setNode_within (hW.of (by decide))
    | with_reducible apply kciFail_within (hW.of (by decide))
    | with_reducible apply kciOk_within (hW.of (by decide))
    | with_reducible refine kci_within (hW.of (by decide)) ?_ (fun t ht => ?_)
    | with_reducible refine Within.ite (fun _ => ?_) (fun _ => ?_)
    | with_reducible apply KciRes.within_fail
    | with_reducible apply KciRes.within_ok
    | with_reducible apply WithinOut.next
    | split

theorem unloadNode_within (hW : Sub [.bull, .cfg, .gh, .graphs, .kml, .regs] Ω) {n : Nat} {d : NodeD} (h : Within Ω a s) : (unloadNode n d s).Ins Ω a := by
  unfold unloadNode
  repeat' first
    | with_reducible assumption
    | with_reducible apply State.setNode_within (hW.of (by decide))
    | with_reducible apply eraseNode_within (hW.of (by decide))
    | with_reducible apply dropStage_within (hW.of (by decide))

    | with_reducible apply kciOk_within (hW.of (by decide))
    | with_reducible refine Within.ite (fun _ => ?_) (fun _ => ?_)
    | with_reducible apply KciRes.within_ok
    | with_reducible apply KciRes.within_wait
    | extract_lets
    | split

theorem execNodeUnload_within (hW : Sub [.bull, .cfg, .core, .gh, .graphs, .hif, .kml, .out, .regs] Ω) {h' : KciHdr} {node : Nat} (h : Within Ω a s) : WithinOut Ω a (execNodeUnload h' node s) := by
  unfold execNodeUnload
  repeat' first
    | with_reducible assumption
    | with_reducible apply kciFail_within (hW.of (by decide))
    | with_reducible refine kci_within (hW.of (by decide)) ?_ (fun t ht => ?_)
    | with_reducible apply unloadNode_within (hW.of (by decide))
    | with_reducible refine Within.ite (fun _ => ?_) (fun _ => ?_)
    | with_reducible apply KciRes.within_fail
    | with_reducible apply WithinOut.next
    | split

theorem execNodeArm_within (hW : Sub [.bull, .clk, .clu, .core, .gh, .hbm, .hif, .kml, .out, .pmu, .regs, .seed, .time, .txHold, .ump] Ω) {h' : KciHdr} {node : Nat} (h : Within Ω a s) : WithinOut Ω a (execNodeArm h' node s) := by
  unfold execNodeArm
  repeat' first
    | with_reducible assumption
    | with_reducible apply armNode_within (hW.of (by decide))
    | refine armNode_within_some (hW.of (by decide)) (by assumption) ?_
    | with_reducible apply kciFail_within (hW.of (by decide))
    | with_reducible apply kciOk_within (hW.of (by decide))
    | with_reducible refine kci_within (hW.of (by decide)) ?_ (fun t ht => ?_)
    | with_reducible refine Within.ite (fun _ => ?_) (fun _ => ?_)
    | with_reducible apply KciRes.within_fail
    | with_reducible apply KciRes.within_ok
    | with_reducible apply WithinOut.next
    | split

theorem execNodeCancel_within (hW : Sub [.bull, .cfg, .clk, .clu, .core, .free, .gh, .graphs, .hbm, .hif, .kml, .mq, .out, .pmu, .regs, .seed, .time, .txHold, .ump] Ω) {h' : KciHdr} {node : Nat} (h : Within Ω a s) : WithinOut Ω a (execNodeCancel h' node s) := by
  unfold execNodeCancel
  repeat' first
    | with_reducible assumption
    | with_reducible apply cancelNode_within (hW.of (by decide))
    | with_reducible apply kciFail_within (hW.of (by decide))
    | with_reducible apply kciOk_within (hW.of (by decide))
    | with_reducible refine kci_within (hW.of (by decide)) ?_ (fun t ht => ?_)
    | with_reducible refine Within.ite (fun _ => ?_) (fun _ => ?_)
    | with_reducible apply KciRes.within_fail
    | with_reducible apply KciRes.within_ok
    | with_reducible apply WithinOut.next
    | split

theorem execNodePost_within (hW : Sub [.bull, .clk, .clu, .core, .gh, .hbm, .hif, .out, .pmu, .regs, .seed, .time, .txHold, .ump] Ω) {h' : KciHdr} {node : Nat} {flags : Nat} (h : Within Ω a s) : WithinOut Ω a (execNodePost h' node flags s) := by
  unfold execNodePost
  repeat' first
    | with_reducible assumption
    | with_reducible apply kci_within (hW.of (by decide))
    | with_reducible apply kciFail_within (hW.of (by decide))
    | with_reducible apply voidPost_within (hW.of (by decide))
    | refine postNode_within_some (hW.of (by decide)) (by assumption) ?_
    | with_reducible apply postNode_within (hW.of (by decide))
    | with_reducible apply kciOk_within (hW.of (by decide))
    | with_reducible refine Within.ite (fun _ => ?_) (fun _ => ?_)
    | with_reducible refine Within.foldl ?_ (fun t x ht => ?_)
    | (intro c hc; first | exact hc | (simp; done) | (simpa using hc))
    | with_reducible apply WithinOut.next
    | with_reducible refine kci_within (hW.of (by decide)) ?_ (fun t ht => ?_)
    | with_reducible apply KciRes.within_fail
    | with_reducible apply KciRes.within_ok
    | with_reducible apply KciRes.within_done
    | with_reducible apply KciRes.within_wait
    | with_reducible apply KciRes.within_record
    | intro t ht
    | extract_lets
    | split
    | dsimp only
    | ((with_reducible refine Within.mk_same rfl ?_ ?_); (intro p hn; cases p <;> first | rfl | exact absurd (hW.use (by decide)) hn))

theorem joinBeat_within (hW : Sub [.bull] Ω) {n : Nat} {g : Nat} {d : NodeD} (h : Within Ω a s) : (joinBeat n g d s).Ins Ω a := by
  unfold joinBeat
  repeat' first
    | with_reducible assumption
    | with_reducible apply State.setNode_within (hW.of (by decide))
    | with_reducible apply State.updGen_within (hW.of (by decide))
    | with_reducible apply kciFail_within (hW.of (by decide))
    | with_reducible apply kciOk_within (hW.of (by decide))
    | with_reducible refine Within.ite (fun _ => ?_) (fun _ => ?_)
    | with_reducible apply KciRes.within_fail
    | with_reducible apply KciRes.within_ok
    | exact fun _ hc => hc
    | split

theorem execNodeBeat_within (hW : Sub [.bull, .core, .hif, .out, .regs] Ω) {h' : KciHdr} {node : Nat} {gen : Nat} (h : Within Ω a s) : WithinOut Ω a (execNodeBeat h' node gen s) := by
  unfold execNodeBeat
  repeat' first
    | with_reducible assumption
    | with_reducible apply kciFail_within (hW.of (by decide))
    | with_reducible refine kci_within (hW.of (by decide)) ?_ (fun t ht => ?_)
    | with_reducible apply joinBeat_within (hW.of (by decide))
    | with_reducible refine Within.ite (fun _ => ?_) (fun _ => ?_)
    | with_reducible apply KciRes.within_fail
    | with_reducible apply WithinOut.next
    | split

theorem execNodeRead_within (hW : Sub [.core, .hif, .out, .regs] Ω) {h' : KciHdr} {node : Nat} (h : Within Ω a s) : WithinOut Ω a (execNodeRead h' node s) := by
  unfold execNodeRead
  repeat' first
    | with_reducible assumption

    | with_reducible apply kciFail_within (hW.of (by decide))
    | with_reducible refine kci_within (hW.of (by decide)) ?_ (fun t ht => ?_)
    | with_reducible refine Within.ite (fun _ => ?_) (fun _ => ?_)
    | with_reducible apply KciRes.within_fail
    | with_reducible apply KciRes.within_record
    | with_reducible apply WithinOut.next
    | split

theorem execNodeEvict_within (hW : Sub [.bull, .core, .gh, .hif, .out, .regs] Ω) {h' : KciHdr} {node : Nat} (h : Within Ω a s) : WithinOut Ω a (execNodeEvict h' node s) := by
  unfold execNodeEvict
  repeat' first
    | with_reducible assumption
    | with_reducible apply State.setNode_within (hW.of (by decide))
    | with_reducible apply State.setGh_within (hW.of (by decide))
    | with_reducible apply invalidate_within (hW.of (by decide))

    | with_reducible apply kciFail_within (hW.of (by decide))
    | with_reducible apply kciOk_within (hW.of (by decide))
    | with_reducible refine kci_within (hW.of (by decide)) ?_ (fun t ht => ?_)
    | with_reducible refine Within.ite (fun _ => ?_) (fun _ => ?_)
    | with_reducible apply KciRes.within_fail
    | with_reducible apply KciRes.within_ok
    | with_reducible apply KciRes.within_wait
    | with_reducible apply WithinOut.next
    | split

theorem execTimerArm_within (hW : Sub [.bull, .core, .free, .hif, .out, .regs] Ω) {h' : KciHdr} {op : TimerOp} (h : Within Ω a s) : WithinOut Ω a (execTimerArm h' op s) := by
  unfold execTimerArm
  repeat' first
    | with_reducible assumption
    | with_reducible apply insertTimer_within (hW.of (by decide))
    | refine insertTimer_within_pair (hW.of (by decide)) (by assumption) ?_
    | with_reducible apply kciFail_within (hW.of (by decide))
    | with_reducible refine kci_within (hW.of (by decide)) ?_ (fun t ht => ?_)
    | with_reducible refine Within.ite (fun _ => ?_) (fun _ => ?_)
    | with_reducible apply CoreRes.within_done
    | with_reducible apply KciRes.within_fail
    | with_reducible apply KciRes.within_done
    | with_reducible apply WithinOut.next
    | extract_lets
    | split

theorem execTimerCancel_within (hW : Sub [.bull, .core, .hif, .out, .regs] Ω) {h' : KciHdr} {timer : Nat} (h : Within Ω a s) : WithinOut Ω a (execTimerCancel h' timer s) := by
  unfold execTimerCancel
  repeat' first
    | with_reducible assumption
    | with_reducible apply kciFail_within (hW.of (by decide))
    | with_reducible apply kciOk_within (hW.of (by decide))
    | with_reducible refine kci_within (hW.of (by decide)) ?_ (fun t ht => ?_)
    | with_reducible refine Within.ite (fun _ => ?_) (fun _ => ?_)
    | with_reducible apply KciRes.within_fail
    | with_reducible apply KciRes.within_ok
    | with_reducible apply WithinOut.next
    | split
    | dsimp only
    | intro t ht
    | ((with_reducible refine Within.mk_same rfl ?_ ?_); (intro p hn; cases p <;> first | rfl | exact absurd (hW.use (by decide)) hn))

theorem setBeat_within (hW : Sub [.bull] Ω) {o : BeatOp} (h : Within Ω a s) : Within Ω a (setBeat o s) := by
  unfold setBeat
  repeat' first
    | with_reducible assumption
    | with_reducible apply State.updGen_within (hW.of (by decide))
    | with_reducible refine Within.ite (fun _ => ?_) (fun _ => ?_)
    | with_reducible refine Within.foldl ?_ (fun t x ht => ?_)
    | (intro c hc; first | exact hc | (simp; done) | (simpa using hc))
    | extract_lets
    | split
    | dsimp only
    | ((with_reducible refine Within.mk_same rfl ?_ ?_); (intro p hn; cases p <;> first | rfl | exact absurd (hW.use (by decide)) hn))

theorem execTimerBeat_within (hW : Sub [.bull, .core, .hif, .out, .regs] Ω) {h' : KciHdr} {op : BeatOp} (h : Within Ω a s) : WithinOut Ω a (execTimerBeat h' op s) := by
  unfold execTimerBeat
  repeat' first
    | with_reducible assumption
    | with_reducible apply kciFail_within (hW.of (by decide))
    | with_reducible apply kciOk_within (hW.of (by decide))
    | with_reducible refine kci_within (hW.of (by decide)) ?_ (fun t ht => ?_)
    | with_reducible apply setBeat_within (hW.of (by decide))
    | with_reducible refine Within.ite (fun _ => ?_) (fun _ => ?_)
    | with_reducible apply KciRes.within_fail
    | with_reducible apply KciRes.within_ok
    | with_reducible apply WithinOut.next
    | split

theorem openQueue_within (hW : Sub [.mq] Ω) {o : QueueOp} (h : Within Ω a s) : (openQueue o s).Ins Ω a := by
  unfold openQueue
  repeat' first
    | with_reducible assumption
    | with_reducible apply State.setQueue_within (hW.of (by decide))
    | with_reducible apply kciFail_within (hW.of (by decide))
    | with_reducible apply kciOk_within (hW.of (by decide))
    | with_reducible refine Within.ite (fun _ => ?_) (fun _ => ?_)
    | with_reducible apply KciRes.within_fail
    | with_reducible apply KciRes.within_ok
    | split

theorem execQueueOpen_within (hW : Sub [.core, .hif, .mq, .out, .regs] Ω) {h' : KciHdr} {op : QueueOp} (h : Within Ω a s) : WithinOut Ω a (execQueueOpen h' op s) := by
  unfold execQueueOpen
  repeat' first
    | with_reducible assumption
    | with_reducible refine kci_within (hW.of (by decide)) ?_ (fun t ht => ?_)
    | with_reducible apply openQueue_within (hW.of (by decide))
    | with_reducible apply WithinOut.next

theorem execQueueClose_within (hW : Sub [.core, .graphs, .hbm, .hif, .mq, .out, .regs, .seed, .ump] Ω) {h' : KciHdr} {queue : Nat} (h : Within Ω a s) : WithinOut Ω a (execQueueClose h' queue s) := by
  unfold execQueueClose
  repeat' first
    | with_reducible assumption
    | with_reducible apply closeQueue_within (hW.of (by decide))
    | refine closeQueue_within_pair (hW.of (by decide)) (by assumption) ?_
    | with_reducible apply kciFail_within (hW.of (by decide))
    | with_reducible refine kci_within (hW.of (by decide)) ?_ (fun t ht => ?_)
    | with_reducible refine Within.ite (fun _ => ?_) (fun _ => ?_)
    | with_reducible apply CoreRes.within_done
    | with_reducible apply KciRes.within_fail
    | with_reducible apply KciRes.within_done
    | with_reducible apply WithinOut.next
    | extract_lets
    | split

theorem onQueue_within (hW : Sub [] Ω) {queue : Nat} {ok : Queue → Bool} {f : Queue → State → KciRes} (h : Within Ω a s) (hf : ∀ x t, Within Ω a t → (f x t).Ins Ω a) :
    (onQueue queue ok f s).Ins Ω a := by
  unfold onQueue
  repeat' first
    | exact h
    | exact hf _ _ h
    | split

theorem execQueueMark_within (hW : Sub [.core, .hbm, .hif, .mq, .out, .regs, .seed, .ump] Ω) {h' : KciHdr} {queue : Nat} (h : Within Ω a s) : WithinOut Ω a (execQueueMark h' queue s) := by
  unfold execQueueMark
  repeat' first
    | with_reducible assumption
    | with_reducible apply placeMark_within (hW.of (by decide))
    | with_reducible apply kciOk_within (hW.of (by decide))
    | with_reducible refine kci_within (hW.of (by decide)) ?_ (fun t ht => ?_)
    | with_reducible refine onQueue_within (hW.of (by decide)) ?_ (fun x t ht => ?_)
    | with_reducible apply KciRes.within_ok
    | with_reducible apply WithinOut.next

theorem execQueueMarkClear_within (hW : Sub [.core, .hbm, .hif, .mq, .out, .regs, .seed, .ump] Ω) {h' : KciHdr} {queue : Nat} (h : Within Ω a s) : WithinOut Ω a (execQueueMarkClear h' queue s) := by
  unfold execQueueMarkClear
  repeat' first
    | with_reducible assumption
    | with_reducible apply clearMark_within (hW.of (by decide))
    | with_reducible apply kciOk_within (hW.of (by decide))
    | with_reducible refine kci_within (hW.of (by decide)) ?_ (fun t ht => ?_)
    | with_reducible refine onQueue_within (hW.of (by decide)) ?_ (fun x t ht => ?_)
    | with_reducible apply KciRes.within_ok
    | with_reducible apply WithinOut.next

theorem rewind_within (hW : Sub [.mq] Ω) {queue : Nat} {x : Queue} (h : Within Ω a s) : (rewind queue x s).Ins Ω a := by
  unfold rewind
  repeat' first
    | with_reducible assumption
    | with_reducible apply replayAll_within (hW.of (by decide))
    | with_reducible apply kciOk_within (hW.of (by decide))
    | with_reducible apply KciRes.within_ok
    | with_reducible apply KciRes.within_done
    | split

theorem execQueueRewind_within (hW : Sub [.core, .hif, .mq, .out, .regs] Ω) {h' : KciHdr} {queue : Nat} (h : Within Ω a s) : WithinOut Ω a (execQueueRewind h' queue s) := by
  unfold execQueueRewind
  repeat' first
    | with_reducible assumption
    | with_reducible refine kci_within (hW.of (by decide)) ?_ (fun t ht => ?_)
    | with_reducible refine onQueue_within (hW.of (by decide)) ?_ (fun x t ht => ?_)
    | with_reducible apply rewind_within (hW.of (by decide))
    | with_reducible apply WithinOut.next

theorem execQueueRewindFromOldest_within (hW : Sub [.core, .hif, .mq, .out, .regs] Ω) {h' : KciHdr} {queue : Nat} (h : Within Ω a s) : WithinOut Ω a (execQueueRewindFromOldest h' queue s) := by
  unfold execQueueRewindFromOldest
  repeat' first
    | with_reducible assumption
    | with_reducible apply replayAll_within (hW.of (by decide))
    | with_reducible apply kciOk_within (hW.of (by decide))
    | with_reducible refine kci_within (hW.of (by decide)) ?_ (fun t ht => ?_)
    | with_reducible refine onQueue_within (hW.of (by decide)) ?_ (fun x t ht => ?_)
    | with_reducible refine Within.ite (fun _ => ?_) (fun _ => ?_)
    | with_reducible apply CoreRes.within_done
    | with_reducible apply KciRes.within_ok
    | with_reducible apply KciRes.within_done
    | with_reducible apply WithinOut.next
    | split

theorem execQueueStats_within (hW : Sub [.core, .hif, .mq, .out, .regs] Ω) {h' : KciHdr} {queue : Nat} {clear : Bool} (h : Within Ω a s) : WithinOut Ω a (execQueueStats h' queue clear s) := by
  unfold execQueueStats
  repeat' first
    | with_reducible assumption
    | with_reducible apply State.setQueue_within (hW.of (by decide))

    | with_reducible apply kciFail_within (hW.of (by decide))
    | with_reducible refine kci_within (hW.of (by decide)) ?_ (fun t ht => ?_)
    | with_reducible refine Within.ite (fun _ => ?_) (fun _ => ?_)
    | with_reducible apply KciRes.within_fail
    | with_reducible apply KciRes.within_record
    | with_reducible apply WithinOut.next
    | split

theorem openAccount_within (hW : Sub [.seed] Ω) {o : AccountOp} (h : Within Ω a s) : (openAccount o s).Ins Ω a := by
  unfold openAccount
  repeat' first
    | with_reducible assumption
    | with_reducible apply State.setSeed_within (hW.of (by decide))
    | with_reducible apply kciFail_within (hW.of (by decide))
    | with_reducible apply kciOk_within (hW.of (by decide))
    | with_reducible refine Within.ite (fun _ => ?_) (fun _ => ?_)
    | with_reducible apply KciRes.within_fail
    | with_reducible apply KciRes.within_ok
    | extract_lets
    | split

theorem execSysAccount_within (hW : Sub [.core, .hif, .out, .regs, .seed] Ω) {h' : KciHdr} {op : AccountOp} (h : Within Ω a s) : WithinOut Ω a (execSysAccount h' op s) := by
  unfold execSysAccount
  repeat' first
    | with_reducible assumption
    | with_reducible refine kci_within (hW.of (by decide)) ?_ (fun t ht => ?_)
    | with_reducible apply openAccount_within (hW.of (by decide))
    | with_reducible apply WithinOut.next

theorem execSysAccountClose_within (hW : Sub [.core, .graphs, .hif, .out, .regs, .seed] Ω) {h' : KciHdr} {account : Nat} (h : Within Ω a s) : WithinOut Ω a (execSysAccountClose h' account s) := by
  unfold execSysAccountClose
  repeat' first
    | with_reducible assumption
    | with_reducible apply closeAccount_within (hW.of (by decide))
    | with_reducible apply kciFail_within (hW.of (by decide))
    | with_reducible apply kciOk_within (hW.of (by decide))
    | with_reducible refine kci_within (hW.of (by decide)) ?_ (fun t ht => ?_)
    | with_reducible refine Within.ite (fun _ => ?_) (fun _ => ?_)
    | with_reducible apply KciRes.within_fail
    | with_reducible apply KciRes.within_ok
    | with_reducible apply WithinOut.next
    | split

theorem execSysAccountStats_within (hW : Sub [.core, .hif, .out, .regs, .seed] Ω) {h' : KciHdr} {account : Nat} {clear : Bool} (h : Within Ω a s) : WithinOut Ω a (execSysAccountStats h' account clear s) := by
  unfold execSysAccountStats
  repeat' first
    | with_reducible assumption
    | with_reducible apply State.setSeed_within (hW.of (by decide))
    | with_reducible apply kciFail_within (hW.of (by decide))
    | with_reducible refine kci_within (hW.of (by decide)) ?_ (fun t ht => ?_)
    | with_reducible refine Within.ite (fun _ => ?_) (fun _ => ?_)
    | with_reducible apply CoreRes.within_done
    | with_reducible apply KciRes.within_fail
    | with_reducible apply KciRes.within_done
    | with_reducible apply WithinOut.next
    | extract_lets
    | split

end Sys2Proof.Machine
end

