-- ==== Sys2Proof/Laws/WithinNet.lean ====
section
/-!
SUPPORT. Laws/WithinNet.lean: which parts of the state every operation of the network may change.
-/

namespace Sys2Proof.Machine

variable {Ω : Part → Prop} {a s : State}

theorem State.setNet_within (hW : Sub [.net] Ω) {f : NetSt → NetSt} (h : Within Ω a s) : Within Ω a (State.setNet s f) := by
  unfold State.setNet
  repeat' first
    | with_reducible assumption
    | dsimp only
    | ((with_reducible refine Within.mk_same rfl ?_ ?_); (intro p hn; cases p <;> first | rfl | exact absurd (hW.use (by decide)) hn))

theorem State.updPort_within (hW : Sub [.net] Ω) {p : Nat} {f : PortSt → PortSt} (h : Within Ω a s) : Within Ω a (State.updPort s p f) := by
  unfold State.updPort
  repeat' first
    | with_reducible assumption
    | with_reducible apply State.setNet_within (hW.of (by decide))

theorem State.updRx_within (hW : Sub [.net] Ω) {f : Nat} {g : RxFlow → RxFlow} (h : Within Ω a s) : Within Ω a (State.updRx s f g) := by
  unfold State.updRx
  repeat' first
    | with_reducible assumption
    | with_reducible apply State.setNet_within (hW.of (by decide))
    | split

theorem State.updTx_within (hW : Sub [.net] Ω) {f : Nat} {g : TxFlow → TxFlow} (h : Within Ω a s) : Within Ω a (State.updTx s f g) := by
  unfold State.updTx
  repeat' first
    | with_reducible assumption
    | with_reducible apply State.setNet_within (hW.of (by decide))
    | split

theorem linkDown_within (hW : Sub [.hif, .out, .regs] Ω) {p : Nat} (h : Within Ω a s) : Within Ω a (linkDown p s) := by
  unfold linkDown
  extract_lets s1 s2 s3
  have h1 : Within Ω a s1 := by
    unfold s1
    repeat' first
      | with_reducible assumption
      | with_reducible apply State.setFld_within (hW.of (by decide))
  clear_value s1
  have h2 : Within Ω a s2 := by
    unfold s2
    repeat' first
      | with_reducible assumption
      | with_reducible apply State.setFld_within (hW.of (by decide))
  clear_value s2
  have h3 : Within Ω a s3 := by
    unfold s3
    repeat' first
      | with_reducible assumption
      | with_reducible apply State.setFld_within (hW.of (by decide))
  clear_value s3
  repeat' first
    | with_reducible assumption
    | with_reducible apply State.setFld_within (hW.of (by decide))
    | with_reducible apply raiseFld_within (hW.of (by decide))
    | with_reducible refine Within.ite (fun _ => ?_) (fun _ => ?_)

theorem linkChange_within (hW : Sub [.hif, .out, .regs] Ω) {p : Nat} {up : Bool} {hiSer : Bool} (h : Within Ω a s) : Within Ω a (linkChange p up hiSer s) := by
  unfold linkChange
  extract_lets s1 s2
  have h1 : Within Ω a s1 := by
    unfold s1
    repeat' first
      | with_reducible assumption
      | with_reducible apply State.setFld_within (hW.of (by decide))
  clear_value s1
  have h2 : Within Ω a s2 := by
    unfold s2
    repeat' first
      | with_reducible assumption
      | with_reducible apply State.setFld_within (hW.of (by decide))
  clear_value s2
  repeat' first
    | with_reducible assumption
    | with_reducible apply State.setFld_within (hW.of (by decide))
    | with_reducible apply linkDown_within (hW.of (by decide))
    | with_reducible refine Within.ite (fun _ => ?_) (fun _ => ?_)

theorem execEthernetLinkChange_within (hW : Sub [.hif, .out, .regs] Ω) {port : Nat} {up : Bool} {hiSer : Bool} (h : Within Ω a s) : WithinOut Ω a (execEthernetLinkChange port up hiSer s) := by
  unfold execEthernetLinkChange
  repeat' first
    | with_reducible assumption
    | with_reducible apply linkChange_within (hW.of (by decide))
    | with_reducible apply WithinOut.next

theorem acceptMedia_within (hW : Sub [.net, .regs] Ω) {p : Nat} {fl : Nat} {pathB : Bool} {x : RxFlow} {f : Frame} (h : Within Ω a s) : Within Ω a (acceptMedia p fl pathB x f s) := by
  unfold acceptMedia
  extract_lets v1 v2 v3 v4 v5
  clear_value v1 v2 v3 v4 v5
  repeat' first
    | with_reducible assumption
    | with_reducible apply State.bump_within (hW.of (by decide))
    | with_reducible apply State.updPort_within (hW.of (by decide))
    | with_reducible apply State.updRx_within (hW.of (by decide))
    | with_reducible refine Within.ite (fun _ => ?_) (fun _ => ?_)

theorem netReceive_within (hW : Sub [.hif, .net, .out, .pmu, .regs] Ω) {p : Nat} {f : Frame} (h : Within Ω a s) : Within Ω a (netReceive p f s) := by
  unfold netReceive
  extract_lets s1 s2
  have h1 : Within Ω a s1 := by
    unfold s1
    repeat' first
      | with_reducible assumption
      | with_reducible apply State.bump_within (hW.of (by decide))
      | with_reducible apply pmuEvent_within (hW.of (by decide))
  clear_value s1
  have h2 : Within Ω a s2 := by
    unfold s2
    repeat' first
      | with_reducible assumption
      | with_reducible apply State.bump_within (hW.of (by decide))
  clear_value s2
  repeat' first
    | with_reducible assumption
    | with_reducible apply State.bump_within (hW.of (by decide))
    | with_reducible apply pmuEvent_within (hW.of (by decide))
    | with_reducible apply State.updPort_within (hW.of (by decide))
    | with_reducible apply State.updRx_within (hW.of (by decide))
    | with_reducible apply acceptMedia_within (hW.of (by decide))
    | with_reducible refine Within.ite (fun _ => ?_) (fun _ => ?_)
    | with_reducible refine Within.foldl ?_ (fun t x ht => ?_)
    | exact fun _ hc => hc
    | extract_lets
    | split

theorem execEthernetFrameReceive_within (hW : Sub [.hif, .net, .out, .pmu, .regs] Ω) {port : Nat} {frame : Frame} (h : Within Ω a s) : WithinOut Ω a (execEthernetFrameReceive port frame s) := by
  unfold execEthernetFrameReceive
  repeat' first
    | with_reducible assumption
    | with_reducible apply netReceive_within (hW.of (by decide))
    | with_reducible refine Within.ite (fun _ => ?_) (fun _ => ?_)
    | with_reducible refine Within.foldl ?_ (fun t x ht => ?_)
    | (intro c hc; first | exact hc | (simp; done) | (simpa using hc))
    | with_reducible apply WithinOut.next
    | extract_lets
    | split
    | dsimp only

theorem loopBack_within (hW : Sub [.hif, .net, .out, .pmu, .regs] Ω) {p : Nat} {f : Frame} (h : Within Ω a s) : Within Ω a (loopBack p f s) := by
  unfold loopBack
  repeat' first
    | with_reducible assumption
    | with_reducible apply netReceive_within (hW.of (by decide))
    | with_reducible refine Within.ite (fun _ => ?_) (fun _ => ?_)
    | with_reducible refine Within.foldl ?_ (fun t x ht => ?_)
    | (intro c hc; first | exact hc | (simp; done) | (simpa using hc))
    | extract_lets
    | split
    | dsimp only
    | ((with_reducible refine Within.mk_same rfl ?_ ?_); (intro p hn; cases p <;> first | rfl | exact absurd (hW.use (by decide)) hn))

theorem serviceTake_within (hW : Sub [.net, .time] Ω) {p : Nat} (h : Within Ω a s) : Within Ω a (serviceTake p s) := by
  unfold serviceTake
  repeat' first
    | with_reducible assumption
    | with_reducible apply State.updPort_within (hW.of (by decide))
    | with_reducible refine Within.ite (fun _ => ?_) (fun _ => ?_)
    | exact fun _ hc => hc
    | extract_lets
    | split
    | dsimp only
    | intro t ht
    | ((with_reducible refine Within.mk_same rfl ?_ ?_); (intro p hn; cases p <;> first | rfl | exact absurd (hW.use (by decide)) hn))

theorem execServiceFifoPacket_within (hW : Sub [.net, .time] Ω) {port : Nat} (h : Within Ω a s) : WithinOut Ω a (execServiceFifoPacket port s) := by
  unfold execServiceFifoPacket
  repeat' first
    | with_reducible assumption
    | with_reducible apply serviceTake_within (hW.of (by decide))
    | with_reducible apply WithinOut.next

theorem admitHead_within (hW : Sub [.flash, .flc, .free, .hbm, .hif, .mq, .net, .out, .pmu, .regs, .seed, .ump] Ω) {p : Nat} (h : Within Ω a s) : Within Ω a (admitHead p s) := by
  unfold admitHead
  repeat' first
    | with_reducible assumption
    | with_reducible apply State.updPort_within (hW.of (by decide))
    | with_reducible apply State.bump_within (hW.of (by decide))
    | refine seedAlloc_within_pair (hW.of (by decide)) (by assumption) ?_
    | with_reducible apply seedAlloc_within (hW.of (by decide))
    | with_reducible apply bufWrite_within (hW.of (by decide))
    | with_reducible apply mqPush_within (hW.of (by decide))
    | with_reducible refine Within.ite (fun _ => ?_) (fun _ => ?_)
    | with_reducible refine Within.foldl ?_ (fun t x ht => ?_)
    | (intro c hc; first | exact hc | (simp; done) | (simpa using hc))
    | extract_lets
    | split
    | dsimp only
    | ((with_reducible refine Within.mk_same rfl ?_ ?_); (intro p hn; cases p <;> first | rfl | exact absurd (hW.use (by decide)) hn))

theorem execMediaPacketAdmit_within (hW : Sub [.flash, .flc, .free, .hbm, .hif, .mq, .net, .out, .pmu, .regs, .seed, .ump] Ω) {port : Nat} (h : Within Ω a s) : WithinOut Ω a (execMediaPacketAdmit port s) := by
  unfold execMediaPacketAdmit
  repeat' first
    | with_reducible assumption
    | with_reducible apply admitHead_within (hW.of (by decide))
    | with_reducible apply WithinOut.next

theorem flowEvent_within (hW : Sub [.hif, .out, .regs] Ω) {fl : Nat} {pathB : Bool} (h : Within Ω a s) : Within Ω a (flowEvent fl pathB s) := by
  unfold flowEvent
  repeat' first
    | with_reducible assumption
    | with_reducible apply State.bump_within (hW.of (by decide))
    | with_reducible apply raiseFld_within (hW.of (by decide))
    | with_reducible apply State.setHif_within (hW.of (by decide))
    | with_reducible refine Within.ite (fun _ => ?_) (fun _ => ?_)

theorem pathDown_within (hW : Sub [.clk, .hbm, .hif, .net, .out, .pmu, .regs, .seed, .time, .txHold, .ump] Ω) {fl : Nat} {pathB : Bool} (h : Within Ω a s) : Within Ω a (pathDown fl pathB s) := by
  unfold pathDown
  repeat' first
    | with_reducible assumption
    | with_reducible apply advanceTo_within (hW.of (by decide))
    | with_reducible apply State.updRx_within (hW.of (by decide))
    | with_reducible apply flowEvent_within (hW.of (by decide))
    | with_reducible refine Within.ite (fun _ => ?_) (fun _ => ?_)
    | exact fun _ hc => hc
    | extract_lets
    | split

theorem execPathTimeout_within (hW : Sub [.clk, .hbm, .hif, .net, .out, .pmu, .regs, .seed, .time, .txHold, .ump] Ω) {flow : Nat} {pathB : Bool} (h : Within Ω a s) : WithinOut Ω a (execPathTimeout flow pathB s) := by
  unfold execPathTimeout
  repeat' first
    | with_reducible assumption
    | with_reducible apply pathDown_within (hW.of (by decide))
    | with_reducible apply WithinOut.next

theorem skewMiss_within (hW : Sub [.clk, .hbm, .hif, .net, .out, .pmu, .regs, .seed, .time, .txHold, .ump] Ω) {fl : Nat} {pathB : Bool} {seq : Nat} (h : Within Ω a s) : Within Ω a (skewMiss fl pathB seq s) := by
  unfold skewMiss
  repeat' first
    | with_reducible assumption
    | with_reducible apply advanceSince_within (hW.of (by decide))
    | with_reducible apply State.updRx_within (hW.of (by decide))
    | exact fun _ hc => hc
    | extract_lets
    | split

theorem execSkewPartnerTimeout_within (hW : Sub [.clk, .hbm, .hif, .net, .out, .pmu, .regs, .seed, .time, .txHold, .ump] Ω) {flow : Nat} {pathB : Bool} {seq : Nat} (h : Within Ω a s) : WithinOut Ω a (execSkewPartnerTimeout flow pathB seq s) := by
  unfold execSkewPartnerTimeout
  repeat' first
    | with_reducible assumption
    | with_reducible apply skewMiss_within (hW.of (by decide))
    | with_reducible apply WithinOut.next

theorem portPop_within (hW : Sub [.flash, .flc, .free, .hbm, .hif, .mq, .out, .pmu, .regs, .seed, .ump] Ω) {q : Nat} {bound : Option Nat} {acct : Option Nat} (h : Within Ω a s) : Within Ω a (portPop q bound acct s).2 := by
  unfold portPop
  repeat' first
    | with_reducible assumption
    | refine mqTake_within_pair (hW.of (by decide)) (by assumption) ?_
    | with_reducible apply mqTake_within (hW.of (by decide))
    | with_reducible apply countPop_within (hW.of (by decide))
    | with_reducible apply State.setQueue_within (hW.of (by decide))
    | with_reducible apply retainItem_within (hW.of (by decide))
    | with_reducible apply seedMove_within (hW.of (by decide))
    | with_reducible refine Within.ite (fun _ => ?_) (fun _ => ?_)
    | with_reducible refine Within.foldl ?_ (fun t x ht => ?_)
    | (intro c hc; first | exact hc | (simp; done) | (simpa using hc))
    | extract_lets
    | split
    | dsimp only
    | ((with_reducible refine Within.mk_same rfl ?_ ?_); (intro p hn; cases p <;> first | rfl | exact absurd (hW.use (by decide)) hn))

theorem portPop_within_pair (hW : Sub [.flash, .flc, .free, .hbm, .hif, .mq, .out, .pmu, .regs, .seed, .ump] Ω) {q : Nat} {bound : Option Nat} {acct : Option Nat} {y0} {t} (eqn : portPop q bound acct s = (y0, t)) (h : Within Ω a s) : Within Ω a t := by
  have := portPop_within (hW.of (by decide)) (q := q) (bound := bound) (acct := acct) h; rwa [eqn] at this

theorem releaseEntry_within (hW : Sub [.hbm, .hif, .out, .regs, .seed, .ump] Ω) {e : Entry} {loan : Bool} (h : Within Ω a s) : Within Ω a (releaseEntry e loan s) := by
  unfold releaseEntry
  repeat' first
    | with_reducible assumption
    | with_reducible apply seedFree_within (hW.of (by decide))
    | with_reducible refine Within.ite (fun _ => ?_) (fun _ => ?_)

theorem judgeCopy_within (hW : Sub [.net, .regs] Ω) {c : Copy} {late : Int} (h : Within Ω a s) : Within Ω a (judgeCopy c late s).2 := by
  unfold judgeCopy
  extract_lets v1 s1
  clear_value v1
  have h1 : Within Ω a s1 := by
    unfold s1
    repeat' first
      | with_reducible assumption
      | with_reducible apply State.bump_within (hW.of (by decide))
      | with_reducible apply State.updPort_within (hW.of (by decide))
      | with_reducible refine Within.ite (fun _ => ?_) (fun _ => ?_)
  clear_value s1
  repeat' first
    | with_reducible assumption
    | with_reducible apply State.bump_within (hW.of (by decide))
    | with_reducible apply State.updPort_within (hW.of (by decide))
    | with_reducible refine Within.ite (fun _ => ?_) (fun _ => ?_)
    | exact fun _ hc => hc
    | extract_lets
    | split

theorem judgeCopy_within_pair (hW : Sub [.net, .regs] Ω) {c : Copy} {late : Int} {x0} {t} (e : judgeCopy c late s = (x0, t)) (h : Within Ω a s) : Within Ω a t := by
  have := judgeCopy_within (hW.of (by decide)) (c := c) (late := late) h; rwa [e] at this

theorem egressCopies_within (hW : Sub [.hbm, .hif, .net, .out, .regs, .seed, .ump] Ω) {fl : Nat} {x : TxFlow} {i : Item} {loan : Bool} {e late : Int} (h : Within Ω a s) :
    Within Ω a (egressCopies fl x i loan e late s) := by
  unfold egressCopies
  extract_lets w0 w1 ts mk ra rb
  have ha : Within Ω a ra.2 := by
    unfold ra
    split
    · exact judgeCopy_within (hW.of (by decide)) h
    · exact h
  have hb : Within Ω a rb.2 := by
    unfold rb
    split
    · exact judgeCopy_within (hW.of (by decide)) ha
    · exact ha
  clear_value rb
  split
  · exact hb
  · exact releaseEntry_within (hW.of (by decide)) hb

theorem egressPop_within (hW : Sub [.flash, .flc, .free, .hbm, .hif, .mq, .net, .out, .pmu, .regs, .seed, .ump] Ω) {fl : Nat} {x : TxFlow} (h : Within Ω a s) : Within Ω a (egressPop fl x s) := by
  unfold egressPop
  repeat' first
    | with_reducible assumption
    | refine portPop_within_pair (hW.of (by decide)) (by assumption) ?_
    | with_reducible apply portPop_within (hW.of (by decide))
    | with_reducible apply State.updTx_within (hW.of (by decide))
    | with_reducible apply egressCopies_within (hW.of (by decide))
    | with_reducible refine Within.ite (fun _ => ?_) (fun _ => ?_)
    | with_reducible refine Within.foldl ?_ (fun t x ht => ?_)
    | (intro c hc; first | exact hc | (simp; done) | (simpa using hc))
    | extract_lets
    | split
    | dsimp only
    | ((with_reducible refine Within.mk_same rfl ?_ ?_); (intro p hn; cases p <;> first | rfl | exact absurd (hW.use (by decide)) hn))

theorem egressTake_within (hW : Sub [.clk, .flash, .flc, .free, .hbm, .hif, .mq, .net, .out, .pmu, .regs, .seed, .time, .txHold, .ump] Ω) {fl : Nat} (h : Within Ω a s) : Within Ω a (egressTake fl s) := by
  unfold egressTake
  repeat' first
    | with_reducible assumption
    | with_reducible apply egressPop_within (hW.of (by decide))
    | with_reducible apply advanceTo_within (hW.of (by decide))
    | with_reducible refine Within.ite (fun _ => ?_) (fun _ => ?_)
    | with_reducible refine Within.foldl ?_ (fun t x ht => ?_)
    | (intro c hc; first | exact hc | (simp; done) | (simpa using hc))
    | extract_lets
    | split
    | dsimp only
    | ((with_reducible refine Within.mk_same rfl ?_ ?_); (intro p hn; cases p <;> first | rfl | exact absurd (hW.use (by decide)) hn))

theorem execEgressTake_within (hW : Sub [.clk, .flash, .flc, .free, .hbm, .hif, .mq, .net, .out, .pmu, .regs, .seed, .time, .txHold, .ump] Ω) {flow : Nat} (h : Within Ω a s) : WithinOut Ω a (execEgressTake flow s) := by
  unfold execEgressTake
  repeat' first
    | with_reducible assumption
    | with_reducible apply egressTake_within (hW.of (by decide))
    | with_reducible apply WithinOut.next

theorem txStamp_within (hW : Sub [.regs, .time] Ω) {p : Nat} {id : Nat} (h : Within Ω a s) : Within Ω a (txStamp p id s) := by
  unfold txStamp
  extract_lets v1 v2
  clear_value v1 v2
  repeat' first
    | with_reducible assumption
    | with_reducible apply State.setFld_within (hW.of (by decide))
    | with_reducible apply State.bump_within (hW.of (by decide))
    | with_reducible refine Within.ite (fun _ => ?_) (fun _ => ?_)
    | extract_lets
    | split
    | dsimp only
    | ((with_reducible refine Within.mk_same rfl ?_ ?_); (intro p hn; cases p <;> first | rfl | exact absurd (hW.use (by decide)) hn))

theorem svcBack_within (hW : Sub [.free, .hif, .net, .out, .pmu, .regs] Ω) {p : Nat} {kind : FrameKind} {carries : UdpCarries} {ipv6 : Bool} {dst : Nat} {sport : Nat} {dport : Nat} (h : Within Ω a s) : Within Ω a (svcBack p kind carries ipv6 dst sport dport s) := by
  unfold svcBack
  repeat' first
    | with_reducible assumption
    | refine State.draw_within_pair (hW.of (by decide)) (by assumption) ?_
    | with_reducible apply State.draw_within (hW.of (by decide))
    | with_reducible apply netReceive_within (hW.of (by decide))
    | with_reducible refine Within.ite (fun _ => ?_) (fun _ => ?_)
    | with_reducible refine Within.foldl ?_ (fun t x ht => ?_)
    | (intro c hc; first | exact hc | (simp; done) | (simpa using hc))
    | extract_lets
    | split
    | dsimp only
    | ((with_reducible refine Within.mk_same rfl ?_ ?_); (intro p hn; cases p <;> first | rfl | exact absurd (hW.use (by decide)) hn))

theorem copyLeaves_within (hW : Sub [.clk, .free, .hbm, .hif, .net, .out, .pmu, .regs, .seed, .time, .txHold, .ump] Ω) {p : Nat} (h : Within Ω a s) : Within Ω a (copyLeaves p s) := by
  unfold copyLeaves
  repeat' first
    | with_reducible assumption
    | with_reducible apply advanceTo_within (hW.of (by decide))
    | with_reducible apply State.updPort_within (hW.of (by decide))
    | refine State.draw_within_pair (hW.of (by decide)) (by assumption) ?_
    | with_reducible apply State.draw_within (hW.of (by decide))
    | with_reducible apply State.emit_within (hW.of (by decide))
    | with_reducible apply pmuEvent_within (hW.of (by decide))
    | with_reducible apply State.bump_within (hW.of (by decide))
    | with_reducible apply State.updTx_within (hW.of (by decide))
    | with_reducible apply txStamp_within (hW.of (by decide))
    | with_reducible apply loopBack_within (hW.of (by decide))
    | with_reducible apply releaseEntry_within (hW.of (by decide))
    | with_reducible refine Within.ite (fun _ => ?_) (fun _ => ?_)
    | with_reducible refine Within.foldl ?_ (fun t x ht => ?_)
    | (intro c hc; first | exact hc | (simp; done) | (simpa using hc))
    | extract_lets
    | split
    | dsimp only
    | ((with_reducible refine Within.mk_same rfl ?_ ?_); (intro p hn; cases p <;> first | rfl | exact absurd (hW.use (by decide)) hn))

theorem execCopyDeparture_within (hW : Sub [.clk, .free, .hbm, .hif, .net, .out, .pmu, .regs, .seed, .time, .txHold, .ump] Ω) {port : Nat} (h : Within Ω a s) : WithinOut Ω a (execCopyDeparture port s) := by
  unfold execCopyDeparture
  repeat' first
    | with_reducible assumption
    | with_reducible apply copyLeaves_within (hW.of (by decide))
    | with_reducible apply WithinOut.next

theorem senderReport_within (hW : Sub [.free, .hif, .net, .out, .pmu, .regs] Ω) {fl : Nat} (h : Within Ω a s) : Within Ω a (senderReport fl s) := by
  unfold senderReport
  repeat' first
    | with_reducible assumption
    | with_reducible apply svcBack_within (hW.of (by decide))
    | with_reducible apply State.emit_within (hW.of (by decide))
    | with_reducible refine Within.ite (fun _ => ?_) (fun _ => ?_)
    | with_reducible refine Within.foldl ?_ (fun t x ht => ?_)
    | (intro c hc; first | exact hc | (simp; done) | (simpa using hc))
    | extract_lets
    | split
    | dsimp only
    | ((with_reducible refine Within.mk_same rfl ?_ ?_); (intro p hn; cases p <;> first | rfl | exact absurd (hW.use (by decide)) hn))

theorem execRtcpSenderReport_within (hW : Sub [.free, .hif, .net, .out, .pmu, .regs] Ω) {flow : Nat} (h : Within Ω a s) : WithinOut Ω a (execRtcpSenderReport flow s) := by
  unfold execRtcpSenderReport
  repeat' first
    | with_reducible assumption
    | with_reducible apply senderReport_within (hW.of (by decide))
    | with_reducible apply WithinOut.next

theorem joinKey_within (hW : Sub [.free, .hif, .net, .out, .pmu, .regs] Ω) {k : FlowKey} (h : Within Ω a s) : Within Ω a (joinKey k s) := by
  unfold joinKey
  repeat' first
    | with_reducible assumption
    | with_reducible apply State.emit_within (hW.of (by decide))
    | with_reducible apply svcBack_within (hW.of (by decide))
    | with_reducible refine Within.ite (fun _ => ?_) (fun _ => ?_)
    | with_reducible refine Within.foldl ?_ (fun t x ht => ?_)
    | (intro c hc; first | exact hc | (simp; done) | (simpa using hc))
    | extract_lets
    | split
    | dsimp only

theorem execFlowOpenRx_within (hW : Sub [.core, .free, .hif, .net, .out, .pmu, .regs] Ω) {h' : KciHdr} {len : Nat} {blk : RxBlock} (h : Within Ω a s) : WithinOut Ω a (execFlowOpenRx h' len blk s) := by
  unfold execFlowOpenRx
  repeat' first
    | with_reducible assumption
    | with_reducible apply kciFail_within (hW.of (by decide))
    | with_reducible apply kciOk_within (hW.of (by decide))
    | with_reducible refine kci_within (hW.of (by decide)) ?_ (fun t ht => ?_)
    | with_reducible apply State.setNet_within (hW.of (by decide))
    | with_reducible apply joinKey_within (hW.of (by decide))
    | with_reducible refine Within.ite (fun _ => ?_) (fun _ => ?_)
    | with_reducible apply KciRes.within_fail
    | with_reducible apply KciRes.within_ok
    | with_reducible apply WithinOut.next
    | split

theorem execFlowOpenTx_within (hW : Sub [.core, .free, .hif, .net, .out, .regs] Ω) {hd : KciHdr} {len : Nat} {blk : TxBlock} (h : Within Ω a s) : WithinOut Ω a (execFlowOpenTx hd len blk s) := by
  refine WithinOut.next (kci_within (hW.of (by decide)) h fun t ht => ?_)
  split
  · exact ht
  · exact State.setNet_within (hW.of (by decide)) (State.draw_within (hW.of (by decide)) ht)

theorem execFlowPortAddr_within (hW : Sub [.core, .hif, .net, .out, .regs] Ω) {h' : KciHdr} {len : Nat} {blk : PortAddr} (h : Within Ω a s) : WithinOut Ω a (execFlowPortAddr h' len blk s) := by
  unfold execFlowPortAddr
  repeat' first
    | with_reducible assumption
    | with_reducible apply kciOk_within (hW.of (by decide))
    | with_reducible refine kci_within (hW.of (by decide)) ?_ (fun t ht => ?_)
    | with_reducible apply State.updPort_within (hW.of (by decide))
    | with_reducible apply KciRes.within_ok
    | with_reducible apply WithinOut.next

theorem dropEntries_within (hW : Sub [.free, .hbm, .hif, .mq, .out, .pmu, .regs, .seed, .ump] Ω) {q : Nat} {x0 : Nat} (h : Within Ω a s) : Within Ω a (dropEntries q x0 s) := by
  induction x0 generalizing s with
  | zero =>
    unfold dropEntries
    repeat' first
      | with_reducible assumption
      | with_reducible apply discardHead_within (hW.of (by decide))
      | with_reducible refine Within.ite (fun _ => ?_) (fun _ => ?_)
      | with_reducible refine Within.foldl ?_ (fun t x ht => ?_)
      | (intro c hc; first | exact hc | (simp; done) | (simpa using hc))
      | extract_lets
      | split
      | dsimp only
  | succ n ih =>
    unfold dropEntries
    repeat' first
      | with_reducible apply ih
      | with_reducible assumption
      | with_reducible apply discardHead_within (hW.of (by decide))
      | with_reducible refine Within.ite (fun _ => ?_) (fun _ => ?_)
      | with_reducible refine Within.foldl ?_ (fun t x ht => ?_)
      | (intro c hc; first | exact hc | (simp; done) | (simpa using hc))
      | extract_lets
      | split
      | dsimp only

theorem execFlowClose_within (hW : Sub [.cfg, .core, .free, .hbm, .hif, .mq, .net, .out, .pmu, .regs, .seed, .ump] Ω) {h' : KciHdr} {flow : Nat} {dir : Nat} (h : Within Ω a s) : WithinOut Ω a (execFlowClose h' flow dir s) := by
  unfold execFlowClose
  repeat' first
    | with_reducible assumption
    | with_reducible apply kci_within (hW.of (by decide))
    | with_reducible apply kciFail_within (hW.of (by decide))
    | with_reducible apply kciOk_within (hW.of (by decide))
    | with_reducible apply dropStage_within (hW.of (by decide))
    | with_reducible apply State.setNet_within (hW.of (by decide))
    | with_reducible apply dropEntries_within (hW.of (by decide))
    | with_reducible refine Within.ite (fun _ => ?_) (fun _ => ?_)
    | with_reducible refine Within.foldl ?_ (fun t x ht => ?_)
    | (intro c hc; first | exact hc | (simp; done) | (simpa using hc))
    | with_reducible apply WithinOut.next
    | with_reducible refine kci_within (hW.of (by decide)) ?_ (fun t ht => ?_)
    | with_reducible apply KciRes.within_fail
    | with_reducible apply KciRes.within_ok
    | with_reducible apply KciRes.within_done
    | with_reducible apply KciRes.within_wait
    | with_reducible apply KciRes.within_record
    | intro t ht
    | extract_lets
    | split
    | dsimp only
    | ((with_reducible refine Within.mk_same rfl ?_ ?_); (intro p hn; cases p <;> first | rfl | exact absurd (hW.use (by decide)) hn))

theorem execFlowStats_within (hW : Sub [.core, .hif, .net, .out, .regs] Ω) {h' : KciHdr} {flow : Nat} {clear : Bool} (h : Within Ω a s) : WithinOut Ω a (execFlowStats h' flow clear s) := by
  unfold execFlowStats
  repeat' first
    | with_reducible assumption

    | with_reducible apply kciFail_within (hW.of (by decide))
    | with_reducible refine kci_within (hW.of (by decide)) ?_ (fun t ht => ?_)
    | with_reducible apply State.updRx_within (hW.of (by decide))
    | with_reducible refine Within.ite (fun _ => ?_) (fun _ => ?_)
    | with_reducible apply KciRes.within_fail
    | with_reducible apply KciRes.within_record
    | with_reducible apply WithinOut.next
    | exact fun _ hc => hc
    | split

end Sys2Proof.Machine
end

