-- ==== Sys2Proof/Laws/WithinRadio.lean ====
section
/-!
SUPPORT. Laws/WithinRadio.lean: which parts of the state every operation of radio and MADI may change.
-/

namespace Sys2Proof.Machine

variable {Ω : Part → Prop} {a s : State}

theorem reap_within (hW : Sub [.hbm, .hif, .out, .regs, .seed, .txHold, .ump] Ω) (h : Within Ω a s) : Within Ω a (reap s) := by
  unfold reap
  extract_lets v1
  clear_value v1
  repeat' first
    | with_reducible assumption
    | with_reducible apply seedFree_within (hW.of (by decide))
    | with_reducible refine Within.foldl ?_ (fun t x ht => ?_)
    | extract_lets
    | dsimp only
    | intro t ht
    | ((with_reducible refine Within.mk_same rfl ?_ ?_); (intro p hn; cases p <;> first | rfl | exact absurd (hW.use (by decide)) hn))

theorem idle_within (hW : Sub [.clk, .hbm, .hif, .out, .pmu, .regs, .seed, .time, .txHold, .ump] Ω) (h : Within Ω a s) : Within Ω a (idle s) := by
  unfold idle
  repeat' first
    | with_reducible assumption
    | with_reducible apply advance_within (hW.of (by decide))
    | with_reducible apply reap_within (hW.of (by decide))

theorem holdUntil_within (hW : Sub [.txHold] Ω) {target : Nat} {e : Entry} {loan : Bool} (h : Within Ω a s) : Within Ω a (holdUntil target e loan s) := by
  unfold holdUntil
  repeat' first
    | with_reducible assumption
    | with_reducible refine Within.ite (fun _ => ?_) (fun _ => ?_)
    | split
    | dsimp only
    | ((with_reducible refine Within.mk_same rfl ?_ ?_); (intro p hn; cases p <;> first | rfl | exact absurd (hW.use (by decide)) hn))

theorem commitRegs_within (hW : Sub [.cfg, .hif, .out, .regs] Ω) {id : Nat} {regs : List (Nat × Nat)} (h : Within Ω a s) : Within Ω a (commitRegs id regs s) := by
  unfold commitRegs
  extract_lets v1 s1 v2
  clear_value v1 v2
  have h1 : Within Ω a s1 := by
    unfold s1
    repeat' first
      | with_reducible assumption
      | with_reducible apply State.setReg_within (hW.of (by decide))
      | with_reducible apply finishWait_within (hW.of (by decide))
      | with_reducible refine Within.ite (fun _ => ?_) (fun _ => ?_)
      | with_reducible refine Within.foldl ?_ (fun t x ht => ?_)
  clear_value s1
  repeat' first
    | with_reducible assumption
    | with_reducible apply State.setReg_within (hW.of (by decide))
    | with_reducible apply finishWait_within (hW.of (by decide))
    | with_reducible refine Within.ite (fun _ => ?_) (fun _ => ?_)
    | with_reducible refine Within.foldl ?_ (fun t x ht => ?_)
    | extract_lets
    | split
    | dsimp only
    | intro t ht
    | ((with_reducible refine Within.mk_same rfl ?_ ?_); (intro p hn; cases p <;> first | rfl | exact absurd (hW.use (by decide)) hn))

theorem State.setMdm_within (hW : Sub [.mdm] Ω) {f : MdmSt → MdmSt} (h : Within Ω a s) : Within Ω a (State.setMdm s f) := by
  unfold State.setMdm
  repeat' first
    | with_reducible assumption
    | dsimp only
    | ((with_reducible refine Within.mk_same rfl ?_ ?_); (intro p hn; cases p <;> first | rfl | exact absurd (hW.use (by decide)) hn))

theorem State.updMport_within (hW : Sub [.mdm] Ω) {p : Nat} {f : MPort → MPort} (h : Within Ω a s) : Within Ω a (State.updMport s p f) := by
  unfold State.updMport
  repeat' first
    | with_reducible assumption
    | with_reducible apply State.setMdm_within (hW.of (by decide))

theorem State.updMlink_within (hW : Sub [.mdm] Ω) {l : Nat} {f : MLink → MLink} (h : Within Ω a s) : Within Ω a (State.updMlink s l f) := by
  unfold State.updMlink
  repeat' first
    | with_reducible assumption
    | with_reducible apply State.setMdm_within (hW.of (by decide))

theorem State.setRx_within (hW : Sub [.mdm] Ω) {r : RxSlot} (h : Within Ω a s) : Within Ω a (State.setRx s r) := by
  unfold State.setRx
  repeat' first
    | with_reducible assumption
    | with_reducible apply State.setMdm_within (hW.of (by decide))

theorem poolRegs_within (hW : Sub [.regs] Ω) (h : Within Ω a s) : Within Ω a (poolRegs s) := by
  unfold poolRegs
  repeat' first
    | with_reducible assumption
    | with_reducible apply State.setFld_within (hW.of (by decide))

theorem poolFill_within (hW : Sub [.mdm, .regs] Ω) {fuel : Nat} (h : Within Ω a s) : Within Ω a (poolFill fuel s) := by
  induction fuel generalizing s with
  | zero => exact poolRegs_within (hW.of (by decide)) h
  | succ fuel ih =>
    unfold poolFill
    split
    · exact poolRegs_within (hW.of (by decide)) h
    refine Within.ite (fun _ => ih (State.setMdm_within (hW.of (by decide)) ?_)) (fun _ => poolRegs_within (hW.of (by decide)) h)
    exact Within.ite (fun _ => State.setFld_within (hW.of (by decide)) h) (fun _ => h)

theorem applyLink_within (hW : Sub [.hif, .mdm, .out, .regs] Ω) {frame : Bool} {l : Nat} (h : Within Ω a s) : Within Ω a (applyLink frame l s) := by
  unfold applyLink
  extract_lets v1 s1 s2
  clear_value v1
  have h1 : Within Ω a s1 := by
    unfold s1
    repeat' first
      | with_reducible assumption
      | with_reducible apply finishWait_within (hW.of (by decide))
      | with_reducible apply State.updMlink_within (hW.of (by decide))
      | with_reducible refine Within.ite (fun _ => ?_) (fun _ => ?_)
      | exact fun _ hc => hc
      | extract_lets
      | split
  clear_value s1
  have h2 : Within Ω a s2 := by
    unfold s2
    repeat' first
      | with_reducible assumption
      | with_reducible apply finishWait_within (hW.of (by decide))
      | with_reducible apply State.updMlink_within (hW.of (by decide))
      | with_reducible refine Within.ite (fun _ => ?_) (fun _ => ?_)
  clear_value s2
  repeat' first
    | with_reducible assumption
    | with_reducible apply finishWait_within (hW.of (by decide))
    | with_reducible apply State.updMlink_within (hW.of (by decide))
    | with_reducible refine Within.ite (fun _ => ?_) (fun _ => ?_)
    | exact fun _ hc => hc
    | extract_lets
    | split

theorem endSlot_within (hW : Sub [.mdm] Ω) {p : Nat} (h : Within Ω a s) : Within Ω a (endSlot p s) := by
  unfold endSlot
  repeat' first
    | with_reducible assumption
    | with_reducible apply State.setMdm_within (hW.of (by decide))
    | with_reducible refine Within.ite (fun _ => ?_) (fun _ => ?_)
    | split

theorem slotBoundary_within (hW : Sub [.cfg, .clk, .free, .hbm, .hif, .mdm, .out, .pmu, .regs, .seed, .time, .txHold, .ump] Ω) {p : Nat} (h : Within Ω a s) : Within Ω a (slotBoundary p s) := by
  unfold slotBoundary
  extract_lets v1 s1 s2 s3 v2 s4 s5 s6
  clear_value v1 v2
  have h1 : Within Ω a s1 := by
    unfold s1
    repeat' first
      | with_reducible assumption
      | with_reducible apply State.setFld_within (hW.of (by decide))
      | with_reducible apply State.draw_within (hW.of (by decide))
      | refine State.draw_within_pair (hW.of (by decide)) (by assumption) ?_
      | with_reducible apply advanceTo_within (hW.of (by decide))
      | with_reducible apply reap_within (hW.of (by decide))
      | with_reducible apply commitRegs_within (hW.of (by decide))
      | with_reducible apply State.updMport_within (hW.of (by decide))
      | with_reducible apply applyLink_within (hW.of (by decide))
      | with_reducible apply endSlot_within (hW.of (by decide))
  clear_value s1
  have h2 : Within Ω a s2 := by
    unfold s2
    repeat' first
      | with_reducible assumption
      | with_reducible apply State.setFld_within (hW.of (by decide))
      | with_reducible apply State.draw_within (hW.of (by decide))
      | refine State.draw_within_pair (hW.of (by decide)) (by assumption) ?_
      | with_reducible apply advanceTo_within (hW.of (by decide))
      | with_reducible apply reap_within (hW.of (by decide))
      | with_reducible apply commitRegs_within (hW.of (by decide))
      | with_reducible apply State.updMport_within (hW.of (by decide))
      | with_reducible apply applyLink_within (hW.of (by decide))
      | with_reducible apply endSlot_within (hW.of (by decide))
      | with_reducible refine Within.ite (fun _ => ?_) (fun _ => ?_)
      | with_reducible refine Within.foldl ?_ (fun t x ht => ?_)
  clear_value s2
  have h3 : Within Ω a s3 := by
    unfold s3
    repeat' first
      | with_reducible assumption
      | with_reducible apply State.setFld_within (hW.of (by decide))
      | with_reducible apply State.draw_within (hW.of (by decide))
      | refine State.draw_within_pair (hW.of (by decide)) (by assumption) ?_
      | with_reducible apply advanceTo_within (hW.of (by decide))
      | with_reducible apply reap_within (hW.of (by decide))
      | with_reducible apply commitRegs_within (hW.of (by decide))
  clear_value s3
  have h4 : Within Ω a s4 := by
    unfold s4
    repeat' first
      | with_reducible assumption
      | with_reducible apply State.setFld_within (hW.of (by decide))
      | with_reducible apply State.draw_within (hW.of (by decide))
      | refine State.draw_within_pair (hW.of (by decide)) (by assumption) ?_
      | with_reducible apply advanceTo_within (hW.of (by decide))
      | with_reducible apply reap_within (hW.of (by decide))
      | with_reducible apply commitRegs_within (hW.of (by decide))
      | with_reducible apply State.updMport_within (hW.of (by decide))
  clear_value s4
  have h5 : Within Ω a s5 := by
    unfold s5
    repeat' first
      | with_reducible assumption
      | with_reducible apply State.setFld_within (hW.of (by decide))
  clear_value s5
  have h6 : Within Ω a s6 := by
    unfold s6
    repeat' first
      | with_reducible assumption
      | with_reducible apply State.setFld_within (hW.of (by decide))
      | with_reducible apply State.draw_within (hW.of (by decide))
      | refine State.draw_within_pair (hW.of (by decide)) (by assumption) ?_
      | with_reducible apply advanceTo_within (hW.of (by decide))
      | with_reducible apply reap_within (hW.of (by decide))
      | with_reducible apply commitRegs_within (hW.of (by decide))
      | with_reducible apply State.updMport_within (hW.of (by decide))
      | with_reducible apply applyLink_within (hW.of (by decide))
      | with_reducible apply endSlot_within (hW.of (by decide))
      | with_reducible refine Within.ite (fun _ => ?_) (fun _ => ?_)
  clear_value s6
  repeat' first
    | with_reducible assumption
    | with_reducible apply State.setFld_within (hW.of (by decide))
    | with_reducible apply State.draw_within (hW.of (by decide))
    | refine State.draw_within_pair (hW.of (by decide)) (by assumption) ?_
    | with_reducible apply advanceTo_within (hW.of (by decide))
    | with_reducible apply reap_within (hW.of (by decide))
    | with_reducible apply commitRegs_within (hW.of (by decide))
    | with_reducible apply State.updMport_within (hW.of (by decide))
    | with_reducible apply applyLink_within (hW.of (by decide))
    | with_reducible apply endSlot_within (hW.of (by decide))
    | with_reducible refine Within.ite (fun _ => ?_) (fun _ => ?_)

theorem execSlotBoundary_within (hW : Sub [.cfg, .clk, .free, .hbm, .hif, .mdm, .out, .pmu, .regs, .seed, .time, .txHold, .ump] Ω) {port : Nat} (h : Within Ω a s) : WithinOut Ω a (execSlotBoundary port s) := by
  unfold execSlotBoundary
  repeat' first
    | with_reducible assumption
    | with_reducible apply slotBoundary_within (hW.of (by decide))
    | with_reducible apply WithinOut.next

theorem countTx_within (hW : Sub [.mdm, .regs] Ω) {l : Nat} {which : Nat} (h : Within Ω a s) : Within Ω a (countTx l which s) := by
  unfold countTx
  extract_lets v1 v2
  clear_value v1
  repeat' first
    | with_reducible assumption
    | with_reducible apply State.bump_within (hW.of (by decide))
    | with_reducible apply State.updMlink_within (hW.of (by decide))
    | exact fun _ hc => hc
    | extract_lets
    | split

theorem takeEntry_within (hW : Sub [.flash, .flc, .free, .hbm, .hif, .mdm, .mq, .out, .pmu, .regs, .seed, .ump] Ω) {l start fuel : Nat} (h : Within Ω a s) : Within Ω a (takeEntry l start fuel s).2 := by
  induction fuel generalizing s with
  | zero => exact h
  | succ fuel ih =>
    unfold takeEntry
    dsimp only
    split
    · dsimp only; exact countTx_within (hW.of (by decide)) h
    split
    · dsimp only; exact countTx_within (hW.of (by decide)) h
    split
    · next e => dsimp only; exact countTx_within (hW.of (by decide)) (portPop_within_pair (hW.of (by decide)) e h)
    · next e =>
      have h1 := portPop_within_pair (hW.of (by decide)) e h
      split
      · exact ih (countTx_within (hW.of (by decide)) (releaseEntry_within (hW.of (by decide)) h1))
      split
      · dsimp only; exact countTx_within (hW.of (by decide)) h1
      · dsimp only; exact countTx_within (hW.of (by decide)) (releaseEntry_within (hW.of (by decide)) h1)

theorem takeEntry_within_pair (hW : Sub [.flash, .flc, .free, .hbm, .hif, .mdm, .mq, .out, .pmu, .regs, .seed, .ump] Ω) {l start fuel : Nat} {o : Option (Entry × Bool)} {t : State} (e : takeEntry l start fuel s = (o, t)) (h : Within Ω a s) : Within Ω a t := by
  have := takeEntry_within (hW.of (by decide)) (l := l) (start := start) (fuel := fuel) h; rwa [e] at this

theorem downlinkTake_within (hW : Sub [.clk, .flash, .flc, .free, .hbm, .hif, .mdm, .mq, .out, .pmu, .regs, .seed, .time, .txHold, .ump] Ω) {p : Nat} (h : Within Ω a s) : Within Ω a (downlinkTake p s) := by
  unfold downlinkTake
  extract_lets v1 s1 v2 s2
  clear_value v1 v2
  have h1 : Within Ω a s1 := by
    unfold s1
    repeat' first
      | with_reducible assumption
      | with_reducible apply advanceTo_within (hW.of (by decide))
      | with_reducible apply reap_within (hW.of (by decide))
  clear_value s1
  have h2 : Within Ω a s2 := by
    unfold s2
    repeat' first
      | with_reducible assumption
      | with_reducible apply advanceTo_within (hW.of (by decide))
      | with_reducible apply reap_within (hW.of (by decide))
      | with_reducible apply State.updMport_within (hW.of (by decide))
  clear_value s2
  repeat' first
    | with_reducible assumption
    | with_reducible apply advanceTo_within (hW.of (by decide))
    | with_reducible apply reap_within (hW.of (by decide))
    | with_reducible apply State.updMport_within (hW.of (by decide))
    | with_reducible apply takeEntry_within (hW.of (by decide))
    | refine takeEntry_within_pair (hW.of (by decide)) (by assumption) ?_
    | with_reducible refine Within.ite (fun _ => ?_) (fun _ => ?_)
    | with_reducible refine Within.foldl ?_ (fun t x ht => ?_)

theorem execDownlinkTake_within (hW : Sub [.clk, .flash, .flc, .free, .hbm, .hif, .mdm, .mq, .out, .pmu, .regs, .seed, .time, .txHold, .ump] Ω) {port : Nat} (h : Within Ω a s) : WithinOut Ω a (execDownlinkTake port s) := by
  unfold execDownlinkTake
  repeat' first
    | with_reducible assumption
    | with_reducible apply downlinkTake_within (hW.of (by decide))
    | with_reducible apply WithinOut.next

theorem sendPacket_within (hW : Sub [.mdm, .out, .txHold] Ω) {p : Nat} {c : Nat} {st : Nat} {k : RadioPkt} (h : Within Ω a s) : Within Ω a (sendPacket p c st k s) := by
  unfold sendPacket
  extract_lets v1 s1 s2
  have h1 : Within Ω a s1 := by
    unfold s1
    repeat' first
      | with_reducible assumption
      | with_reducible apply State.updMlink_within (hW.of (by decide))
      | with_reducible apply holdUntil_within (hW.of (by decide))
      | with_reducible apply State.emit_within (hW.of (by decide))
      | with_reducible refine Within.ite (fun _ => ?_) (fun _ => ?_)
      | with_reducible refine Within.foldl ?_ (fun t x ht => ?_)
      | (intro c hc; first | exact hc | (simp; done) | (simpa using hc))
      | extract_lets
      | split
      | dsimp only
      | ((with_reducible refine Within.mk_same rfl ?_ ?_); (intro p hn; cases p <;> first | rfl | exact absurd (hW.use (by decide)) hn))
  clear_value s1
  have h2 : Within Ω a s2 := by
    unfold s2
    repeat' first
      | with_reducible assumption
      | with_reducible apply State.updMlink_within (hW.of (by decide))
      | with_reducible apply holdUntil_within (hW.of (by decide))
      | with_reducible apply State.emit_within (hW.of (by decide))
      | with_reducible refine Within.ite (fun _ => ?_) (fun _ => ?_)
      | with_reducible refine Within.foldl ?_ (fun t x ht => ?_)
      | (intro c hc; first | exact hc | (simp; done) | (simpa using hc))
      | extract_lets
      | split
      | dsimp only
      | ((with_reducible refine Within.mk_same rfl ?_ ?_); (intro p hn; cases p <;> first | rfl | exact absurd (hW.use (by decide)) hn))
  clear_value s2
  repeat' first
    | with_reducible assumption
    | with_reducible apply State.updMlink_within (hW.of (by decide))
    | with_reducible apply holdUntil_within (hW.of (by decide))
    | with_reducible apply State.emit_within (hW.of (by decide))
    | with_reducible refine Within.ite (fun _ => ?_) (fun _ => ?_)
    | with_reducible refine Within.foldl ?_ (fun t x ht => ?_)
    | (intro c hc; first | exact hc | (simp; done) | (simpa using hc))
    | extract_lets
    | split
    | dsimp only
    | ((with_reducible refine Within.mk_same rfl ?_ ?_); (intro p hn; cases p <;> first | rfl | exact absurd (hW.use (by decide)) hn))

theorem downlinkTransmit_within (hW : Sub [.free, .mdm, .out, .regs, .txHold] Ω) {p : Nat} (h : Within Ω a s) : Within Ω a (downlinkTransmit p s) := by
  unfold downlinkTransmit
  repeat' first
    | with_reducible assumption
    | with_reducible apply State.setFld_within (hW.of (by decide))
    | with_reducible apply State.updMport_within (hW.of (by decide))
    | refine State.draw_within_pair (hW.of (by decide)) (by assumption) ?_
    | with_reducible apply State.draw_within (hW.of (by decide))
    | with_reducible apply sendPacket_within (hW.of (by decide))
    | with_reducible apply State.emit_within (hW.of (by decide))
    | with_reducible apply State.bump_within (hW.of (by decide))
    | with_reducible refine Within.ite (fun _ => ?_) (fun _ => ?_)
    | with_reducible refine Within.foldl ?_ (fun t x ht => ?_)
    | (intro c hc; first | exact hc | (simp; done) | (simpa using hc))
    | extract_lets
    | split
    | dsimp only
    | ((with_reducible refine Within.mk_same rfl ?_ ?_); (intro p hn; cases p <;> first | rfl | exact absurd (hW.use (by decide)) hn))

theorem execDownlinkTransmit_within (hW : Sub [.free, .mdm, .out, .regs, .txHold] Ω) {port : Nat} (h : Within Ω a s) : WithinOut Ω a (execDownlinkTransmit port s) := by
  unfold execDownlinkTransmit
  repeat' first
    | with_reducible assumption
    | with_reducible apply downlinkTransmit_within (hW.of (by decide))
    | with_reducible apply WithinOut.next

theorem agcStep_within (hW : Sub [.regs] Ω) {p : Nat} {step : Int} (h : Within Ω a s) : Within Ω a (agcStep p step s) := by
  unfold agcStep
  extract_lets v1
  clear_value v1
  repeat' first
    | with_reducible assumption
    | with_reducible apply State.setFld_within (hW.of (by decide))

theorem setAbandon_within (hW : Sub [.hif, .out, .regs] Ω) {p : Nat} (h : Within Ω a s) : Within Ω a (setAbandon p s) := by
  unfold setAbandon
  repeat' first
    | with_reducible assumption
    | with_reducible apply State.setFld_within (hW.of (by decide))
    | with_reducible apply raiseFld_within (hW.of (by decide))

theorem uplinkStart_within (hW : Sub [.hif, .mdm, .out, .regs] Ω) {p : Nat} (h : Within Ω a s) : Within Ω a (uplinkStart p s) := by
  unfold uplinkStart
  extract_lets s1 s2 v1
  clear_value v1
  have h1 : Within Ω a s1 := by
    unfold s1
    repeat' first
      | with_reducible assumption
      | with_reducible apply State.setFld_within (hW.of (by decide))
      | with_reducible apply State.setMdm_within (hW.of (by decide))
      | with_reducible apply State.updMport_within (hW.of (by decide))
  clear_value s1
  have h2 : Within Ω a s2 := by
    unfold s2
    repeat' first
      | with_reducible assumption
      | with_reducible apply State.setFld_within (hW.of (by decide))
      | with_reducible apply State.setMdm_within (hW.of (by decide))
      | with_reducible apply State.updMport_within (hW.of (by decide))
  clear_value s2
  repeat' first
    | with_reducible assumption
    | with_reducible apply State.setFld_within (hW.of (by decide))
    | with_reducible apply State.setMdm_within (hW.of (by decide))
    | with_reducible apply State.updMport_within (hW.of (by decide))
    | with_reducible apply setAbandon_within (hW.of (by decide))
    | with_reducible refine Within.ite (fun _ => ?_) (fun _ => ?_)
    | exact fun _ hc => hc
    | extract_lets
    | split

theorem execUplinkSlotStart_within (hW : Sub [.hif, .mdm, .out, .regs] Ω) {port : Nat} (h : Within Ω a s) : WithinOut Ω a (execUplinkSlotStart port s) := by
  unfold execUplinkSlotStart
  repeat' first
    | with_reducible assumption
    | with_reducible apply uplinkStart_within (hW.of (by decide))
    | with_reducible apply WithinOut.next

theorem agcUpdate_within (hW : Sub [.mdm, .regs] Ω) {p : Nat} {centiDb : Int} (h : Within Ω a s) : Within Ω a (agcUpdate p centiDb s) := by
  unfold agcUpdate
  extract_lets v1 v2
  clear_value v1 v2
  repeat' first
    | with_reducible assumption
    | with_reducible apply State.updMport_within (hW.of (by decide))
    | with_reducible apply agcStep_within (hW.of (by decide))
    | with_reducible refine Within.ite (fun _ => ?_) (fun _ => ?_)

theorem execAgcUpdate_within (hW : Sub [.mdm, .regs] Ω) {port : Nat} {centiDb : Int} (h : Within Ω a s) : WithinOut Ω a (execAgcUpdate port centiDb s) := by
  unfold execAgcUpdate
  repeat' first
    | with_reducible assumption
    | with_reducible apply agcUpdate_within (hW.of (by decide))
    | with_reducible apply WithinOut.next

theorem startRx_within (hW : Sub [.hif, .mdm, .out, .pmu, .regs] Ω) {p : Nat} {d : Detect} {r : RxSlot} (h : Within Ω a s) : Within Ω a (startRx p d r s) := by
  unfold startRx
  repeat' first
    | with_reducible assumption
    | with_reducible apply pmuEvent_within (hW.of (by decide))
    | with_reducible apply State.setRx_within (hW.of (by decide))
    | with_reducible apply State.setFld_within (hW.of (by decide))
    | with_reducible refine Within.ite (fun _ => ?_) (fun _ => ?_)
    | with_reducible refine Within.foldl ?_ (fun t x ht => ?_)
    | (intro c hc; first | exact hc | (simp; done) | (simpa using hc))
    | extract_lets
    | split
    | dsimp only
    | ((with_reducible refine Within.mk_same rfl ?_ ?_); (intro p hn; cases p <;> first | rfl | exact absurd (hW.use (by decide)) hn))

theorem capture_within (hW : Sub [.hif, .mdm, .out, .pmu, .regs] Ω) {p : Nat} {c : Nat} {d : Detect} {r : RxSlot} (h : Within Ω a s) : Within Ω a (capture p c d r s) := by
  unfold capture
  extract_lets s1 s2
  have h1 : Within Ω a s1 := by
    unfold s1
    repeat' first
      | with_reducible assumption
      | with_reducible apply State.bump_within (hW.of (by decide))
      | with_reducible apply State.updMlink_within (hW.of (by decide))
  clear_value s1
  have h2 : Within Ω a s2 := by
    unfold s2
    repeat' first
      | with_reducible assumption
      | with_reducible apply State.bump_within (hW.of (by decide))
      | with_reducible apply State.updMlink_within (hW.of (by decide))
      | with_reducible apply agcStep_within (hW.of (by decide))
      | with_reducible apply startRx_within (hW.of (by decide))
      | with_reducible refine Within.ite (fun _ => ?_) (fun _ => ?_)
  clear_value s2
  repeat' first
    | with_reducible assumption
    | with_reducible apply State.bump_within (hW.of (by decide))
    | with_reducible apply State.updMlink_within (hW.of (by decide))
    | with_reducible apply agcStep_within (hW.of (by decide))
    | with_reducible apply startRx_within (hW.of (by decide))

theorem detection_within (hW : Sub [.hif, .mdm, .out, .pmu, .regs] Ω) {p : Nat} {c : Nat} {d : Detect} (h : Within Ω a s) : Within Ω a (detection p c d s) := by
  unfold detection
  repeat' first
    | with_reducible assumption
    | with_reducible apply State.setRx_within (hW.of (by decide))
    | with_reducible apply startRx_within (hW.of (by decide))
    | with_reducible apply capture_within (hW.of (by decide))
    | with_reducible refine Within.ite (fun _ => ?_) (fun _ => ?_)
    | split

theorem execSyncDetection_within (hW : Sub [.hif, .mdm, .out, .pmu, .regs] Ω) {port : Nat} {carrier : Nat} {c : Nat} {p : Nat} {rssi : Nat} {fofs : Int} (h : Within Ω a s) : WithinOut Ω a (execSyncDetection port carrier c p rssi fofs s) := by
  unfold execSyncDetection
  repeat' first
    | with_reducible assumption
    | with_reducible apply detection_within (hW.of (by decide))
    | with_reducible apply WithinOut.next

theorem abortRx_within (hW : Sub [.hif, .mdm, .out, .pmu, .regs] Ω) {p : Nat} {c : Nat} {status : Nat} {r : RxSlot} (h : Within Ω a s) : Within Ω a (abortRx p c status r s) := by
  unfold abortRx
  extract_lets s1
  have h1 : Within Ω a s1 := by
    unfold s1
    repeat' first
      | with_reducible assumption
      | with_reducible apply State.setFld_within (hW.of (by decide))
      | with_reducible apply State.updMport_within (hW.of (by decide))
      | with_reducible apply State.setRx_within (hW.of (by decide))
  clear_value s1
  repeat' first
    | with_reducible assumption
    | with_reducible apply State.setFld_within (hW.of (by decide))
    | with_reducible apply State.updMport_within (hW.of (by decide))
    | with_reducible apply State.setRx_within (hW.of (by decide))
    | with_reducible apply startRx_within (hW.of (by decide))
    | with_reducible refine Within.ite (fun _ => ?_) (fun _ => ?_)
    | exact fun _ hc => hc
    | extract_lets
    | split

theorem headerDecoded_within (hW : Sub [.hif, .mdm, .out, .pmu, .regs] Ω) {p : Nat} {c : Nat} {bs : List Bool} (h : Within Ω a s) : Within Ω a (headerDecoded p c bs s) := by
  unfold headerDecoded
  extract_lets v1 v2
  clear_value v1 v2
  repeat' first
    | with_reducible assumption
    | with_reducible apply State.bump_within (hW.of (by decide))
    | with_reducible apply State.updMlink_within (hW.of (by decide))
    | with_reducible apply State.setRx_within (hW.of (by decide))
    | with_reducible apply abortRx_within (hW.of (by decide))
    | with_reducible refine Within.ite (fun _ => ?_) (fun _ => ?_)
    | exact fun _ hc => hc
    | extract_lets
    | split

theorem execHeaderDecoded_within (hW : Sub [.hif, .mdm, .out, .pmu, .regs] Ω) {port : Nat} {carrier : Nat} {bits : List Bool} (h : Within Ω a s) : WithinOut Ω a (execHeaderDecoded port carrier bits s) := by
  unfold execHeaderDecoded
  repeat' first
    | with_reducible assumption
    | with_reducible apply headerDecoded_within (hW.of (by decide))
    | with_reducible apply WithinOut.next

theorem payloadSubmit_within (hW : Sub [.hif, .mdm, .out, .pmu, .regs] Ω) {p : Nat} {c : Nat} (h : Within Ω a s) : Within Ω a (payloadSubmit p c s) := by
  unfold payloadSubmit
  repeat' first
    | with_reducible assumption
    | with_reducible apply State.setRx_within (hW.of (by decide))
    | with_reducible apply State.setMdm_within (hW.of (by decide))
    | with_reducible apply pmuEvent_within (hW.of (by decide))
    | with_reducible apply poolFill_within (hW.of (by decide))
    | with_reducible refine Within.ite (fun _ => ?_) (fun _ => ?_)
    | with_reducible refine Within.foldl ?_ (fun t x ht => ?_)
    | (intro c hc; first | exact hc | (simp; done) | (simpa using hc))
    | extract_lets
    | split
    | dsimp only
    | ((with_reducible refine Within.mk_same rfl ?_ ?_); (intro p hn; cases p <;> first | rfl | exact absurd (hW.use (by decide)) hn))

theorem execPayloadSubmit_within (hW : Sub [.hif, .mdm, .out, .pmu, .regs] Ω) {port : Nat} {carrier : Nat} (h : Within Ω a s) : WithinOut Ω a (execPayloadSubmit port carrier s) := by
  unfold execPayloadSubmit
  repeat' first
    | with_reducible assumption
    | with_reducible apply payloadSubmit_within (hW.of (by decide))
    | with_reducible apply WithinOut.next

theorem radioJobDone_within (hW : Sub [.mdm, .regs] Ω) {p : Nat} {c : Nat} {converged : Bool} {iters : Nat} {info : List Bool} (h : Within Ω a s) : Within Ω a (radioJobDone p c converged iters info s) := by
  unfold radioJobDone
  repeat' first
    | with_reducible assumption
    | with_reducible apply State.bump_within (hW.of (by decide))
    | with_reducible apply State.setMdm_within (hW.of (by decide))
    | with_reducible apply State.setRx_within (hW.of (by decide))
    | with_reducible apply poolFill_within (hW.of (by decide))
    | with_reducible refine Within.ite (fun _ => ?_) (fun _ => ?_)
    | with_reducible apply KciRes.within_wait
    | extract_lets
    | split

theorem execRadioLdpcJobComplete_within (hW : Sub [.mdm, .regs] Ω) {port : Nat} {carrier : Nat} {converged : Bool} {iters : Nat} {info : List Bool} (h : Within Ω a s) : WithinOut Ω a (execRadioLdpcJobComplete port carrier converged iters info s) := by
  unfold execRadioLdpcJobComplete
  repeat' first
    | with_reducible assumption
    | with_reducible apply radioJobDone_within (hW.of (by decide))
    | with_reducible apply WithinOut.next

theorem windowClose_within (hW : Sub [.clk, .hbm, .hif, .mdm, .out, .pmu, .regs, .seed, .time, .txHold, .ump] Ω) {p : Nat} {c : Nat} (h : Within Ω a s) : Within Ω a (windowClose p c s) := by
  unfold windowClose
  repeat' first
    | with_reducible assumption
    | with_reducible apply advanceTo_within (hW.of (by decide))
    | with_reducible apply State.setRx_within (hW.of (by decide))
    | with_reducible refine Within.ite (fun _ => ?_) (fun _ => ?_)
    | extract_lets
    | split

theorem execSyncWindowClose_within (hW : Sub [.clk, .hbm, .hif, .mdm, .out, .pmu, .regs, .seed, .time, .txHold, .ump] Ω) {port : Nat} {carrier : Nat} (h : Within Ω a s) : WithinOut Ω a (execSyncWindowClose port carrier s) := by
  unfold execSyncWindowClose
  repeat' first
    | with_reducible assumption
    | with_reducible apply windowClose_within (hW.of (by decide))
    | with_reducible apply WithinOut.next

theorem tryPosts_within (hW : Sub [.bull, .clk, .clu, .gh, .hbm, .hif, .mdm, .out, .pmu, .regs, .seed, .time, .txHold, .ump] Ω) {p fuel : Nat} (h : Within Ω a s) : Within Ω a (tryPosts p fuel s) := by
  induction fuel generalizing s with
  | zero => exact h
  | succ fuel ih =>
    unfold tryPosts
    split
    · exact h
    split
    · next e => exact ih (State.updMport_within (hW.of (by decide)) (postNode_within_some (hW.of (by decide)) e h))
    · exact h

theorem modemPost_within (hW : Sub [.bull, .clk, .clu, .gh, .hbm, .hif, .mdm, .out, .pmu, .regs, .seed, .time, .txHold, .ump] Ω) {p : Nat} {n : Nat} {flag : Nat} (h : Within Ω a s) : Within Ω a (modemPost p n flag s) := by
  unfold modemPost
  extract_lets s1
  have h1 : Within Ω a s1 := by
    unfold s1
    repeat' first
      | with_reducible assumption
      | with_reducible apply State.updMport_within (hW.of (by decide))
  clear_value s1
  repeat' first
    | with_reducible assumption
    | with_reducible apply State.updMport_within (hW.of (by decide))
    | with_reducible apply tryPosts_within (hW.of (by decide))

theorem execModemPostResume_within (hW : Sub [.bull, .clk, .clu, .gh, .hbm, .hif, .mdm, .out, .pmu, .regs, .seed, .time, .txHold, .ump] Ω) {port : Nat} (h : Within Ω a s) : WithinOut Ω a (execModemPostResume port s) := by
  unfold execModemPostResume
  repeat' first
    | with_reducible assumption
    | with_reducible apply tryPosts_within (hW.of (by decide))
    | with_reducible apply WithinOut.next

theorem countRx_within (hW : Sub [.hif, .mdm, .out, .regs] Ω) {r : RxSlot} {status : Nat} (h : Within Ω a s) : Within Ω a (countRx r status s) := by
  unfold countRx
  extract_lets s1 s2
  have h1 : Within Ω a s1 := by
    unfold s1
    repeat' first
      | with_reducible assumption
      | with_reducible apply State.bump_within (hW.of (by decide))
  clear_value s1
  have h2 : Within Ω a s2 := by
    unfold s2
    repeat' first
      | with_reducible assumption
      | with_reducible apply State.bump_within (hW.of (by decide))
      | with_reducible apply raiseFld_within (hW.of (by decide))
      | with_reducible apply State.updMlink_within (hW.of (by decide))
      | with_reducible refine Within.ite (fun _ => ?_) (fun _ => ?_)
  clear_value s2
  repeat' first
    | with_reducible assumption
    | with_reducible apply State.bump_within (hW.of (by decide))
    | with_reducible apply raiseFld_within (hW.of (by decide))
    | with_reducible apply State.updMlink_within (hW.of (by decide))

theorem deliverEntry_within (hW : Sub [.bull, .clk, .clu, .flash, .flc, .free, .gh, .hbm, .hif, .mdm, .mq, .out, .pmu, .regs, .seed, .time, .txHold, .ump] Ω) {l : Nat} (h : Within Ω a s) : Within Ω a (deliverEntry l s) := by
  unfold deliverEntry
  repeat' first
    | with_reducible assumption
    | with_reducible apply seedAlloc_within (hW.of (by decide))
    | refine seedAlloc_within_pair (hW.of (by decide)) (by assumption) ?_
    | with_reducible apply freeItem_within (hW.of (by decide))
    | with_reducible apply mqPush_within (hW.of (by decide))
    | with_reducible apply bufWrite_within (hW.of (by decide))
    | with_reducible apply State.setMdm_within (hW.of (by decide))
    | with_reducible apply modemPost_within (hW.of (by decide))
    | with_reducible apply countRx_within (hW.of (by decide))
    | with_reducible refine Within.ite (fun _ => ?_) (fun _ => ?_)
    | extract_lets
    | split

theorem execUplinkEntryDelivery_within (hW : Sub [.bull, .clk, .clu, .flash, .flc, .free, .gh, .hbm, .hif, .mdm, .mq, .out, .pmu, .regs, .seed, .time, .txHold, .ump] Ω) {link : Nat} (h : Within Ω a s) : WithinOut Ω a (execUplinkEntryDelivery link s) := by
  unfold execUplinkEntryDelivery
  repeat' first
    | with_reducible assumption
    | with_reducible apply deliverEntry_within (hW.of (by decide))
    | with_reducible apply WithinOut.next

theorem abandonRx_within (hW : Sub [.hif, .mdm, .out, .regs] Ω) {p : Nat} {which : Nat → Bool} (h : Within Ω a s) : Within Ω a (abandonRx p which s) := by
  unfold abandonRx
  repeat' first
    | with_reducible assumption
    | with_reducible apply State.setMdm_within (hW.of (by decide))
    | with_reducible apply setAbandon_within (hW.of (by decide))
    | with_reducible refine Within.ite (fun _ => ?_) (fun _ => ?_)
    | extract_lets
    | split

theorem stepPort_within (hW : Sub [.hbm, .hif, .mdm, .out, .regs, .seed, .ump] Ω) {old : Nat} {new : Nat} {p : Nat} (h : Within Ω a s) : Within Ω a (stepPort old new p s) := by
  unfold stepPort
  extract_lets s1 v1 v2
  have h1 : Within Ω a s1 := by
    unfold s1
    repeat' first
      | with_reducible assumption
      | with_reducible apply uplinkStart_within (hW.of (by decide))
      | with_reducible apply setAbandon_within (hW.of (by decide))
      | with_reducible apply State.setMdm_within (hW.of (by decide))
      | with_reducible apply releaseEntry_within (hW.of (by decide))
      | with_reducible apply State.emit_within (hW.of (by decide))
      | with_reducible apply State.updMport_within (hW.of (by decide))
      | with_reducible apply State.setFld_within (hW.of (by decide))
      | with_reducible refine Within.ite (fun _ => ?_) (fun _ => ?_)
      | with_reducible refine Within.foldl ?_ (fun t x ht => ?_)
      | (intro c hc; first | exact hc | (simp; done) | (simpa using hc))
      | extract_lets
      | split
      | dsimp only
      | ((with_reducible refine Within.mk_same rfl ?_ ?_); (intro p hn; cases p <;> first | rfl | exact absurd (hW.use (by decide)) hn))
  clear_value s1
  repeat' first
    | with_reducible assumption
    | with_reducible apply uplinkStart_within (hW.of (by decide))
    | with_reducible apply setAbandon_within (hW.of (by decide))
    | with_reducible apply State.setMdm_within (hW.of (by decide))
    | with_reducible apply releaseEntry_within (hW.of (by decide))
    | with_reducible apply State.emit_within (hW.of (by decide))
    | with_reducible apply State.updMport_within (hW.of (by decide))
    | with_reducible apply State.setFld_within (hW.of (by decide))
    | with_reducible refine Within.ite (fun _ => ?_) (fun _ => ?_)
    | with_reducible refine Within.foldl ?_ (fun t x ht => ?_)
    | (intro c hc; first | exact hc | (simp; done) | (simpa using hc))
    | extract_lets
    | split
    | dsimp only
    | ((with_reducible refine Within.mk_same rfl ?_ ?_); (intro p hn; cases p <;> first | rfl | exact absurd (hW.use (by decide)) hn))

theorem radioStep_within (hW : Sub [.hbm, .hif, .mdm, .out, .regs, .seed, .ump] Ω) {old : Nat} {new : Nat} (h : Within Ω a s) : Within Ω a (radioStep old new s) := by
  unfold radioStep
  repeat' first
    | with_reducible assumption
    | with_reducible apply stepPort_within (hW.of (by decide))
    | with_reducible refine Within.ite (fun _ => ?_) (fun _ => ?_)
    | with_reducible refine Within.foldl ?_ (fun t x ht => ?_)

theorem execModemLink_within (hW : Sub [.core, .hif, .mdm, .out, .regs] Ω) {h' : KciHdr} {op : ModemOp} (h : Within Ω a s) : WithinOut Ω a (execModemLink h' op s) := by
  unfold execModemLink
  repeat' first
    | with_reducible assumption
    | with_reducible apply kciFail_within (hW.of (by decide))
    | with_reducible refine kci_within (hW.of (by decide)) ?_ (fun t ht => ?_)
    | with_reducible apply State.updMlink_within (hW.of (by decide))
    | with_reducible refine Within.ite (fun _ => ?_) (fun _ => ?_)
    | with_reducible apply KciRes.within_fail
    | with_reducible apply KciRes.within_wait
    | with_reducible apply WithinOut.next
    | exact fun _ hc => hc
    | split

theorem execModemLinkStats_within (hW : Sub [.core, .hif, .mdm, .out, .regs] Ω) {h' : KciHdr} {link : Nat} {clear : Bool} (h : Within Ω a s) : WithinOut Ω a (execModemLinkStats h' link clear s) := by
  unfold execModemLinkStats
  repeat' first
    | with_reducible assumption

    | with_reducible refine kci_within (hW.of (by decide)) ?_ (fun t ht => ?_)
    | with_reducible apply State.updMlink_within (hW.of (by decide))
    | with_reducible refine Within.ite (fun _ => ?_) (fun _ => ?_)
    | with_reducible apply KciRes.within_record
    | with_reducible apply WithinOut.next

theorem State.updRport_within (hW : Sub [.rfp] Ω) {p : Nat} {f : RfpPort → RfpPort} (h : Within Ω a s) : Within Ω a (State.updRport s p f) := by
  unfold State.updRport
  repeat' first
    | with_reducible assumption
    | dsimp only
    | ((with_reducible refine Within.mk_same rfl ?_ ?_); (intro p hn; cases p <;> first | rfl | exact absurd (hW.use (by decide)) hn))

theorem State.updCarrier_within (hW : Sub [.rfp] Ω) {p : Nat} {c : Nat} {f : Carrier → Carrier} (h : Within Ω a s) : Within Ω a (State.updCarrier s p c f) := by
  unfold State.updCarrier
  repeat' first
    | with_reducible assumption
    | with_reducible apply State.updRport_within (hW.of (by decide))

theorem syncReset_within (hW : Sub [.cfg, .hif, .out, .regs, .rfp] Ω) {p : Nat} {c : Nat} {point : Int} (h : Within Ω a s) : Within Ω a (syncReset p c point s) := by
  unfold syncReset
  extract_lets s1 v1
  clear_value v1
  have h1 : Within Ω a s1 := by
    unfold s1
    repeat' first
      | with_reducible assumption
      | with_reducible apply State.setFld_within (hW.of (by decide))
      | with_reducible apply State.bump_within (hW.of (by decide))
      | with_reducible apply commitRegs_within (hW.of (by decide))
  clear_value s1
  repeat' first
    | with_reducible assumption
    | with_reducible apply State.setFld_within (hW.of (by decide))
    | with_reducible apply State.bump_within (hW.of (by decide))
    | with_reducible apply commitRegs_within (hW.of (by decide))
    | with_reducible apply State.updCarrier_within (hW.of (by decide))

theorem dueReset_within (hW : Sub [.rfp] Ω) {p : Nat} {c : Nat} (h : Within Ω a s) : Within Ω a (dueReset p c s) := by
  unfold dueReset
  extract_lets v1
  clear_value v1
  repeat' first
    | with_reducible assumption
    | with_reducible apply State.updCarrier_within (hW.of (by decide))

theorem placeResets_within (hW : Sub [.rfp] Ω) {p : Nat} (h : Within Ω a s) : Within Ω a (placeResets p s) := by
  unfold placeResets
  repeat' first
    | with_reducible assumption
    | with_reducible apply dueReset_within (hW.of (by decide))
    | with_reducible refine Within.ite (fun _ => ?_) (fun _ => ?_)
    | with_reducible refine Within.foldl ?_ (fun t x ht => ?_)

theorem resetAtPoint_within (hW : Sub [.cfg, .hif, .out, .regs, .rfp] Ω) {p : Nat} {c : Nat} (h : Within Ω a s) : Within Ω a (resetAtPoint p c s) := by
  unfold resetAtPoint
  extract_lets v1
  clear_value v1
  repeat' first
    | with_reducible assumption
    | with_reducible apply syncReset_within (hW.of (by decide))
    | with_reducible refine Within.ite (fun _ => ?_) (fun _ => ?_)
    | extract_lets
    | split

theorem execCarrierSyncReset_within (hW : Sub [.cfg, .hif, .out, .regs, .rfp] Ω) {port : Nat} {carrier : Nat} (h : Within Ω a s) : WithinOut Ω a (execCarrierSyncReset port carrier s) := by
  unfold execCarrierSyncReset
  repeat' first
    | with_reducible assumption
    | with_reducible apply resetAtPoint_within (hW.of (by decide))
    | with_reducible refine Within.ite (fun _ => ?_) (fun _ => ?_)
    | with_reducible apply WithinOut.next

theorem tapOutput_within (hW : Sub [.rfp] Ω) {p : Nat} {c : Nat} {o : CarOut} (h : Within Ω a s) : Within Ω a (tapOutput p c o s) := by
  unfold tapOutput
  extract_lets v1 v2
  clear_value v1 v2
  repeat' first
    | with_reducible assumption
    | with_reducible apply State.updRport_within (hW.of (by decide))
    | with_reducible refine Within.ite (fun _ => ?_) (fun _ => ?_)

theorem carrierOutput_within (hW : Sub [.hif, .mdm, .out, .regs, .rfp] Ω) {p : Nat} {c : Nat} {pos : Int} (h : Within Ω a s) : Within Ω a (carrierOutput p c pos s) := by
  unfold carrierOutput
  extract_lets v1 v2
  clear_value v1 v2
  repeat' first
    | with_reducible assumption
    | with_reducible apply State.setFld_within (hW.of (by decide))
    | with_reducible apply State.bump_within (hW.of (by decide))
    | with_reducible apply abandonRx_within (hW.of (by decide))
    | with_reducible apply State.updCarrier_within (hW.of (by decide))
    | with_reducible apply tapOutput_within (hW.of (by decide))
    | with_reducible refine Within.ite (fun _ => ?_) (fun _ => ?_)

theorem carrierSample_within (hW : Sub [.cfg, .hif, .mdm, .out, .regs, .rfp] Ω) {p : Nat} {c : Nat} {pos : Int} {y1 : Int} {y2 : Int} (h : Within Ω a s) : Within Ω a (carrierSample p c pos y1 y2 s) := by
  unfold carrierSample
  extract_lets s1 v1 v2
  clear_value v1 v2
  have h1 : Within Ω a s1 := by
    unfold s1
    repeat' first
      | with_reducible assumption
      | with_reducible apply State.bump_within (hW.of (by decide))
      | with_reducible apply State.updCarrier_within (hW.of (by decide))
      | with_reducible apply resetAtPoint_within (hW.of (by decide))
  clear_value s1
  repeat' first
    | with_reducible assumption
    | with_reducible apply State.bump_within (hW.of (by decide))
    | with_reducible apply State.updCarrier_within (hW.of (by decide))
    | with_reducible apply resetAtPoint_within (hW.of (by decide))
    | with_reducible apply carrierOutput_within (hW.of (by decide))
    | with_reducible refine Within.ite (fun _ => ?_) (fun _ => ?_)
    | exact fun _ hc => hc
    | extract_lets
    | split

theorem rxSample_within (hW : Sub [.cfg, .hif, .mdm, .out, .regs, .rfp] Ω) {p : Nat} {i : Int} {q : Int} (h : Within Ω a s) : Within Ω a (rxSample p i q s) := by
  unfold rxSample
  extract_lets v1 v2 v3 v4 v5 s1 s2 s3
  clear_value v1 v2 v3 v4 v5
  have h1 : Within Ω a s1 := by
    unfold s1
    repeat' first
      | with_reducible assumption
      | with_reducible apply State.setFld_within (hW.of (by decide))
  clear_value s1
  have h2 : Within Ω a s2 := by
    unfold s2
    repeat' first
      | with_reducible assumption
      | with_reducible apply State.setFld_within (hW.of (by decide))
      | with_reducible apply State.bump_within (hW.of (by decide))
      | with_reducible apply State.updRport_within (hW.of (by decide))
      | with_reducible apply carrierSample_within (hW.of (by decide))
      | with_reducible refine Within.ite (fun _ => ?_) (fun _ => ?_)
  clear_value s2
  have h3 : Within Ω a s3 := by
    unfold s3
    repeat' first
      | with_reducible assumption
      | with_reducible apply State.setFld_within (hW.of (by decide))
      | with_reducible apply State.bump_within (hW.of (by decide))
      | with_reducible apply State.updRport_within (hW.of (by decide))
  clear_value s3
  repeat' first
    | with_reducible assumption
    | with_reducible apply State.setFld_within (hW.of (by decide))
    | with_reducible apply State.bump_within (hW.of (by decide))
    | with_reducible apply State.updRport_within (hW.of (by decide))
    | with_reducible apply carrierSample_within (hW.of (by decide))
    | with_reducible refine Within.ite (fun _ => ?_) (fun _ => ?_)
    | with_reducible refine Within.foldl ?_ (fun t x ht => ?_)
    | exact fun _ hc => hc
    | extract_lets
    | split

theorem execJesdRxSample_within (hW : Sub [.cfg, .hif, .mdm, .out, .regs, .rfp] Ω) {port : Nat} {i : Int} {q : Int} (h : Within Ω a s) : WithinOut Ω a (execJesdRxSample port i q s) := by
  unfold execJesdRxSample
  repeat' first
    | with_reducible assumption
    | with_reducible apply rxSample_within (hW.of (by decide))
    | with_reducible apply WithinOut.next

theorem charError_within (hW : Sub [.cfg, .hif, .mdm, .out, .regs, .rfp] Ω) {p : Nat} {kind : Nat} (h : Within Ω a s) : Within Ω a (charError p kind s) := by
  unfold charError
  extract_lets s1
  have h1 : Within Ω a s1 := by
    unfold s1
    repeat' first
      | with_reducible assumption
      | with_reducible apply State.bump_within (hW.of (by decide))
  clear_value s1
  repeat' first
    | with_reducible assumption
    | with_reducible apply State.bump_within (hW.of (by decide))
    | with_reducible apply rxSample_within (hW.of (by decide))
    | with_reducible refine Within.ite (fun _ => ?_) (fun _ => ?_)

theorem execJesdRxCharacterError_within (hW : Sub [.cfg, .hif, .mdm, .out, .regs, .rfp] Ω) {port : Nat} {kind : Nat} (h : Within Ω a s) : WithinOut Ω a (execJesdRxCharacterError port kind s) := by
  unfold execJesdRxCharacterError
  repeat' first
    | with_reducible assumption
    | with_reducible apply charError_within (hW.of (by decide))
    | with_reducible apply WithinOut.next

theorem rxLinkDown_within (hW : Sub [.hif, .mdm, .out, .regs, .rfp] Ω) {p : Nat} (h : Within Ω a s) : Within Ω a (rxLinkDown p s) := by
  unfold rxLinkDown
  extract_lets s1 s2
  have h1 : Within Ω a s1 := by
    unfold s1
    repeat' first
      | with_reducible assumption
      | with_reducible apply State.setFld_within (hW.of (by decide))
  clear_value s1
  have h2 : Within Ω a s2 := by
    unfold s2
    repeat' first
      | with_reducible assumption
      | with_reducible apply State.setFld_within (hW.of (by decide))
      | with_reducible apply abandonRx_within (hW.of (by decide))
      | with_reducible apply State.updRport_within (hW.of (by decide))
  clear_value s2
  repeat' first
    | with_reducible assumption
    | with_reducible apply State.setFld_within (hW.of (by decide))
    | with_reducible apply abandonRx_within (hW.of (by decide))

theorem rxResync_within (hW : Sub [.hif, .mdm, .out, .regs, .rfp] Ω) {p : Nat} {ilas : Bool} (h : Within Ω a s) : Within Ω a (rxResync p ilas s) := by
  unfold rxResync
  extract_lets s1 s2
  have h1 : Within Ω a s1 := by
    unfold s1
    repeat' first
      | with_reducible assumption
      | with_reducible apply State.bump_within (hW.of (by decide))
      | with_reducible apply raiseFld_within (hW.of (by decide))
      | with_reducible apply rxLinkDown_within (hW.of (by decide))
  clear_value s1
  have h2 : Within Ω a s2 := by
    unfold s2
    repeat' first
      | with_reducible assumption
      | with_reducible apply State.bump_within (hW.of (by decide))
      | with_reducible apply raiseFld_within (hW.of (by decide))
      | with_reducible apply rxLinkDown_within (hW.of (by decide))
      | with_reducible refine Within.ite (fun _ => ?_) (fun _ => ?_)
  clear_value s2
  repeat' first
    | with_reducible assumption
    | with_reducible apply State.bump_within (hW.of (by decide))
    | with_reducible apply raiseFld_within (hW.of (by decide))
    | with_reducible apply rxLinkDown_within (hW.of (by decide))
    | with_reducible refine Within.ite (fun _ => ?_) (fun _ => ?_)

theorem execJesdRxResync_within (hW : Sub [.hif, .mdm, .out, .regs, .rfp] Ω) {port : Nat} {ilas : Bool} (h : Within Ω a s) : WithinOut Ω a (execJesdRxResync port ilas s) := by
  unfold execJesdRxResync
  repeat' first
    | with_reducible assumption
    | with_reducible apply rxResync_within (hW.of (by decide))
    | with_reducible apply WithinOut.next

theorem rxResume_within (hW : Sub [.regs, .rfp] Ω) {p : Nat} (h : Within Ω a s) : Within Ω a (rxResume p s) := by
  unfold rxResume
  extract_lets s1
  have h1 : Within Ω a s1 := by
    unfold s1
    repeat' first
      | with_reducible assumption
      | with_reducible apply State.setFld_within (hW.of (by decide))
  clear_value s1
  repeat' first
    | with_reducible assumption
    | with_reducible apply State.setFld_within (hW.of (by decide))
    | with_reducible apply dueReset_within (hW.of (by decide))
    | with_reducible refine Within.ite (fun _ => ?_) (fun _ => ?_)
    | with_reducible refine Within.foldl ?_ (fun t x ht => ?_)

theorem execJesdRxDataResume_within (hW : Sub [.regs, .rfp] Ω) {port : Nat} (h : Within Ω a s) : WithinOut Ω a (execJesdRxDataResume port s) := by
  unfold execJesdRxDataResume
  repeat' first
    | with_reducible assumption
    | with_reducible apply rxResume_within (hW.of (by decide))
    | with_reducible apply WithinOut.next

theorem txSyncRequest_within (hW : Sub [.regs] Ω) {p : Nat} (h : Within Ω a s) : Within Ω a (txSyncRequest p s) := by
  unfold txSyncRequest
  repeat' first
    | with_reducible assumption
    | with_reducible apply State.setFld_within (hW.of (by decide))
    | with_reducible apply State.bump_within (hW.of (by decide))
    | with_reducible refine Within.ite (fun _ => ?_) (fun _ => ?_)

theorem execJesdTxSyncRequest_within (hW : Sub [.regs] Ω) {port : Nat} (h : Within Ω a s) : WithinOut Ω a (execJesdTxSyncRequest port s) := by
  unfold execJesdTxSyncRequest
  repeat' first
    | with_reducible assumption
    | with_reducible apply txSyncRequest_within (hW.of (by decide))
    | with_reducible apply WithinOut.next

theorem sysref_within (hW : Sub [.hif, .mdm, .out, .regs, .rfp] Ω) {p : Nat} {d : Int} {pin : Bool} (h : Within Ω a s) : Within Ω a (sysref p d pin s) := by
  unfold sysref
  extract_lets s1 s2 s3
  have h1 : Within Ω a s1 := by
    unfold s1
    repeat' first
      | with_reducible assumption
      | with_reducible apply State.setFld_within (hW.of (by decide))
      | with_reducible apply State.bump_within (hW.of (by decide))
      | with_reducible apply raiseFld_within (hW.of (by decide))
      | with_reducible apply State.updMport_within (hW.of (by decide))
      | with_reducible apply State.updRport_within (hW.of (by decide))
  clear_value s1
  have h2 : Within Ω a s2 := by
    unfold s2
    repeat' first
      | with_reducible assumption
      | with_reducible apply State.setFld_within (hW.of (by decide))
      | with_reducible apply State.bump_within (hW.of (by decide))
      | with_reducible apply raiseFld_within (hW.of (by decide))
      | with_reducible apply State.updMport_within (hW.of (by decide))
      | with_reducible apply State.updRport_within (hW.of (by decide))
      | with_reducible apply State.updCarrier_within (hW.of (by decide))
      | with_reducible apply placeResets_within (hW.of (by decide))
      | with_reducible refine Within.ite (fun _ => ?_) (fun _ => ?_)
      | with_reducible refine Within.foldl ?_ (fun t x ht => ?_)
      | exact fun _ hc => hc
      | extract_lets
      | split
  clear_value s2
  have h3 : Within Ω a s3 := by
    unfold s3
    repeat' first
      | with_reducible assumption
      | with_reducible apply State.setFld_within (hW.of (by decide))
      | with_reducible apply State.bump_within (hW.of (by decide))
      | with_reducible apply raiseFld_within (hW.of (by decide))
      | with_reducible apply State.updMport_within (hW.of (by decide))
      | with_reducible apply State.updRport_within (hW.of (by decide))
      | with_reducible apply State.updCarrier_within (hW.of (by decide))
      | with_reducible apply placeResets_within (hW.of (by decide))
      | with_reducible refine Within.ite (fun _ => ?_) (fun _ => ?_)
      | with_reducible refine Within.foldl ?_ (fun t x ht => ?_)
  clear_value s3
  repeat' first
    | with_reducible assumption
    | with_reducible apply State.setFld_within (hW.of (by decide))
    | with_reducible apply State.bump_within (hW.of (by decide))
    | with_reducible apply raiseFld_within (hW.of (by decide))
    | with_reducible apply State.updMport_within (hW.of (by decide))
    | with_reducible apply State.updRport_within (hW.of (by decide))
    | with_reducible apply State.updCarrier_within (hW.of (by decide))
    | with_reducible apply placeResets_within (hW.of (by decide))
    | with_reducible refine Within.ite (fun _ => ?_) (fun _ => ?_)

theorem execSysrefEdge_within (hW : Sub [.cfg, .hif, .mdm, .out, .regs, .rfp] Ω) {port : Nat} {d : Int} {syncReset : Bool} (h : Within Ω a s) : WithinOut Ω a (execSysrefEdge port d syncReset s) := by
  unfold execSysrefEdge
  repeat' first
    | with_reducible assumption
    | with_reducible apply syncReset_within (hW.of (by decide))
    | with_reducible apply sysref_within (hW.of (by decide))
    | with_reducible apply WithinOut.next

theorem rfpCtlWritten_within (hW : Sub [.hif, .mdm, .out, .regs, .rfp] Ω) {p : Nat} (h : Within Ω a s) : Within Ω a (rfpCtlWritten p s) := by
  unfold rfpCtlWritten
  extract_lets s1
  have h1 : Within Ω a s1 := by
    unfold s1
    repeat' first
      | with_reducible assumption
      | with_reducible apply State.setFld_within (hW.of (by decide))
      | with_reducible apply rxLinkDown_within (hW.of (by decide))
      | with_reducible refine Within.ite (fun _ => ?_) (fun _ => ?_)
  clear_value s1
  repeat' first
    | with_reducible assumption
    | with_reducible apply State.setFld_within (hW.of (by decide))
    | with_reducible apply rxLinkDown_within (hW.of (by decide))
    | with_reducible refine Within.ite (fun _ => ?_) (fun _ => ?_)

theorem dcbClear_within (hW : Sub [.regs] Ω) {p : Nat} (h : Within Ω a s) : Within Ω a (dcbClear p s) := by
  unfold dcbClear
  repeat' first
    | with_reducible assumption
    | with_reducible apply State.setFld_within (hW.of (by decide))

theorem rfpCommit_within (hW : Sub [.rfp] Ω) {p : Nat} (h : Within Ω a s) : Within Ω a (rfpCommit p s) := by
  unfold rfpCommit
  extract_lets v1
  clear_value v1
  repeat' first
    | with_reducible assumption
    | with_reducible apply dueReset_within (hW.of (by decide))
    | with_reducible refine Within.ite (fun _ => ?_) (fun _ => ?_)
    | with_reducible refine Within.foldl ?_ (fun t x ht => ?_)

theorem tapPush_within (hW : Sub [.flash, .flc, .free, .hbm, .hif, .mq, .out, .pmu, .regs, .rfp, .seed, .ump] Ω) {p : Nat} (h : Within Ω a s) : Within Ω a (tapPush p s) := by
  unfold tapPush
  extract_lets r os s1
  have h1 : Within Ω a s1 := State.updRport_within (hW.of (by decide)) h
  clear_value os
  cases os with
  | nil => exact h
  | cons o os =>
    dsimp -zeta only
    refine Within.ite (fun _ => h) (fun _ => ?_)
    clear_value s1
    cases hq : seedAlloc (s1.fld (fRfpTapAccountAccount p)) 4 .owned s1 with
    | mk x t =>
      have ht := seedAlloc_within_pair (hW.of (by decide)) hq h1
      cases x
      · dsimp -zeta only
        extract_lets s2 s3
        have h3 : Within Ω a s3 := State.updRport_within (hW.of (by decide)) (State.bump_within (hW.of (by decide)) (bufWrite_within (hW.of (by decide)) ht))
        clear_value s3
        exact Within.ite (fun _ => mqPush_within (hW.of (by decide)) h3) (fun _ => freeItem_within (hW.of (by decide)) h3)
      · exact State.bump_within (hW.of (by decide)) ht
      · exact State.bump_within (hW.of (by decide)) ht

theorem execSampleTapItemPush_within (hW : Sub [.flash, .flc, .free, .hbm, .hif, .mq, .out, .pmu, .regs, .rfp, .seed, .ump] Ω) {port : Nat} (h : Within Ω a s) : WithinOut Ω a (execSampleTapItemPush port s) := by
  unfold execSampleTapItemPush
  repeat' first
    | with_reducible assumption
    | with_reducible apply tapPush_within (hW.of (by decide))
    | with_reducible refine Within.ite (fun _ => ?_) (fun _ => ?_)
    | with_reducible apply WithinOut.next

theorem State.updMadi_within (hW : Sub [.madi] Ω) {p : Nat} {f : MadiPort → MadiPort} (h : Within Ω a s) : Within Ω a (State.updMadi s p f) := by
  unfold State.updMadi
  repeat' first
    | with_reducible assumption
    | dsimp only
    | ((with_reducible refine Within.mk_same rfl ?_ ?_); (intro p hn; cases p <;> first | rfl | exact absurd (hW.use (by decide)) hn))

theorem madiPush_within (hW : Sub [.flash, .flc, .free, .hbm, .hif, .madi, .mq, .out, .pmu, .regs, .seed, .ump] Ω) {p : Nat} {xs : List Word} {vBits : Nat} {codeErrs : Nat} {drift : Int} (h : Within Ω a s) : Within Ω a (madiPush p xs vBits codeErrs drift s) := by
  unfold madiPush
  repeat' first
    | with_reducible assumption
    | with_reducible apply State.bump_within (hW.of (by decide))
    | with_reducible apply State.setFld_within (hW.of (by decide))
    | with_reducible apply State.updMadi_within (hW.of (by decide))
    | refine seedAlloc_within_pair (hW.of (by decide)) (by assumption) ?_
    | with_reducible apply seedAlloc_within (hW.of (by decide))
    | with_reducible apply bufWrite_within (hW.of (by decide))
    | with_reducible apply mqPush_within (hW.of (by decide))
    | with_reducible apply freeItem_within (hW.of (by decide))
    | with_reducible refine Within.ite (fun _ => ?_) (fun _ => ?_)
    | with_reducible refine Within.foldl ?_ (fun t x ht => ?_)
    | (intro c hc; first | exact hc | (simp; done) | (simpa using hc))
    | extract_lets
    | split
    | dsimp only
    | ((with_reducible refine Within.mk_same rfl ?_ ?_); (intro p hn; cases p <;> first | rfl | exact absurd (hW.use (by decide)) hn))

theorem execMadiRxBlockPush_within (hW : Sub [.flash, .flc, .free, .hbm, .hif, .madi, .mq, .out, .pmu, .regs, .seed, .ump] Ω) {port : Nat} {samples : List Word} {vBits : Nat} {codeErrs : Nat} {drift : Int} (h : Within Ω a s) : WithinOut Ω a (execMadiRxBlockPush port samples vBits codeErrs drift s) := by
  unfold execMadiRxBlockPush
  repeat' first
    | with_reducible assumption
    | with_reducible apply madiPush_within (hW.of (by decide))
    | with_reducible refine Within.ite (fun _ => ?_) (fun _ => ?_)
    | with_reducible refine Within.foldl ?_ (fun t x ht => ?_)
    | (intro c hc; first | exact hc | (simp; done) | (simpa using hc))
    | with_reducible apply WithinOut.next
    | extract_lets
    | split
    | dsimp only

theorem madiSlip_within (hW : Sub [.madi, .regs] Ω) {p : Nat} {drift : Int} (h : Within Ω a s) : Within Ω a (madiSlip p drift s) := by
  unfold madiSlip
  repeat' first
    | with_reducible assumption
    | with_reducible apply State.setFld_within (hW.of (by decide))
    | with_reducible apply State.bump_within (hW.of (by decide))
    | with_reducible apply State.updMadi_within (hW.of (by decide))
    | with_reducible refine Within.ite (fun _ => ?_) (fun _ => ?_)
    | with_reducible refine Within.foldl ?_ (fun t x ht => ?_)
    | (intro c hc; first | exact hc | (simp; done) | (simpa using hc))
    | extract_lets
    | split
    | dsimp only
    | ((with_reducible refine Within.mk_same rfl ?_ ?_); (intro p hn; cases p <;> first | rfl | exact absurd (hW.use (by decide)) hn))

theorem execMadiRxSlip_within (hW : Sub [.madi, .regs] Ω) {port : Nat} {drift : Int} (h : Within Ω a s) : WithinOut Ω a (execMadiRxSlip port drift s) := by
  unfold execMadiRxSlip
  repeat' first
    | with_reducible assumption
    | with_reducible apply madiSlip_within (hW.of (by decide))
    | with_reducible apply WithinOut.next

theorem madiLock_within (hW : Sub [.madi, .regs] Ω) {p : Nat} {ch56 : Bool} (h : Within Ω a s) : Within Ω a (madiLock p ch56 s) := by
  unfold madiLock
  extract_lets v1 s1 s2
  clear_value v1
  have h1 : Within Ω a s1 := by
    unfold s1
    repeat' first
      | with_reducible assumption
      | with_reducible apply State.setFld_within (hW.of (by decide))
      | with_reducible apply State.bump_within (hW.of (by decide))
      | with_reducible apply State.updMadi_within (hW.of (by decide))
      | with_reducible refine Within.ite (fun _ => ?_) (fun _ => ?_)
  clear_value s1
  have h2 : Within Ω a s2 := by
    unfold s2
    repeat' first
      | with_reducible assumption
      | with_reducible apply State.setFld_within (hW.of (by decide))
  clear_value s2
  repeat' first
    | with_reducible assumption
    | with_reducible apply State.setFld_within (hW.of (by decide))
    | with_reducible apply State.bump_within (hW.of (by decide))
    | with_reducible apply State.updMadi_within (hW.of (by decide))
    | with_reducible refine Within.ite (fun _ => ?_) (fun _ => ?_)

theorem execMadiLock_within (hW : Sub [.madi, .regs] Ω) {port : Nat} {ch56 : Bool} (h : Within Ω a s) : WithinOut Ω a (execMadiLock port ch56 s) := by
  unfold execMadiLock
  repeat' first
    | with_reducible assumption
    | with_reducible apply madiLock_within (hW.of (by decide))
    | with_reducible apply WithinOut.next

theorem madiUnlock_within (hW : Sub [.hif, .out, .regs] Ω) {p : Nat} (h : Within Ω a s) : Within Ω a (madiUnlock p s) := by
  unfold madiUnlock
  repeat' first
    | with_reducible assumption
    | with_reducible apply State.setFld_within (hW.of (by decide))
    | with_reducible apply raiseFld_within (hW.of (by decide))
    | with_reducible refine Within.ite (fun _ => ?_) (fun _ => ?_)

theorem execMadiLockLoss_within (hW : Sub [.hif, .out, .regs] Ω) {port : Nat} (h : Within Ω a s) : WithinOut Ω a (execMadiLockLoss port s) := by
  unfold execMadiLockLoss
  repeat' first
    | with_reducible assumption
    | with_reducible apply madiUnlock_within (hW.of (by decide))
    | with_reducible apply WithinOut.next

theorem madiCtlWritten_within (hW : Sub [.madi, .regs] Ω) {p : Nat} (h : Within Ω a s) : Within Ω a (madiCtlWritten p s) := by
  unfold madiCtlWritten
  extract_lets s1
  have h1 : Within Ω a s1 := by
    unfold s1
    repeat' first
      | with_reducible assumption
      | with_reducible apply State.setFld_within (hW.of (by decide))
      | with_reducible apply State.updMadi_within (hW.of (by decide))
      | with_reducible refine Within.ite (fun _ => ?_) (fun _ => ?_)
  clear_value s1
  repeat' first
    | with_reducible assumption
    | with_reducible apply State.setFld_within (hW.of (by decide))
    | with_reducible apply State.updMadi_within (hW.of (by decide))
    | with_reducible refine Within.ite (fun _ => ?_) (fun _ => ?_)

theorem madiHead_within (hW : Sub [.flash, .flc, .free, .hbm, .hif, .mq, .out, .pmu, .regs, .seed, .ump] Ω) {p k fuel : Nat} (h : Within Ω a s) : Within Ω a (madiHead p k fuel s).2 := by
  induction fuel generalizing s with
  | zero => exact h
  | succ fuel ih =>
    unfold madiHead
    dsimp only
    split
    · exact h
    split
    · exact h
    split
    · next e => exact portPop_within_pair (hW.of (by decide)) e h
    · next e =>
      split
      · exact ih (State.bump_within (hW.of (by decide)) (releaseEntry_within (hW.of (by decide)) (portPop_within_pair (hW.of (by decide)) e h)))
      · exact portPop_within_pair (hW.of (by decide)) e h

theorem madiHead_within_pair (hW : Sub [.flash, .flc, .free, .hbm, .hif, .mq, .out, .pmu, .regs, .seed, .ump] Ω) {p k fuel : Nat} {o : Option (Entry × Bool)} {t : State} (e : madiHead p k fuel s = (o, t)) (h : Within Ω a s) : Within Ω a t := by
  have := madiHead_within (hW.of (by decide)) (p := p) (k := k) (fuel := fuel) h; rwa [e] at this

theorem madiExamine_within (hW : Sub [.clk, .flash, .flc, .free, .hbm, .hif, .madi, .mq, .out, .pmu, .regs, .seed, .time, .txHold, .ump] Ω) {p : Nat} (h : Within Ω a s) : Within Ω a (madiExamine p s) := by
  unfold madiExamine
  extract_lets v1 v2 s1 v3 s2 v4
  clear_value v1 v2 v3 v4
  have h1 : Within Ω a s1 := by
    unfold s1
    repeat' first
      | with_reducible assumption
      | with_reducible apply State.bump_within (hW.of (by decide))
      | with_reducible apply State.emit_within (hW.of (by decide))
      | with_reducible apply advanceTo_within (hW.of (by decide))
      | with_reducible apply reap_within (hW.of (by decide))
  clear_value s1
  have h2 : Within Ω a s2 := by
    unfold s2
    repeat' first
      | with_reducible assumption
      | with_reducible apply State.bump_within (hW.of (by decide))
      | with_reducible apply State.emit_within (hW.of (by decide))
      | with_reducible apply advanceTo_within (hW.of (by decide))
      | with_reducible apply reap_within (hW.of (by decide))
      | with_reducible apply holdUntil_within (hW.of (by decide))
      | with_reducible apply State.updMadi_within (hW.of (by decide))
  clear_value s2
  repeat' first
    | with_reducible assumption
    | with_reducible apply State.bump_within (hW.of (by decide))
    | with_reducible apply State.emit_within (hW.of (by decide))
    | with_reducible apply advanceTo_within (hW.of (by decide))
    | with_reducible apply reap_within (hW.of (by decide))
    | with_reducible apply holdUntil_within (hW.of (by decide))
    | with_reducible apply State.updMadi_within (hW.of (by decide))
    | with_reducible apply madiHead_within (hW.of (by decide))
    | refine madiHead_within_pair (hW.of (by decide)) (by assumption) ?_
    | with_reducible refine Within.ite (fun _ => ?_) (fun _ => ?_)
    | exact fun _ hc => hc
    | extract_lets
    | split

theorem execMadiTxExamine_within (hW : Sub [.clk, .flash, .flc, .free, .hbm, .hif, .madi, .mq, .out, .pmu, .regs, .seed, .time, .txHold, .ump] Ω) {port : Nat} (h : Within Ω a s) : WithinOut Ω a (execMadiTxExamine port s) := by
  unfold execMadiTxExamine
  repeat' first
    | with_reducible assumption
    | with_reducible apply madiExamine_within (hW.of (by decide))
    | with_reducible apply WithinOut.next

end Sys2Proof.Machine
end

