-- ==== Sys2Proof/Laws/WithinFlash.lean ====
section
/-!
SUPPORT. Laws/WithinFlash.lean: which parts of the state every operation of flash, PACK and staged configuration may change.
-/

namespace Sys2Proof.Machine

variable {Ω : Part → Prop} {a s : State}

theorem State.setFlc_within (hW : Sub [.flc] Ω) {f : FlcSt → FlcSt} (h : Within Ω a s) : Within Ω a (State.setFlc s f) := by
  unfold State.setFlc
  repeat' first
    | with_reducible assumption
    | dsimp only
    | ((with_reducible refine Within.mk_same rfl ?_ ?_); (intro p hn; cases p <;> first | rfl | exact absurd (hW.use (by decide)) hn))

theorem State.setFlash_within (hW : Sub [.flash] Ω) {f : FlashSt → FlashSt} (h : Within Ω a s) : Within Ω a (State.setFlash s f) := by
  unfold State.setFlash
  repeat' first
    | with_reducible assumption
    | dsimp only
    | ((with_reducible refine Within.mk_same rfl ?_ ?_); (intro p hn; cases p <;> first | rfl | exact absurd (hW.use (by decide)) hn))

theorem State.updSeg_within (hW : Sub [.flash] Ω) {q : Nat} {f : Seg → Seg} (h : Within Ω a s) : Within Ω a (State.updSeg s q f) := by
  unfold State.updSeg
  repeat' first
    | with_reducible assumption
    | with_reducible apply State.setFlash_within (hW.of (by decide))
    | split

theorem State.updDie_within (hW : Sub [.flash] Ω) {d : Nat} {f : Die → Die} (h : Within Ω a s) : Within Ω a (State.updDie s d f) := by
  unfold State.updDie
  repeat' first
    | with_reducible assumption
    | with_reducible apply State.setFlash_within (hW.of (by decide))

theorem flcInt_within (hW : Sub [.hif, .out, .regs] Ω) {i : Nat} (h : Within Ω a s) : Within Ω a (flcInt i s) := by
  unfold flcInt
  repeat' first
    | with_reducible assumption
    | with_reducible apply raiseFld_within (hW.of (by decide))

theorem flcEvent_within (hW : Sub [.hbm, .hif, .out, .regs, .ump] Ω) {cls : Nat} {cause : Nat} (h : Within Ω a s) : Within Ω a (flcEvent cls cause s) := by
  unfold flcEvent
  repeat' first
    | with_reducible assumption
    | with_reducible apply umpEvent_within (hW.of (by decide))

theorem emitPage_within (hW : Sub [.hif, .out, .pmu, .regs] Ω) {g : Seg} {p : Nat} {main : List Byte} (h : Within Ω a s) : Within Ω a (emitPage g p main s) := by
  unfold emitPage
  repeat' first
    | with_reducible assumption
    | with_reducible apply pmuEvent_within (hW.of (by decide))
    | with_reducible apply State.emit_within (hW.of (by decide))
    | with_reducible refine Within.ite (fun _ => ?_) (fun _ => ?_)
    | with_reducible refine Within.foldl ?_ (fun t x ht => ?_)
    | (intro c hc; first | exact hc | (simp; done) | (simpa using hc))
    | extract_lets
    | split
    | dsimp only

theorem closePages_within (hW : Sub [.hif, .out, .pmu, .regs] Ω) {q : Nat} (h : Within Ω a s) : Within Ω a (closePages q s) := by
  unfold closePages
  split
  · exact h
  · exact foldPair_within (hW.of (by decide)) _ _ h (fun x p hx => emitPage_within (hW.of (by decide)) hx)

theorem tryClose_within (hW : Sub [.flash, .hif, .out, .pmu, .regs] Ω) {q : Nat} (h : Within Ω a s) : Within Ω a (tryClose q s) := by
  unfold tryClose
  extract_lets v1 s1 s2
  clear_value v1
  have h1 : Within Ω a s1 := by
    unfold s1
    repeat' first
      | with_reducible assumption
      | with_reducible apply State.bump_within (hW.of (by decide))
      | with_reducible apply finishWait_within (hW.of (by decide))
      | with_reducible apply State.updSeg_within (hW.of (by decide))
      | with_reducible apply closePages_within (hW.of (by decide))
  clear_value s1
  have h2 : Within Ω a s2 := by
    unfold s2
    repeat' first
      | with_reducible assumption
      | with_reducible apply State.bump_within (hW.of (by decide))
      | with_reducible apply finishWait_within (hW.of (by decide))
      | with_reducible apply State.updSeg_within (hW.of (by decide))
  clear_value s2
  repeat' first
    | with_reducible assumption
    | with_reducible apply State.bump_within (hW.of (by decide))
    | with_reducible apply finishWait_within (hW.of (by decide))
    | with_reducible apply State.updSeg_within (hW.of (by decide))
    | with_reducible apply closePages_within (hW.of (by decide))
    | with_reducible refine Within.ite (fun _ => ?_) (fun _ => ?_)
    | exact fun _ hc => hc
    | extract_lets
    | split

theorem requestClose_within (hW : Sub [.flash, .flc, .hif, .out, .pmu, .regs] Ω) {short : Bool} {step : Bool} (h : Within Ω a s) : Within Ω a (requestClose short step s) := by
  unfold requestClose
  extract_lets s1
  have h1 : Within Ω a s1 := by
    unfold s1
    repeat' first
      | with_reducible assumption
      | with_reducible apply State.setFlc_within (hW.of (by decide))
  clear_value s1
  repeat' first
    | with_reducible assumption
    | with_reducible apply State.setFlc_within (hW.of (by decide))
    | with_reducible apply State.updSeg_within (hW.of (by decide))
    | with_reducible apply tryClose_within (hW.of (by decide))
    | exact fun _ hc => hc
    | extract_lets
    | split

theorem openSegment_within (hW : Sub [.flash, .flc, .hif, .out, .pmu, .regs] Ω) {tStart : Nat} (h : Within Ω a s) : WithinOpt Ω a (openSegment tStart s) := by
  unfold openSegment
  extract_lets v1
  clear_value v1
  repeat' first
    | with_reducible assumption
    | with_reducible apply State.setFlc_within (hW.of (by decide))
    | with_reducible apply State.setFlash_within (hW.of (by decide))
    | with_reducible apply emitPage_within (hW.of (by decide))
    | with_reducible apply WithinOpt.some
    | with_reducible exact WithinOpt.none
    | extract_lets
    | split

theorem openSegment_within_some (hW : Sub [.flash, .flc, .hif, .out, .pmu, .regs] Ω) {tStart : Nat} {t} (e : openSegment tStart s = some t) (h : Within Ω a s) : Within Ω a t := openSegment_within (hW.of (by decide)) h t e

theorem haltCheck_within (hW : Sub [.flash, .flc, .hbm, .hif, .out, .pmu, .regs, .ump] Ω) (h : Within Ω a s) : Within Ω a (haltCheck s) := by
  unfold haltCheck
  extract_lets s1
  have h1 : Within Ω a s1 := by
    unfold s1
    repeat' first
      | with_reducible assumption
      | with_reducible apply State.setFld_within (hW.of (by decide))
      | with_reducible apply flcInt_within (hW.of (by decide))
      | with_reducible apply flcEvent_within (hW.of (by decide))
      | with_reducible apply requestClose_within (hW.of (by decide))
  clear_value s1
  repeat' first
    | with_reducible assumption
    | with_reducible apply State.setFld_within (hW.of (by decide))
    | with_reducible apply flcInt_within (hW.of (by decide))
    | with_reducible apply flcEvent_within (hW.of (by decide))
    | with_reducible apply requestClose_within (hW.of (by decide))
    | with_reducible refine Within.ite (fun _ => ?_) (fun _ => ?_)

theorem newPage_within (hW : Sub [.flash, .flc, .hbm, .hif, .out, .pmu, .regs, .ump] Ω) {ext : Nat} (h : Within Ω a s) : Within Ω a (newPage ext s).2 := by
  unfold newPage
  extract_lets v1 s1
  clear_value v1
  have h1 : Within Ω a s1 := by
    unfold s1
    repeat' first
      | with_reducible assumption
      | with_reducible apply State.setFlc_within (hW.of (by decide))
      | with_reducible apply requestClose_within (hW.of (by decide))
      | with_reducible apply openSegment_within (hW.of (by decide))
      | refine openSegment_within_some (hW.of (by decide)) (by assumption) ?_
      | with_reducible apply haltCheck_within (hW.of (by decide))
      | with_reducible refine Within.ite (fun _ => ?_) (fun _ => ?_)
      | extract_lets
      | split
  clear_value s1
  repeat' first
    | with_reducible assumption
    | with_reducible apply State.setFlc_within (hW.of (by decide))
    | with_reducible apply requestClose_within (hW.of (by decide))
    | with_reducible apply openSegment_within (hW.of (by decide))
    | refine openSegment_within_some (hW.of (by decide)) (by assumption) ?_
    | with_reducible apply haltCheck_within (hW.of (by decide))
    | with_reducible refine Within.ite (fun _ => ?_) (fun _ => ?_)
    | extract_lets
    | split

theorem newPage_within_pair (hW : Sub [.flash, .flc, .hbm, .hif, .out, .pmu, .regs, .ump] Ω) {ext : Nat} {x0} {t} (e : newPage ext s = (x0, t)) (h : Within Ω a s) : Within Ω a t := by
  have := newPage_within (hW.of (by decide)) (ext := ext) h; rwa [e] at this

theorem placeRec_within (hW : Sub [.flash, .flc, .hbm, .hif, .out, .pmu, .regs, .ump] Ω) {r : FRec} (h : Within Ω a s) : Within Ω a (placeRec r s).2 := by
  unfold placeRec
  extract_lets s1
  have h1 : Within Ω a s1 := by
    unfold s1
    split
    · exact Within.ite (fun _ => State.setFlc_within (hW.of (by decide)) h) (fun _ => h)
    · exact h
  clear_value s1
  have hp : Within Ω a (if s1.flc.page.isSome then (true, s1) else newPage r.ext s1).2 := by
    split
    · exact h1
    · exact newPage_within (hW.of (by decide)) h1
  cases hq : (if s1.flc.page.isSome then (true, s1) else newPage r.ext s1) with
  | mk ok t =>
    rw [hq] at hp
    cases ok
    · exact hp
    · dsimp -zeta only; rw [if_pos rfl]; exact Within.snd (State.setFlc_within (hW.of (by decide)) hp)

theorem placeRec_within_pair (hW : Sub [.flash, .flc, .hbm, .hif, .out, .pmu, .regs, .ump] Ω) {r : FRec} {ok : Bool} {t : State} (e : placeRec r s = (ok, t)) (h : Within Ω a s) : Within Ω a t := by
  have := placeRec_within (hW.of (by decide)) (r := r) h; rwa [e] at this

theorem retireBlock_within (hW : Sub [.flash, .hbm, .hif, .out, .regs, .ump] Ω) {d : Nat} {b : Nat} (h : Within Ω a s) : Within Ω a (retireBlock d b s) := by
  unfold retireBlock
  extract_lets s1 s2 v1
  clear_value v1
  have h1 : Within Ω a s1 := by
    unfold s1
    repeat' first
      | with_reducible assumption
      | with_reducible apply State.bump_within (hW.of (by decide))
      | with_reducible apply State.updDie_within (hW.of (by decide))
  clear_value s1
  have h2 : Within Ω a s2 := by
    unfold s2
    repeat' first
      | with_reducible assumption
      | with_reducible apply State.bump_within (hW.of (by decide))
      | with_reducible apply State.updDie_within (hW.of (by decide))
      | with_reducible apply flcInt_within (hW.of (by decide))
      | with_reducible apply flcEvent_within (hW.of (by decide))
  clear_value s2
  repeat' first
    | with_reducible assumption
    | with_reducible apply State.bump_within (hW.of (by decide))
    | with_reducible apply State.updDie_within (hW.of (by decide))
    | with_reducible apply flcInt_within (hW.of (by decide))
    | with_reducible apply flcEvent_within (hW.of (by decide))
    | with_reducible refine Within.ite (fun _ => ?_) (fun _ => ?_)
    | exact fun _ hc => hc
    | extract_lets
    | split

theorem beginProgram_within (hW : Sub [.flash, .flc, .hbm, .hif, .out, .pmu, .regs, .ump] Ω) (h : Within Ω a s) : Within Ω a (beginProgram s) := by
  unfold beginProgram
  split
  · exact h
  next pg rest _ =>
  split
  · exact State.setFlc_within (hW.of (by decide)) h
  next g _ =>
  cases hn : nextPos s g 4096 g.d [] with
  | mk p skipped =>
    dsimp -zeta only
    refine Within.ite (fun _ => ?_) (fun _ => ?_)
    · extract_lets g' s1 s2 s3
      have h3 : Within Ω a s3 := emitPage_within (hW.of (by decide)) (State.setFlc_within (hW.of (by decide)) (State.updSeg_within (hW.of (by decide)) h))
      clear_value s3
      exact Within.ite (fun _ => requestClose_within (hW.of (by decide)) h3) (fun _ => h3)
    · extract_lets old r
      have hr : ∀ q t, r = some (q, t) → Within Ω a t := by
        intro q t e
        unfold r at e
        split at e
        · split at e
          · cases e
          · cases e; exact h
        · obtain ⟨u, hu, e⟩ := Option.bind_eq_some_iff.mp e
          obtain ⟨v, _, e⟩ := Option.map_eq_some_iff.mp e
          cases e; exact openSegment_within_some (hW.of (by decide)) hu h
      clear_value r
      split
      next q t => exact tryClose_within (hW.of (by decide)) (State.setFlc_within (hW.of (by decide)) (hr q t rfl))
      · exact haltCheck_within (hW.of (by decide)) (Within.ite (fun _ => requestClose_within (hW.of (by decide)) h) (fun _ => h))

theorem capDrop_within (hW : Sub [.hif, .out, .regs] Ω) {n : Nat} (h : Within Ω a s) : Within Ω a (capDrop n s) := by
  unfold capDrop
  repeat' first
    | with_reducible assumption
    | with_reducible apply State.bump_within (hW.of (by decide))
    | with_reducible apply raiseFld_within (hW.of (by decide))
    | with_reducible refine Within.ite (fun _ => ?_) (fun _ => ?_)

theorem dropStaging_within (hW : Sub [.flash, .flc, .free, .hbm, .hif, .out, .pmu, .regs, .ump] Ω) (h : Within Ω a s) : Within Ω a (dropStaging s) := by
  unfold dropStaging
  repeat' first
    | with_reducible assumption
    | with_reducible apply capDrop_within (hW.of (by decide))
    | with_reducible apply State.setFlc_within (hW.of (by decide))
    | refine State.draw_within_pair (hW.of (by decide)) (by assumption) ?_
    | with_reducible apply State.draw_within (hW.of (by decide))
    | with_reducible apply tryClose_within (hW.of (by decide))
    | with_reducible apply umpEvent_within (hW.of (by decide))
    | with_reducible refine Within.ite (fun _ => ?_) (fun _ => ?_)
    | with_reducible refine Within.foldl ?_ (fun t x ht => ?_)
    | (intro c hc; first | exact hc | (simp; done) | (simpa using hc))
    | extract_lets
    | split
    | dsimp only
    | ((with_reducible refine Within.mk_same rfl ?_ ?_); (intro p hn; cases p <;> first | rfl | exact absurd (hW.use (by decide)) hn))

theorem execStagingPageProgram_within (hW : Sub [.flash, .flc, .free, .hbm, .hif, .out, .pmu, .regs, .ump] Ω) {hbmOk : Bool} (h : Within Ω a s) : WithinOut Ω a (execStagingPageProgram hbmOk s) := by
  unfold execStagingPageProgram
  repeat' first
    | with_reducible assumption
    | with_reducible apply beginProgram_within (hW.of (by decide))
    | with_reducible apply dropStaging_within (hW.of (by decide))
    | with_reducible refine Within.ite (fun _ => ?_) (fun _ => ?_)
    | with_reducible refine Within.foldl ?_ (fun t x ht => ?_)
    | (intro c hc; first | exact hc | (simp; done) | (simpa using hc))
    | with_reducible apply WithinOut.next
    | extract_lets
    | split
    | dsimp only

theorem programDone_within (hW : Sub [.flash, .flc, .hbm, .hif, .out, .pmu, .regs, .ump] Ω) {ok : Bool} (h : Within Ω a s) : Within Ω a (programDone ok s) := by
  unfold programDone
  repeat' first
    | with_reducible assumption
    | with_reducible apply State.bump_within (hW.of (by decide))
    | with_reducible apply State.setFlc_within (hW.of (by decide))
    | with_reducible apply State.updSeg_within (hW.of (by decide))
    | with_reducible apply tryClose_within (hW.of (by decide))
    | with_reducible apply haltCheck_within (hW.of (by decide))
    | with_reducible apply retireBlock_within (hW.of (by decide))
    | with_reducible refine Within.ite (fun _ => ?_) (fun _ => ?_)
    | with_reducible apply CoreRes.within_skip
    | with_reducible apply WithinOpt.getD
    | exact fun _ hc => hc
    | extract_lets
    | split

theorem execPageProgramComplete_within (hW : Sub [.flash, .flc, .hbm, .hif, .out, .pmu, .regs, .ump] Ω) {ok : Bool} (h : Within Ω a s) : WithinOut Ω a (execPageProgramComplete ok s) := by
  unfold execPageProgramComplete
  repeat' first
    | with_reducible assumption
    | with_reducible apply programDone_within (hW.of (by decide))
    | with_reducible apply WithinOut.next

theorem eraseDone_within (hW : Sub [.flash, .flc, .hbm, .hif, .out, .pmu, .regs, .ump] Ω) {d : Nat} {b : Nat} {ok : Bool} (h : Within Ω a s) : Within Ω a (eraseDone d b ok s) := by
  unfold eraseDone
  extract_lets s1
  have h1 : Within Ω a s1 := by
    unfold s1
    repeat' first
      | with_reducible assumption
      | with_reducible apply State.bump_within (hW.of (by decide))
      | with_reducible apply State.setFlash_within (hW.of (by decide))
  clear_value s1
  repeat' first
    | with_reducible assumption
    | with_reducible apply State.bump_within (hW.of (by decide))
    | with_reducible apply State.setFlash_within (hW.of (by decide))
    | with_reducible apply State.updDie_within (hW.of (by decide))
    | with_reducible apply haltCheck_within (hW.of (by decide))
    | with_reducible apply retireBlock_within (hW.of (by decide))
    | with_reducible refine Within.ite (fun _ => ?_) (fun _ => ?_)

theorem execBlockEraseComplete_within (hW : Sub [.flash, .flc, .hbm, .hif, .out, .pmu, .regs, .ump] Ω) {die : Nat} {block : Nat} {ok : Bool} (h : Within Ω a s) : WithinOut Ω a (execBlockEraseComplete die block ok s) := by
  unfold execBlockEraseComplete
  repeat' first
    | with_reducible assumption
    | with_reducible apply eraseDone_within (hW.of (by decide))
    | with_reducible apply WithinOut.next

theorem eraseSeg_within (hW : Sub [.flash, .hbm, .hif, .out, .regs, .ump] Ω) {q : Nat} (h : Within Ω a s) : Within Ω a (eraseSeg q s) := by
  unfold eraseSeg
  extract_lets s1
  have h1 : Within Ω a s1 := by
    unfold s1
    repeat' first
      | with_reducible assumption
      | with_reducible apply State.emit_within (hW.of (by decide))
      | with_reducible apply State.setFlash_within (hW.of (by decide))
  clear_value s1
  repeat' first
    | with_reducible assumption
    | with_reducible apply State.emit_within (hW.of (by decide))
    | with_reducible apply State.setFlash_within (hW.of (by decide))
    | with_reducible apply State.updDie_within (hW.of (by decide))
    | with_reducible apply retireBlock_within (hW.of (by decide))
    | with_reducible refine Within.ite (fun _ => ?_) (fun _ => ?_)
    | with_reducible refine Within.foldl ?_ (fun t x ht => ?_)
    | with_reducible apply WithinOpt.getD
    | exact fun _ hc => hc
    | extract_lets
    | split

theorem dropOld_within (hW : Sub [.flash, .hbm, .hif, .out, .regs, .ump] Ω) (h : Within Ω a s) : Within Ω a (dropOld s) := by
  unfold dropOld
  repeat' first
    | with_reducible assumption
    | with_reducible apply eraseSeg_within (hW.of (by decide))
    | with_reducible refine Within.foldl ?_ (fun t x ht => ?_)

theorem reclaim_within (hW : Sub [.flash, .flc, .hbm, .hif, .out, .pmu, .regs, .ump] Ω) (h : Within Ω a s) : Within Ω a (reclaim s) := by
  unfold reclaim
  extract_lets v1
  clear_value v1
  repeat' first
    | with_reducible assumption
    | with_reducible apply State.bump_within (hW.of (by decide))
    | with_reducible apply State.setFlc_within (hW.of (by decide))
    | with_reducible apply flcInt_within (hW.of (by decide))
    | with_reducible apply haltCheck_within (hW.of (by decide))
    | with_reducible apply eraseSeg_within (hW.of (by decide))
    | with_reducible refine Within.ite (fun _ => ?_) (fun _ => ?_)
    | extract_lets
    | split

theorem execSegmentReclaim_within (hW : Sub [.flash, .flc, .hbm, .hif, .out, .pmu, .regs, .ump] Ω) (h : Within Ω a s) : WithinOut Ω a (execSegmentReclaim s) := by
  unfold execSegmentReclaim
  repeat' first
    | with_reducible assumption
    | with_reducible apply reclaim_within (hW.of (by decide))
    | with_reducible apply WithinOut.next

theorem relocate_within (hW : Sub [.flash, .flc, .hbm, .hif, .out, .pmu, .regs, .ump] Ω) {q : Nat} {g : Seg} (h : Within Ω a s) : Within Ω a (relocate q g s) := by
  unfold relocate
  extract_lets v1 v2 v3 v4 v5 v6
  clear_value v1 v2 v3 v4 v5 v6
  repeat' first
    | with_reducible assumption
    | with_reducible apply State.bump_within (hW.of (by decide))
    | with_reducible apply State.setFlc_within (hW.of (by decide))
    | with_reducible apply State.setFlash_within (hW.of (by decide))
    | with_reducible apply State.updSeg_within (hW.of (by decide))
    | with_reducible apply emitPage_within (hW.of (by decide))
    | with_reducible apply closePages_within (hW.of (by decide))
    | with_reducible apply dropOld_within (hW.of (by decide))
    | with_reducible refine Within.foldl ?_ (fun t x ht => ?_)
    | with_reducible apply WithinOpt.getD
    | exact fun _ hc => hc
    | extract_lets
    | split

theorem refreshRead_within (hW : Sub [.flash, .flc, .hbm, .hif, .out, .pmu, .regs, .ump] Ω) {q : Nat} {maxCorrected : Nat} {lost : List Nat} (h : Within Ω a s) : Within Ω a (refreshRead q maxCorrected lost s) := by
  unfold refreshRead
  repeat' first
    | with_reducible assumption
    | with_reducible apply State.updSeg_within (hW.of (by decide))
    | with_reducible apply relocate_within (hW.of (by decide))
    | with_reducible refine Within.ite (fun _ => ?_) (fun _ => ?_)
    | with_reducible refine Within.foldl ?_ (fun t x ht => ?_)
    | exact fun _ hc => hc
    | extract_lets
    | split

theorem execRefreshSegmentRead_within (hW : Sub [.flash, .flc, .hbm, .hif, .out, .pmu, .regs, .ump] Ω) {seq : Nat} {maxCorrected : Nat} {lost : List Nat} (h : Within Ω a s) : WithinOut Ω a (execRefreshSegmentRead seq maxCorrected lost s) := by
  unfold execRefreshSegmentRead
  repeat' first
    | with_reducible assumption
    | with_reducible apply refreshRead_within (hW.of (by decide))
    | with_reducible apply WithinOut.next

theorem codewordDecode_within (hW : Sub [.flash, .hbm, .hif, .out, .pmu, .regs, .ump] Ω) {q : Nat} {page : Nat} {reads : Nat} {iters : Nat} {corrected : Option Nat} (h : Within Ω a s) : Within Ω a (codewordDecode q page reads iters corrected s) := by
  unfold codewordDecode
  repeat' first
    | with_reducible assumption
    | with_reducible apply State.bump_within (hW.of (by decide))
    | with_reducible apply pmuEvent_within (hW.of (by decide))
    | with_reducible apply State.updSeg_within (hW.of (by decide))
    | with_reducible apply flcEvent_within (hW.of (by decide))
    | with_reducible apply flcInt_within (hW.of (by decide))
    | with_reducible refine Within.ite (fun _ => ?_) (fun _ => ?_)
    | with_reducible refine Within.foldl ?_ (fun t x ht => ?_)
    | (intro c hc; first | exact hc | (simp; done) | (simpa using hc))
    | extract_lets
    | split
    | dsimp only
    | ((with_reducible refine Within.mk_same rfl ?_ ?_); (intro p hn; cases p <;> first | rfl | exact absurd (hW.use (by decide)) hn))

theorem execFlashCodewordDecode_within (hW : Sub [.flash, .hbm, .hif, .out, .pmu, .regs, .ump] Ω) {seq : Nat} {page : Nat} {reads : Nat} {iters : Nat} {corrected : Option Nat} (h : Within Ω a s) : WithinOut Ω a (execFlashCodewordDecode seq page reads iters corrected s) := by
  unfold execFlashCodewordDecode
  repeat' first
    | with_reducible assumption
    | with_reducible apply codewordDecode_within (hW.of (by decide))
    | with_reducible apply WithinOut.next

theorem segmentStep_within (hW : Sub [.flash, .flc, .hif, .out, .pmu, .regs] Ω) {old : Nat} {new : Nat} (h : Within Ω a s) : Within Ω a (segmentStep old new s) := by
  unfold segmentStep
  repeat' first
    | with_reducible assumption
    | with_reducible apply requestClose_within (hW.of (by decide))
    | with_reducible refine Within.ite (fun _ => ?_) (fun _ => ?_)

theorem bringupStep_within (hW : Sub [.flash, .flc, .hif, .out, .regs] Ω) {targets : Nat} {luns : Nat} {good : Nat} (h : Within Ω a s) : Within Ω a (bringupStep targets luns good s) := by
  unfold bringupStep
  extract_lets s1 s2 s3 s4 s5 s6 s7 s8
  have h1 : Within Ω a s1 := by
    unfold s1
    repeat' first
      | with_reducible assumption
      | with_reducible apply State.setFld_within (hW.of (by decide))
  clear_value s1
  have h2 : Within Ω a s2 := by
    unfold s2
    repeat' first
      | with_reducible assumption
      | with_reducible apply State.setFld_within (hW.of (by decide))
      | with_reducible apply State.setFlc_within (hW.of (by decide))
      | with_reducible apply State.setFlash_within (hW.of (by decide))
      | with_reducible apply State.updSeg_within (hW.of (by decide))
      | with_reducible apply State.updDie_within (hW.of (by decide))
      | with_reducible apply flcInt_within (hW.of (by decide))
      | with_reducible refine Within.ite (fun _ => ?_) (fun _ => ?_)
  clear_value s2
  have h3 : Within Ω a s3 := by
    unfold s3
    repeat' first
      | with_reducible assumption
      | with_reducible apply State.setFld_within (hW.of (by decide))
      | with_reducible apply State.setFlc_within (hW.of (by decide))
      | with_reducible apply State.setFlash_within (hW.of (by decide))
      | with_reducible apply State.updSeg_within (hW.of (by decide))
      | with_reducible apply State.updDie_within (hW.of (by decide))
      | with_reducible apply flcInt_within (hW.of (by decide))
      | with_reducible refine Within.ite (fun _ => ?_) (fun _ => ?_)
  clear_value s3
  have h4 : Within Ω a s4 := by
    unfold s4
    repeat' first
      | with_reducible assumption
      | with_reducible apply State.setFld_within (hW.of (by decide))
      | with_reducible apply State.setFlc_within (hW.of (by decide))
      | with_reducible apply State.setFlash_within (hW.of (by decide))
      | with_reducible apply State.updSeg_within (hW.of (by decide))
      | with_reducible apply State.updDie_within (hW.of (by decide))
      | with_reducible apply flcInt_within (hW.of (by decide))
      | with_reducible refine Within.ite (fun _ => ?_) (fun _ => ?_)
      | with_reducible refine Within.foldl ?_ (fun t x ht => ?_)
  clear_value s4
  have h5 : Within Ω a s5 := by
    unfold s5
    repeat' first
      | with_reducible assumption
      | with_reducible apply State.setFld_within (hW.of (by decide))
      | with_reducible apply State.setFlc_within (hW.of (by decide))
      | with_reducible apply State.setFlash_within (hW.of (by decide))
  clear_value s5
  have h6 : Within Ω a s6 := by
    unfold s6
    repeat' first
      | with_reducible assumption
      | with_reducible apply State.setFld_within (hW.of (by decide))
  clear_value s6
  have h7 : Within Ω a s7 := by
    unfold s7
    repeat' first
      | with_reducible assumption
      | with_reducible apply State.setFld_within (hW.of (by decide))
      | with_reducible apply State.setFlc_within (hW.of (by decide))
      | with_reducible apply State.setFlash_within (hW.of (by decide))
  clear_value s7
  have h8 : Within Ω a s8 := by
    unfold s8
    repeat' first
      | with_reducible assumption
      | with_reducible apply State.setFld_within (hW.of (by decide))
  clear_value s8
  repeat' first
    | with_reducible assumption
    | with_reducible apply State.setFld_within (hW.of (by decide))
    | with_reducible apply State.setFlc_within (hW.of (by decide))
    | with_reducible apply State.setFlash_within (hW.of (by decide))
    | with_reducible apply State.updSeg_within (hW.of (by decide))
    | with_reducible apply State.updDie_within (hW.of (by decide))
    | with_reducible apply flcInt_within (hW.of (by decide))
    | with_reducible refine Within.ite (fun _ => ?_) (fun _ => ?_)
    | with_reducible refine Within.foldl ?_ (fun t x ht => ?_)
    | exact fun _ hc => hc
    | extract_lets
    | split

theorem execFlcBringupStepComplete_within (hW : Sub [.flash, .flc, .hif, .out, .regs] Ω) {targets : Nat} {luns : Nat} {goodBlocks : Nat} (h : Within Ω a s) : WithinOut Ω a (execFlcBringupStepComplete targets luns goodBlocks s) := by
  unfold execFlcBringupStepComplete
  repeat' first
    | with_reducible assumption
    | with_reducible apply bringupStep_within (hW.of (by decide))
    | with_reducible apply WithinOut.next

theorem flcCtlWritten_within (hW : Sub [.flc, .hif, .out, .regs] Ω) {was : Bool} (h : Within Ω a s) : Within Ω a (flcCtlWritten was s) := by
  unfold flcCtlWritten
  extract_lets v1 s1 s2
  clear_value v1
  have h1 : Within Ω a s1 := by
    unfold s1
    repeat' first
      | with_reducible assumption
      | with_reducible apply State.setFld_within (hW.of (by decide))
  clear_value s1
  have h2 : Within Ω a s2 := by
    unfold s2
    repeat' first
      | with_reducible assumption
      | with_reducible apply State.setFld_within (hW.of (by decide))
      | with_reducible apply finishWait_within (hW.of (by decide))
      | with_reducible apply State.setFlc_within (hW.of (by decide))
  clear_value s2
  repeat' first
    | with_reducible assumption
    | with_reducible apply State.setFld_within (hW.of (by decide))
    | with_reducible apply finishWait_within (hW.of (by decide))
    | with_reducible apply State.setFlc_within (hW.of (by decide))
    | with_reducible refine Within.ite (fun _ => ?_) (fun _ => ?_)

theorem execCapStart_within (hW : Sub [.core, .hif, .out, .regs] Ω) {h' : KciHdr} (h : Within Ω a s) : WithinOut Ω a (execCapStart h' s) := by
  unfold execCapStart
  repeat' first
    | with_reducible assumption
    | with_reducible apply State.setFld_within (hW.of (by decide))
    | with_reducible apply kciFail_within (hW.of (by decide))
    | with_reducible apply kciOk_within (hW.of (by decide))
    | with_reducible refine kci_within (hW.of (by decide)) ?_ (fun t ht => ?_)
    | with_reducible refine Within.ite (fun _ => ?_) (fun _ => ?_)
    | with_reducible apply KciRes.within_fail
    | with_reducible apply KciRes.within_ok
    | with_reducible apply WithinOut.next
    | split

theorem execCapStop_within (hW : Sub [.core, .flash, .flc, .hif, .out, .pmu, .regs] Ω) {h' : KciHdr} (h : Within Ω a s) : WithinOut Ω a (execCapStop h' s) := by
  unfold execCapStop
  repeat' first
    | with_reducible assumption
    | with_reducible apply State.setFld_within (hW.of (by decide))
    | with_reducible apply kciFail_within (hW.of (by decide))
    | with_reducible apply kciOk_within (hW.of (by decide))
    | with_reducible refine kci_within (hW.of (by decide)) ?_ (fun t ht => ?_)
    | with_reducible apply State.setFlc_within (hW.of (by decide))
    | with_reducible apply requestClose_within (hW.of (by decide))
    | with_reducible refine Within.ite (fun _ => ?_) (fun _ => ?_)
    | with_reducible apply KciRes.within_fail
    | with_reducible apply KciRes.within_ok
    | with_reducible apply KciRes.within_wait
    | with_reducible apply WithinOut.next
    | extract_lets
    | split

theorem execCapPoint_within (hW : Sub [.core, .flc, .hif, .out, .regs] Ω) {h' : KciHdr} {tFrom : Nat} {tTo : Nat} {protect : Nat} (h : Within Ω a s) : WithinOut Ω a (execCapPoint h' tFrom tTo protect s) := by
  unfold execCapPoint
  repeat' first
    | with_reducible assumption
    | with_reducible apply kciFail_within (hW.of (by decide))
    | with_reducible refine kci_within (hW.of (by decide)) ?_ (fun t ht => ?_)
    | with_reducible apply State.setFlc_within (hW.of (by decide))
    | with_reducible refine Within.ite (fun _ => ?_) (fun _ => ?_)
    | with_reducible apply CoreRes.within_done
    | with_reducible apply KciRes.within_fail
    | with_reducible apply KciRes.within_done
    | with_reducible apply WithinOut.next
    | extract_lets
    | split

theorem execCapPointClear_within (hW : Sub [.core, .flc, .hif, .out, .regs] Ω) {h' : KciHdr} {point : Nat} (h : Within Ω a s) : WithinOut Ω a (execCapPointClear h' point s) := by
  unfold execCapPointClear
  repeat' first
    | with_reducible assumption
    | with_reducible apply kciFail_within (hW.of (by decide))
    | with_reducible apply kciOk_within (hW.of (by decide))
    | with_reducible refine kci_within (hW.of (by decide)) ?_ (fun t ht => ?_)
    | with_reducible apply State.setFlc_within (hW.of (by decide))
    | with_reducible refine Within.ite (fun _ => ?_) (fun _ => ?_)
    | with_reducible apply KciRes.within_fail
    | with_reducible apply KciRes.within_ok
    | with_reducible apply WithinOut.next
    | split

theorem execCapReplay_within (hW : Sub [.core, .flc, .hif, .out, .regs] Ω) {h' : KciHdr} {op : ReplayOp} (h : Within Ω a s) : WithinOut Ω a (execCapReplay h' op s) := by
  unfold execCapReplay
  repeat' first
    | with_reducible assumption
    | with_reducible apply kciFail_within (hW.of (by decide))
    | with_reducible apply kciOk_within (hW.of (by decide))
    | with_reducible refine kci_within (hW.of (by decide)) ?_ (fun t ht => ?_)
    | with_reducible apply State.setFlc_within (hW.of (by decide))
    | with_reducible refine Within.ite (fun _ => ?_) (fun _ => ?_)
    | with_reducible apply CoreRes.within_done
    | with_reducible apply KciRes.within_fail
    | with_reducible apply KciRes.within_ok
    | with_reducible apply KciRes.within_done
    | with_reducible apply WithinOut.next
    | with_reducible apply WithinOpt.getD
    | extract_lets
    | split

theorem execCapStats_within (hW : Sub [.core, .flc, .hif, .out, .regs] Ω) {h' : KciHdr} {clear : Bool} (h : Within Ω a s) : WithinOut Ω a (execCapStats h' clear s) := by
  unfold execCapStats
  repeat' first
    | with_reducible assumption
    | with_reducible apply State.setFld_within (hW.of (by decide))

    | with_reducible refine kci_within (hW.of (by decide)) ?_ (fun t ht => ?_)
    | with_reducible apply State.setFlc_within (hW.of (by decide))
    | with_reducible refine Within.ite (fun _ => ?_) (fun _ => ?_)
    | with_reducible apply KciRes.within_record
    | with_reducible apply WithinOut.next

theorem stopDone_within (hW : Sub [.flash, .flc, .hif, .out, .pmu, .regs] Ω) (h : Within Ω a s) : Within Ω a (stopDone s) := by
  unfold stopDone
  extract_lets s1
  have h1 : Within Ω a s1 := by
    unfold s1
    repeat' first
      | with_reducible assumption
      | with_reducible apply finishWait_within (hW.of (by decide))
      | with_reducible apply State.setFlc_within (hW.of (by decide))
      | with_reducible apply requestClose_within (hW.of (by decide))
  clear_value s1
  repeat' first
    | with_reducible assumption
    | with_reducible apply finishWait_within (hW.of (by decide))
    | with_reducible apply State.setFlc_within (hW.of (by decide))
    | with_reducible apply requestClose_within (hW.of (by decide))
    | with_reducible refine Within.ite (fun _ => ?_) (fun _ => ?_)

theorem codeBlocks_within (hW : Sub [.flash, .flc, .hbm, .hif, .out, .pack, .pmu, .regs, .seed, .ump] Ω) {e : Entry} {loan : Bool} {n fuel i : Nat} (h : Within Ω a s) : Within Ω a (codeBlocks e loan n fuel i s) := by
  induction fuel generalizing i s with
  | zero => exact h
  | succ fuel ih =>
    unfold codeBlocks
    refine Within.ite (fun _ => stopDone_within (hW.of (by decide)) (releaseEntry_within (hW.of (by decide)) (Within.mk_same rfl (fun p hn => by cases p <;> first | rfl | exact absurd (hW.use (by decide)) hn) h))) (fun _ => ?_)
    cases jobRecord s e i with
    | mk r coded =>
      dsimp -zeta only
      cases hp : placeRec r s with
      | mk ok t =>
        have ht := placeRec_within_pair (hW.of (by decide)) hp h
        cases ok
        · exact Within.mk_same rfl (fun p hn => by cases p <;> first | rfl | exact absurd (hW.use (by decide)) hn) ht
        · exact ih (State.bump_within (hW.of (by decide)) ht)

theorem capturePop_within (hW : Sub [.flash, .flc, .free, .hbm, .hif, .mq, .out, .pack, .pmu, .regs, .seed, .ump] Ω) (h : Within Ω a s) : Within Ω a (capturePop s) := by
  unfold capturePop
  repeat' first
    | with_reducible assumption
    | with_reducible apply State.bump_within (hW.of (by decide))
    | with_reducible apply portPop_within (hW.of (by decide))
    | refine portPop_within_pair (hW.of (by decide)) (by assumption) ?_
    | with_reducible apply releaseEntry_within (hW.of (by decide))
    | with_reducible apply codeBlocks_within (hW.of (by decide))
    | with_reducible apply capDrop_within (hW.of (by decide))
    | with_reducible refine Within.ite (fun _ => ?_) (fun _ => ?_)
    | extract_lets
    | split

theorem execCaptureJobPop_within (hW : Sub [.flash, .flc, .free, .hbm, .hif, .mq, .out, .pack, .pmu, .regs, .seed, .ump] Ω) (h : Within Ω a s) : WithinOut Ω a (execCaptureJobPop s) := by
  unfold execCaptureJobPop
  repeat' first
    | with_reducible assumption
    | with_reducible apply capturePop_within (hW.of (by decide))
    | with_reducible apply WithinOut.next

theorem captureResume_within (hW : Sub [.flash, .flc, .hbm, .hif, .out, .pack, .pmu, .regs, .seed, .ump] Ω) (h : Within Ω a s) : Within Ω a (captureResume s) := by
  unfold captureResume
  extract_lets v1
  clear_value v1
  repeat' first
    | with_reducible assumption
    | with_reducible apply releaseEntry_within (hW.of (by decide))
    | with_reducible apply codeBlocks_within (hW.of (by decide))
    | with_reducible apply capDrop_within (hW.of (by decide))
    | with_reducible refine Within.ite (fun _ => ?_) (fun _ => ?_)
    | extract_lets
    | split
    | dsimp only
    | ((with_reducible refine Within.mk_same rfl ?_ ?_); (intro p hn; cases p <;> first | rfl | exact absurd (hW.use (by decide)) hn))

theorem execCaptureStagingResume_within (hW : Sub [.flash, .flc, .hbm, .hif, .out, .pack, .pmu, .regs, .seed, .ump] Ω) (h : Within Ω a s) : WithinOut Ω a (execCaptureStagingResume s) := by
  unfold execCaptureStagingResume
  repeat' first
    | with_reducible assumption
    | with_reducible apply captureResume_within (hW.of (by decide))
    | with_reducible apply WithinOut.next

theorem State.setJobs_within (hW : Sub [.pack, .regs] Ω) {f : List (Nat × PackJob) → List (Nat × PackJob)} (h : Within Ω a s) : Within Ω a (State.setJobs s f) := by
  unfold State.setJobs
  extract_lets v1 s1
  clear_value v1
  have h1 : Within Ω a s1 := by
    unfold s1
    repeat' first
      | with_reducible assumption
      | with_reducible apply State.setFld_within (hW.of (by decide))
      | extract_lets
      | dsimp only
      | ((with_reducible refine Within.mk_same rfl ?_ ?_); (intro p hn; cases p <;> first | rfl | exact absurd (hW.use (by decide)) hn))
  clear_value s1
  repeat' first
    | with_reducible assumption
    | with_reducible apply State.setFld_within (hW.of (by decide))

theorem startJob_within (hW : Sub [.pack, .regs] Ω) {decode : Bool} {o : PackOp} (h : Within Ω a s) : (startJob decode o s).Ins Ω a := by
  unfold startJob
  repeat' first
    | with_reducible assumption
    | with_reducible apply kciFail_within (hW.of (by decide))
    | with_reducible apply State.setJobs_within (hW.of (by decide))
    | with_reducible apply KciRes.within_fail
    | with_reducible apply KciRes.within_wait
    | split

theorem execPackJobEncode_within (hW : Sub [.core, .hif, .out, .pack, .regs] Ω) {h' : KciHdr} {op : PackOp} (h : Within Ω a s) : WithinOut Ω a (execPackJobEncode h' op s) := by
  unfold execPackJobEncode
  repeat' first
    | with_reducible assumption
    | with_reducible refine kci_within (hW.of (by decide)) ?_ (fun t ht => ?_)
    | with_reducible apply startJob_within (hW.of (by decide))
    | with_reducible apply WithinOut.next

theorem execPackJobDecode_within (hW : Sub [.core, .hif, .out, .pack, .regs] Ω) {h' : KciHdr} {op : PackOp} (h : Within Ω a s) : WithinOut Ω a (execPackJobDecode h' op s) := by
  unfold execPackJobDecode
  repeat' first
    | with_reducible assumption
    | with_reducible refine kci_within (hW.of (by decide)) ?_ (fun t ht => ?_)
    | with_reducible apply startJob_within (hW.of (by decide))
    | with_reducible apply WithinOut.next

theorem setMapBit_within (hW : Sub [.hbm] Ω) {a' : Nat} {i : Nat} (h : Within Ω a s) : Within Ω a (setMapBit a' i s) := by
  unfold setMapBit
  extract_lets v1
  clear_value v1
  repeat' first
    | with_reducible assumption
    | with_reducible apply State.hbmWrite_within (hW.of (by decide))

theorem runJob_within (hW : Sub [.hbm, .regs] Ω) {fuel : Nat} {j : PackJob} (h : Within Ω a s) : Within Ω a (runJob fuel j s).2 := by
  induction fuel generalizing j s with
  | zero => exact h
  | succ fuel ih =>
    unfold runJob
    split
    · exact h
    cases jobBlock j s with
    | mk out miss =>
      dsimp -zeta only
      extract_lets n s1 s2 s3
      have h1 : Within Ω a s1 := by
        unfold s1
        split
        · exact State.hbmWrite_within (hW.of (by decide)) h
        · exact h
      have h3 : Within Ω a s3 := State.bump_within (hW.of (by decide)) (Within.ite (fun _ => setMapBit_within (hW.of (by decide)) h1) (fun _ => h1))
      clear_value s3
      split
      · exact h
      · exact ih h3

theorem runJob_within_pair (hW : Sub [.hbm, .regs] Ω) {fuel : Nat} {j k : PackJob} {t : State} (e : runJob fuel j s = (k, t)) (h : Within Ω a s) : Within Ω a t := by
  have := runJob_within (hW.of (by decide)) (fuel := fuel) (j := j) h; rwa [e] at this

theorem jobEnd_within (hW : Sub [.hbm, .hif, .out, .pack, .regs] Ω) {i : Nat} (h : Within Ω a s) : Within Ω a (jobEnd i s) := by
  unfold jobEnd
  repeat' first
    | with_reducible assumption
    | with_reducible apply raiseFld_within (hW.of (by decide))
    | with_reducible apply finishWait_within (hW.of (by decide))
    | with_reducible apply State.setJobs_within (hW.of (by decide))
    | with_reducible apply runJob_within (hW.of (by decide))
    | refine runJob_within_pair (hW.of (by decide)) (by assumption) ?_
    | with_reducible refine Within.ite (fun _ => ?_) (fun _ => ?_)
    | with_reducible apply CoreRes.within_done
    | with_reducible apply KciRes.within_done
    | extract_lets
    | split

theorem execPackHostJobEnd_within (hW : Sub [.hbm, .hif, .out, .pack, .regs] Ω) {job : Nat} (h : Within Ω a s) : WithinOut Ω a (execPackHostJobEnd job s) := by
  unfold execPackHostJobEnd
  repeat' first
    | with_reducible assumption
    | with_reducible apply jobEnd_within (hW.of (by decide))
    | with_reducible apply WithinOut.next

theorem execPackResume_within (hW : Sub [.core, .hif, .out, .pack, .regs] Ω) {h' : KciHdr} {job : Nat} {outAddr : Nat} {outLen : Nat} (h : Within Ω a s) : WithinOut Ω a (execPackResume h' job outAddr outLen s) := by
  unfold execPackResume
  repeat' first
    | with_reducible assumption
    | with_reducible apply kciFail_within (hW.of (by decide))
    | with_reducible refine kci_within (hW.of (by decide)) ?_ (fun t ht => ?_)
    | with_reducible apply State.setJobs_within (hW.of (by decide))
    | with_reducible refine Within.ite (fun _ => ?_) (fun _ => ?_)
    | with_reducible apply KciRes.within_fail
    | with_reducible apply KciRes.within_wait
    | with_reducible apply WithinOut.next
    | split

theorem execPackDrop_within (hW : Sub [.core, .hif, .out, .pack, .regs] Ω) {h' : KciHdr} {job : Nat} (h : Within Ω a s) : WithinOut Ω a (execPackDrop h' job s) := by
  unfold execPackDrop
  repeat' first
    | with_reducible assumption
    | with_reducible apply kciFail_within (hW.of (by decide))
    | with_reducible apply kciOk_within (hW.of (by decide))
    | with_reducible refine kci_within (hW.of (by decide)) ?_ (fun t ht => ?_)
    | with_reducible apply State.setJobs_within (hW.of (by decide))
    | with_reducible refine Within.ite (fun _ => ?_) (fun _ => ?_)
    | with_reducible apply KciRes.within_fail
    | with_reducible apply KciRes.within_ok
    | with_reducible apply WithinOut.next
    | split

theorem replayBlock_within (hW : Sub [.regs] Ω) {r : Replay} {uncorrectable : Bool} (h : Within Ω a s) : Within Ω a (replayBlock r uncorrectable s).2.2.2 := by
  unfold replayBlock
  repeat' first
    | with_reducible assumption
    | with_reducible apply State.bump_within (hW.of (by decide))
    | with_reducible refine Within.ite (fun _ => ?_) (fun _ => ?_)
    | split

theorem replayBlock_within_pair (hW : Sub [.regs] Ω) {r : Replay} {uncorrectable : Bool} {x0} {x1} {x2} {t} (e : replayBlock r uncorrectable s = (x0, x1, x2, t)) (h : Within Ω a s) : Within Ω a t := by
  have := replayBlock_within (hW.of (by decide)) (r := r) (uncorrectable := uncorrectable) h; rwa [e] at this

theorem replayPush_within (hW : Sub [.flash, .flc, .free, .hbm, .hif, .mq, .out, .pmu, .regs, .seed, .ump] Ω) {k : Nat} {r : Replay} {seg : Option Nat} {e : Entry} (h : Within Ω a s) : Within Ω a (replayPush k r seg e s) := by
  unfold replayPush
  extract_lets s1 v1
  clear_value v1
  have h1 : Within Ω a s1 := by
    unfold s1
    repeat' first
      | with_reducible assumption
      | with_reducible apply freeItem_within (hW.of (by decide))
      | with_reducible apply mqPush_within (hW.of (by decide))
      | with_reducible apply State.setFlc_within (hW.of (by decide))
      | with_reducible apply dropOld_within (hW.of (by decide))
      | with_reducible refine Within.ite (fun _ => ?_) (fun _ => ?_)
  clear_value s1
  repeat' first
    | with_reducible assumption
    | with_reducible apply freeItem_within (hW.of (by decide))
    | with_reducible apply mqPush_within (hW.of (by decide))
    | with_reducible apply State.setFlc_within (hW.of (by decide))
    | with_reducible apply dropOld_within (hW.of (by decide))

theorem replayDeliver_within (hW : Sub [.flash, .flc, .free, .hbm, .hif, .mq, .out, .pmu, .regs, .seed, .ump] Ω) {k : Nat} {uncorrectable : Bool} (h : Within Ω a s) : Within Ω a (replayDeliver k uncorrectable s) := by
  unfold replayDeliver
  repeat' first
    | with_reducible assumption
    | with_reducible apply seedAlloc_within (hW.of (by decide))
    | refine seedAlloc_within_pair (hW.of (by decide)) (by assumption) ?_
    | with_reducible apply bufWrite_within (hW.of (by decide))
    | with_reducible apply replayBlock_within (hW.of (by decide))
    | refine replayBlock_within_pair (hW.of (by decide)) (by assumption) ?_
    | with_reducible apply replayPush_within (hW.of (by decide))
    | with_reducible refine Within.ite (fun _ => ?_) (fun _ => ?_)
    | extract_lets
    | split

theorem execReplayBlockDelivery_within (hW : Sub [.flash, .flc, .free, .hbm, .hif, .mq, .out, .pmu, .regs, .seed, .ump] Ω) {replay : Nat} {uncorrectable : Bool} (h : Within Ω a s) : WithinOut Ω a (execReplayBlockDelivery replay uncorrectable s) := by
  unfold execReplayBlockDelivery
  repeat' first
    | with_reducible assumption
    | with_reducible apply replayDeliver_within (hW.of (by decide))
    | with_reducible apply WithinOut.next

theorem execCfgStage_within (hW : Sub [.cfg, .core, .hif, .out, .regs] Ω) {h' : KciHdr} {target : Nat} {offset : Nat} {len : Nat} {data : List Byte} (h : Within Ω a s) : WithinOut Ω a (execCfgStage h' target offset len data s) := by
  unfold execCfgStage
  repeat' first
    | with_reducible assumption
    | with_reducible apply kciFail_within (hW.of (by decide))
    | with_reducible apply kciOk_within (hW.of (by decide))
    | with_reducible refine kci_within (hW.of (by decide)) ?_ (fun t ht => ?_)
    | with_reducible refine Within.ite (fun _ => ?_) (fun _ => ?_)
    | with_reducible apply KciRes.within_fail
    | with_reducible apply KciRes.within_ok
    | with_reducible apply WithinOut.next
    | extract_lets
    | split
    | dsimp only
    | intro t ht
    | ((with_reducible refine Within.mk_same rfl ?_ ?_); (intro p hn; cases p <;> first | rfl | exact absurd (hW.use (by decide)) hn))

theorem commitNode_within (hW : Sub [.bull, .cfg, .core, .hbm, .hif, .out, .pmu, .regs] Ω) {n : Nat} {bs : List (Nat × Byte)} (h : Within Ω a s) : (commitNode n bs s).Ins Ω a := by
  unfold commitNode
  repeat' first
    | with_reducible assumption
    | with_reducible apply State.setNode_within (hW.of (by decide))
    | with_reducible apply dropStage_within (hW.of (by decide))
    | with_reducible apply applyCommit_within (hW.of (by decide))
    | with_reducible apply kciFail_within (hW.of (by decide))
    | with_reducible apply kciOk_within (hW.of (by decide))
    | with_reducible refine Within.ite (fun _ => ?_) (fun _ => ?_)
    | with_reducible apply KciRes.within_fail
    | with_reducible apply KciRes.within_ok
    | with_reducible apply KciRes.within_wait
    | extract_lets
    | split

theorem commitRx_within (hW : Sub [.cfg, .free, .hif, .net, .out, .pmu, .regs] Ω) {n : Nat} {bs : List (Nat × Byte)} (h : Within Ω a s) : (commitRx n bs s).Ins Ω a := by
  unfold commitRx
  cases mapFind? n s.net.rx with
  | none => exact KciRes.within_fail h
  | some x =>
    dsimp -zeta only
    extract_lets raw b
    clear_value raw b
    split
    · exact KciRes.within_fail h
    split
    · exact KciRes.within_fail h
    · exact KciRes.within_ok (dropStage_within (hW.of (by decide)) (joinKey_within (hW.of (by decide)) (joinKey_within (hW.of (by decide)) (State.setNet_within (hW.of (by decide)) h))))

theorem commitTx_within (hW : Sub [.cfg, .net] Ω) {n : Nat} {bs : List (Nat × Byte)} (h : Within Ω a s) : (commitTx n bs s).Ins Ω a := by
  unfold commitTx
  cases mapFind? n s.net.tx with
  | none => exact KciRes.within_fail h
  | some x =>
    dsimp -zeta only
    extract_lets raw b
    clear_value raw b
    split
    · exact KciRes.within_fail h
    split
    · exact KciRes.within_fail h
    · exact KciRes.within_ok (dropStage_within (hW.of (by decide)) (State.setNet_within (hW.of (by decide)) h))

theorem commitBlock_within (hW : Sub [.cfg, .hif, .out, .regs, .rfp] Ω) {id : Nat} {x : Stage} (h : Within Ω a s) : (commitBlock id x s).Ins Ω a := by
  unfold commitBlock
  repeat' first
    | with_reducible assumption
    | with_reducible apply kciFail_within (hW.of (by decide))
    | with_reducible apply kciOk_within (hW.of (by decide))
    | with_reducible apply commitRegs_within (hW.of (by decide))
    | with_reducible apply rfpCommit_within (hW.of (by decide))
    | with_reducible refine Within.ite (fun _ => ?_) (fun _ => ?_)
    | with_reducible apply KciRes.within_fail
    | with_reducible apply KciRes.within_ok
    | with_reducible apply KciRes.within_wait
    | extract_lets
    | split
    | dsimp only
    | ((with_reducible refine Within.mk_same rfl ?_ ?_); (intro p hn; cases p <;> first | rfl | exact absurd (hW.use (by decide)) hn))

theorem commitTarget_within (hW : Sub [.bull, .cfg, .core, .free, .hbm, .hif, .net, .out, .pmu, .regs, .rfp] Ω) {t' : Nat} {x : Stage} (h : Within Ω a s) : (commitTarget t' x s).Ins Ω a := by
  unfold commitTarget
  repeat' first
    | with_reducible assumption
    | with_reducible apply commitNode_within (hW.of (by decide))
    | with_reducible apply commitRx_within (hW.of (by decide))
    | with_reducible apply commitTx_within (hW.of (by decide))
    | with_reducible apply commitBlock_within (hW.of (by decide))
    | extract_lets
    | split

theorem execCfgCommit_within (hW : Sub [.bull, .cfg, .core, .free, .hbm, .hif, .net, .out, .pmu, .regs, .rfp] Ω) {h' : KciHdr} {target : Nat} (h : Within Ω a s) : WithinOut Ω a (execCfgCommit h' target s) := by
  unfold execCfgCommit
  repeat' first
    | with_reducible assumption
    | with_reducible apply kciFail_within (hW.of (by decide))
    | with_reducible refine kci_within (hW.of (by decide)) ?_ (fun t ht => ?_)
    | with_reducible apply commitTarget_within (hW.of (by decide))
    | with_reducible refine Within.ite (fun _ => ?_) (fun _ => ?_)
    | with_reducible apply KciRes.within_fail
    | with_reducible apply WithinOut.next
    | split

theorem execCfgCommitDiscard_within (hW : Sub [.cfg, .core, .hif, .out, .regs] Ω) {h' : KciHdr} {target : Nat} (h : Within Ω a s) : WithinOut Ω a (execCfgCommitDiscard h' target s) := by
  unfold execCfgCommitDiscard
  repeat' first
    | with_reducible assumption
    | with_reducible apply dropStage_within (hW.of (by decide))
    | with_reducible apply kciFail_within (hW.of (by decide))
    | with_reducible apply kciOk_within (hW.of (by decide))
    | with_reducible refine kci_within (hW.of (by decide)) ?_ (fun t ht => ?_)
    | with_reducible refine Within.ite (fun _ => ?_) (fun _ => ?_)
    | with_reducible apply KciRes.within_fail
    | with_reducible apply KciRes.within_ok
    | with_reducible apply WithinOut.next
    | split

theorem closeBlock_within (hW : Sub [.cfg, .hif, .out, .regs] Ω) {id : Nat} (h : Within Ω a s) : Within Ω a (closeBlock id s) := by
  unfold closeBlock
  repeat' first
    | with_reducible assumption
    | with_reducible apply finishWait_within (hW.of (by decide))
    | with_reducible apply dropStage_within (hW.of (by decide))

end Sys2Proof.Machine
end

