-- ==== Sys2Proof/Laws/WithinHost.lean ====
section
/-!
SUPPORT. Laws/WithinHost.lean: which parts of the state every operation of time, boot, graphs, register access and peer links may change.
-/

namespace Sys2Proof.Machine

variable {Ω : Part → Prop} {a s : State}

theorem State.setTime_within (hW : Sub [.time] Ω) {f : TimeSt → TimeSt} (h : Within Ω a s) : Within Ω a (State.setTime s f) := by
  unfold State.setTime
  repeat' first
    | with_reducible assumption
    | dsimp only
    | ((with_reducible refine Within.mk_same rfl ?_ ?_); (intro p hn; cases p <;> first | rfl | exact absurd (hW.use (by decide)) hn))

theorem followRef_within (hW : Sub [.free, .time] Ω) (h : Within Ω a s) : Within Ω a (followRef s) := by
  unfold followRef
  repeat' first
    | with_reducible assumption
    | with_reducible apply State.draw_within (hW.of (by decide))
    | refine State.draw_within_pair (hW.of (by decide)) (by assumption) ?_
    | with_reducible apply State.setTime_within (hW.of (by decide))

theorem holdRate_within (hW : Sub [.free, .time] Ω) (h : Within Ω a s) : Within Ω a (holdRate s) := by
  unfold holdRate
  repeat' first
    | with_reducible assumption
    | with_reducible apply State.setTime_within (hW.of (by decide))
    | with_reducible apply followRef_within (hW.of (by decide))
    | with_reducible refine Within.ite (fun _ => ?_) (fun _ => ?_)
    | split

theorem enterAcquire_within (hW : Sub [.time] Ω) (h : Within Ω a s) : Within Ω a (enterAcquire s) := by
  unfold enterAcquire
  repeat' first
    | with_reducible assumption
    | with_reducible apply State.setTime_within (hW.of (by decide))

theorem enterHoldover_within (hW : Sub [.free, .time] Ω) {cause : Nat} (h : Within Ω a s) : Within Ω a (enterHoldover cause s) := by
  unfold enterHoldover
  extract_lets s1
  have h1 : Within Ω a s1 := by
    unfold s1
    repeat' first
      | with_reducible assumption
      | with_reducible apply State.setTime_within (hW.of (by decide))
  clear_value s1
  repeat' first
    | with_reducible assumption
    | with_reducible apply State.setTime_within (hW.of (by decide))
    | with_reducible apply holdRate_within (hW.of (by decide))
    | with_reducible refine Within.ite (fun _ => ?_) (fun _ => ?_)

theorem referenceLost_within (hW : Sub [.free, .time] Ω) (h : Within Ω a s) : Within Ω a (referenceLost s) := by
  unfold referenceLost
  repeat' first
    | with_reducible assumption
    | with_reducible apply enterHoldover_within (hW.of (by decide))
    | split

theorem stepTo_within (hW : Sub [.bull, .flash, .flc, .hbm, .hif, .mdm, .out, .pmu, .regs, .seed, .time, .ump] Ω) {t' : Nat} (h : Within Ω a s) : Within Ω a (stepTo t' s) := by
  unfold stepTo
  extract_lets v1 s1 v2 s2
  clear_value v1 v2
  have h1 : Within Ω a s1 := by
    unfold s1
    repeat' first
      | with_reducible assumption
      | with_reducible apply beatsStep_within (hW.of (by decide))
      | with_reducible apply radioStep_within (hW.of (by decide))
      | with_reducible apply segmentStep_within (hW.of (by decide))
      | with_reducible apply State.setTime_within (hW.of (by decide))
  clear_value s1
  have h2 : Within Ω a s2 := by
    unfold s2
    repeat' first
      | with_reducible assumption
      | with_reducible apply beatsStep_within (hW.of (by decide))
      | with_reducible apply radioStep_within (hW.of (by decide))
      | with_reducible apply segmentStep_within (hW.of (by decide))
      | with_reducible apply State.setTime_within (hW.of (by decide))
      | with_reducible refine Within.ite (fun _ => ?_) (fun _ => ?_)
  clear_value s2
  repeat' first
    | with_reducible assumption
    | with_reducible apply beatsStep_within (hW.of (by decide))
    | with_reducible apply radioStep_within (hW.of (by decide))
    | with_reducible apply segmentStep_within (hW.of (by decide))

theorem stepBy_within (hW : Sub [.bull, .flash, .flc, .hbm, .hif, .mdm, .out, .pmu, .regs, .seed, .time, .ump] Ω) {d : Int} (h : Within Ω a s) : Within Ω a (stepBy d s) := by
  unfold stepBy
  repeat' first
    | with_reducible assumption
    | with_reducible apply stepTo_within (hW.of (by decide))

theorem refuse_within (hW : Sub [.free, .hif, .out, .regs, .time] Ω) (h : Within Ω a s) : Within Ω a (refuse s) := by
  unfold refuse
  repeat' first
    | with_reducible assumption
    | with_reducible apply raiseFld_within (hW.of (by decide))
    | with_reducible apply enterHoldover_within (hW.of (by decide))

theorem filterOffset_within (hW : Sub [.free, .regs] Ω) (h : Within Ω a s) : Within Ω a (filterOffset s).2 := by
  unfold filterOffset
  repeat' first
    | with_reducible assumption
    | with_reducible apply State.setFld_within (hW.of (by decide))
    | with_reducible apply State.draw_within (hW.of (by decide))

theorem filterOffset_within_pair (hW : Sub [.free, .regs] Ω)  {x0} {t} (e : filterOffset s = (x0, t)) (h : Within Ω a s) : Within Ω a t := by
  have := filterOffset_within (hW.of (by decide))  h; rwa [e] at this

theorem updateAcquire_within (hW : Sub [.bull, .flash, .flc, .free, .hbm, .hif, .mdm, .out, .pmu, .regs, .seed, .time, .ump] Ω) (h : Within Ω a s) : Within Ω a (updateAcquire s) := by
  unfold updateAcquire
  repeat' first
    | with_reducible assumption
    | with_reducible apply State.draw_within (hW.of (by decide))
    | refine State.draw_within_pair (hW.of (by decide)) (by assumption) ?_
    | with_reducible apply State.setTime_within (hW.of (by decide))
    | with_reducible apply stepBy_within (hW.of (by decide))
    | with_reducible apply filterOffset_within (hW.of (by decide))
    | refine filterOffset_within_pair (hW.of (by decide)) (by assumption) ?_
    | with_reducible refine Within.ite (fun _ => ?_) (fun _ => ?_)

theorem updateLocked_within (hW : Sub [.free, .regs, .time] Ω) (h : Within Ω a s) : Within Ω a (updateLocked s) := by
  unfold updateLocked
  repeat' first
    | with_reducible assumption
    | with_reducible apply State.draw_within (hW.of (by decide))
    | refine State.draw_within_pair (hW.of (by decide)) (by assumption) ?_
    | with_reducible apply State.setTime_within (hW.of (by decide))
    | with_reducible apply filterOffset_within (hW.of (by decide))

theorem updateHoldover_within (hW : Sub [.bull, .flash, .flc, .free, .hbm, .hif, .mdm, .out, .pmu, .regs, .seed, .time, .ump] Ω) {off : Int} (h : Within Ω a s) : Within Ω a (updateHoldover off s) := by
  unfold updateHoldover
  extract_lets v1 s1
  clear_value v1
  have h1 : Within Ω a s1 := by
    unfold s1
    repeat' first
      | with_reducible assumption
      | with_reducible apply State.setTime_within (hW.of (by decide))
      | with_reducible apply enterAcquire_within (hW.of (by decide))
      | with_reducible apply stepBy_within (hW.of (by decide))
      | with_reducible apply refuse_within (hW.of (by decide))
      | with_reducible apply filterOffset_within (hW.of (by decide))
  clear_value s1
  repeat' first
    | with_reducible assumption
    | with_reducible apply State.setTime_within (hW.of (by decide))
    | with_reducible apply enterAcquire_within (hW.of (by decide))
    | with_reducible apply stepBy_within (hW.of (by decide))
    | with_reducible apply refuse_within (hW.of (by decide))
    | with_reducible apply filterOffset_within (hW.of (by decide))
    | refine filterOffset_within_pair (hW.of (by decide)) (by assumption) ?_
    | with_reducible refine Within.ite (fun _ => ?_) (fun _ => ?_)

theorem useAuth_within (hW : Sub [.bull, .flash, .flc, .free, .hbm, .hif, .mdm, .out, .pmu, .regs, .seed, .time, .ump] Ω) {a' : StepAuth} {off : Int} (h : Within Ω a s) : Within Ω a (useAuth a' off s) := by
  unfold useAuth
  repeat' first
    | with_reducible assumption
    | with_reducible apply State.setTime_within (hW.of (by decide))
    | with_reducible apply enterAcquire_within (hW.of (by decide))
    | with_reducible apply stepBy_within (hW.of (by decide))
    | with_reducible apply finishWait_within (hW.of (by decide))
    | with_reducible apply refuse_within (hW.of (by decide))
    | with_reducible refine Within.ite (fun _ => ?_) (fun _ => ?_)
    | with_reducible refine Within.foldl ?_ (fun t x ht => ?_)
    | (intro c hc; first | exact hc | (simp; done) | (simpa using hc))
    | extract_lets
    | split
    | dsimp only
    | ((with_reducible refine Within.mk_same rfl ?_ ?_); (intro p hn; cases p <;> first | rfl | exact absurd (hW.use (by decide)) hn))

theorem measure_within (hW : Sub [.bull, .flash, .flc, .free, .hbm, .hif, .mdm, .out, .pmu, .regs, .seed, .time, .ump] Ω) {off : Int} (h : Within Ω a s) : Within Ω a (measure off s) := by
  unfold measure
  repeat' first
    | with_reducible assumption
    | with_reducible apply enterAcquire_within (hW.of (by decide))
    | with_reducible apply stepBy_within (hW.of (by decide))
    | with_reducible apply refuse_within (hW.of (by decide))
    | with_reducible apply filterOffset_within (hW.of (by decide))
    | refine filterOffset_within_pair (hW.of (by decide)) (by assumption) ?_
    | with_reducible apply updateAcquire_within (hW.of (by decide))
    | with_reducible apply updateLocked_within (hW.of (by decide))
    | with_reducible apply updateHoldover_within (hW.of (by decide))
    | with_reducible apply useAuth_within (hW.of (by decide))
    | with_reducible refine Within.ite (fun _ => ?_) (fun _ => ?_)
    | exact fun _ hc => hc
    | split

theorem restartCounts_within (hW : Sub [.time] Ω) (h : Within Ω a s) : Within Ω a (restartCounts s) := by
  unfold restartCounts
  repeat' first
    | with_reducible assumption
    | with_reducible apply State.setTime_within (hW.of (by decide))

theorem servoUpdate_within (hW : Sub [.bull, .flash, .flc, .free, .hbm, .hif, .mdm, .out, .pmu, .regs, .seed, .time, .ump] Ω) {p : Nat} {offset : Int} (h : Within Ω a s) : Within Ω a (servoUpdate p offset s) := by
  unfold servoUpdate
  repeat' first
    | with_reducible assumption
    | with_reducible apply measure_within (hW.of (by decide))
    | with_reducible refine Within.ite (fun _ => ?_) (fun _ => ?_)
    | with_reducible refine Within.foldl ?_ (fun t x ht => ?_)
    | (intro c hc; first | exact hc | (simp; done) | (simpa using hc))
    | extract_lets
    | split
    | dsimp only

theorem execServoUpdate_within (hW : Sub [.bull, .flash, .flc, .free, .hbm, .hif, .mdm, .out, .pmu, .regs, .seed, .time, .ump] Ω) {port : Nat} {offset : Int} (h : Within Ω a s) : WithinOut Ω a (execServoUpdate port offset s) := by
  unfold execServoUpdate
  repeat' first
    | with_reducible assumption
    | with_reducible apply servoUpdate_within (hW.of (by decide))
    | with_reducible apply WithinOut.next

theorem pathStep_within (hW : Sub [.hif, .out, .regs, .time] Ω) (h : Within Ω a s) : Within Ω a (pathStep s) := by
  unfold pathStep
  extract_lets s1
  have h1 : Within Ω a s1 := by
    unfold s1
    repeat' first
      | with_reducible assumption
      | with_reducible apply raiseFld_within (hW.of (by decide))
  clear_value s1
  repeat' first
    | with_reducible assumption
    | with_reducible apply raiseFld_within (hW.of (by decide))
    | with_reducible apply State.setTime_within (hW.of (by decide))
    | with_reducible apply enterAcquire_within (hW.of (by decide))
    | with_reducible refine Within.ite (fun _ => ?_) (fun _ => ?_)
    | extract_lets
    | split

theorem delayExchange_within (hW : Sub [.hif, .out, .regs, .time] Ω) {p : Nat} {delay : Nat} {lost : Bool} (h : Within Ω a s) : Within Ω a (delayExchange p delay lost s) := by
  unfold delayExchange
  extract_lets v1 v2 v3 s1 s2 v4
  clear_value v1 v2 v3 v4
  have h1 : Within Ω a s1 := by
    unfold s1
    repeat' first
      | with_reducible assumption
      | with_reducible apply State.setFld_within (hW.of (by decide))
      | with_reducible apply State.setTime_within (hW.of (by decide))
  clear_value s1
  have h2 : Within Ω a s2 := by
    unfold s2
    repeat' first
      | with_reducible assumption
      | with_reducible apply State.setFld_within (hW.of (by decide))
  clear_value s2
  repeat' first
    | with_reducible assumption
    | with_reducible apply State.setFld_within (hW.of (by decide))
    | with_reducible apply State.setTime_within (hW.of (by decide))
    | with_reducible apply pathStep_within (hW.of (by decide))
    | with_reducible refine Within.ite (fun _ => ?_) (fun _ => ?_)
    | with_reducible refine Within.foldl ?_ (fun t x ht => ?_)
    | extract_lets
    | split

theorem execDelayReqExchange_within (hW : Sub [.hif, .out, .regs, .time] Ω) {port : Nat} {delay : Nat} {lost : Bool} (h : Within Ω a s) : WithinOut Ω a (execDelayReqExchange port delay lost s) := by
  unfold execDelayReqExchange
  repeat' first
    | with_reducible assumption
    | with_reducible apply delayExchange_within (hW.of (by decide))
    | with_reducible apply WithinOut.next

theorem execPathHoldElapsed_within (hW : Sub [.clk, .hbm, .hif, .out, .pmu, .regs, .seed, .time, .txHold, .ump] Ω) (h : Within Ω a s) : WithinOut Ω a (execPathHoldElapsed s) := by
  unfold execPathHoldElapsed
  repeat' first
    | with_reducible assumption
    | with_reducible apply advanceSince_within (hW.of (by decide))
    | with_reducible apply enterAcquire_within (hW.of (by decide))
    | with_reducible refine Within.ite (fun _ => ?_) (fun _ => ?_)
    | with_reducible apply WithinOut.next

theorem reselect_within (hW : Sub [.free, .time] Ω) {was : Option Nat} {wasGm : Option Nat} (h : Within Ω a s) : Within Ω a (reselect was wasGm s) := by
  unfold reselect
  extract_lets v1 v2 v3 s1 s2
  have h1 : Within Ω a s1 := by
    unfold s1
    repeat' first
      | with_reducible assumption
      | with_reducible apply State.setTime_within (hW.of (by decide))
      | with_reducible apply referenceLost_within (hW.of (by decide))
      | with_reducible apply restartCounts_within (hW.of (by decide))
      | with_reducible refine Within.ite (fun _ => ?_) (fun _ => ?_)
      | with_reducible refine Within.foldl ?_ (fun t x ht => ?_)
      | (intro c hc; first | exact hc | (simp; done) | (simpa using hc))
      | extract_lets
      | split
      | dsimp only
      | ((with_reducible refine Within.mk_same rfl ?_ ?_); (intro p hn; cases p <;> first | rfl | exact absurd (hW.use (by decide)) hn))
  clear_value s1
  have h2 : Within Ω a s2 := by
    unfold s2
    repeat' first
      | with_reducible assumption
      | with_reducible apply State.setTime_within (hW.of (by decide))
      | with_reducible apply referenceLost_within (hW.of (by decide))
      | with_reducible apply restartCounts_within (hW.of (by decide))
      | with_reducible refine Within.ite (fun _ => ?_) (fun _ => ?_)
      | with_reducible refine Within.foldl ?_ (fun t x ht => ?_)
      | (intro c hc; first | exact hc | (simp; done) | (simpa using hc))
      | extract_lets
      | split
      | dsimp only
      | ((with_reducible refine Within.mk_same rfl ?_ ?_); (intro p hn; cases p <;> first | rfl | exact absurd (hW.use (by decide)) hn))
  clear_value s2
  repeat' first
    | with_reducible assumption
    | with_reducible apply State.setTime_within (hW.of (by decide))
    | with_reducible apply referenceLost_within (hW.of (by decide))
    | with_reducible apply restartCounts_within (hW.of (by decide))
    | with_reducible refine Within.ite (fun _ => ?_) (fun _ => ?_)
    | with_reducible refine Within.foldl ?_ (fun t x ht => ?_)
    | (intro c hc; first | exact hc | (simp; done) | (simpa using hc))
    | extract_lets
    | split
    | dsimp only
    | ((with_reducible refine Within.mk_same rfl ?_ ?_); (intro p hn; cases p <;> first | rfl | exact absurd (hW.use (by decide)) hn))

theorem announce_within (hW : Sub [.free, .time] Ω) {p : Nat} {a' : Announce} (h : Within Ω a s) : Within Ω a (announce p a' s) := by
  unfold announce
  extract_lets v1 v2
  clear_value v1 v2
  repeat' first
    | with_reducible assumption
    | with_reducible apply State.setTime_within (hW.of (by decide))
    | with_reducible apply reselect_within (hW.of (by decide))
    | with_reducible refine Within.ite (fun _ => ?_) (fun _ => ?_)

theorem execAnnounceReceived_within (hW : Sub [.free, .time] Ω) {port : Nat} {ann : Announce} (h : Within Ω a s) : WithinOut Ω a (execAnnounceReceived port ann s) := by
  unfold execAnnounceReceived
  repeat' first
    | with_reducible assumption
    | with_reducible apply announce_within (hW.of (by decide))
    | with_reducible apply WithinOut.next

theorem announceTimeout_within (hW : Sub [.free, .time] Ω) {p : Nat} (h : Within Ω a s) : Within Ω a (announceTimeout p s) := by
  unfold announceTimeout
  extract_lets v1 v2 s1 s2
  clear_value v1 v2
  have h1 : Within Ω a s1 := by
    unfold s1
    repeat' first
      | with_reducible assumption
      | with_reducible apply State.setTime_within (hW.of (by decide))
  clear_value s1
  have h2 : Within Ω a s2 := by
    unfold s2
    repeat' first
      | with_reducible assumption
      | with_reducible apply State.setTime_within (hW.of (by decide))
      | with_reducible apply referenceLost_within (hW.of (by decide))
      | with_reducible apply restartCounts_within (hW.of (by decide))
      | with_reducible apply reselect_within (hW.of (by decide))
      | with_reducible refine Within.ite (fun _ => ?_) (fun _ => ?_)
  clear_value s2
  repeat' first
    | with_reducible assumption
    | with_reducible apply State.setTime_within (hW.of (by decide))
    | with_reducible apply referenceLost_within (hW.of (by decide))
    | with_reducible apply restartCounts_within (hW.of (by decide))
    | with_reducible apply reselect_within (hW.of (by decide))
    | with_reducible refine Within.ite (fun _ => ?_) (fun _ => ?_)

theorem execAnnounceReceiptTimeout_within (hW : Sub [.free, .time] Ω) {port : Nat} (h : Within Ω a s) : WithinOut Ω a (execAnnounceReceiptTimeout port s) := by
  unfold execAnnounceReceiptTimeout
  repeat' first
    | with_reducible assumption
    | with_reducible apply announceTimeout_within (hW.of (by decide))
    | with_reducible apply WithinOut.next

theorem ptpTransmit_within (hW : Sub [.free, .hif, .net, .out, .pmu, .regs] Ω) {p : Nat} (h : Within Ω a s) : Within Ω a (ptpTransmit p s) := by
  unfold ptpTransmit
  repeat' first
    | with_reducible assumption
    | with_reducible apply svcBack_within (hW.of (by decide))
    | with_reducible apply State.emit_within (hW.of (by decide))
    | with_reducible refine Within.ite (fun _ => ?_) (fun _ => ?_)
    | with_reducible refine Within.foldl ?_ (fun t x ht => ?_)
    | (intro c hc; first | exact hc | (simp; done) | (simpa using hc))
    | extract_lets
    | split
    | dsimp only

theorem execPtpMasterTransmit_within (hW : Sub [.free, .hif, .net, .out, .pmu, .regs] Ω) {port : Nat} (h : Within Ω a s) : WithinOut Ω a (execPtpMasterTransmit port s) := by
  unfold execPtpMasterTransmit
  repeat' first
    | with_reducible assumption
    | with_reducible apply ptpTransmit_within (hW.of (by decide))
    | with_reducible apply WithinOut.next

theorem refWindow_within (hW : Sub [.free, .time] Ω) {ppb : Int} (h : Within Ω a s) : Within Ω a (refWindow ppb s) := by
  unfold refWindow
  extract_lets s1
  have h1 : Within Ω a s1 := by
    unfold s1
    repeat' first
      | with_reducible assumption
      | with_reducible apply State.setTime_within (hW.of (by decide))
  clear_value s1
  repeat' first
    | with_reducible assumption
    | with_reducible apply State.setTime_within (hW.of (by decide))
    | with_reducible apply holdRate_within (hW.of (by decide))
    | with_reducible refine Within.ite (fun _ => ?_) (fun _ => ?_)

theorem execRef10mWindow_within (hW : Sub [.free, .time] Ω) {ppb : Int} (h : Within Ω a s) : WithinOut Ω a (execRef10mWindow ppb s) := by
  unfold execRef10mWindow
  repeat' first
    | with_reducible assumption
    | with_reducible apply refWindow_within (hW.of (by decide))
    | with_reducible apply WithinOut.next

theorem ppsEdge_within (hW : Sub [.bull, .flash, .flc, .free, .hbm, .hif, .mdm, .out, .pmu, .regs, .seed, .time, .ump] Ω) (h : Within Ω a s) : Within Ω a (ppsEdge s) := by
  unfold ppsEdge
  extract_lets v1 v2 s1
  clear_value v1 v2
  have h1 : Within Ω a s1 := by
    unfold s1
    repeat' first
      | with_reducible assumption
      | with_reducible apply State.setTime_within (hW.of (by decide))
  clear_value s1
  repeat' first
    | with_reducible assumption
    | with_reducible apply State.setTime_within (hW.of (by decide))
    | with_reducible apply measure_within (hW.of (by decide))
    | with_reducible refine Within.ite (fun _ => ?_) (fun _ => ?_)

theorem execPpsInEdge_within (hW : Sub [.bull, .flash, .flc, .free, .hbm, .hif, .mdm, .out, .pmu, .regs, .seed, .time, .ump] Ω) (h : Within Ω a s) : WithinOut Ω a (execPpsInEdge s) := by
  unfold execPpsInEdge
  repeat' first
    | with_reducible assumption
    | with_reducible apply ppsEdge_within (hW.of (by decide))
    | with_reducible apply WithinOut.next

theorem ppsLoss_within (hW : Sub [.free, .time] Ω) (h : Within Ω a s) : Within Ω a (ppsLoss s) := by
  unfold ppsLoss
  extract_lets s1
  have h1 : Within Ω a s1 := by
    unfold s1
    repeat' first
      | with_reducible assumption
      | with_reducible apply State.setTime_within (hW.of (by decide))
  clear_value s1
  repeat' first
    | with_reducible assumption
    | with_reducible apply State.setTime_within (hW.of (by decide))
    | with_reducible apply referenceLost_within (hW.of (by decide))
    | with_reducible refine Within.ite (fun _ => ?_) (fun _ => ?_)

theorem execPpsInLoss_within (hW : Sub [.free, .time] Ω) (h : Within Ω a s) : WithinOut Ω a (execPpsInLoss s) := by
  unfold execPpsInLoss
  repeat' first
    | with_reducible assumption
    | with_reducible apply ppsLoss_within (hW.of (by decide))
    | with_reducible apply WithinOut.next

theorem ppsRise_within (hW : Sub [.out, .time] Ω) (h : Within Ω a s) : Within Ω a (ppsRise s) := by
  unfold ppsRise
  repeat' first
    | with_reducible assumption
    | with_reducible apply State.setTime_within (hW.of (by decide))
    | with_reducible apply State.emit_within (hW.of (by decide))
    | with_reducible refine Within.ite (fun _ => ?_) (fun _ => ?_)
    | with_reducible refine Within.foldl ?_ (fun t x ht => ?_)
    | (intro c hc; first | exact hc | (simp; done) | (simpa using hc))
    | extract_lets
    | split
    | dsimp only
    | ((with_reducible refine Within.mk_same rfl ?_ ?_); (intro p hn; cases p <;> first | rfl | exact absurd (hW.use (by decide)) hn))

theorem execPpsOutPulse_within (hW : Sub [.clk, .hbm, .hif, .out, .pmu, .regs, .seed, .time, .txHold, .ump] Ω) (h : Within Ω a s) : WithinOut Ω a (execPpsOutPulse s) := by
  unfold execPpsOutPulse
  repeat' first
    | with_reducible assumption
    | with_reducible apply ppsRise_within (hW.of (by decide))
    | with_reducible apply advanceTo_within (hW.of (by decide))
    | with_reducible refine Within.ite (fun _ => ?_) (fun _ => ?_)
    | with_reducible refine Within.foldl ?_ (fun t x ht => ?_)
    | (intro c hc; first | exact hc | (simp; done) | (simpa using hc))
    | with_reducible apply WithinOut.next
    | extract_lets
    | split
    | dsimp only

theorem timeCtlWritten_within (hW : Sub [.free, .time] Ω) {wasSrc : Nat} {wasRef : Bool} (h : Within Ω a s) : Within Ω a (timeCtlWritten wasSrc wasRef s) := by
  unfold timeCtlWritten
  extract_lets v1 s1
  have h1 : Within Ω a s1 := by
    unfold s1
    repeat' first
      | with_reducible assumption
      | with_reducible apply State.setTime_within (hW.of (by decide))
      | with_reducible apply restartCounts_within (hW.of (by decide))
      | with_reducible apply enterAcquire_within (hW.of (by decide))
      | with_reducible apply holdRate_within (hW.of (by decide))
      | with_reducible refine Within.ite (fun _ => ?_) (fun _ => ?_)
      | with_reducible refine Within.foldl ?_ (fun t x ht => ?_)
      | (intro c hc; first | exact hc | (simp; done) | (simpa using hc))
      | extract_lets
      | split
      | dsimp only
      | ((with_reducible refine Within.mk_same rfl ?_ ?_); (intro p hn; cases p <;> first | rfl | exact absurd (hW.use (by decide)) hn))
  clear_value s1
  repeat' first
    | with_reducible assumption
    | with_reducible apply State.setTime_within (hW.of (by decide))
    | with_reducible apply restartCounts_within (hW.of (by decide))
    | with_reducible apply enterAcquire_within (hW.of (by decide))
    | with_reducible apply holdRate_within (hW.of (by decide))
    | with_reducible refine Within.ite (fun _ => ?_) (fun _ => ?_)
    | with_reducible refine Within.foldl ?_ (fun t x ht => ?_)
    | (intro c hc; first | exact hc | (simp; done) | (simpa using hc))
    | extract_lets
    | split
    | dsimp only
    | ((with_reducible refine Within.mk_same rfl ?_ ?_); (intro p hn; cases p <;> first | rfl | exact absurd (hW.use (by decide)) hn))

theorem execTimeSet_within (hW : Sub [.bull, .core, .flash, .flc, .hbm, .hif, .mdm, .out, .pmu, .regs, .seed, .time, .ump] Ω) {h' : KciHdr} {sec : Nat} {ns : Nat} (h : Within Ω a s) : WithinOut Ω a (execTimeSet h' sec ns s) := by
  unfold execTimeSet
  repeat' first
    | with_reducible assumption
    | with_reducible apply kciFail_within (hW.of (by decide))
    | with_reducible apply kciOk_within (hW.of (by decide))
    | with_reducible refine kci_within (hW.of (by decide)) ?_ (fun t ht => ?_)
    | with_reducible apply stepTo_within (hW.of (by decide))
    | with_reducible refine Within.ite (fun _ => ?_) (fun _ => ?_)
    | with_reducible apply KciRes.within_fail
    | with_reducible apply KciRes.within_ok
    | with_reducible apply WithinOut.next
    | split

theorem execTimeSetRate_within (hW : Sub [.core, .hif, .out, .regs, .time] Ω) {h' : KciHdr} {rate : Int} (h : Within Ω a s) : WithinOut Ω a (execTimeSetRate h' rate s) := by
  unfold execTimeSetRate
  repeat' first
    | with_reducible assumption
    | with_reducible apply kciFail_within (hW.of (by decide))
    | with_reducible apply kciOk_within (hW.of (by decide))
    | with_reducible refine kci_within (hW.of (by decide)) ?_ (fun t ht => ?_)
    | with_reducible apply State.setTime_within (hW.of (by decide))
    | with_reducible refine Within.ite (fun _ => ?_) (fun _ => ?_)
    | with_reducible apply KciRes.within_fail
    | with_reducible apply KciRes.within_ok
    | with_reducible apply WithinOut.next
    | split

theorem execTimeStepAuth_within (hW : Sub [.core, .hif, .out, .regs, .time] Ω) {h' : KciHdr} {limit : Nat} (h : Within Ω a s) : WithinOut Ω a (execTimeStepAuth h' limit s) := by
  unfold execTimeStepAuth
  repeat' first
    | with_reducible assumption
    | with_reducible apply kciFail_within (hW.of (by decide))
    | with_reducible refine kci_within (hW.of (by decide)) ?_ (fun t ht => ?_)
    | with_reducible apply State.setTime_within (hW.of (by decide))
    | with_reducible refine Within.ite (fun _ => ?_) (fun _ => ?_)
    | with_reducible apply KciRes.within_fail
    | with_reducible apply KciRes.within_wait
    | with_reducible apply WithinOut.next
    | split

theorem execTimeConfig_within (hW : Sub [.cfg, .core, .free, .hif, .out, .regs, .time] Ω) {h' : KciHdr} {len : Nat} {cfg : PtpConfig} (h : Within Ω a s) : WithinOut Ω a (execTimeConfig h' len cfg s) := by
  unfold execTimeConfig
  repeat' first
    | with_reducible assumption
    | with_reducible apply kciOk_within (hW.of (by decide))
    | with_reducible refine kci_within (hW.of (by decide)) ?_ (fun t ht => ?_)
    | with_reducible apply State.setTime_within (hW.of (by decide))
    | with_reducible apply reselect_within (hW.of (by decide))
    | with_reducible refine Within.ite (fun _ => ?_) (fun _ => ?_)
    | with_reducible apply KciRes.within_ok
    | with_reducible apply WithinOut.next
    | extract_lets
    | split

theorem execPorstNAssert_within (hW : Sub [.bull, .cfg, .clu, .core, .flc, .gh, .glb, .graphs, .hbm, .hbmBad, .hif, .kml, .madi, .mdm, .mq, .net, .pack, .peers, .pmu, .regs, .rfp, .scout, .seed, .time, .txHold, .ump] Ω) {bootSel : Bool} {tjBelow110 : Bool} (h : Within Ω a s) : WithinOut Ω a (execPorstNAssert bootSel tjBelow110 s) := by
  unfold execPorstNAssert
  repeat' first
    | with_reducible assumption
    | with_reducible apply coldReset_within (hW.of (by decide))
    | with_reducible apply WithinOut.next

theorem sysReset_within (hW : Sub [.bull, .cfg, .clu, .core, .flc, .gh, .glb, .graphs, .hbm, .hbmBad, .hif, .kml, .madi, .mdm, .mq, .net, .out, .pack, .peers, .pmu, .regs, .rfp, .scout, .seed, .time, .txHold, .ump] Ω) {bootSel : Bool} (h : Within Ω a s) : Within Ω a (sysReset bootSel s) := by
  unfold sysReset
  extract_lets v1
  repeat' first
    | with_reducible assumption
    | with_reducible apply warmReset_within (hW.of (by decide))
    | with_reducible refine Within.ite (fun _ => ?_) (fun _ => ?_)
    | refine Within.glb (hW.of (by decide)) ?_ (le_refl _) (fun _ x => x)

theorem execSysrstNAssert_within (hW : Sub [.bull, .cfg, .clu, .core, .flc, .gh, .glb, .graphs, .hbm, .hbmBad, .hif, .kml, .madi, .mdm, .mq, .net, .out, .pack, .peers, .pmu, .regs, .rfp, .scout, .seed, .time, .txHold, .ump] Ω) {bootSel : Bool} (h : Within Ω a s) : WithinOut Ω a (execSysrstNAssert bootSel s) := by
  unfold execSysrstNAssert
  repeat' first
    | with_reducible assumption
    | with_reducible apply sysReset_within (hW.of (by decide))
    | with_reducible apply WithinOut.next

theorem glbRstWritten_within (hW : Sub [.bull, .cfg, .clu, .core, .flc, .gh, .glb, .graphs, .hbm, .hbmBad, .hif, .kml, .madi, .mdm, .mq, .net, .out, .pack, .peers, .pmu, .regs, .rfp, .scout, .seed, .time, .txHold, .ump] Ω) {val : Word} (h : Within Ω a s) : Within Ω a (glbRstWritten val s) := by
  unfold glbRstWritten
  repeat' first
    | with_reducible assumption
    | with_reducible apply warmReset_within (hW.of (by decide))
    | with_reducible refine Within.ite (fun _ => ?_) (fun _ => ?_)

theorem execGlbRstSysWrite_within (hW : Sub [.bull, .cfg, .clu, .core, .flc, .gh, .glb, .graphs, .hbm, .hbmBad, .hif, .kml, .madi, .mdm, .mq, .net, .out, .pack, .peers, .pmu, .regs, .rfp, .scout, .seed, .time, .txHold, .ump] Ω) {_path : BusPath} {val : Word} (h : Within Ω a s) : WithinOut Ω a (execGlbRstSysWrite _path val s) := by
  unfold execGlbRstSysWrite
  repeat' first
    | with_reducible assumption
    | with_reducible apply glbRstWritten_within (hW.of (by decide))
    | with_reducible apply WithinOut.next

theorem aonLost_within (hW : Sub [.bull, .cfg, .clu, .core, .flc, .gh, .glb, .graphs, .hbm, .hbmBad, .hif, .kml, .madi, .mdm, .mq, .net, .pack, .peers, .pmu, .regs, .rfp, .scout, .seed, .time, .txHold, .ump] Ω) (h : Within Ω a s) : Within Ω a (aonLost s) := by
  unfold aonLost
  extract_lets s1
  have h1 : Within Ω a s1 := by
    unfold s1
    repeat' first
      | with_reducible assumption
      | with_reducible apply coldReset_within (hW.of (by decide))
  clear_value s1
  repeat' first
    | with_reducible assumption
    | with_reducible apply coldReset_within (hW.of (by decide))
    | extract_lets
    | dsimp only
    | ((with_reducible refine Within.mk_same rfl ?_ ?_); (intro p hn; cases p <;> first | rfl | exact absurd (hW.use (by decide)) hn))

theorem execVddAonRemoval_within (hW : Sub [.bull, .cfg, .clu, .core, .flc, .gh, .glb, .graphs, .hbm, .hbmBad, .hif, .kml, .madi, .mdm, .mq, .net, .pack, .peers, .pmu, .regs, .rfp, .scout, .seed, .time, .txHold, .ump] Ω) (h : Within Ω a s) : WithinOut Ω a (execVddAonRemoval s) := by
  unfold execVddAonRemoval
  repeat' first
    | with_reducible assumption
    | with_reducible apply aonLost_within (hW.of (by decide))
    | with_reducible apply WithinOut.next

theorem bootFrom_within (hW : Sub [.glb, .regs] Ω) {pushed : Bool} {x : BootImage} (h : Within Ω a s) : Within Ω a (bootFrom pushed x s) := by
  unfold bootFrom
  extract_lets s1 s2 s3 v1
  have h1 : Within Ω a s1 := by
    unfold s1
    repeat' first
      | with_reducible assumption
      | with_reducible apply State.setFld_within (hW.of (by decide))
  clear_value s1
  have h2 : Within Ω a s2 := by
    unfold s2
    repeat' first
      | with_reducible assumption
      | with_reducible apply State.setFld_within (hW.of (by decide))
  clear_value s2
  have h3 : Within Ω a s3 := by
    unfold s3
    repeat' first
      | with_reducible assumption
      | with_reducible apply State.setFld_within (hW.of (by decide))
      | with_reducible refine Within.ite (fun _ => ?_) (fun _ => ?_)
  clear_value s3
  repeat' first
    | with_reducible assumption
    | with_reducible apply State.setFld_within (hW.of (by decide))
    | with_reducible refine Within.ite (fun _ => ?_) (fun _ => ?_)
    | refine Within.glb (hW.of (by decide)) ?_ (le_refl _) (fun _ x => x)

theorem bootFails_within (hW : Sub [.glb, .regs] Ω) {code : Nat} (h : Within Ω a s) : Within Ω a (bootFails code s) := by
  unfold bootFails
  extract_lets s1 v1
  have h1 : Within Ω a s1 := by
    unfold s1
    repeat' first
      | with_reducible assumption
      | with_reducible apply State.setFld_within (hW.of (by decide))
  clear_value s1
  repeat' first
    | with_reducible assumption
    | with_reducible apply State.setFld_within (hW.of (by decide))
    | refine Within.glb (hW.of (by decide)) ?_ (le_refl _) (fun _ x => x)

theorem imageLoaded_within (hW : Sub [.glb, .regs] Ω) {copy0 : BootImage} {copy1 : BootImage} (h : Within Ω a s) : Within Ω a (imageLoaded copy0 copy1 s) := by
  unfold imageLoaded
  repeat' first
    | with_reducible assumption
    | with_reducible apply State.setFld_within (hW.of (by decide))
    | with_reducible apply bootFrom_within (hW.of (by decide))
    | with_reducible apply bootFails_within (hW.of (by decide))
    | with_reducible refine Within.ite (fun _ => ?_) (fun _ => ?_)
    | split

theorem pushImage_within (hW : Sub [.glb, .regs] Ω) {x : BootImage} (h : Within Ω a s) : Within Ω a (pushImage x s) := by
  unfold pushImage
  extract_lets v1
  repeat' first
    | with_reducible assumption
    | with_reducible apply State.setFld_within (hW.of (by decide))
    | with_reducible refine Within.ite (fun _ => ?_) (fun _ => ?_)
    | refine Within.glb (hW.of (by decide)) ?_ (le_refl _) (fun _ x => x)

theorem execHifBootPushGo_within (hW : Sub [.glb, .regs] Ω) {_path : BusPath} {val : Word} {img : BootImage} (h : Within Ω a s) : WithinOut Ω a (execHifBootPushGo _path val img s) := by
  unfold execHifBootPushGo
  repeat' first
    | with_reducible assumption
    | with_reducible apply pushImage_within (hW.of (by decide))
    | with_reducible refine Within.ite (fun _ => ?_) (fun _ => ?_)
    | with_reducible apply WithinOut.next

theorem hbmImage_within (hW : Sub [.free] Ω) (h : Within Ω a s) : Within Ω a (hbmImage s).2 := by
  unfold hbmImage
  extract_lets v1 v2
  clear_value v1 v2
  repeat' first
    | with_reducible assumption
    | with_reducible apply State.draw_within (hW.of (by decide))

theorem hbmImage_within_pair (hW : Sub [.free] Ω)  {x0} {t} (e : hbmImage s = (x0, t)) (h : Within Ω a s) : Within Ω a t := by
  have := hbmImage_within (hW.of (by decide))  h; rwa [e] at this

theorem bootPushWritten_within (hW : Sub [.free, .glb, .regs] Ω) {val : Word} (h : Within Ω a s) : Within Ω a (bootPushWritten val s) := by
  unfold bootPushWritten
  extract_lets v1
  repeat' first
    | with_reducible assumption
    | with_reducible apply pushImage_within (hW.of (by decide))
    | with_reducible apply hbmImage_within (hW.of (by decide))
    | refine hbmImage_within_pair (hW.of (by decide)) (by assumption) ?_
    | with_reducible refine Within.ite (fun _ => ?_) (fun _ => ?_)

theorem nextStep_within (hW : Sub [.glb, .regs] Ω) {hbmOk : Bool} {refs : Nat} {copy0 copy1 : BootImage} (h : Within Ω a s) : Within Ω a (nextStep hbmOk refs copy0 copy1 s) := by
  unfold nextStep
  split
  · exact State.setFld_within (hW.of (by decide)) (State.setFld_within (hW.of (by decide)) (State.setFld_within (hW.of (by decide)) h))
  · exact State.setFld_within (hW.of (by decide)) (State.setFld_within (hW.of (by decide)) h)
  · exact State.setFld_within (hW.of (by decide)) (State.setFld_within (hW.of (by decide)) (Within.glb (hW.of (by decide)) h (le_refl _) (fun _ x => x)))
  · exact Within.ite (fun _ => h) (fun _ => Within.ite (fun _ => State.setFld_within (hW.of (by decide)) h) (fun _ => State.setFld_within (hW.of (by decide)) h))
  · exact imageLoaded_within (hW.of (by decide)) h
  · exact Within.ite (fun _ => h) (fun _ => State.setFld_within (hW.of (by decide)) (Within.glb (hW.of (by decide)) (State.setFld_within (hW.of (by decide)) h) (le_refl _) (fun _ x => x)))
  · exact h

theorem bringup_within (hW : Sub [.glb, .regs] Ω) {hbmOk : Bool} {refs : Nat} {copy0 : BootImage} {copy1 : BootImage} (h : Within Ω a s) : Within Ω a (bringup hbmOk refs copy0 copy1 s) := by
  unfold bringup
  repeat' first
    | with_reducible assumption
    | with_reducible apply nextStep_within (hW.of (by decide))
    | with_reducible refine Within.ite (fun _ => ?_) (fun _ => ?_)

theorem execBringupStepComplete_within (hW : Sub [.glb, .regs] Ω) {hbmOk : Bool} {refs : Nat} {copy0 : BootImage} {copy1 : BootImage} (h : Within Ω a s) : WithinOut Ω a (execBringupStepComplete hbmOk refs copy0 copy1 s) := by
  unfold execBringupStepComplete
  repeat' first
    | with_reducible assumption
    | with_reducible apply bringup_within (hW.of (by decide))
    | with_reducible apply WithinOut.next

theorem pllLocked_within (hW : Sub [.glb, .regs] Ω) {pll : Nat} (h : Within Ω a s) : Within Ω a (pllLocked pll s) := by
  unfold pllLocked
  extract_lets v1
  repeat' first
    | with_reducible assumption
    | with_reducible apply State.setFld_within (hW.of (by decide))
    | with_reducible refine Within.ite (fun _ => ?_) (fun _ => ?_)
    | refine Within.glb (hW.of (by decide)) ?_ (le_refl _) (fun _ x => x)

theorem execPllLock_within (hW : Sub [.glb, .regs] Ω) {pll : Nat} (h : Within Ω a s) : WithinOut Ω a (execPllLock pll s) := by
  unfold execPllLock
  repeat' first
    | with_reducible assumption
    | with_reducible apply pllLocked_within (hW.of (by decide))
    | with_reducible apply WithinOut.next

theorem execSysFuseRollback_within (hW : Sub [.core, .glb, .hif, .out, .regs] Ω) {hd : KciHdr} (h : Within Ω a s) : WithinOut Ω a (execSysFuseRollback hd s) := by
  refine WithinOut.next (kci_within (hW.of (by decide)) h fun t ht => ?_)
  split
  next x _ =>
    split
    · exact KciRes.within_fail ht
    next hlt => exact KciRes.within_ok (Within.glb (hW.of (by decide)) ht (Nat.le_of_lt (Nat.lt_of_not_le hlt)) (fun _ x => x))
  · exact KciRes.within_fail ht

theorem execSysFuseRevoke_within (hW : Sub [.core, .glb, .hif, .out, .regs] Ω) {hd : KciHdr} {slot : Nat} (h : Within Ω a s) : WithinOut Ω a (execSysFuseRevoke hd slot s) := by
  refine WithinOut.next (kci_within (hW.of (by decide)) h fun t ht => ?_)
  dsimp only
  split
  · exact KciRes.within_fail ht
  · refine KciRes.within_ok (Within.glb (hW.of (by decide)) ht (le_refl _) (fun n hn => ?_))
    rw [mapFind?_insert]
    split
    · rfl
    · exact hn

theorem applyRec_within (hW : Sub [.core] Ω) {checks : List Check} {f : State → KciRes} (h : Within Ω a s) (hf : ∀ t, Within Ω a t → (f t).Ins Ω a) :
    LoadWithin Ω a (applyRec checks f s) := by
  unfold applyRec
  split
  · exact LoadWithin.inl
  have hk := hf s h
  split <;> rename_i heq <;> rw [heq] at hk
  · split
    · exact LoadWithin.inr hk
    · exact LoadWithin.inl
  · exact LoadWithin.inr hk
  · exact LoadWithin.inr hk

theorem applyAll_within (hW : Sub [] Ω) {α : Type} {f : α → State → LoadRes} {l : List α} (h : Within Ω a s) (hf : ∀ x t, Within Ω a t → LoadWithin Ω a (f x t)) :
    LoadWithin Ω a (applyAll f l s) := by
  induction l generalizing s with
  | nil => exact LoadWithin.inr h
  | cons x t ih =>
    unfold applyAll
    have hk := hf x s h
    split <;> rename_i heq <;> rw [heq] at hk
    · exact LoadWithin.inl
    · exact ih (hk _ rfl)

theorem andThen_within (hW : Sub [] Ω) {r : LoadRes} {f : State → LoadRes} (h : LoadWithin Ω a r) (hf : ∀ t, Within Ω a t → LoadWithin Ω a (f t)) :
    LoadWithin Ω a (andThen r f) := by
  unfold andThen
  split
  · exact LoadWithin.inl
  · exact hf _ (h _ rfl)

theorem writeRange_within (hW : Sub [.clu] Ω) {shared : Bool} {x : GraphBytes} (h : Within Ω a s) : Within Ω a (writeRange shared x s) :=
  Within.foldl h fun t n ht => Within.updClu (hW.of (by decide)) ht fun c hc => by
    try dsimp only
    split
    · exact ⟨hc.1, memWriteList_wf _ hc.2 _⟩
    · exact ⟨memWriteList_wf _ hc.1 _, hc.2⟩

theorem loadRange_within (hW : Sub [.clu] Ω) {shared : Bool} {g : Nat} {x : GraphBytes} (h : Within Ω a s) : LoadWithin Ω a (loadRange shared g x s) := by
  unfold loadRange
  repeat' first
    | with_reducible assumption
    | with_reducible apply writeRange_within (hW.of (by decide))
    | with_reducible refine Within.ite (fun _ => ?_) (fun _ => ?_)
    | exact LoadWithin.inl
    | with_reducible apply LoadWithin.inr
    | with_reducible refine andThen_within (hW.of (by decide)) ?_ (fun t ht => ?_)
    | with_reducible refine applyRec_within (hW.of (by decide)) ?_ (fun t ht => ?_)
    | split

theorem State.updGraph_within (hW : Sub [.graphs] Ω) {g : Nat} {f : Graph → Graph} (h : Within Ω a s) : Within Ω a (State.updGraph s g f) := by
  unfold State.updGraph
  repeat' first
    | with_reducible assumption
    | dsimp only
    | ((with_reducible refine Within.mk_same rfl ?_ ?_); (intro p hn; cases p <;> first | rfl | exact absurd (hW.use (by decide)) hn))

theorem loadAccount_within (hW : Sub [.core, .graphs, .seed] Ω) {g : Nat} {o : AccountOp} (h : Within Ω a s) : LoadWithin Ω a (loadAccount g o s) := by
  unfold loadAccount
  repeat' first
    | with_reducible assumption
    | with_reducible apply openAccount_within (hW.of (by decide))
    | with_reducible apply State.updGraph_within (hW.of (by decide))
    | with_reducible refine Within.ite (fun _ => ?_) (fun _ => ?_)
    | exact LoadWithin.inl
    | with_reducible apply LoadWithin.inr
    | with_reducible refine andThen_within (hW.of (by decide)) ?_ (fun t ht => ?_)
    | with_reducible refine applyRec_within (hW.of (by decide)) ?_ (fun t ht => ?_)

theorem loadQueue_within (hW : Sub [.core, .graphs, .mq] Ω) {g : Nat} {o : QueueOp} (h : Within Ω a s) : LoadWithin Ω a (loadQueue g o s) := by
  unfold loadQueue
  repeat' first
    | with_reducible assumption
    | with_reducible apply openQueue_within (hW.of (by decide))
    | with_reducible apply State.updGraph_within (hW.of (by decide))
    | exact LoadWithin.inl
    | with_reducible apply LoadWithin.inr
    | with_reducible refine andThen_within (hW.of (by decide)) ?_ (fun t ht => ?_)
    | with_reducible refine applyRec_within (hW.of (by decide)) ?_ (fun t ht => ?_)

theorem loadContext_within (hW : Sub [.hbm] Ω) {x : GraphCtx} (h : Within Ω a s) : LoadWithin Ω a (loadContext x s) := by
  unfold loadContext
  repeat' first
    | with_reducible assumption
    | with_reducible apply State.hbmWrite_within (hW.of (by decide))
    | with_reducible refine Within.ite (fun _ => ?_) (fun _ => ?_)
    | exact LoadWithin.inl
    | with_reducible apply LoadWithin.inr
    | with_reducible refine andThen_within (hW.of (by decide)) ?_ (fun t ht => ?_)
    | with_reducible refine applyRec_within (hW.of (by decide)) ?_ (fun t ht => ?_)
    | split

theorem loadNodeRec_within (hW : Sub [.bull, .core, .graphs] Ω) {g : Nat} {o : NodeOp} (h : Within Ω a s) : LoadWithin Ω a (loadNodeRec g o s) := by
  unfold loadNodeRec
  repeat' first
    | with_reducible assumption
    | with_reducible apply State.setNode_within (hW.of (by decide))
    | with_reducible apply kciFail_within (hW.of (by decide))
    | with_reducible apply kciOk_within (hW.of (by decide))
    | with_reducible apply State.updGraph_within (hW.of (by decide))
    | with_reducible refine Within.ite (fun _ => ?_) (fun _ => ?_)
    | with_reducible apply KciRes.within_fail
    | with_reducible apply KciRes.within_ok
    | exact LoadWithin.inl
    | with_reducible apply LoadWithin.inr
    | with_reducible refine andThen_within (hW.of (by decide)) ?_ (fun t ht => ?_)
    | with_reducible refine applyRec_within (hW.of (by decide)) ?_ (fun t ht => ?_)
    | exact fun _ hc => hc
    | extract_lets
    | split

theorem loadMember_within (hW : Sub [.bull, .core] Ω) {m : Nat × Nat} (h : Within Ω a s) : LoadWithin Ω a (loadMember m s) := by
  unfold loadMember
  repeat' first
    | with_reducible assumption
    | with_reducible apply kciFail_within (hW.of (by decide))
    | with_reducible apply joinBeat_within (hW.of (by decide))
    | with_reducible refine Within.ite (fun _ => ?_) (fun _ => ?_)
    | with_reducible apply KciRes.within_fail
    | exact LoadWithin.inl
    | with_reducible apply LoadWithin.inr
    | with_reducible refine andThen_within (hW.of (by decide)) ?_ (fun t ht => ?_)
    | with_reducible refine applyRec_within (hW.of (by decide)) ?_ (fun t ht => ?_)
    | split

theorem loadBeat_within (hW : Sub [.bull, .core] Ω) {o : BeatOp} (h : Within Ω a s) : LoadWithin Ω a (loadBeat o s) := by
  unfold loadBeat
  repeat' first
    | with_reducible assumption
    | with_reducible apply kciFail_within (hW.of (by decide))
    | with_reducible apply kciOk_within (hW.of (by decide))
    | with_reducible apply setBeat_within (hW.of (by decide))
    | with_reducible refine Within.ite (fun _ => ?_) (fun _ => ?_)
    | with_reducible apply KciRes.within_fail
    | with_reducible apply KciRes.within_ok
    | exact LoadWithin.inl
    | with_reducible apply LoadWithin.inr
    | with_reducible refine andThen_within (hW.of (by decide)) ?_ (fun t ht => ?_)
    | with_reducible refine applyRec_within (hW.of (by decide)) ?_ (fun t ht => ?_)
    | split

theorem loadArm_within (hW : Sub [.bull, .clk, .clu, .core, .gh, .hbm, .hif, .kml, .out, .pmu, .regs, .seed, .time, .txHold, .ump] Ω) {n : Nat} (h : Within Ω a s) : LoadWithin Ω a (loadArm n s) := by
  unfold loadArm
  repeat' first
    | with_reducible assumption
    | with_reducible apply armNode_within (hW.of (by decide))
    | refine armNode_within_some (hW.of (by decide)) (by assumption) ?_
    | with_reducible apply kciFail_within (hW.of (by decide))
    | with_reducible apply kciOk_within (hW.of (by decide))
    | with_reducible refine Within.ite (fun _ => ?_) (fun _ => ?_)
    | with_reducible apply KciRes.within_fail
    | with_reducible apply KciRes.within_ok
    | exact LoadWithin.inl
    | with_reducible apply LoadWithin.inr
    | with_reducible refine andThen_within (hW.of (by decide)) ?_ (fun t ht => ?_)
    | with_reducible refine applyRec_within (hW.of (by decide)) ?_ (fun t ht => ?_)
    | split

theorem applyImage_within (hW : Sub [.bull, .clk, .clu, .core, .gh, .graphs, .hbm, .hif, .kml, .mq, .out, .pmu, .regs, .seed, .time, .txHold, .ump] Ω) {g : Nat} {x : GraphImage} (h : Within Ω a s) : LoadWithin Ω a (applyImage g x s) := by
  unfold applyImage
  repeat' first
    | with_reducible assumption
    | with_reducible refine applyAll_within (hW.of (by decide)) ?_ (fun x t ht => ?_)
    | with_reducible apply loadRange_within (hW.of (by decide))
    | with_reducible apply loadAccount_within (hW.of (by decide))
    | with_reducible apply loadQueue_within (hW.of (by decide))
    | with_reducible apply loadContext_within (hW.of (by decide))
    | with_reducible apply loadNodeRec_within (hW.of (by decide))
    | with_reducible apply loadMember_within (hW.of (by decide))
    | with_reducible apply loadBeat_within (hW.of (by decide))
    | with_reducible apply loadArm_within (hW.of (by decide))
    | exact LoadWithin.inl
    | with_reducible apply LoadWithin.inr
    | with_reducible refine andThen_within (hW.of (by decide)) ?_ (fun t ht => ?_)
    | with_reducible refine applyRec_within (hW.of (by decide)) ?_ (fun t ht => ?_)
    | extract_lets
    | dsimp only
    | intro t ht
    | ((with_reducible refine Within.mk_same rfl ?_ ?_); (intro p hn; cases p <;> first | rfl | exact absurd (hW.use (by decide)) hn))

theorem graphFault_within (hW : Sub [.free, .hbm, .hif, .out, .regs, .ump] Ω) (h : Within Ω a s) : (graphFault s).Ins Ω a := by
  unfold graphFault
  repeat' first
    | with_reducible assumption
    | refine State.draw_within_pair (hW.of (by decide)) (by assumption) ?_
    | with_reducible apply State.draw_within (hW.of (by decide))
    | with_reducible apply kciFail_within (hW.of (by decide))
    | with_reducible apply umpEvent_within (hW.of (by decide))
    | with_reducible refine Within.ite (fun _ => ?_) (fun _ => ?_)
    | with_reducible refine Within.foldl ?_ (fun t x ht => ?_)
    | (intro c hc; first | exact hc | (simp; done) | (simpa using hc))
    | with_reducible apply KciRes.within_fail
    | with_reducible apply KciRes.within_ok
    | with_reducible apply KciRes.within_done
    | with_reducible apply KciRes.within_wait
    | with_reducible apply KciRes.within_record
    | extract_lets
    | split
    | dsimp only
    | ((with_reducible refine Within.mk_same rfl ?_ ?_); (intro p hn; cases p <;> first | rfl | exact absurd (hW.use (by decide)) hn))

theorem execGraphLoad_within (hW : Sub [.bull, .clk, .clu, .core, .free, .gh, .graphs, .hbm, .hif, .kml, .mq, .out, .pmu, .regs, .seed, .time, .txHold, .ump] Ω) {hd : KciHdr} {graph addr len : Nat} {img : GraphImage} (h : Within Ω a s) :
    WithinOut Ω a (execGraphLoad hd graph addr len img s) := by
  refine WithinOut.next (kci_within (hW.of (by decide)) h fun t ht => ?_)
  split
  · exact ht
  split
  · exact ht
  · next e =>
    split
    · exact applyImage_within (hW.of (by decide)) ht _ e
    · exact graphFault_within (hW.of (by decide)) ht

theorem execGraphUnload_within (hW : Sub [.bull, .cfg, .clk, .clu, .core, .free, .gh, .graphs, .hbm, .hif, .kml, .mq, .out, .pmu, .regs, .seed, .time, .txHold, .ump] Ω) {h' : KciHdr} {graph : Nat} (h : Within Ω a s) : WithinOut Ω a (execGraphUnload h' graph s) := by
  unfold execGraphUnload
  repeat' first
    | with_reducible assumption
    | with_reducible apply graphStep_within (hW.of (by decide))
    | with_reducible apply cancelNode_within (hW.of (by decide))
    | with_reducible apply kciFail_within (hW.of (by decide))
    | with_reducible apply kciOk_within (hW.of (by decide))
    | with_reducible refine kci_within (hW.of (by decide)) ?_ (fun t ht => ?_)
    | with_reducible apply State.updGraph_within (hW.of (by decide))
    | with_reducible refine Within.ite (fun _ => ?_) (fun _ => ?_)
    | with_reducible refine Within.foldl ?_ (fun t x ht => ?_)
    | with_reducible apply KciRes.within_fail
    | with_reducible apply KciRes.within_ok
    | with_reducible apply KciRes.within_wait
    | with_reducible apply WithinOut.next
    | exact fun _ hc => hc
    | extract_lets
    | split

theorem execGraphReload_within (hW : Sub [.clu, .core, .free, .hbm, .hif, .out, .regs, .ump] Ω) {h' : KciHdr} {graph : Nat} {addr : Nat} {len : Nat} {img : GraphImage} (h : Within Ω a s) : WithinOut Ω a (execGraphReload h' graph addr len img s) := by
  unfold execGraphReload
  repeat' first
    | with_reducible assumption
    | with_reducible apply kci_within (hW.of (by decide))
    | with_reducible apply kciFail_within (hW.of (by decide))
    | with_reducible apply graphFault_within (hW.of (by decide))
    | with_reducible apply kciOk_within (hW.of (by decide))
    | with_reducible apply writeRange_within (hW.of (by decide))
    | with_reducible refine Within.ite (fun _ => ?_) (fun _ => ?_)
    | with_reducible refine Within.foldl ?_ (fun t x ht => ?_)
    | (intro c hc; first | exact hc | (simp; done) | (simpa using hc))
    | with_reducible apply WithinOut.next
    | with_reducible refine kci_within (hW.of (by decide)) ?_ (fun t ht => ?_)
    | with_reducible apply KciRes.within_fail
    | with_reducible apply KciRes.within_ok
    | with_reducible apply KciRes.within_done
    | with_reducible apply KciRes.within_wait
    | with_reducible apply KciRes.within_record
    | intro t ht
    | extract_lets
    | split
    | dsimp only
    | ((with_reducible refine Within.mk_same rfl ?_ ?_); (intro p hn; cases p <;> first | rfl | exact absurd (hW.use (by decide)) hn))

theorem badAccess_within (hW : Sub [.hif, .out, .regs] Ω) {kind : Nat} {path : BusPath} {a' : Nat} (h : Within Ω a s) : Within Ω a (badAccess kind path a' s) := by
  unfold badAccess
  extract_lets s1 s2
  have h1 : Within Ω a s1 := by
    unfold s1
    repeat' first
      | with_reducible assumption
      | with_reducible apply State.setFld_within (hW.of (by decide))
      | with_reducible apply State.bump_within (hW.of (by decide))
  clear_value s1
  have h2 : Within Ω a s2 := by
    unfold s2
    repeat' first
      | with_reducible assumption
      | with_reducible apply State.setFld_within (hW.of (by decide))
      | with_reducible apply State.bump_within (hW.of (by decide))
      | with_reducible apply raiseFld_within (hW.of (by decide))
      | with_reducible refine Within.ite (fun _ => ?_) (fun _ => ?_)
  clear_value s2
  repeat' first
    | with_reducible assumption
    | with_reducible apply State.setFld_within (hW.of (by decide))
    | with_reducible apply State.bump_within (hW.of (by decide))
    | with_reducible apply raiseFld_within (hW.of (by decide))

theorem writeIrqs_within (hW : Sub [.hif, .out] Ω) {a' : Nat} {old : State} (h : Within Ω a s) : Within Ω a (writeIrqs a' old s) := by
  unfold writeIrqs
  extract_lets v1 s1
  clear_value v1
  have h1 : Within Ω a s1 := by
    unfold s1
    repeat' first
      | with_reducible assumption
      | with_reducible apply sendMsi_within (hW.of (by decide))
      | with_reducible refine Within.ite (fun _ => ?_) (fun _ => ?_)
      | with_reducible refine Within.foldl ?_ (fun t x ht => ?_)
  clear_value s1
  repeat' first
    | with_reducible assumption
    | with_reducible apply sendMsi_within (hW.of (by decide))
    | with_reducible refine Within.ite (fun _ => ?_) (fun _ => ?_)
    | with_reducible refine Within.foldl ?_ (fun t x ht => ?_)
    | extract_lets
    | split

theorem pmuWritten_within (hW : Sub [.hif, .out, .pmu, .regs] Ω) {set : Nat} {o : Nat} {val : Word} (h : Within Ω a s) : Within Ω a (pmuWritten set o val s) := by
  unfold pmuWritten
  extract_lets v1 v2
  clear_value v1 v2
  repeat' first
    | with_reducible assumption
    | with_reducible apply pmuSync_within (hW.of (by decide))
    | with_reducible refine Within.ite (fun _ => ?_) (fun _ => ?_)
    | extract_lets
    | split
    | dsimp only
    | ((with_reducible refine Within.mk_same rfl ?_ ?_); (intro p hn; cases p <;> first | rfl | exact absurd (hW.use (by decide)) hn))

theorem scoutCtlWritten_within (hW : Sub [.scout] Ω) {k : Nat} {was : Bool} {rel : Bool} (h : Within Ω a s) : Within Ω a (scoutCtlWritten k was rel s) := by
  unfold scoutCtlWritten
  extract_lets v1 v2 v3 v4 v5
  clear_value v1 v2 v3 v4 v5
  repeat' first
    | with_reducible assumption
    | with_reducible refine Within.ite (fun _ => ?_) (fun _ => ?_)
    | extract_lets
    | split
    | dsimp only
    | ((with_reducible refine Within.mk_same rfl ?_ ?_); (intro p hn; cases p <;> first | rfl | exact absurd (hW.use (by decide)) hn))

theorem coreRegWritten_within (hW : Sub [.clk, .clu, .core, .gh, .hbm, .hif, .out, .pmu, .regs, .scout, .seed, .time, .txHold, .ump] Ω) {k : Nat} {o : Nat} {val : Word} {old : State} (h : Within Ω a s) : Within Ω a (coreRegWritten k o val old s) := by
  unfold coreRegWritten
  extract_lets v1
  clear_value v1
  repeat' first
    | with_reducible assumption
    | with_reducible apply State.setFld_within (hW.of (by decide))
    | with_reducible apply limitWritten_within (hW.of (by decide))
    | with_reducible apply sparesWritten_within (hW.of (by decide))
    | with_reducible apply homeWritten_within (hW.of (by decide))
    | with_reducible apply scoutCtlWritten_within (hW.of (by decide))
    | with_reducible refine Within.ite (fun _ => ?_) (fun _ => ?_)
    | split
    | dsimp only
    | ((with_reducible refine Within.mk_same rfl ?_ ?_); (intro p hn; cases p <;> first | rfl | exact absurd (hW.use (by decide)) hn))

theorem rfpRegWritten_within (hW : Sub [.cfg, .hif, .mdm, .out, .regs, .rfp] Ω) {p : Nat} {o : Nat} {val : Word} {old : State} (h : Within Ω a s) : Within Ω a (rfpRegWritten p o val old s) := by
  unfold rfpRegWritten
  extract_lets s1
  have h1 : Within Ω a s1 := by
    unfold s1
    repeat' first
      | with_reducible assumption
      | with_reducible apply rfpCtlWritten_within (hW.of (by decide))
  clear_value s1
  repeat' first
    | with_reducible assumption
    | with_reducible apply rfpCtlWritten_within (hW.of (by decide))
    | with_reducible apply dcbClear_within (hW.of (by decide))
    | with_reducible apply closeBlock_within (hW.of (by decide))
    | with_reducible refine Within.ite (fun _ => ?_) (fun _ => ?_)
    | extract_lets
    | split

theorem injectWritten_within (hW : Sub [.regs] Ω) {val : Word} (h : Within Ω a s) : Within Ω a (injectWritten val s) := by
  unfold injectWritten
  repeat' first
    | with_reducible assumption
    | with_reducible apply State.setFld_within (hW.of (by decide))
    | with_reducible refine Within.ite (fun _ => ?_) (fun _ => ?_)

theorem poolWritten_within (hW : Sub [.seed] Ω) {val : Word} {old : State} (h : Within Ω a s) : Within Ω a (poolWritten val old s) := by
  unfold poolWritten
  repeat' first
    | with_reducible assumption
    | with_reducible apply State.setSeed_within (hW.of (by decide))
    | with_reducible refine Within.ite (fun _ => ?_) (fun _ => ?_)

theorem regWritten_within (hW : Sub [.bull, .cfg, .clk, .clu, .core, .flc, .free, .gh, .glb, .graphs, .hbm, .hbmBad, .hif, .kml, .madi, .mdm, .mq, .net, .out, .pack, .peers, .pmu, .regs, .rfp, .scout, .seed, .time, .txHold, .ump] Ω) {a' : Nat} {val : Word} {old : State} (h : Within Ω a s) : Within Ω a (regWritten a' val old s) := by
  unfold regWritten
  extract_lets v1
  clear_value v1
  repeat' first
    | with_reducible assumption
    | with_reducible apply linkDown_within (hW.of (by decide))
    | with_reducible apply poolFill_within (hW.of (by decide))
    | with_reducible apply madiCtlWritten_within (hW.of (by decide))
    | with_reducible apply flcCtlWritten_within (hW.of (by decide))
    | with_reducible apply closeBlock_within (hW.of (by decide))
    | with_reducible apply timeCtlWritten_within (hW.of (by decide))
    | with_reducible apply glbRstWritten_within (hW.of (by decide))
    | with_reducible apply bootPushWritten_within (hW.of (by decide))
    | with_reducible apply pmuWritten_within (hW.of (by decide))
    | with_reducible apply coreRegWritten_within (hW.of (by decide))
    | with_reducible apply rfpRegWritten_within (hW.of (by decide))
    | with_reducible apply injectWritten_within (hW.of (by decide))
    | with_reducible apply poolWritten_within (hW.of (by decide))
    | with_reducible refine Within.ite (fun _ => ?_) (fun _ => ?_)
    | with_reducible apply KciRes.within_wait
    | extract_lets
    | split

theorem regWrite_within (hW : Sub [.bull, .cfg, .clk, .clu, .core, .flc, .free, .gh, .glb, .graphs, .hbm, .hbmBad, .hif, .kml, .madi, .mdm, .mq, .net, .out, .pack, .peers, .pmu, .regs, .rfp, .scout, .seed, .time, .txHold, .ump] Ω) {a' : Nat} {val : Word} (h : Within Ω a s) : Within Ω a (regWrite a' val s) := by
  unfold regWrite
  repeat' first
    | with_reducible assumption
    | with_reducible apply State.setReg_within (hW.of (by decide))
    | with_reducible apply State.setFld_within (hW.of (by decide))
    | with_reducible apply writeIrqs_within (hW.of (by decide))
    | with_reducible apply regWritten_within (hW.of (by decide))
    | with_reducible refine Within.ite (fun _ => ?_) (fun _ => ?_)

theorem msixWrite_within (hW : Sub [.hif, .out] Ω) {a' : Nat} {val : Word} (h : Within Ω a s) : Within Ω a (msixWrite a' val s) := by
  unfold msixWrite
  extract_lets v1 v2 v3 s1
  clear_value v1 v2 v3
  have h1 : Within Ω a s1 := by
    unfold s1
    repeat' first
      | with_reducible assumption
      | with_reducible apply State.emit_within (hW.of (by decide))
      | with_reducible apply State.setHif_within (hW.of (by decide))
  clear_value s1
  repeat' first
    | with_reducible assumption
    | with_reducible apply State.emit_within (hW.of (by decide))
    | with_reducible apply State.setHif_within (hW.of (by decide))
    | with_reducible refine Within.ite (fun _ => ?_) (fun _ => ?_)

theorem busWrite_within (hW : Sub [.bull, .cfg, .clk, .clu, .core, .flc, .free, .gh, .glb, .graphs, .hbm, .hbmBad, .hif, .kml, .madi, .mdm, .mq, .net, .out, .pack, .peers, .pmu, .regs, .rfp, .scout, .seed, .time, .txHold, .ump] Ω) {path : BusPath} {off : Nat} {byteEn : Nat} {val : Word} (h : Within Ω a s) : Within Ω a (busWrite path off byteEn val s) := by
  unfold busWrite
  extract_lets v1
  clear_value v1
  repeat' first
    | with_reducible assumption
    | with_reducible apply badAccess_within (hW.of (by decide))
    | with_reducible apply regWrite_within (hW.of (by decide))
    | with_reducible apply msixWrite_within (hW.of (by decide))
    | with_reducible refine Within.ite (fun _ => ?_) (fun _ => ?_)

theorem tsqPop_within (hW : Sub [.time] Ω) {n : Nat} (h : Within Ω a s) : Within Ω a (tsqPop n s).2 := by
  unfold tsqPop
  extract_lets v1 v2
  clear_value v1 v2
  repeat' first
    | with_reducible assumption
    | with_reducible refine Within.ite (fun _ => ?_) (fun _ => ?_)
    | extract_lets
    | split
    | dsimp only
    | ((with_reducible refine Within.mk_same rfl ?_ ?_); (intro p hn; cases p <;> first | rfl | exact absurd (hW.use (by decide)) hn))

theorem tsqPop_within_pair (hW : Sub [.time] Ω) {n : Nat} {x0} {t} (e : tsqPop n s = (x0, t)) (h : Within Ω a s) : Within Ω a t := by
  have := tsqPop_within (hW.of (by decide)) (n := n) h; rwa [e] at this

theorem flowEvPop_within (hW : Sub [.hif] Ω) (h : Within Ω a s) : Within Ω a (flowEvPop s).2 := by
  unfold flowEvPop
  repeat' first
    | with_reducible assumption
    | with_reducible apply State.setHif_within (hW.of (by decide))
    | with_reducible refine Within.ite (fun _ => ?_) (fun _ => ?_)
    | split

theorem flowEvPop_within_pair (hW : Sub [.hif] Ω)  {x0} {t} (e : flowEvPop s = (x0, t)) (h : Within Ω a s) : Within Ω a t := by
  have := flowEvPop_within (hW.of (by decide))  h; rwa [e] at this

theorem clearRc_within (hW : Sub [.regs] Ω) {a' : Nat} (h : Within Ω a s) : Within Ω a (clearRc a' s) := by
  unfold clearRc
  repeat' first
    | with_reducible assumption
    | with_reducible apply State.setReg_within (hW.of (by decide))
    | with_reducible refine Within.ite (fun _ => ?_) (fun _ => ?_)

theorem regRead_within (hW : Sub [.flc, .hif, .pmu, .regs, .time] Ω) {a' : Nat} (h : Within Ω a s) : Within Ω a (regRead a' s).2 := by
  unfold regRead
  extract_lets v1 v2
  clear_value v1 v2
  repeat' first
    | with_reducible assumption
    | with_reducible apply State.setFlc_within (hW.of (by decide))
    | with_reducible apply tsqPop_within (hW.of (by decide))
    | refine tsqPop_within_pair (hW.of (by decide)) (by assumption) ?_
    | with_reducible apply flowEvPop_within (hW.of (by decide))
    | refine flowEvPop_within_pair (hW.of (by decide)) (by assumption) ?_
    | with_reducible apply clearRc_within (hW.of (by decide))
    | with_reducible refine Within.ite (fun _ => ?_) (fun _ => ?_)
    | extract_lets
    | split
    | dsimp only
    | intro t ht
    | ((with_reducible refine Within.mk_same rfl ?_ ?_); (intro p hn; cases p <;> first | rfl | exact absurd (hW.use (by decide)) hn))

theorem regRead_within_pair (hW : Sub [.flc, .hif, .pmu, .regs, .time] Ω) {a' : Nat} {x0} {t} (e : regRead a' s = (x0, t)) (h : Within Ω a s) : Within Ω a t := by
  have := regRead_within (hW.of (by decide)) (a' := a') h; rwa [e] at this

theorem busWord_within (hW : Sub [.flc, .hif, .out, .pmu, .regs, .time] Ω) {path : BusPath} {off : Nat} (h : Within Ω a s) : Within Ω a (busWord path off s).2 := by
  unfold busWord
  repeat' first
    | with_reducible assumption
    | with_reducible apply badAccess_within (hW.of (by decide))
    | refine regRead_within_pair (hW.of (by decide)) (by assumption) ?_
    | with_reducible apply regRead_within (hW.of (by decide))
    | with_reducible refine Within.ite (fun _ => ?_) (fun _ => ?_)
    | with_reducible refine Within.foldl ?_ (fun t x ht => ?_)
    | (intro c hc; first | exact hc | (simp; done) | (simpa using hc))
    | extract_lets
    | split
    | dsimp only
    | ((with_reducible refine Within.mk_same rfl ?_ ?_); (intro p hn; cases p <;> first | rfl | exact absurd (hW.use (by decide)) hn))

theorem busWord_within_pair (hW : Sub [.flc, .hif, .out, .pmu, .regs, .time] Ω) {path : BusPath} {off : Nat} {y0} {t} (e : busWord path off s = (y0, t)) (h : Within Ω a s) : Within Ω a t := by
  have := busWord_within (hW.of (by decide)) (path := path) (off := off) h; rwa [e] at this

theorem busRead_within (hW : Sub [.flc, .hif, .out, .pmu, .regs, .time] Ω) {path : BusPath} {off : Nat} (h : Within Ω a s) : Within Ω a (busRead path off s) := by
  unfold busRead
  repeat' first
    | with_reducible assumption
    | refine busWord_within_pair (hW.of (by decide)) (by assumption) ?_
    | with_reducible apply busWord_within (hW.of (by decide))
    | with_reducible apply State.setHif_within (hW.of (by decide))
    | with_reducible refine Within.ite (fun _ => ?_) (fun _ => ?_)
    | with_reducible refine Within.foldl ?_ (fun t x ht => ?_)
    | (intro c hc; first | exact hc | (simp; done) | (simpa using hc))
    | extract_lets
    | split
    | dsimp only
    | ((with_reducible refine Within.mk_same rfl ?_ ?_); (intro p hn; cases p <;> first | rfl | exact absurd (hW.use (by decide)) hn))

theorem busReadWide_within (hW : Sub [.flc, .hif, .out, .pmu, .regs, .time] Ω) {path : BusPath} {off : Nat} {wide : Bool} (h : Within Ω a s) : Within Ω a (busReadWide path off wide s) := by
  unfold busReadWide
  repeat' first
    | with_reducible assumption
    | refine busWord_within_pair (hW.of (by decide)) (by assumption) ?_
    | with_reducible apply busWord_within (hW.of (by decide))
    | with_reducible apply State.setHif_within (hW.of (by decide))
    | with_reducible apply busRead_within (hW.of (by decide))
    | with_reducible refine Within.ite (fun _ => ?_) (fun _ => ?_)
    | with_reducible refine Within.foldl ?_ (fun t x ht => ?_)
    | (intro c hc; first | exact hc | (simp; done) | (simpa using hc))
    | extract_lets
    | split
    | dsimp only
    | ((with_reducible refine Within.mk_same rfl ?_ ?_); (intro p hn; cases p <;> first | rfl | exact absurd (hW.use (by decide)) hn))

theorem busWriteWide_within (hW : Sub [.bull, .cfg, .clk, .clu, .core, .flc, .free, .gh, .glb, .graphs, .hbm, .hbmBad, .hif, .kml, .madi, .mdm, .mq, .net, .out, .pack, .peers, .pmu, .regs, .rfp, .scout, .seed, .time, .txHold, .ump] Ω) {path : BusPath} {off : Nat} {byteEn : Nat} {val : Word} {high : Option (Nat × Word)} (h : Within Ω a s) : Within Ω a (busWriteWide path off byteEn val high s) := by
  unfold busWriteWide
  repeat' first
    | with_reducible assumption
    | with_reducible apply busWrite_within (hW.of (by decide))
    | with_reducible refine Within.ite (fun _ => ?_) (fun _ => ?_)
    | with_reducible refine Within.foldl ?_ (fun t x ht => ?_)
    | (intro c hc; first | exact hc | (simp; done) | (simpa using hc))
    | extract_lets
    | split
    | dsimp only
    | ((with_reducible refine Within.mk_same rfl ?_ ?_); (intro p hn; cases p <;> first | rfl | exact absurd (hW.use (by decide)) hn))

theorem execRegisterWrite_within (hW : Sub [.bull, .cfg, .clk, .clu, .core, .flc, .free, .gh, .glb, .graphs, .hbm, .hbmBad, .hif, .kml, .madi, .mdm, .mq, .net, .out, .pack, .peers, .pmu, .regs, .rfp, .scout, .seed, .time, .txHold, .ump] Ω) {path : BusPath} {off : Nat} {byteEn : Nat} {val : Word} {high : Option (Nat × Word)} (h : Within Ω a s) : WithinOut Ω a (execRegisterWrite path off byteEn val high s) := by
  unfold execRegisterWrite
  repeat' first
    | with_reducible assumption
    | with_reducible apply busWriteWide_within (hW.of (by decide))
    | with_reducible refine Within.ite (fun _ => ?_) (fun _ => ?_)
    | with_reducible refine Within.foldl ?_ (fun t x ht => ?_)
    | (intro c hc; first | exact hc | (simp; done) | (simpa using hc))
    | with_reducible apply WithinOut.next
    | extract_lets
    | split
    | dsimp only

theorem arrayWrite_within (hW : Sub [.bull, .cfg, .clk, .clu, .core, .flc, .free, .gh, .glb, .graphs, .hbm, .hbmBad, .hif, .kml, .madi, .mdm, .mq, .net, .out, .pack, .peers, .pmu, .regs, .rfp, .scout, .seed, .time, .txHold, .ump] Ω) {path : BusPath} {i : Nat} {bound : Nat} {f : Nat → Fld} {val : Word} (h : Within Ω a s) : Within Ω a (arrayWrite path i bound f val s) := by
  unfold arrayWrite
  repeat' first
    | with_reducible assumption
    | with_reducible apply busWrite_within (hW.of (by decide))
    | with_reducible refine Within.ite (fun _ => ?_) (fun _ => ?_)

theorem execClunPwrLimitWrite_within (hW : Sub [.bull, .cfg, .clk, .clu, .core, .flc, .free, .gh, .glb, .graphs, .hbm, .hbmBad, .hif, .kml, .madi, .mdm, .mq, .net, .out, .pack, .peers, .pmu, .regs, .rfp, .scout, .seed, .time, .txHold, .ump] Ω) {path : BusPath} {cluster : Nat} {val : Word} (h : Within Ω a s) : WithinOut Ω a (execClunPwrLimitWrite path cluster val s) := by
  unfold execClunPwrLimitWrite
  repeat' first
    | with_reducible assumption
    | with_reducible apply arrayWrite_within (hW.of (by decide))
    | with_reducible apply WithinOut.next

theorem execClunSparesCountWrite_within (hW : Sub [.bull, .cfg, .clk, .clu, .core, .flc, .free, .gh, .glb, .graphs, .hbm, .hbmBad, .hif, .kml, .madi, .mdm, .mq, .net, .out, .pack, .peers, .pmu, .regs, .rfp, .scout, .seed, .time, .txHold, .ump] Ω) {path : BusPath} {cluster : Nat} {val : Word} (h : Within Ω a s) : WithinOut Ω a (execClunSparesCountWrite path cluster val s) := by
  unfold execClunSparesCountWrite
  repeat' first
    | with_reducible assumption
    | with_reducible apply arrayWrite_within (hW.of (by decide))
    | with_reducible apply WithinOut.next

theorem execClunCmHomeWrite_within (hW : Sub [.bull, .cfg, .clk, .clu, .core, .flc, .free, .gh, .glb, .graphs, .hbm, .hbmBad, .hif, .kml, .madi, .mdm, .mq, .net, .out, .pack, .peers, .pmu, .regs, .rfp, .scout, .seed, .time, .txHold, .ump] Ω) {path : BusPath} {core : Nat} {val : Word} (h : Within Ω a s) : WithinOut Ω a (execClunCmHomeWrite path core val s) := by
  unfold execClunCmHomeWrite
  repeat' first
    | with_reducible assumption
    | with_reducible apply arrayWrite_within (hW.of (by decide))
    | with_reducible apply WithinOut.next

theorem execKciDoorbell_within (hW : Sub [.bull, .cfg, .clk, .clu, .core, .flc, .free, .gh, .glb, .graphs, .hbm, .hbmBad, .hif, .kml, .madi, .mdm, .mq, .net, .out, .pack, .peers, .pmu, .regs, .rfp, .scout, .seed, .time, .txHold, .ump] Ω) {path : BusPath} {val : Word} (h : Within Ω a s) : WithinOut Ω a (execKciDoorbell path val s) := by
  unfold execKciDoorbell
  repeat' first
    | with_reducible assumption
    | with_reducible apply busWrite_within (hW.of (by decide))
    | with_reducible apply WithinOut.next

theorem execPmuCounterHighWrite_within (hW : Sub [.bull, .cfg, .clk, .clu, .core, .flc, .free, .gh, .glb, .graphs, .hbm, .hbmBad, .hif, .kml, .madi, .mdm, .mq, .net, .out, .pack, .peers, .pmu, .regs, .rfp, .scout, .seed, .time, .txHold, .ump] Ω) {path : BusPath} {off : Nat} {val : Word} (h : Within Ω a s) : WithinOut Ω a (execPmuCounterHighWrite path off val s) := by
  unfold execPmuCounterHighWrite
  repeat' first
    | with_reducible assumption
    | with_reducible apply busWrite_within (hW.of (by decide))
    | with_reducible apply WithinOut.next

theorem execPmuCounterLowWrite_within (hW : Sub [.bull, .cfg, .clk, .clu, .core, .flc, .free, .gh, .glb, .graphs, .hbm, .hbmBad, .hif, .kml, .madi, .mdm, .mq, .net, .out, .pack, .peers, .pmu, .regs, .rfp, .scout, .seed, .time, .txHold, .ump] Ω) {path : BusPath} {off : Nat} {val : Word} (h : Within Ω a s) : WithinOut Ω a (execPmuCounterLowWrite path off val s) := by
  unfold execPmuCounterLowWrite
  repeat' first
    | with_reducible assumption
    | with_reducible apply busWrite_within (hW.of (by decide))
    | with_reducible apply WithinOut.next

theorem execScoutCtlRelWrite_within (hW : Sub [.bull, .cfg, .clk, .clu, .core, .flc, .free, .gh, .glb, .graphs, .hbm, .hbmBad, .hif, .kml, .madi, .mdm, .mq, .net, .out, .pack, .peers, .pmu, .regs, .rfp, .scout, .seed, .time, .txHold, .ump] Ω) {path : BusPath} {core : Nat} {val : Word} (h : Within Ω a s) : WithinOut Ω a (execScoutCtlRelWrite path core val s) := by
  unfold execScoutCtlRelWrite
  repeat' first
    | with_reducible assumption
    | with_reducible apply arrayWrite_within (hW.of (by decide))
    | with_reducible apply WithinOut.next

theorem execRfpnDcbClrWrite_within (hW : Sub [.bull, .cfg, .clk, .clu, .core, .flc, .free, .gh, .glb, .graphs, .hbm, .hbmBad, .hif, .kml, .madi, .mdm, .mq, .net, .out, .pack, .peers, .pmu, .regs, .rfp, .scout, .seed, .time, .txHold, .ump] Ω) {path : BusPath} {port : Nat} {val : Word} (h : Within Ω a s) : WithinOut Ω a (execRfpnDcbClrWrite path port val s) := by
  unfold execRfpnDcbClrWrite
  repeat' first
    | with_reducible assumption
    | with_reducible apply arrayWrite_within (hW.of (by decide))
    | with_reducible apply WithinOut.next

theorem execUmpInjectArmWrite_within (hW : Sub [.bull, .cfg, .clk, .clu, .core, .flc, .free, .gh, .glb, .graphs, .hbm, .hbmBad, .hif, .kml, .madi, .mdm, .mq, .net, .out, .pack, .peers, .pmu, .regs, .rfp, .scout, .seed, .time, .txHold, .ump] Ω) {path : BusPath} {val : Word} (h : Within Ω a s) : WithinOut Ω a (execUmpInjectArmWrite path val s) := by
  unfold execUmpInjectArmWrite
  repeat' first
    | with_reducible assumption
    | with_reducible apply busWrite_within (hW.of (by decide))
    | with_reducible apply WithinOut.next

theorem execSeedPoolGranWrite_within (hW : Sub [.bull, .cfg, .clk, .clu, .core, .flc, .free, .gh, .glb, .graphs, .hbm, .hbmBad, .hif, .kml, .madi, .mdm, .mq, .net, .out, .pack, .peers, .pmu, .regs, .rfp, .scout, .seed, .time, .txHold, .ump] Ω) {path : BusPath} {val : Word} (h : Within Ω a s) : WithinOut Ω a (execSeedPoolGranWrite path val s) := by
  unfold execSeedPoolGranWrite
  repeat' first
    | with_reducible assumption
    | with_reducible apply busWrite_within (hW.of (by decide))
    | with_reducible apply WithinOut.next

theorem execMadiPortEnable_within (hW : Sub [.bull, .cfg, .clk, .clu, .core, .flc, .free, .gh, .glb, .graphs, .hbm, .hbmBad, .hif, .kml, .madi, .mdm, .mq, .net, .out, .pack, .peers, .pmu, .regs, .rfp, .scout, .seed, .time, .txHold, .ump] Ω) {path : BusPath} {port : Nat} {val : Word} (h : Within Ω a s) : WithinOut Ω a (execMadiPortEnable path port val s) := by
  unfold execMadiPortEnable
  repeat' first
    | with_reducible assumption
    | with_reducible apply arrayWrite_within (hW.of (by decide))
    | with_reducible apply WithinOut.next

theorem execFlcEnable_within (hW : Sub [.bull, .cfg, .clk, .clu, .core, .flc, .free, .gh, .glb, .graphs, .hbm, .hbmBad, .hif, .kml, .madi, .mdm, .mq, .net, .out, .pack, .peers, .pmu, .regs, .rfp, .scout, .seed, .time, .txHold, .ump] Ω) {path : BusPath} {val : Word} (h : Within Ω a s) : WithinOut Ω a (execFlcEnable path val s) := by
  unfold execFlcEnable
  repeat' first
    | with_reducible assumption
    | with_reducible apply busWrite_within (hW.of (by decide))
    | with_reducible apply WithinOut.next

theorem execRcCounterRead_within (hW : Sub [.flc, .hif, .out, .pmu, .regs, .time] Ω) {path : BusPath} {off : Nat} {wide : Bool} (h : Within Ω a s) : WithinOut Ω a (execRcCounterRead path off wide s) := by
  unfold execRcCounterRead
  repeat' first
    | with_reducible assumption
    | with_reducible apply busReadWide_within (hW.of (by decide))
    | with_reducible refine Within.ite (fun _ => ?_) (fun _ => ?_)
    | with_reducible refine Within.foldl ?_ (fun t x ht => ?_)
    | (intro c hc; first | exact hc | (simp; done) | (simpa using hc))
    | with_reducible apply WithinOut.next
    | extract_lets
    | split
    | dsimp only

theorem execReservedRegisterRead_within (hW : Sub [.flc, .hif, .out, .pmu, .regs, .time] Ω) {path : BusPath} {off : Nat} {wide : Bool} (h : Within Ω a s) : WithinOut Ω a (execReservedRegisterRead path off wide s) := by
  unfold execReservedRegisterRead
  repeat' first
    | with_reducible assumption
    | with_reducible apply busReadWide_within (hW.of (by decide))
    | with_reducible refine Within.ite (fun _ => ?_) (fun _ => ?_)
    | with_reducible refine Within.foldl ?_ (fun t x ht => ?_)
    | (intro c hc; first | exact hc | (simp; done) | (simpa using hc))
    | with_reducible apply WithinOut.next
    | extract_lets
    | split
    | dsimp only

theorem execTimeNowFracRead_within (hW : Sub [.flc, .hif, .out, .pmu, .regs, .time] Ω) {path : BusPath} (h : Within Ω a s) : WithinOut Ω a (execTimeNowFracRead path s) := by
  unfold execTimeNowFracRead
  repeat' first
    | with_reducible assumption
    | with_reducible apply busRead_within (hW.of (by decide))
    | with_reducible apply WithinOut.next

theorem execTimeRateLoRead_within (hW : Sub [.flc, .hif, .out, .pmu, .regs, .time] Ω) {path : BusPath} (h : Within Ω a s) : WithinOut Ω a (execTimeRateLoRead path s) := by
  unfold execTimeRateLoRead
  repeat' first
    | with_reducible assumption
    | with_reducible apply busRead_within (hW.of (by decide))
    | with_reducible apply WithinOut.next

theorem execTimePpsinNsRead_within (hW : Sub [.flc, .hif, .out, .pmu, .regs, .time] Ω) {path : BusPath} (h : Within Ω a s) : WithinOut Ω a (execTimePpsinNsRead path s) := by
  unfold execTimePpsinNsRead
  repeat' first
    | with_reducible assumption
    | with_reducible apply busRead_within (hW.of (by decide))
    | with_reducible apply WithinOut.next

theorem execTimeTsqnPop0Read_within (hW : Sub [.flc, .hif, .out, .pmu, .regs, .time] Ω) {path : BusPath} {port : Nat} (h : Within Ω a s) : WithinOut Ω a (execTimeTsqnPop0Read path port s) := by
  unfold execTimeTsqnPop0Read
  repeat' first
    | with_reducible assumption
    | with_reducible apply busRead_within (hW.of (by decide))
    | with_reducible refine Within.ite (fun _ => ?_) (fun _ => ?_)
    | with_reducible apply WithinOut.next

theorem execHifFlowevPopRead_within (hW : Sub [.flc, .hif, .out, .pmu, .regs, .time] Ω) {path : BusPath} (h : Within Ω a s) : WithinOut Ω a (execHifFlowevPopRead path s) := by
  unfold execHifFlowevPopRead
  repeat' first
    | with_reducible assumption
    | with_reducible apply busRead_within (hW.of (by decide))
    | with_reducible apply WithinOut.next

theorem execFlcRebuildTLoRead_within (hW : Sub [.flc, .hif, .out, .pmu, .regs, .time] Ω) {path : BusPath} (h : Within Ω a s) : WithinOut Ω a (execFlcRebuildTLoRead path s) := by
  unfold execFlcRebuildTLoRead
  repeat' first
    | with_reducible assumption
    | with_reducible apply busRead_within (hW.of (by decide))
    | with_reducible apply WithinOut.next

theorem execFlcOldestTLoRead_within (hW : Sub [.flc, .hif, .out, .pmu, .regs, .time] Ω) {path : BusPath} (h : Within Ω a s) : WithinOut Ω a (execFlcOldestTLoRead path s) := by
  unfold execFlcOldestTLoRead
  repeat' first
    | with_reducible assumption
    | with_reducible apply busRead_within (hW.of (by decide))
    | with_reducible apply WithinOut.next

theorem execPmuCounterLowRead_within (hW : Sub [.flc, .hif, .out, .pmu, .regs, .time] Ω) {path : BusPath} {off : Nat} {wide : Bool} (h : Within Ω a s) : WithinOut Ω a (execPmuCounterLowRead path off wide s) := by
  unfold execPmuCounterLowRead
  repeat' first
    | with_reducible assumption
    | with_reducible apply busReadWide_within (hW.of (by decide))
    | with_reducible refine Within.ite (fun _ => ?_) (fun _ => ?_)
    | with_reducible refine Within.foldl ?_ (fun t x ht => ?_)
    | (intro c hc; first | exact hc | (simp; done) | (simpa using hc))
    | with_reducible apply WithinOut.next
    | extract_lets
    | split
    | dsimp only

theorem smbus_within (hW : Sub [.regs] Ω) {ok : Bool} {pec : Option Bool} {f : State → State} (h : Within Ω a s) (hf : ∀ t, Within Ω a t → Within Ω a (f t)) :
    Within Ω a (smbus ok pec f s) := by
  unfold smbus
  exact Within.ite (fun _ => hf _ h) (fun _ => Within.ite (fun _ => State.bump_within (hW.of (by decide)) h) (fun _ => h))

theorem execSmbusWrite_within (hW : Sub [.bull, .cfg, .clk, .clu, .core, .flc, .free, .gh, .glb, .graphs, .hbm, .hbmBad, .hif, .kml, .madi, .mdm, .mq, .net, .out, .pack, .peers, .pmu, .regs, .rfp, .scout, .seed, .time, .txHold, .ump] Ω) {count : Nat} {pec : Option Bool} {off : Nat} {val : Word} (h : Within Ω a s) : WithinOut Ω a (execSmbusWrite count pec off val s) := by
  unfold execSmbusWrite
  repeat' first
    | with_reducible assumption
    | with_reducible apply busWrite_within (hW.of (by decide))
    | with_reducible refine smbus_within (hW.of (by decide)) ?_ (fun t ht => ?_)
    | with_reducible apply WithinOut.next

theorem execSmbusReadAddress_within (hW : Sub [.hif, .regs] Ω) {count : Nat} {pec : Option Bool} {off : Nat} (h : Within Ω a s) : WithinOut Ω a (execSmbusReadAddress count pec off s) := by
  unfold execSmbusReadAddress
  repeat' first
    | with_reducible assumption
    | with_reducible apply State.setHif_within (hW.of (by decide))
    | with_reducible refine smbus_within (hW.of (by decide)) ?_ (fun t ht => ?_)
    | with_reducible refine Within.ite (fun _ => ?_) (fun _ => ?_)
    | with_reducible apply WithinOut.next

theorem execSmbusReadData_within (hW : Sub [.flc, .hif, .out, .pmu, .regs, .time] Ω) {pec : Option Bool} (h : Within Ω a s) : WithinOut Ω a (execSmbusReadData pec s) := by
  unfold execSmbusReadData
  repeat' first
    | with_reducible assumption
    | with_reducible apply State.setHif_within (hW.of (by decide))
    | with_reducible apply busRead_within (hW.of (by decide))
    | with_reducible refine smbus_within (hW.of (by decide)) ?_ (fun t ht => ?_)
    | with_reducible refine Within.ite (fun _ => ?_) (fun _ => ?_)
    | with_reducible apply WithinOut.next

theorem tagByte_within (hW : Sub [.seed] Ω) {f : Nat} {a' : Nat} {b : Byte} (h : Within Ω a s) : Within Ω a (tagByte f a' b s) := by
  unfold tagByte
  repeat' first
    | with_reducible assumption
    | with_reducible apply State.setSeed_within (hW.of (by decide))
    | with_reducible refine Within.ite (fun _ => ?_) (fun _ => ?_)
    | with_reducible refine Within.foldl ?_ (fun t x ht => ?_)
    | (intro c hc; first | exact hc | (simp; done) | (simpa using hc))
    | extract_lets
    | split
    | dsimp only
    | ((with_reducible refine Within.mk_same rfl ?_ ?_); (intro p hn; cases p <;> first | rfl | exact absurd (hW.use (by decide)) hn))

theorem tagBytes_within (hW : Sub [.seed] Ω) {f : Nat} {a' : Nat} {x0 : List Byte} (h : Within Ω a s) : Within Ω a (tagBytes f a' x0 s) := by
  induction x0 generalizing a' s with
  | nil => exact h
  | cons b t ih => unfold tagBytes; exact ih (Within.ite (fun _ => tagByte_within (hW.of (by decide)) h) (fun _ => h))

theorem tagWrite_within (hW : Sub [.free, .seed] Ω) {a' : Nat} {bytes : List Byte} (h : Within Ω a s) : Within Ω a (tagWrite a' bytes s) := by
  unfold tagWrite
  repeat' first
    | with_reducible assumption
    | with_reducible apply tagBytes_within (hW.of (by decide))
    | refine State.draw_within_pair (hW.of (by decide)) (by assumption) ?_
    | with_reducible apply State.draw_within (hW.of (by decide))
    | with_reducible refine Within.ite (fun _ => ?_) (fun _ => ?_)
    | with_reducible refine Within.foldl ?_ (fun t x ht => ?_)
    | (intro c hc; first | exact hc | (simp; done) | (simpa using hc))
    | extract_lets
    | split
    | dsimp only
    | ((with_reducible refine Within.mk_same rfl ?_ ?_); (intro p hn; cases p <;> first | rfl | exact absurd (hW.use (by decide)) hn))

theorem bar2Write_within (hW : Sub [.free, .hbm, .hbmBad, .hif, .out, .regs, .seed] Ω) {off : Nat} {bytes : List Byte} (h : Within Ω a s) : Within Ω a (bar2Write off bytes s) := by
  unfold bar2Write
  refine Within.ite (fun _ => h) (fun _ => ?_)
  extract_lets bs p s1
  have h1 : Within Ω a s1 := by
    have hm : Within Ω a { s with hbm := bar2Bytes (inDescRegion s) p bs s.hbm } := Within.hbm (hW.of (by decide)) h fun x => bar2Bytes_wf _ _ _ _ x.1
    exact tagWrite_within (hW.of (by decide)) (Within.mk_same (s := { s with hbm := bar2Bytes (inDescRegion s) p bs s.hbm }) rfl (fun p hn => by cases p <;> first | rfl | exact absurd (hW.use (by decide)) hn) hm)
  clear_value s1
  exact Within.ite (fun _ => badAccess_within (hW.of (by decide)) h1) (fun _ => h1)

theorem execBar2Write_within (hW : Sub [.free, .hbm, .hbmBad, .hif, .out, .regs, .seed] Ω) {off : Nat} {bytes : List Byte} (h : Within Ω a s) : WithinOut Ω a (execBar2Write off bytes s) := by
  unfold execBar2Write
  repeat' first
    | with_reducible assumption
    | with_reducible apply bar2Write_within (hW.of (by decide))
    | with_reducible apply WithinOut.next

theorem execBar2Read_within (hW : Sub [.free, .hif] Ω) {off : Nat} {len : Nat} (h : Within Ω a s) : WithinOut Ω a (execBar2Read off len s) := by
  unfold execBar2Read
  repeat' first
    | with_reducible assumption
    | with_reducible apply State.setHif_within (hW.of (by decide))
    | with_reducible apply State.draw_within (hW.of (by decide))
    | with_reducible refine Within.ite (fun _ => ?_) (fun _ => ?_)
    | with_reducible apply WithinOut.next

theorem State.setPeer_within (hW : Sub [.peers] Ω) {l : Nat} {x : WlLink} (h : Within Ω a s) : Within Ω a (State.setPeer s l x) := by
  unfold State.setPeer
  repeat' first
    | with_reducible assumption
    | dsimp only
    | ((with_reducible refine Within.mk_same rfl ?_ ?_); (intro p hn; cases p <;> first | rfl | exact absurd (hW.use (by decide)) hn))

theorem peerSend_within (hW : Sub [.free, .hif, .net, .out, .peers, .pmu, .regs] Ω) {l : Nat} {typ : Nat} {body : List Byte} (h : Within Ω a s) : Within Ω a (peerSend l typ body s) := by
  unfold peerSend
  repeat' first
    | with_reducible assumption
    | with_reducible apply svcBack_within (hW.of (by decide))
    | with_reducible apply State.setPeer_within (hW.of (by decide))
    | with_reducible apply State.emit_within (hW.of (by decide))
    | with_reducible refine Within.ite (fun _ => ?_) (fun _ => ?_)
    | with_reducible refine Within.foldl ?_ (fun t x ht => ?_)
    | (intro c hc; first | exact hc | (simp; done) | (simpa using hc))
    | extract_lets
    | split
    | dsimp only
    | ((with_reducible refine Within.mk_same rfl ?_ ?_); (intro p hn; cases p <;> first | rfl | exact absurd (hW.use (by decide)) hn))

theorem peerUp_within (hW : Sub [.hif, .out, .peers, .regs] Ω) {l : Nat} {o : WlOffer} {v : Nat × Nat × Nat} (h : Within Ω a s) : Within Ω a (peerUp l o v s) := by
  unfold peerUp
  repeat' first
    | with_reducible assumption
    | with_reducible apply finishWait_within (hW.of (by decide))
    | with_reducible apply State.setPeer_within (hW.of (by decide))
    | split

theorem peerReject_within (hW : Sub [.hif, .out, .peers, .regs] Ω) {l : Nat} (h : Within Ω a s) : Within Ω a (peerReject l s) := by
  unfold peerReject
  repeat' first
    | with_reducible assumption
    | with_reducible apply finishWait_within (hW.of (by decide))
    | with_reducible apply State.setPeer_within (hW.of (by decide))
    | split

theorem helloReceived_within (hW : Sub [.free, .hif, .net, .out, .peers, .pmu, .regs] Ω) {l : Nat} {o : WlOffer} (h : Within Ω a s) : Within Ω a (helloReceived l o s) := by
  unfold helloReceived
  repeat' first
    | with_reducible assumption
    | with_reducible apply peerSend_within (hW.of (by decide))
    | with_reducible apply peerUp_within (hW.of (by decide))
    | with_reducible apply peerReject_within (hW.of (by decide))
    | split

theorem onPeer_within (hW : Sub [] Ω) {l : Nat} {f : WlLink → State → State} (h : Within Ω a s) (hf : ∀ x t, Within Ω a t → Within Ω a (f x t)) : Within Ω a (onPeer l f s) := by
  unfold onPeer
  split
  · exact Within.ite (fun _ => hf _ _ h) (fun _ => h)
  · exact h

theorem execWlHelloReceive_within (hW : Sub [.free, .hif, .net, .out, .peers, .pmu, .regs] Ω) {link : Nat} {offer : WlOffer} (h : Within Ω a s) : WithinOut Ω a (execWlHelloReceive link offer s) := by
  unfold execWlHelloReceive
  repeat' first
    | with_reducible assumption
    | with_reducible apply helloReceived_within (hW.of (by decide))
    | with_reducible refine onPeer_within (hW.of (by decide)) ?_ (fun x t ht => ?_)
    | with_reducible apply WithinOut.next

theorem ackReceived_within (hW : Sub [.free, .hif, .net, .out, .peers, .pmu, .regs] Ω) {l : Nat} {o : WlOffer} (h : Within Ω a s) : Within Ω a (ackReceived l o s) := by
  unfold ackReceived
  repeat' first
    | with_reducible assumption
    | with_reducible apply peerSend_within (hW.of (by decide))
    | with_reducible apply peerUp_within (hW.of (by decide))
    | with_reducible apply peerReject_within (hW.of (by decide))
    | split

theorem execWlHelloAckReceive_within (hW : Sub [.free, .hif, .net, .out, .peers, .pmu, .regs] Ω) {link : Nat} {offer : WlOffer} (h : Within Ω a s) : WithinOut Ω a (execWlHelloAckReceive link offer s) := by
  unfold execWlHelloAckReceive
  repeat' first
    | with_reducible assumption
    | with_reducible refine onPeer_within (hW.of (by decide)) ?_ (fun x t ht => ?_)
    | with_reducible apply ackReceived_within (hW.of (by decide))
    | with_reducible apply WithinOut.next

theorem heard_within (hW : Sub [.peers] Ω) {l : Nat} {x : WlLink} (h : Within Ω a s) : Within Ω a (heard l x s) := by
  unfold heard
  repeat' first
    | with_reducible assumption
    | with_reducible apply State.setPeer_within (hW.of (by decide))

theorem execWlKeepaliveReceive_within (hW : Sub [.peers] Ω) {link : Nat} (h : Within Ω a s) : WithinOut Ω a (execWlKeepaliveReceive link s) := by
  unfold execWlKeepaliveReceive
  repeat' first
    | with_reducible assumption
    | with_reducible refine onPeer_within (hW.of (by decide)) ?_ (fun x t ht => ?_)
    | with_reducible apply heard_within (hW.of (by decide))
    | with_reducible apply WithinOut.next

theorem controlReceived_within (hW : Sub [.peers] Ω) {l : Nat} {kind : Nat} {x : WlLink} (h : Within Ω a s) : Within Ω a (controlReceived l kind x s) := by
  unfold controlReceived
  repeat' first
    | with_reducible assumption
    | with_reducible apply heard_within (hW.of (by decide))

theorem execWlControlReceive_within (hW : Sub [.peers] Ω) {link : Nat} {kind : Nat} {_body : List Byte} (h : Within Ω a s) : WithinOut Ω a (execWlControlReceive link kind _body s) := by
  unfold execWlControlReceive
  repeat' first
    | with_reducible assumption
    | with_reducible refine onPeer_within (hW.of (by decide)) ?_ (fun x t ht => ?_)
    | with_reducible apply controlReceived_within (hW.of (by decide))
    | with_reducible apply WithinOut.next

theorem execWlRejectReceive_within (hW : Sub [.hif, .out, .peers, .regs] Ω) {link : Nat} {_code : Nat} (h : Within Ω a s) : WithinOut Ω a (execWlRejectReceive link _code s) := by
  unfold execWlRejectReceive
  repeat' first
    | with_reducible assumption
    | with_reducible apply peerReject_within (hW.of (by decide))
    | with_reducible refine onPeer_within (hW.of (by decide)) ?_ (fun x t ht => ?_)
    | with_reducible apply WithinOut.next

theorem peerClosed_within (hW : Sub [.free, .hif, .out, .peers, .regs] Ω) {l : Nat} (h : Within Ω a s) : Within Ω a (peerClosed l s) := by
  unfold peerClosed
  repeat' first
    | with_reducible assumption
    | with_reducible apply State.draw_within (hW.of (by decide))
    | refine State.draw_within_pair (hW.of (by decide)) (by assumption) ?_
    | with_reducible apply finishWait_within (hW.of (by decide))
    | extract_lets
    | split
    | dsimp only
    | ((with_reducible refine Within.mk_same rfl ?_ ?_); (intro p hn; cases p <;> first | rfl | exact absurd (hW.use (by decide)) hn))

theorem execWlByeReceive_within (hW : Sub [.free, .hif, .out, .peers, .regs] Ω) {link : Nat} (h : Within Ω a s) : WithinOut Ω a (execWlByeReceive link s) := by
  unfold execWlByeReceive
  repeat' first
    | with_reducible assumption
    | with_reducible refine onPeer_within (hW.of (by decide)) ?_ (fun x t ht => ?_)
    | with_reducible apply peerClosed_within (hW.of (by decide))
    | with_reducible apply WithinOut.next

theorem peerTimer_within (hW : Sub [.clk, .hbm, .hif, .out, .pmu, .regs, .seed, .time, .txHold, .ump] Ω) {l : Nat} {states : List Nat} {since : WlLink → Nat} {cycles : Nat} {f : State → State} (h : Within Ω a s)
    (hf : ∀ t, Within Ω a t → Within Ω a (f t)) : Within Ω a (peerTimer l states since cycles f s) := by
  unfold peerTimer
  split
  · exact Within.ite (fun _ => hf _ (advanceSince_within (hW.of (by decide)) h)) (fun _ => h)
  · exact h

theorem execWlHelloResend_within (hW : Sub [.clk, .free, .hbm, .hif, .net, .out, .peers, .pmu, .regs, .seed, .time, .txHold, .ump] Ω) {link : Nat} (h : Within Ω a s) : WithinOut Ω a (execWlHelloResend link s) := by
  unfold execWlHelloResend
  repeat' first
    | with_reducible assumption
    | with_reducible apply peerSend_within (hW.of (by decide))
    | with_reducible refine peerTimer_within (hW.of (by decide)) ?_ (fun t ht => ?_)
    | with_reducible apply WithinOut.next

theorem execWlKeepaliveSend_within (hW : Sub [.clk, .free, .hbm, .hif, .net, .out, .peers, .pmu, .regs, .seed, .time, .txHold, .ump] Ω) {link : Nat} (h : Within Ω a s) : WithinOut Ω a (execWlKeepaliveSend link s) := by
  unfold execWlKeepaliveSend
  repeat' first
    | with_reducible assumption
    | with_reducible apply peerSend_within (hW.of (by decide))
    | with_reducible refine peerTimer_within (hW.of (by decide)) ?_ (fun t ht => ?_)
    | with_reducible apply WithinOut.next

theorem peerDown_within (hW : Sub [.free, .hif, .net, .out, .peers, .pmu, .regs] Ω) {l : Nat} (h : Within Ω a s) : Within Ω a (peerDown l s) := by
  unfold peerDown
  repeat' first
    | with_reducible assumption
    | with_reducible apply State.setPeer_within (hW.of (by decide))
    | with_reducible apply peerSend_within (hW.of (by decide))
    | split

theorem execWlPeerTimeout_within (hW : Sub [.clk, .free, .hbm, .hif, .net, .out, .peers, .pmu, .regs, .seed, .time, .txHold, .ump] Ω) {link : Nat} (h : Within Ω a s) : WithinOut Ω a (execWlPeerTimeout link s) := by
  unfold execWlPeerTimeout
  repeat' first
    | with_reducible assumption
    | with_reducible apply heard_within (hW.of (by decide))
    | with_reducible refine peerTimer_within (hW.of (by decide)) ?_ (fun t ht => ?_)
    | with_reducible apply peerDown_within (hW.of (by decide))
    | with_reducible apply WithinOut.next

theorem execLinkOpen_within (hW : Sub [.core, .free, .hif, .net, .out, .peers, .pmu, .regs] Ω) {h' : KciHdr} {link : Nat} {port : Nat} {ip : Nat} {udpPort : Nat} (h : Within Ω a s) : WithinOut Ω a (execLinkOpen h' link port ip udpPort s) := by
  unfold execLinkOpen
  repeat' first
    | with_reducible assumption
    | with_reducible apply kciFail_within (hW.of (by decide))
    | with_reducible refine kci_within (hW.of (by decide)) ?_ (fun t ht => ?_)
    | with_reducible apply State.setPeer_within (hW.of (by decide))
    | with_reducible apply peerSend_within (hW.of (by decide))
    | with_reducible apply heard_within (hW.of (by decide))
    | with_reducible refine Within.ite (fun _ => ?_) (fun _ => ?_)
    | with_reducible apply KciRes.within_fail
    | with_reducible apply KciRes.within_wait
    | with_reducible apply WithinOut.next
    | split

theorem execLinkClose_within (hW : Sub [.core, .free, .hif, .net, .out, .peers, .pmu, .regs] Ω) {h' : KciHdr} {link : Nat} (h : Within Ω a s) : WithinOut Ω a (execLinkClose h' link s) := by
  unfold execLinkClose
  repeat' first
    | with_reducible assumption
    | with_reducible apply kciFail_within (hW.of (by decide))
    | with_reducible apply kciOk_within (hW.of (by decide))
    | with_reducible refine kci_within (hW.of (by decide)) ?_ (fun t ht => ?_)
    | with_reducible apply peerSend_within (hW.of (by decide))
    | with_reducible apply peerClosed_within (hW.of (by decide))
    | with_reducible refine Within.ite (fun _ => ?_) (fun _ => ?_)
    | with_reducible apply KciRes.within_fail
    | with_reducible apply KciRes.within_ok
    | with_reducible apply WithinOut.next
    | split

theorem execLinkStatus_within (hW : Sub [.core, .hif, .out, .regs] Ω) {h' : KciHdr} {link : Nat} (h : Within Ω a s) : WithinOut Ω a (execLinkStatus h' link s) := by
  unfold execLinkStatus
  repeat' first
    | with_reducible assumption
    | with_reducible apply kciFail_within (hW.of (by decide))
    | with_reducible refine kci_within (hW.of (by decide)) ?_ (fun t ht => ?_)
    | with_reducible apply CoreRes.within_done
    | with_reducible apply KciRes.within_fail
    | with_reducible apply KciRes.within_done
    | with_reducible apply WithinOut.next
    | split

theorem beltJoin_within (hW : Sub [.mdm, .out] Ω) {l : Nat} {o : WlOffer} (h : Within Ω a s) : Within Ω a (beltJoin l o s) := by
  unfold beltJoin
  refine Within.ite (fun _ => ?_) (fun _ => h)
  have h1 := State.emit_within (hW.of (by decide)) (m := .beltAnswer l (joinAnswer (agree o))) h
  dsimp only
  split
  · exact State.updMlink_within (hW.of (by decide)) h1
  · exact h1

theorem execBeltpackJoin_within (hW : Sub [.mdm, .out] Ω) {link : Nat} {offer : WlOffer} (h : Within Ω a s) : WithinOut Ω a (execBeltpackJoin link offer s) := by
  unfold execBeltpackJoin
  repeat' first
    | with_reducible assumption
    | with_reducible apply beltJoin_within (hW.of (by decide))
    | with_reducible apply WithinOut.next

end Sys2Proof.Machine
end

