-- ==== Sys2Proof/Laws/Host.lean ====
section
/-!
SUPPORT. Host.lean: the shared operations behind the host's other control instructions.
-/

namespace Sys2Proof.Machine

theorem started_acct (op : Nat) (h : KciHdr) (s : State) (n : Nat) : (started op h s).acct n = s.acct n := by
  obtain ⟨o, ho⟩ := started_is op h s; rw [ho]; rfl

theorem accountChecks_ok {o : AccountOp} (h : AccountLegal o) : firstErr (accountChecks o) = none := by
  obtain ⟨h1, h2, h3, h4, h5, h6, h7⟩ := h
  unfold accountChecks
  rw [chkRange_ok (by omega) (by omega), chkRange_ok h2 h3, chkRange_ok (by omega) h4]
  have hl : chk (if o.kind = 3 then edgeBlock o.attach else o.attach == 0) eRange = none := by
    apply chk_ok
    split
    · next e => exact h6 e
    · next e => simp [h7 e]
  rw [hl]
  split
  · next e => rw [chkZero_ok (by have := h5 e; omega), chkRange_ok (h5 e).1 (h5 e).2]; rfl
  · rfl

theorem onlyAcct_set {a : Nat} {x : Account} {s u t : State} (hu : u.seed = { s.seed with accts := mapInsert a x s.seed.accts })
    (ht : t.seed = u.seed) : OnlyAcct a x s t := by
  refine ⟨by rw [ht, hu], ?_, fun j hj => ?_⟩
  · unfold State.acct; rw [ht, hu]; simp [mapGet]
  · unfold State.acct; rw [ht, hu]; exact mapGet_insert_other hj _ _ _

theorem onlyAcct_same {a : Nat} {s t : State} (ht : t.seed = s.seed) : OnlyAcct a (s.acct a) s t := by
  refine ⟨by rw [ht], ?_, fun j _ => ?_⟩ <;> unfold State.acct <;> rw [ht]

theorem busy_none {s : State} {o : AccountOp} (h : o.kind = 3 → soleAttached s o.account o.attach = true) :
    (o.kind == 3 && match attached s o.attach with | some x => x != o.account | none => false) = false := by
  by_cases hk : o.kind = 3
  · have ha := h hk
    unfold soleAttached at ha
    rw [List.all_eq_true] at ha
    unfold attached
    cases hf : s.seed.accts.find? (fun a => decide (a.2.kind = .port) && a.2.attach == o.attach) with
    | none => simp
    | some x =>
      have h1 := List.find?_some hf
      have h2 := ha x (List.mem_of_find?_eq_some hf)
      simp only [Bool.or_eq_true, h1, Bool.not_true, Bool.false_eq_true, or_false, beq_iff_eq] at h2
      simp [h2]
  · simp [hk]

theorem setTime_mild (f : TimeSt → TimeSt) (s : State) : Mild [.time] [] s (s.setTime f) :=
  mild_of (by intro p hp; cases p <;> first | rfl | simp at hp) rfl rfl rfl

theorem setGlb_mild (g : GlbSt) (s : State) : Mild [.glb] [] s { s with glb := g } :=
  mild_of (by intro p hp; cases p <;> first | rfl | simp at hp) rfl rfl rfl

theorem started_time (op : Nat) (h : KciHdr) (s : State) : (started op h s).time = s.time := by
  obtain ⟨o, ho⟩ := started_is op h s; rw [ho]

theorem started_glb (op : Nat) (h : KciHdr) (s : State) : (started op h s).glb = s.glb := by
  obtain ⟨o, ho⟩ := started_is op h s; rw [ho]

theorem restartCounts_mild (s : State) : Mild [.time] [] s (restartCounts s) := setTime_mild _ s

theorem followRef_mild (s : State) : Mild [.time, .free] [] s (followRef s) :=
  Mild.trans (t := s.draw.2) ((draw_mild s).mono (by simp) (by simp))
    (Mild.mono (ps := [.time]) (as := []) (setTime_mild (fun t => { t with rate := signedOf 40 s.draw.1 }) s.draw.2) (by simp) (by simp))

theorem holdRate_mild (s : State) : Mild [.time, .free] [] s (holdRate s) := by
  unfold holdRate
  split
  · split
    · exact followRef_mild s
    · exact (setTime_mild _ s).mono (by simp) (by simp)
  · split
    · exact followRef_mild s
    · exact (setTime_mild _ s).mono (by simp) (by simp)
  · exact Mild.refl _ _ s

theorem enterHoldover_mild (c : Nat) (s : State) : Mild [.time, .free] [] s (enterHoldover c s) := by
  unfold enterHoldover
  extract_lets s1
  have h1 : Mild [.time, .free] [] s s1 := (setTime_mild _ s).mono (by simp) (by simp)
  split
  · exact h1
  · exact (h1.trans ((setTime_mild _ s1).mono (by simp) (by simp))).trans (holdRate_mild _)

theorem referenceLost_mild (s : State) : Mild [.time, .free] [] s (referenceLost s) := by
  unfold referenceLost
  split
  · exact enterHoldover_mild 1 s
  · exact enterHoldover_mild 1 s
  · exact enterHoldover_mild 1 s
  · exact Mild.refl _ _ s

theorem reselect_mild (w g : Option Nat) (s : State) : Mild [.time, .free] [] s (reselect w g s) := by
  unfold reselect
  extract_lets b gm utc s1 s2
  have h1 : Mild [.time, .free] [] s s1 := (setTime_mild _ s).mono (by simp) (by simp)
  have h2 : Mild [.time, .free] [] s s2 := by
    unfold s2
    split
    · exact h1.trans (referenceLost_mild s1)
    · exact h1
  split
  · exact h2
  · exact h2.trans ((restartCounts_mild s2).mono (by simp) (by simp))

theorem holdRate_time (s : State) : (holdRate s).time.cfg = s.time.cfg ∧ (holdRate s).time.t = s.time.t ∧ (holdRate s).time.announces = s.time.announces := by
  unfold holdRate followRef
  split
  · split <;> exact ⟨rfl, rfl, rfl⟩
  · split <;> exact ⟨rfl, rfl, rfl⟩
  · exact ⟨rfl, rfl, rfl⟩

theorem referenceLost_time (s : State) : (referenceLost s).time.cfg = s.time.cfg ∧ (referenceLost s).time.t = s.time.t ∧
    (referenceLost s).time.announces = s.time.announces := by
  have hc : ∀ c, (enterHoldover c s).time.cfg = s.time.cfg ∧ (enterHoldover c s).time.t = s.time.t ∧ (enterHoldover c s).time.announces = s.time.announces := by
    intro c
    unfold enterHoldover
    extract_lets s1
    split
    · exact ⟨rfl, rfl, rfl⟩
    · exact holdRate_time _
  unfold referenceLost
  split
  · exact hc 1
  · exact hc 1
  · exact hc 1
  · exact ⟨rfl, rfl, rfl⟩

/-- Selecting the slave port again moves neither the counter, the configuration nor the masters heard. -/
theorem reselect_time (w g : Option Nat) (s : State) : (reselect w g s).time.cfg = s.time.cfg ∧ (reselect w g s).time.t = s.time.t ∧
    (reselect w g s).time.announces = s.time.announces := by
  unfold reselect
  extract_lets b gm utc s1 s2
  have h2 : s2.time.cfg = s.time.cfg ∧ s2.time.t = s.time.t ∧ s2.time.announces = s.time.announces := by
    unfold s2
    split
    · exact referenceLost_time s1
    · exact ⟨rfl, rfl, rfl⟩
  split
  · exact h2
  · exact h2

/-- It moves neither the servo nor the rate where a slave port stays or none was (R49). -/
theorem reselect_servo {w g : Option Nat} {s : State} (h : w = none ∨ (bestMaster s).isSome = true) : (reselect w g s).time.servo = s.time.servo ∧
    (reselect w g s).time.rate = s.time.rate := by
  unfold reselect
  extract_lets b gm utc s1 s2
  have h2 : s2.time.servo = s.time.servo ∧ s2.time.rate = s.time.rate := by
    unfold s2
    rw [if_neg (by rcases h with h | h
                   · simp [h]
                   · cases hb : bestMaster s with
                     | none => rw [hb] at h; simp at h
                     | some x => simp [b, hb])]
    exact ⟨rfl, rfl⟩
  split
  · exact h2
  · exact h2

/-- A step of the timeline moves the counter alone in the time block, and no cycles pass. -/
theorem stepTo_time (x : Nat) (s : State) : (stepTo x s).time = { s.time with t := x } ∧ (stepTo x s).clk = s.clk := by
  have h : Within (· ∈ [.out, .regs, .seed, .bull, .hif, .mdm, .flc, .flash, .pmu, .hbm, .ump]) (s.setTime (fun t => { t with t := x })) (stepTo x s) := by
    unfold stepTo
    dsimp only
    refine segmentStep_within (fun p h => by revert h; revert p; decide) (radioStep_within (fun p h => by revert h; revert p; decide) ?_)
    split
    · exact beatsStep_within (fun p h => by revert h; revert p; decide) (Within.refl _)
    · exact Within.refl _
  exact ⟨h.same .time (by decide), h.same .clk (by decide)⟩

/-- A completion is among what the device has sent. -/
theorem kci_completed {op : Nat} {h : KciHdr} {operands : State → List Check} {f : State → KciRes} {s u : State} {st : Nat} {r : List Nat}
    (hr : kciReady op h none s = true) (hc : firstErr (operands (started op h s)) = none) (hf : f (started op h s) = .done st r u) (ho : s.out <+: u.out) :
    Completed op h st r s (kci op h none operands f s) ∧ Kept [.regs, .hif, .out] u (kci op h none operands f s) := by
  rw [kci_run hr hc, hf]
  refine ⟨?_, ?_⟩
  · unfold kciEnd kciDone
    dsimp only
    rw [if_neg (by unfold keyWaits; simp)]
    unfold cqWrite
    dsimp only
    obtain ⟨q, hq, -⟩ := raiseFld_out 0x12 (fHifIntStat.bit 0) (((u.setHif (fun x => { x with outst := dropOut h.tag op x.outst, phase := if u.fld fHifCqHeadIndex + 1 = u.fld fHifCqSizeEntries then !u.hif.phase else u.hif.phase })).setFld
      fHifCqHeadIndex ((u.fld fHifCqHeadIndex + 1) % u.fld fHifCqSizeEntries)).emit (.completion (u.fld fHifCqHeadIndex) h.tag op st u.hif.phase r))
    refine ⟨?_, u.fld fHifCqHeadIndex, u.hif.phase, ?_⟩
    · rw [hq]
      exact ho.trans ((List.prefix_append u.out _).trans (List.prefix_append _ q))
    · rw [hq]
      exact List.mem_append_left _ (List.mem_append_right u.out (by simp))
  · unfold kciEnd kciDone
    dsimp only
    rw [if_neg (by unfold keyWaits; simp)]
    exact cqWrite_kept _ _ _ _ _

end Sys2Proof.Machine
end

