-- ==== Sys2Proof/WellFormed.lean ====
section
/-!
DEFINITION. WellFormed.lean: the operands that a command of the table may carry: fields that an instruction word can hold, identifiers that exist,
offsets inside BAR0 and BAR2, and header fields of a control instruction.
-/

namespace Sys2Proof

open Machine

/-- A media core k = 16 × cluster + core (R191). -/
def coreOk (k : Nat) : Bool := decide (k < 256)

/-- A naturally aligned BAR0 offset (R11, R36). -/
def offOk (a : Nat) : Bool := decide (a < 0x4000000) && a % 4 == 0

/-- The header of a control instruction: a 32-bit tag and a 64-bit host address (R470, R475). -/
def hdrOk (h : KciHdr) : Bool := decide (h.tag < W32) && decide (h.raddr < W64)

/-- A command whose operands are well formed. -/
def Instr.wf (i : Instr) : Bool :=
  match i with
  | .porstNAssert _ _ => true
  | .sysrstNAssert _ => true
  | .glbRstSysWrite _ _ => true
  | .bringupStepComplete _ _ _ _ => true
  | .hifBootPushGo _ _ _ => true
  | .pllLock pll => decide (pll < 7)
  | .thermtrip => true
  | .tempSample quarters => decide (quarters.length = 32)
  | .voltSample _ => true
  | .processSample _ => true
  | .ref10mWindow _ => true
  | .ppsInEdge => true
  | .servoUpdate port _ => decide (port < 4)
  | .delayReqExchange port _ _ => decide (port < 4)
  | .announceReceived port _ => decide (port < 4)
  | .announceReceiptTimeout port => decide (port < 4)
  | .pathHoldElapsed => true
  | .ethernetFrameReceive port _ => decide (port < 4)
  | .mediaPacketAdmit port => decide (port < 4)
  | .ethernetLinkChange port _ _ => decide (port < 4)
  | .pathTimeout flow _ => decide (flow < 16384)
  | .skewPartnerTimeout flow _ _ => decide (flow < 16384)
  | .egressTake flow => decide (flow < 16384)
  | .copyDeparture port => decide (port < 4)
  | .headWindowRefill queue => decide (queue < 65536)
  | .beat gen => decide (gen < 8)
  | .beatPosterResume => true
  | .beatWakeLead gen => decide (gen < 8)
  | .prefetchNotice gen => decide (gen < 8)
  | .timerFire timer => decide (timer < 16384)
  | .timerHeldRelease list => decide (list < 16)
  | .timerPrefetchLead timer => decide (timer < 16384)
  | .nodeDispatch cluster _ => decide (cluster < 16)
  | .stealAgeExpiry node _ => decide (node < 262144)
  | .budgetOverrun core => decide (core < 256)
  | .abortUndoComplete node => decide (node < 262144)
  | .rerunReadyEntry node => decide (node < 262144)
  | .doneCommitResume core => decide (core < 256)
  | .armedReadyEntry node => decide (node < 262144)
  | .modemPostResume port => decide (port < 8)
  | .affinityHoldExpiry node _ => decide (node < 262144)
  | .pageInComplete node _ => decide (node < 262144)
  | .pageInSlotFree node => decide (node < 262144)
  | .writeBackComplete node _ => decide (node < 262144)
  | .ledgerSweep => true
  | .tagSweepComplete _ lost => lost.all (fun g => decide (g < 2 ^ 24))
  | .moveComplete core _ => decide (core < 256)
  | .scoutIntervalExpiry core => decide (core < 256)
  | .umpireMergeExpiry source core cause => decide (source < 256) && decide (core < 16) && decide (cause < 256)
  | .sramScrubPass source core _ _ => decide (source < 0x30) && decide (core < 16)
  | .hbmPatrolPass source _ => decide (source < 0x30)
  | .spareTest core _ => decide (core < 256)
  | .serviceCoreWatchdog => true
  | .serviceCoreRestartDone => true
  | .clusterSleepEntry cluster => decide (cluster < 16)
  | .clusterOffEntry cluster => decide (cluster < 16)
  | .clusterWakeComplete cluster => decide (cluster < 16)
  | .clunPwrLimitWrite _ cluster _ => decide (cluster < 16)
  | .clunSparesCountWrite _ cluster _ => decide (cluster < 16)
  | .clunCmHomeWrite _ core _ => decide (core < 256)
  | .kciDoorbell _ _ => true
  | .kciFetch opcode flags tag => decide (opcode < 65536) && decide (flags < 65536) && decide (tag < W32)
  | .smbusWrite _ _ off _ => decide (off < W32)
  | .smbusReadAddress _ _ off => decide (off < W32)
  | .smbusReadData _ => true
  | .bar2Write off bytes => decide (off + bytes.length ≤ W32)
  | .bar2Read off len => decide (off + len ≤ W32)
  | .registerWrite _ off byteEn _ high => offOk off && decide (byteEn < 16) && match high with | some (en, _) => decide (en < 16) | none => true
  | .rcCounterRead _ off _ => offOk off
  | .timeNowFracRead _ => true
  | .timeRateLoRead _ => true
  | .timePpsinNsRead _ => true
  | .timeTsqnPop0Read _ port => decide (port < 4)
  | .hifFlowevPopRead _ => true
  | .flcRebuildTLoRead _ => true
  | .flcOldestTLoRead _ => true
  | .pmuCounterLowRead _ off _ => offOk off
  | .pmuCounterHighWrite _ off _ => offOk off
  | .pmuCounterLowWrite _ off _ => offOk off
  | .scoutCtlRelWrite _ core _ => decide (core < 256)
  | .rfpnDcbClrWrite _ port _ => decide (port < 8)
  | .umpInjectArmWrite _ _ => true
  | .seedPoolGranWrite _ _ => true
  | .madiPortEnable _ port _ => decide (port < 4)
  | .flcEnable _ _ => true
  | .flcBringupStepComplete _ _ _ => true
  | .captureJobPop => true
  | .captureStagingResume => true
  | .stagingPageProgram _ => true
  | .pageProgramComplete _ => true
  | .blockEraseComplete die _ _ => decide (die < 256)
  | .segmentReclaim => true
  | .refreshSegmentRead _ _ _ => true
  | .flashCodewordDecode _ _ _ _ _ => true
  | .replayBlockDelivery replay _ => decide (replay < 16)
  | .packHostJobEnd job => decide (job < 16)
  | .madiRxBlockPush port _ _ _ _ => decide (port < 4)
  | .madiRxSlip port _ => decide (port < 4)
  | .madiLock port _ => decide (port < 4)
  | .madiLockLoss port => decide (port < 4)
  | .madiTxExamine port => decide (port < 4)
  | .jesdRxCharacterError port _ => decide (port < 8)
  | .jesdRxResync port _ => decide (port < 8)
  | .jesdRxDataResume port => decide (port < 8)
  | .jesdTxSyncRequest port => decide (port < 8)
  | .sysrefEdge port _ _ => decide (port < 8)
  | .carrierSyncReset port carrier => decide (port < 8) && decide (carrier < 12)
  | .sampleTapItemPush port => decide (port < 8)
  | .slotBoundary port => decide (port < 8)
  | .downlinkTake port => decide (port < 8)
  | .downlinkTransmit port => decide (port < 8)
  | .uplinkSlotStart port => decide (port < 8)
  | .agcUpdate port _ => decide (port < 8)
  | .syncDetection port carrier _ p rssi _ => decide (port < 8) && decide (carrier < 12) && decide (p < 64) && decide (rssi < 512)
  | .headerDecoded port carrier bits => decide (port < 8) && decide (carrier < 12) && decide (bits.length = 36)
  | .payloadSubmit port carrier => decide (port < 8) && decide (carrier < 12)
  | .radioLdpcJobComplete port carrier _ _ _ => decide (port < 8) && decide (carrier < 12)
  | .uplinkEntryDelivery link => decide (link < 480)
  | .syncWindowClose port carrier => decide (port < 8) && decide (carrier < 12)
  | .beltpackJoin link _ => decide (link < 480)
  | .wlHelloReceive link _ => decide (link < 64)
  | .wlHelloAckReceive link _ => decide (link < 64)
  | .wlKeepaliveReceive link => decide (link < 64)
  | .wlControlReceive link kind _ => decide (link < 64) && decide (kind < 256)
  | .wlRejectReceive link code => decide (link < 64) && decide (code < 256)
  | .wlByeReceive link => decide (link < 64)
  | .wlHelloResend link => decide (link < 64)
  | .wlKeepaliveSend link => decide (link < 64)
  | .wlPeerTimeout link => decide (link < 64)
  | .graphLoad h _ _ _ _ => hdrOk h
  | .graphUnload h _ => hdrOk h
  | .graphReload h _ _ _ _ => hdrOk h
  | .nodeLoad h _ => hdrOk h
  | .nodeUnload h _ => hdrOk h
  | .nodeArm h _ => hdrOk h
  | .nodeCancel h _ => hdrOk h
  | .nodePost h _ _ => hdrOk h
  | .nodeBeat h _ _ => hdrOk h
  | .nodeRead h _ => hdrOk h
  | .nodeEvict h _ => hdrOk h
  | .cfgStage h target offset len data => hdrOk h && decide (target < W32) && decide (offset < 2 ^ 24) && decide (len < 256) && decide (data.length = 48)
  | .cfgCommit h _ => hdrOk h
  | .cfgCommitDiscard h _ => hdrOk h
  | .flowOpenRx h _ _ => hdrOk h
  | .flowOpenTx h _ _ => hdrOk h
  | .flowPortAddr h _ _ => hdrOk h
  | .flowClose h _ _ => hdrOk h
  | .flowStats h _ _ => hdrOk h
  | .queueOpen h _ => hdrOk h
  | .queueClose h _ => hdrOk h
  | .queueMark h _ => hdrOk h
  | .queueMarkClear h _ => hdrOk h
  | .queueRewind h _ => hdrOk h
  | .queueRewindFromOldest h _ => hdrOk h
  | .queueStats h _ _ => hdrOk h
  | .timerArm h _ => hdrOk h
  | .timerCancel h _ => hdrOk h
  | .timerBeat h _ => hdrOk h
  | .packJobEncode h _ => hdrOk h
  | .packJobDecode h _ => hdrOk h
  | .packResume h _ _ _ => hdrOk h
  | .packDrop h _ => hdrOk h
  | .capStart h => hdrOk h
  | .capStop h => hdrOk h
  | .capPoint h _ _ _ => hdrOk h
  | .capPointClear h _ => hdrOk h
  | .capReplay h _ => hdrOk h
  | .capStats h _ => hdrOk h
  | .timeSet h _ _ => hdrOk h
  | .timeSetRate h _ => hdrOk h
  | .timeStepAuth h _ => hdrOk h
  | .timeConfig h _ _ => hdrOk h
  | .linkOpen h _ _ _ _ => hdrOk h
  | .linkClose h _ => hdrOk h
  | .linkStatus h _ => hdrOk h
  | .modemLink h _ => hdrOk h
  | .modemLinkStats h _ _ => hdrOk h
  | .sysOpen h _ _ => hdrOk h
  | .sysAccount h _ => hdrOk h
  | .sysAccountClose h _ => hdrOk h
  | .sysAccountStats h _ _ => hdrOk h
  | .sysFuseRollback h => hdrOk h
  | .sysFuseRevoke h _ => hdrOk h
  | .add core op => coreOk core && saluOk op
  | .sub core op => coreOk core && saluOk op
  | .addu core op => coreOk core && saluOk op
  | .subu core op => coreOk core && saluOk op
  | .neg core op => coreOk core && saluOk op
  | .abs core op => coreOk core && saluOk op
  | .min core op => coreOk core && saluOk op
  | .max core op => coreOk core && saluOk op
  | .and_ core op => coreOk core && saluOk op
  | .or_ core op => coreOk core && saluOk op
  | .xor_ core op => coreOk core && saluOk op
  | .andn core op => coreOk core && saluOk op
  | .shl core op => coreOk core && saluOk op
  | .shr core op => coreOk core && saluOk op
  | .sar core op => coreOk core && saluOk op
  | .srr core op => coreOk core && saluOk op
  | .mul core op => coreOk core && saluOk op
  | .mulu core op => coreOk core && saluOk op
  | .mov core op => coreOk core && saluOk op
  | .clz core op => coreOk core && saluOk op
  | .bfx core op => coreOk core && saluOk op
  | .addi core _ d x imm => coreOk core && reg5 d && reg5 x && sField 14 imm
  | .shiShl core op => coreOk core && shiOk op
  | .shiShr core op => coreOk core && shiOk op
  | .shiSar core op => coreOk core && shiOk op
  | .shiSrr core op => coreOk core && shiOk op
  | .movl core d imm => coreOk core && reg5 d && sField 19 imm
  | .movh core d imm => coreOk core && reg5 d && decide (imm < 65536)
  | .cmpi core x imm => coreOk core && reg5 x && sField 14 imm
  | .vadd core op => coreOk core && valuOk true op
  | .vsub core op => coreOk core && valuOk true op
  | .vneg core op => coreOk core && valuOk true op
  | .vabs core op => coreOk core && valuOk true op
  | .vmin core op => coreOk core && valuOk true op
  | .vmax core op => coreOk core && valuOk true op
  | .vand core op => coreOk core && valuOk true op
  | .vor core op => coreOk core && valuOk true op
  | .vxor core op => coreOk core && valuOk true op
  | .vshl core op => coreOk core && valuOk true op
  | .vshr core op => coreOk core && valuOk true op
  | .vsar core op => coreOk core && valuOk true op
  | .vsrr core op => coreOk core && valuOk true op
  | .vcmpeq core op => coreOk core && vcmpOk op
  | .vcmplt core op => coreOk core && vcmpOk op
  | .vcmple core op => coreOk core && vcmpOk op
  | .vsel core op => coreOk core && valuOk true op
  | .vmov core op => coreOk core && valuOk true op
  | .vbcst core op => coreOk core && valuOk true op
  | .vget core d x lane => coreOk core && vlaneOk d x lane
  | .vput core d x lane => coreOk core && vlaneOk d x lane
  | .vshiVshl core op => coreOk core && valuOk true op
  | .vshiVshr core op => coreOk core && valuOk true op
  | .vshiVsar core op => coreOk core && valuOk true op
  | .vshiVsrr core op => coreOk core && valuOk true op
  | .mpy core op => coreOk core && macOk op
  | .mac core op => coreOk core && macOk op
  | .msu core op => coreOk core && macOk op
  | .adep core _ _ d x => coreOk core && regA d && reg5 x
  | .aadd core op => coreOk core && aopOk op
  | .asub core op => coreOk core && aopOk op
  | .amov core _ d x => coreOk core && regA d && regA x
  | .aclr core _ d => coreOk core && regA d
  | .aget core d x lane _ => coreOk core && reg5 d && regA x && decide (lane < 8)
  | .aput core d x y lane => coreOk core && regA d && reg5 x && reg5 y && decide (lane < 8)
  | .ext core _ q d x sh _ toS => coreOk core && extOk q d x sh toS
  | .asr core _ d x cnt => coreOk core && ashOk d x cnt
  | .asrr core _ d x cnt => coreOk core && ashOk d x cnt
  | .asl core _ _ d x cnt => coreOk core && ashOk d x cnt
  | .ldb core d a => coreOk core && reg5 d && memOk a
  | .ldbu core d a => coreOk core && reg5 d && memOk a
  | .ldh core d a => coreOk core && reg5 d && memOk a
  | .ldhu core d a => coreOk core && reg5 d && memOk a
  | .ldw core d a => coreOk core && reg5 d && memOk a
  | .stb core d a => coreOk core && reg5 d && memOk a
  | .sth core d a => coreOk core && reg5 d && memOk a
  | .stw core d a => coreOk core && reg5 d && memOk a
  | .ldwv core d a => coreOk core && reg5 d && memOk a
  | .stwv core d a => coreOk core && reg5 d && memOk a
  | .ldv core d a => coreOk core && reg5 d && memOk a
  | .stv core d a => coreOk core && reg5 d && memOk a
  | .ldpn core d a => coreOk core && decide (d < 32) && memOk a
  | .stpn core d a => coreOk core && reg5 d && memOk a
  | .ldbl core d a => coreOk core && regBl d && memOk a
  | .stbl core d a => coreOk core && regBl d && memOk a
  | .lddw core d1 a d2 b => coreOk core && dualOk d1 a d2 b
  | .lddv core d1 a d2 b => coreOk core && dualOk d1 a d2 b
  | .bra core offset => coreOk core && sField 24 offset
  | .call core offset => coreOk core && sField 24 offset
  | .jr core _ d x => coreOk core && reg5 d && reg5 x
  | .bcc core cond offset => coreOk core && decide (cond < 15) && sField 19 offset
  | .loopr core x body => coreOk core && reg5 x && bodyOk body
  | .loopi core count body => coreOk core && decide (count < 65536) && bodyOk body
  | .getw core mask => coreOk core && decide (mask < 16)
  | .done core status fromReg => coreOk core && decide (status < 256) && (match fromReg with | some x => reg5 x | none => true)
  | .sig core d x y => coreOk core && reg5 d && reg5 x && reg5 y
  | .sigd core d x y flag _ => coreOk core && reg5 d && reg5 x && reg5 y && decide (flag < 16)
  | .ncan core d x => coreOk core && reg5 d && reg5 x
  | .arm core d x => coreOk core && reg5 d && reg5 x
  | .mqpush core d x y => coreOk core && reg5 d && reg5 x && reg5 y
  | .mqpop core d x => coreOk core && reg5 d && reg5 x
  | .mqpopKeyed core d x y => coreOk core && reg5 d && reg5 x && reg5 y
  | .mqmark core d x => coreOk core && reg5 d && reg5 x
  | .balloc core d x => coreOk core && reg5 d && reg5 x
  | .bfree core d x => coreOk core && reg5 d && reg5 x
  | .bgive core d x y => coreOk core && reg5 d && reg5 x && reg5 y
  | .xmovToLocal core d x y => coreOk core && reg5 d && reg5 x && reg5 y
  | .xmovToBuffer core d x y => coreOk core && reg5 d && reg5 x && reg5 y
  | .xwait core => coreOk core
  | .rdpmc core d n y => coreOk core && reg5 d && reg5 y && decide (n < 6)
  | .rdcyc core d y => coreOk core && reg5 d && reg5 y
  | .movxFromPn core d x => coreOk core && reg5 d && reg5 x
  | .movxToPn core d x => coreOk core && reg5 d && reg5 x
  | .movxFromBl core d x => coreOk core && reg5 d && regBl x
  | .movxToBl core d x => coreOk core && regBl d && reg5 x
  | .movxFromCf core d => coreOk core && reg5 d
  | .movxToCf core x => coreOk core && reg5 x
  | .movxFromSt core d => coreOk core && reg5 d
  | .movxFromSf core d => coreOk core && reg5 d
  | .nop core => coreOk core
  | .sfclr core x => coreOk core && reg5 x
  | .jesdRxSample port _ _ => decide (port < 8)
  | .ppsOutPulse => true
  | .ppsInLoss => true
  | .fabricParityError source _ => decide (source < 0x30)
  | .vddAonRemoval => true
  | .reservedRegisterRead _ off _ => offOk off
  | .illegalEncoding core _ => coreOk core
  | .serviceFifoPacket port => decide (port < 4)
  | .ptpMasterTransmit port => decide (port < 4)
  | .rtcpSenderReport flow => decide (flow < 16384)

end Sys2Proof
end

