-- ==== Sys2Proof/Tests/Slice0.lean ====
section
/-!
SUPPORT. Slice0.lean: the model's own tests: operands that the check of well-formed commands refuses, single steps whose results the spec's
rules give, and for each statement with hypotheses a state and operands that meet them.
-/

open Sys2Proof.Machine

namespace Sys2Proof.Tests

set_option Elab.async false

/-! ## States -/

/-- A device with some fields set, whose fuses are clear. -/
def device (fs : List (Fld × Nat)) : State := fs.foldl (fun s f => s.setFld f.1 f.2) { glb := { rollback := 0 } }

/-- A device that is READY, with KCI open and enabled, Bullpen on, and some fields set. -/
def up (fs : List (Fld × Nat)) : State :=
  { device ([(fGlbStatStep, 6), (fGlbStatReady, 1), (fHifCtlKciEn, 1), (fHifCqSizeEntries, 16), (fBullCtlEn, 1)] ++ fs) with
    hif := { isOpen := true } }

/-- A header without a fence or a fault. -/
def hdr : KciHdr := ⟨7, false, false, false, 0x1000⟩

/-- Settings of a node at class 1 of cluster 0 that posts of flag 0 satisfy. -/
def nset : NodeSet := ⟨1, false, 1, 0, false, 0, 6, 100, 0x400⟩

/-- A node that no event has satisfied. -/
def nodeD : NodeD := { set := nset, account := 3 }

/-- A core that runs node 5. -/
def core0 : Core :=
  { mode := .run, node := 5, pc := 0x400, ctxAddr := 0x20000, ctxPages := 1
    s := [(1, rv 5), (2, rv 0x80000000), (3, rv 7), (31, rv 0xFFFFFFFF)]
    v := [(8, rv 0x400000), (9, rv 0xFFC00000), (16, rv 0x7FFFFF)], a := [(0, { v := 0x7FFFFFFFFFFFFF, r := (0x7FFFFFFFFFFFFF : Nat) % 7 })] }

/-- Core 0 runs node 5 in a running cluster. -/
def running (fs : List (Fld × Nat)) : State :=
  { up fs with core := [(0, core0)], clu := [(0, { pwr := .run })], bull := { nodes := [(5, { nodeD with st := .running }), (6, nodeD)] } }

/-- A core outside a run, in its home program. -/
def homing (c : Core) : State := { up [] with core := [(0, { c with mode := .wait })], clu := [(0, { pwr := .run })] }

/-- The state that a command leaves. -/
def after (i : Instr) (s : State) : State := match exec i s with | .next t => t | _ => s

/-! ## Well-formed commands -/

/-- Each check refuses an operand outside its range, and takes the last one inside. -/
theorem test_wf_identifiers :
    (Instr.pllLock 7).wf = false ∧ (Instr.pllLock 6).wf = true ∧
    (Instr.servoUpdate 4 0).wf = false ∧ (Instr.servoUpdate 3 0).wf = true ∧
    (Instr.pathTimeout 16384 false).wf = false ∧ (Instr.pathTimeout 16383 false).wf = true ∧
    (Instr.headWindowRefill 65536).wf = false ∧ (Instr.headWindowRefill 65535).wf = true ∧
    (Instr.beat 8).wf = false ∧ (Instr.beat 7).wf = true ∧
    (Instr.timerFire 16384).wf = false ∧ (Instr.timerFire 16383).wf = true ∧
    (Instr.timerHeldRelease 16).wf = false ∧ (Instr.timerHeldRelease 15).wf = true ∧
    (Instr.nodeDispatch 16 false).wf = false ∧ (Instr.nodeDispatch 15 false).wf = true ∧
    (Instr.stealAgeExpiry 262144 true).wf = false ∧ (Instr.stealAgeExpiry 262143 true).wf = true ∧
    (Instr.budgetOverrun 256).wf = false ∧ (Instr.budgetOverrun 255).wf = true ∧
    (Instr.slotBoundary 8).wf = false ∧ (Instr.slotBoundary 7).wf = true ∧
    (Instr.uplinkEntryDelivery 480).wf = false ∧ (Instr.uplinkEntryDelivery 479).wf = true ∧
    (Instr.wlByeReceive 64).wf = false ∧ (Instr.wlByeReceive 63).wf = true ∧
    (Instr.replayBlockDelivery 16 false).wf = false ∧ (Instr.replayBlockDelivery 15 false).wf = true ∧
    (Instr.blockEraseComplete 256 0 true).wf = false ∧ (Instr.blockEraseComplete 255 0 true).wf = true := by
  decide +kernel

/-- Checks of lengths, offsets and headers. -/
theorem test_wf_shapes :
    (Instr.tempSample [0]).wf = false ∧ (Instr.tempSample (List.replicate 32 0)).wf = true ∧
    (Instr.headerDecoded 0 0 (List.replicate 35 false)).wf = false ∧ (Instr.headerDecoded 0 0 (List.replicate 36 false)).wf = true ∧
    (Instr.syncDetection 0 12 0 0 0 0).wf = false ∧ (Instr.syncDetection 0 11 24 63 511 0).wf = true ∧
    (Instr.umpireMergeExpiry 0 16 0).wf = false ∧ (Instr.umpireMergeExpiry 255 15 255).wf = true ∧
    (Instr.registerWrite .pcie 2 15 0 none).wf = false ∧ (Instr.registerWrite .pcie 0 16 0 none).wf = false ∧
    (Instr.registerWrite .pcie 0x4000000 15 0 none).wf = false ∧ (Instr.registerWrite .pcie 0x3FFFFFC 15 0 none).wf = true ∧
    (Instr.bar2Read 0xFFFFFFFF 2).wf = false ∧ (Instr.bar2Read 0xFFFFFFFE 2).wf = true ∧
    (Instr.bar2Write 0xFFFFFFFF [0, 0]).wf = false ∧
    (Instr.kciFetch 65536 0 0).wf = false ∧ (Instr.kciFetch 65535 65535 0xFFFFFFFF).wf = true ∧
    (Instr.smbusWrite 8 none 0x100000000 0).wf = false ∧
    (Instr.capStart { hdr with tag := 0x100000000 }).wf = false ∧ (Instr.capStart { hdr with raddr := 2 ^ 64 }).wf = false ∧ (Instr.capStart hdr).wf = true ∧
    (Instr.cfgStage hdr 0 0 1 [0]).wf = false ∧ (Instr.cfgStage hdr 0 (2 ^ 24) 1 (List.replicate 48 0)).wf = false ∧
    (Instr.cfgStage hdr 0 0 1 (List.replicate 48 0)).wf = true := by
  decide +kernel

/-- Checks of the fields of an instruction word (R247 to R268). -/
theorem test_wf_words :
    (Instr.add 256 ⟨false, 1, 2, 3, false⟩).wf = false ∧ (Instr.add 0 ⟨false, 32, 2, 3, false⟩).wf = false ∧
    (Instr.add 255 ⟨false, 31, 31, 31, true⟩).wf = true ∧
    (Instr.shiShl 0 ⟨false, 1, 2, 32⟩).wf = false ∧ (Instr.addi 0 false 1 2 8192).wf = false ∧ (Instr.addi 0 false 1 2 (-8192)).wf = true ∧
    (Instr.movl 0 1 262144).wf = false ∧ (Instr.movh 0 1 65536).wf = false ∧
    (Instr.vcmpeq 0 ⟨false, true, false, 1, 2, 3⟩).wf = false ∧ (Instr.vget 0 1 2 8).wf = false ∧
    (Instr.mac 0 ⟨false, true, 8, 2, 3, none⟩).wf = false ∧ (Instr.mac 0 ⟨false, true, 7, 2, 3, some 8⟩).wf = false ∧
    (Instr.aadd 0 ⟨false, true, 0, 8, 0⟩).wf = false ∧ (Instr.ext 0 false false 0 0 17 false false).wf = false ∧
    (Instr.ext 0 false true 0 0 0 false true).wf = false ∧ (Instr.asr 0 true 0 0 56).wf = false ∧
    (Instr.ldw 0 1 ⟨0, 0, 1, 0⟩).wf = false ∧ (Instr.ldw 0 1 ⟨0, 4, 0, 0⟩).wf = false ∧ (Instr.ldw 0 1 ⟨0, 1, -256, 0⟩).wf = true ∧
    (Instr.ldbl 0 8 ⟨0, 0, 0, 0⟩).wf = false ∧ (Instr.lddw 0 1 ⟨0, 0⟩ 1 ⟨1, 0⟩).wf = false ∧ (Instr.lddw 0 1 ⟨0, 0⟩ 2 ⟨0, 0⟩).wf = false ∧
    (Instr.bra 0 (2 ^ 23)).wf = false ∧ (Instr.bcc 0 15 0).wf = false ∧ (Instr.loopi 0 65536 1).wf = false ∧ (Instr.loopr 0 1 4097).wf = false ∧
    (Instr.getw 0 16).wf = false ∧ (Instr.done 0 256 none).wf = false ∧ (Instr.done 0 0 (some 32)).wf = false ∧ (Instr.sigd 0 1 2 3 16 false).wf = false ∧
    (Instr.rdpmc 0 1 6 2).wf = false ∧ (Instr.movxToBl 0 8 1).wf = false := by
  decide +kernel

/-! ## Single steps -/

/-- The tick of a time, and a comparison across the wrap (worked example of 02_media_time.md). -/
theorem test_media_tick :
    let s := { up [] with time := { t := 1750000000 * secUnit + 500000000 * nsUnit } }
    s.tick = 84000000024000 ∧ s.mtc = 3324616128 ∧ tickDiff 0x40 0xFFFFFF00 = 320 := by
  decide +kernel

/-- A core with -1 in lane 0 of V1 and an accumulator value in lane 0 of A2. -/
def guardCore (a : Acc) : Core :=
  { mode := .wait, pc := 0x400, v := [(8, rv 0xFF800000)], a := [(16, { v := a, r := res7 a.toInt })] }

/-- Lane 0 of A2, and SF, after a command on core 0. -/
def acc2 (i : Instr) (s : State) : Acc × BitVec 20 := ((((after i s).cor 0).aLane 2 0).v, ((after i s).cor 0).sf)

/-- The 256th MAC of -1 × -1 leaves the guard range (worked example of 08_media_core_arithmetic.md). -/
theorem test_mac_guard :
    acc2 (.mac 0 ⟨false, false, 2, 1, 1, none⟩) (homing (guardCore 0x7F000000000000)) = (0x7F800000000000, 0) ∧
    acc2 (.mac 0 ⟨false, false, 2, 1, 1, none⟩) (homing (guardCore 0x7F800000000000)) = (0x80000000000000, 1) ∧
    acc2 (.mac 0 ⟨true, false, 2, 1, 1, none⟩) (homing (guardCore 0x7F800000000000)) = (0x7FFFFFFFFFFFFF, 0x100) := by
  decide +kernel

/-- MSU brings a wrapped lane back to the exact sum (worked example of 08_media_core_arithmetic.md). -/
theorem test_msu_guard :
    acc2 (.msu 0 ⟨false, false, 2, 1, 1, none⟩) (homing (guardCore 0x80000000000000)) = (0x7F800000000000, 1) := by
  decide +kernel

/-- Lane 0 of V6 and SF after a command on core 0. -/
def lane6 (i : Instr) (s : State) : Word × BitVec 20 := ((((after i s).cor 0).vLane 6 0).v, ((after i s).cor 0).sf)

/-- Convergent ties and a rounding that saturates (worked example of 08_media_core_arithmetic.md). -/
theorem test_ext_ties :
    let extLane (sat : Bool) (a : Acc) := lane6 (.ext 0 sat false 6 2 0 false false) (homing (guardCore a))
    extLane true 0x00000002800000 = (2, 0) ∧ extLane true 0x00000003800000 = (4, 0) ∧ extLane true 0x00000002800001 = (3, 0) ∧
    extLane true 0xFFFFFFFE800000 = (0xFFFFFFFE, 0) ∧ extLane true 0xFFFFFFFF800000 = (0, 0) ∧
    extLane true 0x007FFFFF800000 = (0x7FFFFF, 0x100) ∧ extLane false 0x007FFFFF800000 = (0xFF800000, 0) := by
  decide +kernel

/-- MAC keeps the residue of its result, and an extract finds a flipped bit (worked example of 08_media_core_arithmetic.md). -/
theorem test_residues :
    let c : Core := { mode := .wait, pc := 0x400, v := [(32, rv 0x400000), (40, rv 0xFFC00000)], a := [(8, ⟨0x00100000000000, 4⟩)] }
    let t := after (.mac 0 ⟨false, false, 1, 4, 5, none⟩) (homing c)
    (t.cor 0).aLane 1 0 = ⟨0xFFF00000000000, 3⟩ ∧
    ((after (.ext 0 false false 6 1 0 false false) t).cor 0).vLane 6 0 = ⟨0xFFF00000, 3⟩ ∧
    let u := after (.ext 0 false false 6 1 0 false false) (homing { c with a := [(8, ⟨0xFFF10000000000, 3⟩)] })
    (u.cor 0).vLane 6 0 = {} ∧ u.fld (fCoreExcCode 0) = 6 := by
  decide +kernel

/-- The core of the shrinking delay line, with L0 and P0. -/
def delayCore (l p : Word) : Core := { (guardCore 0) with bl := [(0, 0x24000), (16, l)], pn := [(0, p), (16, 0x10), (17, 0xFFFFFFE0)] }

/-- P0 and SF after a command on core 0. -/
def pointer0 (i : Instr) (s : State) : Word × BitVec 20 := (((after i s).cor 0).pnReg 0, ((after i s).cor 0).sf)

/-- A circular pointer wraps both ways, and one that is out of range is reduced (worked example of 07_media_core_model.md). -/
theorem test_circular :
    let delayStep (l p : Word) (n : Nat) := pointer0 (.ldw 0 1 ⟨0, 2, 0, n⟩) (homing (delayCore l p))
    delayStep 0x180 0x24170 0 = (0x24000, 0) ∧ delayStep 0x180 0x24000 1 = (0x24160, 0) ∧ delayStep 0x100 0x24160 0 = (0x24070, sfCircFix) ∧
    (memAddr (delayCore 0x100 0x24160) ⟨0, 2, 0, 0⟩ 4).ea = 0x24060 := by
  decide +kernel

/-- A dead line codes as the worked example of 14_safety_capture.md gives it. -/
theorem test_pack_dead_line :
    packEncode 0 ((List.replicate 192 [0xE8, 0x03, 0x00]).flatten) =
      some ([0x50, 0x0E, 0x00, 0x00, 0x03, 0xE8] ++ List.replicate 23 0xFF ++ [0xFE] ++ List.replicate 258 0x00) := by
  decide +kernel

/-- AUX of the reception after a false lock (worked example of 13_beltpack_modem.md). -/
theorem test_rx_aux :
    rxAux { link := 209, start := 2880168, rec_ := ⟨209, 1, 0, 1, 0, 0, 0, 0, 0, 0, 0⟩, stage := .ended, status := 0, cur := some ⟨32, 81, 191, 0⟩
            hdr := some ⟨2, 0, 11, 3⟩, false_ := true, iter := 6 } 0 = 0x21846BF0 := by
  decide +kernel

/-- The jitter buffer of 04_media_queues.md before its late packet. -/
def jitter : Queue :=
  { mode := .ordered, depth := 32, retain := 0, account := 0, lastKey := 1000000, lastValid := true
    held := [⟨{ nobuf := true, seq := 20602, key := 1000024 }, 0, 0⟩, ⟨{ nobuf := true, seq := 20603, key := 1000036 }, 0, 0⟩] }

/-- A late copy goes ahead of the later keys, a copy of a held key is a duplicate, and one at LAST_KEY is late. -/
theorem test_ordered_push :
    let s := { up [] with mq := [(0x413, jitter)] }
    let push (k n : Nat) : Option (List Nat × Nat × Nat) :=
      ((mqPush 0x413 { nobuf := true, seq := n, key := k } s).queue? 0x413).map (fun q => (q.held.map (fun i => i.e.key), q.n.dup, q.n.late))
    push 1000012 20601 = some ([1000012, 1000024, 1000036], 0, 0) ∧ push 1000036 20603 = some ([1000024, 1000036], 1, 0) ∧
    push 1000000 20600 = some ([1000024, 1000036], 0, 1) := by
  decide +kernel

/-- The spill reservation of Floor Manager 2's talkback is 95 KiB (worked example of 04_media_queues.md). -/
theorem test_spill : spillKib .fifo 4096 2000 = 95 := by decide +kernel


/-! ## States that meet the statements' hypotheses -/

/-- Lanes with no stored value are zero with a good residue. -/
theorem good_zero (x l : Nat) : (({} : Core).vLane x l).good = true ∧ (({} : Core).aLane x l).good = true := ⟨rfl, rfl⟩

/-- A property of eight lanes holds on the lanes that Q selects. -/
theorem on_lanes (P : Nat → Bool) (h : ∀ l, l < 8 → P l = true) (q : Bool) : ∀ l, selects q l = true → P l = true := by
  intro l hl
  unfold selects at hl
  exact h l (of_decide_eq_true (Bool.and_eq_true _ _ ▸ hl).1)

/-- ScalarAluResults and ImmediateResults: operands at the ends of their ranges, and S0 as the destination. -/
theorem witness_scalar :
    let s := running []
    runs s 0 = true ∧ saluOk ⟨true, 31, 31, 2, true⟩ = true ∧ saluOk ⟨false, 0, 0, 0, false⟩ = true ∧
    ((s.cor 0).sReg 31).good = true ∧ ((s.cor 0).sReg 2).good = true ∧ ((s.cor 0).sReg 0).good = true ∧
    shiOk ⟨true, 31, 2, 31⟩ = true ∧ shiOk ⟨false, 0, 0, 0⟩ = true ∧ runs (homing core0) 0 = true := by
  decide +kernel

/-- VectorAluResults and VectorCompareResults: every lane of both sources, at W24 and at W32. -/
theorem witness_vector :
    let s := running []
    runs s 0 = true ∧ valuOk true ⟨true, true, true, 31, 1, 2⟩ = true ∧ valuOk false ⟨false, false, false, 0, 1, 2⟩ = true ∧
    valuOk true ⟨false, true, true, 0, 1, 2⟩ = true ∧
    (∀ l, selects true l = true → (((s.cor 0).vLane 1 l).good && ((s.cor 0).vLane 2 l).good) = true) ∧ ((s.cor 0).sReg 2).good = true := by
  refine ⟨by decide +kernel, by decide, by decide, by decide, ?_, by decide +kernel⟩
  exact on_lanes _ (by decide +kernel) true

/-- MultiplyResults, AccumulatorResults and ExtractionResults: accumulator 0 at the end of its range, and all eight lanes. -/
theorem witness_accumulator :
    let s := running []
    runs s 0 = true ∧ macOk ⟨true, true, 0, 1, 2, some 7⟩ = true ∧ macOk ⟨false, false, 7, 31, 31, none⟩ = true ∧ aopOk ⟨true, true, 7, 0, 1⟩ = true ∧
    (∀ l, selects true l = true → (((s.cor 0).aLane 0 l).good && ((s.cor 0).aLane 1 l).good && ((s.cor 0).vLane 1 l).good &&
      ((s.cor 0).vLane 2 7).good) = true) := by
  refine ⟨by decide +kernel, by decide, by decide, by decide, ?_⟩
  exact on_lanes _ (by decide +kernel) true

/-- AddressModes: a pointer outside a circular range that ends at the top of the address space, and a linear one. -/
theorem witness_addresses :
    let c : Core := { bl := [(0, 0xFFFFFF00), (16, 0x100)], pn := [(0, 0x40), (8, 0xFFFFFFFF)] }
    c.blReg 16 ≠ 0 ∧ (c.blReg 0).toNat + (c.blReg 16).toNat ≤ 2 ^ 32 ∧ c.blReg (16 + 1) = 0 := by
  decide +kernel

/-- A running core with a pointer into the last word of its page, and one into shared data RAM. -/
def pointing : State :=
  let s := running []
  { s with core := [(0, { core0 with pn := [(0, 0x21FE0), (1, 0x1FFFE0), (2, 0x20000)] })] }

/-- LoadResults and StoreResults: the last vector of the node's page, and the last of shared data RAM. -/
theorem witness_memory :
    let s := pointing
    let a := memAddr (s.cor 0) ⟨0, 3, 255, 0⟩ 32
    let b := memAddr (s.cor 0) ⟨1, 0, 0, 15⟩ 32
    runs s 0 = true ∧ memOk ⟨0, 3, 255, 0⟩ = true ∧ memOk ⟨1, 0, 0, 15⟩ = true ∧ reg5 31 = true ∧ regBl 23 = true ∧
    accessOk s 0 a.ea 32 = true ∧ settled s 0 a.ea 32 = true ∧ accessOk s 0 b.ea 32 = true ∧ settled s 0 b.ea 32 = true ∧
    ((List.range 8).all (fun l => ((s.cor 0).vLane 1 l).good)) = true := by
  decide +kernel

/-- The tables of loads, stores and dual loads have rows. -/
theorem witness_memory_rows :
    IsLoad (.ldbl, 4, regBl, fun d bs c => c.setBl d (BitVec.ofNat 32 (leNat bs))) ∧
    IsStore (.stbl, 4, regBl, fun d c => leBytes 4 (c.blReg d).toNat, fun _ _ => true) ∧ IsDualLoad (.lddv, 32, putVector) := by
  refine ⟨?_, ?_, ?_⟩
  · unfold IsLoad; simp
  · unfold IsStore; simp
  · unfold IsDualLoad; simp

/-- DualLoadResults: two vectors of the node's page. -/
theorem witness_dual :
    let s := pointing
    let a := dualAddr (s.cor 0) ⟨0, 1⟩ 32
    let b := dualAddr (s.cor 0) ⟨2, 0⟩ 32
    runs s 0 = true ∧ dualOk 31 ⟨0, 1⟩ 0 ⟨2, 0⟩ = true ∧ localOk (s.cor 0) a.ea 32 = true ∧ localOk (s.cor 0) b.ea 32 = true ∧
    accessOk s 0 a.ea 32 = true ∧ accessOk s 0 b.ea 32 = true ∧ settled s 0 a.ea 32 = true ∧ settled s 0 b.ea 32 = true := by
  decide +kernel

/-- BranchResults and LoopResults: a transfer inside a loop body, with a free level, and the end of a body with one and with two iterations left. -/
theorem witness_loops :
    let c (left last : Nat) : Core := { core0 with loops := [{ first := 0x3F0, last := last, left := left }] }
    let s := { running [] with core := [(0, c 2 0x410)] }
    runs s 0 = true ∧ bodyEndFree s 0 = true ∧ (s.cor 0).loops.length < 2 ∧
    (c 2 0x410).loops = [{ first := 0x3F0, last := 0x410, left := 2 }] ∧ (0x410 : Nat) ≠ core0.pc ∧ (0x400 : Nat) = core0.pc ∧ (1 : Nat) < 2 := by
  decide +kernel

/-- RegisterMoves: a counter that user code may read, and one that it may not. -/
theorem witness_register_moves :
    let s := running [((fPmuUenMask 0).bit 5, 1)]
    runs s 0 = true ∧ ((s.cor 0).sReg 31).good = true ∧ regBl 23 = true ∧ s.flag ((fPmuUenMask 0).bit 5) = true ∧
    s.flag ((fPmuUenMask 0).bit 0) = false := by
  decide +kernel

/-- A run whose registers name node 6, queue 9, buffer 8 and account 3, with a pool of 1,024 granules. -/
def calling (ops : List RunOp) : State :=
  let s := running [(fSeedPoolGranCount, 1024)]
  { s with
    core := [(0, { core0 with run := { ops := ops, nMq := 63, nBull := 63, nSeed := 63 }
                              s := [(1, rv 6), (2, rv 0x7FFF), (3, rv 9), (4, rv 8), (5, rv 3), (6, rv 4096), (7, rv 0x10), (8, rv 0x20000), (9, rv 0x01000000)] })]
    mq := [(9, { mode := .fifo, depth := 16, retain := 4, account := 1, held := [⟨{ nobuf := true, key := 100, seq := 1 }, 0, 0⟩] }),
           (10, { mode := .ordered, depth := 16, retain := 0, account := 1 })]
    seed := { tags := [(8, { last := true, st := .run, owner := 3, rcount := 1 })], accts := [(3, { kind := .node, quota := 17, held := 1 })]
              freeA := 1023, ownedA := 1, freeB := 1023, ownedB := 1 } }

/-- RecordedOperations: the 64th pending operation of each unit. -/
theorem witness_recorded :
    let s := calling []
    let c := s.cor 0
    runs s 0 = true ∧ c.mode = .run ∧ c.run.nBull < 64 ∧ sNat c 1 < 2 ^ 18 ∧ sNat c 2 % 65536 < 2 ^ 15 ∧ sNat c 2 % 65536 ≠ 0 ∧ sNat c 2 ≤ 2 ^ 31 - 2 ∧
    c.run.nMq < 64 ∧ sNat c 3 < 65536 ∧ (s.queue? (sNat c 3)).map (fun q => q.retain) = some 4 ∧
    (entryOf (c.vLane 0 0).v (c.vLane 0 1).v (c.vLane 0 2).v (c.vLane 0 3).v).len ≤ 4096 ∧
    c.run.nSeed < 64 ∧ badHandle s (sNat c 4) = false ∧ sNat c 5 < 4096 := by
  decide +kernel

/-- RecordedOperations: the run of a canceller and of a mixer whose queue is not open, a fade, and a block. -/
theorem witness_kml_runs :
    (let u := putCtx 0 4 0 (putCtx 0 0 0x0E01 (running []))
     ctxBad u 0 = false ∧ (mapFind? (u.cor 0).node u.kml).isNone = true ∧ (u.cor 0).run.ops = [] ∧ (u.cor 0).run.kml.isNone = true ∧ ctxBits u 0 0 0 16 = 0x0E01 ∧
     ctxBits u 0 4 8 1 = 0 ∧ (u.queue? (ctxBits u 0 8 0 16)).isNone = true) ∧
    (let u := putCtx 0 0 0x0B01 (running [])
     ctxBad u 0 = false ∧ ctxBits u 0 0 0 16 = 0x0B01 ∧ (u.queue? (ctxBits u 0 8 0 16)).isNone = true) ∧
    (let x : Xpoint := ⟨0, 0, 0, 0, 4096, 0, 8⟩
     x.n = 0 ∧ 0 < x.len ∧ (5 : Int) ≠ x.to_ ∧ (⟨0, 0, 0, 0, 4096, 8, 8⟩ : Xpoint).len ≤ 8) ∧ (List.replicate 192 (0 : Int)).length = 192 := by
  refine ⟨by decide +kernel, by decide +kernel, by decide +kernel, List.length_replicate ..⟩

/-- A fade of eight samples goes half way at the fourth (R309). -/
theorem test_fade : (⟨0, 0, 0, 0, 4096, 4, 8⟩ : Xpoint).gain = 2048 ∧ (⟨0, 0, 0, 0, 4096, 8, 8⟩ : Xpoint).gain = 4096 := by decide +kernel

/-- PopResults: a head item, with a mark pending in the run, a bound that it meets and one that it does not, an empty queue, and an ASYNC queue whose item
is older than the cycle. -/
theorem witness_pop :
    let s := calling [.mark 9]
    runs s 0 = true ∧ (s.cor 0).mode = .run ∧ (s.cor 0).run.nMq < 64 ∧ sNat (s.cor 0) 3 < 65536 ∧
    (s.queue? (sNat (s.cor 0) 3)).map (fun q => (decide (q.mode ≠ .async), q.held.map (fun i => i.e.key))) = some (true, [100]) ∧
    tickDiff 100 (sNat (s.cor 0) 6) ≤ 0 ∧ 0 < tickDiff 100 (sNat (s.cor 0) 2 % 2 ^ 7 - 28) ∧ (s.queue? 10).map (fun q => q.held) = some [] ∧
    (⟨{ nobuf := true, key := 100, seq := 1 }, 0, 0⟩ : Item).at_ ≠ { s with clk := 1 }.clk := by
  decide +kernel

/-- The two forms of a pop. -/
theorem witness_pop_forms :
    IsPop 0 1 3 ((calling []).cor 0) (.mqpop 0 1 3) none ∧ IsPop 0 1 3 ((calling []).cor 0) (.mqpopKeyed 0 1 3 6) (some 4096) :=
  ⟨Or.inl ⟨rfl, rfl⟩, Or.inr ⟨6, by decide, rfl, by decide +kernel⟩⟩

/-- AllocationResults: an account that can take 16 more granules, asked for 4,096 bytes, and one that cannot. -/
theorem witness_allocation :
    let s := calling []
    let t := { s with seed := { s.seed with accts := [(3, { kind := .node, quota := 16, held := 1 })] } }
    runs s 0 = true ∧ (s.cor 0).run.nSeed < 64 ∧ 0 < sNat (s.cor 0) 6 ∧ sNat (s.cor 0) 6 ≤ 4096 ∧ runAccount s 0 = 3 ∧
    (s.acct 3).held + (sNat (s.cor 0) 6 + 255) / 256 ≤ (s.acct 3).quota ∧ (sNat (s.cor 0) 6 + 255) / 256 ≤ s.seed.freeA ∧
    runs t 0 = true ∧ (t.acct 3).quota < (t.acct 3).held + (sNat (t.cor 0) 6 + 255) / 256 ∧ poolSize t ≠ 0 ∧
    { s with seed := { s.seed with freeA := 15 } }.seed.freeA < (sNat (s.cor 0) 6 + 255) / 256 ∧
    poolSize { t with regs := [] } = 0 := by
  decide +kernel

/-- MoveResults: a move of the whole of a granule into the node's page, and one of no bytes. -/
theorem witness_move :
    let s := calling []
    runs s 0 = true ∧ (s.cor 0).mode = .run ∧
    moveOk s 0 (moveOf (s.cor 0) false 8 4 9) (sNat (s.cor 0) 4) (sNat (s.cor 0) 9) = true ∧ (moveOf (s.cor 0) false 8 4 9).len = 256 ∧
    moveOk s 0 (moveOf (s.cor 0) true 8 4 0) (sNat (s.cor 0) 4) (sNat (s.cor 0) 0) = true ∧ (moveOf (s.cor 0) true 8 4 0).len = 0 ∧
    bodyEndFree s 0 = true := by
  decide +kernel

/-- RunBoundaries: a core outside a run, a run with a move outstanding, and one that may end. -/
theorem witness_boundaries :
    let s := running []
    let t := { s with core := [(0, { core0 with moves := [⟨0x20000, 8, 0, 4, false, []⟩] })] }
    (runs (homing core0) 0 = true ∧ bodyEndFree (homing core0) 0 = true ∧ ((homing core0).cor 0).mode ≠ .run) ∧
    (runs t 0 = true ∧ (t.cor 0).mode = .run ∧ (t.cor 0).moves ≠ []) ∧
    runs s 0 = true ∧ bodyEndFree s 0 = true ∧ (s.cor 0).mode = .run ∧ (s.cor 0).moves = [] ∧ (s.cor 0).run.ops = [] ∧
    (s.node? (s.cor 0).node).map (fun d => (decide (d.st = .running), satisfied d)) = some (true, false) ∧ (spareCores s 0).contains 0 = false := by
  decide +kernel

/-- ExceptionsRecorded: a core in a run, one in its home program, fetches that fail, and a register with a wrong residue. -/
theorem witness_exceptions :
    (canIssue (running []) 0 = true ∧ fetchExc (running []) 0 ((running []).cor 0).pc = none ∧ ((running []).cor 0).mode = .run) ∧
    (canIssue (homing core0) 0 = true ∧ fetchExc (homing core0) 0 ((homing core0).cor 0).pc = none ∧ ((homing core0).cor 0).mode = .wait) ∧
    (let s := homing { core0 with pc := 0x402 }
     canIssue s 0 = true ∧ (fetchExc s 0 (s.cor 0).pc).map (fun e => e.code) = some 9) ∧
    (let s := { running [(fUmpCtlEccEn, 1)] with clu := [(0, { pwr := .run, badCode := [(0x400, ())] })] }
     canIssue s 0 = true ∧ (fetchExc s 0 (s.cor 0).pc).map (fun e => e.code) = some 7) ∧
    (let s := homing { core0 with s := [(1, { v := 5, r := 4 })] }
     runs s 0 = true ∧ ((s.cor 0).sReg 1).good = false) := by
  decide +kernel

/-- A fetch of a bad code word raises ECC in place of the instruction, and a wrong residue sets SF.RES_ERR (R216, R243). -/
theorem test_exceptions :
    (after (.nop 0) { running [(fUmpCtlEccEn, 1)] with clu := [(0, { pwr := .run, badCode := [(0x400, ())] })] }).fld (fCoreExcCode 0) = 7 ∧
    ((after (.sfclr 0 1) (homing { core0 with s := [(1, { v := 5, r := 4 })] })).cor 0).sf = sfResErr := by
  decide +kernel

/-- A NODE.LOAD whose every operand is at the end of its range. -/
def loadOp : NodeOp := ⟨262143, 65535, 1, 3, 15, 1, 2, 262143, 65535, 0xFFFFFFFF, 0x3FFFFF0 - 0x100, 4095⟩

/-- Node 5 in a state of its own, among nodes that events find. -/
def withNode (d : NodeD) : State := { up [] with bull := { nodes := [(5, d), (6, nodeD)] } }

/-- NodeLifetime: an EMPTY node, a DISARMED one without and with a write-back, and a member of a generator. -/
theorem witness_node_lifetime :
    NodeLegal loadOp ∧ (let s := withNode nodeD
      kciReady 0x0201 hdr (keyNode 262143) s = true ∧ s.flag fBullCtlEn = true ∧ (s.node? 262143).isNone = true ∧
      kciReady 0x0205 hdr (keyNode 262143) s = true ∧
      kciReady 0x0207 hdr (keyNode 5) s = true ∧ kciReady 0x0202 hdr (keyNode 5) s = true ∧ kciReady 0x0206 hdr (keyNode 5) s = true ∧
      kciReady 0x0208 hdr (keyNode 5) s = true ∧
      (s.node? 5).map (fun d => (decide (d.st = .disarmed), d.unloading, d.beatgen, d.writeBack)) = some (true, false, none, none) ∧
      s.bull.timers = [] ∧ (s.gen 7).members.length < 65536) ∧
    ((withNode { nodeD with writeBack := some [0] }).node? 5).map (fun d => d.writeBack) = some (some [0]) ∧
    ((withNode { nodeD with beatgen := some 7 }).node? 5).map (fun d => d.beatgen) = some (some 7) := by
  refine ⟨?_, by decide +kernel, by decide +kernel, by decide +kernel⟩
  unfold NodeLegal; decide +kernel

/-- A ready store of cluster 0 that is full. -/
def fullStore : List (Nat × List ReadyEnt) := [(0, List.replicate 4096 ⟨9, 0, false⟩)]

/-- NodeSignals: an arm that finds its node satisfied, with room and without, a post that satisfies, and each state of a cancel. -/
theorem witness_node_signals :
    (let s := withNode { nodeD with flags := 1 }
     kciReady 0x0203 hdr (keyNode 5) s = true ∧ s.flag fBullCtlEn = true ∧ storeFull s 0 = false ∧
     (s.node? 5).map (fun d => (decide (d.st = .disarmed), satisfied d, d.unloading)) = some (true, true, false) ∧
     storeFull { s with bull := { s.bull with ready := fullStore } } 0 = true) ∧
    (let s := withNode { nodeD with st := .armed }
     kciReady 0x0205 hdr (keyNode 5) s = true ∧ kciReady 0x0204 hdr (keyNode 5) s = true ∧ noUnload s = true ∧
     (s.node? 5).map (fun d => (readies 1 d, readies 2 d, readies 0x7FFF d, d.staged.isNone)) = some (true, false, true, true)) ∧
    (∀ st ∈ [NodeSt.disarmed, .ready, .running, .cancelPending, .aborting],
      kciReady 0x0204 hdr (keyNode 5) (withNode { nodeD with st := st }) = true) := by
  decide +kernel

/-- QueueCommands: both ends of the spill region, a marked queue with and without retained items, and one without a valid mark. -/
theorem witness_queues :
    QueueLegal ⟨65535, 1, 65535, 16384, 4095⟩ ∧ QueueLegal ⟨0, 3, 64, 0, 0⟩ ∧
    (let s := { up [(fMqSpillSizeMib, 64)] with
        mq := [(9, { mode := .fifo, depth := 16, retain := 4, account := 1, markSet := true, markValid := true, retained := [⟨{ nobuf := true, key := 3 }, 0, 0⟩] }),
               (10, { mode := .fifo, depth := 16, retain := 4, account := 1, markSet := true, markValid := true }),
               (11, { mode := .fifo, depth := 16, retain := 4, account := 1, markSet := true, markLost := true })] }
     kciReady 0x0501 hdr (keyQueue 65535) s = true ∧ (s.queue? 65535).isNone = true ∧
     spillUsed s + spillKib .fifo 65535 16384 ≤ s.fld fMqSpillSizeMib * 1024 ∧
     (up []).fld fMqSpillSizeMib * 1024 < spillUsed (up []) + spillKib .fifo 65535 16384 ∧
     kciReady 0x0502 hdr (keyQueue 9) s = true ∧ flowNames s 9 = false ∧ pendingOn s 9 = false ∧
     kciReady 0x0503 hdr (keyQueue 9) s = true ∧ kciReady 0x0504 hdr (keyQueue 9) s = true ∧ pendingPops s 9 = 0 ∧ kciReady 0x0505 hdr (keyQueue 9) s = true ∧
     (s.queue? 9).map (fun x => (x.retain, x.markSet, x.markValid, x.retained.length)) = some (4, true, true, 1) ∧
     (s.queue? 10).map (fun x => (x.markSet, x.markValid, x.retained.length)) = some (true, true, 0) ∧
     (s.queue? 11).map (fun x => (x.markSet, x.markValid)) = some (true, false)) := by
  refine ⟨?_, ?_, by decide +kernel⟩ <;> (unfold QueueLegal; decide +kernel)

/-- TimerCommands: a timer at the ends of its ranges, one that stands, and a generator that runs. -/
theorem witness_timers :
    TimerLegal ⟨15, 5, 14, true, 2 ^ 31 - 2, 1, 1, 0xFFFFFFFF⟩ ∧ BeatLegal ⟨7, 1, 65535, 14, 0xFFFFFFFF⟩ ∧
    (let s := { withNode nodeD with bull := { nodes := [(5, nodeD)], timers := [(3, ⟨0, 5, 0, 96, false, true, 1, 0, 0, false⟩)]
                                              beats := [(7, { en := true, q := 12, next := 12 })] } }
     s.flag fBullCtlEn = true ∧ kciReady 0x0601 hdr none s = true ∧ (s.node? 5).map (fun d => d.unloading) = some false ∧
     s.bull.timers.length < 16384 ∧ kciReady 0x0602 hdr (keyTimer 3) s = true ∧ (mapFind? 3 s.bull.timers).isSome = true ∧
     kciReady 0x0603 hdr none s = true ∧ (s.gen 7).en = true ∧ (s.gen 0).en = false) := by
  refine ⟨?_, ?_, by decide +kernel⟩
  · unfold TimerLegal; decide +kernel
  · unfold BeatLegal; decide +kernel

/-- A device whose timers are all in use. -/
theorem witness_timers_full : 16384 ≤ (List.replicate 16384 (0, (⟨0, 5, 0, 96, false, true, 1, 0, 0, false⟩ : Timer))).length := by
  rw [List.length_replicate]

/-- AccountCommands: a PORT account of a block of its own, an open account that takes a new quota, one of another kind, one that holds and one that does
not. -/
theorem witness_accounts :
    AccountLegal ⟨4095, 3, 2 ^ 24, 0, 0x40⟩ ∧ AccountLegal ⟨1, 4, 0, 63, 0⟩ ∧
    (let s := { up [] with seed := { accts := [(1, { kind := .group, quota := 4, held := 2, releases := 3 }), (2, { kind := .node, quota := 4 })] } }
     kciReady 0x0C02 hdr (keyAccount 4095) s = true ∧ (s.acct 4095).kind = .closed ∧ soleAttached s 4095 0x40 = true ∧
     kciReady 0x0C02 hdr (keyAccount 1) s = true ∧ (s.acct 1).kind = kindOf 4 ∧ (s.acct 2).kind ≠ .closed ∧ (s.acct 2).kind ≠ kindOf 4 ∧
     kciReady 0x0C03 hdr (keyAccount 2) s = true ∧ acctNamed s 2 = false ∧ (s.acct 2).held = 0 ∧
     kciReady 0x0C03 hdr (keyAccount 1) s = true ∧ acctNamed s 1 = false ∧ 0 < (s.acct 1).held ∧ kciReady 0x0C04 hdr (keyAccount 1) s = true) := by
  refine ⟨?_, ?_, by decide +kernel⟩ <;> (unfold AccountLegal; decide +kernel)

/-- An image that passes every check of its header. -/
def image (slot rollback : Nat) : BootImage := ⟨0x4B474249, 1, slot, rollback, 1, 64, 0, true, true⟩

/-- OpenAndFuses: KCI not yet open, and a running image whose rollback value is above and at that of the fuses. -/
theorem witness_open_and_fuses :
    (let s := { up [] with hif := {} }
     kciReady 0x0C01 hdr none s = true ∧ s.hif.isOpen = false ∧ 0 ≤ s.fld fHifKciVerMinor) ∧
    (let s := { up [] with glb := { rollback := 4, image := some (image 3 5) } }
     kciReady 0x0C05 hdr none s = true ∧ kciReady 0x0C06 hdr none s = true ∧ s.glb.image = some (image 3 5) ∧ s.glb.rollback < (image 3 5).rollback ∧
     (image 3 5).keySlot ≠ 0 ∧ (image 3 5).keySlot = 3) ∧
    (image 3 5).rollback ≤ ({ rollback := 5, image := some (image 3 5) } : GlbSt).rollback := by
  decide +kernel

/-- TimeCommands: an armed and a free-running servo, a host that sets the rate, a refused step, and a configuration of the boundary role. -/
theorem witness_time_commands :
    (let s := up [(fTimeCtlSrc, 2)]
     kciReady 0x0901 hdr none s = true ∧ s.time.armed = false ∧ s.fld fTimeCtlSrc ≠ 0 ∧ kciReady 0x0902 hdr none s = true ∧ s.fld fTimeCtlSrc = 2 ∧
     -rateMax ≤ rateMax) ∧
    (let s := { up [(fTimeCtlSrc, 1)] with time := { armed := true, hoCause := 2, servo := .holdover } }
     kciReady 0x0901 hdr none s = true ∧ s.time.armed = true ∧ s.fld fTimeCtlSrc ≠ 2 ∧ kciReady 0x0903 hdr none s = true ∧ s.time.hoCause = 2 ∧
     s.time.auth = none) ∧
    (let c : PtpConfig := ⟨2, 0, 15, 127, -3, 0, 0, 3, 128, 128, [6, 7, 52, 187, 248, 255]⟩
     firstErr (ptpChecks 64 c) = none ∧ kciReady 0x0904 hdr none (up []) = true) ∧
    (let c : PtpConfig := ⟨0, 0, 4, 127, -3, 0, 0, 3, 128, 128, [6, 7, 52, 187, 248, 255]⟩
     let s := { up [] with time := { slave := some 3, servo := .locked, announces := [(3, ⟨127, 128, 6, 33, 100, 128, 1, 0, 37⟩)] } }
     firstErr (ptpChecks 64 c) = none ∧ kciReady 0x0904 hdr none s = true ∧ s.time.slave ≠ none ∧ ptpDrives s = true ∧ s.time.servo = .locked ∧
     s.time.announces.filter (fun a => c.ports.testBit a.1 && a.2.domain == c.domain) = [] ∧
     bestMaster { s with time := { s.time with cfg := c, announces := [] } } = none) := by
  decide +kernel

/-- ResetResults: a register write that resets, with a device in reset by its trip and one that is not. -/
theorem witness_resets :
    reaches (up []) fGlbRstSys.addr = true ∧ ((1 : Word).getLsbD 0) = true ∧ (up []).glb.tripped = false ∧
    ({ up [] with glb := { rollback := 0, tripped := true } } : State).glb.tripped = true := by
  decide +kernel

/-- BringUpSteps: every step, a step 4 that failed, a pushed image, and a register access that pushes one. -/
theorem witness_bring_up :
    (∀ n ∈ [1, 2, 3, 4, 5, 6, 7], (device [(fGlbStatStep, n)]).fld fGlbStatStep = n ∧ (device [(fGlbStatStep, n)]).glb.tripped = false) ∧
    (device [(fGlbStatStep, 4)]).fld fGlbStatFail ≠ 1 ∧ (device [(fGlbStatStep, 4), (fGlbStatFail, 1)]).fld fGlbStatFail = 1 ∧
    (device [(fGlbStatStep, 6)]).ready = false ∧ imageCheck (device [(fGlbStatStep, 5)]) { image 0 0 with magic := 0 } ≠ 0 ∧
    reaches (device [(fGlbStatStep, 7)]) fHifBootPushGo.addr = true := by
  decide +kernel

/-- An image whose key is the fused one passes, where its slot has not been revoked. -/
theorem witness_image (h : Config.revoked 0 = false) : imageCheck (device []) { image 0 0 with keyHash := Config.keyHash 0 } = 0 := by
  simp [imageCheck, slotRevoked, image, device, mapFind?, h]

/-- FatalEvents: ECC enabled, an instruction outstanding, and a service core that restarts. -/
theorem witness_fatal :
    (let s := { up [(fUmpCtlEccEn, 1)] with hif := { isOpen := true, outst := [⟨7, 0x0101, 0⟩, ⟨8, 0x0101, 0⟩] } }
     s.glb.tripped = false ∧ s.flag fUmpCtlEccEn = true ∧ s.ready = true ∧ s.glb.svcDown = false ∧ (s.hif.outst.map (fun o => (o.tag, o.op))).Nodup) ∧
    ({ up [] with glb := { rollback := 0, svcDown := true } } : State).glb.svcDown = true := by
  decide +kernel

/-- MonitorSamples: a temperature, a voltage in its fourth sample outside, and a process count below the floor, at the last monitor of each. -/
theorem witness_monitors :
    (let qs : List Int := List.replicate 32 500
     qs[31]? = some 500 ∧ qs.length ≤ 32 ∧ 4 * (device [(fAonTempThrWarn, 110)]).fld fAonTempThrWarn ≤ 500 ∧ (device []).fld (fAonTmonWarn 31) = 0) ∧
    (let s := { device [(fAonVwinLo 23, 700), (fAonVwinHi 23, 900)] with ump := { voltOut := [(23, 3)] } }
     (List.replicate 24 950)[23]? = some 950 ∧ mapGet 0 23 s.ump.voltOut = 3 ∧ s.fld (fAonVwinHi 23) < 950 ∧ s.fld (fAonVwinLo 23) ≤ 800) ∧
    (let s := device [(fAonPmonFloorCount, 1000)]
     (List.replicate 16 999)[15]? = some 999 ∧ 999 < s.fld fAonPmonFloorCount ∧ (mapFind? 15 s.ump.procLow).isNone = true) := by
  decide +kernel

/-- A CORRECTED record that may be written. -/
def heldRec : UmpHold := { source := 0x20, core := 3, cause := 1, seq := 2, node := 0, acct := 0, mtc := 9, detail := 0, rep := 4, since := 0 }

/-- UmpireRecords: a record whose millisecond is over with room in the ring, scrubbers on, a spare that a test may fail. -/
theorem witness_umpire :
    (let s := { up [(fUmpRingSizeEntries, 65535), (fUmpRingHeadIndex, 65534)] with ump := { held := [heldRec] }, clk := 25000 }
     s.ump.held.find? (fun x => x.source == 0x20 && x.core == 3 && x.cause == 1) = some heldRec ∧ s.ump.held.Nodup ∧ heldRec.since + 25000 ≤ s.clk ∧
     ringFull (s.fld fUmpRingHeadIndex) (s.fld fUmpRingTailIndex) (s.fld fUmpRingSizeEntries) = true ∧
     ringFull 0 0 (s.fld fUmpRingSizeEntries) = false) ∧
    (let s := { up [(fUmpCtlEn, 1), (fUmpCtlEccEn, 1), (fUmpScrubSramMs, 10), (fUmpScrubHbmMin, 10), (fUmpSpareTestSec, 1)] with
        clu := [(0, { pwr := .run })] }
     s.ready = true ∧ s.flag fUmpCtlEn = true ∧ s.flag fUmpCtlEccEn = true ∧ s.flag fUmpScrubSramMs = true ∧ s.flag fUmpScrubHbmMin = true ∧
     s.flag fUmpSpareTestSec = true ∧ inSpare s 15 = true ∧ (s.cl 0).pwr = .run) ∧
    (let s := calling []
     (s.tag (granuleOf s 64)).st ≠ .free ∧ (0x1FFFFF : Nat) < 0x200000 ∧ (0x2FFFFF : Nat) < 0x300000) := by
  decide +kernel

/-- A scrub of shared data and code RAM marks what it finds, and the patrol of a cluster's code marks the word in HBM (R432, R437). -/
theorem test_scrub :
    let s := up [(fUmpCtlEn, 1), (fUmpCtlEccEn, 1), (fUmpScrubSramMs, 10), (fUmpScrubHbmMin, 10)]
    ((after (.sramScrubPass 0x20 0 [⟨0x200403, false⟩] false) s).cl 0).badCode = [(0x400, ())] ∧
    (((after (.sramScrubPass 0x2F 0 [⟨0x100000, false⟩] false) s).cl 15).bad).isEmpty = false ∧
    (after (.hbmPatrolPass 0x20 [⟨0x1003, false⟩]) s).hbmBad = [(0x1000, ())] := by
  decide +kernel

/-- A servo state on port 3, with a step limit of 1,000 ns. -/
def serving (t : TimeSt) : State := { up [(fTimeStepMaxNs, 1000)] with time := { t with slave := some 3 } }

/-- ServoUpdates: every state, an authorised step within its limit and beyond it, and a measurement beyond TIME_STEP_MAX. -/
theorem witness_servo :
    (∀ v ∈ [Servo.freerun, .acquire, .locked, .holdover, .pathHold, .free], ptpDrives (serving { servo := v }) = true ∧
      (serving { servo := v }).time.slave = some 3 ∧ (serving { servo := v }).time.auth = none) ∧
    (serving {}).fld fTimeStepMaxNs = 1000 ∧ signedOf 32 ((serving {}).fld (fTimeAsymNs 3)) = 0 ∧
    (serving { servo := .holdover, armed := true }).time.armed = true ∧
    (serving { servo := .holdover, auth := some ⟨2000, 1⟩ }).time.auth = some ⟨2000, 1⟩ ∧ (serving {}).time.slave ≠ some 2 ∧
    (serving { servo := .locked, armed := true, auth := some ⟨500, 1⟩ }).time.armed = true ∧ 500 < (1000 : Int).natAbs ∧
    ((1000 : Int).natAbs : Int) ≤ 1000 ∧ (1000 : Int) < (1001 : Int).natAbs ∧ (2000 : Int).natAbs ≤ 2000 ∧ 2000 < (2001 : Int).natAbs ∧
    (serving { servo := .holdover, holdCount := 15 }).time.holdCount = 15 := by
  decide +kernel

/-- PathDelays: the last delay of a first window, of one at PD_STEP and of one beyond it, and a path hold. -/
theorem witness_path_delays :
    (let s := { up [(fTimePdStepNs, 100), (fTimePdHoldSec, 2)] with time := { slave := some 3, servo := .locked, delays := List.replicate 15 500, prevSum := some 8000 } }
     ptpDrives s = true ∧ s.time.slave = some 3 ∧ s.time.delays.length = 15 ∧ s.fld fTimePdStepNs = 100 ∧ s.fld fTimePdHoldSec ≠ 0 ∧
     max (15 * 500 + 2100) 8000 - min (15 * 500 + 2100) 8000 ≤ 16 * s.fld fTimePdStepNs ∧
     16 * s.fld fTimePdStepNs < max (15 * 500 + 2101) 8000 - min (15 * 500 + 2101) 8000) ∧
    (serving { delays := List.replicate 14 500 }).time.delays.length < 15 ∧ (serving { servo := .pathHold }).time.servo = .pathHold := by
  decide +kernel

/-- A master. -/
def master : Announce := ⟨127, 128, 6, 33, 100, 128, 1, 0, 37⟩

/-- A configuration of the boundary role with port 3 in the default domain. -/
def boundary : PtpConfig := ⟨1, 0, 8, 127, -3, 0, 0, 3, 128, 128, [6, 7, 52, 187, 248, 255]⟩

/-- MastersOnThePorts: an Announce that is heard and ones of another domain and port, a slave port that times out in a locked servo, without a servo and
under the host, and a master port whose link is up, in loopback and not. -/
theorem witness_masters :
    (let s := { serving {} with time := { slave := some 3, servo := .locked, announces := [(3, master)], cfg := { boundary with role := 0 } } }
     svcUp s = true ∧ hears s (3, master) = true ∧ hears s (3, { master with domain := 126 }) = false ∧ hears s (2, master) = false ∧
     bestMaster s = some 3 ∧ mapSorted none s.time.announces = true ∧ s.time.slave = some 3 ∧ s.time.slave ≠ some 2 ∧ s.fld fTimeCtlSrc = 0 ∧
     s.time.servo ∈ [Servo.acquire, .locked, .pathHold] ∧ Servo.freerun ∉ [Servo.acquire, .locked, .pathHold]) ∧
    (up [(fTimeCtlSrc, 2)]).fld fTimeCtlSrc ≠ 0 ∧ svcUp (device []) = false ∧
    (let s := { up [(fNetCtlEn 3, 1), (fNetStatLink 3, 1)] with time := { cfg := boundary } }
     s.time.cfg.role ≠ 0 ∧ s.time.cfg.ports.testBit 3 = true ∧ s.time.slave = none ∧ linkUp s 3 = true ∧ s.flag (fNetCtlLoop 3) = false ∧
     s.time.cfg.ports.testBit 2 = false) ∧
    (up [(fNetCtlEn 3, 1), (fNetStatLink 3, 1), (fNetCtlLoop 3, 1)]).flag (fNetCtlLoop 3) = true := by
  decide +kernel

/-- In the boundary role an own clockClass of 1 to 127 is never a slave (R47), and of two equal masters the one heard on the lower port is taken (R49). -/
theorem test_best_master :
    (let s := { up [] with time := { announces := [(1, master), (3, master)], cfg := { boundary with role := 2, ports := 10, clockCls := List.replicate 6 248 } } }
     bestMaster s = some 1) ∧
    (let s := { up [] with time := { announces := [(3, { master with priority1 := 0 })], cfg := boundary, servo := .locked } }
     ownBeats s { master with priority1 := 0 } = true ∧ bestMaster s = none) := by
  decide +kernel

/-- ReferencePins: a servo that the 10 MHz reference steers, one that the PPS input locks, and an edge at either end of its second. -/
theorem witness_reference_pins :
    (up []).flag fTimeCtlHoRef = false ∧ (up [(fTimeCtlHoRef, 1)]).flag fTimeCtlHoRef = true ∧ (up []).fld fTimeCtlSrc ≠ 1 ∧
    (let s := { up [(fTimeCtlSrc, 1)] with time := { servo := .locked, ppsinOk := true } }
     s.fld fTimeCtlSrc = 1 ∧ s.time.servo = .locked) ∧
    (let s := { up [] with clk := 50000025, time := { lastPps := some 25000000 } }
     s.time.lastPps = some 25000000 ∧ s.clk - 25000000 ≤ 25000000 + 25 ∧ 25000000 - 25 ≤ s.clk - 25000000 ∧ -rateMax ≤ s.time.rate) ∧
    (let s := up [(fTimeCtlPpsoutEn, 1), (fTimePpsoutWidth, 100)]
     s.flag fTimeCtlPpsoutEn = true ∧ s.flag fTimePpsoutWidth = true) ∧
    (up [(fTimeCtlPpsoutEn, 0)]).flag fTimeCtlPpsoutEn = false ∧ (up [(fTimeCtlWclkEn, 0)]).flag fTimeCtlWclkEn = false ∧ (device []).fld fGlbStatStep < 3 := by
  decide +kernel

/-- WCLK_OUT is high in the first half of a media tick, and low in the second (R66). -/
theorem test_wclk :
    { up [(fTimeCtlWclkEn, 1)] with time := { t := timeOfTick 1000 } }.pinWclkOut = true ∧
    { up [(fTimeCtlWclkEn, 1)] with time := { t := timeOfTick 1000 + 12000 * nsUnit } }.pinWclkOut = false := by
  decide +kernel

/-- A key of flow 7 on port 1, and a frame that meets it with a payload of 12 samples of 24 bits on two channels. -/
def keyA : FlowKey := ⟨true, false, true, true, 1, 0, 5004, 0xEF010203, 0⟩

/-- No key. -/
def keyNone : FlowKey := ⟨false, false, false, false, 0, 0, 0, 0, 0⟩

/-- An ingress flow into queue 9. -/
def rxBlk : RxBlock := ⟨7, 0, 1, 2, 48000, 12, 98, 0, 9, 0, keyA, keyNone⟩

/-- A media frame. -/
def frame (bytes : Nat) : Frame :=
  { bytes := bytes, fcsOk := true, fecCorr := 0, fecUncorr := 0, macCtl := false, kind := .udp, carries := .media, ipv6 := false
    dstMac := 0x01005E010203, dst := 0xEF010203, src := 0x0A000001, sport := 5004, dport := 5004, tci := none, dscp := 34, ihl := 5
    frag := false, hdrCsumOk := true, extHdr := false, udpCsum := .zero
    rtp := ⟨2, false, false, 0, false, 98, 20600, 1000000, 1, List.replicate (payloadLen 0 1 2 48000 12) 1⟩ }

/-- Port 1 with a link and an IPv4 address, and flow 7. -/
def wired (fifo : List MediaPkt) : State :=
  { up [(fNetCtlEn 1, 1), (fNetStatLink 1, 1), (fSeedPoolGranCount, 1024)] with
    net := { ports := [(1, { addr := ⟨1, true, false, 0x0A000002, 24, 0, 0⟩, fifo := fifo, svc := [frame 64] })], rx := [(7, { blk := rxBlk })] }
    mq := [(9, { mode := .ordered, depth := 1, retain := 0, account := 2 })]
    seed := { accts := [(1, { kind := .port, quota := 8, attach := 0x48 }), (2, { kind := .queue, quota := 8 })], freeA := 1024, freeB := 1024 } }

/-- A packet of the media FIFO. -/
def packet (bytes : Nat) : MediaPkt := ⟨bytes, 7, false, 9, 1000000, false, (frame 64).rtp, none, 34, 0, false⟩

/-- ReceivedFrames: sizes at both limits, a media frame with room and without, one of a bad format, and one that only the service FIFO takes. -/
theorem witness_frames :
    (let s := wired []
     linkUp s 1 = true ∧ s.flag (fNetCtlLoop 1) = false ∧ (up [(fNetCtlLoop 1, 1)]).flag (fNetCtlLoop 1) = true ∧ linkUp s 2 = false ∧ (frame 64).fcsOk = true ∧ (frame 1522).bytes ≤ 1522 ∧ (frame 63).bytes < 64 ∧ 1522 < (frame 1523).bytes ∧
     (frame 64).kind = .udp ∧ matchKey s 1 (frame 64) = some (7, false) ∧ (mapFind? 7 s.net.rx).isSome = true ∧ mediaOk rxBlk (frame 64) = true ∧
     mediaOk rxBlk { frame 64 with rtp := { (frame 64).rtp with pt := 97 } } = false ∧
     ((s.port 1).fifo.map (fun m => m.bytes)).foldl (· + ·) 0 + 64 ≤ 262144 ∧
     forService s 1 { frame 64 with kind := .other } = false) ∧
    262144 < (((wired [packet 262144]).port 1).fifo.map (fun m => m.bytes)).foldl (· + ·) 0 + 64 := by
  decide +kernel

/-- A broadcast ARP frame is for the service cores. -/
theorem witness_service_frame : forService (wired []) 1 { frame 64 with kind := .arp, dstMac := 2 ^ 48 - 1 } = true := by
  simp [forService]

/-- PortFifos: a head packet with credit and without, and a head service packet. -/
theorem witness_port_fifos :
    (let s := wired [packet 64]
     let n := (32 + (rtpPayload (packet 64).rtp).length + 255) / 256
     (s.port 1).svc = [frame 64] ∧ s.glb.svcDown = false ∧ (s.port 1).fifo = [packet 64] ∧ attached s (0x40 + 8 * 1) = some 1 ∧
     (s.acct 1).held + n ≤ (s.acct 1).quota ∧ n ≤ s.seed.freeA ∧ n ≤ poolSize s ∧
     (s.queue? 9).map (fun x => (decide (x.mode = .ordered), x.held.length, x.retained.length, x.lastValid, x.before.isNone, x.depth, x.account)) =
       some (true, 0, 0, false, true, 1, 2) ∧ (({ s with mq := [] } : State).queue? 9).isNone = true ∧ attached (up []) 0x48 = none ∧
     (s.acct 2).held + n ≤ (s.acct 2).quota) ∧
    (wired [packet 64]).tag = (fun _ => {}) ∧ (packet 64).refused = false ∧
    ¬ ((({ wired [packet 64] with seed := {} }).acct 1).held + 1 ≤ (({ wired [packet 64] with seed := {} }).acct 1).quota) := by
  refine ⟨?_, rfl, by decide +kernel, by decide +kernel⟩
  dsimp only []
  repeat' apply And.intro
  all_goals first | rfl | decide +kernel

/-- LinkAndPathEvents: a port whose link drops, a path that is UP, with the event queue short of its end and full, and a copy that waits for its partner. -/
theorem witness_link_events :
    (let s := wired []
     s.flag (fNetCtlEn 1) = true ∧ s.flag (fNetStatLink 1) = true ∧ s.flag (fNetCtlEn 2) = false ∧ -rateMax ≤ s.time.rate) ∧
    (let x : RxFlow := { blk := rxBlk, a := { up := true, last := 5 }, pend := [⟨3, false, 0, 100⟩] }
     (x.path false).up = true ∧ (x.path true).up = false ∧ x.pend.find? (fun p => p.seq == 3 && p.pathB == false) = some ⟨3, false, 0, 100⟩) ∧
    (List.replicate 63 (7, false)).length < 64 ∧ 64 ≤ (List.replicate 64 (7, false)).length := by
  decide +kernel

/-- An egress flow of queue 10 on path A alone. -/
def txBlk : TxBlock := ⟨8, 0, 1, 2, 48000, 12, 98, 0, 10, 1, 0, 0, ⟨true, false, true, 1, 0, 0, 34, 64, 5004, 5004, 0xEF010204⟩,
  ⟨false, false, false, 0, 0, 0, 0, 0, 0, 0, 0⟩, true⟩

/-- A copy of flow 8 for a tick. -/
def copy8 (tick : Nat) : Copy := ⟨8, false, txBlk, tick, 1, 0, false, false, 0, 8, 24, false⟩

/-- A state with a due entry of flow 8, whose buffer at handle 8 has its LAST-block bit set, at tick 1,000. -/
def egress (key : Nat) (copies : List Copy) : State :=
  { up [(fNetCtlEn 1, 1), (fNetStatLink 1, 1), (fSeedPoolGranCount, 1024), (fNetEgrGraceTicks 1, 6)] with
    time := { t := timeOfTick 1000 }, hbm := [(8 * 256 + 6, 4)]
    net := { ports := [(1, { addr := ⟨1, true, false, 0x0A000002, 24, 0, 0⟩, copies := copies })], tx := [(8, { blk := txBlk, seq := 65535 })] }
    mq := [(10, { mode := .fifo, depth := 16, retain := 0, account := 2, held := [⟨{ handle := 8, len := 24, key := key }, 0, 0⟩] })]
    seed := { tags := [(8, { last := true, st := .owned, owner := 2 })], accts := [(2, { kind := .queue, quota := 8, held := 1 })]
              freeA := 1023, ownedA := 1, freeB := 1023, ownedB := 1 } }

/-- EgressResults: an entry on time, one that is late within the grace and one beyond it, and the first of two copies on a link that is up. -/
theorem witness_egress :
    (let s := egress 1000 [copy8 988, copy8 1000]
     (mapFind? 8 s.net.tx).map (fun x => (x.blk.pathA.present, x.blk.pathB.present, x.blk.rtcpEn)) = some (true, false, true) ∧
     (s.queue? 10).map (fun q => (decide (q.mode = .fifo), q.markSet, q.held.map (fun i => i.e.nobuf))) = some (true, false, [false]) ∧
     timeOfTick ((nearTick s 1000).toNat - 2) ≤ s.time.t ∧ (bufWord s 8 4).getLsbD 18 = true ∧
     (s.tick : Int) - nearTick s 1000 = 0 ∧ (s.tick : Int) - nearTick s 994 = s.fld (fNetEgrGraceTicks 1) ∧
     (s.fld (fNetEgrGraceTicks 1) : Int) < s.tick - nearTick s 993 ∧
     copyBefore (copy8 988) (copy8 1000) = true ∧ copyDue (copy8 988) ≤ s.time.t ∧ linkUp s 1 = true ∧ holdsVer (s.port 1).addr false = true ∧
     linkUp s 2 = false ∧ s.glb.svcDown = false) := by
  decide +kernel

/-- FlowCommands: blocks that pass their checks with their flow, key and queue free, and an address of both versions at the ends of its ranges. -/
theorem witness_flows :
    (let s := { wired [] with net := { (wired []).net with rx := [] } }
     kciReady 0x0401 hdr (keyFlow false 7) s = true ∧ firstErr (rxChecks s rxBlk) = none ∧ (mapFind? 7 s.net.rx).isNone = true ∧
     keyTaken s 7 rxBlk = false ∧ queueIs s 9 .ordered = true ∧ queueIs s 9 .fifo = false) ∧
    keyTaken (wired []) 6 { rxBlk with flow := 6 } = true ∧
    (let s := { egress 1000 [] with net := { (egress 1000 []).net with tx := [] } }
     kciReady 0x0402 hdr (keyFlow true 8) s = true ∧ firstErr (txChecks s txBlk) = none ∧ (mapFind? 8 s.net.tx).isNone = true ∧ queueIs s 10 .fifo = true) ∧
    (let s := egress 1000 []
     kciReady 0x0403 hdr none s = true ∧ kciReady 0x0404 hdr (keyFlow true 8) s = true ∧ (s.queue? 10).map (fun q => decide (q.held.length ≤ q.depth)) = some true) ∧
    kciReady 0x0404 hdr (keyFlow false 7) (wired []) = true ∧ kciReady 0x0405 hdr (keyFlow false 7) (wired []) = true := by
  decide +kernel

/-- Generator 7 with member 5 at its boundary. -/
def beating (d : NodeD) (b : BeatGen) (poster : List Nat) : State :=
  { up [(fBullWakeLeadUs, 50), (fBullPfLeadNs, 20000)] with bull := { nodes := [(5, d), (6, nodeD)], beats := [(7, b)], poster := poster } }

/-- BeatsAndTimers, the generators: a beat at its boundary, one ahead with a sleeping home cluster, and a member that may be prefetched. -/
theorem witness_beats :
    (let s := beating nodeD { en := true, q := 12, members := [5] } []
     canBeat s 7 = true ∧ -rateMax ≤ s.time.rate ∧ s.time.rate ≤ rateMax ∧ (s.gen 7).newSet = none ∧ (s.gen 7).catchUp = none ∧
     beatFirst s 7 = true ∧ (s.gen 7).next = s.mtc ∧ (s.gen 7).posting = [] ∧ (s.gen 7).waiting = [] ∧ s.bull.poster = [] ∧ (s.gen 7).members = [5] ∧ (s.gen 7).members.Nodup ∧
     s.fld fBullWakeLeadUs ≠ 0 ∧ beatTime s 7 ≤ s.time.t + s.fld fBullWakeLeadUs * 1000 * nsUnit ∧
     s.fld fBullPfLeadNs ≠ 0 ∧ beatTime s 7 ≤ s.time.t + s.fld fBullPfLeadNs * nsUnit ∧ nodeD.set.cls < 4 ∧ (prefetchTarget s 5).isSome = true) ∧
    plainPost nodeD ∧ mayPrefetch (beating nodeD { en := true, q := 12, members := [5] } []) 5 nodeD ∧
    canBeat (beating nodeD {} []) 7 = false ∧ canBeat (beating nodeD { en := true } []) 8 = false ∧
    (let s := { beating nodeD { en := true, q := 12 } [] with bull := { beats := [(6, { en := true, q := 12 }), (7, { en := true, q := 12 })] } }
     canBeat s 7 = true ∧ beatFirst s 7 = false) := by
  refine ⟨by decide +kernel, Or.inl rfl, ?_, by decide +kernel, by decide +kernel, by decide +kernel⟩
  exact ⟨rfl, rfl, rfl, rfl, Or.inl rfl⟩

/-- BeatsAndTimers, the poster: a member that the post makes READY, with room and without, and one that it does not. -/
theorem witness_poster :
    (let s := beating { nodeD with st := .armed } { en := true, posting := [5] } [7]
     s.flag fBullCtlEn = true ∧ s.bull.poster = [7] ∧ (s.gen 7).posting = [5] ∧ (s.gen 7).waiting = [] ∧ storeFull s 0 = false ∧
     (s.node? 5).map (fun d => (readies (2 ^ (s.gen 7).postFlag) d, readies 2 d)) = some (true, false) ∧
     storeFull { s with bull := { s.bull with ready := fullStore } } 0 = true) := by
  decide +kernel

/-- A timer of list 0 on node 5. -/
def timer (due : Nat) (held : Bool) : Timer := ⟨0, 5, 3, due, true, true, 1, 0, 0, held⟩

/-- BeatsAndTimers, the timers: one that is due, one that is late, one that is held, and one whose context may be prefetched. -/
theorem witness_timer_events :
    (let s := { beating nodeD {} [] with
                time := { t := timeOfTick 100 }, bull := { nodes := [(5, nodeD)], timers := [(3, timer 100 false)] } }
     s.flag fBullCtlEn = true ∧ (mapFind? 3 s.bull.timers).isSome = true ∧ timerFireTick (timer 100 false) ≤ s.tick ∧
     timerFireTick (timer 90 false) ≤ s.tick ∧ timerFireTick (timer 102 false) ≤ s.tick + 2 ∧
     (∀ y ∈ s.bull.timers, y.2.list = 0 → timerBefore y.2 (timer 100 false) = false) ∧ (prefetchTarget s 5).isSome = true ∧
     (s.bull.timers.map (fun y => y.1)).Nodup) ∧
    (timer 100 true).held = true ∧ plainPost nodeD ∧ mapFind? 3 (beating nodeD {} []).bull.timers = none ∧
    (let s := { beating nodeD {} [] with
                time := { t := timeOfTick 100 }, bull := { nodes := [(5, nodeD)], timers := [(3, timer 100 false), (4, { timer 100 false with list := 1 })] } }
     timerFirst s (timer 100 false) = true ∧ timerFirst s { timer 100 false with list := 1 } = false) := by
  refine ⟨by decide +kernel, rfl, Or.inl rfl, rfl, by decide +kernel⟩

/-- Cores 0 and 16 wait in GETW with every class in their masks, in clusters that run. -/
def twoWaiting (d : NodeD) (home : Nat) (ready : List (Nat × List ReadyEnt)) (res : Res) : State :=
  { up [] with
    clk := 1000000, core := [(0, { mode := .wait, blocked := true, mask := 15 }), (16, { mode := .wait, blocked := true, mask := 15 })]
    clu := [(0, { pwr := .run }), (1, { pwr := .run })]
    bull := { nodes := [(5, { d with set := { d.set with home := home } }), (6, nodeD)], ready := ready }, gh := { res := [(5, res)] } }

/-- NodeEvents, dispatch: a ready node that is resident on the core that waits, and one whose steal age is over and that sits on another core. -/
theorem witness_dispatch :
    (let s := twoWaiting { nodeD with st := .ready, flags := 1 } 0 [(1, [⟨5, 0, false⟩])] ⟨0, 0, false, false, 0⟩
     s.flag fBullCtlEn = true ∧ storeOrder s 0 = [5] ∧ s.node? 5 = some { nodeD with st := .ready, flags := 1 } ∧ mapFind? 5 s.gh.pageIns = none ∧
     s.resOf 5 = some ⟨0, 0, false, false, 0⟩ ∧ canTake s 0 5 { nodeD with st := .ready, flags := 1 } = true ∧ (0 / 16 : Nat) = 0) ∧
    (let d := { nodeD with st := .ready, flags := 1, expired := true }
     let s := twoWaiting d 0 [(1, [⟨5, 0, false⟩])] ⟨1, 0, false, false, 0⟩
     s.node? 5 = some d ∧ takers s 0 5 d = [0] ∧ (1 : Nat) ∉ takers s 0 5 d ∧ d.expired = true) := by
  decide +kernel

/-- NodeEvents, KML: a dispatch that starts no run, and one that starts one. -/
theorem witness_new_runs :
    (let s := up []
     newRuns s (after (.nodeDispatch 0 false) s) = []) ∧
    (let s := twoWaiting { nodeD with st := .ready, flags := 1 } 0 [(1, [⟨5, 0, false⟩])] ⟨0, 0, false, false, 0⟩
     newRuns s (after (.nodeDispatch 0 false) s) = [0]) := by
  decide +kernel

/-- NodeEvents, stealing: the one core that can take the node lies in another cluster, and holds its context or does not. -/
theorem witness_steal :
    let d := { nodeD with st := .ready, flags := 1, set := { nset with home := 2 } }
    let s := { twoWaiting d 2 [(9, [⟨5, 0, false⟩])] ⟨16, 0, false, false, 0⟩ with core := [(16, { mode := .wait, blocked := true, mask := 15 })] }
    s.flag fBullCtlEn = true ∧ s.node? 5 = some d ∧ (s.readyQ 2 1).find? (fun x => x.node == 5) = some ⟨5, 0, false⟩ ∧
    0 + nsCycles (s.fld fBullStealAge) ≤ s.clk ∧ stealPick s 16 = some 5 ∧ (16 / 16 : Nat) ≠ d.set.home ∧
    s.resOf 5 = some ⟨16, 0, false, false, 0⟩ ∧ (∀ j, j < 16 → stealPick s j ≠ some 5) ∧
    (let t := { s with core := [] }
     ∀ k, k < 256 → stealPick t k ≠ some 5) := by
  decide +kernel

/-- NodeEvents, aborts: a run at the end of its budget, one that is undone, re-runs and gives way to its ALT node, and a DONE whose commit waits. -/
theorem witness_aborts :
    (let s := { running [] with clk := 100000 }
     (s.cor 0).mode = .run ∧ (s.cor 0).stall = .none ∧ (s.node? 5).map (fun d => (d.set.budget, d.runStart)) = some (100, 0)) ∧
    100 * 256 ≤ (100000 - 0) * coreCycles ∧
    (let d := { nodeD with st := .aborting, undo := some {}, consumed := 1 }
     let s := { running [] with core := [(0, { core0 with stall := .aborting })], bull := { nodes := [(5, d), (6, nodeD)] } }
     s.node? 5 = some d ∧ (s.cor d.runCore).mode = .run ∧ (s.cor d.runCore).stall = .aborting ∧ (s.cor d.runCore).node = 5 ∧
     (spareCores s (d.runCore / 16)).contains d.runCore = false ∧ d.rerun = false ∧ d.set.fpol < 2 ∧ storeFull s d.set.home = false ∧
     noUnload s = true ∧ s.bull.alts = [] ∧ d.set.alt ≠ 5 ∧ (s.node? d.set.alt).isSome = true ∧ d.consumed ≠ 0) ∧
    plainPost nodeD ∧ ({ nodeD with rerun := true, set := { nset with fpol := 1 } } : NodeD).set.fpol = 1 ∧
    (let s := { running [] with core := [(0, { core0 with mode := .doneWait, commit := [.sig 6 1] })] }
     (s.cor 0).mode = .doneWait ∧ (s.cor 0).commit = [.sig 6 1] ∧ (s.node? 6).isSome = true ∧
     (s.node? 5).map (fun d => (decide (d.st = .running), satisfied d)) = some (true, false) ∧ (spareCores s 0).contains 0 = false ∧
     readies 1 { nodeD with st := .armed } = true) := by
  refine ⟨by decide +kernel, ?_, by decide +kernel, Or.inl rfl, rfl, by decide +kernel⟩
  unfold coreCycles; split <;> decide

/-- NodeEvents, entries that wait: a re-run, a post to ALT, and an ARMED node that is satisfied. -/
theorem witness_waiting_entries :
    (let s := withNode { nodeD with st := .aborting, abortWait := .rerun }
     (s.node? 5).map (fun d => (decide (d.abortWait = .rerun), d.recCancel)) = some (true, false) ∧ storeFull s 0 = false) ∧
    (let s := { withNode nodeD with bull := { (withNode nodeD).bull with alts := [⟨5, 6, 1⟩] } }
     (s.node? 5).map (fun d => decide (d.abortWait = .none)) = some true ∧ s.bull.alts.find? (fun a => a.source == 5) = some ⟨5, 6, 1⟩ ∧
     (∀ a ∈ s.bull.alts, a.source ≠ 6) ∧ (s.node? 6).isSome = true) ∧ plainPost nodeD ∧
    ((withNode { nodeD with st := .armed, flags := 1 }).node? 5).map (fun d => (decide (d.st = .armed), satisfied d)) = some (true, true) := by
  refine ⟨by decide +kernel, by decide +kernel, Or.inl rfl, by decide +kernel⟩

/-- ContextsAndSweeps, contexts: a hold that is over, page-ins with a slot and without, and a write-back of page 0 with no failures and with three. -/
theorem witness_contexts :
    (let s := twoWaiting { nodeD with hold := some (1, 0) } 0 [] ⟨1, 0, false, false, 0⟩
     s.node? 5 = some { nodeD with hold := some (1, 0) } ∧ 0 + nsCycles (s.fld fGhAffWinNs) ≤ s.clk ∧
     takers s 0 5 { nodeD with hold := some (1, 0) } = [0] ∧ s.resOf 5 = some ⟨1, 0, false, false, 0⟩ ∧ (1 : Nat) ∉ [0] ∧
     canTake s 1 5 { nodeD with hold := some (1, 0) } = false ∧ canTake s 0 5 { nodeD with hold := some (0, 0) } = true) ∧
    (∀ ecc ∈ [0, 1], let s := { (withNode { nodeD with st := .armed }).setFld fUmpCtlEccEn ecc with gh := { pageIns := [(5, ⟨0, none, false, false, 0, 0⟩), (6, ⟨0, some 3, true, false, 0, 1⟩)] } }
     (s.node? 5).map (fun d => decide (d.st = .armed)) = some true ∧ (mapFind? 5 s.gh.pageIns).map (fun p => p.slot) = some none ∧
     (chooseSlot s 0 (classPages 0)).isSome = true ∧ (mapFind? 6 s.gh.pageIns).map (fun p => p.slot) = some (some 3) ∧ noUnload s = true ∧
     s.flag fUmpCtlEccEn = decide (ecc = 1)) ∧
    (let p (o : Nat) : PageIn := ⟨0, none, true, false, 0, o⟩
     let s := { withNode nodeD with gh := { pageIns := [(5, p 1), (6, p 0)] } }
     prefetchFirst s 6 (p 0) = true ∧ prefetchFirst s 5 (p 1) = false) ∧
    (let s := { withNode { nodeD with st := .armed, writeBack := some [0] } with gh := { res := [(5, ⟨0, 0, false, false, 0⟩)] } }
     (s.node? 5).map (fun d => (d.writeBack, d.evicting, d.unloading, d.staged.isNone)) = some (some [0], false, false, true) ∧
     s.resOf 5 = some ⟨0, 0, false, false, 0⟩ ∧ isWorking s 0 = true ∧ [0].Nodup ∧ pagesBad s 0 0 [0] = false) ∧
    (let s := { up [(fUmpCtlEccEn, 1)] with core := [(0, { bad := [(0x20004, ())] })] }
     pagesBad s 0 0 [0] = true) := by
  decide +kernel

/-- ContextsAndSweeps, sweeps: books that agree, books that do not, a window to refill, a move and a Scout that tags. -/
theorem witness_sweeps :
    (let s := { up [(fSeedPoolGranCount, 4), (fSeedCtlEn, 1)] with
                seed := { freeA := 3, ownedA := 1, freeB := 3, ownedB := 1, tags := [(0, { last := true, st := .owned, owner := 3 })]
                          accts := [(3, { kind := .node, quota := 4, held := 1 })] } }
     s.flag fSeedCtlEn = true ∧ (s.seed.accts.map (fun a => a.2.held)).foldl (· + ·) 0 = s.seed.ownedA ∧ totalsAgree s = true ∧
     ownedTags s 3 = (s.acct 3).held ∧ ownedTags s 4 = (s.acct 4).held ∧ (s.tag 0).st ≠ .free ∧ (s.tag 0).owner = 3 ∧
     s.seed.freeA + s.seed.tags.countP (fun t => t.2.st != .free) = poolSize s ∧
     (let t := { s with seed := { s.seed with accts := [(3, { kind := .node, quota := 4, held := 2 })] } }
      (t.seed.accts.map (fun a => a.2.held)).foldl (· + ·) 0 ≠ t.seed.ownedA ∧ ownedTags t 3 ≠ (t.acct 3).held)) ∧
    (let x : Queue := { mode := .fifo, depth := 64, retain := 0, account := 0, held := List.replicate 17 ⟨{ nobuf := true }, 0, 0⟩, headWin := 4, tailWin := 8 }
     x.mode ≠ .async ∧ x.headWin ≤ 4 ∧ 4 < x.middle) ∧
    (let m : Move := ⟨0x20000, 8, 0, 16, false, []⟩
     let s := { running [] with core := [(0, { core0 with moves := [m] })] }
     (s.cor 0).moves = [m] ∧ (s.cor 0).mode = .run ∧ (s.cor 0).stall = .none ∧ m.la % 4 = 0 ∧ localOk (s.cor 0) m.la m.len = true) ∧
    (let s := running [(fScoutCtlEn 0, 1)]
     s.flag (fScoutCtlEn 0) = true ∧ (s.cor 0).mode = .run ∧ (s.scoutOf 0).full = false) := by
  decide +kernel

/-- ClusterPower: a cluster that has been idle, one that has slept and may go off, one that wakes from OFF, and a spare count that a core leaves by. -/
theorem witness_cluster_power :
    (let s := { up [(fCluPwrLimit 15, 3)] with clu := [(15, { pwr := .idle })], clk := 50000000 }
     (s.cl 15).pwr = .idle ∧ 2 ≤ s.fld (fCluPwrLimit 15) ∧ (s.cl 15).since + s.fld fGlbPwrDelaySleep * 25 ≤ s.clk ∧ wakeWithin s 15 15 = false ∧
     reaches s (fCluPwrLimit 15).addr = true ∧ reaches s (fCluSparesCount 15).addr = true ∧ reaches s (fCoreHomePc 255).addr = true) ∧
    (let s := { up [(fCluPwrLimit 15, 3)] with clu := [(15, { pwr := .sleep })], clk := 50000000000 }
     (s.cl 15).pwr = .sleep ∧ (s.cl 15).waking = false ∧ s.fld (fCluPwrLimit 15) = 3 ∧ (s.cl 15).since + s.fld fGlbPwrDelayOff * 25 ≤ s.clk ∧
     wakeWithin s 15 40 = false ∧ mayOff s 15 = true) ∧
    (let s := { up [] with clu := [(15, { pwr := .off, waking := true, wakeAt := 700 })], clk := 700 }
     (s.cl 15).waking = true ∧ (s.cl 15).wakeAt ≤ s.clk ∧ (s.cl 15).pwr = .off) ∧
    (let s := { up [] with core := [(240, { mode := .halted })] }
     (s.cor 240).mode = .halted) := by
  decide +kernel

/-- HostAccesses: a write with byte enables off, a reserved offset, an SMBus frame, and the last bytes of the BAR2 window. -/
theorem witness_accesses :
    (let s := up []
     reaches s 0x24 = true ∧ reaches (device []) 0x24 = false ∧ isReserved 0xFFFC = true ∧ reaches s 0xFFFC = true ∧ (14 : Nat) ≠ 15 ∧
     s.ready = true ∧ s.glb.tripped = false ∧ 4 ≤ s.fld fGlbStatStep ∧ s.hif.waits = [] ∧ s.flag fFlcCtlEn = false ∧ s.flag fSeedCtlEn = false ∧
     s.seed.ownedA = 0 ∧ reaches s 0x120000 = true ∧ hbmUp s = true ∧ 0xFFFFFFFC + 4 ≤ 2 ^ 32 ∧ s.flag (fMadiPpCtlEn 3) = false ∧
     inDescRegion s (bar2Addr s 0xFFFFFC) = true ∧
     (∀ i, i < 4 → inDescRegion s (bar2Addr s 0xFFFFFFFC + i) = false ∧ openHbm s (bar2Addr s 0xFFFFFFFC + i) = false ∧
       inTagTable s (bar2Addr s 0xFFFFFFFC + i) = false)) ∧
    (let s := up [(fSeedPoolGranCount, 4), (fSeedTagBaseLoAddr, 0x4000)]
     let off := tagBase s + 24
     hbmUp s = true ∧ off + 8 ≤ 2 ^ 32 ∧ 3 < poolSize s ∧ bar2Addr s off = tagBase s + 8 * 3 ∧ (∀ i, i < 8 → openHbm s (bar2Addr s off + i) = false)) ∧
    { up [] with hif := { smbOff := some fGhAffWinNs.addr } }.hif.smbOff = some fGhAffWinNs.addr ∧ reaches (up []) fGhAffWinNs.addr = true ∧
    (let s := { up [(fMadiPpAccountAccount 3, 1), (fMadiPpQueueRx 3, 9)] with
        mq := [(9, { mode := .async, depth := 16, retain := 0, account := 1 })], seed := { accts := [(1, { kind := .port, attach := 0x88 })] } }
     madiEnableOk 3 true false s = true ∧ madiEnableOk 3 true true s = false) ∧
    hbmUp (device []) = false := by
  decide +kernel

/-- ReadsWithEffects: a timestamp queue with an entry, the last PMU set, and fetches that pass, that are not defined and that KCI is not open for. -/
theorem witness_reads :
    (let s := { up [] with time := { tsq := [(3, { entries := [⟨65535, 5⟩] })] }, hif := { isOpen := true, flowEv := [(16383, true)] } }
     s.ready = true ∧ s.glb.tripped = false ∧ 4 ≤ s.fld fGlbStatStep ∧ ptpRuns s 3 = false ∧
     (mapGet ({} : TsQueue) 3 s.time.tsq).entries = [⟨65535, 5⟩] ∧ s.hif.flowEv = [(16383, true)] ∧ (265 : Nat) < 266) ∧
    (let s := up [(fHifKciSizeEntries, 65535), (fHifKciDbIndex, 1)]
     s.flag fHifCtlKciEn = true ∧ s.glb.svcDown = false ∧ s.fld fHifKciSizeEntries = 65535 ∧ s.fld fHifKciHeadIndex ≠ s.fld fHifKciDbIndex ∧
     mayFetch s = true ∧ opDefined 0x0C01 = true ∧ opDefined 0x0207 = true ∧ opDefined 0xFFFF = false ∧ 2 ≤ 0x7FFF % 0x8000 ∧ flagsOf 0x0207 < 1 % 2 ∧
     ¬ flagsOf 0x0302 < 1 % 2 ∧ checksVersion 0x0C01 = true ∧ checksVersion 0x0207 = false) := by
  decide +kernel

/-- A closed segment of two slots. -/
def seg : Seg := { orig := 0, slots := [(0, 5), (1, 5)], d := 3, closed := true, closing := true }

/-- A flash array of two dies with spare blocks and segment 0. -/
def array (fs : List (Fld × Nat)) (g : Seg) (flc : FlcSt) : State :=
  { up ([(fFlcCtlEn, 1), (fFlcStatReady, 1)] ++ fs) with
    flc := flc
    flash := { journal := true, nextSeq := 1, segs := [(0, g)]
               dies := [(0, { spare := [(9, ())], free := [(6, ()), (7, ())] }), (1, { spare := [(9, ())], free := [(6, ()), (7, ())] })] } }

/-- FlashEvents, bring-up: each of its steps, with a segment that the index still lacks. -/
theorem witness_flash_bring_up :
    (∀ n ∈ [0, 1, 2, 3, 4, 5], (array [] { seg with indexed := false } { bring := n }).flc.bring = n) ∧
    newestUnindexed (array [] { seg with indexed := false } { bring := 4 }) = some 0 ∧ newestUnindexed (array [] seg { bring := 4 }) = none ∧
    (array [] seg {}).flash.journal = true ∧ (array [] seg {}).flash.erasing = [] ∧ (device []).flash.journal = false := by
  decide +kernel

/-- FlashEvents, pages and blocks: a page to program, one that ends, a block that is erased with spares left, a decode, and segments to reclaim and
refresh. -/
theorem witness_flash_pages :
    (∀ ecc ∈ [0, 1], let s := array [(fUmpCtlEccEn, ecc)] { seg with closing := false, closed := false } { full := [⟨0, []⟩], progs := [⟨2, ⟨0, []⟩⟩] }
     s.flag fFlcStatReady = true ∧ s.flc.full = [⟨0, []⟩] ∧ s.flag fUmpCtlEccEn = decide (ecc = 1) ∧ (s.seg? 0).map (fun g => (decide (g.d + 1 < 4090), slotDead s g ((g.d + 1) % nslot s), g.closing)) =
       some (true, false, false) ∧ s.flc.progs = [⟨2, ⟨0, []⟩⟩] ∧ s.flag fFlcStatRunning = false ∧
     (mapGet ({} : Die) (slotOf s seg 2).1 s.flash.dies).spare ≠ [] ∧ mapSorted none (mapGet ({} : Die) (slotOf s seg 2).1 s.flash.dies).spare = true) ∧
    (let s := array [] seg {}
     let t := { s with flash := { s.flash with erasing := [(1, 8)] } }
     t.flag fFlcStatReady = true ∧ (1, 8) ∈ t.flash.erasing ∧ (mapGet ({} : Die) 1 t.flash.dies).spare ≠ []) ∧
    (let s := array [(fFlcReclaimSegs, 4095)] seg {}
     segFree s < s.fld fFlcReclaimSegs ∧ reclaimNext s = some 0 ∧ s.flc.points = [] ∧ seg.dead = [] ∧ seg.retire = [] ∧
     (∀ x ∈ seg.slots, (mapGet ({} : Die) x.1 s.flash.dies).readOnly = false)) ∧
    (let s := array [(fFlcRefreshHours, 1), (fFlcCbRefresh, 40)] seg {}
     s.fld fFlcRefreshHours ≠ 0 ∧ seg.refresh = false ∧ seg.lost = [] ∧ 40 ≤ s.fld fFlcCbRefresh ∧ s.fld fFlcCbRefresh < 41 ∧ s.flash.nextSeq ≠ 0 ∧
     s.flc.replays = [] ∧ s.hif.waits = [] ∧ seg.old = false) ∧
    (let s := array [(fLdpcCtlEn, 1), (fLdpcCtlRadioRes, 4)] seg {}
     s.flag fFlcCtlEn = true ∧ s.flag fLdpcCtlEn = true ∧ s.mdm.wait = [] ∧ s.mdm.run.length < 16 ∧ s.fld fLdpcCtlRadioRes < 16 ∧ (s.seg? 0).isSome = true) := by
  decide +kernel

/-- Blocks for the slots of a new segment. -/
theorem witness_rotate :
    (let s := { array [] seg {} with flash := { (array [] seg {}).flash with dies := (List.range 16).map (fun d => (d, { free := [(6, ())] })) } }
     (rotate s).isSome || decide (nslot s > 16)) = true := by
  decide +kernel

/-- A capture queue whose head is a job of one block, a page with room, and capture that runs or not. -/
def capturing (running : Nat) (jobs len : Nat) (flc : FlcSt) (pack : PackSt) : State :=
  { array [(fFlcStatRunning, running), (fPackCtlEn, 1), (fPackCapqQueue, 9), (fSeedPoolGranCount, 1024), (fFlcStageSizeMib, 64)] seg flc with
    pack := pack, hbm := [(8 * 256, BitVec.ofNat 8 jobs)], time := { t := timeOfTick 1000 }
    mq := [(9, { mode := .fifo, depth := 16, retain := 0, account := 2, held := [⟨{ handle := 8, len := len, key := 1000 }, 0, 0⟩] })]
    seed := { tags := [(8, { next := 9, st := .owned, owner := 2, chain := 2 }), (9, { next := 10, st := .owned, owner := 2 }),
                       (10, { last := true, st := .owned, owner := 2 })]
              accts := [(2, { kind := .queue, quota := 8, held := 3 })], freeA := 1021, ownedA := 3, freeB := 1021, ownedB := 3 } }

/-- CaptureResults, jobs: one that capture takes, one whose length is wrong, one that is dropped, and one that is held at its last block. -/
theorem witness_capture_jobs :
    (let s := capturing 1 1 592 { page := some ⟨0, []⟩ } {}
     s.flag fPackCtlEn = true ∧ s.pack.hold = none ∧
     (s.queue? (s.fld fPackCapqQueue)).map (fun x => (decide (x.mode = .fifo), x.markSet, x.held.map (fun i => (i.e.len, i.e.nobuf)))) =
       some (true, false, [(592, false)]) ∧
     jobCount s { handle := 8 } = 1 ∧ s.flag fFlcStatRunning = true ∧ s.flc.stopping = false ∧ s.flc.page = some ⟨0, []⟩ ∧ pageUsed [] + 584 ≤ 16384) ∧
    (capturing 0 1 592 {} {}).flag fFlcStatRunning = false ∧ jobCount (capturing 1 0 592 {} {}) { handle := 8 } = 0 ∧ (591 : Nat) ≠ 16 + 576 * 1 ∧
    (let s := capturing 1 1 592 { page := some ⟨0, []⟩ } { hold := some ({ handle := 8, len := 592 }, false, 0) }
     s.pack.hold.isSome = true ∧ 0 + 1 = jobCount s { handle := 8 }) := by
  decide +kernel

/-- A raw record. -/
def rec0 : FRec := ⟨5, true, 0, 192, 192, [1]⟩

/-- CaptureResults, replays: a block that is found, one that is not, one without credit, and one at the last block. -/
theorem witness_replays :
    (let r : Replay := { channel := 5, next := 192, left := 1, queue := 9 }
     let s := { array [] { seg with pages := [(1, [rec0])] } { replays := [(15, r)] } with
                mq := [(9, { mode := .fifo, depth := 4, retain := 0, account := 2 })]
                seed := { accts := [(1, { kind := .port, quota := 3, attach := 0x80 })], freeA := 3, freeB := 3 } }
     mapFind? 15 s.flc.replays = some r ∧ (s.queue? 9).map (fun x => (decide (x.mode = .fifo), decide (x.count < x.depth))) = some (true, true) ∧
     (∀ g ∈ s.flash.segs, g.2.old = false) ∧ findRec s none (fun y => y.channel == 5 && y.ext == 192) = some (0, false, rec0) ∧
     findRec s none (fun y => y.channel == 5 && y.ext == 384) = none ∧ attached s 0x80 = some 1 ∧ (s.acct 1).held + 3 ≤ (s.acct 1).quota ∧ 3 ≤ s.seed.freeA ∧
     ({ s with seed := {} } : State).seed.freeA < 3) := by
  decide +kernel

/-- CaptureResults, commands: START and STOP in every state, points with room and without, and a replay from the start. -/
theorem witness_capture_commands :
    (let s := capturing 0 1 592 {} {}
     kciReady 0x0801 hdr none s = true ∧ s.flag fFlcStatRunning = false ∧ s.flag fFlcStatReady = true ∧ s.fld fFlcStageSizeMib ≠ 0 ∧ haltHolds s = false ∧
     kciReady 0x0803 hdr none s = true ∧ 1000 ≤ s.tick ∧ freePoint s = some 0 ∧ reclaimed s 0 = false ∧ kciReady 0x0804 hdr (keyPoint 255) s = true ∧
     kciReady 0x0805 hdr (keyQueue 9) s = true ∧ queueIs s 9 .fifo = true ∧ s.flag fFlcStatRebuild = false ∧ s.flc.replays = [] ∧
     kciReady 0x0806 hdr none s = true) ∧
    (let s := capturing 1 1 592 {} {}
     kciReady 0x0802 hdr none s = true ∧ s.flag fFlcStatRunning = true ∧ s.pack.hold = none ∧ s.flc.seg = none ∧
     (∀ g ∈ s.flash.segs, g.2.closing = true → g.2.closed = true)) ∧
    freePoint (array [] seg { points := (List.range 256).map (fun i => (i, ⟨0, 0, false, false⟩)) }) = none ∧
    reclaimed (array [] seg { gone := [(0, 100)] }) 99 = true := by
  decide +kernel

/-- A host job of one block in HBM at 0x10000. -/
def packOp (count : Nat) : PackOp := ⟨0, count, 0x10000, 0x20000, 288, 0x30000⟩

/-- PackJobs: the first free place, the last, none, a job that ends, one that stops and one that has stopped. -/
theorem witness_pack_jobs :
    firstErr (packChecks false (packOp 1)) = none ∧ firstErr (packChecks true { packOp 1 with outLen := 576 }) = none ∧
    kciReady 0x0701 hdr none (up []) = true ∧
    (let s := { up [(fPackCtlEn, 1)] with hif := { isOpen := true, waits := [⟨7, 0x0701, none, .job 15⟩] }
                                          pack := { jobs := (List.range 16).map (fun k => (k, { decode := false, op := packOp 1 })) } }
     (∀ k, k < 16 → (mapFind? k s.pack.jobs).isSome = true) ∧ s.flag fPackCtlEn = true ∧
     (mapFind? 15 s.pack.jobs).map (fun j => (j.stopped, j.done, j.used, j.bytes, j.misses, j.op.count)) = some (false, 0, 0, 0, 0, 1)) ∧
    ((packEncode 0 (memReadList [] 0x10000 576)).map (fun b => b.length)) = some 288 ∧ (288 : Nat) ≤ (packOp 1).outLen ∧ 287 < 288 ∧
    (packDecode 0 (memReadList [] 0x10000 (ratioBytes 0))).isNone = true ∧
    (let s := { up [] with pack := { jobs := [(15, { decode := false, op := packOp 2, stopped := true })] } }
     kciReady 0x0702 hdr (keyJob 15) s = true ∧ kciReady 0x0703 hdr (keyJob 15) s = true ∧ 0x20000 % 64 = 0 ∧ 1 ≤ 288 ∧
     (mapFind? 15 s.pack.jobs).map (fun j => j.stopped) = some true) := by
  decide +kernel

/-- A port of MADI that receives and sends, with its account and queues. -/
def madi (lock : Nat) (held : List Item) (quota : Nat) : State :=
  { up [(fMadiPpCtlEn 3, 1), (fMadiPpCtlRxEn 3, 1), (fMadiPpCtlTxEn 3, 1), (fMadiPpStatRxLock 3, lock), (fMadiPpCtlBlock 3, 1), (fMadiPpCtlSlipThr 3, 1),
        (fMadiPpQueueRx 3, 9), (fMadiPpQueueTx 3, 10), (fMadiPpAccountAccount 3, 1), (fSeedPoolGranCount, 1024)] with
    time := { t := timeOfTick 1001 }, clk := 5
    mq := [(9, { mode := .async, depth := 16, retain := 0, account := 2 }), (10, { mode := .async, depth := 16, retain := 0, account := 2, held := held })]
    seed := { accts := [(1, { kind := .port, quota := quota, attach := 0x88 }), (2, { kind := .queue, quota := 6 })], freeA := 1024, freeB := 1024 } }

/-- MadiPorts: a block with credit and without, a drift at the threshold, a lock, a loss, and items on time, early and late. -/
theorem witness_madi :
    (let s := madi 1 [] 6
     let b := madiBlock s 3
     b = 6 ∧ madiRx s 3 = true ∧ s.flag (fMadiPpStatRxLock 3) = true ∧ (s.acct 1).held + b ≤ (s.acct 1).quota ∧ b ≤ s.seed.freeA ∧ b ≤ poolSize s ∧
     (s.queue? 9).map (fun x => (decide (x.mode = .async), x.held.length, x.freedAt, x.depth)) = some (true, 0, none, 16) ∧ pendingPops s 9 = 0 ∧
     (s.acct 2).held + b ≤ (s.acct 2).quota ∧ 62500 * s.fld (fMadiPpCtlSlipThr 3) ≤ 3 * (20833 : Int).natAbs + 2 ∧
     3 * (20832 : Int).natAbs + 2 < 62500 * s.fld (fMadiPpCtlSlipThr 3) ∧
     s.flag (fMadiPpCtlEn 3) = true ∧ s.flag (fMadiPpCtlTxEn 3) = true ∧ s.txHold = [] ∧ timeOfTick (madiExamTick s 3) ≤ s.time.t ∧
     (let k := (madiExamTick s 3 + 1 - b) % 2 ^ 32
      0 < tickDiff (k + 6) k ∧ tickDiff (k - 6) k < 0 ∧ (0 : Nat) ≠ s.clk)) ∧
    (madi 1 [] 6).tag = (fun _ => {}) ∧ (((madi 1 [] 5).acct 1).quota < ((madi 1 [] 5).acct 1).held + 6 ∧ poolSize (madi 1 [] 5) ≠ 0) ∧
    (madi 0 [] 6).flag (fMadiPpStatRxLock 3) = false ∧ ((madi 1 [⟨{ handle := 8, key := 996 }, 0, 0⟩] 6).queue? 10).map (fun x => x.markSet) = some false := by
  refine ⟨by decide +kernel, rfl, by decide +kernel, by decide +kernel, by decide +kernel⟩

/-- A radio port with its link up and carrier 11 on. -/
def radio (r : RfpPort) (fs : List (Fld × Nat)) : State :=
  { up ([(fRfpCtlEn 7, 1), (fRfpCtlRxEn 7, 1), (fRfpCtlTxEn 7, 1), (fRfpStatRxData 7, 1), (fRfpCarCtlEn 7 11, 1), (fRfpCarCtlPinrst 7 11, 1)] ++ fs) with
    rfp := [(7, r)] }

/-- SamplePorts: samples at both ends of their range, a carrier that settles, one whose reset is at its point, edges on time and off, and a full tap. -/
theorem witness_samples :
    (let s := radio {} []
     rxUp s 7 = true ∧ (s.rport 7).cars = [] ∧ rxEnabled s 7 = true ∧ (s.rport 7).pos = none ∧ -(2 ^ 15 : Int) ≤ (s.rport 7).prevI ∧
     s.fld (fRfpDcbFreeze 7) = 0 ∧ (320 : Int).natAbs ≤ 320 ∧ 320 < (-321 : Int).natAbs ∧ s.flag (fRfpCarCtlEn 7 11) = true ∧
     s.flag (fRfpCarCtlPinrst 7 11) = true ∧ s.flag (fRfpCtlTxEn 7) = true ∧ (s.rport 7).tap.length < 256) ∧
    (radio {} [(fRfpDcbFreeze 7, 1)]).fld (fRfpDcbFreeze 7) = 1 ∧ (radio {} [(fRfpStatRxData 7, 0)]).flag (fRfpStatRxData 7) = false ∧
    (let s := radio { pos := some 99, cars := [(11, { start := some 100 })] } []
     rxUp s 7 = true ∧ (s.rport 7).cars = [(11, { start := some 100 })] ∧ (s.rport 7).pos = some 99 ∧ (99 : Int) < 100) ∧
    (let s := radio { pos := some 100, cars := [(11, { due := true, at_ := some 100 })] } []
     (s.carrier 7 11).due = true ∧ (s.carrier 7 11).at_ = some 100 ∧ (s.rport 7).pos = some 100 ∧ scheduledBytes s (rfpId 7) = []) ∧
    (let s := { radio { tap := List.replicate 256 ⟨0, 0, 0, false⟩ } [(fRfpTapAccountAccount 7, 1), (fRfpTapQueue 7, 9)] with
                mq := [(9, { mode := .async, depth := 16, retain := 0, account := 2 })]
                seed := { accts := [(1, { kind := .port, quota := 4 })], freeA := 4, freeB := 4 } }
     256 ≤ (s.rport 7).tap.length ∧ (s.acct 1).held + 4 ≤ (s.acct 1).quota ∧ 4 ≤ s.seed.freeA ∧ ({ s with seed := {} } : State).seed.freeA < 4 ∧
     (s.queue? (s.fld (fRfpTapQueue 7))).map (fun x => decide (x.mode = .async)) = some true) := by
  decide +kernel

/-- A port whose slot at tick 24 × `n` is in progress, with link records by number. -/
def modem (n : Nat) (m : MPort) (links : List (Nat × MLink)) (rx : List RxSlot) : State :=
  { up [(fMdmCtlEn, 1), (fMdmPpCfgSyncThr 7, 26), (fMdmPpCfgSyncWin 7, 8), (fMdmPpCfgCapMargin 7, 6), (fRfpStatRxData 7, 1), (fMdmAccountAccount, 1)] with
    time := { t := timeOfTick (24 * n + 263) }, mdm := { ports := [(7, { m with slot := some (24 * n) })], links := links, rx := rx } }

/-- RadioSlots: a downlink slot that one link sends in, an uplink slot, a repeated one, and an AGC that runs. -/
theorem witness_slots :
    (let l := slotLink 7 0 11
     let x (l : Nat) : MLink := { rec_ := ⟨l, 0, 1, 0, 0, 0, 0, 10, 0, 0, 0⟩ }
     let s := modem 0 {} [(l, x l), (slotLink 7 24 0, x (slotLink 7 24 0))] []
     modemRuns s 7 = true ∧ s.txHold = [] ∧ (let s := { s with time := { t := timeOfTick 264 } }; timeOfTick (nextSlot s 7) ≤ s.time.t) ∧ timeOfTick (takeSlot s 7 - s.fld (fMdmPpCfgTxLead 7)) ≤ s.time.t ∧
     (s.mport 7).slot = some 0 ∧ (s.mport 7).begun = false ∧ slotNo 0 < 5 ∧ (s.mport 7).served = none ∧ (s.mport 7).taken = [] ∧
     (∀ d, d < 12 → ((s.mlink (slotLink 7 0 d)).rec_.txEn = 1 ↔ d = 11)) ∧
     (∀ d, d < 12 → ((s.mlink (slotLink 7 (takeSlot s 7) d)).rec_.txEn = 1 ↔ d = 0)) ∧
     (∀ c, c < 12 → (s.mlink (slotLink 7 48 c)).rec_.txEn ≠ 1) ∧ modemRuns s 8 = false ∧ modemRuns (up []) 7 = false) ∧
    (let s := modem 5 { agc := 0x28122001, updates := 4 } [] []
     5 ≤ slotNo 120 ∧ (s.mport 7).slot = some 120 ∧ (s.mport 7).repeat_ = false ∧ agcOn s 7 = true ∧ s.flag (fMdmPpGainFrozen 7) = false ∧
     (s.mport 7).updates ≠ 0 ∧ s.flag (fRfpStatRxData 7) = true) ∧
    (modem 9 { repeat_ := true } [] []).mport 7 = { repeat_ := true, slot := some 216 } ∧
    (let s := radio {} [(fRfpStatTxData 7, 1)]
     (s.flag (fRfpCtlEn 7) && s.flag (fRfpCtlTxEn 7) && s.flag (fRfpStatTxData 7) && s.flag (fRfpCarCtlEn 7 11)) = true) ∧
    ((modem 0 {} [] []).flag (fRfpCtlEn 7)) = false := by
  decide +kernel

/-- RadioSlots, takes: a queue with an entry for the slot and one that is too early. -/
theorem witness_takes :
    (let s := modem 0 {} [] []
     let st := takeSlot s 7
     tickDiff st st = 0 ∧ 0 < tickDiff (st + 240) st) ∧
    (let o : ModemOp := ⟨0, 0, 1, 0, 0, 0, 0, 10, 0, 0, 0⟩
     txFormatOk o { len := 46, aux := 0 } = true ∧ txFormatOk o { len := 47, aux := 0 } = false) := by
  decide +kernel

/-- The slot of link 7 × 60 + 11 at uplink slot 5. -/
def rxAt (stage : RxStage) : RxSlot := { link := slotLink 7 120 11, start := 120, rec_ := ⟨slotLink 7 120 11, 1, 0, 0, 9, 5, 14, 0, 0, 0, 0⟩, stage := stage
                                         cur := some ⟨26, 73, 188, 0⟩ }

/-- RadioReceptions: a slot in every stage, detections at the thresholds, and a window that closes. -/
theorem witness_receptions :
    (∀ st ∈ [RxStage.search, .header, .payload, .decoding, .ended],
      let s := modem 5 {} [] [rxAt st]
      modemRuns s 7 = true ∧ s.rxSlot 7 11 = some (rxAt st) ∧ (rxAt st).closed = false ∧ s.fld (fMdmPpCfgSyncThr 7) ≤ 26 ∧ apart 88 80 ≤ s.fld (fMdmPpCfgSyncWin 7) ∧
      s.fld (fMdmPpCfgSyncWin 7) < apart 89 80 ∧ 25 < s.fld (fMdmPpCfgSyncThr 7) ∧ apart 74 73 ≤ 1 ∧ 1 < apart 75 73 ∧ s.fld (fMdmPpCfgCapMargin 7) ≠ 0 ∧
      188 + 4 * s.fld (fMdmPpCfgCapMargin 7) ≤ 212 ∧ 211 < 188 + 4 * s.fld (fMdmPpCfgCapMargin 7) ∧
      symbolTime 120 (80 + s.fld (fMdmPpCfgSyncWin 7)) ≤ s.time.t) ∧
    (modem 5 {} [] []).rxSlot 7 11 = none := by
  decide +kernel

/-- A header of a link and a type, with its CRC-6. -/
def headerBits (link typ : Nat) : List Bool :=
  let bs := msbBits 2 2 ++ msbBits 9 link ++ msbBits 3 typ ++ msbBits 4 11 ++ msbBits 4 3 ++ List.replicate 8 false
  bs ++ msbBits 6 (crc6 bs)

/-- RadioReceptions, headers: the link's own packet, another link's, an EMPTY one, and a bit in error. -/
theorem witness_headers :
    (headerBits 479 0).length = 36 ∧ crc6 ((headerBits 479 0).take 30) = msbNat ((headerBits 479 0).drop 30) ∧
    msbNat (((headerBits 479 0).drop 11).take 3) = 0 ∧ msbNat (((headerBits 479 0).drop 2).take 9) = 479 ∧
    msbNat (((headerBits 479 1).drop 11).take 3) = 1 ∧ crc6 ((headerBits 479 0).take 29 ++ [true]) ≠ msbNat ((headerBits 479 0).drop 30) := by
  decide +kernel

/-- RadioReceptions, the pool and the delivery: an engine that is free, a job that ends, and slots that ended well, ill and without credit. -/
theorem witness_decoding :
    (let s := { modem 5 {} [] [rxAt .payload] with regs := ((modem 5 {} [] []).setFld fLdpcCtlEn 1).regs }
     (s.mdm.rx.find? (fun r => decide (linkPort r.link = 7) && decide (linkCarrier r.link = 11) && decide (r.stage = .payload))) = some (rxAt .payload) ∧
     s.flag fLdpcCtlEn = true ∧ s.mdm.wait = [] ∧ s.mdm.run.length < 16) ∧
    (let j : LdpcJob := ⟨slotLink 7 120 11, 120, 0, 20⟩
     let s := { modem 5 {} [] [] with mdm := { run := [j], rx := [rxAt .decoding] } }
     s.mdm.run.find? (fun j => decide (linkPort j.link = 7) && decide (linkCarrier j.link = 11)) = some j ∧
     s.mdm.rx.find? (fun r => decide (r.link = j.link) && decide (r.start = j.start) && decide (r.stage = .decoding)) = some (rxAt .decoding)) ∧
    (let s := { modem 5 {} [] [{ rxAt .ended with status := 6 }] with
                mq := [(9, { mode := .fifo, depth := 4, retain := 0, account := 2 })], bull := { nodes := [(5, nodeD)] }
                seed := { accts := [(1, { kind := .port, quota := 1 })], freeA := 1, freeB := 1 } }
     slotLink 7 120 11 < 480 ∧ (s.mdm.rx.find? (fun r => decide (r.link = slotLink 7 120 11) && decide (r.stage = .ended))).map (fun r => r.status) = some 6 ∧
     (s.queue? 9).map (fun q => (decide (q.mode = .fifo), decide (q.count < q.depth))) = some (true, true) ∧ (s.mport 7).posts = [] ∧ (s.node? 5).isSome = true ∧
     (s.acct (s.fld fMdmAccountAccount)).held + 1 ≤ (s.acct (s.fld fMdmAccountAccount)).quota ∧ 1 ≤ s.seed.freeA ∧ ({ s with seed := {} } : State).seed.freeA < 1) ∧
    plainPost nodeD := by
  refine ⟨by decide +kernel, by decide +kernel, by decide +kernel, Or.inl rfl⟩

/-- RadioReceptions, links: a post that waits, an offer that agrees and one that does not, and operands at the ends of their ranges. -/
theorem witness_links :
    (let s := { modem 5 { posts := [(5, 14)] } [(419, { rec_ := ⟨419, 1, 0, 0, 0, 0, 0, 0, 0, 0, 0⟩ })] [] with bull := { nodes := [(5, nodeD)] } }
     (s.mport 7).posts = [(5, 14)] ∧ (s.node? 5).isSome = true ∧ svcUp s = true ∧ s.flag fMdmCtlEn = true ∧ (s.mlink 419).rec_.rxEn = 1 ∧
     kciReady 0x0B01 hdr (keyLink 479) s = true ∧ kciReady 0x0B02 hdr (keyLink 479) s = true ∧ (s.mlink 479).sched = none) ∧
    firstErr (modemChecks ⟨479, 0, 0, 1, 0, 0, 0, 0, 0, 0, 0⟩) = none ∧ (agree ⟨1, 1, [0], 1, 5⟩).isSome = true ∧ (agree ⟨15, 15, [0], 1, 5⟩).isNone = true := by
  decide +kernel

/-- PeerLinks: a link that is up and heard, one that LINK.OPEN waits for, timers at their ends, and a port whose link is down. -/
theorem witness_peers :
    (let x : WlLink := { port := 1, ip := 1, udp := 2, st := 1 }
     let s := { up [(fNetCtlEn 1, 1), (fNetStatLink 1, 1)] with
                peers := [(63, x), (62, { x with st := 0 })], clk := 75000000, hif := { isOpen := true, waits := [⟨7, 0x0A01, none, .link 63⟩] } }
     (s.peer? 63).isSome = true ∧ svcUp s = true ∧ s.flag (fNetCtlLoop 1) = false ∧ svcUp (device []) = false ∧ linkUp s 1 = true ∧ linkUp s 2 = false ∧ s.hif.waits = [⟨7, 0x0A01, none, .link 63⟩] ∧
     x.sent + 25000000 ≤ s.clk ∧ x.heard + 75000000 ≤ s.clk ∧ x.st = 1 ∧ (s.peer? 0).isNone = true ∧ kciReady 0x0A01 hdr (keyLink 0) s = true ∧
     kciReady 0x0A02 hdr (keyLink 63) s = true ∧ kciReady 0x0A03 hdr (keyLink 63) s = true) := by
  decide +kernel

/-- A graph image without sections. -/
def blank : GraphImage := ⟨0x4B47, 1, true, true, [], [], [], [], [], [], [], [], []⟩

/-- A code record for every cluster. -/
def codeRec : GraphBytes := ⟨65535, 0x1000, [1, 2, 3, 4]⟩

/-- GraphCommands: a range that is free and one that is taken, a graph without nodes, one with a running node, one that others name, and a reload. -/
theorem witness_graphs :
    AccountLegal ⟨4095, 1, 2 ^ 24, 0, 0⟩ ∧ QueueLegal ⟨9, 1, 16, 0, 3⟩ ∧
    (∀ ecc ∈ [0, 1],
     let s := { up [(fUmpCtlEccEn, ecc)] with
       graphs := [(3, { code := [(65535, 0x1000, 4)] }), (4, { nodes := [5] })]
       bull := { nodes := [(5, { nodeD with st := .running })] }, mq := [(9, { mode := .fifo, depth := 16, retain := 0, account := 3 })] }
     kciReady 0x0101 hdr none s = true ∧ (mapFind? 255 s.graphs).isNone = true ∧ (mapFind? 3 s.graphs).isSome = true ∧ rangeInside false codeRec = true ∧
     rangeTaken false 255 codeRec s = true ∧ firstErr (imageChecks blank) = none ∧
     firstErr (imageChecks { blank with accounts := [⟨4096, 1, 0, 0, 0⟩] }) = some 2 ∧ s.flag fUmpCtlEccEn = decide (ecc = 1) ∧ rangeTaken false 255 codeRec (up []) = false ∧
     rangeInside true { codeRec with addr := 0x100000 } = true ∧ rangeInside true codeRec = false ∧ (s.acct 4095).kind = .closed ∧ (s.queue? 9).isSome = true ∧
     kciReady 0x0102 hdr none s = true ∧ s.flag fBullCtlEn = true ∧ namedOutside { code := [(65535, 0x1000, 4)] } s = false ∧
     namedOutside { nodes := [5] } s = false ∧ namedOutside { accounts := [3] } s = true ∧ s.hif.waits = [] ∧
     (s.node? 5).map (fun d => decide (d.st = .running)) = some true ∧ kciReady 0x0103 hdr none s = true ∧
     [(65535, 0x1000, 4)] = [codeRec].map (fun r => (r.clusters, r.addr, r.bytes.length))) := by
  refine ⟨?_, ?_, by decide +kernel⟩
  · unfold AccountLegal; decide +kernel
  · unfold QueueLegal; decide +kernel

/-- StagedChanges, stages: a node's last descriptor byte, and a target that is scheduled. -/
theorem witness_stages :
    (let s := withNode nodeD
     chkTarget 5 = none ∧ kciReady 0x0301 hdr (keyTarget 5) s = true ∧ (∀ i, i < 48 → mayStage s 5 i = true) ∧ targetIs s 5 = true ∧ targetIs s 7 = false ∧
     isScheduled s 5 = false ∧ s.cfg.length < 1024 ∧ kciReady 0x0302 hdr (keyTarget 5) s = true) ∧
    isScheduled { withNode nodeD with cfg := [(3 * 2 ^ 28 + 0x60, { scheduled := true })] } (3 * 2 ^ 28 + 0x60) = true ∧
    1024 ≤ (List.replicate 1024 (0, ({} : Stage))).length := by
  refine ⟨by decide +kernel, by decide +kernel, ?_⟩
  rw [List.length_replicate]

/-- StagedChanges, commits: a node whose staged set passes, DISARMED and not, flows whose staged blocks pass, and a block. -/
theorem witness_commits :
    (let s := { withNode nodeD with cfg := [(5, { bytes := [(0x800000 + 0x14, 3)] })] }
     (mapFind? 5 s.cfg).isSome = true ∧ (hostNode s 5).isSome = true ∧ firstErr (nodeSetChecks s 5 nodeD [] []) = none ∧ s.hif.waits = [] ∧
     firstErr (nodeSetChecks s 5 { nodeD with st := .armed } [] []) = none) ∧
    (let s := { wired [] with cfg := [(2 ^ 28 + 7, {})] }
     (mapFind? 7 s.net.rx).isSome = true ∧ kciReady 0x0302 hdr (keyTarget (2 ^ 28 + 7)) s = true ∧
     (let b := rxFrom (withStaged (rxBytes rxBlk) [])
      b.flow = 7 ∧ rxBytes b = withStaged (rxBytes rxBlk) [] ∧ firstErr (rxChecks s b) = none ∧ keyTaken s 7 b = false ∧ queueIs s b.queue .ordered = true)) ∧
    (let s := { egress 1000 [] with cfg := [(2 * 2 ^ 28 + 8, {})] }
     (mapFind? 8 s.net.tx).isSome = true ∧ kciReady 0x0302 hdr (keyTarget (2 * 2 ^ 28 + 8)) s = true ∧
     (let b := txFrom true (withStaged (txBytes txBlk) [])
      b.flow = 8 ∧ txBytes b = withStaged (txBytes txBlk) [] ∧ firstErr (txChecks s b) = none ∧ queueIs s b.queue .fifo = true)) ∧
    (let s := { up [] with cfg := [(3 * 2 ^ 28 + 0x60, {})] }
     chkTarget (3 * 2 ^ 28 + 0x60) = none ∧ kciReady 0x0302 hdr (keyTarget (3 * 2 ^ 28 + 0x60)) s = true ∧ (0x60 : Nat) ≠ 0x78 ∧
     firstErr (blockChecks s 0x60 []) = none) ∧
    (let s := { up [] with cfg := [(3 * 2 ^ 28 + 0x78, { bytes := [(0x10, 2)] })] }
     chkTarget (3 * 2 ^ 28 + 0x78) = none ∧ kciReady 0x0302 hdr (keyTarget (3 * 2 ^ 28 + 0x78)) s = true ∧ isScheduled s (3 * 2 ^ 28 + 0x78) = false ∧
     firstErr (blockChecks s 0x78 [(0x10, 2)]) = none ∧ (firstErr (blockChecks s 0x78 [(0x10, 3)])).isSome = true) ∧
    (firstErr (blockChecks (up []) 0x60 [(0x100, 6)])).isSome = true ∧
    (firstErr (nodeSetChecks (withNode nodeD) 5 nodeD [(12, 0)] [])).isSome = true := by
  decide +kernel

/-- StepRunsFront: a command at the front runs, and the rest of the queue waits. -/
theorem test_step_front :
    let s := { up [] with pending := [.pllLock 6, .ppsInLoss] }
    (match step s with | .next t => some (t.pending, t.fld (fGlbPllStatLock.bit 6)) | _ => none) = some ([.ppsInLoss], 1) := by
  decide +kernel

end Sys2Proof.Tests
end

section
/-!
PROOFS. Staged changes: what CFG.STAGE, CFG.COMMIT and its discard answer by the kind and the state of their target (R296 to R301), with the
facts about completions, loopback and staged bytes that this needs.
-/

namespace Sys2Proof.Machine

/-! ## Instructions that may run -/

/-- What does not read the host interface reads the same once an instruction has started. -/
theorem started_same {α : Type} (f : State → α) (op : Nat) (h : KciHdr) (s : State) (hf : ∀ x, f { s with hif := x } = f s) :
    f (started op h s) = f s := by
  obtain ⟨o, e⟩ := started_is op h s
  rw [e]; exact hf _

theorem Kept.mild {ps : List Part} {s t : State} (k : Kept ps s t) (hp : .regs ∉ ps ∧ .hif ∉ ps ∧ .out ∉ ps) : Mild ps [] s t :=
  mild_of k (k .regs hp.1) (k .hif hp.2.1) (k .out hp.2.2)

/-- A command fails with a status, and nothing changes but what its completion does (R17). -/
abbrev FailsWith (i : Instr) (op : Nat) (h : KciHdr) (s : State) (st : Nat) : Prop :=
  ∃ t, exec i s = .next t ∧ Done op h st [] [] [] s t ∧ Kept [.regs, .hif, .out] s t

section
variable {i : Instr} {op : Nat} {h : KciHdr} {key : Option (Nat × Nat)} {operands : State → List Check} {f : State → KciRes} {s u : State}
  {ps : List Part}

/-- An instruction that may run depends on its effect only where its checks run. -/
theorem kci_congr {g : State → KciRes} (hr : kciReady op h key s = true) (hc : firstErr (operands (started op h s)) = none)
    (hf : f (started op h s) = g (started op h s)) : kci op h key operands f s = kci op h key operands g s := by
  rw [kci_run hr hc, kci_run hr hc, hf]

/-- A command that is an instruction which fails one of its own checks (R17). -/
theorem fails {st : Nat} (he : exec i s = .next (kci op h key operands f s)) (hr : kciReady op h key s = true)
    (hc : firstErr (operands (started op h s)) = none) (hop : op ≠ 0x0C01) (hf : f (started op h s) = kciFail st (started op h s)) :
    FailsWith i op h s st :=
  ⟨_, he, kci_fails hr hc hf hop⟩

/-- A command that succeeds at once, with an effect on parts other than registers, the host interface and messages. -/
theorem succeeds (he : exec i s = .next (kci op h key operands f s)) (hr : kciReady op h key s = true)
    (hc : firstErr (operands (started op h s)) = none) (hop : op ≠ 0x0C01) (hf : f (started op h s) = kciOk u)
    (k : Kept ps (started op h s) u) (hp : .regs ∉ ps ∧ .hif ∉ ps ∧ .out ∉ ps) :
    ∃ t, exec i s = .next t ∧ Done op h 0 [] [] [] s t ∧ Kept (.regs :: .hif :: .out :: ps) s t ∧ Kept [.regs, .hif, .out] u t :=
  completes he u 0 [] ps [] hr hc hf (k.mild hp) hop (by simp)

/-- A command that waits, after such an effect. -/
theorem waits_kept {on : WaitOn} (he : exec i s = .next (kci op h key operands f s)) (hr : kciReady op h key s = true)
    (hc : firstErr (operands (started op h s)) = none) (hop : op ≠ 0x0C01) (hf : f (started op h s) = .wait on u)
    (k : Kept ps (started op h s) u) (hp : .regs ∉ ps ∧ .hif ∉ ps ∧ .out ∉ ps) :
    ∃ t, exec i s = .next t ∧ Waits op h key on [] s t ∧ Kept (.hif :: ps) s t ∧ Kept [.hif] u t := by
  obtain ⟨t, ht, hw, ku⟩ := waits he u on ps [] hr hc hf (k.mild hp) hop
  exact ⟨t, ht, hw, (((started_kept op h s).mono (by simp)).trans (k.mono (by simp))).trans (ku.mono (by simp)), ku⟩

theorem kciReady_key (hr : kciReady op h key s = true) : keyWaits key s.hif.waits = false := by
  unfold kciReady at hr
  simp only [Bool.and_eq_true, Bool.not_eq_true'] at hr
  obtain ⟨⟨⟨-, hkey⟩, -⟩, -⟩ := hr
  exact hkey

end

/-! ## Completions -/

/-- Completions that are written change, of the registers, the head of the ring and the interrupt alone, and let nothing new wait. -/
structure Answered (s t : State) : Prop where
  regs  : RegsKept [fHifCqHeadIndex.addr, fHifIntStat.addr] s t
  waits : t.hif.waits ⊆ s.hif.waits

theorem Answered.refl (s : State) : Answered s s := ⟨fun _ _ => rfl, List.Subset.refl _⟩

theorem Answered.trans {s t u : State} (h : Answered s t) (g : Answered t u) : Answered s u :=
  ⟨fun a ha => (g.regs a ha).trans (h.regs a ha), List.Subset.trans g.waits h.waits⟩

theorem keyWaits_mono {key : Option (Nat × Nat)} {ws vs : List KciWait} (h : ws ⊆ vs) (hv : keyWaits key vs = false) : keyWaits key ws = false := by
  unfold keyWaits at *
  rw [Bool.and_eq_false_iff] at *
  refine hv.imp_right fun hv => ?_
  rw [List.any_eq_false] at *
  exact fun w hw => hv w (h hw)

theorem setWaits_answered (s : State) {ws : List KciWait} (h : ws ⊆ s.hif.waits) : Answered s (s.setHif (fun x => { x with waits := ws })) :=
  ⟨fun _ _ => rfl, h⟩

theorem cqWrite_answered (tag op st : Nat) (r : List Nat) (s : State) : Answered s (cqWrite tag op st r s) := by
  unfold cqWrite
  extract_lets head size ph v
  obtain ⟨b, hb⟩ := (raiseFld_count 0x12 (fHifIntStat.bit 0)
    ((v.setFld fHifCqHeadIndex ((head + 1) % size)).emit (.completion head tag op st ph r))).hif
  refine ⟨fun a ha => ?_, by rw [hb]; exact List.Subset.refl _⟩
  simp only [List.mem_cons, List.not_mem_nil, or_false, not_or] at ha
  rw [raiseFld_reg _ (fHifIntStat.bit 0) _ ha.2, State.reg_emit, State.reg_setFld_other _ _ _ ha.1]
  rfl

theorem takeHeld_subset : ∀ {ws before : List KciWait} {w : KciWait} {st : Nat} {r : List Nat} {rest : List KciWait},
    takeHeld before ws = some (w, st, r, rest) → rest ⊆ before ++ ws
  | [], _, _, _, _, _, h => by simp [takeHeld] at h
  | x :: ws, before, w, st, r, rest, h => by
    have next : takeHeld (before ++ [x]) ws = some (w, st, r, rest) → rest ⊆ before ++ x :: ws := by
      intro h; simpa using takeHeld_subset h
    unfold takeHeld at h
    split at h
    · split at h
      · exact next h
      · obtain ⟨-, -, -, rfl⟩ : x = w ∧ _ ∧ _ ∧ before ++ ws = rest := by simpa using h
        exact List.append_subset.mpr ⟨List.subset_append_left _ _, List.Subset.trans (List.subset_cons_self _ _) (List.subset_append_right _ _)⟩
    · exact next h

theorem flushHeld_answered : ∀ (n : Nat) (s : State), Answered s (flushHeld n s)
  | 0, s => Answered.refl s
  | n + 1, s => by
    unfold flushHeld
    split
    · next h =>
      exact ((setWaits_answered s (takeHeld_subset h)).trans (cqWrite_answered ..)).trans (flushHeld_answered n _)
    · exact Answered.refl s

theorem finishWait_answered (on : WaitOn) (st : Nat) (r : List Nat) (s : State) : Answered s (finishWait on st r s) := by
  have fold : ∀ (ws : List KciWait) (s : State), Answered s (ws.foldl (fun s w => cqWrite w.tag w.op st r s) s) := by
    intro ws
    induction ws with
    | nil => exact Answered.refl
    | cons w ws ih => exact fun s => (cqWrite_answered ..).trans (ih _)
  exact ((setWaits_answered s (List.filter_subset_self _)).trans (fold _ _)).trans (flushHeld_answered ..)

/-- An effect completes nothing where nothing waits. -/
theorem finishWait_idle {s : State} (hw : s.hif.waits = []) (on : WaitOn) (st : Nat) (r : List Nat) : finishWait on st r s = s := by
  have hh : { s.hif with waits := s.hif.waits.filter (fun w => w.on != on) } = s.hif := by rw [hw, List.filter_nil, ← hw]
  have e : s.setHif (fun x => { x with waits := x.waits.filter (fun w => w.on != on) }) = s := by
    unfold State.setHif; dsimp only; rw [hh]
  unfold finishWait
  rw [e, hw]
  simp only [List.filter_nil, List.foldl_nil, hw, List.length_nil, flushHeld]

/-- A command that completes at once while nothing that it names waits, whatever its effect did to the registers and to other instructions. -/
theorem completes_answered {i : Instr} {op : Nat} {h : KciHdr} {key : Option (Nat × Nat)} {operands : State → List Check} {f : State → KciRes}
    {s u : State} {st : Nat} {r : List Nat} (he : exec i s = .next (kci op h key operands f s)) (hr : kciReady op h key s = true)
    (hc : firstErr (operands (started op h s)) = none) (hf : f (started op h s) = .done st r u) (hw : u.hif.waits ⊆ s.hif.waits)
    (ho : s.out <+: u.out) :
    ∃ t, exec i s = .next t ∧ Completed op h st r s t ∧ Kept [.regs, .hif, .out] u t ∧ Answered u t := by
  have e : kci op h key operands f s = cqWrite h.tag op st r u := by
    rw [kci_run hr hc, hf]
    exact if_neg (by rw [keyWaits_mono hw (kciReady_key hr)]; simp)
  refine ⟨_, e ▸ he, ⟨ho.trans (cqWrite_keep (Keep.refl u)).out, u.fld fHifCqHeadIndex, u.hif.phase, ?_⟩, cqWrite_kept _ _ _ _ _, cqWrite_answered ..⟩
  obtain ⟨q, hq, -⟩ := raiseFld_out 0x12 (fHifIntStat.bit 0) (((u.setHif (fun x => { x with
    outst := dropOut h.tag op x.outst
    phase := if u.fld fHifCqHeadIndex + 1 = u.fld fHifCqSizeEntries then !u.hif.phase else u.hif.phase })).setFld fHifCqHeadIndex
    ((u.fld fHifCqHeadIndex + 1) % u.fld fHifCqSizeEntries)).emit (.completion (u.fld fHifCqHeadIndex) h.tag op st u.hif.phase r))
  exact hq ▸ List.mem_append_left q (List.mem_append_right u.out (List.mem_singleton.mpr rfl))

/-! ## CFG.STAGE -/

/-- Bytes laid into a staging copy are found there, and the others as before. -/
theorem mapFind?_stageBytes (o a : Nat) (bs : List Byte) (m : List (Nat × Byte)) :
    mapFind? a (stageBytes o bs m) = if o ≤ a ∧ a < o + bs.length then bs[a - o]? else mapFind? a m := by
  have key : ∀ (bs : List Byte) (k : Nat) (m : List (Nat × Byte)),
      mapFind? a ((bs.zipIdx k).foldl (fun m x => mapInsert (o + x.2) x.1 m) m) =
        if o + k ≤ a ∧ a < o + k + bs.length then bs[a - (o + k)]? else mapFind? a m := by
    intro bs
    induction bs with
    | nil => intro k m; rw [if_neg (by simp)]; rfl
    | cons b bs ih =>
      intro k m
      rw [List.zipIdx_cons, List.foldl_cons, ih, mapFind?_insert, List.length_cons]
      rcases Nat.lt_trichotomy a (o + k) with h | h | h
      · rw [if_neg (by omega), if_neg (by omega), if_neg (by omega)]
      · subst h; rw [if_neg (by omega), if_pos rfl, if_pos (by omega), Nat.sub_self]; rfl
      · have e : a - (o + k) = a - (o + (k + 1)) + 1 := by omega
        rw [e, List.getElem?_cons_succ]
        split_ifs <;> first | rfl | omega
  exact key bs 0 m

/-- The staging copy after a stage. -/
abbrev laid (x : Stage) (offset len : Nat) (data : List Byte) : Stage :=
  { x with bytes := stageBytes offset ((data ++ List.replicate len 0).take len) x.bytes }

theorem mapFind?_laid {data : List Byte} {len : Nat} (hd : len ≤ data.length) (x : Stage) (offset a : Nat) :
    mapFind? a (laid x offset len data).bytes = if offset ≤ a ∧ a < offset + len then data[a - offset]? else mapFind? a x.bytes := by
  have hl : (data ++ List.replicate len 0).take len = data.take len := List.take_append_of_le_length hd
  rw [mapFind?_stageBytes, hl, List.length_take, Nat.min_eq_left hd]
  split_ifs with h
  · exact List.getElem?_take_of_lt (by omega)
  · rfl

section
variable {s : State} {h : KciHdr} {target : Nat}

/-- Legal operands of CFG.STAGE pass. -/
theorem stageOperands_ok (hk : chkTarget target = none) {offset len : Nat} (ho : offset < 2 ^ 24) (h1 : 1 ≤ len) (h2 : len ≤ 48)
    (hm : ∀ i, i < len → mayStage s target (offset + i) = true) :
    firstErr [chkTarget target, chk (decide (offset < 2 ^ 24)) eRange, chkZero len, chkRange len 1 48,
      chk ((List.range len).all (fun i => mayStage (started 0x0301 h s) target (offset + i))) eRange] = none := by
  have ha : (List.range len).all (fun i => mayStage (started 0x0301 h s) target (offset + i)) = true := by
    rw [List.all_eq_true]
    intro i hi
    rw [started_same (fun s => mayStage s target (offset + i)) _ _ _ (fun _ => rfl)]
    exact hm i (List.mem_range.mp hi)
  rw [hk, chk_ok (decide_eq_true ho), chkZero_ok (by omega), chkRange_ok h1 h2, chk_ok ha]
  rfl

end

/-! ## Nodes -/

theorem onlyNode_of_bull {n : Nat} {d : NodeD} {s t : State} (hb : t.bull = (s.setNode n d).bull) : OnlyNode n d s t := by
  have hn : ∀ j, t.node? j = (s.setNode n d).node? j := fun j => by unfold State.node?; rw [hb]
  exact ⟨by rw [hb]; rfl, by rw [hn, node?_set, if_pos rfl], fun j hj => by rw [hn, node?_set, if_neg hj]⟩

theorem OnlyNode.trans {n : Nat} {d e : NodeD} {s t u : State} (h : OnlyNode n d s t) (g : OnlyNode n e t u) : OnlyNode n e s u := by
  obtain ⟨hb, -, ho⟩ := h
  obtain ⟨gb, gn, go⟩ := g
  exact ⟨by rw [gb, hb], gn, fun j hj => (go j hj).trans (ho j hj)⟩

/-- A commit that changes no context byte writes no page. -/
theorem commitPages_none {n : Nat} {d : NodeD} {s : State} (h : d.stagedCtx = []) : commitPages n d s = (s, d) := by
  have e : (List.range (classPages d.ctxClass)).filter (fun p => !(pageBytes d.stagedCtx p).isEmpty) = [] := by
    rw [h, List.filter_eq_nil_iff]
    exact fun p _ => by simp [pageBytes]
  unfold commitPages
  rw [e]; rfl

/-- A commit of descriptor fields alone, for which nothing waits. -/
theorem applyCommit_fields {n : Nat} {d : NodeD} {set : NodeSet} {s : State} (hd : s.node? n = some d) (hs : d.staged = some set)
    (hc : d.stagedCtx = []) (hw : s.hif.waits = []) :
    applyCommit n s = s.setNode n { d with set := set, staged := none, stagedCtx := [] } := by
  unfold applyCommit
  rw [hd]; dsimp only
  rw [hs]; dsimp only
  rw [commitPages_none hc]
  exact finishWait_idle (s := s.setNode n _) hw _ _ _

/-- The bytes staged to a node that lie in its descriptor, by their offset there. -/
abbrev descOf (bs : List (Nat × Byte)) : List (Nat × Byte) := (bs.filter (fun b => decide (0x800000 ≤ b.1))).map (fun b => (b.1 - 0x800000, b.2))

/-- The bytes staged to a node that lie in its context. -/
abbrev ctxOf (bs : List (Nat × Byte)) : List (Nat × Byte) := bs.filter (fun b => decide (b.1 < 0x800000))

/-- The state of a node whose staged set has passed its checks, its staging copy gone. -/
abbrev nodeStaged (n : Nat) (d : NodeD) (bs : List (Nat × Byte)) (s : State) : State :=
  dropStage n (s.setNode n { d with staged := some (stagedSet d (descOf bs)), stagedCtx := ctxOf bs })

section
variable {s : State} {n : Nat} {d : NodeD} {bs : List (Nat × Byte)}

theorem commitNode_fails {e : Nat} (hd : hostNode s n = some d) (he : firstErr (nodeSetChecks s n d (descOf bs) (ctxOf bs)) = some e) :
    commitNode n bs s = kciFail e s := by
  unfold commitNode; rw [hd]; dsimp only; rw [he]

theorem commitNode_passes (hd : hostNode s n = some d) (he : firstErr (nodeSetChecks s n d (descOf bs) (ctxOf bs)) = none) :
    commitNode n bs s = if d.st = .disarmed then kciOk (applyCommit n (nodeStaged n d bs s)) else .wait (.commit 0 n) (nodeStaged n d bs s) := by
  unfold commitNode; rw [hd]; dsimp only; rw [he]

theorem nodeStaged_kept : Kept [.bull, .cfg] s (nodeStaged n d bs s) := fun p hp => by cases p <;> first | rfl | simp at hp

theorem setNode_kept : Kept [.bull] s (s.setNode n d) := fun p hp => by cases p <;> first | rfl | simp at hp

end

/-! ## Multicast groups and loopback -/

/-- No ingress flow and no waiting instruction has changed. -/
structure FlowsSame (s t : State) : Prop where
  rx    : t.net.rx = s.net.rx
  waits : t.hif.waits = s.hif.waits

theorem FlowsSame.refl (s : State) : FlowsSame s s := ⟨rfl, rfl⟩

theorem FlowsSame.trans {s t u : State} (h : FlowsSame s t) (g : FlowsSame t u) : FlowsSame s u := ⟨g.rx.trans h.rx, g.waits.trans h.waits⟩

theorem Mild.flowsSame {ps : List Part} {as : List Nat} {s t : State} (m : Mild ps as s t) (hp : .net ∉ ps) : FlowsSame s t := by
  obtain ⟨b, hb⟩ := m.hif
  exact ⟨by rw [m.kept .net (by simpa using hp)], by rw [hb]⟩

theorem bump_flowsSame (f : Fld) (k : Nat) (s : State) : FlowsSame s (s.bump f k) := (bump_mild f k s).flowsSame (by simp)

/-- A port that receives a frame other than UDP changes no flow: no key matches it (R73). -/
theorem netReceive_flowsSame {p : Nat} {f : Frame} (hf : f.kind ≠ .udp) (s : State) : FlowsSame s (netReceive p f s) := by
  unfold netReceive
  split
  · exact FlowsSame.refl s
  · extract_lets s1 s2
    have h1 : FlowsSame s s1 := (bump_flowsSame _ _ s).trans ((pmuEvent_mild _ _ _ _).flowsSame (by simp))
    have h2 : FlowsSame s s2 := h1.trans ((bump_flowsSame _ _ s1).trans (bump_flowsSame _ _ _))
    split_ifs
    · exact h2.trans (bump_flowsSame _ _ _)
    · exact h2.trans (bump_flowsSame _ _ _)
    · exact h2.trans (bump_flowsSame _ _ _)
    · exact h2.trans (bump_flowsSame _ _ _)
    · exact h2.trans ⟨rfl, rfl⟩
    · exact h2.trans (bump_flowsSame _ _ _)

theorem svcBack_flowsSame {p : Nat} {kind : FrameKind} (hk : kind ≠ .udp) (c : UdpCarries) (v6 : Bool) (dst sport dport : Nat) (s : State) :
    FlowsSame s (svcBack p kind c v6 dst sport dport s) := by
  unfold svcBack
  split
  · exact FlowsSame.trans (t := s.draw.2) ⟨rfl, rfl⟩ (netReceive_flowsSame hk _)
  · exact FlowsSame.refl s

theorem joinKey_flowsSame (k : FlowKey) (s : State) : FlowsSame s (joinKey k s) := by
  unfold joinKey
  split
  · extract_lets s1
    have h1 : FlowsSame s s1 := ⟨rfl, rfl⟩
    clear_value s1
    split
    · exact h1.trans (svcBack_flowsSame (by decide) ..)
    · exact h1.trans (svcBack_flowsSame (by decide) ..)
  · exact FlowsSame.refl s

/-- The report by which the service cores join the group of a key (R95, R523). -/
def joinMsg (k : FlowKey) : Option OutMsg :=
  if k.present && isGroup k.ipv6 k.dst then some (.join k.port k.ipv6 k.dst (if k.srcAny then none else some k.src)) else none

/-- Joining sends the report and does nothing else where the port is not in loopback. -/
theorem joinKey_line {k : FlowKey} {s : State} (hl : k.present = true → isGroup k.ipv6 k.dst = true → s.flag (fNetCtlLoop k.port) = false) :
    joinKey k s = { s with out := s.out ++ (joinMsg k).toList } := by
  unfold joinKey joinMsg
  split
  · next hj =>
    obtain ⟨hp, hg⟩ : k.present = true ∧ isGroup k.ipv6 k.dst = true := by simpa using hj
    have back : ∀ kind c v6 dst sport dport m, svcBack k.port kind c v6 dst sport dport (s.emit m) = s.emit m := fun _ _ _ _ _ _ _ =>
      if_neg (by rw [show (s.emit _).flag (fNetCtlLoop k.port) = s.flag (fNetCtlLoop k.port) from rfl, hl hp hg]; simp)
    dsimp only
    rw [back, back, ite_self]
    rfl
  · simp

/-! ## Flows -/

/-- The state of an ingress flow whose staged block has passed its checks, its groups joined and its staging copy gone. -/
abbrev rxReplaced (n : Nat) (f : RxFlow) (b : RxBlock) (s : State) : State :=
  dropStage (2 ^ 28 + n) (joinKey b.keyB (joinKey b.keyA (s.setNet (fun w => { w with rx := mapInsert n { f with blk := b } w.rx }))))

/-- The state of an egress flow whose staged block has passed its checks, its staging copy gone. -/
abbrev txReplaced (n : Nat) (f : TxFlow) (b : TxBlock) (s : State) : State :=
  dropStage (2 * 2 ^ 28 + n) (s.setNet (fun w => { w with tx := mapInsert n { f with blk := b } w.tx }))

/-- The checks of a flow's staged block pass where those of its fields do, it names the flow and it has no byte that its fields do not give. -/
theorem blockPasses {flow n : Nat} {bs raw : List Byte} {cs : List Check} (hn : flow = n) (hr : bs = raw) (hc : firstErr cs = none) :
    firstErr ([chk (flow == n) eRange] ++ cs ++ [chk (bs == raw) eRange]) = none := by
  rw [chk_ok (beq_iff_eq.mpr hn), chk_ok (beq_iff_eq.mpr hr), List.append_assoc, firstErr_append _ _ rfl, firstErr_append _ _ hc]
  rfl

section
variable {s : State} {n : Nat} {bs : List (Nat × Byte)}

theorem commitRx_passes {f : RxFlow} (hf : mapFind? n s.net.rx = some f)
    (hn : (rxFrom (withStaged (rxBytes f.blk) bs)).flow = n)
    (hb : rxBytes (rxFrom (withStaged (rxBytes f.blk) bs)) = withStaged (rxBytes f.blk) bs)
    (hc : firstErr (rxChecks s (rxFrom (withStaged (rxBytes f.blk) bs))) = none) :
    commitRx n bs s =
      if keyTaken s n (rxFrom (withStaged (rxBytes f.blk) bs)) || !queueIs s (rxFrom (withStaged (rxBytes f.blk) bs)).queue .ordered then
        kciFail eState s
      else kciOk (rxReplaced n f (rxFrom (withStaged (rxBytes f.blk) bs)) s) := by
  unfold commitRx
  rw [hf]; dsimp only
  rw [blockPasses hn hb hc]

theorem commitTx_passes {f : TxFlow} (hf : mapFind? n s.net.tx = some f)
    (hn : (txFrom f.blk.rtcpEn (withStaged (txBytes f.blk) bs)).flow = n)
    (hb : txBytes (txFrom f.blk.rtcpEn (withStaged (txBytes f.blk) bs)) = withStaged (txBytes f.blk) bs)
    (hc : firstErr (txChecks s (txFrom f.blk.rtcpEn (withStaged (txBytes f.blk) bs))) = none) :
    commitTx n bs s =
      if !queueIs s (txFrom f.blk.rtcpEn (withStaged (txBytes f.blk) bs)).queue .fifo then kciFail eState s
      else kciOk (txReplaced n f (txFrom f.blk.rtcpEn (withStaged (txBytes f.blk) bs)) s) := by
  unfold commitTx
  rw [hf]; dsimp only
  rw [blockPasses hn hb hc]

variable {f : RxFlow} {b : RxBlock}

theorem rxReplaced_rx : (rxReplaced n f b s).net.rx = mapInsert n { f with blk := b } s.net.rx :=
  ((joinKey_flowsSame b.keyA _).trans (joinKey_flowsSame b.keyB _)).rx

theorem rxReplaced_waits : (rxReplaced n f b s).hif.waits = s.hif.waits :=
  ((joinKey_flowsSame b.keyA _).trans (joinKey_flowsSame b.keyB _)).waits

theorem rxReplaced_out : s.out <+: (rxReplaced n f b s).out :=
  (joinKey_keep (joinKey_keep (State.setNet_keep (Keep.refl s)))).out

theorem rxReplaced_cfg : (rxReplaced n f b s).cfg = mapErase (2 ^ 28 + n) s.cfg := by
  have w : Within (· ∈ [.free, .hif, .net, .out, .pmu, .regs]) s
      (joinKey b.keyB (joinKey b.keyA (s.setNet (fun w => { w with rx := mapInsert n { f with blk := b } w.rx })))) :=
    joinKey_within (Sub.refl _) (joinKey_within (Sub.refl _) (State.setNet_within (fun p h => by revert h; revert p; decide) (Within.refl s)))
  exact congrArg (mapErase (2 ^ 28 + n)) (w.same .cfg (by decide))

/-- On ports that are not in loopback the flow alone changes, and what is sent is the reports of its groups. -/
theorem rxReplaced_line (hl : ∀ k ∈ [b.keyA, b.keyB], k.present = true → isGroup k.ipv6 k.dst = true → s.flag (fNetCtlLoop k.port) = false) :
    rxReplaced n f b s = { s with
      net := { s.net with rx := mapInsert n { f with blk := b } s.net.rx }
      out := s.out ++ [b.keyA, b.keyB].filterMap joinMsg
      cfg := mapErase (2 ^ 28 + n) s.cfg } := by
  have e : [b.keyA, b.keyB].filterMap joinMsg = (joinMsg b.keyA).toList ++ (joinMsg b.keyB).toList := by
    cases ha : joinMsg b.keyA <;> cases hb : joinMsg b.keyB <;> simp [ha, hb]
  unfold rxReplaced
  rw [joinKey_line (k := b.keyA) ?_, joinKey_line (k := b.keyB) ?_, e, ← List.append_assoc]
  · rfl
  · exact hl b.keyB (by simp)
  · exact hl b.keyA (by simp)

theorem txReplaced_kept {f : TxFlow} {b : TxBlock} : Kept [.net, .cfg] s (txReplaced n f b s) :=
  fun p hp => by cases p <;> first | rfl | simp at hp

end

/-! ## Blocks -/

/-- The state in which a block's commit is scheduled. -/
abbrev blockScheduled (id : Nat) (x : Stage) (s : State) : State := { s with cfg := mapInsert (blockKey id) { x with scheduled := true } s.cfg }

theorem scheduledBytes_scheduled (id : Nat) (x : Stage) (s : State) : scheduledBytes (blockScheduled id x s) id = x.bytes := by
  unfold scheduledBytes
  rw [show (blockScheduled id x s).cfg = mapInsert (blockKey id) { x with scheduled := true } s.cfg from rfl, mapFind?_insert_self]
  rfl

theorem and_not_or_and_self (w m : Word) : (w &&& ~~~m) ||| (w &&& m) = w := by
  rw [← BitVec.and_or_distrib_left, BitVec.or_comm, BitVec.or_not_self, BitVec.and_allOnes]

/-- A commit that lies in one register writes its staged bytes into the fields that the mask marks, and completes what waits on it. -/
theorem commitRegs_single (id o m : Nat) (s : State) (ha : id * 0x2000 + o ∉ [fHifCqHeadIndex.addr, fHifIntStat.addr]) :
    (commitRegs id [(o, m)] s).reg (id * 0x2000 + o) = (s.reg (id * 0x2000 + o) &&& ~~~BitVec.ofNat 32 m) |||
      (stagedOver (scheduledBytes s id) o (s.reg (id * 0x2000 + o)) &&& BitVec.ofNat 32 m) ∧
    (commitRegs id [(o, m)] s).hif.waits ⊆ s.hif.waits := by
  unfold commitRegs
  extract_lets bs s1 left
  split
  · next hb =>
    have e : stagedOver bs o (s.reg (id * 0x2000 + o)) = s.reg (id * 0x2000 + o) := by rw [List.isEmpty_iff.mp hb]; rfl
    rw [e, and_not_or_and_self]
    exact ⟨rfl, List.Subset.refl _⟩
  · have h1 : ∀ c : List (Nat × Stage), ({ s1 with cfg := c } : State).reg (id * 0x2000 + o) = (s.reg (id * 0x2000 + o) &&& ~~~BitVec.ofNat 32 m) |||
        (stagedOver bs o (s.reg (id * 0x2000 + o)) &&& BitVec.ofNat 32 m) := fun _ => State.reg_setReg_self _ _ _
    split
    · have an := finishWait_answered (.commit 3 id) eOk [] { s1 with cfg := mapErase (blockKey id) s1.cfg }
      exact ⟨(an.regs _ ha).trans (h1 _), an.waits⟩
    · exact ⟨h1 _, List.Subset.refl _⟩

section
variable {s : State} {id : Nat} {x : Stage}

theorem commitBlock_fails {e : Nat} (he : firstErr (blockChecks s id x.bytes) = some e) : commitBlock id x s = kciFail e s := by
  unfold commitBlock; rw [he]

theorem commitBlock_pack (he : firstErr (blockChecks s 0x78 x.bytes) = none) :
    commitBlock 0x78 x s = kciOk (commitRegs 0x78 [(0x10, 3)] (blockScheduled 0x78 x s)) := by
  unfold commitBlock; rw [he]; rfl

theorem commitBlock_waits (he : firstErr (blockChecks s id x.bytes) = none) (hn : id ≠ 0x78) :
    commitBlock id x s = .wait (.commit 3 id) (if id = 0x68 then blockScheduled id x s else rfpCommit (id - 0x60) (blockScheduled id x s)) := by
  unfold commitBlock; rw [he]; exact if_neg hn

theorem blockScheduled_kept : Kept [.cfg] s (blockScheduled id x s) := fun p hp => by cases p <;> first | rfl | simp at hp

/-- Scheduling a block's commit marks its staging copy and, on a radio sample port, the carriers that it names. -/
theorem blockWaits_kept : Kept [.rfp] (blockScheduled id x s) (if id = 0x68 then blockScheduled id x s else rfpCommit (id - 0x60) (blockScheduled id x s)) := by
  split
  · exact Kept.refl _ _
  · exact (rfpCommit_within (Sub.refl _) (Within.refl _)).kept

end

/-! ## The commands by the state of their target -/

theorem started_cfg (op : Nat) (h : KciHdr) (s : State) : (started op h s).cfg = s.cfg := started_same State.cfg op h s fun _ => rfl

theorem started_isScheduled (op : Nat) (h : KciHdr) (s : State) (target : Nat) : isScheduled (started op h s) target = isScheduled s target :=
  started_same (isScheduled · target) op h s fun _ => rfl

theorem started_net (op : Nat) (h : KciHdr) (s : State) : (started op h s).net = s.net := started_same State.net op h s fun _ => rfl

theorem started_targetIs (op : Nat) (h : KciHdr) (s : State) (target : Nat) : targetIs (started op h s) target = targetIs s target :=
  started_same (targetIs · target) op h s fun _ => rfl

theorem started_waits (op : Nat) (h : KciHdr) (s : State) : (started op h s).hif.waits = s.hif.waits := by
  obtain ⟨o, e⟩ := started_is op h s; rw [e]

theorem started_out (op : Nat) (h : KciHdr) (s : State) : (started op h s).out = s.out := started_same State.out op h s fun _ => rfl

/-- Legal operands of CFG.COMMIT pass. -/
theorem chkTarget_passes {target : Nat} (hk : chkTarget target = none) : firstErr [chkTarget target] = none := by rw [hk]; rfl

/-- A target is its kind and its identifier. -/
theorem target_eq {target k : Nat} (ht : target / 2 ^ 28 = k) : target = k * 2 ^ 28 + target % 2 ^ 28 := by omega

/-- On ports that are not in loopback, replacing an ingress flow's block sends the reports of its groups and lets every other instruction be. -/
theorem rxReplaced_quiet {op : Nat} {h : KciHdr} {s : State} {n : Nat} {f : RxFlow} {b : RxBlock} (hop : op ≠ 0x0C01)
    (hl : ∀ k ∈ [b.keyA, b.keyB], k.present = true → isGroup k.ipv6 k.dst = true → s.flag (fNetCtlLoop k.port) = false) :
    Quiet op h ([b.keyA, b.keyB].filterMap joinMsg) [] s (rxReplaced n f b (started op h s)) ∧
      Kept [.out, .net, .cfg] (started op h s) (rxReplaced n f b (started op h s)) := by
  rw [rxReplaced_line (s := started op h s) fun k hm hp hg => (started_flag ..).trans (hl k hm hp hg)]
  refine ⟨?_, fun p hp => by cases p <;> first | rfl | simp at hp⟩
  obtain ⟨o, ho⟩ := started_is op h s
  exact ⟨⟨s.out, MsixAfter.refl _, by rw [started_out]; exact MsixAfter.refl _⟩, by rw [ho], rfl, by rw [ho], by rw [ho]; simp [hop],
    by rw [ho]; simp, fun a _ => by rw [ho]; rfl⟩

/-! ### A commit on a target with a staging copy, by its kind -/

section
variable {s : State} {op : Nat} {h : KciHdr} {target : Nat} {x : Stage}

theorem commitTarget_node_fails (ht : target / 2 ^ 28 = 0) {d : NodeD} {e : Nat} (hd : hostNode s (target % 2 ^ 28) = some d)
    (he : firstErr (nodeSetChecks s (target % 2 ^ 28) d (descOf x.bytes) (ctxOf x.bytes)) = some e) :
    commitTarget target x (started op h s) = kciFail e (started op h s) := by
  unfold commitTarget; rw [ht]
  exact commitNode_fails ((started_same (hostNode · _) _ _ _ fun _ => rfl).trans hd)
    ((started_same (fun s => firstErr (nodeSetChecks s _ _ _ _)) _ _ _ fun _ => rfl).trans he)

theorem commitTarget_node (ht : target / 2 ^ 28 = 0) {d : NodeD} (hd : hostNode s (target % 2 ^ 28) = some d)
    (he : firstErr (nodeSetChecks s (target % 2 ^ 28) d (descOf x.bytes) (ctxOf x.bytes)) = none) :
    commitTarget target x (started op h s) =
      if d.st = .disarmed then kciOk (applyCommit (target % 2 ^ 28) (nodeStaged (target % 2 ^ 28) d x.bytes (started op h s)))
      else .wait (.commit 0 (target % 2 ^ 28)) (nodeStaged (target % 2 ^ 28) d x.bytes (started op h s)) := by
  unfold commitTarget; rw [ht]
  exact commitNode_passes ((started_same (hostNode · _) _ _ _ fun _ => rfl).trans hd)
    ((started_same (fun s => firstErr (nodeSetChecks s _ _ _ _)) _ _ _ fun _ => rfl).trans he)

theorem commitTarget_rx (ht : target / 2 ^ 28 = 1) {f : RxFlow} (hf : mapFind? (target % 2 ^ 28) s.net.rx = some f) {b : RxBlock}
    (hb : b = rxFrom (withStaged (rxBytes f.blk) x.bytes)) (hn : b.flow = target % 2 ^ 28) (hraw : rxBytes b = withStaged (rxBytes f.blk) x.bytes)
    (hok : firstErr (rxChecks s b) = none) :
    commitTarget target x (started op h s) =
      if keyTaken s (target % 2 ^ 28) b || !queueIs s b.queue .ordered then kciFail eState (started op h s)
      else kciOk (rxReplaced (target % 2 ^ 28) f b (started op h s)) := by
  subst hb
  unfold commitTarget; rw [ht]
  refine (commitRx_passes (f := f) ((congrArg (fun w => mapFind? _ w.rx) (started_net ..)).trans hf) hn hraw
    ((started_same (fun s => firstErr (rxChecks s _)) _ _ _ fun _ => rfl).trans hok)).trans ?_
  rw [started_same (fun s => keyTaken s _ _) _ _ _ fun _ => rfl, started_same (fun s => queueIs s _ _) _ _ _ fun _ => rfl]

theorem commitTarget_tx (ht : target / 2 ^ 28 = 2) {f : TxFlow} (hf : mapFind? (target % 2 ^ 28) s.net.tx = some f) {b : TxBlock}
    (hb : b = txFrom f.blk.rtcpEn (withStaged (txBytes f.blk) x.bytes)) (hn : b.flow = target % 2 ^ 28)
    (hraw : txBytes b = withStaged (txBytes f.blk) x.bytes) (hok : firstErr (txChecks s b) = none) :
    commitTarget target x (started op h s) =
      if !queueIs s b.queue .fifo then kciFail eState (started op h s)
      else kciOk (txReplaced (target % 2 ^ 28) f b (started op h s)) := by
  subst hb
  unfold commitTarget; rw [ht]
  refine (commitTx_passes (f := f) ((congrArg (fun w => mapFind? _ w.tx) (started_net ..)).trans hf) hn hraw
    ((started_same (fun s => firstErr (txChecks s _)) _ _ _ fun _ => rfl).trans hok)).trans ?_
  rw [started_same (fun s => queueIs s _ _) _ _ _ fun _ => rfl]

theorem commitTarget_block (ht : target / 2 ^ 28 = 3) : commitTarget target x s = commitBlock (target % 2 ^ 28) x s := by
  unfold commitTarget; rw [ht]; rfl

theorem started_blockChecks (op : Nat) (h : KciHdr) (s : State) (id : Nat) (bs : List (Nat × Byte)) :
    firstErr (blockChecks (started op h s) id bs) = firstErr (blockChecks s id bs) :=
  started_same (fun s => firstErr (blockChecks s id bs)) op h s fun _ => rfl

end

section
variable {s : State} {h : KciHdr} {target offset len : Nat} {data : List Byte}
  (hr : kciReady 0x0301 h (keyTarget target) s = true)
  (hc : firstErr [chkTarget target, chk (decide (offset < 2 ^ 24)) eRange, chkZero len, chkRange len 1 48,
    chk ((List.range len).all (fun i => mayStage (started 0x0301 h s) target (offset + i))) eRange] = none)
include hr hc

theorem cfgStage_absent (ht : targetIs s target = false) : FailsWith (.cfgStage h target offset len data) 0x0301 h s 4 :=
  fails rfl hr hc (by decide) (if_pos (by rw [started_targetIs, ht]; rfl))

variable (ht : targetIs s target = true)
include ht

theorem cfgStage_scheduled (hs : isScheduled s target = true) : FailsWith (.cfgStage h target offset len data) 0x0301 h s 3 := by
  refine fails rfl hr hc (by decide) ?_
  dsimp only
  rw [started_targetIs, ht, started_isScheduled, hs]
  rfl

theorem cfgStage_full (hs : isScheduled s target = false) (hn : mapFind? target s.cfg = none) (hl : 1024 ≤ s.cfg.length) :
    FailsWith (.cfgStage h target offset len data) 0x0301 h s 6 := by
  refine fails rfl hr hc (by decide) ?_
  dsimp only
  rw [started_targetIs, ht, started_isScheduled, hs, started_cfg, hn, decide_eq_true hl]
  rfl

/-- A stage lays its bytes over what was staged to the target, and leaves every other staging copy (R296, R297). -/
theorem cfgStage_lays (hs : isScheduled s target = false) (hn : mapFind? target s.cfg ≠ none ∨ s.cfg.length < 1024) (hd : len ≤ data.length) :
    ∃ t y, exec (.cfgStage h target offset len data) s = .next t ∧ Done 0x0301 h 0 [] [] [] s t ∧ Kept [.regs, .hif, .out, .cfg] s t ∧
      mapFind? target t.cfg = some y ∧ (∀ j, j ≠ target → mapFind? j t.cfg = mapFind? j s.cfg) ∧
      ∀ a, mapFind? a y.bytes =
        if offset ≤ a ∧ a < offset + len then data[a - offset]? else mapFind? a (mapGet ({} : Stage) target s.cfg).bytes := by
  have hroom : ((mapFind? target s.cfg).isNone && decide (1024 ≤ s.cfg.length)) = false := by
    rw [Bool.and_eq_false_iff]
    exact hn.imp (fun h => by simpa [← Option.isSome_iff_ne_none] using h) (fun h => by simpa using h)
  obtain ⟨t, e, d, k, ku⟩ := succeeds (ps := [.cfg])
    (u := { started 0x0301 h s with cfg := mapInsert target (laid (mapGet {} target s.cfg) offset len data) s.cfg })
    (show exec (.cfgStage h target offset len data) s = _ from rfl) hr hc (by decide)
    (by dsimp only
        rw [started_targetIs, ht, started_isScheduled, hs, started_cfg, hroom]
        rfl)
    (fun p hp => by cases p <;> first | rfl | simp at hp) (by decide)
  have hcfg : t.cfg = mapInsert target (laid (mapGet {} target s.cfg) offset len data) s.cfg := ku .cfg (by decide)
  exact ⟨t, _, e, d, k, by rw [hcfg, mapFind?_insert_self], fun j hj => by rw [hcfg, mapFind?_insert_other hj], mapFind?_laid hd _ _⟩

end

section
variable {s : State} {h : KciHdr} {target : Nat} (hk : chkTarget target = none) (hr : kciReady 0x0302 h (keyTarget target) s = true)
include hk hr

theorem cfgCommit_scheduled (hs : isScheduled s target = true) :
    FailsWith (.cfgCommit h target) 0x0302 h s 3 ∧ FailsWith (.cfgCommitDiscard h target) 0x0302 h s 3 :=
  have hs' := (started_isScheduled 0x0302 h s target).trans hs
  ⟨fails rfl hr (chkTarget_passes hk) (by decide) (if_pos hs'), fails rfl hr (chkTarget_passes hk) (by decide) (if_pos hs')⟩

variable (hs : isScheduled s target = false)
include hs

theorem cfgCommit_unstaged (hn : mapFind? target s.cfg = none) :
    FailsWith (.cfgCommit h target) 0x0302 h s 4 ∧ FailsWith (.cfgCommitDiscard h target) 0x0302 h s 4 := by
  refine ⟨fails rfl hr (chkTarget_passes hk) (by decide) ?_, fails rfl hr (chkTarget_passes hk) (by decide) ?_⟩
  · rw [started_isScheduled, hs, started_cfg, hn]; rfl
  · rw [started_isScheduled, hs, started_cfg, hn]; rfl

variable {x : Stage} (hx : mapFind? target s.cfg = some x)
include hx

/-- A discard drops the staging copy and no other (R298). -/
theorem cfgCommitDiscard_drops :
    ∃ t, exec (.cfgCommitDiscard h target) s = .next t ∧ Done 0x0302 h 0 [] [] [] s t ∧ Kept [.regs, .hif, .out, .cfg] s t ∧
      mapFind? target t.cfg = none ∧ ∀ j, j ≠ target → mapFind? j t.cfg = mapFind? j s.cfg := by
  obtain ⟨t, e, d, k, ku⟩ := succeeds (ps := [.cfg]) (u := dropStage target (started 0x0302 h s))
    (show exec (.cfgCommitDiscard h target) s = _ from rfl) hr (chkTarget_passes hk) (by decide)
    (by rw [started_isScheduled, hs, started_cfg, hx]; rfl)
    (fun p hp => by cases p <;> first | rfl | simp at hp) (by decide)
  have hcfg : t.cfg = mapErase target s.cfg := (ku .cfg (by decide)).trans (congrArg (mapErase target) (started_cfg ..))
  exact ⟨t, e, d, k, by rw [hcfg, mapFind?_erase_self], fun j hj => by rw [hcfg, mapFind?_erase_other hj]⟩

/-- CFG.COMMIT on a target with a staging copy and no commit scheduled. -/
theorem cfgCommit_staged : exec (.cfgCommit h target) s =
    .next (kci 0x0302 h (keyTarget target) (fun _ => [chkTarget target]) (commitTarget target x) s) := by
  refine congrArg _ (kci_congr hr (chkTarget_passes hk) ?_)
  rw [started_isScheduled, hs, started_cfg, hx]
  rfl

/-- A commit that fails the checks of its target's kind. -/
theorem cfgCommit_fails {st : Nat} (hf : commitTarget target x (started 0x0302 h s) = kciFail st (started 0x0302 h s)) :
    FailsWith (.cfgCommit h target) 0x0302 h s st :=
  fails (cfgCommit_staged hk hr hs hx) hr (chkTarget_passes hk) (by decide) hf

/-! ### Nodes -/

section
variable (ht : target / 2 ^ 28 = 0) {d : NodeD} (hd : hostNode s (target % 2 ^ 28) = some d)
include ht hd

theorem cfgCommit_node_fails {e : Nat} (he : firstErr (nodeSetChecks s (target % 2 ^ 28) d (descOf x.bytes) (ctxOf x.bytes)) = some e) :
    FailsWith (.cfgCommit h target) 0x0302 h s e := by
  exact cfgCommit_fails hk hr hs hx (commitTarget_node_fails ht hd he)

variable (he : firstErr (nodeSetChecks s (target % 2 ^ 28) d (descOf x.bytes) (ctxOf x.bytes)) = none)
include he

/-- A set that passes on a node that is not DISARMED waits for the next dispatch (R298 to R300). -/
theorem cfgCommit_node_waits (hst : d.st ≠ .disarmed) :
    ∃ t, exec (.cfgCommit h target) s = .next t ∧ Waits 0x0302 h (keyTarget target) (.commit 0 (target % 2 ^ 28)) [] s t ∧
      Kept [.hif, .bull, .cfg] s t ∧
      OnlyNode (target % 2 ^ 28) { d with staged := some (stagedSet d (descOf x.bytes)), stagedCtx := ctxOf x.bytes } s t ∧
      mapFind? target t.cfg = none := by
  obtain ⟨t, e, w, k, ku⟩ := waits_kept (cfgCommit_staged hk hr hs hx) hr (chkTarget_passes hk) (by decide)
    ((commitTarget_node ht hd he).trans (if_neg hst)) nodeStaged_kept (by decide)
  have hcfg : t.cfg = mapErase (target % 2 ^ 28) (started 0x0302 h s).cfg := ku .cfg (by decide)
  have hn : target % 2 ^ 28 = target := by omega
  exact ⟨t, e, w, k, onlyNode_started (onlyNode_of_bull (ku .bull (by decide))), by rw [hcfg, hn, mapFind?_erase_self]⟩

/-- A set of descriptor fields that passes on a DISARMED node applies at once (R300). -/
theorem cfgCommit_node_applies (hst : d.st = .disarmed) (hctx : ctxOf x.bytes = []) (hw : s.hif.waits = []) :
    ∃ t, exec (.cfgCommit h target) s = .next t ∧ Done 0x0302 h 0 [] [] [] s t ∧ Kept [.regs, .hif, .out, .bull, .cfg] s t ∧
      OnlyNode (target % 2 ^ 28) { d with set := stagedSet d (descOf x.bytes), staged := none, stagedCtx := [] } s t ∧
      mapFind? target t.cfg = none := by
  have hn : target % 2 ^ 28 = target := by omega
  have ha := applyCommit_fields (n := target % 2 ^ 28) (s := nodeStaged (target % 2 ^ 28) d x.bytes (started 0x0302 h s))
    (mapFind?_insert_self _ _ _) rfl hctx ((started_waits ..).trans hw)
  obtain ⟨t, e, dn, k, ku⟩ := succeeds (ps := [.bull, .cfg]) (cfgCommit_staged hk hr hs hx) hr (chkTarget_passes hk) (by decide)
    ((commitTarget_node ht hd he).trans ((if_pos hst).trans (congrArg kciOk ha)))
    (nodeStaged_kept.trans (setNode_kept.mono (by simp))) (by decide)
  have hcfg : t.cfg = mapErase (target % 2 ^ 28) (started 0x0302 h s).cfg := ku .cfg (by decide)
  have staged : OnlyNode (target % 2 ^ 28) _ (started 0x0302 h s) (nodeStaged (target % 2 ^ 28) d x.bytes (started 0x0302 h s)) := onlyNode_of_bull rfl
  exact ⟨t, e, dn, k, onlyNode_started (staged.trans (onlyNode_of_bull (ku .bull (by decide)))), by rw [hcfg, hn, mapFind?_erase_self]⟩

end

/-! ### Flows -/

section
variable (ht : target / 2 ^ 28 = 1) {f : RxFlow} (hf : mapFind? (target % 2 ^ 28) s.net.rx = some f)
  {b : RxBlock} (hb : b = rxFrom (withStaged (rxBytes f.blk) x.bytes)) (hn : b.flow = target % 2 ^ 28)
  (hraw : rxBytes b = withStaged (rxBytes f.blk) x.bytes) (hok : firstErr (rxChecks s b) = none)
include ht hf hb hn hraw hok

theorem cfgCommit_rx_fails (hq : keyTaken s (target % 2 ^ 28) b = true ∨ queueIs s b.queue .ordered = false) :
    FailsWith (.cfgCommit h target) 0x0302 h s 4 :=
  cfgCommit_fails hk hr hs hx ((commitTarget_rx ht hf hb hn hraw hok).trans (if_pos (by rw [Bool.or_eq_true, Bool.not_eq_true']; exact hq)))

/-- A block that passes replaces that of an ingress flow at once, and joins the groups of its keys (R93, R95, R299). -/
theorem cfgCommit_rx_replaces (hkey : keyTaken s (target % 2 ^ 28) b = false) (hq : queueIs s b.queue .ordered = true) :
    ∃ t, exec (.cfgCommit h target) s = .next t ∧ Completed 0x0302 h 0 [] s t ∧
      mapFind? (target % 2 ^ 28) t.net.rx = some { f with blk := b } ∧
      (∀ j, j ≠ target % 2 ^ 28 → mapFind? j t.net.rx = mapFind? j s.net.rx) ∧ mapFind? target t.cfg = none ∧
      ((∀ k ∈ [b.keyA, b.keyB], k.present = true → isGroup k.ipv6 k.dst = true → s.flag (fNetCtlLoop k.port) = false) →
        Done 0x0302 h 0 [] ([b.keyA, b.keyB].filterMap joinMsg) [] s t ∧ Kept [.regs, .hif, .out, .net, .cfg] s t) := by
  have hrun := (commitTarget_rx (op := 0x0302) (h := h) ht hf hb hn hraw hok).trans (if_neg (by rw [hkey, hq]; decide))
  obtain ⟨t, e, c, ku, -⟩ := completes_answered (cfgCommit_staged hk hr hs hx) hr (chkTarget_passes hk) hrun
    (by rw [rxReplaced_waits, started_waits]; exact List.Subset.refl _) (started_out 0x0302 h s ▸ rxReplaced_out)
  have hnet : t.net.rx = mapInsert (target % 2 ^ 28) { f with blk := b } s.net.rx := by
    rw [ku .net (by decide), rxReplaced_rx, started_net]
  have hcfg : t.cfg = mapErase target s.cfg := by
    rw [ku .cfg (by decide), rxReplaced_cfg, started_cfg, show 2 ^ 28 + target % 2 ^ 28 = target by omega]
  refine ⟨t, e, c, by rw [hnet, mapFind?_insert_self], fun j hj => by rw [hnet, mapFind?_insert_other hj],
    by rw [hcfg, mapFind?_erase_self], fun hl => ?_⟩
  obtain rfl : kci 0x0302 h (keyTarget target) (fun _ => [chkTarget target]) (commitTarget target x) s = t := by
    rw [cfgCommit_staged hk hr hs hx] at e; exact Host.Outcome.next.inj e
  obtain ⟨hq, kr⟩ := rxReplaced_quiet (op := 0x0302) (h := h) (n := target % 2 ^ 28) (f := f) (by decide) hl
  obtain ⟨dn, k⟩ := kci_done (operands := fun _ => [chkTarget target]) hr (chkTarget_passes hk) hrun hq (by simp)
  exact ⟨dn, (((started_kept 0x0302 h s).mono (by simp)).trans (kr.mono (by simp))).trans (k.mono (by simp))⟩

end

section
variable (ht : target / 2 ^ 28 = 2) {f : TxFlow} (hf : mapFind? (target % 2 ^ 28) s.net.tx = some f)
  {b : TxBlock} (hb : b = txFrom f.blk.rtcpEn (withStaged (txBytes f.blk) x.bytes)) (hn : b.flow = target % 2 ^ 28)
  (hraw : txBytes b = withStaged (txBytes f.blk) x.bytes) (hok : firstErr (txChecks s b) = none)
include ht hf hb hn hraw hok

theorem cfgCommit_tx_fails (hq : queueIs s b.queue .fifo = false) : FailsWith (.cfgCommit h target) 0x0302 h s 4 :=
  cfgCommit_fails hk hr hs hx ((commitTarget_tx ht hf hb hn hraw hok).trans (if_pos (by simp [hq])))

/-- A block that passes replaces that of an egress flow at once (R93, R299). -/
theorem cfgCommit_tx_replaces (hq : queueIs s b.queue .fifo = true) :
    ∃ t, exec (.cfgCommit h target) s = .next t ∧ Done 0x0302 h 0 [] [] [] s t ∧ Kept [.regs, .hif, .out, .net, .cfg] s t ∧
      mapFind? (target % 2 ^ 28) t.net.tx = some { f with blk := b } ∧
      (∀ j, j ≠ target % 2 ^ 28 → mapFind? j t.net.tx = mapFind? j s.net.tx) ∧ mapFind? target t.cfg = none := by
  obtain ⟨t, e, dn, k, ku⟩ := succeeds (cfgCommit_staged hk hr hs hx) hr (chkTarget_passes hk) (by decide)
    ((commitTarget_tx ht hf hb hn hraw hok).trans (if_neg (by simp [hq]))) txReplaced_kept (by decide)
  have hnet : t.net.tx = mapInsert (target % 2 ^ 28) { f with blk := b } s.net.tx := by
    rw [ku .net (by decide), ← started_net 0x0302 h s]; rfl
  have hcfg : t.cfg = mapErase target s.cfg := by
    rw [ku .cfg (by decide), ← started_cfg 0x0302 h s]
    exact congrArg (mapErase · _) (target_eq ht).symm
  exact ⟨t, e, dn, k, by rw [hnet, mapFind?_insert_self], fun j hj => by rw [hnet, mapFind?_insert_other hj], by rw [hcfg, mapFind?_erase_self]⟩

end

/-! ### Blocks -/

section
variable (ht : target / 2 ^ 28 = 3)
include ht

theorem cfgCommit_block_fails {e : Nat} (he : firstErr (blockChecks s (target % 2 ^ 28) x.bytes) = some e) :
    FailsWith (.cfgCommit h target) 0x0302 h s e :=
  cfgCommit_fails hk hr hs hx ((commitTarget_block ht).trans (commitBlock_fails ((started_blockChecks ..).trans he)))

variable (he : firstErr (blockChecks s (target % 2 ^ 28) x.bytes) = none)
include he

/-- The staged fields of PACK apply at once (R299). -/
theorem cfgCommit_pack_applies (hn : target % 2 ^ 28 = 0x78) :
    ∃ t, exec (.cfgCommit h target) s = .next t ∧ Completed 0x0302 h 0 [] s t ∧
      t.reg 0xF0010 = (s.reg 0xF0010 &&& ~~~3) ||| (stagedOver x.bytes 0x10 (s.reg 0xF0010) &&& 3) := by
  have hrun : commitTarget target x (started 0x0302 h s) =
      kciOk (commitRegs 0x78 [(0x10, 3)] (blockScheduled 0x78 x (started 0x0302 h s))) := by
    rw [commitTarget_block ht, hn]
    exact commitBlock_pack ((started_blockChecks ..).trans (hn ▸ he))
  obtain ⟨hreg, hw⟩ := commitRegs_single 0x78 0x10 3 (blockScheduled 0x78 x (started 0x0302 h s)) (by decide)
  obtain ⟨t, e, c, -, an⟩ := completes_answered (cfgCommit_staged hk hr hs hx) hr (chkTarget_passes hk) hrun
    (started_waits 0x0302 h s ▸ hw)
    (started_out 0x0302 h s ▸ (commitRegs_keep (Keep.refl (blockScheduled 0x78 x (started 0x0302 h s)))).out)
  refine ⟨t, e, c, (an.regs 0xF0010 (by decide)).trans (hreg.trans ?_)⟩
  rw [scheduledBytes_scheduled, show (blockScheduled 0x78 x (started 0x0302 h s)).reg _ = s.reg 0xF0010 from
    started_same (State.reg · 0xF0010) _ _ _ fun _ => rfl]
  rfl

/-- The staged fields of any other block wait for its commit point (R298, R299). -/
theorem cfgCommit_block_waits (hn : target % 2 ^ 28 ≠ 0x78) :
    ∃ t, exec (.cfgCommit h target) s = .next t ∧ Waits 0x0302 h (keyTarget target) (.commit 3 (target % 2 ^ 28)) [] s t ∧
      Kept [.hif, .cfg, .rfp] s t ∧ mapFind? target t.cfg = some { x with scheduled := true } := by
  have hrun := (commitTarget_block (s := started 0x0302 h s) ht).trans (commitBlock_waits ((started_blockChecks ..).trans he) hn)
  obtain ⟨t, e, w, k, ku⟩ := waits_kept (ps := [.cfg, .rfp]) (cfgCommit_staged hk hr hs hx) hr (chkTarget_passes hk) (by decide) hrun
    ((blockScheduled_kept.mono (by simp)).trans (blockWaits_kept.mono (by simp))) (by decide)
  have hcfg : t.cfg = mapInsert (blockKey (target % 2 ^ 28)) { x with scheduled := true } (started 0x0302 h s).cfg :=
    (ku .cfg (by decide)).trans (blockWaits_kept .cfg (by decide))
  exact ⟨t, e, w, k, by rw [hcfg, show blockKey (target % 2 ^ 28) = target from (target_eq ht).symm, mapFind?_insert_self]⟩

end

end

/-- Settles O57, by the kind of the target: each clause is the answer of the command there. -/
theorem stagedChanges : Obligations.StagedChanges := by
  unfold Obligations.StagedChanges
  intro s h target hk n
  refine ⟨fun hr offset len data ho h1 h2 hd hm => ?_, fun hr => ?_⟩
  · have hc := stageOperands_ok (s := s) (h := h) hk ho h1 h2 hm
    exact ⟨cfgStage_absent hr hc, cfgStage_scheduled hr hc, fun ht hs => ⟨cfgStage_full hr hc ht hs, fun hn => cfgStage_lays hr hc ht hs hn hd⟩⟩
  · refine ⟨cfgCommit_scheduled hk hr, cfgCommit_unstaged hk hr, fun x hs hx => ⟨cfgCommitDiscard_drops hk hr hs hx, ?_, ?_, ?_, ?_, ?_⟩⟩
    · exact fun ht d hd => ⟨fun e => cfgCommit_node_fails hk hr hs hx ht hd, cfgCommit_node_waits hk hr hs hx ht hd,
        cfgCommit_node_applies hk hr hs hx ht hd⟩
    · exact fun ht f hf hn hraw hok => ⟨cfgCommit_rx_fails hk hr hs hx ht hf rfl hn hraw hok, cfgCommit_rx_replaces hk hr hs hx ht hf rfl hn hraw hok⟩
    · exact fun ht f hf hn hraw hok => ⟨cfgCommit_tx_fails hk hr hs hx ht hf rfl hn hraw hok, cfgCommit_tx_replaces hk hr hs hx ht hf rfl hn hraw hok⟩
    · exact fun ht hn => ⟨fun e => cfgCommit_block_fails hk hr hs hx ht, fun he => cfgCommit_pack_applies hk hr hs hx ht he hn⟩
    · exact fun ht hn => ⟨fun e => cfgCommit_block_fails hk hr hs hx ht, fun he => cfgCommit_block_waits hk hr hs hx ht he hn⟩

end Sys2Proof.Machine
end

section
/-!
PROOFS. Cluster power: what an entry into SLEEP or OFF, a wake and a write of LIMIT, SPARES or HOME do (R23, R448, R492 to R496), with the facts
about the registers of cores and clusters, power states and residency that this needs.
-/

namespace Sys2Proof.Machine

/-! ## Registers of cores and clusters -/

/-- `a` is the BAR0 address of offset `o` among the registers of core `k`; a cluster's own are with its first core (R36, R221, R222). -/
structure IsCoreReg (a k o : Nat) : Prop where
  addr : a = 0x200000 + 0x1000 * k + o
  core : k < 256
  low  : 0x800 ≤ o
  high : o < 0x1000

theorem limit_isCoreReg {n : Nat} (hn : n < 16) : IsCoreReg (fCluPwrLimit n).addr (16 * n) 0xC04 :=
  ⟨by unfold fCluPwrLimit; dsimp only; omega, by omega, by decide, by decide⟩

theorem spares_isCoreReg {n : Nat} (hn : n < 16) : IsCoreReg (fCluSparesCount n).addr (16 * n) 0xC08 :=
  ⟨by unfold fCluSparesCount; dsimp only; omega, by omega, by decide, by decide⟩

theorem home_isCoreReg {k : Nat} (hk : k < 256) : IsCoreReg (fCoreHomePc k).addr k 0x810 := ⟨rfl, hk, by decide, by decide⟩

/-- COUNT of a cluster is not the counter of wasted prefetches. -/
theorem spares_not_waste (n : Nat) : (fCluSparesCount n).addr ∉ [fGhPfWasteCount.addr] := by
  rw [List.mem_singleton]
  unfold fCluSparesCount fGhPfWasteCount
  dsimp only
  omega

theorem pmuBase_aligned (set : Nat) : pmuBase set % 0x1000 = 0 := by
  unfold pmuBase
  split_ifs <;> omega

/-- The state in which a full write has stored the word of a register. -/
abbrev stored (a : Nat) (val : Word) (s : State) : State := s.setReg a (wordAfter s a val)

section
variable {a k o : Nat} (h : IsCoreReg a k o)
include h

/-- No interrupt source reads a register of a core or a cluster (R468). -/
theorem irqLine_setReg (w : Word) (s : State) (src : Nat) : irqLine (s.setReg a w) src = irqLine s src := by
  obtain ⟨ha, hk, h8, ho⟩ := h
  have hreg : ∀ b, b ≠ a → (s.setReg a w).reg b = s.reg b := fun b hb => State.reg_setReg_other s hb w
  have hflag : ∀ f : Fld, f.addr < 0x200000 → (s.setReg a w).flag f = s.flag f := fun f hf => by
    unfold State.flag State.fld
    rw [hreg _ (by omega)]
  have hint : ∀ x y, x < 0x200000 → y < 0x200000 → intLine (s.setReg a w) x y = intLine s x y := fun x y hx hy => by
    unfold intLine
    rw [hreg _ (by omega), hreg _ (by omega)]
  have hpmu : ∀ set, pmuLine (s.setReg a w) set = pmuLine s set := fun set => by
    have := pmuBase_aligned set
    unfold pmuLine
    rw [hreg _ (by omega), hreg _ (by omega)]
  unfold irqLine
  split
  case h_13 =>
    rw [Bool.eq_iff_iff, List.any_eq_true, List.any_eq_true]
    refine exists_congr fun n => and_congr_right fun hn => ?_
    rw [List.mem_range] at hn
    rw [hreg _ (by omega), hreg _ (by omega)]
  all_goals simp (disch := decide) only [hpmu, hflag, hint]

theorem pmuAt_cores : pmuAt a = none := by
  obtain ⟨ha, hk, h8, ho⟩ := h
  unfold pmuAt
  rw [if_pos ⟨by omega, by omega⟩, if_neg (by omega)]

/-- A write of such a register sends no interrupt. -/
theorem writeIrqs_cores (w : Word) (s : State) : writeIrqs a s (s.setReg a w) = s.setReg a w := by
  have hirq := irqLine_setReg h w s
  have hsrc : stickySource a = none := by
    have hpmu := pmuAt_cores h
    obtain ⟨ha, hk, h8, ho⟩ := h
    unfold stickySource
    rw [hpmu]
    dsimp only
    iterate 18 rw [if_neg (by omega)]
  unfold writeIrqs
  simp only [hsrc, hirq, Bool.not_and_self]
  exact List.foldl_fixed' (fun _ => rfl) _

theorem fieldsAt_cores : fieldsAt a = (if o < 0xC00 then coreRegs else if k % 16 = 0 then cluRegs else []).filter (fun f => f.covers o) := by
  obtain ⟨ha, hk, h8, ho⟩ := h
  have htab : tableAt a = (if o < 0xC00 then coreRegs else if k % 16 = 0 then cluRegs else [], o) := by
    unfold tableAt
    iterate 12 rw [if_neg (by omega)]
    rw [if_pos ⟨by omega, by omega⟩]
    dsimp only
    rw [show a % 0x1000 = o by omega, show a / 0x1000 % 16 = k % 16 by omega, if_neg (by omega), if_neg (by omega)]
    split_ifs <;> rfl
  unfold fieldsAt
  rw [htab]

/-- A write that reaches such a register stores its word and then has its own effect (R12, R13). -/
theorem busWrite_cores {path : BusPath} {val : Word} {s : State} (h4 : o % 4 = 0) (hr : reaches s a = true) (hf : fieldsAt a ≠ []) :
    busWrite path a 15 val s = coreRegWritten k o val s (stored a val s) := by
  have hirq := writeIrqs_cores h (wordAfter s a val) s
  have hpmu := pmuAt_cores h
  obtain ⟨ha, hk, h8, ho⟩ := h
  have halign : a / 4 * 4 = a := by omega
  have hres : isReserved a = false := by
    unfold isReserved
    rw [List.isEmpty_eq_false_iff.mpr hf]
    rfl
  have hmsix : isMsix a = false := by
    simp only [isMsix, Bool.or_eq_false_iff, Bool.and_eq_false_iff, decide_eq_false_iff_not]
    omega
  have hring : isScoutRing a = false := by
    simp only [isScoutRing, Bool.and_eq_false_iff, decide_eq_false_iff_not]
    omega
  have hmadi : madiRefused a val s = false := by
    simp only [madiRefused, show ¬ a < 0x110200 by omega, decide_false, Bool.and_false, Bool.false_and]
  unfold busWrite regWrite regWritten
  simp only [halign, hr, hres, hmsix, hring, hmadi, hirq, hpmu, Bool.not_true, Bool.false_eq_true, if_false, ne_eq, not_true]
  rw [if_pos (by omega), show (a - 0x200000) / 0x1000 = k by omega, show a % 0x1000 = o by omega]

/-- A field that is neither locked nor restricted beyond its table takes any value that is not reserved, and keeps its own otherwise (R12, R13). -/
theorem fieldAfter_cores {s : State} {f : RegField} (old v : Nat) (hl : o ≠ 0xC14) (hf : f.acc = .rw) :
    fieldAfter s a f old v = if f.legal.ok v then v else old := by
  have hpmu := pmuAt_cores h
  obtain ⟨ha, hk, h8, ho⟩ := h
  have hlock : isLocked s a f.lo = false := by
    unfold isLocked
    rw [if_pos (by omega), Bool.and_eq_false_iff, beq_eq_false_iff_ne]
    exact .inl (by omega)
  have hval : valueOk s a f.lo v = true := by
    unfold valueOk
    rw [hpmu]
    dsimp only
    rw [if_neg (by omega), if_neg (by unfold fHifKciDbIndex; dsimp only; omega)]
  unfold fieldAfter
  rw [hf]
  simp only [hlock, hval, Bool.not_false, Bool.true_and, Bool.and_true]

end

/-! ### LIMIT and COUNT of a cluster -/

section
variable {n : Nat} (hn : n < 16)
include hn

theorem fieldsAt_limit : fieldsAt (fCluPwrLimit n).addr = [⟨0xC04, 0, 1, 1, 0, .view, 0, .any⟩, ⟨0xC04, 0, 1, 5, 4, .rw, 3, .any⟩] := by
  rw [fieldsAt_cores (limit_isCoreReg hn), if_neg (by decide), if_pos (by omega)]
  rfl

theorem fieldsAt_spares :
    fieldsAt (fCluSparesCount n).addr = [⟨0xC08, 0, 1, 2, 0, .rw, 2, .upTo 4⟩, ⟨0xC08, 0, 1, 10, 8, .view, 0, .any⟩] := by
  rw [fieldsAt_cores (spares_isCoreReg hn), if_neg (by decide), if_pos (by omega)]
  rfl

/-- Any LIMIT is taken (R495). -/
theorem stored_limit (val : Word) (s : State) : (stored (fCluPwrLimit n).addr val s).fld (fCluPwrLimit n) = bits val 4 2 := by
  have hf := fieldAfter_cores (limit_isCoreReg hn) (s := s) (f := ⟨0xC04, 0, 1, 5, 4, .rw, 3, .any⟩)
    (bits (s.reg (fCluPwrLimit n).addr) 4 2) (bits val 4 2) (by decide) rfl
  unfold State.fld
  rw [State.reg_setReg_self]
  unfold wordAfter
  rw [fieldsAt_limit hn, if_neg (by unfold fCluPwrLimit; dsimp only; omega)]
  simp only [List.foldl_cons, List.foldl_nil, Nat.reduceAdd, Nat.reduceSub, hf]
  exact (bits_setBits_self _ (by decide) _).trans (Nat.mod_eq_of_lt (bits_lt val 4 2))

/-- A COUNT of at most 4 is taken, and a larger one is reserved (R219). -/
theorem stored_spares (val : Word) (s : State) : (stored (fCluSparesCount n).addr val s).fld (fCluSparesCount n) =
    if bits val 0 3 ≤ 4 then bits val 0 3 else s.fld (fCluSparesCount n) := by
  have hf := fieldAfter_cores (spares_isCoreReg hn) (s := s) (f := ⟨0xC08, 0, 1, 2, 0, .rw, 2, .upTo 4⟩)
    (bits (s.reg (fCluSparesCount n).addr) 0 3) (bits val 0 3) (by decide) rfl
  unfold State.fld
  rw [State.reg_setReg_self]
  unfold wordAfter
  rw [fieldsAt_spares hn, if_neg (by unfold fCluSparesCount; dsimp only; omega)]
  simp only [List.foldl_cons, List.foldl_nil, Nat.reduceAdd, Nat.reduceSub, hf, Legal.ok, decide_eq_true_eq]
  refine (bits_setBits_other _ (by decide) _ (.inl (by decide : 0 + 3 ≤ 8))).trans ((bits_setBits_self _ (by decide) _).trans ?_)
  refine Nat.mod_eq_of_lt ?_
  split <;> exact bits_lt ..

theorem busWrite_limit {path : BusPath} {val : Word} {s : State} (hr : reaches s (fCluPwrLimit n).addr = true) :
    busWrite path (fCluPwrLimit n).addr 15 val s = limitWritten n (stored (fCluPwrLimit n).addr val s) := by
  rw [busWrite_cores (limit_isCoreReg hn) (by decide) hr (by rw [fieldsAt_limit hn]; simp)]
  show limitWritten (16 * n / 16) _ = _
  rw [show 16 * n / 16 = n by omega]

theorem busWrite_spares {path : BusPath} {val : Word} {s : State} (hr : reaches s (fCluSparesCount n).addr = true) :
    busWrite path (fCluSparesCount n).addr 15 val s =
      sparesWritten n ((stored (fCluSparesCount n).addr val s).fld (fCluSparesCount n))
        ((stored (fCluSparesCount n).addr val s).setFld (fCluSparesCount n) (s.fld (fCluSparesCount n))) := by
  rw [busWrite_cores (spares_isCoreReg hn) (by decide) hr (by rw [fieldsAt_spares hn]; simp)]
  show sparesWritten (16 * n / 16) (State.fld _ (fCluSparesCount (16 * n / 16))) (State.setFld _ (fCluSparesCount (16 * n / 16)) _) = _
  rw [show 16 * n / 16 = n by omega]

end

/-! ### HOME of a core -/

section
variable {k : Nat} (hk : k < 256)
include hk

theorem fieldsAt_home : fieldsAt (fCoreHomePc k).addr = [⟨0x810, 0, 1, 31, 2, .rw, 0, .any⟩] := by
  rw [fieldsAt_cores (home_isCoreReg hk), if_pos (by decide)]
  rfl

/-- A home PC is taken but for its two low bits, which are reserved (R221). -/
theorem stored_home (val : Word) (s : State) : homePc (stored (fCoreHomePc k).addr val s) k = val.toNat / 4 * 4 := by
  have hf := fieldAfter_cores (home_isCoreReg hk) (s := s) (f := ⟨0x810, 0, 1, 31, 2, .rw, 0, .any⟩)
    (bits (s.reg (fCoreHomePc k).addr) 2 30) (bits (setBits val 0 2 0) 2 30) (by decide) rfl
  have hfld : (stored (fCoreHomePc k).addr val s).fld (fCoreHomePc k) = bits val 2 30 := by
    unfold State.fld
    rw [State.reg_setReg_self]
    unfold wordAfter
    rw [fieldsAt_home hk, if_pos (by unfold fCoreHomePc; dsimp only; omega)]
    simp only [List.foldl_cons, List.foldl_nil, Nat.reduceAdd, Nat.reduceSub, hf]
    refine (bits_setBits_self _ (by decide) _).trans ?_
    exact (Nat.mod_eq_of_lt (bits_lt ..)).trans (bits_setBits_other val (by decide) 0 (.inr (by decide)))
  have hw : val.toNat < 2 ^ 32 := val.isLt
  unfold homePc
  rw [hfld]
  unfold bits
  omega

theorem busWrite_home {path : BusPath} {val : Word} {s : State} (hr : reaches s (fCoreHomePc k).addr = true) :
    busWrite path (fCoreHomePc k).addr 15 val s = homeWritten k (stored (fCoreHomePc k).addr val s) :=
  busWrite_cores (home_isCoreReg hk) (by decide) hr (by rw [fieldsAt_home hk]; simp)

end

/-! ## What reads the same where its part is the same -/

section
variable {s t : State}

theorem reg_congr (h : t.regs = s.regs) (a : Nat) : t.reg a = s.reg a := congrArg (mapGet (resetWord a) a) h

theorem fld_congr (h : t.regs = s.regs) (f : Fld) : t.fld f = s.fld f := congrArg (bits · f.lo f.w) (reg_congr h f.addr)

theorem cor_congr (h : t.core = s.core) (k : Nat) : t.cor k = s.cor k := congrArg (mapGet ({} : Core) k) h

theorem cl_congr (h : t.clu = s.clu) (n : Nat) : t.cl n = s.cl n := congrArg (mapGet ({} : Cluster) n) h

theorem resOf_congr (h : t.gh = s.gh) (m : Nat) : t.resOf m = s.resOf m := congrArg (fun g : GhSt => mapFind? m g.res) h

theorem node?_congr (h : t.bull = s.bull) (m : Nat) : t.node? m = s.node? m := congrArg (fun b : BullSt => mapFind? m b.nodes) h

end

/-! ## Power states -/

theorem setPwr_cl_self (n : Nat) (p : Pwr) (s : State) : (setPwr n p s).cl n = enteredPwr n p s := State.cl_updClu_self ..

/-- `t` differs from `s` in cluster `n` alone. -/
structure ClusterOnly (n : Nat) (s t : State) : Prop where
  kept   : Kept [.clu] s t
  others : ∀ j, j ≠ n → t.cl j = s.cl j

theorem ClusterOnly.refl (n : Nat) (s : State) : ClusterOnly n s s := ⟨Kept.refl _ s, fun _ _ => rfl⟩

theorem updClu_only (n : Nat) (f : Cluster → Cluster) (s : State) : ClusterOnly n s (s.updClu n f) :=
  ⟨fun q hq => by cases q <;> first | rfl | simp at hq, fun _ h => State.cl_updClu_other s h f⟩

theorem setPwr_only (n : Nat) (p : Pwr) (s : State) : ClusterOnly n s (setPwr n p s) := updClu_only n _ s

theorem tryIdle_only (n : Nat) (s : State) : ClusterOnly n s (tryIdle n s) := by
  unfold tryIdle
  dsimp only
  split
  · exact setPwr_only n _ s
  · exact ClusterOnly.refl n s

theorem wakeCluster_only (n : Nat) (s : State) : ClusterOnly n s (wakeCluster n s) := by
  unfold wakeCluster
  dsimp only
  split
  · split
    · exact ClusterOnly.refl n s
    · exact updClu_only n _ s
  · split
    · exact ClusterOnly.refl n s
    · exact updClu_only n _ s
  · exact updClu_only n _ s
  · exact ClusterOnly.refl n s

theorem enteredPwr_congr {s t : State} (hclu : t.clu = s.clu) (hclk : t.clk = s.clk) (n : Nat) (p : Pwr) : enteredPwr n p t = enteredPwr n p s := by
  unfold enteredPwr cluCycles State.cl
  rw [hclu, hclk]

theorem advance_passed {a b : Nat} (h : a ≤ b) (s : State) : advance (a - b) s = s := if_pos (Nat.sub_eq_zero_of_le h)

/-- The 16 cores of a cluster. -/
abbrev coresOf (n : Nat) : List Nat := (List.range 16).map (fun m => 16 * n + m)

theorem mem_coresOf {n k : Nat} : k ∈ coresOf n ↔ k / 16 = n := by
  rw [List.mem_map]
  constructor
  · rintro ⟨m, hm, rfl⟩
    rw [List.mem_range] at hm
    omega
  · exact fun h => ⟨k % 16, List.mem_range.mpr (Nat.mod_lt _ (by decide)), by omega⟩

theorem coresOf_nodup (n : Nat) : (coresOf n).Nodup := List.nodup_range.map (fun _ _ h => Nat.add_left_cancel h)

/-- A step that changes one core, taken for each core of a list under what every step keeps: each core listed is as its own step leaves it,
and the others are as they were. -/
theorem foldl_cor {step : Nat → State → State} {I : State → Prop} {Q : Nat → Core → Core → Prop} (hI : ∀ k s, I s → I (step k s))
    (hother : ∀ k s j, j ≠ k → (step k s).cor j = s.cor j) (hself : ∀ k s, I s → Q k (s.cor k) ((step k s).cor k)) :
    ∀ {ks : List Nat} {s : State}, ks.Nodup → I s →
      I (ks.foldl (fun s k => step k s) s) ∧ (∀ k ∈ ks, Q k (s.cor k) ((ks.foldl (fun s k => step k s) s).cor k)) ∧
      ∀ j, j ∉ ks → (ks.foldl (fun s k => step k s) s).cor j = s.cor j
  | [], s, _, hs => ⟨hs, by simp, by simp⟩
  | k :: ks, s, hn, hs => by
    obtain ⟨hk, hks⟩ := List.nodup_cons.mp hn
    obtain ⟨hi, hq, ho⟩ := foldl_cor hI hother hself hks (hI k s hs)
    refine ⟨hi, fun j hj => ?_, fun j hj => ?_⟩
    · rcases List.mem_cons.mp hj with rfl | hj
      · rw [List.foldl_cons, ho j hk]
        exact hself j s hs
      · rw [List.foldl_cons, ← hother k s j (fun e => hk (e ▸ hj))]
        exact hq j hj
    · rw [List.mem_cons, not_or] at hj
      obtain ⟨hjk, hjs⟩ := hj
      rw [List.foldl_cons, ho j hjs, hother k s j hjk]

/-! ## SLEEP -/

section
variable {s : State} {n : Nat}

theorem sleepEntry_due (hn : n < 16) (hp : (s.cl n).pwr = .idle) (hl : 2 ≤ s.fld (fCluPwrLimit n))
    (hd : (s.cl n).since + s.fld fGlbPwrDelaySleep * 25 ≤ s.clk) :
    sleepEntry n s = if wakeWithin s n 15 then s else setPwr n .sleep s := by
  unfold sleepEntry advanceSince
  dsimp only
  rw [if_pos (by simp [hn, hp, hl]), advance_passed hd]

theorem sleepEntry_not (h : (s.cl n).pwr ≠ .idle ∨ s.fld (fCluPwrLimit n) < 2) : sleepEntry n s = s := by
  refine if_neg fun hc => ?_
  simp only [Bool.and_eq_true, decide_eq_true_eq] at hc
  obtain ⟨⟨-, hp⟩, hl⟩ := hc
  exact h.elim (absurd hp) (by omega)

end

/-! ## The end of a wake -/

/-- What a wake from OFF makes of core `k` (R492, R493). -/
def wokenCore (s : State) (k : Nat) (c : Core) : Core :=
  match c.mode with
  | .retired => c
  | .halted => c
  | _ => { ({} : Core) with mode := .wait, pc := homePc s k, node := c.node, scratchId := c.scratchId, moved := c.moved }

theorem coreWake_cor (k : Nat) (s : State) : (coreWake k s).cor k = wokenCore s k (s.cor k) := State.cor_updCore_self ..

theorem coreWake_kept (k : Nat) (s : State) : Kept [.core] s (coreWake k s) := (coreWake_within (Sub.refl _) (Within.refl s)).kept

/-- What the wakes of a cluster's cores from OFF change. -/
theorem coresWake (n : Nat) (s : State) :
    Kept [.core] s ((coresOf n).foldl (fun s k => coreWake k s) s) ∧
    ∀ k, k / 16 = n → ((coresOf n).foldl (fun s k => coreWake k s) s).cor k = wokenCore s k (s.cor k) := by
  obtain ⟨hk, hq, -⟩ := foldl_cor (step := coreWake) (I := Kept [.core] s) (Q := fun k c d => d = wokenCore s k c)
    (fun k u hu => hu.trans (coreWake_kept k u)) (fun k u j hj => State.cor_updCore_other u hj _)
    (fun k u hu => by
      have hregs : u.regs = s.regs := hu .regs (by decide)
      rw [coreWake_cor]
      unfold wokenCore homePc
      rw [fld_congr hregs])
    (coresOf_nodup n) (Kept.refl _ s)
  exact ⟨hk, fun k h => hq k (mem_coresOf.mpr h)⟩

theorem wokenCore_stays {s : State} {k : Nat} {c : Core} (h : c.mode = .retired ∨ c.mode = .halted) : wokenCore s k c = c := by
  unfold wokenCore
  rcases h with h | h <;> rw [h]

theorem wokenCore_starts {s : State} {k : Nat} {c : Core} (hr : c.mode ≠ .retired) (hh : c.mode ≠ .halted) : wokenCore s k c =
    { ({} : Core) with mode := .wait, pc := homePc s k, node := c.node, scratchId := c.scratchId, moved := c.moved } := by
  unfold wokenCore
  split
  · next h => exact absurd h hr
  · next h => exact absurd h hh
  · rfl

/-- The state in which the cores of a cluster that was OFF have started at their home programs. -/
abbrev coresWoken (n : Nat) (s : State) : State := if (s.cl n).pwr = .off then (coresOf n).foldl (fun s k => coreWake k s) s else s

section
variable {s : State} {n : Nat}

theorem coresWoken_kept : Kept [.core] s (coresWoken n s) := by
  unfold coresWoken
  split
  · exact (coresWake n s).1
  · exact Kept.refl _ s

theorem wakeDone_due (hw : (s.cl n).waking = true) (hd : (s.cl n).wakeAt ≤ s.clk) :
    wakeDone n s = setPwr n (if s.fld (fCluPwrLimit n) = 0 then .run else .idle) (coresWoken n s) := by
  have hregs : (coresWoken n s).regs = s.regs := coresWoken_kept .regs (by decide)
  unfold wakeDone
  dsimp only
  rw [if_pos hw, advance_passed hd, ← fld_congr hregs]

/-- A wake ends in IDLE, or in RUN under LIMIT = RUN, with the cores of a cluster that was OFF at their home programs (R492, R494, R495). -/
theorem wakeDone_ends (hw : (s.cl n).waking = true) (hd : (s.cl n).wakeAt ≤ s.clk) :
    Kept [.clu, .core] s (wakeDone n s) ∧ (wakeDone n s).cl n = enteredPwr n (if s.fld (fCluPwrLimit n) = 0 then .run else .idle) s ∧
      (∀ j, j ≠ n → (wakeDone n s).cl j = s.cl j) ∧ ((s.cl n).pwr ≠ .off → (wakeDone n s).core = s.core) ∧
      ((s.cl n).pwr = .off → ∀ k, k / 16 = n →
        ((s.cor k).mode = .retired ∨ (s.cor k).mode = .halted → (wakeDone n s).cor k = s.cor k) ∧
        ((s.cor k).mode ≠ .retired → (s.cor k).mode ≠ .halted →
          ((wakeDone n s).cor k).mode = .wait ∧ ((wakeDone n s).cor k).pc = homePc s k ∧ ((wakeDone n s).cor k).ram = [] ∧
            ((wakeDone n s).cor k).loops = [] ∧ ((wakeDone n s).cor k).node = (s.cor k).node ∧ ((wakeDone n s).cor k).moved = (s.cor k).moved)) := by
  have hk := coresWoken_kept (s := s) (n := n)
  have hclu : (coresWoken n s).clu = s.clu := hk .clu (by decide)
  rw [wakeDone_due hw hd]
  refine ⟨(hk.mono (by simp)).trans ((setPwr_only _ _ _).kept.mono (by simp)), ?_, fun j hj => ?_, fun hp => ?_, fun hp k hkn => ?_⟩
  · rw [setPwr_cl_self, enteredPwr_congr hclu (hk .clk (by decide))]
  · exact ((setPwr_only _ _ _).others j hj).trans (cl_congr hclu j)
  · show (coresWoken n s).core = s.core
    rw [show coresWoken n s = s from if_neg hp]
  · have hcor : (setPwr n (if s.fld (fCluPwrLimit n) = 0 then .run else .idle) (coresWoken n s)).cor k = wokenCore s k (s.cor k) := by
      show (coresWoken n s).cor k = _
      rw [show coresWoken n s = _ from if_pos hp]
      exact (coresWake n s).2 k hkn
    rw [hcor]
    exact ⟨wokenCore_stays, fun hr hh => by rw [wokenCore_starts hr hh]; exact ⟨rfl, rfl, rfl, rfl, rfl, rfl⟩⟩

end

/-! ## Residency -/

section
variable {s : State}

theorem foldl_invalidate_resOf (m : Nat) : ∀ (ns : List Nat) (s : State),
    (ns.foldl (fun s n => invalidate n s) s).resOf m = if m ∈ ns then none else s.resOf m
  | [], s => by simp
  | n :: ns, s => by
    rw [List.foldl_cons, foldl_invalidate_resOf m ns, invalidate_resOf]
    by_cases h : m = n <;> simp [h]

theorem foldl_invalidate_mild (ns : List Nat) (s : State) : Mild [.gh] [fGhPfWasteCount.addr] s (ns.foldl (fun s n => invalidate n s) s) :=
  foldl_mild _ (fun s n => invalidate_mild n s) ns s

/-- A context resident on a core is among those listed there. -/
theorem mem_resident {m k : Nat} {r : Res} (h : s.resOf m = some r) (hk : r.core = k) :
    m ∈ (s.gh.res.filter (fun r => r.2.core == k)).map (fun r => r.1) :=
  List.mem_map.mpr ⟨(m, r), List.mem_filter.mpr ⟨mapFind?_mem h, by simpa using hk⟩, rfl⟩

theorem invalidateCore_mild (k : Nat) (s : State) : Mild [.gh] [fGhPfWasteCount.addr] s (invalidateCore k s) := foldl_invalidate_mild _ s

theorem invalidateIdle_mild (k : Nat) (s : State) : Mild [.gh] [fGhPfWasteCount.addr] s (invalidateIdle k s) := foldl_invalidate_mild _ s

/-- Once a core is invalidated, the contexts that are resident were so before, on other cores (R493). -/
theorem invalidateCore_resOf {k m : Nat} {r : Res} (h : (invalidateCore k s).resOf m = some r) : s.resOf m = some r ∧ r.core ≠ k := by
  unfold invalidateCore at h
  rw [foldl_invalidate_resOf] at h
  split at h
  · exact absurd h (by simp)
  · next hm => exact ⟨h, fun hk => hm (mem_resident h hk)⟩

/-- The contexts that stay on a core whose idle ones are invalidated await a write-back (R219). -/
theorem invalidateIdle_resOf {k m : Nat} {r : Res} (h : (invalidateIdle k s).resOf m = some r) :
    s.resOf m = some r ∧ (r.core = k → ∃ d, s.node? m = some d ∧ d.writeBack ≠ none) := by
  unfold invalidateIdle at h
  dsimp only at h
  rw [foldl_invalidate_resOf] at h
  split at h
  · exact absurd h (by simp)
  · next hm =>
    refine ⟨h, fun hk => ?_⟩
    rw [List.mem_filter, not_and] at hm
    have hw := hm (mem_resident h hk)
    split at hw
    · next d hd => exact ⟨d, hd, by simpa using hw⟩
    · exact absurd rfl hw

theorem foldl_invalidateCore_mild (ks : List Nat) (s : State) :
    Mild [.gh] [fGhPfWasteCount.addr] s (ks.foldl (fun s k => invalidateCore k s) s) :=
  foldl_mild _ (fun s k => invalidateCore_mild k s) ks s

theorem foldl_invalidateCore_resOf {m : Nat} {r : Res} : ∀ {ks : List Nat} {s : State},
    (ks.foldl (fun s k => invalidateCore k s) s).resOf m = some r → s.resOf m = some r ∧ r.core ∉ ks
  | [], _, h => ⟨h, by simp⟩
  | k :: ks, s, h => by
    obtain ⟨h1, hks⟩ := foldl_invalidateCore_resOf (ks := ks) h
    obtain ⟨h0, hk⟩ := invalidateCore_resOf h1
    exact ⟨h0, by rw [List.mem_cons, not_or]; exact ⟨hk, hks⟩⟩

end

/-! ## Working cores -/

/-- Which cores work turns on COUNT and on which cores are retired (R219). -/
theorem workingCores_congr {s t : State} {n : Nat} (hf : t.fld (fCluSparesCount n) = s.fld (fCluSparesCount n))
    (hm : ∀ k, (t.cor k).mode = .retired ↔ (s.cor k).mode = .retired) : workingCores t n = workingCores s n := by
  have hn : notRetired t n = notRetired s n := by
    unfold notRetired
    exact List.filter_congr fun k _ => by simp only [ne_eq, hm k]
  unfold workingCores sparesHeld
  rw [hn, hf]

theorem isWorking_congr {s t : State} {k : Nat} (hf : t.fld (fCluSparesCount (k / 16)) = s.fld (fCluSparesCount (k / 16)))
    (hm : ∀ k, (t.cor k).mode = .retired ↔ (s.cor k).mode = .retired) : isWorking t k = isWorking s k := by
  unfold isWorking
  rw [workingCores_congr hf hm]

theorem workingCores_cluster {s : State} {n k : Nat} (h : k ∈ workingCores s n) : k / 16 = n :=
  mem_coresOf.mp (List.mem_of_mem_filter (List.mem_of_mem_take h))

/-! ## Counters brought up to now -/

theorem syncCluster_kept (n : Nat) (s : State) : Kept [.regs, .hif, .out, .pmu] s (syncCluster n s) :=
  (syncCluster_within (Sub.refl _ |>.of (by decide)) (Within.refl s)).kept

theorem syncCluster_reg (n : Nat) (s : State) {b : Nat} (hb : 0x800 ≤ b % 0x1000) : (syncCluster n s).reg b = s.reg b := by
  unfold syncCluster
  generalize List.range 16 = ms
  induction ms generalizing s with
  | nil => rfl
  | cons m ms ih =>
    rw [List.foldl_cons, ih]
    refine (pmuSync_mild (16 * n + m) s).regs b ?_
    have := pmuBase_aligned (16 * n + m)
    simp only [List.mem_singleton, fPmuOvfCycle]
    omega

/-! ## OFF -/

/-- What an entry into OFF leaves of a core (R492, R493). -/
structure PoweredOff (work : Bool) (c d : Core) : Prop where
  ram     : d.ram = []
  filled  : d.filled = []
  blocked : d.blocked = false
  mode    : d.mode = if work = true ∧ c.mode = .wait then .off else c.mode

theorem PoweredOff.retired {work : Bool} {c d : Core} (h : PoweredOff work c d) : d.mode = .retired ↔ c.mode = .retired := by
  rw [h.mode]
  split
  · next hw => simp [hw.2]
  · rfl

theorem coreOff_cor (k : Nat) (s : State) : PoweredOff (isWorking s k) (s.cor k) ((coreOff k s).cor k) := by
  have hc : (coreOff k s).cor k = _ := State.cor_updCore_self _ k _
  rw [hc]
  exact ⟨rfl, rfl, rfl, by simp only [Bool.and_eq_true, decide_eq_true_eq]; rfl⟩

theorem coreOff_other {j k : Nat} (h : j ≠ k) (s : State) : (coreOff k s).cor j = s.cor j := State.cor_updCore_other _ h _

theorem coreOff_kept (k : Nat) (s : State) : Kept [.core, .free] s (coreOff k s) :=
  (coreOff_within (Sub.refl _) (Within.refl s)).kept

/-- What the cores of a cluster lose as it goes OFF. -/
theorem coresOff (n : Nat) (s : State) :
    Kept [.core, .free] s ((coresOf n).foldl (fun s k => coreOff k s) s) ∧
    (∀ k, k / 16 = n → PoweredOff (isWorking s k) (s.cor k) (((coresOf n).foldl (fun s k => coreOff k s) s).cor k)) ∧
    ∀ k, k / 16 ≠ n → ((coresOf n).foldl (fun s k => coreOff k s) s).cor k = s.cor k := by
  obtain ⟨⟨hk, -⟩, hq, ho⟩ := foldl_cor (step := coreOff) (Q := fun k => PoweredOff (isWorking s k))
    (I := fun u => Kept [.core, .free] s u ∧ ∀ k, (u.cor k).mode = .retired ↔ (s.cor k).mode = .retired)
    (fun k u hu => ⟨hu.1.trans (coreOff_kept k u), fun j => by
      by_cases hj : j = k
      · rw [hj, (coreOff_cor k u).retired, hu.2 k]
      · rw [coreOff_other hj, hu.2 j]⟩)
    (fun k u j hj => coreOff_other hj u)
    (fun k u hu => by
      have hregs : u.regs = s.regs := hu.1 .regs (by decide)
      have hw : isWorking u k = isWorking s k := isWorking_congr (fld_congr hregs _) hu.2
      exact hw ▸ coreOff_cor k u)
    (coresOf_nodup n) ⟨Kept.refl _ s, fun _ => Iff.rfl⟩
  exact ⟨hk, fun k h => hq k (mem_coresOf.mpr h), fun k h => ho k (fun hc => h (mem_coresOf.mp hc))⟩

/-- The state in which a cluster's contexts are gone and its counters stand at now, before its cores lose their RAM (R493). -/
abbrev emptied (n : Nat) (s : State) : State := syncCluster n ((coresOf n).foldl (fun s k => invalidateCore k s) s)

theorem emptied_kept (n : Nat) (s : State) : Kept [.regs, .hif, .out, .pmu, .gh] s (emptied n s) :=
  ((foldl_invalidateCore_mild (coresOf n) s).kept.mono (by simp)).trans ((syncCluster_kept n _).mono (by simp))

theorem emptied_spares {n j : Nat} (s : State) : (emptied n s).fld (fCluSparesCount j) = s.fld (fCluSparesCount j) := by
  unfold State.fld
  rw [syncCluster_reg n _ (by unfold fCluSparesCount; dsimp only; omega)]
  rw [(foldl_invalidateCore_mild (coresOf n) s).regs _ (spares_not_waste j)]

theorem emptied_resOf {n m : Nat} {r : Res} {s : State} (h : (emptied n s).resOf m = some r) : r.core / 16 ≠ n := by
  rw [resOf_congr (syncCluster_kept n _ .gh (by decide))] at h
  exact fun hr => (foldl_invalidateCore_resOf h).2 (mem_coresOf.mpr hr)

section
variable {s : State} {n : Nat}

theorem offEntry_not (h : (s.cl n).pwr ≠ .sleep ∨ s.fld (fCluPwrLimit n) ≠ 3) : offEntry n s = s := by
  refine if_neg fun hc => ?_
  simp only [Bool.and_eq_true, decide_eq_true_eq, beq_iff_eq] at hc
  obtain ⟨⟨⟨-, hp⟩, -⟩, hl⟩ := hc
  exact h.elim (absurd hp) (absurd hl)

variable (hn : n < 16) (hp : (s.cl n).pwr = .sleep) (hw : (s.cl n).waking = false) (hl : s.fld (fCluPwrLimit n) = 3)
  (hd : (s.cl n).since + s.fld fGlbPwrDelayOff * 25 ≤ s.clk)
include hn hp hw hl hd

theorem offEntry_due : offEntry n s =
    if wakeWithin s n 40 || !mayOff s n then s else setPwr n .off ((coresOf n).foldl (fun s k => coreOff k s) (emptied n s)) := by
  unfold offEntry advanceSince
  dsimp only
  rw [if_pos (by simp [hn, hp, hw, hl]), advance_passed hd]

/-- A cluster that nothing keeps from OFF enters it: its contexts are invalidated and its cores lose their RAM, while Bullpen and the shared data
RAM stay (R493). -/
theorem offEntry_enters (hk : wakeWithin s n 40 = false) (hm : mayOff s n = true) :
    ((offEntry n s).cl n).pwr = .off ∧ ((offEntry n s).cl n).data = (s.cl n).data ∧ (offEntry n s).bull = s.bull ∧ (offEntry n s).clk = s.clk ∧
      (∀ m r, (offEntry n s).resOf m = some r → r.core / 16 ≠ n) ∧
      (∀ k, k / 16 = n → ((offEntry n s).cor k).ram = [] ∧ ((offEntry n s).cor k).filled = [] ∧ ((offEntry n s).cor k).blocked = false ∧
        ((offEntry n s).cor k).mode = if isWorking s k = true ∧ (s.cor k).mode = .wait then .off else (s.cor k).mode) ∧
      ∀ k, k / 16 ≠ n → (offEntry n s).cor k = s.cor k := by
  have he := emptied_kept n s
  have hres : ∀ m r, (emptied n s).resOf m = some r → r.core / 16 ≠ n := fun m r => emptied_resOf
  have hcor : ∀ k, (emptied n s).cor k = s.cor k := cor_congr (he .core (by decide))
  have hwork : ∀ k, isWorking (emptied n s) k = isWorking s k := fun k => isWorking_congr (emptied_spares s) fun j => by rw [hcor j]
  obtain ⟨ho, hin, hout⟩ := coresOff n (emptied n s)
  rw [offEntry_due hn hp hw hl hd, if_neg (by simp [hk, hm])]
  generalize (coresOf n).foldl (fun s k => coreOff k s) (emptied n s) = u at *
  generalize emptied n s = e at *
  have hu : Kept [.regs, .hif, .out, .pmu, .gh, .core, .free] s u := (he.mono (by simp)).trans (ho.mono (by simp))
  refine ⟨by rw [setPwr_cl_self]; rfl, ?_, hu .bull (by decide), hu .clk (by decide), fun m r hr => ?_, fun k hkn => ?_, fun k hkn => ?_⟩
  · rw [setPwr_cl_self]
    show (u.cl n).data = (s.cl n).data
    rw [cl_congr (hu .clu (by decide))]
  · exact hres m r ((resOf_congr (ho .gh (by decide)) m).symm.trans hr)
  · have h : PoweredOff (isWorking s k) (s.cor k) (u.cor k) := by rw [← hwork, ← hcor]; exact hin k hkn
    exact ⟨h.ram, h.filled, h.blocked, h.mode⟩
  · exact (hout k hkn).trans (hcor k)

end

/-! ## A write of LIMIT -/

theorem arrayWrite_below {path : BusPath} {i bound : Nat} {f : Nat → Fld} {val : Word} {s : State} (h : i < bound) :
    arrayWrite path i bound f val s = busWrite path (f i).addr 15 val s := if_pos h

section
variable {s : State} {n : Nat}

/-- A cluster that sleeps wakes in 5 µs (R492, R494). -/
theorem wakeCluster_sleep (hp : (s.cl n).pwr = .sleep) (hw : (s.cl n).waking = false) :
    (wakeCluster n s).cl n = { s.cl n with waking := true, wakeAt := s.clk + 125 } := by
  have h : wakeCluster n s = s.updClu n (fun c => { c with waking := true, wakeAt := s.clk + 125 }) := by
    unfold wakeCluster
    simp [hp, hw]
  rw [h, State.cl_updClu_self]

/-- A cluster that is OFF wakes in 30 µs (R492, R494). -/
theorem wakeCluster_off (hp : (s.cl n).pwr = .off) (hw : (s.cl n).waking = false) :
    (wakeCluster n s).cl n = { s.cl n with waking := true, wakeAt := s.clk + 750 } := by
  have h : wakeCluster n s = s.updClu n (fun c => { c with waking := true, wakeAt := s.clk + 750 }) := by
    unfold wakeCluster
    simp [hp, hw]
  rw [h, State.cl_updClu_self]

theorem limitWritten_only : ClusterOnly n s (limitWritten n s) := by
  unfold limitWritten
  dsimp only
  split
  · exact tryIdle_only n s
  · split
    · exact setPwr_only n _ s
    · exact ClusterOnly.refl n s
  · split
    · exact wakeCluster_only n s
    · exact ClusterOnly.refl n s
  · split
    · exact wakeCluster_only n s
    · exact ClusterOnly.refl n s

theorem limitWritten_run (hp : (s.cl n).pwr = .run) (hl : s.fld (fCluPwrLimit n) = 0) : limitWritten n s = s := by
  unfold limitWritten tryIdle
  simp [hp, hl]

theorem limitWritten_idle (hp : (s.cl n).pwr = .idle) : limitWritten n s = if s.fld (fCluPwrLimit n) = 0 then setPwr n .run s else s := by
  unfold limitWritten
  simp only [hp]

theorem limitWritten_sleep (hp : (s.cl n).pwr = .sleep) : limitWritten n s = if s.fld (fCluPwrLimit n) < 2 then wakeCluster n s else s := by
  unfold limitWritten
  simp only [hp]

theorem limitWritten_off (hp : (s.cl n).pwr = .off) : limitWritten n s = if s.fld (fCluPwrLimit n) < 3 then wakeCluster n s else s := by
  unfold limitWritten
  simp only [hp]

end

theorem stored_kept (a : Nat) (val : Word) (s : State) : Kept [.regs] s (stored a val s) :=
  (State.setReg_within (Sub.refl _) (Within.refl s)).kept

/-- What a write of LIMIT does: it is stored, and the cluster that it names enters RUN or wakes where its state lies below (R494, R495). -/
theorem limit_write {path : BusPath} {n : Nat} {val : Word} {s : State} (hn : n < 16) (hr : reaches s (fCluPwrLimit n).addr = true) :
    ∃ t, exec (.clunPwrLimitWrite path n val) s = .next t ∧ Kept [.regs, .clu] s t ∧ RegsKept [(fCluPwrLimit n).addr] s t ∧
      t.fld (fCluPwrLimit n) = bits val 4 2 ∧ (∀ j, j ≠ n → t.cl j = s.cl j) ∧
      ((s.cl n).pwr = .idle → bits val 4 2 = 0 → t.cl n = enteredPwr n .run s) ∧
      ((s.cl n).pwr = .idle → bits val 4 2 ≠ 0 → t.cl n = s.cl n) ∧
      ((s.cl n).pwr = .sleep → (s.cl n).waking = false →
        t.cl n = if bits val 4 2 < 2 then { s.cl n with waking := true, wakeAt := s.clk + 125 } else s.cl n) ∧
      ((s.cl n).pwr = .off → (s.cl n).waking = false →
        t.cl n = if bits val 4 2 < 3 then { s.cl n with waking := true, wakeAt := s.clk + 750 } else s.cl n) ∧
      ((s.cl n).pwr = .run → bits val 4 2 = 0 → t.cl n = s.cl n) := by
  have he : exec (.clunPwrLimitWrite path n val) s = .next (limitWritten n (stored (fCluPwrLimit n).addr val s)) :=
    congrArg Host.Outcome.next ((arrayWrite_below hn).trans (busWrite_limit hn hr))
  have hl := stored_limit hn val s
  have hk := stored_kept (fCluPwrLimit n).addr val s
  have hreg : RegsKept [(fCluPwrLimit n).addr] s (stored (fCluPwrLimit n).addr val s) := (setReg_mild _ _ s).regs
  have hcl : ∀ j, (stored (fCluPwrLimit n).addr val s).cl j = s.cl j := cl_congr (hk .clu (by decide))
  have hclk : (stored (fCluPwrLimit n).addr val s).clk = s.clk := hk .clk (by decide)
  have hent := enteredPwr_congr (hk .clu (by decide)) (hk .clk (by decide)) n .run
  generalize stored (fCluPwrLimit n).addr val s = u at *
  have ho := limitWritten_only (s := u) (n := n)
  have hregs : (limitWritten n u).regs = u.regs := ho.kept .regs (by decide)
  refine ⟨_, he, (hk.mono (by simp)).trans (ho.kept.mono (by simp)), fun b hb => (reg_congr hregs b).trans (hreg b hb),
    (fld_congr hregs _).trans hl, fun j hj => (ho.others j hj).trans (hcl j), fun hp h0 => ?_,
    fun hp h0 => ?_, fun hp hw => ?_, fun hp hw => ?_, fun hp h0 => ?_⟩
  · rw [← hcl] at hp
    rw [limitWritten_idle hp, hl, if_pos h0, setPwr_cl_self, hent]
  · rw [← hcl] at hp
    rw [limitWritten_idle hp, hl, if_neg h0, hcl]
  · rw [← hcl] at hp hw
    rw [limitWritten_sleep hp, hl]
    split
    · rw [wakeCluster_sleep hp hw, hcl, hclk]
    · exact hcl n
  · rw [← hcl] at hp hw
    rw [limitWritten_off hp, hl]
    split
    · rw [wakeCluster_off hp hw, hcl, hclk]
    · exact hcl n
  · rw [← hcl] at hp
    rw [limitWritten_run hp (hl.trans h0), hcl]

/-! ## A write of SPARES -/

/-- A core that becomes a spare leaves: its page-ins end, and while it does not run its contexts are invalidated (R219). -/
def coreLeaves (k : Nat) (s : State) : State :=
  let s := dropPageIns k s
  match (s.cor k).mode with
  | .run => s
  | .doneWait => s
  | _ => invalidateIdle k s

theorem sparesWritten_eq (n count : Nat) (s : State) : sparesWritten n count s =
    tryIdle n (((workingCores s n).filter (fun k => !isWorking ((syncCluster n s).setFld (fCluSparesCount n) count) k)).foldl
      (fun s k => coreLeaves k s) ((syncCluster n s).setFld (fCluSparesCount n) count)) := rfl

/-- Nothing of core `k` is left but contexts that await a write-back. -/
structure HasLeft (k : Nat) (s t : State) : Prop where
  pageIns : ∀ p ∈ t.gh.pageIns, p.2.core ≠ k
  res     : ∀ m r, t.resOf m = some r → r.core = k → ∃ d, s.node? m = some d ∧ d.writeBack ≠ none

/-- What is resident or being paged in was so before. -/
structure ShrinksTo (s t : State) : Prop where
  mild    : Mild [.gh] [fGhPfWasteCount.addr] s t
  pageIns : t.gh.pageIns ⊆ s.gh.pageIns
  res     : ∀ m r, t.resOf m = some r → s.resOf m = some r

theorem ShrinksTo.refl (s : State) : ShrinksTo s s := ⟨Mild.refl _ _ s, List.Subset.refl _, fun _ _ h => h⟩

theorem ShrinksTo.trans {s t u : State} (h : ShrinksTo s t) (g : ShrinksTo t u) : ShrinksTo s u :=
  ⟨h.mild.trans g.mild, List.Subset.trans g.pageIns h.pageIns, fun m r hr => h.res m r (g.res m r hr)⟩

theorem HasLeft.shrinks {k : Nat} {s t u : State} (h : HasLeft k s t) (g : ShrinksTo t u) : HasLeft k s u :=
  ⟨fun p hp => h.pageIns p (g.pageIns hp), fun m r hr => h.res m r (g.res m r hr)⟩

theorem foldl_invalidate_pageIns (ns : List Nat) (s : State) : (ns.foldl (fun s n => invalidate n s) s).gh.pageIns = s.gh.pageIns := by
  induction ns generalizing s with
  | nil => rfl
  | cons n ns ih =>
    rw [List.foldl_cons, ih]
    rcases invalidate_res n s with h | ⟨h, -⟩ <;> rw [h]

theorem dropPageIns_shrinks (k : Nat) (s : State) : ShrinksTo s (dropPageIns k s) :=
  ⟨(setGh_mild _ s).mono (by simp) (by simp), List.filter_subset_self _, fun _ _ h => h⟩

theorem invalidateIdle_shrinks (k : Nat) (s : State) : ShrinksTo s (invalidateIdle k s) :=
  ⟨invalidateIdle_mild k s, fun _ h => foldl_invalidate_pageIns _ s ▸ h, fun _ _ h => (invalidateIdle_resOf h).1⟩

theorem coreLeaves_shrinks (k : Nat) (s : State) : ShrinksTo s (coreLeaves k s) := by
  unfold coreLeaves
  dsimp only
  split
  · exact dropPageIns_shrinks k s
  · exact dropPageIns_shrinks k s
  · exact (dropPageIns_shrinks k s).trans (invalidateIdle_shrinks k _)

theorem coreLeaves_hasLeft {k : Nat} {s : State} (hr : (s.cor k).mode ≠ .run) (hd : (s.cor k).mode ≠ .doneWait) : HasLeft k s (coreLeaves k s) := by
  have hdrop : ∀ p ∈ (dropPageIns k s).gh.pageIns, p.2.core ≠ k := fun p hp => by simpa using (List.mem_filter.mp hp).2
  unfold coreLeaves
  dsimp only
  split
  · next h => exact absurd h hr
  · next h => exact absurd h hd
  · exact ⟨fun p hp => hdrop p ((invalidateIdle_shrinks k _).pageIns hp), fun m r h => (invalidateIdle_resOf h).2⟩

/-- Each core of a list that does not run has left once all of them leave. -/
theorem foldl_coreLeaves {s : State} : ∀ {ks : List Nat} {u : State}, u.core = s.core → u.bull = s.bull →
    ShrinksTo u (ks.foldl (fun s k => coreLeaves k s) u) ∧
    ∀ k ∈ ks, (s.cor k).mode ≠ .run → (s.cor k).mode ≠ .doneWait → HasLeft k s (ks.foldl (fun s k => coreLeaves k s) u)
  | [], u, _, _ => ⟨ShrinksTo.refl u, by simp⟩
  | k :: ks, u, hc, hb => by
    have h1 := coreLeaves_shrinks k u
    obtain ⟨h2, hl⟩ := foldl_coreLeaves (s := s) (ks := ks) (u := coreLeaves k u) ((h1.mild.kept .core (by decide)).trans hc)
      ((h1.mild.kept .bull (by decide)).trans hb)
    refine ⟨h1.trans h2, fun j hj hr hd => ?_⟩
    rcases List.mem_cons.mp hj with rfl | hj
    · have hcor := cor_congr hc j
      have hleft : HasLeft j u (coreLeaves j u) := coreLeaves_hasLeft (by rwa [hcor]) (by rwa [hcor])
      exact (show HasLeft j s (coreLeaves j u) from ⟨hleft.pageIns, fun m r h => node?_congr hb m ▸ hleft.res m r h⟩).shrinks h2
    · exact hl j hj hr hd

/-- A new COUNT, from a state `s` that differs in registers alone and has its COUNT: it is held, and a core that becomes a spare while it waits loses
its contexts at once (R219, R436). -/
theorem sparesWritten_leaves {n count : Nat} {s u : State} (hk : Kept [.regs] s u) (hf : u.fld (fCluSparesCount n) = s.fld (fCluSparesCount n))
    (hc : count < 8) :
    Kept [.regs, .out, .hif, .gh, .clu, .pmu] s (sparesWritten n count u) ∧ (sparesWritten n count u).fld (fCluSparesCount n) = count ∧
      ∀ k ∈ workingCores s n, isWorking (sparesWritten n count u) k = false → (s.cor k).mode ≠ .run → (s.cor k).mode ≠ .doneWait →
        HasLeft k s (sparesWritten n count u) := by
  have hcu : u.core = s.core := hk .core (by decide)
  have hold : workingCores u n = workingCores s n := workingCores_congr hf fun k => by rw [cor_congr hcu]
  have hv : Kept [.regs, .out, .hif, .pmu] s ((syncCluster n u).setFld (fCluSparesCount n) count) :=
    ((hk.mono (by simp)).trans ((syncCluster_kept n u).mono (by simp))).trans ((setFld_mild _ _ _).kept.mono (by simp))
  have hcount : ((syncCluster n u).setFld (fCluSparesCount n) count).fld (fCluSparesCount n) = count :=
    (State.fld_setFld_self _ (fCluSparesCount n) (show 0 + 3 ≤ 32 by decide) count).trans (Nat.mod_eq_of_lt hc)
  rw [sparesWritten_eq, hold]
  generalize (syncCluster n u).setFld (fCluSparesCount n) count = v at *
  obtain ⟨hs, hl⟩ := foldl_coreLeaves (s := s) (ks := (workingCores s n).filter (fun k => !isWorking v k)) (hv .core (by decide)) (hv .bull (by decide))
  generalize ((workingCores s n).filter (fun k => !isWorking v k)).foldl (fun s k => coreLeaves k s) v = w at *
  have ht := (tryIdle_only n w).kept
  have hreg : (tryIdle n w).fld (fCluSparesCount n) = v.fld (fCluSparesCount n) := by
    have h1 : (tryIdle n w).regs = w.regs := ht .regs (by decide)
    have h2 : w.reg (fCluSparesCount n).addr = v.reg (fCluSparesCount n).addr := hs.mild.regs _ (spares_not_waste n)
    exact (fld_congr h1 _).trans (congrArg (bits · 0 3) h2)
  have hcore : (tryIdle n w).core = v.core := (ht .core (by decide)).trans (hs.mild.kept .core (by decide))
  have hgh : (tryIdle n w).gh = w.gh := ht .gh (by decide)
  refine ⟨((hv.mono (by simp)).trans (hs.mild.kept.mono (by simp))).trans (ht.mono (by simp)), hreg.trans hcount, fun k hkw hnot hr hd => ?_⟩
  have hkn := workingCores_cluster hkw
  have hiw : isWorking (tryIdle n w) k = isWorking v k := isWorking_congr (by rw [hkn]; exact hreg) fun j => by rw [cor_congr hcore]
  have hleft := hl k (List.mem_filter.mpr ⟨hkw, by rw [← hiw, hnot]; rfl⟩) hr hd
  exact ⟨hgh ▸ hleft.pageIns, fun m r h => hleft.res m r ((resOf_congr hgh m).symm.trans h)⟩

/-- What a write of SPARES does (R13, R219). -/
theorem spares_write {path : BusPath} {n : Nat} {val : Word} {s : State} (hn : n < 16) (hr : reaches s (fCluSparesCount n).addr = true) :
    ∃ t, exec (.clunSparesCountWrite path n val) s = .next t ∧ Kept [.regs, .out, .hif, .gh, .clu, .pmu] s t ∧
      t.fld (fCluSparesCount n) = (if bits val 0 3 ≤ 4 then bits val 0 3 else s.fld (fCluSparesCount n)) ∧
      ∀ k ∈ workingCores s n, isWorking t k = false → (s.cor k).mode ≠ .run → (s.cor k).mode ≠ .doneWait →
        (∀ p ∈ t.gh.pageIns, p.2.core ≠ k) ∧
        ∀ m r, t.resOf m = some r → r.core = k → ∃ d, s.node? m = some d ∧ d.writeBack ≠ none := by
  have hk : Kept [.regs] s ((stored (fCluSparesCount n).addr val s).setFld (fCluSparesCount n) (s.fld (fCluSparesCount n))) :=
    (State.setFld_within (Sub.refl _) (State.setReg_within (Sub.refl _) (Within.refl s))).kept
  have hf : ((stored (fCluSparesCount n).addr val s).setFld (fCluSparesCount n) (s.fld (fCluSparesCount n))).fld (fCluSparesCount n) =
      s.fld (fCluSparesCount n) :=
    (State.fld_setFld_self _ (fCluSparesCount n) (show 0 + 3 ≤ 32 by decide) _).trans (Nat.mod_eq_of_lt (bits_lt ..))
  obtain ⟨hkept, hfld, hleft⟩ := sparesWritten_leaves hk hf (count := (stored (fCluSparesCount n).addr val s).fld (fCluSparesCount n)) (bits_lt ..)
  exact ⟨_, congrArg Host.Outcome.next ((arrayWrite_below hn).trans (busWrite_spares hn hr)), hkept, hfld.trans (stored_spares hn val s),
    fun k h h1 h2 h3 => ⟨(hleft k h h1 h2 h3).pageIns, (hleft k h h1 h2 h3).res⟩⟩

/-! ## A write of HOME -/

section
variable {s : State} {k : Nat}

theorem homeWritten_other (h : (s.cor k).mode ≠ .halted) : homeWritten k s = s := if_neg h

/-- A HALTED core resumes at its home PC, or stays without power in a cluster that is OFF (R218). -/
theorem homeWritten_halted (h : (s.cor k).mode = .halted) : homeWritten k s = s.updCore k (fun c => { c with
    mode := if (s.cl (k / 16)).pwr = .off then .off else .wait, blocked := false, pc := homePc s k, loops := [], stall := .none }) := if_pos h

theorem homeWritten_kept : Kept [.core] s (homeWritten k s) := (homeWritten_within (Sub.refl _) (Within.refl s)).kept

theorem homeWritten_cor_other {j : Nat} (h : j ≠ k) : (homeWritten k s).cor j = s.cor j := by
  unfold homeWritten
  dsimp only
  split
  · exact State.cor_updCore_other s h _
  · rfl

end

/-- What a write of HOME does: the core that it names has the new home PC, and resumes there where it is HALTED (R218). -/
theorem home_write {path : BusPath} {k : Nat} {val : Word} {s : State} (hk : k < 256) (hr : reaches s (fCoreHomePc k).addr = true) :
    ∃ t, exec (.clunCmHomeWrite path k val) s = .next t ∧ Kept [.regs, .core] s t ∧ RegsKept [(fCoreHomePc k).addr] s t ∧
      homePc t k = val.toNat / 4 * 4 ∧ (∀ j, j ≠ k → t.cor j = s.cor j) ∧
      ((s.cor k).mode ≠ .halted → t.cor k = s.cor k) ∧
      ((s.cor k).mode = .halted → (t.cor k).mode = (if (s.cl (k / 16)).pwr = .off then .off else .wait) ∧ (t.cor k).pc = val.toNat / 4 * 4 ∧
        (t.cor k).loops = [] ∧ (t.cor k).blocked = false ∧ (t.cor k).stall = .none) := by
  have he : exec (.clunCmHomeWrite path k val) s = .next (homeWritten k (stored (fCoreHomePc k).addr val s)) :=
    congrArg Host.Outcome.next ((arrayWrite_below hk).trans (busWrite_home hk hr))
  have hpc := stored_home hk val s
  have hkept := stored_kept (fCoreHomePc k).addr val s
  have hreg : RegsKept [(fCoreHomePc k).addr] s (stored (fCoreHomePc k).addr val s) := (setReg_mild _ _ s).regs
  generalize stored (fCoreHomePc k).addr val s = u at *
  have hcor : ∀ j, u.cor j = s.cor j := cor_congr (hkept .core (by decide))
  have hcl := cl_congr (hkept .clu (by decide)) (k / 16)
  have hregs : (homeWritten k u).regs = u.regs := homeWritten_kept .regs (by decide)
  refine ⟨_, he, (hkept.mono (by simp)).trans (homeWritten_kept.mono (by simp)), fun b hb => (reg_congr hregs b).trans (hreg b hb),
    (congrArg (4 * ·) (fld_congr hregs _)).trans hpc, fun j hj => (homeWritten_cor_other hj).trans (hcor j), fun hm => ?_, fun hm => ?_⟩
  · rw [← hcor] at hm
    rw [homeWritten_other hm, hcor]
  · rw [← hcor] at hm
    rw [homeWritten_halted hm, State.cor_updCore_self, ← hcl]
    exact ⟨rfl, hpc, rfl, rfl, rfl⟩

/-- Settles O45, by the command: each clause is what its event or its write does. -/
theorem clusterPower : Obligations.ClusterPower := by
  unfold Obligations.ClusterPower
  refine ⟨fun s n => ⟨fun hn hp hl hd => ?_, fun h => congrArg Host.Outcome.next (sleepEntry_not h),
    fun hn hp hw hl hd => ⟨fun hk hm => ?_, fun hm => ?_⟩, fun h => congrArg Host.Outcome.next (offEntry_not h), fun hw => ?_, fun hw hd => ⟨_, rfl, wakeDone_ends hw hd⟩⟩,
    fun s path n val hn => ⟨limit_write hn, spares_write hn⟩, fun s path k val => home_write⟩
  · have he : exec (.clusterSleepEntry n) s = .next (if wakeWithin s n 15 then s else setPwr n .sleep s) :=
      congrArg Host.Outcome.next (sleepEntry_due hn hp hl hd)
    refine ⟨fun hk => ⟨_, he.trans (by rw [hk]; rfl), (setPwr_only n .sleep s).kept, setPwr_cl_self n .sleep s, (setPwr_only n .sleep s).others⟩,
      fun hk => he.trans (by rw [hk]; rfl)⟩
  · exact ⟨_, rfl, offEntry_enters hn hp hw hl hd hk hm⟩
  · exact congrArg Host.Outcome.next ((offEntry_due hn hp hw hl hd).trans (if_pos (by simp [hm])))
  · exact congrArg Host.Outcome.next (if_neg (by simp [hw]))

end Sys2Proof.Machine
end

section
/-!
PROOFS. Resets: what PORST_N, SYSRST_N, GLB_RST.SYS and the loss of VDD_AON leave of the registers and of every other part (R41, R442, R499 to R505).
-/

namespace Sys2Proof.Machine

/-! ## Registers that a reset leaves -/

/-- Keeping the entries whose keys pass a test leaves what a kept key holds and empties the others. -/
theorem mapFind?_filter_key {α : Type} (q : Nat → Bool) (k : Nat) : ∀ m : List (Nat × α),
    mapFind? k (m.filter (fun r => q r.1)) = if q k then mapFind? k m else none
  | [] => by simp
  | (j, v) :: m => by
    have ih := mapFind?_filter_key q k m
    by_cases hk : k = j
    · subst hk
      cases hq : q k with
      | true => simp [hq, mapFind?]
      | false => simp only [hq, List.filter_cons, Bool.false_eq_true, if_false, ih]
    · cases hq : q j with
      | true => simp only [hq, List.filter_cons, if_true, mapFind?, if_neg hk, ih]
      | false => simp only [hq, List.filter_cons, Bool.false_eq_true, if_false, mapFind?, if_neg hk, ih]

/-- A state whose registers are those of `s` that pass a test reads the others at their reset words. -/
theorem reg_of_filter {s t : State} {q : Nat → Bool} (h : t.regs = s.regs.filter (fun r => q r.1)) (a : Nat) :
    t.reg a = if q a then s.reg a else resetWord a := by
  unfold State.reg mapGet
  rw [h, mapFind?_filter_key]
  split <;> rfl

/-! ## PORST_N and VDD_AON (R41, R442) -/

theorem coldReset_lost (boot cool : Bool) (s : State) : Lost (coldReset boot cool s) := by
  intro p hp
  cases p <;> first | rfl | simp at hp

theorem coldReset_kept (boot cool : Bool) (s : State) : Kept (volatileParts ++ [.regs, .time, .hif, .glb]) s (coldReset boot cool s) := by
  intro p hp
  cases p <;> first | rfl | simp at hp

theorem coldReset_cause (boot cool : Bool) (s : State) : (coldReset boot cool s).fld fAonRstCause = 1 := by
  have h : (coldReset boot cool s).reg fAonRstCause.addr = 1 := rfl
  unfold State.fld
  rw [h]; rfl

/-- PORST_N keeps the trip and sets the cause; every other register is at its reset word. -/
theorem coldReset_reg (boot cool : Bool) (s : State) {a : Nat} (ha : a ≠ fAonRstCause.addr) :
    (coldReset boot cool s).reg a = if a = fAonTripTherm.addr then s.reg a else resetWord a := by
  have hc : (coldReset boot cool s).reg a = ({ s with regs := s.regs.filter (fun r => r.1 == 0x10608) } : State).reg a := by
    unfold State.reg mapGet coldReset
    exact congrArg (Option.getD · _) (if_neg ha)
  rw [hc, reg_of_filter (q := (· == 0x10608)) rfl]
  exact if_congr beq_iff_eq rfl rfl

theorem aonLost_cause (s : State) : (aonLost s).fld fAonRstCause = 1 := by
  have h : (aonLost s).reg fAonRstCause.addr = 1 := rfl
  unfold State.fld
  rw [h]; rfl

theorem aonLost_reg (s : State) {a : Nat} (ha : a ≠ fAonRstCause.addr) : (aonLost s).reg a = resetWord a := by
  unfold State.reg mapGet aonLost
  exact congrArg (Option.getD · _) (if_neg ha)

/-! ## SYSRST_N and GLB_RST.SYS (R41, R499 to R505) -/

/-- What a reset other than PORST_N and a FATAL event leaves before it records itself. -/
def warmBase (s : State) : State :=
  { pending := s.pending, free := s.free, clk := s.clk, out := s.out
    regs := s.regs.filter (fun r => keptReg false r.1), time := keptTime s.time, flash := s.flash
    glb := { restarts := 0, tripped := s.glb.tripped, refs := s.glb.refs, bootPin := s.glb.bootPin
             rollback := s.glb.rollback, revoked := s.glb.revoked } }

theorem warmBase_lost (s : State) : Lost (warmBase s) := by
  intro p hp
  cases p <;> first | rfl | simp at hp

theorem warmBase_kept (s : State) : Kept (volatileParts ++ [.regs, .time, .hif, .glb]) s (warmBase s) := by
  intro p hp
  cases p <;> first | rfl | simp at hp

theorem warmBase_reg (s : State) (a : Nat) : (warmBase s).reg a = if keptReg false a then s.reg a else resetWord a := reg_of_filter rfl a

theorem keptReg_iff (a : Nat) : keptReg false a = true ↔ KeptThrough a ∨ a = fAonRstCountCount.addr := by
  simp only [keptReg, keptTimeReg, KeptThrough, fAonRstCountCount, fAonFatalCause, fAonFatalMtcMtc, fAonTripTherm, Bool.false_and, Bool.or_false,
    Bool.or_eq_true, Bool.and_eq_true, decide_eq_true_eq, beq_iff_eq, or_assoc]

/-- The registers in which a reset records itself: its cause and count, the bring-up step with its boot source, and the locks. -/
abbrev resetRecord (cause : RstCause) (boot : Bool) (s t : State) : State :=
  ((((t.setFld fAonRstCause cause.mask).setFld fAonRstCountCount (min (s.fld fAonRstCountCount + 1) 65535)).setFld fGlbStatStep 2).setFld
    fGlbStatBootSel (bitOf boot)).setFld fGlbPllStatLock (s.fld fGlbPllStatLock % 64 / 32 * 32)

theorem warmReset_eq {cause : RstCause} (h : cause ≠ .fatal) (boot : Bool) (s : State) :
    warmReset cause boot s = resetRecord cause boot s (warmBase s) := by
  cases cause with
  | sysrst => rfl
  | glb => rfl
  | fatal => exact absurd rfl h

theorem setFld_kept (f : Fld) (v : Nat) (s : State) : Kept [.regs] s (s.setFld f v) := State.setFld_within (Sub.refl _) (Within.refl s)|>.kept

theorem resetRecord_kept (cause : RstCause) (boot : Bool) (s t : State) : Kept [.regs] t (resetRecord cause boot s t) :=
  have k := setFld_kept
  Kept.trans (Kept.trans (Kept.trans (Kept.trans (k _ _ _) (k _ _ _)) (k _ _ _)) (k _ _ _)) (k _ _ _)

section
variable (cause : RstCause) (boot : Bool) (s t : State)

theorem resetRecord_reg {a : Nat} (ha : a ∉ [fGlbStatStep.addr, fGlbPllStatLock.addr, fAonRstCause.addr, fAonRstCountCount.addr]) :
    (resetRecord cause boot s t).reg a = t.reg a := by
  simp only [List.mem_cons, List.not_mem_nil, or_false, not_or] at ha
  obtain ⟨hstat, hpll, hcause, hcount⟩ := ha
  rw [State.reg_setFld_other _ _ _ hpll, State.reg_setFld_other _ fGlbStatBootSel _ hstat, State.reg_setFld_other _ _ _ hstat,
    State.reg_setFld_other _ _ _ hcount, State.reg_setFld_other _ _ _ hcause]

theorem resetRecord_cause : (resetRecord cause boot s t).fld fAonRstCause = cause.mask := by
  rw [State.fld_setFld_other _ _ _ _ (by decide), State.fld_setFld_other _ _ _ _ (by decide), State.fld_setFld_other _ _ _ _ (by decide),
    State.fld_setFld_other _ _ _ _ (by decide), State.fld_setFld_self _ _ (by decide)]
  cases cause <;> rfl

theorem resetRecord_count : (resetRecord cause boot s t).fld fAonRstCountCount = min (s.fld fAonRstCountCount + 1) 65535 := by
  rw [State.fld_setFld_other _ _ _ _ (by decide), State.fld_setFld_other _ _ _ _ (by decide), State.fld_setFld_other _ _ _ _ (by decide),
    State.fld_setFld_self _ _ (by decide)]
  exact Nat.mod_eq_of_lt (by rw [show fAonRstCountCount.w = 16 from rfl]; omega)

theorem resetRecord_step : (resetRecord cause boot s t).fld fGlbStatStep = 2 := by
  rw [State.fld_setFld_other _ _ _ _ (by decide), State.fld_setFld_apart _ _ _ _ (by decide) (by decide), State.fld_setFld_self _ _ (by decide)]
  rfl

theorem resetRecord_bootSel : (resetRecord cause boot s t).fld fGlbStatBootSel = bitOf boot := by
  rw [State.fld_setFld_other _ _ _ _ (by decide), State.fld_setFld_self _ _ (by decide)]
  cases boot <;> rfl

/-- The other fields of GLB_STAT are not written. -/
theorem resetRecord_stat {f : Fld} (ha : f.addr = 0x8) (hlo : 3 ≤ f.lo) (hhi : f.lo + f.w ≤ 16) : (resetRecord cause boot s t).fld f = t.fld f := by
  rw [State.fld_setFld_other _ _ _ _ (by rw [ha]; decide), State.fld_setFld_apart _ fGlbStatBootSel f _ (by decide) (.inl hhi),
    State.fld_setFld_apart _ fGlbStatStep f _ (by decide) (.inr hlo), State.fld_setFld_other _ _ _ _ (by rw [ha]; decide),
    State.fld_setFld_other _ _ _ _ (by rw [ha]; decide)]

/-- Of the locks, that of the REFCLK PLL alone is kept (R504). -/
theorem resetRecord_pll {j : Nat} (hj : j < 7) : (resetRecord cause boot s t).fld (fGlbPllStatLock.bit j) = if j = 5 then s.fld (fGlbPllStatLock.bit j) else 0 := by
  have hl : (resetRecord cause boot s t).fld fGlbPllStatLock = s.fld fGlbPllStatLock % 64 / 32 * 32 := by
    rw [State.fld_setFld_self _ _ (by decide)]
    exact Nat.mod_eq_of_lt (by rw [show fGlbPllStatLock.w = 7 from rfl]; omega)
  have bit : ∀ u : State, u.fld (fGlbPllStatLock.bit j) = u.fld fGlbPllStatLock / 2 ^ j % 2 := by
    intro u
    simp only [State.fld, bits, Fld.bit, fGlbPllStatLock, Nat.zero_add, Nat.pow_zero, Nat.div_one, Nat.pow_one]
    interval_cases j <;> omega
  rw [bit, bit, hl]
  split
  · next h => subst h; omega
  · next h => interval_cases j <;> omega

end

/-- What SYSRST_N and GLB_RST.SYS lose, keep and record. -/
theorem warmReset_is {cause : RstCause} (h : cause ≠ .fatal) (boot : Bool) (s : State) :
    WarmReset cause.mask boot s (warmReset cause boot s) := by
  rw [warmReset_eq h]
  have k := resetRecord_kept cause boot s (warmBase s)
  have hstat : ∀ f : Fld, f.addr = 0x8 → (warmBase s).fld f = bits (resetWord 0x8) f.lo f.w := by
    intro f hf
    unfold State.fld
    rw [hf, warmBase_reg, if_neg (by decide)]
  have kept_ne : ∀ a, KeptThrough a → a ∉ [fGlbStatStep.addr, fGlbPllStatLock.addr, fAonRstCause.addr, fAonRstCountCount.addr] := by
    intro a ha
    simp only [KeptThrough, fAonFatalCause, fAonFatalMtcMtc, fAonTripTherm] at ha
    simp only [fGlbStatStep, fGlbPllStatLock, fAonRstCause, fAonRstCountCount, List.mem_cons, List.not_mem_nil, or_false, not_or]
    omega
  exact {
    lost := fun p hp => Part.same_trans (warmBase_lost s p hp) (k p (fun hr => by rw [List.mem_singleton.mp hr] at hp; simp at hp))
    kept := (warmBase_kept s).trans (k.mono (by simp))
    hif := rfl
    time := rfl
    fuses := ⟨rfl, rfl⟩
    cause := resetRecord_cause ..
    count := resetRecord_count ..
    stat := ⟨resetRecord_step .., by
        unfold State.flag
        rw [resetRecord_stat _ _ _ _ rfl (by decide) (by decide), hstat _ rfl]
        decide +kernel,
      by rw [resetRecord_stat _ _ _ _ rfl (by decide) (by decide), hstat _ rfl]; decide +kernel, resetRecord_bootSel ..⟩
    pll := fun j hj => resetRecord_pll _ _ _ _ hj
    regs := fun a ha => by rw [resetRecord_reg _ _ _ _ (kept_ne a ha), warmBase_reg, if_pos ((keptReg_iff a).mpr (.inl ha))]
    rest := fun a ha hn => by
      rw [resetRecord_reg _ _ _ _ hn, warmBase_reg, if_neg]
      rw [keptReg_iff]
      rintro (hk | rfl)
      · exact ha hk
      · simp at hn }

/-- The boot pin that a reset samples is no part of what it leaves. -/
theorem WarmReset.of_glb {cause : Nat} {boot : Bool} {s t : State} {g : GlbSt} (h : WarmReset cause boot { s with glb := g } t)
    (hr : g.rollback = s.glb.rollback) (hv : g.revoked = s.glb.revoked) : WarmReset cause boot s t where
  lost := h.lost
  kept := Kept.trans (t := { s with glb := g }) (fun p hp => by cases p <;> first | rfl | simp at hp) h.kept
  hif := h.hif
  time := h.time
  fuses := ⟨h.fuses.1.trans hr, h.fuses.2.trans hv⟩
  cause := h.cause
  count := h.count
  stat := h.stat
  pll := h.pll
  regs := h.regs
  rest := h.rest

theorem sysReset_awake {s : State} (h : s.glb.tripped = false) (boot : Bool) :
    sysReset boot s = warmReset .sysrst boot { s with glb := { s.glb with bootPin := boot } } := if_neg (by rw [h]; decide)

/-- Settles O28, by the reset: PORST_N and the loss of VDD_AON name what they leave, SYSRST_N and GLB_RST.SYS are one warm reset. -/
theorem resetResults : Obligations.ResetResults := by
  unfold Obligations.ResetResults
  intro s
  refine ⟨fun boot cool => ?porst, fun boot => ⟨fun h => ?sysrst, fun h => ?tripped⟩, fun path val => ⟨fun hr hv => ?glb, fun hv => ?idle⟩, ?aon⟩
  case porst =>
    exact ⟨_, rfl, coldReset_lost boot cool s, rfl, rfl, coldReset_kept boot cool s, rfl, coldReset_cause boot cool s,
      (coldReset_reg boot cool s (by decide)).trans (if_pos rfl), fun a ha ht => (coldReset_reg boot cool s ha).trans (if_neg ht)⟩
  case sysrst =>
    exact ⟨_, congrArg Host.Outcome.next (sysReset_awake h boot), (warmReset_is (cause := .sysrst) (by decide) boot _).of_glb rfl rfl⟩
  case tripped => exact congrArg Host.Outcome.next (if_pos h)
  case glb =>
    exact ⟨_, congrArg Host.Outcome.next (if_pos (by rw [hr, hv]; rfl)), warmReset_is (cause := .glb) (by decide) _ s⟩
  case idle => exact congrArg Host.Outcome.next (if_neg (by rw [hv]; simp))
  case aon =>
    have lost : Lost (aonLost s) := fun p hp => by cases p <;> first | rfl | simp at hp
    have kept : Kept (volatileParts ++ [.regs, .time, .hif, .glb]) s (aonLost s) := fun p hp => by cases p <;> first | rfl | simp at hp
    exact ⟨_, rfl, lost, rfl, rfl, kept, by simp [aonLost, coldReset], aonLost_cause s, fun a ha => aonLost_reg s ha⟩

end Sys2Proof.Machine
end

section
/-!
PROOFS. Steps and cycles: a step of the timeline leaves the registers of TIME alone (R57, R58), and cycles that pass move the counter and the clock,
count, and send nothing but interrupts (R40, R448 to R451).
-/

namespace Sys2Proof.Machine

/-! ## The registers of TIME -/

/-- The registers of the TIME block read as before (R36). -/
structure TimeRegs (s t : State) : Prop where
  same : ∀ a, 0x20000 ≤ a → a < 0x30000 → t.reg a = s.reg a

/-- An address outside the TIME block. -/
abbrev OffTime (a : Nat) : Prop := a < 0x20000 ∨ 0x30000 ≤ a

theorem offTime_abandon (p : Nat) : OffTime (fMdmPpStatAbandon p).addr := .inr (by simp only [fMdmPpStatAbandon]; omega)

theorem offTime_frozen (p : Nat) : OffTime (fMdmPpGainFrozen p).addr := .inr (by simp only [fMdmPpGainFrozen]; omega)

theorem offTime_paEn (p : Nat) : OffTime (fMdmPpGainPaEn p).addr := .inr (by simp only [fMdmPpGainPaEn]; omega)

theorem offTime_beatMiss (g : Nat) : OffTime (fBullBeatMissCount g).addr := .inr (by simp only [fBullBeatMissCount]; omega)

theorem offTime_beatStall (g : Nat) : OffTime (fBullBeatStallCycles g).addr := .inr (by simp only [fBullBeatStallCycles]; omega)

theorem TimeRegs.refl (s : State) : TimeRegs s s := ⟨fun _ _ _ => rfl⟩

theorem TimeRegs.trans {s t u : State} (h : TimeRegs s t) (g : TimeRegs t u) : TimeRegs s u :=
  ⟨fun a h1 h2 => (g.same a h1 h2).trans (h.same a h1 h2)⟩

theorem TimeRegs.fld {s t : State} (h : TimeRegs s t) {f : Fld} (h1 : 0x20000 ≤ f.addr) (h2 : f.addr < 0x30000) : t.fld f = s.fld f :=
  congrArg (bits · f.lo f.w) (h.same f.addr h1 h2)

theorem TimeRegs.flag {s t : State} (h : TimeRegs s t) {f : Fld} (h1 : 0x20000 ≤ f.addr) (h2 : f.addr < 0x30000) : t.flag f = s.flag f :=
  congrArg (· != 0) (h.fld h1 h2)

theorem RegsKept.timeRegs {as : List Nat} {s t : State} (h : RegsKept as s t) (ha : ∀ a ∈ as, OffTime a) : TimeRegs s t :=
  ⟨fun a h1 h2 => h a fun hm => by have := ha a hm; omega⟩

/-- A change of other parts of the state comes first. -/
theorem TimeRegs.after {s t u : State} (h : TimeRegs t u) (e : t.regs = s.regs) : TimeRegs s u :=
  ⟨fun a h1 h2 => (h.same a h1 h2).trans (reg_congr e a)⟩

/-- A change of other parts of the state follows. -/
theorem TimeRegs.before {s t u : State} (h : TimeRegs s t) (e : u.regs = t.regs) : TimeRegs s u :=
  ⟨fun a h1 h2 => (reg_congr e a).trans (h.same a h1 h2)⟩

theorem foldl_timeRegs {β : Type} {f : State → β → State} (hf : ∀ s x, TimeRegs s (f s x)) : ∀ (l : List β) (s : State), TimeRegs s (l.foldl f s)
  | [], s => TimeRegs.refl s
  | x :: l, s => (hf s x).trans (foldl_timeRegs hf l _)

section
variable {f : Fld} (hf : OffTime f.addr)
include hf

theorem setFld_timeRegs (v : Nat) (s : State) : TimeRegs s (s.setFld f v) := (setFld_mild f v s).regs.timeRegs (by simpa using hf)

theorem bump_timeRegs (k : Nat) (s : State) : TimeRegs s (s.bump f k) := setFld_timeRegs hf _ s

theorem raiseFld_timeRegs (src : Nat) (s : State) : TimeRegs s (raiseFld src f s) := (raiseFld_mild src f s).regs.timeRegs (by simpa using hf)

/-- An event is counted and its flag raised. -/
theorem bumpRaise_timeRegs {g : Fld} (hg : OffTime g.addr) (k src : Nat) (s : State) : TimeRegs s (raiseFld src g (s.bump f k)) :=
  (bump_timeRegs hf k s).trans (raiseFld_timeRegs hg src _)

end

theorem pmuOvf_offTime (set : Nat) : ∀ a ∈ [(fPmuOvfPmc set).addr], OffTime a := by
  simp only [List.mem_singleton, fPmuOvfPmc, forall_eq, pmuBase]
  right
  split_ifs <;> omega

theorem pmuEvent_timeRegs (set ev n : Nat) (s : State) : TimeRegs s (pmuEvent set ev n s) :=
  (pmuEvent_mild set ev n s).regs.timeRegs (pmuOvf_offTime set)

theorem finishWait_timeRegs (on : WaitOn) (st : Nat) (r : List Nat) (s : State) : TimeRegs s (finishWait on st r s) :=
  (finishWait_answered on st r s).regs.timeRegs (by decide)

/-! ## Steps of the timeline (R57, R58) -/

theorem beatStep_timeRegs (old new g : Nat) (s : State) : TimeRegs s (beatStep old new g s) := by
  unfold beatStep
  extract_lets b due pend jumped missed s1
  split_ifs
  · exact TimeRegs.refl s
  · exact TimeRegs.refl s
  · exact (TimeRegs.refl s).before rfl
  · exact TimeRegs.after (t := s1) (bumpRaise_timeRegs (offTime_beatMiss g) (by decide) _ _ _) rfl

theorem umpEvent_timeRegs (e : UmpEv) (s : State) : TimeRegs s (umpEvent e s) := by
  have count : ∀ cls s, TimeRegs s (umpCount cls s) := by
    intro cls s
    unfold umpCount
    split
    all_goals exact bumpRaise_timeRegs (by decide) (by decide) _ _ _
  have write : ∀ seq mtc rep s, TimeRegs s (umpWrite e seq mtc rep s) := by
    intro seq mtc rep s
    unfold umpWrite
    extract_lets size head base
    split
    · exact bumpRaise_timeRegs (by decide) (by decide) _ _ _
    · exact (setFld_timeRegs (f := fUmpRingHeadIndex) (by decide) _ _).after rfl
  unfold umpEvent
  extract_lets seq s1
  have h1 : TimeRegs s s1 := (bump_timeRegs (f := fUmpSeqNext) (by decide) _ _).trans (count ..)
  split
  · exact h1.before rfl
  · exact h1.trans (write ..)

theorem seedFault_timeRegs {f : Fld} (hf : OffTime f.addr) (cause node acct h : Nat) (suspect : Bool) (s : State) :
    TimeRegs s (seedFault f cause node acct h suspect s) := by
  unfold seedFault
  extract_lets s1 s2
  have h1 : TimeRegs s s1 := bumpRaise_timeRegs hf (by decide) _ _ _
  have h2 : TimeRegs s s2 := by
    unfold s2
    split
    · exact h1.before rfl
    · exact h1
  exact h2.trans (umpEvent_timeRegs ..)

theorem releaseEntry_timeRegs (e : Entry) (loan : Bool) (s : State) : TimeRegs s (releaseEntry e loan s) := by
  have check : ∀ old s, TimeRegs s (checkTotals old s) := by
    intro old s
    unfold checkTotals
    split
    · exact seedFault_timeRegs (by decide) ..
    · exact TimeRegs.refl s
  have give : ∀ n s, TimeRegs s (totalsGive n s) := fun n s => (check s _).after rfl
  unfold releaseEntry
  split
  · exact TimeRegs.refl s
  · unfold seedFree
    extract_lets n owner gs freed
    exact ((give n freed).after (State.setSeed_regs _ _)).before (State.setSeed_regs _ _)

theorem setAbandon_timeRegs (p : Nat) (s : State) : TimeRegs s (setAbandon p s) :=
  (setFld_timeRegs (offTime_abandon p) 1 s).trans
    (raiseFld_timeRegs (by decide) _ _)

theorem uplinkStart_timeRegs (p : Nat) (s : State) : TimeRegs s (uplinkStart p s) := by
  unfold uplinkStart
  split
  · exact TimeRegs.refl s
  · extract_lets s1 s2 up on s3
    have h1 : TimeRegs s s1 := (TimeRegs.refl s).before (State.updMport_regs _ _ _)
    clear_value s1
    have h2 : TimeRegs s s2 := h1.trans ((setFld_timeRegs (offTime_frozen p) 0 s1).before (State.updMport_regs _ _ _))
    clear_value s2
    have h3 : TimeRegs s s3 := h2.before (State.setMdm_regs _ _)
    clear_value s3
    split_ifs
    · exact TimeRegs.refl s
    · exact h1
    · exact h3
    · exact h3.trans (setAbandon_timeRegs ..)

theorem stepPort_timeRegs (old new p : Nat) (s : State) : TimeRegs s (stepPort old new p s) := by
  unfold stepPort
  extract_lets s1 m before fresh cutUp s2 cut s3 s4 s5 last
  have h1 : TimeRegs s s1 := uplinkStart_timeRegs p s
  clear_value s1 m before
  have h2 : TimeRegs s1 s2 := by
    unfold s2
    split
    · exact (setAbandon_timeRegs p _).after rfl
    · exact TimeRegs.refl _
  clear_value s2
  have h3 : TimeRegs s2 s3 := foldl_timeRegs (fun s t => by
    split
    · exact releaseEntry_timeRegs ..
    · exact TimeRegs.refl s) _ _
  clear_value s3
  have h4 : TimeRegs s3 s4 := by
    unfold s4
    split
    · split
      · exact (setAbandon_timeRegs p _).after rfl
      · exact TimeRegs.refl _
    · exact TimeRegs.refl _
  clear_value s4
  have h5 : TimeRegs s4 s5 := foldl_timeRegs (fun s st => foldl_timeRegs (fun s c => by
    dsimp only
    split
    · exact (setAbandon_timeRegs p _).after rfl
    · exact TimeRegs.refl s) _ _) _ _
  clear_value s5
  exact ((((h1.trans h2).trans h3).trans h4).trans h5).trans
    ((setFld_timeRegs (offTime_paEn p) 0 _).after rfl)

theorem radioStep_timeRegs (old new : Nat) (s : State) : TimeRegs s (radioStep old new s) := by
  unfold radioStep
  split
  · exact TimeRegs.refl s
  · exact foldl_timeRegs (fun s p => stepPort_timeRegs old new p s) _ _

theorem updSeg_regs (q : Nat) (f : Seg → Seg) (s : State) : (s.updSeg q f).regs = s.regs := by
  unfold State.updSeg
  split <;> rfl

theorem closePages_timeRegs (q : Nat) (s : State) : TimeRegs s (closePages q s) := by
  have emits : ∀ (f : Nat × State → List Byte → Nat × State), (∀ x b, TimeRegs x.2 (f x b).2) →
      ∀ (l : List (List Byte)) (d : Nat) (t : State), TimeRegs t (l.foldl f (d, t)).2 := by
    intro f hf l
    induction l with
    | nil => exact fun _ t => TimeRegs.refl t
    | cons main l ih => exact fun d t => (hf (d, t) main).trans (ih _ _)
  unfold closePages
  split
  · exact TimeRegs.refl s
  · extract_lets start pages
    refine emits _ (fun x b => ?_) pages _ s
    exact (pmuEvent_timeRegs 265 0x701 1 _).after rfl

theorem tryClose_timeRegs (q : Nat) (s : State) : TimeRegs s (tryClose q s) := by
  unfold tryClose
  split
  · exact TimeRegs.refl s
  · extract_lets staged s1 s2
    have h2 : TimeRegs s s2 :=
      ((closePages_timeRegs q s).before (updSeg_regs ..)).trans (bump_timeRegs (f := fFlcSegWrittenCount) (by decide) _ _)
    split_ifs
    · exact TimeRegs.refl s
    · exact h2
    · exact h2.trans (finishWait_timeRegs ..)

theorem segmentStep_timeRegs (old new : Nat) (s : State) : TimeRegs s (segmentStep old new s) := by
  unfold segmentStep requestClose
  split
  · exact TimeRegs.refl s
  · split
    · exact TimeRegs.refl s
    · exact (tryClose_timeRegs _ _).after (updSeg_regs ..)

/-- A step of the timeline writes no register of TIME: the counter is no register. -/
theorem stepTo_timeRegs (x : Nat) (s : State) : TimeRegs s (stepTo x s) := by
  unfold stepTo
  extract_lets old s1 new s2
  have h2 : TimeRegs s s2 := by
    unfold s2
    split
    · exact (foldl_timeRegs (fun s g => beatStep_timeRegs old new g s) _ s1).after rfl
    · exact (TimeRegs.refl s).before rfl
  exact (h2.trans (radioStep_timeRegs ..)).trans (segmentStep_timeRegs ..)

/-! ## Cycles that pass (R40, R448 to R451) -/

/-- Between the states events have been counted: nothing has been sent but interrupts, and no register of TIME has changed. -/
structure Counts (s t : State) : Prop where
  kept : Kept [.pmu, .regs, .hif, .out] s t
  out  : MsixAfter s.out t.out
  regs : TimeRegs s t

theorem Counts.refl (s : State) : Counts s s := ⟨Kept.refl _ s, MsixAfter.refl _, TimeRegs.refl s⟩

theorem Counts.trans {s t u : State} (h : Counts s t) (g : Counts t u) : Counts s u :=
  ⟨h.kept.trans g.kept, h.out.trans g.out, h.regs.trans g.regs⟩

theorem Mild.counts {ps : List Part} {as : List Nat} {s t : State} (m : Mild ps as s t) (hp : ps ⊆ [.pmu]) (ha : ∀ a ∈ as, OffTime a) : Counts s t :=
  ⟨(m.mono hp (List.Subset.refl _)).kept.mono (by decide), m.out, m.regs.timeRegs ha⟩

theorem foldl_counts {β : Type} {f : State → β → State} (hf : ∀ s x, Counts s (f s x)) : ∀ (l : List β) (s : State), Counts s (l.foldl f s)
  | [], s => Counts.refl s
  | x :: l, s => (hf s x).trans (foldl_counts hf l _)

theorem bump_counts {f : Fld} (hf : OffTime f.addr) (k : Nat) (s : State) : Counts s (s.bump f k) :=
  (bump_mild f k s).counts (by simp) (by simpa using hf)

theorem pmuEvent_counts (set ev n : Nat) (s : State) : Counts s (pmuEvent set ev n s) :=
  (pmuEvent_mild set ev n s).counts (by simp) (pmuOvf_offTime set)

theorem pmuSync_counts (set : Nat) (s : State) : Counts s (pmuSync set s) := (pmuSync_mild set s).counts (by simp) (pmuOvf_offTime set)

theorem pmuCoreTime_counts (set k : Nat) (s : State) : Counts s (pmuCoreTime set k s) := by
  unfold pmuCoreTime
  split
  · extract_lets c
    have mode : Counts s (match c.mode with
        | .run => pmuEvent set 0x032 (match c.stall with | .xwait | .done _ => k | _ => 0) (pmuEvent set 0x002 k s)
        | .wait => if inSpare s set then s else pmuEvent set 0x003 k s
        | .doneWait => pmuEvent set 0x004 k s
        | _ => s) := by
      split
      · exact (pmuEvent_counts ..).trans (pmuEvent_counts ..)
      · split
        · exact Counts.refl s
        · exact pmuEvent_counts ..
      · exact pmuEvent_counts ..
      · exact Counts.refl s
    split
    · exact mode
    · exact mode
    · exact Counts.refl s
  · exact Counts.refl s

theorem stallTime_counts (n : Nat) (s : State) : Counts s (stallTime n s) := by
  have bumps : ∀ (c : Prop) [Decidable c] (f : Fld) (k : Nat) (s : State), OffTime f.addr → Counts s (if c then s.bump f k else s) := by
    intro c _ f k s hf
    split
    · exact bump_counts hf k s
    · exact Counts.refl s
  unfold stallTime
  extract_lets stalled s1 s2 s3 s4
  have h1 : Counts s s1 := by
    unfold s1
    split
    · exact Counts.refl s
    · exact bump_counts (f := fBullDoneStallCycles) (by decide) _ _
  have h2 : Counts s1 s2 := by
    unfold s2
    split
    · next g _ _ => exact bump_counts (offTime_beatStall g) _ _
    · exact Counts.refl _
  refine (((h1.trans h2).trans (bumps _ _ _ s2 (by decide))).trans (bumps _ _ _ s3 (by decide))).trans (foldl_counts (fun t p => ?_) _ _)
  split
  · exact pmuEvent_counts ..
  · exact Counts.refl t

/-- The state once `n` cycles have moved the counter and the clock, and nothing else. -/
abbrev ticked (n : Nat) (s : State) : State :=
  { s with clk := s.clk + n, time := { s.time with t := s.time.t + n * timeInc s.time.rate } }

theorem Counts.ticked {s t : State} (h : Counts s t) (n : Nat) : Counts (ticked n s) (ticked n t) where
  kept := by
    intro p hp
    have := h.kept p hp
    have hclk : t.clk = s.clk := h.kept .clk (by decide)
    have htime : t.time = s.time := h.kept .time (by decide)
    cases p with
    | clk => exact congrArg (· + n) hclk
    | time => simp only [Part.same, htime]
    | _ => exact this
  out := h.out
  regs := ⟨h.regs.same⟩

/-- Cycles that pass move the counter and the clock, and count. -/
theorem advance_counts (n : Nat) (s : State) : Counts (ticked n s) (advance n s) := by
  unfold advance
  split
  · next h =>
    subst h
    simp only [ticked, Nat.zero_mul, Nat.add_zero]
    exact Counts.refl s
  · have h1 := (stallTime_counts n s).trans (foldl_counts (fun s (p : Nat × PmuSet) => pmuCoreTime_counts p.1 (n * coreCycles) s) s.pmu _)
    exact (h1.ticked n).trans (foldl_counts (fun s (p : Nat × PmuSet) => pmuSync_counts p.1 s) _ _)

theorem advance_time (n : Nat) (s : State) : (advance n s).time = { s.time with t := s.time.t + n * timeInc s.time.rate } :=
  (advance_counts n s).kept .time (by decide)

theorem advance_clk (n : Nat) (s : State) : (advance n s).clk = s.clk + n := (advance_counts n s).kept .clk (by decide)

/-- Time that is let run to an instant stops less than one cycle after it (R40). -/
theorem advanceTo_reaches {target : Nat} {s : State} (hi : 0 < timeInc s.time.rate) (ht : s.time.t ≤ target) :
    target ≤ (advanceTo target s).time.t ∧ (advanceTo target s).time.t < target + timeInc s.time.rate := by
  unfold advanceTo
  rw [advance_time]
  dsimp only
  generalize timeInc s.time.rate = inc at hi
  have h1 := Nat.div_add_mod (target - s.time.t + inc - 1) inc
  have h2 := Nat.mod_lt (target - s.time.t + inc - 1) hi
  have h3 : (target - s.time.t + inc - 1) / inc * inc = inc * ((target - s.time.t + inc - 1) / inc) := Nat.mul_comm _ _
  omega

/-- Nothing passes where the counter is already at the instant. -/
theorem advanceTo_passed {target : Nat} {s : State} (h : target ≤ s.time.t) : advanceTo target s = s := by
  have hz : (target - s.time.t + timeInc s.time.rate - 1) / timeInc s.time.rate = 0 := by
    rw [Nat.sub_eq_zero_of_le h, Nat.zero_add]
    rcases Nat.eq_zero_or_pos (timeInc s.time.rate) with h0 | h0
    · rw [h0, Nat.div_zero]
    · exact Nat.div_eq_of_lt (by omega)
  unfold advanceTo
  dsimp only
  rw [hz]; rfl

end Sys2Proof.Machine
end

section
/-!
PROOFS. Rules of TIME: what the servo's own operations change of the time block and of its registers (R49 to R59), and which port is the slave.
-/

namespace Sys2Proof.Machine

/-! ## HOLDOVER, ACQUIRE and the rate (R51, R54, R55, R522) -/

/-- Holding the rate changes the rate alone of the time block. -/
theorem holdRate_other (s : State) : (holdRate s).time = { s.time with rate := (holdRate s).time.rate } := by
  unfold holdRate followRef
  split
  · split <;> rfl
  · split <;> rfl
  · rfl

/-- A servo that measures has its own rate. -/
theorem holdRate_measuring {s : State} (h1 : s.time.servo ≠ .holdover) (h2 : s.time.servo ≠ .freerun) : holdRate s = s := by
  unfold holdRate
  split
  · next h => exact absurd h h1
  · next h => exact absurd h h2
  · rfl

/-- The servo is in HOLDOVER with its cause. Only the counts, the rate and the rate of the entry may have changed besides. -/
theorem enterHoldover_time (c : Nat) (s : State) : ∃ n r e, (enterHoldover c s).time =
    { s.time with servo := .holdover, hoCause := c, holdCount := 0, lockCount := n, rate := r, entryRate := e } := by
  unfold enterHoldover
  extract_lets s1
  split
  · next h =>
    have hs : s.time.servo = .holdover := h
    exact ⟨s.time.lockCount, s.time.rate, s.time.entryRate, by rw [← hs]; rfl⟩
  · exact ⟨_, _, _, holdRate_other _⟩

theorem referenceLost_following {s : State} (h : s.time.servo ∈ [Servo.acquire, .locked, .pathHold]) : referenceLost s = enterHoldover 1 s := by
  unfold referenceLost
  simp only [List.mem_cons, List.not_mem_nil, or_false] at h
  rcases h with h | h | h <;> rw [h]

theorem referenceLost_idle {s : State} (h : s.time.servo ∉ [Servo.acquire, .locked, .pathHold]) : referenceLost s = s := by
  unfold referenceLost
  split <;> first | rfl | simp_all

/-- A lost reference changes the servo's state, its cause, its counts and its rate. -/
theorem referenceLost_other (s : State) : ∃ v c k n r e, (referenceLost s).time =
    { s.time with servo := v, hoCause := c, holdCount := k, lockCount := n, rate := r, entryRate := e } := by
  by_cases h : s.time.servo ∈ [Servo.acquire, .locked, .pathHold]
  · obtain ⟨n, r, e, ht⟩ := enterHoldover_time 1 s
    exact ⟨_, _, _, n, r, e, by rw [referenceLost_following h, ht]⟩
  · exact ⟨_, _, _, _, _, _, by rw [referenceLost_idle h]⟩

/-! ## The choice of the slave port (R48 to R51) -/

section
variable (w g : Option Nat) (s : State)

/-- The state once the slave port and the UTC offset are taken, before the servo hears of it. -/
def withSlave : State :=
  s.setTime (fun t => { t with slave := bestMaster s, utcOffset :=
    ((bestMaster s).bind (fun p => (mapFind? p s.time.announces).map (fun a => a.utcOffset))).orElse (fun _ => t.utcOffset) })

/-- Selecting again takes the slave port, tells the servo of a lost master, and restarts its counts at a change of master. -/
theorem reselect_cases : ∃ u, (u = withSlave s ∨ w.isSome = true ∧ bestMaster s = none ∧ ptpDrives s = true ∧ u = referenceLost (withSlave s)) ∧
    (w.isSome = true → bestMaster s = none → ptpDrives s = true → u = referenceLost (withSlave s)) ∧
    (reselect w g s = u ∨ reselect w g s = restartCounts u) := by
  unfold reselect
  extract_lets b gm utc s1 s2
  have hd : ptpDrives s1 = ptpDrives s := rfl
  refine ⟨s2, ?_, ?_, ?_⟩
  · unfold s2
    split
    · next h =>
      simp only [Bool.and_eq_true, hd, Option.isNone_iff_eq_none] at h
      exact .inr ⟨h.1.1, h.1.2, h.2, rfl⟩
    · exact .inl rfl
  · intro h1 h2 h3
    unfold s2
    rw [if_pos (by simp [h1, hd, h3, b, h2])]
    rfl
  · split
    · exact .inl rfl
    · exact .inr rfl

/-- The slave port is the best master. -/
theorem reselect_slave : (reselect w g s).time.slave = bestMaster s := by
  obtain ⟨u, hu, -, hr⟩ := reselect_cases w g s
  have hs : u.time.slave = bestMaster s := by
    rcases hu with rfl | ⟨-, -, -, rfl⟩
    · rfl
    · obtain ⟨_, _, _, _, _, _, h⟩ := referenceLost_other (withSlave s)
      rw [h]; rfl
  rcases hr with hr | hr <;> rw [hr] <;> exact hs

theorem reselect_armed : (reselect w g s).time.armed = s.time.armed := by
  obtain ⟨u, hu, -, hr⟩ := reselect_cases w g s
  have hs : u.time.armed = s.time.armed := by
    rcases hu with rfl | ⟨-, -, -, rfl⟩
    · rfl
    · obtain ⟨_, _, _, _, _, _, h⟩ := referenceLost_other (withSlave s)
      rw [h]; rfl
  rcases hr with hr | hr <;> rw [hr] <;> exact hs

end

/-- Without a master to lose, the servo and its rate stay. -/
theorem reselect_undisturbed {w g : Option Nat} {s : State} (h : w = none ∨ bestMaster s ≠ none ∨ ptpDrives s = false) :
    (reselect w g s).time.rate = s.time.rate ∧ (reselect w g s).time.servo = s.time.servo ∧ (reselect w g s).time.hoCause = s.time.hoCause := by
  obtain ⟨u, hu, -, hr⟩ := reselect_cases w g s
  have hs : u = withSlave s := by
    rcases hu with hu | ⟨h1, h2, h3, -⟩
    · exact hu
    · rcases h with h | h | h
      · rw [h] at h1; cases h1
      · exact absurd h2 h
      · rw [h3] at h; cases h
  subst hs
  rcases hr with hr | hr <;> rw [hr] <;> exact ⟨rfl, rfl, rfl⟩

/-- A servo that follows a master goes to HOLDOVER once no master is left. -/
theorem reselect_lost {w g : Option Nat} {s : State} (hw : w ≠ none) (hb : bestMaster s = none) (hd : ptpDrives s = true)
    (hs : s.time.servo ∈ [Servo.acquire, .locked, .pathHold]) :
    (reselect w g s).time.servo = .holdover ∧ (reselect w g s).time.hoCause = 1 := by
  obtain ⟨u, -, hu, hr⟩ := reselect_cases w g s
  obtain rfl := hu (Option.isSome_iff_ne_none.mpr hw) hb hd
  have hl : referenceLost (withSlave s) = enterHoldover 1 (withSlave s) := referenceLost_following hs
  obtain ⟨n, r, e, ht⟩ := enterHoldover_time 1 (withSlave s)
  rw [hl] at hr
  rcases hr with hr | hr <;> rw [hr]
  · rw [ht]; exact ⟨rfl, rfl⟩
  · unfold restartCounts State.setTime
    dsimp only
    rw [ht]; exact ⟨rfl, rfl⟩

/-- A servo that follows nothing stays as it is. -/
theorem reselect_idle {w g : Option Nat} {s : State} (hs : s.time.servo ∉ [Servo.acquire, .locked, .pathHold]) :
    (reselect w g s).time.servo = s.time.servo ∧ (reselect w g s).time.hoCause = s.time.hoCause := by
  obtain ⟨u, hu, -, hr⟩ := reselect_cases w g s
  have hs : u = withSlave s := by
    rcases hu with hu | ⟨-, -, -, hu⟩
    · exact hu
    · exact hu.trans (referenceLost_idle hs)
  subst hs
  rcases hr with hr | hr <;> rw [hr] <;> exact ⟨rfl, rfl⟩

/-! ## Steps of the counter and answers to the host -/

theorem stepTo_now (x : Nat) (s : State) : (stepTo x s).time = { s.time with t := x } := (stepTo_time x s).1

theorem finishWait_time (on : WaitOn) (st : Nat) (r : List Nat) (s : State) : (finishWait on st r s).time = s.time :=
  (finishWait_within (Ω := (· ∈ [.hif, .out, .regs])) (fun _ h => h) (Within.refl s)).same .time (by decide)

/-- An offset that is recorded takes a free value and writes TIME_OFFSET. -/
theorem filterOffset_mild (s : State) : Mild [.free] [fTimeOffsetNs.addr] s (filterOffset s).2 :=
  ((draw_mild s).mono (by simp) (by simp)).trans ((setFld_mild _ _ _).mono (by simp) (by simp))

theorem filterOffset_kept (s : State) : Kept [.regs, .free] s (filterOffset s).2 := by
  intro p hp
  unfold filterOffset
  cases p <;> first | rfl | simp at hp

theorem filterOffset_time (s : State) : (filterOffset s).2.time = s.time := rfl

theorem filterOffset_refused (s : State) : (filterOffset s).2.fld fTimeStatStepRefused = s.fld fTimeStatStepRefused :=
  State.fld_setFld_other _ fTimeOffsetNs fTimeStatStepRefused _ (by decide)

/-- A refusal: HOLDOVER with cause 2, and the sticky bit (R54). -/
theorem refuse_refused (s : State) : ∃ n r e, (refuse s).time =
      { s.time with servo := .holdover, hoCause := 2, holdCount := 0, lockCount := n, rate := r, entryRate := e } ∧
    (refuse s).flag fTimeStatStepRefused = true := by
  obtain ⟨n, r, e, ht⟩ := enterHoldover_time 2 s
  have hk : (refuse s).time = (enterHoldover 2 s).time := raiseFld_kept _ _ _ .time (by decide)
  exact ⟨n, r, e, hk.trans ht, raiseFld_self _ _ (by decide) (by decide) _⟩

end Sys2Proof.Machine
end

section
/-!
PROOFS. Host operations on TIME (R48, R53, R56, R57): TIME.SET, RATE, STEP_AUTH and CONFIG.
-/

namespace Sys2Proof.Machine

variable {s : State} {h : KciHdr}

/-- A whole second and nanoseconds show as the fields TIME_SEC and TIME_NS (R39). -/
theorem timeFields_of {sec ns : Nat} (hs : sec < 2 ^ 48) (hn : ns < 1000000000) :
    timeSec (sec * secUnit + ns * nsUnit) = sec ∧ timeNs (sec * secUnit + ns * nsUnit) = ns := by
  simp only [timeSec, timeNs, secUnit, nsUnit]
  omega

section
variable {sec ns : Nat} (hs : sec < 2 ^ 48) (hn : ns < 1000000000)
include hs hn

theorem timeSet_legal : firstErr [chkRange sec 0 (2 ^ 48 - 1), chkRange ns 0 999999999] = none := by
  rw [chkRange_ok (Nat.zero_le _) (by omega), chkRange_ok (Nat.zero_le _) (by omega)]; rfl

/-- TIME.SET steps the counter (R53, R57). -/
theorem timeSet_steps (hr : kciReady 0x0901 h none s = true) (ha : s.time.armed = false) (hc : s.fld fTimeCtlSrc ≠ 0) :
    ∃ t, exec (.timeSet h sec ns) s = .next t ∧ Completed 0x0901 h 0 [] s t ∧ t.time = { s.time with t := sec * secUnit + ns * nsUnit } ∧
      timeSec t.time.t = sec ∧ timeNs t.time.t = ns ∧ t.clk = s.clk := by
  set x := sec * secUnit + ns * nsUnit with hx
  have hout : s.out <+: (stepTo x (started 0x0901 h s)).out := by
    rw [← started_out 0x0901 h s]; exact (stepTo_keep (Keep.refl _)).out
  obtain ⟨done, kept⟩ := kci_completed (operands := fun _ => [chkRange sec 0 (2 ^ 48 - 1), chkRange ns 0 999999999])
    (f := fun s => if s.time.armed ∨ s.fld fTimeCtlSrc = 0 then kciFail eState s else kciOk (stepTo x s))
    (st := 0) (r := []) (u := stepTo x (started 0x0901 h s)) hr (timeSet_legal hs hn)
    (if_neg (by rw [started_time, started_fld, ha]; simpa using hc)) hout
  have htime := kept .time (by decide)
  have hclk := kept .clk (by decide)
  obtain ⟨stime, sclk⟩ := stepTo_time x (started 0x0901 h s)
  rw [started_time] at stime
  have hnow := htime.trans stime
  refine ⟨_, rfl, done, hnow, ?_, ?_, ?_⟩
  · rw [hnow]; exact (timeFields_of hs hn).1
  · rw [hnow]; exact (timeFields_of hs hn).2
  · exact (hclk.trans sclk).trans (started_same State.clk 0x0901 h s fun _ => rfl)

/-- TIME.SET answers E_STATE on an armed servo and under PTP. -/
theorem timeSet_refused (hr : kciReady 0x0901 h none s = true) (hc : s.time.armed = true ∨ s.fld fTimeCtlSrc = 0) :
    FailsWith (.timeSet h sec ns) 0x0901 h s 4 :=
  fails rfl hr (timeSet_legal hs hn) (by decide) (if_pos (by rwa [started_time, started_fld]))

end

section
variable {rate : Int} (hlo : -rateMax ≤ rate) (hhi : rate ≤ rateMax)
include hlo hhi

theorem timeSetRate_legal : firstErr [chk (decide (-rateMax ≤ rate) && decide (rate ≤ rateMax)) eRange] = none := by
  rw [chk_ok (by rw [Bool.and_eq_true, decide_eq_true_eq, decide_eq_true_eq]; exact ⟨hlo, hhi⟩)]; rfl

/-- TIME.SET_RATE sets the rate under host control (R53). -/
theorem timeSetRate_sets (hr : kciReady 0x0902 h none s = true) (hc : s.fld fTimeCtlSrc = 2) :
    ∃ t, exec (.timeSetRate h rate) s = .next t ∧ Done 0x0902 h 0 [] [] [] s t ∧ Kept [.regs, .hif, .out, .time] s t ∧
      t.time = { s.time with rate := rate } := by
  obtain ⟨t, ht, hd, hk, hu⟩ := completes (i := .timeSetRate h rate) rfl ((started 0x0902 h s).setTime fun x => { x with rate := rate }) 0 [] [.time] []
    hr (timeSetRate_legal hlo hhi) (if_neg (by rw [started_fld]; simpa using hc)) (setTime_mild _ _) (by decide) (by simp)
  have htime := hu .time (by decide)
  exact ⟨t, ht, hd, hk, htime.trans (congrArg (fun x : TimeSt => { x with rate := rate }) (started_time ..))⟩

theorem timeSetRate_refused (hr : kciReady 0x0902 h none s = true) (hc : s.fld fTimeCtlSrc ≠ 2) :
    FailsWith (.timeSetRate h rate) 0x0902 h s 4 :=
  fails rfl hr (timeSetRate_legal hlo hhi) (by decide) (if_pos (by rwa [started_fld]))

end

section
variable {limit : Nat} (hlo : 1 ≤ limit) (hhi : limit < 2 ^ 47 * 1000000000)
include hlo hhi

theorem timeStepAuth_legal : firstErr [chkZero limit, chkRange limit 1 (2 ^ 47 * 1000000000 - 1)] = none := by
  rw [chkZero_ok (by omega), chkRange_ok hlo (by omega)]; rfl

/-- TIME.STEP_AUTH waits with its limit (R56). -/
theorem timeStepAuth_waits (hr : kciReady 0x0903 h none s = true) (hc : s.time.hoCause = 2) (ha : s.time.auth = none) :
    ∃ t, exec (.timeStepAuth h limit) s = .next t ∧ Waits 0x0903 h none .stepAuth [] s t ∧ Kept [.hif, .time] s t ∧
      t.time = { s.time with auth := some ⟨limit, h.tag⟩ } := by
  obtain ⟨t, ht, hw, hk, hu⟩ := waits_kept (i := .timeStepAuth h limit) (ps := [.time])
    (u := (started 0x0903 h s).setTime fun x => { x with auth := some ⟨limit, h.tag⟩ }) rfl hr (timeStepAuth_legal hlo hhi) (by decide)
    ((if_neg (by rw [started_time]; simpa using hc)).trans (if_neg (by rw [started_time, ha]; simp)))
    (fun p hp => by cases p <;> first | rfl | simp at hp) (by decide)
  have htime := hu .time (by decide)
  exact ⟨t, ht, hw, hk, htime.trans (congrArg (fun x : TimeSt => { x with auth := some ⟨limit, h.tag⟩ }) (started_time ..))⟩

/-- A second authorisation answers E_BUSY (R56). -/
theorem timeStepAuth_busy (hr : kciReady 0x0903 h none s = true) (hc : s.time.hoCause = 2) (ha : s.time.auth ≠ none) :
    FailsWith (.timeStepAuth h limit) 0x0903 h s 3 :=
  fails rfl hr (timeStepAuth_legal hlo hhi) (by decide)
    ((if_neg (by rw [started_time]; simpa using hc)).trans (if_pos (by rw [started_time]; exact Option.isSome_iff_ne_none.mpr ha)))

end

/-- The masters that a configuration still hears (R48). -/
abbrev heardBy (c : PtpConfig) (s : State) : List (Nat × Announce) := s.time.announces.filter (fun a => c.ports.testBit a.1 && a.2.domain == c.domain)

/-- The state once a configuration is stored, before the selection (R48). -/
abbrev configured (c : PtpConfig) (s : State) : State := s.setTime (fun t => { t with cfg := c, announces := heardBy c s })

/-- Whom the selection chooses depends on the time block alone. -/
theorem bestMaster_congr {s t : State} (e : t.time = s.time) : bestMaster t = bestMaster s := by
  unfold bestMaster hears ownBeats ownClass
  rw [e]

/-- TIME.CONFIG stores the port set and selects again (R48). -/
theorem timeConfig_selects {c : PtpConfig} (hc : firstErr (ptpChecks 64 c) = none) (hr : kciReady 0x0904 h none s = true) :
    let b := bestMaster (configured c s)
    ∃ t, exec (.timeConfig h 64 c) s = .next t ∧ Done 0x0904 h 0 [] [] [] s t ∧ Kept [.regs, .hif, .out, .time, .free] s t ∧
      t.time.cfg = c ∧ t.time.t = s.time.t ∧ t.time.announces = heardBy c s ∧ t.time.slave = b ∧
      (s.time.slave = none ∨ b ≠ none ∨ ptpDrives s = false → t.time.rate = s.time.rate ∧ t.time.servo = s.time.servo) ∧
      (s.time.slave ≠ none → b = none → ptpDrives s = true → s.time.servo = .locked → t.time.servo = .holdover ∧ t.time.hoCause = 1) := by
  have e0 : (started 0x0904 h s).time = s.time := started_time ..
  set v := configured c (started 0x0904 h s) with hv
  set u := reselect (started 0x0904 h s).time.slave (slaveGm (started 0x0904 h s)) v with hu
  have ev : v.time = (configured c s).time := by
    simp only [hv, configured, State.setTime, heardBy, e0]
  have eb : bestMaster v = bestMaster (configured c s) := bestMaster_congr ev
  have ed : ptpDrives v = ptpDrives s := started_same ptpDrives 0x0904 h s fun _ => rfl
  have m : Mild [.time, .free] [] (started 0x0904 h s) u :=
    ((setTime_mild _ _).mono (by simp) (by simp)).trans (reselect_mild _ _ v)
  obtain ⟨t, ht, hd, hk, hkept⟩ := completes (i := .timeConfig h 64 c) rfl u 0 [] [.time, .free] [] hr hc rfl m (by decide) (by simp)
  have htime : t.time = u.time := hkept .time (by decide)
  obtain ⟨hcfg, hnow, hann⟩ := reselect_time (started 0x0904 h s).time.slave (slaveGm (started 0x0904 h s)) v
  refine ⟨t, ht, hd, hk, ?_, ?_, ?_, ?_, ?_, ?_⟩
  · rw [htime, hcfg, ev]; rfl
  · rw [htime, hnow, ev]; rfl
  · rw [htime, hann, ev]; rfl
  · rw [htime, reselect_slave, eb]
  · intro hq
    obtain ⟨hrate, hservo, -⟩ := reselect_undisturbed (w := (started 0x0904 h s).time.slave) (g := slaveGm (started 0x0904 h s)) (s := v)
      (by rwa [e0, eb, ed])
    rw [htime, hrate, hservo, ev]; exact ⟨rfl, rfl⟩
  · intro h1 h2 h3 h4
    rw [htime]
    exact reselect_lost (by rwa [e0]) (eb.trans h2) (ed.trans h3) (by rw [ev]; simp [State.setTime, h4])

/-- Settles O27, by one lemma for each answer of the four commands. -/
theorem timeCommands : Obligations.TimeCommands := by
  unfold Obligations.TimeCommands
  intro s h
  refine ⟨fun sec ns hs hn hr => ⟨timeSet_steps hs hn hr, timeSet_refused hs hn hr⟩,
    fun rate hlo hhi hr => ⟨timeSetRate_sets hlo hhi hr, timeSetRate_refused hlo hhi hr⟩,
    fun limit hlo hhi hr hc => ⟨timeStepAuth_waits hlo hhi hr hc, timeStepAuth_busy hlo hhi hr hc⟩, fun c hc hr => timeConfig_selects hc hr⟩

end Sys2Proof.Machine
end

section
/-!
PROOFS. The servo (R50 to R56): one lemma for each branch of a measurement, and what the branch leaves of the time block.
-/

namespace Sys2Proof.Machine

variable {s : State} {off : Int}

/-! ## Which operation a measurement is -/

theorem measure_pathHold (hv : s.time.servo = .pathHold) : measure off s = (filterOffset s).2 := by
  unfold measure
  rw [hv]

theorem measure_authorised {a : StepAuth} (ha : s.time.auth = some a) (h1 : s.time.servo ≠ .pathHold) (h2 : s.time.servo ≠ .free) :
    measure off s = useAuth a off s := by
  unfold measure
  rw [ha]
  cases hv : s.time.servo <;> simp_all

section
variable (ha : s.time.auth = none)
include ha

theorem measure_holdover (hv : s.time.servo = .holdover) : measure off s = updateHoldover off s := by
  unfold measure
  rw [ha, hv]

/-- An armed servo refuses what lies beyond TIME_STEP_MAX (R54). -/
theorem measure_refused (hm : s.time.armed = true) (hv : s.time.servo ∈ [Servo.freerun, .acquire, .locked, .holdover])
    (hf : stepMax s < off.natAbs) : measure off s = refuse s := by
  have here : s.time.armed = true ∧ stepMax s < off.natAbs := ⟨hm, hf⟩
  have overBound : updateHoldover off s = refuse s := by
    unfold updateHoldover
    rw [if_neg (by omega), if_pos hm]
  unfold measure
  rw [ha]
  cases hs : s.time.servo with
  | holdover => exact overBound
  | freerun => exact if_pos here
  | acquire => exact if_pos here
  | locked => exact if_pos here
  | pathHold => simp [hs] at hv
  | free => simp [hs] at hv

theorem measure_freerun (hm : s.time.armed = false) (hv : s.time.servo = .freerun) :
    measure off s = enterAcquire (stepBy (-off * nsUnit) s) := by
  unfold measure
  rw [ha, hv]
  exact if_neg (by simp [hm])

theorem measure_locked (hv : s.time.servo = .locked) (hn : (off.natAbs : Int) ≤ stepMax s) : measure off s = updateLocked s := by
  unfold measure
  rw [ha, hv]
  exact if_neg (by omega)

theorem measure_acquire (hv : s.time.servo = .acquire) (hn : (off.natAbs : Int) ≤ stepMax s) : measure off s = updateAcquire s := by
  unfold measure
  rw [ha, hv]
  exact if_neg (by omega)

end

/-! ## What the operations change -/

/-- The counter once an offset is stepped away. -/
abbrev steppedTo (off : Int) (s : State) : Nat := ((s.time.t : Int) - off * nsUnit).toNat

/-- A step on an offset, after which the servo acquires (R51, R56). -/
theorem acquireStep_time (off : Int) (s : State) : (enterAcquire (stepBy (-off * nsUnit) s)).time =
    { s.time with t := steppedTo off s, servo := .acquire, hoCause := 0, lockCount := 0, holdCount := 0 } := by
  have ht : (stepBy (-off * nsUnit) s).time = { s.time with t := steppedTo off s } := by
    unfold stepBy
    rw [stepTo_now, show (s.time.t : Int) + -off * nsUnit = s.time.t - off * nsUnit by rw [Int.neg_mul]; rfl]
  unfold enterAcquire State.setTime
  dsimp only
  rw [ht]

theorem acquireStep_timeRegs (off : Int) (s : State) : TimeRegs s (enterAcquire (stepBy (-off * nsUnit) s)) :=
  (stepTo_timeRegs _ s).before rfl

section
variable {a : StepAuth}

/-- An authorised step within its limit (R56). -/
theorem useAuth_steps (hl : off.natAbs ≤ a.limit) : (useAuth a off s).time =
    { s.time with auth := none, t := steppedTo off s, servo := .acquire, hoCause := 0, lockCount := 0, holdCount := 0 } := by
  unfold useAuth
  dsimp only
  rw [if_pos hl, finishWait_time, acquireStep_time]
  rfl

/-- A measurement beyond the limit that an armed servo refuses (R54, R56). -/
theorem useAuth_refuses (hl : a.limit < off.natAbs) (hm : s.time.armed = true) (hf : stepMax s < off.natAbs) :
    ∃ n r e, (useAuth a off s).time = { s.time with
      auth := none, servo := .holdover, hoCause := 2, holdCount := 0, lockCount := n, rate := r, entryRate := e } ∧
    (useAuth a off s).flag fTimeStatStepRefused = true := by
  obtain ⟨n, r, e, ht, hr⟩ := refuse_refused (s.setTime (fun t => { t with auth := none }))
  have hu : useAuth a off s = finishWait .stepAuth eRange [] (refuse (s.setTime (fun t => { t with auth := none }))) := by
    unfold useAuth
    dsimp only
    rw [if_neg (by omega), if_pos ⟨hm, hf⟩]
  rw [hu]
  exact ⟨n, r, e, (finishWait_time ..).trans ht, ((finishWait_timeRegs ..).flag (by decide) (by decide)).trans hr⟩

/-- A measurement beyond the limit that no servo refuses only moves the count (R55, R56). -/
theorem useAuth_keeps (hl : a.limit < off.natAbs) (hm : s.time.armed = false ∨ (off.natAbs : Int) ≤ stepMax s) :
    ∃ n, (useAuth a off s).time = { s.time with auth := none, holdCount := n } ∧
      (useAuth a off s).fld fTimeStatStepRefused = s.fld fTimeStatStepRefused := by
  have hc : ¬ (s.time.armed = true ∧ stepMax s < off.natAbs) := by
    rintro ⟨h1, h2⟩
    rcases hm with hm | hm
    · rw [hm] at h1; cases h1
    · omega
  have hu : ∃ n, useAuth a off s = finishWait .stepAuth eRange [] (s.setTime (fun t => { t with auth := none, holdCount := n })) := by
    unfold useAuth
    dsimp only
    rw [if_neg (by omega)]
    exact ⟨_, if_neg hc⟩
  obtain ⟨n, hu⟩ := hu
  rw [hu]
  exact ⟨n, finishWait_time .., (finishWait_timeRegs ..).fld (by decide) (by decide)⟩

theorem not_refused (hc : ¬ (s.time.armed = true ∧ stepMax s < off.natAbs)) : s.time.armed = false ∨ (off.natAbs : Int) ≤ stepMax s := by
  cases hm : s.time.armed with
  | false => exact .inl rfl
  | true => exact .inr (not_lt.mp fun h => hc ⟨hm, h⟩)

/-- A measurement uses the authorisation up (R56). -/
theorem useAuth_spent : (useAuth a off s).time.auth = none := by
  rcases Nat.lt_or_ge a.limit off.natAbs with hl | hl
  · by_cases hc : s.time.armed = true ∧ stepMax s < off.natAbs
    · obtain ⟨_, _, _, ht, -⟩ := useAuth_refuses hl hc.1 hc.2
      rw [ht]
    · obtain ⟨_, ht, -⟩ := useAuth_keeps hl (not_refused hc)
      rw [ht]
  · rw [useAuth_steps hl]

end

/-- In LOCKED the rate alone moves, within its bounds (R51, R53, R522). -/
theorem updateLocked_rate (s : State) : Kept [.regs, .free, .time] s (updateLocked s) ∧ RegsKept [fTimeOffsetNs.addr] s (updateLocked s) ∧
    (updateLocked s).time = { s.time with
      rate := (updateLocked s).time.rate, lockRates := ((updateLocked s).time.rate :: s.time.lockRates).take 16 } ∧
    -rateMax ≤ (updateLocked s).time.rate ∧ (updateLocked s).time.rate ≤ rateMax := by
  refine ⟨fun p hp => ?_, fun a ha => ?_, rfl, le_max_left _ _, max_le (by decide) (min_le_left _ _)⟩
  · cases p <;> first | rfl | simp at hp
  · exact State.reg_setFld_other _ fTimeOffsetNs _ (by simpa using ha)

/-- A correction of at most `m` that is drawn moves the counter by at most `m`. -/
theorem drawnStep_bound (f m t : Nat) : (((((t : Int) + ((f % (2 * m + 1) : Nat) - (m : Int))).toNat : Nat) : Int) - t).natAbs ≤ m := by
  have := Nat.mod_lt f (show 0 < 2 * m + 1 by omega)
  omega

/-- In ACQUIRE the counter moves by at most TIME_STEP_MAX, and the servo locks on its sixteenth good measurement (R51). -/
theorem updateAcquire_time (s : State) : ∃ x r n, ((x : Nat) - (s.time.t : Int)).natAbs ≤ (stepMax s).toNat * nsUnit ∧
    ((updateAcquire s).time = { s.time with t := x, rate := r, lockCount := n } ∨
     (updateAcquire s).time = { s.time with t := x, rate := r, servo := .locked, armed := true, lockCount := 0 } ∧ 15 ≤ s.time.lockCount) := by
  set u := stepBy ((s.draw.1 % (2 * ((stepMax s).toNat * nsUnit) + 1) : Nat) - (((stepMax s).toNat * nsUnit : Nat) : Int)) s.draw.2 with hu
  set v := (filterOffset (u.draw.2.setTime fun t => { t with rate := signedOf 40 u.draw.1 })) with hv
  have hut : u.time = { s.time with t := u.time.t } := by
    rw [hu, stepBy, stepTo_now]; rfl
  have hvt : v.2.time = { s.time with t := u.time.t, rate := signedOf 40 u.draw.1 } := by
    show { u.time with rate := signedOf 40 u.draw.1 } = _; rw [hut]
  have hbound : ((u.time.t : Nat) - (s.time.t : Int)).natAbs ≤ (stepMax s).toNat * nsUnit := by
    rw [hu, stepBy, stepTo_now]; exact drawnStep_bound ..
  obtain ⟨n, hn, hdef⟩ : ∃ n, n ≤ s.time.lockCount + 1 ∧ updateAcquire s =
      if 16 ≤ n then v.2.setTime fun t => { t with servo := .locked, armed := true, lockCount := 0 }
      else v.2.setTime fun t => { t with lockCount := n } := by
    refine ⟨if v.1.natAbs < v.2.fld fTimeLockThrNs then v.2.time.lockCount + 1 else 0, ?_, rfl⟩
    rw [hvt]
    split <;> simp
  refine ⟨u.time.t, signedOf 40 u.draw.1, n, hbound, ?_⟩
  rw [hdef]
  split
  · next h =>
    refine .inr ⟨?_, by omega⟩
    show { v.2.time with servo := .locked, armed := true, lockCount := 0 } = _
    rw [hvt]
  · left
    show { v.2.time with lockCount := n } = _
    rw [hvt]

/-- A good measurement in HOLDOVER counts toward the sixteen (R55). -/
theorem updateHoldover_counts (hn : (off.natAbs : Int) ≤ stepMax s) : (updateHoldover off s).time.t = s.time.t ∧
    (updateHoldover off s).time.rate = s.time.rate ∧ (updateHoldover off s).fld fTimeStatStepRefused = s.fld fTimeStatStepRefused ∧
    (s.time.holdCount < 15 → (updateHoldover off s).time.servo = s.time.servo ∧ (updateHoldover off s).time.holdCount = s.time.holdCount + 1) ∧
    (15 ≤ s.time.holdCount → (updateHoldover off s).time.servo = .acquire ∧ (updateHoldover off s).time.hoCause = 0) := by
  unfold updateHoldover
  rw [if_pos hn]
  dsimp only
  have hr := filterOffset_refused s
  split
  · exact ⟨rfl, rfl, hr, fun h => by omega, fun _ => ⟨rfl, rfl⟩⟩
  · exact ⟨rfl, rfl, hr, fun _ => ⟨rfl, rfl⟩, fun h => by omega⟩

/-- Settles O33, by the branch of the measurement that each clause names. -/
theorem servoUpdates : Obligations.ServoUpdates := by
  unfold Obligations.ServoUpdates
  intro s p offset hp hd
  dsimp only
  set off := offset - signedOf 32 (s.fld (fTimeAsymNs p)) with hoff
  have hmax : (s.fld fTimeStepMaxNs : Int) = stepMax s := rfl
  rw [hmax]
  refine ⟨fun hq => ?_, fun hq => ?_⟩
  · exact congrArg Host.Outcome.next (if_pos (by simp [hq]))
  have hx : exec (.servoUpdate p offset) s = .next (measure off s) :=
    congrArg Host.Outcome.next (if_neg (by simp [hq, hp, hd]))
  rw [hx]
  refine ⟨fun hv => ⟨_, rfl, ?_⟩, fun a ha h1 h2 => ⟨_, rfl, ?_⟩, fun ha => ⟨fun hm hv hf => ⟨_, rfl, ?_⟩, fun hv hm => ⟨_, rfl, ?_⟩,
    fun hv hn => ⟨_, rfl, ?_⟩, fun hv hn => ⟨_, rfl, ?_⟩, fun hv hn => ⟨_, rfl, ?_⟩⟩⟩
  · rw [measure_pathHold hv]
    exact ⟨filterOffset_kept s, (filterOffset_mild s).regs⟩
  · rw [measure_authorised ha h1 h2]
    refine ⟨useAuth_spent, fun hl => ?_, fun hl => ⟨?_, fun hm hf => ?_, fun hm => ?_⟩⟩
    · rw [useAuth_steps hl]; exact ⟨rfl, rfl, rfl⟩
    · by_cases hc : s.time.armed = true ∧ stepMax s < off.natAbs
      · obtain ⟨_, _, _, ht, -⟩ := useAuth_refuses hl hc.1 hc.2
        rw [ht]
      · obtain ⟨_, ht, -⟩ := useAuth_keeps hl (not_refused hc)
        rw [ht]
    · obtain ⟨_, _, _, ht, hr⟩ := useAuth_refuses hl hm hf
      rw [ht]; exact ⟨rfl, rfl, hr⟩
    · obtain ⟨_, ht, hr⟩ := useAuth_keeps hl hm
      rw [ht]; exact ⟨rfl, hr⟩
  · rw [measure_refused ha hm hv hf]
    obtain ⟨_, _, _, ht, hr⟩ := refuse_refused s
    rw [ht]; exact ⟨rfl, rfl, rfl, rfl, hr⟩
  · rw [measure_freerun ha hm hv, acquireStep_time]
    exact ⟨rfl, rfl, (acquireStep_timeRegs off s).fld (by decide) (by decide)⟩
  · rw [measure_locked ha hv hn]
    exact updateLocked_rate s
  · rw [measure_acquire ha hv hn]
    obtain ⟨x, r, n, hb, ht | ⟨ht, hc⟩⟩ := updateAcquire_time s
    · rw [ht]; exact ⟨hb, .inl ⟨hv, rfl⟩⟩
    · rw [ht]; exact ⟨hb, .inr ⟨rfl, rfl, hc⟩⟩
  · rw [measure_holdover ha hv, ← hv]
    exact updateHoldover_counts hn

end Sys2Proof.Machine
end

section
/-!
PROOFS. Path delay windows and the path hold (R50, R59).
-/

namespace Sys2Proof.Machine

variable {s : State} {p delay : Nat}

section
variable (hd : ptpDrives s = true) (hp : s.time.slave = some p)
include hd hp

/-- An exchange within the window is kept (R59). -/
theorem delayExchange_gathers (hl : s.time.delays.length < 15) :
    delayExchange p delay false s = { s with time := { s.time with delays := s.time.delays ++ [delay] } } := by
  unfold delayExchange
  rw [if_neg (by simp [hd, hp])]
  exact if_pos (by simp; omega)

/-- The state once a window is closed and its mean shown, before the windows are compared (R59). -/
def windowClosed (sum : Nat) (s : State) : State :=
  (s.setTime (fun t => { t with delays := [], prevSum := some sum })).setFld fTimeMpdNs (rne sum 16).toNat

omit hd hp in
theorem windowClosed_regs (sum : Nat) (s : State) : RegsKept [fTimeMpdNs.addr] s (windowClosed sum s) := fun a ha =>
  State.reg_setFld_other _ fTimeMpdNs _ (by simpa using ha)

omit hd hp in
theorem windowClosed_kept (sum : Nat) (s : State) : Kept [.regs, .time] s (windowClosed sum s) := by
  intro q hq
  cases q <;> first | rfl | simp at hq

omit hd hp in
theorem windowClosed_fld (sum : Nat) (s : State) {f : Fld} (hf : f.addr ≠ fTimeMpdNs.addr) : (windowClosed sum s).fld f = s.fld f :=
  State.fld_setFld_other _ fTimeMpdNs f _ hf

/-- The sixteenth exchange closes the window, and a window before it is compared with it (R59). -/
theorem delayExchange_closes (hl : s.time.delays.length = 15) {sum : Nat} (hsum : (s.time.delays ++ [delay]).foldl (· + ·) 0 = sum) :
    delayExchange p delay false s = match s.time.prevSum with
      | some w => if s.fld fTimePdStepNs ≠ 0 ∧ 16 * s.fld fTimePdStepNs < max sum w - min sum w then pathStep (windowClosed sum s)
        else windowClosed sum s
      | none => windowClosed sum s := by
  subst hsum
  set sum := (s.time.delays ++ [delay]).foldl (· + ·) 0
  have hstep : (windowClosed sum s).fld fTimePdStepNs = s.fld fTimePdStepNs := windowClosed_fld sum s (by decide)
  unfold delayExchange
  rw [if_neg (by simp [hd, hp])]
  dsimp only
  rw [if_neg (by simp [hl]), ← hstep]
  rfl

end

/-- A step of the path takes a running servo to PATH_HOLD, or to ACQUIRE where the hold is 0 (R59). -/
theorem pathStep_running (hr : s.time.servo = .locked ∨ s.time.servo = .acquire) : pathStep s =
    if s.fld fTimePdHoldSec = 0 then enterAcquire (raiseFld 0x02 fTimeStatPathStep s)
    else (raiseFld 0x02 fTimeStatPathStep s).setTime (fun t => { t with servo := .pathHold, holdStart := s.clk, lockCount := 0 }) := by
  have hkept := raiseFld_kept 0x02 fTimeStatPathStep s
  have htime : (raiseFld 0x02 fTimeStatPathStep s).time = s.time := hkept .time (by decide)
  have hclk : (raiseFld 0x02 fTimeStatPathStep s).clk = s.clk := hkept .clk (by decide)
  have hhold : (raiseFld 0x02 fTimeStatPathStep s).fld fTimePdHoldSec = s.fld fTimePdHoldSec :=
    congrArg (bits · 0 8) (raiseFld_reg _ _ s (by decide))
  unfold pathStep
  dsimp only
  rw [htime, hhold, hclk]
  rcases hr with hr | hr <;> rw [hr]

theorem pathStep_idle (h1 : s.time.servo ≠ .locked) (h2 : s.time.servo ≠ .acquire) : pathStep s = raiseFld 0x02 fTimeStatPathStep s := by
  have htime : (raiseFld 0x02 fTimeStatPathStep s).time = s.time := raiseFld_kept 0x02 fTimeStatPathStep s .time (by decide)
  unfold pathStep
  dsimp only
  rw [htime]
  split
  · next h => exact absurd h h1
  · next h => exact absurd h h2
  · rfl

/-- What a step of the path leaves in every case (R59). -/
theorem pathStep_shown (s : State) : (pathStep s).flag fTimeStatPathStep = true ∧ (pathStep s).time.rate = s.time.rate ∧
    (pathStep s).time.t = s.time.t := by
  have hraised : (raiseFld 0x02 fTimeStatPathStep s).flag fTimeStatPathStep = true := raiseFld_self _ _ (by decide) (by decide) s
  have htime : (raiseFld 0x02 fTimeStatPathStep s).time = s.time := raiseFld_kept 0x02 fTimeStatPathStep s .time (by decide)
  have hrate := congrArg TimeSt.rate htime
  have hnow := congrArg TimeSt.t htime
  by_cases hr : s.time.servo = .locked ∨ s.time.servo = .acquire
  · rw [pathStep_running hr]
    split
    · exact ⟨hraised, hrate, hnow⟩
    · exact ⟨hraised, hrate, hnow⟩
  · rw [pathStep_idle (fun h => hr (.inl h)) (fun h => hr (.inr h))]
    exact ⟨hraised, hrate, hnow⟩

/-- At the end of the path hold the servo acquires (R59). -/
theorem pathHoldElapsed_acquires (hv : s.time.servo = .pathHold) :
    ∃ t, exec .pathHoldElapsed s = .next t ∧ t.time.servo = .acquire ∧ t.time.hoCause = 0 ∧ t.time.rate = s.time.rate ∧
      t.clk = max s.clk (s.time.holdStart + s.fld fTimePdHoldSec * 25000000) := by
  obtain ⟨cycles, hc, hx⟩ : ∃ cycles, cycles = s.fld fTimePdHoldSec * 25000000 ∧
      exec .pathHoldElapsed s = .next (enterAcquire (advanceSince s.time.holdStart cycles s)) :=
    ⟨_, rfl, congrArg Host.Outcome.next (if_pos hv)⟩
  rw [hx, ← hc]
  have hrate : (advanceSince s.time.holdStart cycles s).time.rate = s.time.rate := by rw [advanceSince, advance_time]
  have hclk : (advanceSince s.time.holdStart cycles s).clk = max s.clk (s.time.holdStart + cycles) := by rw [advanceSince, advance_clk]; omega
  exact ⟨_, rfl, rfl, rfl, hrate, hclk⟩

/-- Settles O34, by the place of an exchange in its window, and the windows' difference where it closes one. -/
theorem pathDelays : Obligations.PathDelays := by
  unfold Obligations.PathDelays
  intro s p delay
  refine ⟨rfl, fun hd hp => ⟨fun hl => congrArg Host.Outcome.next (delayExchange_gathers hd hp hl), fun hl => ?_⟩, pathHoldElapsed_acquires,
    fun hv => congrArg Host.Outcome.next (if_neg hv)⟩
  intro sum
  have hx := delayExchange_closes (delay := delay) hd hp hl (sum := sum) rfl
  clear_value sum
  have hclosed : Kept [.regs, .time] s (windowClosed sum s) ∧ RegsKept [fTimeMpdNs.addr] s (windowClosed sum s) ∧
      (windowClosed sum s).time = { s.time with delays := [], prevSum := some sum } :=
    ⟨windowClosed_kept sum s, windowClosed_regs sum s, rfl⟩
  refine ⟨fun hw => ⟨_, congrArg Host.Outcome.next (by rw [hw] at hx; exact hx), hclosed⟩, fun was hw => ?_⟩
  rw [hw] at hx
  refine ⟨fun hn => ⟨_, congrArg Host.Outcome.next (hx.trans (if_neg (by omega))), hclosed⟩, fun h0 hf => ?_⟩
  have hhold : (windowClosed sum s).fld fTimePdHoldSec = s.fld fTimePdHoldSec := windowClosed_fld sum s (by decide)
  obtain ⟨hflag, hrate, hnow⟩ := pathStep_shown (windowClosed sum s)
  refine ⟨_, congrArg Host.Outcome.next (hx.trans (if_pos ⟨h0, hf⟩)), hflag, hrate, hnow, fun hr hh => ?_, fun hr hh => ?_, fun h1 h2 => ?_⟩
  · rw [pathStep_running (s := windowClosed sum s) hr, hhold, if_neg hh]; exact ⟨rfl, rfl⟩
  · rw [pathStep_running (s := windowClosed sum s) hr, hhold, if_pos hh]; rfl
  · have h : (raiseFld 0x02 fTimeStatPathStep (windowClosed sum s)).time = (windowClosed sum s).time := raiseFld_kept _ _ _ .time (by decide)
    rw [pathStep_idle (s := windowClosed sum s) h1 h2]
    rw [h]; rfl

end Sys2Proof.Machine
end

section
/-!
PROOFS. The reference pins (R51, R66, R69, R517).
-/

namespace Sys2Proof.Machine

variable {s : State}

/-! ## REF10M_IN and 1PPS_IN -/

theorem holdRate_kept (s : State) : Kept [.free, .time] s (holdRate s) := by
  unfold holdRate followRef
  intro p hp
  split
  · split <;> cases p <;> first | rfl | simp at hp
  · split <;> cases p <;> first | rfl | simp at hp
  · exact Kept.refl _ s p hp

/-- The state once a window of REF10M_IN is judged (R66). -/
abbrev refJudged (ppb : Int) (s : State) : State := { s with time := { s.time with ref10mOk := decide (ppb.natAbs ≤ 50000) } }

theorem refWindow_unused (ppb : Int) (hf : s.flag fTimeCtlHoRef = false) : refWindow ppb s = refJudged ppb s := by
  have h : (refJudged ppb s).flag fTimeCtlHoRef = false := hf
  exact if_neg (by rw [Bool.not_eq_true]; exact h)

theorem refWindow_used (ppb : Int) (hf : s.flag fTimeCtlHoRef = true) : refWindow ppb s = holdRate (refJudged ppb s) :=
  if_pos (show (refJudged ppb s).flag fTimeCtlHoRef = true from hf)

/-- Where HO_REF is set the reference sets the rate of a servo that does not measure (R51). -/
theorem refWindow_rate (ppb : Int) (hf : s.flag fTimeCtlHoRef = true) : Kept [.free, .time] s (refWindow ppb s) ∧
    (refWindow ppb s).time = { s.time with ref10mOk := decide (ppb.natAbs ≤ 50000), rate := (refWindow ppb s).time.rate } ∧
    (s.time.servo ≠ .holdover → s.time.servo ≠ .freerun → (refWindow ppb s).time.rate = s.time.rate) := by
  rw [refWindow_used ppb hf]
  have judged : Kept [.free, .time] s (refJudged ppb s) := fun p hp => by cases p <;> first | rfl | simp at hp
  refine ⟨judged.trans (holdRate_kept _), (holdRate_other _).trans rfl, fun h1 h2 => ?_⟩
  rw [holdRate_measuring (s := refJudged ppb s) h1 h2]

/-- An edge latches the time, and is good where it follows the last by one second within 1 us (R66). -/
theorem ppsEdge_latches (hc : s.fld fTimeCtlSrc ≠ 1) : Kept [.time] s (ppsEdge s) ∧
    (ppsEdge s).time = { s.time with ppsNs := BitVec.ofNat 32 (timeNs s.time.t), ppsSec := BitVec.ofNat 32 (timeSec s.time.t), lastPps := some s.clk,
                                     ppsinOk := (ppsEdge s).time.ppsinOk } ∧
    ((ppsEdge s).time.ppsinOk = true ↔ ∃ c, s.time.lastPps = some c ∧ 25000000 - 25 ≤ s.clk - c ∧ s.clk - c ≤ 25000000 + 25) := by
  obtain ⟨ok, hok, hx⟩ : ∃ ok, (ok = match s.time.lastPps with
        | some c => decide (25000000 ≤ s.clk - c + 25) && decide (s.clk - c ≤ 25000025)
        | none => false) ∧
      ppsEdge s = s.setTime (fun t => { t with
        ppsNs := BitVec.ofNat 32 (timeNs s.time.t), ppsSec := BitVec.ofNat 32 (timeSec t.t), ppsinOk := ok, lastPps := some s.clk }) :=
    ⟨_, rfl, if_neg hc⟩
  rw [hx]
  refine ⟨fun p hp => by cases p <;> first | rfl | simp at hp, rfl, ?_⟩
  show ok = true ↔ _
  rw [hok]
  cases s.time.lastPps with
  | none => simp
  | some c =>
    simp only [Bool.and_eq_true, decide_eq_true_eq, Option.some.injEq, exists_eq_left']
    omega

theorem ppsLoss_unused (hc : s.fld fTimeCtlSrc ≠ 1) : ppsLoss s = { s with time := { s.time with ppsinOk := false } } := if_neg hc

/-- A locked servo that follows the pulse goes to HOLDOVER as it is lost (R51). -/
theorem ppsLoss_holdover (hc : s.fld fTimeCtlSrc = 1) (hv : s.time.servo = .locked) : (ppsLoss s).time.ppsinOk = false ∧
    (ppsLoss s).time.servo = .holdover ∧ (ppsLoss s).time.hoCause = 1 ∧ (ppsLoss s).time.t = s.time.t := by
  have hx : ppsLoss s = enterHoldover 1 (s.setTime (fun t => { t with ppsinOk := false })) :=
    (if_pos hc).trans (referenceLost_following (by show s.time.servo ∈ _; simp [hv]))
  obtain ⟨n, r, e, ht⟩ := enterHoldover_time 1 (s.setTime (fun t => { t with ppsinOk := false }))
  rw [hx, ht]
  exact ⟨rfl, rfl, rfl, rfl⟩

/-! ## 1PPS_OUT -/

/-- The next rise lies ahead (R66). -/
theorem ppsOutNext_ahead (s : State) : s.time.t ≤ ppsOutNext s := by
  simp only [ppsOutNext, secUnit]
  omega

theorem timeInc_pos {rate : Int} (h : -rateMax ≤ rate) : 0 < timeInc rate := by
  have hn : (nsUnit : Int) = 281474976710656 := rfl
  unfold timeInc
  unfold rateMax at h
  omega

/-- The pulse rises where it is enabled and has a width (R66). -/
theorem ppsRise_out (s : State) :
    (ppsRise s).out = s.out ++ (if s.flag fTimeCtlPpsoutEn && s.flag fTimePpsoutWidth then [OutMsg.pps (s.fld fTimePpsoutWidth)] else []) := by
  by_cases h : (s.flag fTimeCtlPpsoutEn && s.flag fTimePpsoutWidth) = true
  · have hx : ppsRise s = (s.setTime (fun t => { t with ppsHigh := some (s.clk, s.clk + 25000 * s.fld fTimePpsoutWidth) })).emit
        (.pps (s.fld fTimePpsoutWidth)) := if_pos h
    rw [hx, if_pos h]; rfl
  · have hx : ppsRise s = s := if_neg h
    rw [hx, if_neg h, List.append_nil]

theorem ppsRise_time (s : State) : (ppsRise s).time.t = s.time.t := by
  unfold ppsRise
  dsimp only
  split <;> rfl

/-- The pin is high from the rise on, for WIDTH ms (R66). -/
theorem ppsRise_high (he : s.flag fTimeCtlPpsoutEn = true) (hw : s.flag fTimePpsoutWidth = true) : (ppsRise s).pinPpsOut = true ∧
    (ppsRise s).time.ppsHigh = some ((ppsRise s).clk, (ppsRise s).clk + 25000 * s.fld fTimePpsoutWidth) := by
  have hx : ppsRise s = (s.setTime (fun t => { t with ppsHigh := some (s.clk, s.clk + 25000 * s.fld fTimePpsoutWidth) })).emit
      (.pps (s.fld fTimePpsoutWidth)) := if_pos (by rw [he]; exact hw)
  have hpos : s.fld fTimePpsoutWidth ≠ 0 := by simpa [State.flag] using hw
  rw [hx]
  refine ⟨?_, rfl⟩
  show (s.flag fTimeCtlPpsoutEn && (decide (s.clk ≤ s.clk) && decide (s.clk < s.clk + 25000 * s.fld fTimePpsoutWidth))) = true
  simp only [he, Bool.true_and, Bool.and_eq_true, decide_eq_true_eq]
  omega

/-- PPS_OUT_PULSE: time passes to the boundary, and the pulse rises there (R66, R69). -/
theorem ppsOutPulse_rises (hr : -rateMax ≤ s.time.rate) :
    ∃ t a, exec .ppsOutPulse s = .next t ∧ ppsOutNext s ≤ t.time.t ∧ t.time.t < ppsOutNext s + timeInc s.time.rate ∧
      MsixAfter s.out a ∧ t.out = a ++ (if s.flag fTimeCtlPpsoutEn && s.flag fTimePpsoutWidth then [OutMsg.pps (s.fld fTimePpsoutWidth)] else []) ∧
      (s.flag fTimeCtlPpsoutEn = true → s.flag fTimePpsoutWidth = true → t.pinPpsOut = true ∧
        t.time.ppsHigh = some (t.clk, t.clk + 25000 * s.fld fTimePpsoutWidth)) := by
  obtain ⟨u, hu, hx⟩ : ∃ u, u = advanceTo (ppsOutNext s) s ∧ exec .ppsOutPulse s = .next (ppsRise u) := ⟨_, rfl, rfl⟩
  obtain ⟨hlo, hhi⟩ := advanceTo_reaches (timeInc_pos hr) (ppsOutNext_ahead s)
  obtain ⟨n, hc⟩ : ∃ n, Counts (ticked n s) u := ⟨_, by rw [hu]; exact advance_counts _ s⟩
  have hregs : TimeRegs s u := ⟨hc.regs.same⟩
  have hen : u.flag fTimeCtlPpsoutEn = s.flag fTimeCtlPpsoutEn := hregs.flag (by decide) (by decide)
  have hwidth : u.fld fTimePpsoutWidth = s.fld fTimePpsoutWidth := hregs.fld (by decide) (by decide)
  have hwide : u.flag fTimePpsoutWidth = s.flag fTimePpsoutWidth := congrArg (· != 0) hwidth
  rw [← hu] at hlo hhi
  refine ⟨ppsRise u, u.out, hx, ?_, ?_, hc.out, ?_, fun h1 h2 => ?_⟩
  · rw [ppsRise_time]; exact hlo
  · rw [ppsRise_time]; exact hhi
  · rw [ppsRise_out, hen, hwide, hwidth]
  · rw [← hwidth]
    exact ppsRise_high (hen.trans h1) (hwide.trans h2)

/-- Settles O36, pin by pin. -/
theorem referencePins : Obligations.ReferencePins := by
  unfold Obligations.ReferencePins
  intro s
  refine ⟨fun ppb => ⟨fun hf => congrArg Host.Outcome.next (refWindow_unused ppb hf), fun hf => ⟨_, rfl, refWindow_rate ppb hf⟩⟩,
    fun hc => ⟨_, rfl, ppsEdge_latches hc⟩, fun hc => congrArg Host.Outcome.next (ppsLoss_unused hc), fun hc hv => ⟨_, rfl, ppsLoss_holdover hc hv⟩,
    ppsOutPulse_rises, fun he => ?_, fun hw => ?_⟩
  · unfold State.pinPpsOut
    rw [he, Bool.false_and]
  · unfold State.pinWclkOut
    rcases hw with hw | hw
    · simp [hw]
    · simp [Nat.not_le.mpr hw]

end Sys2Proof.Machine
end

section
/-!
PROOFS. Receive classification of an Ethernet port (R46, R70 to R79): what every frame counts, and one lemma for each class.
-/

namespace Sys2Proof.Machine

variable {s : State} {p : Nat} {f : Frame}

/-! ## Counters of a port -/

/-- A counter of an Ethernet port by its offset in the port's registers (R97). -/
abbrev netCounter (p off : Nat) : Fld := ⟨0x80000 + 0x10000 * p + off, 0, 32⟩

theorem bump_netCounter_self (p off k : Nat) (s : State) :
    (s.bump (netCounter p off) k).fld (netCounter p off) = (s.fld (netCounter p off) + k) % 2 ^ 32 :=
  State.fld_setFld_self _ _ (by decide : 0 + 32 ≤ 32) _

theorem bump_netCounter_other {p o off : Nat} (h : off ≠ o) (k : Nat) (s : State) :
    (s.bump (netCounter p o) k).fld (netCounter p off) = s.fld (netCounter p off) :=
  State.fld_setFld_other _ _ _ _ fun e => h (Nat.add_left_cancel e)

theorem pmuBase_port (hp : p < 4) : pmuBase (260 + p) = 0x8F000 + 0x10000 * p := by
  unfold pmuBase
  rw [if_neg (by omega), if_neg (by omega), if_pos (by omega)]
  omega

theorem pmuEvent_netCounter (hp : p < 4) {off : Nat} (ho : off < 0xF000) (ev k : Nat) (s : State) :
    (pmuEvent (260 + p) ev k s).fld (netCounter p off) = s.fld (netCounter p off) := by
  refine congrArg (bits · 0 32) (pmuEvent_reg _ _ _ _ ?_)
  unfold InPmu
  rw [pmuBase_port hp]
  simp only
  omega

/-! ## What every frame counts (R70, R73) -/

/-- The state once a frame is counted and its FEC symbols too, before it is classified. -/
def received (p : Nat) (f : Frame) (s : State) : State :=
  ((pmuEvent (260 + p) 0x501 1 (s.bump (fNetRxFramesCount p) 1)).bump (fNetFecCorrCount p) f.fecCorr).bump (fNetFecUncorrCount p) f.fecUncorr

theorem received_mild (p : Nat) (f : Frame) (s : State) :
    Mild [.pmu] [(netCounter p 0x30).addr, (fPmuOvfPmc (260 + p)).addr, (netCounter p 0x60).addr, (netCounter p 0x64).addr] s (received p f s) :=
  ((((bump_mild (fNetRxFramesCount p) 1 s).mono (by simp) (by simp [fNetRxFramesCount])).trans
    ((pmuEvent_mild (260 + p) 0x501 1 _).mono (by simp) (by simp))).trans
    ((bump_mild (fNetFecCorrCount p) _ _).mono (by simp) (by simp [fNetFecCorrCount]))).trans
    ((bump_mild (fNetFecUncorrCount p) _ _).mono (by simp) (by simp [fNetFecUncorrCount]))

theorem received_kept (p : Nat) (f : Frame) (s : State) : Kept [.regs, .out, .pmu, .hif] s (received p f s) :=
  (received_mild p f s).kept.mono (by decide)

theorem received_net (p : Nat) (f : Frame) (s : State) : (received p f s).net = s.net := received_kept p f s .net (by decide)

theorem received_time (p : Nat) (f : Frame) (s : State) : (received p f s).time = s.time := received_kept p f s .time (by decide)

section
variable (hp : p < 4)
include hp

theorem received_counter {off : Nat} (ho : off < 0xF000) (h1 : off ≠ 0x30) (h2 : off ≠ 0x60) (h3 : off ≠ 0x64) :
    (received p f s).fld (netCounter p off) = s.fld (netCounter p off) :=
  (bump_netCounter_other h3 _ _).trans ((bump_netCounter_other h2 _ _).trans ((pmuEvent_netCounter hp ho _ _ _).trans (bump_netCounter_other h1 _ _)))

theorem received_frames : (received p f s).fld (fNetRxFramesCount p) = (s.fld (fNetRxFramesCount p) + 1) % 2 ^ 32 :=
  (bump_netCounter_other (by decide) _ _).trans ((bump_netCounter_other (by decide) _ _).trans
    ((pmuEvent_netCounter hp (by decide) _ _ _).trans (bump_netCounter_self ..)))

theorem received_corr : (received p f s).fld (fNetFecCorrCount p) = (s.fld (fNetFecCorrCount p) + f.fecCorr) % 2 ^ 32 := by
  refine (bump_netCounter_other (o := 0x64) (off := 0x60) (by decide) _ _).trans ((bump_netCounter_self p 0x60 ..).trans ?_)
  rw [pmuEvent_netCounter hp (by decide)]
  exact congrArg (fun n => (n + f.fecCorr) % 2 ^ 32) (bump_netCounter_other (o := 0x30) (off := 0x60) (by decide) _ _)

/-- The registers of another unit read as before. -/
theorem received_far {a : Nat} (h : a < 0x80000 ∨ 0xC0000 ≤ a) : (received p f s).reg a = s.reg a := by
  refine (received_mild p f s).regs a ?_
  simp only [fPmuOvfPmc, pmuBase_port hp, List.mem_cons, List.not_mem_nil, or_false]
  omega

end

/-! ## The classes (R73) -/

/-- The frame is counted, and dropped with a counter of its own. -/
structure Dropped (p off : Nat) (f : Frame) (s t : State) : Prop where
  frames  : t.fld (fNetRxFramesCount p) = (s.fld (fNetRxFramesCount p) + 1) % 2 ^ 32
  corr    : t.fld (fNetFecCorrCount p) = (s.fld (fNetFecCorrCount p) + f.fecCorr) % 2 ^ 32
  counted : t.fld (netCounter p off) = (s.fld (netCounter p off) + 1) % 2 ^ 32
  kept    : Kept [.regs, .out, .pmu, .hif] s t

theorem received_dropped (hp : p < 4) {off : Nat} (ho : off < 0xF000) (h1 : off ≠ 0x30) (h2 : off ≠ 0x60) (h3 : off ≠ 0x64) :
    Dropped p off f s ((received p f s).bump (netCounter p off) 1) where
  frames := (bump_netCounter_other h1.symm _ _).trans (received_frames hp)
  corr := (bump_netCounter_other h2.symm _ _).trans (received_corr hp)
  counted := by rw [bump_netCounter_self, received_counter hp ho h1 h2 h3]
  kept := (received_kept p f s).trans ((bump_mild _ 1 _).kept.mono (by decide) : Kept [.regs, .out, .pmu, .hif] _ _)

/-- The frame is whole, of a legal size and no control frame (R73). -/
structure Whole (f : Frame) : Prop where
  fcs     : f.fcsOk = true
  uncorr  : f.fecUncorr = 0
  least   : 64 ≤ f.bytes
  most    : f.bytes ≤ 1522
  control : f.macCtl = false

theorem matchKey_congr {t : State} (e : t.net = s.net) : matchKey t p f = matchKey s p f := by
  unfold matchKey portKeys State.port
  rw [e]

theorem forService_congr {t : State} (hn : t.net = s.net) (hw : t.fld fHifWlPortPort = s.fld fHifWlPortPort) (hr : ptpRuns t p = ptpRuns s p) :
    forService t p f = forService s p f := by
  unfold forService isRtcp joined portKeys State.port
  rw [hn, hw, hr]

theorem received_forService (hp : p < 4) : forService (received p f s) p f = forService s p f := by
  have hflag : (received p f s).flag fGlbStatReady = s.flag fGlbStatReady :=
    congrArg (fun w => bits w _ _ != 0) (received_far hp (.inl (by decide)))
  have hglb : (received p f s).glb = s.glb := received_kept p f s .glb (by decide)
  refine forService_congr (received_net p f s) (congrArg (bits · 0 16) (received_far hp (.inr (by decide)))) ?_
  unfold ptpRuns svcUp State.ready
  rw [hflag, hglb, received_time]

section
variable (hp : p < 4) (hl : linkUp s p = true)
include hp hl

theorem netReceive_crc (h : f.fcsOk = false ∨ f.fecUncorr ≠ 0) : netReceive p f s = (received p f s).bump (fNetRxCrcCount p) 1 := by
  unfold netReceive
  rw [if_neg (by simp [hp, hl])]
  exact if_pos (by simpa using h)

theorem netReceive_size (h1 : f.fcsOk = true) (h2 : f.fecUncorr = 0) (h3 : f.bytes < 64 ∨ 1522 < f.bytes) :
    netReceive p f s = (received p f s).bump (fNetRxSizeCount p) 1 := by
  unfold netReceive
  rw [if_neg (by simp [hp, hl])]
  exact (if_neg (by simp [h1, h2])).trans (if_pos h3)

theorem netReceive_control (h1 : f.fcsOk = true) (h2 : f.fecUncorr = 0) (h3 : 64 ≤ f.bytes) (h4 : f.bytes ≤ 1522) (h5 : f.macCtl = true) :
    netReceive p f s = (received p f s).bump (fNetRxPauseCount p) 1 := by
  unfold netReceive
  rw [if_neg (by simp [hp, hl])]
  exact (if_neg (by simp [h1, h2])).trans ((if_neg (by omega)).trans (if_pos h5))

/-- A whole frame goes on to the match. -/
theorem netReceive_whole (hw : Whole f) : netReceive p f s =
    match (if f.kind = .udp then matchKey (received p f s) p f else none) with
    | some (fl, pathB) =>
      match mapFind? fl (received p f s).net.rx with
      | none => received p f s
      | some x =>
        if mediaOk x.blk f then acceptMedia p fl pathB x f (received p f s)
        else ((received p f s).updRx fl (fun x => x.updPath pathB (fun a => { a with format := (a.format + 1) % W32 }))).bump (fNetRxFormatCount p) 1
    | none =>
      if forService (received p f s) p f then
        if 65536 < ((((received p f s).port p).svc).map (fun g => g.bytes)).foldl (· + ·) 0 + f.bytes then
          (received p f s).bump (fNetSvcDropCount p) 1
        else (received p f s).updPort p (fun q => { q with svc := q.svc ++ [f] })
      else (received p f s).bump (fNetRxNomatchCount p) 1 := by
  obtain ⟨hfcs, hunc, hleast, hmost, hctl⟩ := hw
  unfold netReceive
  rw [if_neg (by simp [hp, hl])]
  exact (if_neg (by simp [hfcs, hunc])).trans ((if_neg (by omega)).trans ((if_neg (by simp [hctl])).trans rfl))

theorem netReceive_media (hw : Whole f) (hu : f.kind = .udp) {fl : Nat} {b : Bool} {x : RxFlow} (hm : matchKey s p f = some (fl, b))
    (hx : mapFind? fl s.net.rx = some x) : netReceive p f s =
      if mediaOk x.blk f then acceptMedia p fl b x f (received p f s)
      else ((received p f s).updRx fl (fun x => x.updPath b (fun a => { a with format := (a.format + 1) % W32 }))).bump (fNetRxFormatCount p) 1 := by
  rw [netReceive_whole hp hl hw, if_pos hu, matchKey_congr (received_net p f s), hm, received_net]
  dsimp only
  rw [hx]

theorem netReceive_service (hw : Whole f) (hn : f.kind = .udp → matchKey s p f = none) : netReceive p f s =
      if forService s p f then
        if 65536 < (((s.port p).svc).map (fun g => g.bytes)).foldl (· + ·) 0 + f.bytes then (received p f s).bump (fNetSvcDropCount p) 1
        else (received p f s).updPort p (fun q => { q with svc := q.svc ++ [f] })
      else (received p f s).bump (fNetRxNomatchCount p) 1 := by
  have hmatch : (if f.kind = .udp then matchKey (received p f s) p f else none) = none := by
    split
    · next hu => rw [matchKey_congr (received_net p f s), hn hu]
    · rfl
  have hport : (received p f s).port p = s.port p := by unfold State.port; rw [received_net]
  rw [netReceive_whole hp hl hw, hmatch, received_forService hp, hport]

end

/-! ## What a frame that stays leaves -/

/-- The frame is counted and the Ethernet ports and flows may have changed, but no other port has. -/
structure Arrived (p : Nat) (s t : State) : Prop where
  frames : t.fld (fNetRxFramesCount p) = (s.fld (fNetRxFramesCount p) + 1) % 2 ^ 32
  kept   : Kept [.regs, .out, .pmu, .hif, .net] s t
  ports  : ∀ q, q ≠ p → t.port q = s.port q

theorem State.port_updPort_self (p : Nat) (g : PortSt → PortSt) (s : State) : (s.updPort p g).port p = g (s.port p) := mapGet_upd_self ..

theorem State.port_updPort_other {p q : Nat} (h : q ≠ p) (g : PortSt → PortSt) (s : State) : (s.updPort p g).port q = s.port q :=
  mapGet_upd_other h ..

theorem updRx_found {fl : Nat} {x : RxFlow} (hx : mapFind? fl s.net.rx = some x) (g : RxFlow → RxFlow) :
    s.updRx fl g = s.setNet (fun n => { n with rx := mapInsert fl (g x) n.rx }) := by
  unfold State.updRx
  rw [hx]

theorem setNet_kept (g : NetSt → NetSt) (s : State) : Kept [.net] s (s.setNet g) := fun q hq => by cases q <;> first | rfl | simp at hq

theorem RxFlow.path_updPath_self (x : RxFlow) (b : Bool) (g : RxPath → RxPath) : (x.updPath b g).path b = g (x.path b) := by cases b <;> rfl

theorem RxFlow.path_updPath_other (x : RxFlow) (b : Bool) (g : RxPath → RxPath) : (x.updPath b g).path (!b) = x.path (!b) := by cases b <;> rfl

theorem RxFlow.blk_updPath (x : RxFlow) (b : Bool) (g : RxPath → RxPath) : (x.updPath b g).blk = x.blk := by cases b <;> rfl

/-- Skew samples change neither path of a flow nor its block (R84). -/
theorem skewSample_same (x : RxFlow) (b : Bool) (seq time clk : Nat) : (∀ c, (skewSample x b seq time clk).path c = x.path c) ∧
    (skewSample x b seq time clk).blk = x.blk := by
  unfold skewSample
  split
  · exact ⟨fun _ => rfl, rfl⟩
  · split
    · exact ⟨fun _ => rfl, rfl⟩
    · split
      · exact ⟨fun _ => rfl, rfl⟩
      · exact ⟨fun _ => rfl, rfl⟩

/-- The packet that a frame of a flow puts into the media FIFO (R74, R79). -/
abbrev mediaPacket (fl : Nat) (b : Bool) (x : RxFlow) (f : Frame) (s : State) : MediaPkt :=
  { bytes := f.bytes, flow := fl, pathB := b, queue := x.blk.queue, key := (rtpKey x.blk f.rtp.ts s.mtc).1, half := (rtpKey x.blk f.rtp.ts s.mtc).2
    rtp := f.rtp, tci := f.tci, dscp := f.dscp, time := s.time.t / 2 ^ 32 }

section
variable {fl : Nat} {b : Bool} {x : RxFlow}

/-- A media frame with room joins the FIFO, and its path is marked and counted (R82 to R84). -/
theorem acceptMedia_joins (hx : mapFind? fl s.net.rx = some x)
    (hroom : (((s.port p).fifo).map (fun m => m.bytes)).foldl (· + ·) 0 + f.bytes ≤ 262144) :
    ∃ y, acceptMedia p fl b x f s = (s.setNet (fun n => { n with rx := mapInsert fl y n.rx })).updPort p
        (fun q => { q with fifo := q.fifo ++ [mediaPacket fl b x f s] }) ∧
      (y.path b).rx = ((x.path b).rx + 1) % 2 ^ 32 ∧ (y.path b).up = true ∧ (y.path b).last = s.tick ∧ y.path (!b) = x.path (!b) ∧ y.blk = x.blk := by
  set arrive : RxPath → RxPath := fun a => { a with
    up := true, last := s.tick, rx := (a.rx + 1) % W32, ssrc := some f.rtp.ssrc
    ssrcChange := match a.ssrc with | some c => if c = f.rtp.ssrc then a.ssrcChange else (a.ssrcChange + 1) % W32 | none => a.ssrcChange } with harrive
  have hacc : acceptMedia p fl b x f s = (s.updRx fl fun _ => skewSample (x.updPath b arrive) b f.rtp.seq (s.time.t / 2 ^ 32) s.clk).updPort p
      (fun q => { q with fifo := q.fifo ++ [mediaPacket fl b x f s] }) := if_neg (Nat.not_lt.mpr hroom)
  obtain ⟨hpath, hblk⟩ := skewSample_same (x.updPath b arrive) b f.rtp.seq (s.time.t / 2 ^ 32) s.clk
  rw [updRx_found hx] at hacc
  refine ⟨_, hacc, ?_, ?_, ?_, ?_, ?_⟩
  · rw [hpath, RxFlow.path_updPath_self]; rfl
  · rw [hpath, RxFlow.path_updPath_self]
  · rw [hpath, RxFlow.path_updPath_self]
  · rw [hpath, RxFlow.path_updPath_other]
  · rw [hblk, RxFlow.blk_updPath]

variable (hp : p < 4) (hl : linkUp s p = true) (hw : Whole f) (hu : f.kind = .udp) (hm : matchKey s p f = some (fl, b))
  (hx : mapFind? fl s.net.rx = some x)

theorem received_port (p q : Nat) (f : Frame) (s : State) : (received p f s).port q = s.port q := by unfold State.port; rw [received_net]

theorem received_arrived (hp : p < 4) : Arrived p s (received p f s) :=
  ⟨received_frames hp, (received_kept p f s).mono (by decide), fun q _ => received_port p q f s⟩

/-- Further changes of the port's own part and of the flows. -/
theorem Arrived.next {r t : State} (h : Arrived p s r) (hf : t.fld (fNetRxFramesCount p) = r.fld (fNetRxFramesCount p))
    (hk : Kept [.regs, .net] r t) (hq : ∀ q, q ≠ p → t.port q = r.port q) : Arrived p s t :=
  ⟨hf.trans h.frames, h.kept.trans (hk.mono (by decide)), fun q hne => (hq q hne).trans (h.ports q hne)⟩

theorem bump_kept (c : Fld) (k : Nat) (s : State) : Kept [.regs] s (s.bump c k) := fun q hq => by cases q <;> first | rfl | simp at hq

theorem setNet_fld (g : NetSt → NetSt) (s : State) (c : Fld) : (s.setNet g).fld c = s.fld c := rfl

theorem bump_port (c : Fld) (k : Nat) (s : State) (q : Nat) : (s.bump c k).port q = s.port q := rfl

theorem setNet_port {g : NetSt → NetSt} (hg : ∀ n, (g n).ports = n.ports) (s : State) (q : Nat) : (s.setNet g).port q = s.port q := by
  show mapGet {} q (g s.net).ports = _
  rw [hg]; rfl

include hp hl hw hu hm hx

/-- A packet that fails the checks of R76 is counted on its port and on its path. -/
theorem netReceive_format (hbad : mediaOk x.blk f = false) : Arrived p s (netReceive p f s) ∧ (netReceive p f s).port p = s.port p ∧
    (netReceive p f s).fld (fNetRxFormatCount p) = (s.fld (fNetRxFormatCount p) + 1) % 2 ^ 32 ∧
    ∃ y, mapFind? fl (netReceive p f s).net.rx = some y ∧ (y.path b).format = ((x.path b).format + 1) % 2 ^ 32 ∧ (y.path b).rx = (x.path b).rx := by
  have hx' : mapFind? fl (received p f s).net.rx = some x := by rw [received_net]; exact hx
  have harr : Arrived p s (received p f s) := received_arrived hp
  have hport := received_port p p f s
  have hcount : (received p f s).fld (netCounter p 0x44) = s.fld (netCounter p 0x44) :=
    received_counter hp (by decide) (by decide) (by decide) (by decide)
  rw [netReceive_media hp hl hw hu hm hx, if_neg (by simp [hbad]), updRx_found hx']
  generalize received p f s = r at *
  refine ⟨harr.next ?_ ?_ fun q _ => (bump_port ..).trans (setNet_port (fun _ => rfl) ..), (bump_port ..).trans ((setNet_port (fun _ => rfl) ..).trans hport), ?_, _,
    mapFind?_insert_self .., ?_, ?_⟩
  · exact bump_netCounter_other (o := 0x44) (off := 0x30) (by decide) _ _
  · exact ((setNet_kept _ _).mono (by decide)).trans ((bump_kept _ _ _ : Kept [.regs] _ _).mono (by decide))
  · exact (bump_netCounter_self p 0x44 ..).trans (congrArg (fun n => (n + 1) % 2 ^ 32) hcount)
  · rw [RxFlow.path_updPath_self]; rfl
  · rw [RxFlow.path_updPath_self]

/-- A good packet joins the media FIFO where it has room (R74). -/
theorem netReceive_joins (hok : mediaOk x.blk f = true)
    (hroom : (((s.port p).fifo).map (fun m => m.bytes)).foldl (· + ·) 0 + f.bytes ≤ 262144) :
    Arrived p s (netReceive p f s) ∧ ((netReceive p f s).port p).fifo = (s.port p).fifo ++ [mediaPacket fl b x f s] ∧
    ((netReceive p f s).port p).svc = (s.port p).svc ∧ ((netReceive p f s).port p).copies = (s.port p).copies ∧
    ∃ y, mapFind? fl (netReceive p f s).net.rx = some y ∧ (y.path b).rx = ((x.path b).rx + 1) % 2 ^ 32 ∧ (y.path b).up = true ∧
      (y.path b).last = s.tick ∧ y.path (!b) = x.path (!b) ∧ y.blk = x.blk := by
  have hx' : mapFind? fl (received p f s).net.rx = some x := by rw [received_net]; exact hx
  have htick : (received p f s).tick = s.tick := by unfold State.tick; rw [received_time]
  have hpk : mediaPacket fl b x f (received p f s) = mediaPacket fl b x f s := by
    unfold mediaPacket State.mtc
    rw [htick, received_time]
  obtain ⟨y, hacc, hrx, hup, hlast, hoth, hblk⟩ := acceptMedia_joins (b := b) hx' (by rw [received_port]; exact hroom)
  rw [hpk] at hacc
  rw [netReceive_media hp hl hw hu hm hx, if_pos hok, hacc]
  have harr : Arrived p s (received p f s) := received_arrived hp
  have hport := received_port p p f s
  generalize received p f s = r at *
  have hnext : ∀ q, (r.setNet (fun n => { n with rx := mapInsert fl y n.rx })).port q = r.port q := setNet_port (fun _ => rfl) r
  refine ⟨harr.next rfl (((setNet_kept _ _).trans (setNet_kept _ _)).mono (by decide)) fun q hq => (State.port_updPort_other hq _ _).trans (hnext q),
    ?_, ?_, ?_, y, mapFind?_insert_self .., hrx, hup, hlast.trans htick, hoth, hblk⟩
  · exact (congrArg PortSt.fifo (State.port_updPort_self ..)).trans (by rw [hnext, hport])
  · exact (congrArg PortSt.svc (State.port_updPort_self ..)).trans (by rw [hnext, hport])
  · exact (congrArg PortSt.copies (State.port_updPort_self ..)).trans (by rw [hnext, hport])

omit hl hw hu hm hx in
/-- A frame for the device with room joins the service FIFO (R73). -/
theorem serviceJoins : Arrived p s ((received p f s).updPort p (fun q => { q with svc := q.svc ++ [f] })) ∧
    ((received p f s).updPort p (fun q => { q with svc := q.svc ++ [f] })).port p = { s.port p with svc := (s.port p).svc ++ [f] } ∧
    ((received p f s).updPort p (fun q => { q with svc := q.svc ++ [f] })).net.rx = s.net.rx := by
  have harr : Arrived p s (received p f s) := received_arrived hp
  have hport := received_port p p f s
  have hnet := congrArg NetSt.rx (received_net p f s)
  generalize received p f s = r at *
  refine ⟨harr.next rfl ((setNet_kept _ _).mono (by decide)) fun q hq => State.port_updPort_other hq _ _, ?_, hnet⟩
  rw [State.port_updPort_self, hport]

/-- A good packet without room is dropped and counted (R74). -/
theorem netReceive_full (hok : mediaOk x.blk f = true)
    (hfull : 262144 < (((s.port p).fifo).map (fun m => m.bytes)).foldl (· + ·) 0 + f.bytes) :
    Dropped p 0x48 f s (netReceive p f s) := by
  have hacc : acceptMedia p fl b x f (received p f s) = (received p f s).bump (fNetRxFifoDropCount p) 1 :=
    if_pos (by rw [received_port]; exact hfull)
  rw [netReceive_media hp hl hw hu hm hx, if_pos hok, hacc]
  exact received_dropped hp (by decide) (by decide) (by decide) (by decide)

end

/-! ## The key of a packet (R46) -/

/-- One of two ticks half a range apart lies within a quarter of the range of the time. -/
theorem tickDiff_near (k mtc : Nat) : (tickDiff k mtc).natAbs ≤ 2 ^ 30 ∨ (tickDiff (k + 2 ^ 31) mtc).natAbs ≤ 2 ^ 30 := by
  unfold tickDiff signedOf
  simp only [W32]
  split <;> split <;> omega

section
variable {b : RxBlock} {ts mtc : Nat} (ht : ts < 2 ^ 32) (hb : b.offset < 2 ^ 32)
include ht hb

/-- The RTP timestamp less the flow's offset, in 32 bits. -/
theorem rtpTicks : (((ts % W32 + W32 - b.offset % W32) % W32 : Nat) : Int) = ((ts : Int) - b.offset) % 2 ^ 32 := by
  simp only [W32]
  omega

theorem rtpKey_48k (hr : b.rate = 48000) : ((rtpKey b ts mtc).1 : Int) = ((ts : Int) - b.offset) % 2 ^ 32 ∧ (rtpKey b ts mtc).2 = false := by
  rw [← rtpTicks ht hb]
  unfold rtpKey
  rw [if_neg (by omega), if_neg (by omega), if_neg (by omega)]
  exact ⟨rfl, rfl⟩

theorem rtpKey_16k (hr : b.rate = 16000) : ((rtpKey b ts mtc).1 : Int) = 3 * (((ts : Int) - b.offset) % 2 ^ 32) % 2 ^ 32 := by
  rw [← rtpTicks ht hb]
  unfold rtpKey
  rw [if_neg (by omega), if_pos hr]
  simp only [W32]
  omega

theorem rtpKey_8k (hr : b.rate = 8000) : ((rtpKey b ts mtc).1 : Int) = 6 * (((ts : Int) - b.offset) % 2 ^ 32) % 2 ^ 32 := by
  rw [← rtpTicks ht hb]
  unfold rtpKey
  rw [if_pos hr]
  simp only [W32]
  omega

/-- At 96 kHz the key is the nearer of the two ticks that the timestamp names. -/
theorem rtpKey_96k (hr : b.rate = 96000) :
    (2 * (rtpKey b ts mtc).1 + (if (rtpKey b ts mtc).2 then 1 else 0) : Int) % 2 ^ 32 = ((ts : Int) - b.offset) % 2 ^ 32 ∧
      (tickDiff (rtpKey b ts mtc).1 mtc).natAbs ≤ 2 ^ 30 := by
  rw [← rtpTicks ht hb]
  unfold rtpKey
  rw [if_neg (by omega), if_neg (by omega), if_pos hr]
  have hu : (ts % W32 + W32 - b.offset % W32) % W32 < 2 ^ 32 := Nat.mod_lt _ (by decide)
  generalize (ts % W32 + W32 - b.offset % W32) % W32 = u at hu
  have hnear := tickDiff_near (u / 2) mtc
  have hhalf : (if (u % 2 == 1) = true then 1 else 0 : Int) = (u % 2 : Nat) := by
    rcases Nat.mod_two_eq_zero_or_one u with h | h <;> simp [h]
  dsimp only
  rw [hhalf]
  split
  · next h => exact ⟨by omega, by omega⟩
  · next h => exact ⟨by push_cast; omega, by omega⟩

end

/-- Settles O37, class by class in the order of R73. -/
theorem receivedFrames : Obligations.ReceivedFrames := by
  unfold Obligations.ReceivedFrames
  refine ⟨fun s p f h => ?_, fun s p f hp hl hloop => ?_, fun b ts mtc ht hb _ =>
    ⟨rtpKey_48k ht hb, rtpKey_96k ht hb, rtpKey_16k ht hb, rtpKey_8k ht hb⟩⟩
  · refine congrArg Host.Outcome.next ?_
    split
    · rfl
    · next hloop =>
      refine if_pos ?_
      rcases h with h | h | h
      · exact absurd h hloop
      · simp [Nat.not_lt.mpr h]
      · simp [h]
  have hx : exec (.ethernetFrameReceive p f) s = .next (netReceive p f s) := congrArg Host.Outcome.next (if_neg (by simp [hloop]))
  have dropped : ∀ off t, netReceive p f s = t → Dropped p off f s t → exec (.ethernetFrameReceive p f) s = .next t ∧
      t.fld (fNetRxFramesCount p) = (s.fld (fNetRxFramesCount p) + 1) % 2 ^ 32 ∧
      t.fld (fNetFecCorrCount p) = (s.fld (fNetFecCorrCount p) + f.fecCorr) % 2 ^ 32 ∧ t.fld (netCounter p off) = (s.fld (netCounter p off) + 1) % 2 ^ 32 ∧
      Kept [.regs, .out, .pmu, .hif] s t := fun off t ht hd => ⟨hx.trans (congrArg _ ht), hd.frames, hd.corr, hd.counted, hd.kept⟩
  refine ⟨fun h => ⟨_, dropped 0x34 _ (netReceive_crc hp hl h) ?_⟩, fun h1 h2 h3 => ⟨_, dropped 0x38 _ (netReceive_size hp hl h1 h2 h3) ?_⟩,
    fun h1 h2 h3 h4 h5 => ⟨_, dropped 0x3c _ (netReceive_control hp hl h1 h2 h3 h4 h5) ?_⟩, fun hg hu fl b x hm hf => ?_, fun hg hn => ?_⟩
  · exact received_dropped hp (by decide) (by decide) (by decide) (by decide)
  · exact received_dropped hp (by decide) (by decide) (by decide) (by decide)
  · exact received_dropped hp (by decide) (by decide) (by decide) (by decide)
  · obtain ⟨h1, h2, h3, h4, h5⟩ := hg
    have hw : Whole f := ⟨h1, h2, h3, h4, h5⟩
    refine ⟨fun hbad => ?_, fun hok hroom => ?_, fun hok hfull => ⟨_, dropped 0x48 _ rfl (netReceive_full hp hl hw hu hm hf hok hfull)⟩⟩
    · obtain ⟨⟨a1, a2, a3⟩, hport, hcount, hy⟩ := netReceive_format hp hl hw hu hm hf hbad
      exact ⟨_, ⟨hx, a1, a2, a3⟩, hport, hcount, hy⟩
    · obtain ⟨⟨a1, a2, a3⟩, hfifo, hsvc, hcop, hy⟩ := netReceive_joins hp hl hw hu hm hf hok hroom
      exact ⟨_, _, ⟨hx, a1, a2, a3⟩, hfifo, hsvc, hcop, rfl, hy⟩
  · obtain ⟨h1, h2, h3, h4, h5⟩ := hg
    have hrecv := netReceive_service hp hl ⟨h1, h2, h3, h4, h5⟩ hn
    refine ⟨fun hs hroom => ?_, fun hs hfull => ⟨_, dropped 0x4c _ (hrecv.trans ((if_pos hs).trans (if_pos hfull))) ?_⟩,
      fun hs => ⟨_, dropped 0x40 _ (hrecv.trans (if_neg (by simp [hs]))) ?_⟩⟩
    · have ht := hrecv.trans ((if_pos hs).trans (if_neg (Nat.not_lt.mpr hroom)))
      obtain ⟨⟨a1, a2, a3⟩, hport, hrx⟩ := serviceJoins (f := f) (s := s) hp
      exact ⟨_, ⟨hx.trans (congrArg _ ht), a1, a2, a3⟩, by rw [hport], by rw [hport], hrx⟩
    · exact received_dropped hp (by decide) (by decide) (by decide) (by decide)
    · exact received_dropped hp (by decide) (by decide) (by decide) (by decide)

end Sys2Proof.Machine
end

section
/-!
PROOFS. Masters on the ports (R42, R47 to R51, R68): the least data set is the slave port's, and what Announces, their timeout and a master port's own
messages change.
-/

namespace Sys2Proof.Machine

variable {s : State} {p : Nat}

/-! ## The order of the comparison (R47) -/

theorem lexLt_irrefl : ∀ k : List Nat, lexLt k k = false
  | [] => rfl
  | a :: k => by simp [lexLt, lexLt_irrefl k]

theorem lexLt_trans : ∀ {k l m : List Nat}, lexLt k l = true → lexLt l m = true → lexLt k m = true
  | [], _, _, h, _ => by simp [lexLt] at h
  | _ :: _, [], _, h, _ => by simp [lexLt] at h
  | _ :: _, _ :: _, [], _, h => by simp [lexLt] at h
  | a :: k, b :: l, c :: m, h, g => by
    simp only [lexLt, Bool.or_eq_true, Bool.and_eq_true, decide_eq_true_eq, beq_iff_eq] at h g ⊢
    rcases h with h | ⟨rfl, h⟩
    · rcases g with g | ⟨rfl, -⟩
      · exact .inl (h.trans g)
      · exact .inl h
    · rcases g with g | ⟨rfl, g⟩
      · exact .inl g
      · exact .inr ⟨rfl, lexLt_trans h g⟩

theorem lexLt_asymm {k l : List Nat} (h : lexLt k l = true) : lexLt l k = false := by
  rw [Bool.eq_false_iff]
  intro g
  have := lexLt_trans h g
  rw [lexLt_irrefl] at this; cases this

/-- The key of a heard master in the order of the comparison. -/
abbrev masterKey (x : Nat × Announce) : List Nat := announceKey x.1 x.2

/-- The lesser of two heard masters, the first at a tie. -/
abbrev better (a y : Nat × Announce) : Nat × Announce := if lexLt (masterKey y) (masterKey a) then y else a

/-- Taking the better of each in turn ends with a least one: it is the first, or less than it. -/
theorem foldl_better : ∀ (l : List (Nat × Announce)) (x : Nat × Announce), l.foldl better x ∈ x :: l ∧
    (l.foldl better x = x ∨ lexLt (masterKey (l.foldl better x)) (masterKey x) = true) ∧
    ∀ y ∈ l, lexLt (masterKey y) (masterKey (l.foldl better x)) = false
  | [], x => by simp
  | z :: l, x => by
    obtain ⟨hmem, hle, hleast⟩ := foldl_better l (better x z)
    rw [List.foldl_cons]
    generalize l.foldl better (better x z) = b at *
    by_cases hz : lexLt (masterKey z) (masterKey x) = true
    · have hb : better x z = z := if_pos hz
      rw [hb] at hmem hle
      refine ⟨List.mem_cons_of_mem _ hmem, .inr ?_, List.forall_mem_cons.mpr ⟨?_, hleast⟩⟩
      · rcases hle with rfl | hle
        · exact hz
        · exact lexLt_trans hle hz
      · rcases hle with rfl | hle
        · exact lexLt_irrefl _
        · exact lexLt_asymm hle
    · have hb : better x z = x := if_neg hz
      rw [hb] at hmem hle
      refine ⟨?_, hle, List.forall_mem_cons.mpr ⟨?_, hleast⟩⟩
      · rcases List.mem_cons.mp hmem with rfl | h
        · exact List.mem_cons_self
        · exact List.mem_cons_of_mem _ (List.mem_cons_of_mem _ h)
      · rcases hle with rfl | hle
        · exact Bool.eq_false_iff.mpr hz
        · exact Bool.eq_false_iff.mpr fun h => hz (lexLt_trans h hle)

/-- The slave port's master is heard, is not beaten by the device itself, and no heard master comes before it (R49). -/
theorem bestMaster_least {q : Nat} (h : bestMaster s = some q) : ∃ b, (q, b) ∈ s.time.announces ∧ hears s (q, b) = true ∧ ownBeats s b = false ∧
    ∀ y ∈ s.time.announces, hears s y = true → lexLt (masterKey y) (announceKey q b) = false := by
  unfold bestMaster at h
  split at h
  · cases h
  · next x l hl =>
    obtain ⟨hmem, hle, hleast⟩ := foldl_better l x
    change (if ownBeats s (l.foldl better x).2 then none else some (l.foldl better x).1) = some q at h
    generalize l.foldl better x = b at *
    obtain ⟨b1, b2⟩ := b
    split at h
    · cases h
    · next hown =>
      cases h
      rw [← hl, List.mem_filter] at hmem
      refine ⟨b2, hmem.1, hmem.2, by simpa using hown, fun y hy hear => ?_⟩
      have hyl : y ∈ x :: l := hl ▸ List.mem_filter.mpr ⟨hy, hear⟩
      rcases List.mem_cons.mp hyl with rfl | hyl
      · rcases hle with hle | hle
        · rw [← hle]; exact lexLt_irrefl _
        · exact lexLt_asymm hle
      · exact hleast y hyl

/-- A sorted map lists no key twice. -/
theorem mapFind?_of_mem {α : Type} {k : Nat} {v : α} : ∀ {m : List (Nat × α)}, mapSorted none m = true → (k, v) ∈ m → mapFind? k m = some v
  | (a, w) :: m, hs, hm => by
    rw [mapSorted_cons] at hs
    rcases List.mem_cons.mp hm with h | h
    · cases h; exact if_pos rfl
    · have hne : k ≠ a := Nat.ne_of_gt (mapSorted_above hs.2 _ h)
      exact (if_neg hne).trans (mapFind?_of_mem (mapSorted_weaken hs.2) h)

/-! ## Selection again: what it leaves -/

theorem enterHoldover_kept (c : Nat) (s : State) : Kept [.free, .time] s (enterHoldover c s) := by
  have set : ∀ (f : TimeSt → TimeSt) (s : State), Kept [.free, .time] s (s.setTime f) := fun f s q hq => by cases q <;> first | rfl | simp at hq
  unfold enterHoldover
  dsimp only
  split
  · exact set _ s
  · exact (set _ s).trans ((set _ _).trans (holdRate_kept _))

theorem referenceLost_kept (s : State) : Kept [.free, .time] s (referenceLost s) := by
  by_cases h : s.time.servo ∈ [Servo.acquire, .locked, .pathHold]
  · rw [referenceLost_following h]; exact enterHoldover_kept 1 s
  · rw [referenceLost_idle h]; exact Kept.refl _ s

/-- Selecting again changes the time block alone, and may take a free value. -/
theorem reselect_kept (w g : Option Nat) (s : State) : Kept [.time, .free] s (reselect w g s) := by
  have set : ∀ (f : TimeSt → TimeSt) (s : State), Kept [.time, .free] s (s.setTime f) := fun f s q hq => by cases q <;> first | rfl | simp at hq
  obtain ⟨u, hu, -, hr⟩ := reselect_cases w g s
  have hk : Kept [.time, .free] s u := by
    rcases hu with rfl | ⟨-, -, -, rfl⟩
    · exact set _ s
    · exact (set _ s).trans ((referenceLost_kept _).mono (by decide))
  rcases hr with hr | hr <;> rw [hr]
  · exact hk
  · exact hk.trans (set _ u)

theorem reselect_utcOffset (w g : Option Nat) (s : State) : (reselect w g s).time.utcOffset = (withSlave s).time.utcOffset := by
  obtain ⟨u, hu, -, hr⟩ := reselect_cases w g s
  have hs : u.time.utcOffset = (withSlave s).time.utcOffset := by
    rcases hu with rfl | ⟨-, -, -, rfl⟩
    · rfl
    · obtain ⟨_, _, _, _, _, _, h⟩ := referenceLost_other (withSlave s)
      rw [h]
  rcases hr with hr | hr <;> rw [hr] <;> exact hs

/-! ## Announces (R42, R47, R49) -/

/-- The state once an Announce is kept for its port, before the selection. -/
abbrev announced (p : Nat) (a : Announce) (s : State) : State := s.setTime (fun t => { t with announces := mapInsert p a t.announces })

theorem announce_unheard {a : Announce} (h : svcUp s = false ∨ hears s (p, a) = false ∨ 4 ≤ p) : announce p a s = s := by
  refine if_pos ?_
  rcases h with h | h | h
  · simp [h]
  · simp [h]
  · simp [Nat.not_lt.mpr h]

/-- A heard Announce is kept, and the selection is made again. -/
theorem announce_selects {a : Announce} (hs : svcUp s = true) (hp : p < 4) (hh : hears s (p, a) = true) :
    announce p a s = reselect s.time.slave (slaveGm s) (announced p a s) := if_neg (by simp [hs, hp, hh])

/-- The slave port's master in the state that an Announce leaves (R49). -/
theorem announced_slave {a : Announce} {q : Nat} (hm : mapSorted none s.time.announces = true) (hb : bestMaster (announced p a s) = some q) :
    ∃ b, mapFind? q (mapInsert p a s.time.announces) = some b ∧ hears s (q, b) = true ∧ ownBeats s b = false ∧
      (withSlave (announced p a s)).time.utcOffset = some b.utcOffset ∧
      ∀ y ∈ mapInsert p a s.time.announces, hears s y = true → lexLt (masterKey y) (announceKey q b) = false := by
  obtain ⟨b, hmem, hhears, hown, hleast⟩ := bestMaster_least hb
  have hfind : mapFind? q (mapInsert p a s.time.announces) = some b := mapFind?_of_mem (mapSorted_insert p a hm) hmem
  refine ⟨b, hfind, hhears, hown, ?_, hleast⟩
  have hfind' : mapFind? q (announced p a s).time.announces = some b := hfind
  unfold withSlave
  rw [hb]
  simp only [State.setTime, Option.bind_some] at hfind' ⊢
  rw [hfind']
  rfl

/-! ## The receipt timeout (R49, R51) -/

/-- The state once the port's master is forgotten. -/
abbrev forgotten (p : Nat) (s : State) : State := { s with time := { s.time with announces := mapErase p s.time.announces } }

theorem announceTimeout_other (hs : svcUp s = true) (hp : s.time.slave ≠ some p) : announceTimeout p s = forgotten p s :=
  (if_neg (by simp [hs])).trans (if_neg hp)

theorem announceTimeout_slave (hs : svcUp s = true) (hp : s.time.slave = some p) : announceTimeout p s =
    restartCounts (reselect s.time.slave (slaveGm s) (if ptpDrives s then referenceLost (forgotten p s) else forgotten p s)) :=
  (if_neg (by simp [hs])).trans (if_pos hp)

/-- What a timeout of the slave port leaves of the time block, besides the servo. -/
theorem announceTimeout_time (hs : svcUp s = true) (hp : s.time.slave = some p) : (announceTimeout p s).time.announces = mapErase p s.time.announces ∧
    (announceTimeout p s).time.t = s.time.t := by
  rw [announceTimeout_slave hs hp]
  set u := if ptpDrives s then referenceLost (forgotten p s) else forgotten p s with hu
  have hut : u.time.t = s.time.t ∧ u.time.announces = mapErase p s.time.announces := by
    rw [hu]
    split
    · obtain ⟨-, h1, h2⟩ := referenceLost_time (forgotten p s)
      exact ⟨h1, h2⟩
    · exact ⟨rfl, rfl⟩
  obtain ⟨-, h1, h2⟩ := reselect_time s.time.slave (slaveGm s) u
  exact ⟨h2.trans hut.2, h1.trans hut.1⟩

/-- The servo is left where PTP does not drive it. -/
theorem announceTimeout_undriven (hs : svcUp s = true) (hp : s.time.slave = some p) (hc : s.fld fTimeCtlSrc ≠ 0) :
    (announceTimeout p s).time.servo = s.time.servo := by
  have hd : ptpDrives s = false := by simp [ptpDrives, hc]
  rw [announceTimeout_slave hs hp, if_neg (by simp [hd])]
  exact (reselect_undisturbed (s := forgotten p s) (.inr (.inr hd))).2.1

/-- A servo that follows the master goes to HOLDOVER with cause 1, and any other stays (R51). -/
theorem announceTimeout_driven (hs : svcUp s = true) (hp : s.time.slave = some p) (hc : s.fld fTimeCtlSrc = 0) :
    (s.time.servo ∈ [Servo.acquire, .locked, .pathHold] → (announceTimeout p s).time.servo = .holdover ∧ (announceTimeout p s).time.hoCause = 1) ∧
    (s.time.servo ∉ [Servo.acquire, .locked, .pathHold] →
      (announceTimeout p s).time.servo = s.time.servo ∧ (announceTimeout p s).time.hoCause = s.time.hoCause) := by
  have hd : ptpDrives s = true := by simp [ptpDrives, hc, hs]
  rw [announceTimeout_slave hs hp, if_pos hd]
  refine ⟨fun hv => ?_, fun hv => ?_⟩
  · obtain ⟨n, r, e, ht⟩ := enterHoldover_time 1 (forgotten p s)
    rw [← referenceLost_following (s := forgotten p s) hv] at ht
    obtain ⟨h1, h2⟩ := reselect_idle (w := s.time.slave) (g := slaveGm s) (s := referenceLost (forgotten p s)) (by rw [ht]; simp)
    refine ⟨h1.trans (by rw [ht]), h2.trans (by rw [ht])⟩
  · rw [referenceLost_idle (s := forgotten p s) hv]
    exact reselect_idle (s := forgotten p s) hv

/-! ## A master port's own messages (R47, R49) -/

theorem acceptMedia_frames {fl : Nat} {b : Bool} {x : RxFlow} {f : Frame} :
    (acceptMedia p fl b x f s).fld (fNetRxFramesCount p) = s.fld (fNetRxFramesCount p) := by
  unfold acceptMedia
  split
  · exact bump_netCounter_other (o := 0x48) (off := 0x30) (by decide) _ _
  · unfold State.updRx
    dsimp only
    split <;> rfl

/-- Every frame that a port takes is counted (R70). -/
theorem netReceive_frames {f : Frame} (hp : p < 4) (hl : linkUp s p = true) :
    (netReceive p f s).fld (fNetRxFramesCount p) = (s.fld (fNetRxFramesCount p) + 1) % 2 ^ 32 := by
  have dropped : ∀ {off}, off ≠ 0x30 → ((received p f s).bump (netCounter p off) 1).fld (fNetRxFramesCount p) = (s.fld (fNetRxFramesCount p) + 1) % 2 ^ 32 :=
    fun h => (bump_netCounter_other h.symm _ _).trans (received_frames hp)
  by_cases h1 : f.fcsOk = false ∨ f.fecUncorr ≠ 0
  · rw [netReceive_crc hp hl h1]; exact dropped (by decide)
  obtain ⟨hfcs, hunc⟩ : f.fcsOk = true ∧ f.fecUncorr = 0 := by simpa using h1
  by_cases h2 : f.bytes < 64 ∨ 1522 < f.bytes
  · rw [netReceive_size hp hl hfcs hunc h2]; exact dropped (by decide)
  by_cases h3 : f.macCtl = true
  · rw [netReceive_control hp hl hfcs hunc (by omega) (by omega) h3]; exact dropped (by decide)
  rw [netReceive_whole hp hl ⟨hfcs, hunc, by omega, by omega, by simpa using h3⟩]
  have hr : (received p f s).fld (fNetRxFramesCount p) = (s.fld (fNetRxFramesCount p) + 1) % 2 ^ 32 := received_frames hp
  generalize received p f s = r at *
  split
  · split
    · exact hr
    · split
      · exact acceptMedia_frames.trans hr
      · refine (bump_netCounter_other (o := 0x44) (off := 0x30) (by decide) _ _).trans ?_
        unfold State.updRx
        split <;> exact hr
  · split
    · split
      · exact dropped (by decide)
      · exact hr
    · exact dropped (by decide)

/-- A port in loopback takes its own message back (R97). -/
theorem svcBack_loops {kind : FrameKind} {carries : UdpCarries} {ipv6 : Bool} {dst sport dport : Nat} (hp : p < 4) (hl : linkUp s p = true)
    (hloop : s.flag (fNetCtlLoop p) = true) :
    (svcBack p kind carries ipv6 dst sport dport s).time = s.time ∧ s.out <+: (svcBack p kind carries ipv6 dst sport dport s).out ∧
    (svcBack p kind carries ipv6 dst sport dport s).fld (fNetRxFramesCount p) = (s.fld (fNetRxFramesCount p) + 1) % 2 ^ 32 := by
  obtain ⟨f, hf⟩ : ∃ f, svcBack p kind carries ipv6 dst sport dport s = netReceive p f s.draw.2 := ⟨_, if_pos hloop⟩
  rw [hf]
  refine ⟨?_, (netReceive_keep (Keep.refl s.draw.2)).out, netReceive_frames (s := s.draw.2) hp hl⟩
  exact (netReceive_within (Ω := (· ∈ [.hif, .net, .out, .pmu, .regs])) (fun _ h => h) (Within.refl s.draw.2)).same .time (by decide)

theorem ptpTransmit_sends (hp : p < 4) (hr : s.time.cfg.role ≠ 0) (ht : s.time.cfg.ports.testBit p = true) (hs : s.time.slave = none)
    (hu : svcUp s = true) (hl : linkUp s p = true) :
    ptpTransmit p s = svcBack p .udp .ptp false 0xE0000181 319 319 (s.emit (.ptp p (ownClass s))) :=
  if_pos (by simp [hp, hr, ht, hs, hu, hl])

theorem ptpTransmit_silent (h : s.time.slave = some p ∨ s.time.cfg.role = 0 ∨ s.time.cfg.ports.testBit p = false ∨ linkUp s p = false) :
    ptpTransmit p s = s := by
  refine if_neg ?_
  rcases h with h | h | h | h <;> simp [h]

/-- Settles O35: the selection is a least data set, and each event is the selection again with a change of what is heard. -/
theorem mastersOnThePorts : Obligations.MastersOnThePorts := by
  unfold Obligations.MastersOnThePorts
  refine ⟨fun s p a => ⟨fun h => congrArg Host.Outcome.next (announce_unheard h), fun h => congrArg Host.Outcome.next (if_pos (by simp [h]))⟩,
    fun s p hs => ⟨fun a hp hh hm => ?_, fun hp hc => ?_, fun hp hc => ?_, fun hp => ?_, fun hp hr ht hn hl => ⟨fun hq => ?_, fun hq => ?_⟩, fun h => ?_⟩⟩
  · have hx : exec (.announceReceived p a) s = .next (reselect s.time.slave (slaveGm s) (announced p a s)) :=
      congrArg Host.Outcome.next (announce_selects hs hp hh)
    obtain ⟨hcfg, hnow, hann⟩ := reselect_time s.time.slave (slaveGm s) (announced p a s)
    have hslave := reselect_slave s.time.slave (slaveGm s) (announced p a s)
    have set : Kept [.time, .free] s (announced p a s) := fun q hq => by cases q <;> first | rfl | simp at hq
    refine ⟨_, hx, set.trans (reselect_kept _ _ _), hann, ?_, fun j hj => ?_, hnow, reselect_armed .., hcfg, hslave, fun h => ?_, fun q hq => ?_⟩
    · rw [hann]; exact mapFind?_insert_self ..
    · rw [hann]; exact mapFind?_insert_other hj ..
    · rw [hslave] at h
      obtain ⟨hrate, hservo, -⟩ := reselect_undisturbed (w := s.time.slave) (g := slaveGm s) (s := announced p a s) h
      exact ⟨hrate, hservo⟩
    · rw [hslave] at hq
      obtain ⟨b, h1, h2, h3, h4, h5⟩ := announced_slave hm hq
      rw [hann]
      exact ⟨b, h1, h2, h3, (reselect_utcOffset ..).trans h4, h5⟩
  · obtain ⟨hann, hnow⟩ := announceTimeout_time hs hp
    exact ⟨_, rfl, by rw [hann]; exact mapFind?_erase_self .., hnow, announceTimeout_undriven hs hp hc⟩
  · obtain ⟨hann, hnow⟩ := announceTimeout_time hs hp
    obtain ⟨hlost, hkept⟩ := announceTimeout_driven hs hp hc
    refine ⟨_, rfl, by rw [hann]; exact mapFind?_erase_self .., hnow, ?_, ?_, ?_, ?_, hlost, hkept⟩
    all_goals rw [announceTimeout_slave hs hp]; rfl
  · exact ⟨_, congrArg Host.Outcome.next (announceTimeout_other hs hp), rfl⟩
  · refine congrArg Host.Outcome.next ((ptpTransmit_sends hp hr ht hn hs hl).trans (if_neg ?_))
    show ¬ s.flag (fNetCtlLoop p) = true
    simp [hq]
  · obtain ⟨htime, hout, hcount⟩ := svcBack_loops (s := s.emit (.ptp p (ownClass s))) (kind := .udp) (carries := .ptp) (ipv6 := false)
      (dst := 0xE0000181) (sport := 319) (dport := 319) hp hl hq
    exact ⟨_, congrArg Host.Outcome.next (ptpTransmit_sends hp hr ht hn hs hl), htime, hout, hcount⟩
  · exact congrArg Host.Outcome.next (ptpTransmit_silent h)

end Sys2Proof.Machine
end

section
/-!
PROOFS. Rules of the modem: what a slot boundary does to the links and the engine of a port (R363, R373, R376, R380, R483).
-/

namespace Sys2Proof.Machine

variable {s : State} {p : Nat}

/-! ## Ports and links -/

theorem State.mport_updMport (p q : Nat) (f : MPort → MPort) (s : State) : (s.updMport p f).mport q = if q = p then f (s.mport p) else s.mport q :=
  mapGet_upd ..

theorem State.mport_updMport_self (p : Nat) (f : MPort → MPort) (s : State) : (s.updMport p f).mport p = f (s.mport p) := mapGet_upd_self ..

theorem State.mlink_updMlink (l j : Nat) (f : MLink → MLink) (s : State) : (s.updMlink l f).mlink j = if j = l then f (s.mlink l) else s.mlink j :=
  mapGet_upd ..

theorem State.mlink_updMlink_self (l : Nat) (f : MLink → MLink) (s : State) : (s.updMlink l f).mlink l = f (s.mlink l) := mapGet_upd_self ..

theorem State.mlink_updMport (p l : Nat) (f : MPort → MPort) (s : State) : (s.updMport p f).mlink l = s.mlink l := rfl

theorem State.mport_updMlink (l p : Nat) (f : MLink → MLink) (s : State) : (s.updMlink l f).mport p = s.mport p := rfl

theorem mport_congr {s t : State} (e : t.mdm = s.mdm) (p : Nat) : t.mport p = s.mport p := by unfold State.mport; rw [e]

theorem mlink_congr {s t : State} (e : t.mdm = s.mdm) (l : Nat) : t.mlink l = s.mlink l := by unfold State.mlink; rw [e]

theorem finishWait_mdm (on : WaitOn) (st : Nat) (r : List Nat) (s : State) : (finishWait on st r s).mdm = s.mdm :=
  (finishWait_within (Ω := (· ∈ [.hif, .out, .regs])) (fun _ h => h) (Within.refl s)).same .mdm (by decide)

theorem reap_none (h : s.txHold = []) : reap s = s := by
  unfold reap
  rw [h]
  show ({ s with txHold := [] } : State) = s
  rw [← h]

/-- Where the counter is past an instant and no buffer is held, coming to it changes nothing. -/
theorem reached_passed {target : Nat} (ht : target ≤ s.time.t) (h : s.txHold = []) : reap (advanceTo target s) = s := by
  rw [advanceTo_passed ht, reap_none h]

/-! ## Links at a boundary (R373, R380, R483) -/

/-- A link with a new record. -/
abbrev withRecord (r : ModemOp) (x : MLink) : MLink := { x with rec_ := r, sched := none }

/-- A link in 2-level mode. -/
abbrev withTwoLevels (x : MLink) : MLink := { x with rec_ := { x.rec_ with mod := 0 }, twoLvl := false }

/-- A link that sends a new VER. -/
abbrev withVer (v : Nat) (x : MLink) : MLink := { x with rec_ := { x.rec_ with ver := v }, verNext := none }

/-- A link once its scheduled record takes effect. -/
def schedApplied (x : MLink) : MLink :=
  match x.sched with
  | some r => withRecord r x
  | none => x

/-- A link once the 2-level mode that a JOIN agreed takes effect. -/
def levelApplied (two : Bool) (x : MLink) : MLink := if two then withTwoLevels x else x

/-- A link once the VER that a JOIN agreed takes effect, which it does at the start of a radio frame. -/
def verApplied (frame : Bool) (ver : Option Nat) (x : MLink) : MLink :=
  match frame, ver with
  | true, some v => withVer v x
  | _, _ => x

/-- A link once what was scheduled for it takes effect. -/
def linkApplied (frame : Bool) (x : MLink) : MLink := verApplied frame x.verNext (levelApplied x.twoLvl (schedApplied x))

/-- Between the states links have changed, and completions been written: no port and no reception has. -/
structure LinksMove (s t : State) : Prop where
  ports : t.mdm.ports = s.mdm.ports
  rx    : t.mdm.rx = s.mdm.rx
  regs  : RegsKept [fHifCqHeadIndex.addr, fHifIntStat.addr] s t

theorem LinksMove.refl (s : State) : LinksMove s s := ⟨rfl, rfl, fun _ _ => rfl⟩

theorem LinksMove.trans {s t u : State} (h : LinksMove s t) (g : LinksMove t u) : LinksMove s u :=
  ⟨g.ports.trans h.ports, g.rx.trans h.rx, fun a ha => (g.regs a ha).trans (h.regs a ha)⟩

theorem updMlink_moves (l : Nat) (f : MLink → MLink) (s : State) : LinksMove s (s.updMlink l f) := ⟨rfl, rfl, fun _ _ => rfl⟩

theorem finishWait_moves (on : WaitOn) (st : Nat) (r : List Nat) (s : State) : LinksMove s (finishWait on st r s) :=
  ⟨congrArg MdmSt.ports (finishWait_mdm ..), congrArg MdmSt.rx (finishWait_mdm ..), (finishWait_answered on st r s).regs⟩

/-- Only links have changed, and of them one alone, to a value. -/
structure OneLink (l : Nat) (y : MLink) (s t : State) : Prop where
  moves : LinksMove s t
  link  : ∀ j, t.mlink j = if j = l then y else s.mlink j

theorem OneLink.refl (l : Nat) (s : State) : OneLink l (s.mlink l) s s := ⟨LinksMove.refl s, fun j => by split <;> simp [*]⟩

theorem OneLink.upd {l : Nat} {y : MLink} {s t : State} (h : OneLink l y s t) (f : MLink → MLink) : OneLink l (f y) s (t.updMlink l f) := by
  refine ⟨h.moves.trans (updMlink_moves ..), fun j => ?_⟩
  rw [State.mlink_updMlink, h.link l, if_pos rfl]
  split
  · rfl
  · next hj => rw [h.link j, if_neg hj]

theorem OneLink.wait {l : Nat} {y : MLink} {s t : State} (h : OneLink l y s t) (on : WaitOn) (st : Nat) (r : List Nat) :
    OneLink l y s (finishWait on st r t) :=
  ⟨h.moves.trans (finishWait_moves ..), fun j => (mlink_congr (finishWait_mdm ..) j).trans (h.link j)⟩

/-- What was scheduled for a link takes effect there, and no other link changes. -/
theorem applyLink_moves (frame : Bool) (l : Nat) (s : State) : OneLink l (linkApplied frame (s.mlink l)) s (applyLink frame l s) := by
  unfold applyLink
  extract_lets x s1 s2
  have hx : s.mlink l = x := rfl
  have h0 : OneLink l x s s := OneLink.refl l s
  clear_value x
  have h1 : OneLink l (schedApplied x) s s1 := by
    cases hs : x.sched with
    | some r =>
      simp only [schedApplied, s1, hs]
      exact (h0.upd (withRecord r)).wait ..
    | none =>
      simp only [schedApplied, s1, hs]
      exact h0
  clear_value s1
  have h2 : OneLink l (levelApplied x.twoLvl (schedApplied x)) s s2 := by
    cases hs : x.twoLvl with
    | true =>
      simp only [s2, hs]
      exact h1.upd withTwoLevels
    | false =>
      simp only [s2, hs]
      exact h1
  clear_value s2
  rw [hx]
  unfold linkApplied
  generalize levelApplied x.twoLvl (schedApplied x) = y at h2
  cases frame with
  | false => exact h2
  | true =>
    cases x.verNext with
    | none => exact h2
    | some v => exact h2.upd (withVer v)

/-- The links of a port, in turn. -/
theorem applyLinks_moves (frame : Bool) (k : Nat) : ∀ (n : Nat) (s : State),
    LinksMove s ((List.range n).foldl (fun s i => applyLink frame (k + i) s) s) ∧
    ∀ j, ((List.range n).foldl (fun s i => applyLink frame (k + i) s) s).mlink j = if k ≤ j ∧ j < k + n then linkApplied frame (s.mlink j) else s.mlink j
  | 0, s => ⟨LinksMove.refl s, fun j => by rw [if_neg (by omega)]; rfl⟩
  | n + 1, s => by
    obtain ⟨hm, hl⟩ := applyLinks_moves frame k n s
    rw [List.range_succ, List.foldl_append, List.foldl_cons, List.foldl_nil]
    generalize (List.range n).foldl (fun s i => applyLink frame (k + i) s) s = u at *
    obtain ⟨hm', hl'⟩ := applyLink_moves frame (k + n) u
    refine ⟨hm.trans hm', fun j => ?_⟩
    rw [hl' j]
    split
    · next h => rw [hl, if_neg (by omega), if_pos (by omega), h]
    · next h =>
      rw [hl j]
      by_cases hj : k ≤ j ∧ j < k + n
      · rw [if_pos hj, if_pos (by omega)]
      · rw [if_neg hj, if_neg (by omega)]

/-! ## The engine at a boundary -/

theorem endSlot_links (p : Nat) (s : State) : (endSlot p s).mdm.links = s.mdm.links ∧ (endSlot p s).mdm.ports = s.mdm.ports := by
  unfold endSlot
  split <;> exact ⟨rfl, rfl⟩

theorem endSlot_kept (p : Nat) (s : State) : Kept [.mdm] s (endSlot p s) := by
  intro q hq
  unfold endSlot
  split
  · exact Kept.refl [.mdm] s q hq
  · cases q <;> first | rfl | simp at hq

/-- A reception of the slot in progress that is not past its header ends (R370, R373). -/
theorem endSlot_ends {r : RxSlot} (hr : r ∈ s.mdm.rx) (hs : (s.mport p).slot = some r.start) (hp : linkPort r.link = p)
    (hg : r.stage = .search ∨ r.stage = .header) : { r with stage := .ended } ∈ (endSlot p s).mdm.rx := by
  unfold endSlot
  rw [hs]
  exact List.mem_map.mpr ⟨r, hr, if_pos ⟨rfl, hp, hg⟩⟩

/-- A commit of one register of a block leaves every other, but where the completion is written. -/
theorem commitRegs_other (id o m : Nat) (s : State) :
    RegsKept [id * 0x2000 + o, fHifCqHeadIndex.addr, fHifIntStat.addr] s (commitRegs id [(o, m)] s) := by
  intro a ha
  simp only [List.mem_cons, List.not_mem_nil, or_false, not_or] at ha
  obtain ⟨h1, h2, h3⟩ := ha
  unfold commitRegs
  extract_lets bs s1 left
  have hs : ∀ c : List (Nat × Stage), ({ s1 with cfg := c } : State).reg a = s.reg a := fun _ => State.reg_setReg_other _ h1 _
  split
  · rfl
  · split
    · exact ((finishWait_answered ..).regs a (by simp [h2, h3])).trans (hs _)
    · exact hs _

theorem commitRegs_mdm (id : Nat) (regs : List (Nat × Nat)) (s : State) : (commitRegs id regs s).mdm = s.mdm :=
  (commitRegs_within (Ω := (· ∈ [.cfg, .hif, .out, .regs])) (fun _ h => h) (Within.refl s)).same .mdm (by decide)

/-- The engine of a port in its new slot. -/
def enterSlot (p st : Nat) (s : State) : State :=
  let again := match (s.mport p).served with | some l => decide (st ≤ l) | none => false
  s.updMport p (fun m => { m with
    slot := some st, begun := false, repeat_ := again, served := if again then m.served else some st
    agc := s.reg (0xD0104 + 0x80 * p), amp := s.fld fMdmTxAmpAmp, ramp := (List.range 16).map (fun e => s.fld (fMdmRampV e))
    ofs := m.ofs + m.ofsDue, ofsDue := 0 })

/-- The pins and the data flag of a port in its new slot. -/
def slotPins (p st : Nat) (s : State) : State :=
  let s := s.setFld (fMdmPpGainPaEn p) (bitOf (slotTransmits s p st))
  let s := if slotNo st < 5 then s.setFld (fMdmPpGainFrozen p) 1 else s
  if s.flag (fRfpCtlEn p) && s.flag (fRfpCtlTxEn p) && !s.flag (fRfpStatTxData p) then
    let (f, s) := s.draw
    s.setFld (fRfpStatTxData p) (f % 2)
  else s

theorem slotBoundary_eq (hr : modemRuns s p = true) (hx : s.txHold = []) (ht : timeOfTick (nextSlot s p) ≤ s.time.t) :
    slotBoundary p s = slotPins p (nextSlot s p) (enterSlot p (nextSlot s p) (commitRegs 0x68 [(0x100 + 0x80 * p, 0x0FFFFFFF)]
      ((List.range 60).foldl (fun u i => applyLink (nextSlot s p % 240 == 0) (60 * p + i) u) (endSlot p s)))) := by
  have hkept := endSlot_kept p s
  have htime : (endSlot p s).time = s.time := hkept .time (by decide)
  have hhold : (endSlot p s).txHold = s.txHold := hkept .txHold (by decide)
  have reached : reap (advanceTo (timeOfTick (nextSlot s p)) (endSlot p s)) = endSlot p s :=
    reached_passed (by rw [htime]; exact ht) (by rw [hhold, hx])
  unfold slotBoundary
  rw [if_neg (by simp [hr])]
  dsimp only
  rw [reached]
  rfl

theorem slotPins_mdm (p st : Nat) (s : State) : (slotPins p st s).mdm = s.mdm := by
  unfold slotPins
  extract_lets s1 s2
  have h2 : s2.mdm = s.mdm := by
    unfold s2
    split <;> rfl
  split
  · exact h2
  · exact h2

theorem bitOf_mod (b : Bool) : bitOf b % 2 ^ 1 = bitOf b := by cases b <;> rfl

/-- PA_EN is driven where a link transmits, and the gain is frozen in a downlink slot (R363, R365). -/
theorem slotPins_gain (p st : Nat) (s : State) : (slotPins p st s).fld (fMdmPpGainPaEn p) = bitOf (slotTransmits s p st) ∧
    (slotNo st < 5 → (slotPins p st s).flag (fMdmPpGainFrozen p) = true) := by
  unfold slotPins
  extract_lets s1 s2
  have h1 : s1.fld (fMdmPpGainPaEn p) = bitOf (slotTransmits s p st) :=
    (State.fld_setFld_self _ (fMdmPpGainPaEn p) (by decide : 9 + 1 ≤ 32) _).trans (bitOf_mod _)
  have h2 : s2.fld (fMdmPpGainPaEn p) = bitOf (slotTransmits s p st) ∧ (slotNo st < 5 → s2.fld (fMdmPpGainFrozen p) = 1) := by
    unfold s2
    split
    · exact ⟨(State.fld_setFld_apart _ (fMdmPpGainFrozen p) (fMdmPpGainPaEn p) 1 (by decide : 8 + 1 ≤ 32) (.inr (by decide : 8 + 1 ≤ 9))).trans h1,
        fun _ => State.fld_setFld_self _ (fMdmPpGainFrozen p) (by decide : 8 + 1 ≤ 32) 1⟩
    · next h => exact ⟨h1, fun g => absurd g h⟩
  clear_value s2
  have flagged : s2.fld (fMdmPpGainFrozen p) = 1 → s2.flag (fMdmPpGainFrozen p) = true := fun h => by unfold State.flag; rw [h]; rfl
  split
  · have apart : (fMdmPpGainPaEn p).addr ≠ (fRfpStatTxData p).addr := by simp only [fMdmPpGainPaEn, fRfpStatTxData]; omega
    refine ⟨(State.fld_setFld_other _ (fRfpStatTxData p) _ _ apart).trans h2.1, fun h => ?_⟩
    refine (congrArg (· != 0) (State.fld_setFld_other _ (fRfpStatTxData p) (fMdmPpGainFrozen p) _ apart)).trans (flagged (h2.2 h))
  · exact ⟨h2.1, fun h => flagged (h2.2 h)⟩

end Sys2Proof.Machine
end

section
/-!
PROOFS. Slots of the radio (R45, R347 to R349, R360 to R365, R373, R376): the boundary, the take of entries, the transmission, the reception and the AGC.
-/

namespace Sys2Proof.Machine

variable {s : State} {p : Nat}

/-! ## The boundary (R347, R363, R373, R376) -/

theorem slotTransmits_congr {t : State} (e : t.mdm = s.mdm) (p st : Nat) : slotTransmits t p st = slotTransmits s p st := by
  unfold slotTransmits
  simp only [mlink_congr e]

theorem modemRuns_port (hr : modemRuns s p = true) : p < 8 := by
  unfold modemRuns at hr
  simp only [Bool.and_eq_true, decide_eq_true_eq] at hr
  exact hr.1

/-- What a boundary leaves of a port in the state before its pins are driven: the same ports and receptions as at the end of the last slot, and the
links with what was scheduled for them. -/
theorem boundary_links (hr : modemRuns s p = true) (frame : Bool) :
    let u := commitRegs 0x68 [(0x100 + 0x80 * p, 0x0FFFFFFF)] ((List.range 60).foldl (fun u i => applyLink frame (60 * p + i) u) (endSlot p s))
    u.mport p = s.mport p ∧ u.mdm.rx = (endSlot p s).mdm.rx ∧ (∀ l, linkPort l = p → u.mlink l = linkApplied frame (s.mlink l)) ∧
      u.reg (0xD0104 + 0x80 * p) = s.reg (0xD0104 + 0x80 * p) ∧ u.fld fMdmTxAmpAmp = s.fld fMdmTxAmpAmp := by
  have hp := modemRuns_port hr
  obtain ⟨hlinks, hports⟩ := endSlot_links p s
  have hregs : (endSlot p s).regs = s.regs := endSlot_kept p s .regs (by decide)
  obtain ⟨⟨mports, mrx, mregs⟩, mlinks⟩ := applyLinks_moves frame (60 * p) 60 (endSlot p s)
  generalize (List.range 60).foldl (fun u i => applyLink frame (60 * p + i) u) (endSlot p s) = v at *
  have hmdm := commitRegs_mdm 0x68 [(0x100 + 0x80 * p, 0x0FFFFFFF)] v
  have hother := commitRegs_other 0x68 (0x100 + 0x80 * p) 0x0FFFFFFF v
  have same : ∀ a, a < 0xD0100 + 0x80 * p ∨ 0xD0100 + 0x80 * p < a → a < 0x120000 →
      (commitRegs 0x68 [(0x100 + 0x80 * p, 0x0FFFFFFF)] v).reg a = s.reg a := by
    intro a h1 h2
    have far : a ≠ 0x68 * 0x2000 + (0x100 + 0x80 * p) ∧ a ≠ fHifCqHeadIndex.addr ∧ a ≠ fHifIntStat.addr := by
      simp only [fHifCqHeadIndex, fHifIntStat]
      omega
    obtain ⟨f1, f2, f3⟩ := far
    exact (hother a (by simp [f1, f2, f3])).trans ((mregs a (by simp [f2, f3])).trans (reg_congr hregs a))
  refine ⟨?_, ?_, fun l hl => ?_, same _ (by omega) (by omega), congrArg (bits · 0 15) (same 0xD0014 (by omega) (by omega))⟩
  · rw [mport_congr hmdm]
    unfold State.mport
    rw [mports, hports]
  · rw [hmdm, mrx]
  · have hlp : 60 * p ≤ l ∧ l < 60 * p + 60 := by unfold linkPort at hl; omega
    rw [mlink_congr hmdm, mlinks, if_pos hlp]
    unfold State.mlink
    rw [hlinks]

/-- The slot that begins at a boundary. -/
theorem slotBoundary_enters (hr : modemRuns s p = true) (hx : s.txHold = []) (ht : timeOfTick (nextSlot s p) ≤ s.time.t) :
    let m := s.mport p
    let st := nextSlot s p
    ∃ t, exec (.slotBoundary p) s = .next t ∧ (t.mport p).slot = some st ∧ (t.mport p).begun = false ∧ (t.mport p).taken = m.taken ∧
      (t.mport p).agc = s.reg (0xD0104 + 0x80 * p) ∧ (t.mport p).amp = s.fld fMdmTxAmpAmp ∧ (t.mport p).ofs = m.ofs + m.ofsDue ∧ (t.mport p).ofsDue = 0 ∧
      t.fld (fMdmPpGainPaEn p) = bitOf (slotTransmits t p st) ∧ (slotNo st < 5 → t.flag (fMdmPpGainFrozen p) = true) ∧
      (∀ l, linkPort l = p → t.mlink l = linkApplied (st % 240 == 0) (s.mlink l)) ∧ t.mdm.rx = (endSlot p s).mdm.rx := by
  intro m st
  obtain ⟨hport, hrx, hlink, hagc, hamp⟩ := boundary_links hr (st % 240 == 0)
  have heq := slotBoundary_eq hr hx ht
  generalize commitRegs 0x68 [(0x100 + 0x80 * p, 0x0FFFFFFF)]
    ((List.range 60).foldl (fun u i => applyLink (st % 240 == 0) (60 * p + i) u) (endSlot p s)) = u at *
  have hmdm : (slotPins p st (enterSlot p st u)).mdm = (enterSlot p st u).mdm := slotPins_mdm ..
  obtain ⟨hpa, hfrozen⟩ := slotPins_gain p st (enterSlot p st u)
  obtain ⟨x, y, hentered⟩ : ∃ x y, (enterSlot p st u).mport p = { u.mport p with
      slot := some st, begun := false, repeat_ := x, served := y, agc := u.reg (0xD0104 + 0x80 * p), amp := u.fld fMdmTxAmpAmp
      ramp := (List.range 16).map (fun e => u.fld (fMdmRampV e)), ofs := (u.mport p).ofs + (u.mport p).ofsDue, ofsDue := 0 } :=
    ⟨_, _, State.mport_updMport_self ..⟩
  have htport : (slotPins p st (enterSlot p st u)).mport p = (enterSlot p st u).mport p := mport_congr hmdm p
  rw [hentered, hport] at htport
  refine ⟨_, congrArg Host.Outcome.next heq, ?_, ?_, ?_, ?_, ?_, ?_, ?_, ?_, hfrozen, fun l hl => ?_, ?_⟩
  · rw [htport]
  · rw [htport]
  · rw [htport]
  · rw [htport]; exact hagc
  · rw [htport]; exact hamp
  · rw [htport]
  · rw [htport]
  · rw [hpa, slotTransmits_congr hmdm]
  · exact (mlink_congr hmdm l).trans (hlink l hl)
  · exact (congrArg MdmSt.rx hmdm).trans hrx

/-- What a boundary does to a link with one thing scheduled for it, or none. -/
theorem linkApplied_cases (frame : Bool) (x : MLink) :
    (∀ r, x.sched = some r → x.twoLvl = false → x.verNext = none → linkApplied frame x = { x with rec_ := r, sched := none }) ∧
    (x.sched = none → x.twoLvl = true → x.verNext = none → linkApplied frame x = { x with rec_ := { x.rec_ with mod := 0 }, twoLvl := false }) ∧
    (∀ v, x.sched = none → x.twoLvl = false → x.verNext = some v →
      linkApplied frame x = if frame = true then { x with rec_ := { x.rec_ with ver := v }, verNext := none } else x) ∧
    (x.sched = none → x.twoLvl = false → x.verNext = none → linkApplied frame x = x) := by
  obtain ⟨record, sched, seq, okSeq, status, rssi, fofs, n, agreed, verNext, twoLvl⟩ := x
  refine ⟨fun r h1 h2 h3 => ?_, fun h1 h2 h3 => ?_, fun v h1 h2 h3 => ?_, fun h1 h2 h3 => ?_⟩
  all_goals
    dsimp only at h1 h2 h3
    subst h1 h2 h3
    cases frame <;> rfl

/-! ## The take of entries (R360, R361, R376) -/

theorem portPop_mdm (q : Nat) (bound acct : Option Nat) (s : State) : (portPop q bound acct s).2.mdm = s.mdm :=
  (portPop_within (Ω := (· ∈ [.flash, .flc, .free, .hbm, .hif, .mq, .out, .pmu, .regs, .seed, .ump])) (fun _ h => h) (Within.refl s)).same .mdm (by decide)

theorem releaseEntry_same (e : Entry) (loan : Bool) (s : State) : (releaseEntry e loan s).mdm = s.mdm ∧ (releaseEntry e loan s).mq = s.mq := by
  have h := releaseEntry_within (Ω := (· ∈ [.hbm, .hif, .out, .regs, .seed, .ump])) (fun _ h => h) (e := e) (loan := loan) (Within.refl s)
  exact ⟨h.same .mdm (by decide), h.same .mq (by decide)⟩

/-- A count of a transmit outcome is a count of its port and of its link. -/
theorem countTx_is (l which : Nat) (s : State) : ∃ (c : Fld) (f : MLink → MLink), (∀ x, (f x).rec_ = x.rec_) ∧
    countTx l which s = (s.bump c 1).updMlink l f := by
  unfold countTx
  dsimp only
  split
  all_goals
    refine ⟨_, _, ?_, rfl⟩
    exact fun _ => rfl

theorem countTx_port (l which : Nat) (s : State) (q : Nat) : (countTx l which s).mport q = s.mport q := by
  obtain ⟨c, f, -, h⟩ := countTx_is l which s
  rw [h]; rfl

theorem countTx_queue (l which : Nat) (s : State) : (countTx l which s).mq = s.mq := by
  obtain ⟨c, f, -, h⟩ := countTx_is l which s
  rw [h]; rfl

theorem countTx_rec (l which : Nat) (s : State) (j : Nat) : ((countTx l which s).mlink j).rec_ = (s.mlink j).rec_ := by
  obtain ⟨c, f, hf, h⟩ := countTx_is l which s
  rw [h, State.mlink_updMlink]
  split
  · next hj => rw [hj, hf]; rfl
  · rfl

/-- Examining a queue changes the record of no link. -/
theorem takeEntry_rec (l st : Nat) : ∀ (fuel : Nat) (s : State) (j : Nat), ((takeEntry l st fuel s).2.mlink j).rec_ = (s.mlink j).rec_
  | 0, _, _ => rfl
  | fuel + 1, s, j => by
    unfold takeEntry
    dsimp only
    split
    · exact countTx_rec ..
    · next i hi =>
      split
      · exact countTx_rec ..
      · have hpop := fun a => portPop_mdm (s.mlink l).rec_.txQueue none (some a) s
        specialize hpop (s.fld fMdmAccountAccount)
        split
        · next u hu =>
          rw [hu] at hpop
          exact (countTx_rec ..).trans (congrArg MLink.rec_ (mlink_congr hpop j))
        · next i' loan u hu =>
          rw [hu] at hpop
          have hu : (u.mlink j).rec_ = (s.mlink j).rec_ := congrArg MLink.rec_ (mlink_congr hpop j)
          have hfreed : ((releaseEntry i'.e loan u).mlink j).rec_ = (s.mlink j).rec_ :=
            (congrArg MLink.rec_ (mlink_congr (releaseEntry_same i'.e loan u).1 j)).trans hu
          split
          · exact (takeEntry_rec l st fuel _ j).trans ((countTx_rec ..).trans hfreed)
          · split
            · exact (countTx_rec ..).trans hu
            · exact (countTx_rec ..).trans hfreed

/-- The take for one carrier of a port. -/
def takeCarrier (p st : Nat) (s : State) (c : Nat) : State :=
  let l := slotLink p st c
  let x := (s.mlink l).rec_
  if x.txEn = 1 then
    let n := match s.queue? x.txQueue with | some q => q.held.length + 1 | none => 1
    let r := takeEntry l st n s
    r.2.updMport p (fun m => { m with taken := m.taken ++ [(st, takenPacket l x r.1)] })
  else s

theorem takeCarrier_rec (p st : Nat) (s : State) (c j : Nat) : ((takeCarrier p st s c).mlink j).rec_ = (s.mlink j).rec_ := by
  unfold takeCarrier
  dsimp only
  split
  · exact (congrArg MLink.rec_ (State.mlink_updMport ..)).trans (takeEntry_rec ..)
  · rfl

theorem takeCarrier_silent {st c : Nat} (h : (s.mlink (slotLink p st c)).rec_.txEn ≠ 1) : takeCarrier p st s c = s := if_neg h

/-- The port once it has come to a slot's take. -/
abbrev takeBegun (p st : Nat) (s : State) : State := s.updMport p (fun m => { m with takenAt := some st })

section
variable (hr : modemRuns s p = true) (hx : s.txHold = []) (ht : timeOfTick (takeSlot s p - s.fld (fMdmPpCfgTxLead p)) ≤ s.time.t)
include hr hx ht

theorem downlinkTake_eq : downlinkTake p s =
    if (match (s.mport p).served with | some l => decide (takeSlot s p ≤ l) | none => false) then takeBegun p (takeSlot s p) s
    else (List.range 12).foldl (takeCarrier p (takeSlot s p)) (takeBegun p (takeSlot s p) s) := by
  have reached := reached_passed ht hx
  unfold downlinkTake
  rw [if_neg (by simp [hr])]
  dsimp only
  rw [reached]
  rfl

end

theorem foldl_skips {g : State → Nat → State} {u : State} : ∀ {l : List Nat}, (∀ d ∈ l, g u d = u) → l.foldl g u = u
  | [], _ => rfl
  | d :: l, h => by rw [List.foldl_cons, h d List.mem_cons_self, foldl_skips fun e he => h e (List.mem_cons_of_mem _ he)]

/-- A fold that acts on one element of a list alone. -/
theorem foldl_acts_once {g : State → Nat → State} {c : Nat} {u : State} : ∀ {l : List Nat}, c ∈ l → l.Nodup → (∀ d ∈ l, d ≠ c → g u d = u) →
    (∀ d ∈ l, d ≠ c → g (g u c) d = g u c) → l.foldl g u = g u c
  | d :: l, hc, hn, hu, hv => by
    obtain ⟨hd, hl⟩ := List.nodup_cons.mp hn
    have hv' : ∀ e ∈ l, e ≠ c → g (g u c) e = g u c := fun e he => hv e (List.mem_cons_of_mem _ he)
    rw [List.foldl_cons]
    by_cases h : d = c
    · subst h
      exact foldl_skips fun e he => hv' e he fun h => hd (h ▸ he)
    · rw [hu d List.mem_cons_self h]
      exact foldl_acts_once ((List.mem_cons.mp hc).resolve_left (Ne.symm h)) hl (fun e he => hu e (List.mem_cons_of_mem _ he)) hv'

/-- No link transmits in the slot, or a repeated slot takes nothing. -/
theorem downlinkTake_none (hr : modemRuns s p = true) (hx : s.txHold = []) (ht : timeOfTick (takeSlot s p - s.fld (fMdmPpCfgTxLead p)) ≤ s.time.t)
    (h : (∃ l, (s.mport p).served = some l ∧ takeSlot s p ≤ l) ∨ ∀ c, c < 12 → (s.mlink (slotLink p (takeSlot s p) c)).rec_.txEn ≠ 1) :
    downlinkTake p s = takeBegun p (takeSlot s p) s := by
  rw [downlinkTake_eq hr hx ht]
  rcases h with ⟨l, hl, hle⟩ | h
  · exact if_pos (by rw [hl]; simpa using hle)
  · have silent : ∀ d ∈ List.range 12, takeCarrier p (takeSlot s p) (takeBegun p (takeSlot s p) s) d = takeBegun p (takeSlot s p) s :=
      fun d hd => takeCarrier_silent (h d (List.mem_range.mp hd))
    rw [foldl_skips silent, ite_self]

/-- One link alone transmits in the slot. -/
theorem downlinkTake_one (hr : modemRuns s p = true) (hx : s.txHold = []) (ht : timeOfTick (takeSlot s p - s.fld (fMdmPpCfgTxLead p)) ≤ s.time.t)
    (hs : (s.mport p).served = none) {c : Nat} (hc : c < 12)
    (h : ∀ d, d < 12 → ((s.mlink (slotLink p (takeSlot s p) d)).rec_.txEn = 1 ↔ d = c)) :
    downlinkTake p s = takeCarrier p (takeSlot s p) (takeBegun p (takeSlot s p) s) c := by
  rw [downlinkTake_eq hr hx ht, hs, if_neg (by simp)]
  have other : ∀ d ∈ List.range 12, d ≠ c → (s.mlink (slotLink p (takeSlot s p) d)).rec_.txEn ≠ 1 :=
    fun d hd hne h1 => hne ((h d (List.mem_range.mp hd)).mp h1)
  exact foldl_acts_once (List.mem_range.mpr hc) List.nodup_range (fun d hd hne => takeCarrier_silent (other d hd hne))
    (fun d hd hne => takeCarrier_silent (by rw [takeCarrier_rec]; exact other d hd hne))

/-! ## What the take gives (R360, R361) -/

theorem settle_held (x : Queue) : x.settle.held = x.held := by
  unfold Queue.settle
  split <;> rfl

theorem refill_held (x : Queue) : x.refill.2.held = x.held := by
  unfold Queue.refill
  split
  · exact settle_held _
  · rfl

theorem takeHead_held (x : Queue) : x.takeHead.2.held = x.held.tail := by
  unfold Queue.takeHead
  by_cases h : x.headWin = 0
  · rw [if_pos h]
    exact (settle_held _).trans (congrArg List.tail (refill_held x))
  · rw [if_neg h]
    exact settle_held _

theorem freeSlot_held (x : Queue) (clk : Nat) : (x.freeSlot clk).held = x.held := by
  unfold Queue.freeSlot
  split <;> rfl

theorem pmuEvent_queue (set ev n : Nat) (s : State) (q : Nat) : (pmuEvent set ev n s).queue? q = s.queue? q :=
  congrArg (mapFind? q) ((pmuEvent_mild set ev n s).kept .mq (by decide))

theorem seedMove_mq (h a : Nat) (s : State) : (seedMove h a s).mq = s.mq := rfl

theorem pmuEvent_setQueue (set ev n q : Nat) (x : Queue) (s : State) : (pmuEvent set ev n (s.setQueue q x)).queue? q = some x := by
  rw [pmuEvent_queue, queue_set, if_pos rfl]

/-- A queue with a visible head gives it to a plain pop. -/
theorem mqTake_visible {q n : Nat} {x y : Queue} {i : Item} {rest : List Item} (hq : s.queue? q = some x) (hh : x.held = i :: rest)
    (ht : x.takeHead = (n, y)) (hv : ¬ (x.mode = .async ∧ i.at_ = s.clk)) :
    mqTake q none s = (.item i, pmuEvent 259 0x403 n (s.setQueue q { y.passItem i.e.key with before := some (s.clk, x.lastKey, x.lastValid) })) := by
  unfold mqTake
  rw [hq]
  simp only [hh, if_neg hv, ht, Bool.false_eq_true, if_false]

/-- A pop of an item moves LAST_KEY alone (R111). -/
theorem passItem_is (x : Queue) (j : Nat) : ∃ k, x.passItem j = { x with lastKey := k, lastValid := true } := ⟨_, rfl⟩

/-- A queue of the mode FIFO gives its head. -/
theorem mqTake_head {q : Nat} {x : Queue} {i : Item} {rest : List Item} (hq : s.queue? q = some x) (hm : x.mode = .fifo) (hh : x.held = i :: rest) :
    ∃ t y, mqTake q none s = (.item i, t) ∧ t.queue? q = some y ∧ y.held = rest := by
  rcases ht : x.takeHead with ⟨n, z⟩
  have hz : z.held = rest := by
    have h := takeHead_held x
    rw [ht, hh] at h
    exact h
  obtain ⟨k, hk⟩ := passItem_is z i.e.key
  have hpop := mqTake_visible hq hh ht (by simp [hm])
  rw [hk] at hpop
  exact ⟨_, _, hpop, pmuEvent_setQueue .., hz⟩

theorem countPop_queue {q : Nat} {x : Queue} (hq : s.queue? q = some x) : ∃ y, (countPop q s).queue? q = some y ∧ y.held = x.held := by
  refine ⟨{ x with n := { x.n with popped := (x.n.popped + 1) % W32 } }, ?_, rfl⟩
  unfold countPop
  rw [hq]
  dsimp only
  rw [pmuEvent_queue, queue_set, if_pos rfl]

/-- The head of a queue without a mark is popped into an account, and the queue keeps the rest. -/
theorem portPop_head {q a : Nat} {x : Queue} {i : Item} {rest : List Item} (hq : s.queue? q = some x) (hm : x.mode = .fifo) (hs : x.markSet = false)
    (hh : x.held = i :: rest) :
    ∃ t x', portPop q none (some a) s = (some (i, false), t) ∧ t.queue? q = some x' ∧ x'.held = rest ∧ t.mdm = s.mdm := by
  obtain ⟨u, y, ht, hy, hyh⟩ := mqTake_head hq hm hh
  obtain ⟨z, hz, hzh⟩ := countPop_queue hy
  have hmdm := portPop_mdm q none (some a) s
  obtain ⟨t, hpop, htq⟩ : ∃ t, portPop q none (some a) s = (some (i, false), t) ∧ t.queue? q = some (z.freeSlot (countPop q u).clk) := by
    unfold portPop
    rw [hq, ht]
    simp only [hs, hz, Bool.false_eq_true, if_false]
    split
    · exact ⟨_, rfl, by rw [queue_set, if_pos rfl]⟩
    · refine ⟨_, rfl, ?_⟩
      show ((countPop q u).setQueue q (z.freeSlot (countPop q u).clk)).queue? q = _
      rw [queue_set, if_pos rfl]
  rw [hpop] at hmdm
  exact ⟨t, _, hpop, htq, by rw [freeSlot_held, hzh, hyh], hmdm⟩

section
variable {l st : Nat} {q : Queue} {i : Item} {rest : List Item} {fuel : Nat}

/-- Nothing is queued. -/
theorem takeEntry_unqueued (hq : s.queue? (s.mlink l).rec_.txQueue = none) : takeEntry l st (fuel + 1) s = (none, countTx l 1 s) := by
  unfold takeEntry
  dsimp only
  rw [hq]
  rfl

variable (hq : s.queue? (s.mlink l).rec_.txQueue = some q) (hh : q.held = i :: rest)
include hq hh

/-- The head is not due. -/
theorem takeEntry_early (hd : 0 < tickDiff i.e.key st) : takeEntry l st (fuel + 1) s = (none, countTx l 1 s) := by
  unfold takeEntry
  dsimp only
  rw [hq]
  simp only [Option.bind_some, hh, List.head?_cons]
  exact if_pos hd

/-- The head is due, and is sent or, in another format, dropped. -/
theorem takeEntry_due (hm : q.mode = .fifo) (hs : q.markSet = false) (hd : tickDiff i.e.key st = 0) :
    ∃ t q', t.queue? (s.mlink l).rec_.txQueue = some q' ∧ q'.held = rest ∧ t.mdm = s.mdm ∧
      takeEntry l st (fuel + 1) s = if txFormatOk (s.mlink l).rec_ i.e then (some (i.e, false), countTx l 0 t)
        else (none, countTx l 3 (releaseEntry i.e false t)) := by
  obtain ⟨t, q', hpop, htq, hheld, hmdm⟩ := portPop_head (a := s.fld fMdmAccountAccount) hq hm hs hh
  refine ⟨t, q', htq, hheld, hmdm, ?_⟩
  conv_lhs => unfold takeEntry
  dsimp only
  rw [hq]
  simp only [Option.bind_some, hh, List.head?_cons, hd, lt_irrefl, if_false]
  rw [hpop]

end

end Sys2Proof.Machine
end

section
/-!
PROOFS. Slots of the radio, continued: what one transmitting link takes and sends, uplink slots, and the AGC (R350, R360 to R365, R376).
-/

namespace Sys2Proof.Machine

variable {s : State} {p : Nat}

/-! ## One link takes -/

/-- A take is at least one examination of the link's queue. -/
theorem takeCarrier_examines {st c : Nat} (hx : (s.mlink (slotLink p st c)).rec_.txEn = 1) : ∃ fuel,
    takeCarrier p st s c = (takeEntry (slotLink p st c) st (fuel + 1) s).2.updMport p (fun m => { m with taken := m.taken ++
      [(st, takenPacket (slotLink p st c) (s.mlink (slotLink p st c)).rec_ (takeEntry (slotLink p st c) st (fuel + 1) s).1)] }) := by
  unfold takeCarrier
  dsimp only
  rw [if_pos hx]
  split
  · exact ⟨_, rfl⟩
  · exact ⟨0, rfl⟩

/-- The parts of a take that the statement shows, in the state after it. -/
theorem taken_shown {st : Nat} {k : RadioPkt} {t : State} {ks : List (Nat × RadioPkt)} (hm : (t.mport p).taken = ks) :
    ((t.updMport p (fun m => { m with taken := m.taken ++ [(st, k)] })).mport p).taken = ks ++ [(st, k)] := by
  rw [State.mport_updMport_self]
  show (t.mport p).taken ++ _ = _
  rw [hm]

theorem countTx_empty (l : Nat) (s : State) : ((countTx l 1 s).mlink l).n.txEmpty = ((s.mlink l).n.txEmpty + 1) % 2 ^ 32 :=
  congrArg (fun x : MLink => x.n.txEmpty) (State.mlink_updMlink_self l (fun x => { x with n := { x.n with txEmpty := (x.n.txEmpty + 1) % W32 } }) _)

theorem countTx_sent (l : Nat) (s : State) : ((countTx l 0 s).mlink l).n.txSent = ((s.mlink l).n.txSent + 1) % 2 ^ 32 :=
  congrArg (fun x : MLink => x.n.txSent) (State.mlink_updMlink_self l (fun x => { x with n := { x.n with txSent := (x.n.txSent + 1) % W32 } }) _)

theorem countTx_format (l : Nat) (s : State) : ((countTx l 3 s).mlink l).n.txFormat = ((s.mlink l).n.txFormat + 1) % 2 ^ 32 :=
  congrArg (fun x : MLink => x.n.txFormat) (State.mlink_updMlink_self l (fun x => { x with n := { x.n with txFormat := (x.n.txFormat + 1) % W32 } }) _)

theorem takeBegun_taken (p st : Nat) (s : State) : ((takeBegun p st s).mport p).taken = (s.mport p).taken := by
  unfold takeBegun
  rw [State.mport_updMport_self]

section
variable (hr : modemRuns s p = true) (hx : s.txHold = []) (ht : timeOfTick (takeSlot s p - s.fld (fMdmPpCfgTxLead p)) ≤ s.time.t)
  (hs : (s.mport p).served = none) {c : Nat} (hc : c < 12)
  (hone : ∀ d, d < 12 → ((s.mlink (slotLink p (takeSlot s p) d)).rec_.txEn = 1 ↔ d = c))
include hr hx ht hs hc hone

/-- The one link's take, from what the examination of its queue gives. -/
theorem downlinkTake_gives : ∃ fuel, ∀ r u,
    takeEntry (slotLink p (takeSlot s p) c) (takeSlot s p) (fuel + 1) (takeBegun p (takeSlot s p) s) = (r, u) →
    (u.mport p).taken = (s.mport p).taken →
    ∃ t, exec (.downlinkTake p) s = .next t ∧ (t.mport p).taken = (s.mport p).taken ++
        [(takeSlot s p, takenPacket (slotLink p (takeSlot s p) c) (s.mlink (slotLink p (takeSlot s p) c)).rec_ r)] ∧
      (∀ l, t.mlink l = u.mlink l) ∧ t.mq = u.mq := by
  have hen : ((takeBegun p (takeSlot s p) s).mlink (slotLink p (takeSlot s p) c)).rec_.txEn = 1 := (hone c hc).mpr rfl
  obtain ⟨fuel, htake⟩ := takeCarrier_examines hen
  refine ⟨fuel, fun r u hu hport => ?_⟩
  rw [hu] at htake
  exact ⟨_, congrArg Host.Outcome.next ((downlinkTake_one hr hx ht hs hc hone).trans htake), taken_shown hport, fun _ => rfl, rfl⟩

/-- Nothing is queued for the link: an EMPTY packet, counted. -/
theorem downlinkTake_unqueued (hq : s.queue? (s.mlink (slotLink p (takeSlot s p) c)).rec_.txQueue = none) :
    let l := slotLink p (takeSlot s p) c
    let x := (s.mlink l).rec_
    ∃ t, exec (.downlinkTake p) s = .next t ∧ (t.mport p).taken = (s.mport p).taken ++ [(takeSlot s p, ⟨l, 1, x.ver, x.pwr, none⟩)] ∧
      (t.mlink l).n.txEmpty = ((s.mlink l).n.txEmpty + 1) % 2 ^ 32 := by
  intro l x
  obtain ⟨fuel, hgive⟩ := downlinkTake_gives hr hx ht hs hc hone
  obtain ⟨t, he, htk, hlink, -⟩ := hgive _ _ (takeEntry_unqueued hq) ((congrArg MPort.taken (countTx_port ..)).trans (takeBegun_taken ..))
  exact ⟨t, he, htk, (congrArg (fun x : MLink => x.n.txEmpty) (hlink l)).trans (countTx_empty ..)⟩

section
variable {q : Queue} {i : Item} {rest : List Item} (hq : s.queue? (s.mlink (slotLink p (takeSlot s p) c)).rec_.txQueue = some q)
  (hh : q.held = i :: rest)
include hq hh

/-- The head is not due in this slot: an EMPTY packet, and the queue stays. -/
theorem downlinkTake_early (hd : 0 < tickDiff i.e.key (takeSlot s p)) :
    let l := slotLink p (takeSlot s p) c
    let x := (s.mlink l).rec_
    ∃ t, exec (.downlinkTake p) s = .next t ∧ (t.mport p).taken = (s.mport p).taken ++ [(takeSlot s p, ⟨l, 1, x.ver, x.pwr, none⟩)] ∧ t.mq = s.mq := by
  intro l x
  obtain ⟨fuel, hgive⟩ := downlinkTake_gives hr hx ht hs hc hone
  obtain ⟨t, he, htk, -, hmq⟩ := hgive _ _ (takeEntry_early hq hh hd) ((congrArg MPort.taken (countTx_port ..)).trans (takeBegun_taken ..))
  exact ⟨t, he, htk, hmq.trans (countTx_queue ..)⟩

/-- The head is due: it is sent in its link's format, and dropped and counted in another. -/
theorem downlinkTake_due (hm : q.mode = .fifo) (hk : q.markSet = false) (hd : tickDiff i.e.key (takeSlot s p) = 0) :
    let l := slotLink p (takeSlot s p) c
    let x := (s.mlink l).rec_
    ∃ t q', exec (.downlinkTake p) s = .next t ∧ t.queue? x.txQueue = some q' ∧ q'.held = rest ∧
      (txFormatOk x i.e = true → (t.mlink l).n.txSent = ((s.mlink l).n.txSent + 1) % 2 ^ 32 ∧
        (t.mport p).taken = (s.mport p).taken ++ [(takeSlot s p, ⟨l, i.e.aux % 8, i.e.aux / 128 % 4, i.e.aux / 8 % 16, some (i.e, false)⟩)]) ∧
      (txFormatOk x i.e = false → (t.mlink l).n.txFormat = ((s.mlink l).n.txFormat + 1) % 2 ^ 32 ∧
        (t.mport p).taken = (s.mport p).taken ++ [(takeSlot s p, ⟨l, 1, x.ver, x.pwr, none⟩)]) := by
  intro l x
  obtain ⟨fuel, hgive⟩ := downlinkTake_gives hr hx ht hs hc hone
  obtain ⟨u, q', huq, hheld, hmdm, htake⟩ := takeEntry_due (s := takeBegun p (takeSlot s p) s) (l := l) (fuel := fuel) hq hh hm hk hd
  have hrec : ((takeBegun p (takeSlot s p) s).mlink l).rec_ = x := rfl
  rw [hrec] at huq htake
  have hlink : u.mlink l = s.mlink l := mlink_congr hmdm l
  have htaken : (u.mport p).taken = (s.mport p).taken := (congrArg MPort.taken (mport_congr hmdm p)).trans (takeBegun_taken ..)
  cases hok : txFormatOk x i.e with
  | true =>
    rw [if_pos hok] at htake
    obtain ⟨t, he, htk, hl, hmq⟩ := hgive _ _ htake ((congrArg MPort.taken (countTx_port ..)).trans htaken)
    refine ⟨t, q', he, (congrArg (mapFind? x.txQueue) (hmq.trans (countTx_queue ..))).trans huq, hheld, fun _ => ⟨?_, htk⟩, nofun⟩
    rw [hl, countTx_sent, hlink]
  | false =>
    rw [if_neg (by simp [hok])] at htake
    obtain ⟨hfm, hfq⟩ := releaseEntry_same i.e false u
    obtain ⟨t, he, htk, hl, hmq⟩ := hgive _ _ htake ((congrArg MPort.taken ((countTx_port ..).trans (mport_congr hfm p))).trans htaken)
    refine ⟨t, q', he, (congrArg (mapFind? x.txQueue) (hmq.trans ((countTx_queue ..).trans hfq))).trans huq, hheld, nofun, fun _ => ⟨?_, htk⟩⟩
    rw [hl, countTx_format, mlink_congr hfm, hlink]

end
end

/-! ## Transmission (R349 to R363) -/

/-- What a slot's lane is made of is the same, but for the pins of the port. -/
structure AirSame (p : Nat) (s t : State) : Prop where
  amp   : (t.mport p).amp = (s.mport p).amp
  ramp  : (t.mport p).ramp = (s.mport p).ramp
  links : t.mdm.links = s.mdm.links
  regs  : RegsKept [(fMdmPpGainPaEn p).addr] s t
  rfp   : t.rfp = s.rfp
  hbm   : t.hbm = s.hbm
  seed  : t.seed = s.seed

section
variable {t : State} (h : AirSame p s t)
include h

theorem AirSame.mlink (l : Nat) : t.mlink l = s.mlink l := by unfold State.mlink; rw [h.links]

theorem AirSame.fld {f : Fld} (hf : f.addr ≠ 0xD0108 + 0x80 * p) : t.fld f = s.fld f :=
  congrArg (bits · f.lo f.w) (h.regs f.addr (by simpa [fMdmPpGainPaEn] using hf))

theorem AirSame.flag {f : Fld} (hf : f.addr ≠ 0xD0108 + 0x80 * p) : t.flag f = s.flag f := congrArg (· != 0) (h.fld hf)

theorem AirSame.onAir (c : Nat) : onAir t p c = onAir s p c := by
  unfold Machine.onAir
  rw [h.flag (by simp only [fRfpCtlEn]; omega), h.flag (by simp only [fRfpCtlTxEn]; omega), h.flag (by simp only [fRfpStatTxData]; omega),
    h.flag (by simp only [fRfpCarCtlEn]; omega)]

theorem AirSame.bufRead (a o n : Nat) : bufRead t a o n = bufRead s a o n := by
  have hlo : t.fld fSeedPoolBaseLoAddr = s.fld fSeedPoolBaseLoAddr := h.fld (by simp only [fSeedPoolBaseLoAddr]; omega)
  have hhi : t.fld fSeedPoolBaseHiAddr = s.fld fSeedPoolBaseHiAddr := h.fld (by simp only [fSeedPoolBaseHiAddr]; omega)
  unfold Machine.bufRead poolBase State.chain State.tag
  rw [hlo, hhi, h.seed, h.hbm]

theorem AirSame.packetAir (k : RadioPkt) : packetAir t p k = packetAir s p k := by
  have hsync : t.fld (fMdmPpCfgSync p) = s.fld (fMdmPpCfgSync p) := h.fld (by simp only [fMdmPpCfgSync]; omega)
  unfold Machine.packetAir
  simp only [h.amp, h.ramp, h.mlink, h.bufRead, hsync]

theorem AirSame.slotLane (f : Nat) (ks : List (Nat × RadioPkt)) : slotLane t p f ks = slotLane s p f ks := by
  have hcar : ∀ c, t.carrier p c = s.carrier p c := fun c => by unfold State.carrier State.rport; rw [h.rfp]
  have hfreq : ∀ c, t.fld (fRfpCarFreqFreq p c) = s.fld (fRfpCarFreqFreq p c) := fun c => h.fld (by simp only [fRfpCarFreqFreq]; omega)
  unfold Machine.slotLane
  simp only [h.onAir, h.packetAir, hcar, hfreq]

end

/-- The port once its slot's transmission has begun: the power amplifier is driven and the packets of the slot are no longer kept. -/
def transmitBegun (p st : Nat) (s : State) : State :=
  (s.setFld (fMdmPpGainPaEn p) (bitOf (slotTransmits s p st))).updMport p (fun m => { m with begun := true, taken := m.taken.filter (fun t => t.1 != st) })

theorem transmitBegun_port (p st : Nat) (s : State) :
    (transmitBegun p st s).mport p = { s.mport p with begun := true, taken := (s.mport p).taken.filter (fun t => t.1 != st) } := by
  unfold transmitBegun
  rw [State.mport_updMport_self]
  rfl

theorem transmitBegun_air (p st : Nat) (s : State) : AirSame p s (transmitBegun p st s) where
  amp := by rw [transmitBegun_port]
  ramp := by rw [transmitBegun_port]
  links := rfl
  regs := fun a ha => State.reg_setFld_other _ (fMdmPpGainPaEn p) _ (by simpa using ha)
  rfp := rfl
  hbm := rfl
  seed := rfl

theorem transmitBegun_paEn (p st : Nat) (s : State) : (transmitBegun p st s).fld (fMdmPpGainPaEn p) = bitOf (slotTransmits s p st) :=
  (State.fld_setFld_self _ (fMdmPpGainPaEn p) (by decide : 9 + 1 ≤ 32) _).trans (bitOf_mod _)

theorem transmitBegun_kept (p st : Nat) (s : State) : Kept [.regs, .mdm] s (transmitBegun p st s) := fun q hq => by
  cases q <;> first | rfl | simp at hq

/-- Sending the packets of a slot, one after the other. -/
abbrev sendAll (p st : Nat) (ks : List (Nat × RadioPkt)) (s : State) : State := ks.foldl (fun s k => sendPacket p k.1 st k.2 s) s

section
variable {st : Nat} (hr : modemRuns s p = true) (hs : (s.mport p).slot = some st) (hb : (s.mport p).begun = false) (hd : slotNo st < 5)
include hr hs hb hd

theorem downlinkTransmit_eq : downlinkTransmit p s =
    if (slotPackets s p st).any (fun k => onAir (transmitBegun p st s) p k.1) then
      ((sendAll p st (slotPackets s p st) (transmitBegun p st s).draw.2).emit (.radioLane p st ((transmitBegun p st s).draw.2.fld (fRfpLatAdjTx p))
        ((slotLane (transmitBegun p st s).draw.2 p (transmitBegun p st s).draw.1 (slotPackets s p st)).map (fun x => x.1)))).bump (fRfpTxClipCount p)
        ((slotLane (transmitBegun p st s).draw.2 p (transmitBegun p st s).draw.1 (slotPackets s p st)).countP (fun x => x.2))
    else sendAll p st (slotPackets s p st) (transmitBegun p st s) := by
  unfold downlinkTransmit
  rw [hs]
  dsimp only
  rw [if_neg (by simp [hr, hb, Nat.not_le.mpr hd])]
  rfl

end

/-- What sending a packet leaves: its link's SEQ counted on, and its symbols on the air where the carrier is up. -/
structure PacketSent (p c st : Nat) (k : RadioPkt) (s t : State) : Prop where
  regs : t.regs = s.regs
  port : t.mport p = s.mport p
  link : t.mlink k.link = { s.mlink k.link with seq := ((s.mlink k.link).seq + 1) % 16 }
  out  : t.out = s.out ++ if onAir s p c then [.radio p c st (packetAir s p k).1 (packetAir s p k).2] else []

theorem sendPacket_sent (p c st : Nat) (k : RadioPkt) (s : State) : PacketSent p c st k s (sendPacket p c st k s) := by
  have hlink := State.mlink_updMlink_self k.link (fun x => { x with seq := (x.seq + 1) % 16 }) s
  have air : ∀ (hold : List (Nat × Nat)) (v : State), v = { s.updMlink k.link (fun x => { x with seq := (x.seq + 1) % 16 }) with txHold := hold } →
      PacketSent p c st k s (if onAir v p c then v.emit (.radio p c st (packetAir s p k).1 (packetAir s p k).2) else v) := by
    intro hold v hv
    have ha : onAir v p c = onAir s p c := by rw [hv]; rfl
    rw [ha]
    generalize hm : OutMsg.radio p c st (packetAir s p k).1 (packetAir s p k).2 = m
    subst hv
    split
    · next h => exact ⟨rfl, rfl, hlink, by rw [if_pos h, hm]; rfl⟩
    · next h => exact ⟨rfl, rfl, hlink, by rw [if_neg h, List.append_nil]; rfl⟩
  unfold sendPacket holdUntil
  dsimp only
  split
  · split
    · exact air s.txHold _ rfl
    · exact air _ _ rfl
  · exact air s.txHold _ rfl

theorem slotPackets_none {st : Nat} (h : ∀ c, c < 12 → (s.mlink (slotLink p st c)).rec_.txEn ≠ 1) : slotPackets s p st = [] := by
  unfold slotPackets
  rw [List.filter_eq_nil_iff.mpr fun c hc => by simpa using h c (List.mem_range.mp hc)]
  rfl

/-- The packet of a transmitting link: what was taken for it, else EMPTY. -/
def slotPacket (s : State) (p st c : Nat) : RadioPkt :=
  match (s.mport p).taken.find? (fun t => t.1 == st && t.2.link == slotLink p st c) with
  | some t => t.2
  | none => takenPacket (slotLink p st c) (s.mlink (slotLink p st c)).rec_ none

theorem slotPacket_link (s : State) (p st c : Nat) : (slotPacket s p st c).link = slotLink p st c := by
  unfold slotPacket
  split
  · next t ht =>
    have := List.find?_some ht
    simp only [Bool.and_eq_true, beq_iff_eq] at this
    exact this.2
  · rfl

theorem range_filter_one {c n : Nat} (hc : c < n) {q : Nat → Bool} (h : ∀ d, d < n → (q d = true ↔ d = c)) : (List.range n).filter q = [c] := by
  have hq : (List.range n).filter q = (List.range n).filter (· == c) :=
    List.filter_congr fun d hd => by
      rw [Bool.eq_iff_iff, h d (List.mem_range.mp hd), beq_iff_eq]
  rw [hq, List.filter_beq, List.count_eq_one_of_mem List.nodup_range (List.mem_range.mpr hc)]
  rfl

theorem slotPackets_one {st c : Nat} (hc : c < 12) (h : ∀ d, d < 12 → ((s.mlink (slotLink p st d)).rec_.txEn = 1 ↔ d = c)) :
    slotPackets s p st = [(c, slotPacket s p st c)] := by
  unfold slotPackets
  rw [range_filter_one hc (by simpa using h)]
  rfl

section
variable {st : Nat} (hr : modemRuns s p = true) (hs : (s.mport p).slot = some st) (hb : (s.mport p).begun = false) (hd : slotNo st < 5)
include hr hs hb hd

/-- No link transmits in the slot. -/
theorem downlinkTransmit_none (h : ∀ c, c < 12 → (s.mlink (slotLink p st c)).rec_.txEn ≠ 1) :
    ∃ t, exec (.downlinkTransmit p) s = .next t ∧ Kept [.regs, .mdm] s t ∧
      t.mport p = { s.mport p with begun := true, taken := (s.mport p).taken.filter (fun k => k.1 != st) } ∧ t.fld (fMdmPpGainPaEn p) = 0 := by
  have hx := downlinkTransmit_eq hr hs hb hd
  rw [slotPackets_none h, List.any_nil, if_neg (by simp)] at hx
  have silent : slotTransmits s p st = false := by
    unfold slotTransmits
    rw [Bool.and_eq_false_iff]
    exact .inr (List.any_eq_false.mpr fun c hc => by simpa using h c (List.mem_range.mp hc))
  refine ⟨transmitBegun p st s, congrArg Host.Outcome.next hx, transmitBegun_kept _ _ _, transmitBegun_port .., ?_⟩
  rw [transmitBegun_paEn, silent]
  rfl

section
variable {c : Nat} (hc : c < 12) (hone : ∀ d, d < 12 → ((s.mlink (slotLink p st d)).rec_.txEn = 1 ↔ d = c))
include hc hone

omit hr hs hb in
theorem slotTransmits_one : slotTransmits s p st = true := by
  unfold slotTransmits
  rw [Bool.and_eq_true, decide_eq_true_eq]
  exact ⟨hd, List.any_eq_true.mpr ⟨c, List.mem_range.mpr hc, by simpa using (hone c hc).mpr rfl⟩⟩

/-- One link transmits: on the air its symbols and the port's lane go out, the clamped samples are counted, and its SEQ counts on. -/
theorem downlinkTransmit_one :
    let l := slotLink p st c
    let x := s.mlink l
    let k := slotPacket s p st c
    ∃ t, exec (.downlinkTransmit p) s = .next t ∧ (t.mport p).begun = true ∧ t.fld (fMdmPpGainPaEn p) = 1 ∧
      t.mlink l = { x with seq := (x.seq + 1) % 16 } ∧ (onAir s p c = false → t.out = s.out) ∧
      (onAir s p c = true → ∃ f, t.out = s.out ++ [.radio p c st (packetAir s p k).1 (packetAir s p k).2,
          .radioLane p st (s.fld (fRfpLatAdjTx p)) ((slotLane s p f (slotPackets s p st)).map (fun j => j.1))] ∧
        t.fld (fRfpTxClipCount p) = (s.fld (fRfpTxClipCount p) + (slotLane s p f (slotPackets s p st)).countP (fun j => j.2)) % 2 ^ 32) := by
  intro l x k
  have hk : k.link = l := slotPacket_link s p st c
  have hx := downlinkTransmit_eq hr hs hb hd
  have hair := transmitBegun_air p st s
  have hpa := transmitBegun_paEn p st s
  rw [slotTransmits_one hd hc hone] at hpa
  have hbegun := transmitBegun_port p st s
  have hout : (transmitBegun p st s).out = s.out := rfl
  rw [slotPackets_one hc hone] at hx ⊢
  generalize transmitBegun p st s = v at *
  rw [List.any_cons, List.any_nil, Bool.or_false, hair.onAir] at hx
  have hclip : (fMdmPpGainPaEn p).addr ≠ (fRfpTxClipCount p).addr := by simp only [fMdmPpGainPaEn, fRfpTxClipCount]; omega
  have hair' : AirSame p s v.draw.2 := ⟨hair.amp, hair.ramp, hair.links, hair.regs, hair.rfp, hair.hbm, hair.seed⟩
  cases hon : onAir s p c with
  | false =>
    rw [hon, if_neg (by simp), show sendAll p st [(c, k)] v = sendPacket p c st k v from rfl] at hx
    obtain ⟨hregs, hport, hlink, ho⟩ := sendPacket_sent p c st k v
    rw [hair.onAir, hon, if_neg (by simp), List.append_nil] at ho
    rw [hk, hair.mlink] at hlink
    exact ⟨_, congrArg Host.Outcome.next hx, by rw [hport, hbegun], (fld_congr hregs _).trans hpa, hlink, fun _ => ho.trans hout, nofun⟩
  | true =>
    rw [hon, if_pos rfl, show sendAll p st [(c, k)] v.draw.2 = sendPacket p c st k v.draw.2 from rfl, hair'.slotLane,
      hair'.fld (f := fRfpLatAdjTx p) (by simp only [fRfpLatAdjTx]; omega)] at hx
    obtain ⟨hregs, hport, hlink, ho⟩ := sendPacket_sent p c st k v.draw.2
    rw [hair'.onAir, hon, if_pos rfl, hair'.packetAir] at ho
    rw [hk, hair'.mlink] at hlink
    have hclips : (sendPacket p c st k v.draw.2).fld (fRfpTxClipCount p) = s.fld (fRfpTxClipCount p) :=
      (fld_congr hregs _).trans (hair'.fld hclip.symm)
    have hdriven : (sendPacket p c st k v.draw.2).fld (fMdmPpGainPaEn p) = 1 := (fld_congr hregs _).trans hpa
    have hport' : ((sendPacket p c st k v.draw.2).mport p).begun = true := by rw [hport]; exact (congrArg MPort.begun hbegun :)
    obtain ⟨lane, hlane⟩ : ∃ lane, slotLane s p v.draw.1 [(c, k)] = lane := ⟨_, rfl⟩
    rw [hlane] at hx
    generalize sendPacket p c st k v.draw.2 = w at *
    refine ⟨_, congrArg Host.Outcome.next hx, hport', (State.fld_setFld_other _ _ _ _ hclip).trans hdriven, hlink, nofun, fun _ => ⟨v.draw.1, ?_, ?_⟩⟩
    · rw [hlane]
      show w.out ++ [_] = _
      rw [ho, show v.draw.2.out = s.out from hout, List.append_assoc]
      rfl
    · rw [hlane]
      refine (State.fld_setFld_self _ (fRfpTxClipCount p) (by decide : 0 + 32 ≤ 32) _).trans ?_
      exact congrArg (fun n => (n + lane.countP (fun j => j.2)) % 2 ^ 32) hclips

omit hr hs hb hd hc hone in
/-- The symbols of an EMPTY packet (R350, R361). -/
theorem packetAir_empty (ht : (s.mport p).taken = []) :
    let l := slotLink p st c
    let x := s.mlink l
    (packetAir s p (slotPacket s p st c)).1 = packetDeviations (s.fld (fMdmPpCfgSync p)) (headerSymbols x.rec_.ver l 1 x.seq x.rec_.pwr) (x.rec_.mod == 1)
      (whiten l (radioCodeword (if x.rec_.mod = 1 then 48 else 24) (payloadInfo (List.replicate (if x.rec_.mod = 1 then 94 else 46) 0)))) := by
  intro l x
  have hk : slotPacket s p st c = ⟨l, 1, x.rec_.ver, x.rec_.pwr, none⟩ := by
    unfold slotPacket
    rw [ht]
    rfl
  rw [hk]
  simp only [packetAir, beq_iff_eq, x]

end
end

/-! ## Uplink slots (R364, R365, R376) -/

/-- The carriers of a port with a receiving link in a slot. -/
abbrev receivers (p st : Nat) (s : State) : List Nat := (List.range 12).filter (fun c => (s.mlink (slotLink p st c)).rec_.rxEn == 1)

/-- A reception as its slot starts. -/
abbrev rxStarted (p st : Nat) (s : State) (stage : RxStage) (status c : Nat) : RxSlot :=
  { link := slotLink p st c, start := st, rec_ := (s.mlink (slotLink p st c)).rec_, stage := stage, status := status }

/-- The port of an uplink slot that has begun. -/
abbrev uplinkBegun (p : Nat) (s : State) : State := s.updMport p (fun m => { m with begun := true })

/-- The port with its gain frozen or free and the slot's updates to make. -/
def gainSet (p v : Nat) (s : State) : State := (s.setFld (fMdmPpGainFrozen p) v).updMport p (fun m => { m with updates := 4 })

/-- The state once the receptions of a slot have started. -/
def listening (p st : Nat) (s : State) : State :=
  s.setMdm (fun m => { m with rx := m.rx ++ (receivers p st s).map (fun c =>
    rxStarted p st s (if s.flag (fRfpStatRxData p) then .search else .ended) (if s.flag (fRfpStatRxData p) then 2 else 6) c) })

section
variable {st : Nat} (hr : modemRuns s p = true) (hs : (s.mport p).slot = some st) (hb : (s.mport p).begun = false) (hd : 5 ≤ slotNo st)
include hr hs hb hd

theorem uplinkStart_repeated (hm : (s.mport p).repeat_ = true) : uplinkStart p s = uplinkBegun p s := by
  have hm' : ((uplinkBegun p s).mport p).repeat_ = true := by rw [State.mport_updMport_self]; exact hm
  unfold uplinkStart
  rw [hs]
  dsimp only
  rw [if_neg (by simp [hr, hb, Nat.not_lt.mpr hd]), if_pos hm']

theorem uplinkStart_listens (hm : (s.mport p).repeat_ = false) :
    let v := gainSet p 0 (uplinkBegun p s)
    uplinkStart p s = if v.flag (fRfpStatRxData p) || (receivers p st v).isEmpty then listening p st v else setAbandon p (listening p st v) := by
  have hm' : ¬ ((uplinkBegun p s).mport p).repeat_ = true := by rw [State.mport_updMport_self]; simp [hm]
  unfold uplinkStart
  rw [hs]
  dsimp only
  rw [if_neg (by simp [hr, hb, Nat.not_lt.mpr hd]), if_neg hm']
  rfl

end

theorem gainSet_kept (p v : Nat) (s : State) : Kept [.regs, .mdm] s (gainSet p v s) := fun q hq => by
  cases q <;> first | rfl | simp at hq

theorem gainSet_port (p v : Nat) (s : State) : (gainSet p v s).mport p = { s.mport p with updates := 4 } := by
  unfold gainSet
  rw [State.mport_updMport_self]
  rfl

theorem gainSet_frozen (p v : Nat) (s : State) : (gainSet p v s).fld (fMdmPpGainFrozen p) = v % 2 :=
  State.fld_setFld_self s (fMdmPpGainFrozen p) (by decide : 8 + 1 ≤ 32) v

theorem gainSet_flag (p v : Nat) (s : State) : (gainSet p v s).flag (fRfpStatRxData p) = s.flag (fRfpStatRxData p) :=
  congrArg (· != 0) (State.fld_setFld_other s (fMdmPpGainFrozen p) (fRfpStatRxData p) v (by simp only [fMdmPpGainFrozen, fRfpStatRxData]; omega))

theorem gainSet_links (p v : Nat) (s : State) : (gainSet p v s).mdm.links = s.mdm.links := rfl

theorem gainSet_rx (p v : Nat) (s : State) : (gainSet p v s).mdm.rx = s.mdm.rx := rfl

/-- What an uplink slot's start does before its receptions: the port and its gain alone. -/
theorem gainFreed_shown (p : Nat) (s : State) :
    (gainSet p 0 (uplinkBegun p s)).mport p = { s.mport p with begun := true, updates := 4 } ∧
    (gainSet p 0 (uplinkBegun p s)).flag (fMdmPpGainFrozen p) = false ∧
    (gainSet p 0 (uplinkBegun p s)).flag (fRfpStatRxData p) = s.flag (fRfpStatRxData p) ∧
    (gainSet p 0 (uplinkBegun p s)).mdm.links = s.mdm.links ∧ (gainSet p 0 (uplinkBegun p s)).mdm.rx = s.mdm.rx ∧
    Kept [.regs, .mdm] s (gainSet p 0 (uplinkBegun p s)) := by
  have hport : (uplinkBegun p s).mport p = { s.mport p with begun := true } := State.mport_updMport_self ..
  have hkept : Kept [.regs, .mdm] s (uplinkBegun p s) := fun q hq => by cases q <;> first | rfl | simp at hq
  refine ⟨(gainSet_port ..).trans (by rw [hport]), ?_, gainSet_flag .., gainSet_links .., gainSet_rx .., hkept.trans (gainSet_kept _ _ _)⟩
  unfold State.flag
  rw [gainSet_frozen]
  rfl

theorem abandonSet_shown (p v : Nat) (s : State) : (s.setFld (fMdmPpStatAbandon p) v).fld (fMdmPpStatAbandon p) = v % 2 ∧
    (s.setFld (fMdmPpStatAbandon p) v).mdm = s.mdm ∧ (s.setFld (fMdmPpStatAbandon p) v).fld (fMdmPpGainFrozen p) = s.fld (fMdmPpGainFrozen p) :=
  ⟨State.fld_setFld_self s (fMdmPpStatAbandon p) (by decide : 16 + 1 ≤ 32) v, rfl,
    State.fld_setFld_other s (fMdmPpStatAbandon p) (fMdmPpGainFrozen p) v (by simp only [fMdmPpGainFrozen, fMdmPpStatAbandon]; omega)⟩

/-- A cut slot sets the two sticky bits (R376, R383). -/
theorem setAbandon_shown (p : Nat) (s : State) : (setAbandon p s).flag (fMdmPpStatAbandon p) = true ∧ (setAbandon p s).flag fMdmIntStatAbandon = true ∧
    (setAbandon p s).mdm = s.mdm ∧ (setAbandon p s).flag (fMdmPpGainFrozen p) = s.flag (fMdmPpGainFrozen p) := by
  obtain ⟨hset, hmdm, hfrozen⟩ := abandonSet_shown p 1 s
  unfold setAbandon
  generalize s.setFld (fMdmPpStatAbandon p) 1 = u at *
  have hfar : ∀ f : Fld, f.addr ≠ fMdmIntStatAbandon.addr → (raiseFld 0x0D fMdmIntStatAbandon u).fld f = u.fld f := fun f h =>
    congrArg (bits · f.lo f.w) (raiseFld_reg 0x0D fMdmIntStatAbandon u h)
  refine ⟨?_, raiseFld_self _ _ (by decide) (by decide) _, (raiseFld_kept 0x0D fMdmIntStatAbandon u .mdm (by decide)).trans hmdm, ?_⟩
  · unfold State.flag
    rw [hfar _ (by simp only [fMdmPpStatAbandon, fMdmIntStatAbandon]; omega), hset]
    rfl
  · unfold State.flag
    rw [hfar _ (by simp only [fMdmPpGainFrozen, fMdmIntStatAbandon]; omega), hfrozen]

/-! ## The AGC (R365) -/

/-- A whole number of dB rounds to itself. -/
theorem rne_whole (x : Int) : rne (100 * x) 100 = x := by
  have h1 : 100 * x / ((100 : Nat) : Int) = x := by omega
  have h2 : 100 * x % ((100 : Nat) : Int) = 0 := by omega
  unfold rne
  dsimp only
  rw [h1, h2]
  rfl

/-- The AGC acts in an uplink slot with updates left, while it is on and the gain is not frozen. -/
def agcRuns (p : Nat) (s : State) : Prop :=
  agcOn s p = true ∧ s.flag (fMdmPpGainFrozen p) = false ∧ (s.mport p).updates ≠ 0 ∧ ∃ st, (s.mport p).slot = some st ∧ 5 ≤ slotNo st

theorem agcUpdate_still (x : Int) (h : ¬ agcRuns p s) : agcUpdate p x s = s := by
  unfold agcUpdate
  refine if_pos ?_
  by_contra hc
  refine h ?_
  unfold agcRuns
  cases hs : (s.mport p).slot with
  | none => simp [hs] at hc
  | some st =>
    simp only [hs, Bool.or_eq_true, Bool.not_eq_true', decide_eq_true_eq, not_or, Bool.not_eq_false, decide_eq_false_iff_not, not_not] at hc
    obtain ⟨⟨⟨⟨-, hup⟩, hon⟩, hfr⟩, hu⟩ := hc
    exact ⟨hon, by simpa using hfr, hu, st, rfl, hup⟩

/-- An update steps the gain word within its bounds, and is counted off. -/
theorem agcUpdate_steps (hr : modemRuns s p = true) (h : agcRuns p s) (d : Int) :
    Kept [.regs, .mdm] s (agcUpdate p (100 * d) s) ∧ RegsKept [(fMdmPpGainGain p).addr] s (agcUpdate p (100 * d) s) ∧
    (agcUpdate p (100 * d) s).mport p = { s.mport p with updates := (s.mport p).updates - 1 } ∧
    (agcUpdate p (100 * d) s).fld (fMdmPpGainFrozen p) = s.fld (fMdmPpGainFrozen p) ∧
    ((agcUpdate p (100 * d) s).fld (fMdmPpGainGain p) : Int) =
      max 0 (min 63 ((s.fld (fMdmPpGainGain p) : Int) + max (-6) (min 6 (-(agcTarget s p + d))))) := by
  obtain ⟨hon, hfr, hu, st, hs, hup⟩ := h
  have hstep : rne (-100 * agcTarget s p - 100 * d) 100 = -(agcTarget s p + d) := by
    rw [show -100 * agcTarget s p - 100 * d = 100 * (-(agcTarget s p + d)) by ring, rne_whole]
  obtain ⟨g, hg, hx⟩ : ∃ g : Int, g = max 0 (min 63 ((s.fld (fMdmPpGainGain p) : Int) + max (-6) (min 6 (-(agcTarget s p + d))))) ∧
      agcUpdate p (100 * d) s = (s.updMport p (fun m => { m with updates := m.updates - 1 })).setFld (fMdmPpGainGain p) g.toNat := by
    refine ⟨_, rfl, ?_⟩
    unfold agcUpdate
    dsimp only
    rw [hs]
    rw [if_neg (by simp [hr, hon, hfr, hu, hup]), hstep]
    rfl
  rw [hx]
  refine ⟨fun q hq => by cases q <;> first | rfl | simp at hq, fun a ha => State.reg_setFld_other _ (fMdmPpGainGain p) _ (by simpa using ha),
    State.mport_updMport_self p (fun m => { m with updates := m.updates - 1 }) s,
    State.fld_setFld_apart _ (fMdmPpGainGain p) (fMdmPpGainFrozen p) _ (by decide : 0 + 6 ≤ 32) (.inr (by decide : 0 + 6 ≤ 8)), ?_⟩
  rw [State.fld_setFld_self _ (fMdmPpGainGain p) (by decide : 0 + 6 ≤ 32), ← hg]
  have hlo : 0 ≤ g := hg ▸ le_max_left _ _
  have hhi : g ≤ 63 := hg ▸ max_le (by decide) (min_le_left _ _)
  show ((g.toNat % 64 : Nat) : Int) = g
  omega

end Sys2Proof.Machine
end

section
/-!
PROOFS. Slots of the radio, concluded: uplink slots in whole, what does nothing, and the statement (R45, R347 to R349, R360 to R365, R373, R376).
-/

namespace Sys2Proof.Machine

variable {s : State} {p : Nat}

/-! ## Where nothing happens -/

theorem slotBoundary_off (h : modemRuns s p = false) : slotBoundary p s = s := if_pos (by simp [h])

theorem downlinkTake_off (h : modemRuns s p = false) : downlinkTake p s = s := if_pos (by simp [h])

theorem agcUpdate_off (h : modemRuns s p = false) (x : Int) : agcUpdate p x s = s := if_pos (by simp [h])

/-- The port has nothing to send: no slot, one that has begun, an uplink one, or the modem does not run. -/
theorem downlinkTransmit_idle (h : ∀ st, (s.mport p).slot = some st → modemRuns s p = false ∨ (s.mport p).begun = true ∨ 5 ≤ slotNo st) :
    downlinkTransmit p s = s := by
  unfold downlinkTransmit
  split
  · rfl
  · next st hs => exact if_pos (by rcases h st hs with h | h | h <;> simp [h])

/-- The port has nothing to receive: no slot, one that has begun, a downlink one, or the modem does not run. -/
theorem uplinkStart_idle (h : ∀ st, (s.mport p).slot = some st → modemRuns s p = false ∨ (s.mport p).begun = true ∨ slotNo st < 5) :
    uplinkStart p s = s := by
  unfold uplinkStart
  split
  · rfl
  · next st hs => exact if_pos (by rcases h st hs with h | h | h <;> simp [h])

/-! ## An uplink slot in whole (R364, R365, R376) -/

theorem receivers_congr {t : State} (e : t.mdm.links = s.mdm.links) (st : Nat) : receivers p st t = receivers p st s := by
  unfold receivers State.mlink
  rw [e]

theorem rxStarted_congr {t : State} (e : t.mdm.links = s.mdm.links) (st : Nat) : rxStarted p st t = rxStarted p st s := by
  unfold rxStarted State.mlink
  rw [e]

/-- What listening adds: a reception on each carrier of the slot, and nothing else. -/
theorem listening_shown (p st : Nat) (s : State) :
    (listening p st s).mport p = s.mport p ∧ (listening p st s).regs = s.regs ∧ Kept [.mdm] s (listening p st s) ∧
    (s.flag (fRfpStatRxData p) = true → (listening p st s).mdm.rx = s.mdm.rx ++ (receivers p st s).map (rxStarted p st s .search 2)) ∧
    (s.flag (fRfpStatRxData p) = false → (listening p st s).mdm.rx = s.mdm.rx ++ (receivers p st s).map (rxStarted p st s .ended 6)) := by
  refine ⟨rfl, rfl, fun q hq => by cases q <;> first | rfl | simp at hq, fun h => ?_, fun h => ?_⟩
  all_goals
    unfold listening
    rw [h]
    rfl

/-- An uplink slot that is not a repeated one listens on each link with RX_EN; with the receive link down it is abandoned at once. -/
theorem uplinkStart_starts {st : Nat} (hr : modemRuns s p = true) (hs : (s.mport p).slot = some st) (hb : (s.mport p).begun = false)
    (hd : 5 ≤ slotNo st) (hm : (s.mport p).repeat_ = false) :
    ∃ t, exec (.uplinkSlotStart p) s = .next t ∧ t.mport p = { s.mport p with begun := true, updates := 4 } ∧ t.flag (fMdmPpGainFrozen p) = false ∧
      (s.flag (fRfpStatRxData p) = true → t.mdm.rx = s.mdm.rx ++ (receivers p st s).map (rxStarted p st s .search 2) ∧ Kept [.regs, .mdm] s t) ∧
      (s.flag (fRfpStatRxData p) = false → t.mdm.rx = s.mdm.rx ++ (receivers p st s).map (rxStarted p st s .ended 6) ∧
        (receivers p st s ≠ [] → t.flag (fMdmPpStatAbandon p) = true ∧ t.flag fMdmIntStatAbandon = true)) := by
  have hx := uplinkStart_listens hr hs hb hd hm
  have done : ∀ t, uplinkStart p s = t → exec (.uplinkSlotStart p) s = .next t := fun _ => congrArg Host.Outcome.next
  obtain ⟨hport, hfree, hup, hlinks, hrx, hkept⟩ := gainFreed_shown p s
  generalize gainSet p 0 (uplinkBegun p s) = v at *
  obtain ⟨lport, lregs, lkept, lup, ldown⟩ := listening_shown p st v
  rw [hup, hrx, receivers_congr hlinks, rxStarted_congr hlinks] at lup ldown
  dsimp only at hx
  rw [hup, receivers_congr hlinks] at hx
  generalize listening p st v = u at *
  have hfree' : u.flag (fMdmPpGainFrozen p) = false := (congrArg (· != 0) (fld_congr lregs _)).trans hfree
  cases hdata : s.flag (fRfpStatRxData p) with
  | true =>
    rw [if_pos (by simp [hdata])] at hx
    exact ⟨u, done u hx, lport.trans hport, hfree', fun _ => ⟨lup hdata, hkept.trans (lkept.mono (by decide))⟩, nofun⟩
  | false =>
    by_cases hnone : receivers p st s = []
    · rw [if_pos (by simp [hnone])] at hx
      exact ⟨u, done u hx, lport.trans hport, hfree', nofun, fun _ => ⟨ldown hdata, fun h => absurd hnone h⟩⟩
    · rw [if_neg (by simp [hdata, hnone])] at hx
      obtain ⟨hset, hint, hmdm, hfrozen⟩ := setAbandon_shown p u
      exact ⟨setAbandon p u, done _ hx, (mport_congr hmdm p).trans (lport.trans hport), hfrozen.trans hfree', nofun,
        fun _ => ⟨(congrArg MdmSt.rx hmdm).trans (ldown hdata), fun _ => ⟨hset, hint⟩⟩⟩

/-! ## The statement -/

/-- What the start of radio frames decides for a link with a new VER, as the statement says it. -/
theorem linkApplied_ver {st v : Nat} {x : MLink} (h1 : x.sched = none) (h2 : x.twoLvl = false) (h3 : x.verNext = some v) :
    linkApplied (st % 240 == 0) x = if st % 240 = 0 then { x with rec_ := { x.rec_ with ver := v }, verNext := none } else x := by
  obtain ⟨-, -, hver, -⟩ := linkApplied_cases (st % 240 == 0) x
  rw [hver v h1 h2 h3]
  simp only [beq_iff_eq]

theorem slotBoundary_acts (hr : modemRuns s p = true) (hx : s.txHold = []) (ht : timeOfTick (nextSlot s p) ≤ s.time.t) :
    let m := s.mport p
    let st := nextSlot s p
    ∃ t, exec (.slotBoundary p) s = .next t ∧ (t.mport p).slot = some st ∧ (t.mport p).begun = false ∧ (t.mport p).taken = m.taken ∧
      (t.mport p).agc = s.reg (0xD0104 + 0x80 * p) ∧ (t.mport p).amp = s.fld fMdmTxAmpAmp ∧ (t.mport p).ofs = m.ofs + m.ofsDue ∧ (t.mport p).ofsDue = 0 ∧
      t.fld (fMdmPpGainPaEn p) = bitOf (slotTransmits t p st) ∧ (slotNo st < 5 → t.flag (fMdmPpGainFrozen p) = true) ∧
      (∀ l x, linkPort l = p → s.mlink l = x →
        (∀ r, x.sched = some r → x.twoLvl = false → x.verNext = none → t.mlink l = { x with rec_ := r, sched := none }) ∧
        (x.sched = none → x.twoLvl = true → x.verNext = none → t.mlink l = { x with rec_ := { x.rec_ with mod := 0 }, twoLvl := false }) ∧
        (∀ v, x.sched = none → x.twoLvl = false → x.verNext = some v →
          t.mlink l = if st % 240 = 0 then { x with rec_ := { x.rec_ with ver := v }, verNext := none } else x) ∧
        (x.sched = none → x.twoLvl = false → x.verNext = none → t.mlink l = x)) ∧
      (∀ r ∈ s.mdm.rx, m.slot = some r.start → linkPort r.link = p → r.stage = .search ∨ r.stage = .header → { r with stage := .ended } ∈ t.mdm.rx) := by
  intro m st
  obtain ⟨t, he, hslot, hbegun, htaken, hagc, hamp, hofs, hdue, hpa, hfrozen, hlink, hrx⟩ := slotBoundary_enters hr hx ht
  refine ⟨t, he, hslot, hbegun, htaken, hagc, hamp, hofs, hdue, hpa, hfrozen, fun l x hl hlx => ?_, fun r hmem hstart hport hstage => ?_⟩
  · have h := hlink l hl
    rw [hlx] at h
    rw [h]
    obtain ⟨hrec, htwo, -, hsame⟩ := linkApplied_cases (st % 240 == 0) x
    exact ⟨hrec, htwo, fun v => linkApplied_ver, hsame⟩
  · rw [hrx]
    exact endSlot_ends hmem hstart hport hstage

/-- The downlink transmission of one link, with the amplitudes and, for an EMPTY packet, the symbols written out. -/
theorem downlinkTransmit_sends {st c : Nat} (hr : modemRuns s p = true) (hs : (s.mport p).slot = some st) (hb : (s.mport p).begun = false)
    (hd : slotNo st < 5) (hc : c < 12) (hone : ∀ d, d < 12 → ((s.mlink (slotLink p st d)).rec_.txEn = 1 ↔ d = c)) :
    let m := s.mport p
    let l := slotLink p st c
    let x := s.mlink l
    ∃ t, exec (.downlinkTransmit p) s = .next t ∧ (t.mport p).begun = true ∧ t.fld (fMdmPpGainPaEn p) = 1 ∧
      t.mlink l = { x with seq := (x.seq + 1) % 16 } ∧ (onAir s p c = false → t.out = s.out) ∧
      (onAir s p c = true →
        ∃ devs f, t.out = s.out ++ [.radio p c st devs ((List.range 756).map (symbolAmp m.amp m.ramp x.rec_.txAtten)),
            .radioLane p st (s.fld (fRfpLatAdjTx p)) ((slotLane s p f (slotPackets s p st)).map (fun j => j.1))] ∧
          t.fld (fRfpTxClipCount p) = (s.fld (fRfpTxClipCount p) + (slotLane s p f (slotPackets s p st)).countP (fun j => j.2)) % 2 ^ 32 ∧
          (m.taken = [] → devs = packetDeviations (s.fld (fMdmPpCfgSync p)) (headerSymbols x.rec_.ver l 1 x.seq x.rec_.pwr) (x.rec_.mod == 1)
            (whiten l (radioCodeword (if x.rec_.mod = 1 then 48 else 24) (payloadInfo (List.replicate (if x.rec_.mod = 1 then 94 else 46) 0)))))) := by
  intro m l x
  obtain ⟨t, he, hbegun, hpa, hseq, hquiet, hair⟩ := downlinkTransmit_one hr hs hb hd hc hone
  refine ⟨t, he, hbegun, hpa, hseq, hquiet, fun hon => ?_⟩
  obtain ⟨f, hout, hclip⟩ := hair hon
  have hamps : (packetAir s p (slotPacket s p st c)).2 = (List.range 756).map (symbolAmp m.amp m.ramp x.rec_.txAtten) := by
    unfold packetAir
    rw [slotPacket_link]
  rw [hamps] at hout
  exact ⟨_, f, hout, hclip, packetAir_empty⟩

/-- Settles O53, clause by clause from the rules of the slot's phases. -/
theorem radioSlots : Obligations.RadioSlots := by
  unfold Obligations.RadioSlots
  intro s p
  refine ⟨fun hoff => ?_, fun hr hx => ?_⟩
  · exact ⟨congrArg Host.Outcome.next (slotBoundary_off hoff), congrArg Host.Outcome.next (downlinkTake_off hoff),
      congrArg Host.Outcome.next (downlinkTransmit_idle fun _ _ => .inl hoff), congrArg Host.Outcome.next (uplinkStart_idle fun _ _ => .inl hoff),
      fun x => congrArg Host.Outcome.next (agcUpdate_off hoff x)⟩
  intro m
  refine ⟨slotBoundary_acts hr hx, fun ht => ⟨fun h => congrArg Host.Outcome.next (downlinkTake_none hr hx ht h), ?_⟩, fun hidle => ?_,
    fun st hs hb => ⟨fun hup => ?_, fun hdown => ?_, fun hdown => ⟨downlinkTransmit_none hr hs hb hdown, fun c hc hone => ?_⟩, fun hup => ⟨fun hm => ?_, ?_⟩⟩,
    fun d => ⟨fun hstill => ?_, fun hruns => ?_⟩⟩
  · exact fun c hserved hc hone => ⟨downlinkTake_unqueued hr hx ht hserved hc hone, fun q i rest hq hfifo hmark hheld =>
      ⟨downlinkTake_early hr hx ht hserved hc hone hq hheld, downlinkTake_due hr hx ht hserved hc hone hq hheld hfifo hmark⟩⟩
  · have idle : ∀ st, (s.mport p).slot = some st → (s.mport p).begun = true := fun st hs => hidle.resolve_left fun h => by simp [m, h] at hs
    exact ⟨congrArg Host.Outcome.next (downlinkTransmit_idle fun st hs => .inr (.inl (idle st hs))),
      congrArg Host.Outcome.next (uplinkStart_idle fun st hs => .inr (.inl (idle st hs)))⟩
  · refine congrArg Host.Outcome.next (downlinkTransmit_idle fun st' hs' => ?_)
    obtain rfl : st = st' := Option.some.inj (hs.symm.trans hs')
    exact .inr (.inr hup)
  · refine congrArg Host.Outcome.next (uplinkStart_idle fun st' hs' => ?_)
    obtain rfl : st = st' := Option.some.inj (hs.symm.trans hs')
    exact .inr (.inr hdown)
  · exact downlinkTransmit_sends hr hs hb hdown hc hone
  · exact congrArg Host.Outcome.next (uplinkStart_repeated hr hs hb hup hm)
  · exact uplinkStart_starts hr hs hb hup
  · exact congrArg Host.Outcome.next (agcUpdate_still _ hstill)
  · exact ⟨_, rfl, agcUpdate_steps hr hruns d⟩

end Sys2Proof.Machine
end

section
/-!
PROOFS. Links, paths and skew partners of the Ethernet ports (R70, R83, R84, R92, R469): what a link change shows, and what the two timeouts leave
after the cycles that pass until them.
-/

namespace Sys2Proof.Machine

variable {s : State}

/-! ## Counters of cycles (R146, R159, R173, R448 to R452) -/

/-- An address at which no counter of cycles and no overflow flag of a PMU stands. -/
abbrev OffCounts (a : Nat) : Prop :=
  a ≠ fBullDoneStallCycles.addr ∧ a ≠ fGhNoslotCycles.addr ∧ a ≠ fPackCapWaitCycles.addr ∧ a % 0x20 ≠ 0x18 ∧ a % 0x1000 ≠ 0xc

/-- Cycles have been counted: of the host interface only pending interrupts have changed, and of the registers only the counters. -/
structure CyclesCounted (s t : State) : Prop where
  hif  : ∃ b, t.hif = { s.hif with pba := b }
  regs : ∀ a, OffCounts a → t.reg a = s.reg a

theorem CyclesCounted.refl (s : State) : CyclesCounted s s := ⟨⟨s.hif.pba, rfl⟩, fun _ _ => rfl⟩

theorem CyclesCounted.trans {s t u : State} (h : CyclesCounted s t) (g : CyclesCounted t u) : CyclesCounted s u := by
  obtain ⟨b, hb⟩ := h.hif
  obtain ⟨c, hc⟩ := g.hif
  exact ⟨⟨c, by rw [hc, hb]⟩, fun a ha => (g.regs a ha).trans (h.regs a ha)⟩

theorem Mild.cyclesCounted {ps : List Part} {as : List Nat} {s t : State} (m : Mild ps as s t) (ha : ∀ a ∈ as, ¬ OffCounts a) : CyclesCounted s t :=
  ⟨m.hif, fun a h => m.regs a fun hm => ha a hm h⟩

theorem foldl_cyclesCounted {β : Type} {f : State → β → State} (hf : ∀ s x, CyclesCounted s (f s x)) : ∀ (l : List β) (s : State),
    CyclesCounted s (l.foldl f s)
  | [], s => CyclesCounted.refl s
  | x :: l, s => (hf s x).trans (foldl_cyclesCounted hf l _)

theorem bump_cyclesCounted {f : Fld} (hf : ¬ OffCounts f.addr) (k : Nat) (s : State) : CyclesCounted s (s.bump f k) :=
  (bump_mild f k s).cyclesCounted (by simpa using hf)

/-- The overflow flags of a PMU stand at 0xC of its page. -/
theorem pmuOvf_counts (set : Nat) : ∀ a ∈ [(fPmuOvfPmc set).addr], ¬ OffCounts a := by
  have page : (pmuBase set + 0xc) % 0x1000 = 0xc := by
    unfold pmuBase
    split_ifs <;> omega
  simp only [List.mem_singleton, forall_eq]
  exact fun h => h.2.2.2.2 page

theorem pmuEvent_cyclesCounted (set ev n : Nat) (s : State) : CyclesCounted s (pmuEvent set ev n s) :=
  (pmuEvent_mild set ev n s).cyclesCounted (pmuOvf_counts set)

theorem pmuSync_cyclesCounted (set : Nat) (s : State) : CyclesCounted s (pmuSync set s) :=
  (pmuSync_mild set s).cyclesCounted (pmuOvf_counts set)

theorem pmuCoreTime_cyclesCounted (set k : Nat) (s : State) : CyclesCounted s (pmuCoreTime set k s) := by
  unfold pmuCoreTime
  extract_lets c
  have mode : CyclesCounted s (match c.mode with
      | .run => pmuEvent set 0x032 (match c.stall with | .xwait | .done _ => k | _ => 0) (pmuEvent set 0x002 k s)
      | .wait => if inSpare s set then s else pmuEvent set 0x003 k s
      | .doneWait => pmuEvent set 0x004 k s
      | _ => s) := by
    split
    · exact (pmuEvent_cyclesCounted ..).trans (pmuEvent_cyclesCounted ..)
    · split
      · exact CyclesCounted.refl s
      · exact pmuEvent_cyclesCounted ..
    · exact pmuEvent_cyclesCounted ..
    · exact CyclesCounted.refl s
  split
  · split
    · exact mode
    · exact mode
    · exact CyclesCounted.refl s
  · exact CyclesCounted.refl s

theorem stallTime_cyclesCounted (n : Nat) (s : State) : CyclesCounted s (stallTime n s) := by
  have bumped : ∀ (c : Prop) [Decidable c] (f : Fld) (k : Nat) (s : State), ¬ OffCounts f.addr →
      CyclesCounted s (if c then s.bump f k else s) := by
    intro c _ f k s hf
    split
    · exact bump_cyclesCounted hf k s
    · exact CyclesCounted.refl s
  unfold stallTime
  extract_lets stalled s1 s2 s3 s4
  have h1 : CyclesCounted s s1 := by
    unfold s1
    split
    · exact CyclesCounted.refl s
    · exact bump_cyclesCounted (f := fBullDoneStallCycles) (by decide) _ _
  have h2 : CyclesCounted s1 s2 := by
    unfold s2
    split
    · next g _ _ =>
      refine bump_cyclesCounted (f := fBullBeatStallCycles g) (fun h => h.2.2.2.1 ?_) _ _
      simp only [fBullBeatStallCycles]
      omega
    · exact CyclesCounted.refl _
  have h4 : CyclesCounted s2 s4 := (bumped _ fGhNoslotCycles _ s2 (by decide)).trans (bumped _ fPackCapWaitCycles _ s3 (by decide))
  refine ((h1.trans h2).trans h4).trans (foldl_cyclesCounted (fun t p => ?_) _ _)
  split
  · exact pmuEvent_cyclesCounted ..
  · exact CyclesCounted.refl t

theorem advance_cyclesCounted (n : Nat) (s : State) : CyclesCounted s (advance n s) := by
  unfold advance
  split
  · exact CyclesCounted.refl s
  · have before := (stallTime_cyclesCounted n s).trans
      (foldl_cyclesCounted (fun s (p : Nat × PmuSet) => pmuCoreTime_cyclesCounted p.1 (n * coreCycles) s) s.pmu _)
    have tick : ∀ u : State, CyclesCounted u (ticked n u) := fun u => ⟨⟨u.hif.pba, rfl⟩, fun _ _ => rfl⟩
    exact (before.trans (tick _)).trans (foldl_cyclesCounted (fun s (p : Nat × PmuSet) => pmuSync_cyclesCounted p.1 s) _ _)

theorem advance_net (n : Nat) (s : State) : (advance n s).net = s.net := (advance_counts n s).kept .net (by decide)

/-- Time that is let run to an instant has reached it, whether it lay ahead or not. -/
theorem advanceTo_ends (hr : -rateMax ≤ s.time.rate) (target : Nat) : target ≤ (advanceTo target s).time.t := by
  rcases Nat.le_total s.time.t target with hle | hle
  · exact (advanceTo_reaches (timeInc_pos hr) hle).1
  · rw [advanceTo_passed hle]; exact hle

/-- The instant of a tick lies in the tick (R43). -/
theorem tick_reached {T : Nat} (h : timeOfTick T ≤ s.time.t) : T ≤ s.tick := by
  unfold timeOfTick at h
  unfold State.tick tickOf
  omega

/-! ## Link changes (R70, R92, R97) -/

theorem raiseFld_reg_set (src : Nat) (f : Fld) (s : State) (b : Nat) : (raiseFld src f s).reg b = (s.setFld f 1).reg b := by
  unfold raiseFld notify
  split
  · exact sendMsi_reg ..
  · rfl

theorem raiseFld_flag_other (src : Nat) {f g : Fld} (h : g.addr ≠ f.addr) (s : State) : (raiseFld src f s).flag g = s.flag g :=
  congrArg (fun w => bits w g.lo g.w != 0) (raiseFld_reg src f s h)

section
variable {p : Nat} {hi : Bool}

/-- The status of a port whose link is up. -/
def linkShown (p a : Nat) (hi : Bool) (s : State) : State :=
  (((s.setFld (fNetStatLink p) 1).setFld (fNetStatAnDone p) a).setFld (fNetStatFecLock p) 1).setFld (fNetStatHiSer p) (bitOf hi)

/-- The status of a port whose link is down, before the loss is latched. -/
def linkCleared (p : Nat) (s : State) : State :=
  (((s.setFld (fNetStatLink p) 0).setFld (fNetStatAnDone p) 0).setFld (fNetStatFecLock p) 0).setFld (fNetStatHiSer p) 0

theorem linkChange_ignored (up : Bool) (he : s.flag (fNetCtlEn p) = false) : linkChange p up hi s = s := if_neg (by simp [he])

theorem linkChange_up (hp : p < 4) (he : s.flag (fNetCtlEn p) = true) : ∃ a, linkChange p true hi s = linkShown p a hi s :=
  ⟨_, (if_pos (by simp [hp, he])).trans rfl⟩

theorem linkChange_down (hp : p < 4) (he : s.flag (fNetCtlEn p) = true) (hl : s.flag (fNetStatLink p) = true) :
    linkChange p false hi s = raiseFld (8 + p) (fNetStatLinkLost p) (linkCleared p s) :=
  (if_pos (by simp [hp, he])).trans (if_pos hl)

/-- Four writes to the status register of a port change it alone. -/
theorem netStat_mild (p a b c d : Nat) (s : State) :
    Mild [] [(fNetStatLink p).addr] s ((((s.setFld (fNetStatLink p) a).setFld (fNetStatAnDone p) b).setFld (fNetStatFecLock p) c).setFld (fNetStatHiSer p) d) :=
  (((setFld_mild (fNetStatLink p) a s).trans (setFld_mild (fNetStatAnDone p) b _)).trans (setFld_mild (fNetStatFecLock p) c _)).trans
    (setFld_mild (fNetStatHiSer p) d _)

/-- Writes to the other fields of the status leave LINK. -/
theorem netStat_link (p a b c d : Nat) (s : State) :
    ((((s.setFld (fNetStatLink p) a).setFld (fNetStatAnDone p) b).setFld (fNetStatFecLock p) c).setFld (fNetStatHiSer p) d).fld (fNetStatLink p) = a % 2 :=
  (State.fld_setFld_apart _ (fNetStatHiSer p) (fNetStatLink p) d (by decide : 3 + 1 ≤ 32) (.inl (by decide : 0 + 1 ≤ 3))).trans
    ((State.fld_setFld_apart _ (fNetStatFecLock p) (fNetStatLink p) c (by decide : 2 + 1 ≤ 32) (.inl (by decide : 0 + 1 ≤ 2))).trans
      ((State.fld_setFld_apart _ (fNetStatAnDone p) (fNetStatLink p) b (by decide : 1 + 1 ≤ 32) (.inl (by decide : 0 + 1 ≤ 1))).trans
        (State.fld_setFld_self s (fNetStatLink p) (by decide : 0 + 1 ≤ 32) a)))

/-- They leave the latched loss. -/
theorem netStat_lost (p a b c d : Nat) (s : State) :
    ((((s.setFld (fNetStatLink p) a).setFld (fNetStatAnDone p) b).setFld (fNetStatFecLock p) c).setFld (fNetStatHiSer p) d).fld (fNetStatLinkLost p) =
      s.fld (fNetStatLinkLost p) :=
  (State.fld_setFld_apart _ (fNetStatHiSer p) (fNetStatLinkLost p) d (by decide : 3 + 1 ≤ 32) (.inr (by decide : 3 + 1 ≤ 16))).trans
    ((State.fld_setFld_apart _ (fNetStatFecLock p) (fNetStatLinkLost p) c (by decide : 2 + 1 ≤ 32) (.inr (by decide : 2 + 1 ≤ 16))).trans
      ((State.fld_setFld_apart _ (fNetStatAnDone p) (fNetStatLinkLost p) b (by decide : 1 + 1 ≤ 32) (.inr (by decide : 1 + 1 ≤ 16))).trans
        (State.fld_setFld_apart s (fNetStatLink p) (fNetStatLinkLost p) a (by decide : 0 + 1 ≤ 32) (.inr (by decide : 0 + 1 ≤ 16)))))

theorem netCtl_apart (p : Nat) : (fNetCtlEn p).addr ≠ (fNetStatLink p).addr := by
  simp only [fNetCtlEn, fNetStatLink]
  omega

/-- What a port shows of a link that has come up. -/
theorem linkShown_shows (he : s.flag (fNetCtlEn p) = true) (a : Nat) :
    Kept [.regs] s (linkShown p a hi s) ∧ RegsKept [(fNetStatLink p).addr] s (linkShown p a hi s) ∧ linkUp (linkShown p a hi s) p = true ∧
      (linkShown p a hi s).fld (fNetStatHiSer p) = bitOf hi ∧ (linkShown p a hi s).fld (fNetStatLinkLost p) = s.fld (fNetStatLinkLost p) := by
  have hmild := netStat_mild p 1 a 1 (bitOf hi) s
  refine ⟨?_, hmild.regs, ?_, (State.fld_setFld_self _ (fNetStatHiSer p) (by decide : 3 + 1 ≤ 32) _).trans (bitOf_mod hi), netStat_lost ..⟩
  · exact (((setFld_kept _ _ s).trans (setFld_kept _ _ _)).trans (setFld_kept _ _ _)).trans (setFld_kept _ _ _)
  · have hen : (linkShown p a hi s).flag (fNetCtlEn p) = true :=
      (congrArg (fun w => bits w 0 1 != 0) (hmild.regs _ (by simpa using netCtl_apart p))).trans he
    have hlink : (linkShown p a hi s).flag (fNetStatLink p) = true := congrArg (· != 0) (netStat_link ..)
    unfold linkUp
    rw [hen, hlink]
    rfl

/-- What a port shows of a link that has gone down. -/
theorem linkDown_shows (p : Nat) (s : State) :
    let t := raiseFld (8 + p) (fNetStatLinkLost p) (linkCleared p s)
    Kept [.regs, .out, .hif] s t ∧ RegsKept [(fNetStatLink p).addr] s t ∧ t.flag (fNetStatLink p) = false ∧ t.flag (fNetStatLinkLost p) = true := by
  have hmild : Mild [] [(fNetStatLink p).addr] s _ :=
    (netStat_mild p 0 0 0 0 s).trans (raiseFld_mild (8 + p) (fNetStatLinkLost p) (linkCleared p s))
  refine ⟨hmild.kept.mono (by decide), hmild.regs, ?_, raiseFld_self _ _ (by decide : 16 + 1 ≤ 32) (by decide : 0 < 1) _⟩
  have hlink : ((linkCleared p s).setFld (fNetStatLinkLost p) 1).fld (fNetStatLink p) = 0 :=
    (State.fld_setFld_apart _ (fNetStatLinkLost p) (fNetStatLink p) 1 (by decide : 16 + 1 ≤ 32) (.inl (by decide : 0 + 1 ≤ 16))).trans (netStat_link ..)
  exact (congrArg (fun w => bits w 0 1 != 0) (raiseFld_reg_set ..)).trans (congrArg (· != 0) hlink)

end

/-! ## The end of a path (R83, R469) -/

/-- A flow event joins the queue, or is lost and counted where the queue is full. -/
theorem flowEvent_joins (fl : Nat) (b : Bool) (h : s.hif.flowEv.length < 64) :
    (flowEvent fl b s).hif.flowEv = s.hif.flowEv ++ [(fl, b)] ∧ (flowEvent fl b s).flag (fHifIntStat.bit 2) = true := by
  have e : flowEvent fl b s = raiseFld 0x12 (fHifIntStat.bit 2) (s.setHif (fun h => { h with flowEv := h.flowEv ++ [(fl, b)] })) :=
    if_neg (Nat.not_le.mpr h)
  obtain ⟨c, hc⟩ := (raiseFld_mild 0x12 (fHifIntStat.bit 2) (s.setHif (fun h => { h with flowEv := h.flowEv ++ [(fl, b)] }))).hif
  rw [e]
  exact ⟨by rw [hc]; rfl, raiseFld_self _ _ (by decide) (by decide) _⟩

theorem flowEvent_lost (fl : Nat) (b : Bool) (h : 64 ≤ s.hif.flowEv.length) :
    (flowEvent fl b s).hif.flowEv = s.hif.flowEv ∧ (flowEvent fl b s).flag (fHifIntStat.bit 3) = true ∧
      (flowEvent fl b s).fld fHifFlowevLostCount = (s.fld fHifFlowevLostCount + 1) % 2 ^ 32 := by
  have e : flowEvent fl b s = raiseFld 0x12 (fHifIntStat.bit 3) (s.bump fHifFlowevLostCount 1) := if_pos h
  obtain ⟨c, hc⟩ := (raiseFld_mild 0x12 (fHifIntStat.bit 3) (s.bump fHifFlowevLostCount 1)).hif
  rw [e]
  refine ⟨by rw [hc]; rfl, raiseFld_self _ _ (by decide) (by decide) _, ?_⟩
  exact (congrArg (bits · 0 32) (raiseFld_reg 0x12 (fHifIntStat.bit 3) _ (by decide))).trans (State.fld_setFld_self s fHifFlowevLostCount (by decide) _)

section
variable {fl : Nat} {b : Bool} {x : RxFlow} (hx : mapFind? fl s.net.rx = some x)
include hx

theorem pathDown_idle (h : (x.path b).up = false) : pathDown fl b s = s := by
  unfold pathDown
  rw [hx]
  exact if_neg (by simp [h])

/-- A path that ends once its next packet is late. -/
def pathEnded (x : RxFlow) (b : Bool) : RxFlow := x.updPath b (fun a => { a with up := false, down := (a.down + 1) % W32 })

/-- The tick that ends a path: PATH_TO after its last packet, and one more. -/
def pathEnd (x : RxFlow) (b : Bool) (s : State) : Nat :=
  (x.path b).last + s.fld (fNetPathToTicks (if b then x.blk.keyB else x.blk.keyA).port) + 1

theorem pathDown_ends {u : State} (h : (x.path b).up = true) (hu : advanceTo (timeOfTick (pathEnd x b s)) s = u) (hn : u.net = s.net) :
    pathDown fl b s = flowEvent fl b (u.setNet (fun n => { n with rx := mapInsert fl (pathEnded x b) n.rx })) := by
  have hf : mapFind? fl u.net.rx = some x := by rw [hn]; exact hx
  have hends := updRx_found hf (fun x => x.updPath b (fun a => { a with up := false, down := (a.down + 1) % W32 }))
  unfold pathEnd at hu
  unfold pathDown
  rw [hx]
  simp only [h, if_true]
  rw [hu, hends]
  rfl

/-- A silent path goes DOWN after PATH_TO, counted, with an event for the host. -/
theorem pathTimeout_ends (h : (x.path b).up = true) (hr : -rateMax ≤ s.time.rate) :
    ∃ t y, exec (.pathTimeout fl b) s = .next t ∧ mapFind? fl t.net.rx = some y ∧ (y.path b).up = false ∧
      (y.path b).down = ((x.path b).down + 1) % 2 ^ 32 ∧ y.path (!b) = x.path (!b) ∧
      (x.path b).last + s.fld (fNetPathToTicks (if b then x.blk.keyB else x.blk.keyA).port) < t.tick ∧
      (s.hif.flowEv.length < 64 → t.hif.flowEv = s.hif.flowEv ++ [(fl, b)] ∧ t.flag (fHifIntStat.bit 2) = true) ∧
      (64 ≤ s.hif.flowEv.length → t.hif.flowEv = s.hif.flowEv ∧ t.flag (fHifIntStat.bit 3) = true ∧
        t.fld fHifFlowevLostCount = (s.fld fHifFlowevLostCount + 1) % 2 ^ 32) := by
  obtain ⟨n, hn⟩ : ∃ n, advanceTo (timeOfTick (pathEnd x b s)) s = advance n s := ⟨_, rfl⟩
  have hdown := pathDown_ends hx h hn (advance_net n s)
  have hreach := advanceTo_ends hr (timeOfTick (pathEnd x b s))
  obtain ⟨⟨c, hhif⟩, hregs⟩ := advance_cyclesCounted n s
  rw [hn] at hreach
  generalize advance n s = u at *
  set v := u.setNet (fun n => { n with rx := mapInsert fl (pathEnded x b) n.rx }) with hv
  have hev : v.hif.flowEv = s.hif.flowEv := show u.hif.flowEv = _ by rw [hhif]
  have hcount : v.fld fHifFlowevLostCount = s.fld fHifFlowevLostCount := congrArg (bits · 0 32) (hregs fHifFlowevLostCount.addr (by decide))
  have hw : Within (· ∈ [.hif, .out, .regs]) v (flowEvent fl b v) := flowEvent_within (fun _ h => h) (Within.refl v)
  have htick : (flowEvent fl b v).tick = u.tick := congrArg (fun t : TimeSt => tickOf t.t) (hw.same .time (by decide))
  refine ⟨_, pathEnded x b, congrArg Host.Outcome.next hdown, ?_, ?_, ?_, RxFlow.path_updPath_other .., ?_, fun hlen => ?_, fun hlen => ?_⟩
  · rw [hw.same .net (by decide)]
    exact mapFind?_insert_self ..
  · exact congrArg RxPath.up (RxFlow.path_updPath_self ..)
  · exact congrArg RxPath.down (RxFlow.path_updPath_self ..)
  · rw [htick]
    exact tick_reached hreach
  · rw [← hev]
    exact flowEvent_joins fl b (hev ▸ hlen)
  · rw [← hev, ← hcount]
    exact flowEvent_lost fl b (hev ▸ hlen)

end

/-! ## Skew partners (R84) -/

section
variable {fl seq : Nat} {b : Bool} {x : RxFlow} (hx : mapFind? fl s.net.rx = some x)
include hx

theorem skewMiss_none (h : x.pend.find? (fun p => p.seq == seq && p.pathB == b) = none) : skewMiss fl b seq s = s := by
  unfold skewMiss
  rw [hx]
  dsimp only
  rw [h]

/-- A copy whose partner stays away for LIMIT_NS is forgotten and counted. -/
theorem skewMiss_forgets {p : SkewPend} (h : x.pend.find? (fun p => p.seq == seq && p.pathB == b) = some p) :
    skewMiss fl b seq s = (advanceSince p.at_ (nsCycles (limitNs x)) s).setNet (fun n => { n with
      rx := mapInsert fl { x with pend := x.pend.filter (· != p), miss := (x.miss + 1) % W32 } n.rx }) := by
  have hu : mapFind? fl (advanceSince p.at_ (nsCycles (limitNs x)) s).net.rx = some x := by
    unfold advanceSince
    rw [advance_net]
    exact hx
  unfold skewMiss
  rw [hx]
  dsimp only
  rw [h]
  exact updRx_found hu _

theorem skewPartnerTimeout_forgets {p : SkewPend} (h : x.pend.find? (fun p => p.seq == seq && p.pathB == b) = some p) :
    ∃ t, exec (.skewPartnerTimeout fl b seq) s = .next t ∧ p.at_ + (limitNs x + 39) / 40 ≤ t.clk ∧
      mapFind? fl t.net.rx = some { x with pend := x.pend.filter (· != p), miss := (x.miss + 1) % 2 ^ 32 } ∧
      ∀ j, j ≠ fl → mapFind? j t.net.rx = mapFind? j s.net.rx := by
  obtain ⟨n, hn, hge⟩ : ∃ n, advanceSince p.at_ (nsCycles (limitNs x)) s = advance n s ∧ p.at_ + (limitNs x + 39) / 40 ≤ s.clk + n :=
    ⟨_, rfl, by unfold nsCycles; omega⟩
  have hmiss := skewMiss_forgets hx h
  rw [hn] at hmiss
  refine ⟨_, congrArg Host.Outcome.next hmiss, ?_, mapFind?_insert_self .., fun j hj => ?_⟩
  · exact hge.trans (advance_clk n s).ge
  · refine (mapFind?_insert_other hj _ _).trans ?_
    rw [advance_net]

end

/-- Settles O39: what a link shows, then the two timeouts. -/
theorem linkAndPathEvents : Obligations.LinkAndPathEvents := by
  unfold Obligations.LinkAndPathEvents
  refine ⟨fun s p up hi hp => ⟨fun he => ?_, fun he hup => ?_, fun he hup hl => ?_⟩, fun s fl b => ⟨fun hx => ?_, fun x hx => ⟨fun h => ?_, pathTimeout_ends hx⟩⟩,
    fun s fl seq b x hx => ⟨fun h => ?_, fun p h => skewPartnerTimeout_forgets hx h⟩⟩
  · exact congrArg Host.Outcome.next (linkChange_ignored up he)
  · subst hup
    obtain ⟨a, ha⟩ := linkChange_up (hi := hi) hp he
    exact ⟨_, congrArg Host.Outcome.next ha, linkShown_shows he a⟩
  · subst hup
    exact ⟨_, congrArg Host.Outcome.next (linkChange_down hp he hl), linkDown_shows p s⟩
  · refine congrArg Host.Outcome.next ?_
    unfold pathDown
    rw [hx]
  · exact congrArg Host.Outcome.next (pathDown_idle hx h)
  · exact congrArg Host.Outcome.next (skewMiss_none hx h)

end Sys2Proof.Machine
end

section
/-!
PROOFS. The media FIFO of a port (R73, R74, R181, R192): a head packet that its allocation accepts is admitted, and with no pool credit is not asked for.
-/

namespace Sys2Proof.Machine

variable {s : State}

/-- With no pool but granules by the totals, an allocation is accepted whatever the account's credit: R192 sets the credit check aside there. -/
theorem seedAlloc_poolless {n : Nat} (hp : poolSize s = 0) (hn : n ≤ s.seed.freeA) (a : Nat) (st : GranSt) : ∃ h t, seedAlloc a n st s = (.ok h, t) := by
  unfold seedAlloc
  dsimp only
  rw [if_neg (by simp [hp]), if_neg (Nat.not_lt.mpr hn)]
  exact ⟨_, _, rfl⟩

/-- A head packet whose allocation is accepted leaves the FIFO (R74, R80). -/
theorem admitHead_admits {p a h : Nat} {m : MediaPkt} {rest : List MediaPkt} {t : State} (hf : (s.port p).fifo = m :: rest)
    (ha : attached s (0x40 + 8 * p) = some a) (hq : (s.queue? m.queue).isNone = false) (hr : m.refused = false)
    (halloc : seedAlloc a (granulesFor (32 + (rtpPayload m.rtp).length)) .owned s = (.ok h, t)) : ((admitHead p s).port p).fifo = rest := by
  have hadmit : ∃ (u : State) (e : Entry), admitHead p s = mqPush m.queue e (u.updPort p (fun q => { q with fifo := rest })) := by
    unfold admitHead
    rw [hf]
    dsimp only
    rw [ha]
    dsimp only
    rw [hq, hr, Bool.and_false, halloc]
    exact ⟨_, _, rfl⟩
  obtain ⟨u, e, hadmit⟩ := hadmit
  have hnet : (admitHead p s).net = (u.updPort p (fun q => { q with fifo := rest })).net := by
    rw [hadmit]
    exact (mqPush_within (Ω := (· ∈ [.flash, .flc, .free, .hbm, .hif, .mq, .out, .pmu, .regs, .seed, .ump])) (fun _ h => h) (Within.refl _)).same .net (by decide)
  unfold State.port
  rw [hnet]
  exact congrArg PortSt.fifo (State.port_updPort_self ..)

/-- Refutes O38: the clause of a packet that waits asks credit of every state, but a device with no pool (POOL_GRAN = 0) asks none (R192). With a granule
free by the totals and an account of quota 0, the head packet is admitted, where the statement has it stay in the FIFO and be marked as refused.
The statement lacks the hypothesis that there is a pool: in this state the totals count a granule that no pool holds (R186). -/
theorem not_portFifos : ¬ Obligations.PortFifos := by
  unfold Obligations.PortFifos
  intro holds
  let m : MediaPkt :=
    { bytes := 64, flow := 7, pathB := false, queue := 9, key := 0, half := false, tci := none, dscp := 0, time := 0
      rtp := { version := 2, ext := false, pad := false, cc := 0, marker := false, pt := 98, seq := 0, ts := 0, ssrc := 0, body := [] } }
  let s : State :=
    { glb := { rollback := 0 }
      net := { ports := [(1, { fifo := [m] })] }
      mq := [(9, { mode := .ordered, depth := 16, retain := 0, account := 2 })]
      seed := { accts := [(1, { kind := .port, quota := 0, attach := 0x48 })], freeA := 1, freeB := 1 } }
  have hpool : poolSize s = 0 := by decide
  obtain ⟨h, t, halloc⟩ := seedAlloc_poolless (n := granulesFor (32 + (rtpPayload m.rtp).length)) hpool (by decide) 1 .owned
  have hadmits : ((admitHead 1 s).port 1).fifo = [] := admitHead_admits (p := 1) (a := 1) (m := m) rfl rfl rfl rfl halloc
  obtain ⟨-, -, -, hmedia⟩ := holds s 1
  obtain ⟨-, hattached⟩ := hmedia m [] rfl
  obtain ⟨-, -, hwaits, -⟩ := hattached 1 rfl
  obtain ⟨u, he, hfifo, -⟩ := hwaits (by decide) (by decide) rfl
  obtain rfl : admitHead 1 s = u := Host.Outcome.next.inj he
  rw [hadmits] at hfifo
  cases hfifo

end Sys2Proof.Machine
end

section
/-!
PROOFS. What a frame that a port receives leaves alone (R73, R97), in loopback too: egress flows, addresses, waiting copies and every register but the
counters of reception.
-/

namespace Sys2Proof.Machine

variable {s : State} {p : Nat}

/-- Registers that a received frame may change: the counters of reception of its port and the overflow flags of the port's PMU. -/
abbrev receptionRegs (p : Nat) : List Nat :=
  (fPmuOvfPmc (260 + p)).addr :: [0x30, 0x34, 0x38, 0x3c, 0x40, 0x44, 0x48, 0x4c, 0x60, 0x64].map (fun off => (netCounter p off).addr)

/-- Egress flows, the addresses of the ports and the copies that wait there are the same. -/
structure EgressSame (s t : State) : Prop where
  tx    : t.net.tx = s.net.tx
  ports : ∀ q, (t.port q).addr = (s.port q).addr ∧ (t.port q).copies = (s.port q).copies

theorem EgressSame.refl (s : State) : EgressSame s s := ⟨rfl, fun _ => ⟨rfl, rfl⟩⟩

theorem EgressSame.trans {s t u : State} (h : EgressSame s t) (g : EgressSame t u) : EgressSame s u :=
  ⟨g.tx.trans h.tx, fun q => ⟨(g.ports q).1.trans (h.ports q).1, (g.ports q).2.trans (h.ports q).2⟩⟩

theorem EgressSame.of_net {s t : State} (h : t.net = s.net) : EgressSame s t :=
  ⟨congrArg NetSt.tx h, fun q => by unfold State.port; rw [h]; exact ⟨rfl, rfl⟩⟩

/-- A frame has been received: interrupts apart, only counters of reception, FIFOs and ingress flows have changed. -/
structure Receives (p : Nat) (s t : State) : Prop where
  mild   : Mild [.pmu, .net] (receptionRegs p) s t
  egress : EgressSame s t

theorem Receives.refl (p : Nat) (s : State) : Receives p s s := ⟨Mild.refl _ _ s, EgressSame.refl s⟩

theorem Receives.trans {s t u : State} (h : Receives p s t) (g : Receives p t u) : Receives p s u := ⟨h.mild.trans g.mild, h.egress.trans g.egress⟩

theorem received_receives (p : Nat) (f : Frame) (s : State) : Receives p s (received p f s) :=
  ⟨(received_mild p f s).mono (by simp) (by simp [receptionRegs]), .of_net (received_net p f s)⟩

theorem bump_receives {off : Nat} (h : off ∈ [0x30, 0x34, 0x38, 0x3c, 0x40, 0x44, 0x48, 0x4c, 0x60, 0x64]) (k : Nat) (s : State) :
    Receives p s (s.bump (netCounter p off) k) :=
  ⟨(bump_mild (netCounter p off) k s).mono (by simp)
    (by simpa using .inr (by simpa using h)), .of_net rfl⟩

theorem setNet_mild (g : NetSt → NetSt) (s : State) : Mild [.net] [] s (s.setNet g) := mild_of (setNet_kept g s) rfl rfl rfl

theorem updRx_receives (fl : Nat) (g : RxFlow → RxFlow) (s : State) : Receives p s (s.updRx fl g) := by
  unfold State.updRx
  split
  · exact ⟨(setNet_mild _ s).mono (by simp) (by simp), rfl, fun _ => ⟨rfl, rfl⟩⟩
  · exact Receives.refl p s

/-- A packet joins or leaves a FIFO of the port. -/
theorem updPort_receives (s : State) {g : PortSt → PortSt} (hg : ∀ x, (g x).addr = x.addr ∧ (g x).copies = x.copies) : Receives p s (s.updPort p g) := by
  refine ⟨(setNet_mild _ s).mono (by simp) (by simp), rfl, fun q => ?_⟩
  by_cases h : q = p
  · subst h; rw [State.port_updPort_self]; exact hg _
  · rw [State.port_updPort_other h]; exact ⟨rfl, rfl⟩

theorem acceptMedia_receives (fl : Nat) (b : Bool) (x : RxFlow) (f : Frame) (s : State) : Receives p s (acceptMedia p fl b x f s) := by
  unfold acceptMedia
  split
  · exact bump_receives (by decide) 1 s
  · refine (updRx_receives fl (fun _ => _) s).trans (updPort_receives _ ?_)
    exact fun _ => ⟨rfl, rfl⟩

theorem netReceive_receives (p : Nat) (f : Frame) (s : State) : Receives p s (netReceive p f s) := by
  by_cases hup : p < 4 ∧ linkUp s p = true
  swap
  · have he : netReceive p f s = s := if_pos (by rw [Bool.not_eq_true', Bool.and_eq_false_iff, decide_eq_false_iff_not, ← Bool.not_eq_true]; exact not_and_or.mp hup)
    rw [he]
    exact Receives.refl p s
  obtain ⟨hp, hl⟩ := hup
  have hr := received_receives p f s
  have counted : ∀ {off}, off ∈ [0x30, 0x34, 0x38, 0x3c, 0x40, 0x44, 0x48, 0x4c, 0x60, 0x64] → Receives p s ((received p f s).bump (netCounter p off) 1) :=
    fun h => hr.trans (bump_receives h 1 _)
  by_cases h1 : f.fcsOk = false ∨ f.fecUncorr ≠ 0
  · rw [netReceive_crc hp hl h1]; exact counted (by decide)
  obtain ⟨hfcs, hunc⟩ : f.fcsOk = true ∧ f.fecUncorr = 0 := by simpa using h1
  by_cases h2 : f.bytes < 64 ∨ 1522 < f.bytes
  · rw [netReceive_size hp hl hfcs hunc h2]; exact counted (by decide)
  by_cases h3 : f.macCtl = true
  · rw [netReceive_control hp hl hfcs hunc (by omega) (by omega) h3]; exact counted (by decide)
  rw [netReceive_whole hp hl ⟨hfcs, hunc, by omega, by omega, by simpa using h3⟩]
  split
  · split
    · exact hr
    · split
      · exact hr.trans (acceptMedia_receives ..)
      · exact (hr.trans (updRx_receives ..)).trans (bump_receives (by decide) 1 _)
  · split
    · split
      · exact counted (by decide)
      · refine hr.trans (updPort_receives _ ?_)
        exact fun _ => ⟨rfl, rfl⟩
    · exact counted (by decide)

theorem loopBack_receives (p : Nat) (f : Frame) (s : State) : Receives p s (loopBack p f s) := by
  unfold loopBack
  split
  · exact netReceive_receives p f s
  · exact Receives.refl p s

/-- A message of the service cores has come back in loopback, where a free value was drawn for its length. -/
structure CameBack (p : Nat) (s t : State) : Prop where
  mild   : Mild [.pmu, .net, .free] (receptionRegs p) s t
  egress : EgressSame s t

theorem svcBack_cameBack (p : Nat) (kind : FrameKind) (c : UdpCarries) (v6 : Bool) (dst sport dport : Nat) (s : State) :
    CameBack p s (svcBack p kind c v6 dst sport dport s) := by
  obtain ⟨f, hf⟩ : ∃ f, svcBack p kind c v6 dst sport dport s = if s.flag (fNetCtlLoop p) then netReceive p f s.draw.2 else s := ⟨_, rfl⟩
  rw [hf]
  split
  · obtain ⟨hm, he⟩ := netReceive_receives p f s.draw.2
    exact ⟨((draw_mild s).mono (by simp) (by simp)).trans (hm.mono (by simp) (by simp)), (EgressSame.of_net (s := s) (t := s.draw.2) rfl).trans he⟩
  · exact ⟨Mild.refl _ _ s, EgressSame.refl s⟩

/-- Joining the group of a key changes no egress flow. -/
theorem joinKey_egress (k : FlowKey) (s : State) : EgressSame s (joinKey k s) := by
  unfold joinKey
  split
  · dsimp only
    have sent : ∀ m, EgressSame s (s.emit m) := fun _ => .of_net rfl
    split
    · exact (sent _).trans (svcBack_cameBack ..).egress
    · exact (sent _).trans (svcBack_cameBack ..).egress
  · exact EgressSame.refl s

/-! ## The ledger of Seedbed and its reports (R186, R188, R430, R431) -/

theorem hbmWrite_mild (a : Nat) (bs : List Byte) (s : State) : Mild [.hbm] [] s (s.hbmWrite a bs) :=
  mild_of (fun q hq => by cases q <;> first | rfl | simp at hq) rfl rfl rfl

theorem umpWrite_mild (e : UmpEv) (seq mtc rep : Nat) (s : State) :
    Mild [.hbm] [fUmpLostCount.addr, fUmpIntStat.addr, fUmpRingHeadIndex.addr] s (umpWrite e seq mtc rep s) := by
  unfold umpWrite
  extract_lets size head base
  split
  · exact ((bump_mild fUmpLostCount 1 s).mono (by simp) (by simp)).trans
      ((raiseFld_mild 0x03 (fUmpIntStat.bit 3) _).mono (by simp) (by simp [Fld.bit]))
  · exact ((hbmWrite_mild _ _ s).mono (by simp) (by simp)).trans ((setFld_mild fUmpRingHeadIndex _ _).mono (by simp) (by simp))

/-- A CONTAINED event is counted and recorded. -/
theorem umpContained_mild {e : UmpEv} (he : e.cls = 1) (s : State) : Mild [.hbm] ledgerRegs s (umpEvent e s) := by
  have hevent : ∃ seq mtc, umpEvent e s = umpWrite e seq mtc 0 (raiseFld 0x03 (fUmpIntStat.bit 1) ((s.bump fUmpSeqNext 1).bump fUmpContainedCount 1)) := by
    unfold umpEvent
    rw [he]
    exact ⟨_, _, rfl⟩
  obtain ⟨seq, mtc, hevent⟩ := hevent
  rw [hevent]
  exact ((((bump_mild fUmpSeqNext 1 s).mono (by simp) (by simp)).trans ((bump_mild fUmpContainedCount 1 _).mono (by simp) (by simp))).trans
    ((raiseFld_mild 0x03 (fUmpIntStat.bit 1) _).mono (by simp) (by simp [Fld.bit]))).trans ((umpWrite_mild ..).mono (by simp) (by simp))

/-- A check of the totals counts and reports a mismatch, or changes nothing. -/
theorem checkTotals_mild (old s : State) : Mild [.seed, .hbm] ledgerRegs s (checkTotals old s) := by
  unfold checkTotals mismatch seedFault
  split
  · dsimp only
    rw [if_pos rfl]
    exact ((((bump_mild fSeedMismatchCount 1 s).mono (by simp) (by simp)).trans
      ((raiseFld_mild 0x06 fSeedIntStatContained _).mono (by simp) (by simp))).trans ((setSeed_mild _ _).mono (by simp) (by simp))).trans
      ((umpContained_mild rfl _).mono (by simp) (by simp))
  · exact Mild.refl _ _ s

theorem seedFree_mild (h : Nat) (s : State) : Mild [.seed, .hbm] ledgerRegs s (seedFree h s) := by
  have seed : ∀ f (s : State), Mild [.seed, .hbm] ledgerRegs s (s.setSeed f) := fun f s => (setSeed_mild f s).mono (by simp) (by simp)
  unfold seedFree totalsGive acctSub
  exact (((seed _ s).trans (seed _ _)).trans (checkTotals_mild _ _)).trans (seed _ _)

/-- A check of the totals leaves the tags. -/
theorem checkTotals_tags (old s : State) : (checkTotals old s).seed.tags = s.seed.tags := by
  have event : ∀ e u, (umpEvent e u).seed = u.seed := fun e u =>
    (umpEvent_within (Ω := (· ∈ [.hbm, .hif, .out, .regs, .ump])) (fun _ h => h) (Within.refl u)).same .seed (by decide)
  have raised : ∀ src f (u : State), (raiseFld src f u).seed = u.seed := fun src f u => raiseFld_kept src f u .seed (by decide)
  unfold checkTotals mismatch seedFault
  split
  · dsimp only
    rw [event, if_pos rfl]
    show (raiseFld _ _ _).seed.tags = _
    rw [raised]
    rfl
  · rfl

/-- A granule that is erased from the tags is FREE. -/
theorem eraseAll_free : ∀ (gs : List Nat) (tags : List (Nat × Tag)) (g : Nat), g ∈ gs ∨ mapGet ({} : Tag) g tags = {} →
    mapGet ({} : Tag) g (gs.foldl (fun m g => mapErase g m) tags) = {}
  | [], _, _, h => h.resolve_left (by simp)
  | a :: gs, tags, g, h => by
    rw [List.foldl_cons]
    refine eraseAll_free gs _ g ?_
    by_cases ha : g = a
    · subst ha; exact .inr (mapGet_erase_self ..)
    · rw [mapGet_erase_other ha]
      exact h.imp_left fun h => (List.mem_cons.mp h).resolve_left ha

/-- The first granule of a freed buffer is FREE (R186). -/
theorem seedFree_tag (h : Nat) (s : State) : ((seedFree h s).tag h).st = .free := by
  have first : h ∈ s.chain h := by
    unfold State.chain chainOf
    dsimp only
    split <;> simp
  have htags : (seedFree h s).seed.tags = (s.chain h).foldl (fun m g => mapErase g m) s.seed.tags := checkTotals_tags _ _
  unfold State.tag
  rw [htags, eraseAll_free _ _ h (.inl first)]

theorem releaseEntry_mild (e : Entry) (loan : Bool) (s : State) : Mild [.seed, .hbm] ledgerRegs s (releaseEntry e loan s) := by
  unfold releaseEntry
  split
  · exact Mild.refl _ _ s
  · exact seedFree_mild ..

end Sys2Proof.Machine
end

section
/-!
PROOFS. The flow operations of KCI (R71, R77, R86, R87, R94, R95, R477): one lemma for each answer of FLOW.OPEN_RX, FLOW.OPEN_TX, FLOW.PORT_ADDR,
FLOW.CLOSE and FLOW.STATS.
-/

namespace Sys2Proof.Machine

variable {s : State} {h : KciHdr}

/-! ## Operands that fail (R18) -/

section
variable {op : Nat} {key : Option (Nat × Nat)} {operands : State → List Check} {f : State → KciRes} {e : Nat}

/-- The first operand that fails is what an instruction answers where no check of authorisation or version comes before it (R18). -/
theorem orderedChecks_first {cs : List Check} (hf : h.badFlag = false) (hc : firstErr cs = some e) (he : ∀ c ∈ cs, isEarly c = false) :
    firstErr (orderedChecks h cs) = some e := by
  have early : cs.filter isEarly = [] := List.filter_eq_nil_iff.mpr fun c hm => by simp [he c hm]
  have first : ∀ (l m : List Check), firstErr l = some e → firstErr (l ++ m) = some e := by
    intro l m
    induction l with
    | nil => intro hl; cases hl
    | cons c l ih =>
      cases c with
      | none => exact ih
      | some x => exact id
  unfold orderedChecks
  rw [early, hf]
  exact first cs _ hc

/-- An instruction whose operands fail runs none of its effect. -/
theorem kci_refuses (hr : kciReady op h key s = true) (hc : firstErr (operands (started op h s)) = some e)
    (he : ∀ c ∈ operands (started op h s), isEarly c = false) :
    kci op h key operands f s = kci op h key (fun _ => []) (kciFail e) s := by
  rw [kci_run (operands := fun _ => []) hr rfl]
  unfold kciReady at hr
  simp only [Bool.and_eq_true, Bool.not_eq_true', Bool.or_eq_true, beq_iff_eq] at hr
  obtain ⟨⟨⟨⟨⟨⟨hstart, hflag⟩, -⟩, hopen⟩, -⟩, -⟩, -⟩ := hr
  have ho : (started op h s).hif.isOpen = s.hif.isOpen := by
    obtain ⟨o, ho⟩ := started_is op h s; rw [ho]
  unfold kci
  rw [hstart]
  change kciEnd op h key (if !(started op h s).hif.isOpen && op != 0x0C01 then kciFail _ (started op h s) else
    match firstErr (orderedChecks h (operands (started op h s))) with | some e => kciFail e (started op h s) | none => f (started op h s)) = _
  rw [if_neg (by rw [ho]; rcases hopen with hopen | hopen <;> simp [hopen]), orderedChecks_first hflag hc he]

/-- A command whose operands fail. -/
theorem refuses {i : Instr} (hx : exec i s = .next (kci op h key operands f s)) (hr : kciReady op h key s = true)
    (hc : firstErr (operands (started op h s)) = some e) (he : ∀ c ∈ operands (started op h s), isEarly c = false) (hop : op ≠ 0x0C01) :
    FailsWith i op h s e :=
  fails (operands := fun _ => []) (f := kciFail e) (hx.trans (congrArg _ (kci_refuses hr hc he))) hr rfl hop rfl

end

theorem chkRange_late (x lo hi : Nat) : isEarly (chkRange x lo hi) = false := by
  unfold chkRange
  split <;> rfl

theorem chkZero_late (x : Nat) : isEarly (chkZero x) = false := by
  unfold chkZero
  split <;> rfl

theorem chk_late (b : Bool) : isEarly (chk b eRange) = false := by
  unfold chk
  split <;> rfl

theorem ite_late {c : Prop} [Decidable c] {a b : Check} (ha : isEarly a = false) (hb : isEarly b = false) : isEarly (if c then a else b) = false := by
  split
  · exact ha
  · exact hb

/-- No check of a flow's fields is one of authorisation or version. -/
theorem flowChecks_late (flow mode format channels rate ptime pt offset queue : Nat) :
    ∀ c ∈ flowChecks flow mode format channels rate ptime pt offset queue, isEarly c = false := by
  unfold flowChecks
  simp only [List.forall_mem_cons, List.not_mem_nil, false_implies, implies_true, and_true]
  exact ⟨chkRange_late .., chkRange_late .., ite_late (chkRange_late ..) rfl, ite_late rfl (chkZero_late _),
    ite_late (chkRange_late ..) (ite_late (chkRange_late ..) rfl), chk_late _, chk_late _, chkRange_late .., chkRange_late .., chkRange_late ..⟩

theorem rxChecks_late (s : State) (b : RxBlock) : ∀ c ∈ rxChecks s b, isEarly c = false := by
  unfold rxChecks
  rw [List.forall_mem_append]
  refine ⟨flowChecks_late _ _ _ _ _ _ _ _ _, ?_⟩
  simp only [List.forall_mem_cons, List.not_mem_nil, false_implies, implies_true, and_true]
  exact ⟨chk_late _, chk_late _, chk_late _, chkRange_late .., chk_late _⟩

theorem txChecks_late (s : State) (b : TxBlock) : ∀ c ∈ txChecks s b, isEarly c = false := by
  unfold txChecks
  rw [List.forall_mem_append]
  refine ⟨flowChecks_late _ _ _ _ _ _ _ _ _, ?_⟩
  simp only [List.forall_mem_cons, List.not_mem_nil, false_implies, implies_true, and_true]
  exact ⟨chkRange_late .., chk_late _, chk_late _, chk_late _, chkRange_late .., chkRange_late .., chk_late _⟩

/-- The checks of a block: its length comes first. -/
theorem blockChecks_late (len n : Nat) {cs : List Check} (hc : ∀ c ∈ cs, isEarly c = false) :
    ∀ c ∈ chkZero len :: chk (len == n) eRange :: cs, isEarly c = false := by
  simp only [List.forall_mem_cons]
  exact ⟨chkZero_late _, chk_late _, hc⟩

/-! ## FLOW.OPEN_RX (R77, R95) -/

section
variable {b : RxBlock} (hr : kciReady 0x0401 h (keyFlow false b.flow) s = true)
include hr

/-- The state of an ingress flow that has opened, its groups joined. -/
abbrev rxOpened (b : RxBlock) (s : State) : State :=
  joinKey b.keyB (joinKey b.keyA (s.setNet (fun n => { n with rx := mapInsert b.flow { blk := b } n.rx })))

theorem flowOpenRx_empty : FailsWith (.flowOpenRx h 0 b) 0x0401 h s 1 :=
  refuses rfl hr rfl (blockChecks_late 0 0x78 (rxChecks_late _ b)) (by decide)

variable (hc : firstErr (rxChecks s b) = none)
include hc

omit hr in
theorem flowOpenRx_checks :
    firstErr (chkZero 0x78 :: chk ((0x78 : Nat) == 0x78) eRange :: rxChecks (started 0x0401 h s) b) = none :=
  (started_same (fun s => firstErr (rxChecks s b)) _ _ _ fun _ => rfl).trans hc

omit hr hc in
/-- The flow's id, its keys and its queue, in the state where its checks run. -/
theorem flowOpenRx_bars : ((mapFind? b.flow (started 0x0401 h s).net.rx).isSome || keyTaken (started 0x0401 h s) b.flow b ||
      !queueIs (started 0x0401 h s) b.queue .ordered) =
    ((mapFind? b.flow s.net.rx).isSome || keyTaken s b.flow b || !queueIs s b.queue .ordered) :=
  started_same (fun s => (mapFind? b.flow s.net.rx).isSome || keyTaken s b.flow b || !queueIs s b.queue .ordered) _ _ _ fun _ => rfl

theorem flowOpenRx_barred (hb : (mapFind? b.flow s.net.rx).isSome = true ∨ keyTaken s b.flow b = true ∨ queueIs s b.queue .ordered = false) :
    FailsWith (.flowOpenRx h 0x78 b) 0x0401 h s 4 := by
  refine fails rfl hr (flowOpenRx_checks hc) (by decide) (if_pos ?_)
  rw [flowOpenRx_bars]
  rcases hb with hb | hb | hb <;> simp [hb]

section
variable (hn : mapFind? b.flow s.net.rx = none) (hk : keyTaken s b.flow b = false) (hq : queueIs s b.queue .ordered = true)
include hn hk hq

omit hr hc in
theorem flowOpenRx_runs {f : State → KciRes} (hf : ∀ u, f u = if (mapFind? b.flow u.net.rx).isSome || keyTaken u b.flow b || !queueIs u b.queue .ordered
      then kciFail eState u else kciOk (rxOpened b u)) : f (started 0x0401 h s) = kciOk (rxOpened b (started 0x0401 h s)) := by
  rw [hf, flowOpenRx_bars, hn, hk, hq]
  rfl

/-- A flow opens with its block, whatever its reports of groups bring back in loopback. -/
theorem flowOpenRx_opens : ∃ t, exec (.flowOpenRx h 0x78 b) s = .next t ∧ Completed 0x0401 h 0 [] s t ∧
    t.net.rx = mapInsert b.flow { blk := b } s.net.rx ∧ t.net.tx = s.net.tx := by
  set v := (started 0x0401 h s).setNet (fun n => { n with rx := mapInsert b.flow { blk := b } n.rx }) with hv
  have hflows : FlowsSame v (rxOpened b (started 0x0401 h s)) := (joinKey_flowsSame b.keyA v).trans (joinKey_flowsSame b.keyB _)
  have hout : v.out <+: (rxOpened b (started 0x0401 h s)).out := (joinKey_keep (joinKey_keep (Keep.refl v))).out
  have htx : (rxOpened b (started 0x0401 h s)).net.tx = v.net.tx := ((joinKey_egress b.keyA v).trans (joinKey_egress b.keyB _)).tx
  have hnet : v.net = { s.net with rx := mapInsert b.flow { blk := b } s.net.rx } := by rw [hv, ← started_net 0x0401 h s]; rfl
  obtain ⟨t, e, c, ku, -⟩ := completes_answered (i := .flowOpenRx h 0x78 b) rfl hr (flowOpenRx_checks hc)
    (flowOpenRx_runs hn hk hq fun _ => rfl)
    (by rw [hflows.waits, hv]; show (started 0x0401 h s).hif.waits ⊆ _; rw [started_waits]; exact List.Subset.refl _)
    (by rw [← started_out 0x0401 h s]; exact hout)
  have ht : t.net = (rxOpened b (started 0x0401 h s)).net := ku .net (by decide)
  exact ⟨t, e, c, by rw [ht, hflows.rx, hnet], by rw [ht, htx, hnet]⟩

/-- Where no port of its groups is in loopback, it changes nothing else and sends the reports. -/
theorem flowOpenRx_line (hl : ∀ k ∈ [b.keyA, b.keyB], k.present = true → isGroup k.ipv6 k.dst = true → s.flag (fNetCtlLoop k.port) = false) :
    ∃ t, exec (.flowOpenRx h 0x78 b) s = .next t ∧ Done 0x0401 h 0 [] ([b.keyA, b.keyB].filterMap joinMsg) [] s t ∧
      Kept [.regs, .hif, .out, .net] s t ∧ t.net = { s.net with rx := mapInsert b.flow { blk := b } s.net.rx } := by
  have hline : rxOpened b (started 0x0401 h s) = { started 0x0401 h s with
      net := { (started 0x0401 h s).net with rx := mapInsert b.flow { blk := b } (started 0x0401 h s).net.rx }
      out := (started 0x0401 h s).out ++ [b.keyA, b.keyB].filterMap joinMsg } := by
    have e : [b.keyA, b.keyB].filterMap joinMsg = (joinMsg b.keyA).toList ++ (joinMsg b.keyB).toList := by
      cases ha : joinMsg b.keyA <;> cases hb : joinMsg b.keyB <;> simp [ha, hb]
    unfold rxOpened
    rw [joinKey_line (k := b.keyA) ?_, joinKey_line (k := b.keyB) ?_, e, ← List.append_assoc]
    · rfl
    · exact fun hp hg => (started_flag ..).trans (hl b.keyB (by simp) hp hg)
    · exact fun hp hg => (started_flag ..).trans (hl b.keyA (by simp) hp hg)
  have hquiet : Quiet 0x0401 h ([b.keyA, b.keyB].filterMap joinMsg) [] s (rxOpened b (started 0x0401 h s)) := by
    rw [hline]
    obtain ⟨o, ho⟩ := started_is 0x0401 h s
    exact ⟨⟨s.out, MsixAfter.refl _, by rw [started_out]; exact MsixAfter.refl _⟩, by rw [ho], rfl, by rw [ho], by rw [ho]; simp,
      by rw [ho]; simp, fun a _ => by rw [ho]; rfl⟩
  have hkept : Kept [.out, .net] (started 0x0401 h s) (rxOpened b (started 0x0401 h s)) := by
    rw [hline]
    exact fun p hp => by cases p <;> first | rfl | simp at hp
  obtain ⟨d, k⟩ := kci_done (operands := fun s => chkZero 0x78 :: chk ((0x78 : Nat) == 0x78) eRange :: rxChecks s b) (f := fun s =>
      if (mapFind? b.flow s.net.rx).isSome || keyTaken s b.flow b || !queueIs s b.queue .ordered then kciFail eState s else kciOk (rxOpened b s))
    hr (flowOpenRx_checks hc) (flowOpenRx_runs hn hk hq fun _ => rfl) hquiet (by simp)
  refine ⟨_, rfl, d, (((started_kept 0x0401 h s).mono (by simp)).trans (hkept.mono (by simp))).trans (k.mono (by simp)), ?_⟩
  refine (k .net (by decide)).trans ?_
  rw [hline, started_net]

end
end

/-! ## FLOW.OPEN_TX (R87) -/

section
variable {b : TxBlock} (hr : kciReady 0x0402 h (keyFlow true b.flow) s = true)
include hr

theorem flowOpenTx_empty : FailsWith (.flowOpenTx h 0 b) 0x0402 h s 1 :=
  refuses rfl hr rfl (blockChecks_late 0 0x70 (txChecks_late _ b)) (by decide)

variable (hc : firstErr (txChecks s b) = none)
include hc

omit hr in
theorem flowOpenTx_checks :
    firstErr (chkZero 0x70 :: chk ((0x70 : Nat) == 0x70) eRange :: txChecks (started 0x0402 h s) b) = none :=
  (started_same (fun s => firstErr (txChecks s b)) _ _ _ fun _ => rfl).trans hc

omit hr hc in
theorem flowOpenTx_bars : ((mapFind? b.flow (started 0x0402 h s).net.tx).isSome || !queueIs (started 0x0402 h s) b.queue .fifo) =
    ((mapFind? b.flow s.net.tx).isSome || !queueIs s b.queue .fifo) :=
  started_same (fun s => (mapFind? b.flow s.net.tx).isSome || !queueIs s b.queue .fifo) _ _ _ fun _ => rfl

theorem flowOpenTx_barred (hb : (mapFind? b.flow s.net.tx).isSome = true ∨ queueIs s b.queue .fifo = false) :
    FailsWith (.flowOpenTx h 0x70 b) 0x0402 h s 4 := by
  refine fails rfl hr (flowOpenTx_checks hc) (by decide) (if_pos ?_)
  rw [flowOpenTx_bars]
  rcases hb with hb | hb <;> simp [hb]

/-- A flow opens with its block and a sequence number that is a free value. -/
theorem flowOpenTx_opens (hn : mapFind? b.flow s.net.tx = none) (hq : queueIs s b.queue .fifo = true) :
    ∃ t n, exec (.flowOpenTx h 0x70 b) s = .next t ∧ Done 0x0402 h 0 [] [] [] s t ∧ Kept [.regs, .hif, .out, .free, .net] s t ∧ n < 65536 ∧
      t.net = { s.net with tx := mapInsert b.flow { blk := b, seq := n } s.net.tx } := by
  set u := started 0x0402 h s with hu
  obtain ⟨t, e, d, k, ku⟩ := succeeds (i := .flowOpenTx h 0x70 b) (ps := [.free, .net])
    (u := u.draw.2.setNet (fun n => { n with tx := mapInsert b.flow { blk := b, seq := u.draw.1 % 65536 } n.tx })) rfl hr
    (flowOpenTx_checks hc) (by decide) (if_neg (by rw [flowOpenTx_bars, hn, hq]; simp))
    (fun p hp => by cases p <;> first | rfl | simp at hp) (by decide)
  refine ⟨t, u.draw.1 % 65536, e, d, k, Nat.mod_lt _ (by decide), (ku .net (by decide)).trans ?_⟩
  rw [← started_net 0x0402 h s]
  rfl

end

/-! ## FLOW.PORT_ADDR (R72, R477) -/

section
variable {b : PortAddr} (hr : kciReady 0x0403 h none s = true)
include hr

theorem flowPortAddr_empty : FailsWith (.flowPortAddr h 0 b) 0x0403 h s 1 := by
  refine refuses rfl hr rfl ?_ (by decide)
  simp only [List.forall_mem_cons, List.not_mem_nil, false_implies, implies_true, and_true]
  exact ⟨chkZero_late _, chk_late _, chkRange_late .., chkRange_late .., chkRange_late .., chkRange_late .., chkRange_late ..⟩

theorem flowPortAddr_sets (h1 : b.port < 4) (h2 : b.ip4 < 2 ^ 32) (h3 : b.pfx4 ≤ 32) (h4 : b.ip6 < 2 ^ 128) (h5 : b.pfx6 ≤ 128) :
    ∃ t, exec (.flowPortAddr h 36 b) s = .next t ∧ Done 0x0403 h 0 [] [] [] s t ∧ Kept [.regs, .hif, .out, .net] s t ∧
      t.port b.port = { s.port b.port with addr := b } ∧ (∀ q, q ≠ b.port → t.port q = s.port q) ∧ t.net.rx = s.net.rx ∧ t.net.tx = s.net.tx := by
  obtain ⟨t, e, d, k, ku⟩ := succeeds (i := .flowPortAddr h 36 b) (ps := [.net])
    (u := (started 0x0403 h s).updPort b.port (fun q => { q with addr := b })) rfl hr
    (by rw [chkRange_ok (by omega) (show b.port ≤ 3 by omega), chkRange_ok (by omega) (show b.ip4 ≤ W32 - 1 from Nat.le_sub_one_of_lt h2), chkRange_ok (by omega) h3,
          chkRange_ok (by omega) (show b.ip6 ≤ 0xFFFFFFFFFFFFFFFFFFFFFFFFFFFFFFFF by omega), chkRange_ok (by omega) h5]
        rfl)
    (by decide) rfl (setNet_kept _ _) (by decide)
  have hnet : t.net = (s.updPort b.port (fun q => { q with addr := b })).net := by
    rw [ku .net (by decide)]
    unfold State.updPort State.setNet
    rw [started_net]
  have hport : ∀ q, t.port q = (s.updPort b.port (fun q => { q with addr := b })).port q := fun q => by unfold State.port; rw [hnet]
  exact ⟨t, e, d, k, (hport _).trans (State.port_updPort_self ..), fun q hq => (hport q).trans (State.port_updPort_other hq _ _), by rw [hnet]; rfl,
    by rw [hnet]; rfl⟩

end

/-! ## FLOW.CLOSE (R94, R301) -/

section
variable {fl : Nat} (hfl : fl < 16384)
include hfl

theorem flowClose_checks (dir : Nat) (hd : dir ≤ 1) : firstErr [chkRange fl 0 16383, chkRange dir 0 1] = none := by
  rw [chkRange_ok (by omega) (by omega), chkRange_ok (by omega) hd]
  rfl

section
variable (hr : kciReady 0x0404 h (keyFlow false fl) s = true)
include hr

theorem flowClose_absent (hn : mapFind? fl s.net.rx = none) : FailsWith (.flowClose h fl 0) 0x0404 h s 4 :=
  fails rfl hr (flowClose_checks hfl 0 (by decide)) (by decide) ((if_pos rfl).trans (if_pos (by rw [started_net, hn]; rfl)))

/-- An ingress flow is forgotten with its staging copy. -/
theorem flowClose_rx (hx : (mapFind? fl s.net.rx).isSome = true) :
    ∃ t, exec (.flowClose h fl 0) s = .next t ∧ Done 0x0404 h 0 [] [] [] s t ∧ Kept [.regs, .hif, .out, .net, .cfg] s t ∧
      t.net = { s.net with rx := mapErase fl s.net.rx } ∧ mapFind? (2 ^ 28 + fl) t.cfg = none := by
  obtain ⟨t, e, d, k, ku⟩ := succeeds (i := .flowClose h fl 0) (ps := [.net, .cfg])
    (u := dropStage (2 ^ 28 + fl) ((started 0x0404 h s).setNet (fun n => { n with rx := mapErase fl n.rx }))) rfl hr
    (flowClose_checks hfl 0 (by decide)) (by decide)
    ((if_pos rfl).trans (if_neg (by rw [started_net, Option.isNone_iff_eq_none, ← Option.not_isSome_iff_eq_none, not_not]; exact hx)))
    (fun p hp => by cases p <;> first | rfl | simp at hp) (by decide)
  refine ⟨t, e, d, k, (ku .net (by decide)).trans ?_, ?_⟩
  · rw [← started_net 0x0404 h s]; rfl
  · rw [ku .cfg (by decide)]; exact mapFind?_erase_self ..

end

/-! ### The queue of a closed egress flow -/

omit hfl in
theorem discardHead_queue {q : Nat} {x : Queue} {i : Item} {rest : List Item} (hq : s.queue? q = some x) (hh : x.held = i :: rest) :
    ∃ y, (discardHead q s).queue? q = some y ∧ y.held = rest := by
  have hmq : (freeItem i.e (s.setQueue q x.takeHead.2)).mq = (s.setQueue q x.takeHead.2).mq :=
    (freeItem_within (Ω := (· ∈ [.hbm, .hif, .out, .regs, .seed, .ump])) (fun _ h => h) (Within.refl _)).same .mq (by decide)
  have hfound : (freeItem i.e (s.setQueue q x.takeHead.2)).queue? q = some x.takeHead.2 := by
    unfold State.queue?
    rw [hmq]
    exact mapFind?_insert_self ..
  have hheld : x.takeHead.2.held = rest := by rw [takeHead_held, hh]; rfl
  unfold discardHead
  rw [hq]
  dsimp only
  rw [hh]
  dsimp only
  split
  · unfold loseMark
    rw [hfound]
    dsimp only
    refine ⟨{ x.takeHead.2 with markValid := false, markLost := true }, ?_, hheld⟩
    refine (congrArg (mapFind? q) ((raiseFld_kept 0x07 fMqIntStatMarkLost _) .mq (by decide))).trans ?_
    exact mapFind?_insert_self ..
  · exact ⟨_, hfound, hheld⟩

omit hfl in
/-- Every entry that is left is dropped. -/
theorem dropEntries_queue {q : Nat} : ∀ (n : Nat) (s : State) (x : Queue), s.queue? q = some x → x.held.length = n →
    ∃ y, (dropEntries q n s).queue? q = some y ∧ y.held = []
  | 0, _, x, hq, hl => ⟨x, hq, List.length_eq_zero_iff.mp hl⟩
  | n + 1, s, x, hq, hl => by
    obtain ⟨i, rest, hh⟩ := List.exists_cons_of_length_eq_add_one hl
    obtain ⟨y, hy, hrest⟩ := discardHead_queue hq hh
    refine dropEntries_queue n (discardHead q s) y hy ?_
    rw [hrest]
    simpa [hh] using hl

omit hfl in
theorem freeItem_ledger (e : Entry) (s : State) : Mild [.seed, .hbm] ledgerRegs s (freeItem e s) := by
  unfold freeItem
  split
  · exact Mild.refl _ _ s
  · exact seedFree_mild ..

/-- Registers that a dropped queue entry may change. -/
abbrev dropRegs : List Nat := fMqIntStatMarkLost.addr :: ledgerRegs

omit hfl in
theorem loseMark_mild (q : Nat) (s : State) : Mild [.mq] [fMqIntStatMarkLost.addr] s (loseMark q s) := by
  unfold loseMark
  split
  · exact Mild.refl _ _ s
  · exact ((setQueue_mild q _ s).mono (List.Subset.refl _) (List.nil_subset _)).trans
      ((raiseFld_mild 0x07 fMqIntStatMarkLost _).mono (List.nil_subset _) (List.Subset.refl _))

omit hfl in
theorem discardHead_mild (q : Nat) (s : State) : Mild [.seed, .hbm, .mq] dropRegs s (discardHead q s) := by
  have freed : ∀ (e : Entry) (y : Queue), Mild [.seed, .hbm, .mq] dropRegs s (freeItem e (s.setQueue q y)) := fun e y =>
    ((setQueue_mild q y s).mono (by simp) (List.nil_subset _)).trans ((freeItem_ledger e _).mono (by simp) (List.subset_cons_self _ _))
  unfold discardHead
  split
  · exact Mild.refl _ _ s
  · split
    · exact Mild.refl _ _ s
    · dsimp only
      split
      · exact (freed _ _).trans ((loseMark_mild q _).mono (by simp) (by simp [dropRegs]))
      · exact freed _ _

omit hfl in
theorem dropEntries_mild (q : Nat) : ∀ (n : Nat) (s : State), Mild [.seed, .hbm, .mq] dropRegs s (dropEntries q n s)
  | 0, s => Mild.refl _ _ s
  | n + 1, s => (discardHead_mild q s).trans (dropEntries_mild q n _)

/-- An egress flow is forgotten, and the entries of its queue are dropped and counted in the answer. -/
theorem flowClose_tx (hr : kciReady 0x0404 h (keyFlow true fl) s = true) {x : TxFlow} {q : Queue} (hx : mapFind? fl s.net.tx = some x)
    (hq : s.queue? x.blk.queue = some q) :
    ∃ t q', exec (.flowClose h fl 1) s = .next t ∧ Completed 0x0404 h 0 [q.held.length] s t ∧
      t.net = { s.net with tx := mapErase fl s.net.tx } ∧ t.queue? x.blk.queue = some q' ∧ q'.held = [] := by
  set v := dropStage (2 * 2 ^ 28 + fl) ((started 0x0404 h s).setNet (fun n => { n with tx := mapErase fl n.tx })) with hv
  have hvq : v.queue? x.blk.queue = some q := (started_queue? 0x0404 h s _).trans hq
  have hmild := dropEntries_mild x.blk.queue q.held.length v
  obtain ⟨y, hy, hyh⟩ := dropEntries_queue q.held.length v q hvq rfl
  obtain ⟨c, hhif⟩ := hmild.hif
  obtain ⟨r, hr', -⟩ := hmild.out
  obtain ⟨t, e, d, ku, -⟩ := completes_answered (i := .flowClose h fl 1) (st := 0) (r := [q.held.length])
    (u := dropEntries x.blk.queue q.held.length v) rfl hr (flowClose_checks hfl 1 (by decide))
    (by rw [if_neg (by decide), started_net, hx]
        show KciRes.done eOk _ (dropEntries x.blk.queue (match v.queue? x.blk.queue with | some q => q.held.length | none => 0) v) = _
        rw [hvq])
    (by rw [hhif]; show (started 0x0404 h s).hif.waits ⊆ _; rw [started_waits]; exact List.Subset.refl _)
    (by rw [hr', ← started_out 0x0404 h s]; exact List.prefix_append _ _)
  refine ⟨t, y, e, d, ?_, ?_, hyh⟩
  · rw [ku .net (by decide), hmild.kept .net (by decide), ← started_net 0x0404 h s]
    rfl
  · exact (congrArg (mapFind? _) (ku .mq (by decide))).trans hy

/-! ## FLOW.STATS (R86) -/

theorem flowStats_checks : firstErr [chkRange fl 0 16383] = none := by
  rw [chkRange_ok (by omega) (by omega)]
  rfl

/-- The counts of a flow once a host that cleared them has read them. -/
abbrev statsRead (clear : Bool) (x : RxFlow) : RxFlow :=
  if clear then { x with a := x.a.clear, b := x.b.clear, exceed := 0, miss := 0 } else x

theorem flowStats_reads (hr : kciReady 0x0405 h (keyFlow false fl) s = true) {x : RxFlow} (hx : mapFind? fl s.net.rx = some x) (clear : Bool) :
    ∃ t, exec (.flowStats h fl clear) s = .next t ∧ Done 0x0405 h 0 [56] [.result h.raddr (flowWords x)] [] s t ∧
      Kept [.regs, .hif, .out, .net] s t ∧ mapFind? fl t.net.rx = some (statsRead clear x) := by
  have hx' : mapFind? fl (started 0x0405 h s).net.rx = some x := by rw [started_net]; exact hx
  set u := if clear then (started 0x0405 h s).updRx fl (fun x => { x with a := x.a.clear, b := x.b.clear, exceed := 0, miss := 0 }) else started 0x0405 h s with hu
  have hmild : Mild [.net] [] (started 0x0405 h s) u := by
    rw [hu]
    split
    · rw [updRx_found hx']; exact setNet_mild _ _
    · exact Mild.refl _ _ _
  have hfound : mapFind? fl u.net.rx = some (statsRead clear x) := by
    rw [hu]
    cases clear with
    | true => rw [if_pos rfl, updRx_found hx']; exact mapFind?_insert_self ..
    | false => exact hx'
  obtain ⟨t, e, d, k, ku⟩ := records (i := .flowStats h fl clear) rfl u (flowWords x) [.net] [] hr (flowStats_checks hfl)
    (by rw [hx']) hmild (by decide) (by simp)
  exact ⟨t, e, d, k, by rw [ku .net (by decide)]; exact hfound⟩

end

/-- Settles O41, by one lemma for each answer of the operations. -/
theorem flowCommands : Obligations.FlowCommands := by
  unfold Obligations.FlowCommands
  intro s h
  have done : ∀ {i op st}, FailsWith i op h s st → ∃ t, exec i s = .next t ∧ Done op h st [] [] [] s t := fun ⟨t, e, d, _⟩ => ⟨t, e, d⟩
  refine ⟨fun b hr => done (flowOpenRx_empty hr), fun b hr => done (flowOpenTx_empty hr), fun b hr => done (flowPortAddr_empty hr),
    fun b hr hc => ⟨flowOpenRx_opens hr hc, flowOpenRx_line hr hc, flowOpenRx_barred hr hc⟩,
    fun b hr hc => ⟨flowOpenTx_opens hr hc, flowOpenTx_barred hr hc⟩, fun b hr => flowPortAddr_sets hr,
    fun fl hfl => ⟨fun hr => ⟨flowClose_rx hfl hr, flowClose_absent hfl hr⟩, fun hr x q => flowClose_tx hfl hr, fun hr x clear hx => ?_⟩⟩
  obtain ⟨t, e, d, k, hy⟩ := flowStats_reads hfl hr hx clear
  exact ⟨t, _, e, d, k, hy, rfl⟩

end Sys2Proof.Machine
end

section
/-!
PROOFS. A pop by a port with bound K (R92, R110, R111, R119): an empty queue moves LAST_KEY alone, and a due head leaves with its buffer, whose
chain and bytes stay.
-/

namespace Sys2Proof.Machine

variable {s t : State}

/-! ## The queue -/

/-- LAST_KEY is valid after a keyed pop that returns nothing, and is K where it was not or K is later (R111). -/
theorem passKey_is (x : Queue) (k : Nat) :
    x.passKey k = { x with lastKey := if x.lastValid = false ∨ 0 < tickDiff k x.lastKey then k else x.lastKey, lastValid := true } := by
  unfold Queue.passKey
  by_cases h : x.lastValid = false ∨ 0 < tickDiff k x.lastKey
  · rw [if_pos (by simpa using h), if_pos h]
  · rw [if_neg (by simpa using h), if_neg h]
    obtain ⟨hv, -⟩ := not_or.mp h
    rw [← Bool.eq_true_of_not_eq_false hv]

theorem settle_n (x : Queue) : x.settle.n = x.n := by
  unfold Queue.settle
  split <;> rfl

theorem refill_n (x : Queue) : x.refill.2.n = x.n := by
  unfold Queue.refill
  split
  · exact settle_n _
  · rfl

theorem takeHead_n (x : Queue) : x.takeHead.2.n = x.n := by
  unfold Queue.takeHead
  by_cases h : x.headWin = 0
  · rw [if_pos h]
    exact (settle_n _).trans (refill_n x)
  · rw [if_neg h]
    exact settle_n _

theorem freeSlot_n (x : Queue) (clk : Nat) : (x.freeSlot clk).n = x.n := by
  unfold Queue.freeSlot
  split <;> rfl

/-- An empty queue after a pop with bound `k`. -/
abbrev passed (k clk : Nat) (x : Queue) : Queue := { x.passKey k with before := some (clk, x.lastKey, x.lastValid) }

theorem portPop_closed {q : Nat} (hq : s.queue? q = none) (bound acct : Option Nat) : portPop q bound acct s = (none, s) := by
  unfold portPop mqTake
  rw [hq]

theorem portPop_empty {q k : Nat} {x : Queue} (hq : s.queue? q = some x) (hh : x.held = []) (acct : Option Nat) :
    portPop q (some k) acct s = (none, s.setQueue q (passed k s.clk x)) := by
  have htake : mqTake q (some k) s = (.empty, s.setQueue q (passed k s.clk x)) := by
    unfold mqTake
    rw [hq]
    simp only [hh]
  unfold portPop
  rw [htake]

/-! ## Chains (R179) -/

/-- Two lists of tags chain their granules alike. -/
def SameLinks (a b : List (Nat × Tag)) : Prop := ∀ g, (mapGet {} g b).last = (mapGet {} g a).last ∧ (mapGet {} g b).next = (mapGet {} g a).next ∧
  (mapGet {} g b).chain = (mapGet {} g a).chain

theorem SameLinks.refl (a : List (Nat × Tag)) : SameLinks a a := fun _ => ⟨rfl, rfl, rfl⟩

theorem SameLinks.trans {a b c : List (Nat × Tag)} (h : SameLinks a b) (k : SameLinks b c) : SameLinks a c := fun g => by
  obtain ⟨h1, h2, h3⟩ := h g
  obtain ⟨k1, k2, k3⟩ := k g
  exact ⟨k1.trans h1, k2.trans h2, k3.trans h3⟩

theorem sameLinks_upd {f : Tag → Tag} (hf : ∀ x, (f x).last = x.last ∧ (f x).next = x.next ∧ (f x).chain = x.chain) (h : Nat) (a : List (Nat × Tag)) :
    SameLinks a (mapUpd {} h f a) := fun g => by
  rw [mapGet_upd]
  split
  · next hg => subst hg; exact hf _
  · exact ⟨rfl, rfl, rfl⟩

theorem sameLinks_updAll {f : Tag → Tag} (hf : ∀ x, (f x).last = x.last ∧ (f x).next = x.next ∧ (f x).chain = x.chain) :
    ∀ (gs : List Nat) (a : List (Nat × Tag)), SameLinks a (gs.foldl (fun m g => mapUpd {} g f m) a)
  | [], a => SameLinks.refl a
  | g :: gs, a => (sameLinks_upd hf g a).trans (sameLinks_updAll hf gs _)

theorem SameLinks.chainOf_eq {a b : List (Nat × Tag)} (h : SameLinks a b) : ∀ (n g : Nat), chainOf b g n = chainOf a g n
  | 0, _ => rfl
  | n + 1, g => by
    obtain ⟨hl, hn, -⟩ := h g
    unfold chainOf
    dsimp only
    rw [hl, hn, h.chainOf_eq n]

theorem SameLinks.chain_eq (h : SameLinks s.seed.tags t.seed.tags) (g : Nat) : t.chain g = s.chain g := by
  obtain ⟨-, -, hc⟩ := h g
  unfold State.chain State.tag
  rw [hc, h.chainOf_eq]

/-- A buffer that moves to another account keeps its chain (R182). -/
theorem seedMove_sameLinks (h a : Nat) (s : State) : SameLinks s.seed.tags (seedMove h a s).seed.tags := by
  refine (sameLinks_updAll (f := fun t => { t with owner := a, st := .owned, rcount := 0 }) (fun _ => ⟨rfl, rfl, rfl⟩) (s.chain h) s.seed.tags).trans ?_
  exact sameLinks_upd (f := fun t => { t with rcount := if (s.acct a).kind = .group then (s.acct a).releases else 0 }) (fun _ => ⟨rfl, rfl, rfl⟩) h _

theorem seedMove_mild (h a : Nat) (s : State) : Mild [.seed] [] s (seedMove h a s) := by
  unfold seedMove acctAdd acctSub setFirstTag
  exact (((setSeed_mild _ s).trans (setSeed_mild _ _)).trans (setSeed_mild _ _)).trans (setSeed_mild _ _)

/-! ## The pop -/

/-- A port has popped: apart from queues, the PMU of the media queues and accounts the state is as before, and every chain too. -/
structure Popped (s t : State) : Prop where
  mild  : Mild [.mq, .pmu, .seed] [(fPmuOvfPmc 259).addr] s t
  links : SameLinks s.seed.tags t.seed.tags

theorem Popped.refl (s : State) : Popped s s := ⟨Mild.refl _ _ s, SameLinks.refl _⟩

theorem Popped.trans {u : State} (h : Popped s t) (g : Popped t u) : Popped s u := ⟨h.mild.trans g.mild, h.links.trans g.links⟩

theorem setQueue_popped (q : Nat) (x : Queue) (s : State) : Popped s (s.setQueue q x) :=
  ⟨(setQueue_mild q x s).mono (by simp) (by simp), SameLinks.refl _⟩

theorem pmuEvent_popped (ev n : Nat) (s : State) : Popped s (pmuEvent 259 ev n s) := by
  have h := pmuEvent_mild 259 ev n s
  refine ⟨h.mono (by simp) (List.Subset.refl _), ?_⟩
  rw [h.kept .seed (by decide)]
  exact SameLinks.refl _

theorem seedMove_popped (h a : Nat) (s : State) : Popped s (seedMove h a s) :=
  ⟨(seedMove_mild h a s).mono (by simp) (by simp), seedMove_sameLinks h a s⟩

theorem bufWord_congr (hc : ∀ h, t.chain h = s.chain h) (hm : t.hbm = s.hbm) (hb : poolBase t = poolBase s) (h ofs : Nat) :
    bufWord t h ofs = bufWord s h ofs := by
  have hread : bufRead t h ofs 4 = bufRead s h ofs 4 := by
    unfold bufRead
    dsimp only
    rw [hc, hm, hb]
  exact congrArg (fun bs => BitVec.ofNat 32 (leNat bs)) hread

theorem poolBase_congr (hl : t.reg fSeedPoolBaseLoAddr.addr = s.reg fSeedPoolBaseLoAddr.addr) (hh : t.reg fSeedPoolBaseHiAddr.addr = s.reg fSeedPoolBaseHiAddr.addr) :
    poolBase t = poolBase s := by
  unfold poolBase State.fld
  rw [hl, hh]

/-- A buffer reads the same after a pop. -/
theorem Popped.bufWord_eq (h : Popped s t) (b ofs : Nat) : bufWord t b ofs = bufWord s b ofs := by
  have hreg : ∀ a, a ≠ (fPmuOvfPmc 259).addr → t.reg a = s.reg a := fun a ha => h.mild.regs a (by simpa using ha)
  have hhbm : t.hbm = s.hbm := h.mild.kept .hbm (by decide)
  have hbase : poolBase t = poolBase s := poolBase_congr (hreg _ (by simp [fSeedPoolBaseLoAddr, fPmuOvfPmc, pmuBase])) (hreg _ (by simp [fSeedPoolBaseHiAddr, fPmuOvfPmc, pmuBase]))
  exact bufWord_congr h.links.chain_eq hhbm hbase b ofs

/-- The buffer of a popped entry passes to the port's account, where it has one. -/
abbrev handedOver (e : Entry) (acct : Option Nat) (s : State) : State :=
  if e.nobuf then s else match acct with | some a => seedMove e.handle a s | none => s

theorem handedOver_popped (e : Entry) (acct : Option Nat) (s : State) : Popped s (handedOver e acct s) := by
  unfold handedOver
  split
  · exact Popped.refl s
  · cases acct with
    | some a => exact seedMove_popped ..
    | none => exact Popped.refl s

theorem handedOver_queue (e : Entry) (acct : Option Nat) (s : State) (q : Nat) : (handedOver e acct s).queue? q = s.queue? q := by
  unfold handedOver
  split
  · rfl
  · cases acct <;> rfl

section
variable {q k : Nat} {x : Queue} {i : Item} {rest : List Item} (hq : s.queue? q = some x)
include hq

theorem countPop_counts : ∃ y, (countPop q s).queue? q = some y ∧ y.held = x.held ∧ y.n.popped = (x.n.popped + 1) % 2 ^ 32 ∧ Popped s (countPop q s) := by
  unfold countPop
  rw [hq]
  exact ⟨_, pmuEvent_setQueue .., rfl, rfl, (setQueue_popped ..).trans (pmuEvent_popped ..)⟩

variable (hm : x.mode = .fifo) (hh : x.held = i :: rest) (hd : tickDiff i.e.key k ≤ 0)
include hm hh hd

theorem mqTake_due : ∃ t y, mqTake q (some k) s = (.item i, t) ∧ t.queue? q = some y ∧ y.held = rest ∧ y.n.popped = x.n.popped ∧ Popped s t := by
  rcases ht : x.takeHead with ⟨n, z⟩
  have hz : z = x.takeHead.2 := by rw [ht]
  have htake : mqTake q (some k) s =
      (.item i, pmuEvent 259 0x403 n (s.setQueue q { z.passItem i.e.key with before := some (s.clk, x.lastKey, x.lastValid) })) := by
    have hvisible : ¬ (x.mode = .async ∧ i.at_ = s.clk) := by simp [hm]
    have hdue : decide (0 < tickDiff i.e.key k) = false := decide_eq_false (not_lt.mpr hd)
    unfold mqTake
    rw [hq]
    simp only [hh, if_neg hvisible, ht, hdue, Bool.false_eq_true, if_false]
  obtain ⟨key, hkey⟩ := passItem_is z i.e.key
  rw [hkey] at htake
  have hheld : z.held = rest := by rw [hz, takeHead_held, hh]; rfl
  have hn : z.n.popped = x.n.popped := by rw [hz, takeHead_n]
  exact ⟨_, _, htake, pmuEvent_setQueue .., hheld, hn, (setQueue_popped ..).trans (pmuEvent_popped ..)⟩

/-- The due head of a queue without a mark leaves it, and the queue keeps the rest. -/
theorem portPop_due (hs : x.markSet = false) (acct : Option Nat) : ∃ t y, portPop q (some k) acct s = (some (i, false), t) ∧ t.queue? q = some y ∧
    y.held = rest ∧ y.n.popped = (x.n.popped + 1) % 2 ^ 32 ∧ Popped s t := by
  obtain ⟨u, y, ht, hy, hyh, hyn, hu⟩ := mqTake_due hq hm hh hd
  obtain ⟨z, hz, hzh, hzn, hv⟩ := countPop_counts hy
  set w := (countPop q u).setQueue q (z.freeSlot (countPop q u).clk) with hw
  have hwq : w.queue? q = some (z.freeSlot (countPop q u).clk) := by rw [hw, queue_set, if_pos rfl]
  have hpop : portPop q (some k) acct s = (some (i, false), handedOver i.e acct w) := by
    unfold portPop handedOver
    rw [hq, ht]
    simp only [hs, hz, Bool.false_eq_true, if_false]
    cases i.e.nobuf <;> cases acct <;> rfl
  exact ⟨_, _, hpop, (handedOver_queue ..).trans hwq, by rw [freeSlot_held, hzh, hyh], by rw [freeSlot_n, hzn, hyn],
    ((hu.trans hv).trans (setQueue_popped ..)).trans (handedOver_popped ..)⟩

end

end Sys2Proof.Machine
end

section
/-!
PROOFS. What an egress flow does with the entry its port takes (R88 to R90, R92): the copy that is kept, or the buffer that is freed.
-/

namespace Sys2Proof.Machine

variable {s t : State}

/-! ## One egress flow -/

theorem updTx_found {fl : Nat} {x : TxFlow} (hx : mapFind? fl s.net.tx = some x) (g : TxFlow → TxFlow) :
    s.updTx fl g = s.setNet (fun n => { n with tx := mapInsert fl (g x) n.tx }) := by
  unfold State.updTx
  rw [hx]

theorem updTx_mild (fl : Nat) (g : TxFlow → TxFlow) (s : State) : Mild [.net] [] s (s.updTx fl g) := by
  unfold State.updTx
  split
  · exact setNet_mild _ s
  · exact Mild.refl _ _ s

theorem updTx_port (fl : Nat) (g : TxFlow → TxFlow) (s : State) (p : Nat) : (s.updTx fl g).port p = s.port p := by
  unfold State.updTx
  split <;> rfl

/-! ## The time does not pass -/

theorem tick_congr (h : t.time = s.time) : t.tick = s.tick := by unfold State.tick; rw [h]

theorem mtc_congr (h : t.time = s.time) : t.mtc = s.mtc := by unfold State.mtc; rw [tick_congr h]

theorem nearTick_congr (h : t.time = s.time) (k : Nat) : nearTick t k = nearTick s k := by unfold nearTick; rw [tick_congr h, mtc_congr h]

/-! ## The judgement of a copy (R90) -/

theorem judgeCopy_stale {c : Copy} {late : Int} (h : (s.fld (fNetEgrGraceTicks (txPath c.blk c.pathB).port) : Int) < late) :
    judgeCopy c late s = (false, s.bump (fNetTxStaleCount (txPath c.blk c.pathB).port) 1) := if_pos h

/-- A late copy that is still sent is counted. -/
abbrev lateCounted (p : Nat) (late : Int) (s : State) : State := if 1 ≤ late then s.bump (fNetTxLateCount p) 1 else s

theorem judgeCopy_kept {c : Copy} {late : Int} (h : late ≤ (s.fld (fNetEgrGraceTicks (txPath c.blk c.pathB).port) : Int)) :
    judgeCopy c late s = (true, (lateCounted (txPath c.blk c.pathB).port late s).updPort (txPath c.blk c.pathB).port
      (fun q => { q with copies := q.copies ++ [c] })) := if_neg (not_lt.mpr h)

theorem lateCounted_fld (p : Nat) (late : Int) (s : State) :
    (lateCounted p late s).fld (fNetTxLateCount p) = (s.fld (fNetTxLateCount p) + if 1 ≤ late then 1 else 0) % 2 ^ 32 := by
  unfold lateCounted
  split
  · exact bump_netCounter_self p 0x54 1 s
  · exact (Nat.mod_eq_of_lt (bits_lt ..)).symm

theorem lateCounted_mild (p : Nat) (late : Int) (s : State) : Mild [] [(netCounter p 0x54).addr] s (lateCounted p late s) := by
  unfold lateCounted
  split
  · exact bump_mild ..
  · exact Mild.refl _ _ s

/-! ## The copies of an entry -/

/-- The copy of entry `i` for one path of the flow, sent first in tick `e` (R89). -/
def entryCopy (fl : Nat) (x : TxFlow) (i : Item) (loan : Bool) (e : Int) (s : State) (pathB : Bool) : Copy :=
  let w1 := bufWord s i.e.handle 4
  { flow := fl, pathB := pathB, blk := x.blk, tick := e.toNat, seq := x.seq
    ts := ((nearTick s (bufWord s i.e.handle 0).toNat * x.blk.rate / 48000 + x.blk.offset) % W32).toNat, marker := w1.getLsbD 17
    tsReq := w1.getLsbD 16, tsId := bits w1 0 16, handle := i.e.handle, len := i.e.len, loan := loan }

section
variable {fl : Nat} {x : TxFlow} {i : Item} {loan : Bool} {e late : Int} (ha : x.blk.pathA.present = true) (hb : x.blk.pathB.present = false)
  (hw : (bufWord s i.e.handle 4).getLsbD 18 = true)
include ha hb hw

/-- A flow of path A alone makes one copy of an entry that asks for it. -/
theorem egressCopies_pathA : egressCopies fl x i loan e late s =
    if (judgeCopy (entryCopy fl x i loan e s false) late s).1 then (judgeCopy (entryCopy fl x i loan e s false) late s).2
    else releaseEntry i.e loan (judgeCopy (entryCopy fl x i loan e s false) late s).2 := by
  unfold egressCopies
  simp only [ha, hb, hw, Bool.and_self, Bool.and_false, Bool.or_false, if_true, Bool.false_eq_true, if_false]
  rfl

theorem egressCopies_kept (hl : late ≤ (s.fld (fNetEgrGraceTicks x.blk.pathA.port) : Int)) : egressCopies fl x i loan e late s =
    (lateCounted x.blk.pathA.port late s).updPort x.blk.pathA.port (fun q => { q with copies := q.copies ++ [entryCopy fl x i loan e s false] }) := by
  rw [egressCopies_pathA ha hb hw, judgeCopy_kept (c := entryCopy fl x i loan e s false) hl]
  rfl

theorem egressCopies_stale (hl : (s.fld (fNetEgrGraceTicks x.blk.pathA.port) : Int) < late) : egressCopies fl x i loan e late s =
    releaseEntry i.e loan (s.bump (fNetTxStaleCount x.blk.pathA.port) 1) := by
  rw [egressCopies_pathA ha hb hw, judgeCopy_stale (c := entryCopy fl x i loan e s false) hl]
  rfl

end

/-! ## The take -/

section
variable {fl : Nat} {x : TxFlow} (hx : mapFind? fl s.net.tx = some x)
include hx

theorem egressTake_closed (hq : s.queue? x.blk.queue = none) : egressTake fl s = s := by
  have hb : (s.queue? x.blk.queue).bind (fun q => q.held.head?) = none := by rw [hq]; rfl
  unfold egressTake egressPop
  rw [hx]
  dsimp only
  rw [hb]
  dsimp only
  rw [portPop_closed hq]

theorem egressTake_empty {q : Queue} (hq : s.queue? x.blk.queue = some q) (hh : q.held = []) :
    egressTake fl s = s.setQueue x.blk.queue (passed ((s.mtc + 2) % 2 ^ 32) s.clk q) := by
  have hb : (s.queue? x.blk.queue).bind (fun q => q.held.head?) = none := by rw [hq]; exact congrArg List.head? hh
  unfold egressTake egressPop
  rw [hx]
  dsimp only
  rw [hb]
  dsimp only
  rw [portPop_empty hq hh]
  rfl

/-- An empty queue moves LAST_KEY, and nothing else changes (R111). -/
theorem egressTake_passes {q : Queue} (hq : s.queue? x.blk.queue = some q) (hh : q.held = []) :
    let k := (s.mtc + 2) % 2 ^ 32
    ∃ t q', exec (.egressTake fl) s = .next t ∧ Kept [.mq] s t ∧ OnlyQueue x.blk.queue (some q') s t ∧ q'.held = [] ∧ q'.lastValid = true ∧
      q'.lastKey = if q.lastValid = false ∨ 0 < tickDiff k q.lastKey then k else q.lastKey := by
  intro k
  have hpass := passKey_is q k
  refine ⟨_, passed k s.clk q, congrArg Host.Outcome.next (egressTake_empty hx hq hh),
    fun p hp => by cases p <;> first | rfl | simp at hp, ⟨(queue_set ..).trans (if_pos rfl), fun j hj => (queue_set ..).trans (if_neg hj)⟩, ?_, ?_, ?_⟩
  · show (q.passKey k).held = _
    rw [hpass]; exact hh
  · show (q.passKey k).lastValid = _
    rw [hpass]
  · show (q.passKey k).lastKey = _
    rw [hpass]

variable {q : Queue} {i : Item} {rest : List Item} (hq : s.queue? x.blk.queue = some q) (hm : q.mode = .fifo) (hs : q.markSet = false)
  (hh : q.held = i :: rest) (hn : i.e.nobuf = false) (hd : tickDiff i.e.key ((s.mtc + 2) % 2 ^ 32) ≤ 0)
  (hw : timeOfTick ((nearTick s i.e.key).toNat - 2) ≤ s.time.t)
include hq hm hs hh hn hd hw

/-- A due head is popped at once, and its copies are made after the sequence number has gone on. -/
theorem egressTake_due : ∃ u q', u.queue? x.blk.queue = some q' ∧ q'.held = rest ∧ q'.n.popped = (q.n.popped + 1) % 2 ^ 32 ∧ Popped s u ∧
    egressTake fl s = egressCopies fl x i false (nearTick s i.e.key) ((s.tick : Int) - nearTick s i.e.key)
      (u.updTx fl (fun x => { x with seq := (x.seq + 1) % 65536 })) := by
  obtain ⟨u, q', hpop, hqueue, hheld, hpopped, hu⟩ :=
    portPop_due hq hm hh hd hs (attached s (0x40 + 8 * (if x.blk.pathA.present then x.blk.pathA.port else x.blk.pathB.port)))
  have htime : u.time = s.time := hu.mild.kept .time (by decide)
  have hb : (s.queue? x.blk.queue).bind (fun q => q.held.head?) = some i := by rw [hq]; exact congrArg List.head? hh
  refine ⟨u, q', hqueue, hheld, hpopped, hu, ?_⟩
  unfold egressTake
  rw [hx]
  dsimp only
  rw [hb]
  dsimp only
  rw [advanceTo_passed hw]
  unfold egressPop
  dsimp only
  rw [show W32 = 2 ^ 32 from rfl, hpop]
  dsimp only
  rw [hn, nearTick_congr htime, tick_congr htime]
  rfl

end

end Sys2Proof.Machine
end

section
/-!
PROOFS. What a take shows (R88 to R90, R92): the queue, the flow, the copies of the port and its counters.
-/

namespace Sys2Proof.Machine

variable {s t : State}

/-! ## Counters of a port lie above those of the ledger (R97) -/

theorem netCounter_notMem {as : List Nat} (h : ∀ a ∈ as, a < 0x80000) (p off : Nat) : (netCounter p off).addr ∉ as := fun hm => by
  have hlt := h _ hm
  simp only at hlt
  omega

theorem ledgerRegs_below : ∀ a ∈ ledgerRegs, a < 0x80000 := by decide

theorem mqPmu_below : ∀ a ∈ [(fPmuOvfPmc 259).addr], a < 0x80000 := by simp [fPmuOvfPmc, pmuBase]

/-- Registers of the ports are the same after a change of registers below them. -/
theorem RegsKept.netField {as : List Nat} (h : RegsKept as s t) (ha : ∀ a ∈ as, a < 0x80000) (p off lo w : Nat) :
    t.fld ⟨0x80000 + 0x10000 * p + off, lo, w⟩ = s.fld ⟨0x80000 + 0x10000 * p + off, lo, w⟩ :=
  congrArg (bits · lo w) (h _ (netCounter_notMem ha p off))

theorem updPort_fld (s : State) (p : Nat) (g : PortSt → PortSt) (f : Fld) : (s.updPort p g).fld f = s.fld f := rfl

theorem updPort_queue (s : State) (p : Nat) (g : PortSt → PortSt) (q : Nat) : (s.updPort p g).queue? q = s.queue? q := rfl

theorem updPort_tx (s : State) (p : Nat) (g : PortSt → PortSt) : (s.updPort p g).net.tx = s.net.tx := rfl

theorem entryCopy_congr {i : Item} (hb : ∀ ofs, bufWord t i.e.handle ofs = bufWord s i.e.handle ofs) (ht : t.time = s.time) (fl : Nat) (x : TxFlow)
    (loan : Bool) (e : Int) (pathB : Bool) : entryCopy fl x i loan e t pathB = entryCopy fl x i loan e s pathB := by
  unfold entryCopy
  dsimp only
  rw [hb, hb, nearTick_congr ht]

theorem entryCopy_ts (fl : Nat) (x : TxFlow) (i : Item) (loan : Bool) (e : Int) (s : State) (pathB : Bool) :
    ((entryCopy fl x i loan e s pathB).ts : Int) =
      (nearTick s (bufWord s i.e.handle 0).toNat * x.blk.rate / 48000 + x.blk.offset) % 2 ^ 32 :=
  Int.toNat_of_nonneg (Int.emod_nonneg _ (by decide))

/-- The buffer of an entry that the queue owned is free once its copies are refused. -/
theorem releaseEntry_tag {e : Entry} (hn : e.nobuf = false) (s : State) : ((releaseEntry e false s).tag e.handle).st = .free := by
  unfold releaseEntry
  rw [hn]
  exact seedFree_tag e.handle s

/-- The next sequence number of a flow. -/
abbrev numbered (x : TxFlow) : TxFlow := { x with seq := (x.seq + 1) % 65536 }

section
variable {fl : Nat} {x : TxFlow} (hx : mapFind? fl s.net.tx = some x) {q : Queue} {i : Item} {rest : List Item}
  (hq : s.queue? x.blk.queue = some q) (hm : q.mode = .fifo) (hs : q.markSet = false)
  (hh : q.held = i :: rest) (hn : i.e.nobuf = false) (hd : tickDiff i.e.key ((s.mtc + 2) % 2 ^ 32) ≤ 0)
  (hw : timeOfTick ((nearTick s i.e.key).toNat - 2) ≤ s.time.t)
include hx hq hm hs hh hn hd hw

/-- What the take shows of the queue and the flow, whatever becomes of the copies; `v` is the state in which they are judged. -/
theorem egressTake_numbers : ∃ v q', egressTake fl s = egressCopies fl x i false (nearTick s i.e.key) ((s.tick : Int) - nearTick s i.e.key) v ∧
    v.queue? x.blk.queue = some q' ∧ q'.held = rest ∧ q'.n.popped = (q.n.popped + 1) % 2 ^ 32 ∧ mapFind? fl v.net.tx = some (numbered x) ∧
    (∀ p, v.port p = s.port p) ∧ (∀ ofs, bufWord v i.e.handle ofs = bufWord s i.e.handle ofs) ∧ v.time = s.time ∧
    RegsKept [(fPmuOvfPmc 259).addr] s v := by
  obtain ⟨u, q', hqueue, hheld, hpopped, hu, htake⟩ := egressTake_due hx hq hm hs hh hn hd hw
  have hnet : u.net = s.net := hu.mild.kept .net (by decide)
  have hxu : mapFind? fl u.net.tx = some x := by rw [hnet]; exact hx
  have hnum := updTx_found hxu numbered
  refine ⟨u.updTx fl numbered, q', htake, ?_, hheld, hpopped, ?_, fun p => ?_, fun ofs => ?_, ?_, ?_⟩
  · rw [hnum]; exact hqueue
  · rw [hnum]; exact mapFind?_insert_self ..
  · rw [updTx_port]; unfold State.port; rw [hnet]
  · rw [hnum]; exact hu.bufWord_eq _ ofs
  · rw [hnum]; exact hu.mild.kept .time (by decide)
  · rw [hnum]; exact hu.mild.regs

variable (ha : x.blk.pathA.present = true) (hb : x.blk.pathB.present = false) (h18 : (bufWord s i.e.handle 4).getLsbD 18 = true)
include ha hb h18

/-- An entry that is not too late becomes a copy of its port (R89, R90). -/
theorem egressTake_sends (hl : (s.tick : Int) - nearTick s i.e.key ≤ s.fld (fNetEgrGraceTicks x.blk.pathA.port)) :
    ∃ t q', egressTake fl s = t ∧ t.queue? x.blk.queue = some q' ∧ q'.held = rest ∧ q'.n.popped = (q.n.popped + 1) % 2 ^ 32 ∧
      mapFind? fl t.net.tx = some (numbered x) ∧
      (t.port x.blk.pathA.port).copies = (s.port x.blk.pathA.port).copies ++ [entryCopy fl x i false (nearTick s i.e.key) s false] ∧
      t.fld (fNetTxLateCount x.blk.pathA.port) =
        (s.fld (fNetTxLateCount x.blk.pathA.port) + if 1 ≤ (s.tick : Int) - nearTick s i.e.key then 1 else 0) % 2 ^ 32 := by
  obtain ⟨v, q', htake, hqueue, hheld, hpopped, hflow, hport, hword, htime, hregs⟩ := egressTake_numbers hx hq hm hs hh hn hd hw
  generalize (s.tick : Int) - nearTick s i.e.key = late at *
  generalize nearTick s i.e.key = e at *
  generalize hp : x.blk.pathA.port = p at *
  have hgrace : v.fld (fNetEgrGraceTicks p) = s.fld (fNetEgrGraceTicks p) := hregs.netField mqPmu_below p 0x24 0 10
  have hcount : v.fld (fNetTxLateCount p) = s.fld (fNetTxLateCount p) := hregs.netField mqPmu_below p 0x54 0 32
  have hkept := egressCopies_kept (loan := false) (fl := fl) (e := e) (late := late) ha hb (by rw [hword]; exact h18) (by rw [hp, hgrace]; exact hl)
  rw [hp, entryCopy_congr hword htime] at hkept
  have hmild := lateCounted_mild p late v
  have hlate := lateCounted_fld p late v
  rw [hcount] at hlate
  generalize lateCounted p late v = w at *
  have hnet : w.net = v.net := hmild.kept .net (by decide)
  have hmq : w.mq = v.mq := hmild.kept .mq (by decide)
  refine ⟨_, q', htake.trans hkept, ?_, hheld, hpopped, ?_, ?_, (updPort_fld ..).trans hlate⟩
  · rw [updPort_queue]
    exact (congrArg (mapFind? _) hmq).trans hqueue
  · rw [updPort_tx, hnet]
    exact hflow
  · rw [State.port_updPort_self, ← hport p]
    unfold State.port
    rw [hnet]

/-- An entry that is too late is counted as STALE, and its buffer is freed (R90). -/
theorem egressTake_drops (hl : (s.fld (fNetEgrGraceTicks x.blk.pathA.port) : Int) < (s.tick : Int) - nearTick s i.e.key) :
    ∃ t q', egressTake fl s = t ∧ t.queue? x.blk.queue = some q' ∧ q'.held = rest ∧ q'.n.popped = (q.n.popped + 1) % 2 ^ 32 ∧
      mapFind? fl t.net.tx = some (numbered x) ∧ (t.port x.blk.pathA.port).copies = (s.port x.blk.pathA.port).copies ∧
      t.fld (fNetTxStaleCount x.blk.pathA.port) = (s.fld (fNetTxStaleCount x.blk.pathA.port) + 1) % 2 ^ 32 ∧ (t.tag i.e.handle).st = .free := by
  obtain ⟨v, q', htake, hqueue, hheld, hpopped, hflow, hport, hword, htime, hregs⟩ := egressTake_numbers hx hq hm hs hh hn hd hw
  generalize (s.tick : Int) - nearTick s i.e.key = late at *
  generalize nearTick s i.e.key = e at *
  generalize hp : x.blk.pathA.port = p at *
  have hgrace : v.fld (fNetEgrGraceTicks p) = s.fld (fNetEgrGraceTicks p) := hregs.netField mqPmu_below p 0x24 0 10
  have hcount : v.fld (fNetTxStaleCount p) = s.fld (fNetTxStaleCount p) := hregs.netField mqPmu_below p 0x58 0 32
  have hmild := releaseEntry_mild i.e false (v.bump (fNetTxStaleCount p) 1)
  have hnet : (releaseEntry i.e false (v.bump (fNetTxStaleCount p) 1)).net = v.net := hmild.kept .net (by decide)
  have hstale := egressCopies_stale (loan := false) (fl := fl) (e := e) (late := late) ha hb (by rw [hword]; exact h18) (by rw [hp, hgrace]; exact hl)
  rw [hp] at hstale
  refine ⟨_, q', htake.trans hstale, ?_, hheld, hpopped, ?_, ?_, ?_, releaseEntry_tag hn _⟩
  · exact (congrArg (mapFind? _) (hmild.kept .mq (by decide))).trans hqueue
  · exact (congrArg (fun n : NetSt => mapFind? fl n.tx) hnet).trans hflow
  · rw [← hport p]
    unfold State.port
    rw [hnet]
  · rw [← hcount]
    exact (hmild.regs.netField ledgerRegs_below p 0x58 0 32).trans (bump_netCounter_self p 0x58 1 v)

/-- A due entry of a flow with path A alone is sent, or found stale and freed. -/
theorem egressTake_judges :
    let e := nearTick s i.e.key
    let late : Int := s.tick - e
    let w1 := bufWord s i.e.handle 4
    let p := x.blk.pathA.port
    ∃ t q' y, exec (.egressTake fl) s = .next t ∧ t.queue? x.blk.queue = some q' ∧ q'.held = rest ∧ q'.n.popped = (q.n.popped + 1) % 2 ^ 32 ∧
      mapFind? fl t.net.tx = some y ∧ y.seq = (x.seq + 1) % 65536 ∧ y.blk = x.blk ∧
      (late ≤ s.fld (fNetEgrGraceTicks p) →
        ∃ c, (t.port p).copies = (s.port p).copies ++ [c] ∧ c.flow = fl ∧ c.pathB = false ∧ c.tick = e.toNat ∧ c.seq = x.seq ∧
          (c.ts : Int) = (nearTick s (bufWord s i.e.handle 0).toNat * x.blk.rate / 48000 + x.blk.offset) % 2 ^ 32 ∧
          c.marker = w1.getLsbD 17 ∧ c.handle = i.e.handle ∧ c.len = i.e.len ∧
          t.fld (fNetTxLateCount p) = (s.fld (fNetTxLateCount p) + if 1 ≤ late then 1 else 0) % 2 ^ 32) ∧
      (s.fld (fNetEgrGraceTicks p) < late →
        (t.port p).copies = (s.port p).copies ∧ t.fld (fNetTxStaleCount p) = (s.fld (fNetTxStaleCount p) + 1) % 2 ^ 32 ∧
        (t.tag i.e.handle).st = .free) := by
  intro e late w1 p
  rcases le_or_gt late (s.fld (fNetEgrGraceTicks p)) with hl | hl
  · obtain ⟨t, q', htake, hqueue, hheld, hpopped, hflow, hcopies, hcount⟩ := egressTake_sends hx hq hm hs hh hn hd hw ha hb h18 hl
    exact ⟨t, q', _, congrArg Host.Outcome.next htake, hqueue, hheld, hpopped, hflow, rfl, rfl,
      fun _ => ⟨_, hcopies, rfl, rfl, rfl, rfl, entryCopy_ts .., rfl, rfl, rfl, hcount⟩, fun h => absurd h (not_lt.mpr hl)⟩
  · obtain ⟨t, q', htake, hqueue, hheld, hpopped, hflow, hcopies, hcount, htag⟩ := egressTake_drops hx hq hm hs hh hn hd hw ha hb h18 hl
    exact ⟨t, q', _, congrArg Host.Outcome.next htake, hqueue, hheld, hpopped, hflow, rfl, rfl, fun h => absurd h (not_le.mpr hl),
      fun _ => ⟨hcopies, hcount, htag⟩⟩

end

end Sys2Proof.Machine
end

section
/-!
PROOFS. The copy that leaves a port (R72, R88, R91, R92): the earliest in order, sent in its headers or counted as link down.
-/

namespace Sys2Proof.Machine

variable {s t : State} {p : Nat} {c : Copy}

/-! ## The earliest copy (R91) -/

/-- The order in which copies leave is strict. -/
theorem copyBefore_asymm {a b : Copy} (h : copyBefore a b = true) : copyBefore b a = false := by
  unfold copyBefore at h ⊢
  generalize copyDue a = x at *
  generalize copyDue b = y at *
  simp only [Bool.or_eq_true, Bool.and_eq_true, decide_eq_true_eq, beq_iff_eq, Bool.not_eq_true'] at h
  simp only [Bool.or_eq_false_iff, Bool.and_eq_false_iff, decide_eq_false_iff_not, beq_eq_false_iff_ne, Bool.not_eq_false']
  rcases h with h | ⟨hxy, h | ⟨⟨hf, ha⟩, hb⟩⟩
  · exact ⟨by omega, .inl (by omega)⟩
  · exact ⟨by omega, .inr ⟨by omega, .inl (.inl (by omega))⟩⟩
  · exact ⟨by omega, .inr ⟨by omega, .inl (.inr hb)⟩⟩

/-- The copy that comes before every other one is the one chosen. -/
theorem earliest_is : ∀ (l : List Copy) (a : Copy), c ∈ a :: l → (∀ d ∈ a :: l, d ≠ c → copyBefore c d = true) →
    l.foldl (fun a b => if copyBefore b a then b else a) a = c
  | [], a, hc, _ => (List.mem_singleton.mp hc).symm
  | b :: l, a, hc, hbefore => by
    have hkeep : ∀ d ∈ (if copyBefore b a then b else a) :: l, d ∈ a :: b :: l := by
      intro d hd
      split at hd <;> simp only [List.mem_cons] at hd ⊢ <;> tauto
    refine earliest_is l _ (?_ : c ∈ (if copyBefore b a then b else a) :: l) fun d hd => hbefore d (hkeep d hd)
    by_cases hl : c ∈ l
    · exact List.mem_cons_of_mem _ hl
    · have hab : c = a ∨ c = b := by simpa [hl] using hc
      by_cases ha : c = a
      · by_cases hb : b = c
        · rw [hb, ← ha, ite_self]; exact List.mem_cons_self
        · rw [← ha, copyBefore_asymm (hbefore b (by simp) hb)]; exact List.mem_cons_self
      · have hb := hab.resolve_left ha
        rw [← hb, hbefore a (by simp) (Ne.symm ha)]; exact List.mem_cons_self

/-! ## What leaves -/

/-- The buffer of a copy is freed once no copy of it waits. -/
def copyDone (c : Copy) (s : State) : State :=
  if (List.range 4).any (fun q => (s.port q).copies.any (fun d => d.handle == c.handle)) then s else releaseEntry { handle := c.handle } c.loan s

/-- A copy counted as sent, with its flow's counts, its timestamp and its way back in loopback. -/
def copyCounted (p : Nat) (c : Copy) (back : Frame) (s : State) : State :=
  let u := (pmuEvent (260 + p) 0x502 1 (s.bump (fNetTxFramesCount p) 1)).updTx c.flow
    (fun x => { x with packets := (x.packets + 1) % W32, octets := (x.octets + c.len) % W32 })
  loopBack p back (if c.tsReq then txStamp p c.tsId u else u)

/-- A port without copies sends nothing. -/
theorem copyLeaves_none (h : (s.port p).copies = []) : copyLeaves p s = s := by
  unfold copyLeaves
  rw [h]

/-- The address of a port from which a path sends. -/
abbrev sourceOf (s : State) (p : Nat) (path : FlowPath) : Nat := if path.ipv6 then (s.port p).addr.ip6 else (s.port p).addr.ip4

/-- The state once a due copy has been taken from its port. -/
abbrev copyTaken (p : Nat) (c : Copy) (s : State) : State := s.updPort p (fun q => { q with copies := q.copies.erase c })

section
variable (hc : c ∈ (s.port p).copies) (hb : ∀ d ∈ (s.port p).copies, d ≠ c → copyBefore c d = true) (hd : copyDue c ≤ s.time.t)
include hc hb hd

theorem copyLeaves_sent (hl : linkUp s p = true) (hv : holdsVer (s.port p).addr (txPath c.blk c.pathB).ipv6 = true) : ∃ f back,
    copyLeaves p s = copyDone c (copyCounted p c back ((copyTaken p c s).draw.2.emit
      (.ethCopy p c (copyFrame p c (sourceOf s p (txPath c.blk c.pathB)) f (bufRead s c.handle 16 c.len))))) := by
  rcases hl' : (s.port p).copies with _ | ⟨c0, l⟩
  · rw [hl'] at hc; simp at hc
  rw [hl'] at hc hb
  have haddr : ((copyTaken p c s).port p).addr = (s.port p).addr := by rw [State.port_updPort_self]
  have hcan : (linkUp (copyTaken p c s) p && holdsVer ((copyTaken p c s).port p).addr (txPath c.blk c.pathB).ipv6) = true := by
    rw [haddr, hv, Bool.and_true]; exact hl
  refine ⟨(copyTaken p c s).draw.1, copyBack p c (sourceOf s p (txPath c.blk c.pathB)) (copyFrame p c (sourceOf s p (txPath c.blk c.pathB))
    (copyTaken p c s).draw.1 (bufRead s c.handle 16 c.len)).length (bufRead s c.handle 16 c.len), ?_⟩
  unfold copyLeaves
  rw [hl']
  dsimp only
  rw [earliest_is l c0 hc hb, advanceTo_passed hd, if_pos hcan, haddr]
  rfl

theorem copyLeaves_down (h : linkUp s p = false ∨ holdsVer (s.port p).addr (txPath c.blk c.pathB).ipv6 = false) :
    copyLeaves p s = copyDone c ((copyTaken p c s).bump (fNetTxLinkdownCount p) 1) := by
  rcases hl' : (s.port p).copies with _ | ⟨c0, l⟩
  · rw [hl'] at hc; simp at hc
  rw [hl'] at hc hb
  have haddr : ((copyTaken p c s).port p).addr = (s.port p).addr := by rw [State.port_updPort_self]
  have hcan : ¬ (linkUp (copyTaken p c s) p && holdsVer ((copyTaken p c s).port p).addr (txPath c.blk c.pathB).ipv6) = true := by
    rw [haddr, Bool.not_eq_true, Bool.and_eq_false_iff]; exact h
  unfold copyLeaves
  rw [hl']
  dsimp only
  rw [earliest_is l c0 hc hb, advanceTo_passed hd, if_neg hcan]
  rfl

end

/-! ## What a copy that leaves changes -/

/-- The overflow flags of a PMU are no register at another offset of a port's first page. -/
theorem netCounter_ne_pmuOvf {off : Nat} (h : off < 0x1000) (h' : off ≠ 0xc) (p set : Nat) : (netCounter p off).addr ≠ (fPmuOvfPmc set).addr := by
  have page : (pmuBase set + 0xc) % 0x1000 = 0xc := by
    unfold pmuBase
    split_ifs <;> omega
  intro he
  have : 0x80000 + 0x10000 * p + off = pmuBase set + 0xc := he
  omega

/-- Registers that a copy counted as sent may change, its own count apart. -/
abbrev departureRegs (p : Nat) : List Nat := (fTimeTsqLostCount p).addr :: (fTimeTsqStatOvf p).addr :: receptionRegs p

theorem txFrames_notMem (p : Nat) : (fNetTxFramesCount p).addr ∉ departureRegs p := by
  simp only [List.mem_cons, List.map_cons, List.map_nil, List.not_mem_nil, or_false, not_or]
  refine ⟨?_, ?_, netCounter_ne_pmuOvf (off := 0x50) (by decide) (by decide) p _, ?_⟩
  · show 0x80000 + 0x10000 * p + 0x50 ≠ 0x20104 + 0x20 * p; omega
  · show 0x80000 + 0x10000 * p + 0x50 ≠ 0x20100 + 0x20 * p; omega
  · simp [fNetTxFramesCount]

theorem newTime_mild (x : TimeSt) (s : State) : Mild [.time] [] s { s with time := x } :=
  mild_of (fun q hq => by cases q <;> first | rfl | simp at hq) rfl rfl rfl

theorem txStamp_mild (p id : Nat) (s : State) : Mild [.time] [(fTimeTsqLostCount p).addr, (fTimeTsqStatOvf p).addr] s (txStamp p id s) := by
  unfold txStamp
  dsimp only
  split
  · exact ((bump_mild (fTimeTsqLostCount p) 1 s).mono (by simp) (by simp)).trans ((setFld_mild (fTimeTsqStatOvf p) 1 _).mono (by simp) (by simp))
  · exact (newTime_mild _ s).mono (List.Subset.refl _) (List.nil_subset _)

theorem copyDone_mild (c : Copy) (s : State) : Mild [.seed, .hbm] ledgerRegs s (copyDone c s) := by
  unfold copyDone
  split
  · exact Mild.refl _ _ s
  · exact releaseEntry_mild ..

theorem copyDone_port (c : Copy) (s : State) (p : Nat) : (copyDone c s).port p = s.port p := by
  unfold State.port
  rw [(copyDone_mild c s).kept .net (by decide)]

theorem copyDone_fld (c : Copy) (s : State) (p off : Nat) : (copyDone c s).fld (netCounter p off) = s.fld (netCounter p off) :=
  (copyDone_mild c s).regs.netField ledgerRegs_below p off 0 32

/-- What a copy counted as sent changes once it is counted. -/
theorem copyCounted_mild (p : Nat) (c : Copy) (back : Frame) (s : State) :
    Mild [.pmu, .net, .time] (departureRegs p) (s.bump (fNetTxFramesCount p) 1) (copyCounted p c back s) := by
  unfold copyCounted
  dsimp only
  have counted := (((pmuEvent_mild (260 + p) 0x502 1 (s.bump (fNetTxFramesCount p) 1)).mono (by simp) (by simp)).trans
    ((updTx_mild c.flow (fun x => { x with packets := (x.packets + 1) % W32, octets := (x.octets + c.len) % W32 }) _).mono (by simp) (by simp)) :
    Mild [.pmu, .net, .time] (departureRegs p) _ _)
  have back : ∀ u, Mild [.pmu, .net, .time] (departureRegs p) u (loopBack p back u) := fun u =>
    (loopBack_receives p back u).mild.mono (by simp) fun a ha => List.mem_cons_of_mem _ (List.mem_cons_of_mem _ ha)
  split
  · exact (counted.trans ((txStamp_mild p c.tsId _).mono (by simp) (by simp))).trans (back _)
  · exact counted.trans (back _)

theorem copyCounted_copies (p : Nat) (c : Copy) (back : Frame) (s : State) : ((copyCounted p c back s).port p).copies = (s.port p).copies := by
  have stamp : ∀ u : State, (if c.tsReq then txStamp p c.tsId u else u).net = u.net := fun u => by
    split
    · exact (txStamp_mild p c.tsId u).kept .net (by decide)
    · rfl
  have counted : ∀ u : State, (pmuEvent (260 + p) 0x502 1 u).net = u.net := fun u => (pmuEvent_mild (260 + p) 0x502 1 u).kept .net (by decide)
  unfold copyCounted
  dsimp only
  refine ((loopBack_receives p back _).egress.ports p).2.trans ?_
  refine congrArg PortSt.copies (Eq.trans (by unfold State.port; rw [stamp]) ((updTx_port c.flow _ _ p).trans ?_))
  unfold State.port
  rw [counted]
  rfl

/-- The count of sent frames goes on by one. -/
theorem copyCounted_frames (p : Nat) (c : Copy) (back : Frame) (s : State) :
    (copyCounted p c back s).fld (fNetTxFramesCount p) = (s.fld (fNetTxFramesCount p) + 1) % 2 ^ 32 :=
  (congrArg (bits · 0 32) ((copyCounted_mild p c back s).regs _ (txFrames_notMem p))).trans (bump_netCounter_self p 0x50 1 s)

section
variable (hc : c ∈ (s.port p).copies) (hb : ∀ d ∈ (s.port p).copies, d ≠ c → copyBefore c d = true) (hd : copyDue c ≤ s.time.t)
include hc hb hd

theorem copyDeparture_sends (hl : linkUp s p = true) (hv : holdsVer (s.port p).addr (txPath c.blk c.pathB).ipv6 = true) :
    ∃ t f, exec (.copyDeparture p) s = .next t ∧ (t.port p).copies = (s.port p).copies.erase c ∧
      MsixAfter (s.out ++ [.ethCopy p c (copyFrame p c (sourceOf s p (txPath c.blk c.pathB)) f (bufRead s c.handle 16 c.len))]) t.out ∧
      t.fld (fNetTxFramesCount p) = (s.fld (fNetTxFramesCount p) + 1) % 2 ^ 32 := by
  obtain ⟨f, back, hleaves⟩ := copyLeaves_sent hc hb hd hl hv
  refine ⟨_, f, congrArg Host.Outcome.next hleaves, ?_, ?_, ?_⟩
  · rw [copyDone_port, copyCounted_copies]
    exact congrArg PortSt.copies (State.port_updPort_self p _ s)
  · exact (copyCounted_mild p c back _).out.trans (copyDone_mild c _).out
  · exact (copyDone_fld c _ p 0x50).trans (copyCounted_frames p c back _)

theorem copyDeparture_drops (h : linkUp s p = false ∨ holdsVer (s.port p).addr (txPath c.blk c.pathB).ipv6 = false) :
    ∃ t, exec (.copyDeparture p) s = .next t ∧ (t.port p).copies = (s.port p).copies.erase c ∧ MsixAfter s.out t.out ∧
      t.fld (fNetTxLinkdownCount p) = (s.fld (fNetTxLinkdownCount p) + 1) % 2 ^ 32 := by
  refine ⟨_, congrArg Host.Outcome.next (copyLeaves_down hc hb hd h), ?_, ?_, ?_⟩
  · rw [copyDone_port]
    exact congrArg PortSt.copies (State.port_updPort_self p _ s)
  · exact (copyDone_mild c _).out
  · exact (copyDone_fld c _ p 0x5c).trans (bump_netCounter_self p 0x5c 1 _)

end

end Sys2Proof.Machine
end

section
/-!
PROOFS. Sender reports (R95), and with them everything an egress flow shows.
-/

namespace Sys2Proof.Machine

variable {s t : State} {fl : Nat} {x : TxFlow}

/-! ## One path -/

/-- The flow's path can send: its port's link is up, and the port has an address of its IP version. -/
abbrev canSend (s : State) (k : FlowPath) : Bool := k.present && linkUp s k.port && holdsVer (s.port k.port).addr k.ipv6

/-- The report of an egress flow on a path. -/
abbrev reportOf (fl : Nat) (x : TxFlow) (s : State) (b : Bool) : OutMsg :=
  .rtcp fl b x.blk.ssrc (s.time.t / 2 ^ 32) ((s.tick * x.blk.rate / 48000 + x.blk.offset) % W32) x.packets x.octets

/-- A path that can send carries its report, which in loopback comes back to its port. -/
def pathReport (fl : Nat) (x : TxFlow) (s : State) (b : Bool) : State :=
  let p := txPath x.blk b
  if canSend s p then svcBack p.port .udp .unknown p.ipv6 p.dst (p.sport + 1) (p.dport + 1) (s.emit (reportOf fl x s b)) else s

theorem senderReport_silent (hx : mapFind? fl s.net.tx = some x) (h : x.blk.rtcpEn = false ∨ s.glb.svcDown = true) : senderReport fl s = s := by
  unfold senderReport
  rw [hx]
  exact if_pos (by simpa using h)

theorem senderReport_paths (hx : mapFind? fl s.net.tx = some x) (he : x.blk.rtcpEn = true) (hs : s.glb.svcDown = false) :
    senderReport fl s = pathReport fl x (pathReport fl x s false) true := by
  unfold senderReport
  rw [hx]
  exact if_neg (by simp [he, hs])

/-! ## Without loopback -/

theorem svcBack_apart {p : Nat} (h : s.flag (fNetCtlLoop p) = false) (kind : FrameKind) (c : UdpCarries) (v6 : Bool) (dst sport dport : Nat) :
    svcBack p kind c v6 dst sport dport s = s := if_neg (by rw [h]; decide)

/-- A report that does not come back is only sent. -/
theorem pathReport_sent {b : Bool} (h : (txPath x.blk b).present = true → s.flag (fNetCtlLoop (txPath x.blk b).port) = false) :
    pathReport fl x s b = { s with out := s.out ++ if canSend s (txPath x.blk b) then [reportOf fl x s b] else [] } := by
  unfold pathReport
  dsimp only
  split
  · next hc =>
    obtain ⟨hpl, -⟩ := Bool.and_eq_true_iff.mp hc
    obtain ⟨hp, -⟩ := Bool.and_eq_true_iff.mp hpl
    exact svcBack_apart (s := s.emit (reportOf fl x s b)) (h hp) ..
  · rw [List.append_nil]

theorem senderReport_sent (hx : mapFind? fl s.net.tx = some x) (he : x.blk.rtcpEn = true) (hs : s.glb.svcDown = false)
    (h : ∀ b, (txPath x.blk b).present = true → s.flag (fNetCtlLoop (txPath x.blk b).port) = false) :
    senderReport fl s = { s with out := s.out ++ ((if canSend s x.blk.pathA then [reportOf fl x s false] else []) ++
      (if canSend s x.blk.pathB then [reportOf fl x s true] else [])) } := by
  rw [senderReport_paths hx he hs, pathReport_sent (h false), ← List.append_assoc]
  exact pathReport_sent (s := { s with out := s.out ++ if canSend s x.blk.pathA then [reportOf fl x s false] else [] }) (h true)

/-! ## With loopback -/

/-- Registers at other offsets of a port's first page are no counters of reception. -/
theorem netCounter_notReception {off : Nat} (h : off < 0x30) (h' : off ≠ 0xc) (p q : Nat) : (netCounter q off).addr ∉ receptionRegs p := by
  intro hm
  rcases List.mem_cons.mp hm with hm | hm
  · exact netCounter_ne_pmuOvf (by omega) h' q _ hm
  · obtain ⟨o, ho, he⟩ := List.mem_map.mp hm
    have hrange : ∀ o ∈ [0x30, 0x34, 0x38, 0x3c, 0x40, 0x44, 0x48, 0x4c, 0x60, 0x64], 0x30 ≤ o ∧ o < 0x10000 := by decide
    have := hrange o ho
    simp only at he
    omega

/-- A path has reported, and the message may have come back. -/
structure Reported (s t : State) : Prop where
  kept : Kept [.regs, .out, .pmu, .hif, .net, .free] s t
  tx   : t.net.tx = s.net.tx
  out  : s.out <+: t.out
  can  : ∀ k, canSend t k = canSend s k

theorem Reported.refl (s : State) : Reported s s := ⟨Kept.refl _ s, rfl, List.prefix_refl _, fun _ => rfl⟩

theorem Reported.trans {u : State} (h : Reported s t) (g : Reported t u) : Reported s u :=
  ⟨h.kept.trans g.kept, g.tx.trans h.tx, h.out.trans g.out, fun k => (g.can k).trans (h.can k)⟩

theorem CameBack.reported {p : Nat} (h : CameBack p s t) : Reported s t := by
  obtain ⟨hm, he⟩ := h
  obtain ⟨r, hr, -⟩ := hm.out
  refine ⟨hm.kept.mono (by simp), he.tx, ⟨r, hr.symm⟩, fun k => ?_⟩
  have link : linkUp t k.port = linkUp s k.port := by
    unfold linkUp State.flag State.fld
    rw [hm.regs (fNetCtlEn k.port).addr (netCounter_notReception (off := 0x4) (by decide) (by decide) p _),
      hm.regs (fNetStatLink k.port).addr (netCounter_notReception (off := 0x8) (by decide) (by decide) p _)]
  unfold canSend
  rw [link, (he.ports k.port).1]

theorem emit_reported (m : OutMsg) (s : State) : Reported s (s.emit m) :=
  ⟨fun q hq => by cases q <;> first | rfl | simp at hq, rfl, List.prefix_append _ _, fun _ => rfl⟩

theorem pathReport_reported (fl : Nat) (x : TxFlow) (s : State) (b : Bool) : Reported s (pathReport fl x s b) := by
  unfold pathReport
  dsimp only
  split
  · exact (emit_reported _ s).trans (svcBack_cameBack ..).reported
  · exact Reported.refl s

/-- A path that can send has sent its report. -/
theorem pathReport_mem {b : Bool} (h : canSend s (txPath x.blk b) = true) : reportOf fl x s b ∈ (pathReport fl x s b).out := by
  unfold pathReport
  dsimp only
  rw [if_pos h]
  exact (svcBack_cameBack ..).reported.out.subset (List.mem_append_right _ List.mem_cons_self)

theorem senderReport_reports (hx : mapFind? fl s.net.tx = some x) (he : x.blk.rtcpEn = true) (hs : s.glb.svcDown = false) :
    ∃ t, exec (.rtcpSenderReport fl) s = .next t ∧ Reported s t ∧ ∀ b, canSend s (txPath x.blk b) = true → reportOf fl x s b ∈ t.out := by
  have first := pathReport_reported fl x s false
  have second := pathReport_reported fl x (pathReport fl x s false) true
  refine ⟨_, congrArg Host.Outcome.next (senderReport_paths hx he hs), first.trans second, fun b hb => ?_⟩
  cases b with
  | false => exact second.out.subset (pathReport_mem hb)
  | true =>
    have htime : (pathReport fl x s false).time = s.time := first.kept .time (by decide)
    have hmsg : reportOf fl x (pathReport fl x s false) true = reportOf fl x s true := by
      unfold reportOf
      rw [htime, tick_congr htime]
    rw [← hmsg]
    exact pathReport_mem ((first.can _).trans hb)

/-! ## The statement -/

/-- Settles O40, by the lemmas about the take, the copy that leaves and the sender report. -/
theorem egressResults : Obligations.EgressResults := by
  unfold Obligations.EgressResults
  refine ⟨fun s fl x hx => ⟨fun hq => congrArg Host.Outcome.next (egressTake_closed hx hq), fun q hq hh => egressTake_passes hx hq hh, ?_⟩,
    fun s p => ⟨fun h => congrArg Host.Outcome.next (copyLeaves_none h), fun c hc hb hd => ⟨fun hl hv => ?_, fun h => ?_⟩⟩,
    fun s fl x hx => ⟨fun h => congrArg Host.Outcome.next (senderReport_silent hx h), fun he hs => ⟨fun h => ?_, ?_⟩⟩⟩
  · intro q i rest hq hm hs hh hn hd e late w1 hw ha hb h18
    exact egressTake_judges hx hq hm hs hh hn hd hw ha hb h18
  · exact copyDeparture_sends hc hb hd hl hv
  · exact copyDeparture_drops hc hb hd h
  · exact congrArg Host.Outcome.next (senderReport_sent hx he hs h)
  · obtain ⟨t, hexec, reported, hmsg⟩ := senderReport_reports hx he hs
    exact ⟨t, hexec, reported.kept, reported.tx, reported.out, hmsg⟩

end Sys2Proof.Machine
end

section
/-!
PROOFS. Queue commands: what QUEUE.OPEN, CLOSE, MARK, REWIND and STATS answer, and the one queue that they change (R101, R102, R105, R121 to R127).
-/

namespace Sys2Proof.Machine

section
variable {op : Nat} {h : KciHdr} {q : Nat} {s u t : State} {x y : Queue}

/-! ## Queues and their items -/

theorem queueNumber_ok (hq : q < 65536) : firstErr [chkRange q 0 65535] = none := by
  rw [chkRange_ok (Nat.zero_le _) (by omega)]; rfl

theorem onlyQueue_insert (hu : u.mq = mapInsert q y (started op h s).mq) (k : Kept [.regs, .hif, .out] u t) : OnlyQueue q (some y) s t :=
  onlyQueue_of (.inr ⟨y, .inl hu⟩) (by unfold State.queue?; rw [hu, mapFind?_insert_self]) k

theorem onlyQueue_erase (hu : u.mq = mapErase q (started op h s).mq) (k : Kept [.regs, .hif, .out] u t) : OnlyQueue q none s t :=
  onlyQueue_of (.inr ⟨{ mode := .fifo, depth := 0, retain := 0, account := 0 }, .inr hu⟩) (by unfold State.queue?; rw [hu, mapFind?_erase_self]) k

theorem freeItems_mild (is : List Item) (s : State) : Mild [.seed, .hbm] ledgerRegs s (is.foldl (fun s i => freeItem i.e s) s) :=
  foldl_mild _ (fun s i => freeItem_ledger i.e s) is s

/-- A queue is replaced, and the buffers of items that it lets go are freed (R121). -/
abbrev replacedFreeing (q : Nat) (y : Queue) (is : List Item) (s : State) : State := is.foldl (fun s i => freeItem i.e s) (s.setQueue q y)

theorem replacedFreeing_mild (q : Nat) (y : Queue) (is : List Item) (s : State) :
    Mild [.mq, .seed, .hbm, .ump] ledgerRegs s (replacedFreeing q y is s) :=
  ((setQueue_mild q y s).mono (by simp) (List.nil_subset _)).trans ((freeItems_mild is _).mono (by simp) (List.Subset.refl _))

theorem replacedFreeing_mq (q : Nat) (y : Queue) (is : List Item) (s : State) : (replacedFreeing q y is s).mq = mapInsert q y s.mq :=
  (freeItems_mild is _).kept .mq (by decide)

/-- A closed queue is gone, and with it its place in its graph and the buffers of its items (R125). -/
theorem closeQueue_is (hx : s.queue? q = some x) : ∃ u, closeQueue q s = ((x.held ++ x.retained).countP (fun i => !i.e.nobuf), u) ∧
    Mild [.mq, .seed, .graphs, .hbm, .ump] ledgerRegs s u ∧ u.mq = mapErase q s.mq := by
  unfold closeQueue
  rw [hx]
  dsimp only
  set v := State.mapGraphs _ _ with hv
  have mv : Mild [.seed, .graphs, .hbm] ledgerRegs s v := by
    rw [hv]
    refine (Mild.mono (foldl_mild _ (fun s e => freeItem_ledger e s) _ s) (by simp) (List.Subset.refl _)).trans ((mapGraphs_mild _ _).mono (by simp) (List.nil_subset _))
  refine ⟨{ v with mq := mapErase q v.mq }, ?_, ?_, ?_⟩
  · rw [List.countP_eq_length_filter, List.filter_map, List.length_map]; rfl
  · have erased : Mild [.mq] [] v { v with mq := mapErase q v.mq } :=
      mild_of (by intro p hp; cases p <;> first | rfl | simp at hp) rfl rfl rfl
    exact (mv.mono (by simp) (List.Subset.refl _)).trans (erased.mono (by simp) (List.nil_subset _))
  · show mapErase q v.mq = _
    rw [mv.kept .mq (by decide)]

theorem onQueue_allowed {ok : Queue → Bool} {f : Queue → State → KciRes} (hx : s.queue? q = some x) (hok : ok x = true)
    (hp : pendingPops s q = 0) : onQueue q ok f s = f x s := by
  unfold onQueue
  rw [hx]
  simp [hok, hp]

theorem onQueue_started {ok : Queue → Bool} {f : Queue → State → KciRes} (hx : s.queue? q = some x) (hok : ok x = true)
    (hp : pendingPops s q = 0) : onQueue q ok f (started op h s) = f x (started op h s) :=
  onQueue_allowed ((started_queue? op h s q).trans hx) hok ((pend_started op h s q).trans hp)

end

section
variable {h : KciHdr} {q : Nat} {s : State} {x : Queue}

/-! ## QUEUE.OPEN and QUEUE.CLOSE (R102, R125) -/

/-- The queue that QUEUE.OPEN opens. -/
def openedAs (o : QueueOp) : Queue := { mode := modeOf o.mode, depth := o.depth, retain := o.retain, account := o.account }

theorem queueOpen_opens {o : QueueOp} (ho : QueueLegal o) (hr : kciReady 0x0501 h (keyQueue o.queue) s = true) (hq : s.queue? o.queue = none)
    (hs : spillUsed s + spillKib (modeOf o.mode) o.depth o.retain ≤ s.fld fMqSpillSizeMib * 1024) :
    ∃ t, exec (.queueOpen h o) s = .next t ∧ Done 0x0501 h 0 [] [] [] s t ∧ Kept [.regs, .hif, .out, .mq] s t ∧
      OnlyQueue o.queue (some (openedAs o)) s t := by
  have hf : openQueue o (started 0x0501 h s) = kciOk ((started 0x0501 h s).setQueue o.queue (openedAs o)) := by
    unfold openQueue
    rw [started_queue?, hq, started_fld, started_same spillUsed 0x0501 h s (fun _ => rfl), if_neg (by simp), if_neg (by omega)]
    rfl
  obtain ⟨t, e, d, k, ku⟩ := completes (i := .queueOpen h o) rfl _ 0 [] [.mq] [] hr (queueChecks_ok ho) hf (setQueue_mild _ _ _) (by decide) (by decide)
  exact ⟨t, e, d, k, onlyQueue_insert rfl ku⟩

theorem queueOpen_noSpace {o : QueueOp} (ho : QueueLegal o) (hr : kciReady 0x0501 h (keyQueue o.queue) s = true) (hq : s.queue? o.queue = none)
    (hs : s.fld fMqSpillSizeMib * 1024 < spillUsed s + spillKib (modeOf o.mode) o.depth o.retain) : FailsWith (.queueOpen h o) 0x0501 h s 6 := by
  refine fails rfl hr (queueChecks_ok ho) (by decide) ?_
  unfold openQueue
  rw [started_queue?, hq, started_fld, started_same spillUsed 0x0501 h s (fun _ => rfl), if_neg (by simp), if_pos hs]

theorem queueClose_closes (hq : q < 65536) (hx : s.queue? q = some x) (hr : kciReady 0x0502 h (keyQueue q) s = true) (hn : flowNames s q = false)
    (hp : pendingOn s q = false) :
    ∃ t, exec (.queueClose h q) s = .next t ∧
      Done 0x0502 h 0 [(x.held ++ x.retained).countP (fun i => !i.e.nobuf)] [] ledgerRegs s t ∧
      Kept [.regs, .hif, .out, .mq, .seed, .graphs, .hbm, .ump] s t ∧ OnlyQueue q none s t := by
  have hx' := (started_queue? 0x0502 h s q).trans hx
  obtain ⟨u, hu, mu, hmq⟩ := closeQueue_is hx'
  obtain ⟨t, e, d, k, ku⟩ := completes (i := .queueClose h q) rfl u 0 _ _ ledgerRegs hr (queueNumber_ok hq)
    (by rw [hx', started_same (flowNames · q) 0x0502 h s (fun _ => rfl), started_same (pendingOn · q) 0x0502 h s (fun _ => rfl), hn, hp, hu]; rfl)
    mu (by decide) (by decide)
  exact ⟨t, e, d, k, onlyQueue_erase hmq ku⟩

/-! ## QUEUE.MARK (R121) -/

theorem queueMark_marks (hq : q < 65536) (hx : s.queue? q = some x) (hr : kciReady 0x0503 h (keyQueue q) s = true) (hn : x.retain ≠ 0)
    (hp : pendingPops s q = 0) :
    ∃ t, exec (.queueMark h q) s = .next t ∧ Done 0x0503 h 0 [] [] ledgerRegs s t ∧ Kept [.regs, .hif, .out, .mq, .seed, .hbm, .ump] s t ∧
      OnlyQueue q (some { x with retained := [], markSet := true, markValid := true, markLost := false, marks := x.marks + 1 }) s t := by
  have hx' := (started_queue? 0x0503 h s q).trans hx
  obtain ⟨t, e, d, k, ku⟩ := completes (i := .queueMark h q) rfl (replacedFreeing q _ x.retained (started 0x0503 h s)) 0 [] _ ledgerRegs hr
    (queueNumber_ok hq)
    (by rw [onQueue_started hx (by simpa using hn) hp]; unfold placeMark; rw [hx']; rfl)
    (replacedFreeing_mild ..) (by decide) (by decide)
  exact ⟨t, e, d, k, onlyQueue_insert (replacedFreeing_mq ..) ku⟩

theorem queueMarkClear_clears (hq : q < 65536) (hx : s.queue? q = some x) (hr : kciReady 0x0503 h (keyQueue q) s = true) (hn : x.retain ≠ 0)
    (hp : pendingPops s q = 0) :
    ∃ t, exec (.queueMarkClear h q) s = .next t ∧ Done 0x0503 h 0 [] [] ledgerRegs s t ∧ Kept [.regs, .hif, .out, .mq, .seed, .hbm, .ump] s t ∧
      OnlyQueue q (some { x with retained := [], markSet := false, markValid := false }) s t := by
  have hx' := (started_queue? 0x0503 h s q).trans hx
  obtain ⟨t, e, d, k, ku⟩ := completes (i := .queueMarkClear h q) rfl (replacedFreeing q _ x.retained (started 0x0503 h s)) 0 [] _ ledgerRegs hr
    (queueNumber_ok hq)
    (by rw [onQueue_started hx (by simpa using hn) hp]; unfold clearMark; rw [hx']; rfl)
    (replacedFreeing_mild ..) (by decide) (by decide)
  exact ⟨t, e, d, k, onlyQueue_insert (replacedFreeing_mq ..) ku⟩

/-! ## QUEUE.REWIND (R124) -/

/-- A rewind whose instruction replays: the retained items are held again. -/
theorem replays {i : Instr} {operands : State → List Check} {f : State → KciRes} (he : exec i s = .next (kci 0x0504 h (keyQueue q) operands f s))
    (hx : s.queue? q = some x) (hr : kciReady 0x0504 h (keyQueue q) s = true) (hc : firstErr (operands (started 0x0504 h s)) = none)
    (hn : x.retained ≠ []) (hf : f (started 0x0504 h s) = kciOk (replayAll q (started 0x0504 h s))) :
    ∃ t y, exec i s = .next t ∧ Done 0x0504 h 0 [] [] [] s t ∧ Kept [.regs, .hif, .out, .mq] s t ∧ OnlyQueue q (some y) s t ∧ Replayed x y := by
  obtain ⟨y, hy, ry⟩ := replayAll_is ((started_queue? 0x0504 h s q).trans hx) hn
  obtain ⟨t, e, d, k, ku⟩ := completes he _ 0 [] [.mq] [] hr hc (hf.trans (by rw [hy]; rfl)) (setQueue_mild q y _) (by decide) (by decide)
  exact ⟨t, y, e, d, k, onlyQueue_insert rfl ku, ry⟩

section
variable (hq : q < 65536) (hx : s.queue? q = some x) (hr : kciReady 0x0504 h (keyQueue q) s = true) (hm : x.markSet = true)
  (hp : pendingPops s q = 0)
include hq hx hr hm hp

theorem queueRewind_replays (hv : x.markValid = true) (hn : x.retained ≠ []) :
    ∃ t y, exec (.queueRewind h q) s = .next t ∧ Done 0x0504 h 0 [] [] [] s t ∧ Kept [.regs, .hif, .out, .mq] s t ∧
      OnlyQueue q (some y) s t ∧ Replayed x y := by
  refine replays rfl hx hr (queueNumber_ok hq) hn ?_
  obtain ⟨i, l, hl⟩ := List.exists_cons_of_ne_nil hn
  rw [onQueue_started hx hm hp, rewind, hv, hl]

theorem queueRewind_empty (hv : x.markValid = true) (hn : x.retained = []) :
    ∃ t, exec (.queueRewind h q) s = .next t ∧ Done 0x0504 h 0 [] [] [] s t ∧ Kept [.regs, .hif, .out] s t := by
  obtain ⟨t, e, d, k, -⟩ := completes (i := .queueRewind h q) rfl _ 0 [] [] [] hr (queueNumber_ok hq)
    (by rw [onQueue_started hx hm hp, rewind, hv, hn]; rfl) (Mild.refl _ _ _) (by decide) (by decide)
  exact ⟨t, e, d, k⟩

theorem queueRewind_lost (hv : x.markValid = false) :
    ∃ t r, exec (.queueRewind h q) s = .next t ∧ Done 0x0504 h 10 r [] [] s t ∧ Kept [.regs, .hif, .out] s t := by
  have lost : ∃ r, rewind q x (started 0x0504 h s) = .done eLost r (started 0x0504 h s) := by
    unfold rewind
    rw [hv]
    cases x.retained <;> exact ⟨_, rfl⟩
  obtain ⟨r, hl⟩ := lost
  obtain ⟨t, e, d, k, -⟩ := completes (i := .queueRewind h q) rfl _ eLost r [] [] hr (queueNumber_ok hq)
    ((onQueue_started hx hm hp).trans hl) (Mild.refl _ _ _) (by decide) (by decide)
  exact ⟨t, r, e, d, k⟩

theorem queueRewindFromOldest_replays (hn : x.retained ≠ []) :
    ∃ t y, exec (.queueRewindFromOldest h q) s = .next t ∧ Done 0x0504 h 0 [] [] [] s t ∧ Kept [.regs, .hif, .out, .mq] s t ∧
      OnlyQueue q (some y) s t ∧ Replayed x y :=
  replays rfl hx hr (queueNumber_ok hq) hn (by rw [onQueue_started hx hm hp, if_neg (by simpa using hn)])

end

/-! ## QUEUE.STATS (R126) -/

/-- A queue once a host that cleared its counts has read them: HIGH_WATER starts from what it holds. -/
abbrev countsRead (clear : Bool) (x : Queue) : Queue :=
  if clear then { x with n := { highWater := x.held.length + x.retained.length } } else x

theorem queueStats_reads (hq : q < 65536) (hx : s.queue? q = some x) (clear : Bool) (hr : kciReady 0x0505 h (keyQueue q) s = true) :
    ∃ t, exec (.queueStats h q clear) s = .next t ∧ Done 0x0505 h 0 [60] [.result h.raddr (queueWords x)] [] s t ∧
      Kept [.regs, .hif, .out, .mq] s t ∧ OnlyQueue q (some (countsRead clear x)) s t := by
  have hx' := (started_queue? 0x0505 h s q).trans hx
  cases clear with
  | true =>
    obtain ⟨t, e, d, k, ku⟩ := records (i := .queueStats h q true) rfl _ (queueWords x) [.mq] [] hr (queueNumber_ok hq)
      (by rw [hx']; rfl) (setQueue_mild q (countsRead true x) _) (by decide) (by decide)
    exact ⟨t, e, d, k, onlyQueue_insert rfl ku⟩
  | false =>
    obtain ⟨t, e, d, k, ku⟩ := records (i := .queueStats h q false) rfl _ (queueWords x) [.mq] [] hr (queueNumber_ok hq)
      (by rw [hx']; rfl) (Mild.refl _ _ _) (by decide) (by decide)
    exact ⟨t, e, d, k, onlyQueue_of (.inl rfl) hx' ku⟩

end

/-- Settles O23, one lemma per command and outcome: each names the state that the effect leaves, with the one queue in it, and the completion
changes neither. -/
theorem queueCommands : Obligations.QueueCommands := by
  intro s h q hq
  refine ⟨?_, fun x hx => ⟨?_, ?_, ?_, ?_⟩⟩
  · rintro o rfl ho hr hn
    exact ⟨queueOpen_opens ho hr hn, queueOpen_noSpace ho hr hn⟩
  · exact queueClose_closes hq hx
  · exact fun hr hn hp => ⟨queueMark_marks hq hx hr hn hp, queueMarkClear_clears hq hx hr hn hp⟩
  · exact fun hr hm hp => ⟨queueRewind_replays hq hx hr hm hp, queueRewind_empty hq hx hr hm hp, queueRewind_lost hq hx hr hm hp,
      queueRewindFromOldest_replays hq hx hr hm hp⟩
  · exact queueStats_reads hq hx

end Sys2Proof.Machine
end

section
/-!
PROOFS. Pops by a node: what MQPOP writes and records, and how it moves the one queue that it names (R99, R104, R110, R111, R117, R265).
-/

namespace Sys2Proof.Machine

/-! ## What an instruction leaves that works on a queue -/

/-- The queues as they were before. -/
abbrev keepMq (s t : State) : State := { t with mq := s.mq }

section
variable {k : Nat} {s t u : State}

/-- A frame says nothing of the registers and the queues once both are the same on both sides. -/
theorem CoreOnly.withMq (h : CoreOnly k s t) (r : List (Nat × Word)) (m : List (Nat × Queue)) :
    CoreOnly k { s with regs := r, mq := m } { t with regs := r, mq := m } :=
  { h with mq := rfl, regs := fun _ _ => rfl }

theorem CoreOnly.unit (h : CoreOnly k s t) : UnitOnly k 259 keepMq s t :=
  ⟨h.withMq s.regs s.mq, fun b hb _ => h.regs b hb⟩

theorem UnitOnly.trans (h : UnitOnly k 259 keepMq s t) (g : UnitOnly k 259 keepMq t u) : UnitOnly k 259 keepMq s u :=
  ⟨h.rest.trans (g.rest.withMq s.regs s.mq), fun b hb hs => (g.regs b hb hs).trans (h.regs b hb hs)⟩

theorem setQueue_unit (k q : Nat) (x : Queue) (s : State) : UnitOnly k 259 keepMq s (s.setQueue q x) :=
  ⟨CoreOnly.refl k s, fun _ _ _ => rfl⟩

theorem pmuEvent_unit (k ev n : Nat) (s : State) : UnitOnly k 259 keepMq s (pmuEvent 259 ev n s) :=
  ⟨((pmuEvent_count 259 ev n s).only k).withMq s.regs s.mq, fun _ _ hs => pmuEvent_reg 259 ev n s hs⟩

theorem record_unit (k : Nat) (f : RunRec → RunRec) (s : State) : UnitOnly k 259 keepMq s (record k f s) := (updCore_only k _ s).unit

theorem record_cor (k : Nat) (f : RunRec → RunRec) (s : State) : (record k f s).cor k = { s.cor k with run := f (s.cor k).run } :=
  State.cor_updCore_self ..

end

/-! ## What a pop takes (R104, R110, R111) -/

section
variable {q : Nat} {x : Queue} {s : State} {bound : Option Nat}

theorem settle_is (x : Queue) : ∃ a b, x.settle = { x with headWin := a, tailWin := b } := by
  unfold Queue.settle
  split <;> exact ⟨_, _, rfl⟩

theorem refill_is (x : Queue) : ∃ a b, x.refill.2 = { x with headWin := a, tailWin := b } := by
  unfold Queue.refill
  split
  · obtain ⟨a, b, h⟩ := settle_is { x with headWin := x.headWin + min 4 x.middle }
    exact ⟨a, b, h⟩
  · exact ⟨_, _, rfl⟩

/-- The head item goes, and only the windows move with it. -/
theorem takeHead_is (x : Queue) : ∃ a b, x.takeHead.2 = { x with held := x.held.tail, headWin := a, tailWin := b } := by
  unfold Queue.takeHead
  by_cases h : x.headWin = 0
  · obtain ⟨a, b, hr⟩ := refill_is x
    obtain ⟨c, d, hs⟩ := settle_is { x with held := x.held.tail, headWin := a - 1, tailWin := b }
    simp only [if_pos h, hr]
    exact ⟨c, d, hs⟩
  · obtain ⟨c, d, hs⟩ := settle_is { x with held := x.held.tail, headWin := x.headWin - 1 }
    simp only [if_neg h]
    exact ⟨c, d, hs⟩

/-- A pop may take an item under a bound (R110). -/
def dueBy (bound : Option Nat) (i : Item) : Prop := ∀ b, bound = some b → tickDiff i.e.key b ≤ 0

/-- A queue after a pop of its head. -/
def Queue.popped (x : Queue) (i : Item) (clk : Nat) : Queue :=
  { x.takeHead.2.passItem i.e.key with before := some (clk, x.lastKey, x.lastValid) }

/-- A visible head that is due is taken. -/
theorem mqTake_item {i : Item} {rest : List Item} (hq : s.queue? q = some x) (hh : x.held = i :: rest)
    (hv : x.mode = .async → i.at_ ≠ s.clk) (hd : dueBy bound i) :
    mqTake q bound s = (.item i, pmuEvent 259 0x403 x.takeHead.1 (s.setQueue q (x.popped i s.clk))) := by
  have hv' : ¬ (x.mode = .async ∧ i.at_ = s.clk) := fun h => hv h.1 h.2
  unfold mqTake
  rw [hq]
  cases bound with
  | none => simp only [hh, if_neg hv', Bool.false_eq_true, if_false]; rfl
  | some b =>
    have hb : ¬ (0 < tickDiff i.e.key b) := not_lt.mpr (hd b rfl)
    simp only [hh, if_neg hv', decide_eq_false hb, Bool.false_eq_true, if_false]; rfl

/-- The queues after a pop that returns nothing: a keyed one passes its bound (R111). -/
def popMissed (q : Nat) (x : Queue) (bound : Option Nat) (s : State) : State :=
  match bound with
  | some k => s.setQueue q { x.passKey k with before := some (s.clk, x.lastKey, x.lastValid) }
  | none => s

/-- The status of a pop that returns nothing: 1 of an empty queue, 2 where the head is after the bound (R110). -/
def missCode (r : PopRes) : Nat := if r = .empty then 1 else 2

theorem mqTake_empty (hq : s.queue? q = some x) (hh : x.held = []) : mqTake q bound s = (.empty, popMissed q x bound s) := by
  unfold mqTake popMissed
  rw [hq]
  cases bound <;> simp only [hh]

theorem mqTake_notDue {i : Item} {rest : List Item} {b : Nat} (hq : s.queue? q = some x) (hh : x.held = i :: rest)
    (hv : x.mode = .async → i.at_ ≠ s.clk) (hd : 0 < tickDiff i.e.key b) : mqTake q (some b) s = (.notDue, popMissed q x (some b) s) := by
  have hv' : ¬ (x.mode = .async ∧ i.at_ = s.clk) := fun h => hv h.1 h.2
  unfold mqTake popMissed
  rw [hq]
  simp only [hh, if_neg hv', decide_eq_true hd, Bool.false_eq_true, if_false, if_true]

theorem popMissed_unit (k : Nat) : UnitOnly k 259 keepMq s (popMissed q x bound s) := by
  cases bound with
  | none => exact (CoreOnly.refl k s).unit
  | some b => exact setQueue_unit k q _ s

theorem popMissed_cor (k : Nat) : (popMissed q x bound s).cor k = s.cor k := by
  cases bound <;> rfl

theorem popMissed_others {j : Nat} (hj : j ≠ q) : (popMissed q x bound s).queue? j = s.queue? j := by
  cases bound with
  | none => rfl
  | some b => exact (queue_set q j _ s).trans (if_neg hj)

theorem passKey_eq (x : Queue) (b : Nat) : x.passKey b =
    { x with lastKey := if x.lastValid = false ∨ 0 < tickDiff b x.lastKey then b else x.lastKey, lastValid := true } := by
  unfold Queue.passKey
  by_cases h : x.lastValid = false ∨ 0 < tickDiff b x.lastKey
  · rw [if_pos (by simpa using h), if_pos h]
  · have hv : x.lastValid = true := by simpa using (not_or.mp h).1
    rw [if_neg (by simpa using h), if_neg h, ← hv]

theorem popMissed_queue (hq : s.queue? q = some x) : ∃ y, (popMissed q x bound s).queue? q = some y ∧ y.held = x.held ∧ y.retained = x.retained ∧
    (bound = none → y = x) ∧ ∀ b, bound = some b → y.lastValid = true ∧
      y.lastKey = if x.lastValid = false ∨ 0 < tickDiff b x.lastKey then b else x.lastKey := by
  cases bound with
  | none => exact ⟨x, hq, rfl, rfl, fun _ => rfl, fun b h => by cases h⟩
  | some b =>
    refine ⟨{ x.passKey b with before := some (s.clk, x.lastKey, x.lastValid) }, (queue_set q q _ s).trans (if_pos rfl), ?_⟩
    rw [passKey_eq]
    refine ⟨rfl, rfl, fun h => absurd h (Option.some_ne_none b), fun c h => ?_⟩
    obtain rfl := Option.some.inj h
    exact ⟨rfl, rfl⟩

end

/-! ## What a pop writes (R262, R265) -/

/-- Lanes written one after the other. -/
theorem setLanes_foldl (d : Nat) (f : Nat → RVal) : ∀ (ls : List Nat) (c : Core), (∀ l ∈ ls, l < 8) →
    (∀ i l, l < 8 → (ls.foldl (fun c l => c.setV d l (f l)) c).vLane i l = if i = d ∧ l ∈ ls then f l else c.vLane i l) ∧
      ls.foldl (fun c l => c.setV d l (f l)) c = { c with
        v := (ls.foldl (fun c l => c.setV d l (f l)) c).v, run := (ls.foldl (fun c l => c.setV d l (f l)) c).run } ∧
      (ls.foldl (fun c l => c.setV d l (f l)) c).run = c.run
  | [], c, _ => ⟨fun i l _ => by simp, rfl, rfl⟩
  | m :: ls, c, h => by
    obtain ⟨h1, h2, h3⟩ := setLanes_foldl d f ls (c.setV d m (f m)) (fun l hl => h l (List.mem_cons_of_mem _ hl))
    refine ⟨fun i l hl => ?_, h2, h3⟩
    rw [List.foldl_cons, h1 i l hl, vLane_setV _ _ _ _ _ _ (h m (List.mem_cons_self ..)) hl]
    by_cases hm : l = m
    · subst hm; by_cases hi : i = d <;> simp [hi]
    · simp [hm]

/-- The lanes that a pop's result writes. -/
def resultLane (code : Nat) (ws : List Word) (l : Nat) : Word :=
  if l < 4 then ws.getD l 0 else if l = 4 then BitVec.ofNat 32 (code * 2 ^ 24) else 0

theorem popResult_ok (k d code : Nat) (ws : List Word) (s : State) : ∃ u, popResult k d code ws s = .done u ∧ CoreOnly k s u ∧
    TookPop d (decide (code = 0)) (resultLane code ws) (s.cor k) (u.cor k) ∧ (u.cor k).run = (s.cor k).run := by
  refine ⟨_, rfl, updCore_only k _ s, ?_⟩
  rw [State.cor_updCore_self, zSet_eq]
  have hls : ∀ l, l ∈ List.range 8 ↔ l < 8 := fun l => List.mem_range
  generalize List.range 8 = ls at hls ⊢
  obtain ⟨h1, h2, h3⟩ := setLanes_foldl d (fun l => rv (resultLane code ws l)) ls { s.cor k with cf := zSet (s.cor k).cf (decide (code = 0)) }
    (fun l hl => (hls l).mp hl)
  exact ⟨⟨fun l hl => (h1 d l hl).trans (if_pos ⟨rfl, (hls l).mpr hl⟩), fun i l hl hi => (h1 i l hl).trans (if_neg (fun h => hi h.1)),
    h2⟩, h3⟩

/-- The lanes of an item that a pop gives: its four words, and a status of 0. -/
theorem resultLane_item (e : Entry) (loan : Bool) {l : Nat} : resultLane 0 (entryWords { e with loan := loan }) l = popLane e loan l := by
  unfold resultLane popLane
  split
  · rfl
  · have h : (entryWords { e with loan := loan }).length ≤ l := by show 4 ≤ l; omega
    rw [List.getD_eq_default _ _ h]
    split <;> rfl

theorem resultLane_miss (code l : Nat) : resultLane code [] l = if l = 4 then BitVec.ofNat 32 (code * 2 ^ 24) else 0 := by
  unfold resultLane
  split
  · rw [if_neg (by omega)]; rfl
  · rfl

theorem TookPop.of_run {d : Nat} {z : Bool} {lane lane' : Nat → Word} {c c' : Core} {r : RunRec} (h : TookPop d z lane { c with run := r } c')
    (hl : ∀ l, lane l = lane' l) : TookPop d z lane' c c' := by
  obtain ⟨h1, h2, h3⟩ := h
  exact ⟨fun l hl8 => (h1 l hl8).trans (congrArg rv (hl l)), h2, h3⟩

/-! ## A node's pop (R117) -/

section
variable {k q : Nat} {x : Queue} {s : State} {bound : Option Nat}

/-- The items of a queue that a run pops are on loan: the queue has a mark, or the run has recorded one (R122). -/
def popLoan (x : Queue) (q : Nat) (r : RunRec) : Bool := x.markSet || r.ops.any (fun o => o == .mark q)

/-- A run's record of its first pop of a queue keeps what LAST_KEY was (R117). -/
def keyed (q : Nat) (x : Queue) : RunRec → RunRec := fun r =>
  { r with nMq := r.nMq + 1, keys := if r.keys.any (fun y => y.1 == q) then r.keys else r.keys ++ [(q, (x.lastKey, x.lastValid))] }

theorem marked_eq (q : Nat) (ops : List RunOp) :
    ops.any (fun o => match o with | .mark q' => q' == q | _ => false) = ops.any (fun o => o == .mark q) := by
  refine congrArg (fun f => ops.any f) (funext fun o => ?_)
  cases o with
  | mark q' => by_cases h : q' = q <;> simp [h]
  | _ => rfl

theorem addPop_item {i : Item} {t : State} (hk : q < 65536) (hq : s.queue? q = some x) (hn : (s.cor k).run.nMq < 64)
    (ht : mqTake q bound (record k (keyed q x) s) = (.item i, t)) :
    addPop k q bound s = (0, { i.e with loan := popLoan x q (s.cor k).run },
      record k (fun r => { r with ops := .pop q i (popLoan x q (s.cor k).run) :: r.ops }) t) := by
  unfold keyed at ht
  unfold addPop popLoan
  rw [if_neg (by omega), hq, ← marked_eq]
  dsimp only
  rw [if_neg (by omega), ht] <;> rfl

theorem addPop_miss {r : PopRes} {t : State} (hk : q < 65536) (hq : s.queue? q = some x) (hn : (s.cor k).run.nMq < 64)
    (hr : r = .empty ∨ r = .notDue) (ht : mqTake q bound (record k (keyed q x) s) = (r, t)) : addPop k q bound s = (missCode r, {}, t) := by
  unfold keyed at ht
  unfold addPop
  rw [if_neg (by omega), hq]
  dsimp only
  rw [if_neg (by omega), ht]
  rcases hr with rfl | rfl <;> rfl

/-- A pop of a node that takes an item: what its core and its queue hold. -/
theorem nodePop_item {d y : Nat} {i : Item} {rest : List Item} (hy : sVal s k y = q) (hk : q < 65536) (hq : s.queue? q = some x)
    (hn : (s.cor k).run.nMq < 64) (hh : x.held = i :: rest) (hv : x.mode = .async → i.at_ ≠ s.clk) (hd : dueBy bound i) :
    ∃ u, nodePop k d y bound s = .done u ∧ UnitOnly k 259 keepMq s u ∧
      TookPop d true (popLane i.e (popLoan x q (s.cor k).run)) (s.cor k) (u.cor k) ∧
      (u.cor k).run.nMq = (s.cor k).run.nMq + 1 ∧
      (u.cor k).run.ops = .pop q i (popLoan x q (s.cor k).run) :: (s.cor k).run.ops ∧
      u.mq = mapInsert q (x.popped i s.clk) s.mq := by
  set loan := popLoan x q (s.cor k).run with hl
  set v := record k (keyed q x) s with hvdef
  set w := pmuEvent 259 0x403 x.takeHead.1 (v.setQueue q (x.popped i s.clk)) with hw
  set z := record k (fun r => { r with ops := .pop q i loan :: r.ops }) w with hz
  have hadd := addPop_item hk hq hn (mqTake_item (s := v) hq hh hv hd)
  have wcor : w.cor k = v.cor k := (pmuEvent_count 259 0x403 _ _).cor k
  have zcor : z.cor k = { s.cor k with run := { keyed q x (s.cor k).run with ops := .pop q i loan :: (s.cor k).run.ops } } := by
    rw [hz, record_cor, wcor, hvdef, record_cor]; rfl
  have zunit : UnitOnly k 259 keepMq s z :=
    ((record_unit k _ s).trans (setQueue_unit k q _ v)).trans ((pmuEvent_unit k 0x403 _ _).trans (record_unit k _ w))
  obtain ⟨u, hu, uonly, utook, urun⟩ := popResult_ok k d 0 (entryWords { i.e with loan := loan }) z
  rw [zcor] at utook urun
  refine ⟨u, ?_, zunit.trans uonly.unit, utook.of_run fun l => resultLane_item .., by rw [urun]; rfl, by rw [urun], ?_⟩
  · unfold nodePop
    rw [hy, hadd]
    exact hu
  · rw [uonly.mq]
    exact (pmuEvent_count 259 0x403 _ _).mq

/-- A pop of a node that returns nothing. -/
theorem nodePop_miss {d y : Nat} {r : PopRes} (hy : sVal s k y = q) (hk : q < 65536) (hq : s.queue? q = some x)
    (hn : (s.cor k).run.nMq < 64) (hr : r = .empty ∨ r = .notDue)
    (ht : mqTake q bound (record k (keyed q x) s) = (r, popMissed q x bound (record k (keyed q x) s))) :
    ∃ u, nodePop k d y bound s = .done u ∧ UnitOnly k 259 keepMq s u ∧
      TookPop d false (fun l => if l = 4 then BitVec.ofNat 32 (missCode r * 2 ^ 24) else 0) (s.cor k) (u.cor k) ∧
      (u.cor k).run.ops = (s.cor k).run.ops ∧ u.mq = (popMissed q x bound s).mq := by
  set v := record k (keyed q x) s with hvdef
  set z := popMissed q x bound v with hz
  have hadd := addPop_miss hk hq hn hr ht
  have hcode : missCode r ≠ 0 := by rcases hr with rfl | rfl <;> decide
  have zcor : z.cor k = { s.cor k with run := keyed q x (s.cor k).run } := by rw [hz, popMissed_cor, hvdef, record_cor]
  obtain ⟨u, hu, uonly, utook, urun⟩ := popResult_ok k d (missCode r) [] z
  rw [zcor] at utook urun
  rw [decide_eq_false hcode] at utook
  refine ⟨u, ?_, ((record_unit k _ s).trans (popMissed_unit k)).trans uonly.unit, utook.of_run (resultLane_miss _), by rw [urun]; rfl, ?_⟩
  · unfold nodePop
    rw [hy, hadd]
    dsimp only
    rw [if_neg hcode]
    exact hu
  · rw [uonly.mq, hz]
    cases bound <;> rfl

end

/-! ## The instruction -/

section
variable {s : State} {k d x : Nat} {i : Instr} {bound : Option Nat}

/-- Both forms of MQPOP are fabric instructions whose effect is a node's pop with the form's bound. -/
theorem pop_fabric (hd : d < 32) (hx : x < 32) (hi : IsPop k d x (s.cor k) i bound) (hg : ((s.cor k).sReg x).good = true) :
    ∃ wf xs f, exec i s = .next (fabric 0x28 k wf xs f s) ∧ wf = true ∧ goodRegs s k xs = true ∧
      ∀ s' : State, s'.cor k = s.cor k → f s' = nodePop k d x bound s' := by
  rcases hi with ⟨rfl, rfl⟩ | ⟨y, hy, hgy, rfl, rfl⟩
  · exact ⟨_, _, _, rfl, by simp [reg5, hd, hx], by simp [goodRegs, hg], fun _ _ => rfl⟩
  · refine ⟨_, _, _, rfl, by simp [reg5, hd, hx, hy], by simp [goodRegs, hg, hgy], fun s' h => ?_⟩
    show nodePop k d x (some ((s'.cor k).sReg y).v.toNat) s' = _
    rw [h]
    rfl

/-- A pop that is issued: its core goes on, and the queues are as the pop left them. -/
theorem pop_issues (hr : runs s k = true) (hm : (s.cor k).mode = .run) (hd : d < 32) (hx : x < 32) (hi : IsPop k d x (s.cor k) i bound)
    (hg : ((s.cor k).sReg x).good = true) {u : State} (hf : nodePop k d x bound (issueState k s) = .done u)
    (hu : UnitOnly k 259 keepMq (issueState k s) u) (hpc : (u.cor k).pc = (s.cor k).pc) :
    ∃ t, exec i s = .next t ∧ UnitOnly k 259 keepMq s t ∧ t.cor k = retire (u.cor k) ∧ t.mq = u.mq := by
  obtain ⟨wf, xs, f, he, hw, hgr, hfn⟩ := pop_fabric hd hx hi hg
  obtain ⟨⟨honly, hcor⟩, hdone, -⟩ := issue_at (op := 0x28) (bar := false)
    (f := fun s => if !inRun s k then excAt k 1 s else if goodRegs s k xs then f s else excResidue k s) hr hw (by simp)
  have hbody : (if !inRun (issueState k s) k then excAt k 1 (issueState k s)
      else if goodRegs (issueState k s) k xs then f (issueState k s) else excResidue k (issueState k s)) = .done u := by
    have hgr' : goodRegs (issueState k s) k xs = true := by unfold goodRegs at hgr ⊢; rwa [hcor]
    have hrun : inRun (issueState k s) k = true := by unfold inRun; rw [hcor]; exact decide_eq_true hm
    rw [hrun, hgr', hfn _ hcor]
    exact hf
  obtain ⟨tonly, tcor⟩ := hdone u hbody
  refine ⟨_, he, (honly.unit.trans hu).trans tonly.unit, tcor.trans ?_, tonly.mq⟩
  rw [← hpc]
  rfl

theorem TookPop.pc {z : Bool} {lane : Nat → Word} {c c' : Core} (h : TookPop d z lane c c') : c'.pc = c.pc := by
  obtain ⟨-, -, h3⟩ := h
  have := congrArg Core.pc h3
  exact this

theorem issueState_clk (s : State) (k : Nat) : (issueState k s).clk = s.clk := by
  unfold issueState; split <;> rfl

theorem issueState_mq (s : State) (k : Nat) : (issueState k s).mq = s.mq := by
  unfold issueState; split <;> rfl

theorem issueState_cor (s : State) (k : Nat) : (issueState k s).cor k = s.cor k := by
  unfold issueState; split <;> rfl

theorem popped_shown (q : Queue) (it : Item) (clk : Nat) : (q.popped it clk).held = q.held.tail ∧ (q.popped it clk).retained = q.retained ∧
    (q.popped it clk).lastValid = true ∧ (q.popped it clk).lastKey = if 0 < tickDiff it.e.key q.lastKey then it.e.key else q.lastKey := by
  obtain ⟨a, b, h⟩ := takeHead_is q
  unfold Queue.popped
  rw [h]
  exact ⟨rfl, rfl, rfl, rfl⟩

end

/-- Settles O16: both forms are a node's pop with their bound; `mqTake` gives the head or nothing, and the status and the words go to V[D]. -/
theorem popResults : Obligations.PopResults := by
  intro s k d x i bound hr hm hd hx hi hg hn hk q hq
  set n := sNat (s.cor k) x with hndef
  have hcor := issueState_cor s k
  have hy : sVal (issueState k s) k x = n := by unfold sVal; rw [hcor]; rfl
  have hq' : (issueState k s).queue? n = some q := (issue_mq s k n).1.trans hq
  refine ⟨fun it rest hh hv hdue => ?_, fun code hcase => ?_⟩
  · obtain ⟨u, hu, uunit, utook, un, uops, umq⟩ := nodePop_item (d := d) hy hk hq' (by rwa [hcor]) hh (by rwa [issueState_clk]) hdue
    rw [hcor] at utook un uops
    rw [issueState_mq, issueState_clk] at umq
    obtain ⟨t, he, tunit, tcor, tmq⟩ := pop_issues hr hm hd hx hi hg hu uunit utook.pc
    obtain ⟨hheld, hret, hlv, hlk⟩ := popped_shown q it s.clk
    refine ⟨t, u.cor k, q.popped it s.clk, he, tunit, tcor, utook, un, uops, ?_, by rw [hheld, hh]; rfl, hret, hlv, hlk, fun j hj => ?_⟩
    · unfold State.queue?; rw [tmq, umq, mapFind?_insert_self]
    · unfold State.queue?; rw [tmq, umq, mapFind?_insert_other hj]
  · have missed : ∃ r, (r = .empty ∨ r = .notDue) ∧ missCode r = code ∧ ∀ v : State, v.queue? n = some q → v.clk = s.clk →
        mqTake n bound v = (r, popMissed n q bound v) := by
      rcases hcase with ⟨hh, rfl⟩ | ⟨it, rest, b, hh, hv, rfl, hdue, rfl⟩
      · exact ⟨.empty, .inl rfl, rfl, fun v hv _ => mqTake_empty hv hh⟩
      · exact ⟨.notDue, .inr rfl, rfl, fun v hqv hc => mqTake_notDue hqv hh (by rwa [hc]) hdue⟩
    obtain ⟨r, hres, rfl, hmiss⟩ := missed
    obtain ⟨u, hu, uunit, utook, uops, umq⟩ := nodePop_miss (d := d) (bound := bound) hy hk hq' (by rwa [hcor]) hres (hmiss _ hq' (issueState_clk s k))
    rw [hcor] at utook uops
    obtain ⟨t, he, tunit, tcor, tmq⟩ := pop_issues hr hm hd hx hi hg hu uunit utook.pc
    obtain ⟨y, hyq, hheld, hret, hplain, hkeyed⟩ := popMissed_queue (bound := bound) hq'
    have tq : ∀ j, t.queue? j = (popMissed n q bound (issueState k s)).queue? j := fun j => by unfold State.queue?; rw [tmq, umq]
    exact ⟨t, u.cor k, y, he, tunit, tcor, utook, uops, (tq n).trans hyq, hheld, hret, hplain, hkeyed,
      fun j hj => (tq j).trans ((popMissed_others hj).trans (issue_mq s k j).1)⟩

end Sys2Proof.Machine
end

section
/-!
PROOFS. Recorded operations: the runs of a canceller and a mixer that find no item (R278, R307), fades and the block of a canceller (R284, R309, R310),
and the fabric instructions that record an operation of their run (R117, R144, R182, R262 to R267).
-/

namespace Sys2Proof.Machine

/-! ## Words and bytes (R8) -/

theorem leNat_leBytes : ∀ n v : Nat, leNat (leBytes n v) = v % 256 ^ n
  | 0, v => (Nat.mod_one v).symm
  | n + 1, v => by
    unfold leBytes leNat
    rw [leNat_leBytes n, BitVec.toNat_ofNat, Nat.pow_succ' (m := 256), Nat.mod_mul]

theorem leNat_word (v : Nat) : leNat (leBytes 4 v) = v % 2 ^ 32 := leNat_leBytes 4 v

theorem patternOf_lt (w : Nat) (x : Int) : patternOf w x < 2 ^ w := by
  have hp : (0 : Int) < ((2 ^ w : Nat) : Int) := by exact_mod_cast Nat.two_pow_pos w
  have h := Int.emod_lt_of_pos x hp
  unfold patternOf
  omega

/-! ## Page 0 of a running node (R165) -/

section
variable {k : Nat} {s : State}

theorem lramWord_of {c c' : Core} {a : Nat} (h : ∀ i, i < 4 → lramByte c' (a + i) = lramByte c (a + i)) : lramWord c' a = lramWord c a := by
  unfold lramWord lramRead
  rw [List.map_congr_left (fun i hi => h i (List.mem_range.mp hi))]

/-- A word of local RAM that its four bytes have been stored into. -/
theorem lramWord_putAll (a v : Nat) (c : Core) : lramWord (lramPutAll a (leBytes 4 v) c) a = BitVec.ofNat 32 v := by
  have hr : lramRead (lramPutAll a (leBytes 4 v) c) a 4 = leBytes 4 v := by
    refine List.ext_getElem (by rw [leBytes_length]; simp [lramRead]) (fun i h1 h2 => ?_)
    have hi : i < 4 := by rwa [leBytes_length] at h2
    simp only [lramRead, List.getElem_map, List.getElem_range]
    rw [lramByte_putAll, if_pos (by rw [leBytes_length]; omega), Nat.add_sub_cancel_left, List.getD_eq_getElem _ _ h2]
  unfold lramWord
  rw [hr, leNat_word]
  exact BitVec.eq_of_toNat_eq (by rw [BitVec.toNat_ofNat, BitVec.toNat_ofNat, Nat.mod_mod])

theorem lramByte_stored (k a b : Nat) (bs : List Byte) (s : State) :
    lramByte ((localStore k a bs s).cor k) b = lramByte (lramPutAll a bs (s.cor k)) b := by
  unfold localStore
  rw [State.cor_updCore_self, markDirty_frame]
  show lramByte (lramPutAll a bs (noteStore a bs.length (s.cor k))) b = _
  rw [lramByte_putAll, lramByte_putAll]
  rfl

/-- A store into a core's RAM changes of the core no more than its RAM, the words that moves remember, and what its run has dirtied. -/
theorem localStore_cor (k a : Nat) (bs : List Byte) (s : State) : ∃ r q m d, (localStore k a bs s).cor k =
    { s.cor k with ram := r, scratch := q, moves := m, run := { (s.cor k).run with dirty := d } } := by
  unfold localStore
  rw [State.cor_updCore_self, markDirty_frame]
  obtain ⟨r, q, h⟩ := lramPutAll_ex bs a (noteStore a bs.length (s.cor k))
  rw [h]
  exact ⟨_, _, _, _, rfl⟩

theorem ctxAt_putCtx (o v : Nat) : ctxAt (putCtx k o v s) k o = v % 2 ^ 32 := by
  obtain ⟨r, q, m, d, h⟩ := localStore_cor k ((s.cor k).ctxAddr + o) (leBytes 4 v) s
  unfold ctxAt putCtx
  rw [show ((localStore k ((s.cor k).ctxAddr + o) (leBytes 4 v) s).cor k).ctxAddr = (s.cor k).ctxAddr by rw [h],
    lramWord_of (fun i _ => lramByte_stored ..), lramWord_putAll, BitVec.toNat_ofNat]

theorem ctxAt_putCtx_apart {o p : Nat} (hp : o + 4 ≤ p ∨ p + 4 ≤ o) (v : Nat) : ctxAt (putCtx k o v s) k p = ctxAt s k p := by
  obtain ⟨r, q, m, d, h⟩ := localStore_cor k ((s.cor k).ctxAddr + o) (leBytes 4 v) s
  unfold ctxAt putCtx
  rw [show ((localStore k ((s.cor k).ctxAddr + o) (leBytes 4 v) s).cor k).ctxAddr = (s.cor k).ctxAddr by rw [h]]
  refine congrArg BitVec.toNat (lramWord_of (fun i hi => ?_))
  rw [lramByte_stored, lramByte_putAll, if_neg (by rw [leBytes_length]; omega)]

theorem ctxAt_lt (o : Nat) : ctxAt s k o < 2 ^ 32 := BitVec.isLt _

theorem ctxAt_addCtx (o n : Nat) : ctxAt (addCtx k o n s) k o = (ctxAt s k o + n) % 2 ^ 32 := by
  unfold addCtx
  split
  · next h => rw [h, Nat.add_zero, Nat.mod_eq_of_lt (ctxAt_lt o)]
  · rw [ctxAt_putCtx]; exact Nat.mod_mod _ _

theorem ctxAt_addCtx_apart {o p : Nat} (hp : o + 4 ≤ p ∨ p + 4 ≤ o) (n : Nat) : ctxAt (addCtx k o n s) k p = ctxAt s k p := by
  unfold addCtx
  split
  · rfl
  · exact ctxAt_putCtx_apart hp _

theorem addCtx_run (o n : Nat) : ∃ d, ((addCtx k o n s).cor k).run = { (s.cor k).run with dirty := d } := by
  unfold addCtx
  split
  · exact ⟨_, rfl⟩
  · obtain ⟨r, q, m, d, h⟩ := localStore_cor k ((s.cor k).ctxAddr + o) (leBytes 4 ((ctxAt s k o + n) % W32)) s
    exact ⟨d, congrArg Core.run h⟩

theorem addCtx_only (o n : Nat) : CoreOnly k s (addCtx k o n s) := by
  unfold addCtx
  split
  · exact CoreOnly.refl k s
  · exact updCore_only k _ s

theorem ctxAt_record (f : RunRec → RunRec) (o : Nat) : ctxAt (record k f s) k o = ctxAt s k o := by
  unfold ctxAt
  rw [record_cor]
  rfl

/-! ## A run of the Kelrik Media Library that finds no item (R278, R307) -/

theorem kmlCounts_aside (k : Nat) (s : State) : Aside k s (kmlCounts k s) := by
  unfold kmlCounts
  generalize List.range 6 = ls
  induction ls generalizing s with
  | nil => exact Aside.refl k s
  | cons i ls ih =>
    rw [List.foldl_cons]
    refine Aside.trans ?_ (ih _)
    split
    · exact (draw_aside k s).trans (pmcAdd_aside ..)
    · exact Aside.refl k s

/-- A pop from a queue that is not open gives nothing and changes nothing. -/
theorem kmlPop_closed {q : Nat} (bound : Option Nat) (hq : s.queue? q = none) : kmlPop k q bound s = (none, s) := by
  unfold kmlPop addPop
  rw [hq]
  by_cases h : 65536 ≤ q
  · rw [if_pos h]; rfl
  · rw [if_neg h]; rfl

theorem popWindow_closed {c : CancSt} {item : Nat} (hc : c.next = none) (hq : s.queue? (ctxBits s k 8 0 16) = none) :
    popWindow k c item s = ({ first := none, slip := false, sin := [], rin := [], stale := 0 }, s) := by
  unfold popWindow
  simp only [hc, Option.isNone_none, Bool.true_or, if_true, kmlPop_closed none hq]

theorem cancStart_fresh {r : CancRec} (hr : r.reset = false) : cancStart k r {} s = ({ mode := some r.mode }, s) := by
  unfold cancStart
  simp [hr]

/-- A canceller's run without an item: it counts, signals its own node and touches nothing else. -/
theorem cancellerRun_idle {node : Nat} (hn : mapFind? node s.kml = none) (hr : ctxBits s k 4 8 1 = 0) (hq : s.queue? (ctxBits s k 8 0 16) = none) :
    cancellerRun false k node s = leaveKml k (.canceller { mode := some (ctxBits s k 4 0 4) }) (addCtx k 0x100 1 (kmlSig k node 14 s)) := by
  have hreset : (cancRec s k).reset = false := by unfold cancRec; rw [hr]; rfl
  unfold cancellerRun
  rw [hn]
  simp only [Bool.false_and, Bool.false_eq_true, if_false, cancStart_fresh hreset,
    popWindow_closed (c := { mode := some (cancRec s k).mode }) rfl hq]
  rfl

theorem gatherNotices_closed {m : MixSt} {r : MixRec} (hm : m.next = none) (hq : s.queue? (ctxBits s k 8 0 16) = none) :
    gatherNotices k m r s = ({ key := none, later := m.kept }, s) := by
  unfold gatherNotices
  simp only [hm, Option.isSome_none, Bool.false_and, Bool.false_eq_true, if_false, kmlPop_closed none hq]

/-- A mixer's run without a notice: it counts itself and its slots missing. -/
theorem mixerRun_idle {node : Nat} (hn : mapFind? node s.kml = none) (hq : s.queue? (ctxBits s k 8 0 16) = none) :
    mixerRun k node s = leaveKml k (.mixer {}) (addCtx k 0x10C (slotsInUse s k).length (addCtx k 0x100 1 s)) := by
  unfold mixerRun
  rw [hn]
  simp only [gatherNotices_closed (m := {}) rfl hq, List.all_nil, Bool.not_true, Bool.false_eq_true, if_false]

/-- A run that has recorded the signal of its own node. -/
def signalled (node : Nat) (r : RunRec) : RunRec := { r with ops := .sig (node % 2 ^ 18) 0x4000 :: r.ops, nBull := r.nBull + 1 }

theorem kmlSig_eq (node : Nat) (h : (s.cor k).run.nBull < 64) : kmlSig k node 14 s = record k (signalled node) s := by
  unfold kmlSig addBull
  rw [if_neg (by omega)]
  rfl

end

/-- A run that finds no item counts itself, and touches no queue, node or buffer. -/
def RanIdle (k : Nat) (u t : State) : Prop :=
  ctxAt t k 0x100 = (ctxAt u k 0x100 + 1) % 2 ^ 32 ∧ t.mq = u.mq ∧ t.bull = u.bull ∧ t.seed = u.seed ∧ t.kml = u.kml

theorem RanIdle.of_only {k : Nat} {u t : State} (hc : ctxAt t k 0x100 = (ctxAt u k 0x100 + 1) % 2 ^ 32) (h : CoreOnly k u t) : RanIdle k u t :=
  ⟨hc, h.mq, h.bull, h.seed, h.kml⟩

section
variable {u : State} {k : Nat} (hbad : ctxBad u k = false) (hnew : mapFind? (u.cor k).node u.kml = none) (hrun : (u.cor k).run = {})
  (hq : u.queue? (ctxBits u k 8 0 16) = none)

/-- What a run reads of its context and of its queues is as it was before the counters. -/
theorem counted_reads (u : State) (k : Nat) : (∀ o, ctxAt (kmlCounts k u) k o = ctxAt u k o) ∧ (kmlCounts k u).kml = u.kml ∧
    (∀ q, (kmlCounts k u).queue? q = u.queue? q) ∧ ((kmlCounts k u).cor k).run = (u.cor k).run := by
  obtain ⟨honly, hcor⟩ := kmlCounts_aside k u
  refine ⟨fun o => ?_, honly.kml, fun q => congrArg (mapFind? q) honly.mq, congrArg Core.run hcor⟩
  unfold ctxAt
  rw [hcor]

include hbad hnew hrun hq

theorem kmlStart_canceller (htype : ctxBits u k 0 0 16 = 0x0E01) (hreset : ctxBits u k 4 8 1 = 0) :
    RanIdle k u (kmlStart k u) ∧ ((kmlStart k u).cor k).run.ops = [.sig ((u.cor k).node % 2 ^ 18) 0x4000] ∧
      ((kmlStart k u).cor k).run.kml = some (.canceller { mode := some (ctxBits u k 4 0 4) }) := by
  obtain ⟨hctx, hkml, hqueue, hrun'⟩ := counted_reads u k
  set v := kmlCounts k u with hv
  have hbits : ∀ o lo n, ctxBits v k o lo n = ctxBits u k o lo n := fun o lo n => by unfold ctxBits; rw [hctx]
  have hn : (v.cor k).run.nBull < 64 := by rw [hrun', hrun]; decide
  have hstart : kmlStart k u = leaveKml k (.canceller { mode := some (ctxBits u k 4 0 4) }) (addCtx k 0x100 1 (kmlSig k (u.cor k).node 14 v)) := by
    unfold kmlStart
    rw [hbad, if_neg (by simp), htype, ← hbits 4 0 4]
    exact cancellerRun_idle (by rw [hkml, hnew]) (by rw [hbits, hreset]) (by rw [hbits, hqueue, hq])
  rw [kmlSig_eq _ hn] at hstart
  obtain ⟨d, hadd⟩ := addCtx_run (k := k) (s := record k (signalled (u.cor k).node) v) 0x100 1
  rw [record_cor, hrun', hrun] at hadd
  rw [hstart]
  refine ⟨RanIdle.of_only ?_ ?_, ?_, ?_⟩
  · unfold leaveKml
    rw [ctxAt_record, ctxAt_addCtx, ctxAt_record, hctx]
  · exact (kmlCounts_aside k u).1.trans ((updCore_only ..).trans ((addCtx_only ..).trans (updCore_only ..)))
  · unfold leaveKml
    rw [record_cor, hadd]
    rfl
  · unfold leaveKml
    rw [record_cor]

theorem kmlStart_mixer (htype : ctxBits u k 0 0 16 = 0x0B01) :
    RanIdle k u (kmlStart k u) ∧ ((kmlStart k u).cor k).run.ops = [] ∧
      ctxAt (kmlStart k u) k 0x10C = (ctxAt u k 0x10C + (slotsInUse u k).length) % 2 ^ 32 ∧
      ((kmlStart k u).cor k).run.kml = some (.mixer {}) := by
  obtain ⟨hctx, hkml, hqueue, hrun'⟩ := counted_reads u k
  set v := kmlCounts k u with hv
  have hbits : ∀ o lo n, ctxBits v k o lo n = ctxBits u k o lo n := fun o lo n => by unfold ctxBits; rw [hctx]
  have hslots : slotsInUse v k = slotsInUse u k := by
    have hchs : ∀ x, slotChs v k x = slotChs u k x := fun x => by unfold slotChs; rw [hbits]
    unfold slotsInUse
    rw [hbits]
    exact List.filter_congr fun x _ => by rw [hchs]
  have hstart : kmlStart k u = leaveKml k (.mixer {}) (addCtx k 0x10C (slotsInUse u k).length (addCtx k 0x100 1 v)) := by
    unfold kmlStart
    rw [hbad, if_neg (by simp), htype, ← hslots]
    exact mixerRun_idle (by rw [hkml, hnew]) (by rw [hbits, hqueue, hq])
  obtain ⟨d, h1⟩ := addCtx_run (k := k) (s := v) 0x100 1
  obtain ⟨e, h2⟩ := addCtx_run (k := k) (s := addCtx k 0x100 1 v) 0x10C (slotsInUse u k).length
  rw [hstart]
  refine ⟨RanIdle.of_only ?_ ((kmlCounts_aside k u).1.trans ((addCtx_only ..).trans ((addCtx_only ..).trans (updCore_only ..)))), ?_, ?_, ?_⟩
  · unfold leaveKml
    rw [ctxAt_record, ctxAt_addCtx_apart (.inr (by decide)), ctxAt_addCtx, hctx]
  · unfold leaveKml
    rw [record_cor, h2, h1, hrun', hrun]
  · unfold leaveKml
    rw [ctxAt_record, ctxAt_addCtx, ctxAt_addCtx_apart (.inl (by decide)), hctx]
  · unfold leaveKml
    rw [record_cor]

end

/-! ## Fades (R309, R310) -/

theorem rne_zero {n : Nat} (h : 0 < n) : rne 0 n = 0 := by
  unfold rne
  rw [Int.zero_ediv, Int.zero_emod]
  exact if_pos (by simpa using h)

theorem Xpoint.gain_over {x : Xpoint} (h : x.len ≤ x.n) : x.gain = x.to_ := if_pos h

theorem Xpoint.gain_start {x : Xpoint} (hn : x.n = 0) (hl : 0 < x.len) : x.gain = x.from_ := by
  unfold Xpoint.gain
  rw [if_neg (by omega), hn, Nat.cast_zero, mul_zero, rne_zero hl, add_zero]

theorem Xpoint.aim_same (x : Xpoint) (fade : Nat) : x.aim x.to_ fade = x := if_pos rfl

theorem Xpoint.aim_gain {x : Xpoint} {g : Int} (h : g ≠ x.to_) (fade : Nat) : (x.aim g fade).gain = if fade = 0 then g else x.gain := by
  have haim : x.aim g fade = { x with from_ := x.gain, to_ := g, n := 0, len := fade } := if_neg (Ne.symm h)
  rw [haim]
  split
  · next hf => exact Xpoint.gain_over (by rw [hf])
  · next hf => exact Xpoint.gain_start rfl (Nat.pos_of_ne_zero hf)

/-! ## The block of a canceller (R284) -/

theorem blockBytes_length (xs : List Int) : (blockBytes xs).length = 4 * xs.length := by
  induction xs with
  | nil => rfl
  | cons x xs ih =>
    unfold blockBytes at ih ⊢
    rw [List.flatMap_cons, List.length_append, leBytes_length, ih, List.length_cons]
    omega

theorem blockBytes_word : ∀ (xs : List Int) (i : Nat), i < xs.length → ((blockBytes xs).drop (4 * i)).take 4 = leBytes 4 (patternOf 32 (xs.getD i 0))
  | [], _, h => absurd h (Nat.not_lt_zero _)
  | x :: xs, 0, _ => by
    show ((leBytes 4 (patternOf 32 x) ++ blockBytes xs).drop 0).take 4 = _
    rw [List.drop_zero, List.take_left' (leBytes_length ..)]
    rfl
  | x :: xs, i + 1, h => by
    show ((leBytes 4 (patternOf 32 x) ++ blockBytes xs).drop (4 * (i + 1))).take 4 = _
    rw [show 4 * (i + 1) = 4 + 4 * i by omega, ← List.drop_drop, List.drop_left' (leBytes_length ..), blockBytes_word xs i (Nat.lt_of_succ_lt_succ h)]
    rfl

section
variable (key node : Nat) (bypass nlp : Bool) (xs : List Int)

theorem outBlock_length : (outBlock key bypass nlp node xs).length = 16 + 4 * xs.length := by
  unfold outBlock
  simp only [List.length_append, leBytes_length, blockBytes_length]

theorem outBlock_key : (outBlock key bypass nlp node xs).take 4 = leBytes 4 key := by
  unfold outBlock
  simp only [List.append_assoc]
  exact List.take_left' (leBytes_length ..)

theorem outBlock_flags : ((outBlock key bypass nlp node xs).drop 4).take 4 = leBytes 4 (192 + bitOf bypass * 2 ^ 16 + bitOf nlp * 2 ^ 17) := by
  unfold outBlock
  simp only [List.append_assoc]
  rw [List.drop_left' (leBytes_length ..), List.take_left' (leBytes_length ..)]

theorem outBlock_node : ((outBlock key bypass nlp node xs).drop 8).take 4 = leBytes 4 (node % 2 ^ 18) := by
  unfold outBlock
  rw [List.append_assoc, List.append_assoc, List.drop_left' (by simp only [List.length_append, leBytes_length]),
    List.take_left' (leBytes_length ..)]

theorem outBlock_sample {i : Nat} (hi : i < xs.length) :
    ((outBlock key bypass nlp node xs).drop (16 + 4 * i)).take 4 = leBytes 4 (patternOf 32 (xs.getD i 0)) := by
  unfold outBlock
  rw [← List.drop_drop, List.drop_left' (by simp only [List.length_append, leBytes_length]), blockBytes_word xs i hi]

end

/-! ## The fabric instructions that record an operation -/

section
variable {s : State} {k d x y : Nat} (hr : runs s k = true) (hm : (s.cor k).mode = .run) (hd : d < 32) (hx : x < 32)
  (hgx : ((s.cor k).sReg x).good = true)

/-- An instruction is recorded with status 0: its core holds the record and the status, and goes on. -/
abbrev Recorded (i : Instr) (k d : Nat) (c : Core) (s : State) : Prop :=
  ∃ t, exec i s = .next t ∧ CoreOnly k s t ∧ t.cor k = retire (withStatus d 0 0 c)

theorem sVal_congr {s' : State} (a : Nat) (hc : s'.cor k = s.cor k) : sVal s' k a = sNat (s.cor k) a := by
  unfold sVal sNat
  rw [hc]

theorem goodRegs_of {xs : List Nat} (h : ∀ a ∈ xs, ((s.cor k).sReg a).good = true) : goodRegs s k xs = true := List.all_eq_true.mpr h

/-- A record of a queue operation with its status word (R117, R262). -/
theorem recordMq_ok {o : RunOp} {s' : State} {c : Core} (d : Nat) (h : s'.cor k = c) :
    ∃ u, fabStatus k d 0 0 (record k (fun r => { r with ops := o :: r.ops, nMq := r.nMq + 1 }) s') = .done u ∧ CoreOnly k s' u ∧
      u.cor k = withStatus d 0 0 (recordedMq o c) := by
  obtain ⟨u, h1, h2, h3⟩ := fabStatus_ok k d 0 0 (by decide) (record k (fun r => { r with ops := o :: r.ops, nMq := r.nMq + 1 }) s')
  refine ⟨u, h1, (updCore_only k _ s').trans h2, ?_⟩
  rw [h3, record_cor, h]
  rfl

include hr hm

/-- A fabric instruction that records an operation, from what its effect is on the state that it is applied to. -/
theorem recorded {i : Instr} {opc : Nat} {wf : Bool} {xs : List Nat} {f : State → CoreRes} {c : Core} (he : exec i s = .next (fabric opc k wf xs f s))
    (hw : wf = true) (hg : ∀ a ∈ xs, ((s.cor k).sReg a).good = true) (hpc : c.pc = (s.cor k).pc)
    (hf : ∀ s', s' = issueState k s → s'.cor k = s.cor k → ∃ u, f s' = .done u ∧ CoreOnly k s' u ∧ u.cor k = withStatus d 0 0 c) :
    Recorded i k d c s := by
  obtain ⟨h1, h2⟩ := fabric_ok hr hm hw (goodRegs_of hg) ((withStatus_pc d 0 0 c).trans hpc) (fun s' e hc _ => hf s' e hc)
  exact ⟨_, he, h1, h2⟩

include hd hx hgx

/-! ### Bullpen (R144, R264) -/

section
variable (hn : (s.cor k).run.nBull < 64) (ht : sNat (s.cor k) x < 2 ^ 18)
include hn ht

theorem sig_recorded (hy : y < 32) (hgy : ((s.cor k).sReg y).good = true) (hf : sNat (s.cor k) y % 65536 < 2 ^ 15) (h0 : sNat (s.cor k) y % 65536 ≠ 0) :
    Recorded (.sig k d x y) k d (recordedBull (.sig (sNat (s.cor k) x) (sNat (s.cor k) y % 65536)) (s.cor k)) s := by
  refine recorded hr hm rfl (by simp [reg5, hd, hx, hy]) (by simp [hgx, hgy]) rfl (fun s' _ hc => ?_)
  have hsx := sVal_congr x hc
  have hsy := sVal_congr y hc
  rw [hsx, hsy, if_neg (by omega), if_neg h0]
  exact recordBull_ok hc hn

theorem sigd_recorded (hy : y < 32) (flag : Nat) (dropLate : Bool) (hgy : ((s.cor k).sReg y).good = true) (hf : flag < 15)
    (hl : sNat (s.cor k) y ≤ 2 ^ 31 - 2) :
    Recorded (.sigd k d x y flag dropLate) k d (recordedBull (.sigd (sNat (s.cor k) x) (sNat (s.cor k) y) flag dropLate) (s.cor k)) s := by
  refine recorded hr hm rfl (by simp [reg5, hd, hx, hy]; omega) (by simp [hgx, hgy]) rfl (fun s' _ hc => ?_)
  have hsx := sVal_congr x hc
  have hsy := sVal_congr y hc
  rw [hsx, hsy, if_neg (by omega)]
  exact recordBull_ok hc hn

theorem ncan_recorded : Recorded (.ncan k d x) k d (recordedBull (.ncan (sNat (s.cor k) x)) (s.cor k)) s := by
  refine recorded hr hm rfl (by simp [reg5, hd, hx]) (by simp [hgx]) rfl (fun s' _ hc => ?_)
  have hsx := sVal_congr x hc
  rw [hsx, if_neg (by omega)]
  exact recordBull_ok hc hn

theorem arm_recorded : Recorded (.arm k d x) k d (recordedBull (.arm (sNat (s.cor k) x)) (s.cor k)) s := by
  refine recorded hr hm rfl (by simp [reg5, hd, hx]) (by simp [hgx]) rfl (fun s' _ hc => ?_)
  have hsx := sVal_congr x hc
  rw [hsx, if_neg (by omega)]
  exact recordBull_ok hc hn

end

/-! ### Media queues (R117, R119, R265) -/

section
variable (hn : (s.cor k).run.nMq < 64) (hk : sNat (s.cor k) x < 65536) {q : Queue} (hq : s.queue? (sNat (s.cor k) x) = some q)
include hn hk hq

theorem mqpush_recorded (hy : y < 32) {e : Entry}
    (he : e = entryOf ((s.cor k).vLane y 0).v ((s.cor k).vLane y 1).v ((s.cor k).vLane y 2).v ((s.cor k).vLane y 3).v)
    (hl : ∀ l, l < 4 → ((s.cor k).vLane y l).good = true) (hlen : e.len ≤ 4096) :
    Recorded (.mqpush k d x y) k d (recordedMq (.push (sNat (s.cor k) x) e) (s.cor k)) s := by
  refine recorded hr hm rfl (by simp [reg5, hd, hx, hy]) (by simp [hgx]) rfl (fun s' hs' hc => ?_)
  have hsx := sVal_congr x hc
  have hlanes : (List.range 4).all (fun l => ((s.cor k).vLane y l).good) = true := List.all_eq_true.mpr fun l hm => hl l (List.mem_range.mp hm)
  have hopen : s'.queue? (sNat (s.cor k) x) = some q := by rw [hs', (issue_mq s k _).1, hq]
  have hadd : addPush k (sNat (s.cor k) x) e s' = (0, record k (fun r => { r with ops := .push (sNat (s.cor k) x) e :: r.ops, nMq := r.nMq + 1 }) s') := by
    unfold addPush
    rw [if_neg (by omega), hopen, if_neg (by simp), hc, if_neg (by omega)]
  dsimp only
  rw [hc, hlanes, hsx, ← he, hadd]
  exact recordMq_ok d hc

theorem mqmark_recorded (hret : q.retain ≠ 0) : Recorded (.mqmark k d x) k d (recordedMq (.mark (sNat (s.cor k) x)) (s.cor k)) s := by
  refine recorded hr hm rfl (by simp [reg5, hd, hx]) (by simp [hgx]) rfl (fun s' hs' hc => ?_)
  have hsx := sVal_congr x hc
  have hopen : s'.queue? (sNat (s.cor k) x) = some q := by rw [hs', (issue_mq s k _).1, hq]
  dsimp only
  rw [hsx, if_neg (by omega), hopen]
  dsimp only
  rw [if_neg hret, hc, if_neg (by omega)]
  exact recordMq_ok d hc

end

/-! ### Seedbed (R182, R267) -/

section
variable (hn : (s.cor k).run.nSeed < 64) (hb : badHandle s (sNat (s.cor k) x) = false)
include hn hb

theorem bfree_recorded : Recorded (.bfree k d x) k d (recordedSeed (.bfree (sNat (s.cor k) x)) (s.cor k)) s := by
  refine recorded hr hm rfl (by simp [reg5, hd, hx]) (by simp [hgx]) rfl (fun s' hs' hc => ?_)
  have hsx := sVal_congr x hc
  have hok : badHandle s' (sNat (s.cor k) x) = false := by rw [hs', (issue_mq s k 0).2, hb]
  dsimp only
  rw [hsx, hok]
  exact recordSeed_ok hc hn

theorem bgive_recorded (hy : y < 32) (hgy : ((s.cor k).sReg y).good = true) (ha : sNat (s.cor k) y < 4096) :
    Recorded (.bgive k d x y) k d (recordedSeed (.bgive (sNat (s.cor k) x) (sNat (s.cor k) y)) (s.cor k)) s := by
  refine recorded hr hm rfl (by simp [reg5, hd, hx, hy]) (by simp [hgx, hgy]) rfl (fun s' hs' hc => ?_)
  have hsx := sVal_congr x hc
  have hsy := sVal_congr y hc
  have hok : badHandle s' (sNat (s.cor k) x) = false := by rw [hs', (issue_mq s k 0).2, hb]
  dsimp only
  rw [hsx, hsy, hok, if_neg (by simp; omega)]
  exact recordSeed_ok hc hn

end

end

/-- Settles O15: the two idle runs from what they count and record, the gain of a fade at its ends, the block by its words, and each instruction from the
record that its effect makes on the state it is applied to. -/
theorem recordedOperations : Obligations.RecordedOperations := by
  refine ⟨fun u k hbad hnew hrun => ⟨fun ht hreset hq => kmlStart_canceller hbad hnew hrun hq ht hreset, fun ht hq => kmlStart_mixer hbad hnew hrun hq ht⟩,
    fun x g fade => ⟨Xpoint.gain_over, Xpoint.gain_start, x.aim_same fade, fun h => Xpoint.aim_gain h fade⟩, ?_, ?_⟩
  · intro key node bypass nlp xs hlen
    refine ⟨by rw [outBlock_length, hlen], by rw [outBlock_key, leNat_word], ?_, ?_, fun i hi => ?_⟩
    · rw [outBlock_flags, leNat_word]
      cases bypass <;> cases nlp <;> rfl
    · rw [outBlock_node, leNat_word]
      omega
    · rw [outBlock_sample _ _ _ _ _ (by omega), leNat_word, Nat.mod_eq_of_lt (patternOf_lt 32 _)]
  · intro s k d x y hr hm hd hx hy hgx
    refine ⟨fun hn ht => ⟨?_, ?_, ncan_recorded hr hm hd hx hgx hn ht, arm_recorded hr hm hd hx hgx hn ht⟩, fun hn hk q hq => ⟨?_, ?_⟩,
      fun hn hb => ⟨bfree_recorded hr hm hd hx hgx hn hb, ?_⟩⟩
    · exact fun hgy hf h0 => sig_recorded hr hm hd hx hgx hn ht hy hgy hf h0
    · exact fun flag dropLate hgy hf hl => sigd_recorded hr hm hd hx hgx hn ht hy flag dropLate hgy hf hl
    · exact fun hl hlen => mqpush_recorded hr hm hd hx hgx hn hk hq hy rfl hl hlen
    · exact mqmark_recorded hr hm hd hx hgx hn hk hq
    · exact fun hgy ha => bgive_recorded hr hm hd hx hgx hn hb hy hgy ha

end Sys2Proof.Machine
end

section
/-!
PROOFS. Events that Umpire counts, and the sweeps of Seedbed's ledger and tags (R186 to R188, R430, R431, R445).
-/

namespace Sys2Proof.Machine

section
variable {s t u : State}

/-- A command whose answer is a next state, from what that state is. -/
theorem exec_of {i : Instr} (he : exec i s = .next t) (h : t = u) : exec i s = .next u := h ▸ he

/-! ## Counted events -/

theorem Mild.fld {ps : List Part} {as : List Nat} (h : Mild ps as s t) {f : Fld} (hf : f.addr ∉ as) : t.fld f = s.fld f :=
  congrArg (fun w => bits w f.lo f.w) (h.regs f.addr hf)

theorem raiseFld_fld_apart (src : Nat) (f g : Fld) (h : f.lo + f.w ≤ 32) (hd : g.lo + g.w ≤ f.lo ∨ f.lo + f.w ≤ g.lo) (s : State) :
    (raiseFld src f s).fld g = s.fld g := by
  rw [← State.fld_setFld_apart s f g 1 h hd]
  exact congrArg (fun w => bits w g.lo g.w) (raiseFld_reg_set src f s g.addr)

theorem bump_fld_self (f : Fld) (h : f.lo + f.w ≤ 32) (n : Nat) (s : State) : (s.bump f n).fld f = (s.fld f + n) % 2 ^ f.w :=
  State.fld_setFld_self s f h _

/-- A record written leaves the counter of CONTAINED events, their bit and the number of the next event. -/
theorem umpWrite_shown (e : UmpEv) (seq mtc rep : Nat) (s : State) : (umpWrite e seq mtc rep s).fld fUmpSeqNext = s.fld fUmpSeqNext ∧
    (umpWrite e seq mtc rep s).fld fUmpContainedCount = s.fld fUmpContainedCount ∧
    (umpWrite e seq mtc rep s).flag (fUmpIntStat.bit 1) = s.flag (fUmpIntStat.bit 1) := by
  have hmild := umpWrite_mild e seq mtc rep s
  refine ⟨hmild.fld (by decide), hmild.fld (by decide), ?_⟩
  unfold umpWrite State.flag
  extract_lets size head base
  split
  · rw [raiseFld_fld_apart _ _ _ (by decide) (by decide)]
    exact congrArg (· != 0) ((bump_mild fUmpLostCount 1 s).fld (by decide))
  · exact congrArg (· != 0) ((setFld_mild fUmpRingHeadIndex _ _).fld (by decide))

/-- The state of a CONTAINED event once it is counted, before its record is written. -/
abbrev containedCounted (s : State) : State := raiseFld 0x03 (fUmpIntStat.bit 1) ((s.bump fUmpSeqNext 1).bump fUmpContainedCount 1)

theorem umpContained_eq {e : UmpEv} (he : e.cls = 1) (s : State) : ∃ seq mtc, umpEvent e s = umpWrite e seq mtc 0 (containedCounted s) := by
  unfold umpEvent
  rw [he]
  exact ⟨_, _, rfl⟩

/-- Registers of Umpire that a CONTAINED event may change. -/
abbrev eventRegs : List Nat := [fUmpSeqNext.addr, fUmpContainedCount.addr, fUmpIntStat.addr, fUmpLostCount.addr, fUmpRingHeadIndex.addr]

theorem umpContained_regs {e : UmpEv} (he : e.cls = 1) (s : State) : Mild [.hbm] eventRegs s (umpEvent e s) := by
  obtain ⟨seq, mtc, h⟩ := umpContained_eq he s
  rw [h]
  exact ((((bump_mild fUmpSeqNext 1 s).mono (by simp) (by simp)).trans ((bump_mild fUmpContainedCount 1 _).mono (by simp) (by simp))).trans
    ((raiseFld_mild 0x03 (fUmpIntStat.bit 1) _).mono (by simp) (by simp [Fld.bit]))).trans ((umpWrite_mild ..).mono (by simp) (by simp))

theorem umpContained_counted {e : UmpEv} (he : e.cls = 1) (s : State) : UmpCounted 1 s (umpEvent e s) := by
  obtain ⟨seq, mtc, hevent⟩ := umpContained_eq he s
  obtain ⟨hseq, hcount, hbit⟩ := umpWrite_shown e seq mtc 0 (containedCounted s)
  have raised := raiseFld_mild 0x03 (fUmpIntStat.bit 1) ((s.bump fUmpSeqNext 1).bump fUmpContainedCount 1)
  rw [hevent]
  refine ⟨?_, ?_, hbit.trans (raiseFld_self 0x03 (fUmpIntStat.bit 1) (by decide) (by decide) _)⟩
  · rw [hseq, raised.fld (by decide), (bump_mild fUmpContainedCount 1 _).fld (by decide), bump_fld_self _ (by decide)]
    rfl
  · show (umpWrite e seq mtc 0 (containedCounted s)).fld fUmpContainedCount = _
    rw [hcount, raised.fld (by decide), bump_fld_self _ (by decide), (bump_mild fUmpSeqNext 1 s).fld (by decide)]
    rfl

/-- What stands in registers other than those of the count may change before the event and after it. -/
theorem UmpCounted.after {ps : List Part} {as : List Nat} (h : Mild ps as s t) (ha : fUmpSeqNext.addr ∉ as ∧ fUmpContainedCount.addr ∉ as)
    (g : UmpCounted 1 t u) : UmpCounted 1 s u := by
  obtain ⟨h1, h2⟩ := ha
  have hc : t.fld (umpCounter 1) = s.fld (umpCounter 1) := h.fld h2
  exact ⟨by rw [g.seq, h.fld h1], by rw [g.count, hc], g.bit⟩

theorem UmpCounted.before {ps : List Part} {as : List Nat} (g : UmpCounted 1 s t) (h : Mild ps as t u)
    (ha : fUmpSeqNext.addr ∉ as ∧ fUmpContainedCount.addr ∉ as ∧ fUmpIntStat.addr ∉ as) : UmpCounted 1 s u := by
  obtain ⟨h1, h2, h3⟩ := ha
  have hc : u.fld (umpCounter 1) = t.fld (umpCounter 1) := h.fld h2
  have hb : u.fld (fUmpIntStat.bit 1) = t.fld (fUmpIntStat.bit 1) := h.fld h3
  exact ⟨(h.fld h1).trans g.seq, hc.trans g.count, (congrArg (· != 0) hb).trans g.bit⟩

theorem umpEvent_seed (e : UmpEv) (s : State) : (umpEvent e s).seed = s.seed :=
  (umpEvent_within (Ω := (· ∈ [.hbm, .hif, .out, .regs, .ump])) (fun _ h => h) (Within.refl s)).same .seed (by decide)

/-! ## A failed check (R188) -/

/-- An account that a failed check, or a word that cannot be read, has made SUSPECT. -/
def suspected (a : Nat) (d : SeedSt) : SeedSt := { d with accts := mapUpd {} a (fun y => { y with suspect := true }) d.accts }

theorem suspected_acct (a : Nat) (s : State) : (s.setSeed (suspected a)).acct a = { s.acct a with suspect := true } := by
  unfold State.acct State.setSeed suspected
  exact mapGet_upd_self {} a (fun y => { y with suspect := true }) s.seed.accts

/-- The state in which a failed check is reported: it is counted, and its account is SUSPECT. -/
def mismatchCounted (a : Nat) (s : State) : State :=
  (raiseFld 0x06 fSeedIntStatContained (s.bump fSeedMismatchCount 1)).setSeed (suspected a)

theorem mismatch_eq (a : Nat) (s : State) :
    mismatch a s = umpEvent { cls := 1, source := 6, cause := 0x1A, suspect := true, node := 0, acct := a, detail := 0 } (mismatchCounted a s) := rfl

theorem mismatchCounted_mild (a : Nat) (s : State) :
    Mild [.seed] [fSeedMismatchCount.addr, fSeedIntStatContained.addr] s (mismatchCounted a s) :=
  (((bump_mild fSeedMismatchCount 1 s).mono (by simp) (by simp)).trans
    ((raiseFld_mild 0x06 fSeedIntStatContained _).mono (by simp) (by simp))).trans ((setSeed_mild _ _).mono (by simp) (by simp))

theorem mismatch_counted (a : Nat) (s : State) : UmpCounted 1 s (mismatch a s) := by
  rw [mismatch_eq]
  exact (umpContained_counted rfl _).after (mismatchCounted_mild a s) (by decide)

theorem mismatch_count (a : Nat) (s : State) : (mismatch a s).fld fSeedMismatchCount = (s.fld fSeedMismatchCount + 1) % 2 ^ 32 := by
  have raised := raiseFld_mild 0x06 fSeedIntStatContained (s.bump fSeedMismatchCount 1)
  have hcounted : (mismatchCounted a s).fld fSeedMismatchCount = (s.bump fSeedMismatchCount 1).fld fSeedMismatchCount := raised.fld (by decide)
  rw [mismatch_eq, (umpContained_regs rfl _).fld (by decide), hcounted, bump_fld_self _ (by decide)]
  rfl

theorem mismatch_seed (a : Nat) (s : State) : (mismatch a s).seed = suspected a s.seed := by
  rw [mismatch_eq, umpEvent_seed]
  show suspected a (raiseFld 0x06 fSeedIntStatContained (s.bump fSeedMismatchCount 1)).seed = _
  rw [raiseFld_kept 0x06 fSeedIntStatContained _ .seed (by decide)]
  rfl

/-! ## The ledger sweep (R186) -/

/-- The sum of HELD over all accounts. -/
abbrev heldSum (s : State) : Nat := (s.seed.accts.map (fun a => a.2.held)).foldl (· + ·) 0

theorem ledgerSweep_off (h : s.flag fSeedCtlEn = false) : exec .ledgerSweep s = .next s := by
  have hs : sweepLedger s = s := if_neg (by rw [h]; simp)
  exact exec_of rfl hs

theorem ledgerSweep_agrees (h : heldSum s = s.seed.ownedA) : exec .ledgerSweep s = .next s := by
  have hs : sweepLedger s = s := if_neg (by simpa using fun _ => h)
  exact exec_of rfl hs

theorem ledgerSweep_differs (he : s.flag fSeedCtlEn = true) (h : heldSum s ≠ s.seed.ownedA) :
    ∃ t, exec .ledgerSweep s = .next t ∧ t.fld fSeedMismatchCount = (s.fld fSeedMismatchCount + 1) % 2 ^ 32 ∧ UmpCounted 1 s t ∧
      t.seed.tags = s.seed.tags ∧ t.seed.freeA = s.seed.freeA := by
  have hsweep : sweepLedger s = mismatch 0 s := if_pos (by rw [he]; simpa using h)
  refine ⟨_, exec_of rfl hsweep, mismatch_count 0 s, mismatch_counted 0 s, ?_, ?_⟩ <;> rw [mismatch_seed] <;> rfl

/-! ## The tag sweep (R187) -/

theorem tagSweep_off (h : s.flag fSeedCtlEn = false) (ms : Nat) (lost : List Nat) : exec (.tagSweepComplete ms lost) s = .next s := by
  have hs : sweepTags ms lost s = s := if_pos (by rw [h]; rfl)
  exact exec_of rfl hs

/-- Words that cannot be read go unnoticed while ECC_EN = 0 (R438). -/
theorem tagSweep_unnoticed (h : s.flag fUmpCtlEccEn = false) (ms : Nat) (lost : List Nat) : sweepTags ms lost s = sweepTags ms [] s := by
  unfold sweepTags
  simp only [h, Bool.false_eq_true, if_false]

/-- Accounts whose HELD does not agree with the tags. -/
abbrev wrongAccounts (s : State) : List Nat := (List.range 4096).filter (fun a => ownedTags s a != (s.acct a).held)

/-- What a sweep has found of the tags themselves, before it looks at the accounts. -/
def tagsRead (ms : Nat) (lost : List Nat) (s : State) : State :=
  (if s.flag fUmpCtlEccEn then lost.foldl (fun s g => tagLost g (tagAddr s g) s) s else s).setFld fSeedSweepMs (min ms 65535)

/-- What a sweep reports of the accounts and of the free count. -/
def tagsJudged (s : State) : State :=
  let u := (wrongAccounts s).foldl (fun s a => mismatch a s) s
  if (wrongAccounts s).isEmpty && u.seed.freeA + u.seed.tags.countP (fun t => t.2.st != .free) != poolSize u then mismatch 0 u else u

theorem sweepTags_eq (he : s.flag fSeedCtlEn = true) (ms : Nat) (lost : List Nat) : sweepTags ms lost s = tagsJudged (tagsRead ms lost s) := by
  unfold sweepTags tagsJudged tagsRead
  rw [he, if_neg (by simp)]

/-- A sweep that finds every account in order. -/
theorem tagsJudged_agrees (ha : wrongAccounts s = []) (hf : s.seed.freeA + s.seed.tags.countP (fun t => t.2.st != .free) = poolSize s) :
    tagsJudged s = s := by
  unfold tagsJudged
  rw [ha]
  exact if_neg (by simpa using hf)

/-- A sweep that finds one account out of order. -/
theorem tagsJudged_differs {a : Nat} (ha : wrongAccounts s = [a]) : tagsJudged s = mismatch a s := by
  unfold tagsJudged
  rw [ha]
  rfl

theorem tagsRead_all (ms : Nat) (s : State) : tagsRead ms [] s = s.setFld fSeedSweepMs (min ms 65535) := by
  unfold tagsRead
  split <;> rfl

theorem sweepMs_shown (ms : Nat) (s : State) : (s.setFld fSeedSweepMs (min ms 65535)).fld fSeedSweepMs = min ms 65535 := by
  rw [State.fld_setFld_self s fSeedSweepMs (by decide)]
  exact Nat.mod_eq_of_lt (show min ms 65535 < 65536 by omega)

theorem wrongAccounts_nil (h : ∀ a, a < 4096 → ownedTags s a = (s.acct a).held) : wrongAccounts s = [] :=
  List.filter_eq_nil_iff.mpr fun a ha => by simp [h a (List.mem_range.mp ha)]

theorem tagSweep_clean {ms : Nat} (he : s.flag fSeedCtlEn = true) (ha : ∀ a, a < 4096 → ownedTags s a = (s.acct a).held)
    (hf : s.seed.freeA + s.seed.tags.countP (fun t => t.2.st != .free) = poolSize s) :
    ∃ t, exec (.tagSweepComplete ms []) s = .next t ∧ Kept [.regs] s t ∧ RegsKept [fSeedSweepMs.addr] s t ∧ t.fld fSeedSweepMs = min ms 65535 := by
  have hpool : poolSize (s.setFld fSeedSweepMs (min ms 65535)) = poolSize s := (setFld_mild fSeedSweepMs _ s).fld (by decide)
  have hsweep : sweepTags ms [] s = s.setFld fSeedSweepMs (min ms 65535) := by
    rw [sweepTags_eq he, tagsRead_all]
    exact tagsJudged_agrees (wrongAccounts_nil ha) (by rw [hpool]; exact hf)
  exact ⟨_, exec_of rfl hsweep, fun p hp => setFld_kept _ _ s p hp, (setFld_mild _ _ s).regs, sweepMs_shown ms s⟩

/-- A granule whose tag cannot be read makes the account that owns it SUSPECT (R433). -/
theorem tagLost_eq {g : Nat} (hg : (s.tag g).st ≠ .free) (detail : Nat) : tagLost g detail s =
    umpEvent { cls := 1, source := 6, cause := 0x13, suspect := true, acct := (s.tag g).owner, detail := detail } (s.setSeed (suspected (s.tag g).owner)) := by
  have hown : ((s.tag g).st != .free) = true := by simpa using hg
  unfold tagLost
  simp only [hown, if_true]
  rfl

theorem suspected_held (a b : Nat) (s : State) : ((s.setSeed (suspected a)).acct b).held = (s.acct b).held := by
  unfold State.acct State.setSeed suspected
  rw [mapGet_upd]
  split
  · next h => rw [h]
  · rfl

theorem tagSweep_lost {ms g : Nat} (he : s.flag fSeedCtlEn = true) (ha : ∀ a, a < 4096 → ownedTags s a = (s.acct a).held)
    (hf : s.seed.freeA + s.seed.tags.countP (fun t => t.2.st != .free) = poolSize s) (hecc : s.flag fUmpCtlEccEn = true) (hg : (s.tag g).st ≠ .free) :
    ∃ t, exec (.tagSweepComplete ms [g]) s = .next t ∧ t.fld fSeedSweepMs = min ms 65535 ∧ t.seed.tags = s.seed.tags ∧ UmpCounted 1 s t ∧
      t.acct (s.tag g).owner = { s.acct (s.tag g).owner with suspect := true } ∧ t.fld fSeedMismatchCount = s.fld fSeedMismatchCount := by
  set a := (s.tag g).owner with hadef
  set v := umpEvent { cls := 1, source := 6, cause := 0x13, suspect := true, acct := a, detail := tagAddr s g } (s.setSeed (suspected a)) with hv
  have hread : tagsRead ms [g] s = v.setFld fSeedSweepMs (min ms 65535) := by
    unfold tagsRead
    rw [if_pos hecc, List.foldl_cons, List.foldl_nil, tagLost_eq hg]
  have hseed : v.seed = suspected a s.seed := umpEvent_seed ..
  have hmild : Mild [.seed, .hbm] eventRegs s v :=
    ((setSeed_mild _ s).mono (by simp) (by simp)).trans ((umpContained_regs rfl _).mono (by simp) (by simp))
  set w := v.setFld fSeedSweepMs (min ms 65535) with hw
  have hwseed : w.seed = suspected a s.seed := hseed
  have hacct : ∀ b, w.acct b = (s.setSeed (suspected a)).acct b := fun b => by
    unfold State.acct
    rw [hwseed]
    rfl
  have howned : ∀ b, ownedTags w b = ownedTags s b := fun b => by
    unfold ownedTags
    rw [hwseed]
    rfl
  have hpool : poolSize w = poolSize s := ((setFld_mild fSeedSweepMs _ v).fld (by decide)).trans (hmild.fld (by decide))
  have hsweep : sweepTags ms [g] s = w := by
    rw [sweepTags_eq he, hread]
    exact tagsJudged_agrees (wrongAccounts_nil fun b hb => by rw [howned, hacct, suspected_held, ha b hb]) (by rw [hpool, hwseed]; exact hf)
  refine ⟨w, exec_of rfl hsweep, sweepMs_shown ms v, by rw [hwseed]; rfl, ?_, ?_, ?_⟩
  · exact ((umpContained_counted rfl _).after (setSeed_mild (suspected a) s) (by decide)).before (setFld_mild fSeedSweepMs _ v) (by decide)
  · rw [hacct, suspected_acct]
  · rw [hw, (setFld_mild fSeedSweepMs _ v).fld (by decide), hmild.fld (by decide)]

theorem tagSweep_wrong {ms a : Nat} (he : s.flag fSeedCtlEn = true) (ha : a < 4096) (hd : ownedTags s a ≠ (s.acct a).held)
    (ho : ∀ j, j < 4096 → j ≠ a → ownedTags s j = (s.acct j).held) :
    ∃ t, exec (.tagSweepComplete ms []) s = .next t ∧ t.fld fSeedSweepMs = min ms 65535 ∧ t.acct a = { s.acct a with suspect := true } ∧
      t.fld fSeedMismatchCount = (s.fld fSeedMismatchCount + 1) % 2 ^ 32 ∧ UmpCounted 1 s t := by
  have hone : wrongAccounts s = [a] := range_filter_one ha fun j hj => by
    refine ⟨fun h => ?_, fun h => ?_⟩
    · by_contra hja
      simp [ho j hj hja] at h
    · rw [h]
      simpa using hd
  set v := s.setFld fSeedSweepMs (min ms 65535) with hv
  have hset := setFld_mild fSeedSweepMs (min ms 65535) s
  have hms : (mismatch a v).fld fSeedSweepMs = min ms 65535 := by
    rw [mismatch_eq, (umpContained_mild rfl _).fld (by decide), (mismatchCounted_mild a v).fld (by decide), hv, sweepMs_shown]
  have hsweep : sweepTags ms [] s = mismatch a v := by
    rw [sweepTags_eq he, tagsRead_all]
    exact tagsJudged_differs hone
  refine ⟨mismatch a v, exec_of rfl hsweep, hms, ?_, ?_, (mismatch_counted a v).after hset (by decide)⟩
  · show mapGet {} a (mismatch a v).seed.accts = _
    rw [mismatch_seed]
    exact suspected_acct a s
  · rw [mismatch_count, hv, hset.fld (by decide)]

end

end Sys2Proof.Machine
end

section
/-!
PROOFS. Head windows, Scout intervals and moves: a refill from the middle, an interval that expires, a move that lands word by word, and one that meets a
word of HBM that cannot be read (R103, R148, R208, R210, R216, R432, R457).
-/

namespace Sys2Proof.Machine

/-! ## The head window (R103) -/

section
variable {q : Nat} {x : Queue} {s : State}

theorem pmuEvent_nothing (set ev : Nat) (s : State) : pmuEvent set ev 0 s = s := if_pos rfl

theorem refill_idle (h : x.mode = .async ∨ 4 < x.headWin ∨ x.middle = 0) : x.refill = (0, x) := by
  refine if_neg fun hc => ?_
  obtain ⟨hm, hw, hmid⟩ := hc
  rcases h with h | h | h
  · exact hm h
  · omega
  · omega

theorem headRefill_closed (hq : s.queue? q = none) : headRefill q s = s := by
  unfold headRefill
  rw [hq]

theorem headRefill_is (hq : s.queue? q = some x) : headRefill q s = pmuEvent 259 0x403 x.refill.1 (s.setQueue q x.refill.2) := by
  unfold headRefill
  rw [hq]

theorem onlyQueue_counted {ev n : Nat} (y : Queue) : OnlyQueue q (some y) s (pmuEvent 259 ev n (s.setQueue q y)) :=
  ⟨pmuEvent_setQueue .., fun j hj => by rw [pmuEvent_queue, queue_set, if_neg hj]⟩

theorem headWindowRefill_idle (hq : s.queue? q = some x) (h : x.mode = .async ∨ 4 < x.headWin ∨ x.middle = 0) :
    ∃ t, exec (.headWindowRefill q) s = .next t ∧ Kept [.mq] s t ∧ OnlyQueue q (some x) s t := by
  have hs : headRefill q s = s.setQueue q x := by rw [headRefill_is hq, refill_idle h, pmuEvent_nothing]
  refine ⟨_, exec_of rfl hs, fun p hp => by cases p <;> first | rfl | simp at hp, ?_, fun j hj => ?_⟩
  · rw [queue_set, if_pos rfl]
  · rw [queue_set, if_neg hj]

/-- Up to 4 items move; where no more were in the middle, the windows then share what the queue holds. -/
theorem refill_moves (ha : x.mode ≠ .async) (hw : x.headWin ≤ 4) (hm : 0 < x.middle) :
    ∃ y, x.refill.2 = y ∧ y = { x with headWin := y.headWin, tailWin := y.tailWin } ∧
      (4 < x.middle → y.headWin = x.headWin + 4 ∧ y.tailWin = x.tailWin) ∧ (x.middle ≤ 4 → y.headWin = min 8 x.held.length ∧ y.middle = 0) := by
  have hmid : ∀ a b, ({ x with headWin := a, tailWin := b } : Queue).middle = x.held.length - a - b := fun a b => if_neg ha
  have hmidx : x.middle = x.held.length - x.headWin - x.tailWin := if_neg ha
  set z : Queue := { x with headWin := x.headWin + min 4 x.middle } with hz
  have hmidz : z.middle = x.held.length - (x.headWin + min 4 x.middle) - x.tailWin := hmid ..
  have hr : x.refill.2 = z.settle := by
    unfold Queue.refill
    rw [if_pos ⟨ha, hw, hm⟩]
  refine ⟨_, rfl, ?_, fun h => ?_, fun h => ?_⟩ <;> rw [hr] <;> unfold Queue.settle
  · split <;> rfl
  · rw [if_neg (by omega)]
    exact ⟨by show x.headWin + min 4 x.middle = _; omega, rfl⟩
  · rw [if_pos (by omega)]
    exact ⟨rfl, (hmid ..).trans (by show x.held.length - min 8 x.held.length - (x.held.length - min 8 x.held.length) = 0; omega)⟩

theorem headWindowRefill_moves (hq : s.queue? q = some x) (ha : x.mode ≠ .async) (hw : x.headWin ≤ 4) (hm : 0 < x.middle) :
    ∃ t y, exec (.headWindowRefill q) s = .next t ∧ Kept [.regs, .out, .hif, .mq, .pmu] s t ∧ OnlyQueue q (some y) s t ∧
      y = { x with headWin := y.headWin, tailWin := y.tailWin } ∧
      (4 < x.middle → y.headWin = x.headWin + 4 ∧ y.tailWin = x.tailWin) ∧ (x.middle ≤ 4 → y.headWin = min 8 x.held.length ∧ y.middle = 0) := by
  obtain ⟨y, hy, hshape⟩ := refill_moves ha hw hm
  refine ⟨_, y, exec_of rfl (headRefill_is hq), ?_, by rw [hy]; exact onlyQueue_counted y, hshape⟩
  exact ((setQueue_mild q _ s).kept.mono (by simp)).trans ((pmuEvent_mild ..).kept.mono (by simp))

end

/-! ## Scout (R457) -/

section
variable {k : Nat} {s : State}

theorem scoutInterval_full (h : (s.scoutOf k).full = true) : exec (.scoutIntervalExpiry k) s = .next s := by
  have hs : scoutExpire k s = s := if_neg (by simp [h])
  exact exec_of rfl hs

theorem scoutInterval_tags (hk : k < 256) (he : s.flag (fScoutCtlEn k) = true) (hm : (s.cor k).mode = .run) (h : (s.scoutOf k).full = false) :
    ∃ t, exec (.scoutIntervalExpiry k) s = .next t ∧ Kept [.scout] s t ∧
      t.scoutOf k = { s.scoutOf k with tagged := true, lfsr := lfsrStep (s.scoutOf k).lfsr } ∧ ∀ j, j ≠ k → t.scoutOf j = s.scoutOf j := by
  have hs : scoutExpire k s = { s with scout := mapInsert k { s.scoutOf k with lfsr := lfsrStep (s.scoutOf k).lfsr, tagged := true } s.scout } :=
    if_pos (by simp [hk, he, hm, h])
  refine ⟨_, exec_of rfl hs, fun p hp => by cases p <;> first | rfl | simp at hp, ?_, fun j hj => ?_⟩
  · unfold State.scoutOf
    rw [mapGet_insert_self]
  · unfold State.scoutOf
    exact mapGet_insert_other hj ..

end

/-! ## A move that lands (R208, R210) -/

section
variable {k : Nat} {m : Move} {s : State}

/-- A core into which a word of a move has landed. -/
def wordLanded (k a : Nat) (w : Word) (s : State) : State :=
  s.updCore k (fun c => { markDirty a 4 (lramPutAll a (leBytes 4 w.toNat) c) with bad := mendBad a 4 c.bad })

theorem landMove_word (ht : m.toBuf = false) (hh : m.hit = []) (i n : Nat) (s : State) : landMove k m i (n + 1) s =
    landMove k m (i + 1) n (wordLanded k (m.la + 4 * i) (bufWord s m.handle (m.ofs + 4 * i)) s) := by
  rw [landMove]
  simp only [ht, hh, List.any_nil, moveWord, Bool.false_eq_true, if_false]
  rfl

theorem wordLanded_cor (k a : Nat) (w : Word) (s : State) : ∃ r q d b, (wordLanded k a w s).cor k =
    { s.cor k with ram := r, scratch := q, bad := b, run := { (s.cor k).run with dirty := d } } := by
  unfold wordLanded
  rw [State.cor_updCore_self, markDirty_frame]
  obtain ⟨r, q, h⟩ := lramPutAll_ex (leBytes 4 w.toNat) a (s.cor k)
  rw [h]
  exact ⟨_, _, _, _, rfl⟩

theorem wordLanded_byte (k a b : Nat) (w : Word) (s : State) :
    lramByte ((wordLanded k a w s).cor k) b = lramByte (lramPutAll a (leBytes 4 w.toNat) (s.cor k)) b := by
  unfold wordLanded
  rw [State.cor_updCore_self, markDirty_frame]
  rfl

theorem wordLanded_word (k a : Nat) (w : Word) (s : State) : lramWord ((wordLanded k a w s).cor k) a = w := by
  rw [lramWord_of (fun i _ => wordLanded_byte ..), lramWord_putAll]
  exact BitVec.eq_of_toNat_eq (by rw [BitVec.toNat_ofNat, Nat.mod_eq_of_lt w.isLt])

theorem wordLanded_apart {a b : Nat} (h : b + 4 ≤ a ∨ a + 4 ≤ b) (w : Word) : lramWord ((wordLanded k a w s).cor k) b = lramWord (s.cor k) b :=
  lramWord_of fun i hi => by rw [wordLanded_byte, lramByte_putAll, if_neg (by rw [leBytes_length]; omega)]

/-- What the words of a move from the word `i` on leave, where no store met them. -/
structure Landed (k : Nat) (m : Move) (i n : Nat) (s t : State) : Prop where
  kept   : Kept [.core] s t
  others : ∀ j, j ≠ k → t.cor j = s.cor j
  core   : ∃ r q d b, t.cor k = { s.cor k with ram := r, scratch := q, bad := b, run := { (s.cor k).run with dirty := d } }
  before : ∀ j, j < i → lramWord (t.cor k) (m.la + 4 * j) = lramWord (s.cor k) (m.la + 4 * j)
  words  : ∀ j, i ≤ j → j < i + n → lramWord (t.cor k) (m.la + 4 * j) = bufWord s m.handle (m.ofs + 4 * j)

theorem landMove_landed (ht : m.toBuf = false) (hh : m.hit = []) : ∀ (n i : Nat) (s : State), Landed k m i n s (landMove k m i n s)
  | 0, i, s => ⟨Kept.refl _ s, fun _ _ => rfl, ⟨_, _, _, _, rfl⟩, fun _ _ => rfl, fun j h1 h2 => absurd h2 (by omega)⟩
  | n + 1, i, s => by
    set v := wordLanded k (m.la + 4 * i) (bufWord s m.handle (m.ofs + 4 * i)) s with hv
    obtain ⟨hkept, hothers, ⟨r, q, d, b, hcore⟩, hbefore, hwords⟩ := landMove_landed ht hh n (i + 1) v
    obtain ⟨r', q', d', b', hv'⟩ := wordLanded_cor k (m.la + 4 * i) (bufWord s m.handle (m.ofs + 4 * i)) s
    rw [landMove_word ht hh]
    refine ⟨?_, fun j hj => (hothers j hj).trans (State.cor_updCore_other s hj _), ⟨r, q, d, b, ?_⟩, fun j hj => ?_, fun j h1 h2 => ?_⟩
    · exact Kept.trans (t := v) (fun p hp => by cases p <;> first | rfl | simp at hp) hkept
    · rw [hcore, hv, hv']
    · rw [hbefore j (by omega), hv, wordLanded_apart (.inl (by omega))]
    · rcases Nat.eq_or_lt_of_le h1 with rfl | h1
      · rw [hbefore i (by omega), hv, wordLanded_word]
      · exact hwords j h1 (by omega)

/-- A core's oldest move leaves its list, and the bytes that it moved are counted. -/
def moveCounted (k n : Nat) (s : State) : State :=
  pmuEvent k 0x031 (((s.cor k).moved + n) / 16 - (s.cor k).moved / 16)
    ((s.updCore k (fun c => { c with moves := c.moves.tail, moved := (s.cor k).moved + n })).bump (fCoreXbytesCount k)
      (((s.cor k).moved + n) / 256 - (s.cor k).moved / 256))

theorem moveCounted_count (k n : Nat) (s : State) :
    CountOnly (s.updCore k (fun c => { c with moves := c.moves.tail, moved := (s.cor k).moved + n })) (moveCounted k n s) :=
  (bump_count ..).trans (pmuEvent_count ..)

/-- The state of a core whose move has landed, before what stalled on it goes on. -/
abbrev moveLanded (k : Nat) (m : Move) (s : State) : State := moveCounted k m.len (landMove k m 0 (m.len / 4) s)

theorem moveLanded_cor (k : Nat) (m : Move) (s : State) : (moveLanded k m s).cor k =
    { (landMove k m 0 (m.len / 4) s).cor k with
      moves := ((landMove k m 0 (m.len / 4) s).cor k).moves.tail, moved := ((landMove k m 0 (m.len / 4) s).cor k).moved + m.len } := by
  rw [(moveCounted_count k m.len (landMove k m 0 (m.len / 4) s)).cor k, State.cor_updCore_self]

theorem moveLanded_others {j : Nat} (hj : j ≠ k) : (moveLanded k m s).cor j = (landMove k m 0 (m.len / 4) s).cor j := by
  rw [(moveCounted_count k m.len (landMove k m 0 (m.len / 4) s)).cor j, State.cor_updCore_other _ hj]

theorem moveLanded_kept (h : Kept [.core] s (landMove k m 0 (m.len / 4) s)) : Kept [.regs, .out, .hif, .core, .pmu] s (moveLanded k m s) :=
  (h.mono (by simp)).trans (((updCore_mild k _ _).kept.mono (by simp)).trans ((moveCounted_count ..).kept.mono (by simp)))

theorem moveDone_noStall (h : ((moveLanded k m s).cor k).stall = .none) : moveDone k m s = moveLanded k m s := by
  unfold moveDone
  show (match ((moveLanded k m s).cor k).stall with | .xmov x => _ | .xwait => _ | .done st => _ | _ => moveLanded k m s) = _
  rw [h]

theorem moveDone_last (h : ((moveLanded k m s).cor k).stall = .xwait) (he : ((moveLanded k m s).cor k).moves = []) :
    moveDone k m s = completeAt k 0x23 (moveLanded k m s) := by
  unfold moveDone
  show (match ((moveLanded k m s).cor k).stall with
    | .xmov x => _ | .xwait => if ((moveLanded k m s).cor k).moves.isEmpty then completeAt k 0x23 (moveLanded k m s) else _ | .done st => _ | _ => _) = _
  rw [h, he]
  rfl

theorem completeAt_cor (k op : Nat) (s : State) : (completeAt k op s).cor k = { s.cor k with
    loops := (loopEnd (s.cor k).pc (s.cor k).loops).1, pc := (loopEnd (s.cor k).pc (s.cor k).loops).2, stall := .none } := by
  unfold completeAt
  dsimp only
  split
  · rw [(scoutRecord_aside ..).2, (pmuEvent_aside ..).2, State.cor_updCore_self]
  · rw [(pmuEvent_aside ..).2, State.cor_updCore_self]

/-! ### MOVE_COMPLETE -/

theorem moveComplete_none (h : (s.cor k).moves = [] ∨ (s.cor k).mode ≠ .run) (ok : Bool) : exec (.moveComplete k ok) s = .next s := by
  have hs : moveEnd k ok s = s := by
    unfold moveEnd
    dsimp only
    split
    · rfl
    · next m rest hm => exact if_pos (h.resolve_left (by simp [hm]))
  exact exec_of rfl hs

section
variable {rest : List Move} (hm : (s.cor k).moves = m :: rest) (hr : (s.cor k).mode = .run)
include hm hr

theorem moveEnd_good {ok : Bool} (h : hbmGood s ok = true) : moveEnd k ok s = moveDone k m s := by
  unfold moveEnd
  dsimp only
  rw [hm]
  dsimp only
  rw [if_neg (by simp [hr]), if_pos h]

theorem moveEnd_lost (h : s.flag fUmpCtlEccEn = true) : moveEnd k false s = takeException k { code := 5, detail := s.draw.1, hbm := true } s.draw.2 := by
  unfold moveEnd
  dsimp only
  rw [hm]
  dsimp only
  rw [if_neg (by simp [hr]), if_neg (by simp [hbmGood, h])]

theorem moveComplete_unnoticed (h : s.flag fUmpCtlEccEn = false) :
    ∃ t, exec (.moveComplete k true) s = .next t ∧ exec (.moveComplete k false) s = .next t :=
  ⟨_, exec_of rfl (moveEnd_good hm hr rfl), exec_of rfl (moveEnd_good hm hr (by simp [hbmGood, h]))⟩

section
variable (hh : m.hit = []) (ht : m.toBuf = false)
include hh ht

theorem moveComplete_lands (hs : (s.cor k).stall = .none) :
    ∃ t, exec (.moveComplete k true) s = .next t ∧ Kept [.regs, .out, .hif, .core, .pmu] s t ∧ (∀ j, j ≠ k → t.cor j = s.cor j) ∧
      (t.cor k).moves = rest ∧ (t.cor k).moved = (s.cor k).moved + m.len ∧ (t.cor k).pc = (s.cor k).pc ∧
      ∀ i, i < m.len / 4 → lramWord (t.cor k) (m.la + 4 * i) = bufWord s m.handle (m.ofs + 4 * i) := by
  obtain ⟨hkept, hothers, ⟨r, q, d, b, hcore⟩, -, hwords⟩ := landMove_landed (k := k) ht hh (m.len / 4) 0 s
  have hcor := moveLanded_cor k m s
  have hdone : moveEnd k true s = moveLanded k m s :=
    (moveEnd_good hm hr rfl).trans (moveDone_noStall (by rw [hcor, hcore]; exact hs))
  refine ⟨_, exec_of rfl hdone, moveLanded_kept hkept, fun j hj => (moveLanded_others hj).trans (hothers j hj), ?_, ?_, ?_, fun i hi => ?_⟩
  · rw [hcor, hcore]
    show (s.cor k).moves.tail = rest
    rw [hm]
    rfl
  · rw [hcor, hcore]
  · rw [hcor, hcore]
  · rw [← hwords i (Nat.zero_le i) (by omega), hcor]
    rfl

theorem moveComplete_resumes (hs : (s.cor k).stall = .xwait) (he : rest = []) (hl : (s.cor k).loops = []) :
    ∃ t, exec (.moveComplete k true) s = .next t ∧ (t.cor k).moves = [] ∧ (t.cor k).stall = .none ∧ (t.cor k).pc = ((s.cor k).pc + 4) % 2 ^ 32 := by
  obtain ⟨-, -, ⟨r, q, d, b, hcore⟩, -⟩ := landMove_landed (k := k) ht hh (m.len / 4) 0 s
  have hcor := moveLanded_cor k m s
  rw [hcore] at hcor
  have hmoves : ((moveLanded k m s).cor k).moves = [] := by
    rw [hcor]
    show (s.cor k).moves.tail = []
    rw [hm, he]
    rfl
  have hdone : moveEnd k true s = completeAt k 0x23 (moveLanded k m s) :=
    (moveEnd_good hm hr rfl).trans (moveDone_last (by rw [hcor]; exact hs) hmoves)
  refine ⟨_, exec_of rfl hdone, ?_, ?_, ?_⟩
  · rw [completeAt_cor]
    exact hmoves
  · rw [completeAt_cor]
  · rw [completeAt_cor, hcor]
    show (loopEnd (s.cor k).pc (s.cor k).loops).2 = _
    rw [hl]
    rfl

end

end

end

/-! ## A run that is stopped (R148, R216) -/

section
variable {k : Nat} {s : State} {d : NodeD}

/-- The registers of a core that name its exception. -/
def excNoted (k code : Nat) (s : State) : State :=
  (((s.setFld (fCoreExcCode k) code).setFld (fCoreExcValid k) 1).setFld (fCoreExcPcPc k) (s.cor k).pc).setFld (fCoreExcNodeNode k) (s.cor k).node

theorem excNoted_shown {code : Nat} (hc : code < 32) : (excNoted k code s).fld (fCoreExcCode k) = code ∧ (excNoted k code s).fld (fCoreExcValid k) = 1 ∧
    (excNoted k code s).fld (fCoreExcPcPc k) = (s.cor k).pc % 2 ^ 32 ∧ (excNoted k code s).fld (fCoreExcNodeNode k) = (s.cor k).node % 2 ^ 18 := by
  have hcode : (fCoreExcCode k).addr = 0x200000 + 0x1000 * k + 0x804 := rfl
  have hvalid : (fCoreExcValid k).addr = 0x200000 + 0x1000 * k + 0x804 := rfl
  have hpc : (fCoreExcPcPc k).addr = 0x200000 + 0x1000 * k + 0x808 := rfl
  have hnode : (fCoreExcNodeNode k).addr = 0x200000 + 0x1000 * k + 0x80c := rfl
  unfold excNoted
  refine ⟨?_, ?_, ?_, State.fld_setFld_self _ _ (by decide : 0 + 18 ≤ 32) _⟩
  · rw [State.fld_setFld_other _ _ _ _ (by omega), State.fld_setFld_other _ _ _ _ (by omega),
      State.fld_setFld_apart _ (fCoreExcValid k) (fCoreExcCode k) _ (by decide : 8 + 1 ≤ 32) (.inl (by decide : 0 + 5 ≤ 8)),
      State.fld_setFld_self _ (fCoreExcCode k) (by decide : 0 + 5 ≤ 32)]
    exact Nat.mod_eq_of_lt hc
  · rw [State.fld_setFld_other _ _ _ _ (by omega), State.fld_setFld_other _ _ _ _ (by omega),
      State.fld_setFld_self _ (fCoreExcValid k) (by decide : 8 + 1 ≤ 32)]
    rfl
  · rw [State.fld_setFld_other _ _ _ _ (by omega), State.fld_setFld_self _ (fCoreExcPcPc k) (by decide : 0 + 32 ≤ 32)]
    rfl

theorem excNoted_kept (k code : Nat) (s : State) : Kept [.regs] s (excNoted k code s) :=
  (((setFld_kept (fCoreExcCode k) code s).trans (setFld_kept (fCoreExcValid k) 1 _)).trans (setFld_kept (fCoreExcPcPc k) (s.cor k).pc _)).trans
    (setFld_kept (fCoreExcNodeNode k) (s.cor k).node _)

/-- An exception of a run other than a budget overrun or a residue mismatch, without a strike, notes itself, stops the run and is recorded. -/
theorem takeException_plain {e : Exc} (hm : (s.cor k).mode = .run) (h8 : e.code ≠ 8) (h6 : e.code ≠ 6) (hs : e.strike = false) :
    ∃ ev : UmpEv, ev.cls = 1 ∧ takeException k e s = umpEvent ev (tryIdle (k / 16) (abortStart k (excNoted k e.code s))) := by
  unfold takeException
  simp only [hm, decide_true, if_true, if_neg h8, if_neg h6, hs, Bool.false_and, Bool.false_eq_true, if_false]
  exact ⟨_, rfl, rfl⟩

/-- A descriptor of a run that is stopped. -/
def stoppedD (k : Nat) (r : RunRec) (d : NodeD) : NodeD :=
  { d with st := .aborting, recCancel := d.recCancel || decide (d.st = .cancelPending), undo := some r, runCore := k }

/-- A run's landing moves are cut short, its descriptor says so and its context is no longer resident. -/
def runDropped (k : Nat) (s : State) : State :=
  invalidate (s.cor k).node ((landAborted k s).updNode (s.cor k).node (stoppedD k (s.cor k).run))

theorem abortStart_eq (k : Nat) (s : State) : abortStart k s =
    (pmuEvent k 0x052 1 ((runDropped k s).bump (fCoreAbortsCount k) 1)).updCore k (fun c => { c with stall := .aborting, moves := [], run := {} }) := rfl

theorem landAborted_kept (k : Nat) (s : State) : Kept [.free, .hbm] s (landAborted k s) := (landAborted_within (Sub.refl _) (Within.refl s)).kept

/-- Registers that stopping a run may change. -/
abbrev abortRegs (k : Nat) : List Nat := [fGhPfWasteCount.addr, (fCoreAbortsCount k).addr, (fPmuOvfPmc k).addr]

theorem runDropped_mild (k : Nat) (s : State) : Mild [.free, .hbm, .bull, .gh] [fGhPfWasteCount.addr] s (runDropped k s) :=
  ((((landAborted_kept k s).mild (by decide)).mono (by simp) (List.nil_subset _)).trans ((updNode_mild _ _ _).mono (by simp) (List.nil_subset _))).trans
    ((invalidate_mild _ _).mono (by simp) (List.Subset.refl _))

theorem abortStart_mild (k : Nat) (s : State) : Mild [.free, .hbm, .bull, .gh, .pmu, .core] (abortRegs k) s (abortStart k s) := by
  rw [abortStart_eq]
  exact ((((runDropped_mild k s).mono (by simp) (by simp)).trans ((bump_mild _ 1 _).mono (by simp) (by simp))).trans
    ((pmuEvent_mild k 0x052 1 _).mono (by simp) (by simp))).trans ((updCore_mild k _ _).mono (by simp) (by simp))

/-- After the run is dropped, an abort counts and stops the core, and changes nothing else. -/
theorem abortStart_count (k : Nat) (s : State) : ∃ v, CountOnly (runDropped k s) v ∧
    abortStart k s = v.updCore k (fun c => { c with stall := .aborting, moves := [], run := {} }) :=
  ⟨_, (bump_count (fCoreAbortsCount k) 1 _).trans (pmuEvent_count k 0x052 1 _), abortStart_eq k s⟩

theorem abortStart_cor (k : Nat) (s : State) : (abortStart k s).cor k = { s.cor k with stall := .aborting, moves := [], run := {} } := by
  obtain ⟨v, hv, he⟩ := abortStart_count k s
  rw [he, State.cor_updCore_self, hv.cor k, cor_congr ((runDropped_mild k s).kept .core (by decide)) k]

theorem abortStart_bull (k : Nat) (s : State) : (abortStart k s).bull = (runDropped k s).bull := by
  obtain ⟨v, hv, he⟩ := abortStart_count k s
  rw [he, State.updCore_bull, hv.bull]

theorem abortStart_gh (k : Nat) (s : State) : (abortStart k s).gh = (runDropped k s).gh := by
  obtain ⟨v, hv, he⟩ := abortStart_count k s
  rw [he, State.updCore_gh, hv.gh]

theorem abortStart_node (hd : s.node? (s.cor k).node = some d) :
    (abortStart k s).node? (s.cor k).node = some (stoppedD k (s.cor k).run d) := by
  have hl : (landAborted k s).node? (s.cor k).node = some d := (node?_congr (landAborted_kept k s .bull (by decide)) _).trans hd
  have hu : (landAborted k s).updNode (s.cor k).node (stoppedD k (s.cor k).run) =
      (landAborted k s).setNode (s.cor k).node (stoppedD k (s.cor k).run d) := by
    unfold State.updNode
    rw [hl]
  rw [node?_congr (abortStart_bull k s), runDropped, node?_congr ((invalidate_mild _ _).kept .bull (by decide)), hu, node?_set, if_pos rfl]

theorem abortStart_res (k : Nat) (s : State) : (abortStart k s).resOf (s.cor k).node = none := by
  rw [resOf_congr (abortStart_gh k s), runDropped, invalidate_resOf, if_pos rfl]

theorem coreField_kept {f : Nat} (hf : f = 0x804 ∨ f = 0x808 ∨ f = 0x80c) : 0x200000 + 0x1000 * k + f ∉ abortRegs k ++ ledgerRegs := by
  have hpmu := pmuBase_aligned k
  have haborts : (fCoreAbortsCount k).addr = 0x200000 + 0x1000 * k + 0x818 := rfl
  have hovf : (fPmuOvfPmc k).addr = pmuBase k + 0xc := rfl
  simp only [List.mem_append, List.mem_cons, List.not_mem_nil, or_false, not_or, haborts, hovf]
  unfold fGhPfWasteCount fSeedIntStatContained fSeedMismatchCount fUmpSeqNext fUmpContainedCount fUmpIntStat fUmpLostCount fUmpRingHeadIndex
  dsimp only
  omega

/-- A run that takes such an exception is stopped by it. -/
theorem takeException_stops {e : Exc} (hm : (s.cor k).mode = .run) (hc : e.code < 32) (h8 : e.code ≠ 8) (h6 : e.code ≠ 6) (hs : e.strike = false)
    (hd : s.node? (s.cor k).node = some d) : Stopped k e.code d s (takeException k e s) := by
  obtain ⟨ev, hev, heq⟩ := takeException_plain (k := k) hm h8 h6 hs
  set v := excNoted k e.code s with hv
  set u := abortStart k v with hu
  have after : Mild [.clu, .hbm] ledgerRegs u (umpEvent ev (tryIdle (k / 16) u)) :=
    ((tryIdle_mild _ u).mono (by simp) (List.nil_subset _)).trans ((umpContained_mild hev _).mono (by simp) (List.Subset.refl _))
  have regs : ∀ f : Fld, (∃ o, f.addr = 0x200000 + 0x1000 * k + o ∧ (o = 0x804 ∨ o = 0x808 ∨ o = 0x80c)) →
      (umpEvent ev (tryIdle (k / 16) u)).fld f = v.fld f := by
    rintro f ⟨o, hf, ho⟩
    have hnot := coreField_kept (k := k) ho
    rw [← hf, List.mem_append, not_or] at hnot
    exact (after.fld hnot.2).trans ((abortStart_mild k v).fld hnot.1)
  obtain ⟨hcode, hvalid, hpc, hnode⟩ := excNoted_shown (k := k) (s := s) hc
  have vcor : v.cor k = s.cor k := cor_congr (excNoted_kept k e.code s .core (by decide)) k
  have hstop := abortStart_node (k := k) (s := v) (d := d) (by rw [vcor, node?_congr (excNoted_kept k e.code s .bull (by decide)), hd])
  have hgone := abortStart_res k v
  rw [vcor] at hstop hgone
  have hcor : (umpEvent ev (tryIdle (k / 16) u)).cor k = { s.cor k with stall := .aborting, moves := [], run := {} } :=
    by
    rw [cor_congr (after.kept .core (by decide)) k, hu, abortStart_cor, vcor]
  rw [heq]
  refine ⟨⟨?_, ?_, ?_, ?_⟩, ?_, ?_, ?_⟩
  · rw [regs _ ⟨0x804, rfl, .inl rfl⟩, hcode]
  · rw [regs _ ⟨0x804, rfl, .inl rfl⟩, hvalid]
  · rw [regs _ ⟨0x808, rfl, .inr (.inl rfl)⟩, hpc]
  · rw [regs _ ⟨0x80c, rfl, .inr (.inr rfl)⟩, hnode]
  · rw [hcor]
    exact ⟨rfl, rfl, rfl⟩
  · exact ⟨stoppedD k (s.cor k).run d, (node?_congr (after.kept .bull (by decide)) _).trans hstop, rfl, rfl, rfl⟩
  · exact (resOf_congr (after.kept .gh (by decide)) _).trans hgone

theorem moveComplete_fails {m : Move} {rest : List Move} (hm : (s.cor k).moves = m :: rest) (hr : (s.cor k).mode = .run)
    (h : s.flag fUmpCtlEccEn = true) (hd : s.node? (s.cor k).node = some d) :
    ∃ t, exec (.moveComplete k false) s = .next t ∧ Stopped k 5 d s t := by
  refine ⟨_, exec_of rfl (moveEnd_lost hm hr h), ?_⟩
  obtain ⟨hexc, hcore, hnode, hres⟩ := takeException_stops (k := k) (s := s.draw.2) (e := { code := 5, detail := s.draw.1, hbm := true }) hr
    (by decide : 5 < 32) (by decide : 5 ≠ 8) (by decide : 5 ≠ 6) rfl hd
  exact ⟨hexc, hcore, hnode, hres⟩

end

end Sys2Proof.Machine
end

section
/-!
PROOFS. Page-ins and write-backs: the bytes that page copies move, and what a page-in, a page-in that waits for its slots and a write-back leave when they
end (R165, R166, R169, R172 to R177, R432).
-/

namespace Sys2Proof.Machine

/-! ## Copied pages (R8, R165) -/

theorem mapFind?_append {α : Type} (k : Nat) : ∀ a b : List (Nat × α), mapFind? k (a ++ b) = (mapFind? k a).or (mapFind? k b)
  | [], _ => rfl
  | (j, v) :: a, b => by
    by_cases h : k = j
    · simp [mapFind?, h]
    · simp only [List.cons_append, mapFind?, if_neg h]
      exact mapFind?_append k a b

/-- What lies in a range reads the same once it is moved to another address. -/
theorem mapFind?_moved {α : Type} (a len b x : Nat) : ∀ m : List (Nat × α),
    mapFind? x ((m.filter (fun c => decide (a ≤ c.1) && decide (c.1 < a + len))).map (fun c => (c.1 - a + b, c.2))) =
      if b ≤ x ∧ x < b + len then mapFind? (x - b + a) m else none
  | [] => by simp
  | (j, v) :: m => by
    have ih := mapFind?_moved a len b x m
    by_cases hj : a ≤ j ∧ j < a + len
    · have hin : (decide (a ≤ j) && decide (j < a + len)) = true := by simpa using hj
      simp only [List.filter_cons, hin, if_true, List.map_cons, mapFind?]
      by_cases hx : x = j - a + b
      · rw [if_pos hx, if_pos (by omega), if_pos (by omega)]
      · rw [if_neg hx, ih]
        split
        · rw [if_neg (by omega)]
        · rfl
    · have hout : (decide (a ≤ j) && decide (j < a + len)) = false := by
        rw [Bool.and_eq_false_iff]
        simp only [decide_eq_false_iff_not]
        omega
      simp only [List.filter_cons, hout, Bool.false_eq_true, if_false, ih, mapFind?]
      split
      · rw [if_neg (by omega)]
      · rfl

theorem memRead_copyRange (src dst : List Host.Cell) (a len b x : Nat) :
    memRead (copyRange src a len dst b) x = if b ≤ x ∧ x < b + len then memRead src (x - b + a) else memRead dst x := by
  unfold memRead mapGet copyRange
  rw [mapFind?_append, mapFind?_append, mapFind?_moved, mapFind?_filter_key (fun j => decide (j < b)),
    mapFind?_filter_key (fun j => decide (b + len ≤ j))]
  by_cases h1 : x < b
  · simp [h1, show ¬ b ≤ x by omega, show ¬ b + len ≤ x by omega]
  · by_cases h2 : x < b + len
    · simp [h1, h2, show b ≤ x by omega, show ¬ b + len ≤ x by omega]
    · simp [h1, h2, show b + len ≤ x by omega]

section
variable {src : List Host.Cell} {A D : Nat → Nat} {len : Nat}

/-- Pages copied one after the other to places that do not meet. -/
abbrev copyPages (src : List Host.Cell) (A D : Nat → Nat) (len : Nat) (ps : List Nat) (dst : List Host.Cell) : List Host.Cell :=
  ps.foldl (fun m p => copyRange src (A p) len m (D p)) dst

theorem memRead_copyPages_apart {x : Nat} : ∀ (ps : List Nat) (dst : List Host.Cell), (∀ p ∈ ps, x < D p ∨ D p + len ≤ x) →
    memRead (copyPages src A D len ps dst) x = memRead dst x
  | [], _, _ => rfl
  | p :: ps, dst, h => by
    have hp := h p (List.mem_cons_self ..)
    rw [copyPages, List.foldl_cons, memRead_copyPages_apart ps _ (fun q hq => h q (List.mem_cons_of_mem _ hq)), memRead_copyRange, if_neg (by omega)]

theorem memRead_copyPages (hD : ∀ p q, p ≠ q → D p + len ≤ D q ∨ D q + len ≤ D p) {p b : Nat} (hb : b < len) :
    ∀ (ps : List Nat) (dst : List Host.Cell), p ∈ ps → memRead (copyPages src A D len ps dst) (D p + b) = memRead src (A p + b)
  | [], _, h => absurd h List.not_mem_nil
  | q :: ps, dst, h => by
    by_cases hp : p ∈ ps
    · exact memRead_copyPages hD hb ps _ hp
    · have hq : p = q := (List.mem_cons.mp h).resolve_right hp
      rw [copyPages, List.foldl_cons, memRead_copyPages_apart ps _ (fun r hr => ?_), ← hq, memRead_copyRange, if_pos (by omega),
        show D p + b - D p + A p = A p + b by omega]
      have := hD p r (fun e => hp (e ▸ hr))
      omega

end

section
variable {n : Nat} {s : State} {d : NodeD}

/-- A page's words, once its checkpoint has been copied into a core's slot (R174). -/
theorem pageCopyIn_byte (d : NodeD) (k sl : Nat) (s : State) {i b : Nat} (hi : i < classPages d.ctxClass) (hb : b < 0x2000) :
    memRead ((pageCopyIn d k sl s).cor k).ram (slotAddr (sl + i) + b) = memRead s.hbm (imageAddr d i (d.sel / 2 ^ i % 2) + b) := by
  unfold pageCopyIn
  rw [State.cor_updCore_self]
  refine memRead_copyPages (D := fun p => slotAddr (sl + p)) (fun p q hpq => ?_) hb _ _ (List.mem_range.mpr hi)
  unfold slotAddr
  omega

/-- An image that is not current, once a dirty page has been copied into it (R175). -/
theorem pageCopyOut_byte (d : NodeD) (k sl : Nat) {dirty : List Nat} (s : State) {i b : Nat} (hi : i ∈ dirty) (hb : b < 0x2000) :
    memRead (pageCopyOut d k sl dirty s).hbm (imageAddr d i (1 - d.sel / 2 ^ i % 2) + b) = memRead (s.cor k).ram (slotAddr (sl + i) + b) := by
  unfold pageCopyOut
  refine memRead_copyPages (D := fun p => imageAddr d p (1 - d.sel / 2 ^ p % 2)) (fun p q hpq => ?_) hb _ _ hi
  have hp : 1 - d.sel / 2 ^ p % 2 ≤ 1 := Nat.sub_le _ _
  have hq : 1 - d.sel / 2 ^ q % 2 ≤ 1 := Nat.sub_le _ _
  unfold imageAddr
  omega

/-! ## What a lost context leaves (R177, R433) -/

theorem noUnload_congr {t : State} (h : t.graphs = s.graphs) : noUnload t = noUnload s := by
  unfold noUnload
  rw [h]

/-- A descriptor of a node that lost its context. -/
def lostD (d : NodeD) : NodeD := { d with st := .disarmed, rerun := false, barred := none }

theorem contextLost_plain (hd : s.node? n = some d) (hs : d.st = .armed ∨ d.st = .running ∨ d.st = .cancelPending) (hn : d.staged = none)
    (hg : noUnload s = true) : contextLost n s = s.setNode n (lostD d) := by
  refine Eq.trans ?_ (disarm_plain hd hn hg)
  unfold contextLost
  rw [hd]
  rcases hs with h | h | h <;> simp only [h]

/-! ## PAGE_IN_COMPLETE (R169, R174) -/

theorem pageInDone_none (h : mapFind? n s.gh.pageIns = none) (ok : Bool) : pageInDone n ok s = s := by
  unfold pageInDone
  rw [h]
  cases s.node? n <;> rfl

section
variable {p : PageIn} (hd : s.node? n = some d) (hp : mapFind? n s.gh.pageIns = some p)
include hd hp

theorem pageInDone_waiting (h : p.slot = none) (ok : Bool) : pageInDone n ok s = s := by
  unfold pageInDone
  rw [hd, hp]
  dsimp only
  rw [h]

/-- A page-in that is no longer under way. -/
abbrev pageInEnded (n : Nat) (s : State) : State := s.setGh (fun g => { g with pageIns := mapErase n g.pageIns })

/-- The state in which a page-in has made a context resident. -/
def pagedIn (n sl : Nat) (d : NodeD) (p : PageIn) (s : State) : State :=
  addTraffic (0x2000 * classPages d.ctxClass) (((pageCopyIn d p.core sl (pageInEnded n s)).setGh (fun g => { g with
    res := mapInsert n { core := p.core, slot := sl, pre := p.pre, resv := p.resv, disp := if d.dispatched then d.runStart else 0 } g.res })).bump
    fGhPageinCount (classPages d.ctxClass))

variable {sl : Nat} (hsl : p.slot = some sl)
include hsl

theorem pageInDone_good {ok : Bool} (h : hbmGood s ok = true) : pageInDone n ok s = pmuEvent 257 0x202 (classPages d.ctxClass) (pagedIn n sl d p s) := by
  have h' : hbmGood (pageInEnded n s) ok = true := h
  unfold pageInDone
  rw [hd, hp]
  dsimp only
  rw [hsl]
  dsimp only
  rw [if_pos h']
  rfl

theorem pageInDone_lost (h : s.flag fUmpCtlEccEn = true) : pageInDone n false s =
    umpEvent { cls := 1, source := 5, cause := 0x13, node := n, acct := d.account, detail := (pageInEnded n s).draw.1 }
      (contextLost n (pageInEnded n s).draw.2) := by
  have h' : hbmGood (pageInEnded n s) false = false := by
    unfold hbmGood
    rw [show (pageInEnded n s).flag fUmpCtlEccEn = true from h]
    rfl
  unfold pageInDone
  rw [hd, hp]
  dsimp only
  rw [hsl]
  dsimp only
  rw [if_neg (by rw [h']; simp)]

omit hd hp hsl in
theorem pagedIn_kept : Kept [.regs, .gh, .core] s (pagedIn n sl d p s) := by
  have gh : ∀ f (u : State), Kept [.regs, .gh, .core] u (u.setGh f) := fun f u q hq => by cases q <;> first | rfl | simp at hq
  have copied : Kept [.core] (pageInEnded n s) (pageCopyIn d p.core sl (pageInEnded n s)) := fun q hq => by cases q <;> first | rfl | simp at hq
  exact ((gh _ s).trans (copied.mono (by simp))).trans (((gh _ _).trans ((bump_kept fGhPageinCount _ _).mono (by simp))).trans (gh _ _))

theorem pageInComplete_pages : ∃ t, exec (.pageInComplete n true) s = .next t ∧ Kept [.regs, .out, .hif, .gh, .core, .pmu] s t ∧
    mapFind? n t.gh.pageIns = none ∧
    t.resOf n = some { core := p.core, slot := sl, pre := p.pre, resv := p.resv, disp := if d.dispatched then d.runStart else 0 } ∧
    t.fld fGhPageinCount = (s.fld fGhPageinCount + classPages d.ctxClass) % 2 ^ 32 ∧
    ∀ i b, i < classPages d.ctxClass → b < 0x2000 →
      memRead (t.cor p.core).ram (0x20000 + 0x2000 * (sl + i) + b) =
        memRead s.hbm (d.ctxBase * 0x2000 + (2 * i + d.sel / 2 ^ i % 2) * 0x2000 + b) := by
  have count := pmuEvent_count 257 0x202 (classPages d.ctxClass) (pagedIn n sl d p s)
  refine ⟨_, exec_of rfl (pageInDone_good hd hp hsl rfl), (pagedIn_kept.mono (by simp)).trans (count.kept.mono (by simp)), ?_, ?_, ?_,
    fun i b hi hb => ?_⟩
  · rw [count.gh]
    exact mapFind?_erase_self n s.gh.pageIns
  · rw [resOf_congr count.gh]
    exact mapFind?_insert_self n _ s.gh.res
  · rw [(pmuEvent_mild 257 0x202 (classPages d.ctxClass) (pagedIn n sl d p s)).fld (by decide)]
    exact bump_fld_self fGhPageinCount (by decide) (classPages d.ctxClass) _
  · rw [count.cor]
    exact pageCopyIn_byte d p.core sl (pageInEnded n s) hi hb

theorem pageInComplete_unnoticed (h : s.flag fUmpCtlEccEn = false) :
    ∃ t, exec (.pageInComplete n true) s = .next t ∧ exec (.pageInComplete n false) s = .next t :=
  ⟨_, exec_of rfl (pageInDone_good hd hp hsl rfl), exec_of rfl (pageInDone_good hd hp hsl (by simp [hbmGood, h]))⟩

theorem pageInComplete_fails (h : s.flag fUmpCtlEccEn = true) (hst : d.st = .armed) (hn : d.staged = none) (hg : noUnload s = true) :
    ∃ t, exec (.pageInComplete n false) s = .next t ∧ mapFind? n t.gh.pageIns = none ∧ t.resOf n = s.resOf n ∧
      t.node? n = some { d with st := .disarmed, rerun := false, barred := none } ∧ UmpCounted 1 s t := by
  set v := (pageInEnded n s).draw.2 with hv
  have hlost : contextLost n v = v.setNode n (lostD d) := contextLost_plain (s := v) hd (.inl hst) hn hg
  have hdone := pageInDone_lost hd hp hsl h
  rw [hlost] at hdone
  have event := umpContained_mild (e := { cls := 1, source := 5, cause := 0x13, node := n, acct := d.account, detail := (pageInEnded n s).draw.1 })
    rfl (v.setNode n (lostD d))
  have before : Mild [.gh, .free, .bull] [] s (v.setNode n (lostD d)) :=
    (((setGh_mild _ s).mono (by simp) (by simp)).trans ((draw_mild _).mono (by simp) (by simp))).trans ((setNode_mild n _ v).mono (by simp) (by simp))
  refine ⟨_, exec_of rfl hdone, ?_, ?_, ?_, (umpContained_counted rfl _).after before (by decide)⟩
  · rw [event.kept .gh (by decide)]
    exact mapFind?_erase_self n s.gh.pageIns
  · exact resOf_congr (event.kept .gh (by decide)) n
  · rw [node?_congr (event.kept .bull (by decide)), node?_set, if_pos rfl]
    rfl

end

/-! ## PAGE_IN_SLOT_FREE (R173) -/

theorem slotFreed_none (h : mapFind? n s.gh.pageIns = none) : slotFreed n s = s := by
  unfold slotFreed
  rw [h]

section
variable {p : PageIn} (hp : mapFind? n s.gh.pageIns = some p)
include hp

/-- A page-in that has its slots, that still finds none, or that comes after another prefetch goes on waiting. -/
theorem slotFreed_waits (h : p.slot ≠ none ∨ chooseSlot s p.core (nodePages s n) = none ∨ (p.pre = true ∧ prefetchFirst s n p = false)) :
    slotFreed n s = s := by
  unfold slotFreed
  rw [hp]
  refine if_neg ?_
  rcases h with h | h | ⟨h1, h2⟩
  · rw [← Option.isSome_iff_ne_none] at h
    simp [Option.isNone_eq_false_iff.mpr h]
  · simp [h]
  · simp [h1, h2]

theorem slotFreed_places {b : Nat} (hs : p.slot = none) (hb : chooseSlot s p.core (nodePages s n) = some b)
    (hf : p.pre = false ∨ prefetchFirst s n p = true) : slotFreed n s = placePageIn n p s := by
  unfold slotFreed
  rw [hp]
  exact if_pos (by rcases hf with h | h <;> simp [hs, hb, h])

end

/-- Evictions change contexts and their count of waste alone. -/
theorem evictions_kept (ms : List Nat) (s : State) : Kept [.gh, .regs] s (ms.foldl (fun s m => evict m s) s) ∧
    RegsKept [fGhPfWasteCount.addr] s (ms.foldl (fun s m => evict m s) s) := by
  have hmild := foldl_mild (fun s m => evict m s) (fun s m => evict_mild m s) ms s
  refine ⟨?_, hmild.regs⟩
  induction ms generalizing s with
  | nil => exact Kept.refl _ s
  | cons m ms ih =>
    have hone : Kept [.gh, .regs] s (evict m s) := (evict_within (Sub.refl _) (Within.refl s)).kept
    exact hone.trans (ih (evict m s) (foldl_mild _ (fun s m => evict_mild m s) ms _))

theorem placePageIn_placed {p : PageIn} {b : Nat} (hb : chooseSlot s p.core (nodePages s n) = some b) :
    Kept [.regs, .gh] s (placePageIn n p s) ∧ RegsKept [fGhPfWasteCount.addr] s (placePageIn n p s) ∧
      mapFind? n (placePageIn n p s).gh.pageIns = some { p with slot := some b, since := s.clk } := by
  obtain ⟨hkept, hregs⟩ := evictions_kept ((meeting (occupants s p.core) b (nodePages s n)).map (fun o => o.1)) s
  unfold placePageIn
  rw [hb]
  dsimp only
  refine ⟨(hkept.mono (by simp)).trans (fun q hq => by cases q <;> first | rfl | simp at hq), hregs, ?_⟩
  show mapFind? n (mapInsert n _ _) = _
  rw [mapFind?_insert_self, hkept .clk (by decide)]

/-! ## WRITE_BACK_COMPLETE (R175, R177) -/

theorem writeBackDone_none (hd : s.node? n = some d) (h : d.writeBack = none ∨ s.resOf n = none) (fs : Nat) : writeBackDone n fs s = s := by
  unfold writeBackDone
  rw [hd]
  dsimp only
  rcases h with h | h
  · rw [h]
  · rw [h]
    cases d.writeBack <;> rfl

/-- Nothing waited for the write-back. -/
theorem writeBackAfter_idle (he : d.evicting = false) (hu : d.unloading = false) (hr : ∀ r, s.resOf n = some r → isWorking s r.core = true) :
    writeBackAfter n d s = s := by
  unfold writeBackAfter
  rw [he, hu]
  dsimp only
  simp only [Bool.false_eq_true, if_false]
  split
  · next r h => rw [if_pos (hr r h)]
  · rfl

section
variable {dirty : List Nat} {r : Res} (hd : s.node? n = some d) (hw : d.writeBack = some dirty) (hr : s.resOf n = some r)
  (he : d.evicting = false) (hu : d.unloading = false)
include hd hw hr he hu

/-- A descriptor whose dirty pages have been written back. -/
abbrev writtenD (dirty : List Nat) (d : NodeD) : NodeD :=
  { d with sel := dirty.foldl (fun x p => x ^^^ 2 ^ p) d.sel, gen := (d.gen + 1) % 65536, writeBack := none }

/-- The state in which dirty pages have been written back. -/
def writtenBack (n : Nat) (d : NodeD) (r : Res) (dirty : List Nat) (s : State) : State :=
  addTraffic (0x2000 * dirty.length) (((pageCopyOut d r.core r.slot dirty s).setNode n (writtenD dirty d)).bump fGhWritebackCount dirty.length)

omit hd hw hr he hu in
theorem writtenBack_kept : Kept [.regs, .hbm, .gh, .bull] s (writtenBack n d r dirty s) := by
  intro q hq
  cases q <;> first | rfl | simp at hq

theorem writeBackComplete_writes {fs : Nat} (hf : fs < 3) (hb : pagesBad s r.core r.slot dirty = false) (hk : isWorking s r.core = true) :
    ∃ t, exec (.writeBackComplete n fs) s = .next t ∧ Kept [.regs, .out, .hif, .hbm, .gh, .bull, .pmu] s t ∧ t.resOf n = some r ∧
      OnlyNode n (writtenD dirty d) s t ∧ t.fld fGhWritebackCount = (s.fld fGhWritebackCount + dirty.length) % 2 ^ 32 ∧
      ∀ i ∈ dirty, ∀ b, b < 0x2000 →
        memRead t.hbm (d.ctxBase * 0x2000 + (2 * i + (1 - d.sel / 2 ^ i % 2)) * 0x2000 + b) =
          memRead (s.cor r.core).ram (0x20000 + 0x2000 * (r.slot + i) + b) := by
  set v := writtenBack n d r dirty s with hv
  set t := pmuEvent 257 0x203 dirty.length v with ht
  have count := pmuEvent_count 257 0x203 dirty.length v
  have mild := pmuEvent_mild 257 0x203 dirty.length v
  have hres : t.resOf n = some r := (resOf_congr count.gh n).trans hr
  have hvregs : RegsKept [fGhWritebackCount.addr] s v := (bump_mild fGhWritebackCount dirty.length _).regs
  have hwork : isWorking t r.core = true := by
    have haddr : (fCluSparesCount (r.core / 16)).addr ∉ [(fPmuOvfPmc 257).addr] ∧ (fCluSparesCount (r.core / 16)).addr ∉ [fGhWritebackCount.addr] := by
      rw [List.mem_singleton, List.mem_singleton, show (fPmuOvfPmc 257).addr = 0x5F00c from rfl]
      unfold fCluSparesCount fGhWritebackCount
      dsimp only
      omega
    have hreg : t.fld (fCluSparesCount (r.core / 16)) = s.fld (fCluSparesCount (r.core / 16)) :=
      (mild.fld haddr.1).trans (congrArg (fun w => bits w (fCluSparesCount (r.core / 16)).lo (fCluSparesCount (r.core / 16)).w) (hvregs _ haddr.2))
    rw [isWorking_congr hreg (fun k => by rw [count.cor k]; rfl), hk]
  have hdone : writeBackDone n fs s = t := by
    have hgood : (decide (fs < 3) && !pagesBad s r.core r.slot dirty) = true := by simp [hf, hb]
    unfold writeBackDone
    rw [hd]
    dsimp only
    rw [hw, hr]
    dsimp only
    rw [if_pos hgood]
    refine (writeBackAfter_idle he hu (s := t) fun r' h' => ?_)
    rw [hres] at h'
    obtain rfl := Option.some.inj h'
    exact hwork
  refine ⟨t, exec_of rfl hdone, (writtenBack_kept.mono (by simp)).trans (count.kept.mono (by simp)), hres, ?_, ?_, fun i hi b hb => ?_⟩
  · exact onlyNode_of_bull (count.bull.trans rfl)
  · rw [mild.fld (by decide), hv]
    exact bump_fld_self fGhWritebackCount (by decide) dirty.length _
  · rw [count.hbm]
    exact pageCopyOut_byte d r.core r.slot s hi hb

theorem writeBackComplete_fails {fs : Nat} (hf : 3 ≤ fs ∨ pagesBad s r.core r.slot dirty = true)
    (hst : d.st = .armed ∨ d.st = .running ∨ d.st = .cancelPending) (hn : d.staged = none) (hg : noUnload s = true) :
    ∃ t, exec (.writeBackComplete n fs) s = .next t ∧ t.resOf n = none ∧
      t.node? n = some { d with writeBack := none, st := .disarmed, rerun := false, barred := none } ∧
      t.fld fGhWbFailCount = (s.fld fGhWbFailCount + 1) % 2 ^ 32 ∧ t.flag fGhIntStatWbFail = true ∧ UmpCounted 1 s t := by
  set d' : NodeD := { d with writeBack := none } with hd'
  set v := invalidate n (s.setNode n d') with hv
  set w := v.setNode n (lostD d') with hw'
  set x := raiseFld 0x05 fGhIntStatWbFail (w.bump fGhWbFailCount 1) with hx
  have inval := invalidate_mild n (s.setNode n d')
  have hlost : contextLost n v = w := by
    refine contextLost_plain (d := d') ?_ hst hn ((noUnload_congr (inval.kept .graphs (by decide))).trans hg)
    rw [node?_congr (inval.kept .bull (by decide)), node?_set, if_pos rfl]
  have raised := raiseFld_mild 0x05 fGhIntStatWbFail (w.bump fGhWbFailCount 1)
  have counted := bump_mild fGhWbFailCount 1 w
  set ev : UmpEv := { cls := 1, source := 5, cause := 0x1B, node := n, acct := d.account, detail := x.draw.1 } with hev
  set t := umpEvent ev x.draw.2 with ht
  have event : Mild [.hbm] ledgerRegs x.draw.2 t := umpContained_mild rfl x.draw.2
  have before : Mild [.bull, .gh, .free] [fGhPfWasteCount.addr, fGhWbFailCount.addr, fGhIntStatWbFail.addr] s x.draw.2 :=
    (((setNode_mild n d' s).mono (by simp) (by simp)).trans (inval.mono (by simp) (by simp))).trans
      ((((setNode_mild n _ v).mono (by simp) (by simp)).trans (counted.mono (by simp) (by simp))).trans
        ((raised.mono (by simp) (by simp)).trans ((draw_mild x).mono (by simp) (by simp))))
  have hres : t.resOf n = none := by
    rw [resOf_congr (event.kept .gh (by decide)), show x.draw.2.resOf n = x.resOf n from rfl, resOf_congr (raised.kept .gh (by decide)),
      show (w.bump fGhWbFailCount 1).resOf n = v.resOf n from rfl, invalidate_resOf, if_pos rfl]
  have hdone : writeBackDone n fs s = t := by
    have hbad : ¬ (decide (fs < 3) && !pagesBad s r.core r.slot dirty) = true := by
      rcases hf with h | h <;> simp [h]
    unfold writeBackDone
    rw [hd]
    dsimp only
    rw [hw, hr]
    dsimp only
    rw [if_neg hbad, hlost]
    exact writeBackAfter_idle he hu (s := t) fun r' h' => by rw [hres] at h'; cases h'
  refine ⟨t, exec_of rfl hdone, hres, ?_, ?_, ?_, (umpContained_counted rfl x.draw.2).after before (by decide)⟩
  · rw [node?_congr (event.kept .bull (by decide)), show x.draw.2.node? n = x.node? n from rfl, node?_congr (raised.kept .bull (by decide)),
      show (w.bump fGhWbFailCount 1).node? n = w.node? n from rfl, node?_set, if_pos rfl]
    rfl
  · rw [event.fld (by decide), show x.draw.2.fld fGhWbFailCount = x.fld fGhWbFailCount from rfl, raised.fld (by decide), bump_fld_self _ (by decide),
      show w.fld fGhWbFailCount = v.fld fGhWbFailCount from rfl, inval.fld (by decide)]
    rfl
  · have hflag : t.fld fGhIntStatWbFail = x.fld fGhIntStatWbFail := event.fld (by decide)
    unfold State.flag
    rw [hflag]
    exact raiseFld_self 0x05 fGhIntStatWbFail (by decide) (by decide) _

end

end

end Sys2Proof.Machine
end

section
/-!
PROOFS. Holds that expire: a held node that no core has asked for is placed elsewhere, which starts to page its context in there (R140, R141, R171, R172).
-/

namespace Sys2Proof.Machine

variable {n : Nat} {s : State} {d : NodeD}

/-! ## A page-in that starts (R171, R172) -/

theorem evict_resOf_none (m : Nat) (h : s.resOf n = none) : (evict m s).resOf n = none := by
  unfold evict
  split
  · dsimp only
    split <;> exact h
  · rw [invalidate_resOf]
    split
    · rfl
    · exact h

theorem evictions_resOf_none : ∀ (ms : List Nat) (s : State), s.resOf n = none → (ms.foldl (fun s m => evict m s) s).resOf n = none
  | [], _, h => h
  | m :: ms, s, h => evictions_resOf_none ms (evict m s) (evict_resOf_none m h)

/-- A page-in has its slots or waits for them; nothing becomes resident. -/
theorem placePageIn_under (p : PageIn) (h : s.resOf n = none) : (placePageIn n p s).resOf n = none ∧
    ∃ q, mapFind? n (placePageIn n p s).gh.pageIns = some q ∧ q.core = p.core ∧ q.pre = p.pre ∧ q.resv = p.resv := by
  unfold placePageIn
  split
  · exact ⟨evictions_resOf_none _ s h, _, mapFind?_insert_self .., rfl, rfl, rfl⟩
  · have raised := raiseFld_kept 0x05 fGhIntStatNoslot (s.setGh (fun g => { g with pageIns := mapInsert n { p with slot := none } g.pageIns }))
    dsimp only
    rw [resOf_congr (raised .gh (by decide)), raised .gh (by decide)]
    exact ⟨h, _, mapFind?_insert_self .., rfl, rfl, rfl⟩

theorem startPageIn_under (n k : Nat) (s : State) : (startPageIn n k false s).resOf n = none ∧
    ∃ p, mapFind? n (startPageIn n k false s).gh.pageIns = some p ∧ p.core = k ∧ p.pre = false ∧ p.resv = true := by
  unfold startPageIn
  refine placePageIn_under _ ?_
  show (wakeCluster (k / 16) (invalidate n s)).resOf n = none
  rw [resOf_congr ((wakeCluster_only _ _).kept .gh (by decide)), invalidate_resOf, if_pos rfl]

/-! ## A hold that has expired (R171) -/

/-- A descriptor whose hold has expired. -/
abbrev expiredD (d : NodeD) : NodeD := { d with hold := none, expired := true }

/-- The state in which a hold has expired, and been counted. -/
def holdExpired (n : Nat) (d : NodeD) (s : State) : State := (s.setNode n (expiredD d)).bump fGhAffExpireCount 1

theorem holdExpired_node (n : Nat) (d : NodeD) (s : State) : (holdExpired n d s).node? n = some (expiredD d) :=
  (node?_set n n (expiredD d) s).trans (if_pos rfl)

theorem holdExpired_others {m : Nat} (h : m ≠ n) : (holdExpired n d s).node? m = s.node? m :=
  (node?_set n m (expiredD d) s).trans (if_neg h)

theorem holdExpired_regs (n : Nat) (d : NodeD) (s : State) : RegsKept [fGhAffExpireCount.addr] s (holdExpired n d s) :=
  (bump_mild fGhAffExpireCount 1 (s.setNode n (expiredD d))).regs

theorem holdExpired_waiting (n : Nat) (d : NodeD) (s : State) (k : Nat) : waiting (holdExpired n d s) k = waiting s k := by
  have hspares : (fCluSparesCount (k / 16)).addr ∉ [fGhAffExpireCount.addr] := by
    rw [List.mem_singleton]
    unfold fCluSparesCount fGhAffExpireCount
    dsimp only
    omega
  have hwork : isWorking (holdExpired n d s) k = isWorking s k :=
    isWorking_congr (congrArg (fun w => bits w (fCluSparesCount (k / 16)).lo (fCluSparesCount (k / 16)).w) (holdExpired_regs n d s _ hspares))
      (fun _ => Iff.rfl)
  unfold waiting
  rw [hwork]
  rfl

theorem reservedCore_expired {m : Nat} (h : m ≠ n) : reservedCore (holdExpired n d s) m = reservedCore s m := by
  unfold reservedCore
  rw [holdExpired_others h]
  rfl

/-- Which cores are reserved for other nodes does not turn on the node itself. -/
theorem reservedElse_expired (n : Nat) (d : NodeD) (s : State) (k : Nat) : reservedElse (holdExpired n d s) k n = reservedElse s k n := by
  have same : ∀ m, (m != n && reservedCore (holdExpired n d s) m == some k) = (m != n && reservedCore s m == some k) := fun m => by
    by_cases h : m = n
    · simp [h]
    · rw [reservedCore_expired h]
  unfold reservedElse
  simp only [same]
  rfl

theorem takers_expired (n : Nat) (d : NodeD) (s : State) (h : Nat) : takers (holdExpired n d s) h n (expiredD d) = takers s h n d := by
  have same : ∀ k, canTake (holdExpired n d s) k n (expiredD d) = canTake s k n d := fun k => by
    unfold canTake
    rw [holdExpired_waiting, reservedElse_expired]
    rfl
  unfold takers
  simp only [same]

/-- A node whose hold has expired, and whose core is not free, is paged into the first core that may take it. -/
theorem placeLocal_expired {j : Nat} {js : List Nat} {r : Res} (ht : takers s d.set.home n d = j :: js) (hr : s.resOf n = some r)
    (hv : r.resv = false) (hc : r.core ∉ j :: js) (hw : d.writeBack = none) (hp : mapFind? n s.gh.pageIns = none) :
    placeLocal (holdExpired n d s) d.set.home n = .paging (startPageIn n j false ((holdExpired n d s).setNode n (expiredD d))) := by
  set u := holdExpired n d s with hu
  have hnode : u.node? n = some (expiredD d) := holdExpired_node n d s
  have hpu : mapFind? n u.gh.pageIns = none := hp
  have hru : u.resOf n = some r := hr
  have hfree : placeable u n (expiredD d) = true := by
    unfold placeable
    rw [hpu, show (expiredD d).writeBack = none from hw]
    rfl
  have hres : reservedCore u n = none := by
    unfold reservedCore
    rw [hnode]
    dsimp only
    rw [hpu, hru]
    simp [hv]
  have hupd : u.updNode n (fun d => { d with hold := none }) = u.setNode n (expiredD d) := by
    unfold State.updNode
    rw [hnode]
  have hcore : (j :: js).contains r.core = false := by simpa using hc
  have htu : takers u (expiredD d).set.home n (expiredD d) = j :: js := (takers_expired n d s d.set.home).trans ht
  unfold placeLocal
  rw [hnode]
  dsimp only
  rw [show takers u d.set.home n (expiredD d) = j :: js from htu, hru, hres, hfree, hupd]
  dsimp only
  rw [hcore, hw]
  simp

theorem holdExpiry_unheld (hd : s.node? n = some d) (h : d.hold = none) : holdExpiry n s = s := by
  unfold holdExpiry
  rw [hd]
  dsimp only
  rw [h]

section
variable {k since : Nat} (hd : s.node? n = some d) (hh : d.hold = some (k, since))
include hd hh

theorem holdExpiry_taken (h : canTake s k n d = true) : holdExpiry n s = s := by
  unfold holdExpiry
  rw [hd]
  dsimp only
  rw [hh]
  exact if_pos h

variable (ht : canTake s k n d = false) (hw : since + nsCycles (s.fld fGhAffWinNs) ≤ s.clk)
include ht hw

/-- A hold that has run its time: the node is placed where Bullpen is enabled. -/
theorem holdExpiry_due : holdExpiry n s = if s.flag fBullCtlEn then
      match placeLocal (holdExpired n d s) d.set.home n with
      | .dispatched s' => s'
      | .paging s' => s'
      | .held s' => s'
      | .skipped => holdExpired n d s
    else holdExpired n d s := by
  have hadv : advanceSince since (nsCycles (s.fld fGhAffWinNs)) s = s := advance_passed hw s
  have hflag : (holdExpired n d s).flag fBullCtlEn = s.flag fBullCtlEn :=
    congrArg (fun w => bits w fBullCtlEn.lo fBullCtlEn.w != 0) (holdExpired_regs n d s _ (by decide))
  unfold holdExpiry
  rw [hd]
  dsimp only
  rw [hh]
  dsimp only
  rw [if_neg (by rw [ht]; simp), hadv, ← hflag]
  rfl

theorem holdExpiry_off (he : s.flag fBullCtlEn = false) :
    ∃ t, exec (.affinityHoldExpiry n false) s = .next t ∧ Kept [.regs, .bull] s t ∧ RegsKept [fGhAffExpireCount.addr] s t ∧
      OnlyNode n (expiredD d) s t ∧ t.fld fGhAffExpireCount = (s.fld fGhAffExpireCount + 1) % 2 ^ 32 := by
  have hs : holdExpiry n s = holdExpired n d s := by rw [holdExpiry_due hd hh ht hw, he, if_neg (by simp)]
  refine ⟨_, exec_of rfl hs, fun q hq => by cases q <;> first | rfl | simp at hq, holdExpired_regs n d s, onlyNode_of_bull rfl,
    bump_fld_self fGhAffExpireCount (by decide) 1 _⟩

theorem holdExpiry_pages (he : s.flag fBullCtlEn = true) {j : Nat} {js : List Nat} {r : Res} (hj : takers s d.set.home n d = j :: js)
    (hr : s.resOf n = some r) (hv : r.resv = false) (hc : r.core ∉ j :: js) (hb : d.writeBack = none) (hp : mapFind? n s.gh.pageIns = none) :
    ∃ t p, exec (.affinityHoldExpiry n false) s = .next t ∧ OnlyNode n (expiredD d) s t ∧ t.resOf n = none ∧
      mapFind? n t.gh.pageIns = some p ∧ p.core = j ∧ p.pre = false ∧ p.resv = true := by
  set u := (holdExpired n d s).setNode n (expiredD d) with hu
  have hs : holdExpiry n s = startPageIn n j false u := by
    rw [holdExpiry_due hd hh ht hw, he, if_pos rfl, placeLocal_expired hj hr hv hc hb hp]
  obtain ⟨hres, p, hpage, hpcore, hpre, hresv⟩ := startPageIn_under n j u
  have hbull : (startPageIn n j false u).bull = u.bull := (startPageIn_mild n j false u).kept .bull (by decide)
  have first : OnlyNode n (expiredD d) s (holdExpired n d s) := onlyNode_of_bull rfl
  exact ⟨_, p, exec_of rfl hs, first.trans (onlyNode_of_bull hbull), hres, hpage, hpcore, hpre, hresv⟩

end

/-- A command that changes nothing dispatches no node of the Kelrik Media Library. -/
theorem withKml_same {f : State → State} (h : f s = s) (kml : Bool) : withKml kml f s = s := by
  have none_new : newRuns s s = [] := List.filter_eq_nil_iff.mpr fun k _ => by simp
  unfold withKml
  rw [h, none_new]
  cases kml <;> rfl

theorem holdExpiry_same (h : holdExpiry n s = s) (kml : Bool) : exec (.affinityHoldExpiry n kml) s = .next s :=
  exec_of rfl (withKml_same h kml)

/-! ## The obligation -/

/-- Settles O44, event by event: page-ins and write-backs from the bytes of their page copies, the sweeps from what they count, moves word by word, and an
expired hold from where its node is placed. -/
theorem contextsAndSweeps : Obligations.ContextsAndSweeps := by
  refine ⟨fun s n d hd => ⟨?_, ?_, ?_, ?_, ?_, ?_, ?_⟩, fun s => ⟨?_, ledgerSweep_agrees, ledgerSweep_differs, ?_, ?_, ?_⟩, fun s q => ⟨?_, ?_⟩,
    fun s k => ⟨moveComplete_none, ?_⟩, fun s k hk he hm => ⟨scoutInterval_full, scoutInterval_tags hk he hm⟩⟩
  · exact fun h kml => holdExpiry_same (holdExpiry_unheld hd h) kml
  · exact fun k since hh ht kml => holdExpiry_same (holdExpiry_taken hd hh ht) kml
  · exact fun k since hh ht hw => ⟨holdExpiry_off hd hh ht hw, fun j js r he hj hr hv hc hb hp => holdExpiry_pages hd hh ht hw he hj hr hv hc hb hp⟩
  · exact fun h => ⟨fun ok => exec_of rfl (pageInDone_none h ok), exec_of rfl (slotFreed_none h)⟩
  · intro p hp
    have hpages : nodePages s n = classPages d.ctxClass := by
      unfold nodePages
      rw [hd]
    refine ⟨fun h => exec_of rfl (slotFreed_waits hp (.inl h)), fun h => ⟨fun ok => exec_of rfl (pageInDone_waiting hd hp h ok), ?_, ?_, ?_⟩, ?_⟩
    · exact fun hc => exec_of rfl (slotFreed_waits hp (.inr (.inl (by rw [hpages, hc]))))
    · exact fun h1 h2 => exec_of rfl (slotFreed_waits hp (.inr (.inr ⟨h1, h2⟩)))
    · intro b hb hf
      rw [← hpages] at hb
      exact ⟨_, exec_of rfl (slotFreed_places hp h hb hf), placePageIn_placed hb⟩
    · exact fun sl hsl => ⟨pageInComplete_pages hd hp hsl, pageInComplete_unnoticed hd hp hsl, pageInComplete_fails hd hp hsl⟩
  · exact fun fs h => exec_of rfl (writeBackDone_none hd h fs)
  · intro dirty r fs hw hr he hu
    refine ⟨fun hf hb hk => ?_, writeBackComplete_fails hd hw hr he hu⟩
    obtain ⟨t, ht, hkept, hres, hnode, hcount, hbytes⟩ := writeBackComplete_writes hd hw hr he hu hf hb hk
    exact ⟨t, ht, hkept, hres, hnode, hcount, fun _ => hbytes⟩
  · exact fun h => ⟨ledgerSweep_off h, fun ms lost => tagSweep_off h ms lost⟩
  · exact fun ms he ha hf => ⟨tagSweep_clean he ha hf, fun g hecc hg => tagSweep_lost he ha hf hecc hg⟩
  · exact fun ms lost h => ⟨_, exec_of rfl (tagSweep_unnoticed h ms lost), rfl⟩
  · exact fun ms a he ha hd ho => tagSweep_wrong he ha hd ho
  · exact fun h => exec_of rfl (headRefill_closed h)
  · exact fun x hx => ⟨headWindowRefill_idle hx, headWindowRefill_moves hx⟩
  · intro m rest hm hr
    refine ⟨fun hs hh ht _ _ => moveComplete_lands hm hr hh ht hs, fun hs he hh ht hl => moveComplete_resumes hm hr hh ht hs he hl,
      moveComplete_unnoticed hm hr, fun d h hd => moveComplete_fails hm hr h hd⟩

end Sys2Proof.Machine
end

section
/-!
PROOFS. Timer commands: what TIMER.ARM, CANCEL and BEAT do to the timers and the generators (R151, R155, R160, R161).
-/

namespace Sys2Proof.Machine

section
variable {h : KciHdr} {s : State}

theorem started_bull (op : Nat) (h : KciHdr) (s : State) : (started op h s).bull = s.bull := started_same State.bull op h s fun _ => rfl

theorem State.gen_updGen (s : State) (g j : Nat) (f : BeatGen → BeatGen) : (s.updGen g f).gen j = if j = g then f (s.gen g) else s.gen j :=
  mapGet_upd _ _ _ _ _

/-! ## TIMER.ARM (R153, R155, R157) -/

/-- Bullpen once a timer has been inserted. -/
def timerAdded (i : Nat) (x : Timer) (s : State) : State :=
  { s with bull := { s.bull with timers := mapInsert i x s.bull.timers, order := s.bull.order + 1 } }

theorem timerAdded_kept (i : Nat) (x : Timer) (s : State) : Kept [.bull] s (timerAdded i x s) := by
  intro p hp; cases p <;> first | rfl | simp at hp

/-- Where a timer is free, a free one is taken, with DUE reduced. -/
theorem insertTimer_inserts (list target flag due : Nat) (drop report : Bool) (tag : Nat) (hl : s.bull.timers.length < 16384) :
    ∃ i, i < 16384 ∧ mapFind? i s.bull.timers = none ∧ insertTimer list target flag due drop report tag s =
      (some i, timerAdded i
        { list, target, flag, due := due % 2 ^ 32, dropLate := drop, report, tag, order := s.bull.order, insTick := s.tick, held := false } s.draw.2) := by
  obtain ⟨i, hi, hlt, hn⟩ := nextFreeTimer_some (i := s.draw.1 % 16384) (Nat.mod_lt _ (by decide)) hl
  refine ⟨i, hlt, hn, ?_⟩
  have hi' : nextFreeTimer s.draw.2.bull.timers (s.draw.1 % 16384) 16384 = some i := hi
  unfold insertTimer
  rw [if_neg (by omega)]
  dsimp only
  rw [hi']
  rfl

theorem insertTimer_full (list target flag due : Nat) (drop report : Bool) (tag : Nat) (hl : 16384 ≤ s.bull.timers.length) :
    insertTimer list target flag due drop report tag s = (none, s) := if_pos hl

theorem timerChecks_ok {o : TimerOp} (ho : TimerLegal o) : firstErr (timerChecks o) = none := by
  obtain ⟨hlist, htarget, hflag, hdue, hrel, hdrop, hreport, htag⟩ := ho
  have hd : o.due ≤ if o.rel then 2 ^ 31 - 2 else W32 - 1 := by
    split
    · next e => exact hrel e
    · show o.due ≤ 4294967295; omega
  unfold timerChecks
  rw [chkRange_ok (Nat.zero_le _) hlist, chkNode_ok htarget, chkRange_ok (Nat.zero_le _) hflag, chkRange_ok (Nat.zero_le _) hd,
    chkRange_ok (Nat.zero_le _) hdrop, chkRange_ok (Nat.zero_le _) hreport, chkRange_ok (Nat.zero_le _) (show o.tag ≤ W32 - 1 by show o.tag ≤ 4294967295; omega)]
  rfl

/-- The timer that TIMER.ARM inserts. -/
def timerOf (s : State) (o : TimerOp) : Timer :=
  { list := o.list, target := o.target, flag := o.flag, due := (if o.rel then s.mtc + 1 + o.due else o.due) % 2 ^ 32
    dropLate := decide (o.dropLate = 1), report := decide (o.report = 1), tag := o.tag, order := s.bull.order, insTick := s.tick, held := false }

section
variable {o : TimerOp} {d : NodeD} (he : s.flag fBullCtlEn = true) (ho : TimerLegal o) (hr : kciReady 0x0601 h none s = true)
  (hd : s.node? o.target = some d) (hu : d.unloading = false)
include he ho hr hd hu

theorem timerArm_arms (hl : s.bull.timers.length < 16384) :
    ∃ t i, exec (.timerArm h o) s = .next t ∧ Done 0x0601 h 0 [i] [] [] s t ∧ Kept [.regs, .hif, .out, .bull, .free] s t ∧ i < 16384 ∧
      mapFind? i s.bull.timers = none ∧ t.bull = { s.bull with timers := mapInsert i (timerOf s o) s.bull.timers, order := s.bull.order + 1 } := by
  have hb := started_bull 0x0601 h s
  obtain ⟨i, hi, hn, hins⟩ := insertTimer_inserts (s := started 0x0601 h s) o.list o.target o.flag
    (if o.rel then (started 0x0601 h s).mtc + 1 + o.due else o.due) (o.dropLate == 1) (o.report == 1) o.tag (by rw [hb]; exact hl)
  obtain ⟨t, e, hdone, k, ku⟩ := completes (i := .timerArm h o) rfl _ 0 [i] [.bull, .free] [] hr (timerChecks_ok ho)
    (by rw [started_flag, he, hostNode_started hd hu]; dsimp only [Bool.not_true, Bool.false_or, Option.isNone]; rw [if_neg (by simp), hins])
    (((draw_mild _).mono (by simp) (by simp)).trans (((timerAdded_kept i _ _).mild (by simp)).mono (by simp) (by simp))) (by decide) (by decide)
  rw [hb] at hn
  refine ⟨t, i, e, hdone, k, hi, hn, (ku .bull (by decide)).trans ?_⟩
  obtain ⟨q, hq⟩ := started_is 0x0601 h s
  rw [hq]
  rfl

theorem timerArm_noSpace (hl : 16384 ≤ s.bull.timers.length) : FailsWith (.timerArm h o) 0x0601 h s 6 := by
  refine fails rfl hr (timerChecks_ok ho) (by decide) ?_
  rw [started_flag, he, hostNode_started hd hu]
  dsimp only [Bool.not_true, Bool.false_or, Option.isNone]
  rw [if_neg (by simp), insertTimer_full _ _ _ _ _ _ _ (by rw [started_bull]; exact hl)]

end

/-! ## TIMER.CANCEL (R160) -/

/-- Bullpen without timer `i`. -/
def timerGone (i : Nat) (s : State) : State := { s with bull := { s.bull with timers := mapErase i s.bull.timers } }

theorem timerGone_kept (i : Nat) (s : State) : Kept [.bull] s (timerGone i s) := by
  intro p hp; cases p <;> first | rfl | simp at hp

theorem timerCancel_cancels {i : Nat} {x : Timer} (he : s.flag fBullCtlEn = true) (hi : i < 16384) (hr : kciReady 0x0602 h (keyTimer i) s = true)
    (hx : mapFind? i s.bull.timers = some x) :
    ∃ t, exec (.timerCancel h i) s = .next t ∧ Done 0x0602 h 0 [] [] [] s t ∧ Kept [.regs, .hif, .out, .bull] s t ∧
      t.bull = { s.bull with timers := mapErase i s.bull.timers } := by
  have hx' : mapFind? i (started 0x0602 h s).bull.timers = some x := by rw [started_bull]; exact hx
  obtain ⟨t, e, d, k, ku⟩ := succeeds (i := .timerCancel h i) rfl hr
    (by rw [chkRange_ok (Nat.zero_le _) (by omega)]; rfl) (by decide)
    (by rw [started_flag, he, hx']; rfl)
    (timerGone_kept i (started 0x0602 h s)) (by decide)
  exact ⟨t, e, d, k, (ku .bull (by decide)).trans (by unfold timerGone; rw [started_bull])⟩

/-! ## TIMER.BEAT (R151) -/

/-- A generator after TIMER.BEAT: dropped, replaced at its next boundary, or set at its first one. -/
def beatSet (s : State) (o : BeatOp) : BeatGen :=
  if o.en = 0 then { s.gen o.gen with
    en := false, q := o.q, flag := o.flag, next := o.start, waiting := [], newSet := none, catchUp := none
    posting := if s.bull.poster.head? = some o.gen then (s.gen o.gen).posting else [] }
  else if (s.gen o.gen).en = true then { s.gen o.gen with newSet := some ⟨o.q, o.flag, o.start⟩ }
  else { s.gen o.gen with en := true, q := o.q, flag := o.flag, next := firstBoundary o.start o.q s.mtc, catchUp := none, newSet := none }

/-- The poster's list after TIMER.BEAT: only a beat whose posting has begun outlives EN = 0. -/
def posterSet (s : State) (o : BeatOp) : List Nat :=
  if o.en = 0 ∧ s.bull.poster.head? ≠ some o.gen then s.bull.poster.filter (· != o.gen) else s.bull.poster

theorem beatChecks_ok {o : BeatOp} (ho : BeatLegal o) : firstErr (beatChecks o) = none := by
  obtain ⟨hgen, hen, hq, hq', hflag, hstart⟩ := ho
  unfold beatChecks
  rw [chkRange_ok (Nat.zero_le _) (by omega), chkRange_ok (Nat.zero_le _) hen, chkZero_ok (by omega), chkRange_ok hq hq',
    chkRange_ok (Nat.zero_le _) hflag, chkRange_ok (Nat.zero_le _) (show o.start ≤ W32 - 1 by show o.start ≤ 4294967295; omega)]
  rfl

theorem setBeat_is (o : BeatOp) (s : State) :
    setBeat o s = { s with bull := { s.bull with beats := mapInsert o.gen (beatSet s o) s.bull.beats, poster := posterSet s o } } := by
  unfold setBeat beatSet posterSet
  by_cases hen : o.en = 0
  · by_cases hp : s.bull.poster.head? = some o.gen
    · simp only [hen, hp, beq_self_eq_true, if_true, ne_eq, not_true, and_false, if_false]; rfl
    · simp only [hen, hp, beq_eq_false_iff_ne.mpr hp, if_true, Bool.false_eq_true, if_false, ne_eq, not_false_eq_true, and_self]; rfl
  · simp only [hen, if_false, false_and]
    split <;> rfl

theorem timerBeat_sets {o : BeatOp} (he : s.flag fBullCtlEn = true) (ho : BeatLegal o) (hr : kciReady 0x0603 h none s = true) :
    ∃ t, exec (.timerBeat h o) s = .next t ∧ Done 0x0603 h 0 [] [] [] s t ∧ Kept [.regs, .hif, .out, .bull] s t ∧
      t.bull = { s.bull with beats := mapInsert o.gen (beatSet s o) s.bull.beats, poster := posterSet s o } := by
  obtain ⟨t, e, d, k, ku⟩ := succeeds (i := .timerBeat h o) (u := setBeat o (started 0x0603 h s)) (ps := [.bull]) rfl hr (beatChecks_ok ho) (by decide)
    (by rw [started_flag, he]; rfl)
    (by rw [setBeat_is]; intro p hp; cases p <;> first | rfl | simp at hp) (by decide)
  refine ⟨t, e, d, k, (ku .bull (by decide)).trans ?_⟩
  obtain ⟨q, hq⟩ := started_is 0x0603 h s
  rw [setBeat_is, hq]
  rfl

end

/-- Settles O24, one lemma per command and outcome: the completion changes nothing of the Bullpen that the effect leaves. -/
theorem timerCommands : Obligations.TimerCommands := by
  intro s h he
  refine ⟨fun o ho hr d hd hu => ⟨fun hl => ?_, timerArm_noSpace he ho hr hd hu⟩, fun i x hi hr hx => timerCancel_cancels he hi hr hx,
    fun o ho hr => ?_⟩
  · obtain ⟨t, i, e, hdone, k, hi, hn, hb⟩ := timerArm_arms he ho hr hd hu hl
    exact ⟨t, i, _, e, hdone, k, hi, hn, hb, rfl⟩
  · obtain ⟨t, e, d, k, hb⟩ := timerBeat_sets he ho hr
    refine ⟨t, beatSet s o, e, d, k, ?_, fun g hg => ?_, ?_, rfl⟩
    · unfold State.gen; rw [hb]; exact mapGet_insert_self _ _ _ _
    · unfold State.gen; rw [hb]; exact mapGet_insert_other hg _ _ _
    · rw [hb]; rfl

end Sys2Proof.Machine
end

section
/-!
PROOFS. Node lifetime: what NODE.LOAD, READ, UNLOAD, BEAT and EVICT do to one descriptor, its group and its residence (R130, R131, R160, R164, R189).
-/

namespace Sys2Proof.Machine

section
variable {h : KciHdr} {s u t : State} {n : Nat} {d : NodeD}

theorem nodeNumber_ok (hn : n < 262144) : firstErr [chkNode n] = none := by rw [chkNode_ok hn]; rfl

/-- A command that completes, with the registers of its effect: of those, the completion changes the head of the ring and the interrupt alone. -/
theorem completes_shown {i : Instr} {op : Nat} {key : Option (Nat × Nat)} {operands : State → List Check} {f : State → KciRes} {st : Nat} {r : List Nat}
    {ps : List Part} {as : List Nat} (he : exec i s = .next (kci op h key operands f s)) (hr : kciReady op h key s = true)
    (hc : firstErr (operands (started op h s)) = none) (hf : f (started op h s) = .done st r u) (m : Mild ps as (started op h s) u) (hop : op ≠ 0x0C01)
    (ha : fHifCqHeadIndex.addr ∉ as ∧ fHifIntStat.addr ∉ as ∧ fHifCqSizeEntries.addr ∉ as) :
    ∃ t, exec i s = .next t ∧ Done op h st r [] as s t ∧ Kept (.regs :: .hif :: .out :: ps) s t ∧ RegsKept [fHifCqHeadIndex.addr, fHifIntStat.addr] u t := by
  have e : kci op h key operands f s = cqWrite h.tag op st r u := by
    rw [kci_run hr hc, hf]
    exact if_neg (by rw [(m.quiet hop).waits, kciReady_key hr]; simp)
  obtain ⟨hdone, k, -⟩ := kci_mild hr hc hf m hop ha
  exact ⟨_, he, hdone, k, e ▸ (cqWrite_answered ..).regs⟩

/-! ## NODE.LOAD and NODE.READ (R131, R164) -/

/-- The descriptor that NODE.LOAD leaves, as the obligation writes it. -/
theorem loadedNode_is (o : NodeOp) : loadedNode o =
    { set := { mask := o.mask, any := decide (o.mode = 1), cls := o.cls, home := o.home, nosteal := decide (o.nosteal = 1), fpol := o.fpol
               alt := o.alt, budget := o.budget, prog := o.prog }
      ctxClass := o.ctx % 4, ctxBase := o.ctx / 16 % 2 ^ 22, account := o.account } := rfl

theorem nodeLoad_loads {o : NodeOp} (ho : NodeLegal o) (hr : kciReady 0x0201 h (keyNode o.node) s = true) (he : s.flag fBullCtlEn = true)
    (hn : s.node? o.node = none) :
    ∃ t, exec (.nodeLoad h o) s = .next t ∧ Done 0x0201 h 0 [] [] [] s t ∧ Kept [.regs, .hif, .out, .bull] s t ∧ OnlyNode o.node (loadedNode o) s t := by
  obtain ⟨t, e, hd, k, ku⟩ := succeeds (i := .nodeLoad h o) rfl hr (nodeChecks_ok ho) (by decide)
    (by rw [started_flag, he, started_node?, hn]; rfl) (setNode_kept (n := o.node) (d := loadedNode o)) (by decide)
  exact ⟨t, e, hd, k, onlyNode_started (onlyNode_of (.inl rfl) ku)⟩

theorem nodeRead_reads (hn : n < 262144) (hr : kciReady 0x0207 h (keyNode n) s = true) (he : s.flag fBullCtlEn = true) (hd : s.node? n = some d) :
    ∃ t, exec (.nodeRead h n) s = .next t ∧ Done 0x0207 h 0 [64] [.result h.raddr (descWords d)] [] s t ∧ Kept [.regs, .hif, .out] s t := by
  obtain ⟨t, e, hdone, k, -⟩ := records (i := .nodeRead h n) rfl _ (descWords d) [] [] hr (nodeNumber_ok hn)
    (by rw [started_flag, he]; unfold nodeWords; rw [started_node?, hd]; rfl) (Mild.refl _ _ _) (by decide) (by decide)
  exact ⟨t, e, hdone, k⟩

/-! ## A post to an EMPTY node (R134) -/

theorem voidPost_mild (s : State) : Mild [] [fBullPostVoidCount.addr, fBullIntStatPostVoid.addr] s (voidPost s) :=
  ((bump_mild _ _ s).mono (by simp) (by simp)).trans ((raiseFld_mild _ _ _).mono (by simp) (by simp))

theorem voidPost_counts (s : State) : (voidPost s).fld fBullPostVoidCount = (s.fld fBullPostVoidCount + 1) % 2 ^ 32 := by
  have other : (voidPost s).reg fBullPostVoidCount.addr = (s.bump fBullPostVoidCount 1).reg fBullPostVoidCount.addr :=
    raiseFld_reg _ fBullIntStatPostVoid _ (by decide)
  exact (congrArg (fun w => bits w 0 32) other).trans (bump_fld_self fBullPostVoidCount (by decide) 1 s)

theorem postChecks_ok {flags : Nat} (hn : n < 262144) (h1 : 1 ≤ flags) (h2 : flags ≤ 0x7FFF) :
    firstErr [chkNode n, chkZero flags, chkRange flags 1 0x7FFF] = none := by
  rw [chkNode_ok hn, chkZero_ok (by omega), chkRange_ok h1 h2]; rfl

theorem nodePost_empty {flags : Nat} (hn : n < 262144) (h1 : 1 ≤ flags) (h2 : flags ≤ 0x7FFF) (hr : kciReady 0x0205 h (keyNode n) s = true)
    (he : s.flag fBullCtlEn = true) (hd : s.node? n = none) :
    ∃ t, exec (.nodePost h n flags) s = .next t ∧ Done 0x0205 h 4 [] [] [fBullPostVoidCount.addr, fBullIntStatPostVoid.addr] s t ∧
      Kept [.regs, .hif, .out] s t ∧ t.fld fBullPostVoidCount = (s.fld fBullPostVoidCount + 1) % 2 ^ 32 := by
  obtain ⟨t, e, hdone, k, shown⟩ := completes_shown (i := .nodePost h n flags) (st := eState) (r := []) rfl hr (postChecks_ok hn h1 h2)
    (by rw [started_flag, he, started_node?, hd]; rfl) (voidPost_mild (started 0x0205 h s)) (by decide) (by decide)
  refine ⟨t, e, hdone, k, ?_⟩
  have counted := congrArg (fun w => bits w 0 32) (shown fBullPostVoidCount.addr (by decide))
  exact (counted.trans (voidPost_counts _)).trans (by rw [started_fld])

/-! ## NODE.UNLOAD (R131, R189, R301) -/

theorem eraseNode_node? (n j : Nat) (s : State) : (eraseNode n s).node? j = if j = n then none else s.node? j := by
  have hb : (invalidate n s).bull = s.bull := (invalidate_mild n s).kept .bull (by decide)
  show mapFind? j (mapErase n (invalidate n s).bull.nodes) = _
  rw [hb]
  exact mapFind?_erase _ _ _

theorem eraseNode_resOf (n : Nat) (s : State) : (eraseNode n s).resOf n = none := by
  have h := invalidate_resOf n n s
  rwa [if_pos rfl] at h

theorem dropStage_kept (n : Nat) (s : State) : Kept [.cfg] s (dropStage n s) := by
  intro p hp; cases p <;> first | rfl | simp at hp

theorem nodeInUse_no (hb : d.beatgen = none) (ht : ∀ x ∈ s.bull.timers, x.2.target ≠ n) : nodeInUse s n d = false := by
  unfold nodeInUse
  rw [hb, Option.isSome_none, Bool.false_or, List.any_eq_false]
  exact fun x hx => by simpa using ht x hx

section
variable (hd : s.node? n = some d) (hu : d.unloading = false) (hn : n < 262144)
include hd hu hn

section
variable (hr : kciReady 0x0202 h (keyNode n) s = true) (he : s.flag fBullCtlEn = true) (hs : d.st = .disarmed) (hb : d.beatgen = none)
  (ht : ∀ x ∈ s.bull.timers, x.2.target ≠ n)
include hr he hs hb ht

theorem nodeUnload_unloads (hw : d.writeBack = none) :
    ∃ t, exec (.nodeUnload h n) s = .next t ∧ Done 0x0202 h 0 [] [] [fGhPfWasteCount.addr] s t ∧
      Kept [.regs, .hif, .out, .bull, .gh, .graphs, .cfg, .kml] s t ∧ t.node? n = none ∧ (∀ j, j ≠ n → t.node? j = s.node? j) ∧
      t.resOf n = none ∧ mapFind? n t.cfg = none := by
  obtain ⟨t, e, hdone, k, ku⟩ := completes (i := .nodeUnload h n) rfl (eraseNode n (dropStage n (started 0x0202 h s))) 0 [] [.cfg, .gh, .graphs, .bull, .kml]
    [fGhPfWasteCount.addr] hr (nodeNumber_ok hn)
    (by
      rw [hostNode_started hd hu]
      dsimp only
      rw [started_flag, he, started_same (nodeInUse · n d) 0x0202 h s (fun _ => rfl), nodeInUse_no hb ht, hs, unloadNode, hw]; rfl)
    (((dropStage_kept n _).mild (by decide)).mono (by simp) (by simp) |>.trans ((eraseNode_mild n _).mono (by simp) (by simp))) (by decide) (by decide)
  have hnode : ∀ j, t.node? j = if j = n then none else s.node? j := fun j =>
    (node?_congr (ku .bull (by decide)) j).trans ((eraseNode_node? ..).trans (by rw [← started_node? 0x0202 h s j]; rfl))
  refine ⟨t, e, hdone, k.mono (by simp), by rw [hnode, if_pos rfl], fun j hj => by rw [hnode, if_neg hj],
    (resOf_congr (ku .gh (by decide)) n).trans (eraseNode_resOf ..), ?_⟩
  have hcfg : t.cfg = mapErase n (started 0x0202 h s).cfg :=
    (ku .cfg (by decide)).trans ((eraseNode_mild n (dropStage n (started 0x0202 h s))).kept .cfg (by decide))
  rw [hcfg, mapFind?_erase_self]

theorem nodeUnload_waits (hw : d.writeBack ≠ none) :
    ∃ t, exec (.nodeUnload h n) s = .next t ∧ Waits 0x0202 h (keyNode n) (.evict n) [] s t ∧ Kept [.hif, .bull, .cfg] s t ∧
      OnlyNode n { d with evicting := true, unloading := true } s t := by
  obtain ⟨t, e, w, k, ku⟩ := waits_kept (i := .nodeUnload h n) (on := .evict n) (ps := [.bull, .cfg])
    (u := (dropStage n (started 0x0202 h s)).setNode n { d with evicting := true, unloading := true }) rfl hr (nodeNumber_ok hn) (by decide)
    (by
      rw [hostNode_started hd hu]
      dsimp only
      rw [started_flag, he, started_same (nodeInUse · n d) 0x0202 h s (fun _ => rfl), nodeInUse_no hb ht, if_neg (by simp [hs]),
        if_neg (by simp)]
      unfold unloadNode
      exact if_pos (Option.isSome_iff_ne_none.mpr hw))
    (((dropStage_kept n _).mono (by simp)).trans (setNode_kept.mono (by simp))) (by decide)
  exact ⟨t, e, w, k, onlyNode_started (onlyNode_of_bull (ku .bull (by decide)))⟩

end

/-! ## NODE.BEAT (R150, R160) -/

/-- A node joins or leaves a group: its descriptor and the group's members change. -/
def regrouped (n g : Nat) (d : NodeD) (b : Option Nat) (f : List Nat → List Nat) (s : State) : State :=
  (s.setNode n { d with beatgen := b }).updGen g (fun x => { x with members := f x.members })

omit hd hu hn in
theorem regrouped_kept (n g : Nat) (d : NodeD) (b : Option Nat) (f : List Nat → List Nat) (s : State) : Kept [.bull] s (regrouped n g d b f s) := by
  intro p hp; cases p <;> first | rfl | simp at hp

omit hd hu hn in
theorem regrouped_shown {op g : Nat} {b : Option Nat} {f : List Nat → List Nat} (hb : t.bull = (regrouped n g d b f (started op h s)).bull) :
    t.node? n = some { d with beatgen := b } ∧ (t.gen g).members = f (s.gen g).members := by
  refine ⟨(node?_congr hb n).trans (mapFind?_insert_self _ _ _), ?_⟩
  have hg : t.gen g = (regrouped n g d b f (started op h s)).gen g := congrArg (fun x : BullSt => mapGet ({} : BeatGen) g x.beats) hb
  rw [hg, regrouped, State.gen_updGen, if_pos rfl]
  show f ((started op h s).gen g).members = _
  rw [started_same (fun s => (s.gen g).members) op h s (fun _ => rfl)]

omit hd hu in
theorem nodeBeatChecks_ok {g : Nat} (hg : g < 8 ∨ g = 15) : firstErr [chkNode n, chk (decide (g < 8) || g == 15) eRange] = none := by
  rw [chkNode_ok hn, chk_ok (by simpa using hg)]; rfl

theorem nodeBeat_joins {g : Nat} (hg : g < 8) (hr : kciReady 0x0206 h (keyNode n) s = true) (he : s.flag fBullCtlEn = true) (hb : d.beatgen = none)
    (hl : (s.gen g).members.length < 65536) :
    ∃ t, exec (.nodeBeat h n g) s = .next t ∧ Done 0x0206 h 0 [] [] [] s t ∧ Kept [.regs, .hif, .out, .bull] s t ∧
      t.node? n = some { d with beatgen := some g } ∧ (t.gen g).members = (s.gen g).members ++ [n] := by
  obtain ⟨t, e, hdone, k, ku⟩ := succeeds (i := .nodeBeat h n g) (u := regrouped n g d (some g) (· ++ [n]) (started 0x0206 h s)) (ps := [.bull]) rfl hr
    (nodeBeatChecks_ok hn (.inl hg)) (by decide)
    (by
      rw [hostNode_started hd hu]
      dsimp only
      rw [started_flag, he, joinBeat, hb]
      dsimp only
      rw [if_neg (by simp), if_neg (by omega), started_same (fun s => (s.gen g).members.length) 0x0206 h s (fun _ => rfl), if_neg (by omega)]
      rfl)
    (regrouped_kept _ _ _ _ _ _) (by decide)
  exact ⟨t, e, hdone, k, regrouped_shown (ku .bull (by decide))⟩

theorem nodeBeat_leaves {g : Nat} (hr : kciReady 0x0206 h (keyNode n) s = true) (he : s.flag fBullCtlEn = true) (hb : d.beatgen = some g) :
    ∃ t, exec (.nodeBeat h n 15) s = .next t ∧ Done 0x0206 h 0 [] [] [] s t ∧ Kept [.regs, .hif, .out, .bull] s t ∧
      t.node? n = some { d with beatgen := none } ∧ (t.gen g).members = (s.gen g).members.filter (· != n) := by
  obtain ⟨t, e, hdone, k, ku⟩ := succeeds (i := .nodeBeat h n 15) (u := regrouped n g d none (List.filter (· != n)) (started 0x0206 h s)) (ps := [.bull]) rfl hr
    (nodeBeatChecks_ok hn (.inr rfl)) (by decide)
    (by
      rw [hostNode_started hd hu]
      dsimp only
      rw [started_flag, he, joinBeat, hb]
      rfl)
    (regrouped_kept _ _ _ _ _ _) (by decide)
  exact ⟨t, e, hdone, k, regrouped_shown (ku .bull (by decide))⟩

/-! ## NODE.EVICT (R189) -/

theorem nodeEvict_evicts (hr : kciReady 0x0208 h (keyNode n) s = true) (hs : d.st = .disarmed) (hw : d.writeBack = none) :
    ∃ t, exec (.nodeEvict h n) s = .next t ∧ Done 0x0208 h 0 [] [] [fGhPfWasteCount.addr] s t ∧ Kept [.regs, .hif, .out, .gh] s t ∧
      t.resOf n = none ∧ mapFind? n t.gh.pageIns = none ∧ ∀ j, j ≠ n → t.resOf j = s.resOf j := by
  obtain ⟨t, e, hdone, k, ku⟩ := completes (i := .nodeEvict h n) rfl
    ((invalidate n (started 0x0208 h s)).setGh (fun g => { g with pageIns := mapErase n g.pageIns })) 0 [] [.gh] [fGhPfWasteCount.addr] hr (nodeNumber_ok hn)
    (by rw [hostNode_started hd hu]; dsimp only; rw [hs, hw]; rfl)
    ((invalidate_mild n _).trans ((setGh_mild _ _).mono (by simp) (by simp))) (by decide) (by decide)
  have hres : ∀ j, t.resOf j = if j = n then none else s.resOf j := fun j =>
    (resOf_congr (ku .gh (by decide)) j).trans ((invalidate_resOf n j (started 0x0208 h s)).trans
      (by rw [started_same (State.resOf · j) 0x0208 h s (fun _ => rfl)]))
  refine ⟨t, e, hdone, k, by rw [hres, if_pos rfl], ?_, fun j hj => by rw [hres, if_neg hj]⟩
  rw [ku .gh (by decide)]
  exact mapFind?_erase_self _ _

theorem nodeEvict_waits (hr : kciReady 0x0208 h (keyNode n) s = true) (hs : d.st = .disarmed) (hw : d.writeBack ≠ none) :
    ∃ t, exec (.nodeEvict h n) s = .next t ∧ Waits 0x0208 h (keyNode n) (.evict n) [] s t ∧ Kept [.hif, .bull] s t ∧
      OnlyNode n { d with evicting := true } s t := by
  obtain ⟨t, e, w, k, ku⟩ := waits_kept (i := .nodeEvict h n) (on := .evict n) (u := (started 0x0208 h s).setNode n { d with evicting := true }) rfl hr
    (nodeNumber_ok hn) (by decide)
    (by
      rw [hostNode_started hd hu]
      dsimp only
      rw [hs, if_neg (by simp), if_pos]
      exact Option.isSome_iff_ne_none.mpr hw)
    setNode_kept (by decide)
  exact ⟨t, e, w, k, onlyNode_started (onlyNode_of_bull (ku .bull (by decide)))⟩

end

end

/-- Settles O21, one lemma per command and outcome. -/
theorem nodeLifetime : Obligations.NodeLifetime := by
  intro s h n hn
  refine ⟨?_, fun hr he d hd => nodeRead_reads hn hr he hd, fun flags h1 h2 hr he hd => nodePost_empty hn h1 h2 hr he hd, fun d hd hu => ⟨?_, ?_, ?_⟩⟩
  · rintro o rfl ho hr he hd
    obtain ⟨t, e, hdone, k, only⟩ := nodeLoad_loads ho hr he hd
    exact ⟨t, _, e, hdone, k, only, loadedNode_is o⟩
  · refine fun hr he hs hb ht => ⟨nodeUnload_unloads hd hu hn hr he hs hb ht, fun hw => ?_⟩
    obtain ⟨t, e, w, k, only⟩ := nodeUnload_waits hd hu hn hr he hs hb ht hw
    exact ⟨t, _, e, w, k, only, rfl⟩
  · exact fun g hg hr he => ⟨nodeBeat_joins hd hu hn hg hr he, nodeBeat_leaves hd hu hn hr he⟩
  · exact fun hr hs => ⟨nodeEvict_evicts hd hu hn hr hs, nodeEvict_waits hd hu hn hr hs⟩

end Sys2Proof.Machine
end

section
/-!
PROOFS. Node signals: what an arm, a cancel and a post do to a loaded node, and NODE.ARM, CANCEL and POST (R134, R135, R138, R139, R160).
-/

namespace Sys2Proof.Machine

section
variable {s t u : State} {n : Nat} {d : NodeD}

/-! ## Entering and leaving a ready store (R139) -/

theorem enterReady_readied (hd : s.node? n = some d) (head byPost : Bool) : (enterReady n head byPost s).bull = readied n d head byPost s :=
  enterReady_bull hd head byPost

theorem leaveReady_is (hd : s.node? n = some d) : leaveReady n s =
    (s.setReadyQ d.set.home d.set.cls ((s.readyQ d.set.home d.set.cls).filter (fun e => e.node != n))).setNode n { d with hold := none, expired := false } := by
  unfold leaveReady
  rw [hd]

theorem OnlyNode.congr (h : OnlyNode n d s u) (hb : t.bull = u.bull) : OnlyNode n d s t := by
  obtain ⟨rest, own, others⟩ := h
  exact ⟨by rw [hb]; exact rest, (node?_congr hb n).trans own, fun j hj => (node?_congr hb j).trans (others j hj)⟩

theorem OnlyNode.refl (hd : s.node? n = some d) : OnlyNode n d s s := ⟨rfl, hd, fun _ _ => rfl⟩

theorem setNode_onlyNode (e : NodeD) : OnlyNode n e s (s.setNode n e) := onlyNode_of_bull rfl

theorem setNode_bull_congr (hb : t.bull = s.bull) (n : Nat) (d : NodeD) : (t.setNode n d).bull = (s.setNode n d).bull := by
  unfold State.setNode; rw [hb]

/-! ## Arms (R134) -/

theorem kmlArmed_kept (n : Nat) (s : State) : Kept [.kml] s (kmlArmed n s) := by
  unfold kmlArmed
  split
  · intro p hp; cases p <;> first | rfl | simp at hp
  · exact Kept.refl _ s

theorem readied_kmlArmed (d e : NodeD) (head byPost : Bool) :
    readied n d head byPost ((kmlArmed n s).setNode n e) = readied n d head byPost (s.setNode n e) := by
  unfold kmlArmed
  split <;> rfl

theorem armNode_arms (hd : s.node? n = some d) (hs : ¬ (d.st = .disarmed ∧ satisfied d = true)) :
    ∃ u, armNode n s = some u ∧ Kept [.bull, .kml] s u ∧ OnlyNode n (armedBy d) s u := by
  have changed : ∀ e, Kept [.bull, .kml] s (s.setNode n e) := fun e => setNode_kept.mono (by simp)
  unfold armNode armedBy
  rw [hd]
  dsimp only
  cases hst : d.st with
  | disarmed =>
    have unsat : satisfied d = false := by simpa [hst] using hs
    refine ⟨_, if_neg (by rw [unsat]; simp), ((kmlArmed_kept n s).mono (by simp)).trans (setNode_kept.mono (by simp)), ?_⟩
    exact onlyNode_of_bull (setNode_bull_congr ((kmlArmed_kept n s) .bull (by decide)) n _)
  | cancelPending => exact ⟨_, rfl, changed _, setNode_onlyNode _⟩
  | aborting => exact ⟨_, rfl, changed _, setNode_onlyNode _⟩
  | armed => exact ⟨s, rfl, Kept.refl _ s, OnlyNode.refl hd⟩
  | ready => exact ⟨s, rfl, Kept.refl _ s, OnlyNode.refl hd⟩
  | running => exact ⟨s, rfl, Kept.refl _ s, OnlyNode.refl hd⟩

/-- An arm of a satisfied node takes it to its ready store, where there is room. -/
theorem armNode_satisfied (hd : s.node? n = some d) (hst : d.st = .disarmed) (hs : satisfied d = true) :
    armNode n s = if storeFull s d.set.home then none
      else some (enterReady n false false ((kmlArmed n s).setNode n { d with st := .armed })) := by
  have full : storeFull (kmlArmed n s) d.set.home = storeFull s d.set.home := by unfold kmlArmed; split <;> rfl
  unfold armNode
  rw [hd]
  dsimp only
  rw [hst]
  dsimp only
  rw [hs, if_pos rfl, full]

/-! ## Posts (R134, R135, R159) -/

theorem postNode_flags {flags : Nat} (hd : s.node? n = some d) (hr : readies flags d = false) :
    postNode n flags s = some (s.setNode n (postedBy flags d)) := by
  unfold postNode
  rw [hd]
  dsimp only
  split
  · next hst => rw [postedBy, if_pos hst]
  · next hst =>
    have stays : (satisfied { d with flags := d.flags ||| flags } && !satisfied d) = false := by
      rw [Bool.and_comm]; simpa only [readies, hst, decide_true, Bool.true_and] using hr
    rw [stays, if_neg (by simp), postedBy, if_neg (by simp [hst])]
  · next ha _ => rw [postedBy, if_neg ha]

theorem readies_armed {flags : Nat} (hr : readies flags d = true) : d.st = .armed := by
  unfold readies at hr
  simp only [Bool.and_eq_true, decide_eq_true_eq] at hr
  exact hr.1.1

/-- A post that satisfies an ARMED node takes it to its ready store, where there is room. -/
theorem postNode_readies {flags : Nat} (hd : s.node? n = some d) (hr : readies flags d = true) :
    postNode n flags s = if storeFull s d.set.home then none else some (enterReady n false true (s.setNode n (postedBy flags d))) := by
  have hst := readies_armed hr
  have becomes : (satisfied { d with flags := d.flags ||| flags } && !satisfied d) = true := by
    rw [Bool.and_comm]; simpa only [readies, hst, decide_true, Bool.true_and] using hr
  have posted : postedBy flags d = { d with flags := d.flags ||| flags } := if_neg (by rw [hst]; simp)
  rw [posted]
  unfold postNode
  rw [hd]
  dsimp only
  split
  · next h => rw [hst] at h; cases h
  · rw [becomes, if_pos rfl]
  · next h => exact absurd hst h

/-! ## Cancels (R134, R138) -/

/-- The state in which a cancel of a READY node works, once the free value of a collision is drawn. -/
def collisionDrawn (n : Nat) (d : NodeD) (s : State) : State :=
  let (f, v) := if mayCollide s n d then s.draw else (0, s)
  v.bump fBullStatRcCollide (f % 2)

theorem collisionDrawn_mild (n : Nat) (d : NodeD) (s : State) : Mild [.free] [fBullStatRcCollide.addr] s (collisionDrawn n d s) := by
  unfold collisionDrawn
  split_ifs
  · exact ((draw_mild s).mono (by simp) (by simp)).trans ((bump_mild _ _ _).mono (by simp) (by simp))
  · exact (bump_mild _ _ s).mono (by simp) (by simp)

/-- Bullpen once a READY node has been taken back. -/
def takenBack (n : Nat) (d : NodeD) (s : State) : State :=
  ((s.setReadyQ d.set.home d.set.cls ((s.readyQ d.set.home d.set.cls).filter (fun e => e.node != n))).setNode n
    { d with hold := none, expired := false }).setNode n { d with hold := none, expired := false, st := .disarmed, rerun := false, barred := none }

theorem takenBack_mild (n : Nat) (d : NodeD) (s : State) : Mild [.bull] [] s (takenBack n d s) :=
  ((setReadyQ_mild _ _ _ s).trans (setNode_mild _ _ _)).trans (setNode_mild _ _ _)

theorem takenBack_congr (hb : t.bull = s.bull) : (takenBack n d t).bull = (takenBack n d s).bull := by
  unfold takenBack State.setNode State.setReadyQ State.readyQ
  rw [hb]

theorem takenBack_node? (j : Nat) : (takenBack n d s).node? j =
    if j = n then some { d with st := .disarmed, rerun := false, barred := none, hold := none, expired := false } else s.node? j := by
  unfold takenBack
  rw [node?_set]
  split
  · rfl
  · next hj => rw [node?_set, if_neg hj]; rfl

theorem takenBack_readyQ : (takenBack n d s).readyQ d.set.home d.set.cls = (s.readyQ d.set.home d.set.cls).filter (fun e => e.node != n) := by
  show (s.setReadyQ _ _ _).readyQ _ _ = _
  rw [readyQ_setReadyQ, if_pos rfl]

theorem cancelNode_ready (hd : s.node? n = some d) (hst : d.st = .ready) (hs : d.staged = none) (hg : noUnload s = true) :
    cancelNode n s = tryIdle d.set.home (takenBack n d (collisionDrawn n d s)) := by
  have m := collisionDrawn_mild n d s
  have hd' : (collisionDrawn n d s).node? n = some d := (node?_congr (m.kept .bull (by decide)) n).trans hd
  have left := leaveReady_is hd'
  have dis : disarm n (leaveReady n (collisionDrawn n d s)) = takenBack n d (collisionDrawn n d s) := by
    rw [left]
    exact disarm_plain (d := { d with hold := none, expired := false }) (by rw [node?_set, if_pos rfl]) hs
      ((noUnload_congr (m.kept .graphs (by decide))).trans hg)
  rw [← dis]
  unfold cancelNode collisionDrawn
  rw [hd]
  dsimp only
  rw [hst]

theorem cancelNode_armed (hd : s.node? n = some d) (hst : d.st = .armed) (hs : d.staged = none) (hg : noUnload s = true) :
    cancelNode n s = s.setNode n { d with st := .disarmed, rerun := false, barred := none } := by
  rw [← disarm_plain hd hs hg]
  unfold cancelNode
  rw [hd]
  dsimp only
  rw [hst]

end

section
variable {h : KciHdr} {s : State} {n : Nat} {d : NodeD} (hn : n < 262144) (he : s.flag fBullCtlEn = true) (hd : s.node? n = some d)
  (hu : d.unloading = false)
include hn he hd hu

/-! ## NODE.ARM -/

section
variable (hr : kciReady 0x0203 h (keyNode n) s = true)
include hr

theorem nodeArm_arms (hs : ¬ (d.st = .disarmed ∧ satisfied d = true)) :
    ∃ t, exec (.nodeArm h n) s = .next t ∧ Done 0x0203 h 0 [] [] [] s t ∧ Kept [.regs, .hif, .out, .bull, .kml] s t ∧ OnlyNode n (armedBy d) s t := by
  obtain ⟨u, hu', ku, only⟩ := armNode_arms ((started_node? 0x0203 h s n).trans hd) hs
  obtain ⟨t, e, hdone, k, kt⟩ := succeeds (i := .nodeArm h n) rfl hr (nodeNumber_ok hn) (by decide)
    (by rw [started_flag, he, hostNode_started hd hu, hu']; rfl) ku (by decide)
  exact ⟨t, e, hdone, k, onlyNode_started (only.congr (kt .bull (by decide)))⟩

variable (hst : d.st = .disarmed) (hs : satisfied d = true)
include hst hs

theorem nodeArm_readies (hf : storeFull s d.set.home = false) :
    ∃ t, exec (.nodeArm h n) s = .next t ∧ Done 0x0203 h 0 [] [] contextRegs s t ∧ Kept [.regs, .hif, .out, .bull, .gh, .clu, .kml] s t ∧
      t.bull = readied n { d with st := .armed } false false (s.setNode n { d with st := .armed }) := by
  have ha := armNode_satisfied ((started_node? 0x0203 h s n).trans hd) hst hs
  rw [storeFull_started, hf, if_neg (by simp)] at ha
  obtain ⟨t, e, hdone, k, kt⟩ := completes (i := .nodeArm h n) rfl _ 0 [] _ _ hr (nodeNumber_ok hn)
    (by rw [started_flag, he, hostNode_started hd hu, ha]; rfl) (armNode_mild ha) (by decide) (by decide)
  refine ⟨t, e, hdone, k, (kt .bull (by decide)).trans ?_⟩
  rw [enterReady_readied (d := { d with st := .armed }) (by rw [node?_set, if_pos rfl]), readied_kmlArmed, readied_started]

theorem nodeArm_full (hf : storeFull s d.set.home = true) : FailsWith (.nodeArm h n) 0x0203 h s 3 := by
  have ha := armNode_satisfied ((started_node? 0x0203 h s n).trans hd) hst hs
  rw [storeFull_started, hf, if_pos rfl] at ha
  exact fails rfl hr (nodeNumber_ok hn) (by decide) (by rw [started_flag, he, hostNode_started hd hu, ha]; rfl)

end

/-! ## NODE.CANCEL -/

section
variable (hr : kciReady 0x0204 h (keyNode n) s = true)
include hr

/-- A cancel whose effect is one descriptor. -/
theorem nodeCancel_sets {e : NodeD} (hc : cancelNode n (started 0x0204 h s) = (started 0x0204 h s).setNode n e) :
    ∃ t, exec (.nodeCancel h n) s = .next t ∧ Done 0x0204 h 0 [] [] [] s t ∧ Kept [.regs, .hif, .out, .bull] s t ∧ OnlyNode n e s t := by
  obtain ⟨t, ht, hdone, k, kt⟩ := succeeds (i := .nodeCancel h n) rfl hr (nodeNumber_ok hn) (by decide)
    (by rw [started_flag, he, hostNode_started hd hu, hc]; rfl) setNode_kept (by decide)
  exact ⟨t, ht, hdone, k, onlyNode_started (onlyNode_of_bull (kt .bull (by decide)))⟩

theorem nodeCancel_running (hst : d.st = .running) :
    ∃ t, exec (.nodeCancel h n) s = .next t ∧ Done 0x0204 h 0 [] [] [] s t ∧ Kept [.regs, .hif, .out, .bull] s t ∧
      OnlyNode n { d with st := .cancelPending } s t :=
  nodeCancel_sets hn he hd hu hr (by unfold cancelNode; rw [started_node?, hd]; dsimp only; rw [hst])

theorem nodeCancel_aborting (hst : d.st = .aborting) :
    ∃ t, exec (.nodeCancel h n) s = .next t ∧ Done 0x0204 h 0 [] [] [] s t ∧ Kept [.regs, .hif, .out, .bull] s t ∧
      OnlyNode n { d with recCancel := true } s t :=
  nodeCancel_sets hn he hd hu hr (by unfold cancelNode; rw [started_node?, hd]; dsimp only; rw [hst])

theorem nodeCancel_same (hst : d.st = .disarmed ∨ d.st = .cancelPending) :
    ∃ t, exec (.nodeCancel h n) s = .next t ∧ Done 0x0204 h 0 [] [] [] s t ∧ Kept [.regs, .hif, .out] s t := by
  have hc : cancelNode n (started 0x0204 h s) = started 0x0204 h s := by
    unfold cancelNode
    rw [started_node?, hd]
    rcases hst with hst | hst <;> (dsimp only; rw [hst])
  obtain ⟨t, ht, hdone, k, -⟩ := succeeds (i := .nodeCancel h n) rfl hr (nodeNumber_ok hn) (by decide)
    (by rw [started_flag, he, hostNode_started hd hu, hc]; rfl) (Kept.refl [] _) (by decide)
  exact ⟨t, ht, hdone, k⟩

variable (hs : d.staged = none) (hg : noUnload s = true)
include hs hg

theorem nodeCancel_armed (hst : d.st = .armed) :
    ∃ t, exec (.nodeCancel h n) s = .next t ∧ Done 0x0204 h 0 [] [] [] s t ∧ Kept [.regs, .hif, .out, .bull] s t ∧
      OnlyNode n { d with st := .disarmed, rerun := false, barred := none } s t :=
  nodeCancel_sets hn he hd hu hr (cancelNode_armed ((started_node? ..).trans hd) hst hs ((noUnload_started ..).trans hg))

theorem nodeCancel_ready (hst : d.st = .ready) :
    ∃ t, exec (.nodeCancel h n) s = .next t ∧ Done 0x0204 h 0 [] [] [fBullStatRcCollide.addr] s t ∧
      Kept [.regs, .hif, .out, .bull, .free, .clu] s t ∧
      t.node? n = some { d with st := .disarmed, rerun := false, barred := none, hold := none, expired := false } ∧
      (∀ j, j ≠ n → t.node? j = s.node? j) ∧
      t.readyQ d.set.home d.set.cls = (s.readyQ d.set.home d.set.cls).filter (fun e => e.node != n) := by
  have hc := cancelNode_ready ((started_node? 0x0204 h s n).trans hd) hst hs ((noUnload_started ..).trans hg)
  have drawn := collisionDrawn_mild n d (started 0x0204 h s)
  have m : Mild [.bull, .free, .clu] [fBullStatRcCollide.addr] (started 0x0204 h s) (tryIdle d.set.home (takenBack n d (collisionDrawn n d (started 0x0204 h s)))) :=
    ((drawn.mono (by simp) (by simp)).trans ((takenBack_mild n d _).mono (by simp) (by simp))).trans ((tryIdle_mild _ _).mono (by simp) (by simp))
  obtain ⟨t, ht, hdone, k, kt⟩ := completes (i := .nodeCancel h n) rfl _ 0 [] _ _ hr (nodeNumber_ok hn)
    (by rw [started_flag, he, hostNode_started hd hu, hc]; rfl) m (by decide) (by decide)
  have hb : t.bull = (takenBack n d s).bull := by
    refine (kt .bull (by decide)).trans (((tryIdle_mild _ _).kept .bull (by decide)).trans (takenBack_congr ?_))
    exact (drawn.kept .bull (by decide)).trans (started_bull 0x0204 h s)
  have hq : t.readyQ d.set.home d.set.cls = (takenBack n d s).readyQ d.set.home d.set.cls := by unfold State.readyQ; rw [hb]
  refine ⟨t, ht, hdone, k, ?_, fun j hj => ?_, hq.trans takenBack_readyQ⟩
  · rw [node?_congr hb, takenBack_node?, if_pos rfl]
  · rw [node?_congr hb, takenBack_node?, if_neg hj]

end

/-! ## NODE.POST -/

section
variable {flags : Nat} (h1 : 1 ≤ flags) (h2 : flags ≤ 0x7FFF) (hr : kciReady 0x0205 h (keyNode n) s = true)
include h1 h2 hr

theorem nodePost_flags (hp : readies flags d = false) :
    ∃ t, exec (.nodePost h n flags) s = .next t ∧ Done 0x0205 h 0 [] [] [] s t ∧ Kept [.regs, .hif, .out, .bull] s t ∧
      OnlyNode n (postedBy flags d) s t := by
  have hd' := (started_node? 0x0205 h s n).trans hd
  obtain ⟨t, e, hdone, k, kt⟩ := succeeds (i := .nodePost h n flags) rfl hr (postChecks_ok hn h1 h2) (by decide)
    (by rw [started_flag, he, hd', hostNode_started hd hu, postNode_flags hd' hp]; rfl) setNode_kept (by decide)
  exact ⟨t, e, hdone, k, onlyNode_started (onlyNode_of_bull (kt .bull (by decide)))⟩

theorem nodePost_readies (hp : readies flags d = true) (hf : storeFull s d.set.home = false) :
    ∃ t, exec (.nodePost h n flags) s = .next t ∧ Done 0x0205 h 0 [] [] contextRegs s t ∧ Kept [.regs, .hif, .out, .bull, .gh, .clu] s t ∧
      t.bull = readied n (postedBy flags d) false true (s.setNode n (postedBy flags d)) := by
  have hd' := (started_node? 0x0205 h s n).trans hd
  have ha := postNode_readies hd' hp
  rw [storeFull_started, hf, if_neg (by simp)] at ha
  obtain ⟨t, e, hdone, k, kt⟩ := completes (i := .nodePost h n flags) rfl _ 0 [] [.bull, .gh, .clu] pagingRegs hr (postChecks_ok hn h1 h2)
    (by rw [started_flag, he, hd', hostNode_started hd hu, ha]; rfl)
    (((setNode_mild _ _ _).mono (by simp) (by simp)).trans (enterReady_mild n false true _)) (by decide) (by decide)
  refine ⟨t, e, hdone, k, (kt .bull (by decide)).trans ?_⟩
  rw [enterReady_readied (d := postedBy flags d) (by rw [node?_set, if_pos rfl]), readied_started]

theorem nodePost_full (hp : readies flags d = true) (hf : storeFull s d.set.home = true) : FailsWith (.nodePost h n flags) 0x0205 h s 3 := by
  have hd' := (started_node? 0x0205 h s n).trans hd
  have ha := postNode_readies hd' hp
  rw [storeFull_started, hf, if_pos rfl] at ha
  exact fails rfl hr (postChecks_ok hn h1 h2) (by decide) (by rw [started_flag, he, hd', hostNode_started hd hu, ha]; rfl)

end

end

/-- Settles O22, one lemma per command and outcome. -/
theorem nodeSignals : Obligations.NodeSignals := by
  intro s h n d hn he hd hu
  refine ⟨fun hr => ⟨nodeArm_arms hn he hd hu hr, nodeArm_readies hn he hd hu hr, nodeArm_full hn he hd hu hr⟩, fun hr => ?_,
    fun flags h1 h2 hr => ⟨nodePost_flags hn he hd hu h1 h2 hr, nodePost_readies hn he hd hu h1 h2 hr, nodePost_full hn he hd hu h1 h2 hr⟩⟩
  exact ⟨nodeCancel_running hn he hd hu hr, nodeCancel_aborting hn he hd hu hr, nodeCancel_same hn he hd hu hr,
    fun hg hs => ⟨nodeCancel_armed hn he hd hu hr hs hg, nodeCancel_ready hn he hd hu hr hs hg⟩⟩

end Sys2Proof.Machine
end

section
/-!
PROOFS. Run boundaries: GETW outside a run, and DONE where nothing is left to commit (R134, R145, R182, R214, R267).
-/

namespace Sys2Proof.Machine

section
variable {k : Nat} {s t x : State} {d : NodeD}

/-! ## The core at its home program (R214, R219) -/

/-- Which cores are spares turns on COUNT and on which cores are retired (R219). -/
theorem spareCores_congr {n : Nat} (hf : t.fld (fCluSparesCount n) = s.fld (fCluSparesCount n))
    (hm : ∀ k, (t.cor k).mode = .retired ↔ (s.cor k).mode = .retired) : spareCores t n = spareCores s n := by
  have hn : notRetired t n = notRetired s n := by
    unfold notRetired
    exact List.filter_congr fun k _ => by simp only [ne_eq, hm k]
  unfold spareCores sparesHeld
  rw [hn, hf]

/-- A core at a home program. -/
def resumedAt (pc : Nat) (c : Core) : Core :=
  { c with mode := .wait, blocked := false, pc := pc, loops := [], moves := [], stall := .none, run := {}, commit := [] }

theorem coreHome_working (hm : (s.cor k).mode ≠ .retired) (hs : (spareCores s (k / 16)).contains k = false) :
    coreHome k s = s.updCore k (resumedAt (homePc s k)) := by
  have same : spareCores (s.updCore k (resumedAt (homePc s k))) (k / 16) = spareCores s (k / 16) := by
    refine spareCores_congr rfl fun j => ?_
    by_cases hj : j = k
    · subst hj
      rw [State.cor_updCore_self]
      exact iff_of_false (by simp [resumedAt]) hm
    · rw [State.cor_updCore_other _ hj]
  unfold coreHome
  dsimp only
  rw [show (fun c : Core => { c with
    mode := .wait, blocked := false, pc := homePc s k, loops := [], moves := [], stall := .none, run := {}, commit := [] }) = resumedAt (homePc s k) from rfl,
    same, hs, if_neg (by simp)]

/-! ## The end of a run (R134, R145, R146) -/

theorem updNode_eq {n : Nat} (hd : s.node? n = some d) (f : NodeD → NodeD) : s.updNode n f = s.setNode n (f d) := by
  unfold State.updNode
  rw [hd]

theorem nodeDone_armed {n : Nat} (hd : s.node? n = some d) (hst : d.st = .running) (hs : satisfied d = false) :
    nodeDone n s = s.setNode n { d with st := .armed, rerun := false, barred := none } := by
  have unsat : satisfied { d with st := .armed, rerun := false, barred := none } = false := hs
  unfold nodeDone
  rw [hd]
  dsimp only
  rw [hst]
  dsimp only
  rw [unsat, Bool.false_and, if_neg (by simp)]

/-- A node's descriptor once its run has ended and it has not become READY. -/
def runEnded (d : NodeD) : NodeD := { d with st := .armed, rerun := false, barred := none, runs := (d.runs + 1) % 2 ^ 32 }

/-- The state in which the ended run is counted and its node ARMED. -/
def runCounted (k : Nat) (d : NodeD) (x : State) : State :=
  ((x.setNode (x.cor k).node { d with runs := (d.runs + 1) % 2 ^ 32 }).bump (fCoreRunsCount k) 1).setNode (x.cor k).node (runEnded d)

theorem runCounted_mild (k : Nat) (d : NodeD) (x : State) : Mild [.bull] [(fCoreRunsCount k).addr] x (runCounted k d x) :=
  (((setNode_mild _ _ x).mono (by simp) (by simp)).trans ((bump_mild _ _ _).mono (by simp) (by simp))).trans ((setNode_mild _ _ _).mono (by simp) (by simp))

theorem runCounted_node? (j : Nat) : (runCounted k d x).node? j = if j = (x.cor k).node then some (runEnded d) else x.node? j := by
  unfold runCounted
  rw [node?_set]
  split
  · rfl
  · next hj => exact (node?_congr ((bump_mild _ _ _).kept .bull (by decide)) j).trans ((node?_set ..).trans (if_neg hj))

theorem runCounted_count : (runCounted k d x).fld (fCoreRunsCount k) = (x.fld (fCoreRunsCount k) + 1) % 2 ^ 32 := by
  unfold runCounted
  rw [(setNode_mild _ _ _).fld (List.not_mem_nil), bump_fld_self (fCoreRunsCount k) (show 0 + 32 ≤ 32 by decide),
    (setNode_mild _ _ _).fld (List.not_mem_nil)]
  rfl

theorem runCounted_homePc : homePc (runCounted k d x) k = homePc x k :=
  congrArg (4 * ·) ((runCounted_mild k d x).fld (f := fCoreHomePc k) (by unfold fCoreHomePc fCoreRunsCount; simp))

theorem runCounted_spares : spareCores (runCounted k d x) (k / 16) = spareCores x (k / 16) := by
  have m := runCounted_mild k d x
  refine spareCores_congr (m.fld ?_) fun j => by rw [cor_congr (m.kept .core (by decide))]
  rw [List.mem_singleton]
  unfold fCluSparesCount fCoreRunsCount
  dsimp only
  omega

/-- A run's end: the node is ARMED where it is not satisfied, and the core goes home. -/
theorem endRun_armed (hd : x.node? (x.cor k).node = some d) (hst : d.st = .running) (hr : d.runCore = k) (hs : satisfied d = false)
    (hm : (x.cor k).mode ≠ .retired) (hk : (spareCores x (k / 16)).contains k = false) :
    endRun k x = (runCounted k d x).updCore k (resumedAt (homePc x k)) := by
  have counted : endRun k x = coreHome k (runCounted k d x) := by
    unfold endRun
    dsimp only
    rw [updNode_eq hd]
    generalize hv : State.bump _ _ _ = v
    have hn : v.node? (x.cor k).node = some { d with runs := (d.runs + 1) % W32 } := by
      rw [← hv, node?_congr ((bump_mild _ _ _).kept .bull (by decide)), node?_set, if_pos rfl]
    rw [hn]
    dsimp only
    rw [if_pos (show (d.runCore == k) = true by rw [hr]; exact beq_self_eq_true k), nodeDone_armed hn hst hs, ← hv]
    rfl
  have hc : (runCounted k d x).cor k = x.cor k := cor_congr ((runCounted_mild k d x).kept .core (by decide)) k
  rw [counted, coreHome_working (by rw [hc]; exact hm) (by rw [runCounted_spares]; exact hk), runCounted_homePc]

theorem endRun_home (hd : x.node? (x.cor k).node = some d) (hst : d.st = .running) (hr : d.runCore = k) (hs : satisfied d = false)
    (hm : (x.cor k).mode ≠ .retired) (hk : (spareCores x (k / 16)).contains k = false) :
    (endRun k x).cor k = resumedAt (homePc x k) (x.cor k) ∧ (∀ j, (endRun k x).node? j = if j = (x.cor k).node then some (runEnded d) else x.node? j) ∧
      (endRun k x).fld (fCoreRunsCount k) = (x.fld (fCoreRunsCount k) + 1) % 2 ^ 32 := by
  rw [endRun_armed hd hst hr hs hm hk]
  refine ⟨?_, fun j => (node?_congr ((updCore_mild k _ _).kept .bull (by decide)) j).trans (runCounted_node? j), ?_⟩
  · rw [State.cor_updCore_self, cor_congr ((runCounted_mild k d x).kept .core (by decide))]
  · rw [(updCore_mild k _ _).fld (List.not_mem_nil), runCounted_count]

/-! ## DONE with nothing to commit (R145) -/

/-- A core that commits. -/
def committing (c : Core) : Core := { c with mode := .doneWait, stall := .none, run := {}, loops := [] }

/-- A node's descriptor at DONE. -/
def doneNode (k status : Nat) (s : State) (d : NodeD) : NodeD :=
  { d with lastStatus := status % 256, duration := some (s.clk - d.runStart), writeBack := some (s.cor k).run.dirty, runCore := k }

/-- A KML run's own state is kept for its next run. -/
def kmlKept (n : Nat) (x : Option KmlSt) (s : State) : State :=
  match x with | some x => { s with kml := mapInsert n x s.kml } | none => s

theorem kmlKept_kept (n : Nat) (x : Option KmlSt) (s : State) : Kept [.kml] s (kmlKept n x s) := by
  unfold kmlKept
  split
  · intro p hp; cases p <;> first | rfl | simp at hp
  · exact Kept.refl _ s

/-- The state in which a run with nothing to commit ends. -/
def doneState (k status : Nat) (d : NodeD) (s : State) : State :=
  kmlKept (s.cor k).node (s.cor k).run.kml
    (((scoutRecord k 0x2B 0 (s.cor k).pc (s.cor k).node (pmuEvent k 0x001 1 s)).updCore k committing).setNode (s.cor k).node (doneNode k status s d))

theorem commitRest_nil (k : Nat) (s : State) : commitRest k [] s = endRun k s := rfl

section
variable (status : Nat) (hd : s.node? (s.cor k).node = some d)

theorem doneState_cor : (doneState k status d s).cor k = committing (s.cor k) := by
  have aside := (pmuEvent_aside k 0x001 1 s).trans (scoutRecord_aside k 0x2B 0 (s.cor k).pc (s.cor k).node _)
  unfold doneState
  rw [cor_congr (kmlKept_kept _ _ _ .core (by decide))]
  exact (State.cor_updCore_self ..).trans (congrArg committing aside.2)

theorem doneState_node? (j : Nat) : (doneState k status d s).node? j = if j = (s.cor k).node then some (doneNode k status s d) else s.node? j := by
  have aside := (pmuEvent_aside k 0x001 1 s).trans (scoutRecord_aside k 0x2B 0 (s.cor k).pc (s.cor k).node _)
  unfold doneState
  rw [node?_congr (kmlKept_kept _ _ _ .bull (by decide)), node?_set]
  exact congrArg _ (node?_congr (t := State.updCore _ _ _) aside.1.bull j)

theorem doneState_fld {f : Fld} (hf : ¬ InPmu k f.addr) : (doneState k status d s).fld f = s.fld f := by
  have aside := (pmuEvent_aside k 0x001 1 s).trans (scoutRecord_aside k 0x2B 0 (s.cor k).pc (s.cor k).node _)
  have hr : (doneState k status d s).reg f.addr = s.reg f.addr :=
    (congrArg (fun r => mapGet (resetWord f.addr) f.addr r) (kmlKept_kept _ _ _ .regs (by decide))).trans (aside.1.regs f.addr hf)
  exact congrArg (fun w => bits w f.lo f.w) hr

theorem doneState_homePc : homePc (doneState k status d s) k = homePc s k := by
  refine congrArg (4 * ·) (doneState_fld status ?_)
  unfold InPmu fCoreHomePc pmuBase
  dsimp only
  split_ifs <;> omega

theorem doneState_spares (hm : (s.cor k).mode ≠ .retired) : spareCores (doneState k status d s) (k / 16) = spareCores s (k / 16) := by
  have aside := (pmuEvent_aside k 0x001 1 s).trans (scoutRecord_aside k 0x2B 0 (s.cor k).pc (s.cor k).node _)
  refine spareCores_congr (doneState_fld status ?_) fun j => ?_
  · unfold InPmu fCluSparesCount
    dsimp only
    have := pmuBase_aligned k
    omega
  · by_cases hj : j = k
    · subst hj
      rw [doneState_cor]
      exact iff_of_false (by simp [committing]) hm
    · have other : (doneState k status d s).cor j = s.cor j := by
        unfold doneState
        rw [cor_congr (kmlKept_kept _ _ _ .core (by decide))]
        exact (State.cor_updCore_other _ hj _).trans (aside.1.others j hj)
      rw [other]

include hd in
theorem issueDone_is (ho : (s.cor k).run.ops = []) : issueDone k status s = endRun k (doneState k status d s) := by
  have aside := (pmuEvent_aside k 0x001 1 s).trans (scoutRecord_aside k 0x2B 0 (s.cor k).pc (s.cor k).node _)
  unfold issueDone doneState
  simp only [ho, List.reverse_nil, List.filter_nil, List.foldl_nil, commitRest_nil]
  generalize scoutRecord k 0x2B 0 (s.cor k).pc (s.cor k).node (pmuEvent k 0x001 1 s) = v at aside ⊢
  have hn : (v.updCore k committing).node? (s.cor k).node = some d := (node?_congr (t := State.updCore _ _ _) aside.1.bull _).trans hd
  rw [show (fun c : Core => { c with mode := .doneWait, stall := .none, run := {}, loops := [] }) = committing from rfl, updNode_eq hn,
    show (v.updCore k committing).clk = s.clk from aside.1.clk]
  rfl

end

/-- DONE of a run with nothing to commit, whose node stays ARMED: the core is at its home program. -/
theorem issueDone_ends (status : Nat) (hd : s.node? (s.cor k).node = some d) (hm : (s.cor k).mode = .run) (ho : (s.cor k).run.ops = [])
    (hst : d.st = .running) (hs : satisfied d = false) (hk : (spareCores s (k / 16)).contains k = false) :
    (issueDone k status s).cor k = atHome s k (s.cor k) ∧
      ∀ j, (issueDone k status s).node? j = if j = (s.cor k).node then some (runEnded (doneNode k status s d)) else s.node? j := by
  have hc := doneState_cor (k := k) (s := s) (d := d) status
  have hne : (s.cor k).mode ≠ .retired := by rw [hm]; simp
  obtain ⟨core, nodes, -⟩ := endRun_home (k := k) (x := doneState k status d s) (d := doneNode k status s d)
    (by rw [hc]; exact (doneState_node? status _).trans (if_pos rfl)) hst rfl hs (by rw [hc]; simp [committing]) (by rw [doneState_spares status hne]; exact hk)
  rw [issueDone_is status hd ho]
  refine ⟨?_, fun j => (nodes j).trans ?_⟩
  · rw [core, doneState_homePc, hc]; rfl
  · rw [hc]
    show (if j = (s.cor k).node then _ else _) = _
    split
    · rfl
    · next hj => rw [doneState_node?, if_neg hj]

end

/-! ## GETW and DONE -/

/-- A core that asks for a node of the classes of a mask. -/
def asking (mask : Nat) (c : Core) : Core := { c with blocked := true, mask := mask }

/-- A power state of a core's cluster lies aside of the core. -/
theorem setPwr_aside (k : Nat) (p : Pwr) (s : State) : Aside k s (setPwr (k / 16) p s) := by
  unfold setPwr
  refine ⟨{ toCoreFrame := ?_, data := by rw [State.cl_updClu_self], bad := by rw [State.cl_updClu_self] }, rfl⟩
  constructor
  case clus => exact fun n hn => State.cl_updClu_other s hn _
  case code => rw [State.cl_updClu_self]
  case free => exact le_refl _
  case kci => exact ⟨rfl, rfl, rfl⟩
  case others => exact fun _ _ => rfl
  case regs => exact fun _ _ => rfl
  all_goals rfl

theorem tryIdle_aside (k : Nat) (s : State) : Aside k s (tryIdle (k / 16) s) := by
  unfold tryIdle
  dsimp only
  split
  · exact setPwr_aside k .idle s
  · exact Aside.refl k s

section
variable {k : Nat} {s : State} (h : runs s k = true) (hb : bodyEndFree s k = true)
include h hb

/-- What GETW does at its core. -/
def getwEffect (k mask : Nat) (s : State) : CoreRes :=
  if inRun s k then excAt k 1 s else if mask = 0 then .done s else .stay (tryIdle (k / 16) (s.updCore k (asking mask)))

theorem getw_waits {mask : Nat} (hm : (s.cor k).mode ≠ .run) (hl : mask < 16) :
    ∃ t, exec (.getw k mask) s = .next t ∧ CoreOnly k s t ∧
      t.cor k = if mask = 0 then retire (s.cor k) else { s.cor k with blocked := true, mask := mask } := by
  have out : ∀ s' : State, s'.cor k = s.cor k → inRun s' k = false := fun s' hc => by unfold inRun; rw [hc]; simpa using hm
  by_cases h0 : mask = 0
  · rw [if_pos h0]
    refine ⟨_, rfl, issue_done (c := s.cor k) h (by simpa using hl) (fun _ => hb) rfl fun s' _ hc _ => ⟨s', ?_, CoreOnly.refl k s', hc⟩⟩
    rw [out s' hc, if_neg (by simp), if_pos h0]
  · rw [if_neg h0]
    obtain ⟨aside, -, -, -, stays⟩ := issue_at (op := 0x2A) (f := getwEffect k mask) h (show decide (mask < 16) = true by simpa using hl) (fun _ => hb)
    have he : getwEffect k mask (issueState k s) = .stay (tryIdle (k / 16) ((issueState k s).updCore k (asking mask))) := by
      unfold getwEffect
      rw [out _ aside.2, if_neg (by simp), if_neg h0]
    refine ⟨_, congrArg Host.Outcome.next (stays _ he), aside.1.trans ((updCore_only k _ _).trans (tryIdle_aside k _).1), ?_⟩
    rw [(tryIdle_aside k _).2, State.cor_updCore_self, aside.2]
    rfl

/-- The status that DONE gives (R264). -/
abbrev doneStatus (s : State) (k status : Nat) (r : Option Nat) : Nat := match r with | some x => sNat (s.cor k) x % 256 | none => status

/-- What DONE does in a run whose status register is good. -/
def doneEffect (k status : Nat) (r : Option Nat) (s : State) : CoreRes :=
  if inRun s k then
    if !goodRegs s k r.toList then excResidue k s else
    let st := match r with | some x => sVal s k x % 256 | none => status
    .stay (if (s.cor k).moves.isEmpty then issueDone k st s else s.updCore k (fun c => { c with stall := .done st }))
  else .done s

/-- The operands of DONE are encodable. -/
def doneLegal (status : Nat) (r : Option Nat) : Bool := decide (status < 256) && (match r with | some x => reg5 x | none => true)

section
variable {status : Nat} {r : Option Nat} (hl : status < 256) (hx : ∀ x, r = some x → x < 32)
include hl hx

omit h hb in
theorem done_legal : doneLegal status r = true := by
  unfold doneLegal
  cases r with
  | none => simpa using hl
  | some x => simpa [reg5] using ⟨hl, hx x rfl⟩

theorem done_passes (hm : (s.cor k).mode ≠ .run) : ∃ t, exec (.done k status r) s = .next t ∧ CoreOnly k s t ∧ t.cor k = retire (s.cor k) := by
  refine ⟨_, rfl, issue_done (c := s.cor k) h (done_legal hl hx) (fun _ => hb) rfl fun s' _ hc _ => ⟨s', ?_, CoreOnly.refl k s', hc⟩⟩
  exact if_neg (by unfold inRun; rw [hc]; simpa using hm)

section
variable (hm : (s.cor k).mode = .run) (hg : ∀ x, r = some x → ((s.cor k).sReg x).good = true)
include hm hg

omit h hb hl hx in
theorem doneEffect_run : doneEffect k status r (issueState k s) = .stay (if (s.cor k).moves.isEmpty then issueDone k (doneStatus s k status r) (issueState k s)
    else (issueState k s).updCore k (fun c => { c with stall := .done (doneStatus s k status r) })) := by
  have hc := issueState_cor s k
  have good : goodRegs (issueState k s) k r.toList = true := by
    cases r with
    | none => rfl
    | some x => unfold goodRegs; rw [hc]; simpa using hg x rfl
  unfold doneEffect inRun sVal
  rw [good, hc, hm]
  rfl

theorem done_issues : exec (.done k status r) s = .next (if (s.cor k).moves.isEmpty then issueDone k (doneStatus s k status r) (issueState k s)
    else (issueState k s).updCore k (fun c => { c with stall := .done (doneStatus s k status r) })) := by
  obtain ⟨-, -, -, -, stays⟩ := issue_at (op := 0x2B) (bar := true) (f := doneEffect k status r) h (done_legal hl hx) (fun _ => hb)
  exact congrArg Host.Outcome.next (stays _ (doneEffect_run hm hg))

theorem done_stalls (hv : (s.cor k).moves ≠ []) :
    ∃ t, exec (.done k status r) s = .next t ∧ CoreOnly k s t ∧ t.cor k = { s.cor k with stall := .done (doneStatus s k status r) } := by
  obtain ⟨aside, -⟩ := issue_at (op := 0x2B) (bar := true) (f := doneEffect k status r) h (done_legal hl hx) (fun _ => hb)
  refine ⟨_, done_issues h hb hl hx hm hg, ?_⟩
  rw [if_neg (by simpa using hv)]
  exact ⟨aside.1.trans (updCore_only k _ _), by rw [State.cor_updCore_self, aside.2]⟩

theorem done_ends {d : NodeD} (hv : (s.cor k).moves = []) (ho : (s.cor k).run.ops = []) (hd : s.node? (s.cor k).node = some d) (hst : d.st = .running)
    (hs : satisfied d = false) (hk : (spareCores s (k / 16)).contains k = false) :
    ∃ t, exec (.done k status r) s = .next t ∧ t.cor k = atHome s k (s.cor k) ∧
      ∀ j, t.node? j = if j = (s.cor k).node then some (runEnded (doneNode k (doneStatus s k status r) s d)) else s.node? j := by
  obtain ⟨aside, -⟩ := issue_at (op := 0x2B) (bar := true) (f := doneEffect k status r) h (done_legal hl hx) (fun _ => hb)
  have hc := aside.2
  have hregs : ∀ f : Fld, (issueState k s).fld f = s.fld f := fun f => by unfold issueState; split <;> rfl
  have hsp : spareCores (issueState k s) (k / 16) = spareCores s (k / 16) :=
    spareCores_congr (hregs _) fun j => by rw [show (issueState k s).cor j = s.cor j by unfold issueState; split <;> rfl]
  obtain ⟨core, nodes⟩ := issueDone_ends (s := issueState k s) (d := d) (doneStatus s k status r) (by rw [hc]; exact (node?_congr aside.1.bull _).trans hd)
    (by rw [hc]; exact hm) (by rw [hc]; exact ho) hst hs (by rw [hsp]; exact hk)
  refine ⟨_, done_issues h hb hl hx hm hg, ?_⟩
  rw [if_pos (by rw [hv]; rfl)]
  refine ⟨?_, fun j => (nodes j).trans ?_⟩
  · rw [core, hc]
    unfold atHome homePc
    rw [hregs]
  · rw [hc, node?_congr aside.1.bull]
    unfold doneNode
    rw [hc, issueState_clk]

end
end
end

/-- Settles O19: outside a run GETW and DONE change their core alone; a DONE with nothing to commit is followed through `issueDone` and `endRun`. -/
theorem runBoundaries : Obligations.RunBoundaries := by
  intro s k h hb
  refine ⟨fun mask hm hl => getw_waits h hb hm hl, fun status r hl hx => ⟨done_passes h hb hl hx, done_stalls h hb hl hx, ?_⟩⟩
  intro d hm hg hv ho hd hst hs hk
  obtain ⟨t, e, core, nodes⟩ := done_ends h hb hl hx hm hg hv ho hd hst hs hk
  have below : doneStatus s k status r % 256 = doneStatus s k status r := by
    cases r with
    | none => exact Nat.mod_eq_of_lt hl
    | some x => exact Nat.mod_mod _ _
  refine ⟨t, e, core, ?_, fun j hj => (nodes j).trans (if_neg hj)⟩
  rw [nodes, if_pos rfl, doneNode, below]
  rfl

end Sys2Proof.Machine
end

section
/-!
PROOFS. The beat poster: what it does with the members of a group, one post after another, and what it leaves alone (R150, R152, R159).
-/

namespace Sys2Proof.Machine

section
variable {s t u : State} {g n : Nat} {d : NodeD}

/-! ## Posts (R134, R135) -/

theorem readies_plain {flags : Nat} (hp : plainPost d) : readies flags d = false := by
  unfold readies
  rcases hp with h | h | h | h <;> (rw [h]; rfl)

theorem plainPost_notAborting (hp : plainPost d) : d.st ≠ .aborting := by
  rcases hp with h | h | h | h <;> (rw [h]; simp)

theorem postedBy_flags {flags : Nat} (h : d.st ≠ .aborting) : postedBy flags d = { d with flags := d.flags ||| flags } := if_neg h

/-- A post to a plain node sets flags and nothing else. -/
theorem postNode_plain {flags : Nat} (hd : s.node? n = some d) (hp : plainPost d) :
    postNode n flags s = some (s.setNode n { d with flags := d.flags ||| flags }) := by
  rw [postNode_flags hd (readies_plain hp), postedBy_flags (plainPost_notAborting hp)]

/-- A post leaves every generator. -/
theorem postNode_beats {flags : Nat} (h : postNode n flags s = some t) : t.bull.beats = s.bull.beats := by
  cases hd : s.node? n with
  | none =>
    unfold postNode at h
    rw [hd] at h
    obtain rfl := Option.some.inj h
    rw [(voidPost_mild s).kept .bull (by decide)]
  | some d =>
    cases hr : readies flags d with
    | false =>
      rw [postNode_flags hd hr] at h
      obtain rfl := Option.some.inj h
      rfl
    | true =>
      rw [postNode_readies hd hr] at h
      split at h
      · exact absurd h (by simp)
      · obtain rfl := Option.some.inj h
        rw [enterReady_readied (d := postedBy flags d) (by rw [node?_set, if_pos rfl])]
        rfl

/-! ## One beat post (R150, R152) -/

/-- Counts a beat post, and an overlap where the flag was still set. -/
def beatCounted (g n : Nat) (again : Bool) (s : State) : State :=
  if again then ((pmuEvent 256 0x103 1 s).updNode n (fun d => { d with overlap := (d.overlap + 1) % 65536 })).bump (fBullBeatOverlapCount g) 1
  else pmuEvent 256 0x103 1 s

theorem beatPost_map (g n : Nat) (s : State) :
    ∃ again, beatPost g n s = (postNode n (2 ^ (s.gen g).postFlag) s).map (beatCounted g n again) := by
  refine ⟨match s.node? n with | some d => (d.flags ||| d.recFlags) &&& 2 ^ (s.gen g).postFlag != 0 | none => false, ?_⟩
  unfold beatPost
  dsimp only
  cases postNode n (2 ^ (s.gen g).postFlag) s <;> rfl

theorem beatPost_is (hd : s.node? n = some d) :
    beatPost g n s = (postNode n (2 ^ (s.gen g).postFlag) s).map (beatCounted g n ((d.flags ||| d.recFlags) &&& 2 ^ (s.gen g).postFlag != 0)) := by
  unfold beatPost
  rw [hd]
  dsimp only
  cases postNode n (2 ^ (s.gen g).postFlag) s <;> rfl

theorem beatCounted_mild (again : Bool) (s : State) :
    Mild [.bull, .pmu] [(fPmuOvfPmc 256).addr, (fBullBeatOverlapCount g).addr] s (beatCounted g n again s) := by
  have event : Mild [.bull, .pmu] [(fPmuOvfPmc 256).addr, (fBullBeatOverlapCount g).addr] s (pmuEvent 256 0x103 1 s) :=
    (pmuEvent_mild ..).mono (by simp) (by simp)
  unfold beatCounted
  split
  · exact (event.trans ((updNode_mild _ _ _).mono (by simp) (by simp))).trans ((bump_mild _ _ _).mono (by simp) (by simp))
  · exact event

/-- OVERLAP counts a beat whose flag was still set. -/
def overlapAfter (again : Bool) (d : NodeD) : NodeD := { d with overlap := if again then (d.overlap + 1) % 65536 else d.overlap }

theorem pmuEvent_bull (set ev k : Nat) (s : State) : (pmuEvent set ev k s).bull = s.bull := (pmuEvent_mild set ev k s).kept .bull (by decide)

theorem beatCounted_onlyNode (again : Bool) (hd : s.node? n = some d) : OnlyNode n (overlapAfter again d) s (beatCounted g n again s) := by
  have hb := pmuEvent_bull 256 0x103 1 s
  cases again with
  | false => exact (OnlyNode.refl hd).congr hb
  | true =>
    have hn : (pmuEvent 256 0x103 1 s).node? n = some d := (node?_congr hb n).trans hd
    show OnlyNode n _ s (((pmuEvent 256 0x103 1 s).updNode n _).bump _ 1)
    rw [updNode_eq hn]
    exact onlyNode_of_bull (((bump_mild _ _ _).kept .bull (by decide)).trans (setNode_bull_congr hb n _))

theorem OnlyNode.beats (h : OnlyNode n d s t) : t.bull.beats = s.bull.beats := by
  obtain ⟨rest, -, -⟩ := h
  rw [rest]

theorem updNode_beats (f : NodeD → NodeD) : (s.updNode n f).bull.beats = s.bull.beats := by
  unfold State.updNode
  split <;> rfl

theorem beatCounted_beats (again : Bool) (s : State) : (beatCounted g n again s).bull.beats = s.bull.beats := by
  have hb := pmuEvent_bull 256 0x103 1 s
  unfold beatCounted
  split
  · rw [(bump_mild _ _ _).kept .bull (by decide), updNode_beats, hb]
  · rw [hb]

/-- A beat post changes neither the time nor a generator. -/
theorem beatPost_leaves (h : beatPost g n s = some t) : t.time = s.time ∧ t.bull.beats = s.bull.beats := by
  obtain ⟨again, hmap⟩ := beatPost_map g n s
  obtain ⟨u, hp, rfl⟩ := Option.map_eq_some_iff.mp (hmap.symm.trans h)
  exact ⟨((beatCounted_mild again u).kept .time (by simp)).trans ((postNode_mild hp).kept .time (by decide)),
    (beatCounted_beats again u).trans (postNode_beats hp)⟩

/-! ## The poster (R150, R159) -/

theorem runPoster_idle (h : s.bull.poster = []) : ∀ fuel, runPoster fuel s = s
  | 0 => rfl
  | fuel + 1 => by unfold runPoster; rw [h]

section
variable {rest : List Nat} (hg : s.bull.poster = g :: rest) (fuel : Nat)
include hg

theorem runPoster_waits {ms : List Nat} (hp : (s.gen g).posting = n :: ms) (hb : beatPost g n s = none) : runPoster (fuel + 1) s = s := by
  rw [runPoster, hg]
  dsimp only
  rw [hp]
  dsimp only
  rw [hb]

theorem runPoster_posts {ms : List Nat} (hp : (s.gen g).posting = n :: ms) (hb : beatPost g n s = some t) :
    runPoster (fuel + 1) s = runPoster fuel (t.updGen g (fun b => { b with posting := ms })) := by
  rw [runPoster, hg]
  dsimp only
  rw [hp]
  dsimp only
  rw [hb]

/-- The poster has done with a beat. -/
def beatPosted (rest : List Nat) (s : State) : State := { s with bull := { s.bull with poster := rest } }

theorem runPoster_ends (hp : (s.gen g).posting = []) (hw : (s.gen g).waiting = []) : runPoster (fuel + 1) s = runPoster fuel (beatPosted rest s) := by
  rw [runPoster, hg]
  dsimp only
  rw [hp, hw]
  rfl

theorem runPoster_next {f : Nat} {fs : List Nat} (hp : (s.gen g).posting = []) (hw : (s.gen g).waiting = f :: fs) :
    runPoster (fuel + 1) s = runPoster fuel (s.updGen g (fun b => { b with waiting := fs, posting := b.members, postFlag := f })) := by
  rw [runPoster, hg]
  dsimp only
  rw [hp, hw]

end

theorem gen_congr (h : t.bull.beats = s.bull.beats) (j : Nat) : t.gen j = s.gen j := congrArg (mapGet ({} : BeatGen) j) h

/-- The time and every generator's next boundary stand. -/
structure BoundariesKept (s t : State) : Prop where
  time : t.time = s.time
  next : ∀ j, (t.gen j).next = (s.gen j).next

theorem BoundariesKept.trans (h : BoundariesKept s t) (k : BoundariesKept t u) : BoundariesKept s u :=
  ⟨k.time.trans h.time, fun j => (k.next j).trans (h.next j)⟩

theorem updGen_boundaries (g : Nat) {f : BeatGen → BeatGen} (hf : ∀ b, (f b).next = b.next) (s : State) : BoundariesKept s (s.updGen g f) := by
  refine ⟨rfl, fun j => ?_⟩
  rw [State.gen_updGen]
  split
  · next h => rw [hf, h]
  · rfl

theorem runPoster_boundaries : ∀ (fuel : Nat) (s : State), BoundariesKept s (runPoster fuel s)
  | 0, s => ⟨rfl, fun _ => rfl⟩
  | fuel + 1, s => by
    cases hg : s.bull.poster with
    | nil => rw [runPoster_idle hg]; exact ⟨rfl, fun _ => rfl⟩
    | cons g rest =>
      cases hp : (s.gen g).posting with
      | nil =>
        cases hw : (s.gen g).waiting with
        | nil =>
          rw [runPoster_ends hg fuel hp hw]
          exact BoundariesKept.trans (t := beatPosted rest s) ⟨rfl, fun _ => rfl⟩ (runPoster_boundaries fuel _)
        | cons f fs =>
          rw [runPoster_next hg fuel hp hw]
          refine BoundariesKept.trans ?_ (runPoster_boundaries fuel _)
          exact updGen_boundaries g (by exact fun _ => rfl) s
      | cons n ms =>
        cases hb : beatPost g n s with
        | none => rw [runPoster_waits hg fuel hp hb]; exact ⟨rfl, fun _ => rfl⟩
        | some t =>
          rw [runPoster_posts hg fuel hp hb]
          obtain ⟨htime, hbeats⟩ := beatPost_leaves hb
          have posted : BoundariesKept s t := ⟨htime, fun j => congrArg _ (gen_congr hbeats j)⟩
          refine BoundariesKept.trans (posted.trans ?_) (runPoster_boundaries fuel _)
          exact updGen_boundaries g (by exact fun _ => rfl) t

/-- A member of a list is no more than the sum of the list. -/
theorem le_foldl_add {x : Nat} : ∀ {l : List Nat} {a : Nat}, x ∈ l ∨ x ≤ a → x ≤ l.foldl (· + ·) a
  | [], _, h => h.resolve_left List.not_mem_nil
  | y :: l, a, h => by
    refine le_foldl_add (l := l) (a := a + y) ?_
    rcases h with hm | hle
    · exact (List.mem_cons.mp hm).symm.imp_right fun e : x = y => by omega
    · exact .inr (by omega)

/-- The fuel of the poster is enough for the posts of one beat, and its end. -/
theorem posterFuel_suffices (s : State) (g : Nat) : (s.gen g).posting.length + 1 ≤ posterFuel s := by
  unfold posterFuel
  cases hb : mapFind? g s.bull.beats with
  | none =>
    have : (s.gen g).posting = [] := by unfold State.gen mapGet; rw [hb]; rfl
    rw [this]
    exact Nat.le_add_right _ _
  | some b =>
    have hgen : s.gen g = b := by unfold State.gen mapGet; rw [hb]; rfl
    have := le_foldl_add (a := 0) (l := s.bull.beats.map (fun b => b.2.posting.length + 2 + b.2.waiting.length * (b.2.members.length + 1)))
      (.inl (List.mem_map.mpr ⟨(g, b), mapFind?_mem hb, rfl⟩))
    rw [hgen]
    dsimp only at this
    omega

end

section
variable {s t : State} {g : Nat}

/-! ## A beat to plain members (R150, R152) -/

/-- A member's descriptor once its beat flag is posted. -/
def beaten (f : Nat) (d : NodeD) : NodeD :=
  { d with flags := d.flags ||| f, overlap := if (d.flags ||| d.recFlags) &&& f = 0 then d.overlap else (d.overlap + 1) % 65536 }

theorem overlapAfter_is (f : Nat) (d : NodeD) :
    overlapAfter ((d.flags ||| d.recFlags) &&& f != 0) { d with flags := d.flags ||| f } = beaten f d := by
  unfold overlapAfter beaten
  by_cases h : (d.flags ||| d.recFlags) &&& f = 0
  · simp [h]
  · simp [h]

/-- A beat post to a plain member changes its descriptor alone. -/
theorem beatPost_plain {n : Nat} {d : NodeD} (hd : s.node? n = some d) (hr : readies (2 ^ (s.gen g).postFlag) d = false) (ha : d.st ≠ .aborting) :
    ∃ t, beatPost g n s = some t ∧ Kept [.regs, .hif, .out, .bull, .pmu] s t ∧ OnlyNode n (beaten (2 ^ (s.gen g).postFlag) d) s t := by
  refine ⟨_, by rw [beatPost_is hd, postNode_flags hd hr, postedBy_flags ha]; rfl, ?_, ?_⟩
  · exact (setNode_kept.mono (by simp)).trans (beatCounted_mild _ _).kept
  · rw [← overlapAfter_is]
    exact (setNode_onlyNode _).trans (beatCounted_onlyNode _ (by rw [node?_set, if_pos rfl]))

/-- What a group's beat leaves: every member has its flag, and the poster is done. -/
structure GroupServed (g f : Nat) (ms : List Nat) (s t : State) : Prop where
  kept    : Kept [.regs, .hif, .out, .bull, .pmu] s t
  poster  : t.bull.poster = []
  posting : (t.gen g).posting = []
  others  : ∀ n, n ∉ ms → t.node? n = s.node? n
  members : ∀ n ∈ ms, ∀ d, s.node? n = some d → t.node? n = some (beaten f d)

theorem runPoster_serves : ∀ (ms : List Nat) (s : State) (fuel : Nat), ms.length + 1 ≤ fuel → s.bull.poster = [g] → (s.gen g).posting = ms →
    (s.gen g).waiting = [] → ms.Nodup → (∀ n ∈ ms, ∃ d, s.node? n = some d ∧ readies (2 ^ (s.gen g).postFlag) d = false ∧ d.st ≠ .aborting) →
    GroupServed g (2 ^ (s.gen g).postFlag) ms s (runPoster fuel s)
  | _, _, 0, hl, _, _, _, _, _ => absurd hl (Nat.not_succ_le_zero _)
  | [], s, fuel + 1, _, hg, hp, hw, _, _ => by
    rw [runPoster_ends hg fuel hp hw, runPoster_idle (by rfl)]
    exact ⟨fun p hp => by cases p <;> first | rfl | simp at hp, rfl, hp, fun _ _ => rfl, fun n hn => absurd hn List.not_mem_nil⟩
  | n :: ms, s, fuel + 1, hl, hg, hp, hw, hnd, hms => by
    obtain ⟨d, hd, hr, ha⟩ := hms n (List.mem_cons_self ..)
    obtain ⟨hn, hnd'⟩ := List.nodup_cons.mp hnd
    obtain ⟨t, hb, kt, only⟩ := beatPost_plain hd hr ha
    have hgen : ∀ j, t.gen j = s.gen j := gen_congr only.beats
    obtain ⟨rest, own, others⟩ := only
    have hflag : ((t.updGen g (fun b => { b with posting := ms })).gen g).postFlag = (s.gen g).postFlag := by
      rw [State.gen_updGen, if_pos rfl, ← hgen]
    have next := runPoster_serves ms (t.updGen g (fun b => { b with posting := ms })) fuel (Nat.le_of_succ_le_succ hl)
      (by show t.bull.poster = _; rw [rest]; exact hg) (by rw [State.gen_updGen, if_pos rfl]) (by rw [State.gen_updGen, if_pos rfl, hgen]; exact hw) hnd'
      fun m hm => by
        have hne : m ≠ n := fun h => hn (h ▸ hm)
        rw [hflag]
        obtain ⟨e, he, h⟩ := hms m (List.mem_cons_of_mem _ hm)
        exact ⟨e, (others m hne).trans he, h⟩
    rw [hflag] at next
    obtain ⟨kept, poster, posting, away, served⟩ := next
    rw [runPoster_posts hg fuel hp hb]
    refine ⟨(kt.trans (((updGen_mild g _ t).kept).mono (by simp))).trans kept, poster, posting, fun m hm => ?_, fun m hm e he => ?_⟩
    · rw [List.mem_cons, not_or] at hm
      exact (away m hm.2).trans (others m hm.1)
    · by_cases hmn : m = n
      · subst hmn
        obtain rfl := Option.some.inj (hd.symm.trans he)
        exact (away m hn).trans own
      · have hm' : m ∈ ms := (List.mem_cons.mp hm).resolve_left hmn
        exact served m hm' e ((others m hmn).trans he)

end

end Sys2Proof.Machine
end

section
/-!
PROOFS. Beats and their leads: the tick that a beat comes at, the clusters that a lead wakes, and the context that a lead pages in (R43, R143, R150,
R151, R172, R173).
-/

namespace Sys2Proof.Machine

section
variable {s t : State} {g : Nat}

/-! ## The tick of an instant (R40, R43) -/

theorem timeOfTick_mono {T U : Nat} (h : T ≤ U) : timeOfTick T ≤ timeOfTick U := by
  unfold timeOfTick
  omega

/-- The first instant of the current tick has passed. -/
theorem timeOfTick_tick (s : State) : timeOfTick s.tick ≤ s.time.t := by
  unfold timeOfTick State.tick tickOf
  omega

theorem timeOfTick_passed {T : Nat} (h : T ≤ s.tick) : timeOfTick T ≤ s.time.t := Nat.le_trans (timeOfTick_mono h) (timeOfTick_tick s)

/-- A cycle is far shorter than a tick: time that is let run to a tick stops in it. -/
theorem advanceTo_tick {T : Nat} (h1 : -rateMax ≤ s.time.rate) (h2 : s.time.rate ≤ rateMax) (hT : s.tick ≤ T) : (advanceTo (timeOfTick T) s).tick = T := by
  rcases Nat.le_total s.time.t (timeOfTick T) with hle | hle
  · obtain ⟨low, high⟩ := advanceTo_reaches (timeInc_pos h1) hle
    have inc : timeInc s.time.rate ≤ 2 ^ 54 := by
      have hn : (nsUnit : Int) = 281474976710656 := rfl
      unfold timeInc
      unfold rateMax at h1 h2
      omega
    unfold State.tick tickOf
    unfold timeOfTick at low high
    unfold timeOfTick
    omega
  · rw [advanceTo_passed hle]
    exact Nat.le_antisymm hT (tick_reached hle)

/-! ## BEAT (R150, R151) -/

theorem beatTick_next {b : BeatGen} (h : b.catchUp = none) : beatTick s b = s.tick + (b.next + W32 - s.mtc) % W32 := by
  unfold beatTick
  rw [h]

theorem beatTick_mtc {b : BeatGen} (h : b.catchUp = none) : beatTick s b % 2 ^ 32 = b.next % 2 ^ 32 := by
  have hW : W32 = 4294967296 := rfl
  rw [beatTick_next h]
  unfold State.mtc
  rw [hW]
  omega

/-- A generator has moved its next boundary. -/
def boundaryMoved (g : Nat) (s : State) : State := s.updGen g (fun b => { b with next := (b.next + b.q) % W32, catchUp := none })

/-- A generator's group stands last with the poster. -/
def groupQueued (g : Nat) (s : State) : State :=
  let v := s.updGen g (fun b => { b with posting := b.members, postFlag := b.flag })
  { v with bull := { v.bull with poster := v.bull.poster ++ [g] } }

/-- The state in which a generator has moved its next boundary and queued its posts. -/
def beatQueued (g : Nat) (s : State) : State :=
  if (s.gen g).posting.isEmpty then groupQueued g (boundaryMoved g s)
  else (boundaryMoved g s).updGen g (fun b => { b with waiting := b.waiting ++ [b.flag] })

theorem startBeat_is (hn : (s.gen g).newSet = none) (hc : (s.gen g).catchUp = none) : startBeat g s = postBeats (beatQueued g s) := by
  unfold startBeat
  simp only [hn, hc, Option.isSome_none, Bool.false_eq_true, if_false]
  rfl

theorem boundaryMoved_gen (g : Nat) (s : State) :
    (boundaryMoved g s).gen g = { s.gen g with next := ((s.gen g).next + (s.gen g).q) % W32, catchUp := none } :=
  (State.gen_updGen ..).trans (if_pos rfl)

theorem groupQueued_gen (g : Nat) (s : State) :
    (groupQueued g s).gen g = { s.gen g with posting := (s.gen g).members, postFlag := (s.gen g).flag } := by
  show (s.updGen g (fun b => { b with posting := b.members, postFlag := b.flag })).gen g = _
  rw [State.gen_updGen, if_pos rfl]

theorem beatQueued_next (g : Nat) (s : State) : (beatQueued g s).time = s.time ∧ ((beatQueued g s).gen g).next = ((s.gen g).next + (s.gen g).q) % W32 := by
  unfold beatQueued
  split
  · exact ⟨rfl, by rw [groupQueued_gen, boundaryMoved_gen]⟩
  · exact ⟨rfl, by rw [State.gen_updGen, if_pos rfl, boundaryMoved_gen]⟩

theorem advance_bull (n : Nat) (s : State) : (advance n s).bull = s.bull := (advance_counts n s).kept .bull (by decide)

theorem advanceTo_bull (target : Nat) (s : State) : (advanceTo target s).bull = s.bull := by
  unfold advanceTo
  exact advance_bull _ s

theorem beat_due (hb : canBeat s g = true) (hf : beatFirst s g = true) : exec (.beat g) s = .next (startBeat g (advanceTo (beatTime s g) s)) := by
  show Host.Outcome.next (beat g s) = _
  unfold beat
  rw [if_pos (by rw [hb, hf]; rfl)]

theorem beat_boundary (hb : canBeat s g = true) (hf : beatFirst s g = true) (h1 : -rateMax ≤ s.time.rate) (h2 : s.time.rate ≤ rateMax)
    (hn : (s.gen g).newSet = none) (hc : (s.gen g).catchUp = none) :
    ∃ t, exec (.beat g) s = .next t ∧ t.mtc = (s.gen g).next % 2 ^ 32 ∧ (t.gen g).next = ((s.gen g).next + (s.gen g).q) % 2 ^ 32 := by
  have hgen : (advanceTo (beatTime s g) s).gen g = s.gen g := gen_congr (congrArg BullSt.beats (advanceTo_bull ..)) g
  refine ⟨_, beat_due hb hf, ?_⟩
  rw [startBeat_is (by rw [hgen]; exact hn) (by rw [hgen]; exact hc)]
  obtain ⟨qtime, qnext⟩ := beatQueued_next g (advanceTo (beatTime s g) s)
  obtain ⟨ptime, pnext⟩ := runPoster_boundaries (posterFuel (beatQueued g (advanceTo (beatTime s g) s))) (beatQueued g (advanceTo (beatTime s g) s))
  refine ⟨?_, ?_⟩
  · have htick : (postBeats (beatQueued g (advanceTo (beatTime s g) s))).tick = beatTick s (s.gen g) :=
      (tick_congr (ptime.trans qtime)).trans (advanceTo_tick h1 h2 (by rw [beatTick_next hc]; exact Nat.le_add_right _ _))
    unfold State.mtc
    rw [htick]
    exact beatTick_mtc hc
  · rw [← hgen]
    exact (pnext g).trans qnext

theorem beatQueued_idle (hp : (s.gen g).posting = []) (hl : s.bull.poster = []) :
    (beatQueued g s).bull.poster = [g] ∧ ((beatQueued g s).gen g).posting = (s.gen g).members ∧ ((beatQueued g s).gen g).postFlag = (s.gen g).flag ∧
      ((beatQueued g s).gen g).waiting = (s.gen g).waiting ∧ Kept [.bull] s (beatQueued g s) ∧ (beatQueued g s).bull.nodes = s.bull.nodes := by
  have e : beatQueued g s = groupQueued g (boundaryMoved g s) := if_pos (by rw [hp]; rfl)
  rw [e, groupQueued_gen, boundaryMoved_gen]
  refine ⟨?_, rfl, rfl, rfl, fun p hp => by cases p <;> first | rfl | simp at hp, rfl⟩
  show s.bull.poster ++ [g] = [g]
  rw [hl, List.nil_append]

/-- A beat to plain members while the poster is free. -/
theorem beat_posts (hb : canBeat s g = true) (hf : beatFirst s g = true) (hn : (s.gen g).newSet = none) (hc : (s.gen g).catchUp = none)
    (ht : (s.gen g).next = s.mtc) (hp : (s.gen g).posting = []) (hw : (s.gen g).waiting = []) (hl : s.bull.poster = []) (hd : (s.gen g).members.Nodup)
    (hm : ∀ n ∈ (s.gen g).members, ∃ d, s.node? n = some d ∧ plainPost d) :
    ∃ t, exec (.beat g) s = .next t ∧ GroupServed g (2 ^ (s.gen g).flag) (s.gen g).members s t := by
  have now : advanceTo (beatTime s g) s = s := by
    refine advanceTo_passed (timeOfTick_passed ?_)
    have hW : W32 = 4294967296 := rfl
    rw [beatTick_next hc, ht, hW]
    omega
  refine ⟨_, beat_due hb hf, ?_⟩
  rw [now, startBeat_is hn hc]
  obtain ⟨hposter, hposting, hflag, hwaiting, hkept, hnodes⟩ := beatQueued_idle hp hl
  have hnode : ∀ j, (beatQueued g s).node? j = s.node? j := fun j => congrArg (mapFind? j) hnodes
  obtain ⟨kept, poster, posting, others, members⟩ := runPoster_serves (s.gen g).members (beatQueued g s) (posterFuel (beatQueued g s))
    (by rw [← hposting]; exact posterFuel_suffices _ g) hposter hposting (hwaiting.trans hw) hd fun n h => by
      obtain ⟨d, hd, plain⟩ := hm n h
      exact ⟨d, (hnode n).trans hd, readies_plain plain, plainPost_notAborting plain⟩
  rw [hflag] at members
  exact ⟨(hkept.mono (by simp)).trans kept, poster, posting, fun n h => (others n h).trans (hnode n),
    fun n h d hd => members n h d ((hnode n).trans hd)⟩

theorem beat_early (hf : canBeat s g = false ∨ beatFirst s g = false) : exec (.beat g) s = .next s := by
  show Host.Outcome.next (beat g s) = _
  unfold beat
  rw [if_neg]
  rcases hf with h | h <;> simp [h]

/-! ## BEAT_POSTER_RESUME (R159) -/

theorem posterResume_idle (h : s.flag fBullCtlEn = false ∨ s.bull.poster = []) : exec .beatPosterResume s = .next s := by
  show Host.Outcome.next (if s.flag fBullCtlEn then postBeats s else s) = _
  split
  · next he => rw [postBeats, runPoster_idle (h.resolve_left (by rw [he]; simp))]
  · rfl

section
variable {n : Nat} {d : NodeD} (he : s.flag fBullCtlEn = true) (hl : s.bull.poster = [g]) (hp : (s.gen g).posting = [n])
include he hl hp

omit hl in
theorem posterResume_runs : ∃ fuel, exec .beatPosterResume s = .next (runPoster (fuel + 2) s) := by
  have enough : 2 ≤ posterFuel s := by simpa [hp] using posterFuel_suffices s g
  refine ⟨posterFuel s - 2, ?_⟩
  rw [Nat.sub_add_cancel enough]
  show Host.Outcome.next (if s.flag fBullCtlEn then postBeats s else s) = _
  rw [if_pos he]
  rfl

theorem posterResume_waits (hb : beatPost g n s = none) : exec .beatPosterResume s = .next s := by
  obtain ⟨fuel, e⟩ := posterResume_runs he hp
  rw [e, runPoster_waits hl _ hp hb]

/-- The poster's last post is made, and the beat is over. -/
theorem posterResume_posts (hw : (s.gen g).waiting = []) (hb : beatPost g n s = some t) (ht : t.bull.poster = [g]) :
    ∃ u, exec .beatPosterResume s = .next u ∧ Kept [.bull] t u ∧ u.bull.poster = [] ∧ (u.gen g).posting = [] ∧ u.bull.nodes = t.bull.nodes ∧
      u.bull.ready = t.bull.ready := by
  obtain ⟨fuel, e⟩ := posterResume_runs he hp
  have hgen : (t.updGen g (fun b => { b with posting := [] })).gen g = { s.gen g with posting := [] } := by
    rw [State.gen_updGen, if_pos rfl, gen_congr (beatPost_leaves hb).2]
  generalize hv : t.updGen g (fun b => { b with posting := [] }) = v at hgen
  have hposter : v.bull.poster = [g] := by rw [← hv]; exact ht
  refine ⟨beatPosted [] v, ?_, ?_, rfl, by show (v.gen g).posting = []; rw [hgen], by rw [← hv]; rfl, by rw [← hv]; rfl⟩
  · rw [e, runPoster_posts hl _ hp hb, hv, runPoster_ends hposter _ (by rw [hgen]) (by rw [hgen]; exact hw), runPoster_idle rfl]
  · rw [← hv]
    intro p hp; cases p <;> first | rfl | simp at hp

variable (hd : s.node? n = some d) (ha : d.st ≠ .aborting) (hw : (s.gen g).waiting = [])
include hd ha hw

omit ha hw in
theorem posterResume_full (hr : readies (2 ^ (s.gen g).postFlag) d = true) (hf : storeFull s d.set.home = true) : exec .beatPosterResume s = .next s := by
  refine posterResume_waits he hl hp ?_
  rw [beatPost_is hd, postNode_readies hd hr, if_pos hf]
  rfl

theorem posterResume_flags (hr : readies (2 ^ (s.gen g).postFlag) d = false) :
    ∃ t, exec .beatPosterResume s = .next t ∧ Kept [.regs, .out, .hif, .bull, .pmu] s t ∧ t.bull.poster = [] ∧ (t.gen g).posting = [] ∧
      t.node? n = some (beaten (2 ^ (s.gen g).postFlag) d) ∧ ∀ j, j ≠ n → t.node? j = s.node? j := by
  obtain ⟨t, hb, kept, rest, own, others⟩ := beatPost_plain hd hr ha
  obtain ⟨u, e, ku, poster, posting, nodes, -⟩ := posterResume_posts he hl hp hw hb (by rw [rest]; exact hl)
  have hnode : ∀ j, u.node? j = t.node? j := fun j => congrArg (mapFind? j) nodes
  exact ⟨u, e, (kept.trans (ku.mono (by simp))).mono (by simp), poster, posting, (hnode n).trans own, fun j hj => (hnode j).trans (others j hj)⟩

/-- The post makes the node READY, now that its store has room. -/
theorem posterResume_readies (hr : readies (2 ^ (s.gen g).postFlag) d = true) (hf : storeFull s d.set.home = false) :
    ∃ t, exec .beatPosterResume s = .next t ∧ t.bull.poster = [] ∧ (t.gen g).posting = [] ∧
      t.node? n = some { beaten (2 ^ (s.gen g).postFlag) d with st := .ready, expired := false } ∧
      t.readyQ d.set.home d.set.cls = s.readyQ d.set.home d.set.cls ++ [⟨n, s.clk, true⟩] ∧ ∀ j, j ≠ n → t.node? j = s.node? j := by
  have posted := postedBy_flags (flags := 2 ^ (s.gen g).postFlag) ha
  set v := enterReady n false true (s.setNode n { d with flags := d.flags ||| 2 ^ (s.gen g).postFlag }) with hv
  have hbull : v.bull = readied n { d with flags := d.flags ||| 2 ^ (s.gen g).postFlag } false true (s.setNode n { d with flags := d.flags ||| 2 ^ (s.gen g).postFlag }) :=
    enterReady_readied (by rw [node?_set, if_pos rfl]) ..
  have hvn : ∀ j, v.node? j = if j = n then some { d with flags := d.flags ||| 2 ^ (s.gen g).postFlag, st := .ready, expired := false } else s.node? j := by
    intro j
    rw [show v.node? j = mapFind? j v.bull.nodes from rfl, hbull]
    exact (node?_set ..).trans (ite_congr rfl (fun _ => rfl) fun h => (node?_set ..).trans (if_neg h))
  have hvq : v.readyQ d.set.home d.set.cls = s.readyQ d.set.home d.set.cls ++ [⟨n, s.clk, true⟩] := by
    rw [show v.readyQ d.set.home d.set.cls = mapGet [] (4 * d.set.home + d.set.cls) v.bull.ready from rfl, hbull]
    exact (readyQ_setReadyQ ..).trans (if_pos rfl)
  have hb : beatPost g n s = some (beatCounted g n ((d.flags ||| d.recFlags) &&& 2 ^ (s.gen g).postFlag != 0) v) := by
    rw [beatPost_is hd, postNode_readies hd hr, hf, if_neg (by simp), posted]
    rfl
  obtain ⟨rest, own, others⟩ := beatCounted_onlyNode (g := g) ((d.flags ||| d.recFlags) &&& 2 ^ (s.gen g).postFlag != 0) ((hvn n).trans (if_pos rfl))
  obtain ⟨u, e, -, poster, posting, nodes, ready⟩ := posterResume_posts he hl hp hw hb (by rw [rest, hbull]; exact hl)
  have hnode : ∀ j, u.node? j = _ := fun j => congrArg (mapFind? j) nodes
  refine ⟨u, e, poster, posting, ?_, ?_, fun j hj => ?_⟩
  · refine ((hnode n).trans own).trans ?_
    rw [← overlapAfter_is]
    rfl
  · rw [← hvq]
    exact congrArg (mapGet [] (4 * d.set.home + d.set.cls)) (ready.trans (by rw [rest]))
  · exact (hnode j).trans ((others j hj).trans ((hvn j).trans (if_neg hj)))

end

end

end Sys2Proof.Machine
end

section
/-!
PROOFS. Leads of a beat: the clusters that it wakes and the context that it pages in (R143, R172, R173, R494).
-/

namespace Sys2Proof.Machine

section
variable {s t : State} {g n k : Nat} {d : NodeD}

/-! ## Clusters that wake (R492, R494) -/

/-- A cluster after a wake. -/
def woken (clk : Nat) (c : Cluster) : Cluster :=
  match c.pwr with
  | .sleep => if c.waking then c else { c with waking := true, wakeAt := clk + 125 }
  | .off => if c.waking then c else { c with waking := true, wakeAt := clk + 750 }
  | .idle => { c with since := clk }
  | .run => c

theorem wakeCluster_cl (n j : Nat) (s : State) : (wakeCluster n s).cl j = if j = n then woken s.clk (s.cl n) else s.cl j := by
  have upd : ∀ f : Cluster → Cluster, (s.updClu n f).cl j = if j = n then f (s.cl n) else s.cl j := fun f => mapGet_upd _ _ _ _ _
  have same : s.cl j = if j = n then s.cl n else s.cl j := by split <;> simp_all
  unfold wakeCluster woken
  dsimp only
  cases hp : (s.cl n).pwr with
  | sleep => dsimp only; split; exacts [same, (upd _).trans (by rw [hp])]
  | off => dsimp only; split; exacts [same, (upd _).trans (by rw [hp])]
  | idle => exact (upd _).trans (by rw [hp])
  | run => exact same

theorem woken_again (clk : Nat) (c : Cluster) : woken clk (woken clk c) = woken clk c := by
  cases hp : c.pwr with
  | sleep => cases hw : c.waking <;> simp [woken, hp, hw]
  | off => cases hw : c.waking <;> simp [woken, hp, hw]
  | idle => simp [woken, hp]
  | run => simp [woken, hp]

theorem wakeCluster_kept (n : Nat) (s : State) : Kept [.clu] s (wakeCluster n s) := (wakeCluster_only n s).kept

/-- Wakes of several clusters. -/
theorem wakes_cl : ∀ (ns : List Nat) (s : State) (c : Nat), Kept [.clu] s (ns.foldl (fun s n => wakeCluster n s) s) ∧
    (ns.foldl (fun s n => wakeCluster n s) s).cl c = if c ∈ ns then woken s.clk (s.cl c) else s.cl c
  | [], s, _ => ⟨Kept.refl _ s, by rw [if_neg List.not_mem_nil]; rfl⟩
  | n :: ns, s, c => by
    have first := wakeCluster_kept n s
    obtain ⟨rest, shown⟩ := wakes_cl ns (wakeCluster n s) c
    refine ⟨first.trans rest, shown.trans ?_⟩
    rw [first .clk (by decide), wakeCluster_cl]
    by_cases hc : c = n
    · subst hc
      rw [if_pos rfl, if_pos (List.mem_cons_self ..), woken_again]
      split <;> rfl
    · rw [if_neg hc]
      simp only [List.mem_cons, hc, false_or]

/-- The HOME clusters of a group. -/
def homesOf (s : State) (ns : List Nat) : List Nat := ns.filterMap (fun n => (s.node? n).map (fun d => d.set.home))

/-- The wake of a node's HOME cluster. -/
def wakeHome (s : State) (n : Nat) : State := match s.node? n with | some d => wakeCluster d.set.home s | none => s

theorem groupWakes (s : State) (ns : List Nat) : ns.foldl wakeHome s = (homesOf s ns).foldl (fun s n => wakeCluster n s) s := by
  induction ns generalizing s with
  | nil => rfl
  | cons n ns ih =>
    unfold homesOf
    rw [List.foldl_cons, List.filterMap_cons, wakeHome]
    cases hn : s.node? n with
    | none => exact ih s
    | some d =>
      have same : ∀ j, (wakeCluster d.set.home s).node? j = s.node? j := node?_congr (wakeCluster_kept _ s .bull (by decide))
      dsimp only [Option.map_some]
      rw [List.foldl_cons, ih (wakeCluster d.set.home s)]
      unfold homesOf
      simp only [same]

/-- A lead that has begun wakes the HOME cluster of every member (R143). -/
theorem beatWake_wakes (hb : canBeat s g = true) (hl : s.fld fBullWakeLeadUs ≠ 0) (ht : beatTime s g ≤ s.time.t + s.fld fBullWakeLeadUs * 1000 * nsUnit) :
    ∃ t, exec (.beatWakeLead g) s = .next t ∧ Kept [.clu] s t ∧
      ∀ n ∈ (s.gen g).members, ∀ d, s.node? n = some d → t.cl d.set.home = woken s.clk (s.cl d.set.home) := by
  have now : advanceTo (beatTime s g - s.fld fBullWakeLeadUs * 1000 * nsUnit) s = s := advanceTo_passed (by omega)
  refine ⟨(homesOf s (s.gen g).members).foldl (fun s n => wakeCluster n s) s, ?_, (wakes_cl _ s 0).1, fun n hn d hd => ?_⟩
  · show Host.Outcome.next (beatWake g s) = _
    unfold beatWake
    dsimp only
    rw [if_pos (by rw [hb]; simpa using hl), now]
    exact congrArg Host.Outcome.next (groupWakes s _)
  · rw [(wakes_cl _ s d.set.home).2, if_pos]
    exact List.mem_filterMap.mpr ⟨n, hn, by rw [hd]; rfl⟩

/-! ## A context that is paged in ahead (R172, R173) -/

/-- The choice of slots turns on the residences, the page-ins, the nodes and the cycle. -/
theorem chooseSlot_congr (hr : t.gh.res = s.gh.res) (hp : t.gh.pageIns = s.gh.pageIns) (hb : t.bull = s.bull) (hc : t.clk = s.clk) (k m : Nat) :
    chooseSlot t k m = chooseSlot s k m := by
  have node := node?_congr hb
  have res : ∀ j, t.resOf j = s.resOf j := fun j => congrArg (mapFind? j) hr
  have core : ∀ j, reservedCore t j = reservedCore s j := fun j => by unfold reservedCore; simp only [node, res, hp]
  have pins : ∀ j, nodePins t j = nodePins s j := fun j => by unfold nodePins; simp only [node, core]
  have pages : ∀ j, nodePages t j = nodePages s j := fun j => by unfold nodePages; simp only [node]
  have occ : occupants t k = occupants s k := by unfold occupants; simp only [hr, hp, pins, pages]
  have rank : ∀ o, groupRank t o = groupRank s o := fun o => by unfold groupRank lastDispatch; simp only [node, res, hc]
  unfold chooseSlot
  simp only [occ, rank]

theorem placePageIn_fld {p : PageIn} {f : Fld} (h1 : f.addr ≠ fGhPfWasteCount.addr) (h2 : f.addr ≠ fGhIntStatNoslot.addr) (n : Nat) (s : State) :
    (placePageIn n p s).fld f = s.fld f := by
  unfold placePageIn
  split
  · exact congrArg (fun w => bits w f.lo f.w) ((evictions_kept _ s).2 f.addr (by simpa using h1))
  · exact congrArg (fun w => bits w f.lo f.w) (raiseFld_reg 0x05 fGhIntStatNoslot _ h2)

/-- A page-in takes the slots that are chosen for it, or waits without. -/
theorem placePageIn_chosen (p : PageIn) :
    ∃ q, mapFind? n (placePageIn n p s).gh.pageIns = some q ∧ q.core = p.core ∧ q.pre = p.pre ∧ q.resv = p.resv ∧
      q.slot = chooseSlot s p.core (nodePages s n) := by
  cases hc : chooseSlot s p.core (nodePages s n) with
  | some b => exact ⟨_, (placePageIn_placed hc).2.2, rfl, rfl, rfl, rfl⟩
  | none =>
    unfold placePageIn
    rw [hc]
    dsimp only
    rw [raiseFld_kept 0x05 fGhIntStatNoslot _ .gh (by decide)]
    exact ⟨_, mapFind?_insert_self .., rfl, rfl, rfl, rfl⟩

theorem invalidate_absent (h : s.resOf n = none) : invalidate n s = s := by
  unfold invalidate
  rw [h]

/-- The state in which a prefetch asks for its slots. -/
def prefetchCounted (k : Nat) (s : State) : State :=
  ((wakeCluster (k / 16) s).bump fGhPrefetchCount 1).setGh (fun x => { x with order := x.order + 1 })

theorem startPageIn_prefetch (h : s.resOf n = none) : startPageIn n k true s =
    placePageIn n { core := k, slot := none, pre := true, resv := false, since := s.clk, order := s.gh.order } (prefetchCounted k s) := by
  have kept := wakeCluster_kept (k / 16) s
  unfold startPageIn prefetchCounted
  dsimp only
  rw [invalidate_absent h, if_pos rfl]
  have hclk : (wakeCluster (k / 16) s).clk = s.clk := kept .clk (by decide)
  have hgh : (wakeCluster (k / 16) s).gh = s.gh := kept .gh (by decide)
  show placePageIn n { core := k, slot := none, pre := true, resv := false, since := (wakeCluster (k / 16) s).clk, order := (wakeCluster (k / 16) s).gh.order } _ = _
  rw [hclk, hgh]
  rfl

theorem prefetch_starts (h : mayPrefetch s n d) (hk : prefetchTarget s n = some k) : prefetch n s = startPageIn n k true s := by
  obtain ⟨hd, hr, hp, hw, hst⟩ := h
  unfold prefetch
  rw [hd]
  dsimp only
  rw [hr, hp, hw, if_neg (by rcases hst with h | h | h <;> (rw [h]; simp)), hk]

theorem prefetch_prefetched (h : mayPrefetch s n d) (hk : prefetchTarget s n = some k) : Prefetched n k s (prefetch n s) ∧ (prefetch n s).bull = s.bull := by
  have hbull : (prefetch n s).bull = s.bull := (prefetch_mild n s).kept .bull (by decide)
  refine ⟨?_, hbull⟩
  rw [prefetch_starts h hk, startPageIn_prefetch h.2.1]
  have kept := wakeCluster_kept (k / 16) s
  have hgh : (wakeCluster (k / 16) s).gh = s.gh := kept .gh (by decide)
  have counted : (prefetchCounted k s).fld fGhPrefetchCount = (s.fld fGhPrefetchCount + 1) % 2 ^ 32 := by
    show ((wakeCluster (k / 16) s).bump fGhPrefetchCount 1).fld fGhPrefetchCount = _
    rw [bump_fld_self fGhPrefetchCount (by decide), fld_congr (kept .regs (by decide))]
    rfl
  have bull : (prefetchCounted k s).bull = s.bull := kept .bull (by decide)
  obtain ⟨q, hq, hcore, hpre, hresv, hslot⟩ := placePageIn_chosen (n := n) (s := prefetchCounted k s)
    { core := k, slot := none, pre := true, resv := false, since := s.clk, order := s.gh.order }
  refine ⟨?_, q, hq, hcore, hpre, hresv, hslot.trans ?_⟩
  · rw [placePageIn_fld (by decide) (by decide), counted]
  · have pages : nodePages (prefetchCounted k s) n = nodePages s n := by unfold nodePages; rw [node?_congr bull]
    rw [pages]
    exact chooseSlot_congr (congrArg GhSt.res hgh) (congrArg GhSt.pageIns hgh) bull (kept .clk (by decide)) _ _

/-- A node is of a class. -/
def ofClass (s : State) (c n : Nat) : Bool := match s.node? n with | some d => d.set.cls == c | none => false

theorem byClass_is (s : State) (ns : List Nat) : byClass s ns = (List.range 4).flatMap (fun c => ns.filter (ofClass s c)) := rfl

theorem byClass_one (hd : s.node? n = some d) (hc : d.set.cls < 4) : byClass s [n] = [n] := by
  have cls : ∀ c, ofClass s c n = (d.set.cls == c) := fun c => by unfold ofClass; rw [hd]
  rw [byClass_is, show List.range 4 = [0, 1, 2, 3] from rfl]
  simp only [List.flatMap_cons, List.flatMap_nil, List.filter_singleton, cls]
  have cases : d.set.cls = 0 ∨ d.set.cls = 1 ∨ d.set.cls = 2 ∨ d.set.cls = 3 := by omega
  rcases cases with h | h | h | h <;> (rw [h]; rfl)

/-- A lead that has begun pages in the context of a member (R143, R172). -/
theorem beatPrefetch_prefetches (hb : canBeat s g = true) (hl : s.fld fBullPfLeadNs ≠ 0) (ht : beatTime s g ≤ s.time.t + s.fld fBullPfLeadNs * nsUnit)
    (hm : (s.gen g).members = [n]) (h : mayPrefetch s n d) (hc : d.set.cls < 4) (hk : prefetchTarget s n = some k) :
    ∃ t, exec (.prefetchNotice g) s = .next t ∧ Prefetched n k s t ∧ t.bull = s.bull := by
  refine ⟨prefetch n s, ?_, prefetch_prefetched h hk⟩
  have now : advanceTo (beatTime s g - s.fld fBullPfLeadNs * nsUnit) s = s := advanceTo_passed (by omega)
  show Host.Outcome.next (beatPrefetch g s) = _
  unfold beatPrefetch
  dsimp only
  rw [if_pos (by rw [hb]; simpa using hl), now, hm, byClass_one h.1 hc]
  rfl

/-- A generator that may not beat has no leads. -/
theorem leads_idle (hb : canBeat s g = false) : exec (.beatWakeLead g) s = .next s ∧ exec (.prefetchNotice g) s = .next s := by
  constructor
  · show Host.Outcome.next (beatWake g s) = _
    unfold beatWake
    dsimp only
    rw [if_neg (by rw [hb]; simp)]
  · show Host.Outcome.next (beatPrefetch g s) = _
    unfold beatPrefetch
    dsimp only
    rw [if_neg (by rw [hb]; simp)]

end

end Sys2Proof.Machine
end

section
/-!
PROOFS. Timers: how a due timer fires, what its completion record is, and which timer of a list is released (R153, R154, R156, R158, R172).
-/

namespace Sys2Proof.Machine

section
variable {s : State}

/-! ## Completion records (R158) -/

/-- A completion record. -/
def tcrRecord (id : Nat) (x : Timer) (late : Bool) (lateness : Nat) (dropped : Bool) : List Byte :=
  leBytes 4 (id + (if late then 7 else 0) * 65536 + bitOf dropped * 2 ^ 24) ++ leBytes 4 x.tag ++ leBytes 4 (x.target + lateness * 2 ^ 18) ++ leBytes 4 x.due

theorem tcrRecord_length (id : Nat) (x : Timer) (late : Bool) (lateness : Nat) (dropped : Bool) : (tcrRecord id x late lateness dropped).length = 16 := by
  unfold tcrRecord
  simp only [List.length_append, leBytes_length]

/-- The address of the next completion record. -/
def tcrAt (s : State) : Nat := s.fld fBullTcrBaseLoAddr * 16 + s.fld fBullTcrBaseHiAddr * 2 ^ 32 + 16 * s.fld fBullTcrHeadIndex

/-- The ring of completion records has no place. -/
def tcrFull (s : State) : Bool := ringFull (s.fld fBullTcrHeadIndex) (s.fld fBullTcrTailIndex) (s.fld fBullTcrSizeEntries)

section
variable (id : Nat) (x : Timer) (late : Bool) (lateness : Nat) (dropped : Bool)

theorem tcrWrite_lost (h : tcrFull s = true) : tcrWrite id x late lateness dropped s = raiseFld 0x04 fBullIntStatTcrOvf (s.bump fBullTcrLostCount 1) := if_pos h

theorem tcrWrite_written (h : tcrFull s = false) : tcrWrite id x late lateness dropped s =
    raiseFld 0x04 fBullIntStatTcr ((s.hbmWrite (tcrAt s) (tcrRecord id x late lateness dropped)).setFld fBullTcrHeadIndex
      ((s.fld fBullTcrHeadIndex + 1) % s.fld fBullTcrSizeEntries)) := if_neg (by rw [show ringFull _ _ _ = tcrFull s from rfl, h]; simp)

/-- Registers that a completion record may change. -/
abbrev tcrRegs : List Nat := [fBullTcrLostCount.addr, fBullIntStatTcr.addr, fBullTcrHeadIndex.addr]

theorem tcrWrite_mild (s : State) : Mild [.hbm] tcrRegs s (tcrWrite id x late lateness dropped s) := by
  cases h : tcrFull s with
  | true =>
    rw [tcrWrite_lost _ _ _ _ _ h]
    exact ((bump_mild _ _ s).mono (by simp) (by simp)).trans ((raiseFld_mild 0x04 fBullIntStatTcrOvf _).mono (by simp) (by decide))
  | false =>
    rw [tcrWrite_written _ _ _ _ _ h]
    exact (((hbmWrite_mild _ _ s).mono (by simp) (by simp)).trans ((setFld_mild _ _ _).mono (by simp) (by simp))).trans
      ((raiseFld_mild _ _ _).mono (by simp) (by decide))

theorem tcrWrite_loses (h : tcrFull s = true) : let t := tcrWrite id x late lateness dropped s
    t.hbm = s.hbm ∧ t.fld fBullTcrHeadIndex = s.fld fBullTcrHeadIndex ∧ t.fld fBullTcrLostCount = (s.fld fBullTcrLostCount + 1) % 2 ^ 32 ∧
      t.flag fBullIntStatTcrOvf = true := by
  have raised := raiseFld_mild 0x04 fBullIntStatTcrOvf (s.bump fBullTcrLostCount 1)
  dsimp only
  rw [tcrWrite_lost _ _ _ _ _ h]
  refine ⟨raised.kept .hbm (by decide), ?_, ?_, raiseFld_self _ _ (by decide) (by decide) _⟩
  · rw [raised.fld (by decide), (bump_mild _ _ s).fld (by decide)]
  · rw [raised.fld (by decide), bump_fld_self fBullTcrLostCount (by decide)]
    rfl

theorem tcrWrite_writes (h : tcrFull s = false) (hz : s.fld fBullTcrSizeEntries ≤ 65536) : let t := tcrWrite id x late lateness dropped s
    t.fld fBullTcrHeadIndex = (s.fld fBullTcrHeadIndex + 1) % s.fld fBullTcrSizeEntries ∧ t.flag fBullIntStatTcr = true ∧
      ∀ a, memRead t.hbm a = if tcrAt s ≤ a ∧ a < tcrAt s + 16 then (tcrRecord id x late lateness dropped).getD (a - tcrAt s) 0 else memRead s.hbm a := by
  have raised := raiseFld_mild 0x04 fBullIntStatTcr ((s.hbmWrite (tcrAt s) (tcrRecord id x late lateness dropped)).setFld fBullTcrHeadIndex
      ((s.fld fBullTcrHeadIndex + 1) % s.fld fBullTcrSizeEntries))
  have positive : 0 < s.fld fBullTcrSizeEntries := by
    unfold tcrFull ringFull at h
    simp only [Bool.or_eq_false_iff, beq_eq_false_iff_ne] at h
    omega
  have below := Nat.mod_lt (s.fld fBullTcrHeadIndex + 1) positive
  dsimp only
  rw [tcrWrite_written _ _ _ _ _ h]
  refine ⟨?_, raiseFld_self _ _ (by decide) (by decide) _, fun a => ?_⟩
  · rw [raised.fld (by decide), State.fld_setFld_self _ fBullTcrHeadIndex (by decide)]
    exact Nat.mod_eq_of_lt (Nat.lt_of_lt_of_le below hz)
  · rw [raised.kept .hbm (by decide)]
    exact (memRead_writeList _ _ _ _).trans (by rw [tcrRecord_length])

end

/-! ## A timer that fires (R153, R154) -/

variable {i : Nat} {x : Timer} {d : NodeD}

/-- How late a timer is. -/
def lateBy (s : State) (x : Timer) : Int := (s.tick : Int) - timerKey x

/-- A late timer says so at its target, up to a bound. -/
def lateness (s : State) (x : Timer) : Nat := min (lateBy s x).toNat 16383

/-- A late timer posts LATE in its flag's place where it asks for it. -/
def dropped (s : State) (x : Timer) : Bool := decide (0 < lateBy s x) && x.dropLate

/-- What a firing counts: its lateness at the target, and the event. -/
def firingCounted (n : Nat) (late : Bool) (by_ : Nat) (s : State) : State :=
  pmuEvent 256 0x104 1 (if late then (s.updNode n (fun d => { d with late := max d.late by_ })).bump fBullLateTimersCount 1 else s)

/-- The target's descriptor once its timer has fired. -/
def firedNode (s : State) (x : Timer) (d : NodeD) : NodeD :=
  { d with flags := d.flags ||| (if dropped s x = true then 0x8000 else 2 ^ x.flag)
           late := if 0 < lateBy s x then max d.late (lateness s x) else d.late }

/-- The state in which a timer has posted and gone, and has been counted. -/
def fired (i : Nat) (x : Timer) (d : NodeD) (s : State) : State :=
  firingCounted x.target (decide (0 < lateBy s x)) (lateness s x)
    (timerGone i (s.setNode x.target { d with flags := d.flags ||| (if dropped s x = true then 0x8000 else 2 ^ x.flag) }))

theorem fireTimer_is (hd : s.node? x.target = some d) (hp : plainPost d) : fireTimer i x s =
    if x.report then tcrWrite i x (decide (0 < lateBy s x)) (lateness s x) (dropped s x) (fired i x d s) else fired i x d s := by
  have posted := postNode_plain (flags := if dropped s x = true then 0x8000 else 2 ^ x.flag) hd hp
  unfold fireTimer
  dsimp only
  rw [show (decide (0 < (s.tick : Int) - timerKey x) && x.dropLate) = dropped s x from rfl, posted]
  rfl

/-- Registers that a firing may change beside its record. -/
abbrev firingRegs : List Nat := [fBullLateTimersCount.addr, (fPmuOvfPmc 256).addr]

theorem firingCounted_mild (n : Nat) (late : Bool) (by_ : Nat) (s : State) : Mild [.bull, .pmu] firingRegs s (firingCounted n late by_ s) := by
  have event := fun u : State => (pmuEvent_mild 256 0x104 1 u).mono (qs := [.bull, .pmu]) (bs := firingRegs) (by simp) (by simp)
  unfold firingCounted
  cases late with
  | true => exact (((updNode_mild _ _ s).mono (by simp) (by simp)).trans ((bump_mild _ _ _).mono (by simp) (by simp))).trans (event _)
  | false => exact event s

theorem firingCounted_bull {n : Nat} (late : Bool) (by_ : Nat) (hd : s.node? n = some d) :
    OnlyNode n { d with late := if late then max d.late by_ else d.late } s (firingCounted n late by_ s) := by
  cases late with
  | true =>
    refine (OnlyNode.congr ?_ (pmuEvent_bull ..))
    rw [if_pos rfl, updNode_eq hd]
    exact (setNode_onlyNode _).congr ((bump_mild _ _ _).kept .bull (by decide))
  | false => exact (OnlyNode.refl hd).congr (pmuEvent_bull ..)

theorem firingCounted_late (n : Nat) (late : Bool) (by_ : Nat) (s : State) :
    (firingCounted n late by_ s).fld fBullLateTimersCount = (s.fld fBullLateTimersCount + if late then 1 else 0) % 2 ^ 32 := by
  have event := fun u : State => (pmuEvent_mild 256 0x104 1 u).fld (f := fBullLateTimersCount) (by decide)
  unfold firingCounted
  rw [event]
  cases late with
  | true =>
    rw [if_pos rfl, if_pos rfl, bump_fld_self fBullLateTimersCount (by decide), (updNode_mild _ _ s).fld List.not_mem_nil]
    rfl
  | false => exact (Nat.mod_eq_of_lt (bits_lt _ 0 32)).symm

theorem fired_kept (i : Nat) (x : Timer) (d : NodeD) (s : State) : Kept [.regs, .hif, .out, .bull, .pmu] s (fired i x d s) :=
  ((setNode_kept.mono (by simp)).trans ((timerGone_kept _ _).mono (by simp))).trans (firingCounted_mild ..).kept

theorem fired_fld {f : Fld} (hf : f.addr ∉ firingRegs) : (fired i x d s).fld f = s.fld f := (firingCounted_mild ..).fld hf

theorem fired_onlyNode : OnlyNode x.target (firedNode s x d) (timerGone i s) (fired i x d s) := by
  have posted : OnlyNode x.target { d with flags := d.flags ||| (if dropped s x = true then 0x8000 else 2 ^ x.flag) } (timerGone i s)
      (timerGone i (s.setNode x.target { d with flags := d.flags ||| (if dropped s x = true then 0x8000 else 2 ^ x.flag) })) :=
    onlyNode_of_bull rfl
  have counted := firingCounted_bull (decide (0 < lateBy s x)) (lateness s x) posted.2.1
  have both := posted.trans counted
  simp only [decide_eq_true_eq] at both
  exact both

/-- What a fired timer leaves of the state, its record apart. -/
structure Fired (i : Nat) (x : Timer) (d : NodeD) (s t : State) : Prop where
  kept   : Kept [.regs, .out, .hif, .hbm, .bull, .pmu] s t
  gone   : ∀ j, mapFind? j t.bull.timers = if j = i then none else mapFind? j s.bull.timers
  node   : ∀ j, t.node? j = if j = x.target then some (firedNode s x d) else s.node? j
  late   : t.fld fBullLateTimersCount = (s.fld fBullLateTimersCount + if 0 < lateBy s x then 1 else 0) % 2 ^ 32
  silent : x.report = false → t.hbm = s.hbm ∧ t.fld fBullTcrHeadIndex = s.fld fBullTcrHeadIndex
  lost   : x.report = true → tcrFull s = true → t.hbm = s.hbm ∧ t.fld fBullTcrHeadIndex = s.fld fBullTcrHeadIndex ∧
    t.fld fBullTcrLostCount = (s.fld fBullTcrLostCount + 1) % 2 ^ 32 ∧ t.flag fBullIntStatTcrOvf = true
  record : x.report = true → tcrFull s = false → s.fld fBullTcrSizeEntries ≤ 65536 →
    t.fld fBullTcrHeadIndex = (s.fld fBullTcrHeadIndex + 1) % s.fld fBullTcrSizeEntries ∧ t.flag fBullIntStatTcr = true ∧
      ∀ a, memRead t.hbm a = if tcrAt s ≤ a ∧ a < tcrAt s + 16
        then (tcrRecord i x (decide (0 < lateBy s x)) (lateness s x) (dropped s x)).getD (a - tcrAt s) 0 else memRead s.hbm a

theorem fireTimer_fired (hd : s.node? x.target = some d) (hp : plainPost d) : Fired i x d s (fireTimer i x s) := by
  have hkept := fired_kept i x d s
  obtain ⟨rest, own, others⟩ := fired_onlyNode (i := i) (x := x) (d := d) (s := s)
  have hgone : ∀ j, mapFind? j (fired i x d s).bull.timers = if j = i then none else mapFind? j s.bull.timers := fun j => by
    rw [rest]; exact mapFind?_erase _ _ _
  have hnode : ∀ j, (fired i x d s).node? j = if j = x.target then some (firedNode s x d) else s.node? j := fun j => by
    split
    · next h => rw [h, own]
    · next h => exact others j h
  have hlate : (fired i x d s).fld fBullLateTimersCount = (s.fld fBullLateTimersCount + if 0 < lateBy s x then 1 else 0) % 2 ^ 32 := by
    have counted := firingCounted_late x.target (decide (0 < lateBy s x)) (lateness s x)
      (timerGone i (s.setNode x.target { d with flags := d.flags ||| (if dropped s x = true then 0x8000 else 2 ^ x.flag) }))
    simp only [decide_eq_true_eq] at counted
    exact counted
  rw [fireTimer_is hd hp]
  cases hr : x.report with
  | false =>
    rw [if_neg (by simp)]
    exact ⟨hkept.mono (by simp), hgone, hnode, hlate, fun _ => ⟨hkept .hbm (by decide), fired_fld (by decide)⟩, fun h => by simp [hr] at h,
      fun h => by simp [hr] at h⟩
  | true =>
    have written := tcrWrite_mild i x (decide (0 < lateBy s x)) (lateness s x) (dropped s x) (fired i x d s)
    have hbull := written.kept .bull (by decide)
    have full : tcrFull (fired i x d s) = tcrFull s := by
      unfold tcrFull
      rw [fired_fld (by decide), fired_fld (by decide), fired_fld (by decide)]
    have place : tcrAt (fired i x d s) = tcrAt s := by
      unfold tcrAt
      rw [fired_fld (by decide), fired_fld (by decide), fired_fld (by decide)]
    rw [if_pos rfl]
    refine ⟨(hkept.mono (by simp)).trans (written.kept.mono (by simp)), fun j => by rw [hbull, hgone], fun j => (node?_congr hbull j).trans (hnode j),
      (written.fld (by decide)).trans hlate, fun h => by simp [hr] at h, fun _ hf => ?_, fun _ hf hz => ?_⟩
    · obtain ⟨hbm, head, lost, flag⟩ := tcrWrite_loses i x (decide (0 < lateBy s x)) (lateness s x) (dropped s x) (full.trans hf)
      exact ⟨hbm.trans (hkept .hbm (by decide)), head.trans (fired_fld (by decide)), lost.trans (by rw [fired_fld (by decide)]), flag⟩
    · obtain ⟨head, flag, bytes⟩ := tcrWrite_writes i x (decide (0 < lateBy s x)) (lateness s x) (dropped s x) (full.trans hf)
        (by rw [fired_fld (by decide)]; exact hz)
      rw [place, hkept .hbm (by decide)] at bytes
      exact ⟨head.trans (by rw [fired_fld (by decide), fired_fld (by decide)]), flag, bytes⟩

/-! ## TIMER_FIRE and TIMER_PREFETCH_LEAD -/

theorem timerFire_idle (h : mapFind? i s.bull.timers = none ∨ s.flag fBullCtlEn = false) : exec (.timerFire i) s = .next s := by
  have none : headTimer s i = none := by
    unfold headTimer
    split
    · next hx => rw [h.resolve_left (by rw [hx]; simp)]; rfl
    · rfl
  show Host.Outcome.next (timerDue i s) = _
  unfold timerDue
  rw [none]

section
variable (hx : mapFind? i s.bull.timers = some x)
include hx

theorem timerFire_waits (h : x.held = true ∨ timerFirst s x = false) : exec (.timerFire i) s = .next s := by
  show Host.Outcome.next (timerDue i s) = _
  unfold timerDue
  cases hh : headTimer s i with
  | none => rfl
  | some y =>
    have same : y = x := by
      unfold headTimer at hh
      rw [hx] at hh
      dsimp only at hh
      split at hh
      · exact (Option.some.inj hh).symm
      · cases hh
    rw [same]
    dsimp only
    rw [if_pos (by rcases h with h | h <;> simp [h])]

theorem headTimer_is (he : s.flag fBullCtlEn = true) (hf : ∀ y ∈ s.bull.timers, y.2.list = x.list → timerBefore y.2 x = false) :
    headTimer s i = some x := by
  have head : timerAtHead s x = true := by
    unfold timerAtHead
    rw [List.all_eq_true]
    intro y hy
    by_cases hl : y.2.list = x.list
    · simp [hf y hy hl]
    · simp [hl]
  unfold headTimer
  rw [hx]
  dsimp only
  rw [he, head]
  rfl

theorem timerFire_fires (he : s.flag fBullCtlEn = true) (hf : ∀ y ∈ s.bull.timers, y.2.list = x.list → timerBefore y.2 x = false)
    (hh : x.held = false) (h1 : timerFirst s x = true) (ht : timerFireTick x ≤ s.tick) : exec (.timerFire i) s = .next (fireTimer i x s) := by
  show Host.Outcome.next (timerDue i s) = _
  unfold timerDue
  rw [headTimer_is hx he hf]
  dsimp only
  rw [if_neg (by rw [hh, h1]; simp), advanceTo_passed (timeOfTick_passed ht)]

theorem timerLead_prefetches {k : Nat} (ht : timerFireTick x ≤ s.tick + 2) (h : mayPrefetch s x.target d) (hk : prefetchTarget s x.target = some k) :
    ∃ t, exec (.timerPrefetchLead i) s = .next t ∧ Prefetched x.target k s t ∧ t.bull = s.bull := by
  refine ⟨prefetch x.target s, ?_, prefetch_prefetched h hk⟩
  show Host.Outcome.next (timerLead i s) = _
  unfold timerLead
  rw [hx]
  dsimp only
  rw [advanceTo_passed (timeOfTick_passed (by omega))]

end

theorem timerLead_idle (h : mapFind? i s.bull.timers = none) : exec (.timerPrefetchLead i) s = .next s := by
  show Host.Outcome.next (timerLead i s) = _
  unfold timerLead
  rw [h]

/-! ## TIMER_HELD_RELEASE (R156) -/

/-- A timer that stands held at the head of a list. -/
def heldAtHead (s : State) (list : Nat) (y : Nat × Timer) : Bool := y.2.list == list && y.2.held && (headTimer s y.1).isSome

theorem timerRelease_is (s : State) (list : Nat) : timerRelease list s =
    match s.bull.timers.find? (heldAtHead s list) with | some (id, t) => fireTimer id t s | none => s := by
  unfold timerRelease heldAtHead
  rfl

theorem timerRelease_idle {l : Nat} (h : ∀ y ∈ s.bull.timers, y.2.list = l → y.2.held = false) : exec (.timerHeldRelease l) s = .next s := by
  have none : s.bull.timers.find? (heldAtHead s l) = none := by
    rw [List.find?_eq_none]
    intro y hy hp
    unfold heldAtHead at hp
    simp only [Bool.and_eq_true, beq_iff_eq] at hp
    obtain ⟨⟨hl, hh⟩, -⟩ := hp
    rw [h y hy hl] at hh
    cases hh
  show Host.Outcome.next (timerRelease l s) = _
  rw [timerRelease_is, none]

/-- Where the numbers of the timers differ, each is found under its own. -/
theorem mapFind?_of_nodup {α : Type} {y : Nat × α} : ∀ {m : List (Nat × α)}, (m.map (fun z => z.1)).Nodup → y ∈ m → mapFind? y.1 m = some y.2
  | [], _, h => absurd h List.not_mem_nil
  | (a, v) :: m, hn, h => by
    rw [List.map_cons, List.nodup_cons] at hn
    unfold mapFind?
    rcases List.mem_cons.mp h with rfl | h
    · rw [if_pos rfl]
    · have other : y.1 ≠ a := fun e => hn.1 (List.mem_map.mpr ⟨y, h, e⟩)
      rw [if_neg other]
      exact mapFind?_of_nodup hn.2 h

theorem timerRelease_fires (hx : mapFind? i s.bull.timers = some x) (he : s.flag fBullCtlEn = true)
    (hf : ∀ y ∈ s.bull.timers, y.2.list = x.list → timerBefore y.2 x = false) (hh : x.held = true) (hn : (s.bull.timers.map (fun y => y.1)).Nodup)
    (ha : ∀ y ∈ s.bull.timers, y.2.list = x.list → y.1 ≠ i → timerBefore x y.2 = true) :
    exec (.timerHeldRelease x.list) s = .next (fireTimer i x s) := by
  have mem := mapFind?_mem hx
  have own : heldAtHead s x.list (i, x) = true := by
    unfold heldAtHead
    rw [hh, headTimer_is hx he hf]
    simp
  have only : ∀ y ∈ s.bull.timers, heldAtHead s x.list y = true → y = (i, x) := by
    intro y hy hp
    unfold heldAtHead at hp
    simp only [Bool.and_eq_true, beq_iff_eq] at hp
    obtain ⟨⟨hl, -⟩, head⟩ := hp
    have hy' := mapFind?_of_nodup hn hy
    by_cases hi : y.1 = i
    · have : x = y.2 := Option.some.inj (hx.symm.trans (hi ▸ hy'))
      exact Prod.ext hi this.symm
    · exfalso
      have notHead : timerAtHead s y.2 = false := by
        unfold timerAtHead
        rw [List.all_eq_false]
        exact ⟨(i, x), mem, by simp [hl, ha y hy hl hi]⟩
      unfold headTimer at head
      rw [hy'] at head
      simp [notHead] at head
  have found : s.bull.timers.find? (heldAtHead s x.list) = some (i, x) := by
    cases hf : s.bull.timers.find? (heldAtHead s x.list) with
    | none => exact absurd own (List.find?_eq_none.mp hf _ mem)
    | some y => rw [only y (List.mem_of_find?_eq_some hf) (List.find?_some hf)]
  show Host.Outcome.next (timerRelease x.list s) = _
  rw [timerRelease_is, found]

end

/-- Settles O42: the clauses on beats and their leads, on the poster, on timers, and on held timers, each by its lemma. -/
theorem beatsAndTimers : Obligations.BeatsAndTimers := by
  refine ⟨fun s g => ⟨fun hb => ⟨beat_early (.inl hb), leads_idle hb⟩, fun hf => beat_early (.inr hf), beat_boundary, ?_, ?_, ?_⟩, fun s => ⟨posterResume_idle, ?_⟩,
    fun s i => ⟨timerFire_idle, timerLead_idle, ?_⟩, fun s l => timerRelease_idle⟩
  · intro hb hf hn hc ht hp hw hl hd hm
    obtain ⟨t, e, kept, poster, posting, others, members⟩ := beat_posts hb hf hn hc ht hp hw hl hd hm
    exact ⟨t, e, kept.mono (by simp), poster, posting, others, members⟩
  · intro hb hl ht
    obtain ⟨t, e, kept, homes⟩ := beatWake_wakes hb hl ht
    refine ⟨t, e, kept, fun n hn d hd => ?_⟩
    rw [homes n hn d hd]
    exact ⟨fun hp hw => by simp [woken, hp, hw], fun hp hw => by simp [woken, hp, hw], fun hp => by simp [woken, hp]⟩
  · exact fun n d k hb hl ht hm h hc hk => beatPrefetch_prefetches hb hl ht hm h hc hk
  · intro g n d he hl hp hw hd ha
    exact ⟨posterResume_full he hl hp hd, posterResume_readies he hl hp hd ha hw, posterResume_flags he hl hp hd ha hw⟩
  · refine fun x hx => ⟨timerFire_waits hx, fun d k => timerLead_prefetches hx, fun he hf d hd plain => ?_⟩
    obtain ⟨kept, gone, node, late, silent, lost, record⟩ := fireTimer_fired (i := i) hd plain
    have shown : tcrRecord i x (decide (0 < lateBy s x)) (lateness s x) (dropped s x) =
        leBytes 4 (i + (if 0 < lateBy s x then 7 else 0) * 65536 + bitOf (dropped s x) * 2 ^ 24) ++ leBytes 4 x.tag ++
          leBytes 4 (x.target + lateness s x * 2 ^ 18) ++ leBytes 4 x.due := by
      unfold tcrRecord
      simp only [decide_eq_true_eq]
    rw [shown] at record
    refine ⟨fun hh h1 ht => ⟨_, timerFire_fires hx he hf hh h1 ht, ?_⟩, fun hh hn ha => ⟨_, timerRelease_fires hx he hf hh hn ha, ?_⟩⟩
    all_goals exact ⟨kept, (gone i).trans (if_pos rfl), fun j hj => (gone j).trans (if_neg hj), (node _).trans (if_pos rfl),
      fun j hj => (node j).trans (if_neg hj), late, silent, lost, record⟩

end Sys2Proof.Machine
end

section
/-!
PROOFS. Placements: what the delivery of a node to a core leaves, and where a READY node of a store, or one that has aged, is placed (R136, R139 to
R142, R171, R214).
-/

namespace Sys2Proof.Machine

section
variable {s t : State} {n k : Nat} {d : NodeD} {r : Res}

/-! ## The delivery (R136, R140, R141, R214) -/

/-- A descriptor once its node has been given to a core. -/
def givenNode (k : Nat) (s : State) (d : NodeD) : NodeD :=
  { d with
    flags := d.flags ^^^ (d.flags &&& d.set.mask), st := .running, late := 0, lastCore := k, lastMtc := s.mtc, dispatched := true
    consumed := d.flags &&& d.set.mask, runStart := s.clk, runCore := k, undo := none, hold := none, expired := false }

/-- A core that has been given a node. -/
def givenCore (n fresh : Nat) (d : NodeD) (r : Res) (c : Core) : Core :=
  { ({} : Core) with
    mode := .run, node := n, pc := d.set.prog, mask := c.mask, ram := c.ram, bad := c.bad, moved := c.moved, filled := c.filled, scratchId := fresh
    scratch := c.scratch.filter (fun b => decide (0x20000 ≤ b.1))
    s := [(1, rv (BitVec.ofNat 32 n)), (2, rv (BitVec.ofNat 32 (slotAddr r.slot))), (3, rv (BitVec.ofNat 32 (d.flags &&& d.set.mask))),
          (4, rv (BitVec.ofNat 32 d.late)), (5, rv (BitVec.ofNat 32 (bitOf d.rerun)))]
    ctxAddr := slotAddr r.slot, ctxPages := classPages d.ctxClass }

/-- The state in which a node's store and its descriptor show the delivery. -/
def givenAway (n k : Nat) (d : NodeD) (s : State) : State :=
  ((s.setReadyQ d.set.home d.set.cls ((s.readyQ d.set.home d.set.cls).filter (fun e => e.node != n))).setNode n
    { d with hold := none, expired := false }).setNode n (givenNode k s d)

/-- The state in which its residence shows the delivery as well. -/
def given (n k : Nat) (d : NodeD) (r : Res) (s : State) : State :=
  (givenAway n k d s).setGh (fun g => { g with res := mapInsert n { r with pre := false, resv := false, disp := s.clk } g.res })

/-- What a delivery counts: an affinity hit, a dispatch, a steal, a run and a re-run. -/
def deliveryCounted (k : Nat) (hit stolen rerun : Bool) (s : State) : State :=
  pmuEvent k 0x051 (bitOf rerun) (pmuEvent k 0x050 1 (pmuEvent 256 0x102 (bitOf stolen) (pmuEvent 256 0x101 1
    (if hit then pmuEvent 257 0x201 1 (s.bump fGhAffHitCount 1) else s))))

/-- A cluster runs once a core of it has a node. -/
def clusterRuns (k : Nat) (s : State) : State := if (s.cl (k / 16)).pwr = .idle then setPwr (k / 16) .run s else s

theorem deliver_is (hit : Bool) (hd : s.node? n = some d) (hs : d.staged = none) (hr : s.resOf n = some r) :
    ∃ fresh, deliver n k hit s = clusterRuns k ((deliveryCounted k hit (d.set.home != k / 16) d.rerun (given n k d r s)).draw.2.updCore k
      (givenCore n fresh d r)) := by
  have left := leaveReady_is hd
  have hn : (leaveReady n s).node? n = some { d with hold := none, expired := false } := by rw [left, node?_set, if_pos rfl]
  have hres : (leaveReady n s).resOf n = some r := by rw [left]; exact hr
  refine ⟨(deliveryCounted k hit (d.set.home != k / 16) d.rerun (given n k d r s)).draw.1, ?_⟩
  unfold deliver
  rw [hd]
  dsimp only
  rw [applyCommit_none hn hs, hn, hres]
  dsimp only
  rw [left]
  rfl

/-- Registers that a delivery may change. -/
abbrev deliveryRegs (k : Nat) : List Nat := [(fPmuOvfPmc 257).addr, (fPmuOvfPmc 256).addr, (fPmuOvfPmc k).addr, fGhAffHitCount.addr]

theorem deliveryCounted_mild (k : Nat) (hit stolen rerun : Bool) (s : State) : Mild [.pmu] (deliveryRegs k) s (deliveryCounted k hit stolen rerun s) := by
  have event := fun set ev m (h : (fPmuOvfPmc set).addr ∈ deliveryRegs k) (u : State) =>
    (pmuEvent_mild set ev m u).mono (qs := [.pmu]) (bs := deliveryRegs k) (List.Subset.refl _) (by simpa using h)
  have first : Mild [.pmu] (deliveryRegs k) s (if hit then pmuEvent 257 0x201 1 (s.bump fGhAffHitCount 1) else s) := by
    split
    · exact ((bump_mild _ 1 s).mono (by simp) (by simp)).trans (event 257 0x201 1 (by simp) _)
    · exact Mild.refl _ _ s
  exact (((first.trans (event 256 0x101 1 (by simp) _)).trans (event 256 0x102 _ (by simp) _)).trans (event k 0x050 1 (by simp) _)).trans
    (event k 0x051 _ (by simp) _)

theorem pmuOvf_affHit (set : Nat) : fGhAffHitCount.addr ∉ [(fPmuOvfPmc set).addr] := by
  have := pmuBase_aligned set
  have ha : fGhAffHitCount.addr % 0x1000 ≠ 0xc := by decide
  have hb : (fPmuOvfPmc set).addr = pmuBase set + 0xc := rfl
  rw [List.mem_singleton, hb]
  omega

theorem deliveryCounted_hit (k : Nat) (stolen rerun : Bool) (s : State) :
    (deliveryCounted k true stolen rerun s).fld fGhAffHitCount = (s.fld fGhAffHitCount + 1) % 2 ^ 32 := by
  have event := fun set ev m (u : State) => (pmuEvent_mild set ev m u).fld (pmuOvf_affHit set)
  unfold deliveryCounted
  rw [event, event, event, event, if_pos rfl, event, bump_fld_self fGhAffHitCount (by decide)]
  rfl

theorem clusterRuns_only (k : Nat) (s : State) : ClusterOnly (k / 16) s (clusterRuns k s) := by
  unfold clusterRuns
  split
  · exact setPwr_only _ _ s
  · exact ClusterOnly.refl _ s

theorem given_kept : Kept [.bull, .gh] s (given n k d r s) := by
  have store : ∀ (h c : Nat) (q : List ReadyEnt), Kept [.bull, .gh] s (s.setReadyQ h c q) := fun h c q p hp => by cases p <;> first | rfl | simp at hp
  have resident : ∀ (u : State) (f : GhSt → GhSt), Kept [.bull, .gh] u (u.setGh f) := fun u f p hp => by cases p <;> first | rfl | simp at hp
  exact (((store _ _ _).trans (setNode_kept.mono (by simp))).trans (setNode_kept.mono (by simp))).trans (resident _ _)

theorem given_node? (j : Nat) : (given n k d r s).node? j = if j = n then some (givenNode k s d) else s.node? j := by
  show (((s.setReadyQ _ _ _).setNode n _).setNode n (givenNode k s d)).node? j = _
  rw [node?_set]
  split
  · rfl
  · next h => rw [node?_set, if_neg h]; rfl

theorem given_readyQ : (given n k d r s).readyQ d.set.home d.set.cls = (s.readyQ d.set.home d.set.cls).filter (fun e => e.node != n) := by
  show (s.setReadyQ _ _ _).readyQ _ _ = _
  rw [readyQ_setReadyQ, if_pos rfl]

theorem given_resOf : (given n k d r s).resOf n = some { r with pre := false, resv := false, disp := s.clk } := mapFind?_insert_self ..

/-- What a delivery leaves, whatever it counts. -/
theorem deliver_leaves (hit : Bool) (hd : s.node? n = some d) (hs : d.staged = none) (hr : s.resOf n = some r) (hk : r.core = k) :
    Dispatched n k r.slot d s (deliver n k hit s) ∧ Kept [.free, .regs, .out, .hif, .bull, .gh, .core, .clu, .pmu] s (deliver n k hit s) ∧
      (hit = true → (deliver n k hit s).fld fGhAffHitCount = (s.fld fGhAffHitCount + 1) % 2 ^ 32) := by
  obtain ⟨fresh, e⟩ := deliver_is (k := k) hit hd hs hr
  rw [e]
  have counted := deliveryCounted_mild k hit (d.set.home != k / 16) d.rerun (given n k d r s)
  have hhit := fun h : hit = true => (by rw [h]; exact deliveryCounted_hit k _ _ _ :
    (deliveryCounted k hit (d.set.home != k / 16) d.rerun (given n k d r s)).fld fGhAffHitCount = ((given n k d r s).fld fGhAffHitCount + 1) % 2 ^ 32)
  generalize deliveryCounted k hit (d.set.home != k / 16) d.rerun (given n k d r s) = v at counted hhit ⊢
  have runs := (clusterRuns_only k (v.draw.2.updCore k (givenCore n fresh d r))).kept
  have bull : (clusterRuns k (v.draw.2.updCore k (givenCore n fresh d r))).bull = (given n k d r s).bull :=
    (runs .bull (by decide)).trans (counted.kept .bull (by decide))
  have gh : (clusterRuns k (v.draw.2.updCore k (givenCore n fresh d r))).gh = (given n k d r s).gh :=
    (runs .gh (by decide)).trans (counted.kept .gh (by decide))
  have vcor : ∀ j, v.cor j = s.cor j := fun j => cor_congr (t := v) (s := s) (counted.kept .core (by decide)) j
  have own : (clusterRuns k (v.draw.2.updCore k (givenCore n fresh d r))).cor k = givenCore n fresh d r (s.cor k) := by
    rw [cor_congr (runs .core (by decide)), State.cor_updCore_self]
    exact congrArg _ (vcor k)
  refine ⟨⟨?_, fun j hj => ?_, ?_, ?_, ?_, fun j hj => ?_, ?_⟩, ?_, fun h => ?_⟩
  · rw [node?_congr bull, given_node?, if_pos rfl]; rfl
  · rw [node?_congr bull, given_node?, if_neg hj]
  · exact (congrArg (fun b : BullSt => mapGet [] (4 * d.set.home + d.set.cls) b.ready) bull).trans given_readyQ
  · rw [own]
    exact ⟨rfl, rfl, rfl, rfl, rfl, rfl, rfl, rfl, rfl⟩
  · rw [own]
    refine ⟨rfl, rfl, rfl, rfl, rfl, fun i hi => ?_⟩
    have h1 : ∀ j, j ≤ 5 → i ≠ j := fun j hj => by omega
    unfold Core.sReg givenCore
    simp [mapGet, mapFind?, h1]
  · rw [cor_congr (runs .core (by decide))]
    exact (State.cor_updCore_other _ hj _).trans (vcor j)
  · rw [resOf_congr gh, given_resOf, ← hk]
  · have update : Kept [.free, .core] v (v.draw.2.updCore k (givenCore n fresh d r)) := fun p hp => by cases p <;> first | rfl | simp at hp
    exact (((given_kept.mono (by simp)).trans (counted.kept.mono (by simp))).trans (update.mono (by simp))).trans (runs.mono (by simp))
  · rw [fld_congr (runs .regs (by decide))]
    exact hhit h

/-! ## Placements in a node's own store (R141, R171) -/

theorem reservedCore_free (hp : mapFind? n s.gh.pageIns = none) (hr : s.resOf n = some r) (hv : r.resv = false) : reservedCore s n = none := by
  unfold reservedCore
  split
  · rfl
  · rw [hp, hr]
    simp [hv]

theorem placeable_free (hh : d.hold = none) (hw : d.writeBack = none) (hp : mapFind? n s.gh.pageIns = none) : placeable s n d = true := by
  unfold placeable
  rw [hh, hw, hp]
  rfl

section
variable {c : Nat} (hd : s.node? n = some d) (hh : d.hold = none) (hw : d.writeBack = none) (hp : mapFind? n s.gh.pageIns = none)
  (hr : s.resOf n = some r) (hv : r.resv = false)
include hd hh hw hp hr hv

/-- An entry whose core may take it goes there. -/
theorem placeLocal_resident (hk : (takers s c n d).contains r.core = true) : placeLocal s c n = .dispatched (deliver n r.core true s) := by
  have some_taker : (takers s c n d).isEmpty = false := by
    cases ht : takers s c n d with
    | nil => rw [ht] at hk; simp at hk
    | cons => rfl
  unfold placeLocal
  rw [hd]
  dsimp only
  rw [reservedCore_free hp hr hv, placeable_free hh hw hp, some_taker, hh, hw, hr]
  dsimp only [Option.isSome]
  rw [if_neg (by simp), if_pos hk, hv]
  rfl

/-- An entry that has waited for its core long enough is paged into the first core that may take it. -/
theorem placeLocal_elsewhere {ks : List Nat} (ht : takers s c n d = k :: ks) (hk : r.core ∉ takers s c n d) (hx : d.expired = true) :
    placeLocal s c n = .paging (startPageIn n k false (s.setNode n d)) := by
  have absent : (k :: ks).contains r.core = false := by rw [← ht]; simpa using hk
  have same : s.updNode n (fun d => { d with hold := none }) = s.setNode n d := by
    rw [updNode_eq hd]
    exact congrArg _ (by rw [← hh])
  unfold placeLocal
  rw [hd]
  dsimp only
  rw [reservedCore_free hp hr hv, placeable_free hh hw hp, ht, hh, hw, hr]
  dsimp only [Option.isSome]
  rw [if_neg (by simp), absent, if_neg (by simp), hx, if_neg (by simp), same]

end

/-- The decision of a store whose first entry is placed. -/
theorem dispatchCluster_first {c : Nat} {rest : List Nat} (he : s.flag fBullCtlEn = true) (ho : storeOrder s c = n :: rest)
    (hp : placeLocal s c n = .dispatched t ∨ placeLocal s c n = .paging t) : dispatchCluster c s = t := by
  have scanned : scanLocal c (n :: rest) s = (some t, t) := by
    unfold scanLocal
    rcases hp with hp | hp <;> rw [hp]
  unfold dispatchCluster
  rw [if_pos he, ho, scanned]

theorem nodeDispatch_decides {c : Nat} (hc : c < 16) : exec (.nodeDispatch c false) s = .next (dispatchCluster c s) := by
  show Host.Outcome.next (withKml false (fun s => if c < 16 then dispatchCluster c s else s) s) = _
  unfold withKml
  rw [if_neg (by simp)]
  exact congrArg _ (if_pos hc)

theorem nodeDispatch_idle {c : Nat} (h : c < 16 → s.flag fBullCtlEn = false) (kml : Bool) : exec (.nodeDispatch c kml) s = .next s := by
  refine exec_of rfl (withKml_same ?_ kml)
  split
  · next hc => unfold dispatchCluster; rw [if_neg (by rw [h hc]; simp)]
  · rfl

/-- A page-in that has started, of a node whose descriptor is written back as it was. -/
theorem pagedIn_under (hd : s.node? n = some d) (n' : State) (h : n' = s ∨ n' = s.setNode n d) :
    (startPageIn n k false n').resOf n = none ∧ (∃ p, mapFind? n (startPageIn n k false n').gh.pageIns = some p ∧ p.core = k ∧ p.pre = false ∧ p.resv = true) ∧
      (startPageIn n k false n').node? n = some d := by
  obtain ⟨res, paged⟩ := startPageIn_under n k n'
  refine ⟨res, paged, (node?_congr ((startPageIn_mild n k false n').kept .bull (by decide)) n).trans ?_⟩
  rcases h with rfl | rfl
  · exact hd
  · rw [node?_set, if_pos rfl]

/-! ## STEAL_AGE_EXPIRY (R142) -/

theorem stealAge_same (h : s.node? n = none ∨ s.flag fBullCtlEn = false) : stealAge n s = s := by
  unfold stealAge
  split
  · rfl
  · next d hd =>
    split
    · rfl
    · rw [if_pos (by rw [h.resolve_left (by rw [hd]; simp)]; rfl)]

theorem stealAge_idle (h : stealAge n s = s) (kml : Bool) : exec (.stealAgeExpiry n kml) s = .next s := exec_of rfl (withKml_same h kml)

/-- A core of another cluster whose choice a node is. -/
def choosesToSteal (s : State) (n home k : Nat) : Bool := k / 16 != home && stealPick s k == some n

theorem choosesToSteal_iff {home : Nat} : choosesToSteal s n home k = true ↔ k / 16 ≠ home ∧ stealPick s k = some n := by
  unfold choosesToSteal
  simp

/-- The first number of a range with a property heads those that have it. -/
theorem range_filter_least {p : Nat → Bool} {m : Nat} (hk : k < m) (hp : p k = true) (hl : ∀ j, j < k → p j = false) :
    ∃ l, (List.range m).filter p = k :: l := by
  obtain ⟨b, rfl⟩ : ∃ b, m = k + (b + 1) := ⟨m - k - 1, by omega⟩
  have before : (List.range k).filter p = [] := List.filter_eq_nil_iff.mpr fun j hj => by rw [hl j (List.mem_range.mp hj)]; simp
  refine ⟨((List.range b).map (fun j => k + 1 + j)).filter p, ?_⟩
  rw [List.range_add, List.filter_append, before, List.range_succ_eq_map, List.map_cons, List.filter_cons, Nat.add_zero, if_pos hp, List.map_map]
  simp only [List.nil_append, Function.comp_def, Nat.succ_eq_add_one, Nat.add_comm, Nat.add_left_comm]

section
variable {e : ReadyEnt} (he : s.flag fBullCtlEn = true) (hd : s.node? n = some d)
  (hq : (s.readyQ d.set.home d.set.cls).find? (fun x => x.node == n) = some e) (ha : e.since + nsCycles (s.fld fBullStealAge) ≤ s.clk)
include he hd hq ha

theorem stealAge_chooses : stealAge n s =
    match (List.range 256).filter (choosesToSteal s n d.set.home) with | k :: _ => stealTo k n s | [] => s := by
  have now : advanceSince e.since (nsCycles (s.fld fBullStealAge)) s = s := advance_passed ha s
  unfold stealAge
  rw [hd]
  dsimp only
  rw [hq]
  dsimp only
  rw [if_neg (by rw [he]; simp), now]
  rfl

theorem stealAge_none (h : ∀ k, k < 256 → k / 16 ≠ d.set.home → stealPick s k ≠ some n) : stealAge n s = s := by
  have none : (List.range 256).filter (choosesToSteal s n d.set.home) = [] := by
    rw [List.filter_eq_nil_iff]
    intro k hk hc
    obtain ⟨away, pick⟩ := choosesToSteal_iff.mp hc
    exact h k (List.mem_range.mp hk) away pick
  rw [stealAge_chooses he hd hq ha, none]

theorem stealAge_steals (hk : k < 256) (hc : k / 16 ≠ d.set.home) (hp : stealPick s k = some n)
    (hl : ∀ j, j < k → j / 16 ≠ d.set.home → stealPick s j ≠ some n) : exec (.stealAgeExpiry n false) s = .next (stealTo k n s) := by
  obtain ⟨l, first⟩ := range_filter_least (p := choosesToSteal s n d.set.home) hk (choosesToSteal_iff.mpr ⟨hc, hp⟩) fun j hj => by
    rw [← Bool.not_eq_true, choosesToSteal_iff]
    exact fun h => hl j hj h.1 h.2
  show Host.Outcome.next (withKml false (stealAge n) s) = _
  unfold withKml
  rw [if_neg (by simp), stealAge_chooses he hd hq ha, first]

end

theorem stealTo_resident (hr : s.resOf n = some r) (hv : r.resv = false) (hk : r.core = k) : stealTo k n s = deliver n k true s := by
  unfold stealTo
  rw [hr]
  dsimp only
  rw [if_pos hk, hv]
  rfl

theorem stealTo_elsewhere (hr : s.resOf n = some r) (hk : r.core ≠ k) : stealTo k n s = startPageIn n k false s := by
  unfold stealTo
  rw [hr]
  dsimp only
  rw [if_neg hk]

end

end Sys2Proof.Machine
end

section
/-!
PROOFS. A run over its budget is stopped (R147, R148, R216).
-/

namespace Sys2Proof.Machine

section
variable {s v : State} {k code : Nat} {d : NodeD}

/-- A run whose exception has been noted is stopped by it, whatever else its registers count. -/
theorem stopped_of_noted {ev : UmpEv} (hev : ev.cls = 1) (hv : Kept [.regs] s v) (hd : s.node? (s.cor k).node = some d)
    (hexc : v.fld (fCoreExcCode k) = code ∧ v.fld (fCoreExcValid k) = 1 ∧ v.fld (fCoreExcPcPc k) = (s.cor k).pc % 2 ^ 32 ∧
      v.fld (fCoreExcNodeNode k) = (s.cor k).node % 2 ^ 18) :
    Stopped k code d s (umpEvent ev (tryIdle (k / 16) (abortStart k v))) := by
  set u := abortStart k v with hu
  have after : Mild [.clu, .hbm] ledgerRegs u (umpEvent ev (tryIdle (k / 16) u)) :=
    ((tryIdle_mild _ u).mono (by simp) (List.nil_subset _)).trans ((umpContained_mild hev _).mono (by simp) (List.Subset.refl _))
  have regs : ∀ f : Fld, (∃ o, f.addr = 0x200000 + 0x1000 * k + o ∧ (o = 0x804 ∨ o = 0x808 ∨ o = 0x80c)) →
      (umpEvent ev (tryIdle (k / 16) u)).fld f = v.fld f := by
    rintro f ⟨o, hf, ho⟩
    have hnot := coreField_kept (k := k) ho
    rw [← hf, List.mem_append, not_or] at hnot
    exact (after.fld hnot.2).trans ((abortStart_mild k v).fld hnot.1)
  have vcor : v.cor k = s.cor k := cor_congr (hv .core (by decide)) k
  have hstop := abortStart_node (k := k) (s := v) (d := d) (by rw [vcor, node?_congr (hv .bull (by decide)), hd])
  have hgone := abortStart_res k v
  rw [vcor] at hstop hgone
  have hcor : (umpEvent ev (tryIdle (k / 16) u)).cor k = { s.cor k with stall := .aborting, moves := [], run := {} } := by
    rw [cor_congr (after.kept .core (by decide)) k, hu, abortStart_cor, vcor]
  obtain ⟨hcode, hvalid, hpc, hnode⟩ := hexc
  refine ⟨⟨?_, ?_, ?_, ?_⟩, ?_, ?_, ?_⟩
  · rw [regs _ ⟨0x804, rfl, .inl rfl⟩, hcode]
  · rw [regs _ ⟨0x804, rfl, .inl rfl⟩, hvalid]
  · rw [regs _ ⟨0x808, rfl, .inr (.inl rfl)⟩, hpc]
  · rw [regs _ ⟨0x80c, rfl, .inr (.inr rfl)⟩, hnode]
  · rw [hcor]
    exact ⟨rfl, rfl, rfl⟩
  · exact ⟨stoppedD k (s.cor k).run d, (node?_congr (after.kept .bull (by decide)) _).trans hstop, rfl, rfl, rfl⟩
  · exact (resOf_congr (after.kept .gh (by decide)) _).trans hgone

/-- The exception of a budget overrun, noted and counted. -/
def overrunNoted (k : Nat) (s : State) : State := (excNoted k 8 s).bump fBullBudgetOvrCount 1

theorem overrunNoted_kept : Kept [.regs] s (overrunNoted k s) :=
  (excNoted_kept k 8 s).trans (setFld_kept fBullBudgetOvrCount _ _)

theorem takeException_overrun {e : Exc} (hm : (s.cor k).mode = .run) (h8 : e.code = 8) (hs : e.strike = false) :
    ∃ ev : UmpEv, ev.cls = 1 ∧ takeException k e s = umpEvent ev (tryIdle (k / 16) (abortStart k (overrunNoted k s))) := by
  unfold takeException
  simp only [hm, decide_true, if_true, h8, hs, Bool.false_and, Bool.false_eq_true, if_false, if_neg (show (8 : Nat) ≠ 6 by decide)]
  exact ⟨_, rfl, rfl⟩

theorem overrunCount_kept (k : Nat) : fBullBudgetOvrCount.addr ∉ abortRegs k ++ ledgerRegs := by
  have hpmu := pmuBase_aligned k
  have haborts : (fCoreAbortsCount k).addr = 0x200000 + 0x1000 * k + 0x818 := rfl
  have hovf : (fPmuOvfPmc k).addr = pmuBase k + 0xc := rfl
  simp only [List.mem_append, List.mem_cons, List.not_mem_nil, or_false, not_or, haborts, hovf]
  unfold fBullBudgetOvrCount fGhPfWasteCount fSeedIntStatContained fSeedMismatchCount fUmpSeqNext fUmpContainedCount fUmpIntStat fUmpLostCount
    fUmpRingHeadIndex
  dsimp only
  omega

/-- The fields that note an exception lie in the core's own block. -/
theorem excFields_high (k : Nat) : 0x200000 ≤ (fCoreExcCode k).addr ∧ 0x200000 ≤ (fCoreExcValid k).addr ∧ 0x200000 ≤ (fCoreExcPcPc k).addr ∧
    0x200000 ≤ (fCoreExcNodeNode k).addr := by
  unfold fCoreExcCode fCoreExcValid fCoreExcPcPc fCoreExcNodeNode
  dsimp only
  omega

theorem overrunNoted_shown : (overrunNoted k s).fld (fCoreExcCode k) = 8 ∧ (overrunNoted k s).fld (fCoreExcValid k) = 1 ∧
    (overrunNoted k s).fld (fCoreExcPcPc k) = (s.cor k).pc % 2 ^ 32 ∧ (overrunNoted k s).fld (fCoreExcNodeNode k) = (s.cor k).node % 2 ^ 18 := by
  obtain ⟨hcode, hvalid, hpc, hnode⟩ := excNoted_shown (k := k) (s := s) (show 8 < 32 by decide)
  obtain ⟨code_high, valid_high, pc_high, node_high⟩ := excFields_high k
  have counted : ∀ f : Fld, 0x200000 ≤ f.addr → (overrunNoted k s).fld f = (excNoted k 8 s).fld f := fun f hf =>
    (bump_mild fBullBudgetOvrCount 1 (excNoted k 8 s)).fld (by
      rw [List.mem_singleton]
      unfold fBullBudgetOvrCount
      dsimp only
      omega)
  rw [counted _ code_high, counted _ valid_high, counted _ pc_high, counted _ node_high]
  exact ⟨hcode, hvalid, hpc, hnode⟩

/-- The exception's registers are the core's own. -/
theorem excNoted_fld {f : Fld} (hf : f.addr < 0x200000) : (excNoted k code s).fld f = s.fld f := by
  have away : ∀ o, 0x200000 ≤ o → f.addr ∉ [o] := fun o ho => by rw [List.mem_singleton]; omega
  obtain ⟨hcode, hvalid, hpc, hnode⟩ := excFields_high k
  unfold excNoted
  rw [(setFld_mild _ _ _).fld (away _ hnode), (setFld_mild _ _ _).fld (away _ hpc), (setFld_mild _ _ _).fld (away _ hvalid),
    (setFld_mild _ _ _).fld (away _ hcode)]

/-- A budget overrun stops the run and counts. -/
theorem overrun_stops {e : Exc} (hm : (s.cor k).mode = .run) (h8 : e.code = 8) (hs : e.strike = false) (hd : s.node? (s.cor k).node = some d) :
    Stopped k 8 d s (takeException k e s) ∧ (takeException k e s).fld fBullBudgetOvrCount = (s.fld fBullBudgetOvrCount + 1) % 2 ^ 32 := by
  obtain ⟨ev, hev, heq⟩ := takeException_overrun hm h8 hs
  rw [heq]
  refine ⟨stopped_of_noted hev overrunNoted_kept hd overrunNoted_shown, ?_⟩
  have hnot := overrunCount_kept k
  rw [List.mem_append, not_or] at hnot
  rw [(umpContained_mild hev _).fld hnot.2, (tryIdle_mild _ _).fld List.not_mem_nil, (abortStart_mild k _).fld hnot.1]
  unfold overrunNoted
  rw [bump_fld_self fBullBudgetOvrCount (by decide), excNoted_fld (by decide)]
  rfl

theorem budgetOver_idle (h : (s.cor k).mode ≠ .run ∨ (s.cor k).stall = .aborting) : exec (.budgetOverrun k) s = .next s := by
  refine exec_of rfl ?_
  unfold budgetOver
  dsimp only
  rw [if_neg]
  rcases h with h | h
  · simp [h]
  · rw [h]; simp

theorem coreCycles_passed {b x : Nat} (h : b * 256 ≤ x * coreCycles) : (b * 256 + coreCycles - 1) / coreCycles ≤ x := by
  unfold coreCycles at *
  split_ifs at * <;> omega

theorem budgetOver_stops (hm : (s.cor k).mode = .run) (hs : (s.cor k).stall ≠ .aborting) (hd : s.node? (s.cor k).node = some d)
    (hb : d.set.budget * 256 ≤ (s.clk - d.runStart) * coreCycles) (hc : d.runStart ≤ s.clk) :
    ∃ t, exec (.budgetOverrun k) s = .next t ∧ Stopped k 8 d s t ∧ t.fld fBullBudgetOvrCount = (s.fld fBullBudgetOvrCount + 1) % 2 ^ 32 := by
  have now : advanceSince d.runStart ((d.set.budget * 256 + coreCycles - 1) / coreCycles) s = s :=
    advance_passed (by have := coreCycles_passed hb; omega) s
  have exceeded : budgetOver k s = takeException k { code := 8, detail := (s.cor k).pc } s := by
    unfold budgetOver
    dsimp only
    rw [if_pos, hd]
    · dsimp only
      rw [now]
    · rw [hm]
      simp only [decide_true, Bool.true_and, Bool.not_eq_true']
  exact ⟨_, exec_of rfl exceeded, overrun_stops hm rfl rfl hd⟩

end

end Sys2Proof.Machine
end

section
/-!
PROOFS. What the undo of a run leaves, and the ends of an abort: a re-run, the fault policy's stop, and the post to ALT (R118, R148, R149, R159, R182).
-/

namespace Sys2Proof.Machine

section
variable {s t u v : State} {n k : Nat} {d x : NodeD}

/-! ## The undo (R118, R182) -/

/-- Registers that the undo of a run may change. -/
abbrev undoRegs : List Nat :=
  fMqLostTotalCount.addr :: fMqIntStatLost.addr :: fMqRestoreTotalCount.addr :: fSeedAbortUndoCount.addr :: dropRegs

theorem countLost_mild (q : Nat) (s : State) : Mild [.mq] [fMqLostTotalCount.addr, fMqIntStatLost.addr] s (countLost q s) := by
  unfold countLost
  split
  · exact Mild.refl _ _ s
  · exact (((setQueue_mild q _ s).mono (List.Subset.refl _) (List.nil_subset _)).trans ((bump_mild _ 1 _).mono (by simp) (by simp))).trans
      ((raiseFld_mild 0x07 fMqIntStatLost _).mono (by simp) (by simp))

theorem dropOldest_mild (q : Nat) (s : State) : Mild [.seed, .hbm, .mq] undoRegs s (dropOldest q s) := by
  have counted : ∀ u : State, Mild [.seed, .hbm, .mq] undoRegs u (countLost q u) := fun u => (countLost_mild q u).mono (by simp) (by simp)
  have set : ∀ y : Queue, Mild [.seed, .hbm, .mq] undoRegs s (s.setQueue q y) := fun y => (setQueue_mild q y s).mono (by simp) (by simp)
  have freed : ∀ (e : Entry) (u : State), Mild [.seed, .hbm, .mq] undoRegs u (freeItem e u) := fun e u => (freeItem_ledger e u).mono (by simp) (by simp)
  unfold dropOldest
  split
  · exact Mild.refl _ _ s
  · split
    · dsimp only
      split
      · exact (((set _).trans ((loseMark_mild q _).mono (by simp) (by simp))).trans (freed _ _)).trans (counted _)
      · exact ((set _).trans (freed _ _)).trans (counted _)
    · split
      · exact Mild.refl _ _ s
      · exact ((discardHead_mild q s).mono (by simp) (by simp)).trans (counted _)

theorem restoreItems_mild (q : Nat) (items : List Item) (key : Nat × Bool) (s : State) :
    Mild [.seed, .hbm, .mq] undoRegs s (restoreItems q items key s) := by
  have set : ∀ (y : Queue) (u : State), Mild [.seed, .hbm, .mq] undoRegs u (u.setQueue q y) := fun y u => (setQueue_mild q y u).mono (by simp) (by simp)
  unfold restoreItems
  split
  · exact Mild.refl _ _ s
  · extract_lets counts y s1 s2
    have returned : Mild [.seed, .hbm, .mq] undoRegs s s1 := (set _ s).trans ((bump_mild _ _ _).mono (by simp) (by simp))
    have dropped : Mild [.seed, .hbm, .mq] undoRegs s s2 := returned.trans (foldl_mild _ (fun u _ => dropOldest_mild q u) _ _)
    split
    · exact dropped.trans (set _ _)
    · exact dropped

theorem undoAlloc_mild (h : Nat) (s : State) : Mild [.seed, .hbm, .mq] undoRegs s (undoAlloc h s) :=
  ((bump_mild fSeedAbortUndoCount _ s).mono (by simp) (by simp)).trans ((seedFree_mild h _).mono (by simp) (by simp))

theorem undoRun_mild (r : RunRec) (s : State) : Mild [.seed, .hbm, .mq] undoRegs s (undoRun r s) := by
  have allocs : ∀ (o : RunOp) (u : State), Mild [.seed, .hbm, .mq] undoRegs u (match o with | .balloc h => undoAlloc h u | _ => u) := fun o u => by
    split
    · exact undoAlloc_mild _ u
    · exact Mild.refl _ _ u
  have restored := foldl_mild (fun u (y : Nat × Nat × Bool) => restoreItems y.1 (poppedItems r.ops y.1) y.2 u) (fun u y => restoreItems_mild _ _ _ u) r.keys s
  exact restored.trans (foldl_mild _ (fun u o => allocs o u) r.ops _)

/-! ## A re-run (R149) -/

/-- A descriptor that enters READY again. -/
def rerunD (d : NodeD) : NodeD :=
  { d with rerun := true, barred := some d.runCore, abortWait := .none, recArm := false, flags := d.flags ||| d.recFlags, recFlags := 0 }

theorem enterRerun_room (hd : s.node? n = some d) (hc : d.recCancel = false) (hf : storeFull s d.set.home = false) :
    enterRerun n s = enterReady n true false (s.setNode n (rerunD d)) := by
  unfold enterRerun
  rw [hd]
  dsimp only
  rw [if_neg (by rw [hc]; simp), if_neg (by rw [hf]; simp)]
  rfl

theorem enterRerun_full (hd : s.node? n = some d) (hc : d.recCancel = false) (hf : storeFull s d.set.home = true) (hw : d.abortWait = .rerun) :
    enterRerun n s = s.setNode n d := by
  unfold enterRerun
  rw [hd]
  dsimp only
  rw [if_neg (by rw [hc]; simp), if_pos hf, ← hw]

theorem enterReady_head (hd : s.node? n = some d) : (enterReady n true false s).node? n = some { d with st := .ready, expired := false } ∧
    (enterReady n true false s).readyQ d.set.home d.set.cls = ⟨n, s.clk, false⟩ :: s.readyQ d.set.home d.set.cls := by
  have bull := enterReady_readied hd true false
  refine ⟨(node?_congr (t := enterReady n true false s) (s := (s.setNode n { d with st := .ready, expired := false }).setReadyQ d.set.home d.set.cls
    (⟨n, s.clk, false⟩ :: s.readyQ d.set.home d.set.cls)) bull n).trans ?_, ?_⟩
  · exact (node?_set ..).trans (if_pos rfl)
  · refine (congrArg (fun b : BullSt => mapGet [] (4 * d.set.home + d.set.cls) b.ready) bull).trans ?_
    exact (readyQ_setReadyQ ..).trans (if_pos rfl)

/-! ## The posts to ALT (R149, R159) -/

theorem postAlts_none (h : ∀ a ∈ s.bull.alts, a.source ≠ n) : postAlts n s = s := by
  have absent : s.bull.alts.find? (fun a => a.source == n) = none := List.find?_eq_none.mpr fun a ha => by simpa using h a ha
  unfold postAlts
  rw [absent]

/-- A post to ALT that has been made. -/
def altPosted (a : AltPost) (s : State) : State := { s with bull := { s.bull with alts := s.bull.alts.erase a } }

theorem postAlts_plain {a : AltPost} (ha : s.bull.alts.find? (fun a => a.source == n) = some a) (hx : s.node? a.target = some x) (hp : plainPost x) :
    postAlts n s = altPosted a (s.setNode a.target { x with flags := x.flags ||| a.flags }) := by
  unfold postAlts
  rw [ha]
  dsimp only
  rw [postNode_plain hx hp]
  rfl

theorem altPosted_kept (a : AltPost) (s : State) : Kept [.bull] s (altPosted a s) := fun p hp => by cases p <;> first | rfl | simp at hp

theorem altPosted_node? (a : AltPost) (j : Nat) : (altPosted a s).node? j = s.node? j := rfl

/-! ## The end of an abort (R148, R149) -/

/-- A descriptor whose run has been undone: the fault policy sends what the run had consumed to ALT, or it comes back. -/
def undoneD (toAlt : Bool) (d : NodeD) : NodeD :=
  { d with undo := none, aborts := (d.aborts + 1) % 65536, flags := if toAlt then d.flags else d.flags ||| d.consumed }

/-- The state in which an abort is counted. -/
def undone (n : Nat) (toAlt : Bool) (d : NodeD) (u : State) : State := (u.setNode n (undoneD toAlt d)).bump fBullAbortsCount 1

theorem undone_mild (n : Nat) (toAlt : Bool) (d : NodeD) (u : State) : Mild [.bull] [fBullAbortsCount.addr] u (undone n toAlt d u) :=
  ((setNode_mild n _ u).mono (List.Subset.refl _) (List.nil_subset _)).trans ((bump_mild _ 1 _).mono (List.nil_subset _) (List.Subset.refl _))

theorem undone_bull (toAlt : Bool) : (undone n toAlt d u).bull = (u.setNode n (undoneD toAlt d)).bull := (bump_mild _ 1 _).kept .bull (by decide)

theorem undone_count (toAlt : Bool) : (undone n toAlt d u).fld fBullAbortsCount = (u.fld fBullAbortsCount + 1) % 2 ^ 32 := by
  unfold undone
  rw [bump_fld_self fBullAbortsCount (by decide)]
  rfl

/-- A descriptor that has become DISARMED at the end of an abort. -/
def stoodDown (d : NodeD) : NodeD :=
  { d with flags := d.flags ||| d.recFlags, recFlags := 0, recArm := false, abortWait := .none, st := .disarmed, rerun := false, barred := none }

/-- A descriptor that takes over the posts recorded aside. -/
def recPosted (d : NodeD) : NodeD := { d with flags := d.flags ||| d.recFlags, recFlags := 0 }

/-- A descriptor whose recorded arm and cancel are dropped. -/
def unrecorded (d : NodeD) : NodeD := { d with recArm := false, recCancel := false, abortWait := .none }

section
variable (hd : s.node? n = some d) (ha : d.recArm = false) (hc : d.recCancel = false) (hs : d.staged = none) (hg : noUnload s = true)
include hd ha hc hs hg

/-- An aborted node without a recorded arm or cancel becomes DISARMED. -/
theorem abortDisarm_down : OnlyNode n (stoodDown d) s (abortDisarm n (s.updNode n recPosted)) ∧ Kept [.bull] s (abortDisarm n (s.updNode n recPosted)) := by
  have posted : (s.setNode n (recPosted d)).node? n = some (recPosted d) := (node?_set ..).trans (if_pos rfl)
  have down : abortDisarm n (s.setNode n (recPosted d)) = ((s.setNode n (recPosted d)).setNode n (unrecorded (recPosted d))).setNode n (stoodDown d) := by
    unfold abortDisarm
    rw [posted]
    dsimp only
    rw [if_neg (by rw [show (recPosted d).recArm = false from ha]; simp), updNode_eq posted]
    refine (disarm_plain (s := (s.setNode n (recPosted d)).setNode n (unrecorded (recPosted d))) (d := unrecorded (recPosted d))
      ((node?_set ..).trans (if_pos rfl)) hs hg).trans (congrArg _ ?_)
    unfold stoodDown unrecorded recPosted
    rw [hc]
  rw [updNode_eq hd, down]
  refine ⟨⟨rfl, (node?_set ..).trans (if_pos rfl), fun j hj => ?_⟩, (setNode_kept.trans setNode_kept).trans setNode_kept⟩
  rw [node?_set, if_neg hj, node?_set, if_neg hj, node?_set, if_neg hj]

end

theorem abortEnd_reruns (hd : u.node? n = some d) (hr : d.rerun = false) (hp : d.set.fpol < 2) (hc : d.recCancel = false) :
    abortEnd n u = enterRerun n (undone n false d u) := by
  have no_alt : (d.rerun && decide (d.set.fpol = 1)) = false := by rw [hr]; rfl
  have again : (!d.rerun && decide (d.set.fpol < 2) && !d.recCancel) = true := by rw [hr, hc, decide_eq_true hp]; rfl
  unfold abortEnd
  rw [hd]
  dsimp only
  rw [no_alt, if_pos again]
  rfl

theorem abortEnd_stops (hd : u.node? n = some d) (hp : 2 ≤ d.set.fpol ∨ d.rerun = true ∧ d.set.fpol ≠ 1) :
    abortEnd n u = postAlts n (abortDisarm n ((undone n false d u).updNode n recPosted)) := by
  have no_alt : (d.rerun && decide (d.set.fpol = 1)) = false := by
    rw [Bool.and_eq_false_iff, decide_eq_false_iff_not]
    rcases hp with h | ⟨-, h⟩
    · exact .inr (by omega)
    · exact .inr h
  have no_rerun : (!d.rerun && decide (d.set.fpol < 2)) = false := by
    rw [Bool.and_eq_false_iff, decide_eq_false_iff_not]
    rcases hp with h | ⟨h, -⟩
    · exact .inr (by omega)
    · exact .inl (by rw [h]; rfl)
  unfold abortEnd
  rw [hd]
  dsimp only
  rw [no_alt, no_rerun]
  rfl

/-- A post to ALT that is to be made. -/
def altDue (a : AltPost) (s : State) : State := { s with bull := { s.bull with alts := s.bull.alts ++ [a] } }

theorem altDue_kept (a : AltPost) (s : State) : Kept [.bull] s (altDue a s) := fun p hp => by cases p <;> first | rfl | simp at hp

theorem abortEnd_posts (hd : u.node? n = some d) (hr : d.rerun = true) (hp : d.set.fpol = 1) (hc : d.consumed ≠ 0) :
    abortEnd n u = postAlts n (abortDisarm n ((altDue ⟨n, d.set.alt, d.consumed⟩ (undone n true d u)).updNode n recPosted)) := by
  have to_alt : (d.rerun && decide (d.set.fpol = 1)) = true := by rw [hr, decide_eq_true hp]; rfl
  have no_rerun : (!d.rerun && decide (d.set.fpol < 2)) = false := by rw [hr]; rfl
  unfold abortEnd
  rw [hd]
  dsimp only
  rw [to_alt, no_rerun, if_pos (show (true && d.consumed != 0) = true by simpa using hc)]
  rfl

/-! ## ABORT_UNDO_COMPLETE (R148) -/

theorem abortUndone_idle (hd : s.node? n = some d) (hs : d.st ≠ .aborting) : exec (.abortUndoComplete n) s = .next s := by
  refine exec_of rfl ?_
  unfold abortUndone
  rw [hd]
  dsimp only
  split
  · rfl
  · rw [if_pos hs]

/-- Registers that the end of an abort may change. -/
abbrev abortEndRegs : List Nat := fBullAbortsCount.addr :: (pagingRegs ++ undoRegs)

theorem abortEnd_homePc (k : Nat) : (fCoreHomePc k).addr ∉ abortEndRegs := by
  have hk : 0x200000 ≤ (fCoreHomePc k).addr := by unfold fCoreHomePc; dsimp only; omega
  intro h
  have low : ∀ a ∈ abortEndRegs, a < 0x200000 := by decide
  exact absurd (low _ h) (by omega)

theorem abortEnd_spares (c : Nat) : (fCluSparesCount c).addr ∉ abortEndRegs := by
  have hk : 0x200000 ≤ (fCluSparesCount c).addr := by unfold fCluSparesCount; dsimp only; omega
  intro h
  have low : ∀ a ∈ abortEndRegs, a < 0x200000 := by decide
  exact absurd (low _ h) (by omega)

section
variable {r : RunRec} (hd : s.node? n = some d) (hst : d.st = .aborting) (hu : d.undo = some r) (hm : (s.cor d.runCore).mode = .run)
  (hs : (s.cor d.runCore).stall = .aborting) (hn : (s.cor d.runCore).node = n) (hk : (spareCores s (d.runCore / 16)).contains d.runCore = false)
include hd hst hu hm hs hn hk

/-- Once the abort of a run has ended, its core is at its home program. -/
theorem abortUndone_home (m : Mild [.bull, .gh, .clu, .seed, .hbm, .mq] abortEndRegs s (abortEnd n (undoRun r s))) :
    ∃ t, exec (.abortUndoComplete n) s = .next t ∧ t.bull = (abortEnd n (undoRun r s)).bull ∧ (∀ f, t.fld f = (abortEnd n (undoRun r s)).fld f) ∧
      t.cor d.runCore = resumedAt (homePc s d.runCore) (s.cor d.runCore) := by
  have same : abortUndone n s = coreHome d.runCore (abortEnd n (undoRun r s)) := by
    have hc := cor_congr (m.kept .core (by decide)) d.runCore
    unfold abortUndone
    rw [hd]
    dsimp only
    rw [hu]
    dsimp only
    rw [if_neg (by rw [hst]; simp), if_pos (by rw [hc, hm, hs, hn]; simp)]
  have hc := cor_congr (m.kept .core (by decide)) d.runCore
  have hh : homePc (abortEnd n (undoRun r s)) d.runCore = homePc s d.runCore := congrArg (4 * ·) (m.fld (abortEnd_homePc _))
  have spares : spareCores (abortEnd n (undoRun r s)) (d.runCore / 16) = spareCores s (d.runCore / 16) :=
    spareCores_congr (m.fld (abortEnd_spares _)) fun j => by rw [cor_congr (m.kept .core (by decide))]
  have working := coreHome_working (k := d.runCore) (s := abortEnd n (undoRun r s)) (by rw [hc, hm]; simp) (by rw [spares]; exact hk)
  refine ⟨_, exec_of rfl (same.trans working), rfl, fun f => rfl, ?_⟩
  rw [State.cor_updCore_self, hc, hh]

end

end

end Sys2Proof.Machine
end

section
/-!
PROOFS. ABORT_UNDO_COMPLETE, RERUN_READY_ENTRY and ARMED_READY_ENTRY: a node becomes READY again, stops, or sends its flags to ALT (R148, R149, R159).
-/

namespace Sys2Proof.Machine

section
variable {s t u : State} {n : Nat} {d : NodeD} {r : RunRec}

theorem readyQ_congr (hb : t.bull.ready = s.bull.ready) (h c : Nat) : t.readyQ h c = s.readyQ h c := by
  unfold State.readyQ
  rw [hb]

theorem storeFull_congr (hb : t.bull.ready = s.bull.ready) (c : Nat) : storeFull t c = storeFull s c := by
  unfold storeFull storeLevel
  simp only [readyQ_congr hb]

theorem undoRun_bull : (undoRun r s).bull = s.bull := (undoRun_mild r s).kept .bull (by decide)

theorem undone_ready (toAlt : Bool) : (undone n toAlt d u).bull.ready = u.bull.ready := by
  rw [undone_bull]
  rfl

theorem undone_node? (toAlt : Bool) (j : Nat) : (undone n toAlt d u).node? j = if j = n then some (undoneD toAlt d) else u.node? j :=
  (node?_congr (undone_bull toAlt) j).trans (node?_set ..)

theorem abortsCount_undo : (undoRun r s).fld fBullAbortsCount = s.fld fBullAbortsCount := (undoRun_mild r s).fld (by decide)

/-- The undo and the count of an abort, as parts of its end. -/
theorem undone_after (toAlt : Bool) : Mild [.bull, .gh, .clu, .seed, .hbm, .mq] abortEndRegs s (undone n toAlt d (undoRun r s)) :=
  ((undoRun_mild r s).mono (by decide) (by decide)).trans ((undone_mild n toAlt d _).mono (by decide) (by decide))

theorem kept_bull_mild (h : Kept [.bull] s t) : Mild [.bull, .gh, .clu, .seed, .hbm, .mq] abortEndRegs s t :=
  (h.mild (by decide)).mono (by decide) (by decide)

section
variable (hd : s.node? n = some d) (hst : d.st = .aborting) (hu : d.undo = some r) (hc : d.recCancel = false) (hm : (s.cor d.runCore).mode = .run)
  (hs : (s.cor d.runCore).stall = .aborting) (hn : (s.cor d.runCore).node = n) (hk : (spareCores s (d.runCore / 16)).contains d.runCore = false)
include hd hst hu hc hm hs hn hk

/-- A run that may run again is READY at the head of its class. -/
theorem abortUndone_reruns (hr : d.rerun = false) (hp : d.set.fpol < 2) (hf : storeFull s d.set.home = false) :
    ∃ t, exec (.abortUndoComplete n) s = .next t ∧ t.node? n = some { rerunD (undoneD false d) with st := .ready, expired := false } ∧
      t.readyQ d.set.home d.set.cls = ⟨n, s.clk, false⟩ :: s.readyQ d.set.home d.set.cls ∧
      t.fld fBullAbortsCount = (s.fld fBullAbortsCount + 1) % 2 ^ 32 ∧ t.cor d.runCore = resumedAt (homePc s d.runCore) (s.cor d.runCore) := by
  have hd' : (undoRun r s).node? n = some d := (node?_congr undoRun_bull n).trans hd
  have counted : (undone n false d (undoRun r s)).node? n = some (undoneD false d) := (undone_node? false n).trans (if_pos rfl)
  have store : (undone n false d (undoRun r s)).bull.ready = s.bull.ready := (undone_ready false).trans (by rw [undoRun_bull])
  have ended : abortEnd n (undoRun r s) = enterReady n true false ((undone n false d (undoRun r s)).setNode n (rerunD (undoneD false d))) := by
    rw [abortEnd_reruns hd' hr hp hc]
    exact enterRerun_room counted hc ((storeFull_congr store _).trans hf)
  have before := (undone_after (n := n) (d := d) (r := r) (s := s) false).trans (kept_bull_mild (setNode_kept (n := n) (d := rerunD (undoneD false d))))
  have entered := enterReady_mild n true false ((undone n false d (undoRun r s)).setNode n (rerunD (undoneD false d)))
  have after := before.trans (entered.mono (by decide) (by decide))
  rw [← ended] at after entered
  obtain ⟨t, exec_t, bull, regs, core⟩ := abortUndone_home hd hst hu hm hs hn hk after
  obtain ⟨node, queue⟩ := enterReady_head (s := (undone n false d (undoRun r s)).setNode n (rerunD (undoneD false d))) (n := n)
    (d := rerunD (undoneD false d)) ((node?_set ..).trans (if_pos rfl))
  rw [← ended] at node queue
  refine ⟨t, exec_t, (node?_congr bull n).trans node, (readyQ_congr (by rw [bull]) _ _).trans (queue.trans ?_), ?_, core⟩
  · rw [readyQ_congr (s := s) (t := (undone n false d (undoRun r s)).setNode n (rerunD (undoneD false d))) store,
      show ((undone n false d (undoRun r s)).setNode n (rerunD (undoneD false d))).clk = s.clk from before.kept .clk (by decide)]
    rfl
  · rw [regs, entered.fld (by decide), (setNode_mild _ _ _).fld List.not_mem_nil, undone_count, abortsCount_undo]

section
variable (ha : d.recArm = false) (hg : d.staged = none) (hun : noUnload s = true)
include ha hg hun

/-- A run that its fault policy stops leaves its node DISARMED. -/
theorem abortUndone_stops (hp : 2 ≤ d.set.fpol ∨ d.rerun = true ∧ d.set.fpol ≠ 1) (hl : ∀ a ∈ s.bull.alts, a.source ≠ n) :
    ∃ t, exec (.abortUndoComplete n) s = .next t ∧ t.node? n = some (stoodDown (undoneD false d)) ∧ t.bull.ready = s.bull.ready ∧
      t.fld fBullAbortsCount = (s.fld fBullAbortsCount + 1) % 2 ^ 32 ∧ t.cor d.runCore = resumedAt (homePc s d.runCore) (s.cor d.runCore) := by
  have hd' : (undoRun r s).node? n = some d := (node?_congr undoRun_bull n).trans hd
  have before := undone_after (n := n) (d := d) (r := r) (s := s) false
  have store : (undone n false d (undoRun r s)).bull.ready = s.bull.ready := (undone_ready false).trans (by rw [undoRun_bull])
  have alts : (undone n false d (undoRun r s)).bull.alts = s.bull.alts := by rw [undone_bull, setNode_bull_congr undoRun_bull]; rfl
  have counted : (undone n false d (undoRun r s)).node? n = some (undoneD false d) := (undone_node? false n).trans (if_pos rfl)
  obtain ⟨⟨rest, own, -⟩, kept⟩ := abortDisarm_down counted ha hc hg ((noUnload_congr (before.kept .graphs (by decide))).trans hun)
  have ended : abortEnd n (undoRun r s) = abortDisarm n ((undone n false d (undoRun r s)).updNode n recPosted) := by
    rw [abortEnd_stops hd' hp]
    exact postAlts_none (by rw [rest]; exact fun a ha => hl a (by rw [← alts]; exact ha))
  rw [← ended] at rest own kept
  obtain ⟨t, exec_t, bull, regs, core⟩ := abortUndone_home hd hst hu hm hs hn hk (before.trans (kept_bull_mild kept))
  refine ⟨t, exec_t, (node?_congr bull n).trans own, ?_, ?_, core⟩
  · rw [bull, rest]
    exact store
  · rw [regs, fld_congr (kept .regs (by decide)), undone_count, abortsCount_undo]

/-- What the run of a re-run had consumed goes to ALT, where the fault policy says so. -/
theorem abortUndone_posts {x : NodeD} (hr : d.rerun = true) (hp : d.set.fpol = 1) (hne : d.set.alt ≠ n) (hx : s.node? d.set.alt = some x)
    (hpx : plainPost x) (hcon : d.consumed ≠ 0) (hl : ∀ a ∈ s.bull.alts, a.source ≠ n) :
    ∃ t, exec (.abortUndoComplete n) s = .next t ∧ t.node? d.set.alt = some { x with flags := x.flags ||| d.consumed } ∧ t.bull.alts = s.bull.alts ∧
      t.node? n = some (stoodDown (undoneD true d)) := by
  have hd' : (undoRun r s).node? n = some d := (node?_congr undoRun_bull n).trans hd
  set a : AltPost := ⟨n, d.set.alt, d.consumed⟩ with ha'
  set v := undone n true d (undoRun r s) with hv
  have before : Mild [.bull, .gh, .clu, .seed, .hbm, .mq] abortEndRegs s (altDue a v) := (undone_after true).trans (kept_bull_mild (altDue_kept a v))
  have alts : v.bull.alts = s.bull.alts := by rw [hv, undone_bull, setNode_bull_congr undoRun_bull]; rfl
  have counted : (altDue a v).node? n = some (undoneD true d) := (undone_node? true n).trans (if_pos rfl)
  obtain ⟨⟨rest, own, others⟩, kept⟩ := abortDisarm_down counted ha hc hg ((noUnload_congr (before.kept .graphs (by decide))).trans hun)
  set w := abortDisarm n ((altDue a v).updNode n recPosted) with hw
  have due_alts : w.bull.alts = s.bull.alts ++ [a] := by
    rw [rest]
    exact congrArg (· ++ [a]) alts
  have own_alt : w.bull.alts.find? (fun b => b.source == n) = some a := by
    rw [due_alts, List.find?_append, List.find?_eq_none.mpr fun b hb => by simpa using hl b hb]
    simp [ha']
  have target : w.node? a.target = some x := by
    rw [others _ hne]
    exact ((undone_node? true _).trans (if_neg hne)).trans ((node?_congr undoRun_bull _).trans hx)
  have ended : abortEnd n (undoRun r s) = altPosted a (w.setNode a.target { x with flags := x.flags ||| a.flags }) := by
    rw [abortEnd_posts hd' hr hp hcon]
    exact postAlts_plain own_alt target hpx
  have last : Kept [.bull] w (altPosted a (w.setNode a.target { x with flags := x.flags ||| a.flags })) :=
    setNode_kept.trans (altPosted_kept _ _)
  obtain ⟨t, exec_t, bull, -, -⟩ := abortUndone_home hd hst hu hm hs hn hk (by
    rw [ended]; exact (before.trans (kept_bull_mild kept)).trans (kept_bull_mild last))
  have node : ∀ j, t.node? j = if j = d.set.alt then some { x with flags := x.flags ||| d.consumed } else w.node? j := fun j => by
    rw [node?_congr bull, ended, altPosted_node?, node?_set]
  refine ⟨t, exec_t, (node _).trans (if_pos rfl), ?_, ((node n).trans (if_neg (Ne.symm hne))).trans own⟩
  rw [bull, ended]
  show w.bull.alts.erase a = _
  rw [due_alts, List.erase_append_right _ fun h => hl a h rfl]
  simp

end

end

end

end Sys2Proof.Machine
end

section
/-!
PROOFS. Bullpen's events of a node (R136, R139 to R142, R146 to R149, R159, R171, R176, R214).
-/

namespace Sys2Proof.Machine

section
variable {s : State} {n k : Nat} {d x : NodeD}

/-! ## RERUN_READY_ENTRY and ARMED_READY_ENTRY (R146, R149, R159) -/

theorem rerunEntry_alts (h : ∀ d, s.node? n = some d → d.abortWait = .none) : exec (.rerunReadyEntry n) s = .next (postAlts n s) := by
  refine exec_of rfl ?_
  unfold rerunEntry
  cases hd : s.node? n with
  | none => rfl
  | some d => exact if_neg (by rw [h d hd]; simp)

theorem rerunEntry_posts (h : ∀ d, s.node? n = some d → d.abortWait = .none) {a : AltPost} (ha : s.bull.alts.find? (fun a => a.source == n) = some a)
    (hx : s.node? a.target = some x) (hp : plainPost x) :
    ∃ t, exec (.rerunReadyEntry n) s = .next t ∧ Kept [.bull] s t ∧ t.bull.alts = s.bull.alts.erase a ∧ t.bull.ready = s.bull.ready ∧
      t.node? a.target = some { x with flags := x.flags ||| a.flags } ∧ ∀ j, j ≠ a.target → t.node? j = s.node? j := by
  refine ⟨_, (rerunEntry_alts h).trans (congrArg _ (postAlts_plain ha hx hp)), setNode_kept.trans (altPosted_kept a _), rfl, rfl, ?_, fun j hj => ?_⟩
  · rw [altPosted_node?, node?_set, if_pos rfl]
  · rw [altPosted_node?, node?_set, if_neg hj]

section
variable (hd : s.node? n = some d)
include hd

section
variable (hw : d.abortWait = .rerun) (hc : d.recCancel = false)
include hw hc

omit hc in
theorem rerunEntry_rerun : exec (.rerunReadyEntry n) s = .next (enterRerun n s) := by
  refine exec_of rfl ?_
  unfold rerunEntry
  rw [hd]
  exact if_pos hw

theorem rerunEntry_enters (hf : storeFull s d.set.home = false) :
    ∃ t, exec (.rerunReadyEntry n) s = .next t ∧ t.node? n = some { rerunD d with st := .ready, expired := false } ∧
      t.readyQ d.set.home d.set.cls = ⟨n, s.clk, false⟩ :: s.readyQ d.set.home d.set.cls := by
  obtain ⟨node, queue⟩ := enterReady_head (s := s.setNode n (rerunD d)) (n := n) (d := rerunD d) ((node?_set ..).trans (if_pos rfl))
  exact ⟨_, (rerunEntry_rerun hd hw).trans (congrArg _ (enterRerun_room hd hc hf)), node, queue⟩

theorem rerunEntry_waits (hf : storeFull s d.set.home = true) :
    ∃ t, exec (.rerunReadyEntry n) s = .next t ∧ OnlyNode n d s t ∧ Kept [.bull] s t :=
  ⟨_, (rerunEntry_rerun hd hw).trans (congrArg _ (enterRerun_full hd hc hf hw)), setNode_onlyNode d, setNode_kept⟩

end

theorem armedEntry_idle (h : ¬ (d.st = .armed ∧ satisfied d = true) ∨ storeFull s d.set.home = true) : exec (.armedReadyEntry n) s = .next s := by
  refine exec_of rfl ?_
  unfold armedEntry
  rw [hd]
  refine if_neg ?_
  rw [Bool.and_eq_true, Bool.and_eq_true, decide_eq_true_eq]
  rintro ⟨armed, room⟩
  rcases h with h | h
  · exact h armed
  · rw [h] at room
    exact absurd room (by simp)

theorem armedEntry_enters (ha : d.st = .armed) (hs : satisfied d = true) (hf : storeFull s d.set.home = false) :
    ∃ t, exec (.armedReadyEntry n) s = .next t ∧ Kept [.regs, .out, .hif, .bull, .gh, .clu] s t ∧ RegsKept contextRegs s t ∧ t.bull = readied n d false false s := by
  have enters : armedEntry n s = enterReady n false false s := by
    unfold armedEntry
    rw [hd]
    exact if_pos (by rw [ha, hs, hf]; rfl)
  have m := enterReady_mild n false false s
  exact ⟨_, exec_of rfl enters, m.kept.mono (by decide), m.regs, enterReady_readied hd false false⟩

end

/-! ## DONE_COMMIT_RESUME (R146) -/

theorem doneResume_idle (h : (s.cor k).mode ≠ .doneWait ∨ (s.cor k).commit = []) : exec (.doneCommitResume k) s = .next s := by
  refine exec_of rfl ?_
  unfold doneResume
  refine if_neg ?_
  rw [Bool.and_eq_true, decide_eq_true_eq]
  rintro ⟨waits, more⟩
  rcases h with h | h
  · exact h waits
  · rw [h] at more
    exact absurd more (by simp)

section
variable {a f : Nat} {rest : List RunOp} (hm : (s.cor k).mode = .doneWait) (hc : (s.cor k).commit = .sig a f :: rest) (hx : s.node? a = some x)
include hm hc hx

omit hx in
theorem doneResume_commits : exec (.doneCommitResume k) s = .next (commitRest k (.sig a f :: rest) s) := by
  refine exec_of rfl ?_
  have waits : (decide ((s.cor k).mode = .doneWait) && !(s.cor k).commit.isEmpty) = true := by rw [hm, hc]; rfl
  unfold doneResume
  dsimp only
  rw [if_pos waits, hc]

/-- A commit whose signal finds the ready store full stays where it is. -/
theorem doneResume_waits (hr : readies f x = true) (hf : storeFull s x.set.home = true) :
    ∃ t, exec (.doneCommitResume k) s = .next t ∧ Kept [.core] s t ∧ ∀ j, t.cor j = s.cor j := by
  have held : postNode a f s = none := by rw [postNode_readies hx hr, if_pos hf]
  have stays : commitRest k (.sig a f :: rest) s = s.updCore k (fun c => { c with commit := .sig a f :: rest }) := by
    unfold commitRest commitBull
    rw [held]
    rfl
  refine ⟨_, (doneResume_commits hm hc).trans (congrArg _ stays), fun p hp => by cases p <;> first | rfl | simp at hp, fun j => ?_⟩
  by_cases hj : j = k
  · subst hj
    rw [State.cor_updCore_self, ← hc]
  · exact State.cor_updCore_other _ hj _

/-- A commit whose last signal only sets flags ends the run. -/
theorem doneResume_ends (hd : s.node? (s.cor k).node = some d) (hne : a ≠ (s.cor k).node) (hrest : rest = []) (hp : plainPost x) (hst : d.st = .running)
    (hr : d.runCore = k) (hs : satisfied d = false) (hk : (spareCores s (k / 16)).contains k = false) :
    ∃ t, exec (.doneCommitResume k) s = .next t ∧ t.node? a = some { x with flags := x.flags ||| f } ∧ t.node? (s.cor k).node = some (runEnded d) ∧
      t.cor k = atHome s k (s.cor k) ∧ t.fld (fCoreRunsCount k) = (s.fld (fCoreRunsCount k) + 1) % 2 ^ 32 := by
  subst hrest
  set v := s.setNode a { x with flags := x.flags ||| f } with hv
  have ends : commitRest k [.sig a f] s = endRun k v := by
    unfold commitRest commitBull
    rw [postNode_plain hx hp]
    rfl
  have own : v.node? (v.cor k).node = some d := (node?_set ..).trans ((if_neg hne.symm).trans hd)
  have spares : spareCores v (k / 16) = spareCores s (k / 16) := spareCores_congr rfl fun _ => Iff.rfl
  obtain ⟨core, nodes, runs⟩ := endRun_home own hst hr hs (by rw [show v.cor k = s.cor k from rfl, hm]; simp) (by rw [spares]; exact hk)
  refine ⟨_, (doneResume_commits hm hc).trans (congrArg _ ends), ?_, (nodes _).trans (if_pos rfl), core, runs⟩
  exact ((nodes a).trans (if_neg hne)).trans ((node?_set ..).trans (if_pos rfl))

end

/-! ## Runs of the Kelrik Media Library (assumption 33) -/

theorem withKml_runs {f : State → State} : (newRuns s (f s) = [] → withKml true f s = f s) ∧
    ∀ k, newRuns s (f s) = [k] → withKml true f s = kmlStart k (f s) := by
  unfold withKml
  rw [if_pos rfl]
  exact ⟨fun h => by rw [h]; rfl, fun k h => by rw [h]; rfl⟩

/-- A command that dispatches, told that the code is KML's, runs its program on the core that has received a node. -/
theorem withKml_told {f : State → State} {u : State} {i : Bool → Instr} (hi : ∀ kml, exec (i kml) s = .next (withKml kml f s))
    (h : exec (i false) s = .next u) : (newRuns s u = [] → exec (i true) s = .next u) ∧ ∀ k, newRuns s u = [k] → exec (i true) s = .next (kmlStart k u) := by
  have shown : f s = u := Host.Outcome.next.inj ((hi false).symm.trans h)
  subst shown
  obtain ⟨none, one⟩ := withKml_runs (s := s) (f := f)
  exact ⟨fun h => (hi true).trans (congrArg _ (none h)), fun k h => (hi true).trans (congrArg _ (one k h))⟩

theorem dispatches_kml {u : State} {i : Bool → Instr}
    (hi : (∃ c, i = .nodeDispatch c) ∨ (∃ n, i = .stealAgeExpiry n) ∨ ∃ n, i = .affinityHoldExpiry n) (h : exec (i false) s = .next u) :
    (newRuns s u = [] → exec (i true) s = .next u) ∧ ∀ k, newRuns s u = [k] → exec (i true) s = .next (kmlStart k u) := by
  rcases hi with ⟨c, rfl⟩ | ⟨n, rfl⟩ | ⟨n, rfl⟩ <;> exact withKml_told (fun _ => rfl) h

/-! ## NODE_DISPATCH and STEAL_AGE_EXPIRY (R139 to R142) -/

theorem mem_takers {c : Nat} (ht : canTake s k n d = true) (hk : k / 16 = c) : k ∈ takers s c n d := by
  unfold takers
  rw [List.mem_filter]
  exact ⟨List.mem_map.mpr ⟨k % 16, List.mem_range.mpr (by omega), by omega⟩, ht⟩

section
variable {r : Res} {c : Nat} {rest : List Nat} (hc : c < 16) (he : s.flag fBullCtlEn = true) (ho : storeOrder s c = n :: rest) (hd : s.node? n = some d)
  (hs : d.staged = none) (hh : d.hold = none) (hw : d.writeBack = none) (hp : mapFind? n s.gh.pageIns = none) (hr : s.resOf n = some r)
  (hv : r.resv = false)
include hc he ho hd hh hw hp hr hv

include hs in
theorem nodeDispatch_resident (ht : canTake s r.core n d = true) (hk : r.core / 16 = c) :
    ∃ t, exec (.nodeDispatch c false) s = .next t ∧ Dispatched n r.core r.slot d s t ∧ Kept [.free, .regs, .out, .hif, .bull, .gh, .core, .clu, .pmu] s t ∧
      t.fld fGhAffHitCount = (s.fld fGhAffHitCount + 1) % 2 ^ 32 := by
  have placed := placeLocal_resident hd hh hw hp hr hv (List.contains_iff_mem.mpr (mem_takers ht hk))
  obtain ⟨given, kept, hit⟩ := deliver_leaves true hd hs hr rfl
  exact ⟨_, (nodeDispatch_decides hc).trans (congrArg _ (dispatchCluster_first he ho (.inl placed))), given, kept, hit rfl⟩

theorem nodeDispatch_elsewhere {ks : List Nat} (ht : takers s c n d = k :: ks) (hk : r.core ∉ takers s c n d) (hx : d.expired = true) :
    ∃ t p, exec (.nodeDispatch c false) s = .next t ∧ t.resOf n = none ∧ mapFind? n t.gh.pageIns = some p ∧ p.core = k ∧ p.pre = false ∧ p.resv = true ∧
      t.node? n = some d := by
  have placed := placeLocal_elsewhere hd hh hw hp hr hv ht hk hx
  obtain ⟨gone, ⟨p, paged, core, pre, resv⟩, node⟩ := pagedIn_under (k := k) hd (s.setNode n d) (.inr rfl)
  exact ⟨_, p, (nodeDispatch_decides hc).trans (congrArg _ (dispatchCluster_first he ho (.inr placed))), gone, paged, core, pre, resv, node⟩

end

/-- Settles O43, event by event: each is an equation about its model function, the undo's frame carries over the end of an abort, and the commit's end is
that of `endRun`. -/
theorem nodeEvents : Obligations.NodeEvents := by
  unfold Obligations.NodeEvents
  refine ⟨fun s c h kml => nodeDispatch_idle h kml, fun s u i hi h => dispatches_kml hi h, ?_, ?_, ?_, ?_, ?_, ?_, ?_⟩
  · intro s c n rest d r hc he ho hd home hs hh hw hp hr hv
    exact ⟨fun ht hk => nodeDispatch_resident hc he ho hd hs hh hw hp hr hv ht hk,
      fun k ks ht hk hx => nodeDispatch_elsewhere hc he ho hd hh hw hp hr hv ht hk hx⟩
  · refine fun s n => ⟨fun h => stealAge_idle (stealAge_same h), fun d e he hd hq ha => ⟨fun h => stealAge_idle (stealAge_none he hd hq ha h), ?_⟩⟩
    intro k r hs hh hw hp hr hv hk away pick least
    have stolen := stealAge_steals he hd hq ha hk away pick least
    refine ⟨fun own => ⟨_, stolen.trans (congrArg _ (stealTo_resident hr hv own)), (deliver_leaves true hd hs hr own).1⟩, fun other => ?_⟩
    obtain ⟨gone, ⟨p, paged, core, -, resv⟩, node⟩ := pagedIn_under (k := k) hd s (.inl rfl)
    exact ⟨_, p, stolen.trans (congrArg _ (stealTo_elsewhere hr other)), gone, paged, core, resv, node⟩
  · exact fun s k => ⟨budgetOver_idle, fun d hm hs hd hb hc => budgetOver_stops hm hs hd hb hc⟩
  · refine fun s n => ⟨fun d hd hst => abortUndone_idle hd hst, fun d r hd hst hu hc hm hs hn hk => ⟨?_, ?_, ?_⟩⟩
    · intro hr hp hf
      obtain ⟨t, exec_t, node, queue, count, core⟩ := abortUndone_reruns hd hst hu hc hm hs hn hk hr hp hf
      exact ⟨t, exec_t, node, queue, count, by rw [core]; rfl, by rw [core]; rfl, by rw [core]; rfl⟩
    · intro hp ha hg hun hl
      obtain ⟨t, exec_t, node, ready, count, core⟩ := abortUndone_stops hd hst hu hc hm hs hn hk ha hg hun hp hl
      exact ⟨t, exec_t, node, ready, count, by rw [core]; rfl⟩
    · exact fun x hr hp ha hg hun hne hx hpx hcon hl => abortUndone_posts hd hst hu hc hm hs hn hk ha hg hun hr hp hne hx hpx hcon hl
  · exact fun s n h => ⟨fun hl => (rerunEntry_alts h).trans (congrArg _ (postAlts_none hl)), fun a x ha hx hp => rerunEntry_posts h ha hx hp⟩
  · exact fun s n d hd => ⟨fun hw hc => ⟨rerunEntry_enters hd hw hc, rerunEntry_waits hd hw hc⟩, armedEntry_idle hd, armedEntry_enters hd⟩
  · refine fun s k => ⟨doneResume_idle, fun d a f x rest hm hc hd hne hx => ⟨doneResume_waits hm hc hx, fun hrest hp hst hr hs hk => ?_⟩⟩
    exact doneResume_ends hm hc hx hd hne hrest hp hst hr hs hk

end

end Sys2Proof.Machine
end
